-- ==== Sys2Proof/Word.lean ====
section
/-! DEFINITION. The word types of the block: 32-bit registers and bytes (R6). -/

namespace Sys2Proof

/-- A 32-bit register of BAR0 (R6). -/
abbrev Word := BitVec 32

/-- A byte of a memory, a descriptor or an image. -/
abbrev Byte := BitVec 8

end Sys2Proof
end

