-- ==== Sys2Proof/Syntax.lean ====
section
/-! DEFINITION. The commands of the block: one constructor for every row of the table of operations
and events, with the operands that the outside brings with it, and the types of those operands.
Where an event's outcome is decided outside the block (a signature, a fetched image, a measured
value, the bytes of a received message), the command carries that outcome. -/

namespace Sys2Proof

/-- Through which view of BAR0 an access comes: the primary PF, or the VF bound to a partition (R811, R812). -/
inductive View where
  | pf
  | vf (p : Nat)
  deriving DecidableEq, Repr

/-- The two masters of the object dictionary (R741): the PF mailbox and the management bus. -/
inductive Master where
  | pf
  | bus
  deriving DecidableEq, Repr

/-- Who sends a request to the object dictionary (R741, R878): its master, on the bus the node's address and its TXN. -/
structure OdSrc where
  master : Master
  node   : Nat := 0
  txn    : Nat := 0
  /-- The header of its request as a number, kept with the answer (R881). -/
  hdr    : Nat := 0
  deriving DecidableEq, Repr

/-- A firmware image as the flash holds it (R948): bytes 0x000-0x1BF of its bundle header, and whether each part matches its digest and
Eswilan's signature verifies, whose key the spec does not print. -/
structure Bundle where
  header : List Byte := []
  good   : Bool := true
  deriving DecidableEq, Repr

/-- What the outside decides of a write to the dictionary: the signature of a maker's RESPONSE verifies (R741), the blocks of field notes
programmed (R897), the flash works and holds an image (R954). -/
structure Ext where
  ok      : Bool := true
  flashOk : Bool := true
  bundle  : Bundle := {}
  deriving DecidableEq, Repr

/-- Destination, source and SEQ of a frame received on the management bus (R859). -/
structure BusRx where
  dest : Nat := 0
  src  : Nat := 1
  seq  : Nat := 0
  deriving DecidableEq, Repr

/-- Whose transfer or instruction took longer than its contract worst case (R104): that of a physical constellation, another one of a
partition (a cell, a mover, a bridge), or one of no partition. -/
inductive Slow where
  | con (phys : Nat)
  | ptn (p : Nat)
  | block
  deriving DecidableEq, Repr

/-- To whom a command of a field-side reader goes: all tags, the selected one, the one with this UID. -/
inductive NfcTo where
  | all
  | selected
  | uid (u : Nat)
  deriving DecidableEq, Repr

/-- What an image says of a model that its programs serve; the image header names no place for it,
so it comes with the load. -/
structure Model where
  number : Nat
  /-- Layer count. -/
  layers : Nat
  latent : Bool
  /-- DIM, GROUPS and POS_DIM of R226, query heads, and vocabulary size. -/
  dim    : Nat
  groups : Nat
  posDim : Nat
  heads  : Nat
  /-- Query elements per lane, mask code, attention parameter record (R330) and rotary table that the model's programs use (R393). -/
  qdim     : Nat := 32
  mask     : Nat := 0
  param    : Nat := 0
  ropeTab  : Nat := 0
  vocab  : Nat
  /-- Slot width code of its tensors, where the image fixes one (R306). -/
  width  : Option Nat := none
  deriving DecidableEq, Repr


/-- An item in the body of a state message (R365); the spec gives no marks between items. -/
inductive Item where
  /-- A table image (R292). -/
  | table (image : List Byte)
  /-- A packed page descriptor of 32 bytes (R289), the page's bytes, and the words of them that are poisoned. -/
  | page (desc : List Byte) (bytes : List Byte) (poison : List Nat)
  /-- A page position acknowledged or failed (MOVE_ACK). -/
  | ack (layer pos : Nat) (ok : Bool)
  /-- The RSR (R226), the entries of the page map in the order of R238 as (index, entry), and a split plan (R347). -/
  | rsr (bytes : List Byte)
  | map (entries : List (Nat × Nat))
  | plan (bytes : List Byte)
  /-- An open tail page in BF16 (R379): layer, position, committed tokens, page bytes. -/
  | tail (layer pos tokens : Nat) (bytes : List Byte)
  /-- Group records (R347), query vectors or a partial record (R338). -/
  | raw (bytes : List Byte)
  deriving DecidableEq, Repr

/-- A state message: the fields of its state header (R364), OPARGS as a number, and its body. -/
structure StateMsg where
  srcPtn    : Nat := 0
  dstPtn    : Nat := 0
  srcHandle : Nat := 0xFFFFFFFF
  dstHandle : Nat := 0xFFFFFFFF
  epoch     : Nat := 0
  status    : Nat := 0
  tag       : Nat := 0
  seq       : Nat := 0
  qid       : Nat := 0
  items     : Nat := 0
  args      : Nat := 0
  body      : List Item := []
  deriving DecidableEq, Repr


/-- A cell as it leaves delineation (R540-R542): header, link sequence or control count, decrypted payload,
and what the checks on the bytes of the wire found (FEC, CCRC, TAG, stomp), which the cipher decides. -/
structure WireCell where
  hdr     : BitVec 128
  seq     : Nat
  payload : List Byte
  fec     : Bool := true
  ccrc    : Bool := true
  tag     : Bool := true
  stomp   : Bool := false
  deriving DecidableEq, Repr

/-- A memory message whole (R573): source device, the transaction fields of its cells, its 32-byte header
as a number, its data, and the words of the data that are poisoned. -/
structure MemMsg where
  src    : Nat
  msgId  : Nat
  stream : Nat
  sseq   : Nat
  ptn    : Nat := 0
  cls    : Nat := 0
  hdr    : BitVec 256
  data   : List Byte := []
  poison : List Nat := []
  deriving DecidableEq, Repr

/-- A RoCEv2 packet (R704): operation, queue pairs, PSN, the fields of its extended headers, payload. -/
structure RocePkt where
  /-- 0 WRITE, 1 READ, 2 FETCH_ADD, 3 COMPARE_SWAP, 4 read response, 5 atomic response, 6 ACK, 7 NAK, 8 CNP,
  9 SEND or immediate, 10 a QP1 datagram. -/
  op    : Nat
  qpn   : Nat
  psn   : Nat := 0
  addr  : Nat := 0
  key   : Nat := 0
  len   : Nat := 0
  data  : List Byte := []
  /-- AETH syndrome of an ACK or NAK, and the compare value of a COMPARE_SWAP. -/
  syn   : Nat := 0
  cmp   : Nat := 0
  /-- Source GID and queue pair, destination GID, VLAN, and whether CE is marked. -/
  gid   : Nat := 0
  srcQp : Nat := 0
  dgid  : Nat := 0
  vlan  : Nat := 0xFFFF
  ce    : Bool := false
  deriving DecidableEq, Repr

/-- An Ethernet frame: its bytes from destination address to FCS, priority, whether its IP ECN field is ECT
or CE, and the RoCE packet it carries, if it carries one. -/
structure EthFrame where
  bytes : Nat
  prio  : Nat := 0
  ect   : Bool := false
  ce    : Bool := false
  roce  : Option RocePkt := none
  deriving DecidableEq, Repr

/-- Where a request from a bound downstream link is addressed (R701). -/
inductive DlinkTarget where
  | host
  | pf
  | vf (n : Nat)
  | vdsp (n : Nat)
  deriving DecidableEq, Repr

/-- A connection message of QP1 (R710, R846): port and sub-port, GIDs of this device's partition and of the peer, queue pairs,
starting PSN, service ID, path MTU code, and the MAD it came in. -/
structure CmMsg where
  port    : Nat
  subport : Nat := 0
  gid     : Nat := 0
  peer    : Nat := 0
  lqpn    : Nat := 0
  rqpn    : Nat := 0
  psn     : Nat := 0
  sid     : Nat := 0
  mtu     : Nat := 1
  mad     : List Byte := []
  deriving DecidableEq, Repr

/-- A PTP message received on a port (R656-R659): transport (0 IEEE 802.3, 1 IPv4, 2 IPv6, 3 TIME cell), its bytes, its ingress
timestamp, its domain, and what it gives: 0 a Sync and delay exchange that it completes, 1 an Announce, 2 a Delay_Req, 3 something else; with the
outcome that IEEE 1588-2019 decides: whether it is from the best master, the offset measured in ps and the frequency estimate. -/
structure PtpMsg where
  transport : Nat := 0
  msg    : List Byte := []
  ts     : Nat := 0
  frac   : Nat := 0
  domain : Nat := 0
  kind   : Nat := 0
  parent : Bool := true
  offset : Int := 0
  freq   : Int := 0
  utc    : Int := 37
  cls    : Nat := 6
  deriving DecidableEq, Repr

/-- What start-up learns of a Far channel (R442): GiB in slots 0 and 1 (0 for an empty slot), whether slot 1 equals slot 0, whether
the channel trained, whether its SPD answered. -/
structure Dimm where
  gib0    : Nat := 0
  gib1    : Nat := 0
  same    : Bool := true
  trained : Bool := true
  spd     : Bool := false
  deriving DecidableEq, Repr

/-- A fault that a self-test finds (R891, R959): KIND, BIT, LOCATION and ADDRESS of its repair record. -/
structure Found where
  kind : Nat
  bit  : Nat := 0x7F
  loc  : Nat
  addr : Nat := 0
  deriving DecidableEq, Repr

/-- What training and self-test have found by DATA_READY (R943-R946): stacks lost, the sixteen channels, faults found by a full
start-up self-test. -/
structure Train where
  lost  : List Nat := []
  dimms : List Dimm := []
  found : List Found := []
  deriving DecidableEq, Repr

/-- The commands of the block, in the order of the table of operations and events. -/
inductive Instr where
  /-- COLD_RESET (R16): The rising edge of PWR_GOOD_IN latches the straps and starts the boot ROM and the cold-start sequence. -/
  | coldReset (straps : Nat) (imgA imgB : Bundle)
  /-- PWR_GOOD_LOSS (R993): PWR_GOOD_IN falls; every output goes high-impedance within 1 µs. -/
  | pwrGoodLoss
  /-- WARM_RESET_ASSERT (R956): The assertion of RST_N stops the data plane within 1 µs, with no fatal event. -/
  | warmResetAssert
  /-- WARM_RESET_RELEASE (R956): The deassertion of RST_N resumes the start at the rail check. -/
  | warmResetRelease
  /-- VF_FLR (R739): A function-level reset of a bound VF resets the partition's window, queues and tasks. -/
  | vfFlr (ptn : Nat)
  /-- REG_WRITE (R13): A write to a register that has no row of its own stores the value according to its access type. -/
  | regWrite (v : View) (off : Nat) (value : Word)
  /-- ALIAS_WRITE (R822): A write to a bit-alias word acts on one bit according to that bit's access type. -/
  | aliasWrite (v : View) (off : Nat) (value : Word)
  /-- PAIR_LO_WRITE (R816): A write of the LO half of a 64-bit pair stores the value in the pair's holding latch. -/
  | pairLoWrite (v : View) (off : Nat) (value : Word)
  /-- PAIR_HI_WRITE (R816): A write of the HI half applies HI together with the latched LO in one cycle. -/
  | pairHiWrite (v : View) (off : Nat) (value : Word)
  /-- BAD_ACCESS_WRITE (R813): A BAR0 write without all four byte enables is discarded and reported in BAD_ACCESS. -/
  | badAccessWrite (v : View) (off : Nat)
  /-- CYCLE_BOUNDARY (R82): An ephemeris cycle boundary is reached on Meridian time, and the work tied to boundaries runs. -/
  | cycleBoundary (fails : List (Nat × Nat))
  /-- WAKE_LEAD_REACHED (R116): The wake lead of an entry is reached, and its units begin to wake. -/
  | wakeLeadReached (sec ent : Nat) (wraps : Bool)
  /-- WAKE_COMPLETE (R74): A constellation finishes waking and is AWAKE. -/
  | wakeComplete (phys : Nat)
  /-- SLEEP_DRAIN_DONE (R75): Outstanding stores have drained, and the power switch opens into SLEEP. -/
  | sleepDrainDone (phys : Nat)
  /-- SRAM_INIT_DONE (R75): SRAM initialisation of a constellation leaving DEEP has ended. -/
  | sramInitDone (phys : Nat)
  /-- RAIL_SETTLED (R70): QTR_VDD.SETTLING clears at the new target, and a held-back clock change becomes due. -/
  | railSettled (quarter : Nat)
  /-- COMPUTE_SLOT_START (R117): A compute-class entry starts, and the dispatcher places READY work into it up to its caps. -/
  | computeSlotStart (sec ent : Nat) (fails : List Nat)
  /-- ENTRY_END (R1005): An entry ends, and its constellations take their AFTER power state. -/
  | entryEnd (sec ent : Nat)
  /-- BARRIER_COMPLETE (R122): The last unit of a barrier set arrives, and the barrier completes with its slip. -/
  | barrierComplete (sec ent : Nat)
  /-- SLOT_OVERRUN (R119): Work is still running at its entry's end, and the POLICY applies. -/
  | slotOverrun (sec ent : Nat)
  /-- BORROW_END (R119): Borrowed work finishes, or the SLACK or the cycle ends, and the overrun is reported. -/
  | borrowEnd (sec ent : Nat) (finished : Bool)
  /-- ABORT_END (R121): The last tile store of an aborted instance is written, and the abort ends. -/
  | abortEnd (sec ent : Nat)
  /-- CONTRACT_EXCEEDED (R104): A transfer or instruction exceeds its contract worst case. -/
  | contractExceeded (who : Slow) (cls measured : Nat)
  /-- MOVER_ENTRY_START (R360): A MOVER entry starts page transfers of its kind within its caps. -/
  | moverEntryStart (sec ent : Nat)
  /-- TIER_TRANSFER_DONE (R360): A page transfer of a mover ends. -/
  | tierTransferDone (xfer : Nat)
  /-- TRANSFER_ENTRY_START (R127): A TRANSFER entry starts on a port or the pair link and carries the data that is ready. -/
  | transferEntryStart (sec ent : Nat)
  /-- BRIDGE_ENTRY_START (R62): A BRIDGE entry gives bridge capacity to its partition. -/
  | bridgeEntryStart (sec ent : Nat)
  /-- GATE_ENTRY (R96): A GATE entry sets its port's gate state at START. -/
  | gateEntry (sec ent : Nat)
  /-- REFRESH_WINDOW (R447): A REFRESH window issues the refreshes due for its stack or channel. -/
  | refreshWindow (sec ent : Nat)
  /-- RECAL_MEM_WINDOW (R101): A RECAL_MEM window holds accesses to its stack or channel while it recalibrates. -/
  | recalMemWindow (sec ent : Nat)
  /-- RECAL_SERDES_WINDOW (R555): A RECAL_SERDES window starts; the port stops sending and freezes its timers. -/
  | recalSerdesWindow (sec ent : Nat)
  /-- RECAL_SERDES_WINDOW_END (R555): A RECAL_SERDES window ends, and the port resumes. -/
  | recalSerdesWindowEnd (sec ent : Nat)
  /-- EPH_LOAD_START (R141): EPH_LOAD_CTL.START begins fetching an image into the inactive banks. -/
  | ephLoadStart (abort : Bool)
  /-- EPH_LOAD_ABORT (R141): EPH_LOAD_CTL.ABORT stops a load in progress with RESULT ABORTED. -/
  | ephLoadAbort
  /-- EPH_LOAD_DONE (R105): The load checks complete, and the load ends LOADED or FAILED. -/
  | ephLoadDone (translated completed : Bool) (image : List Byte) (models : List Model)
  /-- EPH_SWITCH_ARM (R108): EPH_SWITCH_CTL.ARM arms a switch, or is refused. -/
  | ephSwitchArm
  /-- EPH_SWITCH_DISARM (R144): EPH_SWITCH_CTL.DISARM cancels an armed switch. -/
  | ephSwitchDisarm
  /-- RING_PROD_WRITE (R757): A write of PROD to an inbound ring makes new entries available to be read. -/
  | ringProdWrite (v : View) (ring : Nat) (value : Word)
  /-- RING_CONS_WRITE (R758): A write of CONS to an outbound ring frees entries for the TN915 to write. -/
  | ringConsWrite (v : View) (ring : Nat) (value : Word)
  /-- TASK_PROGRAM (R162): A PROGRAM task descriptor is read, checked and set PENDING. -/
  | taskProgram (v : View) (desc : BitVec 512)
  /-- TASK_STATUS (R174): A STATUS task writes one unit status record per unit in its set. -/
  | taskStatus (v : View) (desc : BitVec 512)
  /-- TASK_CANCEL (R161): A CANCEL task cancels the named tasks of its partition at the tick it is read. -/
  | taskCancel (v : View) (desc : BitVec 512)
  /-- TASK_COUNTERS (R175): A COUNTERS task writes one counter record per unit in its set. -/
  | taskCounters (v : View) (desc : BitVec 512)
  /-- INSTR_LDT (R181): LDT loads a 4 KiB tile into scratch, decoding it when DECODE is set. -/
  | instrLdt (inst : Nat)
  /-- LDT_COMPLETE (R181): An outstanding tile load completes. -/
  | ldtComplete (inst tile : Nat)
  /-- INSTR_STT (R181): STT issues a store of a 4 KiB tile to a tier. -/
  | instrStt (inst : Nat)
  /-- STT_WRITTEN (R187): An issued tile store is written at its destination. -/
  | sttWritten (inst tile : Nat)
  /-- INSTR_MMA (R199): MMA accumulates a matrix product by the block rule. -/
  | instrMma (inst : Nat)
  /-- INSTR_MMAQ (R184): MMAQ accumulates a product with one operand decoded from a KVQ form. -/
  | instrMmaq (inst : Nat)
  /-- INSTR_ROPE (R333): ROPE rotates 32 vectors by their positions. -/
  | instrRope (inst : Nat)
  /-- INSTR_SMAX (R327): SMAX scores, masks and applies the running softmax to a score tile. -/
  | instrSmax (inst : Nat)
  /-- INSTR_PV (R329): PV accumulates probabilities times values. -/
  | instrPv (inst : Nat)
  /-- INSTR_MRG (R341): MRG merges two partials, and finalises them when LAST is set. -/
  | instrMrg (inst : Nat)
  /-- INSTR_QNT (R275): QNT quantises values into slot form and updates the histogram when HIST is set. -/
  | instrQnt (inst n : Nat)
  /-- INSTR_ENC (R286): ENC entropy-packs the slot blocks of a component. -/
  | instrEnc (inst : Nat)
  /-- INSTR_RED (R205): RED reduces by sum, maximum or minimum. -/
  | instrRed (inst n : Nat)
  /-- INSTR_NORM (R205): NORM computes an RMS or layer norm. -/
  | instrNorm (inst n : Nat)
  /-- INSTR_ACT (R211): ACT applies an elementwise function. -/
  | instrAct (inst n : Nat)
  /-- INSTR_SAMP (R485): SAMP chooses a token from the logits. -/
  | instrSamp (inst : Nat)
  /-- INSTR_STOP (R492): STOP applies the stop checks to the chosen token. -/
  | instrStop (inst : Nat)
  /-- INSTR_MOV (R181): MOV copies lines within SRAM. -/
  | instrMov (inst n : Nat)
  /-- INSTR_SYNC (R183): SYNC waits for every instance of the task to issue the same identifier. -/
  | instrSync (inst : Nat)
  /-- INSTR_WAIT (R181): WAIT stalls until the count of outstanding transfers falls to N. -/
  | instrWait (inst : Nat)
  /-- INSTR_YIELD (R185): YIELD retires and marks a checkpoint. -/
  | instrYield (inst : Nat)
  /-- INSTR_END (R162): END ends the instance once its stores are written. -/
  | instrEnd (inst : Nat)
  /-- ILLEGAL_INSTRUCTION (R180): An instruction with a reserved encoding ends the instance with FORMAT. -/
  | illegalInstruction (inst : Nat)
  /-- CHECKPOINT_64 (R186): The 64th consecutive cycle without a checkpoint forces one. -/
  | checkpoint64 (inst : Nat)
  /-- REQ_SUBMIT (R468): A SUBMIT request descriptor is checked and accepted or refused. -/
  | reqSubmit (v : View) (desc : List Byte)
  /-- REQ_CONTINUE (R497): A CONTINUE request descriptor supplies repair and new tokens to a request. -/
  | reqContinue (v : View) (desc : List Byte)
  /-- REQ_CANCEL (R502): A CANCEL request descriptor cancels a request at the tick it is read. -/
  | reqCancel (v : View) (desc : List Byte)
  /-- REQ_STATUS (R504): A STATUS request descriptor copies the RSR to host memory. -/
  | reqStatus (v : View) (desc : List Byte)
  /-- REQ_TOKEN (R490): A TOKEN request descriptor supplies the host-chosen token. -/
  | reqToken (v : View) (desc : List Byte)
  /-- INPUT_READ_DONE (R470): The read of a request's input tokens and stop block ends, successfully or with a failure. -/
  | inputReadDone (handle : Nat) (ok : Bool) (input stops : List Byte)
  /-- WRITEBACK_DONE (R438): A write-back of a staging block is written, and its DIRTY bit is cleared. -/
  | writebackDone (xfer : Nat)
  /-- OPEN_PAGE_LOADED (R244): An open page is loaded into staging for a task that waits for it. -/
  | openPageLoaded (xfer : Nat)
  /-- TABLE_EPOCH_END (R303): A table epoch ends, and table builds start for tensors at MIN_BLOCKS. -/
  | tableEpochEnd (ptn : Nat)
  /-- TABLE_BUILD_DONE (R304): A table build ends and becomes due to turn CURRENT. -/
  | tableBuildDone (ptn model layer : Nat)
  /-- TABLE_SUPPLY (R306): A host writes a table image to the table-supply entry. -/
  | tableSupply (w : OdSrc) (ptn : Nat) (data : List Byte)
  /-- MOVE_PARK (R380): A PARK move descriptor parks a request locally or on DEST. -/
  | movePark (v : View) (desc : BitVec 512)
  /-- MOVE_PROMOTE (R380): A PROMOTE move descriptor loads pages back to the Near tier, here or on DEST. -/
  | movePromote (v : View) (desc : BitVec 512)
  /-- MOVE_EVICT (R391): An EVICT move descriptor evicts the named candidates. -/
  | moveEvict (v : View) (desc : BitVec 512)
  /-- MOVE_CLONE (R380): A CLONE move descriptor creates a new PARKED request. -/
  | moveClone (v : View) (desc : BitVec 512)
  /-- MOVE_DROP (R385): A DROP move descriptor drops a request, or sets DROP_PENDING. -/
  | moveDrop (v : View) (desc : BitVec 512)
  /-- MOVE_PLAN (R380): A PLAN move descriptor checks and installs a new split plan. -/
  | movePlan (v : View) (desc : BitVec 512)
  /-- MSG_INSTALL (R367): An INSTALL message installs an RSR held pending COMMIT. -/
  | msgInstall (dev : Nat) (m : StateMsg)
  /-- MSG_PAGES (R362): A PAGES message stores received tables and pages. -/
  | msgPages (dev : Nat) (m : StateMsg)
  /-- MSG_MOVE_ACK (R363): A MOVE_ACK message acknowledges pages, an install, a REF or a RELEASE. -/
  | msgMoveAck (dev : Nat) (m : StateMsg)
  /-- MSG_COMMIT (R369): A COMMIT message completes an install at DEST. -/
  | msgCommit (dev : Nat) (m : StateMsg)
  /-- MSG_ABORT (R373): An ABORT message frees a held install and its pages. -/
  | msgAbort (dev : Nat) (m : StateMsg)
  /-- MSG_REF (R383): A REF message adds a remote reference to a holding request. -/
  | msgRef (dev : Nat) (m : StateMsg)
  /-- MSG_RELEASE (R383): A RELEASE message removes a remote reference. -/
  | msgRelease (dev : Nat) (m : StateMsg)
  /-- MSG_FETCH (R381): A FETCH message asks a holder to send the pages of its groups. -/
  | msgFetch (dev : Nat) (m : StateMsg)
  /-- MSG_QUERY (R396): A QUERY message queues ATTEND work on the holder, or is answered with an error. -/
  | msgQuery (dev : Nat) (m : StateMsg)
  /-- MSG_PARTIAL (R399): A PARTIAL message is accepted into the partial buffer, or discarded. -/
  | msgPartial (dev : Nat) (m : StateMsg)
  /-- INSTALL_RESEND (R370): An unanswered INSTALL is resent every 1 ms, and the move fails after four sends. -/
  | installResend (handle : Nat)
  /-- INSTALL_DOUBT (R374): 100 ms pass without COMMIT or ABORT, and the held install enters DOUBT. -/
  | installDoubt (handle : Nat)
  /-- HELD_ACK_REPEAT (R372): DEST repeats its MOVE_ACK every 1 ms while an install is held. -/
  | heldAckRepeat (handle : Nat)
  /-- COMMIT_RECORD_EXPIRY (R372): An owner's 200 ms record of a committed install expires. -/
  | commitRecordExpiry (dev handle : Nat)
  /-- REF_RESEND (R383): An unacknowledged REF or RELEASE is resent every 1 ms. -/
  | refResend (handle dev target : Nat)
  /-- RECEPTION_EXPIRY (R377): A reception idle for 100 ms is released with its pages. -/
  | receptionExpiry (ptn dev handle epoch : Nat)
  /-- PAGES_BUSY_RETRY (R377): A PAGES message answered BUSY is retried after 1 ms. -/
  | pagesBusyRetry (handle : Nat)
  /-- QUERY_RESEND (R400): A group with no partial after 100 µs is re-queried, and becomes unreachable after four sends. -/
  | queryResend (handle qid first log : Nat)
  /-- EVICTION_START (R389): A partition's free Near space falls below NEAR_LOW, or an allocation fails, and eviction starts. -/
  | evictionStart (ptn : Nat)
  /-- HEAT_AGING (R387): At the end of an aging period every page heat of the partition is halved. -/
  | heatAging (ptn : Nat)
  /-- ALLOC_REQUEST (R433): An ALLOC request in the allocation mailbox places tier memory. -/
  | allocRequest (v : View)
  /-- FREE_REQUEST (R435): A FREE request in the allocation mailbox frees a live allocation. -/
  | freeRequest (v : View)
  /-- SRAM_PATROL (R417): The patrol scrubber reads a line in an idle bank cycle. -/
  | sramPatrol (key : Nat) (corrected bad : List Nat)
  /-- NEAR_PATROL (R430): The Near patrol zeroes unwritten tiles that are not already zero. -/
  | nearPatrol (tile : Nat)
  /-- SELF_REFRESH_ENTRY (R448): A stack or channel idle for 1 ms with no image in force enters self-refresh. -/
  | selfRefreshEntry (resource : Nat)
  /-- FAR_CHANNEL_LOST (R446): A Far channel fails in service and is marked LOST. -/
  | farChannelLost (chan : Nat)
  /-- FAR_SCAN_DONE (R783): The page-table scan after a channel loss ends. -/
  | farScanDone (chan : Nat)
  /-- STACK_LOST (R780): A Near stack is declared LOST, and the requests that depended on it are ended. -/
  | stackLost (stack : Nat)
  /-- TABLE_RECORD_WRITE (R509): A table record written to the table mailbox is checked and installed. -/
  | tableRecordWrite (v : View) (ptn : Nat)
  /-- MSG_LOOKUP (R514): A LOOKUP message pools the rows of its bags at the owner. -/
  | msgLookup (dev : Nat) (m : StateMsg)
  /-- MSG_POOLED (R516): A POOLED message is combined into its bag's result. -/
  | msgPooled (dev : Nat) (m : StateMsg)
  /-- MSG_UPDATE (R524): An UPDATE message is queued at the owner to be applied. -/
  | msgUpdate (dev : Nat) (m : StateMsg)
  /-- MSG_UPDATE_ACK (R525): An UPDATE_ACK message reports the result of an update. -/
  | msgUpdateAck (dev : Nat) (m : StateMsg)
  /-- LOOKUP_RESEND (R517): A LOOKUP with no POOLED answer after 100 µs is resent. -/
  | lookupResend (task shard : Nat)
  /-- ROW_HEAT_AGING (R520): Row-cache counters are halved at the end of each TAGE_CYCLES period. -/
  | rowHeatAging (ptn : Nat)
  /-- PORT_TRAINED (R535): Every lane of a port is trained and delineation reaches SYNC. -/
  | portTrained (port lanes : Nat)
  /-- ATTEST_COMPLETE (R535): The SPDM session and HELLO complete and the first ACK arrives, so the port is UP. -/
  | attestComplete (port : Nat)
  /-- TRAIN_TIMEOUT (R535): 500 ms pass in TRAINING or ATTEST, and the port goes DOWN. -/
  | trainTimeout (port : Nat)
  /-- BACKOFF_EXPIRY (R536): A DOWN port's back-off expires, and the port trains again. -/
  | backoffExpiry (port : Nat)
  /-- AN_SIGNAL_DETECTED (R537): A DOWN port detects the partner's auto-negotiation and trains at once. -/
  | anSignalDetected (port : Nat)
  /-- KQ_RETRAIN (R564): KQ_CMD.RETRAIN forces a port to train again. -/
  | kqRetrain (port : Nat)
  /-- LINK_SPDM_CELL (R538): A LINK cell carrying an SPDM fragment advances attestation. -/
  | linkSpdmCell (port : Nat) (c : WireCell) (outcome : Nat) (reply : List Byte)
  /-- LINK_HELLO (R543): A HELLO LINK cell gives the partner's identity, and is checked for domain and pair position. -/
  | linkHello (port : Nat) (c : WireCell)
  /-- LINK_DOWN_NOTICE (R552): A DOWN notice received fails the port with CAUSE PARTNER. -/
  | linkDownNotice (port : Nat) (c : WireCell)
  /-- CELL_DATA (R549): A DATA cell is checked, accepted by LSEQ, and reassembled or forwarded. -/
  | cellData (port : Nat) (c : WireCell)
  /-- CELL_ACK (R548): An ACK cell frees replay entries and returns credits. -/
  | cellAck (port : Nat) (c : WireCell)
  /-- CELL_NAK (R550): A NAK cell causes a resend from ACK_SEQ. -/
  | cellNak (port : Nat) (c : WireCell)
  /-- CELL_IDLE (R539): An IDLE cell is received and discarded after its checks. -/
  | cellIdle (port : Nat) (c : WireCell)
  /-- CELL_TIME (R658): A TIME cell carries a timestamped PTP message. -/
  | cellTime (port : Nat) (c : WireCell) (m : PtpMsg)
  /-- LOSS_OF_SIGNAL (R552): Loss of signal or alignment on a lane fails the port. -/
  | lossOfSignal (port : Nat) (lane : Bool)
  /-- DELIN_TIMEOUT (R552): No SYNC within 2 µs after SYNC was lost fails the port. -/
  | delinTimeout (port : Nat)
  /-- ACK_TIMER (R549): 400 ns pass after the oldest unacknowledged accepted cell, and an ACK is sent. -/
  | ackTimer (port : Nat)
  /-- NAK_REPEAT_TIMER (R549): The expected LSEQ has not advanced for 4 µs, and a further NAK is sent. -/
  | nakRepeatTimer (port : Nat)
  /-- REPLAY_TIMEOUT (R550): 4 µs pass with no ACK, and the sender resends; after the replay limit the port fails. -/
  | replayTimeout (port : Nat)
  /-- PAIR_UNPAIRED_TIMEOUT (R559): The pair link is not UP 500 ms after cold start, and the device enters unpaired mode. -/
  | pairUnpairedTimeout
  /-- MKA_SAK_INSTALLED (R561): MKA installs the first SAK, and a MACsec port reaches UP. -/
  | mkaSakInstalled (port : Nat)
  /-- MKA_PEER_TIMEOUT (R561): An MKA peer timeout fails an Ethernet port with CAUSE AUTH. -/
  | mkaPeerTimeout (port : Nat)
  /-- PFC_FRAME (R636): A PFC frame pauses or resumes a class on an Ethernet port. -/
  | pfcFrame (port pause : Nat)
  /-- ETH_FRAME_RX (R642): An Ethernet frame arrives and is policed for its class. -/
  | ethFrameRx (port : Nat) (f : EthFrame)
  /-- EGRESS_SEND (R636): An egress selects an eligible queue head and sends it. -/
  | egressSend (port : Nat)
  /-- MEM_READ (R574): A READ message is served at the target. -/
  | memRead (m : MemMsg)
  /-- MEM_READ_DATA (R603): A READ_DATA reply completes a READ and fills the remote read cache. -/
  | memReadData (m : MemMsg)
  /-- MEM_WRITE (R602): A WRITE message writes tiles and is answered with COMPLETE. -/
  | memWrite (m : MemMsg)
  /-- MEM_COMPLETE (R603): A COMPLETE reply ends an outstanding WRITE. -/
  | memComplete (m : MemMsg)
  /-- MEM_MSG_NAK (R596): A MSG_NAK reply makes the sender resend the message whole. -/
  | memMsgNak (m : MemMsg)
  /-- MEM_FETCH_ADD (R575): A FETCH_ADD32 or FETCH_ADD64 message is applied as one read-modify-write. -/
  | memFetchAdd (m : MemMsg)
  /-- MEM_SWAP (R575): A SWAP32 or SWAP64 message is applied as one read-modify-write. -/
  | memSwap (m : MemMsg)
  /-- MEM_CAS (R575): A CAS32, CAS64 or CAS128 message is applied as one read-modify-write. -/
  | memCas (m : MemMsg)
  /-- MEM_ATOMIC_DATA (R603): An ATOMIC_DATA reply ends an outstanding atomic. -/
  | memAtomicData (m : MemMsg)
  /-- MEM_INVALIDATE (R611): An INVALIDATE message drops cached tiles and is answered with INV_ACK. -/
  | memInvalidate (m : MemMsg)
  /-- MEM_INV_ACK (R610): An INV_ACK message ends an outstanding INVALIDATE. -/
  | memInvAck (m : MemMsg)
  /-- TOPOLOGY_MSG (R583): A topology message updates the route computation. -/
  | topologyMsg (dev : Nat) (ports : List (Nat × Nat))
  /-- TOPOLOGY_PERIOD (R583): The 100 ms period expires, and topology messages are sent. -/
  | topologyPeriod
  /-- REASSEMBLY_TIMEOUT (R592): A reassembly context incomplete after 200 µs is discarded, and MSG_NAK is sent. -/
  | reassemblyTimeout (src msgId : Nat)
  /-- MSG_REPLY_TIMEOUT (R596): 250 µs pass with no reply, and the message is resent or fails with TIMEOUT. -/
  | msgReplyTimeout (id : Nat)
  /-- NO_CONTEXT_TIMEOUT (R598): A held message finds no stream context within 200 µs and is answered STATE_LOST. -/
  | noContextTimeout (src msgId : Nat)
  /-- STREAM_CONTEXT_EXPIRY (R595): A stream context is deleted 10 ms after its last message. -/
  | streamContextExpiry (src stream : Nat)
  /-- INVALIDATE_RESEND (R610): An unacknowledged INVALIDATE is resent every 100 µs, up to four sends. -/
  | invalidateResend (id : Nat)
  /-- ROUTE_TABLE_LOAD (R584): The fault manager writes a route table through the object dictionary. -/
  | routeTableLoad (w : OdSrc) (data : List Byte)
  /-- WINDOW_TABLE_WRITE (R578): A window table is written whole and is accepted or refused. -/
  | windowTableWrite (w : OdSrc) (ptn : Nat) (data : List Byte)
  /-- PTP_MESSAGE_RX (R656): A PTP message is received and timestamped, and the servo updates. -/
  | ptpMessageRx (port : Nat) (m : PtpMsg)
  /-- PTP_SYNC_TX (R657): The sync interval expires, and the boundary clock sends Sync. -/
  | ptpSyncTx (port : Nat)
  /-- PPS_IN_EDGE (R656): A PPS_IN rising edge is timestamped for qualification or servo. -/
  | ppsInEdge (offset : Int) (spacing : Nat) (freq : Int)
  /-- SOURCE_LOST (R656): Three expected Syncs or pulses are missed, and the source is lost. -/
  | sourceLost (source : Nat)
  /-- BOUND_EXCEEDS_GUARD (R660): The holdover bound passes GUARD, and the device enters ADRIFT. -/
  | boundExceedsGuard
  /-- SLEW_DONE (R664): A slew has removed its offset. -/
  | slewDone
  /-- PPS_OUT_RISE (R669): PPS_OUT rises at a whole second of Meridian time. -/
  | ppsOutRise
  /-- PPS_OUT_FALL (R670): PPS_OUT falls after PPS_WIDTH. -/
  | ppsOutFall
  /-- MER_HOST_OFS_WRITE (R673): A write of MER_HOST_OFS is one host servo update. -/
  | merHostOfsWrite (value : Word)
  /-- MER_HOST_FREQ_WRITE (R678): A write of MER_HOST_FREQ applies a frequency correction. -/
  | merHostFreqWrite (value : Word)
  /-- MER_SET_WRITE (R679): A write of MER_SET_HI sets Meridian time by a step at the next boundary. -/
  | merSetWrite (hi : Word)
  /-- MER_NOW_READ (R676): A read of MER_NOW_LO latches the fraction into MER_NOW_FRAC. -/
  | merNowRead
  /-- HOST_SERVO_SILENCE (R673): 2 s pass with no host write, and the time state becomes TWILIGHT. -/
  | hostServoSilence
  /-- BAR2_READ (R692): A memory read on BAR2 is carried out as fabric READs. -/
  | bar2Read (ptn tag off len : Nat)
  /-- BAR2_ATOMIC (R693): An AtomicOp on BAR2 is carried out as a fabric atomic. -/
  | bar2Atomic (ptn tag off op : Nat) (data : List Byte)
  /-- BAR2_WRITE (R694): A memory write on BAR2 is discarded and logged. -/
  | bar2Write (ptn : Nat)
  /-- ATS_INVALIDATE (R689): An ATS invalidation completes after the DMA that used the translation. -/
  | atsInvalidate (link : Nat)
  /-- IDE_KM_PROGRAM (R695): IDE_KM on the PF's DOE programs the keys of a selective IDE stream. -/
  | ideKmProgram (id link fn : Nat)
  /-- IDE_INTEGRITY_FAIL (R695): A TLP in a stream's ranges lacks IDE or fails its check, and is discarded. -/
  | ideIntegrityFail (id cause : Nat)
  /-- TDISP_LOCK_INTERFACE (R697): LOCK_INTERFACE locks a VF's TDI configuration. -/
  | tdispLockInterface (ptn : Nat)
  /-- SLOT_POWER_OFF (R700): The host turns off a RELEASING slot's power, and the link becomes FREE. -/
  | slotPowerOff (link : Nat)
  /-- RELEASE_GRACE_EXPIRY (R700): GRACE passes with a releasing slot still powered. -/
  | releaseGraceExpiry (link : Nat)
  /-- DLINK_DOWN (R700): A bound downstream link goes down and is reported as a surprise removal. -/
  | dlinkDown (link : Nat)
  /-- DLINK_REQUEST (R701): A request from a bound downstream link is routed or refused under ACS. -/
  | dlinkRequest (link : Nat) (target : DlinkTarget)
  /-- QP_CREATE (R708): A CREATE command allocates a queue pair. -/
  | qpCreate (v : View)
  /-- QP_MODIFY (R709): A MODIFY command moves a queue pair to a new state. -/
  | qpModify (v : View)
  /-- QP_DESTROY (R709): A DESTROY command frees a queue pair. -/
  | qpDestroy (v : View)
  /-- QP_QUERY (R709): A QUERY command returns a queue pair's state. -/
  | qpQuery (v : View)
  /-- QP_REG_MR (R711): A REG_MR command registers a memory region and returns its key. -/
  | qpRegMr (v : View)
  /-- QP_DEREG_MR (R711): A DEREG_MR command deregisters a region once its accesses end. -/
  | qpDeregMr (v : View)
  /-- ROCE_RX_WRITE (R712): An arriving RDMA WRITE is checked and applied. -/
  | roceRxWrite (port : Nat) (p : RocePkt)
  /-- ROCE_RX_READ (R712): An arriving RDMA READ is checked and answered. -/
  | roceRxRead (port : Nat) (p : RocePkt)
  /-- ROCE_RX_FETCH_ADD (R712): An arriving FETCH_ADD is checked and applied once. -/
  | roceRxFetchAdd (port : Nat) (p : RocePkt)
  /-- ROCE_RX_COMPARE_SWAP (R712): An arriving COMPARE_SWAP is checked and applied once. -/
  | roceRxCompareSwap (port : Nat) (p : RocePkt)
  /-- ROCE_RX_SEND (R704): An arriving SEND or WRITE with immediate is answered with NAK Invalid Request. -/
  | roceRxSend (port : Nat) (p : RocePkt)
  /-- ROCE_RX_ACK (R715): An acknowledgement completes gateway operations. -/
  | roceRxAck (port : Nat) (p : RocePkt)
  /-- ROCE_RX_RESPONSE (R617): A read or atomic response completes a gateway operation. -/
  | roceRxResponse (port : Nat) (p : RocePkt)
  /-- ROCE_RX_NAK (R714): A NAK triggers go-back-N retransmission or an access error. -/
  | roceRxNak (port : Nat) (p : RocePkt)
  /-- ROCE_RX_CNP (R716): A CNP cuts the requester's rate. -/
  | roceRxCnp (port : Nat) (p : RocePkt)
  /-- ROCE_ACK_TIMEOUT (R715): TIMEOUT expires, and the requester retransmits or fails. -/
  | roceAckTimeout (ix : Nat)
  /-- DCQCN_RATE_TIMER (R716): 55 µs pass without a CNP, and the rate recovers. -/
  | dcqcnRateTimer (ix : Nat)
  /-- QP_CONTEXT_LOADED (R718): A queue-pair context miss is served, and the held packets proceed. -/
  | qpContextLoaded (ix outcome : Nat)
  /-- CM_REQ (R710): An arriving connection REQ is accepted or rejected. -/
  | cmReq (c : CmMsg)
  /-- CM_REP (R710): An arriving REP advances a connection the device started. -/
  | cmRep (c : CmMsg)
  /-- CM_RTU (R710): An arriving RTU completes a connection. -/
  | cmRtu (c : CmMsg)
  /-- CM_REJ (R710): An arriving REJ ends a connection attempt. -/
  | cmRej (c : CmMsg)
  /-- CM_DREQ (R710): An arriving DREQ disconnects a queue pair. -/
  | cmDreq (c : CmMsg)
  /-- CM_DREP (R710): An arriving DREP completes a disconnect. -/
  | cmDrep (c : CmMsg)
  /-- PTP_TX_RING_ENTRY (R845): A host PTP message in the PF transmit ring is sent two-step. -/
  | ptpTxRingEntry (desc : List Byte)
  /-- CM_TX_RING_ENTRY (R846): A host QP1 datagram in the PF connection-management ring is sent. -/
  | cmTxRingEntry (desc : List Byte)
  /-- PTN_PROVISION (R732): COMMAND PROVISION takes a VACANT partition to PROVISIONING. -/
  | ptnProvision (w : OdSrc) (ptn : Nat)
  /-- PTN_ACTIVATE (R732): COMMAND ACTIVATE takes a partition to ACTIVE. -/
  | ptnActivate (w : OdSrc) (ptn : Nat)
  /-- PTN_DRAIN (R732): COMMAND DRAIN takes an ACTIVE partition to DRAINING. -/
  | ptnDrain (w : OdSrc) (ptn : Nat)
  /-- PTN_FENCE (R734): COMMAND FENCE isolates a partition at once. -/
  | ptnFence (w : OdSrc) (ptn : Nat)
  /-- PTN_UNFENCE (R736): COMMAND UNFENCE returns a partition to its state before the fence. -/
  | ptnUnfence (w : OdSrc) (ptn : Nat)
  /-- PTN_RELEASE (R737): COMMAND RELEASE takes a partition to SCRUBBING. -/
  | ptnRelease (w : OdSrc) (ptn : Nat)
  /-- SCRUB_COMPLETE (R738): Every scrub step has ended, and the partition becomes VACANT. -/
  | scrubComplete (ptn : Nat)
  /-- CONSTELLATIONS_WRITE (R730): A write of CONSTELLATIONS assigns logical constellations to a partition. -/
  | constellationsWrite (w : OdSrc) (ptn : Nat) (data : List Byte)
  /-- ROLE_CHALLENGE (R741): A read of CHALLENGE returns a fresh nonce. -/
  | roleChallenge (w : OdSrc)
  /-- ROLE_RESPONSE (R741): A write of RESPONSE elevates the master's role when its signature verifies. -/
  | roleResponse (w : OdSrc) (data : List Byte) (ok : Bool)
  /-- ROLE_DROP (R743): A write of DROP returns the master to the operator role. -/
  | roleDrop (w : OdSrc)
  /-- ROLE_IDLE_TIMEOUT (R743): 600 s pass with no write by an elevated master, which returns to the operator role. -/
  | roleIdleTimeout (m : Master)
  /-- LOCKOUT_EXPIRY (R742): A master's 60 s lockout ends. -/
  | lockoutExpiry (m : Master)
  /-- INSTALLER_KEY_WRITE (R744): A write of INSTALLER_KEY installs or clears the installer key. -/
  | installerKeyWrite (w : OdSrc) (data : List Byte)
  /-- AUDIT_ENTRY_READ (R754): A read of the audit entry at the cursor advances the cursor. -/
  | auditEntryRead (w : OdSrc)
  /-- PTN_CMT_STROBE (R763): PTN_CMT.STROBE applies the pending commit-protected writes of a window. -/
  | ptnCmtStrobe (v : View) (ptn : Nat) (nextCycle : Bool)
  /-- PTN_CRC_PASS_END (R764): A pass over a window's protected registers ends and is compared with REF. -/
  | ptnCrcPassEnd (ptn : Nat)
  /-- HEARTBEAT_TIMEOUT (R769): An AWAKE constellation misses its heartbeat for 4 µs and is declared lost. -/
  | heartbeatTimeout (phys : Nat)
  /-- UNIT_INTERNAL_FAULT (R769): A sequencer check, power-switch or clock-monitor fault declares a constellation lost. -/
  | unitInternalFault (phys detector : Nat)
  /-- WAKE_TIMEOUT (R769): A wake not complete within its time plus 2 µs declares the constellation lost. -/
  | wakeTimeout (phys : Nat)
  /-- REPLAY_START (R773): The spare is awake and the mirrors are copied, so replay begins. -/
  | replayStart (spare : Nat)
  /-- READMIT_WRITE (R792): A write of READMIT starts re-admission of a failed constellation. -/
  | readmitWrite (w : OdSrc) (data : List Byte)
  /-- READMIT_DONE (R792): The self-test and configuration load of re-admission end. -/
  | readmitDone (phys result : Nat)
  /-- SPARE_TEST_DUE (R797): SPARE_TEST_PERIOD expires, and a spare runs a test slice. -/
  | spareTestDue (phys : Nat) (fails : List Nat)
  /-- DRILL_WRITE (R800): Drill records are written to the drill schedule. -/
  | drillWrite (w : OdSrc) (data : List Byte)
  /-- PARTNER_SILENT (R786): No partner topology message or heartbeat arrives for 1 s. -/
  | partnerSilent
  /-- PAIR_RESYNC_DONE (R787): Resynchronisation of mirrored state ends, and DEGRADED_PAIR clears. -/
  | pairResyncDone
  /-- DEVICE_FATAL_FAULT (R788): A device-fatal fault stops the data plane within 1 µs. -/
  | deviceFatalFault (cause uid : Nat)
  /-- THERM_TRIP (R978): A die sensor reaches 115 °C, and THERM_TRIP_N is asserted. -/
  | thermTrip
  /-- LOCKSTEP_MISMATCH (R64): MC0 and MC1 disagree and restart from the boot ROM. -/
  | lockstepMismatch (imgA imgB : Bundle)
  /-- CMT_STROBE (R826): CMT_STROBE.STROBE starts a commit of the named domains. -/
  | cmtStrobe
  /-- CMT_DISCARD (R829): CMT_STROBE.DISCARD empties the pending values of the named domains. -/
  | cmtDiscard
  /-- CFG_CRC_PASS_END (R833): A configuration CRC pass ends and is compared with REF. -/
  | cfgCrcPassEnd
  /-- MSIX_UNMASK (R842): Unmasking a vector with its pending bit set sends one message. -/
  | msixUnmask (fn vector : Nat)
  /-- PF_OD_READ (R848): An OD READ request in the PF mailbox returns an entry's value. -/
  | pfOdRead
  /-- PF_OD_WRITE (R848): An OD WRITE request in the PF mailbox writes an entry. -/
  | pfOdWrite (x : Ext)
  /-- OD_ENTRY_WRITE (R882): A write to an object dictionary entry that has no row of its own is checked and stored. -/
  | odEntryWrite (w : OdSrc) (idx sub : Nat) (data : List Byte)
  /-- NC_RESET_COMM (R877): NODE_CTL RESET_COMM drops the bus address. -/
  | ncResetComm (f : BusRx) (serial : Nat)
  /-- NC_SILENCE (R877): NODE_CTL SILENCE makes the node SILENT. -/
  | ncSilence (f : BusRx) (serial : Nat)
  /-- NC_RESUME (R877): NODE_CTL RESUME returns the node to PREV. -/
  | ncResume (f : BusRx) (serial : Nat)
  /-- NC_STORE_ADDR (R877): NODE_CTL STORE_ADDR stores the addresses in the configuration region. -/
  | ncStoreAddr (f : BusRx) (serial : Nat)
  /-- NC_WARM_RESET (R877): NODE_CTL WARM_RESET performs a warm reset. -/
  | ncWarmReset (f : BusRx) (serial : Nat)
  /-- CAN_TIME_FRAME (R876): A TIME frame from the manager sets Meridian time in FREERUN. -/
  | canTimeFrame (f : BusRx) (data : List Byte)
  /-- TIME_FRAME_TX (R876): At each whole second with TIME_TX set, a TIME frame is broadcast. -/
  | timeFrameTx
  /-- SEARCH_START (R862): SEARCH START puts unassigned nodes, or all nodes with REASSIGN_ALL, into SEARCHING. -/
  | searchStart (f : BusRx) (reassign : Bool)
  /-- SEARCH_PROBE (R865): SEARCH PROBE is answered with MATCH by nodes whose serial matches the prefix. -/
  | searchProbe (f : BusRx) (n pfx : Nat)
  /-- SEARCH_ASSIGN (R866): SEARCH ASSIGN gives a tentative address, answered with ASSIGN_ACK. -/
  | searchAssign (f : BusRx) (addr serial : Nat)
  /-- SEARCH_CONFIRM (R862): SEARCH CONFIRM makes the tentative address the node's own. -/
  | searchConfirm (f : BusRx) (serial : Nat)
  /-- SEARCH_END (R862): SEARCH END returns searching and silent nodes to UNASSIGNED with HOT_JOIN. -/
  | searchEnd (f : BusRx)
  /-- SEARCH_HEARD (R862): A SEARCH frame heard during the listen makes the node SILENT. -/
  | searchHeard (f : BusRx)
  /-- CAN_HEARTBEAT_RX (R874): A heartbeat of another node is received, and it matters only for the pair partner. -/
  | canHeartbeatRx (f : BusRx) (serial : Nat)
  /-- ADDRESS_CONFLICT (R869): A frame carrying the node's own address as SRC makes it drop its address. -/
  | addressConflict
  /-- CAN_OD_WRITE (R879): An OD_WRITE request segment is received, and the write is applied once whole. -/
  | canOdWrite (f : BusRx) (data : List Byte) (x : Ext)
  /-- CAN_OD_READ (R879): An OD_READ request is answered with the value in segments. -/
  | canOdRead (f : BusRx) (data : List Byte)
  /-- LISTEN_END (R863): The 250 ms listen ends, and HOT_JOIN is sent. -/
  | listenEnd
  /-- CONFIRM_TIMEOUT (R862): 100 ms pass after ASSIGN without CONFIRM, and the tentative address is dropped. -/
  | confirmTimeout
  /-- SILENT_SEARCH_TIMEOUT (R862): 2 s with no SEARCH frame return a silent node to UNASSIGNED. -/
  | silentSearchTimeout
  /-- ACK_ERROR_LIMIT (R871): 16 consecutive ACK errors put the node into LONE. -/
  | ackErrorLimit
  /-- LONE_FRAME_ACKED (R872): A frame sent in LONE is acknowledged, and the node returns to PREV. -/
  | loneFrameAcked
  /-- LONE_PROBE_TIMER (R872): Each second in LONE, a single-shot heartbeat is sent. -/
  | loneProbeTimer
  /-- HEARTBEAT_PERIOD (R873): HB_PERIOD expires, and a HEARTBEAT is broadcast. -/
  | heartbeatPeriod
  /-- HOT_JOIN_BACKOFF (R868): After three failed HOT_JOINs, a random back-off expires and HOT_JOIN is sent again. -/
  | hotJoinBackoff
  /-- OD_SEGMENT_TIMEOUT (R880): 100 ms pass between segments, and the transfer is answered TIMEOUT. -/
  | odSegmentTimeout (src txn : Nat)
  /-- OD_ANSWER_EXPIRY (R881): A kept answer expires after 1 s. -/
  | odAnswerExpiry (src txn : Nat)
  /-- ALMANAC_GROUP_START (R896): A group write is due, and it takes the lock and writes the inactive bank. -/
  | almanacGroupStart
  /-- ALMANAC_GROUP_DONE (R897): A group write ends with the new header, or is abandoned. -/
  | almanacGroupDone (fail : Option Nat)
  /-- FIELD_NOTES_WRITE (R898): A wired-side write of field notes writes the blocks under the lock. -/
  | fieldNotesWrite (w : OdSrc) (data : List Byte) (ok : Bool)
  /-- CLEAR_FAULT_LOG (R902): CLEAR_FAULT_LOG writes an empty fault log in the next group. -/
  | clearFaultLog (w : OdSrc) (value : Nat)
  /-- NFC_INVENTORY (R899): An ISO/IEC 15693 Inventory command is answered with the UID. -/
  | nfcInventory (n mask : Nat)
  /-- NFC_STAY_QUIET (R899): A Stay quiet command quiets the tag. -/
  | nfcStayQuiet (uid : Nat)
  /-- NFC_SELECT (R899): A Select command selects the tag. -/
  | nfcSelect (uid : Nat)
  /-- NFC_RESET_TO_READY (R899): A Reset to ready command returns the tag to ready. -/
  | nfcResetToReady (who : NfcTo)
  /-- NFC_GET_SYSTEM_INFO (R899): A Get system information command, plain or extended, is answered. -/
  | nfcGetSystemInfo (who : NfcTo) (extended : Bool)
  /-- NFC_READ_BLOCKS (R900): A Read single or multiple blocks command is served from the active bank. -/
  | nfcReadBlocks (who : NfcTo) (first count : Nat)
  /-- NFC_WRITE_BLOCK (R901): A Write single block command writes a field-notes block or is refused. -/
  | nfcWriteBlock (who : NfcTo) (block : Nat) (data : List Byte)
  /-- NFC_UNSUPPORTED (R901): An unsupported command is answered with error 0x01. -/
  | nfcUnsupported (who : NfcTo)
  /-- TEL_WINDOW_BOUNDARY (R909): A telemetry window boundary latches the selected counters into a COUNTERS item. -/
  | telWindowBoundary
  /-- ACCT_SNAPSHOT (R920): At each ACCT_PERIOD instant all partitions' accounting counters are latched and written. -/
  | acctSnapshot
  /-- ACCT_LATCH (R933): ACCT_CTL.LATCH or the dictionary LATCH takes an extra snapshot. -/
  | acctLatch
  /-- ENERGY_FIT (R927): Every 100 ms the energy coefficients are fitted. -/
  | energyFit
  /-- PMBUS_POLL (R924): Every 1 ms the rail voltages and currents are read and integrated. -/
  | pmbusPoll (reads : List (Option (Nat × Nat)))
  /-- COEFF_WRITE (R929): A host write of the coefficient set is used, or refused in the hardware mode. -/
  | coeffWrite (w : OdSrc) (data : List Byte)
  /-- RAIL_IN_RANGE (R940): A rail reaches its window, and the next rail starts after 1 ms. -/
  | railInRange (rail mv : Nat)
  /-- RAIL_WINDOW_EXPIRY (R943): A rail misses its 20 ms window, and the start stops. -/
  | railWindowExpiry (rail : Nat)
  /-- RAIL_FAULT (R943): A rail fault is reported during a start, and the start stops. -/
  | railFault (rail : Nat)
  /-- DATA_READY_REACHED (R944): The start completes, and DATA_READY is set. -/
  | dataReadyReached (train : Train)
  /-- START_WATCHDOG (R947): DATA_READY has not come 60 s after t0, and the always-on domain restarts. -/
  | startWatchdog (imgA imgB : Bundle)
  /-- UPDATE_BEGIN (R954): UPDATE_CMD 1 erases the image that is not active. -/
  | updateBegin (w : OdSrc)
  /-- UPDATE_DATA (R954): A write of UPDATE_DATA programs bytes at UPDATE_OFFSET. -/
  | updateData (w : OdSrc) (data : List Byte)
  /-- UPDATE_VERIFY (R954): UPDATE_CMD 2 verifies the image and makes it PENDING. -/
  | updateVerify (w : OdSrc) (x : Ext)
  /-- UPDATE_CANCEL (R966): UPDATE_CMD 3 cancels the pending image. -/
  | updateCancel (w : OdSrc)
  /-- NF_START (R957): NF_CMD 1 starts Nightfall. -/
  | nfStart (w : OdSrc)
  /-- NF_ABORT (R961): NF_CMD 2 aborts Nightfall. -/
  | nfAbort (w : OdSrc)
  /-- NF_POWER_DOWN (R962): NF_CMD 3 powers the data-plane rails down. -/
  | nfPowerDown (w : OdSrc)
  /-- NF_SLICE_END (R958): A Nightfall slice ends, its records are written, and the next slice or hold begins. -/
  | nfSliceEnd (found : List Found)
  /-- NF_HOLD_END (R958): A retention hold ends, and the pattern is read. -/
  | nfHoldEnd (found : List Found)
  /-- MANAGEMENT_TICK (R975): At each 1 ms management tick the clock caps and the pump demand are adjusted. -/
  | managementTick (dies iods : List Int) (nears dimms : List Nat)
  /-- FLOW_COMPUTE (R980): Every 1 s the coolant flow is computed from FLOW_PULSE. -/
  | flowCompute (pulses : Nat)
  /-- COOLANT_MEASURE (R981): Every 10 ms the coolant thermistors are measured. -/
  | coolantMeasure (inlet outlet : Int)
  /-- COOLANT_CLEAR (R982): A coolant condition absent for 10 s clears. -/
  | coolantClear (cond : Nat)
  /-- REF25_LOSS (R998): REF_25M shows no edge for 1 µs, and the data plane stops. -/
  | ref25Loss
  /-- REF156_LOSS (R999): Loss of REF_156M25 takes the ports it feeds DOWN. -/
  | ref156Loss (south : Bool)
  /-- REF100_LOSS (R999): Loss of REF_100M takes the PCIe links it feeds down. -/
  | ref100Loss (south : Bool)
  /-- RC_REGISTER_READ (R15): A BAR0 read of an RC register returns its value and clears it in the same access. -/
  | rcRegisterRead (v : View) (off : Nat)
  /-- DELINEATION_CHECK (R546): A 256-byte window at the current offset is checked for HCRC (and CCRC), moving delineation between HUNT, PRESYNC and SYNC and discarding bad cells. -/
  | delineationCheck (port : Nat) (hcrcOk ccrcOk : Bool)
  /-- ROUTE_TABLE_COMPUTED (R583): The I/O-die cores finish computing a route table, which comes into force as a new generation with KQT_ROUTES. -/
  | routeTableComputed (table : List (Nat × Nat))
  /-- MSG_ID_FREED (R593): 10 ms after a message completes, its MSG_ID becomes free again, and a message waiting for a free MSG_ID is sent. -/
  | msgIdFreed (dev msgId : Nat)
  /-- PCIE_LINK_DOWN (R728): An upstream, or unbound downstream, PCIe link goes down; PX_LINK is raised and ring writes are held. -/
  | pcieLinkDown (link : Nat)
  /-- PCIE_LINK_UP (R728): A PCIe link finishes training and comes up; PX_LINK is raised and a bound device is shown again on its vDSP. -/
  | pcieLinkUp (link rate width : Nat)
  /-- REF_CLOCK_RETURN (R999): A lost reference clock shows edges again, and the ports, links or always-on clocking that it feeds recover. -/
  | refClockReturn (clock : Nat)
  /-- TDISP_START_INTERFACE (R697): A TDISP START_INTERFACE request moves a locked TDI to RUN. -/
  | tdispStartInterface (ptn : Nat)
  /-- TDISP_STOP_INTERFACE (R697): A TDISP STOP_INTERFACE request returns a TDI from CONFIG_LOCKED, RUN or ERROR to CONFIG_UNLOCKED. -/
  | tdispStopInterface (ptn : Nat)
  /-- CAN_IGNORED_FRAME (R858): A classical, base-format, remote or reserved-function CAN frame is acknowledged, ignored and counted in 0x1020 sub 0x04. -/
  | canIgnoredFrame
  /-- CAN_ERROR_FRAME (R858): A CAN bus error or error frame is signalled, the error counters change, and the node may enter bus-off. -/
  | canErrorFrame (join off : Bool)
  /-- CAN_BUS_OFF_RECOVERY (R856): Automatic bus-off recovery completes and the node rejoins the bus, counted in 0x1020 sub 0x05. -/
  | canBusOffRecovery
  /-- NFC_FIELD_ON (R902): A reader field appears at the Almanac loop, powering the field side and setting 0x8000 sub 0x03. -/
  | nfcFieldOn
  /-- NFC_FIELD_OFF (R902): The reader field leaves the Almanac loop, removing field-side power and clearing 0x8000 sub 0x03. -/
  | nfcFieldOff
  /-- UNIT_HEARTBEAT (R905): An AWAKE constellation sends its heartbeat every 2 µs and forwards its counts to the quarter's counter store. -/
  | unitHeartbeat (phys : Nat)
  deriving DecidableEq, Repr

end Sys2Proof
end

