-- ==== Sys2Proof/WellFormed.lean ====
section
/-! DEFINITION. When a command is well formed: every operand lies within the range of the field it stands for. A command that is not
is nothing the block's pins, links, buses or registers can carry; `exec` is total on it all the same. -/

namespace Sys2Proof

/-- A partition's view names one of 32 (R811, R812). -/
def View.wf : View → Bool
  | .pf => true
  | .vf p => decide (p < 32)
/-- A bus node's address has 7 bits, its TXN 8 (R859, R878). -/
def OdSrc.wf (w : OdSrc) : Bool := decide (w.node < 128) && decide (w.txn < 256) && decide (w.hdr < 2 ^ 64)
/-- The bytes of a bundle header that R948 gives a meaning, 0x000-0x1BF; none when the flash holds nothing. -/
def Bundle.wf (b : Bundle) : Bool := decide (b.header.length ≤ 0x1C0)
def Ext.wf (x : Ext) : Bool := x.bundle.wf
/-- DEST, SRC and SEQ of an identifier (R859). -/
def BusRx.wf (f : BusRx) : Bool := decide (f.dest < 128) && decide (f.src < 128) && decide (f.seq < 2048)
/-- Physical constellations and partitions (R40, R729). -/
def Slow.wf : Slow → Bool
  | .con p => decide (p < 160)
  | .ptn p => decide (p < 32)
  | .block => true
def NfcTo.wf : NfcTo → Bool
  | .uid u => decide (u < 2 ^ 64)
  | _ => true
/-- Fields of the state header (R364). -/
def StateMsg.wf (m : StateMsg) : Bool :=
  decide (m.srcPtn < 32) && decide (m.dstPtn < 32) && decide (m.srcHandle < 2 ^ 32) && decide (m.dstHandle < 2 ^ 32) && decide (m.epoch < 2 ^ 16) &&
  decide (m.status < 256) && decide (m.tag < 2 ^ 32) && decide (m.seq < 2 ^ 32) && decide (m.qid < 2 ^ 32) && decide (m.items < 2 ^ 32) && decide (m.args < 2 ^ 256)
/-- A cell's LSEQ or control count, and its payload, at most 224 bytes (R540, R541). -/
def WireCell.wf (c : WireCell) : Bool := decide (c.seq < 2 ^ 32) && decide (c.payload.length ≤ 224)
/-- The transaction fields and the 8 MiB limit of a message (R540, R573). -/
def MemMsg.wf (m : MemMsg) : Bool :=
  decide (m.src < 256) && decide (m.msgId < 2 ^ 20) && decide (m.stream < 2 ^ 12) && decide (m.sseq < 2 ^ 24) && decide (m.ptn < 32) && decide (m.cls < 8) &&
  decide (m.data.length ≤ 2 ^ 23)
/-- Queue pairs, PSNs and keys of RoCEv2 (R704). -/
def RocePkt.wf (p : RocePkt) : Bool :=
  decide (p.op ≤ 10) && decide (p.qpn < 2 ^ 24) && decide (p.psn < 2 ^ 24) && decide (p.addr < 2 ^ 64) && decide (p.key < 2 ^ 32) && decide (p.len < 2 ^ 32) &&
  decide (p.syn < 256) && decide (p.srcQp < 2 ^ 24) && decide (p.gid < 2 ^ 128) && decide (p.dgid < 2 ^ 128) && decide (p.vlan < 2 ^ 16)
def EthFrame.wf (f : EthFrame) : Bool := decide (f.prio < 8) && (match f.roce with | some p => p.wf | none => true)
def DlinkTarget.wf : DlinkTarget → Bool
  | .vf n => decide (n < 33)
  | .vdsp n => decide (n < 12)
  | _ => true
def CmMsg.wf (c : CmMsg) : Bool :=
  decide (c.port < 16) && decide (c.gid < 2 ^ 128) && decide (c.peer < 2 ^ 128) && decide (c.lqpn < 2 ^ 24) && decide (c.rqpn < 2 ^ 24) && decide (c.psn < 2 ^ 24) &&
  decide (c.sid < 2 ^ 64) && decide (c.mad.length ≤ 256)
def PtpMsg.wf (m : PtpMsg) : Bool := decide (m.transport ≤ 3) && decide (m.domain < 256) && decide (m.kind ≤ 3) && decide (m.cls < 256)
/-- KIND, BIT, LOCATION and ADDRESS of a repair record (R891). -/
def Found.wf (f : Found) : Bool := decide (1 ≤ f.kind) && decide (f.kind ≤ 3) && decide (f.bit < 128) && decide (f.loc < 2 ^ 24) && decide (f.addr < 2 ^ 48)
/-- Twelve stacks and sixteen channels (R406). -/
def Train.wf (t : Train) : Bool := t.lost.all (fun k => decide (k < 12)) && decide (t.dimms.length ≤ 16) && t.found.all Found.wf

/-- Whether a command is well formed. -/
def Instr.wf (i : Instr) : Bool :=
  match i with
  | .coldReset straps a b => decide (straps < 128) && a.wf && b.wf
  | .pwrGoodLoss => true
  | .warmResetAssert => true
  | .warmResetRelease => true
  | .vfFlr ptn => decide (ptn < 32)
  | .regWrite v off _ => v.wf && decide (off < 2 ^ 28)
  | .aliasWrite v off _ => v.wf && decide (off < 2 ^ 28)
  | .pairLoWrite v off _ => v.wf && decide (off < 2 ^ 28)
  | .pairHiWrite v off _ => v.wf && decide (off < 2 ^ 28)
  | .badAccessWrite v off => v.wf && decide (off < 2 ^ 28)
  | .cycleBoundary _ => true
  | .wakeLeadReached sec ent _ => decide (sec < 6) && decide (ent < 2 ^ 16)
  | .wakeComplete phys => decide (phys < 160)
  | .sleepDrainDone phys => decide (phys < 160)
  | .sramInitDone phys => decide (phys < 160)
  | .railSettled quarter => decide (quarter < 4)
  | .computeSlotStart sec ent fails => decide (sec < 6) && decide (ent < 2 ^ 16) && (fails.all fun x => decide (x < 160))
  | .entryEnd sec ent => decide (sec < 6) && decide (ent < 2 ^ 16)
  | .barrierComplete sec ent => decide (sec < 6) && decide (ent < 2 ^ 16)
  | .slotOverrun sec ent => decide (sec < 6) && decide (ent < 2 ^ 16)
  | .borrowEnd sec ent _ => decide (sec < 6) && decide (ent < 2 ^ 16)
  | .abortEnd sec ent => decide (sec < 6) && decide (ent < 2 ^ 16)
  | .contractExceeded who _ _ => who.wf
  | .moverEntryStart sec ent => decide (sec < 6) && decide (ent < 2 ^ 16)
  | .tierTransferDone _ => true
  | .transferEntryStart sec ent => decide (sec < 6) && decide (ent < 2 ^ 16)
  | .bridgeEntryStart sec ent => decide (sec < 6) && decide (ent < 2 ^ 16)
  | .gateEntry sec ent => decide (sec < 6) && decide (ent < 2 ^ 16)
  | .refreshWindow sec ent => decide (sec < 6) && decide (ent < 2 ^ 16)
  | .recalMemWindow sec ent => decide (sec < 6) && decide (ent < 2 ^ 16)
  | .recalSerdesWindow sec ent => decide (sec < 6) && decide (ent < 2 ^ 16)
  | .recalSerdesWindowEnd sec ent => decide (sec < 6) && decide (ent < 2 ^ 16)
  | .ephLoadStart _ => true
  | .ephLoadAbort => true
  | .ephLoadDone _ _ image _ => decide (image.length ≤ 2 ^ 30)
  | .ephSwitchArm => true
  | .ephSwitchDisarm => true
  | .ringProdWrite v ring _ => v.wf && decide (ring < 2 ^ 28)
  | .ringConsWrite v ring _ => v.wf && decide (ring < 2 ^ 28)
  | .taskProgram v _ => v.wf
  | .taskStatus v _ => v.wf
  | .taskCancel v _ => v.wf
  | .taskCounters v _ => v.wf
  | .instrLdt _ => true
  | .ldtComplete _ tile => decide (tile < 2 ^ 40)
  | .instrStt _ => true
  | .sttWritten _ tile => decide (tile < 2 ^ 40)
  | .instrMma _ => true
  | .instrMmaq _ => true
  | .instrRope _ => true
  | .instrSmax _ => true
  | .instrPv _ => true
  | .instrMrg _ => true
  | .instrQnt _ _ => true
  | .instrEnc _ => true
  | .instrRed _ _ => true
  | .instrNorm _ _ => true
  | .instrAct _ _ => true
  | .instrSamp _ => true
  | .instrStop _ => true
  | .instrMov _ _ => true
  | .instrSync _ => true
  | .instrWait _ => true
  | .instrYield _ => true
  | .instrEnd _ => true
  | .illegalInstruction _ => true
  | .checkpoint64 _ => true
  | .reqSubmit v desc => v.wf && decide (desc.length = 128)
  | .reqContinue v desc => v.wf && decide (desc.length = 128)
  | .reqCancel v desc => v.wf && decide (desc.length = 128)
  | .reqStatus v desc => v.wf && decide (desc.length = 128)
  | .reqToken v desc => v.wf && decide (desc.length = 128)
  | .inputReadDone handle _ _ _ => decide (handle < 2 ^ 32)
  | .writebackDone _ => true
  | .openPageLoaded _ => true
  | .tableEpochEnd ptn => decide (ptn < 32)
  | .tableBuildDone ptn model layer => decide (ptn < 32) && decide (model < 2 ^ 16) && decide (layer < 2 ^ 16)
  | .tableSupply w ptn data => w.wf && decide (ptn < 32) && decide (data.length ≤ 4096)
  | .movePark v _ => v.wf
  | .movePromote v _ => v.wf
  | .moveEvict v _ => v.wf
  | .moveClone v _ => v.wf
  | .moveDrop v _ => v.wf
  | .movePlan v _ => v.wf
  | .msgInstall dev m => decide (dev < 256) && m.wf
  | .msgPages dev m => decide (dev < 256) && m.wf
  | .msgMoveAck dev m => decide (dev < 256) && m.wf
  | .msgCommit dev m => decide (dev < 256) && m.wf
  | .msgAbort dev m => decide (dev < 256) && m.wf
  | .msgRef dev m => decide (dev < 256) && m.wf
  | .msgRelease dev m => decide (dev < 256) && m.wf
  | .msgFetch dev m => decide (dev < 256) && m.wf
  | .msgQuery dev m => decide (dev < 256) && m.wf
  | .msgPartial dev m => decide (dev < 256) && m.wf
  | .installResend handle => decide (handle < 2 ^ 32)
  | .installDoubt handle => decide (handle < 2 ^ 32)
  | .heldAckRepeat handle => decide (handle < 2 ^ 32)
  | .commitRecordExpiry dev handle => decide (dev < 256) && decide (handle < 2 ^ 32)
  | .refResend handle dev target => decide (handle < 2 ^ 32) && decide (dev < 256) && decide (target < 2 ^ 32)
  | .receptionExpiry ptn dev handle epoch => decide (ptn < 32) && decide (dev < 256) && decide (handle < 2 ^ 32) && decide (epoch < 2 ^ 16)
  | .pagesBusyRetry handle => decide (handle < 2 ^ 32)
  | .queryResend handle qid _ _ => decide (handle < 2 ^ 32) && decide (qid < 2 ^ 32)
  | .evictionStart ptn => decide (ptn < 32)
  | .heatAging ptn => decide (ptn < 32)
  | .allocRequest v => v.wf
  | .freeRequest v => v.wf
  | .sramPatrol _ _ _ => true
  | .nearPatrol tile => decide (tile < 2 ^ 40)
  | .selfRefreshEntry resource => decide (resource < 28)
  | .farChannelLost chan => decide (chan < 16)
  | .farScanDone chan => decide (chan < 16)
  | .stackLost stack => decide (stack < 12)
  | .tableRecordWrite v ptn => v.wf && decide (ptn < 32)
  | .msgLookup dev m => decide (dev < 256) && m.wf
  | .msgPooled dev m => decide (dev < 256) && m.wf
  | .msgUpdate dev m => decide (dev < 256) && m.wf
  | .msgUpdateAck dev m => decide (dev < 256) && m.wf
  | .lookupResend _ shard => decide (shard < 2 ^ 16)
  | .rowHeatAging ptn => decide (ptn < 32)
  | .portTrained port lanes => decide (port < 17) && decide (lanes < 16)
  | .attestComplete port => decide (port < 17)
  | .trainTimeout port => decide (port < 17)
  | .backoffExpiry port => decide (port < 17)
  | .anSignalDetected port => decide (port < 17)
  | .kqRetrain port => decide (port < 17)
  | .linkSpdmCell port c outcome _ => decide (port < 17) && c.wf && decide (outcome < 8)
  | .linkHello port c => decide (port < 17) && c.wf
  | .linkDownNotice port c => decide (port < 17) && c.wf
  | .cellData port c => decide (port < 17) && c.wf
  | .cellAck port c => decide (port < 17) && c.wf
  | .cellNak port c => decide (port < 17) && c.wf
  | .cellIdle port c => decide (port < 17) && c.wf
  | .cellTime port c m => decide (port < 17) && c.wf && m.wf
  | .lossOfSignal port _ => decide (port < 17)
  | .delinTimeout port => decide (port < 17)
  | .ackTimer port => decide (port < 17)
  | .nakRepeatTimer port => decide (port < 17)
  | .replayTimeout port => decide (port < 17)
  | .pairUnpairedTimeout => true
  | .mkaSakInstalled port => decide (port < 17)
  | .mkaPeerTimeout port => decide (port < 17)
  | .pfcFrame port pause => decide (port < 17) && decide (pause < 256)
  | .ethFrameRx port f => decide (port < 17) && f.wf
  | .egressSend port => decide (port < 17)
  | .memRead m => m.wf
  | .memReadData m => m.wf
  | .memWrite m => m.wf
  | .memComplete m => m.wf
  | .memMsgNak m => m.wf
  | .memFetchAdd m => m.wf
  | .memSwap m => m.wf
  | .memCas m => m.wf
  | .memAtomicData m => m.wf
  | .memInvalidate m => m.wf
  | .memInvAck m => m.wf
  | .topologyMsg dev _ => decide (dev < 256)
  | .topologyPeriod => true
  | .reassemblyTimeout src msgId => decide (src < 256) && decide (msgId < 2 ^ 20)
  | .msgReplyTimeout _ => true
  | .noContextTimeout src msgId => decide (src < 256) && decide (msgId < 2 ^ 20)
  | .streamContextExpiry src stream => decide (src < 256) && decide (stream < 2 ^ 12)
  | .invalidateResend _ => true
  | .routeTableLoad w data => w.wf && decide (data.length ≤ 4096)
  | .windowTableWrite w ptn data => w.wf && decide (ptn < 32) && decide (data.length ≤ 4096)
  | .ptpMessageRx port m => decide (port < 17) && m.wf
  | .ptpSyncTx port => decide (port < 17)
  | .ppsInEdge _ _ _ => true
  | .sourceLost source => decide (source < 5)
  | .boundExceedsGuard => true
  | .slewDone => true
  | .ppsOutRise => true
  | .ppsOutFall => true
  | .merHostOfsWrite _ => true
  | .merHostFreqWrite _ => true
  | .merSetWrite _ => true
  | .merNowRead => true
  | .hostServoSilence => true
  | .bar2Read ptn tag off len => decide (ptn < 32) && decide (tag < 1024) && decide (off < 2 ^ 28) && decide (len < 2 ^ 13)
  | .bar2Atomic ptn tag off op data => decide (ptn < 32) && decide (tag < 1024) && decide (off < 2 ^ 28) && decide (op < 256) && decide (data.length ≤ 4096)
  | .bar2Write ptn => decide (ptn < 32)
  | .atsInvalidate link => decide (link < 12)
  | .ideKmProgram id link fn => decide (id < 64) && decide (link < 12) && decide (fn < 33)
  | .ideIntegrityFail id cause => decide (id < 64) && decide (cause < 256)
  | .tdispLockInterface ptn => decide (ptn < 32)
  | .slotPowerOff link => decide (link < 12)
  | .releaseGraceExpiry link => decide (link < 12)
  | .dlinkDown link => decide (link < 12)
  | .dlinkRequest link target => decide (link < 12) && target.wf
  | .qpCreate v => v.wf
  | .qpModify v => v.wf
  | .qpDestroy v => v.wf
  | .qpQuery v => v.wf
  | .qpRegMr v => v.wf
  | .qpDeregMr v => v.wf
  | .roceRxWrite port p => decide (port < 17) && p.wf
  | .roceRxRead port p => decide (port < 17) && p.wf
  | .roceRxFetchAdd port p => decide (port < 17) && p.wf
  | .roceRxCompareSwap port p => decide (port < 17) && p.wf
  | .roceRxSend port p => decide (port < 17) && p.wf
  | .roceRxAck port p => decide (port < 17) && p.wf
  | .roceRxResponse port p => decide (port < 17) && p.wf
  | .roceRxNak port p => decide (port < 17) && p.wf
  | .roceRxCnp port p => decide (port < 17) && p.wf
  | .roceAckTimeout ix => decide (ix < 2 ^ 16)
  | .dcqcnRateTimer ix => decide (ix < 2 ^ 16)
  | .qpContextLoaded ix outcome => decide (ix < 2 ^ 16) && decide (outcome < 8)
  | .cmReq c => c.wf
  | .cmRep c => c.wf
  | .cmRtu c => c.wf
  | .cmRej c => c.wf
  | .cmDreq c => c.wf
  | .cmDrep c => c.wf
  | .ptpTxRingEntry desc => decide (desc.length = 128)
  | .cmTxRingEntry desc => decide (desc.length = 512)
  | .ptnProvision w ptn => w.wf && decide (ptn < 32)
  | .ptnActivate w ptn => w.wf && decide (ptn < 32)
  | .ptnDrain w ptn => w.wf && decide (ptn < 32)
  | .ptnFence w ptn => w.wf && decide (ptn < 32)
  | .ptnUnfence w ptn => w.wf && decide (ptn < 32)
  | .ptnRelease w ptn => w.wf && decide (ptn < 32)
  | .scrubComplete ptn => decide (ptn < 32)
  | .constellationsWrite w ptn data => w.wf && decide (ptn < 32) && decide (data.length ≤ 4096)
  | .roleChallenge w => w.wf
  | .roleResponse w data _ => w.wf && decide (data.length ≤ 4096)
  | .roleDrop w => w.wf
  | .roleIdleTimeout _ => true
  | .lockoutExpiry _ => true
  | .installerKeyWrite w data => w.wf && decide (data.length ≤ 4096)
  | .auditEntryRead w => w.wf
  | .ptnCmtStrobe v ptn _ => v.wf && decide (ptn < 32)
  | .ptnCrcPassEnd ptn => decide (ptn < 32)
  | .heartbeatTimeout phys => decide (phys < 160)
  | .unitInternalFault phys detector => decide (phys < 160) && decide (detector < 256)
  | .wakeTimeout phys => decide (phys < 160)
  | .replayStart spare => decide (spare < 160)
  | .readmitWrite w data => w.wf && decide (data.length ≤ 4096)
  | .readmitDone phys result => decide (phys < 160) && decide (result < 256)
  | .spareTestDue phys fails => decide (phys < 160) && (fails.all fun x => decide (x < 160))
  | .drillWrite w data => w.wf && decide (data.length ≤ 4096)
  | .partnerSilent => true
  | .pairResyncDone => true
  | .deviceFatalFault cause uid => decide (cause < 256) && decide (uid < 2 ^ 24)
  | .thermTrip => true
  | .lockstepMismatch a b => a.wf && b.wf
  | .cmtStrobe => true
  | .cmtDiscard => true
  | .cfgCrcPassEnd => true
  | .msixUnmask fn vector => decide (fn < 33) && decide (vector < 2048)
  | .pfOdRead => true
  | .pfOdWrite x => x.wf
  | .odEntryWrite w idx sub data => w.wf && decide (idx < 2 ^ 16) && decide (sub < 256) && decide (data.length ≤ 4096)
  | .ncResetComm f serial => f.wf && decide (serial < 2 ^ 64)
  | .ncSilence f serial => f.wf && decide (serial < 2 ^ 64)
  | .ncResume f serial => f.wf && decide (serial < 2 ^ 64)
  | .ncStoreAddr f serial => f.wf && decide (serial < 2 ^ 64)
  | .ncWarmReset f serial => f.wf && decide (serial < 2 ^ 64)
  | .canTimeFrame f data => f.wf && decide (data.length ≤ 4096)
  | .timeFrameTx => true
  | .searchStart f _ => f.wf
  | .searchProbe f n pfx => f.wf && decide (n < 65) && decide (pfx < 2 ^ 64)
  | .searchAssign f addr serial => f.wf && decide (addr < 128) && decide (serial < 2 ^ 64)
  | .searchConfirm f serial => f.wf && decide (serial < 2 ^ 64)
  | .searchEnd f => f.wf
  | .searchHeard f => f.wf
  | .canHeartbeatRx f serial => f.wf && decide (serial < 2 ^ 64)
  | .addressConflict => true
  | .canOdWrite f data x => f.wf && decide (data.length ≤ 4096) && x.wf
  | .canOdRead f data => f.wf && decide (data.length ≤ 4096)
  | .listenEnd => true
  | .confirmTimeout => true
  | .silentSearchTimeout => true
  | .ackErrorLimit => true
  | .loneFrameAcked => true
  | .loneProbeTimer => true
  | .heartbeatPeriod => true
  | .hotJoinBackoff => true
  | .odSegmentTimeout src txn => decide (src < 128) && decide (txn < 256)
  | .odAnswerExpiry src txn => decide (src < 128) && decide (txn < 256)
  | .almanacGroupStart => true
  | .almanacGroupDone _ => true
  | .fieldNotesWrite w data _ => w.wf && decide (data.length ≤ 4096)
  | .clearFaultLog w value => w.wf && decide (value < 256)
  | .nfcInventory n mask => decide (n < 65) && decide (mask < 2 ^ 64)
  | .nfcStayQuiet uid => decide (uid < 2 ^ 64)
  | .nfcSelect uid => decide (uid < 2 ^ 64)
  | .nfcResetToReady who => who.wf
  | .nfcGetSystemInfo who _ => who.wf
  | .nfcReadBlocks who first count => who.wf && decide (first < 2 ^ 16) && decide (count < 2 ^ 16)
  | .nfcWriteBlock who block data => who.wf && decide (block < 2 ^ 16) && decide (data.length ≤ 4096)
  | .nfcUnsupported who => who.wf
  | .telWindowBoundary => true
  | .acctSnapshot => true
  | .acctLatch => true
  | .energyFit => true
  | .pmbusPoll _ => true
  | .coeffWrite w data => w.wf && decide (data.length ≤ 4096)
  | .railInRange rail _ => decide (rail < 10)
  | .railWindowExpiry rail => decide (rail < 10)
  | .railFault rail => decide (rail < 10)
  | .dataReadyReached train => train.wf
  | .startWatchdog a b => a.wf && b.wf
  | .updateBegin w => w.wf
  | .updateData w data => w.wf && decide (data.length ≤ 4096)
  | .updateVerify w x => w.wf && x.wf
  | .updateCancel w => w.wf
  | .nfStart w => w.wf
  | .nfAbort w => w.wf
  | .nfPowerDown w => w.wf
  | .nfSliceEnd found => found.all Found.wf
  | .nfHoldEnd found => found.all Found.wf
  | .managementTick _ _ _ _ => true
  | .flowCompute _ => true
  | .coolantMeasure _ _ => true
  | .coolantClear cond => decide (cond < 5)
  | .ref25Loss => true
  | .ref156Loss _ => true
  | .ref100Loss _ => true
  | .rcRegisterRead v off => v.wf && decide (off < 2 ^ 28)
  | .delineationCheck port _ _ => decide (port < 17)
  | .routeTableComputed _ => true
  | .msgIdFreed dev msgId => decide (dev < 256) && decide (msgId < 2 ^ 20)
  | .pcieLinkDown link => decide (link < 12)
  | .pcieLinkUp link rate width => decide (link < 12) && decide (rate < 8) && decide (width < 17)
  | .refClockReturn clock => decide (clock < 5)
  | .tdispStartInterface ptn => decide (ptn < 32)
  | .tdispStopInterface ptn => decide (ptn < 32)
  | .canIgnoredFrame => true
  | .canErrorFrame _ _ => true
  | .canBusOffRecovery => true
  | .nfcFieldOn => true
  | .nfcFieldOff => true
  | .unitHeartbeat phys => decide (phys < 160)

end Sys2Proof
end

