-- ==== Sys2Proof/Config.lean ====
section
/-! DEFINITION. What an implementation fixes and the spec leaves open: free values, without bodies.
A statement about one of them holds whatever it is. -/

namespace Sys2Proof.Config

/-- A free value for the n-th use, of any size. -/
opaque free : Nat → Nat

/-- Which of the two bracketing FP32 values EXP2 returns for an input (R212): true the upper one. -/
opaque exp2Up : Word → Bool
/-- Which of the two bracketing FP32 values RECIP returns (R211). -/
opaque recipUp : Word → Bool
/-- Which of the two bracketing FP32 values RSQRT returns (R211). -/
opaque rsqrtUp : Word → Bool
/-- Which of the FP32 values within 2 ulp of the exact result the 2-ulp functions return for an input (R211). -/
opaque sigmoidUlp : Word → Nat
opaque tanhUlp : Word → Nat
opaque siluUlp : Word → Nat
opaque geluUlp : Word → Nat
/-- Which of the two bracketing FP32 values COS and SIN return for an input (R334). -/
opaque cosineUp : Word → Bool
opaque sineUp : Word → Bool
/-- FP32 results of NORM, whose formula the spec does not state: layer norm or RMS, the sum of squares of R205 as FP32 bits, and the input
elements (R181, R205). -/
opaque norm : Bool → Word → List Word → List Word
/-- Boot ROM version (GLB_ROM, R850). -/
opaque romVersion : Word
/-- PI gains of the pump loop, as its output in percent for an error in m°C and the integral so far (R984). -/
opaque pumpLoop : Int → Int → Nat
/-- A quarter's free choice among equal RSR slots (R222): the slot taken of a list of free slots. -/
opaque slotChoice : Nat → Nat → Nat
/-- Fitted energy coefficients (R927): least squares over the intervals, each rail energies and activities; by coefficient number.
The fit is not below 0, so the meaning clears the sign. -/
opaque energyFit : List (List Nat) → Nat → Word
/-- What a coefficient that is no finite number from 0 up counts as, in units of 2^-149 (R925 gives it no meaning). -/
opaque oddCoefficient : Word → Nat

end Sys2Proof.Config
end

