-- ==== Sys2Proof/Machine/Sparse.lean ====
section
/-! DEFINITION. Sparse maps and bit fields: the plain helpers that every meaning uses.
A sparse map is a list of (key, value) pairs with keys strictly rising and no value equal to what
an unlisted key reads as, so equal maps are equal lists. -/

namespace Sys2Proof.Machine

/-- The value at a key; `dflt k` when the map does not list it. -/
def sget {α : Type} (dflt : Nat → α) (m : List (Nat × α)) (k : Nat) : α :=
  match m with
  | [] => dflt k
  | (k', v) :: r => if k' = k then v else sget dflt r k

/-- Remove a key. -/
def sdel {α : Type} (m : List (Nat × α)) (k : Nat) : List (Nat × α) :=
  match m with
  | [] => []
  | (k', v) :: r => if k' = k then sdel r k else (k', v) :: sdel r k

/-- Put a value at a key, keeping the keys rising. -/
def sput {α : Type} (m : List (Nat × α)) (k : Nat) (v : α) : List (Nat × α) :=
  match m with
  | [] => [(k, v)]
  | (k', v') :: r =>
    if k < k' then (k, v) :: (k', v') :: r
    else if k = k' then (k, v) :: r
    else (k', v') :: sput r k v

/-- Write a value, keeping the canonical form: writing what an unlisted key reads as removes the entry. -/
def sset {α : Type} [DecidableEq α] (dflt : Nat → α) (m : List (Nat × α)) (k : Nat) (v : α) : List (Nat × α) :=
  if v = dflt k then sdel m k else sput m k v

/-- The canonical form: keys strictly above `lo` and rising, no entry equal to the default. -/
def swfFrom {α : Type} [DecidableEq α] (dflt : Nat → α) (lo : Option Nat) : List (Nat × α) → Bool
  | [] => true
  | (k, v) :: r => (match lo with | none => true | some l => decide (l < k)) && decide (v ≠ dflt k)
      && swfFrom dflt (some k) r

/-- Whether a map is in canonical form. -/
def swf {α : Type} [DecidableEq α] (dflt : Nat → α) (m : List (Nat × α)) : Bool := swfFrom dflt none m

/-- Count at a key of a table of counts; an unlisted count is 0. -/
def cnt (m : List (Nat × Nat)) (k : Nat) : Nat := sget (fun _ => 0) m k
/-- Set a count. -/
def cntSet (m : List (Nat × Nat)) (k v : Nat) : List (Nat × Nat) := sset (fun _ => 0) m k v

/-- Change every element that meets `p`. -/
def updIf {α : Type} (p : α → Bool) (f : α → α) (l : List α) : List α := l.map fun x => if p x then f x else x
/-- Change the element at index `i`, if there is one. -/
def modAt {α : Type} (l : List α) (i : Nat) (f : α → α) : List α :=
  match l, i with
  | [], _ => []
  | x :: r, 0 => f x :: r
  | x :: r, i + 1 => x :: modAt r i f

/-- Bits [lo + n - 1 : lo] of a number. -/
def bits (x lo n : Nat) : Nat := x / 2 ^ lo % 2 ^ n
/-- Bit `i` of a number. -/
def bit (x i : Nat) : Bool := x / 2 ^ i % 2 == 1
/-- Field [lo + n - 1 : lo] of a word of any width. -/
def fld {w : Nat} (x : BitVec w) (lo n : Nat) : Nat := bits x.toNat lo n
def b2n (b : Bool) : Nat := if b then 1 else 0
/-- Ceiling of a quotient; 0 for a divisor of 0. -/
def cdiv (a b : Nat) : Nat := (a + b - 1) / b
/-- Saturate at `m`. -/
def sat (m x : Nat) : Nat := if x < m then x else m

/-- Little-endian value of bytes (R6). -/
def leNat : List Byte → Nat
  | [] => 0
  | b :: r => b.toNat + 256 * leNat r
/-- `n` little-endian bytes of a number (R6). -/
def leBytes : Nat → Nat → List Byte
  | 0, _ => []
  | n + 1, x => BitVec.ofNat 8 x :: leBytes n (x / 256)
/-- Pad a list of bytes with zeros to a length. -/
def padTo (n : Nat) (l : List Byte) : List Byte := l ++ List.replicate (n - l.length) 0
/-- `n` bytes of a list from offset `o`; shorter when the list ends. -/
def bytesAt (l : List Byte) (o n : Nat) : List Byte := (l.drop o).take n
/-- The little-endian field of `n` bytes at offset `o`. -/
def leAt (l : List Byte) (o n : Nat) : Nat := leNat (bytesAt l o n)

/-- One bit of the CRC-32C register, in the reflected form with polynomial 0x82F63B78. -/
def crcBit (c : Nat) : Nat := if c % 2 == 1 then Nat.xor (c / 2) 0x82F63B78 else c / 2
/-- One byte of CRC-32C. -/
def crcByte (c : Nat) (b : Byte) : Nat :=
  let x := Nat.xor c b.toNat
  crcBit (crcBit (crcBit (crcBit (crcBit (crcBit (crcBit (crcBit x)))))))
/-- CRC-32C of bytes (R86, R90, R746, R833). -/
def crc32c (l : List Byte) : Nat := Nat.xor (l.foldl crcByte 0xFFFFFFFF) 0xFFFFFFFF

/-- CRC-16 of bytes: polynomial 0x8BB7, initial value 0, most significant bit first (R543). -/
def crc16 (l : List Byte) : Nat :=
  l.foldl (fun c b => (List.range 8).foldl (fun c i =>
    let top := bit c 15 != bit b.toNat (7 - i)
    let c2 := c * 2 % 65536
    if top then Nat.xor c2 0x8BB7 else c2) c) 0

/-- Two's-complement value of the low `n` bits. -/
def toInt (n x : Nat) : Int := if bit x (n - 1) then (bits x 0 n : Int) - 2 ^ n else bits x 0 n
/-- Two's-complement bits of an integer in `n` bits. -/
def ofInt (n : Nat) (x : Int) : Nat := (x % (2 ^ n : Int)).toNat
/-- Clamp an integer to the signed range of `n` bits. -/
def satInt (n : Nat) (x : Int) : Int :=
  if x < -(2 ^ (n - 1) : Int) then -(2 ^ (n - 1)) else if x > 2 ^ (n - 1) - 1 then 2 ^ (n - 1) - 1 else x

/-- Sort by a key, stably (insertion; for short lists). -/
def insBy {α : Type} (key : α → Nat) (x : α) : List α → List α
  | [] => [x]
  | y :: r => if key y ≤ key x then y :: insBy key x r else x :: y :: r
def sortBy {α : Type} (key : α → Nat) (l : List α) : List α := l.foldl (fun a x => insBy key x a) []

/-- Sum of a list of numbers. -/
def sumN (l : List Nat) : Nat := l.foldl (· + ·) 0
/-- Largest of a list of numbers, 0 for an empty list. -/
def maxN (l : List Nat) : Nat := l.foldl Nat.max 0
/-- Smallest of a list of numbers, 0 for an empty list. -/
def minN : List Nat → Nat
  | [] => 0
  | x :: r => r.foldl Nat.min x

end Sys2Proof.Machine
end

