-- ==== Sys2Proof/Machine/Num.lean ====
section
/-! DEFINITION. Number formats and arithmetic (R188-R218): reading and writing every element format,
exact block sums, the elementwise functions, stochastic rounding and Philox4x32-10. -/

namespace Sys2Proof.Machine
open Sys2Proof

/-- A number read from a format: NaN, an infinity, or the exact value (−1)^neg · m · 2^e. -/
inductive Num where
  | nan
  | inf (neg : Bool)
  | fin (neg : Bool) (m : Nat) (e : Int)
  deriving DecidableEq, Repr

/-- A binary format: exponent and mantissa bits, bias, and how infinity and NaN are encoded (R188). -/
structure Fmt where
  eb   : Nat
  mb   : Nat
  bias : Nat
  /-- E all ones encodes infinity and NaN. -/
  ieee : Bool
  /-- The code of all ones (without sign) is the only NaN (E4M3). -/
  topNan : Bool
  deriving DecidableEq, Repr

def fp32 : Fmt := ⟨8, 23, 127, true, false⟩
def bf16 : Fmt := ⟨8, 7, 127, true, false⟩
def fp16 : Fmt := ⟨5, 10, 15, true, false⟩
def e4m3 : Fmt := ⟨4, 3, 7, false, true⟩
def e5m2 : Fmt := ⟨5, 2, 15, true, false⟩
def e3m2 : Fmt := ⟨3, 2, 3, false, false⟩
def e2m3 : Fmt := ⟨2, 3, 1, false, false⟩
def e2m1 : Fmt := ⟨2, 1, 1, false, false⟩

/-- Format of a code of R179 (its element format for MX codes); none for INT8, KVQ, INT32, reserved. -/
def fmtOf : Nat → Option Fmt
  | 0 => some fp32 | 1 => some bf16 | 2 => some fp16 | 3 => some e4m3 | 4 => some e5m2
  | 5 => some e4m3 | 6 => some e5m2 | 7 => some e3m2 | 8 => some e2m3 | 9 => some e2m1 | _ => none

/-- Bits of one element of a format code (R188, R195). -/
def elemBits : Nat → Nat
  | 0 => 32 | 1 => 16 | 2 => 16 | 3 => 8 | 4 => 8 | 5 => 8 | 6 => 8 | 7 => 6 | 8 => 6 | 9 => 4 | 0xA => 8 | 0xD => 32 | _ => 8
/-- MX formats carry a scale per block of 32 (R193). -/
def isMx (f : Nat) : Bool := 5 ≤ f && f ≤ 0xA

/-- Read a code of a binary format; subnormals are read, never flushed (R188, R189). -/
def readFmt (f : Fmt) (x : Nat) : Num :=
  let neg := bit x (f.eb + f.mb)
  let e := bits x f.mb f.eb
  let m := bits x 0 f.mb
  if f.ieee && e == 2 ^ f.eb - 1 then (if m == 0 then .inf neg else .nan)
  else if f.topNan && bits x 0 (f.eb + f.mb) == 2 ^ (f.eb + f.mb) - 1 then .nan
  else if e == 0 then .fin neg m (1 - (f.bias : Int) - f.mb)
  else .fin neg (2 ^ f.mb + m) ((e : Int) - f.bias - f.mb)

/-- Largest finite code of a format, without sign. -/
def maxFin (f : Fmt) : Nat :=
  if f.ieee then (2 ^ f.eb - 1) * 2 ^ f.mb - 1 else if f.topNan then 2 ^ (f.eb + f.mb) - 2 else 2 ^ (f.eb + f.mb) - 1
/-- Canonical NaN (R190). -/
def canonNan (f : Fmt) : Nat :=
  if f.topNan then 2 ^ (f.eb + f.mb) - 1 else (2 ^ f.eb - 1) * 2 ^ f.mb + 2 ^ (f.mb - 1)

/-- m · 2^e as an integer multiple of 2^q: quotient and remainder over a power of two. -/
def scaleTo (m : Nat) (e q : Int) : Nat × Nat × Nat :=
  if q ≤ e then (m * 2 ^ (e - q).toNat, 0, 1)
  else let d := 2 ^ (q - e).toNat; (m / d, m % d, d)

/-- Code of a magnitude k · 2^q where q is the exponent of the format's last bit at that size. -/
def packMag (f : Fmt) (k : Nat) (q : Int) : Nat :=
  let (k, q) := if k == 2 ^ (f.mb + 1) then (2 ^ f.mb, q + 1) else (k, q)
  if k < 2 ^ f.mb then k else (q + f.mb + f.bias).toNat * 2 ^ f.mb + (k - 2 ^ f.mb)

/-- Exponent of the last bit at the size of m · 2^e, m > 0. -/
def lastBit (f : Fmt) (m : Nat) (e : Int) : Int :=
  let top := e + Nat.log2 m
  (if top < 1 - (f.bias : Int) then 1 - (f.bias : Int) else top) - f.mb

/-- What a code above the largest finite one becomes (R207). -/
def overflow (f : Fmt) (neg : Bool) : Nat :=
  (if f.ieee && f.mb != 2 then (2 ^ f.eb - 1) * 2 ^ f.mb else maxFin f) + b2n neg * 2 ^ (f.eb + f.mb)

/-- Code of a number, rounding to nearest with ties to even; the sign of zero is kept (R206-R208). -/
def writeFmt (f : Fmt) : Num → Nat
  | .nan => canonNan f
  | .inf neg => (if f.ieee then (2 ^ f.eb - 1) * 2 ^ f.mb else maxFin f) + b2n neg * 2 ^ (f.eb + f.mb)
  | .fin neg m e =>
    if m == 0 then b2n neg * 2 ^ (f.eb + f.mb)
    else
      let q := lastBit f m e
      let (k, r, d) := scaleTo m e q
      let k := if 2 * r > d || (2 * r == d && k % 2 == 1) then k + 1 else k
      let c := packMag f k q
      if c ≤ maxFin f then c + b2n neg * 2 ^ (f.eb + f.mb) else overflow f neg

/-- Code of a number under stochastic rounding with generator word `w` (R209, R210). -/
def writeSr (f : Fmt) (w : Nat) : Num → Nat
  | .fin neg m e =>
    if m == 0 then b2n neg * 2 ^ (f.eb + f.mb)
    else
      let q := lastBit f m e
      let (k, r, d) := scaleTo m e q
      let k := if r * 2 ^ 32 > w * d then k + 1 else k
      let c := packMag f k q
      (if c ≤ maxFin f then c else maxFin f) + b2n neg * 2 ^ (f.eb + f.mb)
  | n => writeFmt f n

/-- FP32 bits of a number, rounded to nearest even. -/
def w32 (n : Num) : Nat := writeFmt fp32 n
/-- Number of FP32 bits. -/
def r32 (x : Nat) : Num := readFmt fp32 x
/-- Number of an integer. -/
def numInt (x : Int) : Num := .fin (x < 0) x.natAbs 0

def Num.neg : Num → Num
  | .nan => .nan
  | .inf n => .inf !n
  | .fin n m e => .fin (!n) m e
/-- Multiply exactly by 2^k. -/
def Num.scale (k : Int) : Num → Num
  | .fin n m e => .fin n m (e + k)
  | x => x
/-- Exact product; infinity times zero is NaN (R203). -/
def Num.mul : Num → Num → Num
  | .nan, _ => .nan
  | _, .nan => .nan
  | .inf a, .inf b => .inf (a != b)
  | .inf a, .fin b m _ => if m == 0 then .nan else .inf (a != b)
  | .fin a m _, .inf b => if m == 0 then .nan else .inf (a != b)
  | .fin a m e, .fin b n g => .fin (a != b) (m * n) (e + g)
/-- Signed mantissa at exponent `lo`. -/
def mantAt (lo : Int) : Num → Int
  | .fin n m e => let v : Int := m * 2 ^ (e - lo).toNat; if n then -v else v
  | _ => 0
def Num.exp : Num → Int
  | .fin _ _ e => e
  | _ => 0
def Num.isNan : Num → Bool
  | .nan => true
  | _ => false
def Num.isInf (neg : Bool) : Num → Bool
  | .inf n => n == neg
  | _ => false
def Num.isNegZero : Num → Bool
  | .fin n m _ => n && m == 0
  | _ => false
/-- Exact sum of numbers with the special rules of R203; an exact zero is +0 unless every term is −0. -/
def exactSum (l : List Num) : Num :=
  if l.any Num.isNan then .nan
  else if l.any (Num.isInf false) then (if l.any (Num.isInf true) then .nan else .inf false)
  else if l.any (Num.isInf true) then .inf true
  else
    let lo := l.foldl (fun a n => if n.exp < a then n.exp else a) 0
    let s := l.foldl (fun a n => a + mantAt lo n) (0 : Int)
    if s == 0 then .fin (!l.isEmpty && l.all Num.isNegZero) 0 0 else .fin (s < 0) s.natAbs lo

/-- FP32 operations with one rounding to nearest even. -/
def add32 (a b : Nat) : Nat := w32 (exactSum [r32 a, r32 b])
def sub32 (a b : Nat) : Nat := w32 (exactSum [r32 a, (r32 b).neg])
def mul32 (a b : Nat) : Nat := w32 ((r32 a).mul (r32 b))
/-- Order key of a number: −0 below +0 (R205). -/
def numLt (a b : Num) : Bool :=
  match a, b with
  | .inf true, .inf true => false
  | .inf true, _ => true
  | _, .inf true => false
  | .inf false, _ => false
  | _, .inf false => true
  | .fin n m e, .fin n' m' e' =>
    let lo := if e < e' then e else e'
    let x := mantAt lo (.fin n m e)
    let y := mantAt lo (.fin n' m' e')
    x < y || (x == y && m == 0 && n && !n')
  | _, _ => false
def isNan32 (x : Nat) : Bool := (r32 x).isNan
/-- Maximum of FP32 bits; NaN when either is NaN (R205). -/
def max32 (a b : Nat) : Nat := if isNan32 a || isNan32 b then canonNan fp32 else if numLt (r32 a) (r32 b) then b else a
def min32 (a b : Nat) : Nat := if isNan32 a || isNan32 b then canonNan fp32 else if numLt (r32 b) (r32 a) then b else a
/-- Whether a < b as FP32 numbers. -/
def lt32 (a b : Nat) : Bool := numLt (r32 a) (r32 b)

def negInf : Nat := 0xFF800000
def posInf : Nat := 0x7F800000
def nan32 : Nat := 0x7FC00000
def one32 : Nat := 0x3F800000
def log2e : Nat := 0x3FB8AA3B
/-- The code after, and the code before, a positive FP32 code. -/
def bracket (lo : Nat) (exact up : Bool) : Nat := if exact || !up then lo else lo + 1

/-- Floor of a positive rational a/b · 2^e to a positive FP32 code, and whether it is exact. -/
def floor32 (a b : Nat) (e : Int) : Nat × Bool :=
  -- scale so that the quotient has at least 26 bits
  let k : Nat := 64 + Nat.log2 b
  let m := a * 2 ^ k / b
  let ex := a * 2 ^ k % b == 0
  let q := lastBit fp32 m (e - k)
  let (t, r, _) := scaleTo m (e - k) q
  (packMag fp32 t q, ex && r == 0)

/-- RECIP: one of the two FP32 values that bracket 1/x (R211). -/
def recip32 (x : Nat) : Nat :=
  match r32 x with
  | .nan => nan32
  | .inf n => b2n n * 2 ^ 31
  | .fin n m e =>
    if m == 0 then posInf + b2n n * 2 ^ 31
    else
      let (lo, ex) := floor32 1 m (-e)
      Nat.min posInf (bracket lo ex (Config.recipUp (BitVec.ofNat 32 x))) + b2n n * 2 ^ 31

/-- RSQRT: one of the two FP32 values that bracket 1/sqrt x (R211). -/
def rsqrt32 (x : Nat) : Nat :=
  match r32 x with
  | .nan => nan32
  | .inf n => if n then nan32 else 0
  | .fin n m e =>
    if m == 0 then (if n then negInf else posInf)
    else if n then nan32
    else
      -- x = m · 2^e with e even after scaling; 1/sqrt x = 2^64 / sqrt(m · 2^128) · 2^(-e/2)
      let (m, e) := if e % 2 == 0 then (m, e) else (2 * m, e - 1)
      let num := 2 ^ 400 / m
      let t := Nat.sqrt num
      let ex := t * t == num && 2 ^ 400 % m == 0
      let q := lastBit fp32 t (-200 - e / 2)
      let (k, r, _) := scaleTo t (-200 - e / 2) q
      bracket (packMag fp32 k q) (ex && r == 0) (Config.rsqrtUp (BitVec.ofNat 32 x))

/-- Largest 24-bit t with (t · 2^-23)^(2^q) ≤ 2^p, by bisection: the mantissa below 2^(p / 2^q), 0 ≤ p < 2^q. -/
def powFloor (p q : Nat) : Nat → Nat → Nat
  | 0, lo => lo
  | n + 1, lo =>
    let t := lo + 2 ^ n
    if t < 2 ^ 24 && t ^ 2 ^ q ≤ 2 ^ (p + 23 * 2 ^ q) then powFloor p q n t else powFloor p q n lo

/-- EXP2: exact where 2^x is representable, otherwise one of the two FP32 values that bracket it (R212). -/
def exp2 (x : Nat) : Nat :=
  match r32 x with
  | .nan => nan32
  | .inf n => if n then 0 else posInf
  | .fin n m e =>
    if m == 0 then one32
    else
      let num : Int := if n then -(m : Int) else m
      -- the value is at least 128, or below −150
      if !n && (if e ≥ 0 then m * 2 ^ e.toNat ≥ 128 else m ≥ 128 * 2 ^ (-e).toNat) then posInf
      else if n && (if e ≥ 0 then m * 2 ^ e.toNat > 150 else m > 150 * 2 ^ (-e).toNat) then 0
      else
        let (k, p, q) : Int × Nat × Nat :=
          if e ≥ 0 then (num * 2 ^ e.toNat, 0, 0)
          else (num / 2 ^ (-e).toNat, (num % 2 ^ (-e).toNat).toNat, (-e).toNat)
        if p == 0 then w32 (.fin false 1 k)
        else
          let t := powFloor p q 24 (2 ^ 23)
          let s : Int := if k < -126 then -126 - k else 0
          let lo := if k < -126 then t / 2 ^ s.toNat else (k + 127).toNat * 2 ^ 23 + (t - 2 ^ 23)
          bracket lo false (Config.exp2Up (BitVec.ofNat 32 x))

/-- Fixed point of the elementwise functions: one. -/
abbrev fxOne : Nat := 2 ^ 256
/-- e^(t ÷ 2^256) in that fixed point, for t of at most 256: the series of an argument below 1, squared eight times. -/
def fxExp (t : Nat) : Nat :=
  let r := Nat.min t (256 * fxOne) / 256
  let sum := ((List.range 64).foldl (fun (a : Nat × Nat) k => (a.1 + a.2, a.2 * r / (fxOne * (k + 1)))) (0, fxOne)).1
  (List.range 8).foldl (fun e _ => e * e / fxOne) sum
/-- The magnitude m · 2^e of a finite FP32 number, exactly. -/
def fxOf (m : Nat) (e : Int) : Nat := m * 2 ^ (e + 256).toNat
/-- 1 ÷ (1 + e^−x) for x of the given sign and magnitude. -/
def fxSigmoid (neg : Bool) (t : Nat) : Nat := fxOne * (if neg then fxOne else fxExp t) / (fxOne + fxExp t)
/-- An FP32 magnitude within 2 ulp of an exact one, given by the code at or below it and whether that is exact (R211). -/
def within2 (lo : Nat × Bool) (choice : Nat) : Nat := Nat.min posInf (if lo.2 then lo.1 + choice % 5 - 2 else lo.1 + choice % 4 - 1)
/-- A choice of the implementation for an input. -/
def wordFn {α : Type} (g : Word → α) (x : Nat) : α := g (BitVec.ofNat 32 x)
/-- SIGMOID, within 2 ulp (R211). -/
def sigmoid32 (x : Nat) : Nat := match r32 x with
  | .nan => nan32 | .inf n => if n then 0 else one32
  | .fin n m e => within2 (floor32 (fxSigmoid n (fxOf m e)) 1 (-256)) (wordFn Config.sigmoidUlp x)
/-- TANH, within 2 ulp (R211); below 2^-12 it lies within an ulp under the magnitude of its input. -/
def tanh32 (x : Nat) : Nat := match r32 x with
  | .nan => nan32 | .inf n => one32 + b2n n * 2 ^ 31
  | .fin n m e =>
    let t := fxOf m e
    let x2 := fxExp (2 * t)
    within2 (if m == 0 then (0, true) else if t < 2 ^ 244 then (x % 2 ^ 31 - 1, false) else floor32 (fxOne * (x2 - fxOne) / (x2 + fxOne)) 1 (-256))
      (wordFn Config.tanhUlp x) + b2n n * 2 ^ 31
/-- SILU, within 2 ulp (R211). The rule states no value for +infinity: it is +infinity, the limit (DEDUCED, log 27). -/
def silu32 (x : Nat) : Nat := match r32 x with
  | .nan => nan32 | .inf true => 2 ^ 31 | .inf false => posInf
  | .fin n m e => within2 (floor32 (m * fxSigmoid n (fxOf m e)) 1 (e - 256)) (wordFn Config.siluUlp x) + b2n n * 2 ^ 31
/-- Twice the square root of 2 ÷ π in the fixed point. -/
def geluScale : Nat := 184777440531124450200008084702946902002096553526136051377145485731653605029050
/-- GELU by its tanh approximation, x · sigmoid(2 √(2 ÷ π) (x + 0.044715 x³)), within 2 ulp (R211; the constants are PRESUMED, log 27). -/
def gelu32 (x : Nat) : Nat := match r32 x with
  | .nan => nan32 | .inf true => 2 ^ 31 | .inf false => posInf
  | .fin n m e =>
    let t := fxOf m e
    let u := geluScale * (t + t * t / fxOne * t / fxOne * 44715 / 1000000) / fxOne
    within2 (floor32 (m * fxSigmoid n u) 1 (e - 256)) (wordFn Config.geluUlp x) + b2n n * 2 ^ 31
/-- π ÷ 2 as a multiple of 2^-448. -/
def halfPi : Nat := 1141715598295827886284146596318906581494752591100903810227730751823731837176045890474041405000406875230839359923319856739557922844846190
/-- Sine (d = 1) or cosine (d = 0) of an angle below π ÷ 2, both in units of 2^-320, by its series. -/
def fxSeries (d r : Nat) : Nat :=
  let one : Int := 2 ^ 320
  let q : Int := r * r / one
  let term (a : Int × Int) (k : Nat) : Int × Int := (a.1 + a.2, -(a.2 * q / (one * ((2 * k + d + 1 : Nat) : Int) * ((2 * k + d + 2 : Nat) : Int))))
  ((List.range 60).foldl term (0, if d = 1 then (r : Int) else one)).1.toNat
/-- The FP32 code at or below the magnitude of sine (d = 1) or cosine (d = 0) of m · 2^e, and whether it is negative. -/
def sinCos (d m : Nat) (e : Int) : Nat × Bool :=
  let x := m * 2 ^ (e + 448).toNat
  let quad := x / halfPi + (1 - d)
  ((floor32 (fxSeries (if quad % 2 = 0 then 1 else 0) (x % halfPi / 2 ^ 128)) 1 (-320)).1, quad / 2 % 2 == 1)
/-- COS: one of the two FP32 values that bracket it (R334). -/
def cos32 (x : Nat) : Nat := match r32 x with
  | .fin _ m e =>
    if m == 0 then one32
    else
      let c := sinCos 0 m e
      bracket c.1 false (wordFn Config.cosineUp x) + b2n c.2 * 2 ^ 31
  | _ => nan32
/-- SIN: one of the two FP32 values that bracket it (R334); below 2^-12 it lies within an ulp under the magnitude of its input. -/
def sin32 (x : Nat) : Nat := match r32 x with
  | .fin n m e =>
    if m == 0 then b2n (wordFn Config.sineUp x) * 2 ^ 31
    else
      let c := if m * 2 ^ (e + 448).toNat < 2 ^ 436 then (x % 2 ^ 31 - 1, false) else sinCos 1 m e
      bracket c.1 false (wordFn Config.sineUp x) + b2n (c.2 != n) * 2 ^ 31
  | _ => nan32
def relu32 (x : Nat) : Nat := match r32 x with
  | .nan => nan32 | .inf true => 0 | .fin true _ _ => 0 | _ => x

/-- ACT's functions other than the conversions, on FP32 bits (R211). -/
def actFn : Nat → Nat → Nat
  | 2, x => exp2 x | 3, x => recip32 x | 4, x => rsqrt32 x | 5, x => sigmoid32 x
  | 6, x => tanh32 x | 7, x => silu32 x | 8, x => gelu32 x | 9, x => relu32 x | _, x => x

/-- Philox4x32-10 (R215): one round and the ten rounds. -/
def philoxRound (c : Nat × Nat × Nat × Nat) (k : Nat × Nat) : Nat × Nat × Nat × Nat :=
  let (c0, c1, c2, c3) := c
  let p0 := 0xD2511F53 * c0
  let p1 := 0xCD9E8D57 * c2
  (Nat.xor (Nat.xor (p1 / 2 ^ 32) c1) k.1, p1 % 2 ^ 32, Nat.xor (Nat.xor (p0 / 2 ^ 32) c3) k.2, p0 % 2 ^ 32)
def philoxRounds : Nat → Nat × Nat × Nat × Nat → Nat × Nat → Nat × Nat × Nat × Nat
  | 0, c, _ => c
  | n + 1, c, k => philoxRounds n (philoxRound c k) ((k.1 + 0x9E3779B9) % 2 ^ 32, (k.2 + 0xBB67AE85) % 2 ^ 32)
/-- Output words w0 to w3 for a counter and a 64-bit key k1:k0. -/
def philox (c0 c1 c2 c3 key : Nat) : Nat × Nat × Nat × Nat :=
  philoxRounds 10 (c0 % 2 ^ 32, c1 % 2 ^ 32, c2 % 2 ^ 32, c3 % 2 ^ 32) (key % 2 ^ 32, key / 2 ^ 32 % 2 ^ 32)

/-- Bytes of `n` elements of a format without its scales (R194). -/
def elemBytes (f n : Nat) : Nat := cdiv (n * elemBits f) 8
/-- Round a byte count up to whole 64-byte lines. -/
def lines (n : Nat) : Nat := cdiv n 64
def alignLine (n : Nat) : Nat := lines n * 64
/-- Bytes of the element array of an MX operand before its scale array: whole blocks, to the next line (R194). -/
def mxBytes (f n : Nat) : Nat := alignLine (elemBytes f (32 * cdiv n 32))
/-- Bytes of an operand of `n` elements, with the scale array of MX formats on its own lines (R194). -/
def operandBytes (f n : Nat) : Nat := if isMx f then mxBytes f n + cdiv n 32 else elemBytes f n

/-- Element code `i` of packed elements of `w` bits (R195). -/
def packedCode (bs : List Byte) (w i : Nat) : Nat :=
  if w == 8 then (bs.getD i 0).toNat
  else if w == 16 then leAt bs (2 * i) 2
  else if w == 32 then leAt bs (4 * i) 4
  else if w == 4 then bits (bs.getD (i / 2) 0).toNat (4 * (i % 2)) 4
  else bits (leAt bs (3 * (i / 4)) 3) (6 * (i % 4)) 6

/-- Number of an element code, before any block scale (R188); MXINT8 in units of 2^-6. -/
def readElem (f x : Nat) : Num :=
  if f == 0xA then .fin (bit x 7) (toInt 8 x).natAbs (-6)
  else if f == 0xD then numInt (toInt 32 x)
  else match fmtOf f with
    | some m => readFmt m x
    | none => .nan
/-- Apply an E8M0 scale byte; 0xFF makes every element NaN (R193). -/
def applyScale (e : Nat) (n : Num) : Num := if e == 0xFF then .nan else n.scale ((e : Int) - 127)

/-- The `n` numbers of an operand in a non-KVQ format (R188, R193-R195). -/
def readNums (f n : Nat) (bs : List Byte) : List Num :=
  let so := mxBytes f n
  (List.range n).map fun i =>
    let x := readElem f (packedCode bs (elemBits f) i)
    if isMx f then applyScale (bs.getD (so + i / 32) 0).toNat x else x

/-- emax of an MX element format (R196). -/
def mxEmax : Nat → Int
  | 5 => 8 | 6 => 15 | 7 => 4 | 8 => 2 | 9 => 2 | _ => 0
/-- floor(log2 a) of the largest magnitude of a block; none when every value is zero. -/
def blockTop (b : List Num) : Option Int :=
  b.foldl (fun a n => match n with
    | .fin _ m e => if m == 0 then a else
        let t := e + Nat.log2 m
        (match a with | some x => some (if x < t then t else x) | none => some t)
    | _ => a) none
/-- Code of an element after scaling, saturating at ± the largest finite element; INT8 never −128 (R196, R207). -/
def writeElem (f : Nat) (sr : Option Nat) (n : Num) : Nat :=
  if f == 0xA || f == 0xD then
    match n with
    | .nan => 0
    | .inf neg => if f == 0xA then (if neg then 129 else 127) else (if neg then 2 ^ 31 else 2 ^ 31 - 1)
    | .fin neg m e =>
      let (k, r, d) := scaleTo m e (if f == 0xA then -6 else 0)
      let up : Bool := match sr with | some w => decide (r * 2 ^ 32 > w * d) | none => 2 * r > d || (2 * r == d && k % 2 == 1)
      let k := if up then k + 1 else k
      if f == 0xA then ofInt 8 (if neg then -(Nat.min k 127 : Int) else Nat.min k 127)
      else ofInt 32 (satInt 32 (if neg then -(k : Int) else k))
  else match fmtOf f with
    | some m =>
      let c := match sr with | some w => writeSr m w n | none => writeFmt m n
      -- an MX element saturates at its largest finite value
      if isMx f then (if bits c 0 (m.eb + m.mb) > maxFin m then maxFin m + b2n (bit c (m.eb + m.mb)) * 2 ^ (m.eb + m.mb) else c) else c
    | none => 0

/-- Pack element codes of `w` bits into bytes (R195). -/
def packCodes (w : Nat) (cs : List Nat) : List Byte :=
  leBytes (cdiv (cs.length * w) 8) (cs.foldr (fun c a => c + 2 ^ w * a) 0)
/-- Chunks of `n` of a list. -/
def chunks {α : Type} (n : Nat) (l : List α) : List (List α) :=
  (List.range (cdiv l.length n)).map fun i => (l.drop (i * n)).take n
/-- Scale byte of a block to be written (R196, R197). -/
def mxScale (f : Nat) (b : List Num) : Nat :=
  if b.any (fun n => n.isNan || n.isInf true || n.isInf false) then 0xFF
  else match blockTop b with
    | none => 0x7F
    | some t => let e := t - mxEmax f + 127; if e < 0 then 0 else if e > 254 then 254 else e.toNat
/-- Bytes of an operand written in a non-KVQ format; `sr` gives the generator word of each element for
stochastic rounding (R196, R197, R206-R210). In a block of zeros an element keeps its sign, so that −0 is written as −0
(DESIGN CHOICE, log 73: R197 says zero elements, R208 keeps the sign of zero). -/
def writeNums (f : Nat) (sr : Option (Nat → Nat)) (l : List Num) : List Byte :=
  let w (i : Nat) : Option Nat := sr.map (· i)
  if isMx f then
    let bs := chunks 32 l
    let codes := bs.mapIdx fun j b =>
      let e := mxScale f b
      b.mapIdx fun i n => if e == 0xFF then 0 else writeElem f (w (32 * j + i)) (n.scale (127 - (e : Int)))
    let el := packCodes (elemBits f) codes.flatten
    el ++ List.replicate (mxBytes f l.length - el.length) 0 ++ bs.map fun b => BitVec.ofNat 8 (mxScale f b)
  else packCodes (elemBits f) (l.mapIdx fun i n => writeElem f (w i) n)

/-- Add exact block sums of 32 to an FP32 accumulator, one rounding per block (R199, R200). -/
def addBlocks (c : Nat) (prods : List Num) : Nat :=
  (chunks 32 prods).foldl (fun c b => w32 (exactSum [r32 c, exactSum b])) c
/-- Fused multiply-add of FP32 with FP32 (R202). -/
def addFma (c : Nat) (prods : List Num) : Nat := prods.foldl (fun c p => w32 (exactSum [r32 c, p])) c

end Sys2Proof.Machine
end

