-- ==== Sys2Proof/Machine/Sig.lean ====
section
/-! DEFINITION. Signatures (R66, R91, R741, R949): SHA-384 and the verification of ECDSA over P-384, as FIPS 180-4 and FIPS 186-5
define them. The spec names both and prints neither (PRESUMED, log 79). -/

namespace Sys2Proof.Machine
open Sys2Proof

/-- The 80 round constants of SHA-384, the first 64 bits of the fractional parts of the cube roots of the first 80 primes. -/
def shaK : List Nat :=
  [0x428A2F98D728AE22, 0x7137449123EF65CD, 0xB5C0FBCFEC4D3B2F, 0xE9B5DBA58189DBBC, 0x3956C25BF348B538] ++
  [0x59F111F1B605D019, 0x923F82A4AF194F9B, 0xAB1C5ED5DA6D8118, 0xD807AA98A3030242, 0x12835B0145706FBE] ++
  [0x243185BE4EE4B28C, 0x550C7DC3D5FFB4E2, 0x72BE5D74F27B896F, 0x80DEB1FE3B1696B1, 0x9BDC06A725C71235] ++
  [0xC19BF174CF692694, 0xE49B69C19EF14AD2, 0xEFBE4786384F25E3, 0x0FC19DC68B8CD5B5, 0x240CA1CC77AC9C65] ++
  [0x2DE92C6F592B0275, 0x4A7484AA6EA6E483, 0x5CB0A9DCBD41FBD4, 0x76F988DA831153B5, 0x983E5152EE66DFAB] ++
  [0xA831C66D2DB43210, 0xB00327C898FB213F, 0xBF597FC7BEEF0EE4, 0xC6E00BF33DA88FC2, 0xD5A79147930AA725] ++
  [0x06CA6351E003826F, 0x142929670A0E6E70, 0x27B70A8546D22FFC, 0x2E1B21385C26C926, 0x4D2C6DFC5AC42AED] ++
  [0x53380D139D95B3DF, 0x650A73548BAF63DE, 0x766A0ABB3C77B2A8, 0x81C2C92E47EDAEE6, 0x92722C851482353B] ++
  [0xA2BFE8A14CF10364, 0xA81A664BBC423001, 0xC24B8B70D0F89791, 0xC76C51A30654BE30, 0xD192E819D6EF5218] ++
  [0xD69906245565A910, 0xF40E35855771202A, 0x106AA07032BBD1B8, 0x19A4C116B8D2D0C8, 0x1E376C085141AB53] ++
  [0x2748774CDF8EEB99, 0x34B0BCB5E19B48A8, 0x391C0CB3C5C95A63, 0x4ED8AA4AE3418ACB, 0x5B9CCA4F7763E373] ++
  [0x682E6FF3D6B2B8A3, 0x748F82EE5DEFB2FC, 0x78A5636F43172F60, 0x84C87814A1F0AB72, 0x8CC702081A6439EC] ++
  [0x90BEFFFA23631E28, 0xA4506CEBDE82BDE9, 0xBEF9A3F7B2C67915, 0xC67178F2E372532B, 0xCA273ECEEA26619C] ++
  [0xD186B8C721C0C207, 0xEADA7DD6CDE0EB1E, 0xF57D4F7FEE6ED178, 0x06F067AA72176FBA, 0x0A637DC5A2C898A6] ++
  [0x113F9804BEF90DAE, 0x1B710B35131C471B, 0x28DB77F523047D84, 0x32CAAB7B40C72493, 0x3C9EBE0A15C9BEBC] ++
  [0x431D67C49C100D4C, 0x4CC5D4BECB3E42B6, 0x597F299CFC657E2A, 0x5FCB6FAB3AD6FAEC, 0x6C44198C4A475817]
/-- The initial hash value of SHA-384. -/
def shaH : List Nat := [
  0xCBBB9D5DC1059ED8, 0x629A292A367CD507, 0x9159015A3070DD17, 0x152FECD8F70E5939,
  0x67332667FFC00B31, 0x8EB44A8768581511, 0xDB0C2E0D64F98FA7, 0x47B5481DBEFA4FA4]
/-- Rotate and shift of a 64-bit word. -/
def rotr (x n : Nat) : Nat := x / 2 ^ n + x % 2 ^ n * 2 ^ (64 - n)
def bigSig0 (x : Nat) : Nat := rotr x 28 ^^^ rotr x 34 ^^^ rotr x 39
def bigSig1 (x : Nat) : Nat := rotr x 14 ^^^ rotr x 18 ^^^ rotr x 41
def smallSig0 (x : Nat) : Nat := rotr x 1 ^^^ rotr x 8 ^^^ (x / 2 ^ 7)
def smallSig1 (x : Nat) : Nat := rotr x 19 ^^^ rotr x 61 ^^^ (x / 2 ^ 6)
/-- A number of big-endian bytes. -/
def beNat (bs : List Byte) : Nat := bs.foldl (fun a b => a * 256 + b.toNat) 0
/-- The padded message in blocks of sixteen 64-bit words. -/
def shaBlocks (bs : List Byte) : List (List Nat) :=
  let n := bs.length
  let z := (239 - n % 128) % 128
  let tail : List Byte := (128 : Byte) :: (List.replicate z 0 ++ (List.range 16).map fun i => BitVec.ofNat 8 (n * 8 / 2 ^ (8 * (15 - i))))
  chunks 16 ((chunks 8 (bs ++ tail)).map beNat)
/-- One round: the message schedule shifts on as the eight working words change. -/
def shaRound : List Nat × List Nat → Nat → List Nat × List Nat
  | ([a, b, c, d, e, f, g, h], w), k =>
    let t1 := h + bigSig1 e + ((e &&& f) ^^^ ((2 ^ 64 - 1 - e) &&& g)) + k + w.headD 0
    let t2 := bigSig0 a + ((a &&& b) ^^^ (a &&& c) ^^^ (b &&& c))
    let wn := (smallSig1 (w.getD 14 0) + w.getD 9 0 + smallSig0 (w.getD 1 0) + w.headD 0) % 2 ^ 64
    ([(t1 + t2) % 2 ^ 64, a, b, c, (d + t1) % 2 ^ 64, e, f, g], w.drop 1 ++ [wn])
  | x, _ => x
def shaBlock (h w : List Nat) : List Nat := List.zipWith (fun a b => (a + b) % 2 ^ 64) h (shaK.foldl shaRound (h, w)).1
/-- The SHA-384 digest, as a number of 384 bits. -/
def sha384 (bs : List Byte) : Nat := (((shaBlocks bs).foldl shaBlock shaH).take 6).foldl (fun a w => a * 2 ^ 64 + w) 0

/-- P-384: the field's prime, the group's order, b and the base point. -/
def p384 : Nat := 2 ^ 384 - 2 ^ 128 - 2 ^ 96 + 2 ^ 32 - 1
def n384 : Nat := 0xFFFFFFFFFFFFFFFFFFFFFFFFFFFFFFFFFFFFFFFFFFFFFFFFC7634D81F4372DDF581A0DB248B0A77AECEC196ACCC52973
def b384 : Nat := 0xB3312FA7E23EE7E4988E056BE3F82D19181D9C6EFE8141120314088F5013875AC656398D8A2ED19D2A85C8EDD3EC2AEF
def gx384 : Nat := 0xAA87CA22BE8B05378EB1C71EF320AD746E1D3B628BA79B9859F741E082542A385502F25DBF55296C3A545E3872760AB7
def gy384 : Nat := 0x3617DE4A96262C6F5D9E98BF9292DC29F8F41DBD289A147CE9DA3113B5F0B8C00A60B1CE1D7E819D7A431D7C90EA0E5F
/-- A power modulo m, by the bits of the exponent from bit n - 1 down. -/
def powMod (m a e : Nat) : Nat → Nat
  | 0 => 1
  | n + 1 => powMod m (a * a % m) (e / 2) n * (if e % 2 = 1 then a else 1) % m
/-- A point in Jacobian coordinates; z = 0 at infinity. -/
structure Jac where
  x : Nat
  y : Nat
  z : Nat
  deriving DecidableEq, Repr
/-- A difference in the field. -/
def subP (a b : Nat) : Nat := (a + (p384 - b % p384)) % p384
/-- Twice a point of the curve (a = -3). -/
def jacDouble (q : Jac) : Jac :=
  let d := q.z * q.z % p384
  let g := q.y * q.y % p384
  let b := q.x * g % p384
  let a := 3 * subP q.x d * (q.x + d) % p384
  let x := subP (a * a) (8 * b)
  { x := x, y := subP (a * subP (4 * b) x) (8 * g * g), z := 2 * q.y * q.z % p384 }
/-- The sum of two points. -/
def jacAdd (q r : Jac) : Jac :=
  if q.z = 0 then r else if r.z = 0 then q
  else
    let zq := q.z * q.z % p384
    let zr := r.z * r.z % p384
    let u := q.x * zr % p384
    let h := subP (r.x * zq) u
    let s := q.y * zr * r.z % p384
    let w := subP (r.y * zq * q.z) s
    if h = 0 then (if w = 0 then jacDouble q else { x := 1, y := 1, z := 0 })
    else
      let hh := h * h % p384
      let v := u * hh % p384
      let x := subP (w * w) (h * hh + 2 * v)
      { x := x, y := subP (w * subP v x) (s * (h * hh % p384)), z := q.z * r.z * h % p384 }
/-- The sum of a multiple of the base point and one of q, by the bits of both from bit n - 1 down; `t` is the sum of the two points. -/
def jacMul (g q t : Jac) (u v : Nat) : Nat → Jac
  | 0 => { x := 1, y := 1, z := 0 }
  | n + 1 =>
    let d := jacDouble (jacMul g q t (u / 2) (v / 2) n)
    if u % 2 = 1 then (if v % 2 = 1 then jacAdd d t else jacAdd d g) else if v % 2 = 1 then jacAdd d q else d
/-- A public key of 97 bytes: 04, x and y of a point of the curve (R744). -/
def keyPoint (key : List Byte) : Option Jac :=
  let x := beNat (bytesAt key 1 48)
  let y := beNat (bytesAt key 49 48)
  if key.length = 97 && key.headD 0 = 4 && x < p384 && y < p384 && y * y % p384 = subP (x * x * x + b384) (3 * x) then some { x := x, y := y, z := 1 } else none
/-- Whether a signature of 96 bytes, r then s, of a digest verifies against a public key. -/
def sigOk (key : List Byte) (digest : Nat) (sig : List Byte) : Bool :=
  let r := beNat (sig.take 48)
  let s := beNat (sig.drop 48)
  match keyPoint key with
  | none => false
  | some q =>
    if sig.length != 96 || r = 0 || s = 0 || n384 ≤ r || n384 ≤ s then false
    else
      let w := powMod n384 s (n384 - 2) 384
      let g : Jac := { x := gx384, y := gy384, z := 1 }
      let x := jacMul g q (jacAdd g q) (digest * w % n384) (r * w % n384) 384
      x.z != 0 && [r, r + n384].any fun c => c < p384 && c * x.z * x.z % p384 = x.x

end Sys2Proof.Machine
end

