-- ==== Sys2Proof/Machine/OdMap.lean ====
section
/-! DEFINITION. The object dictionary's entries (R21, R496, R674, R752, R754, R886, R933, R966, R1002
and the tables of the other chapters): index, subindices, size, access, rights, range and default. -/

namespace Sys2Proof.Machine

/-- Access of an entry (R16, R879). -/
inductive OdAccess where
  | ro | rw | wo | const
  deriving DecidableEq, Repr

/-- Entries `idx + stride · i` for `i < n`, subindices `lo` to `hi`. `size` is the value's bytes, 0
for a DOMAIN or a string held elsewhere; `write` the lowest role that may write (0 O, 1 I, 2 M, 3
none); `read` the lowest role that may read; `boundary` marks a value that takes effect at the next
cycle boundary; `rc` a counter that a read clears. -/
structure OdEntry where
  idx      : Nat
  n        : Nat := 1
  stride   : Nat := 1
  lo       : Nat
  hi       : Nat
  size     : Nat
  access   : OdAccess
  write    : Nat := 3
  read     : Nat := 0
  min      : Int := 0
  max      : Int := 0
  dflt     : Int := 0
  boundary : Bool := false
  rc       : Bool := false
  signed   : Bool := false
  bool     : Bool := false
  /-- An UNSIGNED limit, quota or rate: lowering it is a stopping order (R749). -/
  limit    : Bool := false
  deriving Repr

def odRo (idx n lo hi size : Nat) (dflt : Int := 0) (stride : Nat := 1) : OdEntry :=
  { idx := idx, n := n, stride := stride, lo := lo, hi := hi, size := size, access := .ro, dflt := dflt }
def odRc (idx n lo hi : Nat) (stride : Nat := 1) : OdEntry :=
  { idx := idx, n := n, stride := stride, lo := lo, hi := hi, size := 4, access := .ro, rc := true }
def odRw (idx n sub size write : Nat) (min max dflt : Int) (limit boundary : Bool := false) (stride : Nat := 1) : OdEntry :=
  { idx := idx, n := n, stride := stride, lo := sub, hi := sub, size := size, access := .rw, write := write,
    min := min, max := max, dflt := dflt, limit := limit, boundary := boundary }
def odBool (idx n sub write : Nat) (dflt : Int := 0) (boundary : Bool := false) : OdEntry :=
  { idx := idx, n := n, lo := sub, hi := sub, size := 1, access := .rw, write := write, min := 0, max := 1,
    dflt := dflt, bool := true, boundary := boundary }
def odWo (idx n sub size write : Nat) (read : Nat := 0) (stride : Nat := 1) : OdEntry :=
  { idx := idx, n := n, stride := stride, lo := sub, hi := sub, size := size, access := .wo, write := write, read := read, max := 2 ^ (8 * size) - 1 }

/-- Identity and communication (R886), roles and audit (R754), firmware (R966). -/
def odCommon : List OdEntry :=
  [ { idx := 0x1000, lo := 0, hi := 0, size := 1, access := .const, dflt := 9 },
    { idx := 0x1000, lo := 1, hi := 1, size := 2, access := .const, dflt := 0x0915 },
    { idx := 0x1000, lo := 2, hi := 2, size := 1, access := .const, dflt := 0xB0 },
    { idx := 0x1000, lo := 3, hi := 3, size := 1, access := .const, dflt := 0x4C },
    { idx := 0x1000, lo := 4, hi := 4, size := 8, access := .const },
    { idx := 0x1000, lo := 5, hi := 6, size := 0, access := .const },
    { idx := 0x1000, lo := 7, hi := 7, size := 4, access := .const },
    odRo 0x1000 1 8 8 4, odRo 0x1000 1 9 9 1,
    { idx := 0x1010, lo := 0, hi := 0, size := 1, access := .const, dflt := 9 },
    odRo 0x1010 1 1 1 1, odRo 0x1010 1 2 2 1 127,
    odRw 0x1010 1 3 1 1 1 127 127, odRo 0x1010 1 4 4 1 127,
    odRw 0x1010 1 5 2 0 10 10000 100, odRw 0x1010 1 6 2 0 0 0xFFFF 0xF800, odBool 0x1010 1 7 0,
    odRo 0x1010 1 8 9 2,
    { idx := 0x1020, lo := 0, hi := 0, size := 1, access := .const, dflt := 7 }, odRc 0x1020 1 1 7,
    { idx := 0x2000, lo := 0, hi := 0, size := 1, access := .const, dflt := 6 },
    odRo 0x2000 1 1 1 1, odRo 0x2000 1 2 2 0, odWo 0x2000 1 3 0 0,
    { odWo 0x2000 1 4 1 0 with bool := true, max := 1 },
    { idx := 0x2000, lo := 5, hi := 5, size := 0, access := .rw, write := 2 },
    odRo 0x2000 1 6 6 4,
    { idx := 0x2010, lo := 0, hi := 0, size := 1, access := .const, dflt := 3 },
    odRo 0x2010 1 1 1 4, odRw 0x2010 1 2 4 0 0 0xFFFFFFFF 0, odRo 0x2010 1 3 3 0,
    { idx := 0x2020, lo := 0, hi := 0, size := 1, access := .const, dflt := 7 },
    odRo 0x2020 1 1 2 1, odRo 0x2020 1 3 3 4, odRw 0x2020 1 4 4 1 0 (2 ^ 25 - 1) 0,
    odWo 0x2020 1 5 0 1 1, { odWo 0x2020 1 6 1 1 1 with min := 1, max := 3 }, odRo 0x2020 1 7 7 1 ]

/-- Partitions (R752), RAS (R804-R806), start-up (R966). -/
def odPtn : List OdEntry :=
  [ { idx := 0x3000, n := 32, stride := 16, lo := 0, hi := 0, size := 1, access := .const, dflt := 10 },
    odRo 0x3000 32 1 1 1 0 16, { odWo 0x3000 32 2 1 0 0 16 with min := 1, max := 6 },
    { idx := 0x3000, n := 32, stride := 16, lo := 3, hi := 3, size := 0, access := .rw, write := 0 },
    odRw 0x3000 32 4 4 0 0 0xFFFFFFFF 0 true false 16,
    { idx := 0x3000, n := 32, stride := 16, lo := 5, hi := 5, size := 0, access := .rw, write := 0 },
    odRo 0x3000 32 6 7 1 0 16,
    odRw 0x3000 32 8 1 1 1 150 150 true false 16, odRw 0x3000 32 9 2 1 0 0xFFFF 756 true false 16,
    odRw 0x3000 32 10 2 1 0 0xFFFF 2048 true false 16,
    { idx := 0x4000, lo := 0, hi := 0, size := 1, access := .const, dflt := 8 },
    odRo 0x4000 1 1 1 1, { odWo 0x4000 1 2 1 0 with max := 159 }, odRo 0x4000 1 3 3 1,
    odRw 0x4000 1 4 4 1 60 86400 3600, odRw 0x4000 1 5 2 1 1 65535 16 true, odRo 0x4000 1 6 6 1, odRc 0x4000 1 7 8,
    { idx := 0x4010, lo := 0, hi := 0, size := 1, access := .const, dflt := 3 },
    { idx := 0x4010, lo := 1, hi := 1, size := 0, access := .rw, write := 0 }, odRo 0x4010 1 2 2 1, odRc 0x4010 1 3 3,
    { idx := 0x4020, n := 32, lo := 0, hi := 0, size := 1, access := .const, dflt := 2 },
    odBool 0x4020 32 1 0 0 true, odBool 0x4020 32 2 0 0 true,
    { idx := 0x4040, lo := 0, hi := 0, size := 1, access := .const, dflt := 9 },
    { odWo 0x4040 1 1 1 0 with min := 1, max := 3 }, odRw 0x4040 1 2 2 0 10 1000 50, odRw 0x4040 1 3 2 0 15 600 30,
    odRo 0x4040 1 4 5 1, odRo 0x4040 1 6 6 4, odRo 0x4040 1 7 7 1, odRo 0x4040 1 8 9 4 ]

/-- Time (R674), measurements (R1002, R966), telemetry (R929, R933), the Almanac (R904 of its chapter). -/
def odPlant : List OdEntry :=
  [ { idx := 0x5000, lo := 0, hi := 0, size := 1, access := .const, dflt := 10 },
    odRw 0x5000 1 1 4 1 100 10000000 50000 false true, odRw 0x5000 1 2 4 1 1100 100000 2000 false true,
    odRw 0x5000 1 3 4 1 1 200000 100, odBool 0x5000 1 4 1 0 true, odBool 0x5000 1 5 1 0 true,
    odRw 0x5000 1 6 1 1 0 127 0 false true, { odRw 0x5000 1 7 4 1 (-7) 0 (-4) false true with signed := true },
    odRw 0x5000 1 8 1 1 0 255 128 false true, odRw 0x5000 1 9 1 1 0 255 128 false true,
    { odRo 0x5000 1 10 10 4 37 with signed := true },
    { idx := 0x5010, lo := 0, hi := 0, size := 1, access := .const, dflt := 16 },
    { odRw 0x5010 1 1 4 1 (-(2 ^ 31)) (2 ^ 31 - 1) 0 with hi := 16, signed := true },
    { idx := 0x6000, lo := 0, hi := 0, size := 1, access := .const, dflt := 10 }, odRo 0x6000 1 1 10 4,
    { idx := 0x6010, lo := 0, hi := 0, size := 1, access := .const, dflt := 10 },
    { odRw 0x6010 1 1 2 1 0 0xFFFF 0 with hi := 10 },
    { idx := 0x6020, lo := 0, hi := 0, size := 1, access := .const, dflt := 9 },
    { odRo 0x6020 1 1 7 4 with signed := true }, odRo 0x6020 1 8 8 0, odRc 0x6020 1 9 9,
    { idx := 0x6030, lo := 0, hi := 0, size := 1, access := .const, dflt := 9 },
    odRo 0x6030 1 1 1 4, { odRo 0x6030 1 2 3 4 with signed := true },
    odRw 0x6030 1 4 2 1 10 10000 600, odRw 0x6030 1 5 4 1 1000 20000 3000, odRw 0x6030 1 6 1 1 0 100 30,
    odRw 0x6030 1 7 1 1 60 95 85, odRw 0x6030 1 8 1 1 0 255 255, odRo 0x6030 1 9 9 1 100,
    { idx := 0x6100, lo := 0, hi := 0, size := 1, access := .const, dflt := 4 },
    odRo 0x6100 1 1 1 4, { idx := 0x6100, lo := 2, hi := 2, size := 0, access := .rw, write := 1 },
    odRo 0x6100 1 3 3 4, odRc 0x6100 1 4 4,
    { idx := 0x7000, lo := 0, hi := 0, size := 1, access := .const, dflt := 3 },
    odRw 0x7000 1 1 4 0 1 3600 60, odRo 0x7000 1 2 2 4, { odWo 0x7000 1 3 1 0 with bool := true, max := 1 },
    { idx := 0x7100, n := 32, lo := 0, hi := 0, size := 1, access := .const, dflt := 1 }, odRo 0x7100 32 1 1 0,
    { idx := 0x7200, n := 32, lo := 0, hi := 0, size := 1, access := .const, dflt := 1 },
    odRw 0x7200 32 1 4 0 1024 16777215 65536,
    { idx := 0x8000, lo := 0, hi := 0, size := 1, access := .const, dflt := 9 },
    odRo 0x8000 1 1 1 1, odRo 0x8000 1 2 2 4, { odRo 0x8000 1 3 3 1 with bool := true }, odRc 0x8000 1 4 5,
    odRo 0x8000 1 6 7 4, { idx := 0x8000, lo := 8, hi := 8, size := 1, access := .const },
    { odWo 0x8000 1 9 1 2 2 with bool := true, max := 1 },
    { idx := 0x8010, lo := 0, hi := 0, size := 1, access := .const, dflt := 3 },
    odRw 0x8010 1 1 2 0 0 65535 0, odRw 0x8010 1 2 2 0 1 4096 32, odRo 0x8010 1 3 3 0,
    { idx := 0x8020, lo := 0, hi := 0, size := 1, access := .const, dflt := 1 },
    { idx := 0x8020, lo := 1, hi := 1, size := 0, access := .rw, write := 1 } ]

/-- Function modes (R21), serving, movement, tables, fabric and host entries. -/
def odWork : List OdEntry :=
  [ { idx := 0x9000, lo := 0, hi := 0, size := 1, access := .const, dflt := 5 },
    odRw 0x9000 1 1 1 1 0 1 0 false true, odRw 0x9000 1 2 1 1 0 1 0 false true, odRw 0x9000 1 3 1 0 0 1 0 false true,
    odRw 0x9000 1 4 1 1 0 1 0 false true, odRo 0x9000 1 5 5 1,
    { idx := 0x9010, lo := 0, hi := 0, size := 1, access := .const, dflt := 7 },
    { idx := 0x9010, lo := 1, hi := 1, size := 0, access := .rw, write := 0 },
    odRo 0x9010 1 2 2 4, odRo 0x9010 1 3 3 1, odRo 0x9010 1 4 4 2, odRo 0x9010 1 5 5 4, odRc 0x9010 1 6 7,
    { idx := 0x9020, lo := 0, hi := 0, size := 1, access := .const, dflt := 7 },
    odRw 0x9020 1 1 1 1 0 255 0xC1, { odRw 0x9020 1 2 1 1 0 255 0xC2 with hi := 6 }, odRw 0x9020 1 7 2 0 100 60000 5000,
    { idx := 0x9100, n := 32, lo := 0, hi := 0, size := 1, access := .const, dflt := 6 },
    { odRw 0x9100 32 1 1 0 0 1 0 false true with hi := 6 },
    { idx := 0x9140, n := 32, lo := 0, hi := 0, size := 1, access := .const, dflt := 5 },
    odRw 0x9140 32 1 4 0 1 (2 ^ 24) 15625 false true, odRw 0x9140 32 2 4 0 1024 (2 ^ 30) 65536 false true,
    odRo 0x9140 32 3 3 2, odRc 0x9140 32 4 5,
    { idx := 0x9160, n := 32, lo := 0, hi := 0, size := 1, access := .const, dflt := 2 },
    odWo 0x9160 32 1 0 0, odRo 0x9160 32 2 2 1,
    { idx := 0x9180, n := 32, lo := 0, hi := 0, size := 1, access := .const, dflt := 5 },
    odRw 0x9180 32 1 4 0 1 (2 ^ 24) 15625 false true, odRw 0x9180 32 2 2 0 0 999 50 false true, odRw 0x9180 32 3 2 0 1 1000 100 false true, odRc 0x9180 32 4 5,
    { idx := 0x91A0, n := 32, lo := 0, hi := 0, size := 1, access := .const, dflt := 8 },
    odRw 0x91A0 32 1 4 0 0 0xFFFFFFFF 0 true true, odRw 0x91A0 32 2 4 0 0 0xFFFFFFFF 0 true true,
    odRw 0x91A0 32 3 2 0 0 65535 250 false true, odRw 0x91A0 32 4 2 0 0 65535 1000 false true,
    odRw 0x91A0 32 5 2 0 0 65535 50 false true, odBool 0x91A0 32 6 0 0 true,
    odRw 0x91A0 32 7 4 0 1 65536 65536 true true, { odRo 0x91A0 32 8 8 8 with signed := true },
    { idx := 0x91C0, n := 32, lo := 0, hi := 0, size := 1, access := .const, dflt := 6 },
    odRc 0x91C0 32 1 3, { odRc 0x91C0 32 4 4 with size := 8, signed := true }, odRc 0x91C0 32 5 6,
    { idx := 0x91E0, n := 32, lo := 0, hi := 0, size := 1, access := .const, dflt := 4 },
    odRw 0x91E0 32 1 1 0 0 4 0, odRw 0x91E0 32 2 4 0 1 (2 ^ 24) 15625, odRc 0x91E0 32 3 4,
    { idx := 0x9200, n := 32, lo := 0, hi := 0, size := 1, access := .const, dflt := 7 },
    { idx := 0x9200, n := 32, lo := 1, hi := 1, size := 0, access := .rw, write := 0 }, odRo 0x9200 32 2 2 1,
    odRw 0x9200 32 3 4 0 0 262144 0 false true, odRc 0x9200 32 4 7,
    { idx := 0x9220, n := 32, lo := 0, hi := 0, size := 1, access := .const, dflt := 4 },
    odRw 0x9220 32 1 1 0 0 7 3 false true, odRw 0x9220 32 2 1 0 0 7 2 false true, odRw 0x9220 32 3 1 0 0 7 5 false true, odRw 0x9220 32 4 1 0 0 7 4 false true,
    { idx := 0x9240, n := 32, lo := 0, hi := 0, size := 1, access := .const, dflt := 8 },
    { idx := 0x9240, n := 32, lo := 1, hi := 1, size := 16, access := .rw, write := 0, max := 2 ^ 128 - 1 },
    odRw 0x9240 32 2 2 0 0 0xFFFF 0xFFFF, odRw 0x9240 32 3 4 0 0 65536 0 true, odRw 0x9240 32 4 4 0 0 262144 0 true,
    odRw 0x9240 32 5 8 0 0 (2 ^ 64 - 1) 0, odRw 0x9240 32 6 8 0 0 (2 ^ 64 - 1) 0, odRc 0x9240 32 7 8 ]

def odTable : List OdEntry := odCommon ++ odPtn ++ odPlant ++ odWork

def OdEntry.holds (e : OdEntry) (idx sub : Nat) : Bool :=
  e.idx ≤ idx && (idx - e.idx) / e.stride < e.n && (idx - e.idx) % e.stride == 0 && e.lo ≤ sub && sub ≤ e.hi

/-- The entry of an index and subindex. -/
def odFind (idx sub : Nat) : Option OdEntry := odTable.find? (·.holds idx sub)
/-- Whether any subindex of the index exists. -/
def odIndexExists (idx : Nat) : Bool := odTable.any fun e => e.holds idx e.lo

/-- Two's-complement value of an entry's default in its own width. -/
def OdEntry.dfltNat (e : OdEntry) : Nat := ofInt (8 * e.size) e.dflt

/-- The default of a numeric entry, by index · 256 + sub. -/
def odDefault (key : Nat) : Nat :=
  match odFind (key / 256) (key % 256) with
  | some e => e.dfltNat
  | none => 0

end Sys2Proof.Machine
end

