-- ==== Sys2Proof/Machine/RegMap.lean ====
section
/-! DEFINITION. The register map of PF BAR0 (R811, R812): every register that holds a value of its
own, with the access type of each bit (R13), its reset value, its commit domain (R824) and its
place in a LO/HI pair (R816). Registers that only show other state (RO) stand in `Views.lean`. At its end the home sets of the quarters,
which the state after reset needs. -/

namespace Sys2Proof.Machine

/-- The commit domains of R824; `window` is the one domain of a partition window (R763). -/
inductive Domain where
  | global | quarter | memory | fabric | composition | telemetry | window
  deriving DecidableEq, Repr

/-- The bit number of a domain in CMT_DOMAINS (R824). -/
def Domain.bit : Domain → Nat
  | .global => 0 | .quarter => 1 | .memory => 2 | .fabric => 3
  | .composition => 4 | .telemetry => 5 | .window => 6

/-- Which half of a 64-bit pair a register is (R816). -/
inductive Half where
  | single | lo | hi
  deriving DecidableEq, Repr

/-- The access types of a register's bits as masks (R13); a bit in no mask is RO or reserved. -/
structure RegInfo where
  rw    : Word := 0
  rws   : Word := 0
  w1c   : Word := 0
  w1s   : Word := 0
  wo    : Word := 0
  rc    : Word := 0
  reset : Word := 0
  dom   : Option Domain := none
  half  : Half := .single
  deriving DecidableEq, Repr

/-- A family of equal registers at `base + i·s1 + j·s2` for `i < n1`, `j < n2`. -/
structure RegBlock where
  base : Nat
  n1   : Nat := 1
  s1   : Nat := 0x10000000
  n2   : Nat := 1
  s2   : Nat := 4
  info : RegInfo
  deriving Repr

/-- Whether a BAR0 offset belongs to a family of registers. -/
def RegBlock.holds (b : RegBlock) (off : Nat) : Bool :=
  b.base ≤ off &&
    (let d := off - b.base
     d / b.s1 < b.n1 && d % b.s1 / b.s2 < b.n2 && d % b.s1 % b.s2 == 0)

def allOnes : Word := 0xFFFFFFFF
def rwAll (d : Option Domain := none) (h : Half := .single) : RegInfo := { rw := allOnes, dom := d, half := h }
def rwBits (m : Word) (d : Option Domain := none) (r : Word := 0) : RegInfo := { rw := m, dom := d, reset := r }
def rcAll : RegInfo := { rc := allOnes }

/-- PF BAR0 offset of window `p` (R811). -/
def winBase (p : Nat) : Nat := 0x01000000 + p * 0x10000
/-- PF BAR0 offset of the block of KQ port `n`, or of the pair link for `n = 16` (R811, R566). -/
def portBase (n : Nat) : Nat := if n = 16 then 0x00500000 else 0x00400000 + n * 0x10000
/-- PF BAR0 offset of the five registers of PF ring `r` (R844). -/
def pfRing (r : Nat) : Nat := 0x1000 + 0x20 * r
/-- PF BAR0 offset of the five registers of ring `r` of window `p` (R757). -/
def winRing (p r : Nat) : Nat := winBase p + 0x100 + 0x20 * r
/-- PF BAR0 offset of the telemetry ring of window `p` (R937). -/
def winTelRing (p : Nat) : Nat := winBase p + 0x800
/-- PF BAR0 offset of the PF telemetry ring (R934). -/
def pfTelRing : Nat := 0x00600100

/-- The five registers of one ring (R757): BASE pair, CFG, PROD and CONS. -/
def ringBlocks (base n1 s1 : Nat) (inbound : Bool) (d : Domain) : List RegBlock :=
  [ { base := base, n1 := n1, s1 := s1, info := rwAll (some d) .lo },
    { base := base + 4, n1 := n1, s1 := s1, info := rwAll (some d) .hi },
    { base := base + 8, n1 := n1, s1 := s1, info := rwBits 0x7F (some d) },
    { base := base + 0xC, n1 := n1, s1 := s1, info := if inbound then rwBits 0xFFFFF else {} },
    { base := base + 0x10, n1 := n1, s1 := s1, info := if inbound then {} else rwBits 0xFFFFF } ]

/-- Device global registers (R819, R844, R847-R855). -/
def globalBlocks : List RegBlock :=
  [ { base := 0x0020, info := rwBits 0xFF (some .global) },
    { base := 0x0024, info := rwAll (some .global) .lo },
    { base := 0x0028, info := rwAll (some .global) .hi },
    { base := 0x0200, info := rwBits 0x3F },
    { base := 0x0204, info := rwBits 1 },
    { base := 0x0208, info := { wo := 3 } },
    { base := 0x0304, info := rwAll },
    { base := 0x0308, info := rwBits 3 },
    { base := 0x0400, info := { w1c := 0x3F } },
    { base := 0x0404, info := rwBits 0x3F },
    { base := 0x0408, info := rwBits 0x37 none 0xC },
    { base := 0x2000, n2 := 8, info := rwAll },
    { base := 0x2040, n2 := 32, info := rwAll },
    { base := 0x20C0, n2 := 16, info := rwAll },
    { base := 0x2100, n2 := 4, info := rwAll },
    { base := 0x2400, info := { w1s := 0xF } },
    { base := 0x3000, n2 := 1024, info := rwAll } ]
  ++ ringBlocks (pfRing 0) 1 0x10000000 true .global ++ ringBlocks (pfRing 1) 1 0x10000000 true .global
  ++ ringBlocks (pfRing 2) 1 0x10000000 true .global ++ ringBlocks (pfRing 3) 1 0x10000000 false .global
  ++ ringBlocks (pfRing 4) 1 0x10000000 false .global ++ ringBlocks (pfRing 5) 1 0x10000000 true .global
  ++ ringBlocks (pfRing 6) 1 0x10000000 false .global ++ ringBlocks (pfRing 7) 1 0x10000000 true .global
  ++ ringBlocks (pfRing 8) 1 0x10000000 false .global

/-- Ephemeris registers (R140, R141, R143-R145). -/
def ephBlocks : List RegBlock :=
  [ { base := 0x100020, info := { rw := 0xFFFFF000, half := .lo } },
    { base := 0x100024, info := rwAll none .hi },
    { base := 0x100028, info := rwAll },
    { base := 0x10002C, info := { wo := 3 } },
    { base := 0x100040, info := rwAll none .lo },
    { base := 0x100044, info := { rw := 0xFFFF, half := .hi } },
    { base := 0x100048, info := { wo := 3 } },
    { base := 0x100060, n2 := 6, info := rcAll } ]

/-- Meridian registers (R678, R679). -/
def merBlocks : List RegBlock :=
  [ { base := 0x200020, info := { wo := allOnes } },
    { base := 0x200024, info := rwAll },
    { base := 0x200028, info := rwAll none .lo },
    { base := 0x20002C, info := rwAll none .hi } ]

/-- Memory-tier registers (R458, R461, R462). -/
def memBlocks : List RegBlock :=
  [ { base := 0x300010, info := rwBits 7 (some .memory) 3 },
    { base := 0x3000C0, n2 := 4, info := rcAll },
    { base := 0x3000D0, info := rwBits 0xFFFF none 16 },
    { base := 0x301000, n2 := 768, info := rwBits 0xFF (some .memory) },
    { base := 0x302000, n2 := 2048, info := rwBits 0x3F (some .memory) } ]

/-- Queue-service registers of a port (R644-R651), for `n` equal blocks at `base`. -/
def qsBlocks (base n : Nat) : List RegBlock :=
  [ { base := base + 0x200, n1 := n, s1 := 0x10000, info := rwBits 3 (some .fabric) 2 },
    { base := base + 0x208, n1 := n, s1 := 0x10000, info := rwBits 0x1FFFFF (some .fabric) },
    { base := base + 0x20C, n1 := n, s1 := 0x10000, info := rwBits 0xFFFFFF (some .fabric) },
    { base := base + 0x2A0, n1 := n, s1 := 0x10000, n2 := 4, info := rcAll },
    { base := base + 0x1000, n1 := n, s1 := 0x10000, n2 := 264, s2 := 16, info := rwBits allOnes (some .fabric) 0x01000100 },
    { base := base + 0x1004, n1 := n, s1 := 0x10000, n2 := 264, s2 := 16, info := rwBits 0x1FFFFF (some .fabric) },
    { base := base + 0x1008, n1 := n, s1 := 0x10000, n2 := 264, s2 := 16, info := rwBits 0xFFFFFF (some .fabric) 65536 },
    { base := base + 0x100C, n1 := n, s1 := 0x10000, n2 := 264, s2 := 16, info := { rc := 0xFFFFFF } },
    { base := base + 0x2100, n1 := n, s1 := 0x10000, n2 := 33, s2 := 16, info := rwBits 0xFFFF (some .fabric) 1 },
    { base := base + 0x2104, n1 := n, s1 := 0x10000, n2 := 33, s2 := 16, info := rwBits 0x1FFFFF (some .fabric) },
    { base := base + 0x2108, n1 := n, s1 := 0x10000, n2 := 33, s2 := 16, info := rwBits 0xFFFFFF (some .fabric) 65536 } ]

/-- MAX_FRAME and the policers of the KQ ports; their offsets are reserved on the pair link (R647, R648). -/
def ethBlocks : List RegBlock :=
  [ { base := 0x400220, n1 := 16, s1 := 0x10000, n2 := 8, info := rwBits 0x3FFF (some .fabric) 9216 },
    { base := 0x400260, n1 := 16, s1 := 0x10000, n2 := 8, s2 := 8, info := rwBits 0x1FFFFF (some .fabric) },
    { base := 0x400264, n1 := 16, s1 := 0x10000, n2 := 8, s2 := 8, info := rwBits 0x3FFFFFF (some .fabric) } ]
/-- KQ port and pair-link registers (R562, R564-R566), with their queue service. -/
def portBlocks : List RegBlock :=
  [ { base := 0x400000, n1 := 8, s1 := 0x20000, info := rwBits 0xFF (some .fabric) },
    { base := 0x410000, n1 := 8, s1 := 0x20000, info := rwBits 0xFB (some .fabric) },
    { base := 0x400008, n1 := 16, s1 := 0x10000, info := { wo := 1 } },
    { base := 0x400100, n1 := 16, s1 := 0x10000, n2 := 8, info := rcAll },
    { base := 0x500000, info := rwBits 0x23 (some .fabric) 1 },
    { base := 0x500008, info := { wo := 1 } },
    { base := 0x500100, n2 := 8, info := rcAll } ]
  ++ qsBlocks 0x400000 16 ++ ethBlocks ++ qsBlocks 0x500000 1

/-- Composition registers (R725). -/
def cmpBlocks : List RegBlock :=
  [ { base := 0x508000, n1 := 32, s1 := 0x20, info := rwBits 0x7FFFFF (some .composition) } ]

/-- Telemetry registers (R930-R935). -/
def telBlocks : List RegBlock :=
  [ { base := 0x600000, info := rwBits 0x3F (some .telemetry) 0x3E },
    { base := 0x600004, info := rwBits 0xFFFFF (some .telemetry) 1000 },
    { base := 0x600008, info := rwBits 0x3FFFFFF (some .telemetry) },
    { base := 0x60000C, info := rwAll (some .telemetry) },
    { base := 0x600010, info := rcAll },
    { base := 0x600014, info := { wo := 1 } },
    { base := 0x601000, n1 := 150, s1 := 64, n2 := 16, info := rwBits 0xFF (some .telemetry) } ]
  ++ ringBlocks pfTelRing 1 0x10000000 false .telemetry

/-- Fault and RAS registers (R808, R809). -/
def rasBlocks : List RegBlock :=
  [ { base := 0x700004, info := { rws := allOnes } },
    { base := 0x700008, info := { rws := allOnes, half := .lo } },
    { base := 0x70000C, info := { rws := allOnes, half := .hi } },
    { base := 0x700040, n2 := 5, info := rcAll } ]

/-- Quarter registers (R57). -/
def qtrBlocks : List RegBlock :=
  [ { base := 0x800040, n1 := 4, s1 := 0x200000, info := rwBits 1 (some .quarter) 1 } ]

/-- Registers of the 32 partition windows (R755-R764, R937). -/
def winBlocks : List RegBlock :=
  [ { base := winBase 0 + 0x8, n1 := 32, s1 := 0x10000, info := rwBits 0x1FFFFF (some .window) },
    { base := winBase 0 + 0x400, n1 := 32, s1 := 0x10000, n2 := 8, info := rwAll },
    { base := winBase 0 + 0x440, n1 := 32, s1 := 0x10000, n2 := 32, info := rwAll },
    { base := winBase 0 + 0x4C0, n1 := 32, s1 := 0x10000, n2 := 16, info := rwAll },
    { base := winBase 0 + 0x500, n1 := 32, s1 := 0x10000, info := { w1s := 7 } },
    { base := winBase 0 + 0x600, n1 := 32, s1 := 0x10000, info := rwAll (some .window) .lo },
    { base := winBase 0 + 0x604, n1 := 32, s1 := 0x10000, info := rwAll (some .window) .hi },
    { base := winBase 0 + 0x608, n1 := 32, s1 := 0x10000, info := rwAll (some .window) },
    { base := winBase 0 + 0x700, n1 := 32, s1 := 0x10000, info := { wo := 3 } },
    { base := winBase 0 + 0x714, n1 := 32, s1 := 0x10000, info := rwAll },
    { base := winBase 0 + 0x718, n1 := 32, s1 := 0x10000, info := rwBits 3 },
    { base := winBase 0 + 0x820, n1 := 32, s1 := 0x10000, info := rwBits 0xFFFFFF07 (some .window) } ]
  ++ ringBlocks (winRing 0 0) 32 0x10000 true .window ++ ringBlocks (winRing 0 1) 32 0x10000 true .window
  ++ ringBlocks (winRing 0 2) 32 0x10000 true .window ++ ringBlocks (winRing 0 3) 32 0x10000 false .window
  ++ ringBlocks (winRing 0 4) 32 0x10000 false .window ++ ringBlocks (winRing 0 5) 32 0x10000 false .window
  ++ ringBlocks (winTelRing 0) 32 0x10000 false .window

/-- The blocks of the part of BAR0 that an offset lies in (R811). -/
def blocksAt (off : Nat) : List RegBlock :=
  if off < 0x100000 then globalBlocks
  else if off < 0x200000 then ephBlocks
  else if off < 0x300000 then merBlocks
  else if off < 0x400000 then memBlocks
  else if off < 0x508000 then portBlocks
  else if off < 0x600000 then cmpBlocks
  else if off < 0x700000 then telBlocks
  else if off < 0x800000 then rasBlocks
  else if off < 0x1000000 then qtrBlocks
  else if off < 0x1200000 then winBlocks
  else []

/-- The register at a BAR0 offset; none for a reserved offset or a register that only shows
other state (R814). -/
def regInfo (off : Nat) : Option RegInfo :=
  ((blocksAt off).find? (·.holds off)).map (·.info)

/-- The value an offset holds before anything is written to it. -/
def resetValue (off : Nat) : Word :=
  match regInfo off with
  | some i => i.reset
  | none => 0

/-- The RW and RWS bits of a register, which the configuration CRC carries (R833). -/
def crcMask (off : Nat) : Word :=
  match regInfo off with
  | some i => i.rw ||| i.rws
  | none => 0

/-- Offsets of one port's commit-protected registers, ascending (R562, R644-R651). -/
def portProtected (b : Nat) : List Nat :=
  [b, b + 0x200, b + 0x208, b + 0x20C]
  ++ (if b = portBase 16 then [] else (List.range 8).map (b + 0x220 + 4 * ·) ++ ((List.range 8).map fun c => [b + 0x260 + 8 * c, b + 0x264 + 8 * c]).flatten)
  ++ ((List.range 264).map fun q => [b + 0x1000 + 16 * q, b + 0x1004 + 16 * q, b + 0x1008 + 16 * q]).flatten
  ++ ((List.range 33).map fun i => [b + 0x2100 + 16 * i, b + 0x2104 + 16 * i, b + 0x2108 + 16 * i]).flatten

/-- Offsets of every commit-protected register outside the windows, ascending (R833). -/
def protectedGlobal : List Nat :=
  [0x20, 0x24, 0x28]
  ++ ((List.range 9).map fun r => [pfRing r, pfRing r + 4, pfRing r + 8]).flatten
  ++ [0x300010] ++ (List.range 768).map (0x301000 + 4 * ·) ++ (List.range 2048).map (0x302000 + 4 * ·)
  ++ ((List.range 17).map fun n => portProtected (portBase n)).flatten
  ++ (List.range 32).map (0x508000 + 0x20 * ·)
  ++ [0x600000, 0x600004, 0x600008, 0x60000C, pfTelRing, pfTelRing + 4, pfTelRing + 8]
  ++ ((List.range 150).map fun l => (List.range 16).map fun k => 0x601000 + 64 * l + 4 * k).flatten
  ++ (List.range 4).map (0x800040 + 0x200000 * ·)

/-- Offsets of the commit-protected registers of window `p`, ascending (R764). -/
def protectedWindow (p : Nat) : List Nat :=
  let b := winBase p
  [b + 8] ++ ((List.range 6).map fun r => [winRing p r, winRing p r + 4, winRing p r + 8]).flatten
  ++ [b + 0x600, b + 0x604, b + 0x608, b + 0x800, b + 0x804, b + 0x808, b + 0x820]

/-- First logical number and size of a quarter's home set (R44). -/
def homeFirst : Nat → Nat
  | 0 => 0 | 1 => 38 | 2 => 76 | _ => 113
def homeCount : Nat → Nat
  | 0 => 38 | 1 => 38 | _ => 37

end Sys2Proof.Machine
end

