-- ==== Sys2Proof/Machine/State.lean ====
section
/-! DEFINITION. The state of the block: every register, table, queue, buffer, counter, mode and pin
the spec gives it, as plain data, and the queue of waiting commands. -/

namespace Sys2Proof.Machine

/-- The queue, the registers and the outside of the block. An event record of R837; the ring gives
PHASE, LOST, DROPPED and TIME. -/
structure Event where
  cls     : Nat
  code    : Nat
  ptn     : Option Nat := none
  uid     : Nat := 0
  payload : List Nat := []
  deriving DecidableEq, Repr

/-- A completion record of a task (R171). -/
structure Completion where
  status    : Nat
  rtype     : Nat
  attempt   : Nat := 0
  uid       : Nat := 0
  tag       : Nat := 0
  request   : Nat := 0xFFFFFFFF
  epoch     : Nat := 0
  instances : Nat := 0
  detail    : Nat := 0
  cycle     : Nat := 0
  deriving DecidableEq, Repr

/-- A record written to a host ring. -/
inductive Rec where
  /-- An event (R837) with its time, LOST and DROPPED. -/
  | event (e : Event) (time : Nat) (lost : Bool) (dropped : Nat)
  /-- A completion (R171). -/
  | completion (c : Completion)
  /-- A token record (R499). -/
  | token (handle token index : Nat) (final logits : Bool) (reason epoch : Nat)
  /-- A request record (R472). -/
  | request (status rtype op handle tag epoch index length charged cycle : Nat)
  /-- A move completion (R358). -/
  | move (status rtype request tag epoch peer peerHandle done skipped failed cycle : Nat)
  /-- A unit status record (R174), its fields after RTYPE in the order of the table; CLK_STEP with the reserved bits above it. -/
  | unitStatus (fields : List Nat)
  /-- One slot of a counter record (R175): UID, PART and four counters. -/
  | counters (uid part : Nat) (values : List Nat)
  /-- A telemetry item (R910): TYPE, fields of its header, body entries, and its counters or records as numbers. -/
  | telemetry (kind : Nat) (header : List Nat) (entries : Nat) (values : List Nat)
  /-- A PTP receive-ring entry (R845). -/
  | ptpRx (port transport : Nat) (egress : Bool) (cookie tsNs tsFrac : Nat) (msg : List Byte)
  /-- A connection-management receive-ring entry (R846). -/
  | cmRx (port subport qpn gid : Nat) (body : List Byte)
  deriving DecidableEq, Repr

/-- Why a step can stop with a fault. No meaning raises one: the spec gives every access an effect
(R813, R814), so this type only completes the interface; safe. -/
inductive Fault where
  /-- An address that the spec says does not exist; raised by no command; safe. -/
  | noSuchAddress
  deriving DecidableEq, Repr

/-- Why a step can refuse a command. -/
inductive Refusal where
  /-- A command without a meaning yet: raised by its arm in `exec`; safe. -/
  | notModelled (mnemonic : String)
  deriving DecidableEq, Repr

/-- The registers of BAR0 (R811-R817, R824-R836). `store`, `shadow` and `latch` map a PF BAR0 offset
to a word; an offset the store does not list holds its reset value. -/
structure Regs where
  store     : List (Nat × Word) := []
  /-- Pending values of commit-protected registers (R824, R825). -/
  shadow    : List (Nat × Word) := []
  /-- Holding latches of 64-bit pairs, by the offset of LO (R816). -/
  latch     : List (Nat × Word) := []
  /-- The value the last read of an RC register, or of MER_NOW_LO, returned. -/
  readData  : Word := 0
  /-- A global commit waiting for its commit point (R826): its domains. -/
  pending   : Option Nat := none
  /-- CMT_STATUS: RESULT, DOMAIN, CAUSE, and CMT_FAULT.OFFSET (R853). -/
  cmtResult : Nat := 0
  cmtDomain : Nat := 0
  cmtCause  : Nat := 0
  cmtFault  : Nat := 0
  /-- CFG_CRC_REF held pending (R834), CFG_CRC_LIVE, VALID, MATCH and the suppression of R836. -/
  crcRefPending : Option Word := none
  crcLive    : Word := 0
  crcValid   : Bool := false
  crcMatch   : Bool := false
  crcQuiet   : Bool := false
  /-- GLB_BAD_ACCESS.OFFSET (R813, R855). -/
  badAccess  : Nat := 0
  /-- Entries written to each outbound ring since it was enabled, by ring offset (PHASE, R171). -/
  ringCount  : List (Nat × Nat) := []
  /-- Events dropped ahead of the next record of a ring, by ring offset (R839). -/
  ringDrop   : List (Nat × Nat) := []
  /-- Records that wait for room in their ring, or for the partition's DMA, oldest first (R501, R690, R758). -/
  waiting   : List (Nat × Rec) := []
  /-- Host writes that wait for a partition's DMA, oldest first: partition, address, bytes (R690). -/
  dmaWait   : List (Nat × Nat × List Byte) := []
  /-- Indices that the block shows in a ring: RING_CONS of inbound, RING_PROD of outbound rings (R757). -/
  ringIndex  : List (Nat × Nat) := []
  /-- Descriptors taken from each inbound ring in the present ephemeris cycle (R467). -/
  reads   : List (Nat × Nat) := []
  /-- Bits of GLB_INT_STATUS set, and RC registers counted up, in the tick of `tickAt`, in ns of the oscillator (R14, R15): register, its
  value before the tick, and what the tick has counted, or the mark that it has raised. -/
  tickAt  : Nat := 0
  setNow  : Word := 0
  rcNow   : List (Nat × Word × Nat) := []
  /-- Records of tasks written in the tick of `tickAt`: ring, place in the order of R172, record. -/
  doneNow : List (Nat × Nat × Rec) := []
  /-- Masked and pending MSI-X vectors as (function, vector): function 0 the PF, p + 1 the VF of p (R841, R842). -/
  msixOpen    : List (Nat × Nat) := []
  msixPending : List (Nat × Nat) := []
  deriving DecidableEq, Repr

/-- State of the management-bus node (R862). -/
inductive BusState where
  | unassigned | searching | assigned | lone | silent
  deriving DecidableEq, Repr

/-- A frame of the management bus (R858-R861): function, destination, source, SEQ, data; `single` for a single-shot
frame (R872). -/
structure Frame where
  func   : Nat
  dest   : Nat
  src    : Nat
  seq    : Nat
  data   : List Byte
  single : Bool := false
  deriving DecidableEq, Repr

/-- What the block sends out. -/
inductive Out where
  /-- A record written to a host ring: BAR0 offset of the ring's registers, slot, PHASE, record, its bytes there (R758), and the PASID that
  the write carries (R688). -/
  | ring (ring slot : Nat) (phase : Bool) (r : Rec) (bytes : List Byte) (pasid : Option Nat)
  /-- An MSI-X message: function 0 the PF, p + 1 the VF of p, and its vector (R841, R842). -/
  | msix (fn vector : Nat)
  /-- A frame on the management bus. -/
  | can (f : Frame)
  /-- Bytes written to host memory through the function of a partition (none for the PF): PASID (R688), address, bytes. -/
  | host (ptn pasid : Option Nat) (addr : Nat) (bytes : List Byte)
  /-- A DATA cell on a port: link sequence, header (R540), payload; `stomp` for a stomp (R551). -/
  | cell (port lseq header : Nat) (payload : List Byte) (stomp : Bool)
  /-- A cell of another type on a port: TYPE, sequence or control count, payload (R542). -/
  | control (port kind seq : Nat) (payload : List Byte)
  /-- A frame on a port in Ethernet mode. -/
  | eth (port : Nat) (f : EthFrame)
  /-- A completion of a BAR2 request of a partition: tag, status (0 SC, 1 UR, 4 CA), bytes, EP. -/
  | bar2 (ptn tag status : Nat) (bytes : List Byte) (ep : Bool)
  /-- What a virtual downstream port shows, or does on its link: link, vDSP, signal: 0 presence and link up, 1 surprise
  removal, 2 attention button, 3 empty slot and hot reset, 4 an ATS invalidation answered. -/
  | slot (link vdsp signal : Nat)
  /-- A datagram of QP1, or another connection message: port, remote queue pair and GID, kind, fields. -/
  | cm (port qpn gid kind : Nat) (fields : List Nat)
  /-- A PTP message sent on an Ethernet-mode port: transport and bytes (R657, R672). -/
  | ptp (port transport : Nat) (msg : List Byte)
  /-- A level driven on a pin: 0 ALERT_N, 1 PPS_OUT, 2 DATA_READY, 3 PUMP_PWM in percent, 4 THERM_TRIP_N, 5 rail enables. -/
  | pin (n level : Nat)
  /-- The xSPI flash (R948, R954): 0 an image is erased, 1 bytes are programmed; image, offset, bytes. -/
  | flash (op image offset : Nat) (bytes : List Byte)
  /-- A PMBus command to a rail, by the order of R924: OPERATION on or off (R940). -/
  | rail (rail : Nat) (on : Bool)
  /-- A frame of the field side of the Almanac (R899-R901): flags, parameters; the loop's CRC is the link's. -/
  | nfc (flags : Nat) (bytes : List Byte)
  /-- State mirrored to the pair partner (R784): partition, record bytes or a slot page with its number. -/
  | mirror (ptn kind number : Nat) (bytes : List Byte)
  /-- A state message of R364 to another device: device, OP, its class on the egress (R622), the 64 bytes of its state header, message. -/
  | state (dev op cls : Nat) (header : List Byte) (m : StateMsg)
  deriving DecidableEq, Repr

/-- Power state of a constellation (R74), coded as QTR_CON_STATE_n.PWR (R59). -/
inductive Pwr where
  | awake | doze | sleep | deep
  deriving DecidableEq, Repr

/-- Role of a physical constellation (R59). -/
inductive Role where
  | enabled | spare | failed
  deriving DecidableEq, Repr

/-- Service state of a constellation (R790). -/
inductive Service where
  | dark | dawn | lit | dimming
  deriving DecidableEq, Repr

/-- One physical constellation (R40, R59, R74, R790). -/
structure Con where
  role     : Role := .enabled
  /-- The logical number it carries; none for a spare or a failed constellation. -/
  logical  : Option Nat := none
  pwr      : Pwr := .deep
  /-- A wake is in progress (R74). -/
  waking   : Bool := false
  /-- SRAM initialisation is in progress (R75, R77). -/
  init     : Bool := false
  /-- Stores are draining before the power switch opens (R75). -/
  draining : Bool := false
  /-- The power state an ended entry names, entered when nothing more runs (R1005). -/
  after    : Option Pwr := none
  /-- Ticks of the last wake trigger and of the last entry to DOZE or SLEEP (R78), and of the choice as a spare that is served (R51). -/
  wokeAt   : Option Nat := none
  restAt   : Option Nat := none
  tookAt   : Option Nat := none
  /-- Tick of the last end of an entry, and the least deep AFTER of the entries that ended then (R1005). -/
  endAt    : Option (Nat × Nat) := none
  /-- Entries whose wake lead has been reached and that have not started, as (section, entry, of the next cycle) (R116, R1005). -/
  leads    : List (Nat × Nat × Bool) := []
  /-- Star clock in force, in steps of 25 MHz (R59), and the clock the image gives (R98, R975). -/
  clkStep  : Nat := 24
  clkImage : Nat := 24
  service  : Service := .lit
  /-- Cause of DIMMING: 0 contract, else the test kind (R777, R778). -/
  dimCause : Nat := 0
  /-- Losses counted against re-admission (R793). -/
  losses   : Nat := 0
  /-- Contract events in the present second (R777), and when that second began, in ns. -/
  contract : Nat := 0
  contractFrom : Nat := 0
  /-- A heartbeat has come since the last check (R769, R905), and when the last came, in ns. -/
  beat     : Bool := false
  beatAt   : Nat := 0
  /-- A test slice runs on it outside the image (R797), and the physical mentor of its shadow (R791). -/
  testing  : Bool := false
  mentor   : Option Nat := none
  deriving DecidableEq, Repr

/-- The rail of a quarter (R58, R69, R70) and its clock cap (R975, R976). -/
structure Quarter where
  targetMv : Nat := 600
  settling : Bool := false
  /-- Voltage the rail has settled at (R70). -/
  mv       : Nat := 600
  capStep  : Nat := 60
  /-- Calm ticks counted toward a raise of the cap (R975). -/
  calm     : Nat := 0
  /-- The last 100 READ_IOUT readings of VDD_CORE_Qq, in units of 62.5 mA, newest first (R976). -/
  amps     : List Nat := []
  /-- Hottest quarter temperature in m°C at the last management tick (R974). -/
  hot      : Int := 0
  throttled : Bool := false
  deriving DecidableEq, Repr

/-- A LOOKUP that a requester has sent, or pooled itself, for a TABLE task (R512, R517), and the pooled
records once they have come. -/
structure Lookup where
  task    : Nat
  ptn     : Nat
  table   : Nat
  shard   : Nat
  seq     : Nat
  dev     : Nat
  msg     : StateMsg := {}
  sentAt  : Nat := 0
  sends   : Nat := 1
  answer  : Option (List Byte) := none
  deriving DecidableEq, Repr

/-- A row held by a row cache (R518, R519): physical constellation, byte offset in its Halo, the row. -/
structure RowFrame where
  phys   : Nat
  at_    : Nat
  stride : Nat
  ptn    : Nat
  table  : Nat
  row    : Nat
  deriving DecidableEq, Repr

/-- A table record as written, 128 bytes (R509). -/
structure TabRec where
  ptn  : Nat
  num  : Nat
  rec_ : List Byte
  deriving DecidableEq, Repr

/-- An UPDATE received and not yet applied, with the cycle in which it came (R524). -/
structure Update where
  ptn   : Nat
  dev   : Nat
  table : Nat
  shard : Nat
  seq   : Nat
  cycle : Nat
  msg   : StateMsg
  deriving DecidableEq, Repr

/-- A look-up counter of a row (R520) and the cycle of its last look-up. -/
structure RowHeat where
  ptn   : Nat
  table : Nat
  row   : Nat
  count : Nat
  cycle : Nat
  deriving DecidableEq, Repr

/-- The embedding table engine (R509-R529). -/
structure TabEng where
  recs    : List TabRec := []
  /-- LOOKUPs that wait for a TABLE entry of their partition: (device, message). -/
  asks    : List (Nat × StateMsg) := []
  updates : List Update := []
  /-- Updates applied or refused, with the STATUS answered (R525): partition, device, table, SEQ, STATUS. -/
  applied : List (Nat × Nat × Nat × Nat × Nat) := []
  /-- UPDATE_ACKs received: partition, device, table, SEQ, STATUS. -/
  acks    : List (Nat × Nat × Nat × Nat × Nat) := []
  heat    : List RowHeat := []
  /-- CACHE_MIB in force by partition (R518). -/
  cache   : List (Nat × Nat) := []
  /-- SEQ of the next LOOKUP, by partition · 256 + table (R512). -/
  nextSeq : List (Nat × Nat) := []
  /-- Cycles of each partition's present aging period of row counters (R520). -/
  age      : List (Nat × Nat) := []
  deriving DecidableEq, Repr

/-- An ephemeris entry (R92). -/
structure Entry where
  start    : Nat
  length   : Nat
  wakeLead : Nat := 0
  cls      : Nat
  policy   : Nat := 0
  uid      : Nat := 0
  span     : Nat := 0
  ptn      : Nat := 0
  common   : Bool := false
  after    : Nat := 0
  action   : Nat := 0
  prog     : Nat := 0
  capA     : Nat := 0
  capB     : Nat := 0
  rpt      : Nat := 0
  phase    : Nat := 0
  /-- Bits [255:220], reserved and zero. -/
  resv     : Nat := 0
  deriving DecidableEq, Repr

/-- One section of an image (R86-R89): primary entries, n−1 entries and the n−1 directory as
(first entry, count) for partition p and quarter q at p · 4 + q. -/
structure Section where
  primary : List Entry := []
  n1      : List Entry := []
  dir     : List (Nat × Nat) := []
  deriving DecidableEq, Repr

/-- A loaded image (R86). -/
structure Image where
  contract   : Nat
  leadLax    : Bool
  cycleTicks : Nat
  fprint     : Nat
  imageId    : Nat
  sections   : List Section
  prog       : List Byte
  models     : List Model := []
  deriving DecidableEq, Repr

/-- A compute-class entry that is running, or that was aborted and whose stores are still being
written (R117-R121). Entries are named by section and index in the table of this cycle. -/
structure RunSlot where
  sec      : Nat
  ent      : Nat
  ptn      : Nat
  /-- Logical constellations of its units. -/
  cons     : List Nat
  /-- Its units, as ranges of logical stars (R122). -/
  stars    : List (Nat × Nat) := []
  /-- Slip with which it started, in ticks (R122). -/
  slip     : Nat := 0
  /-- Work still runs past its end: in the SLACK entry borrowed (R119), or none. -/
  borrow   : Option Nat := none
  /-- The policy has stopped the work, whose stores are being written (R119); the cycle has ended since (R120, R125): the slot then stands
  under its section's number plus 8, which no entry has. -/
  aborting : Bool := false
  crossed  : Bool := false
  /-- What it has taken of CAP_A and CAP_B; placement has stopped (R117). -/
  usedA    : Nat := 0
  usedB    : Nat := 0
  full     : Bool := false
  deriving DecidableEq, Repr

/-- The ephemeris unit (R81-R147). -/
structure Eph where
  bank0     : Option Image := none
  bank1     : Option Image := none
  active    : Nat := 0
  running   : Bool := false
  armed     : Bool := false
  /-- EPH_LOAD_STATUS.STATE, RESULT and EPH_LOAD_FAULT (R142). -/
  loadState  : Nat := 0
  loadResult : Nat := 0
  loadFault  : Nat := 0
  /-- EPH_LOAD_LEN of the load in progress (R140, R142). -/
  loadLen    : Nat := 0
  switchResult : Nat := 0
  /-- Cycle number and Meridian time in ns at which the cycle began (R82). -/
  cycle     : Nat := 0
  cycleAt   : Nat := 0
  /-- A step cycle is in progress; the ns at which it ends (R665, R666). -/
  stepEnd   : Option Nat := none
  /-- Partitions in an n−1 variant, with the quarter of loss and the lost logical number (R131). -/
  n1        : List (Nat × Nat × Nat) := []
  /-- Losses without a spare waiting for the boundary, as (p, q, logical) (R131). -/
  n1Wait    : List (Nat × Nat × Nat) := []
  /-- Partitions whose entries run empty, with the logical numbers lost (R132, R135, R1007). -/
  empty     : List (Nat × List Nat) := []
  slots     : List RunSlot := []
  /-- Slips of this cycle, the last set first, as (first star, star after the last, ticks) (R122, R125). -/
  slip      : List (Nat × Nat × Nat) := []
  /-- Entries reported as skipped in this cycle, as (section, entry) (R124). -/
  skipped   : List (Nat × Nat) := []
  /-- Largest slip of the cycle by partition, with its BARRIER_ID (R128). -/
  worst     : List (Nat × Nat × Nat) := []
  /-- Gate state of a gated port (R96, R97). -/
  gates     : List (Nat × Nat) := []
  /-- Windows that hold a stack or channel, as (section, entry, resource) (R101). -/
  held      : List (Nat × Nat × Nat) := []
  /-- Credit-based service for ADRIFT, from and to cycle boundaries (R625, R663). -/
  credit    : Bool := false
  /-- TRANSFER entries that run, as (section, entry, port, partition, bytes that they may still carry) (R94, R127). -/
  xfer      : List (Nat × Nat × Nat × Nat × Nat) := []
  /-- Ports whose SerDes is recalibrating (R103, R555). -/
  recal     : List Nat := []
  /-- BRIDGE entries that run, as (section, entry, bridge, partition, tiles left; none for no limit, and the number of the first tile that
  came too late for it) (R62, R127). -/
  bridge    : List (Nat × Nat × Nat × Nat × Option Nat × Nat) := []
  /-- PCIe MOVER entries that run now, as (section, entry, partition): only in them does a partition's DMA run (R690). -/
  pcie      : List (Nat × Nat × Nat) := []
  deriving DecidableEq, Repr

/-- States of a task (R162). -/
inductive TaskState where
  | pending | ready | dispatched | running
  deriving DecidableEq, Repr

/-- Where a task came from (R153, R172): a window's ring, the PF's ring, the dispatcher, a control core. -/
inductive TaskSrc where
  | window (p : Nat)
  | pf
  | dispatcher
  | core
  deriving DecidableEq, Repr

/-- A live task (R153, R162). Ended tasks leave the list; `Work.ended` keeps what AFTER_TAG needs. -/
structure Task where
  id       : Nat
  src      : TaskSrc
  kind     : Nat
  pin      : Bool
  fence    : Bool
  quiet    : Bool
  cls      : Nat
  level    : Nat
  ptn      : Nat
  uid      : Nat
  span     : Nat
  request  : Option Nat
  epoch    : Nat
  layer    : Nat
  prog     : Nat
  count    : Nat
  tag      : Nat
  /-- The task that AFTER_TAG resolved to, while it must still end (R159). -/
  after    : Option Nat
  args     : List Nat
  /-- What it counts against CAP_A and CAP_B of its slot (R94, R117). -/
  costA    : Nat := 1
  costB    : Nat := 1
  state    : TaskState := .pending
  attempt  : Nat := 0
  /-- Ephemeris cycle in which it became READY (R164), and the tick at which it began to run. -/
  readyAt  : Nat := 0
  readyNs  : Nat := 0
  ranFrom  : Nat := 0
  /-- Section and entry of the slot it was placed in. -/
  slot     : Option (Nat × Nat) := none
  /-- Statuses of instances that have ended (R173), and how many reached END. -/
  statuses : List Nat := []
  reached  : Nat := 0
  /-- DETAILs of instances that faulted, by their status (R171), and the tasks that a CANCEL has cancelled. -/
  faults   : List (Nat × Nat) := []
  detail   : Nat := 0
  /-- UID of the unit that runs the one instance of a task (R171); an instruction of it has issued (R163). -/
  ran      : Option Nat := none
  issued   : Bool := false
  /-- It has been asked to stop, with this status (R158, R162). -/
  stop     : Option Nat := none
  /-- Request whose pages an ATTEND task reads (R172, R396). -/
  serves   : Option Nat := none
  /-- SYNC identifiers that each ended instance has issued (R183). -/
  syncs    : List (List Nat) := []
  /-- Page record that a task seals, and the slot page it writes (R251); tables CURRENT for its tensor when it was dispatched (R25). -/
  page     : Option (Nat × Nat) := none
  /-- Further pages that a PREFILL task fills and seals, with their slot pages. -/
  more     : List (Nat × Nat) := []
  /-- Pages that it has sealed: the record of the last takes TABLE and PACKED_LEN of its ENC (R300). -/
  sealed   : List Nat := []
  /-- The scratch line behind what the dispatcher placed for it (R321), and the PARTIAL_BF16 under which it was dispatched (R340). -/
  lineEnd  : Nat := 0
  bf16     : Option Bool := none
  tabs     : List Nat := []
  /-- Tables that the packed copies of its ENCs name, once for each reference of an in-flight copy (R300). -/
  packs    : List Nat := []
  /-- It samples a token (R501), in the sampling mode of its dispatch (R25); the token SAMP chose, the
  REASON of STOP, the logits for the host. -/
  samples  : Bool := false
  hostSamples : Bool := false
  token    : Option Nat := none
  reason   : Nat := 0
  logits   : List Nat := []
  /-- Every logit was NaN or −infinity (R486). -/
  noToken  : Bool := false
  /-- Tasks that a CANCEL waits for (R161). -/
  waits    : List Nat := []
  /-- Its look-ups have been started (R512). -/
  looked   : Bool := false
  deriving DecidableEq, Repr

/-- A tile load or store of an instance that is still outstanding (R181). -/
structure Tile where
  id     : Nat
  load   : Bool
  /-- Tier 0 Near, 1 Far, 2 global (R181). -/
  tier   : Nat
  addr   : Nat
  /-- Scratch, staging or Halo byte address on the SRAM side. -/
  sram   : Nat
  decode : Bool := false
  width  : Nat := 0
  /-- Program address of its instruction (R171). -/
  pc     : Nat := 0
  /-- The bytes of a store, taken when STT issued. -/
  bytes  : List Byte := []
  poison : List Nat := []
  deriving DecidableEq, Repr

/-- An instance of a task bound to a unit (R149, R162). -/
structure Inst where
  id      : Nat
  task    : Nat
  /-- Logical UID of the unit that runs it. -/
  uid     : Nat
  started : Bool := false
  /-- Byte address of its next instruction in the program section, and A0–A3. -/
  pc      : Nat := 0
  args    : List Nat := []
  tiles   : List Tile := []
  /-- Identifier of a SYNC it waits in (R183); count it waits for in WAIT (R181). -/
  sync    : Option Nat := none
  wait    : Option Nat := none
  /-- END has been issued and its stores are not all written (R162). -/
  ending  : Bool := false
  /-- It must stop at its next checkpoint, with this status (R158, R162, R187, R119). -/
  stop    : Option Nat := none
  /-- Instructions issued since the last checkpoint (R185, R186). -/
  issued  : Nat := 0
  /-- DETAIL of the fault that ends it once its stores are written (R171). -/
  detail  : Nat := 0
  /-- SYNC identifiers that it has issued, and executions done of a repeated LDT or STT that waits for the tile limit (R181, R183). -/
  syncs   : List Nat := []
  execs   : Nat := 0
  /-- FP32 accumulators of destinations still open to ACC, by SRAM key and format (R204). -/
  acc     : List (Nat × Nat × List Nat) := []
  /-- Issues so far of QNT with HIST and of ENC (R298), and bytes of the page that ENC builds. -/
  qnts    : Nat := 0
  encs    : Nat := 0
  packed  : List Byte := []
  /-- Slot form of the component 0 that it has packed (R287, R301). -/
  slot0   : List Byte := []
  /-- Token chosen by SAMP, REASON given by STOP (R485, R492), and logits for the host (R489). -/
  token   : Option Nat := none
  reason  : Nat := 0
  logits  : List Nat := []
  noToken : Bool := false
  /-- Rings that a sampler tag goes to, 32 the PF's (R917); ns at DISPATCHED and first issue, instructions retired, tiles. -/
  tagged  : List Nat := []
  boundAt : Nat := 0
  issueAt : Nat := 0
  retired : Nat := 0
  moved   : Nat := 0
  deriving DecidableEq, Repr

/-- A descriptor that failed a check in the tick `at_`, in ns of the oscillator, and the record that completed it: a cancel of the same
tick makes it CANCELLED_UNSTARTED (R10). -/
structure BadTask where
  at_  : Nat
  ring : Nat
  rec_ : Completion
  task : Task
  deriving DecidableEq, Repr

/-- Tasks and instances (R148-R187) and the on-chip SRAM they work in. -/
structure Work where
  /-- Live tasks in wait order (R117, R162). -/
  tasks    : List Task := []
  insts    : List Inst := []
  /-- Ended ring tasks as (number, source ring, TAG, status) (R159, R160). -/
  ended    : List (Nat × TaskSrc × Nat × Nat) := []
  /-- Descriptors refused in the present tick (R10). -/
  badNow   : List BadTask := []
  nextTask : Nat := 1
  nextInst : Nat := 1
  nextTile : Nat := 1
  /-- Bytes of scratch, staging and Halo, sparse; an unlisted byte is 0 (R77). -/
  sram     : List (Nat × Byte) := []
  /-- Poisoned words of SRAM: their byte keys divided by 8 (R415). -/
  poison   : List Nat := []
  /-- Residency tags: 4 KiB frame of SRAM (key ÷ 4,096) and the tier tile last loaded (R439). -/
  tags     : List (Nat × Nat) := []
  /-- Fixed counters (R176) as (UID · 8 + index, count). -/
  counters : List (Nat × Nat) := []
  /-- Counts that the last heartbeat has not forwarded (R905). -/
  unsent   : List (Nat × Nat) := []
  /-- LOOKUPs of live TABLE tasks, and rows held by row caches. -/
  lookups  : List Lookup := []
  rows     : List RowFrame := []
  deriving DecidableEq, Repr

/-- A live allocation of tier memory (R432-R435). -/
structure Alloc where
  ptn   : Nat
  /-- Device tier tile number of its first tile: device tier address ÷ 4,096 (R419). -/
  tile  : Nat
  tiles : Nat
  deriving DecidableEq, Repr

/-- A DDR channel (R442, R443, R460): STATE 0 ABSENT, 1 ACTIVE, 2 SELF_REFRESH, 3 TRAIN_FAIL, 4 LOST. -/
structure Chan where
  state     : Nat := 0
  dimm0     : Bool := false
  dimm1     : Bool := false
  mismatch  : Bool := false
  trimmed   : Bool := false
  installed : Nat := 0
  temp      : Nat := 0
  /-- Place among the channels of the Far space (R443). -/
  far       : Option Nat := none
  deriving DecidableEq, Repr

/-- A Near stack (R459). -/
structure Stack where
  lost  : Bool := false
  sleep : Bool := false
  temp  : Nat := 0
  deriving DecidableEq, Repr

/-- Corrected errors at one address within an hour (R461): memory kind, address, count, time of the first. -/
structure CeSite where
  kind  : Nat
  addr  : Nat
  count : Nat
  since : Nat
  deriving DecidableEq, Repr

/-- The Near and Far tiers (R406-R464), by device tier address (R419). -/
structure Mem where
  /-- Bytes of both tiers; an unlisted byte is 0 (R428). -/
  bytes   : List (Nat × Byte) := []
  /-- Tiles whose written bit is 1 (R428), ascending. -/
  written : List Nat := []
  /-- Poisoned words: device tier address ÷ 8. -/
  poison  : List Nat := []
  allocs  : List Alloc := []
  /-- Granules whose change of owner waits for a switch, g or 768 + f, with the owner that holds them till then (R114). -/
  later   : List (Nat × Option Nat) := []
  nears  : List Stack := List.replicate 12 {}
  chans   : List Chan := List.replicate 16 {}
  /-- C and K of R443 (channels used and GiB of each). -/
  farC    : Nat := 0
  farK    : Nat := 0
  /-- Tiles that a lost stack took from interleaved sets, as (first tile, tiles), and those that their
  owner has freed or reallocated since (R449). -/
  gone    : List (Nat × Nat) := []
  healed  : List (Nat × Nat) := []
  /-- Last refresh window of a stack n or channel 12 + n, in ns, and refreshes it issued (R447). -/
  refreshAt : List (Nat × Nat) := []
  refreshes : List (Nat × Nat) := []
  /-- Granules whose written map is being cleared (R429): g, or 768 + f. -/
  clearing  : List Nat := []
  sites   : List CeSite := []
  /-- Addresses recorded for repair at the next Nightfall (R461), as (kind, address). -/
  repair  : List (Nat × Nat) := []
  /-- Copies in prefetch areas, as (physical constellation, Near tile) (R450, R453). -/
  area    : List (Nat × Nat) := []
  /-- Granules that are UNAVAIL for want of a spare tile (R960, R964). -/
  dead    : List Nat := []
  deriving DecidableEq, Repr

/-- Request states (R226, R230); a free slot has no record. -/
inductive RState where
  | queued | prefill | handoff | decode | parked | promoting | done | cancelled | failed
  deriving DecidableEq, Repr

/-- A group of a split plan (R347). -/
structure Group where
  first  : Nat
  log2   : Nat
  holder : Nat
  handle : Nat
  deriving DecidableEq, Repr

/-- A held install of a request that another device owned (R367-R374). -/
structure Install where
  dev    : Nat
  ptn    : Nat
  handle : Nat
  /-- When it was installed and when its MOVE_ACK was last sent, in ns. -/
  at_    : Nat
  ackAt  : Nat
  /-- COMMIT has come; REFs may still be unacknowledged (R369). -/
  done   : Bool := false
  deriving DecidableEq, Repr

/-- A request: its RSR (R226, R346, R359, R496) and what the device keeps beside it. -/
structure Req where
  ptn          : Nat
  slot         : Nat
  gen          : Nat
  state        : RState := .queued
  keep         : Bool := false
  keepOnCancel : Bool := false
  durable      : Bool := false
  wbEvery      : Bool := false
  finished     : Bool := false
  epoch        : Nat := 0
  rid          : Nat := 0
  seed         : Nat := 0
  /-- MODEL, and the geometry that its record takes from the model and GEOM. -/
  model        : Nat := 0
  layers       : Nat := 1
  latent       : Bool := false
  pageCode     : Nat := 0
  widthCode    : Nat := 0
  dim          : Nat := 0
  groups       : Nat := 0
  posDim       : Nat := 0
  promptLen    : Nat := 0
  maxTokens    : Nat := 0
  length       : Nat := 0
  sealedLen    : Nat := 0
  durableLen   : Nat := 0
  sharedLen    : Nat := 0
  nextIndex    : Nat := 0
  admitCycle   : Nat := 0
  pmap         : Nat := 0
  lastCycle    : Nat := 0
  /-- Page map entries that are not zero, by l · MAX_TOKENS ÷ P + i (R238). -/
  map          : List (Nat × Nat) := []
  -- MOVE (R359)
  mverb        : Nat := 0
  pipeline     : Bool := false
  pack         : Bool := false
  holding      : Bool := false
  held         : Bool := false
  doubt        : Bool := false
  dropPending  : Bool := false
  peer         : Nat := 0
  peerPtn      : Nat := 0
  peerHandle   : Nat := 0xFFFFFFFF
  origin       : Nat := 0
  originPtn    : Nat := 0
  originHandle : Nat := 0xFFFFFFFF
  pagesSent    : Nat := 0
  pagesAcked   : Nat := 0
  moveTag      : Nat := 0
  remoteRefs   : Nat := 0
  /-- What each remote reference counts in (R253, R383): the device and handle that hold it, and the pages of the map when it came. -/
  refSets      : List (Nat × Nat × List Nat) := []
  /-- Partial buffer in the Near tier, a byte address; 0 for none (R399, R436). -/
  partialBuf   : Nat := 0
  /-- Groups that a PROMOTE has asked its holders to return (R381). -/
  pulled       : List Group := []
  -- SERVE (R496)
  temp         : Nat := 0
  topP         : Nat := 0
  topK         : Nat := 0
  await        : Bool := false
  hist         : List Nat := []
  maxNew       : Nat := 0
  generated    : Nat := 0
  inputLeft    : Nat := 0
  inputAddr    : Nat := 0
  charged      : Nat := 0
  -- ATTEND (R346)
  plan         : Nat := 0
  planGroups   : List Group := []
  headsM1      : Nat := 0
  partialBf16  : Bool := false
  maskL        : Nat := 0
  bitmap       : Nat := 0
  bitmapStride : Nat := 0
  -- beside the record
  /-- Submitted through the PF's ring: its records go there (R844). -/
  pf           : Bool := false
  tag          : Nat := 0
  /-- Stop tokens and stop sequences of the stop block (R491). -/
  stopTok      : List Nat := []
  stopSeq      : List (List Nat) := []
  /-- The copy of the stop block in the serve record (R470, R491). -/
  stopBlock    : List Byte := []
  /-- Input tokens not yet consumed, once read (R470), and the host addresses still to be read. -/
  input        : List Nat := []
  reading      : Bool := false
  hostInput    : Nat := 0
  hostStops    : Nat := 0
  /-- Charge of the present admission (R480) and when it was accepted, in ns. -/
  admitCharge  : Nat := 0
  acceptedAt   : Nat := 0
  /-- When its last step ended, in ns: it waits for its class since then (R117). -/
  waitNs       : Nat := 0
  /-- Its step checks stops, and samples, in the host-assisted mode, as when the step began (R25); its admission charge was debited (R480). -/
  stopsByHost  : Bool := false
  logitsByHost : Bool := false
  debited      : Bool := false
  dispatched   : Bool := false
  /-- Layer that the next task of the step serves, tokens the step appends, its live task (R246, R345). -/
  layer        : Nat := 0
  stepTokens   : Nat := 0
  task         : Option Nat := none
  /-- 0: the task that writes the layer's query tile comes next; 1: the task that merges (R395, R399). -/
  phase        : Nat := 0
  /-- LENGTH and NEXT_INDEX at the last cycle boundary (R380, CLONE). -/
  lenAt        : Nat := 0
  nextAt       : Nat := 0
  /-- HMODE, DEST, DEST_PTN, STORE, STORE_PTN of the descriptor (R375). -/
  hmode        : Nat := 0
  dest         : Nat := 0
  destPtn      : Nat := 0
  store        : Nat := 0
  storePtn     : Nat := 0
  /-- Index of the last token record written here (R472). -/
  lastIndex    : Nat := 0xFFFFFFFF
  /-- A plan that waits for its REFs and the next boundary (R380). -/
  newPlan      : Option (Nat × List Group) := none
  install      : Option Install := none
  /-- Logits buffer that waits for its TOKEN (R489, R762). -/
  logitsBuf    : Option Nat := none
  deriving DecidableEq, Repr

/-- Page states (R241); a free record is not listed. -/
inductive PgState where
  | open | sealing | sealed | inTransit | released
  deriving DecidableEq, Repr

/-- A page record (R239) with its heat (R387) and the staging of an open page. -/
structure Page where
  ptn       : Nat
  num       : Nat
  state     : PgState := .open
  nearValid : Bool := false
  farValid  : Bool := false
  promo     : Bool := false
  layer     : Nat := 0
  refcnt    : Nat := 1
  pinNear   : Nat := 0
  pinFar    : Nat := 0
  pageCode  : Nat := 0
  widthCode : Nat := 0
  latent    : Bool := false
  dim       : Nat := 0
  groups    : Nat := 0
  posDim    : Nat := 0
  model     : Nat := 0
  tokens    : Nat := 0
  /-- Tokens appended by a task that has not completed (R246). -/
  prov      : Nat := 0
  table     : Nat := 0
  nearAddr  : Nat := 0
  farAddr   : Nat := 0
  packedLen : Nat := 0
  slotTiles : Nat := 0
  position  : Nat := 0
  /-- When it entered SEALING, in ns: its seal waits since then (R117). -/
  waitNs    : Nat := 0
  /-- The Far copy decoded with a stream fault (R314). -/
  farPoison : Bool := false
  heat      : Nat := 0
  heatCycle : Nat := 0
  /-- Staging: logical cluster and first block (R243); blocks whose DIRTY bit is 1 (R438). -/
  stage     : Option (Nat × Nat) := none
  dirty     : List Nat := []
  /-- Mirror in the partner's staging (R264): logical cluster and first block. -/
  mirror    : Option (Nat × Nat) := none
  /-- Marked for write-back (R247). -/
  marked    : Bool := false
  /-- The seal has been placed in a slot (R241). -/
  seals     : Bool := false
  /-- Tiles of the slot page that its seal has written (R251). -/
  sealDone  : List Nat := []
  /-- Stores to its staging are written through to its open area (R266). -/
  through   : Bool := false
  deriving DecidableEq, Repr

/-- An entropy table slot that is not FREE (R292, R297). -/
inductive TabState where
  | building | current | retired
  deriving DecidableEq, Repr
structure KvTable where
  num     : Nat
  ptn     : Nat
  state   : TabState
  model   : Nat
  layer   : Nat
  comp    : Nat
  width   : Nat
  epoch   : Nat := 0
  lengths : List Nat := []
  refcnt  : Nat := 0
  /-- It becomes CURRENT at the next cycle boundary (R297). -/
  due     : Bool := false
  /-- Cycle at whose boundary it became CURRENT (R299). -/
  since   : Nat := 0
  deriving DecidableEq, Repr

/-- The histogram of a tensor (R302). -/
structure Hist where
  ptn    : Nat
  model  : Nat
  layer  : Nat
  comp   : Nat
  width  : Nat
  blocks : Nat := 0
  counts : List Nat := []
  deriving DecidableEq, Repr

/-- An outstanding query of a request for one group, and its partial once it has come (R395-R400). -/
structure Query where
  handle  : Nat
  epoch   : Nat
  qid     : Nat
  layer   : Nat
  group   : Group
  sentAt  : Nat
  sends   : Nat := 1
  partial_ : Option (List Byte) := none
  /-- The QUERY for this group alone, to be sent again (R400). -/
  msg      : StateMsg := {}
  deriving DecidableEq, Repr

/-- A query that another device sent, in the ATTEND wait (R396): one task per group. -/
structure HolderQuery where
  ptn       : Nat
  handle    : Nat
  dev       : Nat
  srcPtn    : Nat
  srcHandle : Nat
  qid       : Nat
  epoch     : Nat
  layer     : Nat
  /-- Groups not yet attended, as (first page, log2), and the tasks that attend, each with the pages it
  pins and whether the pin is on the Far copy (R397). -/
  groups    : List (Nat × Nat)
  bf16      : Bool
  /-- OPARGS of the QUERY (R393). -/
  args      : Nat := 0
  body      : List Byte
  tasks     : List (Nat × List (Nat × Bool)) := []
  /-- When it came, in ns: it waits since then (R117). -/
  waitNs    : Nat := 0
  deriving DecidableEq, Repr

/-- What a page transfer of a mover carries (R360). -/
inductive XferWhat where
  /-- Write-back of staged blocks to the open area (R247, R438). -/
  | writeBack (ptn page : Nat) (blocks : List Nat) (again : List Nat)
  /-- Load of an open page into staging (R244): page and logical cluster. -/
  | openLoad (ptn page cluster : Nat)
  /-- Far copy of a page being evicted (R390). -/
  | evict (ptn page : Nat) (handle : Nat)
  /-- Near copy of a page being promoted (R380). -/
  | promote (ptn page : Nat) (handle : Nat)
  /-- A page that a move sends to another device (R361): page, number of the move. -/
  | send (ptn page move : Nat)
  /-- A QUERY or PARTIAL that rides a fabric-send entry (R395, R396): device, OP, message. -/
  | message (dev op : Nat) (m : StateMsg)
  /-- Pages received from a device (R362). -/
  | receive (dev : Nat) (m : StateMsg)
  /-- A read of input tokens or a stop block (R470). -/
  | input (handle : Nat)
  deriving DecidableEq, Repr

structure Xfer where
  id      : Nat
  ptn     : Nat
  /-- Kind of the MOVER entry: 0 tier, 1 send, 2 receive, 3 PCIe (R94). -/
  kind    : Nat
  tiles   : Nat
  what    : XferWhat
  running : Bool := false
  /-- It waits for space in a tier: 0 Near, 1 Far (R30, R392). -/
  stuck   : Option Nat := none
  /-- The prefetcher has read its Far tiles into mover staging (R451). -/
  fetched : Bool := false
  /-- It waits for ENC, or for LDT with DECODE, in a SEAL entry of its partition (R361, R362, R380, R390). -/
  coding  : Bool := false
  /-- What ENC made of its page: bytes, PACKED_LEN and table of component 0; and the tables in whose REFCNT the copy in flight counts (R300). -/
  form    : Option (List Byte × Nat × Nat) := none
  tabs    : List Nat := []
  deriving DecidableEq, Repr

/-- A move in progress (R355-R386). -/
structure Move where
  id       : Nat := 0
  ptn      : Nat
  handle   : Nat
  verb     : Nat
  mode     : Nat := 0
  pack     : Bool := false
  quiet    : Bool := false
  pull     : Bool := false
  dest     : Nat := 0
  destPtn  : Nat := 0
  store    : Nat := 0
  storePtn : Nat := 0
  tag      : Nat := 0
  /-- Whether it came from the PF ring; none for a HANDOFF that the device built. -/
  src      : TaskSrc := .dispatcher
  /-- Pages still to be sent, evicted or promoted, and those sent and not acknowledged. -/
  todo     : List Nat := []
  flying   : List Nat := []
  /-- Pages resent once (R363). -/
  resent   : List Nat := []
  pages    : Nat := 0
  skipped  : Nat := 0
  failed   : Nat := 0
  /-- INSTALL sent: to STORE (1) or DEST (2), its sends and when the last was, in ns. -/
  target   : Nat := 0
  sends    : Nat := 0
  sentAt   : Nat := 0
  /-- Handle of the holding request on STORE. -/
  storeHandle : Nat := 0xFFFFFFFF
  /-- When a PAGES message answered BUSY is to be sent again (R377). -/
  busyAt   : Option Nat := none
  /-- Pages are streamed while the request is still in PREFILL (R377). -/
  streaming : Bool := false
  /-- Pages sent and acknowledged, and tables of packed copies in flight, as (page, table) (R300). -/
  acked    : List Nat := []
  flyTabs  : List (Nat × Nat) := []
  /-- Carried pages whose Far copy it pins; of the others it pins the Near copy (R241, R361). -/
  farPins  : List Nat := []
  /-- The epoch that the move installs, and SEQ of the next message (R364). -/
  epoch    : Nat := 0
  seq      : Nat := 0
  /-- PLAN: address and groups of the new plan (R380); FETCH: the requester's handle. -/
  planAddr : Nat := 0
  plan     : List Group := []
  /-- Holders that the new plan adds (R380). -/
  adds     : List Group := []
  deriving DecidableEq, Repr

/-- Pages received before their INSTALL (R377). -/
structure Reception where
  ptn    : Nat
  dev    : Nat
  handle : Nat
  epoch  : Nat
  last   : Nat
  /-- Page numbers by (layer, position). -/
  pages  : List (Nat × Nat × Nat) := []
  deriving DecidableEq, Repr

/-- A REF or RELEASE not yet acknowledged (R383). -/
structure RefMsg where
  handle  : Nat
  release : Bool
  dev     : Nat
  target  : Nat
  sentAt  : Nat
  /-- MOVE_TAG and SEQ of the move that sends it; 0 outside a move (R364). -/
  tag     : Nat := 0
  seq     : Nat := 0
  deriving DecidableEq, Repr

/-- A device's record of a committed install (R372): DEST, its handle, the owner's handle, when in ns. -/
structure CommitRec where
  dev    : Nat
  handle : Nat
  old    : Nat
  ptn    : Nat
  destPtn : Nat
  epoch  : Nat
  at_    : Nat
  /-- Holders of the plan that moved, whose references here are released once DEST's stand (R386). -/
  release : List Group := []
  /-- The 200 ms of R372 have passed: it stands for its RELEASEs alone. -/
  past    : Bool := false
  tag     : Nat := 0
  deriving DecidableEq, Repr

/-- A serving event held until the end of the cycle (R508): partition, code, count. -/
structure SrvMark where
  ptn   : Nat
  code  : Nat
  count : Nat
  deriving DecidableEq, Repr

/-- Serving (R221-R318, R354-R405, R465-R508). -/
structure Serve where
  reqs      : List Req := []
  /-- GEN of a slot that has been used, by partition · 2^18 + slot (R222). -/
  gens      : List (Nat × Nat) := []
  pages     : List Page := []
  tables    : List KvTable := []
  hists     : List Hist := []
  /-- Cycles since the table epoch and the aging period of a partition began (R303, R387). -/
  epochCount : List (Nat × Nat) := []
  /-- EPOCH_CYCLES of a partition's table epoch, taken up where the epoch begins; 0 for the default (R316). -/
  epochLen   : List (Nat × Nat) := []
  /-- EPOCH + 1 of the table of a tensor that became CURRENT last, by partition, model, layer and component (R297). -/
  lastEpochs : List (Nat × Nat) := []
  ageCount   : List (Nat × Nat) := []
  queries   : List Query := []
  held      : List HolderQuery := []
  moves     : List Move := []
  nextMove  : Nat := 1
  xfers     : List Xfer := []
  nextXfer  : Nat := 1
  receptions : List Reception := []
  refs      : List RefMsg := []
  commits   : List CommitRec := []
  /-- LEVEL of the bucket in milli-units and the remainder of the refill, by partition (R479). -/
  levels    : List (Nat × Int) := []
  remain    : List (Nat × Nat) := []
  /-- LEVEL at the start of the cycle (R508). -/
  levelAt   : List (Nat × Int) := []
  marks     : List SrvMark := []
  /-- Partitions whose eviction runs (R389), and victims in progress. -/
  evicting  : List Nat := []
  /-- When a request was last cancelled, by handle, in ns (R503). -/
  cancels   : List (Nat × Nat) := []
  /-- The request-state cache: (partition, slot) of the records it holds, in the order of their loads (R228, R229). -/
  rsrCache  : List (Nat × Nat) := []
  deriving DecidableEq, Repr

/-- A DATA cell (R540) with its valid payload. -/
structure Cell where
  cls     : Nat
  first   : Bool
  last    : Bool
  ecn     : Bool := false
  retry   : Bool := false
  poison  : Bool := false
  src     : Nat
  dst     : Nat
  msgId   : Nat
  offset  : Nat
  stream  : Nat
  sseq    : Nat
  ptn     : Nat
  payload : List Byte := []
  /-- A forwarder found the incoming cell bad after it began to send it (R551). -/
  stomp   : Bool := false
  deriving DecidableEq, Repr

/-- An item of an egress queue (R635). -/
inductive QItem where
  | cell (c : Cell)
  | frame (f : EthFrame) (ptn : Nat)
  deriving DecidableEq, Repr

/-- A sequenced cell held for replay (R542, R550): a DATA cell, or a LINK cell by its bytes. -/
structure Rep where
  lseq   : Nat
  cell   : Option Cell
  link   : List Byte := []
  sentAt : Nat
  resends : Nat := 0
  deriving DecidableEq, Repr

/-- A KQ port or the pair link (R530-R567, R622-R651). -/
structure Link where
  /-- KQ_STATUS.STATE: 0 OFF, 1 TRAINING, 2 ATTEST, 3 UP, 4 DOWN, 5 MERGED. -/
  state    : Nat := 0
  /-- DELIN: 0 HUNT, 1 PRESYNC, 2 SYNC, with consecutive valid and failed checks, and when SYNC was lost. -/
  delin    : Nat := 0
  good     : Nat := 0
  bad      : Nat := 0
  lostAt   : Option Nat := none
  lanes    : Nat := 0
  cause    : Nat := 0
  /-- Seconds of the back-off armed last, and the ns at which the next attempt comes. -/
  backoff  : Nat := 0
  nextTry  : Option Nat := none
  partner  : Nat := 0
  serial   : Nat := 0
  /-- The partner's port from HELLO. -/
  peerPort : Nat := 0
  trainAt  : Nat := 0
  /-- SPDM steps done (R538), traffic keys exist, HELLO has matched, an ACK has come (R535). -/
  spdm     : Nat := 0
  keys     : Bool := false
  hello    : Bool := false
  acked    : Bool := false
  txSeq    : Nat := 0
  rxSeq    : Nat := 0
  /-- Wraps of the send sequence and of the control count, and the control count (R544). -/
  txWrap   : Nat := 0
  ctl      : Nat := 0
  ctlWrap  : Nat := 0
  replay   : List Rep := []
  /-- When the last NAK was sent for the expected value in force (R549). -/
  nakAt    : Option Nat := none
  /-- PTP messages that wait for the end of a RECAL_SERDES window (R103): the cookie of a ring entry, none for a Sync, and the message. -/
  timeWait : List (Option Nat × List Byte) := []
  /-- Sequenced cells accepted since the last ACK, and when the oldest came (R549). -/
  sinceAck : Nat := 0
  ackFrom  : Option Nat := none
  /-- Credits held, cells freed here, and the partner's counts last received, by class (R548, R551). -/
  credits  : List Nat := List.replicate 8 0
  freed    : List Nat := List.replicate 8 0
  seen     : List Nat := List.replicate 8 0
  /-- Times of the TAG failures of the last ms (R552). -/
  tagAt    : List Nat := []
  /-- Priorities paused by PFC (R636), and the first SAK installed (R561). -/
  paused   : Nat := 0
  sak      : Bool := false
  /-- Egress queues that are not empty, by q = 8s + c (R635). -/
  queues   : List (Nat × List QItem) := []
  /-- KQ_QS_CTL.MODE in force (R640). -/
  mode     : Nat := 0
  /-- Deficits by subscriber and the subscriber served last (R638). -/
  deficit  : List (Nat × Nat) := []
  lastSub  : Nat := 0
  /-- Finish tags by queue, and virtual time (R639). -/
  finish   : List (Nat × Nat) := []
  vtime    : Nat := 0
  /-- Queues whose head is held whole before a closing, as counted (R631). -/
  guarded  : List Nat := []
  /-- Shapers as (number, bytes held, ns of the last gain): queue q, 264 + s, 512 the port; policers 520 + c (R637, R642). -/
  buckets  : List (Nat × Int × Nat) := []
  deriving DecidableEq, Repr

/-- For whom a memory message was sent. -/
inductive MemOwner where
  /-- A tile load or store of an instance. -/
  | tile (inst tile : Nat)
  /-- A read or an atomic on BAR2: partition, tag of the request, its tile. -/
  | bar2 (ptn tag tile : Nat)
  /-- An INVALIDATE of a write. -/
  | inval (op : Nat)
  deriving DecidableEq, Repr

/-- A message sent and not yet answered, or waiting for a MSG_ID (R593-R596). -/
structure SentMsg where
  id     : Nat
  dev    : Nat
  msgId  : Option Nat := none
  stream : Nat
  sseq   : Nat := 0
  op     : Nat
  ptn    : Nat
  addr   : Nat
  len    : Nat
  handle : Nat := 0xFFFFFFFF
  epoch  : Nat := 0
  sharers : Nat := 0
  data   : List Byte := []
  poison : List Nat := []
  cls    : Nat
  owner  : MemOwner
  sends  : Nat := 0
  sentAt : Nat := 0
  /-- Reads cached (R608), and tiles that an INVALIDATE has marked (R611). -/
  cache  : Bool := false
  noFill : List Nat := []
  deriving DecidableEq, Repr

/-- A write whose COMPLETE has come and whose INVALIDATEs are outstanding (R604, R610). -/
structure Fencing where
  op     : Nat
  owner  : MemOwner
  status : Nat
  data   : List Byte := []
  /-- Poisoned words of an atomic's result. -/
  ws     : List Nat := []
  deriving DecidableEq, Repr

/-- A reassembly context (R589-R592). -/
structure RxCtx where
  src    : Nat
  msgId  : Nat
  stream : Nat
  sseq   : Nat
  ptn    : Nat
  cls    : Nat
  /-- Cells present by offset: payload and POISON. -/
  cells  : List (Nat × List Byte × Bool) := []
  /-- Offset of LAST once it has come. -/
  last   : Option Nat := none
  since  : Nat
  /-- Offsets whose bytes have been written as they came (R600). -/
  wrote  : List Nat := []
  deriving DecidableEq, Repr

/-- A stream context (R595). -/
structure RxStream where
  src    : Nat
  stream : Nat
  opener : Nat
  /-- The STREAM_SEQ after H: every message before it is applied. -/
  next   : Nat := 0
  /-- Messages applied, with STREAM_SEQ, status and atomic result: those of the window and as many before it. -/
  done   : List (Nat × Nat × List Byte) := []
  lastAt : Nat
  deriving DecidableEq, Repr

/-- A complete message that waits: for a context (R598), or for its turn in an ordered stream (R599). -/
structure RxHeld where
  msg   : MemMsg
  wrote : Bool := false
  since : Nat
  noCtx : Bool
  deriving DecidableEq, Repr

/-- A tile of a remote read cache (R607): partition, global tile number, place in the cache, order of its fill. -/
structure RrcTile where
  ptn   : Nat
  tile  : Nat
  place : Nat
  order : Nat
  deriving DecidableEq, Repr

/-- The transaction layer (R568-R621). -/
structure Fab where
  links    : List Link := List.replicate 17 {}
  /-- PL_UNPAIRED: the device runs in unpaired mode (R559), and STRAP_PAIR_POS (0, 1, 2 unpaired). -/
  unpaired : Bool := false
  pairPos  : Nat := 2
  /-- The route table in force, 256 × 8 choices of 16 bits by 8 · destination + choice (R582-R584). -/
  routes   : List (Nat × Nat) := []
  /-- Topology heard: device, and its UP ports with their partners (R583). -/
  topo     : List (Nat × List (Nat × Nat)) := []
  /-- Choice used last for a destination (R586). -/
  robin    : List (Nat × Nat) := []
  sent     : List SentMsg := []
  nextOp   : Nat := 1
  /-- MSG_ID given last by destination, and IDs in their 10 ms of rest (R593). -/
  lastId   : List (Nat × Nat) := []
  resting  : List (Nat × Nat) := []
  /-- Next STREAM_SEQ and last activity by destination · 4,096 + stream (R594). -/
  txSeq    : List (Nat × Nat) := []
  txAt     : List (Nat × Nat) := []
  fencing  : List Fencing := []
  ctxs     : List RxCtx := []
  streams  : List RxStream := []
  held     : List RxHeld := []
  rrc      : List RrcTile := []
  rrcOrder : Nat := 1
  /-- First Near tile and tiles of a partition's remote read cache (R607), and RRC_TILES in force. -/
  rrcAt    : List (Nat × Nat × Nat) := []
  /-- Window tables in force, 2,048 bytes each, by partition (R577, R578). -/
  windows  : List (Nat × List Byte) := []
  /-- Events raised this cycle, as (code, subject) (R587, R621). -/
  told     : List (Nat × Nat) := []
  /-- What the pair partner's mirror holds (R784): records by handle, and slot pages by partition and number. -/
  mirReqs  : List (Nat × List Byte) := []
  mirPages : List (Nat × Nat) := []
  /-- DEGRADED_PAIR and PARTNER_SILENT (R785, R786), and when the partner was last heard. -/
  degraded : Bool := false
  silent   : Bool := false
  heardAt  : Nat := 0
  deriving DecidableEq, Repr

/-- States of Meridian time (R660), coded as MER_STATUS.STATE (R675). -/
inductive MerState where
  | freerun | acquiring | locked | twilight | adrift
  deriving DecidableEq, Repr

/-- Meridian time (R652-R680). -/
structure Mer where
  /-- Meridian time in ns and its fraction in 2^-16 ns (R676). -/
  ns       : Nat := 0
  frac     : Nat := 0
  /-- The oscillator's own count in ns since cold reset; steps do not change it. -/
  osc      : Nat := 0
  state    : MerState := .freerun
  /-- SOURCE and PORT (R675): 0 none, 1 PTP, 2 PPS_IN with PTP time of day, 3 with MER_SET's, 4 host. -/
  source   : Nat := 0
  port     : Nat := 0
  slewing  : Bool := false
  /-- Last offset in ps, and the frequency correction in 2^-16 ppb (R677). -/
  offset   : Int := 0
  freq     : Int := 0
  /-- Bound in 10^-9 ps, while in holdover (R661). -/
  bound    : Nat := 0
  /-- MER_NOW_FRAC, latched (R676). -/
  fracLatch : Nat := 0
  /-- Servo updates in a row within 20 ns, and beyond it (R660). -/
  within   : Nat := 0
  beyond   : Nat := 0
  /-- The PTP parent has qualified; its last offsets in ps and their port; UTC offset and clock class it announces. -/
  ptp      : Bool := false
  ptpLast  : List Int := []
  ptpPort  : Nat := 0
  utc      : Int := 37
  parentClass : Nat := 248
  /-- PPS_IN: edges in a row with the right spacing, and qualified (R656). -/
  ppsGood  : Nat := 0
  pps      : Bool := false
  /-- Time of day known from: 0 nothing, 1 PTP, 2 MER_SET (R654). -/
  tod      : Nat := 0
  /-- The host has written within 2 s (R673). -/
  host     : Bool := false
  /-- A step at the next boundary: by an offset in ps (R665), or to a time in ns (R679). -/
  stepBy   : Option Int := none
  stepTo   : Option Nat := none
  /-- The step leads to ACQUIRING, or TWILIGHT, at the end of its step cycle (R665). -/
  toAcq    : Bool := false
  /-- PPS_OUT: high, its width in force in µs, oscillator ns of the last rise (R669-R671). -/
  ppsHigh  : Bool := false
  ppsWidth : Nat := 100
  ppsRise  : Option Nat := none
  /-- SEQUENCE_ID of the next Sync, by port. -/
  syncSeq  : List (Nat × Nat) := []
  deriving DecidableEq, Repr

/-- An operation of a gateway on a queue pair (R616, R617): the fabric operation it carries out. -/
structure GwOp where
  op     : Nat
  ptn    : Nat
  addr   : Nat
  len    : Nat
  raddr  : Nat
  rkey   : Nat
  data   : List Byte := []
  owner  : MemOwner
  /-- First PSN and packets, once sent; bytes of a read that have come. -/
  psn    : Option Nat := none
  pkts   : Nat := 0
  got    : List Byte := []
  sends  : Nat := 0
  sentAt : Nat := 0
  deriving DecidableEq, Repr

/-- A queue pair (R707-R721). -/
structure Qp where
  /-- Device index; its QPN is 0x10_0000 plus it. -/
  ix      : Nat
  ptn     : Nat
  /-- Partition-local index. -/
  local_  : Nat
  state   : Nat := 0
  prio    : Nat := 0
  port    : Nat := 0
  subport : Nat := 0
  mtu     : Nat := 1
  timeout : Nat := 1
  retry   : Nat := 0
  destQp  : Nat := 0
  destGid : Nat := 0
  /-- Next PSN to send, next PSN expected, message sequence number. -/
  sqPsn   : Nat := 0
  rqPsn   : Nat := 0
  msn     : Nat := 0
  ops     : List GwOp := []
  /-- Replay record of atomics: PSN and result, 64 at most (R715). -/
  atomics : List (Nat × Nat) := []
  /-- An inbound RDMA WRITE in progress: address, bytes left, key. -/
  write_  : Option (Nat × Nat × Nat) := none
  /-- DCQCN (R716): rate and rate before the cut in kb/s, α in 2^-16, steps without a CNP, last CNP handled. -/
  rate    : Nat := 0
  rateT   : Nat := 0
  alpha   : Nat := 65536
  steps   : Nat := 0
  cnpAt   : Option Nat := none
  /-- When the last CNP was sent for it. -/
  cnpSent : Option Nat := none
  /-- In the context cache of its home die; a load in progress; packets held; order of use; VERSION (R717-R720). -/
  cached  : Bool := true
  loading : Bool := false
  miss    : List RocePkt := []
  usedAt  : Nat := 0
  version : Nat := 0
  /-- Connection exchange (R710): 0 none, 1 REQ sent, 2 REP sent, 3 connected, 4 DREQ sent. -/
  cm      : Nat := 0
  serviceId : Nat := 0
  deriving DecidableEq, Repr

/-- A memory region (R711). -/
structure Region where
  ix     : Nat
  ptn    : Nat
  addr   : Nat
  len    : Nat
  rights : Nat
  variant : Nat
  deriving DecidableEq, Repr

/-- A PCIe link (R681, R700, R724). -/
structure PxLink where
  role  : Nat := 0
  up    : Bool := false
  rate  : Nat := 0
  width : Nat := 0
  /-- Composition that holds it, vDSP, and whether it is RELEASING, since when in ns; it becomes FREE at the next
  boundary. -/
  bound : Option (Nat × Nat) := none
  releasing : Option Nat := none
  toFree : Bool := false
  /-- GRACE has passed with the slot powered. -/
  grace  : Bool := false
  deriving DecidableEq, Repr

/-- A composition (R698-R703): the record in force, its TDI, its counters in µs with their remainders in ns. -/
structure Comp where
  cfg     : Nat := 0
  tdi     : Nat := 0
  boundUs : Nat := 0
  linkUs  : Nat := 0
  boundNs : Nat := 0
  linkNs  : Nat := 0
  deriving DecidableEq, Repr

/-- A selective IDE stream (R695): stream number, upstream link, function, keys programmed. -/
structure IdeStream where
  id     : Nat
  link   : Nat
  fn     : Nat
  secure : Bool
  deriving DecidableEq, Repr

/-- A request on BAR2 that is carried out (R691-R693): its tiles that have come, with their poisoned words. -/
structure Bar2 where
  ptn    : Nat
  tag    : Nat
  addr   : Nat
  len    : Nat
  atomic : Bool := false
  got    : List (Nat × List Byte × List Nat) := []
  /-- Operation and operands of an atomic. -/
  op     : Nat := 0
  data   : List Byte := []
  deriving DecidableEq, Repr

/-- PCIe ports and RDMA (R681-R728). -/
structure Px where
  links   : List PxLink := List.replicate 12 {}
  comps   : List Comp := List.replicate 32 {}
  /-- A change of composition records waits for the next boundary (R698). -/
  waiting : Bool := false
  ide     : List IdeStream := []
  qps     : List Qp := []
  regions : List Region := []
  /-- Last variant of a key index (R711). -/
  variants : List (Nat × Nat) := []
  /-- Keys whose DEREG waits for accesses to end, with the mailbox that waits: a partition's or the PF's (R711). -/
  leaving : List (Nat × Option Nat) := []
  /-- Packets discarded and counted (R705, R709, R718), requests on BAR2 logged in a VF's AER (R694). -/
  rxDrops : Nat := 0
  aer     : List (Nat × Nat) := []
  bar2    : List Bar2 := []
  use     : Nat := 1
  /-- Requests refused on downstream links (R701). -/
  acsRefused : Nat := 0
  /-- ATS translations in use: invalidations answered (R689). -/
  atsDone : Nat := 0
  deriving DecidableEq, Repr

/-- Partition states (R732), coded as STATE at 0x3000 + 0x10p (R752). -/
inductive PState where
  | vacant | provisioning | active | draining | fenced | scrubbing
  deriving DecidableEq, Repr

/-- A partition (R729-R764). -/
structure Ptn where
  state      : PState := .vacant
  /-- The state recorded at the fence (R732). -/
  before     : PState := .vacant
  fenceCause : Nat := 0
  cmdResult  : Nat := 0
  /-- CONSTELLATIONS: logical numbers owned, ascending (R730). -/
  cons       : List Nat := []
  /-- First Near tiles of the device's own structures of the partition (R436): RSR table,
  page table, heat array, histograms; allocated when it becomes ACTIVE. -/
  rsrTile    : Nat := 0
  pageTile   : Nat := 0
  heatTile   : Nat := 0
  histTile   : Nat := 0
  /-- First Near tile of its serve record table, 256 bytes for each live request (R470). -/
  serveTile  : Nat := 0
  /-- Peer set: (device, partition) (R731). -/
  peers      : List (Nat × Nat) := []
  /-- PTN_CMT: 0 none pending, 1 NEXT_CYCLE pending; RESULT, OFFSET and BUSY (R763). -/
  cmtPending : Bool := false
  cmtResult  : Nat := 0
  cmtOffset  : Nat := 0
  cmtBusy    : Bool := false
  /-- PTN_CRC (R764). -/
  crcRefPending : Option Word := none
  crcLive    : Word := 0
  crcValid   : Bool := false
  crcMatch   : Bool := false
  crcQuiet   : Bool := false
  /-- The 512-bit key of the partition's Far key slot (R444, R445) and its context key of 256 bits (R722); none before the first
  PROVISIONING. -/
  farKey     : Option Nat := none
  ctxKey     : Option Nat := none
  /-- First step of the scrub that has not ended (R737, R738), and stuck steps reported. -/
  scrubStep  : Nat := 0
  stuck      : List Nat := []
  deriving DecidableEq, Repr

/-- An entry of the audit journal (R746). -/
structure Audit where
  seq        : Nat
  time       : Nat
  master     : Nat
  role       : Nat
  refused    : Bool
  overridden : Bool
  kind       : Nat
  index      : Nat
  sub        : Nat
  ptn        : Nat
  old        : Nat
  new        : Nat
  node       : Nat
  deriving DecidableEq, Repr

/-- A master's role (R741-R743). -/
structure Role2 where
  /-- 0 operator, 1 installer, 2 maker. -/
  role     : Nat := 0
  /-- Bus address that holds the elevated role (R878). -/
  node     : Nat := 0
  /-- The nonce last read, when, in ns, and the address that read it. -/
  nonce    : Option (Nat × Nat × Nat) := none
  failed   : Nat := 0
  /-- Failed responses in a row since the last lockout (R742). -/
  streak   : Nat := 0
  lockout  : Bool := false
  deriving DecidableEq, Repr

/-- A write to an object dictionary entry that takes effect at the next cycle boundary (R25, R748). -/
structure OdPend where
  w     : OdSrc
  /-- The role in which it was written (R746). -/
  role  : Nat
  index : Nat
  sub   : Nat
  data  : List Byte
  deriving DecidableEq, Repr

/-- Roles, the audit journal and the object dictionary's values. -/
structure Ctl where
  pfRole   : Role2 := {}
  busRole  : Role2 := {}
  /-- INSTALLER_KEY, 97 bytes, when held (R744). -/
  key      : Option (List Byte) := none
  /-- The Darris image key, 97 bytes, when provisioned (R91). -/
  imageKey : Option (List Byte) := none
  /-- The audit ring of 4,096 entries, oldest first (R745). -/
  audit    : List Audit := []
  auditSeq : Nat := 0
  cursor   : Nat := 0
  /-- Values of numeric object dictionary entries that differ from their defaults, by index · 256 + sub. -/
  od       : List (Nat × Nat) := []
  odPend   : List OdPend := []
  /-- Writes that wait for the Almanac group that holds them: source, index, subindex, and whether that group is being written (R897). -/
  odStore  : List (OdSrc × Nat × Nat × Bool) := []
  /-- OFFSET and LENGTH of 0x8010, by master (R902). -/
  window   : List (Nat × Nat) := [(0, 32), (0, 32)]
  deriving DecidableEq, Repr

/-- A remapped constellation whose replay has not begun (R770-R773): logical number, old and new carrier, drill, the instant from which
the interruption runs, in ns (R767). -/
structure Replay where
  l     : Nat
  old   : Nat
  spare : Nat
  drill : Bool
  since : Nat
  deriving DecidableEq, Repr

/-- A remap that is reported once the repair map is written (R54, R774). -/
structure Remap where
  l       : Nat
  old     : Nat
  new     : Nat
  planned : Bool
  drill   : Bool
  /-- Cause of the DIMMING that a planned remap ends (R777, R778). -/
  cause   : Nat := 0
  deriving DecidableEq, Repr

/-- Faults, containment and recovery (R766-R810). -/
structure Ras where
  /-- A device-fatal fault has stopped the data plane (R788); THERM_TRIP_N is asserted (R978). -/
  fatal    : Bool := false
  tripped  : Bool := false
  /-- The drill records as written (R800), and the drill in progress: its KIND and its constellation or port. -/
  drills   : List Byte := []
  drill    : Option (Nat × Nat) := none
  replays  : List Replay := []
  remaps   : List Remap := []
  /-- Re-admissions in progress, and those that join at the next boundary: physical number, by a drill (R792). -/
  readmits : List (Nat × Bool) := []
  joins    : List (Nat × Bool) := []
  deriving DecidableEq, Repr

/-- A precise record (R914) with the rings it goes to: 32 for the PF ring, p for partition p's. -/
structure Precise where
  record : Nat
  rings  : List Nat
  deriving DecidableEq, Repr

/-- Counters as they stood before the tick that counts in them, for a latch of that tick (R909, R920): the fixed and programmable
counters, those of the ports and of memory, accounting; the state of every partition; MEASURED in pJ, UNALLOC_UJ and the sum of ENERGY_UJ. -/
structure TelWas where
  fixed    : List (Nat × Nat) := []
  prog     : List (Nat × Nat) := []
  port     : List (Nat × Nat) := []
  mem      : List (Nat × Nat) := []
  acct     : List (Nat × Nat) := []
  states   : List PState := []
  measured : Nat := 0
  unalloc  : Nat := 0
  given    : Nat := 0
  deriving DecidableEq, Repr

/-- Telemetry and accounting (R904-R938). Counter tables list the counts that are not 0. -/
structure Tel where
  /-- Programmable counters by logical · 16 + k (R904), and counts that the last heartbeat has not forwarded (R905). -/
  prog     : List (Nat × Nat) := []
  unsent   : List (Nat × Nat) := []
  /-- Counters of port n by 32n + index (R907), and of memory resource r by 16r + index (R908). -/
  port     : List (Nat × Nat) := []
  mem      : List (Nat × Nat) := []
  /-- Port counters 0–15 at the last window boundary, for TEL_BW (R913). -/
  portAt   : List (Nat × Nat) := []
  bw       : List (Nat × Nat) := []
  /-- Accounting counters by 16 · partition + place in R922's order, ECN_RX at 10 (R919). -/
  acct     : List (Nat × Nat) := []
  /-- Activities of the present 100 ms interval (R925), by (32 · part + owner) · 16 + k: part 0–3 a quarter, 4 elsewhere;
  owner 0–31 a partition; partition 32's place, 160 + part, is unallocated. -/
  acts     : List (Nat × Nat) := []
  /-- Energy not yet a whole µJ, by partition, 32 unallocated, in units of pJ ÷ (15 · 2^161) (R926). -/
  remain   : List (Nat × Nat) := []
  /-- Measured energy in pJ, UNALLOC_UJ and the sum of all ENERGY_UJ ever attributed since cold reset; MEASURED_UJ, UNALLOC_UJ
  and that sum at the last snapshot. -/
  measured : Nat := 0
  unalloc  : Nat := 0
  given    : Nat := 0
  atSnap   : List Nat := []
  /-- Measured energy of each rail in the present interval, in pJ, and whether a read failed (R924). -/
  railPj   : List Nat := List.replicate 10 0
  badRead  : Bool := false
  /-- Intervals unmeasured since cold reset (R924, R938). -/
  unmeas   : Nat := 0
  /-- Last 64 measured intervals: energy by rail, then activities in all, as the fit takes them (R927). -/
  fits     : List (List Nat) := []
  /-- Coefficients in force, 120 REAL32 words (R929). -/
  coeffs   : List Word := List.replicate 120 0
  /-- Intervals measured, and in all, since the last snapshot; intervals fitted when it was taken; when it was, in ns. -/
  goodIvs  : Nat := 0
  allIvs   : Nat := 0
  fittedAt : Nat := 0
  snapAt   : Nat := 0
  /-- Window, snapshot and item numbers (R910): window, snapshot, then items by ring. -/
  window   : Nat := 0
  snap     : Nat := 0
  items    : List (Nat × Nat) := []
  /-- Items and precise records dropped since the last item written, by ring (R910, R915), and rings told of in this cycle with the items dropped (R912). -/
  dropped  : List (Nat × Nat) := []
  skips    : List (Nat × Nat) := []
  /-- Precise records of the four quarters (R915). -/
  precise  : List (List Precise) := List.replicate 4 []
  /-- Countdown and LFSR of a sampler: partition p, 32 the PF's (R916, R917). -/
  count    : List (Nat × Nat) := []
  lfsr     : List (Nat × Nat) := []
  /-- Last partition records (R929). -/
  last     : List (Nat × List Byte) := []
  /-- The last tick that has counted, and the counters before it (R909, R920). -/
  wasAt    : Option Nat := none
  was      : TelWas := {}
  deriving DecidableEq, Repr

/-- An object dictionary transfer that is coming in (R879, R880): its source and TXN, its header as a number, its data, the
next SEG. -/
structure OdXfer where
  src   : Nat
  txn   : Nat
  hdr   : Nat
  data  : List Byte
  next  : Nat
  deriving DecidableEq, Repr

/-- The last answer of a source and TXN (R881): the function and header of its request, and the answer's frames. -/
structure OdKept where
  src    : Nat
  txn    : Nat
  func   : Nat
  hdr    : Nat
  frames : List Frame
  deriving DecidableEq, Repr

/-- The management-bus node (R856-R886). -/
structure Mgt where
  bus       : BusState := .unassigned
  /-- SILENT by a search, not by command (R862), and PREV. -/
  bySearch  : Bool := false
  prev      : BusState := .unassigned
  addr      : Nat := 127
  manager   : Nat := 127
  /-- The 250 ms listen runs (R863); address of an ASSIGN not yet confirmed (R866). -/
  listening : Bool := true
  tentative : Option Nat := none
  /-- Frames sent so far of EVENT, HEARTBEAT and TIME, modulo 2,048 (R861). -/
  seqEvent  : Nat := 0
  seqBeat   : Nat := 0
  seqTime   : Nat := 0
  /-- EVENT frames kept in LONE, oldest first (R872). -/
  loneQueue : List Frame := []
  busOff    : Bool := false
  /-- HOT_JOINs that have failed by bit error in succession (R868). -/
  joinFails : Nat := 0
  xfers     : List OdXfer := []
  kept      : List OdKept := []
  deriving DecidableEq, Repr

/-- The Almanac (R888-R902): image bytes by offset, an unlisted byte 0. -/
structure Alm where
  /-- Identity region and field notes, one copy. -/
  fixed   : List (Nat × Byte) := []
  bank0   : List (Nat × Byte) := []
  bank1   : List (Nat × Byte) := []
  /-- The active bank, and whether each bank is valid (R895). -/
  active  : Nat := 0
  valid0  : Bool := true
  valid1  : Bool := false
  /-- Changes of the previous group, and changes that wait for the next one (R896, R897). -/
  last    : List (Nat × Byte) := []
  waiting : List (Nat × Byte) := []
  /-- The wired side holds the write lock for a group, and its changes. -/
  locked  : Bool := false
  group   : List (Nat × Byte) := []
  /-- GEN of the banks, and the header's counts (R890): next fault log entry and entries ever written, next audit tail entry,
  repair records, next fingerprint record. -/
  gen0    : Nat := 1
  gen1    : Nat := 0
  faultHead  : Nat := 0
  faultTotal : Nat := 0
  auditHead  : Nat := 0
  repairs    : Nat := 0
  fprintHead : Nat := 0
  /-- Field side (R899, R902): a field is present, quiet, selected. -/
  field    : Bool := false
  quiet    : Bool := false
  selected : Bool := false
  deriving DecidableEq, Repr

/-- Start-up, Nightfall and the plant (R939-R999). -/
structure Boot where
  /-- GLB_STRAPS [6:0] as latched (R850, R939): PAIR_POS, BOOT, ADDR_MODE, MGT_RATE, SEQ. -/
  straps   : Nat := 2
  /-- GLB_FW and GLB_BOOT (R850). -/
  fw       : Nat := 0
  image    : Nat := 0
  counter  : Bool := false
  /-- The start runs from the PENDING image, whose SVN this is (R952). -/
  trial    : Option Nat := none
  /-- MGMT_READY and DATA_READY (R852), the data plane held in reset (R943, R956), RST_N asserted. -/
  mgmt     : Bool := false
  ready    : Bool := false
  stopped  : Bool := true
  rstN     : Bool := false
  /-- Rails that have come up, by the order of R924, and the running start: it has stopped (R943), it is a recovery (R953), it is warm,
  its path is full (R945), it has passed the rails; its origin in ns of the oscillator. -/
  rails    : List Nat := []
  failed   : Bool := false
  recovery : Bool := false
  warm     : Bool := false
  full     : Bool := false
  passed   : Bool := false
  since    : Nat := 0
  /-- Partitions that are released from DATA_READY, and FINAL records that wait for the PF telemetry ring, with their numbers (R955). -/
  releases : List Nat := []
  finals   : List (Nat × Nat) := []
  /-- Nightfall (R957-R961): NF_STATE, step, slices done in the step, in a hold, SLICE_MS and TOTAL_S in force, its start in ns. -/
  nfState  : Nat := 0
  nfStep   : Nat := 0
  nfSlice  : Nat := 0
  nfHold   : Bool := false
  nfSliceMs : Nat := 50
  nfTotal  : Nat := 30
  nfFrom   : Nat := 0
  /-- UPDATE_CMD 1 has erased the image (R954). -/
  erased   : Bool := false
  /-- Lost reference clocks (R998, R999): 0 REF_25M, 1, 2 REF_156M25_N, S, 3, 4 REF_100M_N, S. -/
  lostRefs : List Nat := []
  /-- Coolant conditions (R982): 0 flow, 1 inlet temperature, 2 FLOW_PULSE, 3 COOLANT_IN_T, 4 COOLANT_OUT_T. -/
  coolant  : List Nat := []
  /-- Integral of the pump loop in m°C, summed over management ticks (R984). -/
  integral : Int := 0
  /-- Since when the inlet has been above 45 °C, and when FLOW_PULSE last showed an edge, in ns of the oscillator (R982). -/
  hotSince : Option Nat := none
  edgeAt   : Nat := 0
  deriving DecidableEq, Repr

/-- The whole state. -/
structure State where
  /-- Commands waiting, first in first out. -/
  pending   : List Instr := []
  /-- What the block has put on its pins, links, buses and host memory, oldest first. -/
  out       : List Out := []
  /-- Counter of free values taken, the model's own. -/
  freeCount : Nat := 0
  regs : Regs := {}
  cons : List Con := List.replicate 160 {}
  qtrs : List Quarter := List.replicate 4 {}
  eph  : Eph := {}
  work : Work := {}
  tabs : TabEng := {}
  mem  : Mem := {}
  serve : Serve := {}
  fab  : Fab := {}
  px   : Px := {}
  ptns : List Ptn := List.replicate 32 {}
  ctl  : Ctl := {}
  mgt  : Mgt := {}
  alm  : Alm := {}
  tel  : Tel := {}
  mer  : Mer := {}
  ras  : Ras := {}
  boot : Boot := {}
  deriving DecidableEq, Repr

/-- The constellation at a physical place on a new part: the homes of a quarter lie first in it, 38, 38, 37 and 37 of them, in
ascending logical order, and the rest are its spares (R45–R47; DESIGN CHOICE: which places hold the spares is the part's map). -/
def Con.atReset (phys : Nat) : Con :=
  if phys % 40 < homeCount (phys / 40) then { role := .enabled, logical := some (homeFirst (phys / 40) + phys % 40) } else { role := .spare }

/-- The repair map's entry of a physical constellation in the map above (R891). -/
def resetMapEntry (phys : Nat) : List (Nat × Byte) :=
  let l := homeFirst (phys / 40) + phys % 40
  if phys % 40 < homeCount (phys / 40) then (if l = 0 then [] else [(0x800 + 2 * phys, BitVec.ofNat 8 l)])
  else [(0x800 + 2 * phys, 0xFF), (0x801 + 2 * phys, 1)]
/-- The Almanac of a new part (R889–R893; DESIGN CHOICE: serial number 1, an empty rail map, no stored address, no key, no pending
image). The words from 0xE828 are the CRCs that R890 and R950 ask for. -/
def Alm.atReset : Alm where
  fixed := [(0x00, 0x15), (0x01, 0x09), (0x02, 0xB0), (0x03, 0x4C), (0x08, 1), (0xC0, 60), (0xC1, 60), (0xC2, 60), (0xC3, 60)]
  bank0 := ((List.range 160).map resetMapEntry).flatten ++
    [(0xE800, 0x41), (0xE801, 0x4C), (0xE802, 0x4E), (0xE803, 0x31), (0xE804, 0x01), (0xE828, 0x03), (0xE829, 0x25), (0xE82A, 0x80),
     (0xE82B, 0x94), (0xE82C, 0xAD), (0xE82D, 0xBA), (0xE82E, 0x43), (0xE82F, 0xBC), (0xE830, 0x23), (0xE831, 0x46), (0xE832, 0x44),
     (0xE833, 0x90), (0xE834, 0x30), (0xE835, 0xE7), (0xE836, 0xAB), (0xE837, 0x45)] ++
    [(0xE8FC, 0xF3), (0xE8FD, 0x22), (0xE8FE, 0x76), (0xE8FF, 0x75), (0xE900, 0x7F), (0xE901, 0x7F), (0xE941, 0xFF), (0xE97C, 0x5E),
     (0xE97D, 0xE6), (0xE97E, 0xBC), (0xE97F, 0xD9)]

/-- The block right after a cold reset, before its boot ROM has run: the Almanac of a new part, the registers at the values of
their tables, the straps of an unpaired device (DESIGN CHOICE), the pair link OFF because it is unpaired (R558, R566), and nothing
started. What a field's default does not say stands here. -/
def State.reset : State :=
  { cons := (List.range 160).map Con.atReset,
    regs := { store := [(0x500000, 0)] },
    alm := Alm.atReset }

/-- Change the `regs` part. -/
def State.modRegs (s : State) (f : Regs → Regs) : State := { s with regs := f s.regs }
/-- Change the `cons` part. -/
def State.modCons (s : State) (f : List Con → List Con) : State := { s with cons := f s.cons }
/-- Change the `qtrs` part. -/
def State.modQtrs (s : State) (f : List Quarter → List Quarter) : State := { s with qtrs := f s.qtrs }
/-- Change the `eph` part. -/
def State.modEph (s : State) (f : Eph → Eph) : State := { s with eph := f s.eph }
/-- Change the `work` part. -/
def State.modWork (s : State) (f : Work → Work) : State := { s with work := f s.work }
/-- Change the `tabs` part. -/
def State.modTabs (s : State) (f : TabEng → TabEng) : State := { s with tabs := f s.tabs }
/-- Change the `mem` part. -/
def State.modMem (s : State) (f : Mem → Mem) : State := { s with mem := f s.mem }
/-- Change the `serve` part. -/
def State.modServe (s : State) (f : Serve → Serve) : State := { s with serve := f s.serve }
/-- Change the `fab` part. -/
def State.modFab (s : State) (f : Fab → Fab) : State := { s with fab := f s.fab }
/-- Change the `px` part. -/
def State.modPx (s : State) (f : Px → Px) : State := { s with px := f s.px }
/-- Change the `ptns` part. -/
def State.modPtns (s : State) (f : List Ptn → List Ptn) : State := { s with ptns := f s.ptns }
/-- Change the `ctl` part. -/
def State.modCtl (s : State) (f : Ctl → Ctl) : State := { s with ctl := f s.ctl }
/-- Change the `mgt` part. -/
def State.modMgt (s : State) (f : Mgt → Mgt) : State := { s with mgt := f s.mgt }
/-- Change the `alm` part. -/
def State.modAlm (s : State) (f : Alm → Alm) : State := { s with alm := f s.alm }
/-- Change the `tel` part. -/
def State.modTel (s : State) (f : Tel → Tel) : State := { s with tel := f s.tel }
/-- Change the `mer` part. -/
def State.modMer (s : State) (f : Mer → Mer) : State := { s with mer := f s.mer }
/-- Change the `ras` part. -/
def State.modRas (s : State) (f : Ras → Ras) : State := { s with ras := f s.ras }
/-- Change the `boot` part. -/
def State.modBoot (s : State) (f : Boot → Boot) : State := { s with boot := f s.boot }

end Sys2Proof.Machine
end

