-- ==== Sys2Proof/Machine/Ops.lean ====
section
/-! DEFINITION. The shared operations over the state: registers, outbound rings, MSI-X, events and
the bus copies of events, ring indices of inbound rings, time and free values. -/

namespace Sys2Proof.Machine
open Sys2Proof

/-- Send something out. -/
def emit (s : State) (o : Out) : State := { s with out := s.out ++ [o] }

/-- Meridian time in ns. -/
def now (s : State) : Nat := s.mer.ns

/-- The value in force of a register (R13, R825). -/
def getReg (s : State) (off : Nat) : Word := sget resetValue s.regs.store off
/-- Set the value in force of a register. -/
def setReg (s : State) (off : Nat) (v : Word) : State :=
  s.modRegs fun r => { r with store := sset resetValue r.store off v }
/-- A field of the value in force. -/
def regFld (s : State) (off lo n : Nat) : Nat := fld (getReg s off) lo n
/-- The holding latch of a 64-bit pair, by the offset of its LO (R816). -/
def latchGet (s : State) (off : Nat) : Word := sget (fun _ => 0) s.regs.latch off
def latchSet (s : State) (off : Nat) (v : Word) : State := s.modRegs fun r => { r with latch := sput r.latch off v }
/-- What has been set and counted in the present tick, forgotten once the tick is over (R14, R15). -/
def sameTick (s : State) : State :=
  if s.regs.tickAt = s.mer.osc then s else s.modRegs fun r => { r with tickAt := s.mer.osc, setNow := 0, rcNow := [], doneNow := [] }
/-- An RC register counts up or rises: its value before this tick is kept for a read of the same tick, with what the tick has brought,
to which `f` adds (R15). -/
def noteRc (s : State) (off : Nat) (f : Nat → Nat) : State :=
  if !((regInfo off).any fun i => i.rc != 0) then s
  else
    let s1 := sameTick s
    let add (l : List (Nat × Word × Nat)) : List (Nat × Word × Nat) :=
      if l.any (·.1 == off) then updIf (·.1 == off) (fun e => (off, e.2.1, f e.2.2)) l else l ++ [(off, getReg s off, f 0)]
    s1.modRegs fun r => { r with rcNow := add r.rcNow }
/-- Count one more in a saturating 32-bit counter register (R145, R461, R565, R809). -/
def bumpReg (s : State) (off : Nat) (n : Nat := 1) : State :=
  setReg (noteRc s off (· + n)) off (BitVec.ofNat 32 (sat 0xFFFFFFFF ((getReg s off).toNat + n)))
/-- Raise a high-water mark register; a read of the tick in which it rises returns the old mark and leaves the new one (R15, R643). -/
def raiseReg (s : State) (off v : Nat) : State :=
  if (getReg s off).toNat < v then setReg (noteRc s off (Nat.max (sat 0xFFFFFFFF v))) off (BitVec.ofNat 32 (sat 0xFFFFFFFF v)) else s

/-- Key of an object dictionary entry, its value in force, and writes of it. -/
def odKey (idx sub : Nat) : Nat := idx * 256 + sub
def odGet (s : State) (idx sub : Nat) : Nat := sget odDefault s.ctl.od (odKey idx sub)
def odSet (s : State) (idx sub v : Nat) : State :=
  s.modCtl fun c => { c with od := sset odDefault c.od (odKey idx sub) v }
/-- Count in a saturating 32-bit counter of the object dictionary. -/
def odCount (s : State) (idx sub : Nat) (n : Nat := 1) : State := odSet s idx sub (sat 0xFFFFFFFF (odGet s idx sub + n))
/-- Raise a high-water mark of the object dictionary. -/
def odRaise (s : State) (idx sub v : Nat) : State := if odGet s idx sub < v then odSet s idx sub v else s

/-- Send an MSI-X message, or set its pending bit while the vector is masked (R842). -/
def msix (s : State) (fn vector : Nat) : State :=
  if s.regs.msixOpen.contains (fn, vector) then emit s (.msix fn vector)
  else if s.regs.msixPending.contains (fn, vector) then s
  else s.modRegs fun r => { r with msixPending := r.msixPending ++ [(fn, vector)] }

/-- Bits of a W1C register that a write of 1 does not clear, because the block has set them in the same tick (R14). -/
def heldSet (s : State) (off : Nat) : Word := if off = 0x400 && s.regs.tickAt = s.mer.osc then s.regs.setNow else 0
/-- Set bit `i` of GLB_INT_STATUS; vector 9 follows a rise of an enabled bit (R843, R855). -/
def setInt (s : State) (i : Nat) : State :=
  let old := getReg s 0x400
  let s1 := (setReg (sameTick s) 0x400 (old ||| (1#32 <<< i))).modRegs fun r => { r with setNow := r.setNow ||| (1#32 <<< i) }
  if !old.getLsbD i && (getReg s 0x404).getLsbD i then msix s1 0 9 else s1

/-- The counters as they stand. -/
def telNow (s : State) : TelWas :=
  { fixed := s.work.counters, prog := s.tel.prog, port := s.tel.port, mem := s.tel.mem, acct := s.tel.acct, states := s.ptns.map (·.state),
    measured := s.tel.measured, unalloc := s.tel.unalloc, given := s.tel.given }
/-- What a latch takes: the counters without the counts of its own tick, which fall into the next interval (R909, R920). -/
def telLatched (s : State) : TelWas := if s.tel.wasAt = some s.mer.osc then s.tel.was else telNow s
/-- The first count of a tick keeps the counters as they stood, for a latch of that tick (R909, R920). -/
def telMark (s : State) : State := s.modTel fun t => { t with wasAt := some s.mer.osc, was := telLatched s }
/-- Count in a 48-bit counter of a port (R907), of a memory resource (R908), of a logical constellation (R906). -/
def add48 (m : List (Nat × Nat)) (k n : Nat) : List (Nat × Nat) := cntSet m k ((cnt m k + n) % 2 ^ 48)
def telPort (s : State) (port ix : Nat) (n : Nat := 1) : State := (telMark s).modTel fun t => { t with port := add48 t.port (32 * port + ix) n }
def telMem (s : State) (r ix : Nat) (n : Nat := 1) : State := (telMark s).modTel fun t => { t with mem := add48 t.mem (16 * r + ix) n }
/-- Count for a partition in an accounting counter of R919, in the order of R922. -/
def telAcct (s : State) (p ix n : Nat) : State := (telMark s).modTel fun t => { t with acct := cntSet t.acct (16 * p + ix) (cnt t.acct (16 * p + ix) + n) }
/-- Count an activity of R925: part 0-3 a quarter, 4 elsewhere; the partition that caused it, or none. -/
def telAct (s : State) (part : Nat) (p : Option Nat) (k n : Nat) : State :=
  let key := (match p with | some p => 32 * part + p | none => 160 + part) * 16 + k
  s.modTel fun t => { t with acts := cntSet t.acts key (cnt t.acts key + n) }
/-- DMA payload bytes of a partition's function: written to host memory (7) or read from it (8) (R919, R925). -/
def telDma (s : State) (p : Option Nat) (ix n : Nat) : State :=
  match p with
  | some p => telAct (telAcct s p ix n) 4 (some p) 10 n
  | none => telAct s 4 none 10 n
/-- The upstream link of the primary PF, or of a partition's composition (R685, R688). -/
def hostLink (s : State) : Option Nat → Option Nat
  | none => s.px.links.findIdx? (·.role == 1)
  | some p =>
    let c := (s.px.comps.getD p {}).cfg
    if bit c 0 then some (bits c 1 4) else none
/-- Whether an upstream link is down. -/
def hostDown (s : State) (p : Option Nat) : Bool :=
  match hostLink s p with
  | some l => (s.px.links.getD l {}).role == 1 && !(s.px.links.getD l {}).up
  | none => false
/-- A partition's DMA runs only in its PCIe MOVER entries, and not while it is fenced (R690, R734). -/
def dmaOpen (s : State) (p : Nat) : Bool :=
  let st := (s.ptns.getD p {}).state
  s.eph.pcie.any (·.2.2 == p) && !(st == .fenced || st == .scrubbing)
/-- Whether writes to the host memory of a function wait: the PF's for its link, a partition's also for its DMA. -/
def dmaHeld (s : State) (p : Option Nat) : Bool := (match p with | some p => !dmaOpen s p | none => false) || hostDown s p
/-- The PASID that a partition's DMA carries, from PTN_PASID (R688, R756). -/
def pasidOf (s : State) (p : Option Nat) : Option Nat := p.bind fun p => if (getReg s (winBase p + 8)).getLsbD 20 then some (regFld s (winBase p + 8) 0 20) else none
/-- Bytes written to host memory through the function of a partition at once. -/
def hostPut (s : State) (p : Option Nat) (addr : Nat) (bs : List Byte) : State := telDma (emit s (.host p (pasidOf s p) addr bs)) p 7 bs.length
/-- Bytes for host memory: written at once, or when a partition's DMA next runs (R690). -/
def hostWrite (s : State) (p : Nat) (addr : Nat) (bs : List Byte) : State :=
  if dmaHeld s (some p) then s.modRegs fun g => { g with dmaWait := g.dmaWait ++ [(p, addr, bs)] } else hostPut s (some p) addr bs
/-- The partition of a window ring, none for the PF's, and the bytes of its entries (R757, R844, R934, R937). -/
def ringPtn (ring : Nat) : Option Nat := if ring < 0x1000000 then none else some ((ring - 0x1000000) / 0x10000)
def ringBytes (ring : Nat) : Nat :=
  if ring < 0x1000000 then (if ring = pfTelRing then 64 else [128, 64, 64, 32, 32, 128, 128, 512, 512].getD ((ring - 0x1000) / 0x20) 32)
  else let o := (ring - 0x1000000) % 0x10000
       if o = 0x800 then 64 else [128, 64, 64, 32, 16, 32].getD ((o - 0x100) / 0x20) 32

/-- The PROD (outbound) or CONS (inbound) index that the block keeps for a ring (R757). -/
def ringIx (s : State) (ring : Nat) : Nat := cnt s.regs.ringIndex ring
def ringEn (s : State) (ring : Nat) : Bool := (getReg s (ring + 8)).getLsbD 5
def ringSize (s : State) (ring : Nat) : Nat := 2 ^ regFld s (ring + 8) 0 5
/-- Free entries of an outbound ring (R758). -/
def ringFree (s : State) (ring : Nat) : Nat :=
  if ringEn s ring then
    ringSize s ring - (ringIx s ring + 2 ^ 20 - regFld s (ring + 0x10) 0 20) % 2 ^ 20
  else 0

/-- MSI-X function and vector of a ring (R841, R937); the PF telemetry ring has none (R934). -/
def ringVector (ring : Nat) : Option (Nat × Nat) :=
  if ring < 0x100000 then some (0, (ring - 0x1000) / 0x20)
  else if ring < 0x1000000 then none
  else
    let o := (ring - 0x1000000) % 0x10000
    some ((ring - 0x1000000) / 0x10000 + 1, if o = 0x800 then 6 else (o - 0x100) / 0x20)

/-- The upstream link of a ring. -/
def ringLink (s : State) (ring : Nat) : Option Nat := hostLink s (ringPtn ring)
/-- Ring writes are held while the upstream link is down, and outside the partition's DMA (R501, R690, R734). -/
def ringHeld (s : State) (ring : Nat) : Bool := dmaHeld s (ringPtn ring)
/-- The 32 bytes of an event record with PHASE, LOST and DROPPED 0 (R837); each value of the payload takes 32 bits (DESIGN
CHOICE: the tables give no widths). -/
def eventBytes (e : Event) (time : Nat) : List Byte :=
  let w := e.cls + e.code * 2 ^ 8 + (match e.ptn with | some p => 2 ^ 17 + p * 2 ^ 18 | none => 0)
  leBytes 3 w ++ leBytes 3 e.uid ++ [0, 0] ++ leBytes 8 time ++ ((List.range 4).map fun i => leBytes 4 (e.payload.getD i 0)).flatten
/-- A number from fields given as (width, value), the first in the lowest bits. -/
def packBits : List (Nat × Nat) → Nat
  | [] => 0
  | (w, v) :: r => v % 2 ^ w + 2 ^ w * packBits r
/-- Bytes of one value in the body of a telemetry item: a counter, a record of R922, R914 or R917 (R911). -/
def telBodyBytes (kind v : Nat) : List Byte := leBytes (match kind with | 1 => 8 | 2 => 128 | 3 => 32 | _ => 64) v
/-- The bytes of a record as they stand in its ring, with its PHASE (R171, R174, R175, R358, R472, R499, R837, R845, R846, R910). The Q_Key of
a datagram is that of QP1 (PRESUMED, log 71). -/
def recBytes (phase : Bool) : Rec → List Byte
  | .event e time lost dropped =>
    let b := eventBytes e time
    leBytes 3 (leAt b 0 3 + b2n phase * 2 ^ 16 + b2n lost * 2 ^ 23) ++ bytesAt b 3 3 ++ leBytes 2 dropped ++ bytesAt b 8 24
  | .completion c => leBytes 32 (packBits [(8, c.status), (8, c.rtype), (8, c.attempt), (1, b2n phase), (7, 0), (24, c.uid), (8, 0), (32, c.tag), (32, c.request),
      (16, c.epoch), (18, c.instances), (30, 0), (32, c.detail), (32, c.cycle)])
  | .token handle token index final logits reason epoch => leBytes 16 (packBits [(32, handle), (32, token), (32, index), (1, b2n phase), (1, b2n final),
      (1, b2n logits), (1, 0), (4, reason), (8, 0), (16, epoch)])
  | .request status rtype op handle tag epoch index length charged cycle => leBytes 32 (packBits [(8, status), (8, rtype), (8, op), (1, b2n phase), (7, 0),
      (32, handle), (32, tag), (16, epoch), (16, 0), (32, index), (32, length), (32, charged), (32, cycle)])
  | .move status rtype request tag epoch peer peerHandle done skipped failed cycle => leBytes 32 (packBits [(8, status), (8, rtype), (8, 0), (1, b2n phase), (7, 0),
      (32, request), (32, tag), (16, epoch), (8, peer), (8, 0), (32, peerHandle), (24, done), (24, skipped), (24, failed), (24, cycle)])
  | .unitStatus f => leBytes 32 (packBits ((8, 0) :: (8, 0x82) :: List.zip [24, 2, 2, 1, 1, 5, 1, 12, 32, 32, 32, 32, 32, 32] f))
  | .counters uid part values => leBytes 8 (packBits [(8, 0), (8, 0x84), (8, part), (1, b2n phase), (7, 0), (24, uid), (8, 0)])
      ++ ((List.range 4).map fun i => leBytes 6 (values.getD i 0)).flatten
  | .telemetry kind h entries values =>
    let f (i : Nat) : Nat := h.getD i 0
    leBytes 64 (packBits [(8, kind), (1, b2n phase), (1, f 0), (1, f 1), (5, 0), (16, f 2), (32, entries), (64, f 3), (48, f 4), (32, f 5)])
      ++ padTo (64 * entries) ((values.map (telBodyBytes kind)).flatten)
  | .ptpRx port transport egress cookie tsNs tsFrac msg =>
    padTo 128 (leBytes 32 (packBits [(5, port), (2, transport), (1, b2n egress), (1, b2n phase), (7, 0), (16, msg.length), (32, cookie), (64, tsNs), (16, tsFrac)]) ++ msg)
  | .cmRx port subport qpn gid body =>
    padTo 512 (leBytes 4 (packBits [(5, port), (2, subport), (1, b2n phase)]) ++ leBytes 4 (qpn % 2 ^ 24) ++ leBytes 8 0 ++ leBytes 16 gid ++ leBytes 4 0x80010000
      ++ leBytes 28 0 ++ body)
/-- Entries of its ring that a record takes (R910). -/
def recEntries : Rec → Nat
  | .telemetry _ _ n _ => 1 + n
  | _ => 1
/-- Entries of the records that wait for a ring. -/
def ringWaits (s : State) (ring : Nat) : Nat := sumN ((s.regs.waiting.filter (·.1 == ring)).map fun w => recEntries w.2)
/-- Write one record to an outbound ring that has room: the record, then PROD, then the message (R842). -/
def ringPut (s : State) (ring : Nat) (r : Rec) : State :=
  let ix := ringIx s ring
  let n := cnt s.regs.ringCount ring
  let size := ringSize s ring
  let s1 := telDma (emit s (.ring ring (ix % size) (n / size % 2 == 0) r (recBytes (n / size % 2 == 0) r) (pasidOf s (ringPtn ring)))) (ringPtn ring) 7 (ringBytes ring * recEntries r)
  let s2 := s1.modRegs fun g => { g with
    ringIndex := cntSet g.ringIndex ring ((ix + recEntries r) % 2 ^ 20), ringCount := cntSet g.ringCount ring (n + recEntries r) }
  if (getReg s (ring + 8)).getLsbD 6 then
    match ringVector ring with
    | some (fn, v) => msix s2 fn v
    | none => s2
  else s2

/-- Write a record other than an event: at once when the ring has room, later when it is full; nothing
is written to a ring that is not enabled (R501, R758). -/
def ringWrite (s : State) (ring : Nat) (r : Rec) : State :=
  if !ringEn s ring then s
  else if ringFree s ring = 0 || ringHeld s ring || ringWaits s ring != 0 then
    s.modRegs fun g => { g with waiting := g.waiting ++ [(ring, r)] }
  else ringPut s ring r
/-- Whether a record is the completion of a task, a report that stands ahead of it, or a token record. -/
def isTaskRec : Rec → Bool
  | .completion _ | .unitStatus _ | .counters .. | .token .. => true
  | _ => false
/-- Records put one by one into places of a list. -/
def putRecs {α : Type} (is : α → Bool) (put : α → Rec → α) : List α → List Rec → List α
  | [], _ => []
  | a :: r, vs => match is a, vs with
    | true, v :: vs' => put a v :: putRecs is put r vs'
    | true, [] => a :: r
    | false, _ => a :: putRecs is put r vs
/-- The records of tasks that one tick writes to a ring stand in the order of R172, its token records in ascending handles (R500), those written
and those that wait. -/
def orderDone (s : State) (ring : Nat) : State :=
  let mine := s.regs.doneNow.filter (·.1 == ring)
  let new := (sortBy (·.2.1) mine).map (·.2.2)
  let waits (w : Nat × Rec) : Bool := w.1 == ring && isTaskRec w.2
  let k := new.length - Nat.min new.length (s.regs.waiting.filter waits).length
  let here (o : Out) : Bool := match o with | .ring g _ _ r _ _ => g == ring && isTaskRec r | _ => false
  let put (o : Out) (r : Rec) : Out := match o with | .ring g n ph _ _ id => .ring g n ph r (recBytes ph r) id | o => o
  if new == mine.map (·.2.2) then s
  else { s with
    out := (putRecs here put s.out.reverse (new.take k).reverse).reverse
    regs := { s.regs with
      doneNow := (s.regs.doneNow.filter (·.1 != ring)) ++ sortBy (·.2.1) mine
      waiting := (putRecs waits (fun w r => (w.1, r)) s.regs.waiting.reverse (new.drop k).reverse).reverse } }
/-- Write a record of a task or of a token, at its place among those of its tick (R172, R500). -/
def taskWrite (s : State) (ring place : Nat) (r : Rec) : State :=
  if !ringEn s ring then s
  else orderDone ((ringWrite (sameTick s) ring r).modRegs fun g => { g with doneNow := g.doneNow ++ [(ring, place, r)] }) ring
/-- A request's handle (R221). -/
def Req.handle (r : Req) : Nat := r.ptn * 2 ^ 27 + r.gen * 2 ^ 18 + r.slot
/-- The states in which a request has ended and waits for its completion to be written (R230). -/
def RState.over : RState → Bool
  | .done | .cancelled | .failed => true
  | _ => false
/-- Whether a record is the completion that ends a request. -/
def endsReq (h : Nat) : Rec → Bool
  | .request _ rtype _ handle _ _ _ _ _ _ => rtype == 0x21 && handle == h
  | _ => false
/-- Ended requests whose completion no longer waits become free (R230). -/
def sweepReqs (s : State) : State :=
  s.modServe fun w =>
    let gone := w.reqs.filter fun r => r.state.over && !(s.regs.waiting.any fun x => endsReq r.handle x.2)
    { w with
      reqs := w.reqs.filter fun r => !gone.contains r, gens := gone.foldl (fun m r => cntSet m (r.ptn * 2 ^ 18 + r.slot) r.gen) w.gens,
      rsrCache := w.rsrCache.filter fun c => !(gone.any fun r => c == (r.ptn, r.slot)) }
/-- Write the waiting records of a ring that has room again, in their order. -/
def ringDrain (s : State) (ring : Nat) : State :=
  let ws := s.regs.waiting.filter (·.1 == ring)
  let s0 := s.modRegs fun g => { g with waiting := g.waiting.filter (·.1 != ring) }
  sweepReqs (ws.foldl (fun s w =>
    if ringHeld s ring || ringWaits s ring != 0 || ringFree s ring < recEntries w.2 then s.modRegs fun g => { g with waiting := g.waiting ++ [w] }
    else ringPut s ring w.2) s0)

/-- A partition's DMA runs: the host writes that waited go, then the records (R690). -/
def drainDma (s : State) (p : Nat) : State :=
  if dmaHeld s (some p) then s
  else
    let mine := s.regs.dmaWait.filter (·.1 == p)
    let s1 := mine.foldl (fun s w => hostPut s (some p) w.2.1 w.2.2) (s.modRegs fun g => { g with dmaWait := g.dmaWait.filter (·.1 != p) })
    ((s1.regs.waiting.map (·.1)).eraseDups.filter fun r => ringPtn r == some p).foldl ringDrain s1

/-- The block has read `n` entries of an inbound ring: CONS advances (R757). -/
def ringTake (s : State) (ring : Nat) (n : Nat := 1) : State :=
  telDma (s.modRegs fun g => { g with
    ringIndex := cntSet g.ringIndex ring ((cnt g.ringIndex ring + n) % 2 ^ 20), reads := cntSet g.reads ring (cnt g.reads ring + n) }) (ringPtn ring) 8 (n * ringBytes ring)

/-- The event of this tick that a record holds. -/
def tickEvent (s : State) : Rec → Option Event
  | .event e t _ _ => if t = now s then some e else none
  | _ => none
/-- The same record with another event; LOST and DROPPED belong to the place (R839). -/
def withEvent (e : Event) : Rec → Rec
  | .event _ t lost dropped => .event e t lost dropped
  | r => r
/-- Events put one by one into the places that hold one. -/
def replaceEvents {α : Type} (get : α → Option Event) (put : α → Event → α) : List α → List Event → List α
  | [], _ => []
  | a :: r, es => match get a, es with
    | some _, e :: es' => put a e :: replaceEvents get put r es'
    | _, _ => a :: replaceEvents get put r es
/-- The events of a list in ascending CLASS, then CODE (R840). -/
def orderEvents {α : Type} (get : α → Option Event) (put : α → Event → α) (l : List α) : List α :=
  replaceEvents get put l (sortBy (fun e => e.cls * 256 + e.code) (l.filterMap get))
/-- The event of this tick that was written to a ring, and another in its place. -/
def outEvent (s : State) (ring : Nat) : Out → Option Event
  | .ring g _ _ r _ _ => if g = ring then tickEvent s r else none
  | _ => none
def putOutEvent (o : Out) (e : Event) : Out :=
  match o with
  | .ring g n ph r _ id => .ring g n ph (withEvent e r) (recBytes ph (withEvent e r)) id
  | o => o
/-- Events of one ring and tick stand in ascending CLASS, then CODE, those written and those that wait (R840). -/
def orderTick (s : State) (ring : Nat) : State :=
  { s with
    out := orderEvents (outEvent s ring) putOutEvent s.out
    regs := { s.regs with
      waiting := orderEvents (fun w => if w.1 = ring then tickEvent s w.2 else none) (fun w e => (w.1, withEvent e w.2)) s.regs.waiting } }
/-- Write an event to a ring, or drop and count it (R839); it waits while the upstream link is down. -/
def eventTo (s : State) (ring : Nat) (e : Event) : State :=
  let d := cnt s.regs.ringDrop ring
  if ringFree s ring ≤ ringWaits s ring then
    let s1 := s.modRegs fun g => { g with ringDrop := cntSet g.ringDrop ring (d + 1) }
    if ring = pfRing 4 then setInt s1 4 else s1
  else
    let r := Rec.event e (now s) (d != 0) (sat 65535 d)
    let s1 := s.modRegs fun g => { g with ringDrop := cntSet g.ringDrop ring 0 }
    orderTick (if ringHeld s ring || ringWaits s ring != 0 then s1.modRegs fun g => { g with waiting := g.waiting ++ [(ring, r)] } else ringPut s1 ring r) ring

/-- A frame goes out on the bus and is acknowledged (R887): a frame that is not comes as ACK_ERROR_LIMIT. -/
def sendFrame (s : State) (f : Frame) : State := odCount (emit s (.can f)) 0x1020 2
/-- Send an event as an EVENT frame to the manager when its class bit is set (R875); in LONE it is queued, 64 frames at most,
dropping the oldest (R872); a node without an address sends none. -/
def busEvent (s : State) (e : Event) : State :=
  if !bit (odGet s 0x1010 6) e.cls then s
  else
    let f : Frame := { func := 2, dest := if s.mgt.manager = 127 then 0 else s.mgt.manager, src := s.mgt.addr, seq := s.mgt.seqEvent, data := eventBytes e (now s) }
    let s1 := s.modMgt fun m => { m with seqEvent := (m.seqEvent + 1) % 2048 }
    match s.mgt.bus with
    | .assigned => if s.mgt.busOff then s1 else sendFrame s1 f
    | .lone =>
      if s.mgt.loneQueue.length < 64 then s1.modMgt fun m => { m with loneQueue := m.loneQueue ++ [f] }
      else odCount (s1.modMgt fun m => { m with loneQueue := m.loneQueue.drop 1 ++ [f] }) 0x1020 7
    | _ => s

/-- Changes of the Almanac's banked regions for the next group write (R896, R897). -/
def almQueue (s : State) (off : Nat) (bs : List Byte) : State :=
  s.modAlm fun a => { a with waiting := (bs.mapIdx fun i b => (off + i, b)).foldl (fun m e => sput m e.1 e.2) a.waiting }
/-- Events that the fault log receives (R892). -/
def faultLogged (e : Event) : Bool :=
  e.cls == 0xB || (e.cls == 0xC && e.code == 1) || (e.cls == 2 && (e.code == 1 || e.code == 3)) || (e.cls == 6 && e.code == 2 && e.payload.getD 1 0 != 7)
def logFault (s : State) (e : Event) : State :=
  if !faultLogged e then s
  else (almQueue s (0x4800 + 32 * s.alm.faultHead) (eventBytes e (now s))).modAlm fun a => { a with
    faultHead := (a.faultHead + 1) % 1024, faultTotal := sat 0xFFFFFFFF (a.faultTotal + 1) }
/-- Raise an event to the PF: its event ring, the management bus and the fault log (R839, R875, R892). -/
def raisePf (s : State) (e : Event) : State := logFault (busEvent (eventTo s (pfRing 4) e) e) e
/-- Raise an event to a partition's event ring (R839). -/
def raisePtn (s : State) (p : Nat) (e : Event) : State := eventTo s (winRing p 5) { e with ptn := some p }
/-- Raise an event about a partition to the PF and to the partition. -/
def raiseBoth (s : State) (p : Nat) (e : Event) : State :=
  raisePtn (raisePf s { e with ptn := some p }) p e

/-- Programmable counters of a logical constellation that count an event (R906). -/
def progCount (s : State) (l ev n : Nat) : State :=
  if n = 0 then s
  else (List.range 16).foldl (fun s k =>
    if regFld s (0x601000 + 64 * l + 4 * k) 0 8 = ev then s.modTel fun t => { t with unsent := add48 t.unsent (16 * l + k) n } else s) s
/-- Count a link counter of R565 or a queue counter of R649, with its copy in R907. -/
def linkCount (s : State) (port i : Nat) (n : Nat := 1) : State := telPort (bumpReg s (portBase port + 0x100 + 4 * i) n) port (16 + i) n
def qsCount (s : State) (port i : Nat) : State := telPort (bumpReg s (portBase port + 0x2A0 + 4 * i)) port (24 + i)

/-- A byte of the Almanac's image (R888): banked regions from the active bank (R895). -/
def almBanked (off : Nat) : Bool := 0x800 ≤ off && off < 0xFC00
def almByte (s : State) (off : Nat) : Byte :=
  sget (fun _ => 0) (if !almBanked off then s.alm.fixed else if s.alm.active = 0 then s.alm.bank0 else s.alm.bank1) off
def almBytes (s : State) (off n : Nat) : List Byte := (List.range n).map fun i => almByte s (off + i)
/-- The 64-bit serial (R889), GLB_SERIAL. -/
def serial (s : State) : Nat := leNat (almBytes s 8 8)

/-- A byte of the Almanac as the device holds it: with the changes of the group being written and those that wait (R896). -/
def almNow (s : State) (off : Nat) : Byte :=
  match s.alm.waiting.find? (·.1 == off), (if s.alm.locked then s.alm.group.find? (·.1 == off) else none) with
  | some e, _ => e.2
  | none, some e => e.2
  | none, none => almByte s off
def almNum (s : State) (off n : Nat) : Nat := leNat ((List.range n).map fun i => almNow s (off + i))
/-- The data plane is stopped: by a device-fatal fault (R788), or held in reset (R943, R956). -/
def halted (s : State) : Bool := s.ras.fatal || s.boot.stopped

/-- Take a fresh number for a free value; what the value is, `Config.free` leaves open. -/
def fresh (s : State) : Nat × State := (s.freeCount, { s with freeCount := s.freeCount + 1 })

end Sys2Proof.Machine
end

