-- ==== Sys2Proof/Machine/Units.lean ====
section
/-! DEFINITION. Units and their identifiers (R40-R43), the remap (R44-R52), the addresses of on-chip
SRAM, and the power states and clocks of constellations (R68-R80, R1005). -/

namespace Sys2Proof.Machine
open Sys2Proof

/-- Home quarter of a logical constellation (R44). -/
def homeQuarter (l : Nat) : Nat := if l < 38 then 0 else if l < 76 then 1 else if l < 113 then 2 else 3
/-- Quarter of a physical constellation (R39). -/
def physQuarter (p : Nat) : Nat := p / 40
/-- The two quarters adjacent to a quarter (R49). -/
def adjacent : Nat → List Nat
  | 0 => [1, 2] | 1 => [0, 3] | 2 => [0, 3] | _ => [1, 2]

/-- Level and index of a UID (R41). -/
def uidLevel (u : Nat) : Nat := bits u 21 3
def uidIndex (u : Nat) : Nat := bits u 0 21
def mkUid (level index : Nat) : Nat := level * 2 ^ 21 + index
/-- Number of indices at a level (R41). -/
def levelCount : Nat → Nat
  | 0 => 307200 | 1 => 2400 | 2 => 150 | 3 => 4 | 4 => 256 | 5 => 256 | _ => 0
/-- A UID whose level is defined and whose index lies in range (R42). -/
def uidValid (u : Nat) : Bool := u < 2 ^ 24 && uidIndex u < levelCount (uidLevel u)
/-- Logical constellation that contains a star, cluster or constellation (R41). -/
def uidCon (u : Nat) : Nat :=
  match uidLevel u with
  | 0 => uidIndex u / 2048
  | 1 => uidIndex u / 16
  | _ => uidIndex u
/-- Logical cluster that contains a star, or the cluster itself; the first cluster of a constellation. -/
def uidCluster (u : Nat) : Nat :=
  match uidLevel u with
  | 0 => uidIndex u / 128
  | 1 => uidIndex u
  | _ => uidIndex u * 16
/-- Constellations, clusters or stars per unit: how many units of level `lv` lie in one of level `up`. -/
def unitsPer (up lv : Nat) : Nat :=
  (if up ≥ 1 && lv < 1 then 128 else 1) * (if up ≥ 2 && lv < 2 then 16 else 1)
/-- The units at level `lv` within `span + 1` units from `uid`, for levels 0 to 3 (R149). -/
def unitsAt (uid span lv : Nat) : List Nat :=
  let up := uidLevel uid
  if up ≤ 2 then
    let k := unitsPer up lv
    (List.range ((span + 1) * k)).map fun i => mkUid lv (uidIndex uid * k + i)
  else
    let qs := if up = 3 then (List.range (span + 1)).map (uidIndex uid + ·) else List.range 4
    (qs.map fun q => (List.range (homeCount q * unitsPer 2 lv)).map fun i =>
      mkUid lv (homeFirst q * unitsPer 2 lv + i)).flatten
/-- Logical stars of a unit, as the first and the one after the last (R40, R41). -/
def unitStars (u : Nat) : Nat × Nat :=
  let i := uidIndex u
  match uidLevel u with
  | 3 => (homeFirst i * 2048, (homeFirst i + homeCount i) * 2048)
  | 4 | 5 => (0, 307200)
  | lv => (i * unitsPer lv 0, (i + 1) * unitsPer lv 0)
/-- Whether two lists of star ranges meet. -/
def meets (a b : List (Nat × Nat)) : Bool := a.any fun x => b.any fun y => x.1 < y.2 && y.1 < x.2
/-- Star ranges without the stars of another range, and their stars within it. -/
def cutOut (us : List (Nat × Nat)) (v : Nat × Nat) : List (Nat × Nat) :=
  (us.map fun u => [(u.1, Nat.min u.2 v.1), (Nat.max u.1 v.2, u.2)]).flatten.filter fun u => u.1 < u.2
def cutIn (us : List (Nat × Nat)) (v : Nat × Nat) : List (Nat × Nat) :=
  (us.map fun u => (Nat.max u.1 v.1, Nat.min u.2 v.2)).filter fun u => u.1 < u.2
/-- Slip of units: of each star that of the most recent barrier that it passed, and of them the largest (R122). -/
def slipOver : List (Nat × Nat × Nat) → List (Nat × Nat) → Nat
  | [], _ => 0
  | (a, b, v) :: r, us => Nat.max (if meets [(a, b)] us then v else 0) (slipOver r (cutOut us (a, b)))
/-- The stars of some units whose slip is below a delay (R121, R122). -/
def starsBelow : List (Nat × Nat × Nat) → List (Nat × Nat) → Nat → List (Nat × Nat)
  | [], us, delay => if delay = 0 then [] else us
  | (a, b, v) :: r, us, delay => (if v < delay then cutIn us (a, b) else []) ++ starsBelow r (cutOut us (a, b)) delay
/-- Logical constellations that contain a unit of the set (R1005). -/
def setCons (uid span : Nat) : List Nat := ((unitsAt uid span (Nat.min 2 (uidLevel uid))).map uidCon).eraseDups

def getCon (s : State) (phys : Nat) : Con := s.cons.getD phys { role := .failed }
def modCon (s : State) (phys : Nat) (f : Con → Con) : State := s.modCons (modAt · phys f)
def getQtr (s : State) (q : Nat) : Quarter := s.qtrs.getD q {}
def modQtr (s : State) (q : Nat) (f : Quarter → Quarter) : State := s.modQtrs (modAt · q f)
def getPtn (s : State) (p : Nat) : Ptn := s.ptns.getD p {}
def modPtn (s : State) (p : Nat) (f : Ptn → Ptn) : State := s.modPtns (modAt · p f)

/-- Physical constellation that carries a logical number (R44-R48). -/
def physOf (s : State) (l : Nat) : Option Nat := s.cons.findIdx? fun c => c.logical == some l
/-- A partition that is fenced or scrubbed: nothing of it runs, and nothing reaches it (R734, R737). -/
def isolated (s : State) (p : Nat) : Bool := (getPtn s p).state == .fenced || (getPtn s p).state == .scrubbing
/-- Partition that owns a logical constellation; a VACANT one owns none yet (R90, R732). -/
def ownerOf (s : State) (l : Nat) : Option Nat := s.ptns.findIdx? fun p => p.state != .vacant && p.cons.contains l
/-- Service state of a logical number; DARK when nothing carries it (R790). -/
def serviceOf (s : State) (l : Nat) : Service :=
  match physOf s l with
  | some p => (getCon s p).service
  | none => .dark
/-- Spares held by a quarter (R56), those not in a test slice (R798). -/
def sparesIn (s : State) (q : Nat) : List Nat :=
  (List.range 40).filterMap fun i => if (getCon s (q * 40 + i)).role = .spare then some (q * 40 + i) else none
/-- The spare that a remap takes among those of each quarter: the home quarter's lowest, or the adjacent quarter with more spares,
the lower quarter on a tie (R48-R50). -/
def spareOf (held : Nat → List Nat) (home : Nat) : Option Nat :=
  match held home with
  | p :: _ => some p
  | [] =>
    match adjacent home with
    | [a, b] => if (held a).length < (held b).length then (held b).head? else (held a).head?
    | _ => none
/-- The same among the units not in a test slice, else a unit whose slice yields (R798). -/
def chooseSpare (s : State) (home : Nat) : Option Nat :=
  (spareOf (fun q => (sparesIn s q).filter fun p => !(getCon s p).testing) home).orElse fun _ => spareOf (sparesIn s) home

/-- Keys of SRAM bytes: scratch of 4 MiB and staging of 512 KiB per cluster, Halo of 8 MiB per
constellation (R40), by physical place. -/
def scratchKey (phys cluster byte : Nat) : Nat := (phys * 16 + cluster) * 2 ^ 22 + byte
def stagingKey (phys cluster byte : Nat) : Nat := 2 ^ 34 + (phys * 16 + cluster) * 2 ^ 19 + byte
def haloKey (phys byte : Nat) : Nat := 2 ^ 35 + phys * 2 ^ 23 + byte
/-- Physical constellation of an SRAM key. -/
def sramPhys (k : Nat) : Nat :=
  if k < 2 ^ 34 then k / 2 ^ 26 else if k < 2 ^ 35 then (k - 2 ^ 34) / 2 ^ 23 else (k - 2 ^ 35) / 2 ^ 23

def byte0 (_ : Nat) : Byte := 0
/-- Bytes of SRAM. -/
def sramRead (s : State) (k n : Nat) : List Byte := (List.range n).map fun i => sget byte0 s.work.sram (k + i)
/-- Write bytes to SRAM. -/
def sramPutBytes (m : List (Nat × Byte)) (k : Nat) : List Byte → List (Nat × Byte)
  | [] => m
  | b :: r => sramPutBytes (sset byte0 m k b) (k + 1) r
def sramWrite (s : State) (k : Nat) (bs : List Byte) : State :=
  s.modWork fun w => { w with
    sram := sramPutBytes w.sram k bs,
    poison := w.poison.filter fun l => !(k ≤ l * 8 && l * 8 + 8 ≤ k + bs.length) }
/-- SRAM initialisation zeroises every bank of a constellation (R77). -/
def sramClear (s : State) (phys : Nat) : State :=
  (s.modMem fun m => { m with area := m.area.filter (·.1 != phys) }).modWork fun w => { w with
    sram := w.sram.filter fun e => sramPhys e.1 != phys,
    poison := w.poison.filter fun l => sramPhys (l * 8) != phys,
    tags := w.tags.filter fun e => sramPhys (e.1 * 4096) != phys,
    rows := w.rows.filter fun r => r.phys != phys }

/-- Whether an instance runs, or a running entry names a unit, on a logical constellation (R1005). -/
def conBusy (s : State) (l : Nat) : Bool :=
  s.work.insts.any (fun i => uidCon i.uid == l) || s.eph.slots.any (fun r => r.cons.contains l)

/-- Whether a constellation holds no logical number or its number belongs to no partition (R76). -/
def unallocated (s : State) (phys : Nat) : Bool :=
  match (getCon s phys).logical with
  | none => true
  | some l => (ownerOf s l).isNone
/-- QTR_IDLE_CTL.UNALLOC_DEEP of a physical constellation's quarter (R57). -/
def unallocDeep (s : State) (phys : Nat) : Bool := (getReg s (0x800040 + 0x200000 * physQuarter phys)).getLsbD 0

/-- AWAKE and not in SRAM initialisation: instructions can issue (R74, R79). -/
def canIssue (c : Con) : Bool := c.pwr == .awake && !c.init
/-- Begin a wake (R74, R75). A wake wins over a rest in the same tick (R78); one that comes during SRAM initialisation waits for its
end, and none leaves DEEP without it (R77, R79). -/
def beginWake (s : State) (phys : Nat) : State :=
  let tick := now s / 4
  modCon s phys fun c =>
    let w := { c with after := none, draining := false, wokeAt := some tick }
    match c.pwr with
    | .awake => { w with waking := c.waking || c.init }
    | .deep => c
    | _ => if c.restAt = some tick then { w with pwr := .awake } else { w with waking := true }
/-- The constellation enters SLEEP, unless a wake came in this tick, which leaves it AWAKE (R78). -/
def fallAsleep (s : State) (phys : Nat) : State :=
  let tick := now s / 4
  modCon s phys fun c =>
    if c.wokeAt = some tick then { c with pwr := .awake, waking := false, draining := false } else { c with pwr := .sleep, draining := false, restAt := some tick }
/-- Enter the state an ended entry named, once nothing more runs there (R75, R1005); not when a wake came in this tick (R78), nor once
the wake lead of a later entry has been reached (R1005). -/
def tryRest (s : State) (phys : Nat) : State :=
  let c := getCon s phys
  let tick := now s / 4
  match c.after, c.logical with
  | some a, some l =>
    if conBusy s l then s
    -- DOZE and SLEEP are entered from AWAKE, and SLEEP from DOZE too (R75)
    else if c.init || !c.leads.isEmpty || c.wokeAt = some tick || !(c.pwr = .awake || (c.pwr = .doze && a = .sleep)) then modCon s phys fun c => { c with after := none }
    else if a = .doze then modCon s phys fun c => { c with pwr := .doze, after := none, restAt := some tick }
    else modCon s phys fun c => { c with draining := true, after := none }
  | _, _ => s
/-- `tryRest` on every constellation of a list of logical numbers. -/
def restAll (s : State) (ls : List Nat) : State :=
  ls.foldl (fun s l => match physOf s l with | some p => tryRest s p | none => s) s

/-- Rest of a constellation that belongs to no partition and is no spare (R57, R75, R76). -/
def restIdle (s : State) (phys : Nat) : State :=
  let c := getCon s phys
  if c.role = .enabled && unallocated s phys && !c.init then
    if unallocDeep s phys then
      (if c.pwr = .deep then s else sramClear (modCon s phys fun c => { c with pwr := .deep, waking := false, draining := false, after := none }) phys)
    else
      (if c.pwr = .deep then modCon s phys fun c => { c with init := true }
       else if c.pwr = .sleep then modCon s phys fun c => { c with waking := false, draining := false, after := none }
       else fallAsleep (modCon s phys fun c => { c with waking := false, after := none }) phys)
  else s

/-- Minimum rail in mV for a star clock in steps of 25 MHz (R69). -/
def minMv (step : Nat) : Nat := if step ≤ 36 then 600 else if step ≤ 48 then 700 else if step ≤ 54 then 770 else 850
/-- The fastest clock that a rail allows (R69). -/
def maxStep (mv : Nat) : Nat := if mv < 700 then 36 else if mv < 770 then 48 else if mv < 850 then 54 else 60

/-- Clock a constellation should run at: its image clock under the quarter's cap (R975). -/
def wantStep (s : State) (phys : Nat) : Nat := Nat.min (getCon s phys).clkImage (getQtr s (physQuarter phys)).capStep
/-- Clocks of a quarter at a cycle boundary: a lower clock at once, a higher one only when the rail
has settled at its voltage (R68, R70, R71, R977). -/
def applyClocks (s : State) : State :=
  s.modCons fun cs => cs.mapIdx fun i c =>
    let w := wantStep s i
    let q := getQtr s (physQuarter i)
    if w ≤ c.clkStep || minMv w ≤ Nat.min q.mv q.targetMv then { c with clkStep := w } else c
/-- The rail of each quarter follows the fastest clock wanted or in force (R69-R71). -/
def applyRails (s : State) : State :=
  s.modQtrs fun qs => qs.mapIdx fun q r =>
    let steps := (List.range 40).map fun i => Nat.max (wantStep s (q * 40 + i)) (getCon s (q * 40 + i)).clkStep
    let need := minMv (maxN steps)
    if need = r.targetMv then r else { r with targetMv := need, settling := true }

/-- WAKE_COMPLETE: the constellation becomes AWAKE; a wake later than the start of a running entry
is reported (R74, R80, R107). -/
def wakeDone (s : State) (phys : Nat) : State :=
  let c := getCon s phys
  if c.waking && !c.init then
    let s1 := modCon s phys fun c => { c with pwr := .awake, waking := false, beat := true, beatAt := now s }
    match c.logical with
    | none => s1
    | some l =>
      match s.eph.slots.find? (fun r => r.cons.contains l) with
      | none => s1
      | some r =>
        let img := if s.eph.active = 0 then s.eph.bank0 else s.eph.bank1
        let start := match img with
          | some im => ((((im.sections.getD r.sec {}).primary ++ (im.sections.getD r.sec {}).n1)[r.ent]?).map (·.start)).getD 0
          | none => 0
        let late := (now s - s.eph.cycleAt) / 4 - (start + r.slip)
        raiseBoth (bumpReg s1 0x100070) r.ptn { cls := 1, code := 4, uid := mkUid 2 l, payload := [r.ent, late] }
  else s

/-- WAKE_COMPLETE (R74, R107). -/
def execWakeComplete (phys : Nat) (s : State) : Host.Outcome State Fault Refusal := .next (wakeDone s phys)

/-- SLEEP_DRAIN_DONE: the switch opens into SLEEP, and on to DEEP for an unallocated constellation
that is no spare while UNALLOC_DEEP is 1 (R75); a wake that came first keeps it AWAKE (R78). -/
def execSleepDrainDone (phys : Nat) (s : State) : Host.Outcome State Fault Refusal :=
  .next (if (getCon s phys).draining then restIdle (fallAsleep s phys) phys else s)

/-- SRAM_INIT_DONE: every bank is zero and the constellation is in SLEEP, where a spare rests and a
partition's constellation waits for its first wake lead (R47, R75, R77); one that is re-admitted is AWAKE for its self-test (R792). -/
def execSramInitDone (phys : Nat) (s : State) : Host.Outcome State Fault Refusal :=
  .next (if (getCon s phys).init then
    let s1 := sramClear (modCon s phys fun c => { c with init := false }) phys
    if s.ras.readmits.any (·.1 == phys) then modCon s1 phys fun c => { c with pwr := .awake } else fallAsleep s1 phys
  else s)

/-- RAIL_SETTLED: SETTLING clears at the new target; clocks held back change at the next boundary (R58, R70). -/
def execRailSettled (quarter : Nat) (s : State) : Host.Outcome State Fault Refusal :=
  .next (modQtr s quarter fun q => { q with settling := false, mv := q.targetMv })

end Sys2Proof.Machine
end

