-- ==== Sys2Proof/Machine/Image.lean ====
section
/-! DEFINITION. Ephemeris images (R86-R99): reading one from its bytes, and the load checks of R105
with R102, R103, R106 and R1006. -/

namespace Sys2Proof.Machine
open Sys2Proof

/-- An entry from its 32 bytes (R92). -/
def parseEntry (bs : List Byte) : Entry :=
  let x := leNat bs
  { start := bits x 0 32, length := bits x 32 20, wakeLead := bits x 52 12, cls := bits x 64 6,
    policy := bits x 70 2, uid := bits x 72 24, span := bits x 96 8, ptn := bits x 104 5,
    common := bit x 109, after := bits x 110 2, action := bits x 112 16, prog := bits x 128 40,
    capA := bits x 168 16, capB := bits x 184 16, rpt := bits x 200 4, phase := bits x 204 16, resv := bits x 220 36 }

/-- `n` entries from byte offset `o`. -/
def parseEntries (bs : List Byte) (o n : Nat) : List Entry := (List.range n).map fun i => parseEntry (bytesAt bs (o + 32 * i) 32)

/-- Byte offset of SECTION[s] in the header (R86). -/
def secAt (s : Nat) : Nat := 0x40 + 16 * s

/-- A section from the image (R87-R89). -/
def parseSection (bs : List Byte) (s : Nat) : Section :=
  let o := leAt bs (secAt s) 4
  let np := leAt bs (secAt s + 4) 2
  let nn := leAt bs (secAt s + 6) 2
  let d := leAt bs (secAt s + 8) 4
  { primary := parseEntries bs o np, n1 := parseEntries bs (o + 32 * np) nn,
    dir := (List.range 128).map fun i => (leAt bs (d + 4 * i) 2, leAt bs (d + 4 * i + 2) 2) }

/-- The image in the bytes fetched (R86). -/
def parseImage (bs : List Byte) : Image :=
  { contract := leAt bs 6 1, leadLax := bit (leAt bs 7 1) 0, cycleTicks := leAt bs 8 4, fprint := leAt bs 0x10 8,
    imageId := leAt bs 0x18 8, sections := (List.range 6).map (parseSection bs),
    prog := bytesAt bs (leAt bs 0x24 4) (leAt bs 0x20 4) }

/-- What the checks take from the rest of the device: the live fingerprint, the owner of each logical
constellation, which stacks and channels need windows, which ports need recalibration (R102). -/
structure LoadCtx where
  fprint : Nat
  owners : List (Option Nat)
  ns     : List Bool
  fc     : List Bool
  kq     : List Bool
  deriving Repr

/-- A failing item: section and, for an entry, whether it is an n−1 entry and its index in the section, where the n−1 entries follow the
primary ones (R87, R142). -/
structure LoadItem where
  sec : Nat
  n1  : Bool := false
  ent : Nat := 0
  deriving DecidableEq, Repr

/-- EPH_LOAD_FAULT of an item (R142). -/
def LoadItem.code (i : LoadItem) : Nat := i.sec + 8 * b2n i.n1 + 16 * i.ent

/-- Compute classes (R95). -/
def isCompute (c : Nat) : Bool := [1, 2, 3, 4, 5, 7, 8].contains c
/-- Classes whose UNIT_SET names units of PARTITION (R94). -/
def namesUnits (c : Nat) : Bool := isCompute c || c == 6
/-- Whether a class may stand in a section (R94). -/
def classInSection (c sec : Nat) : Bool :=
  if c == 0 then true
  else if sec < 4 then c ≤ 0x0A || c == 0x10 || c == 0x11
  else [0x10, 0x11, 0x12, 0x18, 0x19, 0x1A].contains c
def portOnDie (port sec : Nat) : Bool := if sec == 4 then port < 8 else 8 ≤ port && port ≤ 16
/-- A bridge stands in the table of the lower-numbered quarter it touches (R94). -/
def bridgeSection : Nat → Nat
  | 0 => 0 | 1 => 2 | 2 => 0 | 3 => 1 | 4 => 0 | 5 => 1 | 6 => 2 | _ => 3

/-- Fields that a class leaves unused are zero (R94). -/
def unusedZero (e : Entry) : Bool :=
  let c := e.cls
  let noUnit := e.uid == 0 && e.span == 0
  let noProg := e.prog == 0
  let noCap := e.capA == 0 && e.capB == 0
  -- only the compute classes wake or rest units, run over, or are common (R95, R116, R118, R119, R1005)
  e.resv == 0 && (isCompute c || (e.wakeLead == 0 && e.policy == 0 && !e.common && e.after == 0)) &&
  (if 1 ≤ c && c ≤ 5 then e.action < 256
   else if c == 6 then e.action < 256 && noProg && noCap
   else if c == 7 then e.action == 0 && noProg && noCap
   else if c == 8 then e.action < 256 && noProg && noCap
   else if c == 9 then e.ptn == 0 && e.action < 128 && noProg && noCap
   else if c == 0x0A then noUnit && e.action < 8 && noProg && e.capB == 0
   else if c == 0x10 || c == 0x11 then noUnit && e.ptn == 0 && e.action < 16 && noProg && noCap
   else if c == 0x12 then noUnit && e.ptn == 0 && e.action < 32 && noProg && noCap
   else if c == 0x18 then noUnit && e.action < 4 && noProg
   else if c == 0x19 then noUnit && e.action < 32 && noProg && e.capA == 0
   else if c == 0x1A then noUnit && e.ptn == 0 && e.action < 2 ^ 13 && noProg && noCap
   else noUnit && e.ptn == 0 && e.action == 0 && noProg && noCap)

/-- Class-specific values (R94, R96, R98, R99, R794). -/
def classValues (e : Entry) (sec : Nat) : Bool :=
  let c := e.cls
  if c == 6 then e.length == 1
  else if c == 8 then 1 ≤ e.action && e.action ≤ 5
  else if c == 9 then e.start == 0 && e.length == 1 && 24 ≤ e.action && e.action ≤ 60
  else if c == 0x0A then bridgeSection e.action == sec
  else if c == 0x10 || c == 0x11 then
    (if sec < 4 then e.action / 3 == sec && e.action < 12 else if sec == 4 then e.action < 8 else 8 ≤ e.action)
  else if c == 0x12 || c == 0x19 then portOnDie e.action sec
  else if c == 0x1A then e.length == 1 && bits e.action 8 5 < 16
  else true

/-- The ENTRY check (result 8) on one entry. -/
def badEntry (im : Image) (sec : Nat) (e : Entry) : Bool :=
  !(classInSection e.cls sec && e.policy < 2 && e.after < 3
    && uidValid e.uid && uidIndex e.uid + e.span < levelCount (uidLevel e.uid)
    && unusedZero e && 1 ≤ e.length && e.length ≤ 256000 && e.start + e.length ≤ im.cycleTicks
    && e.phase < 2 ^ e.rpt && (!(1 ≤ e.cls && e.cls ≤ 5) || e.prog < im.prog.length) && classValues e sec)

/-- The n−1 segments that an n−1 entry index belongs to, as (p, q) (R89). -/
def segmentsOf (sc : Section) (i : Nat) : List (Nat × Nat) :=
  (List.range 128).filterMap fun d =>
    let (f, n) := sc.dir.getD d (0, 0)
    if f ≤ i && i < f + n then some (d / 4, d % 4) else none

/-- Surviving constellations of partition `p` in the home set of `sec` after a loss in quarter `q`:
only their number is known at the load check (R130). -/
def survivors (ctx : LoadCtx) (p sec q : Nat) : Nat :=
  ((List.range (homeCount sec)).filter fun i => ctx.owners.getD (homeFirst sec + i) none == some p).length
    - (if q == sec then 1 else 0)

/-- The OWNERSHIP check (result 9) on one entry. -/
def badOwner (ctx : LoadCtx) (sc : Section) (sec : Nat) (n1 : Bool) (i : Nat) (e : Entry) : Bool :=
  namesUnits e.cls &&
  (if n1 then
    (segmentsOf sc i).any fun (p, q) => e.ptn != p || (setCons e.uid e.span).any fun r => survivors ctx p sec q ≤ r
   else (setCons e.uid e.span).any fun l => ctx.owners.getD l none != some e.ptn)

/-- Star range of an entry's units: the units are consecutive at the UID's level (R92). -/
def starRange (e : Entry) : Nat × Nat := ((unitStars e.uid).1, (unitStars (e.uid + e.span)).2)
def unitsMeet (a b : Entry) : Bool := (starRange a).1 < (starRange b).2 && (starRange b).1 < (starRange a).2
def timesMeet (a b : Entry) : Bool := a.start < b.start + b.length && b.start < a.start + a.length
/-- Whether two entries ever run in one cycle (R93). -/
def cyclesMeet (a b : Entry) : Bool := a.phase % 2 ^ Nat.min a.rpt b.rpt == b.phase % 2 ^ Nat.min a.rpt b.rpt

/-- The OVERLAP check (result 0xA) between two entries of one group. -/
def overlaps (a b : Entry) : Bool :=
  cyclesMeet a b && timesMeet a b &&
  ((isCompute a.cls && isCompute b.cls && unitsMeet a b)
   || (a.cls == 0x18 && b.cls == 0x18 && a.action == b.action)
   || (a.cls == 0x19 && b.cls == 0x19 && a.action == b.action))

/-- Wake time in ticks of a rest state coded as AFTER (R74). -/
def wakeTicks : Nat → Nat
  | 0 => 0 | 1 => 5 | _ => 1000
def runsIn (e : Entry) (k : Nat) : Bool := k % 2 ^ e.rpt == e.phase
/-- State, coded as AFTER, in which the table leaves constellation `l` before `e` in cycle `k` (R1006). -/
def stateBefore (es : List Entry) (e : Entry) (l k : Nat) : Nat :=
  let names (f : Entry) : Bool := isCompute f.cls && (setCons f.uid f.span).contains l
  let here := es.filter fun f => names f && runsIn f k && f.start + f.length ≤ e.start
  let before := es.filter fun f => names f && runsIn f (k + 2 ^ 15 - 1)
  let pool := if here.isEmpty then before else here
  let last := maxN (pool.map fun f => f.start + f.length)
  match pool.filter (fun f => f.start + f.length == last) with
  | [] => 2
  | f :: r => r.foldl (fun a g => Nat.min a g.after) f.after
/-- The WAKE check (result 0xB) on one entry of a group (R1006, R107). -/
def badWake (im : Image) (es : List Entry) (e : Entry) : Bool :=
  !im.leadLax && isCompute e.cls &&
  (setCons e.uid e.span).any fun l => (List.range (2 ^ 15)).any fun k =>
    runsIn e k && e.wakeLead < wakeTicks (stateBefore es e l k)

/-- The BARRIER check (result 0xD) on one entry of a group. -/
def badBarrier (es : List Entry) (e : Entry) : Bool :=
  1 ≤ e.cls && e.cls ≤ 5 &&
  !(es.any fun b => b.cls == 6 && b.action == e.action && cyclesMeet b e
      && (starRange b).1 ≤ (starRange e).1 && (starRange e).2 ≤ (starRange b).2 && e.start + e.length ≤ b.start)
/-- Whether an n−1 entry index lies in a segment that runs: `n1` lists the variants as (partition, quarter, lost number) (R89, R131). -/
def segRuns (sc : Section) (n1 : List (Nat × Nat × Nat)) (i : Nat) : Bool :=
  n1.any fun v => let (f, n) := sc.dir.getD (v.1 * 4 + v.2.1) (0, 0); f ≤ i && i < f + n
/-- Whether two n−1 entries can run in one cycle: in one segment, or in segments of two partitions (R131, R135). -/
def segsMeet (sc : Section) (i j : Nat) : Bool :=
  (segmentsOf sc i).any fun a => (segmentsOf sc j).any fun b => a == b || a.1 != b.1
/-- The GATE check (result 0xE), over all entries of the section that can run together: a GATE entry belongs to no partition, so a
segment's gates run beside the primary ones (R94, R106, R131). -/
def badGate (sc : Section) (sec : Nat) (n1 : Bool) (i : Nat) (e : Entry) : Bool :=
  let others (b : Bool) (l : List Entry) : Bool :=
    (l.mapIdx fun j f => (j, f)).any fun (j, f) => !(b == n1 && j == i) && (!b || !n1 || segsMeet sc i j)
      && f.cls == 0x1A && bits f.action 8 5 == bits e.action 8 5 && f.start == e.start && cyclesMeet e f
  e.cls == 0x1A &&
  (!(let p := bits e.action 8 5; if sec == 4 then p < 8 else 8 ≤ p && p < 16) || others false sc.primary || others true sc.n1)

/-- Starts of the windows of one resource that run in every cycle, ascending. -/
def everyStarts (es : List Entry) : List Nat := sortBy id ((es.filter (·.rpt == 0)).map (·.start))
/-- Largest distance between window starts across the cycle boundary (R102). -/
def maxGap (t : Nat) : List Nat → Option Nat
  | [] => none
  | x :: r => some (maxN ((List.zipWith (fun a b => b - a) (x :: r) r) ++ [x + t - (x :: r).getLastD x]))
/-- Interval of a resource's windows in ticks: of the windows of every cycle, or 2^RPT cycles of one window (R102). -/
def interval (t : Nat) (es : List Entry) : Option Nat :=
  let base := maxGap t (everyStarts es)
  (es.filter (fun e => e.rpt != 0)).foldl
    (fun a e => some (match a with | some x => Nat.min x (2 ^ e.rpt * t) | none => 2 ^ e.rpt * t)) base
/-- Distance in ticks from the last start of window `f` before a run of window `e` in cycle `k` (R102). -/
def sinceLast (t : Nat) (e f : Entry) (k : Nat) : Nat :=
  let m := (k + 2 ^ 15 - f.phase) % 2 ^ f.rpt
  let back := if m = 0 then (if f.start < e.start then 0 else 2 ^ f.rpt) else m
  e.start + back * t - f.start
/-- The preceding interval of a window: the largest distance from the previous window of its resource, over every combination of RPT and
PHASE in which they run (R102). -/
def preceding (t : Nat) (es : List Entry) (e : Entry) : Nat :=
  maxN ((List.range (2 ^ maxN (es.map (·.rpt)))).map fun k => if runsIn e k then minN (es.map fun f => sinceLast t e f k) else 0)
/-- The refresh windows of every cycle of one stack or channel recur in time (R102). -/
def refreshOften (t : Nat) (es : List Entry) : Bool := match maxGap t (everyStarts es) with | none => false | some g => g * 4 ≤ 15600
/-- A refresh window is long enough, at `unit` ns per 1.95 µs of its preceding interval (R102). -/
def refreshLong (t unit : Nat) (es : List Entry) (e : Entry) : Bool := cdiv (preceding t es e * 4) 1950 * unit ≤ e.length * 4
/-- The recalibration windows of one resource recur within a limit in ns (R102). -/
def recalOften (t limit : Nat) (es : List Entry) : Bool := match interval t es with | none => false | some g => g * 4 ≤ limit

def classEntries (sc : Section) (c n : Nat) : List Entry := sc.primary.filter fun e => e.cls == c && e.action == n
/-- Gate entries of a port: the primary ones, and those of the segments that run (R96, R131). -/
def gateEntries (sc : Section) (n1 : List (Nat × Nat × Nat)) (port : Nat) : List Entry :=
  (sc.primary ++ ((sc.n1.mapIdx fun i e => (i, e)).filter fun x => segRuns sc n1 x.1).map (·.2)).filter fun e => e.cls == 0x1A && bits e.action 8 5 == port
/-- The variants under which a section's gates are looked at: none, and each of its segments. -/
def variants (sc : Section) : List (List (Nat × Nat × Nat)) :=
  [] :: (List.range 128).filterMap fun d => if (sc.dir.getD d (0, 0)).2 = 0 then none else some [(d / 4, d % 4, 0)]
/-- Gate state of a port at tick `t` of cycle `k`, looking back at most `fuel` cycles (R96, R97). -/
def gateAt (gs : List Entry) (k t : Nat) : Nat → Option Nat
  | 0 => none
  | fuel + 1 =>
    let g := gs.filter fun e => runsIn e k && e.start ≤ t
    match (sortBy (·.start) g).getLast? with
    | some e => some (bits e.action 0 8)
    | none => gateAt gs (k + 2 ^ 15 - 1) (2 ^ 32) fuel
/-- R103 for a window of one port: no TRANSFER overlaps it, and a gated port is closed over it, also while a segment's gates run. -/
def recalQuiet (sc : Section) (port : Nat) (w : Entry) : Bool :=
  !((sc.primary ++ sc.n1).any fun e => e.cls == 0x19 && e.action == port && cyclesMeet e w && timesMeet e w)
    && ((variants sc).map fun v => gateEntries sc v port).all fun gs =>
      gs.isEmpty || (List.range (2 ^ 15)).all fun k => !runsIn w k ||
        (gateAt gs k w.start (2 ^ 15) == some 0
         && !(gs.any fun g => runsIn g k && w.start < g.start && g.start < w.start + w.length && bits g.action 0 8 != 0))

/-- A resource of a section that needs windows (R102): their class and number, the condition on all of them, and the one on each. -/
structure Need where
  cls  : Nat
  num  : Nat
  all  : List Entry → Bool
  each : List Entry → Entry → Bool
/-- The resources that need windows in a section (R102, R103). -/
def needs (im : Image) (ctx : LoadCtx) (sec : Nat) : List Need :=
  let sc := im.sections.getD sec {}
  let t := im.cycleTicks
  let mem (n unit len : Nat) : List Need :=
    [{ cls := 0x10, num := n, all := refreshOften t, each := refreshLong t unit }, { cls := 0x11, num := n, all := recalOften t 1000000, each := fun _ e => len ≤ e.length * 4 }]
  if sec < 4 then (((List.range 3).map (3 * sec + ·)).filter fun n => ctx.ns.getD n false).map (mem · 160 1000) |>.flatten
  else
    let first := if sec = 4 then 0 else 8
    let fcs := ((List.range 8).map (first + ·)).filter fun n => ctx.fc.getD n false
    let ports := (List.range (if sec = 4 then 8 else 9)).map (first + ·)
    let free (p : Nat) : Bool := p != 16 && !ctx.kq.getD p false && (gateEntries sc [] p).isEmpty
    (fcs.map (mem · 295 1500)).flatten ++ ports.map fun p =>
      { cls := 0x12, num := p, all := fun es => free p || recalOften t 10000000 es, each := fun _ e => (free p || 2000 ≤ e.length * 4) && recalQuiet sc p e }
/-- The MEMORY check (result 0xC) of one section: a resource without its windows fails the section before its entries; windows that do not
recur in time fail at the first of them (R102, R103, R105). -/
def badMemory (im : Image) (ctx : LoadCtx) (sec : Nat) : Option LoadItem :=
  let sc := im.sections.getD sec {}
  let ns := (needs im ctx sec).map fun n => (n, classEntries sc n.cls n.num)
  if ns.any fun (n, es) => es.isEmpty && !n.all es then some { sec := sec }
  else ((sc.primary.mapIdx fun i e => (i, e)).find? fun (_, e) => ns.any fun (n, es) =>
    e.cls == n.cls && e.action == n.num && (!n.each es e || (!n.all es && es.head? == some e))).map fun x => { sec := sec, ent := x.1 }

/-- The groups of a section that the checks of R106 take each on its own: the primary entries, and
each n−1 segment, with indices. -/
def groups (sc : Section) : List (Bool × List (Nat × Entry)) :=
  let ix (l : List Entry) : List (Nat × Entry) := l.mapIdx fun i e => (i, e)
  (false, ix sc.primary) :: sc.dir.filterMap fun (f, n) => if n = 0 then none else some (true, ((ix sc.n1).drop f).take n)

/-- First entry of the image, in the order of R105, that a check on single entries finds bad. -/
def firstEntry (im : Image) (bad : Nat → Bool → Nat → Entry → Bool) : Option LoadItem :=
  (List.range 6).findSome? fun sec =>
    let sc := im.sections.getD sec {}
    let find (n1 : Bool) (l : List Entry) : Option LoadItem :=
      ((l.mapIdx fun i e => (i, e)).find? fun x => bad sec n1 x.1 x.2).map fun x => { sec := sec, n1 := n1, ent := x.1 + if n1 then sc.primary.length else 0 }
    (find false sc.primary).orElse fun _ => find true sc.n1
/-- Whether a primary entry overlaps one of another section: a unit's compute entries never do, wherever they stand (R95). -/
def overlapsElsewhere (im : Image) (sec : Nat) (e : Entry) : Bool :=
  isCompute e.cls && (List.range 6).any fun t => t != sec && (im.sections.getD t {}).primary.any fun f => isCompute f.cls && overlaps e f
/-- First entry that a check on groups finds bad: in a section the primary entries, then the n−1 entries, in ascending index (R105). -/
def firstInGroups (im : Image) (bad : Nat → Bool → List (Nat × Entry) → Nat → Entry → Bool) : Option LoadItem :=
  (List.range 6).findSome? fun sec =>
    let sc := im.sections.getD sec {}
    let hits (n1 : Bool) : List Nat := ((groups sc).map fun (b, g) => if b == n1 then (g.filter fun (i, e) => bad sec n1 g i e).map (·.1) else []).flatten
    match hits false, hits true with
    | [], [] => none
    | [], l => some { sec := sec, n1 := true, ent := minN l + sc.primary.length }
    | l, _ => some { sec := sec, ent := minN l }

/-- Offsets and reserved bytes of the header (result 2). -/
def headerOk (bs : List Byte) : Bool :=
  let len := bs.length
  leAt bs 7 1 < 2 && (bytesAt bs 0x2C 20).all (· == 0) && (bytesAt bs 0xA0 96).all (· == 0)
  && leAt bs 0x20 4 % 4096 == 0 && leAt bs 0x24 4 % 4096 == 0 && leAt bs 0x24 4 + leAt bs 0x20 4 ≤ len
  && (List.range 6).all fun s =>
      leAt bs (secAt s + 12) 4 == 0
      && leAt bs (secAt s) 4 + 32 * (leAt bs (secAt s + 4) 2 + leAt bs (secAt s + 6) 2) ≤ len
      && leAt bs (secAt s + 8) 4 + 512 ≤ len

def hdrItem : LoadItem := { sec := 7 }

/-- The signature of an image verifies against the Darris key (R91). -/
def imageSigned (key : Option (List Byte)) (bs : List Byte) : Bool :=
  let o := leAt bs 0x28 4
  match key with
  | some k => o + 96 ≤ bs.length && sigOk k (sha384 (bs.take o)) (bytesAt bs o 96)
  | none => false
/-- The load checks in the order of R105: RESULT and EPH_LOAD_FAULT of the first failure. `key` is the Darris key held (R91). -/
def loadCheck (ctx : LoadCtx) (key : Option (List Byte)) (fetchOk : Bool) (bs : List Byte) : Nat × Nat :=
  let im := parseImage bs
  let fail (code : Nat) (i : LoadItem) : Nat × Nat := (code, i.code)
  if !fetchOk then (2, hdrItem.code + 2 ^ 17)
  else if bs.length < 256 || leAt bs 0 4 != 0x31485045 || leAt bs 4 2 != 1 then fail 2 hdrItem
  else if !imageSigned key bs then fail 1 hdrItem
  else if !headerOk bs then fail 2 hdrItem
  else if crc32c (bytesAt bs 0x40 (leAt bs 0x28 4 - 0x40)) != leAt bs 0x0C 4 then fail 3 hdrItem
  else if im.contract != 1 then fail 4 hdrItem
  else if im.cycleTicks < 2000 || 256000 < im.cycleTicks || im.cycleTicks % 250 != 0 then fail 5 hdrItem
  else if im.fprint != ctx.fprint then fail 6 hdrItem
  else if 512 * 2 ^ 20 < leAt bs 0x20 4 then fail 7 hdrItem
  else match (List.range 6).find? (fun s => (if s < 4 then 8192 else 4096) < leAt bs (secAt s + 4) 2 + leAt bs (secAt s + 6) 2) with
  | some s => fail 7 { sec := s }
  | none =>
  match firstEntry im fun sec _ _ e => badEntry im sec e with
  | some i => fail 8 i
  | none =>
  match firstEntry im fun sec n1 i e => badOwner ctx (im.sections.getD sec {}) sec n1 i e with
  | some i => fail 9 i
  | none =>
  match firstInGroups im fun sec n1 g i e => (g.any fun (j, f) => j != i && overlaps e f) || (!n1 && overlapsElsewhere im sec e) with
  | some i => fail 0xA i
  | none =>
  match firstInGroups im fun _ _ g _ e => badWake im (g.map (·.2)) e with
  | some i => fail 0xB i
  | none =>
  match (List.range 6).findSome? (badMemory im ctx) with
  | some i => fail 0xC i
  | none =>
  match firstInGroups im fun _ _ g _ e => badBarrier (g.map (·.2)) e with
  | some i => fail 0xD i
  | none =>
  match firstEntry im fun sec n1 i e => badGate (im.sections.getD sec {}) sec n1 i e with
  | some i => fail 0xE i
  | none => (0, 0)

end Sys2Proof.Machine
end

