-- ==== Sys2Proof/Machine/Kvq.lean ====
section
/-! DEFINITION. Key-value compression (R273-R318): slot-form blocks, the packed form, prefix codes,
the choice of tables' code lengths, and page geometry (R233-R237). -/

namespace Sys2Proof.Machine
open Sys2Proof

/-- Width n of a slot width code (R234); 0 for a reserved code. -/
def kvqBits : Nat → Nat
  | 0 => 3 | 1 => 4 | 2 => 5 | 3 => 6 | 4 => 8 | _ => 0
/-- A block: scale byte and 32 symbols, the n-bit code patterns as unsigned numbers (R274, R285). -/
structure KvBlock where
  scale : Nat
  syms  : List Nat
  deriving DecidableEq, Repr

/-- Value of a symbol (R274). -/
def kvqValue (n e sym : Nat) : Num :=
  if e == 0xFF then .nan
  else let q := toInt n sym; .fin (q < 0) q.natAbs ((e : Int) - 127 - (n - 2))
/-- Bytes of a slot-form block (R277). -/
def slotBlockBytes (n : Nat) : Nat := 4 * n + 1
/-- The block at byte `o` (R277). -/
def readSlot (n : Nat) (bs : List Byte) (o : Nat) : KvBlock :=
  let w := leAt bs (o + 1) (4 * n)
  { scale := (bs.getD o 0).toNat, syms := (List.range 32).map fun i => bits w (n * i) n }
/-- The bytes of a block (R277). -/
def writeSlot (n : Nat) (b : KvBlock) : List Byte :=
  BitVec.ofNat 8 b.scale :: leBytes (4 * n) (sumN (b.syms.mapIdx fun i x => x * 2 ^ (n * i)))
/-- QNT of 32 numbers (R275, R276). -/
def quantBlock (n : Nat) (l : List Num) : KvBlock :=
  if l.any fun x => match x with | .fin _ _ _ => false | _ => true then { scale := 0xFF, syms := List.replicate 32 0 }
  else match blockTop l with
    | none => { scale := 0x7F, syms := List.replicate 32 0 }
    | some t =>
      let e : Nat := let e := t + 127; if e < 0 then 0 else if e > 254 then 254 else e.toNat
      { scale := e,
        syms := l.map fun x => match x with
          | .fin neg m ex =>
            let (k, r, d) := scaleTo m (ex + 127 - e + n - 2) 0
            let k := if 2 * r > d || (2 * r == d && k % 2 == 1) then k + 1 else k
            ofInt n (satInt n (if neg then -(k : Int) else k))
          | _ => 0 }

/-- Canonical prefix codes from lengths: (code, length) of each symbol (R293). -/
def assignCodes (lens : List Nat) : List (Nat × Nat) :=
  let step (st : Nat × List (Nat × Nat × Nat)) (l : Nat) : Nat × List (Nat × Nat × Nat) :=
    let (code, acc) := (lens.mapIdx fun i x => (i, x)).foldl
      (fun (c : Nat × List (Nat × Nat × Nat)) (i, x) => if x == l then (c.1 + 1, c.2 ++ [(i, c.1, l)]) else c) st
    (2 * code, acc)
  let acc := ((List.range 12).map (· + 1)).foldl step (0, [])
  lens.mapIdx fun i _ => match acc.2.find? (fun x => x.1 == i) with
    | some (_, c, l) => (c, l)
    | none => (0, 0)
/-- Bits of a fixed-width field, least significant first, and of a prefix code, first code bit first (R284). -/
def fixBits (n x : Nat) : List Bool := (List.range n).map fun i => bit x i
def codeBits (c : Nat × Nat) : List Bool := ((List.range c.2).map fun i => bit c.1 i).reverse
/-- Bytes of a bit stream, padded with zero bits (R283). -/
def bitsToBytes (l : List Bool) : List Byte :=
  leBytes (cdiv l.length 8) (l.foldr (fun b a => b2n b + 2 * a) 0)
/-- A block of the packed form by the first rule of R286. -/
def encBlock (n : Nat) (codes : Option (List (Nat × Nat))) (b : KvBlock) : List Bool :=
  let raw := [true, false] ++ fixBits 8 b.scale ++ (b.syms.map (fixBits n)).flatten
  if b.scale != 0xFF && b.syms.all (· == 0) then [false, true]
  else match codes with
    | none => raw
    | some cs =>
      let c (x : Nat) : Nat × Nat := cs.getD x (0, 0)
      if b.syms.any fun x => (c x).2 == 0 then raw
      else if sumN (b.syms.map fun x => (c x).2) > 32 * n then raw
      else [false, false] ++ fixBits 8 b.scale ++ (b.syms.map fun x => codeBits (c x)).flatten
/-- A coded component: segment bases, group offsets, groups (R282, R283). -/
def encComponent (n : Nat) (codes : Option (List (Nat × Nat))) (bs : List KvBlock) : List Byte :=
  let groups := (chunks 16 bs).map fun g => bitsToBytes ((g.map (encBlock n codes)).flatten)
  let segs := cdiv groups.length 64
  let start := 4 * segs + 2 * groups.length
  let offs := (groups.foldl (fun (a : Nat × List Nat) g => (a.1 + g.length, a.2 ++ [a.1])) (start, [])).2
  let base (i : Nat) : Nat := offs.getD (64 * i) 0
  ((List.range segs).map fun i => leBytes 4 (base i)).flatten
  ++ (offs.mapIdx fun i o => leBytes 2 (o - base (i / 64))).flatten ++ groups.flatten

/-- Bits of bytes. -/
def bytesToBits (l : List Byte) : List Bool := (l.map fun b => fixBits 8 b.toNat).flatten
def takeFix (n : Nat) (l : List Bool) : Option (Nat × List Bool) :=
  if l.length < n then none else some ((l.take n).foldr (fun b a => b2n b + 2 * a) 0, l.drop n)
/-- Read one prefix code of at most `fuel` bits. -/
def takeCode (cs : List (Nat × Nat)) : Nat → Nat → Nat → List Bool → Option (Nat × List Bool)
  | 0, _, _, _ => none
  | _, _, _, [] => none
  | fuel + 1, c, l, b :: r =>
    let c := 2 * c + b2n b
    match cs.findIdx? (fun x => x.2 == l + 1 && x.1 == c) with
    | some s => some (s, r)
    | none => takeCode cs fuel c (l + 1) r
/-- Read `k` symbols. -/
def takeSyms (f : List Bool → Option (Nat × List Bool)) : Nat → List Bool → Option (List Nat × List Bool)
  | 0, l => some ([], l)
  | k + 1, l => match f l with
    | some (x, r) => (takeSyms f k r).map fun y => (x :: y.1, y.2)
    | none => none
/-- Read one block; none is a stream fault (R285, R314). -/
def decBlock (n : Nat) (cs : List (Nat × Nat)) (l : List Bool) : Option (KvBlock × List Bool) :=
  match takeFix 2 l with
  | some (0, r) => match takeFix 8 r with
    | some (e, r) => (takeSyms (takeCode cs 12 0 0) 32 r).map fun x => ({ scale := e, syms := x.1 }, x.2)
    | none => none
  | some (1, r) => match takeFix 8 r with
    | some (e, r) => (takeSyms (takeFix n) 32 r).map fun x => ({ scale := e, syms := x.1 }, x.2)
    | none => none
  | some (2, r) => some ({ scale := 0x7F, syms := List.replicate 32 0 }, r)
  | _ => none
def decBlocks (n : Nat) (cs : List (Nat × Nat)) : Nat → List Bool → Option (List KvBlock)
  | 0, _ => some []
  | k + 1, l => match decBlock n cs l with
    | some (b, r) => (decBlocks n cs k r).map (b :: ·)
    | none => none
/-- Decode a component of `b` blocks that starts at byte `o`; a group that runs past the next group's
offset is a stream fault (R282, R314). -/
def decComponent (n : Nat) (cs : List (Nat × Nat)) (bs : List Byte) (o b : Nat) : Option (List KvBlock) :=
  let g := cdiv b 16
  let segs := cdiv g 64
  let off (i : Nat) : Nat := leAt bs (o + 4 * (i / 64)) 4 + leAt bs (o + 4 * segs + 2 * i) 2
  (List.range g).foldl (fun acc i => match acc with
    | none => none
    | some l =>
      let len := if i + 1 < g then off (i + 1) - off i else bs.length - (o + off i)
      (decBlocks n cs (Nat.min 16 (b - 16 * i)) (bytesToBits (bytesAt bs (o + off i) len))).map (l ++ ·)) (some [])

/-- A weighted item of package-merge: weight and the symbols it holds (R304). -/
abbrev PkItem := Nat × List Nat
/-- Merge two lists by weight; at equal weight the first list comes before. -/
def mergePk : Nat → List PkItem → List PkItem → List PkItem
  | 0, a, b => a ++ b
  | _, [], b => b
  | _, a, [] => a
  | fuel + 1, x :: a, y :: b => if x.1 ≤ y.1 then x :: mergePk fuel a (y :: b) else y :: mergePk fuel (x :: a) b
def pairPk : List PkItem → List PkItem
  | x :: y :: r => (x.1 + y.1, x.2 ++ y.2) :: pairPk r
  | _ => []
/-- Code lengths from counts by package-merge limited to 12 bits (R304). -/
def buildLengths (counts : List Nat) : List Nat :=
  let leaves : List PkItem := sortBy (·.1) (((counts.mapIdx fun i c => (c, [i])).filter (·.1 != 0)).reverse)
  let m := leaves.length
  if m == 0 then counts.map fun _ => 0
  else if m == 1 then counts.map fun c => if c = 0 then 0 else 1
  else
    let list := (List.range 11).foldl (fun l _ => let p := pairPk l; mergePk (leaves.length + p.length) leaves p) leaves
    let held := ((list.take (2 * m - 2)).map (·.2)).flatten
    counts.mapIdx fun i _ => held.count i

/-- Bytes of a table image, and its LENGTHS (R292). -/
def tableBytes (n : Nat) : Nat := 16 + 2 ^ (n - 1)
def packLengths (lens : List Nat) : List Byte := packCodes 4 lens
def parseLengths (bs : List Byte) (n : Nat) : List Nat := (List.range (2 ^ n)).map fun i => packedCode bs 4 i
/-- Whether lengths form a prefix code (R294). -/
def lengthsOk (lens : List Nat) : Bool :=
  lens.all (· ≤ 12) && sumN ((lens.filter (· != 0)).map fun l => 2 ^ (12 - l)) ≤ 4096
/-- Tensor word (R292). -/
def tensorWord (model layer comp width : Nat) : Nat := model + layer * 2 ^ 16 + comp * 2 ^ 24 + width * 2 ^ 26
/-- A table image with its CRC (R292). -/
def tableImage (model layer comp width epoch : Nat) (lens : List Nat) : List Byte :=
  let head := leBytes 4 (tensorWord model layer comp width) ++ leBytes 2 epoch ++ leBytes 2 0
  let body := packLengths lens
  head ++ leBytes 4 (crc32c (head ++ body)) ++ leBytes 4 0 ++ body

/-- Tokens of a page (R234). -/
def pageTokens (code : Nat) : Nat := 16 * 2 ^ code
/-- Elements of component 0 and 1 per token, and whether component 1 is BF16 (R233). -/
structure Geo where
  p      : Nat
  width  : Nat
  latent : Bool
  d0     : Nat
  d1     : Nat
  deriving DecidableEq, Repr
def geo (pageCode widthCode : Nat) (latent : Bool) (dim groups posDim : Nat) : Geo :=
  { p := pageTokens pageCode, width := widthCode, latent := latent,
    d0 := if latent then dim else groups * dim, d1 := if latent then posDim else groups * dim }
/-- Bytes of a slot-form and of a BF16 component, line aligned (R235, R236). -/
def slotComp (g : Geo) (d : Nat) : Nat := g.p * d / 32 * slotBlockBytes (kvqBits g.width)
def bf16Comp (g : Geo) (d : Nat) : Nat := g.p * d * 2
/-- SLOT_TILES of a sealed page (R235). -/
def slotTilesOf (g : Geo) : Nat :=
  cdiv (alignLine (slotComp g g.d0) + (if g.latent then bf16Comp g g.d1 else alignLine (slotComp g g.d1))) 4096
/-- Staging blocks of an open page (R236). -/
def openBlocks (g : Geo) : Nat := cdiv (bf16Comp g (g.d0 + g.d1)) 4096
/-- Whether GEOM and the model's geometry lie in R234 and R233, and the open page within R237. -/
def geoOk (pageCode widthCode : Nat) (latent : Bool) (dim groups posDim : Nat) : Bool :=
  pageCode < 4 && widthCode < 5
  && (if latent then groups == 0 && 64 ≤ dim && dim ≤ 1024 && dim % 64 == 0 && posDim ≤ 128 && posDim % 16 == 0
      else 1 ≤ groups && groups ≤ 32 && 64 ≤ dim && dim ≤ 256 && dim % 32 == 0 && posDim == 0)
  && openBlocks (geo pageCode widthCode latent dim groups posDim) ≤ 128

/-- Blocks of a slot-form component in a page from byte `o` (R278). -/
def slotBlocks (g : Geo) (d o : Nat) (bs : List Byte) : List KvBlock :=
  let n := kvqBits g.width
  (List.range (g.p * d / 32)).map fun i => readSlot n bs (o + i * slotBlockBytes n)
/-- FORMAT byte of a page (R239). -/
def Geo.code (g : Geo) : Nat := Nat.log2 (g.p / 16) + 4 * g.width + 32 * b2n g.latent
def align16 (n : Nat) : Nat := cdiv n 16 * 16
/-- The coded page of the components' blocks: header, component 0, component 1 (R280, R281, R301). -/
def codedPage (g : Geo) (c0 : List Byte) (c1 : List Byte) : List Byte :=
  let off := 16 + align16 c0.length
  let has1 := !(g.latent && g.d1 == 0)
  let body := leBytes 1 1 ++ leBytes 1 g.code ++ leBytes 2 0 ++ leBytes 4 (if has1 then off else 0) ++ leBytes 8 0
    ++ padTo (align16 c0.length) c0 ++ (if has1 then c1 else [])
  padTo (alignLine body.length) body
/-- Whether R287 makes a page escape-only. -/
def escapeOnly (g : Geo) (c0 c1 : List Byte) (page : List Byte) : Bool :=
  page.length > slotTilesOf g * 4096 || c0.length > slotComp g g.d0 || (!g.latent && c1.length > slotComp g g.d1)
/-- Slot form of a coded page, or none for a stream fault (R288, R313). -/
def unpackPage (g : Geo) (codes0 codes1 : List (Nat × Nat)) (bs : List Byte) : Option (List Byte) :=
  let n := kvqBits g.width
  let comp (d o : Nat) (cs : List (Nat × Nat)) : Option (List Byte) :=
    (decComponent n cs bs o (g.p * d / 32)).map fun l => (l.map (writeSlot n)).flatten
  let o1 := leAt bs 4 4
  match comp g.d0 16 codes0 with
  | none => none
  | some a =>
    let c1 := if g.latent then some (bytesAt bs o1 (bf16Comp g g.d1)) else comp g.d1 o1 codes1
    c1.map fun b => padTo (slotTilesOf g * 4096) (padTo (alignLine (slotComp g g.d0)) a ++ b)

end Sys2Proof.Machine
end

