-- ==== Sys2Proof/Machine/Aes.lean ====
section
/-! DEFINITION. AES-256 (FIPS 197) and XTS-AES-256 (IEEE 1619), which R444 names for the Far tier (PRESUMED as published, log 80). -/

namespace Sys2Proof.Machine

/-- Bytewise exclusive or of two byte lists. -/
def xorBytes (a b : List Byte) : List Byte := List.zipWith (· ^^^ ·) a b
/-- A byte times x in the field of AES. -/
def aesX (a : Byte) : Byte := (a <<< 1) ^^^ (if a.getLsbD 7 then 0x1B else 0)
/-- The product of two bytes in the field of AES. -/
def aesMul (a b : Byte) : Byte :=
  ((List.range 8).foldl (fun (r : Byte × Byte) i => (if b.getLsbD i then r.1 ^^^ r.2 else r.1, aesX r.2)) (0, a)).1
/-- The inverse of a byte, 0 for 0: its power 254. -/
def aesInv (a : Byte) : Byte :=
  ((List.range 7).foldl (fun (r : Byte × Byte) _ => let p := aesMul r.2 r.2; (aesMul r.1 p, p)) (1, a)).1
/-- The substitution of a byte. -/
def aesSub (a : Byte) : Byte :=
  let b := aesInv a
  b ^^^ b.rotateLeft 1 ^^^ b.rotateLeft 2 ^^^ b.rotateLeft 3 ^^^ b.rotateLeft 4 ^^^ 0x63
/-- The rows of a state, which stands by columns, are shifted. -/
def aesShift (x : List Byte) : List Byte := (List.range 16).map fun i => x.getD ((i + 4 * (i % 4)) % 16) 0
/-- The columns of a state are mixed. -/
def aesMix (x : List Byte) : List Byte := (List.range 16).map fun i =>
  let at_ (k : Nat) : Byte := x.getD (i / 4 * 4 + (i + k) % 4) 0
  aesX (at_ 0) ^^^ aesX (at_ 1) ^^^ at_ 1 ^^^ at_ 2 ^^^ at_ 3
/-- One word more of the key schedule of a 256-bit key, behind `k` of which `i` words stand. -/
def aesWord (k : List Byte) (i : Nat) : List Byte :=
  let t := bytesAt k (4 * i - 4) 4
  let u := if i % 8 = 0 then xorBytes ((bytesAt t 1 3 ++ bytesAt t 0 1).map aesSub) [(1 : Byte) <<< (i / 8 - 1), 0, 0, 0]
    else if i % 8 = 4 then t.map aesSub else t
  k ++ xorBytes (bytesAt k (4 * i - 32) 4) u
/-- The 15 round keys of a key of 32 bytes. -/
def aesKeys (key : List Byte) : List (List Byte) :=
  let k := (List.range 52).foldl (fun k i => aesWord k (i + 8)) key
  (List.range 15).map fun r => bytesAt k (16 * r) 16
/-- A block of 16 bytes under round keys: the first is added, then come the rounds, the last of which mixes no columns. -/
def aesRounds : List (List Byte) → List Byte → List Byte
  | [], x => x
  | [k], x => xorBytes (aesShift (x.map aesSub)) k
  | k :: ks, x => aesRounds ks (xorBytes (aesMix (aesShift (x.map aesSub))) k)
def aesBlock (keys : List (List Byte)) (x : List Byte) : List Byte :=
  match keys with
  | [] => x
  | k :: ks => aesRounds ks (xorBytes x k)

/-- A tweak times x, as the 128-bit little-endian value that XTS takes it for. -/
def xtsNext (t : List Byte) : List Byte :=
  let n := leNat t
  leBytes 16 (Nat.xor (n * 2 % 2 ^ 128) (if bit n 127 then 0x87 else 0))
/-- The blocks of a data unit, of whole blocks, from a tweak on. -/
def xtsBlocks (keys : List (List Byte)) : Nat → List Byte → List Byte → List Byte
  | 0, _, _ => []
  | n + 1, t, x => xorBytes (aesBlock keys (xorBytes (x.take 16) t)) t ++ xtsBlocks keys n (xtsNext t) (x.drop 16)
/-- XTS-AES-256 of a data unit of whole blocks under a 512-bit key, whose first half enciphers the data, with a sequence number (R444). -/
def xts (key : List Byte) (seq : Nat) (data : List Byte) : List Byte :=
  xtsBlocks (aesKeys (key.take 32)) (data.length / 16) (aesBlock (aesKeys (key.drop 32)) (leBytes 16 seq)) data

end Sys2Proof.Machine
end

