-- ==== Sys2Proof/Machine/Tier.lean ====
section
/-! DEFINITION. The Near and Far tiers (R419-R464): addresses, granules and their owners, reading and
writing with written maps and poison, allocation, refresh windows, patrols and losses. -/

namespace Sys2Proof.Machine
open Sys2Proof

/-- First device tier address and tile of the Far tier (R419). -/
def farBase : Nat := 0x080000000000
def farTile0 : Nat := farBase / 4096
/-- Offsets of the granule registers (R462). -/
def ngranOff (g : Nat) : Nat := 0x301000 + 4 * g
def fgranOff (f : Nat) : Nat := 0x302000 + 4 * f
/-- Installed Far granules of 4 GiB (R443). -/
def farGranules (s : State) : Nat := Nat.min 2048 (s.mem.farC * s.mem.farK / 4)
/-- Home stack of a Near granule (R421). -/
def homeStack (g : Nat) : Nat := g % 12
def stackLost (s : State) (n : Nat) : Bool := (s.mem.nears.getD n {}).lost
/-- UNAVAIL of a Near and of a Far granule (R462). -/
def nearUnavail (s : State) (g : Nat) : Bool := g < 12 || 768 ≤ g || stackLost s (homeStack g) || s.mem.dead.contains g
def farUnavail (s : State) (f : Nat) : Bool := farGranules s ≤ f
/-- Owner of a granule register's value. -/
def granOwner (w : Word) : Option Nat := if w.getLsbD 5 then some (fld w 0 5) else none
def nearOwner (s : State) (g : Nat) : Option Nat := granOwner (getReg s (ngranOff g))
def farOwner (s : State) (f : Nat) : Option Nat := granOwner (getReg s (fgranOff f))
def granMode (s : State) (g : Nat) : Nat := fld (getReg s (ngranOff g)) 6 2
/-- Member granule of an interleaved set that holds a Near tile (R423). -/
def tileMember (s : State) (t : Nat) : Nat :=
  let g := t / 2 ^ 18
  match granMode s g with
  | 1 => let b := g - g % 3; b + (t - b * 2 ^ 18) % 3
  | 2 => let b := g - g % 12; b + (t - b * 2 ^ 18) % 12
  | _ => g
/-- Stack of a Near tile (R423). -/
def tileStack (s : State) (t : Nat) : Nat := tileMember s t % 12
/-- Channel of a Far tile index (R443). -/
def farChannel (s : State) (f : Nat) : Nat := (s.mem.chans.findIdx? fun c => c.far == some (f % s.mem.farC)).getD 0
/-- Whether a range list holds a tile. -/
def inRanges (l : List (Nat × Nat)) (t : Nat) : Bool := l.any fun r => r.1 ≤ t && t < r.1 + r.2
/-- Whether a tile was lost with a stack (R449). -/
def tileGone (s : State) (t : Nat) : Bool :=
  t < 768 * 2 ^ 18 && (stackLost s (tileStack s t) || (inRanges s.mem.gone t && !inRanges s.mem.healed t))
/-- The partition that holds a granule, g or 768 + f: its owner, or the one before a change that waits for a switch (R114). -/
def granHolder (s : State) (k : Nat) : Option Nat := match s.mem.later.find? (·.1 == k) with
  | some e => e.2
  | none => if k < 768 then nearOwner s k else farOwner s (k - 768)
/-- Status of an access to a device tier address for partition `p` (R426, R449): 0 when it may go on. -/
def tierStatus (s : State) (p addr : Nat) : Nat :=
  let t := addr / 4096
  if t < 768 * 2 ^ 18 then
    (if granHolder s (t / 2 ^ 18) != some p then 0x09 else if tileGone s t then 0x06 else 0)
  else if farTile0 ≤ t && (t - farTile0) / 2 ^ 20 < farGranules s then
    (if granHolder s (768 + (t - farTile0) / 2 ^ 20) != some p then 0x09 else 0)
  else 0x0D

/-- Status of an access to every tile of a range for partition `p`: the first that is not 0 (R426). -/
def rangeStatus (s : State) (p addr n : Nat) : Nat :=
  (((List.range (cdiv (addr % 4096 + n) 4096)).map fun i => tierStatus s p ((addr / 4096 + i) * 4096)).find? (· != 0)).getD 0

/-- Bytes of a tier; a byte of a tile not written reads 0 (R428). -/
def tierRead (s : State) (addr n : Nat) : List Byte := (List.range n).map fun i => sget byte0 s.mem.bytes (addr + i)
/-- Insert into an ascending list without repeats. -/
def insAsc (x : Nat) : List Nat → List Nat
  | [] => [x]
  | y :: r => if x < y then x :: y :: r else if x = y then y :: r else y :: insAsc x r
/-- Write bytes to a tier: written bits are set and the rest of a new tile is zero (R428). -/
def tierWrite (s : State) (addr : Nat) (bs : List Byte) : State :=
  if bs.isEmpty then s else
  s.modMem fun m => { m with
    bytes := sramPutBytes m.bytes addr bs,
    written := ((List.range ((addr + bs.length - 1) / 4096 - addr / 4096 + 1)).map (addr / 4096 + ·)).foldl (fun l t => insAsc t l) m.written,
    poison := m.poison.filter fun w => !(addr ≤ w * 8 && w * 8 + 8 ≤ addr + bs.length) }
/-- Words of `n` bytes from an address that are poisoned, as word offsets from the first word. -/
def poisonIn (l : List Nat) (addr n : Nat) : List Nat :=
  (l.filter fun w => addr / 8 ≤ w && w < (addr + n + 7) / 8).map (· - addr / 8)
/-- Poisoned words of a tier range; every word of a tile on a LOST channel is poisoned (R446). -/
def tierPoison (s : State) (addr n : Nat) : List Nat :=
  let t := addr / 4096
  if farTile0 ≤ t && (s.mem.chans.getD (farChannel s (t - farTile0)) {}).state == 4
  then List.range (cdiv n 8) else poisonIn s.mem.poison addr n
/-- Mark words poisoned from an address. -/
def tierSetPoison (s : State) (addr : Nat) (ws : List Nat) : State :=
  s.modMem fun m => { m with poison := ws.foldl (fun l w => insAsc (addr / 8 + w) l) m.poison }
def sramPoison (s : State) (key n : Nat) : List Nat := poisonIn s.work.poison key n
def sramSetPoison (s : State) (key : Nat) (ws : List Nat) : State :=
  s.modWork fun m => { m with poison := ws.foldl (fun l w => insAsc (key / 8 + w) l) m.poison }
/-- A copy carries poison with the data (R416). -/
def tierWriteP (s : State) (addr : Nat) (bs : List Byte) (ws : List Nat) : State := tierSetPoison (tierWrite s addr bs) addr ws
def sramWriteP (s : State) (key : Nat) (bs : List Byte) (ws : List Nat) : State := sramSetPoison (sramWrite s key bs) key ws
/-- Resource that holds a tile: a stack, or 12 and the channel (R421-R443). -/
def tileRes (s : State) (t : Nat) : Nat := if t < farTile0 then tileStack s t else 12 + farChannel s (t - farTile0)
/-- Count a tile read or written, for a partition or for the device (R908, R919, R925). -/
def countTile (s : State) (p : Option Nat) (t : Nat) (w : Bool) : State :=
  let s1 := telMem s (tileRes s t) (b2n w)
  let s2 := if !w && !s.mem.written.contains t then telMem s1 (tileRes s t) 3 else s1
  let s3 := telAct s2 4 p (if t < farTile0 then 7 else 8) 1
  match p with
  | some p => telAcct s3 p ((if t < farTile0 then 1 else 3) + b2n w) 4096
  | none => s3
def countTiles (s : State) (p : Option Nat) (t n : Nat) (w : Bool) : State := (List.range n).foldl (fun s i => countTile s p (t + i) w) s
/-- Tiles that movers have read and written for pages of a partition: copies that stand in `s'` and did not in `s` (R919). -/
def countCopies (s s' : State) (p : Nat) : State :=
  (s'.serve.pages.filter fun g => g.ptn == p).foldl (fun t g =>
    let old := s.serve.pages.find? fun x => x.ptn == p && x.num == g.num
    let far := if g.packedLen = 0 then g.slotTiles else cdiv g.packedLen 64
    let newNear := g.nearValid && !(old.any (·.nearValid))
    let newFar := g.farValid && !(old.any (·.farValid))
    let t1 := if newNear then countTiles (if old.any (·.farValid) then countTiles t (some p) (farTile0 + g.farAddr) far false else t) (some p) g.nearAddr g.slotTiles true else t
    if newFar then countTiles (match old with
        | some o => if o.nearValid then countTiles t1 (some p) o.nearAddr o.slotTiles false else t1
        | none => t1) (some p) (farTile0 + g.farAddr) far true else t1) s'
/-- Drop everything of a range of tiles: its written map is cleared (R429). -/
def tierClear (s : State) (tile n : Nat) : State :=
  s.modMem fun m => { m with
    bytes := m.bytes.filter fun e => !(tile ≤ e.1 / 4096 && e.1 / 4096 < tile + n),
    written := m.written.filter fun t => !(tile ≤ t && t < tile + n),
    poison := m.poison.filter fun w => !(tile ≤ w / 512 && w / 512 < tile + n) }

/-- Tiles of granules: Near granule g, and Far granule f, as (first tile, tiles). -/
def nearRange (g n : Nat) : Nat × Nat := (g * 2 ^ 18, n * 2 ^ 18)
def farRange (f n : Nat) : Nat × Nat := (farTile0 + f * 2 ^ 20, n * 2 ^ 20)

/-- Near granules of a partition that may be used. -/
def ownNear (s : State) (p : Nat) : List Nat := (List.range 768).filter fun g => granHolder s g == some p && !nearUnavail s g
def ownFar (s : State) (p : Nat) : List Nat := (List.range (farGranules s)).filter fun f => granHolder s (768 + f) == some p
/-- What the DIMMs hold of Far tile `f`: its bytes under XTS-AES-256 and the key of its owner, the data unit numbered by the tile (R444). -/
def farStored (s : State) (f : Nat) : Option (List Byte) :=
  ((farOwner s (f / 2 ^ 20)).bind fun p => (getPtn s p).farKey).map fun k => xts (leBytes 64 k) f (tierRead s ((farTile0 + f) * 4096) 4096)
/-- Tiles of a range taken by live allocations. -/
def usedIn (s : State) (r : Nat × Nat) : Nat := sumN ((s.mem.allocs.filter fun a => r.1 ≤ a.tile && a.tile < r.1 + r.2).map (·.tiles))
/-- Home quarter of a partition (R433). -/
def homeQ (s : State) (p : Nat) : Nat :=
  let n (q : Nat) : Nat := ((getPtn s p).cons.filter fun l => homeQuarter l == q).length
  let best := maxN ((List.range 4).map n)
  ((List.range 4).find? fun q => n q == best).getD 0

/-- First free run of `n` tiles in a range. -/
def firstFit (s : State) (n : Nat) (r : Nat × Nat) : Option Nat :=
  let occ := s.mem.allocs.filter fun a => a.tile < r.1 + r.2 && r.1 < a.tile + a.tiles
  let starts := sortBy id (r.1 :: (occ.map fun a => a.tile + a.tiles))
  starts.find? fun c => r.1 ≤ c && c + n ≤ r.1 + r.2 && !(occ.any fun a => a.tile < c + n && c < a.tile + a.tiles)
/-- Join ranges that follow one another. -/
def joinRanges : List (Nat × Nat) → List (Nat × Nat)
  | [] => []
  | r :: rs => match joinRanges rs with
    | [] => [r]
    | x :: xs => if r.1 + r.2 = x.1 then (r.1, r.2 + x.2) :: xs else r :: x :: xs
/-- Ranges in which one allocation of a mode may lie, in a quarter or (none) anywhere (R434). -/
def modeRanges (s : State) (p mode : Nat) (q : Option Nat) : List (Nat × Nat) :=
  let gs := (ownNear s p).filter fun g => granMode s g == mode && (match q with | some q => g % 12 / 3 == q | none => true)
  match mode with
  | 0 => gs.map fun g => nearRange g 1
  | 1 => (gs.filter fun g => g % 3 == 0).map fun g => nearRange g 3
  | _ => joinRanges ((gs.filter fun g => g % 12 == 0).map fun g => nearRange g 12)
/-- Free Near tiles of a partition in a quarter. -/
def freeInQ (s : State) (p q : Nat) : Nat :=
  sumN (((ownNear s p).filter fun g => g % 12 / 3 == q).map fun g => 2 ^ 18 - usedIn s (nearRange g 1))
/-- The places that R433 tries, in order: ranges and the mode reported. -/
def nearPlaces (s : State) (p spread q : Nat) (strict : Bool) : List ((Nat × Nat) × Nat) :=
  let target := if spread = 1 then q else homeQ s p
  let at_ (mode : Nat) (q : Option Nat) : List ((Nat × Nat) × Nat) := (modeRanges s p mode q).map (·, mode)
  let first := if spread = 2 then at_ 2 none else at_ spread (some target)
  if strict then first
  else
    let adj := match adjacent target with
      | [a, b] => if freeInQ s p a < freeInQ s p b then [b, a] else [a, b]
      | l => l
    first ++ at_ 0 (some target)
    ++ (if spread = 2 then [] else (adj.map fun a => at_ 1 (some a) ++ at_ 0 (some a)).flatten)
    ++ at_ 0 none ++ at_ 1 none ++ at_ 2 none
/-- Ranges of consecutive Far granules of a partition (R434). -/
def farPlaces (s : State) (p : Nat) : List (Nat × Nat) := joinRanges ((ownFar s p).map fun f => farRange f 1)

/-- Place `n` tiles: the first tile and the mode used (R433, R434). -/
def findRoom (s : State) (p : Nat) (far : Bool) (spread q : Nat) (strict : Bool) (n : Nat) : Option (Nat × Nat) :=
  if far then ((farPlaces s p).findSome? (firstFit s n)).map (·, 0)
  else (nearPlaces s p spread q strict).findSome? fun r => (firstFit s n r.1).map (·, r.2)
/-- Record an allocation; tiles lost with a stack count as reallocated (R449). -/
def takeRoom (s : State) (p tile n : Nat) : State :=
  s.modMem fun m => { m with allocs := m.allocs ++ [{ ptn := p, tile := tile, tiles := n }], healed := if m.gone.isEmpty then m.healed else m.healed ++ [(tile, n)] }
def allocTiles (s : State) (p : Nat) (far : Bool) (spread q : Nat) (n : Nat) : Option (Nat × State) :=
  (findRoom s p far spread q false n).map fun r => (r.1, takeRoom s p r.1 n)
/-- Release the allocation of a partition that starts at a tile (R435). -/
def freeTiles (s : State) (p tile : Nat) : State :=
  s.modMem fun m => { m with
    allocs := m.allocs.filter fun a => !(a.ptn == p && a.tile == tile),
    -- no prefetch area keeps a copy of a tile that is freed (R453)
    area := m.area.filter fun c => !(m.allocs.any fun a => a.ptn == p && a.tile == tile && a.tile ≤ c.2 && c.2 < a.tile + a.tiles),
    healed := if m.gone.isEmpty then m.healed
      else m.healed ++ (m.allocs.filter fun a => a.ptn == p && a.tile == tile).map fun a => (a.tile, a.tiles) }
/-- Free and owned Near tiles of a partition (R389). -/
def nearTiles (s : State) (p : Nat) : Nat := (ownNear s p).length * 2 ^ 18
def nearUsed (s : State) (p : Nat) : Nat := sumN ((s.mem.allocs.filter fun a => a.ptn == p && a.tile < farTile0).map (·.tiles))

/-- BAR0 offsets of a mailbox and of its control register, by view (R759, R849). -/
def mbxAlloc : View → Nat
  | .pf => 0x2000 | .vf p => winBase p + 0x400
def mbxTable : View → Nat
  | .pf => 0x2040 | .vf p => winBase p + 0x440
def mbxQp : View → Nat
  | .pf => 0x20C0 | .vf p => winBase p + 0x4C0
def mbxCtl : View → Nat
  | .pf => 0x2400 | .vf p => winBase p + 0x500
/-- Words of a mailbox, as one little-endian number. -/
def mbxRead (s : State) (off n : Nat) : Nat := sumN ((List.range n).map fun i => (getReg s (off + 4 * i)).toNat * 2 ^ (32 * i))
/-- Set bits [lo + n - 1 : lo] of a mailbox. -/
def mbxPut (s : State) (off lo n v : Nat) : State :=
  let o := off + 4 * (lo / 32)
  let w := (getReg s o).toNat
  let l := lo % 32
  setReg s o (BitVec.ofNat 32 (w - bits w l n * 2 ^ l + v % 2 ^ n * 2 ^ l))
/-- A GO bit, and its fall when the answer is written. -/
def mbxGo (s : State) (v : View) (i : Nat) : Bool := (i == 3 || !halted s) && (getReg s (mbxCtl v)).getLsbD i
def mbxDone (s : State) (v : View) (i : Nat) : State := setReg s (mbxCtl v) (getReg s (mbxCtl v) &&& ~~~(1#32 <<< i))
/-- Count a refusal of R154 in subindex 0x04 of 0x9200 + p. -/
def countAccess (s : State) (p : Nat) : State := odCount s (0x9200 + p) 4
/-- Partition a mailbox or ring speaks for: none for the PF. -/
def viewPtn : View → Option Nat
  | .pf => none | .vf p => some p

/-- The common checks of an allocation request: PARTITION first (R154), then reserved encodings (R9). -/
def allocBad (v : View) (x : Nat) : Nat :=
  let p := bits x 16 5
  if (match viewPtn v with | some q => q != p | none => false) then 0x09
  else if !(bits x 0 8 == 1 || bits x 0 8 == 2) || bits x 9 2 == 3 || (bit x 8 && bits x 9 2 != 0)
    || bits x 14 2 != 0 || bits x 21 11 != 0 || (bits x 0 8 == 1 && (bits x 32 32 == 0 || bits x 32 32 ≥ 2 ^ 31))
    || bits x 170 86 != 0 then 0x0D
  else 0
/-- Write STATUS, PLACED and ADDR of the answer and drop GO (R432). -/
def allocAnswer (s : State) (v : View) (status placed : Nat) (addr : Option Nat) : State :=
  let m := mbxAlloc v
  let s1 := mbxPut (mbxPut s m 160 8 status) m 168 2 placed
  let s2 := match addr with | some a => mbxPut (mbxPut s1 m 64 32 a) m 96 32 (a / 2 ^ 32) | none => s1
  mbxDone s2 v 0

/-- ALLOC_REQUEST: an allocation mailbox whose OP is not FREE (R432-R434, R154). -/
def execAllocRequest (v : View) (s : State) : Host.Outcome State Fault Refusal :=
  .next (
    let x := mbxRead s (mbxAlloc v) 8
    if !mbxGo s v 0 || bits x 0 8 == 2 then s
    else
      let p := bits x 16 5
      let bad := allocBad v x
      if bad = 0x09 then allocAnswer (match viewPtn v with | some q => countAccess s q | none => s) v bad 0 none
      else if bad != 0 then allocAnswer s v bad 0 none
      else match findRoom s p (bit x 8) (bits x 9 2) (bits x 11 2) (bit x 13) (bits x 32 32) with
        | none =>
          let s1 := allocAnswer s v 0x03 0 none
          -- an allocation that finds no space starts eviction in the hardware mode (R389)
          if bit x 8 || odGet s (0x9100 + p) 4 = 1 || (ownFar s p).isEmpty then s1 else s1.modServe fun w => { w with
            evicting := if w.evicting.contains p then w.evicting else w.evicting ++ [p] }
        | some (t, mode) => allocAnswer (takeRoom s p t (bits x 32 32)) v 0 mode (some (t * 4096)))

/-- FREE_REQUEST (R435). -/
def execFreeRequest (v : View) (s : State) : Host.Outcome State Fault Refusal :=
  .next (
    let x := mbxRead s (mbxAlloc v) 8
    if !mbxGo s v 0 || bits x 0 8 != 2 then s
    else
      let p := bits x 16 5
      let bad := allocBad v x
      let a := bits x 64 64
      if bad = 0x09 then allocAnswer (match viewPtn v with | some q => countAccess s q | none => s) v bad 0 none
      else if bad != 0 then allocAnswer s v bad 0 none
      else if a % 4096 == 0 && s.mem.allocs.any (fun al => al.ptn == p && al.tile == a / 4096 && (bit x 8 == decide (farTile0 ≤ al.tile))) then
        allocAnswer (freeTiles s p (a / 4096)) v 0 0 none
      else allocAnswer s v 0x0D 0 none)

/-- Resource number of a stack or channel: n, or 12 + n. -/
def memResource (sec action : Nat) : Nat := if sec < 4 then action else 12 + action
/-- Whether a resource is present, so that its windows act (R102). -/
def memPresent (s : State) (r : Nat) : Bool :=
  if r < 12 then !stackLost s r else (s.mem.chans.getD (r - 12) {}).state == 1
/-- Names of an entry in the image in force. -/
def image (s : State) : Option Image := if s.eph.running then (if s.eph.active = 0 then s.eph.bank0 else s.eph.bank1) else none
/-- The entry at an index of a section: primary entries first, then n−1 entries (R142's order). -/
def entryAt (s : State) (sec ent : Nat) : Option Entry :=
  match image s with
  | some im => let sc := im.sections.getD sec {}; (sc.primary ++ sc.n1)[ent]?
  | none => none
/-- Whether the entry is one of the n−1 entries of its section. -/
def entryIsN1 (s : State) (sec ent : Nat) : Bool :=
  match image s with
  | some im => (im.sections.getD sec {}).primary.length ≤ ent
  | none => false

/-- Whether an n−1 entry index lies in the segment of a (partition, quarter) of its section (R89). -/
def inSegment (s : State) (sec i p q : Nat) : Bool :=
  match image s with
  | some im => let (f, n) := (im.sections.getD sec {}).dir.getD (p * 4 + q) (0, 0); f ≤ i && i < f + n
  | none => false
/-- Index of an entry among the n−1 entries. -/
def n1Index (s : State) (sec ent : Nat) : Nat := match image s with
  | some im => ent - (im.sections.getD sec {}).primary.length
  | none => 0
/-- Classes whose entries belong to a partition (R94). -/
def hasPtn (c : Nat) : Bool := [1, 2, 3, 4, 5, 6, 7, 8, 0x0A, 0x18, 0x19].contains c
/-- The entry at an index when it runs in the present cycle: by RPT and PHASE, and in the variant that its
partition runs (R93, R131). -/
def entryNow (s : State) (sec ent : Nat) : Option Entry :=
  match entryAt s sec ent with
  | none => none
  | some e =>
    -- a segment brings its entries of every class, also those of no partition
    let ok := if entryIsN1 s sec ent then s.eph.n1.any fun v => inSegment s sec (n1Index s sec ent) v.1 v.2.1
      else !hasPtn e.cls || !(s.eph.n1.any (·.1 == e.ptn))
    if ok && s.eph.cycle % 2 ^ e.rpt == e.phase then some e else none

/-- REFRESH_WINDOW: the refreshes due for a 1.95 µs interval since the previous window are issued, and
accesses wait until the window ends (R101, R447). -/
def execRefreshWindow (sec ent : Nat) (s : State) : Host.Outcome State Fault Refusal :=
  .next (match entryNow s sec ent with
    | some e =>
      let r := memResource sec e.action
      if e.cls == 0x10 && memPresent s r then
        let n := cdiv (now s - cnt s.mem.refreshAt r) 1950
        ((telMem s r 5).modMem fun m => { m with
          refreshAt := cntSet m.refreshAt r (now s), refreshes := cntSet m.refreshes r n }).modEph
          fun e => { e with held := e.held ++ [(sec, ent, r)] }
      else s
    | none => s)

/-- RECAL_MEM_WINDOW: accesses to the stack or channel wait until the window ends (R101). -/
def execRecalMemWindow (sec ent : Nat) (s : State) : Host.Outcome State Fault Refusal :=
  .next (match entryNow s sec ent with
    | some e =>
      if e.cls == 0x11 && memPresent s (memResource sec e.action) then (telMem s (memResource sec e.action) 6).modEph fun x => { x with held := x.held ++ [(sec, ent, memResource sec e.action)] } else s
    | none => s)

/-- A window holds the stack or channel of one of some tiles: accesses wait until it ends (R101). -/
def windowHolds (s : State) (t n : Nat) : Bool := s.eph.held.any fun h => (List.range n).any fun i => tileRes s (t + i) == h.2.2

/-- Dies: quarters 0 to 3, IOD-N 4, IOD-S 5. The die that holds a resource of the tiers (R39). -/
def resDie (r : Nat) : Nat := if r < 12 then r / 3 else if r < 20 then 4 else 5
/-- Bridges between two dies that share one (R62). -/
def bridgeOf (a b : Nat) : Nat :=
  match Nat.min a b, Nat.max a b with
  | 0, 1 => 0 | 2, 3 => 1 | 0, 2 => 2 | 1, 3 => 3 | 0, 4 => 4 | 1, 4 => 5 | 2, 5 => 6 | _, _ => 7
/-- Dies on the way from one die to another (R61): the horizontal bridge before the vertical one between quarters, the quarter of the same
column from an I/O die, the west column from IOD-N to IOD-S and the east one back. Into an I/O die the way is that from it, reversed
(DEDUCED). -/
def dieRoute (a b : Nat) : List Nat :=
  let near (iod q : Nat) : List Nat := if iod = 4 then (if q < 2 then [] else [q - 2]) else if 2 ≤ q then [] else [q + 2]
  if a = b then []
  else if a < 4 && b < 4 then
    if a + b = 3 then [a, [1, 0, 3, 2].getD a 0, b] else [a, b]
  else if a = 4 && b = 5 then [4, 0, 2, 5]
  else if a = 5 && b = 4 then [5, 3, 1, 4]
  else if 4 ≤ a then a :: near a b ++ [b]
  else a :: (near b a) ++ [b]
/-- Bridges that a crossing takes, in order (R61). -/
def bridgesOf (a b : Nat) : List Nat := let r := dieRoute a b; List.zipWith bridgeOf r (r.drop 1)
/-- Whether a running BRIDGE entry carries a tile, by its number, of a partition over a bridge: the tile was there when the entry began, and
the entry has capacity (R62, R127). -/
def bridgeHas (p b id : Nat) (x : Nat × Nat × Nat × Nat × Option Nat × Nat) : Bool := x.2.2.1 == b && x.2.2.2.1 == p && x.2.2.2.2.1 != some 0 && id < x.2.2.2.2.2
def bridgeFree (s : State) (p b id : Nat) : Bool := s.eph.bridge.any (bridgeHas p b id)
/-- Take one tile of capacity on a bridge, from the first entry that has it. -/
def takeBridge (p id b : Nat) : List (Nat × Nat × Nat × Nat × Option Nat × Nat) → List (Nat × Nat × Nat × Nat × Option Nat × Nat)
  | [] => []
  | x :: r => if bridgeHas p b id x then (x.1, x.2.1, x.2.2.1, x.2.2.2.1, x.2.2.2.2.1.map (· - 1), x.2.2.2.2.2) :: r else x :: takeBridge p id b r
/-- The bridges between the carrier of a logical constellation and the die of a tile; a load comes from the tile's die, a store goes to
it (R425). -/
def tileBridges (s : State) (l t : Nat) (load : Bool) : List Nat :=
  let here := physQuarter ((physOf s l).getD 0)
  let there := resDie (tileRes s t)
  if load then bridgesOf there here else bridgesOf here there
/-- A tile can cross now: every bridge on its way has capacity given to its partition; else it waits (R62, R127). -/
def crossFree (s : State) (p id : Nat) (bs : List Nat) : Bool := bs.all fun b => bridgeFree s p b id
def cross (s : State) (p id : Nat) (bs : List Nat) : State :=
  if bs.isEmpty then s else s.modEph fun e => { e with bridge := bs.foldl (fun l b => takeBridge p id b l) e.bridge }

/-- `n` tiles from tile `t` pass between the tiers and the carrier of constellation `l` now, for a load or store of number `id`: none when a window holds one (R101) or a bridge
has no capacity for one (R62, R127). The crossings of Near tiles are counted (R908). -/
def passTiles (s : State) (p l t id : Nat) (load : Bool) : Nat → Option State
  | 0 => some s
  | n + 1 => (passTiles s p l t id load n).bind fun s =>
    let bs := tileBridges s l (t + n) load
    if windowHolds s (t + n) 1 || !crossFree s p id bs then none
    else some (if t + n < farTile0 && !bs.isEmpty then telMem (cross s p id bs) (tileRes s (t + n)) 10 bs.length else cross s p id bs)

/-- SELF_REFRESH_ENTRY: only while no image is in force (R448). -/
def execSelfRefreshEntry (resource : Nat) (s : State) : Host.Outcome State Fault Refusal :=
  .next (if s.eph.running then s
    else if resource < 12 then s.modMem fun m => { m with nears := modAt m.nears resource fun k => if k.lost then k else { k with sleep := true } }
    else s.modMem fun m => { m with chans := modAt m.chans (resource - 12) fun c => if c.state = 1 then { c with state := 2 } else c })
/-- Leave self-refresh: at the next access, and when an image comes into force (R448). -/
def wakeMem (s : State) : State :=
  s.modMem fun m => { m with
    nears := m.nears.map fun k => { k with sleep := false }, chans := m.chans.map fun c => if c.state = 2 then { c with state := 1 } else c }
/-- Access of a tile wakes its stack or channel. -/
def touchTile (s : State) (t : Nat) : State :=
  if t < 768 * 2 ^ 18 then s.modMem fun m => { m with nears := modAt m.nears (tileStack s t) fun k => { k with sleep := false } }
  else s.modMem fun m => { m with chans := modAt m.chans (farChannel s (t - farTile0)) fun c => if c.state = 2 then { c with state := 1 } else c }

/-- KIND, LOCATION and ADDRESS of a repair record for an SRAM word or a Near word (R891): clusters and constellations by their
physical place, staging behind scratch (DESIGN CHOICE). -/
def repairPlace (s : State) (kind addr : Nat) : Nat × Nat × Nat :=
  let k := addr * 8
  if kind != 0 then (2, tileStack s (addr / 512), tileMember s (addr / 512) / 12 * 2 ^ 18 + addr / 512 % 2 ^ 18)
  else if k < 2 ^ 34 then (1, mkUid 1 (k / 2 ^ 22), k % 2 ^ 22 / 8)
  else if k < 2 ^ 35 then (1, mkUid 1 ((k - 2 ^ 34) / 2 ^ 19), 2 ^ 19 + (k - 2 ^ 34) % 2 ^ 19 / 8)
  else (1, mkUid 2 ((k - 2 ^ 35) / 2 ^ 23), (k - 2 ^ 35) % 2 ^ 23 / 8)
/-- UID and line that an event names for an SRAM byte: the cluster or constellation by its logical number, staging lines behind the scratch
lines (R406, R464; DESIGN CHOICE, log 81). -/
def sramSite (s : State) (key : Nat) : Nat × Nat :=
  let l := (getCon s (sramPhys key)).logical.getD 0
  if key < 2 ^ 34 then (mkUid 1 (16 * l + key / 2 ^ 22 % 16), key % 2 ^ 22 / 64)
  else if key < 2 ^ 35 then (mkUid 1 (16 * l + (key - 2 ^ 34) / 2 ^ 19 % 16), 2 ^ 16 + (key - 2 ^ 34) % 2 ^ 19 / 64)
  else (mkUid 2 l, (key - 2 ^ 35) % 2 ^ 23 / 64)
/-- UID and tile index or line of an address of a memory, given in words (R420, R464). -/
def memSite (s : State) (kind addr : Nat) : Nat × Nat :=
  if kind = 0 then sramSite s (addr * 8) else (0, if kind = 1 then addr / 512 else addr / 512 - farTile0)
/-- Add a repair record to the Almanac's repair map while it has room (R891, R960). -/
def repairRecord (s : State) (kind source bitNo loc addr : Nat) : State :=
  if 992 ≤ s.alm.repairs then s
  else (almQueue s (0xA00 + 16 * s.alm.repairs) (leBytes 16 (kind + source * 2 ^ 8 + bitNo * 2 ^ 16 + loc % 2 ^ 24 * 2 ^ 24 + addr % 2 ^ 48 * 2 ^ 48
    + now s / 1000000000 % 2 ^ 32 * 2 ^ 96))).modAlm fun a => { a with repairs := a.repairs + 1 }
/-- The constellation map's entry of a physical constellation, rewritten (R54, R891). -/
def mapEntry (s : State) (phys : Nat) : State :=
  let c := getCon s phys
  almQueue s (0x800 + 2 * phys) (leBytes 2 (c.logical.getD 0xFF + (match c.role with | .enabled => 0 | .spare => 1 | .failed => 2) * 256))

/-- Count a corrected error at an address: the hour's count reaching MEM_CE_THRESH raises
MEM_CE_THRESHOLD and records the address for repair (R461). -/
def countCe (s : State) (kind addr : Nat) : State :=
  let s0 := bumpReg s (0x3000C0 + 4 * kind)
  let s1 := if kind = 0 then s0 else telMem s0 (tileRes s (addr / 512)) 7
  let hour := 3600 * 10 ^ 9
  let old := s.mem.sites.find? fun c => c.kind == kind && c.addr == addr && now s - c.since ≤ hour
  let c : CeSite := match old with
    | some c => { c with count := c.count + 1 }
    | none => { kind := kind, addr := addr, count := 1, since := now s }
  let s2 := s1.modMem fun m => { m with sites := (m.sites.filter fun d => !(d.kind == kind && d.addr == addr)) ++ [c] }
  if c.count = regFld s 0x3000D0 0 16 then
    let w := repairPlace s2 kind addr
    let s3 := if kind = 2 || s2.mem.repair.contains (kind, addr) then s2 else repairRecord s2 w.1 3 0x7F w.2.1 w.2.2
    raisePf (s3.modMem fun m => { m with repair := if m.repair.contains (kind, addr) then m.repair else m.repair ++ [(kind, addr)] })
      { cls := 2, code := 2, uid := (memSite s kind addr).1, payload := [kind, (memSite s kind addr).2, c.count] }
  else s2

/-- SRAM_PATROL: a line of an AWAKE constellation read by the patrol: corrected words are counted,
uncorrectable words are poisoned and reported (R414, R415, R417); one that holds the poison code already is known as such. `corrected` and
`wrong` name words of the line. -/
def execSramPatrol (key : Nat) (corrected wrong : List Nat) (s : State) : Host.Outcome State Fault Refusal :=
  .next (
    let phys := sramPhys key
    let c := getCon s phys
    let bad := wrong.filter fun w => !(sramPoison s key 64).contains w
    if c.pwr != .awake then s
    else
      let s0 := match c.logical with | some l => progCount s l 0x0E corrected.length | none => s
      let s1 := corrected.foldl (fun s w => countCe s 0 (key / 8 + w)) s0
      let s2 := sramSetPoison s1 key bad
      bad.foldl (fun s _ =>
        let s1 := bumpReg s 0x3000CC
        let e : Event := { cls := 2, code := 1, uid := (sramSite s key).1, payload := [0, (sramSite s key).2] }
        match c.logical.bind (ownerOf s1) with
        | some p => raiseBoth s1 p e
        | none => raisePf s1 e) s2)

/-- NEAR_PATROL: an unwritten tile that is not already zero is written with zeros; it reads as zero
before and after (R428, R430). -/
def execNearPatrol (tile : Nat) (s : State) : Host.Outcome State Fault Refusal :=
  .next (if tile < 768 * 2 ^ 18 && !s.mem.written.contains tile then tierClear s tile 1 else s)

end Sys2Proof.Machine
end

