-- ==== Sys2Proof/Machine/Req.lean ====
section
/-! DEFINITION. Requests: handles, records, the token budget, page maps, references and pins, staging,
commit and roll-back of tokens, tables' reference counts and the end of a request (R221-R272, R296-R300,
R472-R508). -/

namespace Sys2Proof.Machine
open Sys2Proof

/-- Completion status codes (R11). -/
abbrev stOK : Nat := 0
abbrev stCANCELLED : Nat := 1
abbrev stUNSTARTED : Nat := 2
abbrev stBUSY : Nat := 3
abbrev stBUDGET : Nat := 4
abbrev stTRUNCATED : Nat := 5
abbrev stLOST : Nat := 6
abbrev stPOISON : Nat := 7
abbrev stTIMEOUT : Nat := 8
abbrev stACCESS : Nat := 9
abbrev stFLUSHED : Nat := 0xA
abbrev stOVERRIDDEN : Nat := 0xB
abbrev stEPOCH : Nat := 0xC
abbrev stFORMAT : Nat := 0xD
abbrev stRETRIED : Nat := 0xE
abbrev stSTOPPED : Nat := 0xF

/-- Device number (R16's DEVNUM) and the low 32 bits of the cycle number. -/
def myDev (s : State) : Nat := regFld s 0x20 0 8
def cycle32 (s : State) : Nat := s.eph.cycle % 2 ^ 32

def findReq (s : State) (h : Nat) : Option Req := s.serve.reqs.find? (·.handle == h)
def modReq (s : State) (h : Nat) (f : Req → Req) : State :=
  s.modServe fun w => { w with reqs := updIf (·.handle == h) f w.reqs }
def dropReq (s : State) (h : Nat) : State :=
  s.modServe fun w => { w with reqs := w.reqs.filter (·.handle != h) }
def liveLimit (s : State) (p : Nat) : Nat := odGet s (0x3000 + 16 * p) 4
def liveCount (s : State) (p : Nat) : Nat := (s.serve.reqs.filter (·.ptn == p)).length
/-- Status of a handle that a descriptor names: FORMAT beyond the limit, EPOCH when stale (R224). -/
def handleStatus (s : State) (h : Nat) : Nat :=
  if liveLimit s (bits h 27 5) ≤ bits h 0 18 then stFORMAT
  else if (findReq s h).isNone then stEPOCH else stOK

/-- A free slot of the partition (which one is left open), with its next GEN (R222). -/
def newSlot (s : State) (p : Nat) : Option (Nat × Nat) :=
  let free := (List.range (liveLimit s p)).filter fun i => !(s.serve.reqs.any fun r => r.ptn == p && r.slot == i)
  if free.isEmpty then none
  else
    let i := free.getD (Config.slotChoice s.freeCount free.length % free.length) 0
    some (i, (cnt s.serve.gens (p * 2 ^ 18 + i) + 1) % 511)

/-- Geometry of a request and of a page (R233-R236). -/
def Req.geo (r : Req) : Geo := Machine.geo r.pageCode r.widthCode r.latent r.dim r.groups r.posDim
def Page.geo (g : Page) : Geo := Machine.geo g.pageCode g.widthCode g.latent g.dim g.groups g.posDim
def Req.pageLen (r : Req) : Nat := pageTokens r.pageCode
/-- Index of a map entry (R238). -/
def Req.mapIx (r : Req) (l i : Nat) : Nat := l * (r.maxTokens / r.pageLen) + i
def Req.entry (r : Req) (l i : Nat) : Nat := cnt r.map (r.mapIx l i)
/-- Record number of the local page at a position. -/
def Req.pageNum (r : Req) (l i : Nat) : Option Nat :=
  let e := r.entry l i
  if bit e 28 then some (bits e 0 28) else none
def Req.isRemote (r : Req) (l i : Nat) : Bool := bit (r.entry l i) 29
/-- Record numbers of all local pages of the map. -/
def Req.pageNums (r : Req) : List Nat := r.map.filterMap fun e => if bit e.2 28 then some (bits e.2 0 28) else none
def mapValid (num : Nat) : Nat := num + 2 ^ 28
def mapRemote : Nat := 2 ^ 29
def setMap (r : Req) (l i v : Nat) : Req := { r with map := cntSet r.map (r.mapIx l i) v }

def findPage (s : State) (p num : Nat) : Option Page := s.serve.pages.find? fun g => g.ptn == p && g.num == num
def modPage (s : State) (p num : Nat) (f : Page → Page) : State :=
  s.modServe fun w => { w with pages := updIf (fun g => g.ptn == p && g.num == num) f w.pages }

/-- The 256-byte record with its CRC (R226, R346, R359, R496). -/
def stateCode : RState → Nat
  | .queued => 0 | .prefill => 1 | .handoff => 2 | .decode => 3 | .parked => 4 | .promoting => 5
  | .done => 6 | .cancelled => 7 | .failed => 8
def rsrBytes (s : State) (r : Req) : List Byte :=
  let n := (s.serve.pages.filter fun g => g.ptn == r.ptn && r.pageNums.contains g.num)
  let body := leBytes 4 r.handle ++ leBytes 1 (stateCode r.state)
    ++ leBytes 1 (b2n r.keep + 2 * b2n r.keepOnCancel + 4 * b2n r.durable + 8 * b2n r.wbEvery + 16 * b2n r.latent + 32 * b2n r.finished)
    ++ leBytes 2 r.epoch ++ leBytes 8 r.rid ++ leBytes 8 r.seed ++ leBytes 2 r.model ++ leBytes 1 (r.layers - 1)
    ++ leBytes 1 (r.pageCode + 4 * r.widthCode) ++ leBytes 2 r.dim ++ leBytes 1 r.groups ++ leBytes 1 r.posDim
    ++ leBytes 4 r.promptLen ++ leBytes 4 r.maxTokens ++ leBytes 4 r.length ++ leBytes 4 r.sealedLen ++ leBytes 4 r.durableLen
    ++ leBytes 4 r.sharedLen ++ leBytes 4 r.nextIndex ++ leBytes 4 r.admitCycle ++ leBytes 8 r.pmap
    ++ leBytes 4 (n.filter (·.nearValid)).length ++ leBytes 4 (n.filter (·.farValid)).length ++ leBytes 4 r.lastCycle ++ leBytes 12 0
    -- MOVE
    ++ leBytes 1 r.mverb
    ++ leBytes 1 (b2n r.pipeline + 2 * b2n r.pack + 4 * b2n r.holding + 8 * b2n r.held + 16 * b2n r.doubt + 32 * b2n r.dropPending)
    ++ leBytes 1 r.peer ++ leBytes 1 r.peerPtn ++ leBytes 4 r.peerHandle ++ leBytes 1 r.origin ++ leBytes 1 r.originPtn ++ leBytes 2 0
    ++ leBytes 4 r.originHandle ++ leBytes 4 r.pagesSent ++ leBytes 4 r.pagesAcked ++ leBytes 4 r.moveTag ++ leBytes 4 r.remoteRefs
    -- SERVE
    ++ leBytes 4 r.temp ++ leBytes 4 r.topP ++ leBytes 2 r.topK ++ leBytes 1 (b2n r.await) ++ leBytes 1 r.hist.length
    ++ leBytes 4 r.maxNew ++ leBytes 4 r.generated ++ leBytes 4 r.inputLeft ++ leBytes 8 r.inputAddr ++ leBytes 4 r.charged
    ++ padTo 28 ((r.hist.map (leBytes 4)).flatten)
    -- ATTEND
    ++ leBytes 8 r.plan ++ leBytes 2 r.planGroups.length ++ leBytes 1 r.headsM1 ++ leBytes 1 (b2n r.partialBf16) ++ leBytes 4 r.maskL
    ++ leBytes 8 r.bitmap ++ leBytes 4 r.bitmapStride ++ leBytes 4 0 ++ leBytes 28 0
  body ++ leBytes 4 (crc32c body)

/-- The 32-byte page record (R239). CLEAN says that no staged tile waits to be written back. -/
def pageBytes (g : Page) : List Byte :=
  let st := match g.state with | .open => 1 | .sealing => 2 | .sealed => 3 | .inTransit => 4 | .released => 5
  leBytes 1 (st + 8 * b2n g.nearValid + 16 * b2n g.farValid + 32 * b2n g.promo + 64 * b2n g.stage.isSome + 128 * b2n g.dirty.isEmpty)
  ++ leBytes 1 g.layer ++ leBytes 3 g.refcnt ++ leBytes 3 g.pinNear ++ leBytes 3 g.pinFar ++ leBytes 1 (g.pageCode + 4 * g.widthCode + 32 * b2n g.latent)
  ++ leBytes 1 g.tokens ++ leBytes 3 (g.table % 4096) ++ leBytes 4 g.nearAddr ++ leBytes 4 g.farAddr ++ leBytes 2 g.packedLen ++ leBytes 2 g.slotTiles
  ++ leBytes 2 g.position ++ leBytes 2 0
/-- Whether a range of `n` bytes at `a` meets one of `k` bytes at `o`. -/
def meetsRange (a n o k : Nat) : Bool := a < o + k && o < a + n
/-- Put bytes that stand at `o` over those of a range that begins at `a`. -/
def overlay (a o : Nat) (bs new : List Byte) : List Byte := bs.mapIdx fun i b => if o ≤ a + i && a + i < o + new.length then new.getD (a + i - o) b else b
/-- Bytes of a tier as software reads them: the RSR table, the serve record table, the page maps, the page table and the heat array of a partition show the records
that the state holds (R226, R227, R470, R238, R239, R387); a map entry of a position without a page reads zero, a free RSR STATE 0xFF. -/
def tierView (s : State) (a n : Nat) : List Byte :=
  let table (p : Nat) (f : Ptn → Nat) : Nat := f (getPtn s p) * 4096
  let b0 := (s.serve.reqs.foldl (fun bs r =>
    let o := table r.ptn (·.rsrTile) + 256 * r.slot
    let bs := if table r.ptn (·.rsrTile) != 0 && meetsRange a n o 256 then overlay a o bs (rsrBytes s r) else bs
    let v := table r.ptn (·.serveTile) + 256 * r.slot
    let bs := if table r.ptn (·.serveTile) != 0 && meetsRange a n v 256 then overlay a v bs r.stopBlock else bs
    let len := 4 * (r.layers * (r.maxTokens / r.pageLen))
    if r.pmap = 0 || !meetsRange a n r.pmap len then bs
    else bs.mapIdx fun i b => if r.pmap ≤ a + i && a + i < r.pmap + len then (leBytes 4 (cnt r.map ((a + i - r.pmap) / 4))).getD ((a + i - r.pmap) % 4) 0 else b)
    (tierRead s a n))
  let b1 := s.serve.pages.foldl (fun bs g =>
    let o := table g.ptn (·.pageTile) + 32 * g.num
    let h := table g.ptn (·.heatTile) + g.num
    let bs := if table g.ptn (·.pageTile) != 0 && meetsRange a n o 32 then overlay a o bs (pageBytes g) else bs
    if table g.ptn (·.heatTile) != 0 && meetsRange a n h 1 then overlay a h bs (leBytes 1 g.heat) else bs) b0
  (List.range 32).foldl (fun bs p =>
    let o := table p (·.rsrTile)
    let free (x : Nat) : Bool := x % 256 == 4 && !(s.serve.reqs.any fun r => r.ptn == p && r.slot == x / 256)
    if o = 0 || !meetsRange a n o (256 * liveLimit s p) then bs
    else bs.mapIdx fun i b => if o ≤ a + i && a + i < o + 256 * liveLimit s p && free (a + i - o) then 0xFF else b) b1

/-- A request record to the submitter's completion ring (R472, R844). -/
def reqRec (s : State) (pf : Bool) (p status rtype op handle tag epoch index length charged : Nat) : State :=
  ringWrite s (if pf then pfRing 3 else winRing p 3) (.request status rtype op handle tag epoch index length charged (cycle32 s))
/-- A REQUEST record of a request (R473). -/
def requestRec (s : State) (r : Req) (status index : Nat) : State :=
  reqRec s r.pf r.ptn status 0x21 0 r.handle r.tag r.epoch index r.length r.charged
/-- An OP_DONE record (R472). -/
def opDone (s : State) (pf : Bool) (p status op handle tag : Nat) (r : Option Req) : State :=
  reqRec s pf p status 0x22 op handle tag ((r.map (·.epoch)).getD 0) 0xFFFFFFFF ((r.map (·.length)).getD 0) ((r.map (·.charged)).getD 0)

/-- Token budgets (R479-R484). -/
def level (s : State) (p : Nat) : Int := ((s.serve.levels.find? (·.1 == p)).map (·.2)).getD 0
def setLevel (s : State) (p : Nat) (v : Int) : State :=
  let s1 := s.modServe fun w => { w with levels := if v = 0 then sdel w.levels p else sput w.levels p v }
  if v < toInt 64 (odGet s (0x91C0 + p) 4) then odSet s1 (0x91C0 + p) 4 (ofInt 64 v) else s1
def admitMode (s : State) (p : Nat) : Bool := odGet s (0x9100 + p) 5 = 1
def budgetDepth (s : State) (p : Nat) : Nat := odGet s (0x91A0 + p) 2
/-- In credit: LEVEL above 0, a disabled bucket, or the host-assisted mode (R479, R481, R484). -/
def inCredit (s : State) (p : Nat) : Bool := budgetDepth s p = 0 || admitMode s p || level s p > 0
/-- Debit a charge and record it (R480, R484). -/
def charge (s : State) (h amount : Nat) : State :=
  match findReq s h with
  | none => s
  | some r =>
    let free := budgetDepth s r.ptn = 0 || admitMode s r.ptn
    let s1 := modReq s h fun r => { r with charged := sat 0xFFFFFFFF (r.charged + amount), debited := !free }
    if free then s1 else setLevel s1 r.ptn (level s r.ptn - amount)
/-- Credit an admission charge back, within the clamp of R479, if it was debited (R25, R480). -/
def creditBack (s : State) (h : Nat) : State :=
  match findReq s h with
  | none => s
  | some r =>
    if r.dispatched || r.admitCharge = 0 then s
    else
      let s1 := modReq s h fun r => { r with charged := r.charged - r.admitCharge, admitCharge := 0 }
      if budgetDepth s r.ptn = 0 || !r.debited then s1
      else setLevel s1 r.ptn (if level s r.ptn + r.admitCharge < budgetDepth s r.ptn * 1000 then level s r.ptn + r.admitCharge else budgetDepth s r.ptn * 1000)
/-- Count toward a serving event of the cycle (R508). -/
def srvMark (s : State) (p code n : Nat) : State :=
  s.modServe fun w =>
    if w.marks.any fun m => m.ptn == p && m.code == code then
      { w with marks := updIf (fun m => m.ptn == p && m.code == code) (fun m => { m with count := m.count + n }) w.marks }
    else { w with marks := w.marks ++ [{ ptn := p, code := code, count := n }] }

/-- Entropy tables: find, and change a reference count; a RETIRED table without references becomes
FREE (R297, R300). -/
def findTab (s : State) (n : Nat) : Option KvTable := s.serve.tables.find? (·.num == n)
/-- A table that a RETIRED slot no longer needs: no packed copy names it, and no task packs with it (R25, R297). -/
def tabIdle (s : State) (t : KvTable) : Bool :=
  t.state == .retired && t.refcnt == 0 && !s.work.tasks.any fun k => k.tabs.contains t.num || k.packs.contains t.num
def tabRef (s : State) (n : Nat) (up : Bool) : State :=
  s.modServe fun w => { w with
    tables := (updIf (·.num == n) (fun t => { t with refcnt := if up then t.refcnt + 1 else t.refcnt - 1 }) w.tables).filter
      fun t => !(t.num == n && tabIdle s t) }
/-- The tables of a page's Far copy, TABLE and for the per-head layout TABLE + 1 (R295, R300). -/
def pageTabs (s : State) (g : Page) (up : Bool) : State :=
  if g.packedLen = 0 then s
  else
    let s1 := tabRef s g.table up
    if g.latent then s1 else tabRef s1 (g.table + 1) up

/-- Staging keys: cluster `c` is a logical cluster index, constellation · 16 + cluster (R243). -/
def stageKey (s : State) (c block : Nat) : Nat := stagingKey ((physOf s (c / 16)).getD 0) (c % 16) (block * 4096)
/-- Blocks of a cluster's staging that pages hold: (first, blocks). -/
def stagedIn (s : State) (c : Nat) : List (Nat × Nat) :=
  (s.serve.pages.filterMap fun g => match g.stage with
    | some (c', b) => if c' = c then some (b, openBlocks g.geo) else none
    | none => none)
  ++ s.serve.pages.filterMap fun g => match g.mirror with
    | some (c', b) => if c' = c then some (b, openBlocks g.geo) else none
    | none => none
def freeBlocks (s : State) (c : Nat) : Nat := 128 - sumN ((stagedIn s c).map (·.2))
/-- First-fit run of free blocks (R243). -/
def fitBlocks (s : State) (c n : Nat) : Option Nat :=
  let occ := stagedIn s c
  (List.range 129).find? fun b => b + n ≤ 128 && !(occ.any fun o => o.1 < b + n && b < o.1 + o.2)
/-- The cluster of a set with the most free blocks, lowest first on a tie, and the place there, if it has one (R244). -/
def chooseLoad (s : State) (cs : List Nat) (n : Nat) : Option (Nat × Nat) :=
  let best := maxN (cs.map (freeBlocks s))
  (cs.find? fun c => freeBlocks s c == best).bind fun c => (fitBlocks s c n).map (c, ·)
/-- The cluster for a page that is opened: of those with room, the one with the most free blocks (R243; DESIGN CHOICE: R244 names the cluster
of a load alone). -/
def chooseStage (s : State) (cs : List Nat) (n : Nat) : Option (Nat × Nat) :=
  let ok := cs.filter fun c => (fitBlocks s c n).isSome
  let best := maxN (ok.map (freeBlocks s))
  (ok.find? fun c => freeBlocks s c == best).bind fun c => (fitBlocks s c n).map (c, ·)
/-- Zero a run of staging blocks that is given out. -/
def clearStage (s : State) (c b n : Nat) : State := sramWrite s (stageKey s c b) (List.replicate (n * 4096) 0)

/-- Return the storage of a page with no pins and no promotion whose references are gone (R241, R255). -/
def freePage (s : State) (p num : Nat) : State :=
  match findPage s p num with
  | none => s
  | some g =>
    if g.state = .released && g.pinNear = 0 && g.pinFar = 0 && !g.promo then
      let s1 := if g.nearValid then freeTiles s p g.nearAddr else s
      let s2 := if g.farValid then pageTabs (freeTiles s1 p (farTile0 + g.farAddr)) g false else s1
      s2.modServe fun w => { w with pages := w.pages.filter fun x => !(x.ptn == p && x.num == num) }
    else s
/-- Drop one reference of a page; at zero it is RELEASED (R241, R253). -/
def dropRef (s : State) (p num : Nat) : State :=
  match findPage s p num with
  | none => s
  | some g =>
    if g.refcnt ≤ 1 then
      let s1 := if g.state = .open || g.state = .sealing then freeTiles s p g.nearAddr else s
      -- a page in transit is released when its move ends
      freePage (modPage s1 p num fun g => { g with
        refcnt := 0, state := if g.state = .inTransit then .inTransit else .released, stage := none, mirror := none, dirty := [], marked := false }) p num
    else modPage s p num fun g => { g with refcnt := g.refcnt - 1 }
def addRef (s : State) (p num n : Nat) : State := modPage s p num fun g => { g with refcnt := g.refcnt + n }

/-- Whether a state holds Near pins (R254). -/
def pinning : RState → Bool
  | .prefill | .handoff | .decode | .promoting => true
  | _ => false
/-- Add or drop one Near pin on each page of the map that has a Near copy (R254). -/
def pinAll (s : State) (r : Req) (up : Bool) : State :=
  let ns := r.pageNums
  let s1 := s.modServe fun w => { w with
    pages := updIf (fun g => g.ptn == r.ptn && ns.contains g.num && g.nearValid)
      (fun g => { g with pinNear := if up then g.pinNear + 1 else g.pinNear - 1 }) w.pages }
  if up then s1 else ns.foldl (fun s n => freePage s r.ptn n) s1
/-- A request leaves its admission queue: the sojourn goes to the high-water mark (R474, R507). -/
def leaveQueue (s : State) (r : Req) : State := odRaise s (0x91C0 + r.ptn) 2 (sat 0xFFFFFFFF ((now s - r.acceptedAt) / 1000))
/-- Go to a state, taking or dropping pins (R230, R254). -/
def goState (s : State) (h : Nat) (st : RState) : State :=
  match findReq s h with
  | none => s
  | some r =>
    let s1 := if pinning st && !pinning r.state then pinAll s r true else if !pinning st && pinning r.state then pinAll s r false else s
    modReq (if r.state == .queued && st != .queued then leaveQueue s1 r else s1) h fun r => { r with state := st }
/-- Pins of requests on a page whose Near copy has become valid (R254). -/
def pinsOn (s : State) (p num : Nat) : Nat :=
  (s.serve.reqs.filter fun r => r.ptn == p && pinning r.state && r.pageNums.contains num).length

/-- Take remote references of a request back from the pages that they count in (R253, R383). -/
def dropSets (s : State) (p : Nat) (sets : List (Nat × Nat × List Nat)) : State :=
  ((sets.map (·.2.2)).flatten).foldl (fun s n => dropRef s p n) s
/-- Drop every reference of a map, and the remote references that stand (R230, R271). -/
def dropMap (s : State) (r : Req) : State :=
  let s1 := if pinning r.state then pinAll s r false else s
  dropSets (r.pageNums.foldl (fun s n => dropRef s r.ptn n) s1) r.ptn r.refSets
/-- The state header of a message (R364). -/
def stateHeader (op : Nat) (m : StateMsg) : List Byte :=
  leBytes 64 (packBits [(8, op), (5, m.srcPtn), (5, m.dstPtn), (14, 0), (32, m.srcHandle), (32, m.dstHandle), (16, m.epoch), (8, m.status), (8, 0), (32, m.tag),
    (32, m.seq), (32, m.qid), (32, m.body.length), (256, m.args)])
/-- Class of a state or table message of a partition, from its class map (R622, R623). -/
def stateClass (s : State) (p op : Nat) : Nat :=
  odGet s (0x9220 + p) (if op = 2 then 1 else if op = 0x10 || op = 0x11 then 2 else if 0x20 ≤ op && op ≤ 0x23 then 4 else 3)
/-- Send a state message (R364). -/
def sendState (s : State) (dev op : Nat) (m : StateMsg) : State :=
  if isolated s m.srcPtn then s else emit s (.state dev op (stateClass s m.srcPtn op) (stateHeader op m) { m with items := m.body.length })
/-- REF or RELEASE to a holder, kept until it is acknowledged (R383). -/
def refMsg (s : State) (r : Req) (release : Bool) (g : Group) (tag : Nat := 0) (seq : Nat := 0) : State :=
  sendState (s.modServe fun w => { w with
      refs := w.refs ++ [{ handle := r.handle, release := release, dev := g.holder, target := g.handle, sentAt := now s, tag := tag, seq := seq }] })
    g.holder (if release then 7 else 6)
    { srcPtn := r.ptn, dstPtn := bits g.handle 27 5, srcHandle := r.handle, dstHandle := g.handle, epoch := r.epoch, tag := tag, seq := seq }
/-- One group per holder of a plan. -/
def holdersOf (gs : List Group) : List Group :=
  gs.foldl (fun a g => if a.any fun h => h.holder == g.holder && h.handle == g.handle then a else a ++ [g]) []
/-- REFs or RELEASEs to holders, in the sequence of a move (R364). -/
def refAll (s : State) (r : Req) (release : Bool) (gs : List Group) (tag : Nat) (seq : Nat := 0) : State :=
  (gs.mapIdx fun i g => (i, g)).foldl (fun s x => refMsg s r release x.2 tag (seq + x.1)) s
def releaseAll (s : State) (r : Req) : State := refAll s r true (holdersOf r.planGroups) (if r.mverb = 0 then 0 else r.moveTag)
/-- Whether a page transfer first needs ENC, or LDT with DECODE, in a SEAL entry: an eviction that writes a Far copy, a page sent packed
that has none, the promotion of a coded copy (R361, R380, R390). -/
def needsCoding (s : State) : XferWhat → Bool
  | .evict p n _ => (findPage s p n).any fun g => !g.farValid
  | .send p n id => (findPage s p n).any (fun g => !g.farValid) && s.serve.moves.any fun m => m.id == id && m.pack
  | .promote p n _ => (findPage s p n).any fun g => !g.nearValid && g.packedLen != 0
  | _ => false
/-- Add a page transfer to the movers' wait (R360). -/
def addXfer (s : State) (ptn kind tiles : Nat) (what : XferWhat) : State :=
  s.modServe fun w => { w with
    xfers := w.xfers ++ [{ id := w.nextXfer, ptn := ptn, kind := kind, tiles := tiles, what := what, coding := needsCoding s what }], nextXfer := w.nextXfer + 1 }
def findXfer (s : State) (x : Nat) : Option Xfer := s.serve.xfers.find? (·.id == x)
/-- A transfer that cannot end now: it has not started, or a window holds a stack or channel that it reads or writes (R101). -/
def xferWaits (s : State) (x : Xfer) : Bool :=
  let near (p n : Nat) : Bool := (findPage s p n).any fun g => windowHolds s g.nearAddr g.slotTiles
  let far (p n : Nat) : Bool := (findPage s p n).any fun g => windowHolds s (farTile0 + g.farAddr) (if g.packedLen = 0 then g.slotTiles else cdiv g.packedLen 64)
  !x.running || match x.what with
  | .writeBack p n _ _ | .openLoad p n _ | .evict p n _ => near p n
  | .promote p n _ => far p n
  | .send p n _ => if (findPage s p n).any (·.farValid) then !x.fetched && far p n else near p n
  | _ => false
/-- Take a page transfer out; a packed copy in flight drops its references (R300). -/
def dropXfer (s : State) (x : Nat) : State :=
  (((findXfer s x).map (·.tabs)).getD []).foldl (fun s n => tabRef s n false) (s.modServe fun w => { w with xfers := w.xfers.filter (·.id != x) })

/-- Moves: a new one, its pages, and changes of it. -/
def addMove (s : State) (m : Move) : State :=
  s.modServe fun w => { w with moves := w.moves ++ [{ m with id := w.nextMove }], nextMove := w.nextMove + 1 }
def findMove (s : State) (id : Nat) : Option Move := s.serve.moves.find? (·.id == id)
def modMove (s : State) (id : Nat) (f : Move → Move) : State :=
  s.modServe fun w => { w with moves := updIf (·.id == id) f w.moves }
/-- The pages a move carries, from its start to its end. -/
def Move.carries (m : Move) : List Nat := (m.todo ++ m.flying ++ m.acked ++ m.resent).eraseDups
/-- The pin of a move on the copy it reads (R241, R361). -/
def pinCopy (g : Page) (far up : Bool) : Page :=
  if far then { g with pinFar := if up then g.pinFar + 1 else g.pinFar - 1 }
  else { g with pinNear := if up then g.pinNear + 1 else g.pinNear - 1 }
/-- Tiles of a page's transfer to another device: its Far copy as it is, else its slot page (R360, R361). -/
def sendTiles (g : Page) : Nat := if g.farValid && g.packedLen != 0 then cdiv g.packedLen 64 else g.slotTiles
/-- A page is IN_TRANSIT, its Far copy pinned when it has one, else its Near copy, and waits for its transfer (R241, R360, R361). -/
def carryPage (s : State) (id num : Nat) : State :=
  match findMove s id with
  | none => s
  | some m =>
    match findPage s m.ptn num with
    | none => s
    | some g =>
      let s1 := if m.carries.contains num then s
        else modMove (modPage s m.ptn num fun g => pinCopy { g with state := if g.state = .sealed then .inTransit else g.state } g.farValid true) id
          fun m => if g.farValid then { m with farPins := m.farPins ++ [num] } else m
      addXfer (modMove s1 id fun m => { m with todo := m.todo ++ [num] }) m.ptn 1 (sendTiles g) (.send m.ptn num id)
/-- The move of a page ends: its pin is dropped; it is SEALED again, or RELEASED when nothing refers to it (R241). -/
def endTransit (s : State) (p num : Nat) (far : Bool) : State :=
  let more := s.serve.moves.any fun m => m.ptn == p && m.carries.contains num
  freePage (modPage s p num fun g =>
    let g := pinCopy g far false
    { g with state := if more || g.state != .inTransit then g.state else if g.refcnt = 0 then .released else .sealed }) p num
/-- Take a move out, with its transfers and pins (R241, R300). -/
def endMove (s : State) (id : Nat) : State :=
  match findMove s id with
  | none => s
  | some m =>
    let sends := s.serve.xfers.filter fun x => match x.what with | .send _ _ i => i == id | _ => false
    let s1 := (sends.map (·.id)).foldl dropXfer (s.modServe fun w => { w with moves := w.moves.filter (·.id != id) })
    let s2 := m.flyTabs.foldl (fun s x => tabRef s x.2 false) s1
    m.carries.foldl (fun s n => endTransit s m.ptn n (m.farPins.contains n)) s2

/-- A request gives up its promotions: another request that is being promoted takes over a page that both wait for, else PROMO is
cleared (R256, R402). -/
def stopPromotions (s : State) (h : Nat) : State :=
  let mine := s.serve.xfers.filterMap fun x => match x.what with | .promote p n h' => if h' = h then some (x.id, p, n) else none | _ => none
  mine.foldl (fun s m =>
    let (id, p, n) := m
    match s.serve.reqs.find? fun r => r.ptn == p && r.handle != h && r.state == .promoting && r.pageNums.contains n with
    | some r => s.modServe fun w => { w with xfers := updIf (·.id == id) (fun x => { x with what := .promote p n r.handle }) w.xfers }
    | none => freePage (modPage (dropXfer s id) p n fun g => { g with promo := false }) p n) s
/-- Return everything that a request holds but its record (R230). -/
def clearReq (s : State) (h : Nat) : State :=
  match findReq s h with
  | none => s
  | some r =>
    -- a PLAN that waits completes at the next boundary (R357)
    let s1 := dropMap (stopPromotions (((s.serve.moves.filter fun m => m.handle == h && m.verb != 7).map (·.id)).foldl endMove s) h) r
    let s2 := freeTiles s1 r.ptn (r.pmap / 4096)
    let s2a := if r.partialBuf = 0 then s2 else freeTiles s2 r.ptn (r.partialBuf / 4096)
    let s3 := if r.inputAddr = 0 then s2a else freeTiles s2a r.ptn (r.inputAddr / 4096)
    s3.modServe fun w => { w with
      queries := w.queries.filter (·.handle != h),
      xfers := w.xfers.filter fun x => x.what != .input h }
/-- The record returns to the free state: the handle becomes stale (R223, R230). -/
def leaveSlot (s : State) (h : Nat) : State :=
  match findReq s h with
  | none => s
  | some r => (dropReq s h).modServe fun w => { w with
      gens := cntSet w.gens (r.ptn * 2 ^ 18 + r.slot) r.gen, rsrCache := w.rsrCache.filter (· != (r.ptn, r.slot)) }
/-- Free a request's slot and structures (R223, R230). -/
def freeReq (s : State) (h : Nat) : State := leaveSlot (clearReq s h) h
/-- The state in which a request ends with a status (R230). -/
def endState (status : Nat) : RState :=
  if status = stOK || status = stSTOPPED || status = stBUDGET then .done else if status = stCANCELLED || status = stUNSTARTED then .cancelled else .failed
/-- End a request with its record, its references to holders released (R230, R473): it is free at once, or stays DONE, CANCELLED or FAILED
with nothing left but its record until the completion is written. The admission charge of one of which no task was dispatched is
returned (R480). -/
def endReq (s : State) (h status index : Nat) : State :=
  let s := creditBack s h
  match findReq s h with
  | none => s
  | some r =>
    let s1 := clearReq (releaseAll (requestRec (if r.state == .queued then leaveQueue s r else s) r status index) r) h
    if s1.regs.waiting.any (fun w => endsReq h w.2) then
      modReq s1 h fun r => { r with
        state := endState status, map := [], inputAddr := 0, inputLeft := 0, input := [], planGroups := [], await := false, logitsBuf := none, task := none, install := none,
        newPlan := none, mverb := 0, reading := false, held := false, doubt := false, dropPending := false, remoteRefs := 0, refSets := [], sealedLen := 0, partialBuf := 0, pulled := [] }
    else leaveSlot s1 h

/-- Layers and positions of a request. -/
def layersOf (r : Req) : List Nat := List.range r.layers
/-- Sealed positions of a layer from the start: local SEALED pages and remote entries. -/
def sealedRun (s : State) (r : Req) (l : Nat) : Nat → Nat → Nat
  | 0, i => i
  | fuel + 1, i =>
    let ok := r.isRemote l i || (match (r.pageNum l i).bind (findPage s r.ptn) with
      | some g => g.state == .sealed || g.state == .inTransit
      | none => false)
    if ok then sealedRun s r l fuel (i + 1) else i
/-- Bytes of token `t` in the two components of an open page: (first byte, bytes). -/
def tokenBytes (g : Geo) (t : Nat) : List (Nat × Nat) :=
  [(t * g.d0 * 2, g.d0 * 2), (alignLine (bf16Comp g g.d0) + t * g.d1 * 2, g.d1 * 2)]
/-- Staging blocks that hold token `t` of an open page. -/
def tokenBlocks (g : Geo) (t : Nat) : List Nat :=
  ((tokenBytes g t).filter (fun r => r.2 != 0) |>.map fun r => (List.range ((r.1 + r.2 - 1) / 4096 - r.1 / 4096 + 1)).map (r.1 / 4096 + ·)).flatten.eraseDups
/-- Durable committed tokens of a page (R248); `mirrored` counts a mirror. -/
def pageDurable (g : Page) (mirrored : Bool) : Nat :=
  if g.state = .sealed || g.state = .inTransit || (mirrored && g.mirror.isSome) || g.dirty.isEmpty then g.tokens
  else ((List.range g.tokens).find? fun t => (tokenBlocks g.geo t).any g.dirty.contains).getD g.tokens
/-- Durable tokens of a layer from a position on: whole pages until one that is not (R248). -/
def durableFrom (s : State) (r : Req) (l : Nat) : Nat → Nat → Nat
  | 0, _ => 0
  | fuel + 1, i =>
    if r.isRemote l i then r.pageLen + durableFrom s r l fuel (i + 1)
    else match (r.pageNum l i).bind (findPage s r.ptn) with
      | none => 0
      | some g => let d := pageDurable g true; if d = r.pageLen then d + durableFrom s r l fuel (i + 1) else d
/-- Tokens durable in every layer now (R248). -/
def durableNow (s : State) (r : Req) : Nat :=
  let n := r.maxTokens / r.pageLen
  minN ((layersOf r).map fun l => let i := sealedRun s r l n 0; i * r.pageLen + durableFrom s r l (n - i) i)
/-- Recompute SEALED_LEN and DURABLE_LEN (R248, R251). -/
def recalc (s : State) (h : Nat) : State :=
  match findReq s h with
  | none => s
  | some r =>
    let n := r.maxTokens / r.pageLen
    let runs := (layersOf r).map fun l => (l, sealedRun s r l n 0)
    let sealedLen := minN (runs.map fun x => x.2 * r.pageLen)
    modReq s h fun r => { r with
      sealedLen := Nat.min sealedLen r.length, durableLen := Nat.max r.durableLen (Nat.min (durableNow s r) r.length) }

/-- Open page of a request at a layer: the first position not sealed or sealing that has a page. -/
def pagesOfLayer (s : State) (r : Req) (l : Nat) : List Page :=
  s.serve.pages.filter fun g => g.ptn == r.ptn && g.layer == l && r.pageNum l g.position == some g.num
def openPageOf (s : State) (r : Req) (l : Nat) : Option Page := (pagesOfLayer s r l).find? fun g => g.state == .open
def sealingPageOf (s : State) (r : Req) (l : Nat) : Option Page := (pagesOfLayer s r l).find? fun g => g.state == .sealing

/-- A page that is full goes to SEALING when no other page of the layer is there (R241, R250). -/
def startSeals (s : State) (h l : Nat) : State :=
  match findReq s h with
  | none => s
  | some r =>
    if (sealingPageOf s r l).isSome then s
    else match (sortBy (·.position) (pagesOfLayer s r l)).find? fun g => g.state == .open && g.tokens == r.pageLen with
      | some g => modPage s r.ptn g.num fun g => { g with state := .sealing, seals := false, waitNs := now s }
      | none => s
/-- Blocks that the provisional tokens of a page touch. -/
def provBlocks (g : Page) : List Nat := ((List.range g.prov).map fun i => tokenBlocks g.geo (g.tokens + i)).flatten.eraseDups
/-- A store of `n` bytes to staging is also written to the mirrors of the pages it touches, or through to their open areas, whole tiles
of them (R264-R266). -/
def mirrorStore (s : State) (key n : Nat) : State :=
  if key < 2 ^ 34 || 2 ^ 35 ≤ key then s
  else (s.serve.pages.filter fun g => g.mirror.isSome || g.through).foldl (fun s g =>
    match g.stage with
    | none => s
    | some (c, b) =>
      let base := stageKey s c b
      let lo := Nat.max key base
      let hi := Nat.min (key + n) (base + openBlocks g.geo * 4096)
      if hi ≤ lo then s
      else match g.mirror with
        | some (c', b') => sramWriteP s (stageKey s c' b' + (lo - base)) (sramRead s lo (hi - lo)) (sramPoison s lo (hi - lo))
        | none => ((List.range ((hi - 1 - base) / 4096 - (lo - base) / 4096 + 1)).map ((lo - base) / 4096 + ·)).foldl (fun s k =>
            tierWriteP s ((g.nearAddr + k) * 4096) (sramRead s (base + k * 4096) 4096) (sramPoison s (base + k * 4096) 4096)) s) s
/-- Commit of the tokens that a task appended at a layer: TOKENS advance, blocks become DIRTY unless they
have been written through, full pages start to seal (R246, R266, R438). -/
def commitLayer (s : State) (h l : Nat) : State :=
  match findReq s h with
  | none => s
  | some r =>
    let mine (g : Page) : Bool := g.ptn == r.ptn && g.layer == l && g.prov != 0 && r.pageNum l g.position == some g.num
    let gs := s.serve.pages.filter mine
    let s1 := s.modServe fun w => { w with
      -- a write-back that has read a block leaves it DIRTY (R438)
      xfers := w.xfers.map fun x => match x.what with
        | .writeBack p n bl again => match gs.find? fun g => g.ptn == p && g.num == n with
          | some g => if x.running then { x with what := .writeBack p n bl (again ++ provBlocks g) } else x
          | none => x
        | _ => x
      pages := updIf mine
        (fun g => { g with
          tokens := g.tokens + g.prov, prov := 0,
          dirty := if g.through then g.dirty else (provBlocks g).foldl (fun d b => insAsc b d) g.dirty }) w.pages }
    startSeals s1 h l
/-- Provisional tokens are discarded (R246). -/
def discardLayer (s : State) (h l : Nat) : State :=
  match findReq s h with
  | none => s
  | some r => s.modServe fun w => { w with
      pages := updIf (fun g => g.ptn == r.ptn && g.layer == l && r.pageNum l g.position == some g.num) (fun g => { g with prov := 0 }) w.pages }

/-- Records of the page table of a partition (DESIGN CHOICE, log 24). -/
def pageRecords (s : State) (p : Nat) : Nat := 65536 + 32 * liveLimit s p
/-- Whether the page table of a partition has no free record (R239, R436). -/
def pagesFull (s : State) (p : Nat) : Bool := pageRecords s p ≤ (s.serve.pages.filter (·.ptn == p)).length
/-- The lowest page record number that is free in a partition. -/
def freePageNum (s : State) (p : Nat) : Nat :=
  let used := (s.serve.pages.filter (·.ptn == p)).map (·.num)
  ((List.range (used.length + 1)).find? fun n => !used.contains n).getD 0
/-- Allocation of a Near area of a page: QUARTER spread in the home quarter of the staging constellation (R436). -/
def pageRoom (s : State) (p c n : Nat) : Option (Nat × State) := allocTiles s p false 1 (homeQuarter (c / 16)) n
/-- Spread of the device's own structures (R436). -/
def ownSpread (s : State) (p : Nat) : Nat := if (modeRanges s p 2 none).isEmpty then 0 else 2
/-- Zero-filled structure of the device in the Near tier. -/
def allocOwn (s : State) (p bytes : Nat) : Option (Nat × State) :=
  (allocTiles s p false (ownSpread s p) 0 (Nat.max 1 (cdiv bytes 4096))).map fun x => (x.1 * 4096, x.2)
/-- Eviction starts in a partition, as when a Near allocation finds no space (R389). -/
def startEviction (s : State) (p : Nat) : State :=
  if (ownFar s p).isEmpty || odGet s (0x9100 + p) 4 = 1 || s.serve.evicting.contains p then s
  else s.modServe fun w => { w with evicting := w.evicting ++ [p] }
/-- The partner of a constellation in its partition (R264); none when it owns one. -/
def partnerOf (s : State) (p l : Nat) : Option Nat :=
  let cs := (getPtn s p).cons
  if cs.length ≤ 1 then none else (cs.find? fun c => l < c).orElse fun _ => cs.head?
/-- Clusters of the partner of the constellation of a staging cluster. -/
def partnerClusters (s : State) (p c : Nat) : Option (List Nat) := (partnerOf s p (c / 16)).map fun l => (List.range 16).map (l * 16 + ·)
/-- A staged page of a DURABLE request gets its mirror, a copy of the primary, or is written through where the partition owns one
constellation (R264, R266); none while the partner has no room. A partner that nothing carries takes no mirror until it is replaced (R267). -/
def addMirror (s : State) (p num : Nat) : Option State :=
  match findPage s p num with
  | none => some s
  | some g =>
    match g.stage with
    | none => some s
    | some (c, b) =>
      match partnerClusters s p c with
      | none => some (modPage s p num fun g => { g with through := true })
      | some cs =>
        let n := openBlocks g.geo
        if (physOf s (cs.headD 0 / 16)).isNone then some s else
        (chooseStage s cs n).map fun m =>
          modPage (sramWriteP s (stageKey s m.1 m.2) (sramRead s (stageKey s c b) (n * 4096)) (sramPoison s (stageKey s c b) (n * 4096))) p num
            fun g => { g with mirror := some m }
/-- Open a page for an append: record, open area, staging, mirror (R241, R243, R264). -/
def openPage (s : State) (h l i : Nat) (cs : List Nat) : Option State :=
  match findReq s h with
  | none => none
  | some r =>
    let n := openBlocks r.geo
    match (if pagesFull s r.ptn then none else chooseStage s cs n) with
    | none => none
    | some (c, b) =>
      match pageRoom s r.ptn c n with
      | none => none
      | some (tile, s1) =>
        let num := freePageNum s r.ptn
        let g : Page := { ptn := r.ptn, num := num, layer := l, position := i, pageCode := r.pageCode, widthCode := r.widthCode,
                          latent := r.latent, dim := r.dim, groups := r.groups, posDim := r.posDim, model := r.model,
                          nearAddr := tile, slotTiles := slotTilesOf r.geo, stage := some (c, b) }
        let s2 := clearStage (s1.modServe fun w => { w with pages := w.pages ++ [g] }) c b n
        let s3 := modReq s2 h fun r => setMap r l i (mapValid num)
        if r.durable then addMirror s3 r.ptn num else some s3

/-- Bytes of a slot page up to the end of its last component (R235). -/
def slotBytes (g : Geo) : Nat := alignLine (slotComp g g.d0) + (if g.latent then bf16Comp g g.d1 else slotComp g g.d1)
/-- The seal of a page ends: the slot page stands in the Near tier, the bytes beyond its last component zero; staging and open area are
freed (R235, R241, R251). `tile` is the slot page. -/
def sealPage (s : State) (h num tile : Nat) : State :=
  match findReq s h with
  | none => s
  | some r =>
    match findPage s r.ptn num with
    | none => s
    | some g =>
      let s1 := tierWrite (freeTiles s r.ptn g.nearAddr) (tile * 4096 + slotBytes g.geo) (List.replicate (g.slotTiles * 4096 - slotBytes g.geo) 0)
      let s2 := modPage s1 r.ptn num fun g => { g with
        state := .sealed, nearValid := true, nearAddr := tile, pinNear := pinsOn s r.ptn num,
        stage := none, mirror := none, through := false, dirty := [], marked := false, seals := false, sealDone := [] }
      recalc (startSeals s2 h g.layer) h

/-- Number that stands for no table in a page whose tensor has none (R286, R289); then no coded block is valid. -/
abbrev noTable : Nat := 4096
/-- Codes of a table, none when it is FREE (R314). -/
def tabCodes (s : State) (n : Nat) : Option (List (Nat × Nat)) :=
  if noTable ≤ n then some [] else (findTab s n).map fun t => assignCodes t.lengths
/-- Slot form of a page's Near or Far copy; none for a stream fault (R288, R313). -/
def slotOf (s : State) (g : Page) : Option (List Byte) :=
  let size := g.slotTiles * 4096
  if g.nearValid then some (tierRead s (g.nearAddr * 4096) size)
  else
    let a := farBase + g.farAddr * 4096
    if g.packedLen = 0 then some (tierRead s a size)
    else match tabCodes s g.table, (if g.latent then some [] else tabCodes s (g.table + 1)) with
      | some c0, some c1 => unpackPage g.geo c0 c1 (tierRead s a (g.packedLen * 64))
      | _, _ => none
/-- A step that did not reach its last layer is given up: its provisional tokens go, those that its tasks have committed at the layers
before stay (R246, R271, R380); the step that begins again appends nothing where they stand (DESIGN CHOICE, log 90). -/
def trimStep (s : State) (h : Nat) : State :=
  match findReq s h with
  | none => s
  | some r =>
    let s1 := s.modServe fun w => { w with
      pages := updIf (fun g => g.ptn == r.ptn && r.pageNum g.layer g.position == some g.num) (fun g => { g with prov := 0 }) w.pages }
    modReq s1 h fun r => { r with layer := 0, phase := 0, stepTokens := 0, task := none }
/-- The open form of a slot page: its values in BF16 (R235, R236, R274), which holds them exactly. -/
def slotToOpen (g : Geo) (slot : List Byte) : List Byte :=
  let n := kvqBits g.width
  let comp (d o : Nat) : List Byte := ((slotBlocks g d o slot).map fun b => (b.syms.map fun q => leBytes 2 (writeFmt bf16 (kvqValue n b.scale q))).flatten).flatten
  let o1 := alignLine (slotComp g g.d0)
  padTo (openBlocks g * 4096) (padTo (alignLine (bf16Comp g g.d0)) (comp g.d0 0) ++ if g.latent then bytesAt slot o1 (bf16Comp g g.d1) else comp g.d1 o1)
/-- A sealed page that a roll-back cuts goes on as an open page with the tokens that stay, for the request alone; without room for it the
request ends with STATE_LOST (R268; DESIGN CHOICE, log 90). -/
def reopenPage (s : State) (h keep : Nat) (g : Page) : State :=
  match slotOf s g, (if pagesFull s g.ptn then none else allocTiles s g.ptn false (ownSpread s g.ptn) 0 (openBlocks g.geo)) with
  | some slot, some (tile, s1) =>
    let new : Page := {
      ptn := g.ptn, num := freePageNum s g.ptn, layer := g.layer, position := g.position, pageCode := g.pageCode, widthCode := g.widthCode, latent := g.latent, dim := g.dim,
      groups := g.groups, posDim := g.posDim, model := g.model, tokens := keep, nearAddr := tile, slotTiles := g.slotTiles, state := .open }
    dropRef (modReq (tierWrite (s1.modServe fun w => { w with pages := w.pages ++ [new] }) (tile * 4096) (slotToOpen g.geo slot)) h
      fun r => setMap r g.layer g.position (mapValid new.num)) g.ptn g.num
  | _, _ => match findReq s h with
    | some r => endReq s h stLOST r.lastIndex
    | none => s
/-- Roll a request back to its durable length (R268, R269): PARKED with TRUNCATED. Tasks of the request
are stopped by the new epoch where they run. -/
def rollback (s : State) (h : Nat) : State :=
  match findReq s h with
  | none => s
  | some r =>
    let d := r.durableLen
    -- pins are dropped, and a move or promotion in progress is given up, while the map still names their pages (R254, R262)
    let s0 := goState (stopPromotions (((s.serve.moves.filter fun m => m.handle == h && m.verb ≤ 4).map (·.id)).foldl endMove s) h) h .parked
    let gone := (layersOf r).map fun l => (pagesOfLayer s0 r l).filter fun g => d ≤ g.position * r.pageLen
    let s1 := gone.flatten.foldl (fun s g => dropRef (modReq s h fun r => setMap r g.layer g.position 0) r.ptn g.num) s0
    let cut (g : Page) : Bool := g.ptn == r.ptn && r.pageNum g.layer g.position == some g.num && g.position * r.pageLen < d && d < g.position * r.pageLen + g.tokens
    let closed (g : Page) : Bool := g.state == .sealed || g.state == .inTransit
    let s1a := s1.modServe fun w => { w with
      pages := updIf (fun g => cut g && !closed g) (fun g => { g with tokens := d - g.position * r.pageLen, prov := 0, state := .open }) w.pages }
    let s2 := (s1.serve.pages.filter fun g => cut g && closed g).foldl (fun s g => reopenPage s h (d - g.position * r.pageLen) g) s1a
    let s4 := modReq s2 h fun r => { r with
      mverb := if r.mverb ≤ 4 then 0 else r.mverb,
      length := d, epoch := (r.epoch + 1) % 65536, layer := 0, phase := 0, stepTokens := 0, task := none, await := false, logitsBuf := none,
      sealedLen := Nat.min r.sealedLen d }
    let s5 := s4.modServe fun w => { w with queries := w.queries.filter (·.handle != h) }
    match findReq s5 h with
    | some r => requestRec (bumpReg s5 0x700048) r stTRUNCATED (if r.promptLen < d then d - r.promptLen - 1 else 0xFFFFFFFF)
    | none => s5

/-- Leaving QUEUED: the sojourn and the queue's mark (R475, R507). -/
def queueDepth (s : State) (p : Nat) : Nat := (s.serve.reqs.filter fun r => r.ptn == p && r.state == .queued).length

/-- The model of a request's image (R226). -/
def modelOf (s : State) (n : Nat) : Option Model := (image s).bind fun im => im.models.find? (·.number == n)

/-- REASON of a token by the checks of R492; only checks 3 and 4 where its step was dispatched in host-assisted stop detection (R25, R494). -/
def stopReason (r : Req) (tok : Nat) : Nat :=
  let host := r.stopsByHost
  let turn := Nat.min 7 r.hist.length
  let gen := r.hist.drop (r.hist.length - turn) ++ [tok]
  let seqHit (q : List Nat) : Bool := q.length ≤ gen.length && gen.drop (gen.length - q.length) == q
  if !host && r.stopTok.contains tok then 1
  else if !host && r.stopSeq.any seqHit then 2
  else if r.maxNew ≤ r.generated + 1 then 3
  else if r.maxTokens ≤ r.promptLen + r.nextIndex + 1 then 4
  else 0
/-- REQUEST status of a REASON (R492). -/
def reasonStatus : Nat → Nat
  | 1 => stSTOPPED | 2 => stSTOPPED | 3 => stOK | _ => stBUDGET

/-- Records of the token ring in use, for its high-water mark (R507). -/
def ringUsed (s : State) (ring : Nat) : Nat :=
  if ringEn s ring then ringSize s ring - ringFree s ring + (s.regs.waiting.filter (·.1 == ring)).length else 0
def tokenRec (s : State) (r : Req) (token index : Nat) (final logits : Bool) (reason : Nat) : State :=
  let s1 := taskWrite s (winRing r.ptn 4) r.handle (.token r.handle token index final logits reason r.epoch)
  odRaise s1 (0x91C0 + r.ptn) 3 (ringUsed s1 (winRing r.ptn 4))
/-- A chosen token: its record, the charge, HIST, and the end of the turn (R480, R492-R495, R499). -/
def takeToken (s : State) (h tok reason : Nat) : State :=
  match findReq s h with
  | none => s
  | some r =>
    let s1 := tokenRec s r tok r.nextIndex (reason != 0) false reason
    let s2 := modReq s1 h fun r => { r with
      lastIndex := r.nextIndex, nextIndex := r.nextIndex + 1, generated := r.generated + 1,
      hist := (r.hist ++ [tok]).drop (r.hist.length + 1 - 7), await := false, logitsBuf := none }
    let s3 := charge s2 h (odGet s (0x91A0 + r.ptn) 4)
    if reason = 0 then s3
    else if r.keep then
      match findReq s3 h with
      | some r => requestRec (modReq s3 h fun r => { r with finished := true }) r (reasonStatus reason) r.lastIndex
      | none => s3
    else endReq s3 h (reasonStatus reason) r.nextIndex

end Sys2Proof.Machine
end

