-- ==== Sys2Proof/Machine/Fabric.lean ====
section
/-! DEFINITION. Sending on the fabric (R530-R533, R540-R551, R568-R596, R607-R618, R622-R641): ports and
gates, egress queues, cells, routes, messages and their outstanding state, windows, gateways. -/

namespace Sys2Proof.Machine
open Sys2Proof

def linkOf (s : State) (n : Nat) : Link := s.fab.links.getD n {}
def modLink (s : State) (n : Nat) (f : Link → Link) : State := s.modFab fun b => { b with links := modAt b.links n f }
def portIsUp (s : State) (n : Nat) : Bool := (linkOf s n).state == 3
/-- KQ_CTL in force: MODE and MERGE (R562), which acts while both ports are in KQ mode (R532); an odd half of a merged port. -/
def portMode (s : State) (n : Nat) : Nat := regFld s (portBase n) 0 2
def isMerged (s : State) (n : Nat) : Bool :=
  n < 16 && n % 2 == 0 && (getReg s (portBase n)).getLsbD 2 && portMode s n == 1 && portMode s (n + 1) == 1
def oddHalf (s : State) (n : Nat) : Bool := n < 16 && n % 2 == 1 && isMerged s (n - 1)
/-- Rate of a sub-port in Gb/s in Ethernet mode (R562). -/
def ethRate (s : State) (n : Nat) : Nat := match regFld s (portBase n) 3 2 with | 0 => 800 | 1 => 400 | _ => 200
/-- Cell time in hundredths of a ns (R530, R557). -/
def cellTime (s : State) (n : Nat) : Nat := if n = 16 then 64 else if isMerged s n then 128 else 256
/-- Cells of a replay buffer (R532, R550, R557). -/
def replaySize (s : State) (n : Nat) : Nat := if n = 16 || isMerged s n then 8192 else 4096

/-- Ticks since the cycle began (R138). -/
def tickNow (s : State) : Nat := (now s - s.eph.cycleAt) / 4
/-- GATE entries that act on a port (R624, R625). -/
def portGates (s : State) (n : Nat) : List Entry :=
  if 16 ≤ n || oddHalf s n then []
  else match image s with
    | some im => gateEntries (im.sections.getD (if n < 8 then 4 else 5) {}) s.eph.n1 n
    | none => []
def isGated (s : State) (n : Nat) : Bool := !(portGates s n).isEmpty
/-- Credit-based service of a gated port (R625); never in a step cycle. -/
def creditBased (s : State) (n : Nat) : Bool :=
  s.eph.stepEnd.isNone && (s.eph.credit || (linkOf s n).state == 0 || (linkOf s n).state == 4)
/-- OPEN in force (R625, R626, R645). A port that a segment has begun to gate holds the state of the last of its GATE entries that would
have run, until one runs, as R97 has it of a new image (DESIGN CHOICE, log 76). -/
def openNow (s : State) (n : Nat) : Nat :=
  if !isGated s n then 0xFF
  else if s.eph.stepEnd.isSome then 0
  else if creditBased s n then 0xFF
  else match s.eph.gates.find? (·.1 == n) with
    | some g => g.2
    | none => (gateAt (portGates s n) s.eph.cycle (tickNow s) 32769).getD 0xFF
/-- The closing of class `c`, in ns: the start of the next GATE entry that closes it (R623, R628). -/
def closingFrom (gs : List Entry) (c t : Nat) : Nat → Nat → Nat → Nat → Option Nat
  | 0, _, _, _ => none
  | fuel + 1, k, tick, base =>
    let l := sortBy (·.start) (gs.filter fun e => runsIn e k && tick < e.start + 1 && !bit (bits e.action 0 8) c)
    match l.head? with
    | some e => some (base + 4 * e.start)
    | none => closingFrom gs c t fuel (k + 1) 0 (base + 4 * t)
def closing (s : State) (n c : Nat) : Option Nat :=
  if !isGated s n || creditBased s n then none
  else closingFrom (portGates s n) c (((image s).map (·.cycleTicks)).getD 0) 32769 s.eph.cycle (tickNow s + 1) s.eph.cycleAt
/-- Longest window of a class in ticks over the cycles in which the image repeats (R633, R647). -/
def wmax (s : State) (n c : Nat) : Nat :=
  let gs := portGates s n
  let t := ((image s).map (·.cycleTicks)).getD 0
  let reps := 2 ^ maxN (gs.map (·.rpt))
  let evs := ((List.range (2 * reps)).map fun k =>
    (sortBy (·.start) (gs.filter fun e => runsIn e k)).map fun e => (k * t + e.start, bit (bits e.action 0 8) c)).flatten
  if gs.isEmpty || evs.all (·.2) then 0xFFFFFF
  else
    let r := evs.foldl (fun a e => match a.1, e.2 with
      | none, true => (some e.1, a.2)
      | some f, false => (none, Nat.max a.2 (e.1 - f))
      | o, _ => (o, a.2)) ((none, 0) : Option Nat × Nat)
    Nat.min 0xFFFFFF r.2
def maxFrame (s : State) (n c : Nat) : Nat := regFld s (portBase n + 0x220 + 4 * c) 0 14
/-- Frame time in hundredths of a ns (R631). -/
def frameTime (s : State) (n bytes : Nat) : Nat := cdiv ((bytes + 20) * 800) (ethRate s n)

/-- Wire bytes of an item (R637). -/
def QItem.wire : QItem → Nat
  | .cell _ => 256 | .frame f _ => f.bytes + 20
/-- Subscriber and class of an item (R635). -/
def QItem.cls : QItem → Nat
  | .cell c => c.cls | .frame f _ => f.prio
def queueOf (s : State) (n q : Nat) : List QItem := (((linkOf s n).queues.find? (·.1 == q)).map (·.2)).getD []
def setQueue (l : Link) (q : Nat) (items : List QItem) : Link :=
  { l with queues := if items.isEmpty then sdel l.queues q else sput l.queues q items }
/-- Depth of a queue in 256-byte units. -/
def depthOf (items : List QItem) : Nat := cdiv (sumN (items.map QItem.wire)) 256
/-- WEIGHT of a queue or a subscriber; 0 acts as 1 (R650, R651). -/
def qWeight (s : State) (n q : Nat) : Nat := Nat.max 1 (regFld s (portBase n + 0x1000 + 16 * q) 0 16)
def subWeight (s : State) (n k : Nat) : Nat := Nat.max 1 (regFld s (portBase n + 0x2100 + 16 * k) 0 16)
/-- Finish tag of an item that reaches the head of its queue (R639). -/
def newTag (s : State) (n q : Nat) (l : Link) (wire : Nat) : Link :=
  let f := cnt l.finish q
  -- tags are compared modulo 2^48
  let base := if (f + 2 ^ 48 - l.vtime) % 2 ^ 48 < 2 ^ 47 then f else l.vtime
  { l with finish := sput l.finish q ((base + wire * 65536 / qWeight s n q) % 2 ^ 48) }
/-- An item joins its queue (R635, R643). -/
def enqueue (s : State) (n sub : Nat) (it : QItem) : State :=
  let q := 8 * sub + it.cls % 8
  let old := queueOf s n q
  let s1 := modLink s n fun l => setQueue (if old.isEmpty then newTag s n q l it.wire else l) q (old ++ [it])
  raiseReg s1 (portBase n + 0x1000 + 16 * q + 0xC) (Nat.min 0xFFFFFF (depthOf (old ++ [it])))

/-- Bytes that a shaper or policer holds now (R637). -/
def bucket (s : State) (l : Link) (k rate burst : Nat) : Int :=
  match l.buckets.find? (·.1 == k) with
  | none => burst
  | some b =>
    let v := b.2.1 + rate * 125 * (now s - b.2.2) / 1000
    if v < burst then v else burst
/-- Debit wire bytes. -/
def debit (s : State) (l : Link) (k rate burst wire : Nat) : Link :=
  if rate = 0 then l
  else { l with buckets := sput l.buckets k (bucket s l k rate burst - wire, now s) }
/-- RATE and BURST of the shapers of a queue, a subscriber, the port (R646, R650, R651). -/
def qShaper (s : State) (n q : Nat) : Nat × Nat × Nat := (q, regFld s (portBase n + 0x1004 + 16 * q) 0 21, regFld s (portBase n + 0x1008 + 16 * q) 0 24)
def subShaper (s : State) (n k : Nat) : Nat × Nat × Nat := (264 + k, regFld s (portBase n + 0x2104 + 16 * k) 0 21, regFld s (portBase n + 0x2108 + 16 * k) 0 24)
def portShaper (s : State) (n : Nat) : Nat × Nat × Nat := (512, regFld s (portBase n + 0x208) 0 21, regFld s (portBase n + 0x20C) 0 24)
/-- Shapers that apply to a queue in the mode in force (R638, R639). -/
def shapers (s : State) (n q : Nat) : List (Nat × Nat × Nat) :=
  if (linkOf s n).mode = 0 then [qShaper s n q, subShaper s n (q / 8), portShaper s n] else [qShaper s n q, portShaper s n]
/-- Whether an item is a send of a partition of this device: neither a cell that passes through, nor a reply to another device (R734, R735). -/
def ownItem (s : State) : QItem → Bool
  | .cell x => x.src == myDev s && x.stream != 0xFFF
  | .frame _ _ => true
/-- Whether the head of a queue may be sent (R555, R624, R628, R631, R636): its class open, its end before the
closing, a credit, no pause, shapers at or above 0, room for replay. -/
def eligible (s : State) (n q : Nat) : Bool :=
  let l := linkOf s n
  match (queueOf s n q).head? with
  | none => false
  | some it =>
    let c := it.cls % 8
    let time := match it with | .cell _ => cellTime s n + 800 | .frame f _ => frameTime s n f.bytes
    bit (openNow s n) c && !s.eph.recal.contains n
    -- a fenced partition's sends stop; what only passes through or answers goes on (R587, R734, R735)
    && (!isolated s (q / 8) || !ownItem s it)
    && (match closing s n c with | some t => decide (now s * 100 + time ≤ t * 100) | none => true)
    && (match it with
        | .cell _ => l.state == 3 && l.credits.getD c 0 != 0 && decide (l.replay.length < replaySize s n)
            -- transfers on the pair link are timed by TRANSFER entries of their partition (R624); a running one limits any port (R94)
            && (q / 8 == 32 || (image s).isNone ||
              (let mine := s.eph.xfer.filter fun x => x.2.2.1 == n && x.2.2.2.1 == q / 8
               (n != 16 && mine.isEmpty) || mine.any fun x => x.2.2.2.2 != 0))
        | .frame _ _ => l.state == 3 && !bit l.paused c)
    && (shapers s n q).all fun x => x.2.1 == 0 || decide (0 ≤ bucket s l x.1 x.2.1 x.2.2)
def eligibles (s : State) (n : Nat) : List Nat := ((linkOf s n).queues.map (·.1)).filter (eligible s n)
/-- Deficit round robin over subscribers (R638): the subscriber served, with the deficits. -/
def drr (s : State) (n : Nat) (es : List Nat) : Nat → Nat → List (Nat × Nat) → Option (Nat × List (Nat × Nat))
  | 0, _, _ => none
  | fuel + 1, sub, ds =>
    let mine := es.filter fun q => q / 8 == sub
    let q := maxN mine
    let wire := (((queueOf s n q).head?).map QItem.wire).getD 0
    if mine.isEmpty then
      let nx := (sub + 1) % 33
      drr s n es fuel nx (cntSet (cntSet ds sub 0) nx (cnt ds nx + (if es.any fun q => q / 8 == nx then subWeight s n nx * 256 else 0)))
    else if wire ≤ cnt ds sub then some (sub, ds)
    else
      let nx := (sub + 1) % 33
      drr s n es fuel nx (cntSet ds nx (cnt ds nx + (if es.any fun q => q / 8 == nx then subWeight s n nx * 256 else 0)))
/-- The queue that a port serves next (R638, R639). -/
def nextQueue (s : State) (n : Nat) : Option (Nat × Link) :=
  let l := linkOf s n
  let es := eligibles s n
  match es with
  | [] => none
  | e :: r =>
    if l.mode = 0 then
      (drr s n es 1300000 l.lastSub l.deficit).map fun (sub, ds) =>
        let q := maxN (es.filter fun q => q / 8 == sub)
        let wire := (((queueOf s n q).head?).map QItem.wire).getD 0
        (q, { l with lastSub := sub, deficit := cntSet ds sub (cnt ds sub - wire) })
    else
      let rel (q : Nat) : Nat := (cnt l.finish q + 2 ^ 48 - l.vtime) % 2 ^ 48
      let q := r.foldl (fun a b => if rel b < rel a || (rel b == rel a && b < a) then b else a) e
      some (q, { l with vtime := cnt l.finish q })

/-- HCRC over header bytes 2 to 15 (R543). -/
def hcrc (hdr : Nat) : Nat := crc16 ((leBytes 16 hdr).drop 2)
/-- The header of a DATA cell (R540). -/
def Cell.header (c : Cell) : Nat :=
  let h := 1 * 2 ^ 124 + c.cls * 2 ^ 121 + b2n c.first * 2 ^ 120 + b2n c.last * 2 ^ 119 + b2n c.ecn * 2 ^ 118 + b2n c.retry * 2 ^ 117
    + b2n c.poison * 2 ^ 116 + c.src * 2 ^ 108 + c.dst * 2 ^ 100 + c.msgId * 2 ^ 80 + c.offset * 2 ^ 64 + c.stream * 2 ^ 52 + c.sseq * 2 ^ 28
    + c.ptn * 2 ^ 23 + cdiv c.payload.length 2 * 2 ^ 16
  h + hcrc h
/-- A DATA cell from its header. -/
def parseCell (hdr : Nat) (payload : List Byte) : Cell :=
  { cls := bits hdr 121 3, first := bit hdr 120, last := bit hdr 119, ecn := bit hdr 118, retry := bit hdr 117, poison := bit hdr 116, src := bits hdr 108 8,
    dst := bits hdr 100 8, msgId := bits hdr 80 20, offset := bits hdr 64 16, stream := bits hdr 52 12, sseq := bits hdr 28 24, ptn := bits hdr 23 5,
    payload := payload.take (2 * bits hdr 16 7) }

/-- Path choices for a destination that are VALID with an UP port, as (choice, port, hops, die) (R582, R585). -/
def choicesTo (s : State) (dst : Nat) : List (Nat × Nat × Nat × Nat) :=
  ((List.range 8).map fun i => (i, cnt s.fab.routes (8 * dst + i))).filterMap fun (i, v) =>
    let p := bits v 0 5
    if bit v 8 && portIsUp s p && p ≤ 16 then some (i, p, bits v 5 2, bits v 7 1) else none
/-- The port that a cell takes: eligible choices by die and hops, then the most credits of its class, ties
round-robin (R585, R586); the pair link only to the partner and never to forward (R557). -/
def choosePort (s : State) (dst die cls : Nat) (forward : Bool) : Option (Nat × Nat) :=
  let all := (choicesTo s dst).filter fun c => c.2.1 != 16 || (!forward && (linkOf s 16).partner == dst)
  let same := all.filter fun c => c.2.2.2 == die
  let low := minN (same.map fun c => c.2.2.1)
  let el := same.filter fun c => c.2.2.1 ≤ low + (if forward then 0 else 1)
  let pool := if el.isEmpty then all else el
  let cr (c : Nat × Nat × Nat × Nat) : Nat := (linkOf s c.2.1).credits.getD cls 0
  let best := maxN (pool.map cr)
  let last := cnt s.fab.robin dst
  let rot := (pool.filter fun c => last < c.1 + 1) ++ pool.filter fun c => c.1 + 1 ≤ last
  (rot.find? fun c => cr c == best).map fun c => (c.1, c.2.1)
/-- An event of the transaction layer, once per cycle per code and subject (R621). -/
def kqtOnce (s : State) (p : Option Nat) (code subject : Nat) (payload : List Nat) : State :=
  if s.fab.told.contains (code, subject) then s
  else
    let s1 := s.modFab fun b => { b with told := b.told ++ [(code, subject)] }
    let e : Event := { cls := 7, code := code, payload := payload }
    match p with
    | some p => raiseBoth s1 p e
    | none => raisePf s1 e
/-- Cells discarded (R619 subindex 0x06). -/
def countDrop (s : State) : State := odCount s 0x9010 6
/-- Queue a cell toward its destination; none without a path (R586-R588). -/
def routeCell (s : State) (c : Cell) (sub : Nat) (forward : Bool) : Option State :=
  (choosePort s c.dst (c.msgId % 2) c.cls forward).map fun (i, p) =>
    enqueue (s.modFab fun b => { b with robin := cntSet b.robin c.dst (i + 1) }) p sub (.cell c)

/-- Cut a list of bytes into payloads of 224. -/
def payloads (l : List Byte) : List (List Byte) := (List.range (Nat.max 1 (cdiv l.length 224))).map fun i => bytesAt l (224 * i) 224
/-- The cells of a message: header and data, poison by the words each carries (R551, R572). -/
def cellsOf (s : State) (dst msgId stream sseq ptn cls : Nat) (retry : Bool) (bytes : List Byte) (poison : List Nat) (skip : Nat) : List Cell :=
  let ps := payloads bytes
  ps.mapIdx fun i p =>
    { cls := cls, first := i == 0, last := i + 1 == ps.length, retry := retry, poison := poison.any fun w => (skip + 8 * w) / 224 == i,
      src := myDev s, dst := dst, msgId := msgId, offset := i, stream := stream, sseq := sseq, ptn := ptn, payload := p }
/-- The memory header (R573). -/
def memHeader (op ptn handle epoch addr len sharers oparg : Nat) : List Byte :=
  leBytes 32 (op + ptn * 2 ^ 8 + epoch * 2 ^ 16 + handle * 2 ^ 32 + addr * 2 ^ 64 + len * 2 ^ 128 + sharers * 2 ^ 160 + oparg * 2 ^ 192)
/-- Send the cells of a message: none where no choice is VALID with an UP port. -/
def sendCells (s : State) (cs : List Cell) (sub : Nat) : Option State :=
  cs.foldl (fun a c => a.bind fun s => routeCell s c sub false) (some s)

/-- The next free MSG_ID of a destination with bit 0 given (R593). -/
def freeId (s : State) (dst die : Nat) : Nat → Nat → Option Nat
  | 0, _ => none
  | fuel + 1, id =>
    if id % 2 = die && !(s.fab.sent.any fun m => m.dev == dst && m.msgId == some id) && !s.fab.resting.contains (dst, id) then some id
    else freeId s dst die fuel ((id + 1) % 2 ^ 20)
def takeId (s : State) (dst die : Nat) : Option (Nat × State) :=
  (freeId s dst die (2 * (s.fab.sent.length + s.fab.resting.length) + 4) (cnt s.fab.lastId dst % 2 ^ 20)).map fun id =>
    (id, s.modFab fun b => { b with lastId := cntSet b.lastId dst ((id + 1) % 2 ^ 20) })
/-- The die of a new message: that of the first path with the fewest hops. -/
def dieFor (s : State) (dst : Nat) : Nat :=
  let cs := choicesTo s dst
  let low := minN (cs.map fun c => c.2.2.1)
  (((cs.find? fun c => c.2.2.1 == low)).map fun c => c.2.2.2).getD 0
def isAtomic (op : Nat) : Bool := 0x48 ≤ op && op ≤ 0x4E
/-- Messages that an operation's stream has outstanding, and atomics among them (R594). -/
def streamFull (s : State) (m : SentMsg) : Bool :=
  let l := s.fab.sent.filter fun x => x.dev == m.dev && x.stream == m.stream && x.msgId.isSome
  1024 ≤ l.length || (isAtomic m.op && 64 ≤ (l.filter fun x => isAtomic x.op).length)
/-- The bytes of a message on the wire. -/
def SentMsg.bytes (m : SentMsg) : List Byte := memHeader m.op m.ptn m.handle m.epoch m.addr m.len m.sharers 0 ++ m.data
/-- Send a message again whole, with RETRY (R596). -/
def resendMsg (s : State) (m : SentMsg) : State :=
  let s1 := s.modFab fun b => { b with sent := updIf (·.id == m.id) (fun m => { m with sends := m.sends + 1, sentAt := now s }) b.sent }
  (sendCells s1 (cellsOf s1 m.dev (m.msgId.getD 0) m.stream m.sseq m.ptn m.cls true m.bytes m.poison 32) m.ptn).getD s1
/-- Give a waiting message its MSG_ID and STREAM_SEQ and send it, when both are to be had (R593, R594). -/
def tryMsg (s : State) (id : Nat) : State :=
  match s.fab.sent.find? (·.id == id) with
  | none => s
  | some m =>
    if m.msgId.isSome || streamFull s m then s
    else match takeId s m.dev (dieFor s m.dev) with
      | none => s
      | some (mid, s1) =>
        let k := m.dev * 4096 + m.stream
        let idle := !(s.fab.sent.any fun x => x.dev == m.dev && x.stream == m.stream && x.msgId.isSome) && 5000000 ≤ now s - cnt s.fab.txAt k
        let seq := if idle then 0 else cnt s.fab.txSeq k
        let m' := { m with msgId := some mid, sseq := seq, sends := 1, sentAt := now s }
        let s2 := s1.modFab fun b => { b with
          txSeq := cntSet b.txSeq k (if seq = 2 ^ 24 - 1 then 1 else seq + 1), txAt := cntSet b.txAt k (now s), sent := updIf (·.id == id) (fun _ => m') b.sent }
        (sendCells s2 (cellsOf s2 m.dev mid m.stream seq m.ptn m.cls false m'.bytes m.poison 32) m.ptn).getD s2
/-- Every message that waits, in order. -/
def tryWaiting (s : State) : State := ((s.fab.sent.filter (·.msgId.isNone)).map (·.id)).foldl tryMsg s
/-- Send a message, or say with which status it completes at once (R588, R620). -/
def sendMsg (s : State) (m : SentMsg) : State × Option Nat :=
  if (choicesTo s m.dev).isEmpty then (odCount (kqtOnce s (some m.ptn) 1 m.dev [m.dev]) (0x9200 + m.ptn) 7, some stTIMEOUT)
  else
    let id := s.fab.nextOp
    (tryMsg (s.modFab fun b => { b with sent := b.sent ++ [{ m with id := id }], nextOp := id + 1 }) id, none)
/-- A message ends: its MSG_ID rests for 10 ms (R593). -/
def dropMsg (s : State) (m : SentMsg) : State :=
  tryWaiting (s.modFab fun b => { b with
    sent := b.sent.filter (·.id != m.id), resting := match m.msgId with | some i => b.resting ++ [(m.dev, i)] | none => b.resting,
    txAt := cntSet b.txAt (m.dev * 4096 + m.stream) (now s) })

/-- A window table in force, and its entries as numbers (R577). -/
def windowOf (s : State) (p : Nat) : List Byte := ((s.fab.windows.find? (·.1 == p)).map (·.2)).getD []
def winEntry (s : State) (p i : Nat) : Nat := leAt (windowOf s p) (32 * i) 32
def winValid (w : Nat) : Bool := bit w 101
def winCovers (w addr len : Nat) : Bool := winValid w && bits w 0 56 ≤ addr && addr + len ≤ bits w 0 56 + bits w 64 32 * 4096
/-- The first VALID entry that covers an access, when it grants the right: 0 READ, 1 WRITE, 2 atomic (R579). -/
def window (s : State) (p right addr len : Nat) : Option Nat :=
  match ((List.range 64).map (winEntry s p)).find? fun w => winCovers w addr len with
  | some w => if bit w (96 + right) then some w else none
  | none => none
/-- Tiles of a remote read cache. -/
def rrcFind (s : State) (p tile : Nat) : Option RrcTile := s.fab.rrc.find? fun t => t.ptn == p && t.tile == tile
/-- Every remote read cache drops the tiles of a range (R609, R611). -/
def rrcDrop (s : State) (addr len : Nat) : State :=
  s.modFab fun b => { b with rrc := b.rrc.filter fun t => !(addr / 4096 ≤ t.tile && t.tile * 4096 < addr + len) }
/-- Near byte address of a cached tile. -/
def rrcAddr (s : State) (t : RrcTile) : Nat := ((((s.fab.rrcAt.find? (·.1 == t.ptn)).map (·.2.1)).getD 0) + t.place) * 4096
/-- Fill one tile: the way of its set that was filled longest ago (R607, R608). -/
def rrcFill (s : State) (p tile : Nat) (bytes : List Byte) (poison : List Nat) : State :=
  match s.fab.rrcAt.find? (·.1 == p) with
  | none => s
  | some (_, _, n) =>
    if n < 8 then s
    else
      let set := tile % (n / 8)
      let s0 := s.modFab fun b => { b with rrc := b.rrc.filter fun t => !(t.ptn == p && t.tile == tile) }
      let ways := s0.fab.rrc.filter fun t => t.ptn == p && t.place / 8 == set
      let place := match (List.range 8).find? fun w => !(ways.any fun t => t.place == set * 8 + w) with
        | some w => set * 8 + w
        | none => (((sortBy (·.order) ways).head?).map (·.place)).getD (set * 8)
      let t : RrcTile := { ptn := p, tile := tile, place := place, order := s0.fab.rrcOrder }
      tierWriteP (s0.modFab fun b => { b with rrc := (b.rrc.filter fun x => !(x.ptn == p && x.place == place)) ++ [t], rrcOrder := b.rrcOrder + 1 }) (rrcAddr s0 t) bytes poison

/-- Queue pairs. -/
def findQp (s : State) (ix : Nat) : Option Qp := s.px.qps.find? (·.ix == ix)
def modQp (s : State) (ix : Nat) (f : Qp → Qp) : State := s.modPx fun x => { x with qps := updIf (·.ix == ix) f x.qps }
/-- Path MTU of a queue pair (R707). -/
def mtuOf (q : Qp) : Nat := 128 * 2 ^ q.mtu
/-- Bytes of a RoCE frame: Ethernet, VLAN tag, IPv6 or IPv4, UDP, BTH, extended headers, payload, ICRC, FCS, and MACsec
with its SecTAG and ICV (R631, R704; PRESUMED from the RoCEv2 formats). -/
def roceBytes (s : State) (n : Nat) (p : RocePkt) : Nat :=
  let v4 := p.dgid / 2 ^ 32 == 0xFFFF
  let ext := match p.op with | 0 => 16 | 1 => 16 | 2 => 28 | 3 => 28 | 4 => 4 | 5 => 12 | 6 => 4 | 7 => 4 | _ => 16
  Nat.max 64 (14 + (if p.vlan < 4095 then 4 else 0) + (if v4 then 20 else 40) + 8 + 12 + ext + p.data.length + 4 + 4
    + (if (getReg s (portBase n)).getLsbD 6 then 32 else 0))
/-- Queue a RoCE packet of a queue pair on its port, or refuse its frame (R633, R706). -/
def roceFrame (s : State) (q : Qp) (p : RocePkt) : EthFrame := { bytes := roceBytes s q.port p, prio := q.prio, ect := true, roce := some p }
def frameFits (s : State) (n : Nat) (f : EthFrame) : Bool :=
  let c := f.prio % 8
  f.bytes ≤ maxFrame s n c && (!isGated s n || frameTime s n f.bytes ≤ wmax s n c * 400)
def sendRoce (s : State) (q : Qp) (p : RocePkt) : State :=
  let f := roceFrame s q { p with gid := odGet s (0x9240 + q.ptn) 1, dgid := q.destGid, vlan := odGet s (0x9240 + q.ptn) 2, srcQp := 0x100000 + q.ix }
  if frameFits s q.port f then enqueue s q.port q.ptn (.frame f q.ptn) else qsCount s q.port 1
/-- Packets of a gateway operation, from its first PSN (R616, R617); only the first of a WRITE names address, key and length. -/
def gwPackets (q : Qp) (g : GwOp) (psn : Nat) : List RocePkt :=
  let mk (op i : Nat) : RocePkt := { op := op, qpn := q.destQp, psn := (psn + i) % 2 ^ 24 }
  let first (op : Nat) : RocePkt := { mk op 0 with addr := g.raddr, key := g.rkey, len := g.len }
  match g.op with
  | 0x40 => [first 1]
  | 0x42 => (List.range (cdiv g.len (mtuOf q))).map fun i => { (if i = 0 then first 0 else mk 0 i) with data := bytesAt g.data (i * mtuOf q) (mtuOf q) }
  | 0x49 => [{ first 2 with data := g.data.take 8 }]
  | _ => [{ first 3 with cmp := leAt g.data 0 8, data := bytesAt g.data 8 8 }]
/-- PSNs that an operation takes. -/
def gwPsns (q : Qp) (g : GwOp) : Nat := if g.op = 0x40 || g.op = 0x42 then Nat.max 1 (cdiv g.len (mtuOf q)) else 1
/-- Send the operations of a queue pair that are due: in order, at RTS, with the context in cache, at most 64
reads and atomics outstanding (R617, R704, R709, R718). -/
def gwSend (s : State) (ix : Nat) : State :=
  match findQp s ix with
  | none => s
  | some q =>
    if q.state != 3 || !q.cached then s
    else
      q.ops.foldl (fun s g =>
        match findQp s ix with
        | none => s
        | some q =>
          let out := (q.ops.filter fun o => o.psn.isSome && o.op != 0x42).length
          -- order is kept: an operation waits behind one that waits
          if g.psn.isSome || (g.op != 0x42 && 64 ≤ out) || (q.ops.takeWhile (fun o => o != g)).any (fun o => o.psn.isNone) then s
          else
            let n := gwPsns q g
            let s1 := modQp s ix fun q => { q with
              sqPsn := (q.sqPsn + n) % 2 ^ 24, usedAt := s.px.use, ops := updIf (· == g) (fun g => { g with psn := some q.sqPsn, pkts := n, sends := 1, sentAt := now s }) q.ops }
            (gwPackets q g q.sqPsn).foldl (fun s p => sendRoce s q p) (s1.modPx fun x => { x with use := x.use + 1 })) s
/-- An operation through a gateway window (R616): the state, and the status with which it completes at once. -/
def gwStart (s : State) (w p op addr len : Nat) (data : List Byte) (owner : MemOwner) : State × Option Nat :=
  let ix := bits w 128 24 - 0x100000
  match findQp s ix with
  | none => (s, some stACCESS)
  | some q =>
    if !(op == 0x40 || op == 0x42 || op == 0x49 || op == 0x4D) then (s, some stFORMAT)
    else if q.ptn != p then (s, some stACCESS)
    else if q.state = 4 then (s, some stFLUSHED)
    else
      let g : GwOp := { op := op, ptn := p, addr := addr, len := len, raddr := bits w 192 64 + (addr - bits w 0 56), rkey := bits w 160 32, data := data, owner := owner }
      -- a frame that the port could never send ends the operation (R633)
      if (gwPackets q g 0).any fun k => !frameFits s q.port (roceFrame s q k) then (qsCount s q.port 1, some stFORMAT)
      else (gwSend (modQp s ix fun q => { q with ops := q.ops ++ [g] }) ix, none)
/-- Stream of a partition's operations (DESIGN CHOICE): tile reads and writes on the disjoint stream 0x800 + p, atomics and
INVALIDATEs on the ordered stream p. -/
def streamFor (p op : Nat) : Nat := if op = 0x40 || op = 0x42 then 0x800 + p else p
/-- A READ, WRITE or atomic that a partition issues to another device's address or to gateway space (R579): the state, the
status with which it completes at once, and whether the remote read cache serves it (R608). -/
def globalOp (s : State) (p op addr len : Nat) (data : List Byte) (poison : List Nat) (owner : MemOwner) (handle epoch : Nat) : State × Option Nat × Bool :=
  match window s p (if op = 0x40 then 0 else if op = 0x42 then 1 else 2) addr len with
  | none => (countAccess s p, some stACCESS, false)
  | some w =>
    if bit w 100 then
      let s0 := if op = 0x40 then s else rrcDrop s addr len
      let (s1, st) := gwStart s0 w p op addr len data owner
      (s1, st, false)
    else
      let tiles := (List.range (cdiv len 4096)).map (addr / 4096 + ·)
      let cached := op == 0x40 && bit w 99 && s.fab.rrcAt.any fun x => x.1 == p && x.2.2 != 0
      let hit := cached && tiles.all fun t => (rrcFind s p t).isSome
      let s0 := if hit then odCount s (0x9200 + p) 5 tiles.length else if cached then odCount s (0x9200 + p) 6 tiles.length else s
      if hit then (s0, none, true)
      else
        -- every remote read cache here drops the tiles at the send of a write (R609)
        let s1 := if op = 0x40 then s0 else rrcDrop s0 addr len
        let m : SentMsg := { id := 0, dev := addr / 2 ^ 48, stream := streamFor p op, op := op, ptn := p, addr := addr, len := len, handle := handle, epoch := epoch,
                             sharers := if op = 0x40 then 0 else bits w 105 10, data := data, poison := poison, cls := bits w 102 3, owner := owner, cache := cached }
        let (s2, st) := sendMsg s1 m
        (s2, st, false)

end Sys2Proof.Machine
end

