-- ==== Sys2Proof/Machine/Operands.lean ====
section
/-! DEFINITION. Instruction words and operands of the cluster sequencer (R177-R180): fields, operand
specifiers, footprints, and the checks that end an instance with FORMAT. -/

namespace Sys2Proof.Machine
open Sys2Proof

/-- The fields of an instruction word (R177). -/
structure Ins where
  opc     : Nat
  fa      : Nat
  fb      : Nat
  fd      : Nat
  acc     : Bool
  nosplit : Bool
  waitall : Bool
  resv    : Bool
  dst     : Nat
  srca    : Nat
  srcb    : Nat
  rptSrc  : Nat
  rpt     : Nat
  inc     : Nat
  /-- SPEC as bits [127:103] at their own numbers: `spec.bit n` is bit n of the word. -/
  word    : Nat
  deriving DecidableEq, Repr

def parseIns (w : Nat) : Ins :=
  { opc := bits w 0 8, fa := bits w 8 4, fb := bits w 12 4, fd := bits w 16 4, acc := bit w 20, nosplit := bit w 21,
    waitall := bit w 22, resv := bit w 23, dst := bits w 24 20, srca := bits w 44 20, srcb := bits w 64 20,
    rptSrc := bits w 84 4, rpt := bits w 88 12, inc := bits w 100 3, word := w }
/-- Field [lo + n - 1 : lo] of the word, for SPEC. -/
def Ins.spec (i : Ins) (lo n : Nat) : Nat := bits i.word lo n

/-- Bytes of the program section of the image in force; bytes beyond it read 0 (R86, R330). -/
def progAt (s : State) (addr n : Nat) : List Byte :=
  match image s with
  | some im => padTo n (bytesAt im.prog addr n)
  | none => List.replicate n 0

def findInst (s : State) (i : Nat) : Option Inst := s.work.insts.find? (·.id == i)
def modInst (s : State) (i : Nat) (f : Inst → Inst) : State := s.modWork fun w => { w with insts := updIf (·.id == i) f w.insts }
def findTask (s : State) (t : Nat) : Option Task := s.work.tasks.find? (·.id == t)
def modTask (s : State) (t : Nat) (f : Task → Task) : State := s.modWork fun w => { w with tasks := updIf (·.id == t) f w.tasks }
/-- Task and request of an instance. -/
def taskOf (s : State) (i : Inst) : Option Task := findTask s i.task
def reqOf (s : State) (i : Inst) : Option Req := ((taskOf s i).bind fun t => t.request.orElse fun _ => t.serves).bind (findReq s)

/-- Instruction that an instance has reached. -/
def insAt (s : State) (i : Inst) : Ins := parseIns (leNat (progAt s i.pc 16))

/-- Physical constellation and cluster of an instance; a constellation-level instance uses cluster 0. -/
def instPhys (s : State) (i : Inst) : Nat := (physOf s (uidCon i.uid)).getD 0
def instCluster (i : Inst) : Nat := uidCluster i.uid % 16
/-- First Halo line that a program may not address (R450, R518). -/
def haloLimit (s : State) (p : Nat) : Nat := 114688 - 16384 * cnt s.tabs.cache p
/-- Lines of an operand's space from its start, and its SRAM key; none for the argument-relative space. -/
def sramOperand (s : State) (i : Inst) (p spec : Nat) : Option (Nat × Nat) :=
  let l := bits spec 0 18
  match bits spec 18 2 with
  | 0 => some (scratchKey (instPhys s i) (instCluster i) (l * 64), 65536 - l)
  | 1 => some (stagingKey (instPhys s i) (instCluster i) (l * 64), 8192 - l)
  | 2 => some (haloKey (instPhys s i) (l * 64), haloLimit s p - l)
  | _ => none
/-- Key of an operand of `n` lines; none when it lies beyond its space (R180). -/
def operandKey (s : State) (i : Inst) (p spec n : Nat) : Option Nat :=
  match sramOperand s i p spec with
  | some (k, room) => if n ≤ room && room != 0 then some k else none
  | none => none
/-- Executions of an instruction, or none when RPT_SRC names a count above 4,095 (R177, R180). The whole argument register is the count, so
that one above 4,095 can be refused (DESIGN CHOICE, log 73). -/
def executions (i : Inst) (x : Ins) : Option Nat :=
  if x.rptSrc = 0 then some (x.rpt + 1)
  else if x.rptSrc ≤ 4 then
    let c := i.args.getD (x.rptSrc - 1) 0
    if c ≤ 4095 then some (c + 1) else none
  else none
/-- An operand specifier after `k` executions whose INC bit is set; it stays in its space, and beyond the space's lines once it has left them
(R177, R180). -/
def advance (x : Ins) (which spec lines k : Nat) : Nat :=
  if bit x.inc which then bits spec 18 2 * 2 ^ 18 + Nat.min (2 ^ 18 - 1) (bits spec 0 18 + lines * k) else spec

/-- Format families (R198). -/
def isNarrow (f : Nat) : Bool := 3 ≤ f && f ≤ 0xA
def isHalf (f : Nat) : Bool := f == 1 || f == 2
def isKvq (f : Nat) : Bool := f == 0xB || f == 0xC
/-- Destination formats of matrix results (R198). -/
def matrixDst (f : Nat) : Bool := f ≤ 4 || (5 ≤ f && f ≤ 0xA)
/-- Whether one operand is a KVQ form and the other accepted beside it (R198). -/
def kvqPair (a b : Nat) : Bool :=
  let ok (f : Nat) : Bool := isHalf f || (isNarrow f && f != 7 && f != 8 && f != 9)
  (isKvq a && ok b) || (isKvq b && ok a)
/-- Whether MMA accepts a pair of formats (R198). -/
def pairOk (a b : Nat) : Bool := (isNarrow a && isNarrow b) || (isHalf a && isHalf b) || (a == 0 && b == 0) || kvqPair a b
/-- K elements of one K-step (R181, R198): that of the wider operand. -/
def kStep (a b : Nat) : Nat :=
  if isKvq a || isKvq b then 16
  else if a == 0 || b == 0 then 2
  else if isHalf a || isHalf b then 8
  else if a == 9 && b == 9 then 32 else 16
/-- Formats that the elementwise and reduction instructions read and write (R179, R188). -/
def plainFmt (f : Nat) : Bool := f ≤ 0xA
def anyFmt (f : Nat) : Bool := f ≤ 0xA || f == 0xD

/-- Lines of `n` elements of a format. -/
def fmtLines (f n : Nat) : Nat := lines (operandBytes f n)
/-- Whether no access to an operand of `n` elements crosses a line (R409): the 24-byte blocks of MXFP6 do from the third on. KVQ blocks are read
whole (R277), and every other element or block lies within a line (DEDUCED, log 73). -/
def lineOk (f n : Nat) : Bool := !((f == 7 || f == 8) && 64 < n)
/-- NOSPLIT over the operands of an instruction, as (format, elements) (R177, R409). -/
def splitOk (x : Ins) (ops : List (Nat × Nat)) : Bool := !x.nosplit || ops.all fun o => lineOk o.1 o.2
/-- SPEC bits that an opcode gives a meaning (R181). -/
def specMask (opc : Nat) : Nat :=
  let m (lo n : Nat) : Nat := (2 ^ n - 1) * 2 ^ lo
  match opc with
  | 0x01 => m 103 9
  | 0x02 => m 104 1 + m 108 4
  | 0x10 => m 103 7
  | 0x11 => m 103 10
  | 0x20 => m 103 11
  | 0x21 => m 103 18
  | 0x22 => m 103 7
  | 0x23 => m 103 1
  | 0x30 => m 103 4
  | 0x31 => m 103 12
  | 0x40 => m 103 2
  | 0x41 => m 103 1
  | 0x42 => m 103 4
  | 0x51 => m 103 8
  | 0x52 => m 103 6
  | _ => 0
/-- No SPEC bit that the opcode leaves unused is set (R180; DEDUCED, log 73: such a bit is a reserved field). -/
def specOk (x : Ins) : Bool := let v := bits x.word 103 25 * 2 ^ 103; Nat.land v (specMask x.opc) == v
/-- INT32 is a format of RED, MOV, SAMP and STOP alone (R192). -/
def int32Ok (x : Ins) : Bool := [0x40, 0x43, 0x44, 0x50].contains x.opc || (x.fa != 0xD && x.fb != 0xD && x.fd != 0xD)

/-- Lines of `rows` slot-form rows of `k` elements at width n. -/
def slotLines (n cnt : Nat) : Nat := lines (cnt * slotBlockBytes n)

/-- The unit that keeps the counts of a unit: a constellation keeps none of its own, so its first cluster does (R150; DESIGN CHOICE, log 71:
the spec names no cluster). -/
def counterUnit (uid : Nat) : Nat := if uidLevel uid = 2 then mkUid 1 (16 * uidIndex uid) else uid
/-- Count in a fixed counter of a unit (R150, R176). -/
def bumpCounter (s : State) (uid ix n : Nat) : State :=
  let k := counterUnit uid * 8 + ix
  s.modWork fun w => { w with unsent := cntSet w.unsent k ((cnt w.unsent k + n) % 2 ^ 48) }

end Sys2Proof.Machine
end

