-- ==== Sys2Proof/Machine/Sample.lean ====
section
/-! DEFINITION. Counting and sampling of instances (R904-R906, R914-R918, R925): counts not yet forwarded, programmable
counters, activities, the samplers, precise and tag records, and items of the telemetry rings (R910, R912). -/

namespace Sys2Proof.Machine
open Sys2Proof

/-- The telemetry ring of a partition; 32 stands for the PF's (R934, R937). -/
def telRing (ring : Nat) : Nat := if ring = 32 then pfTelRing else winTelRing ring
/-- Items dropped are counted for the next item of the ring and for TEL_SKIP (R910, R912). -/
def telDrop (s : State) (ring n : Nat) : State := s.modTel fun t => { t with dropped := cntSet t.dropped ring (sat 0xFFFFFFFF (cnt t.dropped ring + n)) }
/-- Write an item whole, or drop it whole when the ring lacks room (R910, R912); nothing is written or counted for a ring that
is not enabled. Header: FINAL, EXTRA, MASK, TIME, SEQ, DROPPED. -/
def telItem (s : State) (ring kind final extra mask time seq entries : Nat) (body : List Nat) : State :=
  let off := telRing ring
  if !ringEn s off then s
  else if ringFree s off < ringWaits s off + 1 + entries then
    (telDrop (bumpReg s 0x600010) ring 1).modTel fun t => { t with skips := cntSet t.skips ring (cnt t.skips ring + 1) }
  else
    let r := Rec.telemetry kind [final, extra, mask, time, seq, cnt s.tel.dropped ring] entries body
    ringWrite (s.modTel fun t => { t with dropped := cntSet t.dropped ring 0 }) off r
/-- The next item number of a ring (R910). -/
def telSeq (s : State) (ring : Nat) : Nat × State := (cnt s.tel.items ring, s.modTel fun t => { t with items := cntSet t.items ring ((cnt t.items ring + 1) % 2 ^ 48) })

/-- Counts of a logical constellation since its last heartbeat go to the quarter's counter store, or are lost (R905). -/
def forwardCounts (s : State) (l : Nat) (lost : Bool) : State :=
  let fixed := s.work.unsent.filter fun e => uidCon (e.1 / 8) == l
  let prog := s.tel.unsent.filter fun e => e.1 / 16 == l
  let s1 := (telMark s).modWork fun w => { w with
    unsent := w.unsent.filter fun e => uidCon (e.1 / 8) != l, counters := if lost then w.counters else fixed.foldl (fun m e => add48 m e.1 e.2) w.counters }
  s1.modTel fun t => { t with
    unsent := t.unsent.filter fun e => e.1 / 16 != l, prog := if lost then t.prog else prog.foldl (fun m e => add48 m e.1 e.2) t.prog }
/-- BUSY_CYCLES of one cluster since the last heartbeat, and the same STAR_CYCLES of its owner: time that the model does not keep, a free
value (R176, R919). -/
def freeBusy (s : State) (c : Nat) : State :=
  let (a, s1) := fresh s
  let s2 := bumpCounter s1 (mkUid 1 c) 0 (Config.free a)
  match ownerOf s (c / 16) with | some p => telAcct s2 p 0 (Config.free a) | none => s2
/-- Counts of time that the model does not keep, as free values: those of the clusters, and stalls (R176, R906). -/
def freeCounts (s : State) (l : Nat) : State :=
  let s1 := (List.range 16).foldl (fun s c => freeBusy s (l * 16 + c)) s
  let (b, s2) := fresh s1
  let (c, s3) := fresh s2
  progCount (progCount s3 l 9 (Config.free b)) l 0xA (Config.free c)
/-- UNIT_HEARTBEAT: the counts of an AWAKE constellation are forwarded, and it is heard (R769, R905). -/
def execUnitHeartbeat (phys : Nat) (s : State) : Host.Outcome State Fault Refusal :=
  .next (
    let c := getCon s phys
    if !canIssue c then s
    else
      let s1 := modCon s phys fun c => { c with beat := true, beatAt := now s }
      match c.logical with
      | some l => forwardCounts (freeCounts s1 l) l false
      | none => s1)

/-- An activity of an instance, for its partition in its quarter (R925, R926). -/
def activity (s : State) (i : Inst) (p k n : Nat) : State := telAct s (physQuarter (instPhys s i)) (some p) k n
/-- Lines of SRAM accessed. -/
def chargeLines (s : State) (i : Inst) (p n : Nat) : State := activity s i p 6 n
/-- MAC activity of a pair of formats: 4-bit, 6- and 8-bit, 16-bit, FP32 FMA (R925). -/
def macKind (fa fb : Nat) : Nat :=
  if fa = 0 || fb = 0 then 3 else
  let b := Nat.max (if fa = 0xB || fa = 0xC then 8 else elemBits fa) (if fb = 0xB || fb = 0xC then 8 else elemBits fb)
  if b ≤ 4 then 0 else if b ≤ 8 then 1 else 2
/-- A matrix product of 32 × 32 over K: its count, its activity, its line accesses (R176, R925). -/
def countMac (s : State) (i : Inst) (p fa fb k lines : Nat) : State :=
  chargeLines (activity (bumpCounter s i.uid 3 k) i p (macKind fa fb) (1024 * k)) i p lines
/-- Decoder elements of an operand in slot form (0xB) or packed form (0xC) (R906, R925). -/
def countDecode (s : State) (i : Inst) (p f n : Nat) : State :=
  if f = 0xB || f = 0xC then activity (progCount s (uidCon i.uid) (if f = 0xC then 3 else 4) (n / 64)) i p 5 n else s
/-- Tiles read (4) or written (5) by an instance (R176, R917). -/
def tileCount (s : State) (i : Inst) (ix n : Nat) : State := modInst (bumpCounter s i.uid ix n) i.id fun j => { j with moved := j.moved + n }
/-- Tiles of this device that an instance reads or writes (R908, R919). -/
def instTiles (s : State) (i : Inst) (tile n : Nat) (w : Bool) : State :=
  countTiles (chargeLines s i (((taskOf s i).map (·.ptn)).getD 0) (64 * n)) ((taskOf s i).map (·.ptn)) tile n w

/-- Whether the sampler of a ring works in a mode and covers a partition (R916-R918, R932, R937). -/
def samplerOn (s : State) (ring p mode : Nat) : Bool :=
  if ring = 32 then regFld s 0x600008 0 2 == mode && (getReg s 0x60000C).getLsbD p
  else ring == p && regFld s (winBase p + 0x820) 0 2 == mode
def samplerPeriod (s : State) (ring : Nat) : Nat :=
  if ring = 32 then (if regFld s 0x600008 2 24 = 0 then 1024 else regFld s 0x600008 2 24) else Nat.max 1 (regFld s (winBase ring + 0x820) 8 24)
/-- The next value of the tagging LFSR (R917). -/
def lfsrNext (x : Nat) : Nat := if x % 2 == 1 then Nat.xor (x / 2) 0x80200003 else x / 2
/-- One count of a sampler: whether it reaches 0, and the reload (R916, R917). A countdown not listed stands at PERIOD. -/
def samplerStep (s : State) (ring : Nat) (tagging : Bool) : State × Bool :=
  let per := samplerPeriod s ring
  let c := if cnt s.tel.count ring = 0 then per else cnt s.tel.count ring
  if 1 < c then (s.modTel fun t => { t with count := cntSet t.count ring (c - 1) }, false)
  else if tagging then
    let x := lfsrNext (if cnt s.tel.lfsr ring = 0 then ring + 1 else cnt s.tel.lfsr ring)
    (s.modTel fun t => { t with count := cntSet t.count ring (per + x % per), lfsr := cntSet t.lfsr ring x }, true)
  else (s.modTel fun t => { t with count := cntSet t.count ring per }, true)

/-- The bits of a precise record (R914); LATENCY is a time that the model does not count, a free value. -/
def preciseRec (s : State) (i : Inst) (t : Task) (opc cause status lat : Nat) : Nat :=
  packBits [(24, mkUid 1 (uidCluster i.uid)), (5, t.ptn), (3, 0), (40, i.pc), (8, opc), (32, lat), (64, now s), (8, cause), (8, status), (32, t.tag), (32, s.eph.cycle)]
/-- A precise record enters the ring of its quarter, or is dropped and counted (R915). -/
def precise (s : State) (i : Inst) (t : Task) (opc cause status : Nat) (rings : List Nat) : State :=
  if rings.isEmpty then s
  else
    let (n, s1) := fresh s
    let q := physQuarter (instPhys s i)
    let r : Precise := { record := preciseRec s i t opc cause status (Config.free n), rings := rings }
    if (s.tel.precise.getD q []).length < 2048 then s1.modTel fun t => { t with precise := modAt t.precise q fun l => l ++ [r] }
    else rings.foldl (fun s g => telDrop s g 1) s1
/-- A CONTRACT or FAULT record, to the PF ring when TEL_CTL.PRECISE is set (R915, R930). -/
def precisePf (s : State) (i : Inst) (t : Task) (opc cause status : Nat) : State :=
  if (getReg s 0x600000).getLsbD 5 then precise s i t opc cause status [32] else s
/-- An instruction has retired (R176, R916). -/
def retire (s : State) (i : Inst) (t : Task) (opc : Nat) : State :=
  let s1 := bumpCounter (modInst s i.id fun j => { j with retired := j.retired + 1 }) i.uid 2 1
  let step (a : State × List Nat) (g : Nat) : State × List Nat :=
    if samplerOn a.1 g t.ptn 1 then
      let r := samplerStep a.1 g false
      (r.1, if r.2 then a.2 ++ [g] else a.2)
    else a
  let (s2, rings) := [t.ptn, 32].foldl step (s1, [])
  precise s2 i t opc 1 0 rings
/-- An instance is dispatched: the rings of the samplers that tag it (R917). -/
def tagInst (s : State) (p : Nat) : State × List Nat :=
  [p, 32].foldl (fun (a : State × List Nat) g =>
    if samplerOn a.1 g p 2 then
      let r := samplerStep a.1 g true
      (r.1, if r.2 then a.2 ++ [g] else a.2)
    else a) (s, [])
/-- The bytes of a tag record (R917); STALLED is a time that the model does not count, a free value. -/
def tagBytes (i : Inst) (t : Task) (status at_ stalled : Nat) : List Byte :=
  let b := leBytes 2 0x0401 ++ [0, BitVec.ofNat 8 t.ptn] ++ leBytes 4 (i.uid % 2 ^ 24) ++ leBytes 4 t.tag ++ leBytes 4 (t.request.getD 0xFFFFFFFF)
    ++ leBytes 8 t.readyNs ++ leBytes 8 i.boundAt ++ leBytes 8 i.issueAt ++ leBytes 8 at_ ++ leBytes 4 i.retired ++ leBytes 4 stalled ++ leBytes 4 i.moved
    ++ [BitVec.ofNat 8 status, BitVec.ofNat 8 t.attempt]
  b ++ leBytes 2 (crc16 b)
/-- An instance ends: its FAULT record, and the tag record of a tagged one (R915, R917). -/
def sampleEnd (s : State) (i : Inst) (status : Nat) : State :=
  match taskOf s i with
  | none => s
  | some t =>
    let s1 := if status = stFORMAT || status = stPOISON then precisePf s i t (insAt s i).opc 3 status else s
    if i.tagged.isEmpty then s1
    else
      let (n, s2) := fresh s1
      i.tagged.foldl (fun s g =>
        let (q, s') := telSeq s g
        telItem s' g 4 0 0 0 (now s) q 1 [leNat (tagBytes i t status (now s) (Config.free n))]) s2

end Sys2Proof.Machine
end

