-- ==== Sys2Proof/Machine/Work.lean ====
section
/-! DEFINITION. Tasks (R148-R176): completion records, the end of instances and tasks, conditions of
waiting tasks, cancels, unit status and counters, and the steps of requests that tasks carry out. -/

namespace Sys2Proof.Machine
open Sys2Proof

/-- Fields of a request descriptor (R465). -/
def rdOp (d : List Byte) : Nat := leAt d 0 1
def rdPtn (d : List Byte) : Nat := leAt d 3 1 % 32
def rdTag (d : List Byte) : Nat := leAt d 4 4
def rdHandle (d : List Byte) : Nat := leAt d 0x38 4
def rdEpoch (d : List Byte) : Nat := leAt d 0x3C 2
def rdInputLen (d : List Byte) : Nat := leAt d 0x1C 4
/-- Whether every byte of a range of the descriptor is zero. -/
def zeroAt (d : List Byte) (o n : Nat) : Bool := (bytesAt d o n).all (· == 0)
/-- Fields that an OP leaves unused are zero, and no encoding is reserved (R9, R465, R466). -/
def rdFormatOk (d : List Byte) : Bool :=
  leAt d 3 1 < 32 && zeroAt d 0x1B 1 && zeroAt d 0x66 2 && zeroAt d 0x70 16 &&
  (match rdOp d with
   | 1 => leAt d 1 1 < 128 && leAt d 2 1 < 8 && leAt d 2 1 % 4 != 3 && leAt d 0x1A 1 < 32 && leAt d 0x3F 1 < 32 && leAt d 0x41 1 < 32
          && leAt d 0x20 8 % 64 == 0 && leAt d 0x68 8 % 64 == 0 && leAt d 0x48 8 % 64 == 0 && leAt d 0x50 8 % 64 == 0
          && zeroAt d 0x38 6
          && (leAt d 2 1 % 4 == 1 || (zeroAt d 0x40 2)) && (leAt d 0x30 4 != 0xFFFFFFFF || zeroAt d 0x34 4)
   | 2 => leAt d 1 1 < 16 && zeroAt d 2 1 && zeroAt d 8 0x13 && leAt d 0x20 8 % 64 == 0 && zeroAt d 0x2C 12 && zeroAt d 0x3E 50
   | 3 => zeroAt d 1 2 && zeroAt d 8 48 && zeroAt d 0x3E 50
   | 4 => zeroAt d 1 2 && zeroAt d 8 24 && zeroAt d 0x28 16 && leAt d 0x20 8 % 64 == 0 && zeroAt d 0x3C 52
   | 5 => zeroAt d 1 2 && zeroAt d 8 20 && zeroAt d 0x20 8 && zeroAt d 0x2C 12 && zeroAt d 0x3E 50
   | _ => false)

/-- A window's descriptor that names another partition (R154). -/
def wrongPtn (v : View) (p : Nat) : Bool := match v with | .pf => false | .vf q => q != p
/-- Common checks of CANCEL, STATUS and TOKEN: status and the request. -/
def opStatus (s : State) (d : List Byte) (epoch : Bool) : Nat :=
  if !rdFormatOk d || handleStatus s (rdHandle d) = stFORMAT then stFORMAT
  else match findReq s (rdHandle d) with
    | none => stEPOCH
    | some r => if bits (rdHandle d) 27 5 != rdPtn d then stACCESS else if epoch && r.epoch != rdEpoch d then stEPOCH else stOK

/-- Whether an inbound ring holds an entry that has not been read and can be read now (R690, R757). -/
def ringHas (s : State) (ring : Nat) : Bool := !halted s && (match ringPtn ring with | some p => dmaOpen s p | none => true) && ringEn s ring && ringIx s ring != regFld s (ring + 0xC) 0 20
/-- Rings that a view submits through: submission, task, move (R757, R844). -/
def subRing (v : View) (r : Nat) : Nat := match v with | .pf => pfRing r | .vf p => winRing p r
/-- Whether a ring is read: a partition's only while its DMA runs (R690, R734), a submission ring to 4,096 descriptors in a cycle (R467). -/
def ringOpen (s : State) (v : View) (ring : Nat) : Bool :=
  ringHas s ring && (ring != subRing v 0 || cnt s.regs.reads ring < 4096)
/-- Whether a cancel of a request is read in the tick in which the command that runs acts: the commands of one tick are those of the queue
before the next cycle boundary (R232, R503; log 90). -/
def cancelComing (s : State) (h : Nat) : Bool :=
  (s.pending.takeWhile fun c => match c with | .cycleBoundary _ => false | _ => true).any fun c => match c with
    | .reqCancel v d => rdOp d == 3 && rdHandle d == h && ringOpen s v (subRing v 0) && !wrongPtn v (rdPtn d) && opStatus s d true == stOK
    | _ => false

/-- Rank of a status (R173); a smaller rank wins. One that the table does not rank, such as FLUSHED, ranks with OK (DESIGN CHOICE, log 89). -/
def statusRank (st : Nat) : Nat :=
  if st = stPOISON then 1 else if st = stLOST then 2 else if st = stTRUNCATED then 3 else if st = stACCESS then 4
  else if st = stFORMAT then 5 else if st = stEPOCH then 6 else if st = stTIMEOUT then 7 else if st = stCANCELLED then 8
  else if st = stUNSTARTED then 9 else 10
/-- The status of a task from those of its instances (R173). -/
def worst (l : List Nat) : Nat := l.foldl (fun a st => if statusRank st < statusRank a then st else a) stOK

/-- Whether an entry is of a source's ring: its inbound task ring and its completion ring (R172, R844). -/
def taskRing : TaskSrc → Option Nat
  | .window p => some (winRing p 3) | .pf => some (pfRing 3) | _ => none
/-- Request that a completion names (R171, R172). -/
def Task.named (t : Task) : Option Nat := t.request.orElse fun _ => t.serves
/-- The partition whose requests a source may learn of (R259). -/
def srcSees (src : TaskSrc) (t : Task) (r : Req) : Bool :=
  r.ptn == t.ptn && (match src with | .window p => p == t.ptn | _ => true)
/-- The completion record of a task (R171, R172). RTYPE is the KIND byte, also of a reserved KIND (DESIGN CHOICE, log 71); EPOCH is that of the
descriptor where the source may not see the request (DESIGN CHOICE, log 89). -/
def completionOf (s : State) (t : Task) (status detail : Nat) : Completion :=
  { status := status, rtype := t.kind, attempt := t.attempt, uid := t.ran.getD t.uid, tag := if t.src = TaskSrc.dispatcher then 0 else t.tag,
    request := t.named.getD 0xFFFFFFFF, epoch := (((t.named.bind (findReq s)).filter (srcSees t.src t)).map (·.epoch)).getD t.epoch,
    instances := t.reached, detail := detail, cycle := cycle32 s }
/-- The place of a task's records among those of one tick: ring descriptors by position, then the dispatcher's by REQUEST (R172). -/
def donePlace (t : Task) : Nat := if t.src = TaskSrc.dispatcher then 2 ^ 64 + t.named.getD 0xFFFFFFFF else t.id
/-- A completion record of a task is written, where its source has a ring and QUIET allows (R171, R172). -/
def taskRec (s : State) (t : Task) (status detail : Nat) : State :=
  let r := Rec.completion (completionOf s t status detail)
  match t.src with
  | .core => s
  | .dispatcher => if status = stOK then s else taskWrite s (winRing t.ptn 3) (donePlace t) r
  | src => if t.quiet && status = stOK then s else match taskRing src with
    | some ring => taskWrite s ring (donePlace t) r
    | none => s
/-- The order in which tasks that end in one tick are recorded (R172). -/
def endOrder (ts : List Task) : List Task := sortBy donePlace ts

/-- The packed copies that a task's ENCs left in flight end with its attempt (R300). -/
def dropPacks (s : State) (t : Task) : State := t.packs.foldl (fun s n => tabRef s n false) s
/-- Take a task out: its instances go, and its status is kept for AFTER_TAG (R160). -/
def closeTask (s : State) (t : Task) (status detail : Nat) : State :=
  (dropPacks (taskRec s t status detail) t).modWork fun w => { w with
    tasks := w.tasks.filter (·.id != t.id), insts := w.insts.filter (·.task != t.id), lookups := w.lookups.filter (·.task != t.id),
    ended := match t.src with
      | .dispatcher => w.ended
      | .core => w.ended
      | src => w.ended ++ [(t.id, src, t.tag, status)] }

/-- Units of the stored counters inside a unit (R150). -/
def uidInside (u v : Nat) : Bool :=
  let k := unitsPer (Nat.min 2 (uidLevel v)) (Nat.min 2 (uidLevel u))
  match uidLevel v with
  | 0 | 1 | 2 => uidLevel u ≤ uidLevel v && uidIndex u / k == uidIndex v
  | 3 => homeQuarter (uidCon u) == uidIndex v
  | _ => true
/-- A fixed counter of a unit: its own and those of every unit inside it (R150, R176). -/
def counterOf (s : State) (u ix : Nat) : Nat :=
  sumN (((s.work.counters ++ s.work.unsent).filter fun e => e.1 % 8 == ix && uidInside (e.1 / 8) u).map (·.2)) % 2 ^ 48
def svcCode : Service → Nat
  | .dark => 0 | .dawn => 1 | .lit => 2 | .dimming => 3
def pwrCode : Pwr → Nat
  | .awake => 0 | .doze => 1 | .sleep => 2 | .deep => 3
/-- Logical constellations of a unit. -/
def consOf (u : Nat) : List Nat :=
  match uidLevel u with
  | 0 | 1 | 2 => [uidCon u]
  | 3 => (List.range (homeCount (uidIndex u))).map (homeFirst (uidIndex u) + ·)
  | _ => List.range 150
/-- Logical clusters of a unit. -/
def clustersOf (u : Nat) : List Nat :=
  match uidLevel u with
  | 0 => [uidCluster u]
  | 1 => [uidIndex u]
  | _ => ((consOf u).map fun c => (List.range 16).map (c * 16 + ·)).flatten
/-- The SERVICE of a unit from those of its constellations (R174). -/
def unitService (s : State) (u : Nat) : Nat :=
  let l := (consOf u).map fun c => svcCode (serviceOf s c)
  if uidLevel u ≤ 2 then l.headD 0
  else if l.all (· == 0) then 0 else if l.all (· == 2) then 2 else if l.contains 3 then 3 else 1
/-- Tasks READY that name a unit at levels 0 to 2 (R174). -/
def readyNaming (s : State) (u : Nat) : Nat :=
  (s.work.tasks.filter fun t => t.state == .ready && t.kind == 1 && uidLevel t.uid == uidLevel u
    && uidIndex t.uid ≤ uidIndex u && uidIndex u ≤ uidIndex t.uid + t.span).length
/-- READY of a unit: tasks that name it; from a constellation up, the sum over its children, with a constellation's own (R174). -/
def unitReady (s : State) (u : Nat) : Nat :=
  let con (l : Nat) : Nat := readyNaming s (mkUid 2 l) + sumN ((List.range 16).map fun i => readyNaming s (mkUid 1 (l * 16 + i)))
  if uidLevel u ≤ 1 then readyNaming s u else sumN ((consOf u).map con)
/-- CHILDREN (R174). A cluster's are its 128 stars, which its column leaves open (DESIGN CHOICE, log 71); a pair's are its two devices. -/
def unitChildren (u : Nat) : Nat :=
  match uidLevel u with | 0 => 0 | 1 => 128 | 2 => 16 | 3 => homeCount (uidIndex u) | 4 => 4 | _ => 2
/-- CHILDREN_LIT (R174): of a pair the own device alone, since the block holds no service state of its partner (DESIGN CHOICE, log 71). -/
def unitChildrenLit (s : State) (u : Nat) : Nat :=
  let lit (c : Nat) : Bool := serviceOf s c == .lit
  let quarter (q : Nat) : Bool := (List.range (homeCount q)).all fun i => lit (homeFirst q + i)
  match uidLevel u with
  | 0 => 0
  | 1 => if lit (uidCon u) then 128 else 0
  | 2 => if lit (uidCon u) then 16 else 0
  | 3 => ((consOf u).filter lit).length
  | 4 => ((List.range 4).filter quarter).length
  | _ => b2n ((List.range 4).all quarter)
/-- The fields of a unit status record after RTYPE, in the order of the table (R174). A pair aggregates the own device alone, and PWR and CLK_STEP
of a logical constellation that nothing carries read 0 (DESIGN CHOICE, log 89). -/
def unitStatus (s : State) (u : Nat) : List Nat :=
  let cs := consOf u
  let phys := cs.filterMap (physOf s)
  let owners := cs.map (ownerOf s)
  let own := owners.headD none
  let inst := (s.work.insts.filter fun i => uidInside i.uid u).length
  [u, unitService s u,
   minN (phys.map fun p => pwrCode (getCon s p).pwr),
   b2n (phys.any fun p => match (getCon s p).logical with | some l => homeQuarter l != physQuarter p | none => false),
   b2n (owners.any fun o => match o with | some p => s.eph.n1.any (·.1 == p) | none => false),
   if uidLevel u ≤ 2 then own.getD 0 else 0,
   b2n (owners.any Option.isSome),
   maxN (phys.map fun p => (getCon s p).clkStep),
   unitReady s u, inst, slipOver s.eph.slip [unitStars u], unitChildren u, unitChildrenLit s u, cycle32 s]

/-- Records of a STATUS or COUNTERS task, one unit at a time, ahead of its completion (R174, R175). -/
def reportUnit (s : State) (t : Task) (u : Nat) : State :=
  match taskRing t.src with
  | none => s
  | some r =>
    if t.kind = 2 then taskWrite s r (donePlace t) (.unitStatus (unitStatus s u))
    else
      let c (i : Nat) : Nat := counterOf s u i
      taskWrite (taskWrite s r (donePlace t) (.counters u 0 [c 0, c 1, c 2, c 3])) r (donePlace t) (.counters u 1 [c 4, c 5, c 6, c 7])
def runReport (s : State) (t : Task) : State :=
  closeTask ((List.range (t.span + 1)).foldl (fun s i => reportUnit s t (t.uid + i)) s) t stOK 0

def live (s : State) (id : Nat) : Bool := s.work.tasks.any (·.id == id)
/-- One change among waiting tasks: a dependant of a task that has ended, a task whose conditions are
met, a CANCEL whose tasks have ended (R159-R162). -/
def settleStep (s : State) : Option State :=
  let ts := sortBy (·.id) s.work.tasks
  match ts.find? fun t => match t.after with | some d => t.state == .pending && !live s d | none => false with
  | some t =>
    let st := ((s.work.ended.find? fun e => some e.1 == t.after).map fun e => e.2.2.2).getD stOK
    some (if st = stOK then modTask s t.id fun t => { t with after := none } else closeTask s t stUNSTARTED 0)
  | none =>
    match ts.find? fun t => t.state == .pending && t.after.isNone && t.kind != 3
        && !(t.fence && ts.any fun e => e.src == t.src && decide (e.id < t.id)) with
    | some t =>
      some (if t.kind = 1 then
        -- it joins the wait for its class behind the others
        s.modWork fun w => { w with
          tasks := w.tasks.filter (·.id != t.id) ++ [{ t with state := .ready, readyAt := s.eph.cycle, readyNs := now s }] }
      else runReport s t)
    | none =>
      (ts.find? fun t => t.kind == 3 && t.waits.all fun d => !live s d).map fun t => closeTask s t stOK t.detail
def settleN : Nat → State → State
  | 0, s => s
  | n + 1, s => match settleStep s with
    | some s' => settleN n s'
    | none => s
/-- Let every waiting task whose conditions are met go on. -/
def settle (s : State) : State := settleN (2 * s.work.tasks.length + 2) s

/-- Host-assisted sampling: the logits go to the lowest free buffer, with a LOGITS record (R489, R762). -/
def freeBuffer (s : State) (p : Nat) : Option Nat :=
  (List.range (regFld s (winBase p + 0x608) 0 16)).find? fun b => !(s.serve.reqs.any fun r => r.ptn == p && r.logitsBuf == some b)
def pairValue (s : State) (off : Nat) : Nat := (getReg s off).toNat + (getReg s (off + 4)).toNat * 2 ^ 32
def sendLogits (s : State) (h : Nat) (logits : List Nat) : State :=
  match findReq s h with
  | none => s
  | some r =>
    match freeBuffer s r.ptn with
    | none => s
    | some b =>
      let addr := pairValue s (winBase r.ptn + 0x600) + b * regFld s (winBase r.ptn + 0x608) 16 16 * 4096
      let s1 := hostWrite s r.ptn addr ((logits.map (leBytes 4)).flatten)
      modReq (tokenRec s1 r b r.nextIndex false true 0) h fun r => { r with await := true, logitsBuf := some b }

def sealedPages (s : State) (r : Req) : List Page :=
  s.serve.pages.filter fun g => g.ptn == r.ptn && (g.state == .sealed || g.state == .inTransit) && r.pageNums.contains g.num
/-- Greedy aligned cover of pages [f, e) (R378). -/
def coverLog (f e : Nat) : Nat → Nat
  | 0 => 0
  | g + 1 => if f % 2 ^ (g + 1) == 0 && f + 2 ^ (g + 1) ≤ e then g + 1 else coverLog f e g
def cover (holder handle : Nat) : Nat → Nat → Nat → List Group
  | 0, _, _ => []
  | fuel + 1, f, e =>
    if f < e then
      let g := coverLog f e 16
      { first := f, log2 := g, holder := holder, handle := handle } :: cover holder handle fuel (f + 2 ^ g) e
    else []
/-- Local sealed pages of a request, from F0 to F1 − 1 (R378). -/
def localRange (s : State) (r : Req) : Nat × Nat :=
  let ps := (sealedPages s r).map (·.position)
  if ps.isEmpty then (0, 0) else (minN ps, maxN ps + 1)
/-- The HANDOFF that a request descriptor asks for (R375). -/
def handoffMove (_ : State) (r : Req) : Move :=
  { ptn := r.ptn, handle := r.handle, verb := 1, mode := bits r.hmode 0 2, pack := r.pack, dest := r.dest, destPtn := r.destPtn,
    store := r.store, storePtn := r.storePtn, epoch := r.epoch, src := if r.pf then TaskSrc.pf else TaskSrc.window r.ptn,
    target := if bits r.hmode 0 2 = 1 then 1 else 2 }
/-- A move that streams pages is given up: its pages stay here, the device that holds some is told (R370, R378). -/
def endStream (s : State) (h : Nat) : State :=
  match s.serve.moves.find? fun m => m.handle == h && m.streaming with
  | none => s
  | some m =>
    let dev := if m.target = 1 then m.store else m.dest
    let s1 := if m.acked.isEmpty && m.flying.isEmpty then s
      else sendState s dev 5 { srcPtn := m.ptn, dstPtn := if m.target = 1 then m.storePtn else m.destPtn, srcHandle := h, epoch := m.epoch, tag := m.tag, seq := m.seq }
    modReq (endMove s1 m.id) h fun r => { r with mverb := 0 }
/-- A request enters HANDOFF: the move of its descriptor (R230, R375-R378). -/
def startHandoff (s : State) (h : Nat) : State :=
  match findReq s h with
  | none => s
  | some r =>
    let mode := bits r.hmode 0 2
    let (f0, f1) := localRange s r
    if (mode != 0 && 1024 < r.planGroups.length + (cover 0 0 65536 f0 f1).length) || (mode = 1 && (r.store = r.dest || r.store = myDev s)) then
      -- a plan of more than 1,024 groups, or CACHE on DEST or here: the HANDOFF fails, a stream that has begun is given up (R356, R378)
      ringWrite (goState (endStream s h) h .parked) (if r.pf then pfRing 3 else winRing r.ptn 3)
        (.move stFORMAT 0x11 h 0 r.epoch r.dest 0xFFFFFFFF 0 0 0 (s.eph.cycle % 2 ^ 24))
    else
      let streams := s.serve.moves.any fun m => m.handle == h && m.streaming
      let s1 := modReq (goState s h .handoff) h fun r => { r with
        dest := myDev s, mverb := 1, peer := r.dest, peerPtn := r.destPtn, peerHandle := 0xFFFFFFFF, moveTag := 0
        pagesSent := if streams then r.pagesSent else 0, pagesAcked := if streams then r.pagesAcked else 0 }
      let s2 := if s1.serve.moves.any fun m => m.handle == h && m.streaming then s1 else addMove s1 (handoffMove s r)
      match s2.serve.moves.find? fun m => m.handle == h && m.verb == 1 with
      | none => s2
      | some m =>
        let todo := if mode = 2 then [] else ((sealedPages s r).map (·.num)).filter fun n => !m.carries.contains n
        todo.foldl (fun s n => carryPage s m.id n) (modMove s2 m.id fun m => { m with streaming := false })

/-- With PIPELINE, a page sealed during PREFILL is sent at once to the device that will hold it (R377). -/
def streamPage (s : State) (h num : Nat) : State :=
  match findReq s h with
  | none => s
  | some r =>
    if !(r.pipeline && r.state == .prefill && r.dest != myDev s && bits r.hmode 0 2 != 2) then s
    else
      let s1 := if s.serve.moves.any fun m => m.handle == h && m.streaming then s else addMove s { handoffMove s r with streaming := true }
      match s1.serve.moves.find? fun m => m.handle == h && m.streaming with
      | some m => carryPage s1 m.id num
      | none => s1

/-- End of a step's last layer: LENGTH advances, the token is taken, the request goes on (R230, R246). -/
def stepEnd (s : State) (h : Nat) (t : Task) : State :=
  match findReq s h with
  | none => s
  | some r =>
    let n := r.stepTokens
    let left := if r.state = .prefill then r.inputLeft - n else r.inputLeft
    let s1 := recalc (modReq s h fun r => { r with
      length := r.length + n, layer := 0, stepTokens := 0, task := none, waitNs := now s, inputLeft := left, input := if r.state = .prefill then r.input.drop n else r.input}) h
    let s2 := s1.modServe fun w => { w with queries := w.queries.filter (·.handle != h) }
    -- the input area is freed once its tokens are consumed (R496)
    let s3 := if r.state = .prefill && left = 0 && r.inputAddr != 0 then
      modReq (freeTiles s2 r.ptn (r.inputAddr / 4096)) h fun r => { r with inputAddr := 0 } else s2
    let s4 := if r.state = .prefill && left = 0 then goState s3 h .decode else s3
    if !t.samples then s4
    else if t.noToken then endReq s4 h stPOISON r.lastIndex
    else
      let s5 := if t.hostSamples then sendLogits s4 h t.logits
        else match t.token with
          | some tok => takeToken s4 h tok t.reason
          | none => s4
      match findReq s5 h with
      | some r' => if r.state = .prefill && left = 0 && r.dest != myDev s5 && !r'.finished && !t.hostSamples then startHandoff s5 h else s5
      | none => s5

/-- The attention parameter record that a model's programs use, and its CHUNK, VDIM and ABSORBED (R330, R336, R345). A CHUNK of 0, outside its
range, counts as 1 (DESIGN CHOICE, log 91). -/
def paramOf (s : State) (md : Model) : Nat := leNat (progAt s (64 * md.param) 64)
def chunkOf (s : State) (md : Model) : Nat := Nat.max 1 (bits (paramOf s md) 192 16)
def absorbedOf (s : State) (md : Model) : Bool := bit (paramOf s md) 224
/-- Elements of o per lane (R335, R336). -/
def outDim (s : State) (md : Model) : Nat := if md.latent && !absorbedOf s md then bits (paramOf s md) 208 16 else md.dim
/-- Bytes of a partial (R338). -/
def partialSize (lanes dimO w : Nat) : Nat := 64 + alignLine (4 * lanes) + alignLine (w * lanes) + lanes * dimO * w
/-- Bytes of a slot for one group's partial of a request's step (R351, R399). -/
def partialSlot (s : State) (r : Req) (md : Model) : Nat := alignLine (partialSize (r.stepTokens * (r.headsM1 + 1)) (outDim s md) (if r.partialBf16 then 2 else 4))
/-- The partial buffer of a request: one that is large enough stays, else it gets another, or none while the Near tier has no room (R399, R436;
log 91). -/
def takeBuffer (s : State) (h bytes : Nat) : State :=
  match findReq s h with
  | none => s
  | some r =>
    let n := cdiv bytes 4096
    if s.mem.allocs.any fun a => a.ptn == r.ptn && a.tile * 4096 == r.partialBuf && n ≤ a.tiles then s
    else
      let s1 := if r.partialBuf = 0 then s else freeTiles s r.ptn (r.partialBuf / 4096)
      match allocTiles s1 r.ptn false 0 0 n with
      | some (tile, s2) => modReq s2 h fun r => { r with partialBuf := tile * 4096 }
      | none => startEviction (modReq s1 h fun r => { r with partialBuf := 0 }) r.ptn
/-- Where the partial of a group stands in the buffer: the slot of its place in the plan (R351, R399). -/
def bufferAddr (s : State) (r : Req) (md : Model) (g : Group) : Nat := r.partialBuf + (r.planGroups.findIdx (· == g)) * partialSlot s r md

/-- Whether the request's next task at its layer only writes the query tile (R395). -/
def isQueryStep (s : State) (h : Nat) : Bool := match findReq s h with
  | some r => r.phase == 0 && !r.planGroups.isEmpty
  | none => false
/-- QUERY_ID of a request's step at a layer (R364, R395). -/
def queryId (r : Req) (layer : Nat) : Nat :=
  if r.state = .prefill then 2 ^ 31 + (r.length / r.pageLen) % 2 ^ 23 * 256 + layer else r.nextIndex % 2 ^ 23 * 256 + layer
/-- Cut a list into pieces of at most 64. -/
def cut64 : Nat → List Group → List (List Group)
  | 0, _ => []
  | n + 1, l => if l.isEmpty then [] else l.take 64 :: cut64 n (l.drop 64)
/-- A QUERY for some groups of one holder (R393): its OPARGS from bit 256 of the header, its records and
vectors. -/
def queryMsg (r : Req) (md : Model) (absorbed : Bool) (layer lanes : Nat) (vec : List Byte) (gs : List Group) : StateMsg :=
  let g0 := gs.headD { first := 0, log2 := 0, holder := 0, handle := 0 }
  let recs := (gs.map fun g => leBytes 8 (g.first + g.log2 * 2 ^ 16 + g.holder * 2 ^ 24 + g.handle * 2 ^ 32) ++ leBytes 8 0).flatten
  { srcPtn := r.ptn, dstPtn := bits g0.handle 27 5, srcHandle := r.handle, dstHandle := g0.handle, epoch := r.epoch, qid := queryId r layer,
    args := layer + lanes * 2 ^ 8 + md.qdim * 2 ^ 24 + b2n absorbed * 2 ^ 35 + b2n r.partialBf16 * 2 ^ 36 + md.mask * 2 ^ 37
      + md.param * 2 ^ 40 + md.ropeTab * 2 ^ 52 + r.length * 2 ^ 64 + b2n (r.state == .prefill) * 2 ^ 96 + r.headsM1 * 2 ^ 104
      + gs.length * 2 ^ 112 + r.maskL * 2 ^ 128,
    items := 2, body := [.raw (padTo (cdiv recs.length 64 * 64) recs), .raw vec] }
/-- The query tile stands written: the layer's QUERY messages go to the holders, and the merging task
waits (R395, R399). The tile lies at the line of ARG2 in the scratch of the unit that wrote it. -/
def askHolders (s : State) (h : Nat) (t : Task) : State :=
  match findReq s h, (findReq s h).bind fun r => modelOf s r.model with
  | some r, some md =>
    let cl := uidCluster t.uid
    let lanes := r.stepTokens * (r.headsM1 + 1)
    let key := scratchKey ((physOf s (cl / 16)).getD 0) (cl % 16) (bits (t.args.getD 2 0) 0 16 * 64)
    let vec := sramRead s key (lanes * md.qdim * 2)
    let lists := ((holdersOf r.planGroups).map fun g => cut64 1024 (r.planGroups.filter fun x => x.holder == g.holder && x.handle == g.handle)).flatten
    -- a retried task resends no QUERY whose QUERY_ID is outstanding
    let fresh := lists.filter fun gs => !(s.serve.queries.any fun q => q.handle == h && q.qid == queryId r t.layer && gs.any (· == q.group))
    fresh.foldl (fun s gs =>
        let m := queryMsg r md (absorbedOf s md) t.layer lanes vec gs
        addXfer (s.modServe fun w => { w with
            queries := w.queries ++ gs.map fun g => { handle := h, epoch := r.epoch, qid := m.qid, layer := t.layer, group := g, sentAt := now s, msg := { queryMsg r md (absorbedOf s md) t.layer lanes vec [g] with qid := m.qid } } })
          r.ptn 1 (cdiv (64 + vec.length) 4096) (.message ((gs.map (·.holder)).headD 0) 0x10 m))
      (takeBuffer (modReq s h fun r => { r with phase := 1, task := none }) h (r.planGroups.length * partialSlot s r md))
  | _, _ => s
/-- What an ATTEND task leaves: its partial, at the line of ARG2 in the scratch of its unit, returned in a
fabric-send entry; the query is forgotten once every group is answered (R396, R397). -/
def answerQuery (s : State) (t : Task) (status : Nat) : State :=
  match s.serve.held.find? fun q => q.tasks.any (·.1 == t.id) with
  | none => s
  | some q =>
    let cl := uidCluster t.uid
    let key := scratchKey ((physOf s (cl / 16)).getD 0) (cl % 16) (bits (t.args.getD 2 0) 0 16 * 64)
    let hd := sramRead s key 64
    let lanes := leAt hd 8 2
    let w := if q.bf16 then 2 else 4
    let size := partialSize lanes (leAt hd 10 2 % 2048) w
    -- the header names the node of the group (R350)
    let first := bits (t.args.headD 0) 0 16
    let log := bits (t.args.headD 0) 16 5
    let x := leNat hd
    let hd1 := leBytes 64 (x - bits x 16 5 * 2 ^ 16 - bits x 32 32 * 2 ^ 32 + log * 2 ^ 16 + first * 2 ^ 32)
    let body := if status = stOK then [Item.raw (hd1 ++ sramRead s (key + 64) (size - 64))] else []
    let m : StateMsg := { srcPtn := q.ptn, dstPtn := q.srcPtn, srcHandle := q.handle, dstHandle := q.srcHandle, epoch := q.epoch, status := status, qid := q.qid, body := body }
    let pinned := ((q.tasks.find? (·.1 == t.id)).map (·.2)).getD []
    let s1 := addXfer s q.ptn 1 (cdiv size 4096) (.message q.dev 0x11 m)
    let s2 := pinned.foldl (fun s x => freePage (modPage s q.ptn x.1 fun g => if x.2 then { g with pinFar := g.pinFar - 1 } else { g with pinNear := g.pinNear - 1 }) q.ptn x.1) s1
    s2.modServe fun w => { w with
      held := (updIf (fun x => x == q) (fun x => { x with tasks := x.tasks.filter (·.1 != t.id) }) w.held).filter fun x => !(x.tasks.isEmpty && x.groups.isEmpty) }

/-- Seals that did not write their last slot tile leave nothing: the tiles are discarded, the pages are sealed again later (R241, R271). -/
def dropSeals (s : State) (p : Nat) (pages : List (Nat × Nat)) : State :=
  pages.foldl (fun s x => modPage (freeTiles s p x.2) p x.1 fun g => { g with seals := false, sealDone := [] }) s
/-- Pages that a task seals, with their slot pages. -/
def Task.sealing (t : Task) : List (Nat × Nat) := t.page.toList ++ t.more
def dropSeal (s : State) (t : Task) : State := dropSeals s t.ptn t.sealing
/-- A task has written a tile: one of a slot page that it seals counts for the seal, which ends with the last of them; that of a page whose
tokens the task itself appends ends with the task (R251). -/
def sealTile (s : State) (t : Task) (tile : Nat) : State :=
  let mine (x : Nat × Nat) : Bool := (findPage s t.ptn x.1).any fun g => x.2 ≤ tile && tile < x.2 + g.slotTiles
  match t.sealing.find? mine, t.request with
  | some (num, first), some h =>
    match findPage s t.ptn num with
    | none => s
    | some g =>
      let s1 := modPage s t.ptn num fun g => { g with sealDone := insAsc tile g.sealDone }
      if (insAsc tile g.sealDone).length < g.slotTiles || g.state != .sealing then s1
      else streamPage (sealPage (modTask s1 t.id fun t => { t with page := t.page.filter (·.1 != num), more := t.more.filter (·.1 != num), sealed := t.sealed ++ [num] }) h num first) h num
  | _, _ => s
/-- Once the tokens of a PREFILL task stand, the pages that it filled and whose slot pages it has written are SEALED, one after another
(R250, R251); the other seals leave nothing. -/
def finishSeals (s : State) (h p : Nat) (pages : List (Nat × Nat)) : State :=
  let x := pages.foldl (fun (a : State × List (Nat × Nat)) x => match findPage a.1 p x.1 with
    | some g => if g.state == .sealing && g.slotTiles ≤ g.sealDone.length then (streamPage (sealPage a.1 h x.1 x.2) h x.1, a.2) else (a.1, a.2 ++ [x])
    | none => (a.1, a.2 ++ [x])) (s, [])
  dropSeals x.1 p x.2
/-- What the end of a dispatcher-built task does to its request (R230, R246, R251, R271). -/
def stepTask (s : State) (t : Task) (status : Nat) : State :=
  if t.src = TaskSrc.dispatcher && t.cls = 4 then answerQuery s t status else
  match t.src, t.request with
  | .dispatcher, some h =>
    let done : Bool := (t.cls = 1 || t.cls = 2) && status = stOK && !isQueryStep s h
    let s := if done then s else dropSeal s t
    if t.cls = 1 || t.cls = 2 then
      if status = stOK && isQueryStep s h then askHolders s h t
      else if status = stOK then
        let s1 := modReq (finishSeals (commitLayer s h t.layer) h t.ptn t.sealing) h fun r => { r with phase := 0 }
        match findReq s1 h with
        | none => s1
        | some r =>
          if t.layer + 1 < r.layers then modReq (recalc s1 h) h fun r => { r with layer := t.layer + 1, task := none }
          else stepEnd s1 h t
      else
        let s1 := modReq (discardLayer s h t.layer) h fun r => { r with task := none }
        if status = stPOISON || status = stLOST then
          match findReq s1 h with
          | some r => endReq s1 h status r.lastIndex
          | none => s1
        else s1
    else s
  | _, _ => s

/-- Number that stands for no slot page in a SEAL task that waits to be placed again. -/
abbrev noTile : Nat := 2 ^ 40
/-- What an aborted attempt leaves: partials and partly written pages are discarded (R119). -/
def discardAttempt (s : State) (t : Task) : State :=
  if t.src != TaskSrc.dispatcher then s
  else match t.cls, t.page, t.request with
    -- the page of a SEAL task stays its own
    | 5, some (num, _), _ => modPage (dropSeal s t) t.ptn num fun g => { g with seals := true }
    | 5, none, _ => s
    | _, _, some h => discardLayer (dropSeal s t) h t.layer
    | _, _, none => s
/-- The status with which a task ends (R163, R173): a stop that was asked for counts beside those of its instances. -/
def endStatus (s : State) (t : Task) : Nat :=
  -- an epoch that has changed ends the task's work whatever its instances did (R158, R263)
  let stale := match t.src, t.request with
    | .core, _ => false
    | _, some h => match findReq s h with | some r => r.epoch != t.epoch | none => false
    | _, none => false
  let st := worst (t.statuses.filter (· != stRETRIED) ++ t.stop.toList ++ if stale then [stEPOCH] else [])
  if st = stUNSTARTED && t.issued then stCANCELLED else st
/-- DETAIL of a task that ends with a status: of an instance that faulted with it (R171). -/
def endDetail (t : Task) (st : Nat) : Nat := ((t.faults.find? (·.1 == st)).map (·.2)).getD 0
/-- A task whose instances have all ended (R162, R173): RETRIED sends it back to the head of its wait, as one of which no instruction has issued
(DESIGN CHOICE, log 89: R163 does not say whether an attempt that was aborted counts). -/
def finishTask (s : State) (tid : Nat) : State :=
  match findTask s tid with
  | none => s
  | some t =>
    -- a cancel read in the tick of a FINAL token comes first (R232)
    let st := if endStatus s t = stOK && t.src == TaskSrc.dispatcher && t.token.isSome && t.reason != 0 && t.request.any (cancelComing s) then stCANCELLED else endStatus s t
    let retried := t.statuses.contains stRETRIED && t.stop.isNone && (st = stOK || st = stUNSTARTED || st = stCANCELLED)
    -- a TABLE task ends once its look-ups are combined (R516, R517)
    if st = stOK && !retried && s.work.lookups.any (·.task == tid) then s
    else if retried then
      let s1 := discardAttempt (dropPacks (taskRec s t stRETRIED (if t.issued then (now s - t.ranFrom) / 4 else 0)) t) t
      s1.modWork fun w => { w with
        tasks := { t with
          state := .ready, statuses := [], reached := 0, attempt := sat 255 (t.attempt + 1), slot := none, faults := [], ran := none, issued := false, syncs := [],
          page := if t.cls = 5 then t.page.map fun x => (x.1, noTile) else none, more := [], sealed := [], packs := [], token := none, reason := 0, logits := [], noToken := false }
          :: w.tasks.filter (·.id != tid) }
    else settle (stepTask (closeTask s t st (endDetail t st)) t st)

/-- An instance ends with a status (R162); what it leaves goes to its task. -/
def endInst (s : State) (iid st detail : Nat) : State :=
  match findInst s iid with
  | none => s
  | some i =>
    let ok := st = stOK
    let s0 := sampleEnd s i st
    let s1 := if ok then bumpCounter s0 i.uid 1 1 else s0
    let s2 := (modTask s1 i.task fun t => { t with
      statuses := t.statuses ++ [st], reached := if ok then t.reached + 1 else t.reached,
      faults := if detail = 0 then t.faults else t.faults ++ [(st, detail)], syncs := t.syncs ++ [i.syncs],
      token := if ok && i.token.isSome then i.token else t.token, reason := if ok && i.token.isSome then i.reason else t.reason,
      logits := if ok && !i.logits.isEmpty then i.logits else t.logits, noToken := t.noToken || (ok && i.noToken) }).modWork
      fun w => { w with insts := w.insts.filter (·.id != iid) }
    let s3 := if s2.work.insts.any (·.task == i.task) then s2 else finishTask s2 i.task
    restAll s3 [uidCon i.uid]

/-- An instance stops at a checkpoint: loads are discarded, issued stores still complete (R187). -/
def stopInst (s : State) (iid st : Nat) : State :=
  match findInst s iid with
  | none => s
  | some i =>
    let s1 := bumpCounter s i.uid 6 1
    let stores := i.tiles.filter fun t => !t.load
    if stores.isEmpty then endInst s1 iid st 0
    else modInst s1 iid fun i => { i with tiles := stores, stop := some st, ending := true, wait := none, sync := none }
/-- Whether the sequencer of an instance stands in WAIT or SYNC. -/
def stalled (i : Inst) : Bool := i.wait.isSome || i.sync.isSome
/-- Tile transfers that a cluster may have outstanding (R181), and those that it has. -/
abbrev tileLimit : Nat := 32
def clusterTiles (s : State) (i : Inst) : Nat :=
  sumN ((s.work.insts.filter fun j => uidCluster j.uid == uidCluster i.uid).map (·.tiles.length))
/-- Whether an instance is at a checkpoint because its sequencer is stalled (R185): in WAIT or SYNC, on WAITALL, or on the tile limit.
Engines complete within their command, so none is ever found busy (log 73). -/
def atStall (s : State) (i : Inst) : Bool :=
  let x := insAt s i
  stalled i || (i.started && ((x.waitall && i.execs = 0 && !i.tiles.isEmpty) || ((x.opc == 1 || x.opc == 2) && tileLimit ≤ clusterTiles s i)))
/-- Ask an instance to stop at its next checkpoint. -/
def askStop (s : State) (iid st : Nat) : State :=
  match findInst s iid with
  | none => s
  | some i =>
    if i.ending then s
    else if !i.started then endInst s iid (if st = stCANCELLED then stUNSTARTED else st) 0
    else if atStall s i then stopInst s iid st
    else modInst s iid fun i => { i with stop := some st }
/-- Stop a task: cancelled at once while no instruction has issued, else at the instances' checkpoints (R158, R162-R165). What waits for it goes
on once all that stop with it have (R172). -/
def stopOne (s : State) (tid st : Nat) : State :=
  match findTask s tid with
  | none => s
  | some t =>
    if t.kind = 3 then s
    else if t.issued && s.work.insts.any (·.task == tid) then
      let s1 := modTask s tid fun t => { t with stop := some (worst (st :: t.stop.toList)) }
      ((s.work.insts.filter (·.task == tid)).map (·.id)).foldl (fun s i => askStop s i st) s1
    else
      let cons := (s.work.insts.filter (·.task == tid)).map fun i => uidCon i.uid
      let fin := if st = stCANCELLED && !t.issued then stUNSTARTED else st
      restAll (stepTask (closeTask s t fin 0) t fin) cons
def stopTask (s : State) (tid st : Nat) : State := settle (stopOne s tid st)
/-- Stop every task of a request, in the order in which their records follow (R172). An epoch change stops ring tasks only once they are
DISPATCHED: one that waits ends with EPOCH at its dispatch, or after its predecessor (R157, R160, R162). A task that the dispatcher has built and
that waits to be placed again ends at once (DESIGN CHOICE, log 89). -/
def stopReqTasks (s : State) (h st : Nat) : State :=
  let ts := s.work.tasks.filter fun t => t.request == some h
    && (st != stEPOCH || t.src == TaskSrc.dispatcher || t.state == .dispatched || t.state == .running)
  settle (((endOrder ts).map (·.id)).foldl (fun s t => stopOne s t st) s)
/-- A request ends FAILED with a fault's status (R230, R473). -/
def failReq (s : State) (h st : Nat) : State :=
  match findReq s h with
  | none => s
  | some r =>
    let s1 := endReq s h st r.lastIndex
    stopReqTasks s1 h stEPOCH

/-- Address of an RSR in its partition's table, and the records that the partition's share of the request-state cache holds (R227, R229). -/
def rsrAddr (s : State) (r : Req) : Nat := (getPtn s r.ptn).rsrTile * 4096 + 256 * r.slot
def rsrShare (s : State) (p : Nat) : Nat := liveLimit s p / 16
/-- The record of a request comes into the request-state cache; the record of the same partition that was loaded first makes room and is
written to its table (R229; DESIGN CHOICE, log 77: the rule names no victim). -/
def cacheRsr (s : State) (r : Req) : State :=
  let mine := s.serve.rsrCache.filter (·.1 == r.ptn)
  let out := if mine.length < rsrShare s r.ptn then none else mine.head?
  let s1 := match out.bind fun c => s.serve.reqs.find? fun x => x.ptn == c.1 && x.slot == c.2 with
    | some x => tierWrite s (rsrAddr s x) (rsrBytes s x)
    | none => s
  s1.modServe fun w => { w with rsrCache := (match out with | some c => w.rsrCache.erase c | none => w.rsrCache) ++ [(r.ptn, r.slot)] }
/-- Whether the record that stands in the table is good: no poisoned word, and CRC is that of its bytes (R228). -/
def rsrGood (s : State) (r : Req) : Bool :=
  let bs := tierRead s (rsrAddr s r) 256
  (tierPoison s (rsrAddr s r) 256).isEmpty && crc32c (bytesAt bs 0 0xFC) == leAt bs 0xFC 4
/-- A request's record is needed: one that the cache lacks is loaded and checked, and a bad one ends the request with POISON (R228, R229). -/
def loadRsr (s : State) (h : Nat) : State :=
  match findReq s h with
  | none => s
  | some r =>
    if s.serve.rsrCache.contains (r.ptn, r.slot) then s
    else if rsrGood s r then cacheRsr s r else failReq s h stPOISON

def viewSrc : View → TaskSrc
  | .pf => .pf | .vf p => .window p

/-- First byte of a descriptor's bits [lo + n - 1 : lo] that is not zero (R171). -/
def badByte (x lo n : Nat) : Nat := (List.range n).foldl (fun a i => if bit x (lo + n - 1 - i) then (lo + n - 1 - i) / 8 else a) 0
/-- Units that a set holds at a level, and whether the set lies within its level's range (R42, R149). -/
def setOk (uid span : Nat) : Bool := uidValid uid && uidIndex uid + span < levelCount (uidLevel uid)
/-- Owner of a unit at level 0 to 2. -/
def unitOwner (s : State) (u : Nat) : Option Nat := ownerOf s (uidCon u)
def firstSome (l : List (Option (Nat × Nat))) : Option (Nat × Nat) := l.findSome? id

/-- Checks of a task descriptor in ascending field order: status and byte offset of the first fault
(R42, R43, R148, R151-R157, R171). PIN is 1 for every task in the host-assisted placement mode (R168). With PIN 1, COUNT 0 names every unit
of the set, so it passes R156 (DESIGN CHOICE, log 72). Where R152 and R155 both refuse a COUNT, and which field a unit of another owner behind the
first names, are choices too (DESIGN CHOICE, log 89). -/
def taskBad (s : State) (v : View) (x : Nat) : Option (Nat × Nat) :=
  let kind := bits x 0 8
  let p := bits x 27 5
  let lv := bits x 24 3
  let uid := bits x 32 24
  let span := bits x 56 8
  let cnt_ := bits x 168 18
  let h := bits x 64 32
  let pin := bit x 8 || odGet s (0x9100 + p) 6 == 1
  let units := unitsAt uid span lv
  let owned := units.filter fun u => unitOwner s u == some p
  let vf := match v with | .vf _ => true | .pf => false
  let all (P : Nat → Bool) : Bool := (List.range (span + 1)).all fun i => P (uid + i)
  let chk (c : Bool) (st off : Nat) : Option (Nat × Nat) := if c then some (st, off) else none
  firstSome [
    chk (vf && viewPtn v != some p) stACCESS 3,
    chk (kind == 0 || 4 < kind) stFORMAT 0,
    chk (bits x 11 5 != 0) stFORMAT 1,
    chk (if kind == 1 then !(1 ≤ bits x 16 6 && bits x 16 6 ≤ 5) else bits x 16 6 != 0) stFORMAT 2,
    chk (bits x 22 2 != 0) stFORMAT 2,
    chk (if kind == 1 then 2 < lv || (kind == 1 && uidLevel uid < lv) else lv != 0) stFORMAT 3,
    chk (kind != 3 && !uidValid uid) stFORMAT 4,
    chk (kind == 1 && !vf && uidLevel uid == 5) stFORMAT 4,
    chk (kind != 3 && vf && (2 < uidLevel uid || unitOwner s uid != some p)) stACCESS 4,
    chk (kind == 1 && !vf && pin && setOk uid span && !(units.all fun u => unitOwner s u == some p)) stACCESS 4,
    chk (kind == 1 && !vf && !pin && setOk uid span && (owned.isEmpty || owned.length < cnt_)) stACCESS 4,
    chk (kind != 3 && !setOk uid span) stFORMAT 7,
    chk (kind != 3 && vf && !(all fun u => unitOwner s u == some p)) stACCESS 7,
    chk (h != 0xFFFFFFFF && bits h 27 5 != p) stACCESS 8,
    chk (h != 0xFFFFFFFF && handleStatus s h == stFORMAT) stFORMAT 8,
    chk (bits x 120 8 != 0) stFORMAT 15,
    chk (kind == 1 && bits x 128 4 != 0) stFORMAT 16,
    chk (kind == 1 && units.length < cnt_) stFORMAT 21,
    chk (kind == 1 && pin && cnt_ != 0 && cnt_ != units.length) stFORMAT 21,
    chk (bits x 186 6 != 0) stFORMAT (badByte x 186 6) ]

/-- The most recent earlier task of a ring with a TAG: still live, or its status (R159). -/
def afterOf (s : State) (src : TaskSrc) (tag : Nat) : Option (Nat × Option Nat) :=
  let l := (s.work.tasks.filter fun t => t.src == src && t.tag == tag).map fun t => (t.id, (none : Option Nat))
  let e := (s.work.ended.filter fun e => e.2.1 == src && e.2.2.1 == tag).map fun e => (e.1, some e.2.2.2)
  (sortBy (·.1) (l ++ e)).getLast?

/-- Read a task descriptor from a ring: check it, then let it wait as PENDING (R162). -/
def readTask (s : State) (v : View) (x : Nat) : State × Task × Option (Nat × Nat) :=
  let h := bits x 64 32
  let src := viewSrc v
  let t : Task := {
    id := s.work.nextTask, src := src, kind := bits x 0 8, pin := bit x 8 || odGet s (0x9100 + bits x 27 5) 6 == 1,
    fence := bit x 9, quiet := bit x 10, cls := bits x 16 6, level := bits x 24 3, ptn := bits x 27 5, uid := bits x 32 24, span := bits x 56 8,
    request := if h = 0xFFFFFFFF then none else some h, epoch := bits x 96 16, layer := bits x 112 8, prog := bits x 128 40,
    count := bits x 168 18, tag := bits x 192 32, after := none,
    args := [bits x 256 64, bits x 320 64, bits x 384 64, bits x 448 64] }
  let s1 := (ringTake s (subRing v 1)).modWork fun w => { w with nextTask := w.nextTask + 1 }
  (s1, t, taskBad s v x)
/-- A descriptor that fails a check completes at once (R162, R224). -/
def refuseTask (s : State) (v : View) (t : Task) (bad : Nat × Nat) : State :=
  let s1 := match viewPtn v with
    | some p => if t.ptn = p then s else countAccess s p
    | none => s
  let s2 := s1.modWork fun w => { w with
    badNow := (w.badNow.filter fun b => b.at_ == s.mer.osc) ++ (match bad.1 == stFORMAT, taskRing t.src with
      | true, some ring => [{ at_ := s.mer.osc, ring := ring, rec_ := completionOf s1 t bad.1 bad.2, task := t }]
      | _, _ => []) }
  settle (closeTask s2 t bad.1 bad.2)
/-- Change what the present tick has sent. -/
def reviseOut (s : State) (f : Out → Out) : State := { s with out := s.out.map f }
/-- A cancel of the same tick reaches a descriptor that holds a reserved encoding: its record says CANCELLED_UNSTARTED (R10). -/
def cancelBad (s : State) (b : BadTask) : State :=
  let r : Completion := { b.rec_ with status := stUNSTARTED, detail := 0 }
  let s1 := s.modWork fun w => { w with badNow := w.badNow.filter (· != b), ended := updIf (·.1 == b.task.id) (fun e => (e.1, e.2.1, e.2.2.1, stUNSTARTED)) w.ended }
  let s2 := s1.modRegs fun g => { g with
    waiting := updIf (· == (b.ring, Rec.completion b.rec_)) (fun _ => (b.ring, Rec.completion r)) g.waiting
    doneNow := updIf (fun e => e.1 == b.ring && e.2.2 == Rec.completion b.rec_) (fun e => (e.1, e.2.1, Rec.completion r)) g.doneNow }
  reviseOut s2 fun o => match o with
    | .ring g n ph (.completion c) bs id => if g == b.ring && c == b.rec_ then .ring g n ph (.completion r) (recBytes ph (.completion r)) id else .ring g n ph (.completion c) bs id
    | o => o
/-- A checked descriptor joins the waiting tasks, or ends with its predecessor's failure (R159, R160). -/
def admitTask (s : State) (t : Task) (afterTag : Nat) : State :=
  match if afterTag = 0 then none else afterOf s t.src afterTag with
  | some (d, none) => settle (s.modWork fun w => { w with tasks := w.tasks ++ [{ t with after := some d }] })
  | some (_, some st) =>
    if st = stOK then settle (s.modWork fun w => { w with tasks := w.tasks ++ [t] }) else settle (closeTask s t stUNSTARTED 0)
  | none => settle (s.modWork fun w => { w with tasks := w.tasks ++ [t] })
/-- Read and admit one descriptor of the given kinds. -/
def takeTask (s : State) (v : View) (x : Nat) : State :=
  let (s1, t, bad) := readTask s v x
  match bad with
  | some b => refuseTask s1 v t b
  | none =>
    if (match t.request with | some h => (findReq s h).isNone | none => false) then refuseTask s1 v t (stEPOCH, 0)
    else admitTask s1 t (bits x 224 32)

/-- TASK_PROGRAM: also any reserved KIND, which completes with FORMAT (R9, R162). -/
def execTaskProgram (v : View) (desc : BitVec 512) (s : State) : Host.Outcome State Fault Refusal :=
  .next (if ringHas s (subRing v 1) && !([2, 3, 4].contains (fld desc 0 8)) then takeTask s v desc.toNat else s)
/-- TASK_STATUS (R174). -/
def execTaskStatus (v : View) (desc : BitVec 512) (s : State) : Host.Outcome State Fault Refusal :=
  .next (if ringHas s (subRing v 1) && fld desc 0 8 == 2 then takeTask s v desc.toNat else s)
/-- TASK_COUNTERS (R175). -/
def execTaskCounters (v : View) (desc : BitVec 512) (s : State) : Host.Outcome State Fault Refusal :=
  .next (if ringHas s (subRing v 1) && fld desc 0 8 == 4 then takeTask s v desc.toNat else s)
/-- TASK_CANCEL: acts at the tick it is read on tasks of the partition, by TAG or by request, and
completes when they have ended (R161-R165). -/
def execTaskCancel (v : View) (desc : BitVec 512) (s : State) : Host.Outcome State Fault Refusal :=
  .next (
    let x := desc.toNat
    if !(ringHas s (subRing v 1) && bits x 0 8 == 3) then s
    else
      let (s1, t, bad) := readTask s v x
      match bad with
      | some b => refuseTask s1 v t b
      | none =>
        if (match t.request with | some h => (findReq s h).isNone | none => false) then refuseTask s1 v t (stEPOCH, 0)
        else
          let hit (u : Task) : Bool := u.kind != 3 && u.ptn == t.ptn &&
            (if bit x 288 then u.request.isSome && u.request == t.request
             else (u.src == .pf || u.src == .window t.ptn) && u.tag == bits x 256 32)
          let bad := s1.work.badNow.filter fun b => b.at_ == s.mer.osc && hit b.task
          let ids := (endOrder (s1.work.tasks.filter hit)).map (·.id)
          let s2 := ids.foldl (fun s i => stopOne s i stCANCELLED) (bad.foldl cancelBad s1)
          settle (s2.modWork fun w => { w with tasks := w.tasks ++ [{ t with waits := ids, detail := ids.length + bad.length, state := .running }] }))

end Sys2Proof.Machine
end

