-- ==== Sys2Proof/Machine/Engine.lean ====
section
/-! DEFINITION. What the engines compute (R198-R205, R274-R301, R320-R343, R485-R492): matrix products,
rotation, softmax, merges, quantisation, packing, reductions, sampling. Values come from the operands'
bytes; the results are bytes or changes of the state. -/

namespace Sys2Proof.Machine
open Sys2Proof

/-- Bytes of an SRAM operand, or none when a word of it is poisoned (R416). -/
def readOp (s : State) (key n : Nat) : Option (List Byte) :=
  if (sramPoison s key n).isEmpty then some (sramRead s key n) else none
/-- Values of a plain operand. -/
def readVals (s : State) (f key n : Nat) : Option (List Num) := (readOp s key (operandBytes f n)).map (readNums f n)

/-- The page whose Far copy holds a tier tile. -/
def pageOfFar (s : State) (p tile : Nat) : Option Page :=
  s.serve.pages.find? fun g => g.ptn == p && g.farValid && farTile0 + g.farAddr ≤ tile
    && tile < farTile0 + g.farAddr + (if g.packedLen = 0 then g.slotTiles else cdiv g.packedLen 64)
/-- The page whose packed copy was loaded into the frame that holds a key (R439). -/
def pageOfFrame (s : State) (p key : Nat) : Option Page :=
  match cnt s.work.tags (key / 4096) with
  | 0 => none
  | t => pageOfFar s p (t - 1)

/-- The component of a packed page that starts at the line of a key: the page, the component's number, the key of the page's first byte,
and the component's first byte and end in the page (R280-R282, R312). -/
def packedComp (s : State) (p key : Nat) : Option (Page × Nat × Nat × Nat × Nat) :=
  (pageOfFrame s p key).map fun g =>
    let pos := (cnt s.work.tags (key / 4096) - 1 - (farTile0 + g.farAddr)) * 4096 + key % 4096
    let base := key - pos
    let o1 := alignLine (slotComp g.geo g.geo.d0)
    if g.packedLen = 0 then (if !g.latent && o1 ≤ pos then (g, 1, base, o1, g.slotTiles * 4096) else (g, 0, base, 0, o1)) else
    let c1 := leAt (sramRead s base 8) 4 4
    if c1 != 0 && c1 / 64 * 64 ≤ pos then (g, 1, base, c1, g.packedLen * 64)
    else (g, 0, base, 16, if c1 = 0 then g.packedLen * 64 else c1)
/-- Table of a page's component (R295). -/
def compTable (g : Page) (c : Nat) : Nat := g.table + (if g.latent then 0 else c)
/-- A group of blocks of a coded component of `total` blocks that stands from `base` to `stop`; an error says whether it is a stream fault, or
poison (R282, R312, R314). Nothing but the group and its offsets is read. -/
def packedGroup (s : State) (n : Nat) (cs : List (Nat × Nat)) (base stop total i : Nat) : Except Bool (List KvBlock) :=
  let g := cdiv total 16
  let off (i : Nat) : Option Nat := match readOp s (base + 4 * (i / 64)) 4, readOp s (base + 4 * cdiv g 64 + 2 * i) 2 with
    | some a, some b => some (leNat a + leNat b)
    | _, _ => none
  match off i, (if i + 1 < g then off (i + 1) else some (stop - base)) with
  | some a, some z => match readOp s (base + a) (z - a) with
    | some bs => match decBlocks n cs (Nat.min 16 (total - 16 * i)) (bytesToBits bs) with
      | some l => .ok l
      | none => .error true
    | none => .error false
  | _, _ => .error false
/-- Blocks of a slot-form component, by their numbers. -/
def slotAt (s : State) (n key : Nat) (need : List Nat) : Except Bool (List KvBlock) :=
  need.foldr (fun b a => match readOp s (key + b * slotBlockBytes n) (slotBlockBytes n), a with
    | some bs, .ok l => .ok (readSlot n bs 0 :: l)
    | _, _ => .error false) (.ok [])
/-- Blocks of a KVQ operand, by their numbers: slot form straight from its bytes, packed form through the page's table, an escape-only page in
the layout of slot form (R279, R288, R311, R312, R314). -/
def kvqBlocks (s : State) (p f width key : Nat) (need : List Nat) : Except Bool (List KvBlock) :=
  let n := kvqBits width
  if f == 0xB then slotAt s n key need
  else match packedComp s p key with
    | none => .error false
    | some (g, c, base, start, stop) =>
      if g.packedLen = 0 then slotAt s n (base + start) need
      else match tabCodes s (compTable g c) with
        | none => .error true
        | some cs =>
          let total := g.geo.p * (if c = 0 then g.geo.d0 else g.geo.d1) / 32
          let gs := (need.map (· / 16)).eraseDups.map fun i => (i, packedGroup s n cs (base + start) (base + stop) total i)
          if gs.any fun x => match x.2 with | .error true => true | _ => false then .error true
          else if gs.any fun x => match x.2 with | .error _ => true | _ => false then .error false
          else .ok (need.map fun b => match gs.find? (·.1 == b / 16) with
            | some (_, .ok l) => l.getD (b % 16) { scale := 0xFF, syms := [] }
            | _ => { scale := 0xFF, syms := [] })
/-- Blocks that `rows` rows of `k` elements take, whose rows lie `stride` blocks apart, from block `skip` on. -/
def rowNeed (rows k stride skip : Nat) : List Nat := ((List.range rows).map fun r => (List.range (k / 32)).map fun j => skip + r * stride + j).flatten
/-- Raw-escape blocks among the packed blocks of a KVQ operand, as its table encodes them (R286, R906). -/
def rawBlocks (s : State) (p f width key : Nat) (need : List Nat) : Nat :=
  if f != 0xC then 0
  else match packedComp s p key, kvqBlocks s p f width key need with
    | some (g, c, _, _, _), .ok bl =>
      if g.packedLen = 0 then 0
      else match tabCodes s (compTable g c) with
      | some cs => (bl.filter fun b => (encBlock (kvqBits width) (some cs) b).take 2 == [true, false]).length
      | none => 0
    | _, _ => 0
/-- Values of `rows` rows of `k` elements in a KVQ operand whose rows lie `stride` blocks apart, from block `skip` on. -/
def kvqVals (s : State) (p f width key rows k stride skip : Nat) : Except Bool (List Num) :=
  match kvqBlocks s p f width key (rowNeed rows k stride skip) with
  | .ok bl => .ok ((bl.map fun b => b.syms.map (kvqValue (kvqBits width) b.scale)).flatten)
  | .error e => .error e
/-- Blocks per token of the component that a request's instruction reads (R278). -/
def rowBlocks (r : Option Req) (k : Nat) : Nat := match r with
  | some r => Nat.max (k / 32) (r.geo.d0 / 32)
  | none => k / 32

/-- A 32 × 32 product over K, both operands row by row along K, added to FP32 accumulators (R199-R204). -/
def matMul (fp : Bool) (k : Nat) (a b : List Num) (acc : List Nat) : List Nat :=
  (List.range 1024).map fun o =>
    let r := o / 32
    let c := o % 32
    let prods := List.zipWith Num.mul ((a.drop (r * k)).take k) ((b.drop (c * k)).take k)
    if fp then addFma (acc.getD o 0) prods else addBlocks (acc.getD o 0) prods

/-- A tile record (R322). -/
structure TileRec where
  kpos : Nat
  qpos : Nat
  qstep : Bool
  rstep : Bool
  kvalid : Nat
  rows : Nat
  rowState : Nat
  head0 : Nat
  hstep : Bool
  bitmap : Nat
  bitmapOn : Bool
  maskL : Nat
  deriving DecidableEq, Repr
def parseTile (bs : List Byte) : TileRec :=
  let x := leNat (bs.take 64)
  { kpos := bits x 0 32, qpos := bits x 32 32, qstep := bit x 64, rstep := bit x 65, kvalid := bits x 72 8, rows := bits x 80 8,
    rowState := bits x 96 16, head0 := bits x 112 8, hstep := bit x 120, bitmap := bits x 128 16, bitmapOn := bit x 144, maskL := bits x 160 32 }

/-- Whether the mask of SMAX allows a key (R324). -/
def maskAllows (mask w l : Nat) (bitmapBit : Bool) (kpos qpos : Nat) : Bool :=
  match mask with
  | 0 => true
  | 1 => kpos ≤ qpos
  | 2 => decide ((qpos : Int) - w < kpos) && kpos ≤ qpos
  | 3 => kpos ≤ qpos && kpos / w == qpos / w
  | 4 => kpos < l || kpos ≤ qpos
  | _ => kpos ≤ qpos && bitmapBit
/-- SMAX over one tile: the 35-line footprint and the new row state (m of 32 rows, l of 32 rows), R323-R328. `bitmap` holds the bytes of the
bitmap row that speak of the tile, from that of its first key on (R326). -/
def softmaxTile (t : TileRec) (score : List Nat) (scale cap capRecip w : Nat) (softcap bias first : Bool) (mask : Nat)
    (slope : Nat → Nat) (bitmap : List Byte) (m0 l0 : List Nat) : List Byte × List Nat × List Nat :=
  let qpos (r : Nat) : Nat := t.qpos + (if t.qstep then r else 0)
  let head (r : Nat) : Nat := t.head0 + (if t.hstep then r else 0)
  let allowed (r c : Nat) : Bool :=
    let kp := t.kpos + c
    decide (c < t.kvalid) && maskAllows mask w t.maskL (bit (bitmap.getD (kp / 256 - t.kpos / 256) 0).toNat (kp / 32 % 8)) kp (qpos r)
  let x (r c : Nat) : Nat :=
    let s1 := mul32 (score.getD (32 * r + c) 0) scale
    let s2 := if softcap then mul32 cap (tanh32 (mul32 s1 capRecip)) else s1
    let s3 := if bias then add32 s2 (mul32 (slope (head r)) (w32 (numInt ((t.kpos + c : Int) - qpos r)))) else s2
    if allowed r c then mul32 s3 log2e else negInf
  let row (r : Nat) : List Nat × Nat × Nat × Nat :=
    let mo := if first then negInf else m0.getD r negInf
    let lo := if first then 0 else l0.getD r 0
    let zero := List.replicate 32 0
    if t.rows ≤ r then (zero, one32, mo, lo)
    else
      let xs := (List.range 32).map (x r)
      let mn := xs.foldl max32 mo
      if mn == negInf then (zero, one32, mo, lo)
      else
        let a := exp2 (sub32 mo mn)
        let ps := xs.map fun v => writeFmt bf16 (r32 (exp2 (sub32 v mn)))
        (ps, a, mn, w32 (exactSum [r32 (mul32 lo a), exactSum (ps.map (readFmt bf16))]))
  let rows := (List.range 32).map row
  let dead := sumN ((List.range 32).map fun c => if (List.range 32).all fun r => t.rows ≤ r || !allowed r c then 2 ^ c else 0)
  (((rows.map fun q => (q.1.map (leBytes 2)).flatten).flatten ++ (rows.map fun q => leBytes 4 q.2.1).flatten
     ++ leBytes 4 dead ++ leBytes 1 t.kvalid ++ leBytes 1 t.rows ++ leBytes 58 0),
   rows.map (·.2.2.1), rows.map (·.2.2.2))

/-- PV over one tile: 32 × 32 accumulator (R329). `v` is token by token, 32 elements each. -/
def pvTile (foot : List Byte) (v : List Num) (first : Bool) (o : List Nat) : List Nat :=
  let p (r t : Nat) : Num := readFmt bf16 (leAt foot (64 * r + 2 * t) 2)
  let alpha (r : Nat) : Nat := leAt foot (2048 + 4 * r) 4
  let dead := leAt foot (34 * 64) 4
  (List.range 1024).map fun k =>
    let r := k / 32
    let d := k % 32
    let sum := exactSum ((List.range 32).map fun t => if bit dead t then Num.fin false 0 0 else (p r t).mul (v.getD (32 * t + d) (.fin false 0 0)))
    if first then w32 sum else w32 (exactSum [r32 (mul32 (o.getD k 0) (alpha r)), sum])

/-- Header of a partial record (R338). -/
structure PartialHdr where
  bf16_    : Bool
  tail     : Bool
  final    : Bool
  absorbed : Bool
  log2     : Nat
  first    : Nat
  lanes    : Nat
  dimO     : Nat
  layer    : Nat
  deriving DecidableEq, Repr
def parsePartial (bs : List Byte) : PartialHdr :=
  let x := leNat (bs.take 64)
  { bf16_ := bit x 8, tail := bit x 10, final := bit x 11, absorbed := bit x 12, log2 := bits x 16 5, first := bits x 32 32,
    lanes := bits x 64 16, dimO := bits x 80 11, layer := bits x 96 8 }
def PartialHdr.width (h : PartialHdr) : Nat := if h.bf16_ then 2 else 4
/-- Bytes of a partial (R338). -/
def PartialHdr.bytes (h : PartialHdr) : Nat := partialSize h.lanes h.dimO h.width
/-- A lane: m, l and o as FP32 bits. -/
abbrev Lane := Nat × Nat × List Nat
def elem32 (h : PartialHdr) (bs : List Byte) (o : Nat) : Nat :=
  if h.bf16_ then w32 (readFmt bf16 (leAt bs o 2)) else leAt bs o 4
def readLane (h : PartialHdr) (bs : List Byte) (i : Nat) : Lane :=
  let lo := 64 + alignLine (4 * h.lanes)
  let oo := lo + alignLine (h.width * h.lanes)
  (leAt bs (64 + 4 * i) 4, elem32 h bs (lo + h.width * i), (List.range h.dimO).map fun j => elem32 h bs (oo + (i * h.dimO + j) * h.width))
def emptyLane (l : Lane) : Bool := l.1 == negInf
/-- Merge of two lanes in FP32 (R341). -/
def mergeLane (a b : Lane) : Lane :=
  if emptyLane a then b else if emptyLane b then a
  else
    let m := max32 a.1 b.1
    let a1 := exp2 (sub32 a.1 m)
    let a2 := exp2 (sub32 b.1 m)
    let f (x y : Nat) : Nat := add32 (mul32 x a1) (mul32 y a2)
    (m, f a.2.1 b.2.1, List.zipWith f a.2.2 b.2.2)
/-- Bytes of a partial record (R338-R340). -/
def writePartial (h : PartialHdr) (ls : List Lane) : List Byte :=
  let e (x : Nat) : List Byte := if h.bf16_ then leBytes 2 (writeFmt bf16 (r32 x)) else leBytes 4 x
  let head := 1 + 2 ^ 8 * b2n h.bf16_ + 2 ^ 9 * b2n (ls.all emptyLane) + 2 ^ 10 * b2n h.tail + 2 ^ 11 * b2n h.final + 2 ^ 12 * b2n h.absorbed
    + 2 ^ 16 * h.log2 + 2 ^ 32 * h.first + 2 ^ 64 * h.lanes + 2 ^ 80 * h.dimO + 2 ^ 96 * h.layer
  leBytes 64 head ++ padTo (alignLine (4 * h.lanes)) ((ls.map fun l => leBytes 4 l.1).flatten)
  ++ padTo (alignLine (h.width * h.lanes)) ((ls.map fun l => e l.2.1).flatten) ++ ((ls.map fun l => (l.2.2.map e).flatten).flatten)
/-- The node of the tree that two nodes merge into, empty subtrees between them passed over (R342, R343): the least one that holds both. -/
def joinNode (f1 g1 f2 g2 : Nat) : Nat × Nat :=
  let g := ((List.range 17).find? fun g => Nat.max g1 g2 ≤ g && f1 / 2 ^ g == f2 / 2 ^ g).getD 16
  (f1 / 2 ^ g * 2 ^ g, g)
/-- MRG of two partial records: none when the headers differ (R341). -/
def mergePartials (a b : List Byte) : Option (PartialHdr × List Lane) :=
  let ha := parsePartial a
  let hb := parsePartial b
  if ha.lanes != hb.lanes || ha.dimO != hb.dimO || ha.bf16_ != hb.bf16_ || ha.absorbed != hb.absorbed then none
  else
    let node := if ha.tail || hb.tail then (ha.first, ha.log2) else joinNode ha.first ha.log2 hb.first hb.log2
    some ({ ha with first := node.1, log2 := node.2, final := ha.final || hb.tail || hb.final },
      (List.range ha.lanes).map fun i => mergeLane (readLane ha a i) (readLane hb b i))
def finalise (l : Lane) : List Num :=
  if emptyLane l then l.2.2.map fun _ => Num.fin false 0 0
  else let r := recip32 l.2.1; l.2.2.map fun o => r32 (mul32 o r)

/-- Order key of an FP32 value for ranking; both zeros are equal (R485). -/
def rankKey (x : Nat) : Nat :=
  if x == 2 ^ 31 then 2 ^ 31 else if bit x 31 then 2 ^ 32 - 1 - x else x + 2 ^ 31
/-- The k largest, descending, ties to the lower token number. -/
def rank (v : List Nat) (k : Nat) : List Nat := ((sortBy (fun (i : Nat) => 2 ^ 33 - rankKey (v.getD i 0)) (List.range v.length)).take k)
/-- SAMP (R485-R488): the token, or none when no logit is above −∞. -/
def sample (logits : List Nat) (temp topP topK seed index : Nat) : Option Nat :=
  let z := logits.map fun x => if isNan32 x then negInf else x
  let g := (rank z 1).headD 0
  if z.getD g negInf == negInf then none
  else
    let t := recip32 temp
    if temp % 2 ^ 31 == 0 || t == posInf then some g
    else
      let y := z.map fun v => mul32 v t
      let k := if topK = 0 then Nat.min 1024 y.length else Nat.min topK y.length
      let cand := rank y k
      let m := y.getD (cand.headD 0) 0
      if m == posInf then some g
      else
        let ps := cand.map fun c => exp2 (mul32 (sub32 (y.getD c 0) m) log2e)
        let cum := (ps.foldl (fun (a : Nat × List Nat) p => let c := add32 a.1 p; (c, a.2 ++ [c])) (0, [])).2
        let n := if lt32 0 topP && lt32 topP one32 then
            let lim := mul32 topP (cum.getD (k - 1) 0)
            ((List.range k).find? fun r => !lt32 (cum.getD r 0) lim).getD (k - 1) + 1
          else k
        let (w0, _, _, _) := philox 0 index 1 0 seed
        let thr := mul32 (w32 (.fin false (w0 / 256) (-24))) (cum.getD (n - 1) 0)
        some (cand.getD (((List.range n).find? fun r => lt32 thr (cum.getD r 0)).getD (n - 1)) g)

/-- Rotation of one vector at a position (R333): elements as FP32 bits in, BF16 values out. -/
def rotate (dims rot : Nat) (adjacentPairs : Bool) (posScale : Nat) (theta : Nat → Nat) (pos : Nat) (v : List Nat) : List Nat :=
  let ang (j : Nat) : Nat := mul32 (mul32 (w32 (numInt pos)) posScale) (theta j)
  (List.range dims).map fun e =>
    let x := v.getD e 0
    if rot ≤ e then x
    else
      let j := if adjacentPairs then e / 2 else e % (rot / 2)
      let isX := if adjacentPairs then e % 2 == 0 else decide (e < rot / 2)
      let px := v.getD (if adjacentPairs then 2 * j else j) 0
      let py := v.getD (if adjacentPairs then 2 * j + 1 else j + rot / 2) 0
      let c := cos32 (ang j)
      let sn := sin32 (ang j)
      if isX then sub32 (mul32 px c) (mul32 py sn) else add32 (mul32 px sn) (mul32 py c)

/-- The tensor's table that packs in this cycle: CURRENT at the cycle's start (R299). -/
def currentTab (s : State) (p model layer comp : Nat) : Option KvTable :=
  s.serve.tables.find? fun t => t.ptn == p && t.model == model && t.layer == layer && t.comp == comp && t.state == .current && !t.due
/-- Component number of a tensor (R292). -/
def compNum (latent : Bool) (c : Nat) : Nat := if latent then 2 else c
/-- Packed Far form of a slot page with the tables given: bytes and PACKED_LEN (R279-R287). -/
def packSlot (g : Geo) (t0 t1 : Option (List (Nat × Nat))) (slot : List Byte) : List Byte × Nat :=
  let n := kvqBits g.width
  let c0 := encComponent n t0 (slotBlocks g g.d0 0 slot)
  let o1 := alignLine (slotComp g g.d0)
  let c1 := if g.latent then bytesAt slot o1 (bf16Comp g g.d1) else encComponent n t1 (slotBlocks g g.d1 o1 slot)
  let page := codedPage g c0 c1
  if escapeOnly g c0 c1 page then (slot, 0) else (page, page.length / 64)
/-- A stream fault: KV_CORRUPT, the count of R316, and the Far copy marked (R314). -/
def streamFault (s : State) (g : Page) : State :=
  raiseBoth (odCount (modPage s g.ptn g.num fun g => { g with farPoison := true }) (0x9140 + g.ptn) 5) g.ptn
    { cls := 3, code := 2, payload := [g.num, g.layer, g.position] }

/-- Histogram counts of QNT with HIST (R302). -/
def countHist (s : State) (p model layer comp width : Nat) (bl : List KvBlock) : State :=
  let n := 2 ^ kvqBits width
  let add (h : Hist) : Hist := { h with
    blocks := sat 0xFFFFFFFF (h.blocks + bl.length),
    counts := (List.range n).map fun i => sat 0xFFFFFFFF (h.counts.getD i 0 + sumN (bl.map fun b => b.syms.count i)) }
  let same (h : Hist) : Bool := h.ptn == p && h.model == model && h.layer == layer && h.comp == comp && h.width == width
  s.modServe fun w => { w with
    hists := if w.hists.any same then updIf same add w.hists
      else w.hists ++ [add { ptn := p, model := model, layer := layer, comp := comp, width := width }] }

end Sys2Proof.Machine
end

