-- ==== Sys2Proof/Machine/Serving.lean ====
section
/-! DEFINITION. Request descriptors (R465-R508): submission, continuation, cancel, status, token answers,
the reading of input, and the completion of write-backs and open-page loads. -/

namespace Sys2Proof.Machine
open Sys2Proof

/-- Group records of a plan from its bytes (R347). -/
def parsePlan (bs : List Byte) (n : Nat) : List Group := (List.range n).map fun i =>
  let x := leAt bs (16 * i) 8
  { first := bits x 0 16, log2 := bits x 16 5, holder := bits x 24 8, handle := bits x 32 32 }
/-- Whether a plan is valid (R348). -/
def planOk (s : State) (bs : List Byte) (n : Nat) : Bool :=
  let gs := parsePlan bs n
  n ≤ 1024
  && (gs.all fun g => g.log2 ≤ 16 && g.first % 2 ^ g.log2 == 0 && g.first + 2 ^ g.log2 ≤ 65536 && g.holder != myDev s)
  && ((List.range n).all fun i => bits (leAt bs (16 * i) 8) 21 3 == 0 && leAt bs (16 * i + 8) 8 == 0)
  && ((List.range (n - 1)).all fun i => match gs[i]?, gs[i + 1]? with
      | some a, some b => decide (a.first + 2 ^ a.log2 ≤ b.first)
      | _, _ => true)
/-- A plan in the Near tier: none when it is not readable or not valid. -/
def readPlan (s : State) (p addr n : Nat) : Option (List Group) :=
  if n = 0 then some []
  else if addr % 64 != 0 || rangeStatus s p addr (16 * n) != 0 then none
  else let bs := tierRead s addr (16 * n); if planOk s bs n then some (parsePlan bs n) else none
def inGroup (g : Group) (i : Nat) : Bool := g.first ≤ i && i < g.first + 2 ^ g.log2
/-- Whether a position lies in a group of a plan. -/
def planned (gs : List Group) (i : Nat) : Bool := gs.any fun g => inGroup g i
/-- Whether a (device, partition) is in the peer set of a partition (R356). -/
def isPeer (s : State) (p dev q : Nat) : Bool := (getPtn s p).peers.contains (dev, q)

/-- TEMP, TOP_P and TOP_K of a SUBMIT (R468). -/
def samplingOk (temp topP topK : Nat) : Bool :=
  !isNan32 temp && temp != posInf && !(bit temp 31 && temp != 2 ^ 31) && !isNan32 topP && !(bit topP 31 && topP != 2 ^ 31) && topK ≤ 1024

/-- The donor of a SUBMIT and what it shares: FORMAT, ACCESS, EPOCH for a stale handle, BUSY or the entries (R224, R257-R260). -/
def donorStatus (s : State) (p donor shared pageCode widthCode : Nat) (m : Model) : Nat :=
  if donor = 0xFFFFFFFF then stOK
  else if bits donor 27 5 != p then stACCESS
  else match findReq s donor with
    | none => handleStatus s donor
    | some d =>
      if shared % pageTokens pageCode != 0 || d.sealedLen < shared || d.model != m.number || d.pageCode != pageCode || d.widthCode != widthCode
        || d.dim != m.dim || d.groups != (if m.latent then 0 else m.groups) || d.posDim != (if m.latent then m.posDim else 0) then stFORMAT
      else if (layersOf d).any fun l => (List.range (shared / d.pageLen)).any fun i => match (d.pageNum l i).bind (findPage s p) with
          | some g => g.refcnt ≥ 2 ^ 24 - 1
          | none => false then stBUSY
      else stOK
/-- Whether the queue, the partition's state or the limits refuse a new submission (R225, R474, R732). In host-assisted admission the queue
holds 65,536 whatever QUEUE_LIMIT says (R32; DESIGN CHOICE, log 74). -/
def queueFull (s : State) (p : Nat) : Bool :=
  (getPtn s p).state != .active || (if admitMode s p then 65536 else odGet s (0x91A0 + p) 7) ≤ queueDepth s p

/-- Status of a SUBMIT by the first row of R468 that applies. -/
def submitStatus (s : State) (d : List Byte) : Nat :=
  let p := rdPtn d
  let geom := leAt d 0x1A 1
  let pc := geom % 4
  let wc := geom / 4 % 8
  let maxT := leAt d 0x2C 4
  match modelOf s (leAt d 0x18 2) with
  | none => stFORMAT
  | some m =>
    let don := donorStatus s p (leAt d 0x30 4) (leAt d 0x34 4) pc wc m
    let groups := if m.latent then 0 else m.groups
    if !(rdFormatOk d && geoOk pc wc m.latent m.dim groups m.posDim
        && maxT % 128 == 0 && 128 ≤ maxT && maxT ≤ 1048576 && leAt d 0x34 4 + rdInputLen d + 1 ≤ maxT
        && samplingOk (leAt d 0x5C 4) (leAt d 0x60 4) (leAt d 0x64 2) && rdInputLen d != 0 && leAt d 0x28 4 != 0
        && m.heads ≤ 256 && (m.latent || m.heads % m.groups == 0)
        && don != stFORMAT && (readPlan s p (leAt d 0x48 8) (leAt d 0x42 2)).isSome) then stFORMAT
    else if don = stACCESS || (leAt d 0x3E 1 != myDev s && !isPeer s p (leAt d 0x3E 1) (leAt d 0x3F 1))
        || (leAt d 2 1 % 4 == 1 && leAt d 0x3E 1 != myDev s && !isPeer s p (leAt d 0x40 1) (leAt d 0x41 1)) then stACCESS
    else if don = stEPOCH then stEPOCH
    else if liveLimit s p ≤ liveCount s p || queueFull s p || don = stBUSY then stBUSY
    else stOK

/-- Pages of a request that its plan attends locally and that lack a Near copy (R230). -/
def missingNear (s : State) (r : Req) : List Page :=
  s.serve.pages.filter fun g => g.ptn == r.ptn && r.pageNum g.layer g.position == some g.num && (g.state == .sealed || g.state == .inTransit) && !g.nearValid && !planned r.planGroups g.position
/-- Queue the promotion of pages: PROMO is set at once (R256, R380). A page that another request promotes already is promoted once. -/
def promotePages (s : State) (h : Nat) (gs : List Page) : State :=
  gs.foldl (fun s g =>
    if g.promo then s
    else addXfer (modPage s g.ptn g.num fun g => { g with promo := true }) g.ptn 0 g.slotTiles (.promote g.ptn g.num h)) s
/-- After acceptance: a request whose local pages lack Near copies goes to PROMOTING (R230). -/
def afterAccept (s : State) (h : Nat) : State :=
  match findReq s h with
  | none => s
  | some r =>
    let gs := missingNear s r
    if gs.isEmpty then s else promotePages (goState s h .promoting) h gs
/-- Every QUEUED request whose local pages lack Near copies goes to PROMOTING, whenever that comes about (R230). -/
def promoteQueued (s : State) : State := ((s.serve.reqs.filter (·.state == .queued)).map (·.handle)).foldl afterAccept s

/-- The serve record, page map and input area of a new request; none when there is no room (R436, R468, R470). -/
def takeStructures (s : State) (p mapBytes inputBytes : Nat) : Option (Nat × Nat × State) :=
  match allocOwn s p mapBytes with
  | none => none
  | some (m, s1) => (allocOwn s1 p inputBytes).map fun (i, s2) => (m, i, s2)

/-- The request that a descriptor's HANDLE names, where its fields may be shown: not to a partition that does not own it (R259). -/
def shownReq (s : State) (v : View) (d : List Byte) : Option Req :=
  (findReq s (rdHandle d)).filter fun r => match v with | .pf => true | .vf q => r.ptn == q
/-- Refuse a SUBMIT or CONTINUE: one ACCEPT record, nothing changed (R469). -/
def refuseReq (s : State) (v : View) (d : List Byte) (st handle : Nat) : State :=
  let p := rdPtn d
  let r := if handle = 0xFFFFFFFF then none else shownReq s v d
  let pf := v == .pf
  let q := match v with | .pf => p | .vf q => q
  let s1 := reqRec s pf q st 0x20 (rdOp d) handle (rdTag d) ((r.map (·.epoch)).getD 0) 0xFFFFFFFF ((r.map (·.length)).getD 0) ((r.map (·.charged)).getD 0)
  if st = stBUSY then srvMark (odCount s1 (0x91C0 + p) 5) p 1 1 else if p != q then countAccess s1 q else s1

/-- Accept a SUBMIT (R222, R230, R257, R469, R480). -/
def acceptSubmit (s : State) (v : View) (d : List Byte) (m : Model) : State :=
  let p := rdPtn d
  let geom := leAt d 0x1A 1
  let P := pageTokens (geom % 4)
  let maxT := leAt d 0x2C 4
  match newSlot s p, takeStructures s p (m.layers * (maxT / P) * 4) (4 * rdInputLen d) with
  | some (slot, gen), some (pmap, area, s1) =>
    let flags := leAt d 1 1
    let shared := leAt d 0x34 4
    let donor := findReq s (leAt d 0x30 4)
    let base : Req := {
      ptn := p, slot := slot, gen := gen, keep := bit flags 0, keepOnCancel := bit flags 1, durable := bit flags 2, wbEvery := bit flags 3,
      pipeline := bit flags 4, pack := if bit flags 6 then bit flags 5 else leAt d 2 1 % 4 == 1,
      rid := leAt d 8 8, seed := leAt d 0x10 8, model := m.number, layers := m.layers, latent := m.latent, pageCode := geom % 4, widthCode := geom / 4 % 8,
      dim := m.dim, groups := if m.latent then 0 else m.groups, posDim := if m.latent then m.posDim else 0,
      promptLen := shared + rdInputLen d, maxTokens := maxT, length := shared, sealedLen := shared, durableLen := shared, sharedLen := shared,
      admitCycle := cycle32 s, pmap := pmap, origin := myDev s, originPtn := p, originHandle := p * 2 ^ 27 + gen * 2 ^ 18 + slot,
      temp := leAt d 0x5C 4, topP := leAt d 0x60 4, topK := leAt d 0x64 2, maxNew := leAt d 0x28 4, inputLeft := rdInputLen d, inputAddr := area,
      plan := leAt d 0x48 8, planGroups := (readPlan s p (leAt d 0x48 8) (leAt d 0x42 2)).getD [], headsM1 := m.heads - 1,
      partialBf16 := bit (leAt d 2 1) 2, maskL := leAt d 0x44 4, bitmap := leAt d 0x50 8, bitmapStride := leAt d 0x58 4,
      pf := v == .pf, tag := rdTag d, reading := true, hostInput := leAt d 0x20 8, hostStops := leAt d 0x68 8, acceptedAt := now s,
      hmode := leAt d 2 1 % 4, dest := leAt d 0x3E 1, destPtn := leAt d 0x3F 1, store := leAt d 0x40 1, storePtn := leAt d 0x41 1 }
    -- the donor's entries for the shared positions, and one reference on each local page (R257)
    let r : Req := match donor with
      | some o => (layersOf base).foldl (fun r l => (List.range (shared / P)).foldl (fun r i => setMap r l i (o.entry l i)) r) base
      | none => base
    let amount := odGet s (0x91A0 + p) 5 * shared + odGet s (0x91A0 + p) 3 * rdInputLen d
    let h := r.handle
    let s2 := (cacheRsr s1 r).modServe fun w => { w with
      reqs := w.reqs ++ [{ r with admitCharge := amount }],
      pages := updIf (fun g => g.ptn == p && r.pageNums.contains g.num) (fun g => { g with refcnt := g.refcnt + 1 }) w.pages }
    let s3 := charge (addXfer s2 p 3 (cdiv (4 * rdInputLen d) 4096) (.input h)) h amount
    let s4 := odRaise (reqRec s3 r.pf p stOK 0x20 1 h r.tag 0 0xFFFFFFFF r.length (sat 0xFFFFFFFF amount)) (0x91C0 + p) 1 (queueDepth s3 p)
    afterAccept ((holdersOf r.planGroups).foldl (fun s g => refMsg s r false g) s4) h
  | some _, none => refuseReq (startEviction s p) v d stBUSY 0xFFFFFFFF
  | none, _ => refuseReq s v d stBUSY 0xFFFFFFFF

/-- REQ_SUBMIT: also a reserved OP, which completes with FORMAT (R9, R468, R469). -/
def execReqSubmit (v : View) (desc : List Byte) (s : State) : Host.Outcome State Fault Refusal :=
  .next (
    if !ringOpen s v (subRing v 0) || [2, 3, 4, 5].contains (rdOp desc) then s
    else
      let s1 := ringTake s (subRing v 0)
      if wrongPtn v (rdPtn desc) then refuseReq s1 v desc stACCESS 0xFFFFFFFF
      else match submitStatus s1 desc, modelOf s1 (leAt desc 0x18 2) with
        | 0, some m => acceptSubmit s1 v desc m
        | st, _ => refuseReq s1 v desc (if st = 0 then stFORMAT else st) 0xFFFFFFFF)

/-- Tokens that a continuation must give again (R497). -/
def repairCount (r : Req) : Nat := r.promptLen + r.nextIndex - r.length
/-- Status of a CONTINUE (R224, R468). -/
def continueStatus (s : State) (d : List Byte) : Nat :=
  let h := rdHandle d
  let cap := match findReq s h with | some r => decide (r.length + rdInputLen d + 1 ≤ r.maxTokens) | none => true
  if !rdFormatOk d || !cap || handleStatus s h = stFORMAT then stFORMAT
  else match findReq s h with
    | none => stEPOCH
    | some r =>
      if bits h 27 5 != rdPtn d then stACCESS
      else if r.epoch != rdEpoch d then stEPOCH
      else if queueFull s r.ptn then stBUSY
      else if !((r.state == .parked && !r.holding) || (r.state == .decode && r.finished)) || rdInputLen d < repairCount r then stFORMAT
      else stOK
/-- REQ_CONTINUE (R495, R497, R498, R480). -/
def execReqContinue (v : View) (desc : List Byte) (s : State) : Host.Outcome State Fault Refusal :=
  .next (
    if !ringOpen s v (subRing v 0) || rdOp desc != 2 then s
    else
      let s1 := ringTake s (subRing v 0)
      let h := rdHandle desc
      if wrongPtn v (rdPtn desc) then refuseReq s1 v desc stACCESS h
      else match continueStatus s1 desc, findReq s1 h with
        | 0, some r =>
          match allocOwn s1 r.ptn (4 * rdInputLen desc) with
          | none => refuseReq (startEviction s1 r.ptn) v desc stBUSY h
          | some (area, s2) =>
            let n := rdInputLen desc - repairCount r
            let flags := leAt desc 1 1
            let amount := odGet s1 (0x91A0 + r.ptn) 3 * n
            let s3 := modReq (goState s2 h .queued) h fun r => { r with
              keep := bit flags 0, keepOnCancel := bit flags 1, durable := bit flags 2, wbEvery := bit flags 3, finished := false, await := false,
              pf := v == .pf, tag := rdTag desc, nextIndex := r.nextIndex + n, maxNew := if leAt desc 0x28 4 = 0 then r.maxNew else leAt desc 0x28 4,
              generated := if n = 0 then r.generated else 0, hist := if n = 0 then r.hist else [], inputLeft := rdInputLen desc, inputAddr := area,
              reading := true, hostInput := leAt desc 0x20 8, hostStops := 0, acceptedAt := now s, admitCycle := cycle32 s, admitCharge := amount, dispatched := false, layer := 0, phase := 0, stepTokens := 0 }
            -- pages that are staged when DURABLE is set get their mirrors (R264, R266)
            let s3a := if bit flags 2 then (s3.serve.pages.filter fun g => g.ptn == r.ptn && r.pageNum g.layer g.position == some g.num && g.mirror.isNone && !g.through).foldl
                (fun s g => (addMirror s g.ptn g.num).getD s) s3 else s3
            let s4 := charge (addXfer s3a r.ptn 3 (cdiv (4 * rdInputLen desc) 4096) (.input h)) h amount
            let ch := ((findReq s4 h).map (·.charged)).getD 0
            afterAccept (odRaise (reqRec s4 (v == .pf) r.ptn stOK 0x20 2 h (rdTag desc) r.epoch 0xFFFFFFFF r.length ch) (0x91C0 + r.ptn) 1 (queueDepth s4 r.ptn)) h
        | st, _ => refuseReq s1 v desc (if st = 0 then stFORMAT else st) h)

/-- OP_DONE of a descriptor. -/
def answerOp (s : State) (v : View) (d : List Byte) (st : Nat) : State :=
  let q := match v with | .pf => rdPtn d | .vf q => q
  let s1 := if wrongPtn v (rdPtn d) then countAccess s q else s
  opDone s1 (v == .pf) q st (rdOp d) (rdHandle d) (rdTag d) (shownReq s v d)

/-- Stop a request's move that installs it elsewhere: ABORT to the device that holds its pages or its
install (R401). -/
def abortMove (s : State) (h : Nat) : State :=
  match s.serve.moves.find? fun m => m.handle == h && m.verb ≤ 3, findReq s h with
  | some m, some r =>
    let dev := if m.target = 1 then m.store else m.dest
    let q := if m.target = 1 then m.storePtn else m.destPtn
    let s1 := if m.sends = 0 && m.acked.isEmpty && m.flying.isEmpty then s
      else sendState s dev 5 { srcPtn := r.ptn, dstPtn := q, srcHandle := h, dstHandle := r.peerHandle, epoch := m.epoch, tag := m.tag, seq := m.seq }
    modReq (endMove s1 m.id) h fun r => { r with mverb := 0 }
  | _, _ => s
/-- Roll a request back: a move that carries it elsewhere is aborted, what runs under the old epoch stops (R158, R262, R268). -/
def rollReq (s : State) (h : Nat) : State := stopReqTasks (rollback (abortMove s h) h) h stEPOCH
/-- Cancel of a request by its state (R271, R272, R401, R402, R502). The request's own end comes first, so that nothing of it is written
after the cancel is read (R503); then its tasks stop. -/
def cancelReq (s : State) (h : Nat) : State :=
  match findReq s h with
  | none => s
  | some r =>
    if r.state.over then s
    else if r.state == .parked || (r.state == .decode && r.finished) then
      (if r.keepOnCancel then requestRec s r stCANCELLED r.lastIndex
      -- released as a DROP would: the references of other devices stand until they are returned (R385)
      else if r.holding && r.remoteRefs != 0 then modReq s h fun r => { r with dropPending := true }
      else stopReqTasks (endReq s h stCANCELLED r.lastIndex) h stCANCELLED)
    else if r.state == .queued && !r.dispatched then
      let s1 := creditBack s h
      match findReq s1 h with
      | some r => stopReqTasks (if r.keepOnCancel then goState (requestRec s1 r stUNSTARTED r.lastIndex) h .parked else endReq s1 h stUNSTARTED r.lastIndex) h stCANCELLED
      | none => s1
    else
      let s1 := stopPromotions (abortMove s h) h
      let s2 := if r.keepOnCancel then
          (requestRec (modReq (goState s1 h .parked) h fun r => { r with layer := 0, phase := 0, stepTokens := 0, task := none, await := false, logitsBuf := none }) r stCANCELLED r.lastIndex).modServe
            fun w => { w with queries := w.queries.filter (·.handle != h) }
        else endReq s1 h stCANCELLED r.lastIndex
      -- tokens of a step that has not reached its last layer are given up with those of its tasks (R246)
      let s3 := trimStep ((layersOf r).foldl (fun s l => discardLayer s h l) s2) h
      stopReqTasks s3 h stCANCELLED

/-- REQ_CANCEL (R502). -/
def execReqCancel (v : View) (desc : List Byte) (s : State) : Host.Outcome State Fault Refusal :=
  .next (
    if !ringOpen s v (subRing v 0) || rdOp desc != 3 then s
    else
      let s1 := ringTake s (subRing v 0)
      let st := if wrongPtn v (rdPtn desc) then stACCESS else opStatus s1 desc true
      if st != stOK then answerOp s1 v desc st
      else if (findReq s1 (rdHandle desc)).any (·.state.over) then answerOp s1 v desc stEPOCH
      else
        let old := findReq s1 (rdHandle desc)
        let s2 := (cancelReq s1 (rdHandle desc)).modServe fun w => { w with cancels := cntSet w.cancels (rdHandle desc) (now s + 1) }
        -- the record shows the request as the cancel leaves it, or as it was before where nothing is left
        opDone s2 (v == .pf) (rdPtn desc) stOK 3 (rdHandle desc) (rdTag desc) (((findReq s2 (rdHandle desc)).map fun r => { r with epoch := ((old.map (·.epoch)).getD r.epoch) }).orElse fun _ => old))

/-- REQ_STATUS: the RSR goes to host memory through the partition's VF (R504). -/
def execReqStatus (v : View) (desc : List Byte) (s : State) : Host.Outcome State Fault Refusal :=
  .next (
    if !ringOpen s v (subRing v 0) || rdOp desc != 4 then s
    else
      let s1 := ringTake s (subRing v 0)
      let st := if wrongPtn v (rdPtn desc) then stACCESS else opStatus s1 desc false
      match st, findReq s1 (rdHandle desc) with
      | 0, some _ =>
        -- the record is read through the request-state cache (R228)
        let s2 := loadRsr s1 (rdHandle desc)
        match findReq s2 (rdHandle desc) with
        | some r => answerOp (hostWrite s2 r.ptn (leAt desc 0x20 8) (rsrBytes s2 r)) v desc stOK
        | none => answerOp s2 v desc stPOISON
      | st, _ => answerOp s1 v desc st)

/-- REQ_TOKEN: the host's token is treated as one that SAMP chose (R490, R503, R762). -/
def execReqToken (v : View) (desc : List Byte) (s : State) : Host.Outcome State Fault Refusal :=
  .next (
    if !ringOpen s v (subRing v 0) || rdOp desc != 5 then s
    else
      let s1 := ringTake s (subRing v 0)
      let h := rdHandle desc
      let st := if wrongPtn v (rdPtn desc) then stACCESS else opStatus s1 desc true
      -- a TOKEN read in the tick of a CANCEL of the same request (R503)
      if !wrongPtn v (rdPtn desc) && bits h 27 5 == rdPtn desc && (cnt s1.serve.cancels h = now s + 1 || cancelComing s1 h) then answerOp s1 v desc stCANCELLED
      else match st, findReq s1 h with
        | 0, some r =>
          let tok := rdInputLen desc
          if !r.await || leAt desc 0x28 4 != r.nextIndex || ((modelOf s1 r.model).map (·.vocab)).getD 0 ≤ tok then answerOp s1 v desc stFORMAT
          else
            let s2 := answerOp s1 v desc stOK
            let s3 := takeToken s2 h tok (stopReason r tok)
            match findReq s3 h with
            | some r' => if r.dest != myDev s3 && !r'.finished then startHandoff s3 h else s3
            | none => s3
        | st, _ => answerOp s1 v desc st)

/-- Stop block (R491): its stop tokens and sequences, none when it breaks a range. -/
def parseStops (b : List Byte) : Option (List Nat × List (List Nat)) :=
  let n := leAt b 0 1
  let q := leAt b 1 1
  let len (j : Nat) : Nat := leAt b (2 + j) 1
  if b.length < 256 || 16 < n || 4 < q || !zeroAt b 6 10 || !zeroAt b 0xD0 48
    || ((List.range 4).any fun j => if j < q then len j < 1 || 8 < len j else len j != 0) then none
  else some ((List.range n).map fun i => leAt b (0x10 + 4 * i) 4,
    (List.range q).map fun j => (List.range (len j)).map fun i => leAt b (0x50 + 32 * j + 4 * i) 4)

/-- INPUT_READ_DONE: the input tokens and stop block are in the partition's structures; a failed read ends
the request with ACCESS, an invalid one with FORMAT, and the charge is returned (R470, R471). They are read in a PCIe MOVER entry. -/
def execInputReadDone (handle : Nat) (ok : Bool) (input stops : List Byte) (s : State) : Host.Outcome State Fault Refusal :=
  .next (match findReq s handle with
    | none => s
    | some r =>
      -- a window that holds the input area delays its tiles (R101)
      if !r.reading || !s.serve.xfers.any (fun x => x.what == .input handle && x.running) || windowHolds s (r.inputAddr / 4096) (cdiv (4 * r.inputLeft) 4096) then s
      else
        let s1 := s.modServe fun w => { w with xfers := w.xfers.filter fun x => x.what != .input handle }
        let bad (st : Nat) : State :=
          let s2 := creditBack s1 handle
          match findReq s2 handle with
          | some r => endReq s2 handle st r.lastIndex
          | none => s2
        let toks := (List.range r.inputLeft).map fun i => leAt input (4 * i) 4
        let v := ((modelOf s r.model).map (·.vocab)).getD 0
        if !ok then bad stACCESS
        else match (if r.hostStops = 0 then some (r.stopTok, r.stopSeq) else parseStops stops) with
          | none => bad stFORMAT
          | some (st, sq) =>
            if toks.any fun t => v ≤ t then bad stFORMAT
            else
              let s2 := countTiles (tierWrite s1 r.inputAddr (bytesAt input 0 (4 * r.inputLeft))) (some r.ptn) (r.inputAddr / 4096) (cdiv (4 * r.inputLeft) 4096) true
              modReq (telDma s2 (some r.ptn) 8 (input.length + stops.length)) handle fun r => { r with
                reading := false, input := toks, stopTok := st, stopSeq := sq, stopBlock := if r.hostStops = 0 then r.stopBlock else bytesAt stops 0 256 })

/-- OPEN_PAGE_LOADED: an open page is in the staging of the cluster chosen for it, with its mirror (R244, R264). A load whose cluster has
no room left is given up, so that the next task that needs the page chooses again; one whose mirror finds no room waits for it. -/
def execOpenPageLoaded (xfer : Nat) (s : State) : Host.Outcome State Fault Refusal :=
  .next (match findXfer s xfer with
    | some x => match x.what with
      | .openLoad p num c =>
        if xferWaits s x then s
        else
          let s1 := dropXfer s xfer
          match findPage s1 p num with
          | none => s1
          | some g =>
            if g.stage.isSome then s1
            else match fitBlocks s1 c (openBlocks g.geo) with
              | none => s1
              | some b =>
                let n := openBlocks g.geo * 4096
                let s2 := modPage (sramWriteP (countTiles s1 (some p) g.nearAddr (openBlocks g.geo) false) (stageKey s1 c b) (tierRead s1 (g.nearAddr * 4096) n) (tierPoison s1 (g.nearAddr * 4096) n)) p num
                  fun g => { g with stage := some (c, b), dirty := [] }
                if s1.serve.reqs.any fun r => r.ptn == p && r.durable && r.pageNum g.layer g.position == some num then (addMirror s2 p num).getD s
                else s2
      | _ => s
    | none => s)

end Sys2Proof.Machine
end

