-- ==== Sys2Proof/Machine/Tables.lean ====
section
/-! DEFINITION. Entropy tables over time (R297-R310): slots, builds at table epochs, tables supplied by
the host, tables received with a move. -/

namespace Sys2Proof.Machine
open Sys2Proof

/-- Lowest free table slot, or lowest free even-odd pair, within the partition's 512 (R295, R296). -/
def freeTab (s : State) (p n : Nat) : Option Nat :=
  let used := s.serve.tables.map (·.num)
  if 512 < (s.serve.tables.filter (·.ptn == p)).length + n then none
  else (List.range (4096 / n)).findSome? fun i => if (List.range n).any fun k => used.contains (i * n + k) then none else some (i * n)
/-- The components of a model's tensors at a layer (R292). -/
def tensorComps (latent : Bool) : List Nat := if latent then [2] else [0, 1]
def histOf (s : State) (p model layer comp width : Nat) : Option Hist :=
  s.serve.hists.find? fun h => h.ptn == p && h.model == model && h.layer == layer && h.comp == comp && h.width == width
/-- KVT_FULL (R318): tensor word, 0 for a build, 1 for a received table. -/
def kvtFull (s : State) (p word why : Nat) : State := raiseBoth s p { cls := 3, code := 1, payload := [word, why] }
def entropyHost (s : State) (p : Nat) : Bool := odGet s (0x9100 + p) 3 = 1

/-- Build the tables of one layer of a model: both of a pair (R303-R305). -/
def buildTensor (s : State) (p model layer : Nat) (latent : Bool) (width : Nat) : State :=
  let cs := tensorComps latent
  match freeTab s p cs.length with
  | none => kvtFull (odCount s (0x9140 + p) 4) p (tensorWord model layer (cs.headD 0) width) 0
  | some n =>
    let mk (i c : Nat) : KvTable := {
      num := n + i, ptn := p, state := .building, model := model, layer := layer, comp := c, width := width,
      lengths := buildLengths (((histOf s p model layer c width).map (·.counts)).getD (List.replicate (2 ^ kvqBits width) 0)) }
    s.modServe fun w => { w with
      tables := w.tables ++ cs.mapIdx mk,
      hists := w.hists.filter fun h => !(h.ptn == p && h.model == model && h.layer == layer && h.width == width && cs.contains h.comp) }
/-- EPOCH_CYCLES of the table epoch that runs (R316). -/
def epochCycles (s : State) (p : Nat) : Nat := if cnt s.serve.epochLen p = 0 then 15625 else cnt s.serve.epochLen p
/-- TABLE_EPOCH_END: after EPOCH_CYCLES cycles, tensors whose histogram has MIN_BLOCKS start to build, in the hardware mode; the next epoch has
the EPOCH_CYCLES that stand now (R303, R305, R316). -/
def execTableEpochEnd (ptn : Nat) (s : State) : Host.Outcome State Fault Refusal :=
  .next (
    let s0 := s.modServe fun w => { w with epochCount := cntSet w.epochCount ptn 0, epochLen := cntSet w.epochLen ptn (odGet s (0x9140 + ptn) 1) }
    if isolated s ptn || cnt s.serve.epochCount ptn < epochCycles s ptn then s
    else if entropyHost s ptn then s0
    else
      let due := s.serve.hists.filter fun h => h.ptn == ptn && odGet s (0x9140 + ptn) 2 ≤ h.blocks
      let keys := (due.map fun h => (h.model, h.layer, h.comp == 2, h.width)).eraseDups
      keys.foldl (fun s k => buildTensor s ptn k.1 k.2.1 k.2.2.1 k.2.2.2) s0)
/-- TABLE_BUILD_DONE: the table becomes CURRENT at the next boundary (R297, R304). -/
def execTableBuildDone (ptn model layer : Nat) (s : State) : Host.Outcome State Fault Refusal :=
  .next (
    let mine (t : KvTable) : Bool := t.ptn == ptn && t.model == model && t.layer == layer && t.state == .building
    s.modServe fun w => { w with
      -- a build that ends in the host-assisted mode gives no table: the host's newest stands (R29)
      tables := if odGet s (0x9100 + ptn) 3 = 1 then w.tables.filter fun t => !(mine t && !t.due) else updIf mine (fun t => { t with due := true }) w.tables })

/-- Fields of a table image (R292). -/
def imgModel (b : List Byte) : Nat := leAt b 0 2
def imgLayer (b : List Byte) : Nat := leAt b 2 1
def imgComp (b : List Byte) : Nat := leAt b 3 1 % 4
def imgWidth (b : List Byte) : Nat := leAt b 3 1 / 4 % 8
def imgBits (b : List Byte) : Nat := kvqBits (imgWidth b)
def imgLengths (b : List Byte) : List Nat := parseLengths (b.drop 16) (imgBits b)
/-- Whether an image is valid (R294). -/
def imgValid (b : List Byte) : Bool :=
  leAt b 3 1 < 32 && imgComp b != 3 && imgWidth b < 5 && b.length == tableBytes (imgBits b) && zeroAt b 6 2 && zeroAt b 12 4 && lengthsOk (imgLengths b)
/-- Whether a host's image is valid (R294): its component and width are checked after its lengths, against the model (R306). -/
def lengthsValid (b : List Byte) : Bool :=
  leAt b 3 1 < 32 && (5 ≤ imgWidth b || (b.length == tableBytes (imgBits b) && zeroAt b 6 2 && zeroAt b 12 4 && lengthsOk (imgLengths b)))
/-- Result of a host's write of one image or a pair (R306, R307): 0 with the images, or the code. -/
def supplyResult (s : State) (p : Nat) (data : List Byte) : Nat × List (List Byte) :=
  if !entropyHost s p then (4, [])
  else
    let md := modelOf s (imgModel data)
    let n := tableBytes (imgBits data)
    let pair := match md with | some m => !m.latent | none => false
    let imgs := if pair then [data.take n, data.drop n] else [data]
    let b := imgs.getD 1 []
    if pair && !(data.length == 2 * n && imgComp data == 0 && imgComp b == 1 && imgModel b == imgModel data && imgLayer b == imgLayer data && imgWidth b == imgWidth data) then (5, [])
    else if !(imgs.all lengthsValid) then (1, [])
    else match md with
      | none => (2, [])
      | some m =>
        if m.layers ≤ imgLayer data || (m.latent && imgComp data != 2) || 5 ≤ imgWidth data || m.width.any (· != imgWidth data) then (2, [])
        else if (freeTab s p imgs.length).isNone then (3, [])
        else (0, imgs)
/-- A host's write of a table image or a K and V pair to the table-supply entry; a refusal stands in the entry's result (R306,
R307, R317). Answers the result. -/
def tableSupply (s : State) (ptn : Nat) (data : List Byte) : State × Nat :=
  let (res, imgs) := supplyResult s ptn data
  let s1 := odSet s (0x9160 + ptn) 2 res
  match freeTab s ptn imgs.length with
  | some n =>
    (if res = 0 then s1.modServe fun w => { w with
      tables := w.tables ++ imgs.mapIdx fun i b => { num := n + i, ptn := ptn, state := .building, model := imgModel b, layer := imgLayer b, comp := imgComp b, width := imgWidth b, lengths := imgLengths b, due := true } }
    else s1, res)
  | none => (s1, res)

/-- Tables due become CURRENT at a boundary, with the next EPOCH of their tensor; their predecessors are
RETIRED (R297); a RETIRED table that no copy names and no task packs with any more is FREE. -/
def turnCurrent (s : State) : State :=
  let due := s.serve.tables.filter fun t => t.state == .building && t.due
  let s1 := due.foldl (fun s t =>
    let same (x : KvTable) : Bool := x.ptn == t.ptn && x.model == t.model && x.layer == t.layer && x.comp == t.comp && x.state == .current
    -- EPOCH of the tensor's last current table + 1, 1 for its first; a change of the mode between does not matter
    let key := ((t.ptn * 2 ^ 16 + t.model) * 2 ^ 8 + t.layer) * 4 + t.comp
    let ep := if cnt s.serve.lastEpochs key = 0 then 1 else cnt s.serve.lastEpochs key % 65536
    s.modServe fun w => { w with
      lastEpochs := cntSet w.lastEpochs key (ep + 1)
      tables := (updIf same (fun x => { x with state := .retired }) w.tables).map fun x => if x.num = t.num then { x with state := .current, due := false, epoch := ep, since := s.eph.cycle } else x }) s
  s1.modServe fun w => { w with tables := w.tables.filter fun x => !tabIdle s1 x }
/-- A change of the entropy mode retires every current table; tables due at the same boundary are
installed RETIRED; histograms start empty in the hardware mode (R308). Work that packs with a table keeps it (R25). -/
def retireTables (s : State) (p : Nat) : State :=
  s.modServe fun w => { w with
    tables := (updIf (fun t => t.ptn == p && (t.state == .current || t.due)) (fun t => { t with state := .retired, due := false }) w.tables).filter
      fun t => !(t.ptn == p && tabIdle s t),
    hists := w.hists.filter (·.ptn != p) }

/-- A received table, or pair, in the partition: one equal in TENSOR and LENGTHS is used; else it is
installed RETIRED (R310). Answers the number of component 0. -/
def receiveTables (s : State) (p : Nat) (imgs : List (List Byte)) : Option Nat × State :=
  let eq (b : List Byte) (t : KvTable) : Bool :=
    t.ptn == p && t.model == imgModel b && t.layer == imgLayer b && t.comp == imgComp b && t.width == imgWidth b && t.lengths == imgLengths b
  let held := s.serve.tables.find? fun t => (imgs.head?.map fun b => eq b t).getD false
    && (imgs.drop 1).all fun b => s.serve.tables.any fun u => u.num == t.num + 1 && eq b u
  match held with
  | some t => (some t.num, s)
  | none =>
    match freeTab s p imgs.length with
    | none => (none, kvtFull s p (leAt (imgs.headD []) 0 4) 1)
    | some n => (some n, s.modServe fun w => { w with
        tables := w.tables ++ imgs.mapIdx fun i b => { num := n + i, ptn := p, state := .retired, model := imgModel b, layer := imgLayer b, comp := imgComp b, width := imgWidth b, epoch := leAt b 4 2, lengths := imgLengths b } })
/-- CRC field of a held table's image, as in a page descriptor (R289, R292). -/
def tabCrc (t : KvTable) : Nat := leAt (tableImage t.model t.layer t.comp t.width t.epoch t.lengths) 8 4
/-- The packed page descriptor of a page (R289), in 32 bytes. -/
def packedDesc (pos layer format len slotTiles tensor tcrc0 tcrc1 pcrc : Nat) : List Byte :=
  leBytes 2 pos ++ leBytes 1 layer ++ leBytes 1 format ++ leBytes 2 len ++ leBytes 2 slotTiles ++ leBytes 4 tensor ++ leBytes 4 tcrc0 ++ leBytes 4 tcrc1 ++ leBytes 4 pcrc ++ leBytes 8 0
/-- Fields of a packed page descriptor (R289). -/
def pdPos (d : List Byte) : Nat := leAt d 0 2
def pdLayer (d : List Byte) : Nat := leAt d 2 1
def pdFormat (d : List Byte) : Nat := leAt d 3 1
def pdTensor (d : List Byte) : Nat := leAt d 8 4

end Sys2Proof.Machine
end

