-- ==== Sys2Proof/Machine/Move.lean ====
section
/-! DEFINITION. Moves (R354-R392): descriptors, the progress of a move on its owner, installs and
receptions, holding requests and remote references, promotion and eviction. -/

namespace Sys2Proof.Machine
open Sys2Proof

/-- A move completion (R358). -/
def moveRec (s : State) (m : Move) (status peer peerHandle epoch : Nat) : State :=
  if m.quiet && status = stOK then s
  else match taskRing m.src with
    | some r => ringWrite s r (.move status (0x10 + m.verb) m.handle m.tag epoch peer peerHandle (sat 0xFFFFFF m.pages) m.skipped m.failed (s.eph.cycle % 2 ^ 24))
    | none => s
def epochOf (s : State) (h : Nat) : Nat := ((findReq s h).map (·.epoch)).getD 0
/-- A local move ends. -/
def moveDone (s : State) (id status : Nat) : State :=
  match findMove s id with
  | none => s
  | some m => modReq (endMove (moveRec s m status (myDev s) m.handle (epochOf s m.handle)) id) m.handle fun r => if r.mverb = m.verb then { r with mverb := 0 } else r
/-- A move to another device fails: the request stays here, PARKED; the device is told (R370, R380). -/
def moveFail (s : State) (id status : Nat) : State :=
  match findMove s id with
  | none => s
  | some m =>
    let s1 := if m.sends = 0 && m.acked.isEmpty && m.flying.isEmpty then s
      else sendState s (if m.target = 1 then m.store else m.dest) 5 { srcPtn := m.ptn, dstPtn := if m.target = 1 then m.storePtn else m.destPtn, srcHandle := m.handle, epoch := m.epoch, tag := m.tag, seq := m.seq }
    let s2 := moveRec s1 m status (if m.target = 1 then m.store else m.dest) 0xFFFFFFFF (epochOf s m.handle)
    modReq (goState (endMove s2 id) m.handle .parked) m.handle fun r => { r with mverb := 0 }

/-- Write-back of a page's dirty blocks to its open area waits for a tier mover (R247). -/
def queueWriteback (s : State) (p num : Nat) : State :=
  match findPage s p num with
  | none => s
  | some g =>
    let has := s.serve.xfers.any fun x => match x.what with | .writeBack p' n _ _ => p' == p && n == num | _ => false
    if g.dirty.isEmpty || g.stage.isNone || has then s
    else addXfer (modPage s p num fun g => { g with marked := true }) p 0 g.dirty.length (.writeBack p num g.dirty [])
/-- Pages of a request on this device. -/
def pagesOf (s : State) (r : Req) : List Page := s.serve.pages.filter fun g => g.ptn == r.ptn && r.pageNum g.layer g.position == some g.num
/-- Whether a live task of a request exists. -/
def reqBusy (s : State) (h : Nat) : Bool := s.work.tasks.any fun t => t.request == some h && !(t.src == TaskSrc.dispatcher && t.state == .ready)
/-- Tasks of a request that the dispatcher built and that went back to their wait are given up. -/
def dropRetried (s : State) (h : Nat) : State :=
  s.modWork fun w => { w with tasks := w.tasks.filter fun t => !(t.request == some h && t.src == TaskSrc.dispatcher && t.state == .ready) }
/-- The bytes of the first tokens of an open page, the rest zero. -/
def keepTokens (g : Geo) (n : Nat) (bs : List Byte) : List Byte :=
  let keep := ((List.range n).map (tokenBytes g)).flatten
  bs.mapIdx fun i b => if keep.any fun r => r.1 ≤ i && i < r.1 + r.2 then b else 0
/-- Bytes of an open page's committed tokens in BF16, the rest zero (R379). -/
def openBytes (s : State) (g : Page) : List Byte :=
  let n := openBlocks g.geo * 4096
  let bs := match g.stage with
    | some (c, b) => sramRead s (stageKey s c b) n
    | none => tierRead s (g.nearAddr * 4096) n
  keepTokens g.geo g.tokens bs
/-- The plan that DEST receives (R376, R378). -/
def sentPlan (s : State) (m : Move) (r : Req) : List Group :=
  let (f0, f1) := localRange s r
  -- the pages of a REF have passed to the holding request already
  if m.verb != 1 || m.mode = 0 then r.planGroups
  else r.planGroups ++ if m.mode = 2 then m.plan else cover m.store m.storeHandle 65536 f0 f1
def planBytes (gs : List Group) : List Byte :=
  (gs.map fun g => leBytes 8 (g.first + g.log2 * 2 ^ 16 + g.holder * 2 ^ 24 + g.handle * 2 ^ 32) ++ leBytes 8 0).flatten
/-- The INSTALL message of a move (R365, R367, R376). -/
def installMsg (s : State) (m : Move) (r : Req) : StateMsg :=
  let store := m.target = 1
  let away := m.verb = 1 && m.mode != 0 && !store
  let entries := r.map.map fun e =>
    if bit e.2 28 then
      match findPage s r.ptn (bits e.2 0 28) with
      | some g => if g.state = .open || g.state = .sealing then (e.1, if store then 0 else mapValid 0) else (e.1, if away then mapRemote else mapValid 0)
      | none => (e.1, 0)
    else (e.1, if store then 0 else e.2)
  let tails := if store then [] else ((pagesOf s r).filter fun g => g.state == .open || g.state == .sealing).map fun g => Item.tail g.layer g.position g.tokens (openBytes s g)
  let plan := sentPlan s m r
  let rsr : Req := { r with
    mverb := m.verb, holding := store, state := if store || m.verb != 1 then .parked else .handoff, epoch := m.epoch, task := none,
    planGroups := if store then [] else plan, durableLen := r.length }
  let body := [Item.rsr (rsrBytes s rsr), .map (entries.filter (·.2 != 0)), .plan (if store then [] else planBytes plan)] ++ tails
  { srcPtn := m.ptn, dstPtn := if store then m.storePtn else m.destPtn, srcHandle := m.handle, epoch := m.epoch, tag := m.tag, seq := m.seq, body := body }
/-- Send INSTALL, the first time or again (R370). -/
def sendInstall (s : State) (id : Nat) : State :=
  match findMove s id with
  | none => s
  | some m =>
    match findReq s m.handle with
    | none => s
    | some r => modMove (sendState s (if m.target = 1 then m.store else m.dest) 1 (installMsg s m r)) id fun m => { m with sends := m.sends + 1, sentAt := now s, seq := m.seq + 1 }
/-- A holding request on this device takes over the source request's sealed map references (R376, REF). -/
def makeHolder (s : State) (m : Move) (r : Req) : Option (Nat × State) :=
  match newSlot s r.ptn, allocOwn s r.ptn (r.layers * (r.maxTokens / r.pageLen) * 4) with
  | some (slot, gen), some (pmap, s1) =>
    let ns := (sealedPages s r).map (·.num)
    let (f0, f1) := localRange s r
    let hold : Req := { r with
      slot := slot, gen := gen, state := .parked, holding := true, keep := true, map := r.map.filter fun e => bit e.2 28 && ns.contains (bits e.2 0 28),
      pmap := pmap, planGroups := [], plan := 0, mverb := 0, remoteRefs := 0, refSets := [], partialBuf := 0, task := none, input := [], inputAddr := 0, inputLeft := 0, reading := false }
    let s2 := (cacheRsr (pinAll s1 r false) hold).modServe fun w => { w with reqs := w.reqs ++ [hold] }
    let s3 := modReq s2 r.handle fun r => { r with map := r.map.map fun e => if bit e.2 28 && ns.contains (bits e.2 0 28) then (e.1, mapRemote) else e }
    let s4 := match findReq s3 r.handle with | some r => pinAll s3 r true | none => s3
    some (hold.handle, modMove s4 m.id fun m => { m with storeHandle := hold.handle, plan := cover (myDev s) hold.handle 65536 f0 f1 })
  | _, _ => none

/-- Carry a move on as far as it can go (R360-R370, R375-R381). -/
def progressMove (s : State) (id : Nat) : State :=
  match findMove s id with
  | none => s
  | some m =>
    match findReq s m.handle with
    | none => endMove s id
    | some r =>
      let mine (x : Xfer) : Bool := match x.what with
        | .promote _ _ h => h == m.handle
        | .evict _ _ h => h == m.handle
        | .send _ _ i => i == id
        | _ => false
      let waiting := s.serve.xfers.any mine
      let remote := m.dest != myDev s
      if m.streaming then s
      else if m.verb = 4 then (if waiting then s else moveDone s id stOK)
      else if m.verb = 8 then (if waiting || !m.todo.isEmpty || !m.flying.isEmpty then s else endMove s id)
      else if m.verb = 2 && r.state != .parked then
        -- the running tasks end, every staged tile is written back, the pins are dropped (R380)
        if reqBusy s m.handle then s
        else
          let s1 := trimStep (dropRetried s m.handle) m.handle
          let dirty := (pagesOf s1 r).filter fun g => !g.dirty.isEmpty
          if !dirty.isEmpty then dirty.foldl (fun s g => queueWriteback s g.ptn g.num) s1
          else
            let s2 := goState s1 m.handle .parked
            if !remote then moveDone s2 id stOK
            else ((sealedPages s2 r).map (·.num)).foldl (fun s n => carryPage s id n) s2
      else if m.verb = 3 && !remote then
        (if r.state = .promoting then s else moveDone s id stOK)
      else if m.verb = 1 || m.verb = 2 || m.verb = 3 then
        -- a page that was sealed since the move began is carried too (R376)
        let late := if m.verb = 1 && (m.mode = 2 || (m.mode = 1 && m.target = 2)) then [] else ((sealedPages s r).map (·.num)).filter fun n => !m.carries.contains n
        if waiting || !m.todo.isEmpty || !m.flying.isEmpty || reqBusy s m.handle || m.sends != 0 then s
        else if !late.isEmpty then late.foldl (fun s n => carryPage s id n) s
        else if m.verb = 1 && m.mode = 2 && m.storeHandle = 0xFFFFFFFF then
          match makeHolder s m r with
          | some (_, s1) => sendInstall s1 id
          | none => moveFail (if (newSlot s m.ptn).isSome then startEviction s m.ptn else s) id stBUSY
        else sendInstall s id
      else s
/-- Carry every move of a partition on. -/
def progressPtn (s : State) (p : Nat) : State := ((s.serve.moves.filter (·.ptn == p)).map (·.id)).foldl progressMove s
def progressAll (s : State) : State := (s.serve.moves.map (·.id)).foldl progressMove s

/-- WRITEBACK_DONE: the blocks are in the open area, and lose DIRTY unless a commit came between (R438). -/
def execWritebackDone (xfer : Nat) (s : State) : Host.Outcome State Fault Refusal :=
  .next (match findXfer s xfer with
    | some x => match x.what with
      | .writeBack p num bl again =>
        if xferWaits s x then s
        else
          let s0 := dropXfer s xfer
          match findPage s0 p num with
          | none => s0
          | some g =>
          let s1 := bl.foldl (fun s k => telMem (countTile s (some p) (g.nearAddr + k) true) (tileRes s (g.nearAddr + k)) 11) s0
          match g.stage with
            | none => s1
            | some (c, b) =>
              let s2 := bl.foldl (fun s k => tierWriteP s ((g.nearAddr + k) * 4096) (sramRead s (stageKey s c (b + k)) 4096) (sramPoison s (stageKey s c (b + k)) 4096)) s1
              let s3 := modPage s2 p num fun g => { g with dirty := g.dirty.filter fun k => !bl.contains k || again.contains k, marked := false }
              progressPtn (match s3.serve.reqs.find? fun r => r.ptn == p && r.pageNum g.layer g.position == some num with
              | some r => recalc s3 r.handle
              | none => s3) p
      | _ => s
    | none => s)

/-- Fields of a move descriptor (R355). -/
def mvVerb (x : Nat) : Nat := bits x 0 8
def mvPtn (x : Nat) : Nat := bits x 16 5
def mvReq (x : Nat) : Nat := bits x 32 32
/-- Reserved encodings and fields of a move descriptor (R355, R356, R380). -/
def mvFormatOk (s : State) (v : View) (x : Nat) : Bool :=
  let verb := mvVerb x
  2 ≤ verb && verb ≤ 7 && bits x 8 2 == 0 && !bit x 15 && bits x 21 11 == 0 && bits x 93 3 == 0 && bits x 96 8 == 0 && bits x 109 19 == 0
  && bits x 272 240 == 0 && (v == .pf || !bit x 14) && (verb == 5 || verb == 7 || bits x 192 64 == 0) && (verb != 7 || bits x 256 16 ≤ 1024)
  && (verb != 5 || bits x 80 8 == myDev s) && handleStatus s (mvReq x) != stFORMAT
/-- Whether a verb accepts a request (R354). -/
def mvStateOk (r : Req) (verb : Nat) : Bool :=
  match verb with
  | 2 => r.state == .decode
  | 3 => r.state == .parked && !r.holding
  | 4 => r.state == .queued || r.state == .parked
  | 5 => r.state == .decode || r.state == .parked
  | 6 => r.state == .parked || (r.state == .decode && r.finished)
  | _ => r.state == .queued || r.state == .prefill || r.state == .decode || r.state == .parked
/-- A PARK, PROMOTE or DROP from the PF ends the doubt of a held install (R374). -/
def endsDoubt (v : View) (r : Req) (verb : Nat) : Bool := r.doubt && v == .pf && (verb == 2 || verb == 3 || verb == 6)
/-- A move of the request in progress, or an install that waits (R357, R367). -/
def mvBusy (s : State) (v : View) (r : Req) (verb : Nat) : Bool :=
  (verb != 7 && s.serve.moves.any fun m => m.handle == r.handle && m.verb ≤ 6)
  || (verb != 7 && r.install.isSome && r.mverb != 0 && !endsDoubt v r verb)
/-- Status of a move descriptor by the first row of R356 that applies; 0 when it may act. -/
def mvStatus (s : State) (v : View) (x : Nat) : Nat :=
  let verb := mvVerb x
  let p := mvPtn x
  let dest := bits x 80 8
  if wrongPtn v p then stACCESS
  else if !mvFormatOk s v x then stFORMAT
  else if bits (mvReq x) 27 5 != p || (if dest = myDev s then bits x 88 5 != p else !isPeer s p dest (bits x 88 5)) then stACCESS
  else match findReq s (mvReq x) with
    | none => stEPOCH
    | some r =>
      if r.epoch != bits x 64 16 then stEPOCH
      else if mvBusy s v r verb || (verb == 5 && liveLimit s p ≤ liveCount s p) then stBUSY
      else if !((endsDoubt v r verb && !(verb = 3 && r.holding)) || mvStateOk r verb) then stFORMAT else stOK
/-- The move that a descriptor asks for. -/
def mvOf (s : State) (v : View) (x : Nat) : Move :=
  let r := findReq s (mvReq x)
  let dest := bits x 80 8
  { ptn := mvPtn x, handle := mvReq x, verb := mvVerb x, pack := bit x 11, quiet := bit x 12, pull := bit x 13, dest := dest, destPtn := bits x 88 5,
    tag := bits x 128 32, src := viewSrc v, target := 2, epoch := ((r.map (·.epoch)).getD 0 + (if dest = myDev s then 0 else 1)) % 65536 }
/-- Read a move descriptor of a verb from the ring: refuse it, or act on its request. -/
def takeMove (s : State) (v : View) (desc : BitVec 512) (verb : Nat) (act : State → Move → Req → State) : State :=
  let x := desc.toNat
  if !ringOpen s v (subRing v 2) || mvVerb x != verb then s
  else
    let s1 := ringTake s (subRing v 2)
    let st := mvStatus s1 v x
    let m := mvOf s1 v x
    match st, findReq s1 m.handle with
    | 0, some r => act s1 m r
    | st, _ =>
      let s2 := if st = stACCESS then (match v with | .vf q => if q = mvPtn x then s1 else countAccess s1 q | .pf => s1) else s1
      -- no field of a request is shown to a partition that does not own it (R259)
      let ep := match v with | .vf q => if bits m.handle 27 5 = q then epochOf s1 m.handle else 0 | .pf => epochOf s1 m.handle
      moveRec s2 { m with quiet := false } (if st = 0 then stFORMAT else st) (bits x 80 8) 0xFFFFFFFF ep
/-- The PF ends the doubt of a held install: the request is assigned to this device, and what runs under the old epoch stops (R158, R262,
R374). -/
def endDoubt (s : State) (r : Req) : State :=
  if r.doubt then
    stopReqTasks (goState (modReq s r.handle fun r => { r with doubt := false, mverb := 0, install := none, epoch := (r.epoch + 1) % 65536 }) r.handle .parked) r.handle stEPOCH
  else s

/-- The move of a request whose doubt it ends: the copy that it installs carries one epoch more than the assignment gave (R262, R374). -/
def afterDoubt (r : Req) (m : Move) : Move := if r.doubt then { m with epoch := (m.epoch + 1) % 65536 } else m
/-- MOVE_PARK (R380). -/
def execMovePark (v : View) (desc : BitVec 512) (s : State) : Host.Outcome State Fault Refusal :=
  .next (takeMove s v desc 2 fun s m r =>
    let s1 := addMove (modReq (endDoubt s r) r.handle fun r => { r with mverb := 2, peer := m.dest, peerPtn := m.destPtn, moveTag := m.tag, pack := m.pack, pagesSent := 0, pagesAcked := 0, peerHandle := 0xFFFFFFFF }) (afterDoubt r m)
    let id := s.serve.nextMove
    -- a request whose doubt ends is parked already
    if r.doubt then (if m.dest = myDev s then moveDone s1 id stOK
      else progressMove (((sealedPages s1 r).map (·.num)).foldl (fun s n => carryPage s id n) s1) id)
    else progressMove s1 id)

/-- Pages of a request in a range of positions; 0 positions for all of them (R355). -/
def inRange (first n : Nat) (g : Page) : Bool := n = 0 || (first ≤ g.position && g.position < first + n)
/-- Promotion ends for a request when none of its pages is being promoted: it goes on to PREFILL or
DECODE (R230, R380). -/
def promotionEnds (s : State) (h : Nat) : State :=
  match findReq s h with
  | none => s
  | some r =>
    let busy := (pagesOf s r).any (·.promo)
    if r.state != .promoting || busy then s
    else
      let s1 := goState s h (if r.inputLeft = 0 then .decode else .prefill)
      match s1.serve.moves.find? fun m => m.handle == h && m.verb == 3 with
      | some m => progressMove s1 m.id
      | none => s1
/-- FETCH to every holder of a plan for its groups in the range (R381). -/
def fetchAll (s : State) (r : Req) (m : Move) (first n : Nat) : State :=
  let want := r.planGroups.filter fun x => n = 0 || (x.first < first + n && first < x.first + 2 ^ x.log2)
  ((holdersOf want).mapIdx fun i g => (i, g)).foldl (fun s y =>
    let g := y.2
    let gs := want.filter fun x => x.holder == g.holder && x.handle == g.handle
    sendState s g.holder 8 { seq := y.1, srcPtn := r.ptn, dstPtn := bits g.handle 27 5, srcHandle := r.handle, dstHandle := g.handle, epoch := r.epoch, tag := m.tag, body := [.raw (planBytes gs)] }) (modReq s r.handle fun r => { r with pulled := want })
/-- MOVE_PROMOTE (R380, R381). -/
def execMovePromote (v : View) (desc : BitVec 512) (s : State) : Host.Outcome State Fault Refusal :=
  .next (takeMove s v desc 3 fun s m r =>
    let first := bits desc.toNat 160 16
    let n := bits desc.toNat 176 16
    let s0 := addMove (modReq (endDoubt s r) r.handle fun r => { r with mverb := 3, peer := m.dest, peerPtn := m.destPtn, moveTag := m.tag, pack := m.pack, pagesSent := 0, pagesAcked := 0, peerHandle := 0xFFFFFFFF }) (afterDoubt r m)
    let id := s.serve.nextMove
    if m.dest != myDev s then progressMove (((sealedPages s0 r).map (·.num)).foldl (fun s n => carryPage s id n) s0) id
    else
      let s1 := if m.pull then fetchAll s0 r m first n else s0
      let gs := (pagesOf s1 r).filter fun g => g.state == .sealed && !g.nearValid && inRange first n g
      promotionEnds (promotePages (goState s1 r.handle .promoting) r.handle gs) r.handle)

/-- Whether a page is a candidate for eviction (R388). -/
def candidate (g : Page) : Bool := g.state == .sealed && g.nearValid && g.pinNear == 0 && !g.promo && g.refcnt != 0
/-- Start the eviction of a page (R390). -/
def evictPage (s : State) (g : Page) (h : Nat) : State := addXfer s g.ptn 0 (if g.farValid then 0 else g.slotTiles) (.evict g.ptn g.num h)
def countSkipped (s : State) (p n : Nat) : State := if n = 0 then s else odCount s (0x9180 + p) 5 n
/-- MOVE_EVICT: the candidates in the range, in ascending position and then layer; the others are left in
place and counted (R391). -/
def execMoveEvict (v : View) (desc : BitVec 512) (s : State) : Host.Outcome State Fault Refusal :=
  .next (takeMove s v desc 4 fun s m r =>
    let all := (pagesOf s r).filter (inRange (bits desc.toNat 160 16) (bits desc.toNat 176 16))
    let can := if (ownFar s r.ptn).isEmpty then [] else sortBy (fun g => g.position * 256 + g.layer) (all.filter candidate)
    let skipped := all.length - can.length
    let s1 := countSkipped (addMove (modReq s r.handle fun r => { r with mverb := 4, moveTag := m.tag, peer := m.dest, peerPtn := m.destPtn, peerHandle := 0xFFFFFFFF, pack := m.pack, pagesSent := 0, pagesAcked := 0 }) { m with skipped := skipped }) r.ptn skipped
    progressMove (can.foldl (fun s g => evictPage s g r.handle) s1) s.serve.nextMove)

/-- MOVE_CLONE: a new PARKED request as the source stood at the last cycle boundary (R380). -/
def execMoveClone (v : View) (desc : BitVec 512) (s : State) : Host.Outcome State Fault Refusal :=
  .next (takeMove s v desc 5 fun s m r =>
    let fail : State := moveRec s m stBUSY (myDev s) 0xFFFFFFFF r.epoch
    let short : State := startEviction fail r.ptn
    let gs := (pagesOf s r).filter fun g => g.position * r.pageLen < r.lenAt
    let isSealed (g : Page) : Bool := g.state == .sealed || g.state == .inTransit
    -- a page sealed since the boundary, of which the source had no more than a part then: its part goes over in open form (log 90)
    let shared (g : Page) : Bool := isSealed g && (g.position + 1) * r.pageLen ≤ r.lenAt
    if gs.any (fun g => shared g && g.refcnt ≥ 2 ^ 24 - 1) || pageRecords s r.ptn < (s.serve.pages.filter (·.ptn == r.ptn)).length + (gs.filter fun g => !shared g).length then fail
    else match newSlot s r.ptn, allocOwn s r.ptn (r.layers * (r.maxTokens / r.pageLen) * 4) with
      | some (slot, gen), some (pmap, s1) =>
        let c0 : Req := { r with
          slot := slot, gen := gen, state := .parked, seed := bits desc.toNat 192 64, epoch := 0, length := r.lenAt, nextIndex := r.nextAt,
          sealedLen := Nat.min r.sealedLen r.lenAt, durableLen := r.lenAt, map := r.map.filter fun e => !bit e.2 28, pmap := pmap, admitCycle := cycle32 s, origin := myDev s, originPtn := r.ptn,
          mverb := 0, held := false, remoteRefs := 0, task := none, layer := 0, phase := 0, stepTokens := 0, input := [], inputLeft := 0, inputAddr := 0, reading := false,
          await := r.await && r.nextAt == r.nextIndex && r.lenAt == r.length, logitsBuf := none, newPlan := none, install := none, charged := 0, admitCharge := 0, refSets := [], partialBuf := 0, pulled := [] }
        let c1 := { c0 with originHandle := c0.handle }
        let c2 := (gs.filter shared).foldl (fun c g => setMap c g.layer g.position (mapValid g.num)) c1
        let s2 := (cacheRsr s1 c2).modServe fun w => { w with reqs := w.reqs ++ [c2], pages := updIf (fun g => g.ptn == r.ptn && c2.pageNums.contains g.num) (fun g => { g with refcnt := g.refcnt + 1 }) w.pages }
        -- the open tail is copied to new open areas
        let tail := (gs.filter fun g => !shared g).foldl (fun (a : Option State) g => a.bind fun s =>
          let n := openBlocks g.geo
          let keep := Nat.min g.tokens (r.lenAt - g.position * r.pageLen)
          let bytes := if isSealed g then (slotOf s g).map fun b => keepTokens g.geo keep (slotToOpen g.geo b) else some (openBytes s { g with tokens := keep })
          bytes.bind fun bytes => (allocTiles s r.ptn false 1 (homeQ s r.ptn) n).map fun (tile, s') =>
            let num := freePageNum s' r.ptn
            let copy : Page := { g with num := num, state := .open, refcnt := 1, tokens := keep, prov := 0, nearAddr := tile, nearValid := false, farValid := false, packedLen := 0, promo := false, sealDone := [], through := false, heat := 0, stage := none, mirror := none, dirty := [], marked := false, seals := false, pinNear := 0, pinFar := 0 }
            modReq (tierWrite (s'.modServe fun w => { w with pages := w.pages ++ [copy] }) (tile * 4096) bytes) c2.handle fun c => setMap c g.layer g.position (mapValid num)) (some s2)
        match tail with
        | none => short
        | some s3 =>
          -- a full page of the clone starts to seal (R241)
          let s4 := refAll ((layersOf c2).foldl (fun s l => startSeals s c2.handle l) s3) c2 false (holdersOf c2.planGroups) m.tag
          moveRec s4 { m with pages := gs.length } stOK (myDev s) c2.handle r.epoch
      | _, _ => if (newSlot s r.ptn).isSome then short else fail)

/-- The end of a DROP: every reference dropped, RELEASE to the holders, the handle freed (R230, R380). -/
def dropNow (s : State) (h id : Nat) : State :=
  match findReq s h, findMove s id with
  | some r, some m =>
    let s1 := moveRec s m stOK (myDev s) h r.epoch
    stopReqTasks (freeReq (releaseAll s1 r) h) h stCANCELLED
  | _, _ => s
/-- Take `n` remote references of a holding request back, with those of the pages that they counted in (R253, R383). -/
def takeRefs (s : State) (r : Req) (n : Nat) (sets : List (Nat × Nat × List Nat)) : State :=
  dropSets (modReq s r.handle fun r => { r with
    remoteRefs := r.remoteRefs - n, refSets := sets.foldl (fun l x => l.erase x) r.refSets }) r.ptn sets
/-- MOVE_DROP (R380, R385). -/
def execMoveDrop (v : View) (desc : BitVec 512) (s : State) : Host.Outcome State Fault Refusal :=
  .next (takeMove s v desc 6 fun s m r =>
    let s1 := addMove (modReq (if r.doubt then modReq s r.handle fun r => { r with doubt := false, install := none } else s) r.handle fun r => { r with mverb := 6, moveTag := m.tag, peer := m.dest, peerPtn := m.destPtn, peerHandle := 0xFFFFFFFF, pack := m.pack, pagesSent := 0, pagesAcked := 0 }) m
    let id := s.serve.nextMove
    if r.holding && r.remoteRefs != 0 then
      if bit desc.toNat 14 then dropNow (takeRefs s1 r r.remoteRefs r.refSets) r.handle id
      else modReq s1 r.handle fun r => { r with dropPending := true }
    else dropNow s1 r.handle id)

/-- The plan that stands or waits last for a request. -/
def lastPlan (s : State) (r : Req) : List Group :=
  match (s.serve.moves.filter fun m => m.handle == r.handle && m.verb == 7).getLast? with
  | some m => m.plan
  | none => r.planGroups
/-- MOVE_PLAN: also any reserved VERB, which completes with FORMAT (R9, R356, R380, R382). -/
def execMovePlan (v : View) (desc : BitVec 512) (s : State) : Host.Outcome State Fault Refusal :=
  let verb := mvVerb desc.toNat
  .next (
    if verb = 7 then takeMove s v desc 7 fun s m r =>
      let addr := bits desc.toNat 192 64
      match readPlan s r.ptn addr (bits desc.toNat 256 16) with
      | none => moveRec s m stFORMAT (myDev s) r.handle r.epoch
      | some gs =>
        if r.map.any fun e => bit e.2 29 && !planned gs (e.1 % (r.maxTokens / r.pageLen)) then moveRec s m stFORMAT (myDev s) r.handle r.epoch
        else
          let old := lastPlan s r
          let added := (holdersOf gs).filter fun g => !(old.any fun o => o.holder == g.holder && o.handle == g.handle)
          refAll (addMove s { m with plan := gs, planAddr := addr, adds := added, seq := added.length }) r false added m.tag
    else if 2 ≤ verb && verb ≤ 6 then s
    else takeMove s v desc verb fun s _ _ => s)
/-- At a boundary: a plan whose references stand takes effect once no move of the request runs; groups that a PULL has made local leave the
plan (R357, R380, R381), and a QUEUED request may then lack Near copies (R230). -/
def switchPlans (s : State) : State := promoteQueued <|
  let s1 := (s.serve.moves.filter (·.verb == 7)).foldl (fun s m =>
    match findReq s m.handle with
    | none =>
      -- its request has gone: the references that it took are given back (R357; DESIGN CHOICE, log 92: EPOCH)
      let old : Req := { ptn := m.ptn, slot := bits m.handle 0 18, gen := bits m.handle 18 9, epoch := m.epoch }
      endMove (moveRec (refAll s old true m.adds m.tag m.seq) m stEPOCH (myDev s) m.handle m.epoch) m.id
    | some r =>
      let first := (s.serve.moves.find? fun x => x.handle == m.handle && x.verb == 7).map (·.id)
      if first != some m.id || s.serve.moves.any (fun x => x.handle == m.handle && x.verb ≤ 6)
        || s.serve.refs.any (fun f => f.handle == m.handle && !f.release) then s
      else
        let later := (s.serve.moves.filter fun x => x.handle == m.handle && x.verb == 7 && x.id != m.id).map (·.plan)
        let gone := (holdersOf r.planGroups).filter fun g => !((m.plan :: later).any fun p => p.any fun o => o.holder == g.holder && o.handle == g.handle)
        let s1 := modReq s m.handle fun r => { r with planGroups := m.plan, plan := m.planAddr, held := false, phase := 0 }
        let s2 := s1.modServe fun w => { w with queries := w.queries.filter (·.handle != m.handle) }
        let s3 := refAll s2 r true gone m.tag m.seq
        endMove (moveRec s3 m stOK (myDev s) m.handle r.epoch) m.id) s
  s1.serve.reqs.foldl (fun s r =>
    let isLocal (g : Group) : Bool := (layersOf r).all fun l => (List.range (2 ^ g.log2)).all fun i =>
      !r.isRemote l (g.first + i) && ((r.pageNum l (g.first + i)).isSome || r.entry l (g.first + i) == 0) && (layersOf r).any fun l => (r.pageNum l (g.first + i)).isSome
    let stay := r.planGroups.filter fun g => !(r.pulled.contains g && isLocal g)
    if stay.length = r.planGroups.length then s
    else
      let gone := (holdersOf r.planGroups).filter fun g => !(stay.any fun o => o.holder == g.holder && o.handle == g.handle)
      -- the records of the plan are written again (R346); a layer whose partials are awaited is asked again under the new plan
      let s1 := (tierWrite s r.plan (planBytes stay)).modServe fun w => { w with queries := w.queries.filter (·.handle != r.handle) }
      refAll (modReq s1 r.handle fun r => { r with planGroups := stay, pulled := r.pulled.filter stay.contains, phase := 0 }) r true gone r.moveTag) s1

/-- Free Far copies of pages that need none, in ascending heat, until `n` Far tiles fit (R392). -/
def farRoom (s : State) (p n : Nat) : Nat → Option (Nat × State)
  | 0 => allocTiles s p true 0 0 n
  | fuel + 1 =>
    match allocTiles s p true 0 0 n with
    | some x => some x
    | none =>
      match (sortBy (·.heat) (s.serve.pages.filter fun g => g.ptn == p && g.farValid && g.nearValid && g.pinFar == 0 && !g.promo)).head? with
      | none => none
      | some g => farRoom (modPage (pageTabs (freeTiles s p (farTile0 + g.farAddr)) g false) p g.num fun g => { g with farValid := false, packedLen := 0 }) p n fuel
/-- Write the Far copy of a page in a form; `tab` is the table of component 0 (R279, R300). -/
def putFar (s : State) (p num tile packedLen tab : Nat) (bytes : List Byte) (bad : List Nat) : State :=
  let s1 := modPage (tierWriteP s (tile * 4096) bytes bad) p num fun g => { g with farValid := true, farAddr := tile - farTile0, packedLen := packedLen, table := tab, farPoison := false }
  match findPage s1 p num with
  | some g => pageTabs s1 g true
  | none => s1
/-- Packed form of a page's Near copy with the current tables: bytes, PACKED_LEN and table (R286, R299). -/
def packPage (s : State) (g : Page) : List Byte × Nat × Nat :=
  let slot := tierRead s (g.nearAddr * 4096) (g.slotTiles * 4096)
  let tab (c : Nat) : Option KvTable := currentTab s g.ptn g.model g.layer (compNum g.latent c)
  let codes (c : Nat) : Option (List (Nat × Nat)) := (tab c).map fun t => assignCodes t.lengths
  let (bs, len) := packSlot g.geo (codes 0) (if g.latent then none else codes 1) slot
  (bs, len, ((tab 0).map (·.num)).getD noTable)
/-- ENC, or LDT with DECODE, of a page that a transfer carries, in a SEAL entry: what ENC makes of it is held until the transfer ends, with the
references of a copy in flight (R300, R361, R390); a received page may then be stored (R362). -/
def codePage (s : State) (x : Xfer) : State :=
  let go (s : State) (f : Xfer → Xfer) : State := s.modServe fun w => { w with xfers := updIf (·.id == x.id) (fun y => f { y with coding := false }) w.xfers }
  let pack (p n : Nat) : State := match findPage s p n with
    | none => go s id
    | some g =>
      let (bs, len, tab) := packPage s g
      let tabs := if len = 0 || noTable ≤ tab then [] else if g.latent then [tab] else [tab, tab + 1]
      go (tabs.foldl (fun s n => tabRef s n true) s) fun y => { y with form := some (bs, len, tab), tabs := tabs, tiles := cdiv bs.length 4096 }
  match x.what with
  | .evict p n _ => pack p n
  | .send p n _ => pack p n
  | .receive .. => go s fun y => { y with form := some ([], 0, noTable), running := true }
  | _ => go s id
/-- A SEAL entry takes the pages of its partition that wait for ENC or LDT with DECODE, ENC within what CAP_B leaves (R94, R361, R362). -/
def codePages (s : State) (p capB usedB : Nat) : State :=
  let enc (x : Xfer) : Bool := match x.what with | .evict .. => true | .send .. => true | _ => false
  ((s.serve.xfers.filter fun x => x.ptn == p && x.coding).foldl (fun (a : State × Nat) x =>
    if !enc x then (codePage a.1 x, a.2)
    else if capB != 0 && capB < a.2 + 1 then a
    else (codePage a.1 x, a.2 + 1)) (s, usedB)).1
/-- The end of an eviction in progress for its move. -/
def evictEnds (s : State) (h : Nat) (skip : Bool) : State :=
  match s.serve.moves.find? fun m => m.handle == h && m.verb == 4 with
  | some m => progressMove (modMove s m.id fun m => if skip then { m with skipped := m.skipped + 1 } else { m with pages := m.pages + 1 }) m.id
  | none => s
/-- The end of a page's eviction: the Far copy written, the Near copy freed unless a pin or a promotion
has come (R390, R392). -/
def evictDone (s : State) (x : Xfer) (p num h : Nat) : State :=
  match findPage s p num with
  | none => evictEnds (dropXfer s x.id) h true
  | some g =>
    let room : Option State :=
      if g.farValid then some s
      else
        let (bs, len, tab) := x.form.getD (packPage s g)
        (farRoom s p (cdiv bs.length 4096) s.serve.pages.length).map fun (tile, s1) =>
          putFar s1 p num tile len tab bs (if len = 0 then tierPoison s (g.nearAddr * 4096) bs.length else [])
    match room with
    | none => s.modServe fun w => { w with xfers := updIf (·.id == x.id) (fun x => { x with running := false, stuck := some 1 }) w.xfers }
    | some s1 =>
      -- a window that holds the tiles of the copy holds its write (R101)
      if !g.farValid && (findPage s1 p num).any fun y => windowHolds s (farTile0 + y.farAddr) (if y.packedLen = 0 then y.slotTiles else cdiv y.packedLen 64) then s else
      let s2 := dropXfer s1 x.id
      if candidate g then
        let s3 := modPage (freeTiles s2 p g.nearAddr) p num fun g => { g with nearValid := false }
        -- a QUEUED request that attends the page locally needs it promoted again (R230)
        evictEnds (odCount (promoteQueued s3) (0x9180 + p) 4) h false
      else evictEnds (countSkipped s2 p 1) h true
/-- Free Near space of a partition in units of 0.1 %, with the evictions in progress counted as done. -/
def nearFree (s : State) (p : Nat) : Nat :=
  let going := sumN (s.serve.xfers.map fun x => match x.what with
    | .evict p' n h => if p' = p && h = 0xFFFFFFFF then ((findPage s p n).map (·.slotTiles)).getD 0 else 0
    | _ => 0)
  (nearTiles s p - (nearUsed s p - going)) * 1000 / Nat.max 1 (nearTiles s p)
/-- Take victims in ascending heat, REFCNT and number until NEAR_HIGH would be reached (R389). -/
def takeVictims (s : State) (p : Nat) : Nat → State
  | 0 => s
  | fuel + 1 =>
    if !s.serve.evicting.contains p then s
    -- in the host-assisted mode only the pages that the host names are evicted (R30)
    else if odGet s (0x9100 + p) 4 = 1 then s.modServe fun w => { w with evicting := w.evicting.filter (· != p) }
    else
      let busy (g : Page) : Bool := s.serve.xfers.any fun x => match x.what with | .evict p' n _ => p' == p && n == g.num | _ => false
      let cs := s.serve.pages.filter fun g => g.ptn == p && candidate g && !busy g
      -- it goes on while victims are being evicted: one that is skipped gives way to the next (R390)
      let going : Bool := s.serve.xfers.any fun x => match x.what with | .evict p' _ h => p' == p && h == 0xFFFFFFFF | _ => false
      let stop : State := if going then s else s.modServe fun w => { w with evicting := w.evicting.filter (· != p) }
      if odGet s (0x9180 + p) 3 ≤ nearFree s p then stop
      else match (sortBy (·.heat) (sortBy (·.refcnt) (sortBy (·.num) cs))).head? with
        | none => stop
        | some g => takeVictims (evictPage s g 0xFFFFFFFF) p fuel
/-- A Near allocation of a partition found no space, or its free space is below NEAR_LOW: eviction starts (R389). -/
def nearLow (s : State) (p : Nat) : State := if nearFree s p < odGet s (0x9180 + p) 2 then startEviction s p else s
/-- EVICTION_START: free Near space has fallen below NEAR_LOW, or an allocation found none (R389). -/
def execEvictionStart (ptn : Nat) (s : State) : Host.Outcome State Fault Refusal :=
  .next (if odGet s (0x9100 + ptn) 4 = 1 || (ownFar s ptn).isEmpty then s else takeVictims (startEviction s ptn) ptn s.serve.pages.length)
/-- HEAT_AGING: after AGE_CYCLES cycles every heat of the partition is halved (R387). -/
def execHeatAging (ptn : Nat) (s : State) : Host.Outcome State Fault Refusal :=
  .next (if isolated s ptn || cnt s.serve.ageCount ptn < odGet s (0x9180 + ptn) 1 then s else s.modServe fun w => { w with
    ageCount := cntSet w.ageCount ptn 0, pages := updIf (·.ptn == ptn) (fun g => { g with heat := g.heat / 2 }) w.pages })

/-- The end of a page's promotion: the Near copy in slot form (R313, R380). A coded page with poisoned
words, or with a stream fault, ends the requests that promote it (R314, R779). -/
def promoteDone (s : State) (x : Xfer) (p num h : Nat) : State :=
  match findPage s p num with
  | none => promotionEnds (dropXfer s x.id) h
  | some g =>
    if g.nearValid then promotionEnds (modPage (dropXfer s x.id) p num fun g => { g with promo := false }) h
    else
      let a := farBase + g.farAddr * 4096
      let bad := tierPoison s a (if g.packedLen = 0 then g.slotTiles * 4096 else g.packedLen * 64)
      let off : State := modPage (dropXfer s x.id) p num fun g => { g with promo := false }
      let s0 := if g.packedLen != 0 && (slotOf s g).isNone then streamFault off g else off
      match (if g.farPoison || (g.packedLen != 0 && !bad.isEmpty) then none else slotOf s g) with
      | none => failReq s0 h stPOISON
      | some slot =>
        match allocTiles s p false 1 (homeQ s p) g.slotTiles with
        | none => startEviction (s.modServe fun w => { w with xfers := updIf (·.id == x.id) (fun x => { x with running := false, stuck := some 0 }) w.xfers }) p
        | some (tile, _) =>
          if windowHolds s tile g.slotTiles then s else
          let s1 := tierWriteP (takeRoom off p tile g.slotTiles) (tile * 4096) slot (if g.packedLen = 0 then bad else [])
          let s2 := modPage s1 p num fun g => { g with nearValid := true, nearAddr := tile, pinNear := g.pinNear + pinsOn s1 p num }
          let s3 := match s2.serve.moves.find? fun m => m.handle == h && m.verb == 3 with
            | some m => modMove s2 m.id fun m => { m with pages := m.pages + 1 }
            | none => s2
          -- every request that waits for this page
          ((s3.serve.reqs.filter fun r => r.ptn == p && r.state == .promoting).map (·.handle)).foldl promotionEnds s3

/-- The PAGES message for one page of a move (R361, R289, R309). -/
def sendPage (s : State) (x : Xfer) (p num id : Nat) : State :=
  match findMove s id, findPage s p num with
  | some m, some g =>
    let form : List Byte × Nat × Nat × List Nat :=
      if g.farValid then
        let n := if g.packedLen = 0 then g.slotTiles * 4096 else g.packedLen * 64
        (tierRead s (farBase + g.farAddr * 4096) n, g.packedLen, g.table, tierPoison s (farBase + g.farAddr * 4096) n)
      else
        let bad := tierPoison s (g.nearAddr * 4096) (g.slotTiles * 4096)
        if m.pack then let (bs, len, tab) := x.form.getD (packPage s g); (bs, len, tab, if len = 0 then bad else bad.map fun _ => 0)
        else (tierRead s (g.nearAddr * 4096) (g.slotTiles * 4096), 0, 0, bad)
    let (bs, len, tab, bad) := form
    let tabs := if len = 0 || noTable ≤ tab then [] else ((if g.latent then [tab] else [tab, tab + 1]).filterMap (findTab s)).map fun t => (tabCrc t, tableImage t.model t.layer t.comp t.width t.epoch t.lengths)
    let item := Item.page (packedDesc g.position g.layer (g.pageCode + 4 * g.widthCode + 32 * b2n g.latent) len g.slotTiles
      (tensorWord g.model g.layer (compNum g.latent 0) g.widthCode) ((tabs.getD 0 (0, [])).1) ((tabs.getD 1 (0, [])).1) (crc32c bs)) bs bad
    let tabNums := if len = 0 || g.farValid || noTable ≤ tab then [] else if g.latent then [(num, tab)] else [(num, tab), (num, tab + 1)]
    -- the copy in flight keeps its references (R300)
    let s2 := dropXfer (tabNums.foldl (fun s t => tabRef s t.2 true) s) x.id
    let s3 := sendState s2 (if m.target = 1 then m.store else m.dest) 2
      { srcPtn := p, dstPtn := if m.target = 1 then m.storePtn else m.destPtn, srcHandle := m.handle,
        dstHandle := if m.verb = 8 then m.storeHandle else 0xFFFFFFFF, epoch := m.epoch, tag := m.tag, seq := m.seq, body := tabs.map (fun t => .table t.2) ++ [item] }
    modReq (modMove s3 id fun m => { m with
        todo := m.todo.filter (· != num), flying := m.flying ++ [num], seq := m.seq + 1, flyTabs := m.flyTabs ++ tabNums })
      m.handle fun r => if m.verb = 8 then r else { r with pagesSent := r.pagesSent + 1 }
  | _, _ => dropXfer s x.id

end Sys2Proof.Machine
end

