-- ==== Sys2Proof/Machine/Message.lean ====
section
/-! DEFINITION. State messages (R362-R403) received from other devices, the ends of page transfers, and
the timers of moves, references and queries. -/

namespace Sys2Proof.Machine
open Sys2Proof

/-- Whether a state message is let in (R366, R734); the answer of an INSTALL names a handle of the sender. -/
def msgOk (s : State) (dev : Nat) (m : StateMsg) (own : Bool) : Bool :=
  isPeer s m.dstPtn dev m.srcPtn && !isolated s m.dstPtn && !halted s && m.dstPtn < 32
  && (match findReq s m.dstHandle with | some r => r.ptn == m.dstPtn || !own | none => true)
/-- Let a message act, or discard it and count it (R366). -/
def onMsg (dev : Nat) (m : StateMsg) (s : State) (act : State → State) (own : Bool := true) : State :=
  if msgOk s dev m own then act s else if m.dstPtn < 32 then countAccess s m.dstPtn else s
/-- A STATUS that a message gives: a reserved code is an invalid value, which FORMAT names (R11; DEDUCED, log 78). -/
def cleanStatus (st : Nat) : Nat := if st ≤ 0xF then st else stFORMAT
/-- The answer to a message: MOVE_ACK, whose OPARGS name the operation answered (DESIGN CHOICE). -/
def ackMsg (s : State) (dev : Nat) (m : StateMsg) (op status src dst : Nat) (items : List Item) : State :=
  sendState s dev 3 { srcPtn := m.dstPtn, dstPtn := m.srcPtn, srcHandle := src, dstHandle := dst, epoch := m.epoch, status := status, tag := m.tag, seq := m.seq, args := op, body := items }

/-- Fields of an RSR (R226, R346, R359, R496). -/
def parseRsr (b : List Byte) : Req :=
  let geom := leAt b 0x1B 1
  let fl := leAt b 5 1
  let mf := leAt b 0x61 1
  { ptn := 0, slot := 0, gen := 0, keep := bit fl 0, keepOnCancel := bit fl 1, durable := bit fl 2, wbEvery := bit fl 3, latent := bit fl 4, finished := bit fl 5,
    epoch := leAt b 6 2, rid := leAt b 8 8, seed := leAt b 0x10 8, model := leAt b 0x18 2, layers := leAt b 0x1A 1 + 1, pageCode := geom % 4, widthCode := geom / 4 % 8,
    dim := leAt b 0x1C 2, groups := leAt b 0x1E 1, posDim := leAt b 0x1F 1, promptLen := leAt b 0x20 4, maxTokens := leAt b 0x24 4, length := leAt b 0x28 4,
    sealedLen := leAt b 0x2C 4, durableLen := leAt b 0x30 4, sharedLen := leAt b 0x34 4, nextIndex := leAt b 0x38 4, admitCycle := leAt b 0x3C 4, lastCycle := leAt b 0x50 4,
    mverb := leAt b 0x60 1, pipeline := bit mf 0, pack := bit mf 1, holding := bit mf 2, moveTag := leAt b 0x78 4,
    temp := leAt b 0x80 4, topP := leAt b 0x84 4, topK := leAt b 0x88 2, await := bit (leAt b 0x8A 1) 0, hist := (List.range (leAt b 0x8B 1)).map fun i => leAt b (0xA4 + 4 * i) 4,
    maxNew := leAt b 0x8C 4, generated := leAt b 0x90 4, charged := leAt b 0xA0 4,
    headsM1 := leAt b 0xCA 1, partialBf16 := bit (leAt b 0xCB 1) 0, maskL := leAt b 0xCC 4, bitmap := leAt b 0xD0 8, bitmapStride := leAt b 0xD8 4 }

/-- Receptions (R377), keyed by (source device, SRC_HANDLE, EPOCH) in a partition. -/
def isReception (p dev h ep : Nat) (r : Reception) : Bool := r.ptn == p && r.dev == dev && r.handle == h && r.epoch == ep
def findReception (s : State) (p dev h ep : Nat) : Option Reception := s.serve.receptions.find? (isReception p dev h ep)
/-- Release a reception with its pages, except those named. -/
def endReception (s : State) (p dev h ep : Nat) (keep : List Nat) : State :=
  match findReception s p dev h ep with
  | none => s
  | some r =>
    let s1 := s.modServe fun w => { w with receptions := w.receptions.filter fun x => !isReception p dev h ep x }
    ((r.pages.map (·.2.2)).filter fun n => !keep.contains n).foldl (fun s n => dropRef s p n) s1

/-- A page record by a packed page descriptor (R239, R289); none for a model that the image does not name. -/
def pdRecord (s : State) (p : Nat) (d : List Byte) : Option Page :=
  (modelOf s (pdTensor d % 65536)).map fun md =>
    let format := pdFormat d
    let latent := bit format 5
    { ptn := p, num := freePageNum s p, state := .sealed, layer := pdLayer d, position := pdPos d, pageCode := format % 4, widthCode := format / 4 % 8, latent := latent,
      dim := md.dim, groups := if latent then 0 else md.groups, posDim := if latent then md.posDim else 0, model := md.number, tokens := pageTokens (format % 4), slotTiles := leAt d 6 2 }
/-- The table of component 0 of a received page, by the CRC fields of its tables (R310): none when the partition holds no such table. -/
def pdTable (tabs : List (Nat × Nat × Nat × Nat)) (d : List Byte) : Option Nat :=
  if leAt d 4 2 = 0 then some noTable
  else (tabs.find? fun t => t.1 == pdTensor d && t.2.1 == leAt d 12 4 && t.2.2.1 == leAt d 16 4).map (·.2.2.2)
/-- The slot form of a received page; none when its streams do not decode (R288, R362). -/
def pdSlot (s : State) (g : Page) (tn len : Nat) (bytes : List Byte) : Option (List Byte) :=
  if len = 0 then some bytes
  else match tabCodes s tn, (if g.latent then some [] else tabCodes s (tn + 1)) with
    | some c0, some c1 => unpackPage g.geo c0 c1 bytes
    | _, _ => none
/-- Whether a received page is kept (R291, R310): its bytes match its descriptor, the partition has its tables, and it decodes where it
stands in slot form. -/
def pageOk (s : State) (p : Nat) (tabs : List (Nat × Nat × Nat × Nat)) (d bytes : List Byte) : Bool :=
  let len := leAt d 4 2
  d.length == 32 && leAt d 24 8 == 0 && crc32c bytes == leAt d 20 4 && bytes.length == (if len = 0 then leAt d 6 2 * 4096 else len * 64)
  && match pdRecord s p d, pdTable tabs d, modelOf s (pdTensor d % 65536) with
    | some g, some tn, some md => g.slotTiles == slotTilesOf g.geo && g.latent == md.latent && ((len != 0 && !(ownFar s p).isEmpty) || (pdSlot s g tn len bytes).isSome)
    | _, _, _ => false
/-- Store a received page: a new record with the form received; none while no space is left (R30, R362). An escape-only page stands as a
Near copy, a coded page as a Far copy while the partition owns Far granules. -/
def storePage (s : State) (p : Nat) (tabs : List (Nat × Nat × Nat × Nat)) (d bytes : List Byte) (bad : List Nat) : Option (Nat × State) :=
  let len := leAt d 4 2
  match pdRecord s p d, pdTable tabs d with
  | some g, some tn =>
    let s1 := s.modServe fun w => { w with pages := w.pages ++ [g] }
    if pagesFull s p then none
    else if len != 0 && !(ownFar s p).isEmpty then
      (farRoom s1 p (cdiv bytes.length 4096) s.serve.pages.length).map fun (tile, s2) => (g.num, putFar s2 p g.num tile len tn bytes bad)
    else match pdSlot s g tn len bytes, allocTiles s1 p false 0 0 g.slotTiles with
      | some b, some (tile, s2) => some (g.num, modPage (tierWriteP s2 (tile * 4096) b (if len = 0 then bad else [])) p g.num fun g => { g with nearValid := true, nearAddr := tile })
      | _, _ => none
  | _, _ => none
/-- Tables of a message, received for a partition: tensor word, CRC fields of the components, number of component 0 (R309, R310). -/
def takeTables (s : State) (p : Nat) (items : List Item) : List (Nat × Nat × Nat × Nat) × State :=
  let imgs := items.filterMap fun i => match i with | .table b => if imgValid b then some b else none | _ => none
  let second (t : KvTable) : Nat := if t.comp = 2 then 0 else ((findTab s (t.num + 1)).map tabCrc).getD 0
  let held := (s.serve.tables.filter (·.ptn == p)).map fun t => (tensorWord t.model t.layer t.comp t.width, tabCrc t, second t, t.num)
  (imgs.filter fun b => imgComp b != 1).foldl (fun a b =>
    let v := imgs.find? fun c => imgComp c == 1 && imgModel c == imgModel b && imgLayer c == imgLayer b
    let (n, s1) := receiveTables a.2 p (if imgComp b = 2 then [b] else b :: v.toList)
    match n with
    | some n => ((leAt b 0 4, leAt b 8 4, if imgComp b = 2 then 0 else (v.map fun c => leAt c 8 4).getD 0, n) :: a.1, s1)
    | none => (a.1, s1)) (held, s)
/-- Remove tables that came with a message and that no page uses. -/
def dropUnused (s : State) (p : Nat) : State :=
  s.modServe fun w => { w with tables := w.tables.filter fun t => !(t.ptn == p && tabIdle s t) }
/-- Whether a page may stand in a request's map: the same model and geometry, at its own position (R240). -/
def sameGeo (r : Req) (g : Page) : Bool :=
  g.model == r.model && g.pageCode == r.pageCode && g.widthCode == r.widthCode && g.latent == r.latent && g.dim == r.dim && g.groups == r.groups && g.posDim == r.posDim
/-- Where a received page belongs: a live request's remote position, or a reception (R377, R381). -/
def placePage (s : State) (dev : Nat) (m : StateMsg) (layer pos num : Nat) : State :=
  match findReq s m.dstHandle with
  | some r =>
    if r.isRemote layer pos && (findPage s r.ptn num).any (sameGeo r) then
      let s1 := modReq s r.handle fun r => setMap r layer pos (mapValid num)
      if !pinning r.state then s1
      else match (findPage s1 r.ptn num).filter (!·.nearValid) with
        -- a coded page of a request that runs gets its slot form (R362)
        | some g => promotePages s1 r.handle [g]
        | none => modPage s1 r.ptn num fun g => { g with pinNear := g.pinNear + 1 }
    else dropRef s r.ptn num
  | none =>
    if (findReception s m.dstPtn dev m.srcHandle m.epoch).isNone then dropRef s m.dstPtn num
    else s.modServe fun w => { w with
      receptions := updIf (isReception m.dstPtn dev m.srcHandle m.epoch) (fun r => { r with last := now s, pages := r.pages ++ [(layer, pos, num)] }) w.receptions }
/-- A page that a PULL fetches has failed: the second time it counts, and the PROMOTE ends with STATE_LOST (R363, R381). -/
def fetchFailed (s : State) (h layer pos : Nat) : State :=
  match s.serve.moves.find? fun x => x.handle == h && x.verb == 3 && x.pull with
  | none => s
  | some x =>
    let key := layer * 65536 + pos
    if x.resent.contains key then moveFail (modMove s x.id fun y => { y with failed := y.failed + 1 }) x.id stLOST
    else modMove s x.id fun y => { y with resent := y.resent ++ [key] }
/-- The page of a PAGES transfer has been moved: it is stored and acknowledged, or reported failed (R362, R363); it waits while there is no
space for it (R30), or while a window holds the tiles of its copy (R101). -/
def receiveDone (s : State) (x : Xfer) (dev : Nat) (m : StateMsg) : State :=
  let p := m.dstPtn
  let (tabs, s1) := takeTables s p m.body
  match m.body.findSome? fun i => match i with | .page d b bad => some (d, b, bad) | _ => none with
  | none => dropXfer s x.id
  | some (d, b, bad) =>
    let (pos, layer) := (pdPos d, pdLayer d)
    -- a page whose model or geometry is not that of the request which fetched it is reported failed (R240, R362)
    let fits := (findReq s m.dstHandle).all fun r => pdTensor d % 65536 == r.model && pdFormat d == r.pageCode + 4 * r.widthCode + 32 * b2n r.latent
    let dup := (findReception s p dev m.srcHandle m.epoch).any fun r => r.pages.any fun y => y.1 == layer && y.2.1 == pos
    let answer (s : State) (ok : Bool) : State := ackMsg (dropUnused (dropXfer s x.id) p) dev m 2 stOK 0xFFFFFFFF m.srcHandle [.ack layer pos ok]
    if dup then answer s1 true
    else if !fits || !pageOk s1 p tabs d b then fetchFailed (answer s1 false) m.dstHandle layer pos
    else match storePage s1 p tabs d b bad with
      | none =>
        let far := leAt d 4 2 != 0 && !(ownFar s p).isEmpty && !pagesFull s p
        let s2 := s.modServe fun w => { w with xfers := updIf (·.id == x.id) (fun x => { x with running := false, stuck := some (b2n far) }) w.xfers }
        if far then s2 else startEviction s2 p
      | some (num, s2) =>
        let held := (findPage s2 p num).any fun g => if g.farValid then windowHolds s (farTile0 + g.farAddr) (cdiv b.length 4096) else windowHolds s g.nearAddr g.slotTiles
        if held then s else answer (placePage s2 dev m layer pos num) true

/-- The PAGES messages that carry one page each of a PAGES message, with its tables: each is one page transfer (R309, R360). -/
def pagesApart (m : StateMsg) : List StateMsg :=
  let tabs := m.body.filter fun i => match i with | .table _ => true | _ => false
  m.body.filterMap fun i => match i with | .page d b bad => some { m with body := tabs ++ [.page d b bad] } | _ => none
/-- MSG_PAGES: the pages wait for a receive entry in a reception of the partition, or for the request that
fetched them; a reception too many is answered BUSY (R362, R377). -/
def execMsgPages (dev : Nat) (m : StateMsg) (s : State) : Host.Outcome State Fault Refusal :=
  .next (onMsg dev m s fun s =>
    let p := m.dstPtn
    let tiles (m : StateMsg) : Nat := sumN (m.body.map fun i => match i with | .page _ b _ => cdiv b.length 4096 | _ => 0)
    let known := (findReq s m.dstHandle).isSome || (findReception s p dev m.srcHandle m.epoch).isSome
    if !known && 4096 ≤ (s.serve.receptions.filter (·.ptn == p)).length then
      ackMsg s dev m 2 stBUSY 0xFFFFFFFF m.srcHandle (m.body.filterMap fun i => match i with | .page d _ _ => some (.ack (pdLayer d) (pdPos d) false) | _ => none)
    else
      let s1 := if known then s.modServe fun w => { w with receptions := updIf (isReception p dev m.srcHandle m.epoch) (fun r => { r with last := now s }) w.receptions }
        else s.modServe fun w => { w with receptions := w.receptions ++ [{ ptn := p, dev := dev, handle := m.srcHandle, epoch := m.epoch, last := now s }] }
      (pagesApart m).foldl (fun s m => addXfer s p 2 (tiles m) (.receive dev m)) s1)

/-- A page of a request that rests here becomes its Far copy, as received, where the partition owns Far granules with room (R362; log 92). -/
def restPage (s : State) (p num : Nat) : State :=
  match findPage s p num with
  | none => s
  | some g =>
    if g.nearValid && !g.farValid && !(ownFar s p).isEmpty then
      match farRoom s p g.slotTiles s.serve.pages.length with
      | some (tile, s1) =>
        let n := g.slotTiles * 4096
        let s2 := putFar s1 p num tile 0 noTable (tierRead s (g.nearAddr * 4096) n) (tierPoison s (g.nearAddr * 4096) n)
        modPage (freeTiles s2 p g.nearAddr) p num fun g => { g with nearValid := false }
      | none => s
    else s
/-- An open tail of an install goes to a new open area (R379); none while the Near tier has no room. -/
def installTail (s : State) (h : Nat) (l i tokens : Nat) (bytes : List Byte) : Option State :=
  (findReq s h).bind fun r =>
    if pagesFull s r.ptn then none
    else (allocTiles s r.ptn false 1 (homeQ s r.ptn) (openBlocks r.geo)).map fun (tile, s1) =>
      let g : Page := {
        ptn := r.ptn, num := freePageNum s1 r.ptn, layer := l, position := i, pageCode := r.pageCode, widthCode := r.widthCode, latent := r.latent, dim := r.dim, groups := r.groups,
        posDim := r.posDim, model := r.model, tokens := tokens, state := .open, nearAddr := tile, slotTiles := slotTilesOf r.geo }
      modReq (tierWrite (s1.modServe fun w => { w with pages := w.pages ++ [g] }) (tile * 4096) bytes) h fun r => setMap r l i (mapValid g.num)
/-- MSG_INSTALL: the RSR is installed with MVERB held, its map names the pages received, its open tails
stand in new open areas; MOVE_ACK carries the new handle. A repeated INSTALL repeats the answer (R367,
R371, R379). -/
def execMsgInstall (dev : Nat) (m : StateMsg) (s : State) : Host.Outcome State Fault Refusal :=
  .next (onMsg dev m s fun s =>
    let p := m.dstPtn
    let answer (s : State) (st h : Nat) (items : List Item) : State := ackMsg s dev m 1 st m.srcHandle h items
    match s.serve.reqs.find? fun r => r.ptn == p && r.epoch == m.epoch && (match r.install with | some i => i.dev == dev && i.handle == m.srcHandle && r.mverb != 0 | none => false) with
    | some r => answer s stOK r.handle []
    | none =>
      let r0 := parseRsr ((m.body.findSome? fun i => match i with | .rsr b => some b | _ => none).getD [])
      let entries := (m.body.findSome? fun i => match i with | .map e => some e | _ => none).getD []
      let planB := (m.body.findSome? fun i => match i with | .plan b => some b | _ => none).getD []
      let tails := m.body.filterMap fun i => match i with | .tail l p n b => some (l, p, n, b) | _ => none
      let P := pageTokens r0.pageCode
      let perLayer := Nat.max 1 (r0.maxTokens / P)
      let have_ := ((findReception s p dev m.srcHandle m.epoch).map (·.pages)).getD []
      let at_ (ix : Nat) : Nat × Nat := (ix / perLayer, ix % perLayer)
      let isTail (ix : Nat) : Bool := tails.any fun t => (t.1, t.2.1) == at_ ix
      let missing := entries.filter fun e => bit e.2 28 && !isTail e.1 && !(have_.any fun x => (x.1, x.2.1) == at_ e.1)
      match modelOf s r0.model with
      | none => answer s stFORMAT 0xFFFFFFFF []
      | some md =>
        if md.layers != r0.layers || md.latent != r0.latent || r0.dim != md.dim || r0.groups != (if md.latent then 0 else md.groups)
            || r0.posDim != (if md.latent then md.posDim else 0) || !planOk s planB (planB.length / 16) then answer s stFORMAT 0xFFFFFFFF []
        else if have_.any fun x => (findPage s p x.2.2).any fun g => !sameGeo r0 g then answer s stFORMAT 0xFFFFFFFF []
        else if !missing.isEmpty then answer s stBUSY 0xFFFFFFFF (missing.map fun e => .ack (at_ e.1).1 (at_ e.1).2 false)
        else match newSlot s p, takeStructures s p (r0.layers * perLayer * 4) (Nat.max 16 planB.length) with
          | some (slot, gen), some (pmap, planAddr, s1) =>
            let r1 : Req := { r0 with
              ptn := p, slot := slot, gen := gen, epoch := m.epoch, pmap := pmap, plan := if planB.isEmpty then 0 else planAddr, planGroups := parsePlan planB (planB.length / 16),
              state := if r0.holding || r0.mverb != 1 then .parked else .decode, origin := dev, originPtn := m.srcPtn, originHandle := m.srcHandle, peer := dev, peerPtn := m.srcPtn, peerHandle := m.srcHandle,
              durableLen := r0.length, map := [], dest := myDev s, install := some { dev := dev, ptn := m.srcPtn, handle := m.srcHandle, at_ := now s, ackAt := now s }, acceptedAt := now s, dispatched := true }
            let s2 := if planB.isEmpty then freeTiles s1 p (planAddr / 4096) else tierWrite s1 planAddr planB
            let r2 := entries.foldl (fun r e =>
              let (l, i) := at_ e.1
              if bit e.2 29 then setMap r l i mapRemote
              else match have_.find? fun x => x.1 == l && x.2.1 == i with
                | some x => if isTail e.1 then r else setMap r l i (mapValid x.2.2)
                | none => r) r1
            let used := r2.pageNums
            let s3 := endReception ((cacheRsr s2 r2).modServe fun w => { w with reqs := w.reqs ++ [{ r2 with state := .parked }] }) p dev m.srcHandle m.epoch used
            let runs := r1.state == .decode
            let s4 := if runs then s3 else used.foldl (fun s n => restPage s p n) s3
            match tails.foldl (fun (a : Option State) t => a.bind fun s => installTail s r2.handle t.1 t.2.1 t.2.2.1 t.2.2.2) (some s4) with
            | none => answer (startEviction s p) stBUSY 0xFFFFFFFF []
            | some s5 =>
              -- the first full tail of a layer goes to SEALING (R250)
              let s6 := (List.range r2.layers).foldl (fun s l => startSeals s r2.handle l) s5
              -- coded pages of a request that will run get their slot form (R362)
              let far := s6.serve.pages.filter fun g => g.ptn == p && used.contains g.num && !g.nearValid
              answer (if !runs then s6
                else if far.isEmpty then goState s6 r2.handle .decode
                else promotePages (goState s6 r2.handle .promoting) r2.handle far) stOK r2.handle []
          | some _, none => answer (startEviction s p) stBUSY 0xFFFFFFFF []
          | none, _ => answer s stBUSY 0xFFFFFFFF [])

/-- COMMIT to the device that installed: the owner frees its RSR in the same tick, and keeps a record (R368, R372). -/
def commitMove (s : State) (id new : Nat) : State :=
  match findMove s id with
  | none => s
  | some m =>
    let dev := if m.target = 1 then m.store else m.dest
    let q := if m.target = 1 then m.storePtn else m.destPtn
    let s1 := sendState s dev 4 { srcPtn := m.ptn, dstPtn := q, srcHandle := m.handle, dstHandle := new, epoch := m.epoch, tag := m.tag, seq := m.seq }
    let plan := ((findReq s m.handle).map (·.planGroups)).getD []
    let rc : CommitRec := { dev := dev, handle := new, old := m.handle, ptn := m.ptn, destPtn := q, epoch := m.epoch, tag := m.tag, at_ := now s, release := if m.target = 1 then [] else holdersOf plan }
    let s2 := s1.modServe fun w => { w with commits := w.commits ++ [rc] }
    if m.target = 1 then
      -- the holding request stands; now the request itself goes to DEST (R376)
      sendInstall (modMove s2 id fun m => { m with target := 2, sends := 0, storeHandle := new }) id
    else stopReqTasks (freeReq (moveRec s2 m stOK dev new m.epoch) m.handle) m.handle stCANCELLED
/-- DEST has the references of a plan that moved: the owner's are released (R386). The record goes once its 200 ms are over too (R372). -/
def releaseMoved (s : State) (c : CommitRec) : State :=
  let old : Req := { ptn := c.ptn, slot := bits c.old 0 18, gen := bits c.old 18 9, epoch := c.epoch }
  refAll (s.modServe fun w => { w with
    commits := if c.past then w.commits.filter (· != c) else updIf (· == c) (fun c => { c with release := [] }) w.commits }) old true c.release c.tag
/-- MSG_MOVE_ACK: the answer to INSTALL, PAGES, REF or RELEASE, which its OPARGS name, or the word that DEST of a COMMIT has its references
(R363, R368-R372, R383, R386; DESIGN CHOICE, log 92). -/
def execMsgMoveAck (dev : Nat) (m : StateMsg) (s : State) : Host.Outcome State Fault Refusal :=
  .next (onMsg dev m s (own := m.args % 256 != 1 && m.args % 256 != 4) fun s =>
    match m.args % 256 with
    | 1 =>
      match s.serve.moves.find? fun x => x.handle == m.srcHandle && x.ptn == m.dstPtn && x.epoch == m.epoch && x.sends != 0 && x.verb ≤ 3 && (if x.target = 1 then x.store else x.dest) == dev with
      | some x =>
        if m.status = stOK then commitMove s x.id m.dstHandle
        else if m.status = stBUSY then
          -- pages that DEST lost are sent again before INSTALL is repeated
          let miss := m.body.filterMap fun i => match i with
            | .ack l p false => (s.serve.pages.find? fun g => g.ptn == x.ptn && g.layer == l && g.position == p && x.acked.contains g.num).map (·.num)
            | _ => none
          if miss.isEmpty then s
          else miss.foldl (fun s n => carryPage s x.id n) (modMove s x.id fun y => { y with sends := 0, acked := y.acked.filter fun n => !miss.contains n, resent := y.resent ++ miss })
        else moveFail s x.id (cleanStatus m.status)
      | none =>
        match s.serve.commits.find? fun c => c.dev == dev && c.handle == m.dstHandle && !c.past with
        | some c => sendState s dev 4 { srcPtn := c.ptn, dstPtn := c.destPtn, srcHandle := c.old, dstHandle := c.handle, epoch := c.epoch, tag := m.tag, seq := m.seq }
        | none => s
    | 2 =>
      match s.serve.moves.find? fun x => x.handle == m.dstHandle && (x.verb ≤ 3 || x.verb = 8) && x.epoch == m.epoch && (if x.target = 1 then x.store else x.dest) == dev with
      | none => s
      | some x =>
        let page (l p : Nat) : Option Nat := (s.serve.pages.find? fun g => g.ptn == x.ptn && g.layer == l && g.position == p && x.flying.contains g.num).map (·.num)
        let nums (want : Bool) : List Nat := m.body.filterMap fun i => match i with | .ack l p ok => if ok = want then page l p else none | _ => none
        let land (ns : List Nat) (s : State) : State :=
          let tabs := x.flyTabs.filter fun t => ns.contains t.1
          tabs.foldl (fun s t => tabRef s t.2 false) (modMove s x.id fun y => { y with flying := y.flying.filter fun n => !ns.contains n, flyTabs := y.flyTabs.filter fun t => !ns.contains t.1 })
        if m.status = stBUSY then
          -- the pages wait to be sent again after 1 ms (R377)
          modMove (land (nums false) s) x.id fun y => { y with todo := y.todo ++ nums false, busyAt := some (now s) }
        else
          let good := nums true
          let bad := nums false
          let s1 := modMove (land (good ++ bad) s) x.id fun y => { y with acked := y.acked ++ good, pages := y.pages + good.length }
          let s2 := modReq s1 x.handle fun r => if x.verb = 8 then r else { r with pagesAcked := r.pagesAcked + good.length }
          let twice := bad.filter x.resent.contains
          if !twice.isEmpty && x.verb ≤ 3 then
            moveFail (modMove s2 x.id fun y => { y with failed := y.failed + twice.length, resent := y.resent ++ twice }) x.id stLOST
          else
            let again := bad.filter fun n => !x.resent.contains n
            progressMove (again.foldl (fun s n => carryPage s x.id n) (modMove s2 x.id fun y => { y with resent := y.resent ++ bad })) x.id
    | 4 => match s.serve.commits.find? fun c => c.dev == dev && c.handle == m.dstHandle && c.old == m.srcHandle with
      | some c => releaseMoved s c
      | none => s
    | op =>
      if op != 6 && op != 7 then s
      else
        let hit (f : RefMsg) : Bool := f.handle == m.dstHandle && f.dev == dev && f.target == m.srcHandle && f.release == (op == 7)
        let s1 := s.modServe fun w => { w with refs := match w.refs.findIdx? hit with | some i => w.refs.eraseIdx i | none => w.refs }
        match findReq s1 m.dstHandle with
        | some r =>
          -- an install is complete when every REF stands (R369), and its owner hears of it (R386)
          match r.install.filter (·.done) with
          | some i => if s1.serve.refs.any fun f => f.handle == r.handle && !f.release then s1
            else sendState (modReq s1 r.handle fun r => { r with install := none }) i.dev 3
              { srcPtn := r.ptn, dstPtn := i.ptn, srcHandle := i.handle, dstHandle := r.handle, epoch := r.epoch, tag := r.moveTag, args := 4 }
          | none => s1
        | none => s1)

/-- MSG_COMMIT: MVERB is cleared, an INSTALLED completion is written, REF goes to the holders of the plan;
the request may run once they have answered (R369); a PARKED request that was sent to run is promoted. -/
def execMsgCommit (dev : Nat) (m : StateMsg) (s : State) : Host.Outcome State Fault Refusal :=
  .next (onMsg dev m s fun s =>
    match findReq s m.dstHandle with
    | none => s
    | some r =>
      match r.install with
      | none => s
      | some i =>
        -- a COMMIT too late does not end the doubt (R374)
        if i.dev != dev || i.handle != m.srcHandle || r.mverb = 0 || r.doubt then s
        else
          let rc : Move := { ptn := r.ptn, handle := r.handle, verb := 8, src := TaskSrc.window r.ptn, tag := 0, pages := r.pageNums.length }
          let s1 := moveRec s rc stOK dev i.handle r.epoch
          let hs := holdersOf r.planGroups
          let s2 := refAll (modReq s1 r.handle fun r => { r with mverb := 0, install := if hs.isEmpty then none else some { i with done := true } }) r false hs m.tag
          if r.mverb = 3 && !r.holding then
            promotionEnds (promotePages (goState s2 r.handle .promoting) r.handle ((pagesOf s2 r).filter fun g => g.state == .sealed && !g.nearValid && !planned r.planGroups g.position)) r.handle
          else s2)
/-- MSG_ABORT: the held install is freed with every page received for the move (R373, R401). -/
def execMsgAbort (dev : Nat) (m : StateMsg) (s : State) : Host.Outcome State Fault Refusal :=
  .next (onMsg dev m s fun s =>
    let s1 := endReception s m.dstPtn dev m.srcHandle m.epoch []
    -- one in doubt is the PF's to end (R374)
    match s1.serve.reqs.find? fun r => r.ptn == m.dstPtn && r.mverb != 0 && !r.doubt && (match r.install with | some i => i.dev == dev && i.handle == m.srcHandle | none => false) with
    | some r => freeReq s1 r.handle
    | none => s1)

/-- The holding or PARKED request that a message names, or a status (R398). -/
def holderOf (s : State) (m : StateMsg) : Nat × Option Req :=
  match findReq s m.dstHandle with
  | none => (stEPOCH, none)
  | some r => if r.ptn = m.dstPtn && (r.holding || r.state == .parked) then (stOK, some r) else (stACCESS, none)
/-- MSG_REF: the reference counts in the pages of the map as it stands; those pages are kept with it (R253, R383). -/
def execMsgRef (dev : Nat) (m : StateMsg) (s : State) : Host.Outcome State Fault Refusal :=
  .next (onMsg dev m s fun s =>
    match holderOf s m with
    | (_, some r) =>
      let s1 := (modReq s r.handle fun r => { r with remoteRefs := r.remoteRefs + 1, refSets := r.refSets ++ [(dev, m.srcHandle, r.pageNums)] }).modServe fun w => { w with
        pages := updIf (fun g => g.ptn == r.ptn && r.pageNums.contains g.num) (fun g => { g with refcnt := g.refcnt + 1 }) w.pages }
      ackMsg s1 dev m 6 stOK m.dstHandle m.srcHandle []
    | (st, none) => ackMsg s dev m 6 st m.dstHandle m.srcHandle [])
/-- The reference that a RELEASE ends: that of the requester which sends it, else the first (R383). -/
def refOf (r : Req) (dev h : Nat) : List (Nat × Nat × List Nat) := ((r.refSets.find? fun x => x.1 == dev && x.2.1 == h).orElse fun _ => r.refSets.head?).toList
/-- MSG_RELEASE: a reference too many changes nothing and is reported; the last one ends a DROP that waits
(R383-R385). -/
def execMsgRelease (dev : Nat) (m : StateMsg) (s : State) : Host.Outcome State Fault Refusal :=
  .next (onMsg dev m s fun s =>
    match holderOf s m with
    | (_, some r) =>
      if r.remoteRefs = 0 then
        ackMsg (raiseBoth s r.ptn { cls := 4, code := 4, payload := [r.handle, dev] }) dev m 7 stOK m.dstHandle m.srcHandle []
      else
        let s1 := ackMsg (takeRefs s r 1 (refOf r dev m.srcHandle)) dev m 7 stOK m.dstHandle m.srcHandle []
        match s1.serve.moves.find? fun x => x.handle == r.handle && x.verb == 6 with
        | some x => if r.dropPending && r.remoteRefs = 1 then dropNow s1 r.handle x.id else s1
        -- a cancel that waits (R272)
        | none => if r.dropPending && r.remoteRefs = 1 then stopReqTasks (endReq s1 r.handle stCANCELLED r.lastIndex) r.handle stCANCELLED else s1
    | (st, none) => ackMsg s dev m 7 st m.dstHandle m.srcHandle [])
/-- Groups in the first raw item of a body. -/
def bodyGroups (m : StateMsg) (n : Nat) : List Group := match m.body.head? with
  | some (.raw b) => parsePlan b n
  | _ => []
/-- MSG_FETCH: the pages held in the groups named go to the requester (R381). -/
def execMsgFetch (dev : Nat) (m : StateMsg) (s : State) : Host.Outcome State Fault Refusal :=
  .next (onMsg dev m s fun s =>
    match holderOf s m with
    | (_, some r) =>
      let n := match m.body.head? with | some (.raw b) => b.length / 16 | _ => 0
      let gs := bodyGroups m n
      let ns := ((pagesOf s r).filter fun g => (g.state == .sealed || g.state == .inTransit) && planned gs g.position).map (·.num)
      let s1 := addMove s { ptn := r.ptn, handle := r.handle, verb := 8, dest := dev, destPtn := m.srcPtn, target := 2, storeHandle := m.srcHandle, epoch := m.epoch, tag := m.tag }
      progressMove (ns.foldl (fun s n => carryPage s s1.serve.nextMove.pred n) s1) s1.serve.nextMove.pred
    | _ => s)

/-- Ranges of a QUERY's OPARGS and of its group records, all of which name the request asked (R347, R393, R394). -/
def queryOk (s : State) (m : StateMsg) (layers : Nat) : Bool :=
  let a := m.args
  let n := bits a 112 8
  let recs := match m.body.head? with | some (.raw b) => b | _ => []
  let lanes := bits a 8 16
  let qdim := bits a 24 11
  1 ≤ lanes && lanes ≤ 8192 && 32 ≤ qdim && qdim ≤ 1152 && qdim % 32 == 0 && bits a 37 3 ≤ 4 && !bit a 63 && bits a 97 7 == 0
  && 1 ≤ n && n ≤ 64 && bits a 120 8 == 0 && bits a 160 96 == 0 && bits a 0 8 < layers && 16 * n ≤ recs.length
  && (List.range n).all fun i => leAt recs (16 * i + 2) 1 ≤ 16 && leAt recs (16 * i) 2 % 2 ^ leAt recs (16 * i + 2) 1 == 0 && leAt recs (16 * i + 8) 8 == 0
    && leAt recs (16 * i + 3) 1 == myDev s && leAt recs (16 * i + 4) 4 == m.dstHandle
/-- MSG_QUERY: it joins the partition's ATTEND wait, or is answered with a PARTIAL of an error (R396, R398). -/
def execMsgQuery (dev : Nat) (m : StateMsg) (s : State) : Host.Outcome State Fault Refusal :=
  .next (onMsg dev m s fun s =>
    let refuse (st : Nat) : State :=
      sendState s dev 0x11 { srcPtn := m.dstPtn, dstPtn := m.srcPtn, srcHandle := m.dstHandle, dstHandle := m.srcHandle, epoch := m.epoch, status := st, qid := m.qid }
    match holderOf s m with
    | (st, none) => refuse st
    | (_, some r) =>
      if 4096 ≤ (s.serve.held.filter fun q => q.ptn == r.ptn && !q.groups.isEmpty).length then refuse stBUSY
      else if !queryOk s m r.layers then refuse stFORMAT
      else
        let vec := match m.body with | [_, .raw b] => b | _ => []
        s.modServe fun w => { w with held := w.held ++ [{
          ptn := r.ptn, handle := r.handle, dev := dev, srcPtn := m.srcPtn, srcHandle := m.srcHandle, qid := m.qid, epoch := m.epoch, layer := bits m.args 0 8,
          groups := (bodyGroups m (bits m.args 112 8)).map fun g => (g.first, g.log2), bf16 := bit m.args 36, args := m.args, body := vec, waitNs := now s }] })

/-- A group is unreachable: the waiting task completes with the status, the request is HELD until a PLAN,
MOV_GROUP_LOST is raised (R400). -/
def groupLost (s : State) (h : Nat) (q : Query) (st : Nat) : State :=
  match findReq s h with
  | none => s
  | some r =>
    let s1 := ringWrite s (winRing r.ptn 3) (.completion { status := st, rtype := 1, request := h, epoch := r.epoch, cycle := cycle32 s })
    let s2 := (modReq s1 h fun r => { r with held := true, phase := 0 }).modServe fun w => { w with queries := w.queries.filter (·.handle != h) }
    raiseBoth s2 r.ptn { cls := 4, code := 2, payload := [h, q.group.first, q.group.log2, q.group.holder, st] }
/-- MSG_PARTIAL: accepted into the partial buffer when it matches an outstanding query whose slot is empty,
else discarded; EPOCH, ACCESS or FORMAT makes its group unreachable, any other status waits for the resend (R399, R400). -/
def execMsgPartial (dev : Nat) (m : StateMsg) (s : State) : Host.Outcome State Fault Refusal :=
  .next (onMsg dev m s fun s =>
    let mine (q : Query) : Bool := q.handle == m.dstHandle && q.qid == m.qid && q.epoch == m.epoch && q.group.holder == dev && q.partial_.isNone
    if m.status = stOK then
      match m.body.head? with
      | some (.raw b) =>
        let hit (q : Query) : Bool := mine q && q.group.first == leAt b 4 4 && q.group.log2 == leAt b 2 1 % 32
        let s1 := s.modServe fun w => { w with queries := updIf hit (fun q => { q with partial_ := some b }) w.queries }
        match s.serve.queries.find? hit, findReq s m.dstHandle, (findReq s m.dstHandle).bind fun r => modelOf s r.model with
        | some q, some r, some md => if r.partialBuf = 0 then s1 else tierWrite s1 (bufferAddr s r md q.group) (b.take (partialSlot s r md))
        | _, _, _ => s1
      | _ => s
    else if cleanStatus m.status != stEPOCH && cleanStatus m.status != stACCESS && cleanStatus m.status != stFORMAT then s
    else match s.serve.queries.find? fun q => mine q && q.group.handle == m.srcHandle with
      | some q => groupLost s m.dstHandle q (cleanStatus m.status)
      | none => s)

/-- TIER_TRANSFER_DONE: a page transfer of a mover ends (R360). Write-backs, loads of open pages and reads
of input end by their own events. -/
def execTierTransferDone (xfer : Nat) (s : State) : Host.Outcome State Fault Refusal :=
  .next (match findXfer s xfer with
    | none => s
    | some x =>
      if xferWaits s x then s
      else match x.what with
        | .evict p n h =>
          -- a victim that is skipped gives way to the next (R390)
          let s1 := evictDone s x p n h
          countCopies s (takeVictims s1 p s1.serve.pages.length) p
        | .promote p n h => countCopies s (promoteDone s x p n h) p
        | .send p n id =>
          let s1 := match findPage s p n with
            | some g => if x.fetched && g.farValid then s
              else if !g.farValid then countTiles s (some p) g.nearAddr g.slotTiles false else countTiles s (some p) (farTile0 + g.farAddr) (if g.packedLen = 0 then g.slotTiles else cdiv g.packedLen 64) false
            | none => s
          sendPage s1 x p n id
        | .message dev op m =>
          let s1 := sendState (dropXfer s x.id) dev op m
          s1.modServe fun w => { w with queries := updIf (fun q => op == 0x10 && q.handle == m.srcHandle && q.qid == m.qid && q.group.holder == dev) (fun q => { q with sentAt := now s }) w.queries }
        | .receive dev m =>
          -- a coded page that must stand in slot form waits for LDT with DECODE in a SEAL entry (R362)
          let coded := (ownFar s m.dstPtn).isEmpty && m.body.any fun i => match i with | .page d _ _ => leAt d 4 2 != 0 | _ => false
          if coded && x.form.isNone then
            s.modServe fun w => { w with xfers := updIf (·.id == x.id) (fun x => { x with running := false, coding := true }) w.xfers }
          else countCopies s (receiveDone s x dev m) m.dstPtn
        | _ => s)

/-- INSTALL_RESEND: 1 ms without an answer; after the fourth send the move fails with TIMEOUT (R370). -/
def execInstallResend (handle : Nat) (s : State) : Host.Outcome State Fault Refusal :=
  .next (match s.serve.moves.find? fun m => m.handle == handle && m.verb ≤ 3 && m.sends != 0 with
    | some m => if 4 ≤ m.sends then moveFail s m.id stTIMEOUT else sendInstall s m.id
    | none => s)
/-- A held install: neither COMMIT nor ABORT has come. -/
def heldInstall (r : Req) : Option Install := match r.install with
  | some i => if r.mverb != 0 && !i.done then some i else none
  | none => none
/-- INSTALL_DOUBT: the install stays held, and the doubt is reported (R374). -/
def execInstallDoubt (handle : Nat) (s : State) : Host.Outcome State Fault Refusal :=
  .next (match findReq s handle with
    | some r => match heldInstall r with
      | some i => if r.doubt then s else raiseBoth (modReq s handle fun r => { r with doubt := true }) r.ptn { cls := 4, code := 3, payload := [handle, i.dev, i.handle] }
      | none => s
    | none => s)
/-- HELD_ACK_REPEAT (R372). -/
def execHeldAckRepeat (handle : Nat) (s : State) : Host.Outcome State Fault Refusal :=
  .next (match findReq s handle with
    | some r => match heldInstall r with
      | some i => sendState (modReq s handle fun r => { r with install := some { i with ackAt := now s } }) i.dev 3
          { srcPtn := r.ptn, dstPtn := i.ptn, srcHandle := i.handle, dstHandle := handle, epoch := r.epoch, tag := r.moveTag, args := 1 }
      | none => s
    | none => s)
/-- COMMIT_RECORD_EXPIRY: the record of a committed install goes (R372); one whose references wait to be released stands for that alone, until
DEST has its own (R386). -/
def execCommitRecordExpiry (dev handle : Nat) (s : State) : Host.Outcome State Fault Refusal :=
  .next (match s.serve.commits.find? fun c => c.dev == dev && c.handle == handle with
    | none => s
    | some c => s.modServe fun w => { w with
        commits := if c.release.isEmpty then w.commits.filter (· != c) else updIf (· == c) (fun c => { c with past := true }) w.commits })
/-- REF_RESEND: an unanswered REF or RELEASE is sent again (R383). -/
def execRefResend (handle dev target : Nat) (s : State) : Host.Outcome State Fault Refusal :=
  .next (match s.serve.refs.find? fun f => f.handle == handle && f.dev == dev && f.target == target with
    | none => s
    | some f =>
      sendState (s.modServe fun w => { w with refs := updIf (· == f) (fun f => { f with sentAt := now s }) w.refs }) dev (if f.release then 7 else 6)
        { srcPtn := bits handle 27 5, dstPtn := bits target 27 5, srcHandle := handle, dstHandle := target, epoch := epochOf s handle, tag := f.tag, seq := f.seq })
/-- RECEPTION_EXPIRY: an idle reception is released with its pages (R377). -/
def execReceptionExpiry (ptn dev handle epoch : Nat) (s : State) : Host.Outcome State Fault Refusal :=
  .next (match findReception s ptn dev handle epoch with
    | none => s
    | some r => raiseBoth (endReception s ptn dev handle epoch []) ptn { cls := 4, code := 5, payload := [dev, handle, r.pages.length] })
/-- PAGES_BUSY_RETRY: pages answered BUSY wait for their transfers again (R377). -/
def execPagesBusyRetry (handle : Nat) (s : State) : Host.Outcome State Fault Refusal :=
  .next (match s.serve.moves.find? fun m => m.handle == handle && m.busyAt.isSome with
    | none => s
    | some m =>
      let idle := m.todo.filter fun n => !(s.serve.xfers.any fun x => x.what == .send m.ptn n m.id)
      idle.foldl (fun s n => addXfer s m.ptn 1 (((findPage s m.ptn n).map sendTiles).getD 0) (.send m.ptn n m.id)) (modMove s m.id fun m => { m with busyAt := none }))
/-- QUERY_RESEND: no partial after 100 µs; the group is asked again, or unreachable after four sends (R400). -/
def execQueryResend (handle qid first log : Nat) (s : State) : Host.Outcome State Fault Refusal :=
  .next (
    let hit (q : Query) : Bool := q.handle == handle && q.qid == qid && q.group.first == first && q.group.log2 == log && q.partial_.isNone
    match s.serve.queries.find? hit with
    | none => s
    | some q =>
      if 4 ≤ q.sends then groupLost s handle q stTIMEOUT
      else
        let vec := match q.msg.body with | [_, .raw b] => b.length | _ => 0
        addXfer (s.modServe fun w => { w with queries := updIf hit (fun q => { q with sends := q.sends + 1, sentAt := now s }) w.queries })
          (bits handle 27 5) 1 (cdiv (64 + vec) 4096) (.message q.group.holder 0x10 q.msg))

/-- FAR_CHANNEL_LOST: the channel is LOST until the next cold start, and its tiles read as poisoned (R446). -/
def execFarChannelLost (chan : Nat) (s : State) : Host.Outcome State Fault Refusal :=
  .next (if (s.mem.chans.getD chan {}).far.isSome && (s.mem.chans.getD chan {}).state != 4 then
    raisePf (s.modMem fun m => { m with chans := modAt m.chans chan fun c => { c with state := 4 } }) { cls := 2, code := 3, payload := [chan, 2] }
  else s)
/-- Whether a Far copy has a tile on a channel (R443). -/
def farOn (s : State) (g : Page) (chan : Nat) : Bool :=
  g.farValid && (List.range (if g.packedLen = 0 then g.slotTiles else cdiv g.packedLen 64)).any fun i => farChannel s (g.farAddr + i) == chan
/-- FAR_SCAN_DONE: FAR_VALID is cleared on the pages that lost tiles; a page without another copy is
poisoned (R783). -/
def execFarScanDone (chan : Nat) (s : State) : Host.Outcome State Fault Refusal :=
  .next (if (s.mem.chans.getD chan {}).state != 4 then s
    else (s.serve.pages.filter fun g => farOn s g chan).foldl (fun s g =>
      if g.nearValid then modPage (pageTabs (freeTiles s g.ptn (farTile0 + g.farAddr)) g false) g.ptn g.num fun g => { g with farValid := false, packedLen := 0 }
      else modPage s g.ptn g.num fun g => { g with farPoison := true }) s)

/-- Tiles of interleaved sets that contain a granule of a stack (R449). -/
def setRanges (s : State) (n : Nat) : List (Nat × Nat) :=
  ((List.range 768).filter fun g => homeStack g == n).filterMap fun g => match granMode s g with
    | 1 => some (nearRange (g - g % 3) 3)
    | 2 => some (nearRange (g - g % 12) 12)
    | _ => none
/-- STACK_LOST: the stack's granules and the sets that contain one of them are lost; requests whose record,
map or page records lay there, or that map a page with no other copy, end; pages with a Far copy live on;
a staged open page gets a new open area, an unstaged one rolls its request back (R449, R780, R781); a QUEUED request may then lack Near
copies (R230). -/
def execStackLost (stack : Nat) (s : State) : Host.Outcome State Fault Refusal :=
  .next (if 12 ≤ stack || stackLost s stack then s
    else promoteQueued <|
      let sets := setRanges s stack
      let s1 := s.modMem fun m => { m with nears := modAt m.nears stack fun k => { k with lost := true }, gone := m.gone ++ sets, healed := m.healed.filter fun h => !(inRanges sets h.1) }
      let onStack (t : Nat) : Bool := tileGone s1 t
      let anyGone (t n : Nat) : Bool := (List.range n).any fun i => onStack (t + i)
      let nearGone (g : Page) : Bool := g.nearValid && anyGone g.nearAddr g.slotTiles
      let recGone (r : Req) : Bool :=
        let p := getPtn s r.ptn
        onStack (p.rsrTile + r.slot * 256 / 4096)
        || r.map.any (fun e => onStack ((r.pmap + 4 * e.1) / 4096) || (bit e.2 28 && onStack (p.pageTile + bits e.2 0 28 * 32 / 4096)))
      let dead := (s1.serve.reqs.filter fun r => recGone r || (pagesOf s1 r).any fun g => (g.state == .sealed || g.state == .inTransit) && nearGone g && !g.farValid).map (·.handle)
      let s2 := dead.foldl (fun s h => failReq s h stLOST) s1
      -- Near copies lost beside a Far copy
      let s3 := (s2.serve.pages.filter fun g => nearGone g && g.farValid).foldl (fun s g =>
        modPage (freeTiles s g.ptn g.nearAddr) g.ptn g.num fun g => { g with nearValid := false, pinNear := 0 }) s2
      -- open areas
      let lostOpen := s3.serve.pages.filter fun g => (g.state == .open || g.state == .sealing) && anyGone g.nearAddr (openBlocks g.geo)
      let s4 := lostOpen.foldl (fun s g =>
        match g.stage with
        | some _ => match allocTiles (freeTiles s g.ptn g.nearAddr) g.ptn false 1 (homeQ s g.ptn) (openBlocks g.geo) with
          | some (tile, s') => modPage s' g.ptn g.num fun g => { g with nearAddr := tile, dirty := List.range (openBlocks g.geo) }
          | none => s
        | none => s) s3
      let rolled := (lostOpen.filter (·.stage.isNone)).filterMap fun g => (s4.serve.reqs.find? fun r => r.ptn == g.ptn && r.pageNum g.layer g.position == some g.num).map fun r => (r.handle, g)
      let s5 := raisePf s4 { cls := 0xB, code := 5, payload := [0, stack, dead.length] }
      -- once for each request, to the least position lost, when that is below its length (R268)
      (rolled.map (·.1)).eraseDups.foldl (fun s h =>
        match findReq s h with
        | none => s
        | some r =>
          let d := (rolled.filter (·.1 == h)).foldl (fun d x => Nat.min d (x.2.position * r.pageLen)) r.durableLen
          if r.length ≤ d then s
          else rollReq (modReq s h fun r => { r with durableLen := d }) h) s5)

end Sys2Proof.Machine
end

