-- ==== Sys2Proof/Machine/TableEngine.lean ====
section
/-! DEFINITION. The embedding table engine (R509-R529): table records, rows, pooling of look-ups,
the row cache, and updates. -/

namespace Sys2Proof.Machine
open Sys2Proof

def findTabRec (s : State) (p n : Nat) : Option TabRec := s.tabs.recs.find? fun r => r.ptn == p && r.num == n
/-- Fields of a table record (R509). -/
def TabRec.fmt (r : TabRec) : Nat := leAt r.rec_ 1 1
def TabRec.opt (r : TabRec) : Nat := leAt r.rec_ 2 1
def TabRec.sr (r : TabRec) : Bool := bit (leAt r.rec_ 3 1) 0
def TabRec.cached (r : TabRec) : Bool := bit (leAt r.rec_ 3 1) 1
def TabRec.dim (r : TabRec) : Nat := leAt r.rec_ 4 2
def TabRec.log (r : TabRec) : Nat := leAt r.rec_ 6 1
def TabRec.nshard (r : TabRec) : Nat := leAt r.rec_ 7 1
def TabRec.rows (r : TabRec) : Nat := leAt r.rec_ 8 8
def TabRec.base (r : TabRec) : Nat := leAt r.rec_ 0x10 8
def TabRec.owner (r : TabRec) (shard : Nat) : Nat := leAt r.rec_ (0x40 + shard) 1
/-- Rows that a shard holds. -/
def TabRec.shardRows (r : TabRec) (shard : Nat) : Nat := Nat.min (2 ^ r.log) (r.rows - shard * 2 ^ r.log)
/-- Bytes of a row's elements, padded to a line, of its state, and its STRIDE (R511). -/
def TabRec.rowBytes (r : TabRec) : Nat := alignLine (operandBytes r.fmt r.dim)
def TabRec.stateBytes (r : TabRec) : Nat :=
  match r.opt with
  | 2 => alignLine (4 * r.dim)
  | 3 => 64
  | 4 => 2 * alignLine (4 * r.dim)
  | _ => 0
def TabRec.stride (r : TabRec) : Nat := r.rowBytes + r.stateBytes
/-- Tier address of a row of a local shard (R511). -/
def rowAddr (s : State) (r : TabRec) (shard row : Nat) : Nat :=
  let k := ((List.range shard).filter fun i => r.owner i == myDev s).length
  r.base + (k * 2 ^ r.log + row) * r.stride
/-- The ranges of R509, and a MAP within the peer set (R510). -/
def tabRecOk (s : State) (p : Nat) (r : TabRec) : Bool :=
  r.fmt < 5 && r.opt < 5 && leAt r.rec_ 3 1 < 4 && 16 ≤ r.dim && r.dim ≤ 1024 && r.dim % 16 == 0
  && 10 ≤ r.log && r.log ≤ 32 && 1 ≤ r.nshard && r.nshard ≤ 64 && 1 ≤ r.rows && r.rows ≤ 2 ^ 32 && r.rows ≤ r.nshard * 2 ^ r.log
  && r.base % 4096 == 0 && (bytesAt r.rec_ 0x24 4).all (· == 0) && (bytesAt r.rec_ 0x30 16).all (· == 0)
  && (List.range r.nshard).all (fun i => r.owner i == myDev s || (getPtn s p).peers.any (·.1 == r.owner i))
  -- BASE lies in the partition's granules when the device holds a shard
  && (!((List.range r.nshard).any fun i => r.owner i == myDev s) || tierStatus s p r.base == 0)
/-- Whether a TABLE task, a look-up or an update of a table is in progress (R510). -/
def tabBusy (s : State) (p n : Nat) : Bool :=
  s.work.tasks.any (fun t => t.kind == 1 && t.cls == 3 && t.ptn == p && bits (t.args.headD 0) 0 8 == n)
  || s.work.lookups.any (fun l => l.ptn == p && l.table == n)
  || s.tabs.updates.any (fun u => u.ptn == p && u.table == n)
  || s.tabs.asks.any (fun a => a.2.dstPtn == p && bits a.2.args 0 8 == n)
/-- Where the answer of the table mailbox stands: the spec gives the record no STATUS field, and byte 0x30
of its reserved bytes takes it (DESIGN CHOICE). -/
def tabAnswer (s : State) (v : View) (st : Nat) : State := mbxDone (mbxPut s (mbxTable v) (8 * 0x30) 8 st) v 1
/-- TABLE_RECORD_WRITE: through a window for its own partition, through the PF for any (R509, R510). -/
def execTableRecordWrite (v : View) (ptn : Nat) (s : State) : Host.Outcome State Fault Refusal :=
  .next (
    if !mbxGo s v 1 then s
    else
      let p := (viewPtn v).getD ptn
      let raw := leBytes 128 (mbxRead s (mbxTable v) 32)
      -- the byte that takes the answer is reserved in a request (R9)
      let r : TabRec := { ptn := p, num := leAt raw 0 1, rec_ := raw }
      if 32 ≤ p || !tabRecOk s p r then tabAnswer s v stFORMAT
      else if tabBusy s p r.num then tabAnswer s v stBUSY
      else
        let s1 := s.modTabs fun t => { t with
          recs := (t.recs.filter fun x => !(x.ptn == p && x.num == r.num)) ++ [r], heat := t.heat.filter fun h => !(h.ptn == p && h.table == r.num) }
        tabAnswer (s1.modWork fun w => { w with rows := w.rows.filter fun f => !(f.ptn == p && f.table == r.num) }) v stOK)

/-- The logical constellation whose row cache holds a shard: fixed by table and shard among the partition's
constellations (DESIGN CHOICE; R519 wants one). -/
def shardCon (s : State) (p table shard : Nat) : Option Nat :=
  let cs := (getPtn s p).cons
  cs[(table * 64 + shard) % cs.length]?
/-- Global number of a row of a shard. -/
def rowNum (r : TabRec) (shard row : Nat) : Nat := shard * 2 ^ r.log + row
def findFrame (s : State) (p table row : Nat) : Option RowFrame := s.work.rows.find? fun f => f.ptn == p && f.table == table && f.row == row
def heatOf (s : State) (p table row : Nat) : Nat := ((s.tabs.heat.find? fun h => h.ptn == p && h.table == table && h.row == row).map (·.count)).getD 0
/-- A look-up warms its row, once in a cycle (R520). -/
def warmRow (s : State) (p table row : Nat) : State :=
  match s.tabs.heat.find? fun h => h.ptn == p && h.table == table && h.row == row with
  | none => s.modTabs fun t => { t with heat := t.heat ++ [{ ptn := p, table := table, row := row, count := 1, cycle := s.eph.cycle }] }
  | some h =>
    if h.cycle = s.eph.cycle then s
    else s.modTabs fun t => { t with heat := updIf (· == h) (fun h => { h with count := sat 15 (h.count + 1), cycle := s.eph.cycle }) t.heat }
/-- Place for a row in the cache of a constellation, in the lines that R518 gives it: a gap, or the frame
of the coldest row, the lowest frame on a tie, when the new row is warmer (R521). -/
def frameFor (s : State) (p phys stride heat : Nat) : Option (Nat × Option RowFrame) :=
  let lo := (114688 - 16384 * cnt s.tabs.cache p) * 64
  let hi := 114688 * 64
  let fs := s.work.rows.filter (·.phys == phys)
  let starts := sortBy id (lo :: fs.map fun f => f.at_ + f.stride)
  match starts.find? fun a => a + stride ≤ hi && !(fs.any fun f => f.at_ < a + stride && a < f.at_ + f.stride) with
  | some a => some (a, none)
  | none =>
    let c := fs.filter fun f => stride ≤ f.stride
    let low := minN (c.map fun f => heatOf s f.ptn f.table f.row)
    match (sortBy (·.at_) c).find? fun f => heatOf s f.ptn f.table f.row == low with
    | some v => if low < heat then some (v.at_, some v) else none
    | none => none
/-- Read a row with its state: from the cache, or from the tier, admitting it to the cache (R519-R521).
The status of the access, the bytes, and the state after. -/
def readRow (s : State) (r : TabRec) (shard row : Nat) (look : Bool) : Nat × List Byte × State :=
  let g := rowNum r shard row
  let s0 := if r.cached && look then warmRow s r.ptn r.num g else s
  let addr := rowAddr s0 r shard row
  match findFrame s0 r.ptn r.num g with
  | some f => (0, sramRead s0 (haloKey f.phys f.at_) r.stride, if look then (match (getCon s0 f.phys).logical with | some l => progCount (odCount s0 (0x91E0 + r.ptn) 3) l 0x0D 1 | none => odCount s0 (0x91E0 + r.ptn) 3) else s0)
  | none =>
    let st := rangeStatus s0 r.ptn addr r.stride
    let s0 := if st = 0 then countTiles s0 (some r.ptn) (addr / 4096) (cdiv (addr % 4096 + r.stride) 4096) false else s0
    let st := if st = 0 && !(tierPoison s0 addr r.stride).isEmpty then stPOISON else st
    let bytes := tierRead s0 addr r.stride
    if !r.cached || cnt s0.tabs.cache r.ptn = 0 || !look then (st, bytes, s0)
    else
      let s1 := odCount s0 (0x91E0 + r.ptn) 4
      if st != 0 then (st, bytes, s1)
      else match (shardCon s1 r.ptn r.num shard).bind (physOf s1) with
        | none => (st, bytes, s1)
        | some phys =>
          match frameFor s1 r.ptn phys r.stride (heatOf s1 r.ptn r.num g) with
          | none => (st, bytes, s1)
          | some (a, victim) =>
            let f : RowFrame := { phys := phys, at_ := a, stride := r.stride, ptn := r.ptn, table := r.num, row := g }
            (st, bytes, sramWrite (s1.modWork fun w => { w with rows := (w.rows.filter fun x => some x != victim) ++ [f] }) (haloKey phys a) bytes)
/-- Write a row: its tiles in the tier, and the cached copy (R522). -/
def writeRow (s : State) (r : TabRec) (shard row : Nat) (bs : List Byte) : State :=
  let addr := rowAddr s r shard row
  let s1 := countTiles (tierWrite s addr bs) (some r.ptn) (addr / 4096) (cdiv (addr % 4096 + bs.length) 4096) true
  match findFrame s r.ptn r.num (rowNum r shard row) with
  | some f => sramWrite s1 (haloKey f.phys f.at_) bs
  | none => s1
/-- Elements of a row as FP32 codes. -/
def rowElems (r : TabRec) (bs : List Byte) : List Nat := (readNums r.fmt r.dim bs).map w32

/-- A bag record of a LOOKUP (R513). -/
structure Bag where
  n    : Nat
  pool : Nat
  id   : Nat
  idx  : List Nat
  wgt  : List Nat
  bad  : Bool
  deriving Repr
/-- Bag records of a body: `k` of them. -/
def parseBags : Nat → List Byte → List Bag
  | 0, _ => []
  | k + 1, bs =>
    let hd := leAt bs 0 8
    let n := bits hd 0 13
    let pool := bits hd 13 2
    let size := 8 + 4 * n + (if pool = 2 then 4 * n else 0)
    let idx := (List.range n).map fun i => leAt bs (8 + 4 * i) 4
    let wgt := (List.range n).map fun i => leAt bs (8 + 4 * n + 4 * i) 4
    { n := n, pool := pool, id := bits hd 32 32, idx := idx, wgt := wgt, bad := 4096 < n || bits hd 15 17 != 0 || bs.length < size }
      :: parseBags k (bs.drop (cdiv size 8 * 8))
/-- One more row in a pool (R514). -/
def poolStep (pool : Nat) (c x : List Nat) (w : Nat) : List Nat :=
  List.zipWith (fun c x => if pool = 3 then max32 c x else if pool = 2 then addFma c [(r32 w).mul (r32 x)] else add32 c x) c x
/-- The pool of one bag, its status, and the state after (R514). -/
def poolBag (s : State) (r : TabRec) (shard : Nat) (b : Bag) : Nat × List Nat × State :=
  let zero := List.replicate r.dim (if b.pool = 3 then negInf else 0)
  if b.bad || b.idx.any (fun i => r.shardRows shard ≤ i) then (stFORMAT, [], s)
  else (b.idx.zip (b.wgt ++ List.replicate b.n 0)).foldl (fun a x =>
    if a.1 != 0 then a
    else
      let (st, bs, s1) := readRow a.2.2 r shard x.1 true
      if st != 0 then (st, [], s1) else (0, poolStep b.pool a.2.1 (rowElems r bs) x.2, s1)) (0, zero, s)
/-- A POOLED record (R515): a header of a line, and the vector when there is one. -/
def pooledRec (b : Bag) (st : Nat) (v : List Nat) : List Byte :=
  padTo 64 (leBytes 16 (b.id + b.n * 2 ^ 32 + st * 2 ^ 48 + b.pool * 2 ^ 56)) ++ padTo (alignLine (4 * v.length)) ((v.map (leBytes 4)).flatten)
/-- The bags of one shard, pooled: the records, the worst status, and the state after. -/
def poolBags (s : State) (p table shard : Nat) (bags : List Bag) : List Byte × Nat × State :=
  match findTabRec s p table with
  | none => ((bags.map fun b => pooledRec b stFORMAT []).flatten, stFORMAT, s)
  | some r =>
    if r.nshard ≤ shard || r.owner shard != myDev s then ((bags.map fun b => pooledRec b stFORMAT []).flatten, stFORMAT, s)
    else bags.foldl (fun a b =>
      let (st, v, s1) := poolBag a.2.2 r shard b
      (a.1 ++ pooledRec b st v, if a.2.1 = 0 then st else a.2.1, s1)) ([], 0, s)
/-- Fields of OPARGS in table messages (R512). -/
def msgTable (m : StateMsg) : Nat := bits m.args 0 8
def msgShard (m : StateMsg) : Nat := bits m.args 8 6
def msgCount (m : StateMsg) : Nat := bits m.args 14 16
def msgSeq (m : StateMsg) : Nat := bits m.args 30 32
def msgBytes (m : StateMsg) : List Byte := (m.body.map fun i => match i with | .raw b => b | _ => []).flatten
/-- A window holds a tile of a row of a shard that the row cache does not hold (R101, R519). -/
def rowHeld (s : State) (r : TabRec) (shard row : Nat) (look : Bool) : Bool :=
  let a := rowAddr s r shard row
  row < r.shardRows shard && !(look && (findFrame s r.ptn r.num (rowNum r shard row)).isSome) && windowHolds s (a / 4096) (cdiv (a % 4096 + r.stride) 4096)
/-- A window holds a row that the bags of a shard name: the look-up waits (R101). -/
def bagsHeld (s : State) (p table shard : Nat) (bags : List Bag) : Bool :=
  match findTabRec s p table with
  | none => false
  | some r => shard < r.nshard && r.owner shard == myDev s && bags.any fun b => b.idx.any fun i => rowHeld s r shard i true
def askHeld (s : State) (m : StateMsg) : Bool := bagsHeld s m.dstPtn (msgTable m) (msgShard m) (parseBags (msgCount m) (msgBytes m))
/-- A dispatcher-built TABLE task of a look-up, for its completion record (R514). -/
def tableTask (s : State) (p : Nat) : Task :=
  { id := s.work.nextTask, src := TaskSrc.dispatcher, kind := 1, pin := false, fence := false, quiet := false, cls := 3, level := 1, ptn := p,
    uid := mkUid 2 ((getPtn s p).cons.headD 0), span := 0, request := none, epoch := 0, layer := 0, prog := 0, count := 1, tag := 0, after := none, args := [] }
/-- The owner's answer to a LOOKUP: one POOLED message; a bag that breaks a rule ends the TABLE task with
FORMAT (R512-R517). -/
def answerLookup (s : State) (dev : Nat) (m : StateMsg) : State :=
  let (body, st, s1) := poolBags s m.dstPtn (msgTable m) (msgShard m) (parseBags (msgCount m) (msgBytes m))
  let s2 := if st = 0 then s1 else taskRec s1 (tableTask s1 m.dstPtn) st 0
  sendState s2 dev 0x21 { srcPtn := m.dstPtn, dstPtn := m.srcPtn, srcHandle := m.dstHandle, dstHandle := m.srcHandle, args := m.args, body := [.raw body] }
/-- The slot of a TABLE entry of a partition that runs, with the entry. -/
def tableSlot (s : State) (p : Nat) : Option (RunSlot × Entry) :=
  s.eph.slots.findSome? fun r => if r.ptn == p && !r.aborting then (match entryNow s r.sec r.ent with | some e => if e.cls == 3 then some (r, e) else none | none => none) else none
/-- What a slot has taken of CAP_A and CAP_B. -/
def useSlot (s : State) (sec ent usedA usedB : Nat) (full : Bool) : State :=
  s.modEph fun e => { e with slots := updIf (fun r => r.sec == sec && r.ent == ent) (fun r => { r with usedA := usedA, usedB := usedB, full := full }) e.slots }
/-- Rows that the bags of a LOOKUP name. -/
def msgRows (m : StateMsg) : Nat := sumN ((parseBags (msgCount m) (msgBytes m)).map (·.n))
/-- Serve the look-ups of a partition that wait, in their order, up to CAP_A bags and CAP_B rows of the slot, of which some are used; one
whose row a window holds keeps its place (R94, R101, R117). -/
def serveAsks (p capA capB : Nat) : List (Nat × StateMsg) → State × Nat × Nat × Bool → State × Nat × Nat × Bool
  | [], a => a
  | x :: r, (s, ua, ub, full) =>
    let a := ua + msgCount x.2
    let b := ub + msgRows x.2
    if full || (capA != 0 && capA < a) || (capB != 0 && capB < b) then (s, ua, ub, true)
    else if askHeld s x.2 then (s, ua, ub, false)
    else serveAsks p capA capB r (answerLookup (s.modTabs fun t => { t with asks := t.asks.filter (· != x) }) x.1 x.2, a, b, false)
/-- MSG_LOOKUP: pooled while a TABLE entry of the partition runs and has room, behind those that wait; else in the next one (R117, R514,
R524). -/
def execMsgLookup (dev : Nat) (m : StateMsg) (s : State) : Host.Outcome State Fault Refusal :=
  .next (onMsg dev m s (fun s =>
    let s1 := s.modTabs fun t => { t with asks := t.asks ++ [(dev, m)] }
    match tableSlot s m.dstPtn with
    | none => s1
    | some (k, e) =>
      if s.tabs.asks.any (·.2.dstPtn == m.dstPtn) then s1
      else
        let x := serveAsks m.dstPtn e.capA e.capB [(dev, m)] (s1, k.usedA, k.usedB, k.full)
        useSlot x.1 k.sec k.ent x.2.1 x.2.2.1 x.2.2.2) false)

/-- One POOLED record: BAG_ID, count, STATUS, POOL and the vector. -/
def parsePooled (dim : Nat) : Nat → List Byte → List (Nat × Nat × Nat × Nat × List Nat)
  | 0, _ => []
  | k + 1, bs =>
    let hd := leAt bs 0 8
    let st := bits hd 48 8
    let n := if st = 0 then dim else 0
    (bits hd 0 32, bits hd 32 13, st, bits hd 56 2, (List.range n).map fun i => leAt bs (64 + 4 * i) 4)
      :: parsePooled dim k (bs.drop (64 + alignLine (4 * n)))
/-- A bag's result from its pooled records in ascending shard number (R516). -/
def combine (pool : Nat) (recs : List (Nat × List Nat)) (dim : Nat) : List Nat :=
  let total := sumN (recs.map (·.1))
  let start := match recs with
    | [] => List.replicate dim 0
    | r :: _ => r.2
  let v := recs.tail.foldl (fun a r => List.zipWith (if pool = 3 then max32 else add32) a r.2) start
  if pool = 1 then (if total = 0 then v.map fun _ => 0 else v.map fun x => mul32 x (recip32 (w32 (numInt total))))
  else if pool = 3 then v.map fun x => if x = negInf then 0 else x
  else v
/-- When every look-up of a task has its answer, the bags are combined and written to the output area that
ARG2 names, in the format of ARG3, and the task may end (R516). A bag whose STATUS is not OK ends the task
with that status. -/
def lookupsDone (s : State) (tid : Nat) : State :=
  let ls := sortBy (·.shard) (s.work.lookups.filter (·.task == tid))
  match findTask s tid, (ls.head?).bind fun l => findTabRec s l.ptn l.table with
  | some t, some r =>
    if ls.any fun l => l.answer.isNone then s
    else
      let recs := (ls.map fun l => parsePooled r.dim (msgCount l.msg) (l.answer.getD [])).flatten
      let s1 := s.modWork fun w => { w with lookups := w.lookups.filter (·.task != tid) }
      match recs.find? fun x => x.2.2.1 != 0 with
      | some x => stopTask s1 tid (cleanStatus x.2.2.1)
      | none =>
        let ids := (recs.map (·.1)).eraseDups
        let f := bits (t.args.getD 3 0) 0 4
        let out := bits (t.args.getD 2 0) 0 56
        let size := alignLine (operandBytes f r.dim)
        -- the output area is the partition's own (R426); it waits for a window that holds it (R101)
        let bad := rangeStatus s t.ptn out (ids.length * size)
        if bad != 0 then stopTask s1 tid bad
        else if windowHolds s (out / 4096) (cdiv (out % 4096 + ids.length * size) 4096) then s else
        let s2 := (ids.mapIdx fun i b => (i, b)).foldl (fun s x =>
          let rs := recs.filter (·.1 == x.2)
          let v := combine ((rs.map (·.2.2.2.1)).headD 0) (rs.map fun y => (y.2.1, y.2.2.2.2)) r.dim
          tierWrite s (out + x.1 * size) (padTo size (writeNums f none (v.map r32)))) s1
        if s2.work.insts.any (·.task == tid) then s2
        else match findTask s2 tid with
          | some t' => if t'.statuses.isEmpty then s2 else finishTask s2 tid
          | none => s2
  | _, _ => s
/-- Look-ups of a task's area, one per shard (DESIGN CHOICE): a line with the shard in byte 0, 1 in byte 1,
the bags in bytes 2-3 and the body's bytes in 4-7, then the body padded to a line; another value of byte 1
ends the list. -/
def parseArea : Nat → List Byte → List (Nat × Nat × List Byte)
  | 0, _ => []
  | fuel + 1, bs =>
    if leAt bs 1 1 != 1 || bs.length < 64 then []
    else (leAt bs 0 1, leAt bs 2 2, bytesAt bs 64 (leAt bs 4 4)) :: parseArea fuel (bs.drop (64 + alignLine (leAt bs 4 4)))
/-- Start the look-ups of a TABLE task whose ARG1 names tiles: one LOOKUP to the owner of each shard, the
own shards pooled here (R512). -/
def startLookups (s : State) (tid : Nat) : State :=
  match findTask s tid with
  | none => s
  | some t =>
    let a1 := t.args.getD 1 0
    let table := bits (t.args.getD 0 0) 0 8
    if t.cls != 3 || !bit a1 63 || t.looked then s
    else match findTabRec s t.ptn table with
      | none => s
      | some r =>
        let addr := bits a1 0 56 + (if bits a1 61 2 = 1 then farBase else 0)
        let n := (bits a1 56 5 + 1) * 4096
        let bad := if rangeStatus s t.ptn addr n != 0 then rangeStatus s t.ptn addr n else if (tierPoison s addr n).isEmpty then 0 else stPOISON
        if bad != 0 then stopTask s tid bad
        -- an area that a window holds is read when the window ends (R101)
        else if windowHolds s (addr / 4096) (n / 4096) then s else
        let area := parseArea 64 (tierRead s addr n)
        let s := modTask s tid fun t => { t with looked := true }
        lookupsDone (area.foldl (fun s x =>
          let (shard, n, body) := x
          let seq := cnt s.tabs.nextSeq (t.ptn * 256 + table)
          let dev := r.owner shard
          let q := (((getPtn s t.ptn).peers.find? (·.1 == dev)).map (·.2)).getD 0
          let m : StateMsg := { srcPtn := t.ptn, dstPtn := q, args := table + shard * 2 ^ 8 + n * 2 ^ 14 + seq * 2 ^ 30, body := [.raw body] }
          let l : Lookup := { task := tid, ptn := t.ptn, table := table, shard := shard, seq := seq, dev := dev, msg := m, sentAt := now s }
          let s1 := s.modTabs fun w => { w with nextSeq := cntSet w.nextSeq (t.ptn * 256 + table) ((seq + 1) % 2 ^ 32) }
          if dev = myDev s then
            if bagsHeld s1 t.ptn table shard (parseBags n body) then s1.modWork fun w => { w with lookups := w.lookups ++ [l] } else
            let (out, _, s2) := poolBags s1 t.ptn table shard (parseBags n body)
            s2.modWork fun w => { w with lookups := w.lookups ++ [{ l with answer := some out }] }
          else sendState (s1.modWork fun w => { w with lookups := w.lookups ++ [l] }) dev 0x20 m) s) tid
/-- MSG_POOLED: the first answer of each shard and SEQ is kept; the last one ends the look-ups (R516, R517). -/
def execMsgPooled (dev : Nat) (m : StateMsg) (s : State) : Host.Outcome State Fault Refusal :=
  .next (onMsg dev m s (fun s =>
    match s.work.lookups.find? fun l => l.ptn == m.dstPtn && l.dev == dev && l.table == msgTable m && l.shard == msgShard m && l.seq == msgSeq m && l.answer.isNone with
    | none => s
    | some l => lookupsDone (s.modWork fun w => { w with lookups := updIf (· == l) (fun l => { l with answer := some (msgBytes m) }) w.lookups }) l.task) false)
/-- LOOKUP_RESEND: the same LOOKUP again after 100 µs, four sends in all, then TIMEOUT (R517). -/
def execLookupResend (task shard : Nat) (s : State) : Host.Outcome State Fault Refusal :=
  .next (match s.work.lookups.find? fun l => l.task == task && l.shard == shard && l.answer.isNone && l.dev != myDev s with
    | none => s
    | some l =>
      if l.sends < 4 then
        sendState (s.modWork fun w => { w with lookups := updIf (· == l) (fun l => { l with sends := l.sends + 1, sentAt := now s }) w.lookups }) l.dev 0x20 l.msg
      else
        let s1 := s.modWork fun w => { w with lookups := w.lookups.filter (·.task != task) }
        match findTask s1 task with
        | some t =>
          if s1.work.insts.any (·.task == task) then stopTask s1 task stTIMEOUT
          else settle (closeTask s1 t stTIMEOUT 0)
        | none => s1)

/-- New row and state by the rule of OPT (R526); `g` are the gradient's FP32 codes, `w` the words of the
stochastic rounding. -/
def updateRow (r : TabRec) (lr bc1 bc2 : Nat) (g : List Nat) (w : Nat → Nat) (bs : List Byte) : List Byte :=
  let x := rowElems r bs
  let st := bs.drop r.rowBytes
  let vec (o : Nat) : List Nat := (List.range r.dim).map fun i => leAt st (o + 4 * i) 4
  let mu := leAt r.rec_ 0x18 4
  let b2 := leAt r.rec_ 0x1C 4
  let eps := leAt r.rec_ 0x20 4
  let enc (v : List Nat) : List Byte := padTo (alignLine (4 * r.dim)) ((v.map (leBytes 4)).flatten)
  let row (v : List Nat) : List Byte := padTo r.rowBytes (writeNums r.fmt (if r.sr then some w else none) (v.map r32))
  match r.opt with
  | 1 => row (List.zipWith (fun x g => sub32 x (mul32 lr g)) x g)
  | 2 =>
    let m := List.zipWith (fun m g => add32 (mul32 mu m) g) (vec 0) g
    row (List.zipWith (fun x m => sub32 x (mul32 lr m)) x m) ++ enc m
  | 3 =>
    let sq := addBlocks 0 (g.map fun a => (r32 a).mul (r32 a))
    let a := add32 (leAt st 0 4) (mul32 sq (recip32 (w32 (numInt r.dim))))
    let k := rsqrt32 (add32 a eps)
    row (List.zipWith (fun x g => sub32 x (mul32 (mul32 lr g) k)) x g) ++ padTo 64 (leBytes 4 a)
  | 4 =>
    let m := List.zipWith (fun m g => add32 (mul32 mu m) (mul32 (sub32 one32 mu) g)) (vec 0) g
    let v := List.zipWith (fun v g => add32 (mul32 b2 v) (mul32 (sub32 one32 b2) (mul32 g g))) (vec (alignLine (4 * r.dim))) g
    row (List.zipWith (fun x mv => sub32 x (mul32 (mul32 lr (mul32 mv.1 bc1)) (rsqrt32 (add32 (mul32 mv.2 bc2) eps)))) x (m.zip v)) ++ enc m ++ enc v
  | _ => bs
/-- Gradient records of an UPDATE (R523): row offset and FP32 codes; none where a reserved bit is set. -/
def parseGrads (dim : Nat) : Nat → List Byte → List (Nat × Option (List Nat))
  | 0, _ => []
  | k + 1, bs =>
    let hd := leAt bs 0 8
    let f := bits hd 32 1
    let size := cdiv (operandBytes f dim) 8 * 8
    (bits hd 0 32, if bits hd 33 31 != 0 || bs.length < 8 + operandBytes f dim then none else some ((readNums f dim (bs.drop 8)).map w32))
      :: parseGrads dim k (bs.drop (8 + size))
/-- Apply an UPDATE: its records in order, one read-modify-write of a row each; the status answered
(R524, R526, R527). -/
def applyUpdate (s : State) (u : Update) : Nat × State :=
  match findTabRec s u.ptn u.table with
  | none => (stFORMAT, s)
  | some r =>
    (parseGrads r.dim (msgCount u.msg) (msgBytes u.msg)).foldl (fun a x =>
      match x.2 with
      | none => (stFORMAT, a.2)
      | some g =>
        if r.shardRows u.shard ≤ x.1 then (stFORMAT, a.2)
        else
          let (st, bs, s1) := readRow a.2 r u.shard x.1 false
          if st != 0 then (st, s1)
          else
            let w (j : Nat) : Nat := (philox (u.dev * 2 ^ 16 + j) x.1 3 u.seq (leAt r.rec_ 0x28 8)).1
            (a.1, writeRow s1 r u.shard x.1 (updateRow r (bits u.msg.args 64 32) (bits u.msg.args 96 32) (bits u.msg.args 128 32) g w bs))) (0, s)
/-- UPDATE_ACK, and the record of the SEQ, kept for 1,024 values (R525). -/
def ackUpdate (s : State) (dev : Nat) (m : StateMsg) (st : Nat) : State :=
  sendState s dev 0x23 { srcPtn := m.dstPtn, dstPtn := m.srcPtn, srcHandle := m.dstHandle, dstHandle := m.srcHandle, status := st, args := bits m.args 0 62 }
def keepSeq (s : State) (p dev table seq st : Nat) : State :=
  s.modTabs fun t => { t with
    applied := (t.applied.filter fun a => !(a.1 == p && a.2.1 == dev && a.2.2.1 == table && a.2.2.2.1 + 1024 ≤ seq)) ++ [(p, dev, table, seq, st)] }
def newestSeq (s : State) (p dev table : Nat) : Option Nat :=
  let l := (s.tabs.applied.filter fun a => a.1 == p && a.2.1 == dev && a.2.2.1 == table).map (·.2.2.2.1)
  if l.isEmpty then none else some (maxN l)
/-- MSG_UPDATE: queued for the first TABLE entry of the next cycle, applied at most once (R523-R525). -/
def execMsgUpdate (dev : Nat) (m : StateMsg) (s : State) : Host.Outcome State Fault Refusal :=
  .next (onMsg dev m s (fun s =>
    let p := m.dstPtn
    let table := msgTable m
    let seq := msgSeq m
    match s.tabs.applied.find? fun a => a.1 == p && a.2.1 == dev && a.2.2.1 == table && a.2.2.2.1 == seq with
    | some a => ackUpdate s dev m a.2.2.2.2
    | none =>
      if s.tabs.updates.any fun u => u.ptn == p && u.dev == dev && u.table == table && u.seq == seq then s
      else if (match newestSeq s p dev table with | some n => decide (seq + 1024 ≤ n) | none => false) then ackUpdate s dev m stEPOCH
      else match findTabRec s p table with
        | none => ackUpdate (keepSeq s p dev table seq stFORMAT) dev m stFORMAT
        | some r =>
          if r.opt = 0 || r.nshard ≤ msgShard m || r.owner (msgShard m) != myDev s then ackUpdate (keepSeq s p dev table seq stFORMAT) dev m stFORMAT
          else s.modTabs fun t => { t with updates := t.updates ++ [{ ptn := p, dev := dev, table := table, shard := msgShard m, seq := seq, cycle := s.eph.cycle, msg := m }] }) false)
/-- MSG_UPDATE_ACK: the result of an update that this device sent, by (owner, table, SEQ). -/
def execMsgUpdateAck (dev : Nat) (m : StateMsg) (s : State) : Host.Outcome State Fault Refusal :=
  .next (onMsg dev m s (fun s => s.modTabs fun t => { t with
    acks := (t.acks.filter fun a => !(a.1 == m.dstPtn && a.2.1 == dev && a.2.2.1 == msgTable m && a.2.2.2.1 == msgSeq m)) ++ [(m.dstPtn, dev, msgTable m, msgSeq m, m.status)] }) false)
/-- A window holds a row that an UPDATE names (R101). -/
def updateHeld (s : State) (u : Update) : Bool :=
  match findTabRec s u.ptn u.table with
  | none => false
  | some r => (parseGrads r.dim (msgCount u.msg) (msgBytes u.msg)).any fun x => x.2.isSome && rowHeld s r u.shard x.1 false
/-- The first TABLE entry of a partition in a cycle applies the updates received before it, in their order; one whose row a window holds
keeps those behind it waiting (R101, R524). -/
def applyUpdates (p : Nat) : List Update → State → State
  | [], s => s
  | u :: r, s =>
    if updateHeld s u then s
    else
      let (st, s1) := applyUpdate s u
      let s2 := s1.modTabs fun t => { t with updates := t.updates.filter (· != u) }
      applyUpdates p r (ackUpdate (keepSeq s2 p u.dev u.table u.seq st) u.dev u.msg st)
/-- Updates of a partition received before this cycle, in the order in which they are applied (R524). -/
def dueUpdates (s : State) (p : Nat) : List Update :=
  sortBy (fun u => u.dev * 2 ^ 32 + u.seq) (s.tabs.updates.filter fun u => u.ptn == p && u.cycle != s.eph.cycle)
/-- A TABLE entry of a partition serves: updates received before this cycle, then the look-ups that wait, up to CAP_A bags and CAP_B rows,
of which some are used; what it has then used, and whether placement stops (R94, R117, R524). -/
def tableEntry (s : State) (p capA capB usedA usedB : Nat) (full : Bool) : State × Nat × Nat × Bool :=
  let s1 := applyUpdates p (dueUpdates s p) s
  if !(dueUpdates s1 p).isEmpty then (s1, usedA, usedB, full)
  else serveAsks p capA capB (s1.tabs.asks.filter (·.2.dstPtn == p)) (s1, usedA, usedB, full)
/-- Table work goes on where a window that held it has ended (R101). -/
def resumeTables (s : State) : State :=
  let s1 := (List.range 32).foldl (fun s p => match tableSlot s p with
    | none => s
    | some (k, e) =>
      let x := tableEntry s p e.capA e.capB k.usedA k.usedB k.full
      useSlot x.1 k.sec k.ent x.2.1 x.2.2.1 x.2.2.2) s
  let s2 := (s1.work.lookups.filter fun l => l.dev == myDev s1 && l.answer.isNone).foldl (fun s l =>
    let bags := parseBags (msgCount l.msg) (msgBytes l.msg)
    if bagsHeld s l.ptn l.table l.shard bags then s
    else
      let (out, _, s') := poolBags s l.ptn l.table l.shard bags
      s'.modWork fun w => { w with lookups := updIf (· == l) (fun l => { l with answer := some out }) w.lookups }) s1
  let s3 := (((s2.work.tasks.filter fun t => t.cls == 3 && !t.looked && (t.state == .dispatched || t.state == .running))).map (·.id)).foldl startLookups s2
  ((s3.work.lookups.map (·.task)).eraseDups).foldl lookupsDone s3
/-- ROW_HEAT_AGING: after TAGE_CYCLES cycles every counter of the partition is halved (R520). -/
def execRowHeatAging (ptn : Nat) (s : State) : Host.Outcome State Fault Refusal :=
  .next (if isolated s ptn || cnt s.tabs.age ptn < odGet s (0x91E0 + ptn) 2 then s else s.modTabs fun t => { t with
    age := cntSet t.age ptn 0
    heat := (updIf (·.ptn == ptn) (fun h => { h with count := h.count / 2 }) t.heat).filter fun h => h.ptn != ptn || h.count != 0 })

end Sys2Proof.Machine
end

