-- ==== Sys2Proof/Machine/Ephem.lean ====
section
/-! DEFINITION. The ephemeris at work (R81-R147): the units of entries, loads and switches, wakes,
barriers, overruns, the ends of entries, bridge and gate entries. -/

namespace Sys2Proof.Machine
open Sys2Proof

/-- The layout fingerprint (R90). -/
def fingerprint (s : State) : Nat :=
  let owners := (List.range 150).map fun l => BitVec.ofNat 8 ((ownerOf s l).getD 0xFF)
  let grans := ((List.range 32).map fun p =>
    leBytes 2 ((List.range 768).filter fun g => nearOwner s g == some p).length ++ leBytes 2 ((List.range 2048).filter fun f => farOwner s f == some p).length).flatten
  crc32c owners + crc32c grans * 2 ^ 32
/-- Surviving constellations of a partition in the home set of a section, in order (R130). -/
def rankMap (s : State) (p sec : Nat) : List Nat :=
  let lost := (s.eph.n1.filter (·.1 == p)).map (·.2.2)
  (getPtn s p).cons.filter fun l => homeQuarter l == sec && !lost.contains l
/-- Partitions among whose constellations an n−1 entry ranks: its own, or, for a class that names none, those whose segment holds it
(R94, R130). -/
def rankPtns (s : State) (sec ent : Nat) (e : Entry) : List Nat :=
  if hasPtn e.cls then [e.ptn] else ((s.eph.n1.filter fun v => inSegment s sec (n1Index s sec ent) v.1 v.2.1).map (·.1)).eraseDups
/-- Logical units of an entry at a level; in an n−1 entry the constellation index is a rank (R41, R130). -/
def entryUnits (s : State) (sec ent : Nat) (e : Entry) (lv : Nat) : List Nat :=
  let us := unitsAt e.uid e.span lv
  if entryIsN1 s sec ent then
    ((rankPtns s sec ent e).map fun p =>
      let rm := rankMap s p sec
      let k := unitsPer 2 lv
      us.filterMap fun u => (rm[uidIndex u / k]?).map fun l => mkUid lv (l * k + uidIndex u % k)).flatten
  else us
/-- The UID of an entry's first unit, by its logical number (R129, R130). -/
def entryUid (s : State) (sec ent : Nat) (e : Entry) : Nat :=
  if entryIsN1 s sec ent then (entryUnits s sec ent e (Nat.min 2 (uidLevel e.uid))).headD e.uid else e.uid
def entryCons (s : State) (sec ent : Nat) (e : Entry) : List Nat :=
  ((entryUnits s sec ent e (Nat.min 2 (uidLevel e.uid))).map uidCon).eraseDups
def entryClusters (s : State) (sec ent : Nat) (e : Entry) : List Nat :=
  ((entryUnits s sec ent e (Nat.min 2 (uidLevel e.uid))).map clustersOf).flatten.eraseDups
/-- The logical stars of an entry's units. -/
def entryStars (s : State) (sec ent : Nat) (e : Entry) : List (Nat × Nat) := (entryUnits s sec ent e (Nat.min 2 (uidLevel e.uid))).map unitStars
/-- Slip with which an entry starts: that of the last barrier that its units passed (R122). -/
def entrySlip (s : State) (sec ent : Nat) (e : Entry) : Nat := slipOver s.eph.slip (entryStars s sec ent e)
/-- An event about an entry's partition, with the entry's unit (R129). -/
def ephEvent (s : State) (p code uid : Nat) (payload : List Nat) : State := raiseBoth s p { cls := 1, code := code, uid := uid, payload := payload }

/-- The bank that is not in force. -/
def otherBank (s : State) : Option Image := if s.eph.active = 0 then s.eph.bank1 else s.eph.bank0
def setOther (s : State) (im : Option Image) : State :=
  s.modEph fun e => if e.active = 0 then { e with bank1 := im } else { e with bank0 := im }
/-- EPH_LOAD_START: ignored while LOADING, unless an abort is written with it, or while a switch is armed (R141). -/
def execEphLoadStart (abort : Bool) (s : State) : Host.Outcome State Fault Refusal :=
  .next (
    let s1 := if abort && s.eph.loadState = 1 then s.modEph fun e => { e with loadState := 3, loadResult := 0xF } else s
    if s1.eph.loadState = 1 || s1.eph.armed || s.boot.nfState != 0 || halted s then s1
    else (setOther s1 none).modEph fun e => { e with loadState := 1, loadResult := 0, loadFault := 0, loadLen := (getReg s 0x100028).toNat })
/-- EPH_LOAD_ABORT (R105, R141). -/
def execEphLoadAbort (s : State) : Host.Outcome State Fault Refusal :=
  .next (if s.eph.loadState = 1 then s.modEph fun e => { e with loadState := 3, loadResult := 0xF } else s)
/-- What the load checks take from the device (R102, R105). -/
def loadCtx (s : State) : LoadCtx :=
  { fprint := fingerprint s, owners := (List.range 150).map (ownerOf s), ns := (List.range 12).map fun n => !stackLost s n,
    fc := s.mem.chans.map fun c => (c.state == 1 || c.state == 2) && (c.dimm0 || c.dimm1), kq := (List.range 16).map (portIsUp s) }
/-- EPH_LOAD_DONE: the image fetched, of EPH_LOAD_LEN bytes, is checked and stands in the other bank, or the load FAILED; fewer bytes are a
failed fetch (R105, R140, R142). -/
def execEphLoadDone (translated completed : Bool) (bytes : List Byte) (models : List Model) (s : State) : Host.Outcome State Fault Refusal :=
  let image := bytes.take s.eph.loadLen
  .next (if s.eph.loadState != 1 then s
    else match loadCheck (loadCtx s) s.ctl.imageKey (translated && completed && s.eph.loadLen ≤ bytes.length) image with
      | (0, _) => (setOther s (some { parseImage image with models := models })).modEph fun e => { e with loadState := 2, loadResult := 0, loadFault := 0 }
      | (res, fault) => s.modEph fun e => { e with loadState := 3, loadResult := res, loadFault := fault })
/-- Cycle number that ARM counts in (R108). -/
def switchBase (s : State) (im : Image) : Nat := if s.eph.running then s.eph.cycle else now s / (4 * im.cycleTicks)
/-- EPH_SWITCH_CYCLE, as it stands when it is looked at (log 76). -/
def switchCycle (s : State) : Nat := (getReg s 0x100040).toNat + fld (getReg s 0x100044) 0 16 * 2 ^ 32
/-- EPH_SWITCH_ARM: the switch is armed, or refused with NOT_LOADED, LATE or CYCLE (R108, R113, R144). -/
def execEphSwitchArm (s : State) : Host.Outcome State Fault Refusal :=
  .next (
    let res (n : Nat) (armed : Bool) : State := s.modEph fun e => { e with switchResult := n, armed := armed }
    match s.eph.loadState, otherBank s with
    | 2, some im =>
      if switchCycle s < switchBase s im + 2 then res 3 s.eph.armed
      else if (match Machine.image s with
          | some old => old.cycleTicks != im.cycleTicks && switchCycle s * old.cycleTicks % im.cycleTicks != 0
          | none => false) then res 8 s.eph.armed
      else res 1 true
    | _, _ => res 4 s.eph.armed)
/-- EPH_SWITCH_DISARM (R144). -/
def execEphSwitchDisarm (s : State) : Host.Outcome State Fault Refusal :=
  .next (if s.eph.armed then s.modEph fun e => { e with armed := false, switchResult := 7 } else s)

/-- Begin the wake of the constellations that carry logical numbers (R74, R116). -/
def wakeCons (s : State) (ls : List Nat) : State := ls.foldl (fun s l => match physOf s l with | some p => beginWake s p | none => s) s
/-- The wake lead of an entry has been reached for constellations; its start or end clears the mark (R1005). -/
def markLeads (s : State) (ls : List Nat) (sec ent : Nat) (wraps : Bool) : State :=
  ls.foldl (fun s l => match physOf s l with | some p => modCon s p fun c => { c with leads := c.leads ++ [(sec, ent, wraps)] } | none => s) s
def clearLeads (s : State) (ls : List Nat) (sec ent : Nat) : State :=
  ls.foldl (fun s l => match physOf s l with | some p => modCon s p fun c => { c with leads := c.leads.filter fun x => !(x.1 == sec && x.2.1 == ent && !x.2.2) } | none => s) s
/-- The eph block as it will be in the next cycle, with the new image when a switch is armed for it (R113, R116). -/
def nextEph (s : State) : Eph :=
  let e := s.eph
  match (if e.armed then otherBank s else none) with
  | none => { e with cycle := e.cycle + 1 }
  | some im =>
    let old := (Machine.image s).map (·.cycleTicks)
    let t := Nat.max 1 im.cycleTicks
    let next := switchBase s im + 1
    if switchCycle s = next then { e with active := 1 - e.active, running := true, cycle := next * old.getD t / t }
    else { e with cycle := e.cycle + 1 }
/-- WAKE_LEAD_REACHED: the units of an entry begin to wake. A lead that wraps belongs to an entry of the
next cycle, of the new image when a switch is armed for it (R116). -/
def execWakeLeadReached (sec ent : Nat) (wraps : Bool) (s : State) : Host.Outcome State Fault Refusal :=
  .next (
    if !wraps then
      match entryNow s sec ent with
      | some e => if isCompute e.cls && e.wakeLead ≤ e.start && !isolated s e.ptn then markLeads (wakeCons s (entryCons s sec ent e)) (entryCons s sec ent e) sec ent false else s
      | none => s
    else
      let s1 := s.modEph fun _ => nextEph s
      match entryNow s1 sec ent with
      | some e => if isCompute e.cls && e.start < e.wakeLead && !isolated s e.ptn then markLeads (wakeCons s (entryCons s1 sec ent e)) (entryCons s1 sec ent e) sec ent true else s
      | none => s)

/-- Entries of the running table, with section and index. -/
def tableOf (s : State) : List (Nat × Nat × Entry) :=
  match image s with
  | none => []
  | some im => ((List.range 6).map fun sec =>
      let sc := im.sections.getD sec {}
      ((sc.primary ++ sc.n1).mapIdx fun i e => (sec, i, e)).filter fun x => (entryNow s sec x.2.1).isSome).flatten
/-- Compute entries of this cycle on some stars that start after a tick, in order of START. -/
def laterEntries (s : State) (us : List (Nat × Nat)) (after : Nat) : List (Nat × Nat × Entry) :=
  sortBy (fun x => x.2.2.start) ((tableOf s).filter fun x => isCompute x.2.2.cls && after ≤ x.2.2.start && meets us (entryStars s x.1 x.2.1 x.2.2))
/-- BARRIER entries of this cycle on some stars with START from one tick to another. -/
def barriersIn (s : State) (us : List (Nat × Nat)) (lo hi : Nat) : List (Nat × Nat × Entry) :=
  (tableOf s).filter fun x => x.2.2.cls == 6 && lo ≤ x.2.2.start && x.2.2.start ≤ hi && meets us (entryStars s x.1 x.2.1 x.2.2)
/-- Set the slip of units; later entries that fall past the end of the cycle are skipped and reported, but not one behind a further barrier,
which sets its slip (R122-R124). -/
def setSlip (s : State) (us : List (Nat × Nat)) (slip after : Nat) : State :=
  let ticks := ((image s).map (·.cycleTicks)).getD 0
  let s1 := s.modEph fun e => { e with slip := us.map (fun u => (u.1, u.2, slip)) ++ e.slip }
  (laterEntries s us after).foldl (fun t x =>
    if ticks ≤ x.2.2.start + entrySlip s1 x.1 x.2.1 x.2.2 && !t.eph.skipped.contains (x.1, x.2.1)
      && (barriersIn s1 (entryStars s1 x.1 x.2.1 x.2.2) (after + 1) x.2.2.start).isEmpty then
      (ephEvent (bumpReg t 0x10006C) x.2.2.ptn 3 (entryUid s x.1 x.2.1 x.2.2) [x.2.1]).modEph fun e => { e with skipped := e.skipped ++ [(x.1, x.2.1)] }
    else t) s1
/-- BARRIER_COMPLETE: the slip of the barrier's units is set; a late barrier is counted, and the largest
slip of the cycle kept for its report (R122, R128). A barrier that completes only in a later cycle is measured with that cycle's ticks
(DESIGN CHOICE, log 89: the spec gives such a barrier no slip). -/
def execBarrierComplete (sec ent : Nat) (s : State) : Host.Outcome State Fault Refusal :=
  .next (match entryNow s sec ent with
    | none => s
    | some e =>
      if e.cls != 6 then s
      else
        let slip := tickNow s - e.start
        let s1 := setSlip s (entryStars s sec ent e) slip e.start
        if slip = 0 then s1
        else
          let s2 := raiseReg (bumpReg s1 0x100064) 0x100068 slip
          s2.modEph fun x => { x with
            worst := match x.worst.find? (·.1 == e.ptn) with
              | some w => if w.2.1 < slip then updIf (·.1 == e.ptn) (fun _ => (e.ptn, slip, e.action % 256)) x.worst else x.worst
              | none => x.worst ++ [(e.ptn, slip, e.action % 256)] })

def findSlot (s : State) (sec ent : Nat) : Option RunSlot := s.eph.slots.find? fun r => r.sec == sec && r.ent == ent
def modSlot (s : State) (sec ent : Nat) (f : RunSlot → RunSlot) : State :=
  s.modEph fun e => { e with slots := updIf (fun r => r.sec == sec && r.ent == ent) f e.slots }
/-- A slot goes; its constellations may rest (R1005). -/
def dropSlot (s : State) (sec ent : Nat) : State :=
  match findSlot s sec ent with
  | none => s
  | some r => restAll (s.modEph fun e => { e with slots := e.slots.filter fun x => !(x.sec == sec && x.ent == ent) }) r.cons
/-- Tasks that run in a slot, and whether one still has an instance. -/
def slotTasks (s : State) (sec ent : Nat) : List Task := s.work.tasks.filter fun t => t.slot == some (sec, ent)
def slotBusy (s : State) (sec ent : Nat) : Bool := (slotTasks s sec ent).any fun t => s.work.insts.any (·.task == t.id)
/-- The work of a slot stops at its next checkpoints and goes back to the front of its wait (R119). -/
def abortSlot (s : State) (sec ent : Nat) : State :=
  let ids := (s.work.insts.filter fun i => (slotTasks s sec ent).any (·.id == i.task)).map (·.id)
  ids.foldl (fun s i => askStop s i stRETRIED) (modSlot s sec ent fun r => { r with aborting := true })
/-- EPH_OVERRUN, counted once (R119). -/
def overrunEvent (s : State) (sec ent : Nat) (e : Entry) (policy ticks : Nat) : State :=
  ephEvent (bumpReg s 0x100060) e.ptn 1 (entryUid s sec ent e) [ent, policy, ticks]
/-- The SLACK that the overrun of an entry may borrow: it is the next compute-class entry on every unit of the entry, of the same partition,
with at most one BARRIER entry between (R119). -/
def slackAfter (s : State) (sec ent : Nat) (e : Entry) : Option (Nat × Nat × Entry) :=
  let us := entryStars s sec ent e
  match (laterEntries s us (e.start + e.length)).head? with
  | none => none
  | some x =>
    if x.2.2.cls == 7 && x.2.2.ptn == e.ptn && ((entryStars s x.1 x.2.1 x.2.2).foldl cutOut us).isEmpty
      && (barriersIn s us (e.start + e.length) x.2.2.start).length ≤ 1 then some x else none
/-- SLOT_OVERRUN: the work borrows the SLACK that follows, or stops (R119). -/
def execSlotOverrun (sec ent : Nat) (s : State) : Host.Outcome State Fault Refusal :=
  .next (match entryNow s sec ent, findSlot s sec ent with
    | some e, some r =>
      if !slotBusy s sec ent || r.aborting || r.borrow.isSome then s
      else
        match (if e.policy = 0 then slackAfter s sec ent e else none) with
        | some (_, i, f) =>
          -- a SLACK that the slip has consumed does not run (R123)
          if e.start + e.length + r.slip < f.start + f.length then modSlot s sec ent fun r => { r with borrow := some i }
          else abortSlot (overrunEvent s sec ent e 1 0) sec ent
        | none => abortSlot (overrunEvent s sec ent e 1 0) sec ent
    | _, _ => s)
/-- BORROW_END: the work has finished within the SLACK, or stops as the SLACK or the cycle ends (R119, R120). -/
def execBorrowEnd (sec ent : Nat) (finished : Bool) (s : State) : Host.Outcome State Fault Refusal :=
  .next (match entryNow s sec ent, findSlot s sec ent with
    | some e, some r =>
      if r.borrow.isNone || r.aborting then s
      else
        let ticks := tickNow s - (e.start + e.length + r.slip)
        let s := r.cons.foldl (fun s l => progCount s l 0x10 ticks) s
        if finished then dropSlot (overrunEvent s sec ent e 0 ticks) sec ent
        else abortSlot (overrunEvent s sec ent e 1 ticks) sec ent
    | _, _ => s)
/-- Each unit of some stars takes as its slip the delay of the first of some entries on it, where that is more than the slip it has
(R121, R122): the entries in their order, with the stars that none has named yet. -/
def delaySlip (s : State) : List (Nat × Nat) → List (Nat × Nat × Entry) → State
  | _, [] => s
  | us, x :: r =>
    let stars := entryStars s x.1 x.2.1 x.2.2
    let mine := starsBelow s.eph.slip ((stars.map (cutIn us)).flatten) (tickNow s - x.2.2.start)
    delaySlip (if mine.isEmpty then s else setSlip s mine (tickNow s - x.2.2.start) x.2.2.start) (stars.foldl cutOut us) r
/-- ABORT_END: the last store is written; the delay of the first entry on each of the units after the abort is its slip, also in the cycle
after the boundary at which the work stopped (R119, R121, R125). The SLACK that the work had borrowed is no entry after it. -/
def execAbortEnd (sec ent : Nat) (s : State) : Host.Outcome State Fault Refusal :=
  .next (
    let sec' := if (findSlot s (sec + 8) ent).isSome then sec + 8 else sec
    match findSlot s sec' ent with
    | none => s
    | some r =>
      if !r.aborting || slotBusy s sec' ent then s
      else
        let from_ := if r.crossed then 0 else (entryAt s sec ent).elim 0 fun e => e.start + e.length
        delaySlip (dropSlot s sec' ent) r.stars ((laterEntries s r.stars from_).filter fun x => r.crossed || !(x.1 == sec && some x.2.1 == r.borrow)))

/-- The AFTER of an entry for a constellation: of the entries that end in one tick, the least deep, also when an earlier end of that tick
has taken it deeper (R1005). A state that still waits for other work keeps the least deep of it and of a later end's AFTER, and an AWAKE
cancels it (DESIGN CHOICE, log 76: the rule speaks of one tick). -/
def noteAfter (s : State) (l after : Nat) : State :=
  let tick := now s / 4
  match physOf s l with
  | none => s
  | some p => tryRest (modCon s p fun c =>
      let together : Bool := (c.endAt.map (·.1)) == some tick
      let d := match c.endAt with | some (_, d) => if together then Nat.min d after else after | none => after
      let back : Bool := together && c.restAt == some tick && !(c.pwr == .deep || c.init)
      { c with
        endAt := some (tick, d), draining := c.draining && !together, pwr := if back then .awake else c.pwr
        after := if c.waking then none else match d, (if together then none else c.after) with
          | 0, _ => none
          | 1, _ => some .doze
          | _, some .doze => some .doze
          | _, _ => some .sleep }) p
/-- An entry no longer runs; its constellations take their AFTER state once nothing else runs there (R101, R1005). -/
def endEntry (sec ent : Nat) (s : State) : State :=
    let s0 := s.modEph fun e => { e with
      held := e.held.filter fun x => !(x.1 == sec && x.2.1 == ent), xfer := e.xfer.filter fun x => !(x.1 == sec && x.2.1 == ent)
      bridge := e.bridge.filter (fun x => !(x.1 == sec && x.2.1 == ent)), pcie := e.pcie.filter fun x => !(x.1 == sec && x.2.1 == ent) }
    match entryNow s0 sec ent with
    | none => s0
    | some e =>
      if !isCompute e.cls then s0
      else
        let keep := match findSlot s0 sec ent with | some r => r.aborting || r.borrow.isSome | none => false
        let s1 := if keep then s0 else s0.modEph fun x => { x with slots := x.slots.filter fun r => !(r.sec == sec && r.ent == ent) }
        (entryCons s sec ent e).foldl (fun s l => noteAfter s l e.after) (clearLeads s1 (entryCons s sec ent e) sec ent)

/-- A partition whose entries run empty (R132, R135, R1007). -/
def runsEmpty (s : State) (p : Nat) : Bool := s.eph.empty.any (·.1 == p)
/-- BRIDGE_ENTRY_START: bridge capacity of CAP_A tiles for the entry's partition until the entry ends, for the tiles that are there now; 0 sets
no limit (R62, R94, R127). -/
def execBridgeEntryStart (sec ent : Nat) (s : State) : Host.Outcome State Fault Refusal :=
  .next (match entryNow s sec ent with
    | some e => if e.cls == 0x0A && !runsEmpty s e.ptn then s.modEph fun x => { x with
        bridge := x.bridge ++ [(sec, ent, e.action % 8, e.ptn, if e.capA = 0 then none else some e.capA, s.work.nextTile)] } else s
    | none => s)
/-- GATE_ENTRY: the port's gate state, until its next GATE entry that runs (R96); while a step cycle is in
progress no gate opens (R666). -/
def execGateEntry (sec ent : Nat) (s : State) : Host.Outcome State Fault Refusal :=
  .next (match entryNow s sec ent with
    | some e => if e.cls == 0x1A then s.modEph fun x => { x with gates := sput x.gates (bits e.action 8 5) (bits e.action 0 8) } else s
    | none => s)
/-- Gate states that an image gives at the start of a cycle, with the segments that run across the switch (R97, R134). -/
def gatesAt (im : Image) (n1 : List (Nat × Nat × Nat)) (k : Nat) : List (Nat × Nat) :=
  (List.range 16).filterMap fun port =>
    let gs := gateEntries (im.sections.getD (if port < 8 then 4 else 5) {}) n1 port
    if gs.isEmpty then none else (gateAt gs k 0 (2 ^ 15 + 1)).map (port, ·)

end Sys2Proof.Machine
end

