-- ==== Sys2Proof/Machine/Seq.lean ====
section
/-! DEFINITION. The cluster sequencer (R177-R187): issue, repeats, the instructions, tile transfers,
checkpoints. A command names the instance; its instruction is the word that the program of the image in
force holds at the address the instance has reached. -/

namespace Sys2Proof.Machine
open Sys2Proof

/-- End an instance by a fault of its own: loads are discarded, issued stores complete first (R180, R416). -/
def failInst (s : State) (iid st detail : Nat) : State :=
  match findInst s iid with
  | none => s
  | some i =>
    let stores := i.tiles.filter fun t => !t.load
    if stores.isEmpty then endInst s iid st detail
    else modInst s iid fun i => { i with tiles := stores, stop := some st, detail := detail, ending := true, wait := none, sync := none }
/-- DETAIL of a faulting instruction (R171). -/
def pcDetail (pc : Nat) : Nat := 0x80000000 + pc / 16
def insDetail (i : Inst) : Nat := pcDetail i.pc
/-- DETAIL of an instance that ends with a status for its instruction: only ACCESS and FORMAT carry one (R171). -/
def faultDetail (st pc : Nat) : Nat := if st = stFORMAT || st = stACCESS then pcDetail pc else 0
/-- Fields that every opcode checks: reserved bits, formats, SPEC and the repeat count (R177, R179, R180, R192). -/
def commonOk (i : Inst) (x : Ins) : Bool :=
  !x.resv && x.fa < 0xE && x.fb < 0xE && x.fd < 0xE && specOk x && int32Ok x && (executions i x).isSome

/-- An instance whose sequencer can issue opcode `opc` now: bound, awake, not stalled or ending, and
WAITALL met (R79, R177, R181, R183). -/
def ready (s : State) (iid opc : Nat) : Option (Inst × Task × Ins) :=
  match findInst s iid with
  | none => none
  | some i =>
    match taskOf s i with
    | none => none
    | some t =>
      let x := insAt s i
      if i.ending || stalled i || !canIssue (getCon s (instPhys s i)) || s.ras.replays.any (fun r => r.l == uidCon i.uid) || (image s).isNone || x.opc != opc
        || (x.waitall && i.execs = 0 && !i.tiles.isEmpty) then none
      else some (i, t, x)
/-- First issue: the instance has started and its task is RUNNING (R162). -/
def markStart (s : State) (i : Inst) (t : Task) : State :=
  let s1 := modInst s i.id fun j => { j with started := true, issueAt := if j.started then j.issueAt else now s }
  let s2 := if t.state = .running then s1 else modTask s1 t.id fun t => { t with state := .running, issued := true, ranFrom := now s }
  match t.request with | some h => modReq s2 h fun r => { r with dispatched := true } | none => s2
/-- Result of one execution: a state, and a status when the instance must end. -/
abbrev Exec := State × Option Nat
def execOk (s : State) : Exec := (s, none)
def execFail (s : State) (st : Nat) : Exec := (s, some st)
/-- Run the executions of an instruction in sequence (R177). -/
def runExecs (f : Nat → State → Exec) : Nat → Nat → State → Exec
  | 0, _, s => (s, none)
  | n + 1, k, s => match f k s with
    | (s', none) => runExecs f n (k + 1) s'
    | e => e
/-- An SRAM operand of `n` lines of one execution (R178); an INC bit moves it on. -/
def opKey (s : State) (i : Inst) (t : Task) (x : Ins) (which n k : Nat) : Option Nat :=
  let spec := if which = 0 then x.dst else if which = 1 then x.srca else x.srcb
  operandKey s i t.ptn (advance x which spec n k) n
/-- Operands of one execution of an instruction as they stand when it is reached: 0 DST, 1 SRCA, 2 SRCB, with their lines. -/
abbrev Extents := State → Inst → Task → Ins → Nat → List (Nat × Nat)
/-- No line index of any execution lies beyond its space (R180). -/
def extentsOk (s : State) (i : Inst) (t : Task) (x : Ins) (ops : Nat → List (Nat × Nat)) : Bool :=
  (List.range ((executions i x).getD 1)).all fun e => (ops e).all fun o => (opKey s i t x o.1 o.2 e).isSome
/-- An instance that has been asked to stop and now stands at a checkpoint stops (R185, R187). -/
def stopHere (s : State) (iid : Nat) : State :=
  match findInst s iid with
  | none => s
  | some i => match i.stop with
    | some st => if !i.ending && atStall s i then stopInst s iid st else s
    | none => s
/-- Issue an instruction: check it whole, execute it, go to the next (R162, R180). -/
def issue (s : State) (iid opc : Nat) (ok : Inst → Task → Ins → Bool) (ops : Extents) (f : Inst → Task → Ins → Nat → State → Exec) : State :=
  match ready s iid opc with
  | none => s
  | some (i, t, x) =>
    if !(commonOk i x && ok i t x && extentsOk s i t x (ops s i t x)) then failInst s iid stFORMAT (insDetail i)
    else
      match runExecs (f i t x) ((executions i x).getD 1) 0 (markStart s i t) with
      | (s', some st) => failInst s' iid st (faultDetail st i.pc)
      | (s', none) =>
        let s1 := modInst s' iid fun j => { j with pc := i.pc + 16, issued := j.issued + 1 }
        -- a SYNC or WAIT that stalls retires when it completes
        stopHere (if (findInst s1 iid).any stalled then s1 else retire s1 i t opc) iid
/-- A SYNC or WAIT of an instance completes and retires (R176, R181, R183). -/
def unstall (s : State) (iid : Nat) : State :=
  match findInst s iid with
  | none => s
  | some i =>
    let s1 := modInst s iid fun j => { j with sync := none, wait := none, issued := 0 }
    match taskOf s1 i with
    | some t => retire s1 i t (if i.sync.isSome then 0x51 else 0x52)
    | none => s1
/-- The operands of an instruction without any in SRAM. -/
def noOps : Extents := fun _ _ _ _ _ => []
/-- What a store to SRAM does beside its bytes: residency tags of frames written other than by a whole-frame load are cleared (R439),
accumulators kept for a destination that is written otherwise are dropped (R204), mirrors are written (R264-R266). -/
def clearTags (s : State) (key n : Nat) : State :=
  (mirrorStore s key n).modWork fun w => { w with
    tags := w.tags.filter fun e => !(key / 4096 ≤ e.1 && e.1 ≤ (key + n - 1) / 4096)
    insts := updIf (fun i => !i.acc.isEmpty) (fun i => { i with
      acc := i.acc.filter fun a => key + n ≤ a.1 || a.1 + operandBytes a.2.1 1024 ≤ key }) w.insts }
/-- Write a result. -/
def putOp (s : State) (key : Nat) (bs : List Byte) : State := clearTags (sramWrite s key bs) key bs.length

/-- FP32 accumulators that stand at a destination: kept from the last product, or read from it (R204). -/
def heldAcc (s : State) (i : Inst) (f key : Nat) : Option (List Nat) :=
  match (((findInst s i.id).map (·.acc)).getD []).find? fun a => a.1 == key && a.2.1 == f with
  | some a => some a.2.2
  | none => (readVals s f key 1024).map (·.map w32)
/-- Accumulators that a product starts from: zero, or with ACC those of the destination (R177, R204). -/
def accOf (s : State) (i : Inst) (x : Ins) (key : Nat) : Option (List Nat) := if !x.acc then some (List.replicate 1024 0) else heldAcc s i x.fd key
/-- Keep the accumulators and write the converted result. -/
def putAcc (s : State) (i : Inst) (x : Ins) (key : Nat) (acc : List Nat) : State :=
  modInst (putOp s key (writeNums x.fd none (acc.map r32))) i.id fun j => { j with acc := (j.acc.filter (·.1 != key)) ++ [(key, x.fd, acc)] }
/-- Results of an elementwise instruction or a reduction: with ACC they are added in FP32 to the values of the destination (R177; DEDUCED,
log 73). The instructions that write no numbers there, or that say themselves what they add (LDT, QNT, ENC, SMAX, PV, MRG), overwrite
(DESIGN CHOICE, log 89). None when the destination is poisoned. -/
def accAdd (s : State) (x : Ins) (key : Nat) (out : List Num) : Option (List Num) :=
  if !x.acc then some out
  else (readVals s x.fd key out.length).map fun old =>
    -- a floating result is converted first (R207); INT32 sums wrap (R192)
    if x.fd == 0xD then List.zipWith (fun a b => numInt (toInt 32 (ofInt 32 (mantAt 0 a + toInt 32 (writeElem 0xD none b))))) old out
    else List.zipWith (fun a b => r32 (add32 (w32 a) (w32 b))) old out
/-- What a token output writes at `key`: the token and its index, with ACC added to the INT32 words that stand there (R177, R192). None when those
are poisoned. -/
def tokenOut (s : State) (x : Ins) (key tok ix : Nat) : Option (List Byte) :=
  if !x.acc then some (leBytes 4 tok ++ leBytes 4 ix)
  else (readOp s key 8).map fun b => leBytes 4 (leAt b 0 4 + tok) ++ leBytes 4 (leAt b 4 4 + ix)
/-- What MOV of `n` lines writes, bytes and poison: the source lines, or with ACC their elements of FMT_D added to those of the destination
(R177, R192). A block format has no elements in single lines, and its lines are copied (DESIGN CHOICE, log 89). None when an operand of the sum is
poisoned. -/
def movOut (s : State) (x : Ins) (ka kd n : Nat) : Option (List Byte × List Nat) :=
  if !x.acc || isMx x.fd || isKvq x.fd then some (sramRead s ka (n * 64), sramPoison s ka (n * 64))
  else (readVals s x.fd ka (n * 512 / elemBits x.fd)).bind fun v => (accAdd s x kd v).map fun out => (writeNums x.fd none out, [])

/-- K elements of one execution of a matrix instruction, a multiple of 32 for every pair but FP32 with FP32 (R199, R201). -/
def kOf (x : Ins) (steps : Nat) : Nat := steps * kStep x.fa x.fb
def kOk (x : Ins) (k : Nat) : Bool := x.spec 103 7 != 0 && (x.fa == 0 || k % 32 == 0)
/-- Lines of one operand of a product: in a KVQ form rows lie `st` blocks apart, and a packed operand is bounded by its page (R312). -/
def matLines (f width k st : Nat) : Nat :=
  if f == 0xC then 0 else if f == 0xB then slotLines (kvqBits width) (31 * st + k / 32) else fmtLines f (32 * k)
/-- Values of one operand of a product: 32 rows of `k` elements (R194, R278, R312). -/
def matVals (s : State) (p f width key k st skip : Nat) : Except Bool (List Num) :=
  if isKvq f then kvqVals s p f width key 32 k st (if f == 0xC then skip else 0)
  else match readVals s f key (32 * k) with | some v => .ok v | none => .error false
/-- An operand that could not be read ends the instance with POISON; a stream fault of a packed page is reported as one (R314). -/
def readFail (s : State) (p key : Nat) (v : Except Bool (List Num)) : Exec :=
  match v, pageOfFrame s p key with
  | .error true, some g => execFail (streamFault s g) stPOISON
  | _, _ => execFail s stPOISON
/-- One execution of MMA or MMAQ, whose KVQ operand has a width (R198-R204, R311, R314). -/
def matExec (width : Nat) (i : Inst) (t : Task) (x : Ins) (e : Nat) (s : State) : Exec :=
  let k := kOf x (x.spec 103 7)
  let st := rowBlocks (reqOf s i) k
  let skip (which : Nat) : Nat := if bit x.inc which then e * (31 * st + k / 32) else 0
  let ln (f : Nat) : Nat := matLines f width k st
  match opKey s i t x 1 (ln x.fa) e, opKey s i t x 2 (ln x.fb) e, opKey s i t x 0 (fmtLines x.fd 1024) e with
  | some ka, some kb, some kd =>
    match matVals s t.ptn x.fa width ka k st (skip 1), matVals s t.ptn x.fb width kb k st (skip 2), accOf s i x kd with
    | .ok a, .ok b, some c =>
      let s1 := countMac (putAcc s i x kd (matMul (x.fa == 0) k a b c)) i t.ptn x.fa x.fb k (ln x.fa + ln x.fb + fmtLines x.fd 1024)
      let fq := if isKvq x.fa then x.fa else x.fb
      execOk (progCount (countDecode s1 i t.ptn fq (32 * k)) (uidCon i.uid) 5 (rawBlocks s t.ptn fq width (if isKvq x.fa then ka else kb) (rowNeed 32 k st (if isKvq x.fa then skip 1 else skip 2))))
    | .error e, _, _ => readFail s t.ptn ka (.error e)
    | _, b, _ => readFail s t.ptn kb b
  | _, _, _ => execFail s stFORMAT
/-- Extents of the operands of a product. -/
def matOps (width : Nat) : Extents := fun s i _ x _ =>
  let k := kOf x (x.spec 103 7)
  let st := rowBlocks (reqOf s i) k
  [(1, matLines x.fa width k st), (2, matLines x.fb width k st), (0, fmtLines x.fd 1024)]
/-- Width of the KVQ operand of an instruction whose SPEC names none: that of the request's pages (DEDUCED, log 73). -/
def reqWidth (s : State) (inst : Nat) : Nat := (((findInst s inst).bind (reqOf s)).map (·.widthCode)).getD 1
/-- Formats and elements of the operands of a product, for NOSPLIT. -/
def matSplit (x : Ins) : Bool := let k := kOf x (x.spec 103 7); splitOk x [(x.fa, 32 * k), (x.fb, 32 * k), (x.fd, 1024)]

/-- INSTR_MMA (R198-R204). -/
def execInstrMma (inst : Nat) (s : State) : Host.Outcome State Fault Refusal :=
  .next (issue s inst 0x10 (fun _ _ x => pairOk x.fa x.fb && matrixDst x.fd && kOk x (kOf x (x.spec 103 7)) && matSplit x)
    (matOps (reqWidth s inst)) (matExec (reqWidth s inst)))

/-- INSTR_MMAQ: one operand in a KVQ form (R184, R198, R311). -/
def execInstrMmaq (inst : Nat) (s : State) : Host.Outcome State Fault Refusal :=
  let w := ((ready s inst 0x11).map fun r => r.2.2.spec 110 3).getD 0
  .next (issue s inst 0x11
    (fun _ _ x => kvqPair x.fa x.fb && matrixDst x.fd && kvqBits (x.spec 110 3) != 0 && kOk x (kOf x (x.spec 103 7)) && matSplit x)
    (matOps w) (matExec w))

/-- Elements per rotated row and the distance between rows of a rotation record (R332). -/
def ropeDims (tab : List Byte) : Nat := leAt tab 0 2
def ropeStride (tab : List Byte) : Nat := if leAt tab 6 2 = 0 then ropeDims tab else leAt tab 6 2
/-- Elements that ROPE reads, and elements per row that it writes, padded to whole blocks (R333). -/
def ropeElems (tab : List Byte) : Nat := 31 * ropeStride tab + ropeDims tab
def ropeOut (tab : List Byte) : Nat := (ropeDims tab + 31) / 32 * 32
/-- A rotation record outside the ranges of R332. -/
def ropeBad (tab : List Byte) : Bool :=
  let dims := ropeDims tab
  let rot := leAt tab 2 2
  dims < 16 || 256 < dims || dims % 16 != 0 || rot % 2 != 0 || rot < 2 || dims < rot || 1 < leAt tab 4 1 || leAt tab 5 1 != 0 || leAt tab 12 4 != 0
/-- The 32 rows that ROPE writes: each valid row rotated by its position, the rest zero (R333). -/
def ropeRows (tab : List Byte) (tr : TileRec) (v : List Nat) : List Nat :=
  ((List.range 32).map fun r =>
    if tr.kvalid ≤ r then List.replicate (ropeOut tab) 0
    else
      rotate (ropeDims tab) (leAt tab 2 2) (leAt tab 4 1 == 1) (leAt tab 8 4) (fun j => leAt tab (16 + 4 * j) 4) (tr.kpos + (if tr.rstep then r else 0))
        ((v.drop (r * ropeStride tab)).take (ropeDims tab)) ++ List.replicate (ropeOut tab - ropeDims tab) 0).flatten
/-- The rotation record that ROPE names (R332), and the lines of its source operand. -/
def ropeTab (s : State) (x : Ins) : List Byte := progAt s (0x40000 + 1024 * x.spec 103 11) 1024
def ropeLines (s : State) (i : Inst) (x : Ins) : Nat :=
  let n := ropeElems (ropeTab s x)
  if x.fa == 0xC then 0 else if x.fa == 0xB then slotLines (kvqBits (((reqOf s i).map (·.widthCode)).getD 1)) ((n + 31) / 32) else fmtLines x.fa n
/-- INSTR_ROPE (R332, R333). -/
def execInstrRope (inst : Nat) (s : State) : Host.Outcome State Fault Refusal :=
  .next (issue s inst 0x20 (fun _ _ x => (x.fa ≤ 0xC) && x.fd == 1 && !ropeBad (ropeTab s x) && splitOk x [(x.fa, ropeElems (ropeTab s x))])
    (fun s i _ x _ => [(1, ropeLines s i x), (2, 1), (0, fmtLines 1 (32 * ropeOut (ropeTab s x)))])
    fun i t x e s =>
      let tab := ropeTab s x
      let n := ropeElems tab
      let w := ((reqOf s i).map (·.widthCode)).getD 1
      let nb := (n + 31) / 32
      let la := ropeLines s i x
      match opKey s i t x 1 la e, opKey s i t x 2 1 e, opKey s i t x 0 (fmtLines 1 (32 * ropeOut tab)) e with
      | some ka, some kt, some kd =>
        let vals : Except Bool (List Num) := if isKvq x.fa then kvqVals s t.ptn x.fa w ka 1 (nb * 32) nb (if x.fa == 0xC && bit x.inc 1 then e * nb else 0) else match readVals s x.fa ka n with | some v => .ok v | none => .error false
        match vals, readOp s kt 64 with
        | .ok v, some tb =>
          match accAdd s x kd ((ropeRows tab (parseTile tb) (v.map w32)).map r32) with
          | some out => execOk (chargeLines (countDecode (putOp s kd (writeNums 1 none out)) i t.ptn x.fa (32 * ropeDims tab)) i t.ptn
              (la + 1 + fmtLines 1 (32 * ropeOut tab)))
          | none => execFail s stPOISON
        | v, _ => readFail s t.ptn ka v
      | _, _, _ => execFail s stFORMAT)

/-- A parameter record, or a tile record with a bitmap mask, outside the ranges of R323 to R326. -/
def smaxBad (x : Ins) (pr : List Byte) (tr : TileRec) : Bool :=
  let px := leNat pr
  let mask := x.spec 103 3
  let cap := leAt pr 4 4
  (bit x.word 106 && !(lt32 0 cap && !isNan32 cap && cap != posInf)) || ((mask == 2 || mask == 3) && bits px 96 24 == 0) || bits px 120 8 != 0 || bits px 168 24 != 0
    || bits px 225 287 != 0 || (mask == 5 && (!tr.bitmapOn || (tr.qstep && tr.qpos % 32 != 0)))
/-- What SMAX computes from its records, scores, bitmap and row state: the tile of weights, the new maxima and sums (R324-R328). -/
def smaxTile (s : State) (x : Ins) (pr : List Byte) (tr : TileRec) (sc bm st : List Byte) : List Byte × List Nat × List Nat :=
  softmaxTile tr ((List.range 1024).map fun j => leAt sc (4 * j) 4) (leAt pr 0 4) (leAt pr 4 4) (leAt pr 8 4) (bits (leNat pr) 96 24)
    (bit x.word 106) (bit x.word 107) (bit x.word 108) (x.spec 103 3) (fun h => leNat (progAt s (bits (leNat pr) 128 40 + 4 * h) 4)) bm
    ((List.range 32).map fun j => leAt st (4 * j) 4) ((List.range 32).map fun j => leAt st (128 + 4 * j) 4)
/-- The bytes of its bitmap row that a tile needs (R324, R326): those of its first and last key; no other mask reads any. -/
def smaxBits (s : State) (i : Inst) (x : Ins) (tr : TileRec) : Option (List Byte) :=
  if x.spec 103 3 = 5 then readOp s (scratchKey (instPhys s i) (instCluster i) (tr.bitmap * 64) + tr.kpos / 256) 2 else some []
/-- The row state that SMAX reads; with FIRST it reads none (R327). -/
def smaxOld (s : State) (x : Ins) (rs : Nat) : Option (List Byte) := if bit x.word 108 then some (leBytes 256 0) else readOp s rs 256
/-- INSTR_SMAX (R323-R328, R330, R331). -/
def execInstrSmax (inst : Nat) (s : State) : Host.Outcome State Fault Refusal :=
  .next (issue s inst 0x21 (fun _ _ x => x.fa == 0 && x.spec 103 3 < 6) (fun _ _ _ _ _ => [(1, 64), (2, 1), (0, 35)])
    fun i t x e s =>
      let pr := progAt s (64 * x.spec 109 12) 64
      match opKey s i t x 1 64 e, opKey s i t x 2 1 e, opKey s i t x 0 35 e with
      | some ka, some kt, some kd =>
        match readOp s ka 4096, readOp s kt 64 with
        | some sc, some tb =>
          let tr := parseTile tb
          if smaxBad x pr tr || 65536 < tr.rowState + 4 || (x.spec 103 3 = 5 && 65536 * 64 < tr.bitmap * 64 + tr.kpos / 256 + 2) then execFail s stFORMAT
          else
            let rs := scratchKey (instPhys s i) (instCluster i) (tr.rowState * 64)
            match smaxBits s i x tr, smaxOld s x rs with
            | some bm, some st =>
              let r := smaxTile s x pr tr sc bm st
              let s1 := putOp (putOp s kd r.1) rs ((r.2.1.map (leBytes 4)).flatten ++ (r.2.2.map (leBytes 4)).flatten)
              execOk (chargeLines (activity (progCount s1 (uidCon i.uid) 1 1) i t.ptn 4 1024) i t.ptn (64 + 1 + 35 + 8))
            | _, _ => execFail s stPOISON
        | _, _ => execFail s stPOISON
      | _, _, _ => execFail s stFORMAT)

/-- KSTEPS of PV: bit 108 of its field is FIRST, so KSTEPS is the other six (R181; DEDUCED, log 73). Its extent must be the tile's 32 tokens,
which are all that R329 sums; R201 alone would admit a multiple (DESIGN CHOICE, log 89). -/
def pvSteps (x : Ins) : Nat := x.spec 103 5 + 64 * x.spec 109 1
/-- Lines of PV's value operand. -/
def pvLines (s : State) (i : Inst) (x : Ins) : Nat := matLines x.fb (((reqOf s i).map (·.widthCode)).getD 1) 32 (rowBlocks (reqOf s i) 32)
/-- INSTR_PV: the probabilities of a footprint times the values of the tile's 32 tokens (R201, R204, R329). -/
def execInstrPv (inst : Nat) (s : State) : Host.Outcome State Fault Refusal :=
  .next (issue s inst 0x22
    (fun _ _ x => x.fa == 1 && (isHalf x.fb || isKvq x.fb) && matrixDst x.fd && pvSteps x * kStep x.fa x.fb == 32 && splitOk x [(x.fd, 1024)])
    (fun s i _ x _ => [(1, 35), (2, pvLines s i x), (0, fmtLines x.fd 1024)])
    fun i t x e s =>
      let w := ((reqOf s i).map (·.widthCode)).getD 1
      let st := rowBlocks (reqOf s i) 32
      let lb := pvLines s i x
      let first := bit x.word 108
      match opKey s i t x 1 35 e, opKey s i t x 2 lb e, opKey s i t x 0 (fmtLines x.fd 1024) e with
      | some ka, some kb, some kd =>
        match readOp s ka 2240, matVals s t.ptn x.fb w kb 32 st (if bit x.inc 2 then e * (31 * st + 1) else 0), (if first then some [] else heldAcc s i x.fd kd) with
        | some foot, .ok v, some o =>
          let s1 := countMac (putAcc s i x kd (pvTile foot v first o)) i t.ptn x.fa x.fb 32 (35 + lb + 2 * fmtLines x.fd 1024)
          execOk (progCount (countDecode s1 i t.ptn x.fb 1024) (uidCon i.uid) 5 (rawBlocks s t.ptn x.fb w kb (rowNeed 32 32 st (if bit x.inc 2 then e * (31 * st + 1) else 0))))
        | _, v, _ => readFail s t.ptn kb v
      | _, _, _ => execFail s stFORMAT)

/-- Extents of MRG's sources and result, as the headers give them. -/
def mrgOps : Extents := fun s i t x e =>
  let hdr (which : Nat) : PartialHdr := parsePartial (((opKey s i t x which 1 e).map fun k => sramRead s k 64).getD [])
  [(1, lines (hdr 1).bytes), (2, lines (hdr 2).bytes),
   (0, if bit x.word 103 then fmtLines x.fd ((hdr 1).lanes * (hdr 1).dimO) else lines { hdr 1 with bf16_ := t.bf16.getD (hdr 1).bf16_ }.bytes)]
/-- INSTR_MRG (R341, R343). -/
def execInstrMrg (inst : Nat) (s : State) : Host.Outcome State Fault Refusal :=
  .next (issue s inst 0x23 (fun _ _ x => x.fd ≤ 0xA) mrgOps
    fun i t x e s =>
      match opKey s i t x 1 1 e, opKey s i t x 2 1 e with
      | some ka0, some kb0 =>
        let n := (parsePartial (sramRead s ka0 64)).bytes
        let m := (parsePartial (sramRead s kb0 64)).bytes
        match opKey s i t x 1 (lines n) e, opKey s i t x 2 (lines m) e with
        | some ka, some kb =>
          match readOp s ka n, readOp s kb m with
          | some a, some b =>
            match mergePartials a b with
            | none => execFail s stFORMAT
            | some (h0, ls) =>
              -- the rounding of its nodes is that under which the task was dispatched (R340)
              let h := { h0 with bf16_ := t.bf16.getD h0.bf16_ }
              let out := if bit x.word 103 then writeNums x.fd none ((ls.map finalise).flatten) else writePartial h ls
              match opKey s i t x 0 (lines out.length) e with
              | some kd => execOk (chargeLines (progCount (putOp s kd out) (uidCon i.uid) 2 ls.length) i t.ptn (lines n + lines m + lines out.length))
              | none => execFail s stFORMAT
          | _, _ => execFail s stPOISON
        | _, _ => execFail s stFORMAT
      | _, _ => execFail s stFORMAT)

/-- INSTR_QNT: quantises `n` elements into slot form; with HIST the tensor's histogram counts (R275, R298, R302). -/
def execInstrQnt (inst n : Nat) (s : State) : Host.Outcome State Fault Refusal :=
  .next (
    let run (s : State) : State := issue s inst 0x30
      (fun _ _ x => plainFmt x.fa && x.fd == 0xB && kvqBits (x.spec 103 3) != 0 && n % 32 == 0 && splitOk x [(x.fa, n)])
      (fun _ _ _ x _ => [(1, fmtLines x.fa n), (0, slotLines (kvqBits (x.spec 103 3)) (n / 32))])
      fun i t x e s =>
        let w := x.spec 103 3
        let wb := kvqBits w
        match opKey s i t x 1 (fmtLines x.fa n) e, opKey s i t x 0 (slotLines wb (n / 32)) e with
        | some ka, some kd =>
          match readVals s x.fa ka n with
          | none => execFail s stPOISON
          | some v =>
            let bl := (chunks 32 v).map (quantBlock wb)
            let s1 := chargeLines (progCount (putOp s kd ((bl.map (writeSlot wb)).flatten)) (uidCon i.uid) 6 (n / 64)) i t.ptn (fmtLines x.fa n + slotLines wb (n / 32))
            execOk (match bit x.word 106, reqOf s i with
              | true, some r =>
                let c := if r.latent then 0 else ((findInst s inst).map (·.qnts)).getD 0 % 2
                countHist s1 t.ptn r.model t.layer (compNum r.latent c) w bl
              | _, _ => s1)
        | _, _ => execFail s stFORMAT
    let before := (ready s inst 0x30).isSome
    let hist := match ready s inst 0x30 with | some (_, _, x) => bit x.word 106 | none => false
    let s1 := run s
    -- a repeated instruction is one issue (R298)
    if before && hist then modInst s1 inst fun i => { i with qnts := i.qnts + 1 } else s1)

/-- The table that ENC names (R299): none for FORMAT; `some none` when the tensor has no table. A seal that began before the mode of the
table build changed keeps the table that was current then (R25). -/
def encTable (s : State) (t : Task) (model layer comp width field : Nat) : Option (Option KvTable) :=
  let p := t.ptn
  if field = 0xFFF then some ((currentTab s p model layer comp).orElse fun _ =>
    (t.tabs.filterMap (findTab s)).find? fun x => x.model == model && x.layer == layer && x.comp == comp)
  else match findTab s field with
    | some t => if t.ptn == p && t.model == model && t.layer == layer && t.comp == comp && t.width == width && t.state != .building then some (some t) else none
    | none => none
/-- The page whose record takes TABLE and PACKED_LEN of an ENC (R300): the one that the task seals, or sealed last; for another task of a request
that of the request in SEALING at its layer, else its last sealed one (DESIGN CHOICE, log 90). -/
def encPage (s : State) (t : Task) (r : Req) : Option Nat :=
  (t.page.map (·.1)).orElse fun _ => t.sealed.getLast?.orElse fun _ => ((sealingPageOf s r t.layer).map (·.num)).orElse fun _ =>
    ((sortBy (·.position) ((pagesOfLayer s r t.layer).filter (·.state == .sealed))).getLast?).map (·.num)
/-- Extents of ENC's sources; its result is as long as the packed bytes. -/
def encOps : Extents := fun s i _ _ _ => match reqOf s i with
  | none => []
  | some r =>
    let g := r.geo
    let c := if g.latent then 0 else i.encs % 2
    (1, slotLines (kvqBits g.width) (g.p * (if c = 0 then g.d0 else g.d1) / 32)) :: if g.latent && g.d1 != 0 then [(2, lines (bf16Comp g g.d1))] else []
/-- INSTR_ENC: packs the slot blocks of a component; the page is complete after its last component (R286, R287, R298-R301). -/
def execInstrEnc (inst : Nat) (s : State) : Host.Outcome State Fault Refusal :=
  .next (
    let one := (ready s inst 0x31).isSome
    let s1 := issue s inst 0x31 (fun _ _ x => x.fa == 0xB && x.fd == 0xC) encOps <| fun i t x e s =>
      match reqOf s i with
      | none => execFail s stFORMAT
      | some r =>
        let g := r.geo
        let nb := kvqBits g.width
        let c := if g.latent then 0 else i.encs % 2
        match encTable s t r.model t.layer (compNum g.latent c) g.width (x.spec 103 12) with
        | none => execFail s stFORMAT
        | some tab =>
          let d := if c = 0 then g.d0 else g.d1
          let total := g.p * d / 32
          match opKey s i t x 1 (slotLines nb total) e, (if g.latent && g.d1 != 0 then opKey s i t x 2 (lines (bf16Comp g g.d1)) e else some 0) with
          | some ka, some kb =>
            match readOp s ka (total * slotBlockBytes nb), (if g.latent && g.d1 != 0 then readOp s kb (bf16Comp g g.d1) else some []) with
            | some bs, some pos =>
              let codes := tab.map fun t => assignCodes t.lengths
              let comp := encComponent nb codes ((List.range total).map fun b => readSlot nb bs (b * slotBlockBytes nb))
              let c0 := if c = 0 then comp else (i.packed)
              let c1 := if g.latent then pos else if c = 0 then [] else comp
              let page := codedPage g c0 c1
              let done := g.latent || c = 1
              -- a page that R287 makes escape-only is stored in slot form
              let plain : Bool := done && escapeOnly g c0 c1 page
              let slot := padTo (slotTilesOf g * 4096) (padTo (alignLine (slotComp g g.d0)) (if c = 0 then bs else i.slot0) ++ if g.latent then pos else if c = 0 then [] else bs)
              let o1 := 16 + align16 c0.length
              match opKey s i t x 0 (if plain then slotTilesOf g * 64 else lines page.length) e with
              | none => execFail s stFORMAT
              | some kd =>
                -- component 0 writes header and groups, component 1 its own groups and C1_OFFSET into the page at its DST (R301; log 90)
                let out := if plain then putOp s kd slot
                  else if g.latent then putOp s kd page
                  else if c = 0 then putOp s kd (bytesAt page 0 4 ++ leBytes 4 0 ++ page.drop 8)
                  else putOp (putOp s (kd + 4) (leBytes 4 o1)) (kd + o1) (page.drop o1)
                let s0 := chargeLines (progCount out (uidCon i.uid) 7 total) i t.ptn (slotLines nb total + lines page.length)
                let s1 := modInst s0 inst fun j => { j with packed := if c = 0 then comp else j.packed, slot0 := if c = 0 then bs else j.slot0 }
                -- TABLE is that of component 0; its references stand once the copy is whole (R295, R300, R301)
                let len := if plain then 0 else page.length / 64
                let num := encPage s1 t r
                let table0 := match num.bind (findPage s1 t.ptn), c with | some p, 1 => p.table | _, _ => (tab.map (·.num)).getD noTable
                let s2 := match num with
                  | some n => modPage s1 t.ptn n fun p => { p with table := table0, packedLen := if done then len else p.packedLen }
                  | none => s1
                let refs := if done && len != 0 && e == 0 then (if g.latent then [table0] else [table0, table0 + 1]).filter (· < noTable) else []
                execOk (modTask (refs.foldl (fun s n => tabRef s n true) s2) t.id fun t => { t with packs := t.packs ++ refs })
            | _, _ => execFail s stPOISON
          | _, _ => execFail s stFORMAT
    -- a repeated instruction is one issue (R298)
    if one then modInst s1 inst fun i => { i with encs := i.encs + 1 } else s1)

/-- Value of one reduced operand (R192, R205). -/
def reduce (f op : Nat) (v : List Num) (codes : List Nat) : Num :=
  if f == 0xD then
    let l := codes.map (toInt 32)
    if op = 0 then numInt (toInt 32 (ofInt 32 (l.foldl (· + ·) 0)))
    else if op = 1 then numInt (l.tail.foldl (fun a b => if a < b then b else a) (l.headD 0))
    else numInt (l.tail.foldl (fun a b => if b < a then b else a) (l.headD 0))
  else if op = 0 then r32 (addBlocks 0 v)
  else
    let l := v.map w32
    r32 (l.tail.foldl (if op = 1 then max32 else min32) (l.headD nan32))
/-- INSTR_RED over `n` elements (R205). -/
def execInstrRed (inst n : Nat) (s : State) : Host.Outcome State Fault Refusal :=
  .next (issue s inst 0x40 (fun _ _ x => anyFmt x.fa && anyFmt x.fd && x.spec 103 2 < 3 && n != 0 && splitOk x [(x.fa, n)])
    (fun _ _ _ x _ => [(1, fmtLines x.fa n), (0, fmtLines x.fd 1)])
    fun i t x e s =>
      match opKey s i t x 1 (fmtLines x.fa n) e, opKey s i t x 0 (fmtLines x.fd 1) e with
      | some ka, some kd =>
        match readOp s ka (operandBytes x.fa n) with
        | some bs =>
          match accAdd s x kd [reduce x.fa (x.spec 103 2) (readNums x.fa n bs) ((List.range n).map fun j => leAt bs (4 * j) 4)] with
          | some out => execOk (chargeLines (putOp s kd (writeNums x.fd none out)) i t.ptn (fmtLines x.fa n + fmtLines x.fd 1))
          | none => execFail s stPOISON
        | none => execFail s stPOISON
      | _, _ => execFail s stFORMAT)

/-- The sum of squares that NORM forms by the block rule (R199, R200, R205). -/
def sumSquares (v : List Num) : Nat := addBlocks 0 (v.map fun a => a.mul a)
/-- INSTR_NORM over `n` elements: the spec states no formula beyond its sum of squares, so the values are free functions of it and of the
elements (R181, R205). -/
def execInstrNorm (inst n : Nat) (s : State) : Host.Outcome State Fault Refusal :=
  .next (issue s inst 0x41 (fun _ _ x => plainFmt x.fa && plainFmt x.fd && n != 0 && splitOk x [(x.fa, n), (x.fd, n)])
    (fun _ _ _ x _ => [(1, fmtLines x.fa n), (0, fmtLines x.fd n)])
    fun i t x e s =>
      match opKey s i t x 1 (fmtLines x.fa n) e, opKey s i t x 0 (fmtLines x.fd n) e with
      | some ka, some kd =>
        match readVals s x.fa ka n with
        | some v =>
          let res := Config.norm (bit x.word 103) (BitVec.ofNat 32 (sumSquares v)) (v.map fun a => BitVec.ofNat 32 (w32 a))
          match accAdd s x kd ((List.range n).map fun j => r32 (res.getD j 0).toNat) with
          | some out => execOk (chargeLines (putOp s kd (writeNums x.fd none out)) i t.ptn (fmtLines x.fa n + fmtLines x.fd n))
          | none => execFail s stPOISON
        | none => execFail s stPOISON
      | _, _ => execFail s stFORMAT)

/-- INSTR_ACT over `n` elements (R211, R216). -/
def execInstrAct (inst n : Nat) (s : State) : Host.Outcome State Fault Refusal :=
  .next (issue s inst 0x42 (fun _ _ x => plainFmt x.fa && plainFmt x.fd && x.spec 103 4 < 0xA && n != 0 && splitOk x [(x.fa, n), (x.fd, n)])
    (fun _ _ _ x _ => [(1, fmtLines x.fa n), (0, fmtLines x.fd n)])
    fun i t x e s =>
      match opKey s i t x 1 (fmtLines x.fa n) e, opKey s i t x 0 (fmtLines x.fd n) e with
      | some ka, some kd =>
        match readVals s x.fa ka n with
        | some v =>
          let fn := x.spec 103 4
          let gen (j : Nat) : Nat := (philox j (i.args.getD 2 0 % 2 ^ 32) 2 e (i.args.getD 3 0)).1
          match accAdd s x kd (if fn ≤ 1 then v else v.map fun a => r32 (actFn fn (w32 a))) with
          | some out => execOk (chargeLines (putOp s kd (writeNums x.fd (if fn = 1 then some gen else none) out)) i t.ptn (fmtLines x.fa n + fmtLines x.fd n))
          | none => execFail s stPOISON
        | none => execFail s stPOISON
      | _, _ => execFail s stFORMAT)

/-- INSTR_SAMP: the token chosen from the logits of the request's vocabulary, or the logits kept for the
host (R485, R486, R489). -/
def execInstrSamp (inst : Nat) (s : State) : Host.Outcome State Fault Refusal :=
  .next (issue s inst 0x43 (fun _ _ x => x.fa == 0 && x.fd == 0xD)
    (fun s i _ _ _ => [(1, fmtLines 0 ((((reqOf s i).bind fun r => modelOf s r.model).map (·.vocab)).getD 0)), (0, 1)])
    fun i t x e s =>
      match reqOf s i with
      | none => execFail s stFORMAT
      | some r =>
        let v := ((modelOf s r.model).map (·.vocab)).getD 0
        match opKey s i t x 1 (fmtLines 0 v) e, opKey s i t x 0 1 e with
        | some ka, some kd =>
          match readOp s ka (4 * v) with
          | none => execFail s stPOISON
          | some bs =>
            let s1 := chargeLines (progCount s (uidCon i.uid) 8 1) i t.ptn (fmtLines 0 v + 1)
            let logits := (List.range v).map fun j => leAt bs (4 * j) 4
            if t.hostSamples then execOk (modInst s1 inst fun j => { j with logits := logits })
            else match sample logits r.temp r.topP r.topK r.seed r.nextIndex with
              | some tok => match tokenOut s x kd tok r.nextIndex with
                | some out => execOk (modInst (putOp s1 kd out) inst fun j => { j with token := some tok, noToken := false })
                | none => execFail s1 stPOISON
              | none => execOk (modInst s1 inst fun j => { j with token := none, noToken := true })
        | _, _ => execFail s stFORMAT)

/-- INSTR_STOP: the stop checks on the token chosen (R492); with FMT_D INT32 it writes the token and its index at DST, as SAMP does (R192; DESIGN
CHOICE, log 89: the rules give these outputs no place). -/
def execInstrStop (inst : Nat) (s : State) : Host.Outcome State Fault Refusal :=
  .next (issue s inst 0x44 (fun _ _ _ => true) (fun _ _ _ x _ => if x.fd == 0xD then [(0, 1)] else [])
    fun i t x e s =>
      match reqOf s i, ((findInst s inst).bind (·.token)) with
      | some r, some tok =>
        let s1 := modInst s inst fun j => { j with reason := stopReason r tok }
        match if x.fd == 0xD then opKey s i t x 0 1 e else none with
        | none => execOk s1
        | some kd => match tokenOut s x kd tok r.nextIndex with
          | some out => execOk (putOp s1 kd out)
          | none => execFail s1 stPOISON
      | some _, none => execOk s
      | none, _ => execFail s stFORMAT)

/-- INSTR_MOV of `n` lines within SRAM; poison travels with the data (R177, R181, R416). -/
def execInstrMov (inst n : Nat) (s : State) : Host.Outcome State Fault Refusal :=
  .next (issue s inst 0x50 (fun _ _ _ => n != 0) (fun _ _ _ _ _ => [(1, n), (0, n)])
    fun i t x e s =>
      match opKey s i t x 1 n e, opKey s i t x 0 n e with
      | some ka, some kd => match movOut s x ka kd n with
        | some m => execOk (chargeLines (clearTags (sramWriteP s kd m.1 m.2) kd (n * 64)) i t.ptn (2 * n))
        | none => execFail s stPOISON
      | _, _ => execFail s stFORMAT)

/-- Whether a SYNC of an instance is complete: every instance of its task, those that have ended too, has issued as many SYNCs with its
identifier as the instance has (R183). -/
def syncMet (s : State) (t : Task) (i : Inst) : Bool :=
  match i.sync with
  | none => false
  | some x =>
    let n := i.syncs.count x
    (s.work.insts.filter (·.task == t.id)).all (fun j => n ≤ j.syncs.count x) && t.syncs.all fun l => n ≤ l.count x
/-- Instances of a task whose SYNC is complete go on. -/
def releaseSync (s : State) (tid : Nat) : State :=
  match findTask s tid with
  | none => s
  | some t =>
    let met := (s.work.insts.filter fun i => i.task == tid && syncMet s t i).map (·.id)
    met.foldl unstall s
/-- INSTR_SYNC: completes when every instance of the task has issued the same identifier (R183). -/
def execInstrSync (inst : Nat) (s : State) : Host.Outcome State Fault Refusal :=
  .next (
    let s1 := issue s inst 0x51 (fun _ _ _ => true) noOps fun _ _ x _ s =>
      execOk (modInst s inst fun j => { j with sync := some (x.spec 103 8), syncs := j.syncs ++ [x.spec 103 8] })
    -- a stalled sequencer is at a checkpoint (R185)
    stopHere (match findInst s1 inst with
      | none => s1
      | some i => releaseSync s1 i.task) inst)

/-- INSTR_WAIT: stalls until the count of outstanding transfers falls to N (R181). -/
def execInstrWait (inst : Nat) (s : State) : Host.Outcome State Fault Refusal :=
  .next (
    -- a stalled sequencer is at a checkpoint (R185)
    stopHere (issue s inst 0x52 (fun _ _ x => x.spec 103 6 ≤ 32) noOps
      fun i _ x _ s => execOk (if i.tiles.length ≤ x.spec 103 6 then s else modInst s inst fun j => { j with wait := some (x.spec 103 6) })) inst)

/-- INSTR_YIELD: a checkpoint (R185, R187). -/
def execInstrYield (inst : Nat) (s : State) : Host.Outcome State Fault Refusal :=
  .next (
    let s1 := issue s inst 0x53 (fun _ _ _ => true) noOps fun _ _ _ _ s => execOk s
    if (ready s inst 0x53).isNone then s1
    else match findInst s1 inst with
      | some i =>
        if i.ending then s1 else
        let s2 := progCount s1 (uidCon i.uid) 0x0B 1
        match i.stop with
        | some st => stopInst s2 inst st
        | none => modInst s2 inst fun j => { j with issued := 0 }
      | none => s1)

/-- INSTR_END: the instance ends once its stores are written (R162). One whose task has been cancelled or has lost its epoch before stops
instead (R158, R162). -/
def execInstrEnd (inst : Nat) (s : State) : Host.Outcome State Fault Refusal :=
  .next (match ready s inst 0x5F with
    | none => s
    | some (i, t, x) =>
      if !commonOk i x then failInst s inst stFORMAT (insDetail i)
      else
        match i.stop.filter (· != stRETRIED) with
        -- it ends without executing its END (R187)
        | some st => stopInst s inst st
        | none =>
          let s1 := retire (markStart s i t) i t 0x5F
          let stores := i.tiles.filter fun t => !t.load
          if stores.isEmpty then endInst s1 inst stOK 0
          else modInst s1 inst fun j => { j with tiles := stores, stop := none, ending := true })

/-- Opcodes of R181. -/
def knownOpcode (o : Nat) : Bool :=
  [0x01, 0x02, 0x10, 0x11, 0x20, 0x21, 0x22, 0x23, 0x30, 0x31, 0x40, 0x41, 0x42, 0x43, 0x44, 0x50, 0x51, 0x52, 0x53, 0x5F].contains o
/-- ILLEGAL_INSTRUCTION: an instruction with a reserved encoding ends the instance with FORMAT (R180). -/
def execIllegalInstruction (inst : Nat) (s : State) : Host.Outcome State Fault Refusal :=
  .next (match findInst s inst with
    | none => s
    | some i =>
      let x := insAt s i
      match ready s inst x.opc with
      | none => s
      | some _ => if knownOpcode x.opc && commonOk i x then s else failInst s inst stFORMAT (insDetail i))

/-- CHECKPOINT_64: the 64th cycle without a checkpoint is one, and the CONTRACT counter counts it (R185, R186). -/
def execCheckpoint64 (inst : Nat) (s : State) : Host.Outcome State Fault Refusal :=
  .next (match findInst s inst with
    | none => s
    | some i =>
      if i.ending || !i.started || stalled i then s
      else
        let s1 := progCount (bumpCounter s i.uid 7 1) (uidCon i.uid) 0x0B 1
        match i.stop with
        | some st => stopInst s1 inst st
        | none => modInst s1 inst fun j => { j with issued := 0 })

/-- Tier address of an LDT or STT: an argument register and offset, or with INDIRECT the 8 bytes at an
SRAM line (R178, R181, R440). -/
def tierAddress (s : State) (i : Inst) (t : Task) (x : Ins) (which e : Nat) : Option Nat :=
  let spec := if which = 0 then x.dst else x.srca
  if bit x.word 104 then (opKey s i t x which 1 e).map fun k => bits (leNat (sramRead s k 8)) 0 56
  else if bits spec 18 2 = 3 then
    some (bits (i.args.getD (bits spec 16 2) 0) 0 56 + (bits spec 0 16 + (if bit x.inc which then 64 * e else 0)) * 64)
  else none
/-- Device tier address of an address in a tier (R181, R419): none when it names another device, or the own gateway space (R569, R570). -/
def localTier (s : State) (tier a : Nat) : Option Nat :=
  if tier = 2 then (if a / 2 ^ 48 = myDev s && a % 2 ^ 48 < 2 ^ 47 then some (a % 2 ^ 48) else none) else some (a % 2 ^ 48)
/-- Tile and tier of an address checked: 0 when the transfer may issue (R426, R437). -/
def tileStatus (s : State) (p tier a : Nat) : Nat :=
  if a % 4096 != 0 then stFORMAT
  else match localTier s tier a with
    | none => 0
    | some d => if tier = 0 && farBase ≤ d then stFORMAT else if tier = 1 && d < farBase then stFORMAT else tierStatus s p d

/-- A tile transfer joins those outstanding. -/
def addTile (s : State) (inst : Nat) (t : Tile) : State :=
  (modInst s inst fun j => { j with tiles := j.tiles ++ [t] }).modWork fun w => { w with nextTile := w.nextTile + 1 }
/-- A tile transfer with another device's memory or through a gateway (R579, R608): the status with which it ends at once. -/
def tileOp (s : State) (t : Task) (op a : Nat) (bytes : List Byte) (ws : List Nat) (inst tile : Nat) : State × Option Nat :=
  let r := globalOp s t.ptn op a 4096 bytes ws (.tile inst tile) (t.request.getD 0xFFFFFFFF) t.epoch
  (r.1, r.2.1)
/-- Issue a tile instruction: as many of its executions as the cluster's limit of outstanding transfers leaves room for. The sequencer stalls
on the others, which its next issue takes up (R181, R185). -/
def issueTiles (s : State) (iid opc : Nat) (ok : Ins → Bool) (ops : Extents) (f : Inst → Task → Ins → Nat → State → Exec) : State :=
  match ready s iid opc with
  | none => s
  | some (i, t, x) =>
    if i.execs = 0 && !(commonOk i x && ok x && extentsOk s i t x (ops s i t x)) then failInst s iid stFORMAT (insDetail i)
    else
      let left := (executions i x).getD 1 - i.execs
      let n := Nat.min left (tileLimit - clusterTiles s i)
      match runExecs (f i t x) n i.execs (if n = 0 then s else markStart s i t) with
      | (s', some st) => failInst s' iid st (faultDetail st i.pc)
      | (s', none) =>
        stopHere (if n = left then retire (modInst s' iid fun j => { j with pc := i.pc + 16, execs := 0, issued := j.issued + 1 }) i t opc
          else modInst s' iid fun j => { j with execs := i.execs + n, issued := 0 }) iid
/-- The page that an LDT with DECODE reads at a tier address. -/
def decodePage (s : State) (t : Task) (x : Ins) (a : Nat) : Option Page := if bit x.word 103 then pageOfFar s t.ptn (a / 4096) else none
/-- Lines that an LDT writes. -/
def ldtLines (s : State) (t : Task) (x : Ins) (a : Option Nat) : Nat :=
  match a.bind (decodePage s t x) with | some g => g.slotTiles * 64 | none => 64
/-- INSTR_LDT: one tile, or with DECODE the slot form of a packed page (R181, R313, R437). -/
def execInstrLdt (inst : Nat) (s : State) : Host.Outcome State Fault Refusal :=
  .next (issueTiles s inst 0x01 (fun x => x.spec 108 4 < 3 && (!bit x.word 103 || kvqBits (x.spec 105 3) != 0))
    (fun s i t x e => (0, ldtLines s t x (tierAddress s i t x 1 e)) :: if bit x.word 104 then [(1, 1)] else [])
    fun i t x e s =>
      let tier := x.spec 108 4
      match tierAddress s i t x 1 e with
      | none => execFail s stFORMAT
      | some a =>
        let st := tileStatus s t.ptn tier a
        if st != 0 then execFail s st
        else match opKey s i t x 0 (ldtLines s t x (some a)) e with
          | none => execFail s stFORMAT
          | some kd =>
            let id := s.work.nextTile
            let (s1, bad) := match localTier s tier a with
              | some d => (touchTile s (d / 4096), none)
              | none => let r := tileOp s t 0x40 a [] [] inst id; (r.1, r.2)
            match bad with
            | some st => execFail s1 st
            | none => execOk (addTile s1 inst { id := id, load := true, tier := tier, addr := a, sram := kd, decode := bit x.word 103, width := x.spec 105 3, pc := i.pc }))
/-- INSTR_STT: the store of a tile, whose bytes are taken when it issues (R181). -/
def execInstrStt (inst : Nat) (s : State) : Host.Outcome State Fault Refusal :=
  .next (issueTiles s inst 0x02 (fun x => x.spec 108 4 < 3) (fun _ _ _ x _ => (1, 64) :: if bit x.word 104 then [(0, 1)] else [])
    fun i t x e s =>
      let tier := x.spec 108 4
      match tierAddress s i t x 0 e, opKey s i t x 1 64 e with
      | some a, some ka =>
        let st := tileStatus s t.ptn tier a
        if st != 0 then execFail s st
        else
          let id := s.work.nextTile
          let bytes := sramRead s ka 4096
          let ws := sramPoison s ka 4096
          let (s1, bad) := if (localTier s tier a).isSome then (s, none) else tileOp s t 0x42 a bytes ws inst id
          match bad with
          | some st => execFail s1 st
          | none => execOk (addTile s1 inst { id := id, load := false, tier := tier, addr := a, sram := ka, bytes := bytes, poison := ws, pc := i.pc })
      | _, _ => execFail s stFORMAT)

/-- After a transfer ends: a WAIT whose count is met goes on, an ending instance without stores ends. -/
def tileDone (s : State) (inst tile : Nat) : State :=
  let s1 := modInst s inst fun j => { j with tiles := j.tiles.filter (·.id != tile) }
  match findInst s1 inst with
  | none => s1
  | some i =>
    if i.ending && i.tiles.isEmpty then endInst s1 inst (i.stop.getD stOK) i.detail
    else match i.wait with
      | some n => if i.tiles.length ≤ n then unstall s1 inst else s1
      | none => s1
/-- Whether a message or a gateway operation carries a tile. -/
def tileOwned (s : State) (inst tile : Nat) : Bool :=
  s.fab.sent.any (fun m => m.owner == .tile inst tile) || s.fab.fencing.any (fun f => f.owner == .tile inst tile)
    || s.px.qps.any fun q => q.ops.any fun g => g.owner == .tile inst tile
/-- A tile of another device arrives in SRAM (R416). -/
def loadTile (s : State) (inst : Nat) (tl : Tile) (bytes : List Byte) (ws : List Nat) : State :=
  tileDone (clearTags (sramWriteP s tl.sram (padTo 4096 (bytes.take 4096)) ws) tl.sram 4096) inst tl.id
/-- A tile is read for an instance, or a copy of it in the constellation's prefetch area in its place (R454); none while the tile cannot come. -/
def readTile (s : State) (i : Inst) (t : Task) (tile id : Nat) : Option State :=
  if s.mem.area.contains (instPhys s i, tile) then some (chargeLines (progCount (tileCount s i 4 1) (uidCon i.uid) 0x0C 1) i t.ptn 128)
  else match passTiles s t.ptn (uidCon i.uid) tile id true 1 with
    | some s' => some (instTiles (tileCount s' i 4 1) i tile 1 false)
    | none => none
/-- LDT_COMPLETE: the tile arrives in SRAM. A page decoded writes its slot form; a stream fault ends the
instance with POISON (R313, R314, R416, R439). A tile of another device comes so only from the remote read cache
(R608); otherwise the answer of its message completes it. -/
def execLdtComplete (inst tile : Nat) (s : State) : Host.Outcome State Fault Refusal :=
  .next (match findInst s inst with
    | none => s
    | some i =>
      match i.tiles.find? (fun t => t.id == tile && t.load), taskOf s i with
      | some tl, some t =>
        let s0 := tileCount s i 4 1
        match localTier s tl.tier tl.addr with
        | none =>
          if tileOwned s inst tile then s
          else match rrcFind s t.ptn (tl.addr / 4096) with
            | none => s
            | some r => loadTile s0 inst tl (tierRead s (rrcAddr s r) 4096) (tierPoison s (rrcAddr s r) 4096)
        | some d =>
          match if tl.decode then pageOfFar s t.ptn (d / 4096) else none with
          | some g =>
            let n := if g.packedLen = 0 then g.slotTiles else cdiv g.packedLen 64
            match passTiles s t.ptn (uidCon i.uid) (d / 4096) tile true n with
            | none => s
            | some s =>
            let s0 := instTiles (tileCount s i 4 n) i (d / 4096) n false
            if (tierPoison s (farBase + g.farAddr * 4096) (if g.packedLen = 0 then g.slotTiles * 4096 else g.packedLen * 64)).isEmpty then
              match slotOf s { g with nearValid := false } with
              | some bs => tileDone (putOp s0 tl.sram bs) inst tile
              | none => failInst (streamFault s0 g) inst stPOISON 0
            else failInst s0 inst stPOISON 0
          | none =>
            match readTile s i t (d / 4096) tile with
            | none => s
            | some s0 =>
            let s1 := clearTags (sramWriteP s0 tl.sram (tierView s d 4096) (tierPoison s d 4096)) tl.sram 4096
            let s2 := if tl.sram % 4096 = 0 then s1.modWork fun w => { w with tags := cntSet w.tags (tl.sram / 4096) (d / 4096 + 1) } else s1
            tileDone s2 inst tile
      | _, _ => s)
/-- STT_WRITTEN: the tile is written at its destination, and a mirror or write-through with it (R187, R265). -/
def execSttWritten (inst tile : Nat) (s : State) : Host.Outcome State Fault Refusal :=
  .next (match findInst s inst with
    | none => s
    | some i =>
      match i.tiles.find? (fun t => t.id == tile && !t.load), taskOf s i with
      | some tl, some t =>
        match localTier s tl.tier tl.addr with
        | some d =>
          match passTiles s t.ptn (uidCon i.uid) (d / 4096) tile false 1 with
          | none => s
          | some s =>
            let s1 := touchTile (tierWriteP (instTiles (tileCount s i 5 1) i (d / 4096) 1 true) d tl.bytes tl.poison) (d / 4096)
            tileDone (sealTile s1 t (d / 4096)) inst tile
        -- the COMPLETE of its message ends a store to another device
        | none => s
      | _, _ => s)

end Sys2Proof.Machine
end

