-- ==== Sys2Proof/Machine/Place.lean ====
section
/-! DEFINITION. The dispatcher (R117, R162-R170): what runs in a compute slot, on which units, and the
tasks that it builds for requests, pages being sealed and queries of other devices; test slices. -/

namespace Sys2Proof.Machine
open Sys2Proof

/-- An event of the fault block, to the PF and to the owner of a logical constellation (R810). -/
def rasEvent (s : State) (l : Option Nat) (code : Nat) (payload : List Nat) : State :=
  let e : Event := { cls := 0xB, code := code, uid := (l.map (mkUid 2)).getD 0, payload := payload }
  match l.bind (ownerOf s) with
  | some p => raiseBoth s p e
  | none => raisePf s e
/-- A LIT constellation enters DIMMING (R777). -/
def startDimming (s : State) (phys cause : Nat) : State :=
  let c := getCon s phys
  if c.service = .lit && c.logical.isSome then
    rasEvent (modCon s phys fun c => { c with service := .dimming, dimCause := cause }) c.logical 3 [0, cause]
  else s
/-- A test slice finds a fault: RAS_TEST, a record for Nightfall, and DIMMING for the engine kinds; a spare
that fails becomes failed (R777, R799). -/
def testFault (s : State) (phys kind : Nat) : State :=
  let c := getCon s phys
  let s1 := rasEvent s c.logical 8 [0, (c.logical.map (mkUid 2)).getD 0, kind, 0]
  let s2 := s1.modMem fun m => { m with repair := if m.repair.contains (16 + kind, phys) then m.repair else m.repair ++ [(16 + kind, phys)] }
  if c.role = .spare then mapEntry (sramClear (modCon s2 phys fun c => { c with role := .failed, pwr := .deep, testing := false, waking := false }) phys) phys
  else if 2 ≤ kind && kind ≤ 4 then startDimming s2 phys kind else s2

/-- A slot being filled: its section, index and entry, and what it has taken of CAP_A and CAP_B. -/
structure Slot where
  sec   : Nat
  ent   : Nat
  e     : Entry
  /-- Units of the entry, at its own level or as constellations. -/
  units : List Nat
  clus  : List Nat
  usedA : Nat := 0
  usedB : Nat := 0
  /-- Placement has stopped (R117). -/
  full  : Bool := false
  deriving Repr

/-- Whether a unit lies wholly in the slot's set. -/
def inSlot (k : Slot) (u : Nat) : Bool :=
  let has (v : Nat) : Bool := k.units.any fun w => uidInside v w
  if uidLevel u = 0 then has u
  else (clustersOf u).all fun c => has (mkUid 0 (c * 128)) && has (mkUid 0 (c * 128 + 127))

/-- Tiles that a task's arguments name (R440), in the numbering of the residency tags. -/
def argTiles (s : State) (t : Task) : List Nat :=
  (t.args.map fun a =>
    if !bit a 63 then []
    else match localTier s (bits a 61 2) (bits a 0 56) with
      | some d => (List.range (bits a 56 5 + 1)).map (d / 4096 + 1 + ·)
      | none => []).flatten.eraseDups
/-- Tiles of a list that a unit's scratch or its Halo holds (R166 rule 2, R439). -/
def residency (s : State) (tiles : List Nat) (u : Nat) : Nat :=
  let phys := (physOf s (uidCon u)).getD 0
  let scr := (clustersOf u).map fun c => scratchKey phys (c % 16) 0 / 4096
  let halo := haloKey phys 0 / 4096
  (tiles.filter fun t => s.work.tags.any fun g => g.2 == t && (scr.any (fun b => b ≤ g.1 && g.1 < b + 1024) || (halo ≤ g.1 && g.1 < halo + 2048))).length
/-- Cluster that stages the open page of a request at a layer (R166 rule 1). -/
def stagingCluster (s : State) (h l : Nat) : Option Nat :=
  ((findReq s h).bind fun r => openPageOf s r l).bind fun g => g.stage.map (·.1)
/-- Instances placed in a slot on a unit. -/
def placedOn (s : State) (k : Slot) (u : Nat) : Nat :=
  let ids := (slotTasks s k.sec k.ent).map (·.id)
  (s.work.insts.filter fun i => i.uid == u && ids.contains i.task).length
/-- The better of two candidates by the rules of R166, in their order. -/
def better (s : State) (k : Slot) (t : Task) (bound : Option Nat) (shard : Option Nat) (tiles : List Nat) (placed : List Nat) (a b : Nat) : Nat :=
  let r1 (u : Nat) : Nat := b2n (match bound with | some c => (clustersOf u).contains c | none => false)
  let r3 (u : Nat) : Nat := b2n (t.cls == 3 && shard == some (uidCon u))
  let r4 (u : Nat) : Nat := placedOn s k u + (placed.filter (· == u)).length
  if r1 a != r1 b then (if r1 b < r1 a then a else b)
  else if residency s tiles a != residency s tiles b then (if residency s tiles b < residency s tiles a then a else b)
  else if r3 a != r3 b then (if r3 b < r3 a then a else b)
  else if r4 a != r4 b then (if r4 a < r4 b then a else b)
  else Nat.min a b
/-- Choose `n` units, one at a time. -/
def chooseUnits (s : State) (k : Slot) (t : Task) (bound shard : Option Nat) (tiles : List Nat) : Nat → List Nat → List Nat → List Nat
  | 0, _, done => done
  | n + 1, cands, done =>
    match cands with
    | [] => done
    | c :: r =>
      let u := r.foldl (better s k t bound shard tiles done) c
      chooseUnits s k t bound shard tiles n (cands.filter (· != u)) (done ++ [u])
/-- Units for a task in a slot, or none while it must wait for another slot (R166-R170). A holder of the open page in the slot but outside
the task's own set keeps the task READY too, as R167 has it of one outside the slot (DESIGN CHOICE, log 72). -/
def unitsFor (s : State) (k : Slot) (t : Task) : Option (List Nat) :=
  let all := unitsAt t.uid t.span t.level
  let own := all.filter fun u => unitOwner s u == some t.ptn
  if t.pin then (if all.all (inSlot k) then some all else none)
  else
    let cands := own.filter (inSlot k)
    let need := if t.count = 0 then own.length else t.count
    let shard := if t.cls = 3 then (findTabRec s t.ptn (bits (t.args.headD 0) 0 8)).bind fun r =>
        if r.cached && cnt s.tabs.cache t.ptn != 0 then shardCon s t.ptn r.num (bits (t.args.headD 0) 8 6) else none
      else none
    let bound := if [1, 2, 5].contains t.cls then t.request.bind fun h => stagingCluster s h t.layer else none
    let boundOk := match bound with | some c => cands.any fun u => (clustersOf u).contains c | none => true
    if !boundOk || cands.length < need || need = 0 then none
    else some (chooseUnits s k t bound shard (argTiles s t) need cands [])

/-- Add 1 to the heat of pages a task reads for attention, once in a cycle (R387). -/
def warmPages (s : State) (p : Nat) (nums : List Nat) : State :=
  s.modServe fun w => { w with
    pages := updIf (fun g => g.ptn == p && nums.contains g.num && g.heatCycle != s.eph.cycle + 1)
      (fun g => { g with heat := sat 15 (g.heat + 1), heatCycle := s.eph.cycle + 1 }) w.pages }
/-- Bind a task to units: it is DISPATCHED, with one instance on each (R149, R162). -/
def bindTask (s : State) (k : Slot) (t : Task) (us : List Nat) : State :=
  let n := s.work.nextInst
  let (s, is) := us.foldl (fun (a : State × List Inst) u =>
    let (s', tags) := tagInst a.1 t.ptn
    (s', a.2 ++ [({ id := n + a.2.length, task := t.id, uid := u, pc := t.prog, args := t.args, tagged := tags, boundAt := now s } : Inst)])) (s, [])
  let t' : Task := { t with
    state := .dispatched, looked := false, slot := some (k.sec, k.ent), statuses := [], reached := 0, stop := none, ran := if us.length = 1 then us.head? else none }
  let s0 := s.modWork fun w => { w with
    tasks := w.tasks.filter (·.id != t.id) ++ [t'], insts := w.insts ++ is, nextInst := n + us.length, nextTask := Nat.max w.nextTask (t.id + 1) }
  -- LAST_CYCLE of its request is the cycle of this dispatch (R226)
  let s1 := match t.request with
    | some h => modReq s0 h fun r => { r with lastCycle := s.eph.cycle % 2 ^ 32 }
    | none => s0
  startLookups (wakeCons s1 (us.map uidCon).eraseDups) t.id

/-- Attended sealed pages of a request at a layer: local pages 0 to F − 1 outside the plan (R344, R349). -/
def attended (r : Req) (l : Nat) : List Nat :=
  (List.range (r.length / r.pageLen)).filterMap fun i => if planned r.planGroups i then none else r.pageNum l i
/-- Pages of the open tail of a request at a layer (R252). -/
def tailPages (s : State) (r : Req) (l : Nat) : List Nat := ((pagesOfLayer s r l).filter fun g => g.state == .open || g.state == .sealing).map (·.num)
/-- Whether the attended range stands: each page below F is sealed or lies in the plan (R344); a REMOTE
entry outside the plan is a FORMAT fault (R349). -/
def rangeState (s : State) (r : Req) (l : Nat) : Option Nat :=
  let f := List.range (r.length / r.pageLen)
  if f.any fun i => r.isRemote l i && !planned r.planGroups i then some stFORMAT
  else if f.all fun i => planned r.planGroups i || (match (r.pageNum l i).bind (findPage s r.ptn) with
      | some g => g.state == .sealed || g.state == .inTransit | none => false) then none
  else some stBUSY
/-- Whether a request waits on something other than work: a PLAN, a move that parks or installs it, or the end of its doubt; the dispatcher
then places no task of it (R367, R374, R380, R400). -/
def atRest (r : Req) : Bool := r.held || r.doubt || r.mverb == 2 || r.install.isSome
/-- Whether a request has work of a class that nothing holds back (R230, R369, R372, R377, R400, R489). -/
def reqReady (r : Req) (cls : Nat) : Bool :=
  (if cls = 1 then (r.state == .queued || r.state == .prefill) && r.inputLeft != 0 else r.state == .decode)
  && !atRest r && !r.await && !r.finished && !r.reading && !r.holding && (r.mverb == 0 || r.mverb == 4) && r.newPlan.isNone
/-- A staged page that no task of its request at its layer needs, neither one that exists nor one that the dispatcher would build (R249). -/
def idlePage (s : State) (g : Page) : Bool :=
  (g.state == .open || g.state == .sealing) && g.prov == 0 &&
  !(s.serve.reqs.any fun r => r.ptn == g.ptn && r.pageNum g.layer g.position == some g.num &&
    ((r.layer == g.layer && (reqReady r 1 || reqReady r 2)) || s.work.tasks.any fun t => t.request == some r.handle && t.layer == g.layer))
/-- Free blocks in a cluster: idle clean staged pages lose theirs, and staged pages that are not clean are marked for write-back (R247, R249). -/
def makeRoom (s : State) (cs : List Nat) (keep : Nat) : State :=
  let here (g : Page) : Bool := (match g.stage with | some (c, _) => cs.contains c | none => false) && g.num != keep
  let clean := s.serve.pages.filter fun g => here g && g.dirty.isEmpty && idlePage s g
  match clean with
  | g :: _ => modPage s g.ptn g.num fun g => { g with stage := none, mirror := none, through := false, marked := false }
  | [] => s.modServe fun w => { w with pages := updIf (fun g => here g && !g.dirty.isEmpty) (fun g => { g with marked := true }) w.pages }
/-- Load an open page that is not staged, into the cluster of a slot's units with the most free blocks (R244). -/
def wantLoad (s : State) (cs : List Nat) (g : Page) : State :=
  if s.serve.xfers.any fun x => match x.what with | .openLoad p n _ => p == g.ptn && n == g.num | _ => false then s
  else match chooseLoad s cs (openBlocks g.geo) with
    | some (c, _) => addXfer s g.ptn 0 (openBlocks g.geo) (.openLoad g.ptn g.num c)
    | none => makeRoom s cs g.num
/-- Stage the pages that tokens [from, to) of a layer go to, all in one cluster; the state after, and whether every page stands. A page that is
sealed already takes no more tokens (log 90). A staged page of a DURABLE request that has no mirror yet gets one first (R264). -/
def stagePages (h l : Nat) (k : Slot) : List Nat → Option Nat → State → State × Option Nat × Bool
  | [], c, s => (s, c, true)
  | i :: is, c, s =>
    match findReq s h with
    | none => (s, c, false)
    | some r =>
      match (r.pageNum l i).bind (findPage s r.ptn) with
      | some g =>
        if g.state == .sealed || g.state == .inTransit then stagePages h l k is c s
        else (match g.stage with
        | some (c', _) =>
          if !k.clus.contains c' || (match c with | some x => x != c' | none => false) then (s, c, false)
          else if r.durable && g.mirror.isNone && !g.through then
            (match addMirror s g.ptn g.num with
            | some s' => stagePages h l k is (some c') s'
            | none => (makeRoom s ((partnerClusters s r.ptn c').getD []) g.num, c, false))
          else stagePages h l k is (some c') s
        | none => (wantLoad s k.clus g, c, false))
      | none =>
        let cs := match c with | some x => [x] | none => k.clus
        match openPage s h l i cs with
        | some s' => (match (((findReq s' h).bind fun r => r.pageNum l i).bind (findPage s' r.ptn)).bind (·.stage) with
          | some (c', _) => stagePages h l k is (some c') s'
          | none => (s', c, false))
        | none =>
          let n := openBlocks r.geo
          match chooseStage s cs n with
          | none => (makeRoom s cs 0xFFFFFFFF, c, false)
          | some (c', _) => match if r.durable then partnerClusters s r.ptn c' else none with
            | some ps => if (chooseStage s ps n).isNone then (makeRoom s ps 0xFFFFFFFF, c, false) else (startEviction s r.ptn, c, false)
            | none => (startEviction s r.ptn, c, false)
/-- Provisional tokens of a step at a layer (R246); none where committed tokens stand already (log 90). -/
def setProv (s : State) (r : Req) (l n : Nat) : State :=
  s.modServe fun w => { w with
    pages := updIf (fun g => g.ptn == r.ptn && g.layer == l && r.pageNum l g.position == some g.num)
      (fun g =>
        let lo := Nat.max (g.position * r.pageLen + g.tokens) r.length
        let hi := Nat.min ((g.position + 1) * r.pageLen) (r.length + n)
        { g with prov := hi - lo }) w.pages }

/-- A tile record (R322). -/
def tileRec (kpos qpos : Nat) (qstep rstep : Bool) (kvalid rows rowState head0 : Nat) (hstep : Bool) (bitmap : Option Nat) (maskL : Nat) : List Byte :=
  leBytes 64 (kpos + qpos * 2 ^ 32 + b2n qstep * 2 ^ 64 + b2n rstep * 2 ^ 65 + kvalid * 2 ^ 72 + rows * 2 ^ 80 + rowState * 2 ^ 96
    + head0 * 2 ^ 112 + b2n hstep * 2 ^ 120 + (bitmap.getD 0) % 2 ^ 16 * 2 ^ 128 + b2n bitmap.isSome * 2 ^ 144 + maskL * 2 ^ 160)
/-- First position and keys of the tiles of a leaf of `n` tokens (R320). -/
def leafTiles (first n : Nat) : List (Nat × Nat) := (List.range (cdiv n 32)).map fun i => (first + 32 * i, Nat.min 32 (n - 32 * i))
/-- First scratch line of a tile list where nothing else asks for another (DESIGN CHOICE, log 91; R321 leaves it open): the list, the row
states of four lines, the bitmap rows, then the remote partial area, or the query vectors and the partial. -/
def listLine : Nat := 0x8000
/-- Row tiles of a step or query: position of row 0, rows, head of row 0 and query block (R322, R326, R335). In prefill the rows are
consecutive query tokens of one head, those of block-sparse attention on multiples of 32 positions; in decode up to 32 heads of one group. -/
def rowTiles (prefill blocked : Bool) (qpos qlen heads groups : Nat) : List (Nat × Nat × Nat × Nat) :=
  if prefill then
    let q0 := if blocked then qpos / 32 * 32 else qpos
    ((List.range (cdiv (qpos - q0 + qlen) 32)).map fun b => (List.range heads).map fun h => (q0 + 32 * b, Nat.min 32 (qpos + qlen - (q0 + 32 * b)), h, b)).flatten
  else
    let per := heads / Nat.max 1 groups
    ((List.range (Nat.max 1 groups)).map fun g => (List.range (cdiv per 32)).map fun j => (qpos, Nat.min 32 (per - 32 * j), g * per + 32 * j, 0)).flatten
/-- Row tiles that fit the 16-bit count of records and the scratch, beside bitmap rows of `bits` lines and `extra` lines; one at least (log 91). -/
def fitTiles (leaves bits extra t : Nat) : Nat :=
  Nat.max 1 (Nat.min t (Nat.min (65534 / Nat.max 1 leaves) ((65535 - bits - extra) / (leaves + 4))))
/-- Lines of a list with its row states. -/
def listLines (leaves tiles : Nat) : Nat := 1 + leaves * tiles + 4 * tiles
/-- First line of a task's area of `need` lines in the scratch of a cluster, behind those of the tasks placed there; none while they leave too
little (log 91). -/
def scratchBase (s : State) (cl need : Nat) : Option Nat :=
  let ends := (s.work.tasks.filter fun t => t.lineEnd != 0 && t.state != .ready && uidCluster t.uid == cl).map (·.lineEnd)
  let from_ := maxN (listLine :: ends)
  if from_ + need ≤ 65536 then some from_ else if ends.isEmpty then some (65536 - need) else none
/-- Write to the scratch of a cluster from a line on, up to its end. -/
def putScratch (s : State) (cl line : Nat) (bs : List Byte) : State :=
  sramWrite s (scratchKey ((physOf s (cl / 16)).getD 0) (cl % 16) (line * 64)) (bs.take ((65536 - line) * 64))
/-- Write a tile list into the scratch of a cluster: query record, then the key tiles of each row tile (R321); its records, and the line behind
its row states and bitmap rows. -/
def putTiles (s : State) (cl base : Nat) (leaves : List (Nat × Nat)) (rows : List (Nat × Nat × Nat × Nat)) (prefill : Bool) (maskL : Nat) (bitmaps : List (List Byte)) :
    State × Nat × Nat :=
  let n := 1 + leaves.length * rows.length
  let bits0 := base + n + 4 * rows.length
  let width := maxN (bitmaps.map fun b => lines b.length)
  let bm (b : Nat) : Option Nat := if bitmaps.isEmpty then none else some (bits0 + width * b)
  let mk (k : Nat × Nat) (rs : Bool) (i : Nat) (t : Nat × Nat × Nat × Nat) : List Byte :=
    tileRec k.1 t.1 prefill rs k.2 t.2.1 (base + n + 4 * i) t.2.2.1 (!prefill) (bm t.2.2.2) maskL
  let t0 := rows.headD (0, 1, 0, 0)
  let s1 := putScratch s cl base (mk (t0.1, 1) prefill 0 t0 ++ ((rows.mapIdx fun i t => (leaves.map fun k => mk k true i t).flatten).flatten))
  ((bitmaps.mapIdx fun i b => (i, b)).foldl (fun s x => putScratch s cl (bits0 + width * x.1) x.2) s1, n, bits0 + width * bitmaps.length)
/-- Place the partials of a request's layer in the remote partial area, each in the slot of its group in plan order, out of the buffer (R351,
R399). -/
def putPartials (s : State) (cl line : Nat) (r : Req) (md : Model) (qs : List Query) : State :=
  let size := partialSlot s r md
  (r.planGroups.mapIdx fun i g => (i, g)).foldl (fun s x =>
    match qs.find? fun q => q.group == x.2 with
    | some q => putScratch s cl (line + x.1 * (size / 64)) (if r.partialBuf = 0 then (q.partial_.getD []).take size else tierRead s (bufferAddr s r md x.2) size)
    | none => s) s
/-- ARG3 of a task: where its pages are staged (R245). -/
def stagingArg (s : State) (r : Req) (l : Nat) : Nat :=
  let line (g : Option Page) : Option Nat := (g.bind (·.stage)).map fun x => x.2 * 64
  let g := openPageOf s r l
  (line g).getD 0 + ((g.map (·.tokens)).getD 0) * 2 ^ 13 + ((line (sealingPageOf s r l)).getD 0x1FFF) * 2 ^ 21

/-- A dispatcher-built task: one instance of the entry's program on one cluster (R162). -/
def builtTask (s : State) (k : Slot) (ptn cl : Nat) (old : Option Task) (args : List Nat) : Task :=
  { id := (old.map (·.id)).getD s.work.nextTask, src := TaskSrc.dispatcher, kind := 1, pin := true, fence := false, quiet := false, cls := k.e.cls, level := 1,
    ptn := ptn, uid := mkUid 1 cl, span := 0, request := none, epoch := 0, layer := 0, prog := k.e.prog, count := 1, tag := 0, after := none, args := args,
    readyAt := s.eph.cycle, readyNs := now s, attempt := (old.map (·.attempt)).getD 0 }
/-- What a candidate may do: pass with what passing over does, or run with its task, units and costs. -/
abbrev Chosen := State × Option (State × Task × List Nat)

/-- Tokens that the next step of a request appends (R345). -/
def stepLen (s : State) (r : Req) (md : Model) : Nat :=
  if r.state == .decode then 1
  else if r.layer != 0 || r.phase != 0 then r.stepTokens
  else
    let c := chunkOf s md * r.pageLen
    Nat.min ((r.length / c + 1) * c - r.length) r.inputLeft
/-- What a ring task counts against CAP_A and CAP_B in its class: requests and tokens, bags and rows, queries and pages, pages sealed and
packed (R94, R170). A task without the argument or request that says so counts its instances (DESIGN CHOICE, log 72). -/
def ringCost (s : State) (t : Task) (us : List Nat) : Nat × Nat :=
  let req := t.request.bind (findReq s)
  match t.cls with
  | 1 => (1, match req, req.bind fun r => modelOf s r.model with
      | some r, some md => stepLen s r md
      | _, _ => us.length)
  | 3 =>
    let a1 := t.args.getD 1 0
    if !bit a1 63 then (1, us.length)
    else
      let area := parseArea 64 (tierRead s (bits a1 0 56 + (if bits a1 61 2 = 1 then farBase else 0)) ((bits a1 56 5 + 1) * 4096))
      (sumN (area.map (·.2.1)), sumN (area.map fun x => sumN ((parseBags x.2.1 x.2.2).map (·.n))))
  | 4 => (1, match req with | some r => (attended r t.layer).length | none => us.length)
  | _ => (1, 1)
/-- A task of a ring that waits: the epoch of its request is checked, and units are chosen (R157, R162). One that attends for a request waits
until the request's range stands, and ends with FORMAT where a REMOTE page lies outside its plan (R344, R349); none of a request at rest is
placed. -/
def tryRing (s : State) (k : Slot) (t : Task) : Chosen :=
  let run (s1 : State) (req : Option Req) : Option (State × Task × List Nat) := (unitsFor s k t).map fun us =>
    let c := ringCost s t us
    (s1, { t with costA := c.1, costB := c.2, bf16 := req.map (·.partialBf16) }, us)
  match t.request.map (findReq s) with
  | some none => (settle (closeTask s t stEPOCH 0), none)
  | some (some r) =>
    if r.epoch != t.epoch then (settle (closeTask s t stEPOCH 0), none)
    else if atRest r then (s, none)
    else match if t.cls = 1 || t.cls = 2 then rangeState s r t.layer else none with
      | none => (s, run (warmPages s r.ptn (if t.cls = 1 || t.cls = 2 || t.cls = 4 then attended r t.layer ++ tailPages s r t.layer else [])) (some r))
      | some st => if st = stFORMAT then (settle (closeTask s t stFORMAT 0), none) else (s, none)
  | none => (s, run s none)

/-- Records of the token ring that placed tasks have reserved, and host buffers (R501, R762). -/
def reserved (s : State) (p : Nat) (host : Bool) : Nat :=
  (s.work.tasks.filter fun t => t.ptn == p && t.samples && t.state != .ready && (!host || t.hostSamples)).length
/-- Whether a sampling task has its token record, and its logits buffer in the host-assisted mode. -/
def roomForToken (s : State) (p : Nat) (host : Bool) (vocab : Nat) : Bool :=
  let ring := winRing p 4
  decide (reserved s p false + (s.regs.waiting.filter (·.1 == ring)).length < ringFree s ring)
  && (!host ||
    (let used := (s.serve.reqs.filter fun r => r.ptn == p && r.logitsBuf.isSome).length
     decide (used + reserved s p true < regFld s (winBase p + 0x608) 0 16) && vocab * 4 ≤ regFld s (winBase p + 0x608) 16 16 * 4096))
/-- Remote groups of the layer whose partial has not come (R351, R399). -/
def partialsOf (s : State) (r : Req) (l : Nat) : List Query := s.serve.queries.filter fun q => q.handle == r.handle && q.layer == l && q.qid == queryId r l
/-- Whether the image in force has a SEAL entry of a partition (R251). -/
def hasSeal (s : State) (p : Nat) : Bool := match image s with
  | some im => im.sections.any fun sc => sc.primary.any fun e => e.cls == 5 && e.ptn == p
  | none => false
/-- Tables CURRENT for a request's tensors at a layer (R25, R299). -/
def tensorTabs (s : State) (r : Req) (l : Nat) : List Nat :=
  ((if r.latent then [0] else [0, 1]).filterMap fun c => currentTab s r.ptn r.model l (compNum r.latent c)).map (·.num)
/-- A task of a request's step at its layer (R230, R246, R344, R345, R351, R501). -/
def tryReq (s : State) (k : Slot) (h : Nat) (old : Option Task) : Chosen :=
  match findReq s h, (findReq s h).bind fun r => modelOf s r.model with
  | some r, some md =>
    let l := r.layer
    let n := stepLen s r md
    let fail (st : Nat) : Chosen := (taskRec s { builtTask s k r.ptn ((k.clus).headD 0) old [] with request := some h, layer := l } st 0, none)
    let asks := !r.planGroups.isEmpty && r.phase == 0
    let samples := !asks && l + 1 == r.layers && (r.state == .decode || n == r.inputLeft)
    -- a step goes on in the modes under which it began (R25)
    let begins : Bool := r.stepTokens == 0
    let host := if begins then odGet s (0x9100 + r.ptn) 2 == 1 else r.logitsByHost
    let stops := if begins then odGet s (0x9100 + r.ptn) 1 == 1 else r.stopsByHost
    if !reqReady r k.e.cls || n = 0 then (s, none)
    else if k.e.cls = 1 && k.e.capB != 0 && k.e.capB < chunkOf s md * r.pageLen then fail stFORMAT
    else if rangeState s r l == some stFORMAT then fail stFORMAT
    else if (rangeState s r l).isSome then (s, none)
    else if !asks && !r.planGroups.isEmpty && (partialsOf s r l).any (fun q => q.partial_.isNone) then (s, none)
    else if (match openPageOf s r l with | some g => g.tokens == r.pageLen && (sealingPageOf s r l).isSome | none => false) then (s, none)
    else if samples && !roomForToken s r.ptn host md.vocab then (srvMark s r.ptn 2 1, none)
    else
      let first := r.length / r.pageLen
      let poss := (List.range ((r.length + n - 1) / r.pageLen - first + 1)).map (first + ·)
      let (s1, c, ok) := stagePages h l k poss none s
      match ok, (c.orElse fun _ => k.clus.head?) with
      | true, some cl =>
        let s2 := modReq s1 h fun r => { r with stepTokens := n }
        match findReq s2 h with
        | none => (s, none)
        | some r1 =>
          let prefill := r.state != .decode
          let tail := r.length / r.pageLen * r.pageLen
          let sealed_ := ((List.range (r.length / r.pageLen)).filter fun i => !planned r.planGroups i).map fun i => leafTiles (i * r.pageLen) r.pageLen
          let leaves := (sealed_.flatten ++ leafTiles tail (r.length + n - tail)).take 65534
          let heads := r.headsM1 + 1
          let rows0 := rowTiles prefill (r.bitmap != 0) r.length n heads r.groups
          let bitmaps := if r.bitmap = 0 then []
            else (List.range (maxN (rows0.map (·.2.2.2)) + 1)).map fun b => tierRead s2 (r.bitmap + (r.length / 32 + b) * r.bitmapStride) (cdiv (cdiv (r.length + n) 32) 8)
          let bitLines := sumN (bitmaps.map fun b => lines b.length)
          -- behind the list stand the query vectors that the task writes, or the partials that it merges
          let extra := if asks then lines (n * heads * md.qdim * 2) else if r.planGroups.isEmpty then 0 else r.planGroups.length * (partialSlot s2 r1 md / 64)
          let rows := rows0.take (fitTiles leaves.length bitLines extra rows0.length)
          let need := listLines leaves.length rows.length + bitLines + extra
          match scratchBase s2 cl need with
          | none => (s1, none)
          | some base =>
            let (s3, recs, line) := putTiles s2 cl base leaves rows prefill r.maskL bitmaps
            let s4 := if asks then s3 else putPartials s3 cl line r1 md (partialsOf s3 r l)
            -- where the image has no SEAL entry for the partition, the PREFILL program seals the pages that it fills (R251), side by side (log 91)
            let fills := if k.e.cls = 1 && !asks && !hasSeal s r.ptn then
                (poss.filter fun i => (i + 1) * r.pageLen ≤ r.length + n).filterMap fun i => (r1.pageNum l i).bind fun m => (findPage s4 r.ptn m).filter fun g => g.state == .open
              else []
            match if fills.isEmpty then some (0, 0) else findRoom s4 r.ptn false 1 (homeQuarter (cl / 16)) false (sumN (fills.map (·.slotTiles))) with
            | none => (startEviction s1 r.ptn, none)
            | some (tile, _) =>
              let seals := fills.mapIdx fun i g => (g.num, tile + i * g.slotTiles)
              let s4a := (fills.mapIdx fun i g => (i, g)).foldl (fun s x => modPage (takeRoom s r.ptn (tile + x.1 * x.2.slotTiles) x.2.slotTiles) r.ptn x.2.num fun g => { g with seals := true, sealDone := [] }) s4
              let args := [tile * 4096, base + recs * 2 ^ 16 + line % 65536 * 2 ^ 32, line % 65536, stagingArg s4a r1 l]
              let t : Task := {
                builtTask s4a k r.ptn cl old args with
                request := some h, epoch := r.epoch, layer := l, costA := 1, costB := n, samples := samples, hostSamples := samples && host, lineEnd := Nat.min 65536 (base + need), bf16 := some r.partialBf16,
                page := seals.head?, more := seals.drop 1, tabs := if seals.isEmpty then [] else tensorTabs s4a r1 l }
              let s5 := warmPages (if asks then s4a else setProv s4a r1 l n) r.ptn (attended r l ++ tailPages s4a r1 l)
              let s6 := if r.state == .queued then goState s5 h .prefill else s5
              (s1, some (modReq s6 h fun r => { r with dispatched := true, task := some t.id, stopsByHost := stops, logitsByHost := host }, t, [mkUid 1 cl]))
      | _, _ => (s1, none)
  | _, _ => (s, none)

/-- A SEAL task of a page (R251): the slot page is allocated, and its address stands in ARG0. -/
def trySeal (s : State) (k : Slot) (p num : Nat) (old : Option Task) : Chosen :=
  match findPage s p num with
  | none => (s, none)
  | some g =>
    match g.stage with
    | none => (wantLoad s k.clus g, none)
    | some (cl, _) =>
      if !k.clus.contains cl then (s, none)
      else match s.serve.reqs.find? fun r => r.ptn == p && r.pageNum g.layer g.position == some num with
        | none => (s, none)
        | some r =>
          if atRest r || r.state == .handoff then (s, none)
          else match pageRoom s p cl g.slotTiles with
          | none => (startEviction s p, none)
          | some (tile, s1) =>
            let t : Task := {
              builtTask s1 k p cl old [tile * 4096, 0, 0, stagingArg s1 r g.layer] with
              request := some r.handle, epoch := r.epoch, layer := g.layer, page := some (num, tile), tabs := tensorTabs s r g.layer, costA := 1, costB := 0 }
            (s, some (modPage s1 p num fun g => { g with seals := true, sealDone := [] }, t, [mkUid 1 cl]))

/-- Pages that an ATTEND task reads for a group: those the holder has at the layer (R350). -/
def groupPages (s : State) (r : Req) (l : Nat) (g : Nat × Nat) : List Page :=
  ((List.range (2 ^ g.2)).filterMap fun i => (r.pageNum l (g.1 + i)).bind (findPage s r.ptn)).filter fun x => x.nearValid || x.farValid
/-- An ATTEND task for one group of a query (R350, R396, R397). ARG2 names the line where it leaves its partial [15:0], that of the query's
vectors [31:16], and the records that PARAM [43:32] and ROPE_TABLE [54:44] name (R394; log 91). None while the scratch has no room. -/
def tryGroup (s : State) (k : Slot) (q : HolderQuery) (r : Req) (g : Nat × Nat) (old : Option Task) : Option (State × Task × List Nat) :=
  let t0 : Task := { builtTask s k q.ptn 0 old [] with pin := false, level := 1 }
  match k.clus with
  | [] => none
  | c :: cs =>
    let u := (cs.map (mkUid 1)).foldl (better s k t0 none none [] []) (mkUid 1 c)
    let cl := uidCluster u
    let ps := groupPages s r q.layer g
    let qlen := Nat.max 1 (bits q.args 8 16 / (bits q.args 104 8 + 1))
    let leaves := ((ps.map fun x => leafTiles (x.position * r.pageLen) r.pageLen).flatten).take 65534
    let rows0 := rowTiles (bit q.args 96) false (bits q.args 64 32) qlen (bits q.args 104 8 + 1) r.groups
    let lanes := bits q.args 8 16
    let partial_ := ((modelOf s r.model).map fun md => lines (partialSize lanes (outDim s md) (if q.bf16 then 2 else 4))).getD 0
    let extra := lines q.body.length + partial_
    let rows := rows0.take (fitTiles leaves.length 0 extra rows0.length)
    let need := listLines leaves.length rows.length + extra
    (scratchBase s cl need).bind fun base =>
    let (s1, recs, line) := putTiles s cl base leaves rows (bit q.args 96) (bits q.args 128 32) []
    let s2 := putScratch s1 cl line q.body
    let t : Task := {
      builtTask s2 k q.ptn cl old [g.1 + g.2 * 2 ^ 16, base + recs * 2 ^ 16 + line % 65536 * 2 ^ 32,
        (line + lines q.body.length) % 65536 + line % 65536 * 2 ^ 16 + bits q.args 40 12 * 2 ^ 32 + bits q.args 52 11 * 2 ^ 44, 0x1FFF * 2 ^ 21] with
      request := none, serves := some r.handle, epoch := r.epoch, layer := q.layer, costA := 1, costB := ps.length, lineEnd := Nat.min 65536 (base + need), bf16 := some q.bf16 }
    let pins := ps.map fun x => (x.num, !x.nearValid)
    let s3 := pins.foldl (fun s x => modPage s q.ptn x.1 fun g => if x.2 then { g with pinFar := g.pinFar + 1 } else { g with pinNear := g.pinNear + 1 }) s2
    let s4 := (warmPages s3 q.ptn (ps.map (·.num))).modServe fun w => { w with
      held := updIf (fun x => x == q) (fun x => { x with groups := x.groups.filter (· != g), tasks := x.tasks ++ [(t.id, pins)] }) w.held }
    some (s4, t, [u])
/-- A retried ATTEND task: its pins are dropped and taken again as it is placed (R397). -/
def retryGroup (s : State) (k : Slot) (t : Task) : Option (State × Task × List Nat) :=
  match s.serve.held.find? fun q => q.tasks.any (·.1 == t.id) with
  | none => none
  | some q =>
    let g := (bits (t.args.headD 0) 0 16, bits (t.args.headD 0) 16 5)
    let pinned := ((q.tasks.find? (·.1 == t.id)).map (·.2)).getD []
    let s1 := pinned.foldl (fun s x => modPage s q.ptn x.1 fun g => if x.2 then { g with pinFar := g.pinFar - 1 } else { g with pinNear := g.pinNear - 1 }) s
    let q1 := { q with groups := q.groups ++ [g], tasks := q.tasks.filter (·.1 != t.id) }
    let s2 := s1.modServe fun w => { w with held := updIf (· == q) (fun _ => q1) w.held }
    (findReq s2 q.handle).bind fun r => tryGroup s2 k q1 r g (some t)
/-- An ATTEND task sent back by RETRIED is placed again; one whose request has gone ends, its group answered EPOCH (R119, R396, R398). -/
def tryAttend (s : State) (k : Slot) (t : Task) : Chosen :=
  match s.serve.held.find? fun q => q.tasks.any (·.1 == t.id) with
  | none => (s, none)
  | some q =>
    if (findReq s q.handle).isSome then (s, retryGroup s k t)
    else (answerQuery (s.modWork fun w => { w with tasks := w.tasks.filter (·.id != t.id) }) t stEPOCH, none)
/-- A query is placed whole: one task per group (R396). A query whose request has gone is answered EPOCH. -/
def placeQuery (q : HolderQuery) (a : State × Slot) : State × Slot :=
  let (s, k) := a
  if k.full || q.groups.isEmpty then a
  else match findReq s q.handle with
  | none =>
    (sendState (s.modServe fun w => { w with held := w.held.filter (· != q) }) q.dev 0x11
      { srcPtn := q.ptn, dstPtn := q.srcPtn, srcHandle := q.handle, dstHandle := q.srcHandle, epoch := q.epoch, status := stEPOCH, qid := q.qid }, k)
  | some r =>
    let pages := sumN (q.groups.map fun g => (groupPages s r q.layer g).length)
    if (k.e.capA != 0 && k.e.capA < k.usedA + 1) || (k.e.capB != 0 && k.e.capB < k.usedB + pages) then (s, { k with full := true })
    else
      let s1 := q.groups.foldl (fun s g =>
        match s.serve.held.find? fun x => x.handle == q.handle && x.dev == q.dev && x.srcHandle == q.srcHandle && x.qid == q.qid && x.epoch == q.epoch with
        | some q' => ((tryGroup s k q' r g none).map fun x => bindTask x.1 k x.2.1 x.2.2).getD s
        | none => s) s
      (s1, { k with usedA := k.usedA + 1, usedB := k.usedB + pages })

/-- Place a candidate unless it would exceed CAP_A or CAP_B, where placement stops (R117). -/
def placeOne (f : State → Slot → Chosen) (a : State × Slot) : State × Slot :=
  let (s, k) := a
  if k.full then a
  else match f s k with
    | (s0, none) => (s0, k)
    | (s0, some (s1, t, us)) =>
      if (k.e.capA != 0 && k.e.capA < k.usedA + t.costA) || (k.e.capB != 0 && k.e.capB < k.usedB + t.costB) then (s0, { k with full := true })
      else (bindTask s1 k t us, { k with usedA := k.usedA + t.costA, usedB := k.usedB + t.costB })

/-- Tasks of a class and partition that wait, with the requests, pages and queries whose tasks the dispatcher builds at this start, in wait
order: what places each (R117, R165, R396). -/
def candidates (s : State) (k : Slot) : List (State × Slot → State × Slot) :=
  let p := k.e.ptn
  let waiting := s.work.tasks.filter fun t => t.state == .ready && t.kind == 1 && t.cls == k.e.cls && t.ptn == p
  let drop (t : Task) (s : State) : State := s.modWork fun w => { w with tasks := w.tasks.filter (·.id != t.id) }
  let back (c : Chosen) (s : State) : Chosen := match c with
    | (_, some x) => (s, some x)
    | (s0, none) => ({ s0 with work := { s0.work with tasks := s.work.tasks } }, none)
  -- the record of a request that is to be placed is loaded first (R228, R229)
  let loaded (h : Nat) (s : State) (f : State → Chosen) : Chosen :=
    let s1 := loadRsr s h
    if (findReq s1 h).isNone then (s1, none) else f s1
  -- work sent back by RETRIED heads the wait; the rest waits since it became READY (R117, R119)
  let old : List (Nat × (State → Slot → Chosen)) := waiting.map fun t => (if t.attempt = 0 then t.readyNs + 1 else 0, fun s k =>
    if t.src != TaskSrc.dispatcher then (match t.request with | some h => loaded h s fun s => tryRing s k t | none => tryRing s k t)
    else match t.cls, t.page, t.request with
      | 5, some (num, _), _ => back (trySeal (drop t s) k p num (some t)) s
      | 4, _, _ => tryAttend s k t
      | _, _, some h => loaded h s fun s => back (tryReq (drop t s) k h (some t)) s
      | _, _, none => (s, none))
  let busy := s.work.tasks.filterMap fun t => if t.src == TaskSrc.dispatcher then t.request else none
  let reqs (ok : Req → Bool) : List (Nat × (State → Slot → Chosen)) :=
    (s.serve.reqs.filter fun r => r.ptn == p && ok r && !busy.contains r.handle).map fun r => (Nat.max r.acceptedAt r.waitNs + 1, fun s k => if reqReady r k.e.cls then loaded r.handle s fun s => tryReq s k r.handle none else (s, none))
  let fresh : List (Nat × (State → Slot → Chosen)) :=
    if k.e.cls = 1 then reqs fun r => r.state == .queued || r.state == .prefill
    else if k.e.cls = 2 then reqs fun r => r.state == .decode
    else if k.e.cls = 5 then
      (sortBy (·.num) (s.serve.pages.filter fun g => g.ptn == p && g.state == .sealing && !g.seals)).map fun g => (g.waitNs + 1, fun s k => trySeal s k p g.num none)
    else []
  let queries := if k.e.cls = 4 then (s.serve.held.filter fun q => q.ptn == p && !q.groups.isEmpty).map fun q => (q.waitNs + 1, placeQuery q) else []
  (sortBy (·.1) ((old ++ fresh).map (fun x => (x.1, placeOne x.2)) ++ queries)).map (·.2)
/-- Whether the budget keeps a partition's PREFILL and DECODE work out of a slot (R118, R481, R482). -/
def budgetHolds (s : State) (e : Entry) : Bool :=
  (e.cls == 1 || e.cls == 2) && !inCredit s e.ptn && (e.common || odGet s (0x91A0 + e.ptn) 6 == 1)
/-- Whether PREFILL or DECODE work of a class waits. -/
def hasWork (s : State) (p cls : Nat) : Bool :=
  s.work.tasks.any (fun t => t.state == .ready && t.kind == 1 && t.cls == cls && t.ptn == p) || s.serve.reqs.any fun r => r.ptn == p && reqReady r cls
/-- Fill a slot with the READY work of its class and partition; what it takes of its caps is kept for the slot (R117). -/
def fillSlot (s : State) (sec ent : Nat) (e : Entry) : State :=
  let k : Slot := { sec := sec, ent := ent, e := e, units := entryUnits s sec ent e (Nat.min 2 (uidLevel e.uid)), clus := entryClusters s sec ent e }
  -- a constellation that is not LIT takes no task (R34), nor one that dims for a failed test (R778)
  let dim := (entryCons s sec ent e).filter fun l => match physOf s l with
    | some p => !((getCon s p).service == .lit || ((getCon s p).service == .dimming && (getCon s p).dimCause == 0)) | none => true
  let k := { k with units := k.units.filter fun u => !dim.contains (uidCon u), clus := k.clus.filter fun c => !dim.contains (c / 16) }
  if budgetHolds s e then
    (if hasWork s e.ptn e.cls then
      let s1 := if s.serve.marks.any fun m => m.ptn == e.ptn && m.code == 3 then s else odCount s (0x91C0 + e.ptn) 6
      srvMark s1 e.ptn 3 0
    else s)
  else
    let x := if e.cls = 3 then tableEntry s e.ptn e.capA e.capB 0 0 false else (s, 0, 0, false)
    let a := (candidates x.1 k).foldl (fun a f => f a) (x.1, { k with usedA := x.2.1, usedB := x.2.2.1, full := x.2.2.2 })
    let s1 := useSlot a.1 sec ent a.2.usedA a.2.usedB a.2.full
    if e.cls = 5 then codePages s1 e.ptn e.capB a.2.usedB else s1

/-- COMPUTE_SLOT_START: the entry runs on its units, a constellation that still rests begins to wake, and
the dispatcher fills the slot; a TEST entry runs its test steps, `fails` naming the constellations on which
one fails (R79, R93, R115, R117, R123, R794-R799). -/
def execComputeSlotStart (sec ent : Nat) (fails : List Nat) (s : State) : Host.Outcome State Fault Refusal :=
  .next (match entryNow s sec ent, image s with
    | some e, some im =>
      let slip := entrySlip s sec ent e
      let cons := entryCons s sec ent e
      if !isCompute e.cls || (findSlot s sec ent).isSome || im.cycleTicks ≤ e.start + slip
        || ((e.cls == 7 || e.cls == 8) && e.length ≤ slip) || s.eph.skipped.contains (sec, ent)
        -- the first entry after an abort starts when the abort ends (R121)
        || s.eph.slots.any (fun r => r.aborting && meets r.stars (entryStars s sec ent e)) then s
      else
        let s1 := clearLeads (s.modEph fun x => { x with
          slots := x.slots ++ [{ sec := sec, ent := ent, ptn := e.ptn, cons := cons, stars := entryStars s sec ent e, slip := slip }] }) cons sec ent
        -- a partition that has left ACTIVE gets no work (R115)
        let live := (getPtn s e.ptn).state == .active && !runsEmpty s e.ptn
        if e.cls = 8 then (cons.filter fails.contains).foldl (fun s l => match physOf s l with | some p => testFault s p e.action | none => s) s1
        else if e.cls = 7 || !live then s1
        else fillSlot (wakeCons s1 cons) sec ent e
    | _, _ => s)

/-- Entries of a compute class of a partition that run in this cycle from a tick on, the first of all when none is left. -/
def nextEntries (s : State) (p cls after : Nat) : List (Nat × Nat × Entry) :=
  let es := sortBy (fun x => x.2.2.start) ((tableOf s).filter fun x => x.2.2.cls == cls && x.2.2.ptn == p)
  let later := es.filter fun x => after ≤ x.2.2.start
  (if later.isEmpty then es else later).take 1
/-- Open pages that the work of a partition needs and that are not staged are loaded ahead of its next compute slots (R244). -/
def stageAhead (s : State) (p after : Nat) : State :=
  let needs (cls : Nat) (g : Page) : Bool :=
    g.ptn == p && g.stage.isNone &&
    (if cls = 5 then g.state == .sealing
     else g.state == .open && s.serve.reqs.any fun r => r.ptn == p && reqReady r cls && r.pageNum g.layer g.position == some g.num)
  [1, 2, 5].foldl (fun s cls => (nextEntries s p cls after).foldl (fun s x =>
    (s.serve.pages.filter (needs cls)).foldl (fun s g => wantLoad s (entryClusters s x.1 x.2.1 x.2.2) g) s) s) s
/-- The transfers that an entry starts, in order, within CAP_A and CAP_B; a cap of 0 sets no limit (R94). -/
def startXfers (capA capB : Nat) : Nat → Nat → List Xfer → List Nat
  | _, _, [] => []
  | n, tiles, x :: r =>
    if (capA != 0 && capA ≤ n) || (capB != 0 && capB < tiles + x.tiles) then []
    else x.id :: startXfers capA capB (n + 1) (tiles + x.tiles) r
def isWriteback (x : Xfer) : Bool := match x.what with | .writeBack .. => true | _ => false
/-- MOVER_ENTRY_START: transfers of the entry's kind and partition start in their order, write-backs first; in a PCIe entry the
partition's DMA runs (R94, R127, R247, R360, R690). -/
def execMoverEntryStart (sec ent : Nat) (s : State) : Host.Outcome State Fault Refusal :=
  .next (match entryNow s sec ent with
    | none => s
    | some e =>
      if e.cls != 0x18 || isolated s e.ptn || runsEmpty s e.ptn then s
      else
        let s1 := progressPtn s e.ptn
        let s2 := if e.action % 4 = 0 then stageAhead (takeVictims (nearLow s1 e.ptn) e.ptn s1.serve.pages.length) e.ptn e.start else s1
        let ws := s2.serve.xfers.filter fun x => x.ptn == e.ptn && x.kind == e.action % 4 && !x.running && !x.coding
        let ids := startXfers e.capA e.capB 0 0 (ws.filter isWriteback ++ ws.filter fun x => !isWriteback x)
        let s3 := s2.modServe fun w => { w with xfers := updIf (fun x => ids.contains x.id) (fun x => { x with running := true, stuck := none }) w.xfers }
        if e.action % 4 = 3 then drainDma (s3.modEph fun x => { x with pcie := x.pcie ++ [(sec, ent, e.ptn)] }) e.ptn else s3)

end Sys2Proof.Machine
end

