-- ==== Sys2Proof/Machine/Link.lean ====
section
/-! DEFINITION. Ports and the link layer (R530-R567), egress service (R622-R643), recalibration and transfer windows:
training, attestation, cells in and out, acknowledgement, replay, failure and masking. -/

namespace Sys2Proof.Machine
open Sys2Proof

/-- The traffic keys and the mode in which a port is a cell link: KQ, or the pair link on. -/
def isCellLink (s : State) (n : Nat) : Bool := n ≤ 16 && portMode s n == 1 && !oddHalf s n
def isEth (s : State) (n : Nat) : Bool := n < 16 && portMode s n == 2
/-- The next value of the control count of a direction, for an unsequenced cell (R542, R544). -/
def sendControl (s : State) (n kind : Nat) (payload : List Byte) : State :=
  let l := linkOf s n
  let s1 := modLink s n fun l => { l with ctl := (l.ctl + 1) % 2 ^ 32, ctlWrap := l.ctlWrap + (if l.ctl = 2 ^ 32 - 1 then 1 else 0) }
  emit s1 (.control n kind l.ctl payload)
/-- A sequenced cell takes the next LSEQ and is held for replay (R542, R550). -/
def takeSeq (s : State) (n : Nat) (cell : Option Cell) (link : List Byte) : State :=
  modLink s n fun l => { l with
    txSeq := (l.txSeq + 1) % 2 ^ 32, txWrap := l.txWrap + (if l.txSeq = 2 ^ 32 - 1 then 1 else 0),
    replay := l.replay ++ [{ lseq := l.txSeq, cell := cell, link := link, sentAt := now s }] }
/-- A LINK cell (R542). -/
def sendLink (s : State) (n : Nat) (payload : List Byte) : State :=
  emit (takeSeq s n none payload) (.control n 4 (linkOf s n).txSeq payload)
/-- ACK and NAK payload: the next LSEQ expected and the running counts of freed cells (R548). -/
def ackPayload (l : Link) : List Byte := leBytes 4 l.rxSeq ++ (l.freed.map (leBytes 4)).flatten
def sendAck (s : State) (n : Nat) : State :=
  sendControl (modLink s n fun l => { l with sinceAck := 0, ackFrom := none }) n 2 (ackPayload (linkOf s n))
/-- NAK, once for an expected value (R549). -/
def sendNak (s : State) (n : Nat) : State :=
  sendControl (modLink (linkCount s n 4) n fun l => { l with nakAt := some (now s) }) n 3 (ackPayload (linkOf s n))
def nakOnce (s : State) (n : Nat) : State :=
  if (linkOf s n).state == 3 && (linkOf s n).nakAt.isNone then sendNak s n else s
/-- HELLO (R543): device, rack domain, serial, port, pair position. -/
def helloPayload (s : State) (n : Nat) : List Byte :=
  [2] ++ leBytes 1 (myDev s) ++ leBytes 4 (getReg s 0x24).toNat ++ leBytes 4 (getReg s 0x28).toNat ++ leBytes 8 (serial s) ++ leBytes 1 n ++ leBytes 1 s.fab.pairPos
def kqEvent (s : State) (code : Nat) (payload : List Nat) : State := raisePf s { cls := 6, code := code, payload := payload }
/-- Ports that are UP, with their partners. -/
def upPorts (s : State) : List (Nat × Nat) :=
  (List.range 17).filterMap fun n => if portIsUp s n && isCellLink s n then some (n, (linkOf s n).partner) else none
/-- The one-cell topology message to each neighbour, in the hardware fabric-routes mode (R583, R622, R635); the layout of
its list and its place on the stream of replies are the model's (DESIGN CHOICE). -/
def topoBytes (s : State) : List Byte :=
  [0x60, BitVec.ofNat 8 (upPorts s).length] ++ ((upPorts s).map fun (n, d) => [BitVec.ofNat 8 n, BitVec.ofNat 8 d]).flatten
def sendTopology (s : State) : State :=
  if odGet s 0x9000 1 = 1 then s
  else (upPorts s).foldl (fun t (n, d) =>
    enqueue t n 32 (.cell { cls := 7, first := true, last := true, src := myDev s, dst := d, msgId := 0, offset := 0, stream := 0xFFF, sseq := 0, ptn := 0, payload := topoBytes s })) s

/-- TRAINING begins (R535): delineation hunts, no keys stand. -/
def startTraining (s : State) (n : Nat) : State :=
  if halted s then s else
  sendTopology <| modLink s n fun l => { l with
    state := 1, trainAt := now s, nextTry := none, delin := 0, good := 0, bad := 0, lostAt := none, lanes := 0, spdm := 0, keys := false, hello := false, acked := false, sak := false,
    txSeq := 0, rxSeq := 0, replay := [], nakAt := none, sinceAck := 0, ackFrom := none }
/-- DATA cells that leave a failed port by other paths of their destination (R553); a cell without one is discarded. -/
def repath (s : State) (cs : List Cell) : State :=
  cs.foldl (fun s c => match routeCell s c c.ptn (c.src != myDev s) with
    | some s1 => s1
    | none => kqtOnce (countDrop s) none 1 c.dst [c.dst]) s
/-- An event of the pair link's failure or return (R785, R787, R810). -/
def pairEvent (s : State) (entered silent : Bool) : State :=
  raisePf s { cls := 0xB, code := 6, payload := [b2n (s.ras.drill.any (·.1 == 3)), b2n entered, b2n silent] }
/-- A port leaves TRAINING, ATTEST or UP (R535, R536, R552, R553): masked, back-off armed, unacknowledged DATA cells sent
by other paths with RETRY and unsent ones as they are. -/
def leaveUp (s : State) (n state cause : Nat) : State :=
  let l := linkOf s n
  let up := l.state == 3
  let again := if up then l.replay.filterMap fun r => r.cell.map fun c => { c with retry := true } else []
  let unsent := if isEth s n then [] else ((l.queues.map (·.2)).flatten.filterMap fun q => match q with | .cell c => some c | _ => none)
  let b := if l.backoff = 0 then 1 else Nat.min 64 (2 * l.backoff)
  let s1 := modLink s n fun l => { l with
    state := state, cause := cause, delin := 0, lostAt := none, lanes := 0, keys := false, hello := false, sak := false, replay := [], nakAt := none, sinceAck := 0, ackFrom := none,
    backoff := if state = 4 then b else 0, nextTry := if state = 4 then some (now s + b * 1000000000) else none,
    queues := if isEth s n then l.queues else [], guarded := [] }
  let s2 := repath s1 (again ++ unsent)
  let s3 := if up then kqEvent s2 2 [n, cause, again.length] else s2
  let s4 := if up && n == 16 && !s.fab.degraded && !halted s then pairEvent (s3.modFab fun b => { b with degraded := true }) true false else s3
  sendTopology s4
/-- A failure of a port that trains, attests or is UP. -/
def linkDown (s : State) (n cause : Nat) : State :=
  let l := linkOf s n
  if l.state == 1 || l.state == 2 || l.state == 3 then leaveUp s n 4 cause else s
/-- A port reaches UP (R535, R548, R551, R559). -/
def goUp (s : State) (n : Nat) : State :=
  let s1 := modLink s n fun l => { l with
    state := 3, backoff := 0, txSeq := 0, rxSeq := 0, replay := [], credits := List.replicate 8 64, freed := List.replicate 8 0, seen := List.replicate 8 0,
    nakAt := none, sinceAck := 0, ackFrom := none, tagAt := [], paused := 0 }
  let s2 := (kqEvent s1 1 [n, (linkOf s n).partner]).modRas fun r => { r with drill := if r.drill == some (2, n) || (n == 16 && r.drill.any (·.1 == 3)) then none else r.drill }
  let s3 := if n == 16 && s.fab.unpaired then kqEvent (s2.modFab fun b => { b with unpaired := false }) 4 [0] else s2
  sendTopology s3
/-- KQ_CTL of a port takes effect after a commit (R532, R533, R535, R558): OFF is left for TRAINING, and entered with a DOWN notice
first when UP; the odd half of a merged port reads MERGED. The DOWN notice gives CAUSE CMD. -/
def applyKqCtl (s : State) (n : Nat) : State :=
  let l := linkOf s n
  if oddHalf s n then (if l.state == 5 then s else sendTopology <| modLink s n fun l => { l with state := 5, nextTry := none })
  else if portMode s n = 0 || portMode s n = 3 || (n == 16 && s.fab.pairPos == 2) then
    if l.state == 0 then s
    else if l.state == 3 then leaveUp (if l.keys then sendLink s n [3, 7] else s) n 0 7
    else sendTopology <| modLink s n fun l => { l with state := 0, nextTry := none, backoff := 0 }
  else if l.state == 0 || l.state == 5 then startTraining s n
  else s

/-- PORT_TRAINED: every lane is trained, FEC is aligned and, in KQ mode, delineation is in SYNC (R535, R561). -/
def execPortTrained (port lanes : Nat) (s : State) : Host.Outcome State Fault Refusal :=
  .next (
    let l := linkOf s port
    if l.state != 1 || lanes % 16 != 15 then s
    else if isCellLink s port then
      if l.delin == 2 then sendTopology <| modLink s port fun l => { l with state := 2, lanes := 15 } else s
    else if isEth s port then
      let s1 := modLink s port fun l => { l with lanes := 15 }
      if (getReg s (portBase port)).getLsbD 6 && !l.sak then s1 else goUp s1 port
    else s)
/-- MKA_SAK_INSTALLED: a MACsec port that is trained reaches UP (R561). -/
def execMkaSakInstalled (port : Nat) (s : State) : Host.Outcome State Fault Refusal :=
  .next (
    let l := linkOf s port
    if !isEth s port || l.state != 1 then s
    else
      let s1 := modLink s port fun l => { l with sak := true }
      if l.lanes == 15 then goUp s1 port else s1)
/-- MKA_PEER_TIMEOUT (R561). -/
def execMkaPeerTimeout (port : Nat) (s : State) : Host.Outcome State Fault Refusal :=
  .next (if isEth s port && (linkOf s port).state == 3 then linkDown s port 5 else s)
/-- ATTEST_COMPLETE: session, HELLO and the first ACK have come (R535). -/
def execAttestComplete (port : Nat) (s : State) : Host.Outcome State Fault Refusal :=
  .next (
    let l := linkOf s port
    if isCellLink s port && l.state == 2 && l.keys && l.hello && l.acked then goUp s port else s)
/-- TRAIN_TIMEOUT: 500 ms in TRAINING and ATTEST (R535). -/
def execTrainTimeout (port : Nat) (s : State) : Host.Outcome State Fault Refusal :=
  .next (if (linkOf s port).state == 1 || (linkOf s port).state == 2 then linkDown s port 1 else s)
/-- BACKOFF_EXPIRY (R535, R536). -/
def execBackoffExpiry (port : Nat) (s : State) : Host.Outcome State Fault Refusal :=
  .next (if (linkOf s port).state == 4 then startTraining s port else s)
/-- AN_SIGNAL_DETECTED: at once, whatever back-off remains (R537). -/
def execAnSignalDetected (port : Nat) (s : State) : Host.Outcome State Fault Refusal :=
  .next (if (linkOf s port).state == 4 then startTraining s port else s)
/-- KQ_CMD.RETRAIN (R535, R536, R564): the back-off starts again in any state. -/
def retrain (s : State) (n : Nat) : State :=
  let l := linkOf s n
  let s1 := modLink (if l.state == 3 then linkDown s n 7 else s) n fun l => { l with backoff := 0 }
  if l.state == 3 || l.state == 4 then startTraining s1 n else s1
/-- KQ_RETRAIN. -/
def execKqRetrain (port : Nat) (s : State) : Host.Outcome State Fault Refusal := .next (retrain s port)

/-- A window in SYNC fails its HCRC: counted, answered with a NAK, and the seventh in a row returns to HUNT (R546, R547). -/
def windowFails (s : State) (n : Nat) : State :=
  let s1 := nakOnce (linkCount s n 0) n
  let l := linkOf s1 n
  if l.bad + 1 < 7 then modLink s1 n fun l => { l with bad := l.bad + 1 }
  else modLink (linkCount s1 n 7) n fun l => { l with delin := 0, good := 0, bad := 0, lostAt := if l.state == 3 then some (now s) else none }
/-- DELINEATION_CHECK (R546, R555). -/
def execDelineationCheck (port : Nat) (hcrcOk ccrcOk : Bool) (s : State) : Host.Outcome State Fault Refusal :=
  .next (
    let l := linkOf s port
    if !isCellLink s port || !(l.state == 1 || l.state == 2 || l.state == 3) || s.eph.recal.contains port then s
    else match l.delin with
      | 0 => if hcrcOk then modLink s port fun l => { l with delin := 1, good := 0 } else s
      | 1 =>
        if !(hcrcOk && ccrcOk) then modLink s port fun l => { l with delin := 0, good := 0 }
        else if l.good + 1 < 6 then modLink s port fun l => { l with good := l.good + 1 }
        else modLink s port fun l => { l with delin := 2, good := 0, bad := 0, lostAt := none }
      | _ => if hcrcOk then modLink s port fun l => { l with bad := 0 } else windowFails s port)
/-- DELIN_TIMEOUT: no SYNC within 2 µs (R552). -/
def execDelinTimeout (port : Nat) (s : State) : Host.Outcome State Fault Refusal :=
  .next (
    let l := linkOf s port
    if l.state == 3 && l.delin != 2 && l.lostAt.isSome then linkDown s port 3 else s)
/-- LOSS_OF_SIGNAL: of the port, or of one lane (R534, R552); lanes of the odd half are those of the merged port (R532), and in a
RECAL_SERDES window no lane is looked at (R555). -/
def execLossOfSignal (port : Nat) (lane : Bool) (s : State) : Host.Outcome State Fault Refusal :=
  let n := if oddHalf s port then port - 1 else port
  .next (if s.eph.recal.contains n then s else linkDown s n (if lane then 9 else 2))

/-- TYPE of a cell (R542). -/
def cellKind (c : WireCell) : Nat := bits c.hdr.toNat 124 4
/-- The checks of a cell of a TYPE, in their order: FEC, HCRC, CCRC, TAG (R545, R547, R551-R556). True when it passes; a
stomp passes with its valid TAG. -/
def checkCell (s : State) (n kind : Nat) (c : WireCell) : State × Bool :=
  let l := linkOf s n
  let h := c.hdr.toNat
  if !isCellLink s n || !(l.state == 2 || l.state == 3) || l.delin != 2 || s.eph.recal.contains n then (s, false)
  else if !c.fec then (nakOnce (linkCount s n 3) n, false)
  else if bits h 0 16 != hcrc h then (windowFails s n, false)
  else
    let s0 := modLink s n fun l => { l with bad := 0 }
    if !c.ccrc && !c.stomp then (nakOnce (linkCount s0 n 1) n, false)
    else if 6 ≤ cellKind c || 112 < bits h 16 7 then (nakOnce s0 n, false)
    else if l.keys && !c.tag then
      let recent := (l.tagAt.filter fun t => now s - t < 1000000) ++ [now s]
      let s1 := modLink (linkCount s0 n 2) n fun l => { l with tagAt := recent }
      (if l.state == 3 && 16 ≤ recent.length then linkDown s1 n 5 else nakOnce s1 n, false)
    else (s0, cellKind c == kind)
/-- Acceptance by LSEQ (R549): true when the cell is accepted. -/
def acceptSeq (s : State) (n seq : Nat) : State × Bool :=
  let l := linkOf s n
  let d := (seq + 2 ^ 32 - l.rxSeq) % 2 ^ 32
  if d = 0 then
    let s1 := modLink s n fun l => { l with
      rxSeq := (l.rxSeq + 1) % 2 ^ 32, nakAt := none, sinceAck := l.sinceAck + 1, ackFrom := some (l.ackFrom.getD (now s)) }
    (if l.sinceAck + 1 < 64 then s1 else sendAck s1 n, true)
  else if d < 2 ^ 31 then (nakOnce s n, false)
  else (s, false)
/-- A LINK cell that passes its checks and its LSEQ. -/
def linkCell (s : State) (n : Nat) (c : WireCell) (op : Nat) (act : State → State) : State :=
  let (s1, ok) := checkCell s n 4 c
  if !ok then s1
  else
    let (s2, fresh) := acceptSeq s1 n c.seq
    if fresh && leAt c.payload 0 1 == op then act s2 else s2
/-- LINK_SPDM_CELL: a fragment of the SPDM session. What the session finds is decided outside: 0 it goes on, 1 the keys
exist and HELLO goes out, 2 it fails; `reply` is the fragment that answers, if there is one (R535, R538). -/
def execLinkSpdmCell (port : Nat) (c : WireCell) (outcome : Nat) (reply : List Byte) (s : State) : Host.Outcome State Fault Refusal :=
  .next (linkCell s port c 1 fun s =>
    let l := linkOf s port
    if l.state != 2 then s
    else
      let s1 := if reply.isEmpty then s else sendLink s port (1 :: reply.take 223)
      match outcome with
      | 0 => modLink s1 port fun l => { l with spdm := l.spdm + 1 }
      | 1 => sendLink (modLink s1 port fun l => { l with keys := true }) port (helloPayload s port)
      | _ => kqEvent (linkDown s1 port 5) 3 [port, l.spdm])
/-- LINK_HELLO: another rack domain, or on the pair link the own pair position, takes the link DOWN (R535, R543, R558). -/
def execLinkHello (port : Nat) (c : WireCell) (s : State) : Host.Outcome State Fault Refusal :=
  .next (linkCell s port c 2 fun s =>
    if (linkOf s port).state != 2 || !(linkOf s port).keys then s
    else if leAt c.payload 2 8 != (getReg s 0x24).toNat + (getReg s 0x28).toNat * 2 ^ 32 then linkDown s port 6
    else if port == 16 && leAt c.payload 19 1 == s.fab.pairPos then linkDown s port 6
    else modLink s port fun l => { l with hello := true, partner := leAt c.payload 1 1, serial := leAt c.payload 10 8, peerPort := leAt c.payload 18 1 })
/-- LINK_DOWN_NOTICE (R552). -/
def execLinkDownNotice (port : Nat) (c : WireCell) (s : State) : Host.Outcome State Fault Refusal :=
  .next (linkCell s port c 3 fun s => if (linkOf s port).state == 3 then linkDown s port 8 else s)
/-- What ACK and NAK carry (R548): replay entries freed, credits returned. -/
def takeAck (s : State) (n : Nat) (p : List Byte) : State :=
  let l := linkOf s n
  let d := (leAt p 0 4 + 2 ^ 32 - (l.txSeq + 2 ^ 32 - l.replay.length) % 2 ^ 32) % 2 ^ 32
  let counts := (List.range 8).map fun c => leAt p (4 + 4 * c) 4
  modLink s n fun l => { l with
    acked := true, replay := if d ≤ l.replay.length then l.replay.drop d else l.replay,
    credits := (List.range 8).map fun c => l.credits.getD c 0 + (counts.getD c 0 + 2 ^ 32 - l.seen.getD c 0) % 2 ^ 32, seen := counts }
/-- Send every held cell again, the same bytes (R550). -/
def resendAll (s : State) (n : Nat) : State :=
  if (linkOf s n).replay.isEmpty then s
  else
    let s1 := modLink (linkCount s n 5) n fun l => { l with replay := l.replay.map fun r => { r with resends := r.resends + 1, sentAt := now s } }
    (linkOf s n).replay.foldl (fun s r => match r.cell with
      | some c => emit s (.cell n r.lseq c.header c.payload c.stomp)
      | none => emit s (.control n 4 r.lseq r.link)) s1
/-- CELL_ACK (R548). -/
def execCellAck (port : Nat) (c : WireCell) (s : State) : Host.Outcome State Fault Refusal :=
  .next (let (s1, ok) := checkCell s port 2 c
         if ok then takeAck s1 port c.payload else s1)
/-- CELL_NAK: everything from ACK_SEQ is resent (R548, R550). -/
def execCellNak (port : Nat) (c : WireCell) (s : State) : Host.Outcome State Fault Refusal :=
  .next (let (s1, ok) := checkCell s port 3 c
         if ok then resendAll (takeAck s1 port c.payload) port else s1)
/-- CELL_IDLE: discarded after its checks (R539, R547). -/
def execCellIdle (port : Nat) (c : WireCell) (s : State) : Host.Outcome State Fault Refusal := .next (checkCell s port 0 c).1
/-- ACK_TIMER: 400 ns after the oldest cell not yet acknowledged (R549, R555). -/
def execAckTimer (port : Nat) (s : State) : Host.Outcome State Fault Refusal :=
  .next (
    let l := linkOf s port
    if (l.state == 2 || l.state == 3) && l.ackFrom.isSome && !s.eph.recal.contains port then sendAck s port else s)
/-- NAK_REPEAT_TIMER: the expected value has not advanced for 4 µs (R549). -/
def execNakRepeatTimer (port : Nat) (s : State) : Host.Outcome State Fault Refusal :=
  .next (if (linkOf s port).state == 3 && (linkOf s port).nakAt.isSome && !s.eph.recal.contains port then sendNak s port else s)
/-- REPLAY_TIMEOUT: 4 µs without an ACK for the oldest cell; after its third resend the port fails (R550, R552, R555). -/
def execReplayTimeout (port : Nat) (s : State) : Host.Outcome State Fault Refusal :=
  .next (
    let l := linkOf s port
    match l.replay.head? with
    | some r =>
      if !(l.state == 2 || l.state == 3) || s.eph.recal.contains port then s
      else if 3 ≤ r.resends then (if l.state == 3 then linkDown s port 4 else s)
      else resendAll s port
    | none => s)
/-- PAIR_UNPAIRED_TIMEOUT: the pair link is not UP 500 ms after cold start (R559). -/
def execPairUnpairedTimeout (s : State) : Host.Outcome State Fault Refusal :=
  .next (if portIsUp s 16 || s.fab.unpaired then s else kqEvent (s.modFab fun b => { b with unpaired := true }) 4 [1])
/-- PFC_FRAME: the priorities that the peer pauses from now on (R560, R636, R907). -/
def execPfcFrame (port pause : Nat) (s : State) : Host.Outcome State Fault Refusal :=
  .next (if isEth s port && portIsUp s port then modLink (telPort s port 29) port fun l => { l with paused := pause % 256 } else s)

/-- The item with its mark of congestion (R641). -/
def markItem : QItem → QItem × Bool
  | .cell c => (.cell { c with ecn := true }, true)
  | .frame f p => if f.ect then (.frame { f with ce := true, roce := f.roce.map fun r => { r with ce := true } } p, true) else (.frame f p, false)
/-- A send takes the head of a queue: depth mark, shapers' debit, the tag of the next head (R637, R639, R641). -/
def popQueue (s : State) (n q : Nat) (l : Link) : Option (QItem × State) :=
  match queueOf s n q with
  | [] => none
  | it :: rest =>
    let deep := (getReg s (portBase n + 0x200)).getLsbD 1 && decide (regFld s (portBase n + 0x1000 + 16 * q) 16 16 < depthOf (it :: rest))
    let (it', marked) := if deep then markItem it else (it, false)
    let l1 := (shapers s n q).foldl (fun l x => debit s l x.1 x.2.1 x.2.2 it.wire) l
    let l2 := setQueue { l1 with guarded := l1.guarded.filter (· != q) } q rest
    let l3 := match rest with | nx :: _ => newTag s n q l2 nx.wire | [] => l2
    let s1 := modLink s n fun _ => l3
    some (it', if marked then qsCount s1 n 3 else s1)
/-- Bytes of a TRANSFER entry's data that a cell of its partition uses (R94, R624). -/
def useXfer (s : State) (n ptn bytes : Nat) : State :=
  s.modEph fun e => { e with xfer := e.xfer.map fun x =>
    if x.2.2.1 == n && x.2.2.2.1 == ptn then (x.1, x.2.1, x.2.2.1, x.2.2.2.1, x.2.2.2.2 - Nat.min x.2.2.2.2 bytes) else x }
/-- Account of wire bytes for a partition (R919, R925). -/
def accountWire (s : State) (ptn wire dir : Nat) : State := telAct (telAcct s ptn (5 + dir) wire) 4 (some ptn) 9 wire
/-- Frames that a closing holds whole at the head of their queues, counted once (R631). -/
def countHeld (s : State) (n : Nat) : State :=
  ((linkOf s n).queues.map (·.1)).foldl (fun s q =>
    match (queueOf s n q).head? with
    | some (.frame f _) =>
      let c := f.prio % 8
      let late := match closing s n c with | some t => decide (t * 100 < now s * 100 + frameTime s n f.bytes) | none => false
      if late && bit (openNow s n) c && !(linkOf s n).guarded.contains q then modLink (qsCount s n 0) n fun l => { l with guarded := l.guarded ++ [q] } else s
    | _ => s) s
/-- EGRESS_SEND: the port sends the head that its service chooses, or an IDLE cell (R555, R628-R641). -/
def execEgressSend (port : Nat) (s : State) : Host.Outcome State Fault Refusal :=
  .next (
    if 16 < port || !portIsUp s port || oddHalf s port || s.eph.recal.contains port then s
    else
      let s0 := countHeld s port
      match (nextQueue s0 port).bind fun (q, l) => (popQueue s0 port q l).map fun r => (q, r.1, r.2) with
      | none => if isCellLink s port then sendControl s0 port 0 (List.replicate 224 0) else s0
      | some (q, .cell c, s1) =>
        let s2 := emit (takeSeq s1 port (some c) []) (.cell port (linkOf s1 port).txSeq c.header c.payload c.stomp)
        let s3 := modLink s2 port fun l => { l with credits := modAt l.credits c.cls fun x => x - 1 }
        let s4 := telPort s3 port (c.cls % 8) 256
        let s5 := if q / 8 != 32 then useXfer s4 port (q / 8) 224 else s4
        if c.src == myDev s && q / 8 != 32 then accountWire s5 c.ptn 256 0 else s5
      | some (_, .frame f p, s1) =>
        accountWire (telPort (emit s1 (.eth port f)) port (f.prio % 8) (f.bytes + 20)) p (f.bytes + 20) 0)

/-- RECAL_SERDES_WINDOW: the port carries no cells (R103, R555). -/
def execRecalSerdesWindow (sec ent : Nat) (s : State) : Host.Outcome State Fault Refusal :=
  .next (match entryNow s sec ent with
    | some e => if e.cls == 0x12 && !s.eph.recal.contains (bits e.action 0 5) then s.modEph fun x => { x with recal := x.recal ++ [bits e.action 0 5] } else s
    | none => s)

/-- What a device mirrors of a partition (R784): records of its requests, then its sealed slot pages. -/
def mirrorReqs (s : State) (p : Nat) : List (Nat × List Byte) :=
  (s.serve.reqs.filter (·.ptn == p)).map fun r => (r.handle, rsrBytes s r ++ (r.map.map fun e => leBytes 4 e.1 ++ leBytes 4 e.2).flatten)
def mirrorPages (s : State) (p : Nat) : List Page := s.serve.pages.filter fun g => g.ptn == p && g.nearValid && (g.state == .sealed || g.state == .inTransit)
/-- Mirroring in a TRANSFER entry on the pair link: what has changed since it was last sent, records first, up to the
entry's tiles (R784). -/
def mirrorNow (s : State) (p : Nat) (cap : Option Nat) : State :=
  if odGet s (0x4020 + p) 1 = 0 || !portIsUp s 16 then s
  else
    let recs := (mirrorReqs s p).filter fun r => !s.fab.mirReqs.contains r
    let s1 := recs.foldl (fun s r => emit (s.modFab fun b => { b with mirReqs := b.mirReqs.filter (·.1 != r.1) ++ [r] }) (.mirror p 0 r.1 r.2)) s
    let fresh := (mirrorPages s p).filter fun g => !s.fab.mirPages.contains (p, g.num)
    let take := (fresh.foldl (fun (a : List Page × Nat) g =>
      if match cap with | some c => decide (c < a.2 + g.slotTiles) | none => false then (a.1, a.2 + 2 ^ 40) else (a.1 ++ [g], a.2 + g.slotTiles)) ([], 0)).1
    take.foldl (fun s g => emit (s.modFab fun b => { b with mirPages := b.mirPages ++ [(p, g.num)] }) (.mirror p 1 g.num (tierRead s (g.nearAddr * 4096) (g.slotTiles * 4096)))) s1
/-- Bytes of cells of a partition that wait in the queues of a port. -/
def queuedBytes (s : State) (n p : Nat) : Nat :=
  224 * sumN (((linkOf s n).queues.filter fun q => q.1 / 8 == p).map fun q => (q.2.filter fun it => match it with | .cell _ => true | .frame _ _ => false).length)
/-- Tiles of slot pages among what mirroring has sent since a state. -/
def mirroredTiles (s t : State) (p : Nat) : Nat :=
  sumN (((mirrorPages s p).filter fun g => t.fab.mirPages.contains (p, g.num) && !s.fab.mirPages.contains (p, g.num)).map (·.slotTiles))
/-- TRANSFER_ENTRY_START: mirrored state goes over the pair link, then the cells of the partition that wait now for the entry's port, together
up to CAP_B tiles; cells that come later wait for the next entry, on the pair link, or for the end of this one (R94, R127, R624, R784; DESIGN
CHOICE, log 89: the order, and what an entry means for a KQ port). In unpaired mode nothing (R559). -/
def execTransferEntryStart (sec ent : Nat) (s : State) : Host.Outcome State Fault Refusal :=
  .next (match entryNow s sec ent with
    | some e =>
      if e.cls != 0x19 || s.eph.empty.any (·.1 == e.ptn) then s
      else
        let port := bits e.action 0 5
        let cap := if e.capB = 0 then none else some e.capB
        let s1 := if port == 16 && !s.fab.unpaired && !s.fab.degraded then mirrorNow s e.ptn cap else s
        let ready := queuedBytes s port e.ptn
        let left := match cap with | some c => Nat.min ready ((c - mirroredTiles s s1 e.ptn) * 4096) | none => ready
        s1.modEph fun x => { x with xfer := x.xfer ++ [(sec, ent, port, e.ptn, left)] }
    | none => s)

end Sys2Proof.Machine
end

