-- ==== Sys2Proof/Machine/FabricRx.lean ====
section
/-! DEFINITION. Receiving on the fabric (R570-R618): cells forwarded and reassembled, streams, memory messages and
atomics at the target, replies at the requester, invalidation, routes and windows. -/

namespace Sys2Proof.Machine
open Sys2Proof

/-- The next state of an outcome, or the state as it was. -/
def nextOr (s : State) : Host.Outcome State Fault Refusal → State
  | .next t => t
  | _ => s

/-- Whether a device tier range lies wholly in installed memory (R419, R580). -/
def installed (s : State) (d n : Nat) : Bool := d + n ≤ 768 * 2 ^ 30 || (farBase ≤ d && d + n ≤ farBase + farGranules s * 2 ^ 32)
/-- What a receiving device checks of a range (R576, R580, R449): 0, FORMAT or STATE_LOST. -/
def targetStatus (s : State) (addr len : Nat) : Nat :=
  let d := addr % 2 ^ 48
  if addr / 2 ^ 48 != myDev s || !installed s d len then stFORMAT
  else if (List.range ((d + len - 1) / 4096 - d / 4096 + 1)).any fun i => tileGone s (d / 4096 + i) then stLOST
  else 0
/-- Bytes of an atomic's value; its message carries one value or, for a CAS, two (R574). -/
def atomicWidth (op : Nat) : Nat := if op = 0x4E then 16 else if op = 0x48 || op = 0x4A || op = 0x4C then 4 else 8
def isCas (op : Nat) : Bool := 0x4C ≤ op && op ≤ 0x4E
/-- Whether OP, ADDR and LENGTH of a message that asks something of a target are in R574. -/
def memOk (op addr len n : Nat) : Bool :=
  if op = 0x40 || op = 0x42 then addr % 4096 == 0 && len % 4096 == 0 && len != 0 && len ≤ 2 ^ 23 && (op == 0x40 || n == len)
  else if isAtomic op then
    let w := atomicWidth op
    addr % w == 0 && len == (if isCas op then 2 * w else w) && n == len
  else op == 0x50
/-- The value that an atomic leaves (R575). -/
def atomicResult (op old : Nat) (data : List Byte) : Nat :=
  let w := atomicWidth op
  let a := leAt data 0 w
  if op = 0x48 || op = 0x49 then (old + a) % 2 ^ (8 * w)
  else if op = 0x4A || op = 0x4B then a
  else if old = a then leAt data w w else old
/-- An atomic on a device tier address: the state and the bytes before it (R575). What is made from a poisoned word is poisoned (R416). -/
def atomicOp (s : State) (p : Option Nat) (op d : Nat) (data : List Byte) : State × List Byte × List Nat :=
  let w := atomicWidth op
  let old := tierRead s d w
  let ws := tierPoison s d w
  let s1 := tierWriteP s d (leBytes w (atomicResult op (leNat old) data)) (if op = 0x4A || op = 0x4B then [] else ws)
  (countTile (countTile (touchTile s1 (d / 4096)) p (d / 4096) false) p (d / 4096) true, old, ws)

/-- Fields of a memory header (R573). -/
def memOp (m : MemMsg) : Nat := fld m.hdr 0 8
def memEpoch (m : MemMsg) : Nat := fld m.hdr 16 16
def memHandle (m : MemMsg) : Nat := fld m.hdr 32 32
def memAddr (m : MemMsg) : Nat := fld m.hdr 64 56
def memLen (m : MemMsg) : Nat := fld m.hdr 128 24
def memArg (m : MemMsg) : Nat := fld m.hdr 192 64
/-- Whether the HANDLE that a message names is live with its epoch (R601). -/
def memLive (s : State) (m : MemMsg) : Bool :=
  memHandle m == 0xFFFFFFFF || (match findReq s (memHandle m) with | some r => r.epoch == memEpoch m | none => false)
/-- Status of a message before it is applied (R576, R580, R601). -/
def memStatus (s : State) (m : MemMsg) : Nat :=
  if !memOk (memOp m) (memAddr m) (memLen m) m.data.length then stFORMAT
  else
    let st := if memOp m = 0x50 then 0 else targetStatus s (memAddr m) (memLen m)
    if st != 0 then st else if !memLive s m then stEPOCH else 0

/-- OPARG of a reply (R573). -/
def replyArg (m : MemMsg) (st : Nat) : Nat := m.msgId + m.stream * 2 ^ 20 + m.sseq * 2 ^ 32 + st * 2 ^ 56
/-- Send a reply on stream 0xFFF in the class of the message it answers (R593, R602). -/
def sendReply (s : State) (m : MemMsg) (op st : Nat) (data : List Byte) (poison : List Nat) : State :=
  match takeId s m.src (dieFor s m.src) with
  | none => s
  | some (id, s1) =>
    let hdr := memHeader op m.ptn 0xFFFFFFFF 0 (if op = 0x41 then memAddr m else 0) (if op = 0x41 then memLen m else 0) 0 (replyArg m st)
    match sendCells s1 (cellsOf s1 m.src id 0xFFF 0 m.ptn m.cls false (hdr ++ data) poison 32) m.ptn with
    | some s2 => s2.modFab fun b => { b with resting := b.resting ++ [(m.src, id)] }
    | none => kqtOnce s none 1 m.src [m.src]
/-- Answer a message with its status and, when it has one, its result (R574, R602). A READ is read as it is answered. -/
def answerMem (s : State) (m : MemMsg) (st : Nat) (res : List Byte) (poison : List Nat) : State :=
  if memOp m = 0x50 then sendReply s m 0x51 0 [] []
  else if st != 0 then sendReply s m 0x43 st [] []
  else if memOp m = 0x40 then
    let d := memAddr m % 2 ^ 48
    sendReply (countTiles (touchTile s (d / 4096)) none (d / 4096) (memLen m / 4096) false) m 0x41 0 (tierView s d (memLen m)) (tierPoison s d (memLen m))
  else if isAtomic (memOp m) then sendReply s m 0x4F 0 res poison
  else sendReply s m 0x43 0 [] []

/-- The items of a PAGES body, one after another: a table image is one whose own CRC holds, anything else is a packed page descriptor with its
page (R292, R289, R365; log 92). -/
def pagesBody : Nat → List Byte → List Item
  | 0, _ => []
  | n + 1, b =>
    if b.length < 32 then []
    else
      let img := b.take (tableBytes (imgBits b))
      if imgValid img && crc32c (img.take 8 ++ img.drop 16) == leAt img 8 4 then .table img :: pagesBody n (b.drop img.length)
      else
        let k := if leAt b 4 2 = 0 then leAt b 6 2 * 4096 else leAt b 4 2 * 64
        .page (b.take 32) ((b.drop 32).take k) [] :: pagesBody n (b.drop (32 + k))
/-- The open tails of an INSTALL body, each 8 bytes of POSITION [15:0], LAYER [23:16] and tokens [47:32] before its page (R365, R379; log 92). -/
def tailsBody (g : Geo) : Nat → List Byte → List Item
  | 0, _ => []
  | n + 1, b =>
    let k := openBlocks g * 4096
    if b.length < 8 + k then []
    else .tail (leAt b 2 1) (leAt b 0 2) (leAt b 4 2) ((b.drop 8).take k) :: tailsBody g n (b.drop (8 + k))
/-- An INSTALL body: the RSR of 256 bytes, the page map of 4 bytes an entry, the plan, the open tails (R365; log 92). -/
def installBody (items : Nat) (b : List Byte) : List Item :=
  let rsr := b.take 256
  let r := parseRsr rsr
  let n := r.layers * (r.maxTokens / r.pageLen)
  let map := (List.range (Nat.min n (b.length / 4))).map fun i => (i, leAt b (256 + 4 * i) 4)
  let k := 16 * leAt rsr 0xC8 2
  [.rsr rsr, .map (map.filter (·.2 != 0)), .plan ((b.drop (256 + 4 * n)).take k)] ++ tailsBody r.geo (items - 3) (b.drop (256 + 4 * n + k))
/-- A MOVE_ACK body: 4 bytes a page position, POSITION [15:0], LAYER [23:16] and 1 in [24] when it failed (R363, R365; log 92). -/
def ackBody (items : Nat) (b : List Byte) : List Item :=
  (List.range (Nat.min items (b.length / 4))).map fun i => .ack (leAt b (4 * i + 2) 1) (leAt b (4 * i) 2) (leAt b (4 * i + 3) 1 % 2 == 0)
/-- A state or table message whose bytes have come in cells (R364, R365), its body cut into its items; a QUERY's into its records and its
vectors. -/
def stateMsgOf (b : List Byte) : Nat × StateMsg :=
  let h := leAt b 0 64
  let rest := b.drop 64
  let n := cdiv (16 * bits h 368 8) 64 * 64
  let items := bits h 224 32
  (bits h 0 8, { srcPtn := bits h 8 5, dstPtn := bits h 13 5, srcHandle := bits h 32 32, dstHandle := bits h 64 32, epoch := bits h 96 16, status := bits h 112 8, tag := bits h 128 32,
                 seq := bits h 160 32, qid := bits h 192 32, items := bits h 224 32, args := bits h 256 256,
                 body := if rest.isEmpty then [] else match bits h 0 8 with
                   | 1 => installBody items rest
                   | 2 => pagesBody (Nat.min items rest.length) rest
                   | 3 => ackBody items rest
                   | 0x10 => [.raw (rest.take n), .raw (rest.drop n)]
                   | _ => [.raw rest] })
def dispatchState (s : State) (dev op : Nat) (m : StateMsg) : State :=
  nextOr s (match op with
    | 1 => execMsgInstall dev m s | 2 => execMsgPages dev m s | 3 => execMsgMoveAck dev m s | 4 => execMsgCommit dev m s | 5 => execMsgAbort dev m s
    | 6 => execMsgRef dev m s | 7 => execMsgRelease dev m s | 8 => execMsgFetch dev m s | 0x10 => execMsgQuery dev m s | 0x11 => execMsgPartial dev m s
    | 0x20 => execMsgLookup dev m s | 0x21 => execMsgPooled dev m s | 0x22 => execMsgUpdate dev m s | 0x23 => execMsgUpdateAck dev m s
    | _ => .next s)
/-- A topology message (R583, R786). -/
def takeTopology (s : State) (dev : Nat) (ports : List (Nat × Nat)) : State :=
  s.modFab fun b => { b with
    topo := (b.topo.filter (·.1 != dev)) ++ [(dev, ports)],
    heardAt := if (b.links.getD 16 {}).partner == dev then s.mer.ns else b.heardAt, silent := b.silent && (b.links.getD 16 {}).partner != dev }

/-- Tiles of a range that fills in flight must not install (R611). -/
def markFills (s : State) (addr len : Nat) : State :=
  s.modFab fun b => { b with sent := updIf (fun m => m.cache && m.addr < addr + len && addr < m.addr + m.len) (fun m => { m with
    noFill := (m.noFill ++ (List.range (cdiv m.len 4096)).filterMap fun i =>
      let t := m.addr / 4096 + i
      if addr / 4096 ≤ t && t * 4096 < addr + len then some t else none).eraseDups }) b.sent }
/-- State and table messages that the rules name (R365, R512). -/
def stateOps : List Nat := [1, 2, 3, 4, 5, 6, 7, 8, 0x10, 0x11, 0x20, 0x21, 0x22, 0x23]
/-- Apply a message at its destination: the state, the status recorded, and the result of an atomic (R575, R580, R601, R602, R611). -/
def applyMsg (s : State) (m : MemMsg) (wrote : Bool) : State × Nat × List Byte :=
  let op := memOp m
  -- a reserved operation applies nothing (R576)
  if op < 0x40 && !(stateOps.contains op) then (sendReply s m 0x43 stFORMAT [] [], stFORMAT, [])
  else if op < 0x40 then
    let (o, x) := stateMsgOf (leBytes 32 m.hdr.toNat ++ m.data)
    (sendReply (dispatchState s m.src o x) m 0x43 0 [] [], 0, [])
  else
    let st := memStatus s m
    if st != 0 then (answerMem s m st [] [], st, [])
    else
      let d := memAddr m % 2 ^ 48
      if op = 0x42 then
        let s1 := if wrote then s else tierWriteP s d m.data m.poison
        (answerMem (countTiles (touchTile s1 (d / 4096)) none (d / 4096) (memLen m / 4096) true) m 0 [] [], 0, [])
      else if isAtomic op then
        let (s1, old, ws) := atomicOp s none op d m.data
        (answerMem (if m.poison.isEmpty then s1 else tierSetPoison s1 d (List.range (cdiv (atomicWidth op) 8))) m 0 old ws, 0, old)
      else if op = 0x50 then (answerMem (markFills (rrcDrop s (memAddr m) (memLen m)) (memAddr m) (memLen m)) m 0 [] [], 0, [])
      else (answerMem s m 0 [] [], 0, [])

/-- A window holds memory that a message reads or writes: it waits (R101). -/
def msgHeld (s : State) (m : MemMsg) : Bool :=
  (memOp m == 0x40 || memOp m == 0x42 || isAtomic (memOp m)) && memStatus s m == 0 &&
    (let d := memAddr m % 2 ^ 48; windowHolds s (d / 4096) (cdiv (d % 4096 + memLen m) 4096))
def findStream (s : State) (src stream : Nat) : Option RxStream := s.fab.streams.find? fun c => c.src == src && c.stream == stream
def modStream (s : State) (src stream : Nat) (f : RxStream → RxStream) : State :=
  s.modFab fun b => { b with streams := updIf (fun c => c.src == src && c.stream == stream) f b.streams }
/-- Distance of a STREAM_SEQ from the next one, in the order 0, 1, …, 2^24 − 1, 1, … (R594). -/
def seqDist (next seq : Nat) : Nat := if next = 0 then seq else (seq + (2 ^ 24 - 1) - next) % (2 ^ 24 - 1)
def seqNext (seq : Nat) : Nat := if seq = 2 ^ 24 - 1 then 1 else seq + 1
/-- Whether a STREAM_SEQ is applied under a context: it stands in the record or lies before the window (R595, R597). -/
def seqApplied (c : RxStream) (seq : Nat) : Bool := c.done.any (·.1 == seq) || (seq == 0 && c.next != 0) || (c.next != 0 && 2 ^ 23 ≤ seqDist c.next seq)
/-- H advances over applied messages. -/
def advanceH : Nat → RxStream → RxStream
  | 0, c => c
  | fuel + 1, c => if c.done.any (·.1 == c.next) then advanceH fuel { c with next := seqNext c.next } else c
/-- Record a message as applied; records 1,024 before H are forgotten. -/
def recordApplied (s : State) (m : MemMsg) (st : Nat) (res : List Byte) : State :=
  modStream s m.src m.stream fun c =>
    let c1 := advanceH 1025 { c with done := c.done ++ [(m.sseq, st, res)], lastAt := now s }
    { c1 with done := c1.done.filter fun e => seqDist c1.next e.1 ≤ 1024 || 2 ^ 24 - 1 - 1025 ≤ seqDist c1.next e.1 }
/-- Apply held messages of an ordered stream that have become next (R599). -/
def drainStream (src stream : Nat) : Nat → State → State
  | 0, s => s
  | fuel + 1, s =>
    match findStream s src stream with
    | none => s
    | some c => match s.fab.held.find? fun h => !h.noCtx && h.msg.src == src && h.msg.stream == stream && h.msg.sseq == c.next with
      | none => s
      | some h =>
        if msgHeld s h.msg then s else
        let s1 := s.modFab fun b => { b with held := b.held.filter fun x => !(x == h) }
        let (s2, st, res) := applyMsg s1 h.msg h.wrote
        drainStream src stream fuel (recordApplied s2 h.msg st res)
/-- A complete message in a stream that has a context (R597, R599, R600). -/
def inStream (s : State) (c : RxStream) (m : MemMsg) (wrote : Bool) : State :=
  if msgHeld s m && !wrote && decide (seqApplied c m.sseq || seqDist c.next m.sseq < 1024) then
    -- it waits for the window's end (R101), once
    if s.fab.held.any fun h => h.msg.src == m.src && h.msg.stream == m.stream && h.msg.sseq == m.sseq then countDrop s
    else s.modFab fun b => { b with held := b.held ++ [{ msg := m, wrote := wrote, since := now s, noCtx := false }] }
  else if seqApplied c m.sseq then
    match c.done.find? (·.1 == m.sseq) with
    | some e => answerMem (odCount (modStream s m.src m.stream fun c => { c with lastAt := now s }) 0x9010 7) m e.2.1 e.2.2 []
    | none => countDrop s
  else if 1024 ≤ seqDist c.next m.sseq then countDrop s
  else if m.stream < 0x800 && seqDist c.next m.sseq != 0 then
    if s.fab.held.any fun h => h.msg.src == m.src && h.msg.stream == m.stream && h.msg.sseq == m.sseq then countDrop s
    else s.modFab fun b => { b with held := b.held ++ [{ msg := m, wrote := wrote, since := now s, noCtx := false }] }
  else
    let (s1, st, res) := applyMsg s m wrote
    drainStream m.src m.stream (s.fab.held.length + 1) (recordApplied s1 m st res)
/-- Messages that waited for a context go on in sequence (R598). -/
def releaseHeld (s : State) (src stream : Nat) : State :=
  let mine (h : RxHeld) : Bool := h.noCtx && h.msg.src == src && h.msg.stream == stream
  (sortBy (·.msg.sseq) (s.fab.held.filter mine)).foldl (fun s h => match findStream s src stream with
    | some c => inStream s c h.msg h.wrote
    | none => s) (s.modFab fun b => { b with held := b.held.filter fun h => !mine h })
/-- Messages that waited for a window go on: those of ordered streams in sequence, the others as they came (R101, R599). -/
def resumeMsgs (s : State) : State :=
  let due := s.fab.held.filter fun h => !h.noCtx && !msgHeld s h.msg
  due.foldl (fun s h => match findStream s h.msg.src h.msg.stream with
    | none => s
    | some c =>
      if h.msg.stream < 0x800 && !seqApplied c h.msg.sseq then drainStream h.msg.src h.msg.stream (s.fab.held.length + 1) s
      else inStream (s.modFab fun b => { b with held := b.held.filter (· != h) }) c h.msg h.wrote) s
/-- The stream rules of a complete message that is no reply (R594-R600). -/
def streamMsg (s : State) (m : MemMsg) (wrote : Bool) : State :=
  match findStream s m.src m.stream with
  | some c =>
    if m.sseq = 0 && c.opener != m.msgId then
      let s1 := modStream s m.src m.stream fun _ => { src := m.src, stream := m.stream, opener := m.msgId, lastAt := now s }
      releaseHeld (inStream s1 { src := m.src, stream := m.stream, opener := m.msgId, lastAt := now s } m wrote) m.src m.stream
    else inStream s c m wrote
  | none =>
    if m.sseq = 0 then
      if 65536 ≤ (s.fab.streams.filter fun c => c.opener % 2 == m.msgId % 2).length then countDrop s
      else
        let c : RxStream := { src := m.src, stream := m.stream, opener := m.msgId, lastAt := now s }
        releaseHeld (inStream (s.modFab fun b => { b with streams := b.streams ++ [c] }) c m wrote) m.src m.stream
    else if s.fab.held.any fun h => h.msg.src == m.src && h.msg.stream == m.stream && h.msg.sseq == m.sseq then countDrop s
    else s.modFab fun b => { b with held := b.held ++ [{ msg := m, wrote := wrote, since := now s, noCtx := true }] }

/-- A BAR2 request ends: with its bytes once every tile has come, or with Completer Abort (R692, R693). -/
def bar2Tile (s : State) (p tag tile st : Nat) (bytes : List Byte) (ws : List Nat) : State :=
  match s.px.bar2.find? fun b => b.ptn == p && b.tag == tag with
  | none => s
  | some b =>
    let drop (s : State) : State := s.modPx fun x => { x with bar2 := x.bar2.filter fun y => !(y.ptn == p && y.tag == tag) }
    if st != stOK then emit (drop s) (.bar2 p tag 4 [] false)
    else if b.atomic then emit (drop s) (.bar2 p tag 0 bytes (!ws.isEmpty))
    else
      let got := sortBy (·.1) ((b.got.filter (·.1 != tile)) ++ [(tile, bytes, ws)])
      if got.length < (b.addr + b.len - 1) / 4096 - b.addr / 4096 + 1 then
        s.modPx fun x => { x with bar2 := updIf (fun y => y.ptn == p && y.tag == tag) (fun y => { y with got := got }) x.bar2 }
      else
        let all := (got.map fun g => padTo 4096 g.2.1).flatten
        let off := b.addr % 4096
        let bad := (got.map fun g => g.2.2.map (· + 512 * (g.1 - b.addr / 4096))).flatten
        emit (drop s) (.bar2 p tag 0 (bytesAt all off b.len) (bad.any fun w => off / 8 ≤ w && w * 8 < off + b.len))
/-- The operation of an owner ends with a status, its bytes and their poisoned words (R603, R604, R692). -/
def completeOwner (s : State) (o : MemOwner) (st : Nat) (bytes : List Byte) (ws : List Nat) : State :=
  match o with
  | .tile inst tile =>
    match findInst s inst with
    | none => s
    | some i => match i.tiles.find? (·.id == tile) with
      | none => s
      | some tl =>
        if st != stOK then failInst (modInst s inst fun j => { j with tiles := j.tiles.filter (·.id != tile) }) inst st (faultDetail st tl.pc)
        else if tl.load then loadTile (tileCount s i 4 1) inst tl bytes ws
        else tileDone (tileCount s i 5 1) inst tile
  | .bar2 p tag tile => bar2Tile s p tag tile st bytes ws
  | .inval _ => s
/-- Devices of a sharer set (R612). -/
def sharersOf (s : State) (set : Nat) : List Nat :=
  let map := leNat (progAt s (0x240000 + 32 * set) 32)
  (List.range 256).filter (bit map)
/-- A fence ends once no INVALIDATE of its write is outstanding (R604, R610, R613). -/
def tryFence (s : State) (op : Nat) : State :=
  if s.fab.sent.any fun m => m.owner == .inval op then s
  else match s.fab.fencing.find? (·.op == op) with
    | none => s
    | some f => completeOwner (s.modFab fun b => { b with fencing := b.fencing.filter (·.op != op) }) f.owner f.status f.data f.ws
/-- An INVALIDATE is acknowledged or given up (R610). -/
def endInval (s : State) (m : SentMsg) (lost : Bool) : State :=
  match m.owner with
  | .inval op =>
    let s1 := dropMsg s m
    tryFence (if lost then (odCount s1 (0x9200 + m.ptn) 7).modFab fun b => { b with fencing := updIf (·.op == op) (fun f => { f with status := if f.status = stOK then stTIMEOUT else f.status }) b.fencing } else s1) op
  | _ => s
/-- The COMPLETE or ATOMIC_DATA of a write or atomic: INVALIDATEs go to its sharers, or it counts as written (R604, R610). -/
def writeReplied (s : State) (m : SentMsg) (st : Nat) (data : List Byte) (ws : List Nat) : State :=
  let devs := if m.sharers = 0 then [] else (sharersOf s m.sharers).filter fun d => d != myDev s && d != m.dev
  let s1 := dropMsg s m
  if devs.isEmpty then completeOwner s1 m.owner st data ws
  else
    let s2 := s1.modFab fun b => { b with fencing := b.fencing ++ [{ op := m.id, owner := m.owner, status := st, data := data, ws := ws }] }
    tryFence (devs.foldl (fun s d =>
      let (t, bad) := sendMsg s { id := 0, dev := d, stream := streamFor m.ptn 0x50, op := 0x50, ptn := m.ptn, addr := m.addr, len := m.len, cls := m.cls, owner := .inval m.id }
      if bad.isSome then t.modFab fun b => { b with fencing := updIf (·.op == m.id) (fun f => { f with status := stTIMEOUT }) b.fencing } else t) s2) m.id
/-- The message that a reply answers (R603). -/
def answered (s : State) (r : MemMsg) : Option SentMsg :=
  s.fab.sent.find? fun m => m.dev == r.src && m.msgId == some (bits (memArg r) 0 20) && m.stream == bits (memArg r) 20 12 && m.sseq == bits (memArg r) 32 24
/-- A reply at the requester (R594, R596, R603, R608). -/
def takeReply (s : State) (r : MemMsg) : State :=
  match answered s r with
  | none => s
  | some m =>
    let op := memOp r
    let st := bits (memArg r) 56 8
    if op = 0x44 then (if m.sends < 4 then resendMsg s m else s)
    else if op = 0x51 then (if m.op = 0x50 then endInval s m false else s)
    else if op = 0x41 then
      if m.op != 0x40 then s
      else
        let tiles := (List.range (cdiv m.len 4096)).map (m.addr / 4096 + ·)
        let s1 := if m.cache then tiles.foldl (fun s t =>
          if m.noFill.contains t then s
          else rrcFill s m.ptn t (bytesAt r.data ((t - m.addr / 4096) * 4096) 4096)
            ((r.poison.filter fun w => w / 512 == t - m.addr / 4096).map (· % 512))) s else s
        completeOwner (dropMsg s1 m) m.owner stOK r.data r.poison
    else if op = 0x4F then (if isAtomic m.op then writeReplied s m stOK r.data r.poison else s)
    else if op = 0x43 then
      -- after STATE_LOST the stream starts again at 0
      let s1 := if st = stLOST then s.modFab fun b => { b with txSeq := cntSet b.txSeq (m.dev * 4096 + m.stream) 0 } else s
      if m.op = 0x50 then s1
      else if m.op = 0x40 then completeOwner (dropMsg s1 m) m.owner st [] []
      else writeReplied s1 m st [] []
    else s
def isReply (op : Nat) : Bool := op == 0x41 || op == 0x43 || op == 0x44 || op == 0x4F || op == 0x51
/-- A message of this device's, whole. -/
def takeMsg (s : State) (m : MemMsg) (wrote : Bool) : State :=
  let op := memOp m
  if isReply op then takeReply s m
  else if op = 0x60 then
    let b := leBytes 32 m.hdr.toNat ++ m.data
    takeTopology s m.src ((List.range (leAt b 1 1)).map fun i => (leAt b (2 + 2 * i) 1, leAt b (3 + 2 * i) 1))
  else streamMsg s m wrote

/-- Cells of ordered streams that a die holds, in reassembly or waiting their turn (R599). -/
def orderedBytes (s : State) (die : Nat) : Nat :=
  256 * (sumN ((s.fab.ctxs.filter fun c => c.stream < 0x800 && c.msgId % 2 == die).map fun c => c.cells.length)
    + sumN ((s.fab.held.filter fun h => h.msg.stream < 0x800 && h.msg.msgId % 2 == die).map fun h => cdiv (h.msg.data.length + 32) 224))
def findCtx (s : State) (src id : Nat) : Option RxCtx := s.fab.ctxs.find? fun c => c.src == src && c.msgId == id
def setCtx (s : State) (c : RxCtx) : State :=
  s.modFab fun b => { b with ctxs := (b.ctxs.filter fun x => !(x.src == c.src && x.msgId == c.msgId)) ++ [c] }
def dropCtx (s : State) (src id : Nat) : State := s.modFab fun b => { b with ctxs := b.ctxs.filter fun x => !(x.src == src && x.msgId == id) }
/-- A message of which a context names only the transaction fields. -/
def ctxMsg (c : RxCtx) : MemMsg := { src := c.src, msgId := c.msgId, stream := c.stream, sseq := c.sseq, ptn := c.ptn, cls := c.cls, hdr := 0 }
/-- A context is discarded, and MSG_NAK names its message (R591, R592). -/
def nakCtx (s : State) (c : RxCtx) : State := sendReply (dropCtx s c.src c.msgId) (ctxMsg c) 0x44 0 [] []
/-- The bytes of a context that is complete, and the words of its data that are poisoned (R551, R590). -/
def ctxBytes (c : RxCtx) : List Byte := ((sortBy (·.1) c.cells).map (·.2.1)).flatten
def ctxPoison (c : RxCtx) (hdr : Nat) : List Nat :=
  ((c.cells.filter (·.2.2)).map fun x =>
    let a := 224 * x.1 - hdr
    let b := 224 * x.1 + x.2.1.length - hdr
    (List.range (cdiv b 8 - a / 8)).map (a / 8 + ·)).flatten
/-- Cells of a WRITE in a disjoint stream are written as they come, once the first has given ADDR (R600). -/
def writeEarly (s : State) (c : RxCtx) : State × RxCtx :=
  match c.cells.find? (·.1 == 0) with
  | none => (s, c)
  | some z =>
    let m : MemMsg := { ctxMsg c with hdr := BitVec.ofNat 256 (leNat (z.2.1.take 32)) }
    let known := match findStream s c.src c.stream with | some x => !seqApplied x c.sseq || (c.sseq == 0 && x.opener != c.msgId) | none => c.sseq == 0
    if c.stream < 0x800 || c.stream = 0xFFF || memOp m != 0x42 || !known || !memOk 0x42 (memAddr m) (memLen m) (memLen m)
      || targetStatus s (memAddr m) (memLen m) != 0 || !memLive s m || msgHeld s m then (s, c)
    else
      let d := memAddr m % 2 ^ 48
      let due := c.cells.filter fun x => !c.wrote.contains x.1
      (due.foldl (fun s x =>
        let skip := if x.1 = 0 then 32 else 0
        let at_ := 224 * x.1 + skip - 32
        let bs := (x.2.1.drop skip).take (memLen m - at_)
        tierWriteP s (d + at_) bs (if x.2.2 then List.range (cdiv bs.length 8) else [])) s, { c with wrote := c.wrote ++ due.map (·.1) })
/-- A context that has all its cells gives its message (R590). -/
def ctxWhole (s : State) (c : RxCtx) : State :=
  match c.last with
  | some l =>
    if c.cells.length = l + 1 then
      let b := ctxBytes c
      takeMsg (dropCtx s c.src c.msgId) { ctxMsg c with hdr := BitVec.ofNat 256 (leAt b 0 32), data := b.drop 32, poison := ctxPoison c 32 } (c.wrote.length == c.cells.length)
    else s
  | none => s
/-- A cell joins its context (R589-R591, R599, R600). -/
def reassemble (s : State) (c : Cell) : State :=
  let room := !(c.stream < 0x800 && 2 ^ 26 ≤ orderedBytes s (c.msgId % 2))
  let join (x : RxCtx) : State :=
    let x1 := { x with
      last := if c.last then some c.offset else x.last,
      cells := (x.cells.filter fun y => !(c.last && c.offset < y.1)) ++ [(c.offset, c.payload, c.poison)] }
    -- cells beyond LAST that came before it are discarded and counted
    let late := x.cells.length + 1 - x1.cells.length
    let (s1, x2) := writeEarly (if late = 0 then s else odCount s 0x9010 6 late) x1
    ctxWhole (setCtx s1 x2) x2
  -- a message that waits is still in reassembly, with every cell present (R591, R599)
  if s.fab.held.any fun h => h.msg.src == c.src && h.msg.msgId == c.msgId then countDrop s
  else match findCtx s c.src c.msgId with
  | none =>
    if !room || 16384 ≤ (s.fab.ctxs.filter fun x => x.msgId % 2 == c.msgId % 2).length + (s.fab.held.filter fun h => h.msg.msgId % 2 == c.msgId % 2).length then countDrop s
    else join { src := c.src, msgId := c.msgId, stream := c.stream, sseq := c.sseq, ptn := c.ptn, cls := c.cls, since := now s }
  | some x =>
    if x.stream != c.stream || x.sseq != c.sseq || x.ptn != c.ptn || x.cls != c.cls then countDrop s
    else if c.last && (match x.last with | some l => l != c.offset | none => false) then nakCtx (countDrop s) x
    else if x.cells.any (·.1 == c.offset) || (match x.last with | some l => decide (l < c.offset) | none => false) || !room then countDrop s
    else join x

/-- CELL_DATA: checked, accepted by LSEQ, then reassembled here or forwarded; a stomp delivers nothing; nothing is forwarded
from the pair link (R539, R549, R551, R557, R587). -/
def execCellData (port : Nat) (c : WireCell) (s : State) : Host.Outcome State Fault Refusal :=
  .next (
    let (s1, ok) := checkCell s port 1 c
    if !ok || (linkOf s1 port).state != 3 then s1
    else
      let (s2, fresh) := acceptSeq s1 port c.seq
      if !fresh then s2
      else
        let d := parseCell c.hdr.toNat c.payload
        let s3 := modLink s2 port fun l => { l with freed := modAt l.freed d.cls fun n => (n + 1) % 2 ^ 32 }
        let s4 := telPort s3 port (8 + d.cls) 256
        let s5 := if d.retry then telPort s4 port 30 else s4
        let s6 := if d.ecn then telPort s5 port 31 else s5
        if c.stomp then linkCount s6 port 6
        else if d.dst = myDev s then
          let s7 := if d.stream = 0xFFF && d.cls = 7 && d.payload.head? = some 0x60#8 then s6 else accountWire s6 d.ptn 256 1
          reassemble (if d.ecn then telAcct s7 d.ptn 10 1 else s7) d
        else if port = 16 then countDrop s6
        else match routeCell s6 d d.ptn true with
          | some t => t
          | none => kqtOnce (countDrop s6) none 1 d.dst [d.dst])

/-- A memory message of an OP that comes whole. -/
def memCommand (m : MemMsg) (ops : Nat → Bool) (s : State) : Host.Outcome State Fault Refusal := .next (if ops (memOp m) && !halted s then takeMsg s m false else s)
/-- MEM_READ (R574, R602). -/
def execMemRead (m : MemMsg) (s : State) : Host.Outcome State Fault Refusal := memCommand m (· == 0x40) s
/-- MEM_READ_DATA (R603, R608). -/
def execMemReadData (m : MemMsg) (s : State) : Host.Outcome State Fault Refusal := memCommand m (· == 0x41) s
/-- MEM_WRITE (R602). -/
def execMemWrite (m : MemMsg) (s : State) : Host.Outcome State Fault Refusal := memCommand m (· == 0x42) s
/-- MEM_COMPLETE (R603, R604). -/
def execMemComplete (m : MemMsg) (s : State) : Host.Outcome State Fault Refusal := memCommand m (· == 0x43) s
/-- MEM_MSG_NAK (R596). -/
def execMemMsgNak (m : MemMsg) (s : State) : Host.Outcome State Fault Refusal := memCommand m (· == 0x44) s
/-- MEM_FETCH_ADD (R575). -/
def execMemFetchAdd (m : MemMsg) (s : State) : Host.Outcome State Fault Refusal := memCommand m (fun o => o == 0x48 || o == 0x49) s
/-- MEM_SWAP (R575). -/
def execMemSwap (m : MemMsg) (s : State) : Host.Outcome State Fault Refusal := memCommand m (fun o => o == 0x4A || o == 0x4B) s
/-- MEM_CAS (R575). -/
def execMemCas (m : MemMsg) (s : State) : Host.Outcome State Fault Refusal := memCommand m isCas s
/-- MEM_ATOMIC_DATA (R603). -/
def execMemAtomicData (m : MemMsg) (s : State) : Host.Outcome State Fault Refusal := memCommand m (· == 0x4F) s
/-- MEM_INVALIDATE (R611). -/
def execMemInvalidate (m : MemMsg) (s : State) : Host.Outcome State Fault Refusal := memCommand m (· == 0x50) s
/-- MEM_INV_ACK (R610). -/
def execMemInvAck (m : MemMsg) (s : State) : Host.Outcome State Fault Refusal := memCommand m (· == 0x51) s
/-- TOPOLOGY_MSG (R583, R786). -/
def execTopologyMsg (dev : Nat) (ports : List (Nat × Nat)) (s : State) : Host.Outcome State Fault Refusal := .next (takeTopology s dev ports)
/-- TOPOLOGY_PERIOD (R583). -/
def execTopologyPeriod (s : State) : Host.Outcome State Fault Refusal := .next (sendTopology s)
/-- REASSEMBLY_TIMEOUT: 200 µs after the first cell (R592). -/
def execReassemblyTimeout (src msgId : Nat) (s : State) : Host.Outcome State Fault Refusal :=
  .next (match findCtx s src msgId with
    | some c => nakCtx s c
    | none => s)
/-- MSG_REPLY_TIMEOUT: resent whole, or after the fourth send ended with TIMEOUT (R596, R620). -/
def execMsgReplyTimeout (id : Nat) (s : State) : Host.Outcome State Fault Refusal :=
  .next (match s.fab.sent.find? (·.id == id) with
    | none => s
    | some m =>
      if m.msgId.isNone || m.op = 0x50 then s
      else if m.sends < 4 then resendMsg s m
      else completeOwner (odCount (dropMsg s m) (0x9200 + m.ptn) 7) m.owner stTIMEOUT [] [])
/-- INVALIDATE_RESEND: every 100 µs, given up after the fourth send (R610). -/
def execInvalidateResend (id : Nat) (s : State) : Host.Outcome State Fault Refusal :=
  .next (match s.fab.sent.find? (·.id == id) with
    | none => s
    | some m =>
      if m.msgId.isNone || m.op != 0x50 then s
      else if m.sends < 4 then resendMsg s m
      else endInval s m true)
/-- NO_CONTEXT_TIMEOUT: a message that found no stream context for 200 µs is answered STATE_LOST (R598, R621). -/
def execNoContextTimeout (src msgId : Nat) (s : State) : Host.Outcome State Fault Refusal :=
  .next (match s.fab.held.find? fun h => h.noCtx && h.msg.src == src && h.msg.msgId == msgId with
    | none => s
    | some h =>
      let s1 := answerMem (s.modFab fun b => { b with held := b.held.filter fun x => !(x == h) }) h.msg stLOST [] []
      kqtOnce s1 (if memOp h.msg < 0x40 || memHandle h.msg = 0xFFFFFFFF then none else some (memHandle h.msg / 2 ^ 27)) 2 (src * 4096 + h.msg.stream) [src, h.msg.stream])
/-- STREAM_CONTEXT_EXPIRY: 10 ms after its last message (R595); what waited for its turn in the context ends with it. -/
def execStreamContextExpiry (src stream : Nat) (s : State) : Host.Outcome State Fault Refusal :=
  .next (s.modFab fun b => { b with
    streams := b.streams.filter fun c => !(c.src == src && c.stream == stream)
    held := b.held.filter fun h => h.noCtx || !(h.msg.src == src && h.msg.stream == stream) })
/-- MSG_ID_FREED: a MSG_ID has rested 10 ms; messages that wait for one are sent (R593). -/
def execMsgIdFreed (dev msgId : Nat) (s : State) : Host.Outcome State Fault Refusal :=
  .next (tryWaiting (s.modFab fun b => { b with resting := b.resting.filter (· != (dev, msgId)) }))

/-- Route tables (R582-R584): result of a load, and its choices. -/
def routeChoice (data : List Byte) (k : Nat) : Nat := leAt data (2 * k) 2
def routeResult (s : State) (data : List Byte) : Nat :=
  let cs := ((List.range 2048).filter fun k => k / 8 != myDev s && bit (routeChoice data k) 8).map fun k => (k / 8, routeChoice data k)
  if odGet s 0x9000 1 != 1 then 1
  else if cs.any fun c => 16 < bits c.2 0 5 || isEth s (bits c.2 0 5) || (bits c.2 5 2 == 0 && (linkOf s (bits c.2 0 5)).partner != c.1) then 2
  else if cs.any fun c => bits c.2 9 7 != 0 then 3
  else 0
def routesOf (data : List Byte) : List (Nat × Nat) :=
  (List.range 2048).filterMap fun k => if routeChoice data k = 0 then none else some (k, routeChoice data k)
/-- A route table comes into force as a new generation (R583, R619, R621). -/
def putRoutes (s : State) (t : List (Nat × Nat)) : State :=
  let gen := (odGet s 0x9010 2 + 1) % 2 ^ 32
  kqtOnce (odSet (s.modFab fun b => { b with routes := t }) 0x9010 2 gen) none 3 gen [gen, odGet s 0x9000 1]
/-- ROUTE_TABLE_COMPUTED: in the hardware mode only (R35, R583). -/
def execRouteTableComputed (table : List (Nat × Nat)) (s : State) : Host.Outcome State Fault Refusal :=
  .next (if odGet s 0x9000 1 = 1 then s else putRoutes s (table.foldl (fun a e => cntSet a (e.1 % 2048) (e.2 % 65536)) []))

/-- Result of a window table (R578, R620, R697). -/
def windowResult (s : State) (p : Nat) (data : List Byte) : Nat :=
  let es := ((List.range 64).map fun i => leAt data (32 * i) 32).filter winValid
  let pt := getPtn s p
  let gw (w : Nat) : Bool := bit w 100
  if !(pt.state == .provisioning || pt.state == .active) then 4
  else if (s.px.comps.getD p {}).tdi == 1 || (s.px.comps.getD p {}).tdi == 2 then 1
  else if es.any fun w =>
    bits w 56 8 != 0 || bits w 115 13 != 0 || bits w 152 8 != 0 || bits w 0 12 != 0 || bits w 64 32 == 0 || bit w 95
    || (!gw w && bits w 128 128 != 0)
    || decide ((if gw w then 2 ^ 48 else 2 ^ 47) < bits w 0 48 + bits w 64 32 * 4096) then 1
  else if es.any fun w => !gw w && !(pt.peers.any fun d => d.1 == bits w 48 8) then 2
  else if es.any fun w => gw w && (bits w 48 8 != myDev s || bits w 0 48 < 2 ^ 47 || bit w 99 || bits w 105 10 != 0
    || !(match findQp s (bits w 128 24 - 0x100000) with | some q => q.ptn == p && 0x100000 ≤ bits w 128 24 | none => false)) then 3
  else 0

end Sys2Proof.Machine
end

