-- ==== Sys2Proof/Machine/Px.lean ====
section
/-! DEFINITION. PCIe ports (R681-R703, R728): the global aperture, IDE and TDISP, compositions and links. -/

namespace Sys2Proof.Machine
open Sys2Proof

def pxLink (s : State) (l : Nat) : PxLink := s.px.links.getD l {}
def modPxLink (s : State) (l : Nat) (f : PxLink → PxLink) : State := s.modPx fun x => { x with links := modAt x.links l f }
def compOf (s : State) (p : Nat) : Comp := s.px.comps.getD p {}
def modComp (s : State) (p : Nat) (f : Comp → Comp) : State := s.modPx fun x => { x with comps := modAt x.comps p f }
/-- Fields of a composition record (R725). -/
def cmpEn (c : Nat) : Bool := bit c 0
def cmpUlink (c : Nat) : Nat := bits c 1 4
def cmpVf (c : Nat) : Nat := bits c 5 5
def cmpLinks (c : Nat) : List Nat := (List.range 12).filter fun l => bit c (10 + l)
/-- A partition is bound to its VF while its composition is in force (R686, R687). -/
def vfBound (s : State) (p : Nat) : Bool := cmpEn (compOf s p).cfg
def pxEvent (s : State) (code : Nat) (payload : List Nat) : State := raisePf s { cls := 9, code := code, payload := payload }

/-- Whether a request on BAR2 is carried out (R686, R691, R734). -/
def bar2Open (s : State) (p : Nat) : Bool := p < 32 && vfBound s p && !isolated s p && !halted s
/-- Global address of a BAR2 offset: slice i is window entry i (R691). -/
def bar2Addr (s : State) (p off : Nat) : Option Nat :=
  let w := winEntry s p (off / 2 ^ 30 % 64)
  if winValid w && off < 2 ^ 36 then some (bits w 0 56 + off % 2 ^ 30) else none
/-- A BAR2 request that is refused (R686, R691); with Completer Abort after a device-fatal fault (R788). -/
def bar2Refuse (s : State) (p tag : Nat) (count : Bool) : State := emit (if count then countAccess s p else s) (.bar2 p tag (if halted s then 4 else 1) [] false)
/-- One tile of a BAR2 read (R570, R608, R692). -/
def bar2ReadTile (s : State) (p tag t : Nat) : State :=
  let a := t * 4096
  if a / 2 ^ 48 = myDev s && a % 2 ^ 48 < 2 ^ 47 then
    let d := a % 2 ^ 48
    let st := tierStatus s p d
    if st != 0 then bar2Tile s p tag t st [] []
    -- it waits for the end of a window that holds the tile (R101)
    else if windowHolds s (d / 4096) 1 then s
    else bar2Tile (countTile (touchTile s (d / 4096)) (some p) (d / 4096) false) p tag t stOK (tierView s d 4096) (tierPoison s d 4096)
  else
    match globalOp s p 0x40 a 4096 [] [] (.bar2 p tag t) 0xFFFFFFFF 0 with
    | (s1, some st, _) => bar2Tile s1 p tag t st [] []
    | (s1, none, true) => match rrcFind s1 p t with
      | some r => bar2Tile s1 p tag t stOK (tierRead s1 (rrcAddr s1 r) 4096) (tierPoison s1 (rrcAddr s1 r) 4096)
      | none => s1
    | (s1, none, false) => s1
/-- BAR2_READ: carried out as a READ of each tile it touches (R691, R692). -/
def execBar2Read (ptn tag off len : Nat) (s : State) : Host.Outcome State Fault Refusal :=
  .next (
    if !bar2Open s ptn then bar2Refuse s ptn tag false
    else match bar2Addr s ptn off with
      | none => bar2Refuse s ptn tag true
      | some a =>
        if (window s ptn 0 a (Nat.max 1 len)).isNone then bar2Refuse s ptn tag true
        else
          let n := Nat.max 1 len
          let s1 := s.modPx fun x => { x with bar2 := x.bar2 ++ [{ ptn := ptn, tag := tag, addr := a, len := n }] }
          (List.range ((a + n - 1) / 4096 - a / 4096 + 1)).foldl (fun s i => bar2ReadTile s ptn tag (a / 4096 + i)) s1)
/-- A BAR2 atomic on the device's own memory, unless a window holds it (R101, R693). -/
def bar2AtomicHere (s : State) (p tag d op : Nat) (ops : List Byte) : State :=
  let st := if d % atomicWidth op != 0 then stFORMAT else tierStatus s p d
  if st != 0 then bar2Tile s p tag 0 st [] []
  else if windowHolds s (d / 4096) 1 then s
  else
    let (s2, old, ws) := atomicOp s (some p) op d ops
    bar2Tile s2 p tag 0 stOK old ws
/-- BAR2_ATOMIC (R691, R693): `op` is the fabric operation of the AtomicOp, `data` its operands. -/
def execBar2Atomic (ptn tag off op : Nat) (data : List Byte) (s : State) : Host.Outcome State Fault Refusal :=
  .next (
    if !isAtomic op || op = 0x4F then s
    else if !bar2Open s ptn then bar2Refuse s ptn tag false
    else
      let n := if isCas op then 2 * atomicWidth op else atomicWidth op
      match bar2Addr s ptn off with
      | none => bar2Refuse s ptn tag true
      | some a =>
        if (window s ptn 2 a (atomicWidth op)).isNone then bar2Refuse s ptn tag true
        else
          let ops := padTo n (data.take n)
          let s1 := s.modPx fun x => { x with bar2 := x.bar2 ++ [{ ptn := ptn, tag := tag, addr := a, len := n, atomic := true, op := op, data := ops }] }
          if a / 2 ^ 48 = myDev s && a % 2 ^ 48 < 2 ^ 47 then bar2AtomicHere s1 ptn tag (a % 2 ^ 48) op ops
          else match globalOp s1 ptn op a n ops [] (.bar2 ptn tag 0) 0xFFFFFFFF 0 with
            | (s2, some st, _) => bar2Tile s2 ptn tag 0 st [] []
            | (s2, none, _) => s2)
/-- BAR2 requests on the device's own memory go on where a window that held them has ended (R101). -/
def resumeBar2 (s : State) : State :=
  s.px.bar2.foldl (fun s b =>
    if b.addr / 2 ^ 48 != myDev s || 2 ^ 47 ≤ b.addr % 2 ^ 48 then s
    else if b.atomic then bar2AtomicHere s b.ptn b.tag (b.addr % 2 ^ 48) b.op b.data
    else (List.range ((b.addr + b.len - 1) / 4096 - b.addr / 4096 + 1)).foldl (fun s i =>
      if b.got.any (·.1 == b.addr / 4096 + i) then s else bar2ReadTile s b.ptn b.tag (b.addr / 4096 + i)) s) s
/-- Accesses that waited for a window go on once it has ended (R101). -/
def resumeAccesses (s : State) : State := resumeBar2 (resumeMsgs (resumeTables s))
/-- ENTRY_END: the entry no longer runs; its constellations take their AFTER state once nothing else runs there; a window's accesses go on
(R101, R1005). -/
def execEntryEnd (sec ent : Nat) (s : State) : Host.Outcome State Fault Refusal :=
  .next (if s.eph.held.any (fun x => x.1 == sec && x.2.1 == ent) then resumeAccesses (endEntry sec ent s) else endEntry sec ent s)
/-- BAR2_WRITE: discarded and logged (R694). -/
def execBar2Write (ptn : Nat) (s : State) : Host.Outcome State Fault Refusal :=
  .next (s.modPx fun x => { x with aer := cntSet x.aer ptn (cnt x.aer ptn + 1) })
/-- ATS_INVALIDATE: answered once the DMA that used the translation has ended (R689); DMA ends within the command that makes it. -/
def execAtsInvalidate (link : Nat) (s : State) : Host.Outcome State Fault Refusal :=
  .next (emit (s.modPx fun x => { x with atsDone := x.atsDone + 1 }) (.slot link 0 4))

/-- IDE_KM_PROGRAM: the keys of one of 64 selective streams, on an upstream link (R695). -/
def execIdeKmProgram (id link fn : Nat) (s : State) : Host.Outcome State Fault Refusal :=
  .next (
    let others := s.px.ide.filter (·.id != id)
    if 64 ≤ others.length || (pxLink s link).role != 1 then s
    else s.modPx fun x => { x with ide := others ++ [{ id := id, link := link, fn := fn, secure := true }] })
/-- IDE_INTEGRITY_FAIL: the TLP is discarded and the stream leaves the secure state (R695). -/
def execIdeIntegrityFail (id cause : Nat) (s : State) : Host.Outcome State Fault Refusal :=
  .next (match s.px.ide.find? (·.id == id) with
    | some i => pxEvent (s.modPx fun x => { x with ide := updIf (·.id == id) (fun i => { i with secure := false }) x.ide }) 2 [i.link, id, cause]
    | none => s)
/-- The interface report of a partition's TDI (R697): partition, sizes of BAR0 and BAR2, bound downstream links with their vDSPs, CRC-32C of the
window table. No row of the table asks for it. -/
def interfaceReport (s : State) (p : Nat) : Nat × List Nat × List (Nat × Nat) × Nat :=
  (p, [2 ^ 18, 2 ^ 36], (List.range 12).filterMap (fun l => match (pxLink s l).bound with
    | some (q, v) => if q = p then some (l, v) else none
    | none => none), crc32c (padTo 2048 (windowOf s p)))
/-- TDISP_LOCK_INTERFACE: a bound VF that a secure stream covers (R697). -/
def execTdispLockInterface (ptn : Nat) (s : State) : Host.Outcome State Fault Refusal :=
  .next (
    let c := (compOf s ptn).cfg
    if vfBound s ptn && (compOf s ptn).tdi == 0 && s.px.ide.any (fun i => i.secure && i.link == cmpUlink c && i.fn == cmpVf c + 1) then
      modComp s ptn fun c => { c with tdi := 1 }
    else s)
/-- TDISP_START_INTERFACE (R697). -/
def execTdispStartInterface (ptn : Nat) (s : State) : Host.Outcome State Fault Refusal :=
  .next (if (compOf s ptn).tdi == 1 then modComp s ptn fun c => { c with tdi := 2 } else s)
/-- TDISP_STOP_INTERFACE (R697). -/
def execTdispStopInterface (ptn : Nat) (s : State) : Host.Outcome State Fault Refusal :=
  .next (modComp s ptn fun c => { c with tdi := 0 })

/-- The composition and vDSP that hold a link. -/
def heldBy (s : State) (l : Nat) : Option (Nat × Nat) := (pxLink s l).bound
/-- SLOT_POWER_OFF: a RELEASING link becomes FREE at the next boundary (R700). -/
def execSlotPowerOff (link : Nat) (s : State) : Host.Outcome State Fault Refusal :=
  .next (if (pxLink s link).releasing.isSome then modPxLink s link fun l => { l with toFree := true } else s)
/-- RELEASE_GRACE_EXPIRY (R700). -/
def execReleaseGraceExpiry (link : Nat) (s : State) : Host.Outcome State Fault Refusal :=
  .next (if (pxLink s link).releasing.isSome && !(pxLink s link).toFree then modPxLink s link fun l => { l with toFree := true, grace := true } else s)
def linkEvent (s : State) (l : Nat) : State := pxEvent s 1 [l, b2n (pxLink s l).up, (pxLink s l).rate, (pxLink s l).width]
/-- DLINK_DOWN: a bound downstream link goes down, as a surprise removal (R700, R728). -/
def execDlinkDown (link : Nat) (s : State) : Host.Outcome State Fault Refusal :=
  .next (match heldBy s link with
    | some (p, v) =>
      if !(pxLink s link).up then s
      else pxEvent (emit (linkEvent (modPxLink s link fun l => { l with up := false }) link) (.slot (cmpUlink (compOf s p).cfg) v 1)) 3 [p, link, 2]
    | none => s)
/-- DLINK_REQUEST: routed to the host, to the composition's VF or to its vDSPs; any other is refused and counted (R701). -/
def execDlinkRequest (link : Nat) (target : DlinkTarget) (s : State) : Host.Outcome State Fault Refusal :=
  .next (match heldBy s link with
    | some (p, _) =>
      let ok := match target with
        | .host => true
        | .pf => false
        | .vf n => n == cmpVf (compOf s p).cfg + 1
        | .vdsp n => s.px.links.any fun l => l.bound == some (p, n)
      if ok then s else s.modPx fun x => { x with acsRefused := x.acsRefused + 1 }
    | none => s)
/-- What was held while a link was down is written (R501, R690). -/
def drainLink (s : State) (l : Nat) : State :=
  let s1 := ((s.regs.waiting.map (·.1)).eraseDups.filter fun r => ringPtn r == none && ringLink s r == some l).foldl ringDrain s
  ((List.range 32).filter fun p => hostLink s (some p) == some l).foldl drainDma s1
/-- PCIE_LINK_DOWN: an upstream, or unbound downstream, link (R728). -/
def execPcieLinkDown (link : Nat) (s : State) : Host.Outcome State Fault Refusal :=
  .next (if (pxLink s link).up && (heldBy s link).isNone then linkEvent (modPxLink s link fun l => { l with up := false }) link else s)
/-- PCIE_LINK_UP: held ring writes go; a bound device is shown again on its vDSP (R700, R724, R728). -/
def execPcieLinkUp (link rate width : Nat) (s : State) : Host.Outcome State Fault Refusal :=
  .next (
    if (pxLink s link).up || (pxLink s link).role == 0 then s
    else
      let s1 := drainLink (modPxLink s link fun l => { l with up := true, rate := rate % 8, width := width % 32 }) link
      let s2 := match heldBy s link with
        | some (p, v) => emit s1 (.slot (cmpUlink (compOf s p).cfg) v 0)
        | none => s1
      linkEvent s2 link)

/-- A link becomes FREE: empty slot, hot reset; CMP_SURPRISE with its cause when there is one (R700). -/
def freeLink (s : State) (l : Nat) (cause : Option Nat) : State :=
  match heldBy s l with
  | none => s
  | some (p, v) =>
    let s1 := emit (modPxLink s l fun l => { l with bound := none, releasing := none, toFree := false, grace := false }) (.slot (cmpUlink (compOf s p).cfg) v 3)
    match cause with
    | some c => pxEvent s1 3 [p, l, c]
    | none => s1
/-- One link at a cycle boundary, given the records in force from it on (R700). -/
def linkBoundary (s : State) (l : Nat) : State :=
  let k := pxLink s l
  let wanted := s.px.comps.findIdx? fun c => cmpEn c.cfg && (cmpLinks c.cfg).contains l
  if k.toFree then freeLink s l (if k.grace then some 1 else none)
  else match k.bound with
    | some (p, v) =>
      if k.releasing.isSome || wanted == some p then s
      else if bit (compOf s p).cfg 22 then freeLink s l (some 0)
      else emit (modPxLink s l fun k => { k with releasing := some (now s) }) (.slot (cmpUlink (compOf s p).cfg) v 2)
    | none => s
def bindLink (s : State) (l : Nat) : State :=
  match s.px.comps.findIdx? fun c => cmpEn c.cfg && (cmpLinks c.cfg).contains l with
  | some p =>
    if (heldBy s l).isSome then s
    else match (List.range 7).find? fun v => !(s.px.links.any fun k => match k.bound with | some (q, w) => cmpUlink (compOf s q).cfg == cmpUlink (compOf s p).cfg && w == v + 1 | none => false) with
      | some v => emit (modPxLink s l fun k => { k with bound := some (p, v + 1) }) (.slot (cmpUlink (compOf s p).cfg) (v + 1) 0)
      | none => s
  | none => s
/-- COMPOSITION_APPLY at a cycle boundary: committed records come into force, links are released, freed and bound (R698, R700). -/
def applyComps (s : State) : State :=
  let s1 := if s.px.waiting then
      s.modPx fun x => { x with waiting := false, comps := x.comps.mapIdx fun p c => { c with cfg := (getReg s (0x508000 + 0x20 * p)).toNat } }
    else s
  (List.range 12).foldl bindLink ((List.range 12).foldl linkBoundary s1)
/-- Bound time passes (R703). -/
def compTime (s : State) (dt : Nat) : State :=
  s.modPx fun x => { x with comps := x.comps.mapIdx fun p c =>
    let n := (x.links.filter fun l => match l.bound with | some (q, _) => q == p | none => false).length
    let b := c.boundNs + (if cmpEn c.cfg then dt else 0)
    let k := c.linkNs + n * dt
    { c with boundUs := (c.boundUs + b / 1000) % 2 ^ 64, boundNs := b % 1000, linkUs := (c.linkUs + k / 1000) % 2 ^ 64, linkNs := k % 1000 } }

end Sys2Proof.Machine
end

