-- ==== Sys2Proof/Machine/Meridian.lean ====
section
/-! DEFINITION. Meridian time and the pulse (R652-R680): the passage of time, sources and their qualification, the servo's
states, the host-assisted mode, PPS_OUT, and the PTP and connection-management rings of the PF. -/

namespace Sys2Proof.Machine
open Sys2Proof

/-- The host-assisted time-servo mode (R21, R672). -/
def hostServo (s : State) : Bool := odGet s 0x9000 2 = 1
def merCode : MerState → Nat
  | .freerun => 0 | .acquiring => 1 | .locked => 2 | .twilight => 3 | .adrift => 4
/-- The bound in ns, saturating (R662, R677): 20 ns plus |offset| with a source, grown in holdover. -/
def merBound (s : State) : Nat :=
  match s.mer.state with
  | .freerun => 0xFFFFFFFF
  | .acquiring | .locked => sat 0xFFFFFFFF (20 + cdiv s.mer.offset.natAbs 1000)
  | .twilight | .adrift => sat 0xFFFFFFFF (cdiv s.mer.bound (10 ^ 12))
def merEvent (s : State) (code : Nat) (payload : List Nat) : State := raisePf s { cls := 8, code := code, payload := payload }
/-- A change of the time state, with its event (R680); the bound of the holdover that begins is given in 10^-9 ps. -/
def merGo (s : State) (st : MerState) (bound : Nat := 0) : State :=
  if s.mer.state = st then s
  else
    let s1 := s.modMer fun m => { m with
      state := st, within := 0, beyond := 0, bound := (match st with | .twilight => bound | _ => m.bound),
      slewing := m.slewing && (st == .acquiring || st == .locked) }
    merEvent s1 1 [merCode s.mer.state, merCode st, merBound s1]

/-- Time passes (R653, R661): Meridian time, the oscillator, the bound of a holdover, the time held by compositions. On the internal
oscillator the bound grows at 50 ms per second (R998). -/
def passTime (s : State) (dt : Nat) : State :=
  let grow := match s.mer.state with | .twilight | .adrift => (if s.boot.lostRefs.contains 0 then 50000000000 else odGet s 0x5000 1) * dt | _ => 0
  compTime (s.modMer fun m => { m with ns := (m.ns + dt) % 2 ^ 64, osc := m.osc + dt, bound := m.bound + grow }) dt

/-- The source that governs (R654, R655, R673). -/
def merGoverns (s : State) : Nat :=
  if hostServo s then (if s.mer.host then 4 else 0)
  else if odGet s 0x5000 5 = 1 && s.mer.pps && s.mer.tod != 0 then (if s.mer.tod = 1 then 2 else 3)
  else if s.mer.ptp then 1
  else 0
/-- The governing source follows what has qualified; MER_SOURCE reports a change (R655, R680). -/
def setSource (s : State) : State :=
  let g := merGoverns s
  if g = s.mer.source then s
  else merEvent (s.modMer fun m => { m with source := g, port := if g = 1 || g = 2 then m.ptpPort else m.port }) 3 [g, if g = 1 || g = 2 then s.mer.ptpPort else s.mer.port]
/-- Every source lost: holdover (R660). -/
def holdover (s : State) : State :=
  if s.mer.source != 0 then s
  else match s.mer.state with
    | .acquiring | .locked => merGo s .twilight ((20000 + s.mer.offset.natAbs) * 10 ^ 9)
    | _ => s

/-- A servo update of the governing source with an offset in ps (R660, R664, R665). In FREERUN, TWILIGHT and ADRIFT it is
the source's qualifying; while a step waits or its step cycle runs it is measured and does no more than move the step. -/
def servo (s : State) (off freq : Int) : State :=
  let a := off.natAbs
  let s1 := s.modMer fun m => { m with offset := off, freq := freq }
  let step (s : State) : State := s.modMer fun m => { m with stepBy := some off, slewing := false }
  let slew (s : State) : State := s.modMer fun m => { m with slewing := decide (a ≠ 0) }
  match s.mer.state with
  | .acquiring =>
    if 1000000 < a then (step s1).modMer fun m => { m with within := 0 }
    else if 20000 < a then (slew s1).modMer fun m => { m with within := 0 }
    else if s.mer.within + 1 < 8 then (slew s1).modMer fun m => { m with within := m.within + 1 }
    else merGo (slew s1) .locked
  | .locked =>
    if 1000000 < a then step (merGo s1 .acquiring)
    else if a ≤ 20000 then (slew s1).modMer fun m => { m with beyond := 0 }
    else if s.mer.beyond + 1 < 8 then (slew s1).modMer fun m => { m with beyond := m.beyond + 1 }
    else merGo (slew s1) .acquiring
  | _ =>
    if s.mer.toAcq then (if s.mer.stepBy.isSome && 1000000 < a then step s1 else s1)
    else if a ≤ 1000000 then merGo (slew s1) .acquiring
    else (step s1).modMer fun m => { m with toAcq := true }

/-- The last four offsets agree within 100 ns (R656). -/
def fourAgree (l : List Int) : Bool := l.length == 4 && l.all fun x => l.all fun y => x - y ≤ 100000
/-- The asymmetry correction of a KQ port, in ps (R658, R674). -/
def asymmetry (s : State) (port : Nat) : Int := toInt 32 (odGet s 0x5010 (port + 1))
/-- A Sync and delay exchange with the best master completes (R655, R656): it qualifies a parent, or updates the servo when
PTP governs. Another parent's port qualifies anew before it takes over. -/
def ptpExchange (s : State) (port : Nat) (m : PtpMsg) : State :=
  let off := m.offset + asymmetry s port
  if s.mer.ptp && port = s.mer.ptpPort then (if s.mer.source = 1 then servo s off m.freq else s)
  else
    let l := ((if s.mer.ptp || port = s.mer.ptpPort then s.mer.ptpLast else []) ++ [off])
    let l4 := l.drop (l.length - 4)
    if fourAgree l4 then
      let was := s.mer.source
      let s1 := setSource (s.modMer fun x => { x with ptp := true, ptpPort := port, ptpLast := [], tod := 1 })
      let s2 := if was = 1 && s1.mer.source = 1 then merEvent (s1.modMer fun x => { x with port := port }) 3 [1, port] else s1
      if s2.mer.source = 1 then servo s2 off m.freq else s2
    else s.modMer fun x => { x with ptpLast := l4, ptpPort := if x.ptp then x.ptpPort else port }
/-- Big-endian bytes. -/
def beBytes (n x : Nat) : List Byte := (leBytes n x).reverse
/-- The header of a PTP message of a type, a length and a SEQUENCE_ID, as IEEE 1588-2019 lays it out (PRESUMED, log 59). -/
def ptpHeader (s : State) (port kind len corr seq ctl : Nat) : List Byte :=
  [BitVec.ofNat 8 kind, 0x12] ++ beBytes 2 len ++ [BitVec.ofNat 8 (odGet s 0x5000 6), 0, 0, 0] ++ beBytes 8 corr ++ beBytes 4 0 ++ beBytes 8 (serial s) ++ beBytes 2 (port + 1)
  ++ beBytes 2 seq ++ [BitVec.ofNat 8 ctl, BitVec.ofNat 8 (odGet s 0x5000 7)]
/-- Seconds and ns of a PTP timestamp. -/
def ptpStamp (ns : Nat) : List Byte := beBytes 6 (ns / 10 ^ 9) ++ beBytes 4 (ns % 10 ^ 9)
/-- Delay_Resp, 54 bytes: the ingress time of a Delay_Req, its port and SEQUENCE_ID (R657; PRESUMED, log 59). -/
def delayResp (s : State) (port : Nat) (m : PtpMsg) : List Byte :=
  ptpHeader s port 9 54 ((leNat (bytesAt m.msg 8 8).reverse + 2 ^ 64 - m.frac) % 2 ^ 64) (leNat (bytesAt m.msg 30 2).reverse) 3 ++ ptpStamp m.ts ++ bytesAt m.msg 20 10
/-- A PTP message received on a port: to the host in the host-assisted mode (R672); management messages, other domains and
other masters are discarded, a Delay_Req is answered (R657). -/
def ptpRx (s : State) (port : Nat) (m : PtpMsg) : State :=
  if hostServo s then ringWrite s (pfRing 6) (.ptpRx port m.transport false 0 m.ts m.frac m.msg)
  else if m.domain != odGet s 0x5000 6 then s
  -- the boundary clock answers the delay requests of the clocks below it
  else if m.kind = 2 then
    if s.mer.ptp && port = s.mer.ptpPort then s
    else if m.transport = 3 then sendControl s port 5 (delayResp s port m) else emit s (.ptp port m.transport (delayResp s port m))
  else if !m.parent then s
  else match m.kind with
    | 0 => ptpExchange s port m
    | 1 => (odSet s 0x5000 10 (ofInt 32 m.utc)).modMer fun x => { x with utc := m.utc, parentClass := m.cls }
    | _ => s
/-- PTP_MESSAGE_RX on an Ethernet-mode port that is UP (R654, R657); TIME cells come by CELL_TIME. -/
def execPtpMessageRx (port : Nat) (m : PtpMsg) (s : State) : Host.Outcome State Fault Refusal :=
  .next (if port < 16 && isEth s port && portIsUp s port && m.transport < 3 then ptpRx s port m else s)
/-- CELL_TIME: the cell's checks, then the message it carries (R542, R658). -/
def execCellTime (port : Nat) (c : WireCell) (m : PtpMsg) (s : State) : Host.Outcome State Fault Refusal :=
  .next (let (s1, ok) := checkCell s port 5 c
         if ok && port < 16 && portIsUp s port then ptpRx s1 port { m with transport := 3 } else s1)

/-- A one-step Sync, 44 bytes (PRESUMED, log 59: the spec names the standard alone). -/
def syncMsg (s : State) (port : Nat) : List Byte := ptpHeader s port 0 44 s.mer.frac (cnt s.mer.syncSeq port) 0 ++ ptpStamp s.mer.ns
/-- clockClass announced (R659). -/
def clockClass (s : State) : Nat :=
  match s.mer.state with
  | .locked => s.mer.parentClass | .twilight => 7 | .adrift => 52 | _ => 248
/-- An Announce, 64 bytes: priorities, clockClass and the UTC offset that the parent announces (R659, R674; PRESUMED, log 59). -/
def announceMsg (s : State) (port : Nat) : List Byte :=
  ptpHeader s port 0xB 64 0 (cnt s.mer.syncSeq port) 5 ++ ptpStamp 0 ++ beBytes 2 (odGet s 0x5000 10 % 65536) ++ [0, BitVec.ofNat 8 (odGet s 0x5000 8)]
  ++ [BitVec.ofNat 8 (clockClass s), 0xFE, 0xFF, 0xFF] ++ [BitVec.ofNat 8 (odGet s 0x5000 9)] ++ beBytes 8 (serial s) ++ beBytes 2 0 ++ [0xA0]
/-- PTP_SYNC_TX: the boundary clock's Sync, after an Announce, on a port that is UP and does not lead to the parent; none of its own in the
host-assisted mode (R657, R659, R672; DESIGN CHOICE, log 59: an Announce goes with each Sync). -/
def execPtpSyncTx (port : Nat) (s : State) : Host.Outcome State Fault Refusal :=
  .next (
    if hostServo s || 16 ≤ port || !portIsUp s port || (s.mer.ptp && port = s.mer.ptpPort) then s
    else
      let s1 := s.modMer fun m => { m with syncSeq := cntSet m.syncSeq port ((cnt m.syncSeq port + 1) % 65536) }
      if isEth s port then emit (emit s1 (.ptp port 0 (announceMsg s port))) (.ptp port 0 (syncMsg s port))
      -- a recalibrating port carries no cells (R103)
      else if s.eph.recal.contains port then modLink s1 port fun l => { l with timeWait := l.timeWait ++ [(none, syncMsg s port)] }
      else sendControl (sendControl s1 port 5 (announceMsg s port)) port 5 (syncMsg s port))

/-- PPS_IN_EDGE: an edge, spaced by the oscillator's ns from the last one, qualifies PPS_IN or updates the servo (R654-R656). -/
def execPpsInEdge (offset : Int) (spacing : Nat) (freq : Int) (s : State) : Host.Outcome State Fault Refusal :=
  .next (
    if hostServo s || odGet s 0x5000 5 != 1 then s
    else if s.mer.pps then
      let s1 := setSource s
      if s1.mer.source = 2 || s1.mer.source = 3 then servo s1 offset freq else s1
    else
      let good := if 999999000 ≤ spacing && spacing ≤ 1000001000 then s.mer.ppsGood + 1 else 1
      let s1 := s.modMer fun m => { m with ppsGood := Nat.min 4 good }
      if good < 4 then s1
      else
        let s2 := setSource (s1.modMer fun m => { m with pps := true })
        if s2.mer.source = 2 || s2.mer.source = 3 then servo s2 offset freq else s2)
/-- SOURCE_LOST: three missed Syncs (0) or pulses (1) (R656, R660). -/
def execSourceLost (source : Nat) (s : State) : Host.Outcome State Fault Refusal :=
  .next (
    let s1 := s.modMer fun m => match source with
      | 0 => { m with ptp := false, ptpLast := [] }
      | 1 => { m with pps := false, ppsGood := 0 }
      | _ => m
    holdover (setSource s1))
/-- BOUND_EXCEEDS_GUARD (R660, R663). -/
def execBoundExceedsGuard (s : State) : Host.Outcome State Fault Refusal :=
  .next (match s.mer.state with
    | .twilight =>
      let floor := (odGet s 0x5000 2 + 1) * 10 ^ 12
      merGo (s.modMer fun m => { m with bound := Nat.max m.bound floor }) .adrift
    | _ => s)
/-- SLEW_DONE (R664). -/
def execSlewDone (s : State) : Host.Outcome State Fault Refusal := .next (s.modMer fun m => { m with slewing := false })

/-- PPS_OUT_RISE: the pulse begins unless it is squelched or would come less than 0.5 s after the last one (R669-R671). -/
def execPpsOutRise (s : State) : Host.Outcome State Fault Refusal :=
  .next (
    let soon := match s.mer.ppsRise with | some t => decide (s.mer.osc < t + 500000000) | none => false
    if soon || s.mer.ppsHigh || (s.mer.state == .adrift && odGet s 0x5000 4 = 1) then s
    else emit (s.modMer fun m => { m with ppsHigh := true, ppsWidth := odGet s 0x5000 3, ppsRise := some m.osc }) (.pin 1 1))
/-- PPS_OUT_FALL: after the width in force at the rise (R670). -/
def execPpsOutFall (s : State) : Host.Outcome State Fault Refusal :=
  .next (if s.mer.ppsHigh then emit (s.modMer fun m => { m with ppsHigh := false }) (.pin 1 0) else s)

/-- A frequency correction within 10 ppm, in 2^-16 ppb (R664, R678). -/
def clampFreq (x : Int) : Int := if x < -655360000 then -655360000 else if 655360000 < x then 655360000 else x
/-- MER_HOST_OFS_WRITE: one servo update in the host-assisted mode (R673, R678). -/
def execMerHostOfsWrite (value : Word) (s : State) : Host.Outcome State Fault Refusal :=
  .next (
    if !hostServo s then s
    else
      let s1 := setSource (s.modMer fun m => { m with host := true })
      servo s1 (toInt 32 value.toNat * 1000) s1.mer.freq)
/-- MER_HOST_FREQ_WRITE (R678). -/
def execMerHostFreqWrite (value : Word) (s : State) : Host.Outcome State Fault Refusal :=
  .next (if !hostServo s then s else (setReg s 0x200024 value).modMer fun m => { m with freq := clampFreq (toInt 32 value.toNat) })
/-- HOST_SERVO_SILENCE: 2 s without a write while ACQUIRING or LOCKED (R673). -/
def execHostServoSilence (s : State) : Host.Outcome State Fault Refusal :=
  .next (if hostServo s then holdover (setSource (s.modMer fun m => { m with host := false })) else s)
/-- MER_SET_WRITE: HI with the latched LO (R816); a step at the next boundary, in FREERUN or the host-assisted mode (R679). -/
def execMerSetWrite (hi : Word) (s : State) : Host.Outcome State Fault Refusal :=
  .next (
    if !(s.mer.state == .freerun) && !hostServo s then s
    else
      let lo := latchGet s 0x200028
      let s1 := setReg (setReg s 0x200028 lo) 0x20002C hi
      s1.modMer fun m => { m with stepTo := some (lo.toNat + hi.toNat * 2 ^ 32), tod := if m.state == .freerun then 2 else m.tod })
/-- MER_NOW_READ: the LO half, with HI and the fraction latched (R676, R816). -/
def execMerNowRead (s : State) : Host.Outcome State Fault Refusal :=
  .next ((latchSet (s.modMer fun m => { m with fracLatch := m.frac }) 0x200008 (BitVec.ofNat 32 (s.mer.ns / 2 ^ 32))).modRegs fun r => { r with
    readData := BitVec.ofNat 32 s.mer.ns })

/-- Entering the host-assisted mode, the host is the only source, heard until 2 s pass; leaving it, PTP and PPS_IN qualify
anew (R672, R673; DESIGN CHOICE where no words fix it). -/
def servoModeChanged (s : State) : State :=
  let s1 := s.modMer fun m => { m with
    ptp := false, ptpLast := [], pps := false, ppsGood := 0, host := hostServo s && (m.state == .acquiring || m.state == .locked) }
  holdover (setSource s1)
/-- PPS_IN_EN changed: PPS_IN qualifies anew, and with it off it is no source (R654-R656). -/
def ppsInChanged (s : State) : State :=
  if hostServo s then s else holdover (setSource (s.modMer fun m => { m with pps := false, ppsGood := 0 }))
/-- Meridian time of a step: by an offset in ps, or to a time (R665, R679). -/
def stepped (s : State) : Nat × Nat :=
  match s.mer.stepTo, s.mer.stepBy with
  | some t, _ => (t, 0)
  | none, some o =>
    let x := (s.mer.ns * 65536 + s.mer.frac : Int) + o * 65536 / 1000
    let y := (x % (2 ^ 80 : Int)).toNat
    (y / 65536, y % 65536)
  | none, none => (s.mer.ns, s.mer.frac)
/-- The step waits for the next boundary. -/
def stepDue (s : State) : Bool := s.mer.stepTo.isSome || s.mer.stepBy.isSome
/-- End of the step cycle of a step that leads to ACQUIRING: TWILIGHT from 20 ns when every source is lost by then (R665). -/
def afterStep (s : State) : State :=
  if !s.mer.toAcq then s
  else
    let s1 := s.modMer fun m => { m with toAcq := false }
    if s.mer.source != 0 then merGo s1 .acquiring
    else if s.mer.state == .twilight then s1.modMer fun m => { m with bound := 20000 * 10 ^ 9 }
    else merGo s1 .twilight (20000 * 10 ^ 9)

/-- PTP_TX_RING_ENTRY: in the host-assisted mode, a message of the ring is sent and its egress timestamp returned (R672, R845);
an entry with another length, port or reserved bits is passed over (DESIGN CHOICE: no answer is given). -/
def execPtpTxRingEntry (desc : List Byte) (s : State) : Host.Outcome State Fault Refusal :=
  .next (
    if !hostServo s || !ringEn s (pfRing 5) || ringIx s (pfRing 5) = regFld s (pfRing 5 + 0xC) 0 20 then s
    else
      let s1 := ringTake s (pfRing 5)
      let w := leAt desc 0 4
      let port := bits w 0 5
      let tr := bits w 5 2
      let len := bits w 16 16
      let msg := bytesAt desc 32 len
      if 16 ≤ port || !portIsUp s port || len < 34 || 96 < len || bits w 7 9 != 0 || (isEth s port) == (tr == 3) then s1
      else
        if tr = 3 && s.eph.recal.contains port then modLink s1 port fun l => { l with timeWait := l.timeWait ++ [(some (leAt desc 4 4), msg)] }
        else
          let s2 := if tr = 3 then sendControl s1 port 5 msg else emit s1 (.ptp port tr msg)
          ringWrite s2 (pfRing 6) (.ptpRx port tr true (leAt desc 4 4) s.mer.ns s.mer.frac msg))
/-- PTP messages that a recalibration held go, a Sync with the time at which it goes, one of the ring with its egress record (R103, R845). -/
def sendTimes (s : State) (port : Nat) : State :=
  (linkOf s port).timeWait.foldl (fun s w => match w.1 with
    | none => sendControl (sendControl s port 5 (announceMsg s port)) port 5 (syncMsg s port)
    | some c => ringWrite (sendControl s port 5 w.2) (pfRing 6) (.ptpRx port 3 true c s.mer.ns s.mer.frac w.2)) (modLink s port fun l => { l with timeWait := [] })
/-- RECAL_SERDES_WINDOW_END: everything resumes; what was frozen counts on from here, and TIME cells that waited go (R103, R555). -/
def execRecalSerdesWindowEnd (sec ent : Nat) (s : State) : Host.Outcome State Fault Refusal :=
  .next (match entryNow s sec ent with
    | some e => if e.cls == 0x12 then sendTimes (s.modEph fun x => { x with recal := x.recal.filter (· != bits e.action 0 5) }) (bits e.action 0 5) else s
    | none => s)
/-- CM_TX_RING_ENTRY: in the host-assisted connection mode, a QP1 datagram is sent (R710, R846). -/
def execCmTxRingEntry (desc : List Byte) (s : State) : Host.Outcome State Fault Refusal :=
  .next (
    if odGet s 0x9000 3 = 0 || !ringEn s (pfRing 7) || ringIx s (pfRing 7) = regFld s (pfRing 7 + 0xC) 0 20 then s
    else
      let s1 := ringTake s (pfRing 7)
      let w := leAt desc 0 4
      let port := bits w 0 5
      if 16 ≤ port || !isEth s port || !portIsUp s port then s1
      else emit s1 (.cm port (leAt desc 4 4 % 2 ^ 24) (leAt desc 16 16) 6 ([bits w 5 2, leAt desc 32 4] ++ ((bytesAt desc 64 256).map (·.toNat)))))

end Sys2Proof.Machine
end

