-- ==== Sys2Proof/Machine/Rdma.lean ====
section
/-! DEFINITION. RDMA over Ethernet (R642, R704-R728): queue pairs and regions, the responder, the requester of gateways,
rates, the context cache, connections, and frames that arrive on Ethernet ports. -/

namespace Sys2Proof.Machine
open Sys2Proof

def qpNum (q : Qp) : Nat := 0x100000 + q.ix
/-- Sub-ports of a port (R562) and the rate of one in kb/s. -/
def subports (s : State) (n : Nat) : Nat := 2 ^ Nat.min 2 (regFld s (portBase n) 3 2)
def subRate (s : State) (n : Nat) : Nat := ethRate s n * 1000000
def rdmaEvent (s : State) (p code : Nat) (payload : List Nat) : State := raiseBoth s p { cls := 9, code := code, payload := payload }
def qpHard (s : State) : Bool := odGet s 0x9000 3 = 0
/-- A connection message sent on QP1: 0 REQ, 1 REP, 2 RTU, 3 REJ, 4 DREQ, 5 DREP (R710). -/
def sendCm (s : State) (port gid kind : Nat) (fields : List Nat) : State := emit s (.cm port 1 gid kind fields)

/-- Answer of the queue-pair mailbox (R707). -/
def qpAnswer (s : State) (v : View) (st : Nat) : State := mbxDone (mbxPut s (mbxQp v) 8 8 st) v 2
/-- A DEREG_MR is answered once no access uses its key (R711). -/
def keyInUse (s : State) (k : Nat) : Bool := s.px.qps.any fun q => match q.write_ with | some w => w.2.2 == k | none => false
def endDeregs (s : State) : State :=
  let done := s.px.leaving.filter fun e => !keyInUse s e.1
  done.foldl (fun s e => qpAnswer s (match e.2 with | some p => .vf p | none => .pf) stOK) (s.modPx fun x => { x with leaving := x.leaving.filter fun e => keyInUse s e.1 })
/-- A queue pair enters ERROR: operations but one end FLUSHED; a connected one is disconnected (R709, R710). -/
def qpError (s : State) (ix : Nat) (keep : Option GwOp) : State :=
  match findQp s ix with
  | none => s
  | some q =>
    let s1 := modQp s ix fun q => { q with state := 4, ops := [], write_ := none, miss := [], cm := if q.cm = 3 && qpHard s then 4 else 0 }
    let s2 := if q.cm = 3 && qpHard s then sendCm s1 q.port q.destGid 4 [qpNum q, q.destQp] else s1
    endDeregs ((q.ops.filter fun g => some g != keep).foldl (fun s g => completeOwner s g.owner stFLUSHED [] []) s2)
/-- An operation ends and its queue pair enters ERROR (R714, R715). -/
def qpFail (s : State) (ix : Nat) (g : GwOp) (st : Nat) : State :=
  match findQp s ix with
  | none => s
  | some q => rdmaEvent (qpError (completeOwner (modQp s ix fun q => { q with ops := q.ops.filter (· != g) }) g.owner st [] []) ix (some g)) q.ptn 5 [qpNum q, st]

/-- Home die of a queue pair, and room in its context cache (R717, R719): a victim leaves by a write-back (R720). -/
def homeDie (q : Qp) : Nat := q.port / 8
def writeBack (s : State) (q : Qp) : State :=
  let addr := odGet s (0x9240 + q.ptn) 5 + 576 * q.local_
  -- the first 528 bytes are ciphertext and tag, which no one outside the device can tell
  hostPut (telDma (modQp s q.ix fun q => { q with cached := false, version := q.version + 1 }) (some q.ptn) 7 528) (some q.ptn) (addr + 528)
    (leBytes 8 (q.version + 1) ++ leBytes 4 (qpNum q) ++ List.replicate 36 0)
def cacheRoom (s : State) (die : Nat) : Option State :=
  let here := s.px.qps.filter fun q => q.cached && homeDie q == die
  if here.length < 2048 then some s
  else (sortBy (·.usedAt) (here.filter fun q => q.ops.all (·.psn.isNone) && q.miss.isEmpty)).head?.map (writeBack s)
/-- A context that is not cached starts to load; the miss is counted (R718, R723). -/
def startLoad (s : State) (ix : Nat) : State :=
  match findQp s ix with
  | some q => if q.cached || q.loading then s else odCount (modQp s ix fun q => { q with loading := true }) (0x9240 + q.ptn) 7
  | none => s
/-- Gateway operations go, or their context loads. -/
def gwGo (s : State) (ix : Nat) : State :=
  match findQp s ix with
  | some q => if halted s then s else if q.cached then gwSend s ix else if q.ops.isEmpty || q.state != 3 then s else startLoad s ix
  | none => s

/-- Fields of a queue-pair command (R707). -/
def qcPtn (x : Nat) : Nat := bits x 16 5
def qcQp (x : Nat) : Nat := bits x 32 24
def qcReserved (x : Nat) : Bool := bits x 22 10 != 0 || bit x 62 || bits x 81 15 != 0 || bits x 168 24 != 0 || bits x 427 53 != 0
/-- A command of an OP in a mailbox whose GO is set; a reserved OP and reserved fields are answered FORMAT, another
partition's name ACCESS (R9, R154, R707). -/
def qpCommand (v : View) (op : Nat) (s : State) (act : Nat → State → State) : Host.Outcome State Fault Refusal :=
  .next (
    let x := mbxRead s (mbxQp v) 16
    let o := bits x 0 8
    if !mbxGo s v 2 || !(o == op || o == 0 || 6 < o) then s
    else if (match viewPtn v with | some p => p != qcPtn x | none => false) then
      qpAnswer (match viewPtn v with | some p => countAccess s p | none => s) v stACCESS
    else if o != op || qcReserved x then qpAnswer s v stFORMAT
    else act x s)
/-- The queue pair that a command names, or the status that refuses it. -/
def qcFind (s : State) (x : Nat) : Nat × Option Qp :=
  if qcQp x < 0x100000 then (stFORMAT, none)
  else match findQp s (qcQp x - 0x100000) with
    | none => (stFORMAT, none)
    | some q => if q.ptn = qcPtn x then (0, some q) else (stACCESS, none)
def portOk (s : State) (x : Nat) : Bool := bits x 63 5 < 16 && isEth s (bits x 63 5) && !oddHalf s (bits x 63 5) && bits x 68 2 < subports s (bits x 63 5)
/-- The lowest number not in a list. -/
def lowestFree (l : List Nat) : Nat := ((List.range (l.length + 1)).find? fun i => !l.contains i).getD 0
/-- A new queue pair with a device index and the lowest free partition-local index, in the context cache of a die when it has room; none
beyond the quota (R708, R717). -/
def newQp (s : State) (p die : Nat) : Option (Qp × State) :=
  let mine := s.px.qps.filter (·.ptn == p)
  if odGet s (0x9240 + p) 3 ≤ mine.length || 65536 ≤ s.px.qps.length then none
  else
    let q : Qp := { ix := lowestFree (s.px.qps.map (·.ix)), ptn := p, local_ := lowestFree (mine.map (·.local_)), usedAt := s.px.use }
    match cacheRoom s die with
    | some s1 => some (q, s1.modPx fun x => { x with qps := x.qps ++ [q], use := x.use + 1 })
    | none => some ({ q with cached := false }, s.modPx fun x => { x with qps := x.qps ++ [{ q with cached := false }], use := x.use + 1 })
/-- QP_CREATE (R708, R710). CONNECT is refused with FORMAT in the host-assisted connection mode. -/
def execQpCreate (v : View) (s : State) : Host.Outcome State Fault Refusal :=
  qpCommand v 1 s fun x s =>
    let con := bit x 21
    if con && (!qpHard s || !portOk s x || bits x 70 3 == 0 || 5 < bits x 70 3 || bits x 73 5 == 0) then qpAnswer s v stFORMAT
    else match newQp s (qcPtn x) (if con then bits x 63 5 / 8 else 0) with
      | none => qpAnswer s v stBUSY
      | some (q, s1) =>
        let s2 := mbxPut s1 (mbxQp v) 32 24 (qpNum q)
        if !con then qpAnswer s2 v stOK
        else
          let s3 := modQp s2 q.ix fun q => { q with
            port := bits x 63 5, subport := bits x 68 2, prio := bits x 59 3, mtu := bits x 70 3, timeout := bits x 73 5, retry := bits x 78 3,
            destGid := bits x 192 128, sqPsn := bits x 120 24, rqPsn := bits x 144 24, serviceId := bits x 320 64, cm := 1, rate := subRate s (bits x 63 5), rateT := subRate s (bits x 63 5) }
          qpAnswer (sendCm s3 (bits x 63 5) (bits x 192 128) 0 [qpNum q, bits x 120 24, bits x 320 64, bits x 70 3]) v stOK
/-- QP_MODIFY (R709). -/
def execQpModify (v : View) (s : State) : Host.Outcome State Fault Refusal :=
  qpCommand v 2 s fun x s =>
    match qcFind s x with
    | (st, none) => qpAnswer s v st
    | (_, some q) =>
      let who := bits x 56 3
      match q.state, who with
      | 0, 1 =>
        if !portOk s x then qpAnswer s v stFORMAT
        else
          -- the context goes to the cache of its home die (R717)
          let s1 := modQp s q.ix fun q => { q with
            state := 1, port := bits x 63 5, subport := bits x 68 2, prio := bits x 59 3, rate := subRate s (bits x 63 5), rateT := subRate s (bits x 63 5), alpha := 65536, steps := 0,
            cached := q.cached && bits x 63 5 / 8 == homeDie q }
          let s2 := if q.cached && bits x 63 5 / 8 != homeDie q then (match cacheRoom s1 (bits x 63 5 / 8) with
            | some t => modQp t q.ix fun q => { q with cached := true }
            | none => s1) else s1
          qpAnswer s2 v stOK
      | 1, 2 =>
        if bits x 70 3 == 0 || 5 < bits x 70 3 then qpAnswer s v stFORMAT
        else qpAnswer (modQp s q.ix fun q => { q with state := 2, destQp := bits x 96 24, destGid := bits x 192 128, rqPsn := bits x 144 24, mtu := bits x 70 3 }) v stOK
      | 2, 3 =>
        if bits x 73 5 == 0 then qpAnswer s v stFORMAT
        else qpAnswer (gwGo (modQp s q.ix fun q => { q with state := 3, sqPsn := bits x 120 24, timeout := bits x 73 5, retry := bits x 78 3 }) q.ix) v stOK
      | 4, 0 => qpAnswer (modQp s q.ix fun q => { q with state := 0, atomics := [], cm := 0 }) v stOK
      | 0, 4 => qpAnswer s v stFORMAT
      | _, 4 => qpAnswer (qpError s q.ix none) v stOK
      | _, _ => qpAnswer s v stFORMAT
/-- QP_DESTROY: its operations end FLUSHED (R709). -/
def execQpDestroy (v : View) (s : State) : Host.Outcome State Fault Refusal :=
  qpCommand v 3 s fun x s =>
    match qcFind s x with
    | (st, none) => qpAnswer s v st
    | (_, some q) => qpAnswer ((qpError s q.ix none).modPx fun y => { y with qps := y.qps.filter (·.ix != q.ix) }) v stOK
/-- QP_QUERY (R707, R709). -/
def execQpQuery (v : View) (s : State) : Host.Outcome State Fault Refusal :=
  qpCommand v 4 s fun x s =>
    match qcFind s x with
    | (st, none) => qpAnswer s v st
    | (_, some q) => qpAnswer (mbxPut s (mbxQp v) 56 3 q.state) v stOK
/-- Whether a device tier range lies wholly in a partition's own granules (R711). -/
def ownRange (s : State) (p addr len : Nat) : Bool :=
  let last := addr + len - 1
  if last < 768 * 2 ^ 30 then (List.range (last / 2 ^ 30 - addr / 2 ^ 30 + 1)).all fun i => nearOwner s (addr / 2 ^ 30 + i) == some p
  else if farBase ≤ addr && last < farBase + farGranules s * 2 ^ 32 then
    (List.range ((last - farBase) / 2 ^ 32 - (addr - farBase) / 2 ^ 32 + 1)).all fun i => farOwner s ((addr - farBase) / 2 ^ 32 + i) == some p
  else false
/-- QP_REG_MR (R711): the lowest free index, its variant incremented. -/
def execQpRegMr (v : View) (s : State) : Host.Outcome State Fault Refusal :=
  qpCommand v 5 s fun x s =>
    let p := qcPtn x
    let len := bits x 384 40
    if len = 0 then qpAnswer s v stFORMAT
    else if odGet s (0x9240 + p) 4 ≤ (s.px.regions.filter (·.ptn == p)).length || 262144 ≤ s.px.regions.length then qpAnswer s v stBUSY
    else if !ownRange s p (bits x 320 64) len then qpAnswer s v stACCESS
    else
      let ix := lowestFree (s.px.regions.map (·.ix))
      let var := (cnt s.px.variants ix + 1) % 256
      let s1 := s.modPx fun y => { y with
        regions := y.regions ++ [{ ix := ix, ptn := p, addr := bits x 320 64, len := len, rights := bits x 424 3, variant := var }], variants := cntSet y.variants ix var }
      qpAnswer (mbxPut s1 (mbxQp v) 480 32 (ix * 256 + var)) v stOK
/-- QP_DEREG_MR: new accesses fail at once; the answer waits for those that use the key (R711). -/
def execQpDeregMr (v : View) (s : State) : Host.Outcome State Fault Refusal :=
  qpCommand v 6 s fun x s =>
    let k := bits x 480 32
    match s.px.regions.find? fun r => r.ix == k / 256 && r.variant == k % 256 with
    | none => qpAnswer s v stFORMAT
    | some r =>
      if r.ptn != qcPtn x then qpAnswer s v stACCESS
      else
        let s1 := s.modPx fun y => { y with regions := y.regions.filter (·.ix != r.ix) }
        if keyInUse s k then s1.modPx fun y => { y with leaving := y.leaving ++ [(k, viewPtn v)] } else qpAnswer s1 v stOK

/-- The first check of R712 that fails, if one does: right 0 read, 1 write, 2 atomic. -/
def keyCheck (s : State) (p key addr len right : Nat) : Option Nat :=
  match s.px.regions.find? (·.ix == key / 256) with
  | none => some 1
  | some r =>
    if r.variant != key % 256 then some 2
    else if r.ptn != p then some 3
    else if !(r.addr ≤ addr && addr + len ≤ r.addr + r.len) then some 4
    else if !bit r.rights right then some 5
    else if right = 2 && addr % 8 != 0 then some 6
    else none
/-- A responder's answer to a packet: 4 read response, 5 atomic response, 6 ACK, 7 NAK. -/
def respond (s : State) (q : Qp) (op psn syn : Nat) (data : List Byte) : State :=
  sendRoce s q { op := op, qpn := q.destQp, psn := psn % 2 ^ 24, syn := syn, data := data }
/-- A key check fails (R713). -/
def keyFault (s : State) (q : Qp) (p : RocePkt) (chk : Nat) : State :=
  odCount (rdmaEvent (qpError (respond s q 7 p.psn 0x62 []) q.ix none) q.ptn 4 [qpNum q, p.key, p.addr, chk]) (0x9240 + q.ptn) 8
/-- Packets that a READ of `len` bytes answers with. -/
def readPkts (q : Qp) (len : Nat) : Nat := Nat.max 1 (cdiv len (mtuOf q))
def sendReadData (s : State) (q : Qp) (p : RocePkt) : State :=
  (List.range (readPkts q p.len)).foldl (fun s i =>
    respond s q 4 (p.psn + i) 0 (tierView s (p.addr + i * mtuOf q) (Nat.min (mtuOf q) (p.len - i * mtuOf q))))
    (countTiles s (some q.ptn) (p.addr / 4096) ((p.addr + p.len + 4095) / 4096 - p.addr / 4096) false)
def setRq (s : State) (ix n : Nat) : State := modQp s ix fun q => { q with rqPsn := (q.rqPsn + n) % 2 ^ 24, msn := (q.msn + 1) % 2 ^ 24 }
/-- A request packet in its turn (R712-R715); the ACK of a WRITE follows its last packet. -/
def serveNew (s : State) (q : Qp) (p : RocePkt) : State :=
  match p.op with
  | 0 =>
    let start := match q.write_ with | some w => (w.1, w.2.1, w.2.2, true) | none => (p.addr, p.len, p.key, false)
    let (addr, left, key, going) := start
    match (if going then none else keyCheck s q.ptn p.key p.addr p.len 1) with
    | some c => keyFault s q p c
    | none =>
      let n := Nat.min left p.data.length
      let s1 := countTiles (tierWrite s addr (p.data.take n)) (some q.ptn) (addr / 4096) (if n = 0 then 0 else (addr + n - 1) / 4096 - addr / 4096 + 1) true
      if n < left then modQp s1 q.ix fun q => { q with rqPsn := (q.rqPsn + 1) % 2 ^ 24, write_ := some (addr + n, left - n, key) }
      else endDeregs (respond (setRq (modQp s1 q.ix fun q => { q with write_ := none }) q.ix 1) q 6 p.psn 0 [])
  | 1 =>
    match keyCheck s q.ptn p.key p.addr p.len 0 with
    | some c => keyFault s q p c
    | none => sendReadData (setRq s q.ix (readPkts q p.len)) q p
  | _ =>
    match keyCheck s q.ptn p.key p.addr 8 2 with
    | some c => keyFault s q p c
    | none =>
      let ops := if p.op = 2 then p.data.take 8 else leBytes 8 p.cmp ++ p.data.take 8
      let (s1, old, _) := atomicOp s (some q.ptn) (if p.op = 2 then 0x49 else 0x4D) p.addr ops
      let s2 := modQp (setRq s1 q.ix 1) q.ix fun q => { q with atomics := (q.atomics ++ [(p.psn, leNat old)]).drop (q.atomics.length + 1 - 64) }
      respond s2 q 5 p.psn 0 old
/-- A request packet of a queue pair in RTR or RTS: in turn, a duplicate, or out of sequence (R715). -/
def serveRequest (s : State) (q : Qp) (p : RocePkt) : State :=
  let d := (p.psn + 2 ^ 24 - q.rqPsn) % 2 ^ 24
  if p.op = 9 then respond s q 7 p.psn 0x61 []
  else if d = 0 then serveNew s q p
  else if d < 2 ^ 23 then respond s q 7 q.rqPsn 0x60 []
  else match p.op with
    | 0 => respond s q 6 (q.rqPsn + 2 ^ 24 - 1) 0 []
    | 1 => (match keyCheck s q.ptn p.key p.addr p.len 0 with | some c => keyFault s q p c | none => sendReadData s q p)
    | _ => match q.atomics.find? (·.1 == p.psn) with
      | some a => respond s q 5 p.psn 0 (leBytes 8 a.2)
      | none => s

/-- Whether a PSN lies before another in the order of a window. -/
def psnBefore (a b : Nat) : Bool := 0 < (b + 2 ^ 24 - a) % 2 ^ 24 && (b + 2 ^ 24 - a) % 2 ^ 24 < 2 ^ 23
def opLast (g : GwOp) : Nat := (g.psn.getD 0 + g.pkts - 1) % 2 ^ 24
/-- Writes whose last packet is covered by an acknowledged PSN complete (R617). -/
def ackUpTo (s : State) (ix psn : Nat) : State :=
  match findQp s ix with
  | none => s
  | some q =>
    let done := q.ops.filter fun g => g.op == 0x42 && g.psn.isSome && !psnBefore psn (opLast g)
    gwGo (done.foldl (fun s g => completeOwner s g.owner stOK [] []) (modQp s ix fun q => { q with ops := q.ops.filter fun g => !done.contains g })) ix
/-- Retransmission go-back-N from a PSN; after RETRY of them the oldest operation ends with TIMEOUT (R715). -/
def goBack (s : State) (ix psn : Nat) : State :=
  match findQp s ix with
  | none => s
  | some q =>
    match q.ops.find? fun g => g.psn.isSome && !psnBefore (opLast g) psn with
    | none => s
    | some g =>
      if q.retry < g.sends then qpFail s ix g stTIMEOUT
      else
        let again := q.ops.filter fun x => x.psn.isSome && !psnBefore (opLast x) psn
        let s1 := modQp s ix fun q => { q with ops := updIf again.contains (fun x => { x with sends := x.sends + 1, sentAt := now s }) q.ops }
        again.foldl (fun s x => ((gwPackets q x (x.psn.getD 0)).filter fun p => x.op != 0x42 || !psnBefore p.psn psn).foldl (fun s p => sendRoce s q p) s) s1
/-- A response packet of a READ or an atomic (R617). -/
def takeResponse (s : State) (q : Qp) (p : RocePkt) : State :=
  match q.ops.find? fun g => g.op != 0x42 && g.psn.isSome && !psnBefore p.psn (g.psn.getD 0) && !psnBefore (opLast g) p.psn with
  | none => s
  | some g =>
    -- a response acknowledges every earlier write
    let s0 := ackUpTo s q.ix ((g.psn.getD 0 + 2 ^ 24 - 1) % 2 ^ 24)
    if p.op = 5 then gwGo (completeOwner (modQp s0 q.ix fun q => { q with ops := q.ops.filter (· != g) }) g.owner stOK p.data []) q.ix
    else
      let i := (p.psn + 2 ^ 24 - g.psn.getD 0) % 2 ^ 24
      if i * mtuOf q != g.got.length then s0
      else
        let got := (g.got ++ p.data).take g.len
        if got.length < g.len then modQp s0 q.ix fun q => { q with ops := updIf (· == g) (fun g => { g with got := got }) q.ops }
        else gwGo (completeOwner (modQp s0 q.ix fun q => { q with ops := q.ops.filter (· != g) }) g.owner stOK got []) q.ix
/-- A CNP (R716): at most one cut per 50 µs. α counts in 2^-16 and R in kb/s, rounded down. -/
def takeCnp (s : State) (q : Qp) : State :=
  if (match q.cnpAt with | some t => decide (now s - t < 50000) | none => false) then s
  else modQp s q.ix fun q =>
    let a := (q.alpha * 255 + 65536) / 256
    { q with alpha := a, rateT := q.rate, rate := q.rate - q.rate * a / 131072, steps := 0, cnpAt := some (now s) }
/-- A packet for a queue pair whose context is cached. -/
def qpPacket (s : State) (q : Qp) (p : RocePkt) : State :=
  let s0 := modQp (s.modPx fun x => { x with use := x.use + 1 }) q.ix fun q => { q with usedAt := s.px.use }
  let s1 := if p.ce && (match q.cnpSent with | some t => decide (50000 ≤ now s - t) | none => true) then
      sendRoce (modQp s0 q.ix fun q => { q with cnpSent := some (now s) }) q { op := 8, qpn := p.srcQp }
    else s0
  match p.op with
  | 4 => takeResponse s1 q p
  | 5 => takeResponse s1 q p
  | 6 => ackUpTo s1 q.ix p.psn
  | 7 =>
    if p.syn = 0x60 then goBack (ackUpTo s1 q.ix ((p.psn + 2 ^ 24 - 1) % 2 ^ 24)) q.ix p.psn
    else match q.ops.find? fun g => g.psn.isSome && !psnBefore (opLast g) p.psn with
      | some g => qpFail s1 q.ix g (if p.syn = 0x62 then stACCESS else stFLUSHED)
      | none => s1
  | 8 => takeCnp s1 q
  | _ => if p.op ≤ 3 || p.op = 9 then serveRequest s1 q p else s1
def dropPkt (s : State) : State := s.modPx fun x => { x with rxDrops := x.rxDrops + 1 }
/-- Bytes held in the miss buffer of a port (R718). -/
def missBytes (s : State) (port : Nat) : Nat := sumN ((s.px.qps.filter (·.port == port)).map fun q => sumN (q.miss.map (roceBytes s port)))
/-- A RoCE packet that arrives on a port: for a queue pair of that port, with the partition's VLAN and GID, that accepts
packets; held while its context loads (R705, R709, R718). -/
def roceRx (s : State) (port : Nat) (p : RocePkt) : State :=
  if !isEth s port || !portIsUp s port then s
  else if p.qpn < 0x100000 then dropPkt s
  else match findQp s (p.qpn - 0x100000) with
    | none => dropPkt s
    | some q =>
      if q.port != port || p.vlan != odGet s (0x9240 + q.ptn) 2 || p.dgid != odGet s (0x9240 + q.ptn) 1 then dropPkt s
      else if !(q.state == 2 || q.state == 3) || p.op == 10 then dropPkt s
      else if q.cached then qpPacket s q p
      else if 262144 < missBytes s port + roceBytes s port p then dropPkt s
      else modQp (startLoad s q.ix) q.ix fun q => { q with miss := q.miss ++ [p] }
def roceCommand (port : Nat) (p : RocePkt) (ok : Bool) (s : State) : Host.Outcome State Fault Refusal := .next (if ok then roceRx s port p else s)
/-- ROCE_RX_WRITE (R712). -/
def execRoceRxWrite (port : Nat) (p : RocePkt) (s : State) : Host.Outcome State Fault Refusal := roceCommand port p (p.op == 0) s
/-- ROCE_RX_READ (R712). -/
def execRoceRxRead (port : Nat) (p : RocePkt) (s : State) : Host.Outcome State Fault Refusal := roceCommand port p (p.op == 1) s
/-- ROCE_RX_FETCH_ADD (R712, R715). -/
def execRoceRxFetchAdd (port : Nat) (p : RocePkt) (s : State) : Host.Outcome State Fault Refusal := roceCommand port p (p.op == 2) s
/-- ROCE_RX_COMPARE_SWAP (R712, R715). -/
def execRoceRxCompareSwap (port : Nat) (p : RocePkt) (s : State) : Host.Outcome State Fault Refusal := roceCommand port p (p.op == 3) s
/-- ROCE_RX_SEND: NAK Invalid Request (R704). -/
def execRoceRxSend (port : Nat) (p : RocePkt) (s : State) : Host.Outcome State Fault Refusal := roceCommand port p (p.op == 9) s
/-- ROCE_RX_ACK (R617). -/
def execRoceRxAck (port : Nat) (p : RocePkt) (s : State) : Host.Outcome State Fault Refusal := roceCommand port p (p.op == 6) s
/-- ROCE_RX_RESPONSE (R617). -/
def execRoceRxResponse (port : Nat) (p : RocePkt) (s : State) : Host.Outcome State Fault Refusal := roceCommand port p (p.op == 4 || p.op == 5) s
/-- ROCE_RX_NAK (R714, R715). -/
def execRoceRxNak (port : Nat) (p : RocePkt) (s : State) : Host.Outcome State Fault Refusal := roceCommand port p (p.op == 7) s
/-- ROCE_RX_CNP (R716). -/
def execRoceRxCnp (port : Nat) (p : RocePkt) (s : State) : Host.Outcome State Fault Refusal := roceCommand port p (p.op == 8) s
/-- ROCE_ACK_TIMEOUT: retransmit from the oldest PSN, or fail (R715). -/
def execRoceAckTimeout (ix : Nat) (s : State) : Host.Outcome State Fault Refusal :=
  .next (match findQp s ix with
    | some q => match q.ops.find? (·.psn.isSome) with
      | some g => if q.state = 3 then goBack s ix (g.psn.getD 0) else s
      | none => s
    | none => s)
/-- DCQCN_RATE_TIMER: 55 µs without a CNP; after five such steps R_T rises by 40 Mb/s, up to the sub-port's rate (R716). -/
def execDcqcnRateTimer (ix : Nat) (s : State) : Host.Outcome State Fault Refusal :=
  .next (match findQp s ix with
    | some q => modQp s ix fun _ =>
      let t := if 5 ≤ q.steps then Nat.min (subRate s q.port) (q.rateT + 40000) else q.rateT
      { q with alpha := q.alpha * 255 / 256, rateT := t, rate := (q.rate + t) / 2, steps := q.steps + 1 }
    | none => s)
/-- QP_CONTEXT_LOADED: the context is in cache once a place is free, and what was held goes on; a slot that fails (1 tag,
2 version, 3 DMA) puts the queue pair in ERROR (R718, R719, R721). -/
def execQpContextLoaded (ix outcome : Nat) (s : State) : Host.Outcome State Fault Refusal :=
  .next (match findQp s ix with
    | none => s
    | some q =>
      if !q.loading then s
      else if outcome != 0 then
        rdmaEvent (qpError (modQp s ix fun q => { q with loading := false, cached := true }) ix none) q.ptn 6 [qpNum q, outcome]
      else match cacheRoom s (homeDie q) with
        | none => s
        | some s1 =>
          let s2 := modQp s1 ix fun q => { q with loading := false, cached := true, miss := [] }
          gwGo (q.miss.foldl (fun s p => match findQp s ix with
            | some q => if q.state == 2 || q.state == 3 then qpPacket s q p else s
            | none => s) s2) ix)

/-- A QP1 datagram in the host-assisted connection mode goes to the PF's ring (R710, R846). -/
def cmToHost (c : CmMsg) (s : State) (act : State → State) : Host.Outcome State Fault Refusal :=
  .next (if qpHard s then act s else ringWrite s (pfRing 8) (.cmRx c.port c.subport c.rqpn c.peer (padTo 256 (c.mad.take 256))))
def cmQp (s : State) (c : CmMsg) : Option Qp := if c.lqpn < 0x100000 then none else findQp s (c.lqpn - 0x100000)
/-- CM_REQ: accepted for a GID and service ID that a partition listens on, within its quota (R710). -/
def execCmReq (c : CmMsg) (s : State) : Host.Outcome State Fault Refusal :=
  cmToHost c s fun s =>
    let p := (List.range 32).find? fun p => odGet s (0x9240 + p) 1 == c.gid && odGet s (0x9240 + p) 6 == c.sid && c.sid != 0
    match p.bind fun p => newQp s p (c.port / 8) with
    | none => sendCm s c.port c.peer 3 [c.rqpn]
    | some (q, s1) =>
      let s2 := modQp s1 q.ix fun q => { q with
        state := 3, port := c.port, subport := c.subport, mtu := c.mtu, destQp := c.rqpn, destGid := c.peer, rqPsn := c.psn % 2 ^ 24, sqPsn := 0, timeout := 14, retry := 7, cm := 2,
        serviceId := c.sid, rate := subRate s c.port, rateT := subRate s c.port }
      sendCm s2 c.port c.peer 1 [qpNum q, c.rqpn, 0]
/-- CM_REP: the queue pair that sent the REQ reaches RTS (R710). -/
def execCmRep (c : CmMsg) (s : State) : Host.Outcome State Fault Refusal :=
  cmToHost c s fun s => match cmQp s c with
    | some q =>
      if q.cm != 1 then s
      else gwGo (sendCm (modQp s q.ix fun q => { q with state := 3, destQp := c.rqpn, rqPsn := c.psn % 2 ^ 24, cm := 3 }) c.port c.peer 2 [qpNum q, c.rqpn]) q.ix
    | none => s
/-- CM_RTU (R710). -/
def execCmRtu (c : CmMsg) (s : State) : Host.Outcome State Fault Refusal :=
  cmToHost c s fun s => match cmQp s c with
    | some q => if q.cm = 2 then modQp s q.ix fun q => { q with cm := 3 } else s
    | none => s
/-- CM_REJ: the attempt ends (R710). -/
def execCmRej (c : CmMsg) (s : State) : Host.Outcome State Fault Refusal :=
  cmToHost c s fun s => match cmQp s c with
    | some q => if q.cm = 1 then modQp s q.ix fun q => { q with cm := 0 } else s
    | none => s
/-- CM_DREQ: the queue pair is disconnected, and DREP sent (R710). -/
def execCmDreq (c : CmMsg) (s : State) : Host.Outcome State Fault Refusal :=
  cmToHost c s fun s => match cmQp s c with
    | some q => sendCm (qpError (modQp s q.ix fun q => { q with cm := 0 }) q.ix none) c.port c.peer 5 [qpNum q, c.rqpn]
    | none => s
/-- CM_DREP (R710). -/
def execCmDrep (c : CmMsg) (s : State) : Host.Outcome State Fault Refusal :=
  cmToHost c s fun s => match cmQp s c with
    | some q => if q.cm = 4 then modQp s q.ix fun q => { q with cm := 0 } else s
    | none => s

/-- Ingress policer of a class (R642, R648): its bucket, and whether a frame is kept, with its mark. -/
def police (s : State) (n : Nat) (f : EthFrame) : State × Option EthFrame :=
  let c := f.prio % 8
  let b := portBase n + 0x260 + 8 * c
  let rate := regFld s b 0 21
  let burst := regFld s (b + 4) 0 24
  if !(getReg s (b + 4)).getLsbD 25 || rate = 0 then (s, some f)
  else
    let l := linkOf s n
    if bucket s l (520 + c) rate burst < 0 then
      (qsCount s n 2, if (getReg s (b + 4)).getLsbD 24 && f.ect then some { f with ce := true } else none)
    else (modLink s n fun l => debit s l (520 + c) rate burst (f.bytes + 20), some f)
/-- ETH_FRAME_RX: policed for its class, then handed to RoCE when it carries a packet (R642, R704, R907). -/
def execEthFrameRx (port : Nat) (f : EthFrame) (s : State) : Host.Outcome State Fault Refusal :=
  .next (
    if !isEth s port || !portIsUp s port then s
    else
      let (s1, kept) := police (telPort s port (8 + f.prio % 8) (f.bytes + 20)) port f
      match kept with
      | none => s1
      | some f => match f.roce with
        | some p =>
          let s2 := match findQp s1 (p.qpn - 0x100000) with
            | some q => if 0x100000 ≤ p.qpn then accountWire s1 q.ptn (f.bytes + 20) 1 else s1
            | none => s1
          roceRx s2 port { p with ce := p.ce || f.ce }
        | none => s1)

end Sys2Proof.Machine
end

