-- ==== Sys2Proof/Machine/Roles.lean ====
section
/-! DEFINITION. Roles, elevation and the audit journal (R740-R747, R754, R878), and the answers of the object dictionary to
its two masters (R848, R879-R883). -/

namespace Sys2Proof.Machine
open Sys2Proof

/-- Error codes of the object dictionary (R883). -/
abbrev odOK : Nat := 0
abbrev odNOENTRY : Nat := 1
abbrev odNOSUB : Nat := 2
abbrev odREADONLY : Nat := 3
abbrev odWRITEONLY : Nat := 4
abbrev odRIGHTS : Nat := 5
abbrev odLENGTH : Nat := 6
abbrev odRANGE : Nat := 7
abbrev odSTATE : Nat := 8
abbrev odOVERRIDDEN : Nat := 9
abbrev odBUSY : Nat := 0xA
abbrev odTIMEOUT : Nat := 0xB
abbrev odSEQUENCE : Nat := 0xC
abbrev odLOCKED : Nat := 0xD
abbrev odSTORAGE : Nat := 0xE
abbrev odREQUEST : Nat := 0xF

def masterNum : Master → Nat
  | .pf => 0 | .bus => 1
def masterRole (s : State) : Master → Role2
  | .pf => s.ctl.pfRole | .bus => s.ctl.busRole
def modRole (s : State) (m : Master) (f : Role2 → Role2) : State :=
  s.modCtl fun c => match m with | .pf => { c with pfRole := f c.pfRole } | .bus => { c with busRole := f c.busRole }
/-- The role in which a source acts: on the bus, the elevated one only for the address that attained it (R741, R878). -/
def roleOf (s : State) (w : OdSrc) : Nat :=
  match w.master with
  | .pf => s.ctl.pfRole.role
  | .bus => if s.ctl.busRole.node = w.node then s.ctl.busRole.role else 0

/-- The 32 bytes of an audit entry (R746). -/
def auditBytes (a : Audit) : List Byte :=
  let w := a.master + a.role * 2 ^ 2 + b2n a.refused * 2 ^ 4 + b2n a.overridden * 2 ^ 5 + a.kind * 2 ^ 8 + a.index % 2 ^ 16 * 2 ^ 16
  let b := leBytes 4 a.seq ++ leBytes 8 a.time ++ leBytes 4 w ++ [BitVec.ofNat 8 a.sub, BitVec.ofNat 8 (a.ptn % 32)] ++ leBytes 4 a.old
    ++ leBytes 4 a.new ++ leBytes 2 a.node
  b ++ leBytes 4 (crc32c b)
/-- Journal an event (R745-R747): the ring keeps 4,096 entries, and the Almanac's tail gets a copy. -/
def journal (s : State) (a : Audit) : State :=
  let a := { a with seq := (s.ctl.auditSeq + 1) % 2 ^ 32, time := now s }
  let s1 := s.modCtl fun c => { c with audit := (c.audit ++ [a]).drop (c.audit.length + 1 - 4096), auditSeq := a.seq }
  (almQueue s1 (0xC800 + 32 * s1.alm.auditHead) (auditBytes a)).modAlm fun x => { x with auditHead := (x.auditHead + 1) % 256 }
/-- An entry of a master (R746). -/
def auditOf (s : State) (w : OdSrc) (kind index sub : Nat) : Audit :=
  { seq := 0, time := 0, master := masterNum w.master, role := roleOf s w, refused := false, overridden := false, kind := kind, index := index, sub := sub, ptn := 0, old := 0, new := 0, node := w.node }
/-- An entry of the device itself: a partition's change of state (R745). -/
def journalState (s : State) (p old new : Nat) : State :=
  journal s { seq := 0, time := 0, master := 2, role := 3, refused := false, overridden := false, kind := 5, index := 0x3000 + 16 * p, sub := 1, ptn := p, old := old, new := new, node := 0 }
/-- OLD and NEW of a value: itself up to 4 bytes, else its CRC-32C (R746). -/
def auditValue (bs : List Byte) : Nat := if bs.length ≤ 4 then leNat bs else crc32c bs

/-- A frame leaves by the bus as its state allows (R862, R863, R872): SILENT originates none, and none leaves during the listen. -/
def busSend (s : State) (f : Frame) : State :=
  if s.mgt.busOff then s
  else match s.mgt.bus with
    | .silent => s
    | .lone => emit s (.can { f with single := true })
    | .unassigned => if s.mgt.listening then s else sendFrame s f
    | _ => sendFrame s f
/-- Frames of an answer: segment 0 carries the header and 56 bytes, later ones 64 each (R861, R879). -/
def padFd (bs : List Byte) : List Byte :=
  padTo (([8, 12, 16, 20, 24, 32, 48, 64].find? (bs.length ≤ ·)).getD 64) bs
def answerFrames (s : State) (w : OdSrc) (func idx sub err : Nat) (value : List Byte) : List Frame :=
  let h := leBytes 8 (idx + sub * 2 ^ 16 + value.length % 2 ^ 13 * 2 ^ 24 + err * 2 ^ 40)
  let rest := chunks 64 (value.drop 56)
  let fr (seg : Nat) (bs : List Byte) : Frame := { func := func, dest := w.node, src := s.mgt.addr, seq := 1024 + w.txn * 128 + seg, data := padFd bs }
  fr 0 (h ++ value.take 56) :: rest.mapIdx fun i bs => fr (i + 1) bs
/-- The answer to a request (R848, R879, R881, R883): in the PF mailbox, whose GO bit falls, or in frames, which are kept. -/
def odAnswer (s : State) (w : OdSrc) (write : Bool) (idx sub err : Nat) (value : List Byte) : State :=
  match w.master with
  | .pf =>
    let st := if err = odOK then stOK else if err = odRIGHTS then stACCESS else if err = odOVERRIDDEN then stOVERRIDDEN else stFORMAT
    let s1 := mbxPut (mbxPut s 0x2100 64 8 st) 0x2100 96 32 err
    let s2 := if write then s1
      else (chunks 4 value).foldl (fun (a : State × Nat) c => (setReg a.1 (0x3000 + 4 * a.2) (BitVec.ofNat 32 (leNat c)), a.2 + 1)) (mbxPut s1 0x2100 32 13 value.length, 0) |>.1
    mbxDone s2 .pf 3
  | .bus =>
    let fs := answerFrames s w (if write then 5 else 6) idx sub err value
    let s1 := fs.foldl busSend s
    s1.modMgt fun m => { m with kept := m.kept.filter (fun k => !(k.src == w.node && k.txn == w.txn)) ++
      [{ src := w.node, txn := w.txn, func := if write then 5 else 6, hdr := w.hdr, frames := fs }] }

/-- A read of CHALLENGE: a fresh nonce from the random bit generator, whose value nothing tells (R741, R878). -/
def readChallenge (s : State) (w : OdSrc) : State × List Byte :=
  let (n, s1) := fresh s
  let v := Config.free n % 2 ^ 384
  (modRole s1 w.master fun r => { r with nonce := some (v, s.mer.osc, w.node) }, leBytes 48 v)
/-- What a RESPONSE signs: the nonce, the role, the serial, byte 0 first as the device shows it (DEDUCED), and the master's number (R741). -/
def responseText (s : State) (w : OdSrc) (nonce role : Nat) : List Byte :=
  leBytes 48 nonce ++ leBytes 1 role ++ leBytes 8 (serial s) ++ leBytes 1 (masterNum w.master)
/-- A write of RESPONSE (R741, R742). An installer's signature verifies against the installer key; `ok` tells whether a maker's verifies
against Eswilan's key, which the spec does not print. -/
def writeResponse (s : State) (w : OdSrc) (data : List Byte) (ok : Bool) : State × Nat :=
  let r := masterRole s w.master
  let role := leAt data 0 1
  let a := { auditOf s w 1 0x2000 3 with new := role }
  let refuse (s : State) : State := journal s { a with refused := true }
  if data.length != 97 then (s, odLENGTH)
  else if r.lockout then (refuse s, odSTATE)
  else
    let good : Bool := match r.nonce with
      | some (v, t, node) => decide (s.mer.osc - t ≤ 60000000000) && (w.master == .pf || node == w.node) &&
          (if role = 2 then ok else role == 1 && s.ctl.key.any fun k => sigOk k (sha384 (responseText s w v role)) (data.drop 1))
      | none => false
    let s1 := modRole s w.master fun r => { r with nonce := none }
    if good then (journal (modRole s1 w.master fun r => { r with role := role, node := w.node, streak := 0 }) a, odOK)
    else
      let s2 := modRole s1 w.master fun r => { r with failed := sat 0xFFFFFFFF (r.failed + 1), streak := (r.streak + 1) % 4, lockout := r.streak == 3 }
      let s3 := refuse s2
      (if r.streak = 3 then journal s3 { a with kind := 2, refused := true } else s3, odRIGHTS)
/-- The master returns to the operator role (R743). -/
def dropRole (s : State) (m : Master) : State :=
  let r := masterRole s m
  if r.role = 0 then s
  else journal (modRole s m fun r => { r with role := 0 }) { auditOf s { master := m, node := r.node } 2 0x2000 4 with old := r.role }
/-- LOCKOUT_EXPIRY (R742). -/
def execLockoutExpiry (m : Master) (s : State) : Host.Outcome State Fault Refusal := .next (modRole s m fun r => { r with lockout := false })
/-- ROLE_IDLE_TIMEOUT: 600 s with no write by the elevated master (R743). -/
def execRoleIdleTimeout (m : Master) (s : State) : Host.Outcome State Fault Refusal := .next (dropRole s m)
/-- A write of INSTALLER_KEY (R744): by any master while none is held, then by the maker, whose zeros clear it. -/
def writeKey (s : State) (w : OdSrc) (data : List Byte) : State × Nat :=
  if data.length != 97 then (s, odLENGTH)
  else if s.ctl.key.isSome && roleOf s w != 2 then (s, odRIGHTS)
  else
    let k := if data.all (· == 0) then none else some data
    let s1 := journal s { auditOf s w 6 0x2000 5 with old := auditValue (s.ctl.key.getD (List.replicate 97 0)), new := auditValue data }
    (almQueue (s1.modCtl fun c => { c with key := k }) (0xE800 + 0x180) data, odOK)
/-- A read of the audit entry at the cursor; the cursor moves past it, or past the oldest held when it is overwritten (R754). With
no entry at the cursor, nothing is returned (DESIGN CHOICE). -/
def readAudit (s : State) : State × List Byte :=
  let a := match s.ctl.audit.find? (·.seq == s.ctl.cursor) with
    | some a => some a
    | none => match s.ctl.audit.head? with
      | some o => if s.ctl.cursor < o.seq then some o else none
      | none => none
  match a with
  | some a => (odSet (s.modCtl fun c => { c with cursor := (a.seq + 1) % 2 ^ 32 }) 0x2010 2 ((a.seq + 1) % 2 ^ 32), auditBytes a)
  | none => (s, [])

end Sys2Proof.Machine
end

