-- ==== Sys2Proof/Machine/Telemetry.lean ====
section
/-! DEFINITION. The central reader (R909-R915), accounting (R919-R923) and energy (R924-R929). -/

namespace Sys2Proof.Machine
open Sys2Proof

/-- STATE of a partition as the object dictionary codes it (R752). -/
def PState.code : PState → Nat
  | .vacant => 0 | .provisioning => 1 | .active => 2 | .draining => 3 | .fenced => 4 | .scrubbing => 5

/-- One fixed counter of a logical constellation: the counts of every unit in it (R176, R904). -/
def fixedOf (w : TelWas) (l ix : Nat) : Nat := sumN ((w.fixed.filter fun e => uidCon (e.1 / 8) == l && e.1 % 8 == ix).map (·.2)) % 2 ^ 48
/-- The counters of a COUNTERS item in the order of R911, for the groups of MASK (TEL_CTL[5:1]). -/
def counterBody (w : TelWas) (mask : Nat) : List Nat :=
  (if bit mask 0 then ((List.range 150).map fun l => (List.range 8).map (fixedOf w l) ++ (List.range 16).map fun k => cnt w.prog (16 * l + k)).flatten else [])
  ++ (if bit mask 1 then (List.range (17 * 32)).map (cnt w.port) else [])
  ++ (if bit mask 2 then (List.range (12 * 16)).map (cnt w.mem) else [])
  ++ (if bit mask 3 then (List.range (16 * 16)).map fun i => cnt w.mem (12 * 16 + i) else [])
/-- The precise records that go to a ring, as one item (R910, R915). -/
def preciseItem (s : State) (ring : Nat) : State :=
  let rs := (s.tel.precise.flatten.filter fun r => r.rings.contains ring).map (·.record)
  if rs.isEmpty then s
  else
    let (q, s1) := telSeq s ring
    telItem s1 ring 3 0 0 0 (now s) q (cdiv rs.length 2) rs
/-- Counts of ticks that the model does not keep, as free values from the k-th on: of a port's counter 28, of memory's counter 4 (R907, R908). -/
def freePort (k : Nat) (m : List (Nat × Nat)) : List (Nat × Nat) := (List.range 17).foldl (fun m n => add48 m (32 * n + 28) (Config.free (k + n))) m
def freeMem (k : Nat) (m : List (Nat × Nat)) : List (Nat × Nat) := (List.range 28).foldl (fun m r => add48 m (16 * r + 4) (Config.free (k + 17 + r))) m
/-- The ticks of the window that ends go to the counters before its boundary (R909): free values, of which a window takes 45. -/
def freeTicks (s : State) : State :=
  let k := s.freeCount
  { (telMark s).modTel fun t => { t with
      port := freePort k t.port, mem := freeMem k t.mem, was := { t.was with port := freePort k t.was.port, mem := freeMem k t.was.mem } } with
    freeCount := k + 45 }
/-- Bandwidth of the last window, in MB/s (R913, R936), from the latched counters. -/
def bandwidths (s : State) : State :=
  let us := Nat.max 1 (regFld s 0x600004 0 20)
  let port := (telLatched s).port
  s.modTel fun t =>
    let entries := ((List.range 17).map fun n => (List.range 16).map fun i => (16 * n + i, 32 * n + i)).flatten
    { t with
      bw := entries.foldl (fun m e => cntSet m e.1 (sat 0xFFFFFFFF ((cnt port e.2 + 2 ^ 48 - cnt t.portAt e.2) % 2 ^ 48 / us))) t.bw
      portAt := entries.foldl (fun m e => cntSet m e.2 (cnt port e.2)) t.portAt }
/-- TEL_WINDOW_BOUNDARY: TEL_BW, one COUNTERS item, and the precise records drained (R909, R913, R915). -/
def execTelWindowBoundary (s : State) : Host.Outcome State Fault Refusal :=
  .next (
    let s1 := (bandwidths (freeTicks s)).modTel fun t => { t with window := (t.window + 1) % 2 ^ 48 }
    let mask := regFld s 0x600000 1 5
    let body := counterBody (telLatched s1) mask
    let s2 := if regFld s 0x600000 0 1 = 1 then telItem s1 32 1 0 0 mask (now s) s.tel.window (cdiv body.length 8) body else s1
    let s3 := (List.range 33).foldl preciseItem s2
    s3.modTel fun t => { t with precise := List.replicate 4 [] })

/-- The 128 bytes of a partition record (R922), of the latched counters and state. -/
def ptnRecord (s : State) (w : TelWas) (p seq : Nat) : List Byte :=
  let a := fun i => leBytes 8 (cnt w.acct (16 * p + i))
  let c := s.px.comps.getD p {}
  let b := [BitVec.ofNat 8 p, BitVec.ofNat 8 (w.states.getD p .vacant).code, 0, 0] ++ leBytes 4 seq ++ leBytes 8 (now s)
    ++ ((List.range 10).map a).flatten ++ leBytes 8 c.boundUs ++ leBytes 8 c.linkUs ++ a 10 ++ leBytes 4 0
  b ++ leBytes 4 (crc32c b)
/-- MEASURED_UJ of the device (R923). -/
def measuredUj (w : TelWas) : Nat := w.measured / 1000000
/-- RESIDUAL_UJ of the interval since the previous snapshot, and the energy measured in it (R923). -/
def residual (s : State) : Int × Nat :=
  let w := telLatched s
  let m := measuredUj w - s.tel.atSnap.getD 0 0
  ((m : Int) - ((w.unalloc - s.tel.atSnap.getD 1 0 : Nat) : Int) - ((w.given - s.tel.atSnap.getD 2 0 : Nat) : Int), m)
/-- Whether the interval that ends is VALID (R927). -/
def validInterval (s : State) : Bool :=
  s.tel.snapAt + 1000000000 ≤ now s && 64 ≤ s.tel.fittedAt && s.tel.allIvs * 9 ≤ s.tel.goodIvs * 10
/-- The 128 bytes of the device record (R923). -/
def deviceRecord (s : State) (seq : Nat) : List Byte :=
  let b := [0xFF, 0, 0, 0] ++ leBytes 4 seq ++ leBytes 8 (now s) ++ leBytes 8 (measuredUj (telLatched s)) ++ leBytes 8 (telLatched s).unalloc
    ++ leBytes 8 (ofInt 64 (residual s).1) ++ leBytes 8 (odGet s 0x6100 1) ++ leBytes 8 (now s - s.tel.snapAt) ++ leBytes 8 (b2n (validInterval s)) ++ List.replicate 60 0
  b ++ leBytes 4 (crc32c b)
/-- The next snapshot number, which 0x7000 sub 0x02 shows (R929). -/
def nextSnap (s : State) : Nat × State :=
  let n := (s.tel.snap + 1) % 2 ^ 48
  (n, odSet (s.modTel fun t => { t with snap := n }) 0x7000 2 (n % 2 ^ 32))
/-- Keep the last record of a partition (R929). -/
def keepRecord (s : State) (p : Nat) (r : List Byte) : State := s.modTel fun t => { t with last := sput t.last p r }
/-- A snapshot of all partitions (R920, R923, R927, R928). -/
def snapshot (s : State) (extra : Bool) : State :=
  let (seq, s1) := nextSnap s
  let recs := (List.range 32).map fun p => ptnRecord s1 (telLatched s1) p seq
  let s2 := telItem s1 32 2 0 (b2n extra) 0 (now s) seq 66 (leNat (deviceRecord s1 seq) :: recs.map leNat)
  let e : Event := { cls := 0xD, code := 2, payload := [seq % 2 ^ 32, 0, b2n extra] }
  let s3 := (List.range 32).foldl (fun s p =>
    let r := recs.getD p []
    let s' := keepRecord s p r
    if (getReg s (winBase p + 0x820)).getLsbD 2 then raisePtn (telItem s' p 2 0 (b2n extra) 0 (now s) seq 2 [leNat r]) p e else s') (raisePf s2 e)
  let (res, m) := residual s
  let s4 := if validInterval s && decide (m * 2 < res.natAbs * 100) then
      odCount (raisePf s3 { cls := 0xD, code := 3, payload := [seq % 2 ^ 32, ofInt 32 (satInt 32 res), sat 0xFFFFFFFF m] }) 0x6100 4
    else s3
  s4.modTel fun t => { t with
    atSnap := [measuredUj (telLatched s), (telLatched s).unalloc, (telLatched s).given], goodIvs := 0, allIvs := 0, fittedAt := odGet s 0x6100 3, snapAt := now s }
/-- ACCT_SNAPSHOT (R920). -/
def execAcctSnapshot (s : State) : Host.Outcome State Fault Refusal := .next (snapshot s false)
/-- ACCT_LATCH: an extra snapshot now (R929, R933). -/
def execAcctLatch (s : State) : Host.Outcome State Fault Refusal := .next (snapshot s true)
/-- The FINAL record of a partition that enters SCRUBBING, to the PF ring only (R921): all that it has counted. -/
def finalRecord (s : State) (p : Nat) : State :=
  let (seq, s1) := nextSnap s
  let r := ptnRecord s1 (telNow s1) p seq
  raisePf (keepRecord (telItem s1 32 2 1 0 0 (now s) seq 2 [leNat r]) p r) { cls := 0xD, code := 2, ptn := some p, payload := [seq % 2 ^ 32, 1, 0] }

/-- Units of an activity (R925). -/
def actUnit (k : Nat) : Nat := [1024, 1024, 1024, 1024, 64, 64, 1, 1, 1, 256, 4096].getD k 1
/-- A coefficient in units of 2^-149 (R929). -/
def coefUnits (w : Word) : Nat :=
  match r32 w.toNat with
  | .fin false m e => m * 2 ^ (e + 149).toNat
  | _ => Config.oddCoefficient w
/-- Coefficient j of a rail in force: P0, then c_0 to c_10. -/
def coefOf (s : State) (rail j : Nat) : Nat := coefUnits (s.tel.coeffs.getD (12 * rail + j) 0)
/-- Raw count of an activity on a rail, of partition `o`, or not allocated for 32: a core rail counts its quarter, another rail the
whole device (DESIGN CHOICE). -/
def railAct (s : State) (rail o k : Nat) : Nat :=
  let at_ := fun part => cnt s.tel.acts ((if o < 32 then 32 * part + o else 160 + part) * 16 + k)
  if rail < 4 then at_ rail else sumN ((List.range 5).map at_)
/-- Logical constellations of a partition that a quarter carries (R926). -/
def carried (s : State) (p q : Nat) : Nat := ((getPtn s p).cons.filter fun l => match physOf s l with | some x => physQuarter x == q | none => false).length
/-- Units of static energy that a partition reserves of a rail (R926). -/
def railUnits (s : State) (rail p : Nat) : Nat :=
  if (getPtn s p).state = .vacant then 0
  else if rail < 4 then carried s p rail
  else if rail = 5 then ((List.range 768).filter fun g => nearOwner s g == some p).length
  else if rail = 6 then ((List.range 2048).filter fun f => farOwner s f == some p).length
  else sumN ((List.range 4).map (carried s p))
/-- All units of a rail (R926). -/
def railTotal (rail : Nat) : Nat := if rail < 4 then 40 else if rail = 5 then 768 else if rail = 6 then 2048 else 160
/-- Modelled energy of the interval for a partition, or not allocated for 32, in units of pJ ÷ (15 · 2^161) (R925, R926). -/
def energyOf (s : State) (o : Nat) : Nat :=
  sumN ((List.range 10).map fun r =>
    let own := if o < 32 then railUnits s r o else railTotal r - sumN ((List.range 32).map (railUnits s r))
    coefOf s r 0 * 100000000000 * 61440 * own / railTotal r
      + sumN ((List.range 11).map fun k => coefOf s r (k + 1) * railAct s r o k * 61440 / actUnit k))
/-- Units of energy in a µJ. -/
def ujUnits : Nat := 1000000 * 15 * 2 ^ 161
/-- Attribute the interval's energy (R926). -/
def spreadEnergy (s : State) : State :=
  (List.range 33).foldl (fun s' o =>
    let e := cnt s'.tel.remain o + energyOf s o
    let s1 := s'.modTel fun t => { t with remain := cntSet t.remain o (e % ujUnits) }
    if o < 32 then (telAcct s1 o 9 (e / ujUnits)).modTel fun t => { t with given := t.given + e / ujUnits }
    else s1.modTel fun t => { t with unalloc := t.unalloc + e / ujUnits }) (telMark s)
/-- What a measured interval gives the fit: the energy of the rails, and the activities of the quarters and of the device. -/
def fitRow (s : State) : List Nat :=
  s.tel.railPj ++ ((List.range 5).map fun r => (List.range 11).map fun k => sumN ((List.range 33).map fun o => railAct s r o k)).flatten
/-- ENERGY_FIT: the end of a 100 ms interval. Its energy is attributed under the set in force; a measured interval enters the fit; in
the hardware mode, with 32 intervals or more, the fitted set applies from the next interval on (R925-R928). -/
def execEnergyFit (s : State) : Host.Outcome State Fault Refusal :=
  .next (
    let hw : Bool := odGet s 0x9000 4 == 0
    let good : Bool := !s.tel.badRead
    let fits := if good then (s.tel.fits ++ [fitRow s]).drop ((s.tel.fits.length + 1) - 64) else s.tel.fits
    let s1 := (spreadEnergy s).modTel fun t => { t with
      fits := fits, acts := [], railPj := List.replicate 10 0, badRead := false, allIvs := t.allIvs + 1, goodIvs := t.goodIvs + b2n good }
    let s2 := if hw && good then odCount s1 0x6100 3 else s1
    if hw && 32 ≤ fits.length then
      (odSet s2 0x6100 1 ((odGet s2 0x6100 1 + 1) % 2 ^ 32)).modTel fun t => { t with
        coeffs := (List.range 120).map fun i => Config.energyFit fits i &&& 0x7FFFFFFF }
    else s2)
/-- PMBUS_POLL: READ_VOUT in mV and READ_IOUT in units of 62.5 mA of each rail, or a failed read (R924, R976, R1002). -/
def execPmbusPoll (reads : List (Option (Nat × Nat))) (s : State) : Host.Outcome State Fault Refusal :=
  .next ((List.range 10).foldl (fun s r =>
    match reads.getD r none with
    | some (mv, amp) =>
      let v := mv % 65536
      let a := amp % 65536
      let s1 := (odSet (telMark s) 0x6000 (r + 1) (v + a * 65536)).modTel fun t => { t with
        measured := t.measured + v * a * 62500, railPj := modAt t.railPj r (· + v * a * 62500) }
      if r < 4 then modQtr s1 r fun q => { q with amps := (a :: q.amps).take 100 } else s1
    | none =>
      if s.tel.badRead then s
      else (raisePf s { cls := 0xD, code := 4, payload := [r, s.tel.unmeas + 1] }).modTel fun t => { t with badRead := true, unmeas := t.unmeas + 1 }) s)
/-- A write of the coefficient set (R928, R929): 480 bytes; refused in the hardware mode. The generation counts the new set (DEDUCED). -/
def writeCoeffs (s : State) (data : List Byte) : State × Nat :=
  if data.length != 480 then (s, odLENGTH)
  else if odGet s 0x9000 4 = 0 then (s, odSTATE)
  else ((odSet s 0x6100 1 ((odGet s 0x6100 1 + 1) % 2 ^ 32)).modTel fun t => { t with
    coeffs := (List.range 120).map fun i => BitVec.ofNat 32 (leAt data (4 * i) 4) }, odOK)

end Sys2Proof.Machine
end

