-- ==== Sys2Proof/Machine/Ptn.lean ====
section
/-! DEFINITION. Partitions (R729-R739, R752, R765): their commands, fences, release and scrub, the function-level reset. -/

namespace Sys2Proof.Machine
open Sys2Proof

/-- Whether LIVE_LIMIT is one of the values of R225, and the limits of all partitions fit. -/
def liveLimitOk (s : State) (p : Nat) : Bool :=
  let n := liveLimit s p
  n != 0 && n % 1024 == 0 && n ≤ 262144
    && sumN ((List.range 32).map fun q => if q = p || (getPtn s q).state != .vacant then liveLimit s q else 0) ≤ 1048576
/-- Allocate the device's own structures of a partition (R436): RSR table, page table, heat
array, histograms, and the serve record table of R470 (sizes: DESIGN CHOICE but for the RSR of R226, the record of R239, the byte of R387 and R470). -/
def allocStructures (s : State) (p : Nat) : Option State :=
  let n := liveLimit s p
  (allocOwn s p (256 * n)).bind fun a => (allocOwn a.2 p (32 * pageRecords s p)).bind fun b => (allocOwn b.2 p (pageRecords s p)).bind fun c =>
    (allocOwn c.2 p (129 * 4096)).bind fun d => (allocOwn d.2 p (256 * n)).map fun e => modPtn e.2 p fun x => { x with
      rsrTile := a.1 / 4096, pageTile := b.1 / 4096, heatTile := c.1 / 4096, histTile := d.1 / 4096, serveTile := e.1 / 4096 }
/-- CMD_RESULT that a command has in the present state (R732, R733, R752). -/
def cmdCheck (s : State) (p cmd : Nat) : Nat :=
  let st := (getPtn s p).state
  match cmd with
  | 1 => if st != .vacant || (getPtn s p).cons.isEmpty || s.boot.nfState != 0 then 1 else if !liveLimitOk s p then 5 else 0
  | 2 => if st == .draining then 0
         else if st != .provisioning then 1
         else if (match image s with | some im => im.fprint != fingerprint s | none => true) then 2
         else if (allocStructures s p).isNone then 3 else 0
  | 3 => if st == .active then 0 else 1
  | 4 => if st == .provisioning || st == .active || st == .draining then 0 else 1
  | 5 => if st == .fenced then 0 else 1
  | _ => if st == .provisioning || st == .fenced then 0
         else if st == .draining then (if liveCount s p = 0 && !s.serve.moves.any (·.ptn == p) then 0 else 4) else 1

/-- A partition goes to another state: the event and the journal entry (R745, R765). -/
def goPtn (s : State) (p : Nat) (st : PState) (cause : Nat) : State :=
  let old := (getPtn s p).state
  let s1 := modPtn (telMark s) p fun x => { x with state := st }
  raisePf (journalState s1 p old.code st.code) { cls := 0xA, code := 1, ptn := some p, payload := [old.code, st.code, cause] }
/-- The window returns to its reset values, its mailboxes become idle, its vectors masked (R737, R739). -/
def resetWindow (s : State) (p : Nat) : State :=
  let mine (o : Nat) : Bool := decide (winBase p ≤ o) && decide (o < winBase p + 0x10000)
  let s1 := s.modRegs fun r => { r with
    store := r.store.filter fun e => !mine e.1, shadow := r.shadow.filter fun e => !mine e.1, latch := r.latch.filter fun e => !mine e.1
    ringCount := r.ringCount.filter fun e => !mine e.1, ringDrop := r.ringDrop.filter fun e => !mine e.1, ringIndex := r.ringIndex.filter fun e => !mine e.1
    waiting := r.waiting.filter fun e => !mine e.1, dmaWait := r.dmaWait.filter (·.1 != p), msixOpen := r.msixOpen.filter (·.1 != p + 1), msixPending := r.msixPending.filter (·.1 != p + 1) }
  (modPtn s1 p fun x => { x with
    cmtPending := false, cmtResult := 0, cmtOffset := 0, cmtBusy := false, crcRefPending := none, crcLive := 0, crcValid := false, crcMatch := false
    crcQuiet := false }).modPx fun x => { x with leaving := x.leaving.filter fun e => e.2 != some p }
/-- A constellation's clocks are gated, and it goes to SLEEP once its work has stopped (R734). -/
def gateCon (s : State) (phys : Nat) : State :=
  let c := getCon s phys
  if c.init then s
  else if c.pwr = .awake || c.pwr = .doze then tryRest (modCon s phys fun c => { c with waking := false, after := some .sleep, wokeAt := none, leads := [] }) phys
  else modCon s phys fun c => { c with waking := false, leads := [] }
/-- What isolates a partition (R734): tasks stop, constellations rest, movers stop, queue pairs enter ERROR, containment on the
vDSPs of its links, a locked TDI enters ERROR. -/
def isolate (s : State) (p : Nat) : State :=
  let ids := (s.work.insts.filter fun i => (taskOf s i).any (·.ptn == p)).map (·.id)
  let s1 := ids.foldl (fun s i => askStop s i stRETRIED) s
  let s2 := ((getPtn s p).cons.filterMap (physOf s)).foldl gateCon s1
  let s3 := s2.modServe fun w => { w with xfers := updIf (·.ptn == p) (fun x => { x with running := false }) w.xfers }
  let s4 := ((s3.px.qps.filter (·.ptn == p)).map (·.ix)).foldl (fun s ix => qpError s ix none) s3
  let s5 := (List.range 12).foldl (fun s l => match heldBy s l with
    | some (q, v) => if q = p then emit s (.slot (cmpUlink (compOf s p).cfg) v 5) else s
    | none => s) s4
  modComp s5 p fun c => { c with tdi := if c.tdi = 1 || c.tdi = 2 then 3 else c.tdi }
/-- An event that goes to a partition's ring before its DMA stops (R765). -/
def lastEvent (s : State) (p : Nat) (e : Event) : State :=
  let s1 := s.modEph fun x => { x with pcie := x.pcie ++ [(0, 0, p)] }
  (raisePtn (ringDrain s1 (winRing p 5)) p e).modEph fun x => { x with pcie := s.eph.pcie }
/-- A fence (R734-R736, R765). -/
def fencePtn (s : State) (p cause : Nat) : State :=
  let st := (getPtn s p).state
  if !(st == .provisioning || st == .active || st == .draining) then s
  else
    let e : Event := { cls := 0xA, code := 2, ptn := some p, payload := [cause] }
    let s1 := lastEvent (raisePf s e) p e
    goPtn (isolate (modPtn s1 p fun x => { x with before := st, fenceCause := cause }) p) p .fenced (if cause = 1 then 4 else cause)
/-- What stays of a VC queue when partition p is discarded (R737): all of another partition's; of p's own, what the device forwards or answers. -/
def keptQueue (s : State) (p : Nat) (q : Nat × List QItem) : Option (Nat × List QItem) :=
  let r := q.2.filter fun it => !ownItem s it
  if q.1 / 8 != p then some q else if r.isEmpty then none else some (q.1, r)
/-- Everything that runs for a partition goes, without records: requests, pages, moves, tasks, tables, queries (R737 steps 1, 4, 5). -/
def discardPtn (s : State) (p : Nat) : State :=
  let hs := (s.serve.reqs.filter (·.ptn == p)).map (·.handle)
  let ts := (s.work.tasks.filter (·.ptn == p)).map (·.id)
  let s1 := s.modServe fun w => { w with
    gens := (w.reqs.filter (·.ptn == p)).foldl (fun m r => cntSet m (p * 2 ^ 18 + r.slot) r.gen) w.gens
    reqs := w.reqs.filter (·.ptn != p), pages := w.pages.filter (·.ptn != p), tables := w.tables.filter (·.ptn != p), hists := w.hists.filter (·.ptn != p)
    queries := w.queries.filter fun q => !hs.contains q.handle, held := w.held.filter (·.ptn != p), moves := w.moves.filter (·.ptn != p)
    xfers := w.xfers.filter (·.ptn != p), receptions := w.receptions.filter (·.ptn != p), refs := w.refs.filter fun r => !hs.contains r.handle
    commits := w.commits.filter (·.ptn != p), marks := w.marks.filter (·.ptn != p), evicting := w.evicting.filter (· != p)
    rsrCache := w.rsrCache.filter (·.1 != p), cancels := w.cancels.filter fun c => c.1 / 2 ^ 27 != p, epochCount := cntSet w.epochCount p 0, epochLen := cntSet w.epochLen p 0, lastEpochs := w.lastEpochs.filter fun e => e.1 / 2 ^ 26 != p, ageCount := cntSet w.ageCount p 0 }
  let s2 := s1.modWork fun w => { w with
    tasks := w.tasks.filter (·.ptn != p), insts := w.insts.filter fun i => !ts.contains i.task, lookups := w.lookups.filter (·.ptn != p), rows := w.rows.filter (·.ptn != p)
    ended := w.ended.filter fun e => e.2.1 != .window p }
  let s3 := s2.modTabs fun t => { t with
    recs := t.recs.filter (·.ptn != p), asks := t.asks.filter (·.2.dstPtn != p), updates := t.updates.filter (·.ptn != p), applied := t.applied.filter (·.1 != p)
    acks := t.acks.filter (·.1 != p), heat := t.heat.filter (·.ptn != p), cache := cntSet t.cache p 0, nextSeq := t.nextSeq.filter fun e => e.1 / 256 != p
    age := cntSet t.age p 0 }
  let s4 := (s3.fab.sent.filter (·.ptn == p)).foldl dropMsg s3
  let s5 := s4.modFab fun b => { b with
    links := b.links.map fun l => { l with queues := l.queues.filterMap (keptQueue s p) }
    fencing := b.fencing.filter fun f => match f.owner with
      | .tile i _ => s.work.insts.any fun x => x.id == i && !ts.contains x.task
      | .bar2 q _ _ => q != p
      | .inval _ => true
    ctxs := b.ctxs.filter (·.ptn != p), held := b.held.filter (·.msg.ptn != p), rrc := b.rrc.filter (·.ptn != p), rrcAt := b.rrcAt.filter (·.1 != p) }
  let s6 := s5.modEph fun e => { e with slots := e.slots.filter (·.ptn != p) }
  let s7 := s6.modPx fun x => { x with
    qps := x.qps.filter (·.ptn != p), regions := x.regions.filter (·.ptn != p), bar2 := x.bar2.filter (·.ptn != p), leaving := x.leaving.filter fun e => e.2 != some p }
  s7.modMem fun m => { m with
    area := m.area.filter fun c => !(m.allocs.any fun a => a.ptn == p && a.tile ≤ c.2 && c.2 < a.tile + a.tiles)
    allocs := m.allocs.filter (·.ptn != p), healed := if m.gone.isEmpty then m.healed else m.healed ++ (m.allocs.filter (·.ptn == p)).map fun a => (a.tile, a.tiles) }
/-- Granules of a partition: g, and 768 + f. -/
def granulesOf (s : State) (p : Nat) : List Nat :=
  ((List.range 768).filter fun g => nearOwner s g == some p) ++ ((List.range 2048).filter fun f => farOwner s f == some p).map (768 + ·)
def clearGranule (s : State) (g : Nat) : State :=
  let r := if g < 768 then nearRange g 1 else farRange (g - 768) 1
  tierClear s r.1 r.2
/-- Fresh keys for a partition: that of its Far key slot and its context key (R445, R722), of whatever value the random bit generator gives. -/
def newKeys (s : State) (p : Nat) : State :=
  let (a, s1) := fresh s
  let (b, s2) := fresh s1
  modPtn s2 p fun x => { x with farKey := some (Config.free a % 2 ^ 512), ctxKey := some (Config.free b % 2 ^ 256) }
/-- Entry to SCRUBBING: what R737 does from t0 on. -/
def enterScrub (s : State) (p : Nat) : State :=
  let s0 := if (getPtn s p).state == .fenced then s else isolate s p
  let s1 := finalRecord (goPtn s0 p .scrubbing 6) p
  let links := (List.range 12).filter fun l => (heldBy s1 l).any (·.1 == p)
  let s2 := links.foldl (fun s l => freeLink s l (some 0)) (resetWindow (discardPtn s1 p) p)
  let s3 := modComp (setReg s2 (0x508000 + 0x20 * p) 0) p fun c => { c with cfg := 0 }
  let s4 := ((getPtn s p).cons.filterMap (physOf s)).foldl (fun s x => modCon s x fun c => { c with pwr := .awake, init := true, beatAt := now s, waking := false, draining := false, after := none }) s3
  let gs := granulesOf s p
  ((gs.foldl clearGranule s4).modMem fun m => { m with clearing := m.clearing ++ gs }) |> fun s =>
    modPtn (newKeys s p) p fun x => { x with scrubStep := 3, stuck := [] }

/-- Counters of the object dictionary that belong to a partition (R729). -/
def ptnCounter (p key : Nat) : Bool :=
  [0x9140, 0x9180, 0x91C0, 0x91E0, 0x9200, 0x9240].contains (key / 256 - p) && (odFind (key / 256) (key % 256)).any (·.rc)
/-- A constellation joins a partition: out of DEEP through SRAM initialisation (R75, R730). -/
def joinCon (s : State) (l : Nat) : State :=
  match physOf s l with
  | some x => if (getCon s x).pwr = .deep then modCon s x fun c => { c with pwr := .awake, init := true, draining := false, after := none, beatAt := now s } else s
  | none => s
/-- Entry to PROVISIONING: counters and budget reset, the window at its reset values, constellations woken from DEEP (R732), and
its keys generated, which nothing reads (R445, R722). -/
def enterProvision (s : State) (p : Nat) : State :=
  let s1 := (goPtn s p .provisioning 1).modTel fun t => { t with acct := t.acct.filter fun e => e.1 / 16 != p, remain := cntSet t.remain p 0 }
  let s2 := s1.modCtl fun c => { c with od := c.od.filter fun e => !ptnCounter p e.1 }
  let s3 := setLevel (s2.modServe fun w => { w with remain := cntSet w.remain p 0 }) p 0
  (getPtn s p).cons.foldl joinCon (newKeys (resetWindow s3 p) p)

/-- A stopping order moves a locked TDI to ERROR (R697). -/
def lockError (s : State) (p : Nat) : State := modComp s p fun c => { c with tdi := if c.tdi = 1 || c.tdi = 2 then 3 else c.tdi }
/-- Carry out a command whose check has passed. -/
def runCmd (s : State) (p cmd : Nat) : State :=
  match cmd with
  | 1 => enterProvision s p
  | 2 => if (getPtn s p).state == .draining then goPtn s p .active 2
         else goPtn ((allocStructures s p).getD s) p .active 2
  | 3 => lockError (goPtn s p .draining 3) p
  | 4 => fencePtn s p 1
  | 5 => drainDma (modPtn (goPtn s p (getPtn s p).before 5) p fun x => { x with fenceCause := 0 }) p
  | _ => enterScrub s p
/-- A command at its commit point: checked against the state then, carried out, its result reported (R732, R733). -/
def ptnCommand (s : State) (p cmd : Nat) : State × Nat :=
  let r := cmdCheck s p cmd
  let s1 := if r = 0 then runCmd s p cmd else s
  (modPtn s1 p fun x => { x with cmdResult := r }, if r = 0 then odOK else if r = 5 then odRANGE else odSTATE)
/-- A command that is accepted or refused as it is written: the role that UNFENCE needs, and the state, unless commands of the
partition wait before it (R733, R736). -/
def cmdAccept (s : State) (w : OdSrc) (p cmd : Nat) : Nat :=
  if cmd = 5 && (getPtn s p).state == .fenced && 2 ≤ (getPtn s p).fenceCause && roleOf s w = 0 then 7
  else if s.ctl.odPend.any fun o => o.index == 0x3000 + 16 * p && o.sub == 2 then 0
  else cmdCheck s p cmd

/-- Steps of the scrub that cannot end: a constellation's initialisation still runs (3), a lost stack or channel holds a granule (5). -/
def scrubLacks (s : State) (p : Nat) : Option Nat :=
  if ((getPtn s p).cons.filterMap (physOf s)).any fun x => (getCon s x).init then some 3
  else if (granulesOf s p).any fun g => if g < 768 then nearUnavail s g else farUnavail s (g - 768) || (s.mem.chans.getD (farChannel s (g - 768)) {}).state == 4 then some 5
  else none
/-- The partition becomes VACANT: granules lose their owner, entries return to their defaults (R737 step 6). A variant, or running empty, of
its entries goes on until R133 or R1007 ends it: a release does not (DESIGN CHOICE, log 89: the rules do not say). -/
def leaveScrub (s : State) (p : Nat) : State :=
  let gs := granulesOf s p
  let cons := (getPtn s p).cons
  let s1 := gs.foldl (fun s g => let o := if g < 768 then ngranOff g else fgranOff (g - 768); setReg s o (getReg s o &&& 0xFFFFFFC0)) s
  let s2 := s1.modMem fun m => { m with clearing := m.clearing.filter fun g => !gs.contains g }
  let s3 := (List.range 6).foldl (fun s i => odSet s (0x9100 + p) (i + 1) 0) (odSet s2 (0x3000 + 16 * p) 4 0)
  let s4 := s3.modFab fun b => { b with windows := b.windows.filter (·.1 != p) }
  let s5 := modPtn (goPtn s4 p .vacant 6) p fun x => { x with
    cons := [], peers := [], fenceCause := 0, scrubStep := 0, stuck := [], rsrTile := 0, pageTile := 0, heatTile := 0, histTile := 0, serveTile := 0 }
  let s6 := s5.modTel fun t => { t with acct := t.acct.filter fun e => e.1 / 16 != p, remain := cntSet t.remain p 0 }
  (cons.filterMap (physOf s)).foldl restIdle s6
/-- SCRUB_COMPLETE: the partition becomes VACANT once every step has ended; a step that cannot end is reported once (R738). -/
def execScrubComplete (ptn : Nat) (s : State) : Host.Outcome State Fault Refusal :=
  .next (
    if (getPtn s ptn).state != .scrubbing then s
    else match scrubLacks s ptn with
      | none => leaveScrub s ptn
      | some k =>
        let s1 := modPtn s ptn fun x => { x with scrubStep := k }
        if (getPtn s ptn).stuck.contains k then s1
        else raisePf (modPtn s1 ptn fun x => { x with stuck := x.stuck ++ [k] }) { cls := 0xA, code := 3, ptn := some ptn, payload := [k] })

/-- VF_FLR: the function-level reset of a bound VF (R739). Records that its work would write go nowhere: every ring is disabled. -/
def execVfFlr (ptn : Nat) (s : State) : Host.Outcome State Fault Refusal :=
  .next (
    if !vfBound s ptn then s
    else
      let s1 := resetWindow s ptn
      let s2 := s1.modWork fun w => { w with
        tasks := (w.tasks.filter fun t => !(t.ptn == ptn && t.kind == 3)).map fun t => if t.ptn == ptn && t.src == .pf then { t with src := .window ptn } else t }
      let s3 := ((s2.work.tasks.filter (·.ptn == ptn)).map (·.id)).foldl (fun s t => stopTask s t stCANCELLED) s2
      let hs := (s3.serve.reqs.filter fun r => r.ptn == ptn && r.state != .parked && !r.holding).map (·.handle)
      let s4 := hs.foldl (fun s h => cancelReq (modReq s h fun r => { r with pf := false }) h) s3
      ((s4.px.qps.filter (·.ptn == ptn)).map (·.ix)).foldl (fun s ix => qpError s ix none) s4)

end Sys2Proof.Machine
end

