-- ==== Sys2Proof/Machine/Ras.lean ====
section
/-! DEFINITION. Faults, containment and recovery (R766-R810): loss of a constellation and its replay, DIMMING, re-admission, test slices
of spares, drills, the pair, device-fatal faults. -/

namespace Sys2Proof.Machine
open Sys2Proof

/-- The image in force has an n−1 segment for a partition and a quarter of loss (R131, R132). -/
def hasSegment (s : State) (p q : Nat) : Bool :=
  match image s with
  | some im => im.sections.any fun sc => (sc.dir.getD (p * 4 + q) (0, 0)).2 != 0
  | none => false
/-- A partition has lost a constellation without a spare before (R135). -/
def alreadyLost (s : State) (p : Nat) : Bool := s.eph.n1.any (·.1 == p) || s.eph.n1Wait.any (·.1 == p) || s.eph.empty.any (·.1 == p)
/-- An instance as it was bound (R162, R771): it replays from its retained inputs. -/
def freshInst (s : State) (i : Inst) : Inst :=
  let t := taskOf s i
  { id := i.id, task := i.task, uid := i.uid, pc := (t.map (·.prog)).getD 0, args := (t.map (·.args)).getD [], tagged := i.tagged, boundAt := i.boundAt }
/-- Instances on a logical constellation return to DISPATCHED (R770); one that was to stop ends with its status. -/
def replayInsts (s : State) (l : Nat) : State :=
  let mine := s.work.insts.filter fun i => uidCon i.uid == l
  let s1 := mine.foldl (fun s i =>
    match findInst s i.id with
    | none => s
    | some i => match i.stop with
      | some st => endInst s i.id st i.detail
      | none => modInst s i.id fun i => freshInst s i) s
  ((mine.filter (·.stop.isNone)).map (·.task)).eraseDups.foldl (fun s tid => modTask (((findTask s tid).map (dropPacks s)).getD s) tid fun t => { t with
    packs := [], attempt := sat 255 (t.attempt + 1), state := if s.work.insts.any (fun j => j.task == tid && j.started) then t.state else TaskState.dispatched }) s1

/-- Retained inputs in scratch, the areas of the tasks that the dispatcher built: tile lists, query vectors and partials (R771; log 91), copied
to the new carrier. -/
def copyInputs (s : State) (l old new : Nat) : State :=
  let areas := (s.work.insts.filterMap fun i => if uidCon i.uid != l then none else
    (taskOf s i).bind fun t => if t.src == TaskSrc.dispatcher && t.lineEnd != 0 then some (uidCluster i.uid % 16, 64 * bits (t.args.getD 1 0) 0 16, 64 * t.lineEnd) else none).eraseDups
  areas.foldl (fun s a =>
    let k := scratchKey old a.1 0
    (s.work.sram.filter fun e => k + a.2.1 ≤ e.1 && e.1 < k + a.2.2).foldl (fun s e => sramWrite s (scratchKey new a.1 (e.1 - k)) [e.2]) s) s
/-- Pages staged on a logical constellation. -/
def stagedOn (s : State) (l : Nat) : List Page := s.serve.pages.filter fun g => match g.stage with | some (c, _) => c / 16 == l | none => false
/-- Whether an instance that replays on the constellation appends to a page, or seals it. -/
def replayNeeds (s : State) (l : Nat) (g : Page) : Bool :=
  s.work.insts.any fun i => uidCon i.uid == l && (taskOf s i).any fun t => t.src == TaskSrc.dispatcher && t.ptn == g.ptn &&
    ((t.page.any fun x => x.1 == g.num) || (t.layer == g.layer && ((t.request.bind (findReq s)).any fun r => r.pageNum g.layer g.position == some g.num)))
/-- Write-backs and loads of pages that were staged there end (R772). -/
def dropStagingXfers (s : State) (l : Nat) (gs : List Page) : State :=
  s.modServe fun w => { w with xfers := w.xfers.filter fun x => match x.what with
    | .writeBack p n _ _ => !(gs.any fun g => g.ptn == p && g.num == n)
    | .openLoad _ _ c => c / 16 != l
    | _ => true }
/-- Whether the mirror of a page is lost too: the constellation that held it has no carrier, or one that is not made whole yet (R267). -/
def mirrorGone (s : State) (g : Page) : Bool := g.mirror.any fun m => (physOf s (m.1 / 16)).isNone || s.ras.replays.any (·.l == m.1 / 16)
/-- The staged pages of a lost constellation (R772): mirrored pages wait for their mirror; clean ones are reloaded; of the others the
committed tokens in DIRTY blocks are lost, and their requests roll back to what is durable still (R268). -/
def losePages (s : State) (l : Nat) (kept : Bool) : State :=
  let gs := (stagedOn s l).map fun g => if mirrorGone s g then { g with mirror := none } else g
  let s1 := gs.foldl (fun s g =>
    if g.mirror.isSome then (if kept then s else modPage s g.ptn g.num fun g => { g with stage := g.mirror, mirror := none })
    else if g.dirty.isEmpty then (if kept && replayNeeds s l g then s else modPage s g.ptn g.num fun g => { g with stage := none, mirror := none, through := false, prov := 0, seals := false, marked := false })
    else modPage s g.ptn g.num fun g => { g with
      stage := none, mirror := none, through := false, tokens := pageDurable g false, dirty := [], prov := 0, seals := false, marked := false })
    (dropStagingXfers s l gs)
  let lost := gs.filter fun g => g.mirror.isNone && !g.dirty.isEmpty
  let s2 := ((lost.filterMap fun g => s.serve.reqs.find? fun r => r.ptn == g.ptn && r.pageNum g.layer g.position == some g.num).map (·.handle)).eraseDups.foldl
    (fun s h => modReq s h fun r => { r with durableLen := Nat.min r.durableLen (durableNow s1 r) }) s1
  let hs := ((lost.filterMap fun g => s2.serve.reqs.find? fun r => r.ptn == g.ptn && r.pageNum g.layer g.position == some g.num).filter fun r => r.durableLen < r.length).map (·.handle)
  hs.eraseDups.foldl rollReq s2
/-- A new mirror on the next surviving constellation of the partition, copied from the primary (R267, R775). -/
def newMirror (s : State) (g : Page) : State :=
  match g.stage with
  | none => s
  | some (c, b) =>
    let alive := (getPtn s g.ptn).cons.filter fun x => (physOf s x).isSome
    match (alive.find? fun x => c / 16 < x).orElse fun _ => alive.head? with
    | none => s
    | some x =>
      if x = c / 16 then s
      else match chooseStage s ((List.range 16).map (x * 16 + ·)) (openBlocks g.geo) with
        | none => s
        | some (c', b') =>
          modPage (sramWrite s (stageKey s c' b') (sramRead s (stageKey s c b) (openBlocks g.geo * 4096))) g.ptn g.num fun g => { g with mirror := some (c', b') }
/-- A physical constellation becomes failed: DEEP, its contents gone (R75, R770). -/
def failCon (s : State) (phys : Nat) : State :=
  mapEntry (sramClear (modCon s phys fun c => { c with
    role := .failed, logical := none, pwr := .deep, waking := false, init := false, draining := false, after := none, service := .lit, dimCause := 0, testing := false, mentor := none }) phys) phys
/-- A spare takes a logical number: it wakes at a clock that its rail allows, a slice of it yields (R48, R798; the clock: R70). One that
has gone to SLEEP in this tick stays AWAKE (R78). -/
def takeSpare (s : State) (spare l clk : Nat) (sv : Service) : State :=
  let c := getCon s spare
  let q := getQtr s (physQuarter spare)
  let tick := some (now s / 4)
  let awake : Bool := c.restAt == tick && c.pwr == .sleep
  let s1 := if c.testing then
      rasEvent (odCount (bumpReg s 0x70004C) 0x4000 7) (some l) 8 [0, mkUid 2 l, 0, 1]
    else s
  mapEntry (modCon s1 spare fun c => { c with
    role := .enabled, logical := some l, waking := !awake, pwr := if awake then .awake else c.pwr, wokeAt := tick, tookAt := tick, testing := false, service := sv, clkImage := clk, clkStep := if q.settling then 24 else Nat.min clk (maxStep q.mv) }) spare
/-- A logical constellation has no spare (R775, R776): its instances go back, mirrors become primaries, and its partition runs its n−1
segments from the next boundary, or is fenced. -/
def goDark (s : State) (l : Nat) (drill : Bool) : State :=
  let ids := (s.work.insts.filter fun i => uidCon i.uid == l).map (·.id)
  let s1 := losePages (ids.foldl (fun s i => endInst s i stRETRIED 0) s) l false
  let moved := (s.serve.pages.filter fun g => (g.mirror.any fun m => m.1 / 16 == l) || ((stagedOn s l).contains g && g.mirror.isSome))
  let s2 := moved.foldl (fun s g => match findPage s g.ptn g.num with
    | some g => newMirror (modPage s g.ptn g.num fun g => { g with mirror := none }) { g with mirror := none }
    | none => s) s1
  match ownerOf s l with
  | none => s2
  | some p =>
    let q := homeQuarter l
    let fence : Bool := alreadyLost s p || !hasSegment s p q
    let s3 := raiseBoth s2 p { cls := 0xB, code := 4, uid := mkUid 2 l, payload := [b2n drill, q, b2n fence] }
    let s4 := s3.modEph fun e => { e with n1Wait := e.n1Wait ++ [(p, q, l)] }
    if fence then fencePtn s4 p 3 else s4

/-- A lost logical number goes to a spare, where its instances replay (R770-R774). -/
def startReplay (s : State) (l old sp clk : Nat) (drill : Bool) (since : Nat) : State :=
  (takeSpare s sp l clk .lit).modRas fun r => { r with
    replays := r.replays.filter (·.l != l) ++ [{ l := l, old := old, spare := sp, drill := drill, since := since }]
    remaps := r.remaps ++ [{ l := l, old := old, new := sp, planned := false, drill := drill }] }
/-- The mentor of a DAWN constellation (R791): the partition's next lower surviving number, else its highest; its carrier. -/
def mentorOf (s : State) (l : Nat) : Option Nat :=
  match ownerOf s l with
  | none => none
  | some p =>
    let up := (getPtn s p).cons.filter fun x => x != l && serviceOf s x == .lit
    ((up.filter (· < l)).getLast?.orElse fun _ => up.getLast?).bind (physOf s)
/-- A DARK logical number goes to DAWN on a spare (R790). Its clock is the slowest until a CLOCK entry names it (log 75). -/
def startDawn (s : State) (l sp clk : Nat) : State :=
  let s1 := takeSpare s sp l clk .dawn
  modCon s1 sp fun c => { c with mentor := mentorOf s1 l }
/-- Spares that higher logical numbers have taken in this tick, as (number, spare) in ascending order (R51). -/
def rivals (s : State) (l : Nat) : List (Nat × Nat) :=
  sortBy (·.1) ((List.range 160).filterMap fun p =>
    let c := getCon s p
    match c.logical with
    | some x => if l < x && c.role == .enabled && c.tookAt == some (now s / 4) then some (x, p) else none
    | none => none)
/-- The spares that logical numbers take one after another (R48-R51). -/
def assignSpares : List Nat → State → List (Nat × Option Nat)
  | [], _ => []
  | l :: r, s => match chooseSpare s (homeQuarter l) with
    | some p => (l, some p) :: assignSpares r (modCon s p fun c => { c with role := .enabled })
    | none => (l, none) :: assignSpares r s
/-- A spare that a number has taken in this tick and gives up: it rests, zeroised, as a spare (R47, R51). -/
def freeSpare (s : State) (sp : Nat) : State :=
  mapEntry (sramClear (modCon s sp fun c => { c with
    role := .spare, logical := none, pwr := .sleep, waking := false, wokeAt := none, tookAt := none, service := .lit, mentor := none }) sp) sp
/-- A number `x` that held the spare of `c` goes on without it, on the spare `new` or on none: a replay, a DAWN, or a planned remap. Without a
spare a DAWN stays DARK, and a planned remap is as R778 has it. -/
def moveTaker (s : State) (x sp : Nat) (new : Option Nat) (c : Con) : State :=
  let undo (s : State) : State := setReg (noteRc s 0x700044 (· - 1)) 0x700044 (BitVec.ofNat 32 ((getReg s 0x700044).toNat - 1))
  let s1 := s.modRas fun r => { r with replays := r.replays.filter (·.l != x), remaps := r.remaps.filter fun m => !(m.l == x && m.new == sp) }
  match s.ras.replays.find? (·.l == x), s.ras.remaps.find? fun m => m.l == x && m.new == sp, new with
  | some r, _, some q => startReplay s1 x r.old q c.clkImage r.drill r.since
  | some r, _, none => undo (goDark s1 x r.drill)
  | none, some m, some q => (takeSpare s1 q x c.clkImage .lit).modRas fun r => { r with remaps := r.remaps ++ [{ m with new := q }] }
  | none, some m, none =>
    if m.cause != 0 then undo (goDark s1 x false)
    else undo (mapEntry (modCon s1 m.old fun o => { o with role := .enabled, logical := some x, pwr := .awake, service := .dimming, dimCause := 0 }) m.old)
  | none, none, some q => startDawn s1 x q c.clkImage
  | none, none, none => s1
/-- The spare for a logical number, with the higher numbers of this tick that would take it served after it (R48-R51). -/
def claimSpare (s : State) (l : Nat) : Option Nat × State :=
  let rs := rivals s l
  let plan := assignSpares (l :: rs.map (·.1)) (rs.foldl (fun s r => modCon s r.2 fun c => { c with role := .spare }) s)
  let moved := (List.zip rs (plan.drop 1)).filter fun m => m.2.2 != some m.1.2
  -- what each of them had copied to its spare goes with it
  let held := moved.map fun m => (m.1.1, m.1.2, m.2.2, getCon s m.1.2,
    (s.work.sram.filter fun e => e.1 < 2 ^ 34 && sramPhys e.1 == m.1.2).map fun e => (e.1 - m.1.2 * 2 ^ 26, e.2))
  let s1 := held.foldl (fun s m => freeSpare s m.2.1) s
  ((plan.head?).bind (·.2), held.foldl (fun s m =>
    let s1 := moveTaker s m.1 m.2.1 m.2.2.1 m.2.2.2.1
    match m.2.2.1 with
    | some q => m.2.2.2.2.foldl (fun s e => sramWrite s (q * 2 ^ 26 + e.1) [e.2]) s1
    | none => s1) s1)
/-- A constellation is declared lost (R769-R776): detector 0 heartbeat, 1 check, 2 power, 3 clock, 4 wake, 5 drill. -/
def declareLost (s : State) (phys det : Nat) : State :=
  let c := getCon s phys
  if c.role = .failed then s
  else
    let drill : Bool := det == 5
    let since := if det = 0 then c.beatAt else now s
    let s0 := bumpReg (if drill then s else modCon s phys fun c => { c with losses := c.losses + 1 }) 0x700040
    let s1 := if !drill && c.losses = 2 then repairRecord s0 3 4 0x7F phys 0 else s0
    let s2 := rasEvent s1 c.logical 1 [b2n drill, phys, det]
    match c.logical with
    | none => failCon s2 phys
    | some l =>
      let s3 := forwardCounts s2 l true
      let replay (s : State) (sp : Nat) : State := replayInsts (startReplay (failCon (copyInputs (losePages s l true) l phys sp) phys) l phys sp c.clkImage drill since) l
      if c.service = .dawn then failCon s3 phys
      else match claimSpare s3 l with
        | (some sp, s4) => bumpReg (replay s4 sp) 0x700044
        | (none, s4) => goDark (failCon s4 phys) l drill
/-- HEARTBEAT_TIMEOUT: checked for an AWAKE constellation only (R80, R769). -/
def execHeartbeatTimeout (phys : Nat) (s : State) : Host.Outcome State Fault Refusal :=
  .next (if (getCon s phys).pwr = .awake then declareLost s phys 0 else s)
/-- UNIT_INTERNAL_FAULT: 1 an internal check of an AWAKE constellation, 2 its power switch, 3 its clock monitor (R769). -/
def execUnitInternalFault (phys detector : Nat) (s : State) : Host.Outcome State Fault Refusal :=
  .next (if detector = 2 || ((detector = 1 || detector = 3) && (getCon s phys).pwr = .awake) then declareLost s phys detector else s)
/-- WAKE_TIMEOUT: a wake, or the initialisation that is part of one from DEEP, has not completed (R74, R769). -/
def execWakeTimeout (phys : Nat) (s : State) : Host.Outcome State Fault Refusal :=
  .next (if (getCon s phys).waking || (getCon s phys).init then declareLost s phys 4 else s)

/-- A re-admission starts: the constellation leaves DEEP with SRAM initialisation (R792). -/
def startReadmit (s : State) (phys : Nat) (drill : Bool) : State :=
  (modCon s phys fun c => { c with pwr := .awake, init := true }).modRas fun r => { r with readmits := r.readmits ++ [(phys, drill)] }
/-- Mirrors and pages of a logical constellation are made whole on its carrier (R267, R772): a page comes from its mirror, else from its
open area; a mirror held there comes from its primary. -/
def restorePages (s : State) (l : Nat) : State :=
  let s1 := (stagedOn s l).foldl (fun s g => match g.stage with
    | some (c, b) =>
      let n := openBlocks g.geo * 4096
      sramWrite s (stageKey s c b) (match g.mirror with | some (c', b') => sramRead s (stageKey s c' b') n | none => tierRead s (g.nearAddr * 4096) n)
    | none => s) s
  (s.serve.pages.filter fun g => g.mirror.any fun m => m.1 / 16 == l).foldl (fun s g => match g.stage, g.mirror with
    | some (c, b), some (c', b') => sramWrite s (stageKey s c' b') (sramRead s (stageKey s c b) (openBlocks g.geo * 4096))
    | _, _ => s) s1
/-- REPLAY_START: the spare is AWAKE, mirrors are copied, and replay begins (R773); the interruption is measured (R767, R768). -/
def execReplayStart (spare : Nat) (s : State) : Host.Outcome State Fault Refusal :=
  .next (match s.ras.replays.find? (·.spare == spare) with
    | none => s
    | some r =>
      if (getCon s spare).pwr != .awake then s
      else
        let s1 := (restorePages s r.l).modRas fun x => { x with replays := x.replays.filter (·.spare != spare) }
        let s2 := odRaise (raiseReg s1 0x700050 (now s - r.since)) 0x4000 8 (sat 0xFFFFFFFF (now s - r.since))
        if r.drill then startReadmit s2 r.old true else s2)

/-- A write of READMIT (R792, R793). The answer is OK when it is accepted, else STATE (DEDUCED). -/
def writeReadmit (s : State) (phys : Nat) : State × Nat :=
  let c := getCon s phys
  let res := if c.role != .failed then 1 else if 3 ≤ c.losses then 2 else if s.ras.readmits.any (fun r => physQuarter r.1 == physQuarter phys) then 5 else 0
  if res = 0 then (odSet (startReadmit s phys false) 0x4000 3 0, odOK) else (odSet s 0x4000 3 res, odSTATE)
/-- READMIT_DONE: self-test and configuration load have ended, with a result of R793; a good constellation joins at the next boundary. -/
def execReadmitDone (phys result : Nat) (s : State) : Host.Outcome State Fault Refusal :=
  .next (match s.ras.readmits.find? (·.1 == phys) with
    | none => s
    | some (_, drill) =>
      let s1 := s.modRas fun r => { r with readmits := r.readmits.filter (·.1 != phys) }
      if result = 0 then s1.modRas fun r => { r with joins := r.joins ++ [(phys, drill)] }
      else
        let s2 := odSet (sramClear (modCon s1 phys fun c => { c with pwr := .deep, init := false, waking := false }) phys) 0x4000 3 result
        let s3 := rasEvent s2 none 7 [b2n drill, phys, result]
        if drill then s3.modRas fun r => { r with drill := none } else s3)
/-- SPARE_TEST_DUE: a spare wakes and runs one slice with every kind in turn; `fails` names the kinds that find a fault. None runs while
its SRAM is being initialised (R77). The slice ends at the next boundary (DESIGN CHOICE: it takes at most 100 µs), or yields (R797-R799). -/
def execSpareTestDue (phys : Nat) (fails : List Nat) (s : State) : Host.Outcome State Fault Refusal :=
  .next (if (getCon s phys).role != .spare || (getCon s phys).testing || (getCon s phys).init || (getCon s phys).pwr == .deep then s
    else (fails.filter fun k => 1 ≤ k && k ≤ 5).foldl (fun s k => testFault s phys k) (modCon s phys fun c => { c with testing := true, pwr := .awake, waking := false }))

/-- A transfer or instruction beyond its contract worst case (R104): EPH_CONTRACT, its counters, and on a constellation DIMMING at
CONTRACT_LIMIT events in a second (R777). `cls` and `measured` are what the event carries; a transfer of no constellation (a mover, a KQ
cell, the pair link, a bridge) concerns the partition named, if any. In a step cycle tier transfers raise nothing (R667). -/
def execContractExceeded (who : Slow) (cls measured : Nat) (s : State) : Host.Outcome State Fault Refusal :=
  .next (
    match (match who with | .con p => (getCon s p).logical.map fun l => (p, l) | _ => none) with
    | none =>
      let e : Event := { cls := 1, code := 5, payload := [cls, measured] }
      match who with
      | .ptn p => raiseBoth (bumpReg s 0x100074) p e
      | _ => raisePf (bumpReg s 0x100074) e
    | some (phys, l) =>
      let c := getCon s phys
      let e : Event := { cls := 1, code := 5, uid := mkUid 2 l, payload := [cls, measured] }
      let s1 := bumpCounter (bumpReg s 0x100074) (mkUid 2 l) 7 1
      let s2 := match ownerOf s l with | some p => raiseBoth s1 p e | none => raisePf s1 e
      let s3 := match s2.work.insts.find? fun i => uidCon i.uid == l && i.started with
        | some i => match taskOf s2 i with | some t => precisePf s2 i t (insAt s2 i).opc 2 0 | none => s2
        | none => s2
      let again := now s < c.contractFrom + 1000000000 && c.contract != 0
      let n := if again then c.contract + 1 else 1
      let s4 := modCon s3 phys fun c => { c with contract := n, contractFrom := if again then c.contractFrom else now s }
      if odGet s 0x4000 5 ≤ n then startDimming s4 phys 0 else s4)

/-- PARTNER_SILENT: after a pair-link failure nothing has come from the partner for 1 s (R786). -/
def execPartnerSilent (s : State) : Host.Outcome State Fault Refusal :=
  .next (if s.fab.degraded && !s.fab.silent then pairEvent (s.modFab fun b => { b with silent := true }) true true else s)
/-- PAIR_RESYNC_DONE: the whole mirrored state has been sent again, and DEGRADED_PAIR clears (R787). -/
def execPairResyncDone (s : State) : Host.Outcome State Fault Refusal :=
  .next (if !s.fab.degraded || !portIsUp s 16 then s
    else
      let s1 := (s.modFab fun b => { b with mirReqs := [], mirPages := [] })
      let s2 := (List.range 32).foldl (fun s p => mirrorNow s p none) s1
      pairEvent (s2.modFab fun b => { b with degraded := false, silent := false }) false false)

/-- Demand is 100 % at once (R985). -/
def pumpFull (s : State) : State := if odGet s 0x6030 9 = 100 then s else emit (odSet s 0x6030 9 100) (.pin 3 100)
/-- A device-fatal fault (R788): the data plane stops, ports go DOWN with a notice, memories enter self-refresh; the management plane and
the PF's global and RAS blocks go on. -/
def fatalFault (s : State) (cause uid : Nat) : State :=
  if s.ras.fatal then s
  else
    let s1 := (List.range 17).foldl (fun s n =>
      if portIsUp s n then
        let s' := linkDown (if (linkOf s n).keys then sendLink s n [3, 7] else s) n 7
        modLink s' n fun l => { l with nextTry := none }
      else modLink s n fun l => { l with nextTry := none }) (s.modRas fun r => { r with fatal := true })
    let s2 := (s1.modEph fun e => { e with running := false, armed := false, slots := [], xfer := [] }).modWork fun w => { w with insts := [] }
    let s3 := s2.modMem fun m => { m with
      nears := m.nears.map fun k => { k with sleep := true }, chans := m.chans.map fun c => if c.state = 1 then { c with state := 2 } else c }
    let s4 := s3.modServe fun w => { w with xfers := w.xfers.map fun x => { x with running := false } }
    let s5 := setReg (setReg (setReg s4 0x700004 (BitVec.ofNat 32 (cause + uid * 256))) 0x700008 (BitVec.ofNat 32 (now s))) 0x70000C (BitVec.ofNat 32 (now s / 2 ^ 32))
    emit (raisePf (setInt (pumpFull s5) 3) { cls := 0xB, code := 0xA, uid := uid, payload := [0, cause, uid] }) (.pin 0 0)
/-- A write of drill records (R800): its result code. -/
def drillResult (s : State) (bs : List Byte) : Nat :=
  let one (r : List Byte) : Nat :=
    let x := leNat r
    let kind := bits x 48 8
    if kind < 1 || 4 < kind || bits x 61 3 != 0 then 1
    else if bits x 0 48 < s.eph.cycle + 2 then 2
    else if (kind = 1 && !(uidValid (bits x 64 24) && uidLevel (bits x 64 24) == 2)) || (kind = 2 && 15 < bits x 88 8) || (kind = 4 && 2 ^ 18 * 768 ≤ bits x 96 32) then 3
    else 0
  (((chunks 16 bs).map one).find? (· != 0)).getD 0
/-- A write of the drill schedule: whole records, 64 at most; a refused write answers RANGE (DEDUCED). -/
def writeDrills (s : State) (bs : List Byte) : State × Nat :=
  if bs.length % 16 != 0 || 1024 < bs.length then (s, odLENGTH)
  else
    let r := drillResult s bs
    let s1 := odSet s 0x4010 2 r
    if r = 0 then (s1.modRas fun x => { x with drills := bs }, odOK) else (s1, odRANGE)
/-- Whether a drill is skipped at its boundary (R801). -/
def drillSkips (s : State) (x : Nat) : Bool :=
  let kind := bits x 48 8
  let p := bits x 56 5
  let l := uidIndex (bits x 64 24)
  let tile := bits x 96 32
  s.ras.drill.isSome || !s.ras.replays.isEmpty || !s.ras.readmits.isEmpty || !s.eph.n1.isEmpty
  || ((kind == 1 || kind == 4) && ((getPtn s p).state != .active || odGet s (0x4020 + p) 1 == 0
      || (if kind = 1 then ownerOf s l != some p else nearOwner s (tile / 2 ^ 18) != some p)))
  || (kind == 1 && ((physOf s l).isNone || (chooseSpare s (homeQuarter l)).isNone))
  || (kind == 2 && (List.range 256).any fun d => let cs := choicesTo s d; !cs.isEmpty && cs.all fun c => c.2.1 == bits x 88 8)
  || (kind == 3 && s.fab.unpaired)
/-- A drill of a link: it is in progress until the link is UP again; a link that does not train and is not UP has nothing to lose. -/
def downDrill (s : State) (kind n : Nat) : State :=
  let st := (linkOf s n).state
  if st == 1 || st == 2 || st == 3 then linkDown (s.modRas fun r => { r with drill := some (kind, n) }) n 7 else s
/-- Inject or skip the drills of a cycle at its boundary (R801, R802). -/
def runDrills (s : State) : State :=
  ((chunks 16 s.ras.drills).mapIdx fun i r => (i, leNat r)).foldl (fun s (i, x) =>
    if bits x 0 48 != s.eph.cycle then s
    else if drillSkips s x then odCount (rasEvent s none 9 [1, i, 1]) 0x4010 3
    else
      let s1 := rasEvent s none 9 [1, i, 0]
      match bits x 48 8 with
      | 1 => match physOf s (uidIndex (bits x 64 24)) with
        | some ph => declareLost (s1.modRas fun r => { r with drill := some (1, ph) }) ph 5
        | none => s1
      | 2 => downDrill s1 2 (bits x 88 8)
      | 3 => downDrill s1 3 16
      | _ => tierSetPoison s1 (bits x 96 32 * 4096) (List.range 512)) s

/-- DIMMING at a boundary (R777, R778): with every staged block clean, a planned remap, or DARK for a failed test. -/
def dimCon (s : State) (phys : Nat) : State :=
  let c := getCon s phys
  match c.logical with
  | none => s
  | some l =>
    if c.service != .dimming || !(stagedOn s l).all (fun g => g.dirty.isEmpty) then s
    else match claimSpare s l with
      | (some sp, s) =>
        let s1 := (stagedOn s l).foldl (fun s g =>
          if g.mirror.isSome then s else modPage s g.ptn g.num fun g => { g with stage := none, prov := 0, seals := false, marked := false }) (dropStagingXfers s l (stagedOn s l))
        let s2 := takeSpare (failCon (copyInputs s1 l phys sp) phys) sp l c.clkImage .lit
        let s3 := bumpReg (restorePages (replayInsts s2 l) l) 0x700044
        s3.modRas fun r => { r with remaps := r.remaps ++ [{ l := l, old := phys, new := sp, planned := true, drill := false, cause := c.dimCause }] }
      | (none, s) => if c.dimCause = 0 then s else goDark (failCon s phys) l false
/-- DAWN at a boundary (R790, R791): `fails` names carriers whose shadow differs (result 3) or whose configuration CRC fails (4). A
carrier that is not yet awake, or whose mentor is lost, repeats its shadow. -/
def dawnCon (fails : List (Nat × Nat)) (s : State) (phys : Nat) : State :=
  let c := getCon s phys
  match c.logical with
  | none => s
  | some l =>
    if c.service != .dawn || c.pwr != .awake then s
    else match fails.find? (·.1 == phys) with
      | some (_, r) => rasEvent (failCon s phys) (some l) 7 [0, phys, r]
      | none =>
        if c.mentor.isSome && c.mentor != mentorOf s l then modCon s phys fun c => { c with mentor := mentorOf s l }
        else modCon s phys fun c => { c with service := .lit, mentor := none }
/-- Re-admitted constellations join their quarter as spares (R792). -/
def joinSpares (s : State) : State :=
  (s.ras.joins.foldl (fun s (ph, drill) =>
    let s1 := mapEntry (sramClear (modCon s ph fun c => { c with role := .spare, logical := none, pwr := .sleep, init := false, waking := false, restAt := some (now s / 4), service := .lit }) ph) ph
    let s2 := rasEvent s1 none 7 [b2n drill, ph, 0]
    if drill then s2.modRas fun r => { r with drill := none } else odSet s2 0x4000 3 0) s).modRas fun r => { r with joins := [] }
/-- A DARK logical number that a spare can serve goes to DAWN (R790). -/
def serveDark (s : State) (l : Nat) : State :=
  match claimSpare s l with
  | (some sp, s) => startDawn s l sp 24
  | (none, s) => s
/-- Spares at a boundary, the lowest logical number first (R51): DARK numbers and constellations in DIMMING. -/
def serveSpares (s : State) : State :=
  (List.range 150).foldl (fun s l => match physOf s l with | some p => dimCon s p | none => serveDark s l) s
/-- n−1 variants at a boundary (R131-R135, R1007): a partition returns when what it lost is LIT again; a new loss runs its segments, or
leaves its entries empty. EPH_N1 carries 0 for entered and 1 for left (log 76). -/
def n1Boundary (s : State) : State :=
  let lit (l : Nat) : Bool := serviceOf s l == .lit
  let back := s.eph.n1.filter fun x => lit x.2.2
  let s1 := back.foldl (fun s x => raiseBoth s x.1 { cls := 1, code := 8, payload := [x.1, x.2.1, 1] })
    (s.modEph fun e => { e with n1 := e.n1.filter (fun x => !lit x.2.2), empty := e.empty.filter fun x => !x.2.all lit })
  (s.eph.n1Wait.foldl (fun s (p, q, l) =>
    if lit l then s
    else match s.eph.empty.find? (·.1 == p), s.eph.n1.find? (·.1 == p) with
      | some _, _ => s.modEph fun e => { e with empty := updIf (·.1 == p) (fun x => (x.1, x.2 ++ [l])) e.empty }
      | none, some (_, q', l') => raiseBoth (s.modEph fun e => { e with n1 := e.n1.filter (·.1 != p), empty := e.empty ++ [(p, [l', l])] }) p { cls := 1, code := 8, payload := [p, q', 1] }
      | none, none =>
        if hasSegment s p q then raiseBoth (s.modEph fun e => { e with n1 := e.n1 ++ [(p, q, l)] }) p { cls := 1, code := 8, payload := [p, q, 0] }
        else
          -- the image now in force has no segment for the loss: the partition is fenced under R776
          let s' := s.modEph fun e => { e with empty := e.empty ++ [(p, [l])] }
          if [PState.provisioning, .active, .draining].contains (getPtn s' p).state then fencePtn s' p 3 else s') s1).modEph fun e => { e with n1Wait := [] }
/-- Slices of spares end, and the spares go back to SLEEP (R797). -/
def endTests (s : State) : State :=
  s.modCons fun cs => cs.map fun c => if c.testing then { c with testing := false, pwr := .sleep, waking := false, restAt := some (now s / 4) } else c
/-- What the fault block does at a cycle boundary. -/
def rasBoundary (fails : List (Nat × Nat)) (s : State) : State :=
  -- variants take up the losses decided before this boundary (R131), and constellations that become LIT at it (R133, R790)
  let s1 := n1Boundary ((List.range 160).foldl (dawnCon fails) (endTests s))
  runDrills (serveSpares (joinSpares s1))

end Sys2Proof.Machine
end

