-- ==== Sys2Proof/Machine/Views.lean ====
section
/-! DEFINITION. The registers that only show other state (RO), as a read returns them: identification and status (R850-R855), quarters
(R56-R59), ephemeris (R136-R147), Meridian time (R675-R677), memories (R456-R460), ports (R563, R564, R645, R647), PCIe links and
compositions (R724-R727), telemetry (R936), faults (R807), windows (R755-R764). -/

namespace Sys2Proof.Machine
open Sys2Proof

/-- Pack fields, the lowest first, into a register. -/
def packWord (l : List (Nat × Nat)) : Word := BitVec.ofNat 32 (packBits l)
def word (n : Nat) : Word := BitVec.ofNat 32 n
def loWord (n : Nat) : Word := BitVec.ofNat 32 n
def hiWord (n : Nat) : Word := BitVec.ofNat 32 (n / 2 ^ 32)
def word? (b : Bool) (w : Word) : Option Word := if b then some w else none

def glbStatus (s : State) : Word :=
  packWord [(1, b2n s.boot.mgmt), (1, b2n s.boot.ready), (1, b2n s.ras.fatal), (1, b2n s.eph.running), (3, merCode s.mer.state), (1, b2n (s.boot.nfState == 1)), (2, s.ctl.pfRole.role)]
/-- CMT_PENDING: the domains that hold pending values (R825). -/
def pendingMask (s : State) : Nat :=
  sumN ((List.range 6).map fun d => if s.regs.shadow.any (fun e => match regInfo e.1 with | some i => (i.dom.map Domain.bit) == some d | none => false) then 2 ^ d else 0)
def glbView (s : State) (o : Nat) : Option Word :=
  match o with
  | 0x0 => some 0x4CB00915
  | 0x8 => some (loWord (serial s))
  | 0xC => some (hiWord (serial s))
  | 0x10 => some (word (s.boot.straps % 128))
  | 0x14 => some Config.romVersion
  | 0x18 => some (word s.boot.fw)
  | 0x1C => some (packWord [(1, s.boot.image), (1, b2n s.boot.counter)])
  | 0x100 => some (glbStatus s)
  | 0x20C => some (packWord [(2, s.regs.cmtResult), (3, s.regs.cmtDomain), (5, s.regs.cmtCause)])
  | 0x210 => some (word (s.regs.cmtFault % 2 ^ 28))
  | 0x214 => some (word (pendingMask s))
  | 0x300 => some s.regs.crcLive
  | 0x30C => some (packWord [(1, b2n s.regs.crcValid), (1, b2n s.regs.crcMatch)])
  | 0x40C => some (word (s.regs.badAccess % 2 ^ 28))
  | _ =>
    -- indices that the block keeps of the PF rings (R757, R844)
    if 0x1000 ≤ o && o < 0x1120 then
      let r := (o - 0x1000) / 0x20
      let inbound := r < 3 || r == 5 || r == 7
      word? ((o % 0x20 == 0x10 && inbound) || (o % 0x20 == 0xC && !inbound)) (word (ringIx s (pfRing r)))
    else none

/-- The image in force (R84, R136). -/
def imageNow (s : State) : Option Image := if s.eph.running then image s else none
def ephView (s : State) (o : Nat) : Option Word :=
  let im := imageNow s
  let of (f : Image → Nat) : Nat := (im.map f).getD 0
  match o with
  | 0x0 => some (packWord [(1, b2n s.eph.running), (1, s.eph.active), (1, b2n s.eph.armed), (1, of fun i => b2n i.leadLax), (8, of (·.contract))])
  | 0x8 => some (if s.eph.running then loWord s.eph.cycle else 0)
  | 0xC => some (if s.eph.running then word (s.eph.cycle / 2 ^ 32 % 65536) else 0)
  | 0x10 => some (if s.eph.running then word (tickNow s) else 0)
  | 0x14 => some (word (of (·.cycleTicks)))
  | 0x18 => some (loWord (of (·.imageId)))
  | 0x1C => some (hiWord (of (·.imageId)))
  | 0x30 => some (packWord [(2, s.eph.loadState), (2, 0), (4, s.eph.loadResult)])
  | 0x34 => some (word s.eph.loadFault)
  | 0x4C => some (word s.eph.switchResult)
  | 0x80 => some (word (sumN ((List.range 32).map fun p => if s.eph.n1.any (·.1 == p) then 2 ^ p else 0)))
  -- the live fingerprint; 0 at reset, until the management plane runs (R147)
  | 0x90 => some (if s.boot.mgmt then loWord (fingerprint s) else 0)
  | 0x94 => some (if s.boot.mgmt then hiWord (fingerprint s) else 0)
  | _ => none

/-- MER_BOUND in ns, saturating (R661, R677). -/
def merView (s : State) (o : Nat) : Option Word :=
  match o with
  | 0x0 => some (packWord [(3, merCode s.mer.state), (3, s.mer.source), (5, s.mer.port), (1, b2n s.mer.slewing), (1, b2n (hostServo s)), (1, b2n s.eph.stepEnd.isSome)])
  | 0x8 => some (loWord s.mer.ns)
  | 0xC => some (hiWord s.mer.ns)
  | 0x10 => some (word (s.mer.fracLatch % 65536))
  | 0x14 => some (if s.mer.state == .freerun then allOnes else word (sat 0xFFFFFFFF (merBound s)))
  | 0x18 => some (word (ofInt 32 (satInt 32 (s.mer.offset / 1000))))
  | 0x1C => some (word (ofInt 32 (satInt 32 s.mer.freq)))
  | _ => none

def nsView (k : Stack) : Word := packWord [(2, if k.lost then 2 else if k.sleep then 1 else 0), (6, 0), (8, k.temp)]
def fcView (c : Chan) : Word :=
  packWord [(3, c.state), (1, b2n c.dimm0), (1, b2n c.dimm1), (1, b2n c.mismatch), (1, b2n c.trimmed), (1, 0), (10, c.installed), (8, c.temp)]
def memView (s : State) (o : Nat) : Option Word :=
  let lost := (s.mem.nears.filter (·.lost)).length
  if o = 0 then some (packWord ((s.mem.nears.map fun k => (1, b2n !k.lost)) ++ s.mem.chans.map fun c => (1, b2n c.far.isSome)))
  else if o = 4 then some (word (756 - 64 * lost - s.mem.dead.length))
  else if o = 8 then some (packWord [(12, farGranules s), (5, s.mem.farC), (10, s.mem.farK)])
  else if 0x20 ≤ o && o < 0x50 && o % 4 == 0 then (s.mem.nears[(o - 0x20) / 4]?).map nsView
  else if 0x60 ≤ o && o < 0xA0 && o % 4 == 0 then (s.mem.chans[(o - 0x60) / 4]?).map fcView
  else none

/-- Seconds until the next training attempt of a port (R536, R563). -/
def backoffLeft (s : State) (l : Link) : Nat := match l.nextTry with | some t => cdiv (t - now s) 1000000000 | none => 0
def portView (s : State) (n o : Nat) : Option Word :=
  let l := linkOf s n
  match o with
  | 4 => some (packWord [(3, l.state), (2, l.delin), (4, l.lanes), (4, l.cause), (7, backoffLeft s l), (4, 0), (8, l.partner)])
  | 0x10 => some (loWord l.serial)
  | 0x14 => some (hiWord l.serial)
  | 0x204 => some (packWord [(8, openNow s n), (1, b2n (isGated s n)), (1, b2n (!s.eph.running || creditBased s n)), (1, b2n s.eph.stepEnd.isSome)])
  | _ => word? (n < 16 && 0x240 ≤ o && o < 0x260 && o % 4 == 0) (word (wmax s n ((o - 0x240) / 4)))

/-- PX_LSTAT, CMP_STATE and the counters of R703. -/
def pxStat (s : State) (l : Nat) : Word :=
  let k := pxLink s l
  packWord [(2, k.role), (1, b2n k.up), (3, k.rate), (5, k.width), (5, (k.bound.map (·.1)).getD 0), (1, b2n k.bound.isSome),
    (7, (s.px.ide.filter fun i => i.link == l && i.secure).length)]
def cmpState (s : State) (p : Nat) : Word :=
  let mine (l : Nat) : Bool := (heldBy s l).any (·.1 == p)
  let rel (l : Nat) : Bool := (pxLink s l).releasing.isSome
  packWord ((List.range 12).map (fun l => (1, b2n (mine l && !rel l))) ++ (List.range 12).map (fun l => (1, b2n (mine l && rel l)))
    ++ [(1, b2n (cmpEn (compOf s p).cfg)), (2, (compOf s p).tdi)])
def pxView (s : State) (o : Nat) : Option Word :=
  if 0x4000 ≤ o && o < 0x4030 && o % 4 == 0 then some (pxStat s ((o - 0x4000) / 4))
  else if 0x8000 ≤ o && o < 0x8400 then
    let c := compOf s ((o - 0x8000) / 0x20)
    match o % 0x20 with
    | 4 => some (cmpState s ((o - 0x8000) / 0x20))
    | 8 => some (loWord c.boundUs)
    | 0xC => some (hiWord c.boundUs)
    | 0x10 => some (loWord c.linkUs)
    | 0x14 => some (hiWord c.linkUs)
    | _ => none
  else none

def telView (s : State) (o : Nat) : Option Word :=
  if o = 0x10C then some (word (ringIx s pfTelRing))
  else word? (0x4000 ≤ o && o < 0x4440 && o % 4 == 0) (word (cnt s.tel.bw ((o - 0x4000) / 4)))
def rasView (s : State) (o : Nat) : Option Word :=
  word? (o = 0) (packWord [(8, sumN ((List.range 4).map fun q => (sparesIn s q).length)), (1, b2n s.fab.degraded), (1, b2n s.fab.unpaired), (1, b2n !s.eph.n1.isEmpty),
    (1, b2n s.ras.fatal), (1, b2n s.ras.drill.isSome), (1, b2n s.fab.silent)])

def conState (s : State) (phys : Nat) : Word :=
  let c := getCon s phys
  packWord [(8, c.logical.getD 0xFF), (2, match c.role with | .enabled => 0 | .spare => 1 | .failed => 2), (2, match c.pwr with | .awake => 0 | .doze => 1 | .sleep => 2 | .deep => 3),
    (1, b2n (c.logical.any fun l => homeQuarter l != physQuarter phys)), (3, 0), (7, c.clkStep)]
def qtrView (s : State) (q o : Nat) : Option Word :=
  if o = 0 then some (packWord [(2, q), (6, 0), (8, homeFirst q), (8, homeCount q), (6, (sparesIn s q).length)])
  else if o = 0x44 then some (packWord [(10, (getQtr s q).targetMv), (6, 0), (1, b2n (getQtr s q).settling)])
  else word? (0x100 ≤ o && o < 0x1A0 && o % 4 == 0) (conState s (q * 40 + (o - 0x100) / 4))

def winView (s : State) (p o : Nat) : Option Word :=
  let t := getPtn s p
  match o with
  | 0 => some (packWord [(5, p), (3, t.state.code), (1, b2n (vfBound s p))])
  | 0x704 => some (packWord [(2, t.cmtResult), (14, t.cmtOffset), (1, b2n t.cmtBusy)])
  | 0x710 => some t.crcLive
  | 0x80C => some (word (ringIx s (winTelRing p)))
  | _ =>
    if 0x100 ≤ o && o < 0x1C0 then
      let r := (o - 0x100) / 0x20
      word? ((o % 0x20 == 0x10 && r < 3) || (o % 0x20 == 0xC && 3 ≤ r)) (word (ringIx s (winRing p r)))
    else none

/-- A register that only shows other state, by its PF BAR0 offset. -/
def viewReg (s : State) (off : Nat) : Option Word :=
  if off < 0x100000 then glbView s off
  else if off < 0x200000 then ephView s (off - 0x100000)
  else if off < 0x300000 then merView s (off - 0x200000)
  else if off < 0x400000 then memView s (off - 0x300000)
  else if off < 0x500000 then portView s ((off - 0x400000) / 0x10000) (off % 0x10000)
  else if off < 0x504000 then portView s 16 (off - 0x500000)
  else if off < 0x600000 then pxView s (off - 0x500000)
  else if off < 0x700000 then telView s (off - 0x600000)
  else if off < 0x800000 then rasView s (off - 0x700000)
  else if off < 0x1000000 then qtrView s ((off - 0x800000) / 0x200000) (off % 0x200000)
  else if off < 0x1200000 then winView s ((off - 0x1000000) / 0x10000) (off % 0x10000)
  else none

/-- RO bits that stand beside RW bits in a register: UNAVAIL and SCRUB of a granule (R462), FATAL of GLB_ALERT_EN (R855). -/
def roBits (s : State) (off : Nat) : Word :=
  if 0x301000 ≤ off && off < 0x301C00 then
    let g := (off - 0x301000) / 4
    packWord [(8, 0), (1, b2n (nearUnavail s g)), (1, b2n (s.mem.clearing.contains g))]
  else if 0x302000 ≤ off && off < 0x304000 then
    let f := (off - 0x302000) / 4
    packWord [(8, 0), (1, b2n (farUnavail s f)), (1, b2n (s.mem.clearing.contains (768 + f)))]
  else 0
/-- What a full read of a BAR0 offset returns, its side effects aside (R15, R814, R825). WO and self-clearing bits read 0. -/
def readReg (s : State) (off : Nat) : Word :=
  match viewReg s off, regInfo off with
  | some w, _ => w
  | none, some i => (getReg s off &&& ~~~i.wo) ||| roBits s off
  | none, none => 0
/-- A reserved offset (R814). -/
def reserved_ (s : State) (off : Nat) : Bool := (viewReg s off).isNone && (regInfo off).isNone
/-- The level of ALERT_N: asserted for status bits enabled, and in the cases of R788 and R1004 (R843). -/
def alertAsserted (s : State) : Bool :=
  (getReg s 0x400 &&& getReg s 0x408) != 0 || s.ras.fatal || s.ras.tripped || !s.boot.coolant.isEmpty || s.boot.lostRefs.contains 0

end Sys2Proof.Machine
end

