-- ==== Sys2Proof/Machine/Regs.lean ====
section
/-! DEFINITION. Writes of BAR0 (R7, R8, R13-R15, R811-R823), the commit strobes of the device and of the windows (R824-R832, R763), the
configuration CRCs (R833-R836, R764), rings and vectors (R757, R758, R842). -/

namespace Sys2Proof.Machine
open Sys2Proof

/-- The PF BAR0 offset that an access of a view names: an unbound VF has none (R686, R811, R812). -/
def viewOff (s : State) (v : View) (off : Nat) : Option Nat :=
  match v with
  | .pf => if off % 4 = 0 then some off else none
  | .vf p => if vfBound s p && off < 0x10000 && off % 4 == 0 then some (winBase p + off) else none

/-- Pending value of a commit-protected register, else the value in force (R823, R825). -/
def shadowOr (s : State) (off : Nat) : Word := ((s.regs.shadow.find? (·.1 == off)).map (·.2)).getD (getReg s off)
/-- MAX_FRAME is stored clamped to 64-9,216 (R647). -/
def clampReg (off : Nat) (v : Word) : Word :=
  if 0x400000 ≤ off && off < 0x504000 && 0x220 ≤ off % 0x10000 && off % 0x10000 < 0x240 then
    let n := fld v 0 14
    BitVec.ofNat 32 (if n < 64 then 64 else if 9216 < n then 9216 else n)
  else v
def shadowPut (s : State) (off : Nat) (v : Word) : State := s.modRegs fun r => { r with shadow := sput r.shadow off (clampReg off v) }

/-- Commit domain of a pending register. -/
def domOf (off : Nat) : Option Domain := (regInfo off).bind (·.dom)
/-- Pending registers of the domains in a mask, ascending. -/
def pendingOf (s : State) (mask : Nat) : List (Nat × Word) :=
  s.regs.shadow.filter fun e => match domOf e.1 with
    | some .window => false
    | some d => bit mask d.bit
    | none => false
/-- Pending registers of a window, ascending. -/
def pendingWin (s : State) (p : Nat) : List (Nat × Word) := s.regs.shadow.filter fun e => decide (winBase p ≤ e.1) && decide (e.1 < winBase p + 0x10000)
/-- The registers as they would be with pending values in force. -/
def withPending (s : State) (l : List (Nat × Word)) : State := l.foldl (fun s e => setReg s e.1 e.2) s

/-- The offset of a RING_CFG register, and its LOG2 range (R758, R934, R937). -/
def ringCfg (off : Nat) : Option (Nat × Nat) :=
  if off = pfTelRing + 8 then some (10, 20)
  else if off < 0x2000 then (if 0x1000 ≤ off && (off - 0x1000) % 0x20 == 8 then some (6, 20) else none)
  else if off < 0x1000000 then none
  else
    let o := off % 0x10000
    if o = 0x808 then some (6, 16) else if 0x100 ≤ o && o < 0x1C0 && o % 0x20 == 8 then some (6, 20) else none
/-- Granules of the quarter set and of the device set of a Near granule (R422-R424). -/
def setOf (g n : Nat) : List Nat := (List.range n).map (g - g % n + ·)
/-- A set that holds an interleaved granule and is not wholly of that mode and of one owner (R424). -/
def setBroken (s : State) (g mode n : Nat) : Bool :=
  let l := setOf g n
  l.any (fun m => granMode s m == mode) && !(l.all fun m => granMode s m == mode && nearOwner s m == nearOwner s g)
def ownerBusy (s : State) (o : Option Nat) : Bool := match o with | some p => (getPtn s p).state == .active || (getPtn s p).state == .draining | none => false
/-- Granules of a partition in a tier. -/
def granCount (s : State) (p : Nat) (far : Bool) : Nat :=
  ((List.range (if far then 2048 else 768)).filter fun g => (if far then farOwner s g else nearOwner s g) == some p).length
/-- The check of a granule register: `t` holds the pending values (R424, R463, R753). -/
def granuleCause (s t : State) (off : Nat) : Nat :=
  let far := 0x302000 ≤ off
  let g := if far then (off - 0x302000) / 4 else (off - 0x301000) / 4
  let old := getReg s off
  let new := getReg t off
  let given : Bool := (granOwner new).isSome && granOwner new != granOwner old
  if new &&& 0xFF != old &&& 0xFF && ownerBusy s (granOwner old) then 3
  else if given && (if far then farUnavail s g else nearUnavail s g) then 9
  else if !far && fld new 6 2 == 3 then 2
  else if !far && (setBroken t g 1 3 || setBroken t g 2 12) then 4
  else match granOwner new with
    | some p => if given && odGet s (0x3000 + 16 * p) (if far then 10 else 9) < granCount t p far then 5 else 0
    | none => 0
/-- The check of a port register (R532, R533, R562, R566). -/
def portCause (s : State) (off : Nat) (new : Word) : Nat :=
  if off % 0x10000 != 0 then 0
  else
    let n := if off < 0x500000 then (off - 0x400000) / 0x10000 else 16
    let busy (k : Nat) : Bool := let st := (linkOf s k).state; st == 1 || st == 2 || st == 3
    let old := getReg s off
    if fld new 0 2 == 3 || (n == 16 && 2 ≤ fld new 0 2) || fld new 3 2 == 3 then 2
    -- MODE and MERGE select the mode; a merged port has one state, that of its even port
    else if (fld new 0 2 != fld old 0 2 || new.getLsbD 2 != old.getLsbD 2) && (busy n || (oddHalf s n && busy (n - 1)))
      || (new.getLsbD 2 != old.getLsbD 2 && busy (n + 1)) then 6 else 0
/-- The check of a composition record (R697, R699). -/
def compCause (s t : State) (off : Nat) : Nat :=
  let p := (off - 0x508000) / 0x20
  let old := (getReg s off).toNat
  let new := (getReg t off).toNat
  let others := (List.range 32).filter (· != p)
  let rec_ (q : Nat) : Nat := (getReg t (0x508000 + 0x20 * q)).toNat
  let tdi := (compOf s p).tdi
  let st := (getPtn s p).state
  let held : Bool := (List.range 12).any fun l => (heldBy s l).any (·.1 == p)
  if new != old && (tdi == 1 || tdi == 2) then 8
  else if 12 ≤ cmpUlink new then 2
  else if cmpEn new && ((pxLink s (cmpUlink new)).role != 1 || !(st == .provisioning || st == .active)) then 6
  else if held && bits new 1 9 != bits old 1 9 then 6
  else if (cmpLinks new).any fun l => (pxLink s l).role != 2 || (heldBy s l).any (fun h => h.1 != p && (pxLink s l).releasing.isSome) then 6
  else if 7 < (cmpLinks new).length then 5
  else if (cmpLinks new).any fun l => others.any fun q => (cmpLinks (rec_ q)).contains l then 7
  else if cmpEn new && others.any fun q => cmpEn (rec_ q) && bits (rec_ q) 1 9 == bits new 1 9 then 7
  else 0
/-- The check of a telemetry register (R931, R932, R935). -/
def telCause (off : Nat) (new : Word) : Nat :=
  if off = 0x600004 then (if new.toNat < 10 || 1000000 < new.toNat then 2 else 0)
  else if off = 0x600008 then (if fld new 0 2 == 3 then 2 else 0)
  else if 0x601000 ≤ off then (if 0x10 < fld new 0 8 then 2 else 0)
  else 0
/-- Identity may not change while a port trains or is up (R832). -/
def globalCause (s : State) (off : Nat) (new : Word) : Nat :=
  if off < 0x100 && new != getReg s off && s.fab.links.any (fun l => l.state == 1 || l.state == 2 || l.state == 3) then 6 else 0
/-- The check of a window register (R918, R937). -/
def winCause (s : State) (off : Nat) (new : Word) : Nat :=
  if off % 0x10000 != 0x820 then 0
  else if fld new 0 2 == 3 || (fld new 0 2 != 0 && fld new 8 24 < odGet s (0x7200 + (off - 0x1000000) / 0x10000) 1) then 2 else 0
/-- CAUSE of R831 that a pending register gives; 0 when it may be applied. -/
def regCause (s t : State) (off : Nat) : Nat :=
  let new := getReg t off
  match ringCfg off with
  | some (lo, hi) => if fld new 0 5 < lo || hi < fld new 0 5 then 2 else 0
  | none => match domOf off with
    | some .global => globalCause s off new
    | some .memory => if off < 0x301000 then 0 else granuleCause s t off
    | some .fabric => portCause s off new
    | some .composition => compCause s t off
    | some .telemetry => telCause off new
    | some .window => winCause s off new
    | _ => 0
/-- The first offending register of a commit with its cause (R827). -/
def firstCause (s : State) (l : List (Nat × Word)) : Option (Nat × Nat) :=
  let t := withPending s l
  (l.find? fun e => regCause s t e.1 != 0).map fun e => (e.1, regCause s t e.1)

/-- A ring's configuration has changed: its first pass begins when it is enabled; waiting records go when it is disabled (R171, R757). -/
def ringApplied (s : State) (ring : Nat) (old : Word) : State :=
  let new := getReg s (ring + 8)
  if new.getLsbD 5 && !old.getLsbD 5 then s.modRegs fun r => { r with ringCount := cntSet r.ringCount ring 0 }
  else if !new.getLsbD 5 then sweepReqs (s.modRegs fun r => { r with waiting := r.waiting.filter (·.1 != ring) })
  else ringDrain s ring
/-- FINAL records that wait for the PF telemetry ring are written when it is enabled (R955). -/
def writeFinals (s : State) : State :=
  if !ringEn s pfTelRing then s
  else (s.boot.finals.foldl (fun s f => telItem s 32 2 1 0 0 (now s) f.2 2 [leNat (sget (fun _ => []) s.tel.last f.1)]) s).modBoot fun b => { b with finals := [] }
/-- What follows from a register's new value, once all are in force. -/
def regApplied (s : State) (off : Nat) (old : Word) : State :=
  match ringCfg off with
  | some _ => let s1 := ringApplied s (off - 8) old
              if off = pfTelRing + 8 then writeFinals s1 else s1
  | none =>
    if off = 0x20 then almQueue s (0xE800 + 0x102) [BitVec.ofNat 8 (getReg s off).toNat]
    else if off = 0x24 then almQueue s (0xE800 + 0x108) (leBytes 4 (getReg s off).toNat)
    else if off = 0x28 then almQueue s (0xE800 + 0x10C) (leBytes 4 (getReg s off).toNat)
    else if 0x301000 ≤ off && off < 0x304000 then
      (if granOwner (getReg s off) != granOwner old then
        let g := if off < 0x302000 then (off - 0x301000) / 4 else 768 + (off - 0x302000) / 4
        -- the partition that held it, and whether the change waits for a switch because it or the new owner runs under the image (R114)
        let had := match s.mem.later.find? (·.1 == g) with | some e => e.2 | none => granOwner old
        let runs (o : Option Nat) : Bool := match o with
          | some p => [PState.active, .draining].contains (getPtn s p).state || ((getPtn s p).state == .fenced && (getPtn s p).before != .provisioning)
          | none => false
        let waits : Bool := had != granOwner (getReg s off) && (runs had || runs (granOwner (getReg s off)))
        -- what the partition still holds is kept till the switch
        (if had.isSome && (waits || had == granOwner (getReg s off)) then s else clearGranule s g).modMem fun m =>
          { m with later := m.later.filter (·.1 != g) ++ if waits then [(g, had)] else [] }
      else s)
    else if off = 0x600008 then s.modTel fun t => { t with lfsr := cntSet t.lfsr 32 33, count := cntSet t.count 32 0 }
    else if 0x1000000 ≤ off && off % 0x10000 = 0x820 then
      let p := (off - 0x1000000) / 0x10000
      s.modTel fun t => { t with lfsr := cntSet t.lfsr p (p + 1), count := cntSet t.count p 0 }
    else s
/-- Put pending values in force in one cycle, with what follows from them (R828). -/
def applyPending (s : State) (l : List (Nat × Word)) : State :=
  let s1 := withPending (s.modRegs fun r => { r with shadow := r.shadow.filter fun e => !(l.any (·.1 == e.1)) }) l
  let s2 := l.foldl (fun t e => regApplied t e.1 (getReg s e.1)) s1
  let ctl : Bool := l.any fun e => domOf e.1 == some .fabric && e.1 % 0x10000 == 0
  if ctl then (List.range 17).foldl applyKqCtl s2 else s2

/-- Block bases, bits [31:16], of granule, port and composition registers among pending ones (R745, R746). -/
def blocksOf (l : List (Nat × Word)) : List Nat :=
  ((l.filter fun e => (0x301000 ≤ e.1 && e.1 < 0x304000) || domOf e.1 == some .fabric || domOf e.1 == some .composition).map fun e => e.1 / 2 ^ 16).eraseDups
/-- Journal a commit of granule, port and composition registers, one entry a block (R745; one a block: DESIGN CHOICE). -/
def journalCommit (s : State) (l : List (Nat × Word)) (refused : Bool) : State :=
  (blocksOf l).foldl (fun t b =>
    let mine := l.filter fun e => e.1 / 2 ^ 16 = b
    let old := auditValue (mine.map fun e => leBytes 4 (getReg s e.1).toNat).flatten
    let new := auditValue (mine.map fun e => leBytes 4 e.2.toNat).flatten
    journal t { auditOf s { master := .pf } 4 b 0 with refused := refused, old := old, new := new }) s
/-- A global commit at its commit point (R827, R828, R834). -/
def commitPoint (s : State) (mask : Nat) : State :=
  let l := pendingOf s mask
  let s0 := s.modRegs fun r => { r with pending := none }
  match firstCause s l with
  | some (off, cause) =>
    setInt (journalCommit (s0.modRegs fun r => { r with
      cmtResult := 3, cmtCause := cause, cmtDomain := ((domOf off).map Domain.bit).getD 0, cmtFault := off }) l true) 1
  | none =>
    let s1 := applyPending (journalCommit s0 l false) l
    let s2 := if l.any (fun e => domOf e.1 == some .composition) then s1.modPx fun x => { x with waiting := true } else s1
    let s3 := match s.regs.crcRefPending with
      | some v => (setReg s2 0x304 v).modRegs fun r => { r with crcRefPending := none, crcQuiet := r.crcQuiet && v == getReg s 0x304 }
      | none => s2
    setInt (s3.modRegs fun r => { r with cmtResult := 2, cmtCause := 0, cmtDomain := 0, cmtFault := 0, crcValid := false }) 0
/-- CMT_STROBE.STROBE (R826, R829): a commit that names COMPOSITION waits for the next boundary (R698). -/
def strobe (s : State) : State :=
  if s.regs.pending.isSome then s.modRegs fun r => { r with cmtCause := 1 }
  else
    let mask := regFld s 0x200 0 6
    if bit mask 4 || (getReg s 0x204).getLsbD 0 then
      s.modRegs fun r => { r with pending := some mask, cmtResult := 1, cmtCause := 0, cmtDomain := 0, cmtFault := 0 }
    else commitPoint s mask
/-- CMT_STROBE.DISCARD; no effect on a commit already PENDING (R829). -/
def discard (s : State) : State :=
  let mask := regFld s 0x200 0 6
  let kept := match s.regs.pending with | some m => m | none => 0
  let l := (pendingOf s mask).filter fun e => match domOf e.1 with | some d => !bit kept d.bit | none => true
  s.modRegs fun r => { r with shadow := r.shadow.filter fun e => !(l.any (·.1 == e.1)) }
def execCmtStrobe (s : State) : Host.Outcome State Fault Refusal := .next (strobe s)
def execCmtDiscard (s : State) : Host.Outcome State Fault Refusal := .next (discard s)

/-- A window commit at its commit point (R763). -/
def commitWindow (s : State) (p : Nat) : State :=
  let l := pendingWin s p
  let s0 := modPtn s p fun x => { x with cmtPending := false }
  match firstCause s l with
  | some (off, _) => modPtn s0 p fun x => { x with cmtResult := 3, cmtOffset := (off - winBase p) / 4 }
  | none =>
    let s1 := applyPending s0 l
    let s2 := match (getPtn s p).crcRefPending with
      | some v => modPtn (setReg s1 (winBase p + 0x714) v) p fun x => { x with crcRefPending := none, crcQuiet := x.crcQuiet && v == getReg s (winBase p + 0x714) }
      | none => s1
    modPtn s2 p fun x => { x with cmtResult := 2, cmtOffset := 0, crcValid := false }
/-- PTN_CMT.STROBE with WHEN (R763). -/
def strobeWindow (s : State) (p : Nat) (next : Bool) : State :=
  if (getPtn s p).cmtPending then modPtn s p fun x => { x with cmtBusy := true }
  else
    modPtn (if next then modPtn s p fun x => { x with cmtPending := true, cmtResult := 1, cmtOffset := 0 } else commitWindow s p) p fun x => { x with cmtBusy := false }
def execPtnCmtStrobe (v : View) (ptn : Nat) (nextCycle : Bool) (s : State) : Host.Outcome State Fault Refusal :=
  .next (match v with
    | .pf => if ptn < 32 then strobeWindow s ptn nextCycle else s
    | .vf p => if p = ptn && vfBound s p then strobeWindow s p nextCycle else s)

/-- CRC-32C over offsets and values of registers in force, RO bits as 0 (R833). -/
def crcOver (s : State) (base : Nat) (l : List Nat) : Word :=
  BitVec.ofNat 32 (Nat.xor (l.foldl (fun c o => (leBytes 4 (o - base) ++ leBytes 4 (getReg s o &&& crcMask o).toNat).foldl crcByte c) 0xFFFFFFFF) 0xFFFFFFFF)
/-- CFG_FAULT (R836, R838). -/
def cfgFault (scope : Nat) (live ref : Word) : Event := { cls := 0xC, code := 1, payload := [scope, live.toNat, ref.toNat] }
/-- CFG_CRC_PASS_END: a full pass ends that no commit interrupted (R833-R836). -/
def execCfgCrcPassEnd (s : State) : Host.Outcome State Fault Refusal :=
  .next (
    let live := crcOver s 0 protectedGlobal
    let s1 := s.modRegs fun r => { r with crcLive := live, crcValid := true }
    let ref := getReg s 0x304
    if !(getReg s 0x308).getLsbD 0 then s1
    else
      let s2 := s1.modRegs fun r => { r with crcMatch := live == ref }
      if live == ref then s2.modRegs fun r => { r with crcQuiet := false }
      else if s.regs.crcQuiet then s2
      else
        let s3 := raisePf (setInt (s2.modRegs fun r => { r with crcQuiet := true }) 2) (cfgFault 0 live ref)
        if (getReg s 0x308).getLsbD 1 then (List.range 32).foldl (fun s p => fencePtn s p 2) s3 else s3)
/-- PTN_CRC_PASS_END: the same over a window, offsets in the window (R764). -/
def execPtnCrcPassEnd (ptn : Nat) (s : State) : Host.Outcome State Fault Refusal :=
  .next (
    if 32 ≤ ptn then s
    else
      let live := crcOver s (winBase ptn) (protectedWindow ptn)
      let s1 := modPtn s ptn fun x => { x with crcLive := live, crcValid := true }
      let ref := getReg s (winBase ptn + 0x714)
      let ctl := getReg s (winBase ptn + 0x718)
      if !ctl.getLsbD 0 then s1
      else
        let s2 := modPtn s1 ptn fun x => { x with crcMatch := live == ref }
        if live == ref then modPtn s2 ptn fun x => { x with crcQuiet := false }
        else if (getPtn s ptn).crcQuiet then s2
        else
          let s3 := raiseBoth (setInt (modPtn s2 ptn fun x => { x with crcQuiet := true }) 2) ptn (cfgFault 1 live ref)
          if ctl.getLsbD 1 then fencePtn s3 ptn 2 else s3)

/-- A mailbox's bytes while its GO bit reads 1: writes are ignored (R760). -/
def mailboxBusy (s : State) (off : Nat) : Bool :=
  let at_ (o : Nat) (c : Nat) : Bool :=
    (0x400 ≤ o && o < 0x420 && (getReg s c).getLsbD 0) || (0x440 ≤ o && o < 0x4C0 && (getReg s c).getLsbD 1) || (0x4C0 ≤ o && o < 0x500 && (getReg s c).getLsbD 2)
  if 0x2000 ≤ off && off < 0x2100 then at_ (off - 0x1C00) 0x2400
  else if (0x2100 ≤ off && off < 0x2110) || (0x3000 ≤ off && off < 0x4000) then (getReg s 0x2400).getLsbD 3
  else if 0x1000000 ≤ off && off < 0x1200000 then at_ (off % 0x10000) (off - off % 0x10000 + 0x500)
  else false
/-- A doorbell of a window: PROD of an inbound ring, or a GO bit; those of an isolated partition are discarded (R734). -/
def deafDoorbell (s : State) (off : Nat) : Bool :=
  0x1000000 ≤ off && isolated s ((off - 0x1000000) / 0x10000) &&
    (off % 0x10000 == 0x500 || (0x100 ≤ off % 0x10000 && off % 0x10000 < 0x160 && off % 0x20 == 0xC))
/-- The state after a command that always goes on. -/
def after (o : Host.Outcome State Fault Refusal) (s : State) : State := nextOr s o
/-- What writing 1s to an action register does; the other bits of a register are not touched (R141, R144, R564, R678, R763, R826, R933). -/
def action (s : State) (off : Nat) (v : Word) : State :=
  let b (i : Nat) : Bool := v.getLsbD i
  if off = 0x208 then
    let s1 := if b 0 then strobe s else s
    if b 1 then discard s1 else s1
  else if off = 0x10002C then
    (if b 0 then after (execEphLoadStart (b 1) s) s else if b 1 then after (execEphLoadAbort s) s else s)
  else if off = 0x100048 then
    let s1 := if b 1 then after (execEphSwitchDisarm s) s else s
    if b 0 then after (execEphSwitchArm s1) s1 else s1
  else if off = 0x200020 then after (execMerHostOfsWrite v s) s
  else if off = 0x600014 then (if b 0 then after (execAcctLatch s) s else s)
  else if 0x400000 ≤ off && off < 0x500000 then (if b 0 then retrain s ((off - 0x400000) / 0x10000) else s)
  else if off = 0x500008 then (if b 0 then retrain s 16 else s)
  else if 0x1000000 ≤ off && off % 0x10000 = 0x700 then (if b 0 then strobeWindow s ((off - 0x1000000) / 0x10000) (b 1) else s)
  else s
/-- A plain write of a register's storage by the access types of its bits (R13, R14). -/
def storeBits (s : State) (off : Nat) (i : RegInfo) (v : Word) : State :=
  let m := i.rw ||| i.rws
  setReg s off ((((getReg s off &&& ~~~m) ||| (v &&& m)) &&& ~~~(v &&& i.w1c &&& ~~~heldSet s off)) ||| (v &&& i.w1s))
/-- The HI half of a pair with its latched LO, or with the current LO (R816, R817). -/
def writeHi (s : State) (off : Nat) (i : RegInfo) (v : Word) : State :=
  let lo := off - 4
  let l := ((s.regs.latch.find? (·.1 == lo)).map (·.2)).getD (if i.dom.isSome then shadowOr s lo else getReg s lo)
  let s1 := s.modRegs fun r => { r with latch := sdel r.latch lo }
  if off = 0x20002C then (after (execMerSetWrite v (latchSet s1 lo l)) s1).modRegs fun r => { r with latch := sdel r.latch lo }
  else if i.dom.isSome then shadowPut (shadowPut s1 lo l) off v
  else storeBits (setReg s1 lo (l &&& (match regInfo lo with | some k => k.rw ||| k.rws | none => 0))) off i v
/-- A full write of a PF BAR0 offset; `vf` when it came through a VF. -/
def writeReg (s : State) (vf : Bool) (off : Nat) (v : Word) : State :=
  match regInfo off with
  | none => s
  | some i =>
    if mailboxBusy s off || deafDoorbell s off || (vf && off % 0x10000 == 0x718) then s
    else if i.half == .lo then latchSet s off v
    else if i.half == .hi then writeHi s off i v
    else if off = 0x304 then s.modRegs fun r => { r with crcRefPending := some v }
    else if 0x1000000 ≤ off && off % 0x10000 = 0x714 then modPtn s ((off - 0x1000000) / 0x10000) fun x => { x with crcRefPending := some v }
    else if off = 0x200024 then after (execMerHostFreqWrite v s) s
    else if i.wo != 0 then action s off (v &&& i.wo)
    else if i.dom.isSome then shadowPut s off ((getReg s off &&& ~~~i.rw) ||| (v &&& i.rw))
    else
      let s1 := storeBits s off i v
      -- CONS of an outbound ring frees entries (R758)
      if (off < 0x2000 && 0x1000 ≤ off && off % 0x20 == 0x10) || off == pfTelRing + 0x10 then ringDrain s1 (off - 0x10)
      else if 0x1000000 ≤ off && ((0x100 ≤ off % 0x10000 && off % 0x10000 < 0x1C0 && off % 0x20 == 0x10) || off % 0x10000 == 0x810) then ringDrain s1 (off - 0x10)
      else s1
def viewWrite (s : State) (v : View) (off : Nat) (x : Word) : State :=
  match viewOff s v off with
  | some o => writeReg s (v != .pf) o x
  | none => s
/-- REG_WRITE. -/
def execRegWrite (v : View) (off : Nat) (value : Word) (s : State) : Host.Outcome State Fault Refusal := .next (viewWrite s v off value)
/-- PAIR_LO_WRITE: only a LO half has a latch (R816). -/
def execPairLoWrite (v : View) (off : Nat) (value : Word) (s : State) : Host.Outcome State Fault Refusal :=
  .next (match viewOff s v off with
    | some o => if (regInfo o).any (·.half == .lo) then viewWrite s v off value else s
    | none => s)
/-- PAIR_HI_WRITE (R816, R817). -/
def execPairHiWrite (v : View) (off : Nat) (value : Word) (s : State) : Host.Outcome State Fault Refusal :=
  .next (match viewOff s v off with
    | some o => if (regInfo o).any (·.half == .hi) then viewWrite s v off value else s
    | none => s)
/-- The rings of a view by number: those of R757 and R844, then the telemetry ring (R934, R937). -/
def viewRing (v : View) (r : Nat) : Option Nat :=
  match v with
  | .pf => if r < 9 then some (pfRing r) else if r = 9 then some pfTelRing else none
  | .vf _ => if r < 6 then some (0x100 + 0x20 * r) else if r = 6 then some 0x800 else none
/-- RING_PROD_WRITE: new entries of an inbound ring (R757). -/
def execRingProdWrite (v : View) (ring : Nat) (value : Word) (s : State) : Host.Outcome State Fault Refusal :=
  .next (match viewRing v ring with
    | some o => viewWrite s v (o + 0xC) value
    | none => s)
/-- RING_CONS_WRITE: entries of an outbound ring are free again (R758). -/
def execRingConsWrite (v : View) (ring : Nat) (value : Word) (s : State) : Host.Outcome State Fault Refusal :=
  .next (match viewRing v ring with
    | some o => viewWrite s v (o + 0x10) value
    | none => s)

/-- The register and bit that an alias word names (R819, R820). -/
def aliasOf (s : State) (v : View) (off : Nat) : Option (Nat × Nat) :=
  match v with
  | .pf =>
    let o := (off - 0x4000000) / 128 * 4
    if 0x4000000 ≤ off && off < 0x5000000 && off % 4 == 0 && o < 0x1000 then some (o, off / 4 % 32) else none
  | .vf p =>
    let o := (off - 0x20000) / 128 * 4
    if vfBound s p && 0x20000 ≤ off && off < 0x40000 && off % 4 == 0 then some (winBase p + o, off / 4 % 32) else none
/-- What a read of an alias word returns: the bit's present value in bit 0, zeros elsewhere (R818, R821); 0 where the word names no
register or a reserved one (R819). -/
def readAlias (s : State) (v : View) (off : Nat) : Word :=
  match aliasOf s v off with
  | some (o, b) => if (readReg s o).getLsbD b then 1 else 0
  | none => 0
/-- A write of one bit (R822, R823). -/
def writeBit (s : State) (vf : Bool) (off b : Nat) (one : Bool) : State :=
  match regInfo off with
  | none => s
  | some i =>
    let m := 1#32 <<< b
    let put (w : Word) : Word := if one then w ||| m else w &&& ~~~m
    if (i.w1c &&& m) != 0 then (if one then s else setReg s off (getReg s off &&& ~~~(m &&& ~~~heldSet s off)))
    else if ((i.w1s ||| i.wo) &&& m) != 0 then (if one then writeReg s vf off m else s)
    else if ((i.rw ||| i.rws) &&& m) = 0 then s
    else if off = 0x304 then s.modRegs fun r => { r with crcRefPending := some (put (r.crcRefPending.getD (getReg s off))) }
    else if 0x1000000 ≤ off && off % 0x10000 = 0x714 then
      modPtn s ((off - 0x1000000) / 0x10000) fun x => { x with crcRefPending := some (put (x.crcRefPending.getD (getReg s off))) }
    else if i.dom.isSome then shadowPut s off (put (shadowOr s off))
    else writeReg s vf off (put (getReg s off))
/-- ALIAS_WRITE: bit 0 of the data is the bit's target (R822). -/
def execAliasWrite (v : View) (off : Nat) (value : Word) (s : State) : Host.Outcome State Fault Refusal :=
  .next (match aliasOf s v off with
    | some (o, b) => writeBit s (v != .pf) o b (value.getLsbD 0)
    | none => s)
/-- BAD_ACCESS_WRITE: a write without all byte enables is discarded and reported to the PF, but not at a reserved offset, nor through
an unbound VF (R686, R813). -/
def execBadAccessWrite (v : View) (off : Nat) (s : State) : Host.Outcome State Fault Refusal :=
  .next (
    let a := off - off % 4
    let target := match aliasOf s v a with
      | some (o, _) => if reserved_ s o then none else some (if v == .pf then a else o)
      | none => (viewOff s v a).bind fun o => if reserved_ s o then none else some o
    match target with
    | some o => setInt (s.modRegs fun r => { r with badAccess := o % 2 ^ 28 }) 5
    | none => s)
/-- A read of an RC register: what it returns and what it leaves. Counts of the same tick come after the read (R13, R15). -/
def readRc (s : State) (off : Nat) (i : RegInfo) : State :=
  let v := readReg s off
  match if s.regs.tickAt = s.mer.osc then s.regs.rcNow.find? (·.1 == off) else none with
  | some e => (setReg s off (BitVec.ofNat 32 (sat 0xFFFFFFFF e.2.2))).modRegs fun r => { r with
      readData := e.2.1, rcNow := r.rcNow.filter (·.1 != off) }
  | none => (setReg s off (getReg s off &&& ~~~i.rc)).modRegs fun r => { r with readData := v }
/-- RC_REGISTER_READ (R13, R15); other registers are only read. -/
def execRcRegisterRead (v : View) (off : Nat) (s : State) : Host.Outcome State Fault Refusal :=
  .next (match viewOff s v off with
    | none => s
    | some o => match regInfo o with
      | none => s
      | some i => if i.rc = 0 then s else readRc s o i)
/-- MSIX_UNMASK: one message when the pending bit is set (R842). Function 0 is the PF with vectors 0-9, p + 1 the VF of p with 0-6. -/
def execMsixUnmask (fn vector : Nat) (s : State) : Host.Outcome State Fault Refusal :=
  .next (
    if s.regs.msixOpen.contains (fn, vector) || 32 < fn || (if fn = 0 then 9 < vector else 6 < vector) then s
    else
      let s1 := s.modRegs fun r => { r with msixOpen := r.msixOpen ++ [(fn, vector)], msixPending := r.msixPending.filter (· != (fn, vector)) }
      if s.regs.msixPending.contains (fn, vector) then emit s1 (.msix fn vector) else s1)

end Sys2Proof.Machine
end

