-- ==== Sys2Proof/Machine/Start.lean ====
section
/-! DEFINITION. Start-up, resets, repairs at start, firmware images and Nightfall (R16, R939-R967). -/

namespace Sys2Proof.Machine
open Sys2Proof

/-- An event of start-up and Nightfall (R967). Phases count MGMT_READY 0, RAILS 1, RESET_RELEASED 2, TRAINED 3, DATA_READY 4; causes
of START_FAIL count RAIL 0, RAIL_MAP 1, IMAGE 2, WATCHDOG 3, LOCKSTEP 4 (DESIGN CHOICE: the table gives names). -/
def startEvent (s : State) (code : Nat) (payload : List Nat) : State := raisePf s { cls := 0xF, code := code, payload := payload }
/-- Path of the present start (R966): 0 fast, 1 full, 2 warm, 3 recovery. -/
def startPath (s : State) : Nat := if s.boot.recovery then 3 else if s.boot.warm then 2 else b2n s.boot.full
/-- START_PHASE: phase, path, and cause 1 STRAP when STRAP_BOOT holds 0b11. -/
def startPhase (s : State) (phase : Nat) : State := startEvent s 0x20 [phase, startPath s, b2n (phase == 0 && bits s.boot.straps 2 2 == 3)]

/-- Almanac offset of the firmware record (R893, R950), its bytes and its fields. -/
def fwAt : Nat := 0xE800 + 0x140
def fwGet (s : State) (o n : Nat) : Nat := almNum s (fwAt + o) n
/-- Change a field of the firmware record, with its CRC. -/
def fwPut (s : State) (o n v : Nat) : State :=
  let s1 := almQueue s (fwAt + o) (leBytes n v)
  almQueue s1 (fwAt + 0x3C) (leBytes 4 (crc32c ((List.range 60).map fun i => almNow s1 (fwAt + i))))
def fwValid (s : State) : Bool := crc32c ((List.range 60).map fun i => almNow s (fwAt + i)) == fwGet s 0x3C 4
def fwFlag (s : State) (i : Nat) (b : Bool) : State :=
  let f := fwGet s 3 1
  fwPut s 3 1 (if b then (if bit f i then f else f + 2 ^ i) else if bit f i then f - 2 ^ i else f)

/-- A rail's regulator by the rail map in force (R942). -/
def railPresent (s : State) (rail : Nat) : Bool := bit (odGet s 0x6010 (rail + 1)) 7
/-- STRAP_SEQ = 0: the device sequences the rails. -/
def sequenced (s : State) : Bool := !bit s.boot.straps 6
/-- The rails in the order of R940, by the order of R924. -/
def railOrder : List (List Nat) := [[4], [0, 1, 2, 3], [5], [6], [7], [8]]
/-- Rails that come up go down in the reverse order (R940). -/
def powerDown (s : State) : State :=
  (railOrder.flatten.reverse.filter s.boot.rails.contains).foldl (fun s r => startEvent (emit s (.rail r false)) 0x25 [r, 0, 0]) (s.modBoot fun b => { b with rails := [] })
/-- A start stops (R943). -/
def stopStart (s : State) (cause what : Nat) : State :=
  let s1 := s.modBoot fun b => { b with failed := true, stopped := true }
  let s2 := if sequenced s then powerDown s1 else s1
  odSet (startEvent s2 0x21 [cause, what]) 0x4040 7 4
/-- Rails whose turn it is: the first group not wholly up. -/
def railGroup (s : State) : List Nat := ((railOrder.find? fun g => !(g.all s.boot.rails.contains)).getD []).filter fun r => !s.boot.rails.contains r
/-- Roles of the PCIe links at a cold start (R681, R683). -/
def linkRoles (s : State) : State :=
  if s.boot.warm then s else s.modPx fun x => { x with links := x.links.mapIdx fun l k => { k with role := bits (odGet s 0x9020 (l / 2 + 1)) (l % 2 * 2) 2 } }
/-- Every rail is up: I/O dies and quarters leave reset, and ports begin training (R535, R559, cold start events 4-7). -/
def passRails (s : State) : State :=
  let s1 := startPhase (startPhase ((linkRoles s).modBoot fun b => { b with passed := true, stopped := false }) 1) 2
  (List.range 17).foldl (fun s n =>
    let st := (linkOf s n).state
    if st == 4 then startTraining s n else if st == 0 then applyKqCtl s n else s) s1
/-- The rail sequence starts, or the rails are checked (R940, R941). -/
def startRails (s : State) : State :=
  if !([0, 1, 2, 3, 4, 5, 6, 7, 8].all (railPresent s)) then stopStart s 1 ((([0, 1, 2, 3, 4, 5, 6, 7, 8]).find? fun r => !railPresent s r).getD 0)
  else if sequenced s then (railGroup s).foldl (fun s r => emit s (.rail r true)) s
  else s
/-- RAIL_IN_RANGE (R940, R941): the next rail is switched on when its turn comes. -/
def execRailInRange (rail mv : Nat) (s : State) : Host.Outcome State Fault Refusal :=
  .next (
    let b := s.boot
    if !b.mgmt || b.failed || b.passed || b.recovery || b.rstN || 9 ≤ rail || b.rails.contains rail || (sequenced s && !(railGroup s).contains rail) then s
    else
      let s1 := startEvent (s.modBoot fun b => { b with rails := b.rails ++ [rail] }) 0x25 [rail, mv, 1]
      if (railOrder.flatten.all s1.boot.rails.contains) then passRails s1
      else if sequenced s && (railGroup s).length == 1 then (railGroup s1).foldl (fun s r => emit s (.rail r true)) s1
      else s1)
/-- A start is running: it has neither ended nor stopped. -/
def starting (s : State) : Bool := s.boot.mgmt && !s.boot.failed && !s.boot.ready && !s.boot.recovery && !s.boot.rstN && s.boot.nfState == 0
/-- RAIL_WINDOW_EXPIRY: 20 ms, or 10 ms for board rails (R940, R941, R943). -/
def execRailWindowExpiry (rail : Nat) (s : State) : Host.Outcome State Fault Refusal :=
  .next (if starting s && !s.boot.passed && rail < 9 && !s.boot.rails.contains rail then stopStart s 0 rail else s)

/-- Nightfall ends in a state (R961). -/
def endNightfall (s : State) (st : Nat) : State :=
  let s1 := odSet (s.modBoot fun b => { b with nfState := st, nfHold := false }) 0x4040 4 st
  startEvent s1 0x23 [1, st, s.boot.nfStep, odGet s 0x4040 6, 0]
def abortNightfall (s : State) : State := if s.boot.nfState = 1 then endNightfall s 4 else s
/-- RAIL_FAULT: during a start it stops it (R943); it aborts Nightfall (R961). -/
def execRailFault (rail : Nat) (s : State) : Host.Outcome State Fault Refusal :=
  .next (if s.boot.nfState = 1 then abortNightfall s else if starting s then stopStart s 0 rail else s)

/-- Header counts of the active Almanac bank, as a start loads them (R890). -/
def loadHeader (s : State) : State :=
  let n (o k : Nat) : Nat := leNat (almBytes s (0xE800 + o) k)
  (s.modAlm fun a => { a with faultHead := n 0x10 4 % 1024, faultTotal := n 0x14 4, auditHead := n 0x18 4 % 256, repairs := Nat.min 992 (n 0x20 4), fprintHead := n 0x24 4 % 32 }).modCtl fun c =>
    { c with auditSeq := n 0x1C 4 }
/-- A key of 97 bytes in the configuration region; zeros when none is held. -/
def keyAt (s : State) (o : Nat) : Option (List Byte) :=
  let k := almBytes s (0xE800 + o) 97
  if k.all (· == 0) then none else some k
/-- The present map of a physical constellation (R54, R891). -/
def mapCon (s : State) (phys : Nat) : Con :=
  let w := leNat (almBytes s (0x800 + 2 * phys) 2)
  match bits w 8 2 with
  | 0 => if bits w 0 8 < 150 then { role := .enabled, logical := some (bits w 0 8) } else { role := .failed }
  | 1 => { role := .spare }
  | _ => { role := .failed }
/-- What a cold start loads from the Almanac (R851, R870, R895, R942). -/
def loadAlmanac (s : State) : State :=
  let s1 := loadHeader s
  let c (o n : Nat) : Nat := leNat (almBytes s1 (0xE800 + o) n)
  let s2 := setReg (setReg (setReg s1 0x20 (word (c 0x102 1))) 0x24 (word (c 0x108 4))) 0x28 (word (c 0x10C 4))
  let s3 := (List.range 10).foldl (fun s i => odSet s 0x6010 (i + 1) (c (0x680 + 2 * i) 2)) s2
  let s4 := s3.modCtl fun k => { k with key := keyAt s1 0x180, imageKey := keyAt s1 0x200 }
  let a := c 0x100 1
  let s5 := s4.modCons fun _ => (List.range 160).map (mapCon s1)
  if bit s.boot.straps 4 && 1 ≤ a && a ≤ 126 then s5.modMgt fun m => { m with bus := .assigned, addr := a, manager := Nat.min 127 (c 0x101 1), listening := false } else s5
/-- The image that the boot ROM runs (R951): image, PENDING tried, TRIES left after it, START_FAIL with cause IMAGE; none for recovery. -/
def chooseImage (s : State) (ok : Nat → Bool) : Option Nat × Bool × Bool :=
  let pending := fwGet s 1 1
  let tries := fwGet s 2 1
  let active := fwGet s 0 1 % 2
  let try_ : Bool := pending != 0xFF && 0 < tries
  if bits s.boot.straps 2 2 = 2 then (none, false, false)
  else if try_ && ok (pending % 2) then (some (pending % 2), true, false)
  else if ok active then (some active, try_, false)
  else if ok (1 - active) then (some (1 - active), try_, true)
  else (none, try_, false)
/-- VERSION and SVN of a firmware image (R948). -/
def bundleVersion (b : Bundle) : Nat := leAt b.header 4 4
def bundleSvn (b : Bundle) : Nat := leAt b.header 8 4
/-- Whether an image verifies (R949), as UPDATE_RESULT says it: 0 it does, 2 the signature or what it covers fails, 3 the installer's
countersignature fails while INSTALLER_KEY is held (R66), 4 its SVN is below SVN_MIN. -/
def bundleResult (s : State) (b : Bundle) : Nat :=
  let part (i : Nat) : Nat × Nat := (leAt b.header (0x10 + 8 * i) 4, leAt b.header (0x14 + 8 * i) 4)
  if b.header.length != 0x1C0 || leAt b.header 0 4 != 0x31574654 || 2 ^ 21 < (part 0).2 || (List.range 3).any (fun i => 2 ^ 25 < (part i).1 + (part i).2) || !b.good then 2
  else if (match s.ctl.key with | some k => !sigOk k (sha384 (b.header.take 0x100)) (bytesAt b.header 0x160 96) | none => false) then 3
  else if bundleSvn b < fwGet s 4 4 then 4
  else 0
/-- The always-on domain starts from the boot ROM, to management-ready (cold start events 1-4; R945, R951, R953). -/
def startAon (s : State) (imgs : Nat → Bundle) : State :=
  let (img, tried, other) := chooseImage s fun i => bundleResult s (imgs i) == 0
  let s1 := if tried then fwPut s 2 1 (fwGet s 2 1 - 1) else s
  match img with
  | none =>
    let s2 := (fwFlag s1 1 true).modBoot fun b => { b with mgmt := true, recovery := true }
    odSet s2 0x4040 7 3
  | some i =>
    let full : Bool := bits s.boot.straps 2 2 == 1 || !fwValid s || !bit (fwGet s 3 1) 0 || !(s.alm.valid0 || s.alm.valid1)
    let trial : Bool := tried && fwGet s 1 1 % 2 == i
    let s2 := (fwFlag s1 1 false).modBoot fun b => { b with
      mgmt := true, image := i, fw := bundleVersion (imgs i), counter := s.ctl.key.isSome, full := full
      trial := if trial then some (bundleSvn (imgs i)) else none }
    let s3 := startEvent s2 0x22 [i, b2n tried, fwGet s2 2 1]
    let s4 := if other then startEvent s3 0x21 [2, i] else s3
    startRails (startPhase (odSet s4 0x4040 7 (b2n full)) 0)
/-- The state that a cold reset leaves before the boot ROM runs: the Almanac and what has left the block stay (R16, R955). -/
def coldState (s : State) (straps : Nat) : State :=
  let alm := { s.alm with last := s.alm.last, waiting := [], locked := false, group := [], valid0 := s.alm.valid0 && !(s.alm.locked && s.alm.active == 1), valid1 := s.alm.valid1 && !(s.alm.locked && s.alm.active == 0) }
  let pos := if bits straps 0 2 < 2 then bits straps 0 2 else 2
  let b : State := {
    pending := s.pending, out := s.out, freeCount := s.freeCount, alm := alm, fab := { pairPos := pos },
    -- the PCIe configuration acts from the next cold start on, so it outlasts the reset (R681)
    ctl := { od := s.ctl.od.filter fun e => e.1 / 256 == 0x9020 },
    boot := { straps := straps % 128 - bits straps 0 2 + pos } }
  let b1 := loadAlmanac b
  -- the pair link is OFF when the strap gives unpaired (R558, R566)
  if pos = 2 then setReg b1 (portBase 16) 0 else b1
/-- COLD_RESET: the rising edge of PWR_GOOD_IN (R939, R944-R951), with the images in the flash. -/
def execColdReset (straps : Nat) (imgA imgB : Bundle) (s : State) : Host.Outcome State Fault Refusal :=
  .next (startAon (coldState s straps) fun i => if i = 0 then imgA else imgB)
/-- PWR_GOOD_LOSS: every output is high-impedance (R993); what is volatile is lost, a group write in progress fails (R896). -/
def execPwrGoodLoss (s : State) : Host.Outcome State Fault Refusal :=
  .next ({ coldState s s.boot.straps with boot := { straps := s.boot.straps } })
/-- The always-on domain restarts from its boot ROM; the data plane is held in reset, and a new start begins (R947). -/
def restartAon (s : State) (cause : Nat) (imgs : Nat → Bundle) : State :=
  let s1 := if sequenced s then powerDown s else s
  let s2 := startEvent s1 0x21 [cause, s.boot.image]
  let c := coldState s2 s.boot.straps
  startAon { c with alm := { c.alm with waiting := s2.alm.waiting } } imgs
/-- The restart of the always-on domain after an update in recovery (R953). -/
def bootAgain (s : State) (imgs : Nat → Bundle) : State :=
  let c := coldState s s.boot.straps
  startAon { c with alm := { c.alm with waiting := s.alm.waiting } } imgs
/-- START_WATCHDOG (R947). -/
def execStartWatchdog (imgA imgB : Bundle) (s : State) : Host.Outcome State Fault Refusal :=
  .next (if starting s then restartAon s 3 fun i => if i = 0 then imgA else imgB else s)
/-- LOCKSTEP_MISMATCH: during a start as the watchdog (R947); else the management cores restart while the data plane goes on, and no
state that the spec names changes (R64). -/
def execLockstepMismatch (imgA imgB : Bundle) (s : State) : Host.Outcome State Fault Refusal :=
  .next (if starting s then restartAon s 4 fun i => if i = 0 then imgA else imgB else s)

/-- Registers that a warm reset keeps (R16, R855, R851, R955): RWS fields, FATAL of GLB_INT_STATUS, the identity that the Almanac holds,
and KQ_CTL, as which the ports train again. -/
def warmRegs (s : State) : List (Nat × Word) :=
  s.regs.store.filterMap fun e =>
    match regInfo e.1 with
    | some i =>
      if e.1 = 0x20 || e.1 = 0x24 || e.1 = 0x28 || i.rws != 0 then some e
      else if e.1 = 0x400 then (if (e.2 &&& 8) = 0 then none else some (e.1, e.2 &&& 8))
      else if 0x400000 ≤ e.1 && e.1 < 0x504000 && e.1 % 0x10000 = 0 && i.dom == some .fabric then some e
      else none
    | none => none
/-- The data plane stops as R788 describes, without a fatal event (R956, R998). -/
def stopPlane (s : State) : State :=
  let s1 := (List.range 17).foldl (fun s n =>
    let s' := if portIsUp s n then linkDown (if (linkOf s n).keys then sendLink s n [3, 7] else s) n 7 else s
    modLink s' n fun l => { l with nextTry := none, state := if l.state == 1 || l.state == 2 then 4 else l.state }) (abortNightfall s)
  let s2 := (s1.modEph fun e => { e with running := false, armed := false, slots := [], xfer := [] }).modWork fun w => { w with insts := [] }
  let s3 := s2.modMem fun m => { m with
    nears := m.nears.map fun k => { k with sleep := true }, chans := m.chans.map fun c => if c.state = 1 then { c with state := 2 } else c }
  (s3.modServe fun w => { w with xfers := w.xfers.map fun x => { x with running := false } }).modBoot fun b => { b with stopped := true, ready := false }
/-- A warm reset of everything outside the always-on domain (R955): requests, tasks and moves end without records, partitions read
SCRUBBING, ports stay DOWN, memories are unreadable. -/
def warmState (s : State) : State :=
  let s1 := stopPlane s
  let ps := (List.range 32).filter fun p => (getPtn s p).state != .vacant
  -- FINAL records stand at 0x7100 + p until the PF ring is enabled
  let s2 := ps.foldl (fun s p =>
    let (seq, a) := nextSnap s
    (keepRecord a p (ptnRecord a (telNow a) p seq)).modBoot fun b => { b with finals := b.finals.filter (·.1 != p) ++ [(p, seq)] }) (s1.modBoot fun b => { b with finals := b.finals.filter fun f => !ps.contains f.1 })
  -- the PF returns to the operator role (R741, R743)
  let s3 := ps.foldl (fun s p => if (getPtn s p).state == .scrubbing then discardPtn s p else goPtn (discardPtn s p) p .scrubbing 6) (dropRole s2 .pf)
  let regs : Regs := { store := warmRegs s3, badAccess := s3.regs.badAccess, readData := s3.regs.readData }
  let l0 : Link := {}
  let links := s3.fab.links.map fun l => { l0 with state := l.state }
  { s3 with
    regs := regs, eph := {}, work := { nextTask := s3.work.nextTask, nextInst := s3.work.nextInst }, tabs := {},
    mem := { nears := s3.mem.nears, chans := s3.mem.chans, farC := s3.mem.farC, farK := s3.mem.farK, repair := s3.mem.repair },
    serve := { nextMove := s3.serve.nextMove, nextXfer := s3.serve.nextXfer, remain := s3.serve.remain },
    -- the route and window tables are dictionary values
    fab := { links := links, unpaired := s3.fab.unpaired, pairPos := s3.fab.pairPos, routes := s3.fab.routes, windows := s3.fab.windows },
    px := { links := s3.px.links.map fun l => { role := l.role }, comps := s3.px.comps.map fun c => { c with cfg := 0, tdi := 0 } }
    ptns := s3.ptns.map fun t => { state := t.state, before := t.before, cons := t.cons, peers := t.peers, cmdResult := t.cmdResult },
    qtrs := List.replicate 4 {},
    cons := s3.cons.map fun c => { role := c.role, logical := c.logical, losses := c.losses },
    ctl := { s3.ctl with odPend := [], odStore := s3.ctl.odStore.filter (·.1.master == .bus) },
    tel := {
      acct := s3.tel.acct, remain := s3.tel.remain, measured := s3.tel.measured, unalloc := s3.tel.unalloc, given := s3.tel.given, atSnap := s3.tel.atSnap, unmeas := s3.tel.unmeas,
      fits := s3.tel.fits, coeffs := s3.tel.coeffs, snap := s3.tel.snap, last := s3.tel.last, goodIvs := s3.tel.goodIvs, allIvs := s3.tel.allIvs, fittedAt := s3.tel.fittedAt, snapAt := s3.tel.snapAt,
      window := s3.tel.window, railPj := s3.tel.railPj, badRead := s3.tel.badRead },
    ras := { tripped := s3.ras.tripped, drills := s3.ras.drills, remaps := s3.ras.remaps },
    boot := { s3.boot with warm := true, full := false, passed := false, failed := false, since := s.mer.osc, nfState := 0, nfStep := 0, nfHold := false, releases := ps } } |>
    fun s => odSet s 0x4040 4 0
/-- WARM_RESET_ASSERT: RST_N (R956). -/
def execWarmResetAssert (s : State) : Host.Outcome State Fault Refusal :=
  .next (if !s.boot.mgmt || s.boot.rstN then s else (warmState s).modBoot fun b => { b with rstN := true })
/-- The start resumes at event 4 (R956): the rails stay up and are checked; rails that were powered down come up again. -/
def resumeStart (s : State) : State :=
  let s2 := odSet (s.modBoot fun b => { b with rstN := false, since := s.mer.osc }) 0x4040 7 2
  if s.boot.recovery then s2
  else if sequenced s && railOrder.flatten.all s.boot.rails.contains then passRails s2
  else startRails (if sequenced s then s2 else s2.modBoot fun b => { b with rails := [] })
/-- A warm reset by NODE_CTL: assertion and release in one (R955). -/
def warmStart (s : State) : State := resumeStart (warmState s)
/-- WARM_RESET_RELEASE: RST_N is deasserted. -/
def execWarmResetRelease (s : State) : Host.Outcome State Fault Refusal := .next (if s.boot.rstN && !s.boot.lostRefs.contains 0 then resumeStart s else if s.boot.rstN then s.modBoot fun b => { b with rstN := false } else s)

/-- A repair record as held in the map (R891). -/
def recordAt (s : State) (i : Nat) : Nat := almNum s (0xA00 + 16 * i) 16
/-- Add what a test found, unless a record holds it already; a full map marks the constellation or the granule instead (R959, R960). -/
def addFound (s : State) (f : Found) : State :=
  let same (x : Nat) : Bool := bits x 0 8 == f.kind && bits x 16 7 == f.bit && bits x 24 24 == f.loc && bits x 48 48 == f.addr
  if (List.range s.alm.repairs).any fun i => same (recordAt s i) then s
  else if s.alm.repairs < 992 then odSet (repairRecord s f.kind 1 f.bit f.loc f.addr) 0x4040 6 (odGet s 0x4040 6 + 1)
  else
    let s1 := if f.kind = 2 then s.modMem fun m => { m with dead := m.dead ++ [f.addr / 2 ^ 18 * 12 + f.loc % 16] }
      else failCon s (if f.kind = 3 then f.loc % 256 else if uidLevel f.loc = 1 then uidIndex f.loc / 16 else uidIndex f.loc)
    startEvent s1 0x24 [0, 1, b2n (f.kind != 2), 1]
/-- Progress of repairs at start: lines used as (location, bank, line), tiles as (stack, tile), constellations that fail, records covered. -/
structure Cover where
  lines : List (Nat × Nat × Nat) := []
  tiles : List (Nat × Nat) := []
  fails : List Nat := []
  done  : Nat := 0
  left  : Nat := 0
  deriving DecidableEq, Repr
/-- Bank of an SRAM line and its spare lines (R406, R963): staging lines follow the scratch lines of a cluster. -/
def bankOf (loc line : Nat) : Nat × Nat := if uidLevel loc = 1 then (if line < 65536 then (line % 32, 4) else (64 + (line - 65536) / 1024, 2)) else (line % 64, 4)
/-- Cover one record (R963, R964). -/
def coverOne (a : State × Cover) (i : Nat) : State × Cover :=
  let (s, c) := a
  let x := recordAt s i
  let loc := bits x 24 24
  let addr := bits x 48 48
  let applied (s : State) : State := almQueue s (0xA00 + 16 * i + 2) [BitVec.ofNat 8 (bits x 16 7 + 128)]
  match bits x 0 8 with
  | 1 =>
    let line := addr / 8
    let (bank, spare) := bankOf loc line
    let phys := if uidLevel loc = 1 then uidIndex loc / 16 else uidIndex loc
    if c.lines.contains (loc, bank, line) then (applied s, { c with done := c.done + 1 })
    else if (c.lines.filter fun l => l.1 == loc && l.2.1 == bank).length < spare then (applied s, { c with lines := c.lines ++ [(loc, bank, line)], done := c.done + 1 })
    else (repairRecord s 3 1 0x7F phys 0, { c with fails := c.fails ++ [phys], left := c.left + 1 })
  | 2 =>
    let k := loc % 16
    if c.tiles.contains (k, addr) then (applied s, { c with done := c.done + 1 })
    else if (c.tiles.filter (·.1 == k)).length < 1024 then (applied s, { c with tiles := c.tiles ++ [(k, addr)], done := c.done + 1 })
    else (s.modMem fun m => { m with dead := if m.dead.contains (addr / 2 ^ 18 * 12 + k) then m.dead else m.dead ++ [addr / 2 ^ 18 * 12 + k] }, { c with left := c.left + 1 })
  | 3 => (applied s, { c with fails := c.fails ++ [loc % 256], done := c.done + 1 })
  | _ => (s, c)
/-- A record of KIND 0x03 that the test before this start added (R959, R965). -/
def retiredByTest (s : State) (found : List Found) (phys : Nat) : Bool :=
  found.any (fun f => f.kind == 3 && f.loc % 256 == phys) || (List.range s.alm.repairs).any fun i => let x := recordAt s i; bits x 0 8 == 3 && bits x 8 8 == 1 && bits x 24 24 % 256 == phys
/-- Constellations failed in service that a full test has cleared return as spares (R965). -/
def returnSpare (s : State) (c : Cover) (found : List Found) (phys : Nat) : State :=
  let covered : Bool := !(c.fails.contains phys && retiredByTest s found phys)
  if (getCon s phys).role = .failed && covered && !retiredByTest s found phys && almByte s (0x20 + phys) != 1 then
    mapEntry (modCon s phys fun x => { x with role := .spare, logical := none, losses := 0 }) phys
  else s
/-- A start remaps a logical number whose carrier has failed (R48-R50, R964); with no spare it stays dark. -/
def remapAtStart (s : State) (l : Nat) : State :=
  if (physOf s l).isSome then s
  else match chooseSpare s (homeQuarter l) with
    | some sp => (mapEntry (modCon s sp fun c => { c with role := .enabled, logical := some l }) sp).modRas fun r => { r with
        remaps := r.remaps ++ [{ l := l, old := 0xFF, new := sp, planned := false, drill := false }] }
    | none => s
/-- Repairs, the map, remaps and SRAM initialisation (cold start event 8; R47, R54, R75, R77, R963-R965). -/
def repairStart (s : State) (found : List Found) (tested : Bool) : State :=
  let s1 := found.foldl addFound s
  let (s2, c) := (List.range s1.alm.repairs).foldl coverOne (s1, {})
  let s3 := c.fails.eraseDups.foldl (fun s p => if tested && !retiredByTest s found p && almByte s (0x20 + p) != 1 then s else if (getCon s p).role = .failed then s else failCon s p) s2
  let s4 := if tested then (List.range 160).foldl (fun s p => returnSpare s c found p) s3 else s3
  let s5 := (List.range 150).foldl remapAtStart s4
  let s6 := (List.range 160).foldl (fun s p => if (getCon s p).role = .failed then s else restIdle (sramClear (modCon s p fun x => { x with pwr := .sleep, init := false, waking := false }) p) p) s5
  odSet (startEvent s6 0x24 [c.done, c.left, c.fails.eraseDups.length, 0]) 0x4040 9 c.left
/-- Channels as SPD and training leave them (R442, R443). -/
def chanOf (d : Dimm) : Chan :=
  let two : Bool := d.gib1 != 0 && d.same
  { state := if d.gib0 = 0 then 0 else if !d.trained then 3 else 1, dimm0 := d.gib0 != 0, dimm1 := d.gib1 != 0, mismatch := d.gib0 != 0 && d.gib1 != 0 && !d.same,
    installed := d.gib0 + (if two then d.gib1 else 0) }
def trainFar (s : State) (ds : List Dimm) : State :=
  let cs := (List.range 16).map fun i => chanOf (ds.getD i {})
  let act := (cs.filter (·.state == 1)).map (·.installed)
  let k := minN act
  let cs1 := cs.mapIdx fun i c => if c.state = 1 then { c with trimmed := k < c.installed, installed := k, far := some ((cs.take i).filter (·.state == 1)).length } else c
  let s1 := s.modMem fun m => { m with chans := cs1, farC := act.length, farK := if act.isEmpty then 0 else k }
  let s2 := (List.range 16).foldl (fun s i =>
    let d := ds.getD i {}
    let st := (cs.getD i {}).state
    if (st = 0 && d.spd) || st = 3 then raisePf s { cls := 2, code := 3, payload := [i, if st = 0 then 0 else 1] } else s) s1
  (List.range 16).foldl (fun s i => let c := cs.getD i {}
    if c.state = 1 && k < c.installed then raisePf s { cls := 2, code := 4, payload := [i, c.installed - k] } else s) s2
/-- DATA_READY_REACHED (R943-R946, R952, R955, R963-R966). -/
def execDataReadyReached (train : Train) (s : State) : Host.Outcome State Fault Refusal :=
  .next (
    if !starting s || !s.boot.passed then s
    else
      let warm := s.boot.warm
      let s1 := if warm then s.modMem fun m => { m with nears := m.nears.map fun k => { k with sleep := false }, chans := m.chans.map fun c => if c.state = 2 then { c with state := 1 } else c }
        else trainFar s train.dimms
      let s2 := train.lost.foldl (fun s n => after (execStackLost n s) s) s1
      let nightfall : Bool := bit (fwGet s 3 1) 0
      let s3 := startPhase (repairStart (startPhase s2 3) (if !warm && s.boot.full then train.found else []) (!warm && (s.boot.full || nightfall))) 4
      let s4 := if warm then s3 else
        let a := fwPut (fwFlag s3 0 false) 0x1C 4 (sat 0xFFFFFFFF (fwGet s3 0x1C 4 + 1))
        let b := if s.boot.full then fwPut a 0x20 4 (sat 0xFFFFFFFF (fwGet a 0x20 4 + 1)) else a
        match s.boot.trial with
        | some svn => fwPut (fwPut (fwPut b 0 1 s.boot.image) 1 1 0xFF) 4 4 (Nat.max svn (fwGet b 4 4))
        | none => b
      let s5 := odSet (s4.modBoot fun b => { b with ready := true, trial := none, releases := [] }) 0x4040 8 (sat 0xFFFFFFFF ((s.mer.osc - s.boot.since) / 1000000))
      let s6 := emit s5 (.pin 2 1)
      s.boot.releases.foldl (fun s p => ((getPtn s p).cons.filterMap (physOf s)).foldl (fun s x => modCon s x fun c => { c with pwr := .awake, init := true, beatAt := now s }) (modPtn s p fun t => { t with scrubStep := 3 })) s6)

/-- Slices of each Nightfall step, and its hold in ms (R958). -/
def nfSlices (step : Nat) : Nat := [4, 4, 2, 1, 7, 4].getD (step - 1) 0
def nfHoldMs (step : Nat) : Nat := if step = 3 then 1000 else if step = 6 then 4000 else 0
/-- NF_CMD 1, from IDLE (R957, R961). -/
def nfStart (s : State) : State × Nat :=
  if s.boot.nfState != 0 || s.ptns.any (·.state != .vacant) || !s.boot.ready then (s, odSTATE)
  else
    let s1 := (List.range 17).foldl (fun s n => if portIsUp s n then
        modLink (linkDown (if (linkOf s n).keys then sendLink s n [3, 7] else s) n 7) n fun l => { l with nextTry := none } else s) s
    let s2 := s1.modEph fun e => { e with bank0 := none, bank1 := none, running := false, armed := false, loadState := 0, loadResult := 0, slots := [], xfer := [] }
    let s3 := s2.modBoot fun b => { b with nfState := 1, nfStep := 1, nfSlice := 0, nfHold := false, nfSliceMs := odGet s 0x4040 2, nfTotal := odGet s 0x4040 3, nfFrom := s.mer.osc }
    let s4 := odSet (odSet (odSet s3 0x4040 4 1) 0x4040 5 0) 0x4040 6 0
    (startEvent s4 0x23 [0, 1, 1, 0, 0], odOK)
/-- The next slice or hold must fit before TOTAL_S (R961). -/
def nfFits (s : State) (ms : Nat) : Bool := s.mer.osc - s.boot.nfFrom + ms * 1000000 ≤ s.boot.nfTotal * 1000000000
/-- Nightfall goes on: the hold of a slice, the next slice, the next step, or its end (R958, R961). Retention is written in the first slice
of step 3, and in slices 1 and 3 of step 6, and read in the next ones. -/
def nfNext (s : State) : State :=
  let b := s.boot
  let hold : Bool := (b.nfStep = 3 && b.nfSlice = 1) || (b.nfStep = 6 && (b.nfSlice = 1 || b.nfSlice = 3))
  if hold && !b.nfHold then
    (if nfFits s (nfHoldMs b.nfStep) then s.modBoot fun b => { b with nfHold := true } else endNightfall s 3)
  else if b.nfSlice < nfSlices b.nfStep then (if nfFits s b.nfSliceMs then s else endNightfall s 3)
  else
    let s1 := odSet s 0x4040 5 b.nfStep
    if b.nfStep = 6 then
      let s2 := fwPut (fwPut (fwFlag s1 0 true) 0x10 8 (now s)) 0x18 4 (odGet s 0x4040 6)
      endNightfall (s2.modBoot fun b => { b with ready := false, stopped := true }) 2
    else if nfFits s b.nfSliceMs then s1.modBoot fun b => { b with nfStep := b.nfStep + 1, nfSlice := 0, nfHold := false } else endNightfall s1 3
/-- Records of a slice; a failure of I/O-die SRAM adds none, and goes to the fault log (R959). -/
def nfRecords (s : State) (found : List Found) : State :=
  if s.boot.nfStep = 4 then
    (if found.isEmpty then s
     else
      let e : Event := { cls := 0xF, code := 0x23, payload := [0, 1, 4, odGet s 0x4040 6, 1] }
      (almQueue (raisePf s e) (0x4800 + 32 * s.alm.faultHead) (eventBytes e (now s))).modAlm fun a => { a with
        faultHead := (a.faultHead + 1) % 1024, faultTotal := sat 0xFFFFFFFF (a.faultTotal + 1) })
  else found.foldl addFound s
/-- NF_SLICE_END (R958, R959). -/
def execNfSliceEnd (found : List Found) (s : State) : Host.Outcome State Fault Refusal :=
  .next (if s.boot.nfState != 1 || s.boot.nfHold then s
    else nfNext ((nfRecords s found).modBoot fun b => { b with nfSlice := b.nfSlice + 1 }))
/-- NF_HOLD_END: the pattern is read in the next slice (R958). -/
def execNfHoldEnd (found : List Found) (s : State) : Host.Outcome State Fault Refusal :=
  .next (if s.boot.nfState != 1 || !s.boot.nfHold then s
    else nfNext ((nfRecords s found).modBoot fun b => { b with nfHold := false, nfSlice := b.nfSlice + 1 }))
/-- NF_CMD: 1 start, 2 abort, 3 power down (R957, R961, R962). With no Nightfall running, an abort answers STATE (DEDUCED). -/
def nfCommand (s : State) (cmd : Nat) : State × Nat :=
  match cmd with
  | 1 => nfStart s
  | 2 => if s.boot.nfState = 1 then (abortNightfall s, odOK) else (s, odSTATE)
  | _ =>
    if !sequenced s || s.boot.nfState = 1 || s.ptns.any (·.state != .vacant) then (s, odSTATE)
    else ((powerDown (stopPlane s)), odOK)

/-- UPDATE_RESULT and the answer of an update command: OK, else STATE, or SEQUENCE for a write out of order (R954, R966). -/
def updateAnswer (s : State) (r : Nat) : State × Nat := (odSet s 0x2020 7 r, if r = 0 then odOK else if r = 6 then odSEQUENCE else odSTATE)
/-- UPDATE_CMD 1: the image that is not ACTIVE is erased (R954). -/
def updateBegin (s : State) : State × Nat :=
  updateAnswer (odSet ((emit s (.flash 0 (1 - fwGet s 0 1 % 2) 0 [])).modBoot fun b => { b with erased := true }) 0x2020 4 0) 0
/-- UPDATE_DATA (R954). -/
def updateData (s : State) (data : List Byte) : State × Nat :=
  if data.length = 0 || 4096 < data.length then (s, odLENGTH)
  else if !s.boot.erased || 2 ^ 25 < odGet s 0x2020 4 + data.length then updateAnswer s 6
  else updateAnswer (odSet (emit s (.flash 1 (1 - fwGet s 0 1 % 2) (odGet s 0x2020 4) data)) 0x2020 4 (odGet s 0x2020 4 + data.length)) 0
/-- UPDATE_CMD 2: the image is verified under R949 and becomes PENDING (R954); 5 is a flash error. -/
def updateVerify (s : State) (w : OdSrc) (x : Ext) : State × Nat :=
  if !s.boot.erased then updateAnswer s 6
  else if !x.flashOk then updateAnswer s 5
  else if bundleResult s x.bundle != 0 then updateAnswer s (bundleResult s x.bundle)
  else
    let img := 1 - fwGet s 0 1 % 2
    let s1 := fwPut (fwPut (fwPut s 1 1 img) 2 1 2) (0x8 + 4 * img) 4 (bundleVersion x.bundle)
    let s2 := journal (s1.modBoot fun b => { b with erased := false }) { auditOf s w 6 0x2020 6 with old := fwGet s 1 1, new := img }
    updateAnswer s2 0
/-- UPDATE_CMD 3 cancels the pending image (R966). -/
def updateCancel (s : State) (w : OdSrc) : State × Nat :=
  updateAnswer (journal (fwPut (fwPut s 1 1 0xFF) 2 1 0) { auditOf s w 6 0x2020 6 with old := fwGet s 1 1, new := 0xFF }) 0

end Sys2Proof.Machine
end

