-- ==== Sys2Proof/Machine/Alm.lean ====
section
/-! DEFINITION. The Almanac (R888-R903): group writes of the banked regions, field notes, the field-side interface. -/

namespace Sys2Proof.Machine
open Sys2Proof

/-- An event of the management block (R903). -/
def mgtEvent (s : State) (code : Nat) (payload : List Nat) : State := raisePf s { cls := 0xE, code := code, payload := payload }

/-- Regions of the Almanac in the order of R888. -/
def almRegion (off : Nat) : Nat :=
  if off < 0x800 then 0 else if off < 0x4800 then 1 else if off < 0xC800 then 2 else if off < 0xE800 then 3 else if off < 0xFC00 then 4 else 5

/-- The counts of a bank header, at their image offsets (R890). -/
def headCounts (s : State) : List (Nat × Byte) :=
  (leBytes 4 s.alm.faultHead ++ leBytes 4 s.alm.faultTotal ++ leBytes 4 s.alm.auditHead ++ leBytes 4 s.ctl.auditSeq ++ leBytes 4 s.alm.repairs
    ++ leBytes 4 s.alm.fprintHead).mapIdx fun i b => (0xE810 + i, b)
/-- ALMANAC_GROUP_START: a group write is due; it takes the lock with the changes that wait, and the header's counts go with them (R896). -/
def execAlmanacGroupStart (s : State) : Host.Outcome State Fault Refusal :=
  .next (
    if (s.alm.waiting.isEmpty && s.ctl.odStore.isEmpty) || s.alm.locked || !s.boot.mgmt then s
    else (s.modCtl fun c => { c with odStore := c.odStore.map fun o => (o.1, o.2.1, o.2.2.1, true) }).modAlm fun a => { a with locked := true, group := (headCounts s).foldl (fun m e => sput m e.1 e.2) a.waiting, waiting := [] })

/-- Bytes of a bank by image offset. -/
def bankBytes (m : List (Nat × Byte)) (off n : Nat) : List Byte := (List.range n).map fun i => sget (fun _ => 0) m (off + i)
def putBytes (m : List (Nat × Byte)) (l : List (Nat × Byte)) : List (Nat × Byte) := l.foldl (fun m e => sset (fun _ => 0) m e.1 e.2) m
def putAt (m : List (Nat × Byte)) (off : Nat) (bs : List Byte) : List (Nat × Byte) := putBytes m (bs.mapIdx fun i b => (off + i, b))
/-- The bank header over a bank's content (R890): MAGIC, GEN, BANK, the CRCs of its regions, HCRC. -/
def withHeader (m : List (Nat × Byte)) (gen bank : Nat) : List (Nat × Byte) :=
  let crcs := [(0x800, 0x4000), (0x4800, 0x8000), (0xC800, 0x2000), (0xE900, 0x1300)].map fun r => crc32c (bankBytes m r.1 r.2)
  let m1 := putAt (putAt m 0xE800 (leBytes 4 0x314E4C41 ++ leBytes 4 gen ++ leBytes 8 bank)) 0xE828 (crcs.map (leBytes 4)).flatten
  putAt m1 0xE8FC (leBytes 4 (crc32c (bankBytes m1 0xE800 0xFC)))
/-- The inactive bank takes the previous group, this group and a header with GEN one higher, and becomes active (R896). -/
def writeBank (s : State) : State :=
  let a := s.alm
  let b := 1 - a.active
  let gen := ((if a.active = 0 then a.gen0 else a.gen1) + 1) % 2 ^ 32
  let m := withHeader (putBytes (putBytes (if b = 0 then a.bank0 else a.bank1) a.last) a.group) gen b
  s.modAlm fun a => { a with
    bank0 := if b = 0 then m else a.bank0, bank1 := if b = 0 then a.bank1 else m
    gen0 := if b = 0 then gen else a.gen0, gen1 := if b = 0 then a.gen1 else gen
    valid0 := a.valid0 || b == 0, valid1 := a.valid1 || b != 0
    active := b, last := a.group, group := [], locked := false }
/-- Remaps are reported once their map entries are written (R54, R774). -/
def reportRemaps (s : State) : State :=
  let done (r : Remap) : Bool := !s.alm.waiting.any fun e => e.1 == 0x800 + 2 * r.new
  (s.ras.remaps.filter done).foldl (fun s r =>
    rasEvent s (some r.l) 2 [b2n r.drill, r.old, r.new, b2n (physQuarter r.new != homeQuarter r.l), b2n r.planned])
    (s.modRas fun x => { x with remaps := x.remaps.filter fun r => !done r })
/-- Writes of the dictionary that needed the group that has ended are answered (R897). -/
def answerStored (s : State) (err : Nat) : State :=
  (s.ctl.odStore.filter (·.2.2.2)).foldl (fun s o => odAnswer s o.1 true o.2.1 o.2.2.1 err [])
    (s.modCtl fun c => { c with odStore := c.odStore.filter fun o => !o.2.2.2 })
/-- ALMANAC_GROUP_DONE: the header is written and the lock released, or a block failed twice and the group is abandoned (R896, R897).
The changes of an abandoned group wait for the next one (DESIGN CHOICE), and its bank no longer passes its check (DEDUCED). -/
def execAlmanacGroupDone (fail : Option Nat) (s : State) : Host.Outcome State Fault Refusal :=
  .next (
    if !s.alm.locked then s
    else match fail with
      | none => answerStored (reportRemaps (odCount (writeBank s) 0x8000 6)) odOK
      | some blk =>
        let s1 := s.modAlm fun a => { a with
          locked := false, group := [], waiting := a.waiting.foldl (fun m e => sput m e.1 e.2) a.group
          valid0 := a.valid0 && a.active == 0, valid1 := a.valid1 && a.active == 1 }
        answerStored (mgtEvent (odCount s1 0x8000 7) 4 [almRegion (32 * blk), blk]) odSTORAGE)

/-- A wired-side write of field notes (R898, R902): the rest of the region is zeros. A block that fails twice answers STORAGE. -/
def writeNotes (s : State) (data : List Byte) (ok : Bool) : State × Nat :=
  if data.length = 0 || 1024 < data.length then (s, odLENGTH)
  else if !ok then (s, odSTORAGE)
  else (s.modAlm fun a => { a with fixed := putAt (a.fixed.filter fun e => e.1 < 0xFC00) 0xFC00 data }, odOK)
/-- CLEAR_FAULT_LOG: an empty fault log in the next group (R902). -/
def clearFaultLog (s : State) : State :=
  let a := s.alm
  let log (e : Nat × Byte) : Bool := decide (0x4800 ≤ e.1) && decide (e.1 < 0xC800)
  let offs := ((a.waiting ++ a.group ++ (if a.active = 0 then a.bank0 else a.bank1)).filter log).map (·.1)
  s.modAlm fun a => { a with waiting := offs.foldl (fun m o => sput m o 0) a.waiting, faultHead := 0 }

/-- The UID of the field side (R899). -/
def nfcUid (s : State) : Nat := 0xE0 * 2 ^ 56 + (almByte s 4).toNat * 2 ^ 48 + serial s % 2 ^ 48
/-- Whether the field side hears a command: a quiet tag only one that names it or that goes to the selected tag (PRESUMED: ISO/IEC 15693). -/
def nfcHears (s : State) (who : NfcTo) : Bool :=
  s.alm.field && match who with
    | .all => !s.alm.quiet
    | .selected => s.alm.selected
    | .uid u => u == nfcUid s
def nfcAnswer (s : State) (flags : Nat) (bs : List Byte) : State := emit s (.nfc flags bs)
def nfcError (s : State) (code : Nat) : State := nfcAnswer s 1 [BitVec.ofNat 8 code]
/-- NFC_INVENTORY: `n` low bits of the UID must equal `mask`; DSFID and UID are answered (R899; PRESUMED: ISO/IEC 15693). -/
def execNfcInventory (n mask : Nat) (s : State) : Host.Outcome State Fault Refusal :=
  .next (if nfcHears s .all && bits (nfcUid s) 0 n == bits mask 0 n then nfcAnswer s 0 (0 :: leBytes 8 (nfcUid s)) else s)
/-- NFC_STAY_QUIET: no answer (PRESUMED: ISO/IEC 15693). -/
def execNfcStayQuiet (uid : Nat) (s : State) : Host.Outcome State Fault Refusal :=
  .next (if nfcHears s (.uid uid) then s.modAlm fun a => { a with quiet := true, selected := false } else s)
/-- NFC_SELECT: the tag it names is selected; another returns to ready from the selected state (PRESUMED: ISO/IEC 15693). -/
def execNfcSelect (uid : Nat) (s : State) : Host.Outcome State Fault Refusal :=
  .next (
    if nfcHears s (.uid uid) then nfcAnswer (s.modAlm fun a => { a with quiet := false, selected := true }) 0 []
    else s.modAlm fun a => { a with selected := false })
/-- NFC_RESET_TO_READY. -/
def execNfcResetToReady (who : NfcTo) (s : State) : Host.Outcome State Fault Refusal :=
  .next (if nfcHears s who then nfcAnswer (s.modAlm fun a => { a with quiet := false, selected := false }) 0 [] else s)
/-- NFC_GET_SYSTEM_INFO: UID, DSFID and AFI 0; the extended form with 2,048 blocks of 32 bytes, which the plain form cannot state
(PRESUMED: ISO/IEC 15693). -/
def execNfcGetSystemInfo (who : NfcTo) (extended : Bool) (s : State) : Host.Outcome State Fault Refusal :=
  .next (
    if nfcHears s who then
      nfcAnswer s 0 ((if extended then 7 else 3) :: leBytes 8 (nfcUid s) ++ [0, 0] ++ if extended then leBytes 2 2047 ++ [31] else [])
    else s)
/-- NFC_READ_BLOCKS: from the active bank, whether or not the device is powered (R900). -/
def execNfcReadBlocks (who : NfcTo) (first count : Nat) (s : State) : Host.Outcome State Fault Refusal :=
  .next (
    if !nfcHears s who then s
    else if 2048 < first + count then nfcError s 0x10
    else nfcAnswer s 0 (almBytes s (32 * first) (32 * count)))
/-- The error of a field write, 0 when it is accepted (R901). -/
def fieldError (s : State) (block : Nat) : Nat := if 2048 ≤ block then 0x10 else if block < 2016 || s.alm.locked then 0x12 else 0
/-- NFC_WRITE_BLOCK: counted, and told to the PF when the device is powered (R901, R902). -/
def execNfcWriteBlock (who : NfcTo) (block : Nat) (data : List Byte) (s : State) : Host.Outcome State Fault Refusal :=
  .next (
    if !nfcHears s who then s
    else
      let err := fieldError s block
      let s1 := odCount s 0x8000 (if err = 0 then 4 else 5)
      let s2 := if s.boot.mgmt then mgtEvent s1 3 [block, err] else s1
      if err != 0 then nfcError s2 err
      else nfcAnswer (s2.modAlm fun a => { a with fixed := putAt a.fixed (32 * block) (padTo 32 (data.take 32)) }) 0 [])
/-- NFC_UNSUPPORTED (R901). -/
def execNfcUnsupported (who : NfcTo) (s : State) : Host.Outcome State Fault Refusal := .next (if nfcHears s who then nfcError s 1 else s)
/-- NFC_FIELD_ON, NFC_FIELD_OFF: the field powers the tag, which starts ready (R902). -/
def execNfcFieldOn (s : State) : Host.Outcome State Fault Refusal := .next (s.modAlm fun a => { a with field := true, quiet := false, selected := false })
def execNfcFieldOff (s : State) : Host.Outcome State Fault Refusal := .next (s.modAlm fun a => { a with field := false, quiet := false, selected := false })

end Sys2Proof.Machine
end

