-- ==== Sys2Proof/Machine/Od.lean ====
section
/-! DEFINITION. The object dictionary (R16, R748-R754, R848, R879-R887, R902): values, reads, writes with their checks, the
writes that wait for a cycle boundary, and the commands that are writes or reads of one entry. -/

namespace Sys2Proof.Machine
open Sys2Proof

/-- Codes of bus state (R886). -/
def BusState.code : BusState → Nat
  | .unassigned => 0 | .searching => 1 | .assigned => 2 | .lone => 3 | .silent => 4
/-- Whether an index is that of a partition's entry at `base + p`, and of its lifecycle entries (R752). -/
def odAt (idx base : Nat) : Bool := decide (base ≤ idx) && decide (idx < base + 32)
def odLife (idx : Nat) : Bool := decide (0x3000 ≤ idx) && decide (idx < 0x3200) && idx % 16 == 0
/-- The partition that an entry belongs to (R746); 0 for none. -/
def odWhose (idx : Nat) : Nat :=
  if odLife idx then (idx - 0x3000) / 16
  else if 0x4020 ≤ idx && idx < 0x4040 || 0x7100 ≤ idx && idx < 0x7120 || 0x7200 ≤ idx && idx < 0x7220 || 0x9100 ≤ idx && idx < 0x9260 then idx % 32 else 0
/-- OFFSET (sub 1) and LENGTH (sub 2) of the Almanac window of a master (R902). -/
def odWindow (s : State) (m : Master) : Nat × Nat := s.ctl.window.getD (masterNum m) (0, 32)
/-- Bytes 0 to 18 of CONSTELLATIONS, and the numbers that they name (R752). -/
def conBytes (cons : List Nat) : List Byte := leBytes 19 (sumN (cons.eraseDups.map (2 ^ ·)))
def namedCons (data : List Byte) : List Nat := (List.range 152).filter (bit (leNat data))
def peerBytes (l : List (Nat × Nat)) : List Byte := (l.map fun d => leBytes 1 d.1 ++ leBytes 1 d.2).flatten
def namedPeers (data : List Byte) : List (Nat × Nat) := ((chunks 2 data).map fun c => (leAt c 0 1, leAt c 1 1)).eraseDups
/-- "Eswilan" and "Tertas TN915" (R885). -/
def vendorName : List Byte := [0x45, 0x73, 0x77, 0x69, 0x6C, 0x61, 0x6E]
def productName : List Byte := [0x54, 0x65, 0x72, 0x74, 0x61, 0x73, 0x20, 0x54, 0x4E, 0x39, 0x31, 0x35]

/-- The numeric value of an entry whose value is not stored in the dictionary; none for the others. -/
def odView (s : State) (w : OdSrc) (idx sub : Nat) : Option Nat :=
  let fast : Bool := bit s.boot.straps 5
  let pt := getPtn s (odWhose idx)
  if sub = 0 then none
  else if odLife idx then
    (match sub with
    | 1 => some pt.state.code | 6 => some pt.fenceCause | 7 => some pt.cmdResult | _ => none)
  else if odAt idx 0x9140 && sub = 3 then some (s.serve.tables.filter (·.ptn == odWhose idx)).length
  else if odAt idx 0x91A0 && sub = 8 then some (ofInt 64 (sget (fun _ => 0) s.serve.levels (odWhose idx)))
  else match odKey idx sub with
  | 0x100004 => some (serial s)
  | 0x100007 => some Config.romVersion.toNat
  | 0x100008 => some s.boot.fw
  | 0x100009 => some s.boot.image
  | 0x101001 => some s.mgt.bus.code
  | 0x101002 => some s.mgt.addr
  | 0x101003 => some (almNum s (0xE800 + 0x100) 1)
  | 0x101004 => some s.mgt.manager
  | 0x101008 => some (if fast then 1000 else 500)
  | 0x101009 => some (if fast then 5000 else 2000)
  | 0x200001 => some (roleOf s w)
  | 0x200006 => some (sat 0xFFFFFFFF (s.ctl.pfRole.failed + s.ctl.busRole.failed))
  | 0x201001 => some s.ctl.auditSeq
  | 0x201002 => some s.ctl.cursor
  | 0x202001 => some (fwGet s 0 1)
  | 0x202002 => some (fwGet s 1 1)
  | 0x202003 => some (fwGet s 4 4)
  | 0x400001 => some (s.cons.filter (·.role == .spare)).length
  | 0x400006 => some (regFld s 0x700004 0 8)
  | 0x50000A => some (ofInt 32 s.mer.utc)
  | 0x800001 => some s.alm.active
  | 0x800002 => some (if s.alm.active = 0 then s.alm.gen0 else s.alm.gen1)
  | 0x800003 => some (b2n s.alm.field)
  | 0x800008 => some (almByte s 4).toNat
  | 0x801001 => some (odWindow s w.master).1
  | 0x801002 => some (odWindow s w.master).2
  | 0x900005 => some (b2n (bit s.boot.straps 6))
  | 0x901004 => some ((List.range 256).filter fun d => (List.range 8).any fun k => bit (cnt s.fab.routes (8 * d + k)) 8).length
  | 0x901005 => some s.fab.streams.length
  | _ => if idx = 0x6010 then some (almNum s (0xE800 + 0x680 + 2 * (sub - 1)) 2) else none
/-- The value of an entry that is not a number. -/
def odBytes (s : State) (idx sub : Nat) : List Byte :=
  let pt := getPtn s (odWhose idx)
  if odLife idx then (if sub = 3 then conBytes pt.cons else peerBytes pt.peers)
  else if odAt idx 0x7100 then sget (fun _ => List.replicate 128 0) s.tel.last (odWhose idx)
  else if odAt idx 0x9200 then padTo 2048 (windowOf s (odWhose idx))
  else match odKey idx sub with
  | 0x100005 => vendorName
  | 0x100006 => productName
  | 0x200005 => s.ctl.key.getD (List.replicate 97 0)
  | 0x401001 => s.ras.drills
  | 0x602008 => (s.qtrs.map fun q => leBytes 1 q.capStep).flatten
  | 0x610002 => (s.tel.coeffs.map fun c => leBytes 4 c.toNat).flatten
  | 0x802001 => (List.range 1024).map fun i => almByte s (0xFC00 + i)
  | 0x901001 => ((List.range 2048).map fun k => leBytes 2 (cnt s.fab.routes k)).flatten
  | _ => []
/-- The value of a readable entry (R882); a write-only entry has none. -/
def odValue (s : State) (w : OdSrc) (e : OdEntry) (idx sub : Nat) : List Byte :=
  if e.access == .wo then []
  else if sub = 0 || e.size != 0 then leBytes e.size ((odView s w idx sub).getD (odGet s idx sub))
  else odBytes s idx sub
/-- In recovery only these indices are served (R953). -/
def odServed (s : State) (idx : Nat) : Bool := !s.boot.recovery || [0x1000, 0x1010, 0x2000, 0x2020].contains idx
/-- A read: the state after it, the error and the value (R15, R754, R883, R884, R902). -/
def odRead (s : State) (w : OdSrc) (idx sub : Nat) : State × Nat × List Byte :=
  if !odServed s idx then (s, odNOENTRY, [])
  else match odFind idx sub with
  | none => (s, if odIndexExists idx then odNOSUB else odNOENTRY, [])
  | some e =>
    if roleOf s w < e.read then (s, odRIGHTS, [])
    else if e.access == .wo then (s, odWRITEONLY, [])
    else match odKey idx sub with
    | 0x200002 => let r := readChallenge s w; (r.1, odOK, r.2)
    | 0x201003 => let r := readAudit s; (r.1, odOK, r.2)
    | 0x801003 =>
      let (o, n) := odWindow s w.master
      if 65536 < o + n then (s, odRANGE, []) else (s, odOK, almBytes s o n)
    | _ => (if e.rc then odSet s idx sub 0 else s, odOK, odValue s w e idx sub)

/-- A number lies in the range of its entry (R882). -/
def odInRange (e : OdEntry) (v : Nat) : Bool :=
  let x : Int := if e.signed then toInt (8 * e.size) v else v
  decide (e.min ≤ x) && decide (x ≤ e.max)
/-- Links that a PCIe configuration makes upstream (R683). -/
def upLinks (v : Nat) : Nat := b2n (bits v 0 2 == 1) + b2n (bits v 2 2 == 1)
/-- What a value must also satisfy (R404, R529, R615, R683, R723, R886, R1002). -/
def odExtra (s : State) (idx sub v : Nat) : Bool :=
  if odAt idx 0x9180 then
    (match sub with | 2 => decide (v < odGet s idx 3) | 3 => decide (odGet s idx 2 < v) | _ => true)
  else if odAt idx 0x91E0 then sub != 1 || v != 3
  else if odAt idx 0x9200 then sub != 3 || v % 1024 == 0
  else if odAt idx 0x9240 then
    (match sub with
    | 2 => decide (v < 4095) || v == 0xFFFF
    | 3 => decide (sumN ((List.range 32).map fun q => if q = odWhose idx then v else odGet s (0x9240 + q) 3) ≤ 65536)
    | 4 => decide (sumN ((List.range 32).map fun q => if q = odWhose idx then v else odGet s (0x9240 + q) 4) ≤ 262144)
    | 5 => v % 4096 == 0
    | _ => true)
  else if idx = 0x9020 && sub ≤ 6 then
    bits v 0 2 != 3 && bits v 2 2 != 3 && (bits v 2 2 == 0 || bit v 4) && bits v 5 3 != 0 && bits v 5 3 != 7
      && 0 < sumN ((List.range 6).map fun i => upLinks (if i + 1 = sub then v else odGet s 0x9020 (i + 1)))
  else if idx = 0x1010 && sub = 6 then bit v 11
  else if idx = 0x6030 && sub = 8 then decide (v ≤ 100) || v == 255
  else true
/-- A locked TDI: CONFIG_LOCKED or RUN (R697). -/
def tdiLocked (s : State) (p : Nat) : Bool := (compOf s p).tdi == 1 || (compOf s p).tdi == 2
/-- Lowering a number that is a limit, quota or rate; setting a BOOLEAN to 0; FENCE, RELEASE, DRAIN (R749). -/
def odStops (s : State) (idx sub : Nat) (data : List Byte) : Bool :=
  let v := leNat data
  if odLife idx && sub = 2 then v == 3 || v == 4 || v == 6
  else match odFind idx sub with
  | some e => (e.bool && v == 0) || (e.limit && decide (v < odGet s idx sub))
  | none => false
/-- Whether CONSTELLATIONS may take this value (R730): 0, or RANGE or STATE (DEDUCED: the rule names no code). -/
def consCheck (s : State) (p : Nat) (data : List Byte) : Nat :=
  let pt := getPtn s p
  let cs := namedCons data
  if data.length != 19 then odLENGTH
  else if !(pt.state == .vacant || pt.state == .provisioning) then odSTATE
  else if cs.any (150 ≤ ·) || odGet s (0x3000 + 16 * p) 8 < cs.length then odRANGE
  else if cs.any fun l => match ownerOf s l with | some q => q != p | none => false then odSTATE
  else 0
/-- Whether the peer set may take this value (R731): at once, or in ACTIVE as an addition. -/
def peersCheck (s : State) (p : Nat) (data : List Byte) : Nat :=
  let pt := getPtn s p
  let ds := namedPeers data
  let named (d : Nat) : Bool := (List.range 64).any fun i => let x := winEntry s p i; winValid x && !bit x 100 && bits x 48 8 == d
  if data.length % 2 != 0 || 128 < data.length then odLENGTH
  else if ds.any fun d => 32 ≤ d.2 then odRANGE
  else if !(pt.state == .vacant || pt.state == .provisioning || (pt.state == .active && pt.peers.all ds.contains)) then odSTATE
  else if pt.peers.any fun d => !ds.any (·.1 == d.1) && named d.1 then odSTATE
  else 0
/-- State of the object that a write needs (R24, R697, R723, R730, R731). -/
def odStateCheck (s : State) (idx sub : Nat) (data : List Byte) : Nat :=
  let p := odWhose idx
  let pt := getPtn s p
  if odAt idx 0x9100 then (if pt.state == .provisioning || pt.state == .active then 0 else odSTATE)
  else if odAt idx 0x9240 then
    if s.px.qps.any (·.ptn == p) then odSTATE
    else if tdiLocked s p && !odStops s idx sub data then odLOCKED else 0
  else if odLife idx then
    (match sub with
    | 3 => consCheck s p data
    | 4 => if pt.state == .vacant || pt.state == .provisioning then 0 else odSTATE
    | 5 => peersCheck s p data
    | _ => 0)
  else 0
/-- The checks of a write, in the order of the codes (DEDUCED: the spec gives none; R882-R884). INSTALLER_KEY checks its own right. -/
def odCheck (s : State) (w : OdSrc) (idx sub : Nat) (data : List Byte) : Nat :=
  if !odServed s idx then odNOENTRY
  else match odFind idx sub with
  | none => if odIndexExists idx then odNOSUB else odNOENTRY
  | some e =>
    if e.access == .ro || e.access == .const then odREADONLY
    else if roleOf s w < e.write && odKey idx sub != 0x200005 then odRIGHTS
    else if (e.size != 0 && data.length != e.size) || 4096 < data.length then odLENGTH
    else if e.size != 0 && !(odInRange e (leNat data) && odExtra s idx sub (leNat data)) then odRANGE
    else odStateCheck s idx sub data

/-- Whether a write takes effect at the next cycle boundary (R25, R731, R732, R578, R584). -/
def odWaits (s : State) (idx sub : Nat) (data : List Byte) : Bool :=
  match odFind idx sub with
  | none => false
  | some e =>
    e.boundary || odKey idx sub == 0x901001 || (odAt idx 0x9200 && sub == 1) || (odLife idx && sub == 2 && leNat data != 4)
      || (odLife idx && sub == 5 && (getPtn s (odWhose idx)).state == .active)
/-- What a write that waits finds when it is written: a route table, a window table and a command may be refused at once, and report it
(R578, R584, R733). -/
def odAccept (s : State) (w : OdSrc) (idx sub : Nat) (data : List Byte) : State × Nat :=
  let p := odWhose idx
  if odKey idx sub = 0x901001 then
    if data.length != 4096 then (s, odLENGTH)
    else
      let r := routeResult s data
      (odSet s 0x9010 3 r, if r = 0 then odOK else if r = 1 then odSTATE else odRANGE)
  else if odAt idx 0x9200 && sub = 1 then
    if data.length != 2048 then (s, odLENGTH)
    else
      let r := windowResult s p data
      (odSet s idx 2 r, if r = 0 then odOK else if r = 4 then odSTATE else if tdiLocked s p then odLOCKED else odRANGE)
  else if odLife idx && sub = 2 then
    let r := cmdAccept s w p (leNat data)
    if r = 0 then (s, odOK)
    else (modPtn s p fun x => { x with cmdResult := r }, if r = 7 then odRIGHTS else if r = 5 then odRANGE else odSTATE)
  else (s, odOK)

/-- An audit entry of a write (R745, R746): those with installer or maker role, and partition commands. The entries of 0x2000 are journalled
by their own events. -/
def odAudit (s : State) (w : OdSrc) (idx sub : Nat) (data : List Byte) : Audit :=
  let old := match odFind idx sub with | some e => auditValue (odValue s w e idx sub) | none => 0
  { auditOf s w 3 idx sub with ptn := odWhose idx, old := old, new := auditValue data }
def odJournalled (a : Audit) : Bool := (1 ≤ a.role && a.index != 0x2000) || (odLife a.index && a.sub == 2)
def odJournal (s : State) (a : Audit) (err : Nat) : State := if odJournalled a then journal s { a with refused := err != 0 } else s

/-- Overridden writes complete: both writes are journalled, and a command reports it (R750, R752). -/
def odLose (s : State) (o : OdPend) : State :=
  let a := { odAudit s o.w o.index o.sub o.data with role := o.role, overridden := true }
  let s1 := journal s a
  let s2 := if odLife o.index && o.sub = 2 then modPtn s1 (odWhose o.index) fun x => { x with cmdResult := 6 } else s1
  odAnswer s2 o.w true o.index o.sub odOVERRIDDEN []
/-- FENCE acts at once; it overrides the commands of the other master that wait for the same partition (R732, R750). -/
def writeFence (s : State) (w : OdSrc) (p : Nat) : State × Nat :=
  let (s1, r) := ptnCommand s p 4
  if r != odOK then (s1, r)
  else
    let lost (o : OdPend) : Bool := o.index == 0x3000 + 16 * p && o.sub == 2 && o.w.master != w.master
    ((s1.ctl.odPend.filter lost).foldl odLose (s1.modCtl fun c => { c with odPend := c.odPend.filter fun o => !lost o }), r)
/-- A write of CONSTELLATIONS (R730): in PROVISIONING, those that join are woken from DEEP, and those that leave rest. -/
def writeCons (s : State) (p : Nat) (data : List Byte) : State :=
  let old := (getPtn s p).cons
  let new := namedCons data
  let s1 := modPtn s p fun x => { x with cons := new }
  if (getPtn s p).state != .provisioning then s1
  else ((old.filter fun l => !new.contains l).filterMap (physOf s)).foldl restIdle ((new.filter fun l => !old.contains l).foldl joinCon s1)

/-- What an accepted write does at once: the error it is answered with, and the state. -/
def odEffect (s : State) (w : OdSrc) (idx sub : Nat) (data : List Byte) (x : Ext) : State × Nat :=
  let v := leNat data
  let p := odWhose idx
  if odLife idx && sub = 2 then writeFence s w p
  else if odLife idx && sub = 3 then (writeCons s p data, odOK)
  else if odLife idx && sub = 5 then (modPtn s p fun y => { y with peers := namedPeers data }, odOK)
  else if odAt idx 0x9160 then
    let r := tableSupply s p data
    (r.1, if r.2 = 0 then odOK else if r.2 = 3 || r.2 = 4 then odSTATE else odRANGE)
  else if odAt idx 0x9240 then (lockError (odSet s idx sub v) p, odOK)
  else match odKey idx sub with
  | 0x101003 => (almQueue s (0xE800 + 0x100) data, odOK)
  | 0x200003 => writeResponse s w data x.ok
  | 0x200004 => (if roleOf s w = 0 then s else dropRole s w.master, odOK)
  | 0x200005 => writeKey s w data
  | 0x201002 => (odSet (s.modCtl fun c => { c with cursor := v }) 0x2010 2 v, odOK)
  | 0x202005 => updateData s data
  | 0x202006 => if v = 1 then updateBegin s else if v = 2 then updateVerify s w x else updateCancel s w
  | 0x400002 => writeReadmit s v
  | 0x401001 => writeDrills s data
  | 0x404001 => nfCommand s v
  | 0x610002 => writeCoeffs s data
  | 0x700003 => (if v = 1 then snapshot s true else s, odOK)
  | 0x800009 => (if v = 1 then clearFaultLog s else s, odOK)
  | 0x801001 => (s.modCtl fun c => { c with window := modAt c.window (masterNum w.master) fun e => (v, e.2) }, odOK)
  | 0x801002 => (s.modCtl fun c => { c with window := modAt c.window (masterNum w.master) fun e => (e.1, v) }, odOK)
  | 0x802001 => writeNotes s data x.ok
  | _ => if idx = 0x6010 then (almQueue s (0xE800 + 0x680 + 2 * (sub - 1)) data, odOK) else (odSet s idx sub v, odOK)
/-- A write: the state after it and its error; none while it waits for the next cycle boundary (R748, R881). -/
def odWrite (s : State) (w : OdSrc) (idx sub : Nat) (data : List Byte) (x : Ext) : State × Option Nat :=
  let a := odAudit s w idx sub data
  let c := odCheck s w idx sub data
  if c != odOK then (odJournal s a c, some c)
  else if odWaits s idx sub data then
    let (s1, r) := odAccept s w idx sub data
    if r != odOK then (odJournal s1 a r, some r)
    else (s1.modCtl fun k => { k with odPend := k.odPend ++ [{ w := w, role := roleOf s w, index := idx, sub := sub, data := data }] }, none)
  else
    let (s1, r) := odEffect s w idx sub data x
    (odJournal s1 a r, some r)

/-- The remote read cache of a partition is given up (R615); one of the new size is allocated at the boundary that follows. -/
def dropRrc (s : State) (p : Nat) : State :=
  let s1 := match s.fab.rrcAt.find? (·.1 == p) with | some c => freeTiles s p c.2.1 | none => s
  s1.modFab fun b => { b with rrcAt := b.rrcAt.filter (·.1 != p), rrc := b.rrc.filter (·.ptn != p) }
/-- The effect of a write at its boundary, and its error (R25, R308, R578, R584, R615, R731, R732). -/
def odApply (s : State) (o : OdPend) : State × Nat :=
  let v := leNat o.data
  let p := odWhose o.index
  let s1 := odSet s o.index o.sub v
  let changed : Bool := odGet s o.index o.sub != v
  if odLife o.index && o.sub = 2 then ptnCommand s p v
  else if odLife o.index then (modPtn s p fun y => { y with peers := namedPeers o.data }, odOK)
  else if odKey o.index o.sub = 0x901001 then (putRoutes s (routesOf o.data), odOK)
  else if odAt o.index 0x9200 && o.sub = 1 then (s.modFab fun b => { b with windows := sput b.windows p o.data }, odOK)
  else if odAt o.index 0x9200 then (if changed then dropRrc s1 p else s1, odOK)
  else if odAt o.index 0x9100 && o.sub = 3 then (if changed then retireTables s1 p else s1, odOK)
  else if odKey o.index o.sub = 0x900002 then (if changed then servoModeChanged s1 else s1, odOK)
  else if odKey o.index o.sub = 0x500005 then (if changed then ppsInChanged s1 else s1, odOK)
  else (s1, odOK)
/-- Two writes to one object at one boundary: whether the second loses against the first (R749, R750). -/
def odBeats (s : State) (a b : OdPend) : Bool :=
  let rank (o : OdPend) : Nat :=
    if !odStops s o.index o.sub o.data then 0 else if odLife o.index && o.sub = 2 then (if leNat o.data = 6 then 2 else 1) else 1
  if rank a != rank b then decide (rank b < rank a) else a.w.master == .bus
/-- The other master's last write to the object wins against this write's master (R751). -/
def odLoses (s : State) (ps : List OdPend) (o : OdPend) : Bool :=
  let same (m : Master) : Option OdPend := (ps.reverse.find? fun q => q.index == o.index && q.sub == o.sub && q.w.master == m)
  match same o.w.master, same (if o.w.master == .pf then .bus else .pf) with
  | some mine, some theirs => odBeats s theirs mine
  | _, _ => false
/-- The writes that wait take effect at a boundary, in the order they were issued; then the losers complete (R748-R751). -/
def applyOdPend (s : State) : State :=
  let ps := s.ctl.odPend
  let lost := ps.filter (odLoses s ps)
  let contested (o : OdPend) : Bool := lost.any fun q => q.index == o.index && q.sub == o.sub
  let s1 := (ps.filter fun o => !odLoses s ps o).foldl (fun s o =>
    let a := { odAudit s o.w o.index o.sub o.data with role := o.role }
    let (s2, r) := odApply s o
    let s3 := if contested o then journal s2 { a with refused := r != 0 } else odJournal s2 a r
    odAnswer s3 o.w true o.index o.sub r []) (s.modCtl fun c => { c with odPend := [] })
  lost.foldl odLose s1

/-- Whether the dictionary serves a source: the management plane runs, and a bus node is not SILENT or bus-off (R862, R945). -/
def odHears (s : State) (w : OdSrc) : Bool := s.boot.mgmt && (w.master == .pf || !(s.mgt.bus == .silent || s.mgt.busOff))
/-- A write whose value or effect is an Almanac group's: it is answered once the group has been written, or has failed (R897). -/
def odStores (idx sub v : Nat) : Bool :=
  idx == 0x6010 || odKey idx sub == 0x101003 || odKey idx sub == 0x200005 || (odKey idx sub == 0x800009 && v == 1)
/-- A write and its answer. In recovery a verified image restarts the always-on domain (R953); only that image is known to verify
(DEDUCED). -/
def odWriteCmd (s : State) (w : OdSrc) (idx sub : Nat) (data : List Byte) (x : Ext) : State :=
  if !odHears s w then s
  else match odWrite s w idx sub data x with
  | (s1, none) => s1
  | (s1, some err) =>
    if err == odOK && odStores idx sub (leNat data) then s1.modCtl fun c => { c with odStore := c.odStore ++ [(w, idx, sub, false)] }
    else
    let s2 := odAnswer s1 w true idx sub err []
    if s.boot.recovery && odKey idx sub == 0x202006 && leNat data == 2 && err == odOK then
      bootAgain s2 fun i => if i = fwGet s2 1 1 then x.bundle else {}
    else s2
def odReadCmd (s : State) (w : OdSrc) (idx sub : Nat) : State :=
  if !odHears s w then s
  else
    let r := odRead s w idx sub
    odAnswer r.1 w false idx sub r.2.1 r.2.2

/-- TABLE_SUPPLY, ROUTE_TABLE_LOAD, WINDOW_TABLE_WRITE (R306, R578, R584). -/
def execTableSupply (w : OdSrc) (ptn : Nat) (data : List Byte) (s : State) : Host.Outcome State Fault Refusal :=
  .next (odWriteCmd s w (0x9160 + ptn % 32) 1 data {})
def execRouteTableLoad (w : OdSrc) (data : List Byte) (s : State) : Host.Outcome State Fault Refusal :=
  .next (odWriteCmd s w 0x9010 1 data {})
def execWindowTableWrite (w : OdSrc) (ptn : Nat) (data : List Byte) (s : State) : Host.Outcome State Fault Refusal :=
  .next (odWriteCmd s w (0x9200 + ptn % 32) 1 data {})
/-- A write of COMMAND (R732). -/
def ptnCmdWrite (s : State) (w : OdSrc) (ptn cmd : Nat) : State := odWriteCmd s w (0x3000 + 16 * (ptn % 32)) 2 [BitVec.ofNat 8 cmd] {}
def execPtnProvision (w : OdSrc) (ptn : Nat) (s : State) : Host.Outcome State Fault Refusal := .next (ptnCmdWrite s w ptn 1)
def execPtnActivate (w : OdSrc) (ptn : Nat) (s : State) : Host.Outcome State Fault Refusal := .next (ptnCmdWrite s w ptn 2)
def execPtnDrain (w : OdSrc) (ptn : Nat) (s : State) : Host.Outcome State Fault Refusal := .next (ptnCmdWrite s w ptn 3)
def execPtnFence (w : OdSrc) (ptn : Nat) (s : State) : Host.Outcome State Fault Refusal := .next (ptnCmdWrite s w ptn 4)
def execPtnUnfence (w : OdSrc) (ptn : Nat) (s : State) : Host.Outcome State Fault Refusal := .next (ptnCmdWrite s w ptn 5)
def execPtnRelease (w : OdSrc) (ptn : Nat) (s : State) : Host.Outcome State Fault Refusal := .next (ptnCmdWrite s w ptn 6)
/-- CONSTELLATIONS_WRITE (R730). -/
def execConstellationsWrite (w : OdSrc) (ptn : Nat) (data : List Byte) (s : State) : Host.Outcome State Fault Refusal :=
  .next (odWriteCmd s w (0x3000 + 16 * (ptn % 32)) 3 data {})
/-- ROLE_CHALLENGE, ROLE_RESPONSE, ROLE_DROP, INSTALLER_KEY_WRITE, AUDIT_ENTRY_READ (R741-R744, R754). -/
def execRoleChallenge (w : OdSrc) (s : State) : Host.Outcome State Fault Refusal := .next (odReadCmd s w 0x2000 2)
def execRoleResponse (w : OdSrc) (data : List Byte) (ok : Bool) (s : State) : Host.Outcome State Fault Refusal := .next (odWriteCmd s w 0x2000 3 data { ok := ok })
def execRoleDrop (w : OdSrc) (s : State) : Host.Outcome State Fault Refusal := .next (odWriteCmd s w 0x2000 4 [1] {})
def execInstallerKeyWrite (w : OdSrc) (data : List Byte) (s : State) : Host.Outcome State Fault Refusal := .next (odWriteCmd s w 0x2000 5 data {})
def execAuditEntryRead (w : OdSrc) (s : State) : Host.Outcome State Fault Refusal := .next (odReadCmd s w 0x2010 3)
/-- READMIT_WRITE, DRILL_WRITE (R792, R800). -/
def execReadmitWrite (w : OdSrc) (data : List Byte) (s : State) : Host.Outcome State Fault Refusal := .next (odWriteCmd s w 0x4000 2 data {})
def execDrillWrite (w : OdSrc) (data : List Byte) (s : State) : Host.Outcome State Fault Refusal := .next (odWriteCmd s w 0x4010 1 data {})
/-- COEFF_WRITE (R929). -/
def execCoeffWrite (w : OdSrc) (data : List Byte) (s : State) : Host.Outcome State Fault Refusal := .next (odWriteCmd s w 0x6100 2 data {})
/-- UPDATE_BEGIN, UPDATE_DATA, UPDATE_VERIFY, UPDATE_CANCEL (R954, R966). -/
def execUpdateBegin (w : OdSrc) (s : State) : Host.Outcome State Fault Refusal := .next (odWriteCmd s w 0x2020 6 [1] {})
def execUpdateData (w : OdSrc) (data : List Byte) (s : State) : Host.Outcome State Fault Refusal := .next (odWriteCmd s w 0x2020 5 data {})
def execUpdateVerify (w : OdSrc) (x : Ext) (s : State) : Host.Outcome State Fault Refusal := .next (odWriteCmd s w 0x2020 6 [2] x)
def execUpdateCancel (w : OdSrc) (s : State) : Host.Outcome State Fault Refusal := .next (odWriteCmd s w 0x2020 6 [3] {})
/-- NF_START, NF_ABORT, NF_POWER_DOWN (R957, R961, R962). -/
def execNfStart (w : OdSrc) (s : State) : Host.Outcome State Fault Refusal := .next (odWriteCmd s w 0x4040 1 [1] {})
def execNfAbort (w : OdSrc) (s : State) : Host.Outcome State Fault Refusal := .next (odWriteCmd s w 0x4040 1 [2] {})
def execNfPowerDown (w : OdSrc) (s : State) : Host.Outcome State Fault Refusal := .next (odWriteCmd s w 0x4040 1 [3] {})
/-- FIELD_NOTES_WRITE, CLEAR_FAULT_LOG (R898, R902). -/
def execFieldNotesWrite (w : OdSrc) (data : List Byte) (ok : Bool) (s : State) : Host.Outcome State Fault Refusal := .next (odWriteCmd s w 0x8020 1 data { ok := ok })
def execClearFaultLog (w : OdSrc) (value : Nat) (s : State) : Host.Outcome State Fault Refusal := .next (odWriteCmd s w 0x8000 9 [BitVec.ofNat 8 value] {})
/-- OD_ENTRY_WRITE (R882). -/
def execOdEntryWrite (w : OdSrc) (idx sub : Nat) (data : List Byte) (s : State) : Host.Outcome State Fault Refusal := .next (odWriteCmd s w idx sub data {})

/-- A request in the PF mailbox, whose OP is not `other` (R848): REQUEST for a reserved OP and for a reserved field or an ERROR that is not
0; while a write waits for its boundary or its group the mailbox is busy with it. -/
def pfOd (s : State) (other : Nat) (x : Ext) : State :=
  let r := mbxRead s 0x2100 4
  let w : OdSrc := { master := .pf }
  let idx := bits r 8 16
  let sub := bits r 24 8
  let n := bits r 32 13
  if !mbxGo s .pf 3 || bits r 0 8 = other || s.ctl.odPend.any (·.w.master == .pf) || s.ctl.odStore.any (·.1.master == .pf) || !odHears s w then s
  else if !(bits r 0 8 == 1 || bits r 0 8 == 2) || bits r 45 19 != 0 || bits r 72 56 != 0 then odAnswer s w true idx sub odREQUEST []
  else if bits r 0 8 = 1 then odReadCmd s w idx sub
  else if n = 0 || 4096 < n then odAnswer s w true idx sub odLENGTH []
  else odWriteCmd s w idx sub ((leBytes (4 * cdiv n 4) (mbxRead s 0x3000 (cdiv n 4))).take n) x
/-- PF_OD_READ, PF_OD_WRITE: the mailbox holds a request with the OP of the other command no longer than that command comes. -/
def execPfOdRead (s : State) : Host.Outcome State Fault Refusal := .next (pfOd s 2 {})
def execPfOdWrite (x : Ext) (s : State) : Host.Outcome State Fault Refusal := .next (pfOd s 1 x)

end Sys2Proof.Machine
end

