-- ==== Sys2Proof/Machine/Thermal.lean ====
section
/-! DEFINITION. Throttling, coolant and pump, reference clocks (R974-R985, R997-R1004). -/

namespace Sys2Proof.Machine
open Sys2Proof

/-- Events of R1003. -/
def plantEvent (s : State) (code : Nat) (payload : List Nat) : State := raisePf s { cls := 0xF, code := code, payload := payload }
/-- Largest of a list of temperatures; `d` for an empty list. -/
def maxI (d : Int) (l : List Int) : Int := match l with
  | [] => d
  | x :: r => r.foldl (fun a b => if a < b then b else a) x
/-- A current condition of a quarter: the average of the readings held, 100 at most, above 520 A, or the reading of this tick above
700 A, in units of 62.5 mA (R976). -/
def currentHigh (q : Quarter) : Bool := 8320 * q.amps.length < sumN q.amps || 11200 < q.amps.headD 0
/-- One management tick of a quarter's clock cap (R975), with THERM_THROTTLE as it leaves 60 and returns to it (R1003). -/
def capTick (s : State) (q : Nat) (hot : Int) : State :=
  let k := getQtr s q
  let cur := currentHigh k
  let s1 := modQtr s q fun k => { k with hot := hot }
  if 98000 ≤ hot || cur then
    let c := if 24 < k.capStep then k.capStep - 1 else 24
    let s2 := modQtr s1 q fun k => { k with capStep := c, calm := 0, throttled := true }
    if k.throttled then s2 else plantEvent s2 1 [q, c, b2n !(decide (98000 ≤ hot)), 1]
  else if hot ≤ 95000 then
    (if k.calm = 9 then
      let c := Nat.min 60 (k.capStep + 1)
      let s2 := modQtr s1 q fun k => { k with capStep := c, calm := 0, throttled := k.throttled && c != 60 }
      if k.throttled && c = 60 then plantEvent s2 1 [q, c, 0, 0] else s2
     else modQtr s1 q fun k => { k with calm := k.calm + 1 })
  else modQtr s1 q fun k => { k with calm := 0 }
/-- Whether demand is 100 % whatever the loop says (R985). -/
def fullDemand (s : State) : Bool := s.boot.coolant.any (· != 1) || s.ras.tripped || s.ras.fatal || s.boot.recovery || !s.boot.mgmt
/-- PUMP_DEMAND at a hottest junction temperature (R983-R985). -/
def pump (s : State) (err : Int) : State :=
  let auto := Config.pumpLoop err s.boot.integral
  let o := odGet s 0x6030 8
  let d := Nat.max (odGet s 0x6030 6) (Nat.min 100 (if o = 255 then auto else o))
  let d := if fullDemand s then 100 else d
  if d = odGet s 0x6030 9 then s else emit (odSet s 0x6030 9 d) (.pin 3 d)
def odInt (s : State) (idx sub : Nat) (x : Int) : State := odSet s idx sub (ofInt 32 (satInt 32 x))
/-- MANAGEMENT_TICK: the hottest samples since the last tick in m°C of the dies of Q0-Q3 and of IOD-N and IOD-S, TEMP_C of the stacks
and of the channels (R974, R975, R984, R1002). -/
def execManagementTick (dies iods : List Int) (nears dimms : List Nat) (s : State) : Host.Outcome State Fault Refusal :=
  .next (
    let s1 := s.modMem fun m => { m with
      nears := m.nears.mapIdx fun i k => { k with temp := nears.getD i k.temp % 256 }, chans := m.chans.mapIdx fun i c => { c with temp := dimms.getD i c.temp % 256 } }
    let hotQ (q : Nat) : Int := maxI 0 (dies.getD q 0 :: (List.range 3).map fun i => ((s1.mem.nears.getD (3 * q + i) {}).temp : Int) * 1000)
    let top := maxI 0 (dies ++ iods)
    let s2 := (List.range 4).foldl (fun s q => odInt (capTick s q (hotQ q)) 0x6020 (q + 2) (hotQ q)) s1
    let s3 := odInt (odInt (odInt s2 0x6020 1 top) 0x6020 6 (iods.getD 0 0)) 0x6020 7 (iods.getD 1 0)
    let s4 := if s3.qtrs.any fun q => q.capStep < 60 then odCount s3 0x6020 9 else s3
    let err := top - (odGet s4 0x6030 7 : Int) * 1000
    pump (s4.modBoot fun b => { b with integral := b.integral + err }) err)

/-- DEVICE_FATAL_FAULT: CAUSE and UID of RAS_FATAL (R766, R788, R808). A rail fault aborts Nightfall (R961). -/
def execDeviceFatalFault (cause uid : Nat) (s : State) : Host.Outcome State Fault Refusal :=
  .next (if 1 ≤ cause && cause ≤ 5 && !s.ras.fatal then fatalFault (if cause = 4 then abortNightfall s else s) cause (uid % 2 ^ 24) else s)
/-- THERM_TRIP: THERM_TRIP_N is asserted until PWR_GOOD_IN falls; device-fatal with cause 3 (R978). The device powers down the rails that it
sequences (R979), and Nightfall ends (R961). The sensor and its temperature, which the command does not carry, are free values (R1003). -/
def execThermTrip (s : State) : Host.Outcome State Fault Refusal :=
  .next (
    if s.ras.tripped then s
    else
      let (i, s0) := fresh (emit ((abortNightfall s).modRas fun r => { r with tripped := true }) (.pin 4 0))
      let (c, s1) := fresh s0
      let s1 := fatalFault (plantEvent s1 2 [Config.free i % 2 ^ 32, Config.free c % 2 ^ 32]) 3 0
      if sequenced s then powerDown s1 else s1)
/-- Rails of the data plane are up. -/
def railsUp (s : State) : Bool := railOrder.flatten.all s.boot.rails.contains
/-- A coolant condition begins; demand follows at once (R982, R985). -/
def coolantOn (s : State) (c : Nat) (e : State → State) : State :=
  if s.boot.coolant.contains c || !railsUp s then s
  else
    let s1 := e (s.modBoot fun b => { b with coolant := b.coolant ++ [c] })
    if fullDemand s1 then pumpFull s1 else s1
/-- FLOW_COMPUTE: pulses of the last second (R980, R982). -/
def execFlowCompute (pulses : Nat) (s : State) : Host.Outcome State Fault Refusal :=
  .next (
    let f := sat 0xFFFFFFFF (pulses * 60000 / odGet s 0x6030 4)
    let s1 := (odSet s 0x6030 1 f).modBoot fun b => { b with edgeAt := if pulses = 0 then b.edgeAt else s.mer.osc }
    if f < odGet s 0x6030 5 then coolantOn s1 0 fun s => plantEvent s 3 [f, 1] else s1)
/-- A thermistor reading: open below −30 °C, shorted above 110 °C (R981). -/
def thermistor (s : State) (c : Nat) (x : Int) : State :=
  if x < -30000 then coolantOn s c fun s => plantEvent s 5 [c - 2, 0]
  else if 110000 < x then coolantOn s c fun s => plantEvent s 5 [c - 2, 1] else s
/-- A reading is reported from −20 °C to 100 °C; beyond, the last one stands (DESIGN CHOICE). -/
def reported (s : State) (sub : Nat) (x : Int) : State := if x < -20000 || 100000 < x then s else odInt s 0x6030 sub x
/-- COOLANT_MEASURE: inlet and outlet in m°C (R981, R982); SENSOR_FAULT counts FLOW_PULSE 0, COOLANT_IN_T 1, COOLANT_OUT_T 2, open 0. -/
def execCoolantMeasure (inlet outlet : Int) (s : State) : Host.Outcome State Fault Refusal :=
  .next (
    let s1 := reported (reported s 2 inlet) 3 outlet
    let s2 := thermistor (thermistor s1 3 inlet) 4 outlet
    let s3 := if s.boot.edgeAt + 5000000000 ≤ s.mer.osc then coolantOn s2 2 fun s => plantEvent s 5 [0, 0] else s2
    if 45000 < inlet && inlet ≤ 110000 then
      match s3.boot.hotSince with
      | none => s3.modBoot fun b => { b with hotSince := some s.mer.osc }
      | some t => if t + 1000000000 ≤ s.mer.osc then coolantOn s3 1 fun s => plantEvent s 4 [ofInt 32 inlet, 1] else s3
    else s3.modBoot fun b => { b with hotSince := none })
/-- COOLANT_CLEAR: a condition has been absent for 10 s (R982). -/
def execCoolantClear (cond : Nat) (s : State) : Host.Outcome State Fault Refusal :=
  .next (
    if !s.boot.coolant.contains cond then s
    else
      let s1 := s.modBoot fun b => { b with coolant := b.coolant.filter (· != cond) }
      if cond = 0 then plantEvent s1 3 [odGet s 0x6030 1, 0] else if cond = 1 then plantEvent s1 4 [odGet s 0x6030 2, 0] else s1)

/-- A reference clock is lost: clocks count REF_25M 0, REF_156M25_N, S, REF_100M_N, S (R1003). -/
def refLost (s : State) (c : Nat) (act : State → State) : State :=
  if s.boot.lostRefs.contains c || !s.boot.mgmt then s
  else plantEvent (act (s.modBoot fun b => { b with lostRefs := b.lostRefs ++ [c] })) 6 [c]
/-- REF25_LOSS: the data plane stops, and Meridian time has no source (R998). -/
def execRef25Loss (s : State) : Host.Outcome State Fault Refusal :=
  .next (refLost s 0 fun s =>
    holdover (setSource ((stopPlane s).modMer fun m => { m with ptp := false, ptpLast := [], pps := false, ppsGood := 0, host := false, slewing := false })))
/-- REF156_LOSS: KQ0-KQ7, or KQ8-KQ15 and the pair link (R999). -/
def fedPorts (south : Bool) : List Nat := if south then [8, 9, 10, 11, 12, 13, 14, 15, 16] else List.range 8
def execRef156Loss (south : Bool) (s : State) : Host.Outcome State Fault Refusal :=
  .next (refLost s (if south then 2 else 1) fun s => (fedPorts south).foldl (fun s n => linkDown s n 2) s)
/-- REF100_LOSS: the links of PX0-PX2, or PX3-PX5 (R999). -/
def execRef100Loss (south : Bool) (s : State) : Host.Outcome State Fault Refusal :=
  .next (refLost s (if south then 4 else 3) fun s => (List.range 6).foldl (fun s i =>
    let l := if south then 6 + i else i
    if (heldBy s l).isSome then after (execDlinkDown l s) s else after (execPcieLinkDown l s) s) s)
/-- REF_CLOCK_RETURN: ports train again under R535, links by their own training; after REF_25M the data plane waits for RST_N
(R998, R999). -/
def execRefClockReturn (clock : Nat) (s : State) : Host.Outcome State Fault Refusal :=
  .next (
    if !s.boot.lostRefs.contains clock then s
    else
      let s1 := s.modBoot fun b => { b with lostRefs := b.lostRefs.filter (· != clock) }
      if clock = 1 || clock = 2 then (fedPorts (clock == 2)).foldl (fun s n => if (linkOf s n).state == 4 then startTraining s n else s) s1 else s1)

end Sys2Proof.Machine
end

