-- ==== Sys2Proof/Machine/Bus.lean ====
section
/-! DEFINITION. The management-bus node (R856-R887): its states, addresses, node control, time, heartbeats, object dictionary transfers. -/

namespace Sys2Proof.Machine
open Sys2Proof

/-- The node goes to another bus state (R862, R903). -/
def setBus (s : State) (b : BusState) : State :=
  if s.mgt.bus = b then s else mgtEvent (s.modMgt fun m => { m with bus := b }) 1 [s.mgt.bus.code, b.code]
/-- MGT_ADDRESS: causes count assigned 0, confirm timeout 1, conflict 2, reset 3, stored 4 (R903; DESIGN CHOICE: the table gives names). -/
def addrEvent (s : State) (addr cause : Nat) : State := mgtEvent s 2 [addr, cause]
/-- The address is dropped, and the node listens as at its start (R862, R863). -/
def dropAddress (s : State) (cause : Nat) : State :=
  let s1 := setBus (s.modMgt fun m => { m with addr := 127, manager := 127, tentative := none, listening := true, bySearch := false }) .unassigned
  addrEvent s1 s.mgt.addr cause
/-- HOT_JOIN (R860, R861); it goes to every node (PRESUMED: the table gives no DEST). -/
def hotJoin (s : State) : State := busSend s { func := 4, dest := 0, src := 127, seq := serial s % 2048, data := leBytes 8 (serial s) }
/-- The node has heard a search end (R863). -/
def rejoin (s : State) : State :=
  hotJoin (setBus (s.modMgt fun m => { m with addr := 127, manager := 127, tentative := none, listening := false, bySearch := false }) .unassigned)
/-- A node that listens hears a search run (R862, R867). -/
def searchHeard (s : State) : State :=
  if s.mgt.bus = .unassigned && s.mgt.listening then setBus (s.modMgt fun m => { m with listening := false, bySearch := true }) .silent else s

/-- What a received frame does (R859, R869): none for a node that is not ready or bus-off, a conflict for its own address in SRC, else its
meaning when its DEST is accepted; `act` counts it as accepted first. -/
def onBus (s : State) (f : BusRx) (act : State → State) : State :=
  if !s.boot.mgmt || s.mgt.busOff then s
  else if s.mgt.bus = .assigned && f.src = s.mgt.addr then dropAddress s 2
  else if f.dest = 0 || f.dest = s.mgt.addr || s.mgt.tentative == some f.dest then act (odCount s 0x1020 1)
  else s
/-- A frame of a function that a SILENT node does not act on (R862). -/
def whenHeard (s : State) (f : BusRx) (act : State → State) : State := onBus s f fun s => if s.mgt.bus = .silent then s else act s

/-- NODE_CTL (R877, R878): not from SRC 127, and only for the serial it names. -/
def nodeCtl (s : State) (f : BusRx) (ser : Nat) (act : State → State) : State :=
  onBus s f fun s => if f.src = 127 || (ser != 0 && ser != serial s) then s else act s
/-- An operation that needs the installer role; without it, it is journalled as refused (R877), with no dictionary entry (DESIGN CHOICE). -/
def asInstaller (s : State) (f : BusRx) (op : Nat) (act : State → State) : State :=
  let w : OdSrc := { master := .bus, node := f.src }
  if roleOf s w = 0 then journal s { auditOf s w 3 0 0 with refused := true, new := op } else act s
def execNcResetComm (f : BusRx) (serial : Nat) (s : State) : Host.Outcome State Fault Refusal := .next (nodeCtl s f serial fun s => dropAddress s 3)
/-- NC_SILENCE, NC_RESUME (R862). -/
def execNcSilence (f : BusRx) (serial : Nat) (s : State) : Host.Outcome State Fault Refusal :=
  .next (nodeCtl s f serial fun s => match s.mgt.bus with
    | .silent | .lone => s
    | b => setBus (s.modMgt fun m => { m with prev := b, bySearch := false }) .silent)
def execNcResume (f : BusRx) (serial : Nat) (s : State) : Host.Outcome State Fault Refusal :=
  .next (nodeCtl s f serial fun s => if s.mgt.bus = .silent && !s.mgt.bySearch then setBus s s.mgt.prev else s)
/-- NC_STORE_ADDR: address and manager address go to the configuration region (R877, R893). -/
def execNcStoreAddr (f : BusRx) (serial : Nat) (s : State) : Host.Outcome State Fault Refusal :=
  .next (nodeCtl s f serial fun s => asInstaller s f 4 fun s =>
    addrEvent (almQueue s (0xE800 + 0x100) (leBytes 1 s.mgt.addr ++ leBytes 1 s.mgt.manager)) s.mgt.addr 4)
/-- NC_WARM_RESET: as by RST_N (R877, R956). -/
def execNcWarmReset (f : BusRx) (serial : Nat) (s : State) : Host.Outcome State Fault Refusal :=
  .next (nodeCtl s f serial fun s => asInstaller s f 5 fun s => if s.boot.lostRefs.contains 0 then s else warmStart (stopPlane s))

/-- CAN_TIME_FRAME: from the manager and in FREERUN it acts as a write of MER_SET (R679, R876). -/
def execCanTimeFrame (f : BusRx) (data : List Byte) (s : State) : Host.Outcome State Fault Refusal :=
  .next (whenHeard s f fun s =>
    if f.src = 127 || f.src != s.mgt.manager || !(s.mer.state == .freerun) then s
    else s.modMer fun m => { m with stepTo := some (leAt data 0 8), tod := 2 })
/-- TIME_FRAME_TX: Meridian time, its state and MER_BOUND (R876). -/
def execTimeFrameTx (s : State) : Host.Outcome State Fault Refusal :=
  .next (
    if !s.boot.mgmt || odGet s 0x1010 7 = 0 then s
    else
      let bound := if s.mer.state == .freerun then 0xFFFFFFFF else sat 0xFFFFFFFF (merBound s)
      let data := leBytes 8 s.mer.ns ++ leBytes 4 (merCode s.mer.state) ++ leBytes 4 bound
      (busSend s { func := 1, dest := 0, src := s.mgt.addr, seq := s.mgt.seqTime, data := data }).modMgt fun m => { m with seqTime := (m.seqTime + 1) % 2048 })

/-- SEARCH_START: after the listen, or with REASSIGN_ALL from ASSIGNED (R862). -/
def execSearchStart (f : BusRx) (reassign : Bool) (s : State) : Host.Outcome State Fault Refusal :=
  .next (whenHeard s f fun s => match s.mgt.bus with
    | .unassigned => if s.mgt.listening then s else setBus s .searching
    | .assigned => if reassign then setBus (s.modMgt fun m => { m with addr := 127 }) .searching else s
    | _ => s)
/-- A SEARCH frame of the device (R864): SEQ is the manager's. -/
def searchFrame (s : State) (f : BusRx) (src : Nat) (data : List Byte) : State := busSend s { func := 3, dest := f.src, src := src, seq := f.seq % 2048, data := data }
/-- SEARCH_PROBE: MATCH when the top n bits of the serial are the prefix's (R865). -/
def execSearchProbe (f : BusRx) (n pfx : Nat) (s : State) : Host.Outcome State Fault Refusal :=
  .next (whenHeard s f fun s =>
    if s.mgt.bus = .searching then
      if 1 ≤ n && n ≤ 64 && serial s / 2 ^ (64 - n) == pfx % 2 ^ 64 / 2 ^ (64 - n) then
        searchFrame s f 127 ([3, BitVec.ofNat 8 n, 0, 0, 0, 0, 0, 0] ++ leBytes 8 pfx)
      else s
    else searchHeard s)
/-- SEARCH_ASSIGN: the address is taken tentatively and acknowledged (R866). -/
def execSearchAssign (f : BusRx) (addr ser : Nat) (s : State) : Host.Outcome State Fault Refusal :=
  .next (whenHeard s f fun s =>
    if s.mgt.bus = .searching then
      if ser = serial s && 1 ≤ addr && addr ≤ 126 then
        searchFrame (s.modMgt fun m => { m with tentative := some addr }) f addr ([5, 0, 0, 0, 0, 0, 0, 0] ++ leBytes 8 ser)
      else s
    else searchHeard s)
/-- SEARCH_CONFIRM: the address becomes the node's own, and SRC the manager address (R862). -/
def execSearchConfirm (f : BusRx) (ser : Nat) (s : State) : Host.Outcome State Fault Refusal :=
  .next (whenHeard s f fun s =>
    if s.mgt.bus = .searching then
      match s.mgt.tentative with
      | some a =>
        if ser != serial s then s
        else addrEvent (setBus (s.modMgt fun m => { m with addr := a, manager := f.src, tentative := none }) .assigned) a 0
      | none => s
    else searchHeard s)
/-- SEARCH_END (R862, R867): a SILENT node acts on it too. -/
def execSearchEnd (f : BusRx) (s : State) : Host.Outcome State Fault Refusal :=
  .next (onBus s f fun s => if s.mgt.bus = .searching || (s.mgt.bus = .silent && s.mgt.bySearch) then rejoin s else s)
/-- SEARCH_HEARD: a SEARCH frame other than START or END, to whomever, during the listen (R862). -/
def execSearchHeard (f : BusRx) (s : State) : Host.Outcome State Fault Refusal :=
  .next (if !s.boot.mgmt || s.mgt.busOff || f.src = s.mgt.addr && s.mgt.bus = .assigned then s else searchHeard s)
/-- CAN_HEARTBEAT_RX: only the pair partner's matters (R786, R873, R874). -/
def execCanHeartbeatRx (f : BusRx) (serial : Nat) (s : State) : Host.Outcome State Fault Refusal :=
  .next (onBus s f fun s =>
    if serial != 0 && serial = (linkOf s 16).serial then s.modFab fun b => { b with heardAt := s.mer.ns, silent := false } else s)
/-- ADDRESS_CONFLICT (R869). -/
def execAddressConflict (s : State) : Host.Outcome State Fault Refusal := .next (if s.boot.mgmt && s.mgt.bus = .assigned then dropAddress s 2 else s)

/-- LISTEN_END (R862, R863). -/
def execListenEnd (s : State) : Host.Outcome State Fault Refusal :=
  .next (if s.boot.mgmt && s.mgt.bus = .unassigned && s.mgt.listening then hotJoin (s.modMgt fun m => { m with listening := false }) else s)
/-- CONFIRM_TIMEOUT (R862). -/
def execConfirmTimeout (s : State) : Host.Outcome State Fault Refusal :=
  .next (match s.mgt.bus, s.mgt.tentative with
    | .searching, some a => addrEvent (s.modMgt fun m => { m with tentative := none }) a 1
    | _, _ => s)
/-- SILENT_SEARCH_TIMEOUT (R862). -/
def execSilentSearchTimeout (s : State) : Host.Outcome State Fault Refusal := .next (if s.mgt.bus = .silent && s.mgt.bySearch then rejoin s else s)
/-- ACK_ERROR_LIMIT: 16 consecutive ACK errors (R871, R887). -/
def execAckErrorLimit (s : State) : Host.Outcome State Fault Refusal :=
  .next (if !s.boot.mgmt then s else match s.mgt.bus with
    | .lone | .silent => s
    | b => setBus ((odCount (odCount s 0x1020 3 16) 0x1020 6).modMgt fun m => { m with prev := b }) .lone)
/-- LONE_FRAME_ACKED: back to PREV, and the queued events follow in order (R872). -/
def execLoneFrameAcked (s : State) : Host.Outcome State Fault Refusal :=
  .next (if s.mgt.bus = .lone then
      let s1 := odCount (s.modMgt fun m => { m with bus := m.prev, loneQueue := [] }) 0x1020 2
      mgtEvent (s.mgt.loneQueue.foldl sendFrame s1) 1 [3, s.mgt.prev.code]
    else s)
/-- The hottest junction temperature in °C, 0 to 255 (R873). -/
def hottest (s : State) : Nat :=
  let t := [1, 6, 7].map fun i => toInt 32 (odGet s 0x6020 i)
  sat 255 (maxI 0 t / 1000).toNat
/-- HEARTBEAT (R873). -/
def heartbeat (s : State) : State :=
  let flags := packBits [(1, b2n s.boot.mgmt), (1, b2n s.boot.ready), (1, b2n s.ras.fatal), (1, b2n s.fab.degraded), (1, b2n (s.boot.nfState == 1)), (1, b2n s.eph.running)]
  let data := leBytes 8 (serial s) ++ leBytes 1 flags ++ leBytes 1 (merCode s.mer.state + 8 * s.fab.pairPos) ++ leBytes 1 (s.cons.filter (·.role == .spare)).length
    ++ leBytes 1 (hottest s) ++ [0, 0, 0, 0]
  (busSend s { func := 7, dest := 0, src := s.mgt.addr, seq := s.mgt.seqBeat, data := data }).modMgt fun m => { m with seqBeat := (m.seqBeat + 1) % 2048 }
/-- LONE_PROBE_TIMER, HEARTBEAT_PERIOD (R872, R873). -/
def execLoneProbeTimer (s : State) : Host.Outcome State Fault Refusal := .next (if s.boot.mgmt && s.mgt.bus = .lone then heartbeat s else s)
def execHeartbeatPeriod (s : State) : Host.Outcome State Fault Refusal :=
  .next (if !s.boot.mgmt || s.mgt.bus = .lone || s.mgt.bus = .silent || (s.mgt.bus = .unassigned && s.mgt.listening) then s else heartbeat s)
/-- HOT_JOIN_BACKOFF: after three failures the join is sent again (R868). -/
def execHotJoinBackoff (s : State) : Host.Outcome State Fault Refusal :=
  .next (if s.mgt.bus = .unassigned && s.mgt.joinFails = 3 then hotJoin (s.modMgt fun m => { m with joinFails := 0 }) else s)
/-- CAN_IGNORED_FRAME, CAN_ERROR_FRAME (of a HOT_JOIN with `join`, into bus-off with `off`), CAN_BUS_OFF_RECOVERY (R856, R858, R868, R887). -/
def execCanIgnoredFrame (s : State) : Host.Outcome State Fault Refusal := .next (if s.boot.mgmt then odCount s 0x1020 4 else s)
def execCanErrorFrame (join off : Bool) (s : State) : Host.Outcome State Fault Refusal :=
  .next (if !s.boot.mgmt then s else (odCount s 0x1020 4).modMgt fun m => { m with
    busOff := m.busOff || off, joinFails := if join && m.bus == .unassigned then sat 3 (m.joinFails + 1) else m.joinFails })
def execCanBusOffRecovery (s : State) : Host.Outcome State Fault Refusal :=
  .next (if s.mgt.busOff then odCount (s.modMgt fun m => { m with busOff := false }) 0x1020 5 else s)

/-- Source of a transfer's frames (R861, R878). -/
def xferSrc (f : BusRx) (hdr : Nat) : OdSrc := { master := .bus, node := f.src, txn := bits f.seq 7 3, hdr := hdr }
def dropOdXfer (s : State) (w : OdSrc) : State := s.modMgt fun m => { m with xfers := m.xfers.filter fun x => !(x.src == w.node && x.txn == w.txn) }
/-- A request identical in header to the one answered within the second receives the same answer (R881). -/
def keptAnswer (s : State) (w : OdSrc) (func : Nat) : Option State :=
  (s.mgt.kept.find? fun k => k.src == w.node && k.txn == w.txn && k.func == func && k.hdr == w.hdr).map fun k => k.frames.foldl busSend s
/-- Segment 0 of a request: answered again, refused for its header, or carried on with index, subindex and LENGTH (R879-R883). -/
def firstSegment (s : State) (w : OdSrc) (write : Bool) (go : State → Nat → Nat → Nat → State) : State :=
  let idx := bits w.hdr 0 16
  let sub := bits w.hdr 16 8
  let n := bits w.hdr 24 13
  match keptAnswer s w (if write then 5 else 6) with
  | some t => t
  | none =>
    let s1 := dropOdXfer s w
    if bits w.hdr 37 27 != 0 then odAnswer s1 w write idx sub odREQUEST []
    else if (if write then 4096 else 0) < n then odAnswer s1 w write idx sub odLENGTH []
    else go s1 idx sub n
/-- CAN_OD_READ: one segment; the answer holds the value (R879, R881). A frame with RESP or another SEG is no request. -/
def execCanOdRead (f : BusRx) (data : List Byte) (s : State) : Host.Outcome State Fault Refusal :=
  .next (whenHeard s f fun s =>
    let w := xferSrc f (leAt data 0 8)
    if f.src = 127 || bits f.seq 10 1 != 0 || bits f.seq 0 7 != 0 then s
    else firstSegment s w false fun s idx sub _ => odReadCmd s w idx sub)
/-- CAN_OD_WRITE: a segment of a write, carried out once whole (R879, R880). A later segment without its transfer is ignored (DESIGN
CHOICE). -/
def execCanOdWrite (f : BusRx) (data : List Byte) (x : Ext) (s : State) : Host.Outcome State Fault Refusal :=
  .next (whenHeard s f fun s =>
    let seg := bits f.seq 0 7
    if f.src = 127 || bits f.seq 10 1 != 0 then s
    else if seg = 0 then
      let w := xferSrc f (leAt data 0 8)
      firstSegment s w true fun s idx sub n =>
        let d := padTo 56 (data.drop 8)
        if n ≤ 56 then odWriteCmd s w idx sub (d.take n) x
        else if 16 ≤ s.mgt.xfers.length then odAnswer s w true idx sub odBUSY []
        else s.modMgt fun m => { m with xfers := m.xfers ++ [{ src := w.node, txn := w.txn, hdr := w.hdr, data := d.take 56, next := 1 }] }
    else match s.mgt.xfers.find? fun t => t.src == f.src && t.txn == bits f.seq 7 3 with
      | none => s
      | some t =>
        let w := xferSrc f t.hdr
        let idx := bits t.hdr 0 16
        let sub := bits t.hdr 16 8
        let n := bits t.hdr 24 13
        let d := t.data ++ (padTo 64 data).take 64
        if seg != t.next then odAnswer (dropOdXfer s w) w true idx sub odSEQUENCE []
        else if n ≤ d.length then odWriteCmd (dropOdXfer s w) w idx sub (d.take n) x
        else s.modMgt fun m => { m with xfers := updIf (fun t => t.src == w.node && t.txn == w.txn) (fun t => { t with data := d, next := seg + 1 }) m.xfers })
/-- OD_SEGMENT_TIMEOUT: 100 ms without the next segment; nothing is applied (R880). -/
def execOdSegmentTimeout (src txn : Nat) (s : State) : Host.Outcome State Fault Refusal :=
  .next (match s.mgt.xfers.find? fun t => t.src == src && t.txn == txn with
    | none => s
    | some t =>
      let w : OdSrc := { master := .bus, node := src, txn := txn, hdr := t.hdr }
      odAnswer (dropOdXfer s w) w true (bits t.hdr 0 16) (bits t.hdr 16 8) odTIMEOUT [])
/-- OD_ANSWER_EXPIRY (R881). -/
def execOdAnswerExpiry (src txn : Nat) (s : State) : Host.Outcome State Fault Refusal :=
  .next (s.modMgt fun m => { m with kept := m.kept.filter fun k => !(k.src == src && k.txn == txn) })

end Sys2Proof.Machine
end

