-- ==== Sys2Proof/Machine/Prefetch.lean ====
section
/-! DEFINITION. The prefetcher (R450-R455): what it reads ahead at a cycle boundary. -/

namespace Sys2Proof.Machine
open Sys2Proof

/-- Tiles of a prefetch area (R450). -/
def areaTiles : Nat := 256
/-- Cycles looked ahead; none while the prefetcher is off (R458). -/
def prefetchDepth (s : State) : Nat := if regFld s 0x300010 0 1 = 0 then 0 else Nat.max 1 (regFld s 0x300010 1 2)
/-- The entries of the cycles it reads, cycle by cycle (R451). The first of them is the cycle that begins (DEDUCED, log 68). -/
def entriesAhead (s : State) : List (Nat × Nat × Entry) :=
  ((List.range (prefetchDepth s)).map fun k => tableOf (s.modEph fun e => { e with cycle := (e.cycle + k) % 2 ^ 48 })).flatten
/-- Requests whose work the dispatcher will offer an entry, in wait order and up to CAP_A (R117, R451). -/
def offered (s : State) (e : Entry) : List Nat :=
  let ts := (s.work.tasks.filter fun t => t.state == .ready && t.kind == 1 && t.cls == e.cls && t.ptn == e.ptn).filterMap fun t =>
    (if e.cls = 4 then t.serves else t.request).map fun h => (if t.attempt = 0 then t.readyNs + 1 else 0, h)
  let rs := if e.cls = 1 || e.cls = 2 then (s.serve.reqs.filter fun r => r.ptn == e.ptn && reqReady r e.cls).map fun r => (Nat.max r.acceptedAt r.waitNs + 1, r.handle) else []
  let gs := if e.cls = 5 then (s.serve.reqs.filter fun r => r.ptn == e.ptn && (pagesOf s r).any (·.state == .sealing)).map fun r => (1, r.handle) else []
  let qs := if e.cls = 4 then (s.serve.held.filter (·.ptn == e.ptn)).map fun q => (1, q.handle) else []
  let hs := ((sortBy (·.1) (ts ++ rs ++ gs ++ qs)).map (·.2)).eraseDups
  if e.capA = 0 then hs else hs.take e.capA
/-- Load the unstaged open pages of a request into the slot's clusters, where there is room (R244, R451). -/
def loadOpen (cs : List Nat) (s : State) (h : Nat) : State :=
  match findReq s h with
  | none => s
  | some r => ((pagesOf s r).filter fun g => (g.state == .open || g.state == .sealing) && g.stage.isNone).foldl (fun s g =>
      if (chooseLoad s cs (openBlocks g.geo)).isSome then wantLoad s cs g else s) s
/-- Near tiles of the sealed leaves of a request, in ascending page order (R451, R453). -/
def leafCopies (s : State) (h : Nat) : List Nat :=
  match findReq s h with
  | none => []
  | some r => ((sortBy (fun g => g.position * 256 + g.layer) ((pagesOf s r).filter fun g => g.state == .sealed && g.nearValid)).map fun g =>
      (List.range g.slotTiles).map (g.nearAddr + ·)).flatten
/-- The constellation whose area serves a request in an entry: that of its staged open page, else the entry's first (DESIGN CHOICE, log 68). -/
def areaOf (s : State) (cons : List Nat) (h : Nat) : Option Nat :=
  let staged := (findReq s h).bind fun r => (pagesOf s r).findSome? fun g => g.stage.bind fun x => if cons.contains (x.1 / 16) then some (x.1 / 16) else none
  match staged with
  | some l => physOf s l
  | none => (cons.filterMap (physOf s)).head?
/-- Copies that the compute entries ahead ask for, as (physical constellation, Near tile), in their order. -/
def copiesWanted (s : State) : List (Nat × Nat) :=
  ((entriesAhead s).filter fun x => [1, 2, 4, 5].contains x.2.2.cls).foldl (fun l x =>
    let cons := entryCons s x.1 x.2.1 x.2.2
    (offered s x.2.2).foldl (fun l h => match areaOf s cons h with
      | some phys => l ++ ((leafCopies s h).map (phys, ·)).filter fun c => !l.contains c
      | none => l) l) []
/-- The area of a constellation after a scan: of the copies wanted, up to its size, those it has, and of the others as many as the
bandwidth above the contract brings, a free number (R452; log 68). The tiles read are counted (R908, R919). -/
def fillArea (want : List (Nat × Nat)) (s : State) (phys : Nat) : State :=
  let ts := (want.filter (·.1 == phys)).take areaTiles
  let new := ts.filter fun c => !s.mem.area.contains c
  let (k, s0) := if new.isEmpty then (0, s) else fresh s
  let got := if new.isEmpty then [] else new.take (Config.free k % (new.length + 1))
  let s1 := s0.modMem fun m => { m with area := m.area.filter (fun c => c.1 != phys || ts.contains c) ++ got }
  let p := (getCon s phys).logical.bind (ownerOf s)
  got.foldl (fun s c => telMem (countTile s p c.2 false) (tileRes s c.2) 2) s1
/-- A page's Far tiles are read into mover staging for a send, or not: a free choice (R451, R452; log 68). -/
def fetchSend (s : State) (x : Xfer) : State :=
  match x.what with
  | .send p n _ =>
    match findPage s p n with
    | some g =>
      if !g.farValid || x.fetched then s
      else
        let (k, s1) := fresh s
        if Config.free k % 2 = 0 then s1
        else
          let len := if g.packedLen = 0 then g.slotTiles else cdiv g.packedLen 64
          let s2 := (List.range len).foldl (fun s i => telMem (countTile s (some p) (farTile0 + g.farAddr + i) false) (tileRes s (farTile0 + g.farAddr + i)) 2) s1
          s2.modServe fun w => { w with xfers := updIf (·.id == x.id) (fun x => { x with fetched := true }) w.xfers }
    | none => s
  | _ => s
/-- What the prefetcher does at a boundary (R451): records and open pages of the requests that the coming compute entries will be offered,
copies of their sealed leaves, and the Far tiles that the coming send entries take. No result depends on it (R455). -/
def prefetchScan (s : State) : State :=
  let es := entriesAhead s
  let s1 := (es.filter fun x => [1, 2, 4, 5].contains x.2.2.cls).foldl (fun s x =>
    let hs := (offered s x.2.2).filter fun _ => !isolated s x.2.2.ptn
    hs.foldl (loadOpen (entryClusters s x.1 x.2.1 x.2.2)) (hs.foldl loadRsr s)) s
  let want := copiesWanted s1
  let s2 := ((want.map (·.1)).eraseDups).foldl (fillArea want) s1
  let sends := (es.filter fun x => x.2.2.cls == 0x18 && x.2.2.action % 4 == 1).foldl (fun l x =>
    let ws := s2.serve.xfers.filter fun y => y.ptn == x.2.2.ptn && y.kind == 1 && !y.running && !y.coding
    l ++ (startXfers x.2.2.capA x.2.2.capB 0 0 ws).filter fun i => !l.contains i) []
  (s2.serve.xfers.filter fun y => sends.contains y.id).foldl fetchSend s2

end Sys2Proof.Machine
end

