-- ==== Sys2Proof/Machine/Cycle.lean ====
section
/-! DEFINITION. The ephemeris cycle boundary (R82): time, the end of a cycle, what waits for a boundary, image switches, and the
start of the next cycle. -/

namespace Sys2Proof.Machine
open Sys2Proof

/-- CYCLE_TICKS in force (R81); with no image, those of the image whose switch is armed (R108), else the default cycle of 64 µs (R303; DESIGN
CHOICE: the rules give no cycle without an image). -/
def cycleTicks (s : State) : Nat :=
  Nat.max 1 (match image s, (if s.eph.armed then otherBank s else none) with
    | some im, _ => im.cycleTicks
    | none, some im => im.cycleTicks
    | none, none => 16000)
/-- The instant of the next boundary in ns: a multiple of T_eph (R82), or the end of the step cycle (R666). -/
def nextBoundary (s : State) : Nat :=
  let t := 4 * cycleTicks s
  match s.eph.stepEnd with
  | some e => e
  | none => ((if s.eph.running then s.eph.cycleAt else now s) / t + 1) * t
/-- Time passes to the boundary; a step cycle that ends there sets the time state (R665, R666). -/
def arrive (s : State) : State :=
  let s1 := passTime s (nextBoundary s - now s)
  if s.eph.stepEnd.isNone then s1 else afterStep (s1.modEph fun e => { e with stepEnd := none })

/-- A slot that aborts across a boundary stands under a section number that no entry has, and its tasks with it: the entries of the new cycle,
and of a new image, are others (R125, R126). -/
def crossSlot (s : State) (sec ent : Nat) : State :=
  match findSlot s sec ent with
  | none => s
  | some r =>
    if !r.aborting || r.crossed then s
    else (modSlot s sec ent fun r => { r with crossed := true, sec := sec + 8 }).modWork fun w => { w with
      tasks := updIf (·.slot == some (sec, ent)) (fun t => { t with slot := some (sec + 8, ent) }) w.tasks }
/-- Work that still runs at a boundary stops as under ABORT; entries of the cycle that ends no longer run (R119, R120). Work that the boundary
cuts off before its slipped end is reported and counted as an overrun with policy ABORT and 0 ticks (DESIGN CHOICE, log 89: R120 says only
that it stops). -/
def endSlot (s : State) (r : RunSlot) : State :=
  let mark (s : State) : State := crossSlot s r.sec r.ent
  if r.aborting then mark s
  else if r.borrow.isSome then mark (after (execBorrowEnd r.sec r.ent false s) s)
  else if slotBusy s r.sec r.ent then
    mark (match entryNow s r.sec r.ent with
    | some e => abortSlot (overrunEvent s r.sec r.ent e 1 0) r.sec r.ent
    | none => abortSlot s r.sec r.ent)
  else dropSlot s r.sec r.ent
/-- The largest slip of the cycle, once a partition (R128). -/
def slipEvents (s : State) : State := s.eph.worst.foldl (fun s w => raiseBoth s w.1 { cls := 1, code := 2, payload := [w.2.1, w.2.2] }) s
/-- Serving events, once a partition and code (R508). -/
def serveEvents (s : State) : State :=
  s.serve.marks.foldl (fun s m =>
    let lv := ofInt 64 (sget (fun _ => 0) s.serve.levelAt m.ptn)
    raiseBoth s m.ptn { cls := 5, code := m.code, payload := if m.code = 3 then [lv % 2 ^ 32, lv / 2 ^ 32] else [m.count] }) s
/-- TEL_SKIP, once a ring (R912, R938). -/
def skipEvents (s : State) : State := s.tel.skips.foldl (fun s e => raisePf s { cls := 0xD, code := 1, payload := [e.1, e.2] }) s
/-- MOV_TIER_WAIT, once a partition and tier while a move or an eviction waits for space (R30, R392). -/
def tierEvents (s : State) : State :=
  (List.range 32).foldl (fun s p => [0, 1].foldl (fun s tier =>
    let n := (s.serve.xfers.filter fun x => x.ptn == p && x.stuck == some tier).length
    if n = 0 then s else raiseBoth s p { cls := 4, code := 1, payload := [tier, n] }) s) s
/-- What ends with a cycle; slips return to zero, and the end of an abort gives its units the delay in the new cycle (R121, R125). -/
def endCycle (s : State) : State :=
  let s0 := tierEvents (skipEvents (serveEvents (slipEvents (s.eph.slots.foldl endSlot s))))
  -- a wake lead that wraps belongs to the cycle that begins (R116)
  let s1 := s0.modCons fun cs => cs.map fun c => { c with leads := (c.leads.filter (·.2.2)).map fun x => (x.1, x.2.1, false) }
  ((s1.modEph fun e => { e with worst := [], slip := [], skipped := [], held := [], xfer := [], bridge := [], pcie := [] }).modServe
    fun w => { w with marks := [] }).modTel (fun t => { t with skips := [] }) |>.modFab fun b => { b with told := [] }

/-- A step of Meridian time, and the step cycle that it begins (R665, R666, R679). -/
def stepTime (s : State) : State :=
  let t := 4 * cycleTicks s
  let n := stepped s
  let e := cdiv (2 * n.1 + t) (2 * t) * t
  let num := (e / t - 1) % 2 ^ 48
  let d := ofInt 64 ((n.1 : Int) - s.mer.ns)
  let s1 := (s.modMer fun m => { m with ns := n.1 % 2 ^ 64, frac := n.2, stepBy := none, stepTo := none }).modEph fun x => { x with
    stepEnd := some e, cycleAt := n.1 % 2 ^ 64, cycle := if x.running then num else x.cycle }
  merEvent s1 2 [d % 2 ^ 32, d / 2 ^ 32, num % 2 ^ 32, num / 2 ^ 32]
/-- The new cycle's number and start, with its step when one is due (R82); credit-based service follows the time state (R663). -/
def newCycle (s : State) : State :=
  let s := s.modRegs fun g => { g with reads := [] }
  let s1 := if stepDue s then stepTime s
    else s.modEph fun e => { e with
      cycleAt := if e.running then s.mer.ns else e.cycleAt, cycle := if e.running then s.mer.ns / (4 * cycleTicks s) % 2 ^ 48 else e.cycle }
  s1.modEph fun e => { e with credit := s1.mer.state == .adrift }

/-- Commits that wait for the boundary (R763, R826, R827). -/
def boundaryCommits (s : State) : State :=
  let s1 := match s.regs.pending with | some m => commitPoint s m | none => s
  (List.range 32).foldl (fun s p => if (getPtn s p).cmtPending then commitWindow s p else s) s1

/-- The number of the cycle that begins, also while no image is in force (R108). -/
def cycleNow (s : State) : Nat := if s.eph.running then s.eph.cycle else s.mer.ns / (4 * cycleTicks s)
/-- An armed switch is due: at its cycle, as EPH_SWITCH_CYCLE then reads (log 76); one that a forward step skips, at the end of the step
cycle (R109, R668). -/
def switchDue (s : State) : Bool :=
  s.eph.armed && (if s.eph.stepEnd.isSome then switchCycle s == cycleNow s else decide (switchCycle s ≤ cycleNow s))
/-- A switch is refused: cause 0 FPRINT, 1 N1 (R111, R134; the codes: log 76). -/
def switchFail (s : State) (cause : Nat) : State :=
  raisePf (s.modEph fun e => { e with armed := false, switchResult := 5 + cause }) { cls := 1, code := 7, payload := [cause] }
/-- A fingerprint record of the switch (R893). -/
def fprintRecord (s : State) (im : Image) : State :=
  let active := sumN ((List.range 32).map fun p => if (getPtn s p).state == .active then 2 ^ p else 0)
  let r := leBytes 8 s.mer.ns ++ leBytes 8 im.imageId ++ leBytes 8 im.fprint ++ leBytes 4 (getReg s 0x304).toNat ++ leBytes 4 active
  (almQueue s (0xE800 + 0x280 + 32 * s.alm.fprintHead) r).modAlm fun a => { a with fprintHead := (a.fprintHead + 1) % 32 }
/-- Row cache sizes come into force; rows of the partitions whose size changes go (R518). -/
def cacheSizes (s : State) : State :=
  let size (p : Nat) : Nat := odGet s (0x91E0 + p) 1
  let kept := (s.work.rows.filter fun f => size f.ptn == cnt s.tabs.cache f.ptn)
  (s.modWork fun w => { w with rows := kept }).modTabs fun t => { t with cache := (List.range 32).foldl (fun m p => cntSet m p (size p)) t.cache }
/-- The changes of granules that waited for a switch take effect: one that a partition held is cleared (R114, R729). -/
def grantLater (s : State) : State :=
  (s.mem.later.foldl (fun s e => if e.2.isSome then clearGranule s e.1 else s) s).modMem fun m => { m with later := [] }
/-- The other bank's image comes into force (R97, R109, R112, R448). The cycle number is Meridian time divided by T_new (R113); that of a
step cycle is the number of the cycle after it, minus 1 (R666). Granules given to ACTIVE partitions take effect (R114). -/
def switchTo (s : State) (im : Image) : State :=
  let t := 4 * Nat.max 1 im.cycleTicks
  let k := (match s.eph.stepEnd with | some e => e / t - 1 | none => s.mer.ns / t) % 2 ^ 48
  let s1 := s.modEph fun e => { e with
    active := 1 - e.active, running := true, armed := false, switchResult := 2, loadState := if e.running then 2 else 0
    cycle := k, cycleAt := s.mer.ns, gates := gatesAt im e.n1 k }
  let s2 := fprintRecord (cacheSizes (wakeMem (grantLater s1))) im
  raisePf s2 { cls := 1, code := 6, payload := [im.imageId % 2 ^ 32, im.imageId / 2 ^ 32, k % 2 ^ 32, k / 2 ^ 32] }
/-- EPH_SWITCH at the boundary: refused when the layout's fingerprint is another, or a variant in force has no segment in the new image
(R111, R134). -/
def switchImage (s : State) : State :=
  if !switchDue s then s
  else match otherBank s with
    | none => s
    | some im =>
      if im.fprint != fingerprint s then switchFail s 0
      else if s.eph.n1.any fun v => im.sections.all fun sc => (sc.dir.getD (v.1 * 4 + v.2.1) (0, 0)).2 == 0 then switchFail s 1
      else switchTo s im

/-- Sets that hold a granule of a lost stack become STACK mode (R449). -/
def brokenSets (s : State) : State :=
  if !s.mem.nears.any (·.lost) then s
  else (List.range 768).foldl (fun t g =>
    let m := granMode s g
    if m != 0 && (setOf g (if m = 1 then 3 else 12)).any fun x => stackLost s (x % 12) then setReg t (ngranOff g) (getReg t (ngranOff g) &&& 0xFFFFFF3F) else t) s
/-- CLOCK entries of the cycle give the image clocks of the constellations they name (R98). -/
def clockEntries (s : State) : State :=
  ((tableOf s).filter fun x => x.2.2.cls == 9).foldl (fun s x =>
    (entryCons s x.1 x.2.1 x.2.2).foldl (fun s l => match physOf s l with
      | some p => modCon s p fun c => { c with clkImage := x.2.2.action % 128 }
      | none => s) s) s
/-- Star clocks, rails, idle constellations (R57, R68-R71, R75, R977). -/
def plantBoundary (s : State) : State := (List.range 160).foldl restIdle (applyRails (applyClocks (clockEntries s)))

/-- The refill of a bucket (R479). -/
def refill (s : State) (p : Nat) : State :=
  let depth := budgetDepth s p
  if isolated s p || depth = 0 then s
  else
    let x := odGet s (0x91A0 + p) 1 * (cycleTicks s * 4 / 1000) + cnt s.serve.remain p
    let v := level s p + (x / 1000 : Nat)
    setLevel (s.modServe fun w => { w with remain := cntSet w.remain p (x % 1000) }) p (if (depth * 1000 : Nat) < v then ((depth * 1000 : Nat) : Int) else v)
/-- Staged pages that meet a condition of R247 are marked for write-back; `ended` is the cycle that ended. -/
def markPages (s : State) (ended : Nat) : State :=
  s.serve.pages.foldl (fun s g =>
    let quiet (r : Req) : Bool := r.ptn == g.ptn && r.pageNum g.layer g.position == some g.num && (r.wbEvery || r.lastCycle != ended % 2 ^ 32)
    let dims : Bool := match g.stage with
      | some (c, _) => serviceOf s (c / 16) == .dimming
      | none => false
    if (g.state == .open || g.state == .sealing) && g.stage.isSome && !g.dirty.isEmpty && !isolated s g.ptn && (g.marked || dims || s.serve.reqs.any quiet) then queueWriteback s g.ptn g.num else s) s
/-- A remote read cache for each ACTIVE partition that has a size and no cache yet (R607, R615). -/
def readCaches (s : State) : State :=
  (List.range 32).foldl (fun s p =>
    let n := odGet s (0x9200 + p) 3
    if (getPtn s p).state != .active || n = 0 || s.fab.rrcAt.any (·.1 == p) then s
    else match allocTiles s p false 0 0 n with
      | some (tile, s1) => s1.modFab fun b => { b with rrcAt := b.rrcAt ++ [(p, tile, n)] }
      | none => s) s
/-- What serving does at a boundary: refills before any slot, table epochs, plans, moves (R297, R380, R479, R483). -/
def serveBoundary (s : State) (ended : Nat) : State :=
  let s1 := (List.range 32).foldl refill s
  let live (p : Nat) : Bool := !isolated s p
  let s2 := s1.modServe fun w => { w with
    levelAt := w.levels
    epochCount := (List.range 32).foldl (fun m p => if live p then cntSet m p (cnt m p + 1) else m) w.epochCount
    ageCount := (List.range 32).foldl (fun m p => if live p then cntSet m p (cnt m p + 1) else m) w.ageCount
    reqs := w.reqs.map fun r => { r with lenAt := r.length, nextAt := r.nextIndex } }
  let s3 := s2.modTabs fun t => { t with age := (List.range 32).foldl (fun m p => if live p then cntSet m p (cnt m p + 1) else m) t.age }
  progressAll (switchPlans (turnCurrent (markPages s3 ended)))
/-- KQ_QS_CTL.MODE comes into force: V, every F and every deficit return to 0 (R640). -/
def queueModes (s : State) : State :=
  s.modFab fun b => { b with links := b.links.mapIdx fun n l =>
    let m := regFld s (portBase n + 0x200) 0 1
    if l.mode = m then l else { l with mode := m, vtime := 0, finish := [], deficit := [] } }

/-- CYCLE_BOUNDARY (R82). Commits come first, then what the two masters have written, then an armed switch (R110, R827). `fails` are
the DAWN carriers whose shadow or configuration CRC fails (R791). -/
def execCycleBoundary (fails : List (Nat × Nat)) (s : State) : Host.Outcome State Fault Refusal :=
  .next (
    if !s.boot.mgmt then s
    else
      let s0 := endCycle (arrive s)
      let s1 := newCycle (if s.eph.held.isEmpty then s0 else resumeAccesses s0)
      let s2 := switchImage (applyOdPend (boundaryCommits s1))
      let s3 := applyComps (rasBoundary fails (brokenSets s2))
      prefetchScan (queueModes (readCaches (serveBoundary (plantBoundary s3) s.eph.cycle))))

end Sys2Proof.Machine
end

