-- ==== Sys2Proof/Machine/Dispatch.lean ====
section
/-! DEFINITION. One arm per command: a direct call of its meaning. -/

namespace Sys2Proof.Machine
open Sys2Proof

def exec (i : Instr) (s : State) : Host.Outcome State Fault Refusal :=
  match i with
  | .coldReset straps imgA imgB => Sys2Proof.Machine.execColdReset straps imgA imgB s
  | .pwrGoodLoss => Sys2Proof.Machine.execPwrGoodLoss s
  | .warmResetAssert => Sys2Proof.Machine.execWarmResetAssert s
  | .warmResetRelease => Sys2Proof.Machine.execWarmResetRelease s
  | .vfFlr ptn => Sys2Proof.Machine.execVfFlr ptn s
  | .regWrite v off value => Sys2Proof.Machine.execRegWrite v off value s
  | .aliasWrite v off value => Sys2Proof.Machine.execAliasWrite v off value s
  | .pairLoWrite v off value => Sys2Proof.Machine.execPairLoWrite v off value s
  | .pairHiWrite v off value => Sys2Proof.Machine.execPairHiWrite v off value s
  | .badAccessWrite v off => Sys2Proof.Machine.execBadAccessWrite v off s
  | .cycleBoundary fails => Sys2Proof.Machine.execCycleBoundary fails s
  | .wakeLeadReached sec ent wraps => Sys2Proof.Machine.execWakeLeadReached sec ent wraps s
  | .wakeComplete phys => Sys2Proof.Machine.execWakeComplete phys s
  | .sleepDrainDone phys => Sys2Proof.Machine.execSleepDrainDone phys s
  | .sramInitDone phys => Sys2Proof.Machine.execSramInitDone phys s
  | .railSettled quarter => Sys2Proof.Machine.execRailSettled quarter s
  | .computeSlotStart sec ent fails => Sys2Proof.Machine.execComputeSlotStart sec ent fails s
  | .entryEnd sec ent => Sys2Proof.Machine.execEntryEnd sec ent s
  | .barrierComplete sec ent => Sys2Proof.Machine.execBarrierComplete sec ent s
  | .slotOverrun sec ent => Sys2Proof.Machine.execSlotOverrun sec ent s
  | .borrowEnd sec ent finished => Sys2Proof.Machine.execBorrowEnd sec ent finished s
  | .abortEnd sec ent => Sys2Proof.Machine.execAbortEnd sec ent s
  | .contractExceeded who cls measured => Sys2Proof.Machine.execContractExceeded who cls measured s
  | .moverEntryStart sec ent => Sys2Proof.Machine.execMoverEntryStart sec ent s
  | .tierTransferDone xfer => Sys2Proof.Machine.execTierTransferDone xfer s
  | .transferEntryStart sec ent => Sys2Proof.Machine.execTransferEntryStart sec ent s
  | .bridgeEntryStart sec ent => Sys2Proof.Machine.execBridgeEntryStart sec ent s
  | .gateEntry sec ent => Sys2Proof.Machine.execGateEntry sec ent s
  | .refreshWindow sec ent => Sys2Proof.Machine.execRefreshWindow sec ent s
  | .recalMemWindow sec ent => Sys2Proof.Machine.execRecalMemWindow sec ent s
  | .recalSerdesWindow sec ent => Sys2Proof.Machine.execRecalSerdesWindow sec ent s
  | .recalSerdesWindowEnd sec ent => Sys2Proof.Machine.execRecalSerdesWindowEnd sec ent s
  | .ephLoadStart abort => Sys2Proof.Machine.execEphLoadStart abort s
  | .ephLoadAbort => Sys2Proof.Machine.execEphLoadAbort s
  | .ephLoadDone translated completed image models => Sys2Proof.Machine.execEphLoadDone translated completed image models s
  | .ephSwitchArm => Sys2Proof.Machine.execEphSwitchArm s
  | .ephSwitchDisarm => Sys2Proof.Machine.execEphSwitchDisarm s
  | .ringProdWrite v ring value => Sys2Proof.Machine.execRingProdWrite v ring value s
  | .ringConsWrite v ring value => Sys2Proof.Machine.execRingConsWrite v ring value s
  | .taskProgram v desc => Sys2Proof.Machine.execTaskProgram v desc s
  | .taskStatus v desc => Sys2Proof.Machine.execTaskStatus v desc s
  | .taskCancel v desc => Sys2Proof.Machine.execTaskCancel v desc s
  | .taskCounters v desc => Sys2Proof.Machine.execTaskCounters v desc s
  | .instrLdt inst => Sys2Proof.Machine.execInstrLdt inst s
  | .ldtComplete inst tile => Sys2Proof.Machine.execLdtComplete inst tile s
  | .instrStt inst => Sys2Proof.Machine.execInstrStt inst s
  | .sttWritten inst tile => Sys2Proof.Machine.execSttWritten inst tile s
  | .instrMma inst => Sys2Proof.Machine.execInstrMma inst s
  | .instrMmaq inst => Sys2Proof.Machine.execInstrMmaq inst s
  | .instrRope inst => Sys2Proof.Machine.execInstrRope inst s
  | .instrSmax inst => Sys2Proof.Machine.execInstrSmax inst s
  | .instrPv inst => Sys2Proof.Machine.execInstrPv inst s
  | .instrMrg inst => Sys2Proof.Machine.execInstrMrg inst s
  | .instrQnt inst n => Sys2Proof.Machine.execInstrQnt inst n s
  | .instrEnc inst => Sys2Proof.Machine.execInstrEnc inst s
  | .instrRed inst n => Sys2Proof.Machine.execInstrRed inst n s
  | .instrNorm inst n => Sys2Proof.Machine.execInstrNorm inst n s
  | .instrAct inst n => Sys2Proof.Machine.execInstrAct inst n s
  | .instrSamp inst => Sys2Proof.Machine.execInstrSamp inst s
  | .instrStop inst => Sys2Proof.Machine.execInstrStop inst s
  | .instrMov inst n => Sys2Proof.Machine.execInstrMov inst n s
  | .instrSync inst => Sys2Proof.Machine.execInstrSync inst s
  | .instrWait inst => Sys2Proof.Machine.execInstrWait inst s
  | .instrYield inst => Sys2Proof.Machine.execInstrYield inst s
  | .instrEnd inst => Sys2Proof.Machine.execInstrEnd inst s
  | .illegalInstruction inst => Sys2Proof.Machine.execIllegalInstruction inst s
  | .checkpoint64 inst => Sys2Proof.Machine.execCheckpoint64 inst s
  | .reqSubmit v desc => Sys2Proof.Machine.execReqSubmit v desc s
  | .reqContinue v desc => Sys2Proof.Machine.execReqContinue v desc s
  | .reqCancel v desc => Sys2Proof.Machine.execReqCancel v desc s
  | .reqStatus v desc => Sys2Proof.Machine.execReqStatus v desc s
  | .reqToken v desc => Sys2Proof.Machine.execReqToken v desc s
  | .inputReadDone handle ok input stops => Sys2Proof.Machine.execInputReadDone handle ok input stops s
  | .writebackDone xfer => Sys2Proof.Machine.execWritebackDone xfer s
  | .openPageLoaded xfer => Sys2Proof.Machine.execOpenPageLoaded xfer s
  | .tableEpochEnd ptn => Sys2Proof.Machine.execTableEpochEnd ptn s
  | .tableBuildDone ptn model layer => Sys2Proof.Machine.execTableBuildDone ptn model layer s
  | .tableSupply w ptn data => Sys2Proof.Machine.execTableSupply w ptn data s
  | .movePark v desc => Sys2Proof.Machine.execMovePark v desc s
  | .movePromote v desc => Sys2Proof.Machine.execMovePromote v desc s
  | .moveEvict v desc => Sys2Proof.Machine.execMoveEvict v desc s
  | .moveClone v desc => Sys2Proof.Machine.execMoveClone v desc s
  | .moveDrop v desc => Sys2Proof.Machine.execMoveDrop v desc s
  | .movePlan v desc => Sys2Proof.Machine.execMovePlan v desc s
  | .msgInstall dev m => Sys2Proof.Machine.execMsgInstall dev m s
  | .msgPages dev m => Sys2Proof.Machine.execMsgPages dev m s
  | .msgMoveAck dev m => Sys2Proof.Machine.execMsgMoveAck dev m s
  | .msgCommit dev m => Sys2Proof.Machine.execMsgCommit dev m s
  | .msgAbort dev m => Sys2Proof.Machine.execMsgAbort dev m s
  | .msgRef dev m => Sys2Proof.Machine.execMsgRef dev m s
  | .msgRelease dev m => Sys2Proof.Machine.execMsgRelease dev m s
  | .msgFetch dev m => Sys2Proof.Machine.execMsgFetch dev m s
  | .msgQuery dev m => Sys2Proof.Machine.execMsgQuery dev m s
  | .msgPartial dev m => Sys2Proof.Machine.execMsgPartial dev m s
  | .installResend handle => Sys2Proof.Machine.execInstallResend handle s
  | .installDoubt handle => Sys2Proof.Machine.execInstallDoubt handle s
  | .heldAckRepeat handle => Sys2Proof.Machine.execHeldAckRepeat handle s
  | .commitRecordExpiry dev handle => Sys2Proof.Machine.execCommitRecordExpiry dev handle s
  | .refResend handle dev target => Sys2Proof.Machine.execRefResend handle dev target s
  | .receptionExpiry ptn dev handle epoch => Sys2Proof.Machine.execReceptionExpiry ptn dev handle epoch s
  | .pagesBusyRetry handle => Sys2Proof.Machine.execPagesBusyRetry handle s
  | .queryResend handle qid first log => Sys2Proof.Machine.execQueryResend handle qid first log s
  | .evictionStart ptn => Sys2Proof.Machine.execEvictionStart ptn s
  | .heatAging ptn => Sys2Proof.Machine.execHeatAging ptn s
  | .allocRequest v => Sys2Proof.Machine.execAllocRequest v s
  | .freeRequest v => Sys2Proof.Machine.execFreeRequest v s
  | .sramPatrol key corrected bad => Sys2Proof.Machine.execSramPatrol key corrected bad s
  | .nearPatrol tile => Sys2Proof.Machine.execNearPatrol tile s
  | .selfRefreshEntry resource => Sys2Proof.Machine.execSelfRefreshEntry resource s
  | .farChannelLost chan => Sys2Proof.Machine.execFarChannelLost chan s
  | .farScanDone chan => Sys2Proof.Machine.execFarScanDone chan s
  | .stackLost stack => Sys2Proof.Machine.execStackLost stack s
  | .tableRecordWrite v ptn => Sys2Proof.Machine.execTableRecordWrite v ptn s
  | .msgLookup dev m => Sys2Proof.Machine.execMsgLookup dev m s
  | .msgPooled dev m => Sys2Proof.Machine.execMsgPooled dev m s
  | .msgUpdate dev m => Sys2Proof.Machine.execMsgUpdate dev m s
  | .msgUpdateAck dev m => Sys2Proof.Machine.execMsgUpdateAck dev m s
  | .lookupResend task shard => Sys2Proof.Machine.execLookupResend task shard s
  | .rowHeatAging ptn => Sys2Proof.Machine.execRowHeatAging ptn s
  | .portTrained port lanes => Sys2Proof.Machine.execPortTrained port lanes s
  | .attestComplete port => Sys2Proof.Machine.execAttestComplete port s
  | .trainTimeout port => Sys2Proof.Machine.execTrainTimeout port s
  | .backoffExpiry port => Sys2Proof.Machine.execBackoffExpiry port s
  | .anSignalDetected port => Sys2Proof.Machine.execAnSignalDetected port s
  | .kqRetrain port => Sys2Proof.Machine.execKqRetrain port s
  | .linkSpdmCell port c outcome reply => Sys2Proof.Machine.execLinkSpdmCell port c outcome reply s
  | .linkHello port c => Sys2Proof.Machine.execLinkHello port c s
  | .linkDownNotice port c => Sys2Proof.Machine.execLinkDownNotice port c s
  | .cellData port c => Sys2Proof.Machine.execCellData port c s
  | .cellAck port c => Sys2Proof.Machine.execCellAck port c s
  | .cellNak port c => Sys2Proof.Machine.execCellNak port c s
  | .cellIdle port c => Sys2Proof.Machine.execCellIdle port c s
  | .cellTime port c m => Sys2Proof.Machine.execCellTime port c m s
  | .lossOfSignal port lane => Sys2Proof.Machine.execLossOfSignal port lane s
  | .delinTimeout port => Sys2Proof.Machine.execDelinTimeout port s
  | .ackTimer port => Sys2Proof.Machine.execAckTimer port s
  | .nakRepeatTimer port => Sys2Proof.Machine.execNakRepeatTimer port s
  | .replayTimeout port => Sys2Proof.Machine.execReplayTimeout port s
  | .pairUnpairedTimeout => Sys2Proof.Machine.execPairUnpairedTimeout s
  | .mkaSakInstalled port => Sys2Proof.Machine.execMkaSakInstalled port s
  | .mkaPeerTimeout port => Sys2Proof.Machine.execMkaPeerTimeout port s
  | .pfcFrame port pause => Sys2Proof.Machine.execPfcFrame port pause s
  | .ethFrameRx port f => Sys2Proof.Machine.execEthFrameRx port f s
  | .egressSend port => Sys2Proof.Machine.execEgressSend port s
  | .memRead m => Sys2Proof.Machine.execMemRead m s
  | .memReadData m => Sys2Proof.Machine.execMemReadData m s
  | .memWrite m => Sys2Proof.Machine.execMemWrite m s
  | .memComplete m => Sys2Proof.Machine.execMemComplete m s
  | .memMsgNak m => Sys2Proof.Machine.execMemMsgNak m s
  | .memFetchAdd m => Sys2Proof.Machine.execMemFetchAdd m s
  | .memSwap m => Sys2Proof.Machine.execMemSwap m s
  | .memCas m => Sys2Proof.Machine.execMemCas m s
  | .memAtomicData m => Sys2Proof.Machine.execMemAtomicData m s
  | .memInvalidate m => Sys2Proof.Machine.execMemInvalidate m s
  | .memInvAck m => Sys2Proof.Machine.execMemInvAck m s
  | .topologyMsg dev ports => Sys2Proof.Machine.execTopologyMsg dev ports s
  | .topologyPeriod => Sys2Proof.Machine.execTopologyPeriod s
  | .reassemblyTimeout src msgId => Sys2Proof.Machine.execReassemblyTimeout src msgId s
  | .msgReplyTimeout id => Sys2Proof.Machine.execMsgReplyTimeout id s
  | .noContextTimeout src msgId => Sys2Proof.Machine.execNoContextTimeout src msgId s
  | .streamContextExpiry src stream => Sys2Proof.Machine.execStreamContextExpiry src stream s
  | .invalidateResend id => Sys2Proof.Machine.execInvalidateResend id s
  | .routeTableLoad w data => Sys2Proof.Machine.execRouteTableLoad w data s
  | .windowTableWrite w ptn data => Sys2Proof.Machine.execWindowTableWrite w ptn data s
  | .ptpMessageRx port m => Sys2Proof.Machine.execPtpMessageRx port m s
  | .ptpSyncTx port => Sys2Proof.Machine.execPtpSyncTx port s
  | .ppsInEdge offset spacing freq => Sys2Proof.Machine.execPpsInEdge offset spacing freq s
  | .sourceLost source => Sys2Proof.Machine.execSourceLost source s
  | .boundExceedsGuard => Sys2Proof.Machine.execBoundExceedsGuard s
  | .slewDone => Sys2Proof.Machine.execSlewDone s
  | .ppsOutRise => Sys2Proof.Machine.execPpsOutRise s
  | .ppsOutFall => Sys2Proof.Machine.execPpsOutFall s
  | .merHostOfsWrite value => Sys2Proof.Machine.execMerHostOfsWrite value s
  | .merHostFreqWrite value => Sys2Proof.Machine.execMerHostFreqWrite value s
  | .merSetWrite hi => Sys2Proof.Machine.execMerSetWrite hi s
  | .merNowRead => Sys2Proof.Machine.execMerNowRead s
  | .hostServoSilence => Sys2Proof.Machine.execHostServoSilence s
  | .bar2Read ptn tag off len => Sys2Proof.Machine.execBar2Read ptn tag off len s
  | .bar2Atomic ptn tag off op data => Sys2Proof.Machine.execBar2Atomic ptn tag off op data s
  | .bar2Write ptn => Sys2Proof.Machine.execBar2Write ptn s
  | .atsInvalidate link => Sys2Proof.Machine.execAtsInvalidate link s
  | .ideKmProgram id link fn => Sys2Proof.Machine.execIdeKmProgram id link fn s
  | .ideIntegrityFail id cause => Sys2Proof.Machine.execIdeIntegrityFail id cause s
  | .tdispLockInterface ptn => Sys2Proof.Machine.execTdispLockInterface ptn s
  | .slotPowerOff link => Sys2Proof.Machine.execSlotPowerOff link s
  | .releaseGraceExpiry link => Sys2Proof.Machine.execReleaseGraceExpiry link s
  | .dlinkDown link => Sys2Proof.Machine.execDlinkDown link s
  | .dlinkRequest link target => Sys2Proof.Machine.execDlinkRequest link target s
  | .qpCreate v => Sys2Proof.Machine.execQpCreate v s
  | .qpModify v => Sys2Proof.Machine.execQpModify v s
  | .qpDestroy v => Sys2Proof.Machine.execQpDestroy v s
  | .qpQuery v => Sys2Proof.Machine.execQpQuery v s
  | .qpRegMr v => Sys2Proof.Machine.execQpRegMr v s
  | .qpDeregMr v => Sys2Proof.Machine.execQpDeregMr v s
  | .roceRxWrite port p => Sys2Proof.Machine.execRoceRxWrite port p s
  | .roceRxRead port p => Sys2Proof.Machine.execRoceRxRead port p s
  | .roceRxFetchAdd port p => Sys2Proof.Machine.execRoceRxFetchAdd port p s
  | .roceRxCompareSwap port p => Sys2Proof.Machine.execRoceRxCompareSwap port p s
  | .roceRxSend port p => Sys2Proof.Machine.execRoceRxSend port p s
  | .roceRxAck port p => Sys2Proof.Machine.execRoceRxAck port p s
  | .roceRxResponse port p => Sys2Proof.Machine.execRoceRxResponse port p s
  | .roceRxNak port p => Sys2Proof.Machine.execRoceRxNak port p s
  | .roceRxCnp port p => Sys2Proof.Machine.execRoceRxCnp port p s
  | .roceAckTimeout ix => Sys2Proof.Machine.execRoceAckTimeout ix s
  | .dcqcnRateTimer ix => Sys2Proof.Machine.execDcqcnRateTimer ix s
  | .qpContextLoaded ix outcome => Sys2Proof.Machine.execQpContextLoaded ix outcome s
  | .cmReq c => Sys2Proof.Machine.execCmReq c s
  | .cmRep c => Sys2Proof.Machine.execCmRep c s
  | .cmRtu c => Sys2Proof.Machine.execCmRtu c s
  | .cmRej c => Sys2Proof.Machine.execCmRej c s
  | .cmDreq c => Sys2Proof.Machine.execCmDreq c s
  | .cmDrep c => Sys2Proof.Machine.execCmDrep c s
  | .ptpTxRingEntry desc => Sys2Proof.Machine.execPtpTxRingEntry desc s
  | .cmTxRingEntry desc => Sys2Proof.Machine.execCmTxRingEntry desc s
  | .ptnProvision w ptn => Sys2Proof.Machine.execPtnProvision w ptn s
  | .ptnActivate w ptn => Sys2Proof.Machine.execPtnActivate w ptn s
  | .ptnDrain w ptn => Sys2Proof.Machine.execPtnDrain w ptn s
  | .ptnFence w ptn => Sys2Proof.Machine.execPtnFence w ptn s
  | .ptnUnfence w ptn => Sys2Proof.Machine.execPtnUnfence w ptn s
  | .ptnRelease w ptn => Sys2Proof.Machine.execPtnRelease w ptn s
  | .scrubComplete ptn => Sys2Proof.Machine.execScrubComplete ptn s
  | .constellationsWrite w ptn data => Sys2Proof.Machine.execConstellationsWrite w ptn data s
  | .roleChallenge w => Sys2Proof.Machine.execRoleChallenge w s
  | .roleResponse w data ok => Sys2Proof.Machine.execRoleResponse w data ok s
  | .roleDrop w => Sys2Proof.Machine.execRoleDrop w s
  | .roleIdleTimeout m => Sys2Proof.Machine.execRoleIdleTimeout m s
  | .lockoutExpiry m => Sys2Proof.Machine.execLockoutExpiry m s
  | .installerKeyWrite w data => Sys2Proof.Machine.execInstallerKeyWrite w data s
  | .auditEntryRead w => Sys2Proof.Machine.execAuditEntryRead w s
  | .ptnCmtStrobe v ptn nextCycle => Sys2Proof.Machine.execPtnCmtStrobe v ptn nextCycle s
  | .ptnCrcPassEnd ptn => Sys2Proof.Machine.execPtnCrcPassEnd ptn s
  | .heartbeatTimeout phys => Sys2Proof.Machine.execHeartbeatTimeout phys s
  | .unitInternalFault phys detector => Sys2Proof.Machine.execUnitInternalFault phys detector s
  | .wakeTimeout phys => Sys2Proof.Machine.execWakeTimeout phys s
  | .replayStart spare => Sys2Proof.Machine.execReplayStart spare s
  | .readmitWrite w data => Sys2Proof.Machine.execReadmitWrite w data s
  | .readmitDone phys result => Sys2Proof.Machine.execReadmitDone phys result s
  | .spareTestDue phys fails => Sys2Proof.Machine.execSpareTestDue phys fails s
  | .drillWrite w data => Sys2Proof.Machine.execDrillWrite w data s
  | .partnerSilent => Sys2Proof.Machine.execPartnerSilent s
  | .pairResyncDone => Sys2Proof.Machine.execPairResyncDone s
  | .deviceFatalFault cause uid => Sys2Proof.Machine.execDeviceFatalFault cause uid s
  | .thermTrip => Sys2Proof.Machine.execThermTrip s
  | .lockstepMismatch imgA imgB => Sys2Proof.Machine.execLockstepMismatch imgA imgB s
  | .cmtStrobe => Sys2Proof.Machine.execCmtStrobe s
  | .cmtDiscard => Sys2Proof.Machine.execCmtDiscard s
  | .cfgCrcPassEnd => Sys2Proof.Machine.execCfgCrcPassEnd s
  | .msixUnmask fn vector => Sys2Proof.Machine.execMsixUnmask fn vector s
  | .pfOdRead => Sys2Proof.Machine.execPfOdRead s
  | .pfOdWrite x => Sys2Proof.Machine.execPfOdWrite x s
  | .odEntryWrite w idx sub data => Sys2Proof.Machine.execOdEntryWrite w idx sub data s
  | .ncResetComm f serial => Sys2Proof.Machine.execNcResetComm f serial s
  | .ncSilence f serial => Sys2Proof.Machine.execNcSilence f serial s
  | .ncResume f serial => Sys2Proof.Machine.execNcResume f serial s
  | .ncStoreAddr f serial => Sys2Proof.Machine.execNcStoreAddr f serial s
  | .ncWarmReset f serial => Sys2Proof.Machine.execNcWarmReset f serial s
  | .canTimeFrame f data => Sys2Proof.Machine.execCanTimeFrame f data s
  | .timeFrameTx => Sys2Proof.Machine.execTimeFrameTx s
  | .searchStart f reassign => Sys2Proof.Machine.execSearchStart f reassign s
  | .searchProbe f n pfx => Sys2Proof.Machine.execSearchProbe f n pfx s
  | .searchAssign f addr serial => Sys2Proof.Machine.execSearchAssign f addr serial s
  | .searchConfirm f serial => Sys2Proof.Machine.execSearchConfirm f serial s
  | .searchEnd f => Sys2Proof.Machine.execSearchEnd f s
  | .searchHeard f => Sys2Proof.Machine.execSearchHeard f s
  | .canHeartbeatRx f serial => Sys2Proof.Machine.execCanHeartbeatRx f serial s
  | .addressConflict => Sys2Proof.Machine.execAddressConflict s
  | .canOdWrite f data x => Sys2Proof.Machine.execCanOdWrite f data x s
  | .canOdRead f data => Sys2Proof.Machine.execCanOdRead f data s
  | .listenEnd => Sys2Proof.Machine.execListenEnd s
  | .confirmTimeout => Sys2Proof.Machine.execConfirmTimeout s
  | .silentSearchTimeout => Sys2Proof.Machine.execSilentSearchTimeout s
  | .ackErrorLimit => Sys2Proof.Machine.execAckErrorLimit s
  | .loneFrameAcked => Sys2Proof.Machine.execLoneFrameAcked s
  | .loneProbeTimer => Sys2Proof.Machine.execLoneProbeTimer s
  | .heartbeatPeriod => Sys2Proof.Machine.execHeartbeatPeriod s
  | .hotJoinBackoff => Sys2Proof.Machine.execHotJoinBackoff s
  | .odSegmentTimeout src txn => Sys2Proof.Machine.execOdSegmentTimeout src txn s
  | .odAnswerExpiry src txn => Sys2Proof.Machine.execOdAnswerExpiry src txn s
  | .almanacGroupStart => Sys2Proof.Machine.execAlmanacGroupStart s
  | .almanacGroupDone fail => Sys2Proof.Machine.execAlmanacGroupDone fail s
  | .fieldNotesWrite w data ok => Sys2Proof.Machine.execFieldNotesWrite w data ok s
  | .clearFaultLog w value => Sys2Proof.Machine.execClearFaultLog w value s
  | .nfcInventory n mask => Sys2Proof.Machine.execNfcInventory n mask s
  | .nfcStayQuiet uid => Sys2Proof.Machine.execNfcStayQuiet uid s
  | .nfcSelect uid => Sys2Proof.Machine.execNfcSelect uid s
  | .nfcResetToReady who => Sys2Proof.Machine.execNfcResetToReady who s
  | .nfcGetSystemInfo who extended => Sys2Proof.Machine.execNfcGetSystemInfo who extended s
  | .nfcReadBlocks who first count => Sys2Proof.Machine.execNfcReadBlocks who first count s
  | .nfcWriteBlock who block data => Sys2Proof.Machine.execNfcWriteBlock who block data s
  | .nfcUnsupported who => Sys2Proof.Machine.execNfcUnsupported who s
  | .telWindowBoundary => Sys2Proof.Machine.execTelWindowBoundary s
  | .acctSnapshot => Sys2Proof.Machine.execAcctSnapshot s
  | .acctLatch => Sys2Proof.Machine.execAcctLatch s
  | .energyFit => Sys2Proof.Machine.execEnergyFit s
  | .pmbusPoll reads => Sys2Proof.Machine.execPmbusPoll reads s
  | .coeffWrite w data => Sys2Proof.Machine.execCoeffWrite w data s
  | .railInRange rail mv => Sys2Proof.Machine.execRailInRange rail mv s
  | .railWindowExpiry rail => Sys2Proof.Machine.execRailWindowExpiry rail s
  | .railFault rail => Sys2Proof.Machine.execRailFault rail s
  | .dataReadyReached train => Sys2Proof.Machine.execDataReadyReached train s
  | .startWatchdog imgA imgB => Sys2Proof.Machine.execStartWatchdog imgA imgB s
  | .updateBegin w => Sys2Proof.Machine.execUpdateBegin w s
  | .updateData w data => Sys2Proof.Machine.execUpdateData w data s
  | .updateVerify w x => Sys2Proof.Machine.execUpdateVerify w x s
  | .updateCancel w => Sys2Proof.Machine.execUpdateCancel w s
  | .nfStart w => Sys2Proof.Machine.execNfStart w s
  | .nfAbort w => Sys2Proof.Machine.execNfAbort w s
  | .nfPowerDown w => Sys2Proof.Machine.execNfPowerDown w s
  | .nfSliceEnd found => Sys2Proof.Machine.execNfSliceEnd found s
  | .nfHoldEnd found => Sys2Proof.Machine.execNfHoldEnd found s
  | .managementTick dies iods nears dimms => Sys2Proof.Machine.execManagementTick dies iods nears dimms s
  | .flowCompute pulses => Sys2Proof.Machine.execFlowCompute pulses s
  | .coolantMeasure inlet outlet => Sys2Proof.Machine.execCoolantMeasure inlet outlet s
  | .coolantClear cond => Sys2Proof.Machine.execCoolantClear cond s
  | .ref25Loss => Sys2Proof.Machine.execRef25Loss s
  | .ref156Loss south => Sys2Proof.Machine.execRef156Loss south s
  | .ref100Loss south => Sys2Proof.Machine.execRef100Loss south s
  | .rcRegisterRead v off => Sys2Proof.Machine.execRcRegisterRead v off s
  | .delineationCheck port hcrcOk ccrcOk => Sys2Proof.Machine.execDelineationCheck port hcrcOk ccrcOk s
  | .routeTableComputed table => Sys2Proof.Machine.execRouteTableComputed table s
  | .msgIdFreed dev msgId => Sys2Proof.Machine.execMsgIdFreed dev msgId s
  | .pcieLinkDown link => Sys2Proof.Machine.execPcieLinkDown link s
  | .pcieLinkUp link rate width => Sys2Proof.Machine.execPcieLinkUp link rate width s
  | .refClockReturn clock => Sys2Proof.Machine.execRefClockReturn clock s
  | .tdispStartInterface ptn => Sys2Proof.Machine.execTdispStartInterface ptn s
  | .tdispStopInterface ptn => Sys2Proof.Machine.execTdispStopInterface ptn s
  | .canIgnoredFrame => Sys2Proof.Machine.execCanIgnoredFrame s
  | .canErrorFrame join off => Sys2Proof.Machine.execCanErrorFrame join off s
  | .canBusOffRecovery => Sys2Proof.Machine.execCanBusOffRecovery s
  | .nfcFieldOn => Sys2Proof.Machine.execNfcFieldOn s
  | .nfcFieldOff => Sys2Proof.Machine.execNfcFieldOff s
  | .unitHeartbeat phys => Sys2Proof.Machine.execUnitHeartbeat phys s

end Sys2Proof.Machine
end

