-- ==== Sys2Proof/Machine/Step.lean ====
section
/-! DEFINITION. One step: the command at the front of the queue takes effect. -/

namespace Sys2Proof.Machine
open Sys2Proof

/-- One step of the block: the front command, with the rest of the queue left waiting. With no command waiting, Meridian time
advances by one 4 ns tick (DESIGN CHOICE: the time base runs whatever is commanded, and the table has no row for a tick). -/
def step (s : State) : Host.Outcome State Fault Refusal :=
  match s.pending with
  | [] => .next (passTime s 4)
  | c :: rest => exec c { s with pending := rest }

/-- The command that a word spells at the front of the queue; a word that spells none changes nothing. -/
def State.withFetchWord (s : State) (nbits w : Nat) : State :=
  match decodeTableWord nbits w with
  | some c => { s with pending := c :: s.pending }
  | none => s

end Sys2Proof.Machine
end

