-- ==== Sys2Proof/Safety.lean ====
section
/-! DEFINITION. What counts as a safe state and a safe step, in the terms that statements use. -/

namespace Sys2Proof.Machine
open Sys2Proof

/-- The block's fixed population: 160 physical constellations, 4 quarters and 32 partitions (R40, R41, R729), 12 Near stacks and 16
Far channels (R406), 17 cell links with the pair link (R532, R558), 12 PCIe links (R681), four precise-record buffers (R915). -/
def State.shaped (s : State) : Bool :=
  s.cons.length == 160 && s.qtrs.length == 4 && s.ptns.length == 32 && s.mem.nears.length == 12 && s.mem.chans.length == 16 &&
  s.fab.links.length == 17 && s.px.links.length == 12 && s.px.comps.length == 32 && s.tel.precise.length == 4

/-- The canonical form of a memory of bytes: addresses rising, no byte listed that is what an unlisted one reads as, 0. -/
def Memory.wf (m : List (Nat × Byte)) : Bool := swf byte0 m
/-- The sparse stores of the registers and of the object dictionary and the bytes of SRAM and of the tiers are in their canonical form:
keys rising, no key listed at the value that it reads as unlisted. -/
def State.canonical (s : State) : Bool := swf resetValue s.regs.store && swf odDefault s.ctl.od && Memory.wf s.work.sram && Memory.wf s.mem.bytes

/-- Every waiting command is well formed. -/
def State.commandsWf (s : State) : Bool := s.pending.all Instr.wf

/-- The parts of the state. The queue is none of them: no command touches it. -/
inductive Part where
  | out | freeCount | regs | cons | qtrs | eph | work | tabs | mem | serve
  | fab | px | ptns | ctl | mgt | alm | tel | mer | ras | boot
  deriving DecidableEq, Repr

/-- Every part. -/
def allParts : List Part :=
  [.out, .freeCount, .regs, .cons, .qtrs, .eph, .work, .tabs, .mem, .serve, .fab, .px, .ptns, .ctl, .mgt, .alm, .tel, .mer, .ras, .boot]

/-- Two states agree on a part. -/
def agree (s t : State) : Part → Prop
  | .out => t.out = s.out
  | .freeCount => t.freeCount = s.freeCount
  | .regs => t.regs = s.regs
  | .cons => t.cons = s.cons
  | .qtrs => t.qtrs = s.qtrs
  | .eph => t.eph = s.eph
  | .work => t.work = s.work
  | .tabs => t.tabs = s.tabs
  | .mem => t.mem = s.mem
  | .serve => t.serve = s.serve
  | .fab => t.fab = s.fab
  | .px => t.px = s.px
  | .ptns => t.ptns = s.ptns
  | .ctl => t.ctl = s.ctl
  | .mgt => t.mgt = s.mgt
  | .alm => t.alm = s.alm
  | .tel => t.tel = s.tel
  | .mer => t.mer = s.mer
  | .ras => t.ras = s.ras
  | .boot => t.boot = s.boot

/-- From `s` to `t` only the parts listed may have changed; the queue has not. -/
def ChangesOnly (ps : List Part) (s t : State) : Prop := t.pending = s.pending ∧ ∀ p, p ∉ ps → agree s t p

/-- From `s` the command ends in a next state, which meets `P`; from `s` to it only the parts listed may have changed. -/
def Does (c : Instr) (s : State) (ps : List Part) (P : State → Prop) : Prop := ∃ t, exec c s = .next t ∧ P t ∧ ChangesOnly ps s t

/-- The parts that reporting an event may change: the rings and their interrupts, the bus copy and its counters, the fault log (R839,
R842, R875, R892). -/
def reporting : List Part := [.out, .regs, .ctl, .mgt, .alm, .tel]

/-- Every BAR0 register but those listed holds the value it held. -/
def RegsUnchanged (except : List Nat) (s t : State) : Prop := ∀ off, off ∉ except → getReg t off = getReg s off
/-- Every object dictionary value but those listed, as (index, subindex), is what it was. -/
def OdUnchanged (except : List (Nat × Nat)) (s t : State) : Prop := ∀ key, key ∉ except.map (fun e => odKey e.1 e.2) → sget odDefault t.ctl.od key = sget odDefault s.ctl.od key
/-- Every physical constellation but those listed is as it was. -/
def ConsUnchanged (except : List Nat) (s t : State) : Prop := ∀ k, k ∉ except → getCon t k = getCon s k
/-- The slot that an entry opens at its start: its partition, its constellations and stars, and the slip of its units (R119, R122). -/
def openedSlot (s : State) (sec ent : Nat) (e : Entry) : RunSlot :=
  { sec := sec, ent := ent, ptn := e.ptn, cons := entryCons s sec ent e, stars := entryStars s sec ent e, slip := entrySlip s sec ent e }
/-- An entry has ended in `u`: it holds no window, and its cell, bridge and PCIe capacity is gone; a compute slot of it that neither aborts nor
borrows is gone (R94, R101, R1005). -/
def entryGone (s : State) (sec ent : Nat) (u : State) : Prop :=
  (∀ x ∈ u.eph.held, ¬(x.1 = sec ∧ x.2.1 = ent)) ∧ (∀ x ∈ u.eph.xfer, ¬(x.1 = sec ∧ x.2.1 = ent)) ∧ (∀ x ∈ u.eph.bridge, ¬(x.1 = sec ∧ x.2.1 = ent)) ∧
  (∀ x ∈ u.eph.pcie, ¬(x.1 = sec ∧ x.2.1 = ent)) ∧ u.eph.slip = s.eph.slip ∧
  ∀ e, entryNow s sec ent = some e → isCompute e.cls = true →
    (∀ r, findSlot s sec ent = some r → r.aborting = false ∧ r.borrow = none) → findSlot u sec ent = none
/-- A ring that has room, and for which nothing waits, has one record more. -/
def oneMore (s t : State) (ring : Nat) : Prop :=
  ringFree s ring ≠ 0 → ringWaits s ring = 0 → ringHeld s ring = false → cnt t.regs.ringCount ring = cnt s.regs.ringCount ring + 1
/-- From `s` to `t` a constellation is lost: it is failed, DEEP and without a logical number, its loss is counted, no other constellation
changes, and no register but the cause of the interrupt and the count (R769, R770). -/
def ConLost (phys : Nat) (s t : State) : Prop :=
  (getCon t phys).role = .failed ∧ (getCon t phys).pwr = .deep ∧ (getCon t phys).logical = none ∧ (getCon t phys).losses = (getCon s phys).losses + 1 ∧
  ConsUnchanged [phys] s t ∧ RegsUnchanged [0x400, 0x700040] s t

/-- Every port but one is as it was, but that a topology message may have joined its queues (R592). -/
def PortsKept (n : Nat) (s t : State) : Prop :=
  ∀ k, k ≠ n → { linkOf t k with queues := (linkOf s k).queues, finish := (linkOf s k).finish } = linkOf s k
/-- A move descriptor of a verb stands next in an open ring and passes every check against its request (R355, R356). -/
abbrev moveActs (v : View) (desc : BitVec 512) (verb : Nat) (s : State) (r : Req) : Prop :=
  ringOpen s v (subRing v 2) = true ∧ mvVerb desc.toNat = verb ∧ mvStatus (ringTake s (subRing v 2)) v desc.toNat = 0 ∧
  findReq s (mvReq desc.toNat) = some r
/-- One answer of a status went to a device, and nothing else left the block (R363). -/
def sentAnswer (s t : State) (dev op st : Nat) : Prop := ∃ a, t.out = s.out ++ [Out.state dev op (stateClass s a.srcPtn op) (stateHeader op a) a] ∧ a.status = st
/-- An instance that no one has asked to stop is at an instruction that it can issue, whose encoding is not reserved and that runs once
(R177, R180, R185). -/
abbrev runsOnce (s : State) (inst opc : Nat) (i : Inst) (t : Task) (x : Ins) : Prop :=
  ready s inst opc = some (i, t, x) ∧ commonOk i x = true ∧ executions i x = some 1 ∧ i.stop = none
/-- An operand of an instruction's first execution lies at a key, all its lines in its space: 0 DST, 1 SRCA, 2 SRCB (R178, R180). -/
abbrev operandAt (s : State) (i : Inst) (t : Task) (x : Ins) (which n key : Nat) : Prop := opKey s i t x which n 0 = some key
/-- No page with a mirror or a write-through is staged in the bytes from a key on, so that a store there has no second place (R264, R266). -/
def unmirrored (s : State) (key n : Nat) : Prop :=
  ∀ g ∈ s.serve.pages, (g.mirror.isSome || g.through) = true → ∀ c b, g.stage = some (c, b) →
    key + n ≤ stageKey s c b ∨ stageKey s c b + openBlocks g.geo * 4096 ≤ key
/-- The operands of a product with a KVQ width: where they lie, the values of the 32 rows of each source, and the accumulators that the
product starts from (R194, R199, R204, R278, R312). -/
def productOf (s : State) (w : Nat) (i : Inst) (t : Task) (x : Ins) (ka kb kd : Nat) (a b : List Num) (c : List Nat) : Prop :=
  let k := kOf x (x.spec 103 7)
  let st := rowBlocks (reqOf s i) k
  operandAt s i t x 1 (matLines x.fa w k st) ka ∧ operandAt s i t x 2 (matLines x.fb w k st) kb ∧ operandAt s i t x 0 (fmtLines x.fd 1024) kd ∧
  matVals s t.ptn x.fa w ka k st 0 = .ok a ∧ matVals s t.ptn x.fb w kb k st 0 = .ok b ∧ accOf s i x kd = some c ∧
  unmirrored s kd (operandBytes x.fd 1024)
/-- The instance has gone on to the next instruction. -/
abbrev goesOn (u : State) (inst : Nat) (i : Inst) : Prop := (findInst u inst).map (·.pc) = some (i.pc + 16)
/-- SRAM from a key holds the bytes given, and every other byte of SRAM is what it was. -/
def stored (s u : State) (key : Nat) (bs : List Byte) : Prop :=
  sramRead u key bs.length = bs ∧ ∀ k, k < key ∨ key + bs.length ≤ k → sget byte0 u.work.sram k = sget byte0 s.work.sram k
/-- FP32 accumulators stand at a destination in its format and are kept for the product that follows (R204). -/
def accumulated (s u : State) (inst : Nat) (x : Ins) (key : Nat) (acc : List Nat) : Prop :=
  stored s u key (writeNums x.fd none (acc.map r32)) ∧ ∃ j, findInst u inst = some j ∧ (key, x.fd, acc) ∈ j.acc
/-- The table record that stands in a record window's mailbox (R509, R510). -/
def mbxRecord (v : View) (ptn : Nat) (s : State) : TabRec :=
  let raw := leBytes 128 (mbxRead s (mbxTable v) 32)
  { ptn := (viewPtn v).getD ptn, num := leAt raw 0 1, rec_ := raw }
/-- A message is the next of its stream and applies at once: it opens a stream, or its STREAM_SEQ is the one its context wants, nothing
waits, and every check of it passes (R580, R594-R600). -/
abbrev inTurn (s : State) (m : MemMsg) : Prop :=
  halted s = false ∧ s.fab.held = [] ∧ memStatus s m = 0 ∧ msgHeld s m = false ∧
  ((findStream s m.src m.stream = none ∧ m.sseq = 0 ∧ (s.fab.streams.filter fun c => c.opener % 2 == m.msgId % 2).length < 65536) ∨
   (m.sseq ≠ 0 ∧ ∃ c, findStream s m.src m.stream = some c ∧ seqApplied c m.sseq = false ∧ seqDist c.next m.sseq = 0))
/-- A message waits in the context of its stream, and no byte of the tiers changes (R101). -/
abbrev heldMsg (m : MemMsg) (s t : State) : Prop :=
  t.fab.held = s.fab.held ++ [{ msg := m, wrote := false, since := now s, noCtx := false }] ∧ ∀ a n, tierRead t a n = tierRead s a n
/-- A reply answers a BAR2 request's message, whose sharers need no INVALIDATE (R604, R692). -/
abbrev answersBar2 (s : State) (m : MemMsg) (x : SentMsg) (b : Bar2) (tile : Nat) : Prop :=
  halted s = false ∧ answered s m = some x ∧ x.owner = .bar2 b.ptn b.tag tile ∧ x.sharers = 0 ∧
  s.px.bar2.find? (fun y => y.ptn == b.ptn && y.tag == b.tag) = some b
/-- What a servo update of an offset in ps does to the time state (R660, R664, R665). -/
def servoRule (s t : State) (off : Int) : Prop :=
  t.mer.offset = off ∧
  (s.mer.state = .acquiring →
    (1000000 < off.natAbs → t.mer.state = .acquiring ∧ t.mer.stepBy = some off ∧ t.mer.within = 0) ∧
    (20000 < off.natAbs → off.natAbs ≤ 1000000 → t.mer.state = .acquiring ∧ t.mer.within = 0 ∧ t.mer.slewing = true) ∧
    (off.natAbs ≤ 20000 → s.mer.within + 1 < 8 → t.mer.state = .acquiring ∧ t.mer.within = s.mer.within + 1) ∧
    (off.natAbs ≤ 20000 → 8 ≤ s.mer.within + 1 → t.mer.state = .locked)) ∧
  (s.mer.state = .locked →
    (1000000 < off.natAbs → t.mer.state = .acquiring ∧ t.mer.stepBy = some off) ∧
    (off.natAbs ≤ 20000 → t.mer.state = .locked ∧ t.mer.beyond = 0) ∧
    (20000 < off.natAbs → off.natAbs ≤ 1000000 → s.mer.beyond + 1 < 8 → t.mer.state = .locked ∧ t.mer.beyond = s.mer.beyond + 1) ∧
    (20000 < off.natAbs → off.natAbs ≤ 1000000 → 8 ≤ s.mer.beyond + 1 → t.mer.state = .acquiring)) ∧
  (s.mer.state ≠ .acquiring → s.mer.state ≠ .locked → s.mer.toAcq = false →
    (off.natAbs ≤ 1000000 → t.mer.state = .acquiring) ∧
    (1000000 < off.natAbs → t.mer.state = s.mer.state ∧ t.mer.stepBy = some off ∧ t.mer.toAcq = true))
/-- A queue-pair command of an OP stands in a mailbox for a partition that may name it, with its reserved fields 0 (R707). -/
abbrev qpGo (s : State) (v : View) (op x : Nat) : Prop :=
  mbxGo s v 2 = true ∧ x = mbxRead s (mbxQp v) 16 ∧ bits x 0 8 = op ∧ (∀ p, viewPtn v = some p → p = qcPtn x) ∧ qcReserved x = false
/-- A queue-pair command has its answer: STATUS in the mailbox, GO clear (R707). -/
def qpAnswered (t : State) (v : View) (st : Nat) : Prop :=
  bits (getReg t (mbxQp v)).toNat 8 8 = st ∧ (getReg t (mbxCtl v)).getLsbD 2 = false
/-- A RoCE packet reaches a queue pair that accepts it, its context in cache (R705, R709). -/
abbrev roceArrives (s : State) (port : Nat) (p : RocePkt) (q : Qp) : Prop :=
  isEth s port = true ∧ portIsUp s port = true ∧ 0x100000 ≤ p.qpn ∧ findQp s (p.qpn - 0x100000) = some q ∧ q.port = port ∧
  p.vlan = odGet s (0x9240 + q.ptn) 2 ∧ p.dgid = odGet s (0x9240 + q.ptn) 1 ∧ (q.state = 2 ∨ q.state = 3) ∧ q.cached = true
/-- Bytes for a partition's host memory: written with its PASID, or held in order where its DMA may not issue (R688, R690, R734). -/
def hostWritten (s t : State) (p addr : Nat) (bs : List Byte) : Prop :=
  if dmaHeld s (some p) then (p, addr, bs) ∈ t.regs.dmaWait else Out.host (some p) (pasidOf s (some p)) addr bs ∈ t.out
/-- A write or read of an entry has its answer with an error code: in the PF mailbox, whose GO bit is clear, or in the frames kept for the
node that asked (R848, R879, R881, R883). -/
def odReplied (t : State) (w : OdSrc) (err : Nat) : Prop :=
  (w.master = .pf → (getReg t 0x210C).toNat = err ∧ (getReg t 0x2400).getLsbD 3 = false) ∧
  (w.master = .bus → ∃ k ∈ t.mgt.kept, k.src = w.node ∧ k.txn = w.txn ∧ k.hdr = w.hdr ∧ (k.frames.head?).map (fun f => leAt f.data 5 1) = some err)
/-- A write waits for the next cycle boundary, with the role it was made in, and nothing else of the dictionary has changed (R25, R732, R748). -/
def odWaiting (s t : State) (w : OdSrc) (idx sub : Nat) (data : List Byte) : Prop :=
  t.ctl.odPend = s.ctl.odPend ++ [{ w := w, role := roleOf s w, index := idx, sub := sub, data := data }]
/-- A write of an entry is served and passes its checks (R882-R884). -/
abbrev odTakes (s : State) (w : OdSrc) (idx sub : Nat) (data : List Byte) : Prop := odHears s w = true ∧ odCheck s w idx sub data = 0
/-- A frame reaches the node and is accepted (R859, R869). -/
abbrev busHeard (s : State) (f : BusRx) : Prop :=
  s.boot.mgmt = true ∧ s.mgt.busOff = false ∧ ¬(s.mgt.bus = .assigned ∧ f.src = s.mgt.addr) ∧ (f.dest = 0 ∨ f.dest = s.mgt.addr ∨ s.mgt.tentative = some f.dest)
/-- The bus state and the addresses of the node. -/
def busPlace (s : State) : BusState × Nat × Nat × Option Nat := (s.mgt.bus, s.mgt.addr, s.mgt.manager, s.mgt.tentative)

end Sys2Proof.Machine
end

