-- ==== Sys2Proof/Certificates/Slice0/Obligations.lean ====
section
/-! DEFINITION. The statements for the provers. -/

open Sys2Proof Sys2Proof.Machine

/-- A step takes the command at the front of the queue: it is `exec` of that command on the state with the queue's rest. With nothing
waiting the block idles: Meridian time passes by one 4 ns tick (the model's choice, log entry 1). -/
def Obligations.StepTakesFront : Prop :=
  (∀ c s, step { s with pending := c :: s.pending } = exec c s) ∧
  (∀ s, s.pending = [] → step s = .next (passTime s 4))

/-- What reset leaves: the block's population, canonical stores, an empty queue, every register at its reset value but the pair link's
control, which is OFF on an unpaired part (log entry 3), every partition VACANT, the node UNASSIGNED and listening (R863), Meridian
time in FREERUN at 0 (R660, R676), no image in force, no request, every byte of the tiers 0 (R428).
Where the spec leaves a point open, the clause is the model's choice or reading: log entries 3, 4, 5 and 6. -/
def Obligations.ResetState : Prop :=
  State.reset.shaped = true ∧ State.reset.canonical = true ∧ State.reset.commandsWf = true ∧ State.reset.pending = [] ∧ State.reset.out = [] ∧
  (∀ off, off ≠ 0x500000 → getReg State.reset off = resetValue off) ∧
  (∀ e ∈ [(0x408, 0xC#32), (0x300010, 3#32), (0x3000D0, 16#32), (0x600000, 0x3E#32), (0x600004, 0x3E8#32), (0x800040, 1#32), (0xE00040, 1#32)],
    getReg State.reset e.1 = e.2) ∧
  (∀ n c, n < 16 → c < 8 → getReg State.reset (portBase n + 0x220 + 4 * c) = 9216#32) ∧
  (∀ p, p < 32 → (getPtn State.reset p).state = .vacant) ∧ State.reset.mgt.bus = .unassigned ∧ State.reset.mgt.addr = 127 ∧
  State.reset.mgt.listening = true ∧ State.reset.mer.state = .freerun ∧ State.reset.mer.ns = 0 ∧ State.reset.eph.running = false ∧
  State.reset.serve.reqs = [] ∧ ∀ a, sget byte0 State.reset.mem.bytes a = 0

/-- Every command completes, from every state and on any operands, and none touches the queue.
Where the spec leaves a point open, the clause is the model's choice or reading: log entry 8. -/
def Obligations.CommandsComplete : Prop :=
  ∀ c s, ∃ t, exec c s = .next t ∧ t.pending = s.pending

/-- Invariant: the block's population is kept by every step. -/
def Obligations.ShapedKept : Prop :=
  ∀ s t, s.shaped = true → step s = .next t → t.shaped = true

/-- Invariant: every step keeps the canonical form of the register store, of the object dictionary, of SRAM and of the memory tiers, and
the well-formedness of the commands that wait. -/
def Obligations.CanonicalKept : Prop :=
  ∀ s t, s.canonical = true → s.commandsWf = true → step s = .next t → t.canonical = true ∧ t.commandsWf = true

/-- After a device-fatal fault no command but the resets ends the condition, and the data plane stays stopped (R789, R65). The restarts of
the management cores during a start and in recovery (R947, R953) begin a start anew and are left to their own statements. -/
def Obligations.FatalPersists : Prop :=
  ∀ c s t, s.ras.fatal = true → starting s = false → s.boot.recovery = false → (∀ straps a b, c ≠ .coldReset straps a b) → c ≠ .pwrGoodLoss →
    c ≠ .warmResetAssert → (∀ f ser, c ≠ .ncWarmReset f ser) → exec c s = .next t → t.ras.fatal = true ∧ halted t = true

/-- R814: a read of a reserved offset returns 0, a write to one is ignored, and neither is reported. -/
def Obligations.ReservedOffsets : Prop :=
  ∀ v off o x s, viewOff s v off = some o → reserved_ s o = true →
    readReg s o = 0 ∧ Does (.regWrite v off x) s [] (fun t => t = s) ∧ Does (.pairLoWrite v off x) s [] (fun t => t = s) ∧
    Does (.pairHiWrite v off x) s [] (fun t => t = s) ∧ Does (.rcRegisterRead v off) s [] (fun t => t = s) ∧
    (aliasOf s v off = none → Does (.badAccessWrite v off) s [] fun t => t = s)

/-- R819, R820, R821: where the alias words of the PF and of a VF lie, that one which names no register, or a reserved one, reads 0 and
ignores writes, and that a read returns the bit in bit 0, zeros elsewhere, without a side effect. -/
def Obligations.AliasWords : Prop :=
  (∀ o b s, o < 0x1000 → o % 4 = 0 → b < 32 → aliasOf s .pf (0x4000000 + ((o &&& 0x7FFFC) <<< 5) + (b <<< 2)) = some (o, b)) ∧
  (∀ p o b s, vfBound s p = true → o < 0x1000 → o % 4 = 0 → b < 32 → aliasOf s (.vf p) (0x20000 + (o <<< 5) + (b <<< 2)) = some (winBase p + o, b)) ∧
  (∀ off o b s, aliasOf s .pf off = some (o, b) → o < 0x1000) ∧
  (∀ p off o b s, aliasOf s (.vf p) off = some (o, b) → winBase p ≤ o ∧ o < winBase p + 0x1000) ∧
  (∀ v off x s, (∀ o b, aliasOf s v off = some (o, b) → reserved_ s o = true) →
    readAlias s v off = 0 ∧ Does (.aliasWrite v off x) s [] fun t => t = s) ∧
  (∀ v off o b s, aliasOf s v off = some (o, b) → (∀ i, (readAlias s v off).getLsbD i = (decide (i = 0) && (readReg s o).getLsbD b)) ∧
    Does (.rcRegisterRead v off) s [] fun t => t = s)

/-- R823: an alias write to a commit-protected register goes to the shadow and leaves its other bits; the PF view of a window has no alias;
the two examples of the rule. -/
def Obligations.AliasProtected : Prop :=
  (∀ v off o b i x s, aliasOf s v off = some (o, b) → regInfo o = some i → i.dom.isSome = true → (i.rw &&& (1#32 <<< b)) ≠ 0 →
    Does (.aliasWrite v off x) s [.regs] fun t =>
      shadowOr t o = (if x.getLsbD 0 then shadowOr s o ||| (1#32 <<< b) else shadowOr s o &&& ~~~(1#32 <<< b)) ∧ RegsUnchanged [] s t) ∧
  (∀ off o b p s, aliasOf s .pf off = some (o, b) → o < winBase p) ∧
  (∀ x s, (x.getLsbD 0 = false → Does (.aliasWrite .pf 0x4008008 x) s [.regs] fun t =>
      getReg t 0x400 = (getReg s 0x400 &&& ~~~(4#32 &&& ~~~heldSet s 0x400)) ∧ RegsUnchanged [0x400] s t) ∧
    (x.getLsbD 0 = true → Does (.aliasWrite .pf 0x4008008 x) s [] fun t => t = s)) ∧
  (∀ p x s, p < 32 → vfBound s p = true → Does (.aliasWrite (.vf p) 0x22D14 x) s [.regs] fun t =>
    (shadowOr t (winRing p 3 + 8)).getLsbD 5 = x.getLsbD 0)

/-- R825: a read of a commit-protected register returns the value in force, with the RO bits beside it; no read but that of CMT_PENDING
shows what is in the shadow; CMT_PENDING shows the domains that hold pending writes. -/
def Obligations.ProtectedReads : Prop :=
  (∀ off i s, regInfo off = some i → i.dom.isSome = true → readReg s off = (getReg s off ||| roBits s off)) ∧
  (∀ off sh s, off ≠ 0x214 → readReg { s with regs := { s.regs with shadow := sh } } off = readReg s off) ∧
  (∀ d s, d < 6 → (readReg s 0x214).getLsbD d = s.regs.shadow.any fun e => (domOf e.1).map Domain.bit == some d)

/-- R8: what is written to reserved fields of a register makes no difference; the low half of a pair, which waits in its latch, leaves its
reserved bits when it is applied. -/
def Obligations.ReservedFields : Prop :=
  (∀ v off o i x y s, viewOff s v off = some o → regInfo o = some i → i.half ≠ .lo →
    (x ^^^ y) &&& (i.rw ||| i.rws ||| i.w1c ||| i.w1s ||| i.wo) = 0 → exec (.regWrite v off x) s = exec (.regWrite v off y) s) ∧
  (∀ off i, regInfo off = some i → i.half = .lo → off ≠ 0x100020 → i.rw ||| i.rws = allOnes) ∧
  (∀ x h s, ∃ t u, exec (.pairLoWrite .pf 0x100020 x) s = .next t ∧ exec (.pairHiWrite .pf 0x100024 h) t = .next u ∧
    getReg t 0x100020 = getReg s 0x100020 ∧ getReg u 0x100020 = (x &&& 0xFFFFF000#32) ∧ getReg u 0x100024 = h)

/-- R755 and R931: PTN_ID shows its partition, its state and whether a VF is bound, and takes no write; TEL_WINDOW is 1,000 at reset and
commit-protected, and a commit refuses what lies outside 10 to 1,000,000 with RANGE. -/
def Obligations.TwoRegisters : Prop :=
  (∀ p s, p < 32 → readReg s (winBase p) = BitVec.ofNat 32 (p + 32 * (getPtn s p).state.code + 256 * (if vfBound s p then 1 else 0)) ∧
    (∀ x, Does (.regWrite .pf (winBase p) x) s [] fun t => t = s)) ∧
  (∀ p, p < 32 → readReg State.reset (winBase p) = BitVec.ofNat 32 p) ∧
  (∀ p s, vfBound s p = true → viewOff s (.vf p) 0 = some (winBase p)) ∧
  regInfo 0x600004 = some { rw := 0xFFFFF, dom := some .telemetry, reset := 0x3E8 } ∧ getReg State.reset 0x600004 = 0x3E8 ∧
  (∀ x s, Does (.regWrite .pf 0x600004 x) s [.regs] fun t =>
    shadowOr t 0x600004 = ((getReg s 0x600004 &&& ~~~(0xFFFFF#32)) ||| (x &&& 0xFFFFF#32)) ∧ RegsUnchanged [] s t) ∧
  (∀ x s, s.regs.pending = none → regFld s 0x200 0 6 = 32 → (getReg s 0x204).getLsbD 0 = false → s.regs.shadow = [(0x600004, x)] →
    (x.toNat < 10 ∨ 1000000 < x.toNat → Does .cmtStrobe s [.regs, .out] fun t =>
      t.regs.cmtResult = 3 ∧ t.regs.cmtCause = 2 ∧ getReg t 0x600004 = getReg s 0x600004 ∧ t.regs.shadow = s.regs.shadow) ∧
    (10 ≤ x.toNat → x.toNat ≤ 1000000 → Does .cmtStrobe s [.regs, .out] fun t =>
      t.regs.cmtResult = 2 ∧ getReg t 0x600004 = x ∧ t.regs.shadow = []))

/-- Starts and resets. A cold reset latches the straps and runs the boot ROM to management-ready, and the work, the requests, the images, the memories, the
tables, the time, the faults, the partitions and the quarters are at their reset values (R16, R939, R945); a loss of power leaves the same with the block off
(R993). During a start, the watchdog and a lockstep mismatch begin it anew (R947); outside one they change nothing (R64). The fall of RST_N resets what is
outside the always-on domain: partitions that are not VACANT read SCRUBBING, requests and tasks are gone, memory is unreadable, and registers without RWS
bits, but the identity and KQ_CTL, are at their reset values (R16, R955, R956); its rise resumes the start at event 4 (R955, R956), unless the 25 MHz clock is
lost (R998). A rail comes into range (R940, R941) or does not, which stops the start (R943); a rail fault stops a start or aborts Nightfall (R943, R961); a start
ends DATA_READY (R944, R946). Nightfall goes on from slice to slice, and from a hold to the slice that reads it (R958, R961).
Where the spec leaves a point open, the clause is the model's choice or reading: log entries 3, 10, 57 and 70. -/
def Obligations.Starts : Prop :=
  (∀ straps imgA imgB s, Does (.coldReset straps imgA imgB) s allParts fun t =>
    t.boot.mgmt = true ∧ t.boot.ready = false ∧ bits t.boot.straps 2 5 = bits straps 2 5 ∧ t.regs.shadow = [] ∧ t.work = {} ∧ t.serve = {} ∧
    t.eph = {} ∧ t.mem = {} ∧ t.tabs = {} ∧ t.mer = {} ∧ t.ras = {} ∧ t.ptns = List.replicate 32 {} ∧ t.qtrs = List.replicate 4 {}) ∧
  (∀ s, Does .pwrGoodLoss s allParts fun t =>
    t.boot = { straps := s.boot.straps } ∧ t.out = s.out ∧ t.work = {} ∧ t.serve = {} ∧ t.eph = {} ∧ t.mem = {} ∧ t.mer = {}) ∧
  (∀ imgA imgB s, Does (.startWatchdog imgA imgB) s allParts fun t =>
    (starting s = true → t.boot.mgmt = true ∧ t.boot.ready = false ∧ t.work = {} ∧ t.serve = {} ∧ t.eph = {} ∧ t.mem = {}) ∧
    (starting s = false → t = s)) ∧
  (∀ imgA imgB s, Does (.lockstepMismatch imgA imgB) s allParts fun t =>
    (starting s = true → t.boot.mgmt = true ∧ t.boot.ready = false ∧ t.work = {} ∧ t.serve = {} ∧ t.eph = {} ∧ t.mem = {}) ∧
    (starting s = false → t = s)) ∧
  (∀ s, s.shaped = true → s.boot.mgmt = true → s.boot.rstN = false →
    Does .warmResetAssert s [.out, .regs, .cons, .qtrs, .eph, .work, .tabs, .mem, .serve, .fab, .px, .ptns, .ctl, .mgt, .alm, .tel, .ras, .boot] fun t =>
      t.boot.rstN = true ∧ t.boot.stopped = true ∧ t.boot.ready = false ∧ t.boot.warm = true ∧ t.eph = {} ∧ t.tabs = {} ∧ t.work.tasks = [] ∧ t.work.insts = [] ∧
      t.work.sram = [] ∧ t.serve.reqs = [] ∧ t.serve.pages = [] ∧ t.mem.bytes = [] ∧ t.mem.allocs = [] ∧ t.regs.shadow = [] ∧ t.px.qps = [] ∧ t.mer = s.mer ∧ t.ras.fatal = false ∧
      (∀ p, p < 32 → (getPtn t p).state = if (getPtn s p).state = .vacant then .vacant else .scrubbing) ∧
      (∀ off, off ∉ [0x20, 0x24, 0x28, 0x400] → (∀ i, regInfo off = some i → i.rws = 0 ∧ (i.dom = some .fabric → ¬(0x400000 ≤ off ∧ off < 0x504000 ∧ off % 0x10000 = 0))) →
        getReg t off = resetValue off)) ∧
  (∀ s, s.boot.mgmt = false ∨ s.boot.rstN = true → Does .warmResetAssert s [] fun t => t = s) ∧
  (∀ s, s.boot.rstN = true → s.boot.lostRefs.contains 0 = false → Does .warmResetRelease s [.out, .regs, .fab, .px, .ctl, .mgt, .alm, .tel, .boot] fun t =>
    t.boot.rstN = false ∧ t.boot.since = s.mer.osc ∧ t.boot.warm = s.boot.warm ∧ t.boot.ready = s.boot.ready ∧
    (s.boot.recovery = false → sequenced s = true → railOrder.flatten.all s.boot.rails.contains = true →
      t.boot.passed = true ∧ t.boot.stopped = false ∧ t.boot.rails = s.boot.rails ∧ odGet t 0x4040 7 = 2) ∧
    (s.boot.recovery = false → sequenced s = false → (∀ r, r < 9 → railPresent s r = true) → t.boot.rails = [] ∧ odGet t 0x4040 7 = 2)) ∧
  (∀ s, s.boot.rstN = true → s.boot.lostRefs.contains 0 = true → Does .warmResetRelease s [.boot] fun t => t.boot = { s.boot with rstN := false }) ∧
  (∀ s, s.boot.rstN = false → Does .warmResetRelease s [] fun t => t = s) ∧
  (∀ rail mv s, s.boot.mgmt = true → s.boot.failed = false → s.boot.passed = false → s.boot.recovery = false → s.boot.rstN = false → rail < 9 →
    s.boot.rails.contains rail = false → (sequenced s = true → (railGroup s).contains rail = true) →
    Does (.railInRange rail mv) s [.out, .regs, .fab, .px, .ctl, .mgt, .alm, .tel, .boot] fun t => t.boot.rails = s.boot.rails ++ [rail] ∧ t.boot.ready = s.boot.ready) ∧
  (∀ rail s, starting s = true → s.boot.passed = false → rail < 9 → s.boot.rails.contains rail = false →
    Does (.railWindowExpiry rail) s [.out, .regs, .ctl, .mgt, .alm, .tel, .boot] fun t =>
      t.boot.failed = true ∧ t.boot.stopped = true ∧ odGet t 0x4040 7 = 4 ∧ (sequenced s = true → t.boot.rails = [])) ∧
  (∀ rail s, Does (.railFault rail) s [.out, .regs, .ctl, .mgt, .alm, .tel, .boot] fun t =>
    (s.boot.nfState = 1 → t.boot.nfState = 4 ∧ odGet t 0x4040 4 = 4) ∧
    (s.boot.nfState ≠ 1 → starting s = true → t.boot.failed = true ∧ odGet t 0x4040 7 = 4) ∧
    (s.boot.nfState ≠ 1 → starting s = false → t = s)) ∧
  (∀ train s, starting s = true → s.boot.passed = true →
    Does (.dataReadyReached train) s [.out, .freeCount, .regs, .cons, .work, .mem, .serve, .ptns, .ctl, .mgt, .alm, .tel, .ras, .boot] fun t => t.boot.ready = true ∧ t.boot.trial = none ∧ t.boot.releases = [] ∧ Out.pin 2 1 ∈ t.out) ∧
  (∀ found s, s.boot.nfState = 1 → s.boot.nfHold = false → s.boot.nfSlice + 1 < nfSlices s.boot.nfStep → nfFits s s.boot.nfSliceMs = true →
    s.boot.nfStep ≠ 3 → s.boot.nfStep ≠ 6 →
    Does (.nfSliceEnd found) s [.out, .regs, .cons, .work, .mem, .ctl, .mgt, .alm, .tel, .boot] fun t => t.boot.nfSlice = s.boot.nfSlice + 1 ∧ t.boot.nfStep = s.boot.nfStep ∧ t.boot.nfState = 1) ∧
  (∀ found s, s.boot.nfState = 1 → s.boot.nfHold = true → s.boot.nfSlice = 1 ∨ s.boot.nfSlice = 3 → s.boot.nfSlice + 1 < nfSlices s.boot.nfStep →
    nfFits s s.boot.nfSliceMs = true →
    Does (.nfHoldEnd found) s [.out, .regs, .cons, .work, .mem, .ctl, .mgt, .alm, .tel, .boot] fun t => t.boot.nfHold = false ∧ t.boot.nfSlice = s.boot.nfSlice + 1 ∧ t.boot.nfState = 1)

/-- Writes of registers of the device's own blocks: RW and RWS bits store the value, W1C bits that are written 1 clear, W1S bits that are written 1
set, every other bit and register keeps its value (R13, R14); a commit-protected register takes the value in its shadow and nothing in force changes
(R824, R825); a reserved offset takes nothing (R814). Bit-wise writes through the alias: an RW or RWS bit takes the target value and its neighbours
keep theirs; a W1C bit clears on the target value 0 and keeps on 1; an alias of an RO or RC bit does nothing (R822). Writes of a 64-bit pair: LO goes
to the holding latch and nothing in force changes; HI then takes both halves, into the shadow where the pair is commit-protected (R816, R817, R825).
-/
def Obligations.RegisterWrites : Prop :=
  (∀ off i v s, regInfo off = some i → off < 0x1000 → off % 4 = 0 → off ≠ 0x304 → i.half = .single → i.dom = none → i.wo = 0 →
    Does (.regWrite .pf off v) s [.regs] fun t =>
      getReg t off = ((((getReg s off &&& ~~~(i.rw ||| i.rws)) ||| (v &&& (i.rw ||| i.rws))) &&& ~~~(v &&& i.w1c &&& ~~~heldSet s off)) ||| (v &&& i.w1s)) ∧
      RegsUnchanged [off] s t) ∧
  (∀ off i v s, regInfo off = some i → off < 0x2000 → off % 4 = 0 → i.half = .single → i.dom.isSome = true → i.wo = 0 →
    Does (.regWrite .pf off v) s [.regs] fun t =>
      shadowOr t off = ((getReg s off &&& ~~~i.rw) ||| (v &&& i.rw)) ∧ RegsUnchanged [] s t) ∧
  (∀ off v s, regInfo off = none → Does (.regWrite .pf off v) s [] fun t => t = s) ∧
  (∀ p off v s, vfBound s p = false → Does (.regWrite (.vf p) off v) s [] fun t => t = s) ∧
  (∀ off o b i v s, aliasOf s .pf off = some (o, b) → regInfo o = some i → o ≠ 0x304 → i.half = .single → i.dom = none → i.wo = 0 → i.w1s = 0 →
    i.w1c = 0 → ((i.rw ||| i.rws) &&& (1#32 <<< b)) ≠ 0 →
    Does (.aliasWrite .pf off v) s [.regs] fun t =>
      getReg t o = (if v.getLsbD 0 then getReg s o ||| (1#32 <<< b) else getReg s o &&& ~~~(1#32 <<< b)) ∧ RegsUnchanged [o] s t) ∧
  (∀ off o b i v s, aliasOf s .pf off = some (o, b) → regInfo o = some i → (i.w1c &&& (1#32 <<< b)) ≠ 0 →
    Does (.aliasWrite .pf off v) s [.regs] fun t =>
      getReg t o = (if v.getLsbD 0 then getReg s o else getReg s o &&& ~~~((1#32 <<< b) &&& ~~~heldSet s o)) ∧ RegsUnchanged [o] s t) ∧
  (∀ off o b i v s, aliasOf s .pf off = some (o, b) → regInfo o = some i →
    ((i.w1c ||| i.w1s ||| i.wo ||| i.rw ||| i.rws) &&& (1#32 <<< b)) = 0 → Does (.aliasWrite .pf off v) s [] fun t => t = s) ∧
  (∀ v off x s, aliasOf s v off = none → Does (.aliasWrite v off x) s [] fun t => t = s) ∧
  (∀ v off o i x s, viewOff s v off = some o → regInfo o = some i → i.half = .lo → mailboxBusy s o = false → deafDoorbell s o = false →
    o % 0x10000 ≠ 0x718 →
    Does (.pairLoWrite v off x) s [.regs] fun t => latchGet t o = x ∧ RegsUnchanged [] s t ∧ t.regs.shadow = s.regs.shadow) ∧
  (∀ v off o i x s, viewOff s v off = some o → regInfo o = some i → i.half = .hi → i.dom.isSome = true → 4 ≤ o → o ≠ 0x20002C →
    mailboxBusy s o = false → deafDoorbell s o = false → o % 0x10000 ≠ 0x718 →
    Does (.pairHiWrite v off x) s [.regs] fun t =>
      shadowOr t o = clampReg o x ∧
      shadowOr t (o - 4) = clampReg (o - 4) (((s.regs.latch.find? (·.1 == o - 4)).map (·.2)).getD (shadowOr s (o - 4))) ∧ RegsUnchanged [] s t) ∧
  (∀ off i k x s, off % 4 = 0 → regInfo off = some i → i.half = .hi → i.dom = none → 4 ≤ off → off ≠ 0x20002C → regInfo (off - 4) = some k →
    i.w1c = 0 → i.w1s = 0 → mailboxBusy s off = false → deafDoorbell s off = false →
    Does (.pairHiWrite .pf off x) s [.regs] fun t =>
      getReg t off = ((getReg s off &&& ~~~(i.rw ||| i.rws)) ||| (x &&& (i.rw ||| i.rws))) ∧
      getReg t (off - 4) = ((((s.regs.latch.find? (·.1 == off - 4)).map (·.2)).getD (getReg s (off - 4))) &&& (k.rw ||| k.rws)) ∧
      RegsUnchanged [off - 4, off] s t)

/-- A write without all byte enables is discarded and reported (R813); a read of a register with RC bits returns it and clears them (R15); an unmasked
vector sends its pending message once (R842). New entries of the PF's inbound rings, and read entries of its outbound rings, are told by PROD and
CONS, 20 bits each, and no other register in force changes (R757, R758, R844). The strobe of a global commit: a second strobe while one is pending is
only reported; one for the next boundary waits; one that meets a value its check rejects puts nothing in force and reports the register; one that
passes leaves nothing pending in its domains (R826-R829). A discard empties the shadow of the domains named and changes nothing in force (R829).
Where the spec leaves a point open, the clause is the model's choice or reading: log entry 14. -/
def Obligations.GlobalCommits : Prop :=
  (∀ off s, aliasOf s .pf (off - off % 4) = none → reserved_ s (off - off % 4) = false →
    Does (.badAccessWrite .pf off) s [.regs, .out] fun t =>
      t.regs.badAccess = (off - off % 4) % 2 ^ 28 ∧ (getReg t 0x400).getLsbD 5 = true ∧ RegsUnchanged [0x400] s t) ∧
  (∀ off s, aliasOf s .pf (off - off % 4) = none → reserved_ s (off - off % 4) = true → Does (.badAccessWrite .pf off) s [] fun t => t = s) ∧
  (∀ v off o i s, viewOff s v off = some o → regInfo o = some i → i.rc ≠ 0 → (s.regs.tickAt = s.mer.osc → ∀ e ∈ s.regs.rcNow, e.1 ≠ o) →
    Does (.rcRegisterRead v off) s [.regs] fun t =>
      t.regs.readData = readReg s o ∧ getReg t o = (getReg s o &&& ~~~i.rc) ∧ RegsUnchanged [o] s t) ∧
  (∀ v off o i e s, viewOff s v off = some o → regInfo o = some i → i.rc ≠ 0 → s.regs.tickAt = s.mer.osc → s.regs.rcNow.find? (·.1 == o) = some e →
    Does (.rcRegisterRead v off) s [.regs] fun t =>
      t.regs.readData = e.2.1 ∧ getReg t o = BitVec.ofNat 32 (sat 0xFFFFFFFF e.2.2) ∧ RegsUnchanged [o] s t) ∧
  (∀ fn vector s, s.regs.msixOpen.contains (fn, vector) = false → fn ≤ 32 → (if fn = 0 then vector ≤ 9 else vector ≤ 6) →
    Does (.msixUnmask fn vector) s [.regs, .out] fun t =>
      t.regs.msixOpen = s.regs.msixOpen ++ [(fn, vector)] ∧ t.regs.msixPending.contains (fn, vector) = false ∧
      t.out = (if s.regs.msixPending.contains (fn, vector) then s.out ++ [.msix fn vector] else s.out) ∧ RegsUnchanged [] s t) ∧
  (∀ r x s, r ∈ [0, 1, 2, 5, 7] → Does (.ringProdWrite .pf r x) s [.regs] fun t =>
    getReg t (pfRing r + 0xC) = (x &&& 0xFFFFF) ∧ RegsUnchanged [pfRing r + 0xC] s t) ∧
  (∀ r x s, r ∈ [3, 4, 6, 8] → Does (.ringConsWrite .pf r x) s [.regs, .out, .tel, .serve] fun t =>
    getReg t (pfRing r + 0x10) = (x &&& 0xFFFFF) ∧ RegsUnchanged [pfRing r + 0x10] s t) ∧
  (∀ s, s.regs.pending.isSome = true → Does .cmtStrobe s [.regs] fun t =>
    t.regs.cmtCause = 1 ∧ t.regs.pending = s.regs.pending ∧ t.regs.shadow = s.regs.shadow ∧ RegsUnchanged [] s t) ∧
  (∀ s, s.regs.pending = none → (bit (regFld s 0x200 0 6) 4 || (getReg s 0x204).getLsbD 0) = true → Does .cmtStrobe s [.regs] fun t =>
    t.regs.pending = some (regFld s 0x200 0 6) ∧ t.regs.cmtResult = 1 ∧ t.regs.shadow = s.regs.shadow ∧ RegsUnchanged [] s t) ∧
  (∀ off cause s, s.regs.pending = none → (bit (regFld s 0x200 0 6) 4 || (getReg s 0x204).getLsbD 0) = false →
    firstCause s (pendingOf s (regFld s 0x200 0 6)) = some (off, cause) → Does .cmtStrobe s [.regs, .out, .ctl, .alm] fun t =>
    t.regs.cmtResult = 3 ∧ t.regs.cmtCause = cause ∧ t.regs.cmtFault = off ∧ (getReg t 0x400).getLsbD 1 = true ∧ RegsUnchanged [0x400] s t) ∧
  (∀ s, s.regs.pending = none → (bit (regFld s 0x200 0 6) 4 || (getReg s 0x204).getLsbD 0) = false →
    firstCause s (pendingOf s (regFld s 0x200 0 6)) = none → Does .cmtStrobe s [.out, .regs, .mem, .serve, .fab, .px, .ctl, .mgt, .alm, .tel, .boot] fun t =>
    t.regs.cmtResult = 2 ∧ t.regs.pending = none ∧ pendingOf t (regFld s 0x200 0 6) = [] ∧ (getReg t 0x400).getLsbD 0 = true) ∧
  (∀ s, s.regs.pending = none → Does .cmtDiscard s [.regs] fun t =>
    pendingOf t (regFld s 0x200 0 6) = [] ∧ RegsUnchanged [] s t)

/-- The strobe of a window commit (R763), the ends of the configuration CRC passes (R833, R764), and the function-level reset of a VF (R739). The end
of a scrub makes the partition VACANT; a step that cannot end keeps it SCRUBBING (R737, R738). The boundary of a cycle ends what belongs to a cycle
and leaves no commit waiting (R82, R826).
Where the spec leaves a point open, the clause is the model's choice or reading: log entry 23. -/
def Obligations.WindowsAndBoundaries : Prop :=
  (∀ p s, p < 32 → s.shaped = true → (getPtn s p).cmtPending = true → ∀ next, Does (.ptnCmtStrobe .pf p next) s [.ptns] fun t =>
    (getPtn t p).cmtBusy = true ∧ (getPtn t p).cmtPending = true) ∧
  (∀ p s, p < 32 → s.shaped = true → (getPtn s p).cmtPending = false → Does (.ptnCmtStrobe .pf p true) s [.ptns] fun t =>
    (getPtn t p).cmtPending = true ∧ (getPtn t p).cmtResult = 1 ∧ (getPtn t p).cmtBusy = false) ∧
  (∀ p s, p < 32 → s.shaped = true → (getPtn s p).cmtPending = false → Does (.ptnCmtStrobe .pf p false) s [.out, .regs, .mem, .serve, .fab, .ptns, .ctl, .mgt, .alm, .tel, .boot] fun t =>
    (getPtn t p).cmtPending = false ∧ (∀ off cause, firstCause s (pendingWin s p) = some (off, cause) →
      (getPtn t p).cmtResult = 3 ∧ (getPtn t p).cmtOffset = (off - winBase p) / 4 ∧ RegsUnchanged [] s t) ∧
    (firstCause s (pendingWin s p) = none → (getPtn t p).cmtResult = 2 ∧ pendingWin t p = [])) ∧
  (∀ p s, p < 32 → s.shaped = true → Does (.ptnCrcPassEnd p) s [.out, .freeCount, .regs, .cons, .eph, .work, .mem, .serve, .px, .ptns, .ctl, .mgt, .alm, .tel] fun t =>
    (getPtn t p).crcLive = crcOver s (winBase p) (protectedWindow p) ∧ (getPtn t p).crcValid = true ∧
    ((getReg s (winBase p + 0x718)).getLsbD 0 = true →
      (getPtn t p).crcMatch = (crcOver s (winBase p) (protectedWindow p) == getReg s (winBase p + 0x714)))) ∧
  (∀ s, Does .cfgCrcPassEnd s [.out, .freeCount, .regs, .cons, .eph, .work, .mem, .serve, .px, .ptns, .ctl, .mgt, .alm, .tel] fun t =>
    t.regs.crcLive = crcOver s 0 protectedGlobal ∧ t.regs.crcValid = true ∧
    ((getReg s 0x308).getLsbD 0 = true → t.regs.crcMatch = (crcOver s 0 protectedGlobal == getReg s 0x304))) ∧
  (∀ p s, p < 32 → s.shaped = true → vfBound s p = true → Does (.vfFlr p) s [.out, .freeCount, .regs, .cons, .work, .mem, .serve, .px, .ptns, .ctl, .tel] fun t =>
    (∀ v, (p + 1, v) ∉ t.regs.msixOpen) ∧ pendingWin t p = [] ∧ (getPtn t p).cmtResult = 0 ∧ (getPtn t p).crcValid = false ∧
    (getPtn t p).state = (getPtn s p).state) ∧
  (∀ p s, p < 32 → s.shaped = true → (getPtn s p).state = .scrubbing → scrubLacks s p = none → Does (.scrubComplete p) s [.out, .regs, .cons, .work, .mem, .fab, .ptns, .ctl, .mgt, .alm, .tel] fun t =>
    (getPtn t p).state = .vacant ∧ (getPtn t p).cons = [] ∧ (getPtn t p).peers = []) ∧
  (∀ p k s, p < 32 → s.shaped = true → (getPtn s p).state = .scrubbing → scrubLacks s p = some k → Does (.scrubComplete p) s [.out, .regs, .cons, .work, .mem, .fab, .ptns, .ctl, .mgt, .alm, .tel] fun t =>
    (getPtn t p).state = .scrubbing ∧ (getPtn t p).scrubStep = k ∧ k ∈ (getPtn t p).stuck) ∧
  (∀ fails s, s.boot.mgmt = true → Does (.cycleBoundary fails) s allParts fun t =>
    t.regs.pending = none ∧ t.eph.worst = [] ∧ t.eph.bridge = [] ∧ t.eph.held = []) ∧
  (∀ fails s, s.boot.mgmt = false → Does (.cycleBoundary fails) s [] fun t => t = s)

/-- Power states and rails: a wake ends AWAKE and no other constellation changes; a drain ends in SLEEP, in AWAKE where a wake was decided in the
same tick (R78), or in DEEP with every bank empty for an
enabled constellation of no partition while UNALLOC_DEEP is 1; SRAM initialisation ends in SLEEP with every bank zero; a rail settles at its target
(R70, R74, R75, R77, R80). A wake lead wakes every carrier of the entry's constellations, and no other constellation changes (R74, R116); nothing
wakes for an isolated partition (R734).
Where the spec leaves a point open, the clause is the model's choice or reading: log entry 8. -/
def Obligations.PowerAndWakes : Prop :=
  (∀ phys s, phys < 160 → s.shaped = true → (getCon s phys).waking = true → (getCon s phys).init = false → Does (.wakeComplete phys) s [.out, .regs, .cons, .ctl, .mgt, .alm, .tel] fun t =>
    (getCon t phys).pwr = .awake ∧ (getCon t phys).waking = false ∧ (getCon t phys).beat = true ∧ (getCon t phys).beatAt = now s ∧ ConsUnchanged [phys] s t) ∧
  (∀ phys s, (getCon s phys).waking = false ∨ (getCon s phys).init = true → Does (.wakeComplete phys) s [] fun t => t = s) ∧
  (∀ phys s, phys < 160 → s.shaped = true → (getCon s phys).draining = true → unallocated s phys = false →
    Does (.sleepDrainDone phys) s [.cons] fun t =>
      (getCon t phys).pwr = (if (getCon s phys).wokeAt = some (now s / 4) then .awake else .sleep) ∧ (getCon t phys).draining = false ∧ ConsUnchanged [phys] s t) ∧
  (∀ phys s, phys < 160 → s.shaped = true → (getCon s phys).draining = true → (getCon s phys).role = .enabled → (getCon s phys).init = false →
    unallocated s phys = true → unallocDeep s phys = true →
    Does (.sleepDrainDone phys) s [.cons, .work, .mem] fun t => (getCon t phys).pwr = .deep ∧ (∀ e ∈ t.work.sram, sramPhys e.1 ≠ phys) ∧ ConsUnchanged [phys] s t) ∧
  (∀ phys s, (getCon s phys).draining = false → Does (.sleepDrainDone phys) s [] fun t => t = s) ∧
  (∀ phys s, (getCon s phys).init = false → Does (.sramInitDone phys) s [] fun t => t = s) ∧
  (∀ phys s, phys < 160 → s.shaped = true → (getCon s phys).init = true → Does (.sramInitDone phys) s [.cons, .work, .mem] fun t =>
    (getCon t phys).pwr = (if s.ras.readmits.any (·.1 == phys) = true ∨ (getCon s phys).wokeAt = some (now s / 4) then .awake else .sleep) ∧ (getCon t phys).init = false ∧ (∀ e ∈ t.work.sram, sramPhys e.1 ≠ phys) ∧
    (∀ e ∈ s.work.sram, sramPhys e.1 ≠ phys → e ∈ t.work.sram) ∧ ConsUnchanged [phys] s t) ∧
  (∀ q s, q < 4 → s.shaped = true → Does (.railSettled q) s [.qtrs] fun t =>
    (getQtr t q).settling = false ∧ (getQtr t q).mv = (getQtr s q).targetMv ∧ (getQtr t q).targetMv = (getQtr s q).targetMv ∧
    ∀ k, k ≠ q → getQtr t k = getQtr s k) ∧
  (∀ sec ent e s, s.shaped = true → entryNow s sec ent = some e → isCompute e.cls = true → e.wakeLead ≤ e.start → isolated s e.ptn = false →
    Does (.wakeLeadReached sec ent false) s [.cons] fun t =>
      (∀ l ∈ entryCons s sec ent e, ∀ p, p < 160 → physOf s l = some p → (sec, ent, false) ∈ (getCon t p).leads ∧
        (((getCon s p).pwr = .deep ∧ (getCon t p).pwr = .deep) ∨ (getCon t p).pwr = .awake ∨ (getCon t p).waking = true)) ∧
      ConsUnchanged ((entryCons s sec ent e).filterMap (physOf s)) s t) ∧
  (∀ sec ent e s, entryNow s sec ent = some e → isolated s e.ptn = true → Does (.wakeLeadReached sec ent false) s [] fun t => t = s) ∧
  (∀ sec ent e s, s.shaped = true → entryNow (s.modEph fun _ => nextEph s) sec ent = some e → isCompute e.cls = true →
    e.start < e.wakeLead → isolated s e.ptn = false →
    Does (.wakeLeadReached sec ent true) s [.cons] fun t =>
      (∀ l ∈ entryCons (s.modEph fun _ => nextEph s) sec ent e, ∀ p, p < 160 → physOf s l = some p → (sec, ent, true) ∈ (getCon t p).leads ∧
        (((getCon s p).pwr = .deep ∧ (getCon t p).pwr = .deep) ∨ (getCon t p).pwr = .awake ∨ (getCon t p).waking = true)) ∧
      ConsUnchanged ((entryCons (s.modEph fun _ => nextEph s) sec ent e).filterMap (physOf s)) s t)

/-- Loading an image: a load empties the other bank; DONE puts the checked image there or reports why not, and never touches the bank in force; an
abort ends in FAILED with 0xF (R105, R141, R142). Arming a switch: NOT_LOADED without a checked image, LATE for a cycle nearer than two, CYCLE where
the boundaries of the two images do not meet, else armed; DISARM ends it (R108, R113, R144).
Where the spec leaves a point open, the clause is the model's choice or reading: log entry 8. -/
def Obligations.Ephemerides : Prop :=
  (∀ s, s.eph.loadState ≠ 1 → s.eph.armed = false → s.boot.nfState = 0 → halted s = false → ∀ abort, Does (.ephLoadStart abort) s [.eph] fun t =>
    t.eph.loadState = 1 ∧ t.eph.loadResult = 0 ∧ t.eph.loadLen = (getReg s 0x100028).toNat ∧ otherBank t = none ∧ image t = image s) ∧
  (∀ s, s.eph.loadState = 1 → Does (.ephLoadStart false) s [] fun t => t = s) ∧
  (∀ s, s.eph.loadState = 1 → s.eph.armed = false → s.boot.nfState = 0 → halted s = false → Does (.ephLoadStart true) s [.eph] fun t =>
    t.eph.loadState = 1 ∧ t.eph.loadResult = 0 ∧ t.eph.loadLen = (getReg s 0x100028).toNat ∧ otherBank t = none ∧ image t = image s) ∧
  (∀ abort s, s.eph.loadState ≠ 1 → s.eph.armed = true ∨ s.boot.nfState ≠ 0 ∨ halted s = true → Does (.ephLoadStart abort) s [] fun t => t = s) ∧
  (∀ s, s.eph.loadState = 1 → Does .ephLoadAbort s [.eph] fun t => t.eph.loadState = 3 ∧ t.eph.loadResult = 0xF ∧ otherBank t = otherBank s ∧ image t = image s) ∧
  (∀ s, s.eph.loadState ≠ 1 → Does .ephLoadAbort s [] fun t => t = s) ∧
  (∀ tr ok bs ms f s, s.eph.loadState = 1 → loadCheck (loadCtx s) s.ctl.imageKey (tr && ok && s.eph.loadLen ≤ bs.length) (bs.take s.eph.loadLen) = (0, f) →
    Does (.ephLoadDone tr ok bs ms) s [.eph] fun t =>
      t.eph.loadState = 2 ∧ t.eph.loadResult = 0 ∧ otherBank t = some { parseImage (bs.take s.eph.loadLen) with models := ms } ∧ image t = image s) ∧
  (∀ tr ok bs ms r f s, s.eph.loadState = 1 → loadCheck (loadCtx s) s.ctl.imageKey (tr && ok && s.eph.loadLen ≤ bs.length) (bs.take s.eph.loadLen) = (r, f) → r ≠ 0 →
    Does (.ephLoadDone tr ok bs ms) s [.eph] fun t =>
      t.eph.loadState = 3 ∧ t.eph.loadResult = r ∧ t.eph.loadFault = f ∧ otherBank t = otherBank s ∧ image t = image s) ∧
  (∀ tr ok bs ms s, s.eph.loadState = 1 → tr = false ∨ ok = false ∨ bs.length < s.eph.loadLen → Does (.ephLoadDone tr ok bs ms) s [.eph] fun t =>
    t.eph.loadState = 3 ∧ t.eph.loadResult = 2 ∧ otherBank t = otherBank s ∧ image t = image s) ∧
  (∀ tr ok bs ms s, s.eph.loadState ≠ 1 → Does (.ephLoadDone tr ok bs ms) s [] fun t => t = s) ∧
  (∀ s, s.eph.loadState ≠ 2 ∨ otherBank s = none → Does .ephSwitchArm s [.eph] fun t =>
    t.eph.switchResult = 4 ∧ t.eph.armed = s.eph.armed ∧ image t = image s) ∧
  (∀ im s, s.eph.loadState = 2 → otherBank s = some im → switchCycle s < switchBase s im + 2 → Does .ephSwitchArm s [.eph] fun t =>
    t.eph.switchResult = 3 ∧ t.eph.armed = s.eph.armed ∧ image t = image s) ∧
  (∀ im old s, s.eph.loadState = 2 → otherBank s = some im → switchBase s im + 2 ≤ switchCycle s → image s = some old →
    old.cycleTicks ≠ im.cycleTicks → switchCycle s * old.cycleTicks % im.cycleTicks ≠ 0 → Does .ephSwitchArm s [.eph] fun t =>
    t.eph.switchResult = 8 ∧ t.eph.armed = s.eph.armed ∧ image t = image s) ∧
  (∀ im s, s.eph.loadState = 2 → otherBank s = some im → switchBase s im + 2 ≤ switchCycle s →
    (∀ old, image s = some old → old.cycleTicks = im.cycleTicks ∨ switchCycle s * old.cycleTicks % im.cycleTicks = 0) →
    Does .ephSwitchArm s [.eph] fun t => t.eph.switchResult = 1 ∧ t.eph.armed = true ∧ image t = image s) ∧
  (∀ s, s.eph.armed = true → Does .ephSwitchDisarm s [.eph] fun t => t.eph.armed = false ∧ t.eph.switchResult = 7 ∧ image t = image s) ∧
  (∀ s, s.eph.armed = false → Does .ephSwitchDisarm s [] fun t => t = s)

/-- The run of entries. A compute slot opens once, with the slip of its units, takes work up to its caps and no more (R117), and changes nothing else of the
ephemeris state; it does not open where its SLACK is consumed, its start lies past the boundary (R123) or it was skipped (R124), nor while a slot that meets its units still stops (R121); a partition that has left ACTIVE, or
that runs empty, gets no work in it (R115, R132). Work beyond a slot borrows the SLACK that follows or stops (R119); a borrow and an abort end the slot; an
ended entry leaves no slot unless it aborts or borrows (R1005), and what waited for its window goes on (R101). A barrier sets the slip of the stars of its units, and of no others (R122); a bridge entry
gives its partition the capacity that it names (R127) and a gate entry gives its port the gate state that it names (R96), and neither changes anything else.
Where the spec leaves a point open, the clause is the model's choice or reading: log entries 8, 39 and 76. -/
def Obligations.Entries : Prop :=
  (∀ sec ent fails e im s, entryNow s sec ent = some e → image s = some im → isCompute e.cls = true → findSlot s sec ent = none →
    e.start + entrySlip s sec ent e < im.cycleTicks → e.cls ≠ 7 → e.cls ≠ 8 → s.eph.skipped.contains (sec, ent) = false →
    (∀ r ∈ s.eph.slots, r.aborting = true → meets r.stars (entryStars s sec ent e) = false) →
    Does (.computeSlotStart sec ent fails) s [.out, .freeCount, .regs, .cons, .eph, .work, .tabs, .mem, .serve, .ctl, .mgt, .alm, .tel] fun t =>
      ∃ a b full, t.eph = { s.eph with slots := s.eph.slots ++ [{ openedSlot s sec ent e with usedA := a, usedB := b, full := full }] } ∧
        (e.capA = 0 ∨ a ≤ e.capA) ∧ (e.capB = 0 ∨ b ≤ e.capB)) ∧
  (∀ sec ent fails e im s, entryNow s sec ent = some e → image s = some im → isCompute e.cls = true → findSlot s sec ent = none →
    e.start + entrySlip s sec ent e < im.cycleTicks → (e.cls = 7 ∧ entrySlip s sec ent e < e.length) ∨ (e.cls ≠ 7 ∧ e.cls ≠ 8 ∧
      ((getPtn s e.ptn).state ≠ .active ∨ runsEmpty s e.ptn = true)) → s.eph.skipped.contains (sec, ent) = false →
    (∀ r ∈ s.eph.slots, r.aborting = true → meets r.stars (entryStars s sec ent e) = false) →
    Does (.computeSlotStart sec ent fails) s [.cons, .eph] fun t =>
      t.eph = { s.eph with slots := s.eph.slots ++ [openedSlot s sec ent e] } ∧ ∀ k, (getCon t k).pwr = (getCon s k).pwr ∧ (getCon t k).waking = (getCon s k).waking) ∧
  (∀ sec ent fails e im s, entryNow s sec ent = some e → image s = some im → isCompute e.cls = false ∨ (findSlot s sec ent).isSome = true ∨
      im.cycleTicks ≤ e.start + entrySlip s sec ent e ∨ (e.cls = 7 ∧ e.length ≤ entrySlip s sec ent e) ∨
      s.eph.skipped.contains (sec, ent) = true ∨ (∃ r ∈ s.eph.slots, r.aborting = true ∧ meets r.stars (entryStars s sec ent e) = true) →
    Does (.computeSlotStart sec ent fails) s [] fun t => t = s) ∧
  (∀ sec ent e r x i f s, entryNow s sec ent = some e → findSlot s sec ent = some r → slotBusy s sec ent = true → r.aborting = false →
    r.borrow = none → e.policy = 0 → (laterEntries s (entryStars s sec ent e) (e.start + e.length)).head? = some (x, i, f) → f.cls = 7 →
    f.ptn = e.ptn → (entryStars s x i f).foldl cutOut (entryStars s sec ent e) = [] →
    (barriersIn s (entryStars s sec ent e) (e.start + e.length) f.start).length ≤ 1 →
    e.start + e.length + r.slip < f.start + f.length → Does (.slotOverrun sec ent) s [.eph] fun t =>
      findSlot t sec ent = some { r with borrow := some i }) ∧
  (∀ sec ent e r s, entryNow s sec ent = some e → findSlot s sec ent = some r → slotBusy s sec ent = true → r.aborting = false →
    r.borrow = none → e.policy ≠ 0 → Does (.slotOverrun sec ent) s [.out, .freeCount, .regs, .cons, .eph, .work, .mem, .serve, .ctl, .mgt, .alm, .tel] fun t =>
      findSlot t sec ent = some { r with aborting := true }) ∧
  (∀ sec ent s, slotBusy s sec ent = false → Does (.slotOverrun sec ent) s [] fun t => t = s) ∧
  (∀ sec ent e r s, entryNow s sec ent = some e → findSlot s sec ent = some r → r.borrow.isSome = true → r.aborting = false →
    Does (.borrowEnd sec ent true) s [.out, .freeCount, .regs, .cons, .eph, .work, .mem, .serve, .ctl, .mgt, .alm, .tel] fun t => findSlot t sec ent = none) ∧
  (∀ sec ent e r s, entryNow s sec ent = some e → findSlot s sec ent = some r → r.borrow.isSome = true → r.aborting = false →
    Does (.borrowEnd sec ent false) s [.out, .freeCount, .regs, .cons, .eph, .work, .mem, .serve, .ctl, .mgt, .alm, .tel] fun t =>
      findSlot t sec ent = some { r with aborting := true }) ∧
  (∀ sec ent r s, findSlot s sec ent = some r → r.borrow = none ∨ r.aborting = true → ∀ f, Does (.borrowEnd sec ent f) s [] fun t => t = s) ∧
  (∀ sec ent r s, findSlot s (sec + 8) ent = none → findSlot s sec ent = some r → r.aborting = true → slotBusy s sec ent = false →
    Does (.abortEnd sec ent) s [.out, .regs, .cons, .eph, .ctl, .mgt, .alm, .tel] fun t => findSlot t sec ent = none) ∧
  (∀ sec ent r s, findSlot s (sec + 8) ent = none → findSlot s sec ent = some r → slotBusy s sec ent = true → Does (.abortEnd sec ent) s [] fun t => t = s) ∧
  (∀ sec ent s, s.eph.held.any (fun x => x.1 == sec && x.2.1 == ent) = false → Does (.entryEnd sec ent) s [.cons, .eph] (entryGone s sec ent)) ∧
  (∀ sec ent s, s.eph.held.any (fun x => x.1 == sec && x.2.1 == ent) = true →
    ∃ u, entryGone s sec ent u ∧ ChangesOnly [.cons, .eph] s u ∧ exec (.entryEnd sec ent) s = .next (resumeAccesses u)) ∧
  (∀ sec ent e s, entryNow s sec ent = some e → e.cls = 6 → Does (.barrierComplete sec ent) s [.out, .regs, .eph, .ctl, .mgt, .alm, .tel] fun t =>
    t.eph.slip = (entryStars s sec ent e).map (fun u => (u.1, u.2, tickNow s - e.start)) ++ s.eph.slip ∧
    (∀ u ∈ entryStars s sec ent e, u.1 < u.2 → slipOver t.eph.slip [u] = tickNow s - e.start) ∧
    (∀ us : List (Nat × Nat), (∀ u ∈ us, u.1 < u.2 ∧ ∀ v ∈ entryStars s sec ent e, v.1 < v.2 ∧ (u.2 ≤ v.1 ∨ v.2 ≤ u.1)) →
      slipOver t.eph.slip us = slipOver s.eph.slip us) ∧ t.eph.slots = s.eph.slots ∧ image t = image s) ∧
  (∀ sec ent e s, entryNow s sec ent = some e → e.cls ≠ 6 → Does (.barrierComplete sec ent) s [] fun t => t = s) ∧
  (∀ sec ent e s, entryNow s sec ent = some e → e.cls = 0x0A → runsEmpty s e.ptn = false → Does (.bridgeEntryStart sec ent) s [.eph] fun t =>
    t.eph = { s.eph with bridge := s.eph.bridge ++ [(sec, ent, e.action % 8, e.ptn, if e.capA = 0 then none else some e.capA, s.work.nextTile)] }) ∧
  (∀ sec ent e s, entryNow s sec ent = some e → e.cls ≠ 0x0A ∨ runsEmpty s e.ptn = true → Does (.bridgeEntryStart sec ent) s [] fun t => t = s) ∧
  (∀ sec ent e s, entryNow s sec ent = some e → e.cls = 0x1A → Does (.gateEntry sec ent) s [.eph] fun t =>
    (t.eph.gates.find? (·.1 == bits e.action 8 5)).map (·.2) = some (bits e.action 0 8) ∧
    (∀ n, n ≠ bits e.action 8 5 → t.eph.gates.find? (·.1 == n) = s.eph.gates.find? (·.1 == n)) ∧ t.eph = { s.eph with gates := t.eph.gates }) ∧
  (∀ sec ent s, entryNow s sec ent = none → Does (.bridgeEntryStart sec ent) s [] (fun t => t = s) ∧ Does (.gateEntry sec ent) s [] (fun t => t = s) ∧
    Does (.barrierComplete sec ent) s [] (fun t => t = s) ∧ ∀ fails, Does (.computeSlotStart sec ent fails) s [] fun t => t = s)

/-- Loss of a constellation (R769, R770): the detector that applies makes it failed, DEEP and without a logical number, its SRAM gone, and counts it;
where it carries nothing, nothing else of any constellation changes. A detector that does not apply changes nothing (R80). Recovery: replay begins
when the spare is AWAKE (R773); a good re-admission waits for the boundary, a bad one goes back to DEEP with its result (R792, R793); a spare that is neither DEEP nor being initialised wakes
for its test slice (R797); an excess over the contract is counted and reported, and counts for its constellation, which at the limit starts dimming (R104,
R777). The pair and the device: a silent partner is noted once
(R786) and a resynchronised pair is whole again (R787); a device-fatal fault stops the data plane for good, records its cause, unit and time, and a
second one changes nothing (R788); a thermal trip asserts its pin and is device-fatal (R978), and a part that sequences its rails
powers them down (R979); it and a rail fault end Nightfall (R961).
Where the spec leaves a point open, the clause is the model's choice or reading: log entries 8, 55 and 82. -/
def Obligations.FaultsAndRecovery : Prop :=
  (∀ phys s, phys < 160 → s.shaped = true → (getCon s phys).role ≠ .failed → (getCon s phys).logical = none →
    ((getCon s phys).pwr = .awake → Does (.heartbeatTimeout phys) s [.out, .freeCount, .regs, .cons, .eph, .work, .mem, .serve, .px, .ptns, .ctl, .mgt, .alm, .tel, .ras] (ConLost phys s)) ∧
    ((getCon s phys).pwr = .awake → ∀ d, 1 ≤ d → d ≤ 3 → Does (.unitInternalFault phys d) s [.out, .freeCount, .regs, .cons, .eph, .work, .mem, .serve, .px, .ptns, .ctl, .mgt, .alm, .tel, .ras] (ConLost phys s)) ∧
    Does (.unitInternalFault phys 2) s [.out, .freeCount, .regs, .cons, .eph, .work, .mem, .serve, .px, .ptns, .ctl, .mgt, .alm, .tel, .ras] (ConLost phys s) ∧
    ((getCon s phys).waking = true ∨ (getCon s phys).init = true → Does (.wakeTimeout phys) s [.out, .freeCount, .regs, .cons, .eph, .work, .mem, .serve, .px, .ptns, .ctl, .mgt, .alm, .tel, .ras] (ConLost phys s))) ∧
  (∀ phys s, (getCon s phys).pwr ≠ .awake → Does (.heartbeatTimeout phys) s [] (fun t => t = s) ∧
    Does (.unitInternalFault phys 1) s [] (fun t => t = s) ∧ Does (.unitInternalFault phys 3) s [] fun t => t = s) ∧
  (∀ phys s, (getCon s phys).waking = false → (getCon s phys).init = false → Does (.wakeTimeout phys) s [] fun t => t = s) ∧
  (∀ spare r s, s.ras.replays.find? (·.spare == spare) = some r → (getCon s spare).pwr = .awake → Does (.replayStart spare) s [.regs, .cons, .work, .ctl, .ras] fun t =>
    t.ras.replays = s.ras.replays.filter (·.spare != spare) ∧ (r.drill = false → t.ras.readmits = s.ras.readmits ∧ t.cons = s.cons) ∧
    (r.drill = true → t.ras.readmits = s.ras.readmits ++ [(r.old, true)])) ∧
  (∀ spare s, (getCon s spare).pwr ≠ .awake → Does (.replayStart spare) s [] fun t => t = s) ∧
  (∀ phys ph drill s, s.ras.readmits.find? (·.1 == phys) = some (ph, drill) → Does (.readmitDone phys 0) s [.ras] fun t =>
    t.ras.joins = s.ras.joins ++ [(phys, drill)] ∧ t.ras.readmits = s.ras.readmits.filter (·.1 != phys)) ∧
  (∀ phys r ph drill s, phys < 160 → s.shaped = true → r ≠ 0 → s.ras.readmits.find? (·.1 == phys) = some (ph, drill) →
    Does (.readmitDone phys r) s [.out, .regs, .cons, .work, .mem, .ctl, .mgt, .alm, .tel, .ras] fun t => (getCon t phys).pwr = .deep ∧ (getCon t phys).init = false ∧ odGet t 0x4000 3 = r ∧
      t.ras.readmits = s.ras.readmits.filter (·.1 != phys) ∧ ConsUnchanged [phys] s t) ∧
  (∀ phys fails s, phys < 160 → s.shaped = true → (getCon s phys).role = .spare → (getCon s phys).testing = false → (getCon s phys).init = false →
    (getCon s phys).pwr ≠ .deep → (∀ k ∈ fails, k = 0 ∨ 5 < k) →
    Does (.spareTestDue phys fails) s [.cons] fun t => (getCon t phys).testing = true ∧ (getCon t phys).pwr = .awake ∧ ConsUnchanged [phys] s t) ∧
  (∀ phys k s, phys < 160 → s.shaped = true → (getCon s phys).role = .spare → (getCon s phys).testing = false → (getCon s phys).init = false →
    (getCon s phys).pwr ≠ .deep → 1 ≤ k → k ≤ 5 →
    Does (.spareTestDue phys [k]) s [.out, .regs, .cons, .work, .mem, .ctl, .mgt, .alm, .tel] fun t => (getCon t phys).role = .failed ∧ (getCon t phys).pwr = .deep ∧ (16 + k, phys) ∈ t.mem.repair ∧
      ConsUnchanged [phys] s t) ∧
  (∀ phys l cls n s, phys < 160 → s.shaped = true → (getCon s phys).logical = some l → Does (.contractExceeded (.con phys) cls n) s [.out, .freeCount, .regs, .cons, .work, .ctl, .mgt, .alm, .tel] fun t =>
    (getCon t phys).contract = (if now s < (getCon s phys).contractFrom + 1000000000 ∧ (getCon s phys).contract ≠ 0 then (getCon s phys).contract + 1 else 1) ∧
    (getReg t 0x100074).toNat = sat 0xFFFFFFFF ((getReg s 0x100074).toNat + 1) ∧ RegsUnchanged [0x100074, 0x400] s t ∧ ConsUnchanged [phys] s t ∧
    ((getCon t phys).contract < odGet s 0x4000 5 → oneMore s t (pfRing 4) ∧ (getCon t phys).service = (getCon s phys).service) ∧
    ((getCon s phys).service = .lit → odGet s 0x4000 5 ≤ (getCon t phys).contract → (getCon t phys).service = .dimming ∧ (getCon t phys).dimCause = 0)) ∧
  (∀ who cls n s, (∀ k, who = .con k → (getCon s k).logical = none) → Does (.contractExceeded who cls n) s reporting fun t =>
    (getReg t 0x100074).toNat = sat 0xFFFFFFFF ((getReg s 0x100074).toNat + 1) ∧ RegsUnchanged [0x100074, 0x400] s t ∧ oneMore s t (pfRing 4)) ∧
  (∀ s, s.fab.degraded = true → s.fab.silent = false → Does .partnerSilent s [.out, .regs, .fab, .ctl, .mgt, .alm, .tel] fun t => t.fab = { s.fab with silent := true }) ∧
  (∀ s, s.fab.degraded = false ∨ s.fab.silent = true → Does .partnerSilent s [] fun t => t = s) ∧
  (∀ s, s.fab.degraded = true → portIsUp s 16 = true → Does .pairResyncDone s [.out, .freeCount, .regs, .fab, .ctl, .mgt, .alm, .tel] fun t => t.fab.degraded = false ∧ t.fab.silent = false) ∧
  (∀ s, s.fab.degraded = false ∨ portIsUp s 16 = false → Does .pairResyncDone s [] fun t => t = s) ∧
  (∀ cause uid s, s.ras.fatal = false → 1 ≤ cause → cause ≤ 5 → Does (.deviceFatalFault cause uid) s [.out, .regs, .eph, .work, .mem, .serve, .fab, .ctl, .mgt, .alm, .tel, .ras, .boot] fun t =>
    t.ras.fatal = true ∧ t.work.insts = [] ∧ t.eph.running = false ∧ t.eph.slots = [] ∧ (∀ k ∈ t.mem.nears, k.sleep = true) ∧
    getReg t 0x700004 = BitVec.ofNat 32 (cause + uid % 2 ^ 24 * 256) ∧ getReg t 0x700008 = BitVec.ofNat 32 (now s) ∧
    (getReg t 0x400).getLsbD 3 = true ∧ Out.pin 0 0 ∈ t.out ∧ t.boot = (if cause = 4 ∧ s.boot.nfState = 1 then { s.boot with nfState := 4, nfHold := false } else s.boot)) ∧
  (∀ cause uid s, s.ras.fatal = true ∨ cause = 0 ∨ 5 < cause → Does (.deviceFatalFault cause uid) s [] fun t => t = s) ∧
  (∀ s, s.ras.tripped = false → s.ras.fatal = true → sequenced s = false → s.boot.nfState ≠ 1 → Does .thermTrip s [.out, .freeCount, .regs, .ctl, .mgt, .alm, .tel, .ras] fun t =>
    t.ras = { s.ras with tripped := true } ∧ Out.pin 4 0 ∈ t.out ∧ t.freeCount = s.freeCount + 2) ∧
  (∀ s, s.ras.tripped = false → Does .thermTrip s [.out, .freeCount, .regs, .eph, .work, .mem, .serve, .fab, .ctl, .mgt, .alm, .tel, .ras, .boot] fun t =>
    t.ras.tripped = true ∧ t.ras.fatal = true ∧ Out.pin 4 0 ∈ t.out ∧ (s.ras.fatal = false → t.work.insts = [] ∧ odGet t 0x6030 9 = 100) ∧
    (s.boot.nfState ≠ 1 → t.boot = (if sequenced s then { s.boot with rails := [] } else s.boot)) ∧ (s.boot.nfState = 1 → t.boot.nfState = 4) ∧ (sequenced s = true → ∀ r, r < 9 → s.boot.rails.contains r = true → Out.rail r false ∈ t.out))

/-- Move descriptors that do not act: one that a check refuses changes no request, page or move (R356); none is read from a ring that is
not open.
Where the spec leaves a point open, the clause is the model's choice or reading: log entry 14. -/
def Obligations.MoveRefusals : Prop :=
  ∀ v desc s,
    (ringOpen s v (subRing v 2) = true → mvStatus (ringTake s (subRing v 2)) v desc.toNat ≠ 0 →
      (mvVerb desc.toNat = 2 → Does (.movePark v desc) s [.out, .regs, .ctl, .tel] fun t => RegsUnchanged [] s t) ∧
      (mvVerb desc.toNat = 3 → Does (.movePromote v desc) s [.out, .regs, .ctl, .tel] fun t => RegsUnchanged [] s t) ∧
      (mvVerb desc.toNat = 4 → Does (.moveEvict v desc) s [.out, .regs, .ctl, .tel] fun t => RegsUnchanged [] s t) ∧
      (mvVerb desc.toNat = 5 → Does (.moveClone v desc) s [.out, .regs, .ctl, .tel] fun t => RegsUnchanged [] s t) ∧
      (mvVerb desc.toNat = 6 → Does (.moveDrop v desc) s [.out, .regs, .ctl, .tel] fun t => RegsUnchanged [] s t) ∧
      (¬(2 ≤ mvVerb desc.toNat ∧ mvVerb desc.toNat ≤ 6) → Does (.movePlan v desc) s [.out, .regs, .ctl, .tel] fun t => RegsUnchanged [] s t)) ∧
    (ringOpen s v (subRing v 2) = false →
      Does (.movePark v desc) s [] (fun t => t = s) ∧ Does (.movePromote v desc) s [] (fun t => t = s) ∧ Does (.moveEvict v desc) s [] (fun t => t = s) ∧
      Does (.moveClone v desc) s [] (fun t => t = s) ∧ Does (.moveDrop v desc) s [] (fun t => t = s) ∧ Does (.movePlan v desc) s [] fun t => t = s)

/-- Moves on one device (R380, R391): PARK waits for the running tasks, then PARKS; PROMOTE goes to PROMOTING while a page lacks its Near copy,
else on to PREFILL or DECODE; EVICT queues every candidate in its range and moves no page itself; CLONE makes a PARKED request with a new
seed; DROP frees the handle, or waits for the remote references of a holding request; PLAN waits for its references. The premise on
`findMove` says that the next move number is unused.
Where the spec leaves a point open, the clause is the model's choice or reading: log entry 14. -/
def Obligations.MovesHere : Prop :=
  (∀ v desc s r, moveActs v desc 2 s r → r.state = .decode → r.doubt = false → findMove s s.serve.nextMove = none → reqBusy s r.handle = true →
    Does (.movePark v desc) s [.out, .freeCount, .regs, .cons, .work, .mem, .serve, .ctl, .tel] fun t => (findReq t r.handle).map (fun x => (x.state, x.mverb)) = some (.decode, 2) ∧
      ∃ m ∈ t.serve.moves, m.handle = r.handle ∧ m.verb = 2) ∧
  (∀ v desc s r, moveActs v desc 2 s r → r.state = .decode → r.doubt = false → findMove s s.serve.nextMove = none → reqBusy s r.handle = false →
    bits desc.toNat 80 8 = myDev s → (∀ g ∈ s.serve.pages, g.dirty = []) →
    Does (.movePark v desc) s [.out, .freeCount, .regs, .cons, .work, .mem, .serve, .ctl, .tel] fun t => (findReq t r.handle).map (fun x => (x.state, x.mverb)) = some (.parked, 0)) ∧
  (∀ v desc s r, moveActs v desc 3 s r → r.state = .parked → r.doubt = false → bit desc.toNat 13 = false → bits desc.toNat 80 8 = myDev s →
    findMove s s.serve.nextMove = none → (∀ g ∈ pagesOf s r, g.nearValid = true ∧ g.promo = false) →
    Does (.movePromote v desc) s [.out, .freeCount, .regs, .cons, .work, .mem, .serve, .ctl, .tel] fun t => (findReq t r.handle).map (·.state) = some (if r.inputLeft = 0 then .decode else .prefill)) ∧
  (∀ v desc s r g, moveActs v desc 3 s r → r.state = .parked → r.doubt = false → bit desc.toNat 13 = false → bits desc.toNat 80 8 = myDev s →
    g ∈ pagesOf s r → g.state = .sealed → g.nearValid = false → g.promo = false → inRange (bits desc.toNat 160 16) (bits desc.toNat 176 16) g = true →
    Does (.movePromote v desc) s [.out, .freeCount, .regs, .cons, .work, .mem, .serve, .ctl, .tel] fun t => (findReq t r.handle).map (·.state) = some .promoting ∧
      ∃ x ∈ t.serve.xfers, x.what = .promote g.ptn g.num r.handle) ∧
  (∀ v desc s r, moveActs v desc 4 s r → findMove s s.serve.nextMove = none → ownFar s r.ptn ≠ [] → Does (.moveEvict v desc) s [.out, .regs, .work, .mem, .serve, .ctl, .tel] fun t =>
    t.serve.pages = s.serve.pages ∧
    ∀ g ∈ pagesOf s r, inRange (bits desc.toNat 160 16) (bits desc.toNat 176 16) g = true → candidate g = true →
      ∃ x ∈ t.serve.xfers, x.what = .evict g.ptn g.num r.handle) ∧
  (∀ v desc s r slot gen pmap s1, moveActs v desc 5 s r →
    (∀ g ∈ pagesOf s r, g.position * r.pageLen < r.lenAt → g.state = .sealed ∧ (g.position + 1) * r.pageLen ≤ r.lenAt ∧ g.refcnt < 2 ^ 24 - 1) →
    (s.serve.pages.filter (·.ptn == r.ptn)).length ≤ pageRecords s r.ptn → newSlot (ringTake s (subRing v 2)) r.ptn = some (slot, gen) →
    allocOwn (ringTake s (subRing v 2)) r.ptn (r.layers * (r.maxTokens / r.pageLen) * 4) = some (pmap, s1) →
    Does (.moveClone v desc) s [.out, .regs, .mem, .serve, .ctl, .tel] fun t => ∃ c ∈ t.serve.reqs, c.ptn = r.ptn ∧ c.slot = slot ∧ c.gen = gen ∧ c.state = .parked ∧ c.epoch = 0 ∧
      c.seed = bits desc.toNat 192 64 ∧ c.length = r.lenAt ∧ c.model = r.model ∧ c.pmap = pmap) ∧
  (∀ v desc s r, moveActs v desc 6 s r → r.holding = false ∨ r.remoteRefs = 0 ∨ bit desc.toNat 14 = true → (∀ k ∈ s.work.tasks, k.request ≠ some r.handle) →
    Does (.moveDrop v desc) s [.out, .freeCount, .regs, .cons, .work, .mem, .serve, .ctl, .tel] fun t => findReq t r.handle = none) ∧
  (∀ v desc s r, moveActs v desc 6 s r → r.holding = true → r.remoteRefs ≠ 0 → bit desc.toNat 14 = false →
    Does (.moveDrop v desc) s [.out, .freeCount, .regs, .cons, .work, .mem, .serve, .ctl, .tel] fun t => (findReq t r.handle).map (fun x => (x.dropPending, x.remoteRefs)) = some (true, r.remoteRefs) ∧ t.serve.pages = s.serve.pages) ∧
  (∀ v desc s r gs, moveActs v desc 7 s r → readPlan (ringTake s (subRing v 2)) r.ptn (bits desc.toNat 192 64) (bits desc.toNat 256 16) = some gs →
    (r.map.any fun e => bit e.2 29 && !planned gs (e.1 % (r.maxTokens / r.pageLen))) = false →
    Does (.movePlan v desc) s [.out, .regs, .serve, .ctl, .tel] fun t => t.serve.reqs = s.serve.reqs ∧ ∃ m ∈ t.serve.moves, m.handle = r.handle ∧ m.verb = 7 ∧ m.plan = gs)

/-- Tier movers: an entry starts every transfer of its kind and partition when it sets no limit, and none for an isolated partition or for one
whose entries run empty (R94, R127, R132, R360); written blocks lose DIRTY unless a commit came between (R438); eviction takes a candidate when free
Near space is short (R389); ageing halves every heat of the partition and no other, once its
period of cycles is over (R387); a message that a mover carried leaves it (R360); a
transfer that is not yet in a mover's slot, or that a refresh or recalibration window holds, stays as it is (R101).
Where the spec leaves a point open, the clause is the model's choice or reading: log entries 8, 39, 83 and 86. -/
def Obligations.TierMovers : Prop :=
  (∀ sec ent e s, entryNow s sec ent = some e → e.cls = 0x18 → isolated s e.ptn = false → runsEmpty s e.ptn = false → e.capA = 0 → e.capB = 0 →
    (∀ m ∈ s.serve.moves, m.ptn ≠ e.ptn) → (e.action % 4 = 0 → s.serve.evicting.contains e.ptn = false) →
    Does (.moverEntryStart sec ent) s [.out, .regs, .eph, .work, .mem, .serve, .tel] fun t => (∀ x ∈ t.serve.xfers, x.ptn = e.ptn → x.kind = e.action % 4 → x.coding = false → x.running = true) ∧
      (∀ x ∈ s.serve.xfers, ∃ y ∈ t.serve.xfers, y.id = x.id ∧ y.what = x.what) ∧ (e.action % 4 ≠ 3 → t.serve.reqs = s.serve.reqs ∧ t.eph = s.eph) ∧
      (e.action % 4 = 3 → t.eph = { s.eph with pcie := s.eph.pcie ++ [(sec, ent, e.ptn)] }) ∧
      (e.action % 4 ≠ 0 → t.serve.xfers.map (·.id) = s.serve.xfers.map (·.id) ∧ t.serve.pages = s.serve.pages)) ∧
  (∀ sec ent e s, entryNow s sec ent = some e → e.cls ≠ 0x18 ∨ isolated s e.ptn = true ∨ runsEmpty s e.ptn = true →
    Does (.moverEntryStart sec ent) s [] fun t => t = s) ∧
  (∀ xfer x p num bl again g c b s, findXfer s xfer = some x → x.what = .writeBack p num bl again → xferWaits s x = false → findPage s p num = some g →
    g.stage = some (c, b) → (∀ m ∈ s.serve.moves, m.ptn ≠ p) → Does (.writebackDone xfer) s [.out, .regs, .work, .mem, .serve, .tel] fun t =>
      (findPage t p num).map (fun g => (g.dirty, g.marked)) = some (g.dirty.filter (fun k => !bl.contains k || again.contains k), false) ∧ findXfer t xfer = none) ∧
  (∀ p g s, odGet s (0x9100 + p) 4 ≠ 1 → ownFar s p ≠ [] → g ∈ s.serve.pages → g.ptn = p → candidate g = true →
    (∀ x ∈ s.serve.xfers, ∀ n h, x.what ≠ .evict p n h) → nearFree s p < odGet s (0x9180 + p) 3 →
    Does (.evictionStart p) s [.serve] fun t => t.serve.pages = s.serve.pages ∧
      ∃ k ∈ s.serve.pages, k.ptn = p ∧ candidate k = true ∧ ∃ x ∈ t.serve.xfers, x.what = .evict p k.num 0xFFFFFFFF) ∧
  (∀ p s, odGet s (0x9100 + p) 4 = 1 ∨ ownFar s p = [] → Does (.evictionStart p) s [] fun t => t = s) ∧
  (∀ p s, isolated s p = false → odGet s (0x9180 + p) 1 ≤ cnt s.serve.ageCount p → Does (.heatAging p) s [.serve] fun t =>
    t.serve.reqs = s.serve.reqs ∧ cnt t.serve.ageCount p = 0 ∧ ∀ q n, findPage t q n = (findPage s q n).map fun g => if q = p then { g with heat := g.heat / 2 } else g) ∧
  (∀ p s, isolated s p = true ∨ cnt s.serve.ageCount p < odGet s (0x9180 + p) 1 → Does (.heatAging p) s [] fun t => t = s) ∧
  (∀ xfer x dev op m s, findXfer s xfer = some x → x.running = true → x.what = .message dev op m → isolated s m.srcPtn = false →
    Does (.tierTransferDone xfer) s [.out, .serve] fun t => findXfer t xfer = none ∧ t.out = s.out ++ [.state dev op (stateClass s m.srcPtn op) (stateHeader op m) { m with items := m.body.length }]) ∧
  (∀ xfer x s, findXfer s xfer = some x → xferWaits s x = true → Does (.tierTransferDone xfer) s [] (fun t => t = s) ∧ Does (.writebackDone xfer) s [] fun t => t = s)

/-- Installs on the device that receives them (R362, R367-R369, R371-R374, R377): pages wait for their mover; a repeated INSTALL repeats the answer;
a new one makes a request that is held; COMMIT releases it, ABORT frees it, and a COMMIT too late, in doubt, changes nothing; an answer is repeated
while it is held, and doubt is noted once.
Where the spec leaves a point open, the clause is the model's choice or reading: log entry 8. -/
def Obligations.Installs : Prop :=
  (∀ dev m s, msgOk s dev m true = true → (findReq s m.dstHandle).isSome = true ∨ (findReception s m.dstPtn dev m.srcHandle m.epoch).isSome = true ∨
      (s.serve.receptions.filter (·.ptn == m.dstPtn)).length < 4096 →
    Does (.msgPages dev m) s [.serve] fun t => (∀ y ∈ pagesApart m, ∃ x ∈ t.serve.xfers, x.what = .receive dev y ∧ x.kind = 2 ∧ x.ptn = m.dstPtn) ∧
      t.serve.xfers.length = s.serve.xfers.length + (m.body.filter fun i => match i with | .page .. => true | _ => false).length ∧
      ((findReq s m.dstHandle).isSome = true ∨ (findReception t m.dstPtn dev m.srcHandle m.epoch).isSome = true) ∧ t.serve.reqs = s.serve.reqs) ∧
  (∀ dev m s, msgOk s dev m true = true → findReq s m.dstHandle = none → findReception s m.dstPtn dev m.srcHandle m.epoch = none →
    4096 ≤ (s.serve.receptions.filter (·.ptn == m.dstPtn)).length → Does (.msgPages dev m) s [.out] fun t => sentAnswer s t dev 3 stBUSY) ∧
  (∀ dev m r s, msgOk s dev m true = true →
    (s.serve.reqs.find? fun r => r.ptn == m.dstPtn && r.epoch == m.epoch && (match r.install with
      | some i => i.dev == dev && i.handle == m.srcHandle && r.mverb != 0 | none => false)) = some r →
    Does (.msgInstall dev m) s [.out] fun t => sentAnswer s t dev 3 stOK) ∧
  (∀ dev m b es pb md slot gen pmap area s s1, msgOk s dev m true = true → m.body = [.rsr b, .map es, .plan pb] → (∀ e ∈ es, bit e.2 28 = false) →
    planOk s pb (pb.length / 16) = true →
    ((((findReception s m.dstPtn dev m.srcHandle m.epoch).map (·.pages)).getD []).any fun x => (findPage s m.dstPtn x.2.2).any fun g =>
      !sameGeo (parseRsr b) g) = false →
    (s.serve.reqs.find? fun r => r.ptn == m.dstPtn && r.epoch == m.epoch && (match r.install with
      | some i => i.dev == dev && i.handle == m.srcHandle && r.mverb != 0 | none => false)) = none →
    modelOf s (parseRsr b).model = some md → md.layers = (parseRsr b).layers → md.latent = (parseRsr b).latent → (parseRsr b).dim = md.dim →
    (parseRsr b).groups = (if md.latent then 0 else md.groups) → (parseRsr b).posDim = (if md.latent then md.posDim else 0) →
    newSlot s m.dstPtn = some (slot, gen) →
    takeStructures s m.dstPtn ((parseRsr b).layers * Nat.max 1 ((parseRsr b).maxTokens / pageTokens (parseRsr b).pageCode) * 4) (Nat.max 16 pb.length) = some (pmap, area, s1) →
    Does (.msgInstall dev m) s [.out, .mem, .serve, .ctl] fun t => ∃ r ∈ t.serve.reqs, r.ptn = m.dstPtn ∧ r.slot = slot ∧ r.gen = gen ∧ r.epoch = m.epoch ∧
      r.mverb = (parseRsr b).mverb ∧ r.length = (parseRsr b).length ∧ r.install = some { dev := dev, ptn := m.srcPtn, handle := m.srcHandle, at_ := now s, ackAt := now s }) ∧
  (∀ dev m r i s, msgOk s dev m true = true → findReq s m.dstHandle = some r → r.install = some i → i.dev = dev → i.handle = m.srcHandle →
    r.mverb ≠ 0 → r.doubt = false → r.mverb ≠ 3 ∨ r.holding = true → Does (.msgCommit dev m) s [.out, .regs, .work, .mem, .serve, .ctl, .tel] fun t =>
      (findReq t m.dstHandle).map (fun x => (x.mverb, x.doubt, x.install)) =
        some (0, false, if (holdersOf r.planGroups).isEmpty then none else some { i with done := true }) ∧ t.serve.pages = s.serve.pages) ∧
  (∀ dev m s, msgOk s dev m true = true → (∀ r, findReq s m.dstHandle = some r → r.doubt = true) → Does (.msgCommit dev m) s [] fun t => t = s) ∧
  (∀ dev m r s, msgOk s dev m true = true →
    (s.serve.reqs.find? fun r => r.ptn == m.dstPtn && r.mverb != 0 && !r.doubt && (match r.install with | some i => i.dev == dev && i.handle == m.srcHandle | none => false)) = some r →
    Does (.msgAbort dev m) s [.mem, .serve, .ctl] fun t => findReq t r.handle = none ∧ findReception t m.dstPtn dev m.srcHandle m.epoch = none) ∧
  (∀ h r i s, findReq s h = some r → heldInstall r = some i → r.doubt = false → Does (.installDoubt h) s [.out, .regs, .serve, .ctl, .mgt, .alm, .tel] fun t =>
    (findReq t h).map (·.doubt) = some true ∧ t.serve.pages = s.serve.pages) ∧
  (∀ h r s, findReq s h = some r → heldInstall r = none ∨ r.doubt = true → Does (.installDoubt h) s [] fun t => t = s) ∧
  (∀ h r i s, findReq s h = some r → heldInstall r = some i → isolated s r.ptn = false → Does (.heldAckRepeat h) s [.out, .serve] fun t =>
    sentAnswer s t i.dev 3 stOK ∧ (findReq t h).map (·.install) = some (some { i with ackAt := now s })) ∧
  (∀ p dev h ep s, (findReception s p dev h ep).isSome = true → Does (.receptionExpiry p dev h ep) s [.out, .regs, .mem, .serve, .ctl, .mgt, .alm, .tel] fun t => findReception t p dev h ep = none)

/-- Installs on the device that sends (R363, R368, R370, R372, R377): INSTALL is sent again up to four times, then the move fails; pages answered
BUSY wait for their transfers again; the record of a committed install goes, once the references that moved are released too (R386); an answer to a REF or RELEASE ends it, and one that has no answer
is sent again (R383).
Where the spec leaves a point open, the clause is the model's choice or reading: log entries 36 and 92. -/
def Obligations.MoveTimers : Prop :=
  (∀ h m r s, (s.serve.moves.find? fun m => m.handle == h && m.verb ≤ 3 && m.sends != 0) = some m → findMove s m.id = some m →
    findReq s m.handle = some r → m.sends < 4 → Does (.installResend h) s [.out, .serve] fun t =>
      (findMove t m.id).map (fun x => (x.sends, x.sentAt)) = some (m.sends + 1, now s) ∧ t.serve.reqs = s.serve.reqs ∧ t.serve.pages = s.serve.pages) ∧
  (∀ h m s, (s.serve.moves.find? fun m => m.handle == h && m.verb ≤ 3 && m.sends != 0) = some m → 4 ≤ m.sends →
    Does (.installResend h) s [.out, .regs, .mem, .serve, .ctl, .tel] fun t => findMove t m.id = none) ∧
  (∀ h m s, (s.serve.moves.find? fun m => m.handle == h && m.busyAt.isSome) = some m → Does (.pagesBusyRetry h) s [.serve] fun t =>
    (∀ n ∈ m.todo, ∃ x ∈ t.serve.xfers, x.what = .send m.ptn n m.id) ∧ (∀ y ∈ t.serve.moves, y.id = m.id → y.busyAt = none) ∧ t.serve.pages = s.serve.pages) ∧
  (∀ dev h c s, (s.serve.commits.find? fun c => c.dev == dev && c.handle == h) = some c → Does (.commitRecordExpiry dev h) s [.serve] fun t =>
    t.serve.reqs = s.serve.reqs ∧ t.serve.refs = s.serve.refs ∧ (c.release = [] → t.serve.commits = s.serve.commits.filter (· != c)) ∧
    (c.release ≠ [] → { c with past := true } ∈ t.serve.commits ∧ t.serve.commits.length = s.serve.commits.length)) ∧
  (∀ dev m c s, msgOk s dev m false = true → m.args % 256 = 4 → (s.serve.commits.find? fun c => c.dev == dev && c.handle == m.dstHandle && c.old == m.srcHandle) = some c →
    Does (.msgMoveAck dev m) s [.out, .serve] fun t => t.serve.reqs = s.serve.reqs ∧ t.serve.refs.length = s.serve.refs.length + c.release.length ∧
      (∀ g ∈ c.release, ∃ f ∈ t.serve.refs, f.release = true ∧ f.dev = g.holder ∧ f.target = g.handle) ∧
      (c.past = true → c ∉ t.serve.commits) ∧ (c.past = false → { c with release := [] } ∈ t.serve.commits)) ∧
  (∀ dev m i s, msgOk s dev m true = true → m.args % 256 = 6 ∨ m.args % 256 = 7 → findReq s m.dstHandle = none →
    (s.serve.refs.findIdx? fun f => f.handle == m.dstHandle && f.dev == dev && f.target == m.srcHandle && f.release == (m.args % 256 == 7)) = some i →
    Does (.msgMoveAck dev m) s [.serve] fun t => t.serve.refs = s.serve.refs.eraseIdx i ∧ t.serve.reqs = s.serve.reqs) ∧
  (∀ dev m s, msgOk s dev m true = true → m.args % 256 = 2 → (∀ x ∈ s.serve.moves, x.handle ≠ m.dstHandle) → Does (.msgMoveAck dev m) s [] fun t => t = s) ∧
  (∀ h dev target f s, (s.serve.refs.find? fun f => f.handle == h && f.dev == dev && f.target == target) = some f → isolated s (bits h 27 5) = false →
    Does (.refResend h dev target) s [.out, .serve] fun t => sentAnswer s t dev (if f.release then 7 else 6) stOK ∧
      t.serve.refs.length = s.serve.refs.length ∧ { f with sentAt := now s } ∈ t.serve.refs)

/-- Requests held for other devices (R381, R383, R384, R396, R398): REF and RELEASE count remote references, of the request and of its pages, and are
answered; a RELEASE too many changes none and is reported to the partition and to the PF; FETCH starts a move of the pages named; QUERY joins the partition's ATTEND wait, or is refused; a message that names nothing held is
answered and changes nothing; one that is not let in is only counted (R366).
Where the spec leaves a point open, the clause is the model's choice or reading: log entry 8. -/
def Obligations.HeldRequests : Prop :=
  (∀ dev m st r s, msgOk s dev m true = true → holderOf s m = (st, some r) → Does (.msgRef dev m) s [.out, .serve] fun t =>
    (findReq t m.dstHandle).map (·.remoteRefs) = some (r.remoteRefs + 1) ∧ sentAnswer s t dev 3 stOK ∧
    ∀ p n, findPage t p n = (findPage s p n).map fun g => if p = r.ptn ∧ n ∈ r.pageNums then { g with refcnt := g.refcnt + 1 } else g) ∧
  (∀ dev m st r s, msgOk s dev m true = true → holderOf s m = (st, some r) → r.remoteRefs ≠ 0 → r.dropPending = false →
    Does (.msgRelease dev m) s [.out, .mem, .serve] fun t => (findReq t m.dstHandle).map (·.remoteRefs) = some (r.remoteRefs - 1) ∧ sentAnswer s t dev 3 stOK ∧
      ∀ p n g, findPage s p n = some g →
        (p ≠ r.ptn ∨ (∀ x ∈ refOf r dev m.srcHandle, n ∉ x.2.2) → findPage t p n = some g) ∧
        (∀ x, p = r.ptn → refOf r dev m.srcHandle = [x] → x.2.2.count n = 1 → 1 < g.refcnt → findPage t p n = some { g with refcnt := g.refcnt - 1 })) ∧
  (∀ dev m st r s, msgOk s dev m true = true → holderOf s m = (st, some r) → r.remoteRefs = 0 →
    Does (.msgRelease dev m) s [.out, .regs, .ctl, .mgt, .alm, .tel] fun t => RegsUnchanged [0x400] s t ∧ oneMore s t (pfRing 4) ∧ oneMore s t (winRing r.ptn 5)) ∧
  (∀ dev m st r s, msgOk s dev m true = true → holderOf s m = (st, some r) → findMove s s.serve.nextMove = none →
    (∃ g ∈ pagesOf s r, g.state = .sealed ∧ planned (bodyGroups m (match m.body.head? with | some (.raw b) => b.length / 16 | _ => 0)) g.position = true) →
    Does (.msgFetch dev m) s [.out, .regs, .work, .mem, .serve, .ctl, .tel] fun t => t.serve.reqs = s.serve.reqs ∧
      ∃ x ∈ t.serve.moves, x.verb = 8 ∧ x.handle = r.handle ∧ x.dest = dev ∧ x.storeHandle = m.srcHandle ∧
        ∀ g ∈ pagesOf s r, g.state = .sealed ∨ g.state = .inTransit →
          planned (bodyGroups m (match m.body.head? with | some (.raw b) => b.length / 16 | _ => 0)) g.position = true → g.num ∈ x.todo) ∧
  (∀ dev m st r s, msgOk s dev m true = true → holderOf s m = (st, some r) → (s.serve.held.filter fun q => q.ptn == r.ptn && !q.groups.isEmpty).length < 4096 →
    queryOk s m r.layers = true →
    Does (.msgQuery dev m) s [.serve] fun t => t.serve.reqs = s.serve.reqs ∧ t.serve.held.length = s.serve.held.length + 1 ∧
      (t.serve.held.getLast?).map (fun h => (h.ptn, h.handle, h.dev, h.qid, h.srcHandle)) = some (r.ptn, r.handle, dev, m.qid, m.srcHandle)) ∧
  (∀ dev m st r s, msgOk s dev m true = true → holderOf s m = (st, some r) →
    (4096 ≤ (s.serve.held.filter fun q => q.ptn == r.ptn && !q.groups.isEmpty).length → Does (.msgQuery dev m) s [.out] fun t => sentAnswer s t dev 0x11 stBUSY) ∧
    ((s.serve.held.filter fun q => q.ptn == r.ptn && !q.groups.isEmpty).length < 4096 → queryOk s m r.layers = false →
      Does (.msgQuery dev m) s [.out] fun t => sentAnswer s t dev 0x11 stFORMAT)) ∧
  (∀ dev m st s, msgOk s dev m true = true → holderOf s m = (st, none) →
    Does (.msgRef dev m) s [.out] (fun t => sentAnswer s t dev 3 st) ∧ Does (.msgRelease dev m) s [.out] (fun t => sentAnswer s t dev 3 st) ∧
    Does (.msgQuery dev m) s [.out] (fun t => sentAnswer s t dev 0x11 st) ∧ Does (.msgFetch dev m) s [] fun t => t = s) ∧
  (∀ dev m s, msgOk s dev m true = false → Does (.msgPages dev m) s [.ctl] (fun t => OdUnchanged [(0x9200 + m.dstPtn, 4)] s t) ∧
    Does (.msgCommit dev m) s [.ctl] (fun t => OdUnchanged [(0x9200 + m.dstPtn, 4)] s t) ∧ Does (.msgAbort dev m) s [.ctl] (fun t => OdUnchanged [(0x9200 + m.dstPtn, 4)] s t) ∧
    Does (.msgFetch dev m) s [.ctl] (fun t => OdUnchanged [(0x9200 + m.dstPtn, 4)] s t) ∧ Does (.msgRef dev m) s [.ctl] (fun t => OdUnchanged [(0x9200 + m.dstPtn, 4)] s t) ∧
    Does (.msgRelease dev m) s [.ctl] (fun t => OdUnchanged [(0x9200 + m.dstPtn, 4)] s t) ∧ Does (.msgQuery dev m) s [.ctl] (fun t => OdUnchanged [(0x9200 + m.dstPtn, 4)] s t) ∧
    Does (.msgPartial dev m) s [.ctl] fun t => OdUnchanged [(0x9200 + m.dstPtn, 4)] s t)

/-- Remote attention (R399, R400): a PARTIAL fills exactly the outstanding queries that it answers, and the place of its group in the partial buffer;
BUSY waits; EPOCH, ACCESS or FORMAT makes the request HELD, which asks nothing more; an unanswered query is asked again, and after four sends its
request is HELD too. Loss of memory: a Far channel is LOST once and no other channel changes; the scan
poisons every page whose only copy lay there; a lost stack stays lost and no other stack changes (R446, R449, R783).
Where the spec leaves a point open, the clause is the model's choice or reading: log entries 8 and 91. -/
def Obligations.AttentionAndLoss : Prop :=
  (∀ dev m b s, msgOk s dev m true = true → m.status = stOK → m.body.head? = some (.raw b) → Does (.msgPartial dev m) s [.mem, .serve] fun t =>
    t.serve.reqs = s.serve.reqs ∧ t.serve.queries.length = s.serve.queries.length ∧
    ∀ (i : Nat) (q : Query), s.serve.queries[i]? = some q →
      (q.handle = m.dstHandle ∧ q.qid = m.qid ∧ q.epoch = m.epoch ∧ q.group.holder = dev ∧ q.partial_ = none ∧ q.group.first = leAt b 4 4 ∧
        q.group.log2 = leAt b 2 1 % 32 → t.serve.queries[i]? = some { q with partial_ := some b }) ∧
      (q.handle ≠ m.dstHandle ∨ q.qid ≠ m.qid ∨ q.epoch ≠ m.epoch ∨ q.group.holder ≠ dev ∨ q.partial_ ≠ none ∨ q.group.first ≠ leAt b 4 4 ∨
        q.group.log2 ≠ leAt b 2 1 % 32 → t.serve.queries[i]? = some q)) ∧
  (∀ dev m b q r md s, msgOk s dev m true = true → m.status = stOK → m.body.head? = some (.raw b) → findReq s m.dstHandle = some r → modelOf s r.model = some md →
    r.partialBuf ≠ 0 → (s.serve.queries.find? fun q => q.handle == m.dstHandle && q.qid == m.qid && q.epoch == m.epoch && q.group.holder == dev && q.partial_.isNone &&
      q.group.first == leAt b 4 4 && q.group.log2 == leAt b 2 1 % 32) = some q →
    Does (.msgPartial dev m) s [.mem, .serve] fun t => tierRead t (bufferAddr s r md q.group) (b.take (partialSlot s r md)).length = b.take (partialSlot s r md)) ∧
  (∀ dev m s, msgOk s dev m true = true → m.status ≠ stOK → cleanStatus m.status ≠ stEPOCH → cleanStatus m.status ≠ stACCESS → cleanStatus m.status ≠ stFORMAT →
    Does (.msgPartial dev m) s [] fun t => t = s) ∧
  (∀ dev m q r s, msgOk s dev m true = true → m.status = stEPOCH ∨ m.status = stACCESS ∨ m.status = stFORMAT → findReq s m.dstHandle = some r →
    (s.serve.queries.find? fun q => q.handle == m.dstHandle && q.qid == m.qid && q.epoch == m.epoch && q.group.holder == dev && q.partial_.isNone &&
      q.group.handle == m.srcHandle) = some q → Does (.msgPartial dev m) s [.out, .regs, .serve, .ctl, .mgt, .alm, .tel] fun t =>
      (findReq t m.dstHandle).map (·.held) = some true ∧ ∀ x ∈ t.serve.queries, x.handle ≠ m.dstHandle) ∧
  (∀ h qid first log q s,
    (s.serve.queries.find? fun q => q.handle == h && q.qid == qid && q.group.first == first && q.group.log2 == log && q.partial_.isNone) = some q →
    q.sends < 4 → Does (.queryResend h qid first log) s [.serve] fun t =>
      { q with sends := q.sends + 1, sentAt := now s } ∈ t.serve.queries ∧ ∃ x ∈ t.serve.xfers, x.what = .message q.group.holder 0x10 q.msg) ∧
  (∀ h qid first log q r s,
    (s.serve.queries.find? fun q => q.handle == h && q.qid == qid && q.group.first == first && q.group.log2 == log && q.partial_.isNone) = some q →
    4 ≤ q.sends → findReq s h = some r → Does (.queryResend h qid first log) s [.out, .regs, .serve, .ctl, .mgt, .alm, .tel] fun t =>
      (findReq t h).map (·.held) = some true ∧ ∀ x ∈ t.serve.queries, x.handle ≠ h) ∧
  (∀ ch s, ch < 16 → s.shaped = true → (s.mem.chans.getD ch {}).far.isSome = true → (s.mem.chans.getD ch {}).state ≠ 4 →
    Does (.farChannelLost ch) s [.out, .regs, .mem, .ctl, .mgt, .alm, .tel] fun t => (t.mem.chans.getD ch {}).state = 4 ∧ t.mem.bytes = s.mem.bytes ∧
      ∀ k, k ≠ ch → t.mem.chans.getD k {} = s.mem.chans.getD k {}) ∧
  (∀ ch s, (s.mem.chans.getD ch {}).far = none ∨ (s.mem.chans.getD ch {}).state = 4 → Does (.farChannelLost ch) s [] fun t => t = s) ∧
  (∀ ch g s, (s.mem.chans.getD ch {}).state = 4 → findPage s g.ptn g.num = some g → farOn s g ch = true → g.nearValid = false →
    Does (.farScanDone ch) s [.mem, .serve] fun t => (findPage t g.ptn g.num).map (·.farPoison) = some true ∧ t.serve.reqs = s.serve.reqs) ∧
  (∀ ch s, (s.mem.chans.getD ch {}).state ≠ 4 → Does (.farScanDone ch) s [] fun t => t = s) ∧
  (∀ k s, k < 12 → s.shaped = true → stackLost s k = false → s.serve.reqs = [] → Does (.stackLost k) s [.out, .freeCount, .regs, .cons, .work, .mem, .serve, .ctl, .mgt, .alm, .tel] fun t =>
    (t.mem.nears.getD k {}).lost = true ∧ ∀ n, n ≠ k → t.mem.nears.getD n {} = s.mem.nears.getD n {}) ∧
  (∀ k s, 12 ≤ k ∨ stackLost s k = true → Does (.stackLost k) s [] fun t => t = s)

/-- Issue (R79, R177, R180, R181): an instruction that its sequencer cannot issue changes nothing, and one whose encoding is reserved ends its
instance with FORMAT at its own address.
Where the spec leaves a point open, the clause is the model's choice or reading: log entries 8 and 73. -/
def Obligations.InstructionIssue : Prop :=
  ∀ inst n s, ∀ c ∈ [(Instr.instrLdt inst, 0x01), (.instrStt inst, 0x02), (.instrMma inst, 0x10), (.instrMmaq inst, 0x11), (.instrRope inst, 0x20),
      (.instrSmax inst, 0x21), (.instrPv inst, 0x22), (.instrMrg inst, 0x23), (.instrEnc inst, 0x31), (.instrRed inst n, 0x40), (.instrNorm inst n, 0x41),
      (.instrAct inst n, 0x42), (.instrSamp inst, 0x43), (.instrStop inst, 0x44), (.instrMov inst n, 0x50), (.instrWait inst, 0x52), (.instrYield inst, 0x53),
      (.instrEnd inst, 0x5F)],
    (ready s inst c.2 = none → (c.2 = 0x52 → ∀ i, findInst s inst = some i → i.stop = none) → Does c.1 s [] fun u => u = s) ∧
    (∀ i t x, ready s inst c.2 = some (i, t, x) → commonOk i x = false → (c.2 ≤ 2 → i.execs = 0) →
      Does c.1 s [.out, .freeCount, .regs, .cons, .work, .mem, .serve, .ctl, .tel] fun u => u = failInst s inst stFORMAT (insDetail i))

/-- Matrix, rotation and attention instructions that run once on readable operands (R198-R204, R311, R323-R333, R341, R343): the result that the
rules give stands at the destination, no other byte of SRAM changes, and the instance goes on. A product's accumulators are kept in FP32.
Where the spec leaves a point open, the clause is the model's choice or reading: log entries 27, 29 and 73. -/
def Obligations.TensorResults : Prop :=
  (∀ inst i t x ka kb kd a b c s, runsOnce s inst 0x10 i t x → pairOk x.fa x.fb = true → matrixDst x.fd = true → kOk x (kOf x (x.spec 103 7)) = true →
    matSplit x = true → productOf s (reqWidth s inst) i t x ka kb kd a b c → Does (.instrMma inst) s [.freeCount, .work, .serve, .tel] fun u =>
      accumulated s u inst x kd (matMul (x.fa == 0) (kOf x (x.spec 103 7)) a b c) ∧ goesOn u inst i) ∧
  (∀ inst i t x ka kb kd a b c s, runsOnce s inst 0x11 i t x → kvqPair x.fa x.fb = true → matrixDst x.fd = true → kvqBits (x.spec 110 3) ≠ 0 →
    kOk x (kOf x (x.spec 103 7)) = true → matSplit x = true → productOf s (x.spec 110 3) i t x ka kb kd a b c →
    Does (.instrMmaq inst) s [.freeCount, .work, .serve, .tel] fun u =>
      accumulated s u inst x kd (matMul (x.fa == 0) (kOf x (x.spec 103 7)) a b c) ∧ goesOn u inst i) ∧
  (∀ inst i t x tab w nb ka kt kd v tb out s, runsOnce s inst 0x20 i t x → x.fa ≤ 0xC → x.fd = 1 → tab = ropeTab s x → ropeBad tab = false →
    splitOk x [(x.fa, ropeElems tab)] = true → w = ((reqOf s i).map (·.widthCode)).getD 1 → nb = (ropeElems tab + 31) / 32 →
    operandAt s i t x 1 (ropeLines s i x) ka → operandAt s i t x 2 1 kt → operandAt s i t x 0 (fmtLines 1 (32 * ropeOut tab)) kd →
    (isKvq x.fa = true → kvqVals s t.ptn x.fa w ka 1 (nb * 32) nb 0 = .ok v) → (isKvq x.fa = false → readVals s x.fa ka (ropeElems tab) = some v) → readOp s kt 64 = some tb →
    accAdd s x kd ((ropeRows tab (parseTile tb) (v.map w32)).map r32) = some out → unmirrored s kd (writeNums 1 none out).length →
    Does (.instrRope inst) s [.freeCount, .work, .serve, .tel] fun u => stored s u kd (writeNums 1 none out) ∧ goesOn u inst i) ∧
  (∀ inst i t x pr ka kt kd sc tb rs bm st r s, runsOnce s inst 0x21 i t x → x.fa = 0 → x.spec 103 3 < 6 → pr = progAt s (64 * x.spec 109 12) 64 →
    operandAt s i t x 1 64 ka → operandAt s i t x 2 1 kt → operandAt s i t x 0 35 kd → readOp s ka 4096 = some sc → readOp s kt 64 = some tb →
    smaxBad x pr (parseTile tb) = false → (parseTile tb).rowState + 4 ≤ 65536 → (x.spec 103 3 = 5 → (parseTile tb).bitmap * 64 + (parseTile tb).kpos / 256 + 2 ≤ 65536 * 64) → rs = scratchKey (instPhys s i) (instCluster i) ((parseTile tb).rowState * 64) → smaxOld s x rs = some st →
    smaxBits s i x (parseTile tb) = some bm → r = smaxTile s x pr (parseTile tb) sc bm st →
    unmirrored s kd 2240 → unmirrored s rs 256 → kd + 2240 ≤ rs ∨ rs + 256 ≤ kd → Does (.instrSmax inst) s [.freeCount, .work, .serve, .tel] fun u =>
      sramRead u kd 2240 = r.1 ∧ sramRead u rs 256 = (r.2.1.map (leBytes 4)).flatten ++ (r.2.2.map (leBytes 4)).flatten ∧ goesOn u inst i ∧
      ∀ k, k < kd ∨ kd + 2240 ≤ k → k < rs ∨ rs + 256 ≤ k → sget byte0 u.work.sram k = sget byte0 s.work.sram k) ∧
  (∀ inst i t x w st ka kb kd foot v o s, runsOnce s inst 0x22 i t x → x.fa = 1 → (isHalf x.fb || isKvq x.fb) = true → matrixDst x.fd = true →
    pvSteps x * kStep x.fa x.fb = 32 → splitOk x [(x.fd, 1024)] = true → w = ((reqOf s i).map (·.widthCode)).getD 1 → st = rowBlocks (reqOf s i) 32 →
    operandAt s i t x 1 35 ka → operandAt s i t x 2 (pvLines s i x) kb → operandAt s i t x 0 (fmtLines x.fd 1024) kd → readOp s ka 2240 = some foot →
    matVals s t.ptn x.fb w kb 32 st 0 = .ok v → (if bit x.word 108 then some [] else heldAcc s i x.fd kd) = some o →
    unmirrored s kd (operandBytes x.fd 1024) → Does (.instrPv inst) s [.freeCount, .work, .serve, .tel] fun u =>
      accumulated s u inst x kd (pvTile foot v (bit x.word 108) o) ∧ goesOn u inst i) ∧
  (∀ inst i t x ka0 kb0 ka kb kd n m a b h0 h ls s, runsOnce s inst 0x23 i t x → x.fd ≤ 0xA → extentsOk s i t x (mrgOps s i t x) = true →
    operandAt s i t x 1 1 ka0 → operandAt s i t x 2 1 kb0 → n = (parsePartial (sramRead s ka0 64)).bytes → m = (parsePartial (sramRead s kb0 64)).bytes →
    operandAt s i t x 1 (lines n) ka → operandAt s i t x 2 (lines m) kb → readOp s ka n = some a → readOp s kb m = some b → mergePartials a b = some (h0, ls) →
    h = { h0 with bf16_ := t.bf16.getD h0.bf16_ } →
    (bit x.word 103 = false → operandAt s i t x 0 (lines (writePartial h ls).length) kd → unmirrored s kd (writePartial h ls).length →
      Does (.instrMrg inst) s [.freeCount, .work, .serve, .tel] fun u => stored s u kd (writePartial h ls) ∧ goesOn u inst i) ∧
    (bit x.word 103 = true → operandAt s i t x 0 (lines (writeNums x.fd none ((ls.map finalise).flatten)).length) kd →
      unmirrored s kd (writeNums x.fd none ((ls.map finalise).flatten)).length →
      Does (.instrMrg inst) s [.freeCount, .work, .serve, .tel] fun u => stored s u kd (writeNums x.fd none ((ls.map finalise).flatten)) ∧ goesOn u inst i))

/-- Key-value and vector instructions that run once on readable operands (R192, R205, R211, R264, R275, R286, R287, R299-R301, R485, R486, R492): the result
that the rules give stands at the destination, no other byte of SRAM changes, and the instance goes on; with a mirror the same bytes stand at the mirror.
ENC records the length of its page, and leaves the slot page where the coded one is too long. NORM's values are free functions of its elements and
their sum of squares.
Where the spec leaves a point open, the clause is the model's choice or reading: log entries 11, 27, 73, 89 and 90. -/
def Obligations.VectorResults : Prop :=
  (∀ inst n i t x ka kd v s, runsOnce s inst 0x30 i t x → plainFmt x.fa = true → x.fd = 0xB → kvqBits (x.spec 103 3) ≠ 0 → n % 32 = 0 →
    splitOk x [(x.fa, n)] = true → operandAt s i t x 1 (fmtLines x.fa n) ka → operandAt s i t x 0 (slotLines (kvqBits (x.spec 103 3)) (n / 32)) kd →
    readVals s x.fa ka n = some v → unmirrored s kd (slotLines (kvqBits (x.spec 103 3)) (n / 32) * 64) →
    Does (.instrQnt inst n) s [.freeCount, .work, .serve, .tel] fun u =>
      stored s u kd (((chunks 32 v).map (quantBlock (kvqBits (x.spec 103 3)))).map (writeSlot (kvqBits (x.spec 103 3)))).flatten ∧ goesOn u inst i ∧
      (findInst u inst).map (·.qnts) = some (i.qnts + if bit x.word 106 then 1 else 0)) ∧
  (∀ inst i t x r g c tab total comp pos c0 c1 page slot ka kb kd bs s, runsOnce s inst 0x31 i t x → x.fa = 0xB → x.fd = 0xC → reqOf s i = some r → g = r.geo →
    c = (if g.latent then 0 else i.encs % 2) → encTable s t r.model t.layer (compNum g.latent c) g.width (x.spec 103 12) = some tab →
    total = g.p * (if c = 0 then g.d0 else g.d1) / 32 → operandAt s i t x 1 (slotLines (kvqBits g.width) total) ka →
    readOp s ka (total * slotBlockBytes (kvqBits g.width)) = some bs →
    ((g.latent && g.d1 != 0) = true → operandAt s i t x 2 (lines (bf16Comp g g.d1)) kb ∧ readOp s kb (bf16Comp g g.d1) = some pos) →
    ((g.latent && g.d1 != 0) = false → pos = []) →
    comp = encComponent (kvqBits g.width) (tab.map fun b => assignCodes b.lengths)
      ((List.range total).map fun b => readSlot (kvqBits g.width) bs (b * slotBlockBytes (kvqBits g.width))) →
    c0 = (if c = 0 then comp else i.packed) → c1 = (if g.latent then pos else if c = 0 then [] else comp) → page = codedPage g c0 c1 →
    slot = padTo (slotTilesOf g * 4096) (padTo (alignLine (slotComp g g.d0)) (if c = 0 then bs else i.slot0) ++ if g.latent then pos else if c = 0 then [] else bs) →
    unmirrored s kd page.length → unmirrored s kd slot.length →
    (((g.latent || c == 1) && escapeOnly g c0 c1 page) = true → operandAt s i t x 0 (slotTilesOf g * 64) kd → Does (.instrEnc inst) s [.freeCount, .work, .serve, .tel] fun u =>
      stored s u kd slot ∧ goesOn u inst i ∧ (findInst u inst).map (·.encs) = some (i.encs + 1) ∧
      ∀ num, encPage s t r = some num → ∀ p, findPage u t.ptn num = some p → p.packedLen = 0) ∧
    (((g.latent || c == 1) && escapeOnly g c0 c1 page) = false → operandAt s i t x 0 (lines page.length) kd → Does (.instrEnc inst) s [.freeCount, .work, .serve, .tel] fun u =>
      goesOn u inst i ∧ (findInst u inst).map (·.encs) = some (i.encs + 1) ∧ (g.latent = true → stored s u kd page) ∧
      (g.latent = false → c = 0 → stored s u kd (bytesAt page 0 4 ++ leBytes 4 0 ++ page.drop 8)) ∧
      (g.latent = false → c = 1 → sramRead u (kd + 4) 4 = leBytes 4 (16 + align16 c0.length) ∧
        sramRead u (kd + (16 + align16 c0.length)) (page.drop (16 + align16 c0.length)).length = page.drop (16 + align16 c0.length) ∧
        ∀ k, k < kd ∨ kd + page.length ≤ k → sget byte0 u.work.sram k = sget byte0 s.work.sram k) ∧
      ∀ num, encPage s t r = some num → (findPage u t.ptn num).map (·.packedLen) =
        (findPage s t.ptn num).map fun p => if g.latent || c == 1 then page.length / 64 else p.packedLen)) ∧
  (∀ inst n i t x ka kd bs out s, runsOnce s inst 0x40 i t x → anyFmt x.fa = true → anyFmt x.fd = true → x.spec 103 2 < 3 → n ≠ 0 → splitOk x [(x.fa, n)] = true →
    operandAt s i t x 1 (fmtLines x.fa n) ka → operandAt s i t x 0 (fmtLines x.fd 1) kd → readOp s ka (operandBytes x.fa n) = some bs →
    accAdd s x kd [reduce x.fa (x.spec 103 2) (readNums x.fa n bs) ((List.range n).map fun j => leAt bs (4 * j) 4)] = some out →
    unmirrored s kd (writeNums x.fd none out).length → Does (.instrRed inst n) s [.freeCount, .work, .serve, .tel] fun u =>
      stored s u kd (writeNums x.fd none out) ∧ goesOn u inst i) ∧
  (∀ inst n i t x ka kd v res out s, runsOnce s inst 0x41 i t x → plainFmt x.fa = true → plainFmt x.fd = true → n ≠ 0 →
    splitOk x [(x.fa, n), (x.fd, n)] = true → operandAt s i t x 1 (fmtLines x.fa n) ka → operandAt s i t x 0 (fmtLines x.fd n) kd → readVals s x.fa ka n = some v →
    res = Config.norm (bit x.word 103) (BitVec.ofNat 32 (sumSquares v)) (v.map fun a => BitVec.ofNat 32 (w32 a)) →
    accAdd s x kd ((List.range n).map fun j => r32 (res.getD j 0).toNat) = some out → unmirrored s kd (writeNums x.fd none out).length →
    Does (.instrNorm inst n) s [.freeCount, .work, .serve, .tel] fun u => stored s u kd (writeNums x.fd none out) ∧ goesOn u inst i) ∧
  (∀ inst n i t x fn ka kd v out s, runsOnce s inst 0x42 i t x → plainFmt x.fa = true → plainFmt x.fd = true → fn = x.spec 103 4 → fn < 0xA → n ≠ 0 →
    splitOk x [(x.fa, n), (x.fd, n)] = true → operandAt s i t x 1 (fmtLines x.fa n) ka → operandAt s i t x 0 (fmtLines x.fd n) kd → readVals s x.fa ka n = some v →
    accAdd s x kd (if fn ≤ 1 then v else v.map fun a => r32 (actFn fn (w32 a))) = some out → unmirrored s kd (fmtLines x.fd n * 64) →
    (fn ≠ 1 → Does (.instrAct inst n) s [.freeCount, .work, .serve, .tel] fun u => stored s u kd (writeNums x.fd none out) ∧ goesOn u inst i) ∧
    (fn = 1 → Does (.instrAct inst n) s [.freeCount, .work, .serve, .tel] fun u =>
      stored s u kd (writeNums x.fd (some fun j => (philox j (i.args.getD 2 0 % 2 ^ 32) 2 0 (i.args.getD 3 0)).1) out) ∧ goesOn u inst i)) ∧
  (∀ inst i t x r v ka kd bs s, runsOnce s inst 0x43 i t x → x.fa = 0 → x.fd = 0xD → reqOf s i = some r →
    v = ((modelOf s r.model).map (·.vocab)).getD 0 → operandAt s i t x 1 (fmtLines 0 v) ka → operandAt s i t x 0 1 kd → readOp s ka (4 * v) = some bs →
    unmirrored s kd 8 → (x.acc = true → (readOp s kd 8).isSome = true) → Does (.instrSamp inst) s [.freeCount, .work, .serve, .tel] fun u => goesOn u inst i ∧
      (t.hostSamples = true → u.work.sram = s.work.sram ∧ (findInst u inst).map (·.logits) = some ((List.range v).map fun j => leAt bs (4 * j) 4)) ∧
      (t.hostSamples = false → ∀ tok, sample ((List.range v).map fun j => leAt bs (4 * j) 4) r.temp r.topP r.topK r.seed r.nextIndex = some tok →
        ∀ out, tokenOut s x kd tok r.nextIndex = some out → stored s u kd out ∧ (findInst u inst).map (·.token) = some (some tok)) ∧
      (t.hostSamples = false → sample ((List.range v).map fun j => leAt bs (4 * j) 4) r.temp r.topP r.topK r.seed r.nextIndex = none →
        u.work.sram = s.work.sram ∧ (findInst u inst).map (fun j => (j.token, j.noToken)) = some (none, true))) ∧
  (∀ inst i t x r s, runsOnce s inst 0x44 i t x → reqOf s i = some r →
    (x.fd ≠ 0xD ∨ ((opKey s i t x 0 1 0).isSome = true ∧ i.token = none) → Does (.instrStop inst) s [.freeCount, .work, .serve, .tel] fun u =>
      goesOn u inst i ∧ u.work.sram = s.work.sram ∧
      (findInst u inst).map (·.reason) = some (match i.token with | some tok => stopReason r tok | none => i.reason)) ∧
    (∀ kd tok out, x.fd = 0xD → operandAt s i t x 0 1 kd → i.token = some tok → tokenOut s x kd tok r.nextIndex = some out → unmirrored s kd 8 →
      Does (.instrStop inst) s [.freeCount, .work, .serve, .tel] fun u =>
        goesOn u inst i ∧ stored s u kd out ∧ (findInst u inst).map (·.reason) = some (stopReason r tok))) ∧
  (∀ inst n i t x ka kd m s, runsOnce s inst 0x50 i t x → n ≠ 0 → operandAt s i t x 1 n ka → operandAt s i t x 0 n kd → movOut s x ka kd n = some m →
    unmirrored s kd (n * 64) → Does (.instrMov inst n) s [.freeCount, .work, .serve, .tel] fun u =>
      stored s u kd m.1 ∧ (x.acc = false → stored s u kd (sramRead s ka (n * 64))) ∧ goesOn u inst i) ∧
  (∀ inst n i t x ka kd g c b c' b' s, runsOnce s inst 0x50 i t x → x.acc = false → n ≠ 0 → operandAt s i t x 1 n ka → operandAt s i t x 0 n kd →
    s.serve.pages = [g] → g.stage = some (c, b) → g.mirror = some (c', b') → 2 ^ 34 ≤ kd → kd < 2 ^ 35 → stageKey s c b ≤ kd →
    kd + n * 64 ≤ stageKey s c b + openBlocks g.geo * 4096 → Does (.instrMov inst n) s [.freeCount, .work, .serve, .tel] fun u =>
      sramRead u (stageKey s c' b' + (kd - stageKey s c b)) (n * 64) = sramRead s ka (n * 64) ∧ goesOn u inst i)

/-- Control (R158, R162, R181, R183, R185-R187): WAIT stalls while too many transfers are outstanding; SYNC stalls until every instance of the task,
those that have ended too, has issued it, then all go on; YIELD and the 64th cycle are checkpoints, at which an instance that has been asked to
stop stops; END waits for its stores, and an instance that has been cancelled or has lost its epoch stops in its place; a reserved opcode ends the
instance.
Where the spec leaves a point open, the clause is the model's choice or reading: log entries 31, 71 and 73. -/
def Obligations.SequencerControl : Prop :=
  (∀ inst i t x n s, runsOnce s inst 0x51 i t x → (s.work.insts.map (·.id)).Nodup → n = i.syncs.count (x.spec 103 8) + 1 →
    ((∃ j ∈ s.work.insts, j.task = i.task ∧ j.id ≠ inst ∧ j.syncs.count (x.spec 103 8) < n) ∨ (∃ l ∈ t.syncs, l.count (x.spec 103 8) < n)) →
    Does (.instrSync inst) s [.freeCount, .work, .serve, .tel] fun u =>
      goesOn u inst i ∧ u.work.sram = s.work.sram ∧ (findInst u inst).map (·.sync) = some (some (x.spec 103 8))) ∧
  (∀ inst i t x n s, runsOnce s inst 0x51 i t x → (s.work.insts.map (·.id)).Nodup → n = i.syncs.count (x.spec 103 8) + 1 →
    (∀ j ∈ s.work.insts, j.task = i.task → j.id ≠ inst → n ≤ j.syncs.count (x.spec 103 8)) → (∀ l ∈ t.syncs, n ≤ l.count (x.spec 103 8)) →
    Does (.instrSync inst) s [.freeCount, .work, .serve, .tel] fun u => goesOn u inst i ∧ u.work.sram = s.work.sram ∧
      (findInst u inst).map (·.sync) = some none ∧
      ∀ j ∈ s.work.insts, j.task = i.task → j.id ≠ inst → j.sync = some (x.spec 103 8) → j.syncs.count (x.spec 103 8) = n →
        (findInst u j.id).map (·.sync) = some none) ∧
  (∀ inst i t x s, runsOnce s inst 0x52 i t x → x.spec 103 6 ≤ 32 → Does (.instrWait inst) s [.freeCount, .work, .serve, .tel] fun u =>
    goesOn u inst i ∧ u.work.sram = s.work.sram ∧ (findInst u inst).map (·.wait) = some (if i.tiles.length ≤ x.spec 103 6 then none else some (x.spec 103 6))) ∧
  (∀ inst i t x s, runsOnce s inst 0x53 i t x → Does (.instrYield inst) s [.freeCount, .work, .serve, .tel] fun u =>
    goesOn u inst i ∧ u.work.sram = s.work.sram ∧ (findInst u inst).map (·.issued) = some 0) ∧
  (∀ inst i t x st s, ready s inst 0x53 = some (i, t, x) → commonOk i x = true → i.stop = some st → (∃ k ∈ i.tiles, k.load = false) →
    Does (.instrYield inst) s [.freeCount, .work, .serve, .tel] fun u =>
      (findInst u inst).map (fun j => (j.ending, j.stop, j.tiles)) = some (true, some st, i.tiles.filter fun k => !k.load)) ∧
  (∀ inst i t x s, ready s inst 0x5F = some (i, t, x) → commonOk i x = true → i.stop = none ∨ i.stop = some stRETRIED → (∃ k ∈ i.tiles, k.load = false) →
    Does (.instrEnd inst) s [.freeCount, .work, .serve, .tel] fun u =>
      (findInst u inst).map (fun j => (j.ending, j.stop, j.tiles)) = some (true, none, i.tiles.filter fun k => !k.load)) ∧
  (∀ inst i t x s, ready s inst 0x5F = some (i, t, x) → commonOk i x = true → i.stop = none ∨ i.stop = some stRETRIED → (∀ k ∈ i.tiles, k.load = true) →
    Does (.instrEnd inst) s [.out, .freeCount, .regs, .cons, .work, .mem, .serve, .ctl, .tel] fun u =>
      u = endInst (retire (markStart s i t) i t 0x5F) inst stOK 0) ∧
  (∀ inst i t x st s, ready s inst 0x5F = some (i, t, x) → commonOk i x = true → i.stop = some st → st ≠ stRETRIED →
    Does (.instrEnd inst) s [.out, .freeCount, .regs, .cons, .work, .mem, .serve, .ctl, .tel] fun u =>
      u = stopInst s inst st) ∧
  (∀ inst i s, findInst s inst = some i → (ready s inst (insAt s i).opc).isSome = true → knownOpcode (insAt s i).opc = false ∨ commonOk i (insAt s i) = false →
    Does (.illegalInstruction inst) s [.out, .freeCount, .regs, .cons, .work, .mem, .serve, .ctl, .tel] fun u => u = failInst s inst stFORMAT (insDetail i)) ∧
  (∀ inst i s, findInst s inst = some i → knownOpcode (insAt s i).opc = true → commonOk i (insAt s i) = true →
    Does (.illegalInstruction inst) s [] fun u => u = s) ∧
  (∀ inst i s, findInst s inst = some i → i.ending = false → i.started = true → stalled i = false → i.stop = none →
    Does (.checkpoint64 inst) s [.work, .tel] fun u => (findInst u inst).map (·.issued) = some 0 ∧
      cnt u.work.unsent (counterUnit i.uid * 8 + 7) = (cnt s.work.unsent (counterUnit i.uid * 8 + 7) + 1) % 2 ^ 48) ∧
  (∀ inst i st s, findInst s inst = some i → i.ending = false → i.started = true → stalled i = false → i.stop = some st →
    (∃ k ∈ i.tiles, k.load = false) → Does (.checkpoint64 inst) s [.work, .tel] fun u =>
      (findInst u inst).map (fun j => (j.ending, j.stop, j.tiles)) = some (true, some st, i.tiles.filter fun k => !k.load)) ∧
  (∀ inst i s, findInst s inst = some i → i.ending = true ∨ i.started = false ∨ stalled i = true → Does (.checkpoint64 inst) s [] fun u => u = s)

/-- Tile transfers with this device's memory (R181, R187, R251, R265, R313, R437, R439, R454): LDT and STT join the transfers outstanding, STT with the
bytes that stood in SRAM as it issued, and stall while their cluster's 32 are; the load writes the tile's bytes into SRAM and tags the frame, the
store writes them at its destination and tells a seal of its tile.
Where the spec leaves a point open, the clause is the model's choice or reading: log entries 29, 39 and 68. -/
def Obligations.TileTransfers : Prop :=
  (∀ inst i t x tier a d kd s, runsOnce s inst 0x01 i t x → i.execs = 0 → clusterTiles s i < 32 → tier = x.spec 108 4 → tier < 3 → bit x.word 103 = false →
    tierAddress s i t x 1 0 = some a → tileStatus s t.ptn tier a = 0 → localTier s tier a = some d → operandAt s i t x 0 64 kd →
    Does (.instrLdt inst) s [.freeCount, .work, .serve, .tel, .mem] fun u =>
      goesOn u inst i ∧ u.work.sram = s.work.sram ∧ u.mem.bytes = s.mem.bytes ∧
      (findInst u inst).map (fun j => j.tiles.map fun k => (k.id, k.load, k.tier, k.addr, k.sram)) =
        some ((i.tiles.map fun k => (k.id, k.load, k.tier, k.addr, k.sram)) ++ [(s.work.nextTile, true, tier, a, kd)])) ∧
  (∀ inst i t x tier a ka s, runsOnce s inst 0x02 i t x → i.execs = 0 → clusterTiles s i < 32 → tier = x.spec 108 4 → tier < 3 → tierAddress s i t x 0 0 = some a →
    tileStatus s t.ptn tier a = 0 → (localTier s tier a).isSome = true → operandAt s i t x 1 64 ka →
    Does (.instrStt inst) s [.freeCount, .work, .serve, .tel] fun u => goesOn u inst i ∧ u.work.sram = s.work.sram ∧
      (findInst u inst).map (fun j => j.tiles.map fun k => (k.id, k.load, k.addr, k.bytes)) =
        some ((i.tiles.map fun k => (k.id, k.load, k.addr, k.bytes)) ++ [(s.work.nextTile, false, a, sramRead s ka 4096)])) ∧
  (∀ inst i t x s, ready s inst 0x01 = some (i, t, x) → i.stop = none → i.execs ≠ 0 → i.execs < (executions i x).getD 1 → 32 ≤ clusterTiles s i →
    Does (.instrLdt inst) s [.work] fun u => (findInst u inst).map (fun j => (j.pc, j.execs, j.tiles)) = some (i.pc, i.execs, i.tiles)) ∧
  (∀ inst i t x s, ready s inst 0x02 = some (i, t, x) → i.stop = none → i.execs ≠ 0 → i.execs < (executions i x).getD 1 → 32 ≤ clusterTiles s i →
    Does (.instrStt inst) s [.work] fun u => (findInst u inst).map (fun j => (j.pc, j.execs, j.tiles)) = some (i.pc, i.execs, i.tiles)) ∧
  (∀ inst tile i t tl d s, findInst s inst = some i → i.tiles.find? (fun k => k.id == tile && k.load) = some tl → taskOf s i = some t →
    localTier s tl.tier tl.addr = some d → tl.decode = false → i.ending = false → unmirrored s tl.sram 4096 →
    s.mem.area.contains (instPhys s i, d / 4096) = true ∨ (passTiles s t.ptn (uidCon i.uid) (d / 4096) tile true 1).isSome = true →
    Does (.ldtComplete inst tile) s [.freeCount, .eph, .work, .tel] fun u =>
      stored s u tl.sram (tierView s d 4096) ∧ (findInst u inst).map (·.tiles) = some (i.tiles.filter (·.id != tile)) ∧
      (tl.sram % 4096 = 0 → cnt u.work.tags (tl.sram / 4096) = d / 4096 + 1)) ∧
  (∀ inst tile i t tl d s, findInst s inst = some i → i.tiles.find? (fun k => k.id == tile && !k.load) = some tl → taskOf s i = some t →
    localTier s tl.tier tl.addr = some d → i.ending = false → (passTiles s t.ptn (uidCon i.uid) (d / 4096) tile false 1).isSome = true → t.sealing = [] →
    Does (.sttWritten inst tile) s [.freeCount, .eph, .work, .mem, .tel] fun u =>
      tierRead u d tl.bytes.length = tl.bytes ∧ (∀ a, a < d ∨ d + tl.bytes.length ≤ a → sget byte0 u.mem.bytes a = sget byte0 s.mem.bytes a) ∧
      u.work.sram = s.work.sram ∧ (findInst u inst).map (·.tiles) = some (i.tiles.filter (·.id != tile))) ∧
  (∀ inst tile i t tl d num first h g s, findInst s inst = some i → i.tiles.find? (fun k => k.id == tile && !k.load) = some tl → taskOf s i = some t →
    localTier s tl.tier tl.addr = some d → i.ending = false → (passTiles s t.ptn (uidCon i.uid) (d / 4096) tile false 1).isSome = true → t.page = some (num, first) →
    t.request = some h → findPage s t.ptn num = some g → g.state = .sealing → first ≤ d / 4096 → d / 4096 < first + g.slotTiles →
    (insAsc (d / 4096) g.sealDone).length < g.slotTiles → Does (.sttWritten inst tile) s [.freeCount, .eph, .work, .mem, .serve, .tel] fun u =>
      tierRead u d tl.bytes.length = tl.bytes ∧ (findPage u t.ptn num).map (fun p => (p.state, p.sealDone)) = some (.sealing, insAsc (d / 4096) g.sealDone)) ∧
  (∀ inst tile s, findInst s inst = none → Does (.ldtComplete inst tile) s [] (fun u => u = s) ∧ Does (.sttWritten inst tile) s [] fun u => u = s)

/-- Task descriptors (R10, R162, R171, R174, R175, R163): one that a check refuses ends at once with that status; with no other task live, a PROGRAM
task becomes READY, STATUS and COUNTERS complete with OK, and so does a CANCEL; a CANCEL in the tick in which a descriptor that it names was refused
with FORMAT completes that one with CANCELLED_UNSTARTED. A closed ring is left alone.
Where the spec leaves a point open, the clause is the model's choice or reading: log entries 13 and 14. -/
def Obligations.TaskDescriptors : Prop :=
  (∀ v desc b s, ringHas s (subRing v 1) = true → taskBad s v desc.toNat = some b →
    (¬(2 ≤ fld desc 0 8 ∧ fld desc 0 8 ≤ 4) → Does (.taskProgram v desc) s [.out, .regs, .work, .serve, .ctl, .tel] fun u => (s.work.nextTask, viewSrc v, bits desc.toNat 192 32, b.1) ∈ u.work.ended) ∧
    (fld desc 0 8 = 2 → Does (.taskStatus v desc) s [.out, .regs, .work, .serve, .ctl, .tel] fun u => (s.work.nextTask, viewSrc v, bits desc.toNat 192 32, b.1) ∈ u.work.ended) ∧
    (fld desc 0 8 = 3 → Does (.taskCancel v desc) s [.out, .freeCount, .regs, .cons, .work, .mem, .serve, .ctl, .tel] fun u => (s.work.nextTask, viewSrc v, bits desc.toNat 192 32, b.1) ∈ u.work.ended) ∧
    (fld desc 0 8 = 4 → Does (.taskCounters v desc) s [.out, .regs, .work, .serve, .ctl, .tel] fun u => (s.work.nextTask, viewSrc v, bits desc.toNat 192 32, b.1) ∈ u.work.ended)) ∧
  (∀ v desc s, ringHas s (subRing v 1) = true → taskBad s v desc.toNat = none → s.work.tasks = [] → bits desc.toNat 64 32 = 0xFFFFFFFF →
    bits desc.toNat 224 32 = 0 →
    (fld desc 0 8 = 1 → Does (.taskProgram v desc) s [.out, .regs, .work, .ctl, .tel] fun u =>
      u.work.tasks.map (fun k => (k.id, k.kind, k.tag, k.state)) = [(s.work.nextTask, 1, bits desc.toNat 192 32, .ready)] ∧ u.work.nextTask = s.work.nextTask + 1) ∧
    (fld desc 0 8 = 2 → Does (.taskStatus v desc) s [.out, .regs, .work, .ctl, .tel] fun u => u.work.tasks = [] ∧ (s.work.nextTask, viewSrc v, bits desc.toNat 192 32, stOK) ∈ u.work.ended) ∧
    (fld desc 0 8 = 4 → Does (.taskCounters v desc) s [.out, .regs, .work, .ctl, .tel] fun u => u.work.tasks = [] ∧ (s.work.nextTask, viewSrc v, bits desc.toNat 192 32, stOK) ∈ u.work.ended) ∧
    (fld desc 0 8 = 3 → Does (.taskCancel v desc) s [.out, .regs, .work, .tel] fun u =>
      u.work.tasks = [] ∧ (s.work.nextTask, viewSrc v, bits desc.toNat 192 32, stOK) ∈ u.work.ended)) ∧
  (∀ v desc b s, ringHas s (subRing v 1) = true → taskBad s v desc.toNat = none → s.work.tasks = [] → bits desc.toNat 64 32 = 0xFFFFFFFF →
    bits desc.toNat 224 32 = 0 → fld desc 0 8 = 3 → bit desc.toNat 288 = false → b ∈ s.work.badNow → b.at_ = s.mer.osc → b.task.kind ≠ 3 →
    b.task.ptn = bits desc.toNat 27 5 → b.task.src = .pf ∨ b.task.src = .window b.task.ptn → b.task.tag = bits desc.toNat 256 32 →
    Does (.taskCancel v desc) s [.out, .regs, .work, .tel] fun u =>
      b ∉ u.work.badNow ∧ ∀ e ∈ u.work.ended, e.1 = b.task.id → e.1 ≠ s.work.nextTask → e.2.2.2 = stUNSTARTED) ∧
  (∀ v desc s, ringHas s (subRing v 1) = false → Does (.taskProgram v desc) s [] (fun u => u = s) ∧ Does (.taskStatus v desc) s [] (fun u => u = s) ∧
    Does (.taskCancel v desc) s [] (fun u => u = s) ∧ Does (.taskCounters v desc) s [] fun u => u = s)

/-- Request descriptors that are accepted (R222, R228, R229, R468-R471, R495, R497, R502-R504): SUBMIT makes a request that waits for its input,
CONTINUE queues one again; CANCEL of a resting request frees its handle, at once or when its record has room, unless it is kept or other devices still
refer to it; STATUS sends its record to host memory, and ends the request where the record in memory fails its CRC; TOKEN takes the host's token; an
input that cannot be read ends its request, and one whose place a window holds waits (R101).
Where the spec leaves a point open, the clause is the model's choice or reading: log entries 24, 25, 77, 83, 87 and 90. -/
def Obligations.RequestsAccepted : Prop :=
  (∀ v desc m slot gen pmap area s s2, ringOpen s v (subRing v 0) = true → [2, 3, 4, 5].contains (rdOp desc) = false → wrongPtn v (rdPtn desc) = false →
    submitStatus (ringTake s (subRing v 0)) desc = 0 → modelOf (ringTake s (subRing v 0)) (leAt desc 0x18 2) = some m →
    newSlot (ringTake s (subRing v 0)) (rdPtn desc) = some (slot, gen) →
    takeStructures (ringTake s (subRing v 0)) (rdPtn desc) (m.layers * (leAt desc 0x2C 4 / pageTokens (leAt desc 0x1A 1 % 4)) * 4) (4 * rdInputLen desc) = some (pmap, area, s2) →
    Does (.reqSubmit v desc) s [.out, .regs, .mem, .serve, .ctl, .tel] fun u => ∃ r ∈ u.serve.reqs, r.ptn = rdPtn desc ∧ r.slot = slot ∧ r.gen = gen ∧ r.rid = leAt desc 8 8 ∧ r.tag = rdTag desc ∧
      r.reading = true ∧ r.inputLeft = rdInputLen desc ∧ r.pmap = pmap ∧ r.inputAddr = area ∧ r.maxTokens = leAt desc 0x2C 4 ∧ (r.state = .queued ∨ r.state = .promoting)) ∧
  (∀ v desc r area s s2, ringOpen s v (subRing v 0) = true → rdOp desc = 2 → wrongPtn v (rdPtn desc) = false →
    continueStatus (ringTake s (subRing v 0)) desc = 0 → findReq s (rdHandle desc) = some r →
    allocOwn (ringTake s (subRing v 0)) r.ptn (4 * rdInputLen desc) = some (area, s2) → Does (.reqContinue v desc) s [.out, .regs, .work, .mem, .serve, .ctl, .tel] fun u =>
      (findReq u (rdHandle desc)).map (fun x => (x.reading, x.finished, x.inputLeft, x.inputAddr, x.tag)) = some (true, false, rdInputLen desc, area, rdTag desc) ∧
      (findReq u (rdHandle desc)).map (·.epoch) = some r.epoch) ∧
  (∀ v desc r s, ringOpen s v (subRing v 0) = true → rdOp desc = 3 → wrongPtn v (rdPtn desc) = false → opStatus (ringTake s (subRing v 0)) desc true = 0 →
    findReq s (rdHandle desc) = some r → r.state = .parked → (∀ k ∈ s.work.tasks, k.request ≠ some (rdHandle desc)) →
    Does (.reqCancel v desc) s [.out, .regs, .mem, .serve, .ctl, .tel] fun u => cnt u.serve.cancels (rdHandle desc) = now s + 1 ∧
      (r.keepOnCancel = true → findReq u (rdHandle desc) = some r) ∧
      (r.keepOnCancel = false → r.holding = true → r.remoteRefs ≠ 0 → findReq u (rdHandle desc) = some { r with dropPending := true }) ∧
      (r.keepOnCancel = false → r.holding = false ∨ r.remoteRefs = 0 →
        findReq u (rdHandle desc) = none ∨ (findReq u (rdHandle desc)).map (·.state) = some .cancelled)) ∧
  (∀ v desc r s, ringOpen s v (subRing v 0) = true → rdOp desc = 4 → wrongPtn v (rdPtn desc) = false → opStatus (ringTake s (subRing v 0)) desc false = 0 →
    findReq s (rdHandle desc) = some r →
    (s.serve.rsrCache.contains (r.ptn, r.slot) = true → Does (.reqStatus v desc) s [.out, .regs, .tel] fun u =>
      hostWritten s u r.ptn (leAt desc 0x20 8) (rsrBytes s r)) ∧
    (s.serve.rsrCache.contains (r.ptn, r.slot) = false → rsrGood s r = true → Does (.reqStatus v desc) s [.out, .regs, .mem, .serve, .tel] fun u =>
      hostWritten s u r.ptn (leAt desc 0x20 8) (rsrBytes s r) ∧ u.serve.reqs = s.serve.reqs ∧ (r.ptn, r.slot) ∈ u.serve.rsrCache) ∧
    (s.serve.rsrCache.contains (r.ptn, r.slot) = false → rsrGood s r = false → (∀ k ∈ s.work.tasks, k.request ≠ some (rdHandle desc)) →
      Does (.reqStatus v desc) s [.out, .freeCount, .regs, .cons, .work, .mem, .serve, .ctl, .tel] fun u =>
        findReq u (rdHandle desc) = none ∨ (findReq u (rdHandle desc)).map (·.state) = some .failed)) ∧
  (∀ v desc r s, ringOpen s v (subRing v 0) = true → rdOp desc = 5 → wrongPtn v (rdPtn desc) = false → opStatus (ringTake s (subRing v 0)) desc true = 0 →
    cnt s.serve.cancels (rdHandle desc) ≠ now s + 1 → cancelComing (ringTake s (subRing v 0)) (rdHandle desc) = false → findReq s (rdHandle desc) = some r → r.await = true → leAt desc 0x28 4 = r.nextIndex →
    rdInputLen desc < ((modelOf s r.model).map (·.vocab)).getD 0 → stopReason r (rdInputLen desc) = 0 → r.dest = myDev s →
    Does (.reqToken v desc) s [.out, .regs, .mem, .serve, .ctl, .tel] fun u => (findReq u (rdHandle desc)).map (fun x => (x.nextIndex, x.lastIndex, x.generated, x.await, x.logitsBuf)) =
      some (r.nextIndex + 1, r.nextIndex, r.generated + 1, false, none)) ∧
  (∀ h input stops r s, findReq s h = some r → r.reading = true → (∃ x ∈ s.serve.xfers, x.what = .input h ∧ x.running = true) →
    windowHolds s (r.inputAddr / 4096) (cdiv (4 * r.inputLeft) 4096) = false → r.hostStops = 0 →
    (∀ i, i < r.inputLeft → leAt input (4 * i) 4 < ((modelOf s r.model).map (·.vocab)).getD 0) →
    Does (.inputReadDone h true input stops) s [.out, .regs, .mem, .serve, .ctl, .tel] fun u => (findReq u h).map (fun x => (x.reading, x.input)) =
      some (false, (List.range r.inputLeft).map fun i => leAt input (4 * i) 4)) ∧
  (∀ h ok input stops r s, findReq s h = some r → windowHolds s (r.inputAddr / 4096) (cdiv (4 * r.inputLeft) 4096) = true →
    Does (.inputReadDone h ok input stops) s [] fun u => u = s) ∧
  (∀ h input stops r s, findReq s h = some r → r.reading = true → (∃ x ∈ s.serve.xfers, x.what = .input h ∧ x.running = true) →
    windowHolds s (r.inputAddr / 4096) (cdiv (4 * r.inputLeft) 4096) = false →
    Does (.inputReadDone h false input stops) s [.out, .regs, .mem, .serve, .ctl, .tel] fun u =>
    findReq u h = none ∨ (findReq u h).map (·.state) = some .failed)

/-- Request descriptors that are refused change no request and no page, and each is answered (R154, R468, R469, R502-R504); none is read from a ring
that is not open.
Where the spec leaves a point open, the clause is the model's choice or reading: log entry 38. -/
def Obligations.RequestsRefused : Prop :=
  (∀ v desc s, ringOpen s v (subRing v 0) = true → [2, 3, 4, 5].contains (rdOp desc) = false →
    wrongPtn v (rdPtn desc) = true ∨ submitStatus (ringTake s (subRing v 0)) desc ≠ 0 ∨ newSlot (ringTake s (subRing v 0)) (rdPtn desc) = none ∨
      (∃ m, modelOf (ringTake s (subRing v 0)) (leAt desc 0x18 2) = some m ∧ takeStructures (ringTake s (subRing v 0)) (rdPtn desc)
        (m.layers * (leAt desc 0x2C 4 / pageTokens (leAt desc 0x1A 1 % 4)) * 4) (4 * rdInputLen desc) = none) →
    Does (.reqSubmit v desc) s [.out, .regs, .serve, .ctl, .tel] fun u => u.serve.reqs = s.serve.reqs ∧ u.serve.pages = s.serve.pages ∧ RegsUnchanged [] s u) ∧
  (∀ v desc s, ringOpen s v (subRing v 0) = true → rdOp desc = 2 → wrongPtn v (rdPtn desc) = true ∨ continueStatus (ringTake s (subRing v 0)) desc ≠ 0 ∨
      (∃ r, findReq s (rdHandle desc) = some r ∧ allocOwn (ringTake s (subRing v 0)) r.ptn (4 * rdInputLen desc) = none) →
    Does (.reqContinue v desc) s [.out, .regs, .serve, .ctl, .tel] fun u => u.serve.reqs = s.serve.reqs ∧ u.serve.pages = s.serve.pages ∧ RegsUnchanged [] s u) ∧
  (∀ v desc s, ringOpen s v (subRing v 0) = true → wrongPtn v (rdPtn desc) = true ∨ opStatus (ringTake s (subRing v 0)) desc true ≠ 0 →
    (rdOp desc = 3 → Does (.reqCancel v desc) s [.out, .regs, .ctl, .tel] fun u => RegsUnchanged [] s u) ∧
    (rdOp desc = 5 → Does (.reqToken v desc) s [.out, .regs, .ctl, .tel] fun u => RegsUnchanged [] s u)) ∧
  (∀ v desc s, ringOpen s v (subRing v 0) = true → rdOp desc = 4 → wrongPtn v (rdPtn desc) = true ∨ opStatus (ringTake s (subRing v 0)) desc false ≠ 0 →
    Does (.reqStatus v desc) s [.out, .regs, .ctl, .tel] fun u => RegsUnchanged [] s u) ∧
  (∀ v desc s, ringOpen s v (subRing v 0) = false → Does (.reqSubmit v desc) s [] (fun u => u = s) ∧ Does (.reqContinue v desc) s [] (fun u => u = s) ∧
    Does (.reqCancel v desc) s [] (fun u => u = s) ∧ Does (.reqStatus v desc) s [] (fun u => u = s) ∧ Does (.reqToken v desc) s [] fun u => u = s)

/-- An open page is staged where it was sent, with a mirror or write-through for a durable request, for whose mirror it waits unless the partner is DARK (R244, R264,
R266); a table epoch that is over starts the builds that are due, in the hardware mode only, and a build that ends waits for the boundary, or gives no table in the
host-assisted mode (R29, R297, R303-R305).
Where the spec leaves a point open, the clause is the model's choice or reading: log entries 8 and 39. -/
def Obligations.PagesAndTables : Prop :=
  (∀ xfer x p num c g b s, findXfer s xfer = some x → x.what = .openLoad p num c → xferWaits s x = false → findPage s p num = some g → g.stage = none →
    fitBlocks s c (openBlocks g.geo) = some b → (∀ r ∈ s.serve.reqs, r.ptn = p → r.durable = false) → Does (.openPageLoaded xfer) s [.work, .serve, .tel] fun u =>
      (findPage u p num).map (fun k => (k.stage, k.dirty)) = some (some (c, b), []) ∧ findXfer u xfer = none ∧ u.serve.reqs = s.serve.reqs) ∧
  (∀ xfer x p num c g b r s, findXfer s xfer = some x → x.what = .openLoad p num c → xferWaits s x = false → findPage s p num = some g → g.stage = none →
    fitBlocks s c (openBlocks g.geo) = some b → r ∈ s.serve.reqs → r.ptn = p → r.durable = true → r.pageNum g.layer g.position = some num →
    Does (.openPageLoaded xfer) s [.work, .serve, .tel] fun u => u = s ∨ ∃ k, findPage u p num = some k ∧ k.stage = some (c, b) ∧
      ((k.mirror.isSome || k.through) = true ∨ ∃ cs, partnerClusters s p c = some cs ∧ physOf s (cs.headD 0 / 16) = none)) ∧
  (∀ xfer x s, findXfer s xfer = some x → xferWaits s x = true → Does (.openPageLoaded xfer) s [] fun u => u = s) ∧
  (∀ p h n s, isolated s p = false → epochCycles s p ≤ cnt s.serve.epochCount p → entropyHost s p = false →
    (s.serve.hists.filter fun h => h.ptn == p && odGet s (0x9140 + p) 2 ≤ h.blocks) = [h] → freeTab s p (tensorComps (h.comp == 2)).length = some n →
    Does (.tableEpochEnd p) s [.out, .regs, .serve, .ctl, .mgt, .alm, .tel] fun u =>
      u.serve.tables.map (fun t => (t.num, t.state)) = s.serve.tables.map (fun t => (t.num, t.state)) ++ (tensorComps (h.comp == 2)).mapIdx (fun i _ => (n + i, .building)) ∧
      (∀ k ∈ u.serve.hists, ¬(k.ptn = p ∧ k.model = h.model ∧ k.layer = h.layer ∧ k.width = h.width ∧ (tensorComps (h.comp == 2)).contains k.comp = true)) ∧
      cnt u.serve.epochCount p = 0 ∧ cnt u.serve.epochLen p = odGet s (0x9140 + p) 1) ∧
  (∀ p s, isolated s p = false → epochCycles s p ≤ cnt s.serve.epochCount p → entropyHost s p = true → Does (.tableEpochEnd p) s [.serve] fun u =>
    u.serve.tables = s.serve.tables ∧ u.serve.hists = s.serve.hists ∧ cnt u.serve.epochCount p = 0) ∧
  (∀ p s, isolated s p = true ∨ cnt s.serve.epochCount p < epochCycles s p → Does (.tableEpochEnd p) s [] fun u => u = s) ∧
  (∀ p model layer s, odGet s (0x9100 + p) 3 = 1 → Does (.tableBuildDone p model layer) s [.serve] fun u => u.serve.pages = s.serve.pages ∧
    u.serve.tables = s.serve.tables.filter fun t => !(t.ptn == p && t.model == model && t.layer == layer && t.state == .building && !t.due)) ∧
  (∀ p model layer s, odGet s (0x9100 + p) 3 ≠ 1 → Does (.tableBuildDone p model layer) s [.serve] fun u =>
    (∀ t ∈ u.serve.tables, t.ptn = p → t.model = model → t.layer = layer → t.state = .building → t.due = true) ∧
    u.serve.tables.map (fun t => (t.num, t.state, t.lengths)) = s.serve.tables.map (fun t => (t.num, t.state, t.lengths)) ∧ u.serve.pages = s.serve.pages)

/-- Memory: an allocation that finds room is recorded and answered, one that does not changes no allocation, FREE returns exactly the run named, and
each drops GO (R432-R435); patrols poison what is bad and zero what was never written (R415, R428); a refresh or recalibration window holds its
resource (R101, R447); self-refresh starts only with no image in force (R448).
Where the spec leaves a point open, the clause is the model's choice or reading: log entry 25. -/
def Obligations.MemoryCommands : Prop :=
  (∀ v x t mode s, x = mbxRead s (mbxAlloc v) 8 → mbxGo s v 0 = true → bits x 0 8 ≠ 2 → allocBad v x = 0 →
    findRoom s (bits x 16 5) (bit x 8) (bits x 9 2) (bits x 11 2) (bit x 13) (bits x 32 32) = some (t, mode) → Does (.allocRequest v) s [.regs, .mem] fun u =>
      u.mem.allocs = s.mem.allocs ++ [{ ptn := bits x 16 5, tile := t, tiles := bits x 32 32 }] ∧ u.mem.bytes = s.mem.bytes ∧ (getReg u (mbxCtl v)).getLsbD 0 = false) ∧
  (∀ v x s, x = mbxRead s (mbxAlloc v) 8 → mbxGo s v 0 = true → bits x 0 8 ≠ 2 → allocBad v x ≠ 0 ∨
      findRoom s (bits x 16 5) (bit x 8) (bits x 9 2) (bits x 11 2) (bit x 13) (bits x 32 32) = none → Does (.allocRequest v) s [.regs, .serve, .ctl] fun u =>
      (getReg u (mbxCtl v)).getLsbD 0 = false ∧ u.serve.reqs = s.serve.reqs ∧ u.serve.pages = s.serve.pages) ∧
  (∀ v x s, x = mbxRead s (mbxAlloc v) 8 → mbxGo s v 0 = true → bits x 0 8 = 2 → allocBad v x = 0 → bits x 64 64 % 4096 = 0 →
    (s.mem.allocs.any fun a => a.ptn == bits x 16 5 && a.tile == bits x 64 64 / 4096 && (bit x 8 == decide (farTile0 ≤ a.tile))) = true →
    Does (.freeRequest v) s [.regs, .mem] fun u => u.mem.allocs = s.mem.allocs.filter (fun a => !(a.ptn == bits x 16 5 && a.tile == bits x 64 64 / 4096)) ∧
      (getReg u (mbxCtl v)).getLsbD 0 = false) ∧
  (∀ v x s, x = mbxRead s (mbxAlloc v) 8 → mbxGo s v 0 = true → bits x 0 8 = 2 → allocBad v x ≠ 0 ∨ bits x 64 64 % 4096 ≠ 0 →
    Does (.freeRequest v) s [.regs, .ctl] fun u => (getReg u (mbxCtl v)).getLsbD 0 = false) ∧
  (∀ v s, mbxGo s v 0 = false → Does (.allocRequest v) s [] (fun u => u = s) ∧ Does (.freeRequest v) s [] fun u => u = s) ∧
  (∀ key corrected bad s, (getCon s (sramPhys key)).pwr = .awake → Does (.sramPatrol key corrected bad) s [.out, .regs, .work, .mem, .ctl, .mgt, .alm, .tel] fun u =>
    (∀ w ∈ bad, key / 8 + w ∈ u.work.poison) ∧ (∀ w ∈ s.work.poison, w ∈ u.work.poison) ∧ u.work.sram = s.work.sram) ∧
  (∀ key corrected bad s, (getCon s (sramPhys key)).pwr ≠ .awake → Does (.sramPatrol key corrected bad) s [] fun u => u = s) ∧
  (∀ tile s, tile < 768 * 2 ^ 18 → s.mem.written.contains tile = false → Does (.nearPatrol tile) s [.mem] fun u =>
    ∀ a, sget byte0 u.mem.bytes a = if a / 4096 = tile then 0 else sget byte0 s.mem.bytes a) ∧
  (∀ tile s, s.mem.written.contains tile = true → Does (.nearPatrol tile) s [] fun u => u = s) ∧
  (∀ sec ent e s, entryNow s sec ent = some e → e.cls = 0x10 → memPresent s (memResource sec e.action) = true → Does (.refreshWindow sec ent) s [.eph, .mem, .tel] fun u =>
    u.eph = { s.eph with held := s.eph.held ++ [(sec, ent, memResource sec e.action)] } ∧ cnt u.mem.refreshAt (memResource sec e.action) = now s ∧ u.mem.bytes = s.mem.bytes) ∧
  (∀ sec ent e s, entryNow s sec ent = some e → e.cls = 0x11 → memPresent s (memResource sec e.action) = true → Does (.recalMemWindow sec ent) s [.eph, .tel] fun u =>
    u.eph = { s.eph with held := s.eph.held ++ [(sec, ent, memResource sec e.action)] }) ∧
  (∀ sec ent e s, entryNow s sec ent = some e → memPresent s (memResource sec e.action) = false → Does (.refreshWindow sec ent) s [] (fun u => u = s) ∧
    Does (.recalMemWindow sec ent) s [] fun u => u = s) ∧
  (∀ r s, s.eph.running = false → r < 12 → s.shaped = true → (s.mem.nears.getD r {}).lost = false → Does (.selfRefreshEntry r) s [.mem] fun u =>
    (u.mem.nears.getD r {}).sleep = true ∧ u.mem.bytes = s.mem.bytes ∧ u.mem.chans = s.mem.chans) ∧
  (∀ r s, s.eph.running = true → Does (.selfRefreshEntry r) s [] fun u => u = s)

/-- Training and attestation (R533-R537, R552, R561, R564): a trained cell link goes on to ATTEST, a trained Ethernet port and an attested link to UP;
a port that gives up is DOWN with its cause and a longer back-off, and trains again when that ends or a signal comes, or on RETRAIN, which takes an
UP port DOWN first and starts the back-off again in every state.
Where the spec leaves a point open, the clause is the model's choice or reading: log entry 8. -/
def Obligations.PortStates : Prop :=
  (∀ n lanes s, n < 17 → s.shaped = true → (linkOf s n).state = 1 → lanes % 16 = 15 → isCellLink s n = true → (linkOf s n).delin = 2 →
    Does (.portTrained n lanes) s [.regs, .fab] fun t => (linkOf t n).state = 2 ∧ (linkOf t n).lanes = 15 ∧ PortsKept n s t) ∧
  (∀ n lanes s, (linkOf s n).state ≠ 1 ∨ lanes % 16 ≠ 15 → Does (.portTrained n lanes) s [] fun t => t = s) ∧
  (∀ n lanes s, n < 16 → s.shaped = true → (linkOf s n).state = 1 → lanes % 16 = 15 → isEth s n = true → isCellLink s n = false →
    (getReg s (portBase n)).getLsbD 6 = false ∨ (linkOf s n).sak = true → Does (.portTrained n lanes) s [.out, .regs, .fab, .ctl, .mgt, .alm, .tel, .ras] fun t => (linkOf t n).state = 3) ∧
  (∀ n s, n < 16 → s.shaped = true → isEth s n = true → (linkOf s n).state = 1 → Does (.mkaSakInstalled n) s [.out, .regs, .fab, .ctl, .mgt, .alm, .tel, .ras] fun t =>
    (linkOf t n).sak = true ∧ (linkOf t n).state = (if (linkOf s n).lanes = 15 then 3 else 1)) ∧
  (∀ n s, n < 17 → s.shaped = true → isCellLink s n = true → (linkOf s n).state = 2 → (linkOf s n).keys = true → (linkOf s n).hello = true → (linkOf s n).acked = true →
    Does (.attestComplete n) s [.out, .regs, .fab, .ctl, .mgt, .alm, .tel, .ras] fun t => (linkOf t n).state = 3) ∧
  (∀ n s, n < 17 → s.shaped = true → (linkOf s n).state = 1 ∨ (linkOf s n).state = 2 → Does (.trainTimeout n) s [.out, .regs, .fab, .ctl, .mgt, .alm, .tel] fun t =>
    (linkOf t n).state = 4 ∧ (linkOf t n).cause = 1 ∧
    (linkOf t n).nextTry = some (now s + (if (linkOf s n).backoff = 0 then 1 else Nat.min 64 (2 * (linkOf s n).backoff)) * 1000000000)) ∧
  (∀ n s, n < 17 → s.shaped = true → (linkOf s n).state = 4 → halted s = false →
    Does (.backoffExpiry n) s [.regs, .fab] (fun t => (linkOf t n).state = 1 ∧ (linkOf t n).trainAt = now s ∧ (linkOf t n).keys = false ∧ PortsKept n s t) ∧
    Does (.anSignalDetected n) s [.regs, .fab] (fun t => (linkOf t n).state = 1 ∧ (linkOf t n).trainAt = now s ∧ (linkOf t n).keys = false ∧ PortsKept n s t) ∧
    Does (.kqRetrain n) s [.regs, .fab] (fun t => (linkOf t n).state = 1 ∧ (linkOf t n).backoff = 0 ∧ PortsKept n s t)) ∧
  (∀ n s, n < 17 → s.shaped = true → (linkOf s n).state = 3 → halted s = false → Does (.kqRetrain n) s [.out, .regs, .fab, .ctl, .mgt, .alm, .tel] fun t =>
    (linkOf t n).state = 1 ∧ (linkOf t n).cause = 7 ∧ (linkOf t n).backoff = 0) ∧
  (∀ n s, n < 17 → s.shaped = true → (linkOf s n).state ≠ 3 → (linkOf s n).state ≠ 4 → Does (.kqRetrain n) s [.fab] fun t =>
    linkOf t n = { linkOf s n with backoff := 0 } ∧ ∀ k, k ≠ n → linkOf t k = linkOf s k) ∧
  (∀ n s, (linkOf s n).state ≠ 4 → Does (.backoffExpiry n) s [] (fun t => t = s) ∧ Does (.anSignalDetected n) s [] fun t => t = s) ∧
  (∀ n s, oddHalf s n = false → (linkOf s n).state = 0 ∨ (linkOf s n).state = 4 ∨ (linkOf s n).state = 5 ∨ s.eph.recal.contains n = true → ∀ lane, Does (.lossOfSignal n lane) s [] fun t => t = s)

/-- Failures of a port that is UP (R534, R552, R553, R555): each detector takes it DOWN with its own cause, the loss of a signal of a merged port's odd half
too, and none while a window recalibrates it.
Where the spec leaves a point open, the clause is the model's choice or reading: log entry 8. -/
def Obligations.PortFailures : Prop :=
  (∀ n s, n < 17 → s.shaped = true → (linkOf s n).state = 3 →
    (∀ m lane, n = (if oddHalf s m then m - 1 else m) → s.eph.recal.contains n = false → Does (.lossOfSignal m lane) s [.out, .regs, .fab, .ctl, .mgt, .alm, .tel] fun t =>
      (linkOf t n).state = 4 ∧ (linkOf t n).cause = (if lane then 9 else 2) ∧ (linkOf t n).keys = false ∧ (linkOf t n).replay = []) ∧
    (isEth s n = true → Does (.mkaPeerTimeout n) s [.out, .regs, .fab, .ctl, .mgt, .alm, .tel] fun t => (linkOf t n).state = 4 ∧ (linkOf t n).cause = 5) ∧
    ((linkOf s n).delin ≠ 2 → (linkOf s n).lostAt.isSome = true → Does (.delinTimeout n) s [.out, .regs, .fab, .ctl, .mgt, .alm, .tel] fun t => (linkOf t n).state = 4 ∧ (linkOf t n).cause = 3) ∧
    (∀ r, (linkOf s n).replay.head? = some r → 3 ≤ r.resends → s.eph.recal.contains n = false → Does (.replayTimeout n) s [.out, .regs, .fab, .ctl, .mgt, .alm, .tel] fun t =>
      (linkOf t n).state = 4 ∧ (linkOf t n).cause = 4)) ∧
  (∀ n c s s1 s2, n < 17 → s.shaped = true → checkCell s n 4 c = (s1, true) → acceptSeq s1 n c.seq = (s2, true) → leAt c.payload 0 1 = 3 →
    (linkOf s2 n).state = 3 → Does (.linkDownNotice n c) s [.out, .freeCount, .regs, .fab, .ctl, .mgt, .alm, .tel] fun t => (linkOf t n).state = 4 ∧ (linkOf t n).cause = 8) ∧
  (∀ s, portIsUp s 16 = false → s.fab.unpaired = false → Does .pairUnpairedTimeout s [.out, .regs, .fab, .ctl, .mgt, .alm, .tel] fun t => t.fab = { s.fab with unpaired := true }) ∧
  (∀ s, portIsUp s 16 = true ∨ s.fab.unpaired = true → Does .pairUnpairedTimeout s [] fun t => t = s) ∧
  (∀ n s, (linkOf s n).state ≠ 3 → Does (.mkaPeerTimeout n) s [] (fun t => t = s) ∧ Does (.delinTimeout n) s [] fun t => t = s)

/-- Cells that control a link (R535, R538, R543, R546-R550): delineation counts to SYNC and back, HELLO names the partner or takes the link DOWN, a
session gives the keys, an ACK frees what it names, a NAK and a timeout send everything held again, idle cells only check.
Where the spec leaves a point open, the clause is the model's choice or reading: log entry 61. -/
def Obligations.LinkCells : Prop :=
  (∀ n h c s, n < 17 → s.shaped = true → isCellLink s n = true → (linkOf s n).state = 1 ∨ (linkOf s n).state = 2 ∨ (linkOf s n).state = 3 →
    s.eph.recal.contains n = false → Does (.delineationCheck n h c) s [.out, .regs, .fab, .tel] fun t =>
      ((linkOf s n).delin = 0 → (linkOf t n).delin = (if h then 1 else 0)) ∧
      ((linkOf s n).delin = 1 → (h && c) = true → (linkOf s n).good + 1 < 6 → (linkOf t n).delin = 1 ∧ (linkOf t n).good = (linkOf s n).good + 1) ∧
      ((linkOf s n).delin = 1 → (h && c) = true → 6 ≤ (linkOf s n).good + 1 → (linkOf t n).delin = 2) ∧
      ((linkOf s n).delin = 1 → (h && c) = false → (linkOf t n).delin = 0) ∧
      ((linkOf s n).delin = 2 → h = false → (linkOf s n).bad + 1 < 7 → (linkOf t n).delin = 2 ∧ (linkOf t n).bad = (linkOf s n).bad + 1) ∧
      ((linkOf s n).delin = 2 → h = false → 7 ≤ (linkOf s n).bad + 1 → (linkOf t n).delin = 0)) ∧
  (∀ n c o reply s s1 s2, n < 17 → s.shaped = true → checkCell s n 4 c = (s1, true) → acceptSeq s1 n c.seq = (s2, true) → leAt c.payload 0 1 = 1 →
    (linkOf s2 n).state = 2 → Does (.linkSpdmCell n c o reply) s [.out, .freeCount, .regs, .fab, .ctl, .mgt, .alm, .tel] fun t =>
      (o = 0 → (linkOf t n).spdm = (linkOf s2 n).spdm + 1 ∧ (linkOf t n).state = 2) ∧ (o = 1 → (linkOf t n).keys = true ∧ (linkOf t n).state = 2) ∧
      (2 ≤ o → (linkOf t n).state = 4 ∧ (linkOf t n).cause = 5)) ∧
  (∀ n c s s1 s2, n < 16 → s.shaped = true → checkCell s n 4 c = (s1, true) → acceptSeq s1 n c.seq = (s2, true) → leAt c.payload 0 1 = 2 →
    (linkOf s2 n).state = 2 → (linkOf s2 n).keys = true → Does (.linkHello n c) s [.out, .freeCount, .regs, .fab, .ctl, .mgt, .alm, .tel] fun t =>
      (leAt c.payload 2 8 = (getReg s2 0x24).toNat + (getReg s2 0x28).toNat * 2 ^ 32 →
        (linkOf t n).hello = true ∧ (linkOf t n).partner = leAt c.payload 1 1 ∧ (linkOf t n).serial = leAt c.payload 10 8 ∧ (linkOf t n).state = 2) ∧
      (leAt c.payload 2 8 ≠ (getReg s2 0x24).toNat + (getReg s2 0x28).toNat * 2 ^ 32 → (linkOf t n).state = 4 ∧ (linkOf t n).cause = 6)) ∧
  (∀ n c s s1, n < 17 → s.shaped = true → checkCell s n 2 c = (s1, true) → Does (.cellAck n c) s [.out, .regs, .fab, .ctl, .mgt, .alm, .tel] fun t =>
    (linkOf t n).seen = ((List.range 8).map fun k => leAt c.payload (4 + 4 * k) 4) ∧ t.out = s1.out ∧
    ((linkOf s1 n).txSeq < 2 ^ 32 → (linkOf s1 n).replay.length < 2 ^ 32 → leAt c.payload 0 4 = (linkOf s1 n).txSeq → (linkOf t n).replay = [])) ∧
  (∀ n c s s1, n < 17 → s.shaped = true → checkCell s n 3 c = (s1, true) → Does (.cellNak n c) s [.out, .regs, .fab, .ctl, .mgt, .alm, .tel] fun t =>
    (∀ r ∈ (linkOf t n).replay, 1 ≤ r.resends ∧ r.sentAt = now s) ∧ t.out.length = s1.out.length + (linkOf t n).replay.length) ∧
  (∀ n c s, n < 17 → s.shaped = true → isCellLink s n = true → (linkOf s n).state = 2 ∨ (linkOf s n).state = 3 → (linkOf s n).delin = 2 →
    s.eph.recal.contains n = false → c.fec = true → bits c.hdr.toNat 0 16 = hcrc c.hdr.toNat → c.ccrc = true → cellKind c = 0 → bits c.hdr.toNat 16 7 ≤ 112 →
    c.tag = true → Does (.cellIdle n c) s [.fab] fun t => (linkOf t n).bad = 0 ∧ (linkOf t n).rxSeq = (linkOf s n).rxSeq ∧ ∀ k, k ≠ n → linkOf t k = linkOf s k) ∧
  (∀ n r s, n < 17 → s.shaped = true → (linkOf s n).replay.head? = some r → r.resends < 3 → (linkOf s n).state = 2 ∨ (linkOf s n).state = 3 →
    s.eph.recal.contains n = false → Does (.replayTimeout n) s [.out, .regs, .fab, .ctl, .mgt, .alm, .tel] fun t =>
      t.out.length = s.out.length + (linkOf s n).replay.length ∧ (linkOf t n).state = (linkOf s n).state ∧
      (linkOf t n).replay.map (·.lseq) = (linkOf s n).replay.map (·.lseq) ∧ ∀ x ∈ (linkOf t n).replay, 1 ≤ x.resends) ∧
  (∀ n s, (linkOf s n).replay = [] → Does (.replayTimeout n) s [] fun t => t = s)

/-- Timers and windows of ports (R94, R103, R132, R548, R549, R555, R560, R636): an ACK or NAK goes out with the counts of the port; a pause replaces
the one in force; a recalibration window stops a port, and its end releases it and sends the times that waited; a TRANSFER entry opens a budget of what
is ready at its START, within its CAP_B (R127), unless its partition's entries run empty; a port with nothing eligible sends an IDLE cell, one that sends a cell holds it for replay.
Where the spec leaves a point open, the clause is the model's choice or reading: log entries 61 and 89. -/
def Obligations.PortTimers : Prop :=
  (∀ n s, n < 17 → s.shaped = true → (linkOf s n).state = 2 ∨ (linkOf s n).state = 3 → (linkOf s n).ackFrom.isSome = true → s.eph.recal.contains n = false →
    Does (.ackTimer n) s [.out, .fab] fun t => t.out = s.out ++ [.control n 2 (linkOf s n).ctl (ackPayload (linkOf s n))] ∧
      (linkOf t n).ackFrom = none ∧ (linkOf t n).sinceAck = 0 ∧ ∀ k, k ≠ n → linkOf t k = linkOf s k) ∧
  (∀ n s, (linkOf s n).ackFrom = none ∨ s.eph.recal.contains n = true → Does (.ackTimer n) s [] fun t => t = s) ∧
  (∀ n s, n < 17 → s.shaped = true → (linkOf s n).state = 3 → (linkOf s n).nakAt.isSome = true → s.eph.recal.contains n = false →
    Does (.nakRepeatTimer n) s [.out, .regs, .fab, .tel] fun t => t.out = s.out ++ [.control n 3 (linkOf s n).ctl (ackPayload (linkOf s n))] ∧
      (linkOf t n).nakAt = some (now s) ∧ RegsUnchanged [portBase n + 0x110] s t) ∧
  (∀ n s, (linkOf s n).nakAt = none → Does (.nakRepeatTimer n) s [] fun t => t = s) ∧
  (∀ n pause s, s.shaped = true → isEth s n = true → portIsUp s n = true → Does (.pfcFrame n pause) s [.fab, .tel] fun t =>
    (linkOf t n).paused = pause % 256 ∧ (linkOf t n).queues = (linkOf s n).queues ∧ ∀ k, k ≠ n → linkOf t k = linkOf s k) ∧
  (∀ n pause s, isEth s n = false ∨ portIsUp s n = false → Does (.pfcFrame n pause) s [] fun t => t = s) ∧
  (∀ sec ent e s, entryNow s sec ent = some e → e.cls = 0x12 →
    Does (.recalSerdesWindow sec ent) s [.eph] (fun t => t.eph.recal.contains (bits e.action 0 5) = true ∧ t.eph.slots = s.eph.slots) ∧
    Does (.recalSerdesWindowEnd sec ent) s [.out, .regs, .eph, .fab, .ctl, .mer, .mgt, .alm, .tel] (fun t => t.eph.recal.contains (bits e.action 0 5) = false ∧
      t.eph.slots = s.eph.slots ∧ (linkOf t (bits e.action 0 5)).timeWait = [] ∧ ((linkOf s (bits e.action 0 5)).timeWait = [] → t.out = s.out ∧ t.regs = s.regs))) ∧
  (∀ sec ent s, entryNow s sec ent = none → Does (.recalSerdesWindow sec ent) s [] (fun t => t = s) ∧ Does (.recalSerdesWindowEnd sec ent) s [] (fun t => t = s) ∧
    Does (.transferEntryStart sec ent) s [] fun t => t = s) ∧
  (∀ sec ent e s, entryNow s sec ent = some e → e.cls = 0x19 → runsEmpty s e.ptn = false → Does (.transferEntryStart sec ent) s [.out, .freeCount, .eph, .fab] fun t =>
    (∃ left, t.eph = { s.eph with xfer := s.eph.xfer ++ [(sec, ent, bits e.action 0 5, e.ptn, left)] } ∧ left ≤ queuedBytes s (bits e.action 0 5) e.ptn ∧
      (e.capB ≠ 0 → left ≤ e.capB * 4096) ∧ (bits e.action 0 5 ≠ 16 ∨ s.fab.unpaired = true ∨ s.fab.degraded = true →
        left = (if e.capB = 0 then queuedBytes s (bits e.action 0 5) e.ptn else Nat.min (queuedBytes s (bits e.action 0 5) e.ptn) (e.capB * 4096)))) ∧
    (bits e.action 0 5 ≠ 16 ∨ s.fab.unpaired = true ∨ s.fab.degraded = true → t.out = s.out ∧ t.fab = s.fab)) ∧
  (∀ sec ent e s, entryNow s sec ent = some e → e.cls ≠ 0x19 ∨ runsEmpty s e.ptn = true → Does (.transferEntryStart sec ent) s [] fun t => t = s) ∧
  (∀ n s, n < 17 → s.shaped = true → portIsUp s n = true → oddHalf s n = false → s.eph.recal.contains n = false → isCellLink s n = true →
    nextQueue (countHeld s n) n = none → Does (.egressSend n) s [.out, .regs, .eph, .fab, .tel] fun t => t.out = s.out ++ [.control n 0 (linkOf s n).ctl (List.replicate 224 0)]) ∧
  (∀ n q l c s s1, n < 17 → s.shaped = true → portIsUp s n = true → oddHalf s n = false → s.eph.recal.contains n = false →
    nextQueue (countHeld s n) n = some (q, l) → popQueue (countHeld s n) n q l = some (.cell c, s1) → Does (.egressSend n) s [.out, .regs, .eph, .fab, .tel] fun t =>
      t.out = s.out ++ [.cell n (linkOf s1 n).txSeq c.header c.payload c.stomp] ∧ ((linkOf t n).replay.getLast?).map (·.cell) = some (some c)) ∧
  (∀ n q l f p s s1, n < 17 → s.shaped = true → portIsUp s n = true → oddHalf s n = false → s.eph.recal.contains n = false →
    nextQueue (countHeld s n) n = some (q, l) → popQueue (countHeld s n) n q l = some (.frame f p, s1) → Does (.egressSend n) s [.out, .regs, .eph, .fab, .tel] fun t =>
      t.out = s.out ++ [.eth n f] ∧ (linkOf t n).replay = (linkOf s n).replay) ∧
  (∀ n s, portIsUp s n = false ∨ s.eph.recal.contains n = true → Does (.egressSend n) s [] fun t => t = s)

/-- The embedding table engine (R366, R509, R510, R512, R514, R516, R517, R520, R523-R525): a table record is stored or answered with a status; a LOOKUP waits
for a TABLE entry or is answered in it within the entry's caps; an UPDATE is queued, or answered again, or answered EPOCH or FORMAT; answers are kept; a LOOKUP is sent four
times in all; row heat halves once its period is over. A message that fails the peer checks counts and does nothing.
Where the spec leaves a point open, the clause is the model's choice or reading: log entries 33 and 34. -/
def Obligations.TableCommands : Prop :=
  (∀ v ptn s, (viewPtn v).getD ptn < 32 → mbxGo s v 1 = true → tabRecOk s ((viewPtn v).getD ptn) (mbxRecord v ptn s) = true →
    tabBusy s ((viewPtn v).getD ptn) (mbxRecord v ptn s).num = false → Does (.tableRecordWrite v ptn) s [.regs, .work, .tabs] fun t =>
      findTabRec t ((viewPtn v).getD ptn) (mbxRecord v ptn s).num = some (mbxRecord v ptn s) ∧
      (∀ h ∈ t.tabs.heat, h.ptn = (viewPtn v).getD ptn → h.table ≠ (mbxRecord v ptn s).num) ∧
      bits (getReg t (mbxTable v + 0x30)).toNat 0 8 = stOK ∧ (getReg t (mbxCtl v)).getLsbD 1 = false) ∧
  (∀ v ptn s, mbxGo s v 1 = true → 32 ≤ (viewPtn v).getD ptn ∨ tabRecOk s ((viewPtn v).getD ptn) (mbxRecord v ptn s) = false →
    Does (.tableRecordWrite v ptn) s [.regs] fun t => bits (getReg t (mbxTable v + 0x30)).toNat 0 8 = stFORMAT ∧ (getReg t (mbxCtl v)).getLsbD 1 = false) ∧
  (∀ v ptn s, (viewPtn v).getD ptn < 32 → mbxGo s v 1 = true → tabRecOk s ((viewPtn v).getD ptn) (mbxRecord v ptn s) = true →
    tabBusy s ((viewPtn v).getD ptn) (mbxRecord v ptn s).num = true →
    Does (.tableRecordWrite v ptn) s [.regs] fun t => bits (getReg t (mbxTable v + 0x30)).toNat 0 8 = stBUSY ∧ (getReg t (mbxCtl v)).getLsbD 1 = false) ∧
  (∀ v ptn s, mbxGo s v 1 = false → Does (.tableRecordWrite v ptn) s [] fun t => t = s) ∧
  (∀ dev m s, msgOk s dev m false = false → m.dstPtn < 32 →
    Does (.msgLookup dev m) s [.ctl] (fun t => odGet t (0x9200 + m.dstPtn) 4 = sat 0xFFFFFFFF (odGet s (0x9200 + m.dstPtn) 4 + 1)) ∧
    Does (.msgPooled dev m) s [.ctl] (fun t => odGet t (0x9200 + m.dstPtn) 4 = sat 0xFFFFFFFF (odGet s (0x9200 + m.dstPtn) 4 + 1)) ∧
    Does (.msgUpdate dev m) s [.ctl] (fun t => odGet t (0x9200 + m.dstPtn) 4 = sat 0xFFFFFFFF (odGet s (0x9200 + m.dstPtn) 4 + 1)) ∧
    Does (.msgUpdateAck dev m) s [.ctl] fun t => odGet t (0x9200 + m.dstPtn) 4 = sat 0xFFFFFFFF (odGet s (0x9200 + m.dstPtn) 4 + 1)) ∧
  (∀ dev m s, msgOk s dev m false = true → tableSlot s m.dstPtn = none ∨ (s.tabs.asks.any fun x => x.2.dstPtn == m.dstPtn) = true →
    Does (.msgLookup dev m) s [.tabs] fun t => t.tabs = { s.tabs with asks := s.tabs.asks ++ [(dev, m)] }) ∧
  (∀ dev m k e s, msgOk s dev m false = true → tableSlot s m.dstPtn = some (k, e) → (s.tabs.asks.any fun x => x.2.dstPtn == m.dstPtn) = false →
    k.full = true ∨ (e.capA ≠ 0 ∧ e.capA < k.usedA + msgCount m) ∨ (e.capB ≠ 0 ∧ e.capB < k.usedB + msgRows m) →
    Does (.msgLookup dev m) s [.eph, .tabs] fun t => t.tabs = { s.tabs with asks := s.tabs.asks ++ [(dev, m)] } ∧
      ∀ r ∈ t.eph.slots, r.sec = k.sec → r.ent = k.ent → r.full = true) ∧
  (∀ dev m k e s, msgOk s dev m false = true → tableSlot s m.dstPtn = some (k, e) → (s.tabs.asks.any fun x => x.2.dstPtn == m.dstPtn) = false →
    k.full = false → e.capA = 0 ∨ k.usedA + msgCount m ≤ e.capA → e.capB = 0 ∨ k.usedB + msgRows m ≤ e.capB → askHeld s m = false →
    Does (.msgLookup dev m) s [.out, .regs, .eph, .work, .tabs, .ctl, .tel] fun t =>
    (∀ r ∈ t.eph.slots, r.sec = k.sec → r.ent = k.ent → r.usedA = k.usedA + msgCount m ∧ r.usedB = k.usedB + msgRows m) ∧ ∃ a, t.out.getLast? = some (Out.state dev 0x21 (stateClass s m.dstPtn 0x21) (stateHeader 0x21 a) a) ∧ a.args = m.args ∧ a.dstPtn = m.srcPtn ∧ a.dstHandle = m.srcHandle) ∧
  (∀ dev m l s, msgOk s dev m false = true → l ∈ s.work.lookups →
    s.work.lookups.find? (fun l => l.ptn == m.dstPtn && l.dev == dev && l.table == msgTable m && l.shard == msgShard m && l.seq == msgSeq m && l.answer.isNone) = some l →
    (∃ k ∈ s.work.lookups, k.task = l.task ∧ k ≠ l ∧ k.answer = none) → Does (.msgPooled dev m) s [.work] fun t =>
      t.work = { s.work with lookups := s.work.lookups.map fun k => if k = l then { k with answer := some (msgBytes m) } else k }) ∧
  (∀ dev m a s, msgOk s dev m false = true → s.tabs.applied.find? (fun a => a.1 == m.dstPtn && a.2.1 == dev && a.2.2.1 == msgTable m && a.2.2.2.1 == msgSeq m) = some a →
    Does (.msgUpdate dev m) s [.out] fun t => sentAnswer s t dev 0x23 a.2.2.2.2) ∧
  (∀ dev m r s, msgOk s dev m false = true → (∀ a ∈ s.tabs.applied, a.2.1 ≠ dev) → (∀ u ∈ s.tabs.updates, u.dev ≠ dev) →
    findTabRec s m.dstPtn (msgTable m) = some r →
    (r.opt ≠ 0 → msgShard m < r.nshard → r.owner (msgShard m) = myDev s → Does (.msgUpdate dev m) s [.tabs] fun t => t.tabs = { s.tabs with
      updates := s.tabs.updates ++ [{ ptn := m.dstPtn, dev := dev, table := msgTable m, shard := msgShard m, seq := msgSeq m, cycle := s.eph.cycle, msg := m }] }) ∧
    (r.opt = 0 ∨ r.nshard ≤ msgShard m ∨ r.owner (msgShard m) ≠ myDev s → Does (.msgUpdate dev m) s [.out, .tabs] fun t =>
      sentAnswer s t dev 0x23 stFORMAT ∧ (m.dstPtn, dev, msgTable m, msgSeq m, stFORMAT) ∈ t.tabs.applied ∧ t.tabs.updates = s.tabs.updates)) ∧
  (∀ dev m n s, msgOk s dev m false = true → (∀ a ∈ s.tabs.applied, ¬(a.2.1 = dev ∧ a.2.2.2.1 = msgSeq m)) → (∀ u ∈ s.tabs.updates, u.dev ≠ dev) →
    newestSeq s m.dstPtn dev (msgTable m) = some n → msgSeq m + 1024 ≤ n → Does (.msgUpdate dev m) s [.out] fun t => sentAnswer s t dev 0x23 stEPOCH) ∧
  (∀ dev m s, msgOk s dev m false = true → Does (.msgUpdateAck dev m) s [.tabs] fun t =>
    (m.dstPtn, dev, msgTable m, msgSeq m, m.status) ∈ t.tabs.acks ∧ t.tabs.recs = s.tabs.recs ∧ t.tabs.updates = s.tabs.updates ∧
    ∀ a ∈ t.tabs.acks, a.1 = m.dstPtn → a.2.1 = dev → a.2.2.1 = msgTable m → a.2.2.2.1 = msgSeq m → a.2.2.2.2 = m.status) ∧
  (∀ task shard l s, s.work.lookups.find? (fun l => l.task == task && l.shard == shard && l.answer.isNone && l.dev != myDev s) = some l →
    (l.sends < 4 → isolated s l.msg.srcPtn = false → Does (.lookupResend task shard) s [.out, .work] fun t =>
      t.work = { s.work with lookups := s.work.lookups.map fun k => if k = l then { k with sends := k.sends + 1, sentAt := now s } else k } ∧
      ∃ a, t.out = s.out ++ [Out.state l.dev 0x20 (stateClass s l.msg.srcPtn 0x20) (stateHeader 0x20 a) a] ∧ a.args = l.msg.args ∧ a.body = l.msg.body) ∧
    (4 ≤ l.sends → findTask s task = none → Does (.lookupResend task shard) s [.work] fun t =>
      t.work = { s.work with lookups := s.work.lookups.filter (·.task != task) })) ∧
  (∀ task shard s, (∀ l ∈ s.work.lookups, l.task = task → l.dev = myDev s ∨ l.answer.isSome = true) → Does (.lookupResend task shard) s [] fun t => t = s) ∧
  (∀ ptn s, isolated s ptn = true ∨ cnt s.tabs.age ptn < odGet s (0x91E0 + ptn) 2 → Does (.rowHeatAging ptn) s [] fun t => t = s) ∧
  (∀ ptn s, isolated s ptn = false → odGet s (0x91E0 + ptn) 2 ≤ cnt s.tabs.age ptn → Does (.rowHeatAging ptn) s [.tabs] fun t => cnt t.tabs.age ptn = 0 ∧
    (∀ h ∈ t.tabs.heat, h.ptn = ptn → h.count ≠ 0 ∧ ∃ g ∈ s.tabs.heat, g.ptn = ptn ∧ g.table = h.table ∧ g.row = h.row ∧ h.count = g.count / 2) ∧
    (∀ g ∈ s.tabs.heat, g.ptn = ptn → 2 ≤ g.count → ∃ h ∈ t.tabs.heat, h.ptn = ptn ∧ h.table = g.table ∧ h.row = g.row ∧ h.count = g.count / 2) ∧
    (∀ h, h.ptn ≠ ptn → (h ∈ t.tabs.heat ↔ h ∈ s.tabs.heat)))

/-- Memory messages at their target, next in their stream (R101, R574, R575, R580, R595-R597, R602, R609, R611): a READ leaves every byte of the tiers
and its stream is used; a WRITE puts its bytes; an atomic leaves the value of its operation; an INVALIDATE drops the cached tiles of its range and
nothing else of the caches; a WRITE applied before is answered again, counted, and writes nothing; a message whose tiles a window holds waits.
Where the spec leaves a point open, the clause is the model's choice or reading: log entries 39 and 62. -/
def Obligations.MemoryRequests : Prop :=
  (∀ m s, memOp m = 0x40 → inTurn s m → Does (.memRead m) s [.out, .freeCount, .regs, .cons, .eph, .work, .tabs, .mem, .serve, .fab, .px, .ctl, .mgt, .alm, .tel] fun t =>
    (∀ a n, tierRead t a n = tierRead s a n) ∧ ∃ c, findStream t m.src m.stream = some c ∧ c.lastAt = now s) ∧
  (∀ m s, memOp m = 0x42 → inTurn s m → Does (.memWrite m) s [.out, .freeCount, .regs, .cons, .eph, .work, .tabs, .mem, .serve, .fab, .px, .ctl, .mgt, .alm, .tel] fun t =>
    tierRead t (memAddr m % 2 ^ 48) (memLen m) = m.data ∧
    ∀ a, a < memAddr m % 2 ^ 48 ∨ memAddr m % 2 ^ 48 + memLen m ≤ a → sget byte0 t.mem.bytes a = sget byte0 s.mem.bytes a) ∧
  (∀ m s, inTurn s m →
    (memOp m = 0x48 ∨ memOp m = 0x49 → Does (.memFetchAdd m) s [.out, .freeCount, .regs, .cons, .eph, .work, .tabs, .mem, .serve, .fab, .px, .ctl, .mgt, .alm, .tel] fun t => tierRead t (memAddr m % 2 ^ 48) (atomicWidth (memOp m)) =
      leBytes (atomicWidth (memOp m)) (leNat (tierRead s (memAddr m % 2 ^ 48) (atomicWidth (memOp m))) + leAt m.data 0 (atomicWidth (memOp m)))) ∧
    (memOp m = 0x4A ∨ memOp m = 0x4B → Does (.memSwap m) s [.out, .freeCount, .regs, .cons, .eph, .work, .tabs, .mem, .serve, .fab, .px, .ctl, .mgt, .alm, .tel] fun t => tierRead t (memAddr m % 2 ^ 48) (atomicWidth (memOp m)) = m.data) ∧
    (isCas (memOp m) = true → Does (.memCas m) s [.out, .freeCount, .regs, .cons, .eph, .work, .tabs, .mem, .serve, .fab, .px, .ctl, .mgt, .alm, .tel] fun t => tierRead t (memAddr m % 2 ^ 48) (atomicWidth (memOp m)) =
      if tierRead s (memAddr m % 2 ^ 48) (atomicWidth (memOp m)) = m.data.take (atomicWidth (memOp m)) then m.data.drop (atomicWidth (memOp m))
      else tierRead s (memAddr m % 2 ^ 48) (atomicWidth (memOp m))) ∧
    (memOp m = 0x50 → Does (.memInvalidate m) s [.out, .freeCount, .regs, .cons, .eph, .work, .tabs, .mem, .serve, .fab, .px, .ctl, .mgt, .alm, .tel] fun t =>
      t.fab.rrc = s.fab.rrc.filter fun x => !(memAddr m / 4096 ≤ x.tile && x.tile * 4096 < memAddr m + memLen m))) ∧
  (∀ m c s, halted s = false → findStream s m.src m.stream = some c → m.sseq ≠ 0 → msgHeld s m = true → seqDist c.next m.sseq < 1024 →
    (∀ h ∈ s.fab.held, ¬(h.msg.src = m.src ∧ h.msg.stream = m.stream ∧ h.msg.sseq = m.sseq)) →
    (memOp m = 0x40 → Does (.memRead m) s [.fab] (heldMsg m s)) ∧ (memOp m = 0x42 → Does (.memWrite m) s [.fab] (heldMsg m s)) ∧
    (memOp m = 0x48 ∨ memOp m = 0x49 → Does (.memFetchAdd m) s [.fab] (heldMsg m s)) ∧ (memOp m = 0x4A ∨ memOp m = 0x4B → Does (.memSwap m) s [.fab] (heldMsg m s)) ∧
    (isCas (memOp m) = true → Does (.memCas m) s [.fab] (heldMsg m s))) ∧
  (∀ m c e s, memOp m = 0x42 → halted s = false → findStream s m.src m.stream = some c → m.sseq ≠ 0 → c.done.find? (·.1 == m.sseq) = some e → msgHeld s m = false →
    Does (.memWrite m) s [.out, .freeCount, .regs, .cons, .eph, .work, .tabs, .mem, .serve, .fab, .px, .ctl, .mgt, .alm, .tel] fun t => odGet t 0x9010 7 = sat 0xFFFFFFFF (odGet s 0x9010 7 + 1) ∧ ∀ a n, tierRead t a n = tierRead s a n) ∧
  (∀ m s, halted s = true → Does (.memRead m) s [] (fun t => t = s) ∧ Does (.memWrite m) s [] (fun t => t = s) ∧ Does (.memFetchAdd m) s [] (fun t => t = s) ∧
    Does (.memSwap m) s [] (fun t => t = s) ∧ Does (.memCas m) s [] (fun t => t = s) ∧ Does (.memInvalidate m) s [] fun t => t = s)

/-- Replies at the requester and timers of messages (R593, R595, R596, R598, R603, R604, R610, R620, R692): a reply ends the message it answers, whose
MSG_ID rests, and a BAR2 request gets its bytes or Completer Abort; a NAK and a timeout send the message again, up to four sends; the last
INVALIDATE to end releases its write; a rested MSG_ID is free; an unused stream context goes.
Where the spec leaves a point open, the clause is the model's choice or reading: log entries 62 and 88. -/
def Obligations.MemoryReplies : Prop :=
  (∀ m x b s, memOp m = 0x41 → answersBar2 s m x b (b.addr / 4096) → x.op = 0x40 → b.atomic = false → b.got = [] → (b.addr + b.len - 1) / 4096 = b.addr / 4096 →
    Does (.memReadData m) s [.out, .freeCount, .regs, .cons, .eph, .work, .tabs, .mem, .serve, .fab, .px, .ctl, .mgt, .alm, .tel] fun t => (m.src, bits (memArg m) 0 20) ∈ t.fab.resting ∧
      ∃ f, Out.bar2 b.ptn b.tag 0 (bytesAt (padTo 4096 m.data) (b.addr % 4096) b.len) f ∈ t.out) ∧
  (∀ m x b tile s, memOp m = 0x43 → answersBar2 s m x b tile → x.op = 0x40 → bits (memArg m) 56 8 ≠ 0 → Does (.memComplete m) s [.out, .freeCount, .regs, .cons, .eph, .work, .tabs, .mem, .serve, .fab, .px, .ctl, .mgt, .alm, .tel] fun t =>
    (m.src, bits (memArg m) 0 20) ∈ t.fab.resting ∧ Out.bar2 b.ptn b.tag 4 [] false ∈ t.out) ∧
  (∀ m x b tile s, memOp m = 0x4F → answersBar2 s m x b tile → isAtomic x.op = true → b.atomic = true → Does (.memAtomicData m) s [.out, .freeCount, .regs, .cons, .eph, .work, .tabs, .mem, .serve, .fab, .px, .ctl, .mgt, .alm, .tel] fun t =>
    (m.src, bits (memArg m) 0 20) ∈ t.fab.resting ∧ Out.bar2 b.ptn b.tag 0 m.data (!m.poison.isEmpty) ∈ t.out) ∧
  (∀ m x s, memOp m = 0x44 → halted s = false → answered s m = some x → x.sends < 4 → Does (.memMsgNak m) s [.out, .freeCount, .regs, .cons, .eph, .work, .tabs, .mem, .serve, .fab, .px, .ctl, .mgt, .alm, .tel] fun t =>
    ∃ y ∈ t.fab.sent, y.id = x.id ∧ y.sends = x.sends + 1 ∧ y.sentAt = now s) ∧
  (∀ m x op s, memOp m = 0x51 → halted s = false → answered s m = some x → x.op = 0x50 → x.owner = .inval op →
    ((∃ y ∈ s.fab.sent, y.id ≠ x.id ∧ y.owner = .inval op) → Does (.memInvAck m) s [.out, .freeCount, .regs, .cons, .eph, .work, .tabs, .mem, .serve, .fab, .px, .ctl, .mgt, .alm, .tel] fun t =>
      t.fab.fencing = s.fab.fencing ∧ (∀ y ∈ t.fab.sent, y.id ≠ x.id) ∧ (m.src, bits (memArg m) 0 20) ∈ t.fab.resting) ∧
    ((∀ y ∈ s.fab.sent, y.owner = .inval op → y.id = x.id) → ∀ f p tag tile, s.fab.fencing.find? (·.op == op) = some f → f.owner = .bar2 p tag tile →
      Does (.memInvAck m) s [.out, .freeCount, .regs, .cons, .eph, .work, .tabs, .mem, .serve, .fab, .px, .ctl, .mgt, .alm, .tel] fun t => ∀ g ∈ t.fab.fencing, g.op ≠ op)) ∧
  (∀ m s, halted s = true ∨ answered s m = none → Does (.memReadData m) s [] (fun t => t = s) ∧ Does (.memComplete m) s [] (fun t => t = s) ∧
    Does (.memAtomicData m) s [] (fun t => t = s) ∧ Does (.memMsgNak m) s [] (fun t => t = s) ∧ Does (.memInvAck m) s [] fun t => t = s) ∧
  (∀ id x s, s.fab.sent.find? (·.id == id) = some x → x.msgId.isSome = true →
    (x.op ≠ 0x50 → x.sends < 4 → Does (.msgReplyTimeout id) s [.out, .freeCount, .regs, .cons, .work, .mem, .serve, .fab, .px, .ctl, .tel] fun t => ∃ y ∈ t.fab.sent, y.id = id ∧ y.sends = x.sends + 1 ∧ y.sentAt = now s) ∧
    (x.op = 0x50 → x.sends < 4 → Does (.invalidateResend id) s [.out, .freeCount, .regs, .cons, .work, .mem, .serve, .fab, .px, .ctl, .tel] fun t => ∃ y ∈ t.fab.sent, y.id = id ∧ y.sends = x.sends + 1 ∧ y.sentAt = now s) ∧
    (∀ b tile, x.op ≠ 0x50 → 4 ≤ x.sends → x.owner = .bar2 b.ptn b.tag tile → s.px.bar2.find? (fun y => y.ptn == b.ptn && y.tag == b.tag) = some b →
      Does (.msgReplyTimeout id) s [.out, .freeCount, .regs, .cons, .work, .mem, .serve, .fab, .px, .ctl, .tel] fun t => odGet t (0x9200 + x.ptn) 7 = sat 0xFFFFFFFF (odGet s (0x9200 + x.ptn) 7 + 1) ∧
        Out.bar2 b.ptn b.tag 4 [] false ∈ t.out) ∧
    (∀ op, x.op = 0x50 → 4 ≤ x.sends → x.owner = .inval op → (∃ y ∈ s.fab.sent, y.id ≠ id ∧ y.owner = .inval op) →
      Does (.invalidateResend id) s [.out, .freeCount, .regs, .cons, .work, .mem, .serve, .fab, .px, .ctl, .tel] fun t => (∀ f ∈ t.fab.fencing, f.op = op → f.status ≠ stOK) ∧ ∀ y ∈ t.fab.sent, y.id ≠ id)) ∧
  (∀ id s, (∀ x ∈ s.fab.sent, x.id ≠ id) → Does (.msgReplyTimeout id) s [] (fun t => t = s) ∧ Does (.invalidateResend id) s [] fun t => t = s) ∧
  (∀ src msgId h s, s.fab.held.find? (fun h => h.noCtx && h.msg.src == src && h.msg.msgId == msgId) = some h →
    Does (.noContextTimeout src msgId) s [.out, .regs, .mem, .fab, .ctl, .mgt, .alm, .tel] fun t => h ∉ t.fab.held) ∧
  (∀ src msgId s, s.fab.held = [] → Does (.noContextTimeout src msgId) s [] fun t => t = s) ∧
  (∀ src stream s, Does (.streamContextExpiry src stream) s [.fab] fun t => findStream t src stream = none ∧
    (∀ h, h ∈ t.fab.held ↔ h ∈ s.fab.held ∧ (h.noCtx = true ∨ ¬(h.msg.src = src ∧ h.msg.stream = stream))) ∧
    ∀ a b, ¬(a = src ∧ b = stream) → findStream t a b = findStream s a b) ∧
  (∀ dev msgId s, Does (.msgIdFreed dev msgId) s [.regs, .fab] fun t => (dev, msgId) ∉ t.fab.resting ∧ ∀ e, e ≠ (dev, msgId) → (e ∈ t.fab.resting ↔ e ∈ s.fab.resting))

/-- Cells and routes (R539, R549, R557, R583, R587, R589-R592, R619): a cell for this device starts its message's context; one that contradicts its
context or stands at an offset already present, and one that comes over the pair link for another device, is counted and dropped; a second LAST at another offset
ends the context; a cell out of its link's sequence reaches no context; a context that times out goes; a topology message replaces what its sender
said before, and one goes to every neighbour unless the table is the host's; routes the device computes come in force as a new generation.
Where the spec leaves a point open, the clause is the model's choice or reading: log entry 62. -/
def Obligations.CellsAndRoutes : Prop :=
  (∀ n c s s1 s2, n < 17 → s.shaped = true → checkCell s n 1 c = (s1, true) → (linkOf s1 n).state = 3 → acceptSeq s1 n c.seq = (s2, true) →
    (c.stomp = true → Does (.cellData n c) s [.out, .freeCount, .regs, .cons, .eph, .work, .tabs, .mem, .serve, .fab, .px, .ctl, .mgt, .alm, .tel] fun t => t.fab.ctxs = s2.fab.ctxs ∧ t.fab.held = s2.fab.held ∧ t.fab.sent = s2.fab.sent) ∧
    (c.stomp = false → (parseCell c.hdr.toNat c.payload).dst = myDev s →
      (findCtx s2 (parseCell c.hdr.toNat c.payload).src (parseCell c.hdr.toNat c.payload).msgId = none →
        0x800 ≤ (parseCell c.hdr.toNat c.payload).stream ∨ orderedBytes s2 ((parseCell c.hdr.toNat c.payload).msgId % 2) < 2 ^ 26 →
        (∀ h ∈ s2.fab.held, ¬(h.msg.src = (parseCell c.hdr.toNat c.payload).src ∧ h.msg.msgId = (parseCell c.hdr.toNat c.payload).msgId)) →
        (s2.fab.ctxs.filter fun x => x.msgId % 2 == (parseCell c.hdr.toNat c.payload).msgId % 2).length +
          (s2.fab.held.filter fun h => h.msg.msgId % 2 == (parseCell c.hdr.toNat c.payload).msgId % 2).length < 16384 → (parseCell c.hdr.toNat c.payload).last = false →
        Does (.cellData n c) s [.out, .freeCount, .regs, .cons, .eph, .work, .tabs, .mem, .serve, .fab, .px, .ctl, .mgt, .alm, .tel] fun t => (findCtx t (parseCell c.hdr.toNat c.payload).src (parseCell c.hdr.toNat c.payload).msgId).map (fun x => (x.cells, x.last)) =
          some ([((parseCell c.hdr.toNat c.payload).offset, (parseCell c.hdr.toNat c.payload).payload, (parseCell c.hdr.toNat c.payload).poison)], none)) ∧
      (∀ x, findCtx s2 (parseCell c.hdr.toNat c.payload).src (parseCell c.hdr.toNat c.payload).msgId = some x →
        (x.stream ≠ (parseCell c.hdr.toNat c.payload).stream ∨ x.sseq ≠ (parseCell c.hdr.toNat c.payload).sseq ∨ x.ptn ≠ (parseCell c.hdr.toNat c.payload).ptn ∨
            x.cls ≠ (parseCell c.hdr.toNat c.payload).cls ∨ ((parseCell c.hdr.toNat c.payload).last = false ∧ ∃ y ∈ x.cells, y.1 = (parseCell c.hdr.toNat c.payload).offset) →
          Does (.cellData n c) s [.out, .freeCount, .regs, .cons, .eph, .work, .tabs, .mem, .serve, .fab, .px, .ctl, .mgt, .alm, .tel] fun t => odGet t 0x9010 6 = sat 0xFFFFFFFF (odGet s2 0x9010 6 + 1) ∧ t.fab.ctxs = s2.fab.ctxs) ∧
        (x.stream = (parseCell c.hdr.toNat c.payload).stream → x.sseq = (parseCell c.hdr.toNat c.payload).sseq → x.ptn = (parseCell c.hdr.toNat c.payload).ptn →
          x.cls = (parseCell c.hdr.toNat c.payload).cls → (parseCell c.hdr.toNat c.payload).last = true → (∃ l, x.last = some l ∧ l ≠ (parseCell c.hdr.toNat c.payload).offset) →
          (∀ h ∈ s2.fab.held, ¬(h.msg.src = (parseCell c.hdr.toNat c.payload).src ∧ h.msg.msgId = (parseCell c.hdr.toNat c.payload).msgId)) →
          Does (.cellData n c) s [.out, .freeCount, .regs, .cons, .eph, .work, .tabs, .mem, .serve, .fab, .px, .ctl, .mgt, .alm, .tel] fun t => findCtx t x.src x.msgId = none))) ∧
    (c.stomp = false → (parseCell c.hdr.toNat c.payload).dst ≠ myDev s → n = 16 →
      Does (.cellData n c) s [.out, .freeCount, .regs, .cons, .eph, .work, .tabs, .mem, .serve, .fab, .px, .ctl, .mgt, .alm, .tel] fun t => odGet t 0x9010 6 = sat 0xFFFFFFFF (odGet s2 0x9010 6 + 1) ∧ t.fab.ctxs = s2.fab.ctxs)) ∧
  (∀ n c s s1, checkCell s n 1 c = (s1, false) → Does (.cellData n c) s [.out, .freeCount, .regs, .cons, .eph, .work, .tabs, .mem, .serve, .fab, .px, .ctl, .mgt, .alm, .tel] fun t => t = s1) ∧
  (∀ n c s s1 s2, checkCell s n 1 c = (s1, true) → (linkOf s1 n).state = 3 → acceptSeq s1 n c.seq = (s2, false) →
    Does (.cellData n c) s [.out, .freeCount, .regs, .cons, .eph, .work, .tabs, .mem, .serve, .fab, .px, .ctl, .mgt, .alm, .tel] fun t => t = s2 ∧ t.fab.ctxs = s.fab.ctxs ∧ t.fab.held = s.fab.held ∧ t.fab.sent = s.fab.sent) ∧
  (∀ src msgId c s, findCtx s src msgId = some c → Does (.reassemblyTimeout src msgId) s [.out, .regs, .fab, .ctl, .mgt, .alm, .tel] fun t => findCtx t src msgId = none) ∧
  (∀ src msgId s, findCtx s src msgId = none → Does (.reassemblyTimeout src msgId) s [] fun t => t = s) ∧
  (∀ dev ports s, Does (.topologyMsg dev ports) s [.fab] fun t => (dev, ports) ∈ t.fab.topo ∧ (∀ e ∈ t.fab.topo, e.1 = dev → e.2 = ports) ∧
    (∀ e, e.1 ≠ dev → (e ∈ t.fab.topo ↔ e ∈ s.fab.topo)) ∧ ((linkOf s 16).partner = dev → t.fab.heardAt = now s ∧ t.fab.silent = false)) ∧
  (∀ s, s.shaped = true → odGet s 0x9000 1 ≠ 1 → Does .topologyPeriod s [.regs, .fab] fun t => ∀ n, n < 17 →
    (queueOf t n 263).length = (queueOf s n 263).length + (if portIsUp s n && isCellLink s n then 1 else 0)) ∧
  (∀ s, odGet s 0x9000 1 = 1 → Does .topologyPeriod s [] fun t => t = s) ∧
  (∀ table s, odGet s 0x9000 1 ≠ 1 → Does (.routeTableComputed table) s [.out, .regs, .fab, .ctl, .mgt, .alm, .tel] fun t =>
    odGet t 0x9010 2 = (odGet s 0x9010 2 + 1) % 2 ^ 32 ∧ (∀ k, (∀ e ∈ table, e.1 % 2048 ≠ k) → cnt t.fab.routes k = 0) ∧
    ∀ front e back, table = front ++ e :: back → (∀ f ∈ back, f.1 % 2048 ≠ e.1 % 2048) → cnt t.fab.routes (e.1 % 2048) = e.2 % 65536) ∧
  (∀ table s, odGet s 0x9000 1 = 1 → Does (.routeTableComputed table) s [] fun t => t = s)

/-- Meridian sources (R655-R658, R660, R664, R665, R673): an update of the governing source follows the servo's rule; an Announce gives the UTC offset and the
parent's class; a Delay_Req of a clock below is answered with a Delay_Resp; four offsets that agree qualify a parent and four well spaced edges PPS_IN; the
last source lost leads to holdover, with the bound it starts from.
Where the spec leaves a point open, the clause is the model's choice or reading: log entries 58 and 59. -/
def Obligations.MeridianSources : Prop :=
  (∀ port m s, port < 16 → isEth s port = true → portIsUp s port = true → m.transport < 3 → hostServo s = false → m.domain = odGet s 0x5000 6 → m.parent = true →
    (m.kind = 1 → Does (.ptpMessageRx port m) s [.ctl, .mer] fun t => t.mer = { s.mer with utc := m.utc, parentClass := m.cls } ∧ odGet t 0x5000 10 = ofInt 32 m.utc) ∧
    (m.kind = 0 → s.mer.ptp = true → s.mer.ptpPort = port → s.mer.source = 1 → Does (.ptpMessageRx port m) s [.out, .regs, .ctl, .mgt, .alm, .tel, .mer] fun t =>
      servoRule s t (m.offset + asymmetry s port) ∧ t.mer.freq = m.freq) ∧
    (m.kind = 0 → s.mer.ptp = false → s.mer.ptpPort = port → s.mer.ptpLast.length = 3 → s.mer.source ≠ 1 →
      (fourAgree (s.mer.ptpLast ++ [m.offset + asymmetry s port]) = true → Does (.ptpMessageRx port m) s [.out, .regs, .ctl, .mgt, .alm, .tel, .mer] fun t => t.mer.ptp = true ∧ t.mer.ptpLast = []) ∧
      (fourAgree (s.mer.ptpLast ++ [m.offset + asymmetry s port]) = false → Does (.ptpMessageRx port m) s [.mer] fun t =>
        t.mer = { s.mer with ptpLast := s.mer.ptpLast ++ [m.offset + asymmetry s port] }))) ∧
  (∀ port m s, 16 ≤ port ∨ isEth s port = false ∨ portIsUp s port = false → Does (.ptpMessageRx port m) s [] fun t => t = s) ∧
  (∀ port m s, hostServo s = false → m.domain ≠ odGet s 0x5000 6 ∨ m.kind ≠ 2 ∧ m.parent = false ∨ m.kind = 2 ∧ s.mer.ptp = true ∧ s.mer.ptpPort = port →
    Does (.ptpMessageRx port m) s [] fun t => t = s) ∧
  (∀ port m s, port < 16 → isEth s port = true → portIsUp s port = true → m.transport < 3 → hostServo s = false → m.domain = odGet s 0x5000 6 → m.kind = 2 →
    s.mer.ptp = false ∨ s.mer.ptpPort ≠ port → 40 ≤ m.msg.length → Does (.ptpMessageRx port m) s [.out] fun t =>
      ∃ b, t.out = s.out ++ [.ptp port m.transport b] ∧ b.length = 54 ∧ b.head? = some 9#8 ∧ bytesAt b 44 10 = bytesAt m.msg 20 10) ∧
  (∀ port c m s s1, checkCell s port 5 c = (s1, true) → port < 16 → portIsUp s1 port = true → hostServo s1 = false → m.domain = odGet s1 0x5000 6 → m.parent = true →
    (m.kind = 1 → Does (.cellTime port c m) s [.out, .regs, .fab, .ctl, .mgt, .alm, .tel, .mer] fun t => t.mer = { s1.mer with utc := m.utc, parentClass := m.cls }) ∧
    (m.kind = 0 → s1.mer.ptp = true → s1.mer.ptpPort = port → s1.mer.source = 1 → Does (.cellTime port c m) s [.out, .regs, .fab, .ctl, .mgt, .alm, .tel, .mer] fun t =>
      servoRule s1 t (m.offset + asymmetry s1 port))) ∧
  (∀ port c m s s1, checkCell s port 5 c = (s1, true) → port < 16 → portIsUp s1 port = true → hostServo s1 = false → m.domain = odGet s1 0x5000 6 → m.kind = 2 →
    s1.mer.ptp = false ∨ s1.mer.ptpPort ≠ port → 40 ≤ m.msg.length → Does (.cellTime port c m) s [.out, .regs, .fab, .ctl, .mgt, .alm, .tel, .mer] fun t =>
      ∃ n b, t.out = s1.out ++ [.control port 5 n b] ∧ b.length = 54 ∧ bytesAt b 44 10 = bytesAt m.msg 20 10) ∧
  (∀ o sp f s, hostServo s = false → odGet s 0x5000 5 = 1 →
    (s.mer.pps = true → merGoverns s = s.mer.source → s.mer.source = 2 ∨ s.mer.source = 3 → Does (.ppsInEdge o sp f) s [.out, .regs, .ctl, .mgt, .alm, .tel, .mer] fun t => servoRule s t o ∧ t.mer.freq = f) ∧
    (s.mer.pps = false → 999999000 ≤ sp → sp ≤ 1000001000 → Does (.ppsInEdge o sp f) s [.out, .regs, .ctl, .mgt, .alm, .tel, .mer] fun t =>
      (s.mer.ppsGood + 1 < 4 → t.mer = { s.mer with ppsGood := s.mer.ppsGood + 1 }) ∧ (4 ≤ s.mer.ppsGood + 1 → t.mer.pps = true)) ∧
    (s.mer.pps = false → sp < 999999000 ∨ 1000001000 < sp → Does (.ppsInEdge o sp f) s [.mer] fun t => t.mer = { s.mer with ppsGood := 1 })) ∧
  (∀ o sp f s, hostServo s = true ∨ odGet s 0x5000 5 ≠ 1 → Does (.ppsInEdge o sp f) s [] fun t => t = s) ∧
  (∀ src s, hostServo s = false → src = 0 ∧ s.mer.pps = false ∨ src = 1 ∧ s.mer.ptp = false → Does (.sourceLost src) s [.out, .regs, .ctl, .mgt, .alm, .tel, .mer] fun t =>
    t.mer.source = 0 ∧ t.mer.ptp = false ∧ t.mer.pps = false ∧
    (s.mer.state = .acquiring ∨ s.mer.state = .locked → t.mer.state = .twilight ∧ t.mer.bound = (20000 + s.mer.offset.natAbs) * 10 ^ 9) ∧
    (s.mer.state ≠ .acquiring → s.mer.state ≠ .locked → t.mer.state = s.mer.state)) ∧
  (∀ s, s.mer.state = .twilight → Does .boundExceedsGuard s [.out, .regs, .ctl, .mgt, .alm, .tel, .mer] fun t => t.mer.state = .adrift) ∧
  (∀ s, s.mer.state ≠ .twilight → Does .boundExceedsGuard s [] fun t => t = s) ∧
  (∀ v s, hostServo s = true → Does (.merHostOfsWrite v) s [.out, .regs, .ctl, .mgt, .alm, .tel, .mer] fun t => servoRule s t (toInt 32 v.toNat * 1000) ∧ t.mer.source = 4 ∧ t.mer.host = true) ∧
  (∀ s, hostServo s = true → Does .hostServoSilence s [.out, .regs, .ctl, .mgt, .alm, .tel, .mer] fun t => t.mer.host = false ∧ t.mer.source = 0 ∧
    (s.mer.state = .acquiring ∨ s.mer.state = .locked → t.mer.state = .twilight)) ∧
  (∀ v s, hostServo s = false → Does (.merHostOfsWrite v) s [] (fun t => t = s) ∧ Does (.merHostFreqWrite v) s [] (fun t => t = s) ∧ Does .hostServoSilence s [] fun t => t = s)

/-- The clock's outputs and registers (R657, R664, R669-R672, R676, R678, R679, R710, R816, R845, R846): the pulse rises unless it is squelched or too soon and
falls after it; a slew ends; a Sync goes out after an Announce, with the next sequence number, and waits on a port that recalibrates (R103, R659); MER_SET waits
for a boundary; MER_NOW latches what goes with it; the host's messages leave by its rings only in the host's modes.
Where the spec leaves a point open, the clause is the model's choice or reading: log entries 58 and 59. -/
def Obligations.MeridianOutputs : Prop :=
  (∀ s, s.mer.ppsHigh = false → (∀ r, s.mer.ppsRise = some r → r + 500000000 ≤ s.mer.osc) → s.mer.state ≠ .adrift ∨ odGet s 0x5000 4 ≠ 1 →
    Does .ppsOutRise s [.out, .mer] fun t => t.out = s.out ++ [.pin 1 1] ∧
      t.mer = { s.mer with ppsHigh := true, ppsWidth := odGet s 0x5000 3, ppsRise := some s.mer.osc }) ∧
  (∀ s, s.mer.ppsHigh = true ∨ s.mer.state = .adrift ∧ odGet s 0x5000 4 = 1 ∨ (∃ r, s.mer.ppsRise = some r ∧ s.mer.osc < r + 500000000) →
    Does .ppsOutRise s [] fun t => t = s) ∧
  (∀ s, s.mer.ppsHigh = true → Does .ppsOutFall s [.out, .mer] fun t => t.out = s.out ++ [.pin 1 0] ∧ t.mer = { s.mer with ppsHigh := false }) ∧
  (∀ s, s.mer.ppsHigh = false → Does .ppsOutFall s [] fun t => t = s) ∧
  (∀ s, Does .slewDone s [.mer] fun t => t.mer = { s.mer with slewing := false }) ∧
  (∀ port s, hostServo s = false → port < 16 → portIsUp s port = true → s.mer.ptp = false ∨ port ≠ s.mer.ptpPort → isEth s port = true →
    Does (.ptpSyncTx port) s [.out, .mer] fun t => (∃ a b, t.out = s.out ++ [.ptp port 0 a, .ptp port 0 b] ∧ a.length = 64 ∧ a.head? = some 0xB#8 ∧ b.length = 44 ∧ b.head? = some 0#8) ∧
      cnt t.mer.syncSeq port = (cnt s.mer.syncSeq port + 1) % 65536) ∧
  (∀ port s, s.shaped = true → hostServo s = false → port < 16 → portIsUp s port = true → s.mer.ptp = false ∨ port ≠ s.mer.ptpPort → isEth s port = false →
    (port ∈ s.eph.recal → Does (.ptpSyncTx port) s [.fab, .mer] fun t => (∃ b, (linkOf t port).timeWait = (linkOf s port).timeWait ++ [(none, b)]) ∧
      cnt t.mer.syncSeq port = (cnt s.mer.syncSeq port + 1) % 65536) ∧
    (port ∉ s.eph.recal → Does (.ptpSyncTx port) s [.out, .fab, .mer] fun t => (∃ n m a b, t.out = s.out ++ [.control port 5 n a, .control port 5 m b] ∧ a.length = 64 ∧ b.length = 44) ∧
      cnt t.mer.syncSeq port = (cnt s.mer.syncSeq port + 1) % 65536)) ∧
  (∀ port s, hostServo s = true ∨ 16 ≤ port ∨ portIsUp s port = false ∨ s.mer.ptp = true ∧ port = s.mer.ptpPort → Does (.ptpSyncTx port) s [] fun t => t = s) ∧
  (∀ v s, hostServo s = true → Does (.merHostFreqWrite v) s [.regs, .mer] fun t =>
    t.mer = { s.mer with freq := clampFreq (toInt 32 v.toNat) } ∧ getReg t 0x200024 = v ∧ RegsUnchanged [0x200024] s t) ∧
  (∀ hi s, s.mer.state = .freerun ∨ hostServo s = true → Does (.merSetWrite hi) s [.regs, .mer] fun t =>
    t.mer.stepTo = some ((latchGet s 0x200028).toNat + hi.toNat * 2 ^ 32) ∧ getReg t 0x200028 = latchGet s 0x200028 ∧ getReg t 0x20002C = hi ∧
    t.mer.ns = s.mer.ns ∧ RegsUnchanged [0x200028, 0x20002C] s t) ∧
  (∀ hi s, s.mer.state ≠ .freerun → hostServo s = false → Does (.merSetWrite hi) s [] fun t => t = s) ∧
  (∀ s, Does .merNowRead s [.regs, .mer] fun t => t.regs.readData = BitVec.ofNat 32 s.mer.ns ∧ latchGet t 0x200008 = BitVec.ofNat 32 (s.mer.ns / 2 ^ 32) ∧
    t.mer = { s.mer with fracLatch := s.mer.frac } ∧ RegsUnchanged [] s t) ∧
  (∀ desc s, hostServo s = true → ringEn s (pfRing 5) = true → ringIx s (pfRing 5) ≠ regFld s (pfRing 5 + 0xC) 0 20 →
    (leAt desc 0 4 % 32 < 16 → portIsUp s (leAt desc 0 4 % 32) = true → isEth s (leAt desc 0 4 % 32) = true → bits (leAt desc 0 4) 5 11 < 3 →
      34 ≤ bits (leAt desc 0 4) 16 16 → bits (leAt desc 0 4) 16 16 ≤ 96 → Does (.ptpTxRingEntry desc) s [.out, .regs, .fab, .ctl, .mgt, .alm, .tel, .mer] fun t =>
        Out.ptp (leAt desc 0 4 % 32) (bits (leAt desc 0 4) 5 2) (bytesAt desc 32 (bits (leAt desc 0 4) 16 16)) ∈ t.out) ∧
    (s.shaped = true → leAt desc 0 4 % 32 < 16 → portIsUp s (leAt desc 0 4 % 32) = true → isEth s (leAt desc 0 4 % 32) = false → bits (leAt desc 0 4) 5 11 = 3 →
      34 ≤ bits (leAt desc 0 4) 16 16 → bits (leAt desc 0 4) 16 16 ≤ 96 → Does (.ptpTxRingEntry desc) s [.out, .regs, .fab, .ctl, .mgt, .alm, .tel, .mer] fun t =>
        (leAt desc 0 4 % 32 ∉ s.eph.recal → ∃ n, Out.control (leAt desc 0 4 % 32) 5 n (bytesAt desc 32 (bits (leAt desc 0 4) 16 16)) ∈ t.out) ∧
        (leAt desc 0 4 % 32 ∈ s.eph.recal → t.out = s.out ∧ (linkOf t (leAt desc 0 4 % 32)).timeWait =
          (linkOf s (leAt desc 0 4 % 32)).timeWait ++ [(some (leAt desc 4 4), bytesAt desc 32 (bits (leAt desc 0 4) 16 16))])) ∧
    (16 ≤ leAt desc 0 4 % 32 ∨ bits (leAt desc 0 4) 16 16 < 34 ∨ 96 < bits (leAt desc 0 4) 16 16 ∨ bits (leAt desc 0 4) 7 9 ≠ 0 →
      Does (.ptpTxRingEntry desc) s [.regs, .tel] fun t => ringIx t (pfRing 5) = (ringIx s (pfRing 5) + 1) % 2 ^ 20 ∧ RegsUnchanged [] s t)) ∧
  (∀ desc s, hostServo s = false ∨ ringEn s (pfRing 5) = false → Does (.ptpTxRingEntry desc) s [] fun t => t = s) ∧
  (∀ desc s, odGet s 0x9000 3 ≠ 0 → ringEn s (pfRing 7) = true → ringIx s (pfRing 7) ≠ regFld s (pfRing 7 + 0xC) 0 20 → leAt desc 0 4 % 32 < 16 →
    isEth s (leAt desc 0 4 % 32) = true → portIsUp s (leAt desc 0 4 % 32) = true → Does (.cmTxRingEntry desc) s [.out, .regs, .tel] fun t =>
      (∃ fields, t.out = s.out ++ [.cm (leAt desc 0 4 % 32) (leAt desc 4 4 % 2 ^ 24) (leAt desc 16 16) 6 fields]) ∧
      ringIx t (pfRing 7) = (ringIx s (pfRing 7) + 1) % 2 ^ 20) ∧
  (∀ desc s, odGet s 0x9000 3 = 0 ∨ ringEn s (pfRing 7) = false → Does (.cmTxRingEntry desc) s [] fun t => t = s)

/-- The queue-pair mailbox (R9, R154, R707-R711): each command is answered, and what it does to queue pairs and regions; a command that a rule refuses changes
neither, and a mailbox without GO does nothing.
Where the spec leaves a point open, the clause is the model's choice or reading: log entry 64. -/
def Obligations.QueuePairCommands : Prop :=
  (∀ v x s, qpGo s v 1 x → bit x 21 = false →
    (∀ q u, newQp s (qcPtn x) 0 = some (q, u) → Does (.qpCreate v) s [.out, .regs, .px, .ctl, .tel] fun t => qpAnswered t v stOK ∧ (∃ y ∈ t.px.qps, y.ix = q.ix ∧ y.ptn = qcPtn x ∧ y.state = 0) ∧
      bits (getReg t (mbxQp v + 4)).toNat 0 24 = qpNum q % 2 ^ 24 ∧ t.px.qps.length = s.px.qps.length + 1) ∧
    (newQp s (qcPtn x) 0 = none → Does (.qpCreate v) s [.regs] fun t => qpAnswered t v stBUSY)) ∧
  (∀ v x q u s, qpGo s v 1 x → bit x 21 = true → qpHard s = true → portOk s x = true → bits x 70 3 ≠ 0 → bits x 70 3 ≤ 5 → bits x 73 5 ≠ 0 →
    newQp s (qcPtn x) (bits x 63 5 / 8) = some (q, u) → Does (.qpCreate v) s [.out, .regs, .px, .ctl, .tel] fun t => qpAnswered t v stOK ∧ (∃ y ∈ t.px.qps, y.ix = q.ix ∧ y.port = bits x 63 5 ∧ y.cm = 1) ∧
      t.out.getLast? = some (.cm (bits x 63 5) 1 (bits x 192 128) 0 [qpNum q, bits x 120 24, bits x 320 64, bits x 70 3])) ∧
  (∀ v x q s, qpGo s v 2 x → qcFind s x = (0, some q) →
    (q.state = 0 → bits x 56 3 = 1 → portOk s x = true → Does (.qpModify v) s [.out, .freeCount, .regs, .cons, .work, .mem, .serve, .fab, .px, .ctl, .tel] fun t => qpAnswered t v stOK ∧
      (findQp t q.ix).map (fun y => (y.state, y.port, y.subport, y.prio)) = some (1, bits x 63 5, bits x 68 2, bits x 59 3)) ∧
    (q.state = 1 → bits x 56 3 = 2 → bits x 70 3 ≠ 0 → bits x 70 3 ≤ 5 → Does (.qpModify v) s [.out, .freeCount, .regs, .cons, .work, .mem, .serve, .fab, .px, .ctl, .tel] fun t => qpAnswered t v stOK ∧
      (findQp t q.ix).map (fun y => (y.state, y.destQp, y.destGid, y.rqPsn, y.mtu)) = some (2, bits x 96 24, bits x 192 128, bits x 144 24, bits x 70 3)) ∧
    (q.state = 2 → bits x 56 3 = 3 → bits x 73 5 ≠ 0 → q.ops = [] → Does (.qpModify v) s [.out, .freeCount, .regs, .cons, .work, .mem, .serve, .fab, .px, .ctl, .tel] fun t => qpAnswered t v stOK ∧
      (findQp t q.ix).map (fun y => (y.state, y.sqPsn, y.timeout, y.retry)) = some (3, bits x 120 24, bits x 73 5, bits x 78 3)) ∧
    (q.state = 4 → bits x 56 3 = 0 → Does (.qpModify v) s [.out, .freeCount, .regs, .cons, .work, .mem, .serve, .fab, .px, .ctl, .tel] fun t => qpAnswered t v stOK ∧ (findQp t q.ix).map (fun y => (y.state, y.atomics)) = some (0, [])) ∧
    (1 ≤ q.state → q.state ≤ 3 → bits x 56 3 = 4 → q.ops = [] → Does (.qpModify v) s [.out, .freeCount, .regs, .cons, .work, .mem, .serve, .fab, .px, .ctl, .tel] fun t => qpAnswered t v stOK ∧ (findQp t q.ix).map (·.state) = some 4) ∧
    (q.state = 0 → bits x 56 3 ≠ 1 → Does (.qpModify v) s [.regs] fun t => qpAnswered t v stFORMAT)) ∧
  (∀ v x q s, qpGo s v 3 x → qcFind s x = (0, some q) → q.ops = [] → Does (.qpDestroy v) s [.out, .freeCount, .regs, .cons, .work, .mem, .serve, .px, .ctl, .tel] fun t =>
    qpAnswered t v stOK ∧ (∀ y ∈ t.px.qps, y.ix ≠ q.ix) ∧ ∀ k, k ≠ q.ix → findQp t k = findQp s k) ∧
  (∀ v x q s, qpGo s v 4 x → qcFind s x = (0, some q) → Does (.qpQuery v) s [.regs] fun t =>
    qpAnswered t v stOK ∧ bits (getReg t (mbxQp v + 4)).toNat 24 3 = q.state % 8) ∧
  (∀ v x st s, qcFind s x = (st, none) → (qpGo s v 2 x → Does (.qpModify v) s [.regs] fun t => qpAnswered t v st) ∧
    (qpGo s v 3 x → Does (.qpDestroy v) s [.regs] fun t => qpAnswered t v st) ∧ (qpGo s v 4 x → Does (.qpQuery v) s [.regs] fun t => qpAnswered t v st)) ∧
  (∀ v x s, qpGo s v 5 x →
    (bits x 384 40 ≠ 0 → (s.px.regions.filter (·.ptn == qcPtn x)).length < odGet s (0x9240 + qcPtn x) 4 → s.px.regions.length < 262144 →
      (ownRange s (qcPtn x) (bits x 320 64) (bits x 384 40) = true → Does (.qpRegMr v) s [.regs, .px] fun t => qpAnswered t v stOK ∧
        ∃ r, t.px.regions = s.px.regions ++ [r] ∧ r.ptn = qcPtn x ∧ r.addr = bits x 320 64 ∧ r.len = bits x 384 40 ∧ r.rights = bits x 424 3 ∧
          (∀ o ∈ s.px.regions, o.ix ≠ r.ix) ∧ (getReg t (mbxQp v + 60)).toNat = (r.ix * 256 + r.variant) % 2 ^ 32) ∧
      (ownRange s (qcPtn x) (bits x 320 64) (bits x 384 40) = false → Does (.qpRegMr v) s [.regs] fun t => qpAnswered t v stACCESS)) ∧
    (bits x 384 40 = 0 → Does (.qpRegMr v) s [.regs] fun t => qpAnswered t v stFORMAT) ∧
    (bits x 384 40 ≠ 0 → odGet s (0x9240 + qcPtn x) 4 ≤ (s.px.regions.filter (·.ptn == qcPtn x)).length → Does (.qpRegMr v) s [.regs] fun t => qpAnswered t v stBUSY)) ∧
  (∀ v x s, qpGo s v 6 x →
    (∀ r, s.px.regions.find? (fun r => r.ix == bits x 480 32 / 256 && r.variant == bits x 480 32 % 256) = some r → r.ptn = qcPtn x →
      (keyInUse s (bits x 480 32) = false → Does (.qpDeregMr v) s [.regs, .px] fun t => qpAnswered t v stOK ∧ ∀ y, y ∈ t.px.regions ↔ y ∈ s.px.regions ∧ y.ix ≠ r.ix) ∧
      (keyInUse s (bits x 480 32) = true → Does (.qpDeregMr v) s [.px] fun t => (bits x 480 32, viewPtn v) ∈ t.px.leaving ∧ ∀ y ∈ t.px.regions, y.ix ≠ r.ix)) ∧
    (s.px.regions = [] → Does (.qpDeregMr v) s [.regs] fun t => qpAnswered t v stFORMAT)) ∧
  (∀ v x s, mbxGo s v 2 = true → x = mbxRead s (mbxQp v) 16 → (∃ p, viewPtn v = some p ∧ p ≠ qcPtn x) →
    (bits x 0 8 = 1 → Does (.qpCreate v) s [.regs, .ctl] fun t => qpAnswered t v stACCESS) ∧ (bits x 0 8 = 2 → Does (.qpModify v) s [.regs, .ctl] fun t => qpAnswered t v stACCESS) ∧
    (bits x 0 8 = 3 → Does (.qpDestroy v) s [.regs, .ctl] fun t => qpAnswered t v stACCESS) ∧ (bits x 0 8 = 4 → Does (.qpQuery v) s [.regs, .ctl] fun t => qpAnswered t v stACCESS) ∧
    (bits x 0 8 = 5 → Does (.qpRegMr v) s [.regs, .ctl] fun t => qpAnswered t v stACCESS) ∧ (bits x 0 8 = 6 → Does (.qpDeregMr v) s [.regs, .ctl] fun t => qpAnswered t v stACCESS)) ∧
  (∀ v s, mbxGo s v 2 = false → Does (.qpCreate v) s [] (fun t => t = s) ∧ Does (.qpModify v) s [] (fun t => t = s) ∧ Does (.qpDestroy v) s [] (fun t => t = s) ∧
    Does (.qpQuery v) s [] (fun t => t = s) ∧ Does (.qpRegMr v) s [] (fun t => t = s) ∧ Does (.qpDeregMr v) s [] fun t => t = s)

/-- RoCE packets (R617, R704, R705, R709, R712-R716): in their turn a WRITE puts its bytes, a READ leaves them, an atomic leaves its result, and the expected PSN
moves on; a SEND is turned away; answers end operations; a CNP cuts the rate; a packet for no queue pair is dropped and counted.
Where the spec leaves a point open, the clause is the model's choice or reading: log entry 64. -/
def Obligations.RocePackets : Prop :=
  (∀ n p q s, roceArrives s n p q → q.rqPsn < 2 ^ 24 → p.psn = q.rqPsn →
    (p.op = 0 → q.write_ = none → keyCheck s q.ptn p.key p.addr p.len 1 = none → p.len ≤ p.data.length → Does (.roceRxWrite n p) s [.out, .freeCount, .regs, .cons, .work, .mem, .serve, .fab, .px, .ctl, .mgt, .alm, .tel] fun t =>
      tierRead t p.addr p.len = p.data.take p.len ∧ (findQp t q.ix).map (·.rqPsn) = some ((q.rqPsn + 1) % 2 ^ 24) ∧
      ∀ a, a < p.addr ∨ p.addr + p.len ≤ a → sget byte0 t.mem.bytes a = sget byte0 s.mem.bytes a) ∧
    (p.op = 1 → keyCheck s q.ptn p.key p.addr p.len 0 = none → Does (.roceRxRead n p) s [.regs, .fab, .px, .tel] fun t =>
      (findQp t q.ix).map (·.rqPsn) = some ((q.rqPsn + readPkts q p.len) % 2 ^ 24)) ∧
    (p.op = 2 → keyCheck s q.ptn p.key p.addr 8 2 = none → 8 ≤ p.data.length → Does (.roceRxFetchAdd n p) s [.out, .freeCount, .regs, .cons, .work, .mem, .serve, .fab, .px, .ctl, .mgt, .alm, .tel] fun t =>
      tierRead t p.addr 8 = leBytes 8 (leNat (tierRead s p.addr 8) + leAt p.data 0 8) ∧ (findQp t q.ix).map (·.rqPsn) = some ((q.rqPsn + 1) % 2 ^ 24)) ∧
    (p.op = 3 → keyCheck s q.ptn p.key p.addr 8 2 = none → 8 ≤ p.data.length → Does (.roceRxCompareSwap n p) s [.out, .freeCount, .regs, .cons, .work, .mem, .serve, .fab, .px, .ctl, .mgt, .alm, .tel] fun t =>
      tierRead t p.addr 8 = (if tierRead s p.addr 8 = leBytes 8 p.cmp then p.data.take 8 else tierRead s p.addr 8) ∧
      (findQp t q.ix).map (·.rqPsn) = some ((q.rqPsn + 1) % 2 ^ 24)) ∧
    (p.op = 9 → Does (.roceRxSend n p) s [.regs, .fab, .px, .tel] fun t => (findQp t q.ix).map (fun y => (y.state, y.rqPsn)) = some (q.state, q.rqPsn))) ∧
  (∀ n p q b tile g s, roceArrives s n p q → q.ops = [g] → g.psn.isSome = true → g.owner = .bar2 b.ptn b.tag tile →
    s.px.bar2.find? (fun y => y.ptn == b.ptn && y.tag == b.tag) = some b →
    (p.op = 5 → g.op ≠ 0x42 → g.psn = some p.psn → opLast g = p.psn → b.atomic = true → Does (.roceRxResponse n p) s [.out, .freeCount, .regs, .cons, .work, .mem, .serve, .fab, .px, .ctl, .mgt, .alm, .tel] fun t =>
      (findQp t q.ix).map (·.ops) = some [] ∧ Out.bar2 b.ptn b.tag 0 p.data false ∈ t.out) ∧
    (p.op = 6 → g.op = 0x42 → psnBefore p.psn (opLast g) = false → Does (.roceRxAck n p) s [.out, .freeCount, .regs, .cons, .work, .mem, .serve, .fab, .px, .ctl, .mgt, .alm, .tel] fun t => (findQp t q.ix).map (·.ops) = some []) ∧
    (p.op = 6 → psnBefore p.psn (opLast g) = true → Does (.roceRxAck n p) s [.out, .freeCount, .regs, .cons, .work, .mem, .serve, .fab, .px, .ctl, .mgt, .alm, .tel] fun t => (findQp t q.ix).map (·.ops) = some [g]) ∧
    (p.op = 7 → p.syn = 0x62 → psnBefore (opLast g) p.psn = false → Does (.roceRxNak n p) s [.out, .freeCount, .regs, .cons, .work, .mem, .serve, .fab, .px, .ctl, .mgt, .alm, .tel] fun t =>
      (findQp t q.ix).map (fun y => (y.state, y.ops)) = some (4, []) ∧ Out.bar2 b.ptn b.tag 4 [] false ∈ t.out)) ∧
  (∀ n p q s, roceArrives s n p q → p.op = 8 →
    ((∀ c, q.cnpAt = some c → 50000 ≤ now s - c) → Does (.roceRxCnp n p) s [.out, .freeCount, .regs, .cons, .work, .mem, .serve, .fab, .px, .ctl, .mgt, .alm, .tel] fun t => (findQp t q.ix).map (fun y => (y.alpha, y.rateT, y.rate, y.steps)) =
      some ((q.alpha * 255 + 65536) / 256, q.rate, q.rate - q.rate * ((q.alpha * 255 + 65536) / 256) / 131072, 0)) ∧
    ((∃ c, q.cnpAt = some c ∧ now s - c < 50000) → Does (.roceRxCnp n p) s [.out, .freeCount, .regs, .cons, .work, .mem, .serve, .fab, .px, .ctl, .mgt, .alm, .tel] fun t => (findQp t q.ix).map (·.rate) = some q.rate)) ∧
  (∀ n p s, isEth s n = true → portIsUp s n = true → p.qpn < 0x100000 →
    (p.op = 0 → Does (.roceRxWrite n p) s [.px] fun t => t.px = { s.px with rxDrops := s.px.rxDrops + 1 }) ∧
    (p.op = 1 → Does (.roceRxRead n p) s [.px] fun t => t.px = { s.px with rxDrops := s.px.rxDrops + 1 }) ∧
    (p.op = 2 → Does (.roceRxFetchAdd n p) s [.px] fun t => t.px = { s.px with rxDrops := s.px.rxDrops + 1 }) ∧
    (p.op = 3 → Does (.roceRxCompareSwap n p) s [.px] fun t => t.px = { s.px with rxDrops := s.px.rxDrops + 1 }) ∧
    (p.op = 9 → Does (.roceRxSend n p) s [.px] fun t => t.px = { s.px with rxDrops := s.px.rxDrops + 1 }) ∧
    (p.op = 6 → Does (.roceRxAck n p) s [.px] fun t => t.px = { s.px with rxDrops := s.px.rxDrops + 1 }) ∧
    (p.op = 5 → Does (.roceRxResponse n p) s [.px] fun t => t.px = { s.px with rxDrops := s.px.rxDrops + 1 }) ∧
    (p.op = 7 → Does (.roceRxNak n p) s [.px] fun t => t.px = { s.px with rxDrops := s.px.rxDrops + 1 }) ∧
    (p.op = 8 → Does (.roceRxCnp n p) s [.px] fun t => t.px = { s.px with rxDrops := s.px.rxDrops + 1 })) ∧
  (∀ n p s, isEth s n = false ∨ portIsUp s n = false → Does (.roceRxWrite n p) s [] (fun t => t = s) ∧ Does (.roceRxRead n p) s [] (fun t => t = s) ∧
    Does (.roceRxFetchAdd n p) s [] (fun t => t = s) ∧ Does (.roceRxCompareSwap n p) s [] (fun t => t = s) ∧ Does (.roceRxSend n p) s [] (fun t => t = s) ∧
    Does (.roceRxAck n p) s [] (fun t => t = s) ∧ Does (.roceRxResponse n p) s [] (fun t => t = s) ∧ Does (.roceRxNak n p) s [] (fun t => t = s) ∧
    Does (.roceRxCnp n p) s [] (fun t => t = s)) ∧
  (∀ n f s, isEth s n = false ∨ portIsUp s n = false → Does (.ethFrameRx n f) s [] fun t => t = s) ∧
  (∀ n f s, isEth s n = true → portIsUp s n = true → (getReg s (portBase n + 0x260 + 8 * (f.prio % 8) + 4)).getLsbD 25 = false →
    (f.roce = none → Does (.ethFrameRx n f) s [.tel] fun t => t.fab = s.fab) ∧
    (∀ p, f.roce = some p → p.qpn < 0x100000 → (∀ q ∈ s.px.qps, q.ix ≠ 0) → Does (.ethFrameRx n f) s [.px, .tel] fun t =>
      t.px = { s.px with rxDrops := s.px.rxDrops + 1 }))

/-- Queue-pair timers and connections (R710, R715, R716, R718, R719, R721, R846): a timeout sends again and then ends the operation and the queue pair; the rate
recovers; a context is in cache once it is loaded, or the queue pair is in ERROR; connection messages move the exchange on, and
go to the host in the host-assisted mode.
Where the spec leaves a point open, the clause is the model's choice or reading: log entry 64. -/
def Obligations.Connections : Prop :=
  (∀ ix q g s, findQp s ix = some q → q.state = 3 → q.ops = [g] → g.psn.isSome = true → psnBefore (opLast g) (g.psn.getD 0) = false →
    (g.sends ≤ q.retry → Does (.roceAckTimeout ix) s [.out, .freeCount, .regs, .cons, .work, .mem, .serve, .fab, .px, .ctl, .mgt, .alm, .tel] fun t => (findQp t ix).map (·.ops) = some [{ g with sends := g.sends + 1, sentAt := now s }]) ∧
    (∀ b tile, q.retry < g.sends → g.owner = .bar2 b.ptn b.tag tile → s.px.bar2.find? (fun y => y.ptn == b.ptn && y.tag == b.tag) = some b →
      Does (.roceAckTimeout ix) s [.out, .freeCount, .regs, .cons, .work, .mem, .serve, .fab, .px, .ctl, .mgt, .alm, .tel] fun t => (findQp t ix).map (fun y => (y.state, y.ops)) = some (4, []) ∧ Out.bar2 b.ptn b.tag 4 [] false ∈ t.out)) ∧
  (∀ ix s, findQp s ix = none → Does (.roceAckTimeout ix) s [] (fun t => t = s) ∧ Does (.dcqcnRateTimer ix) s [] (fun t => t = s) ∧
    ∀ o, Does (.qpContextLoaded ix o) s [] fun t => t = s) ∧
  (∀ ix q s, findQp s ix = some q → Does (.dcqcnRateTimer ix) s [.px] fun t => (findQp t ix).map (fun y => (y.alpha, y.rateT, y.rate, y.steps)) =
    some (q.alpha * 255 / 256, if 5 ≤ q.steps then Nat.min (subRate s q.port) (q.rateT + 40000) else q.rateT,
      (q.rate + (if 5 ≤ q.steps then Nat.min (subRate s q.port) (q.rateT + 40000) else q.rateT)) / 2, q.steps + 1)) ∧
  (∀ ix o q s, findQp s ix = some q → q.loading = true → q.ops = [] →
    (o = 0 → q.miss = [] → (cacheRoom s (homeDie q)).isSome = true → Does (.qpContextLoaded ix o) s [.out, .freeCount, .regs, .cons, .work, .mem, .serve, .fab, .px, .ctl, .mgt, .alm, .tel] fun t =>
      (findQp t ix).map (fun y => (y.loading, y.cached)) = some (false, true)) ∧
    (o ≠ 0 → Does (.qpContextLoaded ix o) s [.out, .freeCount, .regs, .cons, .work, .mem, .serve, .fab, .px, .ctl, .mgt, .alm, .tel] fun t => (findQp t ix).map (fun y => (y.loading, y.state)) = some (false, 4))) ∧
  (∀ c s, qpHard s = true →
    (∀ q u, ((List.range 32).find? fun p => odGet s (0x9240 + p) 1 == c.gid && odGet s (0x9240 + p) 6 == c.sid && c.sid != 0).bind (newQp s · (c.port / 8)) = some (q, u) →
      Does (.cmReq c) s [.out, .regs, .px, .tel] fun t => t.out.getLast? = some (.cm c.port 1 c.peer 1 [qpNum q, c.rqpn, 0]) ∧
        ∃ y ∈ t.px.qps, y.ix = q.ix ∧ y.state = 3 ∧ y.destQp = c.rqpn ∧ y.port = c.port ∧ y.cm = 2) ∧
    (c.sid = 0 → Does (.cmReq c) s [.out] fun t => t.out = s.out ++ [.cm c.port 1 c.peer 3 [c.rqpn]])) ∧
  (∀ c q s, qpHard s = true → cmQp s c = some q → q.ops = [] →
    (q.cm = 1 → Does (.cmRep c) s [.out, .regs, .fab, .px, .ctl, .tel] fun t => (findQp t q.ix).map (fun y => (y.state, y.destQp, y.rqPsn, y.cm)) = some (3, c.rqpn, c.psn % 2 ^ 24, 3) ∧
      t.out = s.out ++ [.cm c.port 1 c.peer 2 [qpNum q, c.rqpn]]) ∧
    (q.cm = 2 → Does (.cmRtu c) s [.px] fun t => (findQp t q.ix).map (·.cm) = some 3) ∧
    (q.cm = 1 → Does (.cmRej c) s [.px] fun t => (findQp t q.ix).map (·.cm) = some 0) ∧
    (q.cm = 4 → Does (.cmDrep c) s [.px] fun t => (findQp t q.ix).map (·.cm) = some 0) ∧
    Does (.cmDreq c) s [.out, .freeCount, .regs, .cons, .work, .mem, .serve, .px, .ctl, .tel] (fun t => (findQp t q.ix).map (·.state) = some 4 ∧ t.out = s.out ++ [.cm c.port 1 c.peer 5 [qpNum q, c.rqpn]])) ∧
  (∀ c s, qpHard s = true → cmQp s c = none → Does (.cmRep c) s [] (fun t => t = s) ∧ Does (.cmRtu c) s [] (fun t => t = s) ∧ Does (.cmRej c) s [] (fun t => t = s) ∧
    Does (.cmDreq c) s [] (fun t => t = s) ∧ Does (.cmDrep c) s [] fun t => t = s) ∧
  (∀ c s, qpHard s = false → ringEn s (pfRing 8) = false → Does (.cmReq c) s [] (fun t => t = s) ∧ Does (.cmRep c) s [] (fun t => t = s) ∧ Does (.cmRtu c) s [] (fun t => t = s) ∧
    Does (.cmRej c) s [] (fun t => t = s) ∧ Does (.cmDreq c) s [] (fun t => t = s) ∧ Does (.cmDrep c) s [] fun t => t = s)

/-- PCIe (R101, R686, R689, R691-R695, R697, R700, R701, R728): a BAR2 read of this device's memory is answered with its bytes, an atomic with the old value while the
new one is written, either waits while a window holds its tile, and a request that is not carried out is answered with its status; IDE streams, TDISP and links take their states; a request of a bound link to another target is refused and counted.
Where the spec leaves a point open, the clause is the model's choice or reading: log entry 64. -/
def Obligations.PcieCommands : Prop :=
  (∀ p tag off len a w s, bar2Open s p = true → bar2Addr s p off = some a → window s p 0 a len = some w → 1 ≤ len → a % 4096 + len ≤ 4096 → a / 2 ^ 48 = myDev s → a % 2 ^ 48 < 2 ^ 47 →
    tierStatus s p (a % 2 ^ 48 / 4096 * 4096) = 0 → (∀ b ∈ s.px.bar2, ¬(b.ptn = p ∧ b.tag = tag)) → (windowHolds s (a % 2 ^ 48 / 4096) 1 = true → Does (.bar2Read p tag off len) s [.px] fun t =>
      t.px.bar2 = s.px.bar2 ++ [{ ptn := p, tag := tag, addr := a, len := len }]) ∧ (windowHolds s (a % 2 ^ 48 / 4096) 1 = false →
    Does (.bar2Read p tag off len) s [.out, .regs, .mem, .fab, .px, .ctl, .mgt, .alm, .tel] fun t => (∃ f, t.out = s.out ++ [.bar2 p tag 0 (bytesAt (tierView s (a % 2 ^ 48 / 4096 * 4096) 4096) (a % 4096) len) f]) ∧ t.px.bar2 = s.px.bar2 ∧ ∀ d n, tierRead t d n = tierRead s d n)) ∧
  (∀ p tag off op data a w s, isAtomic op = true → bar2Open s p = true → bar2Addr s p off = some a → window s p 2 a (atomicWidth op) = some w → a / 2 ^ 48 = myDev s → a % 2 ^ 48 < 2 ^ 47 →
    a % 2 ^ 48 % atomicWidth op = 0 → tierStatus s p (a % 2 ^ 48) = 0 → (∀ b ∈ s.px.bar2, ¬(b.ptn = p ∧ b.tag = tag)) →
    (if isCas op then 2 * atomicWidth op else atomicWidth op) = data.length → (windowHolds s (a % 2 ^ 48 / 4096) 1 = true → Does (.bar2Atomic p tag off op data) s [.px] fun t =>
      t.px.bar2 = s.px.bar2 ++ [{ ptn := p, tag := tag, addr := a, len := data.length, atomic := true, op := op, data := data }]) ∧ (windowHolds s (a % 2 ^ 48 / 4096) 1 = false →
    Does (.bar2Atomic p tag off op data) s [.out, .regs, .mem, .fab, .px, .ctl, .mgt, .alm, .tel] fun t =>
      (∃ f, t.out = s.out ++ [.bar2 p tag 0 (tierRead s (a % 2 ^ 48) (atomicWidth op)) f]) ∧ t.px.bar2 = s.px.bar2 ∧
      tierRead t (a % 2 ^ 48) (atomicWidth op) = leBytes (atomicWidth op) (atomicResult op (leNat (tierRead s (a % 2 ^ 48) (atomicWidth op))) data))) ∧
  (∀ p tag off s, bar2Open s p = false → (∀ len, Does (.bar2Read p tag off len) s [.out] fun t => t.out = s.out ++ [.bar2 p tag (if halted s then 4 else 1) [] false]) ∧
    ∀ op data, isAtomic op = true → Does (.bar2Atomic p tag off op data) s [.out] fun t => t.out = s.out ++ [.bar2 p tag (if halted s then 4 else 1) [] false]) ∧
  (∀ p tag off s, bar2Open s p = true → bar2Addr s p off = none → (∀ len, Does (.bar2Read p tag off len) s [.out, .ctl] fun t =>
      t.out = s.out ++ [.bar2 p tag 1 [] false] ∧ odGet t (0x9200 + p) 4 = sat 0xFFFFFFFF (odGet s (0x9200 + p) 4 + 1)) ∧
    ∀ op data, isAtomic op = true → Does (.bar2Atomic p tag off op data) s [.out, .ctl] fun t =>
      t.out = s.out ++ [.bar2 p tag 1 [] false] ∧ odGet t (0x9200 + p) 4 = sat 0xFFFFFFFF (odGet s (0x9200 + p) 4 + 1)) ∧
  (∀ p s, Does (.bar2Write p) s [.px] fun t => cnt t.px.aer p = cnt s.px.aer p + 1 ∧ ∀ q, q ≠ p → cnt t.px.aer q = cnt s.px.aer q) ∧
  (∀ l s, Does (.atsInvalidate l) s [.out, .px] fun t => t.out = s.out ++ [.slot l 0 4] ∧ t.px = { s.px with atsDone := s.px.atsDone + 1 }) ∧
  (∀ id l fn s, (s.px.ide.filter (·.id != id)).length < 64 → (pxLink s l).role = 1 → Does (.ideKmProgram id l fn) s [.px] fun t =>
    t.px.ide = s.px.ide.filter (·.id != id) ++ [{ id := id, link := l, fn := fn, secure := true }]) ∧
  (∀ id l fn s, 64 ≤ (s.px.ide.filter (·.id != id)).length ∨ (pxLink s l).role ≠ 1 → Does (.ideKmProgram id l fn) s [] fun t => t = s) ∧
  (∀ id c i s, s.px.ide.find? (·.id == id) = some i → Does (.ideIntegrityFail id c) s [.out, .regs, .px, .ctl, .mgt, .alm, .tel] fun t =>
    (t.px.ide.find? (·.id == id)).map (fun x => (x.link, x.fn, x.secure)) = some (i.link, i.fn, false)) ∧
  (∀ id c s, (∀ i ∈ s.px.ide, i.id ≠ id) → Does (.ideIntegrityFail id c) s [] fun t => t = s) ∧
  (∀ p s, p < 32 → s.shaped = true →
    (vfBound s p = true → (compOf s p).tdi = 0 → (∃ i ∈ s.px.ide, i.secure = true ∧ i.link = cmpUlink (compOf s p).cfg ∧ i.fn = cmpVf (compOf s p).cfg + 1) →
      Does (.tdispLockInterface p) s [.px] fun t => compOf t p = { compOf s p with tdi := 1 }) ∧
    ((compOf s p).tdi = 1 → Does (.tdispStartInterface p) s [.px] fun t => compOf t p = { compOf s p with tdi := 2 }) ∧
    Does (.tdispStopInterface p) s [.px] (fun t => compOf t p = { compOf s p with tdi := 0 } ∧ ∀ q, q ≠ p → compOf t q = compOf s q)) ∧
  (∀ p s, vfBound s p = false ∨ (compOf s p).tdi ≠ 0 ∨ (∀ i ∈ s.px.ide, i.secure = false) → Does (.tdispLockInterface p) s [] fun t => t = s) ∧
  (∀ p s, (compOf s p).tdi ≠ 1 → Does (.tdispStartInterface p) s [] fun t => t = s) ∧
  (∀ l s, l < 12 → s.shaped = true → (pxLink s l).releasing.isSome = true →
    Does (.slotPowerOff l) s [.px] (fun t => pxLink t l = { pxLink s l with toFree := true } ∧ ∀ k, k ≠ l → pxLink t k = pxLink s k) ∧
    ((pxLink s l).toFree = false → Does (.releaseGraceExpiry l) s [.px] fun t => pxLink t l = { pxLink s l with toFree := true, grace := true })) ∧
  (∀ l s, (pxLink s l).releasing = none → Does (.slotPowerOff l) s [] (fun t => t = s) ∧ Does (.releaseGraceExpiry l) s [] fun t => t = s) ∧
  (∀ l p v s, l < 12 → s.shaped = true → heldBy s l = some (p, v) → (pxLink s l).up = true → Does (.dlinkDown l) s [.out, .regs, .px, .ctl, .mgt, .alm, .tel] fun t =>
    pxLink t l = { pxLink s l with up := false } ∧ Out.slot (cmpUlink (compOf s p).cfg) v 1 ∈ t.out) ∧
  (∀ l s, heldBy s l = none ∨ (pxLink s l).up = false → Does (.dlinkDown l) s [] fun t => t = s) ∧
  (∀ l p v s, heldBy s l = some (p, v) → Does (.dlinkRequest l .host) s [] (fun t => t = s) ∧
    Does (.dlinkRequest l (.vf (cmpVf (compOf s p).cfg + 1))) s [] (fun t => t = s) ∧
    Does (.dlinkRequest l .pf) s [.px] (fun t => t.px = { s.px with acsRefused := s.px.acsRefused + 1 }) ∧
    (∀ n, n ≠ cmpVf (compOf s p).cfg + 1 → Does (.dlinkRequest l (.vf n)) s [.px] fun t => t.px = { s.px with acsRefused := s.px.acsRefused + 1 }) ∧
    (∀ n, (∀ k ∈ s.px.links, k.bound ≠ some (p, n)) → Does (.dlinkRequest l (.vdsp n)) s [.px] fun t => t.px = { s.px with acsRefused := s.px.acsRefused + 1 })) ∧
  (∀ l s, l < 12 → s.shaped = true → (pxLink s l).up = true → heldBy s l = none → Does (.pcieLinkDown l) s [.out, .regs, .px, .ctl, .mgt, .alm, .tel] fun t => pxLink t l = { pxLink s l with up := false }) ∧
  (∀ l rate width s, l < 12 → s.shaped = true → (pxLink s l).up = false → (pxLink s l).role ≠ 0 → Does (.pcieLinkUp l rate width) s [.out, .regs, .serve, .px, .ctl, .mgt, .alm, .tel] fun t =>
    pxLink t l = { pxLink s l with up := true, rate := rate % 8, width := width % 32 } ∧
    ∀ p v, heldBy s l = some (p, v) → Out.slot (cmpUlink (compOf s p).cfg) v 0 ∈ t.out) ∧
  (∀ l rate width s, (pxLink s l).up = true ∨ (pxLink s l).role = 0 → Does (.pcieLinkUp l rate width) s [] fun t => t = s)

/-- Writes of entries that a check refuses are answered with its code, change nothing but the answer and the journal, and are not heard while the management
plane is down (R745, R862, R879-R884, R945).
Where the spec leaves a point open, the clause is the model's choice or reading: log entry 43. -/
def Obligations.EntryWritesRefused : Prop :=
  ∀ (w : OdSrc) (ptn idx sub value : Nat) (data : List Byte) (ok : Bool) (x : Ext) (s : State), ∀ c ∈
    ([(.tableSupply w ptn data, 0x9160 + ptn % 32, 1, data), (.routeTableLoad w data, 0x9010, 1, data), (.windowTableWrite w ptn data, 0x9200 + ptn % 32, 1, data),
      (.ptnProvision w ptn, 0x3000 + 16 * (ptn % 32), 2, [1]), (.ptnActivate w ptn, 0x3000 + 16 * (ptn % 32), 2, [2]), (.ptnDrain w ptn, 0x3000 + 16 * (ptn % 32), 2, [3]),
      (.ptnFence w ptn, 0x3000 + 16 * (ptn % 32), 2, [4]), (.ptnUnfence w ptn, 0x3000 + 16 * (ptn % 32), 2, [5]), (.ptnRelease w ptn, 0x3000 + 16 * (ptn % 32), 2, [6]),
      (.constellationsWrite w ptn data, 0x3000 + 16 * (ptn % 32), 3, data), (.roleResponse w data ok, 0x2000, 3, data), (.roleDrop w, 0x2000, 4, [1]),
      (.installerKeyWrite w data, 0x2000, 5, data), (.readmitWrite w data, 0x4000, 2, data), (.drillWrite w data, 0x4010, 1, data), (.coeffWrite w data, 0x6100, 2, data),
      (.updateBegin w, 0x2020, 6, [1]), (.updateData w data, 0x2020, 5, data), (.updateVerify w x, 0x2020, 6, [2]), (.updateCancel w, 0x2020, 6, [3]),
      (.nfStart w, 0x4040, 1, [1]), (.nfAbort w, 0x4040, 1, [2]), (.nfPowerDown w, 0x4040, 1, [3]), (.fieldNotesWrite w data ok, 0x8020, 1, data),
      (.clearFaultLog w value, 0x8000, 9, [BitVec.ofNat 8 value]), (.odEntryWrite w idx sub data, idx, sub, data)] : List (Instr × Nat × Nat × List Byte)),
    (odHears s w = false → Does c.1 s [] fun t => t = s) ∧
    (odHears s w = true → odCheck s w c.2.1 c.2.2.1 c.2.2.2 ≠ 0 → c.2.1 < 65536 → c.2.2.1 < 256 → Does c.1 s [.out, .regs, .ctl, .mgt, .alm] fun t =>
      odReplied t w (odCheck s w c.2.1 c.2.2.1 c.2.2.2) ∧ t.ctl.odPend = s.ctl.odPend)

/-- Tables and partitions through the object dictionary (R306, R578, R584, R730, R732-R736, R745, R848, R882): a supplied table, a route table, a window table and a
partition command are taken or reported; those that wait for a boundary wait whole; FENCE acts at once; a plain entry takes its value; the PF mailbox reads and writes entries.
Where the spec leaves a point open, the clause is the model's choice or reading: log entries 42, 43 and 84. -/
def Obligations.EntryWrites : Prop :=
  (∀ w p data imgs n s, odTakes s w (0x9160 + p % 32) 1 data → supplyResult s (p % 32) data = (0, imgs) → freeTab s (p % 32) imgs.length = some n →
    Does (.tableSupply w p data) s allParts fun t => odReplied t w 0 ∧ odGet t (0x9160 + p % 32) 2 = 0 ∧ t.serve.tables.take s.serve.tables.length = s.serve.tables ∧
      t.serve.tables.length = s.serve.tables.length + imgs.length) ∧
  (∀ w p data r imgs s, odTakes s w (0x9160 + p % 32) 1 data → supplyResult s (p % 32) data = (r, imgs) → r ≠ 0 → Does (.tableSupply w p data) s [.out, .regs, .ctl, .mgt, .alm] fun t =>
      odReplied t w (if r = 3 ∨ r = 4 then odSTATE else odRANGE) ∧ odGet t (0x9160 + p % 32) 2 = r) ∧
  (∀ w data s, odTakes s w 0x9010 1 data → data.length = 4096 →
    (routeResult s data = 0 → Does (.routeTableLoad w data) s [.ctl] fun t => odWaiting s t w 0x9010 1 data ∧ odGet t 0x9010 3 = 0) ∧
    (routeResult s data ≠ 0 → Does (.routeTableLoad w data) s [.out, .regs, .ctl, .mgt, .alm] fun t =>
      odReplied t w (if routeResult s data = 1 then odSTATE else odRANGE) ∧ odGet t 0x9010 3 = routeResult s data)) ∧
  (∀ w p data s, odTakes s w (0x9200 + p % 32) 1 data → data.length = 2048 →
    (windowResult s (p % 32) data = 0 → Does (.windowTableWrite w p data) s [.ctl] fun t => odWaiting s t w (0x9200 + p % 32) 1 data ∧ odGet t (0x9200 + p % 32) 2 = 0) ∧
    (windowResult s (p % 32) data ≠ 0 → Does (.windowTableWrite w p data) s [.out, .regs, .ctl, .mgt, .alm] fun t => odGet t (0x9200 + p % 32) 2 = windowResult s (p % 32) data ∧
      odReplied t w (if windowResult s (p % 32) data = 4 then odSTATE else if tdiLocked s (p % 32) then odLOCKED else odRANGE))) ∧
  (∀ w p s, odTakes s w (0x3000 + 16 * (p % 32)) 2 [1] → cmdAccept s w (p % 32) 1 = 0 → Does (.ptnProvision w p) s [.ctl] fun t => odWaiting s t w (0x3000 + 16 * (p % 32)) 2 [1]) ∧
  (∀ w p s, odTakes s w (0x3000 + 16 * (p % 32)) 2 [2] → cmdAccept s w (p % 32) 2 = 0 → Does (.ptnActivate w p) s [.ctl] fun t => odWaiting s t w (0x3000 + 16 * (p % 32)) 2 [2]) ∧
  (∀ w p s, odTakes s w (0x3000 + 16 * (p % 32)) 2 [3] → cmdAccept s w (p % 32) 3 = 0 → Does (.ptnDrain w p) s [.ctl] fun t => odWaiting s t w (0x3000 + 16 * (p % 32)) 2 [3]) ∧
  (∀ w p s, odTakes s w (0x3000 + 16 * (p % 32)) 2 [5] → cmdAccept s w (p % 32) 5 = 0 → Does (.ptnUnfence w p) s [.ctl] fun t => odWaiting s t w (0x3000 + 16 * (p % 32)) 2 [5]) ∧
  (∀ w p s, odTakes s w (0x3000 + 16 * (p % 32)) 2 [6] → cmdAccept s w (p % 32) 6 = 0 → Does (.ptnRelease w p) s [.ctl] fun t => odWaiting s t w (0x3000 + 16 * (p % 32)) 2 [6]) ∧
  (∀ w p s, s.shaped = true → odTakes s w (0x3000 + 16 * (p % 32)) 2 [1] → cmdAccept s w (p % 32) 1 = 1 → Does (.ptnProvision w p) s [.out, .regs, .ptns, .ctl, .mgt, .alm] fun t =>
    odReplied t w odSTATE ∧ getPtn t (p % 32) = { getPtn s (p % 32) with cmdResult := 1 }) ∧
  (∀ w p s, s.shaped = true → odTakes s w (0x3000 + 16 * (p % 32)) 2 [4] → (getPtn s (p % 32)).state = .provisioning ∨ (getPtn s (p % 32)).state = .active ∨ (getPtn s (p % 32)).state = .draining →
    Does (.ptnFence w p) s allParts fun t => odReplied t w 0 ∧ (getPtn t (p % 32)).state = .fenced ∧ (getPtn t (p % 32)).fenceCause = 1 ∧ (getPtn t (p % 32)).before = (getPtn s (p % 32)).state ∧
      ∀ q, q ≠ p % 32 → (getPtn t q).state = (getPtn s q).state) ∧
  (∀ w p s, s.shaped = true → odTakes s w (0x3000 + 16 * (p % 32)) 2 [4] → (getPtn s (p % 32)).state = .vacant ∨ (getPtn s (p % 32)).state = .fenced ∨ (getPtn s (p % 32)).state = .scrubbing →
    Does (.ptnFence w p) s [.out, .regs, .ptns, .ctl, .mgt, .alm] fun t => odReplied t w odSTATE ∧ getPtn t (p % 32) = { getPtn s (p % 32) with cmdResult := 1 }) ∧
  (∀ w p data s, s.shaped = true → odTakes s w (0x3000 + 16 * (p % 32)) 3 data → Does (.constellationsWrite w p data) s allParts fun t =>
    odReplied t w 0 ∧ getPtn t (p % 32) = { getPtn s (p % 32) with cons := namedCons data }) ∧
  (∀ w sub data s, 4 ≤ sub → sub ≤ 8 → odTakes s w 0x6030 sub data → Does (.odEntryWrite w 0x6030 sub data) s [.out, .regs, .ctl, .mgt, .alm] fun t =>
    odReplied t w 0 ∧ odGet t 0x6030 sub = leNat data ∧ (w.master = .pf → OdUnchanged [(0x6030, sub)] s t)) ∧
  (∀ w sub data s, sub = 1 ∨ sub = 2 ∨ 4 ≤ sub ∧ sub ≤ 9 → odTakes s w 0x5000 sub data → Does (.odEntryWrite w 0x5000 sub data) s [.ctl] fun t =>
    odWaiting s t w 0x5000 sub data ∧ OdUnchanged [] s t) ∧
  (∀ r e s, mbxGo s .pf 3 = true → r = mbxRead s 0x2100 4 → (∀ o ∈ s.ctl.odPend, o.w.master ≠ .pf) → (∀ o ∈ s.ctl.odStore, o.1.master ≠ .pf) → odHears s { master := .pf } = true → bits r 45 19 = 0 → bits r 72 56 = 0 →
    (bits r 0 8 = 1 → bits r 8 16 = 0x6030 → odServed s 0x6030 = true → odFind 0x6030 (bits r 24 8) = some e → e.size ≠ 0 → e.rc = false → e.access ≠ .wo → roleOf s { master := .pf } ≥ e.read →
      Does .pfOdRead s [.regs] fun t => odReplied t { master := .pf } 0 ∧ (bits r 24 8 ≠ 0 → e.size ≤ 4 → getReg t 0x3000 = BitVec.ofNat 32 (odGet s 0x6030 (bits r 24 8) % 2 ^ (8 * e.size)))) ∧
    (bits r 0 8 = 2 → bits r 8 16 = 0x6030 → 4 ≤ bits r 24 8 → bits r 24 8 ≤ 8 → 1 ≤ bits r 32 13 → bits r 32 13 ≤ 4 →
      odCheck s { master := .pf } 0x6030 (bits r 24 8) ((leBytes 4 (getReg s 0x3000).toNat).take (bits r 32 13)) = 0 → ∀ x, Does (.pfOdWrite x) s [.regs, .ctl, .alm] fun t =>
        odReplied t { master := .pf } 0 ∧ odGet t 0x6030 (bits r 24 8) = (getReg s 0x3000).toNat % 2 ^ (8 * bits r 32 13))) ∧
  (∀ r x s, mbxGo s .pf 3 = true → r = mbxRead s 0x2100 4 → (∀ o ∈ s.ctl.odPend, o.w.master ≠ .pf) → (∀ o ∈ s.ctl.odStore, o.1.master ≠ .pf) → odHears s { master := .pf } = true →
    bits r 0 8 = 0 ∨ 3 ≤ bits r 0 8 → Does .pfOdRead s [.regs] (fun t => odReplied t { master := .pf } odREQUEST) ∧ Does (.pfOdWrite x) s [.regs] fun t => odReplied t { master := .pf } odREQUEST) ∧
  (∀ x s, mbxGo s .pf 3 = false ∨ (∃ o ∈ s.ctl.odPend, o.w.master = .pf) ∨ (∃ o ∈ s.ctl.odStore, o.1.master = .pf) → Does .pfOdRead s [] (fun t => t = s) ∧ Does (.pfOdWrite x) s [] fun t => t = s)

/-- Roles, keys and the journal (R741-R744, R746, R754): a challenge is fresh and is told to its master; a signature that verifies against the
installer key within 60 s, or one by the vendor's authority, gives the role, another counts and, the fourth time, locks out; roles and lock-outs end;
the installer key is set by whoever may, its answer left to the end of its group; the cursor moves over the journal.
Where the spec leaves a point open, the clause is the model's choice or reading: log entries 10, 46, 79 and 84. -/
def Obligations.RoleCommands : Prop :=
  (∀ w s, odHears s w = true → Does (.roleChallenge w) s [.out, .freeCount, .regs, .ctl, .mgt] fun t => odReplied t w 0 ∧ t.freeCount = s.freeCount + 1 ∧
    ∃ v, v < 2 ^ 384 ∧ (masterRole t w.master).nonce = some (v, s.mer.osc, w.node) ∧ (w.master = .pf → mbxRead t 0x3000 12 = v)) ∧
  (∀ w data ok s, odTakes s w 0x2000 3 data → data.length = 97 → leAt data 0 1 = 1 ∨ leAt data 0 1 = 2 → (masterRole s w.master).lockout = false →
    (∀ n at_ node, (masterRole s w.master).nonce = some (n, at_, node) → s.mer.osc - at_ ≤ 60000000000 → w.master = .pf ∨ node = w.node →
      (leAt data 0 1 = 2 → ok = true) → (leAt data 0 1 = 1 → ∃ k, s.ctl.key = some k ∧ sigOk k (sha384 (responseText s w n 1)) (data.drop 1) = true) →
      Does (.roleResponse w data ok) s [.out, .regs, .ctl, .mgt, .alm] fun t => odReplied t w 0 ∧ (masterRole t w.master).role = leAt data 0 1 ∧
        (masterRole t w.master).nonce = none ∧ (masterRole t w.master).node = w.node ∧ (masterRole t w.master).streak = 0) ∧
    ((masterRole s w.master).nonce = none ∨ (leAt data 0 1 = 2 ∧ ok = false) ∨ (leAt data 0 1 = 1 ∧ s.ctl.key = none) ∨
      (∃ n at_ node, (masterRole s w.master).nonce = some (n, at_, node) ∧ 60000000000 < s.mer.osc - at_) ∨
      (∃ n at_ node k, (masterRole s w.master).nonce = some (n, at_, node) ∧ leAt data 0 1 = 1 ∧ s.ctl.key = some k ∧
        sigOk k (sha384 (responseText s w n 1)) (data.drop 1) = false) → Does (.roleResponse w data ok) s [.out, .regs, .ctl, .mgt, .alm] fun t => odReplied t w odRIGHTS ∧
      (masterRole t w.master).role = (masterRole s w.master).role ∧ (masterRole t w.master).nonce = none ∧
      (masterRole t w.master).failed = sat 0xFFFFFFFF ((masterRole s w.master).failed + 1) ∧ (masterRole t w.master).lockout = ((masterRole s w.master).streak == 3))) ∧
  (∀ w data ok s, odTakes s w 0x2000 3 data → data.length = 97 → leAt data 0 1 = 1 ∨ leAt data 0 1 = 2 → (masterRole s w.master).lockout = true →
    Does (.roleResponse w data ok) s [.out, .regs, .ctl, .mgt, .alm] fun t => odReplied t w odSTATE ∧ masterRole t w.master = masterRole s w.master) ∧
  (∀ w s, odTakes s w 0x2000 4 [1] → Does (.roleDrop w) s [.out, .regs, .ctl, .mgt, .alm] fun t => odReplied t w 0 ∧ roleOf t w = 0) ∧
  (∀ m s, (masterRole s m).role ≠ 0 → Does (.roleIdleTimeout m) s [.ctl, .alm] fun t => masterRole t m = { masterRole s m with role := 0 } ∧
    ∃ a, t.ctl.audit.getLast? = some a ∧ a.kind = 2 ∧ a.master = masterNum m ∧ a.old = (masterRole s m).role) ∧
  (∀ m s, (masterRole s m).role = 0 → Does (.roleIdleTimeout m) s [] fun t => t = s) ∧
  (∀ m s, Does (.lockoutExpiry m) s [.ctl] fun t => masterRole t m = { masterRole s m with lockout := false }) ∧
  (∀ w data s, odTakes s w 0x2000 5 data → data.length = 97 →
    (s.ctl.key = none ∨ roleOf s w = 2 → Does (.installerKeyWrite w data) s [.out, .regs, .ctl, .mgt, .alm] fun t =>
      t.ctl.odStore = s.ctl.odStore ++ [(w, 0x2000, 5, false)] ∧ t.ctl.key = if data.all (· == 0) then none else some data) ∧
    (s.ctl.key.isSome = true → roleOf s w ≠ 2 → Does (.installerKeyWrite w data) s [.out, .regs, .ctl, .mgt, .alm] fun t => odReplied t w odRIGHTS ∧ t.ctl.key = s.ctl.key)) ∧
  (∀ w a s, odHears s w = true → s.boot.recovery = false → s.ctl.audit.find? (·.seq == s.ctl.cursor) = some a → Does (.auditEntryRead w) s [.out, .regs, .ctl, .mgt] fun t =>
    odReplied t w 0 ∧ t.ctl.cursor = (a.seq + 1) % 2 ^ 32 ∧ t.ctl.audit = s.ctl.audit ∧ (w.master = .pf → mbxRead t 0x3000 8 = leNat (auditBytes a))) ∧
  (∀ w s, odHears s w = true → s.boot.recovery = false → s.ctl.audit = [] → Does (.auditEntryRead w) s [.out, .regs, .ctl, .mgt] fun t => odReplied t w 0 ∧ t.ctl.cursor = s.ctl.cursor)

/-- Service entries (R792, R800, R898, R902, R928, R929, R954, R957, R961, R962, R966): readmission, drills, energy coefficients, firmware updates, Nightfall, field notes and the fault log, each done or
refused with its code, the clearing of the fault log answered when its group ends.
Where the spec leaves a point open, the clause is the model's choice or reading: log entries 10, 43, 44, 53, 56, 79 and 84. -/
def Obligations.ServiceEntries : Prop :=
  (∀ w data s, odTakes s w 0x4000 2 data →
    ((getCon s (leNat data)).role = .failed → (getCon s (leNat data)).losses < 3 → (∀ r ∈ s.ras.readmits, physQuarter r.1 ≠ physQuarter (leNat data)) → Does (.readmitWrite w data) s allParts fun t =>
      odReplied t w 0 ∧ t.ras.readmits = s.ras.readmits ++ [(leNat data, false)] ∧ odGet t 0x4000 3 = 0) ∧
    ((getCon s (leNat data)).role ≠ .failed → Does (.readmitWrite w data) s [.out, .regs, .ctl, .mgt, .alm] fun t => odReplied t w odSTATE ∧ odGet t 0x4000 3 = 1)) ∧
  (∀ w data s, odTakes s w 0x4010 1 data → data.length % 16 = 0 → data.length ≤ 1024 →
    (drillResult s data = 0 → Does (.drillWrite w data) s allParts fun t => odReplied t w 0 ∧ t.ras = { s.ras with drills := data } ∧ odGet t 0x4010 2 = 0) ∧
    (drillResult s data ≠ 0 → Does (.drillWrite w data) s [.out, .regs, .ctl, .mgt, .alm] fun t => odReplied t w odRANGE ∧ odGet t 0x4010 2 = drillResult s data)) ∧
  (∀ w data s, odTakes s w 0x6100 2 data → data.length = 480 →
    (odGet s 0x9000 4 ≠ 0 → Does (.coeffWrite w data) s allParts fun t => odReplied t w 0 ∧ t.tel = { s.tel with coeffs := (List.range 120).map fun i => BitVec.ofNat 32 (leAt data (4 * i) 4) } ∧
      odGet t 0x6100 1 = (odGet s 0x6100 1 + 1) % 2 ^ 32) ∧
    (odGet s 0x9000 4 = 0 → Does (.coeffWrite w data) s [.out, .regs, .ctl, .mgt, .alm] fun t => odReplied t w odSTATE)) ∧
  (∀ w s, odTakes s w 0x2020 6 [1] → Does (.updateBegin w) s allParts fun t => odReplied t w 0 ∧ t.boot = { s.boot with erased := true } ∧ odGet t 0x2020 4 = 0 ∧
    Out.flash 0 (1 - fwGet s 0 1 % 2) 0 [] ∈ t.out) ∧
  (∀ w data s, odTakes s w 0x2020 5 data → 1 ≤ data.length → data.length ≤ 4096 →
    (s.boot.erased = true → odGet s 0x2020 4 + data.length ≤ 2 ^ 25 → Does (.updateData w data) s [.out, .regs, .ctl, .mgt, .alm] fun t => odReplied t w 0 ∧
      odGet t 0x2020 4 = odGet s 0x2020 4 + data.length ∧ Out.flash 1 (1 - fwGet s 0 1 % 2) (odGet s 0x2020 4) data ∈ t.out) ∧
    (s.boot.erased = false → Does (.updateData w data) s [.out, .regs, .ctl, .mgt, .alm] fun t => odReplied t w odSEQUENCE ∧ odGet t 0x2020 4 = odGet s 0x2020 4 ∧ odGet t 0x2020 7 = 6)) ∧
  (∀ w x s, odTakes s w 0x2020 6 [2] → s.boot.recovery = false →
    (s.boot.erased = true → x.flashOk = true → bundleResult s x.bundle = 0 → Does (.updateVerify w x) s allParts fun t =>
      odReplied t w 0 ∧ t.boot = { s.boot with erased := false } ∧ odGet t 0x2020 7 = 0) ∧
    (s.boot.erased = true → x.flashOk = true → bundleResult s x.bundle ≠ 0 → Does (.updateVerify w x) s [.out, .regs, .ctl, .mgt, .alm] fun t =>
      odReplied t w odSTATE ∧ odGet t 0x2020 7 = bundleResult s x.bundle) ∧
    (s.boot.erased = true → x.flashOk = false → Does (.updateVerify w x) s [.out, .regs, .ctl, .mgt, .alm] fun t => odReplied t w odSTATE ∧ odGet t 0x2020 7 = 5) ∧
    (s.boot.erased = false → Does (.updateVerify w x) s [.out, .regs, .ctl, .mgt, .alm] fun t => odReplied t w odSEQUENCE)) ∧
  (∀ w s, odTakes s w 0x2020 6 [3] → s.alm.auditHead < 256 → Does (.updateCancel w) s [.out, .regs, .ctl, .mgt, .alm] fun t => odReplied t w 0 ∧ fwGet t 1 1 = 0xFF ∧ fwGet t 2 1 = 0) ∧
  (∀ w s, odTakes s w 0x4040 1 [1] →
    (s.boot.nfState = 0 → (∀ p ∈ s.ptns, p.state = .vacant) → s.boot.ready = true → Does (.nfStart w) s allParts fun t => odReplied t w 0 ∧
      t.boot.nfState = 1 ∧ t.boot.nfStep = 1 ∧ t.boot.nfSlice = 0 ∧ t.boot.nfSliceMs = odGet s 0x4040 2 ∧ t.boot.nfTotal = odGet s 0x4040 3 ∧ t.eph.running = false) ∧
    (s.boot.nfState ≠ 0 ∨ s.boot.ready = false ∨ (∃ p ∈ s.ptns, p.state ≠ .vacant) → Does (.nfStart w) s [.out, .regs, .ctl, .mgt, .alm] fun t => odReplied t w odSTATE)) ∧
  (∀ w s, odTakes s w 0x4040 1 [2] → (s.boot.nfState = 1 → Does (.nfAbort w) s allParts fun t => odReplied t w 0 ∧ t.boot = { s.boot with nfState := 4, nfHold := false }) ∧
    (s.boot.nfState ≠ 1 → Does (.nfAbort w) s [.out, .regs, .ctl, .mgt, .alm] fun t => odReplied t w odSTATE)) ∧
  (∀ w s, odTakes s w 0x4040 1 [3] →
    (sequenced s = true → s.boot.nfState ≠ 1 → (∀ p ∈ s.ptns, p.state = .vacant) → Does (.nfPowerDown w) s allParts fun t => odReplied t w 0 ∧ t.boot.rails = [] ∧ t.boot.stopped = true ∧ t.eph.running = false) ∧
    (sequenced s = false ∨ s.boot.nfState = 1 ∨ (∃ p ∈ s.ptns, p.state ≠ .vacant) → Does (.nfPowerDown w) s [.out, .regs, .ctl, .mgt, .alm] fun t => odReplied t w odSTATE)) ∧
  (∀ w data ok s, odTakes s w 0x8020 1 data → 1 ≤ data.length → data.length ≤ 1024 →
    (ok = true → Does (.fieldNotesWrite w data ok) s [.out, .regs, .ctl, .mgt, .alm] fun t => odReplied t w 0 ∧ almBytes t 0xFC00 data.length = data) ∧
    (ok = false → Does (.fieldNotesWrite w data ok) s [.out, .regs, .ctl, .mgt, .alm] fun t => odReplied t w odSTORAGE ∧ t.alm.fixed = s.alm.fixed)) ∧
  (∀ w v s, odTakes s w 0x8000 9 [BitVec.ofNat 8 v] → v % 256 = 1 → Does (.clearFaultLog w v) s [.out, .regs, .ctl, .mgt, .alm] fun t => t.ctl.odStore = s.ctl.odStore ++ [(w, 0x8000, 9, false)] ∧ t.alm.faultHead = 0)

/-- The node's state and address on the management bus (R859, R862-R869, R871, R872, R877): commands of the manager, the search, a conflict, the listen and the timeouts move it
between its states; a frame that is not for it does nothing.
Where the spec leaves a point open, the clause is the model's choice or reading: log entry 49. -/
def Obligations.BusNode : Prop :=
  (∀ f ser s, busHeard s f → f.src ≠ 127 → ser = 0 ∨ ser = serial s →
    Does (.ncResetComm f ser) s [.out, .regs, .ctl, .mgt, .alm, .tel] (fun t => busPlace t = (.unassigned, 127, 127, none) ∧ t.mgt.listening = true) ∧
    (s.mgt.bus ≠ .silent → s.mgt.bus ≠ .lone → Does (.ncSilence f ser) s [.out, .regs, .ctl, .mgt, .alm, .tel] fun t => t.mgt.bus = .silent ∧ t.mgt.prev = s.mgt.bus ∧ t.mgt.bySearch = false ∧ t.mgt.addr = s.mgt.addr) ∧
    (s.mgt.bus = .silent → s.mgt.bySearch = false → Does (.ncResume f ser) s [.out, .regs, .ctl, .mgt, .alm, .tel] fun t => t.mgt.bus = s.mgt.prev ∧ t.mgt.addr = s.mgt.addr) ∧
    (1 ≤ roleOf s { master := .bus, node := f.src } →
      Does (.ncStoreAddr f ser) s [.out, .regs, .ctl, .mgt, .alm, .tel] (fun t => almNum t 0xE900 1 = s.mgt.addr % 256 ∧ almNum t 0xE901 1 = s.mgt.manager % 256) ∧
      (s.boot.lostRefs.contains 0 = false → Does (.ncWarmReset f ser) s [.out, .regs, .cons, .qtrs, .eph, .work, .tabs, .mem, .serve, .fab, .px, .ptns, .ctl, .mgt, .alm, .tel, .ras, .boot] fun t => t.boot.warm = true ∧ t.boot.rstN = false ∧ t.work.tasks = [] ∧ t.serve.reqs = [] ∧ t.mem.bytes = [])) ∧
    (roleOf s { master := .bus, node := f.src } = 0 →
      Does (.ncStoreAddr f ser) s [.ctl, .alm] (fun t => ∃ a, t.ctl.audit.getLast? = some a ∧ a.refused = true ∧ a.new = 4) ∧
      Does (.ncWarmReset f ser) s [.ctl, .alm] fun t => ∃ a, t.ctl.audit.getLast? = some a ∧ a.refused = true ∧ a.new = 5)) ∧
  (∀ f ser s, s.boot.mgmt = false ∨ s.mgt.busOff = true → Does (.ncResetComm f ser) s [] (fun t => t = s) ∧ Does (.ncSilence f ser) s [] (fun t => t = s) ∧
    Does (.ncResume f ser) s [] (fun t => t = s) ∧ Does (.ncStoreAddr f ser) s [] (fun t => t = s) ∧ Does (.ncWarmReset f ser) s [] (fun t => t = s) ∧
    Does (.searchEnd f) s [] (fun t => t = s) ∧ Does (.searchHeard f) s [] (fun t => t = s) ∧ Does (.canHeartbeatRx f ser) s [] fun t => t = s) ∧
  (∀ f ser s, busHeard s f → ser ≠ 0 → ser ≠ serial s → Does (.ncResetComm f ser) s [.ctl] (fun t => odGet t 0x1020 1 = sat 0xFFFFFFFF (odGet s 0x1020 1 + 1)) ∧
    Does (.ncSilence f ser) s [.ctl] (fun t => odGet t 0x1020 1 = sat 0xFFFFFFFF (odGet s 0x1020 1 + 1)) ∧
    Does (.ncResume f ser) s [.ctl] fun t => odGet t 0x1020 1 = sat 0xFFFFFFFF (odGet s 0x1020 1 + 1)) ∧
  (∀ f s, busHeard s f → (s.mgt.bus = .unassigned → s.mgt.listening = false → ∀ r, Does (.searchStart f r) s [.out, .regs, .ctl, .mgt, .alm, .tel] fun t => t.mgt.bus = .searching) ∧
    (s.mgt.bus = .assigned → Does (.searchStart f true) s [.out, .regs, .ctl, .mgt, .alm, .tel] (fun t => t.mgt.bus = .searching ∧ t.mgt.addr = 127) ∧ Does (.searchStart f false) s [.ctl] fun t => t.mgt = s.mgt) ∧
    (s.mgt.bus = .searching →
      (∀ n pfx, 1 ≤ n → n ≤ 64 → serial s / 2 ^ (64 - n) = pfx % 2 ^ 64 / 2 ^ (64 - n) → Does (.searchProbe f n pfx) s [.out, .ctl] fun t =>
        t.out = s.out ++ [.can { func := 3, dest := f.src, src := 127, seq := f.seq % 2048, data := [3, BitVec.ofNat 8 n, 0, 0, 0, 0, 0, 0] ++ leBytes 8 pfx }]) ∧
      (∀ n pfx, 1 ≤ n → n ≤ 64 → serial s / 2 ^ (64 - n) ≠ pfx % 2 ^ 64 / 2 ^ (64 - n) → Does (.searchProbe f n pfx) s [.ctl] fun t => t.out = s.out) ∧
      (∀ a, 1 ≤ a → a ≤ 126 → Does (.searchAssign f a (serial s)) s [.out, .regs, .ctl, .mgt, .alm, .tel] fun t => t.mgt = { s.mgt with tentative := some a } ∧ t.out.length = s.out.length + 1) ∧
      (∀ a, s.mgt.tentative = some a → Does (.searchConfirm f (serial s)) s [.out, .regs, .ctl, .mgt, .alm, .tel] fun t => busPlace t = (.assigned, a, f.src, none))) ∧
    (s.mgt.bus = .searching ∨ s.mgt.bus = .silent ∧ s.mgt.bySearch = true → Does (.searchEnd f) s [.out, .regs, .ctl, .mgt, .alm, .tel] fun t => busPlace t = (.unassigned, 127, 127, none)) ∧
    (s.mgt.bus = .unassigned → s.mgt.listening = true → Does (.searchHeard f) s [.out, .regs, .ctl, .mgt, .alm, .tel] fun t => t.mgt.bus = .silent ∧ t.mgt.bySearch = true ∧ t.mgt.listening = false) ∧
    (∀ ser, ser ≠ 0 → ser = (linkOf s 16).serial → Does (.canHeartbeatRx f ser) s [.fab, .ctl] fun t => t.fab = { s.fab with heardAt := now s, silent := false })) ∧
  (∀ f ser s, s.boot.mgmt = true → s.mgt.busOff = false → s.mgt.bus = .assigned → f.src = s.mgt.addr → Does (.canHeartbeatRx f ser) s [.out, .regs, .fab, .ctl, .mgt, .alm, .tel] (fun t => busPlace t = (.unassigned, 127, 127, none)) ∧
    Does .addressConflict s [.out, .regs, .ctl, .mgt, .alm, .tel] fun t => busPlace t = (.unassigned, 127, 127, none)) ∧
  (∀ s, s.boot.mgmt = false ∨ s.mgt.bus ≠ .assigned → Does .addressConflict s [] fun t => t = s) ∧
  (∀ s, s.boot.mgmt = true → s.mgt.bus = .unassigned → s.mgt.listening = true → s.mgt.busOff = false → Does .listenEnd s [.out, .ctl, .mgt] fun t => t.mgt = { s.mgt with listening := false } ∧
    ∃ fr, t.out = s.out ++ [.can fr] ∧ fr.func = 4 ∧ fr.data = leBytes 8 (serial s)) ∧
  (∀ s, s.mgt.bus ≠ .unassigned ∨ s.mgt.listening = false → Does .listenEnd s [] fun t => t = s) ∧
  (∀ a s, s.mgt.bus = .searching → s.mgt.tentative = some a → Does .confirmTimeout s [.out, .regs, .ctl, .mgt, .alm, .tel] fun t => t.mgt.tentative = none ∧ t.mgt.bus = .searching) ∧
  (∀ s, s.mgt.tentative = none → Does .confirmTimeout s [] fun t => t = s) ∧
  (∀ s, s.mgt.bus = .silent → s.mgt.bySearch = true → Does .silentSearchTimeout s [.out, .regs, .ctl, .mgt, .alm, .tel] fun t => t.mgt.bus = .unassigned ∧ t.mgt.addr = 127 ∧ t.mgt.listening = false) ∧
  (∀ s, s.mgt.bus ≠ .silent ∨ s.mgt.bySearch = false → Does .silentSearchTimeout s [] fun t => t = s) ∧
  (∀ s, s.boot.mgmt = true → s.mgt.bus ≠ .lone → s.mgt.bus ≠ .silent → Does .ackErrorLimit s [.out, .regs, .ctl, .mgt, .alm, .tel] fun t => t.mgt.bus = .lone ∧ t.mgt.prev = s.mgt.bus ∧
    odGet t 0x1020 6 = sat 0xFFFFFFFF (odGet s 0x1020 6 + 1)) ∧
  (∀ s, s.boot.mgmt = false ∨ s.mgt.bus = .lone ∨ s.mgt.bus = .silent → Does .ackErrorLimit s [] fun t => t = s) ∧
  (∀ s, s.mgt.bus = .lone → s.mgt.prev ≠ .lone → Does .loneFrameAcked s [.out, .regs, .ctl, .mgt, .alm, .tel] fun t => t.mgt.bus = s.mgt.prev ∧ t.mgt.loneQueue = [] ∧ ∀ fr ∈ s.mgt.loneQueue, Out.can fr ∈ t.out) ∧
  (∀ s, s.mgt.bus ≠ .lone → Does .loneFrameAcked s [] fun t => t = s)

/-- Frames, time and transfers on the management bus (R679, R856, R858, R868, R872, R873, R876, R879-R883, R887): heartbeats and time frames go out with their sequence numbers, the manager's
time sets the clock in FREERUN, errors are counted; requests for entries are answered, kept for repetition, gathered from segments or timed out.
Where the spec leaves a point open, the clause is the model's choice or reading: log entry 43. -/
def Obligations.BusTraffic : Prop :=
  (∀ f data s, busHeard s f → s.mgt.bus ≠ .silent → f.src ≠ 127 → f.src = s.mgt.manager → s.mer.state = .freerun → Does (.canTimeFrame f data) s [.ctl, .mer] fun t =>
    t.mer = { s.mer with stepTo := some (leAt data 0 8), tod := 2 }) ∧
  (∀ f data s, s.mer.state ≠ .freerun ∨ f.src ≠ s.mgt.manager → busHeard s f → Does (.canTimeFrame f data) s [.ctl] fun t => t.mer = s.mer) ∧
  (∀ s, s.boot.mgmt = true → s.mgt.bus = .assigned → s.mgt.busOff = false →
    (odGet s 0x1010 7 ≠ 0 → Does .timeFrameTx s [.out, .ctl, .mgt] fun t => t.mgt = { s.mgt with seqTime := (s.mgt.seqTime + 1) % 2048 } ∧
      ∃ fr, t.out = s.out ++ [.can fr] ∧ fr.func = 1 ∧ fr.seq = s.mgt.seqTime ∧ fr.data.take 8 = leBytes 8 s.mer.ns) ∧
    Does .heartbeatPeriod s [.out, .ctl, .mgt] (fun t => t.mgt = { s.mgt with seqBeat := (s.mgt.seqBeat + 1) % 2048 } ∧
      ∃ fr, t.out = s.out ++ [.can fr] ∧ fr.func = 7 ∧ fr.seq = s.mgt.seqBeat ∧ fr.data.take 8 = leBytes 8 (serial s))) ∧
  (∀ s, s.boot.mgmt = false ∨ odGet s 0x1010 7 = 0 → Does .timeFrameTx s [] fun t => t = s) ∧
  (∀ s, s.boot.mgmt = false ∨ s.mgt.bus = .lone ∨ s.mgt.bus = .silent → Does .heartbeatPeriod s [] fun t => t = s) ∧
  (∀ s, s.boot.mgmt = true → s.mgt.bus = .lone → s.mgt.busOff = false → Does .loneProbeTimer s [.out, .ctl, .mgt] fun t =>
    ∃ fr, t.out = s.out ++ [.can fr] ∧ fr.func = 7 ∧ fr.single = true) ∧
  (∀ s, s.mgt.bus ≠ .lone → Does .loneProbeTimer s [] fun t => t = s) ∧
  (∀ s, s.mgt.bus = .unassigned → s.mgt.joinFails = 3 → s.mgt.busOff = false → s.mgt.listening = false → Does .hotJoinBackoff s [.out, .ctl, .mgt] fun t =>
    t.mgt = { s.mgt with joinFails := 0 } ∧ ∃ fr, t.out = s.out ++ [.can fr] ∧ fr.func = 4) ∧
  (∀ s, s.mgt.joinFails ≠ 3 → Does .hotJoinBackoff s [] fun t => t = s) ∧
  (∀ s, s.boot.mgmt = true → Does .canIgnoredFrame s [.ctl] (fun t => odGet t 0x1020 4 = sat 0xFFFFFFFF (odGet s 0x1020 4 + 1) ∧ OdUnchanged [(0x1020, 4)] s t) ∧
    ∀ join off, Does (.canErrorFrame join off) s [.ctl, .mgt] fun t => odGet t 0x1020 4 = sat 0xFFFFFFFF (odGet s 0x1020 4 + 1) ∧ t.mgt.busOff = (s.mgt.busOff || off) ∧
      (join = true → s.mgt.bus = .unassigned → t.mgt.joinFails = sat 3 (s.mgt.joinFails + 1))) ∧
  (∀ s, s.boot.mgmt = false → Does .canIgnoredFrame s [] (fun t => t = s) ∧ ∀ join off, Does (.canErrorFrame join off) s [] fun t => t = s) ∧
  (∀ s, s.mgt.busOff = true → Does .canBusOffRecovery s [.ctl, .mgt] fun t => t.mgt = { s.mgt with busOff := false } ∧ odGet t 0x1020 5 = sat 0xFFFFFFFF (odGet s 0x1020 5 + 1)) ∧
  (∀ s, s.mgt.busOff = false → Does .canBusOffRecovery s [] fun t => t = s) ∧
  (∀ f data w s, busHeard s f → s.mgt.bus ≠ .silent → f.src ≠ 127 → bits f.seq 10 1 = 0 → bits f.seq 0 7 = 0 → w = xferSrc f (leAt data 0 8) → (∀ k ∈ s.mgt.kept, k.src ≠ f.src) →
    (bits w.hdr 37 27 = 0 → bits w.hdr 24 13 = 0 → bits w.hdr 0 16 = 0x6030 → 6 ≤ bits w.hdr 16 8 → bits w.hdr 16 8 ≤ 8 → s.boot.recovery = false →
      Does (.canOdRead f data) s [.out, .ctl, .mgt] fun t => odReplied t w 0 ∧ t.mgt.bus = s.mgt.bus ∧
        ∃ k ∈ t.mgt.kept, k.src = w.node ∧ k.txn = w.txn ∧ (k.frames.head?).map (fun r => leAt r.data 8 1) = some (odGet s 0x6030 (bits w.hdr 16 8) % 256)) ∧
    (bits w.hdr 37 27 ≠ 0 → Does (.canOdRead f data) s [.out, .ctl, .mgt] fun t => odReplied t w odREQUEST) ∧
    (bits w.hdr 37 27 = 0 → bits w.hdr 24 13 ≠ 0 → Does (.canOdRead f data) s [.out, .ctl, .mgt] fun t => odReplied t w odLENGTH)) ∧
  (∀ f data w s, busHeard s f → s.mgt.bus ≠ .silent → f.src ≠ 127 → bits f.seq 10 1 = 0 → bits f.seq 0 7 = 0 → w = xferSrc f (leAt data 0 8) → (∀ k ∈ s.mgt.kept, k.src ≠ f.src) →
    bits w.hdr 37 27 = 0 → ∀ x,
    (bits w.hdr 24 13 ≤ 56 → bits w.hdr 0 16 = 0x6030 → 4 ≤ bits w.hdr 16 8 → bits w.hdr 16 8 ≤ 8 → odCheck s w 0x6030 (bits w.hdr 16 8) ((padTo 56 (data.drop 8)).take (bits w.hdr 24 13)) = 0 →
      Does (.canOdWrite f data x) s [.out, .ctl, .mgt, .alm] fun t => odReplied t w 0 ∧ odGet t 0x6030 (bits w.hdr 16 8) = leNat ((padTo 56 (data.drop 8)).take (bits w.hdr 24 13))) ∧
    (56 < bits w.hdr 24 13 → bits w.hdr 24 13 ≤ 4096 → s.mgt.xfers.length < 16 → Does (.canOdWrite f data x) s [.ctl, .mgt] fun t =>
      ∃ y ∈ t.mgt.xfers, y.src = f.src ∧ y.txn = w.txn ∧ y.hdr = w.hdr ∧ y.next = 1 ∧ y.data = (padTo 56 (data.drop 8)).take 56)) ∧
  (∀ f data x y s, busHeard s f → s.mgt.bus ≠ .silent → f.src ≠ 127 → bits f.seq 10 1 = 0 → bits f.seq 0 7 ≠ 0 →
    s.mgt.xfers.find? (fun t => t.src == f.src && t.txn == bits f.seq 7 3) = some y →
    (bits f.seq 0 7 ≠ y.next → Does (.canOdWrite f data x) s [.out, .ctl, .mgt] fun t => odReplied t (xferSrc f y.hdr) odSEQUENCE ∧ ∀ z ∈ t.mgt.xfers, ¬(z.src = f.src ∧ z.txn = bits f.seq 7 3)) ∧
    (bits f.seq 0 7 = y.next → y.data.length + 64 < bits y.hdr 24 13 → Does (.canOdWrite f data x) s [.ctl, .mgt] fun t =>
      (t.mgt.xfers.find? fun t => t.src == f.src && t.txn == bits f.seq 7 3).map (fun z => (z.data, z.next)) = some (y.data ++ (padTo 64 data).take 64, y.next + 1))) ∧
  (∀ f data k s, busHeard s f → s.mgt.bus = .assigned → f.src ≠ 127 → bits f.seq 10 1 = 0 → bits f.seq 0 7 = 0 →
    s.mgt.kept.find? (fun k => k.src == f.src && k.txn == bits f.seq 7 3 && k.func == 6 && k.hdr == leAt data 0 8) = some k →
    Does (.canOdRead f data) s [.out, .ctl] fun t => t.out = s.out ++ k.frames.map Out.can) ∧
  (∀ src txn y s, s.mgt.xfers.find? (fun t => t.src == src && t.txn == txn) = some y → Does (.odSegmentTimeout src txn) s [.out, .ctl, .mgt] fun t =>
    odReplied t { master := .bus, node := src, txn := txn, hdr := y.hdr } odTIMEOUT ∧ ∀ z ∈ t.mgt.xfers, ¬(z.src = src ∧ z.txn = txn)) ∧
  (∀ src txn s, s.mgt.xfers = [] → Does (.odSegmentTimeout src txn) s [] fun t => t = s) ∧
  (∀ src txn s, Does (.odAnswerExpiry src txn) s [.mgt] fun t => (∀ k, k ∈ t.mgt.kept ↔ k ∈ s.mgt.kept ∧ ¬(k.src = src ∧ k.txn = txn)) ∧ t.mgt.xfers = s.mgt.xfers)

/-- The Almanac (R888, R890, R896-R902): a group write takes the changes that wait and makes the other bank active, or is abandoned, and answers the writes that it holds; the field side answers what it hears, writes field notes alone,
and is quiet when it was told to be.
Where the spec leaves a point open, the clause is the model's choice or reading: log entries 50, 51 and 84. -/
def Obligations.AlmanacCommands : Prop :=
  (∀ s, s.alm.waiting ≠ [] ∨ s.ctl.odStore ≠ [] → s.alm.locked = false → s.boot.mgmt = true → Does .almanacGroupStart s [.ctl, .alm] fun t =>
    t.ctl.odStore = s.ctl.odStore.map (fun o => (o.1, o.2.1, o.2.2.1, true)) ∧ OdUnchanged [] s t ∧ t.alm.locked = true ∧ t.alm.waiting = [] ∧ t.alm.active = s.alm.active ∧ t.alm.fixed = s.alm.fixed ∧ t.alm.bank0 = s.alm.bank0 ∧ t.alm.bank1 = s.alm.bank1) ∧
  (∀ s, s.alm.waiting = [] ∧ s.ctl.odStore = [] ∨ s.alm.locked = true ∨ s.boot.mgmt = false → Does .almanacGroupStart s [] fun t => t = s) ∧
  (∀ s, s.alm.locked = true → Does (.almanacGroupDone none) s [.out, .regs, .ctl, .mgt, .alm, .tel, .ras] (fun t => t.alm.active = 1 - s.alm.active ∧ t.alm.locked = false ∧ t.alm.group = [] ∧ t.alm.last = s.alm.group ∧
      (s.alm.active = 0 → t.alm.gen1 = (s.alm.gen0 + 1) % 2 ^ 32 ∧ t.alm.bank0 = s.alm.bank0) ∧ odGet t 0x8000 6 = sat 0xFFFFFFFF (odGet s 0x8000 6 + 1) ∧
      t.ctl.odStore = s.ctl.odStore.filter (fun o => !o.2.2.2) ∧ (∀ o, s.ctl.odStore = [o] → o.2.2.2 = true → odReplied t o.1 0)) ∧
    ∀ blk, Does (.almanacGroupDone (some blk)) s [.out, .regs, .ctl, .mgt, .alm, .tel, .ras] fun t => t.alm.active = s.alm.active ∧ t.alm.locked = false ∧ t.alm.group = [] ∧ t.alm.bank0 = s.alm.bank0 ∧ t.alm.bank1 = s.alm.bank1 ∧
      odGet t 0x8000 7 = sat 0xFFFFFFFF (odGet s 0x8000 7 + 1) ∧ (∀ o, s.ctl.odStore = [o] → o.2.2.2 = true → odReplied t o.1 odSTORAGE)) ∧
  (∀ r s, s.alm.locked = false → Does (.almanacGroupDone r) s [] fun t => t = s) ∧
  (∀ n mask s, nfcHears s .all = true → bits (nfcUid s) 0 n = bits mask 0 n → Does (.nfcInventory n mask) s [.out] fun t => t.out = s.out ++ [.nfc 0 (0 :: leBytes 8 (nfcUid s))]) ∧
  (∀ n mask s, nfcHears s .all = false ∨ bits (nfcUid s) 0 n ≠ bits mask 0 n → Does (.nfcInventory n mask) s [] fun t => t = s) ∧
  (∀ u s, s.alm.field = true → u = nfcUid s → Does (.nfcStayQuiet u) s [.alm] (fun t => t.alm = { s.alm with quiet := true, selected := false }) ∧
    Does (.nfcSelect u) s [.out, .alm] (fun t => t.alm = { s.alm with quiet := false, selected := true } ∧ t.out = s.out ++ [.nfc 0 []])) ∧
  (∀ u s, s.alm.field = false ∨ u ≠ nfcUid s → Does (.nfcStayQuiet u) s [] (fun t => t = s) ∧ Does (.nfcSelect u) s [.alm] (fun t => t.alm = { s.alm with selected := false })) ∧
  (∀ who s, nfcHears s who = true →
    Does (.nfcResetToReady who) s [.out, .alm] (fun t => t.alm = { s.alm with quiet := false, selected := false } ∧ t.out = s.out ++ [.nfc 0 []]) ∧
    Does (.nfcGetSystemInfo who false) s [.out] (fun t => t.out = s.out ++ [.nfc 0 (3 :: leBytes 8 (nfcUid s) ++ [0, 0])]) ∧
    Does (.nfcGetSystemInfo who true) s [.out] (fun t => t.out = s.out ++ [.nfc 0 (7 :: leBytes 8 (nfcUid s) ++ [0, 0] ++ leBytes 2 2047 ++ [31])]) ∧
    (∀ first n, first + n ≤ 2048 → Does (.nfcReadBlocks who first n) s [.out] fun t => t.out = s.out ++ [.nfc 0 (almBytes s (32 * first) (32 * n))]) ∧
    (∀ first n, 2048 < first + n → Does (.nfcReadBlocks who first n) s [.out] fun t => t.out = s.out ++ [.nfc 1 [0x10]]) ∧
    (∀ b data, 2016 ≤ b → b < 2048 → s.alm.locked = false → data.length = 32 → Does (.nfcWriteBlock who b data) s [.out, .regs, .ctl, .mgt, .alm, .tel] fun t =>
      almBytes t (32 * b) 32 = data ∧ t.alm.bank0 = s.alm.bank0 ∧ t.alm.bank1 = s.alm.bank1 ∧ t.out.getLast? = some (.nfc 0 []) ∧ odGet t 0x8000 4 = sat 0xFFFFFFFF (odGet s 0x8000 4 + 1)) ∧
    (∀ b data, b < 2016 ∨ s.alm.locked = true → b < 2048 → Does (.nfcWriteBlock who b data) s [.out, .regs, .ctl, .mgt, .alm, .tel] fun t =>
      t.alm.fixed = s.alm.fixed ∧ t.out.getLast? = some (.nfc 1 [0x12]) ∧ odGet t 0x8000 5 = sat 0xFFFFFFFF (odGet s 0x8000 5 + 1)) ∧
    Does (.nfcUnsupported who) s [.out] (fun t => t.out = s.out ++ [.nfc 1 [1]])) ∧
  (∀ who s, nfcHears s who = false → Does (.nfcResetToReady who) s [] (fun t => t = s) ∧ Does (.nfcGetSystemInfo who true) s [] (fun t => t = s) ∧
    Does (.nfcUnsupported who) s [] (fun t => t = s) ∧ (∀ first n, Does (.nfcReadBlocks who first n) s [] fun t => t = s) ∧ ∀ b data, Does (.nfcWriteBlock who b data) s [] fun t => t = s) ∧
  (∀ s, Does .nfcFieldOn s [.alm] (fun t => t.alm = { s.alm with field := true, quiet := false, selected := false }) ∧
    Does .nfcFieldOff s [.alm] fun t => t.alm = { s.alm with field := false, quiet := false, selected := false })

/-- Telemetry, energy and heartbeats (R769, R905, R909, R915, R920, R924-R929): a window ends with its number; a snapshot takes the next number and its time; an energy interval ends and a
measured one is counted; readings of the rails are shown, or a failed one marks the interval; a heartbeat forwards what its constellation counted.
Where the spec leaves a point open, the clause is the model's choice or reading: log entry 9. -/
def Obligations.TelemetryCommands : Prop :=
  (∀ s, Does .telWindowBoundary s [.out, .freeCount, .regs, .tel] fun t => t.tel.window = (s.tel.window + 1) % 2 ^ 48 ∧ t.tel.precise = List.replicate 4 []) ∧
  (∀ s, Does .acctSnapshot s [.out, .regs, .ctl, .mgt, .alm, .tel] (fun t => t.tel.snap = (s.tel.snap + 1) % 2 ^ 48 ∧ t.tel.snapAt = now s ∧ t.tel.allIvs = 0 ∧ t.tel.goodIvs = 0 ∧ odGet t 0x7000 2 = (s.tel.snap + 1) % 2 ^ 48 % 2 ^ 32) ∧
    Does .acctLatch s [.out, .regs, .ctl, .mgt, .alm, .tel] (fun t => t.tel.snap = (s.tel.snap + 1) % 2 ^ 48 ∧ t.tel.snapAt = now s ∧ t.tel.allIvs = 0 ∧ t.tel.goodIvs = 0 ∧ odGet t 0x7000 2 = (s.tel.snap + 1) % 2 ^ 48 % 2 ^ 32)) ∧
  (∀ s, Does .energyFit s [.ctl, .tel] fun t => t.tel.allIvs = s.tel.allIvs + 1 ∧ t.tel.acts = [] ∧ t.tel.badRead = false ∧ t.tel.railPj = List.replicate 10 0 ∧
    (s.tel.badRead = true → t.tel.fits = s.tel.fits ∧ t.tel.goodIvs = s.tel.goodIvs) ∧ (s.tel.badRead = false → t.tel.goodIvs = s.tel.goodIvs + 1) ∧
    (odGet s 0x9000 4 ≠ 0 → t.tel.coeffs = s.tel.coeffs)) ∧
  (∀ reads s, Does (.pmbusPoll reads) s [.out, .regs, .qtrs, .ctl, .mgt, .alm, .tel] fun t => (∀ r mv amp, r < 10 → reads.getD r none = some (mv, amp) → odGet t 0x6000 (r + 1) = mv % 65536 + amp % 65536 * 65536) ∧
    ((∃ r, r < 10 ∧ reads.getD r none = none) → s.tel.badRead = false → t.tel.badRead = true ∧ t.tel.unmeas = s.tel.unmeas + 1) ∧
    ((∀ r, r < 10 → reads.getD r none ≠ none) → t.tel.badRead = s.tel.badRead ∧ t.tel.unmeas = s.tel.unmeas)) ∧
  (∀ k l s, k < 160 → s.shaped = true → canIssue (getCon s k) = true → (getCon s k).logical = some l → Does (.unitHeartbeat k) s [.freeCount, .cons, .work, .tel] fun t =>
    getCon t k = { getCon s k with beat := true, beatAt := now s } ∧ ConsUnchanged [k] s t ∧ (∀ e ∈ t.tel.unsent, e.1 / 16 ≠ l) ∧ ∀ e ∈ t.work.unsent, uidCon (e.1 / 8) ≠ l) ∧
  (∀ k s, canIssue (getCon s k) = false → Does (.unitHeartbeat k) s [] fun t => t = s)

/-- Throttling, coolant and reference clocks (R974-R976, R980-R982, R997-R999): a hot tick lowers a quarter's cap and the tenth calm one raises it; flow and temperatures are shown and a condition begins and ends;
a lost clock takes down what it feeds and its return lets the ports train.
Where the spec leaves a point open, the clause is the model's choice or reading: log entry 52. -/
def Obligations.PlantCommands : Prop :=
  (∀ dies iods nears dimms q s, s.shaped = true → q < 4 →
    (98000 ≤ dies.getD q 0 → Does (.managementTick dies iods nears dimms) s [.out, .regs, .qtrs, .mem, .ctl, .mgt, .alm, .tel, .boot] fun t =>
      (getQtr t q).capStep = (if 24 < (getQtr s q).capStep then (getQtr s q).capStep - 1 else 24) ∧ (getQtr t q).calm = 0 ∧ (getQtr t q).throttled = true) ∧
    (dies.getD q 0 ≤ 95000 → (∀ i, i < 3 → nears.getD (3 * q + i) 255 % 256 ≤ 95) → currentHigh (getQtr s q) = false → Does (.managementTick dies iods nears dimms) s [.out, .regs, .qtrs, .mem, .ctl, .mgt, .alm, .tel, .boot] fun t =>
      ((getQtr s q).calm = 9 → (getQtr t q).capStep = Nat.min 60 ((getQtr s q).capStep + 1) ∧ (getQtr t q).calm = 0) ∧
      ((getQtr s q).calm ≠ 9 → (getQtr t q).capStep = (getQtr s q).capStep ∧ (getQtr t q).calm = (getQtr s q).calm + 1))) ∧
  (∀ n s, Does (.flowCompute n) s [.out, .regs, .ctl, .mgt, .alm, .tel, .boot] fun t => odGet t 0x6030 1 = sat 0xFFFFFFFF (n * 60000 / odGet s 0x6030 4) ∧ (n ≠ 0 → t.boot.edgeAt = s.mer.osc) ∧
    (sat 0xFFFFFFFF (n * 60000 / odGet s 0x6030 4) < odGet s 0x6030 5 → railsUp s = true → t.boot.coolant.contains 0 = true) ∧
    (odGet s 0x6030 5 ≤ sat 0xFFFFFFFF (n * 60000 / odGet s 0x6030 4) → t.boot.coolant = s.boot.coolant)) ∧
  (∀ i o s, Does (.coolantMeasure i o) s [.out, .regs, .ctl, .mgt, .alm, .tel, .boot] fun t => (-20000 ≤ i → i ≤ 100000 → odGet t 0x6030 2 = ofInt 32 i) ∧ (i < -20000 ∨ 100000 < i → odGet t 0x6030 2 = odGet s 0x6030 2) ∧
    (-20000 ≤ o → o ≤ 100000 → odGet t 0x6030 3 = ofInt 32 o) ∧ (i ≤ 45000 → t.boot.hotSince = none) ∧ (45000 < i → i ≤ 110000 → s.boot.hotSince = none → t.boot.hotSince = some s.mer.osc) ∧
    (i < -30000 ∨ 110000 < i → railsUp s = true → t.boot.coolant.contains 3 = true)) ∧
  (∀ c s, s.boot.coolant.contains c = true → Does (.coolantClear c) s [.out, .regs, .ctl, .mgt, .alm, .tel, .boot] fun t => t.boot = { s.boot with coolant := s.boot.coolant.filter (· != c) }) ∧
  (∀ c s, s.boot.coolant.contains c = false → Does (.coolantClear c) s [] fun t => t = s) ∧
  (∀ s, s.boot.mgmt = true → s.boot.lostRefs.contains 0 = false → Does .ref25Loss s [.out, .regs, .eph, .work, .mem, .serve, .fab, .ctl, .mgt, .alm, .tel, .mer, .boot] fun t => t.boot.lostRefs = s.boot.lostRefs ++ [0] ∧ t.boot.stopped = true ∧ t.eph.running = false ∧ t.mer.source = 0 ∧
    (s.mer.state = .acquiring ∨ s.mer.state = .locked → t.mer.state = .twilight)) ∧
  (∀ south s, s.shaped = true → s.boot.mgmt = true → s.boot.lostRefs.contains (if south then 2 else 1) = false → Does (.ref156Loss south) s [.out, .regs, .fab, .ctl, .mgt, .alm, .tel, .boot] fun t =>
    t.boot.lostRefs = s.boot.lostRefs ++ [if south then 2 else 1] ∧ ∀ n ∈ fedPorts south, (linkOf s n).state = 3 → (linkOf t n).state = 4 ∧ (linkOf t n).cause = 2) ∧
  (∀ south s, s.shaped = true → s.boot.mgmt = true → s.boot.lostRefs.contains (if south then 4 else 3) = false → Does (.ref100Loss south) s [.out, .regs, .px, .ctl, .mgt, .alm, .tel, .boot] fun t =>
    t.boot.lostRefs = s.boot.lostRefs ++ [if south then 4 else 3] ∧ ∀ i, i < 6 → (pxLink t (if south then 6 + i else i)).up = false) ∧
  (∀ s, s.boot.mgmt = false ∨ s.boot.lostRefs.contains 0 = true → Does .ref25Loss s [] fun t => t = s) ∧
  (∀ south s, s.boot.mgmt = false → Does (.ref156Loss south) s [] (fun t => t = s) ∧ Does (.ref100Loss south) s [] fun t => t = s) ∧
  (∀ c s, s.shaped = true → s.boot.lostRefs.contains c = true → Does (.refClockReturn c) s [.regs, .fab, .boot] fun t => t.boot = { s.boot with lostRefs := s.boot.lostRefs.filter (· != c) } ∧
    (c = 1 ∨ c = 2 → halted s = false → ∀ n ∈ fedPorts (c == 2), (linkOf s n).state = 4 → (linkOf t n).state = 1)) ∧
  (∀ c s, s.boot.lostRefs.contains c = false → Does (.refClockReturn c) s [] fun t => t = s)
end

