-- ==== Sys2Proof/Laws/Exec.lean ====
section
/-! SUPPORT. Which meaning a command has: one lemma per arm of `exec`, and what `step` does with the queue. -/

-- One declaration at a time: thousands of proofs in flight at once ask for more threads than fit in memory.
set_option Elab.async false

namespace Sys2Proof.Machine
open Sys2Proof

@[simp] theorem exec_coldReset (straps : Nat) (imgA imgB : Bundle) (s : State) : exec (.coldReset straps imgA imgB) s = execColdReset straps imgA imgB s := rfl
@[simp] theorem exec_pwrGoodLoss (s : State) : exec (.pwrGoodLoss) s = execPwrGoodLoss s := rfl
@[simp] theorem exec_warmResetAssert (s : State) : exec (.warmResetAssert) s = execWarmResetAssert s := rfl
@[simp] theorem exec_warmResetRelease (s : State) : exec (.warmResetRelease) s = execWarmResetRelease s := rfl
@[simp] theorem exec_vfFlr (ptn : Nat) (s : State) : exec (.vfFlr ptn) s = execVfFlr ptn s := rfl
@[simp] theorem exec_regWrite (v : View) (off : Nat) (value : Word) (s : State) : exec (.regWrite v off value) s = execRegWrite v off value s := rfl
@[simp] theorem exec_aliasWrite (v : View) (off : Nat) (value : Word) (s : State) : exec (.aliasWrite v off value) s = execAliasWrite v off value s := rfl
@[simp] theorem exec_pairLoWrite (v : View) (off : Nat) (value : Word) (s : State) : exec (.pairLoWrite v off value) s = execPairLoWrite v off value s := rfl
@[simp] theorem exec_pairHiWrite (v : View) (off : Nat) (value : Word) (s : State) : exec (.pairHiWrite v off value) s = execPairHiWrite v off value s := rfl
@[simp] theorem exec_badAccessWrite (v : View) (off : Nat) (s : State) : exec (.badAccessWrite v off) s = execBadAccessWrite v off s := rfl
@[simp] theorem exec_cycleBoundary (fails : List (Nat × Nat)) (s : State) : exec (.cycleBoundary fails) s = execCycleBoundary fails s := rfl
@[simp] theorem exec_wakeLeadReached (sec ent : Nat) (wraps : Bool) (s : State) : exec (.wakeLeadReached sec ent wraps) s = execWakeLeadReached sec ent wraps s := rfl
@[simp] theorem exec_wakeComplete (phys : Nat) (s : State) : exec (.wakeComplete phys) s = execWakeComplete phys s := rfl
@[simp] theorem exec_sleepDrainDone (phys : Nat) (s : State) : exec (.sleepDrainDone phys) s = execSleepDrainDone phys s := rfl
@[simp] theorem exec_sramInitDone (phys : Nat) (s : State) : exec (.sramInitDone phys) s = execSramInitDone phys s := rfl
@[simp] theorem exec_railSettled (quarter : Nat) (s : State) : exec (.railSettled quarter) s = execRailSettled quarter s := rfl
@[simp] theorem exec_computeSlotStart (sec ent : Nat) (fails : List Nat) (s : State) : exec (.computeSlotStart sec ent fails) s = execComputeSlotStart sec ent fails s := rfl
@[simp] theorem exec_entryEnd (sec ent : Nat) (s : State) : exec (.entryEnd sec ent) s = execEntryEnd sec ent s := rfl
@[simp] theorem exec_barrierComplete (sec ent : Nat) (s : State) : exec (.barrierComplete sec ent) s = execBarrierComplete sec ent s := rfl
@[simp] theorem exec_slotOverrun (sec ent : Nat) (s : State) : exec (.slotOverrun sec ent) s = execSlotOverrun sec ent s := rfl
@[simp] theorem exec_borrowEnd (sec ent : Nat) (finished : Bool) (s : State) : exec (.borrowEnd sec ent finished) s = execBorrowEnd sec ent finished s := rfl
@[simp] theorem exec_abortEnd (sec ent : Nat) (s : State) : exec (.abortEnd sec ent) s = execAbortEnd sec ent s := rfl
@[simp] theorem exec_contractExceeded (who : Slow) (cls measured : Nat) (s : State) : exec (.contractExceeded who cls measured) s = execContractExceeded who cls measured s := rfl
@[simp] theorem exec_moverEntryStart (sec ent : Nat) (s : State) : exec (.moverEntryStart sec ent) s = execMoverEntryStart sec ent s := rfl
@[simp] theorem exec_tierTransferDone (xfer : Nat) (s : State) : exec (.tierTransferDone xfer) s = execTierTransferDone xfer s := rfl
@[simp] theorem exec_transferEntryStart (sec ent : Nat) (s : State) : exec (.transferEntryStart sec ent) s = execTransferEntryStart sec ent s := rfl
@[simp] theorem exec_bridgeEntryStart (sec ent : Nat) (s : State) : exec (.bridgeEntryStart sec ent) s = execBridgeEntryStart sec ent s := rfl
@[simp] theorem exec_gateEntry (sec ent : Nat) (s : State) : exec (.gateEntry sec ent) s = execGateEntry sec ent s := rfl
@[simp] theorem exec_refreshWindow (sec ent : Nat) (s : State) : exec (.refreshWindow sec ent) s = execRefreshWindow sec ent s := rfl
@[simp] theorem exec_recalMemWindow (sec ent : Nat) (s : State) : exec (.recalMemWindow sec ent) s = execRecalMemWindow sec ent s := rfl
@[simp] theorem exec_recalSerdesWindow (sec ent : Nat) (s : State) : exec (.recalSerdesWindow sec ent) s = execRecalSerdesWindow sec ent s := rfl
@[simp] theorem exec_recalSerdesWindowEnd (sec ent : Nat) (s : State) : exec (.recalSerdesWindowEnd sec ent) s = execRecalSerdesWindowEnd sec ent s := rfl
@[simp] theorem exec_ephLoadStart (abort : Bool) (s : State) : exec (.ephLoadStart abort) s = execEphLoadStart abort s := rfl
@[simp] theorem exec_ephLoadAbort (s : State) : exec (.ephLoadAbort) s = execEphLoadAbort s := rfl
@[simp] theorem exec_ephLoadDone (translated completed : Bool) (image : List Byte) (models : List Model) (s : State) : exec (.ephLoadDone translated completed image models) s = execEphLoadDone translated completed image models s := rfl
@[simp] theorem exec_ephSwitchArm (s : State) : exec (.ephSwitchArm) s = execEphSwitchArm s := rfl
@[simp] theorem exec_ephSwitchDisarm (s : State) : exec (.ephSwitchDisarm) s = execEphSwitchDisarm s := rfl
@[simp] theorem exec_ringProdWrite (v : View) (ring : Nat) (value : Word) (s : State) : exec (.ringProdWrite v ring value) s = execRingProdWrite v ring value s := rfl
@[simp] theorem exec_ringConsWrite (v : View) (ring : Nat) (value : Word) (s : State) : exec (.ringConsWrite v ring value) s = execRingConsWrite v ring value s := rfl
@[simp] theorem exec_taskProgram (v : View) (desc : BitVec 512) (s : State) : exec (.taskProgram v desc) s = execTaskProgram v desc s := rfl
@[simp] theorem exec_taskStatus (v : View) (desc : BitVec 512) (s : State) : exec (.taskStatus v desc) s = execTaskStatus v desc s := rfl
@[simp] theorem exec_taskCancel (v : View) (desc : BitVec 512) (s : State) : exec (.taskCancel v desc) s = execTaskCancel v desc s := rfl
@[simp] theorem exec_taskCounters (v : View) (desc : BitVec 512) (s : State) : exec (.taskCounters v desc) s = execTaskCounters v desc s := rfl
@[simp] theorem exec_instrLdt (inst : Nat) (s : State) : exec (.instrLdt inst) s = execInstrLdt inst s := rfl
@[simp] theorem exec_ldtComplete (inst tile : Nat) (s : State) : exec (.ldtComplete inst tile) s = execLdtComplete inst tile s := rfl
@[simp] theorem exec_instrStt (inst : Nat) (s : State) : exec (.instrStt inst) s = execInstrStt inst s := rfl
@[simp] theorem exec_sttWritten (inst tile : Nat) (s : State) : exec (.sttWritten inst tile) s = execSttWritten inst tile s := rfl
@[simp] theorem exec_instrMma (inst : Nat) (s : State) : exec (.instrMma inst) s = execInstrMma inst s := rfl
@[simp] theorem exec_instrMmaq (inst : Nat) (s : State) : exec (.instrMmaq inst) s = execInstrMmaq inst s := rfl
@[simp] theorem exec_instrRope (inst : Nat) (s : State) : exec (.instrRope inst) s = execInstrRope inst s := rfl
@[simp] theorem exec_instrSmax (inst : Nat) (s : State) : exec (.instrSmax inst) s = execInstrSmax inst s := rfl
@[simp] theorem exec_instrPv (inst : Nat) (s : State) : exec (.instrPv inst) s = execInstrPv inst s := rfl
@[simp] theorem exec_instrMrg (inst : Nat) (s : State) : exec (.instrMrg inst) s = execInstrMrg inst s := rfl
@[simp] theorem exec_instrQnt (inst n : Nat) (s : State) : exec (.instrQnt inst n) s = execInstrQnt inst n s := rfl
@[simp] theorem exec_instrEnc (inst : Nat) (s : State) : exec (.instrEnc inst) s = execInstrEnc inst s := rfl
@[simp] theorem exec_instrRed (inst n : Nat) (s : State) : exec (.instrRed inst n) s = execInstrRed inst n s := rfl
@[simp] theorem exec_instrNorm (inst n : Nat) (s : State) : exec (.instrNorm inst n) s = execInstrNorm inst n s := rfl
@[simp] theorem exec_instrAct (inst n : Nat) (s : State) : exec (.instrAct inst n) s = execInstrAct inst n s := rfl
@[simp] theorem exec_instrSamp (inst : Nat) (s : State) : exec (.instrSamp inst) s = execInstrSamp inst s := rfl
@[simp] theorem exec_instrStop (inst : Nat) (s : State) : exec (.instrStop inst) s = execInstrStop inst s := rfl
@[simp] theorem exec_instrMov (inst n : Nat) (s : State) : exec (.instrMov inst n) s = execInstrMov inst n s := rfl
@[simp] theorem exec_instrSync (inst : Nat) (s : State) : exec (.instrSync inst) s = execInstrSync inst s := rfl
@[simp] theorem exec_instrWait (inst : Nat) (s : State) : exec (.instrWait inst) s = execInstrWait inst s := rfl
@[simp] theorem exec_instrYield (inst : Nat) (s : State) : exec (.instrYield inst) s = execInstrYield inst s := rfl
@[simp] theorem exec_instrEnd (inst : Nat) (s : State) : exec (.instrEnd inst) s = execInstrEnd inst s := rfl
@[simp] theorem exec_illegalInstruction (inst : Nat) (s : State) : exec (.illegalInstruction inst) s = execIllegalInstruction inst s := rfl
@[simp] theorem exec_checkpoint64 (inst : Nat) (s : State) : exec (.checkpoint64 inst) s = execCheckpoint64 inst s := rfl
@[simp] theorem exec_reqSubmit (v : View) (desc : List Byte) (s : State) : exec (.reqSubmit v desc) s = execReqSubmit v desc s := rfl
@[simp] theorem exec_reqContinue (v : View) (desc : List Byte) (s : State) : exec (.reqContinue v desc) s = execReqContinue v desc s := rfl
@[simp] theorem exec_reqCancel (v : View) (desc : List Byte) (s : State) : exec (.reqCancel v desc) s = execReqCancel v desc s := rfl
@[simp] theorem exec_reqStatus (v : View) (desc : List Byte) (s : State) : exec (.reqStatus v desc) s = execReqStatus v desc s := rfl
@[simp] theorem exec_reqToken (v : View) (desc : List Byte) (s : State) : exec (.reqToken v desc) s = execReqToken v desc s := rfl
@[simp] theorem exec_inputReadDone (handle : Nat) (ok : Bool) (input stops : List Byte) (s : State) : exec (.inputReadDone handle ok input stops) s = execInputReadDone handle ok input stops s := rfl
@[simp] theorem exec_writebackDone (xfer : Nat) (s : State) : exec (.writebackDone xfer) s = execWritebackDone xfer s := rfl
@[simp] theorem exec_openPageLoaded (xfer : Nat) (s : State) : exec (.openPageLoaded xfer) s = execOpenPageLoaded xfer s := rfl
@[simp] theorem exec_tableEpochEnd (ptn : Nat) (s : State) : exec (.tableEpochEnd ptn) s = execTableEpochEnd ptn s := rfl
@[simp] theorem exec_tableBuildDone (ptn model layer : Nat) (s : State) : exec (.tableBuildDone ptn model layer) s = execTableBuildDone ptn model layer s := rfl
@[simp] theorem exec_tableSupply (w : OdSrc) (ptn : Nat) (data : List Byte) (s : State) : exec (.tableSupply w ptn data) s = execTableSupply w ptn data s := rfl
@[simp] theorem exec_movePark (v : View) (desc : BitVec 512) (s : State) : exec (.movePark v desc) s = execMovePark v desc s := rfl
@[simp] theorem exec_movePromote (v : View) (desc : BitVec 512) (s : State) : exec (.movePromote v desc) s = execMovePromote v desc s := rfl
@[simp] theorem exec_moveEvict (v : View) (desc : BitVec 512) (s : State) : exec (.moveEvict v desc) s = execMoveEvict v desc s := rfl
@[simp] theorem exec_moveClone (v : View) (desc : BitVec 512) (s : State) : exec (.moveClone v desc) s = execMoveClone v desc s := rfl
@[simp] theorem exec_moveDrop (v : View) (desc : BitVec 512) (s : State) : exec (.moveDrop v desc) s = execMoveDrop v desc s := rfl
@[simp] theorem exec_movePlan (v : View) (desc : BitVec 512) (s : State) : exec (.movePlan v desc) s = execMovePlan v desc s := rfl
@[simp] theorem exec_msgInstall (dev : Nat) (m : StateMsg) (s : State) : exec (.msgInstall dev m) s = execMsgInstall dev m s := rfl
@[simp] theorem exec_msgPages (dev : Nat) (m : StateMsg) (s : State) : exec (.msgPages dev m) s = execMsgPages dev m s := rfl
@[simp] theorem exec_msgMoveAck (dev : Nat) (m : StateMsg) (s : State) : exec (.msgMoveAck dev m) s = execMsgMoveAck dev m s := rfl
@[simp] theorem exec_msgCommit (dev : Nat) (m : StateMsg) (s : State) : exec (.msgCommit dev m) s = execMsgCommit dev m s := rfl
@[simp] theorem exec_msgAbort (dev : Nat) (m : StateMsg) (s : State) : exec (.msgAbort dev m) s = execMsgAbort dev m s := rfl
@[simp] theorem exec_msgRef (dev : Nat) (m : StateMsg) (s : State) : exec (.msgRef dev m) s = execMsgRef dev m s := rfl
@[simp] theorem exec_msgRelease (dev : Nat) (m : StateMsg) (s : State) : exec (.msgRelease dev m) s = execMsgRelease dev m s := rfl
@[simp] theorem exec_msgFetch (dev : Nat) (m : StateMsg) (s : State) : exec (.msgFetch dev m) s = execMsgFetch dev m s := rfl
@[simp] theorem exec_msgQuery (dev : Nat) (m : StateMsg) (s : State) : exec (.msgQuery dev m) s = execMsgQuery dev m s := rfl
@[simp] theorem exec_msgPartial (dev : Nat) (m : StateMsg) (s : State) : exec (.msgPartial dev m) s = execMsgPartial dev m s := rfl
@[simp] theorem exec_installResend (handle : Nat) (s : State) : exec (.installResend handle) s = execInstallResend handle s := rfl
@[simp] theorem exec_installDoubt (handle : Nat) (s : State) : exec (.installDoubt handle) s = execInstallDoubt handle s := rfl
@[simp] theorem exec_heldAckRepeat (handle : Nat) (s : State) : exec (.heldAckRepeat handle) s = execHeldAckRepeat handle s := rfl
@[simp] theorem exec_commitRecordExpiry (dev handle : Nat) (s : State) : exec (.commitRecordExpiry dev handle) s = execCommitRecordExpiry dev handle s := rfl
@[simp] theorem exec_refResend (handle dev target : Nat) (s : State) : exec (.refResend handle dev target) s = execRefResend handle dev target s := rfl
@[simp] theorem exec_receptionExpiry (ptn dev handle epoch : Nat) (s : State) : exec (.receptionExpiry ptn dev handle epoch) s = execReceptionExpiry ptn dev handle epoch s := rfl
@[simp] theorem exec_pagesBusyRetry (handle : Nat) (s : State) : exec (.pagesBusyRetry handle) s = execPagesBusyRetry handle s := rfl
@[simp] theorem exec_queryResend (handle qid first log : Nat) (s : State) : exec (.queryResend handle qid first log) s = execQueryResend handle qid first log s := rfl
@[simp] theorem exec_evictionStart (ptn : Nat) (s : State) : exec (.evictionStart ptn) s = execEvictionStart ptn s := rfl
@[simp] theorem exec_heatAging (ptn : Nat) (s : State) : exec (.heatAging ptn) s = execHeatAging ptn s := rfl
@[simp] theorem exec_allocRequest (v : View) (s : State) : exec (.allocRequest v) s = execAllocRequest v s := rfl
@[simp] theorem exec_freeRequest (v : View) (s : State) : exec (.freeRequest v) s = execFreeRequest v s := rfl
@[simp] theorem exec_sramPatrol (key : Nat) (corrected bad : List Nat) (s : State) : exec (.sramPatrol key corrected bad) s = execSramPatrol key corrected bad s := rfl
@[simp] theorem exec_nearPatrol (tile : Nat) (s : State) : exec (.nearPatrol tile) s = execNearPatrol tile s := rfl
@[simp] theorem exec_selfRefreshEntry (resource : Nat) (s : State) : exec (.selfRefreshEntry resource) s = execSelfRefreshEntry resource s := rfl
@[simp] theorem exec_farChannelLost (chan : Nat) (s : State) : exec (.farChannelLost chan) s = execFarChannelLost chan s := rfl
@[simp] theorem exec_farScanDone (chan : Nat) (s : State) : exec (.farScanDone chan) s = execFarScanDone chan s := rfl
@[simp] theorem exec_stackLost (stack : Nat) (s : State) : exec (.stackLost stack) s = execStackLost stack s := rfl
@[simp] theorem exec_tableRecordWrite (v : View) (ptn : Nat) (s : State) : exec (.tableRecordWrite v ptn) s = execTableRecordWrite v ptn s := rfl
@[simp] theorem exec_msgLookup (dev : Nat) (m : StateMsg) (s : State) : exec (.msgLookup dev m) s = execMsgLookup dev m s := rfl
@[simp] theorem exec_msgPooled (dev : Nat) (m : StateMsg) (s : State) : exec (.msgPooled dev m) s = execMsgPooled dev m s := rfl
@[simp] theorem exec_msgUpdate (dev : Nat) (m : StateMsg) (s : State) : exec (.msgUpdate dev m) s = execMsgUpdate dev m s := rfl
@[simp] theorem exec_msgUpdateAck (dev : Nat) (m : StateMsg) (s : State) : exec (.msgUpdateAck dev m) s = execMsgUpdateAck dev m s := rfl
@[simp] theorem exec_lookupResend (task shard : Nat) (s : State) : exec (.lookupResend task shard) s = execLookupResend task shard s := rfl
@[simp] theorem exec_rowHeatAging (ptn : Nat) (s : State) : exec (.rowHeatAging ptn) s = execRowHeatAging ptn s := rfl
@[simp] theorem exec_portTrained (port lanes : Nat) (s : State) : exec (.portTrained port lanes) s = execPortTrained port lanes s := rfl
@[simp] theorem exec_attestComplete (port : Nat) (s : State) : exec (.attestComplete port) s = execAttestComplete port s := rfl
@[simp] theorem exec_trainTimeout (port : Nat) (s : State) : exec (.trainTimeout port) s = execTrainTimeout port s := rfl
@[simp] theorem exec_backoffExpiry (port : Nat) (s : State) : exec (.backoffExpiry port) s = execBackoffExpiry port s := rfl
@[simp] theorem exec_anSignalDetected (port : Nat) (s : State) : exec (.anSignalDetected port) s = execAnSignalDetected port s := rfl
@[simp] theorem exec_kqRetrain (port : Nat) (s : State) : exec (.kqRetrain port) s = execKqRetrain port s := rfl
@[simp] theorem exec_linkSpdmCell (port : Nat) (c : WireCell) (outcome : Nat) (reply : List Byte) (s : State) : exec (.linkSpdmCell port c outcome reply) s = execLinkSpdmCell port c outcome reply s := rfl
@[simp] theorem exec_linkHello (port : Nat) (c : WireCell) (s : State) : exec (.linkHello port c) s = execLinkHello port c s := rfl
@[simp] theorem exec_linkDownNotice (port : Nat) (c : WireCell) (s : State) : exec (.linkDownNotice port c) s = execLinkDownNotice port c s := rfl
@[simp] theorem exec_cellData (port : Nat) (c : WireCell) (s : State) : exec (.cellData port c) s = execCellData port c s := rfl
@[simp] theorem exec_cellAck (port : Nat) (c : WireCell) (s : State) : exec (.cellAck port c) s = execCellAck port c s := rfl
@[simp] theorem exec_cellNak (port : Nat) (c : WireCell) (s : State) : exec (.cellNak port c) s = execCellNak port c s := rfl
@[simp] theorem exec_cellIdle (port : Nat) (c : WireCell) (s : State) : exec (.cellIdle port c) s = execCellIdle port c s := rfl
@[simp] theorem exec_cellTime (port : Nat) (c : WireCell) (m : PtpMsg) (s : State) : exec (.cellTime port c m) s = execCellTime port c m s := rfl
@[simp] theorem exec_lossOfSignal (port : Nat) (lane : Bool) (s : State) : exec (.lossOfSignal port lane) s = execLossOfSignal port lane s := rfl
@[simp] theorem exec_delinTimeout (port : Nat) (s : State) : exec (.delinTimeout port) s = execDelinTimeout port s := rfl
@[simp] theorem exec_ackTimer (port : Nat) (s : State) : exec (.ackTimer port) s = execAckTimer port s := rfl
@[simp] theorem exec_nakRepeatTimer (port : Nat) (s : State) : exec (.nakRepeatTimer port) s = execNakRepeatTimer port s := rfl
@[simp] theorem exec_replayTimeout (port : Nat) (s : State) : exec (.replayTimeout port) s = execReplayTimeout port s := rfl
@[simp] theorem exec_pairUnpairedTimeout (s : State) : exec (.pairUnpairedTimeout) s = execPairUnpairedTimeout s := rfl
@[simp] theorem exec_mkaSakInstalled (port : Nat) (s : State) : exec (.mkaSakInstalled port) s = execMkaSakInstalled port s := rfl
@[simp] theorem exec_mkaPeerTimeout (port : Nat) (s : State) : exec (.mkaPeerTimeout port) s = execMkaPeerTimeout port s := rfl
@[simp] theorem exec_pfcFrame (port pause : Nat) (s : State) : exec (.pfcFrame port pause) s = execPfcFrame port pause s := rfl
@[simp] theorem exec_ethFrameRx (port : Nat) (f : EthFrame) (s : State) : exec (.ethFrameRx port f) s = execEthFrameRx port f s := rfl
@[simp] theorem exec_egressSend (port : Nat) (s : State) : exec (.egressSend port) s = execEgressSend port s := rfl
@[simp] theorem exec_memRead (m : MemMsg) (s : State) : exec (.memRead m) s = execMemRead m s := rfl
@[simp] theorem exec_memReadData (m : MemMsg) (s : State) : exec (.memReadData m) s = execMemReadData m s := rfl
@[simp] theorem exec_memWrite (m : MemMsg) (s : State) : exec (.memWrite m) s = execMemWrite m s := rfl
@[simp] theorem exec_memComplete (m : MemMsg) (s : State) : exec (.memComplete m) s = execMemComplete m s := rfl
@[simp] theorem exec_memMsgNak (m : MemMsg) (s : State) : exec (.memMsgNak m) s = execMemMsgNak m s := rfl
@[simp] theorem exec_memFetchAdd (m : MemMsg) (s : State) : exec (.memFetchAdd m) s = execMemFetchAdd m s := rfl
@[simp] theorem exec_memSwap (m : MemMsg) (s : State) : exec (.memSwap m) s = execMemSwap m s := rfl
@[simp] theorem exec_memCas (m : MemMsg) (s : State) : exec (.memCas m) s = execMemCas m s := rfl
@[simp] theorem exec_memAtomicData (m : MemMsg) (s : State) : exec (.memAtomicData m) s = execMemAtomicData m s := rfl
@[simp] theorem exec_memInvalidate (m : MemMsg) (s : State) : exec (.memInvalidate m) s = execMemInvalidate m s := rfl
@[simp] theorem exec_memInvAck (m : MemMsg) (s : State) : exec (.memInvAck m) s = execMemInvAck m s := rfl
@[simp] theorem exec_topologyMsg (dev : Nat) (ports : List (Nat × Nat)) (s : State) : exec (.topologyMsg dev ports) s = execTopologyMsg dev ports s := rfl
@[simp] theorem exec_topologyPeriod (s : State) : exec (.topologyPeriod) s = execTopologyPeriod s := rfl
@[simp] theorem exec_reassemblyTimeout (src msgId : Nat) (s : State) : exec (.reassemblyTimeout src msgId) s = execReassemblyTimeout src msgId s := rfl
@[simp] theorem exec_msgReplyTimeout (id : Nat) (s : State) : exec (.msgReplyTimeout id) s = execMsgReplyTimeout id s := rfl
@[simp] theorem exec_noContextTimeout (src msgId : Nat) (s : State) : exec (.noContextTimeout src msgId) s = execNoContextTimeout src msgId s := rfl
@[simp] theorem exec_streamContextExpiry (src stream : Nat) (s : State) : exec (.streamContextExpiry src stream) s = execStreamContextExpiry src stream s := rfl
@[simp] theorem exec_invalidateResend (id : Nat) (s : State) : exec (.invalidateResend id) s = execInvalidateResend id s := rfl
@[simp] theorem exec_routeTableLoad (w : OdSrc) (data : List Byte) (s : State) : exec (.routeTableLoad w data) s = execRouteTableLoad w data s := rfl
@[simp] theorem exec_windowTableWrite (w : OdSrc) (ptn : Nat) (data : List Byte) (s : State) : exec (.windowTableWrite w ptn data) s = execWindowTableWrite w ptn data s := rfl
@[simp] theorem exec_ptpMessageRx (port : Nat) (m : PtpMsg) (s : State) : exec (.ptpMessageRx port m) s = execPtpMessageRx port m s := rfl
@[simp] theorem exec_ptpSyncTx (port : Nat) (s : State) : exec (.ptpSyncTx port) s = execPtpSyncTx port s := rfl
@[simp] theorem exec_ppsInEdge (offset : Int) (spacing : Nat) (freq : Int) (s : State) : exec (.ppsInEdge offset spacing freq) s = execPpsInEdge offset spacing freq s := rfl
@[simp] theorem exec_sourceLost (source : Nat) (s : State) : exec (.sourceLost source) s = execSourceLost source s := rfl
@[simp] theorem exec_boundExceedsGuard (s : State) : exec (.boundExceedsGuard) s = execBoundExceedsGuard s := rfl
@[simp] theorem exec_slewDone (s : State) : exec (.slewDone) s = execSlewDone s := rfl
@[simp] theorem exec_ppsOutRise (s : State) : exec (.ppsOutRise) s = execPpsOutRise s := rfl
@[simp] theorem exec_ppsOutFall (s : State) : exec (.ppsOutFall) s = execPpsOutFall s := rfl
@[simp] theorem exec_merHostOfsWrite (value : Word) (s : State) : exec (.merHostOfsWrite value) s = execMerHostOfsWrite value s := rfl
@[simp] theorem exec_merHostFreqWrite (value : Word) (s : State) : exec (.merHostFreqWrite value) s = execMerHostFreqWrite value s := rfl
@[simp] theorem exec_merSetWrite (hi : Word) (s : State) : exec (.merSetWrite hi) s = execMerSetWrite hi s := rfl
@[simp] theorem exec_merNowRead (s : State) : exec (.merNowRead) s = execMerNowRead s := rfl
@[simp] theorem exec_hostServoSilence (s : State) : exec (.hostServoSilence) s = execHostServoSilence s := rfl
@[simp] theorem exec_bar2Read (ptn tag off len : Nat) (s : State) : exec (.bar2Read ptn tag off len) s = execBar2Read ptn tag off len s := rfl
@[simp] theorem exec_bar2Atomic (ptn tag off op : Nat) (data : List Byte) (s : State) : exec (.bar2Atomic ptn tag off op data) s = execBar2Atomic ptn tag off op data s := rfl
@[simp] theorem exec_bar2Write (ptn : Nat) (s : State) : exec (.bar2Write ptn) s = execBar2Write ptn s := rfl
@[simp] theorem exec_atsInvalidate (link : Nat) (s : State) : exec (.atsInvalidate link) s = execAtsInvalidate link s := rfl
@[simp] theorem exec_ideKmProgram (id link fn : Nat) (s : State) : exec (.ideKmProgram id link fn) s = execIdeKmProgram id link fn s := rfl
@[simp] theorem exec_ideIntegrityFail (id cause : Nat) (s : State) : exec (.ideIntegrityFail id cause) s = execIdeIntegrityFail id cause s := rfl
@[simp] theorem exec_tdispLockInterface (ptn : Nat) (s : State) : exec (.tdispLockInterface ptn) s = execTdispLockInterface ptn s := rfl
@[simp] theorem exec_slotPowerOff (link : Nat) (s : State) : exec (.slotPowerOff link) s = execSlotPowerOff link s := rfl
@[simp] theorem exec_releaseGraceExpiry (link : Nat) (s : State) : exec (.releaseGraceExpiry link) s = execReleaseGraceExpiry link s := rfl
@[simp] theorem exec_dlinkDown (link : Nat) (s : State) : exec (.dlinkDown link) s = execDlinkDown link s := rfl
@[simp] theorem exec_dlinkRequest (link : Nat) (target : DlinkTarget) (s : State) : exec (.dlinkRequest link target) s = execDlinkRequest link target s := rfl
@[simp] theorem exec_qpCreate (v : View) (s : State) : exec (.qpCreate v) s = execQpCreate v s := rfl
@[simp] theorem exec_qpModify (v : View) (s : State) : exec (.qpModify v) s = execQpModify v s := rfl
@[simp] theorem exec_qpDestroy (v : View) (s : State) : exec (.qpDestroy v) s = execQpDestroy v s := rfl
@[simp] theorem exec_qpQuery (v : View) (s : State) : exec (.qpQuery v) s = execQpQuery v s := rfl
@[simp] theorem exec_qpRegMr (v : View) (s : State) : exec (.qpRegMr v) s = execQpRegMr v s := rfl
@[simp] theorem exec_qpDeregMr (v : View) (s : State) : exec (.qpDeregMr v) s = execQpDeregMr v s := rfl
@[simp] theorem exec_roceRxWrite (port : Nat) (p : RocePkt) (s : State) : exec (.roceRxWrite port p) s = execRoceRxWrite port p s := rfl
@[simp] theorem exec_roceRxRead (port : Nat) (p : RocePkt) (s : State) : exec (.roceRxRead port p) s = execRoceRxRead port p s := rfl
@[simp] theorem exec_roceRxFetchAdd (port : Nat) (p : RocePkt) (s : State) : exec (.roceRxFetchAdd port p) s = execRoceRxFetchAdd port p s := rfl
@[simp] theorem exec_roceRxCompareSwap (port : Nat) (p : RocePkt) (s : State) : exec (.roceRxCompareSwap port p) s = execRoceRxCompareSwap port p s := rfl
@[simp] theorem exec_roceRxSend (port : Nat) (p : RocePkt) (s : State) : exec (.roceRxSend port p) s = execRoceRxSend port p s := rfl
@[simp] theorem exec_roceRxAck (port : Nat) (p : RocePkt) (s : State) : exec (.roceRxAck port p) s = execRoceRxAck port p s := rfl
@[simp] theorem exec_roceRxResponse (port : Nat) (p : RocePkt) (s : State) : exec (.roceRxResponse port p) s = execRoceRxResponse port p s := rfl
@[simp] theorem exec_roceRxNak (port : Nat) (p : RocePkt) (s : State) : exec (.roceRxNak port p) s = execRoceRxNak port p s := rfl
@[simp] theorem exec_roceRxCnp (port : Nat) (p : RocePkt) (s : State) : exec (.roceRxCnp port p) s = execRoceRxCnp port p s := rfl
@[simp] theorem exec_roceAckTimeout (ix : Nat) (s : State) : exec (.roceAckTimeout ix) s = execRoceAckTimeout ix s := rfl
@[simp] theorem exec_dcqcnRateTimer (ix : Nat) (s : State) : exec (.dcqcnRateTimer ix) s = execDcqcnRateTimer ix s := rfl
@[simp] theorem exec_qpContextLoaded (ix outcome : Nat) (s : State) : exec (.qpContextLoaded ix outcome) s = execQpContextLoaded ix outcome s := rfl
@[simp] theorem exec_cmReq (c : CmMsg) (s : State) : exec (.cmReq c) s = execCmReq c s := rfl
@[simp] theorem exec_cmRep (c : CmMsg) (s : State) : exec (.cmRep c) s = execCmRep c s := rfl
@[simp] theorem exec_cmRtu (c : CmMsg) (s : State) : exec (.cmRtu c) s = execCmRtu c s := rfl
@[simp] theorem exec_cmRej (c : CmMsg) (s : State) : exec (.cmRej c) s = execCmRej c s := rfl
@[simp] theorem exec_cmDreq (c : CmMsg) (s : State) : exec (.cmDreq c) s = execCmDreq c s := rfl
@[simp] theorem exec_cmDrep (c : CmMsg) (s : State) : exec (.cmDrep c) s = execCmDrep c s := rfl
@[simp] theorem exec_ptpTxRingEntry (desc : List Byte) (s : State) : exec (.ptpTxRingEntry desc) s = execPtpTxRingEntry desc s := rfl
@[simp] theorem exec_cmTxRingEntry (desc : List Byte) (s : State) : exec (.cmTxRingEntry desc) s = execCmTxRingEntry desc s := rfl
@[simp] theorem exec_ptnProvision (w : OdSrc) (ptn : Nat) (s : State) : exec (.ptnProvision w ptn) s = execPtnProvision w ptn s := rfl
@[simp] theorem exec_ptnActivate (w : OdSrc) (ptn : Nat) (s : State) : exec (.ptnActivate w ptn) s = execPtnActivate w ptn s := rfl
@[simp] theorem exec_ptnDrain (w : OdSrc) (ptn : Nat) (s : State) : exec (.ptnDrain w ptn) s = execPtnDrain w ptn s := rfl
@[simp] theorem exec_ptnFence (w : OdSrc) (ptn : Nat) (s : State) : exec (.ptnFence w ptn) s = execPtnFence w ptn s := rfl
@[simp] theorem exec_ptnUnfence (w : OdSrc) (ptn : Nat) (s : State) : exec (.ptnUnfence w ptn) s = execPtnUnfence w ptn s := rfl
@[simp] theorem exec_ptnRelease (w : OdSrc) (ptn : Nat) (s : State) : exec (.ptnRelease w ptn) s = execPtnRelease w ptn s := rfl
@[simp] theorem exec_scrubComplete (ptn : Nat) (s : State) : exec (.scrubComplete ptn) s = execScrubComplete ptn s := rfl
@[simp] theorem exec_constellationsWrite (w : OdSrc) (ptn : Nat) (data : List Byte) (s : State) : exec (.constellationsWrite w ptn data) s = execConstellationsWrite w ptn data s := rfl
@[simp] theorem exec_roleChallenge (w : OdSrc) (s : State) : exec (.roleChallenge w) s = execRoleChallenge w s := rfl
@[simp] theorem exec_roleResponse (w : OdSrc) (data : List Byte) (ok : Bool) (s : State) : exec (.roleResponse w data ok) s = execRoleResponse w data ok s := rfl
@[simp] theorem exec_roleDrop (w : OdSrc) (s : State) : exec (.roleDrop w) s = execRoleDrop w s := rfl
@[simp] theorem exec_roleIdleTimeout (m : Master) (s : State) : exec (.roleIdleTimeout m) s = execRoleIdleTimeout m s := rfl
@[simp] theorem exec_lockoutExpiry (m : Master) (s : State) : exec (.lockoutExpiry m) s = execLockoutExpiry m s := rfl
@[simp] theorem exec_installerKeyWrite (w : OdSrc) (data : List Byte) (s : State) : exec (.installerKeyWrite w data) s = execInstallerKeyWrite w data s := rfl
@[simp] theorem exec_auditEntryRead (w : OdSrc) (s : State) : exec (.auditEntryRead w) s = execAuditEntryRead w s := rfl
@[simp] theorem exec_ptnCmtStrobe (v : View) (ptn : Nat) (nextCycle : Bool) (s : State) : exec (.ptnCmtStrobe v ptn nextCycle) s = execPtnCmtStrobe v ptn nextCycle s := rfl
@[simp] theorem exec_ptnCrcPassEnd (ptn : Nat) (s : State) : exec (.ptnCrcPassEnd ptn) s = execPtnCrcPassEnd ptn s := rfl
@[simp] theorem exec_heartbeatTimeout (phys : Nat) (s : State) : exec (.heartbeatTimeout phys) s = execHeartbeatTimeout phys s := rfl
@[simp] theorem exec_unitInternalFault (phys detector : Nat) (s : State) : exec (.unitInternalFault phys detector) s = execUnitInternalFault phys detector s := rfl
@[simp] theorem exec_wakeTimeout (phys : Nat) (s : State) : exec (.wakeTimeout phys) s = execWakeTimeout phys s := rfl
@[simp] theorem exec_replayStart (spare : Nat) (s : State) : exec (.replayStart spare) s = execReplayStart spare s := rfl
@[simp] theorem exec_readmitWrite (w : OdSrc) (data : List Byte) (s : State) : exec (.readmitWrite w data) s = execReadmitWrite w data s := rfl
@[simp] theorem exec_readmitDone (phys result : Nat) (s : State) : exec (.readmitDone phys result) s = execReadmitDone phys result s := rfl
@[simp] theorem exec_spareTestDue (phys : Nat) (fails : List Nat) (s : State) : exec (.spareTestDue phys fails) s = execSpareTestDue phys fails s := rfl
@[simp] theorem exec_drillWrite (w : OdSrc) (data : List Byte) (s : State) : exec (.drillWrite w data) s = execDrillWrite w data s := rfl
@[simp] theorem exec_partnerSilent (s : State) : exec (.partnerSilent) s = execPartnerSilent s := rfl
@[simp] theorem exec_pairResyncDone (s : State) : exec (.pairResyncDone) s = execPairResyncDone s := rfl
@[simp] theorem exec_deviceFatalFault (cause uid : Nat) (s : State) : exec (.deviceFatalFault cause uid) s = execDeviceFatalFault cause uid s := rfl
@[simp] theorem exec_thermTrip (s : State) : exec (.thermTrip) s = execThermTrip s := rfl
@[simp] theorem exec_lockstepMismatch (imgA imgB : Bundle) (s : State) : exec (.lockstepMismatch imgA imgB) s = execLockstepMismatch imgA imgB s := rfl
@[simp] theorem exec_cmtStrobe (s : State) : exec (.cmtStrobe) s = execCmtStrobe s := rfl
@[simp] theorem exec_cmtDiscard (s : State) : exec (.cmtDiscard) s = execCmtDiscard s := rfl
@[simp] theorem exec_cfgCrcPassEnd (s : State) : exec (.cfgCrcPassEnd) s = execCfgCrcPassEnd s := rfl
@[simp] theorem exec_msixUnmask (fn vector : Nat) (s : State) : exec (.msixUnmask fn vector) s = execMsixUnmask fn vector s := rfl
@[simp] theorem exec_pfOdRead (s : State) : exec (.pfOdRead) s = execPfOdRead s := rfl
@[simp] theorem exec_pfOdWrite (x : Ext) (s : State) : exec (.pfOdWrite x) s = execPfOdWrite x s := rfl
@[simp] theorem exec_odEntryWrite (w : OdSrc) (idx sub : Nat) (data : List Byte) (s : State) : exec (.odEntryWrite w idx sub data) s = execOdEntryWrite w idx sub data s := rfl
@[simp] theorem exec_ncResetComm (f : BusRx) (serial : Nat) (s : State) : exec (.ncResetComm f serial) s = execNcResetComm f serial s := rfl
@[simp] theorem exec_ncSilence (f : BusRx) (serial : Nat) (s : State) : exec (.ncSilence f serial) s = execNcSilence f serial s := rfl
@[simp] theorem exec_ncResume (f : BusRx) (serial : Nat) (s : State) : exec (.ncResume f serial) s = execNcResume f serial s := rfl
@[simp] theorem exec_ncStoreAddr (f : BusRx) (serial : Nat) (s : State) : exec (.ncStoreAddr f serial) s = execNcStoreAddr f serial s := rfl
@[simp] theorem exec_ncWarmReset (f : BusRx) (serial : Nat) (s : State) : exec (.ncWarmReset f serial) s = execNcWarmReset f serial s := rfl
@[simp] theorem exec_canTimeFrame (f : BusRx) (data : List Byte) (s : State) : exec (.canTimeFrame f data) s = execCanTimeFrame f data s := rfl
@[simp] theorem exec_timeFrameTx (s : State) : exec (.timeFrameTx) s = execTimeFrameTx s := rfl
@[simp] theorem exec_searchStart (f : BusRx) (reassign : Bool) (s : State) : exec (.searchStart f reassign) s = execSearchStart f reassign s := rfl
@[simp] theorem exec_searchProbe (f : BusRx) (n pfx : Nat) (s : State) : exec (.searchProbe f n pfx) s = execSearchProbe f n pfx s := rfl
@[simp] theorem exec_searchAssign (f : BusRx) (addr serial : Nat) (s : State) : exec (.searchAssign f addr serial) s = execSearchAssign f addr serial s := rfl
@[simp] theorem exec_searchConfirm (f : BusRx) (serial : Nat) (s : State) : exec (.searchConfirm f serial) s = execSearchConfirm f serial s := rfl
@[simp] theorem exec_searchEnd (f : BusRx) (s : State) : exec (.searchEnd f) s = execSearchEnd f s := rfl
@[simp] theorem exec_searchHeard (f : BusRx) (s : State) : exec (.searchHeard f) s = execSearchHeard f s := rfl
@[simp] theorem exec_canHeartbeatRx (f : BusRx) (serial : Nat) (s : State) : exec (.canHeartbeatRx f serial) s = execCanHeartbeatRx f serial s := rfl
@[simp] theorem exec_addressConflict (s : State) : exec (.addressConflict) s = execAddressConflict s := rfl
@[simp] theorem exec_canOdWrite (f : BusRx) (data : List Byte) (x : Ext) (s : State) : exec (.canOdWrite f data x) s = execCanOdWrite f data x s := rfl
@[simp] theorem exec_canOdRead (f : BusRx) (data : List Byte) (s : State) : exec (.canOdRead f data) s = execCanOdRead f data s := rfl
@[simp] theorem exec_listenEnd (s : State) : exec (.listenEnd) s = execListenEnd s := rfl
@[simp] theorem exec_confirmTimeout (s : State) : exec (.confirmTimeout) s = execConfirmTimeout s := rfl
@[simp] theorem exec_silentSearchTimeout (s : State) : exec (.silentSearchTimeout) s = execSilentSearchTimeout s := rfl
@[simp] theorem exec_ackErrorLimit (s : State) : exec (.ackErrorLimit) s = execAckErrorLimit s := rfl
@[simp] theorem exec_loneFrameAcked (s : State) : exec (.loneFrameAcked) s = execLoneFrameAcked s := rfl
@[simp] theorem exec_loneProbeTimer (s : State) : exec (.loneProbeTimer) s = execLoneProbeTimer s := rfl
@[simp] theorem exec_heartbeatPeriod (s : State) : exec (.heartbeatPeriod) s = execHeartbeatPeriod s := rfl
@[simp] theorem exec_hotJoinBackoff (s : State) : exec (.hotJoinBackoff) s = execHotJoinBackoff s := rfl
@[simp] theorem exec_odSegmentTimeout (src txn : Nat) (s : State) : exec (.odSegmentTimeout src txn) s = execOdSegmentTimeout src txn s := rfl
@[simp] theorem exec_odAnswerExpiry (src txn : Nat) (s : State) : exec (.odAnswerExpiry src txn) s = execOdAnswerExpiry src txn s := rfl
@[simp] theorem exec_almanacGroupStart (s : State) : exec (.almanacGroupStart) s = execAlmanacGroupStart s := rfl
@[simp] theorem exec_almanacGroupDone (fail : Option Nat) (s : State) : exec (.almanacGroupDone fail) s = execAlmanacGroupDone fail s := rfl
@[simp] theorem exec_fieldNotesWrite (w : OdSrc) (data : List Byte) (ok : Bool) (s : State) : exec (.fieldNotesWrite w data ok) s = execFieldNotesWrite w data ok s := rfl
@[simp] theorem exec_clearFaultLog (w : OdSrc) (value : Nat) (s : State) : exec (.clearFaultLog w value) s = execClearFaultLog w value s := rfl
@[simp] theorem exec_nfcInventory (n mask : Nat) (s : State) : exec (.nfcInventory n mask) s = execNfcInventory n mask s := rfl
@[simp] theorem exec_nfcStayQuiet (uid : Nat) (s : State) : exec (.nfcStayQuiet uid) s = execNfcStayQuiet uid s := rfl
@[simp] theorem exec_nfcSelect (uid : Nat) (s : State) : exec (.nfcSelect uid) s = execNfcSelect uid s := rfl
@[simp] theorem exec_nfcResetToReady (who : NfcTo) (s : State) : exec (.nfcResetToReady who) s = execNfcResetToReady who s := rfl
@[simp] theorem exec_nfcGetSystemInfo (who : NfcTo) (extended : Bool) (s : State) : exec (.nfcGetSystemInfo who extended) s = execNfcGetSystemInfo who extended s := rfl
@[simp] theorem exec_nfcReadBlocks (who : NfcTo) (first count : Nat) (s : State) : exec (.nfcReadBlocks who first count) s = execNfcReadBlocks who first count s := rfl
@[simp] theorem exec_nfcWriteBlock (who : NfcTo) (block : Nat) (data : List Byte) (s : State) : exec (.nfcWriteBlock who block data) s = execNfcWriteBlock who block data s := rfl
@[simp] theorem exec_nfcUnsupported (who : NfcTo) (s : State) : exec (.nfcUnsupported who) s = execNfcUnsupported who s := rfl
@[simp] theorem exec_telWindowBoundary (s : State) : exec (.telWindowBoundary) s = execTelWindowBoundary s := rfl
@[simp] theorem exec_acctSnapshot (s : State) : exec (.acctSnapshot) s = execAcctSnapshot s := rfl
@[simp] theorem exec_acctLatch (s : State) : exec (.acctLatch) s = execAcctLatch s := rfl
@[simp] theorem exec_energyFit (s : State) : exec (.energyFit) s = execEnergyFit s := rfl
@[simp] theorem exec_pmbusPoll (reads : List (Option (Nat × Nat))) (s : State) : exec (.pmbusPoll reads) s = execPmbusPoll reads s := rfl
@[simp] theorem exec_coeffWrite (w : OdSrc) (data : List Byte) (s : State) : exec (.coeffWrite w data) s = execCoeffWrite w data s := rfl
@[simp] theorem exec_railInRange (rail mv : Nat) (s : State) : exec (.railInRange rail mv) s = execRailInRange rail mv s := rfl
@[simp] theorem exec_railWindowExpiry (rail : Nat) (s : State) : exec (.railWindowExpiry rail) s = execRailWindowExpiry rail s := rfl
@[simp] theorem exec_railFault (rail : Nat) (s : State) : exec (.railFault rail) s = execRailFault rail s := rfl
@[simp] theorem exec_dataReadyReached (train : Train) (s : State) : exec (.dataReadyReached train) s = execDataReadyReached train s := rfl
@[simp] theorem exec_startWatchdog (imgA imgB : Bundle) (s : State) : exec (.startWatchdog imgA imgB) s = execStartWatchdog imgA imgB s := rfl
@[simp] theorem exec_updateBegin (w : OdSrc) (s : State) : exec (.updateBegin w) s = execUpdateBegin w s := rfl
@[simp] theorem exec_updateData (w : OdSrc) (data : List Byte) (s : State) : exec (.updateData w data) s = execUpdateData w data s := rfl
@[simp] theorem exec_updateVerify (w : OdSrc) (x : Ext) (s : State) : exec (.updateVerify w x) s = execUpdateVerify w x s := rfl
@[simp] theorem exec_updateCancel (w : OdSrc) (s : State) : exec (.updateCancel w) s = execUpdateCancel w s := rfl
@[simp] theorem exec_nfStart (w : OdSrc) (s : State) : exec (.nfStart w) s = execNfStart w s := rfl
@[simp] theorem exec_nfAbort (w : OdSrc) (s : State) : exec (.nfAbort w) s = execNfAbort w s := rfl
@[simp] theorem exec_nfPowerDown (w : OdSrc) (s : State) : exec (.nfPowerDown w) s = execNfPowerDown w s := rfl
@[simp] theorem exec_nfSliceEnd (found : List Found) (s : State) : exec (.nfSliceEnd found) s = execNfSliceEnd found s := rfl
@[simp] theorem exec_nfHoldEnd (found : List Found) (s : State) : exec (.nfHoldEnd found) s = execNfHoldEnd found s := rfl
@[simp] theorem exec_managementTick (dies iods : List Int) (nears dimms : List Nat) (s : State) : exec (.managementTick dies iods nears dimms) s = execManagementTick dies iods nears dimms s := rfl
@[simp] theorem exec_flowCompute (pulses : Nat) (s : State) : exec (.flowCompute pulses) s = execFlowCompute pulses s := rfl
@[simp] theorem exec_coolantMeasure (inlet outlet : Int) (s : State) : exec (.coolantMeasure inlet outlet) s = execCoolantMeasure inlet outlet s := rfl
@[simp] theorem exec_coolantClear (cond : Nat) (s : State) : exec (.coolantClear cond) s = execCoolantClear cond s := rfl
@[simp] theorem exec_ref25Loss (s : State) : exec (.ref25Loss) s = execRef25Loss s := rfl
@[simp] theorem exec_ref156Loss (south : Bool) (s : State) : exec (.ref156Loss south) s = execRef156Loss south s := rfl
@[simp] theorem exec_ref100Loss (south : Bool) (s : State) : exec (.ref100Loss south) s = execRef100Loss south s := rfl
@[simp] theorem exec_rcRegisterRead (v : View) (off : Nat) (s : State) : exec (.rcRegisterRead v off) s = execRcRegisterRead v off s := rfl
@[simp] theorem exec_delineationCheck (port : Nat) (hcrcOk ccrcOk : Bool) (s : State) : exec (.delineationCheck port hcrcOk ccrcOk) s = execDelineationCheck port hcrcOk ccrcOk s := rfl
@[simp] theorem exec_routeTableComputed (table : List (Nat × Nat)) (s : State) : exec (.routeTableComputed table) s = execRouteTableComputed table s := rfl
@[simp] theorem exec_msgIdFreed (dev msgId : Nat) (s : State) : exec (.msgIdFreed dev msgId) s = execMsgIdFreed dev msgId s := rfl
@[simp] theorem exec_pcieLinkDown (link : Nat) (s : State) : exec (.pcieLinkDown link) s = execPcieLinkDown link s := rfl
@[simp] theorem exec_pcieLinkUp (link rate width : Nat) (s : State) : exec (.pcieLinkUp link rate width) s = execPcieLinkUp link rate width s := rfl
@[simp] theorem exec_refClockReturn (clock : Nat) (s : State) : exec (.refClockReturn clock) s = execRefClockReturn clock s := rfl
@[simp] theorem exec_tdispStartInterface (ptn : Nat) (s : State) : exec (.tdispStartInterface ptn) s = execTdispStartInterface ptn s := rfl
@[simp] theorem exec_tdispStopInterface (ptn : Nat) (s : State) : exec (.tdispStopInterface ptn) s = execTdispStopInterface ptn s := rfl
@[simp] theorem exec_canIgnoredFrame (s : State) : exec (.canIgnoredFrame) s = execCanIgnoredFrame s := rfl
@[simp] theorem exec_canErrorFrame (join off : Bool) (s : State) : exec (.canErrorFrame join off) s = execCanErrorFrame join off s := rfl
@[simp] theorem exec_canBusOffRecovery (s : State) : exec (.canBusOffRecovery) s = execCanBusOffRecovery s := rfl
@[simp] theorem exec_nfcFieldOn (s : State) : exec (.nfcFieldOn) s = execNfcFieldOn s := rfl
@[simp] theorem exec_nfcFieldOff (s : State) : exec (.nfcFieldOff) s = execNfcFieldOff s := rfl
@[simp] theorem exec_unitHeartbeat (phys : Nat) (s : State) : exec (.unitHeartbeat phys) s = execUnitHeartbeat phys s := rfl

theorem step_nil {s : State} (h : s.pending = []) : step s = .next (passTime s 4) := by
  simp [step, h]
theorem step_cons {s : State} {c : Instr} {rest : List Instr} (h : s.pending = c :: rest) :
    step s = exec c { s with pending := rest } := by
  simp [step, h]

end Sys2Proof.Machine
end

