-- ==== Sys2Proof/Laws/Sparse.lean ====
section
/-! SUPPORT. The laws of sparse maps: a read after a write, and that every operation keeps the canonical form. -/

-- One declaration at a time: thousands of proofs in flight at once ask for more threads than fit in memory.
set_option Elab.async false

namespace Sys2Proof.Machine

variable {α : Type}

theorem sget_sdel_same (d : Nat → α) (m : List (Nat × α)) (k : Nat) : sget d (sdel m k) k = d k := by
  induction m with
  | nil => rfl
  | cons e r ih => by_cases h : e.1 = k <;> simp [sdel, sget, h, ih]
theorem sget_sdel_other (d : Nat → α) (m : List (Nat × α)) {j k : Nat} (h : j ≠ k) : sget d (sdel m k) j = sget d m j := by
  induction m with
  | nil => rfl
  | cons e r ih =>
    by_cases a : e.1 = k
    · subst a; simp [sdel, sget, ih, Ne.symm h]
    · simp only [sdel, sget, a, if_false, ih]
theorem sget_sput_same (d : Nat → α) (m : List (Nat × α)) (k : Nat) (v : α) : sget d (sput m k v) k = v := by
  induction m with
  | nil => simp [sput, sget]
  | cons e r ih =>
    unfold sput
    split
    · simp [sget]
    · split
      · simp [sget]
      · rename_i h; simp [sget, Ne.symm h, ih]
theorem sget_sput_other (d : Nat → α) (m : List (Nat × α)) {j k : Nat} (v : α) (h : j ≠ k) : sget d (sput m k v) j = sget d m j := by
  induction m with
  | nil => simp [sput, sget, h.symm]
  | cons e r ih =>
    unfold sput
    split
    · simp [sget, h.symm]
    · split
      · rename_i a; subst a; simp [sget, h.symm]
      · simp [sget, ih]
/-- A read after a write of the same key gives the value written. -/
theorem sget_sset_same [DecidableEq α] (d : Nat → α) (m : List (Nat × α)) (k : Nat) (v : α) : sget d (sset d m k v) k = v := by
  unfold sset; split
  · rename_i h; rw [h]; exact sget_sdel_same d m k
  · exact sget_sput_same d m k v
/-- A write leaves every other key as it was. -/
theorem sget_sset_other [DecidableEq α] (d : Nat → α) (m : List (Nat × α)) {j k : Nat} (v : α) (h : j ≠ k) : sget d (sset d m k v) j = sget d m j := by
  unfold sset; split
  · exact sget_sdel_other d m h
  · exact sget_sput_other d m v h

theorem swfFrom_weaken [DecidableEq α] (d : Nat → α) (m : List (Nat × α)) {lo lo' : Option Nat} (h : swfFrom d lo m = true)
    (k : ∀ x, lo' = some x → ∃ y, lo = some y ∧ x ≤ y) : swfFrom d lo' m = true := by
  cases m with
  | nil => rfl
  | cons e r =>
    cases lo' with
    | none => simp [swfFrom] at h ⊢; cases lo <;> simp_all
    | some x =>
      obtain ⟨y, rfl, hy⟩ := k x rfl
      simp [swfFrom] at h ⊢; exact ⟨⟨by omega, h.1.2⟩, h.2⟩
theorem swfFrom_sdel [DecidableEq α] (d : Nat → α) (m : List (Nat × α)) (k : Nat) : ∀ lo, swfFrom d lo m = true → swfFrom d lo (sdel m k) = true := by
  induction m with
  | nil => intro lo h; exact h
  | cons e r ih =>
    intro lo h
    unfold sdel
    split
    · simp [swfFrom] at h
      refine swfFrom_weaken d _ (ih _ h.2) fun x hx => ⟨_, rfl, ?_⟩
      rw [hx] at h; simp at h; omega
    · simp [swfFrom] at h ⊢; exact ⟨h.1, ih _ h.2⟩
theorem swfFrom_sput [DecidableEq α] (d : Nat → α) (m : List (Nat × α)) (k : Nat) (v : α) (hv : v ≠ d k) :
    ∀ lo, (∀ x, lo = some x → x < k) → swfFrom d lo m = true → swfFrom d lo (sput m k v) = true := by
  induction m with
  | nil => intro lo hlo _; cases lo <;> simp [sput, swfFrom, hv] at hlo ⊢; exact hlo
  | cons e r ih =>
    intro lo hlo h
    unfold sput
    split
    · cases lo <;> simp_all [swfFrom]
    · split
      · cases lo <;> simp_all [swfFrom]
      · simp [swfFrom] at h ⊢
        exact ⟨h.1, ih _ (fun x hx => by cases hx; omega) h.2⟩
/-- A write keeps the canonical form. -/
theorem swf_sset [DecidableEq α] (d : Nat → α) (m : List (Nat × α)) (k : Nat) (v : α) (h : swf d m = true) : swf d (sset d m k v) = true := by
  unfold sset; split
  · exact swfFrom_sdel d m k _ h
  · exact swfFrom_sput d m k v (by assumption) _ (fun x hx => by cases hx) h
/-- Leaving out entries, or changing each to another value that is not its key's own, keeps the canonical form. -/
theorem swf_filterMap [DecidableEq α] (d : Nat → α) (f : Nat × α → Option (Nat × α)) (hf : ∀ e e', e.2 ≠ d e.1 → f e = some e' → e'.1 = e.1 ∧ e'.2 ≠ d e.1)
    (m : List (Nat × α)) : ∀ lo, swfFrom d lo m = true → swfFrom d lo (m.filterMap f) = true := by
  induction m with
  | nil => intro lo h; exact h
  | cons e r ih =>
    intro lo h
    simp [swfFrom] at h
    rw [List.filterMap_cons]
    split
    · refine swfFrom_weaken d _ (ih _ h.2) fun x hx => ⟨_, rfl, ?_⟩
      rw [hx] at h; simp at h; omega
    · rename_i e' he
      obtain ⟨a, b⟩ := hf e e' h.1.2 he
      have hr := ih _ h.2
      obtain ⟨k', v'⟩ := e'
      dsimp only at a b
      subst a
      simp [swfFrom, b, h.1.1, hr]
/-- Leaving out entries keeps the canonical form. -/
theorem swf_filter [DecidableEq α] (d : Nat → α) (f : Nat × α → Bool) (m : List (Nat × α)) (h : swf d m = true) : swf d (m.filter f) = true := by
  rw [← List.filterMap_eq_filter]
  refine swf_filterMap d _ (fun e e' ne he => ?_) m _ h
  simp [Option.guard] at he
  obtain ⟨-, rfl⟩ := he
  exact ⟨rfl, ne⟩

@[simp] theorem length_modAt {l : List α} {i : Nat} {f : α → α} : (modAt l i f).length = l.length := by
  induction l generalizing i with
  | nil => cases i <;> rfl
  | cons x r ih => cases i <;> simp [modAt, ih]
@[simp] theorem length_updIf {p : α → Bool} {f : α → α} {l : List α} : (updIf p f l).length = l.length := by simp [updIf]
/-- Changing the element at an index changes no other. -/
theorem getD_modAt_other {l : List α} {i j : Nat} {f : α → α} {d : α} (h : j ≠ i) : (modAt l i f).getD j d = l.getD j d := by
  induction l generalizing i j with
  | nil => cases i <;> rfl
  | cons x r ih =>
    cases i <;> cases j <;> simp_all [modAt]
theorem getD_modAt_same {l : List α} {i : Nat} {f : α → α} {d : α} (h : i < l.length) : (modAt l i f).getD i d = f (l.getD i d) := by
  induction l generalizing i with
  | nil => simp at h
  | cons x r ih =>
    cases i with
    | zero => rfl
    | succ i => simp_all [modAt]

end Sys2Proof.Machine
end

