-- ==== Sys2Proof/Laws/State.lean ====
section
/-! SUPPORT. One lemma per field per update of the state, true by unfolding, so that no proof
unfolds a record update. -/

-- One declaration at a time: thousands of proofs in flight at once ask for more threads than fit in memory.
set_option Elab.async false

namespace Sys2Proof.Machine
variable (s : State)

@[simp] theorem State.modRegs_pending (f : Regs → Regs) : (s.modRegs f).pending = s.pending := rfl
@[simp] theorem State.modRegs_out (f : Regs → Regs) : (s.modRegs f).out = s.out := rfl
@[simp] theorem State.modRegs_freeCount (f : Regs → Regs) : (s.modRegs f).freeCount = s.freeCount := rfl
@[simp] theorem State.modRegs_regs (f : Regs → Regs) : (s.modRegs f).regs = f s.regs := rfl
@[simp] theorem State.modRegs_cons (f : Regs → Regs) : (s.modRegs f).cons = s.cons := rfl
@[simp] theorem State.modRegs_qtrs (f : Regs → Regs) : (s.modRegs f).qtrs = s.qtrs := rfl
@[simp] theorem State.modRegs_eph (f : Regs → Regs) : (s.modRegs f).eph = s.eph := rfl
@[simp] theorem State.modRegs_work (f : Regs → Regs) : (s.modRegs f).work = s.work := rfl
@[simp] theorem State.modRegs_tabs (f : Regs → Regs) : (s.modRegs f).tabs = s.tabs := rfl
@[simp] theorem State.modRegs_mem (f : Regs → Regs) : (s.modRegs f).mem = s.mem := rfl
@[simp] theorem State.modRegs_serve (f : Regs → Regs) : (s.modRegs f).serve = s.serve := rfl
@[simp] theorem State.modRegs_fab (f : Regs → Regs) : (s.modRegs f).fab = s.fab := rfl
@[simp] theorem State.modRegs_px (f : Regs → Regs) : (s.modRegs f).px = s.px := rfl
@[simp] theorem State.modRegs_ptns (f : Regs → Regs) : (s.modRegs f).ptns = s.ptns := rfl
@[simp] theorem State.modRegs_ctl (f : Regs → Regs) : (s.modRegs f).ctl = s.ctl := rfl
@[simp] theorem State.modRegs_mgt (f : Regs → Regs) : (s.modRegs f).mgt = s.mgt := rfl
@[simp] theorem State.modRegs_alm (f : Regs → Regs) : (s.modRegs f).alm = s.alm := rfl
@[simp] theorem State.modRegs_tel (f : Regs → Regs) : (s.modRegs f).tel = s.tel := rfl
@[simp] theorem State.modRegs_mer (f : Regs → Regs) : (s.modRegs f).mer = s.mer := rfl
@[simp] theorem State.modRegs_ras (f : Regs → Regs) : (s.modRegs f).ras = s.ras := rfl
@[simp] theorem State.modRegs_boot (f : Regs → Regs) : (s.modRegs f).boot = s.boot := rfl
@[simp] theorem State.modCons_pending (f : List Con → List Con) : (s.modCons f).pending = s.pending := rfl
@[simp] theorem State.modCons_out (f : List Con → List Con) : (s.modCons f).out = s.out := rfl
@[simp] theorem State.modCons_freeCount (f : List Con → List Con) : (s.modCons f).freeCount = s.freeCount := rfl
@[simp] theorem State.modCons_regs (f : List Con → List Con) : (s.modCons f).regs = s.regs := rfl
@[simp] theorem State.modCons_cons (f : List Con → List Con) : (s.modCons f).cons = f s.cons := rfl
@[simp] theorem State.modCons_qtrs (f : List Con → List Con) : (s.modCons f).qtrs = s.qtrs := rfl
@[simp] theorem State.modCons_eph (f : List Con → List Con) : (s.modCons f).eph = s.eph := rfl
@[simp] theorem State.modCons_work (f : List Con → List Con) : (s.modCons f).work = s.work := rfl
@[simp] theorem State.modCons_tabs (f : List Con → List Con) : (s.modCons f).tabs = s.tabs := rfl
@[simp] theorem State.modCons_mem (f : List Con → List Con) : (s.modCons f).mem = s.mem := rfl
@[simp] theorem State.modCons_serve (f : List Con → List Con) : (s.modCons f).serve = s.serve := rfl
@[simp] theorem State.modCons_fab (f : List Con → List Con) : (s.modCons f).fab = s.fab := rfl
@[simp] theorem State.modCons_px (f : List Con → List Con) : (s.modCons f).px = s.px := rfl
@[simp] theorem State.modCons_ptns (f : List Con → List Con) : (s.modCons f).ptns = s.ptns := rfl
@[simp] theorem State.modCons_ctl (f : List Con → List Con) : (s.modCons f).ctl = s.ctl := rfl
@[simp] theorem State.modCons_mgt (f : List Con → List Con) : (s.modCons f).mgt = s.mgt := rfl
@[simp] theorem State.modCons_alm (f : List Con → List Con) : (s.modCons f).alm = s.alm := rfl
@[simp] theorem State.modCons_tel (f : List Con → List Con) : (s.modCons f).tel = s.tel := rfl
@[simp] theorem State.modCons_mer (f : List Con → List Con) : (s.modCons f).mer = s.mer := rfl
@[simp] theorem State.modCons_ras (f : List Con → List Con) : (s.modCons f).ras = s.ras := rfl
@[simp] theorem State.modCons_boot (f : List Con → List Con) : (s.modCons f).boot = s.boot := rfl
@[simp] theorem State.modQtrs_pending (f : List Quarter → List Quarter) : (s.modQtrs f).pending = s.pending := rfl
@[simp] theorem State.modQtrs_out (f : List Quarter → List Quarter) : (s.modQtrs f).out = s.out := rfl
@[simp] theorem State.modQtrs_freeCount (f : List Quarter → List Quarter) : (s.modQtrs f).freeCount = s.freeCount := rfl
@[simp] theorem State.modQtrs_regs (f : List Quarter → List Quarter) : (s.modQtrs f).regs = s.regs := rfl
@[simp] theorem State.modQtrs_cons (f : List Quarter → List Quarter) : (s.modQtrs f).cons = s.cons := rfl
@[simp] theorem State.modQtrs_qtrs (f : List Quarter → List Quarter) : (s.modQtrs f).qtrs = f s.qtrs := rfl
@[simp] theorem State.modQtrs_eph (f : List Quarter → List Quarter) : (s.modQtrs f).eph = s.eph := rfl
@[simp] theorem State.modQtrs_work (f : List Quarter → List Quarter) : (s.modQtrs f).work = s.work := rfl
@[simp] theorem State.modQtrs_tabs (f : List Quarter → List Quarter) : (s.modQtrs f).tabs = s.tabs := rfl
@[simp] theorem State.modQtrs_mem (f : List Quarter → List Quarter) : (s.modQtrs f).mem = s.mem := rfl
@[simp] theorem State.modQtrs_serve (f : List Quarter → List Quarter) : (s.modQtrs f).serve = s.serve := rfl
@[simp] theorem State.modQtrs_fab (f : List Quarter → List Quarter) : (s.modQtrs f).fab = s.fab := rfl
@[simp] theorem State.modQtrs_px (f : List Quarter → List Quarter) : (s.modQtrs f).px = s.px := rfl
@[simp] theorem State.modQtrs_ptns (f : List Quarter → List Quarter) : (s.modQtrs f).ptns = s.ptns := rfl
@[simp] theorem State.modQtrs_ctl (f : List Quarter → List Quarter) : (s.modQtrs f).ctl = s.ctl := rfl
@[simp] theorem State.modQtrs_mgt (f : List Quarter → List Quarter) : (s.modQtrs f).mgt = s.mgt := rfl
@[simp] theorem State.modQtrs_alm (f : List Quarter → List Quarter) : (s.modQtrs f).alm = s.alm := rfl
@[simp] theorem State.modQtrs_tel (f : List Quarter → List Quarter) : (s.modQtrs f).tel = s.tel := rfl
@[simp] theorem State.modQtrs_mer (f : List Quarter → List Quarter) : (s.modQtrs f).mer = s.mer := rfl
@[simp] theorem State.modQtrs_ras (f : List Quarter → List Quarter) : (s.modQtrs f).ras = s.ras := rfl
@[simp] theorem State.modQtrs_boot (f : List Quarter → List Quarter) : (s.modQtrs f).boot = s.boot := rfl
@[simp] theorem State.modEph_pending (f : Eph → Eph) : (s.modEph f).pending = s.pending := rfl
@[simp] theorem State.modEph_out (f : Eph → Eph) : (s.modEph f).out = s.out := rfl
@[simp] theorem State.modEph_freeCount (f : Eph → Eph) : (s.modEph f).freeCount = s.freeCount := rfl
@[simp] theorem State.modEph_regs (f : Eph → Eph) : (s.modEph f).regs = s.regs := rfl
@[simp] theorem State.modEph_cons (f : Eph → Eph) : (s.modEph f).cons = s.cons := rfl
@[simp] theorem State.modEph_qtrs (f : Eph → Eph) : (s.modEph f).qtrs = s.qtrs := rfl
@[simp] theorem State.modEph_eph (f : Eph → Eph) : (s.modEph f).eph = f s.eph := rfl
@[simp] theorem State.modEph_work (f : Eph → Eph) : (s.modEph f).work = s.work := rfl
@[simp] theorem State.modEph_tabs (f : Eph → Eph) : (s.modEph f).tabs = s.tabs := rfl
@[simp] theorem State.modEph_mem (f : Eph → Eph) : (s.modEph f).mem = s.mem := rfl
@[simp] theorem State.modEph_serve (f : Eph → Eph) : (s.modEph f).serve = s.serve := rfl
@[simp] theorem State.modEph_fab (f : Eph → Eph) : (s.modEph f).fab = s.fab := rfl
@[simp] theorem State.modEph_px (f : Eph → Eph) : (s.modEph f).px = s.px := rfl
@[simp] theorem State.modEph_ptns (f : Eph → Eph) : (s.modEph f).ptns = s.ptns := rfl
@[simp] theorem State.modEph_ctl (f : Eph → Eph) : (s.modEph f).ctl = s.ctl := rfl
@[simp] theorem State.modEph_mgt (f : Eph → Eph) : (s.modEph f).mgt = s.mgt := rfl
@[simp] theorem State.modEph_alm (f : Eph → Eph) : (s.modEph f).alm = s.alm := rfl
@[simp] theorem State.modEph_tel (f : Eph → Eph) : (s.modEph f).tel = s.tel := rfl
@[simp] theorem State.modEph_mer (f : Eph → Eph) : (s.modEph f).mer = s.mer := rfl
@[simp] theorem State.modEph_ras (f : Eph → Eph) : (s.modEph f).ras = s.ras := rfl
@[simp] theorem State.modEph_boot (f : Eph → Eph) : (s.modEph f).boot = s.boot := rfl
@[simp] theorem State.modWork_pending (f : Work → Work) : (s.modWork f).pending = s.pending := rfl
@[simp] theorem State.modWork_out (f : Work → Work) : (s.modWork f).out = s.out := rfl
@[simp] theorem State.modWork_freeCount (f : Work → Work) : (s.modWork f).freeCount = s.freeCount := rfl
@[simp] theorem State.modWork_regs (f : Work → Work) : (s.modWork f).regs = s.regs := rfl
@[simp] theorem State.modWork_cons (f : Work → Work) : (s.modWork f).cons = s.cons := rfl
@[simp] theorem State.modWork_qtrs (f : Work → Work) : (s.modWork f).qtrs = s.qtrs := rfl
@[simp] theorem State.modWork_eph (f : Work → Work) : (s.modWork f).eph = s.eph := rfl
@[simp] theorem State.modWork_work (f : Work → Work) : (s.modWork f).work = f s.work := rfl
@[simp] theorem State.modWork_tabs (f : Work → Work) : (s.modWork f).tabs = s.tabs := rfl
@[simp] theorem State.modWork_mem (f : Work → Work) : (s.modWork f).mem = s.mem := rfl
@[simp] theorem State.modWork_serve (f : Work → Work) : (s.modWork f).serve = s.serve := rfl
@[simp] theorem State.modWork_fab (f : Work → Work) : (s.modWork f).fab = s.fab := rfl
@[simp] theorem State.modWork_px (f : Work → Work) : (s.modWork f).px = s.px := rfl
@[simp] theorem State.modWork_ptns (f : Work → Work) : (s.modWork f).ptns = s.ptns := rfl
@[simp] theorem State.modWork_ctl (f : Work → Work) : (s.modWork f).ctl = s.ctl := rfl
@[simp] theorem State.modWork_mgt (f : Work → Work) : (s.modWork f).mgt = s.mgt := rfl
@[simp] theorem State.modWork_alm (f : Work → Work) : (s.modWork f).alm = s.alm := rfl
@[simp] theorem State.modWork_tel (f : Work → Work) : (s.modWork f).tel = s.tel := rfl
@[simp] theorem State.modWork_mer (f : Work → Work) : (s.modWork f).mer = s.mer := rfl
@[simp] theorem State.modWork_ras (f : Work → Work) : (s.modWork f).ras = s.ras := rfl
@[simp] theorem State.modWork_boot (f : Work → Work) : (s.modWork f).boot = s.boot := rfl
@[simp] theorem State.modTabs_pending (f : TabEng → TabEng) : (s.modTabs f).pending = s.pending := rfl
@[simp] theorem State.modTabs_out (f : TabEng → TabEng) : (s.modTabs f).out = s.out := rfl
@[simp] theorem State.modTabs_freeCount (f : TabEng → TabEng) : (s.modTabs f).freeCount = s.freeCount := rfl
@[simp] theorem State.modTabs_regs (f : TabEng → TabEng) : (s.modTabs f).regs = s.regs := rfl
@[simp] theorem State.modTabs_cons (f : TabEng → TabEng) : (s.modTabs f).cons = s.cons := rfl
@[simp] theorem State.modTabs_qtrs (f : TabEng → TabEng) : (s.modTabs f).qtrs = s.qtrs := rfl
@[simp] theorem State.modTabs_eph (f : TabEng → TabEng) : (s.modTabs f).eph = s.eph := rfl
@[simp] theorem State.modTabs_work (f : TabEng → TabEng) : (s.modTabs f).work = s.work := rfl
@[simp] theorem State.modTabs_tabs (f : TabEng → TabEng) : (s.modTabs f).tabs = f s.tabs := rfl
@[simp] theorem State.modTabs_mem (f : TabEng → TabEng) : (s.modTabs f).mem = s.mem := rfl
@[simp] theorem State.modTabs_serve (f : TabEng → TabEng) : (s.modTabs f).serve = s.serve := rfl
@[simp] theorem State.modTabs_fab (f : TabEng → TabEng) : (s.modTabs f).fab = s.fab := rfl
@[simp] theorem State.modTabs_px (f : TabEng → TabEng) : (s.modTabs f).px = s.px := rfl
@[simp] theorem State.modTabs_ptns (f : TabEng → TabEng) : (s.modTabs f).ptns = s.ptns := rfl
@[simp] theorem State.modTabs_ctl (f : TabEng → TabEng) : (s.modTabs f).ctl = s.ctl := rfl
@[simp] theorem State.modTabs_mgt (f : TabEng → TabEng) : (s.modTabs f).mgt = s.mgt := rfl
@[simp] theorem State.modTabs_alm (f : TabEng → TabEng) : (s.modTabs f).alm = s.alm := rfl
@[simp] theorem State.modTabs_tel (f : TabEng → TabEng) : (s.modTabs f).tel = s.tel := rfl
@[simp] theorem State.modTabs_mer (f : TabEng → TabEng) : (s.modTabs f).mer = s.mer := rfl
@[simp] theorem State.modTabs_ras (f : TabEng → TabEng) : (s.modTabs f).ras = s.ras := rfl
@[simp] theorem State.modTabs_boot (f : TabEng → TabEng) : (s.modTabs f).boot = s.boot := rfl
@[simp] theorem State.modMem_pending (f : Mem → Mem) : (s.modMem f).pending = s.pending := rfl
@[simp] theorem State.modMem_out (f : Mem → Mem) : (s.modMem f).out = s.out := rfl
@[simp] theorem State.modMem_freeCount (f : Mem → Mem) : (s.modMem f).freeCount = s.freeCount := rfl
@[simp] theorem State.modMem_regs (f : Mem → Mem) : (s.modMem f).regs = s.regs := rfl
@[simp] theorem State.modMem_cons (f : Mem → Mem) : (s.modMem f).cons = s.cons := rfl
@[simp] theorem State.modMem_qtrs (f : Mem → Mem) : (s.modMem f).qtrs = s.qtrs := rfl
@[simp] theorem State.modMem_eph (f : Mem → Mem) : (s.modMem f).eph = s.eph := rfl
@[simp] theorem State.modMem_work (f : Mem → Mem) : (s.modMem f).work = s.work := rfl
@[simp] theorem State.modMem_tabs (f : Mem → Mem) : (s.modMem f).tabs = s.tabs := rfl
@[simp] theorem State.modMem_mem (f : Mem → Mem) : (s.modMem f).mem = f s.mem := rfl
@[simp] theorem State.modMem_serve (f : Mem → Mem) : (s.modMem f).serve = s.serve := rfl
@[simp] theorem State.modMem_fab (f : Mem → Mem) : (s.modMem f).fab = s.fab := rfl
@[simp] theorem State.modMem_px (f : Mem → Mem) : (s.modMem f).px = s.px := rfl
@[simp] theorem State.modMem_ptns (f : Mem → Mem) : (s.modMem f).ptns = s.ptns := rfl
@[simp] theorem State.modMem_ctl (f : Mem → Mem) : (s.modMem f).ctl = s.ctl := rfl
@[simp] theorem State.modMem_mgt (f : Mem → Mem) : (s.modMem f).mgt = s.mgt := rfl
@[simp] theorem State.modMem_alm (f : Mem → Mem) : (s.modMem f).alm = s.alm := rfl
@[simp] theorem State.modMem_tel (f : Mem → Mem) : (s.modMem f).tel = s.tel := rfl
@[simp] theorem State.modMem_mer (f : Mem → Mem) : (s.modMem f).mer = s.mer := rfl
@[simp] theorem State.modMem_ras (f : Mem → Mem) : (s.modMem f).ras = s.ras := rfl
@[simp] theorem State.modMem_boot (f : Mem → Mem) : (s.modMem f).boot = s.boot := rfl
@[simp] theorem State.modServe_pending (f : Serve → Serve) : (s.modServe f).pending = s.pending := rfl
@[simp] theorem State.modServe_out (f : Serve → Serve) : (s.modServe f).out = s.out := rfl
@[simp] theorem State.modServe_freeCount (f : Serve → Serve) : (s.modServe f).freeCount = s.freeCount := rfl
@[simp] theorem State.modServe_regs (f : Serve → Serve) : (s.modServe f).regs = s.regs := rfl
@[simp] theorem State.modServe_cons (f : Serve → Serve) : (s.modServe f).cons = s.cons := rfl
@[simp] theorem State.modServe_qtrs (f : Serve → Serve) : (s.modServe f).qtrs = s.qtrs := rfl
@[simp] theorem State.modServe_eph (f : Serve → Serve) : (s.modServe f).eph = s.eph := rfl
@[simp] theorem State.modServe_work (f : Serve → Serve) : (s.modServe f).work = s.work := rfl
@[simp] theorem State.modServe_tabs (f : Serve → Serve) : (s.modServe f).tabs = s.tabs := rfl
@[simp] theorem State.modServe_mem (f : Serve → Serve) : (s.modServe f).mem = s.mem := rfl
@[simp] theorem State.modServe_serve (f : Serve → Serve) : (s.modServe f).serve = f s.serve := rfl
@[simp] theorem State.modServe_fab (f : Serve → Serve) : (s.modServe f).fab = s.fab := rfl
@[simp] theorem State.modServe_px (f : Serve → Serve) : (s.modServe f).px = s.px := rfl
@[simp] theorem State.modServe_ptns (f : Serve → Serve) : (s.modServe f).ptns = s.ptns := rfl
@[simp] theorem State.modServe_ctl (f : Serve → Serve) : (s.modServe f).ctl = s.ctl := rfl
@[simp] theorem State.modServe_mgt (f : Serve → Serve) : (s.modServe f).mgt = s.mgt := rfl
@[simp] theorem State.modServe_alm (f : Serve → Serve) : (s.modServe f).alm = s.alm := rfl
@[simp] theorem State.modServe_tel (f : Serve → Serve) : (s.modServe f).tel = s.tel := rfl
@[simp] theorem State.modServe_mer (f : Serve → Serve) : (s.modServe f).mer = s.mer := rfl
@[simp] theorem State.modServe_ras (f : Serve → Serve) : (s.modServe f).ras = s.ras := rfl
@[simp] theorem State.modServe_boot (f : Serve → Serve) : (s.modServe f).boot = s.boot := rfl
@[simp] theorem State.modFab_pending (f : Fab → Fab) : (s.modFab f).pending = s.pending := rfl
@[simp] theorem State.modFab_out (f : Fab → Fab) : (s.modFab f).out = s.out := rfl
@[simp] theorem State.modFab_freeCount (f : Fab → Fab) : (s.modFab f).freeCount = s.freeCount := rfl
@[simp] theorem State.modFab_regs (f : Fab → Fab) : (s.modFab f).regs = s.regs := rfl
@[simp] theorem State.modFab_cons (f : Fab → Fab) : (s.modFab f).cons = s.cons := rfl
@[simp] theorem State.modFab_qtrs (f : Fab → Fab) : (s.modFab f).qtrs = s.qtrs := rfl
@[simp] theorem State.modFab_eph (f : Fab → Fab) : (s.modFab f).eph = s.eph := rfl
@[simp] theorem State.modFab_work (f : Fab → Fab) : (s.modFab f).work = s.work := rfl
@[simp] theorem State.modFab_tabs (f : Fab → Fab) : (s.modFab f).tabs = s.tabs := rfl
@[simp] theorem State.modFab_mem (f : Fab → Fab) : (s.modFab f).mem = s.mem := rfl
@[simp] theorem State.modFab_serve (f : Fab → Fab) : (s.modFab f).serve = s.serve := rfl
@[simp] theorem State.modFab_fab (f : Fab → Fab) : (s.modFab f).fab = f s.fab := rfl
@[simp] theorem State.modFab_px (f : Fab → Fab) : (s.modFab f).px = s.px := rfl
@[simp] theorem State.modFab_ptns (f : Fab → Fab) : (s.modFab f).ptns = s.ptns := rfl
@[simp] theorem State.modFab_ctl (f : Fab → Fab) : (s.modFab f).ctl = s.ctl := rfl
@[simp] theorem State.modFab_mgt (f : Fab → Fab) : (s.modFab f).mgt = s.mgt := rfl
@[simp] theorem State.modFab_alm (f : Fab → Fab) : (s.modFab f).alm = s.alm := rfl
@[simp] theorem State.modFab_tel (f : Fab → Fab) : (s.modFab f).tel = s.tel := rfl
@[simp] theorem State.modFab_mer (f : Fab → Fab) : (s.modFab f).mer = s.mer := rfl
@[simp] theorem State.modFab_ras (f : Fab → Fab) : (s.modFab f).ras = s.ras := rfl
@[simp] theorem State.modFab_boot (f : Fab → Fab) : (s.modFab f).boot = s.boot := rfl
@[simp] theorem State.modPx_pending (f : Px → Px) : (s.modPx f).pending = s.pending := rfl
@[simp] theorem State.modPx_out (f : Px → Px) : (s.modPx f).out = s.out := rfl
@[simp] theorem State.modPx_freeCount (f : Px → Px) : (s.modPx f).freeCount = s.freeCount := rfl
@[simp] theorem State.modPx_regs (f : Px → Px) : (s.modPx f).regs = s.regs := rfl
@[simp] theorem State.modPx_cons (f : Px → Px) : (s.modPx f).cons = s.cons := rfl
@[simp] theorem State.modPx_qtrs (f : Px → Px) : (s.modPx f).qtrs = s.qtrs := rfl
@[simp] theorem State.modPx_eph (f : Px → Px) : (s.modPx f).eph = s.eph := rfl
@[simp] theorem State.modPx_work (f : Px → Px) : (s.modPx f).work = s.work := rfl
@[simp] theorem State.modPx_tabs (f : Px → Px) : (s.modPx f).tabs = s.tabs := rfl
@[simp] theorem State.modPx_mem (f : Px → Px) : (s.modPx f).mem = s.mem := rfl
@[simp] theorem State.modPx_serve (f : Px → Px) : (s.modPx f).serve = s.serve := rfl
@[simp] theorem State.modPx_fab (f : Px → Px) : (s.modPx f).fab = s.fab := rfl
@[simp] theorem State.modPx_px (f : Px → Px) : (s.modPx f).px = f s.px := rfl
@[simp] theorem State.modPx_ptns (f : Px → Px) : (s.modPx f).ptns = s.ptns := rfl
@[simp] theorem State.modPx_ctl (f : Px → Px) : (s.modPx f).ctl = s.ctl := rfl
@[simp] theorem State.modPx_mgt (f : Px → Px) : (s.modPx f).mgt = s.mgt := rfl
@[simp] theorem State.modPx_alm (f : Px → Px) : (s.modPx f).alm = s.alm := rfl
@[simp] theorem State.modPx_tel (f : Px → Px) : (s.modPx f).tel = s.tel := rfl
@[simp] theorem State.modPx_mer (f : Px → Px) : (s.modPx f).mer = s.mer := rfl
@[simp] theorem State.modPx_ras (f : Px → Px) : (s.modPx f).ras = s.ras := rfl
@[simp] theorem State.modPx_boot (f : Px → Px) : (s.modPx f).boot = s.boot := rfl
@[simp] theorem State.modPtns_pending (f : List Ptn → List Ptn) : (s.modPtns f).pending = s.pending := rfl
@[simp] theorem State.modPtns_out (f : List Ptn → List Ptn) : (s.modPtns f).out = s.out := rfl
@[simp] theorem State.modPtns_freeCount (f : List Ptn → List Ptn) : (s.modPtns f).freeCount = s.freeCount := rfl
@[simp] theorem State.modPtns_regs (f : List Ptn → List Ptn) : (s.modPtns f).regs = s.regs := rfl
@[simp] theorem State.modPtns_cons (f : List Ptn → List Ptn) : (s.modPtns f).cons = s.cons := rfl
@[simp] theorem State.modPtns_qtrs (f : List Ptn → List Ptn) : (s.modPtns f).qtrs = s.qtrs := rfl
@[simp] theorem State.modPtns_eph (f : List Ptn → List Ptn) : (s.modPtns f).eph = s.eph := rfl
@[simp] theorem State.modPtns_work (f : List Ptn → List Ptn) : (s.modPtns f).work = s.work := rfl
@[simp] theorem State.modPtns_tabs (f : List Ptn → List Ptn) : (s.modPtns f).tabs = s.tabs := rfl
@[simp] theorem State.modPtns_mem (f : List Ptn → List Ptn) : (s.modPtns f).mem = s.mem := rfl
@[simp] theorem State.modPtns_serve (f : List Ptn → List Ptn) : (s.modPtns f).serve = s.serve := rfl
@[simp] theorem State.modPtns_fab (f : List Ptn → List Ptn) : (s.modPtns f).fab = s.fab := rfl
@[simp] theorem State.modPtns_px (f : List Ptn → List Ptn) : (s.modPtns f).px = s.px := rfl
@[simp] theorem State.modPtns_ptns (f : List Ptn → List Ptn) : (s.modPtns f).ptns = f s.ptns := rfl
@[simp] theorem State.modPtns_ctl (f : List Ptn → List Ptn) : (s.modPtns f).ctl = s.ctl := rfl
@[simp] theorem State.modPtns_mgt (f : List Ptn → List Ptn) : (s.modPtns f).mgt = s.mgt := rfl
@[simp] theorem State.modPtns_alm (f : List Ptn → List Ptn) : (s.modPtns f).alm = s.alm := rfl
@[simp] theorem State.modPtns_tel (f : List Ptn → List Ptn) : (s.modPtns f).tel = s.tel := rfl
@[simp] theorem State.modPtns_mer (f : List Ptn → List Ptn) : (s.modPtns f).mer = s.mer := rfl
@[simp] theorem State.modPtns_ras (f : List Ptn → List Ptn) : (s.modPtns f).ras = s.ras := rfl
@[simp] theorem State.modPtns_boot (f : List Ptn → List Ptn) : (s.modPtns f).boot = s.boot := rfl
@[simp] theorem State.modCtl_pending (f : Ctl → Ctl) : (s.modCtl f).pending = s.pending := rfl
@[simp] theorem State.modCtl_out (f : Ctl → Ctl) : (s.modCtl f).out = s.out := rfl
@[simp] theorem State.modCtl_freeCount (f : Ctl → Ctl) : (s.modCtl f).freeCount = s.freeCount := rfl
@[simp] theorem State.modCtl_regs (f : Ctl → Ctl) : (s.modCtl f).regs = s.regs := rfl
@[simp] theorem State.modCtl_cons (f : Ctl → Ctl) : (s.modCtl f).cons = s.cons := rfl
@[simp] theorem State.modCtl_qtrs (f : Ctl → Ctl) : (s.modCtl f).qtrs = s.qtrs := rfl
@[simp] theorem State.modCtl_eph (f : Ctl → Ctl) : (s.modCtl f).eph = s.eph := rfl
@[simp] theorem State.modCtl_work (f : Ctl → Ctl) : (s.modCtl f).work = s.work := rfl
@[simp] theorem State.modCtl_tabs (f : Ctl → Ctl) : (s.modCtl f).tabs = s.tabs := rfl
@[simp] theorem State.modCtl_mem (f : Ctl → Ctl) : (s.modCtl f).mem = s.mem := rfl
@[simp] theorem State.modCtl_serve (f : Ctl → Ctl) : (s.modCtl f).serve = s.serve := rfl
@[simp] theorem State.modCtl_fab (f : Ctl → Ctl) : (s.modCtl f).fab = s.fab := rfl
@[simp] theorem State.modCtl_px (f : Ctl → Ctl) : (s.modCtl f).px = s.px := rfl
@[simp] theorem State.modCtl_ptns (f : Ctl → Ctl) : (s.modCtl f).ptns = s.ptns := rfl
@[simp] theorem State.modCtl_ctl (f : Ctl → Ctl) : (s.modCtl f).ctl = f s.ctl := rfl
@[simp] theorem State.modCtl_mgt (f : Ctl → Ctl) : (s.modCtl f).mgt = s.mgt := rfl
@[simp] theorem State.modCtl_alm (f : Ctl → Ctl) : (s.modCtl f).alm = s.alm := rfl
@[simp] theorem State.modCtl_tel (f : Ctl → Ctl) : (s.modCtl f).tel = s.tel := rfl
@[simp] theorem State.modCtl_mer (f : Ctl → Ctl) : (s.modCtl f).mer = s.mer := rfl
@[simp] theorem State.modCtl_ras (f : Ctl → Ctl) : (s.modCtl f).ras = s.ras := rfl
@[simp] theorem State.modCtl_boot (f : Ctl → Ctl) : (s.modCtl f).boot = s.boot := rfl
@[simp] theorem State.modMgt_pending (f : Mgt → Mgt) : (s.modMgt f).pending = s.pending := rfl
@[simp] theorem State.modMgt_out (f : Mgt → Mgt) : (s.modMgt f).out = s.out := rfl
@[simp] theorem State.modMgt_freeCount (f : Mgt → Mgt) : (s.modMgt f).freeCount = s.freeCount := rfl
@[simp] theorem State.modMgt_regs (f : Mgt → Mgt) : (s.modMgt f).regs = s.regs := rfl
@[simp] theorem State.modMgt_cons (f : Mgt → Mgt) : (s.modMgt f).cons = s.cons := rfl
@[simp] theorem State.modMgt_qtrs (f : Mgt → Mgt) : (s.modMgt f).qtrs = s.qtrs := rfl
@[simp] theorem State.modMgt_eph (f : Mgt → Mgt) : (s.modMgt f).eph = s.eph := rfl
@[simp] theorem State.modMgt_work (f : Mgt → Mgt) : (s.modMgt f).work = s.work := rfl
@[simp] theorem State.modMgt_tabs (f : Mgt → Mgt) : (s.modMgt f).tabs = s.tabs := rfl
@[simp] theorem State.modMgt_mem (f : Mgt → Mgt) : (s.modMgt f).mem = s.mem := rfl
@[simp] theorem State.modMgt_serve (f : Mgt → Mgt) : (s.modMgt f).serve = s.serve := rfl
@[simp] theorem State.modMgt_fab (f : Mgt → Mgt) : (s.modMgt f).fab = s.fab := rfl
@[simp] theorem State.modMgt_px (f : Mgt → Mgt) : (s.modMgt f).px = s.px := rfl
@[simp] theorem State.modMgt_ptns (f : Mgt → Mgt) : (s.modMgt f).ptns = s.ptns := rfl
@[simp] theorem State.modMgt_ctl (f : Mgt → Mgt) : (s.modMgt f).ctl = s.ctl := rfl
@[simp] theorem State.modMgt_mgt (f : Mgt → Mgt) : (s.modMgt f).mgt = f s.mgt := rfl
@[simp] theorem State.modMgt_alm (f : Mgt → Mgt) : (s.modMgt f).alm = s.alm := rfl
@[simp] theorem State.modMgt_tel (f : Mgt → Mgt) : (s.modMgt f).tel = s.tel := rfl
@[simp] theorem State.modMgt_mer (f : Mgt → Mgt) : (s.modMgt f).mer = s.mer := rfl
@[simp] theorem State.modMgt_ras (f : Mgt → Mgt) : (s.modMgt f).ras = s.ras := rfl
@[simp] theorem State.modMgt_boot (f : Mgt → Mgt) : (s.modMgt f).boot = s.boot := rfl
@[simp] theorem State.modAlm_pending (f : Alm → Alm) : (s.modAlm f).pending = s.pending := rfl
@[simp] theorem State.modAlm_out (f : Alm → Alm) : (s.modAlm f).out = s.out := rfl
@[simp] theorem State.modAlm_freeCount (f : Alm → Alm) : (s.modAlm f).freeCount = s.freeCount := rfl
@[simp] theorem State.modAlm_regs (f : Alm → Alm) : (s.modAlm f).regs = s.regs := rfl
@[simp] theorem State.modAlm_cons (f : Alm → Alm) : (s.modAlm f).cons = s.cons := rfl
@[simp] theorem State.modAlm_qtrs (f : Alm → Alm) : (s.modAlm f).qtrs = s.qtrs := rfl
@[simp] theorem State.modAlm_eph (f : Alm → Alm) : (s.modAlm f).eph = s.eph := rfl
@[simp] theorem State.modAlm_work (f : Alm → Alm) : (s.modAlm f).work = s.work := rfl
@[simp] theorem State.modAlm_tabs (f : Alm → Alm) : (s.modAlm f).tabs = s.tabs := rfl
@[simp] theorem State.modAlm_mem (f : Alm → Alm) : (s.modAlm f).mem = s.mem := rfl
@[simp] theorem State.modAlm_serve (f : Alm → Alm) : (s.modAlm f).serve = s.serve := rfl
@[simp] theorem State.modAlm_fab (f : Alm → Alm) : (s.modAlm f).fab = s.fab := rfl
@[simp] theorem State.modAlm_px (f : Alm → Alm) : (s.modAlm f).px = s.px := rfl
@[simp] theorem State.modAlm_ptns (f : Alm → Alm) : (s.modAlm f).ptns = s.ptns := rfl
@[simp] theorem State.modAlm_ctl (f : Alm → Alm) : (s.modAlm f).ctl = s.ctl := rfl
@[simp] theorem State.modAlm_mgt (f : Alm → Alm) : (s.modAlm f).mgt = s.mgt := rfl
@[simp] theorem State.modAlm_alm (f : Alm → Alm) : (s.modAlm f).alm = f s.alm := rfl
@[simp] theorem State.modAlm_tel (f : Alm → Alm) : (s.modAlm f).tel = s.tel := rfl
@[simp] theorem State.modAlm_mer (f : Alm → Alm) : (s.modAlm f).mer = s.mer := rfl
@[simp] theorem State.modAlm_ras (f : Alm → Alm) : (s.modAlm f).ras = s.ras := rfl
@[simp] theorem State.modAlm_boot (f : Alm → Alm) : (s.modAlm f).boot = s.boot := rfl
@[simp] theorem State.modTel_pending (f : Tel → Tel) : (s.modTel f).pending = s.pending := rfl
@[simp] theorem State.modTel_out (f : Tel → Tel) : (s.modTel f).out = s.out := rfl
@[simp] theorem State.modTel_freeCount (f : Tel → Tel) : (s.modTel f).freeCount = s.freeCount := rfl
@[simp] theorem State.modTel_regs (f : Tel → Tel) : (s.modTel f).regs = s.regs := rfl
@[simp] theorem State.modTel_cons (f : Tel → Tel) : (s.modTel f).cons = s.cons := rfl
@[simp] theorem State.modTel_qtrs (f : Tel → Tel) : (s.modTel f).qtrs = s.qtrs := rfl
@[simp] theorem State.modTel_eph (f : Tel → Tel) : (s.modTel f).eph = s.eph := rfl
@[simp] theorem State.modTel_work (f : Tel → Tel) : (s.modTel f).work = s.work := rfl
@[simp] theorem State.modTel_tabs (f : Tel → Tel) : (s.modTel f).tabs = s.tabs := rfl
@[simp] theorem State.modTel_mem (f : Tel → Tel) : (s.modTel f).mem = s.mem := rfl
@[simp] theorem State.modTel_serve (f : Tel → Tel) : (s.modTel f).serve = s.serve := rfl
@[simp] theorem State.modTel_fab (f : Tel → Tel) : (s.modTel f).fab = s.fab := rfl
@[simp] theorem State.modTel_px (f : Tel → Tel) : (s.modTel f).px = s.px := rfl
@[simp] theorem State.modTel_ptns (f : Tel → Tel) : (s.modTel f).ptns = s.ptns := rfl
@[simp] theorem State.modTel_ctl (f : Tel → Tel) : (s.modTel f).ctl = s.ctl := rfl
@[simp] theorem State.modTel_mgt (f : Tel → Tel) : (s.modTel f).mgt = s.mgt := rfl
@[simp] theorem State.modTel_alm (f : Tel → Tel) : (s.modTel f).alm = s.alm := rfl
@[simp] theorem State.modTel_tel (f : Tel → Tel) : (s.modTel f).tel = f s.tel := rfl
@[simp] theorem State.modTel_mer (f : Tel → Tel) : (s.modTel f).mer = s.mer := rfl
@[simp] theorem State.modTel_ras (f : Tel → Tel) : (s.modTel f).ras = s.ras := rfl
@[simp] theorem State.modTel_boot (f : Tel → Tel) : (s.modTel f).boot = s.boot := rfl
@[simp] theorem State.modMer_pending (f : Mer → Mer) : (s.modMer f).pending = s.pending := rfl
@[simp] theorem State.modMer_out (f : Mer → Mer) : (s.modMer f).out = s.out := rfl
@[simp] theorem State.modMer_freeCount (f : Mer → Mer) : (s.modMer f).freeCount = s.freeCount := rfl
@[simp] theorem State.modMer_regs (f : Mer → Mer) : (s.modMer f).regs = s.regs := rfl
@[simp] theorem State.modMer_cons (f : Mer → Mer) : (s.modMer f).cons = s.cons := rfl
@[simp] theorem State.modMer_qtrs (f : Mer → Mer) : (s.modMer f).qtrs = s.qtrs := rfl
@[simp] theorem State.modMer_eph (f : Mer → Mer) : (s.modMer f).eph = s.eph := rfl
@[simp] theorem State.modMer_work (f : Mer → Mer) : (s.modMer f).work = s.work := rfl
@[simp] theorem State.modMer_tabs (f : Mer → Mer) : (s.modMer f).tabs = s.tabs := rfl
@[simp] theorem State.modMer_mem (f : Mer → Mer) : (s.modMer f).mem = s.mem := rfl
@[simp] theorem State.modMer_serve (f : Mer → Mer) : (s.modMer f).serve = s.serve := rfl
@[simp] theorem State.modMer_fab (f : Mer → Mer) : (s.modMer f).fab = s.fab := rfl
@[simp] theorem State.modMer_px (f : Mer → Mer) : (s.modMer f).px = s.px := rfl
@[simp] theorem State.modMer_ptns (f : Mer → Mer) : (s.modMer f).ptns = s.ptns := rfl
@[simp] theorem State.modMer_ctl (f : Mer → Mer) : (s.modMer f).ctl = s.ctl := rfl
@[simp] theorem State.modMer_mgt (f : Mer → Mer) : (s.modMer f).mgt = s.mgt := rfl
@[simp] theorem State.modMer_alm (f : Mer → Mer) : (s.modMer f).alm = s.alm := rfl
@[simp] theorem State.modMer_tel (f : Mer → Mer) : (s.modMer f).tel = s.tel := rfl
@[simp] theorem State.modMer_mer (f : Mer → Mer) : (s.modMer f).mer = f s.mer := rfl
@[simp] theorem State.modMer_ras (f : Mer → Mer) : (s.modMer f).ras = s.ras := rfl
@[simp] theorem State.modMer_boot (f : Mer → Mer) : (s.modMer f).boot = s.boot := rfl
@[simp] theorem State.modRas_pending (f : Ras → Ras) : (s.modRas f).pending = s.pending := rfl
@[simp] theorem State.modRas_out (f : Ras → Ras) : (s.modRas f).out = s.out := rfl
@[simp] theorem State.modRas_freeCount (f : Ras → Ras) : (s.modRas f).freeCount = s.freeCount := rfl
@[simp] theorem State.modRas_regs (f : Ras → Ras) : (s.modRas f).regs = s.regs := rfl
@[simp] theorem State.modRas_cons (f : Ras → Ras) : (s.modRas f).cons = s.cons := rfl
@[simp] theorem State.modRas_qtrs (f : Ras → Ras) : (s.modRas f).qtrs = s.qtrs := rfl
@[simp] theorem State.modRas_eph (f : Ras → Ras) : (s.modRas f).eph = s.eph := rfl
@[simp] theorem State.modRas_work (f : Ras → Ras) : (s.modRas f).work = s.work := rfl
@[simp] theorem State.modRas_tabs (f : Ras → Ras) : (s.modRas f).tabs = s.tabs := rfl
@[simp] theorem State.modRas_mem (f : Ras → Ras) : (s.modRas f).mem = s.mem := rfl
@[simp] theorem State.modRas_serve (f : Ras → Ras) : (s.modRas f).serve = s.serve := rfl
@[simp] theorem State.modRas_fab (f : Ras → Ras) : (s.modRas f).fab = s.fab := rfl
@[simp] theorem State.modRas_px (f : Ras → Ras) : (s.modRas f).px = s.px := rfl
@[simp] theorem State.modRas_ptns (f : Ras → Ras) : (s.modRas f).ptns = s.ptns := rfl
@[simp] theorem State.modRas_ctl (f : Ras → Ras) : (s.modRas f).ctl = s.ctl := rfl
@[simp] theorem State.modRas_mgt (f : Ras → Ras) : (s.modRas f).mgt = s.mgt := rfl
@[simp] theorem State.modRas_alm (f : Ras → Ras) : (s.modRas f).alm = s.alm := rfl
@[simp] theorem State.modRas_tel (f : Ras → Ras) : (s.modRas f).tel = s.tel := rfl
@[simp] theorem State.modRas_mer (f : Ras → Ras) : (s.modRas f).mer = s.mer := rfl
@[simp] theorem State.modRas_ras (f : Ras → Ras) : (s.modRas f).ras = f s.ras := rfl
@[simp] theorem State.modRas_boot (f : Ras → Ras) : (s.modRas f).boot = s.boot := rfl
@[simp] theorem State.modBoot_pending (f : Boot → Boot) : (s.modBoot f).pending = s.pending := rfl
@[simp] theorem State.modBoot_out (f : Boot → Boot) : (s.modBoot f).out = s.out := rfl
@[simp] theorem State.modBoot_freeCount (f : Boot → Boot) : (s.modBoot f).freeCount = s.freeCount := rfl
@[simp] theorem State.modBoot_regs (f : Boot → Boot) : (s.modBoot f).regs = s.regs := rfl
@[simp] theorem State.modBoot_cons (f : Boot → Boot) : (s.modBoot f).cons = s.cons := rfl
@[simp] theorem State.modBoot_qtrs (f : Boot → Boot) : (s.modBoot f).qtrs = s.qtrs := rfl
@[simp] theorem State.modBoot_eph (f : Boot → Boot) : (s.modBoot f).eph = s.eph := rfl
@[simp] theorem State.modBoot_work (f : Boot → Boot) : (s.modBoot f).work = s.work := rfl
@[simp] theorem State.modBoot_tabs (f : Boot → Boot) : (s.modBoot f).tabs = s.tabs := rfl
@[simp] theorem State.modBoot_mem (f : Boot → Boot) : (s.modBoot f).mem = s.mem := rfl
@[simp] theorem State.modBoot_serve (f : Boot → Boot) : (s.modBoot f).serve = s.serve := rfl
@[simp] theorem State.modBoot_fab (f : Boot → Boot) : (s.modBoot f).fab = s.fab := rfl
@[simp] theorem State.modBoot_px (f : Boot → Boot) : (s.modBoot f).px = s.px := rfl
@[simp] theorem State.modBoot_ptns (f : Boot → Boot) : (s.modBoot f).ptns = s.ptns := rfl
@[simp] theorem State.modBoot_ctl (f : Boot → Boot) : (s.modBoot f).ctl = s.ctl := rfl
@[simp] theorem State.modBoot_mgt (f : Boot → Boot) : (s.modBoot f).mgt = s.mgt := rfl
@[simp] theorem State.modBoot_alm (f : Boot → Boot) : (s.modBoot f).alm = s.alm := rfl
@[simp] theorem State.modBoot_tel (f : Boot → Boot) : (s.modBoot f).tel = s.tel := rfl
@[simp] theorem State.modBoot_mer (f : Boot → Boot) : (s.modBoot f).mer = s.mer := rfl
@[simp] theorem State.modBoot_ras (f : Boot → Boot) : (s.modBoot f).ras = s.ras := rfl
@[simp] theorem State.modBoot_boot (f : Boot → Boot) : (s.modBoot f).boot = f s.boot := rfl
@[simp] theorem emit_pending (o : Out) : (emit s o).pending = s.pending := rfl
@[simp] theorem emit_out (o : Out) : (emit s o).out = s.out ++ [o] := rfl
@[simp] theorem emit_freeCount (o : Out) : (emit s o).freeCount = s.freeCount := rfl
@[simp] theorem emit_regs (o : Out) : (emit s o).regs = s.regs := rfl
@[simp] theorem emit_cons (o : Out) : (emit s o).cons = s.cons := rfl
@[simp] theorem emit_qtrs (o : Out) : (emit s o).qtrs = s.qtrs := rfl
@[simp] theorem emit_eph (o : Out) : (emit s o).eph = s.eph := rfl
@[simp] theorem emit_work (o : Out) : (emit s o).work = s.work := rfl
@[simp] theorem emit_tabs (o : Out) : (emit s o).tabs = s.tabs := rfl
@[simp] theorem emit_mem (o : Out) : (emit s o).mem = s.mem := rfl
@[simp] theorem emit_serve (o : Out) : (emit s o).serve = s.serve := rfl
@[simp] theorem emit_fab (o : Out) : (emit s o).fab = s.fab := rfl
@[simp] theorem emit_px (o : Out) : (emit s o).px = s.px := rfl
@[simp] theorem emit_ptns (o : Out) : (emit s o).ptns = s.ptns := rfl
@[simp] theorem emit_ctl (o : Out) : (emit s o).ctl = s.ctl := rfl
@[simp] theorem emit_mgt (o : Out) : (emit s o).mgt = s.mgt := rfl
@[simp] theorem emit_alm (o : Out) : (emit s o).alm = s.alm := rfl
@[simp] theorem emit_tel (o : Out) : (emit s o).tel = s.tel := rfl
@[simp] theorem emit_mer (o : Out) : (emit s o).mer = s.mer := rfl
@[simp] theorem emit_ras (o : Out) : (emit s o).ras = s.ras := rfl
@[simp] theorem emit_boot (o : Out) : (emit s o).boot = s.boot := rfl

end Sys2Proof.Machine
end

