-- ==== Sys2Proof/Laws/Ops.lean ====
section
/-! SUPPORT. Everything that the shared operations can do to the state as a whole: one lemma per operation says which parts it can
change and that it keeps the block's population and the canonical forms, in the form in which such facts chain; after them stands one
lemma per untouched part, for the simplifier. -/

-- One declaration at a time: thousands of proofs in flight at once ask for more threads than fit in memory.
set_option Elab.async false

namespace Sys2Proof.Machine

theorem ChangesOnly.refl (ps : List Part) (s : State) : ChangesOnly ps s s :=
  ⟨rfl, fun p _ => by cases p <;> rfl⟩
theorem ChangesOnly.trans {ps : List Part} {s t u : State} (h : ChangesOnly ps s t) (k : ChangesOnly ps t u) : ChangesOnly ps s u :=
  ⟨k.1.trans h.1, fun p hp => by
    have a := h.2 p hp; have b := k.2 p hp
    cases p <;> exact Eq.trans b a⟩
theorem ChangesOnly.mono {ps qs : List Part} {s t : State} (h : ChangesOnly ps s t) (k : ps ⊆ qs) : ChangesOnly qs s t :=
  ⟨h.1, fun p hp => h.2 p fun hq => hp (k hq)⟩
/-- A part that may not change has not. -/
theorem ChangesOnly.keeps {ps : List Part} {s t : State} (h : ChangesOnly ps s t) (p : Part) (hp : p ∉ ps) : agree s t p := h.2 p hp

theorem shaped_iff {s : State} : s.shaped = true ↔ s.cons.length = 160 ∧ s.qtrs.length = 4 ∧ s.ptns.length = 32 ∧
    (s.mem.nears.length = 12 ∧ s.mem.chans.length = 16) ∧ s.fab.links.length = 17 ∧ (s.px.links.length = 12 ∧ s.px.comps.length = 32) ∧
    s.tel.precise.length = 4 := by
  simp [State.shaped, and_assoc]

/-- From `s` to `t` only the parts listed have changed, the queue has not, and the population and the canonical forms are kept. -/
structure Within (ps : List Part) (s t : State) : Prop where
  only : ChangesOnly ps s t
  shape : s.shaped = true → t.shaped = true
  store : swf resetValue s.regs.store = true → swf resetValue t.regs.store = true
  dict : swf odDefault s.ctl.od = true → swf odDefault t.ctl.od = true
  sram : Memory.wf s.work.sram = true → Memory.wf t.work.sram = true
  bytes : Memory.wf s.mem.bytes = true → Memory.wf t.mem.bytes = true
/-- Writing bytes keeps the canonical form of a memory. -/
theorem wf_putBytes (bs : List Byte) : ∀ (m : List (Nat × Byte)) (k : Nat), Memory.wf m = true → Memory.wf (sramPutBytes m k bs) = true := by
  induction bs with
  | nil => exact fun _ _ h => h
  | cons b r ih => exact fun m k h => ih _ _ (swf_sset _ _ _ _ h)
theorem wf_filter (f : Nat × Byte → Bool) (m : List (Nat × Byte)) (h : Memory.wf m = true) : Memory.wf (m.filter f) = true := swf_filter _ _ _ h
theorem Within.refl (ps : List Part) (s : State) : Within ps s s := ⟨.refl ps s, id, id, id, id, id⟩
theorem Within.trans {ps : List Part} {s t u : State} (h : Within ps s t) (k : Within ps t u) : Within ps s u :=
  ⟨h.only.trans k.only, fun a => k.shape (h.shape a), fun a => k.store (h.store a), fun a => k.dict (h.dict a), fun a => k.sram (h.sram a), fun a => k.bytes (h.bytes a)⟩
theorem Within.mono {ps qs : List Part} {s t : State} (h : Within ps s t) (k : ps ⊆ qs) : Within qs s t := ⟨h.only.mono k, h.shape, h.store, h.dict, h.sram, h.bytes⟩
theorem Within.canonical {ps : List Part} {s t : State} (h : Within ps s t) (k : s.canonical = true) : t.canonical = true := by
  simp only [State.canonical, Bool.and_eq_true] at k ⊢
  exact ⟨⟨⟨h.store k.1.1.1, h.dict k.1.1.2⟩, h.sram k.1.2⟩, h.bytes k.2⟩
theorem subset_of {qs ps : List Part} (h : qs ⊆ ps) (p : Part) (hp : p ∈ qs) : [p] ⊆ ps := fun x hx => by
  rw [List.mem_singleton.mp hx]; exact h hp
theorem subset_two {p q : Part} {ps : List Part} (h : [p] ⊆ ps) (k : [q] ⊆ ps) : [p, q] ⊆ ps := fun x hx => by
  rcases List.mem_cons.mp hx with rfl | hx
  · exact h (List.mem_singleton.mpr rfl)
  · exact k hx
theorem subset_sub {qs rs ps : List Part} (h : qs ⊆ ps) (k : rs ⊆ qs) : rs ⊆ ps := fun _ hx => h (k hx)

/-- A fold whose every step keeps a quantity keeps it. -/
theorem foldl_keep {α β : Type} (g : State → β) (f : State → α → State) (h : ∀ s a, g (f s a) = g s) (l : List α) (s : State) :
    g (l.foldl f s) = g s := by
  induction l generalizing s with
  | nil => rfl
  | cons a l ih => simp [List.foldl_cons, ih, h]
theorem foldl_only {α : Type} {ps : List Part} {s u : State} {f : State → α → State} {l : List α} (h : Within ps s u)
    (k : ∀ v a, Within ps s v → Within ps s (f v a)) : Within ps s (l.foldl f u) := by
  induction l generalizing u with
  | nil => exact h
  | cons a l ih => exact ih (k u a h)

/-- A predicate and what it is said of, kept apart so that a proof can follow the shape of the latter. -/
structure Holds {β : Type} (P : β → Prop) (r : β) : Prop where
  of : P r
theorem cut_only {ps : List Part} {s a : State} {G : Prop} (h : Within ps s a) (k : Within ps s a → G) : G := k h
theorem ite_only {ps : List Part} {s a b : State} {c : Prop} [Decidable c] (h : Within ps s a) (k : Within ps s b) :
    Within ps s (if c then a else b) := by
  split <;> assumption
theorem ite_holds {β : Type} {P : β → Prop} {a b : β} {c : Prop} [Decidable c] (h : Holds P a) (k : Holds P b) : Holds P (if c then a else b) := by
  split <;> assumption
/-- The state first, second or third in an answer, in an answer that may be none, or in the outcome of a command. -/
def InFst {α : Type} (ps : List Part) (s : State) (r : State × α) : Prop := Within ps s r.1
def InSnd {α : Type} (ps : List Part) (s : State) (r : α × State) : Prop := Within ps s r.2
def InThd {α β : Type} (ps : List Part) (s : State) (r : α × β × State) : Prop := Within ps s r.2.2
def InSome {β : Type} (P : β → Prop) : Option β → Prop
  | some b => P b
  | none => True
def InNext (ps : List Part) (s : State) : Host.Outcome State Fault Refusal → Prop
  | .next t => Within ps s t
  | _ => True
theorem leaf_fst {α : Type} {ps : List Part} {s a : State} {b : α} (h : Within ps s a) : Holds (InFst ps s) (a, b) := ⟨h⟩
theorem leaf_snd {α : Type} {ps : List Part} {s a : State} {b : α} (h : Within ps s a) : Holds (InSnd ps s) (b, a) := ⟨h⟩
theorem leaf_thd {α β : Type} {ps : List Part} {s a : State} {b : α} {c : β} (h : Within ps s a) : Holds (InThd ps s) (b, c, a) := ⟨h⟩
theorem leaf_some {β : Type} {P : β → Prop} {b : β} (h : Holds P b) : Holds (InSome P) (some b) := ⟨h.of⟩
theorem leaf_none {β : Type} {P : β → Prop} : Holds (InSome P) (none : Option β) := ⟨True.intro⟩
theorem leaf_only {ps : List Part} {s a : State} (h : Within ps s a) : Holds (Within ps s) a := ⟨h⟩
theorem map_holds {α β : Type} {P : β → Prop} {f : α → β} {o : Option α} (k : ∀ a, o = some a → Holds P (f a)) :
    Holds (InSome P) (o.map f) := by
  cases o with
  | none => exact ⟨True.intro⟩
  | some a => exact ⟨(k a rfl).of⟩
theorem getD_only {ps : List Part} {s u : State} {o : Option State} (h : Holds (InSome (Within ps s)) o) (k : Within ps s u) :
    Within ps s (o.getD u) := by
  cases o with
  | none => exact k
  | some a => exact h.of
theorem leaf_next {ps : List Part} {s a : State} (h : Within ps s a) : Holds (InNext ps s) (.next a) := ⟨h⟩

theorem foldlFst_only {α β : Type} {ps : List Part} {s : State} {a : State × β} {f : State × β → α → State × β} {l : List α} (h : Within ps s a.1)
    (k : ∀ v x, Within ps s v.1 → Within ps s (f v x).1) : Within ps s (l.foldl f a).1 := by
  induction l generalizing a with
  | nil => exact h
  | cons x l ih => exact ih (k a x h)
theorem foldlSnd_only {α β : Type} {ps : List Part} {s : State} {a : β × State} {f : β × State → α → β × State} {l : List α} (h : Within ps s a.2)
    (k : ∀ v x, Within ps s v.2 → Within ps s (f v x).2) : Within ps s (l.foldl f a).2 := by
  induction l generalizing a with
  | nil => exact h
  | cons x l ih => exact ih (k a x h)
theorem foldlThd_only {α β γ : Type} {ps : List Part} {s : State} {a : β × γ × State} {f : β × γ × State → α → β × γ × State} {l : List α}
    (h : Within ps s a.2.2) (k : ∀ v x, Within ps s v.2.2 → Within ps s (f v x).2.2) : Within ps s (l.foldl f a).2.2 := by
  induction l generalizing a with
  | nil => exact h
  | cons x l ih => exact ih (k a x h)
theorem ofFst {α : Type} {ps : List Part} {s : State} {r : State × α} (h : Holds (InFst ps s) r) : Within ps s r.1 := h.of
theorem ofSnd {α : Type} {ps : List Part} {s : State} {r : α × State} (h : Holds (InSnd ps s) r) : Within ps s r.2 := h.of
theorem ofThd {α β : Type} {ps : List Part} {s : State} {r : α × β × State} (h : Holds (InThd ps s) r) : Within ps s r.2.2 := h.of
theorem someOf_only {ps : List Part} {s a : State} {o : Option State} (e : o = some a) (h : Holds (InSome (Within ps s)) o) : Within ps s a := by
  rw [e] at h; exact h.of
theorem someFst_only {β : Type} {ps : List Part} {s a : State} {b : β} {o : Option (State × β)} (e : o = some (a, b))
    (h : Holds (InSome (InFst ps s)) o) : Within ps s a := by
  rw [e] at h; exact h.of
theorem someSnd_only {β : Type} {ps : List Part} {s a : State} {b : β} {o : Option (β × State)} (e : o = some (b, a))
    (h : Holds (InSome (InSnd ps s)) o) : Within ps s a := by
  rw [e] at h; exact h.of
theorem foldl_holds {α β : Type} {P : β → Prop} {a : β} {f : β → α → β} {l : List α} (h : Holds P a) (k : ∀ v x, Holds P v → Holds P (f v x)) :
    Holds P (l.foldl f a) := by
  induction l generalizing a with
  | nil => exact h
  | cons x l ih => exact ih (k a x h)
theorem bind_holds {β : Type} {P : β → Prop} {ps : List Part} {s : State} {a : Option State} {f : State → Option β} (h : Holds (InSome (Within ps s)) a)
    (k : ∀ v, Within ps s v → Holds (InSome P) (f v)) : Holds (InSome P) (a.bind f) := by
  cases a with
  | none => exact ⟨True.intro⟩
  | some v => exact k v h.of
theorem bindAny_holds {α β : Type} {P : β → Prop} {a : Option α} {f : α → Option β} (k : ∀ v, Holds (InSome P) (f v)) : Holds (InSome P) (a.bind f) := by
  cases a with
  | none => exact ⟨True.intro⟩
  | some v => exact k v
/-- The pair that a fold answered, taken apart. -/
theorem pairFst_only {β : Type} {ps : List Part} {s a : State} {b : β} {r : State × β} (e : r = (a, b)) (h : Within ps s r.1) : Within ps s a := by
  rw [e] at h; exact h
theorem pairSnd_only {β : Type} {ps : List Part} {s a : State} {b : β} {r : β × State} (e : r = (b, a)) (h : Within ps s r.2) : Within ps s a := by
  rw [e] at h; exact h
theorem pairThd_only {β γ : Type} {ps : List Part} {s a : State} {b : β} {c : γ} {r : β × γ × State} (e : r = (b, c, a)) (h : Within ps s r.2.2) :
    Within ps s a := by
  rw [e] at h; exact h

variable {ps : List Part} {s u : State}

theorem emit_only {o : Out} (h : Within ps s u) (hp : [.out] ⊆ ps) : Within ps s (emit u o) := 
  h.trans ⟨⟨rfl, fun p hq => by cases p <;> first | rfl | exact absurd (hp (by decide)) hq⟩, id, id, id, id, id⟩
theorem modRegs_only {f : Regs → Regs} (h : Within ps s u) (hp : [.regs] ⊆ ps)
    (hk : ∀ r, swf resetValue r.store = true → swf resetValue (f r).store = true := by first | exact fun _ h => h | exact fun _ h => swf_sset _ _ _ _ h | exact fun _ h => swf_filter _ _ _ h) : Within ps s (u.modRegs f) := 
  h.trans ⟨⟨rfl, fun p hq => by cases p <;> first | rfl | exact absurd (hp (by decide)) hq⟩, id, hk _, id, id, id⟩
theorem modCons_only {f : List Con → List Con} (h : Within ps s u) (hp : [.cons] ⊆ ps)
    (hk : ∀ l, l.length = 160 → (f l).length = 160 := by intro l h; simp [h]) : Within ps s (u.modCons f) := 
  h.trans ⟨⟨rfl, fun p hq => by cases p <;> first | rfl | exact absurd (hp (by decide)) hq⟩, fun k => have ⟨k0, k1, k2, k3, k4, k5, k6⟩ := shaped_iff.mp k; shaped_iff.mpr ⟨(hk _ k0), k1, k2, k3, k4, k5, k6⟩, id, id, id, id⟩
theorem modQtrs_only {f : List Quarter → List Quarter} (h : Within ps s u) (hp : [.qtrs] ⊆ ps)
    (hk : ∀ l, l.length = 4 → (f l).length = 4 := by intro l h; simp [h]) : Within ps s (u.modQtrs f) := 
  h.trans ⟨⟨rfl, fun p hq => by cases p <;> first | rfl | exact absurd (hp (by decide)) hq⟩, fun k => have ⟨k0, k1, k2, k3, k4, k5, k6⟩ := shaped_iff.mp k; shaped_iff.mpr ⟨k0, (hk _ k1), k2, k3, k4, k5, k6⟩, id, id, id, id⟩
theorem modEph_only {f : Eph → Eph} (h : Within ps s u) (hp : [.eph] ⊆ ps) : Within ps s (u.modEph f) := 
  h.trans ⟨⟨rfl, fun p hq => by cases p <;> first | rfl | exact absurd (hp (by decide)) hq⟩, id, id, id, id, id⟩
theorem modWork_only {f : Work → Work} (h : Within ps s u) (hp : [.work] ⊆ ps)
    (hk : ∀ w, Memory.wf w.sram = true → Memory.wf (f w).sram = true := by first | exact fun _ h => h | exact fun _ h => wf_putBytes _ _ _ h | exact fun _ h => wf_filter _ _ h) : Within ps s (u.modWork f) := 
  h.trans ⟨⟨rfl, fun p hq => by cases p <;> first | rfl | exact absurd (hp (by decide)) hq⟩, id, id, id, hk _, id⟩
theorem modTabs_only {f : TabEng → TabEng} (h : Within ps s u) (hp : [.tabs] ⊆ ps) : Within ps s (u.modTabs f) := 
  h.trans ⟨⟨rfl, fun p hq => by cases p <;> first | rfl | exact absurd (hp (by decide)) hq⟩, id, id, id, id, id⟩
theorem modMem_only {f : Mem → Mem} (h : Within ps s u) (hp : [.mem] ⊆ ps)
    (hk : ∀ m, m.nears.length = 12 ∧ m.chans.length = 16 → (f m).nears.length = 12 ∧ (f m).chans.length = 16 := by first | exact fun _ h => h | (intro m h; simp [h]))
    (hb : ∀ m, Memory.wf m.bytes = true → Memory.wf (f m).bytes = true := by first | exact fun _ h => h | exact fun _ h => wf_putBytes _ _ _ h | exact fun _ h => wf_filter _ _ h) : Within ps s (u.modMem f) := 
  h.trans ⟨⟨rfl, fun p hq => by cases p <;> first | rfl | exact absurd (hp (by decide)) hq⟩, fun k => have ⟨k0, k1, k2, k3, k4, k5, k6⟩ := shaped_iff.mp k; shaped_iff.mpr ⟨k0, k1, k2, (hk _ k3), k4, k5, k6⟩, id, id, id, hb _⟩
theorem modServe_only {f : Serve → Serve} (h : Within ps s u) (hp : [.serve] ⊆ ps) : Within ps s (u.modServe f) := 
  h.trans ⟨⟨rfl, fun p hq => by cases p <;> first | rfl | exact absurd (hp (by decide)) hq⟩, id, id, id, id, id⟩
theorem modFab_only {f : Fab → Fab} (h : Within ps s u) (hp : [.fab] ⊆ ps)
    (hk : ∀ b, b.links.length = 17 → (f b).links.length = 17 := by first | exact fun _ h => h | (intro m h; simp [h])) : Within ps s (u.modFab f) := 
  h.trans ⟨⟨rfl, fun p hq => by cases p <;> first | rfl | exact absurd (hp (by decide)) hq⟩, fun k => have ⟨k0, k1, k2, k3, k4, k5, k6⟩ := shaped_iff.mp k; shaped_iff.mpr ⟨k0, k1, k2, k3, (hk _ k4), k5, k6⟩, id, id, id, id⟩
theorem modPx_only {f : Px → Px} (h : Within ps s u) (hp : [.px] ⊆ ps)
    (hk : ∀ x, x.links.length = 12 ∧ x.comps.length = 32 → (f x).links.length = 12 ∧ (f x).comps.length = 32 := by first | exact fun _ h => h | (intro m h; simp [h])) : Within ps s (u.modPx f) := 
  h.trans ⟨⟨rfl, fun p hq => by cases p <;> first | rfl | exact absurd (hp (by decide)) hq⟩, fun k => have ⟨k0, k1, k2, k3, k4, k5, k6⟩ := shaped_iff.mp k; shaped_iff.mpr ⟨k0, k1, k2, k3, k4, (hk _ k5), k6⟩, id, id, id, id⟩
theorem modPtns_only {f : List Ptn → List Ptn} (h : Within ps s u) (hp : [.ptns] ⊆ ps)
    (hk : ∀ l, l.length = 32 → (f l).length = 32 := by intro l h; simp [h]) : Within ps s (u.modPtns f) := 
  h.trans ⟨⟨rfl, fun p hq => by cases p <;> first | rfl | exact absurd (hp (by decide)) hq⟩, fun k => have ⟨k0, k1, k2, k3, k4, k5, k6⟩ := shaped_iff.mp k; shaped_iff.mpr ⟨k0, k1, (hk _ k2), k3, k4, k5, k6⟩, id, id, id, id⟩
theorem modCtl_only {f : Ctl → Ctl} (h : Within ps s u) (hp : [.ctl] ⊆ ps)
    (hk : ∀ c, swf odDefault c.od = true → swf odDefault (f c).od = true := by first | exact fun _ h => h | exact fun _ h => swf_sset _ _ _ _ h | exact fun _ h => swf_filter _ _ _ h) : Within ps s (u.modCtl f) := 
  h.trans ⟨⟨rfl, fun p hq => by cases p <;> first | rfl | exact absurd (hp (by decide)) hq⟩, id, id, hk _, id, id⟩
theorem modMgt_only {f : Mgt → Mgt} (h : Within ps s u) (hp : [.mgt] ⊆ ps) : Within ps s (u.modMgt f) := 
  h.trans ⟨⟨rfl, fun p hq => by cases p <;> first | rfl | exact absurd (hp (by decide)) hq⟩, id, id, id, id, id⟩
theorem modAlm_only {f : Alm → Alm} (h : Within ps s u) (hp : [.alm] ⊆ ps) : Within ps s (u.modAlm f) := 
  h.trans ⟨⟨rfl, fun p hq => by cases p <;> first | rfl | exact absurd (hp (by decide)) hq⟩, id, id, id, id, id⟩
theorem modTel_only {f : Tel → Tel} (h : Within ps s u) (hp : [.tel] ⊆ ps)
    (hk : ∀ x, x.precise.length = 4 → (f x).precise.length = 4 := by first | exact fun _ h => h | (intro m h; simp [h])) : Within ps s (u.modTel f) := 
  h.trans ⟨⟨rfl, fun p hq => by cases p <;> first | rfl | exact absurd (hp (by decide)) hq⟩, fun k => have ⟨k0, k1, k2, k3, k4, k5, k6⟩ := shaped_iff.mp k; shaped_iff.mpr ⟨k0, k1, k2, k3, k4, k5, (hk _ k6)⟩, id, id, id, id⟩
theorem modMer_only {f : Mer → Mer} (h : Within ps s u) (hp : [.mer] ⊆ ps) : Within ps s (u.modMer f) := 
  h.trans ⟨⟨rfl, fun p hq => by cases p <;> first | rfl | exact absurd (hp (by decide)) hq⟩, id, id, id, id, id⟩
theorem modRas_only {f : Ras → Ras} (h : Within ps s u) (hp : [.ras] ⊆ ps) : Within ps s (u.modRas f) := 
  h.trans ⟨⟨rfl, fun p hq => by cases p <;> first | rfl | exact absurd (hp (by decide)) hq⟩, id, id, id, id, id⟩
theorem modBoot_only {f : Boot → Boot} (h : Within ps s u) (hp : [.boot] ⊆ ps) : Within ps s (u.modBoot f) := 
  h.trans ⟨⟨rfl, fun p hq => by cases p <;> first | rfl | exact absurd (hp (by decide)) hq⟩, id, id, id, id, id⟩
theorem setReg_only {off : Nat} {v : Word} (h : Within ps s u) (hp : [.regs] ⊆ ps) : Within ps s (setReg u off v) := modRegs_only h hp
theorem latchSet_only {off : Nat} {v : Word} (h : Within ps s u) (hp : [.regs] ⊆ ps) : Within ps s (latchSet u off v) := modRegs_only h hp
theorem sameTick_only (h : Within ps s u) (hp : [.regs] ⊆ ps) : Within ps s (sameTick u) := by unfold sameTick; split <;> [exact h; exact modRegs_only h hp]
theorem noteRc_only {off : Nat} {f : Nat → Nat} (h : Within ps s u) (hp : [.regs] ⊆ ps) : Within ps s (noteRc u off f) := by
  unfold noteRc; split <;> [exact h; exact modRegs_only (sameTick_only h hp) hp]
theorem bumpReg_only {off n : Nat} (h : Within ps s u) (hp : [.regs] ⊆ ps) : Within ps s (bumpReg u off n) := setReg_only (noteRc_only h hp) hp
theorem raiseReg_only {off v : Nat} (h : Within ps s u) (hp : [.regs] ⊆ ps) : Within ps s (raiseReg u off v) := by unfold raiseReg; split <;> [exact setReg_only (noteRc_only h hp) hp; exact h]
theorem odSet_only {idx sub v : Nat} (h : Within ps s u) (hp : [.ctl] ⊆ ps) : Within ps s (odSet u idx sub v) := modCtl_only h hp
theorem odCount_only {idx sub n : Nat} (h : Within ps s u) (hp : [.ctl] ⊆ ps) : Within ps s (odCount u idx sub n) := odSet_only h hp
theorem odRaise_only {idx sub v : Nat} (h : Within ps s u) (hp : [.ctl] ⊆ ps) : Within ps s (odRaise u idx sub v) := by unfold odRaise; split <;> [exact odSet_only h hp; exact h]
theorem msix_only {fn vector : Nat} (h : Within ps s u) (hp : [.regs, .out] ⊆ ps) : Within ps s (msix u fn vector) := by
  have h1 := subset_of hp .regs (by decide); have h2 := subset_of hp .out (by decide)
  unfold msix; split <;> [exact emit_only h h2; (split <;> [exact h; exact modRegs_only h h1])]
theorem setInt_only {i : Nat} (h : Within ps s u) (hp : [.regs, .out] ⊆ ps) : Within ps s (setInt u i) := by
  have h1 := subset_of hp .regs (by decide)
  unfold setInt; simp only; split <;> [exact msix_only (modRegs_only (setReg_only (sameTick_only h h1) h1) h1) hp; exact modRegs_only (setReg_only (sameTick_only h h1) h1) h1]
theorem telMark_only (h : Within ps s u) (hp : [.tel] ⊆ ps) : Within ps s (telMark u) := modTel_only h hp
theorem telPort_only {port ix n : Nat} (h : Within ps s u) (hp : [.tel] ⊆ ps) : Within ps s (telPort u port ix n) := modTel_only (telMark_only h hp) hp
theorem telMem_only {r ix n : Nat} (h : Within ps s u) (hp : [.tel] ⊆ ps) : Within ps s (telMem u r ix n) := modTel_only (telMark_only h hp) hp
theorem telAcct_only {p ix n : Nat} (h : Within ps s u) (hp : [.tel] ⊆ ps) : Within ps s (telAcct u p ix n) := modTel_only (telMark_only h hp) hp
theorem telAct_only {part : Nat} {p : Option Nat} {k n : Nat} (h : Within ps s u) (hp : [.tel] ⊆ ps) : Within ps s (telAct u part p k n) := by unfold telAct; exact modTel_only h hp
theorem telDma_only {p : Option Nat} {ix n : Nat} (h : Within ps s u) (hp : [.tel] ⊆ ps) : Within ps s (telDma u p ix n) := by unfold telDma; split <;> [exact telAct_only (telAcct_only h hp) hp; exact telAct_only h hp]
theorem hostPut_only {p : Option Nat} {addr : Nat} {bs : List Byte} (h : Within ps s u) (hp : [.out, .tel] ⊆ ps) : Within ps s (hostPut u p addr bs) := telDma_only (emit_only h (subset_of hp .out (by decide))) (subset_of hp .tel (by decide))
theorem hostWrite_only {p addr : Nat} {bs : List Byte} (h : Within ps s u) (hp : [.out, .regs, .tel] ⊆ ps) : Within ps s (hostWrite u p addr bs) := by
  unfold hostWrite; split <;> [exact modRegs_only h (subset_of hp .regs (by decide)); exact hostPut_only h (subset_sub hp (by decide))]
theorem ringPut_only {ring : Nat} {r : Rec} (h : Within ps s u) (hp : [.regs, .out, .tel] ⊆ ps) : Within ps s (ringPut u ring r) := by
  have h1 := subset_of hp .regs (by decide); have h2 := subset_of hp .out (by decide); have h3 := subset_of hp .tel (by decide)
  unfold ringPut; simp only
  split <;> [(split <;> [exact msix_only (modRegs_only (telDma_only (emit_only h h2) h3) h1) (subset_two h1 h2); exact modRegs_only (telDma_only (emit_only h h2) h3) h1]);
    exact modRegs_only (telDma_only (emit_only h h2) h3) h1]
theorem ringWrite_only {ring : Nat} {r : Rec} (h : Within ps s u) (hp : [.regs, .out, .tel] ⊆ ps) : Within ps s (ringWrite u ring r) := by unfold ringWrite; split <;> [exact h; (split <;> [exact modRegs_only h (subset_of hp .regs (by decide)); exact ringPut_only h hp])]
theorem orderDone_only {ring : Nat} (h : Within ps s u) (hp : [.regs, .out] ⊆ ps) : Within ps s (orderDone u ring) := by
  unfold orderDone; simp only; split
  · exact h
  · refine h.trans ⟨⟨rfl, fun p hq => ?_⟩, id, id, id, id, id⟩
    cases p <;> first | rfl | exact absurd (hp (by decide)) hq
theorem taskWrite_only {ring place : Nat} {r : Rec} (h : Within ps s u) (hp : [.regs, .out, .tel] ⊆ ps) : Within ps s (taskWrite u ring place r) := by
  unfold taskWrite; split
  · exact h
  · exact orderDone_only (modRegs_only (ringWrite_only (sameTick_only h (subset_of hp .regs (by decide))) hp) (subset_of hp .regs (by decide))) (subset_sub hp (by decide))
theorem sweepReqs_only (h : Within ps s u) (hp : [.serve] ⊆ ps) : Within ps s (sweepReqs u) := modServe_only h hp
theorem ringDrain_only {ring : Nat} (h : Within ps s u) (hp : [.regs, .out, .tel, .serve] ⊆ ps) : Within ps s (ringDrain u ring) := by
  unfold ringDrain; simp only
  refine sweepReqs_only ?_ (subset_of hp .serve (by decide))
  refine foldl_only (modRegs_only h (subset_of hp .regs (by decide))) fun v w hv => ?_
  split <;> [exact modRegs_only hv (subset_of hp .regs (by decide)); exact ringPut_only hv (subset_sub hp (by decide))]
theorem ringTake_only {ring n : Nat} (h : Within ps s u) (hp : [.regs, .tel] ⊆ ps) : Within ps s (ringTake u ring n) := telDma_only (modRegs_only h (subset_of hp .regs (by decide))) (subset_of hp .tel (by decide))
theorem orderTick_only {ring : Nat} (h : Within ps s u) (hp : [.out, .regs] ⊆ ps) : Within ps s (orderTick u ring) :=
  h.trans ⟨⟨rfl, fun p hq => by cases p <;> first | rfl | exact absurd (hp (by decide)) hq⟩, id, id, id, id, id⟩
theorem eventTo_only {ring : Nat} {e : Event} (h : Within ps s u) (hp : [.regs, .out, .tel] ⊆ ps) : Within ps s (eventTo u ring e) := by
  have h1 := subset_of hp .regs (by decide); have h2 := subset_of hp .out (by decide)
  unfold eventTo; simp only
  split
  · split <;> [exact setInt_only (modRegs_only h h1) (subset_two h1 h2); exact modRegs_only h h1]
  · refine orderTick_only ?_ (subset_two h2 h1)
    split <;> [exact modRegs_only (modRegs_only h h1) h1; exact ringPut_only (modRegs_only h h1) hp]
theorem sendFrame_only {f : Frame} (h : Within ps s u) (hp : [.out, .ctl] ⊆ ps) : Within ps s (sendFrame u f) := odCount_only (emit_only h (subset_of hp .out (by decide))) (subset_of hp .ctl (by decide))
theorem busEvent_only {e : Event} (h : Within ps s u) (hp : [.out, .ctl, .mgt] ⊆ ps) : Within ps s (busEvent u e) := by
  have h1 := subset_of hp .mgt (by decide); have h2 := subset_of hp .out (by decide); have h3 := subset_of hp .ctl (by decide)
  unfold busEvent; split
  · exact h
  · simp only; split
    · split <;> [exact modMgt_only h h1; exact sendFrame_only (modMgt_only h h1) (subset_two h2 h3)]
    · split <;> [exact modMgt_only (modMgt_only h h1) h1; exact odCount_only (modMgt_only (modMgt_only h h1) h1) h3]
    · exact h
theorem almQueue_only {off : Nat} {bs : List Byte} (h : Within ps s u) (hp : [.alm] ⊆ ps) : Within ps s (almQueue u off bs) := modAlm_only h hp
theorem logFault_only {e : Event} (h : Within ps s u) (hp : [.alm] ⊆ ps) : Within ps s (logFault u e) := by unfold logFault; split <;> [exact h; exact modAlm_only (almQueue_only h hp) hp]
theorem raisePf_only {e : Event} (h : Within ps s u) (hp : [.out, .regs, .ctl, .mgt, .alm, .tel] ⊆ ps) : Within ps s (raisePf u e) := logFault_only (busEvent_only (eventTo_only h (subset_sub hp (by decide))) (subset_sub hp (by decide))) (subset_sub hp (by decide))
theorem raisePtn_only {p : Nat} {e : Event} (h : Within ps s u) (hp : [.regs, .out, .tel] ⊆ ps) : Within ps s (raisePtn u p e) := eventTo_only h hp
theorem raiseBoth_only {p : Nat} {e : Event} (h : Within ps s u) (hp : [.out, .regs, .ctl, .mgt, .alm, .tel] ⊆ ps) : Within ps s (raiseBoth u p e) := raisePtn_only (raisePf_only h hp) (subset_sub hp (by decide))
theorem progCount_only {l ev n : Nat} (h : Within ps s u) (hp : [.tel] ⊆ ps) : Within ps s (progCount u l ev n) := by
  unfold progCount; split
  · exact h
  · refine foldl_only h fun v k hv => ?_
    split <;> [exact modTel_only hv hp; exact hv]
theorem linkCount_only {port i n : Nat} (h : Within ps s u) (hp : [.regs, .tel] ⊆ ps) : Within ps s (linkCount u port i n) := telPort_only (bumpReg_only h (subset_of hp .regs (by decide))) (subset_of hp .tel (by decide))
theorem qsCount_only {port i : Nat} (h : Within ps s u) (hp : [.regs, .tel] ⊆ ps) : Within ps s (qsCount u port i) := telPort_only (bumpReg_only h (subset_of hp .regs (by decide))) (subset_of hp .tel (by decide))
theorem modCon_only {phys : Nat} {f : Con → Con} (h : Within ps s u) (hp : [.cons] ⊆ ps) : Within ps s (modCon u phys f) := modCons_only h hp
theorem modQtr_only {q : Nat} {f : Quarter → Quarter} (h : Within ps s u) (hp : [.qtrs] ⊆ ps) : Within ps s (modQtr u q f) := modQtrs_only h hp
theorem modPtn_only {p : Nat} {f : Ptn → Ptn} (h : Within ps s u) (hp : [.ptns] ⊆ ps) : Within ps s (modPtn u p f) := modPtns_only h hp

@[simp] theorem setReg_out (off : Nat) (v : Word) : (setReg s off v).out = s.out := (setReg_only (Within.refl _ s) (List.Subset.refl _)).only.keeps .out (by decide)
@[simp] theorem setReg_freeCount (off : Nat) (v : Word) : (setReg s off v).freeCount = s.freeCount := (setReg_only (Within.refl _ s) (List.Subset.refl _)).only.keeps .freeCount (by decide)
@[simp] theorem setReg_cons (off : Nat) (v : Word) : (setReg s off v).cons = s.cons := (setReg_only (Within.refl _ s) (List.Subset.refl _)).only.keeps .cons (by decide)
@[simp] theorem setReg_qtrs (off : Nat) (v : Word) : (setReg s off v).qtrs = s.qtrs := (setReg_only (Within.refl _ s) (List.Subset.refl _)).only.keeps .qtrs (by decide)
@[simp] theorem setReg_eph (off : Nat) (v : Word) : (setReg s off v).eph = s.eph := (setReg_only (Within.refl _ s) (List.Subset.refl _)).only.keeps .eph (by decide)
@[simp] theorem setReg_work (off : Nat) (v : Word) : (setReg s off v).work = s.work := (setReg_only (Within.refl _ s) (List.Subset.refl _)).only.keeps .work (by decide)
@[simp] theorem setReg_tabs (off : Nat) (v : Word) : (setReg s off v).tabs = s.tabs := (setReg_only (Within.refl _ s) (List.Subset.refl _)).only.keeps .tabs (by decide)
@[simp] theorem setReg_mem (off : Nat) (v : Word) : (setReg s off v).mem = s.mem := (setReg_only (Within.refl _ s) (List.Subset.refl _)).only.keeps .mem (by decide)
@[simp] theorem setReg_serve (off : Nat) (v : Word) : (setReg s off v).serve = s.serve := (setReg_only (Within.refl _ s) (List.Subset.refl _)).only.keeps .serve (by decide)
@[simp] theorem setReg_fab (off : Nat) (v : Word) : (setReg s off v).fab = s.fab := (setReg_only (Within.refl _ s) (List.Subset.refl _)).only.keeps .fab (by decide)
@[simp] theorem setReg_px (off : Nat) (v : Word) : (setReg s off v).px = s.px := (setReg_only (Within.refl _ s) (List.Subset.refl _)).only.keeps .px (by decide)
@[simp] theorem setReg_ptns (off : Nat) (v : Word) : (setReg s off v).ptns = s.ptns := (setReg_only (Within.refl _ s) (List.Subset.refl _)).only.keeps .ptns (by decide)
@[simp] theorem setReg_ctl (off : Nat) (v : Word) : (setReg s off v).ctl = s.ctl := (setReg_only (Within.refl _ s) (List.Subset.refl _)).only.keeps .ctl (by decide)
@[simp] theorem setReg_mgt (off : Nat) (v : Word) : (setReg s off v).mgt = s.mgt := (setReg_only (Within.refl _ s) (List.Subset.refl _)).only.keeps .mgt (by decide)
@[simp] theorem setReg_alm (off : Nat) (v : Word) : (setReg s off v).alm = s.alm := (setReg_only (Within.refl _ s) (List.Subset.refl _)).only.keeps .alm (by decide)
@[simp] theorem setReg_tel (off : Nat) (v : Word) : (setReg s off v).tel = s.tel := (setReg_only (Within.refl _ s) (List.Subset.refl _)).only.keeps .tel (by decide)
@[simp] theorem setReg_mer (off : Nat) (v : Word) : (setReg s off v).mer = s.mer := (setReg_only (Within.refl _ s) (List.Subset.refl _)).only.keeps .mer (by decide)
@[simp] theorem setReg_ras (off : Nat) (v : Word) : (setReg s off v).ras = s.ras := (setReg_only (Within.refl _ s) (List.Subset.refl _)).only.keeps .ras (by decide)
@[simp] theorem setReg_boot (off : Nat) (v : Word) : (setReg s off v).boot = s.boot := (setReg_only (Within.refl _ s) (List.Subset.refl _)).only.keeps .boot (by decide)
@[simp] theorem setReg_pending (off : Nat) (v : Word) : (setReg s off v).pending = s.pending := (setReg_only (Within.refl _ s) (List.Subset.refl _)).only.1
@[simp] theorem latchSet_out (off : Nat) (v : Word) : (latchSet s off v).out = s.out := (latchSet_only (Within.refl _ s) (List.Subset.refl _)).only.keeps .out (by decide)
@[simp] theorem latchSet_freeCount (off : Nat) (v : Word) : (latchSet s off v).freeCount = s.freeCount := (latchSet_only (Within.refl _ s) (List.Subset.refl _)).only.keeps .freeCount (by decide)
@[simp] theorem latchSet_cons (off : Nat) (v : Word) : (latchSet s off v).cons = s.cons := (latchSet_only (Within.refl _ s) (List.Subset.refl _)).only.keeps .cons (by decide)
@[simp] theorem latchSet_qtrs (off : Nat) (v : Word) : (latchSet s off v).qtrs = s.qtrs := (latchSet_only (Within.refl _ s) (List.Subset.refl _)).only.keeps .qtrs (by decide)
@[simp] theorem latchSet_eph (off : Nat) (v : Word) : (latchSet s off v).eph = s.eph := (latchSet_only (Within.refl _ s) (List.Subset.refl _)).only.keeps .eph (by decide)
@[simp] theorem latchSet_work (off : Nat) (v : Word) : (latchSet s off v).work = s.work := (latchSet_only (Within.refl _ s) (List.Subset.refl _)).only.keeps .work (by decide)
@[simp] theorem latchSet_tabs (off : Nat) (v : Word) : (latchSet s off v).tabs = s.tabs := (latchSet_only (Within.refl _ s) (List.Subset.refl _)).only.keeps .tabs (by decide)
@[simp] theorem latchSet_mem (off : Nat) (v : Word) : (latchSet s off v).mem = s.mem := (latchSet_only (Within.refl _ s) (List.Subset.refl _)).only.keeps .mem (by decide)
@[simp] theorem latchSet_serve (off : Nat) (v : Word) : (latchSet s off v).serve = s.serve := (latchSet_only (Within.refl _ s) (List.Subset.refl _)).only.keeps .serve (by decide)
@[simp] theorem latchSet_fab (off : Nat) (v : Word) : (latchSet s off v).fab = s.fab := (latchSet_only (Within.refl _ s) (List.Subset.refl _)).only.keeps .fab (by decide)
@[simp] theorem latchSet_px (off : Nat) (v : Word) : (latchSet s off v).px = s.px := (latchSet_only (Within.refl _ s) (List.Subset.refl _)).only.keeps .px (by decide)
@[simp] theorem latchSet_ptns (off : Nat) (v : Word) : (latchSet s off v).ptns = s.ptns := (latchSet_only (Within.refl _ s) (List.Subset.refl _)).only.keeps .ptns (by decide)
@[simp] theorem latchSet_ctl (off : Nat) (v : Word) : (latchSet s off v).ctl = s.ctl := (latchSet_only (Within.refl _ s) (List.Subset.refl _)).only.keeps .ctl (by decide)
@[simp] theorem latchSet_mgt (off : Nat) (v : Word) : (latchSet s off v).mgt = s.mgt := (latchSet_only (Within.refl _ s) (List.Subset.refl _)).only.keeps .mgt (by decide)
@[simp] theorem latchSet_alm (off : Nat) (v : Word) : (latchSet s off v).alm = s.alm := (latchSet_only (Within.refl _ s) (List.Subset.refl _)).only.keeps .alm (by decide)
@[simp] theorem latchSet_tel (off : Nat) (v : Word) : (latchSet s off v).tel = s.tel := (latchSet_only (Within.refl _ s) (List.Subset.refl _)).only.keeps .tel (by decide)
@[simp] theorem latchSet_mer (off : Nat) (v : Word) : (latchSet s off v).mer = s.mer := (latchSet_only (Within.refl _ s) (List.Subset.refl _)).only.keeps .mer (by decide)
@[simp] theorem latchSet_ras (off : Nat) (v : Word) : (latchSet s off v).ras = s.ras := (latchSet_only (Within.refl _ s) (List.Subset.refl _)).only.keeps .ras (by decide)
@[simp] theorem latchSet_boot (off : Nat) (v : Word) : (latchSet s off v).boot = s.boot := (latchSet_only (Within.refl _ s) (List.Subset.refl _)).only.keeps .boot (by decide)
@[simp] theorem latchSet_pending (off : Nat) (v : Word) : (latchSet s off v).pending = s.pending := (latchSet_only (Within.refl _ s) (List.Subset.refl _)).only.1
@[simp] theorem bumpReg_out (off n : Nat) : (bumpReg s off n).out = s.out := (bumpReg_only (Within.refl _ s) (List.Subset.refl _)).only.keeps .out (by decide)
@[simp] theorem bumpReg_freeCount (off n : Nat) : (bumpReg s off n).freeCount = s.freeCount := (bumpReg_only (Within.refl _ s) (List.Subset.refl _)).only.keeps .freeCount (by decide)
@[simp] theorem bumpReg_cons (off n : Nat) : (bumpReg s off n).cons = s.cons := (bumpReg_only (Within.refl _ s) (List.Subset.refl _)).only.keeps .cons (by decide)
@[simp] theorem bumpReg_qtrs (off n : Nat) : (bumpReg s off n).qtrs = s.qtrs := (bumpReg_only (Within.refl _ s) (List.Subset.refl _)).only.keeps .qtrs (by decide)
@[simp] theorem bumpReg_eph (off n : Nat) : (bumpReg s off n).eph = s.eph := (bumpReg_only (Within.refl _ s) (List.Subset.refl _)).only.keeps .eph (by decide)
@[simp] theorem bumpReg_work (off n : Nat) : (bumpReg s off n).work = s.work := (bumpReg_only (Within.refl _ s) (List.Subset.refl _)).only.keeps .work (by decide)
@[simp] theorem bumpReg_tabs (off n : Nat) : (bumpReg s off n).tabs = s.tabs := (bumpReg_only (Within.refl _ s) (List.Subset.refl _)).only.keeps .tabs (by decide)
@[simp] theorem bumpReg_mem (off n : Nat) : (bumpReg s off n).mem = s.mem := (bumpReg_only (Within.refl _ s) (List.Subset.refl _)).only.keeps .mem (by decide)
@[simp] theorem bumpReg_serve (off n : Nat) : (bumpReg s off n).serve = s.serve := (bumpReg_only (Within.refl _ s) (List.Subset.refl _)).only.keeps .serve (by decide)
@[simp] theorem bumpReg_fab (off n : Nat) : (bumpReg s off n).fab = s.fab := (bumpReg_only (Within.refl _ s) (List.Subset.refl _)).only.keeps .fab (by decide)
@[simp] theorem bumpReg_px (off n : Nat) : (bumpReg s off n).px = s.px := (bumpReg_only (Within.refl _ s) (List.Subset.refl _)).only.keeps .px (by decide)
@[simp] theorem bumpReg_ptns (off n : Nat) : (bumpReg s off n).ptns = s.ptns := (bumpReg_only (Within.refl _ s) (List.Subset.refl _)).only.keeps .ptns (by decide)
@[simp] theorem bumpReg_ctl (off n : Nat) : (bumpReg s off n).ctl = s.ctl := (bumpReg_only (Within.refl _ s) (List.Subset.refl _)).only.keeps .ctl (by decide)
@[simp] theorem bumpReg_mgt (off n : Nat) : (bumpReg s off n).mgt = s.mgt := (bumpReg_only (Within.refl _ s) (List.Subset.refl _)).only.keeps .mgt (by decide)
@[simp] theorem bumpReg_alm (off n : Nat) : (bumpReg s off n).alm = s.alm := (bumpReg_only (Within.refl _ s) (List.Subset.refl _)).only.keeps .alm (by decide)
@[simp] theorem bumpReg_tel (off n : Nat) : (bumpReg s off n).tel = s.tel := (bumpReg_only (Within.refl _ s) (List.Subset.refl _)).only.keeps .tel (by decide)
@[simp] theorem bumpReg_mer (off n : Nat) : (bumpReg s off n).mer = s.mer := (bumpReg_only (Within.refl _ s) (List.Subset.refl _)).only.keeps .mer (by decide)
@[simp] theorem bumpReg_ras (off n : Nat) : (bumpReg s off n).ras = s.ras := (bumpReg_only (Within.refl _ s) (List.Subset.refl _)).only.keeps .ras (by decide)
@[simp] theorem bumpReg_boot (off n : Nat) : (bumpReg s off n).boot = s.boot := (bumpReg_only (Within.refl _ s) (List.Subset.refl _)).only.keeps .boot (by decide)
@[simp] theorem bumpReg_pending (off n : Nat) : (bumpReg s off n).pending = s.pending := (bumpReg_only (Within.refl _ s) (List.Subset.refl _)).only.1
@[simp] theorem raiseReg_out (off v : Nat) : (raiseReg s off v).out = s.out := (raiseReg_only (Within.refl _ s) (List.Subset.refl _)).only.keeps .out (by decide)
@[simp] theorem raiseReg_freeCount (off v : Nat) : (raiseReg s off v).freeCount = s.freeCount := (raiseReg_only (Within.refl _ s) (List.Subset.refl _)).only.keeps .freeCount (by decide)
@[simp] theorem raiseReg_cons (off v : Nat) : (raiseReg s off v).cons = s.cons := (raiseReg_only (Within.refl _ s) (List.Subset.refl _)).only.keeps .cons (by decide)
@[simp] theorem raiseReg_qtrs (off v : Nat) : (raiseReg s off v).qtrs = s.qtrs := (raiseReg_only (Within.refl _ s) (List.Subset.refl _)).only.keeps .qtrs (by decide)
@[simp] theorem raiseReg_eph (off v : Nat) : (raiseReg s off v).eph = s.eph := (raiseReg_only (Within.refl _ s) (List.Subset.refl _)).only.keeps .eph (by decide)
@[simp] theorem raiseReg_work (off v : Nat) : (raiseReg s off v).work = s.work := (raiseReg_only (Within.refl _ s) (List.Subset.refl _)).only.keeps .work (by decide)
@[simp] theorem raiseReg_tabs (off v : Nat) : (raiseReg s off v).tabs = s.tabs := (raiseReg_only (Within.refl _ s) (List.Subset.refl _)).only.keeps .tabs (by decide)
@[simp] theorem raiseReg_mem (off v : Nat) : (raiseReg s off v).mem = s.mem := (raiseReg_only (Within.refl _ s) (List.Subset.refl _)).only.keeps .mem (by decide)
@[simp] theorem raiseReg_serve (off v : Nat) : (raiseReg s off v).serve = s.serve := (raiseReg_only (Within.refl _ s) (List.Subset.refl _)).only.keeps .serve (by decide)
@[simp] theorem raiseReg_fab (off v : Nat) : (raiseReg s off v).fab = s.fab := (raiseReg_only (Within.refl _ s) (List.Subset.refl _)).only.keeps .fab (by decide)
@[simp] theorem raiseReg_px (off v : Nat) : (raiseReg s off v).px = s.px := (raiseReg_only (Within.refl _ s) (List.Subset.refl _)).only.keeps .px (by decide)
@[simp] theorem raiseReg_ptns (off v : Nat) : (raiseReg s off v).ptns = s.ptns := (raiseReg_only (Within.refl _ s) (List.Subset.refl _)).only.keeps .ptns (by decide)
@[simp] theorem raiseReg_ctl (off v : Nat) : (raiseReg s off v).ctl = s.ctl := (raiseReg_only (Within.refl _ s) (List.Subset.refl _)).only.keeps .ctl (by decide)
@[simp] theorem raiseReg_mgt (off v : Nat) : (raiseReg s off v).mgt = s.mgt := (raiseReg_only (Within.refl _ s) (List.Subset.refl _)).only.keeps .mgt (by decide)
@[simp] theorem raiseReg_alm (off v : Nat) : (raiseReg s off v).alm = s.alm := (raiseReg_only (Within.refl _ s) (List.Subset.refl _)).only.keeps .alm (by decide)
@[simp] theorem raiseReg_tel (off v : Nat) : (raiseReg s off v).tel = s.tel := (raiseReg_only (Within.refl _ s) (List.Subset.refl _)).only.keeps .tel (by decide)
@[simp] theorem raiseReg_mer (off v : Nat) : (raiseReg s off v).mer = s.mer := (raiseReg_only (Within.refl _ s) (List.Subset.refl _)).only.keeps .mer (by decide)
@[simp] theorem raiseReg_ras (off v : Nat) : (raiseReg s off v).ras = s.ras := (raiseReg_only (Within.refl _ s) (List.Subset.refl _)).only.keeps .ras (by decide)
@[simp] theorem raiseReg_boot (off v : Nat) : (raiseReg s off v).boot = s.boot := (raiseReg_only (Within.refl _ s) (List.Subset.refl _)).only.keeps .boot (by decide)
@[simp] theorem raiseReg_pending (off v : Nat) : (raiseReg s off v).pending = s.pending := (raiseReg_only (Within.refl _ s) (List.Subset.refl _)).only.1
@[simp] theorem odSet_out (idx sub v : Nat) : (odSet s idx sub v).out = s.out := (odSet_only (Within.refl _ s) (List.Subset.refl _)).only.keeps .out (by decide)
@[simp] theorem odSet_freeCount (idx sub v : Nat) : (odSet s idx sub v).freeCount = s.freeCount := (odSet_only (Within.refl _ s) (List.Subset.refl _)).only.keeps .freeCount (by decide)
@[simp] theorem odSet_regs (idx sub v : Nat) : (odSet s idx sub v).regs = s.regs := (odSet_only (Within.refl _ s) (List.Subset.refl _)).only.keeps .regs (by decide)
@[simp] theorem odSet_cons (idx sub v : Nat) : (odSet s idx sub v).cons = s.cons := (odSet_only (Within.refl _ s) (List.Subset.refl _)).only.keeps .cons (by decide)
@[simp] theorem odSet_qtrs (idx sub v : Nat) : (odSet s idx sub v).qtrs = s.qtrs := (odSet_only (Within.refl _ s) (List.Subset.refl _)).only.keeps .qtrs (by decide)
@[simp] theorem odSet_eph (idx sub v : Nat) : (odSet s idx sub v).eph = s.eph := (odSet_only (Within.refl _ s) (List.Subset.refl _)).only.keeps .eph (by decide)
@[simp] theorem odSet_work (idx sub v : Nat) : (odSet s idx sub v).work = s.work := (odSet_only (Within.refl _ s) (List.Subset.refl _)).only.keeps .work (by decide)
@[simp] theorem odSet_tabs (idx sub v : Nat) : (odSet s idx sub v).tabs = s.tabs := (odSet_only (Within.refl _ s) (List.Subset.refl _)).only.keeps .tabs (by decide)
@[simp] theorem odSet_mem (idx sub v : Nat) : (odSet s idx sub v).mem = s.mem := (odSet_only (Within.refl _ s) (List.Subset.refl _)).only.keeps .mem (by decide)
@[simp] theorem odSet_serve (idx sub v : Nat) : (odSet s idx sub v).serve = s.serve := (odSet_only (Within.refl _ s) (List.Subset.refl _)).only.keeps .serve (by decide)
@[simp] theorem odSet_fab (idx sub v : Nat) : (odSet s idx sub v).fab = s.fab := (odSet_only (Within.refl _ s) (List.Subset.refl _)).only.keeps .fab (by decide)
@[simp] theorem odSet_px (idx sub v : Nat) : (odSet s idx sub v).px = s.px := (odSet_only (Within.refl _ s) (List.Subset.refl _)).only.keeps .px (by decide)
@[simp] theorem odSet_ptns (idx sub v : Nat) : (odSet s idx sub v).ptns = s.ptns := (odSet_only (Within.refl _ s) (List.Subset.refl _)).only.keeps .ptns (by decide)
@[simp] theorem odSet_mgt (idx sub v : Nat) : (odSet s idx sub v).mgt = s.mgt := (odSet_only (Within.refl _ s) (List.Subset.refl _)).only.keeps .mgt (by decide)
@[simp] theorem odSet_alm (idx sub v : Nat) : (odSet s idx sub v).alm = s.alm := (odSet_only (Within.refl _ s) (List.Subset.refl _)).only.keeps .alm (by decide)
@[simp] theorem odSet_tel (idx sub v : Nat) : (odSet s idx sub v).tel = s.tel := (odSet_only (Within.refl _ s) (List.Subset.refl _)).only.keeps .tel (by decide)
@[simp] theorem odSet_mer (idx sub v : Nat) : (odSet s idx sub v).mer = s.mer := (odSet_only (Within.refl _ s) (List.Subset.refl _)).only.keeps .mer (by decide)
@[simp] theorem odSet_ras (idx sub v : Nat) : (odSet s idx sub v).ras = s.ras := (odSet_only (Within.refl _ s) (List.Subset.refl _)).only.keeps .ras (by decide)
@[simp] theorem odSet_boot (idx sub v : Nat) : (odSet s idx sub v).boot = s.boot := (odSet_only (Within.refl _ s) (List.Subset.refl _)).only.keeps .boot (by decide)
@[simp] theorem odSet_pending (idx sub v : Nat) : (odSet s idx sub v).pending = s.pending := (odSet_only (Within.refl _ s) (List.Subset.refl _)).only.1
@[simp] theorem odCount_out (idx sub n : Nat) : (odCount s idx sub n).out = s.out := (odCount_only (Within.refl _ s) (List.Subset.refl _)).only.keeps .out (by decide)
@[simp] theorem odCount_freeCount (idx sub n : Nat) : (odCount s idx sub n).freeCount = s.freeCount := (odCount_only (Within.refl _ s) (List.Subset.refl _)).only.keeps .freeCount (by decide)
@[simp] theorem odCount_regs (idx sub n : Nat) : (odCount s idx sub n).regs = s.regs := (odCount_only (Within.refl _ s) (List.Subset.refl _)).only.keeps .regs (by decide)
@[simp] theorem odCount_cons (idx sub n : Nat) : (odCount s idx sub n).cons = s.cons := (odCount_only (Within.refl _ s) (List.Subset.refl _)).only.keeps .cons (by decide)
@[simp] theorem odCount_qtrs (idx sub n : Nat) : (odCount s idx sub n).qtrs = s.qtrs := (odCount_only (Within.refl _ s) (List.Subset.refl _)).only.keeps .qtrs (by decide)
@[simp] theorem odCount_eph (idx sub n : Nat) : (odCount s idx sub n).eph = s.eph := (odCount_only (Within.refl _ s) (List.Subset.refl _)).only.keeps .eph (by decide)
@[simp] theorem odCount_work (idx sub n : Nat) : (odCount s idx sub n).work = s.work := (odCount_only (Within.refl _ s) (List.Subset.refl _)).only.keeps .work (by decide)
@[simp] theorem odCount_tabs (idx sub n : Nat) : (odCount s idx sub n).tabs = s.tabs := (odCount_only (Within.refl _ s) (List.Subset.refl _)).only.keeps .tabs (by decide)
@[simp] theorem odCount_mem (idx sub n : Nat) : (odCount s idx sub n).mem = s.mem := (odCount_only (Within.refl _ s) (List.Subset.refl _)).only.keeps .mem (by decide)
@[simp] theorem odCount_serve (idx sub n : Nat) : (odCount s idx sub n).serve = s.serve := (odCount_only (Within.refl _ s) (List.Subset.refl _)).only.keeps .serve (by decide)
@[simp] theorem odCount_fab (idx sub n : Nat) : (odCount s idx sub n).fab = s.fab := (odCount_only (Within.refl _ s) (List.Subset.refl _)).only.keeps .fab (by decide)
@[simp] theorem odCount_px (idx sub n : Nat) : (odCount s idx sub n).px = s.px := (odCount_only (Within.refl _ s) (List.Subset.refl _)).only.keeps .px (by decide)
@[simp] theorem odCount_ptns (idx sub n : Nat) : (odCount s idx sub n).ptns = s.ptns := (odCount_only (Within.refl _ s) (List.Subset.refl _)).only.keeps .ptns (by decide)
@[simp] theorem odCount_mgt (idx sub n : Nat) : (odCount s idx sub n).mgt = s.mgt := (odCount_only (Within.refl _ s) (List.Subset.refl _)).only.keeps .mgt (by decide)
@[simp] theorem odCount_alm (idx sub n : Nat) : (odCount s idx sub n).alm = s.alm := (odCount_only (Within.refl _ s) (List.Subset.refl _)).only.keeps .alm (by decide)
@[simp] theorem odCount_tel (idx sub n : Nat) : (odCount s idx sub n).tel = s.tel := (odCount_only (Within.refl _ s) (List.Subset.refl _)).only.keeps .tel (by decide)
@[simp] theorem odCount_mer (idx sub n : Nat) : (odCount s idx sub n).mer = s.mer := (odCount_only (Within.refl _ s) (List.Subset.refl _)).only.keeps .mer (by decide)
@[simp] theorem odCount_ras (idx sub n : Nat) : (odCount s idx sub n).ras = s.ras := (odCount_only (Within.refl _ s) (List.Subset.refl _)).only.keeps .ras (by decide)
@[simp] theorem odCount_boot (idx sub n : Nat) : (odCount s idx sub n).boot = s.boot := (odCount_only (Within.refl _ s) (List.Subset.refl _)).only.keeps .boot (by decide)
@[simp] theorem odCount_pending (idx sub n : Nat) : (odCount s idx sub n).pending = s.pending := (odCount_only (Within.refl _ s) (List.Subset.refl _)).only.1
@[simp] theorem odRaise_out (idx sub v : Nat) : (odRaise s idx sub v).out = s.out := (odRaise_only (Within.refl _ s) (List.Subset.refl _)).only.keeps .out (by decide)
@[simp] theorem odRaise_freeCount (idx sub v : Nat) : (odRaise s idx sub v).freeCount = s.freeCount := (odRaise_only (Within.refl _ s) (List.Subset.refl _)).only.keeps .freeCount (by decide)
@[simp] theorem odRaise_regs (idx sub v : Nat) : (odRaise s idx sub v).regs = s.regs := (odRaise_only (Within.refl _ s) (List.Subset.refl _)).only.keeps .regs (by decide)
@[simp] theorem odRaise_cons (idx sub v : Nat) : (odRaise s idx sub v).cons = s.cons := (odRaise_only (Within.refl _ s) (List.Subset.refl _)).only.keeps .cons (by decide)
@[simp] theorem odRaise_qtrs (idx sub v : Nat) : (odRaise s idx sub v).qtrs = s.qtrs := (odRaise_only (Within.refl _ s) (List.Subset.refl _)).only.keeps .qtrs (by decide)
@[simp] theorem odRaise_eph (idx sub v : Nat) : (odRaise s idx sub v).eph = s.eph := (odRaise_only (Within.refl _ s) (List.Subset.refl _)).only.keeps .eph (by decide)
@[simp] theorem odRaise_work (idx sub v : Nat) : (odRaise s idx sub v).work = s.work := (odRaise_only (Within.refl _ s) (List.Subset.refl _)).only.keeps .work (by decide)
@[simp] theorem odRaise_tabs (idx sub v : Nat) : (odRaise s idx sub v).tabs = s.tabs := (odRaise_only (Within.refl _ s) (List.Subset.refl _)).only.keeps .tabs (by decide)
@[simp] theorem odRaise_mem (idx sub v : Nat) : (odRaise s idx sub v).mem = s.mem := (odRaise_only (Within.refl _ s) (List.Subset.refl _)).only.keeps .mem (by decide)
@[simp] theorem odRaise_serve (idx sub v : Nat) : (odRaise s idx sub v).serve = s.serve := (odRaise_only (Within.refl _ s) (List.Subset.refl _)).only.keeps .serve (by decide)
@[simp] theorem odRaise_fab (idx sub v : Nat) : (odRaise s idx sub v).fab = s.fab := (odRaise_only (Within.refl _ s) (List.Subset.refl _)).only.keeps .fab (by decide)
@[simp] theorem odRaise_px (idx sub v : Nat) : (odRaise s idx sub v).px = s.px := (odRaise_only (Within.refl _ s) (List.Subset.refl _)).only.keeps .px (by decide)
@[simp] theorem odRaise_ptns (idx sub v : Nat) : (odRaise s idx sub v).ptns = s.ptns := (odRaise_only (Within.refl _ s) (List.Subset.refl _)).only.keeps .ptns (by decide)
@[simp] theorem odRaise_mgt (idx sub v : Nat) : (odRaise s idx sub v).mgt = s.mgt := (odRaise_only (Within.refl _ s) (List.Subset.refl _)).only.keeps .mgt (by decide)
@[simp] theorem odRaise_alm (idx sub v : Nat) : (odRaise s idx sub v).alm = s.alm := (odRaise_only (Within.refl _ s) (List.Subset.refl _)).only.keeps .alm (by decide)
@[simp] theorem odRaise_tel (idx sub v : Nat) : (odRaise s idx sub v).tel = s.tel := (odRaise_only (Within.refl _ s) (List.Subset.refl _)).only.keeps .tel (by decide)
@[simp] theorem odRaise_mer (idx sub v : Nat) : (odRaise s idx sub v).mer = s.mer := (odRaise_only (Within.refl _ s) (List.Subset.refl _)).only.keeps .mer (by decide)
@[simp] theorem odRaise_ras (idx sub v : Nat) : (odRaise s idx sub v).ras = s.ras := (odRaise_only (Within.refl _ s) (List.Subset.refl _)).only.keeps .ras (by decide)
@[simp] theorem odRaise_boot (idx sub v : Nat) : (odRaise s idx sub v).boot = s.boot := (odRaise_only (Within.refl _ s) (List.Subset.refl _)).only.keeps .boot (by decide)
@[simp] theorem odRaise_pending (idx sub v : Nat) : (odRaise s idx sub v).pending = s.pending := (odRaise_only (Within.refl _ s) (List.Subset.refl _)).only.1
@[simp] theorem msix_freeCount (fn vector : Nat) : (msix s fn vector).freeCount = s.freeCount := (msix_only (Within.refl _ s) (List.Subset.refl _)).only.keeps .freeCount (by decide)
@[simp] theorem msix_cons (fn vector : Nat) : (msix s fn vector).cons = s.cons := (msix_only (Within.refl _ s) (List.Subset.refl _)).only.keeps .cons (by decide)
@[simp] theorem msix_qtrs (fn vector : Nat) : (msix s fn vector).qtrs = s.qtrs := (msix_only (Within.refl _ s) (List.Subset.refl _)).only.keeps .qtrs (by decide)
@[simp] theorem msix_eph (fn vector : Nat) : (msix s fn vector).eph = s.eph := (msix_only (Within.refl _ s) (List.Subset.refl _)).only.keeps .eph (by decide)
@[simp] theorem msix_work (fn vector : Nat) : (msix s fn vector).work = s.work := (msix_only (Within.refl _ s) (List.Subset.refl _)).only.keeps .work (by decide)
@[simp] theorem msix_tabs (fn vector : Nat) : (msix s fn vector).tabs = s.tabs := (msix_only (Within.refl _ s) (List.Subset.refl _)).only.keeps .tabs (by decide)
@[simp] theorem msix_mem (fn vector : Nat) : (msix s fn vector).mem = s.mem := (msix_only (Within.refl _ s) (List.Subset.refl _)).only.keeps .mem (by decide)
@[simp] theorem msix_serve (fn vector : Nat) : (msix s fn vector).serve = s.serve := (msix_only (Within.refl _ s) (List.Subset.refl _)).only.keeps .serve (by decide)
@[simp] theorem msix_fab (fn vector : Nat) : (msix s fn vector).fab = s.fab := (msix_only (Within.refl _ s) (List.Subset.refl _)).only.keeps .fab (by decide)
@[simp] theorem msix_px (fn vector : Nat) : (msix s fn vector).px = s.px := (msix_only (Within.refl _ s) (List.Subset.refl _)).only.keeps .px (by decide)
@[simp] theorem msix_ptns (fn vector : Nat) : (msix s fn vector).ptns = s.ptns := (msix_only (Within.refl _ s) (List.Subset.refl _)).only.keeps .ptns (by decide)
@[simp] theorem msix_ctl (fn vector : Nat) : (msix s fn vector).ctl = s.ctl := (msix_only (Within.refl _ s) (List.Subset.refl _)).only.keeps .ctl (by decide)
@[simp] theorem msix_mgt (fn vector : Nat) : (msix s fn vector).mgt = s.mgt := (msix_only (Within.refl _ s) (List.Subset.refl _)).only.keeps .mgt (by decide)
@[simp] theorem msix_alm (fn vector : Nat) : (msix s fn vector).alm = s.alm := (msix_only (Within.refl _ s) (List.Subset.refl _)).only.keeps .alm (by decide)
@[simp] theorem msix_tel (fn vector : Nat) : (msix s fn vector).tel = s.tel := (msix_only (Within.refl _ s) (List.Subset.refl _)).only.keeps .tel (by decide)
@[simp] theorem msix_mer (fn vector : Nat) : (msix s fn vector).mer = s.mer := (msix_only (Within.refl _ s) (List.Subset.refl _)).only.keeps .mer (by decide)
@[simp] theorem msix_ras (fn vector : Nat) : (msix s fn vector).ras = s.ras := (msix_only (Within.refl _ s) (List.Subset.refl _)).only.keeps .ras (by decide)
@[simp] theorem msix_boot (fn vector : Nat) : (msix s fn vector).boot = s.boot := (msix_only (Within.refl _ s) (List.Subset.refl _)).only.keeps .boot (by decide)
@[simp] theorem msix_pending (fn vector : Nat) : (msix s fn vector).pending = s.pending := (msix_only (Within.refl _ s) (List.Subset.refl _)).only.1
@[simp] theorem setInt_freeCount (i : Nat) : (setInt s i).freeCount = s.freeCount := (setInt_only (Within.refl _ s) (List.Subset.refl _)).only.keeps .freeCount (by decide)
@[simp] theorem setInt_cons (i : Nat) : (setInt s i).cons = s.cons := (setInt_only (Within.refl _ s) (List.Subset.refl _)).only.keeps .cons (by decide)
@[simp] theorem setInt_qtrs (i : Nat) : (setInt s i).qtrs = s.qtrs := (setInt_only (Within.refl _ s) (List.Subset.refl _)).only.keeps .qtrs (by decide)
@[simp] theorem setInt_eph (i : Nat) : (setInt s i).eph = s.eph := (setInt_only (Within.refl _ s) (List.Subset.refl _)).only.keeps .eph (by decide)
@[simp] theorem setInt_work (i : Nat) : (setInt s i).work = s.work := (setInt_only (Within.refl _ s) (List.Subset.refl _)).only.keeps .work (by decide)
@[simp] theorem setInt_tabs (i : Nat) : (setInt s i).tabs = s.tabs := (setInt_only (Within.refl _ s) (List.Subset.refl _)).only.keeps .tabs (by decide)
@[simp] theorem setInt_mem (i : Nat) : (setInt s i).mem = s.mem := (setInt_only (Within.refl _ s) (List.Subset.refl _)).only.keeps .mem (by decide)
@[simp] theorem setInt_serve (i : Nat) : (setInt s i).serve = s.serve := (setInt_only (Within.refl _ s) (List.Subset.refl _)).only.keeps .serve (by decide)
@[simp] theorem setInt_fab (i : Nat) : (setInt s i).fab = s.fab := (setInt_only (Within.refl _ s) (List.Subset.refl _)).only.keeps .fab (by decide)
@[simp] theorem setInt_px (i : Nat) : (setInt s i).px = s.px := (setInt_only (Within.refl _ s) (List.Subset.refl _)).only.keeps .px (by decide)
@[simp] theorem setInt_ptns (i : Nat) : (setInt s i).ptns = s.ptns := (setInt_only (Within.refl _ s) (List.Subset.refl _)).only.keeps .ptns (by decide)
@[simp] theorem setInt_ctl (i : Nat) : (setInt s i).ctl = s.ctl := (setInt_only (Within.refl _ s) (List.Subset.refl _)).only.keeps .ctl (by decide)
@[simp] theorem setInt_mgt (i : Nat) : (setInt s i).mgt = s.mgt := (setInt_only (Within.refl _ s) (List.Subset.refl _)).only.keeps .mgt (by decide)
@[simp] theorem setInt_alm (i : Nat) : (setInt s i).alm = s.alm := (setInt_only (Within.refl _ s) (List.Subset.refl _)).only.keeps .alm (by decide)
@[simp] theorem setInt_tel (i : Nat) : (setInt s i).tel = s.tel := (setInt_only (Within.refl _ s) (List.Subset.refl _)).only.keeps .tel (by decide)
@[simp] theorem setInt_mer (i : Nat) : (setInt s i).mer = s.mer := (setInt_only (Within.refl _ s) (List.Subset.refl _)).only.keeps .mer (by decide)
@[simp] theorem setInt_ras (i : Nat) : (setInt s i).ras = s.ras := (setInt_only (Within.refl _ s) (List.Subset.refl _)).only.keeps .ras (by decide)
@[simp] theorem setInt_boot (i : Nat) : (setInt s i).boot = s.boot := (setInt_only (Within.refl _ s) (List.Subset.refl _)).only.keeps .boot (by decide)
@[simp] theorem setInt_pending (i : Nat) : (setInt s i).pending = s.pending := (setInt_only (Within.refl _ s) (List.Subset.refl _)).only.1
@[simp] theorem telPort_out (port ix n : Nat) : (telPort s port ix n).out = s.out := (telPort_only (Within.refl _ s) (List.Subset.refl _)).only.keeps .out (by decide)
@[simp] theorem telPort_freeCount (port ix n : Nat) : (telPort s port ix n).freeCount = s.freeCount := (telPort_only (Within.refl _ s) (List.Subset.refl _)).only.keeps .freeCount (by decide)
@[simp] theorem telPort_regs (port ix n : Nat) : (telPort s port ix n).regs = s.regs := (telPort_only (Within.refl _ s) (List.Subset.refl _)).only.keeps .regs (by decide)
@[simp] theorem telPort_cons (port ix n : Nat) : (telPort s port ix n).cons = s.cons := (telPort_only (Within.refl _ s) (List.Subset.refl _)).only.keeps .cons (by decide)
@[simp] theorem telPort_qtrs (port ix n : Nat) : (telPort s port ix n).qtrs = s.qtrs := (telPort_only (Within.refl _ s) (List.Subset.refl _)).only.keeps .qtrs (by decide)
@[simp] theorem telPort_eph (port ix n : Nat) : (telPort s port ix n).eph = s.eph := (telPort_only (Within.refl _ s) (List.Subset.refl _)).only.keeps .eph (by decide)
@[simp] theorem telPort_work (port ix n : Nat) : (telPort s port ix n).work = s.work := (telPort_only (Within.refl _ s) (List.Subset.refl _)).only.keeps .work (by decide)
@[simp] theorem telPort_tabs (port ix n : Nat) : (telPort s port ix n).tabs = s.tabs := (telPort_only (Within.refl _ s) (List.Subset.refl _)).only.keeps .tabs (by decide)
@[simp] theorem telPort_mem (port ix n : Nat) : (telPort s port ix n).mem = s.mem := (telPort_only (Within.refl _ s) (List.Subset.refl _)).only.keeps .mem (by decide)
@[simp] theorem telPort_serve (port ix n : Nat) : (telPort s port ix n).serve = s.serve := (telPort_only (Within.refl _ s) (List.Subset.refl _)).only.keeps .serve (by decide)
@[simp] theorem telPort_fab (port ix n : Nat) : (telPort s port ix n).fab = s.fab := (telPort_only (Within.refl _ s) (List.Subset.refl _)).only.keeps .fab (by decide)
@[simp] theorem telPort_px (port ix n : Nat) : (telPort s port ix n).px = s.px := (telPort_only (Within.refl _ s) (List.Subset.refl _)).only.keeps .px (by decide)
@[simp] theorem telPort_ptns (port ix n : Nat) : (telPort s port ix n).ptns = s.ptns := (telPort_only (Within.refl _ s) (List.Subset.refl _)).only.keeps .ptns (by decide)
@[simp] theorem telPort_ctl (port ix n : Nat) : (telPort s port ix n).ctl = s.ctl := (telPort_only (Within.refl _ s) (List.Subset.refl _)).only.keeps .ctl (by decide)
@[simp] theorem telPort_mgt (port ix n : Nat) : (telPort s port ix n).mgt = s.mgt := (telPort_only (Within.refl _ s) (List.Subset.refl _)).only.keeps .mgt (by decide)
@[simp] theorem telPort_alm (port ix n : Nat) : (telPort s port ix n).alm = s.alm := (telPort_only (Within.refl _ s) (List.Subset.refl _)).only.keeps .alm (by decide)
@[simp] theorem telPort_mer (port ix n : Nat) : (telPort s port ix n).mer = s.mer := (telPort_only (Within.refl _ s) (List.Subset.refl _)).only.keeps .mer (by decide)
@[simp] theorem telPort_ras (port ix n : Nat) : (telPort s port ix n).ras = s.ras := (telPort_only (Within.refl _ s) (List.Subset.refl _)).only.keeps .ras (by decide)
@[simp] theorem telPort_boot (port ix n : Nat) : (telPort s port ix n).boot = s.boot := (telPort_only (Within.refl _ s) (List.Subset.refl _)).only.keeps .boot (by decide)
@[simp] theorem telPort_pending (port ix n : Nat) : (telPort s port ix n).pending = s.pending := (telPort_only (Within.refl _ s) (List.Subset.refl _)).only.1
@[simp] theorem telMem_out (r ix n : Nat) : (telMem s r ix n).out = s.out := (telMem_only (Within.refl _ s) (List.Subset.refl _)).only.keeps .out (by decide)
@[simp] theorem telMem_freeCount (r ix n : Nat) : (telMem s r ix n).freeCount = s.freeCount := (telMem_only (Within.refl _ s) (List.Subset.refl _)).only.keeps .freeCount (by decide)
@[simp] theorem telMem_regs (r ix n : Nat) : (telMem s r ix n).regs = s.regs := (telMem_only (Within.refl _ s) (List.Subset.refl _)).only.keeps .regs (by decide)
@[simp] theorem telMem_cons (r ix n : Nat) : (telMem s r ix n).cons = s.cons := (telMem_only (Within.refl _ s) (List.Subset.refl _)).only.keeps .cons (by decide)
@[simp] theorem telMem_qtrs (r ix n : Nat) : (telMem s r ix n).qtrs = s.qtrs := (telMem_only (Within.refl _ s) (List.Subset.refl _)).only.keeps .qtrs (by decide)
@[simp] theorem telMem_eph (r ix n : Nat) : (telMem s r ix n).eph = s.eph := (telMem_only (Within.refl _ s) (List.Subset.refl _)).only.keeps .eph (by decide)
@[simp] theorem telMem_work (r ix n : Nat) : (telMem s r ix n).work = s.work := (telMem_only (Within.refl _ s) (List.Subset.refl _)).only.keeps .work (by decide)
@[simp] theorem telMem_tabs (r ix n : Nat) : (telMem s r ix n).tabs = s.tabs := (telMem_only (Within.refl _ s) (List.Subset.refl _)).only.keeps .tabs (by decide)
@[simp] theorem telMem_mem (r ix n : Nat) : (telMem s r ix n).mem = s.mem := (telMem_only (Within.refl _ s) (List.Subset.refl _)).only.keeps .mem (by decide)
@[simp] theorem telMem_serve (r ix n : Nat) : (telMem s r ix n).serve = s.serve := (telMem_only (Within.refl _ s) (List.Subset.refl _)).only.keeps .serve (by decide)
@[simp] theorem telMem_fab (r ix n : Nat) : (telMem s r ix n).fab = s.fab := (telMem_only (Within.refl _ s) (List.Subset.refl _)).only.keeps .fab (by decide)
@[simp] theorem telMem_px (r ix n : Nat) : (telMem s r ix n).px = s.px := (telMem_only (Within.refl _ s) (List.Subset.refl _)).only.keeps .px (by decide)
@[simp] theorem telMem_ptns (r ix n : Nat) : (telMem s r ix n).ptns = s.ptns := (telMem_only (Within.refl _ s) (List.Subset.refl _)).only.keeps .ptns (by decide)
@[simp] theorem telMem_ctl (r ix n : Nat) : (telMem s r ix n).ctl = s.ctl := (telMem_only (Within.refl _ s) (List.Subset.refl _)).only.keeps .ctl (by decide)
@[simp] theorem telMem_mgt (r ix n : Nat) : (telMem s r ix n).mgt = s.mgt := (telMem_only (Within.refl _ s) (List.Subset.refl _)).only.keeps .mgt (by decide)
@[simp] theorem telMem_alm (r ix n : Nat) : (telMem s r ix n).alm = s.alm := (telMem_only (Within.refl _ s) (List.Subset.refl _)).only.keeps .alm (by decide)
@[simp] theorem telMem_mer (r ix n : Nat) : (telMem s r ix n).mer = s.mer := (telMem_only (Within.refl _ s) (List.Subset.refl _)).only.keeps .mer (by decide)
@[simp] theorem telMem_ras (r ix n : Nat) : (telMem s r ix n).ras = s.ras := (telMem_only (Within.refl _ s) (List.Subset.refl _)).only.keeps .ras (by decide)
@[simp] theorem telMem_boot (r ix n : Nat) : (telMem s r ix n).boot = s.boot := (telMem_only (Within.refl _ s) (List.Subset.refl _)).only.keeps .boot (by decide)
@[simp] theorem telMem_pending (r ix n : Nat) : (telMem s r ix n).pending = s.pending := (telMem_only (Within.refl _ s) (List.Subset.refl _)).only.1
@[simp] theorem telAcct_out (p ix n : Nat) : (telAcct s p ix n).out = s.out := (telAcct_only (Within.refl _ s) (List.Subset.refl _)).only.keeps .out (by decide)
@[simp] theorem telAcct_freeCount (p ix n : Nat) : (telAcct s p ix n).freeCount = s.freeCount := (telAcct_only (Within.refl _ s) (List.Subset.refl _)).only.keeps .freeCount (by decide)
@[simp] theorem telAcct_regs (p ix n : Nat) : (telAcct s p ix n).regs = s.regs := (telAcct_only (Within.refl _ s) (List.Subset.refl _)).only.keeps .regs (by decide)
@[simp] theorem telAcct_cons (p ix n : Nat) : (telAcct s p ix n).cons = s.cons := (telAcct_only (Within.refl _ s) (List.Subset.refl _)).only.keeps .cons (by decide)
@[simp] theorem telAcct_qtrs (p ix n : Nat) : (telAcct s p ix n).qtrs = s.qtrs := (telAcct_only (Within.refl _ s) (List.Subset.refl _)).only.keeps .qtrs (by decide)
@[simp] theorem telAcct_eph (p ix n : Nat) : (telAcct s p ix n).eph = s.eph := (telAcct_only (Within.refl _ s) (List.Subset.refl _)).only.keeps .eph (by decide)
@[simp] theorem telAcct_work (p ix n : Nat) : (telAcct s p ix n).work = s.work := (telAcct_only (Within.refl _ s) (List.Subset.refl _)).only.keeps .work (by decide)
@[simp] theorem telAcct_tabs (p ix n : Nat) : (telAcct s p ix n).tabs = s.tabs := (telAcct_only (Within.refl _ s) (List.Subset.refl _)).only.keeps .tabs (by decide)
@[simp] theorem telAcct_mem (p ix n : Nat) : (telAcct s p ix n).mem = s.mem := (telAcct_only (Within.refl _ s) (List.Subset.refl _)).only.keeps .mem (by decide)
@[simp] theorem telAcct_serve (p ix n : Nat) : (telAcct s p ix n).serve = s.serve := (telAcct_only (Within.refl _ s) (List.Subset.refl _)).only.keeps .serve (by decide)
@[simp] theorem telAcct_fab (p ix n : Nat) : (telAcct s p ix n).fab = s.fab := (telAcct_only (Within.refl _ s) (List.Subset.refl _)).only.keeps .fab (by decide)
@[simp] theorem telAcct_px (p ix n : Nat) : (telAcct s p ix n).px = s.px := (telAcct_only (Within.refl _ s) (List.Subset.refl _)).only.keeps .px (by decide)
@[simp] theorem telAcct_ptns (p ix n : Nat) : (telAcct s p ix n).ptns = s.ptns := (telAcct_only (Within.refl _ s) (List.Subset.refl _)).only.keeps .ptns (by decide)
@[simp] theorem telAcct_ctl (p ix n : Nat) : (telAcct s p ix n).ctl = s.ctl := (telAcct_only (Within.refl _ s) (List.Subset.refl _)).only.keeps .ctl (by decide)
@[simp] theorem telAcct_mgt (p ix n : Nat) : (telAcct s p ix n).mgt = s.mgt := (telAcct_only (Within.refl _ s) (List.Subset.refl _)).only.keeps .mgt (by decide)
@[simp] theorem telAcct_alm (p ix n : Nat) : (telAcct s p ix n).alm = s.alm := (telAcct_only (Within.refl _ s) (List.Subset.refl _)).only.keeps .alm (by decide)
@[simp] theorem telAcct_mer (p ix n : Nat) : (telAcct s p ix n).mer = s.mer := (telAcct_only (Within.refl _ s) (List.Subset.refl _)).only.keeps .mer (by decide)
@[simp] theorem telAcct_ras (p ix n : Nat) : (telAcct s p ix n).ras = s.ras := (telAcct_only (Within.refl _ s) (List.Subset.refl _)).only.keeps .ras (by decide)
@[simp] theorem telAcct_boot (p ix n : Nat) : (telAcct s p ix n).boot = s.boot := (telAcct_only (Within.refl _ s) (List.Subset.refl _)).only.keeps .boot (by decide)
@[simp] theorem telAcct_pending (p ix n : Nat) : (telAcct s p ix n).pending = s.pending := (telAcct_only (Within.refl _ s) (List.Subset.refl _)).only.1
@[simp] theorem telAct_out (part : Nat) (p : Option Nat) (k n : Nat) : (telAct s part p k n).out = s.out := (telAct_only (Within.refl _ s) (List.Subset.refl _)).only.keeps .out (by decide)
@[simp] theorem telAct_freeCount (part : Nat) (p : Option Nat) (k n : Nat) : (telAct s part p k n).freeCount = s.freeCount := (telAct_only (Within.refl _ s) (List.Subset.refl _)).only.keeps .freeCount (by decide)
@[simp] theorem telAct_regs (part : Nat) (p : Option Nat) (k n : Nat) : (telAct s part p k n).regs = s.regs := (telAct_only (Within.refl _ s) (List.Subset.refl _)).only.keeps .regs (by decide)
@[simp] theorem telAct_cons (part : Nat) (p : Option Nat) (k n : Nat) : (telAct s part p k n).cons = s.cons := (telAct_only (Within.refl _ s) (List.Subset.refl _)).only.keeps .cons (by decide)
@[simp] theorem telAct_qtrs (part : Nat) (p : Option Nat) (k n : Nat) : (telAct s part p k n).qtrs = s.qtrs := (telAct_only (Within.refl _ s) (List.Subset.refl _)).only.keeps .qtrs (by decide)
@[simp] theorem telAct_eph (part : Nat) (p : Option Nat) (k n : Nat) : (telAct s part p k n).eph = s.eph := (telAct_only (Within.refl _ s) (List.Subset.refl _)).only.keeps .eph (by decide)
@[simp] theorem telAct_work (part : Nat) (p : Option Nat) (k n : Nat) : (telAct s part p k n).work = s.work := (telAct_only (Within.refl _ s) (List.Subset.refl _)).only.keeps .work (by decide)
@[simp] theorem telAct_tabs (part : Nat) (p : Option Nat) (k n : Nat) : (telAct s part p k n).tabs = s.tabs := (telAct_only (Within.refl _ s) (List.Subset.refl _)).only.keeps .tabs (by decide)
@[simp] theorem telAct_mem (part : Nat) (p : Option Nat) (k n : Nat) : (telAct s part p k n).mem = s.mem := (telAct_only (Within.refl _ s) (List.Subset.refl _)).only.keeps .mem (by decide)
@[simp] theorem telAct_serve (part : Nat) (p : Option Nat) (k n : Nat) : (telAct s part p k n).serve = s.serve := (telAct_only (Within.refl _ s) (List.Subset.refl _)).only.keeps .serve (by decide)
@[simp] theorem telAct_fab (part : Nat) (p : Option Nat) (k n : Nat) : (telAct s part p k n).fab = s.fab := (telAct_only (Within.refl _ s) (List.Subset.refl _)).only.keeps .fab (by decide)
@[simp] theorem telAct_px (part : Nat) (p : Option Nat) (k n : Nat) : (telAct s part p k n).px = s.px := (telAct_only (Within.refl _ s) (List.Subset.refl _)).only.keeps .px (by decide)
@[simp] theorem telAct_ptns (part : Nat) (p : Option Nat) (k n : Nat) : (telAct s part p k n).ptns = s.ptns := (telAct_only (Within.refl _ s) (List.Subset.refl _)).only.keeps .ptns (by decide)
@[simp] theorem telAct_ctl (part : Nat) (p : Option Nat) (k n : Nat) : (telAct s part p k n).ctl = s.ctl := (telAct_only (Within.refl _ s) (List.Subset.refl _)).only.keeps .ctl (by decide)
@[simp] theorem telAct_mgt (part : Nat) (p : Option Nat) (k n : Nat) : (telAct s part p k n).mgt = s.mgt := (telAct_only (Within.refl _ s) (List.Subset.refl _)).only.keeps .mgt (by decide)
@[simp] theorem telAct_alm (part : Nat) (p : Option Nat) (k n : Nat) : (telAct s part p k n).alm = s.alm := (telAct_only (Within.refl _ s) (List.Subset.refl _)).only.keeps .alm (by decide)
@[simp] theorem telAct_mer (part : Nat) (p : Option Nat) (k n : Nat) : (telAct s part p k n).mer = s.mer := (telAct_only (Within.refl _ s) (List.Subset.refl _)).only.keeps .mer (by decide)
@[simp] theorem telAct_ras (part : Nat) (p : Option Nat) (k n : Nat) : (telAct s part p k n).ras = s.ras := (telAct_only (Within.refl _ s) (List.Subset.refl _)).only.keeps .ras (by decide)
@[simp] theorem telAct_boot (part : Nat) (p : Option Nat) (k n : Nat) : (telAct s part p k n).boot = s.boot := (telAct_only (Within.refl _ s) (List.Subset.refl _)).only.keeps .boot (by decide)
@[simp] theorem telAct_pending (part : Nat) (p : Option Nat) (k n : Nat) : (telAct s part p k n).pending = s.pending := (telAct_only (Within.refl _ s) (List.Subset.refl _)).only.1
@[simp] theorem telDma_out (p : Option Nat) (ix n : Nat) : (telDma s p ix n).out = s.out := (telDma_only (Within.refl _ s) (List.Subset.refl _)).only.keeps .out (by decide)
@[simp] theorem telDma_freeCount (p : Option Nat) (ix n : Nat) : (telDma s p ix n).freeCount = s.freeCount := (telDma_only (Within.refl _ s) (List.Subset.refl _)).only.keeps .freeCount (by decide)
@[simp] theorem telDma_regs (p : Option Nat) (ix n : Nat) : (telDma s p ix n).regs = s.regs := (telDma_only (Within.refl _ s) (List.Subset.refl _)).only.keeps .regs (by decide)
@[simp] theorem telDma_cons (p : Option Nat) (ix n : Nat) : (telDma s p ix n).cons = s.cons := (telDma_only (Within.refl _ s) (List.Subset.refl _)).only.keeps .cons (by decide)
@[simp] theorem telDma_qtrs (p : Option Nat) (ix n : Nat) : (telDma s p ix n).qtrs = s.qtrs := (telDma_only (Within.refl _ s) (List.Subset.refl _)).only.keeps .qtrs (by decide)
@[simp] theorem telDma_eph (p : Option Nat) (ix n : Nat) : (telDma s p ix n).eph = s.eph := (telDma_only (Within.refl _ s) (List.Subset.refl _)).only.keeps .eph (by decide)
@[simp] theorem telDma_work (p : Option Nat) (ix n : Nat) : (telDma s p ix n).work = s.work := (telDma_only (Within.refl _ s) (List.Subset.refl _)).only.keeps .work (by decide)
@[simp] theorem telDma_tabs (p : Option Nat) (ix n : Nat) : (telDma s p ix n).tabs = s.tabs := (telDma_only (Within.refl _ s) (List.Subset.refl _)).only.keeps .tabs (by decide)
@[simp] theorem telDma_mem (p : Option Nat) (ix n : Nat) : (telDma s p ix n).mem = s.mem := (telDma_only (Within.refl _ s) (List.Subset.refl _)).only.keeps .mem (by decide)
@[simp] theorem telDma_serve (p : Option Nat) (ix n : Nat) : (telDma s p ix n).serve = s.serve := (telDma_only (Within.refl _ s) (List.Subset.refl _)).only.keeps .serve (by decide)
@[simp] theorem telDma_fab (p : Option Nat) (ix n : Nat) : (telDma s p ix n).fab = s.fab := (telDma_only (Within.refl _ s) (List.Subset.refl _)).only.keeps .fab (by decide)
@[simp] theorem telDma_px (p : Option Nat) (ix n : Nat) : (telDma s p ix n).px = s.px := (telDma_only (Within.refl _ s) (List.Subset.refl _)).only.keeps .px (by decide)
@[simp] theorem telDma_ptns (p : Option Nat) (ix n : Nat) : (telDma s p ix n).ptns = s.ptns := (telDma_only (Within.refl _ s) (List.Subset.refl _)).only.keeps .ptns (by decide)
@[simp] theorem telDma_ctl (p : Option Nat) (ix n : Nat) : (telDma s p ix n).ctl = s.ctl := (telDma_only (Within.refl _ s) (List.Subset.refl _)).only.keeps .ctl (by decide)
@[simp] theorem telDma_mgt (p : Option Nat) (ix n : Nat) : (telDma s p ix n).mgt = s.mgt := (telDma_only (Within.refl _ s) (List.Subset.refl _)).only.keeps .mgt (by decide)
@[simp] theorem telDma_alm (p : Option Nat) (ix n : Nat) : (telDma s p ix n).alm = s.alm := (telDma_only (Within.refl _ s) (List.Subset.refl _)).only.keeps .alm (by decide)
@[simp] theorem telDma_mer (p : Option Nat) (ix n : Nat) : (telDma s p ix n).mer = s.mer := (telDma_only (Within.refl _ s) (List.Subset.refl _)).only.keeps .mer (by decide)
@[simp] theorem telDma_ras (p : Option Nat) (ix n : Nat) : (telDma s p ix n).ras = s.ras := (telDma_only (Within.refl _ s) (List.Subset.refl _)).only.keeps .ras (by decide)
@[simp] theorem telDma_boot (p : Option Nat) (ix n : Nat) : (telDma s p ix n).boot = s.boot := (telDma_only (Within.refl _ s) (List.Subset.refl _)).only.keeps .boot (by decide)
@[simp] theorem telDma_pending (p : Option Nat) (ix n : Nat) : (telDma s p ix n).pending = s.pending := (telDma_only (Within.refl _ s) (List.Subset.refl _)).only.1
@[simp] theorem hostWrite_freeCount (p addr : Nat) (bs : List Byte) : (hostWrite s p addr bs).freeCount = s.freeCount := (hostWrite_only (Within.refl _ s) (List.Subset.refl _)).only.keeps .freeCount (by decide)
@[simp] theorem hostWrite_cons (p addr : Nat) (bs : List Byte) : (hostWrite s p addr bs).cons = s.cons := (hostWrite_only (Within.refl _ s) (List.Subset.refl _)).only.keeps .cons (by decide)
@[simp] theorem hostWrite_qtrs (p addr : Nat) (bs : List Byte) : (hostWrite s p addr bs).qtrs = s.qtrs := (hostWrite_only (Within.refl _ s) (List.Subset.refl _)).only.keeps .qtrs (by decide)
@[simp] theorem hostWrite_eph (p addr : Nat) (bs : List Byte) : (hostWrite s p addr bs).eph = s.eph := (hostWrite_only (Within.refl _ s) (List.Subset.refl _)).only.keeps .eph (by decide)
@[simp] theorem hostWrite_work (p addr : Nat) (bs : List Byte) : (hostWrite s p addr bs).work = s.work := (hostWrite_only (Within.refl _ s) (List.Subset.refl _)).only.keeps .work (by decide)
@[simp] theorem hostWrite_tabs (p addr : Nat) (bs : List Byte) : (hostWrite s p addr bs).tabs = s.tabs := (hostWrite_only (Within.refl _ s) (List.Subset.refl _)).only.keeps .tabs (by decide)
@[simp] theorem hostWrite_mem (p addr : Nat) (bs : List Byte) : (hostWrite s p addr bs).mem = s.mem := (hostWrite_only (Within.refl _ s) (List.Subset.refl _)).only.keeps .mem (by decide)
@[simp] theorem hostWrite_serve (p addr : Nat) (bs : List Byte) : (hostWrite s p addr bs).serve = s.serve := (hostWrite_only (Within.refl _ s) (List.Subset.refl _)).only.keeps .serve (by decide)
@[simp] theorem hostWrite_fab (p addr : Nat) (bs : List Byte) : (hostWrite s p addr bs).fab = s.fab := (hostWrite_only (Within.refl _ s) (List.Subset.refl _)).only.keeps .fab (by decide)
@[simp] theorem hostWrite_px (p addr : Nat) (bs : List Byte) : (hostWrite s p addr bs).px = s.px := (hostWrite_only (Within.refl _ s) (List.Subset.refl _)).only.keeps .px (by decide)
@[simp] theorem hostWrite_ptns (p addr : Nat) (bs : List Byte) : (hostWrite s p addr bs).ptns = s.ptns := (hostWrite_only (Within.refl _ s) (List.Subset.refl _)).only.keeps .ptns (by decide)
@[simp] theorem hostWrite_ctl (p addr : Nat) (bs : List Byte) : (hostWrite s p addr bs).ctl = s.ctl := (hostWrite_only (Within.refl _ s) (List.Subset.refl _)).only.keeps .ctl (by decide)
@[simp] theorem hostWrite_mgt (p addr : Nat) (bs : List Byte) : (hostWrite s p addr bs).mgt = s.mgt := (hostWrite_only (Within.refl _ s) (List.Subset.refl _)).only.keeps .mgt (by decide)
@[simp] theorem hostWrite_alm (p addr : Nat) (bs : List Byte) : (hostWrite s p addr bs).alm = s.alm := (hostWrite_only (Within.refl _ s) (List.Subset.refl _)).only.keeps .alm (by decide)
@[simp] theorem hostWrite_mer (p addr : Nat) (bs : List Byte) : (hostWrite s p addr bs).mer = s.mer := (hostWrite_only (Within.refl _ s) (List.Subset.refl _)).only.keeps .mer (by decide)
@[simp] theorem hostWrite_ras (p addr : Nat) (bs : List Byte) : (hostWrite s p addr bs).ras = s.ras := (hostWrite_only (Within.refl _ s) (List.Subset.refl _)).only.keeps .ras (by decide)
@[simp] theorem hostWrite_boot (p addr : Nat) (bs : List Byte) : (hostWrite s p addr bs).boot = s.boot := (hostWrite_only (Within.refl _ s) (List.Subset.refl _)).only.keeps .boot (by decide)
@[simp] theorem hostWrite_pending (p addr : Nat) (bs : List Byte) : (hostWrite s p addr bs).pending = s.pending := (hostWrite_only (Within.refl _ s) (List.Subset.refl _)).only.1
@[simp] theorem ringPut_freeCount (ring : Nat) (r : Rec) : (ringPut s ring r).freeCount = s.freeCount := (ringPut_only (Within.refl _ s) (List.Subset.refl _)).only.keeps .freeCount (by decide)
@[simp] theorem ringPut_cons (ring : Nat) (r : Rec) : (ringPut s ring r).cons = s.cons := (ringPut_only (Within.refl _ s) (List.Subset.refl _)).only.keeps .cons (by decide)
@[simp] theorem ringPut_qtrs (ring : Nat) (r : Rec) : (ringPut s ring r).qtrs = s.qtrs := (ringPut_only (Within.refl _ s) (List.Subset.refl _)).only.keeps .qtrs (by decide)
@[simp] theorem ringPut_eph (ring : Nat) (r : Rec) : (ringPut s ring r).eph = s.eph := (ringPut_only (Within.refl _ s) (List.Subset.refl _)).only.keeps .eph (by decide)
@[simp] theorem ringPut_work (ring : Nat) (r : Rec) : (ringPut s ring r).work = s.work := (ringPut_only (Within.refl _ s) (List.Subset.refl _)).only.keeps .work (by decide)
@[simp] theorem ringPut_tabs (ring : Nat) (r : Rec) : (ringPut s ring r).tabs = s.tabs := (ringPut_only (Within.refl _ s) (List.Subset.refl _)).only.keeps .tabs (by decide)
@[simp] theorem ringPut_mem (ring : Nat) (r : Rec) : (ringPut s ring r).mem = s.mem := (ringPut_only (Within.refl _ s) (List.Subset.refl _)).only.keeps .mem (by decide)
@[simp] theorem ringPut_serve (ring : Nat) (r : Rec) : (ringPut s ring r).serve = s.serve := (ringPut_only (Within.refl _ s) (List.Subset.refl _)).only.keeps .serve (by decide)
@[simp] theorem ringPut_fab (ring : Nat) (r : Rec) : (ringPut s ring r).fab = s.fab := (ringPut_only (Within.refl _ s) (List.Subset.refl _)).only.keeps .fab (by decide)
@[simp] theorem ringPut_px (ring : Nat) (r : Rec) : (ringPut s ring r).px = s.px := (ringPut_only (Within.refl _ s) (List.Subset.refl _)).only.keeps .px (by decide)
@[simp] theorem ringPut_ptns (ring : Nat) (r : Rec) : (ringPut s ring r).ptns = s.ptns := (ringPut_only (Within.refl _ s) (List.Subset.refl _)).only.keeps .ptns (by decide)
@[simp] theorem ringPut_ctl (ring : Nat) (r : Rec) : (ringPut s ring r).ctl = s.ctl := (ringPut_only (Within.refl _ s) (List.Subset.refl _)).only.keeps .ctl (by decide)
@[simp] theorem ringPut_mgt (ring : Nat) (r : Rec) : (ringPut s ring r).mgt = s.mgt := (ringPut_only (Within.refl _ s) (List.Subset.refl _)).only.keeps .mgt (by decide)
@[simp] theorem ringPut_alm (ring : Nat) (r : Rec) : (ringPut s ring r).alm = s.alm := (ringPut_only (Within.refl _ s) (List.Subset.refl _)).only.keeps .alm (by decide)
@[simp] theorem ringPut_mer (ring : Nat) (r : Rec) : (ringPut s ring r).mer = s.mer := (ringPut_only (Within.refl _ s) (List.Subset.refl _)).only.keeps .mer (by decide)
@[simp] theorem ringPut_ras (ring : Nat) (r : Rec) : (ringPut s ring r).ras = s.ras := (ringPut_only (Within.refl _ s) (List.Subset.refl _)).only.keeps .ras (by decide)
@[simp] theorem ringPut_boot (ring : Nat) (r : Rec) : (ringPut s ring r).boot = s.boot := (ringPut_only (Within.refl _ s) (List.Subset.refl _)).only.keeps .boot (by decide)
@[simp] theorem ringPut_pending (ring : Nat) (r : Rec) : (ringPut s ring r).pending = s.pending := (ringPut_only (Within.refl _ s) (List.Subset.refl _)).only.1
@[simp] theorem ringWrite_freeCount (ring : Nat) (r : Rec) : (ringWrite s ring r).freeCount = s.freeCount := (ringWrite_only (Within.refl _ s) (List.Subset.refl _)).only.keeps .freeCount (by decide)
@[simp] theorem ringWrite_cons (ring : Nat) (r : Rec) : (ringWrite s ring r).cons = s.cons := (ringWrite_only (Within.refl _ s) (List.Subset.refl _)).only.keeps .cons (by decide)
@[simp] theorem ringWrite_qtrs (ring : Nat) (r : Rec) : (ringWrite s ring r).qtrs = s.qtrs := (ringWrite_only (Within.refl _ s) (List.Subset.refl _)).only.keeps .qtrs (by decide)
@[simp] theorem ringWrite_eph (ring : Nat) (r : Rec) : (ringWrite s ring r).eph = s.eph := (ringWrite_only (Within.refl _ s) (List.Subset.refl _)).only.keeps .eph (by decide)
@[simp] theorem ringWrite_work (ring : Nat) (r : Rec) : (ringWrite s ring r).work = s.work := (ringWrite_only (Within.refl _ s) (List.Subset.refl _)).only.keeps .work (by decide)
@[simp] theorem ringWrite_tabs (ring : Nat) (r : Rec) : (ringWrite s ring r).tabs = s.tabs := (ringWrite_only (Within.refl _ s) (List.Subset.refl _)).only.keeps .tabs (by decide)
@[simp] theorem ringWrite_mem (ring : Nat) (r : Rec) : (ringWrite s ring r).mem = s.mem := (ringWrite_only (Within.refl _ s) (List.Subset.refl _)).only.keeps .mem (by decide)
@[simp] theorem ringWrite_serve (ring : Nat) (r : Rec) : (ringWrite s ring r).serve = s.serve := (ringWrite_only (Within.refl _ s) (List.Subset.refl _)).only.keeps .serve (by decide)
@[simp] theorem ringWrite_fab (ring : Nat) (r : Rec) : (ringWrite s ring r).fab = s.fab := (ringWrite_only (Within.refl _ s) (List.Subset.refl _)).only.keeps .fab (by decide)
@[simp] theorem ringWrite_px (ring : Nat) (r : Rec) : (ringWrite s ring r).px = s.px := (ringWrite_only (Within.refl _ s) (List.Subset.refl _)).only.keeps .px (by decide)
@[simp] theorem ringWrite_ptns (ring : Nat) (r : Rec) : (ringWrite s ring r).ptns = s.ptns := (ringWrite_only (Within.refl _ s) (List.Subset.refl _)).only.keeps .ptns (by decide)
@[simp] theorem ringWrite_ctl (ring : Nat) (r : Rec) : (ringWrite s ring r).ctl = s.ctl := (ringWrite_only (Within.refl _ s) (List.Subset.refl _)).only.keeps .ctl (by decide)
@[simp] theorem ringWrite_mgt (ring : Nat) (r : Rec) : (ringWrite s ring r).mgt = s.mgt := (ringWrite_only (Within.refl _ s) (List.Subset.refl _)).only.keeps .mgt (by decide)
@[simp] theorem ringWrite_alm (ring : Nat) (r : Rec) : (ringWrite s ring r).alm = s.alm := (ringWrite_only (Within.refl _ s) (List.Subset.refl _)).only.keeps .alm (by decide)
@[simp] theorem ringWrite_mer (ring : Nat) (r : Rec) : (ringWrite s ring r).mer = s.mer := (ringWrite_only (Within.refl _ s) (List.Subset.refl _)).only.keeps .mer (by decide)
@[simp] theorem ringWrite_ras (ring : Nat) (r : Rec) : (ringWrite s ring r).ras = s.ras := (ringWrite_only (Within.refl _ s) (List.Subset.refl _)).only.keeps .ras (by decide)
@[simp] theorem ringWrite_boot (ring : Nat) (r : Rec) : (ringWrite s ring r).boot = s.boot := (ringWrite_only (Within.refl _ s) (List.Subset.refl _)).only.keeps .boot (by decide)
@[simp] theorem ringWrite_pending (ring : Nat) (r : Rec) : (ringWrite s ring r).pending = s.pending := (ringWrite_only (Within.refl _ s) (List.Subset.refl _)).only.1
@[simp] theorem ringDrain_freeCount (ring : Nat) : (ringDrain s ring).freeCount = s.freeCount := (ringDrain_only (Within.refl _ s) (List.Subset.refl _)).only.keeps .freeCount (by decide)
@[simp] theorem ringDrain_cons (ring : Nat) : (ringDrain s ring).cons = s.cons := (ringDrain_only (Within.refl _ s) (List.Subset.refl _)).only.keeps .cons (by decide)
@[simp] theorem ringDrain_qtrs (ring : Nat) : (ringDrain s ring).qtrs = s.qtrs := (ringDrain_only (Within.refl _ s) (List.Subset.refl _)).only.keeps .qtrs (by decide)
@[simp] theorem ringDrain_eph (ring : Nat) : (ringDrain s ring).eph = s.eph := (ringDrain_only (Within.refl _ s) (List.Subset.refl _)).only.keeps .eph (by decide)
@[simp] theorem ringDrain_work (ring : Nat) : (ringDrain s ring).work = s.work := (ringDrain_only (Within.refl _ s) (List.Subset.refl _)).only.keeps .work (by decide)
@[simp] theorem ringDrain_tabs (ring : Nat) : (ringDrain s ring).tabs = s.tabs := (ringDrain_only (Within.refl _ s) (List.Subset.refl _)).only.keeps .tabs (by decide)
@[simp] theorem ringDrain_mem (ring : Nat) : (ringDrain s ring).mem = s.mem := (ringDrain_only (Within.refl _ s) (List.Subset.refl _)).only.keeps .mem (by decide)
@[simp] theorem ringDrain_fab (ring : Nat) : (ringDrain s ring).fab = s.fab := (ringDrain_only (Within.refl _ s) (List.Subset.refl _)).only.keeps .fab (by decide)
@[simp] theorem ringDrain_px (ring : Nat) : (ringDrain s ring).px = s.px := (ringDrain_only (Within.refl _ s) (List.Subset.refl _)).only.keeps .px (by decide)
@[simp] theorem ringDrain_ptns (ring : Nat) : (ringDrain s ring).ptns = s.ptns := (ringDrain_only (Within.refl _ s) (List.Subset.refl _)).only.keeps .ptns (by decide)
@[simp] theorem ringDrain_ctl (ring : Nat) : (ringDrain s ring).ctl = s.ctl := (ringDrain_only (Within.refl _ s) (List.Subset.refl _)).only.keeps .ctl (by decide)
@[simp] theorem ringDrain_mgt (ring : Nat) : (ringDrain s ring).mgt = s.mgt := (ringDrain_only (Within.refl _ s) (List.Subset.refl _)).only.keeps .mgt (by decide)
@[simp] theorem ringDrain_alm (ring : Nat) : (ringDrain s ring).alm = s.alm := (ringDrain_only (Within.refl _ s) (List.Subset.refl _)).only.keeps .alm (by decide)
@[simp] theorem ringDrain_mer (ring : Nat) : (ringDrain s ring).mer = s.mer := (ringDrain_only (Within.refl _ s) (List.Subset.refl _)).only.keeps .mer (by decide)
@[simp] theorem ringDrain_ras (ring : Nat) : (ringDrain s ring).ras = s.ras := (ringDrain_only (Within.refl _ s) (List.Subset.refl _)).only.keeps .ras (by decide)
@[simp] theorem ringDrain_boot (ring : Nat) : (ringDrain s ring).boot = s.boot := (ringDrain_only (Within.refl _ s) (List.Subset.refl _)).only.keeps .boot (by decide)
@[simp] theorem ringDrain_pending (ring : Nat) : (ringDrain s ring).pending = s.pending := (ringDrain_only (Within.refl _ s) (List.Subset.refl _)).only.1
@[simp] theorem ringTake_out (ring n : Nat) : (ringTake s ring n).out = s.out := (ringTake_only (Within.refl _ s) (List.Subset.refl _)).only.keeps .out (by decide)
@[simp] theorem ringTake_freeCount (ring n : Nat) : (ringTake s ring n).freeCount = s.freeCount := (ringTake_only (Within.refl _ s) (List.Subset.refl _)).only.keeps .freeCount (by decide)
@[simp] theorem ringTake_cons (ring n : Nat) : (ringTake s ring n).cons = s.cons := (ringTake_only (Within.refl _ s) (List.Subset.refl _)).only.keeps .cons (by decide)
@[simp] theorem ringTake_qtrs (ring n : Nat) : (ringTake s ring n).qtrs = s.qtrs := (ringTake_only (Within.refl _ s) (List.Subset.refl _)).only.keeps .qtrs (by decide)
@[simp] theorem ringTake_eph (ring n : Nat) : (ringTake s ring n).eph = s.eph := (ringTake_only (Within.refl _ s) (List.Subset.refl _)).only.keeps .eph (by decide)
@[simp] theorem ringTake_work (ring n : Nat) : (ringTake s ring n).work = s.work := (ringTake_only (Within.refl _ s) (List.Subset.refl _)).only.keeps .work (by decide)
@[simp] theorem ringTake_tabs (ring n : Nat) : (ringTake s ring n).tabs = s.tabs := (ringTake_only (Within.refl _ s) (List.Subset.refl _)).only.keeps .tabs (by decide)
@[simp] theorem ringTake_mem (ring n : Nat) : (ringTake s ring n).mem = s.mem := (ringTake_only (Within.refl _ s) (List.Subset.refl _)).only.keeps .mem (by decide)
@[simp] theorem ringTake_serve (ring n : Nat) : (ringTake s ring n).serve = s.serve := (ringTake_only (Within.refl _ s) (List.Subset.refl _)).only.keeps .serve (by decide)
@[simp] theorem ringTake_fab (ring n : Nat) : (ringTake s ring n).fab = s.fab := (ringTake_only (Within.refl _ s) (List.Subset.refl _)).only.keeps .fab (by decide)
@[simp] theorem ringTake_px (ring n : Nat) : (ringTake s ring n).px = s.px := (ringTake_only (Within.refl _ s) (List.Subset.refl _)).only.keeps .px (by decide)
@[simp] theorem ringTake_ptns (ring n : Nat) : (ringTake s ring n).ptns = s.ptns := (ringTake_only (Within.refl _ s) (List.Subset.refl _)).only.keeps .ptns (by decide)
@[simp] theorem ringTake_ctl (ring n : Nat) : (ringTake s ring n).ctl = s.ctl := (ringTake_only (Within.refl _ s) (List.Subset.refl _)).only.keeps .ctl (by decide)
@[simp] theorem ringTake_mgt (ring n : Nat) : (ringTake s ring n).mgt = s.mgt := (ringTake_only (Within.refl _ s) (List.Subset.refl _)).only.keeps .mgt (by decide)
@[simp] theorem ringTake_alm (ring n : Nat) : (ringTake s ring n).alm = s.alm := (ringTake_only (Within.refl _ s) (List.Subset.refl _)).only.keeps .alm (by decide)
@[simp] theorem ringTake_mer (ring n : Nat) : (ringTake s ring n).mer = s.mer := (ringTake_only (Within.refl _ s) (List.Subset.refl _)).only.keeps .mer (by decide)
@[simp] theorem ringTake_ras (ring n : Nat) : (ringTake s ring n).ras = s.ras := (ringTake_only (Within.refl _ s) (List.Subset.refl _)).only.keeps .ras (by decide)
@[simp] theorem ringTake_boot (ring n : Nat) : (ringTake s ring n).boot = s.boot := (ringTake_only (Within.refl _ s) (List.Subset.refl _)).only.keeps .boot (by decide)
@[simp] theorem ringTake_pending (ring n : Nat) : (ringTake s ring n).pending = s.pending := (ringTake_only (Within.refl _ s) (List.Subset.refl _)).only.1
@[simp] theorem eventTo_freeCount (ring : Nat) (e : Event) : (eventTo s ring e).freeCount = s.freeCount := (eventTo_only (Within.refl _ s) (List.Subset.refl _)).only.keeps .freeCount (by decide)
@[simp] theorem eventTo_cons (ring : Nat) (e : Event) : (eventTo s ring e).cons = s.cons := (eventTo_only (Within.refl _ s) (List.Subset.refl _)).only.keeps .cons (by decide)
@[simp] theorem eventTo_qtrs (ring : Nat) (e : Event) : (eventTo s ring e).qtrs = s.qtrs := (eventTo_only (Within.refl _ s) (List.Subset.refl _)).only.keeps .qtrs (by decide)
@[simp] theorem eventTo_eph (ring : Nat) (e : Event) : (eventTo s ring e).eph = s.eph := (eventTo_only (Within.refl _ s) (List.Subset.refl _)).only.keeps .eph (by decide)
@[simp] theorem eventTo_work (ring : Nat) (e : Event) : (eventTo s ring e).work = s.work := (eventTo_only (Within.refl _ s) (List.Subset.refl _)).only.keeps .work (by decide)
@[simp] theorem eventTo_tabs (ring : Nat) (e : Event) : (eventTo s ring e).tabs = s.tabs := (eventTo_only (Within.refl _ s) (List.Subset.refl _)).only.keeps .tabs (by decide)
@[simp] theorem eventTo_mem (ring : Nat) (e : Event) : (eventTo s ring e).mem = s.mem := (eventTo_only (Within.refl _ s) (List.Subset.refl _)).only.keeps .mem (by decide)
@[simp] theorem eventTo_serve (ring : Nat) (e : Event) : (eventTo s ring e).serve = s.serve := (eventTo_only (Within.refl _ s) (List.Subset.refl _)).only.keeps .serve (by decide)
@[simp] theorem eventTo_fab (ring : Nat) (e : Event) : (eventTo s ring e).fab = s.fab := (eventTo_only (Within.refl _ s) (List.Subset.refl _)).only.keeps .fab (by decide)
@[simp] theorem eventTo_px (ring : Nat) (e : Event) : (eventTo s ring e).px = s.px := (eventTo_only (Within.refl _ s) (List.Subset.refl _)).only.keeps .px (by decide)
@[simp] theorem eventTo_ptns (ring : Nat) (e : Event) : (eventTo s ring e).ptns = s.ptns := (eventTo_only (Within.refl _ s) (List.Subset.refl _)).only.keeps .ptns (by decide)
@[simp] theorem eventTo_ctl (ring : Nat) (e : Event) : (eventTo s ring e).ctl = s.ctl := (eventTo_only (Within.refl _ s) (List.Subset.refl _)).only.keeps .ctl (by decide)
@[simp] theorem eventTo_mgt (ring : Nat) (e : Event) : (eventTo s ring e).mgt = s.mgt := (eventTo_only (Within.refl _ s) (List.Subset.refl _)).only.keeps .mgt (by decide)
@[simp] theorem eventTo_alm (ring : Nat) (e : Event) : (eventTo s ring e).alm = s.alm := (eventTo_only (Within.refl _ s) (List.Subset.refl _)).only.keeps .alm (by decide)
@[simp] theorem eventTo_mer (ring : Nat) (e : Event) : (eventTo s ring e).mer = s.mer := (eventTo_only (Within.refl _ s) (List.Subset.refl _)).only.keeps .mer (by decide)
@[simp] theorem eventTo_ras (ring : Nat) (e : Event) : (eventTo s ring e).ras = s.ras := (eventTo_only (Within.refl _ s) (List.Subset.refl _)).only.keeps .ras (by decide)
@[simp] theorem eventTo_boot (ring : Nat) (e : Event) : (eventTo s ring e).boot = s.boot := (eventTo_only (Within.refl _ s) (List.Subset.refl _)).only.keeps .boot (by decide)
@[simp] theorem eventTo_pending (ring : Nat) (e : Event) : (eventTo s ring e).pending = s.pending := (eventTo_only (Within.refl _ s) (List.Subset.refl _)).only.1
@[simp] theorem sendFrame_freeCount (f : Frame) : (sendFrame s f).freeCount = s.freeCount := (sendFrame_only (Within.refl _ s) (List.Subset.refl _)).only.keeps .freeCount (by decide)
@[simp] theorem sendFrame_regs (f : Frame) : (sendFrame s f).regs = s.regs := (sendFrame_only (Within.refl _ s) (List.Subset.refl _)).only.keeps .regs (by decide)
@[simp] theorem sendFrame_cons (f : Frame) : (sendFrame s f).cons = s.cons := (sendFrame_only (Within.refl _ s) (List.Subset.refl _)).only.keeps .cons (by decide)
@[simp] theorem sendFrame_qtrs (f : Frame) : (sendFrame s f).qtrs = s.qtrs := (sendFrame_only (Within.refl _ s) (List.Subset.refl _)).only.keeps .qtrs (by decide)
@[simp] theorem sendFrame_eph (f : Frame) : (sendFrame s f).eph = s.eph := (sendFrame_only (Within.refl _ s) (List.Subset.refl _)).only.keeps .eph (by decide)
@[simp] theorem sendFrame_work (f : Frame) : (sendFrame s f).work = s.work := (sendFrame_only (Within.refl _ s) (List.Subset.refl _)).only.keeps .work (by decide)
@[simp] theorem sendFrame_tabs (f : Frame) : (sendFrame s f).tabs = s.tabs := (sendFrame_only (Within.refl _ s) (List.Subset.refl _)).only.keeps .tabs (by decide)
@[simp] theorem sendFrame_mem (f : Frame) : (sendFrame s f).mem = s.mem := (sendFrame_only (Within.refl _ s) (List.Subset.refl _)).only.keeps .mem (by decide)
@[simp] theorem sendFrame_serve (f : Frame) : (sendFrame s f).serve = s.serve := (sendFrame_only (Within.refl _ s) (List.Subset.refl _)).only.keeps .serve (by decide)
@[simp] theorem sendFrame_fab (f : Frame) : (sendFrame s f).fab = s.fab := (sendFrame_only (Within.refl _ s) (List.Subset.refl _)).only.keeps .fab (by decide)
@[simp] theorem sendFrame_px (f : Frame) : (sendFrame s f).px = s.px := (sendFrame_only (Within.refl _ s) (List.Subset.refl _)).only.keeps .px (by decide)
@[simp] theorem sendFrame_ptns (f : Frame) : (sendFrame s f).ptns = s.ptns := (sendFrame_only (Within.refl _ s) (List.Subset.refl _)).only.keeps .ptns (by decide)
@[simp] theorem sendFrame_mgt (f : Frame) : (sendFrame s f).mgt = s.mgt := (sendFrame_only (Within.refl _ s) (List.Subset.refl _)).only.keeps .mgt (by decide)
@[simp] theorem sendFrame_alm (f : Frame) : (sendFrame s f).alm = s.alm := (sendFrame_only (Within.refl _ s) (List.Subset.refl _)).only.keeps .alm (by decide)
@[simp] theorem sendFrame_tel (f : Frame) : (sendFrame s f).tel = s.tel := (sendFrame_only (Within.refl _ s) (List.Subset.refl _)).only.keeps .tel (by decide)
@[simp] theorem sendFrame_mer (f : Frame) : (sendFrame s f).mer = s.mer := (sendFrame_only (Within.refl _ s) (List.Subset.refl _)).only.keeps .mer (by decide)
@[simp] theorem sendFrame_ras (f : Frame) : (sendFrame s f).ras = s.ras := (sendFrame_only (Within.refl _ s) (List.Subset.refl _)).only.keeps .ras (by decide)
@[simp] theorem sendFrame_boot (f : Frame) : (sendFrame s f).boot = s.boot := (sendFrame_only (Within.refl _ s) (List.Subset.refl _)).only.keeps .boot (by decide)
@[simp] theorem sendFrame_pending (f : Frame) : (sendFrame s f).pending = s.pending := (sendFrame_only (Within.refl _ s) (List.Subset.refl _)).only.1
@[simp] theorem busEvent_freeCount (e : Event) : (busEvent s e).freeCount = s.freeCount := (busEvent_only (Within.refl _ s) (List.Subset.refl _)).only.keeps .freeCount (by decide)
@[simp] theorem busEvent_regs (e : Event) : (busEvent s e).regs = s.regs := (busEvent_only (Within.refl _ s) (List.Subset.refl _)).only.keeps .regs (by decide)
@[simp] theorem busEvent_cons (e : Event) : (busEvent s e).cons = s.cons := (busEvent_only (Within.refl _ s) (List.Subset.refl _)).only.keeps .cons (by decide)
@[simp] theorem busEvent_qtrs (e : Event) : (busEvent s e).qtrs = s.qtrs := (busEvent_only (Within.refl _ s) (List.Subset.refl _)).only.keeps .qtrs (by decide)
@[simp] theorem busEvent_eph (e : Event) : (busEvent s e).eph = s.eph := (busEvent_only (Within.refl _ s) (List.Subset.refl _)).only.keeps .eph (by decide)
@[simp] theorem busEvent_work (e : Event) : (busEvent s e).work = s.work := (busEvent_only (Within.refl _ s) (List.Subset.refl _)).only.keeps .work (by decide)
@[simp] theorem busEvent_tabs (e : Event) : (busEvent s e).tabs = s.tabs := (busEvent_only (Within.refl _ s) (List.Subset.refl _)).only.keeps .tabs (by decide)
@[simp] theorem busEvent_mem (e : Event) : (busEvent s e).mem = s.mem := (busEvent_only (Within.refl _ s) (List.Subset.refl _)).only.keeps .mem (by decide)
@[simp] theorem busEvent_serve (e : Event) : (busEvent s e).serve = s.serve := (busEvent_only (Within.refl _ s) (List.Subset.refl _)).only.keeps .serve (by decide)
@[simp] theorem busEvent_fab (e : Event) : (busEvent s e).fab = s.fab := (busEvent_only (Within.refl _ s) (List.Subset.refl _)).only.keeps .fab (by decide)
@[simp] theorem busEvent_px (e : Event) : (busEvent s e).px = s.px := (busEvent_only (Within.refl _ s) (List.Subset.refl _)).only.keeps .px (by decide)
@[simp] theorem busEvent_ptns (e : Event) : (busEvent s e).ptns = s.ptns := (busEvent_only (Within.refl _ s) (List.Subset.refl _)).only.keeps .ptns (by decide)
@[simp] theorem busEvent_alm (e : Event) : (busEvent s e).alm = s.alm := (busEvent_only (Within.refl _ s) (List.Subset.refl _)).only.keeps .alm (by decide)
@[simp] theorem busEvent_tel (e : Event) : (busEvent s e).tel = s.tel := (busEvent_only (Within.refl _ s) (List.Subset.refl _)).only.keeps .tel (by decide)
@[simp] theorem busEvent_mer (e : Event) : (busEvent s e).mer = s.mer := (busEvent_only (Within.refl _ s) (List.Subset.refl _)).only.keeps .mer (by decide)
@[simp] theorem busEvent_ras (e : Event) : (busEvent s e).ras = s.ras := (busEvent_only (Within.refl _ s) (List.Subset.refl _)).only.keeps .ras (by decide)
@[simp] theorem busEvent_boot (e : Event) : (busEvent s e).boot = s.boot := (busEvent_only (Within.refl _ s) (List.Subset.refl _)).only.keeps .boot (by decide)
@[simp] theorem busEvent_pending (e : Event) : (busEvent s e).pending = s.pending := (busEvent_only (Within.refl _ s) (List.Subset.refl _)).only.1
@[simp] theorem almQueue_out (off : Nat) (bs : List Byte) : (almQueue s off bs).out = s.out := (almQueue_only (Within.refl _ s) (List.Subset.refl _)).only.keeps .out (by decide)
@[simp] theorem almQueue_freeCount (off : Nat) (bs : List Byte) : (almQueue s off bs).freeCount = s.freeCount := (almQueue_only (Within.refl _ s) (List.Subset.refl _)).only.keeps .freeCount (by decide)
@[simp] theorem almQueue_regs (off : Nat) (bs : List Byte) : (almQueue s off bs).regs = s.regs := (almQueue_only (Within.refl _ s) (List.Subset.refl _)).only.keeps .regs (by decide)
@[simp] theorem almQueue_cons (off : Nat) (bs : List Byte) : (almQueue s off bs).cons = s.cons := (almQueue_only (Within.refl _ s) (List.Subset.refl _)).only.keeps .cons (by decide)
@[simp] theorem almQueue_qtrs (off : Nat) (bs : List Byte) : (almQueue s off bs).qtrs = s.qtrs := (almQueue_only (Within.refl _ s) (List.Subset.refl _)).only.keeps .qtrs (by decide)
@[simp] theorem almQueue_eph (off : Nat) (bs : List Byte) : (almQueue s off bs).eph = s.eph := (almQueue_only (Within.refl _ s) (List.Subset.refl _)).only.keeps .eph (by decide)
@[simp] theorem almQueue_work (off : Nat) (bs : List Byte) : (almQueue s off bs).work = s.work := (almQueue_only (Within.refl _ s) (List.Subset.refl _)).only.keeps .work (by decide)
@[simp] theorem almQueue_tabs (off : Nat) (bs : List Byte) : (almQueue s off bs).tabs = s.tabs := (almQueue_only (Within.refl _ s) (List.Subset.refl _)).only.keeps .tabs (by decide)
@[simp] theorem almQueue_mem (off : Nat) (bs : List Byte) : (almQueue s off bs).mem = s.mem := (almQueue_only (Within.refl _ s) (List.Subset.refl _)).only.keeps .mem (by decide)
@[simp] theorem almQueue_serve (off : Nat) (bs : List Byte) : (almQueue s off bs).serve = s.serve := (almQueue_only (Within.refl _ s) (List.Subset.refl _)).only.keeps .serve (by decide)
@[simp] theorem almQueue_fab (off : Nat) (bs : List Byte) : (almQueue s off bs).fab = s.fab := (almQueue_only (Within.refl _ s) (List.Subset.refl _)).only.keeps .fab (by decide)
@[simp] theorem almQueue_px (off : Nat) (bs : List Byte) : (almQueue s off bs).px = s.px := (almQueue_only (Within.refl _ s) (List.Subset.refl _)).only.keeps .px (by decide)
@[simp] theorem almQueue_ptns (off : Nat) (bs : List Byte) : (almQueue s off bs).ptns = s.ptns := (almQueue_only (Within.refl _ s) (List.Subset.refl _)).only.keeps .ptns (by decide)
@[simp] theorem almQueue_ctl (off : Nat) (bs : List Byte) : (almQueue s off bs).ctl = s.ctl := (almQueue_only (Within.refl _ s) (List.Subset.refl _)).only.keeps .ctl (by decide)
@[simp] theorem almQueue_mgt (off : Nat) (bs : List Byte) : (almQueue s off bs).mgt = s.mgt := (almQueue_only (Within.refl _ s) (List.Subset.refl _)).only.keeps .mgt (by decide)
@[simp] theorem almQueue_tel (off : Nat) (bs : List Byte) : (almQueue s off bs).tel = s.tel := (almQueue_only (Within.refl _ s) (List.Subset.refl _)).only.keeps .tel (by decide)
@[simp] theorem almQueue_mer (off : Nat) (bs : List Byte) : (almQueue s off bs).mer = s.mer := (almQueue_only (Within.refl _ s) (List.Subset.refl _)).only.keeps .mer (by decide)
@[simp] theorem almQueue_ras (off : Nat) (bs : List Byte) : (almQueue s off bs).ras = s.ras := (almQueue_only (Within.refl _ s) (List.Subset.refl _)).only.keeps .ras (by decide)
@[simp] theorem almQueue_boot (off : Nat) (bs : List Byte) : (almQueue s off bs).boot = s.boot := (almQueue_only (Within.refl _ s) (List.Subset.refl _)).only.keeps .boot (by decide)
@[simp] theorem almQueue_pending (off : Nat) (bs : List Byte) : (almQueue s off bs).pending = s.pending := (almQueue_only (Within.refl _ s) (List.Subset.refl _)).only.1
@[simp] theorem logFault_out (e : Event) : (logFault s e).out = s.out := (logFault_only (Within.refl _ s) (List.Subset.refl _)).only.keeps .out (by decide)
@[simp] theorem logFault_freeCount (e : Event) : (logFault s e).freeCount = s.freeCount := (logFault_only (Within.refl _ s) (List.Subset.refl _)).only.keeps .freeCount (by decide)
@[simp] theorem logFault_regs (e : Event) : (logFault s e).regs = s.regs := (logFault_only (Within.refl _ s) (List.Subset.refl _)).only.keeps .regs (by decide)
@[simp] theorem logFault_cons (e : Event) : (logFault s e).cons = s.cons := (logFault_only (Within.refl _ s) (List.Subset.refl _)).only.keeps .cons (by decide)
@[simp] theorem logFault_qtrs (e : Event) : (logFault s e).qtrs = s.qtrs := (logFault_only (Within.refl _ s) (List.Subset.refl _)).only.keeps .qtrs (by decide)
@[simp] theorem logFault_eph (e : Event) : (logFault s e).eph = s.eph := (logFault_only (Within.refl _ s) (List.Subset.refl _)).only.keeps .eph (by decide)
@[simp] theorem logFault_work (e : Event) : (logFault s e).work = s.work := (logFault_only (Within.refl _ s) (List.Subset.refl _)).only.keeps .work (by decide)
@[simp] theorem logFault_tabs (e : Event) : (logFault s e).tabs = s.tabs := (logFault_only (Within.refl _ s) (List.Subset.refl _)).only.keeps .tabs (by decide)
@[simp] theorem logFault_mem (e : Event) : (logFault s e).mem = s.mem := (logFault_only (Within.refl _ s) (List.Subset.refl _)).only.keeps .mem (by decide)
@[simp] theorem logFault_serve (e : Event) : (logFault s e).serve = s.serve := (logFault_only (Within.refl _ s) (List.Subset.refl _)).only.keeps .serve (by decide)
@[simp] theorem logFault_fab (e : Event) : (logFault s e).fab = s.fab := (logFault_only (Within.refl _ s) (List.Subset.refl _)).only.keeps .fab (by decide)
@[simp] theorem logFault_px (e : Event) : (logFault s e).px = s.px := (logFault_only (Within.refl _ s) (List.Subset.refl _)).only.keeps .px (by decide)
@[simp] theorem logFault_ptns (e : Event) : (logFault s e).ptns = s.ptns := (logFault_only (Within.refl _ s) (List.Subset.refl _)).only.keeps .ptns (by decide)
@[simp] theorem logFault_ctl (e : Event) : (logFault s e).ctl = s.ctl := (logFault_only (Within.refl _ s) (List.Subset.refl _)).only.keeps .ctl (by decide)
@[simp] theorem logFault_mgt (e : Event) : (logFault s e).mgt = s.mgt := (logFault_only (Within.refl _ s) (List.Subset.refl _)).only.keeps .mgt (by decide)
@[simp] theorem logFault_tel (e : Event) : (logFault s e).tel = s.tel := (logFault_only (Within.refl _ s) (List.Subset.refl _)).only.keeps .tel (by decide)
@[simp] theorem logFault_mer (e : Event) : (logFault s e).mer = s.mer := (logFault_only (Within.refl _ s) (List.Subset.refl _)).only.keeps .mer (by decide)
@[simp] theorem logFault_ras (e : Event) : (logFault s e).ras = s.ras := (logFault_only (Within.refl _ s) (List.Subset.refl _)).only.keeps .ras (by decide)
@[simp] theorem logFault_boot (e : Event) : (logFault s e).boot = s.boot := (logFault_only (Within.refl _ s) (List.Subset.refl _)).only.keeps .boot (by decide)
@[simp] theorem logFault_pending (e : Event) : (logFault s e).pending = s.pending := (logFault_only (Within.refl _ s) (List.Subset.refl _)).only.1
@[simp] theorem raisePf_freeCount (e : Event) : (raisePf s e).freeCount = s.freeCount := (raisePf_only (Within.refl _ s) (List.Subset.refl _)).only.keeps .freeCount (by decide)
@[simp] theorem raisePf_cons (e : Event) : (raisePf s e).cons = s.cons := (raisePf_only (Within.refl _ s) (List.Subset.refl _)).only.keeps .cons (by decide)
@[simp] theorem raisePf_qtrs (e : Event) : (raisePf s e).qtrs = s.qtrs := (raisePf_only (Within.refl _ s) (List.Subset.refl _)).only.keeps .qtrs (by decide)
@[simp] theorem raisePf_eph (e : Event) : (raisePf s e).eph = s.eph := (raisePf_only (Within.refl _ s) (List.Subset.refl _)).only.keeps .eph (by decide)
@[simp] theorem raisePf_work (e : Event) : (raisePf s e).work = s.work := (raisePf_only (Within.refl _ s) (List.Subset.refl _)).only.keeps .work (by decide)
@[simp] theorem raisePf_tabs (e : Event) : (raisePf s e).tabs = s.tabs := (raisePf_only (Within.refl _ s) (List.Subset.refl _)).only.keeps .tabs (by decide)
@[simp] theorem raisePf_mem (e : Event) : (raisePf s e).mem = s.mem := (raisePf_only (Within.refl _ s) (List.Subset.refl _)).only.keeps .mem (by decide)
@[simp] theorem raisePf_serve (e : Event) : (raisePf s e).serve = s.serve := (raisePf_only (Within.refl _ s) (List.Subset.refl _)).only.keeps .serve (by decide)
@[simp] theorem raisePf_fab (e : Event) : (raisePf s e).fab = s.fab := (raisePf_only (Within.refl _ s) (List.Subset.refl _)).only.keeps .fab (by decide)
@[simp] theorem raisePf_px (e : Event) : (raisePf s e).px = s.px := (raisePf_only (Within.refl _ s) (List.Subset.refl _)).only.keeps .px (by decide)
@[simp] theorem raisePf_ptns (e : Event) : (raisePf s e).ptns = s.ptns := (raisePf_only (Within.refl _ s) (List.Subset.refl _)).only.keeps .ptns (by decide)
@[simp] theorem raisePf_mer (e : Event) : (raisePf s e).mer = s.mer := (raisePf_only (Within.refl _ s) (List.Subset.refl _)).only.keeps .mer (by decide)
@[simp] theorem raisePf_ras (e : Event) : (raisePf s e).ras = s.ras := (raisePf_only (Within.refl _ s) (List.Subset.refl _)).only.keeps .ras (by decide)
@[simp] theorem raisePf_boot (e : Event) : (raisePf s e).boot = s.boot := (raisePf_only (Within.refl _ s) (List.Subset.refl _)).only.keeps .boot (by decide)
@[simp] theorem raisePf_pending (e : Event) : (raisePf s e).pending = s.pending := (raisePf_only (Within.refl _ s) (List.Subset.refl _)).only.1
@[simp] theorem raisePtn_freeCount (p : Nat) (e : Event) : (raisePtn s p e).freeCount = s.freeCount := (raisePtn_only (Within.refl _ s) (List.Subset.refl _)).only.keeps .freeCount (by decide)
@[simp] theorem raisePtn_cons (p : Nat) (e : Event) : (raisePtn s p e).cons = s.cons := (raisePtn_only (Within.refl _ s) (List.Subset.refl _)).only.keeps .cons (by decide)
@[simp] theorem raisePtn_qtrs (p : Nat) (e : Event) : (raisePtn s p e).qtrs = s.qtrs := (raisePtn_only (Within.refl _ s) (List.Subset.refl _)).only.keeps .qtrs (by decide)
@[simp] theorem raisePtn_eph (p : Nat) (e : Event) : (raisePtn s p e).eph = s.eph := (raisePtn_only (Within.refl _ s) (List.Subset.refl _)).only.keeps .eph (by decide)
@[simp] theorem raisePtn_work (p : Nat) (e : Event) : (raisePtn s p e).work = s.work := (raisePtn_only (Within.refl _ s) (List.Subset.refl _)).only.keeps .work (by decide)
@[simp] theorem raisePtn_tabs (p : Nat) (e : Event) : (raisePtn s p e).tabs = s.tabs := (raisePtn_only (Within.refl _ s) (List.Subset.refl _)).only.keeps .tabs (by decide)
@[simp] theorem raisePtn_mem (p : Nat) (e : Event) : (raisePtn s p e).mem = s.mem := (raisePtn_only (Within.refl _ s) (List.Subset.refl _)).only.keeps .mem (by decide)
@[simp] theorem raisePtn_serve (p : Nat) (e : Event) : (raisePtn s p e).serve = s.serve := (raisePtn_only (Within.refl _ s) (List.Subset.refl _)).only.keeps .serve (by decide)
@[simp] theorem raisePtn_fab (p : Nat) (e : Event) : (raisePtn s p e).fab = s.fab := (raisePtn_only (Within.refl _ s) (List.Subset.refl _)).only.keeps .fab (by decide)
@[simp] theorem raisePtn_px (p : Nat) (e : Event) : (raisePtn s p e).px = s.px := (raisePtn_only (Within.refl _ s) (List.Subset.refl _)).only.keeps .px (by decide)
@[simp] theorem raisePtn_ptns (p : Nat) (e : Event) : (raisePtn s p e).ptns = s.ptns := (raisePtn_only (Within.refl _ s) (List.Subset.refl _)).only.keeps .ptns (by decide)
@[simp] theorem raisePtn_ctl (p : Nat) (e : Event) : (raisePtn s p e).ctl = s.ctl := (raisePtn_only (Within.refl _ s) (List.Subset.refl _)).only.keeps .ctl (by decide)
@[simp] theorem raisePtn_mgt (p : Nat) (e : Event) : (raisePtn s p e).mgt = s.mgt := (raisePtn_only (Within.refl _ s) (List.Subset.refl _)).only.keeps .mgt (by decide)
@[simp] theorem raisePtn_alm (p : Nat) (e : Event) : (raisePtn s p e).alm = s.alm := (raisePtn_only (Within.refl _ s) (List.Subset.refl _)).only.keeps .alm (by decide)
@[simp] theorem raisePtn_mer (p : Nat) (e : Event) : (raisePtn s p e).mer = s.mer := (raisePtn_only (Within.refl _ s) (List.Subset.refl _)).only.keeps .mer (by decide)
@[simp] theorem raisePtn_ras (p : Nat) (e : Event) : (raisePtn s p e).ras = s.ras := (raisePtn_only (Within.refl _ s) (List.Subset.refl _)).only.keeps .ras (by decide)
@[simp] theorem raisePtn_boot (p : Nat) (e : Event) : (raisePtn s p e).boot = s.boot := (raisePtn_only (Within.refl _ s) (List.Subset.refl _)).only.keeps .boot (by decide)
@[simp] theorem raisePtn_pending (p : Nat) (e : Event) : (raisePtn s p e).pending = s.pending := (raisePtn_only (Within.refl _ s) (List.Subset.refl _)).only.1
@[simp] theorem raiseBoth_freeCount (p : Nat) (e : Event) : (raiseBoth s p e).freeCount = s.freeCount := (raiseBoth_only (Within.refl _ s) (List.Subset.refl _)).only.keeps .freeCount (by decide)
@[simp] theorem raiseBoth_cons (p : Nat) (e : Event) : (raiseBoth s p e).cons = s.cons := (raiseBoth_only (Within.refl _ s) (List.Subset.refl _)).only.keeps .cons (by decide)
@[simp] theorem raiseBoth_qtrs (p : Nat) (e : Event) : (raiseBoth s p e).qtrs = s.qtrs := (raiseBoth_only (Within.refl _ s) (List.Subset.refl _)).only.keeps .qtrs (by decide)
@[simp] theorem raiseBoth_eph (p : Nat) (e : Event) : (raiseBoth s p e).eph = s.eph := (raiseBoth_only (Within.refl _ s) (List.Subset.refl _)).only.keeps .eph (by decide)
@[simp] theorem raiseBoth_work (p : Nat) (e : Event) : (raiseBoth s p e).work = s.work := (raiseBoth_only (Within.refl _ s) (List.Subset.refl _)).only.keeps .work (by decide)
@[simp] theorem raiseBoth_tabs (p : Nat) (e : Event) : (raiseBoth s p e).tabs = s.tabs := (raiseBoth_only (Within.refl _ s) (List.Subset.refl _)).only.keeps .tabs (by decide)
@[simp] theorem raiseBoth_mem (p : Nat) (e : Event) : (raiseBoth s p e).mem = s.mem := (raiseBoth_only (Within.refl _ s) (List.Subset.refl _)).only.keeps .mem (by decide)
@[simp] theorem raiseBoth_serve (p : Nat) (e : Event) : (raiseBoth s p e).serve = s.serve := (raiseBoth_only (Within.refl _ s) (List.Subset.refl _)).only.keeps .serve (by decide)
@[simp] theorem raiseBoth_fab (p : Nat) (e : Event) : (raiseBoth s p e).fab = s.fab := (raiseBoth_only (Within.refl _ s) (List.Subset.refl _)).only.keeps .fab (by decide)
@[simp] theorem raiseBoth_px (p : Nat) (e : Event) : (raiseBoth s p e).px = s.px := (raiseBoth_only (Within.refl _ s) (List.Subset.refl _)).only.keeps .px (by decide)
@[simp] theorem raiseBoth_ptns (p : Nat) (e : Event) : (raiseBoth s p e).ptns = s.ptns := (raiseBoth_only (Within.refl _ s) (List.Subset.refl _)).only.keeps .ptns (by decide)
@[simp] theorem raiseBoth_mer (p : Nat) (e : Event) : (raiseBoth s p e).mer = s.mer := (raiseBoth_only (Within.refl _ s) (List.Subset.refl _)).only.keeps .mer (by decide)
@[simp] theorem raiseBoth_ras (p : Nat) (e : Event) : (raiseBoth s p e).ras = s.ras := (raiseBoth_only (Within.refl _ s) (List.Subset.refl _)).only.keeps .ras (by decide)
@[simp] theorem raiseBoth_boot (p : Nat) (e : Event) : (raiseBoth s p e).boot = s.boot := (raiseBoth_only (Within.refl _ s) (List.Subset.refl _)).only.keeps .boot (by decide)
@[simp] theorem raiseBoth_pending (p : Nat) (e : Event) : (raiseBoth s p e).pending = s.pending := (raiseBoth_only (Within.refl _ s) (List.Subset.refl _)).only.1
@[simp] theorem progCount_out (l ev n : Nat) : (progCount s l ev n).out = s.out := (progCount_only (Within.refl _ s) (List.Subset.refl _)).only.keeps .out (by decide)
@[simp] theorem progCount_freeCount (l ev n : Nat) : (progCount s l ev n).freeCount = s.freeCount := (progCount_only (Within.refl _ s) (List.Subset.refl _)).only.keeps .freeCount (by decide)
@[simp] theorem progCount_regs (l ev n : Nat) : (progCount s l ev n).regs = s.regs := (progCount_only (Within.refl _ s) (List.Subset.refl _)).only.keeps .regs (by decide)
@[simp] theorem progCount_cons (l ev n : Nat) : (progCount s l ev n).cons = s.cons := (progCount_only (Within.refl _ s) (List.Subset.refl _)).only.keeps .cons (by decide)
@[simp] theorem progCount_qtrs (l ev n : Nat) : (progCount s l ev n).qtrs = s.qtrs := (progCount_only (Within.refl _ s) (List.Subset.refl _)).only.keeps .qtrs (by decide)
@[simp] theorem progCount_eph (l ev n : Nat) : (progCount s l ev n).eph = s.eph := (progCount_only (Within.refl _ s) (List.Subset.refl _)).only.keeps .eph (by decide)
@[simp] theorem progCount_work (l ev n : Nat) : (progCount s l ev n).work = s.work := (progCount_only (Within.refl _ s) (List.Subset.refl _)).only.keeps .work (by decide)
@[simp] theorem progCount_tabs (l ev n : Nat) : (progCount s l ev n).tabs = s.tabs := (progCount_only (Within.refl _ s) (List.Subset.refl _)).only.keeps .tabs (by decide)
@[simp] theorem progCount_mem (l ev n : Nat) : (progCount s l ev n).mem = s.mem := (progCount_only (Within.refl _ s) (List.Subset.refl _)).only.keeps .mem (by decide)
@[simp] theorem progCount_serve (l ev n : Nat) : (progCount s l ev n).serve = s.serve := (progCount_only (Within.refl _ s) (List.Subset.refl _)).only.keeps .serve (by decide)
@[simp] theorem progCount_fab (l ev n : Nat) : (progCount s l ev n).fab = s.fab := (progCount_only (Within.refl _ s) (List.Subset.refl _)).only.keeps .fab (by decide)
@[simp] theorem progCount_px (l ev n : Nat) : (progCount s l ev n).px = s.px := (progCount_only (Within.refl _ s) (List.Subset.refl _)).only.keeps .px (by decide)
@[simp] theorem progCount_ptns (l ev n : Nat) : (progCount s l ev n).ptns = s.ptns := (progCount_only (Within.refl _ s) (List.Subset.refl _)).only.keeps .ptns (by decide)
@[simp] theorem progCount_ctl (l ev n : Nat) : (progCount s l ev n).ctl = s.ctl := (progCount_only (Within.refl _ s) (List.Subset.refl _)).only.keeps .ctl (by decide)
@[simp] theorem progCount_mgt (l ev n : Nat) : (progCount s l ev n).mgt = s.mgt := (progCount_only (Within.refl _ s) (List.Subset.refl _)).only.keeps .mgt (by decide)
@[simp] theorem progCount_alm (l ev n : Nat) : (progCount s l ev n).alm = s.alm := (progCount_only (Within.refl _ s) (List.Subset.refl _)).only.keeps .alm (by decide)
@[simp] theorem progCount_mer (l ev n : Nat) : (progCount s l ev n).mer = s.mer := (progCount_only (Within.refl _ s) (List.Subset.refl _)).only.keeps .mer (by decide)
@[simp] theorem progCount_ras (l ev n : Nat) : (progCount s l ev n).ras = s.ras := (progCount_only (Within.refl _ s) (List.Subset.refl _)).only.keeps .ras (by decide)
@[simp] theorem progCount_boot (l ev n : Nat) : (progCount s l ev n).boot = s.boot := (progCount_only (Within.refl _ s) (List.Subset.refl _)).only.keeps .boot (by decide)
@[simp] theorem progCount_pending (l ev n : Nat) : (progCount s l ev n).pending = s.pending := (progCount_only (Within.refl _ s) (List.Subset.refl _)).only.1
@[simp] theorem linkCount_out (port i n : Nat) : (linkCount s port i n).out = s.out := (linkCount_only (Within.refl _ s) (List.Subset.refl _)).only.keeps .out (by decide)
@[simp] theorem linkCount_freeCount (port i n : Nat) : (linkCount s port i n).freeCount = s.freeCount := (linkCount_only (Within.refl _ s) (List.Subset.refl _)).only.keeps .freeCount (by decide)
@[simp] theorem linkCount_cons (port i n : Nat) : (linkCount s port i n).cons = s.cons := (linkCount_only (Within.refl _ s) (List.Subset.refl _)).only.keeps .cons (by decide)
@[simp] theorem linkCount_qtrs (port i n : Nat) : (linkCount s port i n).qtrs = s.qtrs := (linkCount_only (Within.refl _ s) (List.Subset.refl _)).only.keeps .qtrs (by decide)
@[simp] theorem linkCount_eph (port i n : Nat) : (linkCount s port i n).eph = s.eph := (linkCount_only (Within.refl _ s) (List.Subset.refl _)).only.keeps .eph (by decide)
@[simp] theorem linkCount_work (port i n : Nat) : (linkCount s port i n).work = s.work := (linkCount_only (Within.refl _ s) (List.Subset.refl _)).only.keeps .work (by decide)
@[simp] theorem linkCount_tabs (port i n : Nat) : (linkCount s port i n).tabs = s.tabs := (linkCount_only (Within.refl _ s) (List.Subset.refl _)).only.keeps .tabs (by decide)
@[simp] theorem linkCount_mem (port i n : Nat) : (linkCount s port i n).mem = s.mem := (linkCount_only (Within.refl _ s) (List.Subset.refl _)).only.keeps .mem (by decide)
@[simp] theorem linkCount_serve (port i n : Nat) : (linkCount s port i n).serve = s.serve := (linkCount_only (Within.refl _ s) (List.Subset.refl _)).only.keeps .serve (by decide)
@[simp] theorem linkCount_fab (port i n : Nat) : (linkCount s port i n).fab = s.fab := (linkCount_only (Within.refl _ s) (List.Subset.refl _)).only.keeps .fab (by decide)
@[simp] theorem linkCount_px (port i n : Nat) : (linkCount s port i n).px = s.px := (linkCount_only (Within.refl _ s) (List.Subset.refl _)).only.keeps .px (by decide)
@[simp] theorem linkCount_ptns (port i n : Nat) : (linkCount s port i n).ptns = s.ptns := (linkCount_only (Within.refl _ s) (List.Subset.refl _)).only.keeps .ptns (by decide)
@[simp] theorem linkCount_ctl (port i n : Nat) : (linkCount s port i n).ctl = s.ctl := (linkCount_only (Within.refl _ s) (List.Subset.refl _)).only.keeps .ctl (by decide)
@[simp] theorem linkCount_mgt (port i n : Nat) : (linkCount s port i n).mgt = s.mgt := (linkCount_only (Within.refl _ s) (List.Subset.refl _)).only.keeps .mgt (by decide)
@[simp] theorem linkCount_alm (port i n : Nat) : (linkCount s port i n).alm = s.alm := (linkCount_only (Within.refl _ s) (List.Subset.refl _)).only.keeps .alm (by decide)
@[simp] theorem linkCount_mer (port i n : Nat) : (linkCount s port i n).mer = s.mer := (linkCount_only (Within.refl _ s) (List.Subset.refl _)).only.keeps .mer (by decide)
@[simp] theorem linkCount_ras (port i n : Nat) : (linkCount s port i n).ras = s.ras := (linkCount_only (Within.refl _ s) (List.Subset.refl _)).only.keeps .ras (by decide)
@[simp] theorem linkCount_boot (port i n : Nat) : (linkCount s port i n).boot = s.boot := (linkCount_only (Within.refl _ s) (List.Subset.refl _)).only.keeps .boot (by decide)
@[simp] theorem linkCount_pending (port i n : Nat) : (linkCount s port i n).pending = s.pending := (linkCount_only (Within.refl _ s) (List.Subset.refl _)).only.1
@[simp] theorem qsCount_out (port i : Nat) : (qsCount s port i).out = s.out := (qsCount_only (Within.refl _ s) (List.Subset.refl _)).only.keeps .out (by decide)
@[simp] theorem qsCount_freeCount (port i : Nat) : (qsCount s port i).freeCount = s.freeCount := (qsCount_only (Within.refl _ s) (List.Subset.refl _)).only.keeps .freeCount (by decide)
@[simp] theorem qsCount_cons (port i : Nat) : (qsCount s port i).cons = s.cons := (qsCount_only (Within.refl _ s) (List.Subset.refl _)).only.keeps .cons (by decide)
@[simp] theorem qsCount_qtrs (port i : Nat) : (qsCount s port i).qtrs = s.qtrs := (qsCount_only (Within.refl _ s) (List.Subset.refl _)).only.keeps .qtrs (by decide)
@[simp] theorem qsCount_eph (port i : Nat) : (qsCount s port i).eph = s.eph := (qsCount_only (Within.refl _ s) (List.Subset.refl _)).only.keeps .eph (by decide)
@[simp] theorem qsCount_work (port i : Nat) : (qsCount s port i).work = s.work := (qsCount_only (Within.refl _ s) (List.Subset.refl _)).only.keeps .work (by decide)
@[simp] theorem qsCount_tabs (port i : Nat) : (qsCount s port i).tabs = s.tabs := (qsCount_only (Within.refl _ s) (List.Subset.refl _)).only.keeps .tabs (by decide)
@[simp] theorem qsCount_mem (port i : Nat) : (qsCount s port i).mem = s.mem := (qsCount_only (Within.refl _ s) (List.Subset.refl _)).only.keeps .mem (by decide)
@[simp] theorem qsCount_serve (port i : Nat) : (qsCount s port i).serve = s.serve := (qsCount_only (Within.refl _ s) (List.Subset.refl _)).only.keeps .serve (by decide)
@[simp] theorem qsCount_fab (port i : Nat) : (qsCount s port i).fab = s.fab := (qsCount_only (Within.refl _ s) (List.Subset.refl _)).only.keeps .fab (by decide)
@[simp] theorem qsCount_px (port i : Nat) : (qsCount s port i).px = s.px := (qsCount_only (Within.refl _ s) (List.Subset.refl _)).only.keeps .px (by decide)
@[simp] theorem qsCount_ptns (port i : Nat) : (qsCount s port i).ptns = s.ptns := (qsCount_only (Within.refl _ s) (List.Subset.refl _)).only.keeps .ptns (by decide)
@[simp] theorem qsCount_ctl (port i : Nat) : (qsCount s port i).ctl = s.ctl := (qsCount_only (Within.refl _ s) (List.Subset.refl _)).only.keeps .ctl (by decide)
@[simp] theorem qsCount_mgt (port i : Nat) : (qsCount s port i).mgt = s.mgt := (qsCount_only (Within.refl _ s) (List.Subset.refl _)).only.keeps .mgt (by decide)
@[simp] theorem qsCount_alm (port i : Nat) : (qsCount s port i).alm = s.alm := (qsCount_only (Within.refl _ s) (List.Subset.refl _)).only.keeps .alm (by decide)
@[simp] theorem qsCount_mer (port i : Nat) : (qsCount s port i).mer = s.mer := (qsCount_only (Within.refl _ s) (List.Subset.refl _)).only.keeps .mer (by decide)
@[simp] theorem qsCount_ras (port i : Nat) : (qsCount s port i).ras = s.ras := (qsCount_only (Within.refl _ s) (List.Subset.refl _)).only.keeps .ras (by decide)
@[simp] theorem qsCount_boot (port i : Nat) : (qsCount s port i).boot = s.boot := (qsCount_only (Within.refl _ s) (List.Subset.refl _)).only.keeps .boot (by decide)
@[simp] theorem qsCount_pending (port i : Nat) : (qsCount s port i).pending = s.pending := (qsCount_only (Within.refl _ s) (List.Subset.refl _)).only.1
@[simp] theorem modCon_out (phys : Nat) (f : Con → Con) : (modCon s phys f).out = s.out := (modCon_only (Within.refl _ s) (List.Subset.refl _)).only.keeps .out (by decide)
@[simp] theorem modCon_freeCount (phys : Nat) (f : Con → Con) : (modCon s phys f).freeCount = s.freeCount := (modCon_only (Within.refl _ s) (List.Subset.refl _)).only.keeps .freeCount (by decide)
@[simp] theorem modCon_regs (phys : Nat) (f : Con → Con) : (modCon s phys f).regs = s.regs := (modCon_only (Within.refl _ s) (List.Subset.refl _)).only.keeps .regs (by decide)
@[simp] theorem modCon_qtrs (phys : Nat) (f : Con → Con) : (modCon s phys f).qtrs = s.qtrs := (modCon_only (Within.refl _ s) (List.Subset.refl _)).only.keeps .qtrs (by decide)
@[simp] theorem modCon_eph (phys : Nat) (f : Con → Con) : (modCon s phys f).eph = s.eph := (modCon_only (Within.refl _ s) (List.Subset.refl _)).only.keeps .eph (by decide)
@[simp] theorem modCon_work (phys : Nat) (f : Con → Con) : (modCon s phys f).work = s.work := (modCon_only (Within.refl _ s) (List.Subset.refl _)).only.keeps .work (by decide)
@[simp] theorem modCon_tabs (phys : Nat) (f : Con → Con) : (modCon s phys f).tabs = s.tabs := (modCon_only (Within.refl _ s) (List.Subset.refl _)).only.keeps .tabs (by decide)
@[simp] theorem modCon_mem (phys : Nat) (f : Con → Con) : (modCon s phys f).mem = s.mem := (modCon_only (Within.refl _ s) (List.Subset.refl _)).only.keeps .mem (by decide)
@[simp] theorem modCon_serve (phys : Nat) (f : Con → Con) : (modCon s phys f).serve = s.serve := (modCon_only (Within.refl _ s) (List.Subset.refl _)).only.keeps .serve (by decide)
@[simp] theorem modCon_fab (phys : Nat) (f : Con → Con) : (modCon s phys f).fab = s.fab := (modCon_only (Within.refl _ s) (List.Subset.refl _)).only.keeps .fab (by decide)
@[simp] theorem modCon_px (phys : Nat) (f : Con → Con) : (modCon s phys f).px = s.px := (modCon_only (Within.refl _ s) (List.Subset.refl _)).only.keeps .px (by decide)
@[simp] theorem modCon_ptns (phys : Nat) (f : Con → Con) : (modCon s phys f).ptns = s.ptns := (modCon_only (Within.refl _ s) (List.Subset.refl _)).only.keeps .ptns (by decide)
@[simp] theorem modCon_ctl (phys : Nat) (f : Con → Con) : (modCon s phys f).ctl = s.ctl := (modCon_only (Within.refl _ s) (List.Subset.refl _)).only.keeps .ctl (by decide)
@[simp] theorem modCon_mgt (phys : Nat) (f : Con → Con) : (modCon s phys f).mgt = s.mgt := (modCon_only (Within.refl _ s) (List.Subset.refl _)).only.keeps .mgt (by decide)
@[simp] theorem modCon_alm (phys : Nat) (f : Con → Con) : (modCon s phys f).alm = s.alm := (modCon_only (Within.refl _ s) (List.Subset.refl _)).only.keeps .alm (by decide)
@[simp] theorem modCon_tel (phys : Nat) (f : Con → Con) : (modCon s phys f).tel = s.tel := (modCon_only (Within.refl _ s) (List.Subset.refl _)).only.keeps .tel (by decide)
@[simp] theorem modCon_mer (phys : Nat) (f : Con → Con) : (modCon s phys f).mer = s.mer := (modCon_only (Within.refl _ s) (List.Subset.refl _)).only.keeps .mer (by decide)
@[simp] theorem modCon_ras (phys : Nat) (f : Con → Con) : (modCon s phys f).ras = s.ras := (modCon_only (Within.refl _ s) (List.Subset.refl _)).only.keeps .ras (by decide)
@[simp] theorem modCon_boot (phys : Nat) (f : Con → Con) : (modCon s phys f).boot = s.boot := (modCon_only (Within.refl _ s) (List.Subset.refl _)).only.keeps .boot (by decide)
@[simp] theorem modCon_pending (phys : Nat) (f : Con → Con) : (modCon s phys f).pending = s.pending := (modCon_only (Within.refl _ s) (List.Subset.refl _)).only.1
@[simp] theorem modQtr_out (q : Nat) (f : Quarter → Quarter) : (modQtr s q f).out = s.out := (modQtr_only (Within.refl _ s) (List.Subset.refl _)).only.keeps .out (by decide)
@[simp] theorem modQtr_freeCount (q : Nat) (f : Quarter → Quarter) : (modQtr s q f).freeCount = s.freeCount := (modQtr_only (Within.refl _ s) (List.Subset.refl _)).only.keeps .freeCount (by decide)
@[simp] theorem modQtr_regs (q : Nat) (f : Quarter → Quarter) : (modQtr s q f).regs = s.regs := (modQtr_only (Within.refl _ s) (List.Subset.refl _)).only.keeps .regs (by decide)
@[simp] theorem modQtr_cons (q : Nat) (f : Quarter → Quarter) : (modQtr s q f).cons = s.cons := (modQtr_only (Within.refl _ s) (List.Subset.refl _)).only.keeps .cons (by decide)
@[simp] theorem modQtr_eph (q : Nat) (f : Quarter → Quarter) : (modQtr s q f).eph = s.eph := (modQtr_only (Within.refl _ s) (List.Subset.refl _)).only.keeps .eph (by decide)
@[simp] theorem modQtr_work (q : Nat) (f : Quarter → Quarter) : (modQtr s q f).work = s.work := (modQtr_only (Within.refl _ s) (List.Subset.refl _)).only.keeps .work (by decide)
@[simp] theorem modQtr_tabs (q : Nat) (f : Quarter → Quarter) : (modQtr s q f).tabs = s.tabs := (modQtr_only (Within.refl _ s) (List.Subset.refl _)).only.keeps .tabs (by decide)
@[simp] theorem modQtr_mem (q : Nat) (f : Quarter → Quarter) : (modQtr s q f).mem = s.mem := (modQtr_only (Within.refl _ s) (List.Subset.refl _)).only.keeps .mem (by decide)
@[simp] theorem modQtr_serve (q : Nat) (f : Quarter → Quarter) : (modQtr s q f).serve = s.serve := (modQtr_only (Within.refl _ s) (List.Subset.refl _)).only.keeps .serve (by decide)
@[simp] theorem modQtr_fab (q : Nat) (f : Quarter → Quarter) : (modQtr s q f).fab = s.fab := (modQtr_only (Within.refl _ s) (List.Subset.refl _)).only.keeps .fab (by decide)
@[simp] theorem modQtr_px (q : Nat) (f : Quarter → Quarter) : (modQtr s q f).px = s.px := (modQtr_only (Within.refl _ s) (List.Subset.refl _)).only.keeps .px (by decide)
@[simp] theorem modQtr_ptns (q : Nat) (f : Quarter → Quarter) : (modQtr s q f).ptns = s.ptns := (modQtr_only (Within.refl _ s) (List.Subset.refl _)).only.keeps .ptns (by decide)
@[simp] theorem modQtr_ctl (q : Nat) (f : Quarter → Quarter) : (modQtr s q f).ctl = s.ctl := (modQtr_only (Within.refl _ s) (List.Subset.refl _)).only.keeps .ctl (by decide)
@[simp] theorem modQtr_mgt (q : Nat) (f : Quarter → Quarter) : (modQtr s q f).mgt = s.mgt := (modQtr_only (Within.refl _ s) (List.Subset.refl _)).only.keeps .mgt (by decide)
@[simp] theorem modQtr_alm (q : Nat) (f : Quarter → Quarter) : (modQtr s q f).alm = s.alm := (modQtr_only (Within.refl _ s) (List.Subset.refl _)).only.keeps .alm (by decide)
@[simp] theorem modQtr_tel (q : Nat) (f : Quarter → Quarter) : (modQtr s q f).tel = s.tel := (modQtr_only (Within.refl _ s) (List.Subset.refl _)).only.keeps .tel (by decide)
@[simp] theorem modQtr_mer (q : Nat) (f : Quarter → Quarter) : (modQtr s q f).mer = s.mer := (modQtr_only (Within.refl _ s) (List.Subset.refl _)).only.keeps .mer (by decide)
@[simp] theorem modQtr_ras (q : Nat) (f : Quarter → Quarter) : (modQtr s q f).ras = s.ras := (modQtr_only (Within.refl _ s) (List.Subset.refl _)).only.keeps .ras (by decide)
@[simp] theorem modQtr_boot (q : Nat) (f : Quarter → Quarter) : (modQtr s q f).boot = s.boot := (modQtr_only (Within.refl _ s) (List.Subset.refl _)).only.keeps .boot (by decide)
@[simp] theorem modQtr_pending (q : Nat) (f : Quarter → Quarter) : (modQtr s q f).pending = s.pending := (modQtr_only (Within.refl _ s) (List.Subset.refl _)).only.1
@[simp] theorem modPtn_out (p : Nat) (f : Ptn → Ptn) : (modPtn s p f).out = s.out := (modPtn_only (Within.refl _ s) (List.Subset.refl _)).only.keeps .out (by decide)
@[simp] theorem modPtn_freeCount (p : Nat) (f : Ptn → Ptn) : (modPtn s p f).freeCount = s.freeCount := (modPtn_only (Within.refl _ s) (List.Subset.refl _)).only.keeps .freeCount (by decide)
@[simp] theorem modPtn_regs (p : Nat) (f : Ptn → Ptn) : (modPtn s p f).regs = s.regs := (modPtn_only (Within.refl _ s) (List.Subset.refl _)).only.keeps .regs (by decide)
@[simp] theorem modPtn_cons (p : Nat) (f : Ptn → Ptn) : (modPtn s p f).cons = s.cons := (modPtn_only (Within.refl _ s) (List.Subset.refl _)).only.keeps .cons (by decide)
@[simp] theorem modPtn_qtrs (p : Nat) (f : Ptn → Ptn) : (modPtn s p f).qtrs = s.qtrs := (modPtn_only (Within.refl _ s) (List.Subset.refl _)).only.keeps .qtrs (by decide)
@[simp] theorem modPtn_eph (p : Nat) (f : Ptn → Ptn) : (modPtn s p f).eph = s.eph := (modPtn_only (Within.refl _ s) (List.Subset.refl _)).only.keeps .eph (by decide)
@[simp] theorem modPtn_work (p : Nat) (f : Ptn → Ptn) : (modPtn s p f).work = s.work := (modPtn_only (Within.refl _ s) (List.Subset.refl _)).only.keeps .work (by decide)
@[simp] theorem modPtn_tabs (p : Nat) (f : Ptn → Ptn) : (modPtn s p f).tabs = s.tabs := (modPtn_only (Within.refl _ s) (List.Subset.refl _)).only.keeps .tabs (by decide)
@[simp] theorem modPtn_mem (p : Nat) (f : Ptn → Ptn) : (modPtn s p f).mem = s.mem := (modPtn_only (Within.refl _ s) (List.Subset.refl _)).only.keeps .mem (by decide)
@[simp] theorem modPtn_serve (p : Nat) (f : Ptn → Ptn) : (modPtn s p f).serve = s.serve := (modPtn_only (Within.refl _ s) (List.Subset.refl _)).only.keeps .serve (by decide)
@[simp] theorem modPtn_fab (p : Nat) (f : Ptn → Ptn) : (modPtn s p f).fab = s.fab := (modPtn_only (Within.refl _ s) (List.Subset.refl _)).only.keeps .fab (by decide)
@[simp] theorem modPtn_px (p : Nat) (f : Ptn → Ptn) : (modPtn s p f).px = s.px := (modPtn_only (Within.refl _ s) (List.Subset.refl _)).only.keeps .px (by decide)
@[simp] theorem modPtn_ctl (p : Nat) (f : Ptn → Ptn) : (modPtn s p f).ctl = s.ctl := (modPtn_only (Within.refl _ s) (List.Subset.refl _)).only.keeps .ctl (by decide)
@[simp] theorem modPtn_mgt (p : Nat) (f : Ptn → Ptn) : (modPtn s p f).mgt = s.mgt := (modPtn_only (Within.refl _ s) (List.Subset.refl _)).only.keeps .mgt (by decide)
@[simp] theorem modPtn_alm (p : Nat) (f : Ptn → Ptn) : (modPtn s p f).alm = s.alm := (modPtn_only (Within.refl _ s) (List.Subset.refl _)).only.keeps .alm (by decide)
@[simp] theorem modPtn_tel (p : Nat) (f : Ptn → Ptn) : (modPtn s p f).tel = s.tel := (modPtn_only (Within.refl _ s) (List.Subset.refl _)).only.keeps .tel (by decide)
@[simp] theorem modPtn_mer (p : Nat) (f : Ptn → Ptn) : (modPtn s p f).mer = s.mer := (modPtn_only (Within.refl _ s) (List.Subset.refl _)).only.keeps .mer (by decide)
@[simp] theorem modPtn_ras (p : Nat) (f : Ptn → Ptn) : (modPtn s p f).ras = s.ras := (modPtn_only (Within.refl _ s) (List.Subset.refl _)).only.keeps .ras (by decide)
@[simp] theorem modPtn_boot (p : Nat) (f : Ptn → Ptn) : (modPtn s p f).boot = s.boot := (modPtn_only (Within.refl _ s) (List.Subset.refl _)).only.keeps .boot (by decide)
@[simp] theorem modPtn_pending (p : Nat) (f : Ptn → Ptn) : (modPtn s p f).pending = s.pending := (modPtn_only (Within.refl _ s) (List.Subset.refl _)).only.1

end Sys2Proof.Machine
end

