-- ==== Sys2Proof/Laws/FrameOps.lean ====
section
/-! SUPPORT. What each function of Machine/Ops.lean can do to the state as a whole: the parts it can change; the queue, the population and the
canonical forms it keeps. `f_only` speaks of the state that `f` answers, `f_holds` of a state inside its answer, `f_only_eq` of one taken out. -/

-- One declaration at a time: thousands of proofs in flight at once ask for more threads than fit in memory.
set_option Elab.async false

set_option linter.unusedTactic false
set_option linter.unreachableTactic false
set_option linter.unusedVariables false
set_option linter.unusedSimpArgs false
namespace Sys2Proof.Machine
open Sys2Proof
variable {pl : List Part} {sb : State}

theorem drainDma_only {s : State} {p : Nat} (hO : Within pl sb s) (hP : [.out, .regs, .serve, .tel] ⊆ pl) : Within pl sb (drainDma s p) := by
  unfold drainDma
  repeat' first
    | with_reducible assumption
    | with_reducible refine ite_only ?_ ?_
    | with_reducible refine foldl_only ?_ fun _ _ _ => ?_
    | with_reducible refine hostPut_only ?_ (subset_sub hP (by decide))
    | with_reducible refine ringDrain_only ?_ (subset_sub hP (by decide))
    | with_reducible refine modRegs_only ?_ (subset_sub hP (by decide))
    | (extract_lets +onlyGivenNames -underBinder x; refine cut_only (ps := pl) (s := sb) (a := x) ?_ ?_; unfold x; rotate_left; clear_value x; intro hx)
    | (extract_lets +onlyGivenNames -underBinder x; (try unfold x); clear x)

theorem fresh_holds {s : State} (hO : Within pl sb s) (hP : [.freeCount] ⊆ pl) : Holds (InSnd pl sb) (fresh s) := by
  unfold fresh
  repeat' first
    | with_reducible refine leaf_snd ?_
    | with_reducible assumption
    | ((with_reducible apply Within.trans); (with_reducible assumption); refine ⟨⟨rfl, fun p hq => ?_⟩, id, id, id, id, id⟩; cases p <;> first | rfl | exact absurd (hP (by decide)) hq)
theorem fresh_only_eq {s : State} {ra : Nat} {rb : State} (hO : Within pl sb s) (hP : [.freeCount] ⊆ pl) (hE : fresh s = (ra, rb)) : Within pl sb rb := by
  have k : Holds (InSnd pl sb) (fresh s) := fresh_holds (s := s) hO hP
  rw [hE] at k; exact k.of
theorem fresh_only {s : State} (hO : Within pl sb s) (hP : [.freeCount] ⊆ pl) : Within pl sb (fresh s).2 := (fresh_holds (s := s) hO hP).of

end Sys2Proof.Machine
end

