-- ==== Sys2Proof/Laws/FrameUnits.lean ====
section
/-! SUPPORT. What each function of Machine/Units.lean can do to the state as a whole: the parts it can change; the queue, the population and the
canonical forms it keeps. `f_only` speaks of the state that `f` answers, `f_holds` of a state inside its answer, `f_only_eq` of one taken out. -/

-- One declaration at a time: thousands of proofs in flight at once ask for more threads than fit in memory.
set_option Elab.async false

set_option linter.unusedTactic false
set_option linter.unreachableTactic false
set_option linter.unusedVariables false
set_option linter.unusedSimpArgs false
namespace Sys2Proof.Machine
open Sys2Proof
variable {pl : List Part} {sb : State}

theorem sramWrite_only {s : State} {k : Nat} {bs : List Byte} (hO : Within pl sb s) (hP : [.work] ⊆ pl) : Within pl sb (sramWrite s k bs) := by
  unfold sramWrite
  repeat' first
    | with_reducible assumption
    | with_reducible refine modWork_only ?_ (subset_sub hP (by decide))

theorem sramClear_only {s : State} {phys : Nat} (hO : Within pl sb s) (hP : [.work, .mem] ⊆ pl) : Within pl sb (sramClear s phys) := by
  unfold sramClear
  repeat' first
    | with_reducible assumption
    | with_reducible refine modMem_only ?_ (subset_sub hP (by decide))
    | with_reducible refine modWork_only ?_ (subset_sub hP (by decide))

theorem beginWake_only {s : State} {phys : Nat} (hO : Within pl sb s) (hP : [.cons] ⊆ pl) : Within pl sb (beginWake s phys) := by
  unfold beginWake
  repeat' first
    | with_reducible assumption
    | with_reducible refine ite_only ?_ ?_
    | with_reducible refine after_only ?_ ?_
    | with_reducible refine after_only ?_ ?_
    | with_reducible refine modCon_only ?_ (subset_sub hP (by decide))
    | (extract_lets +onlyGivenNames -underBinder x; refine cut_only (ps := pl) (s := sb) (a := x) ?_ ?_; unfold x; rotate_left; clear_value x; intro hx)
    | (extract_lets +onlyGivenNames -underBinder x; (try unfold x); clear x)
    | split

theorem fallAsleep_only {s : State} {phys : Nat} (hO : Within pl sb s) (hP : [.cons] ⊆ pl) : Within pl sb (fallAsleep s phys) := by
  unfold fallAsleep
  repeat' first
    | with_reducible assumption
    | with_reducible refine ite_only ?_ ?_
    | with_reducible refine modCon_only ?_ (subset_sub hP (by decide))
    | (extract_lets +onlyGivenNames -underBinder x; refine cut_only (ps := pl) (s := sb) (a := x) ?_ ?_; unfold x; rotate_left; clear_value x; intro hx)
    | (extract_lets +onlyGivenNames -underBinder x; (try unfold x); clear x)

theorem tryRest_only {s : State} {phys : Nat} (hO : Within pl sb s) (hP : [.cons] ⊆ pl) : Within pl sb (tryRest s phys) := by
  unfold tryRest
  repeat' first
    | with_reducible assumption
    | with_reducible refine ite_only ?_ ?_
    | with_reducible refine after_only ?_ ?_
    | with_reducible refine after_only ?_ ?_
    | with_reducible refine modCon_only ?_ (subset_sub hP (by decide))
    | (extract_lets +onlyGivenNames -underBinder x; refine cut_only (ps := pl) (s := sb) (a := x) ?_ ?_; unfold x; rotate_left; clear_value x; intro hx)
    | (extract_lets +onlyGivenNames -underBinder x; (try unfold x); clear x)
    | split

theorem restAll_only {s : State} {ls : List Nat} (hO : Within pl sb s) (hP : [.cons] ⊆ pl) : Within pl sb (restAll s ls) := by
  unfold restAll
  repeat' first
    | with_reducible assumption
    | with_reducible refine foldl_only ?_ fun _ _ _ => ?_
    | with_reducible refine tryRest_only ?_ (subset_sub hP (by decide))
    | split

theorem restIdle_only {s : State} {phys : Nat} (hO : Within pl sb s) (hP : [.cons, .work, .mem] ⊆ pl) : Within pl sb (restIdle s phys) := by
  unfold restIdle
  repeat' first
    | with_reducible assumption
    | with_reducible refine ite_only ?_ ?_
    | with_reducible refine after_only ?_ ?_
    | with_reducible refine after_only ?_ ?_
    | with_reducible refine fallAsleep_only ?_ (subset_sub hP (by decide))
    | with_reducible refine modCon_only ?_ (subset_sub hP (by decide))
    | with_reducible refine sramClear_only ?_ (subset_sub hP (by decide))
    | (extract_lets +onlyGivenNames -underBinder x; refine cut_only (ps := pl) (s := sb) (a := x) ?_ ?_; unfold x; rotate_left; clear_value x; intro hx)
    | (extract_lets +onlyGivenNames -underBinder x; (try unfold x); clear x)

theorem applyClocks_only {s : State} (hO : Within pl sb s) (hP : [.cons] ⊆ pl) : Within pl sb (applyClocks s) := by
  unfold applyClocks
  repeat' first
    | with_reducible assumption
    | with_reducible refine ite_only ?_ ?_
    | with_reducible refine modCons_only ?_ (subset_sub hP (by decide))
    | (extract_lets +onlyGivenNames -underBinder x; refine cut_only (ps := pl) (s := sb) (a := x) ?_ ?_; unfold x; rotate_left; clear_value x; intro hx)
    | (extract_lets +onlyGivenNames -underBinder x; (try unfold x); clear x)

theorem applyRails_only {s : State} (hO : Within pl sb s) (hP : [.qtrs] ⊆ pl) : Within pl sb (applyRails s) := by
  unfold applyRails
  repeat' first
    | with_reducible assumption
    | with_reducible refine ite_only ?_ ?_
    | with_reducible refine modQtrs_only ?_ (subset_sub hP (by decide))
    | (extract_lets +onlyGivenNames -underBinder x; refine cut_only (ps := pl) (s := sb) (a := x) ?_ ?_; unfold x; rotate_left; clear_value x; intro hx)
    | (extract_lets +onlyGivenNames -underBinder x; (try unfold x); clear x)

theorem wakeDone_only {s : State} {phys : Nat} (hO : Within pl sb s) (hP : [.out, .regs, .cons, .ctl, .mgt, .alm, .tel] ⊆ pl) : Within pl sb (wakeDone s phys) := by
  unfold wakeDone
  repeat' first
    | with_reducible assumption
    | with_reducible refine ite_only ?_ ?_
    | with_reducible refine bumpReg_only ?_ (subset_sub hP (by decide))
    | with_reducible refine modCon_only ?_ (subset_sub hP (by decide))
    | with_reducible refine raiseBoth_only ?_ (subset_sub hP (by decide))
    | (extract_lets +onlyGivenNames -underBinder x; refine cut_only (ps := pl) (s := sb) (a := x) ?_ ?_; unfold x; rotate_left; clear_value x; intro hx)
    | (extract_lets +onlyGivenNames -underBinder x; (try unfold x); clear x)
    | split

theorem execWakeComplete_holds {phys : Nat} {s : State} (hO : Within pl sb s) (hP : [.out, .regs, .cons, .ctl, .mgt, .alm, .tel] ⊆ pl) : Holds (InNext pl sb) (execWakeComplete phys s) := by
  unfold execWakeComplete
  repeat' first
    | with_reducible refine leaf_next ?_
    | with_reducible assumption
    | with_reducible refine wakeDone_only ?_ (subset_sub hP (by decide))
theorem execWakeComplete_only {phys : Nat} {s : State} {t : State} (hO : Within pl sb s) (hP : [.out, .regs, .cons, .ctl, .mgt, .alm, .tel] ⊆ pl) (hE : execWakeComplete phys s = .next t) : Within pl sb t := by
  have k : Holds (InNext pl sb) (execWakeComplete phys s) := execWakeComplete_holds (phys := phys) (s := s) hO hP
  rw [hE] at k; exact k.of

theorem execSleepDrainDone_holds {phys : Nat} {s : State} (hO : Within pl sb s) (hP : [.cons, .work, .mem] ⊆ pl) : Holds (InNext pl sb) (execSleepDrainDone phys s) := by
  unfold execSleepDrainDone
  repeat' first
    | with_reducible refine leaf_next ?_
    | with_reducible assumption
    | with_reducible refine ite_only ?_ ?_
    | with_reducible refine fallAsleep_only ?_ (subset_sub hP (by decide))
    | with_reducible refine restIdle_only ?_ (subset_sub hP (by decide))
theorem execSleepDrainDone_only {phys : Nat} {s : State} {t : State} (hO : Within pl sb s) (hP : [.cons, .work, .mem] ⊆ pl) (hE : execSleepDrainDone phys s = .next t) : Within pl sb t := by
  have k : Holds (InNext pl sb) (execSleepDrainDone phys s) := execSleepDrainDone_holds (phys := phys) (s := s) hO hP
  rw [hE] at k; exact k.of

theorem execSramInitDone_holds {phys : Nat} {s : State} (hO : Within pl sb s) (hP : [.cons, .work, .mem] ⊆ pl) : Holds (InNext pl sb) (execSramInitDone phys s) := by
  unfold execSramInitDone
  repeat' first
    | with_reducible refine leaf_next ?_
    | with_reducible assumption
    | with_reducible refine ite_only ?_ ?_
    | with_reducible refine fallAsleep_only ?_ (subset_sub hP (by decide))
    | with_reducible refine modCon_only ?_ (subset_sub hP (by decide))
    | with_reducible refine sramClear_only ?_ (subset_sub hP (by decide))
    | (extract_lets +onlyGivenNames -underBinder x; refine cut_only (ps := pl) (s := sb) (a := x) ?_ ?_; unfold x; rotate_left; clear_value x; intro hx)
    | (extract_lets +onlyGivenNames -underBinder x; (try unfold x); clear x)
theorem execSramInitDone_only {phys : Nat} {s : State} {t : State} (hO : Within pl sb s) (hP : [.cons, .work, .mem] ⊆ pl) (hE : execSramInitDone phys s = .next t) : Within pl sb t := by
  have k : Holds (InNext pl sb) (execSramInitDone phys s) := execSramInitDone_holds (phys := phys) (s := s) hO hP
  rw [hE] at k; exact k.of

theorem execRailSettled_holds {quarter : Nat} {s : State} (hO : Within pl sb s) (hP : [.qtrs] ⊆ pl) : Holds (InNext pl sb) (execRailSettled quarter s) := by
  unfold execRailSettled
  repeat' first
    | with_reducible refine leaf_next ?_
    | with_reducible assumption
    | with_reducible refine modQtr_only ?_ (subset_sub hP (by decide))
theorem execRailSettled_only {quarter : Nat} {s : State} {t : State} (hO : Within pl sb s) (hP : [.qtrs] ⊆ pl) (hE : execRailSettled quarter s = .next t) : Within pl sb t := by
  have k : Holds (InNext pl sb) (execRailSettled quarter s) := execRailSettled_holds (quarter := quarter) (s := s) hO hP
  rw [hE] at k; exact k.of

end Sys2Proof.Machine
end

