-- ==== Sys2Proof/Laws/FrameTier.lean ====
section
/-! SUPPORT. What each function of Machine/Tier.lean can do to the state as a whole: the parts it can change; the queue, the population and the
canonical forms it keeps. `f_only` speaks of the state that `f` answers, `f_holds` of a state inside its answer, `f_only_eq` of one taken out. -/

-- One declaration at a time: thousands of proofs in flight at once ask for more threads than fit in memory.
set_option Elab.async false

set_option linter.unusedTactic false
set_option linter.unreachableTactic false
set_option linter.unusedVariables false
set_option linter.unusedSimpArgs false
namespace Sys2Proof.Machine
open Sys2Proof
variable {pl : List Part} {sb : State}

theorem tierWrite_only {s : State} {addr : Nat} {bs : List Byte} (hO : Within pl sb s) (hP : [.mem] ⊆ pl) : Within pl sb (tierWrite s addr bs) := by
  unfold tierWrite
  repeat' first
    | with_reducible assumption
    | with_reducible refine ite_only ?_ ?_
    | with_reducible refine foldl_only ?_ fun _ _ _ => ?_
    | with_reducible refine modMem_only ?_ (subset_sub hP (by decide))

theorem tierSetPoison_only {s : State} {addr : Nat} {ws : List Nat} (hO : Within pl sb s) (hP : [.mem] ⊆ pl) : Within pl sb (tierSetPoison s addr ws) := by
  unfold tierSetPoison
  repeat' first
    | with_reducible assumption
    | with_reducible refine foldl_only ?_ fun _ _ _ => ?_
    | with_reducible refine modMem_only ?_ (subset_sub hP (by decide))

theorem sramSetPoison_only {s : State} {key : Nat} {ws : List Nat} (hO : Within pl sb s) (hP : [.work] ⊆ pl) : Within pl sb (sramSetPoison s key ws) := by
  unfold sramSetPoison
  repeat' first
    | with_reducible assumption
    | with_reducible refine foldl_only ?_ fun _ _ _ => ?_
    | with_reducible refine modWork_only ?_ (subset_sub hP (by decide))

theorem tierWriteP_only {s : State} {addr : Nat} {bs : List Byte} {ws : List Nat} (hO : Within pl sb s) (hP : [.mem] ⊆ pl) : Within pl sb (tierWriteP s addr bs ws) := by
  unfold tierWriteP
  repeat' first
    | with_reducible assumption
    | with_reducible refine tierSetPoison_only ?_ (subset_sub hP (by decide))
    | with_reducible refine tierWrite_only ?_ (subset_sub hP (by decide))

theorem sramWriteP_only {s : State} {key : Nat} {bs : List Byte} {ws : List Nat} (hO : Within pl sb s) (hP : [.work] ⊆ pl) : Within pl sb (sramWriteP s key bs ws) := by
  unfold sramWriteP
  repeat' first
    | with_reducible assumption
    | with_reducible refine sramSetPoison_only ?_ (subset_sub hP (by decide))
    | with_reducible refine sramWrite_only ?_ (subset_sub hP (by decide))

theorem countTile_only {s : State} {p : Option Nat} {t : Nat} {w : Bool} (hO : Within pl sb s) (hP : [.tel] ⊆ pl) : Within pl sb (countTile s p t w) := by
  unfold countTile
  repeat' first
    | with_reducible assumption
    | with_reducible refine ite_only ?_ ?_
    | with_reducible refine telAcct_only ?_ (subset_sub hP (by decide))
    | with_reducible refine telAct_only ?_ (subset_sub hP (by decide))
    | with_reducible refine telMem_only ?_ (subset_sub hP (by decide))
    | (extract_lets +onlyGivenNames -underBinder x; refine cut_only (ps := pl) (s := sb) (a := x) ?_ ?_; unfold x; rotate_left; clear_value x; intro hx)
    | (extract_lets +onlyGivenNames -underBinder x; (try unfold x); clear x)
    | split

theorem countTiles_only {s : State} {p : Option Nat} {t n : Nat} {w : Bool} (hO : Within pl sb s) (hP : [.tel] ⊆ pl) : Within pl sb (countTiles s p t n w) := by
  unfold countTiles
  repeat' first
    | with_reducible assumption
    | with_reducible refine foldl_only ?_ fun _ _ _ => ?_
    | with_reducible refine countTile_only ?_ (subset_sub hP (by decide))

theorem countCopies_only {s s' : State} {p : Nat} (hO : Within pl sb s') (hP : [.tel] ⊆ pl) : Within pl sb (countCopies s s' p) := by
  unfold countCopies
  repeat' first
    | with_reducible assumption
    | with_reducible refine ite_only ?_ ?_
    | with_reducible refine foldl_only ?_ fun _ _ _ => ?_
    | with_reducible refine countTiles_only ?_ (subset_sub hP (by decide))
    | (extract_lets +onlyGivenNames -underBinder x; refine cut_only (ps := pl) (s := sb) (a := x) ?_ ?_; unfold x; rotate_left; clear_value x; intro hx)
    | (extract_lets +onlyGivenNames -underBinder x; (try unfold x); clear x)
    | split

theorem tierClear_only {s : State} {tile n : Nat} (hO : Within pl sb s) (hP : [.mem] ⊆ pl) : Within pl sb (tierClear s tile n) := by
  unfold tierClear
  repeat' first
    | with_reducible assumption
    | with_reducible refine modMem_only ?_ (subset_sub hP (by decide))

theorem takeRoom_only {s : State} {p tile n : Nat} (hO : Within pl sb s) (hP : [.mem] ⊆ pl) : Within pl sb (takeRoom s p tile n) := by
  unfold takeRoom
  repeat' first
    | with_reducible assumption
    | with_reducible refine ite_only ?_ ?_
    | with_reducible refine modMem_only ?_ (subset_sub hP (by decide))

theorem allocTiles_only_eq {s : State} {p : Nat} {far : Bool} {spread q n a : Nat} {b : State} (h : Within pl sb s) (hp : [.mem] ⊆ pl)
    (e : allocTiles s p far spread q n = some (a, b)) : Within pl sb b := by
  unfold allocTiles at e
  cases hf : findRoom s p far spread q false n with
  | none => rw [hf] at e; cases e
  | some r => rw [hf] at e; cases e; exact takeRoom_only h (subset_sub hp (by decide))

theorem allocTiles_holds {s : State} {p : Nat} {far : Bool} {spread q n : Nat} (h : Within pl sb s) (hp : [.mem] ⊆ pl) :
    Holds (InSome (InSnd pl sb)) (allocTiles s p far spread q n) := by
  cases e : allocTiles s p far spread q n with
  | none => exact leaf_none
  | some r => exact leaf_some (leaf_snd (allocTiles_only_eq h hp e))

theorem freeTiles_only {s : State} {p tile : Nat} (hO : Within pl sb s) (hP : [.mem] ⊆ pl) : Within pl sb (freeTiles s p tile) := by
  unfold freeTiles
  repeat' first
    | with_reducible assumption
    | with_reducible refine ite_only ?_ ?_
    | with_reducible refine modMem_only ?_ (subset_sub hP (by decide))

theorem mbxPut_only {s : State} {off lo n v : Nat} (hO : Within pl sb s) (hP : [.regs] ⊆ pl) : Within pl sb (mbxPut s off lo n v) := by
  unfold mbxPut
  repeat' first
    | with_reducible assumption
    | with_reducible refine setReg_only ?_ (subset_sub hP (by decide))
    | (extract_lets +onlyGivenNames -underBinder x; refine cut_only (ps := pl) (s := sb) (a := x) ?_ ?_; unfold x; rotate_left; clear_value x; intro hx)
    | (extract_lets +onlyGivenNames -underBinder x; (try unfold x); clear x)

theorem mbxDone_only {s : State} {v : View} {i : Nat} (hO : Within pl sb s) (hP : [.regs] ⊆ pl) : Within pl sb (mbxDone s v i) := by
  unfold mbxDone
  repeat' first
    | with_reducible assumption
    | with_reducible refine setReg_only ?_ (subset_sub hP (by decide))

theorem countAccess_only {s : State} {p : Nat} (hO : Within pl sb s) (hP : [.ctl] ⊆ pl) : Within pl sb (countAccess s p) := by
  unfold countAccess
  repeat' first
    | with_reducible assumption
    | with_reducible refine odCount_only ?_ (subset_sub hP (by decide))

theorem allocAnswer_only {s : State} {v : View} {status placed : Nat} {addr : Option Nat} (hO : Within pl sb s) (hP : [.regs] ⊆ pl) : Within pl sb (allocAnswer s v status placed addr) := by
  unfold allocAnswer
  repeat' first
    | with_reducible assumption
    | with_reducible refine mbxDone_only ?_ (subset_sub hP (by decide))
    | with_reducible refine mbxPut_only ?_ (subset_sub hP (by decide))
    | (extract_lets +onlyGivenNames -underBinder x; refine cut_only (ps := pl) (s := sb) (a := x) ?_ ?_; unfold x; rotate_left; clear_value x; intro hx)
    | (extract_lets +onlyGivenNames -underBinder x; (try unfold x); clear x)
    | split

theorem execAllocRequest_holds {v : View} {s : State} (hO : Within pl sb s) (hP : [.regs, .mem, .serve, .ctl] ⊆ pl) : Holds (InNext pl sb) (execAllocRequest v s) := by
  unfold execAllocRequest
  repeat' first
    | with_reducible refine leaf_next ?_
    | with_reducible assumption
    | with_reducible refine ite_only ?_ ?_
    | with_reducible refine allocAnswer_only ?_ (subset_sub hP (by decide))
    | with_reducible refine countAccess_only ?_ (subset_sub hP (by decide))
    | with_reducible refine takeRoom_only ?_ (subset_sub hP (by decide))
    | with_reducible refine modServe_only ?_ (subset_sub hP (by decide))
    | (extract_lets +onlyGivenNames -underBinder x; refine cut_only (ps := pl) (s := sb) (a := x) ?_ ?_; unfold x; rotate_left; clear_value x; intro hx)
    | (extract_lets +onlyGivenNames -underBinder x; (try unfold x); clear x)
    | split
theorem execAllocRequest_only {v : View} {s : State} {t : State} (hO : Within pl sb s) (hP : [.regs, .mem, .serve, .ctl] ⊆ pl) (hE : execAllocRequest v s = .next t) : Within pl sb t := by
  have k : Holds (InNext pl sb) (execAllocRequest v s) := execAllocRequest_holds (v := v) (s := s) hO hP
  rw [hE] at k; exact k.of

theorem execFreeRequest_holds {v : View} {s : State} (hO : Within pl sb s) (hP : [.regs, .mem, .ctl] ⊆ pl) : Holds (InNext pl sb) (execFreeRequest v s) := by
  unfold execFreeRequest
  repeat' first
    | with_reducible refine leaf_next ?_
    | with_reducible assumption
    | with_reducible refine ite_only ?_ ?_
    | with_reducible refine allocAnswer_only ?_ (subset_sub hP (by decide))
    | with_reducible refine countAccess_only ?_ (subset_sub hP (by decide))
    | with_reducible refine freeTiles_only ?_ (subset_sub hP (by decide))
    | (extract_lets +onlyGivenNames -underBinder x; refine cut_only (ps := pl) (s := sb) (a := x) ?_ ?_; unfold x; rotate_left; clear_value x; intro hx)
    | (extract_lets +onlyGivenNames -underBinder x; (try unfold x); clear x)
    | split
theorem execFreeRequest_only {v : View} {s : State} {t : State} (hO : Within pl sb s) (hP : [.regs, .mem, .ctl] ⊆ pl) (hE : execFreeRequest v s = .next t) : Within pl sb t := by
  have k : Holds (InNext pl sb) (execFreeRequest v s) := execFreeRequest_holds (v := v) (s := s) hO hP
  rw [hE] at k; exact k.of

theorem execRefreshWindow_holds {sec ent : Nat} {s : State} (hO : Within pl sb s) (hP : [.eph, .mem, .tel] ⊆ pl) : Holds (InNext pl sb) (execRefreshWindow sec ent s) := by
  unfold execRefreshWindow
  repeat' first
    | with_reducible refine leaf_next ?_
    | with_reducible assumption
    | with_reducible refine ite_only ?_ ?_
    | with_reducible refine telMem_only ?_ (subset_sub hP (by decide))
    | with_reducible refine modEph_only ?_ (subset_sub hP (by decide))
    | with_reducible refine modMem_only ?_ (subset_sub hP (by decide))
    | (extract_lets +onlyGivenNames -underBinder x; refine cut_only (ps := pl) (s := sb) (a := x) ?_ ?_; unfold x; rotate_left; clear_value x; intro hx)
    | (extract_lets +onlyGivenNames -underBinder x; (try unfold x); clear x)
    | split
theorem execRefreshWindow_only {sec ent : Nat} {s : State} {t : State} (hO : Within pl sb s) (hP : [.eph, .mem, .tel] ⊆ pl) (hE : execRefreshWindow sec ent s = .next t) : Within pl sb t := by
  have k : Holds (InNext pl sb) (execRefreshWindow sec ent s) := execRefreshWindow_holds (sec := sec) (ent := ent) (s := s) hO hP
  rw [hE] at k; exact k.of

theorem execRecalMemWindow_holds {sec ent : Nat} {s : State} (hO : Within pl sb s) (hP : [.eph, .tel] ⊆ pl) : Holds (InNext pl sb) (execRecalMemWindow sec ent s) := by
  unfold execRecalMemWindow
  repeat' first
    | with_reducible refine leaf_next ?_
    | with_reducible assumption
    | with_reducible refine ite_only ?_ ?_
    | with_reducible refine telMem_only ?_ (subset_sub hP (by decide))
    | with_reducible refine modEph_only ?_ (subset_sub hP (by decide))
    | split
theorem execRecalMemWindow_only {sec ent : Nat} {s : State} {t : State} (hO : Within pl sb s) (hP : [.eph, .tel] ⊆ pl) (hE : execRecalMemWindow sec ent s = .next t) : Within pl sb t := by
  have k : Holds (InNext pl sb) (execRecalMemWindow sec ent s) := execRecalMemWindow_holds (sec := sec) (ent := ent) (s := s) hO hP
  rw [hE] at k; exact k.of

theorem cross_only {s : State} {p id : Nat} {bs : List Nat} (hO : Within pl sb s) (hP : [.eph] ⊆ pl) : Within pl sb (cross s p id bs) := by
  unfold cross
  repeat' first
    | with_reducible assumption
    | with_reducible refine ite_only ?_ ?_
    | with_reducible refine foldl_only ?_ fun _ _ _ => ?_
    | with_reducible refine modEph_only ?_ (subset_sub hP (by decide))

theorem passTiles_only_eq {s : State} {p l t id : Nat} {load : Bool} {n : Nat} {ra : State} (h : Within pl sb s) (hP : [.eph, .tel] ⊆ pl)
    (e : passTiles s p l t id load n = some ra) : Within pl sb ra := by
  induction n generalizing ra with
  | zero => cases e; exact h
  | succ n ih =>
    unfold passTiles at e
    obtain ⟨u, hu, e⟩ := Option.bind_eq_some_iff.mp e
    have hw := ih hu
    dsimp only at e
    split at e
    · cases e
    · cases e
      exact ite_only (telMem_only (cross_only hw (subset_sub hP (by decide))) (subset_sub hP (by decide))) (cross_only hw (subset_sub hP (by decide)))
theorem passTiles_holds {s : State} {p l t id : Nat} {load : Bool} {n : Nat} (h : Within pl sb s) (hP : [.eph, .tel] ⊆ pl) :
    Holds (InSome (Within pl sb)) (passTiles s p l t id load n) := by
  cases e : passTiles s p l t id load n with
  | none => exact leaf_none
  | some r => exact leaf_some (leaf_only (passTiles_only_eq h hP e))

theorem execSelfRefreshEntry_holds {resource : Nat} {s : State} (hO : Within pl sb s) (hP : [.mem] ⊆ pl) : Holds (InNext pl sb) (execSelfRefreshEntry resource s) := by
  unfold execSelfRefreshEntry
  repeat' first
    | with_reducible refine leaf_next ?_
    | with_reducible assumption
    | with_reducible refine ite_only ?_ ?_
    | with_reducible refine modMem_only ?_ (subset_sub hP (by decide))
theorem execSelfRefreshEntry_only {resource : Nat} {s : State} {t : State} (hO : Within pl sb s) (hP : [.mem] ⊆ pl) (hE : execSelfRefreshEntry resource s = .next t) : Within pl sb t := by
  have k : Holds (InNext pl sb) (execSelfRefreshEntry resource s) := execSelfRefreshEntry_holds (resource := resource) (s := s) hO hP
  rw [hE] at k; exact k.of

theorem wakeMem_only {s : State} (hO : Within pl sb s) (hP : [.mem] ⊆ pl) : Within pl sb (wakeMem s) := by
  unfold wakeMem
  repeat' first
    | with_reducible assumption
    | with_reducible refine ite_only ?_ ?_
    | with_reducible refine modMem_only ?_ (subset_sub hP (by decide))

theorem touchTile_only {s : State} {t : Nat} (hO : Within pl sb s) (hP : [.mem] ⊆ pl) : Within pl sb (touchTile s t) := by
  unfold touchTile
  repeat' first
    | with_reducible assumption
    | with_reducible refine ite_only ?_ ?_
    | with_reducible refine modMem_only ?_ (subset_sub hP (by decide))

theorem repairRecord_only {s : State} {kind source bitNo loc addr : Nat} (hO : Within pl sb s) (hP : [.alm] ⊆ pl) : Within pl sb (repairRecord s kind source bitNo loc addr) := by
  unfold repairRecord
  repeat' first
    | with_reducible assumption
    | with_reducible refine ite_only ?_ ?_
    | with_reducible refine almQueue_only ?_ (subset_sub hP (by decide))
    | with_reducible refine modAlm_only ?_ (subset_sub hP (by decide))

theorem mapEntry_only {s : State} {phys : Nat} (hO : Within pl sb s) (hP : [.alm] ⊆ pl) : Within pl sb (mapEntry s phys) := by
  unfold mapEntry
  repeat' first
    | with_reducible assumption
    | with_reducible refine almQueue_only ?_ (subset_sub hP (by decide))
    | (extract_lets +onlyGivenNames -underBinder x; refine cut_only (ps := pl) (s := sb) (a := x) ?_ ?_; unfold x; rotate_left; clear_value x; intro hx)
    | (extract_lets +onlyGivenNames -underBinder x; (try unfold x); clear x)
    | split

theorem countCe_only {s : State} {kind addr : Nat} (hO : Within pl sb s) (hP : [.out, .regs, .mem, .ctl, .mgt, .alm, .tel] ⊆ pl) : Within pl sb (countCe s kind addr) := by
  unfold countCe
  repeat' first
    | with_reducible assumption
    | with_reducible refine ite_only ?_ ?_
    | with_reducible refine bumpReg_only ?_ (subset_sub hP (by decide))
    | with_reducible refine raisePf_only ?_ (subset_sub hP (by decide))
    | with_reducible refine repairRecord_only ?_ (subset_sub hP (by decide))
    | with_reducible refine telMem_only ?_ (subset_sub hP (by decide))
    | with_reducible refine modMem_only ?_ (subset_sub hP (by decide))
    | (extract_lets +onlyGivenNames -underBinder x; refine cut_only (ps := pl) (s := sb) (a := x) ?_ ?_; unfold x; rotate_left; clear_value x; intro hx)
    | (extract_lets +onlyGivenNames -underBinder x; (try unfold x); clear x)
    | split

theorem execSramPatrol_holds {key : Nat} {corrected wrong : List Nat} {s : State} (hO : Within pl sb s) (hP : [.out, .regs, .work, .mem, .ctl, .mgt, .alm, .tel] ⊆ pl) : Holds (InNext pl sb) (execSramPatrol key corrected wrong s) := by
  unfold execSramPatrol
  repeat' first
    | with_reducible refine bind_holds (ps := pl) (s := sb) ?_ fun _ _ => ?_
    | with_reducible refine bindAny_holds fun _ => ?_
    | with_reducible refine foldl_holds ?_ fun _ _ _ => ?_
    | with_reducible refine ite_holds ?_ ?_
    | with_reducible exact leaf_none
    | with_reducible refine leaf_some ?_
    | with_reducible refine leaf_only ?_
    | with_reducible refine leaf_next ?_
    | with_reducible assumption
    | with_reducible refine ite_only ?_ ?_
    | with_reducible refine foldl_only ?_ fun _ _ _ => ?_
    | with_reducible refine bumpReg_only ?_ (subset_sub hP (by decide))
    | with_reducible refine countCe_only ?_ (subset_sub hP (by decide))
    | with_reducible refine progCount_only ?_ (subset_sub hP (by decide))
    | with_reducible refine raiseBoth_only ?_ (subset_sub hP (by decide))
    | with_reducible refine raisePf_only ?_ (subset_sub hP (by decide))
    | with_reducible refine sramSetPoison_only ?_ (subset_sub hP (by decide))
    | with_reducible refine someOf_only (by with_reducible assumption) ?_
    | (extract_lets +onlyGivenNames -underBinder x; refine cut_only (ps := pl) (s := sb) (a := x) ?_ ?_; unfold x; rotate_left; clear_value x; intro hx)
    | (extract_lets +onlyGivenNames -underBinder x; (try unfold x); clear x)
    | split
theorem execSramPatrol_only {key : Nat} {corrected wrong : List Nat} {s : State} {t : State} (hO : Within pl sb s) (hP : [.out, .regs, .work, .mem, .ctl, .mgt, .alm, .tel] ⊆ pl) (hE : execSramPatrol key corrected wrong s = .next t) : Within pl sb t := by
  have k : Holds (InNext pl sb) (execSramPatrol key corrected wrong s) := execSramPatrol_holds (key := key) (corrected := corrected) (wrong := wrong) (s := s) hO hP
  rw [hE] at k; exact k.of

theorem execNearPatrol_holds {tile : Nat} {s : State} (hO : Within pl sb s) (hP : [.mem] ⊆ pl) : Holds (InNext pl sb) (execNearPatrol tile s) := by
  unfold execNearPatrol
  repeat' first
    | with_reducible refine leaf_next ?_
    | with_reducible assumption
    | with_reducible refine ite_only ?_ ?_
    | with_reducible refine tierClear_only ?_ (subset_sub hP (by decide))
theorem execNearPatrol_only {tile : Nat} {s : State} {t : State} (hO : Within pl sb s) (hP : [.mem] ⊆ pl) (hE : execNearPatrol tile s = .next t) : Within pl sb t := by
  have k : Holds (InNext pl sb) (execNearPatrol tile s) := execNearPatrol_holds (tile := tile) (s := s) hO hP
  rw [hE] at k; exact k.of

end Sys2Proof.Machine
end

