-- ==== Sys2Proof/Laws/FrameReq.lean ====
section
/-! SUPPORT. What each function of Machine/Req.lean can do to the state as a whole: the parts it can change; the queue, the population and the
canonical forms it keeps. `f_only` speaks of the state that `f` answers, `f_holds` of a state inside its answer, `f_only_eq` of one taken out. -/

-- One declaration at a time: thousands of proofs in flight at once ask for more threads than fit in memory.
set_option Elab.async false

set_option linter.unusedTactic false
set_option linter.unreachableTactic false
set_option linter.unusedVariables false
set_option linter.unusedSimpArgs false
namespace Sys2Proof.Machine
open Sys2Proof
variable {pl : List Part} {sb : State}

theorem modReq_only {s : State} {h : Nat} {f : Req → Req} (hO : Within pl sb s) (hP : [.serve] ⊆ pl) : Within pl sb (modReq s h f) := by
  unfold modReq
  repeat' first
    | with_reducible assumption
    | with_reducible refine modServe_only ?_ (subset_sub hP (by decide))

theorem dropReq_only {s : State} {h : Nat} (hO : Within pl sb s) (hP : [.serve] ⊆ pl) : Within pl sb (dropReq s h) := by
  unfold dropReq
  repeat' first
    | with_reducible assumption
    | with_reducible refine modServe_only ?_ (subset_sub hP (by decide))

theorem modPage_only {s : State} {p num : Nat} {f : Page → Page} (hO : Within pl sb s) (hP : [.serve] ⊆ pl) : Within pl sb (modPage s p num f) := by
  unfold modPage
  repeat' first
    | with_reducible assumption
    | with_reducible refine modServe_only ?_ (subset_sub hP (by decide))

theorem reqRec_only {s : State} {pf : Bool} {p status rtype op handle tag epoch index length charged : Nat} (hO : Within pl sb s) (hP : [.out, .regs, .tel] ⊆ pl) : Within pl sb (reqRec s pf p status rtype op handle tag epoch index length charged) := by
  unfold reqRec
  repeat' first
    | with_reducible assumption
    | with_reducible refine ite_only ?_ ?_
    | with_reducible refine ringWrite_only ?_ (subset_sub hP (by decide))

theorem requestRec_only {s : State} {r : Req} {status index : Nat} (hO : Within pl sb s) (hP : [.out, .regs, .tel] ⊆ pl) : Within pl sb (requestRec s r status index) := by
  unfold requestRec
  repeat' first
    | with_reducible assumption
    | with_reducible refine reqRec_only ?_ (subset_sub hP (by decide))

theorem opDone_only {s : State} {pf : Bool} {p status op handle tag : Nat} {r : Option Req} (hO : Within pl sb s) (hP : [.out, .regs, .tel] ⊆ pl) : Within pl sb (opDone s pf p status op handle tag r) := by
  unfold opDone
  repeat' first
    | with_reducible assumption
    | with_reducible refine reqRec_only ?_ (subset_sub hP (by decide))

theorem setLevel_only {s : State} {p : Nat} {v : Int} (hO : Within pl sb s) (hP : [.serve, .ctl] ⊆ pl) : Within pl sb (setLevel s p v) := by
  unfold setLevel
  repeat' first
    | with_reducible assumption
    | with_reducible refine ite_only ?_ ?_
    | with_reducible refine odSet_only ?_ (subset_sub hP (by decide))
    | with_reducible refine modServe_only ?_ (subset_sub hP (by decide))
    | (extract_lets +onlyGivenNames -underBinder x; refine cut_only (ps := pl) (s := sb) (a := x) ?_ ?_; unfold x; rotate_left; clear_value x; intro hx)
    | (extract_lets +onlyGivenNames -underBinder x; (try unfold x); clear x)

theorem charge_only {s : State} {h amount : Nat} (hO : Within pl sb s) (hP : [.serve, .ctl] ⊆ pl) : Within pl sb (charge s h amount) := by
  unfold charge
  repeat' first
    | with_reducible assumption
    | with_reducible refine ite_only ?_ ?_
    | with_reducible refine modReq_only ?_ (subset_sub hP (by decide))
    | with_reducible refine setLevel_only ?_ (subset_sub hP (by decide))
    | (extract_lets +onlyGivenNames -underBinder x; refine cut_only (ps := pl) (s := sb) (a := x) ?_ ?_; unfold x; rotate_left; clear_value x; intro hx)
    | (extract_lets +onlyGivenNames -underBinder x; (try unfold x); clear x)
    | split

theorem creditBack_only {s : State} {h : Nat} (hO : Within pl sb s) (hP : [.serve, .ctl] ⊆ pl) : Within pl sb (creditBack s h) := by
  unfold creditBack
  repeat' first
    | with_reducible assumption
    | with_reducible refine ite_only ?_ ?_
    | with_reducible refine modReq_only ?_ (subset_sub hP (by decide))
    | with_reducible refine setLevel_only ?_ (subset_sub hP (by decide))
    | (extract_lets +onlyGivenNames -underBinder x; refine cut_only (ps := pl) (s := sb) (a := x) ?_ ?_; unfold x; rotate_left; clear_value x; intro hx)
    | (extract_lets +onlyGivenNames -underBinder x; (try unfold x); clear x)
    | split

theorem srvMark_only {s : State} {p code n : Nat} (hO : Within pl sb s) (hP : [.serve] ⊆ pl) : Within pl sb (srvMark s p code n) := by
  unfold srvMark
  repeat' first
    | with_reducible assumption
    | with_reducible refine ite_only ?_ ?_
    | with_reducible refine modServe_only ?_ (subset_sub hP (by decide))

theorem tabRef_only {s : State} {n : Nat} {up : Bool} (hO : Within pl sb s) (hP : [.serve] ⊆ pl) : Within pl sb (tabRef s n up) := by
  unfold tabRef
  repeat' first
    | with_reducible assumption
    | with_reducible refine ite_only ?_ ?_
    | with_reducible refine modServe_only ?_ (subset_sub hP (by decide))

theorem pageTabs_only {s : State} {g : Page} {up : Bool} (hO : Within pl sb s) (hP : [.serve] ⊆ pl) : Within pl sb (pageTabs s g up) := by
  unfold pageTabs
  repeat' first
    | with_reducible assumption
    | with_reducible refine ite_only ?_ ?_
    | with_reducible refine tabRef_only ?_ (subset_sub hP (by decide))
    | (extract_lets +onlyGivenNames -underBinder x; refine cut_only (ps := pl) (s := sb) (a := x) ?_ ?_; unfold x; rotate_left; clear_value x; intro hx)
    | (extract_lets +onlyGivenNames -underBinder x; (try unfold x); clear x)

theorem clearStage_only {s : State} {c b n : Nat} (hO : Within pl sb s) (hP : [.work] ⊆ pl) : Within pl sb (clearStage s c b n) := by
  unfold clearStage
  repeat' first
    | with_reducible assumption
    | with_reducible refine sramWrite_only ?_ (subset_sub hP (by decide))

theorem freePage_only {s : State} {p num : Nat} (hO : Within pl sb s) (hP : [.mem, .serve] ⊆ pl) : Within pl sb (freePage s p num) := by
  unfold freePage
  repeat' first
    | with_reducible assumption
    | with_reducible refine ite_only ?_ ?_
    | with_reducible refine freeTiles_only ?_ (subset_sub hP (by decide))
    | with_reducible refine pageTabs_only ?_ (subset_sub hP (by decide))
    | with_reducible refine modServe_only ?_ (subset_sub hP (by decide))
    | (extract_lets +onlyGivenNames -underBinder x; refine cut_only (ps := pl) (s := sb) (a := x) ?_ ?_; unfold x; rotate_left; clear_value x; intro hx)
    | (extract_lets +onlyGivenNames -underBinder x; (try unfold x); clear x)
    | split

theorem dropRef_only {s : State} {p num : Nat} (hO : Within pl sb s) (hP : [.mem, .serve] ⊆ pl) : Within pl sb (dropRef s p num) := by
  unfold dropRef
  repeat' first
    | with_reducible assumption
    | with_reducible refine ite_only ?_ ?_
    | with_reducible refine freePage_only ?_ (subset_sub hP (by decide))
    | with_reducible refine freeTiles_only ?_ (subset_sub hP (by decide))
    | with_reducible refine modPage_only ?_ (subset_sub hP (by decide))
    | (extract_lets +onlyGivenNames -underBinder x; refine cut_only (ps := pl) (s := sb) (a := x) ?_ ?_; unfold x; rotate_left; clear_value x; intro hx)
    | (extract_lets +onlyGivenNames -underBinder x; (try unfold x); clear x)
    | split

theorem addRef_only {s : State} {p num n : Nat} (hO : Within pl sb s) (hP : [.serve] ⊆ pl) : Within pl sb (addRef s p num n) := by
  unfold addRef
  repeat' first
    | with_reducible assumption
    | with_reducible refine modPage_only ?_ (subset_sub hP (by decide))

theorem pinAll_only {s : State} {r : Req} {up : Bool} (hO : Within pl sb s) (hP : [.mem, .serve] ⊆ pl) : Within pl sb (pinAll s r up) := by
  unfold pinAll
  repeat' first
    | with_reducible assumption
    | with_reducible refine ite_only ?_ ?_
    | with_reducible refine foldl_only ?_ fun _ _ _ => ?_
    | with_reducible refine freePage_only ?_ (subset_sub hP (by decide))
    | with_reducible refine modServe_only ?_ (subset_sub hP (by decide))
    | (extract_lets +onlyGivenNames -underBinder x; refine cut_only (ps := pl) (s := sb) (a := x) ?_ ?_; unfold x; rotate_left; clear_value x; intro hx)
    | (extract_lets +onlyGivenNames -underBinder x; (try unfold x); clear x)

theorem leaveQueue_only {s : State} {r : Req} (hO : Within pl sb s) (hP : [.ctl] ⊆ pl) : Within pl sb (leaveQueue s r) := by
  unfold leaveQueue
  repeat' first
    | with_reducible assumption
    | with_reducible refine odRaise_only ?_ (subset_sub hP (by decide))

theorem goState_only {s : State} {h : Nat} {st : RState} (hO : Within pl sb s) (hP : [.mem, .serve, .ctl] ⊆ pl) : Within pl sb (goState s h st) := by
  unfold goState
  repeat' first
    | with_reducible assumption
    | with_reducible refine ite_only ?_ ?_
    | with_reducible refine leaveQueue_only ?_ (subset_sub hP (by decide))
    | with_reducible refine modReq_only ?_ (subset_sub hP (by decide))
    | with_reducible refine pinAll_only ?_ (subset_sub hP (by decide))
    | (extract_lets +onlyGivenNames -underBinder x; refine cut_only (ps := pl) (s := sb) (a := x) ?_ ?_; unfold x; rotate_left; clear_value x; intro hx)
    | (extract_lets +onlyGivenNames -underBinder x; (try unfold x); clear x)
    | split

theorem dropSets_only {s : State} {p : Nat} {sets : List (Nat × Nat × List Nat)} (hO : Within pl sb s) (hP : [.mem, .serve] ⊆ pl) : Within pl sb (dropSets s p sets) := by
  unfold dropSets
  repeat' first
    | with_reducible assumption
    | with_reducible refine foldl_only ?_ fun _ _ _ => ?_
    | with_reducible refine dropRef_only ?_ (subset_sub hP (by decide))

theorem dropMap_only {s : State} {r : Req} (hO : Within pl sb s) (hP : [.mem, .serve] ⊆ pl) : Within pl sb (dropMap s r) := by
  unfold dropMap
  repeat' first
    | with_reducible assumption
    | with_reducible refine ite_only ?_ ?_
    | with_reducible refine foldl_only ?_ fun _ _ _ => ?_
    | with_reducible refine dropRef_only ?_ (subset_sub hP (by decide))
    | with_reducible refine dropSets_only ?_ (subset_sub hP (by decide))
    | with_reducible refine pinAll_only ?_ (subset_sub hP (by decide))
    | (extract_lets +onlyGivenNames -underBinder x; refine cut_only (ps := pl) (s := sb) (a := x) ?_ ?_; unfold x; rotate_left; clear_value x; intro hx)
    | (extract_lets +onlyGivenNames -underBinder x; (try unfold x); clear x)

theorem sendState_only {s : State} {dev op : Nat} {m : StateMsg} (hO : Within pl sb s) (hP : [.out] ⊆ pl) : Within pl sb (sendState s dev op m) := by
  unfold sendState
  repeat' first
    | with_reducible assumption
    | with_reducible refine ite_only ?_ ?_
    | with_reducible refine emit_only ?_ (subset_sub hP (by decide))

theorem refMsg_only {s : State} {r : Req} {release : Bool} {g : Group} {tag : Nat} {seq : Nat} (hO : Within pl sb s) (hP : [.out, .serve] ⊆ pl) : Within pl sb (refMsg s r release g tag seq) := by
  unfold refMsg
  repeat' first
    | with_reducible assumption
    | with_reducible refine ite_only ?_ ?_
    | with_reducible refine sendState_only ?_ (subset_sub hP (by decide))
    | with_reducible refine modServe_only ?_ (subset_sub hP (by decide))

theorem refAll_only {s : State} {r : Req} {release : Bool} {gs : List Group} {tag : Nat} {seq : Nat} (hO : Within pl sb s) (hP : [.out, .serve] ⊆ pl) : Within pl sb (refAll s r release gs tag seq) := by
  unfold refAll
  repeat' first
    | with_reducible assumption
    | with_reducible refine foldl_only ?_ fun _ _ _ => ?_
    | with_reducible refine refMsg_only ?_ (subset_sub hP (by decide))

theorem releaseAll_only {s : State} {r : Req} (hO : Within pl sb s) (hP : [.out, .serve] ⊆ pl) : Within pl sb (releaseAll s r) := by
  unfold releaseAll
  repeat' first
    | with_reducible assumption
    | with_reducible refine ite_only ?_ ?_
    | with_reducible refine foldl_only ?_ fun _ _ _ => ?_
    | with_reducible refine refAll_only ?_ (subset_sub hP (by decide))

theorem addXfer_only {s : State} {ptn kind tiles : Nat} {what : XferWhat} (hO : Within pl sb s) (hP : [.serve] ⊆ pl) : Within pl sb (addXfer s ptn kind tiles what) := by
  unfold addXfer
  repeat' first
    | with_reducible assumption
    | with_reducible refine modServe_only ?_ (subset_sub hP (by decide))

theorem dropXfer_only {s : State} {x : Nat} (hO : Within pl sb s) (hP : [.serve] ⊆ pl) : Within pl sb (dropXfer s x) := by
  unfold dropXfer
  repeat' first
    | with_reducible assumption
    | with_reducible refine foldl_only ?_ fun _ _ _ => ?_
    | with_reducible refine tabRef_only ?_ (subset_sub hP (by decide))
    | with_reducible refine modServe_only ?_ (subset_sub hP (by decide))

theorem addMove_only {s : State} {m : Move} (hO : Within pl sb s) (hP : [.serve] ⊆ pl) : Within pl sb (addMove s m) := by
  unfold addMove
  repeat' first
    | with_reducible assumption
    | with_reducible refine modServe_only ?_ (subset_sub hP (by decide))

theorem modMove_only {s : State} {id : Nat} {f : Move → Move} (hO : Within pl sb s) (hP : [.serve] ⊆ pl) : Within pl sb (modMove s id f) := by
  unfold modMove
  repeat' first
    | with_reducible assumption
    | with_reducible refine modServe_only ?_ (subset_sub hP (by decide))

theorem carryPage_only {s : State} {id num : Nat} (hO : Within pl sb s) (hP : [.serve] ⊆ pl) : Within pl sb (carryPage s id num) := by
  unfold carryPage
  repeat' first
    | with_reducible assumption
    | with_reducible refine ite_only ?_ ?_
    | with_reducible refine addXfer_only ?_ (subset_sub hP (by decide))
    | with_reducible refine modMove_only ?_ (subset_sub hP (by decide))
    | with_reducible refine modPage_only ?_ (subset_sub hP (by decide))
    | (extract_lets +onlyGivenNames -underBinder x; refine cut_only (ps := pl) (s := sb) (a := x) ?_ ?_; unfold x; rotate_left; clear_value x; intro hx)
    | (extract_lets +onlyGivenNames -underBinder x; (try unfold x); clear x)
    | split

theorem endTransit_only {s : State} {p num : Nat} {far : Bool} (hO : Within pl sb s) (hP : [.mem, .serve] ⊆ pl) : Within pl sb (endTransit s p num far) := by
  unfold endTransit
  repeat' first
    | with_reducible assumption
    | with_reducible refine ite_only ?_ ?_
    | with_reducible refine freePage_only ?_ (subset_sub hP (by decide))
    | with_reducible refine modPage_only ?_ (subset_sub hP (by decide))
    | (extract_lets +onlyGivenNames -underBinder x; refine cut_only (ps := pl) (s := sb) (a := x) ?_ ?_; unfold x; rotate_left; clear_value x; intro hx)
    | (extract_lets +onlyGivenNames -underBinder x; (try unfold x); clear x)

theorem endMove_only {s : State} {id : Nat} (hO : Within pl sb s) (hP : [.mem, .serve] ⊆ pl) : Within pl sb (endMove s id) := by
  unfold endMove
  repeat' first
    | with_reducible assumption
    | with_reducible refine foldl_only ?_ fun _ _ _ => ?_
    | with_reducible refine dropXfer_only ?_ (subset_sub hP (by decide))
    | with_reducible refine endTransit_only ?_ (subset_sub hP (by decide))
    | with_reducible refine tabRef_only ?_ (subset_sub hP (by decide))
    | with_reducible refine modServe_only ?_ (subset_sub hP (by decide))
    | (extract_lets +onlyGivenNames -underBinder x; refine cut_only (ps := pl) (s := sb) (a := x) ?_ ?_; unfold x; rotate_left; clear_value x; intro hx)
    | (extract_lets +onlyGivenNames -underBinder x; (try unfold x); clear x)
    | split

theorem stopPromotions_only {s : State} {h : Nat} (hO : Within pl sb s) (hP : [.mem, .serve] ⊆ pl) : Within pl sb (stopPromotions s h) := by
  unfold stopPromotions
  repeat' first
    | with_reducible assumption
    | with_reducible refine ite_only ?_ ?_
    | with_reducible refine foldl_only ?_ fun _ _ _ => ?_
    | with_reducible refine dropXfer_only ?_ (subset_sub hP (by decide))
    | with_reducible refine freePage_only ?_ (subset_sub hP (by decide))
    | with_reducible refine modPage_only ?_ (subset_sub hP (by decide))
    | with_reducible refine modServe_only ?_ (subset_sub hP (by decide))
    | (extract_lets +onlyGivenNames -underBinder x; refine cut_only (ps := pl) (s := sb) (a := x) ?_ ?_; unfold x; rotate_left; clear_value x; intro hx)
    | (extract_lets +onlyGivenNames -underBinder x; (try unfold x); clear x)
    | split

theorem clearReq_only {s : State} {h : Nat} (hO : Within pl sb s) (hP : [.mem, .serve] ⊆ pl) : Within pl sb (clearReq s h) := by
  unfold clearReq
  repeat' first
    | with_reducible assumption
    | with_reducible refine ite_only ?_ ?_
    | with_reducible refine foldl_only ?_ fun _ _ _ => ?_
    | with_reducible refine dropMap_only ?_ (subset_sub hP (by decide))
    | with_reducible refine endMove_only ?_ (subset_sub hP (by decide))
    | with_reducible refine freeTiles_only ?_ (subset_sub hP (by decide))
    | with_reducible refine stopPromotions_only ?_ (subset_sub hP (by decide))
    | with_reducible refine modServe_only ?_ (subset_sub hP (by decide))
    | (extract_lets +onlyGivenNames -underBinder x; refine cut_only (ps := pl) (s := sb) (a := x) ?_ ?_; unfold x; rotate_left; clear_value x; intro hx)
    | (extract_lets +onlyGivenNames -underBinder x; (try unfold x); clear x)
    | split

theorem leaveSlot_only {s : State} {h : Nat} (hO : Within pl sb s) (hP : [.serve] ⊆ pl) : Within pl sb (leaveSlot s h) := by
  unfold leaveSlot
  repeat' first
    | with_reducible assumption
    | with_reducible refine dropReq_only ?_ (subset_sub hP (by decide))
    | with_reducible refine modServe_only ?_ (subset_sub hP (by decide))
    | split

theorem freeReq_only {s : State} {h : Nat} (hO : Within pl sb s) (hP : [.mem, .serve] ⊆ pl) : Within pl sb (freeReq s h) := by
  unfold freeReq
  repeat' first
    | with_reducible assumption
    | with_reducible refine ite_only ?_ ?_
    | with_reducible refine foldl_only ?_ fun _ _ _ => ?_
    | with_reducible refine clearReq_only ?_ (subset_sub hP (by decide))
    | with_reducible refine leaveSlot_only ?_ (subset_sub hP (by decide))
    | split

theorem endReq_only {s : State} {h status index : Nat} (hO : Within pl sb s) (hP : [.out, .regs, .mem, .serve, .ctl, .tel] ⊆ pl) : Within pl sb (endReq s h status index) := by
  unfold endReq
  repeat' first
    | with_reducible assumption
    | with_reducible refine ite_only ?_ ?_
    | with_reducible refine clearReq_only ?_ (subset_sub hP (by decide))
    | with_reducible refine creditBack_only ?_ (subset_sub hP (by decide))
    | with_reducible refine leaveQueue_only ?_ (subset_sub hP (by decide))
    | with_reducible refine leaveSlot_only ?_ (subset_sub hP (by decide))
    | with_reducible refine modReq_only ?_ (subset_sub hP (by decide))
    | with_reducible refine releaseAll_only ?_ (subset_sub hP (by decide))
    | with_reducible refine requestRec_only ?_ (subset_sub hP (by decide))
    | (extract_lets +onlyGivenNames -underBinder x; refine cut_only (ps := pl) (s := sb) (a := x) ?_ ?_; unfold x; rotate_left; clear_value x; intro hx)
    | (extract_lets +onlyGivenNames -underBinder x; (try unfold x); clear x)
    | split

theorem recalc_only {s : State} {h : Nat} (hO : Within pl sb s) (hP : [.serve] ⊆ pl) : Within pl sb (recalc s h) := by
  unfold recalc
  repeat' first
    | with_reducible assumption
    | with_reducible refine modReq_only ?_ (subset_sub hP (by decide))
    | (extract_lets +onlyGivenNames -underBinder x; refine cut_only (ps := pl) (s := sb) (a := x) ?_ ?_; unfold x; rotate_left; clear_value x; intro hx)
    | (extract_lets +onlyGivenNames -underBinder x; (try unfold x); clear x)
    | split

theorem startSeals_only {s : State} {h l : Nat} (hO : Within pl sb s) (hP : [.serve] ⊆ pl) : Within pl sb (startSeals s h l) := by
  unfold startSeals
  repeat' first
    | with_reducible assumption
    | with_reducible refine ite_only ?_ ?_
    | with_reducible refine modPage_only ?_ (subset_sub hP (by decide))
    | split

theorem mirrorStore_only {s : State} {key n : Nat} (hO : Within pl sb s) (hP : [.work, .mem] ⊆ pl) : Within pl sb (mirrorStore s key n) := by
  unfold mirrorStore
  repeat' first
    | with_reducible assumption
    | with_reducible refine ite_only ?_ ?_
    | with_reducible refine foldl_only ?_ fun _ _ _ => ?_
    | with_reducible refine sramWriteP_only ?_ (subset_sub hP (by decide))
    | with_reducible refine tierWriteP_only ?_ (subset_sub hP (by decide))
    | (extract_lets +onlyGivenNames -underBinder x; refine cut_only (ps := pl) (s := sb) (a := x) ?_ ?_; unfold x; rotate_left; clear_value x; intro hx)
    | (extract_lets +onlyGivenNames -underBinder x; (try unfold x); clear x)
    | split

theorem commitLayer_only {s : State} {h l : Nat} (hO : Within pl sb s) (hP : [.serve] ⊆ pl) : Within pl sb (commitLayer s h l) := by
  unfold commitLayer
  repeat' first
    | with_reducible assumption
    | with_reducible refine ite_only ?_ ?_
    | with_reducible refine foldl_only ?_ fun _ _ _ => ?_
    | with_reducible refine startSeals_only ?_ (subset_sub hP (by decide))
    | with_reducible refine writeBack_only ?_ (subset_sub hP (by decide))
    | with_reducible refine modServe_only ?_ (subset_sub hP (by decide))
    | (extract_lets +onlyGivenNames -underBinder x; refine cut_only (ps := pl) (s := sb) (a := x) ?_ ?_; unfold x; rotate_left; clear_value x; intro hx)
    | (extract_lets +onlyGivenNames -underBinder x; (try unfold x); clear x)
    | split

theorem discardLayer_only {s : State} {h l : Nat} (hO : Within pl sb s) (hP : [.serve] ⊆ pl) : Within pl sb (discardLayer s h l) := by
  unfold discardLayer
  repeat' first
    | with_reducible assumption
    | with_reducible refine modServe_only ?_ (subset_sub hP (by decide))
    | split

theorem pageRoom_holds {s : State} {p c n : Nat} (hO : Within pl sb s) (hP : [.mem] ⊆ pl) : Holds (InSome (InSnd pl sb)) (pageRoom s p c n) := by
  unfold pageRoom
  repeat' first
    | with_reducible refine ite_holds ?_ ?_
    | with_reducible exact leaf_none
    | with_reducible refine leaf_some ?_
    | with_reducible refine leaf_snd ?_
    | with_reducible refine leaf_only ?_
    | with_reducible assumption
    | with_reducible refine allocTiles_only_eq ?_ (subset_sub hP (by decide)) (by assumption)
    | with_reducible refine allocTiles_holds ?_ (subset_sub hP (by decide))
theorem pageRoom_only_eq {s : State} {p c n : Nat} {ra : Nat} {rb : State} (hO : Within pl sb s) (hP : [.mem] ⊆ pl) (hE : pageRoom s p c n = some (ra, rb)) : Within pl sb rb := by
  have k : Holds (InSome (InSnd pl sb)) (pageRoom s p c n) := pageRoom_holds (s := s) (p := p) (c := c) (n := n) hO hP
  rw [hE] at k; exact k.of

theorem allocOwn_only_eq {s : State} {p bytes : Nat} {a : Nat} {b : State} (h : Within pl sb s) (hp : [.mem] ⊆ pl)
    (e : allocOwn s p bytes = some (a, b)) : Within pl sb b := by
  unfold allocOwn at e
  cases hf : allocTiles s p false (ownSpread s p) 0 (Nat.max 1 (cdiv bytes 4096)) with
  | none => rw [hf] at e; cases e
  | some r => rw [hf] at e; cases e; exact allocTiles_only_eq h (subset_sub hp (by decide)) hf

theorem allocOwn_holds {s : State} {p bytes : Nat} (h : Within pl sb s) (hp : [.mem] ⊆ pl) :
    Holds (InSome (InSnd pl sb)) (allocOwn s p bytes) := by
  cases e : allocOwn s p bytes with
  | none => exact leaf_none
  | some r => exact leaf_some (leaf_snd (allocOwn_only_eq h hp e))

theorem startEviction_only {s : State} {p : Nat} (hO : Within pl sb s) (hP : [.serve] ⊆ pl) : Within pl sb (startEviction s p) := by
  unfold startEviction
  repeat' first
    | with_reducible assumption
    | with_reducible refine ite_only ?_ ?_
    | with_reducible refine modServe_only ?_ (subset_sub hP (by decide))

theorem addMirror_holds {s : State} {p num : Nat} (hO : Within pl sb s) (hP : [.work, .serve] ⊆ pl) : Holds (InSome (Within pl sb)) (addMirror s p num) := by
  unfold addMirror
  repeat' first
    | with_reducible refine map_holds fun _ _ => ?_
    | with_reducible refine ite_holds ?_ ?_
    | with_reducible exact leaf_none
    | with_reducible refine leaf_some ?_
    | with_reducible refine leaf_only ?_
    | with_reducible assumption
    | with_reducible refine ite_only ?_ ?_
    | with_reducible refine modPage_only ?_ (subset_sub hP (by decide))
    | with_reducible refine sramWriteP_only ?_ (subset_sub hP (by decide))
    | (extract_lets +onlyGivenNames -underBinder x; refine cut_only (ps := pl) (s := sb) (a := x) ?_ ?_; unfold x; rotate_left; clear_value x; intro hx)
    | (extract_lets +onlyGivenNames -underBinder x; (try unfold x); clear x)
    | split
theorem addMirror_only_eq {s : State} {p num : Nat} {ra : State} (hO : Within pl sb s) (hP : [.work, .serve] ⊆ pl) (hE : addMirror s p num = some ra) : Within pl sb ra := by
  have k : Holds (InSome (Within pl sb)) (addMirror s p num) := addMirror_holds (s := s) (p := p) (num := num) hO hP
  rw [hE] at k; exact k.of

theorem openPage_holds {s : State} {h l i : Nat} {cs : List Nat} (hO : Within pl sb s) (hP : [.work, .mem, .serve] ⊆ pl) : Holds (InSome (Within pl sb)) (openPage s h l i cs) := by
  unfold openPage
  repeat' first
    | with_reducible refine ite_holds ?_ ?_
    | with_reducible exact leaf_none
    | with_reducible refine leaf_some ?_
    | with_reducible refine leaf_only ?_
    | with_reducible assumption
    | with_reducible refine ite_only ?_ ?_
    | with_reducible refine addMirror_only_eq ?_ (subset_sub hP (by decide)) (by assumption)
    | with_reducible refine addMirror_holds ?_ (subset_sub hP (by decide))
    | with_reducible refine clearStage_only ?_ (subset_sub hP (by decide))
    | with_reducible refine modReq_only ?_ (subset_sub hP (by decide))
    | with_reducible refine pageRoom_only_eq ?_ (subset_sub hP (by decide)) (by assumption)
    | with_reducible refine modServe_only ?_ (subset_sub hP (by decide))
    | with_reducible refine someFst_only (by with_reducible assumption) ?_
    | with_reducible refine someSnd_only (by with_reducible assumption) ?_
    | (extract_lets +onlyGivenNames -underBinder x; refine cut_only (ps := pl) (s := sb) (a := x) ?_ ?_; unfold x; rotate_left; clear_value x; intro hx)
    | (extract_lets +onlyGivenNames -underBinder x; (try unfold x); clear x)
    | split
theorem openPage_only_eq {s : State} {h l i : Nat} {cs : List Nat} {ra : State} (hO : Within pl sb s) (hP : [.work, .mem, .serve] ⊆ pl) (hE : openPage s h l i cs = some ra) : Within pl sb ra := by
  have k : Holds (InSome (Within pl sb)) (openPage s h l i cs) := openPage_holds (s := s) (h := h) (l := l) (i := i) (cs := cs) hO hP
  rw [hE] at k; exact k.of

theorem sealPage_only {s : State} {h num tile : Nat} (hO : Within pl sb s) (hP : [.mem, .serve] ⊆ pl) : Within pl sb (sealPage s h num tile) := by
  unfold sealPage
  repeat' first
    | with_reducible assumption
    | with_reducible refine freeTiles_only ?_ (subset_sub hP (by decide))
    | with_reducible refine modPage_only ?_ (subset_sub hP (by decide))
    | with_reducible refine recalc_only ?_ (subset_sub hP (by decide))
    | with_reducible refine startSeals_only ?_ (subset_sub hP (by decide))
    | with_reducible refine tierWrite_only ?_ (subset_sub hP (by decide))
    | (extract_lets +onlyGivenNames -underBinder x; refine cut_only (ps := pl) (s := sb) (a := x) ?_ ?_; unfold x; rotate_left; clear_value x; intro hx)
    | (extract_lets +onlyGivenNames -underBinder x; (try unfold x); clear x)
    | split

theorem trimStep_only {s : State} {h : Nat} (hO : Within pl sb s) (hP : [.serve] ⊆ pl) : Within pl sb (trimStep s h) := by
  unfold trimStep
  repeat' first
    | with_reducible assumption
    | with_reducible refine modReq_only ?_ (subset_sub hP (by decide))
    | with_reducible refine modServe_only ?_ (subset_sub hP (by decide))
    | (extract_lets +onlyGivenNames -underBinder x; refine cut_only (ps := pl) (s := sb) (a := x) ?_ ?_; unfold x; rotate_left; clear_value x; intro hx)
    | (extract_lets +onlyGivenNames -underBinder x; (try unfold x); clear x)
    | split

theorem reopenPage_only {s : State} {h keep : Nat} {g : Page} (hO : Within pl sb s) (hP : [.out, .regs, .mem, .serve, .ctl, .tel] ⊆ pl) : Within pl sb (reopenPage s h keep g) := by
  unfold reopenPage
  repeat' first
    | with_reducible refine ite_holds ?_ ?_
    | with_reducible exact leaf_none
    | with_reducible assumption
    | with_reducible refine ite_only ?_ ?_
    | with_reducible refine allocTiles_only_eq ?_ (subset_sub hP (by decide)) (by assumption)
    | with_reducible refine allocTiles_holds ?_ (subset_sub hP (by decide))
    | with_reducible refine dropRef_only ?_ (subset_sub hP (by decide))
    | with_reducible refine endReq_only ?_ (subset_sub hP (by decide))
    | with_reducible refine modReq_only ?_ (subset_sub hP (by decide))
    | with_reducible refine tierWrite_only ?_ (subset_sub hP (by decide))
    | with_reducible refine modServe_only ?_ (subset_sub hP (by decide))
    | with_reducible refine someFst_only (by with_reducible assumption) ?_
    | with_reducible refine someSnd_only (by with_reducible assumption) ?_
    | (extract_lets +onlyGivenNames -underBinder x; refine cut_only (ps := pl) (s := sb) (a := x) ?_ ?_; unfold x; rotate_left; clear_value x; intro hx)
    | (extract_lets +onlyGivenNames -underBinder x; (try unfold x); clear x)
    | split

theorem rollback_only {s : State} {h : Nat} (hO : Within pl sb s) (hP : [.out, .regs, .mem, .serve, .ctl, .tel] ⊆ pl) : Within pl sb (rollback s h) := by
  unfold rollback
  repeat' first
    | with_reducible assumption
    | with_reducible refine ite_only ?_ ?_
    | with_reducible refine foldl_only ?_ fun _ _ _ => ?_
    | with_reducible refine bumpReg_only ?_ (subset_sub hP (by decide))
    | with_reducible refine dropRef_only ?_ (subset_sub hP (by decide))
    | with_reducible refine endMove_only ?_ (subset_sub hP (by decide))
    | with_reducible refine goState_only ?_ (subset_sub hP (by decide))
    | with_reducible refine modReq_only ?_ (subset_sub hP (by decide))
    | with_reducible refine reopenPage_only ?_ (subset_sub hP (by decide))
    | with_reducible refine requestRec_only ?_ (subset_sub hP (by decide))
    | with_reducible refine stopPromotions_only ?_ (subset_sub hP (by decide))
    | with_reducible refine modServe_only ?_ (subset_sub hP (by decide))
    | (extract_lets +onlyGivenNames -underBinder x; refine cut_only (ps := pl) (s := sb) (a := x) ?_ ?_; unfold x; rotate_left; clear_value x; intro hx)
    | (extract_lets +onlyGivenNames -underBinder x; (try unfold x); clear x)
    | split

theorem tokenRec_only {s : State} {r : Req} {token index : Nat} {final logits : Bool} {reason : Nat} (hO : Within pl sb s) (hP : [.out, .regs, .ctl, .tel] ⊆ pl) : Within pl sb (tokenRec s r token index final logits reason) := by
  unfold tokenRec
  repeat' first
    | with_reducible assumption
    | with_reducible refine odRaise_only ?_ (subset_sub hP (by decide))
    | with_reducible refine taskWrite_only ?_ (subset_sub hP (by decide))
    | (extract_lets +onlyGivenNames -underBinder x; refine cut_only (ps := pl) (s := sb) (a := x) ?_ ?_; unfold x; rotate_left; clear_value x; intro hx)
    | (extract_lets +onlyGivenNames -underBinder x; (try unfold x); clear x)

theorem takeToken_only {s : State} {h tok reason : Nat} (hO : Within pl sb s) (hP : [.out, .regs, .mem, .serve, .ctl, .tel] ⊆ pl) : Within pl sb (takeToken s h tok reason) := by
  unfold takeToken
  repeat' first
    | with_reducible assumption
    | with_reducible refine ite_only ?_ ?_
    | with_reducible refine charge_only ?_ (subset_sub hP (by decide))
    | with_reducible refine endReq_only ?_ (subset_sub hP (by decide))
    | with_reducible refine modReq_only ?_ (subset_sub hP (by decide))
    | with_reducible refine requestRec_only ?_ (subset_sub hP (by decide))
    | with_reducible refine tokenRec_only ?_ (subset_sub hP (by decide))
    | (extract_lets +onlyGivenNames -underBinder x; refine cut_only (ps := pl) (s := sb) (a := x) ?_ ?_; unfold x; rotate_left; clear_value x; intro hx)
    | (extract_lets +onlyGivenNames -underBinder x; (try unfold x); clear x)
    | split

end Sys2Proof.Machine
end

