-- ==== Sys2Proof/Laws/FrameFabric.lean ====
section
/-! SUPPORT. What each function of Machine/Fabric.lean can do to the state as a whole: the parts it can change; the queue, the population and the
canonical forms it keeps. `f_only` speaks of the state that `f` answers, `f_holds` of a state inside its answer, `f_only_eq` of one taken out. -/

-- One declaration at a time: thousands of proofs in flight at once ask for more threads than fit in memory.
set_option Elab.async false

set_option linter.unusedTactic false
set_option linter.unreachableTactic false
set_option linter.unusedVariables false
set_option linter.unusedSimpArgs false
namespace Sys2Proof.Machine
open Sys2Proof
variable {pl : List Part} {sb : State}

theorem modLink_only {s : State} {n : Nat} {f : Link → Link} (hO : Within pl sb s) (hP : [.fab] ⊆ pl) : Within pl sb (modLink s n f) := by
  unfold modLink
  repeat' first
    | with_reducible assumption
    | with_reducible refine modFab_only ?_ (subset_sub hP (by decide))

theorem enqueue_only {s : State} {n sub : Nat} {it : QItem} (hO : Within pl sb s) (hP : [.regs, .fab] ⊆ pl) : Within pl sb (enqueue s n sub it) := by
  unfold enqueue
  repeat' first
    | with_reducible assumption
    | with_reducible refine ite_only ?_ ?_
    | with_reducible refine modLink_only ?_ (subset_sub hP (by decide))
    | with_reducible refine raiseReg_only ?_ (subset_sub hP (by decide))
    | (extract_lets +onlyGivenNames -underBinder x; refine cut_only (ps := pl) (s := sb) (a := x) ?_ ?_; unfold x; rotate_left; clear_value x; intro hx)
    | (extract_lets +onlyGivenNames -underBinder x; (try unfold x); clear x)

theorem kqtOnce_only {s : State} {p : Option Nat} {code subject : Nat} {payload : List Nat} (hO : Within pl sb s) (hP : [.out, .regs, .fab, .ctl, .mgt, .alm, .tel] ⊆ pl) : Within pl sb (kqtOnce s p code subject payload) := by
  unfold kqtOnce
  repeat' first
    | with_reducible assumption
    | with_reducible refine ite_only ?_ ?_
    | with_reducible refine raiseBoth_only ?_ (subset_sub hP (by decide))
    | with_reducible refine raisePf_only ?_ (subset_sub hP (by decide))
    | with_reducible refine modFab_only ?_ (subset_sub hP (by decide))
    | (extract_lets +onlyGivenNames -underBinder x; refine cut_only (ps := pl) (s := sb) (a := x) ?_ ?_; unfold x; rotate_left; clear_value x; intro hx)
    | (extract_lets +onlyGivenNames -underBinder x; (try unfold x); clear x)
    | split

theorem countDrop_only {s : State} (hO : Within pl sb s) (hP : [.ctl] ⊆ pl) : Within pl sb (countDrop s) := by
  unfold countDrop
  repeat' first
    | with_reducible assumption
    | with_reducible refine odCount_only ?_ (subset_sub hP (by decide))

theorem routeCell_holds {s : State} {c : Cell} {sub : Nat} {forward : Bool} (hO : Within pl sb s) (hP : [.regs, .fab] ⊆ pl) : Holds (InSome (Within pl sb)) (routeCell s c sub forward) := by
  unfold routeCell
  repeat' first
    | with_reducible refine map_holds fun _ _ => ?_
    | with_reducible refine ite_holds ?_ ?_
    | with_reducible exact leaf_none
    | with_reducible refine leaf_some ?_
    | with_reducible refine leaf_only ?_
    | with_reducible assumption
    | with_reducible refine enqueue_only ?_ (subset_sub hP (by decide))
    | with_reducible refine modFab_only ?_ (subset_sub hP (by decide))
theorem routeCell_only_eq {s : State} {c : Cell} {sub : Nat} {forward : Bool} {ra : State} (hO : Within pl sb s) (hP : [.regs, .fab] ⊆ pl) (hE : routeCell s c sub forward = some ra) : Within pl sb ra := by
  have k : Holds (InSome (Within pl sb)) (routeCell s c sub forward) := routeCell_holds (s := s) (c := c) (sub := sub) (forward := forward) hO hP
  rw [hE] at k; exact k.of

theorem sendCells_only_eq {s : State} {cs : List Cell} {sub : Nat} {a : State} (h : Within pl sb s) (hp : [.regs, .fab] ⊆ pl)
    (e : sendCells s cs sub = some a) : Within pl sb a := by
  have gen : ∀ (l : List Cell) (o : Option State), Holds (InSome (Within pl sb)) o →
      Holds (InSome (Within pl sb)) (l.foldl (fun a c => a.bind fun s => routeCell s c sub false) o) := by
    intro l
    induction l with
    | nil => intro o ho; exact ho
    | cons c l ih =>
      intro o ho
      refine ih _ ?_
      cases o with
      | none => exact ⟨True.intro⟩
      | some v => exact routeCell_holds ho.of hp
  have k := gen cs (some s) ⟨h⟩
  unfold sendCells at e
  rw [e] at k; exact k.of

theorem sendCells_holds {s : State} {cs : List Cell} {sub : Nat} (h : Within pl sb s) (hp : [.regs, .fab] ⊆ pl) :
    Holds (InSome (Within pl sb)) (sendCells s cs sub) := by
  cases e : sendCells s cs sub with
  | none => exact leaf_none
  | some r => exact leaf_some ⟨sendCells_only_eq h hp e⟩

theorem takeId_holds {s : State} {dst die : Nat} (hO : Within pl sb s) (hP : [.fab] ⊆ pl) : Holds (InSome (InSnd pl sb)) (takeId s dst die) := by
  unfold takeId
  repeat' first
    | with_reducible refine map_holds fun _ _ => ?_
    | with_reducible refine ite_holds ?_ ?_
    | with_reducible exact leaf_none
    | with_reducible refine leaf_some ?_
    | with_reducible refine leaf_snd ?_
    | with_reducible refine leaf_only ?_
    | with_reducible assumption
    | with_reducible refine modFab_only ?_ (subset_sub hP (by decide))
theorem takeId_only_eq {s : State} {dst die : Nat} {ra : Nat} {rb : State} (hO : Within pl sb s) (hP : [.fab] ⊆ pl) (hE : takeId s dst die = some (ra, rb)) : Within pl sb rb := by
  have k : Holds (InSome (InSnd pl sb)) (takeId s dst die) := takeId_holds (s := s) (dst := dst) (die := die) hO hP
  rw [hE] at k; exact k.of

theorem resendMsg_only {s : State} {m : SentMsg} (hO : Within pl sb s) (hP : [.regs, .fab] ⊆ pl) : Within pl sb (resendMsg s m) := by
  unfold resendMsg
  repeat' first
    | with_reducible assumption
    | with_reducible refine getD_only ?_ ?_
    | with_reducible refine sendCells_holds ?_ (subset_sub hP (by decide))
    | with_reducible refine sendCells_only_eq ?_ (subset_sub hP (by decide)) (by assumption)
    | with_reducible refine modFab_only ?_ (subset_sub hP (by decide))
    | (extract_lets +onlyGivenNames -underBinder x; refine cut_only (ps := pl) (s := sb) (a := x) ?_ ?_; unfold x; rotate_left; clear_value x; intro hx)
    | (extract_lets +onlyGivenNames -underBinder x; (try unfold x); clear x)

theorem tryMsg_only {s : State} {id : Nat} (hO : Within pl sb s) (hP : [.regs, .fab] ⊆ pl) : Within pl sb (tryMsg s id) := by
  unfold tryMsg
  repeat' first
    | with_reducible assumption
    | with_reducible refine ite_only ?_ ?_
    | with_reducible refine getD_only ?_ ?_
    | with_reducible refine sendCells_holds ?_ (subset_sub hP (by decide))
    | with_reducible refine sendCells_only_eq ?_ (subset_sub hP (by decide)) (by assumption)
    | with_reducible refine takeId_only_eq ?_ (subset_sub hP (by decide)) (by assumption)
    | with_reducible refine modFab_only ?_ (subset_sub hP (by decide))
    | (extract_lets +onlyGivenNames -underBinder x; refine cut_only (ps := pl) (s := sb) (a := x) ?_ ?_; unfold x; rotate_left; clear_value x; intro hx)
    | (extract_lets +onlyGivenNames -underBinder x; (try unfold x); clear x)
    | split

theorem tryWaiting_only {s : State} (hO : Within pl sb s) (hP : [.regs, .fab] ⊆ pl) : Within pl sb (tryWaiting s) := by
  unfold tryWaiting
  repeat' first
    | with_reducible assumption
    | with_reducible refine foldl_only ?_ fun _ _ _ => ?_
    | with_reducible refine tryMsg_only ?_ (subset_sub hP (by decide))

theorem sendMsg_holds {s : State} {m : SentMsg} (hO : Within pl sb s) (hP : [.out, .regs, .fab, .ctl, .mgt, .alm, .tel] ⊆ pl) : Holds (InFst pl sb) (sendMsg s m) := by
  unfold sendMsg
  repeat' first
    | with_reducible refine ite_holds ?_ ?_
    | with_reducible refine leaf_fst ?_
    | with_reducible assumption
    | with_reducible refine ite_only ?_ ?_
    | with_reducible refine kqtOnce_only ?_ (subset_sub hP (by decide))
    | with_reducible refine odCount_only ?_ (subset_sub hP (by decide))
    | with_reducible refine tryMsg_only ?_ (subset_sub hP (by decide))
    | with_reducible refine modFab_only ?_ (subset_sub hP (by decide))
    | (extract_lets +onlyGivenNames -underBinder x; refine cut_only (ps := pl) (s := sb) (a := x) ?_ ?_; unfold x; rotate_left; clear_value x; intro hx)
    | (extract_lets +onlyGivenNames -underBinder x; (try unfold x); clear x)
theorem sendMsg_only_eq {s : State} {m : SentMsg} {ra : State} {rb : Option Nat} (hO : Within pl sb s) (hP : [.out, .regs, .fab, .ctl, .mgt, .alm, .tel] ⊆ pl) (hE : sendMsg s m = (ra, rb)) : Within pl sb ra := by
  have k : Holds (InFst pl sb) (sendMsg s m) := sendMsg_holds (s := s) (m := m) hO hP
  rw [hE] at k; exact k.of
theorem sendMsg_only {s : State} {m : SentMsg} (hO : Within pl sb s) (hP : [.out, .regs, .fab, .ctl, .mgt, .alm, .tel] ⊆ pl) : Within pl sb (sendMsg s m).1 := (sendMsg_holds (s := s) (m := m) hO hP).of

theorem dropMsg_only {s : State} {m : SentMsg} (hO : Within pl sb s) (hP : [.regs, .fab] ⊆ pl) : Within pl sb (dropMsg s m) := by
  unfold dropMsg
  repeat' first
    | with_reducible assumption
    | with_reducible refine tryWaiting_only ?_ (subset_sub hP (by decide))
    | with_reducible refine modFab_only ?_ (subset_sub hP (by decide))
    | split

theorem rrcDrop_only {s : State} {addr len : Nat} (hO : Within pl sb s) (hP : [.fab] ⊆ pl) : Within pl sb (rrcDrop s addr len) := by
  unfold rrcDrop
  repeat' first
    | with_reducible assumption
    | with_reducible refine modFab_only ?_ (subset_sub hP (by decide))

theorem rrcFill_only {s : State} {p tile : Nat} {bytes : List Byte} {poison : List Nat} (hO : Within pl sb s) (hP : [.mem, .fab] ⊆ pl) : Within pl sb (rrcFill s p tile bytes poison) := by
  unfold rrcFill
  repeat' first
    | with_reducible assumption
    | with_reducible refine ite_only ?_ ?_
    | with_reducible refine tierWriteP_only ?_ (subset_sub hP (by decide))
    | with_reducible refine modFab_only ?_ (subset_sub hP (by decide))
    | (extract_lets +onlyGivenNames -underBinder x; refine cut_only (ps := pl) (s := sb) (a := x) ?_ ?_; unfold x; rotate_left; clear_value x; intro hx)
    | (extract_lets +onlyGivenNames -underBinder x; (try unfold x); clear x)
    | split

theorem modQp_only {s : State} {ix : Nat} {f : Qp → Qp} (hO : Within pl sb s) (hP : [.px] ⊆ pl) : Within pl sb (modQp s ix f) := by
  unfold modQp
  repeat' first
    | with_reducible assumption
    | with_reducible refine modPx_only ?_ (subset_sub hP (by decide))

theorem sendRoce_only {s : State} {q : Qp} {p : RocePkt} (hO : Within pl sb s) (hP : [.regs, .fab, .tel] ⊆ pl) : Within pl sb (sendRoce s q p) := by
  unfold sendRoce
  repeat' first
    | with_reducible assumption
    | with_reducible refine ite_only ?_ ?_
    | with_reducible refine enqueue_only ?_ (subset_sub hP (by decide))
    | with_reducible refine qsCount_only ?_ (subset_sub hP (by decide))
    | (extract_lets +onlyGivenNames -underBinder x; refine cut_only (ps := pl) (s := sb) (a := x) ?_ ?_; unfold x; rotate_left; clear_value x; intro hx)
    | (extract_lets +onlyGivenNames -underBinder x; (try unfold x); clear x)

theorem gwSend_only {s : State} {ix : Nat} (hO : Within pl sb s) (hP : [.regs, .fab, .px, .tel] ⊆ pl) : Within pl sb (gwSend s ix) := by
  unfold gwSend
  repeat' first
    | with_reducible assumption
    | with_reducible refine ite_only ?_ ?_
    | with_reducible refine foldl_only ?_ fun _ _ _ => ?_
    | with_reducible refine modQp_only ?_ (subset_sub hP (by decide))
    | with_reducible refine sendRoce_only ?_ (subset_sub hP (by decide))
    | with_reducible refine modPx_only ?_ (subset_sub hP (by decide))
    | (extract_lets +onlyGivenNames -underBinder x; refine cut_only (ps := pl) (s := sb) (a := x) ?_ ?_; unfold x; rotate_left; clear_value x; intro hx)
    | (extract_lets +onlyGivenNames -underBinder x; (try unfold x); clear x)
    | split

theorem gwStart_holds {s : State} {w p op addr len : Nat} {data : List Byte} {owner : MemOwner} (hO : Within pl sb s) (hP : [.regs, .fab, .px, .tel] ⊆ pl) : Holds (InFst pl sb) (gwStart s w p op addr len data owner) := by
  unfold gwStart
  repeat' first
    | with_reducible refine ite_holds ?_ ?_
    | with_reducible refine leaf_fst ?_
    | with_reducible assumption
    | with_reducible refine ite_only ?_ ?_
    | with_reducible refine gwSend_only ?_ (subset_sub hP (by decide))
    | with_reducible refine modQp_only ?_ (subset_sub hP (by decide))
    | with_reducible refine qsCount_only ?_ (subset_sub hP (by decide))
    | (extract_lets +onlyGivenNames -underBinder x; refine cut_only (ps := pl) (s := sb) (a := x) ?_ ?_; unfold x; rotate_left; clear_value x; intro hx)
    | (extract_lets +onlyGivenNames -underBinder x; (try unfold x); clear x)
    | split
theorem gwStart_only_eq {s : State} {w p op addr len : Nat} {data : List Byte} {owner : MemOwner} {ra : State} {rb : Option Nat} (hO : Within pl sb s) (hP : [.regs, .fab, .px, .tel] ⊆ pl) (hE : gwStart s w p op addr len data owner = (ra, rb)) : Within pl sb ra := by
  have k : Holds (InFst pl sb) (gwStart s w p op addr len data owner) := gwStart_holds (s := s) (w := w) (p := p) (op := op) (addr := addr) (len := len) (data := data) (owner := owner) hO hP
  rw [hE] at k; exact k.of
theorem gwStart_only {s : State} {w p op addr len : Nat} {data : List Byte} {owner : MemOwner} (hO : Within pl sb s) (hP : [.regs, .fab, .px, .tel] ⊆ pl) : Within pl sb (gwStart s w p op addr len data owner).1 := (gwStart_holds (s := s) (w := w) (p := p) (op := op) (addr := addr) (len := len) (data := data) (owner := owner) hO hP).of

theorem globalOp_holds {s : State} {p op addr len : Nat} {data : List Byte} {poison : List Nat} {owner : MemOwner} {handle epoch : Nat} (hO : Within pl sb s) (hP : [.out, .regs, .fab, .px, .ctl, .mgt, .alm, .tel] ⊆ pl) : Holds (InFst pl sb) (globalOp s p op addr len data poison owner handle epoch) := by
  unfold globalOp
  repeat' first
    | with_reducible refine ite_holds ?_ ?_
    | with_reducible refine leaf_fst ?_
    | with_reducible assumption
    | with_reducible refine ite_only ?_ ?_
    | with_reducible refine countAccess_only ?_ (subset_sub hP (by decide))
    | with_reducible refine gwStart_only_eq ?_ (subset_sub hP (by decide)) (by assumption)
    | with_reducible refine gwStart_only ?_ (subset_sub hP (by decide))
    | with_reducible refine odCount_only ?_ (subset_sub hP (by decide))
    | with_reducible refine rrcDrop_only ?_ (subset_sub hP (by decide))
    | with_reducible refine sendMsg_only_eq ?_ (subset_sub hP (by decide)) (by assumption)
    | with_reducible refine sendMsg_only ?_ (subset_sub hP (by decide))
    | (extract_lets +onlyGivenNames -underBinder x; refine cut_only (ps := pl) (s := sb) (a := x) ?_ ?_; unfold x; rotate_left; clear_value x; intro hx)
    | (extract_lets +onlyGivenNames -underBinder x; (try unfold x); clear x)
    | split
theorem globalOp_only_eq {s : State} {p op addr len : Nat} {data : List Byte} {poison : List Nat} {owner : MemOwner} {handle epoch : Nat} {ra : State} {rb : Option Nat} {rc : Bool} (hO : Within pl sb s) (hP : [.out, .regs, .fab, .px, .ctl, .mgt, .alm, .tel] ⊆ pl) (hE : globalOp s p op addr len data poison owner handle epoch = (ra, rb, rc)) : Within pl sb ra := by
  have k : Holds (InFst pl sb) (globalOp s p op addr len data poison owner handle epoch) := globalOp_holds (s := s) (p := p) (op := op) (addr := addr) (len := len) (data := data) (poison := poison) (owner := owner) (handle := handle) (epoch := epoch) hO hP
  rw [hE] at k; exact k.of
theorem globalOp_only {s : State} {p op addr len : Nat} {data : List Byte} {poison : List Nat} {owner : MemOwner} {handle epoch : Nat} (hO : Within pl sb s) (hP : [.out, .regs, .fab, .px, .ctl, .mgt, .alm, .tel] ⊆ pl) : Within pl sb (globalOp s p op addr len data poison owner handle epoch).1 := (globalOp_holds (s := s) (p := p) (op := op) (addr := addr) (len := len) (data := data) (poison := poison) (owner := owner) (handle := handle) (epoch := epoch) hO hP).of

end Sys2Proof.Machine
end

