-- ==== Sys2Proof/Laws/FrameOperands.lean ====
section
/-! SUPPORT. What each function of Machine/Operands.lean can do to the state as a whole: the parts it can change; the queue, the population and the
canonical forms it keeps. `f_only` speaks of the state that `f` answers, `f_holds` of a state inside its answer, `f_only_eq` of one taken out. -/

-- One declaration at a time: thousands of proofs in flight at once ask for more threads than fit in memory.
set_option Elab.async false

set_option linter.unusedTactic false
set_option linter.unreachableTactic false
set_option linter.unusedVariables false
set_option linter.unusedSimpArgs false
namespace Sys2Proof.Machine
open Sys2Proof
variable {pl : List Part} {sb : State}

theorem modInst_only {s : State} {i : Nat} {f : Inst → Inst} (hO : Within pl sb s) (hP : [.work] ⊆ pl) : Within pl sb (modInst s i f) := by
  unfold modInst
  repeat' first
    | with_reducible assumption
    | with_reducible refine modWork_only ?_ (subset_sub hP (by decide))

theorem modTask_only {s : State} {t : Nat} {f : Task → Task} (hO : Within pl sb s) (hP : [.work] ⊆ pl) : Within pl sb (modTask s t f) := by
  unfold modTask
  repeat' first
    | with_reducible assumption
    | with_reducible refine modWork_only ?_ (subset_sub hP (by decide))

theorem bumpCounter_only {s : State} {uid ix n : Nat} (hO : Within pl sb s) (hP : [.work] ⊆ pl) : Within pl sb (bumpCounter s uid ix n) := by
  unfold bumpCounter
  repeat' first
    | with_reducible assumption
    | with_reducible refine modWork_only ?_ (subset_sub hP (by decide))
    | (extract_lets +onlyGivenNames -underBinder x; refine cut_only (ps := pl) (s := sb) (a := x) ?_ ?_; unfold x; rotate_left; clear_value x; intro hx)
    | (extract_lets +onlyGivenNames -underBinder x; (try unfold x); clear x)

end Sys2Proof.Machine
end

