-- ==== Sys2Proof/Laws/FrameSample.lean ====
section
/-! SUPPORT. What each function of Machine/Sample.lean can do to the state as a whole: the parts it can change; the queue, the population and the
canonical forms it keeps. `f_only` speaks of the state that `f` answers, `f_holds` of a state inside its answer, `f_only_eq` of one taken out. -/

-- One declaration at a time: thousands of proofs in flight at once ask for more threads than fit in memory.
set_option Elab.async false

set_option linter.unusedTactic false
set_option linter.unreachableTactic false
set_option linter.unusedVariables false
set_option linter.unusedSimpArgs false
namespace Sys2Proof.Machine
open Sys2Proof
variable {pl : List Part} {sb : State}

theorem telDrop_only {s : State} {ring n : Nat} (hO : Within pl sb s) (hP : [.tel] ⊆ pl) : Within pl sb (telDrop s ring n) := by
  unfold telDrop
  repeat' first
    | with_reducible assumption
    | with_reducible refine modTel_only ?_ (subset_sub hP (by decide))

theorem telItem_only {s : State} {ring kind final extra mask time seq entries : Nat} {body : List Nat} (hO : Within pl sb s) (hP : [.out, .regs, .tel] ⊆ pl) : Within pl sb (telItem s ring kind final extra mask time seq entries body) := by
  unfold telItem
  repeat' first
    | with_reducible assumption
    | with_reducible refine ite_only ?_ ?_
    | with_reducible refine bumpReg_only ?_ (subset_sub hP (by decide))
    | with_reducible refine ringWrite_only ?_ (subset_sub hP (by decide))
    | with_reducible refine telDrop_only ?_ (subset_sub hP (by decide))
    | with_reducible refine modTel_only ?_ (subset_sub hP (by decide))
    | (extract_lets +onlyGivenNames -underBinder x; refine cut_only (ps := pl) (s := sb) (a := x) ?_ ?_; unfold x; rotate_left; clear_value x; intro hx)
    | (extract_lets +onlyGivenNames -underBinder x; (try unfold x); clear x)

theorem telSeq_holds {s : State} {ring : Nat} (hO : Within pl sb s) (hP : [.tel] ⊆ pl) : Holds (InSnd pl sb) (telSeq s ring) := by
  unfold telSeq
  repeat' first
    | with_reducible refine leaf_snd ?_
    | with_reducible assumption
    | with_reducible refine modTel_only ?_ (subset_sub hP (by decide))
theorem telSeq_only_eq {s : State} {ring : Nat} {ra : Nat} {rb : State} (hO : Within pl sb s) (hP : [.tel] ⊆ pl) (hE : telSeq s ring = (ra, rb)) : Within pl sb rb := by
  have k : Holds (InSnd pl sb) (telSeq s ring) := telSeq_holds (s := s) (ring := ring) hO hP
  rw [hE] at k; exact k.of
theorem telSeq_only {s : State} {ring : Nat} (hO : Within pl sb s) (hP : [.tel] ⊆ pl) : Within pl sb (telSeq s ring).2 := (telSeq_holds (s := s) (ring := ring) hO hP).of

theorem forwardCounts_only {s : State} {l : Nat} {lost : Bool} (hO : Within pl sb s) (hP : [.work, .tel] ⊆ pl) : Within pl sb (forwardCounts s l lost) := by
  unfold forwardCounts
  repeat' first
    | with_reducible assumption
    | with_reducible refine ite_only ?_ ?_
    | with_reducible refine foldl_only ?_ fun _ _ _ => ?_
    | with_reducible refine telMark_only ?_ (subset_sub hP (by decide))
    | with_reducible refine modTel_only ?_ (subset_sub hP (by decide))
    | with_reducible refine modWork_only ?_ (subset_sub hP (by decide))
    | (extract_lets +onlyGivenNames -underBinder x; refine cut_only (ps := pl) (s := sb) (a := x) ?_ ?_; unfold x; rotate_left; clear_value x; intro hx)
    | (extract_lets +onlyGivenNames -underBinder x; (try unfold x); clear x)

theorem freeBusy_only {s : State} {c : Nat} (hO : Within pl sb s) (hP : [.freeCount, .work, .tel] ⊆ pl) : Within pl sb (freeBusy s c) := by
  unfold freeBusy
  repeat' first
    | with_reducible assumption
    | with_reducible refine bumpCounter_only ?_ (subset_sub hP (by decide))
    | with_reducible refine fresh_only_eq ?_ (subset_sub hP (by decide)) (by assumption)
    | with_reducible refine fresh_only ?_ (subset_sub hP (by decide))
    | with_reducible refine telAcct_only ?_ (subset_sub hP (by decide))
    | (extract_lets +onlyGivenNames -underBinder x; refine cut_only (ps := pl) (s := sb) (a := x) ?_ ?_; unfold x; rotate_left; clear_value x; intro hx)
    | (extract_lets +onlyGivenNames -underBinder x; (try unfold x); clear x)
    | split

theorem freeCounts_only {s : State} {l : Nat} (hO : Within pl sb s) (hP : [.freeCount, .work, .tel] ⊆ pl) : Within pl sb (freeCounts s l) := by
  unfold freeCounts
  repeat' first
    | with_reducible assumption
    | with_reducible refine foldl_only ?_ fun _ _ _ => ?_
    | with_reducible refine freeBusy_only ?_ (subset_sub hP (by decide))
    | with_reducible refine fresh_only_eq ?_ (subset_sub hP (by decide)) (by assumption)
    | with_reducible refine fresh_only ?_ (subset_sub hP (by decide))
    | with_reducible refine progCount_only ?_ (subset_sub hP (by decide))
    | (extract_lets +onlyGivenNames -underBinder x; refine cut_only (ps := pl) (s := sb) (a := x) ?_ ?_; unfold x; rotate_left; clear_value x; intro hx)
    | (extract_lets +onlyGivenNames -underBinder x; (try unfold x); clear x)
    | split

theorem execUnitHeartbeat_holds {phys : Nat} {s : State} (hO : Within pl sb s) (hP : [.freeCount, .cons, .work, .tel] ⊆ pl) : Holds (InNext pl sb) (execUnitHeartbeat phys s) := by
  unfold execUnitHeartbeat
  repeat' first
    | with_reducible refine leaf_next ?_
    | with_reducible assumption
    | with_reducible refine ite_only ?_ ?_
    | with_reducible refine forwardCounts_only ?_ (subset_sub hP (by decide))
    | with_reducible refine freeCounts_only ?_ (subset_sub hP (by decide))
    | with_reducible refine modCon_only ?_ (subset_sub hP (by decide))
    | (extract_lets +onlyGivenNames -underBinder x; refine cut_only (ps := pl) (s := sb) (a := x) ?_ ?_; unfold x; rotate_left; clear_value x; intro hx)
    | (extract_lets +onlyGivenNames -underBinder x; (try unfold x); clear x)
    | split
theorem execUnitHeartbeat_only {phys : Nat} {s : State} {t : State} (hO : Within pl sb s) (hP : [.freeCount, .cons, .work, .tel] ⊆ pl) (hE : execUnitHeartbeat phys s = .next t) : Within pl sb t := by
  have k : Holds (InNext pl sb) (execUnitHeartbeat phys s) := execUnitHeartbeat_holds (phys := phys) (s := s) hO hP
  rw [hE] at k; exact k.of

theorem activity_only {s : State} {i : Inst} {p k n : Nat} (hO : Within pl sb s) (hP : [.tel] ⊆ pl) : Within pl sb (activity s i p k n) := by
  unfold activity
  repeat' first
    | with_reducible assumption
    | with_reducible refine telAct_only ?_ (subset_sub hP (by decide))

theorem chargeLines_only {s : State} {i : Inst} {p n : Nat} (hO : Within pl sb s) (hP : [.tel] ⊆ pl) : Within pl sb (chargeLines s i p n) := by
  unfold chargeLines
  repeat' first
    | with_reducible assumption
    | with_reducible refine activity_only ?_ (subset_sub hP (by decide))

theorem countMac_only {s : State} {i : Inst} {p fa fb k lines : Nat} (hO : Within pl sb s) (hP : [.work, .tel] ⊆ pl) : Within pl sb (countMac s i p fa fb k lines) := by
  unfold countMac
  repeat' first
    | with_reducible assumption
    | with_reducible refine activity_only ?_ (subset_sub hP (by decide))
    | with_reducible refine bumpCounter_only ?_ (subset_sub hP (by decide))
    | with_reducible refine chargeLines_only ?_ (subset_sub hP (by decide))

theorem countDecode_only {s : State} {i : Inst} {p f n : Nat} (hO : Within pl sb s) (hP : [.tel] ⊆ pl) : Within pl sb (countDecode s i p f n) := by
  unfold countDecode
  repeat' first
    | with_reducible assumption
    | with_reducible refine ite_only ?_ ?_
    | with_reducible refine activity_only ?_ (subset_sub hP (by decide))
    | with_reducible refine progCount_only ?_ (subset_sub hP (by decide))

theorem tileCount_only {s : State} {i : Inst} {ix n : Nat} (hO : Within pl sb s) (hP : [.work] ⊆ pl) : Within pl sb (tileCount s i ix n) := by
  unfold tileCount
  repeat' first
    | with_reducible assumption
    | with_reducible refine bumpCounter_only ?_ (subset_sub hP (by decide))
    | with_reducible refine modInst_only ?_ (subset_sub hP (by decide))

theorem instTiles_only {s : State} {i : Inst} {tile n : Nat} {w : Bool} (hO : Within pl sb s) (hP : [.tel] ⊆ pl) : Within pl sb (instTiles s i tile n w) := by
  unfold instTiles
  repeat' first
    | with_reducible assumption
    | with_reducible refine ite_only ?_ ?_
    | with_reducible refine chargeLines_only ?_ (subset_sub hP (by decide))
    | with_reducible refine countTiles_only ?_ (subset_sub hP (by decide))

theorem samplerStep_holds {s : State} {ring : Nat} {tagging : Bool} (hO : Within pl sb s) (hP : [.tel] ⊆ pl) : Holds (InFst pl sb) (samplerStep s ring tagging) := by
  unfold samplerStep
  repeat' first
    | with_reducible refine ite_holds ?_ ?_
    | with_reducible refine leaf_fst ?_
    | with_reducible assumption
    | with_reducible refine ite_only ?_ ?_
    | with_reducible refine modTel_only ?_ (subset_sub hP (by decide))
    | (extract_lets +onlyGivenNames -underBinder x; refine cut_only (ps := pl) (s := sb) (a := x) ?_ ?_; unfold x; rotate_left; clear_value x; intro hx)
    | (extract_lets +onlyGivenNames -underBinder x; (try unfold x); clear x)
theorem samplerStep_only_eq {s : State} {ring : Nat} {tagging : Bool} {ra : State} {rb : Bool} (hO : Within pl sb s) (hP : [.tel] ⊆ pl) (hE : samplerStep s ring tagging = (ra, rb)) : Within pl sb ra := by
  have k : Holds (InFst pl sb) (samplerStep s ring tagging) := samplerStep_holds (s := s) (ring := ring) (tagging := tagging) hO hP
  rw [hE] at k; exact k.of
theorem samplerStep_only {s : State} {ring : Nat} {tagging : Bool} (hO : Within pl sb s) (hP : [.tel] ⊆ pl) : Within pl sb (samplerStep s ring tagging).1 := (samplerStep_holds (s := s) (ring := ring) (tagging := tagging) hO hP).of

theorem precise_only {s : State} {i : Inst} {t : Task} {opc cause status : Nat} {rings : List Nat} (hO : Within pl sb s) (hP : [.freeCount, .tel] ⊆ pl) : Within pl sb (precise s i t opc cause status rings) := by
  unfold precise
  repeat' first
    | with_reducible assumption
    | with_reducible refine ite_only ?_ ?_
    | with_reducible refine foldl_only ?_ fun _ _ _ => ?_
    | with_reducible refine fresh_only_eq ?_ (subset_sub hP (by decide)) (by assumption)
    | with_reducible refine fresh_only ?_ (subset_sub hP (by decide))
    | with_reducible refine telDrop_only ?_ (subset_sub hP (by decide))
    | with_reducible refine modTel_only ?_ (subset_sub hP (by decide))
    | (extract_lets +onlyGivenNames -underBinder x; refine cut_only (ps := pl) (s := sb) (a := x) ?_ ?_; unfold x; rotate_left; clear_value x; intro hx)
    | (extract_lets +onlyGivenNames -underBinder x; (try unfold x); clear x)
    | split

theorem precisePf_only {s : State} {i : Inst} {t : Task} {opc cause status : Nat} (hO : Within pl sb s) (hP : [.freeCount, .tel] ⊆ pl) : Within pl sb (precisePf s i t opc cause status) := by
  unfold precisePf
  repeat' first
    | with_reducible assumption
    | with_reducible refine ite_only ?_ ?_
    | with_reducible refine precise_only ?_ (subset_sub hP (by decide))

theorem retire_only {s : State} {i : Inst} {t : Task} {opc : Nat} (hO : Within pl sb s) (hP : [.freeCount, .work, .tel] ⊆ pl) : Within pl sb (retire s i t opc) := by
  unfold retire
  repeat' first
    | with_reducible assumption
    | with_reducible refine ite_only ?_ ?_
    | with_reducible refine foldl_only ?_ fun _ _ _ => ?_
    | with_reducible refine foldlFst_only ?_ fun _ _ _ => ?_
    | with_reducible refine bumpCounter_only ?_ (subset_sub hP (by decide))
    | with_reducible refine modInst_only ?_ (subset_sub hP (by decide))
    | with_reducible refine precise_only ?_ (subset_sub hP (by decide))
    | with_reducible refine samplerStep_only_eq ?_ (subset_sub hP (by decide)) (by assumption)
    | with_reducible refine samplerStep_only ?_ (subset_sub hP (by decide))
    | (extract_lets +onlyGivenNames -underBinder x; refine cut_only (ps := pl) (s := sb) (a := x) ?_ ?_; unfold x; rotate_left; clear_value x; intro hx)
    | (extract_lets +onlyGivenNames -underBinder x; (try unfold x); clear x)
    | split

theorem tagInst_holds {s : State} {p : Nat} (hO : Within pl sb s) (hP : [.tel] ⊆ pl) : Holds (InFst pl sb) (tagInst s p) := by
  unfold tagInst
  repeat' first
    | with_reducible refine foldl_holds ?_ fun _ _ _ => ?_
    | with_reducible refine ite_holds ?_ ?_
    | with_reducible refine leaf_fst ?_
    | with_reducible assumption
    | with_reducible refine ite_only ?_ ?_
    | with_reducible refine foldl_only ?_ fun _ _ _ => ?_
    | with_reducible refine foldlFst_only ?_ fun _ _ _ => ?_
    | with_reducible refine samplerStep_only_eq ?_ (subset_sub hP (by decide)) (by assumption)
    | with_reducible refine samplerStep_only ?_ (subset_sub hP (by decide))
    | with_reducible exact ofFst (by with_reducible assumption)
    | (extract_lets +onlyGivenNames -underBinder x; refine cut_only (ps := pl) (s := sb) (a := x) ?_ ?_; unfold x; rotate_left; clear_value x; intro hx)
    | (extract_lets +onlyGivenNames -underBinder x; (try unfold x); clear x)
    | split
theorem tagInst_only_eq {s : State} {p : Nat} {ra : State} {rb : List Nat} (hO : Within pl sb s) (hP : [.tel] ⊆ pl) (hE : tagInst s p = (ra, rb)) : Within pl sb ra := by
  have k : Holds (InFst pl sb) (tagInst s p) := tagInst_holds (s := s) (p := p) hO hP
  rw [hE] at k; exact k.of
theorem tagInst_only {s : State} {p : Nat} (hO : Within pl sb s) (hP : [.tel] ⊆ pl) : Within pl sb (tagInst s p).1 := (tagInst_holds (s := s) (p := p) hO hP).of

theorem sampleEnd_only {s : State} {i : Inst} {status : Nat} (hO : Within pl sb s) (hP : [.out, .freeCount, .regs, .tel] ⊆ pl) : Within pl sb (sampleEnd s i status) := by
  unfold sampleEnd
  repeat' first
    | with_reducible assumption
    | with_reducible refine ite_only ?_ ?_
    | with_reducible refine foldl_only ?_ fun _ _ _ => ?_
    | with_reducible refine fresh_only_eq ?_ (subset_sub hP (by decide)) (by assumption)
    | with_reducible refine fresh_only ?_ (subset_sub hP (by decide))
    | with_reducible refine precisePf_only ?_ (subset_sub hP (by decide))
    | with_reducible refine telItem_only ?_ (subset_sub hP (by decide))
    | with_reducible refine telSeq_only_eq ?_ (subset_sub hP (by decide)) (by assumption)
    | with_reducible refine telSeq_only ?_ (subset_sub hP (by decide))
    | (extract_lets +onlyGivenNames -underBinder x; refine cut_only (ps := pl) (s := sb) (a := x) ?_ ?_; unfold x; rotate_left; clear_value x; intro hx)
    | (extract_lets +onlyGivenNames -underBinder x; (try unfold x); clear x)
    | split

end Sys2Proof.Machine
end

