-- ==== Sys2Proof/Laws/FrameWork.lean ====
section
/-! SUPPORT. What each function of Machine/Work.lean can do to the state as a whole: the parts it can change; the queue, the population and the
canonical forms it keeps. `f_only` speaks of the state that `f` answers, `f_holds` of a state inside its answer, `f_only_eq` of one taken out. -/

-- One declaration at a time: thousands of proofs in flight at once ask for more threads than fit in memory.
set_option Elab.async false

set_option linter.unusedTactic false
set_option linter.unreachableTactic false
set_option linter.unusedVariables false
set_option linter.unusedSimpArgs false
namespace Sys2Proof.Machine
open Sys2Proof
variable {pl : List Part} {sb : State}

theorem taskRec_only {s : State} {t : Task} {status detail : Nat} (hO : Within pl sb s) (hP : [.out, .regs, .tel] ⊆ pl) : Within pl sb (taskRec s t status detail) := by
  unfold taskRec
  repeat' first
    | with_reducible assumption
    | with_reducible refine ite_only ?_ ?_
    | with_reducible refine taskWrite_only ?_ (subset_sub hP (by decide))
    | (extract_lets +onlyGivenNames -underBinder x; refine cut_only (ps := pl) (s := sb) (a := x) ?_ ?_; unfold x; rotate_left; clear_value x; intro hx)
    | (extract_lets +onlyGivenNames -underBinder x; (try unfold x); clear x)
    | split

theorem dropPacks_only {s : State} {t : Task} (hO : Within pl sb s) (hP : [.serve] ⊆ pl) : Within pl sb (dropPacks s t) := by
  unfold dropPacks
  repeat' first
    | with_reducible assumption
    | with_reducible refine foldl_only ?_ fun _ _ _ => ?_
    | with_reducible refine tabRef_only ?_ (subset_sub hP (by decide))

theorem closeTask_only {s : State} {t : Task} {status detail : Nat} (hO : Within pl sb s) (hP : [.out, .regs, .work, .serve, .tel] ⊆ pl) : Within pl sb (closeTask s t status detail) := by
  unfold closeTask
  repeat' first
    | with_reducible assumption
    | with_reducible refine dropPacks_only ?_ (subset_sub hP (by decide))
    | with_reducible refine taskRec_only ?_ (subset_sub hP (by decide))
    | with_reducible refine modWork_only ?_ (subset_sub hP (by decide))
    | split

theorem reportUnit_only {s : State} {t : Task} {u : Nat} (hO : Within pl sb s) (hP : [.out, .regs, .tel] ⊆ pl) : Within pl sb (reportUnit s t u) := by
  unfold reportUnit
  repeat' first
    | with_reducible assumption
    | with_reducible refine ite_only ?_ ?_
    | with_reducible refine taskWrite_only ?_ (subset_sub hP (by decide))
    | (extract_lets +onlyGivenNames -underBinder x; refine cut_only (ps := pl) (s := sb) (a := x) ?_ ?_; unfold x; rotate_left; clear_value x; intro hx)
    | (extract_lets +onlyGivenNames -underBinder x; (try unfold x); clear x)
    | split

theorem runReport_only {s : State} {t : Task} (hO : Within pl sb s) (hP : [.out, .regs, .work, .serve, .tel] ⊆ pl) : Within pl sb (runReport s t) := by
  unfold runReport
  repeat' first
    | with_reducible assumption
    | with_reducible refine foldl_only ?_ fun _ _ _ => ?_
    | with_reducible refine closeTask_only ?_ (subset_sub hP (by decide))
    | with_reducible refine reportUnit_only ?_ (subset_sub hP (by decide))

theorem settleStep_only_eq {s : State} {a : State} (h : Within pl sb s) (hp : [.out, .regs, .work, .serve, .tel] ⊆ pl) (e : settleStep s = some a) :
    Within pl sb a := by
  unfold settleStep at e
  dsimp only at e
  split at e
  · cases e
    refine ite_only ?_ ?_
    · exact modTask_only h (subset_sub hp (by decide))
    · exact closeTask_only h (subset_sub hp (by decide))
  · split at e
    · cases e
      refine ite_only ?_ ?_
      · exact modWork_only h (subset_sub hp (by decide))
      · exact runReport_only h (subset_sub hp (by decide))
    · have k := map_holds (P := Within pl sb) (f := fun t => closeTask s t stOK t.detail)
        (o := (sortBy (·.id) s.work.tasks).find? fun t => t.kind == 3 && t.waits.all fun d => !live s d)
        fun t _ => ⟨closeTask_only h (subset_sub hp (by decide))⟩
      rw [e] at k; exact k.of

theorem settleStep_holds {s : State} (h : Within pl sb s) (hp : [.out, .regs, .work, .serve, .tel] ⊆ pl) :
    Holds (InSome (Within pl sb)) (settleStep s) := by
  cases e : settleStep s with
  | none => exact leaf_none
  | some r => exact leaf_some ⟨settleStep_only_eq h hp e⟩

theorem settleN_only {n : Nat} {s : State} (h : Within pl sb s) (hp : [.out, .regs, .work, .serve, .tel] ⊆ pl) : Within pl sb (settleN n s) := by
  induction n generalizing s with
  | zero => exact h
  | succ n ih =>
    unfold settleN
    split
    · exact ih (settleStep_only_eq h (subset_sub hp (by decide)) (by assumption))
    · exact h

theorem settle_only {s : State} (hO : Within pl sb s) (hP : [.out, .regs, .work, .serve, .tel] ⊆ pl) : Within pl sb (settle s) := by
  unfold settle
  repeat' first
    | with_reducible assumption
    | with_reducible refine settleN_only ?_ (subset_sub hP (by decide))

theorem sendLogits_only {s : State} {h : Nat} {logits : List Nat} (hO : Within pl sb s) (hP : [.out, .regs, .serve, .ctl, .tel] ⊆ pl) : Within pl sb (sendLogits s h logits) := by
  unfold sendLogits
  repeat' first
    | with_reducible assumption
    | with_reducible refine hostWrite_only ?_ (subset_sub hP (by decide))
    | with_reducible refine modReq_only ?_ (subset_sub hP (by decide))
    | with_reducible refine tokenRec_only ?_ (subset_sub hP (by decide))
    | (extract_lets +onlyGivenNames -underBinder x; refine cut_only (ps := pl) (s := sb) (a := x) ?_ ?_; unfold x; rotate_left; clear_value x; intro hx)
    | (extract_lets +onlyGivenNames -underBinder x; (try unfold x); clear x)
    | split

theorem endStream_only {s : State} {h : Nat} (hO : Within pl sb s) (hP : [.out, .mem, .serve] ⊆ pl) : Within pl sb (endStream s h) := by
  unfold endStream
  repeat' first
    | with_reducible assumption
    | with_reducible refine ite_only ?_ ?_
    | with_reducible refine endMove_only ?_ (subset_sub hP (by decide))
    | with_reducible refine modReq_only ?_ (subset_sub hP (by decide))
    | with_reducible refine sendState_only ?_ (subset_sub hP (by decide))
    | (extract_lets +onlyGivenNames -underBinder x; refine cut_only (ps := pl) (s := sb) (a := x) ?_ ?_; unfold x; rotate_left; clear_value x; intro hx)
    | (extract_lets +onlyGivenNames -underBinder x; (try unfold x); clear x)
    | split

theorem startHandoff_only {s : State} {h : Nat} (hO : Within pl sb s) (hP : [.out, .regs, .mem, .serve, .ctl, .tel] ⊆ pl) : Within pl sb (startHandoff s h) := by
  unfold startHandoff
  repeat' first
    | with_reducible assumption
    | with_reducible refine ite_only ?_ ?_
    | with_reducible refine foldl_only ?_ fun _ _ _ => ?_
    | with_reducible refine addMove_only ?_ (subset_sub hP (by decide))
    | with_reducible refine carryPage_only ?_ (subset_sub hP (by decide))
    | with_reducible refine endStream_only ?_ (subset_sub hP (by decide))
    | with_reducible refine goState_only ?_ (subset_sub hP (by decide))
    | with_reducible refine modMove_only ?_ (subset_sub hP (by decide))
    | with_reducible refine modReq_only ?_ (subset_sub hP (by decide))
    | with_reducible refine ringWrite_only ?_ (subset_sub hP (by decide))
    | (extract_lets +onlyGivenNames -underBinder x; refine cut_only (ps := pl) (s := sb) (a := x) ?_ ?_; unfold x; rotate_left; clear_value x; intro hx)
    | (extract_lets +onlyGivenNames -underBinder x; (try unfold x); clear x)
    | split

theorem streamPage_only {s : State} {h num : Nat} (hO : Within pl sb s) (hP : [.serve] ⊆ pl) : Within pl sb (streamPage s h num) := by
  unfold streamPage
  repeat' first
    | with_reducible assumption
    | with_reducible refine ite_only ?_ ?_
    | with_reducible refine addMove_only ?_ (subset_sub hP (by decide))
    | with_reducible refine carryPage_only ?_ (subset_sub hP (by decide))
    | (extract_lets +onlyGivenNames -underBinder x; refine cut_only (ps := pl) (s := sb) (a := x) ?_ ?_; unfold x; rotate_left; clear_value x; intro hx)
    | (extract_lets +onlyGivenNames -underBinder x; (try unfold x); clear x)
    | split

theorem stepEnd_only {s : State} {h : Nat} {t : Task} (hO : Within pl sb s) (hP : [.out, .regs, .mem, .serve, .ctl, .tel] ⊆ pl) :
    Within pl sb (stepEnd s h t) := by
  unfold stepEnd
  split
  · exact hO
  · rename_i r _
    extract_lets n left s1 s2 s3 s4 s5
    have h1 : Within pl sb s1 := recalc_only (modReq_only hO (subset_sub hP (by decide))) (subset_sub hP (by decide))
    have h2 : Within pl sb s2 := modServe_only h1 (subset_sub hP (by decide))
    have h3 : Within pl sb s3 := ite_only (modReq_only (freeTiles_only h2 (subset_sub hP (by decide))) (subset_sub hP (by decide))) h2
    have h4 : Within pl sb s4 := ite_only (goState_only h3 (subset_sub hP (by decide))) h3
    refine ite_only h4 (ite_only (endReq_only h4 (subset_sub hP (by decide))) ?_)
    have h5 : Within pl sb s5 := by
      unfold s5
      refine ite_only (sendLogits_only h4 (subset_sub hP (by decide))) ?_
      split
      · exact takeToken_only h4 (subset_sub hP (by decide))
      · exact h4
    clear_value s5
    split
    · exact ite_only (startHandoff_only h5 (subset_sub hP (by decide))) h5
    · exact h5

theorem takeBuffer_only {s : State} {h bytes : Nat} (hO : Within pl sb s) (hP : [.mem, .serve] ⊆ pl) : Within pl sb (takeBuffer s h bytes) := by
  unfold takeBuffer
  repeat' first
    | with_reducible assumption
    | with_reducible refine ite_only ?_ ?_
    | with_reducible refine allocTiles_only_eq ?_ (subset_sub hP (by decide)) (by assumption)
    | with_reducible refine allocTiles_holds ?_ (subset_sub hP (by decide))
    | with_reducible refine freeTiles_only ?_ (subset_sub hP (by decide))
    | with_reducible refine modReq_only ?_ (subset_sub hP (by decide))
    | with_reducible refine startEviction_only ?_ (subset_sub hP (by decide))
    | (extract_lets +onlyGivenNames -underBinder x; refine cut_only (ps := pl) (s := sb) (a := x) ?_ ?_; unfold x; rotate_left; clear_value x; intro hx)
    | (extract_lets +onlyGivenNames -underBinder x; (try unfold x); clear x)
    | split

theorem askHolders_only {s : State} {h : Nat} {t : Task} (hO : Within pl sb s) (hP : [.freeCount, .mem, .serve] ⊆ pl) : Within pl sb (askHolders s h t) := by
  unfold askHolders
  repeat' first
    | with_reducible refine bind_holds (ps := pl) (s := sb) ?_ fun _ _ => ?_
    | with_reducible refine bindAny_holds fun _ => ?_
    | with_reducible refine foldl_holds ?_ fun _ _ _ => ?_
    | with_reducible refine map_holds fun _ _ => ?_
    | with_reducible refine ite_holds ?_ ?_
    | with_reducible exact leaf_none
    | with_reducible refine leaf_some ?_
    | with_reducible refine leaf_only ?_
    | with_reducible assumption
    | with_reducible refine foldl_only ?_ fun _ _ _ => ?_
    | with_reducible refine addXfer_only ?_ (subset_sub hP (by decide))
    | with_reducible refine fresh_only_eq ?_ (subset_sub hP (by decide)) (by assumption)
    | with_reducible refine fresh_only ?_ (subset_sub hP (by decide))
    | with_reducible refine modReq_only ?_ (subset_sub hP (by decide))
    | with_reducible refine takeBuffer_only ?_ (subset_sub hP (by decide))
    | with_reducible refine modServe_only ?_ (subset_sub hP (by decide))
    | with_reducible refine someOf_only (by with_reducible assumption) ?_
    | (extract_lets +onlyGivenNames -underBinder x; refine cut_only (ps := pl) (s := sb) (a := x) ?_ ?_; unfold x; rotate_left; clear_value x; intro hx)
    | (extract_lets +onlyGivenNames -underBinder x; (try unfold x); clear x)
    | split

theorem answerQuery_only {s : State} {t : Task} {status : Nat} (hO : Within pl sb s) (hP : [.mem, .serve] ⊆ pl) : Within pl sb (answerQuery s t status) := by
  unfold answerQuery
  repeat' first
    | with_reducible assumption
    | with_reducible refine ite_only ?_ ?_
    | with_reducible refine foldl_only ?_ fun _ _ _ => ?_
    | with_reducible refine addXfer_only ?_ (subset_sub hP (by decide))
    | with_reducible refine freePage_only ?_ (subset_sub hP (by decide))
    | with_reducible refine modPage_only ?_ (subset_sub hP (by decide))
    | with_reducible refine modServe_only ?_ (subset_sub hP (by decide))
    | (extract_lets +onlyGivenNames -underBinder x; refine cut_only (ps := pl) (s := sb) (a := x) ?_ ?_; unfold x; rotate_left; clear_value x; intro hx)
    | (extract_lets +onlyGivenNames -underBinder x; (try unfold x); clear x)
    | split

theorem dropSeals_only {s : State} {p : Nat} {pages : List (Nat × Nat)} (hO : Within pl sb s) (hP : [.mem, .serve] ⊆ pl) : Within pl sb (dropSeals s p pages) := by
  unfold dropSeals
  repeat' first
    | with_reducible assumption
    | with_reducible refine foldl_only ?_ fun _ _ _ => ?_
    | with_reducible refine freeTiles_only ?_ (subset_sub hP (by decide))
    | with_reducible refine modPage_only ?_ (subset_sub hP (by decide))

theorem dropSeal_only {s : State} {t : Task} (hO : Within pl sb s) (hP : [.mem, .serve] ⊆ pl) : Within pl sb (dropSeal s t) := by
  unfold dropSeal
  repeat' first
    | with_reducible assumption
    | with_reducible refine dropSeals_only ?_ (subset_sub hP (by decide))

theorem sealTile_only {s : State} {t : Task} {tile : Nat} (hO : Within pl sb s) (hP : [.work, .mem, .serve] ⊆ pl) : Within pl sb (sealTile s t tile) := by
  unfold sealTile
  repeat' first
    | with_reducible assumption
    | with_reducible refine ite_only ?_ ?_
    | with_reducible refine modPage_only ?_ (subset_sub hP (by decide))
    | with_reducible refine modTask_only ?_ (subset_sub hP (by decide))
    | with_reducible refine sealPage_only ?_ (subset_sub hP (by decide))
    | with_reducible refine streamPage_only ?_ (subset_sub hP (by decide))
    | (extract_lets +onlyGivenNames -underBinder x; refine cut_only (ps := pl) (s := sb) (a := x) ?_ ?_; unfold x; rotate_left; clear_value x; intro hx)
    | (extract_lets +onlyGivenNames -underBinder x; (try unfold x); clear x)
    | split

theorem finishSeals_only {s : State} {h p : Nat} {pages : List (Nat × Nat)} (hO : Within pl sb s) (hP : [.mem, .serve] ⊆ pl) : Within pl sb (finishSeals s h p pages) := by
  unfold finishSeals
  repeat' first
    | with_reducible assumption
    | with_reducible refine ite_only ?_ ?_
    | with_reducible refine foldl_only ?_ fun _ _ _ => ?_
    | with_reducible refine foldlFst_only ?_ fun _ _ _ => ?_
    | with_reducible refine dropSeals_only ?_ (subset_sub hP (by decide))
    | with_reducible refine sealPage_only ?_ (subset_sub hP (by decide))
    | with_reducible refine streamPage_only ?_ (subset_sub hP (by decide))
    | (extract_lets +onlyGivenNames -underBinder x; refine cut_only (ps := pl) (s := sb) (a := x) ?_ ?_; unfold x; rotate_left; clear_value x; intro hx)
    | (extract_lets +onlyGivenNames -underBinder x; (try unfold x); clear x)
    | split

theorem stepTask_only {s : State} {t : Task} {status : Nat} (hO : Within pl sb s) (hP : [.out, .freeCount, .regs, .mem, .serve, .ctl, .tel] ⊆ pl) : Within pl sb (stepTask s t status) := by
  unfold stepTask
  repeat' first
    | with_reducible assumption
    | with_reducible refine ite_only ?_ ?_
    | with_reducible refine answerQuery_only ?_ (subset_sub hP (by decide))
    | with_reducible refine askHolders_only ?_ (subset_sub hP (by decide))
    | with_reducible refine commitLayer_only ?_ (subset_sub hP (by decide))
    | with_reducible refine discardLayer_only ?_ (subset_sub hP (by decide))
    | with_reducible refine dropSeal_only ?_ (subset_sub hP (by decide))
    | with_reducible refine endReq_only ?_ (subset_sub hP (by decide))
    | with_reducible refine finishSeals_only ?_ (subset_sub hP (by decide))
    | with_reducible refine modReq_only ?_ (subset_sub hP (by decide))
    | with_reducible refine recalc_only ?_ (subset_sub hP (by decide))
    | with_reducible refine stepEnd_only ?_ (subset_sub hP (by decide))
    | (extract_lets +onlyGivenNames -underBinder x; refine cut_only (ps := pl) (s := sb) (a := x) ?_ ?_; unfold x; rotate_left; clear_value x; intro hx)
    | (extract_lets +onlyGivenNames -underBinder x; (try unfold x); clear x)
    | split

theorem discardAttempt_only {s : State} {t : Task} (hO : Within pl sb s) (hP : [.mem, .serve] ⊆ pl) : Within pl sb (discardAttempt s t) := by
  unfold discardAttempt
  repeat' first
    | with_reducible assumption
    | with_reducible refine ite_only ?_ ?_
    | with_reducible refine discardLayer_only ?_ (subset_sub hP (by decide))
    | with_reducible refine dropSeal_only ?_ (subset_sub hP (by decide))
    | with_reducible refine modPage_only ?_ (subset_sub hP (by decide))
    | split

theorem finishTask_only {s : State} {tid : Nat} (hO : Within pl sb s) (hP : [.out, .freeCount, .regs, .work, .mem, .serve, .ctl, .tel] ⊆ pl) : Within pl sb (finishTask s tid) := by
  unfold finishTask
  repeat' first
    | with_reducible assumption
    | with_reducible refine ite_only ?_ ?_
    | with_reducible refine closeTask_only ?_ (subset_sub hP (by decide))
    | with_reducible refine discardAttempt_only ?_ (subset_sub hP (by decide))
    | with_reducible refine dropPacks_only ?_ (subset_sub hP (by decide))
    | with_reducible refine settle_only ?_ (subset_sub hP (by decide))
    | with_reducible refine stepTask_only ?_ (subset_sub hP (by decide))
    | with_reducible refine taskRec_only ?_ (subset_sub hP (by decide))
    | with_reducible refine modWork_only ?_ (subset_sub hP (by decide))
    | (extract_lets +onlyGivenNames -underBinder x; refine cut_only (ps := pl) (s := sb) (a := x) ?_ ?_; unfold x; rotate_left; clear_value x; intro hx)
    | (extract_lets +onlyGivenNames -underBinder x; (try unfold x); clear x)
    | split

theorem endInst_only {s : State} {iid st detail : Nat} (hO : Within pl sb s) (hP : [.out, .freeCount, .regs, .cons, .work, .mem, .serve, .ctl, .tel] ⊆ pl) : Within pl sb (endInst s iid st detail) := by
  unfold endInst
  repeat' first
    | with_reducible assumption
    | with_reducible refine ite_only ?_ ?_
    | with_reducible refine bumpCounter_only ?_ (subset_sub hP (by decide))
    | with_reducible refine finishTask_only ?_ (subset_sub hP (by decide))
    | with_reducible refine modTask_only ?_ (subset_sub hP (by decide))
    | with_reducible refine restAll_only ?_ (subset_sub hP (by decide))
    | with_reducible refine sampleEnd_only ?_ (subset_sub hP (by decide))
    | with_reducible refine modWork_only ?_ (subset_sub hP (by decide))
    | (extract_lets +onlyGivenNames -underBinder x; refine cut_only (ps := pl) (s := sb) (a := x) ?_ ?_; unfold x; rotate_left; clear_value x; intro hx)
    | (extract_lets +onlyGivenNames -underBinder x; (try unfold x); clear x)
    | split

theorem stopInst_only {s : State} {iid st : Nat} (hO : Within pl sb s) (hP : [.out, .freeCount, .regs, .cons, .work, .mem, .serve, .ctl, .tel] ⊆ pl) : Within pl sb (stopInst s iid st) := by
  unfold stopInst
  repeat' first
    | with_reducible assumption
    | with_reducible refine ite_only ?_ ?_
    | with_reducible refine bumpCounter_only ?_ (subset_sub hP (by decide))
    | with_reducible refine endInst_only ?_ (subset_sub hP (by decide))
    | with_reducible refine modInst_only ?_ (subset_sub hP (by decide))
    | (extract_lets +onlyGivenNames -underBinder x; refine cut_only (ps := pl) (s := sb) (a := x) ?_ ?_; unfold x; rotate_left; clear_value x; intro hx)
    | (extract_lets +onlyGivenNames -underBinder x; (try unfold x); clear x)
    | split

theorem askStop_only {s : State} {iid st : Nat} (hO : Within pl sb s) (hP : [.out, .freeCount, .regs, .cons, .work, .mem, .serve, .ctl, .tel] ⊆ pl) : Within pl sb (askStop s iid st) := by
  unfold askStop
  repeat' first
    | with_reducible assumption
    | with_reducible refine ite_only ?_ ?_
    | with_reducible refine endInst_only ?_ (subset_sub hP (by decide))
    | with_reducible refine modInst_only ?_ (subset_sub hP (by decide))
    | with_reducible refine stopInst_only ?_ (subset_sub hP (by decide))
    | split

theorem stopOne_only {s : State} {tid st : Nat} (hO : Within pl sb s) (hP : [.out, .freeCount, .regs, .cons, .work, .mem, .serve, .ctl, .tel] ⊆ pl) : Within pl sb (stopOne s tid st) := by
  unfold stopOne
  repeat' first
    | with_reducible assumption
    | with_reducible refine ite_only ?_ ?_
    | with_reducible refine foldl_only ?_ fun _ _ _ => ?_
    | with_reducible refine askStop_only ?_ (subset_sub hP (by decide))
    | with_reducible refine closeTask_only ?_ (subset_sub hP (by decide))
    | with_reducible refine modTask_only ?_ (subset_sub hP (by decide))
    | with_reducible refine restAll_only ?_ (subset_sub hP (by decide))
    | with_reducible refine stepTask_only ?_ (subset_sub hP (by decide))
    | (extract_lets +onlyGivenNames -underBinder x; refine cut_only (ps := pl) (s := sb) (a := x) ?_ ?_; unfold x; rotate_left; clear_value x; intro hx)
    | (extract_lets +onlyGivenNames -underBinder x; (try unfold x); clear x)
    | split

theorem stopTask_only {s : State} {tid st : Nat} (hO : Within pl sb s) (hP : [.out, .freeCount, .regs, .cons, .work, .mem, .serve, .ctl, .tel] ⊆ pl) : Within pl sb (stopTask s tid st) := by
  unfold stopTask
  repeat' first
    | with_reducible assumption
    | with_reducible refine ite_only ?_ ?_
    | with_reducible refine foldl_only ?_ fun _ _ _ => ?_
    | with_reducible refine settle_only ?_ (subset_sub hP (by decide))
    | with_reducible refine stopOne_only ?_ (subset_sub hP (by decide))
    | split

theorem stopReqTasks_only {s : State} {h st : Nat} (hO : Within pl sb s) (hP : [.out, .freeCount, .regs, .cons, .work, .mem, .serve, .ctl, .tel] ⊆ pl) : Within pl sb (stopReqTasks s h st) := by
  unfold stopReqTasks
  repeat' first
    | with_reducible assumption
    | with_reducible refine foldl_only ?_ fun _ _ _ => ?_
    | with_reducible refine settle_only ?_ (subset_sub hP (by decide))
    | with_reducible refine stopOne_only ?_ (subset_sub hP (by decide))
    | (extract_lets +onlyGivenNames -underBinder x; refine cut_only (ps := pl) (s := sb) (a := x) ?_ ?_; unfold x; rotate_left; clear_value x; intro hx)
    | (extract_lets +onlyGivenNames -underBinder x; (try unfold x); clear x)

theorem failReq_only {s : State} {h st : Nat} (hO : Within pl sb s) (hP : [.out, .freeCount, .regs, .cons, .work, .mem, .serve, .ctl, .tel] ⊆ pl) : Within pl sb (failReq s h st) := by
  unfold failReq
  repeat' first
    | with_reducible assumption
    | with_reducible refine endReq_only ?_ (subset_sub hP (by decide))
    | with_reducible refine stopReqTasks_only ?_ (subset_sub hP (by decide))
    | (extract_lets +onlyGivenNames -underBinder x; refine cut_only (ps := pl) (s := sb) (a := x) ?_ ?_; unfold x; rotate_left; clear_value x; intro hx)
    | (extract_lets +onlyGivenNames -underBinder x; (try unfold x); clear x)
    | split

theorem cacheRsr_only {s : State} {r : Req} (hO : Within pl sb s) (hP : [.mem, .serve] ⊆ pl) : Within pl sb (cacheRsr s r) := by
  unfold cacheRsr
  repeat' first
    | with_reducible refine bind_holds (ps := pl) (s := sb) ?_ fun _ _ => ?_
    | with_reducible refine bindAny_holds fun _ => ?_
    | with_reducible refine ite_holds ?_ ?_
    | with_reducible exact leaf_none
    | with_reducible refine leaf_some ?_
    | with_reducible refine leaf_only ?_
    | with_reducible assumption
    | with_reducible refine ite_only ?_ ?_
    | with_reducible refine tierWrite_only ?_ (subset_sub hP (by decide))
    | with_reducible refine modServe_only ?_ (subset_sub hP (by decide))
    | with_reducible refine someOf_only (by with_reducible assumption) ?_
    | (extract_lets +onlyGivenNames -underBinder x; refine cut_only (ps := pl) (s := sb) (a := x) ?_ ?_; unfold x; rotate_left; clear_value x; intro hx)
    | (extract_lets +onlyGivenNames -underBinder x; (try unfold x); clear x)
    | split

theorem loadRsr_only {s : State} {h : Nat} (hO : Within pl sb s) (hP : [.out, .freeCount, .regs, .cons, .work, .mem, .serve, .ctl, .tel] ⊆ pl) : Within pl sb (loadRsr s h) := by
  unfold loadRsr
  repeat' first
    | with_reducible assumption
    | with_reducible refine ite_only ?_ ?_
    | with_reducible refine cacheRsr_only ?_ (subset_sub hP (by decide))
    | with_reducible refine failReq_only ?_ (subset_sub hP (by decide))
    | split

theorem readTask_holds {s : State} {v : View} {x : Nat} (hO : Within pl sb s) (hP : [.regs, .work, .tel] ⊆ pl) : Holds (InFst pl sb) (readTask s v x) := by
  unfold readTask
  repeat' first
    | with_reducible refine ite_holds ?_ ?_
    | with_reducible refine leaf_fst ?_
    | with_reducible assumption
    | with_reducible refine ite_only ?_ ?_
    | with_reducible refine after_only ?_ ?_
    | with_reducible refine after_only ?_ ?_
    | with_reducible refine ringTake_only ?_ (subset_sub hP (by decide))
    | with_reducible refine modWork_only ?_ (subset_sub hP (by decide))
    | (extract_lets +onlyGivenNames -underBinder x; refine cut_only (ps := pl) (s := sb) (a := x) ?_ ?_; unfold x; rotate_left; clear_value x; intro hx)
    | (extract_lets +onlyGivenNames -underBinder x; (try unfold x); clear x)
theorem readTask_only_eq {s : State} {v : View} {x : Nat} {ra : State} {rb : Task × Option (Nat × Nat)} (hO : Within pl sb s) (hP : [.regs, .work, .tel] ⊆ pl) (hE : readTask s v x = (ra, rb)) : Within pl sb ra := by
  have k : Holds (InFst pl sb) (readTask s v x) := readTask_holds (s := s) (v := v) (x := x) hO hP
  rw [hE] at k; exact k.of
theorem readTask_only {s : State} {v : View} {x : Nat} (hO : Within pl sb s) (hP : [.regs, .work, .tel] ⊆ pl) : Within pl sb (readTask s v x).1 := (readTask_holds (s := s) (v := v) (x := x) hO hP).of

theorem refuseTask_only {s : State} {v : View} {t : Task} {bad : Nat × Nat} (hO : Within pl sb s) (hP : [.out, .regs, .work, .serve, .ctl, .tel] ⊆ pl) : Within pl sb (refuseTask s v t bad) := by
  unfold refuseTask
  repeat' first
    | with_reducible assumption
    | with_reducible refine ite_only ?_ ?_
    | with_reducible refine closeTask_only ?_ (subset_sub hP (by decide))
    | with_reducible refine countAccess_only ?_ (subset_sub hP (by decide))
    | with_reducible refine settle_only ?_ (subset_sub hP (by decide))
    | with_reducible refine modWork_only ?_ (subset_sub hP (by decide))
    | (extract_lets +onlyGivenNames -underBinder x; refine cut_only (ps := pl) (s := sb) (a := x) ?_ ?_; unfold x; rotate_left; clear_value x; intro hx)
    | (extract_lets +onlyGivenNames -underBinder x; (try unfold x); clear x)
    | split

theorem reviseOut_only {s : State} {f : Out → Out} (hO : Within pl sb s) (hP : [.out] ⊆ pl) : Within pl sb (reviseOut s f) :=
  hO.trans ⟨⟨rfl, fun p hq => by cases p <;> first | rfl | exact absurd (hP (by decide)) hq⟩, id, id, id, id, id⟩

theorem cancelBad_only {s : State} {b : BadTask} (hO : Within pl sb s) (hP : [.out, .regs, .work] ⊆ pl) : Within pl sb (cancelBad s b) := by
  unfold cancelBad
  repeat' first
    | with_reducible assumption
    | with_reducible refine ite_only ?_ ?_
    | with_reducible refine reviseOut_only ?_ (subset_sub hP (by decide))
    | with_reducible refine modRegs_only ?_ (subset_sub hP (by decide))
    | with_reducible refine modWork_only ?_ (subset_sub hP (by decide))
    | (extract_lets +onlyGivenNames -underBinder x; refine cut_only (ps := pl) (s := sb) (a := x) ?_ ?_; unfold x; rotate_left; clear_value x; intro hx)
    | (extract_lets +onlyGivenNames -underBinder x; (try unfold x); clear x)
    | split

theorem admitTask_only {s : State} {t : Task} {afterTag : Nat} (hO : Within pl sb s) (hP : [.out, .regs, .work, .serve, .tel] ⊆ pl) : Within pl sb (admitTask s t afterTag) := by
  unfold admitTask
  repeat' first
    | with_reducible assumption
    | with_reducible refine ite_only ?_ ?_
    | with_reducible refine after_only ?_ ?_
    | with_reducible refine after_only ?_ ?_
    | with_reducible refine closeTask_only ?_ (subset_sub hP (by decide))
    | with_reducible refine settle_only ?_ (subset_sub hP (by decide))
    | with_reducible refine modWork_only ?_ (subset_sub hP (by decide))
    | split

theorem takeTask_only {s : State} {v : View} {x : Nat} (hO : Within pl sb s) (hP : [.out, .regs, .work, .serve, .ctl, .tel] ⊆ pl) : Within pl sb (takeTask s v x) := by
  unfold takeTask
  repeat' first
    | with_reducible assumption
    | with_reducible refine ite_only ?_ ?_
    | with_reducible refine admitTask_only ?_ (subset_sub hP (by decide))
    | with_reducible refine readTask_only_eq ?_ (subset_sub hP (by decide)) (by assumption)
    | with_reducible refine refuseTask_only ?_ (subset_sub hP (by decide))
    | (extract_lets +onlyGivenNames -underBinder x; refine cut_only (ps := pl) (s := sb) (a := x) ?_ ?_; unfold x; rotate_left; clear_value x; intro hx)
    | (extract_lets +onlyGivenNames -underBinder x; (try unfold x); clear x)
    | split

theorem execTaskProgram_holds {v : View} {desc : BitVec 512} {s : State} (hO : Within pl sb s) (hP : [.out, .regs, .work, .serve, .ctl, .tel] ⊆ pl) : Holds (InNext pl sb) (execTaskProgram v desc s) := by
  unfold execTaskProgram
  repeat' first
    | with_reducible refine leaf_next ?_
    | with_reducible assumption
    | with_reducible refine ite_only ?_ ?_
    | with_reducible refine takeTask_only ?_ (subset_sub hP (by decide))
theorem execTaskProgram_only {v : View} {desc : BitVec 512} {s : State} {t : State} (hO : Within pl sb s) (hP : [.out, .regs, .work, .serve, .ctl, .tel] ⊆ pl) (hE : execTaskProgram v desc s = .next t) : Within pl sb t := by
  have k : Holds (InNext pl sb) (execTaskProgram v desc s) := execTaskProgram_holds (v := v) (desc := desc) (s := s) hO hP
  rw [hE] at k; exact k.of

theorem execTaskStatus_holds {v : View} {desc : BitVec 512} {s : State} (hO : Within pl sb s) (hP : [.out, .regs, .work, .serve, .ctl, .tel] ⊆ pl) : Holds (InNext pl sb) (execTaskStatus v desc s) := by
  unfold execTaskStatus
  repeat' first
    | with_reducible refine leaf_next ?_
    | with_reducible assumption
    | with_reducible refine ite_only ?_ ?_
    | with_reducible refine takeTask_only ?_ (subset_sub hP (by decide))
theorem execTaskStatus_only {v : View} {desc : BitVec 512} {s : State} {t : State} (hO : Within pl sb s) (hP : [.out, .regs, .work, .serve, .ctl, .tel] ⊆ pl) (hE : execTaskStatus v desc s = .next t) : Within pl sb t := by
  have k : Holds (InNext pl sb) (execTaskStatus v desc s) := execTaskStatus_holds (v := v) (desc := desc) (s := s) hO hP
  rw [hE] at k; exact k.of

theorem execTaskCounters_holds {v : View} {desc : BitVec 512} {s : State} (hO : Within pl sb s) (hP : [.out, .regs, .work, .serve, .ctl, .tel] ⊆ pl) : Holds (InNext pl sb) (execTaskCounters v desc s) := by
  unfold execTaskCounters
  repeat' first
    | with_reducible refine leaf_next ?_
    | with_reducible assumption
    | with_reducible refine ite_only ?_ ?_
    | with_reducible refine takeTask_only ?_ (subset_sub hP (by decide))
theorem execTaskCounters_only {v : View} {desc : BitVec 512} {s : State} {t : State} (hO : Within pl sb s) (hP : [.out, .regs, .work, .serve, .ctl, .tel] ⊆ pl) (hE : execTaskCounters v desc s = .next t) : Within pl sb t := by
  have k : Holds (InNext pl sb) (execTaskCounters v desc s) := execTaskCounters_holds (v := v) (desc := desc) (s := s) hO hP
  rw [hE] at k; exact k.of

theorem execTaskCancel_holds {v : View} {desc : BitVec 512} {s : State} (hO : Within pl sb s) (hP : [.out, .freeCount, .regs, .cons, .work, .mem, .serve, .ctl, .tel] ⊆ pl) : Holds (InNext pl sb) (execTaskCancel v desc s) := by
  unfold execTaskCancel
  repeat' first
    | with_reducible refine leaf_next ?_
    | with_reducible assumption
    | with_reducible refine ite_only ?_ ?_
    | with_reducible refine foldl_only ?_ fun _ _ _ => ?_
    | with_reducible refine cancelBad_only ?_ (subset_sub hP (by decide))
    | with_reducible refine readTask_only_eq ?_ (subset_sub hP (by decide)) (by assumption)
    | with_reducible refine refuseTask_only ?_ (subset_sub hP (by decide))
    | with_reducible refine settle_only ?_ (subset_sub hP (by decide))
    | with_reducible refine stopOne_only ?_ (subset_sub hP (by decide))
    | with_reducible refine modWork_only ?_ (subset_sub hP (by decide))
    | (extract_lets +onlyGivenNames -underBinder x; refine cut_only (ps := pl) (s := sb) (a := x) ?_ ?_; unfold x; rotate_left; clear_value x; intro hx)
    | (extract_lets +onlyGivenNames -underBinder x; (try unfold x); clear x)
    | split
theorem execTaskCancel_only {v : View} {desc : BitVec 512} {s : State} {t : State} (hO : Within pl sb s) (hP : [.out, .freeCount, .regs, .cons, .work, .mem, .serve, .ctl, .tel] ⊆ pl) (hE : execTaskCancel v desc s = .next t) : Within pl sb t := by
  have k : Holds (InNext pl sb) (execTaskCancel v desc s) := execTaskCancel_holds (v := v) (desc := desc) (s := s) hO hP
  rw [hE] at k; exact k.of

end Sys2Proof.Machine
end

