-- ==== Sys2Proof/Laws/FrameEngine.lean ====
section
/-! SUPPORT. What each function of Machine/Engine.lean can do to the state as a whole: the parts it can change; the queue, the population and the
canonical forms it keeps. `f_only` speaks of the state that `f` answers, `f_holds` of a state inside its answer, `f_only_eq` of one taken out. -/

-- One declaration at a time: thousands of proofs in flight at once ask for more threads than fit in memory.
set_option Elab.async false

set_option linter.unusedTactic false
set_option linter.unreachableTactic false
set_option linter.unusedVariables false
set_option linter.unusedSimpArgs false
namespace Sys2Proof.Machine
open Sys2Proof
variable {pl : List Part} {sb : State}

theorem streamFault_only {s : State} {g : Page} (hO : Within pl sb s) (hP : [.out, .regs, .serve, .ctl, .mgt, .alm, .tel] ⊆ pl) : Within pl sb (streamFault s g) := by
  unfold streamFault
  repeat' first
    | with_reducible assumption
    | with_reducible refine modPage_only ?_ (subset_sub hP (by decide))
    | with_reducible refine odCount_only ?_ (subset_sub hP (by decide))
    | with_reducible refine raiseBoth_only ?_ (subset_sub hP (by decide))

theorem countHist_only {s : State} {p model layer comp width : Nat} {bl : List KvBlock} (hO : Within pl sb s) (hP : [.serve] ⊆ pl) : Within pl sb (countHist s p model layer comp width bl) := by
  unfold countHist
  repeat' first
    | with_reducible assumption
    | with_reducible refine ite_only ?_ ?_
    | with_reducible refine modServe_only ?_ (subset_sub hP (by decide))
    | (extract_lets +onlyGivenNames -underBinder x; refine cut_only (ps := pl) (s := sb) (a := x) ?_ ?_; unfold x; rotate_left; clear_value x; intro hx)
    | (extract_lets +onlyGivenNames -underBinder x; (try unfold x); clear x)

end Sys2Proof.Machine
end

