-- ==== Sys2Proof/Laws/FrameServing.lean ====
section
/-! SUPPORT. What each function of Machine/Serving.lean can do to the state as a whole: the parts it can change; the queue, the population and the
canonical forms it keeps. `f_only` speaks of the state that `f` answers, `f_holds` of a state inside its answer, `f_only_eq` of one taken out. -/

-- One declaration at a time: thousands of proofs in flight at once ask for more threads than fit in memory.
set_option Elab.async false

set_option linter.unusedTactic false
set_option linter.unreachableTactic false
set_option linter.unusedVariables false
set_option linter.unusedSimpArgs false
namespace Sys2Proof.Machine
open Sys2Proof
variable {pl : List Part} {sb : State}

theorem promotePages_only {s : State} {h : Nat} {gs : List Page} (hO : Within pl sb s) (hP : [.serve] ⊆ pl) : Within pl sb (promotePages s h gs) := by
  unfold promotePages
  repeat' first
    | with_reducible assumption
    | with_reducible refine ite_only ?_ ?_
    | with_reducible refine foldl_only ?_ fun _ _ _ => ?_
    | with_reducible refine addXfer_only ?_ (subset_sub hP (by decide))
    | with_reducible refine modPage_only ?_ (subset_sub hP (by decide))

theorem afterAccept_only {s : State} {h : Nat} (hO : Within pl sb s) (hP : [.mem, .serve, .ctl] ⊆ pl) : Within pl sb (afterAccept s h) := by
  unfold afterAccept
  repeat' first
    | with_reducible assumption
    | with_reducible refine ite_only ?_ ?_
    | with_reducible refine goState_only ?_ (subset_sub hP (by decide))
    | with_reducible refine promotePages_only ?_ (subset_sub hP (by decide))
    | (extract_lets +onlyGivenNames -underBinder x; refine cut_only (ps := pl) (s := sb) (a := x) ?_ ?_; unfold x; rotate_left; clear_value x; intro hx)
    | (extract_lets +onlyGivenNames -underBinder x; (try unfold x); clear x)
    | split

theorem promoteQueued_only {s : State} (hO : Within pl sb s) (hP : [.mem, .serve, .ctl] ⊆ pl) : Within pl sb (promoteQueued s) := by
  unfold promoteQueued
  repeat' first
    | with_reducible assumption
    | with_reducible refine foldl_only ?_ fun _ _ _ => ?_
    | with_reducible refine afterAccept_only ?_ (subset_sub hP (by decide))

theorem takeStructures_holds {s : State} {p mapBytes inputBytes : Nat} (hO : Within pl sb s) (hP : [.mem] ⊆ pl) : Holds (InSome (InThd pl sb)) (takeStructures s p mapBytes inputBytes) := by
  unfold takeStructures
  repeat' first
    | with_reducible refine map_holds fun _ _ => ?_
    | with_reducible refine ite_holds ?_ ?_
    | with_reducible exact leaf_none
    | with_reducible refine leaf_some ?_
    | with_reducible refine leaf_thd ?_
    | with_reducible refine leaf_only ?_
    | with_reducible assumption
    | with_reducible refine allocOwn_only_eq ?_ (subset_sub hP (by decide)) (by assumption)
    | split
theorem takeStructures_only_eq {s : State} {p mapBytes inputBytes : Nat} {ra : Nat} {rb : Nat} {rc : State} (hO : Within pl sb s) (hP : [.mem] ⊆ pl) (hE : takeStructures s p mapBytes inputBytes = some (ra, rb, rc)) : Within pl sb rc := by
  have k : Holds (InSome (InThd pl sb)) (takeStructures s p mapBytes inputBytes) := takeStructures_holds (s := s) (p := p) (mapBytes := mapBytes) (inputBytes := inputBytes) hO hP
  rw [hE] at k; exact k.of

theorem refuseReq_only {s : State} {v : View} {d : List Byte} {st handle : Nat} (hO : Within pl sb s) (hP : [.out, .regs, .serve, .ctl, .tel] ⊆ pl) : Within pl sb (refuseReq s v d st handle) := by
  unfold refuseReq
  repeat' first
    | with_reducible assumption
    | with_reducible refine ite_only ?_ ?_
    | with_reducible refine countAccess_only ?_ (subset_sub hP (by decide))
    | with_reducible refine odCount_only ?_ (subset_sub hP (by decide))
    | with_reducible refine reqRec_only ?_ (subset_sub hP (by decide))
    | with_reducible refine srvMark_only ?_ (subset_sub hP (by decide))
    | (extract_lets +onlyGivenNames -underBinder x; refine cut_only (ps := pl) (s := sb) (a := x) ?_ ?_; unfold x; rotate_left; clear_value x; intro hx)
    | (extract_lets +onlyGivenNames -underBinder x; (try unfold x); clear x)
    | split

theorem acceptSubmit_only {s : State} {v : View} {d : List Byte} {m : Model} (hO : Within pl sb s) (hP : [.out, .regs, .mem, .serve, .ctl, .tel] ⊆ pl) : Within pl sb (acceptSubmit s v d m) := by
  unfold acceptSubmit
  repeat' first
    | with_reducible assumption
    | with_reducible refine ite_only ?_ ?_
    | with_reducible refine foldl_only ?_ fun _ _ _ => ?_
    | with_reducible refine getD_only ?_ ?_
    | with_reducible refine addXfer_only ?_ (subset_sub hP (by decide))
    | with_reducible refine afterAccept_only ?_ (subset_sub hP (by decide))
    | with_reducible refine cacheRsr_only ?_ (subset_sub hP (by decide))
    | with_reducible refine charge_only ?_ (subset_sub hP (by decide))
    | with_reducible refine odRaise_only ?_ (subset_sub hP (by decide))
    | with_reducible refine refMsg_only ?_ (subset_sub hP (by decide))
    | with_reducible refine refuseReq_only ?_ (subset_sub hP (by decide))
    | with_reducible refine reqRec_only ?_ (subset_sub hP (by decide))
    | with_reducible refine startEviction_only ?_ (subset_sub hP (by decide))
    | with_reducible refine takeStructures_only_eq ?_ (subset_sub hP (by decide)) (by assumption)
    | with_reducible refine modServe_only ?_ (subset_sub hP (by decide))
    | (extract_lets +onlyGivenNames -underBinder x; refine cut_only (ps := pl) (s := sb) (a := x) ?_ ?_; unfold x; rotate_left; clear_value x; intro hx)
    | (extract_lets +onlyGivenNames -underBinder x; (try unfold x); clear x)
    | split

theorem execReqSubmit_holds {v : View} {desc : List Byte} {s : State} (hO : Within pl sb s) (hP : [.out, .regs, .mem, .serve, .ctl, .tel] ⊆ pl) : Holds (InNext pl sb) (execReqSubmit v desc s) := by
  unfold execReqSubmit
  repeat' first
    | with_reducible refine leaf_next ?_
    | with_reducible assumption
    | with_reducible refine ite_only ?_ ?_
    | with_reducible refine acceptSubmit_only ?_ (subset_sub hP (by decide))
    | with_reducible refine refuseReq_only ?_ (subset_sub hP (by decide))
    | with_reducible refine ringTake_only ?_ (subset_sub hP (by decide))
    | (extract_lets +onlyGivenNames -underBinder x; refine cut_only (ps := pl) (s := sb) (a := x) ?_ ?_; unfold x; rotate_left; clear_value x; intro hx)
    | (extract_lets +onlyGivenNames -underBinder x; (try unfold x); clear x)
    | split
theorem execReqSubmit_only {v : View} {desc : List Byte} {s : State} {t : State} (hO : Within pl sb s) (hP : [.out, .regs, .mem, .serve, .ctl, .tel] ⊆ pl) (hE : execReqSubmit v desc s = .next t) : Within pl sb t := by
  have k : Holds (InNext pl sb) (execReqSubmit v desc s) := execReqSubmit_holds (v := v) (desc := desc) (s := s) hO hP
  rw [hE] at k; exact k.of

theorem execReqContinue_holds {v : View} {desc : List Byte} {s : State} (hO : Within pl sb s) (hP : [.out, .regs, .work, .mem, .serve, .ctl, .tel] ⊆ pl) : Holds (InNext pl sb) (execReqContinue v desc s) := by
  unfold execReqContinue
  repeat' first
    | with_reducible refine leaf_next ?_
    | with_reducible assumption
    | with_reducible refine ite_only ?_ ?_
    | with_reducible refine foldl_only ?_ fun _ _ _ => ?_
    | with_reducible refine getD_only ?_ ?_
    | with_reducible refine addMirror_only_eq ?_ (subset_sub hP (by decide)) (by assumption)
    | with_reducible refine addMirror_holds ?_ (subset_sub hP (by decide))
    | with_reducible refine addXfer_only ?_ (subset_sub hP (by decide))
    | with_reducible refine afterAccept_only ?_ (subset_sub hP (by decide))
    | with_reducible refine allocOwn_only_eq ?_ (subset_sub hP (by decide)) (by assumption)
    | with_reducible refine charge_only ?_ (subset_sub hP (by decide))
    | with_reducible refine goState_only ?_ (subset_sub hP (by decide))
    | with_reducible refine modReq_only ?_ (subset_sub hP (by decide))
    | with_reducible refine odRaise_only ?_ (subset_sub hP (by decide))
    | with_reducible refine refuseReq_only ?_ (subset_sub hP (by decide))
    | with_reducible refine reqRec_only ?_ (subset_sub hP (by decide))
    | with_reducible refine ringTake_only ?_ (subset_sub hP (by decide))
    | with_reducible refine startEviction_only ?_ (subset_sub hP (by decide))
    | (extract_lets +onlyGivenNames -underBinder x; refine cut_only (ps := pl) (s := sb) (a := x) ?_ ?_; unfold x; rotate_left; clear_value x; intro hx)
    | (extract_lets +onlyGivenNames -underBinder x; (try unfold x); clear x)
    | split
theorem execReqContinue_only {v : View} {desc : List Byte} {s : State} {t : State} (hO : Within pl sb s) (hP : [.out, .regs, .work, .mem, .serve, .ctl, .tel] ⊆ pl) (hE : execReqContinue v desc s = .next t) : Within pl sb t := by
  have k : Holds (InNext pl sb) (execReqContinue v desc s) := execReqContinue_holds (v := v) (desc := desc) (s := s) hO hP
  rw [hE] at k; exact k.of

theorem answerOp_only {s : State} {v : View} {d : List Byte} {st : Nat} (hO : Within pl sb s) (hP : [.out, .regs, .ctl, .tel] ⊆ pl) : Within pl sb (answerOp s v d st) := by
  unfold answerOp
  repeat' first
    | with_reducible assumption
    | with_reducible refine ite_only ?_ ?_
    | with_reducible refine countAccess_only ?_ (subset_sub hP (by decide))
    | with_reducible refine opDone_only ?_ (subset_sub hP (by decide))
    | (extract_lets +onlyGivenNames -underBinder x; refine cut_only (ps := pl) (s := sb) (a := x) ?_ ?_; unfold x; rotate_left; clear_value x; intro hx)
    | (extract_lets +onlyGivenNames -underBinder x; (try unfold x); clear x)
    | split

theorem abortMove_only {s : State} {h : Nat} (hO : Within pl sb s) (hP : [.out, .mem, .serve] ⊆ pl) : Within pl sb (abortMove s h) := by
  unfold abortMove
  repeat' first
    | with_reducible assumption
    | with_reducible refine ite_only ?_ ?_
    | with_reducible refine endMove_only ?_ (subset_sub hP (by decide))
    | with_reducible refine modReq_only ?_ (subset_sub hP (by decide))
    | with_reducible refine sendState_only ?_ (subset_sub hP (by decide))
    | (extract_lets +onlyGivenNames -underBinder x; refine cut_only (ps := pl) (s := sb) (a := x) ?_ ?_; unfold x; rotate_left; clear_value x; intro hx)
    | (extract_lets +onlyGivenNames -underBinder x; (try unfold x); clear x)
    | split

theorem rollReq_only {s : State} {h : Nat} (hO : Within pl sb s) (hP : [.out, .freeCount, .regs, .cons, .work, .mem, .serve, .ctl, .tel] ⊆ pl) : Within pl sb (rollReq s h) := by
  unfold rollReq
  repeat' first
    | with_reducible assumption
    | with_reducible refine abortMove_only ?_ (subset_sub hP (by decide))
    | with_reducible refine rollback_only ?_ (subset_sub hP (by decide))
    | with_reducible refine stopReqTasks_only ?_ (subset_sub hP (by decide))

theorem cancelReq_only {s : State} {h : Nat} (hO : Within pl sb s) (hP : [.out, .freeCount, .regs, .cons, .work, .mem, .serve, .ctl, .tel] ⊆ pl) : Within pl sb (cancelReq s h) := by
  unfold cancelReq
  repeat' first
    | with_reducible assumption
    | with_reducible refine ite_only ?_ ?_
    | with_reducible refine foldl_only ?_ fun _ _ _ => ?_
    | with_reducible refine abortMove_only ?_ (subset_sub hP (by decide))
    | with_reducible refine creditBack_only ?_ (subset_sub hP (by decide))
    | with_reducible refine discardLayer_only ?_ (subset_sub hP (by decide))
    | with_reducible refine endReq_only ?_ (subset_sub hP (by decide))
    | with_reducible refine goState_only ?_ (subset_sub hP (by decide))
    | with_reducible refine modReq_only ?_ (subset_sub hP (by decide))
    | with_reducible refine requestRec_only ?_ (subset_sub hP (by decide))
    | with_reducible refine stopPromotions_only ?_ (subset_sub hP (by decide))
    | with_reducible refine stopReqTasks_only ?_ (subset_sub hP (by decide))
    | with_reducible refine trimStep_only ?_ (subset_sub hP (by decide))
    | with_reducible refine modServe_only ?_ (subset_sub hP (by decide))
    | (extract_lets +onlyGivenNames -underBinder x; refine cut_only (ps := pl) (s := sb) (a := x) ?_ ?_; unfold x; rotate_left; clear_value x; intro hx)
    | (extract_lets +onlyGivenNames -underBinder x; (try unfold x); clear x)
    | split

theorem execReqCancel_holds {v : View} {desc : List Byte} {s : State} (hO : Within pl sb s) (hP : [.out, .freeCount, .regs, .cons, .work, .mem, .serve, .ctl, .tel] ⊆ pl) : Holds (InNext pl sb) (execReqCancel v desc s) := by
  unfold execReqCancel
  repeat' first
    | with_reducible refine leaf_next ?_
    | with_reducible assumption
    | with_reducible refine ite_only ?_ ?_
    | with_reducible refine answerOp_only ?_ (subset_sub hP (by decide))
    | with_reducible refine cancelReq_only ?_ (subset_sub hP (by decide))
    | with_reducible refine opDone_only ?_ (subset_sub hP (by decide))
    | with_reducible refine ringTake_only ?_ (subset_sub hP (by decide))
    | with_reducible refine modServe_only ?_ (subset_sub hP (by decide))
    | (extract_lets +onlyGivenNames -underBinder x; refine cut_only (ps := pl) (s := sb) (a := x) ?_ ?_; unfold x; rotate_left; clear_value x; intro hx)
    | (extract_lets +onlyGivenNames -underBinder x; (try unfold x); clear x)
theorem execReqCancel_only {v : View} {desc : List Byte} {s : State} {t : State} (hO : Within pl sb s) (hP : [.out, .freeCount, .regs, .cons, .work, .mem, .serve, .ctl, .tel] ⊆ pl) (hE : execReqCancel v desc s = .next t) : Within pl sb t := by
  have k : Holds (InNext pl sb) (execReqCancel v desc s) := execReqCancel_holds (v := v) (desc := desc) (s := s) hO hP
  rw [hE] at k; exact k.of

theorem execReqStatus_holds {v : View} {desc : List Byte} {s : State} (hO : Within pl sb s) (hP : [.out, .freeCount, .regs, .cons, .work, .mem, .serve, .ctl, .tel] ⊆ pl) : Holds (InNext pl sb) (execReqStatus v desc s) := by
  unfold execReqStatus
  repeat' first
    | with_reducible refine leaf_next ?_
    | with_reducible assumption
    | with_reducible refine ite_only ?_ ?_
    | with_reducible refine answerOp_only ?_ (subset_sub hP (by decide))
    | with_reducible refine hostWrite_only ?_ (subset_sub hP (by decide))
    | with_reducible refine loadRsr_only ?_ (subset_sub hP (by decide))
    | with_reducible refine ringTake_only ?_ (subset_sub hP (by decide))
    | (extract_lets +onlyGivenNames -underBinder x; refine cut_only (ps := pl) (s := sb) (a := x) ?_ ?_; unfold x; rotate_left; clear_value x; intro hx)
    | (extract_lets +onlyGivenNames -underBinder x; (try unfold x); clear x)
    | split
theorem execReqStatus_only {v : View} {desc : List Byte} {s : State} {t : State} (hO : Within pl sb s) (hP : [.out, .freeCount, .regs, .cons, .work, .mem, .serve, .ctl, .tel] ⊆ pl) (hE : execReqStatus v desc s = .next t) : Within pl sb t := by
  have k : Holds (InNext pl sb) (execReqStatus v desc s) := execReqStatus_holds (v := v) (desc := desc) (s := s) hO hP
  rw [hE] at k; exact k.of

theorem execReqToken_holds {v : View} {desc : List Byte} {s : State} (hO : Within pl sb s) (hP : [.out, .regs, .mem, .serve, .ctl, .tel] ⊆ pl) : Holds (InNext pl sb) (execReqToken v desc s) := by
  unfold execReqToken
  repeat' first
    | with_reducible refine leaf_next ?_
    | with_reducible assumption
    | with_reducible refine ite_only ?_ ?_
    | with_reducible refine answerOp_only ?_ (subset_sub hP (by decide))
    | with_reducible refine ringTake_only ?_ (subset_sub hP (by decide))
    | with_reducible refine startHandoff_only ?_ (subset_sub hP (by decide))
    | with_reducible refine takeToken_only ?_ (subset_sub hP (by decide))
    | (extract_lets +onlyGivenNames -underBinder x; refine cut_only (ps := pl) (s := sb) (a := x) ?_ ?_; unfold x; rotate_left; clear_value x; intro hx)
    | (extract_lets +onlyGivenNames -underBinder x; (try unfold x); clear x)
    | split
theorem execReqToken_only {v : View} {desc : List Byte} {s : State} {t : State} (hO : Within pl sb s) (hP : [.out, .regs, .mem, .serve, .ctl, .tel] ⊆ pl) (hE : execReqToken v desc s = .next t) : Within pl sb t := by
  have k : Holds (InNext pl sb) (execReqToken v desc s) := execReqToken_holds (v := v) (desc := desc) (s := s) hO hP
  rw [hE] at k; exact k.of

theorem execInputReadDone_holds {handle : Nat} {ok : Bool} {input stops : List Byte} {s : State} (hO : Within pl sb s) (hP : [.out, .regs, .mem, .serve, .ctl, .tel] ⊆ pl) : Holds (InNext pl sb) (execInputReadDone handle ok input stops s) := by
  unfold execInputReadDone
  repeat' first
    | with_reducible refine leaf_next ?_
    | with_reducible assumption
    | with_reducible refine ite_only ?_ ?_
    | with_reducible refine countTiles_only ?_ (subset_sub hP (by decide))
    | with_reducible refine creditBack_only ?_ (subset_sub hP (by decide))
    | with_reducible refine endReq_only ?_ (subset_sub hP (by decide))
    | with_reducible refine modReq_only ?_ (subset_sub hP (by decide))
    | with_reducible refine telDma_only ?_ (subset_sub hP (by decide))
    | with_reducible refine tierWrite_only ?_ (subset_sub hP (by decide))
    | with_reducible refine modServe_only ?_ (subset_sub hP (by decide))
    | (beta_reduce; extract_lets +onlyGivenNames -underBinder x; refine cut_only (ps := pl) (s := sb) (a := x) ?_ ?_; unfold x; rotate_left; clear_value x; intro hx)
    | (extract_lets +onlyGivenNames -underBinder x; refine cut_only (ps := pl) (s := sb) (a := x) ?_ ?_; unfold x; rotate_left; clear_value x; intro hx)
    | (extract_lets +onlyGivenNames -underBinder x; (try unfold x); clear x)
    | split
theorem execInputReadDone_only {handle : Nat} {ok : Bool} {input stops : List Byte} {s : State} {t : State} (hO : Within pl sb s) (hP : [.out, .regs, .mem, .serve, .ctl, .tel] ⊆ pl) (hE : execInputReadDone handle ok input stops s = .next t) : Within pl sb t := by
  have k : Holds (InNext pl sb) (execInputReadDone handle ok input stops s) := execInputReadDone_holds (handle := handle) (ok := ok) (input := input) (stops := stops) (s := s) hO hP
  rw [hE] at k; exact k.of

theorem execOpenPageLoaded_holds {xfer : Nat} {s : State} (hO : Within pl sb s) (hP : [.work, .serve, .tel] ⊆ pl) : Holds (InNext pl sb) (execOpenPageLoaded xfer s) := by
  unfold execOpenPageLoaded
  repeat' first
    | with_reducible refine leaf_next ?_
    | with_reducible assumption
    | with_reducible refine ite_only ?_ ?_
    | with_reducible refine getD_only ?_ ?_
    | with_reducible refine addMirror_only_eq ?_ (subset_sub hP (by decide)) (by assumption)
    | with_reducible refine addMirror_holds ?_ (subset_sub hP (by decide))
    | with_reducible refine countTiles_only ?_ (subset_sub hP (by decide))
    | with_reducible refine dropXfer_only ?_ (subset_sub hP (by decide))
    | with_reducible refine modPage_only ?_ (subset_sub hP (by decide))
    | with_reducible refine sramWriteP_only ?_ (subset_sub hP (by decide))
    | (extract_lets +onlyGivenNames -underBinder x; refine cut_only (ps := pl) (s := sb) (a := x) ?_ ?_; unfold x; rotate_left; clear_value x; intro hx)
    | (extract_lets +onlyGivenNames -underBinder x; (try unfold x); clear x)
    | split
theorem execOpenPageLoaded_only {xfer : Nat} {s : State} {t : State} (hO : Within pl sb s) (hP : [.work, .serve, .tel] ⊆ pl) (hE : execOpenPageLoaded xfer s = .next t) : Within pl sb t := by
  have k : Holds (InNext pl sb) (execOpenPageLoaded xfer s) := execOpenPageLoaded_holds (xfer := xfer) (s := s) hO hP
  rw [hE] at k; exact k.of

end Sys2Proof.Machine
end

