-- ==== Sys2Proof/Laws/FrameTables.lean ====
section
/-! SUPPORT. What each function of Machine/Tables.lean can do to the state as a whole: the parts it can change; the queue, the population and the
canonical forms it keeps. `f_only` speaks of the state that `f` answers, `f_holds` of a state inside its answer, `f_only_eq` of one taken out. -/

-- One declaration at a time: thousands of proofs in flight at once ask for more threads than fit in memory.
set_option Elab.async false

set_option linter.unusedTactic false
set_option linter.unreachableTactic false
set_option linter.unusedVariables false
set_option linter.unusedSimpArgs false
namespace Sys2Proof.Machine
open Sys2Proof
variable {pl : List Part} {sb : State}

theorem kvtFull_only {s : State} {p word why : Nat} (hO : Within pl sb s) (hP : [.out, .regs, .ctl, .mgt, .alm, .tel] ⊆ pl) : Within pl sb (kvtFull s p word why) := by
  unfold kvtFull
  repeat' first
    | with_reducible assumption
    | with_reducible refine raiseBoth_only ?_ (subset_sub hP (by decide))

theorem buildTensor_only {s : State} {p model layer : Nat} {latent : Bool} {width : Nat} (hO : Within pl sb s) (hP : [.out, .regs, .serve, .ctl, .mgt, .alm, .tel] ⊆ pl) : Within pl sb (buildTensor s p model layer latent width) := by
  unfold buildTensor
  repeat' first
    | with_reducible assumption
    | with_reducible refine kvtFull_only ?_ (subset_sub hP (by decide))
    | with_reducible refine odCount_only ?_ (subset_sub hP (by decide))
    | with_reducible refine modServe_only ?_ (subset_sub hP (by decide))
    | (extract_lets +onlyGivenNames -underBinder x; refine cut_only (ps := pl) (s := sb) (a := x) ?_ ?_; unfold x; rotate_left; clear_value x; intro hx)
    | (extract_lets +onlyGivenNames -underBinder x; (try unfold x); clear x)
    | split

theorem execTableEpochEnd_holds {ptn : Nat} {s : State} (hO : Within pl sb s) (hP : [.out, .regs, .serve, .ctl, .mgt, .alm, .tel] ⊆ pl) : Holds (InNext pl sb) (execTableEpochEnd ptn s) := by
  unfold execTableEpochEnd
  repeat' first
    | with_reducible refine leaf_next ?_
    | with_reducible assumption
    | with_reducible refine ite_only ?_ ?_
    | with_reducible refine foldl_only ?_ fun _ _ _ => ?_
    | with_reducible refine buildTensor_only ?_ (subset_sub hP (by decide))
    | with_reducible refine modServe_only ?_ (subset_sub hP (by decide))
    | (extract_lets +onlyGivenNames -underBinder x; refine cut_only (ps := pl) (s := sb) (a := x) ?_ ?_; unfold x; rotate_left; clear_value x; intro hx)
    | (extract_lets +onlyGivenNames -underBinder x; (try unfold x); clear x)
theorem execTableEpochEnd_only {ptn : Nat} {s : State} {t : State} (hO : Within pl sb s) (hP : [.out, .regs, .serve, .ctl, .mgt, .alm, .tel] ⊆ pl) (hE : execTableEpochEnd ptn s = .next t) : Within pl sb t := by
  have k : Holds (InNext pl sb) (execTableEpochEnd ptn s) := execTableEpochEnd_holds (ptn := ptn) (s := s) hO hP
  rw [hE] at k; exact k.of

theorem execTableBuildDone_holds {ptn model layer : Nat} {s : State} (hO : Within pl sb s) (hP : [.serve] ⊆ pl) : Holds (InNext pl sb) (execTableBuildDone ptn model layer s) := by
  unfold execTableBuildDone
  repeat' first
    | with_reducible refine leaf_next ?_
    | with_reducible assumption
    | with_reducible refine ite_only ?_ ?_
    | with_reducible refine modServe_only ?_ (subset_sub hP (by decide))
    | (extract_lets +onlyGivenNames -underBinder x; refine cut_only (ps := pl) (s := sb) (a := x) ?_ ?_; unfold x; rotate_left; clear_value x; intro hx)
    | (extract_lets +onlyGivenNames -underBinder x; (try unfold x); clear x)
theorem execTableBuildDone_only {ptn model layer : Nat} {s : State} {t : State} (hO : Within pl sb s) (hP : [.serve] ⊆ pl) (hE : execTableBuildDone ptn model layer s = .next t) : Within pl sb t := by
  have k : Holds (InNext pl sb) (execTableBuildDone ptn model layer s) := execTableBuildDone_holds (ptn := ptn) (model := model) (layer := layer) (s := s) hO hP
  rw [hE] at k; exact k.of

theorem tableSupply_holds {s : State} {ptn : Nat} {data : List Byte} (hO : Within pl sb s) (hP : [.serve, .ctl] ⊆ pl) : Holds (InFst pl sb) (tableSupply s ptn data) := by
  unfold tableSupply
  repeat' first
    | with_reducible refine leaf_fst ?_
    | with_reducible assumption
    | with_reducible refine ite_only ?_ ?_
    | with_reducible refine odSet_only ?_ (subset_sub hP (by decide))
    | with_reducible refine modServe_only ?_ (subset_sub hP (by decide))
    | (extract_lets +onlyGivenNames -underBinder x; refine cut_only (ps := pl) (s := sb) (a := x) ?_ ?_; unfold x; rotate_left; clear_value x; intro hx)
    | (extract_lets +onlyGivenNames -underBinder x; (try unfold x); clear x)
    | split
theorem tableSupply_only_eq {s : State} {ptn : Nat} {data : List Byte} {ra : State} {rb : Nat} (hO : Within pl sb s) (hP : [.serve, .ctl] ⊆ pl) (hE : tableSupply s ptn data = (ra, rb)) : Within pl sb ra := by
  have k : Holds (InFst pl sb) (tableSupply s ptn data) := tableSupply_holds (s := s) (ptn := ptn) (data := data) hO hP
  rw [hE] at k; exact k.of
theorem tableSupply_only {s : State} {ptn : Nat} {data : List Byte} (hO : Within pl sb s) (hP : [.serve, .ctl] ⊆ pl) : Within pl sb (tableSupply s ptn data).1 := (tableSupply_holds (s := s) (ptn := ptn) (data := data) hO hP).of

theorem turnCurrent_only {s : State} (hO : Within pl sb s) (hP : [.serve] ⊆ pl) : Within pl sb (turnCurrent s) := by
  unfold turnCurrent
  repeat' first
    | with_reducible assumption
    | with_reducible refine ite_only ?_ ?_
    | with_reducible refine foldl_only ?_ fun _ _ _ => ?_
    | with_reducible refine modServe_only ?_ (subset_sub hP (by decide))
    | (extract_lets +onlyGivenNames -underBinder x; refine cut_only (ps := pl) (s := sb) (a := x) ?_ ?_; unfold x; rotate_left; clear_value x; intro hx)
    | (extract_lets +onlyGivenNames -underBinder x; (try unfold x); clear x)

theorem retireTables_only {s : State} {p : Nat} (hO : Within pl sb s) (hP : [.serve] ⊆ pl) : Within pl sb (retireTables s p) := by
  unfold retireTables
  repeat' first
    | with_reducible assumption
    | with_reducible refine modServe_only ?_ (subset_sub hP (by decide))

theorem receiveTables_holds {s : State} {p : Nat} {imgs : List (List Byte)} (hO : Within pl sb s) (hP : [.out, .regs, .serve, .ctl, .mgt, .alm, .tel] ⊆ pl) : Holds (InSnd pl sb) (receiveTables s p imgs) := by
  unfold receiveTables
  repeat' first
    | with_reducible refine leaf_snd ?_
    | with_reducible assumption
    | with_reducible refine kvtFull_only ?_ (subset_sub hP (by decide))
    | with_reducible refine modServe_only ?_ (subset_sub hP (by decide))
    | (extract_lets +onlyGivenNames -underBinder x; refine cut_only (ps := pl) (s := sb) (a := x) ?_ ?_; unfold x; rotate_left; clear_value x; intro hx)
    | (extract_lets +onlyGivenNames -underBinder x; (try unfold x); clear x)
    | split
theorem receiveTables_only_eq {s : State} {p : Nat} {imgs : List (List Byte)} {ra : Option Nat} {rb : State} (hO : Within pl sb s) (hP : [.out, .regs, .serve, .ctl, .mgt, .alm, .tel] ⊆ pl) (hE : receiveTables s p imgs = (ra, rb)) : Within pl sb rb := by
  have k : Holds (InSnd pl sb) (receiveTables s p imgs) := receiveTables_holds (s := s) (p := p) (imgs := imgs) hO hP
  rw [hE] at k; exact k.of
theorem receiveTables_only {s : State} {p : Nat} {imgs : List (List Byte)} (hO : Within pl sb s) (hP : [.out, .regs, .serve, .ctl, .mgt, .alm, .tel] ⊆ pl) : Within pl sb (receiveTables s p imgs).2 := (receiveTables_holds (s := s) (p := p) (imgs := imgs) hO hP).of

end Sys2Proof.Machine
end

