-- ==== Sys2Proof/Laws/FrameMove.lean ====
section
/-! SUPPORT. What each function of Machine/Move.lean can do to the state as a whole: the parts it can change; the queue, the population and the
canonical forms it keeps. `f_only` speaks of the state that `f` answers, `f_holds` of a state inside its answer, `f_only_eq` of one taken out. -/

-- One declaration at a time: thousands of proofs in flight at once ask for more threads than fit in memory.
set_option Elab.async false

set_option linter.unusedTactic false
set_option linter.unreachableTactic false
set_option linter.unusedVariables false
set_option linter.unusedSimpArgs false
namespace Sys2Proof.Machine
open Sys2Proof
variable {pl : List Part} {sb : State}

theorem moveRec_only {s : State} {m : Move} {status peer peerHandle epoch : Nat} (hO : Within pl sb s) (hP : [.out, .regs, .tel] ⊆ pl) : Within pl sb (moveRec s m status peer peerHandle epoch) := by
  unfold moveRec
  repeat' first
    | with_reducible assumption
    | with_reducible refine ite_only ?_ ?_
    | with_reducible refine ringWrite_only ?_ (subset_sub hP (by decide))
    | split

theorem moveDone_only {s : State} {id status : Nat} (hO : Within pl sb s) (hP : [.out, .regs, .mem, .serve, .tel] ⊆ pl) : Within pl sb (moveDone s id status) := by
  unfold moveDone
  repeat' first
    | with_reducible assumption
    | with_reducible refine ite_only ?_ ?_
    | with_reducible refine endMove_only ?_ (subset_sub hP (by decide))
    | with_reducible refine modReq_only ?_ (subset_sub hP (by decide))
    | with_reducible refine moveRec_only ?_ (subset_sub hP (by decide))
    | split

theorem moveFail_only {s : State} {id status : Nat} (hO : Within pl sb s) (hP : [.out, .regs, .mem, .serve, .ctl, .tel] ⊆ pl) : Within pl sb (moveFail s id status) := by
  unfold moveFail
  repeat' first
    | with_reducible assumption
    | with_reducible refine ite_only ?_ ?_
    | with_reducible refine endMove_only ?_ (subset_sub hP (by decide))
    | with_reducible refine goState_only ?_ (subset_sub hP (by decide))
    | with_reducible refine modReq_only ?_ (subset_sub hP (by decide))
    | with_reducible refine moveRec_only ?_ (subset_sub hP (by decide))
    | with_reducible refine sendState_only ?_ (subset_sub hP (by decide))
    | (extract_lets +onlyGivenNames -underBinder x; refine cut_only (ps := pl) (s := sb) (a := x) ?_ ?_; unfold x; rotate_left; clear_value x; intro hx)
    | (extract_lets +onlyGivenNames -underBinder x; (try unfold x); clear x)
    | split

theorem queueWriteback_only {s : State} {p num : Nat} (hO : Within pl sb s) (hP : [.serve] ⊆ pl) : Within pl sb (queueWriteback s p num) := by
  unfold queueWriteback
  repeat' first
    | with_reducible assumption
    | with_reducible refine ite_only ?_ ?_
    | with_reducible refine addXfer_only ?_ (subset_sub hP (by decide))
    | with_reducible refine modPage_only ?_ (subset_sub hP (by decide))
    | with_reducible refine writeBack_only ?_ (subset_sub hP (by decide))
    | (extract_lets +onlyGivenNames -underBinder x; refine cut_only (ps := pl) (s := sb) (a := x) ?_ ?_; unfold x; rotate_left; clear_value x; intro hx)
    | (extract_lets +onlyGivenNames -underBinder x; (try unfold x); clear x)
    | split

theorem dropRetried_only {s : State} {h : Nat} (hO : Within pl sb s) (hP : [.work] ⊆ pl) : Within pl sb (dropRetried s h) := by
  unfold dropRetried
  repeat' first
    | with_reducible assumption
    | with_reducible refine modWork_only ?_ (subset_sub hP (by decide))

theorem sendInstall_only {s : State} {id : Nat} (hO : Within pl sb s) (hP : [.out, .serve] ⊆ pl) : Within pl sb (sendInstall s id) := by
  unfold sendInstall
  repeat' first
    | with_reducible assumption
    | with_reducible refine ite_only ?_ ?_
    | with_reducible refine modMove_only ?_ (subset_sub hP (by decide))
    | with_reducible refine sendState_only ?_ (subset_sub hP (by decide))
    | split

theorem makeHolder_holds {s : State} {m : Move} {r : Req} (hO : Within pl sb s) (hP : [.mem, .serve] ⊆ pl) : Holds (InSome (InSnd pl sb)) (makeHolder s m r) := by
  unfold makeHolder
  repeat' first
    | with_reducible refine map_holds fun _ _ => ?_
    | with_reducible refine ite_holds ?_ ?_
    | with_reducible exact leaf_none
    | with_reducible refine leaf_some ?_
    | with_reducible refine leaf_snd ?_
    | with_reducible refine leaf_only ?_
    | with_reducible assumption
    | with_reducible refine ite_only ?_ ?_
    | with_reducible refine allocOwn_only_eq ?_ (subset_sub hP (by decide)) (by assumption)
    | with_reducible refine cacheRsr_only ?_ (subset_sub hP (by decide))
    | with_reducible refine modMove_only ?_ (subset_sub hP (by decide))
    | with_reducible refine modReq_only ?_ (subset_sub hP (by decide))
    | with_reducible refine pinAll_only ?_ (subset_sub hP (by decide))
    | with_reducible refine modServe_only ?_ (subset_sub hP (by decide))
    | (extract_lets +onlyGivenNames -underBinder x; refine cut_only (ps := pl) (s := sb) (a := x) ?_ ?_; unfold x; rotate_left; clear_value x; intro hx)
    | (extract_lets +onlyGivenNames -underBinder x; (try unfold x); clear x)
    | split
theorem makeHolder_only_eq {s : State} {m : Move} {r : Req} {ra : Nat} {rb : State} (hO : Within pl sb s) (hP : [.mem, .serve] ⊆ pl) (hE : makeHolder s m r = some (ra, rb)) : Within pl sb rb := by
  have k : Holds (InSome (InSnd pl sb)) (makeHolder s m r) := makeHolder_holds (s := s) (m := m) (r := r) hO hP
  rw [hE] at k; exact k.of

theorem progressMove_only {s : State} {id : Nat} (hO : Within pl sb s) (hP : [.out, .regs, .work, .mem, .serve, .ctl, .tel] ⊆ pl) : Within pl sb (progressMove s id) := by
  unfold progressMove
  repeat' first
    | with_reducible assumption
    | with_reducible refine ite_only ?_ ?_
    | with_reducible refine foldl_only ?_ fun _ _ _ => ?_
    | with_reducible refine carryPage_only ?_ (subset_sub hP (by decide))
    | with_reducible refine dropRetried_only ?_ (subset_sub hP (by decide))
    | with_reducible refine endMove_only ?_ (subset_sub hP (by decide))
    | with_reducible refine goState_only ?_ (subset_sub hP (by decide))
    | with_reducible refine makeHolder_only_eq ?_ (subset_sub hP (by decide)) (by assumption)
    | with_reducible refine moveDone_only ?_ (subset_sub hP (by decide))
    | with_reducible refine moveFail_only ?_ (subset_sub hP (by decide))
    | with_reducible refine queueWriteback_only ?_ (subset_sub hP (by decide))
    | with_reducible refine sendInstall_only ?_ (subset_sub hP (by decide))
    | with_reducible refine startEviction_only ?_ (subset_sub hP (by decide))
    | with_reducible refine trimStep_only ?_ (subset_sub hP (by decide))
    | (extract_lets +onlyGivenNames -underBinder x; refine cut_only (ps := pl) (s := sb) (a := x) ?_ ?_; unfold x; rotate_left; clear_value x; intro hx)
    | (extract_lets +onlyGivenNames -underBinder x; (try unfold x); clear x)
    | split

theorem progressPtn_only {s : State} {p : Nat} (hO : Within pl sb s) (hP : [.out, .regs, .work, .mem, .serve, .ctl, .tel] ⊆ pl) : Within pl sb (progressPtn s p) := by
  unfold progressPtn
  repeat' first
    | with_reducible assumption
    | with_reducible refine foldl_only ?_ fun _ _ _ => ?_
    | with_reducible refine progressMove_only ?_ (subset_sub hP (by decide))

theorem progressAll_only {s : State} (hO : Within pl sb s) (hP : [.out, .regs, .work, .mem, .serve, .ctl, .tel] ⊆ pl) : Within pl sb (progressAll s) := by
  unfold progressAll
  repeat' first
    | with_reducible assumption
    | with_reducible refine foldl_only ?_ fun _ _ _ => ?_
    | with_reducible refine progressMove_only ?_ (subset_sub hP (by decide))

theorem execWritebackDone_holds {xfer : Nat} {s : State} (hO : Within pl sb s) (hP : [.out, .regs, .work, .mem, .serve, .ctl, .tel] ⊆ pl) : Holds (InNext pl sb) (execWritebackDone xfer s) := by
  unfold execWritebackDone
  repeat' first
    | with_reducible refine leaf_next ?_
    | with_reducible assumption
    | with_reducible refine ite_only ?_ ?_
    | with_reducible refine foldl_only ?_ fun _ _ _ => ?_
    | with_reducible refine countTile_only ?_ (subset_sub hP (by decide))
    | with_reducible refine dropXfer_only ?_ (subset_sub hP (by decide))
    | with_reducible refine modPage_only ?_ (subset_sub hP (by decide))
    | with_reducible refine progressPtn_only ?_ (subset_sub hP (by decide))
    | with_reducible refine recalc_only ?_ (subset_sub hP (by decide))
    | with_reducible refine telMem_only ?_ (subset_sub hP (by decide))
    | with_reducible refine tierWriteP_only ?_ (subset_sub hP (by decide))
    | with_reducible refine writeBack_only ?_ (subset_sub hP (by decide))
    | (extract_lets +onlyGivenNames -underBinder x; refine cut_only (ps := pl) (s := sb) (a := x) ?_ ?_; unfold x; rotate_left; clear_value x; intro hx)
    | (extract_lets +onlyGivenNames -underBinder x; (try unfold x); clear x)
    | split
theorem execWritebackDone_only {xfer : Nat} {s : State} {t : State} (hO : Within pl sb s) (hP : [.out, .regs, .work, .mem, .serve, .ctl, .tel] ⊆ pl) (hE : execWritebackDone xfer s = .next t) : Within pl sb t := by
  have k : Holds (InNext pl sb) (execWritebackDone xfer s) := execWritebackDone_holds (xfer := xfer) (s := s) hO hP
  rw [hE] at k; exact k.of

theorem takeMove_only {s : State} {v : View} {desc : BitVec 512} {verb : Nat} {act : State → Move → Req → State} (h : Within pl sb s)
    (k : ∀ u m r, Within pl sb u → Within pl sb (act u m r)) (hp : [.out, .regs, .ctl, .tel] ⊆ pl) : Within pl sb (takeMove s v desc verb act) := by
  unfold takeMove
  refine ite_only h ?_
  have h1 : Within pl sb (ringTake s (subRing v 2)) := ringTake_only h (subset_sub hp (by decide))
  dsimp only
  split
  · exact k _ _ _ h1
  · refine moveRec_only (ite_only ?_ h1) (subset_sub hp (by decide))
    split
    · exact ite_only h1 (countAccess_only h1 (subset_sub hp (by decide)))
    · exact h1

theorem endDoubt_only {s : State} {r : Req} (hO : Within pl sb s) (hP : [.out, .freeCount, .regs, .cons, .work, .mem, .serve, .ctl, .tel] ⊆ pl) : Within pl sb (endDoubt s r) := by
  unfold endDoubt
  repeat' first
    | with_reducible assumption
    | with_reducible refine ite_only ?_ ?_
    | with_reducible refine goState_only ?_ (subset_sub hP (by decide))
    | with_reducible refine modReq_only ?_ (subset_sub hP (by decide))
    | with_reducible refine stopReqTasks_only ?_ (subset_sub hP (by decide))

theorem execMovePark_holds {v : View} {desc : BitVec 512} {s : State} (hO : Within pl sb s) (hP : [.out, .freeCount, .regs, .cons, .work, .mem, .serve, .ctl, .tel] ⊆ pl) : Holds (InNext pl sb) (execMovePark v desc s) := by
  unfold execMovePark
  repeat' first
    | with_reducible refine leaf_next ?_
    | with_reducible assumption
    | with_reducible refine ite_only ?_ ?_
    | with_reducible refine foldl_only ?_ fun _ _ _ => ?_
    | with_reducible refine addMove_only ?_ (subset_sub hP (by decide))
    | with_reducible refine carryPage_only ?_ (subset_sub hP (by decide))
    | with_reducible refine endDoubt_only ?_ (subset_sub hP (by decide))
    | with_reducible refine modReq_only ?_ (subset_sub hP (by decide))
    | with_reducible refine moveDone_only ?_ (subset_sub hP (by decide))
    | with_reducible refine progressMove_only ?_ (subset_sub hP (by decide))
    | with_reducible refine takeMove_only ?_ (fun _ _ _ _ => ?_) (subset_sub hP (by decide))
    | (extract_lets +onlyGivenNames -underBinder x; refine cut_only (ps := pl) (s := sb) (a := x) ?_ ?_; unfold x; rotate_left; clear_value x; intro hx)
    | (extract_lets +onlyGivenNames -underBinder x; (try unfold x); clear x)
theorem execMovePark_only {v : View} {desc : BitVec 512} {s : State} {t : State} (hO : Within pl sb s) (hP : [.out, .freeCount, .regs, .cons, .work, .mem, .serve, .ctl, .tel] ⊆ pl) (hE : execMovePark v desc s = .next t) : Within pl sb t := by
  have k : Holds (InNext pl sb) (execMovePark v desc s) := execMovePark_holds (v := v) (desc := desc) (s := s) hO hP
  rw [hE] at k; exact k.of

theorem promotionEnds_only {s : State} {h : Nat} (hO : Within pl sb s) (hP : [.out, .regs, .work, .mem, .serve, .ctl, .tel] ⊆ pl) : Within pl sb (promotionEnds s h) := by
  unfold promotionEnds
  repeat' first
    | with_reducible assumption
    | with_reducible refine ite_only ?_ ?_
    | with_reducible refine goState_only ?_ (subset_sub hP (by decide))
    | with_reducible refine progressMove_only ?_ (subset_sub hP (by decide))
    | (extract_lets +onlyGivenNames -underBinder x; refine cut_only (ps := pl) (s := sb) (a := x) ?_ ?_; unfold x; rotate_left; clear_value x; intro hx)
    | (extract_lets +onlyGivenNames -underBinder x; (try unfold x); clear x)
    | split

theorem fetchAll_only {s : State} {r : Req} {m : Move} {first n : Nat} (hO : Within pl sb s) (hP : [.out, .serve] ⊆ pl) : Within pl sb (fetchAll s r m first n) := by
  unfold fetchAll
  repeat' first
    | with_reducible assumption
    | with_reducible refine ite_only ?_ ?_
    | with_reducible refine foldl_only ?_ fun _ _ _ => ?_
    | with_reducible refine modReq_only ?_ (subset_sub hP (by decide))
    | with_reducible refine sendState_only ?_ (subset_sub hP (by decide))
    | (extract_lets +onlyGivenNames -underBinder x; refine cut_only (ps := pl) (s := sb) (a := x) ?_ ?_; unfold x; rotate_left; clear_value x; intro hx)
    | (extract_lets +onlyGivenNames -underBinder x; (try unfold x); clear x)

theorem execMovePromote_holds {v : View} {desc : BitVec 512} {s : State} (hO : Within pl sb s) (hP : [.out, .freeCount, .regs, .cons, .work, .mem, .serve, .ctl, .tel] ⊆ pl) : Holds (InNext pl sb) (execMovePromote v desc s) := by
  unfold execMovePromote
  repeat' first
    | with_reducible refine leaf_next ?_
    | with_reducible assumption
    | with_reducible refine ite_only ?_ ?_
    | with_reducible refine foldl_only ?_ fun _ _ _ => ?_
    | with_reducible refine addMove_only ?_ (subset_sub hP (by decide))
    | with_reducible refine carryPage_only ?_ (subset_sub hP (by decide))
    | with_reducible refine endDoubt_only ?_ (subset_sub hP (by decide))
    | with_reducible refine fetchAll_only ?_ (subset_sub hP (by decide))
    | with_reducible refine goState_only ?_ (subset_sub hP (by decide))
    | with_reducible refine modReq_only ?_ (subset_sub hP (by decide))
    | with_reducible refine progressMove_only ?_ (subset_sub hP (by decide))
    | with_reducible refine promotePages_only ?_ (subset_sub hP (by decide))
    | with_reducible refine promotionEnds_only ?_ (subset_sub hP (by decide))
    | with_reducible refine takeMove_only ?_ (fun _ _ _ _ => ?_) (subset_sub hP (by decide))
    | (extract_lets +onlyGivenNames -underBinder x; refine cut_only (ps := pl) (s := sb) (a := x) ?_ ?_; unfold x; rotate_left; clear_value x; intro hx)
    | (extract_lets +onlyGivenNames -underBinder x; (try unfold x); clear x)
theorem execMovePromote_only {v : View} {desc : BitVec 512} {s : State} {t : State} (hO : Within pl sb s) (hP : [.out, .freeCount, .regs, .cons, .work, .mem, .serve, .ctl, .tel] ⊆ pl) (hE : execMovePromote v desc s = .next t) : Within pl sb t := by
  have k : Holds (InNext pl sb) (execMovePromote v desc s) := execMovePromote_holds (v := v) (desc := desc) (s := s) hO hP
  rw [hE] at k; exact k.of

theorem evictPage_only {s : State} {g : Page} {h : Nat} (hO : Within pl sb s) (hP : [.serve] ⊆ pl) : Within pl sb (evictPage s g h) := by
  unfold evictPage
  repeat' first
    | with_reducible assumption
    | with_reducible refine ite_only ?_ ?_
    | with_reducible refine addXfer_only ?_ (subset_sub hP (by decide))

theorem countSkipped_only {s : State} {p n : Nat} (hO : Within pl sb s) (hP : [.ctl] ⊆ pl) : Within pl sb (countSkipped s p n) := by
  unfold countSkipped
  repeat' first
    | with_reducible assumption
    | with_reducible refine ite_only ?_ ?_
    | with_reducible refine odCount_only ?_ (subset_sub hP (by decide))

theorem execMoveEvict_holds {v : View} {desc : BitVec 512} {s : State} (hO : Within pl sb s) (hP : [.out, .regs, .work, .mem, .serve, .ctl, .tel] ⊆ pl) : Holds (InNext pl sb) (execMoveEvict v desc s) := by
  unfold execMoveEvict
  repeat' first
    | with_reducible refine leaf_next ?_
    | with_reducible assumption
    | with_reducible refine ite_only ?_ ?_
    | with_reducible refine foldl_only ?_ fun _ _ _ => ?_
    | with_reducible refine addMove_only ?_ (subset_sub hP (by decide))
    | with_reducible refine countSkipped_only ?_ (subset_sub hP (by decide))
    | with_reducible refine evictPage_only ?_ (subset_sub hP (by decide))
    | with_reducible refine modReq_only ?_ (subset_sub hP (by decide))
    | with_reducible refine progressMove_only ?_ (subset_sub hP (by decide))
    | with_reducible refine takeMove_only ?_ (fun _ _ _ _ => ?_) (subset_sub hP (by decide))
    | (extract_lets +onlyGivenNames -underBinder x; refine cut_only (ps := pl) (s := sb) (a := x) ?_ ?_; unfold x; rotate_left; clear_value x; intro hx)
    | (extract_lets +onlyGivenNames -underBinder x; (try unfold x); clear x)
theorem execMoveEvict_only {v : View} {desc : BitVec 512} {s : State} {t : State} (hO : Within pl sb s) (hP : [.out, .regs, .work, .mem, .serve, .ctl, .tel] ⊆ pl) (hE : execMoveEvict v desc s = .next t) : Within pl sb t := by
  have k : Holds (InNext pl sb) (execMoveEvict v desc s) := execMoveEvict_holds (v := v) (desc := desc) (s := s) hO hP
  rw [hE] at k; exact k.of

theorem execMoveClone_holds {v : View} {desc : BitVec 512} {s : State} (hO : Within pl sb s) (hP : [.out, .regs, .mem, .serve, .ctl, .tel] ⊆ pl) : Holds (InNext pl sb) (execMoveClone v desc s) := by
  unfold execMoveClone
  repeat' first
    | with_reducible refine bind_holds (ps := pl) (s := sb) ?_ fun _ _ => ?_
    | with_reducible refine bindAny_holds fun _ => ?_
    | with_reducible refine foldl_holds ?_ fun _ _ _ => ?_
    | with_reducible refine map_holds fun _ _ => ?_
    | with_reducible refine ite_holds ?_ ?_
    | with_reducible exact leaf_none
    | with_reducible refine leaf_some ?_
    | with_reducible refine leaf_only ?_
    | with_reducible refine leaf_next ?_
    | with_reducible assumption
    | with_reducible refine ite_only ?_ ?_
    | with_reducible refine foldl_only ?_ fun _ _ _ => ?_
    | with_reducible refine allocOwn_only_eq ?_ (subset_sub hP (by decide)) (by assumption)
    | with_reducible refine allocTiles_only_eq ?_ (subset_sub hP (by decide)) (by assumption)
    | with_reducible refine allocTiles_holds ?_ (subset_sub hP (by decide))
    | with_reducible refine cacheRsr_only ?_ (subset_sub hP (by decide))
    | with_reducible refine modReq_only ?_ (subset_sub hP (by decide))
    | with_reducible refine moveRec_only ?_ (subset_sub hP (by decide))
    | with_reducible refine refAll_only ?_ (subset_sub hP (by decide))
    | with_reducible refine startEviction_only ?_ (subset_sub hP (by decide))
    | with_reducible refine startSeals_only ?_ (subset_sub hP (by decide))
    | with_reducible refine takeMove_only ?_ (fun _ _ _ _ => ?_) (subset_sub hP (by decide))
    | with_reducible refine tierWrite_only ?_ (subset_sub hP (by decide))
    | with_reducible refine modServe_only ?_ (subset_sub hP (by decide))
    | with_reducible refine someOf_only (by with_reducible assumption) ?_
    | (extract_lets +onlyGivenNames -underBinder x; refine cut_only (ps := pl) (s := sb) (a := x) ?_ ?_; unfold x; rotate_left; clear_value x; intro hx)
    | (extract_lets +onlyGivenNames -underBinder x; (try unfold x); clear x)
    | split
theorem execMoveClone_only {v : View} {desc : BitVec 512} {s : State} {t : State} (hO : Within pl sb s) (hP : [.out, .regs, .mem, .serve, .ctl, .tel] ⊆ pl) (hE : execMoveClone v desc s = .next t) : Within pl sb t := by
  have k : Holds (InNext pl sb) (execMoveClone v desc s) := execMoveClone_holds (v := v) (desc := desc) (s := s) hO hP
  rw [hE] at k; exact k.of

theorem dropNow_only {s : State} {h id : Nat} (hO : Within pl sb s) (hP : [.out, .freeCount, .regs, .cons, .work, .mem, .serve, .ctl, .tel] ⊆ pl) : Within pl sb (dropNow s h id) := by
  unfold dropNow
  repeat' first
    | with_reducible assumption
    | with_reducible refine freeReq_only ?_ (subset_sub hP (by decide))
    | with_reducible refine moveRec_only ?_ (subset_sub hP (by decide))
    | with_reducible refine releaseAll_only ?_ (subset_sub hP (by decide))
    | with_reducible refine stopReqTasks_only ?_ (subset_sub hP (by decide))
    | (extract_lets +onlyGivenNames -underBinder x; refine cut_only (ps := pl) (s := sb) (a := x) ?_ ?_; unfold x; rotate_left; clear_value x; intro hx)
    | (extract_lets +onlyGivenNames -underBinder x; (try unfold x); clear x)
    | split

theorem takeRefs_only {s : State} {r : Req} {n : Nat} {sets : List (Nat × Nat × List Nat)} (hO : Within pl sb s) (hP : [.mem, .serve] ⊆ pl) : Within pl sb (takeRefs s r n sets) := by
  unfold takeRefs
  repeat' first
    | with_reducible assumption
    | with_reducible refine foldl_only ?_ fun _ _ _ => ?_
    | with_reducible refine dropSets_only ?_ (subset_sub hP (by decide))
    | with_reducible refine modReq_only ?_ (subset_sub hP (by decide))

theorem execMoveDrop_holds {v : View} {desc : BitVec 512} {s : State} (hO : Within pl sb s) (hP : [.out, .freeCount, .regs, .cons, .work, .mem, .serve, .ctl, .tel] ⊆ pl) : Holds (InNext pl sb) (execMoveDrop v desc s) := by
  unfold execMoveDrop
  repeat' first
    | with_reducible refine leaf_next ?_
    | with_reducible assumption
    | with_reducible refine ite_only ?_ ?_
    | with_reducible refine addMove_only ?_ (subset_sub hP (by decide))
    | with_reducible refine dropNow_only ?_ (subset_sub hP (by decide))
    | with_reducible refine modReq_only ?_ (subset_sub hP (by decide))
    | with_reducible refine takeMove_only ?_ (fun _ _ _ _ => ?_) (subset_sub hP (by decide))
    | with_reducible refine takeRefs_only ?_ (subset_sub hP (by decide))
    | (extract_lets +onlyGivenNames -underBinder x; refine cut_only (ps := pl) (s := sb) (a := x) ?_ ?_; unfold x; rotate_left; clear_value x; intro hx)
    | (extract_lets +onlyGivenNames -underBinder x; (try unfold x); clear x)
theorem execMoveDrop_only {v : View} {desc : BitVec 512} {s : State} {t : State} (hO : Within pl sb s) (hP : [.out, .freeCount, .regs, .cons, .work, .mem, .serve, .ctl, .tel] ⊆ pl) (hE : execMoveDrop v desc s = .next t) : Within pl sb t := by
  have k : Holds (InNext pl sb) (execMoveDrop v desc s) := execMoveDrop_holds (v := v) (desc := desc) (s := s) hO hP
  rw [hE] at k; exact k.of

theorem execMovePlan_holds {v : View} {desc : BitVec 512} {s : State} (hO : Within pl sb s) (hP : [.out, .regs, .serve, .ctl, .tel] ⊆ pl) : Holds (InNext pl sb) (execMovePlan v desc s) := by
  unfold execMovePlan
  repeat' first
    | with_reducible refine leaf_next ?_
    | with_reducible assumption
    | with_reducible refine ite_only ?_ ?_
    | with_reducible refine foldl_only ?_ fun _ _ _ => ?_
    | with_reducible refine addMove_only ?_ (subset_sub hP (by decide))
    | with_reducible refine moveRec_only ?_ (subset_sub hP (by decide))
    | with_reducible refine refAll_only ?_ (subset_sub hP (by decide))
    | with_reducible refine takeMove_only ?_ (fun _ _ _ _ => ?_) (subset_sub hP (by decide))
    | (extract_lets +onlyGivenNames -underBinder x; refine cut_only (ps := pl) (s := sb) (a := x) ?_ ?_; unfold x; rotate_left; clear_value x; intro hx)
    | (extract_lets +onlyGivenNames -underBinder x; (try unfold x); clear x)
    | split
theorem execMovePlan_only {v : View} {desc : BitVec 512} {s : State} {t : State} (hO : Within pl sb s) (hP : [.out, .regs, .serve, .ctl, .tel] ⊆ pl) (hE : execMovePlan v desc s = .next t) : Within pl sb t := by
  have k : Holds (InNext pl sb) (execMovePlan v desc s) := execMovePlan_holds (v := v) (desc := desc) (s := s) hO hP
  rw [hE] at k; exact k.of

theorem switchPlans_only {s : State} (hO : Within pl sb s) (hP : [.out, .regs, .mem, .serve, .ctl, .tel] ⊆ pl) : Within pl sb (switchPlans s) := by
  unfold switchPlans
  repeat' first
    | with_reducible assumption
    | with_reducible refine ite_only ?_ ?_
    | with_reducible refine foldl_only ?_ fun _ _ _ => ?_
    | with_reducible refine endMove_only ?_ (subset_sub hP (by decide))
    | with_reducible refine modReq_only ?_ (subset_sub hP (by decide))
    | with_reducible refine moveRec_only ?_ (subset_sub hP (by decide))
    | with_reducible refine promoteQueued_only ?_ (subset_sub hP (by decide))
    | with_reducible refine refAll_only ?_ (subset_sub hP (by decide))
    | with_reducible refine tierWrite_only ?_ (subset_sub hP (by decide))
    | with_reducible refine modServe_only ?_ (subset_sub hP (by decide))
    | (extract_lets +onlyGivenNames -underBinder x; refine cut_only (ps := pl) (s := sb) (a := x) ?_ ?_; unfold x; rotate_left; clear_value x; intro hx)
    | (extract_lets +onlyGivenNames -underBinder x; (try unfold x); clear x)
    | split

theorem farRoom_only_eq {s : State} {p n fuel : Nat} {ra : Nat} {rb : State} (h : Within pl sb s) (hp : [.mem, .serve] ⊆ pl)
    (e : farRoom s p n fuel = some (ra, rb)) : Within pl sb rb := by
  induction fuel generalizing s with
  | zero => exact allocTiles_only_eq h (subset_sub hp (by decide)) e
  | succ fuel ih =>
    unfold farRoom at e
    split at e
    · rename_i x hx
      cases e
      exact allocTiles_only_eq h (subset_sub hp (by decide)) hx
    · split at e
      · cases e
      · exact ih (modPage_only (pageTabs_only (freeTiles_only h (subset_sub hp (by decide))) (subset_sub hp (by decide))) (subset_sub hp (by decide))) e

theorem farRoom_holds {s : State} {p n fuel : Nat} (h : Within pl sb s) (hp : [.mem, .serve] ⊆ pl) : Holds (InSome (InSnd pl sb)) (farRoom s p n fuel) := by
  cases e : farRoom s p n fuel with
  | none => exact leaf_none
  | some r => exact leaf_some (leaf_snd (farRoom_only_eq h hp e))

theorem putFar_only {s : State} {p num tile packedLen tab : Nat} {bytes : List Byte} {bad : List Nat} (hO : Within pl sb s) (hP : [.mem, .serve] ⊆ pl) : Within pl sb (putFar s p num tile packedLen tab bytes bad) := by
  unfold putFar
  repeat' first
    | with_reducible assumption
    | with_reducible refine modPage_only ?_ (subset_sub hP (by decide))
    | with_reducible refine pageTabs_only ?_ (subset_sub hP (by decide))
    | with_reducible refine tierWriteP_only ?_ (subset_sub hP (by decide))
    | (extract_lets +onlyGivenNames -underBinder x; refine cut_only (ps := pl) (s := sb) (a := x) ?_ ?_; unfold x; rotate_left; clear_value x; intro hx)
    | (extract_lets +onlyGivenNames -underBinder x; (try unfold x); clear x)
    | split

theorem codePage_only {s : State} {x : Xfer} (hO : Within pl sb s) (hP : [.serve] ⊆ pl) : Within pl sb (codePage s x) := by
  unfold codePage
  repeat' first
    | with_reducible assumption
    | with_reducible refine ite_only ?_ ?_
    | with_reducible refine foldl_only ?_ fun _ _ _ => ?_
    | with_reducible refine tabRef_only ?_ (subset_sub hP (by decide))
    | with_reducible refine modServe_only ?_ (subset_sub hP (by decide))
    | (extract_lets +onlyGivenNames -underBinder x; refine cut_only (ps := pl) (s := sb) (a := x) ?_ ?_; unfold x; rotate_left; clear_value x; intro hx)
    | (extract_lets +onlyGivenNames -underBinder x; (try unfold x); clear x)
    | split

theorem codePages_only {s : State} {p capB usedB : Nat} (hO : Within pl sb s) (hP : [.serve] ⊆ pl) : Within pl sb (codePages s p capB usedB) := by
  unfold codePages
  repeat' first
    | with_reducible assumption
    | with_reducible refine ite_only ?_ ?_
    | with_reducible refine foldl_only ?_ fun _ _ _ => ?_
    | with_reducible refine foldlFst_only ?_ fun _ _ _ => ?_
    | with_reducible refine codePage_only ?_ (subset_sub hP (by decide))
    | (extract_lets +onlyGivenNames -underBinder x; refine cut_only (ps := pl) (s := sb) (a := x) ?_ ?_; unfold x; rotate_left; clear_value x; intro hx)
    | (extract_lets +onlyGivenNames -underBinder x; (try unfold x); clear x)
    | split

theorem evictEnds_only {s : State} {h : Nat} {skip : Bool} (hO : Within pl sb s) (hP : [.out, .regs, .work, .mem, .serve, .ctl, .tel] ⊆ pl) : Within pl sb (evictEnds s h skip) := by
  unfold evictEnds
  repeat' first
    | with_reducible assumption
    | with_reducible refine ite_only ?_ ?_
    | with_reducible refine modMove_only ?_ (subset_sub hP (by decide))
    | with_reducible refine progressMove_only ?_ (subset_sub hP (by decide))
    | split

theorem evictDone_only {s : State} {x : Xfer} {p num h : Nat} (hO : Within pl sb s) (hP : [.out, .regs, .work, .mem, .serve, .ctl, .tel] ⊆ pl) : Within pl sb (evictDone s x p num h) := by
  unfold evictDone
  repeat' first
    | with_reducible refine map_holds fun _ _ => ?_
    | with_reducible refine ite_holds ?_ ?_
    | with_reducible refine leaf_some ?_
    | with_reducible refine leaf_only ?_
    | with_reducible assumption
    | with_reducible refine ite_only ?_ ?_
    | with_reducible refine getD_only ?_ ?_
    | with_reducible refine countSkipped_only ?_ (subset_sub hP (by decide))
    | with_reducible refine dropXfer_only ?_ (subset_sub hP (by decide))
    | with_reducible refine evictEnds_only ?_ (subset_sub hP (by decide))
    | with_reducible refine farRoom_only_eq ?_ (subset_sub hP (by decide)) (by assumption)
    | with_reducible refine freeTiles_only ?_ (subset_sub hP (by decide))
    | with_reducible refine modPage_only ?_ (subset_sub hP (by decide))
    | with_reducible refine odCount_only ?_ (subset_sub hP (by decide))
    | with_reducible refine promoteQueued_only ?_ (subset_sub hP (by decide))
    | with_reducible refine putFar_only ?_ (subset_sub hP (by decide))
    | with_reducible refine modServe_only ?_ (subset_sub hP (by decide))
    | with_reducible refine someOf_only (by with_reducible assumption) ?_
    | (extract_lets +onlyGivenNames -underBinder x; refine cut_only (ps := pl) (s := sb) (a := x) ?_ ?_; unfold x; rotate_left; clear_value x; intro hx)
    | (extract_lets +onlyGivenNames -underBinder x; (try unfold x); clear x)
    | split

theorem takeVictims_only {s : State} {p fuel : Nat} (h : Within pl sb s) (hp : [.serve] ⊆ pl) : Within pl sb (takeVictims s p fuel) := by
  induction fuel generalizing s with
  | zero => exact h
  | succ fuel ih =>
    unfold takeVictims
    have stop := modServe_only (f := fun w => { w with evicting := w.evicting.filter (· != p) }) h (subset_sub hp (by decide))
    refine ite_only h (ite_only stop (ite_only (ite_only h stop) ?_))
    split
    · exact ite_only h stop
    · exact ih (evictPage_only h (subset_sub hp (by decide)))

theorem nearLow_only {s : State} {p : Nat} (hO : Within pl sb s) (hP : [.serve] ⊆ pl) : Within pl sb (nearLow s p) := by
  unfold nearLow
  repeat' first
    | with_reducible assumption
    | with_reducible refine ite_only ?_ ?_
    | with_reducible refine startEviction_only ?_ (subset_sub hP (by decide))

theorem execEvictionStart_holds {ptn : Nat} {s : State} (hO : Within pl sb s) (hP : [.serve] ⊆ pl) : Holds (InNext pl sb) (execEvictionStart ptn s) := by
  unfold execEvictionStart
  repeat' first
    | with_reducible refine leaf_next ?_
    | with_reducible assumption
    | with_reducible refine ite_only ?_ ?_
    | with_reducible refine startEviction_only ?_ (subset_sub hP (by decide))
    | with_reducible refine takeVictims_only ?_ (subset_sub hP (by decide))
theorem execEvictionStart_only {ptn : Nat} {s : State} {t : State} (hO : Within pl sb s) (hP : [.serve] ⊆ pl) (hE : execEvictionStart ptn s = .next t) : Within pl sb t := by
  have k : Holds (InNext pl sb) (execEvictionStart ptn s) := execEvictionStart_holds (ptn := ptn) (s := s) hO hP
  rw [hE] at k; exact k.of

theorem execHeatAging_holds {ptn : Nat} {s : State} (hO : Within pl sb s) (hP : [.serve] ⊆ pl) : Holds (InNext pl sb) (execHeatAging ptn s) := by
  unfold execHeatAging
  repeat' first
    | with_reducible refine leaf_next ?_
    | with_reducible assumption
    | with_reducible refine ite_only ?_ ?_
    | with_reducible refine modServe_only ?_ (subset_sub hP (by decide))
theorem execHeatAging_only {ptn : Nat} {s : State} {t : State} (hO : Within pl sb s) (hP : [.serve] ⊆ pl) (hE : execHeatAging ptn s = .next t) : Within pl sb t := by
  have k : Holds (InNext pl sb) (execHeatAging ptn s) := execHeatAging_holds (ptn := ptn) (s := s) hO hP
  rw [hE] at k; exact k.of

theorem promoteDone_only {s : State} {x : Xfer} {p num h : Nat} (hO : Within pl sb s) (hP : [.out, .freeCount, .regs, .cons, .work, .mem, .serve, .ctl, .mgt, .alm, .tel] ⊆ pl) : Within pl sb (promoteDone s x p num h) := by
  unfold promoteDone
  repeat' first
    | with_reducible refine ite_holds ?_ ?_
    | with_reducible exact leaf_none
    | with_reducible assumption
    | with_reducible refine ite_only ?_ ?_
    | with_reducible refine foldl_only ?_ fun _ _ _ => ?_
    | with_reducible refine allocTiles_only_eq ?_ (subset_sub hP (by decide)) (by assumption)
    | with_reducible refine allocTiles_holds ?_ (subset_sub hP (by decide))
    | with_reducible refine dropXfer_only ?_ (subset_sub hP (by decide))
    | with_reducible refine failReq_only ?_ (subset_sub hP (by decide))
    | with_reducible refine modMove_only ?_ (subset_sub hP (by decide))
    | with_reducible refine modPage_only ?_ (subset_sub hP (by decide))
    | with_reducible refine promotionEnds_only ?_ (subset_sub hP (by decide))
    | with_reducible refine startEviction_only ?_ (subset_sub hP (by decide))
    | with_reducible refine streamFault_only ?_ (subset_sub hP (by decide))
    | with_reducible refine takeRoom_only ?_ (subset_sub hP (by decide))
    | with_reducible refine tierWriteP_only ?_ (subset_sub hP (by decide))
    | with_reducible refine modServe_only ?_ (subset_sub hP (by decide))
    | with_reducible refine someFst_only (by with_reducible assumption) ?_
    | with_reducible refine someSnd_only (by with_reducible assumption) ?_
    | (extract_lets +onlyGivenNames -underBinder x; refine cut_only (ps := pl) (s := sb) (a := x) ?_ ?_; unfold x; rotate_left; clear_value x; intro hx)
    | (extract_lets +onlyGivenNames -underBinder x; (try unfold x); clear x)
    | split

theorem sendPage_only {s : State} {x : Xfer} {p num id : Nat} (hO : Within pl sb s) (hP : [.out, .serve] ⊆ pl) : Within pl sb (sendPage s x p num id) := by
  unfold sendPage
  repeat' first
    | with_reducible assumption
    | with_reducible refine ite_only ?_ ?_
    | with_reducible refine foldl_only ?_ fun _ _ _ => ?_
    | with_reducible refine dropXfer_only ?_ (subset_sub hP (by decide))
    | with_reducible refine modMove_only ?_ (subset_sub hP (by decide))
    | with_reducible refine modReq_only ?_ (subset_sub hP (by decide))
    | with_reducible refine sendState_only ?_ (subset_sub hP (by decide))
    | with_reducible refine tabRef_only ?_ (subset_sub hP (by decide))
    | (extract_lets +onlyGivenNames -underBinder x; refine cut_only (ps := pl) (s := sb) (a := x) ?_ ?_; unfold x; rotate_left; clear_value x; intro hx)
    | (extract_lets +onlyGivenNames -underBinder x; (try unfold x); clear x)
    | split

end Sys2Proof.Machine
end

