-- ==== Sys2Proof/Laws/FrameMessage.lean ====
section
/-! SUPPORT. What each function of Machine/Message.lean can do to the state as a whole: the parts it can change; the queue, the population and the
canonical forms it keeps. `f_only` speaks of the state that `f` answers, `f_holds` of a state inside its answer, `f_only_eq` of one taken out. -/

-- One declaration at a time: thousands of proofs in flight at once ask for more threads than fit in memory.
set_option Elab.async false

set_option linter.unusedTactic false
set_option linter.unreachableTactic false
set_option linter.unusedVariables false
set_option linter.unusedSimpArgs false
namespace Sys2Proof.Machine
open Sys2Proof
variable {pl : List Part} {sb : State}

theorem onMsg_only {dev : Nat} {m : StateMsg} {s : State} {act : State → State} {own : Bool} (h : Within pl sb s)
    (k : ∀ u, Within pl sb u → Within pl sb (act u)) (hp : [.ctl] ⊆ pl) : Within pl sb (onMsg dev m s act own) := by
  unfold onMsg
  exact ite_only (k _ h) (ite_only (countAccess_only h (subset_sub hp (by decide))) h)

theorem ackMsg_only {s : State} {dev : Nat} {m : StateMsg} {op status src dst : Nat} {items : List Item} (hO : Within pl sb s) (hP : [.out] ⊆ pl) : Within pl sb (ackMsg s dev m op status src dst items) := by
  unfold ackMsg
  repeat' first
    | with_reducible assumption
    | with_reducible refine sendState_only ?_ (subset_sub hP (by decide))

theorem endReception_only {s : State} {p dev h ep : Nat} {keep : List Nat} (hO : Within pl sb s) (hP : [.mem, .serve] ⊆ pl) : Within pl sb (endReception s p dev h ep keep) := by
  unfold endReception
  repeat' first
    | with_reducible assumption
    | with_reducible refine foldl_only ?_ fun _ _ _ => ?_
    | with_reducible refine dropRef_only ?_ (subset_sub hP (by decide))
    | with_reducible refine modServe_only ?_ (subset_sub hP (by decide))
    | (extract_lets +onlyGivenNames -underBinder x; refine cut_only (ps := pl) (s := sb) (a := x) ?_ ?_; unfold x; rotate_left; clear_value x; intro hx)
    | (extract_lets +onlyGivenNames -underBinder x; (try unfold x); clear x)
    | split

theorem storePage_holds {s : State} {p : Nat} {tabs : List (Nat × Nat × Nat × Nat)} {d bytes : List Byte} {bad : List Nat} (hO : Within pl sb s) (hP : [.mem, .serve] ⊆ pl) : Holds (InSome (InSnd pl sb)) (storePage s p tabs d bytes bad) := by
  unfold storePage
  repeat' first
    | with_reducible refine map_holds fun _ _ => ?_
    | with_reducible refine ite_holds ?_ ?_
    | with_reducible exact leaf_none
    | with_reducible refine leaf_some ?_
    | with_reducible refine leaf_snd ?_
    | with_reducible refine leaf_only ?_
    | with_reducible assumption
    | with_reducible refine ite_only ?_ ?_
    | with_reducible refine allocTiles_only_eq ?_ (subset_sub hP (by decide)) (by assumption)
    | with_reducible refine allocTiles_holds ?_ (subset_sub hP (by decide))
    | with_reducible refine farRoom_only_eq ?_ (subset_sub hP (by decide)) (by assumption)
    | with_reducible refine modPage_only ?_ (subset_sub hP (by decide))
    | with_reducible refine putFar_only ?_ (subset_sub hP (by decide))
    | with_reducible refine tierWriteP_only ?_ (subset_sub hP (by decide))
    | with_reducible refine modServe_only ?_ (subset_sub hP (by decide))
    | (extract_lets +onlyGivenNames -underBinder x; refine cut_only (ps := pl) (s := sb) (a := x) ?_ ?_; unfold x; rotate_left; clear_value x; intro hx)
    | (extract_lets +onlyGivenNames -underBinder x; (try unfold x); clear x)
    | split
theorem storePage_only_eq {s : State} {p : Nat} {tabs : List (Nat × Nat × Nat × Nat)} {d bytes : List Byte} {bad : List Nat} {ra : Nat} {rb : State} (hO : Within pl sb s) (hP : [.mem, .serve] ⊆ pl) (hE : storePage s p tabs d bytes bad = some (ra, rb)) : Within pl sb rb := by
  have k : Holds (InSome (InSnd pl sb)) (storePage s p tabs d bytes bad) := storePage_holds (s := s) (p := p) (tabs := tabs) (d := d) (bytes := bytes) (bad := bad) hO hP
  rw [hE] at k; exact k.of

theorem takeTables_holds {s : State} {p : Nat} {items : List Item} (hO : Within pl sb s) (hP : [.out, .regs, .serve, .ctl, .mgt, .alm, .tel] ⊆ pl) : Holds (InSnd pl sb) (takeTables s p items) := by
  unfold takeTables
  repeat' first
    | with_reducible refine foldl_holds ?_ fun _ _ _ => ?_
    | with_reducible refine ite_holds ?_ ?_
    | with_reducible refine leaf_snd ?_
    | with_reducible assumption
    | with_reducible refine ite_only ?_ ?_
    | with_reducible refine foldl_only ?_ fun _ _ _ => ?_
    | with_reducible refine receiveTables_only_eq ?_ (subset_sub hP (by decide)) (by assumption)
    | with_reducible refine receiveTables_only ?_ (subset_sub hP (by decide))
    | with_reducible exact ofSnd (by with_reducible assumption)
    | (extract_lets +onlyGivenNames -underBinder x; refine cut_only (ps := pl) (s := sb) (a := x) ?_ ?_; unfold x; rotate_left; clear_value x; intro hx)
    | (extract_lets +onlyGivenNames -underBinder x; (try unfold x); clear x)
    | split
theorem takeTables_only_eq {s : State} {p : Nat} {items : List Item} {ra : List (Nat × Nat × Nat × Nat)} {rb : State} (hO : Within pl sb s) (hP : [.out, .regs, .serve, .ctl, .mgt, .alm, .tel] ⊆ pl) (hE : takeTables s p items = (ra, rb)) : Within pl sb rb := by
  have k : Holds (InSnd pl sb) (takeTables s p items) := takeTables_holds (s := s) (p := p) (items := items) hO hP
  rw [hE] at k; exact k.of
theorem takeTables_only {s : State} {p : Nat} {items : List Item} (hO : Within pl sb s) (hP : [.out, .regs, .serve, .ctl, .mgt, .alm, .tel] ⊆ pl) : Within pl sb (takeTables s p items).2 := (takeTables_holds (s := s) (p := p) (items := items) hO hP).of

theorem dropUnused_only {s : State} {p : Nat} (hO : Within pl sb s) (hP : [.serve] ⊆ pl) : Within pl sb (dropUnused s p) := by
  unfold dropUnused
  repeat' first
    | with_reducible assumption
    | with_reducible refine modServe_only ?_ (subset_sub hP (by decide))

theorem placePage_only {s : State} {dev : Nat} {m : StateMsg} {layer pos num : Nat} (hO : Within pl sb s) (hP : [.mem, .serve] ⊆ pl) : Within pl sb (placePage s dev m layer pos num) := by
  unfold placePage
  repeat' first
    | with_reducible assumption
    | with_reducible refine ite_only ?_ ?_
    | with_reducible refine dropRef_only ?_ (subset_sub hP (by decide))
    | with_reducible refine modPage_only ?_ (subset_sub hP (by decide))
    | with_reducible refine modReq_only ?_ (subset_sub hP (by decide))
    | with_reducible refine promotePages_only ?_ (subset_sub hP (by decide))
    | with_reducible refine modServe_only ?_ (subset_sub hP (by decide))
    | (extract_lets +onlyGivenNames -underBinder x; refine cut_only (ps := pl) (s := sb) (a := x) ?_ ?_; unfold x; rotate_left; clear_value x; intro hx)
    | (extract_lets +onlyGivenNames -underBinder x; (try unfold x); clear x)
    | split

theorem fetchFailed_only {s : State} {h layer pos : Nat} (hO : Within pl sb s) (hP : [.out, .regs, .mem, .serve, .ctl, .tel] ⊆ pl) : Within pl sb (fetchFailed s h layer pos) := by
  unfold fetchFailed
  repeat' first
    | with_reducible assumption
    | with_reducible refine ite_only ?_ ?_
    | with_reducible refine modMove_only ?_ (subset_sub hP (by decide))
    | with_reducible refine moveFail_only ?_ (subset_sub hP (by decide))
    | (extract_lets +onlyGivenNames -underBinder x; refine cut_only (ps := pl) (s := sb) (a := x) ?_ ?_; unfold x; rotate_left; clear_value x; intro hx)
    | (extract_lets +onlyGivenNames -underBinder x; (try unfold x); clear x)
    | split

theorem receiveDone_only {s : State} {x : Xfer} {dev : Nat} {m : StateMsg} (hO : Within pl sb s) (hP : [.out, .regs, .mem, .serve, .ctl, .mgt, .alm, .tel] ⊆ pl) : Within pl sb (receiveDone s x dev m) := by
  unfold receiveDone
  repeat' first
    | with_reducible assumption
    | with_reducible refine ite_only ?_ ?_
    | with_reducible refine foldlSnd_only ?_ fun _ _ _ => ?_
    | with_reducible refine ackMsg_only ?_ (subset_sub hP (by decide))
    | with_reducible refine dropUnused_only ?_ (subset_sub hP (by decide))
    | with_reducible refine dropXfer_only ?_ (subset_sub hP (by decide))
    | with_reducible refine fetchFailed_only ?_ (subset_sub hP (by decide))
    | with_reducible refine placePage_only ?_ (subset_sub hP (by decide))
    | with_reducible refine startEviction_only ?_ (subset_sub hP (by decide))
    | with_reducible refine storePage_only_eq ?_ (subset_sub hP (by decide)) (by assumption)
    | with_reducible refine takeTables_only_eq ?_ (subset_sub hP (by decide)) (by assumption)
    | with_reducible refine takeTables_only ?_ (subset_sub hP (by decide))
    | with_reducible refine modServe_only ?_ (subset_sub hP (by decide))
    | (extract_lets +onlyGivenNames -underBinder x; refine cut_only (ps := pl) (s := sb) (a := x) ?_ ?_; unfold x; rotate_left; clear_value x; intro hx)
    | (extract_lets +onlyGivenNames -underBinder x; (try unfold x); clear x)
    | split

theorem execMsgPages_holds {dev : Nat} {m : StateMsg} {s : State} (hO : Within pl sb s) (hP : [.out, .serve, .ctl] ⊆ pl) : Holds (InNext pl sb) (execMsgPages dev m s) := by
  unfold execMsgPages
  repeat' first
    | with_reducible refine leaf_next ?_
    | with_reducible assumption
    | with_reducible refine ite_only ?_ ?_
    | with_reducible refine foldl_only ?_ fun _ _ _ => ?_
    | with_reducible refine ackMsg_only ?_ (subset_sub hP (by decide))
    | with_reducible refine addXfer_only ?_ (subset_sub hP (by decide))
    | with_reducible refine onMsg_only ?_ (fun _ _ => ?_) (subset_sub hP (by decide))
    | with_reducible refine modServe_only ?_ (subset_sub hP (by decide))
    | (extract_lets +onlyGivenNames -underBinder x; refine cut_only (ps := pl) (s := sb) (a := x) ?_ ?_; unfold x; rotate_left; clear_value x; intro hx)
    | (extract_lets +onlyGivenNames -underBinder x; (try unfold x); clear x)
    | split
theorem execMsgPages_only {dev : Nat} {m : StateMsg} {s : State} {t : State} (hO : Within pl sb s) (hP : [.out, .serve, .ctl] ⊆ pl) (hE : execMsgPages dev m s = .next t) : Within pl sb t := by
  have k : Holds (InNext pl sb) (execMsgPages dev m s) := execMsgPages_holds (dev := dev) (m := m) (s := s) hO hP
  rw [hE] at k; exact k.of

theorem restPage_only {s : State} {p num : Nat} (hO : Within pl sb s) (hP : [.mem, .serve] ⊆ pl) : Within pl sb (restPage s p num) := by
  unfold restPage
  repeat' first
    | with_reducible assumption
    | with_reducible refine ite_only ?_ ?_
    | with_reducible refine farRoom_only_eq ?_ (subset_sub hP (by decide)) (by assumption)
    | with_reducible refine freeTiles_only ?_ (subset_sub hP (by decide))
    | with_reducible refine modPage_only ?_ (subset_sub hP (by decide))
    | with_reducible refine putFar_only ?_ (subset_sub hP (by decide))
    | (extract_lets +onlyGivenNames -underBinder x; refine cut_only (ps := pl) (s := sb) (a := x) ?_ ?_; unfold x; rotate_left; clear_value x; intro hx)
    | (extract_lets +onlyGivenNames -underBinder x; (try unfold x); clear x)
    | split

theorem installTail_holds {s : State} {h : Nat} {l i tokens : Nat} {bytes : List Byte} (hO : Within pl sb s) (hP : [.mem, .serve] ⊆ pl) : Holds (InSome (Within pl sb)) (installTail s h l i tokens bytes) := by
  unfold installTail
  repeat' first
    | with_reducible refine bind_holds (ps := pl) (s := sb) ?_ fun _ _ => ?_
    | with_reducible refine bindAny_holds fun _ => ?_
    | with_reducible refine map_holds fun _ _ => ?_
    | with_reducible refine ite_holds ?_ ?_
    | with_reducible exact leaf_none
    | with_reducible refine leaf_some ?_
    | with_reducible refine leaf_only ?_
    | with_reducible assumption
    | with_reducible refine ite_only ?_ ?_
    | with_reducible refine allocTiles_only_eq ?_ (subset_sub hP (by decide)) (by assumption)
    | with_reducible refine allocTiles_holds ?_ (subset_sub hP (by decide))
    | with_reducible refine modReq_only ?_ (subset_sub hP (by decide))
    | with_reducible refine tierWrite_only ?_ (subset_sub hP (by decide))
    | with_reducible refine modServe_only ?_ (subset_sub hP (by decide))
    | (extract_lets +onlyGivenNames -underBinder x; refine cut_only (ps := pl) (s := sb) (a := x) ?_ ?_; unfold x; rotate_left; clear_value x; intro hx)
    | (extract_lets +onlyGivenNames -underBinder x; (try unfold x); clear x)
theorem installTail_only_eq {s : State} {h : Nat} {l i tokens : Nat} {bytes : List Byte} {ra : State} (hO : Within pl sb s) (hP : [.mem, .serve] ⊆ pl) (hE : installTail s h l i tokens bytes = some ra) : Within pl sb ra := by
  have k : Holds (InSome (Within pl sb)) (installTail s h l i tokens bytes) := installTail_holds (s := s) (h := h) (l := l) (i := i) (tokens := tokens) (bytes := bytes) hO hP
  rw [hE] at k; exact k.of

theorem execMsgInstall_holds {dev : Nat} {m : StateMsg} {s : State} (hO : Within pl sb s) (hP : [.out, .mem, .serve, .ctl] ⊆ pl) : Holds (InNext pl sb) (execMsgInstall dev m s) := by
  unfold execMsgInstall
  repeat' first
    | with_reducible refine bind_holds (ps := pl) (s := sb) ?_ fun _ _ => ?_
    | with_reducible refine bindAny_holds fun _ => ?_
    | with_reducible refine foldl_holds ?_ fun _ _ _ => ?_
    | with_reducible refine map_holds fun _ _ => ?_
    | with_reducible refine ite_holds ?_ ?_
    | with_reducible exact leaf_none
    | with_reducible refine leaf_some ?_
    | with_reducible refine leaf_only ?_
    | with_reducible refine leaf_next ?_
    | with_reducible assumption
    | with_reducible refine ite_only ?_ ?_
    | with_reducible refine foldl_only ?_ fun _ _ _ => ?_
    | with_reducible refine getD_only ?_ ?_
    | with_reducible refine ackMsg_only ?_ (subset_sub hP (by decide))
    | with_reducible refine cacheRsr_only ?_ (subset_sub hP (by decide))
    | with_reducible refine endReception_only ?_ (subset_sub hP (by decide))
    | with_reducible refine freeTiles_only ?_ (subset_sub hP (by decide))
    | with_reducible refine goState_only ?_ (subset_sub hP (by decide))
    | with_reducible refine installTail_only_eq ?_ (subset_sub hP (by decide)) (by assumption)
    | with_reducible refine installTail_holds ?_ (subset_sub hP (by decide))
    | with_reducible refine onMsg_only ?_ (fun _ _ => ?_) (subset_sub hP (by decide))
    | with_reducible refine promotePages_only ?_ (subset_sub hP (by decide))
    | with_reducible refine restPage_only ?_ (subset_sub hP (by decide))
    | with_reducible refine startEviction_only ?_ (subset_sub hP (by decide))
    | with_reducible refine startSeals_only ?_ (subset_sub hP (by decide))
    | with_reducible refine takeStructures_only_eq ?_ (subset_sub hP (by decide)) (by assumption)
    | with_reducible refine tierWrite_only ?_ (subset_sub hP (by decide))
    | with_reducible refine modServe_only ?_ (subset_sub hP (by decide))
    | with_reducible refine suitPage_only ?_ (subset_sub hP (by decide))
    | with_reducible refine someOf_only (by with_reducible assumption) ?_
    | (extract_lets +onlyGivenNames -underBinder x; refine cut_only (ps := pl) (s := sb) (a := x) ?_ ?_; unfold x; rotate_left; clear_value x; intro hx)
    | (extract_lets +onlyGivenNames -underBinder x; (try unfold x); clear x)
    | split
theorem execMsgInstall_only {dev : Nat} {m : StateMsg} {s : State} {t : State} (hO : Within pl sb s) (hP : [.out, .mem, .serve, .ctl] ⊆ pl) (hE : execMsgInstall dev m s = .next t) : Within pl sb t := by
  have k : Holds (InNext pl sb) (execMsgInstall dev m s) := execMsgInstall_holds (dev := dev) (m := m) (s := s) hO hP
  rw [hE] at k; exact k.of

theorem commitMove_only {s : State} {id new : Nat} (hO : Within pl sb s) (hP : [.out, .freeCount, .regs, .cons, .work, .mem, .serve, .ctl, .tel] ⊆ pl) : Within pl sb (commitMove s id new) := by
  unfold commitMove
  repeat' first
    | with_reducible assumption
    | with_reducible refine ite_only ?_ ?_
    | with_reducible refine freeReq_only ?_ (subset_sub hP (by decide))
    | with_reducible refine modMove_only ?_ (subset_sub hP (by decide))
    | with_reducible refine moveRec_only ?_ (subset_sub hP (by decide))
    | with_reducible refine sendInstall_only ?_ (subset_sub hP (by decide))
    | with_reducible refine sendState_only ?_ (subset_sub hP (by decide))
    | with_reducible refine stopReqTasks_only ?_ (subset_sub hP (by decide))
    | with_reducible refine modServe_only ?_ (subset_sub hP (by decide))
    | (extract_lets +onlyGivenNames -underBinder x; refine cut_only (ps := pl) (s := sb) (a := x) ?_ ?_; unfold x; rotate_left; clear_value x; intro hx)
    | (extract_lets +onlyGivenNames -underBinder x; (try unfold x); clear x)
    | split

theorem releaseMoved_only {s : State} {c : CommitRec} (hO : Within pl sb s) (hP : [.out, .serve] ⊆ pl) : Within pl sb (releaseMoved s c) := by
  unfold releaseMoved
  repeat' first
    | with_reducible assumption
    | with_reducible refine ite_only ?_ ?_
    | with_reducible refine refAll_only ?_ (subset_sub hP (by decide))
    | with_reducible refine modServe_only ?_ (subset_sub hP (by decide))
    | (extract_lets +onlyGivenNames -underBinder x; refine cut_only (ps := pl) (s := sb) (a := x) ?_ ?_; unfold x; rotate_left; clear_value x; intro hx)
    | (extract_lets +onlyGivenNames -underBinder x; (try unfold x); clear x)

theorem execMsgMoveAck_holds {dev : Nat} {m : StateMsg} {s : State} (hO : Within pl sb s) (hP : [.out, .freeCount, .regs, .cons, .work, .mem, .serve, .ctl, .tel] ⊆ pl) : Holds (InNext pl sb) (execMsgMoveAck dev m s) := by
  unfold execMsgMoveAck
  repeat' first
    | with_reducible refine leaf_next ?_
    | with_reducible assumption
    | with_reducible refine ite_only ?_ ?_
    | with_reducible refine foldl_only ?_ fun _ _ _ => ?_
    | with_reducible refine carryPage_only ?_ (subset_sub hP (by decide))
    | with_reducible refine commitMove_only ?_ (subset_sub hP (by decide))
    | with_reducible refine modMove_only ?_ (subset_sub hP (by decide))
    | with_reducible refine modReq_only ?_ (subset_sub hP (by decide))
    | with_reducible refine moveFail_only ?_ (subset_sub hP (by decide))
    | with_reducible refine onMsg_only ?_ (fun _ _ => ?_) (subset_sub hP (by decide))
    | with_reducible refine progressMove_only ?_ (subset_sub hP (by decide))
    | with_reducible refine releaseMoved_only ?_ (subset_sub hP (by decide))
    | with_reducible refine sendState_only ?_ (subset_sub hP (by decide))
    | with_reducible refine tabRef_only ?_ (subset_sub hP (by decide))
    | with_reducible refine modServe_only ?_ (subset_sub hP (by decide))
    | (extract_lets +onlyGivenNames -underBinder x; refine cut_only (ps := pl) (s := sb) (a := x) ?_ ?_; unfold x; rotate_left; clear_value x; intro hx)
    | (extract_lets +onlyGivenNames -underBinder x; (try unfold x); clear x)
    | split
theorem execMsgMoveAck_only {dev : Nat} {m : StateMsg} {s : State} {t : State} (hO : Within pl sb s) (hP : [.out, .freeCount, .regs, .cons, .work, .mem, .serve, .ctl, .tel] ⊆ pl) (hE : execMsgMoveAck dev m s = .next t) : Within pl sb t := by
  have k : Holds (InNext pl sb) (execMsgMoveAck dev m s) := execMsgMoveAck_holds (dev := dev) (m := m) (s := s) hO hP
  rw [hE] at k; exact k.of

theorem execMsgCommit_holds {dev : Nat} {m : StateMsg} {s : State} (hO : Within pl sb s) (hP : [.out, .regs, .work, .mem, .serve, .ctl, .tel] ⊆ pl) : Holds (InNext pl sb) (execMsgCommit dev m s) := by
  unfold execMsgCommit
  repeat' first
    | with_reducible refine leaf_next ?_
    | with_reducible assumption
    | with_reducible refine ite_only ?_ ?_
    | with_reducible refine foldl_only ?_ fun _ _ _ => ?_
    | with_reducible refine goState_only ?_ (subset_sub hP (by decide))
    | with_reducible refine modReq_only ?_ (subset_sub hP (by decide))
    | with_reducible refine moveRec_only ?_ (subset_sub hP (by decide))
    | with_reducible refine onMsg_only ?_ (fun _ _ => ?_) (subset_sub hP (by decide))
    | with_reducible refine promotePages_only ?_ (subset_sub hP (by decide))
    | with_reducible refine promotionEnds_only ?_ (subset_sub hP (by decide))
    | with_reducible refine refAll_only ?_ (subset_sub hP (by decide))
    | (extract_lets +onlyGivenNames -underBinder x; refine cut_only (ps := pl) (s := sb) (a := x) ?_ ?_; unfold x; rotate_left; clear_value x; intro hx)
    | (extract_lets +onlyGivenNames -underBinder x; (try unfold x); clear x)
    | split
theorem execMsgCommit_only {dev : Nat} {m : StateMsg} {s : State} {t : State} (hO : Within pl sb s) (hP : [.out, .regs, .work, .mem, .serve, .ctl, .tel] ⊆ pl) (hE : execMsgCommit dev m s = .next t) : Within pl sb t := by
  have k : Holds (InNext pl sb) (execMsgCommit dev m s) := execMsgCommit_holds (dev := dev) (m := m) (s := s) hO hP
  rw [hE] at k; exact k.of

theorem execMsgAbort_holds {dev : Nat} {m : StateMsg} {s : State} (hO : Within pl sb s) (hP : [.mem, .serve, .ctl] ⊆ pl) : Holds (InNext pl sb) (execMsgAbort dev m s) := by
  unfold execMsgAbort
  repeat' first
    | with_reducible refine leaf_next ?_
    | with_reducible assumption
    | with_reducible refine endReception_only ?_ (subset_sub hP (by decide))
    | with_reducible refine freeReq_only ?_ (subset_sub hP (by decide))
    | with_reducible refine onMsg_only ?_ (fun _ _ => ?_) (subset_sub hP (by decide))
    | (extract_lets +onlyGivenNames -underBinder x; refine cut_only (ps := pl) (s := sb) (a := x) ?_ ?_; unfold x; rotate_left; clear_value x; intro hx)
    | (extract_lets +onlyGivenNames -underBinder x; (try unfold x); clear x)
    | split
theorem execMsgAbort_only {dev : Nat} {m : StateMsg} {s : State} {t : State} (hO : Within pl sb s) (hP : [.mem, .serve, .ctl] ⊆ pl) (hE : execMsgAbort dev m s = .next t) : Within pl sb t := by
  have k : Holds (InNext pl sb) (execMsgAbort dev m s) := execMsgAbort_holds (dev := dev) (m := m) (s := s) hO hP
  rw [hE] at k; exact k.of

theorem execMsgRef_holds {dev : Nat} {m : StateMsg} {s : State} (hO : Within pl sb s) (hP : [.out, .serve, .ctl] ⊆ pl) : Holds (InNext pl sb) (execMsgRef dev m s) := by
  unfold execMsgRef
  repeat' first
    | with_reducible refine leaf_next ?_
    | with_reducible assumption
    | with_reducible refine ackMsg_only ?_ (subset_sub hP (by decide))
    | with_reducible refine modReq_only ?_ (subset_sub hP (by decide))
    | with_reducible refine onMsg_only ?_ (fun _ _ => ?_) (subset_sub hP (by decide))
    | with_reducible refine modServe_only ?_ (subset_sub hP (by decide))
    | (extract_lets +onlyGivenNames -underBinder x; refine cut_only (ps := pl) (s := sb) (a := x) ?_ ?_; unfold x; rotate_left; clear_value x; intro hx)
    | (extract_lets +onlyGivenNames -underBinder x; (try unfold x); clear x)
    | split
theorem execMsgRef_only {dev : Nat} {m : StateMsg} {s : State} {t : State} (hO : Within pl sb s) (hP : [.out, .serve, .ctl] ⊆ pl) (hE : execMsgRef dev m s = .next t) : Within pl sb t := by
  have k : Holds (InNext pl sb) (execMsgRef dev m s) := execMsgRef_holds (dev := dev) (m := m) (s := s) hO hP
  rw [hE] at k; exact k.of

theorem execMsgRelease_holds {dev : Nat} {m : StateMsg} {s : State} (hO : Within pl sb s) (hP : [.out, .freeCount, .regs, .cons, .work, .mem, .serve, .ctl, .mgt, .alm, .tel] ⊆ pl) : Holds (InNext pl sb) (execMsgRelease dev m s) := by
  unfold execMsgRelease
  repeat' first
    | with_reducible refine leaf_next ?_
    | with_reducible assumption
    | with_reducible refine ite_only ?_ ?_
    | with_reducible refine ackMsg_only ?_ (subset_sub hP (by decide))
    | with_reducible refine dropNow_only ?_ (subset_sub hP (by decide))
    | with_reducible refine endReq_only ?_ (subset_sub hP (by decide))
    | with_reducible refine onMsg_only ?_ (fun _ _ => ?_) (subset_sub hP (by decide))
    | with_reducible refine raiseBoth_only ?_ (subset_sub hP (by decide))
    | with_reducible refine stopReqTasks_only ?_ (subset_sub hP (by decide))
    | with_reducible refine takeRefs_only ?_ (subset_sub hP (by decide))
    | (extract_lets +onlyGivenNames -underBinder x; refine cut_only (ps := pl) (s := sb) (a := x) ?_ ?_; unfold x; rotate_left; clear_value x; intro hx)
    | (extract_lets +onlyGivenNames -underBinder x; (try unfold x); clear x)
    | split
theorem execMsgRelease_only {dev : Nat} {m : StateMsg} {s : State} {t : State} (hO : Within pl sb s) (hP : [.out, .freeCount, .regs, .cons, .work, .mem, .serve, .ctl, .mgt, .alm, .tel] ⊆ pl) (hE : execMsgRelease dev m s = .next t) : Within pl sb t := by
  have k : Holds (InNext pl sb) (execMsgRelease dev m s) := execMsgRelease_holds (dev := dev) (m := m) (s := s) hO hP
  rw [hE] at k; exact k.of

theorem execMsgFetch_holds {dev : Nat} {m : StateMsg} {s : State} (hO : Within pl sb s) (hP : [.out, .regs, .work, .mem, .serve, .ctl, .tel] ⊆ pl) : Holds (InNext pl sb) (execMsgFetch dev m s) := by
  unfold execMsgFetch
  repeat' first
    | with_reducible refine leaf_next ?_
    | with_reducible assumption
    | with_reducible refine foldl_only ?_ fun _ _ _ => ?_
    | with_reducible refine addMove_only ?_ (subset_sub hP (by decide))
    | with_reducible refine carryPage_only ?_ (subset_sub hP (by decide))
    | with_reducible refine onMsg_only ?_ (fun _ _ => ?_) (subset_sub hP (by decide))
    | with_reducible refine progressMove_only ?_ (subset_sub hP (by decide))
    | (extract_lets +onlyGivenNames -underBinder x; refine cut_only (ps := pl) (s := sb) (a := x) ?_ ?_; unfold x; rotate_left; clear_value x; intro hx)
    | (extract_lets +onlyGivenNames -underBinder x; (try unfold x); clear x)
    | split
theorem execMsgFetch_only {dev : Nat} {m : StateMsg} {s : State} {t : State} (hO : Within pl sb s) (hP : [.out, .regs, .work, .mem, .serve, .ctl, .tel] ⊆ pl) (hE : execMsgFetch dev m s = .next t) : Within pl sb t := by
  have k : Holds (InNext pl sb) (execMsgFetch dev m s) := execMsgFetch_holds (dev := dev) (m := m) (s := s) hO hP
  rw [hE] at k; exact k.of

theorem execMsgQuery_holds {dev : Nat} {m : StateMsg} {s : State} (hO : Within pl sb s) (hP : [.out, .serve, .ctl] ⊆ pl) : Holds (InNext pl sb) (execMsgQuery dev m s) := by
  unfold execMsgQuery
  repeat' first
    | with_reducible refine leaf_next ?_
    | with_reducible assumption
    | with_reducible refine ite_only ?_ ?_
    | with_reducible refine onMsg_only ?_ (fun _ _ => ?_) (subset_sub hP (by decide))
    | with_reducible refine sendState_only ?_ (subset_sub hP (by decide))
    | with_reducible refine modServe_only ?_ (subset_sub hP (by decide))
    | (extract_lets +onlyGivenNames -underBinder x; refine cut_only (ps := pl) (s := sb) (a := x) ?_ ?_; unfold x; rotate_left; clear_value x; intro hx)
    | (extract_lets +onlyGivenNames -underBinder x; (try unfold x); clear x)
    | split
theorem execMsgQuery_only {dev : Nat} {m : StateMsg} {s : State} {t : State} (hO : Within pl sb s) (hP : [.out, .serve, .ctl] ⊆ pl) (hE : execMsgQuery dev m s = .next t) : Within pl sb t := by
  have k : Holds (InNext pl sb) (execMsgQuery dev m s) := execMsgQuery_holds (dev := dev) (m := m) (s := s) hO hP
  rw [hE] at k; exact k.of

theorem groupLost_only {s : State} {h : Nat} {q : Query} {st : Nat} (hO : Within pl sb s) (hP : [.out, .regs, .serve, .ctl, .mgt, .alm, .tel] ⊆ pl) : Within pl sb (groupLost s h q st) := by
  unfold groupLost
  repeat' first
    | with_reducible assumption
    | with_reducible refine modReq_only ?_ (subset_sub hP (by decide))
    | with_reducible refine raiseBoth_only ?_ (subset_sub hP (by decide))
    | with_reducible refine ringWrite_only ?_ (subset_sub hP (by decide))
    | with_reducible refine modServe_only ?_ (subset_sub hP (by decide))
    | (extract_lets +onlyGivenNames -underBinder x; refine cut_only (ps := pl) (s := sb) (a := x) ?_ ?_; unfold x; rotate_left; clear_value x; intro hx)
    | (extract_lets +onlyGivenNames -underBinder x; (try unfold x); clear x)
    | split

theorem execMsgPartial_holds {dev : Nat} {m : StateMsg} {s : State} (hO : Within pl sb s) (hP : [.out, .regs, .mem, .serve, .ctl, .mgt, .alm, .tel] ⊆ pl) : Holds (InNext pl sb) (execMsgPartial dev m s) := by
  unfold execMsgPartial
  repeat' first
    | with_reducible refine bind_holds (ps := pl) (s := sb) ?_ fun _ _ => ?_
    | with_reducible refine bindAny_holds fun _ => ?_
    | with_reducible refine ite_holds ?_ ?_
    | with_reducible exact leaf_none
    | with_reducible refine leaf_some ?_
    | with_reducible refine leaf_only ?_
    | with_reducible refine leaf_next ?_
    | with_reducible assumption
    | with_reducible refine ite_only ?_ ?_
    | with_reducible refine groupLost_only ?_ (subset_sub hP (by decide))
    | with_reducible refine onMsg_only ?_ (fun _ _ => ?_) (subset_sub hP (by decide))
    | with_reducible refine tierWrite_only ?_ (subset_sub hP (by decide))
    | with_reducible refine modServe_only ?_ (subset_sub hP (by decide))
    | with_reducible refine someOf_only (by with_reducible assumption) ?_
    | (extract_lets +onlyGivenNames -underBinder x; refine cut_only (ps := pl) (s := sb) (a := x) ?_ ?_; unfold x; rotate_left; clear_value x; intro hx)
    | (extract_lets +onlyGivenNames -underBinder x; (try unfold x); clear x)
    | split
theorem execMsgPartial_only {dev : Nat} {m : StateMsg} {s : State} {t : State} (hO : Within pl sb s) (hP : [.out, .regs, .mem, .serve, .ctl, .mgt, .alm, .tel] ⊆ pl) (hE : execMsgPartial dev m s = .next t) : Within pl sb t := by
  have k : Holds (InNext pl sb) (execMsgPartial dev m s) := execMsgPartial_holds (dev := dev) (m := m) (s := s) hO hP
  rw [hE] at k; exact k.of

theorem execTierTransferDone_holds {xfer : Nat} {s : State} (hO : Within pl sb s) (hP : [.out, .freeCount, .regs, .cons, .work, .mem, .serve, .ctl, .mgt, .alm, .tel] ⊆ pl) : Holds (InNext pl sb) (execTierTransferDone xfer s) := by
  unfold execTierTransferDone
  repeat' first
    | with_reducible refine leaf_next ?_
    | with_reducible assumption
    | with_reducible refine ite_only ?_ ?_
    | with_reducible refine countCopies_only ?_ (subset_sub hP (by decide))
    | with_reducible refine countTiles_only ?_ (subset_sub hP (by decide))
    | with_reducible refine dropXfer_only ?_ (subset_sub hP (by decide))
    | with_reducible refine evictDone_only ?_ (subset_sub hP (by decide))
    | with_reducible refine promoteDone_only ?_ (subset_sub hP (by decide))
    | with_reducible refine receiveDone_only ?_ (subset_sub hP (by decide))
    | with_reducible refine sendPage_only ?_ (subset_sub hP (by decide))
    | with_reducible refine sendState_only ?_ (subset_sub hP (by decide))
    | with_reducible refine takeVictims_only ?_ (subset_sub hP (by decide))
    | with_reducible refine modServe_only ?_ (subset_sub hP (by decide))
    | (extract_lets +onlyGivenNames -underBinder x; refine cut_only (ps := pl) (s := sb) (a := x) ?_ ?_; unfold x; rotate_left; clear_value x; intro hx)
    | (extract_lets +onlyGivenNames -underBinder x; (try unfold x); clear x)
    | split
theorem execTierTransferDone_only {xfer : Nat} {s : State} {t : State} (hO : Within pl sb s) (hP : [.out, .freeCount, .regs, .cons, .work, .mem, .serve, .ctl, .mgt, .alm, .tel] ⊆ pl) (hE : execTierTransferDone xfer s = .next t) : Within pl sb t := by
  have k : Holds (InNext pl sb) (execTierTransferDone xfer s) := execTierTransferDone_holds (xfer := xfer) (s := s) hO hP
  rw [hE] at k; exact k.of

theorem execInstallResend_holds {handle : Nat} {s : State} (hO : Within pl sb s) (hP : [.out, .regs, .mem, .serve, .ctl, .tel] ⊆ pl) : Holds (InNext pl sb) (execInstallResend handle s) := by
  unfold execInstallResend
  repeat' first
    | with_reducible refine leaf_next ?_
    | with_reducible assumption
    | with_reducible refine ite_only ?_ ?_
    | with_reducible refine moveFail_only ?_ (subset_sub hP (by decide))
    | with_reducible refine sendInstall_only ?_ (subset_sub hP (by decide))
    | split
theorem execInstallResend_only {handle : Nat} {s : State} {t : State} (hO : Within pl sb s) (hP : [.out, .regs, .mem, .serve, .ctl, .tel] ⊆ pl) (hE : execInstallResend handle s = .next t) : Within pl sb t := by
  have k : Holds (InNext pl sb) (execInstallResend handle s) := execInstallResend_holds (handle := handle) (s := s) hO hP
  rw [hE] at k; exact k.of

theorem execInstallDoubt_holds {handle : Nat} {s : State} (hO : Within pl sb s) (hP : [.out, .regs, .serve, .ctl, .mgt, .alm, .tel] ⊆ pl) : Holds (InNext pl sb) (execInstallDoubt handle s) := by
  unfold execInstallDoubt
  repeat' first
    | with_reducible refine leaf_next ?_
    | with_reducible assumption
    | with_reducible refine ite_only ?_ ?_
    | with_reducible refine modReq_only ?_ (subset_sub hP (by decide))
    | with_reducible refine raiseBoth_only ?_ (subset_sub hP (by decide))
    | split
theorem execInstallDoubt_only {handle : Nat} {s : State} {t : State} (hO : Within pl sb s) (hP : [.out, .regs, .serve, .ctl, .mgt, .alm, .tel] ⊆ pl) (hE : execInstallDoubt handle s = .next t) : Within pl sb t := by
  have k : Holds (InNext pl sb) (execInstallDoubt handle s) := execInstallDoubt_holds (handle := handle) (s := s) hO hP
  rw [hE] at k; exact k.of

theorem execHeldAckRepeat_holds {handle : Nat} {s : State} (hO : Within pl sb s) (hP : [.out, .serve] ⊆ pl) : Holds (InNext pl sb) (execHeldAckRepeat handle s) := by
  unfold execHeldAckRepeat
  repeat' first
    | with_reducible refine leaf_next ?_
    | with_reducible assumption
    | with_reducible refine modReq_only ?_ (subset_sub hP (by decide))
    | with_reducible refine sendState_only ?_ (subset_sub hP (by decide))
    | split
theorem execHeldAckRepeat_only {handle : Nat} {s : State} {t : State} (hO : Within pl sb s) (hP : [.out, .serve] ⊆ pl) (hE : execHeldAckRepeat handle s = .next t) : Within pl sb t := by
  have k : Holds (InNext pl sb) (execHeldAckRepeat handle s) := execHeldAckRepeat_holds (handle := handle) (s := s) hO hP
  rw [hE] at k; exact k.of

theorem execCommitRecordExpiry_holds {dev handle : Nat} {s : State} (hO : Within pl sb s) (hP : [.serve] ⊆ pl) : Holds (InNext pl sb) (execCommitRecordExpiry dev handle s) := by
  unfold execCommitRecordExpiry
  repeat' first
    | with_reducible refine leaf_next ?_
    | with_reducible assumption
    | with_reducible refine ite_only ?_ ?_
    | with_reducible refine foldl_only ?_ fun _ _ _ => ?_
    | with_reducible refine modServe_only ?_ (subset_sub hP (by decide))
    | split
theorem execCommitRecordExpiry_only {dev handle : Nat} {s : State} {t : State} (hO : Within pl sb s) (hP : [.serve] ⊆ pl) (hE : execCommitRecordExpiry dev handle s = .next t) : Within pl sb t := by
  have k : Holds (InNext pl sb) (execCommitRecordExpiry dev handle s) := execCommitRecordExpiry_holds (dev := dev) (handle := handle) (s := s) hO hP
  rw [hE] at k; exact k.of

theorem execRefResend_holds {handle dev target : Nat} {s : State} (hO : Within pl sb s) (hP : [.out, .serve] ⊆ pl) : Holds (InNext pl sb) (execRefResend handle dev target s) := by
  unfold execRefResend
  repeat' first
    | with_reducible refine leaf_next ?_
    | with_reducible assumption
    | with_reducible refine ite_only ?_ ?_
    | with_reducible refine sendState_only ?_ (subset_sub hP (by decide))
    | with_reducible refine modServe_only ?_ (subset_sub hP (by decide))
    | split
theorem execRefResend_only {handle dev target : Nat} {s : State} {t : State} (hO : Within pl sb s) (hP : [.out, .serve] ⊆ pl) (hE : execRefResend handle dev target s = .next t) : Within pl sb t := by
  have k : Holds (InNext pl sb) (execRefResend handle dev target s) := execRefResend_holds (handle := handle) (dev := dev) (target := target) (s := s) hO hP
  rw [hE] at k; exact k.of

theorem execReceptionExpiry_holds {ptn dev handle epoch : Nat} {s : State} (hO : Within pl sb s) (hP : [.out, .regs, .mem, .serve, .ctl, .mgt, .alm, .tel] ⊆ pl) : Holds (InNext pl sb) (execReceptionExpiry ptn dev handle epoch s) := by
  unfold execReceptionExpiry
  repeat' first
    | with_reducible refine leaf_next ?_
    | with_reducible assumption
    | with_reducible refine endReception_only ?_ (subset_sub hP (by decide))
    | with_reducible refine raiseBoth_only ?_ (subset_sub hP (by decide))
    | split
theorem execReceptionExpiry_only {ptn dev handle epoch : Nat} {s : State} {t : State} (hO : Within pl sb s) (hP : [.out, .regs, .mem, .serve, .ctl, .mgt, .alm, .tel] ⊆ pl) (hE : execReceptionExpiry ptn dev handle epoch s = .next t) : Within pl sb t := by
  have k : Holds (InNext pl sb) (execReceptionExpiry ptn dev handle epoch s) := execReceptionExpiry_holds (ptn := ptn) (dev := dev) (handle := handle) (epoch := epoch) (s := s) hO hP
  rw [hE] at k; exact k.of

theorem execPagesBusyRetry_holds {handle : Nat} {s : State} (hO : Within pl sb s) (hP : [.serve] ⊆ pl) : Holds (InNext pl sb) (execPagesBusyRetry handle s) := by
  unfold execPagesBusyRetry
  repeat' first
    | with_reducible refine leaf_next ?_
    | with_reducible assumption
    | with_reducible refine foldl_only ?_ fun _ _ _ => ?_
    | with_reducible refine addXfer_only ?_ (subset_sub hP (by decide))
    | with_reducible refine modMove_only ?_ (subset_sub hP (by decide))
    | (extract_lets +onlyGivenNames -underBinder x; refine cut_only (ps := pl) (s := sb) (a := x) ?_ ?_; unfold x; rotate_left; clear_value x; intro hx)
    | (extract_lets +onlyGivenNames -underBinder x; (try unfold x); clear x)
    | split
theorem execPagesBusyRetry_only {handle : Nat} {s : State} {t : State} (hO : Within pl sb s) (hP : [.serve] ⊆ pl) (hE : execPagesBusyRetry handle s = .next t) : Within pl sb t := by
  have k : Holds (InNext pl sb) (execPagesBusyRetry handle s) := execPagesBusyRetry_holds (handle := handle) (s := s) hO hP
  rw [hE] at k; exact k.of

theorem execQueryResend_holds {handle qid first log : Nat} {s : State} (hO : Within pl sb s) (hP : [.out, .regs, .serve, .ctl, .mgt, .alm, .tel] ⊆ pl) : Holds (InNext pl sb) (execQueryResend handle qid first log s) := by
  unfold execQueryResend
  repeat' first
    | with_reducible refine leaf_next ?_
    | with_reducible assumption
    | with_reducible refine ite_only ?_ ?_
    | with_reducible refine addXfer_only ?_ (subset_sub hP (by decide))
    | with_reducible refine groupLost_only ?_ (subset_sub hP (by decide))
    | with_reducible refine modServe_only ?_ (subset_sub hP (by decide))
    | (extract_lets +onlyGivenNames -underBinder x; refine cut_only (ps := pl) (s := sb) (a := x) ?_ ?_; unfold x; rotate_left; clear_value x; intro hx)
    | (extract_lets +onlyGivenNames -underBinder x; (try unfold x); clear x)
    | split
theorem execQueryResend_only {handle qid first log : Nat} {s : State} {t : State} (hO : Within pl sb s) (hP : [.out, .regs, .serve, .ctl, .mgt, .alm, .tel] ⊆ pl) (hE : execQueryResend handle qid first log s = .next t) : Within pl sb t := by
  have k : Holds (InNext pl sb) (execQueryResend handle qid first log s) := execQueryResend_holds (handle := handle) (qid := qid) (first := first) (log := log) (s := s) hO hP
  rw [hE] at k; exact k.of

theorem execFarChannelLost_holds {chan : Nat} {s : State} (hO : Within pl sb s) (hP : [.out, .regs, .mem, .ctl, .mgt, .alm, .tel] ⊆ pl) : Holds (InNext pl sb) (execFarChannelLost chan s) := by
  unfold execFarChannelLost
  repeat' first
    | with_reducible refine leaf_next ?_
    | with_reducible assumption
    | with_reducible refine ite_only ?_ ?_
    | with_reducible refine raisePf_only ?_ (subset_sub hP (by decide))
    | with_reducible refine modMem_only ?_ (subset_sub hP (by decide))
theorem execFarChannelLost_only {chan : Nat} {s : State} {t : State} (hO : Within pl sb s) (hP : [.out, .regs, .mem, .ctl, .mgt, .alm, .tel] ⊆ pl) (hE : execFarChannelLost chan s = .next t) : Within pl sb t := by
  have k : Holds (InNext pl sb) (execFarChannelLost chan s) := execFarChannelLost_holds (chan := chan) (s := s) hO hP
  rw [hE] at k; exact k.of

theorem execFarScanDone_holds {chan : Nat} {s : State} (hO : Within pl sb s) (hP : [.mem, .serve] ⊆ pl) : Holds (InNext pl sb) (execFarScanDone chan s) := by
  unfold execFarScanDone
  repeat' first
    | with_reducible refine leaf_next ?_
    | with_reducible assumption
    | with_reducible refine ite_only ?_ ?_
    | with_reducible refine foldl_only ?_ fun _ _ _ => ?_
    | with_reducible refine freeTiles_only ?_ (subset_sub hP (by decide))
    | with_reducible refine modPage_only ?_ (subset_sub hP (by decide))
    | with_reducible refine pageTabs_only ?_ (subset_sub hP (by decide))
theorem execFarScanDone_only {chan : Nat} {s : State} {t : State} (hO : Within pl sb s) (hP : [.mem, .serve] ⊆ pl) (hE : execFarScanDone chan s = .next t) : Within pl sb t := by
  have k : Holds (InNext pl sb) (execFarScanDone chan s) := execFarScanDone_holds (chan := chan) (s := s) hO hP
  rw [hE] at k; exact k.of

theorem execStackLost_holds {stack : Nat} {s : State} (hO : Within pl sb s) (hP : [.out, .freeCount, .regs, .cons, .work, .mem, .serve, .ctl, .mgt, .alm, .tel] ⊆ pl) : Holds (InNext pl sb) (execStackLost stack s) := by
  unfold execStackLost
  repeat' first
    | with_reducible refine leaf_next ?_
    | with_reducible assumption
    | with_reducible refine ite_only ?_ ?_
    | with_reducible refine foldl_only ?_ fun _ _ _ => ?_
    | with_reducible refine allocTiles_only_eq ?_ (subset_sub hP (by decide)) (by assumption)
    | with_reducible refine allocTiles_holds ?_ (subset_sub hP (by decide))
    | with_reducible refine failReq_only ?_ (subset_sub hP (by decide))
    | with_reducible refine freeTiles_only ?_ (subset_sub hP (by decide))
    | with_reducible refine modPage_only ?_ (subset_sub hP (by decide))
    | with_reducible refine modReq_only ?_ (subset_sub hP (by decide))
    | with_reducible refine promoteQueued_only ?_ (subset_sub hP (by decide))
    | with_reducible refine raisePf_only ?_ (subset_sub hP (by decide))
    | with_reducible refine rollReq_only ?_ (subset_sub hP (by decide))
    | with_reducible refine modMem_only ?_ (subset_sub hP (by decide))
    | (extract_lets +onlyGivenNames -underBinder x; refine cut_only (ps := pl) (s := sb) (a := x) ?_ ?_; unfold x; rotate_left; clear_value x; intro hx)
    | (extract_lets +onlyGivenNames -underBinder x; (try unfold x); clear x)
    | split
theorem execStackLost_only {stack : Nat} {s : State} {t : State} (hO : Within pl sb s) (hP : [.out, .freeCount, .regs, .cons, .work, .mem, .serve, .ctl, .mgt, .alm, .tel] ⊆ pl) (hE : execStackLost stack s = .next t) : Within pl sb t := by
  have k : Holds (InNext pl sb) (execStackLost stack s) := execStackLost_holds (stack := stack) (s := s) hO hP
  rw [hE] at k; exact k.of

end Sys2Proof.Machine
end

