-- ==== Sys2Proof/Laws/FrameTableEngine.lean ====
section
/-! SUPPORT. What each function of Machine/TableEngine.lean can do to the state as a whole: the parts it can change; the queue, the population and the
canonical forms it keeps. `f_only` speaks of the state that `f` answers, `f_holds` of a state inside its answer, `f_only_eq` of one taken out. -/

-- One declaration at a time: thousands of proofs in flight at once ask for more threads than fit in memory.
set_option Elab.async false

set_option linter.unusedTactic false
set_option linter.unreachableTactic false
set_option linter.unusedVariables false
set_option linter.unusedSimpArgs false
namespace Sys2Proof.Machine
open Sys2Proof
variable {pl : List Part} {sb : State}

theorem tabAnswer_only {s : State} {v : View} {st : Nat} (hO : Within pl sb s) (hP : [.regs] ⊆ pl) : Within pl sb (tabAnswer s v st) := by
  unfold tabAnswer
  repeat' first
    | with_reducible assumption
    | with_reducible refine mbxDone_only ?_ (subset_sub hP (by decide))
    | with_reducible refine mbxPut_only ?_ (subset_sub hP (by decide))

theorem execTableRecordWrite_holds {v : View} {ptn : Nat} {s : State} (hO : Within pl sb s) (hP : [.regs, .work, .tabs] ⊆ pl) : Holds (InNext pl sb) (execTableRecordWrite v ptn s) := by
  unfold execTableRecordWrite
  repeat' first
    | with_reducible refine leaf_next ?_
    | with_reducible assumption
    | with_reducible refine ite_only ?_ ?_
    | with_reducible refine tabAnswer_only ?_ (subset_sub hP (by decide))
    | with_reducible refine modTabs_only ?_ (subset_sub hP (by decide))
    | with_reducible refine modWork_only ?_ (subset_sub hP (by decide))
    | (extract_lets +onlyGivenNames -underBinder x; refine cut_only (ps := pl) (s := sb) (a := x) ?_ ?_; unfold x; rotate_left; clear_value x; intro hx)
    | (extract_lets +onlyGivenNames -underBinder x; (try unfold x); clear x)
theorem execTableRecordWrite_only {v : View} {ptn : Nat} {s : State} {t : State} (hO : Within pl sb s) (hP : [.regs, .work, .tabs] ⊆ pl) (hE : execTableRecordWrite v ptn s = .next t) : Within pl sb t := by
  have k : Holds (InNext pl sb) (execTableRecordWrite v ptn s) := execTableRecordWrite_holds (v := v) (ptn := ptn) (s := s) hO hP
  rw [hE] at k; exact k.of

theorem warmRow_only {s : State} {p table row : Nat} (hO : Within pl sb s) (hP : [.tabs] ⊆ pl) : Within pl sb (warmRow s p table row) := by
  unfold warmRow
  repeat' first
    | with_reducible assumption
    | with_reducible refine ite_only ?_ ?_
    | with_reducible refine modTabs_only ?_ (subset_sub hP (by decide))
    | split

theorem readRow_holds {s : State} {r : TabRec} {shard row : Nat} {look : Bool} (hO : Within pl sb s) (hP : [.work, .tabs, .ctl, .tel] ⊆ pl) : Holds (InThd pl sb) (readRow s r shard row look) := by
  unfold readRow
  repeat' first
    | with_reducible refine bind_holds (ps := pl) (s := sb) ?_ fun _ _ => ?_
    | with_reducible refine bindAny_holds fun _ => ?_
    | with_reducible refine ite_holds ?_ ?_
    | with_reducible exact leaf_none
    | with_reducible refine leaf_some ?_
    | with_reducible refine leaf_thd ?_
    | with_reducible refine leaf_only ?_
    | with_reducible assumption
    | with_reducible refine ite_only ?_ ?_
    | with_reducible refine countTiles_only ?_ (subset_sub hP (by decide))
    | with_reducible refine odCount_only ?_ (subset_sub hP (by decide))
    | with_reducible refine progCount_only ?_ (subset_sub hP (by decide))
    | with_reducible refine sramWrite_only ?_ (subset_sub hP (by decide))
    | with_reducible refine warmRow_only ?_ (subset_sub hP (by decide))
    | with_reducible refine modWork_only ?_ (subset_sub hP (by decide))
    | with_reducible refine someOf_only (by with_reducible assumption) ?_
    | (extract_lets +onlyGivenNames -underBinder x; refine cut_only (ps := pl) (s := sb) (a := x) ?_ ?_; unfold x; rotate_left; clear_value x; intro hx)
    | (extract_lets +onlyGivenNames -underBinder x; (try unfold x); clear x)
    | split
theorem readRow_only_eq {s : State} {r : TabRec} {shard row : Nat} {look : Bool} {ra : Nat} {rb : List Byte} {rc : State} (hO : Within pl sb s) (hP : [.work, .tabs, .ctl, .tel] ⊆ pl) (hE : readRow s r shard row look = (ra, rb, rc)) : Within pl sb rc := by
  have k : Holds (InThd pl sb) (readRow s r shard row look) := readRow_holds (s := s) (r := r) (shard := shard) (row := row) (look := look) hO hP
  rw [hE] at k; exact k.of
theorem readRow_only {s : State} {r : TabRec} {shard row : Nat} {look : Bool} (hO : Within pl sb s) (hP : [.work, .tabs, .ctl, .tel] ⊆ pl) : Within pl sb (readRow s r shard row look).2.2 := (readRow_holds (s := s) (r := r) (shard := shard) (row := row) (look := look) hO hP).of

theorem writeRow_only {s : State} {r : TabRec} {shard row : Nat} {bs : List Byte} (hO : Within pl sb s) (hP : [.work, .mem, .tel] ⊆ pl) : Within pl sb (writeRow s r shard row bs) := by
  unfold writeRow
  repeat' first
    | with_reducible assumption
    | with_reducible refine countTiles_only ?_ (subset_sub hP (by decide))
    | with_reducible refine sramWrite_only ?_ (subset_sub hP (by decide))
    | with_reducible refine tierWrite_only ?_ (subset_sub hP (by decide))
    | (extract_lets +onlyGivenNames -underBinder x; refine cut_only (ps := pl) (s := sb) (a := x) ?_ ?_; unfold x; rotate_left; clear_value x; intro hx)
    | (extract_lets +onlyGivenNames -underBinder x; (try unfold x); clear x)
    | split

theorem poolBag_holds {s : State} {r : TabRec} {shard : Nat} {b : Bag} (hO : Within pl sb s) (hP : [.work, .tabs, .ctl, .tel] ⊆ pl) : Holds (InThd pl sb) (poolBag s r shard b) := by
  unfold poolBag
  repeat' first
    | with_reducible refine foldl_holds ?_ fun _ _ _ => ?_
    | with_reducible refine ite_holds ?_ ?_
    | with_reducible refine leaf_thd ?_
    | with_reducible assumption
    | with_reducible refine ite_only ?_ ?_
    | with_reducible refine foldl_only ?_ fun _ _ _ => ?_
    | with_reducible refine readRow_only ?_ (subset_sub hP (by decide))
    | with_reducible refine readRow_only_eq ?_ (subset_sub hP (by decide)) (by assumption)
    | with_reducible exact ofThd (by with_reducible assumption)
    | (extract_lets +onlyGivenNames -underBinder x; refine cut_only (ps := pl) (s := sb) (a := x) ?_ ?_; unfold x; rotate_left; clear_value x; intro hx)
    | (extract_lets +onlyGivenNames -underBinder x; (try unfold x); clear x)
    | split
theorem poolBag_only_eq {s : State} {r : TabRec} {shard : Nat} {b : Bag} {ra : Nat} {rb : List Nat} {rc : State} (hO : Within pl sb s) (hP : [.work, .tabs, .ctl, .tel] ⊆ pl) (hE : poolBag s r shard b = (ra, rb, rc)) : Within pl sb rc := by
  have k : Holds (InThd pl sb) (poolBag s r shard b) := poolBag_holds (s := s) (r := r) (shard := shard) (b := b) hO hP
  rw [hE] at k; exact k.of
theorem poolBag_only {s : State} {r : TabRec} {shard : Nat} {b : Bag} (hO : Within pl sb s) (hP : [.work, .tabs, .ctl, .tel] ⊆ pl) : Within pl sb (poolBag s r shard b).2.2 := (poolBag_holds (s := s) (r := r) (shard := shard) (b := b) hO hP).of

theorem poolBags_holds {s : State} {p table shard : Nat} {bags : List Bag} (hO : Within pl sb s) (hP : [.work, .tabs, .ctl, .tel] ⊆ pl) : Holds (InThd pl sb) (poolBags s p table shard bags) := by
  unfold poolBags
  repeat' first
    | with_reducible refine ite_holds ?_ ?_
    | with_reducible refine leaf_thd ?_
    | with_reducible assumption
    | with_reducible refine ite_only ?_ ?_
    | with_reducible refine foldl_only ?_ fun _ _ _ => ?_
    | with_reducible refine foldlThd_only ?_ fun _ _ _ => ?_
    | with_reducible refine poolBag_only_eq ?_ (subset_sub hP (by decide)) (by assumption)
    | with_reducible refine poolBag_only ?_ (subset_sub hP (by decide))
    | (extract_lets +onlyGivenNames -underBinder x; refine cut_only (ps := pl) (s := sb) (a := x) ?_ ?_; unfold x; rotate_left; clear_value x; intro hx)
    | (extract_lets +onlyGivenNames -underBinder x; (try unfold x); clear x)
    | split
theorem poolBags_only_eq {s : State} {p table shard : Nat} {bags : List Bag} {ra : List Byte} {rb : Nat} {rc : State} (hO : Within pl sb s) (hP : [.work, .tabs, .ctl, .tel] ⊆ pl) (hE : poolBags s p table shard bags = (ra, rb, rc)) : Within pl sb rc := by
  have k : Holds (InThd pl sb) (poolBags s p table shard bags) := poolBags_holds (s := s) (p := p) (table := table) (shard := shard) (bags := bags) hO hP
  rw [hE] at k; exact k.of
theorem poolBags_only {s : State} {p table shard : Nat} {bags : List Bag} (hO : Within pl sb s) (hP : [.work, .tabs, .ctl, .tel] ⊆ pl) : Within pl sb (poolBags s p table shard bags).2.2 := (poolBags_holds (s := s) (p := p) (table := table) (shard := shard) (bags := bags) hO hP).of

theorem answerLookup_only {s : State} {dev : Nat} {m : StateMsg} (hO : Within pl sb s) (hP : [.out, .regs, .work, .tabs, .ctl, .tel] ⊆ pl) : Within pl sb (answerLookup s dev m) := by
  unfold answerLookup
  repeat' first
    | with_reducible assumption
    | with_reducible refine ite_only ?_ ?_
    | with_reducible refine poolBags_only_eq ?_ (subset_sub hP (by decide)) (by assumption)
    | with_reducible refine poolBags_only ?_ (subset_sub hP (by decide))
    | with_reducible refine sendState_only ?_ (subset_sub hP (by decide))
    | with_reducible refine taskRec_only ?_ (subset_sub hP (by decide))
    | (extract_lets +onlyGivenNames -underBinder x; refine cut_only (ps := pl) (s := sb) (a := x) ?_ ?_; unfold x; rotate_left; clear_value x; intro hx)
    | (extract_lets +onlyGivenNames -underBinder x; (try unfold x); clear x)
    | split

theorem useSlot_only {s : State} {sec ent usedA usedB : Nat} {full : Bool} (hO : Within pl sb s) (hP : [.eph] ⊆ pl) : Within pl sb (useSlot s sec ent usedA usedB full) := by
  unfold useSlot
  repeat' first
    | with_reducible assumption
    | with_reducible refine modEph_only ?_ (subset_sub hP (by decide))

theorem serveAsks_only {p capA capB : Nat} {l : List (Nat × StateMsg)} {x : State × Nat × Nat × Bool} (hO : Within pl sb x.1) (hP : [.out, .regs, .work, .tabs, .ctl, .tel] ⊆ pl) :
    Within pl sb (serveAsks p capA capB l x).1 := by
  induction l generalizing x with
  | nil => exact hO
  | cons y r ih =>
    obtain ⟨s, ua, ub, full⟩ := x
    unfold serveAsks
    extract_lets a b
    split
    · exact hO
    · split
      · exact hO
      · exact ih (answerLookup_only (modTabs_only hO (subset_sub hP (by decide))) (subset_sub hP (by decide)))

theorem execMsgLookup_holds {dev : Nat} {m : StateMsg} {s : State} (hO : Within pl sb s) (hP : [.out, .regs, .eph, .work, .tabs, .ctl, .tel] ⊆ pl) : Holds (InNext pl sb) (execMsgLookup dev m s) := by
  unfold execMsgLookup
  repeat' first
    | with_reducible refine leaf_next ?_
    | with_reducible assumption
    | with_reducible refine ite_only ?_ ?_
    | with_reducible refine onMsg_only ?_ (fun _ _ => ?_) (subset_sub hP (by decide))
    | with_reducible refine serveAsks_only ?_ (subset_sub hP (by decide))
    | with_reducible refine useSlot_only ?_ (subset_sub hP (by decide))
    | with_reducible refine modTabs_only ?_ (subset_sub hP (by decide))
    | (extract_lets +onlyGivenNames -underBinder x; refine cut_only (ps := pl) (s := sb) (a := x) ?_ ?_; unfold x; rotate_left; clear_value x; intro hx)
    | (extract_lets +onlyGivenNames -underBinder x; (try unfold x); clear x)
    | split
theorem execMsgLookup_only {dev : Nat} {m : StateMsg} {s : State} {t : State} (hO : Within pl sb s) (hP : [.out, .regs, .eph, .work, .tabs, .ctl, .tel] ⊆ pl) (hE : execMsgLookup dev m s = .next t) : Within pl sb t := by
  have k : Holds (InNext pl sb) (execMsgLookup dev m s) := execMsgLookup_holds (dev := dev) (m := m) (s := s) hO hP
  rw [hE] at k; exact k.of

theorem lookupsDone_only {s : State} {tid : Nat} (hO : Within pl sb s) (hP : [.out, .freeCount, .regs, .cons, .work, .mem, .serve, .ctl, .tel] ⊆ pl) : Within pl sb (lookupsDone s tid) := by
  unfold lookupsDone
  repeat' first
    | with_reducible refine bind_holds (ps := pl) (s := sb) ?_ fun _ _ => ?_
    | with_reducible refine bindAny_holds fun _ => ?_
    | with_reducible refine foldl_holds ?_ fun _ _ _ => ?_
    | with_reducible refine map_holds fun _ _ => ?_
    | with_reducible refine ite_holds ?_ ?_
    | with_reducible exact leaf_none
    | with_reducible refine leaf_some ?_
    | with_reducible refine leaf_only ?_
    | with_reducible assumption
    | with_reducible refine ite_only ?_ ?_
    | with_reducible refine foldl_only ?_ fun _ _ _ => ?_
    | with_reducible refine finishTask_only ?_ (subset_sub hP (by decide))
    | with_reducible refine stopTask_only ?_ (subset_sub hP (by decide))
    | with_reducible refine tierWrite_only ?_ (subset_sub hP (by decide))
    | with_reducible refine modWork_only ?_ (subset_sub hP (by decide))
    | with_reducible refine someOf_only (by with_reducible assumption) ?_
    | (extract_lets +onlyGivenNames -underBinder x; refine cut_only (ps := pl) (s := sb) (a := x) ?_ ?_; unfold x; rotate_left; clear_value x; intro hx)
    | (extract_lets +onlyGivenNames -underBinder x; (try unfold x); clear x)
    | split

theorem startLookups_only {s : State} {tid : Nat} (hO : Within pl sb s) (hP : [.out, .freeCount, .regs, .cons, .work, .tabs, .mem, .serve, .ctl, .tel] ⊆ pl) : Within pl sb (startLookups s tid) := by
  unfold startLookups
  repeat' first
    | with_reducible assumption
    | with_reducible refine ite_only ?_ ?_
    | with_reducible refine foldl_only ?_ fun _ _ _ => ?_
    | with_reducible refine lookupsDone_only ?_ (subset_sub hP (by decide))
    | with_reducible refine modTask_only ?_ (subset_sub hP (by decide))
    | with_reducible refine poolBags_only_eq ?_ (subset_sub hP (by decide)) (by assumption)
    | with_reducible refine poolBags_only ?_ (subset_sub hP (by decide))
    | with_reducible refine sendState_only ?_ (subset_sub hP (by decide))
    | with_reducible refine stopTask_only ?_ (subset_sub hP (by decide))
    | with_reducible refine modTabs_only ?_ (subset_sub hP (by decide))
    | with_reducible refine modWork_only ?_ (subset_sub hP (by decide))
    | (extract_lets +onlyGivenNames -underBinder x; refine cut_only (ps := pl) (s := sb) (a := x) ?_ ?_; unfold x; rotate_left; clear_value x; intro hx)
    | (extract_lets +onlyGivenNames -underBinder x; (try unfold x); clear x)
    | split

theorem execMsgPooled_holds {dev : Nat} {m : StateMsg} {s : State} (hO : Within pl sb s) (hP : [.out, .freeCount, .regs, .cons, .work, .mem, .serve, .ctl, .tel] ⊆ pl) : Holds (InNext pl sb) (execMsgPooled dev m s) := by
  unfold execMsgPooled
  repeat' first
    | with_reducible refine leaf_next ?_
    | with_reducible assumption
    | with_reducible refine lookupsDone_only ?_ (subset_sub hP (by decide))
    | with_reducible refine onMsg_only ?_ (fun _ _ => ?_) (subset_sub hP (by decide))
    | with_reducible refine modWork_only ?_ (subset_sub hP (by decide))
    | split
theorem execMsgPooled_only {dev : Nat} {m : StateMsg} {s : State} {t : State} (hO : Within pl sb s) (hP : [.out, .freeCount, .regs, .cons, .work, .mem, .serve, .ctl, .tel] ⊆ pl) (hE : execMsgPooled dev m s = .next t) : Within pl sb t := by
  have k : Holds (InNext pl sb) (execMsgPooled dev m s) := execMsgPooled_holds (dev := dev) (m := m) (s := s) hO hP
  rw [hE] at k; exact k.of

theorem execLookupResend_holds {task shard : Nat} {s : State} (hO : Within pl sb s) (hP : [.out, .freeCount, .regs, .cons, .work, .mem, .serve, .ctl, .tel] ⊆ pl) : Holds (InNext pl sb) (execLookupResend task shard s) := by
  unfold execLookupResend
  repeat' first
    | with_reducible refine leaf_next ?_
    | with_reducible assumption
    | with_reducible refine ite_only ?_ ?_
    | with_reducible refine closeTask_only ?_ (subset_sub hP (by decide))
    | with_reducible refine sendState_only ?_ (subset_sub hP (by decide))
    | with_reducible refine settle_only ?_ (subset_sub hP (by decide))
    | with_reducible refine stopTask_only ?_ (subset_sub hP (by decide))
    | with_reducible refine modWork_only ?_ (subset_sub hP (by decide))
    | (extract_lets +onlyGivenNames -underBinder x; refine cut_only (ps := pl) (s := sb) (a := x) ?_ ?_; unfold x; rotate_left; clear_value x; intro hx)
    | (extract_lets +onlyGivenNames -underBinder x; (try unfold x); clear x)
    | split
theorem execLookupResend_only {task shard : Nat} {s : State} {t : State} (hO : Within pl sb s) (hP : [.out, .freeCount, .regs, .cons, .work, .mem, .serve, .ctl, .tel] ⊆ pl) (hE : execLookupResend task shard s = .next t) : Within pl sb t := by
  have k : Holds (InNext pl sb) (execLookupResend task shard s) := execLookupResend_holds (task := task) (shard := shard) (s := s) hO hP
  rw [hE] at k; exact k.of

theorem applyUpdate_holds {s : State} {u : Update} (hO : Within pl sb s) (hP : [.work, .tabs, .mem, .ctl, .tel] ⊆ pl) : Holds (InSnd pl sb) (applyUpdate s u) := by
  unfold applyUpdate
  repeat' first
    | with_reducible refine ite_holds ?_ ?_
    | with_reducible refine leaf_snd ?_
    | with_reducible assumption
    | with_reducible refine ite_only ?_ ?_
    | with_reducible refine foldl_only ?_ fun _ _ _ => ?_
    | with_reducible refine foldlSnd_only ?_ fun _ _ _ => ?_
    | with_reducible refine readRow_only ?_ (subset_sub hP (by decide))
    | with_reducible refine readRow_only_eq ?_ (subset_sub hP (by decide)) (by assumption)
    | with_reducible refine writeRow_only ?_ (subset_sub hP (by decide))
    | (extract_lets +onlyGivenNames -underBinder x; refine cut_only (ps := pl) (s := sb) (a := x) ?_ ?_; unfold x; rotate_left; clear_value x; intro hx)
    | (extract_lets +onlyGivenNames -underBinder x; (try unfold x); clear x)
    | split
theorem applyUpdate_only_eq {s : State} {u : Update} {ra : Nat} {rb : State} (hO : Within pl sb s) (hP : [.work, .tabs, .mem, .ctl, .tel] ⊆ pl) (hE : applyUpdate s u = (ra, rb)) : Within pl sb rb := by
  have k : Holds (InSnd pl sb) (applyUpdate s u) := applyUpdate_holds (s := s) (u := u) hO hP
  rw [hE] at k; exact k.of
theorem applyUpdate_only {s : State} {u : Update} (hO : Within pl sb s) (hP : [.work, .tabs, .mem, .ctl, .tel] ⊆ pl) : Within pl sb (applyUpdate s u).2 := (applyUpdate_holds (s := s) (u := u) hO hP).of

theorem ackUpdate_only {s : State} {dev : Nat} {m : StateMsg} {st : Nat} (hO : Within pl sb s) (hP : [.out] ⊆ pl) : Within pl sb (ackUpdate s dev m st) := by
  unfold ackUpdate
  repeat' first
    | with_reducible assumption
    | with_reducible refine sendState_only ?_ (subset_sub hP (by decide))

theorem keepSeq_only {s : State} {p dev table seq st : Nat} (hO : Within pl sb s) (hP : [.tabs] ⊆ pl) : Within pl sb (keepSeq s p dev table seq st) := by
  unfold keepSeq
  repeat' first
    | with_reducible assumption
    | with_reducible refine modTabs_only ?_ (subset_sub hP (by decide))

theorem execMsgUpdate_holds {dev : Nat} {m : StateMsg} {s : State} (hO : Within pl sb s) (hP : [.out, .tabs, .ctl] ⊆ pl) : Holds (InNext pl sb) (execMsgUpdate dev m s) := by
  unfold execMsgUpdate
  repeat' first
    | with_reducible refine leaf_next ?_
    | with_reducible assumption
    | with_reducible refine ite_only ?_ ?_
    | with_reducible refine ackUpdate_only ?_ (subset_sub hP (by decide))
    | with_reducible refine keepSeq_only ?_ (subset_sub hP (by decide))
    | with_reducible refine onMsg_only ?_ (fun _ _ => ?_) (subset_sub hP (by decide))
    | with_reducible refine modTabs_only ?_ (subset_sub hP (by decide))
    | (extract_lets +onlyGivenNames -underBinder x; refine cut_only (ps := pl) (s := sb) (a := x) ?_ ?_; unfold x; rotate_left; clear_value x; intro hx)
    | (extract_lets +onlyGivenNames -underBinder x; (try unfold x); clear x)
    | split
theorem execMsgUpdate_only {dev : Nat} {m : StateMsg} {s : State} {t : State} (hO : Within pl sb s) (hP : [.out, .tabs, .ctl] ⊆ pl) (hE : execMsgUpdate dev m s = .next t) : Within pl sb t := by
  have k : Holds (InNext pl sb) (execMsgUpdate dev m s) := execMsgUpdate_holds (dev := dev) (m := m) (s := s) hO hP
  rw [hE] at k; exact k.of

theorem execMsgUpdateAck_holds {dev : Nat} {m : StateMsg} {s : State} (hO : Within pl sb s) (hP : [.tabs, .ctl] ⊆ pl) : Holds (InNext pl sb) (execMsgUpdateAck dev m s) := by
  unfold execMsgUpdateAck
  repeat' first
    | with_reducible refine leaf_next ?_
    | with_reducible assumption
    | with_reducible refine onMsg_only ?_ (fun _ _ => ?_) (subset_sub hP (by decide))
    | with_reducible refine modTabs_only ?_ (subset_sub hP (by decide))
theorem execMsgUpdateAck_only {dev : Nat} {m : StateMsg} {s : State} {t : State} (hO : Within pl sb s) (hP : [.tabs, .ctl] ⊆ pl) (hE : execMsgUpdateAck dev m s = .next t) : Within pl sb t := by
  have k : Holds (InNext pl sb) (execMsgUpdateAck dev m s) := execMsgUpdateAck_holds (dev := dev) (m := m) (s := s) hO hP
  rw [hE] at k; exact k.of

theorem applyUpdates_only {p : Nat} {l : List Update} {s : State} (hO : Within pl sb s) (hP : [.out, .work, .tabs, .mem, .ctl, .tel] ⊆ pl) : Within pl sb (applyUpdates p l s) := by
  induction l generalizing s with
  | nil => exact hO
  | cons u r ih =>
    unfold applyUpdates
    refine ite_only hO ?_
    exact ih (ackUpdate_only (keepSeq_only (modTabs_only (applyUpdate_only hO (subset_sub hP (by decide))) (subset_sub hP (by decide))) (subset_sub hP (by decide)))
      (subset_sub hP (by decide)))

theorem tableEntry_holds {s : State} {p capA capB usedA usedB : Nat} {full : Bool} (hO : Within pl sb s) (hP : [.out, .regs, .work, .tabs, .mem, .ctl, .tel] ⊆ pl) : Holds (InFst pl sb) (tableEntry s p capA capB usedA usedB full) := by
  unfold tableEntry
  repeat' first
    | with_reducible refine ite_holds ?_ ?_
    | with_reducible refine leaf_fst ?_
    | with_reducible assumption
    | with_reducible refine ite_only ?_ ?_
    | with_reducible refine foldl_only ?_ fun _ _ _ => ?_
    | with_reducible refine applyUpdates_only ?_ (subset_sub hP (by decide))
    | with_reducible refine serveAsks_only ?_ (subset_sub hP (by decide))
    | (extract_lets +onlyGivenNames -underBinder x; refine cut_only (ps := pl) (s := sb) (a := x) ?_ ?_; unfold x; rotate_left; clear_value x; intro hx)
    | (extract_lets +onlyGivenNames -underBinder x; (try unfold x); clear x)
theorem tableEntry_only_eq {s : State} {p capA capB usedA usedB : Nat} {full : Bool} {ra : State} {rb : Nat × Nat × Bool} (hO : Within pl sb s) (hP : [.out, .regs, .work, .tabs, .mem, .ctl, .tel] ⊆ pl) (hE : tableEntry s p capA capB usedA usedB full = (ra, rb)) : Within pl sb ra := by
  have k : Holds (InFst pl sb) (tableEntry s p capA capB usedA usedB full) := tableEntry_holds (s := s) (p := p) (capA := capA) (capB := capB) (usedA := usedA) (usedB := usedB) (full := full) hO hP
  rw [hE] at k; exact k.of
theorem tableEntry_only {s : State} {p capA capB usedA usedB : Nat} {full : Bool} (hO : Within pl sb s) (hP : [.out, .regs, .work, .tabs, .mem, .ctl, .tel] ⊆ pl) : Within pl sb (tableEntry s p capA capB usedA usedB full).1 := (tableEntry_holds (s := s) (p := p) (capA := capA) (capB := capB) (usedA := usedA) (usedB := usedB) (full := full) hO hP).of

theorem resumeTables_only {s : State} (hO : Within pl sb s) (hP : [.out, .freeCount, .regs, .cons, .eph, .work, .tabs, .mem, .serve, .ctl, .tel] ⊆ pl) : Within pl sb (resumeTables s) := by
  unfold resumeTables
  repeat' first
    | with_reducible assumption
    | with_reducible refine ite_only ?_ ?_
    | with_reducible refine foldl_only ?_ fun _ _ _ => ?_
    | with_reducible refine lookupsDone_only ?_ (subset_sub hP (by decide))
    | with_reducible refine poolBags_only_eq ?_ (subset_sub hP (by decide)) (by assumption)
    | with_reducible refine poolBags_only ?_ (subset_sub hP (by decide))
    | with_reducible refine startLookups_only ?_ (subset_sub hP (by decide))
    | with_reducible refine tableEntry_only_eq ?_ (subset_sub hP (by decide)) (by assumption)
    | with_reducible refine tableEntry_only ?_ (subset_sub hP (by decide))
    | with_reducible refine tableEntry_holds ?_ (subset_sub hP (by decide))
    | with_reducible refine useSlot_only ?_ (subset_sub hP (by decide))
    | with_reducible refine modWork_only ?_ (subset_sub hP (by decide))
    | (extract_lets +onlyGivenNames -underBinder x; refine cut_only (ps := pl) (s := sb) (a := x) ?_ ?_; unfold x; rotate_left; clear_value x; intro hx)
    | (extract_lets +onlyGivenNames -underBinder x; (try unfold x); clear x)
    | split

theorem execRowHeatAging_holds {ptn : Nat} {s : State} (hO : Within pl sb s) (hP : [.tabs] ⊆ pl) : Holds (InNext pl sb) (execRowHeatAging ptn s) := by
  unfold execRowHeatAging
  repeat' first
    | with_reducible refine leaf_next ?_
    | with_reducible assumption
    | with_reducible refine ite_only ?_ ?_
    | with_reducible refine modTabs_only ?_ (subset_sub hP (by decide))
theorem execRowHeatAging_only {ptn : Nat} {s : State} {t : State} (hO : Within pl sb s) (hP : [.tabs] ⊆ pl) (hE : execRowHeatAging ptn s = .next t) : Within pl sb t := by
  have k : Holds (InNext pl sb) (execRowHeatAging ptn s) := execRowHeatAging_holds (ptn := ptn) (s := s) hO hP
  rw [hE] at k; exact k.of

end Sys2Proof.Machine
end

