-- ==== Sys2Proof/Laws/FrameEphem.lean ====
section
/-! SUPPORT. What each function of Machine/Ephem.lean can do to the state as a whole: the parts it can change; the queue, the population and the
canonical forms it keeps. `f_only` speaks of the state that `f` answers, `f_holds` of a state inside its answer, `f_only_eq` of one taken out. -/

-- One declaration at a time: thousands of proofs in flight at once ask for more threads than fit in memory.
set_option Elab.async false

set_option linter.unusedTactic false
set_option linter.unreachableTactic false
set_option linter.unusedVariables false
set_option linter.unusedSimpArgs false
namespace Sys2Proof.Machine
open Sys2Proof
variable {pl : List Part} {sb : State}

theorem ephEvent_only {s : State} {p code uid : Nat} {payload : List Nat} (hO : Within pl sb s) (hP : [.out, .regs, .ctl, .mgt, .alm, .tel] ⊆ pl) : Within pl sb (ephEvent s p code uid payload) := by
  unfold ephEvent
  repeat' first
    | with_reducible assumption
    | with_reducible refine raiseBoth_only ?_ (subset_sub hP (by decide))

theorem setOther_only {s : State} {im : Option Image} (hO : Within pl sb s) (hP : [.eph] ⊆ pl) : Within pl sb (setOther s im) := by
  unfold setOther
  repeat' first
    | with_reducible assumption
    | with_reducible refine ite_only ?_ ?_
    | with_reducible refine modEph_only ?_ (subset_sub hP (by decide))

theorem execEphLoadStart_holds {abort : Bool} {s : State} (hO : Within pl sb s) (hP : [.eph] ⊆ pl) : Holds (InNext pl sb) (execEphLoadStart abort s) := by
  unfold execEphLoadStart
  repeat' first
    | with_reducible refine leaf_next ?_
    | with_reducible assumption
    | with_reducible refine ite_only ?_ ?_
    | with_reducible refine setOther_only ?_ (subset_sub hP (by decide))
    | with_reducible refine modEph_only ?_ (subset_sub hP (by decide))
    | (extract_lets +onlyGivenNames -underBinder x; refine cut_only (ps := pl) (s := sb) (a := x) ?_ ?_; unfold x; rotate_left; clear_value x; intro hx)
    | (extract_lets +onlyGivenNames -underBinder x; (try unfold x); clear x)
theorem execEphLoadStart_only {abort : Bool} {s : State} {t : State} (hO : Within pl sb s) (hP : [.eph] ⊆ pl) (hE : execEphLoadStart abort s = .next t) : Within pl sb t := by
  have k : Holds (InNext pl sb) (execEphLoadStart abort s) := execEphLoadStart_holds (abort := abort) (s := s) hO hP
  rw [hE] at k; exact k.of

theorem execEphLoadAbort_holds {s : State} (hO : Within pl sb s) (hP : [.eph] ⊆ pl) : Holds (InNext pl sb) (execEphLoadAbort s) := by
  unfold execEphLoadAbort
  repeat' first
    | with_reducible refine leaf_next ?_
    | with_reducible assumption
    | with_reducible refine ite_only ?_ ?_
    | with_reducible refine modEph_only ?_ (subset_sub hP (by decide))
theorem execEphLoadAbort_only {s : State} {t : State} (hO : Within pl sb s) (hP : [.eph] ⊆ pl) (hE : execEphLoadAbort s = .next t) : Within pl sb t := by
  have k : Holds (InNext pl sb) (execEphLoadAbort s) := execEphLoadAbort_holds (s := s) hO hP
  rw [hE] at k; exact k.of

theorem execEphLoadDone_holds {translated completed : Bool} {bytes : List Byte} {models : List Model} {s : State} (hO : Within pl sb s) (hP : [.eph] ⊆ pl) : Holds (InNext pl sb) (execEphLoadDone translated completed bytes models s) := by
  unfold execEphLoadDone
  repeat' first
    | with_reducible refine leaf_next ?_
    | with_reducible assumption
    | with_reducible refine ite_only ?_ ?_
    | with_reducible refine setOther_only ?_ (subset_sub hP (by decide))
    | with_reducible refine modEph_only ?_ (subset_sub hP (by decide))
    | (extract_lets +onlyGivenNames -underBinder x; refine cut_only (ps := pl) (s := sb) (a := x) ?_ ?_; unfold x; rotate_left; clear_value x; intro hx)
    | (extract_lets +onlyGivenNames -underBinder x; (try unfold x); clear x)
    | split
theorem execEphLoadDone_only {translated completed : Bool} {bytes : List Byte} {models : List Model} {s : State} {t : State} (hO : Within pl sb s) (hP : [.eph] ⊆ pl) (hE : execEphLoadDone translated completed bytes models s = .next t) : Within pl sb t := by
  have k : Holds (InNext pl sb) (execEphLoadDone translated completed bytes models s) := execEphLoadDone_holds (translated := translated) (completed := completed) (bytes := bytes) (models := models) (s := s) hO hP
  rw [hE] at k; exact k.of

theorem execEphSwitchArm_holds {s : State} (hO : Within pl sb s) (hP : [.eph] ⊆ pl) : Holds (InNext pl sb) (execEphSwitchArm s) := by
  unfold execEphSwitchArm
  repeat' first
    | with_reducible refine leaf_next ?_
    | with_reducible assumption
    | with_reducible refine ite_only ?_ ?_
    | with_reducible refine modEph_only ?_ (subset_sub hP (by decide))
    | (extract_lets +onlyGivenNames -underBinder x; refine cut_only (ps := pl) (s := sb) (a := x) ?_ ?_; unfold x; rotate_left; clear_value x; intro hx)
    | (extract_lets +onlyGivenNames -underBinder x; (try unfold x); clear x)
    | split
theorem execEphSwitchArm_only {s : State} {t : State} (hO : Within pl sb s) (hP : [.eph] ⊆ pl) (hE : execEphSwitchArm s = .next t) : Within pl sb t := by
  have k : Holds (InNext pl sb) (execEphSwitchArm s) := execEphSwitchArm_holds (s := s) hO hP
  rw [hE] at k; exact k.of

theorem execEphSwitchDisarm_holds {s : State} (hO : Within pl sb s) (hP : [.eph] ⊆ pl) : Holds (InNext pl sb) (execEphSwitchDisarm s) := by
  unfold execEphSwitchDisarm
  repeat' first
    | with_reducible refine leaf_next ?_
    | with_reducible assumption
    | with_reducible refine ite_only ?_ ?_
    | with_reducible refine modEph_only ?_ (subset_sub hP (by decide))
theorem execEphSwitchDisarm_only {s : State} {t : State} (hO : Within pl sb s) (hP : [.eph] ⊆ pl) (hE : execEphSwitchDisarm s = .next t) : Within pl sb t := by
  have k : Holds (InNext pl sb) (execEphSwitchDisarm s) := execEphSwitchDisarm_holds (s := s) hO hP
  rw [hE] at k; exact k.of

theorem wakeCons_only {s : State} {ls : List Nat} (hO : Within pl sb s) (hP : [.cons] ⊆ pl) : Within pl sb (wakeCons s ls) := by
  unfold wakeCons
  repeat' first
    | with_reducible assumption
    | with_reducible refine foldl_only ?_ fun _ _ _ => ?_
    | with_reducible refine beginWake_only ?_ (subset_sub hP (by decide))
    | split

theorem markLeads_only {s : State} {ls : List Nat} {sec ent : Nat} {wraps : Bool} (hO : Within pl sb s) (hP : [.cons] ⊆ pl) : Within pl sb (markLeads s ls sec ent wraps) := by
  unfold markLeads
  repeat' first
    | with_reducible assumption
    | with_reducible refine foldl_only ?_ fun _ _ _ => ?_
    | with_reducible refine modCon_only ?_ (subset_sub hP (by decide))
    | split

theorem clearLeads_only {s : State} {ls : List Nat} {sec ent : Nat} (hO : Within pl sb s) (hP : [.cons] ⊆ pl) : Within pl sb (clearLeads s ls sec ent) := by
  unfold clearLeads
  repeat' first
    | with_reducible assumption
    | with_reducible refine foldl_only ?_ fun _ _ _ => ?_
    | with_reducible refine modCon_only ?_ (subset_sub hP (by decide))
    | split

theorem execWakeLeadReached_holds {sec ent : Nat} {wraps : Bool} {s : State} (hO : Within pl sb s) (hP : [.cons, .eph] ⊆ pl) : Holds (InNext pl sb) (execWakeLeadReached sec ent wraps s) := by
  unfold execWakeLeadReached
  repeat' first
    | with_reducible refine leaf_next ?_
    | with_reducible assumption
    | with_reducible refine ite_only ?_ ?_
    | with_reducible refine markLeads_only ?_ (subset_sub hP (by decide))
    | with_reducible refine wakeCons_only ?_ (subset_sub hP (by decide))
    | with_reducible refine modEph_only ?_ (subset_sub hP (by decide))
    | (extract_lets +onlyGivenNames -underBinder x; refine cut_only (ps := pl) (s := sb) (a := x) ?_ ?_; unfold x; rotate_left; clear_value x; intro hx)
    | (extract_lets +onlyGivenNames -underBinder x; (try unfold x); clear x)
    | split
theorem execWakeLeadReached_only {sec ent : Nat} {wraps : Bool} {s : State} {t : State} (hO : Within pl sb s) (hP : [.cons, .eph] ⊆ pl) (hE : execWakeLeadReached sec ent wraps s = .next t) : Within pl sb t := by
  have k : Holds (InNext pl sb) (execWakeLeadReached sec ent wraps s) := execWakeLeadReached_holds (sec := sec) (ent := ent) (wraps := wraps) (s := s) hO hP
  rw [hE] at k; exact k.of

theorem setSlip_only {s : State} {us : List (Nat × Nat)} {slip after : Nat} (hO : Within pl sb s) (hP : [.out, .regs, .eph, .ctl, .mgt, .alm, .tel] ⊆ pl) : Within pl sb (setSlip s us slip after) := by
  unfold setSlip
  repeat' first
    | with_reducible assumption
    | with_reducible refine ite_only ?_ ?_
    | with_reducible refine foldl_only ?_ fun _ _ _ => ?_
    | with_reducible refine after_only ?_ ?_
    | with_reducible refine after_only ?_ ?_
    | with_reducible refine bumpReg_only ?_ (subset_sub hP (by decide))
    | with_reducible refine ephEvent_only ?_ (subset_sub hP (by decide))
    | with_reducible refine modEph_only ?_ (subset_sub hP (by decide))
    | (extract_lets +onlyGivenNames -underBinder x; refine cut_only (ps := pl) (s := sb) (a := x) ?_ ?_; unfold x; rotate_left; clear_value x; intro hx)
    | (extract_lets +onlyGivenNames -underBinder x; (try unfold x); clear x)

theorem execBarrierComplete_holds {sec ent : Nat} {s : State} (hO : Within pl sb s) (hP : [.out, .regs, .eph, .ctl, .mgt, .alm, .tel] ⊆ pl) : Holds (InNext pl sb) (execBarrierComplete sec ent s) := by
  unfold execBarrierComplete
  repeat' first
    | with_reducible refine leaf_next ?_
    | with_reducible assumption
    | with_reducible refine ite_only ?_ ?_
    | with_reducible refine bumpReg_only ?_ (subset_sub hP (by decide))
    | with_reducible refine raiseReg_only ?_ (subset_sub hP (by decide))
    | with_reducible refine setSlip_only ?_ (subset_sub hP (by decide))
    | with_reducible refine modEph_only ?_ (subset_sub hP (by decide))
    | (extract_lets +onlyGivenNames -underBinder x; refine cut_only (ps := pl) (s := sb) (a := x) ?_ ?_; unfold x; rotate_left; clear_value x; intro hx)
    | (extract_lets +onlyGivenNames -underBinder x; (try unfold x); clear x)
    | split
theorem execBarrierComplete_only {sec ent : Nat} {s : State} {t : State} (hO : Within pl sb s) (hP : [.out, .regs, .eph, .ctl, .mgt, .alm, .tel] ⊆ pl) (hE : execBarrierComplete sec ent s = .next t) : Within pl sb t := by
  have k : Holds (InNext pl sb) (execBarrierComplete sec ent s) := execBarrierComplete_holds (sec := sec) (ent := ent) (s := s) hO hP
  rw [hE] at k; exact k.of

theorem modSlot_only {s : State} {sec ent : Nat} {f : RunSlot → RunSlot} (hO : Within pl sb s) (hP : [.eph] ⊆ pl) : Within pl sb (modSlot s sec ent f) := by
  unfold modSlot
  repeat' first
    | with_reducible assumption
    | with_reducible refine modEph_only ?_ (subset_sub hP (by decide))

theorem dropSlot_only {s : State} {sec ent : Nat} (hO : Within pl sb s) (hP : [.cons, .eph] ⊆ pl) : Within pl sb (dropSlot s sec ent) := by
  unfold dropSlot
  repeat' first
    | with_reducible assumption
    | with_reducible refine restAll_only ?_ (subset_sub hP (by decide))
    | with_reducible refine modEph_only ?_ (subset_sub hP (by decide))
    | split

theorem abortSlot_only {s : State} {sec ent : Nat} (hO : Within pl sb s) (hP : [.out, .freeCount, .regs, .cons, .eph, .work, .mem, .serve, .ctl, .tel] ⊆ pl) : Within pl sb (abortSlot s sec ent) := by
  unfold abortSlot
  repeat' first
    | with_reducible assumption
    | with_reducible refine foldl_only ?_ fun _ _ _ => ?_
    | with_reducible refine askStop_only ?_ (subset_sub hP (by decide))
    | with_reducible refine modSlot_only ?_ (subset_sub hP (by decide))
    | (extract_lets +onlyGivenNames -underBinder x; refine cut_only (ps := pl) (s := sb) (a := x) ?_ ?_; unfold x; rotate_left; clear_value x; intro hx)
    | (extract_lets +onlyGivenNames -underBinder x; (try unfold x); clear x)

theorem overrunEvent_only {s : State} {sec ent : Nat} {e : Entry} {policy ticks : Nat} (hO : Within pl sb s) (hP : [.out, .regs, .ctl, .mgt, .alm, .tel] ⊆ pl) : Within pl sb (overrunEvent s sec ent e policy ticks) := by
  unfold overrunEvent
  repeat' first
    | with_reducible assumption
    | with_reducible refine bumpReg_only ?_ (subset_sub hP (by decide))
    | with_reducible refine ephEvent_only ?_ (subset_sub hP (by decide))

theorem execSlotOverrun_holds {sec ent : Nat} {s : State} (hO : Within pl sb s) (hP : [.out, .freeCount, .regs, .cons, .eph, .work, .mem, .serve, .ctl, .mgt, .alm, .tel] ⊆ pl) : Holds (InNext pl sb) (execSlotOverrun sec ent s) := by
  unfold execSlotOverrun
  repeat' first
    | with_reducible refine leaf_next ?_
    | with_reducible assumption
    | with_reducible refine ite_only ?_ ?_
    | with_reducible refine abortSlot_only ?_ (subset_sub hP (by decide))
    | with_reducible refine modSlot_only ?_ (subset_sub hP (by decide))
    | with_reducible refine overrunEvent_only ?_ (subset_sub hP (by decide))
    | (extract_lets +onlyGivenNames -underBinder x; (try unfold x); clear x)
    | split
theorem execSlotOverrun_only {sec ent : Nat} {s : State} {t : State} (hO : Within pl sb s) (hP : [.out, .freeCount, .regs, .cons, .eph, .work, .mem, .serve, .ctl, .mgt, .alm, .tel] ⊆ pl) (hE : execSlotOverrun sec ent s = .next t) : Within pl sb t := by
  have k : Holds (InNext pl sb) (execSlotOverrun sec ent s) := execSlotOverrun_holds (sec := sec) (ent := ent) (s := s) hO hP
  rw [hE] at k; exact k.of

theorem execBorrowEnd_holds {sec ent : Nat} {finished : Bool} {s : State} (hO : Within pl sb s) (hP : [.out, .freeCount, .regs, .cons, .eph, .work, .mem, .serve, .ctl, .mgt, .alm, .tel] ⊆ pl) : Holds (InNext pl sb) (execBorrowEnd sec ent finished s) := by
  unfold execBorrowEnd
  repeat' first
    | with_reducible refine leaf_next ?_
    | with_reducible assumption
    | with_reducible refine ite_only ?_ ?_
    | with_reducible refine foldl_only ?_ fun _ _ _ => ?_
    | with_reducible refine abortSlot_only ?_ (subset_sub hP (by decide))
    | with_reducible refine dropSlot_only ?_ (subset_sub hP (by decide))
    | with_reducible refine overrunEvent_only ?_ (subset_sub hP (by decide))
    | with_reducible refine progCount_only ?_ (subset_sub hP (by decide))
    | (extract_lets +onlyGivenNames -underBinder x; refine cut_only (ps := pl) (s := sb) (a := x) ?_ ?_; unfold x; rotate_left; clear_value x; intro hx)
    | (extract_lets +onlyGivenNames -underBinder x; (try unfold x); clear x)
    | split
theorem execBorrowEnd_only {sec ent : Nat} {finished : Bool} {s : State} {t : State} (hO : Within pl sb s) (hP : [.out, .freeCount, .regs, .cons, .eph, .work, .mem, .serve, .ctl, .mgt, .alm, .tel] ⊆ pl) (hE : execBorrowEnd sec ent finished s = .next t) : Within pl sb t := by
  have k : Holds (InNext pl sb) (execBorrowEnd sec ent finished s) := execBorrowEnd_holds (sec := sec) (ent := ent) (finished := finished) (s := s) hO hP
  rw [hE] at k; exact k.of

theorem delaySlip_only {us : List (Nat × Nat)} {l : List (Nat × Nat × Entry)} {s : State} (hO : Within pl sb s) (hP : [.out, .regs, .eph, .ctl, .mgt, .alm, .tel] ⊆ pl) :
    Within pl sb (delaySlip s us l) := by
  induction l generalizing us s with
  | nil => exact hO
  | cons x r ih =>
    unfold delaySlip
    extract_lets stars mine
    exact ih (ite_only hO (setSlip_only hO (subset_sub hP (by decide))))

theorem execAbortEnd_holds {sec ent : Nat} {s : State} (hO : Within pl sb s) (hP : [.out, .regs, .cons, .eph, .ctl, .mgt, .alm, .tel] ⊆ pl) : Holds (InNext pl sb) (execAbortEnd sec ent s) := by
  unfold execAbortEnd
  repeat' first
    | with_reducible refine leaf_next ?_
    | with_reducible assumption
    | with_reducible refine ite_only ?_ ?_
    | with_reducible refine delaySlip_only ?_ (subset_sub hP (by decide))
    | with_reducible refine dropSlot_only ?_ (subset_sub hP (by decide))
    | (extract_lets +onlyGivenNames -underBinder x; refine cut_only (ps := pl) (s := sb) (a := x) ?_ ?_; unfold x; rotate_left; clear_value x; intro hx)
    | (extract_lets +onlyGivenNames -underBinder x; (try unfold x); clear x)
    | split
theorem execAbortEnd_only {sec ent : Nat} {s : State} {t : State} (hO : Within pl sb s) (hP : [.out, .regs, .cons, .eph, .ctl, .mgt, .alm, .tel] ⊆ pl) (hE : execAbortEnd sec ent s = .next t) : Within pl sb t := by
  have k : Holds (InNext pl sb) (execAbortEnd sec ent s) := execAbortEnd_holds (sec := sec) (ent := ent) (s := s) hO hP
  rw [hE] at k; exact k.of

theorem noteAfter_only {s : State} {l after : Nat} (hO : Within pl sb s) (hP : [.cons] ⊆ pl) : Within pl sb (noteAfter s l after) := by
  unfold noteAfter
  repeat' first
    | with_reducible refine ite_holds ?_ ?_
    | with_reducible exact leaf_none
    | with_reducible assumption
    | with_reducible refine ite_only ?_ ?_
    | with_reducible refine after_only ?_ ?_
    | with_reducible refine after_only ?_ ?_
    | with_reducible refine modCon_only ?_ (subset_sub hP (by decide))
    | with_reducible refine tryRest_only ?_ (subset_sub hP (by decide))
    | with_reducible refine someFst_only (by with_reducible assumption) ?_
    | with_reducible refine someSnd_only (by with_reducible assumption) ?_
    | (extract_lets +onlyGivenNames -underBinder x; refine cut_only (ps := pl) (s := sb) (a := x) ?_ ?_; unfold x; rotate_left; clear_value x; intro hx)
    | (extract_lets +onlyGivenNames -underBinder x; (try unfold x); clear x)
    | split

theorem endEntry_only {sec ent : Nat} {s : State} (hO : Within pl sb s) (hP : [.cons, .eph] ⊆ pl) : Within pl sb (endEntry sec ent s) := by
  unfold endEntry
  repeat' first
    | with_reducible assumption
    | with_reducible refine ite_only ?_ ?_
    | with_reducible refine foldl_only ?_ fun _ _ _ => ?_
    | with_reducible refine clearLeads_only ?_ (subset_sub hP (by decide))
    | with_reducible refine noteAfter_only ?_ (subset_sub hP (by decide))
    | with_reducible refine modEph_only ?_ (subset_sub hP (by decide))
    | (extract_lets +onlyGivenNames -underBinder x; refine cut_only (ps := pl) (s := sb) (a := x) ?_ ?_; unfold x; rotate_left; clear_value x; intro hx)
    | (extract_lets +onlyGivenNames -underBinder x; (try unfold x); clear x)
    | split

theorem execBridgeEntryStart_holds {sec ent : Nat} {s : State} (hO : Within pl sb s) (hP : [.eph] ⊆ pl) : Holds (InNext pl sb) (execBridgeEntryStart sec ent s) := by
  unfold execBridgeEntryStart
  repeat' first
    | with_reducible refine leaf_next ?_
    | with_reducible assumption
    | with_reducible refine ite_only ?_ ?_
    | with_reducible refine modEph_only ?_ (subset_sub hP (by decide))
    | split
theorem execBridgeEntryStart_only {sec ent : Nat} {s : State} {t : State} (hO : Within pl sb s) (hP : [.eph] ⊆ pl) (hE : execBridgeEntryStart sec ent s = .next t) : Within pl sb t := by
  have k : Holds (InNext pl sb) (execBridgeEntryStart sec ent s) := execBridgeEntryStart_holds (sec := sec) (ent := ent) (s := s) hO hP
  rw [hE] at k; exact k.of

theorem execGateEntry_holds {sec ent : Nat} {s : State} (hO : Within pl sb s) (hP : [.eph] ⊆ pl) : Holds (InNext pl sb) (execGateEntry sec ent s) := by
  unfold execGateEntry
  repeat' first
    | with_reducible refine leaf_next ?_
    | with_reducible assumption
    | with_reducible refine ite_only ?_ ?_
    | with_reducible refine modEph_only ?_ (subset_sub hP (by decide))
    | split
theorem execGateEntry_only {sec ent : Nat} {s : State} {t : State} (hO : Within pl sb s) (hP : [.eph] ⊆ pl) (hE : execGateEntry sec ent s = .next t) : Within pl sb t := by
  have k : Holds (InNext pl sb) (execGateEntry sec ent s) := execGateEntry_holds (sec := sec) (ent := ent) (s := s) hO hP
  rw [hE] at k; exact k.of

end Sys2Proof.Machine
end

