-- ==== Sys2Proof/Laws/FrameSeq.lean ====
section
/-! SUPPORT. What each function of Machine/Seq.lean can do to the state as a whole: the parts it can change; the queue, the population and the
canonical forms it keeps. `f_only` speaks of the state that `f` answers, `f_holds` of a state inside its answer, `f_only_eq` of one taken out. -/

-- One declaration at a time: thousands of proofs in flight at once ask for more threads than fit in memory.
set_option Elab.async false

set_option linter.unusedTactic false
set_option linter.unreachableTactic false
set_option linter.unusedVariables false
set_option linter.unusedSimpArgs false
namespace Sys2Proof.Machine
open Sys2Proof
variable {pl : List Part} {sb : State}

theorem failInst_only {s : State} {iid st detail : Nat} (hO : Within pl sb s) (hP : [.out, .freeCount, .regs, .cons, .work, .mem, .serve, .ctl, .tel] ⊆ pl) : Within pl sb (failInst s iid st detail) := by
  unfold failInst
  repeat' first
    | with_reducible assumption
    | with_reducible refine ite_only ?_ ?_
    | with_reducible refine endInst_only ?_ (subset_sub hP (by decide))
    | with_reducible refine modInst_only ?_ (subset_sub hP (by decide))
    | (extract_lets +onlyGivenNames -underBinder x; refine cut_only (ps := pl) (s := sb) (a := x) ?_ ?_; unfold x; rotate_left; clear_value x; intro hx)
    | (extract_lets +onlyGivenNames -underBinder x; (try unfold x); clear x)
    | split

theorem markStart_only {s : State} {i : Inst} {t : Task} (hO : Within pl sb s) (hP : [.work, .serve] ⊆ pl) : Within pl sb (markStart s i t) := by
  unfold markStart
  repeat' first
    | with_reducible assumption
    | with_reducible refine ite_only ?_ ?_
    | with_reducible refine modInst_only ?_ (subset_sub hP (by decide))
    | with_reducible refine modReq_only ?_ (subset_sub hP (by decide))
    | with_reducible refine modTask_only ?_ (subset_sub hP (by decide))
    | (extract_lets +onlyGivenNames -underBinder x; refine cut_only (ps := pl) (s := sb) (a := x) ?_ ?_; unfold x; rotate_left; clear_value x; intro hx)
    | (extract_lets +onlyGivenNames -underBinder x; (try unfold x); clear x)
    | split

theorem execOk_holds {s : State} (hO : Within pl sb s) (hP : [] ⊆ pl) : Holds (InFst pl sb) (execOk s) := by
  unfold execOk
  repeat' first
    | with_reducible refine leaf_fst ?_
    | with_reducible assumption
theorem execOk_only_eq {s : State} {ra : State} {rb : Option Nat} (hO : Within pl sb s) (hP : [] ⊆ pl) (hE : execOk s = (ra, rb)) : Within pl sb ra := by
  have k : Holds (InFst pl sb) (execOk s) := execOk_holds (s := s) hO hP
  rw [hE] at k; exact k.of
theorem execOk_only {s : State} (hO : Within pl sb s) (hP : [] ⊆ pl) : Within pl sb (execOk s).1 := (execOk_holds (s := s) hO hP).of

theorem execFail_holds {s : State} {st : Nat} (hO : Within pl sb s) (hP : [] ⊆ pl) : Holds (InFst pl sb) (execFail s st) := by
  unfold execFail
  repeat' first
    | with_reducible refine leaf_fst ?_
    | with_reducible assumption
theorem execFail_only_eq {s : State} {st : Nat} {ra : State} {rb : Option Nat} (hO : Within pl sb s) (hP : [] ⊆ pl) (hE : execFail s st = (ra, rb)) : Within pl sb ra := by
  have k : Holds (InFst pl sb) (execFail s st) := execFail_holds (s := s) (st := st) hO hP
  rw [hE] at k; exact k.of
theorem execFail_only {s : State} {st : Nat} (hO : Within pl sb s) (hP : [] ⊆ pl) : Within pl sb (execFail s st).1 := (execFail_holds (s := s) (st := st) hO hP).of

theorem stopHere_only {s : State} {iid : Nat} (hO : Within pl sb s) (hP : [.out, .freeCount, .regs, .cons, .work, .mem, .serve, .ctl, .tel] ⊆ pl) : Within pl sb (stopHere s iid) := by
  unfold stopHere
  repeat' first
    | with_reducible assumption
    | with_reducible refine ite_only ?_ ?_
    | with_reducible refine stopInst_only ?_ (subset_sub hP (by decide))
    | split

theorem runExecs_only {g : Nat → State → Exec} (hg : ∀ e v, Within pl sb v → Within pl sb (g e v).1) (n k : Nat) {v : State} (hv : Within pl sb v) :
    Within pl sb (runExecs g n k v).1 := by
  induction n generalizing k v with
  | zero => exact hv
  | succ n ih =>
    unfold runExecs
    have a := hg k v hv
    split
    · rename_i e; rw [e] at a; exact ih _ a
    · exact a
theorem issue_only {s : State} {iid opc : Nat} {ok : Inst → Task → Ins → Bool} {ops : Extents} {f : Inst → Task → Ins → Nat → State → Exec} (h : Within pl sb s)
    (hf : ∀ i t x e v, Within pl sb v → Within pl sb (f i t x e v).1) (hp : [.out, .freeCount, .regs, .cons, .work, .mem, .serve, .ctl, .tel] ⊆ pl) :
    Within pl sb (issue s iid opc ok ops f) := by
  unfold issue
  split
  · exact h
  · rename_i i t x _
    split
    · exact failInst_only h (subset_sub hp (by decide))
    · have a := runExecs_only (g := f i t x) (fun e v hv => hf i t x e v hv) ((executions i x).getD 1) 0 (markStart_only (i := i) (t := t) h (subset_sub hp (by decide)))
      split
      · rename_i e; rw [e] at a; exact failInst_only a (subset_sub hp (by decide))
      · rename_i e; rw [e] at a
        have b := modInst_only (i := iid) (f := fun j => { j with pc := i.pc + 16, issued := j.issued + 1 }) a (subset_sub hp (by decide))
        exact stopHere_only (ite_only b (retire_only b (subset_sub hp (by decide)))) (subset_sub hp (by decide))

theorem unstall_only {s : State} {iid : Nat} (hO : Within pl sb s) (hP : [.freeCount, .work, .tel] ⊆ pl) : Within pl sb (unstall s iid) := by
  unfold unstall
  repeat' first
    | with_reducible assumption
    | with_reducible refine ite_only ?_ ?_
    | with_reducible refine modInst_only ?_ (subset_sub hP (by decide))
    | with_reducible refine retire_only ?_ (subset_sub hP (by decide))
    | (extract_lets +onlyGivenNames -underBinder x; refine cut_only (ps := pl) (s := sb) (a := x) ?_ ?_; unfold x; rotate_left; clear_value x; intro hx)
    | (extract_lets +onlyGivenNames -underBinder x; (try unfold x); clear x)
    | split

theorem clearTags_only {s : State} {key n : Nat} (hO : Within pl sb s) (hP : [.work, .mem] ⊆ pl) : Within pl sb (clearTags s key n) := by
  unfold clearTags
  repeat' first
    | with_reducible assumption
    | with_reducible refine mirrorStore_only ?_ (subset_sub hP (by decide))
    | with_reducible refine modWork_only ?_ (subset_sub hP (by decide))

theorem putOp_only {s : State} {key : Nat} {bs : List Byte} (hO : Within pl sb s) (hP : [.work, .mem] ⊆ pl) : Within pl sb (putOp s key bs) := by
  unfold putOp
  repeat' first
    | with_reducible assumption
    | with_reducible refine clearTags_only ?_ (subset_sub hP (by decide))
    | with_reducible refine sramWrite_only ?_ (subset_sub hP (by decide))

theorem putAcc_only {s : State} {i : Inst} {x : Ins} {key : Nat} {acc : List Nat} (hO : Within pl sb s) (hP : [.work, .mem] ⊆ pl) : Within pl sb (putAcc s i x key acc) := by
  unfold putAcc
  repeat' first
    | with_reducible assumption
    | with_reducible refine modInst_only ?_ (subset_sub hP (by decide))
    | with_reducible refine putOp_only ?_ (subset_sub hP (by decide))

theorem readFail_holds {s : State} {p key : Nat} {v : Except Bool (List Num)} (hO : Within pl sb s) (hP : [.out, .regs, .serve, .ctl, .mgt, .alm, .tel] ⊆ pl) : Holds (InFst pl sb) (readFail s p key v) := by
  unfold readFail
  repeat' first
    | with_reducible refine leaf_fst ?_
    | with_reducible assumption
    | with_reducible refine execFail_only_eq ?_ (subset_sub hP (by decide)) (by assumption)
    | with_reducible refine execFail_only ?_ (subset_sub hP (by decide))
    | with_reducible refine streamFault_only ?_ (subset_sub hP (by decide))
    | split
theorem readFail_only_eq {s : State} {p key : Nat} {v : Except Bool (List Num)} {ra : State} {rb : Option Nat} (hO : Within pl sb s) (hP : [.out, .regs, .serve, .ctl, .mgt, .alm, .tel] ⊆ pl) (hE : readFail s p key v = (ra, rb)) : Within pl sb ra := by
  have k : Holds (InFst pl sb) (readFail s p key v) := readFail_holds (s := s) (p := p) (key := key) (v := v) hO hP
  rw [hE] at k; exact k.of
theorem readFail_only {s : State} {p key : Nat} {v : Except Bool (List Num)} (hO : Within pl sb s) (hP : [.out, .regs, .serve, .ctl, .mgt, .alm, .tel] ⊆ pl) : Within pl sb (readFail s p key v).1 := (readFail_holds (s := s) (p := p) (key := key) (v := v) hO hP).of

theorem matExec_holds {width : Nat} {i : Inst} {t : Task} {x : Ins} {e : Nat} {s : State} (hO : Within pl sb s) (hP : [.out, .regs, .work, .mem, .serve, .ctl, .mgt, .alm, .tel] ⊆ pl) : Holds (InFst pl sb) (matExec width i t x e s) := by
  unfold matExec
  repeat' first
    | with_reducible refine ite_holds ?_ ?_
    | with_reducible refine leaf_fst ?_
    | with_reducible assumption
    | with_reducible refine ite_only ?_ ?_
    | with_reducible refine countDecode_only ?_ (subset_sub hP (by decide))
    | with_reducible refine countMac_only ?_ (subset_sub hP (by decide))
    | with_reducible refine execFail_only_eq ?_ (subset_sub hP (by decide)) (by assumption)
    | with_reducible refine execFail_only ?_ (subset_sub hP (by decide))
    | with_reducible refine execOk_only_eq ?_ (subset_sub hP (by decide)) (by assumption)
    | with_reducible refine execOk_only ?_ (subset_sub hP (by decide))
    | with_reducible refine progCount_only ?_ (subset_sub hP (by decide))
    | with_reducible refine putAcc_only ?_ (subset_sub hP (by decide))
    | with_reducible refine readFail_only_eq ?_ (subset_sub hP (by decide)) (by assumption)
    | with_reducible refine readFail_only ?_ (subset_sub hP (by decide))
    | with_reducible refine readFail_holds ?_ (subset_sub hP (by decide))
    | (extract_lets +onlyGivenNames -underBinder x; refine cut_only (ps := pl) (s := sb) (a := x) ?_ ?_; unfold x; rotate_left; clear_value x; intro hx)
    | (extract_lets +onlyGivenNames -underBinder x; (try unfold x); clear x)
    | split
theorem matExec_only_eq {width : Nat} {i : Inst} {t : Task} {x : Ins} {e : Nat} {s : State} {ra : State} {rb : Option Nat} (hO : Within pl sb s) (hP : [.out, .regs, .work, .mem, .serve, .ctl, .mgt, .alm, .tel] ⊆ pl) (hE : matExec width i t x e s = (ra, rb)) : Within pl sb ra := by
  have k : Holds (InFst pl sb) (matExec width i t x e s) := matExec_holds (width := width) (i := i) (t := t) (x := x) (e := e) (s := s) hO hP
  rw [hE] at k; exact k.of
theorem matExec_only {width : Nat} {i : Inst} {t : Task} {x : Ins} {e : Nat} {s : State} (hO : Within pl sb s) (hP : [.out, .regs, .work, .mem, .serve, .ctl, .mgt, .alm, .tel] ⊆ pl) : Within pl sb (matExec width i t x e s).1 := (matExec_holds (width := width) (i := i) (t := t) (x := x) (e := e) (s := s) hO hP).of

theorem execInstrMma_holds {inst : Nat} {s : State} (hO : Within pl sb s) (hP : [.out, .freeCount, .regs, .cons, .work, .mem, .serve, .ctl, .mgt, .alm, .tel] ⊆ pl) : Holds (InNext pl sb) (execInstrMma inst s) := by
  unfold execInstrMma
  repeat' first
    | with_reducible refine leaf_next ?_
    | with_reducible assumption
    | with_reducible refine issue_only ?_ (fun _ _ _ _ _ _ => ?_) (subset_sub hP (by decide))
    | with_reducible refine matExec_only_eq ?_ (subset_sub hP (by decide)) (by assumption)
    | with_reducible refine matExec_only ?_ (subset_sub hP (by decide))
    | with_reducible refine matExec_holds ?_ (subset_sub hP (by decide))
    | (extract_lets +onlyGivenNames -underBinder x; (try unfold x); clear x)
    | split
theorem execInstrMma_only {inst : Nat} {s : State} {t : State} (hO : Within pl sb s) (hP : [.out, .freeCount, .regs, .cons, .work, .mem, .serve, .ctl, .mgt, .alm, .tel] ⊆ pl) (hE : execInstrMma inst s = .next t) : Within pl sb t := by
  have k : Holds (InNext pl sb) (execInstrMma inst s) := execInstrMma_holds (inst := inst) (s := s) hO hP
  rw [hE] at k; exact k.of

theorem execInstrMmaq_holds {inst : Nat} {s : State} (hO : Within pl sb s) (hP : [.out, .freeCount, .regs, .cons, .work, .mem, .serve, .ctl, .mgt, .alm, .tel] ⊆ pl) : Holds (InNext pl sb) (execInstrMmaq inst s) := by
  unfold execInstrMmaq
  repeat' first
    | with_reducible refine leaf_next ?_
    | with_reducible assumption
    | with_reducible refine ite_only ?_ ?_
    | with_reducible refine issue_only ?_ (fun _ _ _ _ _ _ => ?_) (subset_sub hP (by decide))
    | with_reducible refine matExec_only_eq ?_ (subset_sub hP (by decide)) (by assumption)
    | with_reducible refine matExec_only ?_ (subset_sub hP (by decide))
    | with_reducible refine matExec_holds ?_ (subset_sub hP (by decide))
    | (extract_lets +onlyGivenNames -underBinder x; refine cut_only (ps := pl) (s := sb) (a := x) ?_ ?_; unfold x; rotate_left; clear_value x; intro hx)
    | (extract_lets +onlyGivenNames -underBinder x; (try unfold x); clear x)
    | split
theorem execInstrMmaq_only {inst : Nat} {s : State} {t : State} (hO : Within pl sb s) (hP : [.out, .freeCount, .regs, .cons, .work, .mem, .serve, .ctl, .mgt, .alm, .tel] ⊆ pl) (hE : execInstrMmaq inst s = .next t) : Within pl sb t := by
  have k : Holds (InNext pl sb) (execInstrMmaq inst s) := execInstrMmaq_holds (inst := inst) (s := s) hO hP
  rw [hE] at k; exact k.of

theorem execInstrRope_holds {inst : Nat} {s : State} (hO : Within pl sb s) (hP : [.out, .freeCount, .regs, .cons, .work, .mem, .serve, .ctl, .mgt, .alm, .tel] ⊆ pl) : Holds (InNext pl sb) (execInstrRope inst s) := by
  unfold execInstrRope
  repeat' first
    | with_reducible refine leaf_next ?_
    | with_reducible assumption
    | with_reducible refine ite_only ?_ ?_
    | with_reducible refine chargeLines_only ?_ (subset_sub hP (by decide))
    | with_reducible refine countDecode_only ?_ (subset_sub hP (by decide))
    | with_reducible refine execFail_only_eq ?_ (subset_sub hP (by decide)) (by assumption)
    | with_reducible refine execFail_only ?_ (subset_sub hP (by decide))
    | with_reducible refine execOk_only_eq ?_ (subset_sub hP (by decide)) (by assumption)
    | with_reducible refine execOk_only ?_ (subset_sub hP (by decide))
    | with_reducible refine issue_only ?_ (fun _ _ _ _ _ _ => ?_) (subset_sub hP (by decide))
    | with_reducible refine putOp_only ?_ (subset_sub hP (by decide))
    | with_reducible refine readFail_only_eq ?_ (subset_sub hP (by decide)) (by assumption)
    | with_reducible refine readFail_only ?_ (subset_sub hP (by decide))
    | with_reducible refine readFail_holds ?_ (subset_sub hP (by decide))
    | (extract_lets +onlyGivenNames -underBinder x; refine cut_only (ps := pl) (s := sb) (a := x) ?_ ?_; unfold x; rotate_left; clear_value x; intro hx)
    | (extract_lets +onlyGivenNames -underBinder x; (try unfold x); clear x)
    | split
theorem execInstrRope_only {inst : Nat} {s : State} {t : State} (hO : Within pl sb s) (hP : [.out, .freeCount, .regs, .cons, .work, .mem, .serve, .ctl, .mgt, .alm, .tel] ⊆ pl) (hE : execInstrRope inst s = .next t) : Within pl sb t := by
  have k : Holds (InNext pl sb) (execInstrRope inst s) := execInstrRope_holds (inst := inst) (s := s) hO hP
  rw [hE] at k; exact k.of

theorem execInstrSmax_holds {inst : Nat} {s : State} (hO : Within pl sb s) (hP : [.out, .freeCount, .regs, .cons, .work, .mem, .serve, .ctl, .tel] ⊆ pl) : Holds (InNext pl sb) (execInstrSmax inst s) := by
  unfold execInstrSmax
  repeat' first
    | with_reducible refine leaf_next ?_
    | with_reducible assumption
    | with_reducible refine ite_only ?_ ?_
    | with_reducible refine activity_only ?_ (subset_sub hP (by decide))
    | with_reducible refine chargeLines_only ?_ (subset_sub hP (by decide))
    | with_reducible refine execFail_only_eq ?_ (subset_sub hP (by decide)) (by assumption)
    | with_reducible refine execFail_only ?_ (subset_sub hP (by decide))
    | with_reducible refine execOk_only_eq ?_ (subset_sub hP (by decide)) (by assumption)
    | with_reducible refine execOk_only ?_ (subset_sub hP (by decide))
    | with_reducible refine issue_only ?_ (fun _ _ _ _ _ _ => ?_) (subset_sub hP (by decide))
    | with_reducible refine progCount_only ?_ (subset_sub hP (by decide))
    | with_reducible refine putOp_only ?_ (subset_sub hP (by decide))
    | (extract_lets +onlyGivenNames -underBinder x; refine cut_only (ps := pl) (s := sb) (a := x) ?_ ?_; unfold x; rotate_left; clear_value x; intro hx)
    | (extract_lets +onlyGivenNames -underBinder x; (try unfold x); clear x)
    | split
theorem execInstrSmax_only {inst : Nat} {s : State} {t : State} (hO : Within pl sb s) (hP : [.out, .freeCount, .regs, .cons, .work, .mem, .serve, .ctl, .tel] ⊆ pl) (hE : execInstrSmax inst s = .next t) : Within pl sb t := by
  have k : Holds (InNext pl sb) (execInstrSmax inst s) := execInstrSmax_holds (inst := inst) (s := s) hO hP
  rw [hE] at k; exact k.of

theorem execInstrPv_holds {inst : Nat} {s : State} (hO : Within pl sb s) (hP : [.out, .freeCount, .regs, .cons, .work, .mem, .serve, .ctl, .mgt, .alm, .tel] ⊆ pl) : Holds (InNext pl sb) (execInstrPv inst s) := by
  unfold execInstrPv
  repeat' first
    | with_reducible refine leaf_next ?_
    | with_reducible assumption
    | with_reducible refine ite_only ?_ ?_
    | with_reducible refine countDecode_only ?_ (subset_sub hP (by decide))
    | with_reducible refine countMac_only ?_ (subset_sub hP (by decide))
    | with_reducible refine execFail_only_eq ?_ (subset_sub hP (by decide)) (by assumption)
    | with_reducible refine execFail_only ?_ (subset_sub hP (by decide))
    | with_reducible refine execOk_only_eq ?_ (subset_sub hP (by decide)) (by assumption)
    | with_reducible refine execOk_only ?_ (subset_sub hP (by decide))
    | with_reducible refine issue_only ?_ (fun _ _ _ _ _ _ => ?_) (subset_sub hP (by decide))
    | with_reducible refine progCount_only ?_ (subset_sub hP (by decide))
    | with_reducible refine putAcc_only ?_ (subset_sub hP (by decide))
    | with_reducible refine readFail_only_eq ?_ (subset_sub hP (by decide)) (by assumption)
    | with_reducible refine readFail_only ?_ (subset_sub hP (by decide))
    | with_reducible refine readFail_holds ?_ (subset_sub hP (by decide))
    | (extract_lets +onlyGivenNames -underBinder x; refine cut_only (ps := pl) (s := sb) (a := x) ?_ ?_; unfold x; rotate_left; clear_value x; intro hx)
    | (extract_lets +onlyGivenNames -underBinder x; (try unfold x); clear x)
    | split
theorem execInstrPv_only {inst : Nat} {s : State} {t : State} (hO : Within pl sb s) (hP : [.out, .freeCount, .regs, .cons, .work, .mem, .serve, .ctl, .mgt, .alm, .tel] ⊆ pl) (hE : execInstrPv inst s = .next t) : Within pl sb t := by
  have k : Holds (InNext pl sb) (execInstrPv inst s) := execInstrPv_holds (inst := inst) (s := s) hO hP
  rw [hE] at k; exact k.of

theorem execInstrMrg_holds {inst : Nat} {s : State} (hO : Within pl sb s) (hP : [.out, .freeCount, .regs, .cons, .work, .mem, .serve, .ctl, .tel] ⊆ pl) : Holds (InNext pl sb) (execInstrMrg inst s) := by
  unfold execInstrMrg
  repeat' first
    | with_reducible refine leaf_next ?_
    | with_reducible assumption
    | with_reducible refine ite_only ?_ ?_
    | with_reducible refine chargeLines_only ?_ (subset_sub hP (by decide))
    | with_reducible refine execFail_only_eq ?_ (subset_sub hP (by decide)) (by assumption)
    | with_reducible refine execFail_only ?_ (subset_sub hP (by decide))
    | with_reducible refine execOk_only_eq ?_ (subset_sub hP (by decide)) (by assumption)
    | with_reducible refine execOk_only ?_ (subset_sub hP (by decide))
    | with_reducible refine issue_only ?_ (fun _ _ _ _ _ _ => ?_) (subset_sub hP (by decide))
    | with_reducible refine progCount_only ?_ (subset_sub hP (by decide))
    | with_reducible refine putOp_only ?_ (subset_sub hP (by decide))
    | (extract_lets +onlyGivenNames -underBinder x; refine cut_only (ps := pl) (s := sb) (a := x) ?_ ?_; unfold x; rotate_left; clear_value x; intro hx)
    | (extract_lets +onlyGivenNames -underBinder x; (try unfold x); clear x)
    | split
theorem execInstrMrg_only {inst : Nat} {s : State} {t : State} (hO : Within pl sb s) (hP : [.out, .freeCount, .regs, .cons, .work, .mem, .serve, .ctl, .tel] ⊆ pl) (hE : execInstrMrg inst s = .next t) : Within pl sb t := by
  have k : Holds (InNext pl sb) (execInstrMrg inst s) := execInstrMrg_holds (inst := inst) (s := s) hO hP
  rw [hE] at k; exact k.of

theorem execInstrQnt_holds {inst n : Nat} {s : State} (hO : Within pl sb s) (hP : [.out, .freeCount, .regs, .cons, .work, .mem, .serve, .ctl, .tel] ⊆ pl) : Holds (InNext pl sb) (execInstrQnt inst n s) := by
  unfold execInstrQnt
  repeat' first
    | with_reducible refine leaf_next ?_
    | with_reducible assumption
    | with_reducible refine ite_only ?_ ?_
    | with_reducible refine chargeLines_only ?_ (subset_sub hP (by decide))
    | with_reducible refine countHist_only ?_ (subset_sub hP (by decide))
    | with_reducible refine execFail_only_eq ?_ (subset_sub hP (by decide)) (by assumption)
    | with_reducible refine execFail_only ?_ (subset_sub hP (by decide))
    | with_reducible refine execOk_only_eq ?_ (subset_sub hP (by decide)) (by assumption)
    | with_reducible refine execOk_only ?_ (subset_sub hP (by decide))
    | with_reducible refine issue_only ?_ (fun _ _ _ _ _ _ => ?_) (subset_sub hP (by decide))
    | with_reducible refine modInst_only ?_ (subset_sub hP (by decide))
    | with_reducible refine progCount_only ?_ (subset_sub hP (by decide))
    | with_reducible refine putOp_only ?_ (subset_sub hP (by decide))
    | (extract_lets +onlyGivenNames -underBinder x; refine cut_only (ps := pl) (s := sb) (a := x) ?_ ?_; unfold x; rotate_left; clear_value x; intro hx)
    | (extract_lets +onlyGivenNames -underBinder x; (try unfold x); clear x)
    | split
theorem execInstrQnt_only {inst n : Nat} {s : State} {t : State} (hO : Within pl sb s) (hP : [.out, .freeCount, .regs, .cons, .work, .mem, .serve, .ctl, .tel] ⊆ pl) (hE : execInstrQnt inst n s = .next t) : Within pl sb t := by
  have k : Holds (InNext pl sb) (execInstrQnt inst n s) := execInstrQnt_holds (inst := inst) (n := n) (s := s) hO hP
  rw [hE] at k; exact k.of

theorem execInstrEnc_holds {inst : Nat} {s : State} (hO : Within pl sb s) (hP : [.out, .freeCount, .regs, .cons, .work, .mem, .serve, .ctl, .tel] ⊆ pl) : Holds (InNext pl sb) (execInstrEnc inst s) := by
  unfold execInstrEnc
  repeat' first
    | with_reducible refine bind_holds (ps := pl) (s := sb) ?_ fun _ _ => ?_
    | with_reducible refine bindAny_holds fun _ => ?_
    | with_reducible refine foldl_holds ?_ fun _ _ _ => ?_
    | with_reducible refine map_holds fun _ _ => ?_
    | with_reducible refine ite_holds ?_ ?_
    | with_reducible exact leaf_none
    | with_reducible refine leaf_some ?_
    | with_reducible refine leaf_only ?_
    | with_reducible refine leaf_next ?_
    | with_reducible assumption
    | with_reducible refine ite_only ?_ ?_
    | with_reducible refine foldl_only ?_ fun _ _ _ => ?_
    | with_reducible refine chargeLines_only ?_ (subset_sub hP (by decide))
    | with_reducible refine execFail_only_eq ?_ (subset_sub hP (by decide)) (by assumption)
    | with_reducible refine execFail_only ?_ (subset_sub hP (by decide))
    | with_reducible refine execOk_only_eq ?_ (subset_sub hP (by decide)) (by assumption)
    | with_reducible refine execOk_only ?_ (subset_sub hP (by decide))
    | with_reducible refine issue_only ?_ (fun _ _ _ _ _ _ => ?_) (subset_sub hP (by decide))
    | with_reducible refine modInst_only ?_ (subset_sub hP (by decide))
    | with_reducible refine modPage_only ?_ (subset_sub hP (by decide))
    | with_reducible refine modTask_only ?_ (subset_sub hP (by decide))
    | with_reducible refine progCount_only ?_ (subset_sub hP (by decide))
    | with_reducible refine putOp_only ?_ (subset_sub hP (by decide))
    | with_reducible refine tabRef_only ?_ (subset_sub hP (by decide))
    | with_reducible refine someOf_only (by with_reducible assumption) ?_
    | (extract_lets +onlyGivenNames -underBinder x; refine cut_only (ps := pl) (s := sb) (a := x) ?_ ?_; unfold x; rotate_left; clear_value x; intro hx)
    | (extract_lets +onlyGivenNames -underBinder x; (try unfold x); clear x)
    | split
theorem execInstrEnc_only {inst : Nat} {s : State} {t : State} (hO : Within pl sb s) (hP : [.out, .freeCount, .regs, .cons, .work, .mem, .serve, .ctl, .tel] ⊆ pl) (hE : execInstrEnc inst s = .next t) : Within pl sb t := by
  have k : Holds (InNext pl sb) (execInstrEnc inst s) := execInstrEnc_holds (inst := inst) (s := s) hO hP
  rw [hE] at k; exact k.of

theorem execInstrRed_holds {inst n : Nat} {s : State} (hO : Within pl sb s) (hP : [.out, .freeCount, .regs, .cons, .work, .mem, .serve, .ctl, .tel] ⊆ pl) : Holds (InNext pl sb) (execInstrRed inst n s) := by
  unfold execInstrRed
  repeat' first
    | with_reducible refine leaf_next ?_
    | with_reducible assumption
    | with_reducible refine chargeLines_only ?_ (subset_sub hP (by decide))
    | with_reducible refine execFail_only_eq ?_ (subset_sub hP (by decide)) (by assumption)
    | with_reducible refine execFail_only ?_ (subset_sub hP (by decide))
    | with_reducible refine execOk_only_eq ?_ (subset_sub hP (by decide)) (by assumption)
    | with_reducible refine execOk_only ?_ (subset_sub hP (by decide))
    | with_reducible refine issue_only ?_ (fun _ _ _ _ _ _ => ?_) (subset_sub hP (by decide))
    | with_reducible refine putOp_only ?_ (subset_sub hP (by decide))
    | split
theorem execInstrRed_only {inst n : Nat} {s : State} {t : State} (hO : Within pl sb s) (hP : [.out, .freeCount, .regs, .cons, .work, .mem, .serve, .ctl, .tel] ⊆ pl) (hE : execInstrRed inst n s = .next t) : Within pl sb t := by
  have k : Holds (InNext pl sb) (execInstrRed inst n s) := execInstrRed_holds (inst := inst) (n := n) (s := s) hO hP
  rw [hE] at k; exact k.of

theorem execInstrNorm_holds {inst n : Nat} {s : State} (hO : Within pl sb s) (hP : [.out, .freeCount, .regs, .cons, .work, .mem, .serve, .ctl, .tel] ⊆ pl) : Holds (InNext pl sb) (execInstrNorm inst n s) := by
  unfold execInstrNorm
  repeat' first
    | with_reducible refine leaf_next ?_
    | with_reducible assumption
    | with_reducible refine chargeLines_only ?_ (subset_sub hP (by decide))
    | with_reducible refine execFail_only_eq ?_ (subset_sub hP (by decide)) (by assumption)
    | with_reducible refine execFail_only ?_ (subset_sub hP (by decide))
    | with_reducible refine execOk_only_eq ?_ (subset_sub hP (by decide)) (by assumption)
    | with_reducible refine execOk_only ?_ (subset_sub hP (by decide))
    | with_reducible refine issue_only ?_ (fun _ _ _ _ _ _ => ?_) (subset_sub hP (by decide))
    | with_reducible refine putOp_only ?_ (subset_sub hP (by decide))
    | (extract_lets +onlyGivenNames -underBinder x; refine cut_only (ps := pl) (s := sb) (a := x) ?_ ?_; unfold x; rotate_left; clear_value x; intro hx)
    | (extract_lets +onlyGivenNames -underBinder x; (try unfold x); clear x)
    | split
theorem execInstrNorm_only {inst n : Nat} {s : State} {t : State} (hO : Within pl sb s) (hP : [.out, .freeCount, .regs, .cons, .work, .mem, .serve, .ctl, .tel] ⊆ pl) (hE : execInstrNorm inst n s = .next t) : Within pl sb t := by
  have k : Holds (InNext pl sb) (execInstrNorm inst n s) := execInstrNorm_holds (inst := inst) (n := n) (s := s) hO hP
  rw [hE] at k; exact k.of

theorem execInstrAct_holds {inst n : Nat} {s : State} (hO : Within pl sb s) (hP : [.out, .freeCount, .regs, .cons, .work, .mem, .serve, .ctl, .tel] ⊆ pl) : Holds (InNext pl sb) (execInstrAct inst n s) := by
  unfold execInstrAct
  repeat' first
    | with_reducible refine leaf_next ?_
    | with_reducible assumption
    | with_reducible refine ite_only ?_ ?_
    | with_reducible refine chargeLines_only ?_ (subset_sub hP (by decide))
    | with_reducible refine execFail_only_eq ?_ (subset_sub hP (by decide)) (by assumption)
    | with_reducible refine execFail_only ?_ (subset_sub hP (by decide))
    | with_reducible refine execOk_only_eq ?_ (subset_sub hP (by decide)) (by assumption)
    | with_reducible refine execOk_only ?_ (subset_sub hP (by decide))
    | with_reducible refine issue_only ?_ (fun _ _ _ _ _ _ => ?_) (subset_sub hP (by decide))
    | with_reducible refine putOp_only ?_ (subset_sub hP (by decide))
    | (extract_lets +onlyGivenNames -underBinder x; refine cut_only (ps := pl) (s := sb) (a := x) ?_ ?_; unfold x; rotate_left; clear_value x; intro hx)
    | (extract_lets +onlyGivenNames -underBinder x; (try unfold x); clear x)
    | split
theorem execInstrAct_only {inst n : Nat} {s : State} {t : State} (hO : Within pl sb s) (hP : [.out, .freeCount, .regs, .cons, .work, .mem, .serve, .ctl, .tel] ⊆ pl) (hE : execInstrAct inst n s = .next t) : Within pl sb t := by
  have k : Holds (InNext pl sb) (execInstrAct inst n s) := execInstrAct_holds (inst := inst) (n := n) (s := s) hO hP
  rw [hE] at k; exact k.of

theorem execInstrSamp_holds {inst : Nat} {s : State} (hO : Within pl sb s) (hP : [.out, .freeCount, .regs, .cons, .work, .mem, .serve, .ctl, .tel] ⊆ pl) : Holds (InNext pl sb) (execInstrSamp inst s) := by
  unfold execInstrSamp
  repeat' first
    | with_reducible refine bind_holds (ps := pl) (s := sb) ?_ fun _ _ => ?_
    | with_reducible refine bindAny_holds fun _ => ?_
    | with_reducible refine map_holds fun _ _ => ?_
    | with_reducible refine ite_holds ?_ ?_
    | with_reducible exact leaf_none
    | with_reducible refine leaf_some ?_
    | with_reducible refine leaf_only ?_
    | with_reducible refine leaf_next ?_
    | with_reducible assumption
    | with_reducible refine ite_only ?_ ?_
    | with_reducible refine chargeLines_only ?_ (subset_sub hP (by decide))
    | with_reducible refine execFail_only_eq ?_ (subset_sub hP (by decide)) (by assumption)
    | with_reducible refine execFail_only ?_ (subset_sub hP (by decide))
    | with_reducible refine execOk_only_eq ?_ (subset_sub hP (by decide)) (by assumption)
    | with_reducible refine execOk_only ?_ (subset_sub hP (by decide))
    | with_reducible refine issue_only ?_ (fun _ _ _ _ _ _ => ?_) (subset_sub hP (by decide))
    | with_reducible refine modInst_only ?_ (subset_sub hP (by decide))
    | with_reducible refine progCount_only ?_ (subset_sub hP (by decide))
    | with_reducible refine putOp_only ?_ (subset_sub hP (by decide))
    | with_reducible refine someOf_only (by with_reducible assumption) ?_
    | (extract_lets +onlyGivenNames -underBinder x; refine cut_only (ps := pl) (s := sb) (a := x) ?_ ?_; unfold x; rotate_left; clear_value x; intro hx)
    | (extract_lets +onlyGivenNames -underBinder x; (try unfold x); clear x)
    | split
theorem execInstrSamp_only {inst : Nat} {s : State} {t : State} (hO : Within pl sb s) (hP : [.out, .freeCount, .regs, .cons, .work, .mem, .serve, .ctl, .tel] ⊆ pl) (hE : execInstrSamp inst s = .next t) : Within pl sb t := by
  have k : Holds (InNext pl sb) (execInstrSamp inst s) := execInstrSamp_holds (inst := inst) (s := s) hO hP
  rw [hE] at k; exact k.of

theorem execInstrStop_holds {inst : Nat} {s : State} (hO : Within pl sb s) (hP : [.out, .freeCount, .regs, .cons, .work, .mem, .serve, .ctl, .tel] ⊆ pl) : Holds (InNext pl sb) (execInstrStop inst s) := by
  unfold execInstrStop
  repeat' first
    | with_reducible refine bind_holds (ps := pl) (s := sb) ?_ fun _ _ => ?_
    | with_reducible refine bindAny_holds fun _ => ?_
    | with_reducible refine ite_holds ?_ ?_
    | with_reducible exact leaf_none
    | with_reducible refine leaf_some ?_
    | with_reducible refine leaf_only ?_
    | with_reducible refine leaf_next ?_
    | with_reducible assumption
    | with_reducible refine ite_only ?_ ?_
    | with_reducible refine execFail_only_eq ?_ (subset_sub hP (by decide)) (by assumption)
    | with_reducible refine execFail_only ?_ (subset_sub hP (by decide))
    | with_reducible refine execOk_only_eq ?_ (subset_sub hP (by decide)) (by assumption)
    | with_reducible refine execOk_only ?_ (subset_sub hP (by decide))
    | with_reducible refine issue_only ?_ (fun _ _ _ _ _ _ => ?_) (subset_sub hP (by decide))
    | with_reducible refine modInst_only ?_ (subset_sub hP (by decide))
    | with_reducible refine putOp_only ?_ (subset_sub hP (by decide))
    | with_reducible refine someOf_only (by with_reducible assumption) ?_
    | (extract_lets +onlyGivenNames -underBinder x; refine cut_only (ps := pl) (s := sb) (a := x) ?_ ?_; unfold x; rotate_left; clear_value x; intro hx)
    | (extract_lets +onlyGivenNames -underBinder x; (try unfold x); clear x)
    | split
theorem execInstrStop_only {inst : Nat} {s : State} {t : State} (hO : Within pl sb s) (hP : [.out, .freeCount, .regs, .cons, .work, .mem, .serve, .ctl, .tel] ⊆ pl) (hE : execInstrStop inst s = .next t) : Within pl sb t := by
  have k : Holds (InNext pl sb) (execInstrStop inst s) := execInstrStop_holds (inst := inst) (s := s) hO hP
  rw [hE] at k; exact k.of

theorem execInstrMov_holds {inst n : Nat} {s : State} (hO : Within pl sb s) (hP : [.out, .freeCount, .regs, .cons, .work, .mem, .serve, .ctl, .tel] ⊆ pl) : Holds (InNext pl sb) (execInstrMov inst n s) := by
  unfold execInstrMov
  repeat' first
    | with_reducible refine leaf_next ?_
    | with_reducible assumption
    | with_reducible refine chargeLines_only ?_ (subset_sub hP (by decide))
    | with_reducible refine clearTags_only ?_ (subset_sub hP (by decide))
    | with_reducible refine execFail_only_eq ?_ (subset_sub hP (by decide)) (by assumption)
    | with_reducible refine execFail_only ?_ (subset_sub hP (by decide))
    | with_reducible refine execOk_only_eq ?_ (subset_sub hP (by decide)) (by assumption)
    | with_reducible refine execOk_only ?_ (subset_sub hP (by decide))
    | with_reducible refine issue_only ?_ (fun _ _ _ _ _ _ => ?_) (subset_sub hP (by decide))
    | with_reducible refine sramWriteP_only ?_ (subset_sub hP (by decide))
    | split
theorem execInstrMov_only {inst n : Nat} {s : State} {t : State} (hO : Within pl sb s) (hP : [.out, .freeCount, .regs, .cons, .work, .mem, .serve, .ctl, .tel] ⊆ pl) (hE : execInstrMov inst n s = .next t) : Within pl sb t := by
  have k : Holds (InNext pl sb) (execInstrMov inst n s) := execInstrMov_holds (inst := inst) (n := n) (s := s) hO hP
  rw [hE] at k; exact k.of

theorem releaseSync_only {s : State} {tid : Nat} (hO : Within pl sb s) (hP : [.freeCount, .work, .tel] ⊆ pl) : Within pl sb (releaseSync s tid) := by
  unfold releaseSync
  repeat' first
    | with_reducible assumption
    | with_reducible refine foldl_only ?_ fun _ _ _ => ?_
    | with_reducible refine unstall_only ?_ (subset_sub hP (by decide))
    | (extract_lets +onlyGivenNames -underBinder x; refine cut_only (ps := pl) (s := sb) (a := x) ?_ ?_; unfold x; rotate_left; clear_value x; intro hx)
    | (extract_lets +onlyGivenNames -underBinder x; (try unfold x); clear x)
    | split

theorem execInstrSync_holds {inst : Nat} {s : State} (hO : Within pl sb s) (hP : [.out, .freeCount, .regs, .cons, .work, .mem, .serve, .ctl, .tel] ⊆ pl) : Holds (InNext pl sb) (execInstrSync inst s) := by
  unfold execInstrSync
  repeat' first
    | with_reducible refine leaf_next ?_
    | with_reducible assumption
    | with_reducible refine ite_only ?_ ?_
    | with_reducible refine execOk_only_eq ?_ (subset_sub hP (by decide)) (by assumption)
    | with_reducible refine execOk_only ?_ (subset_sub hP (by decide))
    | with_reducible refine issue_only ?_ (fun _ _ _ _ _ _ => ?_) (subset_sub hP (by decide))
    | with_reducible refine modInst_only ?_ (subset_sub hP (by decide))
    | with_reducible refine releaseSync_only ?_ (subset_sub hP (by decide))
    | with_reducible refine stopHere_only ?_ (subset_sub hP (by decide))
    | (extract_lets +onlyGivenNames -underBinder x; refine cut_only (ps := pl) (s := sb) (a := x) ?_ ?_; unfold x; rotate_left; clear_value x; intro hx)
    | (extract_lets +onlyGivenNames -underBinder x; (try unfold x); clear x)
    | split
theorem execInstrSync_only {inst : Nat} {s : State} {t : State} (hO : Within pl sb s) (hP : [.out, .freeCount, .regs, .cons, .work, .mem, .serve, .ctl, .tel] ⊆ pl) (hE : execInstrSync inst s = .next t) : Within pl sb t := by
  have k : Holds (InNext pl sb) (execInstrSync inst s) := execInstrSync_holds (inst := inst) (s := s) hO hP
  rw [hE] at k; exact k.of

theorem execInstrWait_holds {inst : Nat} {s : State} (hO : Within pl sb s) (hP : [.out, .freeCount, .regs, .cons, .work, .mem, .serve, .ctl, .tel] ⊆ pl) : Holds (InNext pl sb) (execInstrWait inst s) := by
  unfold execInstrWait
  repeat' first
    | with_reducible refine leaf_next ?_
    | with_reducible assumption
    | with_reducible refine ite_only ?_ ?_
    | with_reducible refine execOk_only_eq ?_ (subset_sub hP (by decide)) (by assumption)
    | with_reducible refine execOk_only ?_ (subset_sub hP (by decide))
    | with_reducible refine issue_only ?_ (fun _ _ _ _ _ _ => ?_) (subset_sub hP (by decide))
    | with_reducible refine modInst_only ?_ (subset_sub hP (by decide))
    | with_reducible refine stopHere_only ?_ (subset_sub hP (by decide))
    | (extract_lets +onlyGivenNames -underBinder x; refine cut_only (ps := pl) (s := sb) (a := x) ?_ ?_; unfold x; rotate_left; clear_value x; intro hx)
    | split
theorem execInstrWait_only {inst : Nat} {s : State} {t : State} (hO : Within pl sb s) (hP : [.out, .freeCount, .regs, .cons, .work, .mem, .serve, .ctl, .tel] ⊆ pl) (hE : execInstrWait inst s = .next t) : Within pl sb t := by
  have k : Holds (InNext pl sb) (execInstrWait inst s) := execInstrWait_holds (inst := inst) (s := s) hO hP
  rw [hE] at k; exact k.of

theorem execInstrYield_holds {inst : Nat} {s : State} (hO : Within pl sb s) (hP : [.out, .freeCount, .regs, .cons, .work, .mem, .serve, .ctl, .tel] ⊆ pl) : Holds (InNext pl sb) (execInstrYield inst s) := by
  unfold execInstrYield
  repeat' first
    | with_reducible refine leaf_next ?_
    | with_reducible assumption
    | with_reducible refine ite_only ?_ ?_
    | with_reducible refine execOk_only_eq ?_ (subset_sub hP (by decide)) (by assumption)
    | with_reducible refine execOk_only ?_ (subset_sub hP (by decide))
    | with_reducible refine issue_only ?_ (fun _ _ _ _ _ _ => ?_) (subset_sub hP (by decide))
    | with_reducible refine modInst_only ?_ (subset_sub hP (by decide))
    | with_reducible refine progCount_only ?_ (subset_sub hP (by decide))
    | with_reducible refine stopInst_only ?_ (subset_sub hP (by decide))
    | (extract_lets +onlyGivenNames -underBinder x; refine cut_only (ps := pl) (s := sb) (a := x) ?_ ?_; unfold x; rotate_left; clear_value x; intro hx)
    | (extract_lets +onlyGivenNames -underBinder x; (try unfold x); clear x)
    | split
theorem execInstrYield_only {inst : Nat} {s : State} {t : State} (hO : Within pl sb s) (hP : [.out, .freeCount, .regs, .cons, .work, .mem, .serve, .ctl, .tel] ⊆ pl) (hE : execInstrYield inst s = .next t) : Within pl sb t := by
  have k : Holds (InNext pl sb) (execInstrYield inst s) := execInstrYield_holds (inst := inst) (s := s) hO hP
  rw [hE] at k; exact k.of

theorem execInstrEnd_holds {inst : Nat} {s : State} (hO : Within pl sb s) (hP : [.out, .freeCount, .regs, .cons, .work, .mem, .serve, .ctl, .tel] ⊆ pl) : Holds (InNext pl sb) (execInstrEnd inst s) := by
  unfold execInstrEnd
  repeat' first
    | with_reducible refine leaf_next ?_
    | with_reducible assumption
    | with_reducible refine ite_only ?_ ?_
    | with_reducible refine endInst_only ?_ (subset_sub hP (by decide))
    | with_reducible refine failInst_only ?_ (subset_sub hP (by decide))
    | with_reducible refine markStart_only ?_ (subset_sub hP (by decide))
    | with_reducible refine modInst_only ?_ (subset_sub hP (by decide))
    | with_reducible refine retire_only ?_ (subset_sub hP (by decide))
    | with_reducible refine stopInst_only ?_ (subset_sub hP (by decide))
    | (extract_lets +onlyGivenNames -underBinder x; refine cut_only (ps := pl) (s := sb) (a := x) ?_ ?_; unfold x; rotate_left; clear_value x; intro hx)
    | (extract_lets +onlyGivenNames -underBinder x; (try unfold x); clear x)
    | split
theorem execInstrEnd_only {inst : Nat} {s : State} {t : State} (hO : Within pl sb s) (hP : [.out, .freeCount, .regs, .cons, .work, .mem, .serve, .ctl, .tel] ⊆ pl) (hE : execInstrEnd inst s = .next t) : Within pl sb t := by
  have k : Holds (InNext pl sb) (execInstrEnd inst s) := execInstrEnd_holds (inst := inst) (s := s) hO hP
  rw [hE] at k; exact k.of

theorem execIllegalInstruction_holds {inst : Nat} {s : State} (hO : Within pl sb s) (hP : [.out, .freeCount, .regs, .cons, .work, .mem, .serve, .ctl, .tel] ⊆ pl) : Holds (InNext pl sb) (execIllegalInstruction inst s) := by
  unfold execIllegalInstruction
  repeat' first
    | with_reducible refine leaf_next ?_
    | with_reducible assumption
    | with_reducible refine ite_only ?_ ?_
    | with_reducible refine failInst_only ?_ (subset_sub hP (by decide))
    | (extract_lets +onlyGivenNames -underBinder x; refine cut_only (ps := pl) (s := sb) (a := x) ?_ ?_; unfold x; rotate_left; clear_value x; intro hx)
    | (extract_lets +onlyGivenNames -underBinder x; (try unfold x); clear x)
    | split
theorem execIllegalInstruction_only {inst : Nat} {s : State} {t : State} (hO : Within pl sb s) (hP : [.out, .freeCount, .regs, .cons, .work, .mem, .serve, .ctl, .tel] ⊆ pl) (hE : execIllegalInstruction inst s = .next t) : Within pl sb t := by
  have k : Holds (InNext pl sb) (execIllegalInstruction inst s) := execIllegalInstruction_holds (inst := inst) (s := s) hO hP
  rw [hE] at k; exact k.of

theorem execCheckpoint64_holds {inst : Nat} {s : State} (hO : Within pl sb s) (hP : [.out, .freeCount, .regs, .cons, .work, .mem, .serve, .ctl, .tel] ⊆ pl) : Holds (InNext pl sb) (execCheckpoint64 inst s) := by
  unfold execCheckpoint64
  repeat' first
    | with_reducible refine leaf_next ?_
    | with_reducible assumption
    | with_reducible refine ite_only ?_ ?_
    | with_reducible refine bumpCounter_only ?_ (subset_sub hP (by decide))
    | with_reducible refine modInst_only ?_ (subset_sub hP (by decide))
    | with_reducible refine progCount_only ?_ (subset_sub hP (by decide))
    | with_reducible refine stopInst_only ?_ (subset_sub hP (by decide))
    | (extract_lets +onlyGivenNames -underBinder x; refine cut_only (ps := pl) (s := sb) (a := x) ?_ ?_; unfold x; rotate_left; clear_value x; intro hx)
    | (extract_lets +onlyGivenNames -underBinder x; (try unfold x); clear x)
    | split
theorem execCheckpoint64_only {inst : Nat} {s : State} {t : State} (hO : Within pl sb s) (hP : [.out, .freeCount, .regs, .cons, .work, .mem, .serve, .ctl, .tel] ⊆ pl) (hE : execCheckpoint64 inst s = .next t) : Within pl sb t := by
  have k : Holds (InNext pl sb) (execCheckpoint64 inst s) := execCheckpoint64_holds (inst := inst) (s := s) hO hP
  rw [hE] at k; exact k.of

theorem addTile_only {s : State} {inst : Nat} {t : Tile} (hO : Within pl sb s) (hP : [.work] ⊆ pl) : Within pl sb (addTile s inst t) := by
  unfold addTile
  repeat' first
    | with_reducible assumption
    | with_reducible refine modInst_only ?_ (subset_sub hP (by decide))
    | with_reducible refine modWork_only ?_ (subset_sub hP (by decide))

theorem tileOp_holds {s : State} {t : Task} {op a : Nat} {bytes : List Byte} {ws : List Nat} {inst tile : Nat} (hO : Within pl sb s) (hP : [.out, .regs, .fab, .px, .ctl, .mgt, .alm, .tel] ⊆ pl) : Holds (InFst pl sb) (tileOp s t op a bytes ws inst tile) := by
  unfold tileOp
  repeat' first
    | with_reducible refine leaf_fst ?_
    | with_reducible assumption
    | with_reducible refine globalOp_only_eq ?_ (subset_sub hP (by decide)) (by assumption)
    | with_reducible refine globalOp_only ?_ (subset_sub hP (by decide))
    | (extract_lets +onlyGivenNames -underBinder x; refine cut_only (ps := pl) (s := sb) (a := x) ?_ ?_; unfold x; rotate_left; clear_value x; intro hx)
    | (extract_lets +onlyGivenNames -underBinder x; (try unfold x); clear x)
theorem tileOp_only_eq {s : State} {t : Task} {op a : Nat} {bytes : List Byte} {ws : List Nat} {inst tile : Nat} {ra : State} {rb : Option Nat} (hO : Within pl sb s) (hP : [.out, .regs, .fab, .px, .ctl, .mgt, .alm, .tel] ⊆ pl) (hE : tileOp s t op a bytes ws inst tile = (ra, rb)) : Within pl sb ra := by
  have k : Holds (InFst pl sb) (tileOp s t op a bytes ws inst tile) := tileOp_holds (s := s) (t := t) (op := op) (a := a) (bytes := bytes) (ws := ws) (inst := inst) (tile := tile) hO hP
  rw [hE] at k; exact k.of
theorem tileOp_only {s : State} {t : Task} {op a : Nat} {bytes : List Byte} {ws : List Nat} {inst tile : Nat} (hO : Within pl sb s) (hP : [.out, .regs, .fab, .px, .ctl, .mgt, .alm, .tel] ⊆ pl) : Within pl sb (tileOp s t op a bytes ws inst tile).1 := (tileOp_holds (s := s) (t := t) (op := op) (a := a) (bytes := bytes) (ws := ws) (inst := inst) (tile := tile) hO hP).of

theorem issueTiles_only {s : State} {iid opc : Nat} {ok : Ins → Bool} {ops : Extents} {f : Inst → Task → Ins → Nat → State → Exec} (h : Within pl sb s)
    (hf : ∀ i t x e v, Within pl sb v → Within pl sb (f i t x e v).1) (hp : [.out, .freeCount, .regs, .cons, .work, .mem, .serve, .ctl, .tel] ⊆ pl) :
    Within pl sb (issueTiles s iid opc ok ops f) := by
  unfold issueTiles
  split
  · exact h
  · rename_i i t x _
    split
    · exact failInst_only h (subset_sub hp (by decide))
    · extract_lets left n
      have a := runExecs_only (g := f i t x) (fun e v hv => hf i t x e v hv) n i.execs
        (ite_only (c := n = 0) h (markStart_only (i := i) (t := t) h (subset_sub hp (by decide))))
      split
      · rename_i e; rw [e] at a; exact failInst_only a (subset_sub hp (by decide))
      · rename_i e; rw [e] at a
        exact stopHere_only (ite_only (retire_only (modInst_only a (subset_sub hp (by decide))) (subset_sub hp (by decide)))
          (modInst_only a (subset_sub hp (by decide)))) (subset_sub hp (by decide))

theorem execInstrLdt_holds {inst : Nat} {s : State} (hO : Within pl sb s) (hP : [.out, .freeCount, .regs, .cons, .work, .mem, .serve, .fab, .px, .ctl, .mgt, .alm, .tel] ⊆ pl) : Holds (InNext pl sb) (execInstrLdt inst s) := by
  unfold execInstrLdt
  repeat' first
    | with_reducible refine leaf_next ?_
    | with_reducible assumption
    | with_reducible refine ite_only ?_ ?_
    | with_reducible refine addTile_only ?_ (subset_sub hP (by decide))
    | with_reducible refine execFail_only_eq ?_ (subset_sub hP (by decide)) (by assumption)
    | with_reducible refine execFail_only ?_ (subset_sub hP (by decide))
    | with_reducible refine execOk_only_eq ?_ (subset_sub hP (by decide)) (by assumption)
    | with_reducible refine execOk_only ?_ (subset_sub hP (by decide))
    | with_reducible refine issueTiles_only ?_ (fun _ _ _ _ _ _ => ?_) (subset_sub hP (by decide))
    | with_reducible refine tileOp_only_eq ?_ (subset_sub hP (by decide)) (by assumption)
    | with_reducible refine tileOp_only ?_ (subset_sub hP (by decide))
    | with_reducible refine touchTile_only ?_ (subset_sub hP (by decide))
    | with_reducible refine pairFst_only (by with_reducible assumption) ?_
    | (extract_lets +onlyGivenNames -underBinder x; refine cut_only (ps := pl) (s := sb) (a := x) ?_ ?_; unfold x; rotate_left; clear_value x; intro hx)
    | (extract_lets +onlyGivenNames -underBinder x; (try unfold x); clear x)
    | split
theorem execInstrLdt_only {inst : Nat} {s : State} {t : State} (hO : Within pl sb s) (hP : [.out, .freeCount, .regs, .cons, .work, .mem, .serve, .fab, .px, .ctl, .mgt, .alm, .tel] ⊆ pl) (hE : execInstrLdt inst s = .next t) : Within pl sb t := by
  have k : Holds (InNext pl sb) (execInstrLdt inst s) := execInstrLdt_holds (inst := inst) (s := s) hO hP
  rw [hE] at k; exact k.of

theorem execInstrStt_holds {inst : Nat} {s : State} (hO : Within pl sb s) (hP : [.out, .freeCount, .regs, .cons, .work, .mem, .serve, .fab, .px, .ctl, .mgt, .alm, .tel] ⊆ pl) : Holds (InNext pl sb) (execInstrStt inst s) := by
  unfold execInstrStt
  repeat' first
    | with_reducible refine leaf_next ?_
    | with_reducible assumption
    | with_reducible refine ite_only ?_ ?_
    | with_reducible refine addTile_only ?_ (subset_sub hP (by decide))
    | with_reducible refine execFail_only_eq ?_ (subset_sub hP (by decide)) (by assumption)
    | with_reducible refine execFail_only ?_ (subset_sub hP (by decide))
    | with_reducible refine execOk_only_eq ?_ (subset_sub hP (by decide)) (by assumption)
    | with_reducible refine execOk_only ?_ (subset_sub hP (by decide))
    | with_reducible refine issueTiles_only ?_ (fun _ _ _ _ _ _ => ?_) (subset_sub hP (by decide))
    | with_reducible refine tileOp_only_eq ?_ (subset_sub hP (by decide)) (by assumption)
    | with_reducible refine tileOp_only ?_ (subset_sub hP (by decide))
    | with_reducible refine pairFst_only (by with_reducible assumption) ?_
    | (extract_lets +onlyGivenNames -underBinder x; refine cut_only (ps := pl) (s := sb) (a := x) ?_ ?_; unfold x; rotate_left; clear_value x; intro hx)
    | (extract_lets +onlyGivenNames -underBinder x; (try unfold x); clear x)
    | split
theorem execInstrStt_only {inst : Nat} {s : State} {t : State} (hO : Within pl sb s) (hP : [.out, .freeCount, .regs, .cons, .work, .mem, .serve, .fab, .px, .ctl, .mgt, .alm, .tel] ⊆ pl) (hE : execInstrStt inst s = .next t) : Within pl sb t := by
  have k : Holds (InNext pl sb) (execInstrStt inst s) := execInstrStt_holds (inst := inst) (s := s) hO hP
  rw [hE] at k; exact k.of

theorem tileDone_only {s : State} {inst tile : Nat} (hO : Within pl sb s) (hP : [.out, .freeCount, .regs, .cons, .work, .mem, .serve, .ctl, .tel] ⊆ pl) : Within pl sb (tileDone s inst tile) := by
  unfold tileDone
  repeat' first
    | with_reducible assumption
    | with_reducible refine ite_only ?_ ?_
    | with_reducible refine endInst_only ?_ (subset_sub hP (by decide))
    | with_reducible refine modInst_only ?_ (subset_sub hP (by decide))
    | with_reducible refine unstall_only ?_ (subset_sub hP (by decide))
    | (extract_lets +onlyGivenNames -underBinder x; refine cut_only (ps := pl) (s := sb) (a := x) ?_ ?_; unfold x; rotate_left; clear_value x; intro hx)
    | (extract_lets +onlyGivenNames -underBinder x; (try unfold x); clear x)
    | split

theorem loadTile_only {s : State} {inst : Nat} {tl : Tile} {bytes : List Byte} {ws : List Nat} (hO : Within pl sb s) (hP : [.out, .freeCount, .regs, .cons, .work, .mem, .serve, .ctl, .tel] ⊆ pl) : Within pl sb (loadTile s inst tl bytes ws) := by
  unfold loadTile
  repeat' first
    | with_reducible assumption
    | with_reducible refine clearTags_only ?_ (subset_sub hP (by decide))
    | with_reducible refine sramWriteP_only ?_ (subset_sub hP (by decide))
    | with_reducible refine tileDone_only ?_ (subset_sub hP (by decide))

theorem readTile_holds {s : State} {i : Inst} {t : Task} {tile id : Nat} (hO : Within pl sb s) (hP : [.eph, .work, .tel] ⊆ pl) : Holds (InSome (Within pl sb)) (readTile s i t tile id) := by
  unfold readTile
  repeat' first
    | with_reducible refine ite_holds ?_ ?_
    | with_reducible exact leaf_none
    | with_reducible refine leaf_some ?_
    | with_reducible refine leaf_only ?_
    | with_reducible assumption
    | with_reducible refine ite_only ?_ ?_
    | with_reducible refine chargeLines_only ?_ (subset_sub hP (by decide))
    | with_reducible refine instTiles_only ?_ (subset_sub hP (by decide))
    | with_reducible refine passTiles_only_eq ?_ (subset_sub hP (by decide)) (by assumption)
    | with_reducible refine passTiles_holds ?_ (subset_sub hP (by decide))
    | with_reducible refine progCount_only ?_ (subset_sub hP (by decide))
    | with_reducible refine tileCount_only ?_ (subset_sub hP (by decide))
    | split
theorem readTile_only_eq {s : State} {i : Inst} {t : Task} {tile id : Nat} {ra : State} (hO : Within pl sb s) (hP : [.eph, .work, .tel] ⊆ pl) (hE : readTile s i t tile id = some ra) : Within pl sb ra := by
  have k : Holds (InSome (Within pl sb)) (readTile s i t tile id) := readTile_holds (s := s) (i := i) (t := t) (tile := tile) (id := id) hO hP
  rw [hE] at k; exact k.of

theorem execLdtComplete_holds {inst tile : Nat} {s : State} (hO : Within pl sb s) (hP : [.out, .freeCount, .regs, .cons, .eph, .work, .mem, .serve, .ctl, .mgt, .alm, .tel] ⊆ pl) : Holds (InNext pl sb) (execLdtComplete inst tile s) := by
  unfold execLdtComplete
  repeat' first
    | with_reducible refine leaf_next ?_
    | with_reducible assumption
    | with_reducible refine ite_only ?_ ?_
    | with_reducible refine clearTags_only ?_ (subset_sub hP (by decide))
    | with_reducible refine failInst_only ?_ (subset_sub hP (by decide))
    | with_reducible refine instTiles_only ?_ (subset_sub hP (by decide))
    | with_reducible refine loadTile_only ?_ (subset_sub hP (by decide))
    | with_reducible refine passTiles_only_eq ?_ (subset_sub hP (by decide)) (by assumption)
    | with_reducible refine passTiles_holds ?_ (subset_sub hP (by decide))
    | with_reducible refine putOp_only ?_ (subset_sub hP (by decide))
    | with_reducible refine readTile_only_eq ?_ (subset_sub hP (by decide)) (by assumption)
    | with_reducible refine readTile_holds ?_ (subset_sub hP (by decide))
    | with_reducible refine sramWriteP_only ?_ (subset_sub hP (by decide))
    | with_reducible refine streamFault_only ?_ (subset_sub hP (by decide))
    | with_reducible refine tileCount_only ?_ (subset_sub hP (by decide))
    | with_reducible refine tileDone_only ?_ (subset_sub hP (by decide))
    | with_reducible refine modWork_only ?_ (subset_sub hP (by decide))
    | (extract_lets +onlyGivenNames -underBinder x; refine cut_only (ps := pl) (s := sb) (a := x) ?_ ?_; unfold x; rotate_left; clear_value x; intro hx)
    | (extract_lets +onlyGivenNames -underBinder x; (try unfold x); clear x)
    | split
theorem execLdtComplete_only {inst tile : Nat} {s : State} {t : State} (hO : Within pl sb s) (hP : [.out, .freeCount, .regs, .cons, .eph, .work, .mem, .serve, .ctl, .mgt, .alm, .tel] ⊆ pl) (hE : execLdtComplete inst tile s = .next t) : Within pl sb t := by
  have k : Holds (InNext pl sb) (execLdtComplete inst tile s) := execLdtComplete_holds (inst := inst) (tile := tile) (s := s) hO hP
  rw [hE] at k; exact k.of

theorem execSttWritten_holds {inst tile : Nat} {s : State} (hO : Within pl sb s) (hP : [.out, .freeCount, .regs, .cons, .eph, .work, .mem, .serve, .ctl, .tel] ⊆ pl) : Holds (InNext pl sb) (execSttWritten inst tile s) := by
  unfold execSttWritten
  repeat' first
    | with_reducible refine leaf_next ?_
    | with_reducible assumption
    | with_reducible refine instTiles_only ?_ (subset_sub hP (by decide))
    | with_reducible refine passTiles_only_eq ?_ (subset_sub hP (by decide)) (by assumption)
    | with_reducible refine passTiles_holds ?_ (subset_sub hP (by decide))
    | with_reducible refine sealTile_only ?_ (subset_sub hP (by decide))
    | with_reducible refine tierWriteP_only ?_ (subset_sub hP (by decide))
    | with_reducible refine tileCount_only ?_ (subset_sub hP (by decide))
    | with_reducible refine tileDone_only ?_ (subset_sub hP (by decide))
    | with_reducible refine touchTile_only ?_ (subset_sub hP (by decide))
    | (extract_lets +onlyGivenNames -underBinder x; refine cut_only (ps := pl) (s := sb) (a := x) ?_ ?_; unfold x; rotate_left; clear_value x; intro hx)
    | (extract_lets +onlyGivenNames -underBinder x; (try unfold x); clear x)
    | split
theorem execSttWritten_only {inst tile : Nat} {s : State} {t : State} (hO : Within pl sb s) (hP : [.out, .freeCount, .regs, .cons, .eph, .work, .mem, .serve, .ctl, .tel] ⊆ pl) (hE : execSttWritten inst tile s = .next t) : Within pl sb t := by
  have k : Holds (InNext pl sb) (execSttWritten inst tile s) := execSttWritten_holds (inst := inst) (tile := tile) (s := s) hO hP
  rw [hE] at k; exact k.of

end Sys2Proof.Machine
end

