-- ==== Sys2Proof/Laws/FramePlace.lean ====
section
/-! SUPPORT. What each function of Machine/Place.lean can do to the state as a whole: the parts it can change; the queue, the population and the
canonical forms it keeps. `f_only` speaks of the state that `f` answers, `f_holds` of a state inside its answer, `f_only_eq` of one taken out. -/

-- One declaration at a time: thousands of proofs in flight at once ask for more threads than fit in memory.
set_option Elab.async false

set_option linter.unusedTactic false
set_option linter.unreachableTactic false
set_option linter.unusedVariables false
set_option linter.unusedSimpArgs false
namespace Sys2Proof.Machine
open Sys2Proof
variable {pl : List Part} {sb : State}

theorem rasEvent_only {s : State} {l : Option Nat} {code : Nat} {payload : List Nat} (hO : Within pl sb s) (hP : [.out, .regs, .ctl, .mgt, .alm, .tel] ⊆ pl) : Within pl sb (rasEvent s l code payload) := by
  unfold rasEvent
  repeat' first
    | with_reducible refine bind_holds (ps := pl) (s := sb) ?_ fun _ _ => ?_
    | with_reducible refine bindAny_holds fun _ => ?_
    | with_reducible refine map_holds fun _ _ => ?_
    | with_reducible refine ite_holds ?_ ?_
    | with_reducible exact leaf_none
    | with_reducible refine leaf_some ?_
    | with_reducible refine leaf_only ?_
    | with_reducible assumption
    | with_reducible refine raiseBoth_only ?_ (subset_sub hP (by decide))
    | with_reducible refine raisePf_only ?_ (subset_sub hP (by decide))
    | with_reducible refine someOf_only (by with_reducible assumption) ?_
    | (extract_lets +onlyGivenNames -underBinder x; refine cut_only (ps := pl) (s := sb) (a := x) ?_ ?_; unfold x; rotate_left; clear_value x; intro hx)
    | (extract_lets +onlyGivenNames -underBinder x; (try unfold x); clear x)
    | split

theorem startDimming_only {s : State} {phys cause : Nat} (hO : Within pl sb s) (hP : [.out, .regs, .cons, .ctl, .mgt, .alm, .tel] ⊆ pl) : Within pl sb (startDimming s phys cause) := by
  unfold startDimming
  repeat' first
    | with_reducible assumption
    | with_reducible refine ite_only ?_ ?_
    | with_reducible refine modCon_only ?_ (subset_sub hP (by decide))
    | with_reducible refine rasEvent_only ?_ (subset_sub hP (by decide))
    | (extract_lets +onlyGivenNames -underBinder x; refine cut_only (ps := pl) (s := sb) (a := x) ?_ ?_; unfold x; rotate_left; clear_value x; intro hx)
    | (extract_lets +onlyGivenNames -underBinder x; (try unfold x); clear x)

theorem testFault_only {s : State} {phys kind : Nat} (hO : Within pl sb s) (hP : [.out, .regs, .cons, .work, .mem, .ctl, .mgt, .alm, .tel] ⊆ pl) : Within pl sb (testFault s phys kind) := by
  unfold testFault
  repeat' first
    | with_reducible assumption
    | with_reducible refine ite_only ?_ ?_
    | with_reducible refine mapEntry_only ?_ (subset_sub hP (by decide))
    | with_reducible refine modCon_only ?_ (subset_sub hP (by decide))
    | with_reducible refine rasEvent_only ?_ (subset_sub hP (by decide))
    | with_reducible refine sramClear_only ?_ (subset_sub hP (by decide))
    | with_reducible refine startDimming_only ?_ (subset_sub hP (by decide))
    | with_reducible refine modMem_only ?_ (subset_sub hP (by decide))
    | (extract_lets +onlyGivenNames -underBinder x; refine cut_only (ps := pl) (s := sb) (a := x) ?_ ?_; unfold x; rotate_left; clear_value x; intro hx)
    | (extract_lets +onlyGivenNames -underBinder x; (try unfold x); clear x)

theorem warmPages_only {s : State} {p : Nat} {nums : List Nat} (hO : Within pl sb s) (hP : [.serve] ⊆ pl) : Within pl sb (warmPages s p nums) := by
  unfold warmPages
  repeat' first
    | with_reducible assumption
    | with_reducible refine modServe_only ?_ (subset_sub hP (by decide))

theorem bindTask_only {s : State} {k : Slot} {t : Task} {us : List Nat} (hO : Within pl sb s) (hP : [.out, .freeCount, .regs, .cons, .work, .tabs, .mem, .serve, .ctl, .tel] ⊆ pl) : Within pl sb (bindTask s k t us) := by
  unfold bindTask
  repeat' first
    | with_reducible assumption
    | with_reducible refine ite_only ?_ ?_
    | with_reducible refine foldl_only ?_ fun _ _ _ => ?_
    | with_reducible refine foldlFst_only ?_ fun _ _ _ => ?_
    | with_reducible refine modReq_only ?_ (subset_sub hP (by decide))
    | with_reducible refine startLookups_only ?_ (subset_sub hP (by decide))
    | with_reducible refine tagInst_only_eq ?_ (subset_sub hP (by decide)) (by assumption)
    | with_reducible refine tagInst_only ?_ (subset_sub hP (by decide))
    | with_reducible refine wakeCons_only ?_ (subset_sub hP (by decide))
    | with_reducible refine modWork_only ?_ (subset_sub hP (by decide))
    | (extract_lets +onlyGivenNames -underBinder x; refine cut_only (ps := pl) (s := sb) (a := x) ?_ ?_; unfold x; rotate_left; clear_value x; intro hx)
    | (extract_lets +onlyGivenNames -underBinder x; (try unfold x); clear x)
    | split

theorem makeRoom_only {s : State} {cs : List Nat} {keep : Nat} (hO : Within pl sb s) (hP : [.serve] ⊆ pl) : Within pl sb (makeRoom s cs keep) := by
  unfold makeRoom
  repeat' first
    | with_reducible assumption
    | with_reducible refine modPage_only ?_ (subset_sub hP (by decide))
    | with_reducible refine modServe_only ?_ (subset_sub hP (by decide))
    | (extract_lets +onlyGivenNames -underBinder x; refine cut_only (ps := pl) (s := sb) (a := x) ?_ ?_; unfold x; rotate_left; clear_value x; intro hx)
    | (extract_lets +onlyGivenNames -underBinder x; (try unfold x); clear x)
    | split

theorem wantLoad_only {s : State} {cs : List Nat} {g : Page} (hO : Within pl sb s) (hP : [.serve] ⊆ pl) : Within pl sb (wantLoad s cs g) := by
  unfold wantLoad
  repeat' first
    | with_reducible assumption
    | with_reducible refine ite_only ?_ ?_
    | with_reducible refine addXfer_only ?_ (subset_sub hP (by decide))
    | with_reducible refine makeRoom_only ?_ (subset_sub hP (by decide))
    | split

theorem stagePages_holds {h l : Nat} {k : Slot} {is : List Nat} {c : Option Nat} {s : State} (hO : Within pl sb s) (hP : [.work, .mem, .serve] ⊆ pl) :
    Holds (InFst pl sb) (stagePages h l k is c s) := by
  induction is generalizing c s with
  | nil => exact leaf_fst hO
  | cons i is ih =>
    unfold stagePages
    repeat' first
      | with_reducible refine ih ?_
      | with_reducible refine ite_holds ?_ ?_
      | with_reducible assumption
      | with_reducible refine addMirror_only_eq ?_ (subset_sub hP (by decide)) (by assumption)
      | with_reducible refine openPage_only_eq ?_ (subset_sub hP (by decide)) (by assumption)
      | with_reducible refine wantLoad_only ?_ (subset_sub hP (by decide))
      | with_reducible refine makeRoom_only ?_ (subset_sub hP (by decide))
      | with_reducible refine startEviction_only ?_ (subset_sub hP (by decide))
      | (extract_lets +onlyGivenNames -underBinder x; (try unfold x); clear x)
      | split
      | with_reducible refine leaf_fst ?_

theorem stagePages_only {h l : Nat} {k : Slot} {is : List Nat} {c : Option Nat} {s : State} (hO : Within pl sb s) (hP : [.work, .mem, .serve] ⊆ pl) :
    Within pl sb (stagePages h l k is c s).1 := (stagePages_holds hO hP).of

theorem stagePages_only_eq {h l : Nat} {k : Slot} {is : List Nat} {c : Option Nat} {s : State} {ra : State} {rb : Option Nat} {rc : Bool}
    (hO : Within pl sb s) (hP : [.work, .mem, .serve] ⊆ pl) (e : stagePages h l k is c s = (ra, rb, rc)) : Within pl sb ra := by
  have q := stagePages_only (k := k) (is := is) (h := h) (l := l) (c := c) hO hP
  rw [e] at q; exact q

/-- The states in what a candidate for a slot may do. -/

def InChosen (pl : List Part) (s : State) (c : Chosen) : Prop := Within pl s c.1 ∧ ∀ x, c.2 = some x → Within pl s x.1

theorem leaf_chosen_none {a : State} (h : Within pl sb a) : Holds (InChosen pl sb) (a, none) := ⟨h, fun _ e => by cases e⟩

theorem leaf_chosen_some {a b : State} {t : Task} {us : List Nat} (h : Within pl sb a) (k : Within pl sb b) :
    Holds (InChosen pl sb) (a, some (b, t, us)) := ⟨h, fun _ e => by cases e; exact k⟩

theorem leaf_chosen {a : State} {o : Option (State × Task × List Nat)} (h : Within pl sb a) (k : Holds (InSome (InFst pl sb)) o) :
    Holds (InChosen pl sb) (a, o) := ⟨h, fun x e => by dsimp only at e; rw [e] at k; exact k.of⟩

theorem setProv_only {s : State} {r : Req} {l n : Nat} (hO : Within pl sb s) (hP : [.serve] ⊆ pl) : Within pl sb (setProv s r l n) := by
  unfold setProv
  repeat' first
    | with_reducible assumption
    | with_reducible refine modServe_only ?_ (subset_sub hP (by decide))
    | (extract_lets +onlyGivenNames -underBinder x; refine cut_only (ps := pl) (s := sb) (a := x) ?_ ?_; unfold x; rotate_left; clear_value x; intro hx)
    | (extract_lets +onlyGivenNames -underBinder x; (try unfold x); clear x)

theorem putScratch_only {s : State} {cl line : Nat} {bs : List Byte} (hO : Within pl sb s) (hP : [.work] ⊆ pl) : Within pl sb (putScratch s cl line bs) := by
  unfold putScratch
  repeat' first
    | with_reducible assumption
    | with_reducible refine sramWrite_only ?_ (subset_sub hP (by decide))

theorem putTiles_holds {s : State} {cl base : Nat} {leaves : List (Nat × Nat)} {rows : List (Nat × Nat × Nat × Nat)} {prefill : Bool} {maskL : Nat} {bitmaps : List (List Byte)} (hO : Within pl sb s) (hP : [.work] ⊆ pl) : Holds (InFst pl sb) (putTiles s cl base leaves rows prefill maskL bitmaps) := by
  unfold putTiles
  repeat' first
    | with_reducible refine ite_holds ?_ ?_
    | with_reducible refine leaf_fst ?_
    | with_reducible assumption
    | with_reducible refine ite_only ?_ ?_
    | with_reducible refine foldl_only ?_ fun _ _ _ => ?_
    | with_reducible refine putScratch_only ?_ (subset_sub hP (by decide))
    | (extract_lets +onlyGivenNames -underBinder x; refine cut_only (ps := pl) (s := sb) (a := x) ?_ ?_; unfold x; rotate_left; clear_value x; intro hx)
    | (extract_lets +onlyGivenNames -underBinder x; (try unfold x); clear x)
theorem putTiles_only_eq {s : State} {cl base : Nat} {leaves : List (Nat × Nat)} {rows : List (Nat × Nat × Nat × Nat)} {prefill : Bool} {maskL : Nat} {bitmaps : List (List Byte)} {ra : State} {rb : Nat} {rc : Nat} (hO : Within pl sb s) (hP : [.work] ⊆ pl) (hE : putTiles s cl base leaves rows prefill maskL bitmaps = (ra, rb, rc)) : Within pl sb ra := by
  have k : Holds (InFst pl sb) (putTiles s cl base leaves rows prefill maskL bitmaps) := putTiles_holds (s := s) (cl := cl) (base := base) (leaves := leaves) (rows := rows) (prefill := prefill) (maskL := maskL) (bitmaps := bitmaps) hO hP
  rw [hE] at k; exact k.of
theorem putTiles_only {s : State} {cl base : Nat} {leaves : List (Nat × Nat)} {rows : List (Nat × Nat × Nat × Nat)} {prefill : Bool} {maskL : Nat} {bitmaps : List (List Byte)} (hO : Within pl sb s) (hP : [.work] ⊆ pl) : Within pl sb (putTiles s cl base leaves rows prefill maskL bitmaps).1 := (putTiles_holds (s := s) (cl := cl) (base := base) (leaves := leaves) (rows := rows) (prefill := prefill) (maskL := maskL) (bitmaps := bitmaps) hO hP).of

theorem putPartials_only {s : State} {cl line : Nat} {r : Req} {md : Model} {qs : List Query} (hO : Within pl sb s) (hP : [.work] ⊆ pl) : Within pl sb (putPartials s cl line r md qs) := by
  unfold putPartials
  repeat' first
    | with_reducible assumption
    | with_reducible refine ite_only ?_ ?_
    | with_reducible refine foldl_only ?_ fun _ _ _ => ?_
    | with_reducible refine foldlFst_only ?_ fun _ _ _ => ?_
    | with_reducible refine putScratch_only ?_ (subset_sub hP (by decide))
    | (extract_lets +onlyGivenNames -underBinder x; refine cut_only (ps := pl) (s := sb) (a := x) ?_ ?_; unfold x; rotate_left; clear_value x; intro hx)
    | (extract_lets +onlyGivenNames -underBinder x; (try unfold x); clear x)
    | split

theorem tryRing_holds {s : State} {k : Slot} {t : Task} (hO : Within pl sb s) (hP : [.out, .regs, .work, .serve, .tel] ⊆ pl) : Holds (InChosen pl sb) (tryRing s k t) := by
  unfold tryRing
  extract_lets run
  have hr : ∀ v q, Within pl sb v → Holds (InSome (InFst pl sb)) (run v q) := fun v q hv => map_holds fun _ _ => leaf_fst hv
  have hc : ∀ st, Within pl sb (settle (closeTask s t st 0)) := fun st => settle_only (closeTask_only hO (subset_sub hP (by decide))) (subset_sub hP (by decide))
  split
  · exact leaf_chosen_none (hc _)
  · refine ite_holds (leaf_chosen_none (hc _)) (ite_holds (leaf_chosen_none hO) ?_)
    split
    · exact leaf_chosen hO (hr _ _ (warmPages_only hO (subset_sub hP (by decide))))
    · exact ite_holds (leaf_chosen_none (hc _)) (leaf_chosen_none hO)
  · exact leaf_chosen hO (hr _ _ hO)

theorem tryReq_holds {s : State} {k : Slot} {h : Nat} {old : Option Task} (hO : Within pl sb s) (hP : [.out, .regs, .work, .mem, .serve, .ctl, .tel] ⊆ pl) : Holds (InChosen pl sb) (tryReq s k h old) := by
  unfold tryReq
  repeat' first
    | with_reducible refine leaf_chosen_none ?_
    | with_reducible refine leaf_chosen_some ?_ ?_
    | with_reducible refine bind_holds (ps := pl) (s := sb) ?_ fun _ _ => ?_
    | with_reducible refine bindAny_holds fun _ => ?_
    | with_reducible refine foldl_holds ?_ fun _ _ _ => ?_
    | with_reducible refine map_holds fun _ _ => ?_
    | with_reducible refine ite_holds ?_ ?_
    | with_reducible exact leaf_none
    | with_reducible refine leaf_some ?_
    | with_reducible refine leaf_only ?_
    | with_reducible assumption
    | with_reducible refine ite_only ?_ ?_
    | with_reducible refine foldl_only ?_ fun _ _ _ => ?_
    | with_reducible refine goState_only ?_ (subset_sub hP (by decide))
    | with_reducible refine modPage_only ?_ (subset_sub hP (by decide))
    | with_reducible refine modReq_only ?_ (subset_sub hP (by decide))
    | with_reducible refine putPartials_only ?_ (subset_sub hP (by decide))
    | with_reducible refine putTiles_only_eq ?_ (subset_sub hP (by decide)) (by assumption)
    | with_reducible refine putTiles_only ?_ (subset_sub hP (by decide))
    | with_reducible refine setProv_only ?_ (subset_sub hP (by decide))
    | with_reducible refine srvMark_only ?_ (subset_sub hP (by decide))
    | with_reducible refine stagePages_only_eq ?_ (subset_sub hP (by decide)) (by assumption)
    | with_reducible refine startEviction_only ?_ (subset_sub hP (by decide))
    | with_reducible refine takeRoom_only ?_ (subset_sub hP (by decide))
    | with_reducible refine taskRec_only ?_ (subset_sub hP (by decide))
    | with_reducible refine warmPages_only ?_ (subset_sub hP (by decide))
    | (beta_reduce; extract_lets +onlyGivenNames -underBinder x; (try unfold x); clear x)
    | with_reducible refine someOf_only (by with_reducible assumption) ?_
    | (extract_lets +onlyGivenNames -underBinder x; refine cut_only (ps := pl) (s := sb) (a := x) ?_ ?_; unfold x; rotate_left; clear_value x; intro hx)
    | (extract_lets +onlyGivenNames -underBinder x; (try unfold x); clear x)
    | split

theorem trySeal_holds {s : State} {k : Slot} {p num : Nat} {old : Option Task} (hO : Within pl sb s) (hP : [.mem, .serve] ⊆ pl) : Holds (InChosen pl sb) (trySeal s k p num old) := by
  unfold trySeal
  repeat' first
    | with_reducible refine leaf_chosen_none ?_
    | with_reducible refine leaf_chosen_some ?_ ?_
    | with_reducible refine ite_holds ?_ ?_
    | with_reducible assumption
    | with_reducible refine ite_only ?_ ?_
    | with_reducible refine modPage_only ?_ (subset_sub hP (by decide))
    | with_reducible refine pageRoom_only_eq ?_ (subset_sub hP (by decide)) (by assumption)
    | with_reducible refine startEviction_only ?_ (subset_sub hP (by decide))
    | with_reducible refine wantLoad_only ?_ (subset_sub hP (by decide))
    | (extract_lets +onlyGivenNames -underBinder x; refine cut_only (ps := pl) (s := sb) (a := x) ?_ ?_; unfold x; rotate_left; clear_value x; intro hx)
    | (extract_lets +onlyGivenNames -underBinder x; (try unfold x); clear x)
    | split

theorem tryGroup_holds {s : State} {k : Slot} {q : HolderQuery} {r : Req} {g : Nat × Nat} {old : Option Task} (hO : Within pl sb s) (hP : [.work, .serve] ⊆ pl) : Holds (InSome (InFst pl sb)) (tryGroup s k q r g old) := by
  unfold tryGroup
  repeat' first
    | with_reducible refine bind_holds (ps := pl) (s := sb) ?_ fun _ _ => ?_
    | with_reducible refine bindAny_holds fun _ => ?_
    | with_reducible refine foldl_holds ?_ fun _ _ _ => ?_
    | with_reducible refine map_holds fun _ _ => ?_
    | with_reducible refine ite_holds ?_ ?_
    | with_reducible exact leaf_none
    | with_reducible refine leaf_some ?_
    | with_reducible refine leaf_fst ?_
    | with_reducible refine leaf_only ?_
    | with_reducible assumption
    | with_reducible refine ite_only ?_ ?_
    | with_reducible refine foldl_only ?_ fun _ _ _ => ?_
    | with_reducible refine getD_only ?_ ?_
    | with_reducible refine modPage_only ?_ (subset_sub hP (by decide))
    | with_reducible refine putScratch_only ?_ (subset_sub hP (by decide))
    | with_reducible refine putTiles_only_eq ?_ (subset_sub hP (by decide)) (by assumption)
    | with_reducible refine putTiles_only ?_ (subset_sub hP (by decide))
    | with_reducible refine warmPages_only ?_ (subset_sub hP (by decide))
    | with_reducible refine modServe_only ?_ (subset_sub hP (by decide))
    | (extract_lets +onlyGivenNames -underBinder x; refine cut_only (ps := pl) (s := sb) (a := x) ?_ ?_; unfold x; rotate_left; clear_value x; intro hx)
    | (extract_lets +onlyGivenNames -underBinder x; (try unfold x); clear x)
    | split
theorem tryGroup_only_eq {s : State} {k : Slot} {q : HolderQuery} {r : Req} {g : Nat × Nat} {old : Option Task} {ra : State} {rb : Task} {rc : List Nat} (hO : Within pl sb s) (hP : [.work, .serve] ⊆ pl) (hE : tryGroup s k q r g old = some (ra, rb, rc)) : Within pl sb ra := by
  have k : Holds (InSome (InFst pl sb)) (tryGroup s k q r g old) := tryGroup_holds (s := s) (k := k) (q := q) (r := r) (g := g) (old := old) hO hP
  rw [hE] at k; exact k.of

theorem retryGroup_holds {s : State} {k : Slot} {t : Task} (hO : Within pl sb s) (hP : [.work, .serve] ⊆ pl) : Holds (InSome (InFst pl sb)) (retryGroup s k t) := by
  unfold retryGroup
  repeat' first
    | with_reducible refine bind_holds (ps := pl) (s := sb) ?_ fun _ _ => ?_
    | with_reducible refine bindAny_holds fun _ => ?_
    | with_reducible refine foldl_holds ?_ fun _ _ _ => ?_
    | with_reducible refine map_holds fun _ _ => ?_
    | with_reducible refine ite_holds ?_ ?_
    | with_reducible exact leaf_none
    | with_reducible refine leaf_some ?_
    | with_reducible refine leaf_fst ?_
    | with_reducible refine leaf_only ?_
    | with_reducible assumption
    | with_reducible refine ite_only ?_ ?_
    | with_reducible refine foldl_only ?_ fun _ _ _ => ?_
    | with_reducible refine getD_only ?_ ?_
    | with_reducible refine modPage_only ?_ (subset_sub hP (by decide))
    | with_reducible refine tryGroup_holds ?_ (subset_sub hP (by decide))
    | with_reducible refine modServe_only ?_ (subset_sub hP (by decide))
    | (extract_lets +onlyGivenNames -underBinder x; refine cut_only (ps := pl) (s := sb) (a := x) ?_ ?_; unfold x; rotate_left; clear_value x; intro hx)
    | (extract_lets +onlyGivenNames -underBinder x; (try unfold x); clear x)
    | split
theorem retryGroup_only_eq {s : State} {k : Slot} {t : Task} {ra : State} {rb : Task} {rc : List Nat} (hO : Within pl sb s) (hP : [.work, .serve] ⊆ pl) (hE : retryGroup s k t = some (ra, rb, rc)) : Within pl sb ra := by
  have k : Holds (InSome (InFst pl sb)) (retryGroup s k t) := retryGroup_holds (s := s) (k := k) (t := t) hO hP
  rw [hE] at k; exact k.of

theorem tryAttend_holds {s : State} {k : Slot} {t : Task} (hO : Within pl sb s) (hP : [.work, .mem, .serve] ⊆ pl) : Holds (InChosen pl sb) (tryAttend s k t) := by
  unfold tryAttend
  split
  · exact leaf_chosen_none hO
  · exact ite_holds (leaf_chosen hO (retryGroup_holds hO (subset_sub hP (by decide))))
      (leaf_chosen_none (answerQuery_only (modWork_only hO (subset_sub hP (by decide))) (subset_sub hP (by decide))))

theorem placeQuery_only {q : HolderQuery} {a : State × Slot} (h : Within pl sb a.1) (hP : [.out, .freeCount, .regs, .cons, .work, .tabs, .mem, .serve, .ctl, .tel] ⊆ pl) : Within pl sb (placeQuery q a).1 := by
  obtain ⟨s, k⟩ := a
  have hO : Within pl sb s := h
  unfold placeQuery
  dsimp only
  split
  · exact h
  · split
    · exact sendState_only (modServe_only hO (subset_sub hP (by decide))) (subset_sub hP (by decide))
    · split
      · exact hO
      · refine foldl_only hO fun v g hv => ?_
        split
        · refine getD_only (map_holds fun x hx => ⟨bindTask_only ?_ (subset_sub hP (by decide))⟩) hv
          exact tryGroup_only_eq (rb := x.2.1) (rc := x.2.2) hv (subset_sub hP (by decide)) hx
        · exact hv

theorem placeOne_only {a : State × Slot} {f : State → Slot → Chosen} (h : Within pl sb a.1)
    (hf : ∀ v k, Within pl sb v → Holds (InChosen pl sb) (f v k)) (hP : [.out, .freeCount, .regs, .cons, .work, .tabs, .mem, .serve, .ctl, .tel] ⊆ pl) : Within pl sb (placeOne f a).1 := by
  obtain ⟨s, k⟩ := a
  unfold placeOne
  dsimp only
  split
  · exact h
  · have c := (hf s k h).of
    split
    · rename_i e; rw [e] at c; exact c.1
    · rename_i e; rw [e] at c
      split
      · exact c.1
      · exact bindTask_only (c.2 _ rfl) (subset_sub hP (by decide))

/-- Steps of placement, each within the parts, are within them all. -/
theorem placeAll_only {l : List (State × Slot → State × Slot)} {a : State × Slot} (h : Within pl sb a.1)
    (hf : ∀ f ∈ l, ∀ b : State × Slot, Within pl sb b.1 → Within pl sb (f b).1) : Within pl sb (l.foldl (fun a f => f a) a).1 := by
  induction l generalizing a with
  | nil => exact h
  | cons f l ih => exact ih (hf f (List.mem_cons_self ..) a h) fun g hg => hf g (List.mem_cons_of_mem _ hg)

theorem mem_insBy {α : Type} {key : α → Nat} {x y : α} {l : List α} (h : y ∈ insBy key x l) : y = x ∨ y ∈ l := by
  induction l with
  | nil => exact .inl (List.mem_singleton.mp h)
  | cons z r ih =>
    unfold insBy at h
    split at h
    · rcases List.mem_cons.mp h with h | h
      · exact .inr (h ▸ List.mem_cons_self ..)
      · exact (ih h).imp_right (List.mem_cons_of_mem _)
    · rcases List.mem_cons.mp h with h | h
      · exact .inl h
      · exact .inr h

theorem mem_sortBy {α : Type} {key : α → Nat} {y : α} {l : List α} (h : y ∈ sortBy key l) : y ∈ l := by
  have go : ∀ (l a : List α), y ∈ l.foldl (fun a x => insBy key x a) a → y ∈ a ∨ y ∈ l := by
    intro l
    induction l with
    | nil => exact fun a h => .inl h
    | cons x r ih =>
      intro a h
      rcases ih _ h with h | h
      · exact (mem_insBy h).elim (fun e => .inr (e ▸ List.mem_cons_self ..)) .inl
      · exact .inr (List.mem_cons_of_mem _ h)
  exact (go l [] h).elim (fun h => (List.not_mem_nil h).elim) id

theorem candidates_only {s : State} {k : Slot} (hP : [.out, .freeCount, .regs, .cons, .work, .tabs, .mem, .serve, .ctl, .tel] ⊆ pl) (f : State × Slot → State × Slot) (hf : f ∈ candidates s k) (b : State × Slot)
    (hb : Within pl sb b.1) : Within pl sb (f b).1 := by
  have back : ∀ (c : Chosen) (u : State), Within pl sb u → Holds (InChosen pl sb) c →
      Holds (InChosen pl sb) (match c with
        | (_, some x) => (u, some x)
        | (sb, none) => ({ sb with work := { sb.work with tasks := u.work.tasks } }, none) : Chosen) := by
    intro c u hu hc
    obtain ⟨a, b⟩ := c
    cases b with
    | none => exact leaf_chosen_none (Within.trans hc.of.1 ((modWork_only (f := fun w => { w with tasks := u.work.tasks }) (Within.refl pl a) (subset_sub hP (by decide)))))
    | some x => exact ⟨hu, fun y e => by cases e; exact hc.of.2 x rfl⟩
  have loaded : ∀ (v : State) (h : Nat) (g : State → Chosen), Within pl sb v → (∀ u, Within pl sb u → Holds (InChosen pl sb) (g u)) →
      Holds (InChosen pl sb) (if (findReq (loadRsr v h) h).isNone then (loadRsr v h, none) else g (loadRsr v h) : Chosen) := by
    intro v h g hv hg
    have hl := loadRsr_only (h := h) hv (subset_sub hP (by decide))
    exact ite_holds (leaf_chosen_none hl) (hg _ hl)
  unfold candidates at hf
  extract_lets p waiting dropF backF loadedF old busy reqs fresh queries at hf
  have drop : ∀ (t : Task) (u : State), Within pl sb u → Within pl sb (dropF t u) := fun t u hu => modWork_only hu (subset_sub hP (by decide))
  have hr : ∀ ok x, x ∈ reqs ok → ∀ v k', Within pl sb v → Holds (InChosen pl sb) (x.2 v k') := by
    intro ok x hm v k' hv
    obtain ⟨r, -, rfl⟩ := List.mem_map.mp hm
    exact ite_holds (loaded v r.handle _ hv fun u hu => tryReq_holds hu (subset_sub hP (by decide))) (leaf_chosen_none hv)
  have ho : ∀ x ∈ old, ∀ v k', Within pl sb v → Holds (InChosen pl sb) (x.2 v k') := by
    intro x hm v k' hv
    obtain ⟨t, -, rfl⟩ := List.mem_map.mp hm
    refine ite_holds ?_ ?_
    · split
      · exact loaded v _ _ hv fun u hu => tryRing_holds hu (subset_sub hP (by decide))
      · exact tryRing_holds hv (subset_sub hP (by decide))
    · split
      · exact back _ v hv (trySeal_holds (drop t v hv) (subset_sub hP (by decide)))
      · exact tryAttend_holds hv (subset_sub hP (by decide))
      · rename_i h _ _ _
        exact loaded v h (fun s => backF (tryReq (dropF t s) k' h (some t)) s) hv fun u hu => back _ u hu (tryReq_holds (drop t u hu) (subset_sub hP (by decide)))
      · exact leaf_chosen_none hv
  have hn : ∀ x ∈ fresh, ∀ v k', Within pl sb v → Holds (InChosen pl sb) (x.2 v k') := by
    intro x hm v k' hv
    have hm' : x ∈ (if k.e.cls = 1 then reqs fun r => r.state == .queued || r.state == .prefill
        else if k.e.cls = 2 then reqs fun r => r.state == .decode
        else if k.e.cls = 5 then
          (sortBy (·.num) (s.serve.pages.filter fun g => g.ptn == p && g.state == .sealing && !g.seals)).map fun g => (g.waitNs + 1, fun s k => trySeal s k p g.num none)
        else []) := hm
    split at hm'
    · exact hr _ x hm' v k' hv
    · split at hm'
      · exact hr _ x hm' v k' hv
      · split at hm'
        · obtain ⟨r, -, rfl⟩ := List.mem_map.mp hm'
          exact trySeal_holds (s := v) (k := k') (p := p) (num := r.num) (old := none) hv (subset_sub hP (by decide))
        · cases hm'
  obtain ⟨x, hx, rfl⟩ := List.mem_map.mp hf
  rcases List.mem_append.mp (mem_sortBy hx) with hm | hm
  · obtain ⟨y, hy, rfl⟩ := List.mem_map.mp hm
    exact placeOne_only hb (fun v k' hv => (List.mem_append.mp hy).elim (fun h => ho y h v k' hv) (fun h => hn y h v k' hv)) (subset_sub hP (by decide))
  · have hm' : x ∈ (if k.e.cls = 4 then (s.serve.held.filter fun q => q.ptn == p && !q.groups.isEmpty).map fun q => (q.waitNs + 1, placeQuery q) else []) := hm
    split at hm'
    · obtain ⟨q, -, rfl⟩ := List.mem_map.mp hm'
      exact placeQuery_only hb (subset_sub hP (by decide))
    · cases hm'

theorem fillSlot_only {s : State} {sec ent : Nat} {e : Entry} (hO : Within pl sb s) (hP : [.out, .freeCount, .regs, .cons, .eph, .work, .tabs, .mem, .serve, .ctl, .tel] ⊆ pl) : Within pl sb (fillSlot s sec ent e) := by
  unfold fillSlot
  extract_lets k dim k1 a1 x a s1
  refine ite_only (ite_only (srvMark_only (ite_only hO (odCount_only hO (subset_sub hP (by decide)))) (subset_sub hP (by decide))) hO) ?_
  have hx : Within pl sb x.1 := by
    unfold x
    split
    · exact tableEntry_only hO (subset_sub hP (by decide))
    · exact hO
  have ha : Within pl sb a.1 := placeAll_only hx fun f hf b hb => candidates_only (subset_sub hP (by decide)) f hf b hb
  have h1 : Within pl sb s1 := useSlot_only ha (subset_sub hP (by decide))
  exact ite_only (codePages_only h1 (subset_sub hP (by decide))) h1

theorem execComputeSlotStart_holds {sec ent : Nat} {fails : List Nat} {s : State} (hO : Within pl sb s) (hP : [.out, .freeCount, .regs, .cons, .eph, .work, .tabs, .mem, .serve, .ctl, .mgt, .alm, .tel] ⊆ pl) : Holds (InNext pl sb) (execComputeSlotStart sec ent fails s) := by
  unfold execComputeSlotStart
  repeat' first
    | with_reducible refine leaf_next ?_
    | with_reducible assumption
    | with_reducible refine ite_only ?_ ?_
    | with_reducible refine foldl_only ?_ fun _ _ _ => ?_
    | with_reducible refine clearLeads_only ?_ (subset_sub hP (by decide))
    | with_reducible refine fillSlot_only ?_ (subset_sub hP (by decide))
    | with_reducible refine testFault_only ?_ (subset_sub hP (by decide))
    | with_reducible refine wakeCons_only ?_ (subset_sub hP (by decide))
    | with_reducible refine modEph_only ?_ (subset_sub hP (by decide))
    | (extract_lets +onlyGivenNames -underBinder x; refine cut_only (ps := pl) (s := sb) (a := x) ?_ ?_; unfold x; rotate_left; clear_value x; intro hx)
    | (extract_lets +onlyGivenNames -underBinder x; (try unfold x); clear x)
    | split
theorem execComputeSlotStart_only {sec ent : Nat} {fails : List Nat} {s : State} {t : State} (hO : Within pl sb s) (hP : [.out, .freeCount, .regs, .cons, .eph, .work, .tabs, .mem, .serve, .ctl, .mgt, .alm, .tel] ⊆ pl) (hE : execComputeSlotStart sec ent fails s = .next t) : Within pl sb t := by
  have k : Holds (InNext pl sb) (execComputeSlotStart sec ent fails s) := execComputeSlotStart_holds (sec := sec) (ent := ent) (fails := fails) (s := s) hO hP
  rw [hE] at k; exact k.of

theorem stageAhead_only {s : State} {p after : Nat} (hO : Within pl sb s) (hP : [.serve] ⊆ pl) : Within pl sb (stageAhead s p after) := by
  unfold stageAhead
  repeat' first
    | with_reducible assumption
    | with_reducible refine ite_only ?_ ?_
    | with_reducible refine foldl_only ?_ fun _ _ _ => ?_
    | with_reducible refine after_only ?_ ?_
    | with_reducible refine after_only ?_ ?_
    | with_reducible refine wantLoad_only ?_ (subset_sub hP (by decide))
    | (extract_lets +onlyGivenNames -underBinder x; refine cut_only (ps := pl) (s := sb) (a := x) ?_ ?_; unfold x; rotate_left; clear_value x; intro hx)
    | (extract_lets +onlyGivenNames -underBinder x; (try unfold x); clear x)

theorem execMoverEntryStart_holds {sec ent : Nat} {s : State} (hO : Within pl sb s) (hP : [.out, .regs, .eph, .work, .mem, .serve, .ctl, .tel] ⊆ pl) : Holds (InNext pl sb) (execMoverEntryStart sec ent s) := by
  unfold execMoverEntryStart
  repeat' first
    | with_reducible refine leaf_next ?_
    | with_reducible assumption
    | with_reducible refine ite_only ?_ ?_
    | with_reducible refine drainDma_only ?_ (subset_sub hP (by decide))
    | with_reducible refine nearLow_only ?_ (subset_sub hP (by decide))
    | with_reducible refine progressPtn_only ?_ (subset_sub hP (by decide))
    | with_reducible refine stageAhead_only ?_ (subset_sub hP (by decide))
    | with_reducible refine takeVictims_only ?_ (subset_sub hP (by decide))
    | with_reducible refine modEph_only ?_ (subset_sub hP (by decide))
    | with_reducible refine modServe_only ?_ (subset_sub hP (by decide))
    | (extract_lets +onlyGivenNames -underBinder x; refine cut_only (ps := pl) (s := sb) (a := x) ?_ ?_; unfold x; rotate_left; clear_value x; intro hx)
    | (extract_lets +onlyGivenNames -underBinder x; (try unfold x); clear x)
    | split
theorem execMoverEntryStart_only {sec ent : Nat} {s : State} {t : State} (hO : Within pl sb s) (hP : [.out, .regs, .eph, .work, .mem, .serve, .ctl, .tel] ⊆ pl) (hE : execMoverEntryStart sec ent s = .next t) : Within pl sb t := by
  have k : Holds (InNext pl sb) (execMoverEntryStart sec ent s) := execMoverEntryStart_holds (sec := sec) (ent := ent) (s := s) hO hP
  rw [hE] at k; exact k.of

end Sys2Proof.Machine
end

