-- ==== Sys2Proof/Laws/FrameLink.lean ====
section
/-! SUPPORT. What each function of Machine/Link.lean can do to the state as a whole: the parts it can change; the queue, the population and the
canonical forms it keeps. `f_only` speaks of the state that `f` answers, `f_holds` of a state inside its answer, `f_only_eq` of one taken out. -/

-- One declaration at a time: thousands of proofs in flight at once ask for more threads than fit in memory.
set_option Elab.async false

set_option linter.unusedTactic false
set_option linter.unreachableTactic false
set_option linter.unusedVariables false
set_option linter.unusedSimpArgs false
namespace Sys2Proof.Machine
open Sys2Proof
variable {pl : List Part} {sb : State}

theorem sendControl_only {s : State} {n kind : Nat} {payload : List Byte} (hO : Within pl sb s) (hP : [.out, .fab] ⊆ pl) : Within pl sb (sendControl s n kind payload) := by
  unfold sendControl
  repeat' first
    | with_reducible assumption
    | with_reducible refine ite_only ?_ ?_
    | with_reducible refine emit_only ?_ (subset_sub hP (by decide))
    | with_reducible refine modLink_only ?_ (subset_sub hP (by decide))
    | (extract_lets +onlyGivenNames -underBinder x; refine cut_only (ps := pl) (s := sb) (a := x) ?_ ?_; unfold x; rotate_left; clear_value x; intro hx)
    | (extract_lets +onlyGivenNames -underBinder x; (try unfold x); clear x)

theorem takeSeq_only {s : State} {n : Nat} {cell : Option Cell} {link : List Byte} (hO : Within pl sb s) (hP : [.fab] ⊆ pl) : Within pl sb (takeSeq s n cell link) := by
  unfold takeSeq
  repeat' first
    | with_reducible assumption
    | with_reducible refine ite_only ?_ ?_
    | with_reducible refine modLink_only ?_ (subset_sub hP (by decide))

theorem sendLink_only {s : State} {n : Nat} {payload : List Byte} (hO : Within pl sb s) (hP : [.out, .fab] ⊆ pl) : Within pl sb (sendLink s n payload) := by
  unfold sendLink
  repeat' first
    | with_reducible assumption
    | with_reducible refine emit_only ?_ (subset_sub hP (by decide))
    | with_reducible refine takeSeq_only ?_ (subset_sub hP (by decide))

theorem sendAck_only {s : State} {n : Nat} (hO : Within pl sb s) (hP : [.out, .fab] ⊆ pl) : Within pl sb (sendAck s n) := by
  unfold sendAck
  repeat' first
    | with_reducible assumption
    | with_reducible refine modLink_only ?_ (subset_sub hP (by decide))
    | with_reducible refine sendControl_only ?_ (subset_sub hP (by decide))

theorem sendNak_only {s : State} {n : Nat} (hO : Within pl sb s) (hP : [.out, .regs, .fab, .tel] ⊆ pl) : Within pl sb (sendNak s n) := by
  unfold sendNak
  repeat' first
    | with_reducible assumption
    | with_reducible refine linkCount_only ?_ (subset_sub hP (by decide))
    | with_reducible refine modLink_only ?_ (subset_sub hP (by decide))
    | with_reducible refine sendControl_only ?_ (subset_sub hP (by decide))

theorem nakOnce_only {s : State} {n : Nat} (hO : Within pl sb s) (hP : [.out, .regs, .fab, .tel] ⊆ pl) : Within pl sb (nakOnce s n) := by
  unfold nakOnce
  repeat' first
    | with_reducible assumption
    | with_reducible refine ite_only ?_ ?_
    | with_reducible refine sendNak_only ?_ (subset_sub hP (by decide))

theorem kqEvent_only {s : State} {code : Nat} {payload : List Nat} (hO : Within pl sb s) (hP : [.out, .regs, .ctl, .mgt, .alm, .tel] ⊆ pl) : Within pl sb (kqEvent s code payload) := by
  unfold kqEvent
  repeat' first
    | with_reducible assumption
    | with_reducible refine raisePf_only ?_ (subset_sub hP (by decide))

theorem sendTopology_only {s : State} (hO : Within pl sb s) (hP : [.regs, .fab] ⊆ pl) : Within pl sb (sendTopology s) := by
  unfold sendTopology
  repeat' first
    | with_reducible assumption
    | with_reducible refine ite_only ?_ ?_
    | with_reducible refine foldl_only ?_ fun _ _ _ => ?_
    | with_reducible refine enqueue_only ?_ (subset_sub hP (by decide))

theorem startTraining_only {s : State} {n : Nat} (hO : Within pl sb s) (hP : [.regs, .fab] ⊆ pl) : Within pl sb (startTraining s n) := by
  unfold startTraining
  repeat' first
    | with_reducible assumption
    | with_reducible refine ite_only ?_ ?_
    | with_reducible refine modLink_only ?_ (subset_sub hP (by decide))
    | with_reducible refine sendTopology_only ?_ (subset_sub hP (by decide))

theorem repath_only {s : State} {cs : List Cell} (hO : Within pl sb s) (hP : [.out, .regs, .fab, .ctl, .mgt, .alm, .tel] ⊆ pl) : Within pl sb (repath s cs) := by
  unfold repath
  repeat' first
    | with_reducible assumption
    | with_reducible refine foldl_only ?_ fun _ _ _ => ?_
    | with_reducible refine countDrop_only ?_ (subset_sub hP (by decide))
    | with_reducible refine kqtOnce_only ?_ (subset_sub hP (by decide))
    | with_reducible refine routeCell_only_eq ?_ (subset_sub hP (by decide)) (by assumption)
    | split

theorem pairEvent_only {s : State} {entered silent : Bool} (hO : Within pl sb s) (hP : [.out, .regs, .ctl, .mgt, .alm, .tel] ⊆ pl) : Within pl sb (pairEvent s entered silent) := by
  unfold pairEvent
  repeat' first
    | with_reducible assumption
    | with_reducible refine raisePf_only ?_ (subset_sub hP (by decide))

theorem leaveUp_only {s : State} {n state cause : Nat} (hO : Within pl sb s) (hP : [.out, .regs, .fab, .ctl, .mgt, .alm, .tel] ⊆ pl) : Within pl sb (leaveUp s n state cause) := by
  unfold leaveUp
  repeat' first
    | with_reducible assumption
    | with_reducible refine ite_only ?_ ?_
    | with_reducible refine kqEvent_only ?_ (subset_sub hP (by decide))
    | with_reducible refine modLink_only ?_ (subset_sub hP (by decide))
    | with_reducible refine pairEvent_only ?_ (subset_sub hP (by decide))
    | with_reducible refine repath_only ?_ (subset_sub hP (by decide))
    | with_reducible refine sendTopology_only ?_ (subset_sub hP (by decide))
    | with_reducible refine modFab_only ?_ (subset_sub hP (by decide))
    | (extract_lets +onlyGivenNames -underBinder x; refine cut_only (ps := pl) (s := sb) (a := x) ?_ ?_; unfold x; rotate_left; clear_value x; intro hx)
    | (extract_lets +onlyGivenNames -underBinder x; (try unfold x); clear x)
    | split

theorem linkDown_only {s : State} {n cause : Nat} (hO : Within pl sb s) (hP : [.out, .regs, .fab, .ctl, .mgt, .alm, .tel] ⊆ pl) : Within pl sb (linkDown s n cause) := by
  unfold linkDown
  repeat' first
    | with_reducible assumption
    | with_reducible refine ite_only ?_ ?_
    | with_reducible refine leaveUp_only ?_ (subset_sub hP (by decide))
    | (extract_lets +onlyGivenNames -underBinder x; refine cut_only (ps := pl) (s := sb) (a := x) ?_ ?_; unfold x; rotate_left; clear_value x; intro hx)
    | (extract_lets +onlyGivenNames -underBinder x; (try unfold x); clear x)

theorem goUp_only {s : State} {n : Nat} (hO : Within pl sb s) (hP : [.out, .regs, .fab, .ctl, .mgt, .alm, .tel, .ras] ⊆ pl) : Within pl sb (goUp s n) := by
  unfold goUp
  repeat' first
    | with_reducible assumption
    | with_reducible refine ite_only ?_ ?_
    | with_reducible refine kqEvent_only ?_ (subset_sub hP (by decide))
    | with_reducible refine modLink_only ?_ (subset_sub hP (by decide))
    | with_reducible refine sendTopology_only ?_ (subset_sub hP (by decide))
    | with_reducible refine modFab_only ?_ (subset_sub hP (by decide))
    | with_reducible refine modRas_only ?_ (subset_sub hP (by decide))
    | (extract_lets +onlyGivenNames -underBinder x; refine cut_only (ps := pl) (s := sb) (a := x) ?_ ?_; unfold x; rotate_left; clear_value x; intro hx)
    | (extract_lets +onlyGivenNames -underBinder x; (try unfold x); clear x)

theorem applyKqCtl_only {s : State} {n : Nat} (hO : Within pl sb s) (hP : [.out, .regs, .fab, .ctl, .mgt, .alm, .tel] ⊆ pl) : Within pl sb (applyKqCtl s n) := by
  unfold applyKqCtl
  repeat' first
    | with_reducible assumption
    | with_reducible refine ite_only ?_ ?_
    | with_reducible refine leaveUp_only ?_ (subset_sub hP (by decide))
    | with_reducible refine modLink_only ?_ (subset_sub hP (by decide))
    | with_reducible refine sendLink_only ?_ (subset_sub hP (by decide))
    | with_reducible refine sendTopology_only ?_ (subset_sub hP (by decide))
    | with_reducible refine startTraining_only ?_ (subset_sub hP (by decide))
    | (extract_lets +onlyGivenNames -underBinder x; refine cut_only (ps := pl) (s := sb) (a := x) ?_ ?_; unfold x; rotate_left; clear_value x; intro hx)
    | (extract_lets +onlyGivenNames -underBinder x; (try unfold x); clear x)

theorem execPortTrained_holds {port lanes : Nat} {s : State} (hO : Within pl sb s) (hP : [.out, .regs, .fab, .ctl, .mgt, .alm, .tel, .ras] ⊆ pl) : Holds (InNext pl sb) (execPortTrained port lanes s) := by
  unfold execPortTrained
  repeat' first
    | with_reducible refine leaf_next ?_
    | with_reducible assumption
    | with_reducible refine ite_only ?_ ?_
    | with_reducible refine goUp_only ?_ (subset_sub hP (by decide))
    | with_reducible refine modLink_only ?_ (subset_sub hP (by decide))
    | with_reducible refine sendTopology_only ?_ (subset_sub hP (by decide))
    | (extract_lets +onlyGivenNames -underBinder x; refine cut_only (ps := pl) (s := sb) (a := x) ?_ ?_; unfold x; rotate_left; clear_value x; intro hx)
    | (extract_lets +onlyGivenNames -underBinder x; (try unfold x); clear x)
theorem execPortTrained_only {port lanes : Nat} {s : State} {t : State} (hO : Within pl sb s) (hP : [.out, .regs, .fab, .ctl, .mgt, .alm, .tel, .ras] ⊆ pl) (hE : execPortTrained port lanes s = .next t) : Within pl sb t := by
  have k : Holds (InNext pl sb) (execPortTrained port lanes s) := execPortTrained_holds (port := port) (lanes := lanes) (s := s) hO hP
  rw [hE] at k; exact k.of

theorem execMkaSakInstalled_holds {port : Nat} {s : State} (hO : Within pl sb s) (hP : [.out, .regs, .fab, .ctl, .mgt, .alm, .tel, .ras] ⊆ pl) : Holds (InNext pl sb) (execMkaSakInstalled port s) := by
  unfold execMkaSakInstalled
  repeat' first
    | with_reducible refine leaf_next ?_
    | with_reducible assumption
    | with_reducible refine ite_only ?_ ?_
    | with_reducible refine goUp_only ?_ (subset_sub hP (by decide))
    | with_reducible refine modLink_only ?_ (subset_sub hP (by decide))
    | (extract_lets +onlyGivenNames -underBinder x; refine cut_only (ps := pl) (s := sb) (a := x) ?_ ?_; unfold x; rotate_left; clear_value x; intro hx)
    | (extract_lets +onlyGivenNames -underBinder x; (try unfold x); clear x)
theorem execMkaSakInstalled_only {port : Nat} {s : State} {t : State} (hO : Within pl sb s) (hP : [.out, .regs, .fab, .ctl, .mgt, .alm, .tel, .ras] ⊆ pl) (hE : execMkaSakInstalled port s = .next t) : Within pl sb t := by
  have k : Holds (InNext pl sb) (execMkaSakInstalled port s) := execMkaSakInstalled_holds (port := port) (s := s) hO hP
  rw [hE] at k; exact k.of

theorem execMkaPeerTimeout_holds {port : Nat} {s : State} (hO : Within pl sb s) (hP : [.out, .regs, .fab, .ctl, .mgt, .alm, .tel] ⊆ pl) : Holds (InNext pl sb) (execMkaPeerTimeout port s) := by
  unfold execMkaPeerTimeout
  repeat' first
    | with_reducible refine leaf_next ?_
    | with_reducible assumption
    | with_reducible refine ite_only ?_ ?_
    | with_reducible refine linkDown_only ?_ (subset_sub hP (by decide))
theorem execMkaPeerTimeout_only {port : Nat} {s : State} {t : State} (hO : Within pl sb s) (hP : [.out, .regs, .fab, .ctl, .mgt, .alm, .tel] ⊆ pl) (hE : execMkaPeerTimeout port s = .next t) : Within pl sb t := by
  have k : Holds (InNext pl sb) (execMkaPeerTimeout port s) := execMkaPeerTimeout_holds (port := port) (s := s) hO hP
  rw [hE] at k; exact k.of

theorem execAttestComplete_holds {port : Nat} {s : State} (hO : Within pl sb s) (hP : [.out, .regs, .fab, .ctl, .mgt, .alm, .tel, .ras] ⊆ pl) : Holds (InNext pl sb) (execAttestComplete port s) := by
  unfold execAttestComplete
  repeat' first
    | with_reducible refine leaf_next ?_
    | with_reducible assumption
    | with_reducible refine ite_only ?_ ?_
    | with_reducible refine goUp_only ?_ (subset_sub hP (by decide))
    | (extract_lets +onlyGivenNames -underBinder x; refine cut_only (ps := pl) (s := sb) (a := x) ?_ ?_; unfold x; rotate_left; clear_value x; intro hx)
    | (extract_lets +onlyGivenNames -underBinder x; (try unfold x); clear x)
theorem execAttestComplete_only {port : Nat} {s : State} {t : State} (hO : Within pl sb s) (hP : [.out, .regs, .fab, .ctl, .mgt, .alm, .tel, .ras] ⊆ pl) (hE : execAttestComplete port s = .next t) : Within pl sb t := by
  have k : Holds (InNext pl sb) (execAttestComplete port s) := execAttestComplete_holds (port := port) (s := s) hO hP
  rw [hE] at k; exact k.of

theorem execTrainTimeout_holds {port : Nat} {s : State} (hO : Within pl sb s) (hP : [.out, .regs, .fab, .ctl, .mgt, .alm, .tel] ⊆ pl) : Holds (InNext pl sb) (execTrainTimeout port s) := by
  unfold execTrainTimeout
  repeat' first
    | with_reducible refine leaf_next ?_
    | with_reducible assumption
    | with_reducible refine ite_only ?_ ?_
    | with_reducible refine linkDown_only ?_ (subset_sub hP (by decide))
theorem execTrainTimeout_only {port : Nat} {s : State} {t : State} (hO : Within pl sb s) (hP : [.out, .regs, .fab, .ctl, .mgt, .alm, .tel] ⊆ pl) (hE : execTrainTimeout port s = .next t) : Within pl sb t := by
  have k : Holds (InNext pl sb) (execTrainTimeout port s) := execTrainTimeout_holds (port := port) (s := s) hO hP
  rw [hE] at k; exact k.of

theorem execBackoffExpiry_holds {port : Nat} {s : State} (hO : Within pl sb s) (hP : [.regs, .fab] ⊆ pl) : Holds (InNext pl sb) (execBackoffExpiry port s) := by
  unfold execBackoffExpiry
  repeat' first
    | with_reducible refine leaf_next ?_
    | with_reducible assumption
    | with_reducible refine ite_only ?_ ?_
    | with_reducible refine startTraining_only ?_ (subset_sub hP (by decide))
theorem execBackoffExpiry_only {port : Nat} {s : State} {t : State} (hO : Within pl sb s) (hP : [.regs, .fab] ⊆ pl) (hE : execBackoffExpiry port s = .next t) : Within pl sb t := by
  have k : Holds (InNext pl sb) (execBackoffExpiry port s) := execBackoffExpiry_holds (port := port) (s := s) hO hP
  rw [hE] at k; exact k.of

theorem execAnSignalDetected_holds {port : Nat} {s : State} (hO : Within pl sb s) (hP : [.regs, .fab] ⊆ pl) : Holds (InNext pl sb) (execAnSignalDetected port s) := by
  unfold execAnSignalDetected
  repeat' first
    | with_reducible refine leaf_next ?_
    | with_reducible assumption
    | with_reducible refine ite_only ?_ ?_
    | with_reducible refine startTraining_only ?_ (subset_sub hP (by decide))
theorem execAnSignalDetected_only {port : Nat} {s : State} {t : State} (hO : Within pl sb s) (hP : [.regs, .fab] ⊆ pl) (hE : execAnSignalDetected port s = .next t) : Within pl sb t := by
  have k : Holds (InNext pl sb) (execAnSignalDetected port s) := execAnSignalDetected_holds (port := port) (s := s) hO hP
  rw [hE] at k; exact k.of

theorem retrain_only {s : State} {n : Nat} (hO : Within pl sb s) (hP : [.out, .regs, .fab, .ctl, .mgt, .alm, .tel] ⊆ pl) : Within pl sb (retrain s n) := by
  unfold retrain
  repeat' first
    | with_reducible assumption
    | with_reducible refine ite_only ?_ ?_
    | with_reducible refine linkDown_only ?_ (subset_sub hP (by decide))
    | with_reducible refine modLink_only ?_ (subset_sub hP (by decide))
    | with_reducible refine startTraining_only ?_ (subset_sub hP (by decide))
    | (extract_lets +onlyGivenNames -underBinder x; refine cut_only (ps := pl) (s := sb) (a := x) ?_ ?_; unfold x; rotate_left; clear_value x; intro hx)
    | (extract_lets +onlyGivenNames -underBinder x; (try unfold x); clear x)

theorem execKqRetrain_holds {port : Nat} {s : State} (hO : Within pl sb s) (hP : [.out, .regs, .fab, .ctl, .mgt, .alm, .tel] ⊆ pl) : Holds (InNext pl sb) (execKqRetrain port s) := by
  unfold execKqRetrain
  repeat' first
    | with_reducible refine leaf_next ?_
    | with_reducible assumption
    | with_reducible refine retrain_only ?_ (subset_sub hP (by decide))
theorem execKqRetrain_only {port : Nat} {s : State} {t : State} (hO : Within pl sb s) (hP : [.out, .regs, .fab, .ctl, .mgt, .alm, .tel] ⊆ pl) (hE : execKqRetrain port s = .next t) : Within pl sb t := by
  have k : Holds (InNext pl sb) (execKqRetrain port s) := execKqRetrain_holds (port := port) (s := s) hO hP
  rw [hE] at k; exact k.of

theorem windowFails_only {s : State} {n : Nat} (hO : Within pl sb s) (hP : [.out, .regs, .fab, .tel] ⊆ pl) : Within pl sb (windowFails s n) := by
  unfold windowFails
  repeat' first
    | with_reducible assumption
    | with_reducible refine ite_only ?_ ?_
    | with_reducible refine linkCount_only ?_ (subset_sub hP (by decide))
    | with_reducible refine modLink_only ?_ (subset_sub hP (by decide))
    | with_reducible refine nakOnce_only ?_ (subset_sub hP (by decide))
    | (extract_lets +onlyGivenNames -underBinder x; refine cut_only (ps := pl) (s := sb) (a := x) ?_ ?_; unfold x; rotate_left; clear_value x; intro hx)
    | (extract_lets +onlyGivenNames -underBinder x; (try unfold x); clear x)

theorem execDelineationCheck_holds {port : Nat} {hcrcOk ccrcOk : Bool} {s : State} (hO : Within pl sb s) (hP : [.out, .regs, .fab, .tel] ⊆ pl) : Holds (InNext pl sb) (execDelineationCheck port hcrcOk ccrcOk s) := by
  unfold execDelineationCheck
  repeat' first
    | with_reducible refine leaf_next ?_
    | with_reducible assumption
    | with_reducible refine ite_only ?_ ?_
    | with_reducible refine modLink_only ?_ (subset_sub hP (by decide))
    | with_reducible refine windowFails_only ?_ (subset_sub hP (by decide))
    | (extract_lets +onlyGivenNames -underBinder x; refine cut_only (ps := pl) (s := sb) (a := x) ?_ ?_; unfold x; rotate_left; clear_value x; intro hx)
    | (extract_lets +onlyGivenNames -underBinder x; (try unfold x); clear x)
    | split
theorem execDelineationCheck_only {port : Nat} {hcrcOk ccrcOk : Bool} {s : State} {t : State} (hO : Within pl sb s) (hP : [.out, .regs, .fab, .tel] ⊆ pl) (hE : execDelineationCheck port hcrcOk ccrcOk s = .next t) : Within pl sb t := by
  have k : Holds (InNext pl sb) (execDelineationCheck port hcrcOk ccrcOk s) := execDelineationCheck_holds (port := port) (hcrcOk := hcrcOk) (ccrcOk := ccrcOk) (s := s) hO hP
  rw [hE] at k; exact k.of

theorem execDelinTimeout_holds {port : Nat} {s : State} (hO : Within pl sb s) (hP : [.out, .regs, .fab, .ctl, .mgt, .alm, .tel] ⊆ pl) : Holds (InNext pl sb) (execDelinTimeout port s) := by
  unfold execDelinTimeout
  repeat' first
    | with_reducible refine leaf_next ?_
    | with_reducible assumption
    | with_reducible refine ite_only ?_ ?_
    | with_reducible refine linkDown_only ?_ (subset_sub hP (by decide))
    | (extract_lets +onlyGivenNames -underBinder x; refine cut_only (ps := pl) (s := sb) (a := x) ?_ ?_; unfold x; rotate_left; clear_value x; intro hx)
    | (extract_lets +onlyGivenNames -underBinder x; (try unfold x); clear x)
theorem execDelinTimeout_only {port : Nat} {s : State} {t : State} (hO : Within pl sb s) (hP : [.out, .regs, .fab, .ctl, .mgt, .alm, .tel] ⊆ pl) (hE : execDelinTimeout port s = .next t) : Within pl sb t := by
  have k : Holds (InNext pl sb) (execDelinTimeout port s) := execDelinTimeout_holds (port := port) (s := s) hO hP
  rw [hE] at k; exact k.of

theorem execLossOfSignal_holds {port : Nat} {lane : Bool} {s : State} (hO : Within pl sb s) (hP : [.out, .regs, .fab, .ctl, .mgt, .alm, .tel] ⊆ pl) : Holds (InNext pl sb) (execLossOfSignal port lane s) := by
  unfold execLossOfSignal
  repeat' first
    | with_reducible refine leaf_next ?_
    | with_reducible assumption
    | with_reducible refine ite_only ?_ ?_
    | with_reducible refine linkDown_only ?_ (subset_sub hP (by decide))
    | (extract_lets +onlyGivenNames -underBinder x; refine cut_only (ps := pl) (s := sb) (a := x) ?_ ?_; unfold x; rotate_left; clear_value x; intro hx)
    | (extract_lets +onlyGivenNames -underBinder x; (try unfold x); clear x)
theorem execLossOfSignal_only {port : Nat} {lane : Bool} {s : State} {t : State} (hO : Within pl sb s) (hP : [.out, .regs, .fab, .ctl, .mgt, .alm, .tel] ⊆ pl) (hE : execLossOfSignal port lane s = .next t) : Within pl sb t := by
  have k : Holds (InNext pl sb) (execLossOfSignal port lane s) := execLossOfSignal_holds (port := port) (lane := lane) (s := s) hO hP
  rw [hE] at k; exact k.of

theorem checkCell_holds {s : State} {n kind : Nat} {c : WireCell} (hO : Within pl sb s) (hP : [.out, .regs, .fab, .ctl, .mgt, .alm, .tel] ⊆ pl) : Holds (InFst pl sb) (checkCell s n kind c) := by
  unfold checkCell
  repeat' first
    | with_reducible refine ite_holds ?_ ?_
    | with_reducible refine leaf_fst ?_
    | with_reducible assumption
    | with_reducible refine ite_only ?_ ?_
    | with_reducible refine linkCount_only ?_ (subset_sub hP (by decide))
    | with_reducible refine linkDown_only ?_ (subset_sub hP (by decide))
    | with_reducible refine modLink_only ?_ (subset_sub hP (by decide))
    | with_reducible refine nakOnce_only ?_ (subset_sub hP (by decide))
    | with_reducible refine windowFails_only ?_ (subset_sub hP (by decide))
    | (extract_lets +onlyGivenNames -underBinder x; refine cut_only (ps := pl) (s := sb) (a := x) ?_ ?_; unfold x; rotate_left; clear_value x; intro hx)
    | (extract_lets +onlyGivenNames -underBinder x; (try unfold x); clear x)
theorem checkCell_only_eq {s : State} {n kind : Nat} {c : WireCell} {ra : State} {rb : Bool} (hO : Within pl sb s) (hP : [.out, .regs, .fab, .ctl, .mgt, .alm, .tel] ⊆ pl) (hE : checkCell s n kind c = (ra, rb)) : Within pl sb ra := by
  have k : Holds (InFst pl sb) (checkCell s n kind c) := checkCell_holds (s := s) (n := n) (kind := kind) (c := c) hO hP
  rw [hE] at k; exact k.of
theorem checkCell_only {s : State} {n kind : Nat} {c : WireCell} (hO : Within pl sb s) (hP : [.out, .regs, .fab, .ctl, .mgt, .alm, .tel] ⊆ pl) : Within pl sb (checkCell s n kind c).1 := (checkCell_holds (s := s) (n := n) (kind := kind) (c := c) hO hP).of

theorem acceptSeq_holds {s : State} {n seq : Nat} (hO : Within pl sb s) (hP : [.out, .regs, .fab, .tel] ⊆ pl) : Holds (InFst pl sb) (acceptSeq s n seq) := by
  unfold acceptSeq
  repeat' first
    | with_reducible refine ite_holds ?_ ?_
    | with_reducible refine leaf_fst ?_
    | with_reducible assumption
    | with_reducible refine ite_only ?_ ?_
    | with_reducible refine modLink_only ?_ (subset_sub hP (by decide))
    | with_reducible refine nakOnce_only ?_ (subset_sub hP (by decide))
    | with_reducible refine sendAck_only ?_ (subset_sub hP (by decide))
    | (extract_lets +onlyGivenNames -underBinder x; refine cut_only (ps := pl) (s := sb) (a := x) ?_ ?_; unfold x; rotate_left; clear_value x; intro hx)
    | (extract_lets +onlyGivenNames -underBinder x; (try unfold x); clear x)
theorem acceptSeq_only_eq {s : State} {n seq : Nat} {ra : State} {rb : Bool} (hO : Within pl sb s) (hP : [.out, .regs, .fab, .tel] ⊆ pl) (hE : acceptSeq s n seq = (ra, rb)) : Within pl sb ra := by
  have k : Holds (InFst pl sb) (acceptSeq s n seq) := acceptSeq_holds (s := s) (n := n) (seq := seq) hO hP
  rw [hE] at k; exact k.of
theorem acceptSeq_only {s : State} {n seq : Nat} (hO : Within pl sb s) (hP : [.out, .regs, .fab, .tel] ⊆ pl) : Within pl sb (acceptSeq s n seq).1 := (acceptSeq_holds (s := s) (n := n) (seq := seq) hO hP).of

theorem linkCell_only {s : State} {n : Nat} {c : WireCell} {op : Nat} {act : State → State} (h : Within pl sb s)
    (k : ∀ u, Within pl sb u → Within pl sb (act u)) (hp : [.out, .freeCount, .regs, .fab, .ctl, .mgt, .alm, .tel] ⊆ pl) : Within pl sb (linkCell s n c op act) := by
  have a := checkCell_only (n := n) (kind := 4) (c := c) h (subset_sub hp (by decide))
  unfold linkCell
  split
  rename_i s1 ok e
  rw [e] at a
  refine ite_only a ?_
  have b := acceptSeq_only (n := n) (seq := c.seq) a (subset_sub hp (by decide))
  split
  rename_i s2 f e
  rw [e] at b
  exact ite_only (k _ b) b

theorem execLinkSpdmCell_holds {port : Nat} {c : WireCell} {outcome : Nat} {reply : List Byte} {s : State} (hO : Within pl sb s) (hP : [.out, .freeCount, .regs, .fab, .ctl, .mgt, .alm, .tel] ⊆ pl) : Holds (InNext pl sb) (execLinkSpdmCell port c outcome reply s) := by
  unfold execLinkSpdmCell
  repeat' first
    | with_reducible refine leaf_next ?_
    | with_reducible assumption
    | with_reducible refine ite_only ?_ ?_
    | with_reducible refine kqEvent_only ?_ (subset_sub hP (by decide))
    | with_reducible refine linkCell_only ?_ (fun _ _ => ?_) (subset_sub hP (by decide))
    | with_reducible refine linkDown_only ?_ (subset_sub hP (by decide))
    | with_reducible refine modLink_only ?_ (subset_sub hP (by decide))
    | with_reducible refine sendLink_only ?_ (subset_sub hP (by decide))
    | (extract_lets +onlyGivenNames -underBinder x; refine cut_only (ps := pl) (s := sb) (a := x) ?_ ?_; unfold x; rotate_left; clear_value x; intro hx)
    | (extract_lets +onlyGivenNames -underBinder x; (try unfold x); clear x)
    | split
theorem execLinkSpdmCell_only {port : Nat} {c : WireCell} {outcome : Nat} {reply : List Byte} {s : State} {t : State} (hO : Within pl sb s) (hP : [.out, .freeCount, .regs, .fab, .ctl, .mgt, .alm, .tel] ⊆ pl) (hE : execLinkSpdmCell port c outcome reply s = .next t) : Within pl sb t := by
  have k : Holds (InNext pl sb) (execLinkSpdmCell port c outcome reply s) := execLinkSpdmCell_holds (port := port) (c := c) (outcome := outcome) (reply := reply) (s := s) hO hP
  rw [hE] at k; exact k.of

theorem execLinkHello_holds {port : Nat} {c : WireCell} {s : State} (hO : Within pl sb s) (hP : [.out, .freeCount, .regs, .fab, .ctl, .mgt, .alm, .tel] ⊆ pl) : Holds (InNext pl sb) (execLinkHello port c s) := by
  unfold execLinkHello
  repeat' first
    | with_reducible refine leaf_next ?_
    | with_reducible assumption
    | with_reducible refine ite_only ?_ ?_
    | with_reducible refine linkCell_only ?_ (fun _ _ => ?_) (subset_sub hP (by decide))
    | with_reducible refine linkDown_only ?_ (subset_sub hP (by decide))
    | with_reducible refine modLink_only ?_ (subset_sub hP (by decide))
theorem execLinkHello_only {port : Nat} {c : WireCell} {s : State} {t : State} (hO : Within pl sb s) (hP : [.out, .freeCount, .regs, .fab, .ctl, .mgt, .alm, .tel] ⊆ pl) (hE : execLinkHello port c s = .next t) : Within pl sb t := by
  have k : Holds (InNext pl sb) (execLinkHello port c s) := execLinkHello_holds (port := port) (c := c) (s := s) hO hP
  rw [hE] at k; exact k.of

theorem execLinkDownNotice_holds {port : Nat} {c : WireCell} {s : State} (hO : Within pl sb s) (hP : [.out, .freeCount, .regs, .fab, .ctl, .mgt, .alm, .tel] ⊆ pl) : Holds (InNext pl sb) (execLinkDownNotice port c s) := by
  unfold execLinkDownNotice
  repeat' first
    | with_reducible refine leaf_next ?_
    | with_reducible assumption
    | with_reducible refine ite_only ?_ ?_
    | with_reducible refine linkCell_only ?_ (fun _ _ => ?_) (subset_sub hP (by decide))
    | with_reducible refine linkDown_only ?_ (subset_sub hP (by decide))
theorem execLinkDownNotice_only {port : Nat} {c : WireCell} {s : State} {t : State} (hO : Within pl sb s) (hP : [.out, .freeCount, .regs, .fab, .ctl, .mgt, .alm, .tel] ⊆ pl) (hE : execLinkDownNotice port c s = .next t) : Within pl sb t := by
  have k : Holds (InNext pl sb) (execLinkDownNotice port c s) := execLinkDownNotice_holds (port := port) (c := c) (s := s) hO hP
  rw [hE] at k; exact k.of

theorem takeAck_only {s : State} {n : Nat} {p : List Byte} (hO : Within pl sb s) (hP : [.fab] ⊆ pl) : Within pl sb (takeAck s n p) := by
  unfold takeAck
  repeat' first
    | with_reducible assumption
    | with_reducible refine ite_only ?_ ?_
    | with_reducible refine modLink_only ?_ (subset_sub hP (by decide))
    | (extract_lets +onlyGivenNames -underBinder x; refine cut_only (ps := pl) (s := sb) (a := x) ?_ ?_; unfold x; rotate_left; clear_value x; intro hx)
    | (extract_lets +onlyGivenNames -underBinder x; (try unfold x); clear x)

theorem resendAll_only {s : State} {n : Nat} (hO : Within pl sb s) (hP : [.out, .regs, .fab, .tel] ⊆ pl) : Within pl sb (resendAll s n) := by
  unfold resendAll
  repeat' first
    | with_reducible assumption
    | with_reducible refine ite_only ?_ ?_
    | with_reducible refine foldl_only ?_ fun _ _ _ => ?_
    | with_reducible refine emit_only ?_ (subset_sub hP (by decide))
    | with_reducible refine linkCount_only ?_ (subset_sub hP (by decide))
    | with_reducible refine modLink_only ?_ (subset_sub hP (by decide))
    | (extract_lets +onlyGivenNames -underBinder x; refine cut_only (ps := pl) (s := sb) (a := x) ?_ ?_; unfold x; rotate_left; clear_value x; intro hx)
    | (extract_lets +onlyGivenNames -underBinder x; (try unfold x); clear x)
    | split

theorem execCellAck_holds {port : Nat} {c : WireCell} {s : State} (hO : Within pl sb s) (hP : [.out, .regs, .fab, .ctl, .mgt, .alm, .tel] ⊆ pl) : Holds (InNext pl sb) (execCellAck port c s) := by
  unfold execCellAck
  repeat' first
    | with_reducible refine leaf_next ?_
    | with_reducible assumption
    | with_reducible refine ite_only ?_ ?_
    | with_reducible refine checkCell_only_eq ?_ (subset_sub hP (by decide)) (by assumption)
    | with_reducible refine checkCell_only ?_ (subset_sub hP (by decide))
    | with_reducible refine takeAck_only ?_ (subset_sub hP (by decide))
    | (extract_lets +onlyGivenNames -underBinder x; refine cut_only (ps := pl) (s := sb) (a := x) ?_ ?_; unfold x; rotate_left; clear_value x; intro hx)
    | (extract_lets +onlyGivenNames -underBinder x; (try unfold x); clear x)
    | split
theorem execCellAck_only {port : Nat} {c : WireCell} {s : State} {t : State} (hO : Within pl sb s) (hP : [.out, .regs, .fab, .ctl, .mgt, .alm, .tel] ⊆ pl) (hE : execCellAck port c s = .next t) : Within pl sb t := by
  have k : Holds (InNext pl sb) (execCellAck port c s) := execCellAck_holds (port := port) (c := c) (s := s) hO hP
  rw [hE] at k; exact k.of

theorem execCellNak_holds {port : Nat} {c : WireCell} {s : State} (hO : Within pl sb s) (hP : [.out, .regs, .fab, .ctl, .mgt, .alm, .tel] ⊆ pl) : Holds (InNext pl sb) (execCellNak port c s) := by
  unfold execCellNak
  repeat' first
    | with_reducible refine leaf_next ?_
    | with_reducible assumption
    | with_reducible refine ite_only ?_ ?_
    | with_reducible refine checkCell_only_eq ?_ (subset_sub hP (by decide)) (by assumption)
    | with_reducible refine checkCell_only ?_ (subset_sub hP (by decide))
    | with_reducible refine resendAll_only ?_ (subset_sub hP (by decide))
    | with_reducible refine takeAck_only ?_ (subset_sub hP (by decide))
    | (extract_lets +onlyGivenNames -underBinder x; refine cut_only (ps := pl) (s := sb) (a := x) ?_ ?_; unfold x; rotate_left; clear_value x; intro hx)
    | (extract_lets +onlyGivenNames -underBinder x; (try unfold x); clear x)
    | split
theorem execCellNak_only {port : Nat} {c : WireCell} {s : State} {t : State} (hO : Within pl sb s) (hP : [.out, .regs, .fab, .ctl, .mgt, .alm, .tel] ⊆ pl) (hE : execCellNak port c s = .next t) : Within pl sb t := by
  have k : Holds (InNext pl sb) (execCellNak port c s) := execCellNak_holds (port := port) (c := c) (s := s) hO hP
  rw [hE] at k; exact k.of

theorem execCellIdle_holds {port : Nat} {c : WireCell} {s : State} (hO : Within pl sb s) (hP : [.out, .regs, .fab, .ctl, .mgt, .alm, .tel] ⊆ pl) : Holds (InNext pl sb) (execCellIdle port c s) := by
  unfold execCellIdle
  repeat' first
    | with_reducible refine leaf_next ?_
    | with_reducible assumption
    | with_reducible refine checkCell_only_eq ?_ (subset_sub hP (by decide)) (by assumption)
    | with_reducible refine checkCell_only ?_ (subset_sub hP (by decide))
theorem execCellIdle_only {port : Nat} {c : WireCell} {s : State} {t : State} (hO : Within pl sb s) (hP : [.out, .regs, .fab, .ctl, .mgt, .alm, .tel] ⊆ pl) (hE : execCellIdle port c s = .next t) : Within pl sb t := by
  have k : Holds (InNext pl sb) (execCellIdle port c s) := execCellIdle_holds (port := port) (c := c) (s := s) hO hP
  rw [hE] at k; exact k.of

theorem execAckTimer_holds {port : Nat} {s : State} (hO : Within pl sb s) (hP : [.out, .fab] ⊆ pl) : Holds (InNext pl sb) (execAckTimer port s) := by
  unfold execAckTimer
  repeat' first
    | with_reducible refine leaf_next ?_
    | with_reducible assumption
    | with_reducible refine ite_only ?_ ?_
    | with_reducible refine sendAck_only ?_ (subset_sub hP (by decide))
    | (extract_lets +onlyGivenNames -underBinder x; refine cut_only (ps := pl) (s := sb) (a := x) ?_ ?_; unfold x; rotate_left; clear_value x; intro hx)
    | (extract_lets +onlyGivenNames -underBinder x; (try unfold x); clear x)
theorem execAckTimer_only {port : Nat} {s : State} {t : State} (hO : Within pl sb s) (hP : [.out, .fab] ⊆ pl) (hE : execAckTimer port s = .next t) : Within pl sb t := by
  have k : Holds (InNext pl sb) (execAckTimer port s) := execAckTimer_holds (port := port) (s := s) hO hP
  rw [hE] at k; exact k.of

theorem execNakRepeatTimer_holds {port : Nat} {s : State} (hO : Within pl sb s) (hP : [.out, .regs, .fab, .tel] ⊆ pl) : Holds (InNext pl sb) (execNakRepeatTimer port s) := by
  unfold execNakRepeatTimer
  repeat' first
    | with_reducible refine leaf_next ?_
    | with_reducible assumption
    | with_reducible refine ite_only ?_ ?_
    | with_reducible refine sendNak_only ?_ (subset_sub hP (by decide))
theorem execNakRepeatTimer_only {port : Nat} {s : State} {t : State} (hO : Within pl sb s) (hP : [.out, .regs, .fab, .tel] ⊆ pl) (hE : execNakRepeatTimer port s = .next t) : Within pl sb t := by
  have k : Holds (InNext pl sb) (execNakRepeatTimer port s) := execNakRepeatTimer_holds (port := port) (s := s) hO hP
  rw [hE] at k; exact k.of

theorem execReplayTimeout_holds {port : Nat} {s : State} (hO : Within pl sb s) (hP : [.out, .regs, .fab, .ctl, .mgt, .alm, .tel] ⊆ pl) : Holds (InNext pl sb) (execReplayTimeout port s) := by
  unfold execReplayTimeout
  repeat' first
    | with_reducible refine leaf_next ?_
    | with_reducible assumption
    | with_reducible refine ite_only ?_ ?_
    | with_reducible refine linkDown_only ?_ (subset_sub hP (by decide))
    | with_reducible refine resendAll_only ?_ (subset_sub hP (by decide))
    | (extract_lets +onlyGivenNames -underBinder x; refine cut_only (ps := pl) (s := sb) (a := x) ?_ ?_; unfold x; rotate_left; clear_value x; intro hx)
    | (extract_lets +onlyGivenNames -underBinder x; (try unfold x); clear x)
    | split
theorem execReplayTimeout_only {port : Nat} {s : State} {t : State} (hO : Within pl sb s) (hP : [.out, .regs, .fab, .ctl, .mgt, .alm, .tel] ⊆ pl) (hE : execReplayTimeout port s = .next t) : Within pl sb t := by
  have k : Holds (InNext pl sb) (execReplayTimeout port s) := execReplayTimeout_holds (port := port) (s := s) hO hP
  rw [hE] at k; exact k.of

theorem execPairUnpairedTimeout_holds {s : State} (hO : Within pl sb s) (hP : [.out, .regs, .fab, .ctl, .mgt, .alm, .tel] ⊆ pl) : Holds (InNext pl sb) (execPairUnpairedTimeout s) := by
  unfold execPairUnpairedTimeout
  repeat' first
    | with_reducible refine leaf_next ?_
    | with_reducible assumption
    | with_reducible refine ite_only ?_ ?_
    | with_reducible refine kqEvent_only ?_ (subset_sub hP (by decide))
    | with_reducible refine modFab_only ?_ (subset_sub hP (by decide))
theorem execPairUnpairedTimeout_only {s : State} {t : State} (hO : Within pl sb s) (hP : [.out, .regs, .fab, .ctl, .mgt, .alm, .tel] ⊆ pl) (hE : execPairUnpairedTimeout s = .next t) : Within pl sb t := by
  have k : Holds (InNext pl sb) (execPairUnpairedTimeout s) := execPairUnpairedTimeout_holds (s := s) hO hP
  rw [hE] at k; exact k.of

theorem execPfcFrame_holds {port pause : Nat} {s : State} (hO : Within pl sb s) (hP : [.fab, .tel] ⊆ pl) : Holds (InNext pl sb) (execPfcFrame port pause s) := by
  unfold execPfcFrame
  repeat' first
    | with_reducible refine leaf_next ?_
    | with_reducible assumption
    | with_reducible refine ite_only ?_ ?_
    | with_reducible refine modLink_only ?_ (subset_sub hP (by decide))
    | with_reducible refine telPort_only ?_ (subset_sub hP (by decide))
theorem execPfcFrame_only {port pause : Nat} {s : State} {t : State} (hO : Within pl sb s) (hP : [.fab, .tel] ⊆ pl) (hE : execPfcFrame port pause s = .next t) : Within pl sb t := by
  have k : Holds (InNext pl sb) (execPfcFrame port pause s) := execPfcFrame_holds (port := port) (pause := pause) (s := s) hO hP
  rw [hE] at k; exact k.of

theorem popQueue_holds {s : State} {n q : Nat} {l : Link} (hO : Within pl sb s) (hP : [.regs, .fab, .tel] ⊆ pl) : Holds (InSome (InSnd pl sb)) (popQueue s n q l) := by
  unfold popQueue
  repeat' first
    | with_reducible refine foldl_holds ?_ fun _ _ _ => ?_
    | with_reducible refine ite_holds ?_ ?_
    | with_reducible exact leaf_none
    | with_reducible refine leaf_some ?_
    | with_reducible refine leaf_snd ?_
    | with_reducible refine leaf_only ?_
    | with_reducible assumption
    | with_reducible refine ite_only ?_ ?_
    | with_reducible refine foldl_only ?_ fun _ _ _ => ?_
    | with_reducible refine modLink_only ?_ (subset_sub hP (by decide))
    | with_reducible refine qsCount_only ?_ (subset_sub hP (by decide))
    | (extract_lets +onlyGivenNames -underBinder x; refine cut_only (ps := pl) (s := sb) (a := x) ?_ ?_; unfold x; rotate_left; clear_value x; intro hx)
    | (extract_lets +onlyGivenNames -underBinder x; (try unfold x); clear x)
    | split
theorem popQueue_only_eq {s : State} {n q : Nat} {l : Link} {ra : QItem} {rb : State} (hO : Within pl sb s) (hP : [.regs, .fab, .tel] ⊆ pl) (hE : popQueue s n q l = some (ra, rb)) : Within pl sb rb := by
  have k : Holds (InSome (InSnd pl sb)) (popQueue s n q l) := popQueue_holds (s := s) (n := n) (q := q) (l := l) hO hP
  rw [hE] at k; exact k.of

theorem useXfer_only {s : State} {n ptn bytes : Nat} (hO : Within pl sb s) (hP : [.eph] ⊆ pl) : Within pl sb (useXfer s n ptn bytes) := by
  unfold useXfer
  repeat' first
    | with_reducible assumption
    | with_reducible refine ite_only ?_ ?_
    | with_reducible refine modEph_only ?_ (subset_sub hP (by decide))

theorem accountWire_only {s : State} {ptn wire dir : Nat} (hO : Within pl sb s) (hP : [.tel] ⊆ pl) : Within pl sb (accountWire s ptn wire dir) := by
  unfold accountWire
  repeat' first
    | with_reducible assumption
    | with_reducible refine telAcct_only ?_ (subset_sub hP (by decide))
    | with_reducible refine telAct_only ?_ (subset_sub hP (by decide))

theorem countHeld_only {s : State} {n : Nat} (hO : Within pl sb s) (hP : [.regs, .fab, .tel] ⊆ pl) : Within pl sb (countHeld s n) := by
  unfold countHeld
  repeat' first
    | with_reducible assumption
    | with_reducible refine ite_only ?_ ?_
    | with_reducible refine foldl_only ?_ fun _ _ _ => ?_
    | with_reducible refine modLink_only ?_ (subset_sub hP (by decide))
    | with_reducible refine qsCount_only ?_ (subset_sub hP (by decide))
    | (extract_lets +onlyGivenNames -underBinder x; refine cut_only (ps := pl) (s := sb) (a := x) ?_ ?_; unfold x; rotate_left; clear_value x; intro hx)
    | (extract_lets +onlyGivenNames -underBinder x; (try unfold x); clear x)
    | split

theorem execEgressSend_only {port : Nat} {s : State} {t : State} (h : Within pl sb s) (hp : [.out, .regs, .eph, .fab, .tel] ⊆ pl) (e : execEgressSend port s = .next t) :
    Within pl sb t := by
  unfold execEgressSend at e
  cases e
  refine ite_only h ?_
  extract_lets s0
  have h0 : Within pl sb s0 := countHeld_only h (subset_sub hp (by decide))
  have k : Holds (InSome (InThd pl sb)) ((nextQueue s0 port).bind fun x => (popQueue s0 port x.1 x.2).map fun r => (x.1, r.1, r.2)) := by
    refine bindAny_holds fun x => ?_
    cases q : popQueue s0 port x.1 x.2 with
    | none => exact leaf_none
    | some r => exact leaf_some (leaf_thd (popQueue_only_eq (ra := r.1) (rb := r.2) h0 (subset_sub hp (by decide)) q))
  clear_value s0
  generalize ((nextQueue s0 port).bind fun x => (popQueue s0 port x.1 x.2).map fun r => (x.1, r.1, r.2)) = o at k
  split
  · exact ite_only (sendControl_only h0 (subset_sub hp (by decide))) h0
  · have h1 := k.of
    refine ite_only (accountWire_only ?_ (subset_sub hp (by decide))) ?_
    all_goals
      refine ite_only (useXfer_only ?_ (subset_sub hp (by decide))) ?_
      all_goals exact telPort_only (modLink_only (emit_only (takeSeq_only h1 (subset_sub hp (by decide))) (subset_sub hp (by decide))) (subset_sub hp (by decide))) (subset_sub hp (by decide))
  · have h1 := k.of
    exact accountWire_only (telPort_only (emit_only h1 (subset_sub hp (by decide))) (subset_sub hp (by decide))) (subset_sub hp (by decide))

theorem execEgressSend_holds {port : Nat} {s : State} (h : Within pl sb s) (hp : [.out, .regs, .eph, .fab, .tel] ⊆ pl) : Holds (InNext pl sb) (execEgressSend port s) :=
  leaf_next (execEgressSend_only h hp rfl)

theorem execRecalSerdesWindow_holds {sec ent : Nat} {s : State} (hO : Within pl sb s) (hP : [.eph] ⊆ pl) : Holds (InNext pl sb) (execRecalSerdesWindow sec ent s) := by
  unfold execRecalSerdesWindow
  repeat' first
    | with_reducible refine leaf_next ?_
    | with_reducible assumption
    | with_reducible refine ite_only ?_ ?_
    | with_reducible refine modEph_only ?_ (subset_sub hP (by decide))
    | split
theorem execRecalSerdesWindow_only {sec ent : Nat} {s : State} {t : State} (hO : Within pl sb s) (hP : [.eph] ⊆ pl) (hE : execRecalSerdesWindow sec ent s = .next t) : Within pl sb t := by
  have k : Holds (InNext pl sb) (execRecalSerdesWindow sec ent s) := execRecalSerdesWindow_holds (sec := sec) (ent := ent) (s := s) hO hP
  rw [hE] at k; exact k.of

theorem mirrorNow_only {s : State} {p : Nat} {cap : Option Nat} (hO : Within pl sb s) (hP : [.out, .freeCount, .fab] ⊆ pl) : Within pl sb (mirrorNow s p cap) := by
  unfold mirrorNow
  repeat' first
    | with_reducible assumption
    | with_reducible refine ite_only ?_ ?_
    | with_reducible refine foldl_only ?_ fun _ _ _ => ?_
    | with_reducible refine emit_only ?_ (subset_sub hP (by decide))
    | with_reducible refine fresh_only_eq ?_ (subset_sub hP (by decide)) (by assumption)
    | with_reducible refine fresh_only ?_ (subset_sub hP (by decide))
    | with_reducible refine modFab_only ?_ (subset_sub hP (by decide))
    | (extract_lets +onlyGivenNames -underBinder x; refine cut_only (ps := pl) (s := sb) (a := x) ?_ ?_; unfold x; rotate_left; clear_value x; intro hx)
    | (extract_lets +onlyGivenNames -underBinder x; (try unfold x); clear x)
    | split

theorem execTransferEntryStart_holds {sec ent : Nat} {s : State} (hO : Within pl sb s) (hP : [.out, .freeCount, .eph, .fab] ⊆ pl) : Holds (InNext pl sb) (execTransferEntryStart sec ent s) := by
  unfold execTransferEntryStart
  repeat' first
    | with_reducible refine leaf_next ?_
    | with_reducible assumption
    | with_reducible refine ite_only ?_ ?_
    | with_reducible refine mirrorNow_only ?_ (subset_sub hP (by decide))
    | with_reducible refine modEph_only ?_ (subset_sub hP (by decide))
    | (extract_lets +onlyGivenNames -underBinder x; refine cut_only (ps := pl) (s := sb) (a := x) ?_ ?_; unfold x; rotate_left; clear_value x; intro hx)
    | (extract_lets +onlyGivenNames -underBinder x; (try unfold x); clear x)
    | split
theorem execTransferEntryStart_only {sec ent : Nat} {s : State} {t : State} (hO : Within pl sb s) (hP : [.out, .freeCount, .eph, .fab] ⊆ pl) (hE : execTransferEntryStart sec ent s = .next t) : Within pl sb t := by
  have k : Holds (InNext pl sb) (execTransferEntryStart sec ent s) := execTransferEntryStart_holds (sec := sec) (ent := ent) (s := s) hO hP
  rw [hE] at k; exact k.of

end Sys2Proof.Machine
end

