-- ==== Sys2Proof/Laws/FrameFabricRx.lean ====
section
/-! SUPPORT. What each function of Machine/FabricRx.lean can do to the state as a whole: the parts it can change; the queue, the population and the
canonical forms it keeps. `f_only` speaks of the state that `f` answers, `f_holds` of a state inside its answer, `f_only_eq` of one taken out. -/

-- One declaration at a time: thousands of proofs in flight at once ask for more threads than fit in memory.
set_option Elab.async false

set_option linter.unusedTactic false
set_option linter.unreachableTactic false
set_option linter.unusedVariables false
set_option linter.unusedSimpArgs false
namespace Sys2Proof.Machine
open Sys2Proof
variable {pl : List Part} {sb : State}

theorem nextOr_only {s : State} {o : Host.Outcome State Fault Refusal} (h : Within pl sb s) (k : Holds (InNext pl sb) o) :
    Within pl sb (nextOr s o) := by
  cases o with
  | next t => exact k.of
  | fault r => exact h
  | refused r => exact h

theorem atomicOp_holds {s : State} {p : Option Nat} {op d : Nat} {data : List Byte} (hO : Within pl sb s) (hP : [.mem, .tel] ⊆ pl) : Holds (InFst pl sb) (atomicOp s p op d data) := by
  unfold atomicOp
  repeat' first
    | with_reducible refine leaf_fst ?_
    | with_reducible assumption
    | with_reducible refine ite_only ?_ ?_
    | with_reducible refine countTile_only ?_ (subset_sub hP (by decide))
    | with_reducible refine tierWriteP_only ?_ (subset_sub hP (by decide))
    | with_reducible refine touchTile_only ?_ (subset_sub hP (by decide))
    | (extract_lets +onlyGivenNames -underBinder x; refine cut_only (ps := pl) (s := sb) (a := x) ?_ ?_; unfold x; rotate_left; clear_value x; intro hx)
    | (extract_lets +onlyGivenNames -underBinder x; (try unfold x); clear x)
theorem atomicOp_only_eq {s : State} {p : Option Nat} {op d : Nat} {data : List Byte} {ra : State} {rb : List Byte} {rc : List Nat} (hO : Within pl sb s) (hP : [.mem, .tel] ⊆ pl) (hE : atomicOp s p op d data = (ra, rb, rc)) : Within pl sb ra := by
  have k : Holds (InFst pl sb) (atomicOp s p op d data) := atomicOp_holds (s := s) (p := p) (op := op) (d := d) (data := data) hO hP
  rw [hE] at k; exact k.of
theorem atomicOp_only {s : State} {p : Option Nat} {op d : Nat} {data : List Byte} (hO : Within pl sb s) (hP : [.mem, .tel] ⊆ pl) : Within pl sb (atomicOp s p op d data).1 := (atomicOp_holds (s := s) (p := p) (op := op) (d := d) (data := data) hO hP).of

theorem sendReply_only {s : State} {m : MemMsg} {op st : Nat} {data : List Byte} {poison : List Nat} (hO : Within pl sb s) (hP : [.out, .regs, .fab, .ctl, .mgt, .alm, .tel] ⊆ pl) : Within pl sb (sendReply s m op st data poison) := by
  unfold sendReply
  repeat' first
    | with_reducible assumption
    | with_reducible refine ite_only ?_ ?_
    | with_reducible refine kqtOnce_only ?_ (subset_sub hP (by decide))
    | with_reducible refine sendCells_holds ?_ (subset_sub hP (by decide))
    | with_reducible refine sendCells_only_eq ?_ (subset_sub hP (by decide)) (by assumption)
    | with_reducible refine takeId_only_eq ?_ (subset_sub hP (by decide)) (by assumption)
    | with_reducible refine modFab_only ?_ (subset_sub hP (by decide))
    | (extract_lets +onlyGivenNames -underBinder x; refine cut_only (ps := pl) (s := sb) (a := x) ?_ ?_; unfold x; rotate_left; clear_value x; intro hx)
    | (extract_lets +onlyGivenNames -underBinder x; (try unfold x); clear x)
    | split

theorem answerMem_only {s : State} {m : MemMsg} {st : Nat} {res : List Byte} {poison : List Nat} (hO : Within pl sb s) (hP : [.out, .regs, .mem, .fab, .ctl, .mgt, .alm, .tel] ⊆ pl) : Within pl sb (answerMem s m st res poison) := by
  unfold answerMem
  repeat' first
    | with_reducible assumption
    | with_reducible refine ite_only ?_ ?_
    | with_reducible refine countTiles_only ?_ (subset_sub hP (by decide))
    | with_reducible refine sendReply_only ?_ (subset_sub hP (by decide))
    | with_reducible refine touchTile_only ?_ (subset_sub hP (by decide))
    | (extract_lets +onlyGivenNames -underBinder x; refine cut_only (ps := pl) (s := sb) (a := x) ?_ ?_; unfold x; rotate_left; clear_value x; intro hx)
    | (extract_lets +onlyGivenNames -underBinder x; (try unfold x); clear x)

theorem dispatchState_only {s : State} {dev op : Nat} {m : StateMsg} (hO : Within pl sb s) (hP : [.out, .freeCount, .regs, .cons, .eph, .work, .tabs, .mem, .serve, .ctl, .mgt, .alm, .tel] ⊆ pl) : Within pl sb (dispatchState s dev op m) := by
  unfold dispatchState
  repeat' first
    | with_reducible refine leaf_next ?_
    | with_reducible assumption
    | with_reducible refine execMsgAbort_holds ?_ (subset_sub hP (by decide))
    | with_reducible refine execMsgCommit_holds ?_ (subset_sub hP (by decide))
    | with_reducible refine execMsgFetch_holds ?_ (subset_sub hP (by decide))
    | with_reducible refine execMsgInstall_holds ?_ (subset_sub hP (by decide))
    | with_reducible refine execMsgLookup_holds ?_ (subset_sub hP (by decide))
    | with_reducible refine execMsgMoveAck_holds ?_ (subset_sub hP (by decide))
    | with_reducible refine execMsgPages_holds ?_ (subset_sub hP (by decide))
    | with_reducible refine execMsgPartial_holds ?_ (subset_sub hP (by decide))
    | with_reducible refine execMsgPooled_holds ?_ (subset_sub hP (by decide))
    | with_reducible refine execMsgQuery_holds ?_ (subset_sub hP (by decide))
    | with_reducible refine execMsgRef_holds ?_ (subset_sub hP (by decide))
    | with_reducible refine execMsgRelease_holds ?_ (subset_sub hP (by decide))
    | with_reducible refine execMsgUpdate_holds ?_ (subset_sub hP (by decide))
    | with_reducible refine execMsgUpdateAck_holds ?_ (subset_sub hP (by decide))
    | with_reducible refine nextOr_only ?_ ?_
    | split

theorem takeTopology_only {s : State} {dev : Nat} {ports : List (Nat × Nat)} (hO : Within pl sb s) (hP : [.fab] ⊆ pl) : Within pl sb (takeTopology s dev ports) := by
  unfold takeTopology
  repeat' first
    | with_reducible assumption
    | with_reducible refine ite_only ?_ ?_
    | with_reducible refine modFab_only ?_ (subset_sub hP (by decide))

theorem markFills_only {s : State} {addr len : Nat} (hO : Within pl sb s) (hP : [.fab] ⊆ pl) : Within pl sb (markFills s addr len) := by
  unfold markFills
  repeat' first
    | with_reducible assumption
    | with_reducible refine ite_only ?_ ?_
    | with_reducible refine modFab_only ?_ (subset_sub hP (by decide))
    | (extract_lets +onlyGivenNames -underBinder x; refine cut_only (ps := pl) (s := sb) (a := x) ?_ ?_; unfold x; rotate_left; clear_value x; intro hx)
    | (extract_lets +onlyGivenNames -underBinder x; (try unfold x); clear x)

theorem applyMsg_holds {s : State} {m : MemMsg} {wrote : Bool} (hO : Within pl sb s) (hP : [.out, .freeCount, .regs, .cons, .eph, .work, .tabs, .mem, .serve, .fab, .ctl, .mgt, .alm, .tel] ⊆ pl) : Holds (InFst pl sb) (applyMsg s m wrote) := by
  unfold applyMsg
  repeat' first
    | with_reducible refine ite_holds ?_ ?_
    | with_reducible refine leaf_fst ?_
    | with_reducible assumption
    | with_reducible refine ite_only ?_ ?_
    | with_reducible refine answerMem_only ?_ (subset_sub hP (by decide))
    | with_reducible refine atomicOp_only_eq ?_ (subset_sub hP (by decide)) (by assumption)
    | with_reducible refine atomicOp_only ?_ (subset_sub hP (by decide))
    | with_reducible refine countTiles_only ?_ (subset_sub hP (by decide))
    | with_reducible refine dispatchState_only ?_ (subset_sub hP (by decide))
    | with_reducible refine markFills_only ?_ (subset_sub hP (by decide))
    | with_reducible refine rrcDrop_only ?_ (subset_sub hP (by decide))
    | with_reducible refine sendReply_only ?_ (subset_sub hP (by decide))
    | with_reducible refine tierSetPoison_only ?_ (subset_sub hP (by decide))
    | with_reducible refine tierWriteP_only ?_ (subset_sub hP (by decide))
    | with_reducible refine touchTile_only ?_ (subset_sub hP (by decide))
    | (extract_lets +onlyGivenNames -underBinder x; refine cut_only (ps := pl) (s := sb) (a := x) ?_ ?_; unfold x; rotate_left; clear_value x; intro hx)
    | (extract_lets +onlyGivenNames -underBinder x; (try unfold x); clear x)
    | split
theorem applyMsg_only_eq {s : State} {m : MemMsg} {wrote : Bool} {ra : State} {rb : Nat} {rc : List Byte} (hO : Within pl sb s) (hP : [.out, .freeCount, .regs, .cons, .eph, .work, .tabs, .mem, .serve, .fab, .ctl, .mgt, .alm, .tel] ⊆ pl) (hE : applyMsg s m wrote = (ra, rb, rc)) : Within pl sb ra := by
  have k : Holds (InFst pl sb) (applyMsg s m wrote) := applyMsg_holds (s := s) (m := m) (wrote := wrote) hO hP
  rw [hE] at k; exact k.of
theorem applyMsg_only {s : State} {m : MemMsg} {wrote : Bool} (hO : Within pl sb s) (hP : [.out, .freeCount, .regs, .cons, .eph, .work, .tabs, .mem, .serve, .fab, .ctl, .mgt, .alm, .tel] ⊆ pl) : Within pl sb (applyMsg s m wrote).1 := (applyMsg_holds (s := s) (m := m) (wrote := wrote) hO hP).of

theorem modStream_only {s : State} {src stream : Nat} {f : RxStream → RxStream} (hO : Within pl sb s) (hP : [.fab] ⊆ pl) : Within pl sb (modStream s src stream f) := by
  unfold modStream
  repeat' first
    | with_reducible assumption
    | with_reducible refine modFab_only ?_ (subset_sub hP (by decide))

theorem recordApplied_only {s : State} {m : MemMsg} {st : Nat} {res : List Byte} (hO : Within pl sb s) (hP : [.fab] ⊆ pl) : Within pl sb (recordApplied s m st res) := by
  unfold recordApplied
  repeat' first
    | with_reducible assumption
    | with_reducible refine modStream_only ?_ (subset_sub hP (by decide))
    | (extract_lets +onlyGivenNames -underBinder x; refine cut_only (ps := pl) (s := sb) (a := x) ?_ ?_; unfold x; rotate_left; clear_value x; intro hx)
    | (extract_lets +onlyGivenNames -underBinder x; (try unfold x); clear x)

theorem drainStream_only {src stream fuel : Nat} {s : State} (h : Within pl sb s) (hp : [.out, .freeCount, .regs, .cons, .eph, .work, .tabs, .mem, .serve, .fab, .ctl, .mgt, .alm, .tel] ⊆ pl) :
    Within pl sb (drainStream src stream fuel s) := by
  induction fuel generalizing s with
  | zero => exact h
  | succ fuel ih =>
    unfold drainStream
    split
    · exact h
    · split
      · exact h
      · refine ite_only h ?_
        exact ih (recordApplied_only (applyMsg_only (modFab_only h (subset_sub hp (by decide))) (subset_sub hp (by decide))) (subset_sub hp (by decide)))

theorem inStream_only {s : State} {c : RxStream} {m : MemMsg} {wrote : Bool} (hO : Within pl sb s) (hP : [.out, .freeCount, .regs, .cons, .eph, .work, .tabs, .mem, .serve, .fab, .ctl, .mgt, .alm, .tel] ⊆ pl) : Within pl sb (inStream s c m wrote) := by
  unfold inStream
  repeat' first
    | with_reducible assumption
    | with_reducible refine ite_only ?_ ?_
    | with_reducible refine answerMem_only ?_ (subset_sub hP (by decide))
    | with_reducible refine applyMsg_only_eq ?_ (subset_sub hP (by decide)) (by assumption)
    | with_reducible refine applyMsg_only ?_ (subset_sub hP (by decide))
    | with_reducible refine countDrop_only ?_ (subset_sub hP (by decide))
    | with_reducible refine drainStream_only ?_ (subset_sub hP (by decide))
    | with_reducible refine modStream_only ?_ (subset_sub hP (by decide))
    | with_reducible refine odCount_only ?_ (subset_sub hP (by decide))
    | with_reducible refine recordApplied_only ?_ (subset_sub hP (by decide))
    | with_reducible refine modFab_only ?_ (subset_sub hP (by decide))
    | (extract_lets +onlyGivenNames -underBinder x; refine cut_only (ps := pl) (s := sb) (a := x) ?_ ?_; unfold x; rotate_left; clear_value x; intro hx)
    | (extract_lets +onlyGivenNames -underBinder x; (try unfold x); clear x)
    | split

theorem releaseHeld_only {s : State} {src stream : Nat} (hO : Within pl sb s) (hP : [.out, .freeCount, .regs, .cons, .eph, .work, .tabs, .mem, .serve, .fab, .ctl, .mgt, .alm, .tel] ⊆ pl) : Within pl sb (releaseHeld s src stream) := by
  unfold releaseHeld
  repeat' first
    | with_reducible assumption
    | with_reducible refine foldl_only ?_ fun _ _ _ => ?_
    | with_reducible refine inStream_only ?_ (subset_sub hP (by decide))
    | with_reducible refine modFab_only ?_ (subset_sub hP (by decide))
    | (extract_lets +onlyGivenNames -underBinder x; refine cut_only (ps := pl) (s := sb) (a := x) ?_ ?_; unfold x; rotate_left; clear_value x; intro hx)
    | (extract_lets +onlyGivenNames -underBinder x; (try unfold x); clear x)
    | split

theorem resumeMsgs_only {s : State} (hO : Within pl sb s) (hP : [.out, .freeCount, .regs, .cons, .eph, .work, .tabs, .mem, .serve, .fab, .ctl, .mgt, .alm, .tel] ⊆ pl) : Within pl sb (resumeMsgs s) := by
  unfold resumeMsgs
  repeat' first
    | with_reducible assumption
    | with_reducible refine ite_only ?_ ?_
    | with_reducible refine foldl_only ?_ fun _ _ _ => ?_
    | with_reducible refine drainStream_only ?_ (subset_sub hP (by decide))
    | with_reducible refine inStream_only ?_ (subset_sub hP (by decide))
    | with_reducible refine modFab_only ?_ (subset_sub hP (by decide))
    | (extract_lets +onlyGivenNames -underBinder x; refine cut_only (ps := pl) (s := sb) (a := x) ?_ ?_; unfold x; rotate_left; clear_value x; intro hx)
    | (extract_lets +onlyGivenNames -underBinder x; (try unfold x); clear x)
    | split

theorem streamMsg_only {s : State} {m : MemMsg} {wrote : Bool} (hO : Within pl sb s) (hP : [.out, .freeCount, .regs, .cons, .eph, .work, .tabs, .mem, .serve, .fab, .ctl, .mgt, .alm, .tel] ⊆ pl) : Within pl sb (streamMsg s m wrote) := by
  unfold streamMsg
  repeat' first
    | with_reducible assumption
    | with_reducible refine ite_only ?_ ?_
    | with_reducible refine countDrop_only ?_ (subset_sub hP (by decide))
    | with_reducible refine inStream_only ?_ (subset_sub hP (by decide))
    | with_reducible refine modStream_only ?_ (subset_sub hP (by decide))
    | with_reducible refine releaseHeld_only ?_ (subset_sub hP (by decide))
    | with_reducible refine modFab_only ?_ (subset_sub hP (by decide))
    | (extract_lets +onlyGivenNames -underBinder x; refine cut_only (ps := pl) (s := sb) (a := x) ?_ ?_; unfold x; rotate_left; clear_value x; intro hx)
    | (extract_lets +onlyGivenNames -underBinder x; (try unfold x); clear x)
    | split

theorem bar2Tile_only {s : State} {p tag tile st : Nat} {bytes : List Byte} {ws : List Nat} (hO : Within pl sb s) (hP : [.out, .px] ⊆ pl) : Within pl sb (bar2Tile s p tag tile st bytes ws) := by
  unfold bar2Tile
  repeat' first
    | with_reducible assumption
    | with_reducible refine ite_only ?_ ?_
    | with_reducible refine emit_only ?_ (subset_sub hP (by decide))
    | with_reducible refine modPx_only ?_ (subset_sub hP (by decide))
    | (extract_lets +onlyGivenNames -underBinder x; refine cut_only (ps := pl) (s := sb) (a := x) ?_ ?_; unfold x; rotate_left; clear_value x; intro hx)
    | (extract_lets +onlyGivenNames -underBinder x; (try unfold x); clear x)
    | split

theorem completeOwner_only {s : State} {o : MemOwner} {st : Nat} {bytes : List Byte} {ws : List Nat} (hO : Within pl sb s) (hP : [.out, .freeCount, .regs, .cons, .work, .mem, .serve, .px, .ctl, .tel] ⊆ pl) : Within pl sb (completeOwner s o st bytes ws) := by
  unfold completeOwner
  repeat' first
    | with_reducible assumption
    | with_reducible refine ite_only ?_ ?_
    | with_reducible refine bar2Tile_only ?_ (subset_sub hP (by decide))
    | with_reducible refine failInst_only ?_ (subset_sub hP (by decide))
    | with_reducible refine loadTile_only ?_ (subset_sub hP (by decide))
    | with_reducible refine modInst_only ?_ (subset_sub hP (by decide))
    | with_reducible refine tileCount_only ?_ (subset_sub hP (by decide))
    | with_reducible refine tileDone_only ?_ (subset_sub hP (by decide))
    | split

theorem tryFence_only {s : State} {op : Nat} (hO : Within pl sb s) (hP : [.out, .freeCount, .regs, .cons, .work, .mem, .serve, .fab, .px, .ctl, .tel] ⊆ pl) : Within pl sb (tryFence s op) := by
  unfold tryFence
  repeat' first
    | with_reducible assumption
    | with_reducible refine ite_only ?_ ?_
    | with_reducible refine completeOwner_only ?_ (subset_sub hP (by decide))
    | with_reducible refine modFab_only ?_ (subset_sub hP (by decide))
    | split

theorem endInval_only {s : State} {m : SentMsg} {lost : Bool} (hO : Within pl sb s) (hP : [.out, .freeCount, .regs, .cons, .work, .mem, .serve, .fab, .px, .ctl, .tel] ⊆ pl) : Within pl sb (endInval s m lost) := by
  unfold endInval
  repeat' first
    | with_reducible assumption
    | with_reducible refine ite_only ?_ ?_
    | with_reducible refine dropMsg_only ?_ (subset_sub hP (by decide))
    | with_reducible refine odCount_only ?_ (subset_sub hP (by decide))
    | with_reducible refine tryFence_only ?_ (subset_sub hP (by decide))
    | with_reducible refine modFab_only ?_ (subset_sub hP (by decide))
    | (extract_lets +onlyGivenNames -underBinder x; refine cut_only (ps := pl) (s := sb) (a := x) ?_ ?_; unfold x; rotate_left; clear_value x; intro hx)
    | (extract_lets +onlyGivenNames -underBinder x; (try unfold x); clear x)
    | split

theorem writeReplied_only {s : State} {m : SentMsg} {st : Nat} {data : List Byte} {ws : List Nat} (hO : Within pl sb s) (hP : [.out, .freeCount, .regs, .cons, .work, .mem, .serve, .fab, .px, .ctl, .mgt, .alm, .tel] ⊆ pl) : Within pl sb (writeReplied s m st data ws) := by
  unfold writeReplied
  repeat' first
    | with_reducible assumption
    | with_reducible refine ite_only ?_ ?_
    | with_reducible refine foldl_only ?_ fun _ _ _ => ?_
    | with_reducible refine completeOwner_only ?_ (subset_sub hP (by decide))
    | with_reducible refine dropMsg_only ?_ (subset_sub hP (by decide))
    | with_reducible refine sendMsg_only_eq ?_ (subset_sub hP (by decide)) (by assumption)
    | with_reducible refine sendMsg_only ?_ (subset_sub hP (by decide))
    | with_reducible refine tryFence_only ?_ (subset_sub hP (by decide))
    | with_reducible refine modFab_only ?_ (subset_sub hP (by decide))
    | (extract_lets +onlyGivenNames -underBinder x; refine cut_only (ps := pl) (s := sb) (a := x) ?_ ?_; unfold x; rotate_left; clear_value x; intro hx)
    | (extract_lets +onlyGivenNames -underBinder x; (try unfold x); clear x)
    | split

theorem takeReply_only {s : State} {r : MemMsg} (hO : Within pl sb s) (hP : [.out, .freeCount, .regs, .cons, .work, .mem, .serve, .fab, .px, .ctl, .mgt, .alm, .tel] ⊆ pl) : Within pl sb (takeReply s r) := by
  unfold takeReply
  repeat' first
    | with_reducible assumption
    | with_reducible refine ite_only ?_ ?_
    | with_reducible refine foldl_only ?_ fun _ _ _ => ?_
    | with_reducible refine completeOwner_only ?_ (subset_sub hP (by decide))
    | with_reducible refine dropMsg_only ?_ (subset_sub hP (by decide))
    | with_reducible refine endInval_only ?_ (subset_sub hP (by decide))
    | with_reducible refine resendMsg_only ?_ (subset_sub hP (by decide))
    | with_reducible refine rrcFill_only ?_ (subset_sub hP (by decide))
    | with_reducible refine writeReplied_only ?_ (subset_sub hP (by decide))
    | with_reducible refine modFab_only ?_ (subset_sub hP (by decide))
    | (extract_lets +onlyGivenNames -underBinder x; refine cut_only (ps := pl) (s := sb) (a := x) ?_ ?_; unfold x; rotate_left; clear_value x; intro hx)
    | (extract_lets +onlyGivenNames -underBinder x; (try unfold x); clear x)
    | split

theorem takeMsg_only {s : State} {m : MemMsg} {wrote : Bool} (hO : Within pl sb s) (hP : [.out, .freeCount, .regs, .cons, .eph, .work, .tabs, .mem, .serve, .fab, .px, .ctl, .mgt, .alm, .tel] ⊆ pl) : Within pl sb (takeMsg s m wrote) := by
  unfold takeMsg
  repeat' first
    | with_reducible assumption
    | with_reducible refine ite_only ?_ ?_
    | with_reducible refine streamMsg_only ?_ (subset_sub hP (by decide))
    | with_reducible refine takeReply_only ?_ (subset_sub hP (by decide))
    | with_reducible refine takeTopology_only ?_ (subset_sub hP (by decide))
    | (extract_lets +onlyGivenNames -underBinder x; refine cut_only (ps := pl) (s := sb) (a := x) ?_ ?_; unfold x; rotate_left; clear_value x; intro hx)
    | (extract_lets +onlyGivenNames -underBinder x; (try unfold x); clear x)

theorem setCtx_only {s : State} {c : RxCtx} (hO : Within pl sb s) (hP : [.fab] ⊆ pl) : Within pl sb (setCtx s c) := by
  unfold setCtx
  repeat' first
    | with_reducible assumption
    | with_reducible refine modFab_only ?_ (subset_sub hP (by decide))

theorem dropCtx_only {s : State} {src id : Nat} (hO : Within pl sb s) (hP : [.fab] ⊆ pl) : Within pl sb (dropCtx s src id) := by
  unfold dropCtx
  repeat' first
    | with_reducible assumption
    | with_reducible refine modFab_only ?_ (subset_sub hP (by decide))

theorem nakCtx_only {s : State} {c : RxCtx} (hO : Within pl sb s) (hP : [.out, .regs, .fab, .ctl, .mgt, .alm, .tel] ⊆ pl) : Within pl sb (nakCtx s c) := by
  unfold nakCtx
  repeat' first
    | with_reducible assumption
    | with_reducible refine dropCtx_only ?_ (subset_sub hP (by decide))
    | with_reducible refine sendReply_only ?_ (subset_sub hP (by decide))

theorem writeEarly_holds {s : State} {c : RxCtx} (hO : Within pl sb s) (hP : [.mem] ⊆ pl) : Holds (InFst pl sb) (writeEarly s c) := by
  unfold writeEarly
  repeat' first
    | with_reducible refine ite_holds ?_ ?_
    | with_reducible refine leaf_fst ?_
    | with_reducible assumption
    | with_reducible refine ite_only ?_ ?_
    | with_reducible refine foldl_only ?_ fun _ _ _ => ?_
    | with_reducible refine tierWriteP_only ?_ (subset_sub hP (by decide))
    | (extract_lets +onlyGivenNames -underBinder x; refine cut_only (ps := pl) (s := sb) (a := x) ?_ ?_; unfold x; rotate_left; clear_value x; intro hx)
    | (extract_lets +onlyGivenNames -underBinder x; (try unfold x); clear x)
    | split
theorem writeEarly_only_eq {s : State} {c : RxCtx} {ra : State} {rb : RxCtx} (hO : Within pl sb s) (hP : [.mem] ⊆ pl) (hE : writeEarly s c = (ra, rb)) : Within pl sb ra := by
  have k : Holds (InFst pl sb) (writeEarly s c) := writeEarly_holds (s := s) (c := c) hO hP
  rw [hE] at k; exact k.of
theorem writeEarly_only {s : State} {c : RxCtx} (hO : Within pl sb s) (hP : [.mem] ⊆ pl) : Within pl sb (writeEarly s c).1 := (writeEarly_holds (s := s) (c := c) hO hP).of

theorem ctxWhole_only {s : State} {c : RxCtx} (hO : Within pl sb s) (hP : [.out, .freeCount, .regs, .cons, .eph, .work, .tabs, .mem, .serve, .fab, .px, .ctl, .mgt, .alm, .tel] ⊆ pl) : Within pl sb (ctxWhole s c) := by
  unfold ctxWhole
  repeat' first
    | with_reducible assumption
    | with_reducible refine ite_only ?_ ?_
    | with_reducible refine dropCtx_only ?_ (subset_sub hP (by decide))
    | with_reducible refine takeMsg_only ?_ (subset_sub hP (by decide))
    | (extract_lets +onlyGivenNames -underBinder x; refine cut_only (ps := pl) (s := sb) (a := x) ?_ ?_; unfold x; rotate_left; clear_value x; intro hx)
    | (extract_lets +onlyGivenNames -underBinder x; (try unfold x); clear x)
    | split

theorem reassemble_only {s : State} {c : Cell} (hO : Within pl sb s) (hP : [.out, .freeCount, .regs, .cons, .eph, .work, .tabs, .mem, .serve, .fab, .px, .ctl, .mgt, .alm, .tel] ⊆ pl) : Within pl sb (reassemble s c) := by
  unfold reassemble
  repeat' first
    | with_reducible assumption
    | with_reducible refine ite_only ?_ ?_
    | with_reducible refine countDrop_only ?_ (subset_sub hP (by decide))
    | with_reducible refine ctxWhole_only ?_ (subset_sub hP (by decide))
    | with_reducible refine nakCtx_only ?_ (subset_sub hP (by decide))
    | with_reducible refine odCount_only ?_ (subset_sub hP (by decide))
    | with_reducible refine setCtx_only ?_ (subset_sub hP (by decide))
    | with_reducible refine writeEarly_only_eq ?_ (subset_sub hP (by decide)) (by assumption)
    | with_reducible refine writeEarly_only ?_ (subset_sub hP (by decide))
    | (extract_lets +onlyGivenNames -underBinder x; refine cut_only (ps := pl) (s := sb) (a := x) ?_ ?_; unfold x; rotate_left; clear_value x; intro hx)
    | (extract_lets +onlyGivenNames -underBinder x; (try unfold x); clear x)
    | split

theorem execCellData_only {port : Nat} {c : WireCell} {s : State} {t : State} (h : Within pl sb s) (hP : [.out, .freeCount, .regs, .cons, .eph, .work, .tabs, .mem, .serve, .fab, .px, .ctl, .mgt, .alm, .tel] ⊆ pl) (e : execCellData port c s = .next t) :
    Within pl sb t := by
  unfold execCellData at e
  have a := checkCell_only (n := port) (kind := 1) (c := c) h (subset_sub hP (by decide))
  injection e with e
  rw [← e]
  clear e
  split
  rename_i s1 ok e
  rw [e] at a
  clear e
  refine ite_only a ?_
  have b := acceptSeq_only (n := port) (seq := c.seq) a (subset_sub hP (by decide))
  split
  rename_i s2 f e
  rw [e] at b
  clear e
  refine ite_only b ?_
  extract_lets d s3 s4 s5 s6 s7
  have h3 : Within pl sb s3 := modLink_only b (subset_sub hP (by decide))
  have h4 : Within pl sb s4 := telPort_only h3 (subset_sub hP (by decide))
  have h5 : Within pl sb s5 := ite_only (telPort_only h4 (subset_sub hP (by decide))) h4
  have h6 : Within pl sb s6 := ite_only (telPort_only h5 (subset_sub hP (by decide))) h5
  have h7 : Within pl sb s7 := ite_only h6 (accountWire_only h6 (subset_sub hP (by decide)))
  clear_value d s3 s4 s5 s6 s7
  refine ite_only (linkCount_only h6 (subset_sub hP (by decide))) (ite_only ?_ (ite_only (countDrop_only h6 (subset_sub hP (by decide))) ?_))
  · exact reassemble_only (ite_only (telAcct_only h7 (subset_sub hP (by decide))) h7) (subset_sub hP (by decide))
  · split
    · exact routeCell_only_eq h6 (subset_sub hP (by decide)) (by assumption)
    · exact kqtOnce_only (countDrop_only h6 (subset_sub hP (by decide))) (subset_sub hP (by decide))

theorem execCellData_holds {port : Nat} {c : WireCell} {s : State} (h : Within pl sb s) (hp : [.out, .freeCount, .regs, .cons, .eph, .work, .tabs, .mem, .serve, .fab, .px, .ctl, .mgt, .alm, .tel] ⊆ pl) : Holds (InNext pl sb) (execCellData port c s) :=
  leaf_next (execCellData_only h hp rfl)

theorem memCommand_holds {m : MemMsg} {ops : Nat → Bool} {s : State} (hO : Within pl sb s) (hP : [.out, .freeCount, .regs, .cons, .eph, .work, .tabs, .mem, .serve, .fab, .px, .ctl, .mgt, .alm, .tel] ⊆ pl) : Holds (InNext pl sb) (memCommand m ops s) := by
  unfold memCommand
  repeat' first
    | with_reducible refine leaf_next ?_
    | with_reducible assumption
    | with_reducible refine ite_only ?_ ?_
    | with_reducible refine takeMsg_only ?_ (subset_sub hP (by decide))
theorem memCommand_only {m : MemMsg} {ops : Nat → Bool} {s : State} {t : State} (hO : Within pl sb s) (hP : [.out, .freeCount, .regs, .cons, .eph, .work, .tabs, .mem, .serve, .fab, .px, .ctl, .mgt, .alm, .tel] ⊆ pl) (hE : memCommand m ops s = .next t) : Within pl sb t := by
  have k : Holds (InNext pl sb) (memCommand m ops s) := memCommand_holds (m := m) (ops := ops) (s := s) hO hP
  rw [hE] at k; exact k.of

theorem execMemRead_holds {m : MemMsg} {s : State} (hO : Within pl sb s) (hP : [.out, .freeCount, .regs, .cons, .eph, .work, .tabs, .mem, .serve, .fab, .px, .ctl, .mgt, .alm, .tel] ⊆ pl) : Holds (InNext pl sb) (execMemRead m s) := by
  unfold execMemRead
  repeat' first
    | with_reducible refine leaf_next ?_
    | with_reducible assumption
    | with_reducible refine memCommand_holds ?_ (subset_sub hP (by decide))
theorem execMemRead_only {m : MemMsg} {s : State} {t : State} (hO : Within pl sb s) (hP : [.out, .freeCount, .regs, .cons, .eph, .work, .tabs, .mem, .serve, .fab, .px, .ctl, .mgt, .alm, .tel] ⊆ pl) (hE : execMemRead m s = .next t) : Within pl sb t := by
  have k : Holds (InNext pl sb) (execMemRead m s) := execMemRead_holds (m := m) (s := s) hO hP
  rw [hE] at k; exact k.of

theorem execMemReadData_holds {m : MemMsg} {s : State} (hO : Within pl sb s) (hP : [.out, .freeCount, .regs, .cons, .eph, .work, .tabs, .mem, .serve, .fab, .px, .ctl, .mgt, .alm, .tel] ⊆ pl) : Holds (InNext pl sb) (execMemReadData m s) := by
  unfold execMemReadData
  repeat' first
    | with_reducible refine leaf_next ?_
    | with_reducible assumption
    | with_reducible refine memCommand_holds ?_ (subset_sub hP (by decide))
theorem execMemReadData_only {m : MemMsg} {s : State} {t : State} (hO : Within pl sb s) (hP : [.out, .freeCount, .regs, .cons, .eph, .work, .tabs, .mem, .serve, .fab, .px, .ctl, .mgt, .alm, .tel] ⊆ pl) (hE : execMemReadData m s = .next t) : Within pl sb t := by
  have k : Holds (InNext pl sb) (execMemReadData m s) := execMemReadData_holds (m := m) (s := s) hO hP
  rw [hE] at k; exact k.of

theorem execMemWrite_holds {m : MemMsg} {s : State} (hO : Within pl sb s) (hP : [.out, .freeCount, .regs, .cons, .eph, .work, .tabs, .mem, .serve, .fab, .px, .ctl, .mgt, .alm, .tel] ⊆ pl) : Holds (InNext pl sb) (execMemWrite m s) := by
  unfold execMemWrite
  repeat' first
    | with_reducible refine leaf_next ?_
    | with_reducible assumption
    | with_reducible refine memCommand_holds ?_ (subset_sub hP (by decide))
theorem execMemWrite_only {m : MemMsg} {s : State} {t : State} (hO : Within pl sb s) (hP : [.out, .freeCount, .regs, .cons, .eph, .work, .tabs, .mem, .serve, .fab, .px, .ctl, .mgt, .alm, .tel] ⊆ pl) (hE : execMemWrite m s = .next t) : Within pl sb t := by
  have k : Holds (InNext pl sb) (execMemWrite m s) := execMemWrite_holds (m := m) (s := s) hO hP
  rw [hE] at k; exact k.of

theorem execMemComplete_holds {m : MemMsg} {s : State} (hO : Within pl sb s) (hP : [.out, .freeCount, .regs, .cons, .eph, .work, .tabs, .mem, .serve, .fab, .px, .ctl, .mgt, .alm, .tel] ⊆ pl) : Holds (InNext pl sb) (execMemComplete m s) := by
  unfold execMemComplete
  repeat' first
    | with_reducible refine leaf_next ?_
    | with_reducible assumption
    | with_reducible refine memCommand_holds ?_ (subset_sub hP (by decide))
theorem execMemComplete_only {m : MemMsg} {s : State} {t : State} (hO : Within pl sb s) (hP : [.out, .freeCount, .regs, .cons, .eph, .work, .tabs, .mem, .serve, .fab, .px, .ctl, .mgt, .alm, .tel] ⊆ pl) (hE : execMemComplete m s = .next t) : Within pl sb t := by
  have k : Holds (InNext pl sb) (execMemComplete m s) := execMemComplete_holds (m := m) (s := s) hO hP
  rw [hE] at k; exact k.of

theorem execMemMsgNak_holds {m : MemMsg} {s : State} (hO : Within pl sb s) (hP : [.out, .freeCount, .regs, .cons, .eph, .work, .tabs, .mem, .serve, .fab, .px, .ctl, .mgt, .alm, .tel] ⊆ pl) : Holds (InNext pl sb) (execMemMsgNak m s) := by
  unfold execMemMsgNak
  repeat' first
    | with_reducible refine leaf_next ?_
    | with_reducible assumption
    | with_reducible refine memCommand_holds ?_ (subset_sub hP (by decide))
theorem execMemMsgNak_only {m : MemMsg} {s : State} {t : State} (hO : Within pl sb s) (hP : [.out, .freeCount, .regs, .cons, .eph, .work, .tabs, .mem, .serve, .fab, .px, .ctl, .mgt, .alm, .tel] ⊆ pl) (hE : execMemMsgNak m s = .next t) : Within pl sb t := by
  have k : Holds (InNext pl sb) (execMemMsgNak m s) := execMemMsgNak_holds (m := m) (s := s) hO hP
  rw [hE] at k; exact k.of

theorem execMemFetchAdd_holds {m : MemMsg} {s : State} (hO : Within pl sb s) (hP : [.out, .freeCount, .regs, .cons, .eph, .work, .tabs, .mem, .serve, .fab, .px, .ctl, .mgt, .alm, .tel] ⊆ pl) : Holds (InNext pl sb) (execMemFetchAdd m s) := by
  unfold execMemFetchAdd
  repeat' first
    | with_reducible refine leaf_next ?_
    | with_reducible assumption
    | with_reducible refine memCommand_holds ?_ (subset_sub hP (by decide))
theorem execMemFetchAdd_only {m : MemMsg} {s : State} {t : State} (hO : Within pl sb s) (hP : [.out, .freeCount, .regs, .cons, .eph, .work, .tabs, .mem, .serve, .fab, .px, .ctl, .mgt, .alm, .tel] ⊆ pl) (hE : execMemFetchAdd m s = .next t) : Within pl sb t := by
  have k : Holds (InNext pl sb) (execMemFetchAdd m s) := execMemFetchAdd_holds (m := m) (s := s) hO hP
  rw [hE] at k; exact k.of

theorem execMemSwap_holds {m : MemMsg} {s : State} (hO : Within pl sb s) (hP : [.out, .freeCount, .regs, .cons, .eph, .work, .tabs, .mem, .serve, .fab, .px, .ctl, .mgt, .alm, .tel] ⊆ pl) : Holds (InNext pl sb) (execMemSwap m s) := by
  unfold execMemSwap
  repeat' first
    | with_reducible refine leaf_next ?_
    | with_reducible assumption
    | with_reducible refine memCommand_holds ?_ (subset_sub hP (by decide))
theorem execMemSwap_only {m : MemMsg} {s : State} {t : State} (hO : Within pl sb s) (hP : [.out, .freeCount, .regs, .cons, .eph, .work, .tabs, .mem, .serve, .fab, .px, .ctl, .mgt, .alm, .tel] ⊆ pl) (hE : execMemSwap m s = .next t) : Within pl sb t := by
  have k : Holds (InNext pl sb) (execMemSwap m s) := execMemSwap_holds (m := m) (s := s) hO hP
  rw [hE] at k; exact k.of

theorem execMemCas_holds {m : MemMsg} {s : State} (hO : Within pl sb s) (hP : [.out, .freeCount, .regs, .cons, .eph, .work, .tabs, .mem, .serve, .fab, .px, .ctl, .mgt, .alm, .tel] ⊆ pl) : Holds (InNext pl sb) (execMemCas m s) := by
  unfold execMemCas
  repeat' first
    | with_reducible refine leaf_next ?_
    | with_reducible assumption
    | with_reducible refine memCommand_holds ?_ (subset_sub hP (by decide))
theorem execMemCas_only {m : MemMsg} {s : State} {t : State} (hO : Within pl sb s) (hP : [.out, .freeCount, .regs, .cons, .eph, .work, .tabs, .mem, .serve, .fab, .px, .ctl, .mgt, .alm, .tel] ⊆ pl) (hE : execMemCas m s = .next t) : Within pl sb t := by
  have k : Holds (InNext pl sb) (execMemCas m s) := execMemCas_holds (m := m) (s := s) hO hP
  rw [hE] at k; exact k.of

theorem execMemAtomicData_holds {m : MemMsg} {s : State} (hO : Within pl sb s) (hP : [.out, .freeCount, .regs, .cons, .eph, .work, .tabs, .mem, .serve, .fab, .px, .ctl, .mgt, .alm, .tel] ⊆ pl) : Holds (InNext pl sb) (execMemAtomicData m s) := by
  unfold execMemAtomicData
  repeat' first
    | with_reducible refine leaf_next ?_
    | with_reducible assumption
    | with_reducible refine memCommand_holds ?_ (subset_sub hP (by decide))
theorem execMemAtomicData_only {m : MemMsg} {s : State} {t : State} (hO : Within pl sb s) (hP : [.out, .freeCount, .regs, .cons, .eph, .work, .tabs, .mem, .serve, .fab, .px, .ctl, .mgt, .alm, .tel] ⊆ pl) (hE : execMemAtomicData m s = .next t) : Within pl sb t := by
  have k : Holds (InNext pl sb) (execMemAtomicData m s) := execMemAtomicData_holds (m := m) (s := s) hO hP
  rw [hE] at k; exact k.of

theorem execMemInvalidate_holds {m : MemMsg} {s : State} (hO : Within pl sb s) (hP : [.out, .freeCount, .regs, .cons, .eph, .work, .tabs, .mem, .serve, .fab, .px, .ctl, .mgt, .alm, .tel] ⊆ pl) : Holds (InNext pl sb) (execMemInvalidate m s) := by
  unfold execMemInvalidate
  repeat' first
    | with_reducible refine leaf_next ?_
    | with_reducible assumption
    | with_reducible refine memCommand_holds ?_ (subset_sub hP (by decide))
theorem execMemInvalidate_only {m : MemMsg} {s : State} {t : State} (hO : Within pl sb s) (hP : [.out, .freeCount, .regs, .cons, .eph, .work, .tabs, .mem, .serve, .fab, .px, .ctl, .mgt, .alm, .tel] ⊆ pl) (hE : execMemInvalidate m s = .next t) : Within pl sb t := by
  have k : Holds (InNext pl sb) (execMemInvalidate m s) := execMemInvalidate_holds (m := m) (s := s) hO hP
  rw [hE] at k; exact k.of

theorem execMemInvAck_holds {m : MemMsg} {s : State} (hO : Within pl sb s) (hP : [.out, .freeCount, .regs, .cons, .eph, .work, .tabs, .mem, .serve, .fab, .px, .ctl, .mgt, .alm, .tel] ⊆ pl) : Holds (InNext pl sb) (execMemInvAck m s) := by
  unfold execMemInvAck
  repeat' first
    | with_reducible refine leaf_next ?_
    | with_reducible assumption
    | with_reducible refine memCommand_holds ?_ (subset_sub hP (by decide))
theorem execMemInvAck_only {m : MemMsg} {s : State} {t : State} (hO : Within pl sb s) (hP : [.out, .freeCount, .regs, .cons, .eph, .work, .tabs, .mem, .serve, .fab, .px, .ctl, .mgt, .alm, .tel] ⊆ pl) (hE : execMemInvAck m s = .next t) : Within pl sb t := by
  have k : Holds (InNext pl sb) (execMemInvAck m s) := execMemInvAck_holds (m := m) (s := s) hO hP
  rw [hE] at k; exact k.of

theorem execTopologyMsg_holds {dev : Nat} {ports : List (Nat × Nat)} {s : State} (hO : Within pl sb s) (hP : [.fab] ⊆ pl) : Holds (InNext pl sb) (execTopologyMsg dev ports s) := by
  unfold execTopologyMsg
  repeat' first
    | with_reducible refine leaf_next ?_
    | with_reducible assumption
    | with_reducible refine takeTopology_only ?_ (subset_sub hP (by decide))
theorem execTopologyMsg_only {dev : Nat} {ports : List (Nat × Nat)} {s : State} {t : State} (hO : Within pl sb s) (hP : [.fab] ⊆ pl) (hE : execTopologyMsg dev ports s = .next t) : Within pl sb t := by
  have k : Holds (InNext pl sb) (execTopologyMsg dev ports s) := execTopologyMsg_holds (dev := dev) (ports := ports) (s := s) hO hP
  rw [hE] at k; exact k.of

theorem execTopologyPeriod_holds {s : State} (hO : Within pl sb s) (hP : [.regs, .fab] ⊆ pl) : Holds (InNext pl sb) (execTopologyPeriod s) := by
  unfold execTopologyPeriod
  repeat' first
    | with_reducible refine leaf_next ?_
    | with_reducible assumption
    | with_reducible refine sendTopology_only ?_ (subset_sub hP (by decide))
theorem execTopologyPeriod_only {s : State} {t : State} (hO : Within pl sb s) (hP : [.regs, .fab] ⊆ pl) (hE : execTopologyPeriod s = .next t) : Within pl sb t := by
  have k : Holds (InNext pl sb) (execTopologyPeriod s) := execTopologyPeriod_holds (s := s) hO hP
  rw [hE] at k; exact k.of

theorem execReassemblyTimeout_holds {src msgId : Nat} {s : State} (hO : Within pl sb s) (hP : [.out, .regs, .fab, .ctl, .mgt, .alm, .tel] ⊆ pl) : Holds (InNext pl sb) (execReassemblyTimeout src msgId s) := by
  unfold execReassemblyTimeout
  repeat' first
    | with_reducible refine leaf_next ?_
    | with_reducible assumption
    | with_reducible refine nakCtx_only ?_ (subset_sub hP (by decide))
    | split
theorem execReassemblyTimeout_only {src msgId : Nat} {s : State} {t : State} (hO : Within pl sb s) (hP : [.out, .regs, .fab, .ctl, .mgt, .alm, .tel] ⊆ pl) (hE : execReassemblyTimeout src msgId s = .next t) : Within pl sb t := by
  have k : Holds (InNext pl sb) (execReassemblyTimeout src msgId s) := execReassemblyTimeout_holds (src := src) (msgId := msgId) (s := s) hO hP
  rw [hE] at k; exact k.of

theorem execMsgReplyTimeout_holds {id : Nat} {s : State} (hO : Within pl sb s) (hP : [.out, .freeCount, .regs, .cons, .work, .mem, .serve, .fab, .px, .ctl, .tel] ⊆ pl) : Holds (InNext pl sb) (execMsgReplyTimeout id s) := by
  unfold execMsgReplyTimeout
  repeat' first
    | with_reducible refine leaf_next ?_
    | with_reducible assumption
    | with_reducible refine ite_only ?_ ?_
    | with_reducible refine completeOwner_only ?_ (subset_sub hP (by decide))
    | with_reducible refine dropMsg_only ?_ (subset_sub hP (by decide))
    | with_reducible refine odCount_only ?_ (subset_sub hP (by decide))
    | with_reducible refine resendMsg_only ?_ (subset_sub hP (by decide))
    | split
theorem execMsgReplyTimeout_only {id : Nat} {s : State} {t : State} (hO : Within pl sb s) (hP : [.out, .freeCount, .regs, .cons, .work, .mem, .serve, .fab, .px, .ctl, .tel] ⊆ pl) (hE : execMsgReplyTimeout id s = .next t) : Within pl sb t := by
  have k : Holds (InNext pl sb) (execMsgReplyTimeout id s) := execMsgReplyTimeout_holds (id := id) (s := s) hO hP
  rw [hE] at k; exact k.of

theorem execInvalidateResend_holds {id : Nat} {s : State} (hO : Within pl sb s) (hP : [.out, .freeCount, .regs, .cons, .work, .mem, .serve, .fab, .px, .ctl, .tel] ⊆ pl) : Holds (InNext pl sb) (execInvalidateResend id s) := by
  unfold execInvalidateResend
  repeat' first
    | with_reducible refine leaf_next ?_
    | with_reducible assumption
    | with_reducible refine ite_only ?_ ?_
    | with_reducible refine endInval_only ?_ (subset_sub hP (by decide))
    | with_reducible refine resendMsg_only ?_ (subset_sub hP (by decide))
    | split
theorem execInvalidateResend_only {id : Nat} {s : State} {t : State} (hO : Within pl sb s) (hP : [.out, .freeCount, .regs, .cons, .work, .mem, .serve, .fab, .px, .ctl, .tel] ⊆ pl) (hE : execInvalidateResend id s = .next t) : Within pl sb t := by
  have k : Holds (InNext pl sb) (execInvalidateResend id s) := execInvalidateResend_holds (id := id) (s := s) hO hP
  rw [hE] at k; exact k.of

theorem execNoContextTimeout_holds {src msgId : Nat} {s : State} (hO : Within pl sb s) (hP : [.out, .regs, .mem, .fab, .ctl, .mgt, .alm, .tel] ⊆ pl) : Holds (InNext pl sb) (execNoContextTimeout src msgId s) := by
  unfold execNoContextTimeout
  repeat' first
    | with_reducible refine ite_holds ?_ ?_
    | with_reducible exact leaf_none
    | with_reducible refine leaf_next ?_
    | with_reducible assumption
    | with_reducible refine ite_only ?_ ?_
    | with_reducible refine answerMem_only ?_ (subset_sub hP (by decide))
    | with_reducible refine kqtOnce_only ?_ (subset_sub hP (by decide))
    | with_reducible refine modFab_only ?_ (subset_sub hP (by decide))
    | with_reducible refine someFst_only (by with_reducible assumption) ?_
    | with_reducible refine someSnd_only (by with_reducible assumption) ?_
    | (extract_lets +onlyGivenNames -underBinder x; refine cut_only (ps := pl) (s := sb) (a := x) ?_ ?_; unfold x; rotate_left; clear_value x; intro hx)
    | (extract_lets +onlyGivenNames -underBinder x; (try unfold x); clear x)
    | split
theorem execNoContextTimeout_only {src msgId : Nat} {s : State} {t : State} (hO : Within pl sb s) (hP : [.out, .regs, .mem, .fab, .ctl, .mgt, .alm, .tel] ⊆ pl) (hE : execNoContextTimeout src msgId s = .next t) : Within pl sb t := by
  have k : Holds (InNext pl sb) (execNoContextTimeout src msgId s) := execNoContextTimeout_holds (src := src) (msgId := msgId) (s := s) hO hP
  rw [hE] at k; exact k.of

theorem execStreamContextExpiry_holds {src stream : Nat} {s : State} (hO : Within pl sb s) (hP : [.fab] ⊆ pl) : Holds (InNext pl sb) (execStreamContextExpiry src stream s) := by
  unfold execStreamContextExpiry
  repeat' first
    | with_reducible refine leaf_next ?_
    | with_reducible assumption
    | with_reducible refine modFab_only ?_ (subset_sub hP (by decide))
theorem execStreamContextExpiry_only {src stream : Nat} {s : State} {t : State} (hO : Within pl sb s) (hP : [.fab] ⊆ pl) (hE : execStreamContextExpiry src stream s = .next t) : Within pl sb t := by
  have k : Holds (InNext pl sb) (execStreamContextExpiry src stream s) := execStreamContextExpiry_holds (src := src) (stream := stream) (s := s) hO hP
  rw [hE] at k; exact k.of

theorem execMsgIdFreed_holds {dev msgId : Nat} {s : State} (hO : Within pl sb s) (hP : [.regs, .fab] ⊆ pl) : Holds (InNext pl sb) (execMsgIdFreed dev msgId s) := by
  unfold execMsgIdFreed
  repeat' first
    | with_reducible refine leaf_next ?_
    | with_reducible assumption
    | with_reducible refine tryWaiting_only ?_ (subset_sub hP (by decide))
    | with_reducible refine modFab_only ?_ (subset_sub hP (by decide))
theorem execMsgIdFreed_only {dev msgId : Nat} {s : State} {t : State} (hO : Within pl sb s) (hP : [.regs, .fab] ⊆ pl) (hE : execMsgIdFreed dev msgId s = .next t) : Within pl sb t := by
  have k : Holds (InNext pl sb) (execMsgIdFreed dev msgId s) := execMsgIdFreed_holds (dev := dev) (msgId := msgId) (s := s) hO hP
  rw [hE] at k; exact k.of

theorem putRoutes_only {s : State} {t : List (Nat × Nat)} (hO : Within pl sb s) (hP : [.out, .regs, .fab, .ctl, .mgt, .alm, .tel] ⊆ pl) : Within pl sb (putRoutes s t) := by
  unfold putRoutes
  repeat' first
    | with_reducible assumption
    | with_reducible refine kqtOnce_only ?_ (subset_sub hP (by decide))
    | with_reducible refine odSet_only ?_ (subset_sub hP (by decide))
    | with_reducible refine modFab_only ?_ (subset_sub hP (by decide))
    | (extract_lets +onlyGivenNames -underBinder x; refine cut_only (ps := pl) (s := sb) (a := x) ?_ ?_; unfold x; rotate_left; clear_value x; intro hx)
    | (extract_lets +onlyGivenNames -underBinder x; (try unfold x); clear x)

theorem execRouteTableComputed_holds {table : List (Nat × Nat)} {s : State} (hO : Within pl sb s) (hP : [.out, .regs, .fab, .ctl, .mgt, .alm, .tel] ⊆ pl) : Holds (InNext pl sb) (execRouteTableComputed table s) := by
  unfold execRouteTableComputed
  repeat' first
    | with_reducible refine leaf_next ?_
    | with_reducible assumption
    | with_reducible refine ite_only ?_ ?_
    | with_reducible refine foldl_only ?_ fun _ _ _ => ?_
    | with_reducible refine putRoutes_only ?_ (subset_sub hP (by decide))
theorem execRouteTableComputed_only {table : List (Nat × Nat)} {s : State} {t : State} (hO : Within pl sb s) (hP : [.out, .regs, .fab, .ctl, .mgt, .alm, .tel] ⊆ pl) (hE : execRouteTableComputed table s = .next t) : Within pl sb t := by
  have k : Holds (InNext pl sb) (execRouteTableComputed table s) := execRouteTableComputed_holds (table := table) (s := s) hO hP
  rw [hE] at k; exact k.of

end Sys2Proof.Machine
end

