-- ==== Sys2Proof/Laws/FramePx.lean ====
section
/-! SUPPORT. What each function of Machine/Px.lean can do to the state as a whole: the parts it can change; the queue, the population and the
canonical forms it keeps. `f_only` speaks of the state that `f` answers, `f_holds` of a state inside its answer, `f_only_eq` of one taken out. -/

-- One declaration at a time: thousands of proofs in flight at once ask for more threads than fit in memory.
set_option Elab.async false

set_option linter.unusedTactic false
set_option linter.unreachableTactic false
set_option linter.unusedVariables false
set_option linter.unusedSimpArgs false
namespace Sys2Proof.Machine
open Sys2Proof
variable {pl : List Part} {sb : State}

theorem modPxLink_only {s : State} {l : Nat} {f : PxLink → PxLink} (hO : Within pl sb s) (hP : [.px] ⊆ pl) : Within pl sb (modPxLink s l f) := by
  unfold modPxLink
  repeat' first
    | with_reducible assumption
    | with_reducible refine modPx_only ?_ (subset_sub hP (by decide))

theorem modComp_only {s : State} {p : Nat} {f : Comp → Comp} (hO : Within pl sb s) (hP : [.px] ⊆ pl) : Within pl sb (modComp s p f) := by
  unfold modComp
  repeat' first
    | with_reducible assumption
    | with_reducible refine modPx_only ?_ (subset_sub hP (by decide))

theorem pxEvent_only {s : State} {code : Nat} {payload : List Nat} (hO : Within pl sb s) (hP : [.out, .regs, .ctl, .mgt, .alm, .tel] ⊆ pl) : Within pl sb (pxEvent s code payload) := by
  unfold pxEvent
  repeat' first
    | with_reducible assumption
    | with_reducible refine raisePf_only ?_ (subset_sub hP (by decide))

theorem bar2Refuse_only {s : State} {p tag : Nat} {count : Bool} (hO : Within pl sb s) (hP : [.out, .ctl] ⊆ pl) : Within pl sb (bar2Refuse s p tag count) := by
  unfold bar2Refuse
  repeat' first
    | with_reducible assumption
    | with_reducible refine ite_only ?_ ?_
    | with_reducible refine countAccess_only ?_ (subset_sub hP (by decide))
    | with_reducible refine emit_only ?_ (subset_sub hP (by decide))

theorem bar2ReadTile_only {s : State} {p tag t : Nat} (hO : Within pl sb s) (hP : [.out, .regs, .mem, .fab, .px, .ctl, .mgt, .alm, .tel] ⊆ pl) : Within pl sb (bar2ReadTile s p tag t) := by
  unfold bar2ReadTile
  repeat' first
    | with_reducible assumption
    | with_reducible refine ite_only ?_ ?_
    | with_reducible refine bar2Tile_only ?_ (subset_sub hP (by decide))
    | with_reducible refine countTile_only ?_ (subset_sub hP (by decide))
    | with_reducible refine globalOp_only_eq ?_ (subset_sub hP (by decide)) (by assumption)
    | with_reducible refine globalOp_only ?_ (subset_sub hP (by decide))
    | with_reducible refine touchTile_only ?_ (subset_sub hP (by decide))
    | (extract_lets +onlyGivenNames -underBinder x; refine cut_only (ps := pl) (s := sb) (a := x) ?_ ?_; unfold x; rotate_left; clear_value x; intro hx)
    | (extract_lets +onlyGivenNames -underBinder x; (try unfold x); clear x)
    | split

theorem execBar2Read_holds {ptn tag off len : Nat} {s : State} (hO : Within pl sb s) (hP : [.out, .regs, .mem, .fab, .px, .ctl, .mgt, .alm, .tel] ⊆ pl) : Holds (InNext pl sb) (execBar2Read ptn tag off len s) := by
  unfold execBar2Read
  repeat' first
    | with_reducible refine leaf_next ?_
    | with_reducible assumption
    | with_reducible refine ite_only ?_ ?_
    | with_reducible refine foldl_only ?_ fun _ _ _ => ?_
    | with_reducible refine bar2ReadTile_only ?_ (subset_sub hP (by decide))
    | with_reducible refine bar2Refuse_only ?_ (subset_sub hP (by decide))
    | with_reducible refine modPx_only ?_ (subset_sub hP (by decide))
    | (extract_lets +onlyGivenNames -underBinder x; refine cut_only (ps := pl) (s := sb) (a := x) ?_ ?_; unfold x; rotate_left; clear_value x; intro hx)
    | (extract_lets +onlyGivenNames -underBinder x; (try unfold x); clear x)
    | split
theorem execBar2Read_only {ptn tag off len : Nat} {s : State} {t : State} (hO : Within pl sb s) (hP : [.out, .regs, .mem, .fab, .px, .ctl, .mgt, .alm, .tel] ⊆ pl) (hE : execBar2Read ptn tag off len s = .next t) : Within pl sb t := by
  have k : Holds (InNext pl sb) (execBar2Read ptn tag off len s) := execBar2Read_holds (ptn := ptn) (tag := tag) (off := off) (len := len) (s := s) hO hP
  rw [hE] at k; exact k.of

theorem bar2AtomicHere_only {s : State} {p tag d op : Nat} {ops : List Byte} (hO : Within pl sb s) (hP : [.out, .mem, .px, .tel] ⊆ pl) : Within pl sb (bar2AtomicHere s p tag d op ops) := by
  unfold bar2AtomicHere
  repeat' first
    | with_reducible assumption
    | with_reducible refine ite_only ?_ ?_
    | with_reducible refine atomicOp_only_eq ?_ (subset_sub hP (by decide)) (by assumption)
    | with_reducible refine atomicOp_only ?_ (subset_sub hP (by decide))
    | with_reducible refine bar2Tile_only ?_ (subset_sub hP (by decide))
    | (extract_lets +onlyGivenNames -underBinder x; refine cut_only (ps := pl) (s := sb) (a := x) ?_ ?_; unfold x; rotate_left; clear_value x; intro hx)
    | (extract_lets +onlyGivenNames -underBinder x; (try unfold x); clear x)
    | split

theorem execBar2Atomic_holds {ptn tag off op : Nat} {data : List Byte} {s : State} (hO : Within pl sb s) (hP : [.out, .regs, .mem, .fab, .px, .ctl, .mgt, .alm, .tel] ⊆ pl) : Holds (InNext pl sb) (execBar2Atomic ptn tag off op data s) := by
  unfold execBar2Atomic
  repeat' first
    | with_reducible refine leaf_next ?_
    | with_reducible assumption
    | with_reducible refine ite_only ?_ ?_
    | with_reducible refine bar2AtomicHere_only ?_ (subset_sub hP (by decide))
    | with_reducible refine bar2Refuse_only ?_ (subset_sub hP (by decide))
    | with_reducible refine bar2Tile_only ?_ (subset_sub hP (by decide))
    | with_reducible refine globalOp_only_eq ?_ (subset_sub hP (by decide)) (by assumption)
    | with_reducible refine globalOp_only ?_ (subset_sub hP (by decide))
    | with_reducible refine modPx_only ?_ (subset_sub hP (by decide))
    | (extract_lets +onlyGivenNames -underBinder x; refine cut_only (ps := pl) (s := sb) (a := x) ?_ ?_; unfold x; rotate_left; clear_value x; intro hx)
    | (extract_lets +onlyGivenNames -underBinder x; (try unfold x); clear x)
    | split
theorem execBar2Atomic_only {ptn tag off op : Nat} {data : List Byte} {s : State} {t : State} (hO : Within pl sb s) (hP : [.out, .regs, .mem, .fab, .px, .ctl, .mgt, .alm, .tel] ⊆ pl) (hE : execBar2Atomic ptn tag off op data s = .next t) : Within pl sb t := by
  have k : Holds (InNext pl sb) (execBar2Atomic ptn tag off op data s) := execBar2Atomic_holds (ptn := ptn) (tag := tag) (off := off) (op := op) (data := data) (s := s) hO hP
  rw [hE] at k; exact k.of

theorem resumeBar2_only {s : State} (hO : Within pl sb s) (hP : [.out, .regs, .mem, .fab, .px, .ctl, .mgt, .alm, .tel] ⊆ pl) : Within pl sb (resumeBar2 s) := by
  unfold resumeBar2
  repeat' first
    | with_reducible assumption
    | with_reducible refine ite_only ?_ ?_
    | with_reducible refine foldl_only ?_ fun _ _ _ => ?_
    | with_reducible refine bar2AtomicHere_only ?_ (subset_sub hP (by decide))
    | with_reducible refine bar2ReadTile_only ?_ (subset_sub hP (by decide))

theorem resumeAccesses_only {s : State} (hO : Within pl sb s) (hP : [.out, .freeCount, .regs, .cons, .eph, .work, .tabs, .mem, .serve, .fab, .px, .ctl, .mgt, .alm, .tel] ⊆ pl) : Within pl sb (resumeAccesses s) := by
  unfold resumeAccesses
  repeat' first
    | with_reducible assumption
    | with_reducible refine resumeBar2_only ?_ (subset_sub hP (by decide))
    | with_reducible refine resumeMsgs_only ?_ (subset_sub hP (by decide))
    | with_reducible refine resumeTables_only ?_ (subset_sub hP (by decide))

theorem execEntryEnd_holds {sec ent : Nat} {s : State} (hO : Within pl sb s) (hP : [.out, .freeCount, .regs, .cons, .eph, .work, .tabs, .mem, .serve, .fab, .px, .ctl, .mgt, .alm, .tel] ⊆ pl) : Holds (InNext pl sb) (execEntryEnd sec ent s) := by
  unfold execEntryEnd
  repeat' first
    | with_reducible refine leaf_next ?_
    | with_reducible assumption
    | with_reducible refine ite_only ?_ ?_
    | with_reducible refine foldl_only ?_ fun _ _ _ => ?_
    | with_reducible refine endEntry_only ?_ (subset_sub hP (by decide))
    | with_reducible refine resumeAccesses_only ?_ (subset_sub hP (by decide))
    | (extract_lets +onlyGivenNames -underBinder x; refine cut_only (ps := pl) (s := sb) (a := x) ?_ ?_; unfold x; rotate_left; clear_value x; intro hx)
    | split
theorem execEntryEnd_only {sec ent : Nat} {s : State} {t : State} (hO : Within pl sb s) (hP : [.out, .freeCount, .regs, .cons, .eph, .work, .tabs, .mem, .serve, .fab, .px, .ctl, .mgt, .alm, .tel] ⊆ pl) (hE : execEntryEnd sec ent s = .next t) : Within pl sb t := by
  have k : Holds (InNext pl sb) (execEntryEnd sec ent s) := execEntryEnd_holds (sec := sec) (ent := ent) (s := s) hO hP
  rw [hE] at k; exact k.of

theorem execBar2Write_holds {ptn : Nat} {s : State} (hO : Within pl sb s) (hP : [.px] ⊆ pl) : Holds (InNext pl sb) (execBar2Write ptn s) := by
  unfold execBar2Write
  repeat' first
    | with_reducible refine leaf_next ?_
    | with_reducible assumption
    | with_reducible refine modPx_only ?_ (subset_sub hP (by decide))
theorem execBar2Write_only {ptn : Nat} {s : State} {t : State} (hO : Within pl sb s) (hP : [.px] ⊆ pl) (hE : execBar2Write ptn s = .next t) : Within pl sb t := by
  have k : Holds (InNext pl sb) (execBar2Write ptn s) := execBar2Write_holds (ptn := ptn) (s := s) hO hP
  rw [hE] at k; exact k.of

theorem execAtsInvalidate_holds {link : Nat} {s : State} (hO : Within pl sb s) (hP : [.out, .px] ⊆ pl) : Holds (InNext pl sb) (execAtsInvalidate link s) := by
  unfold execAtsInvalidate
  repeat' first
    | with_reducible refine leaf_next ?_
    | with_reducible assumption
    | with_reducible refine emit_only ?_ (subset_sub hP (by decide))
    | with_reducible refine modPx_only ?_ (subset_sub hP (by decide))
theorem execAtsInvalidate_only {link : Nat} {s : State} {t : State} (hO : Within pl sb s) (hP : [.out, .px] ⊆ pl) (hE : execAtsInvalidate link s = .next t) : Within pl sb t := by
  have k : Holds (InNext pl sb) (execAtsInvalidate link s) := execAtsInvalidate_holds (link := link) (s := s) hO hP
  rw [hE] at k; exact k.of

theorem execIdeKmProgram_holds {id link fn : Nat} {s : State} (hO : Within pl sb s) (hP : [.px] ⊆ pl) : Holds (InNext pl sb) (execIdeKmProgram id link fn s) := by
  unfold execIdeKmProgram
  repeat' first
    | with_reducible refine leaf_next ?_
    | with_reducible assumption
    | with_reducible refine ite_only ?_ ?_
    | with_reducible refine modPx_only ?_ (subset_sub hP (by decide))
    | (extract_lets +onlyGivenNames -underBinder x; refine cut_only (ps := pl) (s := sb) (a := x) ?_ ?_; unfold x; rotate_left; clear_value x; intro hx)
    | (extract_lets +onlyGivenNames -underBinder x; (try unfold x); clear x)
theorem execIdeKmProgram_only {id link fn : Nat} {s : State} {t : State} (hO : Within pl sb s) (hP : [.px] ⊆ pl) (hE : execIdeKmProgram id link fn s = .next t) : Within pl sb t := by
  have k : Holds (InNext pl sb) (execIdeKmProgram id link fn s) := execIdeKmProgram_holds (id := id) (link := link) (fn := fn) (s := s) hO hP
  rw [hE] at k; exact k.of

theorem execIdeIntegrityFail_holds {id cause : Nat} {s : State} (hO : Within pl sb s) (hP : [.out, .regs, .px, .ctl, .mgt, .alm, .tel] ⊆ pl) : Holds (InNext pl sb) (execIdeIntegrityFail id cause s) := by
  unfold execIdeIntegrityFail
  repeat' first
    | with_reducible refine leaf_next ?_
    | with_reducible assumption
    | with_reducible refine pxEvent_only ?_ (subset_sub hP (by decide))
    | with_reducible refine modPx_only ?_ (subset_sub hP (by decide))
    | split
theorem execIdeIntegrityFail_only {id cause : Nat} {s : State} {t : State} (hO : Within pl sb s) (hP : [.out, .regs, .px, .ctl, .mgt, .alm, .tel] ⊆ pl) (hE : execIdeIntegrityFail id cause s = .next t) : Within pl sb t := by
  have k : Holds (InNext pl sb) (execIdeIntegrityFail id cause s) := execIdeIntegrityFail_holds (id := id) (cause := cause) (s := s) hO hP
  rw [hE] at k; exact k.of

theorem execTdispLockInterface_holds {ptn : Nat} {s : State} (hO : Within pl sb s) (hP : [.px] ⊆ pl) : Holds (InNext pl sb) (execTdispLockInterface ptn s) := by
  unfold execTdispLockInterface
  repeat' first
    | with_reducible refine leaf_next ?_
    | with_reducible assumption
    | with_reducible refine ite_only ?_ ?_
    | with_reducible refine modComp_only ?_ (subset_sub hP (by decide))
    | (extract_lets +onlyGivenNames -underBinder x; refine cut_only (ps := pl) (s := sb) (a := x) ?_ ?_; unfold x; rotate_left; clear_value x; intro hx)
    | (extract_lets +onlyGivenNames -underBinder x; (try unfold x); clear x)
theorem execTdispLockInterface_only {ptn : Nat} {s : State} {t : State} (hO : Within pl sb s) (hP : [.px] ⊆ pl) (hE : execTdispLockInterface ptn s = .next t) : Within pl sb t := by
  have k : Holds (InNext pl sb) (execTdispLockInterface ptn s) := execTdispLockInterface_holds (ptn := ptn) (s := s) hO hP
  rw [hE] at k; exact k.of

theorem execTdispStartInterface_holds {ptn : Nat} {s : State} (hO : Within pl sb s) (hP : [.px] ⊆ pl) : Holds (InNext pl sb) (execTdispStartInterface ptn s) := by
  unfold execTdispStartInterface
  repeat' first
    | with_reducible refine leaf_next ?_
    | with_reducible assumption
    | with_reducible refine ite_only ?_ ?_
    | with_reducible refine modComp_only ?_ (subset_sub hP (by decide))
theorem execTdispStartInterface_only {ptn : Nat} {s : State} {t : State} (hO : Within pl sb s) (hP : [.px] ⊆ pl) (hE : execTdispStartInterface ptn s = .next t) : Within pl sb t := by
  have k : Holds (InNext pl sb) (execTdispStartInterface ptn s) := execTdispStartInterface_holds (ptn := ptn) (s := s) hO hP
  rw [hE] at k; exact k.of

theorem execTdispStopInterface_holds {ptn : Nat} {s : State} (hO : Within pl sb s) (hP : [.px] ⊆ pl) : Holds (InNext pl sb) (execTdispStopInterface ptn s) := by
  unfold execTdispStopInterface
  repeat' first
    | with_reducible refine leaf_next ?_
    | with_reducible assumption
    | with_reducible refine modComp_only ?_ (subset_sub hP (by decide))
theorem execTdispStopInterface_only {ptn : Nat} {s : State} {t : State} (hO : Within pl sb s) (hP : [.px] ⊆ pl) (hE : execTdispStopInterface ptn s = .next t) : Within pl sb t := by
  have k : Holds (InNext pl sb) (execTdispStopInterface ptn s) := execTdispStopInterface_holds (ptn := ptn) (s := s) hO hP
  rw [hE] at k; exact k.of

theorem execSlotPowerOff_holds {link : Nat} {s : State} (hO : Within pl sb s) (hP : [.px] ⊆ pl) : Holds (InNext pl sb) (execSlotPowerOff link s) := by
  unfold execSlotPowerOff
  repeat' first
    | with_reducible refine leaf_next ?_
    | with_reducible assumption
    | with_reducible refine ite_only ?_ ?_
    | with_reducible refine modPxLink_only ?_ (subset_sub hP (by decide))
theorem execSlotPowerOff_only {link : Nat} {s : State} {t : State} (hO : Within pl sb s) (hP : [.px] ⊆ pl) (hE : execSlotPowerOff link s = .next t) : Within pl sb t := by
  have k : Holds (InNext pl sb) (execSlotPowerOff link s) := execSlotPowerOff_holds (link := link) (s := s) hO hP
  rw [hE] at k; exact k.of

theorem execReleaseGraceExpiry_holds {link : Nat} {s : State} (hO : Within pl sb s) (hP : [.px] ⊆ pl) : Holds (InNext pl sb) (execReleaseGraceExpiry link s) := by
  unfold execReleaseGraceExpiry
  repeat' first
    | with_reducible refine leaf_next ?_
    | with_reducible assumption
    | with_reducible refine ite_only ?_ ?_
    | with_reducible refine modPxLink_only ?_ (subset_sub hP (by decide))
theorem execReleaseGraceExpiry_only {link : Nat} {s : State} {t : State} (hO : Within pl sb s) (hP : [.px] ⊆ pl) (hE : execReleaseGraceExpiry link s = .next t) : Within pl sb t := by
  have k : Holds (InNext pl sb) (execReleaseGraceExpiry link s) := execReleaseGraceExpiry_holds (link := link) (s := s) hO hP
  rw [hE] at k; exact k.of

theorem linkEvent_only {s : State} {l : Nat} (hO : Within pl sb s) (hP : [.out, .regs, .ctl, .mgt, .alm, .tel] ⊆ pl) : Within pl sb (linkEvent s l) := by
  unfold linkEvent
  repeat' first
    | with_reducible assumption
    | with_reducible refine pxEvent_only ?_ (subset_sub hP (by decide))

theorem execDlinkDown_holds {link : Nat} {s : State} (hO : Within pl sb s) (hP : [.out, .regs, .px, .ctl, .mgt, .alm, .tel] ⊆ pl) : Holds (InNext pl sb) (execDlinkDown link s) := by
  unfold execDlinkDown
  repeat' first
    | with_reducible refine leaf_next ?_
    | with_reducible assumption
    | with_reducible refine ite_only ?_ ?_
    | with_reducible refine emit_only ?_ (subset_sub hP (by decide))
    | with_reducible refine linkEvent_only ?_ (subset_sub hP (by decide))
    | with_reducible refine modPxLink_only ?_ (subset_sub hP (by decide))
    | with_reducible refine pxEvent_only ?_ (subset_sub hP (by decide))
    | split
theorem execDlinkDown_only {link : Nat} {s : State} {t : State} (hO : Within pl sb s) (hP : [.out, .regs, .px, .ctl, .mgt, .alm, .tel] ⊆ pl) (hE : execDlinkDown link s = .next t) : Within pl sb t := by
  have k : Holds (InNext pl sb) (execDlinkDown link s) := execDlinkDown_holds (link := link) (s := s) hO hP
  rw [hE] at k; exact k.of

theorem execDlinkRequest_holds {link : Nat} {target : DlinkTarget} {s : State} (hO : Within pl sb s) (hP : [.px] ⊆ pl) : Holds (InNext pl sb) (execDlinkRequest link target s) := by
  unfold execDlinkRequest
  repeat' first
    | with_reducible refine leaf_next ?_
    | with_reducible assumption
    | with_reducible refine ite_only ?_ ?_
    | with_reducible refine modPx_only ?_ (subset_sub hP (by decide))
    | (extract_lets +onlyGivenNames -underBinder x; refine cut_only (ps := pl) (s := sb) (a := x) ?_ ?_; unfold x; rotate_left; clear_value x; intro hx)
    | (extract_lets +onlyGivenNames -underBinder x; (try unfold x); clear x)
    | split
theorem execDlinkRequest_only {link : Nat} {target : DlinkTarget} {s : State} {t : State} (hO : Within pl sb s) (hP : [.px] ⊆ pl) (hE : execDlinkRequest link target s = .next t) : Within pl sb t := by
  have k : Holds (InNext pl sb) (execDlinkRequest link target s) := execDlinkRequest_holds (link := link) (target := target) (s := s) hO hP
  rw [hE] at k; exact k.of

theorem drainLink_only {s : State} {l : Nat} (hO : Within pl sb s) (hP : [.out, .regs, .serve, .tel] ⊆ pl) : Within pl sb (drainLink s l) := by
  unfold drainLink
  repeat' first
    | with_reducible assumption
    | with_reducible refine foldl_only ?_ fun _ _ _ => ?_
    | with_reducible refine drainDma_only ?_ (subset_sub hP (by decide))
    | with_reducible refine ringDrain_only ?_ (subset_sub hP (by decide))
    | (extract_lets +onlyGivenNames -underBinder x; refine cut_only (ps := pl) (s := sb) (a := x) ?_ ?_; unfold x; rotate_left; clear_value x; intro hx)
    | (extract_lets +onlyGivenNames -underBinder x; (try unfold x); clear x)

theorem execPcieLinkDown_holds {link : Nat} {s : State} (hO : Within pl sb s) (hP : [.out, .regs, .px, .ctl, .mgt, .alm, .tel] ⊆ pl) : Holds (InNext pl sb) (execPcieLinkDown link s) := by
  unfold execPcieLinkDown
  repeat' first
    | with_reducible refine leaf_next ?_
    | with_reducible assumption
    | with_reducible refine ite_only ?_ ?_
    | with_reducible refine linkEvent_only ?_ (subset_sub hP (by decide))
    | with_reducible refine modPxLink_only ?_ (subset_sub hP (by decide))
theorem execPcieLinkDown_only {link : Nat} {s : State} {t : State} (hO : Within pl sb s) (hP : [.out, .regs, .px, .ctl, .mgt, .alm, .tel] ⊆ pl) (hE : execPcieLinkDown link s = .next t) : Within pl sb t := by
  have k : Holds (InNext pl sb) (execPcieLinkDown link s) := execPcieLinkDown_holds (link := link) (s := s) hO hP
  rw [hE] at k; exact k.of

theorem execPcieLinkUp_holds {link rate width : Nat} {s : State} (hO : Within pl sb s) (hP : [.out, .regs, .serve, .px, .ctl, .mgt, .alm, .tel] ⊆ pl) : Holds (InNext pl sb) (execPcieLinkUp link rate width s) := by
  unfold execPcieLinkUp
  repeat' first
    | with_reducible refine leaf_next ?_
    | with_reducible assumption
    | with_reducible refine ite_only ?_ ?_
    | with_reducible refine drainLink_only ?_ (subset_sub hP (by decide))
    | with_reducible refine emit_only ?_ (subset_sub hP (by decide))
    | with_reducible refine linkEvent_only ?_ (subset_sub hP (by decide))
    | with_reducible refine modPxLink_only ?_ (subset_sub hP (by decide))
    | (extract_lets +onlyGivenNames -underBinder x; refine cut_only (ps := pl) (s := sb) (a := x) ?_ ?_; unfold x; rotate_left; clear_value x; intro hx)
    | (extract_lets +onlyGivenNames -underBinder x; (try unfold x); clear x)
    | split
theorem execPcieLinkUp_only {link rate width : Nat} {s : State} {t : State} (hO : Within pl sb s) (hP : [.out, .regs, .serve, .px, .ctl, .mgt, .alm, .tel] ⊆ pl) (hE : execPcieLinkUp link rate width s = .next t) : Within pl sb t := by
  have k : Holds (InNext pl sb) (execPcieLinkUp link rate width s) := execPcieLinkUp_holds (link := link) (rate := rate) (width := width) (s := s) hO hP
  rw [hE] at k; exact k.of

theorem freeLink_only {s : State} {l : Nat} {cause : Option Nat} (hO : Within pl sb s) (hP : [.out, .regs, .px, .ctl, .mgt, .alm, .tel] ⊆ pl) : Within pl sb (freeLink s l cause) := by
  unfold freeLink
  repeat' first
    | with_reducible assumption
    | with_reducible refine emit_only ?_ (subset_sub hP (by decide))
    | with_reducible refine modPxLink_only ?_ (subset_sub hP (by decide))
    | with_reducible refine pxEvent_only ?_ (subset_sub hP (by decide))
    | (extract_lets +onlyGivenNames -underBinder x; refine cut_only (ps := pl) (s := sb) (a := x) ?_ ?_; unfold x; rotate_left; clear_value x; intro hx)
    | (extract_lets +onlyGivenNames -underBinder x; (try unfold x); clear x)
    | split

theorem linkBoundary_only {s : State} {l : Nat} (hO : Within pl sb s) (hP : [.out, .regs, .px, .ctl, .mgt, .alm, .tel] ⊆ pl) : Within pl sb (linkBoundary s l) := by
  unfold linkBoundary
  repeat' first
    | with_reducible assumption
    | with_reducible refine ite_only ?_ ?_
    | with_reducible refine emit_only ?_ (subset_sub hP (by decide))
    | with_reducible refine freeLink_only ?_ (subset_sub hP (by decide))
    | with_reducible refine modPxLink_only ?_ (subset_sub hP (by decide))
    | (extract_lets +onlyGivenNames -underBinder x; refine cut_only (ps := pl) (s := sb) (a := x) ?_ ?_; unfold x; rotate_left; clear_value x; intro hx)
    | (extract_lets +onlyGivenNames -underBinder x; (try unfold x); clear x)
    | split

theorem bindLink_only {s : State} {l : Nat} (hO : Within pl sb s) (hP : [.out, .px] ⊆ pl) : Within pl sb (bindLink s l) := by
  unfold bindLink
  repeat' first
    | with_reducible assumption
    | with_reducible refine ite_only ?_ ?_
    | with_reducible refine emit_only ?_ (subset_sub hP (by decide))
    | with_reducible refine modPxLink_only ?_ (subset_sub hP (by decide))
    | split

theorem applyComps_only {s : State} (hO : Within pl sb s) (hP : [.out, .regs, .px, .ctl, .mgt, .alm, .tel] ⊆ pl) : Within pl sb (applyComps s) := by
  unfold applyComps
  repeat' first
    | with_reducible assumption
    | with_reducible refine ite_only ?_ ?_
    | with_reducible refine foldl_only ?_ fun _ _ _ => ?_
    | with_reducible refine bindLink_only ?_ (subset_sub hP (by decide))
    | with_reducible refine linkBoundary_only ?_ (subset_sub hP (by decide))
    | with_reducible refine modPx_only ?_ (subset_sub hP (by decide))
    | (extract_lets +onlyGivenNames -underBinder x; refine cut_only (ps := pl) (s := sb) (a := x) ?_ ?_; unfold x; rotate_left; clear_value x; intro hx)
    | (extract_lets +onlyGivenNames -underBinder x; (try unfold x); clear x)

theorem compTime_only {s : State} {dt : Nat} (hO : Within pl sb s) (hP : [.px] ⊆ pl) : Within pl sb (compTime s dt) := by
  unfold compTime
  repeat' first
    | with_reducible assumption
    | with_reducible refine ite_only ?_ ?_
    | with_reducible refine modPx_only ?_ (subset_sub hP (by decide))
    | (extract_lets +onlyGivenNames -underBinder x; refine cut_only (ps := pl) (s := sb) (a := x) ?_ ?_; unfold x; rotate_left; clear_value x; intro hx)
    | (extract_lets +onlyGivenNames -underBinder x; (try unfold x); clear x)
    | split

end Sys2Proof.Machine
end

