-- ==== Sys2Proof/Laws/FrameMeridian.lean ====
section
/-! SUPPORT. What each function of Machine/Meridian.lean can do to the state as a whole: the parts it can change; the queue, the population and the
canonical forms it keeps. `f_only` speaks of the state that `f` answers, `f_holds` of a state inside its answer, `f_only_eq` of one taken out. -/

-- One declaration at a time: thousands of proofs in flight at once ask for more threads than fit in memory.
set_option Elab.async false

set_option linter.unusedTactic false
set_option linter.unreachableTactic false
set_option linter.unusedVariables false
set_option linter.unusedSimpArgs false
namespace Sys2Proof.Machine
open Sys2Proof
variable {pl : List Part} {sb : State}

theorem merEvent_only {s : State} {code : Nat} {payload : List Nat} (hO : Within pl sb s) (hP : [.out, .regs, .ctl, .mgt, .alm, .tel] ⊆ pl) : Within pl sb (merEvent s code payload) := by
  unfold merEvent
  repeat' first
    | with_reducible assumption
    | with_reducible refine raisePf_only ?_ (subset_sub hP (by decide))

theorem merGo_only {s : State} {st : MerState} {bound : Nat} (hO : Within pl sb s) (hP : [.out, .regs, .ctl, .mgt, .alm, .tel, .mer] ⊆ pl) : Within pl sb (merGo s st bound) := by
  unfold merGo
  repeat' first
    | with_reducible assumption
    | with_reducible refine ite_only ?_ ?_
    | with_reducible refine merEvent_only ?_ (subset_sub hP (by decide))
    | with_reducible refine modMer_only ?_ (subset_sub hP (by decide))
    | (extract_lets +onlyGivenNames -underBinder x; refine cut_only (ps := pl) (s := sb) (a := x) ?_ ?_; unfold x; rotate_left; clear_value x; intro hx)
    | (extract_lets +onlyGivenNames -underBinder x; (try unfold x); clear x)
    | split

theorem passTime_only {s : State} {dt : Nat} (hO : Within pl sb s) (hP : [.px, .mer] ⊆ pl) : Within pl sb (passTime s dt) := by
  unfold passTime
  repeat' first
    | with_reducible assumption
    | with_reducible refine ite_only ?_ ?_
    | with_reducible refine compTime_only ?_ (subset_sub hP (by decide))
    | with_reducible refine modMer_only ?_ (subset_sub hP (by decide))
    | (extract_lets +onlyGivenNames -underBinder x; refine cut_only (ps := pl) (s := sb) (a := x) ?_ ?_; unfold x; rotate_left; clear_value x; intro hx)
    | (extract_lets +onlyGivenNames -underBinder x; (try unfold x); clear x)
    | split

theorem setSource_only {s : State} (hO : Within pl sb s) (hP : [.out, .regs, .ctl, .mgt, .alm, .tel, .mer] ⊆ pl) : Within pl sb (setSource s) := by
  unfold setSource
  repeat' first
    | with_reducible assumption
    | with_reducible refine ite_only ?_ ?_
    | with_reducible refine merEvent_only ?_ (subset_sub hP (by decide))
    | with_reducible refine modMer_only ?_ (subset_sub hP (by decide))
    | (extract_lets +onlyGivenNames -underBinder x; refine cut_only (ps := pl) (s := sb) (a := x) ?_ ?_; unfold x; rotate_left; clear_value x; intro hx)
    | (extract_lets +onlyGivenNames -underBinder x; (try unfold x); clear x)

theorem holdover_only {s : State} (hO : Within pl sb s) (hP : [.out, .regs, .ctl, .mgt, .alm, .tel, .mer] ⊆ pl) : Within pl sb (holdover s) := by
  unfold holdover
  repeat' first
    | with_reducible assumption
    | with_reducible refine ite_only ?_ ?_
    | with_reducible refine merGo_only ?_ (subset_sub hP (by decide))
    | split

theorem servo_only {s : State} {off freq : Int} (hO : Within pl sb s) (hP : [.out, .regs, .ctl, .mgt, .alm, .tel, .mer] ⊆ pl) : Within pl sb (servo s off freq) := by
  unfold servo
  repeat' first
    | with_reducible assumption
    | with_reducible refine ite_only ?_ ?_
    | with_reducible refine merGo_only ?_ (subset_sub hP (by decide))
    | with_reducible refine modMer_only ?_ (subset_sub hP (by decide))
    | (extract_lets +onlyGivenNames -underBinder x; refine cut_only (ps := pl) (s := sb) (a := x) ?_ ?_; unfold x; rotate_left; clear_value x; intro hx)
    | (extract_lets +onlyGivenNames -underBinder x; (try unfold x); clear x)
    | split

theorem ptpExchange_only {s : State} {port : Nat} {m : PtpMsg} (hO : Within pl sb s) (hP : [.out, .regs, .ctl, .mgt, .alm, .tel, .mer] ⊆ pl) : Within pl sb (ptpExchange s port m) := by
  unfold ptpExchange
  repeat' first
    | with_reducible assumption
    | with_reducible refine ite_only ?_ ?_
    | with_reducible refine merEvent_only ?_ (subset_sub hP (by decide))
    | with_reducible refine servo_only ?_ (subset_sub hP (by decide))
    | with_reducible refine setSource_only ?_ (subset_sub hP (by decide))
    | with_reducible refine modMer_only ?_ (subset_sub hP (by decide))
    | (extract_lets +onlyGivenNames -underBinder x; refine cut_only (ps := pl) (s := sb) (a := x) ?_ ?_; unfold x; rotate_left; clear_value x; intro hx)
    | (extract_lets +onlyGivenNames -underBinder x; (try unfold x); clear x)

theorem ptpRx_only {s : State} {port : Nat} {m : PtpMsg} (hO : Within pl sb s) (hP : [.out, .regs, .fab, .ctl, .mgt, .alm, .tel, .mer] ⊆ pl) : Within pl sb (ptpRx s port m) := by
  unfold ptpRx
  repeat' first
    | with_reducible assumption
    | with_reducible refine ite_only ?_ ?_
    | with_reducible refine emit_only ?_ (subset_sub hP (by decide))
    | with_reducible refine odSet_only ?_ (subset_sub hP (by decide))
    | with_reducible refine ptpExchange_only ?_ (subset_sub hP (by decide))
    | with_reducible refine ringWrite_only ?_ (subset_sub hP (by decide))
    | with_reducible refine sendControl_only ?_ (subset_sub hP (by decide))
    | with_reducible refine modMer_only ?_ (subset_sub hP (by decide))
    | split

theorem execPtpMessageRx_holds {port : Nat} {m : PtpMsg} {s : State} (hO : Within pl sb s) (hP : [.out, .regs, .fab, .ctl, .mgt, .alm, .tel, .mer] ⊆ pl) : Holds (InNext pl sb) (execPtpMessageRx port m s) := by
  unfold execPtpMessageRx
  repeat' first
    | with_reducible refine leaf_next ?_
    | with_reducible assumption
    | with_reducible refine ite_only ?_ ?_
    | with_reducible refine ptpRx_only ?_ (subset_sub hP (by decide))
theorem execPtpMessageRx_only {port : Nat} {m : PtpMsg} {s : State} {t : State} (hO : Within pl sb s) (hP : [.out, .regs, .fab, .ctl, .mgt, .alm, .tel, .mer] ⊆ pl) (hE : execPtpMessageRx port m s = .next t) : Within pl sb t := by
  have k : Holds (InNext pl sb) (execPtpMessageRx port m s) := execPtpMessageRx_holds (port := port) (m := m) (s := s) hO hP
  rw [hE] at k; exact k.of

theorem execCellTime_holds {port : Nat} {c : WireCell} {m : PtpMsg} {s : State} (hO : Within pl sb s) (hP : [.out, .regs, .fab, .ctl, .mgt, .alm, .tel, .mer] ⊆ pl) : Holds (InNext pl sb) (execCellTime port c m s) := by
  unfold execCellTime
  repeat' first
    | with_reducible refine leaf_next ?_
    | with_reducible assumption
    | with_reducible refine ite_only ?_ ?_
    | with_reducible refine checkCell_only_eq ?_ (subset_sub hP (by decide)) (by assumption)
    | with_reducible refine checkCell_only ?_ (subset_sub hP (by decide))
    | with_reducible refine ptpRx_only ?_ (subset_sub hP (by decide))
    | (extract_lets +onlyGivenNames -underBinder x; refine cut_only (ps := pl) (s := sb) (a := x) ?_ ?_; unfold x; rotate_left; clear_value x; intro hx)
    | (extract_lets +onlyGivenNames -underBinder x; (try unfold x); clear x)
    | split
theorem execCellTime_only {port : Nat} {c : WireCell} {m : PtpMsg} {s : State} {t : State} (hO : Within pl sb s) (hP : [.out, .regs, .fab, .ctl, .mgt, .alm, .tel, .mer] ⊆ pl) (hE : execCellTime port c m s = .next t) : Within pl sb t := by
  have k : Holds (InNext pl sb) (execCellTime port c m s) := execCellTime_holds (port := port) (c := c) (m := m) (s := s) hO hP
  rw [hE] at k; exact k.of

theorem execPtpSyncTx_holds {port : Nat} {s : State} (hO : Within pl sb s) (hP : [.out, .fab, .mer] ⊆ pl) : Holds (InNext pl sb) (execPtpSyncTx port s) := by
  unfold execPtpSyncTx
  repeat' first
    | with_reducible refine leaf_next ?_
    | with_reducible assumption
    | with_reducible refine ite_only ?_ ?_
    | with_reducible refine emit_only ?_ (subset_sub hP (by decide))
    | with_reducible refine modLink_only ?_ (subset_sub hP (by decide))
    | with_reducible refine sendControl_only ?_ (subset_sub hP (by decide))
    | with_reducible refine modMer_only ?_ (subset_sub hP (by decide))
    | (extract_lets +onlyGivenNames -underBinder x; refine cut_only (ps := pl) (s := sb) (a := x) ?_ ?_; unfold x; rotate_left; clear_value x; intro hx)
    | (extract_lets +onlyGivenNames -underBinder x; (try unfold x); clear x)
theorem execPtpSyncTx_only {port : Nat} {s : State} {t : State} (hO : Within pl sb s) (hP : [.out, .fab, .mer] ⊆ pl) (hE : execPtpSyncTx port s = .next t) : Within pl sb t := by
  have k : Holds (InNext pl sb) (execPtpSyncTx port s) := execPtpSyncTx_holds (port := port) (s := s) hO hP
  rw [hE] at k; exact k.of

theorem execPpsInEdge_holds {offset : Int} {spacing : Nat} {freq : Int} {s : State} (hO : Within pl sb s) (hP : [.out, .regs, .ctl, .mgt, .alm, .tel, .mer] ⊆ pl) : Holds (InNext pl sb) (execPpsInEdge offset spacing freq s) := by
  unfold execPpsInEdge
  repeat' first
    | with_reducible refine leaf_next ?_
    | with_reducible assumption
    | with_reducible refine ite_only ?_ ?_
    | with_reducible refine servo_only ?_ (subset_sub hP (by decide))
    | with_reducible refine setSource_only ?_ (subset_sub hP (by decide))
    | with_reducible refine modMer_only ?_ (subset_sub hP (by decide))
    | (extract_lets +onlyGivenNames -underBinder x; refine cut_only (ps := pl) (s := sb) (a := x) ?_ ?_; unfold x; rotate_left; clear_value x; intro hx)
    | (extract_lets +onlyGivenNames -underBinder x; (try unfold x); clear x)
theorem execPpsInEdge_only {offset : Int} {spacing : Nat} {freq : Int} {s : State} {t : State} (hO : Within pl sb s) (hP : [.out, .regs, .ctl, .mgt, .alm, .tel, .mer] ⊆ pl) (hE : execPpsInEdge offset spacing freq s = .next t) : Within pl sb t := by
  have k : Holds (InNext pl sb) (execPpsInEdge offset spacing freq s) := execPpsInEdge_holds (offset := offset) (spacing := spacing) (freq := freq) (s := s) hO hP
  rw [hE] at k; exact k.of

theorem execSourceLost_holds {source : Nat} {s : State} (hO : Within pl sb s) (hP : [.out, .regs, .ctl, .mgt, .alm, .tel, .mer] ⊆ pl) : Holds (InNext pl sb) (execSourceLost source s) := by
  unfold execSourceLost
  repeat' first
    | with_reducible refine leaf_next ?_
    | with_reducible assumption
    | with_reducible refine holdover_only ?_ (subset_sub hP (by decide))
    | with_reducible refine setSource_only ?_ (subset_sub hP (by decide))
    | with_reducible refine modMer_only ?_ (subset_sub hP (by decide))
    | (extract_lets +onlyGivenNames -underBinder x; refine cut_only (ps := pl) (s := sb) (a := x) ?_ ?_; unfold x; rotate_left; clear_value x; intro hx)
    | (extract_lets +onlyGivenNames -underBinder x; (try unfold x); clear x)
    | split
theorem execSourceLost_only {source : Nat} {s : State} {t : State} (hO : Within pl sb s) (hP : [.out, .regs, .ctl, .mgt, .alm, .tel, .mer] ⊆ pl) (hE : execSourceLost source s = .next t) : Within pl sb t := by
  have k : Holds (InNext pl sb) (execSourceLost source s) := execSourceLost_holds (source := source) (s := s) hO hP
  rw [hE] at k; exact k.of

theorem execBoundExceedsGuard_holds {s : State} (hO : Within pl sb s) (hP : [.out, .regs, .ctl, .mgt, .alm, .tel, .mer] ⊆ pl) : Holds (InNext pl sb) (execBoundExceedsGuard s) := by
  unfold execBoundExceedsGuard
  repeat' first
    | with_reducible refine leaf_next ?_
    | with_reducible assumption
    | with_reducible refine merGo_only ?_ (subset_sub hP (by decide))
    | with_reducible refine modMer_only ?_ (subset_sub hP (by decide))
    | (extract_lets +onlyGivenNames -underBinder x; refine cut_only (ps := pl) (s := sb) (a := x) ?_ ?_; unfold x; rotate_left; clear_value x; intro hx)
    | (extract_lets +onlyGivenNames -underBinder x; (try unfold x); clear x)
    | split
theorem execBoundExceedsGuard_only {s : State} {t : State} (hO : Within pl sb s) (hP : [.out, .regs, .ctl, .mgt, .alm, .tel, .mer] ⊆ pl) (hE : execBoundExceedsGuard s = .next t) : Within pl sb t := by
  have k : Holds (InNext pl sb) (execBoundExceedsGuard s) := execBoundExceedsGuard_holds (s := s) hO hP
  rw [hE] at k; exact k.of

theorem execSlewDone_holds {s : State} (hO : Within pl sb s) (hP : [.mer] ⊆ pl) : Holds (InNext pl sb) (execSlewDone s) := by
  unfold execSlewDone
  repeat' first
    | with_reducible refine leaf_next ?_
    | with_reducible assumption
    | with_reducible refine modMer_only ?_ (subset_sub hP (by decide))
theorem execSlewDone_only {s : State} {t : State} (hO : Within pl sb s) (hP : [.mer] ⊆ pl) (hE : execSlewDone s = .next t) : Within pl sb t := by
  have k : Holds (InNext pl sb) (execSlewDone s) := execSlewDone_holds (s := s) hO hP
  rw [hE] at k; exact k.of

theorem execPpsOutRise_holds {s : State} (hO : Within pl sb s) (hP : [.out, .mer] ⊆ pl) : Holds (InNext pl sb) (execPpsOutRise s) := by
  unfold execPpsOutRise
  repeat' first
    | with_reducible refine leaf_next ?_
    | with_reducible assumption
    | with_reducible refine ite_only ?_ ?_
    | with_reducible refine emit_only ?_ (subset_sub hP (by decide))
    | with_reducible refine modMer_only ?_ (subset_sub hP (by decide))
    | (extract_lets +onlyGivenNames -underBinder x; refine cut_only (ps := pl) (s := sb) (a := x) ?_ ?_; unfold x; rotate_left; clear_value x; intro hx)
    | (extract_lets +onlyGivenNames -underBinder x; (try unfold x); clear x)
    | split
theorem execPpsOutRise_only {s : State} {t : State} (hO : Within pl sb s) (hP : [.out, .mer] ⊆ pl) (hE : execPpsOutRise s = .next t) : Within pl sb t := by
  have k : Holds (InNext pl sb) (execPpsOutRise s) := execPpsOutRise_holds (s := s) hO hP
  rw [hE] at k; exact k.of

theorem execPpsOutFall_holds {s : State} (hO : Within pl sb s) (hP : [.out, .mer] ⊆ pl) : Holds (InNext pl sb) (execPpsOutFall s) := by
  unfold execPpsOutFall
  repeat' first
    | with_reducible refine leaf_next ?_
    | with_reducible assumption
    | with_reducible refine ite_only ?_ ?_
    | with_reducible refine emit_only ?_ (subset_sub hP (by decide))
    | with_reducible refine modMer_only ?_ (subset_sub hP (by decide))
theorem execPpsOutFall_only {s : State} {t : State} (hO : Within pl sb s) (hP : [.out, .mer] ⊆ pl) (hE : execPpsOutFall s = .next t) : Within pl sb t := by
  have k : Holds (InNext pl sb) (execPpsOutFall s) := execPpsOutFall_holds (s := s) hO hP
  rw [hE] at k; exact k.of

theorem execMerHostOfsWrite_holds {value : Word} {s : State} (hO : Within pl sb s) (hP : [.out, .regs, .ctl, .mgt, .alm, .tel, .mer] ⊆ pl) : Holds (InNext pl sb) (execMerHostOfsWrite value s) := by
  unfold execMerHostOfsWrite
  repeat' first
    | with_reducible refine leaf_next ?_
    | with_reducible assumption
    | with_reducible refine ite_only ?_ ?_
    | with_reducible refine servo_only ?_ (subset_sub hP (by decide))
    | with_reducible refine setSource_only ?_ (subset_sub hP (by decide))
    | with_reducible refine modMer_only ?_ (subset_sub hP (by decide))
    | (extract_lets +onlyGivenNames -underBinder x; refine cut_only (ps := pl) (s := sb) (a := x) ?_ ?_; unfold x; rotate_left; clear_value x; intro hx)
    | (extract_lets +onlyGivenNames -underBinder x; (try unfold x); clear x)
theorem execMerHostOfsWrite_only {value : Word} {s : State} {t : State} (hO : Within pl sb s) (hP : [.out, .regs, .ctl, .mgt, .alm, .tel, .mer] ⊆ pl) (hE : execMerHostOfsWrite value s = .next t) : Within pl sb t := by
  have k : Holds (InNext pl sb) (execMerHostOfsWrite value s) := execMerHostOfsWrite_holds (value := value) (s := s) hO hP
  rw [hE] at k; exact k.of

theorem execMerHostFreqWrite_holds {value : Word} {s : State} (hO : Within pl sb s) (hP : [.regs, .mer] ⊆ pl) : Holds (InNext pl sb) (execMerHostFreqWrite value s) := by
  unfold execMerHostFreqWrite
  repeat' first
    | with_reducible refine leaf_next ?_
    | with_reducible assumption
    | with_reducible refine ite_only ?_ ?_
    | with_reducible refine setReg_only ?_ (subset_sub hP (by decide))
    | with_reducible refine modMer_only ?_ (subset_sub hP (by decide))
theorem execMerHostFreqWrite_only {value : Word} {s : State} {t : State} (hO : Within pl sb s) (hP : [.regs, .mer] ⊆ pl) (hE : execMerHostFreqWrite value s = .next t) : Within pl sb t := by
  have k : Holds (InNext pl sb) (execMerHostFreqWrite value s) := execMerHostFreqWrite_holds (value := value) (s := s) hO hP
  rw [hE] at k; exact k.of

theorem execHostServoSilence_holds {s : State} (hO : Within pl sb s) (hP : [.out, .regs, .ctl, .mgt, .alm, .tel, .mer] ⊆ pl) : Holds (InNext pl sb) (execHostServoSilence s) := by
  unfold execHostServoSilence
  repeat' first
    | with_reducible refine leaf_next ?_
    | with_reducible assumption
    | with_reducible refine ite_only ?_ ?_
    | with_reducible refine holdover_only ?_ (subset_sub hP (by decide))
    | with_reducible refine setSource_only ?_ (subset_sub hP (by decide))
    | with_reducible refine modMer_only ?_ (subset_sub hP (by decide))
theorem execHostServoSilence_only {s : State} {t : State} (hO : Within pl sb s) (hP : [.out, .regs, .ctl, .mgt, .alm, .tel, .mer] ⊆ pl) (hE : execHostServoSilence s = .next t) : Within pl sb t := by
  have k : Holds (InNext pl sb) (execHostServoSilence s) := execHostServoSilence_holds (s := s) hO hP
  rw [hE] at k; exact k.of

theorem execMerSetWrite_holds {hi : Word} {s : State} (hO : Within pl sb s) (hP : [.regs, .mer] ⊆ pl) : Holds (InNext pl sb) (execMerSetWrite hi s) := by
  unfold execMerSetWrite
  repeat' first
    | with_reducible refine leaf_next ?_
    | with_reducible assumption
    | with_reducible refine ite_only ?_ ?_
    | with_reducible refine setReg_only ?_ (subset_sub hP (by decide))
    | with_reducible refine modMer_only ?_ (subset_sub hP (by decide))
    | (extract_lets +onlyGivenNames -underBinder x; refine cut_only (ps := pl) (s := sb) (a := x) ?_ ?_; unfold x; rotate_left; clear_value x; intro hx)
    | (extract_lets +onlyGivenNames -underBinder x; (try unfold x); clear x)
theorem execMerSetWrite_only {hi : Word} {s : State} {t : State} (hO : Within pl sb s) (hP : [.regs, .mer] ⊆ pl) (hE : execMerSetWrite hi s = .next t) : Within pl sb t := by
  have k : Holds (InNext pl sb) (execMerSetWrite hi s) := execMerSetWrite_holds (hi := hi) (s := s) hO hP
  rw [hE] at k; exact k.of

theorem execMerNowRead_holds {s : State} (hO : Within pl sb s) (hP : [.regs, .mer] ⊆ pl) : Holds (InNext pl sb) (execMerNowRead s) := by
  unfold execMerNowRead
  repeat' first
    | with_reducible refine leaf_next ?_
    | with_reducible assumption
    | with_reducible refine latchSet_only ?_ (subset_sub hP (by decide))
    | with_reducible refine modMer_only ?_ (subset_sub hP (by decide))
    | with_reducible refine modRegs_only ?_ (subset_sub hP (by decide))
theorem execMerNowRead_only {s : State} {t : State} (hO : Within pl sb s) (hP : [.regs, .mer] ⊆ pl) (hE : execMerNowRead s = .next t) : Within pl sb t := by
  have k : Holds (InNext pl sb) (execMerNowRead s) := execMerNowRead_holds (s := s) hO hP
  rw [hE] at k; exact k.of

theorem servoModeChanged_only {s : State} (hO : Within pl sb s) (hP : [.out, .regs, .ctl, .mgt, .alm, .tel, .mer] ⊆ pl) : Within pl sb (servoModeChanged s) := by
  unfold servoModeChanged
  repeat' first
    | with_reducible assumption
    | with_reducible refine holdover_only ?_ (subset_sub hP (by decide))
    | with_reducible refine setSource_only ?_ (subset_sub hP (by decide))
    | with_reducible refine modMer_only ?_ (subset_sub hP (by decide))
    | (extract_lets +onlyGivenNames -underBinder x; refine cut_only (ps := pl) (s := sb) (a := x) ?_ ?_; unfold x; rotate_left; clear_value x; intro hx)
    | (extract_lets +onlyGivenNames -underBinder x; (try unfold x); clear x)

theorem ppsInChanged_only {s : State} (hO : Within pl sb s) (hP : [.out, .regs, .ctl, .mgt, .alm, .tel, .mer] ⊆ pl) : Within pl sb (ppsInChanged s) := by
  unfold ppsInChanged
  repeat' first
    | with_reducible assumption
    | with_reducible refine ite_only ?_ ?_
    | with_reducible refine holdover_only ?_ (subset_sub hP (by decide))
    | with_reducible refine setSource_only ?_ (subset_sub hP (by decide))
    | with_reducible refine modMer_only ?_ (subset_sub hP (by decide))

theorem afterStep_only {s : State} (hO : Within pl sb s) (hP : [.out, .regs, .ctl, .mgt, .alm, .tel, .mer] ⊆ pl) : Within pl sb (afterStep s) := by
  unfold afterStep
  repeat' first
    | with_reducible assumption
    | with_reducible refine ite_only ?_ ?_
    | with_reducible refine merGo_only ?_ (subset_sub hP (by decide))
    | with_reducible refine modMer_only ?_ (subset_sub hP (by decide))
    | (extract_lets +onlyGivenNames -underBinder x; refine cut_only (ps := pl) (s := sb) (a := x) ?_ ?_; unfold x; rotate_left; clear_value x; intro hx)
    | (extract_lets +onlyGivenNames -underBinder x; (try unfold x); clear x)

theorem execPtpTxRingEntry_holds {desc : List Byte} {s : State} (hO : Within pl sb s) (hP : [.out, .regs, .fab, .ctl, .mgt, .alm, .tel, .mer] ⊆ pl) : Holds (InNext pl sb) (execPtpTxRingEntry desc s) := by
  unfold execPtpTxRingEntry
  repeat' first
    | with_reducible refine leaf_next ?_
    | with_reducible assumption
    | with_reducible refine ite_only ?_ ?_
    | with_reducible refine emit_only ?_ (subset_sub hP (by decide))
    | with_reducible refine modLink_only ?_ (subset_sub hP (by decide))
    | with_reducible refine ptpRx_only ?_ (subset_sub hP (by decide))
    | with_reducible refine ringTake_only ?_ (subset_sub hP (by decide))
    | with_reducible refine ringWrite_only ?_ (subset_sub hP (by decide))
    | with_reducible refine sendControl_only ?_ (subset_sub hP (by decide))
    | (extract_lets +onlyGivenNames -underBinder x; refine cut_only (ps := pl) (s := sb) (a := x) ?_ ?_; unfold x; rotate_left; clear_value x; intro hx)
    | (extract_lets +onlyGivenNames -underBinder x; (try unfold x); clear x)
theorem execPtpTxRingEntry_only {desc : List Byte} {s : State} {t : State} (hO : Within pl sb s) (hP : [.out, .regs, .fab, .ctl, .mgt, .alm, .tel, .mer] ⊆ pl) (hE : execPtpTxRingEntry desc s = .next t) : Within pl sb t := by
  have k : Holds (InNext pl sb) (execPtpTxRingEntry desc s) := execPtpTxRingEntry_holds (desc := desc) (s := s) hO hP
  rw [hE] at k; exact k.of

theorem sendTimes_only {s : State} {port : Nat} (hO : Within pl sb s) (hP : [.out, .regs, .fab, .ctl, .mgt, .alm, .tel, .mer] ⊆ pl) : Within pl sb (sendTimes s port) := by
  unfold sendTimes
  repeat' first
    | with_reducible assumption
    | with_reducible refine foldl_only ?_ fun _ _ _ => ?_
    | with_reducible refine modLink_only ?_ (subset_sub hP (by decide))
    | with_reducible refine ptpRx_only ?_ (subset_sub hP (by decide))
    | with_reducible refine ringWrite_only ?_ (subset_sub hP (by decide))
    | with_reducible refine sendControl_only ?_ (subset_sub hP (by decide))
    | split

theorem execRecalSerdesWindowEnd_holds {sec ent : Nat} {s : State} (hO : Within pl sb s) (hP : [.out, .regs, .eph, .fab, .ctl, .mgt, .alm, .tel, .mer] ⊆ pl) : Holds (InNext pl sb) (execRecalSerdesWindowEnd sec ent s) := by
  unfold execRecalSerdesWindowEnd
  repeat' first
    | with_reducible refine leaf_next ?_
    | with_reducible assumption
    | with_reducible refine ite_only ?_ ?_
    | with_reducible refine sendTimes_only ?_ (subset_sub hP (by decide))
    | with_reducible refine modEph_only ?_ (subset_sub hP (by decide))
    | split
theorem execRecalSerdesWindowEnd_only {sec ent : Nat} {s : State} {t : State} (hO : Within pl sb s) (hP : [.out, .regs, .eph, .fab, .ctl, .mgt, .alm, .tel, .mer] ⊆ pl) (hE : execRecalSerdesWindowEnd sec ent s = .next t) : Within pl sb t := by
  have k : Holds (InNext pl sb) (execRecalSerdesWindowEnd sec ent s) := execRecalSerdesWindowEnd_holds (sec := sec) (ent := ent) (s := s) hO hP
  rw [hE] at k; exact k.of

theorem execCmTxRingEntry_holds {desc : List Byte} {s : State} (hO : Within pl sb s) (hP : [.out, .regs, .tel] ⊆ pl) : Holds (InNext pl sb) (execCmTxRingEntry desc s) := by
  unfold execCmTxRingEntry
  repeat' first
    | with_reducible refine leaf_next ?_
    | with_reducible assumption
    | with_reducible refine ite_only ?_ ?_
    | with_reducible refine emit_only ?_ (subset_sub hP (by decide))
    | with_reducible refine ringTake_only ?_ (subset_sub hP (by decide))
    | (extract_lets +onlyGivenNames -underBinder x; refine cut_only (ps := pl) (s := sb) (a := x) ?_ ?_; unfold x; rotate_left; clear_value x; intro hx)
    | (extract_lets +onlyGivenNames -underBinder x; (try unfold x); clear x)
theorem execCmTxRingEntry_only {desc : List Byte} {s : State} {t : State} (hO : Within pl sb s) (hP : [.out, .regs, .tel] ⊆ pl) (hE : execCmTxRingEntry desc s = .next t) : Within pl sb t := by
  have k : Holds (InNext pl sb) (execCmTxRingEntry desc s) := execCmTxRingEntry_holds (desc := desc) (s := s) hO hP
  rw [hE] at k; exact k.of

end Sys2Proof.Machine
end

