-- ==== Sys2Proof/Laws/FrameRdma.lean ====
section
/-! SUPPORT. What each function of Machine/Rdma.lean can do to the state as a whole: the parts it can change; the queue, the population and the
canonical forms it keeps. `f_only` speaks of the state that `f` answers, `f_holds` of a state inside its answer, `f_only_eq` of one taken out. -/

-- One declaration at a time: thousands of proofs in flight at once ask for more threads than fit in memory.
set_option Elab.async false

set_option linter.unusedTactic false
set_option linter.unreachableTactic false
set_option linter.unusedVariables false
set_option linter.unusedSimpArgs false
namespace Sys2Proof.Machine
open Sys2Proof
variable {pl : List Part} {sb : State}

theorem rdmaEvent_only {s : State} {p code : Nat} {payload : List Nat} (hO : Within pl sb s) (hP : [.out, .regs, .ctl, .mgt, .alm, .tel] ⊆ pl) : Within pl sb (rdmaEvent s p code payload) := by
  unfold rdmaEvent
  repeat' first
    | with_reducible assumption
    | with_reducible refine raiseBoth_only ?_ (subset_sub hP (by decide))

theorem sendCm_only {s : State} {port gid kind : Nat} {fields : List Nat} (hO : Within pl sb s) (hP : [.out] ⊆ pl) : Within pl sb (sendCm s port gid kind fields) := by
  unfold sendCm
  repeat' first
    | with_reducible assumption
    | with_reducible refine emit_only ?_ (subset_sub hP (by decide))

theorem qpAnswer_only {s : State} {v : View} {st : Nat} (hO : Within pl sb s) (hP : [.regs] ⊆ pl) : Within pl sb (qpAnswer s v st) := by
  unfold qpAnswer
  repeat' first
    | with_reducible assumption
    | with_reducible refine mbxDone_only ?_ (subset_sub hP (by decide))
    | with_reducible refine mbxPut_only ?_ (subset_sub hP (by decide))

theorem endDeregs_only {s : State} (hO : Within pl sb s) (hP : [.regs, .px] ⊆ pl) : Within pl sb (endDeregs s) := by
  unfold endDeregs
  repeat' first
    | with_reducible assumption
    | with_reducible refine foldl_only ?_ fun _ _ _ => ?_
    | with_reducible refine qpAnswer_only ?_ (subset_sub hP (by decide))
    | with_reducible refine modPx_only ?_ (subset_sub hP (by decide))
    | (extract_lets +onlyGivenNames -underBinder x; refine cut_only (ps := pl) (s := sb) (a := x) ?_ ?_; unfold x; rotate_left; clear_value x; intro hx)
    | (extract_lets +onlyGivenNames -underBinder x; (try unfold x); clear x)
    | split

theorem qpError_only {s : State} {ix : Nat} {keep : Option GwOp} (hO : Within pl sb s) (hP : [.out, .freeCount, .regs, .cons, .work, .mem, .serve, .px, .ctl, .tel] ⊆ pl) : Within pl sb (qpError s ix keep) := by
  unfold qpError
  repeat' first
    | with_reducible assumption
    | with_reducible refine ite_only ?_ ?_
    | with_reducible refine foldl_only ?_ fun _ _ _ => ?_
    | with_reducible refine completeOwner_only ?_ (subset_sub hP (by decide))
    | with_reducible refine endDeregs_only ?_ (subset_sub hP (by decide))
    | with_reducible refine modQp_only ?_ (subset_sub hP (by decide))
    | with_reducible refine sendCm_only ?_ (subset_sub hP (by decide))
    | (extract_lets +onlyGivenNames -underBinder x; refine cut_only (ps := pl) (s := sb) (a := x) ?_ ?_; unfold x; rotate_left; clear_value x; intro hx)
    | (extract_lets +onlyGivenNames -underBinder x; (try unfold x); clear x)
    | split

theorem qpFail_only {s : State} {ix : Nat} {g : GwOp} {st : Nat} (hO : Within pl sb s) (hP : [.out, .freeCount, .regs, .cons, .work, .mem, .serve, .px, .ctl, .mgt, .alm, .tel] ⊆ pl) : Within pl sb (qpFail s ix g st) := by
  unfold qpFail
  repeat' first
    | with_reducible assumption
    | with_reducible refine completeOwner_only ?_ (subset_sub hP (by decide))
    | with_reducible refine modQp_only ?_ (subset_sub hP (by decide))
    | with_reducible refine qpError_only ?_ (subset_sub hP (by decide))
    | with_reducible refine rdmaEvent_only ?_ (subset_sub hP (by decide))
    | split

theorem writeBack_only {s : State} {q : Qp} (hO : Within pl sb s) (hP : [.out, .px, .tel] ⊆ pl) : Within pl sb (writeBack s q) := by
  unfold writeBack
  repeat' first
    | with_reducible assumption
    | with_reducible refine hostPut_only ?_ (subset_sub hP (by decide))
    | with_reducible refine modQp_only ?_ (subset_sub hP (by decide))
    | with_reducible refine telDma_only ?_ (subset_sub hP (by decide))
    | (extract_lets +onlyGivenNames -underBinder x; refine cut_only (ps := pl) (s := sb) (a := x) ?_ ?_; unfold x; rotate_left; clear_value x; intro hx)
    | (extract_lets +onlyGivenNames -underBinder x; (try unfold x); clear x)

theorem cacheRoom_holds {s : State} {die : Nat} (hO : Within pl sb s) (hP : [.out, .px, .tel] ⊆ pl) : Holds (InSome (Within pl sb)) (cacheRoom s die) := by
  unfold cacheRoom
  repeat' first
    | with_reducible refine map_holds fun _ _ => ?_
    | with_reducible refine ite_holds ?_ ?_
    | with_reducible exact leaf_none
    | with_reducible refine leaf_some ?_
    | with_reducible refine leaf_only ?_
    | with_reducible assumption
    | with_reducible refine ite_only ?_ ?_
    | with_reducible refine writeBack_only ?_ (subset_sub hP (by decide))
    | (extract_lets +onlyGivenNames -underBinder x; refine cut_only (ps := pl) (s := sb) (a := x) ?_ ?_; unfold x; rotate_left; clear_value x; intro hx)
    | (extract_lets +onlyGivenNames -underBinder x; (try unfold x); clear x)
theorem cacheRoom_only_eq {s : State} {die : Nat} {ra : State} (hO : Within pl sb s) (hP : [.out, .px, .tel] ⊆ pl) (hE : cacheRoom s die = some ra) : Within pl sb ra := by
  have k : Holds (InSome (Within pl sb)) (cacheRoom s die) := cacheRoom_holds (s := s) (die := die) hO hP
  rw [hE] at k; exact k.of

theorem startLoad_only {s : State} {ix : Nat} (hO : Within pl sb s) (hP : [.px, .ctl] ⊆ pl) : Within pl sb (startLoad s ix) := by
  unfold startLoad
  repeat' first
    | with_reducible assumption
    | with_reducible refine ite_only ?_ ?_
    | with_reducible refine modQp_only ?_ (subset_sub hP (by decide))
    | with_reducible refine odCount_only ?_ (subset_sub hP (by decide))
    | split

theorem gwGo_only {s : State} {ix : Nat} (hO : Within pl sb s) (hP : [.regs, .fab, .px, .ctl, .tel] ⊆ pl) : Within pl sb (gwGo s ix) := by
  unfold gwGo
  repeat' first
    | with_reducible assumption
    | with_reducible refine ite_only ?_ ?_
    | with_reducible refine gwSend_only ?_ (subset_sub hP (by decide))
    | with_reducible refine startLoad_only ?_ (subset_sub hP (by decide))
    | split

theorem qpCommand_holds {v : View} {op : Nat} {s : State} {act : Nat → State → State} (h : Within pl sb s)
    (k : ∀ n u, Within pl sb u → Within pl sb (act n u)) (hp : [.regs, .ctl] ⊆ pl) : Holds (InNext pl sb) (qpCommand v op s act) := by
  unfold qpCommand
  refine leaf_next (ite_only h (ite_only (qpAnswer_only ?_ (subset_sub hp (by decide))) (ite_only (qpAnswer_only h (subset_sub hp (by decide))) (k _ _ h))))
  split
  · exact countAccess_only h (subset_sub hp (by decide))
  · exact h

theorem newQp_holds {s : State} {p die : Nat} (hO : Within pl sb s) (hP : [.out, .px, .tel] ⊆ pl) : Holds (InSome (InSnd pl sb)) (newQp s p die) := by
  unfold newQp
  repeat' first
    | with_reducible refine map_holds fun _ _ => ?_
    | with_reducible refine ite_holds ?_ ?_
    | with_reducible exact leaf_none
    | with_reducible refine leaf_some ?_
    | with_reducible refine leaf_snd ?_
    | with_reducible refine leaf_only ?_
    | with_reducible assumption
    | with_reducible refine ite_only ?_ ?_
    | with_reducible refine cacheRoom_only_eq ?_ (subset_sub hP (by decide)) (by assumption)
    | with_reducible refine modPx_only ?_ (subset_sub hP (by decide))
    | (extract_lets +onlyGivenNames -underBinder x; refine cut_only (ps := pl) (s := sb) (a := x) ?_ ?_; unfold x; rotate_left; clear_value x; intro hx)
    | (extract_lets +onlyGivenNames -underBinder x; (try unfold x); clear x)
    | split
theorem newQp_only_eq {s : State} {p die : Nat} {ra : Qp} {rb : State} (hO : Within pl sb s) (hP : [.out, .px, .tel] ⊆ pl) (hE : newQp s p die = some (ra, rb)) : Within pl sb rb := by
  have k : Holds (InSome (InSnd pl sb)) (newQp s p die) := newQp_holds (s := s) (p := p) (die := die) hO hP
  rw [hE] at k; exact k.of

theorem execQpCreate_holds {v : View} {s : State} (hO : Within pl sb s) (hP : [.out, .regs, .px, .ctl, .tel] ⊆ pl) : Holds (InNext pl sb) (execQpCreate v s) := by
  unfold execQpCreate
  repeat' first
    | with_reducible refine leaf_next ?_
    | with_reducible assumption
    | with_reducible refine ite_only ?_ ?_
    | with_reducible refine mbxPut_only ?_ (subset_sub hP (by decide))
    | with_reducible refine modQp_only ?_ (subset_sub hP (by decide))
    | with_reducible refine newQp_only_eq ?_ (subset_sub hP (by decide)) (by assumption)
    | with_reducible refine newQp_holds ?_ (subset_sub hP (by decide))
    | with_reducible refine qpAnswer_only ?_ (subset_sub hP (by decide))
    | with_reducible refine qpCommand_holds ?_ (fun _ _ _ => ?_) (subset_sub hP (by decide))
    | with_reducible refine sendCm_only ?_ (subset_sub hP (by decide))
    | (extract_lets +onlyGivenNames -underBinder x; refine cut_only (ps := pl) (s := sb) (a := x) ?_ ?_; unfold x; rotate_left; clear_value x; intro hx)
    | (extract_lets +onlyGivenNames -underBinder x; (try unfold x); clear x)
    | split
theorem execQpCreate_only {v : View} {s : State} {t : State} (hO : Within pl sb s) (hP : [.out, .regs, .px, .ctl, .tel] ⊆ pl) (hE : execQpCreate v s = .next t) : Within pl sb t := by
  have k : Holds (InNext pl sb) (execQpCreate v s) := execQpCreate_holds (v := v) (s := s) hO hP
  rw [hE] at k; exact k.of

theorem execQpModify_holds {v : View} {s : State} (hO : Within pl sb s) (hP : [.out, .freeCount, .regs, .cons, .work, .mem, .serve, .fab, .px, .ctl, .tel] ⊆ pl) : Holds (InNext pl sb) (execQpModify v s) := by
  unfold execQpModify
  repeat' first
    | with_reducible refine leaf_next ?_
    | with_reducible assumption
    | with_reducible refine ite_only ?_ ?_
    | with_reducible refine cacheRoom_only_eq ?_ (subset_sub hP (by decide)) (by assumption)
    | with_reducible refine gwGo_only ?_ (subset_sub hP (by decide))
    | with_reducible refine modQp_only ?_ (subset_sub hP (by decide))
    | with_reducible refine qpAnswer_only ?_ (subset_sub hP (by decide))
    | with_reducible refine qpCommand_holds ?_ (fun _ _ _ => ?_) (subset_sub hP (by decide))
    | with_reducible refine qpError_only ?_ (subset_sub hP (by decide))
    | (extract_lets +onlyGivenNames -underBinder x; refine cut_only (ps := pl) (s := sb) (a := x) ?_ ?_; unfold x; rotate_left; clear_value x; intro hx)
    | (extract_lets +onlyGivenNames -underBinder x; (try unfold x); clear x)
    | split
theorem execQpModify_only {v : View} {s : State} {t : State} (hO : Within pl sb s) (hP : [.out, .freeCount, .regs, .cons, .work, .mem, .serve, .fab, .px, .ctl, .tel] ⊆ pl) (hE : execQpModify v s = .next t) : Within pl sb t := by
  have k : Holds (InNext pl sb) (execQpModify v s) := execQpModify_holds (v := v) (s := s) hO hP
  rw [hE] at k; exact k.of

theorem execQpDestroy_holds {v : View} {s : State} (hO : Within pl sb s) (hP : [.out, .freeCount, .regs, .cons, .work, .mem, .serve, .px, .ctl, .tel] ⊆ pl) : Holds (InNext pl sb) (execQpDestroy v s) := by
  unfold execQpDestroy
  repeat' first
    | with_reducible refine leaf_next ?_
    | with_reducible assumption
    | with_reducible refine qpAnswer_only ?_ (subset_sub hP (by decide))
    | with_reducible refine qpCommand_holds ?_ (fun _ _ _ => ?_) (subset_sub hP (by decide))
    | with_reducible refine qpError_only ?_ (subset_sub hP (by decide))
    | with_reducible refine modPx_only ?_ (subset_sub hP (by decide))
    | split
theorem execQpDestroy_only {v : View} {s : State} {t : State} (hO : Within pl sb s) (hP : [.out, .freeCount, .regs, .cons, .work, .mem, .serve, .px, .ctl, .tel] ⊆ pl) (hE : execQpDestroy v s = .next t) : Within pl sb t := by
  have k : Holds (InNext pl sb) (execQpDestroy v s) := execQpDestroy_holds (v := v) (s := s) hO hP
  rw [hE] at k; exact k.of

theorem execQpQuery_holds {v : View} {s : State} (hO : Within pl sb s) (hP : [.regs, .ctl] ⊆ pl) : Holds (InNext pl sb) (execQpQuery v s) := by
  unfold execQpQuery
  repeat' first
    | with_reducible refine leaf_next ?_
    | with_reducible assumption
    | with_reducible refine mbxPut_only ?_ (subset_sub hP (by decide))
    | with_reducible refine qpAnswer_only ?_ (subset_sub hP (by decide))
    | with_reducible refine qpCommand_holds ?_ (fun _ _ _ => ?_) (subset_sub hP (by decide))
    | split
theorem execQpQuery_only {v : View} {s : State} {t : State} (hO : Within pl sb s) (hP : [.regs, .ctl] ⊆ pl) (hE : execQpQuery v s = .next t) : Within pl sb t := by
  have k : Holds (InNext pl sb) (execQpQuery v s) := execQpQuery_holds (v := v) (s := s) hO hP
  rw [hE] at k; exact k.of

theorem execQpRegMr_holds {v : View} {s : State} (hO : Within pl sb s) (hP : [.regs, .px, .ctl] ⊆ pl) : Holds (InNext pl sb) (execQpRegMr v s) := by
  unfold execQpRegMr
  repeat' first
    | with_reducible refine leaf_next ?_
    | with_reducible assumption
    | with_reducible refine ite_only ?_ ?_
    | with_reducible refine mbxPut_only ?_ (subset_sub hP (by decide))
    | with_reducible refine qpAnswer_only ?_ (subset_sub hP (by decide))
    | with_reducible refine qpCommand_holds ?_ (fun _ _ _ => ?_) (subset_sub hP (by decide))
    | with_reducible refine modPx_only ?_ (subset_sub hP (by decide))
    | (extract_lets +onlyGivenNames -underBinder x; refine cut_only (ps := pl) (s := sb) (a := x) ?_ ?_; unfold x; rotate_left; clear_value x; intro hx)
    | (extract_lets +onlyGivenNames -underBinder x; (try unfold x); clear x)
theorem execQpRegMr_only {v : View} {s : State} {t : State} (hO : Within pl sb s) (hP : [.regs, .px, .ctl] ⊆ pl) (hE : execQpRegMr v s = .next t) : Within pl sb t := by
  have k : Holds (InNext pl sb) (execQpRegMr v s) := execQpRegMr_holds (v := v) (s := s) hO hP
  rw [hE] at k; exact k.of

theorem execQpDeregMr_holds {v : View} {s : State} (hO : Within pl sb s) (hP : [.regs, .px, .ctl] ⊆ pl) : Holds (InNext pl sb) (execQpDeregMr v s) := by
  unfold execQpDeregMr
  repeat' first
    | with_reducible refine leaf_next ?_
    | with_reducible assumption
    | with_reducible refine ite_only ?_ ?_
    | with_reducible refine qpAnswer_only ?_ (subset_sub hP (by decide))
    | with_reducible refine qpCommand_holds ?_ (fun _ _ _ => ?_) (subset_sub hP (by decide))
    | with_reducible refine modPx_only ?_ (subset_sub hP (by decide))
    | (extract_lets +onlyGivenNames -underBinder x; refine cut_only (ps := pl) (s := sb) (a := x) ?_ ?_; unfold x; rotate_left; clear_value x; intro hx)
    | (extract_lets +onlyGivenNames -underBinder x; (try unfold x); clear x)
    | split
theorem execQpDeregMr_only {v : View} {s : State} {t : State} (hO : Within pl sb s) (hP : [.regs, .px, .ctl] ⊆ pl) (hE : execQpDeregMr v s = .next t) : Within pl sb t := by
  have k : Holds (InNext pl sb) (execQpDeregMr v s) := execQpDeregMr_holds (v := v) (s := s) hO hP
  rw [hE] at k; exact k.of

theorem respond_only {s : State} {q : Qp} {op psn syn : Nat} {data : List Byte} (hO : Within pl sb s) (hP : [.regs, .fab, .tel] ⊆ pl) : Within pl sb (respond s q op psn syn data) := by
  unfold respond
  repeat' first
    | with_reducible assumption
    | with_reducible refine sendRoce_only ?_ (subset_sub hP (by decide))

theorem keyFault_only {s : State} {q : Qp} {p : RocePkt} {chk : Nat} (hO : Within pl sb s) (hP : [.out, .freeCount, .regs, .cons, .work, .mem, .serve, .fab, .px, .ctl, .mgt, .alm, .tel] ⊆ pl) : Within pl sb (keyFault s q p chk) := by
  unfold keyFault
  repeat' first
    | with_reducible assumption
    | with_reducible refine odCount_only ?_ (subset_sub hP (by decide))
    | with_reducible refine qpError_only ?_ (subset_sub hP (by decide))
    | with_reducible refine rdmaEvent_only ?_ (subset_sub hP (by decide))
    | with_reducible refine respond_only ?_ (subset_sub hP (by decide))

theorem sendReadData_only {s : State} {q : Qp} {p : RocePkt} (hO : Within pl sb s) (hP : [.regs, .fab, .tel] ⊆ pl) : Within pl sb (sendReadData s q p) := by
  unfold sendReadData
  repeat' first
    | with_reducible assumption
    | with_reducible refine foldl_only ?_ fun _ _ _ => ?_
    | with_reducible refine countTiles_only ?_ (subset_sub hP (by decide))
    | with_reducible refine respond_only ?_ (subset_sub hP (by decide))

theorem setRq_only {s : State} {ix n : Nat} (hO : Within pl sb s) (hP : [.px] ⊆ pl) : Within pl sb (setRq s ix n) := by
  unfold setRq
  repeat' first
    | with_reducible assumption
    | with_reducible refine modQp_only ?_ (subset_sub hP (by decide))

theorem serveNew_only {s : State} {q : Qp} {p : RocePkt} (hO : Within pl sb s) (hP : [.out, .freeCount, .regs, .cons, .work, .mem, .serve, .fab, .px, .ctl, .mgt, .alm, .tel] ⊆ pl) : Within pl sb (serveNew s q p) := by
  unfold serveNew
  repeat' first
    | with_reducible refine ite_holds ?_ ?_
    | with_reducible exact leaf_none
    | with_reducible assumption
    | with_reducible refine ite_only ?_ ?_
    | with_reducible refine atomicOp_only_eq ?_ (subset_sub hP (by decide)) (by assumption)
    | with_reducible refine atomicOp_only ?_ (subset_sub hP (by decide))
    | with_reducible refine countTiles_only ?_ (subset_sub hP (by decide))
    | with_reducible refine endDeregs_only ?_ (subset_sub hP (by decide))
    | with_reducible refine keyFault_only ?_ (subset_sub hP (by decide))
    | with_reducible refine modQp_only ?_ (subset_sub hP (by decide))
    | with_reducible refine respond_only ?_ (subset_sub hP (by decide))
    | with_reducible refine sendReadData_only ?_ (subset_sub hP (by decide))
    | with_reducible refine setRq_only ?_ (subset_sub hP (by decide))
    | with_reducible refine tierWrite_only ?_ (subset_sub hP (by decide))
    | with_reducible refine someFst_only (by with_reducible assumption) ?_
    | with_reducible refine someSnd_only (by with_reducible assumption) ?_
    | (extract_lets +onlyGivenNames -underBinder x; refine cut_only (ps := pl) (s := sb) (a := x) ?_ ?_; unfold x; rotate_left; clear_value x; intro hx)
    | (extract_lets +onlyGivenNames -underBinder x; (try unfold x); clear x)
    | split

theorem serveRequest_only {s : State} {q : Qp} {p : RocePkt} (hO : Within pl sb s) (hP : [.out, .freeCount, .regs, .cons, .work, .mem, .serve, .fab, .px, .ctl, .mgt, .alm, .tel] ⊆ pl) : Within pl sb (serveRequest s q p) := by
  unfold serveRequest
  repeat' first
    | with_reducible assumption
    | with_reducible refine ite_only ?_ ?_
    | with_reducible refine keyFault_only ?_ (subset_sub hP (by decide))
    | with_reducible refine respond_only ?_ (subset_sub hP (by decide))
    | with_reducible refine sendReadData_only ?_ (subset_sub hP (by decide))
    | with_reducible refine serveNew_only ?_ (subset_sub hP (by decide))
    | (extract_lets +onlyGivenNames -underBinder x; refine cut_only (ps := pl) (s := sb) (a := x) ?_ ?_; unfold x; rotate_left; clear_value x; intro hx)
    | (extract_lets +onlyGivenNames -underBinder x; (try unfold x); clear x)
    | split

theorem ackUpTo_only {s : State} {ix psn : Nat} (hO : Within pl sb s) (hP : [.out, .freeCount, .regs, .cons, .work, .mem, .serve, .fab, .px, .ctl, .tel] ⊆ pl) : Within pl sb (ackUpTo s ix psn) := by
  unfold ackUpTo
  repeat' first
    | with_reducible assumption
    | with_reducible refine foldl_only ?_ fun _ _ _ => ?_
    | with_reducible refine completeOwner_only ?_ (subset_sub hP (by decide))
    | with_reducible refine gwGo_only ?_ (subset_sub hP (by decide))
    | with_reducible refine modQp_only ?_ (subset_sub hP (by decide))
    | (extract_lets +onlyGivenNames -underBinder x; refine cut_only (ps := pl) (s := sb) (a := x) ?_ ?_; unfold x; rotate_left; clear_value x; intro hx)
    | (extract_lets +onlyGivenNames -underBinder x; (try unfold x); clear x)
    | split

theorem goBack_only {s : State} {ix psn : Nat} (hO : Within pl sb s) (hP : [.out, .freeCount, .regs, .cons, .work, .mem, .serve, .fab, .px, .ctl, .mgt, .alm, .tel] ⊆ pl) : Within pl sb (goBack s ix psn) := by
  unfold goBack
  repeat' first
    | with_reducible assumption
    | with_reducible refine ite_only ?_ ?_
    | with_reducible refine foldl_only ?_ fun _ _ _ => ?_
    | with_reducible refine modQp_only ?_ (subset_sub hP (by decide))
    | with_reducible refine qpFail_only ?_ (subset_sub hP (by decide))
    | with_reducible refine sendRoce_only ?_ (subset_sub hP (by decide))
    | (extract_lets +onlyGivenNames -underBinder x; refine cut_only (ps := pl) (s := sb) (a := x) ?_ ?_; unfold x; rotate_left; clear_value x; intro hx)
    | (extract_lets +onlyGivenNames -underBinder x; (try unfold x); clear x)
    | split

theorem takeResponse_only {s : State} {q : Qp} {p : RocePkt} (hO : Within pl sb s) (hP : [.out, .freeCount, .regs, .cons, .work, .mem, .serve, .fab, .px, .ctl, .tel] ⊆ pl) : Within pl sb (takeResponse s q p) := by
  unfold takeResponse
  repeat' first
    | with_reducible assumption
    | with_reducible refine ite_only ?_ ?_
    | with_reducible refine ackUpTo_only ?_ (subset_sub hP (by decide))
    | with_reducible refine completeOwner_only ?_ (subset_sub hP (by decide))
    | with_reducible refine gwGo_only ?_ (subset_sub hP (by decide))
    | with_reducible refine modQp_only ?_ (subset_sub hP (by decide))
    | (extract_lets +onlyGivenNames -underBinder x; refine cut_only (ps := pl) (s := sb) (a := x) ?_ ?_; unfold x; rotate_left; clear_value x; intro hx)
    | (extract_lets +onlyGivenNames -underBinder x; (try unfold x); clear x)
    | split

theorem takeCnp_only {s : State} {q : Qp} (hO : Within pl sb s) (hP : [.px] ⊆ pl) : Within pl sb (takeCnp s q) := by
  unfold takeCnp
  repeat' first
    | with_reducible assumption
    | with_reducible refine ite_only ?_ ?_
    | with_reducible refine modQp_only ?_ (subset_sub hP (by decide))
    | (extract_lets +onlyGivenNames -underBinder x; refine cut_only (ps := pl) (s := sb) (a := x) ?_ ?_; unfold x; rotate_left; clear_value x; intro hx)
    | (extract_lets +onlyGivenNames -underBinder x; (try unfold x); clear x)
    | split

theorem qpPacket_only {s : State} {q : Qp} {p : RocePkt} (hO : Within pl sb s) (hP : [.out, .freeCount, .regs, .cons, .work, .mem, .serve, .fab, .px, .ctl, .mgt, .alm, .tel] ⊆ pl) : Within pl sb (qpPacket s q p) := by
  unfold qpPacket
  repeat' first
    | with_reducible assumption
    | with_reducible refine ite_only ?_ ?_
    | with_reducible refine ackUpTo_only ?_ (subset_sub hP (by decide))
    | with_reducible refine goBack_only ?_ (subset_sub hP (by decide))
    | with_reducible refine modQp_only ?_ (subset_sub hP (by decide))
    | with_reducible refine qpFail_only ?_ (subset_sub hP (by decide))
    | with_reducible refine sendRoce_only ?_ (subset_sub hP (by decide))
    | with_reducible refine serveRequest_only ?_ (subset_sub hP (by decide))
    | with_reducible refine takeCnp_only ?_ (subset_sub hP (by decide))
    | with_reducible refine takeResponse_only ?_ (subset_sub hP (by decide))
    | with_reducible refine modPx_only ?_ (subset_sub hP (by decide))
    | (extract_lets +onlyGivenNames -underBinder x; refine cut_only (ps := pl) (s := sb) (a := x) ?_ ?_; unfold x; rotate_left; clear_value x; intro hx)
    | (extract_lets +onlyGivenNames -underBinder x; (try unfold x); clear x)
    | split

theorem dropPkt_only {s : State} (hO : Within pl sb s) (hP : [.px] ⊆ pl) : Within pl sb (dropPkt s) := by
  unfold dropPkt
  repeat' first
    | with_reducible assumption
    | with_reducible refine modPx_only ?_ (subset_sub hP (by decide))

theorem roceRx_only {s : State} {port : Nat} {p : RocePkt} (hO : Within pl sb s) (hP : [.out, .freeCount, .regs, .cons, .work, .mem, .serve, .fab, .px, .ctl, .mgt, .alm, .tel] ⊆ pl) : Within pl sb (roceRx s port p) := by
  unfold roceRx
  repeat' first
    | with_reducible assumption
    | with_reducible refine ite_only ?_ ?_
    | with_reducible refine dropPkt_only ?_ (subset_sub hP (by decide))
    | with_reducible refine modQp_only ?_ (subset_sub hP (by decide))
    | with_reducible refine qpPacket_only ?_ (subset_sub hP (by decide))
    | with_reducible refine startLoad_only ?_ (subset_sub hP (by decide))
    | split

theorem roceCommand_holds {port : Nat} {p : RocePkt} {ok : Bool} {s : State} (hO : Within pl sb s) (hP : [.out, .freeCount, .regs, .cons, .work, .mem, .serve, .fab, .px, .ctl, .mgt, .alm, .tel] ⊆ pl) : Holds (InNext pl sb) (roceCommand port p ok s) := by
  unfold roceCommand
  repeat' first
    | with_reducible refine leaf_next ?_
    | with_reducible assumption
    | with_reducible refine ite_only ?_ ?_
    | with_reducible refine roceRx_only ?_ (subset_sub hP (by decide))
theorem roceCommand_only {port : Nat} {p : RocePkt} {ok : Bool} {s : State} {t : State} (hO : Within pl sb s) (hP : [.out, .freeCount, .regs, .cons, .work, .mem, .serve, .fab, .px, .ctl, .mgt, .alm, .tel] ⊆ pl) (hE : roceCommand port p ok s = .next t) : Within pl sb t := by
  have k : Holds (InNext pl sb) (roceCommand port p ok s) := roceCommand_holds (port := port) (p := p) (ok := ok) (s := s) hO hP
  rw [hE] at k; exact k.of

theorem execRoceRxWrite_holds {port : Nat} {p : RocePkt} {s : State} (hO : Within pl sb s) (hP : [.out, .freeCount, .regs, .cons, .work, .mem, .serve, .fab, .px, .ctl, .mgt, .alm, .tel] ⊆ pl) : Holds (InNext pl sb) (execRoceRxWrite port p s) := by
  unfold execRoceRxWrite
  repeat' first
    | with_reducible refine leaf_next ?_
    | with_reducible assumption
    | with_reducible refine roceCommand_holds ?_ (subset_sub hP (by decide))
theorem execRoceRxWrite_only {port : Nat} {p : RocePkt} {s : State} {t : State} (hO : Within pl sb s) (hP : [.out, .freeCount, .regs, .cons, .work, .mem, .serve, .fab, .px, .ctl, .mgt, .alm, .tel] ⊆ pl) (hE : execRoceRxWrite port p s = .next t) : Within pl sb t := by
  have k : Holds (InNext pl sb) (execRoceRxWrite port p s) := execRoceRxWrite_holds (port := port) (p := p) (s := s) hO hP
  rw [hE] at k; exact k.of

theorem execRoceRxRead_holds {port : Nat} {p : RocePkt} {s : State} (hO : Within pl sb s) (hP : [.out, .freeCount, .regs, .cons, .work, .mem, .serve, .fab, .px, .ctl, .mgt, .alm, .tel] ⊆ pl) : Holds (InNext pl sb) (execRoceRxRead port p s) := by
  unfold execRoceRxRead
  repeat' first
    | with_reducible refine leaf_next ?_
    | with_reducible assumption
    | with_reducible refine roceCommand_holds ?_ (subset_sub hP (by decide))
theorem execRoceRxRead_only {port : Nat} {p : RocePkt} {s : State} {t : State} (hO : Within pl sb s) (hP : [.out, .freeCount, .regs, .cons, .work, .mem, .serve, .fab, .px, .ctl, .mgt, .alm, .tel] ⊆ pl) (hE : execRoceRxRead port p s = .next t) : Within pl sb t := by
  have k : Holds (InNext pl sb) (execRoceRxRead port p s) := execRoceRxRead_holds (port := port) (p := p) (s := s) hO hP
  rw [hE] at k; exact k.of

theorem execRoceRxFetchAdd_holds {port : Nat} {p : RocePkt} {s : State} (hO : Within pl sb s) (hP : [.out, .freeCount, .regs, .cons, .work, .mem, .serve, .fab, .px, .ctl, .mgt, .alm, .tel] ⊆ pl) : Holds (InNext pl sb) (execRoceRxFetchAdd port p s) := by
  unfold execRoceRxFetchAdd
  repeat' first
    | with_reducible refine leaf_next ?_
    | with_reducible assumption
    | with_reducible refine roceCommand_holds ?_ (subset_sub hP (by decide))
theorem execRoceRxFetchAdd_only {port : Nat} {p : RocePkt} {s : State} {t : State} (hO : Within pl sb s) (hP : [.out, .freeCount, .regs, .cons, .work, .mem, .serve, .fab, .px, .ctl, .mgt, .alm, .tel] ⊆ pl) (hE : execRoceRxFetchAdd port p s = .next t) : Within pl sb t := by
  have k : Holds (InNext pl sb) (execRoceRxFetchAdd port p s) := execRoceRxFetchAdd_holds (port := port) (p := p) (s := s) hO hP
  rw [hE] at k; exact k.of

theorem execRoceRxCompareSwap_holds {port : Nat} {p : RocePkt} {s : State} (hO : Within pl sb s) (hP : [.out, .freeCount, .regs, .cons, .work, .mem, .serve, .fab, .px, .ctl, .mgt, .alm, .tel] ⊆ pl) : Holds (InNext pl sb) (execRoceRxCompareSwap port p s) := by
  unfold execRoceRxCompareSwap
  repeat' first
    | with_reducible refine leaf_next ?_
    | with_reducible assumption
    | with_reducible refine roceCommand_holds ?_ (subset_sub hP (by decide))
theorem execRoceRxCompareSwap_only {port : Nat} {p : RocePkt} {s : State} {t : State} (hO : Within pl sb s) (hP : [.out, .freeCount, .regs, .cons, .work, .mem, .serve, .fab, .px, .ctl, .mgt, .alm, .tel] ⊆ pl) (hE : execRoceRxCompareSwap port p s = .next t) : Within pl sb t := by
  have k : Holds (InNext pl sb) (execRoceRxCompareSwap port p s) := execRoceRxCompareSwap_holds (port := port) (p := p) (s := s) hO hP
  rw [hE] at k; exact k.of

theorem execRoceRxSend_holds {port : Nat} {p : RocePkt} {s : State} (hO : Within pl sb s) (hP : [.out, .freeCount, .regs, .cons, .work, .mem, .serve, .fab, .px, .ctl, .mgt, .alm, .tel] ⊆ pl) : Holds (InNext pl sb) (execRoceRxSend port p s) := by
  unfold execRoceRxSend
  repeat' first
    | with_reducible refine leaf_next ?_
    | with_reducible assumption
    | with_reducible refine roceCommand_holds ?_ (subset_sub hP (by decide))
theorem execRoceRxSend_only {port : Nat} {p : RocePkt} {s : State} {t : State} (hO : Within pl sb s) (hP : [.out, .freeCount, .regs, .cons, .work, .mem, .serve, .fab, .px, .ctl, .mgt, .alm, .tel] ⊆ pl) (hE : execRoceRxSend port p s = .next t) : Within pl sb t := by
  have k : Holds (InNext pl sb) (execRoceRxSend port p s) := execRoceRxSend_holds (port := port) (p := p) (s := s) hO hP
  rw [hE] at k; exact k.of

theorem execRoceRxAck_holds {port : Nat} {p : RocePkt} {s : State} (hO : Within pl sb s) (hP : [.out, .freeCount, .regs, .cons, .work, .mem, .serve, .fab, .px, .ctl, .mgt, .alm, .tel] ⊆ pl) : Holds (InNext pl sb) (execRoceRxAck port p s) := by
  unfold execRoceRxAck
  repeat' first
    | with_reducible refine leaf_next ?_
    | with_reducible assumption
    | with_reducible refine roceCommand_holds ?_ (subset_sub hP (by decide))
theorem execRoceRxAck_only {port : Nat} {p : RocePkt} {s : State} {t : State} (hO : Within pl sb s) (hP : [.out, .freeCount, .regs, .cons, .work, .mem, .serve, .fab, .px, .ctl, .mgt, .alm, .tel] ⊆ pl) (hE : execRoceRxAck port p s = .next t) : Within pl sb t := by
  have k : Holds (InNext pl sb) (execRoceRxAck port p s) := execRoceRxAck_holds (port := port) (p := p) (s := s) hO hP
  rw [hE] at k; exact k.of

theorem execRoceRxResponse_holds {port : Nat} {p : RocePkt} {s : State} (hO : Within pl sb s) (hP : [.out, .freeCount, .regs, .cons, .work, .mem, .serve, .fab, .px, .ctl, .mgt, .alm, .tel] ⊆ pl) : Holds (InNext pl sb) (execRoceRxResponse port p s) := by
  unfold execRoceRxResponse
  repeat' first
    | with_reducible refine leaf_next ?_
    | with_reducible assumption
    | with_reducible refine roceCommand_holds ?_ (subset_sub hP (by decide))
theorem execRoceRxResponse_only {port : Nat} {p : RocePkt} {s : State} {t : State} (hO : Within pl sb s) (hP : [.out, .freeCount, .regs, .cons, .work, .mem, .serve, .fab, .px, .ctl, .mgt, .alm, .tel] ⊆ pl) (hE : execRoceRxResponse port p s = .next t) : Within pl sb t := by
  have k : Holds (InNext pl sb) (execRoceRxResponse port p s) := execRoceRxResponse_holds (port := port) (p := p) (s := s) hO hP
  rw [hE] at k; exact k.of

theorem execRoceRxNak_holds {port : Nat} {p : RocePkt} {s : State} (hO : Within pl sb s) (hP : [.out, .freeCount, .regs, .cons, .work, .mem, .serve, .fab, .px, .ctl, .mgt, .alm, .tel] ⊆ pl) : Holds (InNext pl sb) (execRoceRxNak port p s) := by
  unfold execRoceRxNak
  repeat' first
    | with_reducible refine leaf_next ?_
    | with_reducible assumption
    | with_reducible refine roceCommand_holds ?_ (subset_sub hP (by decide))
theorem execRoceRxNak_only {port : Nat} {p : RocePkt} {s : State} {t : State} (hO : Within pl sb s) (hP : [.out, .freeCount, .regs, .cons, .work, .mem, .serve, .fab, .px, .ctl, .mgt, .alm, .tel] ⊆ pl) (hE : execRoceRxNak port p s = .next t) : Within pl sb t := by
  have k : Holds (InNext pl sb) (execRoceRxNak port p s) := execRoceRxNak_holds (port := port) (p := p) (s := s) hO hP
  rw [hE] at k; exact k.of

theorem execRoceRxCnp_holds {port : Nat} {p : RocePkt} {s : State} (hO : Within pl sb s) (hP : [.out, .freeCount, .regs, .cons, .work, .mem, .serve, .fab, .px, .ctl, .mgt, .alm, .tel] ⊆ pl) : Holds (InNext pl sb) (execRoceRxCnp port p s) := by
  unfold execRoceRxCnp
  repeat' first
    | with_reducible refine leaf_next ?_
    | with_reducible assumption
    | with_reducible refine roceCommand_holds ?_ (subset_sub hP (by decide))
theorem execRoceRxCnp_only {port : Nat} {p : RocePkt} {s : State} {t : State} (hO : Within pl sb s) (hP : [.out, .freeCount, .regs, .cons, .work, .mem, .serve, .fab, .px, .ctl, .mgt, .alm, .tel] ⊆ pl) (hE : execRoceRxCnp port p s = .next t) : Within pl sb t := by
  have k : Holds (InNext pl sb) (execRoceRxCnp port p s) := execRoceRxCnp_holds (port := port) (p := p) (s := s) hO hP
  rw [hE] at k; exact k.of

theorem execRoceAckTimeout_holds {ix : Nat} {s : State} (hO : Within pl sb s) (hP : [.out, .freeCount, .regs, .cons, .work, .mem, .serve, .fab, .px, .ctl, .mgt, .alm, .tel] ⊆ pl) : Holds (InNext pl sb) (execRoceAckTimeout ix s) := by
  unfold execRoceAckTimeout
  repeat' first
    | with_reducible refine leaf_next ?_
    | with_reducible assumption
    | with_reducible refine ite_only ?_ ?_
    | with_reducible refine goBack_only ?_ (subset_sub hP (by decide))
    | split
theorem execRoceAckTimeout_only {ix : Nat} {s : State} {t : State} (hO : Within pl sb s) (hP : [.out, .freeCount, .regs, .cons, .work, .mem, .serve, .fab, .px, .ctl, .mgt, .alm, .tel] ⊆ pl) (hE : execRoceAckTimeout ix s = .next t) : Within pl sb t := by
  have k : Holds (InNext pl sb) (execRoceAckTimeout ix s) := execRoceAckTimeout_holds (ix := ix) (s := s) hO hP
  rw [hE] at k; exact k.of

theorem execDcqcnRateTimer_holds {ix : Nat} {s : State} (hO : Within pl sb s) (hP : [.px] ⊆ pl) : Holds (InNext pl sb) (execDcqcnRateTimer ix s) := by
  unfold execDcqcnRateTimer
  repeat' first
    | with_reducible refine leaf_next ?_
    | with_reducible assumption
    | with_reducible refine ite_only ?_ ?_
    | with_reducible refine modQp_only ?_ (subset_sub hP (by decide))
    | (extract_lets +onlyGivenNames -underBinder x; refine cut_only (ps := pl) (s := sb) (a := x) ?_ ?_; unfold x; rotate_left; clear_value x; intro hx)
    | (extract_lets +onlyGivenNames -underBinder x; (try unfold x); clear x)
    | split
theorem execDcqcnRateTimer_only {ix : Nat} {s : State} {t : State} (hO : Within pl sb s) (hP : [.px] ⊆ pl) (hE : execDcqcnRateTimer ix s = .next t) : Within pl sb t := by
  have k : Holds (InNext pl sb) (execDcqcnRateTimer ix s) := execDcqcnRateTimer_holds (ix := ix) (s := s) hO hP
  rw [hE] at k; exact k.of

theorem execQpContextLoaded_holds {ix outcome : Nat} {s : State} (hO : Within pl sb s) (hP : [.out, .freeCount, .regs, .cons, .work, .mem, .serve, .fab, .px, .ctl, .mgt, .alm, .tel] ⊆ pl) : Holds (InNext pl sb) (execQpContextLoaded ix outcome s) := by
  unfold execQpContextLoaded
  repeat' first
    | with_reducible refine leaf_next ?_
    | with_reducible assumption
    | with_reducible refine ite_only ?_ ?_
    | with_reducible refine foldl_only ?_ fun _ _ _ => ?_
    | with_reducible refine cacheRoom_only_eq ?_ (subset_sub hP (by decide)) (by assumption)
    | with_reducible refine gwGo_only ?_ (subset_sub hP (by decide))
    | with_reducible refine modQp_only ?_ (subset_sub hP (by decide))
    | with_reducible refine qpError_only ?_ (subset_sub hP (by decide))
    | with_reducible refine qpPacket_only ?_ (subset_sub hP (by decide))
    | with_reducible refine rdmaEvent_only ?_ (subset_sub hP (by decide))
    | (extract_lets +onlyGivenNames -underBinder x; refine cut_only (ps := pl) (s := sb) (a := x) ?_ ?_; unfold x; rotate_left; clear_value x; intro hx)
    | (extract_lets +onlyGivenNames -underBinder x; (try unfold x); clear x)
    | split
theorem execQpContextLoaded_only {ix outcome : Nat} {s : State} {t : State} (hO : Within pl sb s) (hP : [.out, .freeCount, .regs, .cons, .work, .mem, .serve, .fab, .px, .ctl, .mgt, .alm, .tel] ⊆ pl) (hE : execQpContextLoaded ix outcome s = .next t) : Within pl sb t := by
  have k : Holds (InNext pl sb) (execQpContextLoaded ix outcome s) := execQpContextLoaded_holds (ix := ix) (outcome := outcome) (s := s) hO hP
  rw [hE] at k; exact k.of

theorem cmToHost_holds {c : CmMsg} {s : State} {act : State → State} (h : Within pl sb s)
    (k : ∀ u, Within pl sb u → Within pl sb (act u)) (hp : [.out, .regs, .tel] ⊆ pl) : Holds (InNext pl sb) (cmToHost c s act) := by
  unfold cmToHost
  exact leaf_next (ite_only (k _ h) (ringWrite_only h (subset_sub hp (by decide))))

theorem execCmReq_holds {c : CmMsg} {s : State} (hO : Within pl sb s) (hP : [.out, .regs, .px, .tel] ⊆ pl) : Holds (InNext pl sb) (execCmReq c s) := by
  unfold execCmReq
  repeat' first
    | with_reducible refine bind_holds (ps := pl) (s := sb) ?_ fun _ _ => ?_
    | with_reducible refine bindAny_holds fun _ => ?_
    | with_reducible refine ite_holds ?_ ?_
    | with_reducible exact leaf_none
    | with_reducible refine leaf_some ?_
    | with_reducible refine leaf_only ?_
    | with_reducible refine leaf_next ?_
    | with_reducible assumption
    | with_reducible refine cmToHost_holds ?_ (fun _ _ => ?_) (subset_sub hP (by decide))
    | with_reducible refine modQp_only ?_ (subset_sub hP (by decide))
    | with_reducible refine newQp_only_eq ?_ (subset_sub hP (by decide)) (by assumption)
    | with_reducible refine newQp_holds ?_ (subset_sub hP (by decide))
    | with_reducible refine sendCm_only ?_ (subset_sub hP (by decide))
    | with_reducible refine someOf_only (by with_reducible assumption) ?_
    | with_reducible refine someSnd_only (by with_reducible assumption) ?_
    | (extract_lets +onlyGivenNames -underBinder x; refine cut_only (ps := pl) (s := sb) (a := x) ?_ ?_; unfold x; rotate_left; clear_value x; intro hx)
    | (extract_lets +onlyGivenNames -underBinder x; (try unfold x); clear x)
    | split
theorem execCmReq_only {c : CmMsg} {s : State} {t : State} (hO : Within pl sb s) (hP : [.out, .regs, .px, .tel] ⊆ pl) (hE : execCmReq c s = .next t) : Within pl sb t := by
  have k : Holds (InNext pl sb) (execCmReq c s) := execCmReq_holds (c := c) (s := s) hO hP
  rw [hE] at k; exact k.of

theorem execCmRep_holds {c : CmMsg} {s : State} (hO : Within pl sb s) (hP : [.out, .regs, .fab, .px, .ctl, .tel] ⊆ pl) : Holds (InNext pl sb) (execCmRep c s) := by
  unfold execCmRep
  repeat' first
    | with_reducible refine leaf_next ?_
    | with_reducible assumption
    | with_reducible refine ite_only ?_ ?_
    | with_reducible refine cmToHost_holds ?_ (fun _ _ => ?_) (subset_sub hP (by decide))
    | with_reducible refine gwGo_only ?_ (subset_sub hP (by decide))
    | with_reducible refine modQp_only ?_ (subset_sub hP (by decide))
    | with_reducible refine sendCm_only ?_ (subset_sub hP (by decide))
    | split
theorem execCmRep_only {c : CmMsg} {s : State} {t : State} (hO : Within pl sb s) (hP : [.out, .regs, .fab, .px, .ctl, .tel] ⊆ pl) (hE : execCmRep c s = .next t) : Within pl sb t := by
  have k : Holds (InNext pl sb) (execCmRep c s) := execCmRep_holds (c := c) (s := s) hO hP
  rw [hE] at k; exact k.of

theorem execCmRtu_holds {c : CmMsg} {s : State} (hO : Within pl sb s) (hP : [.out, .regs, .px, .tel] ⊆ pl) : Holds (InNext pl sb) (execCmRtu c s) := by
  unfold execCmRtu
  repeat' first
    | with_reducible refine leaf_next ?_
    | with_reducible assumption
    | with_reducible refine ite_only ?_ ?_
    | with_reducible refine cmToHost_holds ?_ (fun _ _ => ?_) (subset_sub hP (by decide))
    | with_reducible refine modQp_only ?_ (subset_sub hP (by decide))
    | split
theorem execCmRtu_only {c : CmMsg} {s : State} {t : State} (hO : Within pl sb s) (hP : [.out, .regs, .px, .tel] ⊆ pl) (hE : execCmRtu c s = .next t) : Within pl sb t := by
  have k : Holds (InNext pl sb) (execCmRtu c s) := execCmRtu_holds (c := c) (s := s) hO hP
  rw [hE] at k; exact k.of

theorem execCmRej_holds {c : CmMsg} {s : State} (hO : Within pl sb s) (hP : [.out, .regs, .px, .tel] ⊆ pl) : Holds (InNext pl sb) (execCmRej c s) := by
  unfold execCmRej
  repeat' first
    | with_reducible refine leaf_next ?_
    | with_reducible assumption
    | with_reducible refine ite_only ?_ ?_
    | with_reducible refine cmToHost_holds ?_ (fun _ _ => ?_) (subset_sub hP (by decide))
    | with_reducible refine modQp_only ?_ (subset_sub hP (by decide))
    | split
theorem execCmRej_only {c : CmMsg} {s : State} {t : State} (hO : Within pl sb s) (hP : [.out, .regs, .px, .tel] ⊆ pl) (hE : execCmRej c s = .next t) : Within pl sb t := by
  have k : Holds (InNext pl sb) (execCmRej c s) := execCmRej_holds (c := c) (s := s) hO hP
  rw [hE] at k; exact k.of

theorem execCmDreq_holds {c : CmMsg} {s : State} (hO : Within pl sb s) (hP : [.out, .freeCount, .regs, .cons, .work, .mem, .serve, .px, .ctl, .tel] ⊆ pl) : Holds (InNext pl sb) (execCmDreq c s) := by
  unfold execCmDreq
  repeat' first
    | with_reducible refine leaf_next ?_
    | with_reducible assumption
    | with_reducible refine cmToHost_holds ?_ (fun _ _ => ?_) (subset_sub hP (by decide))
    | with_reducible refine modQp_only ?_ (subset_sub hP (by decide))
    | with_reducible refine qpError_only ?_ (subset_sub hP (by decide))
    | with_reducible refine sendCm_only ?_ (subset_sub hP (by decide))
    | split
theorem execCmDreq_only {c : CmMsg} {s : State} {t : State} (hO : Within pl sb s) (hP : [.out, .freeCount, .regs, .cons, .work, .mem, .serve, .px, .ctl, .tel] ⊆ pl) (hE : execCmDreq c s = .next t) : Within pl sb t := by
  have k : Holds (InNext pl sb) (execCmDreq c s) := execCmDreq_holds (c := c) (s := s) hO hP
  rw [hE] at k; exact k.of

theorem execCmDrep_holds {c : CmMsg} {s : State} (hO : Within pl sb s) (hP : [.out, .regs, .px, .tel] ⊆ pl) : Holds (InNext pl sb) (execCmDrep c s) := by
  unfold execCmDrep
  repeat' first
    | with_reducible refine leaf_next ?_
    | with_reducible assumption
    | with_reducible refine ite_only ?_ ?_
    | with_reducible refine cmToHost_holds ?_ (fun _ _ => ?_) (subset_sub hP (by decide))
    | with_reducible refine modQp_only ?_ (subset_sub hP (by decide))
    | split
theorem execCmDrep_only {c : CmMsg} {s : State} {t : State} (hO : Within pl sb s) (hP : [.out, .regs, .px, .tel] ⊆ pl) (hE : execCmDrep c s = .next t) : Within pl sb t := by
  have k : Holds (InNext pl sb) (execCmDrep c s) := execCmDrep_holds (c := c) (s := s) hO hP
  rw [hE] at k; exact k.of

theorem police_holds {s : State} {n : Nat} {f : EthFrame} (hO : Within pl sb s) (hP : [.regs, .fab, .tel] ⊆ pl) : Holds (InFst pl sb) (police s n f) := by
  unfold police
  repeat' first
    | with_reducible refine ite_holds ?_ ?_
    | with_reducible refine leaf_fst ?_
    | with_reducible assumption
    | with_reducible refine ite_only ?_ ?_
    | with_reducible refine modLink_only ?_ (subset_sub hP (by decide))
    | with_reducible refine qsCount_only ?_ (subset_sub hP (by decide))
    | (extract_lets +onlyGivenNames -underBinder x; refine cut_only (ps := pl) (s := sb) (a := x) ?_ ?_; unfold x; rotate_left; clear_value x; intro hx)
    | (extract_lets +onlyGivenNames -underBinder x; (try unfold x); clear x)
theorem police_only_eq {s : State} {n : Nat} {f : EthFrame} {ra : State} {rb : Option EthFrame} (hO : Within pl sb s) (hP : [.regs, .fab, .tel] ⊆ pl) (hE : police s n f = (ra, rb)) : Within pl sb ra := by
  have k : Holds (InFst pl sb) (police s n f) := police_holds (s := s) (n := n) (f := f) hO hP
  rw [hE] at k; exact k.of
theorem police_only {s : State} {n : Nat} {f : EthFrame} (hO : Within pl sb s) (hP : [.regs, .fab, .tel] ⊆ pl) : Within pl sb (police s n f).1 := (police_holds (s := s) (n := n) (f := f) hO hP).of

theorem execEthFrameRx_holds {port : Nat} {f : EthFrame} {s : State} (hO : Within pl sb s) (hP : [.out, .freeCount, .regs, .cons, .work, .mem, .serve, .fab, .px, .ctl, .mgt, .alm, .tel] ⊆ pl) : Holds (InNext pl sb) (execEthFrameRx port f s) := by
  unfold execEthFrameRx
  repeat' first
    | with_reducible refine leaf_next ?_
    | with_reducible assumption
    | with_reducible refine ite_only ?_ ?_
    | with_reducible refine accountWire_only ?_ (subset_sub hP (by decide))
    | with_reducible refine police_only_eq ?_ (subset_sub hP (by decide)) (by assumption)
    | with_reducible refine roceRx_only ?_ (subset_sub hP (by decide))
    | with_reducible refine telPort_only ?_ (subset_sub hP (by decide))
    | (extract_lets +onlyGivenNames -underBinder x; refine cut_only (ps := pl) (s := sb) (a := x) ?_ ?_; unfold x; rotate_left; clear_value x; intro hx)
    | (extract_lets +onlyGivenNames -underBinder x; (try unfold x); clear x)
    | split
theorem execEthFrameRx_only {port : Nat} {f : EthFrame} {s : State} {t : State} (hO : Within pl sb s) (hP : [.out, .freeCount, .regs, .cons, .work, .mem, .serve, .fab, .px, .ctl, .mgt, .alm, .tel] ⊆ pl) (hE : execEthFrameRx port f s = .next t) : Within pl sb t := by
  have k : Holds (InNext pl sb) (execEthFrameRx port f s) := execEthFrameRx_holds (port := port) (f := f) (s := s) hO hP
  rw [hE] at k; exact k.of

end Sys2Proof.Machine
end

