-- ==== Sys2Proof/Laws/FrameRoles.lean ====
section
/-! SUPPORT. What each function of Machine/Roles.lean can do to the state as a whole: the parts it can change; the queue, the population and the
canonical forms it keeps. `f_only` speaks of the state that `f` answers, `f_holds` of a state inside its answer, `f_only_eq` of one taken out. -/

-- One declaration at a time: thousands of proofs in flight at once ask for more threads than fit in memory.
set_option Elab.async false

set_option linter.unusedTactic false
set_option linter.unreachableTactic false
set_option linter.unusedVariables false
set_option linter.unusedSimpArgs false
namespace Sys2Proof.Machine
open Sys2Proof
variable {pl : List Part} {sb : State}

theorem modRole_only {s : State} {m : Master} {f : Role2 → Role2} (hO : Within pl sb s) (hP : [.ctl] ⊆ pl) : Within pl sb (modRole s m f) := by
  unfold modRole
  repeat' first
    | with_reducible assumption
    | with_reducible refine modCtl_only ?_ (subset_sub hP (by decide))
    | split

theorem journal_only {s : State} {a : Audit} (hO : Within pl sb s) (hP : [.ctl, .alm] ⊆ pl) : Within pl sb (journal s a) := by
  unfold journal
  repeat' first
    | with_reducible assumption
    | with_reducible refine almQueue_only ?_ (subset_sub hP (by decide))
    | with_reducible refine modAlm_only ?_ (subset_sub hP (by decide))
    | with_reducible refine modCtl_only ?_ (subset_sub hP (by decide))
    | (extract_lets +onlyGivenNames -underBinder x; refine cut_only (ps := pl) (s := sb) (a := x) ?_ ?_; unfold x; rotate_left; clear_value x; intro hx)
    | (extract_lets +onlyGivenNames -underBinder x; (try unfold x); clear x)

theorem journalState_only {s : State} {p old new : Nat} (hO : Within pl sb s) (hP : [.ctl, .alm] ⊆ pl) : Within pl sb (journalState s p old new) := by
  unfold journalState
  repeat' first
    | with_reducible assumption
    | with_reducible refine journal_only ?_ (subset_sub hP (by decide))

theorem busSend_only {s : State} {f : Frame} (hO : Within pl sb s) (hP : [.out, .ctl] ⊆ pl) : Within pl sb (busSend s f) := by
  unfold busSend
  repeat' first
    | with_reducible assumption
    | with_reducible refine ite_only ?_ ?_
    | with_reducible refine emit_only ?_ (subset_sub hP (by decide))
    | with_reducible refine sendFrame_only ?_ (subset_sub hP (by decide))
    | split

theorem odAnswer_only {s : State} {w : OdSrc} {write : Bool} {idx sub err : Nat} {value : List Byte} (hO : Within pl sb s) (hP : [.out, .regs, .ctl, .mgt] ⊆ pl) : Within pl sb (odAnswer s w write idx sub err value) := by
  unfold odAnswer
  repeat' first
    | with_reducible assumption
    | with_reducible refine ite_only ?_ ?_
    | with_reducible refine foldl_only ?_ fun _ _ _ => ?_
    | with_reducible refine foldlFst_only ?_ fun _ _ _ => ?_
    | with_reducible refine busSend_only ?_ (subset_sub hP (by decide))
    | with_reducible refine mbxDone_only ?_ (subset_sub hP (by decide))
    | with_reducible refine mbxPut_only ?_ (subset_sub hP (by decide))
    | with_reducible refine setReg_only ?_ (subset_sub hP (by decide))
    | with_reducible refine modMgt_only ?_ (subset_sub hP (by decide))
    | (extract_lets +onlyGivenNames -underBinder x; refine cut_only (ps := pl) (s := sb) (a := x) ?_ ?_; unfold x; rotate_left; clear_value x; intro hx)
    | (extract_lets +onlyGivenNames -underBinder x; (try unfold x); clear x)
    | split

theorem readChallenge_holds {s : State} {w : OdSrc} (hO : Within pl sb s) (hP : [.freeCount, .ctl] ⊆ pl) : Holds (InFst pl sb) (readChallenge s w) := by
  unfold readChallenge
  repeat' first
    | with_reducible refine leaf_fst ?_
    | with_reducible assumption
    | with_reducible refine fresh_only_eq ?_ (subset_sub hP (by decide)) (by assumption)
    | with_reducible refine fresh_only ?_ (subset_sub hP (by decide))
    | with_reducible refine modRole_only ?_ (subset_sub hP (by decide))
    | (extract_lets +onlyGivenNames -underBinder x; refine cut_only (ps := pl) (s := sb) (a := x) ?_ ?_; unfold x; rotate_left; clear_value x; intro hx)
    | (extract_lets +onlyGivenNames -underBinder x; (try unfold x); clear x)
    | split
theorem readChallenge_only_eq {s : State} {w : OdSrc} {ra : State} {rb : List Byte} (hO : Within pl sb s) (hP : [.freeCount, .ctl] ⊆ pl) (hE : readChallenge s w = (ra, rb)) : Within pl sb ra := by
  have k : Holds (InFst pl sb) (readChallenge s w) := readChallenge_holds (s := s) (w := w) hO hP
  rw [hE] at k; exact k.of
theorem readChallenge_only {s : State} {w : OdSrc} (hO : Within pl sb s) (hP : [.freeCount, .ctl] ⊆ pl) : Within pl sb (readChallenge s w).1 := (readChallenge_holds (s := s) (w := w) hO hP).of

theorem writeResponse_holds {s : State} {w : OdSrc} {data : List Byte} {ok : Bool} (hO : Within pl sb s) (hP : [.ctl, .alm] ⊆ pl) : Holds (InFst pl sb) (writeResponse s w data ok) := by
  unfold writeResponse
  repeat' first
    | with_reducible refine ite_holds ?_ ?_
    | with_reducible refine leaf_fst ?_
    | with_reducible assumption
    | with_reducible refine ite_only ?_ ?_
    | with_reducible refine journal_only ?_ (subset_sub hP (by decide))
    | with_reducible refine modRole_only ?_ (subset_sub hP (by decide))
    | (extract_lets +onlyGivenNames -underBinder x; refine cut_only (ps := pl) (s := sb) (a := x) ?_ ?_; unfold x; rotate_left; clear_value x; intro hx)
    | (extract_lets +onlyGivenNames -underBinder x; (try unfold x); clear x)
    | split
theorem writeResponse_only_eq {s : State} {w : OdSrc} {data : List Byte} {ok : Bool} {ra : State} {rb : Nat} (hO : Within pl sb s) (hP : [.ctl, .alm] ⊆ pl) (hE : writeResponse s w data ok = (ra, rb)) : Within pl sb ra := by
  have k : Holds (InFst pl sb) (writeResponse s w data ok) := writeResponse_holds (s := s) (w := w) (data := data) (ok := ok) hO hP
  rw [hE] at k; exact k.of
theorem writeResponse_only {s : State} {w : OdSrc} {data : List Byte} {ok : Bool} (hO : Within pl sb s) (hP : [.ctl, .alm] ⊆ pl) : Within pl sb (writeResponse s w data ok).1 := (writeResponse_holds (s := s) (w := w) (data := data) (ok := ok) hO hP).of

theorem dropRole_only {s : State} {m : Master} (hO : Within pl sb s) (hP : [.ctl, .alm] ⊆ pl) : Within pl sb (dropRole s m) := by
  unfold dropRole
  repeat' first
    | with_reducible assumption
    | with_reducible refine ite_only ?_ ?_
    | with_reducible refine journal_only ?_ (subset_sub hP (by decide))
    | with_reducible refine modRole_only ?_ (subset_sub hP (by decide))
    | (extract_lets +onlyGivenNames -underBinder x; refine cut_only (ps := pl) (s := sb) (a := x) ?_ ?_; unfold x; rotate_left; clear_value x; intro hx)
    | (extract_lets +onlyGivenNames -underBinder x; (try unfold x); clear x)

theorem execLockoutExpiry_holds {m : Master} {s : State} (hO : Within pl sb s) (hP : [.ctl] ⊆ pl) : Holds (InNext pl sb) (execLockoutExpiry m s) := by
  unfold execLockoutExpiry
  repeat' first
    | with_reducible refine leaf_next ?_
    | with_reducible assumption
    | with_reducible refine modRole_only ?_ (subset_sub hP (by decide))
theorem execLockoutExpiry_only {m : Master} {s : State} {t : State} (hO : Within pl sb s) (hP : [.ctl] ⊆ pl) (hE : execLockoutExpiry m s = .next t) : Within pl sb t := by
  have k : Holds (InNext pl sb) (execLockoutExpiry m s) := execLockoutExpiry_holds (m := m) (s := s) hO hP
  rw [hE] at k; exact k.of

theorem execRoleIdleTimeout_holds {m : Master} {s : State} (hO : Within pl sb s) (hP : [.ctl, .alm] ⊆ pl) : Holds (InNext pl sb) (execRoleIdleTimeout m s) := by
  unfold execRoleIdleTimeout
  repeat' first
    | with_reducible refine leaf_next ?_
    | with_reducible assumption
    | with_reducible refine dropRole_only ?_ (subset_sub hP (by decide))
theorem execRoleIdleTimeout_only {m : Master} {s : State} {t : State} (hO : Within pl sb s) (hP : [.ctl, .alm] ⊆ pl) (hE : execRoleIdleTimeout m s = .next t) : Within pl sb t := by
  have k : Holds (InNext pl sb) (execRoleIdleTimeout m s) := execRoleIdleTimeout_holds (m := m) (s := s) hO hP
  rw [hE] at k; exact k.of

theorem writeKey_holds {s : State} {w : OdSrc} {data : List Byte} (hO : Within pl sb s) (hP : [.ctl, .alm] ⊆ pl) : Holds (InFst pl sb) (writeKey s w data) := by
  unfold writeKey
  repeat' first
    | with_reducible refine ite_holds ?_ ?_
    | with_reducible refine leaf_fst ?_
    | with_reducible assumption
    | with_reducible refine ite_only ?_ ?_
    | with_reducible refine almQueue_only ?_ (subset_sub hP (by decide))
    | with_reducible refine journal_only ?_ (subset_sub hP (by decide))
    | with_reducible refine modCtl_only ?_ (subset_sub hP (by decide))
    | (extract_lets +onlyGivenNames -underBinder x; refine cut_only (ps := pl) (s := sb) (a := x) ?_ ?_; unfold x; rotate_left; clear_value x; intro hx)
    | (extract_lets +onlyGivenNames -underBinder x; (try unfold x); clear x)
theorem writeKey_only_eq {s : State} {w : OdSrc} {data : List Byte} {ra : State} {rb : Nat} (hO : Within pl sb s) (hP : [.ctl, .alm] ⊆ pl) (hE : writeKey s w data = (ra, rb)) : Within pl sb ra := by
  have k : Holds (InFst pl sb) (writeKey s w data) := writeKey_holds (s := s) (w := w) (data := data) hO hP
  rw [hE] at k; exact k.of
theorem writeKey_only {s : State} {w : OdSrc} {data : List Byte} (hO : Within pl sb s) (hP : [.ctl, .alm] ⊆ pl) : Within pl sb (writeKey s w data).1 := (writeKey_holds (s := s) (w := w) (data := data) hO hP).of

theorem readAudit_holds {s : State} (hO : Within pl sb s) (hP : [.ctl] ⊆ pl) : Holds (InFst pl sb) (readAudit s) := by
  unfold readAudit
  repeat' first
    | with_reducible refine ite_holds ?_ ?_
    | with_reducible refine leaf_fst ?_
    | with_reducible assumption
    | with_reducible refine ite_only ?_ ?_
    | with_reducible refine odSet_only ?_ (subset_sub hP (by decide))
    | with_reducible refine modCtl_only ?_ (subset_sub hP (by decide))
    | (extract_lets +onlyGivenNames -underBinder x; refine cut_only (ps := pl) (s := sb) (a := x) ?_ ?_; unfold x; rotate_left; clear_value x; intro hx)
    | (extract_lets +onlyGivenNames -underBinder x; (try unfold x); clear x)
    | split
theorem readAudit_only_eq {s : State} {ra : State} {rb : List Byte} (hO : Within pl sb s) (hP : [.ctl] ⊆ pl) (hE : readAudit s = (ra, rb)) : Within pl sb ra := by
  have k : Holds (InFst pl sb) (readAudit s) := readAudit_holds (s := s) hO hP
  rw [hE] at k; exact k.of
theorem readAudit_only {s : State} (hO : Within pl sb s) (hP : [.ctl] ⊆ pl) : Within pl sb (readAudit s).1 := (readAudit_holds (s := s) hO hP).of

end Sys2Proof.Machine
end

