-- ==== Sys2Proof/Laws/FrameTelemetry.lean ====
section
/-! SUPPORT. What each function of Machine/Telemetry.lean can do to the state as a whole: the parts it can change; the queue, the population and the
canonical forms it keeps. `f_only` speaks of the state that `f` answers, `f_holds` of a state inside its answer, `f_only_eq` of one taken out. -/

-- One declaration at a time: thousands of proofs in flight at once ask for more threads than fit in memory.
set_option Elab.async false

set_option linter.unusedTactic false
set_option linter.unreachableTactic false
set_option linter.unusedVariables false
set_option linter.unusedSimpArgs false
namespace Sys2Proof.Machine
open Sys2Proof
variable {pl : List Part} {sb : State}

theorem preciseItem_only {s : State} {ring : Nat} (hO : Within pl sb s) (hP : [.out, .regs, .tel] ⊆ pl) : Within pl sb (preciseItem s ring) := by
  unfold preciseItem
  repeat' first
    | with_reducible assumption
    | with_reducible refine ite_only ?_ ?_
    | with_reducible refine telItem_only ?_ (subset_sub hP (by decide))
    | with_reducible refine telSeq_only_eq ?_ (subset_sub hP (by decide)) (by assumption)
    | with_reducible refine telSeq_only ?_ (subset_sub hP (by decide))
    | (extract_lets +onlyGivenNames -underBinder x; refine cut_only (ps := pl) (s := sb) (a := x) ?_ ?_; unfold x; rotate_left; clear_value x; intro hx)
    | (extract_lets +onlyGivenNames -underBinder x; (try unfold x); clear x)
    | split

theorem freeTicks_only {s : State} (hO : Within pl sb s) (hP : [.freeCount, .tel] ⊆ pl) : Within pl sb (freeTicks s) := by
  unfold freeTicks
  repeat' first
    | with_reducible assumption
    | with_reducible refine foldl_only ?_ fun _ _ _ => ?_
    | with_reducible refine telMark_only ?_ (subset_sub hP (by decide))
    | with_reducible refine modTel_only ?_ (subset_sub hP (by decide))
    | ((with_reducible apply Within.trans); (with_reducible assumption); refine ⟨⟨rfl, fun p hq => ?_⟩, id, id, id, id, id⟩; cases p <;> first | rfl | exact absurd (hP (by decide)) hq)
    | (extract_lets +onlyGivenNames -underBinder x; refine cut_only (ps := pl) (s := sb) (a := x) ?_ ?_; unfold x; rotate_left; clear_value x; intro hx)
    | (extract_lets +onlyGivenNames -underBinder x; (try unfold x); clear x)

theorem bandwidths_only {s : State} (hO : Within pl sb s) (hP : [.tel] ⊆ pl) : Within pl sb (bandwidths s) := by
  unfold bandwidths
  repeat' first
    | with_reducible assumption
    | with_reducible refine foldl_only ?_ fun _ _ _ => ?_
    | with_reducible refine modTel_only ?_ (subset_sub hP (by decide))
    | (extract_lets +onlyGivenNames -underBinder x; refine cut_only (ps := pl) (s := sb) (a := x) ?_ ?_; unfold x; rotate_left; clear_value x; intro hx)
    | (extract_lets +onlyGivenNames -underBinder x; (try unfold x); clear x)

theorem execTelWindowBoundary_holds {s : State} (hO : Within pl sb s) (hP : [.out, .freeCount, .regs, .tel] ⊆ pl) : Holds (InNext pl sb) (execTelWindowBoundary s) := by
  unfold execTelWindowBoundary
  repeat' first
    | with_reducible refine leaf_next ?_
    | with_reducible assumption
    | with_reducible refine ite_only ?_ ?_
    | with_reducible refine foldl_only ?_ fun _ _ _ => ?_
    | with_reducible refine bandwidths_only ?_ (subset_sub hP (by decide))
    | with_reducible refine freeTicks_only ?_ (subset_sub hP (by decide))
    | with_reducible refine precise_only ?_ (subset_sub hP (by decide))
    | with_reducible refine preciseItem_only ?_ (subset_sub hP (by decide))
    | with_reducible refine telItem_only ?_ (subset_sub hP (by decide))
    | with_reducible refine modTel_only ?_ (subset_sub hP (by decide))
    | (extract_lets +onlyGivenNames -underBinder x; refine cut_only (ps := pl) (s := sb) (a := x) ?_ ?_; unfold x; rotate_left; clear_value x; intro hx)
    | (extract_lets +onlyGivenNames -underBinder x; (try unfold x); clear x)
theorem execTelWindowBoundary_only {s : State} {t : State} (hO : Within pl sb s) (hP : [.out, .freeCount, .regs, .tel] ⊆ pl) (hE : execTelWindowBoundary s = .next t) : Within pl sb t := by
  have k : Holds (InNext pl sb) (execTelWindowBoundary s) := execTelWindowBoundary_holds (s := s) hO hP
  rw [hE] at k; exact k.of

theorem nextSnap_holds {s : State} (hO : Within pl sb s) (hP : [.ctl, .tel] ⊆ pl) : Holds (InSnd pl sb) (nextSnap s) := by
  unfold nextSnap
  repeat' first
    | with_reducible refine leaf_snd ?_
    | with_reducible assumption
    | with_reducible refine odSet_only ?_ (subset_sub hP (by decide))
    | with_reducible refine modTel_only ?_ (subset_sub hP (by decide))
    | (extract_lets +onlyGivenNames -underBinder x; refine cut_only (ps := pl) (s := sb) (a := x) ?_ ?_; unfold x; rotate_left; clear_value x; intro hx)
    | (extract_lets +onlyGivenNames -underBinder x; (try unfold x); clear x)
theorem nextSnap_only_eq {s : State} {ra : Nat} {rb : State} (hO : Within pl sb s) (hP : [.ctl, .tel] ⊆ pl) (hE : nextSnap s = (ra, rb)) : Within pl sb rb := by
  have k : Holds (InSnd pl sb) (nextSnap s) := nextSnap_holds (s := s) hO hP
  rw [hE] at k; exact k.of
theorem nextSnap_only {s : State} (hO : Within pl sb s) (hP : [.ctl, .tel] ⊆ pl) : Within pl sb (nextSnap s).2 := (nextSnap_holds (s := s) hO hP).of

theorem keepRecord_only {s : State} {p : Nat} {r : List Byte} (hO : Within pl sb s) (hP : [.tel] ⊆ pl) : Within pl sb (keepRecord s p r) := by
  unfold keepRecord
  repeat' first
    | with_reducible assumption
    | with_reducible refine modTel_only ?_ (subset_sub hP (by decide))

theorem snapshot_only {s : State} {extra : Bool} (hO : Within pl sb s) (hP : [.out, .regs, .ctl, .mgt, .alm, .tel] ⊆ pl) : Within pl sb (snapshot s extra) := by
  unfold snapshot
  repeat' first
    | with_reducible assumption
    | with_reducible refine ite_only ?_ ?_
    | with_reducible refine foldl_only ?_ fun _ _ _ => ?_
    | with_reducible refine keepRecord_only ?_ (subset_sub hP (by decide))
    | with_reducible refine nextSnap_only_eq ?_ (subset_sub hP (by decide)) (by assumption)
    | with_reducible refine nextSnap_only ?_ (subset_sub hP (by decide))
    | with_reducible refine odCount_only ?_ (subset_sub hP (by decide))
    | with_reducible refine raisePf_only ?_ (subset_sub hP (by decide))
    | with_reducible refine raisePtn_only ?_ (subset_sub hP (by decide))
    | with_reducible refine telItem_only ?_ (subset_sub hP (by decide))
    | with_reducible refine modTel_only ?_ (subset_sub hP (by decide))
    | (extract_lets +onlyGivenNames -underBinder x; refine cut_only (ps := pl) (s := sb) (a := x) ?_ ?_; unfold x; rotate_left; clear_value x; intro hx)
    | (extract_lets +onlyGivenNames -underBinder x; (try unfold x); clear x)
    | split

theorem execAcctSnapshot_holds {s : State} (hO : Within pl sb s) (hP : [.out, .regs, .ctl, .mgt, .alm, .tel] ⊆ pl) : Holds (InNext pl sb) (execAcctSnapshot s) := by
  unfold execAcctSnapshot
  repeat' first
    | with_reducible refine leaf_next ?_
    | with_reducible assumption
    | with_reducible refine snapshot_only ?_ (subset_sub hP (by decide))
theorem execAcctSnapshot_only {s : State} {t : State} (hO : Within pl sb s) (hP : [.out, .regs, .ctl, .mgt, .alm, .tel] ⊆ pl) (hE : execAcctSnapshot s = .next t) : Within pl sb t := by
  have k : Holds (InNext pl sb) (execAcctSnapshot s) := execAcctSnapshot_holds (s := s) hO hP
  rw [hE] at k; exact k.of

theorem execAcctLatch_holds {s : State} (hO : Within pl sb s) (hP : [.out, .regs, .ctl, .mgt, .alm, .tel] ⊆ pl) : Holds (InNext pl sb) (execAcctLatch s) := by
  unfold execAcctLatch
  repeat' first
    | with_reducible refine leaf_next ?_
    | with_reducible assumption
    | with_reducible refine snapshot_only ?_ (subset_sub hP (by decide))
theorem execAcctLatch_only {s : State} {t : State} (hO : Within pl sb s) (hP : [.out, .regs, .ctl, .mgt, .alm, .tel] ⊆ pl) (hE : execAcctLatch s = .next t) : Within pl sb t := by
  have k : Holds (InNext pl sb) (execAcctLatch s) := execAcctLatch_holds (s := s) hO hP
  rw [hE] at k; exact k.of

theorem finalRecord_only {s : State} {p : Nat} (hO : Within pl sb s) (hP : [.out, .regs, .ctl, .mgt, .alm, .tel] ⊆ pl) : Within pl sb (finalRecord s p) := by
  unfold finalRecord
  repeat' first
    | with_reducible assumption
    | with_reducible refine keepRecord_only ?_ (subset_sub hP (by decide))
    | with_reducible refine nextSnap_only_eq ?_ (subset_sub hP (by decide)) (by assumption)
    | with_reducible refine nextSnap_only ?_ (subset_sub hP (by decide))
    | with_reducible refine raisePf_only ?_ (subset_sub hP (by decide))
    | with_reducible refine telItem_only ?_ (subset_sub hP (by decide))
    | (extract_lets +onlyGivenNames -underBinder x; refine cut_only (ps := pl) (s := sb) (a := x) ?_ ?_; unfold x; rotate_left; clear_value x; intro hx)
    | (extract_lets +onlyGivenNames -underBinder x; (try unfold x); clear x)
    | split

theorem spreadEnergy_only {s : State} (hO : Within pl sb s) (hP : [.tel] ⊆ pl) : Within pl sb (spreadEnergy s) := by
  unfold spreadEnergy
  repeat' first
    | with_reducible assumption
    | with_reducible refine ite_only ?_ ?_
    | with_reducible refine foldl_only ?_ fun _ _ _ => ?_
    | with_reducible refine telAcct_only ?_ (subset_sub hP (by decide))
    | with_reducible refine telMark_only ?_ (subset_sub hP (by decide))
    | with_reducible refine modTel_only ?_ (subset_sub hP (by decide))
    | (extract_lets +onlyGivenNames -underBinder x; refine cut_only (ps := pl) (s := sb) (a := x) ?_ ?_; unfold x; rotate_left; clear_value x; intro hx)
    | (extract_lets +onlyGivenNames -underBinder x; (try unfold x); clear x)

theorem execEnergyFit_holds {s : State} (hO : Within pl sb s) (hP : [.ctl, .tel] ⊆ pl) : Holds (InNext pl sb) (execEnergyFit s) := by
  unfold execEnergyFit
  repeat' first
    | with_reducible refine leaf_next ?_
    | with_reducible assumption
    | with_reducible refine ite_only ?_ ?_
    | with_reducible refine odCount_only ?_ (subset_sub hP (by decide))
    | with_reducible refine odSet_only ?_ (subset_sub hP (by decide))
    | with_reducible refine spreadEnergy_only ?_ (subset_sub hP (by decide))
    | with_reducible refine modTel_only ?_ (subset_sub hP (by decide))
    | (extract_lets +onlyGivenNames -underBinder x; refine cut_only (ps := pl) (s := sb) (a := x) ?_ ?_; unfold x; rotate_left; clear_value x; intro hx)
    | (extract_lets +onlyGivenNames -underBinder x; (try unfold x); clear x)
theorem execEnergyFit_only {s : State} {t : State} (hO : Within pl sb s) (hP : [.ctl, .tel] ⊆ pl) (hE : execEnergyFit s = .next t) : Within pl sb t := by
  have k : Holds (InNext pl sb) (execEnergyFit s) := execEnergyFit_holds (s := s) hO hP
  rw [hE] at k; exact k.of

theorem execPmbusPoll_holds {reads : List (Option (Nat × Nat))} {s : State} (hO : Within pl sb s) (hP : [.out, .regs, .qtrs, .ctl, .mgt, .alm, .tel] ⊆ pl) : Holds (InNext pl sb) (execPmbusPoll reads s) := by
  unfold execPmbusPoll
  repeat' first
    | with_reducible refine leaf_next ?_
    | with_reducible assumption
    | with_reducible refine ite_only ?_ ?_
    | with_reducible refine foldl_only ?_ fun _ _ _ => ?_
    | with_reducible refine modQtr_only ?_ (subset_sub hP (by decide))
    | with_reducible refine odSet_only ?_ (subset_sub hP (by decide))
    | with_reducible refine raisePf_only ?_ (subset_sub hP (by decide))
    | with_reducible refine telMark_only ?_ (subset_sub hP (by decide))
    | with_reducible refine modTel_only ?_ (subset_sub hP (by decide))
    | (extract_lets +onlyGivenNames -underBinder x; refine cut_only (ps := pl) (s := sb) (a := x) ?_ ?_; unfold x; rotate_left; clear_value x; intro hx)
    | (extract_lets +onlyGivenNames -underBinder x; (try unfold x); clear x)
    | split
theorem execPmbusPoll_only {reads : List (Option (Nat × Nat))} {s : State} {t : State} (hO : Within pl sb s) (hP : [.out, .regs, .qtrs, .ctl, .mgt, .alm, .tel] ⊆ pl) (hE : execPmbusPoll reads s = .next t) : Within pl sb t := by
  have k : Holds (InNext pl sb) (execPmbusPoll reads s) := execPmbusPoll_holds (reads := reads) (s := s) hO hP
  rw [hE] at k; exact k.of

theorem writeCoeffs_holds {s : State} {data : List Byte} (hO : Within pl sb s) (hP : [.ctl, .tel] ⊆ pl) : Holds (InFst pl sb) (writeCoeffs s data) := by
  unfold writeCoeffs
  repeat' first
    | with_reducible refine ite_holds ?_ ?_
    | with_reducible refine leaf_fst ?_
    | with_reducible assumption
    | with_reducible refine ite_only ?_ ?_
    | with_reducible refine odSet_only ?_ (subset_sub hP (by decide))
    | with_reducible refine modTel_only ?_ (subset_sub hP (by decide))
theorem writeCoeffs_only_eq {s : State} {data : List Byte} {ra : State} {rb : Nat} (hO : Within pl sb s) (hP : [.ctl, .tel] ⊆ pl) (hE : writeCoeffs s data = (ra, rb)) : Within pl sb ra := by
  have k : Holds (InFst pl sb) (writeCoeffs s data) := writeCoeffs_holds (s := s) (data := data) hO hP
  rw [hE] at k; exact k.of
theorem writeCoeffs_only {s : State} {data : List Byte} (hO : Within pl sb s) (hP : [.ctl, .tel] ⊆ pl) : Within pl sb (writeCoeffs s data).1 := (writeCoeffs_holds (s := s) (data := data) hO hP).of

end Sys2Proof.Machine
end

