-- ==== Sys2Proof/Laws/FramePtn.lean ====
section
/-! SUPPORT. What each function of Machine/Ptn.lean can do to the state as a whole: the parts it can change; the queue, the population and the
canonical forms it keeps. `f_only` speaks of the state that `f` answers, `f_holds` of a state inside its answer, `f_only_eq` of one taken out. -/

-- One declaration at a time: thousands of proofs in flight at once ask for more threads than fit in memory.
set_option Elab.async false

set_option linter.unusedTactic false
set_option linter.unreachableTactic false
set_option linter.unusedVariables false
set_option linter.unusedSimpArgs false
namespace Sys2Proof.Machine
open Sys2Proof
variable {pl : List Part} {sb : State}

theorem allocStructures_only_eq {s : State} {p : Nat} {ra : State} (h : Within pl sb s) (hp : [.mem, .ptns] ⊆ pl)
    (e : allocStructures s p = some ra) : Within pl sb ra := by
  unfold allocStructures at e
  dsimp only at e
  obtain ⟨a, ha, e⟩ := Option.bind_eq_some_iff.mp e
  obtain ⟨b, hb, e⟩ := Option.bind_eq_some_iff.mp e
  obtain ⟨c, hc, e⟩ := Option.bind_eq_some_iff.mp e
  obtain ⟨d, hd, e⟩ := Option.bind_eq_some_iff.mp e
  obtain ⟨f, hf, rfl⟩ := Option.map_eq_some_iff.mp e
  have h1 := allocOwn_only_eq (a := a.1) (b := a.2) h (subset_sub hp (by decide)) ha
  have h2 := allocOwn_only_eq (a := b.1) (b := b.2) h1 (subset_sub hp (by decide)) hb
  have h3 := allocOwn_only_eq (a := c.1) (b := c.2) h2 (subset_sub hp (by decide)) hc
  have h4 := allocOwn_only_eq (a := d.1) (b := d.2) h3 (subset_sub hp (by decide)) hd
  have h5 := allocOwn_only_eq (a := f.1) (b := f.2) h4 (subset_sub hp (by decide)) hf
  exact modPtn_only h5 (subset_sub hp (by decide))

theorem allocStructures_holds {s : State} {p : Nat} (h : Within pl sb s) (hp : [.mem, .ptns] ⊆ pl) :
    Holds (InSome (Within pl sb)) (allocStructures s p) := by
  cases e : allocStructures s p with
  | none => exact leaf_none
  | some r => exact leaf_some ⟨allocStructures_only_eq h hp e⟩

theorem goPtn_only {s : State} {p : Nat} {st : PState} {cause : Nat} (hO : Within pl sb s) (hP : [.out, .regs, .ptns, .ctl, .mgt, .alm, .tel] ⊆ pl) : Within pl sb (goPtn s p st cause) := by
  unfold goPtn
  repeat' first
    | with_reducible assumption
    | with_reducible refine journalState_only ?_ (subset_sub hP (by decide))
    | with_reducible refine modPtn_only ?_ (subset_sub hP (by decide))
    | with_reducible refine raisePf_only ?_ (subset_sub hP (by decide))
    | with_reducible refine telMark_only ?_ (subset_sub hP (by decide))
    | (extract_lets +onlyGivenNames -underBinder x; refine cut_only (ps := pl) (s := sb) (a := x) ?_ ?_; unfold x; rotate_left; clear_value x; intro hx)
    | (extract_lets +onlyGivenNames -underBinder x; (try unfold x); clear x)

theorem resetWindow_only {s : State} {p : Nat} (hO : Within pl sb s) (hP : [.regs, .px, .ptns] ⊆ pl) : Within pl sb (resetWindow s p) := by
  unfold resetWindow
  repeat' first
    | with_reducible assumption
    | with_reducible refine modPtn_only ?_ (subset_sub hP (by decide))
    | with_reducible refine modPx_only ?_ (subset_sub hP (by decide))
    | with_reducible refine modRegs_only ?_ (subset_sub hP (by decide))
    | (extract_lets +onlyGivenNames -underBinder x; refine cut_only (ps := pl) (s := sb) (a := x) ?_ ?_; unfold x; rotate_left; clear_value x; intro hx)
    | (extract_lets +onlyGivenNames -underBinder x; (try unfold x); clear x)

theorem gateCon_only {s : State} {phys : Nat} (hO : Within pl sb s) (hP : [.cons] ⊆ pl) : Within pl sb (gateCon s phys) := by
  unfold gateCon
  repeat' first
    | with_reducible assumption
    | with_reducible refine ite_only ?_ ?_
    | with_reducible refine after_only ?_ ?_
    | with_reducible refine after_only ?_ ?_
    | with_reducible refine modCon_only ?_ (subset_sub hP (by decide))
    | with_reducible refine tryRest_only ?_ (subset_sub hP (by decide))
    | (extract_lets +onlyGivenNames -underBinder x; refine cut_only (ps := pl) (s := sb) (a := x) ?_ ?_; unfold x; rotate_left; clear_value x; intro hx)
    | (extract_lets +onlyGivenNames -underBinder x; (try unfold x); clear x)

theorem isolate_only {s : State} {p : Nat} (hO : Within pl sb s) (hP : [.out, .freeCount, .regs, .cons, .work, .mem, .serve, .px, .ctl, .tel] ⊆ pl) : Within pl sb (isolate s p) := by
  unfold isolate
  repeat' first
    | with_reducible assumption
    | with_reducible refine ite_only ?_ ?_
    | with_reducible refine foldl_only ?_ fun _ _ _ => ?_
    | with_reducible refine askStop_only ?_ (subset_sub hP (by decide))
    | with_reducible refine emit_only ?_ (subset_sub hP (by decide))
    | with_reducible refine gateCon_only ?_ (subset_sub hP (by decide))
    | with_reducible refine modComp_only ?_ (subset_sub hP (by decide))
    | with_reducible refine qpError_only ?_ (subset_sub hP (by decide))
    | with_reducible refine modServe_only ?_ (subset_sub hP (by decide))
    | (extract_lets +onlyGivenNames -underBinder x; refine cut_only (ps := pl) (s := sb) (a := x) ?_ ?_; unfold x; rotate_left; clear_value x; intro hx)
    | (extract_lets +onlyGivenNames -underBinder x; (try unfold x); clear x)
    | split

theorem lastEvent_only {s : State} {p : Nat} {e : Event} (hO : Within pl sb s) (hP : [.out, .regs, .eph, .serve, .tel] ⊆ pl) : Within pl sb (lastEvent s p e) := by
  unfold lastEvent
  repeat' first
    | with_reducible assumption
    | with_reducible refine raisePtn_only ?_ (subset_sub hP (by decide))
    | with_reducible refine ringDrain_only ?_ (subset_sub hP (by decide))
    | with_reducible refine modEph_only ?_ (subset_sub hP (by decide))
    | (extract_lets +onlyGivenNames -underBinder x; refine cut_only (ps := pl) (s := sb) (a := x) ?_ ?_; unfold x; rotate_left; clear_value x; intro hx)
    | (extract_lets +onlyGivenNames -underBinder x; (try unfold x); clear x)

theorem fencePtn_only {s : State} {p cause : Nat} (hO : Within pl sb s) (hP : [.out, .freeCount, .regs, .cons, .eph, .work, .mem, .serve, .px, .ptns, .ctl, .mgt, .alm, .tel] ⊆ pl) : Within pl sb (fencePtn s p cause) := by
  unfold fencePtn
  repeat' first
    | with_reducible assumption
    | with_reducible refine ite_only ?_ ?_
    | with_reducible refine goPtn_only ?_ (subset_sub hP (by decide))
    | with_reducible refine isolate_only ?_ (subset_sub hP (by decide))
    | with_reducible refine lastEvent_only ?_ (subset_sub hP (by decide))
    | with_reducible refine modPtn_only ?_ (subset_sub hP (by decide))
    | with_reducible refine raisePf_only ?_ (subset_sub hP (by decide))
    | (extract_lets +onlyGivenNames -underBinder x; refine cut_only (ps := pl) (s := sb) (a := x) ?_ ?_; unfold x; rotate_left; clear_value x; intro hx)
    | (extract_lets +onlyGivenNames -underBinder x; (try unfold x); clear x)

theorem discardPtn_only {s : State} {p : Nat} (hO : Within pl sb s) (hP : [.regs, .eph, .work, .tabs, .mem, .serve, .fab, .px] ⊆ pl) : Within pl sb (discardPtn s p) := by
  unfold discardPtn
  repeat' first
    | with_reducible assumption
    | with_reducible refine ite_only ?_ ?_
    | with_reducible refine foldl_only ?_ fun _ _ _ => ?_
    | with_reducible refine dropMsg_only ?_ (subset_sub hP (by decide))
    | with_reducible refine modEph_only ?_ (subset_sub hP (by decide))
    | with_reducible refine modFab_only ?_ (subset_sub hP (by decide))
    | with_reducible refine modMem_only ?_ (subset_sub hP (by decide))
    | with_reducible refine modPx_only ?_ (subset_sub hP (by decide))
    | with_reducible refine modServe_only ?_ (subset_sub hP (by decide))
    | with_reducible refine modTabs_only ?_ (subset_sub hP (by decide))
    | with_reducible refine modWork_only ?_ (subset_sub hP (by decide))
    | (extract_lets +onlyGivenNames -underBinder x; refine cut_only (ps := pl) (s := sb) (a := x) ?_ ?_; unfold x; rotate_left; clear_value x; intro hx)
    | (extract_lets +onlyGivenNames -underBinder x; (try unfold x); clear x)
    | split

theorem clearGranule_only {s : State} {g : Nat} (hO : Within pl sb s) (hP : [.mem] ⊆ pl) : Within pl sb (clearGranule s g) := by
  unfold clearGranule
  repeat' first
    | with_reducible assumption
    | with_reducible refine ite_only ?_ ?_
    | with_reducible refine tierClear_only ?_ (subset_sub hP (by decide))
    | (extract_lets +onlyGivenNames -underBinder x; refine cut_only (ps := pl) (s := sb) (a := x) ?_ ?_; unfold x; rotate_left; clear_value x; intro hx)
    | (extract_lets +onlyGivenNames -underBinder x; (try unfold x); clear x)

theorem newKeys_only {s : State} {p : Nat} (hO : Within pl sb s) (hP : [.freeCount, .ptns] ⊆ pl) : Within pl sb (newKeys s p) := by
  unfold newKeys
  repeat' first
    | with_reducible assumption
    | with_reducible refine fresh_only_eq ?_ (subset_sub hP (by decide)) (by assumption)
    | with_reducible refine fresh_only ?_ (subset_sub hP (by decide))
    | with_reducible refine modPtn_only ?_ (subset_sub hP (by decide))
    | (extract_lets +onlyGivenNames -underBinder x; refine cut_only (ps := pl) (s := sb) (a := x) ?_ ?_; unfold x; rotate_left; clear_value x; intro hx)
    | (extract_lets +onlyGivenNames -underBinder x; (try unfold x); clear x)
    | split

theorem enterScrub_only {s : State} {p : Nat} (hO : Within pl sb s) (hP : [.out, .freeCount, .regs, .cons, .eph, .work, .tabs, .mem, .serve, .fab, .px, .ptns, .ctl, .mgt, .alm, .tel] ⊆ pl) : Within pl sb (enterScrub s p) := by
  unfold enterScrub
  repeat' first
    | with_reducible assumption
    | with_reducible refine ite_only ?_ ?_
    | with_reducible refine foldl_only ?_ fun _ _ _ => ?_
    | with_reducible refine after_only ?_ ?_
    | with_reducible refine after_only ?_ ?_
    | with_reducible refine clearGranule_only ?_ (subset_sub hP (by decide))
    | with_reducible refine discardPtn_only ?_ (subset_sub hP (by decide))
    | with_reducible refine finalRecord_only ?_ (subset_sub hP (by decide))
    | with_reducible refine freeLink_only ?_ (subset_sub hP (by decide))
    | with_reducible refine goPtn_only ?_ (subset_sub hP (by decide))
    | with_reducible refine isolate_only ?_ (subset_sub hP (by decide))
    | with_reducible refine modComp_only ?_ (subset_sub hP (by decide))
    | with_reducible refine modCon_only ?_ (subset_sub hP (by decide))
    | with_reducible refine modPtn_only ?_ (subset_sub hP (by decide))
    | with_reducible refine newKeys_only ?_ (subset_sub hP (by decide))
    | with_reducible refine resetWindow_only ?_ (subset_sub hP (by decide))
    | with_reducible refine setReg_only ?_ (subset_sub hP (by decide))
    | with_reducible refine modMem_only ?_ (subset_sub hP (by decide))
    | (extract_lets +onlyGivenNames -underBinder x; refine cut_only (ps := pl) (s := sb) (a := x) ?_ ?_; unfold x; rotate_left; clear_value x; intro hx)
    | (extract_lets +onlyGivenNames -underBinder x; (try unfold x); clear x)

theorem joinCon_only {s : State} {l : Nat} (hO : Within pl sb s) (hP : [.cons] ⊆ pl) : Within pl sb (joinCon s l) := by
  unfold joinCon
  repeat' first
    | with_reducible assumption
    | with_reducible refine ite_only ?_ ?_
    | with_reducible refine after_only ?_ ?_
    | with_reducible refine after_only ?_ ?_
    | with_reducible refine modCon_only ?_ (subset_sub hP (by decide))
    | split

theorem enterProvision_only {s : State} {p : Nat} (hO : Within pl sb s) (hP : [.out, .freeCount, .regs, .cons, .serve, .px, .ptns, .ctl, .mgt, .alm, .tel] ⊆ pl) : Within pl sb (enterProvision s p) := by
  unfold enterProvision
  repeat' first
    | with_reducible assumption
    | with_reducible refine foldl_only ?_ fun _ _ _ => ?_
    | with_reducible refine goPtn_only ?_ (subset_sub hP (by decide))
    | with_reducible refine joinCon_only ?_ (subset_sub hP (by decide))
    | with_reducible refine newKeys_only ?_ (subset_sub hP (by decide))
    | with_reducible refine resetWindow_only ?_ (subset_sub hP (by decide))
    | with_reducible refine setLevel_only ?_ (subset_sub hP (by decide))
    | with_reducible refine modCtl_only ?_ (subset_sub hP (by decide))
    | with_reducible refine modServe_only ?_ (subset_sub hP (by decide))
    | with_reducible refine modTel_only ?_ (subset_sub hP (by decide))
    | (extract_lets +onlyGivenNames -underBinder x; refine cut_only (ps := pl) (s := sb) (a := x) ?_ ?_; unfold x; rotate_left; clear_value x; intro hx)
    | (extract_lets +onlyGivenNames -underBinder x; (try unfold x); clear x)

theorem lockError_only {s : State} {p : Nat} (hO : Within pl sb s) (hP : [.px] ⊆ pl) : Within pl sb (lockError s p) := by
  unfold lockError
  repeat' first
    | with_reducible assumption
    | with_reducible refine ite_only ?_ ?_
    | with_reducible refine modComp_only ?_ (subset_sub hP (by decide))

theorem runCmd_only {s : State} {p cmd : Nat} (hO : Within pl sb s) (hP : [.out, .freeCount, .regs, .cons, .eph, .work, .tabs, .mem, .serve, .fab, .px, .ptns, .ctl, .mgt, .alm, .tel] ⊆ pl) : Within pl sb (runCmd s p cmd) := by
  unfold runCmd
  repeat' first
    | with_reducible assumption
    | with_reducible refine ite_only ?_ ?_
    | with_reducible refine getD_only ?_ ?_
    | with_reducible refine allocStructures_holds ?_ (subset_sub hP (by decide))
    | with_reducible refine drainDma_only ?_ (subset_sub hP (by decide))
    | with_reducible refine enterProvision_only ?_ (subset_sub hP (by decide))
    | with_reducible refine enterScrub_only ?_ (subset_sub hP (by decide))
    | with_reducible refine fencePtn_only ?_ (subset_sub hP (by decide))
    | with_reducible refine goPtn_only ?_ (subset_sub hP (by decide))
    | with_reducible refine lockError_only ?_ (subset_sub hP (by decide))
    | with_reducible refine modPtn_only ?_ (subset_sub hP (by decide))
    | with_reducible refine drainWindow_only ?_ (subset_sub hP (by decide))
    | split

theorem ptnCommand_holds {s : State} {p cmd : Nat} (hO : Within pl sb s) (hP : [.out, .freeCount, .regs, .cons, .eph, .work, .tabs, .mem, .serve, .fab, .px, .ptns, .ctl, .mgt, .alm, .tel] ⊆ pl) : Holds (InFst pl sb) (ptnCommand s p cmd) := by
  unfold ptnCommand
  repeat' first
    | with_reducible refine ite_holds ?_ ?_
    | with_reducible refine leaf_fst ?_
    | with_reducible assumption
    | with_reducible refine ite_only ?_ ?_
    | with_reducible refine modPtn_only ?_ (subset_sub hP (by decide))
    | with_reducible refine runCmd_only ?_ (subset_sub hP (by decide))
    | (extract_lets +onlyGivenNames -underBinder x; refine cut_only (ps := pl) (s := sb) (a := x) ?_ ?_; unfold x; rotate_left; clear_value x; intro hx)
    | (extract_lets +onlyGivenNames -underBinder x; (try unfold x); clear x)
theorem ptnCommand_only_eq {s : State} {p cmd : Nat} {ra : State} {rb : Nat} (hO : Within pl sb s) (hP : [.out, .freeCount, .regs, .cons, .eph, .work, .tabs, .mem, .serve, .fab, .px, .ptns, .ctl, .mgt, .alm, .tel] ⊆ pl) (hE : ptnCommand s p cmd = (ra, rb)) : Within pl sb ra := by
  have k : Holds (InFst pl sb) (ptnCommand s p cmd) := ptnCommand_holds (s := s) (p := p) (cmd := cmd) hO hP
  rw [hE] at k; exact k.of
theorem ptnCommand_only {s : State} {p cmd : Nat} (hO : Within pl sb s) (hP : [.out, .freeCount, .regs, .cons, .eph, .work, .tabs, .mem, .serve, .fab, .px, .ptns, .ctl, .mgt, .alm, .tel] ⊆ pl) : Within pl sb (ptnCommand s p cmd).1 := (ptnCommand_holds (s := s) (p := p) (cmd := cmd) hO hP).of

theorem leaveScrub_only {s : State} {p : Nat} (hO : Within pl sb s) (hP : [.out, .regs, .cons, .work, .mem, .fab, .ptns, .ctl, .mgt, .alm, .tel] ⊆ pl) : Within pl sb (leaveScrub s p) := by
  unfold leaveScrub
  repeat' first
    | with_reducible assumption
    | with_reducible refine ite_only ?_ ?_
    | with_reducible refine foldl_only ?_ fun _ _ _ => ?_
    | with_reducible refine goPtn_only ?_ (subset_sub hP (by decide))
    | with_reducible refine modPtn_only ?_ (subset_sub hP (by decide))
    | with_reducible refine odSet_only ?_ (subset_sub hP (by decide))
    | with_reducible refine restIdle_only ?_ (subset_sub hP (by decide))
    | with_reducible refine setReg_only ?_ (subset_sub hP (by decide))
    | with_reducible refine modFab_only ?_ (subset_sub hP (by decide))
    | with_reducible refine modMem_only ?_ (subset_sub hP (by decide))
    | with_reducible refine modTel_only ?_ (subset_sub hP (by decide))
    | (extract_lets +onlyGivenNames -underBinder x; refine cut_only (ps := pl) (s := sb) (a := x) ?_ ?_; unfold x; rotate_left; clear_value x; intro hx)
    | (extract_lets +onlyGivenNames -underBinder x; (try unfold x); clear x)

theorem execScrubComplete_holds {ptn : Nat} {s : State} (hO : Within pl sb s) (hP : [.out, .regs, .cons, .work, .mem, .fab, .ptns, .ctl, .mgt, .alm, .tel] ⊆ pl) : Holds (InNext pl sb) (execScrubComplete ptn s) := by
  unfold execScrubComplete
  repeat' first
    | with_reducible refine leaf_next ?_
    | with_reducible assumption
    | with_reducible refine ite_only ?_ ?_
    | with_reducible refine leaveScrub_only ?_ (subset_sub hP (by decide))
    | with_reducible refine modPtn_only ?_ (subset_sub hP (by decide))
    | with_reducible refine raisePf_only ?_ (subset_sub hP (by decide))
    | (extract_lets +onlyGivenNames -underBinder x; refine cut_only (ps := pl) (s := sb) (a := x) ?_ ?_; unfold x; rotate_left; clear_value x; intro hx)
    | (extract_lets +onlyGivenNames -underBinder x; (try unfold x); clear x)
    | split
theorem execScrubComplete_only {ptn : Nat} {s : State} {t : State} (hO : Within pl sb s) (hP : [.out, .regs, .cons, .work, .mem, .fab, .ptns, .ctl, .mgt, .alm, .tel] ⊆ pl) (hE : execScrubComplete ptn s = .next t) : Within pl sb t := by
  have k : Holds (InNext pl sb) (execScrubComplete ptn s) := execScrubComplete_holds (ptn := ptn) (s := s) hO hP
  rw [hE] at k; exact k.of

theorem execVfFlr_holds {ptn : Nat} {s : State} (hO : Within pl sb s) (hP : [.out, .freeCount, .regs, .cons, .work, .mem, .serve, .px, .ptns, .ctl, .tel] ⊆ pl) : Holds (InNext pl sb) (execVfFlr ptn s) := by
  unfold execVfFlr
  repeat' first
    | with_reducible refine leaf_next ?_
    | with_reducible assumption
    | with_reducible refine ite_only ?_ ?_
    | with_reducible refine foldl_only ?_ fun _ _ _ => ?_
    | with_reducible refine cancelReq_only ?_ (subset_sub hP (by decide))
    | with_reducible refine modReq_only ?_ (subset_sub hP (by decide))
    | with_reducible refine qpError_only ?_ (subset_sub hP (by decide))
    | with_reducible refine resetWindow_only ?_ (subset_sub hP (by decide))
    | with_reducible refine stopTask_only ?_ (subset_sub hP (by decide))
    | with_reducible refine modWork_only ?_ (subset_sub hP (by decide))
    | (extract_lets +onlyGivenNames -underBinder x; refine cut_only (ps := pl) (s := sb) (a := x) ?_ ?_; unfold x; rotate_left; clear_value x; intro hx)
    | (extract_lets +onlyGivenNames -underBinder x; (try unfold x); clear x)
theorem execVfFlr_only {ptn : Nat} {s : State} {t : State} (hO : Within pl sb s) (hP : [.out, .freeCount, .regs, .cons, .work, .mem, .serve, .px, .ptns, .ctl, .tel] ⊆ pl) (hE : execVfFlr ptn s = .next t) : Within pl sb t := by
  have k : Holds (InNext pl sb) (execVfFlr ptn s) := execVfFlr_holds (ptn := ptn) (s := s) hO hP
  rw [hE] at k; exact k.of

end Sys2Proof.Machine
end

