-- ==== Sys2Proof/Laws/FrameRas.lean ====
section
/-! SUPPORT. What each function of Machine/Ras.lean can do to the state as a whole: the parts it can change; the queue, the population and the
canonical forms it keeps. `f_only` speaks of the state that `f` answers, `f_holds` of a state inside its answer, `f_only_eq` of one taken out. -/

-- One declaration at a time: thousands of proofs in flight at once ask for more threads than fit in memory.
set_option Elab.async false

set_option linter.unusedTactic false
set_option linter.unreachableTactic false
set_option linter.unusedVariables false
set_option linter.unusedSimpArgs false
namespace Sys2Proof.Machine
open Sys2Proof
variable {pl : List Part} {sb : State}

theorem replayInsts_only {s : State} {l : Nat} (hO : Within pl sb s) (hP : [.out, .freeCount, .regs, .cons, .work, .mem, .serve, .ctl, .tel] ⊆ pl) : Within pl sb (replayInsts s l) := by
  unfold replayInsts
  repeat' first
    | with_reducible refine map_holds fun _ _ => ?_
    | with_reducible refine ite_holds ?_ ?_
    | with_reducible refine leaf_some ?_
    | with_reducible refine leaf_only ?_
    | with_reducible assumption
    | with_reducible refine ite_only ?_ ?_
    | with_reducible refine foldl_only ?_ fun _ _ _ => ?_
    | with_reducible refine getD_only ?_ ?_
    | with_reducible refine dropPacks_only ?_ (subset_sub hP (by decide))
    | with_reducible refine endInst_only ?_ (subset_sub hP (by decide))
    | with_reducible refine modInst_only ?_ (subset_sub hP (by decide))
    | with_reducible refine modTask_only ?_ (subset_sub hP (by decide))
    | with_reducible refine someOf_only (by with_reducible assumption) ?_
    | (extract_lets +onlyGivenNames -underBinder x; refine cut_only (ps := pl) (s := sb) (a := x) ?_ ?_; unfold x; rotate_left; clear_value x; intro hx)
    | (extract_lets +onlyGivenNames -underBinder x; (try unfold x); clear x)
    | split

theorem copyInputs_only {s : State} {l old new : Nat} (hO : Within pl sb s) (hP : [.work] ⊆ pl) : Within pl sb (copyInputs s l old new) := by
  unfold copyInputs
  repeat' first
    | with_reducible refine bind_holds (ps := pl) (s := sb) ?_ fun _ _ => ?_
    | with_reducible refine bindAny_holds fun _ => ?_
    | with_reducible refine foldl_holds ?_ fun _ _ _ => ?_
    | with_reducible refine ite_holds ?_ ?_
    | with_reducible exact leaf_none
    | with_reducible refine leaf_some ?_
    | with_reducible refine leaf_only ?_
    | with_reducible assumption
    | with_reducible refine ite_only ?_ ?_
    | with_reducible refine foldl_only ?_ fun _ _ _ => ?_
    | with_reducible refine sramWrite_only ?_ (subset_sub hP (by decide))
    | with_reducible refine someOf_only (by with_reducible assumption) ?_
    | (extract_lets +onlyGivenNames -underBinder x; refine cut_only (ps := pl) (s := sb) (a := x) ?_ ?_; unfold x; rotate_left; clear_value x; intro hx)
    | (extract_lets +onlyGivenNames -underBinder x; (try unfold x); clear x)

theorem dropStagingXfers_only {s : State} {l : Nat} {gs : List Page} (hO : Within pl sb s) (hP : [.out, .serve, .px, .tel] ⊆ pl) : Within pl sb (dropStagingXfers s l gs) := by
  unfold dropStagingXfers
  repeat' first
    | with_reducible assumption
    | with_reducible refine writeBack_only ?_ (subset_sub hP (by decide))
    | with_reducible refine modServe_only ?_ (subset_sub hP (by decide))
    | split

theorem losePages_only {s : State} {l : Nat} {kept : Bool} (hO : Within pl sb s) (hP : [.out, .freeCount, .regs, .cons, .work, .mem, .serve, .px, .ctl, .tel] ⊆ pl) : Within pl sb (losePages s l kept) := by
  unfold losePages
  repeat' first
    | with_reducible assumption
    | with_reducible refine ite_only ?_ ?_
    | with_reducible refine foldl_only ?_ fun _ _ _ => ?_
    | with_reducible refine dropStagingXfers_only ?_ (subset_sub hP (by decide))
    | with_reducible refine modPage_only ?_ (subset_sub hP (by decide))
    | with_reducible refine modReq_only ?_ (subset_sub hP (by decide))
    | with_reducible refine rollReq_only ?_ (subset_sub hP (by decide))
    | (extract_lets +onlyGivenNames -underBinder x; refine cut_only (ps := pl) (s := sb) (a := x) ?_ ?_; unfold x; rotate_left; clear_value x; intro hx)
    | (extract_lets +onlyGivenNames -underBinder x; (try unfold x); clear x)

theorem newMirror_only {s : State} {g : Page} (hO : Within pl sb s) (hP : [.work, .serve] ⊆ pl) : Within pl sb (newMirror s g) := by
  unfold newMirror
  repeat' first
    | with_reducible assumption
    | with_reducible refine ite_only ?_ ?_
    | with_reducible refine modPage_only ?_ (subset_sub hP (by decide))
    | with_reducible refine sramWrite_only ?_ (subset_sub hP (by decide))
    | (extract_lets +onlyGivenNames -underBinder x; refine cut_only (ps := pl) (s := sb) (a := x) ?_ ?_; unfold x; rotate_left; clear_value x; intro hx)
    | (extract_lets +onlyGivenNames -underBinder x; (try unfold x); clear x)
    | split

theorem failCon_only {s : State} {phys : Nat} (hO : Within pl sb s) (hP : [.cons, .work, .mem, .alm] ⊆ pl) : Within pl sb (failCon s phys) := by
  unfold failCon
  repeat' first
    | with_reducible assumption
    | with_reducible refine after_only ?_ ?_
    | with_reducible refine after_only ?_ ?_
    | with_reducible refine mapEntry_only ?_ (subset_sub hP (by decide))
    | with_reducible refine modCon_only ?_ (subset_sub hP (by decide))
    | with_reducible refine sramClear_only ?_ (subset_sub hP (by decide))

theorem takeSpare_only {s : State} {spare l clk : Nat} {sv : Service} (hO : Within pl sb s) (hP : [.out, .regs, .cons, .ctl, .mgt, .alm, .tel] ⊆ pl) : Within pl sb (takeSpare s spare l clk sv) := by
  unfold takeSpare
  repeat' first
    | with_reducible assumption
    | with_reducible refine ite_only ?_ ?_
    | with_reducible refine bumpReg_only ?_ (subset_sub hP (by decide))
    | with_reducible refine mapEntry_only ?_ (subset_sub hP (by decide))
    | with_reducible refine modCon_only ?_ (subset_sub hP (by decide))
    | with_reducible refine odCount_only ?_ (subset_sub hP (by decide))
    | with_reducible refine rasEvent_only ?_ (subset_sub hP (by decide))
    | (extract_lets +onlyGivenNames -underBinder x; refine cut_only (ps := pl) (s := sb) (a := x) ?_ ?_; unfold x; rotate_left; clear_value x; intro hx)
    | (extract_lets +onlyGivenNames -underBinder x; (try unfold x); clear x)

theorem goDark_only {s : State} {l : Nat} {drill : Bool} (h : Within pl sb s) (hp : [.out, .freeCount, .regs, .cons, .eph, .work, .mem, .serve, .px, .ptns, .ctl, .mgt, .alm, .tel] ⊆ pl) : Within pl sb (goDark s l drill) := by
  unfold goDark
  extract_lets ids s1 moved s2
  have h1 : Within pl sb s1 := losePages_only (foldl_only h fun _ _ hv => endInst_only hv (subset_sub hp (by decide))) (subset_sub hp (by decide))
  clear_value s1
  have h2 : Within pl sb s2 := by
    refine foldl_only h1 fun v g hv => ?_
    split
    · exact newMirror_only (modPage_only hv (subset_sub hp (by decide))) (subset_sub hp (by decide))
    · exact hv
  clear_value s2
  split
  · exact h2
  · refine ite_only (fencePtn_only ?_ (subset_sub hp (by decide))) ?_
    all_goals exact modEph_only (raiseBoth_only h2 (subset_sub hp (by decide))) (subset_sub hp (by decide))

theorem startReplay_only {s : State} {l old sp clk : Nat} {drill : Bool} {since : Nat} (hO : Within pl sb s) (hP : [.out, .regs, .cons, .ctl, .mgt, .alm, .tel, .ras] ⊆ pl) : Within pl sb (startReplay s l old sp clk drill since) := by
  unfold startReplay
  repeat' first
    | with_reducible assumption
    | with_reducible refine takeSpare_only ?_ (subset_sub hP (by decide))
    | with_reducible refine modRas_only ?_ (subset_sub hP (by decide))

theorem startDawn_only {s : State} {l sp clk : Nat} (hO : Within pl sb s) (hP : [.out, .regs, .cons, .ctl, .mgt, .alm, .tel] ⊆ pl) : Within pl sb (startDawn s l sp clk) := by
  unfold startDawn
  repeat' first
    | with_reducible assumption
    | with_reducible refine modCon_only ?_ (subset_sub hP (by decide))
    | with_reducible refine takeSpare_only ?_ (subset_sub hP (by decide))
    | (extract_lets +onlyGivenNames -underBinder x; refine cut_only (ps := pl) (s := sb) (a := x) ?_ ?_; unfold x; rotate_left; clear_value x; intro hx)
    | (extract_lets +onlyGivenNames -underBinder x; (try unfold x); clear x)

theorem freeSpare_only {s : State} {sp : Nat} (hO : Within pl sb s) (hP : [.cons, .work, .mem, .alm] ⊆ pl) : Within pl sb (freeSpare s sp) := by
  unfold freeSpare
  repeat' first
    | with_reducible assumption
    | with_reducible refine mapEntry_only ?_ (subset_sub hP (by decide))
    | with_reducible refine modCon_only ?_ (subset_sub hP (by decide))
    | with_reducible refine sramClear_only ?_ (subset_sub hP (by decide))

theorem moveTaker_only {s : State} {x sp : Nat} {new : Option Nat} {c : Con} (hO : Within pl sb s) (hP : [.out, .freeCount, .regs, .cons, .eph, .work, .mem, .serve, .px, .ptns, .ctl, .mgt, .alm, .tel, .ras] ⊆ pl) : Within pl sb (moveTaker s x sp new c) := by
  unfold moveTaker
  repeat' first
    | with_reducible assumption
    | with_reducible refine ite_only ?_ ?_
    | with_reducible refine goDark_only ?_ (subset_sub hP (by decide))
    | with_reducible refine mapEntry_only ?_ (subset_sub hP (by decide))
    | with_reducible refine modCon_only ?_ (subset_sub hP (by decide))
    | with_reducible refine noteRc_only ?_ (subset_sub hP (by decide))
    | with_reducible refine setReg_only ?_ (subset_sub hP (by decide))
    | with_reducible refine startDawn_only ?_ (subset_sub hP (by decide))
    | with_reducible refine startReplay_only ?_ (subset_sub hP (by decide))
    | with_reducible refine takeSpare_only ?_ (subset_sub hP (by decide))
    | with_reducible refine modRas_only ?_ (subset_sub hP (by decide))
    | (extract_lets +onlyGivenNames -underBinder x; refine cut_only (ps := pl) (s := sb) (a := x) ?_ ?_; unfold x; rotate_left; clear_value x; intro hx)
    | (extract_lets +onlyGivenNames -underBinder x; (try unfold x); clear x)
    | split

theorem claimSpare_holds {s : State} {l : Nat} (hO : Within pl sb s) (hP : [.out, .freeCount, .regs, .cons, .eph, .work, .mem, .serve, .px, .ptns, .ctl, .mgt, .alm, .tel, .ras] ⊆ pl) : Holds (InSnd pl sb) (claimSpare s l) := by
  unfold claimSpare
  repeat' first
    | with_reducible refine bind_holds (ps := pl) (s := sb) ?_ fun _ _ => ?_
    | with_reducible refine bindAny_holds fun _ => ?_
    | with_reducible refine foldl_holds ?_ fun _ _ _ => ?_
    | with_reducible refine map_holds fun _ _ => ?_
    | with_reducible refine ite_holds ?_ ?_
    | with_reducible exact leaf_none
    | with_reducible refine leaf_some ?_
    | with_reducible refine leaf_snd ?_
    | with_reducible refine leaf_only ?_
    | with_reducible assumption
    | with_reducible refine foldl_only ?_ fun _ _ _ => ?_
    | with_reducible refine freeSpare_only ?_ (subset_sub hP (by decide))
    | with_reducible refine modCon_only ?_ (subset_sub hP (by decide))
    | with_reducible refine moveTaker_only ?_ (subset_sub hP (by decide))
    | with_reducible refine sramWrite_only ?_ (subset_sub hP (by decide))
    | with_reducible refine someOf_only (by with_reducible assumption) ?_
    | (extract_lets +onlyGivenNames -underBinder x; refine cut_only (ps := pl) (s := sb) (a := x) ?_ ?_; unfold x; rotate_left; clear_value x; intro hx)
    | (extract_lets +onlyGivenNames -underBinder x; (try unfold x); clear x)
    | split
theorem claimSpare_only_eq {s : State} {l : Nat} {ra : Option Nat} {rb : State} (hO : Within pl sb s) (hP : [.out, .freeCount, .regs, .cons, .eph, .work, .mem, .serve, .px, .ptns, .ctl, .mgt, .alm, .tel, .ras] ⊆ pl) (hE : claimSpare s l = (ra, rb)) : Within pl sb rb := by
  have k : Holds (InSnd pl sb) (claimSpare s l) := claimSpare_holds (s := s) (l := l) hO hP
  rw [hE] at k; exact k.of
theorem claimSpare_only {s : State} {l : Nat} (hO : Within pl sb s) (hP : [.out, .freeCount, .regs, .cons, .eph, .work, .mem, .serve, .px, .ptns, .ctl, .mgt, .alm, .tel, .ras] ⊆ pl) : Within pl sb (claimSpare s l).2 := (claimSpare_holds (s := s) (l := l) hO hP).of

theorem declareLost_only {s : State} {phys det : Nat} (hO : Within pl sb s) (hP : [.out, .freeCount, .regs, .cons, .eph, .work, .mem, .serve, .px, .ptns, .ctl, .mgt, .alm, .tel, .ras] ⊆ pl) : Within pl sb (declareLost s phys det) := by
  unfold declareLost
  repeat' first
    | with_reducible assumption
    | with_reducible refine ite_only ?_ ?_
    | with_reducible refine bumpReg_only ?_ (subset_sub hP (by decide))
    | with_reducible refine claimSpare_only_eq ?_ (subset_sub hP (by decide)) (by assumption)
    | with_reducible refine claimSpare_only ?_ (subset_sub hP (by decide))
    | with_reducible refine claimSpare_holds ?_ (subset_sub hP (by decide))
    | with_reducible refine copyInputs_only ?_ (subset_sub hP (by decide))
    | with_reducible refine failCon_only ?_ (subset_sub hP (by decide))
    | with_reducible refine forwardCounts_only ?_ (subset_sub hP (by decide))
    | with_reducible refine goDark_only ?_ (subset_sub hP (by decide))
    | with_reducible refine losePages_only ?_ (subset_sub hP (by decide))
    | with_reducible refine modCon_only ?_ (subset_sub hP (by decide))
    | with_reducible refine rasEvent_only ?_ (subset_sub hP (by decide))
    | with_reducible refine repairRecord_only ?_ (subset_sub hP (by decide))
    | with_reducible refine replayInsts_only ?_ (subset_sub hP (by decide))
    | with_reducible refine startReplay_only ?_ (subset_sub hP (by decide))
    | (extract_lets +onlyGivenNames -underBinder x; refine cut_only (ps := pl) (s := sb) (a := x) ?_ ?_; unfold x; rotate_left; clear_value x; intro hx)
    | (extract_lets +onlyGivenNames -underBinder x; (try unfold x); clear x)
    | split

theorem execHeartbeatTimeout_holds {phys : Nat} {s : State} (hO : Within pl sb s) (hP : [.out, .freeCount, .regs, .cons, .eph, .work, .mem, .serve, .px, .ptns, .ctl, .mgt, .alm, .tel, .ras] ⊆ pl) : Holds (InNext pl sb) (execHeartbeatTimeout phys s) := by
  unfold execHeartbeatTimeout
  repeat' first
    | with_reducible refine leaf_next ?_
    | with_reducible assumption
    | with_reducible refine ite_only ?_ ?_
    | with_reducible refine declareLost_only ?_ (subset_sub hP (by decide))
theorem execHeartbeatTimeout_only {phys : Nat} {s : State} {t : State} (hO : Within pl sb s) (hP : [.out, .freeCount, .regs, .cons, .eph, .work, .mem, .serve, .px, .ptns, .ctl, .mgt, .alm, .tel, .ras] ⊆ pl) (hE : execHeartbeatTimeout phys s = .next t) : Within pl sb t := by
  have k : Holds (InNext pl sb) (execHeartbeatTimeout phys s) := execHeartbeatTimeout_holds (phys := phys) (s := s) hO hP
  rw [hE] at k; exact k.of

theorem execUnitInternalFault_holds {phys detector : Nat} {s : State} (hO : Within pl sb s) (hP : [.out, .freeCount, .regs, .cons, .eph, .work, .mem, .serve, .px, .ptns, .ctl, .mgt, .alm, .tel, .ras] ⊆ pl) : Holds (InNext pl sb) (execUnitInternalFault phys detector s) := by
  unfold execUnitInternalFault
  repeat' first
    | with_reducible refine leaf_next ?_
    | with_reducible assumption
    | with_reducible refine ite_only ?_ ?_
    | with_reducible refine declareLost_only ?_ (subset_sub hP (by decide))
theorem execUnitInternalFault_only {phys detector : Nat} {s : State} {t : State} (hO : Within pl sb s) (hP : [.out, .freeCount, .regs, .cons, .eph, .work, .mem, .serve, .px, .ptns, .ctl, .mgt, .alm, .tel, .ras] ⊆ pl) (hE : execUnitInternalFault phys detector s = .next t) : Within pl sb t := by
  have k : Holds (InNext pl sb) (execUnitInternalFault phys detector s) := execUnitInternalFault_holds (phys := phys) (detector := detector) (s := s) hO hP
  rw [hE] at k; exact k.of

theorem execWakeTimeout_holds {phys : Nat} {s : State} (hO : Within pl sb s) (hP : [.out, .freeCount, .regs, .cons, .eph, .work, .mem, .serve, .px, .ptns, .ctl, .mgt, .alm, .tel, .ras] ⊆ pl) : Holds (InNext pl sb) (execWakeTimeout phys s) := by
  unfold execWakeTimeout
  repeat' first
    | with_reducible refine leaf_next ?_
    | with_reducible assumption
    | with_reducible refine ite_only ?_ ?_
    | with_reducible refine declareLost_only ?_ (subset_sub hP (by decide))
theorem execWakeTimeout_only {phys : Nat} {s : State} {t : State} (hO : Within pl sb s) (hP : [.out, .freeCount, .regs, .cons, .eph, .work, .mem, .serve, .px, .ptns, .ctl, .mgt, .alm, .tel, .ras] ⊆ pl) (hE : execWakeTimeout phys s = .next t) : Within pl sb t := by
  have k : Holds (InNext pl sb) (execWakeTimeout phys s) := execWakeTimeout_holds (phys := phys) (s := s) hO hP
  rw [hE] at k; exact k.of

theorem startReadmit_only {s : State} {phys : Nat} {drill : Bool} (hO : Within pl sb s) (hP : [.cons, .ras] ⊆ pl) : Within pl sb (startReadmit s phys drill) := by
  unfold startReadmit
  repeat' first
    | with_reducible assumption
    | with_reducible refine modCon_only ?_ (subset_sub hP (by decide))
    | with_reducible refine modRas_only ?_ (subset_sub hP (by decide))

theorem restorePages_only {s : State} {l : Nat} (hO : Within pl sb s) (hP : [.work] ⊆ pl) : Within pl sb (restorePages s l) := by
  unfold restorePages
  repeat' first
    | with_reducible assumption
    | with_reducible refine foldl_only ?_ fun _ _ _ => ?_
    | with_reducible refine sramWrite_only ?_ (subset_sub hP (by decide))
    | (extract_lets +onlyGivenNames -underBinder x; refine cut_only (ps := pl) (s := sb) (a := x) ?_ ?_; unfold x; rotate_left; clear_value x; intro hx)
    | (extract_lets +onlyGivenNames -underBinder x; (try unfold x); clear x)
    | split

theorem execReplayStart_holds {spare : Nat} {s : State} (hO : Within pl sb s) (hP : [.regs, .cons, .work, .ctl, .ras] ⊆ pl) : Holds (InNext pl sb) (execReplayStart spare s) := by
  unfold execReplayStart
  repeat' first
    | with_reducible refine leaf_next ?_
    | with_reducible assumption
    | with_reducible refine ite_only ?_ ?_
    | with_reducible refine odRaise_only ?_ (subset_sub hP (by decide))
    | with_reducible refine raiseReg_only ?_ (subset_sub hP (by decide))
    | with_reducible refine restorePages_only ?_ (subset_sub hP (by decide))
    | with_reducible refine startReadmit_only ?_ (subset_sub hP (by decide))
    | with_reducible refine modRas_only ?_ (subset_sub hP (by decide))
    | (extract_lets +onlyGivenNames -underBinder x; refine cut_only (ps := pl) (s := sb) (a := x) ?_ ?_; unfold x; rotate_left; clear_value x; intro hx)
    | (extract_lets +onlyGivenNames -underBinder x; (try unfold x); clear x)
    | split
theorem execReplayStart_only {spare : Nat} {s : State} {t : State} (hO : Within pl sb s) (hP : [.regs, .cons, .work, .ctl, .ras] ⊆ pl) (hE : execReplayStart spare s = .next t) : Within pl sb t := by
  have k : Holds (InNext pl sb) (execReplayStart spare s) := execReplayStart_holds (spare := spare) (s := s) hO hP
  rw [hE] at k; exact k.of

theorem writeReadmit_holds {s : State} {phys : Nat} (hO : Within pl sb s) (hP : [.cons, .ctl, .ras] ⊆ pl) : Holds (InFst pl sb) (writeReadmit s phys) := by
  unfold writeReadmit
  repeat' first
    | with_reducible refine ite_holds ?_ ?_
    | with_reducible refine leaf_fst ?_
    | with_reducible assumption
    | with_reducible refine ite_only ?_ ?_
    | with_reducible refine odSet_only ?_ (subset_sub hP (by decide))
    | with_reducible refine startReadmit_only ?_ (subset_sub hP (by decide))
    | (extract_lets +onlyGivenNames -underBinder x; refine cut_only (ps := pl) (s := sb) (a := x) ?_ ?_; unfold x; rotate_left; clear_value x; intro hx)
    | (extract_lets +onlyGivenNames -underBinder x; (try unfold x); clear x)
theorem writeReadmit_only_eq {s : State} {phys : Nat} {ra : State} {rb : Nat} (hO : Within pl sb s) (hP : [.cons, .ctl, .ras] ⊆ pl) (hE : writeReadmit s phys = (ra, rb)) : Within pl sb ra := by
  have k : Holds (InFst pl sb) (writeReadmit s phys) := writeReadmit_holds (s := s) (phys := phys) hO hP
  rw [hE] at k; exact k.of
theorem writeReadmit_only {s : State} {phys : Nat} (hO : Within pl sb s) (hP : [.cons, .ctl, .ras] ⊆ pl) : Within pl sb (writeReadmit s phys).1 := (writeReadmit_holds (s := s) (phys := phys) hO hP).of

theorem execReadmitDone_holds {phys result : Nat} {s : State} (hO : Within pl sb s) (hP : [.out, .regs, .cons, .work, .mem, .ctl, .mgt, .alm, .tel, .ras] ⊆ pl) : Holds (InNext pl sb) (execReadmitDone phys result s) := by
  unfold execReadmitDone
  repeat' first
    | with_reducible refine leaf_next ?_
    | with_reducible assumption
    | with_reducible refine ite_only ?_ ?_
    | with_reducible refine modCon_only ?_ (subset_sub hP (by decide))
    | with_reducible refine odSet_only ?_ (subset_sub hP (by decide))
    | with_reducible refine rasEvent_only ?_ (subset_sub hP (by decide))
    | with_reducible refine sramClear_only ?_ (subset_sub hP (by decide))
    | with_reducible refine modRas_only ?_ (subset_sub hP (by decide))
    | (extract_lets +onlyGivenNames -underBinder x; refine cut_only (ps := pl) (s := sb) (a := x) ?_ ?_; unfold x; rotate_left; clear_value x; intro hx)
    | (extract_lets +onlyGivenNames -underBinder x; (try unfold x); clear x)
    | split
theorem execReadmitDone_only {phys result : Nat} {s : State} {t : State} (hO : Within pl sb s) (hP : [.out, .regs, .cons, .work, .mem, .ctl, .mgt, .alm, .tel, .ras] ⊆ pl) (hE : execReadmitDone phys result s = .next t) : Within pl sb t := by
  have k : Holds (InNext pl sb) (execReadmitDone phys result s) := execReadmitDone_holds (phys := phys) (result := result) (s := s) hO hP
  rw [hE] at k; exact k.of

theorem execSpareTestDue_holds {phys : Nat} {fails : List Nat} {s : State} (hO : Within pl sb s) (hP : [.out, .regs, .cons, .work, .mem, .ctl, .mgt, .alm, .tel] ⊆ pl) : Holds (InNext pl sb) (execSpareTestDue phys fails s) := by
  unfold execSpareTestDue
  repeat' first
    | with_reducible refine leaf_next ?_
    | with_reducible assumption
    | with_reducible refine ite_only ?_ ?_
    | with_reducible refine foldl_only ?_ fun _ _ _ => ?_
    | with_reducible refine modCon_only ?_ (subset_sub hP (by decide))
    | with_reducible refine testFault_only ?_ (subset_sub hP (by decide))
theorem execSpareTestDue_only {phys : Nat} {fails : List Nat} {s : State} {t : State} (hO : Within pl sb s) (hP : [.out, .regs, .cons, .work, .mem, .ctl, .mgt, .alm, .tel] ⊆ pl) (hE : execSpareTestDue phys fails s = .next t) : Within pl sb t := by
  have k : Holds (InNext pl sb) (execSpareTestDue phys fails s) := execSpareTestDue_holds (phys := phys) (fails := fails) (s := s) hO hP
  rw [hE] at k; exact k.of

theorem execContractExceeded_holds {who : Slow} {cls measured : Nat} {s : State} (hO : Within pl sb s) (hP : [.out, .freeCount, .regs, .cons, .work, .ctl, .mgt, .alm, .tel] ⊆ pl) : Holds (InNext pl sb) (execContractExceeded who cls measured s) := by
  unfold execContractExceeded
  repeat' first
    | with_reducible refine leaf_next ?_
    | with_reducible assumption
    | with_reducible refine ite_only ?_ ?_
    | with_reducible refine bumpCounter_only ?_ (subset_sub hP (by decide))
    | with_reducible refine bumpReg_only ?_ (subset_sub hP (by decide))
    | with_reducible refine modCon_only ?_ (subset_sub hP (by decide))
    | with_reducible refine precisePf_only ?_ (subset_sub hP (by decide))
    | with_reducible refine raiseBoth_only ?_ (subset_sub hP (by decide))
    | with_reducible refine raisePf_only ?_ (subset_sub hP (by decide))
    | with_reducible refine startDimming_only ?_ (subset_sub hP (by decide))
    | (extract_lets +onlyGivenNames -underBinder x; refine cut_only (ps := pl) (s := sb) (a := x) ?_ ?_; unfold x; rotate_left; clear_value x; intro hx)
    | (extract_lets +onlyGivenNames -underBinder x; (try unfold x); clear x)
    | split
theorem execContractExceeded_only {who : Slow} {cls measured : Nat} {s : State} {t : State} (hO : Within pl sb s) (hP : [.out, .freeCount, .regs, .cons, .work, .ctl, .mgt, .alm, .tel] ⊆ pl) (hE : execContractExceeded who cls measured s = .next t) : Within pl sb t := by
  have k : Holds (InNext pl sb) (execContractExceeded who cls measured s) := execContractExceeded_holds (who := who) (cls := cls) (measured := measured) (s := s) hO hP
  rw [hE] at k; exact k.of

theorem execPartnerSilent_holds {s : State} (hO : Within pl sb s) (hP : [.out, .regs, .fab, .ctl, .mgt, .alm, .tel] ⊆ pl) : Holds (InNext pl sb) (execPartnerSilent s) := by
  unfold execPartnerSilent
  repeat' first
    | with_reducible refine leaf_next ?_
    | with_reducible assumption
    | with_reducible refine ite_only ?_ ?_
    | with_reducible refine pairEvent_only ?_ (subset_sub hP (by decide))
    | with_reducible refine modFab_only ?_ (subset_sub hP (by decide))
theorem execPartnerSilent_only {s : State} {t : State} (hO : Within pl sb s) (hP : [.out, .regs, .fab, .ctl, .mgt, .alm, .tel] ⊆ pl) (hE : execPartnerSilent s = .next t) : Within pl sb t := by
  have k : Holds (InNext pl sb) (execPartnerSilent s) := execPartnerSilent_holds (s := s) hO hP
  rw [hE] at k; exact k.of

theorem execPairResyncDone_holds {s : State} (hO : Within pl sb s) (hP : [.out, .freeCount, .regs, .fab, .ctl, .mgt, .alm, .tel] ⊆ pl) : Holds (InNext pl sb) (execPairResyncDone s) := by
  unfold execPairResyncDone
  repeat' first
    | with_reducible refine leaf_next ?_
    | with_reducible assumption
    | with_reducible refine ite_only ?_ ?_
    | with_reducible refine foldl_only ?_ fun _ _ _ => ?_
    | with_reducible refine mirrorNow_only ?_ (subset_sub hP (by decide))
    | with_reducible refine pairEvent_only ?_ (subset_sub hP (by decide))
    | with_reducible refine modFab_only ?_ (subset_sub hP (by decide))
    | (extract_lets +onlyGivenNames -underBinder x; refine cut_only (ps := pl) (s := sb) (a := x) ?_ ?_; unfold x; rotate_left; clear_value x; intro hx)
    | (extract_lets +onlyGivenNames -underBinder x; (try unfold x); clear x)
theorem execPairResyncDone_only {s : State} {t : State} (hO : Within pl sb s) (hP : [.out, .freeCount, .regs, .fab, .ctl, .mgt, .alm, .tel] ⊆ pl) (hE : execPairResyncDone s = .next t) : Within pl sb t := by
  have k : Holds (InNext pl sb) (execPairResyncDone s) := execPairResyncDone_holds (s := s) hO hP
  rw [hE] at k; exact k.of

theorem pumpFull_only {s : State} (hO : Within pl sb s) (hP : [.out, .ctl] ⊆ pl) : Within pl sb (pumpFull s) := by
  unfold pumpFull
  repeat' first
    | with_reducible assumption
    | with_reducible refine ite_only ?_ ?_
    | with_reducible refine emit_only ?_ (subset_sub hP (by decide))
    | with_reducible refine odSet_only ?_ (subset_sub hP (by decide))

theorem fatalFault_only {s : State} {cause uid : Nat} (hO : Within pl sb s) (hP : [.out, .regs, .eph, .work, .mem, .serve, .fab, .ctl, .mgt, .alm, .tel, .ras] ⊆ pl) : Within pl sb (fatalFault s cause uid) := by
  unfold fatalFault
  repeat' first
    | with_reducible assumption
    | with_reducible refine ite_only ?_ ?_
    | with_reducible refine foldl_only ?_ fun _ _ _ => ?_
    | with_reducible refine emit_only ?_ (subset_sub hP (by decide))
    | with_reducible refine linkDown_only ?_ (subset_sub hP (by decide))
    | with_reducible refine modLink_only ?_ (subset_sub hP (by decide))
    | with_reducible refine pumpFull_only ?_ (subset_sub hP (by decide))
    | with_reducible refine raisePf_only ?_ (subset_sub hP (by decide))
    | with_reducible refine sendLink_only ?_ (subset_sub hP (by decide))
    | with_reducible refine setInt_only ?_ (subset_sub hP (by decide))
    | with_reducible refine setReg_only ?_ (subset_sub hP (by decide))
    | with_reducible refine modEph_only ?_ (subset_sub hP (by decide))
    | with_reducible refine modMem_only ?_ (subset_sub hP (by decide))
    | with_reducible refine modRas_only ?_ (subset_sub hP (by decide))
    | with_reducible refine modServe_only ?_ (subset_sub hP (by decide))
    | with_reducible refine modWork_only ?_ (subset_sub hP (by decide))
    | (extract_lets +onlyGivenNames -underBinder x; refine cut_only (ps := pl) (s := sb) (a := x) ?_ ?_; unfold x; rotate_left; clear_value x; intro hx)
    | (extract_lets +onlyGivenNames -underBinder x; (try unfold x); clear x)

theorem writeDrills_holds {s : State} {bs : List Byte} (hO : Within pl sb s) (hP : [.ctl, .ras] ⊆ pl) : Holds (InFst pl sb) (writeDrills s bs) := by
  unfold writeDrills
  repeat' first
    | with_reducible refine ite_holds ?_ ?_
    | with_reducible refine leaf_fst ?_
    | with_reducible assumption
    | with_reducible refine ite_only ?_ ?_
    | with_reducible refine odSet_only ?_ (subset_sub hP (by decide))
    | with_reducible refine modRas_only ?_ (subset_sub hP (by decide))
    | (extract_lets +onlyGivenNames -underBinder x; refine cut_only (ps := pl) (s := sb) (a := x) ?_ ?_; unfold x; rotate_left; clear_value x; intro hx)
    | (extract_lets +onlyGivenNames -underBinder x; (try unfold x); clear x)
theorem writeDrills_only_eq {s : State} {bs : List Byte} {ra : State} {rb : Nat} (hO : Within pl sb s) (hP : [.ctl, .ras] ⊆ pl) (hE : writeDrills s bs = (ra, rb)) : Within pl sb ra := by
  have k : Holds (InFst pl sb) (writeDrills s bs) := writeDrills_holds (s := s) (bs := bs) hO hP
  rw [hE] at k; exact k.of
theorem writeDrills_only {s : State} {bs : List Byte} (hO : Within pl sb s) (hP : [.ctl, .ras] ⊆ pl) : Within pl sb (writeDrills s bs).1 := (writeDrills_holds (s := s) (bs := bs) hO hP).of

theorem downDrill_only {s : State} {kind n : Nat} (hO : Within pl sb s) (hP : [.out, .regs, .fab, .ctl, .mgt, .alm, .tel, .ras] ⊆ pl) : Within pl sb (downDrill s kind n) := by
  unfold downDrill
  repeat' first
    | with_reducible assumption
    | with_reducible refine ite_only ?_ ?_
    | with_reducible refine linkDown_only ?_ (subset_sub hP (by decide))
    | with_reducible refine modRas_only ?_ (subset_sub hP (by decide))
    | (extract_lets +onlyGivenNames -underBinder x; refine cut_only (ps := pl) (s := sb) (a := x) ?_ ?_; unfold x; rotate_left; clear_value x; intro hx)
    | (extract_lets +onlyGivenNames -underBinder x; (try unfold x); clear x)

theorem runDrills_only {s : State} (hO : Within pl sb s) (hP : [.out, .freeCount, .regs, .cons, .eph, .work, .mem, .serve, .fab, .px, .ptns, .ctl, .mgt, .alm, .tel, .ras] ⊆ pl) : Within pl sb (runDrills s) := by
  unfold runDrills
  repeat' first
    | with_reducible assumption
    | with_reducible refine ite_only ?_ ?_
    | with_reducible refine foldl_only ?_ fun _ _ _ => ?_
    | with_reducible refine declareLost_only ?_ (subset_sub hP (by decide))
    | with_reducible refine downDrill_only ?_ (subset_sub hP (by decide))
    | with_reducible refine odCount_only ?_ (subset_sub hP (by decide))
    | with_reducible refine rasEvent_only ?_ (subset_sub hP (by decide))
    | with_reducible refine tierSetPoison_only ?_ (subset_sub hP (by decide))
    | with_reducible refine modRas_only ?_ (subset_sub hP (by decide))
    | (extract_lets +onlyGivenNames -underBinder x; refine cut_only (ps := pl) (s := sb) (a := x) ?_ ?_; unfold x; rotate_left; clear_value x; intro hx)
    | (extract_lets +onlyGivenNames -underBinder x; (try unfold x); clear x)
    | split

theorem dimCon_only {s : State} {phys : Nat} (hO : Within pl sb s) (hP : [.out, .freeCount, .regs, .cons, .eph, .work, .mem, .serve, .px, .ptns, .ctl, .mgt, .alm, .tel, .ras] ⊆ pl) : Within pl sb (dimCon s phys) := by
  unfold dimCon
  repeat' first
    | with_reducible assumption
    | with_reducible refine ite_only ?_ ?_
    | with_reducible refine foldl_only ?_ fun _ _ _ => ?_
    | with_reducible refine bumpReg_only ?_ (subset_sub hP (by decide))
    | with_reducible refine claimSpare_only_eq ?_ (subset_sub hP (by decide)) (by assumption)
    | with_reducible refine claimSpare_only ?_ (subset_sub hP (by decide))
    | with_reducible refine claimSpare_holds ?_ (subset_sub hP (by decide))
    | with_reducible refine copyInputs_only ?_ (subset_sub hP (by decide))
    | with_reducible refine dropStagingXfers_only ?_ (subset_sub hP (by decide))
    | with_reducible refine failCon_only ?_ (subset_sub hP (by decide))
    | with_reducible refine goDark_only ?_ (subset_sub hP (by decide))
    | with_reducible refine modPage_only ?_ (subset_sub hP (by decide))
    | with_reducible refine replayInsts_only ?_ (subset_sub hP (by decide))
    | with_reducible refine restorePages_only ?_ (subset_sub hP (by decide))
    | with_reducible refine takeSpare_only ?_ (subset_sub hP (by decide))
    | with_reducible refine modRas_only ?_ (subset_sub hP (by decide))
    | (extract_lets +onlyGivenNames -underBinder x; refine cut_only (ps := pl) (s := sb) (a := x) ?_ ?_; unfold x; rotate_left; clear_value x; intro hx)
    | (extract_lets +onlyGivenNames -underBinder x; (try unfold x); clear x)
    | split

theorem dawnCon_only {fails : List (Nat × Nat)} {s : State} {phys : Nat} (hO : Within pl sb s) (hP : [.out, .regs, .cons, .work, .mem, .ctl, .mgt, .alm, .tel] ⊆ pl) : Within pl sb (dawnCon fails s phys) := by
  unfold dawnCon
  repeat' first
    | with_reducible assumption
    | with_reducible refine ite_only ?_ ?_
    | with_reducible refine failCon_only ?_ (subset_sub hP (by decide))
    | with_reducible refine modCon_only ?_ (subset_sub hP (by decide))
    | with_reducible refine rasEvent_only ?_ (subset_sub hP (by decide))
    | (extract_lets +onlyGivenNames -underBinder x; refine cut_only (ps := pl) (s := sb) (a := x) ?_ ?_; unfold x; rotate_left; clear_value x; intro hx)
    | (extract_lets +onlyGivenNames -underBinder x; (try unfold x); clear x)
    | split

theorem joinSpares_only {s : State} (hO : Within pl sb s) (hP : [.out, .regs, .cons, .work, .mem, .ctl, .mgt, .alm, .tel, .ras] ⊆ pl) : Within pl sb (joinSpares s) := by
  unfold joinSpares
  repeat' first
    | with_reducible assumption
    | with_reducible refine ite_only ?_ ?_
    | with_reducible refine foldl_only ?_ fun _ _ _ => ?_
    | with_reducible refine mapEntry_only ?_ (subset_sub hP (by decide))
    | with_reducible refine modCon_only ?_ (subset_sub hP (by decide))
    | with_reducible refine odSet_only ?_ (subset_sub hP (by decide))
    | with_reducible refine rasEvent_only ?_ (subset_sub hP (by decide))
    | with_reducible refine sramClear_only ?_ (subset_sub hP (by decide))
    | with_reducible refine modRas_only ?_ (subset_sub hP (by decide))
    | (extract_lets +onlyGivenNames -underBinder x; refine cut_only (ps := pl) (s := sb) (a := x) ?_ ?_; unfold x; rotate_left; clear_value x; intro hx)
    | (extract_lets +onlyGivenNames -underBinder x; (try unfold x); clear x)

theorem serveDark_only {s : State} {l : Nat} (hO : Within pl sb s) (hP : [.out, .freeCount, .regs, .cons, .eph, .work, .mem, .serve, .px, .ptns, .ctl, .mgt, .alm, .tel, .ras] ⊆ pl) : Within pl sb (serveDark s l) := by
  unfold serveDark
  repeat' first
    | with_reducible assumption
    | with_reducible refine ite_only ?_ ?_
    | with_reducible refine foldl_only ?_ fun _ _ _ => ?_
    | with_reducible refine claimSpare_only_eq ?_ (subset_sub hP (by decide)) (by assumption)
    | with_reducible refine claimSpare_only ?_ (subset_sub hP (by decide))
    | with_reducible refine claimSpare_holds ?_ (subset_sub hP (by decide))
    | with_reducible refine startDawn_only ?_ (subset_sub hP (by decide))
    | split

theorem serveSpares_only {s : State} (hO : Within pl sb s) (hP : [.out, .freeCount, .regs, .cons, .eph, .work, .mem, .serve, .px, .ptns, .ctl, .mgt, .alm, .tel, .ras] ⊆ pl) : Within pl sb (serveSpares s) := by
  unfold serveSpares
  repeat' first
    | with_reducible assumption
    | with_reducible refine foldl_only ?_ fun _ _ _ => ?_
    | with_reducible refine dimCon_only ?_ (subset_sub hP (by decide))
    | with_reducible refine serveDark_only ?_ (subset_sub hP (by decide))
    | split

theorem n1Boundary_only {s : State} (hO : Within pl sb s) (hP : [.out, .freeCount, .regs, .cons, .eph, .work, .mem, .serve, .px, .ptns, .ctl, .mgt, .alm, .tel] ⊆ pl) : Within pl sb (n1Boundary s) := by
  unfold n1Boundary
  repeat' first
    | with_reducible assumption
    | with_reducible refine ite_only ?_ ?_
    | with_reducible refine foldl_only ?_ fun _ _ _ => ?_
    | with_reducible refine fencePtn_only ?_ (subset_sub hP (by decide))
    | with_reducible refine raiseBoth_only ?_ (subset_sub hP (by decide))
    | with_reducible refine modEph_only ?_ (subset_sub hP (by decide))
    | (extract_lets +onlyGivenNames -underBinder x; refine cut_only (ps := pl) (s := sb) (a := x) ?_ ?_; unfold x; rotate_left; clear_value x; intro hx)
    | (extract_lets +onlyGivenNames -underBinder x; (try unfold x); clear x)
    | split

theorem endTests_only {s : State} (hO : Within pl sb s) (hP : [.cons] ⊆ pl) : Within pl sb (endTests s) := by
  unfold endTests
  repeat' first
    | with_reducible assumption
    | with_reducible refine ite_only ?_ ?_
    | with_reducible refine modCons_only ?_ (subset_sub hP (by decide))

theorem rasBoundary_only {fails : List (Nat × Nat)} {s : State} (hO : Within pl sb s) (hP : [.out, .freeCount, .regs, .cons, .eph, .work, .mem, .serve, .fab, .px, .ptns, .ctl, .mgt, .alm, .tel, .ras] ⊆ pl) : Within pl sb (rasBoundary fails s) := by
  unfold rasBoundary
  repeat' first
    | with_reducible assumption
    | with_reducible refine foldl_only ?_ fun _ _ _ => ?_
    | with_reducible refine dawnCon_only ?_ (subset_sub hP (by decide))
    | with_reducible refine endTests_only ?_ (subset_sub hP (by decide))
    | with_reducible refine joinSpares_only ?_ (subset_sub hP (by decide))
    | with_reducible refine n1Boundary_only ?_ (subset_sub hP (by decide))
    | with_reducible refine runDrills_only ?_ (subset_sub hP (by decide))
    | with_reducible refine serveSpares_only ?_ (subset_sub hP (by decide))
    | (extract_lets +onlyGivenNames -underBinder x; refine cut_only (ps := pl) (s := sb) (a := x) ?_ ?_; unfold x; rotate_left; clear_value x; intro hx)
    | (extract_lets +onlyGivenNames -underBinder x; (try unfold x); clear x)

end Sys2Proof.Machine
end

