-- ==== Sys2Proof/Laws/FrameRegs.lean ====
section
/-! SUPPORT. What each function of Machine/Regs.lean can do to the state as a whole: the parts it can change; the queue, the population and the
canonical forms it keeps. `f_only` speaks of the state that `f` answers, `f_holds` of a state inside its answer, `f_only_eq` of one taken out. -/

-- One declaration at a time: thousands of proofs in flight at once ask for more threads than fit in memory.
set_option Elab.async false

set_option linter.unusedTactic false
set_option linter.unreachableTactic false
set_option linter.unusedVariables false
set_option linter.unusedSimpArgs false
namespace Sys2Proof.Machine
open Sys2Proof
variable {pl : List Part} {sb : State}

theorem shadowPut_only {s : State} {off : Nat} {v : Word} (hO : Within pl sb s) (hP : [.regs] ⊆ pl) : Within pl sb (shadowPut s off v) := by
  unfold shadowPut
  repeat' first
    | with_reducible assumption
    | with_reducible refine modRegs_only ?_ (subset_sub hP (by decide))

theorem withPending_only {s : State} {l : List (Nat × Word)} (hO : Within pl sb s) (hP : [.regs] ⊆ pl) : Within pl sb (withPending s l) := by
  unfold withPending
  repeat' first
    | with_reducible assumption
    | with_reducible refine foldl_only ?_ fun _ _ _ => ?_
    | with_reducible refine setReg_only ?_ (subset_sub hP (by decide))

theorem ringApplied_only {s : State} {ring : Nat} {old : Word} (hO : Within pl sb s) (hP : [.out, .regs, .serve, .tel] ⊆ pl) : Within pl sb (ringApplied s ring old) := by
  unfold ringApplied
  repeat' first
    | with_reducible assumption
    | with_reducible refine ite_only ?_ ?_
    | with_reducible refine ringDrain_only ?_ (subset_sub hP (by decide))
    | with_reducible refine sweepReqs_only ?_ (subset_sub hP (by decide))
    | with_reducible refine modRegs_only ?_ (subset_sub hP (by decide))
    | (extract_lets +onlyGivenNames -underBinder x; refine cut_only (ps := pl) (s := sb) (a := x) ?_ ?_; unfold x; rotate_left; clear_value x; intro hx)
    | (extract_lets +onlyGivenNames -underBinder x; (try unfold x); clear x)

theorem writeFinals_only {s : State} (hO : Within pl sb s) (hP : [.out, .regs, .tel, .boot] ⊆ pl) : Within pl sb (writeFinals s) := by
  unfold writeFinals
  repeat' first
    | with_reducible assumption
    | with_reducible refine ite_only ?_ ?_
    | with_reducible refine foldl_only ?_ fun _ _ _ => ?_
    | with_reducible refine telItem_only ?_ (subset_sub hP (by decide))
    | with_reducible refine modBoot_only ?_ (subset_sub hP (by decide))

theorem regApplied_only {s : State} {off : Nat} {old : Word} (hO : Within pl sb s) (hP : [.out, .regs, .mem, .serve, .alm, .tel, .boot] ⊆ pl) : Within pl sb (regApplied s off old) := by
  unfold regApplied
  repeat' first
    | with_reducible assumption
    | with_reducible refine ite_only ?_ ?_
    | with_reducible refine almQueue_only ?_ (subset_sub hP (by decide))
    | with_reducible refine clearGranule_only ?_ (subset_sub hP (by decide))
    | with_reducible refine ringApplied_only ?_ (subset_sub hP (by decide))
    | with_reducible refine writeFinals_only ?_ (subset_sub hP (by decide))
    | with_reducible refine modMem_only ?_ (subset_sub hP (by decide))
    | with_reducible refine modTel_only ?_ (subset_sub hP (by decide))
    | (extract_lets +onlyGivenNames -underBinder x; refine cut_only (ps := pl) (s := sb) (a := x) ?_ ?_; unfold x; rotate_left; clear_value x; intro hx)
    | (extract_lets +onlyGivenNames -underBinder x; (try unfold x); clear x)
    | split

theorem applyPending_only {s : State} {l : List (Nat × Word)} (hO : Within pl sb s) (hP : [.out, .regs, .mem, .serve, .fab, .ctl, .mgt, .alm, .tel, .boot] ⊆ pl) : Within pl sb (applyPending s l) := by
  unfold applyPending
  repeat' first
    | with_reducible assumption
    | with_reducible refine ite_only ?_ ?_
    | with_reducible refine foldl_only ?_ fun _ _ _ => ?_
    | with_reducible refine applyKqCtl_only ?_ (subset_sub hP (by decide))
    | with_reducible refine regApplied_only ?_ (subset_sub hP (by decide))
    | with_reducible refine withPending_only ?_ (subset_sub hP (by decide))
    | with_reducible refine modRegs_only ?_ (subset_sub hP (by decide))
    | (extract_lets +onlyGivenNames -underBinder x; refine cut_only (ps := pl) (s := sb) (a := x) ?_ ?_; unfold x; rotate_left; clear_value x; intro hx)
    | (extract_lets +onlyGivenNames -underBinder x; (try unfold x); clear x)

theorem journalCommit_only {s : State} {l : List (Nat × Word)} {refused : Bool} (hO : Within pl sb s) (hP : [.ctl, .alm] ⊆ pl) : Within pl sb (journalCommit s l refused) := by
  unfold journalCommit
  repeat' first
    | with_reducible assumption
    | with_reducible refine foldl_only ?_ fun _ _ _ => ?_
    | with_reducible refine journal_only ?_ (subset_sub hP (by decide))
    | (extract_lets +onlyGivenNames -underBinder x; refine cut_only (ps := pl) (s := sb) (a := x) ?_ ?_; unfold x; rotate_left; clear_value x; intro hx)
    | (extract_lets +onlyGivenNames -underBinder x; (try unfold x); clear x)

theorem commitPoint_only {s : State} {mask : Nat} (hO : Within pl sb s) (hP : [.out, .regs, .mem, .serve, .fab, .px, .ctl, .mgt, .alm, .tel, .boot] ⊆ pl) : Within pl sb (commitPoint s mask) := by
  unfold commitPoint
  repeat' first
    | with_reducible assumption
    | with_reducible refine ite_only ?_ ?_
    | with_reducible refine applyPending_only ?_ (subset_sub hP (by decide))
    | with_reducible refine journalCommit_only ?_ (subset_sub hP (by decide))
    | with_reducible refine setInt_only ?_ (subset_sub hP (by decide))
    | with_reducible refine setReg_only ?_ (subset_sub hP (by decide))
    | with_reducible refine modPx_only ?_ (subset_sub hP (by decide))
    | with_reducible refine modRegs_only ?_ (subset_sub hP (by decide))
    | (extract_lets +onlyGivenNames -underBinder x; refine cut_only (ps := pl) (s := sb) (a := x) ?_ ?_; unfold x; rotate_left; clear_value x; intro hx)
    | (extract_lets +onlyGivenNames -underBinder x; (try unfold x); clear x)
    | split

theorem strobe_only {s : State} (hO : Within pl sb s) (hP : [.out, .regs, .mem, .serve, .fab, .px, .ctl, .mgt, .alm, .tel, .boot] ⊆ pl) : Within pl sb (strobe s) := by
  unfold strobe
  repeat' first
    | with_reducible assumption
    | with_reducible refine ite_only ?_ ?_
    | with_reducible refine commitPoint_only ?_ (subset_sub hP (by decide))
    | with_reducible refine modRegs_only ?_ (subset_sub hP (by decide))
    | (extract_lets +onlyGivenNames -underBinder x; refine cut_only (ps := pl) (s := sb) (a := x) ?_ ?_; unfold x; rotate_left; clear_value x; intro hx)
    | (extract_lets +onlyGivenNames -underBinder x; (try unfold x); clear x)

theorem discard_only {s : State} (hO : Within pl sb s) (hP : [.regs] ⊆ pl) : Within pl sb (discard s) := by
  unfold discard
  repeat' first
    | with_reducible assumption
    | with_reducible refine modRegs_only ?_ (subset_sub hP (by decide))
    | (extract_lets +onlyGivenNames -underBinder x; refine cut_only (ps := pl) (s := sb) (a := x) ?_ ?_; unfold x; rotate_left; clear_value x; intro hx)
    | (extract_lets +onlyGivenNames -underBinder x; (try unfold x); clear x)
    | split

theorem execCmtStrobe_holds {s : State} (hO : Within pl sb s) (hP : [.out, .regs, .mem, .serve, .fab, .px, .ctl, .mgt, .alm, .tel, .boot] ⊆ pl) : Holds (InNext pl sb) (execCmtStrobe s) := by
  unfold execCmtStrobe
  repeat' first
    | with_reducible refine leaf_next ?_
    | with_reducible assumption
    | with_reducible refine strobe_only ?_ (subset_sub hP (by decide))
theorem execCmtStrobe_only {s : State} {t : State} (hO : Within pl sb s) (hP : [.out, .regs, .mem, .serve, .fab, .px, .ctl, .mgt, .alm, .tel, .boot] ⊆ pl) (hE : execCmtStrobe s = .next t) : Within pl sb t := by
  have k : Holds (InNext pl sb) (execCmtStrobe s) := execCmtStrobe_holds (s := s) hO hP
  rw [hE] at k; exact k.of

theorem execCmtDiscard_holds {s : State} (hO : Within pl sb s) (hP : [.regs] ⊆ pl) : Holds (InNext pl sb) (execCmtDiscard s) := by
  unfold execCmtDiscard
  repeat' first
    | with_reducible refine leaf_next ?_
    | with_reducible assumption
    | with_reducible refine discard_only ?_ (subset_sub hP (by decide))
theorem execCmtDiscard_only {s : State} {t : State} (hO : Within pl sb s) (hP : [.regs] ⊆ pl) (hE : execCmtDiscard s = .next t) : Within pl sb t := by
  have k : Holds (InNext pl sb) (execCmtDiscard s) := execCmtDiscard_holds (s := s) hO hP
  rw [hE] at k; exact k.of

theorem commitWindow_only {s : State} {p : Nat} (hO : Within pl sb s) (hP : [.out, .regs, .mem, .serve, .fab, .ptns, .ctl, .mgt, .alm, .tel, .boot] ⊆ pl) : Within pl sb (commitWindow s p) := by
  unfold commitWindow
  repeat' first
    | with_reducible assumption
    | with_reducible refine applyPending_only ?_ (subset_sub hP (by decide))
    | with_reducible refine modPtn_only ?_ (subset_sub hP (by decide))
    | with_reducible refine setReg_only ?_ (subset_sub hP (by decide))
    | (extract_lets +onlyGivenNames -underBinder x; refine cut_only (ps := pl) (s := sb) (a := x) ?_ ?_; unfold x; rotate_left; clear_value x; intro hx)
    | (extract_lets +onlyGivenNames -underBinder x; (try unfold x); clear x)
    | split

theorem strobeWindow_only {s : State} {p : Nat} {next : Bool} (hO : Within pl sb s) (hP : [.out, .regs, .mem, .serve, .fab, .ptns, .ctl, .mgt, .alm, .tel, .boot] ⊆ pl) : Within pl sb (strobeWindow s p next) := by
  unfold strobeWindow
  repeat' first
    | with_reducible assumption
    | with_reducible refine ite_only ?_ ?_
    | with_reducible refine commitWindow_only ?_ (subset_sub hP (by decide))
    | with_reducible refine modPtn_only ?_ (subset_sub hP (by decide))

theorem execPtnCmtStrobe_holds {v : View} {ptn : Nat} {nextCycle : Bool} {s : State} (hO : Within pl sb s) (hP : [.out, .regs, .mem, .serve, .fab, .ptns, .ctl, .mgt, .alm, .tel, .boot] ⊆ pl) : Holds (InNext pl sb) (execPtnCmtStrobe v ptn nextCycle s) := by
  unfold execPtnCmtStrobe
  repeat' first
    | with_reducible refine leaf_next ?_
    | with_reducible assumption
    | with_reducible refine ite_only ?_ ?_
    | with_reducible refine strobeWindow_only ?_ (subset_sub hP (by decide))
    | split
theorem execPtnCmtStrobe_only {v : View} {ptn : Nat} {nextCycle : Bool} {s : State} {t : State} (hO : Within pl sb s) (hP : [.out, .regs, .mem, .serve, .fab, .ptns, .ctl, .mgt, .alm, .tel, .boot] ⊆ pl) (hE : execPtnCmtStrobe v ptn nextCycle s = .next t) : Within pl sb t := by
  have k : Holds (InNext pl sb) (execPtnCmtStrobe v ptn nextCycle s) := execPtnCmtStrobe_holds (v := v) (ptn := ptn) (nextCycle := nextCycle) (s := s) hO hP
  rw [hE] at k; exact k.of

theorem execCfgCrcPassEnd_holds {s : State} (hO : Within pl sb s) (hP : [.out, .freeCount, .regs, .cons, .eph, .work, .mem, .serve, .px, .ptns, .ctl, .mgt, .alm, .tel] ⊆ pl) : Holds (InNext pl sb) (execCfgCrcPassEnd s) := by
  unfold execCfgCrcPassEnd
  repeat' first
    | with_reducible refine leaf_next ?_
    | with_reducible assumption
    | with_reducible refine ite_only ?_ ?_
    | with_reducible refine foldl_only ?_ fun _ _ _ => ?_
    | with_reducible refine fencePtn_only ?_ (subset_sub hP (by decide))
    | with_reducible refine raisePf_only ?_ (subset_sub hP (by decide))
    | with_reducible refine setInt_only ?_ (subset_sub hP (by decide))
    | with_reducible refine modRegs_only ?_ (subset_sub hP (by decide))
    | (extract_lets +onlyGivenNames -underBinder x; refine cut_only (ps := pl) (s := sb) (a := x) ?_ ?_; unfold x; rotate_left; clear_value x; intro hx)
    | (extract_lets +onlyGivenNames -underBinder x; (try unfold x); clear x)
theorem execCfgCrcPassEnd_only {s : State} {t : State} (hO : Within pl sb s) (hP : [.out, .freeCount, .regs, .cons, .eph, .work, .mem, .serve, .px, .ptns, .ctl, .mgt, .alm, .tel] ⊆ pl) (hE : execCfgCrcPassEnd s = .next t) : Within pl sb t := by
  have k : Holds (InNext pl sb) (execCfgCrcPassEnd s) := execCfgCrcPassEnd_holds (s := s) hO hP
  rw [hE] at k; exact k.of

theorem execPtnCrcPassEnd_holds {ptn : Nat} {s : State} (hO : Within pl sb s) (hP : [.out, .freeCount, .regs, .cons, .eph, .work, .mem, .serve, .px, .ptns, .ctl, .mgt, .alm, .tel] ⊆ pl) : Holds (InNext pl sb) (execPtnCrcPassEnd ptn s) := by
  unfold execPtnCrcPassEnd
  repeat' first
    | with_reducible refine leaf_next ?_
    | with_reducible assumption
    | with_reducible refine ite_only ?_ ?_
    | with_reducible refine fencePtn_only ?_ (subset_sub hP (by decide))
    | with_reducible refine modPtn_only ?_ (subset_sub hP (by decide))
    | with_reducible refine raiseBoth_only ?_ (subset_sub hP (by decide))
    | with_reducible refine setInt_only ?_ (subset_sub hP (by decide))
    | (extract_lets +onlyGivenNames -underBinder x; refine cut_only (ps := pl) (s := sb) (a := x) ?_ ?_; unfold x; rotate_left; clear_value x; intro hx)
    | (extract_lets +onlyGivenNames -underBinder x; (try unfold x); clear x)
theorem execPtnCrcPassEnd_only {ptn : Nat} {s : State} {t : State} (hO : Within pl sb s) (hP : [.out, .freeCount, .regs, .cons, .eph, .work, .mem, .serve, .px, .ptns, .ctl, .mgt, .alm, .tel] ⊆ pl) (hE : execPtnCrcPassEnd ptn s = .next t) : Within pl sb t := by
  have k : Holds (InNext pl sb) (execPtnCrcPassEnd ptn s) := execPtnCrcPassEnd_holds (ptn := ptn) (s := s) hO hP
  rw [hE] at k; exact k.of

theorem after_only {s : State} {o : Host.Outcome State Fault Refusal} (h : Within pl sb s) (k : Holds (InNext pl sb) o) :
    Within pl sb (after o s) := nextOr_only h k

theorem action_only {s : State} {off : Nat} {v : Word} (hO : Within pl sb s) (hP : [.out, .regs, .eph, .mem, .serve, .fab, .px, .ptns, .ctl, .mgt, .alm, .tel, .mer, .boot] ⊆ pl) : Within pl sb (action s off v) := by
  unfold action
  repeat' first
    | with_reducible assumption
    | with_reducible refine ite_only ?_ ?_
    | with_reducible refine after_only ?_ ?_
    | with_reducible refine after_only ?_ ?_
    | with_reducible refine discard_only ?_ (subset_sub hP (by decide))
    | with_reducible refine execAcctLatch_holds ?_ (subset_sub hP (by decide))
    | with_reducible refine execEphLoadAbort_holds ?_ (subset_sub hP (by decide))
    | with_reducible refine execEphLoadStart_holds ?_ (subset_sub hP (by decide))
    | with_reducible refine execEphSwitchArm_holds ?_ (subset_sub hP (by decide))
    | with_reducible refine execEphSwitchDisarm_holds ?_ (subset_sub hP (by decide))
    | with_reducible refine execMerHostOfsWrite_holds ?_ (subset_sub hP (by decide))
    | with_reducible refine retrain_only ?_ (subset_sub hP (by decide))
    | with_reducible refine strobe_only ?_ (subset_sub hP (by decide))
    | with_reducible refine strobeWindow_only ?_ (subset_sub hP (by decide))
    | (extract_lets +onlyGivenNames -underBinder x; refine cut_only (ps := pl) (s := sb) (a := x) ?_ ?_; unfold x; rotate_left; clear_value x; intro hx)
    | (extract_lets +onlyGivenNames -underBinder x; (try unfold x); clear x)

theorem storeBits_only {s : State} {off : Nat} {i : RegInfo} {v : Word} (hO : Within pl sb s) (hP : [.regs] ⊆ pl) : Within pl sb (storeBits s off i v) := by
  unfold storeBits
  repeat' first
    | with_reducible assumption
    | with_reducible refine setReg_only ?_ (subset_sub hP (by decide))
    | (extract_lets +onlyGivenNames -underBinder x; refine cut_only (ps := pl) (s := sb) (a := x) ?_ ?_; unfold x; rotate_left; clear_value x; intro hx)
    | (extract_lets +onlyGivenNames -underBinder x; (try unfold x); clear x)

theorem writeHi_only {s : State} {off : Nat} {i : RegInfo} {v : Word} (hO : Within pl sb s) (hP : [.regs, .mer] ⊆ pl) : Within pl sb (writeHi s off i v) := by
  unfold writeHi
  repeat' first
    | with_reducible assumption
    | with_reducible refine ite_only ?_ ?_
    | with_reducible refine after_only ?_ ?_
    | with_reducible refine after_only ?_ ?_
    | with_reducible refine execMerSetWrite_holds ?_ (subset_sub hP (by decide))
    | with_reducible refine latchSet_only ?_ (subset_sub hP (by decide))
    | with_reducible refine setReg_only ?_ (subset_sub hP (by decide))
    | with_reducible refine shadowPut_only ?_ (subset_sub hP (by decide))
    | with_reducible refine storeBits_only ?_ (subset_sub hP (by decide))
    | with_reducible refine modRegs_only ?_ (subset_sub hP (by decide))
    | (extract_lets +onlyGivenNames -underBinder x; refine cut_only (ps := pl) (s := sb) (a := x) ?_ ?_; unfold x; rotate_left; clear_value x; intro hx)
    | (extract_lets +onlyGivenNames -underBinder x; (try unfold x); clear x)
    | split

theorem writeReg_only {s : State} {vf : Bool} {off : Nat} {v : Word} (hO : Within pl sb s) (hP : [.out, .regs, .eph, .mem, .serve, .fab, .px, .ptns, .ctl, .mgt, .alm, .tel, .mer, .boot] ⊆ pl) : Within pl sb (writeReg s vf off v) := by
  unfold writeReg
  repeat' first
    | with_reducible assumption
    | with_reducible refine ite_only ?_ ?_
    | with_reducible refine after_only ?_ ?_
    | with_reducible refine action_only ?_ (subset_sub hP (by decide))
    | with_reducible refine after_only ?_ ?_
    | with_reducible refine execMerHostFreqWrite_holds ?_ (subset_sub hP (by decide))
    | with_reducible refine latchSet_only ?_ (subset_sub hP (by decide))
    | with_reducible refine modPtn_only ?_ (subset_sub hP (by decide))
    | with_reducible refine ringDrain_only ?_ (subset_sub hP (by decide))
    | with_reducible refine shadowPut_only ?_ (subset_sub hP (by decide))
    | with_reducible refine storeBits_only ?_ (subset_sub hP (by decide))
    | with_reducible refine writeHi_only ?_ (subset_sub hP (by decide))
    | with_reducible refine modRegs_only ?_ (subset_sub hP (by decide))
    | (extract_lets +onlyGivenNames -underBinder x; refine cut_only (ps := pl) (s := sb) (a := x) ?_ ?_; unfold x; rotate_left; clear_value x; intro hx)
    | (extract_lets +onlyGivenNames -underBinder x; (try unfold x); clear x)
    | split

theorem viewWrite_only {s : State} {v : View} {off : Nat} {x : Word} (hO : Within pl sb s) (hP : [.out, .regs, .eph, .mem, .serve, .fab, .px, .ptns, .ctl, .mgt, .alm, .tel, .mer, .boot] ⊆ pl) : Within pl sb (viewWrite s v off x) := by
  unfold viewWrite
  repeat' first
    | with_reducible assumption
    | with_reducible refine writeReg_only ?_ (subset_sub hP (by decide))
    | split

theorem execRegWrite_holds {v : View} {off : Nat} {value : Word} {s : State} (hO : Within pl sb s) (hP : [.out, .regs, .eph, .mem, .serve, .fab, .px, .ptns, .ctl, .mgt, .alm, .tel, .mer, .boot] ⊆ pl) : Holds (InNext pl sb) (execRegWrite v off value s) := by
  unfold execRegWrite
  repeat' first
    | with_reducible refine leaf_next ?_
    | with_reducible assumption
    | with_reducible refine viewWrite_only ?_ (subset_sub hP (by decide))
theorem execRegWrite_only {v : View} {off : Nat} {value : Word} {s : State} {t : State} (hO : Within pl sb s) (hP : [.out, .regs, .eph, .mem, .serve, .fab, .px, .ptns, .ctl, .mgt, .alm, .tel, .mer, .boot] ⊆ pl) (hE : execRegWrite v off value s = .next t) : Within pl sb t := by
  have k : Holds (InNext pl sb) (execRegWrite v off value s) := execRegWrite_holds (v := v) (off := off) (value := value) (s := s) hO hP
  rw [hE] at k; exact k.of

theorem execPairLoWrite_holds {v : View} {off : Nat} {value : Word} {s : State} (hO : Within pl sb s) (hP : [.out, .regs, .eph, .mem, .serve, .fab, .px, .ptns, .ctl, .mgt, .alm, .tel, .mer, .boot] ⊆ pl) : Holds (InNext pl sb) (execPairLoWrite v off value s) := by
  unfold execPairLoWrite
  repeat' first
    | with_reducible refine leaf_next ?_
    | with_reducible assumption
    | with_reducible refine ite_only ?_ ?_
    | with_reducible refine viewWrite_only ?_ (subset_sub hP (by decide))
    | split
theorem execPairLoWrite_only {v : View} {off : Nat} {value : Word} {s : State} {t : State} (hO : Within pl sb s) (hP : [.out, .regs, .eph, .mem, .serve, .fab, .px, .ptns, .ctl, .mgt, .alm, .tel, .mer, .boot] ⊆ pl) (hE : execPairLoWrite v off value s = .next t) : Within pl sb t := by
  have k : Holds (InNext pl sb) (execPairLoWrite v off value s) := execPairLoWrite_holds (v := v) (off := off) (value := value) (s := s) hO hP
  rw [hE] at k; exact k.of

theorem execPairHiWrite_holds {v : View} {off : Nat} {value : Word} {s : State} (hO : Within pl sb s) (hP : [.out, .regs, .eph, .mem, .serve, .fab, .px, .ptns, .ctl, .mgt, .alm, .tel, .mer, .boot] ⊆ pl) : Holds (InNext pl sb) (execPairHiWrite v off value s) := by
  unfold execPairHiWrite
  repeat' first
    | with_reducible refine leaf_next ?_
    | with_reducible assumption
    | with_reducible refine ite_only ?_ ?_
    | with_reducible refine viewWrite_only ?_ (subset_sub hP (by decide))
    | split
theorem execPairHiWrite_only {v : View} {off : Nat} {value : Word} {s : State} {t : State} (hO : Within pl sb s) (hP : [.out, .regs, .eph, .mem, .serve, .fab, .px, .ptns, .ctl, .mgt, .alm, .tel, .mer, .boot] ⊆ pl) (hE : execPairHiWrite v off value s = .next t) : Within pl sb t := by
  have k : Holds (InNext pl sb) (execPairHiWrite v off value s) := execPairHiWrite_holds (v := v) (off := off) (value := value) (s := s) hO hP
  rw [hE] at k; exact k.of

theorem execRingProdWrite_holds {v : View} {ring : Nat} {value : Word} {s : State} (hO : Within pl sb s) (hP : [.out, .regs, .eph, .mem, .serve, .fab, .px, .ptns, .ctl, .mgt, .alm, .tel, .mer, .boot] ⊆ pl) : Holds (InNext pl sb) (execRingProdWrite v ring value s) := by
  unfold execRingProdWrite
  repeat' first
    | with_reducible refine leaf_next ?_
    | with_reducible assumption
    | with_reducible refine viewWrite_only ?_ (subset_sub hP (by decide))
    | split
theorem execRingProdWrite_only {v : View} {ring : Nat} {value : Word} {s : State} {t : State} (hO : Within pl sb s) (hP : [.out, .regs, .eph, .mem, .serve, .fab, .px, .ptns, .ctl, .mgt, .alm, .tel, .mer, .boot] ⊆ pl) (hE : execRingProdWrite v ring value s = .next t) : Within pl sb t := by
  have k : Holds (InNext pl sb) (execRingProdWrite v ring value s) := execRingProdWrite_holds (v := v) (ring := ring) (value := value) (s := s) hO hP
  rw [hE] at k; exact k.of

theorem execRingConsWrite_holds {v : View} {ring : Nat} {value : Word} {s : State} (hO : Within pl sb s) (hP : [.out, .regs, .eph, .mem, .serve, .fab, .px, .ptns, .ctl, .mgt, .alm, .tel, .mer, .boot] ⊆ pl) : Holds (InNext pl sb) (execRingConsWrite v ring value s) := by
  unfold execRingConsWrite
  repeat' first
    | with_reducible refine leaf_next ?_
    | with_reducible assumption
    | with_reducible refine viewWrite_only ?_ (subset_sub hP (by decide))
    | split
theorem execRingConsWrite_only {v : View} {ring : Nat} {value : Word} {s : State} {t : State} (hO : Within pl sb s) (hP : [.out, .regs, .eph, .mem, .serve, .fab, .px, .ptns, .ctl, .mgt, .alm, .tel, .mer, .boot] ⊆ pl) (hE : execRingConsWrite v ring value s = .next t) : Within pl sb t := by
  have k : Holds (InNext pl sb) (execRingConsWrite v ring value s) := execRingConsWrite_holds (v := v) (ring := ring) (value := value) (s := s) hO hP
  rw [hE] at k; exact k.of

theorem writeBit_only {s : State} {vf : Bool} {off b : Nat} {one : Bool} (hO : Within pl sb s) (hP : [.out, .regs, .eph, .mem, .serve, .fab, .px, .ptns, .ctl, .mgt, .alm, .tel, .mer, .boot] ⊆ pl) : Within pl sb (writeBit s vf off b one) := by
  unfold writeBit
  repeat' first
    | with_reducible assumption
    | with_reducible refine ite_only ?_ ?_
    | with_reducible refine modPtn_only ?_ (subset_sub hP (by decide))
    | with_reducible refine setReg_only ?_ (subset_sub hP (by decide))
    | with_reducible refine shadowPut_only ?_ (subset_sub hP (by decide))
    | with_reducible refine writeReg_only ?_ (subset_sub hP (by decide))
    | with_reducible refine modRegs_only ?_ (subset_sub hP (by decide))
    | (extract_lets +onlyGivenNames -underBinder x; refine cut_only (ps := pl) (s := sb) (a := x) ?_ ?_; unfold x; rotate_left; clear_value x; intro hx)
    | (extract_lets +onlyGivenNames -underBinder x; (try unfold x); clear x)
    | split

theorem execAliasWrite_holds {v : View} {off : Nat} {value : Word} {s : State} (hO : Within pl sb s) (hP : [.out, .regs, .eph, .mem, .serve, .fab, .px, .ptns, .ctl, .mgt, .alm, .tel, .mer, .boot] ⊆ pl) : Holds (InNext pl sb) (execAliasWrite v off value s) := by
  unfold execAliasWrite
  repeat' first
    | with_reducible refine leaf_next ?_
    | with_reducible assumption
    | with_reducible refine writeBit_only ?_ (subset_sub hP (by decide))
    | split
theorem execAliasWrite_only {v : View} {off : Nat} {value : Word} {s : State} {t : State} (hO : Within pl sb s) (hP : [.out, .regs, .eph, .mem, .serve, .fab, .px, .ptns, .ctl, .mgt, .alm, .tel, .mer, .boot] ⊆ pl) (hE : execAliasWrite v off value s = .next t) : Within pl sb t := by
  have k : Holds (InNext pl sb) (execAliasWrite v off value s) := execAliasWrite_holds (v := v) (off := off) (value := value) (s := s) hO hP
  rw [hE] at k; exact k.of

theorem execBadAccessWrite_holds {v : View} {off : Nat} {s : State} (hO : Within pl sb s) (hP : [.out, .regs] ⊆ pl) : Holds (InNext pl sb) (execBadAccessWrite v off s) := by
  unfold execBadAccessWrite
  repeat' first
    | with_reducible refine bind_holds (ps := pl) (s := sb) ?_ fun _ _ => ?_
    | with_reducible refine bindAny_holds fun _ => ?_
    | with_reducible refine ite_holds ?_ ?_
    | with_reducible exact leaf_none
    | with_reducible refine leaf_some ?_
    | with_reducible refine leaf_only ?_
    | with_reducible refine leaf_next ?_
    | with_reducible assumption
    | with_reducible refine ite_only ?_ ?_
    | with_reducible refine setInt_only ?_ (subset_sub hP (by decide))
    | with_reducible refine modRegs_only ?_ (subset_sub hP (by decide))
    | with_reducible refine someOf_only (by with_reducible assumption) ?_
    | (extract_lets +onlyGivenNames -underBinder x; refine cut_only (ps := pl) (s := sb) (a := x) ?_ ?_; unfold x; rotate_left; clear_value x; intro hx)
    | (extract_lets +onlyGivenNames -underBinder x; (try unfold x); clear x)
    | split
theorem execBadAccessWrite_only {v : View} {off : Nat} {s : State} {t : State} (hO : Within pl sb s) (hP : [.out, .regs] ⊆ pl) (hE : execBadAccessWrite v off s = .next t) : Within pl sb t := by
  have k : Holds (InNext pl sb) (execBadAccessWrite v off s) := execBadAccessWrite_holds (v := v) (off := off) (s := s) hO hP
  rw [hE] at k; exact k.of

theorem readRc_only {s : State} {off : Nat} {i : RegInfo} (hO : Within pl sb s) (hP : [.regs] ⊆ pl) : Within pl sb (readRc s off i) := by
  unfold readRc
  repeat' first
    | with_reducible assumption
    | with_reducible refine ite_only ?_ ?_
    | with_reducible refine setReg_only ?_ (subset_sub hP (by decide))
    | with_reducible refine modRegs_only ?_ (subset_sub hP (by decide))
    | (extract_lets +onlyGivenNames -underBinder x; refine cut_only (ps := pl) (s := sb) (a := x) ?_ ?_; unfold x; rotate_left; clear_value x; intro hx)
    | (extract_lets +onlyGivenNames -underBinder x; (try unfold x); clear x)
    | split

theorem execRcRegisterRead_holds {v : View} {off : Nat} {s : State} (hO : Within pl sb s) (hP : [.regs] ⊆ pl) : Holds (InNext pl sb) (execRcRegisterRead v off s) := by
  unfold execRcRegisterRead
  repeat' first
    | with_reducible refine leaf_next ?_
    | with_reducible assumption
    | with_reducible refine ite_only ?_ ?_
    | with_reducible refine readRc_only ?_ (subset_sub hP (by decide))
    | split
theorem execRcRegisterRead_only {v : View} {off : Nat} {s : State} {t : State} (hO : Within pl sb s) (hP : [.regs] ⊆ pl) (hE : execRcRegisterRead v off s = .next t) : Within pl sb t := by
  have k : Holds (InNext pl sb) (execRcRegisterRead v off s) := execRcRegisterRead_holds (v := v) (off := off) (s := s) hO hP
  rw [hE] at k; exact k.of

theorem execMsixUnmask_holds {fn vector : Nat} {s : State} (hO : Within pl sb s) (hP : [.out, .regs] ⊆ pl) : Holds (InNext pl sb) (execMsixUnmask fn vector s) := by
  unfold execMsixUnmask
  repeat' first
    | with_reducible refine leaf_next ?_
    | with_reducible assumption
    | with_reducible refine ite_only ?_ ?_
    | with_reducible refine emit_only ?_ (subset_sub hP (by decide))
    | with_reducible refine msix_only ?_ (subset_sub hP (by decide))
    | with_reducible refine modRegs_only ?_ (subset_sub hP (by decide))
    | (extract_lets +onlyGivenNames -underBinder x; refine cut_only (ps := pl) (s := sb) (a := x) ?_ ?_; unfold x; rotate_left; clear_value x; intro hx)
    | (extract_lets +onlyGivenNames -underBinder x; (try unfold x); clear x)
theorem execMsixUnmask_only {fn vector : Nat} {s : State} {t : State} (hO : Within pl sb s) (hP : [.out, .regs] ⊆ pl) (hE : execMsixUnmask fn vector s = .next t) : Within pl sb t := by
  have k : Holds (InNext pl sb) (execMsixUnmask fn vector s) := execMsixUnmask_holds (fn := fn) (vector := vector) (s := s) hO hP
  rw [hE] at k; exact k.of

end Sys2Proof.Machine
end

