-- ==== Sys2Proof/Laws/FrameStart.lean ====
section
/-! SUPPORT. What each function of Machine/Start.lean can do to the state as a whole: the parts it can change; the queue, the population and the
canonical forms it keeps. `f_only` speaks of the state that `f` answers, `f_holds` of a state inside its answer, `f_only_eq` of one taken out. -/

-- One declaration at a time: thousands of proofs in flight at once ask for more threads than fit in memory.
set_option Elab.async false

set_option linter.unusedTactic false
set_option linter.unreachableTactic false
set_option linter.unusedVariables false
set_option linter.unusedSimpArgs false
namespace Sys2Proof.Machine
open Sys2Proof
variable {pl : List Part} {sb : State}

theorem startEvent_only {s : State} {code : Nat} {payload : List Nat} (hO : Within pl sb s) (hP : [.out, .regs, .ctl, .mgt, .alm, .tel] ⊆ pl) : Within pl sb (startEvent s code payload) := by
  unfold startEvent
  repeat' first
    | with_reducible assumption
    | with_reducible refine raisePf_only ?_ (subset_sub hP (by decide))

theorem startPhase_only {s : State} {phase : Nat} (hO : Within pl sb s) (hP : [.out, .regs, .ctl, .mgt, .alm, .tel] ⊆ pl) : Within pl sb (startPhase s phase) := by
  unfold startPhase
  repeat' first
    | with_reducible assumption
    | with_reducible refine startEvent_only ?_ (subset_sub hP (by decide))

theorem fwPut_only {s : State} {o n v : Nat} (hO : Within pl sb s) (hP : [.alm] ⊆ pl) : Within pl sb (fwPut s o n v) := by
  unfold fwPut
  repeat' first
    | with_reducible assumption
    | with_reducible refine almQueue_only ?_ (subset_sub hP (by decide))
    | (extract_lets +onlyGivenNames -underBinder x; refine cut_only (ps := pl) (s := sb) (a := x) ?_ ?_; unfold x; rotate_left; clear_value x; intro hx)
    | (extract_lets +onlyGivenNames -underBinder x; (try unfold x); clear x)

theorem fwFlag_only {s : State} {i : Nat} {b : Bool} (hO : Within pl sb s) (hP : [.alm] ⊆ pl) : Within pl sb (fwFlag s i b) := by
  unfold fwFlag
  repeat' first
    | with_reducible assumption
    | with_reducible refine ite_only ?_ ?_
    | with_reducible refine fwPut_only ?_ (subset_sub hP (by decide))
    | (extract_lets +onlyGivenNames -underBinder x; refine cut_only (ps := pl) (s := sb) (a := x) ?_ ?_; unfold x; rotate_left; clear_value x; intro hx)
    | (extract_lets +onlyGivenNames -underBinder x; (try unfold x); clear x)

theorem powerDown_only {s : State} (hO : Within pl sb s) (hP : [.out, .regs, .ctl, .mgt, .alm, .tel, .boot] ⊆ pl) : Within pl sb (powerDown s) := by
  unfold powerDown
  repeat' first
    | with_reducible assumption
    | with_reducible refine foldl_only ?_ fun _ _ _ => ?_
    | with_reducible refine emit_only ?_ (subset_sub hP (by decide))
    | with_reducible refine startEvent_only ?_ (subset_sub hP (by decide))
    | with_reducible refine modBoot_only ?_ (subset_sub hP (by decide))

theorem stopStart_only {s : State} {cause what : Nat} (hO : Within pl sb s) (hP : [.out, .regs, .ctl, .mgt, .alm, .tel, .boot] ⊆ pl) : Within pl sb (stopStart s cause what) := by
  unfold stopStart
  repeat' first
    | with_reducible assumption
    | with_reducible refine ite_only ?_ ?_
    | with_reducible refine odSet_only ?_ (subset_sub hP (by decide))
    | with_reducible refine powerDown_only ?_ (subset_sub hP (by decide))
    | with_reducible refine startEvent_only ?_ (subset_sub hP (by decide))
    | with_reducible refine modBoot_only ?_ (subset_sub hP (by decide))
    | (extract_lets +onlyGivenNames -underBinder x; refine cut_only (ps := pl) (s := sb) (a := x) ?_ ?_; unfold x; rotate_left; clear_value x; intro hx)
    | (extract_lets +onlyGivenNames -underBinder x; (try unfold x); clear x)

theorem linkRoles_only {s : State} (hO : Within pl sb s) (hP : [.px] ⊆ pl) : Within pl sb (linkRoles s) := by
  unfold linkRoles
  repeat' first
    | with_reducible assumption
    | with_reducible refine ite_only ?_ ?_
    | with_reducible refine modPx_only ?_ (subset_sub hP (by decide))

theorem passRails_only {s : State} (hO : Within pl sb s) (hP : [.out, .regs, .fab, .px, .ctl, .mgt, .alm, .tel, .boot] ⊆ pl) : Within pl sb (passRails s) := by
  unfold passRails
  repeat' first
    | with_reducible assumption
    | with_reducible refine ite_only ?_ ?_
    | with_reducible refine foldl_only ?_ fun _ _ _ => ?_
    | with_reducible refine applyKqCtl_only ?_ (subset_sub hP (by decide))
    | with_reducible refine linkRoles_only ?_ (subset_sub hP (by decide))
    | with_reducible refine startPhase_only ?_ (subset_sub hP (by decide))
    | with_reducible refine startTraining_only ?_ (subset_sub hP (by decide))
    | with_reducible refine modBoot_only ?_ (subset_sub hP (by decide))
    | (extract_lets +onlyGivenNames -underBinder x; refine cut_only (ps := pl) (s := sb) (a := x) ?_ ?_; unfold x; rotate_left; clear_value x; intro hx)
    | (extract_lets +onlyGivenNames -underBinder x; (try unfold x); clear x)

theorem startRails_only {s : State} (hO : Within pl sb s) (hP : [.out, .regs, .ctl, .mgt, .alm, .tel, .boot] ⊆ pl) : Within pl sb (startRails s) := by
  unfold startRails
  repeat' first
    | with_reducible assumption
    | with_reducible refine ite_only ?_ ?_
    | with_reducible refine foldl_only ?_ fun _ _ _ => ?_
    | with_reducible refine emit_only ?_ (subset_sub hP (by decide))
    | with_reducible refine stopStart_only ?_ (subset_sub hP (by decide))

theorem execRailInRange_holds {rail mv : Nat} {s : State} (hO : Within pl sb s) (hP : [.out, .regs, .fab, .px, .ctl, .mgt, .alm, .tel, .boot] ⊆ pl) : Holds (InNext pl sb) (execRailInRange rail mv s) := by
  unfold execRailInRange
  repeat' first
    | with_reducible refine leaf_next ?_
    | with_reducible assumption
    | with_reducible refine ite_only ?_ ?_
    | with_reducible refine foldl_only ?_ fun _ _ _ => ?_
    | with_reducible refine emit_only ?_ (subset_sub hP (by decide))
    | with_reducible refine passRails_only ?_ (subset_sub hP (by decide))
    | with_reducible refine startEvent_only ?_ (subset_sub hP (by decide))
    | with_reducible refine modBoot_only ?_ (subset_sub hP (by decide))
    | (extract_lets +onlyGivenNames -underBinder x; refine cut_only (ps := pl) (s := sb) (a := x) ?_ ?_; unfold x; rotate_left; clear_value x; intro hx)
    | (extract_lets +onlyGivenNames -underBinder x; (try unfold x); clear x)
theorem execRailInRange_only {rail mv : Nat} {s : State} {t : State} (hO : Within pl sb s) (hP : [.out, .regs, .fab, .px, .ctl, .mgt, .alm, .tel, .boot] ⊆ pl) (hE : execRailInRange rail mv s = .next t) : Within pl sb t := by
  have k : Holds (InNext pl sb) (execRailInRange rail mv s) := execRailInRange_holds (rail := rail) (mv := mv) (s := s) hO hP
  rw [hE] at k; exact k.of

theorem execRailWindowExpiry_holds {rail : Nat} {s : State} (hO : Within pl sb s) (hP : [.out, .regs, .ctl, .mgt, .alm, .tel, .boot] ⊆ pl) : Holds (InNext pl sb) (execRailWindowExpiry rail s) := by
  unfold execRailWindowExpiry
  repeat' first
    | with_reducible refine leaf_next ?_
    | with_reducible assumption
    | with_reducible refine ite_only ?_ ?_
    | with_reducible refine stopStart_only ?_ (subset_sub hP (by decide))
theorem execRailWindowExpiry_only {rail : Nat} {s : State} {t : State} (hO : Within pl sb s) (hP : [.out, .regs, .ctl, .mgt, .alm, .tel, .boot] ⊆ pl) (hE : execRailWindowExpiry rail s = .next t) : Within pl sb t := by
  have k : Holds (InNext pl sb) (execRailWindowExpiry rail s) := execRailWindowExpiry_holds (rail := rail) (s := s) hO hP
  rw [hE] at k; exact k.of

theorem endNightfall_only {s : State} {st : Nat} (hO : Within pl sb s) (hP : [.out, .regs, .ctl, .mgt, .alm, .tel, .boot] ⊆ pl) : Within pl sb (endNightfall s st) := by
  unfold endNightfall
  repeat' first
    | with_reducible assumption
    | with_reducible refine odSet_only ?_ (subset_sub hP (by decide))
    | with_reducible refine startEvent_only ?_ (subset_sub hP (by decide))
    | with_reducible refine modBoot_only ?_ (subset_sub hP (by decide))
    | (extract_lets +onlyGivenNames -underBinder x; refine cut_only (ps := pl) (s := sb) (a := x) ?_ ?_; unfold x; rotate_left; clear_value x; intro hx)
    | (extract_lets +onlyGivenNames -underBinder x; (try unfold x); clear x)

theorem abortNightfall_only {s : State} (hO : Within pl sb s) (hP : [.out, .regs, .ctl, .mgt, .alm, .tel, .boot] ⊆ pl) : Within pl sb (abortNightfall s) := by
  unfold abortNightfall
  repeat' first
    | with_reducible assumption
    | with_reducible refine ite_only ?_ ?_
    | with_reducible refine endNightfall_only ?_ (subset_sub hP (by decide))

theorem execRailFault_holds {rail : Nat} {s : State} (hO : Within pl sb s) (hP : [.out, .regs, .ctl, .mgt, .alm, .tel, .boot] ⊆ pl) : Holds (InNext pl sb) (execRailFault rail s) := by
  unfold execRailFault
  repeat' first
    | with_reducible refine leaf_next ?_
    | with_reducible assumption
    | with_reducible refine ite_only ?_ ?_
    | with_reducible refine abortNightfall_only ?_ (subset_sub hP (by decide))
    | with_reducible refine stopStart_only ?_ (subset_sub hP (by decide))
theorem execRailFault_only {rail : Nat} {s : State} {t : State} (hO : Within pl sb s) (hP : [.out, .regs, .ctl, .mgt, .alm, .tel, .boot] ⊆ pl) (hE : execRailFault rail s = .next t) : Within pl sb t := by
  have k : Holds (InNext pl sb) (execRailFault rail s) := execRailFault_holds (rail := rail) (s := s) hO hP
  rw [hE] at k; exact k.of

theorem loadHeader_only {s : State} (hO : Within pl sb s) (hP : [.ctl, .alm] ⊆ pl) : Within pl sb (loadHeader s) := by
  unfold loadHeader
  repeat' first
    | with_reducible assumption
    | with_reducible refine modAlm_only ?_ (subset_sub hP (by decide))
    | with_reducible refine modCtl_only ?_ (subset_sub hP (by decide))
    | (extract_lets +onlyGivenNames -underBinder x; refine cut_only (ps := pl) (s := sb) (a := x) ?_ ?_; unfold x; rotate_left; clear_value x; intro hx)
    | (extract_lets +onlyGivenNames -underBinder x; (try unfold x); clear x)

theorem loadAlmanac_only {s : State} (hO : Within pl sb s) (hP : [.regs, .cons, .ctl, .mgt, .alm] ⊆ pl) : Within pl sb (loadAlmanac s) := by
  unfold loadAlmanac
  repeat' first
    | with_reducible assumption
    | with_reducible refine ite_only ?_ ?_
    | with_reducible refine foldl_only ?_ fun _ _ _ => ?_
    | with_reducible refine loadHeader_only ?_ (subset_sub hP (by decide))
    | with_reducible refine odSet_only ?_ (subset_sub hP (by decide))
    | with_reducible refine setReg_only ?_ (subset_sub hP (by decide))
    | with_reducible refine modCons_only ?_ (subset_sub hP (by decide))
    | with_reducible refine modCtl_only ?_ (subset_sub hP (by decide))
    | with_reducible refine modMgt_only ?_ (subset_sub hP (by decide))
    | (extract_lets +onlyGivenNames -underBinder x; refine cut_only (ps := pl) (s := sb) (a := x) ?_ ?_; unfold x; rotate_left; clear_value x; intro hx)
    | (extract_lets +onlyGivenNames -underBinder x; (try unfold x); clear x)

theorem startAon_only {s : State} {imgs : Nat → Bundle} (hO : Within pl sb s) (hP : [.out, .regs, .ctl, .mgt, .alm, .tel, .boot] ⊆ pl) : Within pl sb (startAon s imgs) := by
  unfold startAon
  repeat' first
    | with_reducible assumption
    | with_reducible refine ite_only ?_ ?_
    | with_reducible refine fwFlag_only ?_ (subset_sub hP (by decide))
    | with_reducible refine fwPut_only ?_ (subset_sub hP (by decide))
    | with_reducible refine odSet_only ?_ (subset_sub hP (by decide))
    | with_reducible refine startEvent_only ?_ (subset_sub hP (by decide))
    | with_reducible refine startPhase_only ?_ (subset_sub hP (by decide))
    | with_reducible refine startRails_only ?_ (subset_sub hP (by decide))
    | with_reducible refine modBoot_only ?_ (subset_sub hP (by decide))
    | (extract_lets +onlyGivenNames -underBinder x; refine cut_only (ps := pl) (s := sb) (a := x) ?_ ?_; unfold x; rotate_left; clear_value x; intro hx)
    | (extract_lets +onlyGivenNames -underBinder x; (try unfold x); clear x)
    | split

theorem coldState_only {s : State} {straps : Nat} (h : Within pl sb s) (hp : allParts ⊆ pl) : Within pl sb (coldState s straps) := by
  unfold coldState
  extract_lets alm0 alm pos b b1
  have h0 : Within pl sb b := h.trans ⟨⟨rfl, fun p hq => absurd (hp (by cases p <;> decide)) hq⟩, fun _ => shaped_iff.mpr ⟨rfl, rfl, rfl, ⟨rfl, rfl⟩, rfl, ⟨rfl, rfl⟩, rfl⟩, fun _ => rfl,
    fun k => swf_filter _ _ _ k, fun _ => rfl, fun _ => rfl⟩
  have h1 : Within pl sb b1 := loadAlmanac_only h0 (subset_sub hp (by decide))
  exact ite_only (setReg_only h1 (subset_sub hp (by decide))) h1

theorem execColdReset_holds {straps : Nat} {imgA imgB : Bundle} {s : State} (hO : Within pl sb s) (hP : allParts ⊆ pl) : Holds (InNext pl sb) (execColdReset straps imgA imgB s) := by
  unfold execColdReset
  repeat' first
    | with_reducible refine leaf_next ?_
    | with_reducible assumption
    | with_reducible refine ite_only ?_ ?_
    | with_reducible refine coldState_only ?_ (subset_sub hP (by decide))
    | with_reducible refine startAon_only ?_ (subset_sub hP (by decide))
theorem execColdReset_only {straps : Nat} {imgA imgB : Bundle} {s : State} {t : State} (hO : Within pl sb s) (hP : allParts ⊆ pl) (hE : execColdReset straps imgA imgB s = .next t) : Within pl sb t := by
  have k : Holds (InNext pl sb) (execColdReset straps imgA imgB s) := execColdReset_holds (straps := straps) (imgA := imgA) (imgB := imgB) (s := s) hO hP
  rw [hE] at k; exact k.of

theorem execPwrGoodLoss_holds {s : State} (hO : Within pl sb s) (hP : allParts ⊆ pl) : Holds (InNext pl sb) (execPwrGoodLoss s) := by
  unfold execPwrGoodLoss
  repeat' first
    | with_reducible refine leaf_next ?_
    | with_reducible assumption
    | with_reducible refine coldState_only ?_ (subset_sub hP (by decide))
    | ((with_reducible apply Within.trans); (with_reducible assumption); refine ⟨⟨rfl, fun p hq => ?_⟩, id, id, id, id, id⟩; cases p <;> first | rfl | exact absurd (hP (by decide)) hq)
    | (extract_lets +onlyGivenNames -underBinder x; refine cut_only (ps := pl) (s := sb) (a := x) ?_ ?_; unfold x; rotate_left; clear_value x; intro hx)
theorem execPwrGoodLoss_only {s : State} {t : State} (hO : Within pl sb s) (hP : allParts ⊆ pl) (hE : execPwrGoodLoss s = .next t) : Within pl sb t := by
  have k : Holds (InNext pl sb) (execPwrGoodLoss s) := execPwrGoodLoss_holds (s := s) hO hP
  rw [hE] at k; exact k.of

theorem restartAon_only {s : State} {cause : Nat} {imgs : Nat → Bundle} (h : Within pl sb s) (hp : allParts ⊆ pl) :
    Within pl sb (restartAon s cause imgs) := by
  unfold restartAon
  have h1 := ite_only (c := sequenced s) (powerDown_only h (subset_sub hp (by decide))) h
  have h2 := startEvent_only (code := 0x21) (payload := [cause, s.boot.image]) h1 (subset_sub hp (by decide))
  have h3 := coldState_only (straps := s.boot.straps) h2 (subset_sub hp (by decide))
  exact startAon_only (modAlm_only (f := fun a => { a with waiting := _ }) h3 (subset_sub hp (by decide))) (subset_sub hp (by decide))

theorem bootAgain_only {s : State} {imgs : Nat → Bundle} (h : Within pl sb s) (hp : allParts ⊆ pl) :
    Within pl sb (bootAgain s imgs) := by
  unfold bootAgain
  have h3 := coldState_only (straps := s.boot.straps) h (subset_sub hp (by decide))
  exact startAon_only (modAlm_only (f := fun a => { a with waiting := s.alm.waiting }) h3 (subset_sub hp (by decide))) (subset_sub hp (by decide))

theorem execStartWatchdog_holds {imgA imgB : Bundle} {s : State} (hO : Within pl sb s) (hP : allParts ⊆ pl) : Holds (InNext pl sb) (execStartWatchdog imgA imgB s) := by
  unfold execStartWatchdog
  repeat' first
    | with_reducible refine leaf_next ?_
    | with_reducible assumption
    | with_reducible refine ite_only ?_ ?_
    | with_reducible refine restartAon_only ?_ (subset_sub hP (by decide))
theorem execStartWatchdog_only {imgA imgB : Bundle} {s : State} {t : State} (hO : Within pl sb s) (hP : allParts ⊆ pl) (hE : execStartWatchdog imgA imgB s = .next t) : Within pl sb t := by
  have k : Holds (InNext pl sb) (execStartWatchdog imgA imgB s) := execStartWatchdog_holds (imgA := imgA) (imgB := imgB) (s := s) hO hP
  rw [hE] at k; exact k.of

theorem execLockstepMismatch_holds {imgA imgB : Bundle} {s : State} (hO : Within pl sb s) (hP : allParts ⊆ pl) : Holds (InNext pl sb) (execLockstepMismatch imgA imgB s) := by
  unfold execLockstepMismatch
  repeat' first
    | with_reducible refine leaf_next ?_
    | with_reducible assumption
    | with_reducible refine ite_only ?_ ?_
    | with_reducible refine restartAon_only ?_ (subset_sub hP (by decide))
    | split
theorem execLockstepMismatch_only {imgA imgB : Bundle} {s : State} {t : State} (hO : Within pl sb s) (hP : allParts ⊆ pl) (hE : execLockstepMismatch imgA imgB s = .next t) : Within pl sb t := by
  have k : Holds (InNext pl sb) (execLockstepMismatch imgA imgB s) := execLockstepMismatch_holds (imgA := imgA) (imgB := imgB) (s := s) hO hP
  rw [hE] at k; exact k.of

theorem stopPlane_only {s : State} (hO : Within pl sb s) (hP : [.out, .regs, .eph, .work, .mem, .serve, .fab, .ctl, .mgt, .alm, .tel, .boot] ⊆ pl) : Within pl sb (stopPlane s) := by
  unfold stopPlane
  repeat' first
    | with_reducible assumption
    | with_reducible refine ite_only ?_ ?_
    | with_reducible refine foldl_only ?_ fun _ _ _ => ?_
    | with_reducible refine abortNightfall_only ?_ (subset_sub hP (by decide))
    | with_reducible refine linkDown_only ?_ (subset_sub hP (by decide))
    | with_reducible refine modLink_only ?_ (subset_sub hP (by decide))
    | with_reducible refine sendLink_only ?_ (subset_sub hP (by decide))
    | with_reducible refine modBoot_only ?_ (subset_sub hP (by decide))
    | with_reducible refine modEph_only ?_ (subset_sub hP (by decide))
    | with_reducible refine modMem_only ?_ (subset_sub hP (by decide))
    | with_reducible refine modServe_only ?_ (subset_sub hP (by decide))
    | with_reducible refine modWork_only ?_ (subset_sub hP (by decide))
    | (extract_lets +onlyGivenNames -underBinder x; refine cut_only (ps := pl) (s := sb) (a := x) ?_ ?_; unfold x; rotate_left; clear_value x; intro hx)
    | (extract_lets +onlyGivenNames -underBinder x; (try unfold x); clear x)

theorem warmRegs_swf {s : State} (h : swf resetValue s.regs.store = true) : swf resetValue (warmRegs s) = true := by
  refine swf_filterMap _ _ (fun e e' ne he => ?_) _ _ h
  have z : resetValue 0x400 = 0 := by decide
  split at he
  · split at he
    · cases he; exact ⟨rfl, ne⟩
    · split at he
      · rename_i k
        split at he
        · cases he
        · rename_i b; cases he; exact ⟨rfl, by rw [k, z]; exact b⟩
      · split at he
        · cases he; exact ⟨rfl, ne⟩
        · cases he
  · cases he

theorem warmState_only {s : State} (h : Within pl sb s) (hp : [.out, .regs, .cons, .qtrs, .eph, .work, .tabs, .mem, .serve, .fab, .px, .ptns, .ctl, .mgt, .alm, .tel, .ras, .boot] ⊆ pl) : Within pl sb (warmState s) := by
  unfold warmState
  extract_lets s1 ps s2 s3 regs l0 links
  have h1 : Within pl sb s1 := stopPlane_only h (subset_sub hp (by decide))
  clear_value s1
  have h2 : Within pl sb s2 := by
    refine foldl_only (modBoot_only h1 (subset_sub hp (by decide))) fun v p hv => ?_
    have k := nextSnap_only (s := v) hv (subset_sub hp (by decide))
    exact modBoot_only (keepRecord_only k (subset_sub hp (by decide))) (subset_sub hp (by decide))
  clear_value s2
  have h3 : Within pl sb s3 := foldl_only (dropRole_only h2 (subset_sub hp (by decide))) fun v p hv => ite_only (discardPtn_only hv (subset_sub hp (by decide)))
    (goPtn_only (discardPtn_only hv (subset_sub hp (by decide))) (subset_sub hp (by decide)))
  clear_value s3
  refine odSet_only (h3.trans ⟨⟨rfl, fun p hq => ?_⟩, ?_, ?_, id, fun _ => rfl, fun _ => rfl⟩) (subset_sub hp (by decide))
  · cases p <;> first | rfl | exact absurd (hp (by decide)) hq
  · intro k
    obtain ⟨k0, k1, k2, k3, k4, k5, k6⟩ := shaped_iff.mp k
    exact shaped_iff.mpr ⟨by simpa using k0, rfl, by simpa using k2, k3, by simpa [links] using k4, by simpa using k5, rfl⟩
  · exact warmRegs_swf

theorem execWarmResetAssert_holds {s : State} (hO : Within pl sb s) (hP : [.out, .regs, .cons, .qtrs, .eph, .work, .tabs, .mem, .serve, .fab, .px, .ptns, .ctl, .mgt, .alm, .tel, .ras, .boot] ⊆ pl) : Holds (InNext pl sb) (execWarmResetAssert s) := by
  unfold execWarmResetAssert
  repeat' first
    | with_reducible refine leaf_next ?_
    | with_reducible assumption
    | with_reducible refine ite_only ?_ ?_
    | with_reducible refine warmState_only ?_ (subset_sub hP (by decide))
    | with_reducible refine modBoot_only ?_ (subset_sub hP (by decide))
theorem execWarmResetAssert_only {s : State} {t : State} (hO : Within pl sb s) (hP : [.out, .regs, .cons, .qtrs, .eph, .work, .tabs, .mem, .serve, .fab, .px, .ptns, .ctl, .mgt, .alm, .tel, .ras, .boot] ⊆ pl) (hE : execWarmResetAssert s = .next t) : Within pl sb t := by
  have k : Holds (InNext pl sb) (execWarmResetAssert s) := execWarmResetAssert_holds (s := s) hO hP
  rw [hE] at k; exact k.of

theorem resumeStart_only {s : State} (hO : Within pl sb s) (hP : [.out, .regs, .fab, .px, .ctl, .mgt, .alm, .tel, .boot] ⊆ pl) : Within pl sb (resumeStart s) := by
  unfold resumeStart
  repeat' first
    | with_reducible assumption
    | with_reducible refine ite_only ?_ ?_
    | with_reducible refine odSet_only ?_ (subset_sub hP (by decide))
    | with_reducible refine passRails_only ?_ (subset_sub hP (by decide))
    | with_reducible refine startRails_only ?_ (subset_sub hP (by decide))
    | with_reducible refine modBoot_only ?_ (subset_sub hP (by decide))
    | (extract_lets +onlyGivenNames -underBinder x; refine cut_only (ps := pl) (s := sb) (a := x) ?_ ?_; unfold x; rotate_left; clear_value x; intro hx)
    | (extract_lets +onlyGivenNames -underBinder x; (try unfold x); clear x)

theorem warmStart_only {s : State} (hO : Within pl sb s) (hP : [.out, .regs, .cons, .qtrs, .eph, .work, .tabs, .mem, .serve, .fab, .px, .ptns, .ctl, .mgt, .alm, .tel, .ras, .boot] ⊆ pl) : Within pl sb (warmStart s) := by
  unfold warmStart
  repeat' first
    | with_reducible assumption
    | with_reducible refine ite_only ?_ ?_
    | with_reducible refine resumeStart_only ?_ (subset_sub hP (by decide))
    | with_reducible refine warmState_only ?_ (subset_sub hP (by decide))

theorem execWarmResetRelease_holds {s : State} (hO : Within pl sb s) (hP : [.out, .regs, .fab, .px, .ctl, .mgt, .alm, .tel, .boot] ⊆ pl) : Holds (InNext pl sb) (execWarmResetRelease s) := by
  unfold execWarmResetRelease
  repeat' first
    | with_reducible refine leaf_next ?_
    | with_reducible assumption
    | with_reducible refine ite_only ?_ ?_
    | with_reducible refine resumeStart_only ?_ (subset_sub hP (by decide))
    | with_reducible refine modBoot_only ?_ (subset_sub hP (by decide))
theorem execWarmResetRelease_only {s : State} {t : State} (hO : Within pl sb s) (hP : [.out, .regs, .fab, .px, .ctl, .mgt, .alm, .tel, .boot] ⊆ pl) (hE : execWarmResetRelease s = .next t) : Within pl sb t := by
  have k : Holds (InNext pl sb) (execWarmResetRelease s) := execWarmResetRelease_holds (s := s) hO hP
  rw [hE] at k; exact k.of

theorem addFound_only {s : State} {f : Found} (hO : Within pl sb s) (hP : [.out, .regs, .cons, .work, .mem, .ctl, .mgt, .alm, .tel] ⊆ pl) : Within pl sb (addFound s f) := by
  unfold addFound
  repeat' first
    | with_reducible assumption
    | with_reducible refine ite_only ?_ ?_
    | with_reducible refine failCon_only ?_ (subset_sub hP (by decide))
    | with_reducible refine odSet_only ?_ (subset_sub hP (by decide))
    | with_reducible refine repairRecord_only ?_ (subset_sub hP (by decide))
    | with_reducible refine startEvent_only ?_ (subset_sub hP (by decide))
    | with_reducible refine modMem_only ?_ (subset_sub hP (by decide))
    | (extract_lets +onlyGivenNames -underBinder x; refine cut_only (ps := pl) (s := sb) (a := x) ?_ ?_; unfold x; rotate_left; clear_value x; intro hx)
    | (extract_lets +onlyGivenNames -underBinder x; (try unfold x); clear x)

theorem coverOne_only {a : State × Cover} {i : Nat} (h : Within pl sb a.1) (hp : [.mem, .alm] ⊆ pl) : Within pl sb (coverOne a i).1 := by
  obtain ⟨s, c⟩ := a
  have k := almQueue_only (off := 0xA00 + 16 * i + 2) (bs := [BitVec.ofNat 8 (bits (recordAt s i) 16 7 + 128)]) h (subset_sub hp (by decide))
  unfold coverOne
  dsimp only
  split
  · split
    · exact k
    · split
      · exact k
      · exact repairRecord_only h (subset_sub hp (by decide))
  · split
    · exact k
    · split
      · exact k
      · dsimp only; exact modMem_only h (subset_sub hp (by decide))
  · exact k
  · exact h

theorem returnSpare_only {s : State} {c : Cover} {found : List Found} {phys : Nat} (hO : Within pl sb s) (hP : [.cons, .alm] ⊆ pl) : Within pl sb (returnSpare s c found phys) := by
  unfold returnSpare
  repeat' first
    | with_reducible assumption
    | with_reducible refine ite_only ?_ ?_
    | with_reducible refine mapEntry_only ?_ (subset_sub hP (by decide))
    | with_reducible refine modCon_only ?_ (subset_sub hP (by decide))
    | (extract_lets +onlyGivenNames -underBinder x; refine cut_only (ps := pl) (s := sb) (a := x) ?_ ?_; unfold x; rotate_left; clear_value x; intro hx)
    | (extract_lets +onlyGivenNames -underBinder x; (try unfold x); clear x)

theorem remapAtStart_only {s : State} {l : Nat} (hO : Within pl sb s) (hP : [.cons, .alm, .ras] ⊆ pl) : Within pl sb (remapAtStart s l) := by
  unfold remapAtStart
  repeat' first
    | with_reducible assumption
    | with_reducible refine ite_only ?_ ?_
    | with_reducible refine mapEntry_only ?_ (subset_sub hP (by decide))
    | with_reducible refine modCon_only ?_ (subset_sub hP (by decide))
    | with_reducible refine modRas_only ?_ (subset_sub hP (by decide))
    | split

theorem repairStart_only {s : State} {found : List Found} {tested : Bool} (hO : Within pl sb s) (hP : [.out, .regs, .cons, .work, .mem, .ctl, .mgt, .alm, .tel, .ras] ⊆ pl) : Within pl sb (repairStart s found tested) := by
  unfold repairStart
  repeat' first
    | with_reducible assumption
    | with_reducible refine ite_only ?_ ?_
    | with_reducible refine foldl_only ?_ fun _ _ _ => ?_
    | with_reducible refine foldlFst_only ?_ fun _ _ _ => ?_
    | with_reducible refine addFound_only ?_ (subset_sub hP (by decide))
    | with_reducible refine coverOne_only ?_ (subset_sub hP (by decide))
    | with_reducible refine failCon_only ?_ (subset_sub hP (by decide))
    | with_reducible refine modCon_only ?_ (subset_sub hP (by decide))
    | with_reducible refine odSet_only ?_ (subset_sub hP (by decide))
    | with_reducible refine remapAtStart_only ?_ (subset_sub hP (by decide))
    | with_reducible refine restIdle_only ?_ (subset_sub hP (by decide))
    | with_reducible refine returnSpare_only ?_ (subset_sub hP (by decide))
    | with_reducible refine sramClear_only ?_ (subset_sub hP (by decide))
    | with_reducible refine startEvent_only ?_ (subset_sub hP (by decide))
    | (extract_lets +onlyGivenNames -underBinder x; refine cut_only (ps := pl) (s := sb) (a := x) ?_ ?_; unfold x; rotate_left; clear_value x; intro hx)
    | (extract_lets +onlyGivenNames -underBinder x; (try unfold x); clear x)
    | split

theorem trainFar_only {s : State} {ds : List Dimm} (hO : Within pl sb s) (hP : [.out, .regs, .mem, .ctl, .mgt, .alm, .tel] ⊆ pl) : Within pl sb (trainFar s ds) := by
  unfold trainFar
  repeat' first
    | with_reducible assumption
    | with_reducible refine ite_only ?_ ?_
    | with_reducible refine foldl_only ?_ fun _ _ _ => ?_
    | with_reducible refine raisePf_only ?_ (subset_sub hP (by decide))
    | with_reducible refine modMem_only ?_ (subset_sub hP (by decide))
    | (extract_lets +onlyGivenNames -underBinder x; refine cut_only (ps := pl) (s := sb) (a := x) ?_ ?_; unfold x; rotate_left; clear_value x; intro hx)
    | (extract_lets +onlyGivenNames -underBinder x; (try unfold x); clear x)

theorem execDataReadyReached_holds {train : Train} {s : State} (hO : Within pl sb s) (hP : [.out, .freeCount, .regs, .cons, .work, .mem, .serve, .ptns, .ctl, .mgt, .alm, .tel, .ras, .boot] ⊆ pl) : Holds (InNext pl sb) (execDataReadyReached train s) := by
  unfold execDataReadyReached
  repeat' first
    | with_reducible refine leaf_next ?_
    | with_reducible assumption
    | with_reducible refine ite_only ?_ ?_
    | with_reducible refine foldl_only ?_ fun _ _ _ => ?_
    | with_reducible refine after_only ?_ ?_
    | with_reducible refine after_only ?_ ?_
    | with_reducible refine emit_only ?_ (subset_sub hP (by decide))
    | with_reducible refine execStackLost_holds ?_ (subset_sub hP (by decide))
    | with_reducible refine fwFlag_only ?_ (subset_sub hP (by decide))
    | with_reducible refine fwPut_only ?_ (subset_sub hP (by decide))
    | with_reducible refine modCon_only ?_ (subset_sub hP (by decide))
    | with_reducible refine modPtn_only ?_ (subset_sub hP (by decide))
    | with_reducible refine odSet_only ?_ (subset_sub hP (by decide))
    | with_reducible refine repairStart_only ?_ (subset_sub hP (by decide))
    | with_reducible refine startPhase_only ?_ (subset_sub hP (by decide))
    | with_reducible refine trainFar_only ?_ (subset_sub hP (by decide))
    | with_reducible refine modBoot_only ?_ (subset_sub hP (by decide))
    | with_reducible refine modMem_only ?_ (subset_sub hP (by decide))
    | (extract_lets +onlyGivenNames -underBinder x; refine cut_only (ps := pl) (s := sb) (a := x) ?_ ?_; unfold x; rotate_left; clear_value x; intro hx)
    | (extract_lets +onlyGivenNames -underBinder x; (try unfold x); clear x)
    | split
theorem execDataReadyReached_only {train : Train} {s : State} {t : State} (hO : Within pl sb s) (hP : [.out, .freeCount, .regs, .cons, .work, .mem, .serve, .ptns, .ctl, .mgt, .alm, .tel, .ras, .boot] ⊆ pl) (hE : execDataReadyReached train s = .next t) : Within pl sb t := by
  have k : Holds (InNext pl sb) (execDataReadyReached train s) := execDataReadyReached_holds (train := train) (s := s) hO hP
  rw [hE] at k; exact k.of

theorem nfStart_holds {s : State} (hO : Within pl sb s) (hP : [.out, .regs, .eph, .fab, .ctl, .mgt, .alm, .tel, .boot] ⊆ pl) : Holds (InFst pl sb) (nfStart s) := by
  unfold nfStart
  repeat' first
    | with_reducible refine ite_holds ?_ ?_
    | with_reducible refine leaf_fst ?_
    | with_reducible assumption
    | with_reducible refine ite_only ?_ ?_
    | with_reducible refine foldl_only ?_ fun _ _ _ => ?_
    | with_reducible refine linkDown_only ?_ (subset_sub hP (by decide))
    | with_reducible refine modLink_only ?_ (subset_sub hP (by decide))
    | with_reducible refine odSet_only ?_ (subset_sub hP (by decide))
    | with_reducible refine sendLink_only ?_ (subset_sub hP (by decide))
    | with_reducible refine startEvent_only ?_ (subset_sub hP (by decide))
    | with_reducible refine modBoot_only ?_ (subset_sub hP (by decide))
    | with_reducible refine modEph_only ?_ (subset_sub hP (by decide))
    | (extract_lets +onlyGivenNames -underBinder x; refine cut_only (ps := pl) (s := sb) (a := x) ?_ ?_; unfold x; rotate_left; clear_value x; intro hx)
    | (extract_lets +onlyGivenNames -underBinder x; (try unfold x); clear x)
theorem nfStart_only_eq {s : State} {ra : State} {rb : Nat} (hO : Within pl sb s) (hP : [.out, .regs, .eph, .fab, .ctl, .mgt, .alm, .tel, .boot] ⊆ pl) (hE : nfStart s = (ra, rb)) : Within pl sb ra := by
  have k : Holds (InFst pl sb) (nfStart s) := nfStart_holds (s := s) hO hP
  rw [hE] at k; exact k.of
theorem nfStart_only {s : State} (hO : Within pl sb s) (hP : [.out, .regs, .eph, .fab, .ctl, .mgt, .alm, .tel, .boot] ⊆ pl) : Within pl sb (nfStart s).1 := (nfStart_holds (s := s) hO hP).of

theorem nfNext_only {s : State} (hO : Within pl sb s) (hP : [.out, .regs, .ctl, .mgt, .alm, .tel, .boot] ⊆ pl) : Within pl sb (nfNext s) := by
  unfold nfNext
  repeat' first
    | with_reducible assumption
    | with_reducible refine ite_only ?_ ?_
    | with_reducible refine endNightfall_only ?_ (subset_sub hP (by decide))
    | with_reducible refine fwFlag_only ?_ (subset_sub hP (by decide))
    | with_reducible refine fwPut_only ?_ (subset_sub hP (by decide))
    | with_reducible refine odSet_only ?_ (subset_sub hP (by decide))
    | with_reducible refine modBoot_only ?_ (subset_sub hP (by decide))
    | (extract_lets +onlyGivenNames -underBinder x; refine cut_only (ps := pl) (s := sb) (a := x) ?_ ?_; unfold x; rotate_left; clear_value x; intro hx)
    | (extract_lets +onlyGivenNames -underBinder x; (try unfold x); clear x)

theorem nfRecords_only {s : State} {found : List Found} (hO : Within pl sb s) (hP : [.out, .regs, .cons, .work, .mem, .ctl, .mgt, .alm, .tel] ⊆ pl) : Within pl sb (nfRecords s found) := by
  unfold nfRecords
  repeat' first
    | with_reducible assumption
    | with_reducible refine ite_only ?_ ?_
    | with_reducible refine foldl_only ?_ fun _ _ _ => ?_
    | with_reducible refine addFound_only ?_ (subset_sub hP (by decide))
    | with_reducible refine almQueue_only ?_ (subset_sub hP (by decide))
    | with_reducible refine raisePf_only ?_ (subset_sub hP (by decide))
    | with_reducible refine modAlm_only ?_ (subset_sub hP (by decide))
    | (extract_lets +onlyGivenNames -underBinder x; refine cut_only (ps := pl) (s := sb) (a := x) ?_ ?_; unfold x; rotate_left; clear_value x; intro hx)
    | (extract_lets +onlyGivenNames -underBinder x; (try unfold x); clear x)

theorem execNfSliceEnd_holds {found : List Found} {s : State} (hO : Within pl sb s) (hP : [.out, .regs, .cons, .work, .mem, .ctl, .mgt, .alm, .tel, .boot] ⊆ pl) : Holds (InNext pl sb) (execNfSliceEnd found s) := by
  unfold execNfSliceEnd
  repeat' first
    | with_reducible refine leaf_next ?_
    | with_reducible assumption
    | with_reducible refine ite_only ?_ ?_
    | with_reducible refine nfNext_only ?_ (subset_sub hP (by decide))
    | with_reducible refine nfRecords_only ?_ (subset_sub hP (by decide))
    | with_reducible refine modBoot_only ?_ (subset_sub hP (by decide))
theorem execNfSliceEnd_only {found : List Found} {s : State} {t : State} (hO : Within pl sb s) (hP : [.out, .regs, .cons, .work, .mem, .ctl, .mgt, .alm, .tel, .boot] ⊆ pl) (hE : execNfSliceEnd found s = .next t) : Within pl sb t := by
  have k : Holds (InNext pl sb) (execNfSliceEnd found s) := execNfSliceEnd_holds (found := found) (s := s) hO hP
  rw [hE] at k; exact k.of

theorem execNfHoldEnd_holds {found : List Found} {s : State} (hO : Within pl sb s) (hP : [.out, .regs, .cons, .work, .mem, .ctl, .mgt, .alm, .tel, .boot] ⊆ pl) : Holds (InNext pl sb) (execNfHoldEnd found s) := by
  unfold execNfHoldEnd
  repeat' first
    | with_reducible refine leaf_next ?_
    | with_reducible assumption
    | with_reducible refine ite_only ?_ ?_
    | with_reducible refine nfNext_only ?_ (subset_sub hP (by decide))
    | with_reducible refine nfRecords_only ?_ (subset_sub hP (by decide))
    | with_reducible refine modBoot_only ?_ (subset_sub hP (by decide))
theorem execNfHoldEnd_only {found : List Found} {s : State} {t : State} (hO : Within pl sb s) (hP : [.out, .regs, .cons, .work, .mem, .ctl, .mgt, .alm, .tel, .boot] ⊆ pl) (hE : execNfHoldEnd found s = .next t) : Within pl sb t := by
  have k : Holds (InNext pl sb) (execNfHoldEnd found s) := execNfHoldEnd_holds (found := found) (s := s) hO hP
  rw [hE] at k; exact k.of

theorem nfCommand_holds {s : State} {cmd : Nat} (hO : Within pl sb s) (hP : [.out, .regs, .eph, .work, .mem, .serve, .fab, .ctl, .mgt, .alm, .tel, .boot] ⊆ pl) : Holds (InFst pl sb) (nfCommand s cmd) := by
  unfold nfCommand
  repeat' first
    | with_reducible refine ite_holds ?_ ?_
    | with_reducible refine leaf_fst ?_
    | with_reducible assumption
    | with_reducible refine ite_only ?_ ?_
    | with_reducible refine abortNightfall_only ?_ (subset_sub hP (by decide))
    | with_reducible refine nfStart_only_eq ?_ (subset_sub hP (by decide)) (by assumption)
    | with_reducible refine nfStart_only ?_ (subset_sub hP (by decide))
    | with_reducible refine powerDown_only ?_ (subset_sub hP (by decide))
    | with_reducible refine stopPlane_only ?_ (subset_sub hP (by decide))
    | split
theorem nfCommand_only_eq {s : State} {cmd : Nat} {ra : State} {rb : Nat} (hO : Within pl sb s) (hP : [.out, .regs, .eph, .work, .mem, .serve, .fab, .ctl, .mgt, .alm, .tel, .boot] ⊆ pl) (hE : nfCommand s cmd = (ra, rb)) : Within pl sb ra := by
  have k : Holds (InFst pl sb) (nfCommand s cmd) := nfCommand_holds (s := s) (cmd := cmd) hO hP
  rw [hE] at k; exact k.of
theorem nfCommand_only {s : State} {cmd : Nat} (hO : Within pl sb s) (hP : [.out, .regs, .eph, .work, .mem, .serve, .fab, .ctl, .mgt, .alm, .tel, .boot] ⊆ pl) : Within pl sb (nfCommand s cmd).1 := (nfCommand_holds (s := s) (cmd := cmd) hO hP).of

theorem updateAnswer_holds {s : State} {r : Nat} (hO : Within pl sb s) (hP : [.ctl] ⊆ pl) : Holds (InFst pl sb) (updateAnswer s r) := by
  unfold updateAnswer
  repeat' first
    | with_reducible refine ite_holds ?_ ?_
    | with_reducible refine leaf_fst ?_
    | with_reducible assumption
    | with_reducible refine ite_only ?_ ?_
    | with_reducible refine odSet_only ?_ (subset_sub hP (by decide))
theorem updateAnswer_only_eq {s : State} {r : Nat} {ra : State} {rb : Nat} (hO : Within pl sb s) (hP : [.ctl] ⊆ pl) (hE : updateAnswer s r = (ra, rb)) : Within pl sb ra := by
  have k : Holds (InFst pl sb) (updateAnswer s r) := updateAnswer_holds (s := s) (r := r) hO hP
  rw [hE] at k; exact k.of
theorem updateAnswer_only {s : State} {r : Nat} (hO : Within pl sb s) (hP : [.ctl] ⊆ pl) : Within pl sb (updateAnswer s r).1 := (updateAnswer_holds (s := s) (r := r) hO hP).of

theorem updateBegin_holds {s : State} (hO : Within pl sb s) (hP : [.out, .ctl, .boot] ⊆ pl) : Holds (InFst pl sb) (updateBegin s) := by
  unfold updateBegin
  repeat' first
    | with_reducible refine leaf_fst ?_
    | with_reducible assumption
    | with_reducible refine emit_only ?_ (subset_sub hP (by decide))
    | with_reducible refine odSet_only ?_ (subset_sub hP (by decide))
    | with_reducible refine updateAnswer_only_eq ?_ (subset_sub hP (by decide)) (by assumption)
    | with_reducible refine updateAnswer_only ?_ (subset_sub hP (by decide))
    | with_reducible refine modBoot_only ?_ (subset_sub hP (by decide))
theorem updateBegin_only_eq {s : State} {ra : State} {rb : Nat} (hO : Within pl sb s) (hP : [.out, .ctl, .boot] ⊆ pl) (hE : updateBegin s = (ra, rb)) : Within pl sb ra := by
  have k : Holds (InFst pl sb) (updateBegin s) := updateBegin_holds (s := s) hO hP
  rw [hE] at k; exact k.of
theorem updateBegin_only {s : State} (hO : Within pl sb s) (hP : [.out, .ctl, .boot] ⊆ pl) : Within pl sb (updateBegin s).1 := (updateBegin_holds (s := s) hO hP).of

theorem updateData_holds {s : State} {data : List Byte} (hO : Within pl sb s) (hP : [.out, .ctl] ⊆ pl) : Holds (InFst pl sb) (updateData s data) := by
  unfold updateData
  repeat' first
    | with_reducible refine ite_holds ?_ ?_
    | with_reducible refine leaf_fst ?_
    | with_reducible assumption
    | with_reducible refine ite_only ?_ ?_
    | with_reducible refine emit_only ?_ (subset_sub hP (by decide))
    | with_reducible refine odSet_only ?_ (subset_sub hP (by decide))
    | with_reducible refine updateAnswer_only_eq ?_ (subset_sub hP (by decide)) (by assumption)
    | with_reducible refine updateAnswer_only ?_ (subset_sub hP (by decide))
theorem updateData_only_eq {s : State} {data : List Byte} {ra : State} {rb : Nat} (hO : Within pl sb s) (hP : [.out, .ctl] ⊆ pl) (hE : updateData s data = (ra, rb)) : Within pl sb ra := by
  have k : Holds (InFst pl sb) (updateData s data) := updateData_holds (s := s) (data := data) hO hP
  rw [hE] at k; exact k.of
theorem updateData_only {s : State} {data : List Byte} (hO : Within pl sb s) (hP : [.out, .ctl] ⊆ pl) : Within pl sb (updateData s data).1 := (updateData_holds (s := s) (data := data) hO hP).of

theorem updateVerify_holds {s : State} {w : OdSrc} {x : Ext} (hO : Within pl sb s) (hP : [.ctl, .alm, .boot] ⊆ pl) : Holds (InFst pl sb) (updateVerify s w x) := by
  unfold updateVerify
  repeat' first
    | with_reducible refine ite_holds ?_ ?_
    | with_reducible refine leaf_fst ?_
    | with_reducible assumption
    | with_reducible refine ite_only ?_ ?_
    | with_reducible refine fwPut_only ?_ (subset_sub hP (by decide))
    | with_reducible refine journal_only ?_ (subset_sub hP (by decide))
    | with_reducible refine updateAnswer_only_eq ?_ (subset_sub hP (by decide)) (by assumption)
    | with_reducible refine updateAnswer_only ?_ (subset_sub hP (by decide))
    | with_reducible refine modBoot_only ?_ (subset_sub hP (by decide))
    | (extract_lets +onlyGivenNames -underBinder x; refine cut_only (ps := pl) (s := sb) (a := x) ?_ ?_; unfold x; rotate_left; clear_value x; intro hx)
    | (extract_lets +onlyGivenNames -underBinder x; (try unfold x); clear x)
theorem updateVerify_only_eq {s : State} {w : OdSrc} {x : Ext} {ra : State} {rb : Nat} (hO : Within pl sb s) (hP : [.ctl, .alm, .boot] ⊆ pl) (hE : updateVerify s w x = (ra, rb)) : Within pl sb ra := by
  have k : Holds (InFst pl sb) (updateVerify s w x) := updateVerify_holds (s := s) (w := w) (x := x) hO hP
  rw [hE] at k; exact k.of
theorem updateVerify_only {s : State} {w : OdSrc} {x : Ext} (hO : Within pl sb s) (hP : [.ctl, .alm, .boot] ⊆ pl) : Within pl sb (updateVerify s w x).1 := (updateVerify_holds (s := s) (w := w) (x := x) hO hP).of

theorem updateCancel_holds {s : State} {w : OdSrc} (hO : Within pl sb s) (hP : [.ctl, .alm] ⊆ pl) : Holds (InFst pl sb) (updateCancel s w) := by
  unfold updateCancel
  repeat' first
    | with_reducible refine leaf_fst ?_
    | with_reducible assumption
    | with_reducible refine fwPut_only ?_ (subset_sub hP (by decide))
    | with_reducible refine journal_only ?_ (subset_sub hP (by decide))
    | with_reducible refine updateAnswer_only_eq ?_ (subset_sub hP (by decide)) (by assumption)
    | with_reducible refine updateAnswer_only ?_ (subset_sub hP (by decide))
theorem updateCancel_only_eq {s : State} {w : OdSrc} {ra : State} {rb : Nat} (hO : Within pl sb s) (hP : [.ctl, .alm] ⊆ pl) (hE : updateCancel s w = (ra, rb)) : Within pl sb ra := by
  have k : Holds (InFst pl sb) (updateCancel s w) := updateCancel_holds (s := s) (w := w) hO hP
  rw [hE] at k; exact k.of
theorem updateCancel_only {s : State} {w : OdSrc} (hO : Within pl sb s) (hP : [.ctl, .alm] ⊆ pl) : Within pl sb (updateCancel s w).1 := (updateCancel_holds (s := s) (w := w) hO hP).of

end Sys2Proof.Machine
end

