-- ==== Sys2Proof/Laws/FrameAlm.lean ====
section
/-! SUPPORT. What each function of Machine/Alm.lean can do to the state as a whole: the parts it can change; the queue, the population and the
canonical forms it keeps. `f_only` speaks of the state that `f` answers, `f_holds` of a state inside its answer, `f_only_eq` of one taken out. -/

-- One declaration at a time: thousands of proofs in flight at once ask for more threads than fit in memory.
set_option Elab.async false

set_option linter.unusedTactic false
set_option linter.unreachableTactic false
set_option linter.unusedVariables false
set_option linter.unusedSimpArgs false
namespace Sys2Proof.Machine
open Sys2Proof
variable {pl : List Part} {sb : State}

theorem mgtEvent_only {s : State} {code : Nat} {payload : List Nat} (hO : Within pl sb s) (hP : [.out, .regs, .ctl, .mgt, .alm, .tel] ⊆ pl) : Within pl sb (mgtEvent s code payload) := by
  unfold mgtEvent
  repeat' first
    | with_reducible assumption
    | with_reducible refine raisePf_only ?_ (subset_sub hP (by decide))

theorem execAlmanacGroupStart_holds {s : State} (hO : Within pl sb s) (hP : [.ctl, .alm] ⊆ pl) : Holds (InNext pl sb) (execAlmanacGroupStart s) := by
  unfold execAlmanacGroupStart
  repeat' first
    | with_reducible refine leaf_next ?_
    | with_reducible assumption
    | with_reducible refine ite_only ?_ ?_
    | with_reducible refine foldl_only ?_ fun _ _ _ => ?_
    | with_reducible refine modAlm_only ?_ (subset_sub hP (by decide))
    | with_reducible refine modCtl_only ?_ (subset_sub hP (by decide))
theorem execAlmanacGroupStart_only {s : State} {t : State} (hO : Within pl sb s) (hP : [.ctl, .alm] ⊆ pl) (hE : execAlmanacGroupStart s = .next t) : Within pl sb t := by
  have k : Holds (InNext pl sb) (execAlmanacGroupStart s) := execAlmanacGroupStart_holds (s := s) hO hP
  rw [hE] at k; exact k.of

theorem writeBank_only {s : State} (hO : Within pl sb s) (hP : [.alm] ⊆ pl) : Within pl sb (writeBank s) := by
  unfold writeBank
  repeat' first
    | with_reducible assumption
    | with_reducible refine ite_only ?_ ?_
    | with_reducible refine modAlm_only ?_ (subset_sub hP (by decide))
    | (extract_lets +onlyGivenNames -underBinder x; refine cut_only (ps := pl) (s := sb) (a := x) ?_ ?_; unfold x; rotate_left; clear_value x; intro hx)
    | (extract_lets +onlyGivenNames -underBinder x; (try unfold x); clear x)

theorem reportRemaps_only {s : State} (hO : Within pl sb s) (hP : [.out, .regs, .ctl, .mgt, .alm, .tel, .ras] ⊆ pl) : Within pl sb (reportRemaps s) := by
  unfold reportRemaps
  repeat' first
    | with_reducible assumption
    | with_reducible refine foldl_only ?_ fun _ _ _ => ?_
    | with_reducible refine rasEvent_only ?_ (subset_sub hP (by decide))
    | with_reducible refine modRas_only ?_ (subset_sub hP (by decide))
    | (extract_lets +onlyGivenNames -underBinder x; refine cut_only (ps := pl) (s := sb) (a := x) ?_ ?_; unfold x; rotate_left; clear_value x; intro hx)
    | (extract_lets +onlyGivenNames -underBinder x; (try unfold x); clear x)

theorem answerStored_only {s : State} {err : Nat} (hO : Within pl sb s) (hP : [.out, .regs, .ctl, .mgt] ⊆ pl) : Within pl sb (answerStored s err) := by
  unfold answerStored
  repeat' first
    | with_reducible assumption
    | with_reducible refine foldl_only ?_ fun _ _ _ => ?_
    | with_reducible refine odAnswer_only ?_ (subset_sub hP (by decide))
    | with_reducible refine modCtl_only ?_ (subset_sub hP (by decide))

theorem execAlmanacGroupDone_holds {fail : Option Nat} {s : State} (hO : Within pl sb s) (hP : [.out, .regs, .ctl, .mgt, .alm, .tel, .ras] ⊆ pl) : Holds (InNext pl sb) (execAlmanacGroupDone fail s) := by
  unfold execAlmanacGroupDone
  repeat' first
    | with_reducible refine leaf_next ?_
    | with_reducible assumption
    | with_reducible refine ite_only ?_ ?_
    | with_reducible refine foldl_only ?_ fun _ _ _ => ?_
    | with_reducible refine answerStored_only ?_ (subset_sub hP (by decide))
    | with_reducible refine mgtEvent_only ?_ (subset_sub hP (by decide))
    | with_reducible refine odCount_only ?_ (subset_sub hP (by decide))
    | with_reducible refine reportRemaps_only ?_ (subset_sub hP (by decide))
    | with_reducible refine writeBank_only ?_ (subset_sub hP (by decide))
    | with_reducible refine modAlm_only ?_ (subset_sub hP (by decide))
    | (extract_lets +onlyGivenNames -underBinder x; refine cut_only (ps := pl) (s := sb) (a := x) ?_ ?_; unfold x; rotate_left; clear_value x; intro hx)
    | (extract_lets +onlyGivenNames -underBinder x; (try unfold x); clear x)
    | split
theorem execAlmanacGroupDone_only {fail : Option Nat} {s : State} {t : State} (hO : Within pl sb s) (hP : [.out, .regs, .ctl, .mgt, .alm, .tel, .ras] ⊆ pl) (hE : execAlmanacGroupDone fail s = .next t) : Within pl sb t := by
  have k : Holds (InNext pl sb) (execAlmanacGroupDone fail s) := execAlmanacGroupDone_holds (fail := fail) (s := s) hO hP
  rw [hE] at k; exact k.of

theorem writeNotes_holds {s : State} {data : List Byte} {ok : Bool} (hO : Within pl sb s) (hP : [.alm] ⊆ pl) : Holds (InFst pl sb) (writeNotes s data ok) := by
  unfold writeNotes
  repeat' first
    | with_reducible refine ite_holds ?_ ?_
    | with_reducible refine leaf_fst ?_
    | with_reducible assumption
    | with_reducible refine ite_only ?_ ?_
    | with_reducible refine modAlm_only ?_ (subset_sub hP (by decide))
theorem writeNotes_only_eq {s : State} {data : List Byte} {ok : Bool} {ra : State} {rb : Nat} (hO : Within pl sb s) (hP : [.alm] ⊆ pl) (hE : writeNotes s data ok = (ra, rb)) : Within pl sb ra := by
  have k : Holds (InFst pl sb) (writeNotes s data ok) := writeNotes_holds (s := s) (data := data) (ok := ok) hO hP
  rw [hE] at k; exact k.of
theorem writeNotes_only {s : State} {data : List Byte} {ok : Bool} (hO : Within pl sb s) (hP : [.alm] ⊆ pl) : Within pl sb (writeNotes s data ok).1 := (writeNotes_holds (s := s) (data := data) (ok := ok) hO hP).of

theorem clearFaultLog_only {s : State} (hO : Within pl sb s) (hP : [.alm] ⊆ pl) : Within pl sb (clearFaultLog s) := by
  unfold clearFaultLog
  repeat' first
    | with_reducible assumption
    | with_reducible refine ite_only ?_ ?_
    | with_reducible refine foldl_only ?_ fun _ _ _ => ?_
    | with_reducible refine modAlm_only ?_ (subset_sub hP (by decide))
    | (extract_lets +onlyGivenNames -underBinder x; refine cut_only (ps := pl) (s := sb) (a := x) ?_ ?_; unfold x; rotate_left; clear_value x; intro hx)
    | (extract_lets +onlyGivenNames -underBinder x; (try unfold x); clear x)

theorem nfcAnswer_only {s : State} {flags : Nat} {bs : List Byte} (hO : Within pl sb s) (hP : [.out] ⊆ pl) : Within pl sb (nfcAnswer s flags bs) := by
  unfold nfcAnswer
  repeat' first
    | with_reducible assumption
    | with_reducible refine emit_only ?_ (subset_sub hP (by decide))

theorem nfcError_only {s : State} {code : Nat} (hO : Within pl sb s) (hP : [.out] ⊆ pl) : Within pl sb (nfcError s code) := by
  unfold nfcError
  repeat' first
    | with_reducible assumption
    | with_reducible refine nfcAnswer_only ?_ (subset_sub hP (by decide))

theorem execNfcInventory_holds {n mask : Nat} {s : State} (hO : Within pl sb s) (hP : [.out] ⊆ pl) : Holds (InNext pl sb) (execNfcInventory n mask s) := by
  unfold execNfcInventory
  repeat' first
    | with_reducible refine leaf_next ?_
    | with_reducible assumption
    | with_reducible refine ite_only ?_ ?_
    | with_reducible refine nfcAnswer_only ?_ (subset_sub hP (by decide))
theorem execNfcInventory_only {n mask : Nat} {s : State} {t : State} (hO : Within pl sb s) (hP : [.out] ⊆ pl) (hE : execNfcInventory n mask s = .next t) : Within pl sb t := by
  have k : Holds (InNext pl sb) (execNfcInventory n mask s) := execNfcInventory_holds (n := n) (mask := mask) (s := s) hO hP
  rw [hE] at k; exact k.of

theorem execNfcStayQuiet_holds {uid : Nat} {s : State} (hO : Within pl sb s) (hP : [.alm] ⊆ pl) : Holds (InNext pl sb) (execNfcStayQuiet uid s) := by
  unfold execNfcStayQuiet
  repeat' first
    | with_reducible refine leaf_next ?_
    | with_reducible assumption
    | with_reducible refine ite_only ?_ ?_
    | with_reducible refine modAlm_only ?_ (subset_sub hP (by decide))
theorem execNfcStayQuiet_only {uid : Nat} {s : State} {t : State} (hO : Within pl sb s) (hP : [.alm] ⊆ pl) (hE : execNfcStayQuiet uid s = .next t) : Within pl sb t := by
  have k : Holds (InNext pl sb) (execNfcStayQuiet uid s) := execNfcStayQuiet_holds (uid := uid) (s := s) hO hP
  rw [hE] at k; exact k.of

theorem execNfcSelect_holds {uid : Nat} {s : State} (hO : Within pl sb s) (hP : [.out, .alm] ⊆ pl) : Holds (InNext pl sb) (execNfcSelect uid s) := by
  unfold execNfcSelect
  repeat' first
    | with_reducible refine leaf_next ?_
    | with_reducible assumption
    | with_reducible refine ite_only ?_ ?_
    | with_reducible refine nfcAnswer_only ?_ (subset_sub hP (by decide))
    | with_reducible refine modAlm_only ?_ (subset_sub hP (by decide))
theorem execNfcSelect_only {uid : Nat} {s : State} {t : State} (hO : Within pl sb s) (hP : [.out, .alm] ⊆ pl) (hE : execNfcSelect uid s = .next t) : Within pl sb t := by
  have k : Holds (InNext pl sb) (execNfcSelect uid s) := execNfcSelect_holds (uid := uid) (s := s) hO hP
  rw [hE] at k; exact k.of

theorem execNfcResetToReady_holds {who : NfcTo} {s : State} (hO : Within pl sb s) (hP : [.out, .alm] ⊆ pl) : Holds (InNext pl sb) (execNfcResetToReady who s) := by
  unfold execNfcResetToReady
  repeat' first
    | with_reducible refine leaf_next ?_
    | with_reducible assumption
    | with_reducible refine ite_only ?_ ?_
    | with_reducible refine nfcAnswer_only ?_ (subset_sub hP (by decide))
    | with_reducible refine modAlm_only ?_ (subset_sub hP (by decide))
theorem execNfcResetToReady_only {who : NfcTo} {s : State} {t : State} (hO : Within pl sb s) (hP : [.out, .alm] ⊆ pl) (hE : execNfcResetToReady who s = .next t) : Within pl sb t := by
  have k : Holds (InNext pl sb) (execNfcResetToReady who s) := execNfcResetToReady_holds (who := who) (s := s) hO hP
  rw [hE] at k; exact k.of

theorem execNfcGetSystemInfo_holds {who : NfcTo} {extended : Bool} {s : State} (hO : Within pl sb s) (hP : [.out] ⊆ pl) : Holds (InNext pl sb) (execNfcGetSystemInfo who extended s) := by
  unfold execNfcGetSystemInfo
  repeat' first
    | with_reducible refine leaf_next ?_
    | with_reducible assumption
    | with_reducible refine ite_only ?_ ?_
    | with_reducible refine nfcAnswer_only ?_ (subset_sub hP (by decide))
theorem execNfcGetSystemInfo_only {who : NfcTo} {extended : Bool} {s : State} {t : State} (hO : Within pl sb s) (hP : [.out] ⊆ pl) (hE : execNfcGetSystemInfo who extended s = .next t) : Within pl sb t := by
  have k : Holds (InNext pl sb) (execNfcGetSystemInfo who extended s) := execNfcGetSystemInfo_holds (who := who) (extended := extended) (s := s) hO hP
  rw [hE] at k; exact k.of

theorem execNfcReadBlocks_holds {who : NfcTo} {first count : Nat} {s : State} (hO : Within pl sb s) (hP : [.out] ⊆ pl) : Holds (InNext pl sb) (execNfcReadBlocks who first count s) := by
  unfold execNfcReadBlocks
  repeat' first
    | with_reducible refine leaf_next ?_
    | with_reducible assumption
    | with_reducible refine ite_only ?_ ?_
    | with_reducible refine nfcAnswer_only ?_ (subset_sub hP (by decide))
    | with_reducible refine nfcError_only ?_ (subset_sub hP (by decide))
theorem execNfcReadBlocks_only {who : NfcTo} {first count : Nat} {s : State} {t : State} (hO : Within pl sb s) (hP : [.out] ⊆ pl) (hE : execNfcReadBlocks who first count s = .next t) : Within pl sb t := by
  have k : Holds (InNext pl sb) (execNfcReadBlocks who first count s) := execNfcReadBlocks_holds (who := who) (first := first) (count := count) (s := s) hO hP
  rw [hE] at k; exact k.of

theorem execNfcWriteBlock_holds {who : NfcTo} {block : Nat} {data : List Byte} {s : State} (hO : Within pl sb s) (hP : [.out, .regs, .ctl, .mgt, .alm, .tel] ⊆ pl) : Holds (InNext pl sb) (execNfcWriteBlock who block data s) := by
  unfold execNfcWriteBlock
  repeat' first
    | with_reducible refine leaf_next ?_
    | with_reducible assumption
    | with_reducible refine ite_only ?_ ?_
    | with_reducible refine mgtEvent_only ?_ (subset_sub hP (by decide))
    | with_reducible refine nfcAnswer_only ?_ (subset_sub hP (by decide))
    | with_reducible refine nfcError_only ?_ (subset_sub hP (by decide))
    | with_reducible refine odCount_only ?_ (subset_sub hP (by decide))
    | with_reducible refine modAlm_only ?_ (subset_sub hP (by decide))
    | (extract_lets +onlyGivenNames -underBinder x; refine cut_only (ps := pl) (s := sb) (a := x) ?_ ?_; unfold x; rotate_left; clear_value x; intro hx)
    | (extract_lets +onlyGivenNames -underBinder x; (try unfold x); clear x)
theorem execNfcWriteBlock_only {who : NfcTo} {block : Nat} {data : List Byte} {s : State} {t : State} (hO : Within pl sb s) (hP : [.out, .regs, .ctl, .mgt, .alm, .tel] ⊆ pl) (hE : execNfcWriteBlock who block data s = .next t) : Within pl sb t := by
  have k : Holds (InNext pl sb) (execNfcWriteBlock who block data s) := execNfcWriteBlock_holds (who := who) (block := block) (data := data) (s := s) hO hP
  rw [hE] at k; exact k.of

theorem execNfcUnsupported_holds {who : NfcTo} {s : State} (hO : Within pl sb s) (hP : [.out] ⊆ pl) : Holds (InNext pl sb) (execNfcUnsupported who s) := by
  unfold execNfcUnsupported
  repeat' first
    | with_reducible refine leaf_next ?_
    | with_reducible assumption
    | with_reducible refine ite_only ?_ ?_
    | with_reducible refine nfcError_only ?_ (subset_sub hP (by decide))
theorem execNfcUnsupported_only {who : NfcTo} {s : State} {t : State} (hO : Within pl sb s) (hP : [.out] ⊆ pl) (hE : execNfcUnsupported who s = .next t) : Within pl sb t := by
  have k : Holds (InNext pl sb) (execNfcUnsupported who s) := execNfcUnsupported_holds (who := who) (s := s) hO hP
  rw [hE] at k; exact k.of

theorem execNfcFieldOn_holds {s : State} (hO : Within pl sb s) (hP : [.alm] ⊆ pl) : Holds (InNext pl sb) (execNfcFieldOn s) := by
  unfold execNfcFieldOn
  repeat' first
    | with_reducible refine leaf_next ?_
    | with_reducible assumption
    | with_reducible refine modAlm_only ?_ (subset_sub hP (by decide))
theorem execNfcFieldOn_only {s : State} {t : State} (hO : Within pl sb s) (hP : [.alm] ⊆ pl) (hE : execNfcFieldOn s = .next t) : Within pl sb t := by
  have k : Holds (InNext pl sb) (execNfcFieldOn s) := execNfcFieldOn_holds (s := s) hO hP
  rw [hE] at k; exact k.of

theorem execNfcFieldOff_holds {s : State} (hO : Within pl sb s) (hP : [.alm] ⊆ pl) : Holds (InNext pl sb) (execNfcFieldOff s) := by
  unfold execNfcFieldOff
  repeat' first
    | with_reducible refine leaf_next ?_
    | with_reducible assumption
    | with_reducible refine modAlm_only ?_ (subset_sub hP (by decide))
theorem execNfcFieldOff_only {s : State} {t : State} (hO : Within pl sb s) (hP : [.alm] ⊆ pl) (hE : execNfcFieldOff s = .next t) : Within pl sb t := by
  have k : Holds (InNext pl sb) (execNfcFieldOff s) := execNfcFieldOff_holds (s := s) hO hP
  rw [hE] at k; exact k.of

end Sys2Proof.Machine
end

