-- ==== Sys2Proof/Laws/FrameOd.lean ====
section
/-! SUPPORT. What each function of Machine/Od.lean can do to the state as a whole: the parts it can change; the queue, the population and the
canonical forms it keeps. `f_only` speaks of the state that `f` answers, `f_holds` of a state inside its answer, `f_only_eq` of one taken out. -/

-- One declaration at a time: thousands of proofs in flight at once ask for more threads than fit in memory.
set_option Elab.async false

set_option linter.unusedTactic false
set_option linter.unreachableTactic false
set_option linter.unusedVariables false
set_option linter.unusedSimpArgs false
namespace Sys2Proof.Machine
open Sys2Proof
variable {pl : List Part} {sb : State}

theorem odRead_holds {s : State} {w : OdSrc} {idx sub : Nat} (hO : Within pl sb s) (hP : [.freeCount, .ctl] ⊆ pl) : Holds (InFst pl sb) (odRead s w idx sub) := by
  unfold odRead
  repeat' first
    | with_reducible refine ite_holds ?_ ?_
    | with_reducible refine leaf_fst ?_
    | with_reducible assumption
    | with_reducible refine ite_only ?_ ?_
    | with_reducible refine odSet_only ?_ (subset_sub hP (by decide))
    | with_reducible refine readAudit_only_eq ?_ (subset_sub hP (by decide)) (by assumption)
    | with_reducible refine readAudit_only ?_ (subset_sub hP (by decide))
    | with_reducible refine readChallenge_only_eq ?_ (subset_sub hP (by decide)) (by assumption)
    | with_reducible refine readChallenge_only ?_ (subset_sub hP (by decide))
    | (extract_lets +onlyGivenNames -underBinder x; refine cut_only (ps := pl) (s := sb) (a := x) ?_ ?_; unfold x; rotate_left; clear_value x; intro hx)
    | (extract_lets +onlyGivenNames -underBinder x; (try unfold x); clear x)
    | split
theorem odRead_only_eq {s : State} {w : OdSrc} {idx sub : Nat} {ra : State} {rb : Nat} {rc : List Byte} (hO : Within pl sb s) (hP : [.freeCount, .ctl] ⊆ pl) (hE : odRead s w idx sub = (ra, rb, rc)) : Within pl sb ra := by
  have k : Holds (InFst pl sb) (odRead s w idx sub) := odRead_holds (s := s) (w := w) (idx := idx) (sub := sub) hO hP
  rw [hE] at k; exact k.of
theorem odRead_only {s : State} {w : OdSrc} {idx sub : Nat} (hO : Within pl sb s) (hP : [.freeCount, .ctl] ⊆ pl) : Within pl sb (odRead s w idx sub).1 := (odRead_holds (s := s) (w := w) (idx := idx) (sub := sub) hO hP).of

theorem odAccept_holds {s : State} {w : OdSrc} {idx sub : Nat} {data : List Byte} (hO : Within pl sb s) (hP : [.ptns, .ctl] ⊆ pl) : Holds (InFst pl sb) (odAccept s w idx sub data) := by
  unfold odAccept
  repeat' first
    | with_reducible refine ite_holds ?_ ?_
    | with_reducible refine leaf_fst ?_
    | with_reducible assumption
    | with_reducible refine ite_only ?_ ?_
    | with_reducible refine modPtn_only ?_ (subset_sub hP (by decide))
    | with_reducible refine odSet_only ?_ (subset_sub hP (by decide))
    | (extract_lets +onlyGivenNames -underBinder x; refine cut_only (ps := pl) (s := sb) (a := x) ?_ ?_; unfold x; rotate_left; clear_value x; intro hx)
    | (extract_lets +onlyGivenNames -underBinder x; (try unfold x); clear x)
theorem odAccept_only_eq {s : State} {w : OdSrc} {idx sub : Nat} {data : List Byte} {ra : State} {rb : Nat} (hO : Within pl sb s) (hP : [.ptns, .ctl] ⊆ pl) (hE : odAccept s w idx sub data = (ra, rb)) : Within pl sb ra := by
  have k : Holds (InFst pl sb) (odAccept s w idx sub data) := odAccept_holds (s := s) (w := w) (idx := idx) (sub := sub) (data := data) hO hP
  rw [hE] at k; exact k.of
theorem odAccept_only {s : State} {w : OdSrc} {idx sub : Nat} {data : List Byte} (hO : Within pl sb s) (hP : [.ptns, .ctl] ⊆ pl) : Within pl sb (odAccept s w idx sub data).1 := (odAccept_holds (s := s) (w := w) (idx := idx) (sub := sub) (data := data) hO hP).of

theorem odJournal_only {s : State} {a : Audit} {err : Nat} (hO : Within pl sb s) (hP : [.ctl, .alm] ⊆ pl) : Within pl sb (odJournal s a err) := by
  unfold odJournal
  repeat' first
    | with_reducible assumption
    | with_reducible refine ite_only ?_ ?_
    | with_reducible refine journal_only ?_ (subset_sub hP (by decide))

theorem odLose_only {s : State} {o : OdPend} (hO : Within pl sb s) (hP : [.out, .regs, .ptns, .ctl, .mgt, .alm] ⊆ pl) : Within pl sb (odLose s o) := by
  unfold odLose
  repeat' first
    | with_reducible assumption
    | with_reducible refine ite_only ?_ ?_
    | with_reducible refine journal_only ?_ (subset_sub hP (by decide))
    | with_reducible refine modPtn_only ?_ (subset_sub hP (by decide))
    | with_reducible refine odAnswer_only ?_ (subset_sub hP (by decide))
    | (extract_lets +onlyGivenNames -underBinder x; refine cut_only (ps := pl) (s := sb) (a := x) ?_ ?_; unfold x; rotate_left; clear_value x; intro hx)
    | (extract_lets +onlyGivenNames -underBinder x; (try unfold x); clear x)

theorem writeFence_holds {s : State} {w : OdSrc} {p : Nat} (hO : Within pl sb s) (hP : [.out, .freeCount, .regs, .cons, .eph, .work, .tabs, .mem, .serve, .fab, .px, .ptns, .ctl, .mgt, .alm, .tel] ⊆ pl) : Holds (InFst pl sb) (writeFence s w p) := by
  unfold writeFence
  repeat' first
    | with_reducible refine ite_holds ?_ ?_
    | with_reducible refine leaf_fst ?_
    | with_reducible assumption
    | with_reducible refine ite_only ?_ ?_
    | with_reducible refine foldl_only ?_ fun _ _ _ => ?_
    | with_reducible refine odLose_only ?_ (subset_sub hP (by decide))
    | with_reducible refine ptnCommand_only_eq ?_ (subset_sub hP (by decide)) (by assumption)
    | with_reducible refine ptnCommand_only ?_ (subset_sub hP (by decide))
    | with_reducible refine modCtl_only ?_ (subset_sub hP (by decide))
    | (extract_lets +onlyGivenNames -underBinder x; refine cut_only (ps := pl) (s := sb) (a := x) ?_ ?_; unfold x; rotate_left; clear_value x; intro hx)
    | (extract_lets +onlyGivenNames -underBinder x; (try unfold x); clear x)
    | split
theorem writeFence_only_eq {s : State} {w : OdSrc} {p : Nat} {ra : State} {rb : Nat} (hO : Within pl sb s) (hP : [.out, .freeCount, .regs, .cons, .eph, .work, .tabs, .mem, .serve, .fab, .px, .ptns, .ctl, .mgt, .alm, .tel] ⊆ pl) (hE : writeFence s w p = (ra, rb)) : Within pl sb ra := by
  have k : Holds (InFst pl sb) (writeFence s w p) := writeFence_holds (s := s) (w := w) (p := p) hO hP
  rw [hE] at k; exact k.of
theorem writeFence_only {s : State} {w : OdSrc} {p : Nat} (hO : Within pl sb s) (hP : [.out, .freeCount, .regs, .cons, .eph, .work, .tabs, .mem, .serve, .fab, .px, .ptns, .ctl, .mgt, .alm, .tel] ⊆ pl) : Within pl sb (writeFence s w p).1 := (writeFence_holds (s := s) (w := w) (p := p) hO hP).of

theorem writeCons_only {s : State} {p : Nat} {data : List Byte} (hO : Within pl sb s) (hP : [.cons, .work, .mem, .ptns] ⊆ pl) : Within pl sb (writeCons s p data) := by
  unfold writeCons
  repeat' first
    | with_reducible assumption
    | with_reducible refine ite_only ?_ ?_
    | with_reducible refine foldl_only ?_ fun _ _ _ => ?_
    | with_reducible refine joinCon_only ?_ (subset_sub hP (by decide))
    | with_reducible refine modPtn_only ?_ (subset_sub hP (by decide))
    | with_reducible refine restIdle_only ?_ (subset_sub hP (by decide))
    | (extract_lets +onlyGivenNames -underBinder x; refine cut_only (ps := pl) (s := sb) (a := x) ?_ ?_; unfold x; rotate_left; clear_value x; intro hx)
    | (extract_lets +onlyGivenNames -underBinder x; (try unfold x); clear x)

theorem odEffect_holds {s : State} {w : OdSrc} {idx sub : Nat} {data : List Byte} {x : Ext} (h : Within pl sb s) (hp : [.out, .freeCount, .regs, .cons, .eph, .work, .tabs, .mem, .serve, .fab, .px, .ptns, .ctl, .mgt, .alm, .tel, .ras, .boot] ⊆ pl) :
    Holds (InFst pl sb) (odEffect s w idx sub data x) := by
  unfold odEffect
  extract_lets v p r
  refine ite_holds (writeFence_holds h (subset_sub hp (by decide))) (ite_holds (leaf_fst (writeCons_only h (subset_sub hp (by decide))))
    (ite_holds (leaf_fst (modPtn_only h (subset_sub hp (by decide)))) (ite_holds (leaf_fst (tableSupply_only h (subset_sub hp (by decide))))
    (ite_holds (leaf_fst (lockError_only (odSet_only h (subset_sub hp (by decide))) (subset_sub hp (by decide)))) ?_))))
  split
  · exact leaf_fst (almQueue_only h (subset_sub hp (by decide)))
  · exact writeResponse_holds h (subset_sub hp (by decide))
  · exact leaf_fst (ite_only h (dropRole_only h (subset_sub hp (by decide))))
  · exact writeKey_holds h (subset_sub hp (by decide))
  · exact leaf_fst (odSet_only (modCtl_only h (subset_sub hp (by decide))) (subset_sub hp (by decide)))
  · exact updateData_holds h (subset_sub hp (by decide))
  · exact ite_holds (updateBegin_holds h (subset_sub hp (by decide))) (ite_holds (updateVerify_holds h (subset_sub hp (by decide))) (updateCancel_holds h (subset_sub hp (by decide))))
  · exact writeReadmit_holds h (subset_sub hp (by decide))
  · exact writeDrills_holds h (subset_sub hp (by decide))
  · exact nfCommand_holds h (subset_sub hp (by decide))
  · exact writeCoeffs_holds h (subset_sub hp (by decide))
  · exact leaf_fst (ite_only (snapshot_only h (subset_sub hp (by decide))) h)
  · exact leaf_fst (ite_only (clearFaultLog_only h (subset_sub hp (by decide))) h)
  · exact leaf_fst (modCtl_only h (subset_sub hp (by decide)))
  · exact leaf_fst (modCtl_only h (subset_sub hp (by decide)))
  · exact writeNotes_holds h (subset_sub hp (by decide))
  · exact ite_holds (leaf_fst (almQueue_only h (subset_sub hp (by decide)))) (leaf_fst (odSet_only h (subset_sub hp (by decide))))

theorem odEffect_only {s : State} {w : OdSrc} {idx sub : Nat} {data : List Byte} {x : Ext} (h : Within pl sb s) (hp : [.out, .freeCount, .regs, .cons, .eph, .work, .tabs, .mem, .serve, .fab, .px, .ptns, .ctl, .mgt, .alm, .tel, .ras, .boot] ⊆ pl) :
    Within pl sb (odEffect s w idx sub data x).1 := (odEffect_holds h hp).of

theorem odEffect_only_eq {s : State} {w : OdSrc} {idx sub : Nat} {data : List Byte} {x : Ext} {ra : State} {rb : Nat} (h : Within pl sb s)
    (hp : [.out, .freeCount, .regs, .cons, .eph, .work, .tabs, .mem, .serve, .fab, .px, .ptns, .ctl, .mgt, .alm, .tel, .ras, .boot] ⊆ pl) (e : odEffect s w idx sub data x = (ra, rb)) : Within pl sb ra := by
  have k := odEffect_only (w := w) (idx := idx) (sub := sub) (data := data) (x := x) h hp
  rw [e] at k; exact k

theorem odWrite_holds {s : State} {w : OdSrc} {idx sub : Nat} {data : List Byte} {x : Ext} (hO : Within pl sb s) (hP : [.out, .freeCount, .regs, .cons, .eph, .work, .tabs, .mem, .serve, .fab, .px, .ptns, .ctl, .mgt, .alm, .tel, .ras, .boot] ⊆ pl) : Holds (InFst pl sb) (odWrite s w idx sub data x) := by
  unfold odWrite
  repeat' first
    | with_reducible refine ite_holds ?_ ?_
    | with_reducible refine leaf_fst ?_
    | with_reducible assumption
    | with_reducible refine ite_only ?_ ?_
    | with_reducible refine odAccept_only_eq ?_ (subset_sub hP (by decide)) (by assumption)
    | with_reducible refine odAccept_only ?_ (subset_sub hP (by decide))
    | with_reducible refine odEffect_only ?_ (subset_sub hP (by decide))
    | with_reducible refine odJournal_only ?_ (subset_sub hP (by decide))
    | with_reducible refine modCtl_only ?_ (subset_sub hP (by decide))
    | (extract_lets +onlyGivenNames -underBinder x; refine cut_only (ps := pl) (s := sb) (a := x) ?_ ?_; unfold x; rotate_left; clear_value x; intro hx)
    | (extract_lets +onlyGivenNames -underBinder x; (try unfold x); clear x)
    | split
theorem odWrite_only_eq {s : State} {w : OdSrc} {idx sub : Nat} {data : List Byte} {x : Ext} {ra : State} {rb : Option Nat} (hO : Within pl sb s) (hP : [.out, .freeCount, .regs, .cons, .eph, .work, .tabs, .mem, .serve, .fab, .px, .ptns, .ctl, .mgt, .alm, .tel, .ras, .boot] ⊆ pl) (hE : odWrite s w idx sub data x = (ra, rb)) : Within pl sb ra := by
  have k : Holds (InFst pl sb) (odWrite s w idx sub data x) := odWrite_holds (s := s) (w := w) (idx := idx) (sub := sub) (data := data) (x := x) hO hP
  rw [hE] at k; exact k.of
theorem odWrite_only {s : State} {w : OdSrc} {idx sub : Nat} {data : List Byte} {x : Ext} (hO : Within pl sb s) (hP : [.out, .freeCount, .regs, .cons, .eph, .work, .tabs, .mem, .serve, .fab, .px, .ptns, .ctl, .mgt, .alm, .tel, .ras, .boot] ⊆ pl) : Within pl sb (odWrite s w idx sub data x).1 := (odWrite_holds (s := s) (w := w) (idx := idx) (sub := sub) (data := data) (x := x) hO hP).of

theorem dropRrc_only {s : State} {p : Nat} (hO : Within pl sb s) (hP : [.mem, .fab] ⊆ pl) : Within pl sb (dropRrc s p) := by
  unfold dropRrc
  repeat' first
    | with_reducible assumption
    | with_reducible refine freeTiles_only ?_ (subset_sub hP (by decide))
    | with_reducible refine modFab_only ?_ (subset_sub hP (by decide))
    | (extract_lets +onlyGivenNames -underBinder x; refine cut_only (ps := pl) (s := sb) (a := x) ?_ ?_; unfold x; rotate_left; clear_value x; intro hx)
    | (extract_lets +onlyGivenNames -underBinder x; (try unfold x); clear x)
    | split

theorem odApply_holds {s : State} {o : OdPend} (hO : Within pl sb s) (hP : [.out, .freeCount, .regs, .cons, .eph, .work, .tabs, .mem, .serve, .fab, .px, .ptns, .ctl, .mgt, .alm, .tel, .mer] ⊆ pl) : Holds (InFst pl sb) (odApply s o) := by
  unfold odApply
  repeat' first
    | with_reducible refine ite_holds ?_ ?_
    | with_reducible refine leaf_fst ?_
    | with_reducible assumption
    | with_reducible refine ite_only ?_ ?_
    | with_reducible refine dropRrc_only ?_ (subset_sub hP (by decide))
    | with_reducible refine modPtn_only ?_ (subset_sub hP (by decide))
    | with_reducible refine odSet_only ?_ (subset_sub hP (by decide))
    | with_reducible refine ppsInChanged_only ?_ (subset_sub hP (by decide))
    | with_reducible refine ptnCommand_only_eq ?_ (subset_sub hP (by decide)) (by assumption)
    | with_reducible refine ptnCommand_only ?_ (subset_sub hP (by decide))
    | with_reducible refine putRoutes_only ?_ (subset_sub hP (by decide))
    | with_reducible refine retireTables_only ?_ (subset_sub hP (by decide))
    | with_reducible refine servoModeChanged_only ?_ (subset_sub hP (by decide))
    | with_reducible refine modFab_only ?_ (subset_sub hP (by decide))
    | (extract_lets +onlyGivenNames -underBinder x; refine cut_only (ps := pl) (s := sb) (a := x) ?_ ?_; unfold x; rotate_left; clear_value x; intro hx)
    | (extract_lets +onlyGivenNames -underBinder x; (try unfold x); clear x)
theorem odApply_only_eq {s : State} {o : OdPend} {ra : State} {rb : Nat} (hO : Within pl sb s) (hP : [.out, .freeCount, .regs, .cons, .eph, .work, .tabs, .mem, .serve, .fab, .px, .ptns, .ctl, .mgt, .alm, .tel, .mer] ⊆ pl) (hE : odApply s o = (ra, rb)) : Within pl sb ra := by
  have k : Holds (InFst pl sb) (odApply s o) := odApply_holds (s := s) (o := o) hO hP
  rw [hE] at k; exact k.of
theorem odApply_only {s : State} {o : OdPend} (hO : Within pl sb s) (hP : [.out, .freeCount, .regs, .cons, .eph, .work, .tabs, .mem, .serve, .fab, .px, .ptns, .ctl, .mgt, .alm, .tel, .mer] ⊆ pl) : Within pl sb (odApply s o).1 := (odApply_holds (s := s) (o := o) hO hP).of

theorem applyOdPend_only {s : State} (hO : Within pl sb s) (hP : [.out, .freeCount, .regs, .cons, .eph, .work, .tabs, .mem, .serve, .fab, .px, .ptns, .ctl, .mgt, .alm, .tel, .mer] ⊆ pl) : Within pl sb (applyOdPend s) := by
  unfold applyOdPend
  repeat' first
    | with_reducible assumption
    | with_reducible refine ite_only ?_ ?_
    | with_reducible refine foldl_only ?_ fun _ _ _ => ?_
    | with_reducible refine journal_only ?_ (subset_sub hP (by decide))
    | with_reducible refine odAnswer_only ?_ (subset_sub hP (by decide))
    | with_reducible refine odApply_only_eq ?_ (subset_sub hP (by decide)) (by assumption)
    | with_reducible refine odApply_only ?_ (subset_sub hP (by decide))
    | with_reducible refine odJournal_only ?_ (subset_sub hP (by decide))
    | with_reducible refine odLose_only ?_ (subset_sub hP (by decide))
    | with_reducible refine modCtl_only ?_ (subset_sub hP (by decide))
    | (extract_lets +onlyGivenNames -underBinder x; refine cut_only (ps := pl) (s := sb) (a := x) ?_ ?_; unfold x; rotate_left; clear_value x; intro hx)
    | (extract_lets +onlyGivenNames -underBinder x; (try unfold x); clear x)
    | split

theorem odWriteCmd_only {s : State} {w : OdSrc} {idx sub : Nat} {data : List Byte} {x : Ext} (hO : Within pl sb s) (hP : allParts ⊆ pl) : Within pl sb (odWriteCmd s w idx sub data x) := by
  unfold odWriteCmd
  repeat' first
    | with_reducible assumption
    | with_reducible refine ite_only ?_ ?_
    | with_reducible refine bootAgain_only ?_ (subset_sub hP (by decide))
    | with_reducible refine odAnswer_only ?_ (subset_sub hP (by decide))
    | with_reducible refine odWrite_only_eq ?_ (subset_sub hP (by decide)) (by assumption)
    | with_reducible refine modCtl_only ?_ (subset_sub hP (by decide))
    | (extract_lets +onlyGivenNames -underBinder x; refine cut_only (ps := pl) (s := sb) (a := x) ?_ ?_; unfold x; rotate_left; clear_value x; intro hx)
    | (extract_lets +onlyGivenNames -underBinder x; (try unfold x); clear x)
    | split

theorem odReadCmd_only {s : State} {w : OdSrc} {idx sub : Nat} (hO : Within pl sb s) (hP : [.out, .freeCount, .regs, .ctl, .mgt] ⊆ pl) : Within pl sb (odReadCmd s w idx sub) := by
  unfold odReadCmd
  repeat' first
    | with_reducible assumption
    | with_reducible refine ite_only ?_ ?_
    | with_reducible refine odAnswer_only ?_ (subset_sub hP (by decide))
    | with_reducible refine odRead_only_eq ?_ (subset_sub hP (by decide)) (by assumption)
    | with_reducible refine odRead_only ?_ (subset_sub hP (by decide))
    | (extract_lets +onlyGivenNames -underBinder x; refine cut_only (ps := pl) (s := sb) (a := x) ?_ ?_; unfold x; rotate_left; clear_value x; intro hx)
    | (extract_lets +onlyGivenNames -underBinder x; (try unfold x); clear x)

theorem execTableSupply_holds {w : OdSrc} {ptn : Nat} {data : List Byte} {s : State} (hO : Within pl sb s) (hP : allParts ⊆ pl) : Holds (InNext pl sb) (execTableSupply w ptn data s) := by
  unfold execTableSupply
  repeat' first
    | with_reducible refine leaf_next ?_
    | with_reducible assumption
    | with_reducible refine odWriteCmd_only ?_ (subset_sub hP (by decide))
theorem execTableSupply_only {w : OdSrc} {ptn : Nat} {data : List Byte} {s : State} {t : State} (hO : Within pl sb s) (hP : allParts ⊆ pl) (hE : execTableSupply w ptn data s = .next t) : Within pl sb t := by
  have k : Holds (InNext pl sb) (execTableSupply w ptn data s) := execTableSupply_holds (w := w) (ptn := ptn) (data := data) (s := s) hO hP
  rw [hE] at k; exact k.of

theorem execRouteTableLoad_holds {w : OdSrc} {data : List Byte} {s : State} (hO : Within pl sb s) (hP : allParts ⊆ pl) : Holds (InNext pl sb) (execRouteTableLoad w data s) := by
  unfold execRouteTableLoad
  repeat' first
    | with_reducible refine leaf_next ?_
    | with_reducible assumption
    | with_reducible refine odWriteCmd_only ?_ (subset_sub hP (by decide))
theorem execRouteTableLoad_only {w : OdSrc} {data : List Byte} {s : State} {t : State} (hO : Within pl sb s) (hP : allParts ⊆ pl) (hE : execRouteTableLoad w data s = .next t) : Within pl sb t := by
  have k : Holds (InNext pl sb) (execRouteTableLoad w data s) := execRouteTableLoad_holds (w := w) (data := data) (s := s) hO hP
  rw [hE] at k; exact k.of

theorem execWindowTableWrite_holds {w : OdSrc} {ptn : Nat} {data : List Byte} {s : State} (hO : Within pl sb s) (hP : allParts ⊆ pl) : Holds (InNext pl sb) (execWindowTableWrite w ptn data s) := by
  unfold execWindowTableWrite
  repeat' first
    | with_reducible refine leaf_next ?_
    | with_reducible assumption
    | with_reducible refine odWriteCmd_only ?_ (subset_sub hP (by decide))
theorem execWindowTableWrite_only {w : OdSrc} {ptn : Nat} {data : List Byte} {s : State} {t : State} (hO : Within pl sb s) (hP : allParts ⊆ pl) (hE : execWindowTableWrite w ptn data s = .next t) : Within pl sb t := by
  have k : Holds (InNext pl sb) (execWindowTableWrite w ptn data s) := execWindowTableWrite_holds (w := w) (ptn := ptn) (data := data) (s := s) hO hP
  rw [hE] at k; exact k.of

theorem ptnCmdWrite_only {s : State} {w : OdSrc} {ptn cmd : Nat} (hO : Within pl sb s) (hP : allParts ⊆ pl) : Within pl sb (ptnCmdWrite s w ptn cmd) := by
  unfold ptnCmdWrite
  repeat' first
    | with_reducible assumption
    | with_reducible refine odWriteCmd_only ?_ (subset_sub hP (by decide))

theorem execPtnProvision_holds {w : OdSrc} {ptn : Nat} {s : State} (hO : Within pl sb s) (hP : allParts ⊆ pl) : Holds (InNext pl sb) (execPtnProvision w ptn s) := by
  unfold execPtnProvision
  repeat' first
    | with_reducible refine leaf_next ?_
    | with_reducible assumption
    | with_reducible refine ptnCmdWrite_only ?_ (subset_sub hP (by decide))
theorem execPtnProvision_only {w : OdSrc} {ptn : Nat} {s : State} {t : State} (hO : Within pl sb s) (hP : allParts ⊆ pl) (hE : execPtnProvision w ptn s = .next t) : Within pl sb t := by
  have k : Holds (InNext pl sb) (execPtnProvision w ptn s) := execPtnProvision_holds (w := w) (ptn := ptn) (s := s) hO hP
  rw [hE] at k; exact k.of

theorem execPtnActivate_holds {w : OdSrc} {ptn : Nat} {s : State} (hO : Within pl sb s) (hP : allParts ⊆ pl) : Holds (InNext pl sb) (execPtnActivate w ptn s) := by
  unfold execPtnActivate
  repeat' first
    | with_reducible refine leaf_next ?_
    | with_reducible assumption
    | with_reducible refine ptnCmdWrite_only ?_ (subset_sub hP (by decide))
theorem execPtnActivate_only {w : OdSrc} {ptn : Nat} {s : State} {t : State} (hO : Within pl sb s) (hP : allParts ⊆ pl) (hE : execPtnActivate w ptn s = .next t) : Within pl sb t := by
  have k : Holds (InNext pl sb) (execPtnActivate w ptn s) := execPtnActivate_holds (w := w) (ptn := ptn) (s := s) hO hP
  rw [hE] at k; exact k.of

theorem execPtnDrain_holds {w : OdSrc} {ptn : Nat} {s : State} (hO : Within pl sb s) (hP : allParts ⊆ pl) : Holds (InNext pl sb) (execPtnDrain w ptn s) := by
  unfold execPtnDrain
  repeat' first
    | with_reducible refine leaf_next ?_
    | with_reducible assumption
    | with_reducible refine ptnCmdWrite_only ?_ (subset_sub hP (by decide))
theorem execPtnDrain_only {w : OdSrc} {ptn : Nat} {s : State} {t : State} (hO : Within pl sb s) (hP : allParts ⊆ pl) (hE : execPtnDrain w ptn s = .next t) : Within pl sb t := by
  have k : Holds (InNext pl sb) (execPtnDrain w ptn s) := execPtnDrain_holds (w := w) (ptn := ptn) (s := s) hO hP
  rw [hE] at k; exact k.of

theorem execPtnFence_holds {w : OdSrc} {ptn : Nat} {s : State} (hO : Within pl sb s) (hP : allParts ⊆ pl) : Holds (InNext pl sb) (execPtnFence w ptn s) := by
  unfold execPtnFence
  repeat' first
    | with_reducible refine leaf_next ?_
    | with_reducible assumption
    | with_reducible refine ptnCmdWrite_only ?_ (subset_sub hP (by decide))
theorem execPtnFence_only {w : OdSrc} {ptn : Nat} {s : State} {t : State} (hO : Within pl sb s) (hP : allParts ⊆ pl) (hE : execPtnFence w ptn s = .next t) : Within pl sb t := by
  have k : Holds (InNext pl sb) (execPtnFence w ptn s) := execPtnFence_holds (w := w) (ptn := ptn) (s := s) hO hP
  rw [hE] at k; exact k.of

theorem execPtnUnfence_holds {w : OdSrc} {ptn : Nat} {s : State} (hO : Within pl sb s) (hP : allParts ⊆ pl) : Holds (InNext pl sb) (execPtnUnfence w ptn s) := by
  unfold execPtnUnfence
  repeat' first
    | with_reducible refine leaf_next ?_
    | with_reducible assumption
    | with_reducible refine ptnCmdWrite_only ?_ (subset_sub hP (by decide))
theorem execPtnUnfence_only {w : OdSrc} {ptn : Nat} {s : State} {t : State} (hO : Within pl sb s) (hP : allParts ⊆ pl) (hE : execPtnUnfence w ptn s = .next t) : Within pl sb t := by
  have k : Holds (InNext pl sb) (execPtnUnfence w ptn s) := execPtnUnfence_holds (w := w) (ptn := ptn) (s := s) hO hP
  rw [hE] at k; exact k.of

theorem execPtnRelease_holds {w : OdSrc} {ptn : Nat} {s : State} (hO : Within pl sb s) (hP : allParts ⊆ pl) : Holds (InNext pl sb) (execPtnRelease w ptn s) := by
  unfold execPtnRelease
  repeat' first
    | with_reducible refine leaf_next ?_
    | with_reducible assumption
    | with_reducible refine ptnCmdWrite_only ?_ (subset_sub hP (by decide))
theorem execPtnRelease_only {w : OdSrc} {ptn : Nat} {s : State} {t : State} (hO : Within pl sb s) (hP : allParts ⊆ pl) (hE : execPtnRelease w ptn s = .next t) : Within pl sb t := by
  have k : Holds (InNext pl sb) (execPtnRelease w ptn s) := execPtnRelease_holds (w := w) (ptn := ptn) (s := s) hO hP
  rw [hE] at k; exact k.of

theorem execConstellationsWrite_holds {w : OdSrc} {ptn : Nat} {data : List Byte} {s : State} (hO : Within pl sb s) (hP : allParts ⊆ pl) : Holds (InNext pl sb) (execConstellationsWrite w ptn data s) := by
  unfold execConstellationsWrite
  repeat' first
    | with_reducible refine leaf_next ?_
    | with_reducible assumption
    | with_reducible refine odWriteCmd_only ?_ (subset_sub hP (by decide))
theorem execConstellationsWrite_only {w : OdSrc} {ptn : Nat} {data : List Byte} {s : State} {t : State} (hO : Within pl sb s) (hP : allParts ⊆ pl) (hE : execConstellationsWrite w ptn data s = .next t) : Within pl sb t := by
  have k : Holds (InNext pl sb) (execConstellationsWrite w ptn data s) := execConstellationsWrite_holds (w := w) (ptn := ptn) (data := data) (s := s) hO hP
  rw [hE] at k; exact k.of

theorem execRoleChallenge_holds {w : OdSrc} {s : State} (hO : Within pl sb s) (hP : [.out, .freeCount, .regs, .ctl, .mgt] ⊆ pl) : Holds (InNext pl sb) (execRoleChallenge w s) := by
  unfold execRoleChallenge
  repeat' first
    | with_reducible refine leaf_next ?_
    | with_reducible assumption
    | with_reducible refine odReadCmd_only ?_ (subset_sub hP (by decide))
theorem execRoleChallenge_only {w : OdSrc} {s : State} {t : State} (hO : Within pl sb s) (hP : [.out, .freeCount, .regs, .ctl, .mgt] ⊆ pl) (hE : execRoleChallenge w s = .next t) : Within pl sb t := by
  have k : Holds (InNext pl sb) (execRoleChallenge w s) := execRoleChallenge_holds (w := w) (s := s) hO hP
  rw [hE] at k; exact k.of

theorem execRoleResponse_holds {w : OdSrc} {data : List Byte} {ok : Bool} {s : State} (hO : Within pl sb s) (hP : allParts ⊆ pl) : Holds (InNext pl sb) (execRoleResponse w data ok s) := by
  unfold execRoleResponse
  repeat' first
    | with_reducible refine leaf_next ?_
    | with_reducible assumption
    | with_reducible refine odWriteCmd_only ?_ (subset_sub hP (by decide))
theorem execRoleResponse_only {w : OdSrc} {data : List Byte} {ok : Bool} {s : State} {t : State} (hO : Within pl sb s) (hP : allParts ⊆ pl) (hE : execRoleResponse w data ok s = .next t) : Within pl sb t := by
  have k : Holds (InNext pl sb) (execRoleResponse w data ok s) := execRoleResponse_holds (w := w) (data := data) (ok := ok) (s := s) hO hP
  rw [hE] at k; exact k.of

theorem execRoleDrop_holds {w : OdSrc} {s : State} (hO : Within pl sb s) (hP : allParts ⊆ pl) : Holds (InNext pl sb) (execRoleDrop w s) := by
  unfold execRoleDrop
  repeat' first
    | with_reducible refine leaf_next ?_
    | with_reducible assumption
    | with_reducible refine odWriteCmd_only ?_ (subset_sub hP (by decide))
theorem execRoleDrop_only {w : OdSrc} {s : State} {t : State} (hO : Within pl sb s) (hP : allParts ⊆ pl) (hE : execRoleDrop w s = .next t) : Within pl sb t := by
  have k : Holds (InNext pl sb) (execRoleDrop w s) := execRoleDrop_holds (w := w) (s := s) hO hP
  rw [hE] at k; exact k.of

theorem execInstallerKeyWrite_holds {w : OdSrc} {data : List Byte} {s : State} (hO : Within pl sb s) (hP : allParts ⊆ pl) : Holds (InNext pl sb) (execInstallerKeyWrite w data s) := by
  unfold execInstallerKeyWrite
  repeat' first
    | with_reducible refine leaf_next ?_
    | with_reducible assumption
    | with_reducible refine odWriteCmd_only ?_ (subset_sub hP (by decide))
theorem execInstallerKeyWrite_only {w : OdSrc} {data : List Byte} {s : State} {t : State} (hO : Within pl sb s) (hP : allParts ⊆ pl) (hE : execInstallerKeyWrite w data s = .next t) : Within pl sb t := by
  have k : Holds (InNext pl sb) (execInstallerKeyWrite w data s) := execInstallerKeyWrite_holds (w := w) (data := data) (s := s) hO hP
  rw [hE] at k; exact k.of

theorem execAuditEntryRead_holds {w : OdSrc} {s : State} (hO : Within pl sb s) (hP : [.out, .freeCount, .regs, .ctl, .mgt] ⊆ pl) : Holds (InNext pl sb) (execAuditEntryRead w s) := by
  unfold execAuditEntryRead
  repeat' first
    | with_reducible refine leaf_next ?_
    | with_reducible assumption
    | with_reducible refine odReadCmd_only ?_ (subset_sub hP (by decide))
theorem execAuditEntryRead_only {w : OdSrc} {s : State} {t : State} (hO : Within pl sb s) (hP : [.out, .freeCount, .regs, .ctl, .mgt] ⊆ pl) (hE : execAuditEntryRead w s = .next t) : Within pl sb t := by
  have k : Holds (InNext pl sb) (execAuditEntryRead w s) := execAuditEntryRead_holds (w := w) (s := s) hO hP
  rw [hE] at k; exact k.of

theorem execReadmitWrite_holds {w : OdSrc} {data : List Byte} {s : State} (hO : Within pl sb s) (hP : allParts ⊆ pl) : Holds (InNext pl sb) (execReadmitWrite w data s) := by
  unfold execReadmitWrite
  repeat' first
    | with_reducible refine leaf_next ?_
    | with_reducible assumption
    | with_reducible refine odWriteCmd_only ?_ (subset_sub hP (by decide))
theorem execReadmitWrite_only {w : OdSrc} {data : List Byte} {s : State} {t : State} (hO : Within pl sb s) (hP : allParts ⊆ pl) (hE : execReadmitWrite w data s = .next t) : Within pl sb t := by
  have k : Holds (InNext pl sb) (execReadmitWrite w data s) := execReadmitWrite_holds (w := w) (data := data) (s := s) hO hP
  rw [hE] at k; exact k.of

theorem execDrillWrite_holds {w : OdSrc} {data : List Byte} {s : State} (hO : Within pl sb s) (hP : allParts ⊆ pl) : Holds (InNext pl sb) (execDrillWrite w data s) := by
  unfold execDrillWrite
  repeat' first
    | with_reducible refine leaf_next ?_
    | with_reducible assumption
    | with_reducible refine odWriteCmd_only ?_ (subset_sub hP (by decide))
theorem execDrillWrite_only {w : OdSrc} {data : List Byte} {s : State} {t : State} (hO : Within pl sb s) (hP : allParts ⊆ pl) (hE : execDrillWrite w data s = .next t) : Within pl sb t := by
  have k : Holds (InNext pl sb) (execDrillWrite w data s) := execDrillWrite_holds (w := w) (data := data) (s := s) hO hP
  rw [hE] at k; exact k.of

theorem execCoeffWrite_holds {w : OdSrc} {data : List Byte} {s : State} (hO : Within pl sb s) (hP : allParts ⊆ pl) : Holds (InNext pl sb) (execCoeffWrite w data s) := by
  unfold execCoeffWrite
  repeat' first
    | with_reducible refine leaf_next ?_
    | with_reducible assumption
    | with_reducible refine odWriteCmd_only ?_ (subset_sub hP (by decide))
theorem execCoeffWrite_only {w : OdSrc} {data : List Byte} {s : State} {t : State} (hO : Within pl sb s) (hP : allParts ⊆ pl) (hE : execCoeffWrite w data s = .next t) : Within pl sb t := by
  have k : Holds (InNext pl sb) (execCoeffWrite w data s) := execCoeffWrite_holds (w := w) (data := data) (s := s) hO hP
  rw [hE] at k; exact k.of

theorem execUpdateBegin_holds {w : OdSrc} {s : State} (hO : Within pl sb s) (hP : allParts ⊆ pl) : Holds (InNext pl sb) (execUpdateBegin w s) := by
  unfold execUpdateBegin
  repeat' first
    | with_reducible refine leaf_next ?_
    | with_reducible assumption
    | with_reducible refine odWriteCmd_only ?_ (subset_sub hP (by decide))
theorem execUpdateBegin_only {w : OdSrc} {s : State} {t : State} (hO : Within pl sb s) (hP : allParts ⊆ pl) (hE : execUpdateBegin w s = .next t) : Within pl sb t := by
  have k : Holds (InNext pl sb) (execUpdateBegin w s) := execUpdateBegin_holds (w := w) (s := s) hO hP
  rw [hE] at k; exact k.of

theorem execUpdateData_holds {w : OdSrc} {data : List Byte} {s : State} (hO : Within pl sb s) (hP : allParts ⊆ pl) : Holds (InNext pl sb) (execUpdateData w data s) := by
  unfold execUpdateData
  repeat' first
    | with_reducible refine leaf_next ?_
    | with_reducible assumption
    | with_reducible refine odWriteCmd_only ?_ (subset_sub hP (by decide))
theorem execUpdateData_only {w : OdSrc} {data : List Byte} {s : State} {t : State} (hO : Within pl sb s) (hP : allParts ⊆ pl) (hE : execUpdateData w data s = .next t) : Within pl sb t := by
  have k : Holds (InNext pl sb) (execUpdateData w data s) := execUpdateData_holds (w := w) (data := data) (s := s) hO hP
  rw [hE] at k; exact k.of

theorem execUpdateVerify_holds {w : OdSrc} {x : Ext} {s : State} (hO : Within pl sb s) (hP : allParts ⊆ pl) : Holds (InNext pl sb) (execUpdateVerify w x s) := by
  unfold execUpdateVerify
  repeat' first
    | with_reducible refine leaf_next ?_
    | with_reducible assumption
    | with_reducible refine odWriteCmd_only ?_ (subset_sub hP (by decide))
theorem execUpdateVerify_only {w : OdSrc} {x : Ext} {s : State} {t : State} (hO : Within pl sb s) (hP : allParts ⊆ pl) (hE : execUpdateVerify w x s = .next t) : Within pl sb t := by
  have k : Holds (InNext pl sb) (execUpdateVerify w x s) := execUpdateVerify_holds (w := w) (x := x) (s := s) hO hP
  rw [hE] at k; exact k.of

theorem execUpdateCancel_holds {w : OdSrc} {s : State} (hO : Within pl sb s) (hP : allParts ⊆ pl) : Holds (InNext pl sb) (execUpdateCancel w s) := by
  unfold execUpdateCancel
  repeat' first
    | with_reducible refine leaf_next ?_
    | with_reducible assumption
    | with_reducible refine odWriteCmd_only ?_ (subset_sub hP (by decide))
theorem execUpdateCancel_only {w : OdSrc} {s : State} {t : State} (hO : Within pl sb s) (hP : allParts ⊆ pl) (hE : execUpdateCancel w s = .next t) : Within pl sb t := by
  have k : Holds (InNext pl sb) (execUpdateCancel w s) := execUpdateCancel_holds (w := w) (s := s) hO hP
  rw [hE] at k; exact k.of

theorem execNfStart_holds {w : OdSrc} {s : State} (hO : Within pl sb s) (hP : allParts ⊆ pl) : Holds (InNext pl sb) (execNfStart w s) := by
  unfold execNfStart
  repeat' first
    | with_reducible refine leaf_next ?_
    | with_reducible assumption
    | with_reducible refine odWriteCmd_only ?_ (subset_sub hP (by decide))
theorem execNfStart_only {w : OdSrc} {s : State} {t : State} (hO : Within pl sb s) (hP : allParts ⊆ pl) (hE : execNfStart w s = .next t) : Within pl sb t := by
  have k : Holds (InNext pl sb) (execNfStart w s) := execNfStart_holds (w := w) (s := s) hO hP
  rw [hE] at k; exact k.of

theorem execNfAbort_holds {w : OdSrc} {s : State} (hO : Within pl sb s) (hP : allParts ⊆ pl) : Holds (InNext pl sb) (execNfAbort w s) := by
  unfold execNfAbort
  repeat' first
    | with_reducible refine leaf_next ?_
    | with_reducible assumption
    | with_reducible refine odWriteCmd_only ?_ (subset_sub hP (by decide))
theorem execNfAbort_only {w : OdSrc} {s : State} {t : State} (hO : Within pl sb s) (hP : allParts ⊆ pl) (hE : execNfAbort w s = .next t) : Within pl sb t := by
  have k : Holds (InNext pl sb) (execNfAbort w s) := execNfAbort_holds (w := w) (s := s) hO hP
  rw [hE] at k; exact k.of

theorem execNfPowerDown_holds {w : OdSrc} {s : State} (hO : Within pl sb s) (hP : allParts ⊆ pl) : Holds (InNext pl sb) (execNfPowerDown w s) := by
  unfold execNfPowerDown
  repeat' first
    | with_reducible refine leaf_next ?_
    | with_reducible assumption
    | with_reducible refine odWriteCmd_only ?_ (subset_sub hP (by decide))
theorem execNfPowerDown_only {w : OdSrc} {s : State} {t : State} (hO : Within pl sb s) (hP : allParts ⊆ pl) (hE : execNfPowerDown w s = .next t) : Within pl sb t := by
  have k : Holds (InNext pl sb) (execNfPowerDown w s) := execNfPowerDown_holds (w := w) (s := s) hO hP
  rw [hE] at k; exact k.of

theorem execFieldNotesWrite_holds {w : OdSrc} {data : List Byte} {ok : Bool} {s : State} (hO : Within pl sb s) (hP : allParts ⊆ pl) : Holds (InNext pl sb) (execFieldNotesWrite w data ok s) := by
  unfold execFieldNotesWrite
  repeat' first
    | with_reducible refine leaf_next ?_
    | with_reducible assumption
    | with_reducible refine odWriteCmd_only ?_ (subset_sub hP (by decide))
theorem execFieldNotesWrite_only {w : OdSrc} {data : List Byte} {ok : Bool} {s : State} {t : State} (hO : Within pl sb s) (hP : allParts ⊆ pl) (hE : execFieldNotesWrite w data ok s = .next t) : Within pl sb t := by
  have k : Holds (InNext pl sb) (execFieldNotesWrite w data ok s) := execFieldNotesWrite_holds (w := w) (data := data) (ok := ok) (s := s) hO hP
  rw [hE] at k; exact k.of

theorem execClearFaultLog_holds {w : OdSrc} {value : Nat} {s : State} (hO : Within pl sb s) (hP : allParts ⊆ pl) : Holds (InNext pl sb) (execClearFaultLog w value s) := by
  unfold execClearFaultLog
  repeat' first
    | with_reducible refine leaf_next ?_
    | with_reducible assumption
    | with_reducible refine odWriteCmd_only ?_ (subset_sub hP (by decide))
theorem execClearFaultLog_only {w : OdSrc} {value : Nat} {s : State} {t : State} (hO : Within pl sb s) (hP : allParts ⊆ pl) (hE : execClearFaultLog w value s = .next t) : Within pl sb t := by
  have k : Holds (InNext pl sb) (execClearFaultLog w value s) := execClearFaultLog_holds (w := w) (value := value) (s := s) hO hP
  rw [hE] at k; exact k.of

theorem execOdEntryWrite_holds {w : OdSrc} {idx sub : Nat} {data : List Byte} {s : State} (hO : Within pl sb s) (hP : allParts ⊆ pl) : Holds (InNext pl sb) (execOdEntryWrite w idx sub data s) := by
  unfold execOdEntryWrite
  repeat' first
    | with_reducible refine leaf_next ?_
    | with_reducible assumption
    | with_reducible refine odWriteCmd_only ?_ (subset_sub hP (by decide))
theorem execOdEntryWrite_only {w : OdSrc} {idx sub : Nat} {data : List Byte} {s : State} {t : State} (hO : Within pl sb s) (hP : allParts ⊆ pl) (hE : execOdEntryWrite w idx sub data s = .next t) : Within pl sb t := by
  have k : Holds (InNext pl sb) (execOdEntryWrite w idx sub data s) := execOdEntryWrite_holds (w := w) (idx := idx) (sub := sub) (data := data) (s := s) hO hP
  rw [hE] at k; exact k.of

theorem pfOd_only {s : State} {other : Nat} {x : Ext} (hO : Within pl sb s) (hP : allParts ⊆ pl) : Within pl sb (pfOd s other x) := by
  unfold pfOd
  repeat' first
    | with_reducible assumption
    | with_reducible refine ite_only ?_ ?_
    | with_reducible refine odAnswer_only ?_ (subset_sub hP (by decide))
    | with_reducible refine odReadCmd_only ?_ (subset_sub hP (by decide))
    | with_reducible refine odWriteCmd_only ?_ (subset_sub hP (by decide))
    | (extract_lets +onlyGivenNames -underBinder x; refine cut_only (ps := pl) (s := sb) (a := x) ?_ ?_; unfold x; rotate_left; clear_value x; intro hx)
    | (extract_lets +onlyGivenNames -underBinder x; (try unfold x); clear x)

theorem execPfOdRead_holds {s : State} (hO : Within pl sb s) (hP : allParts ⊆ pl) : Holds (InNext pl sb) (execPfOdRead s) := by
  unfold execPfOdRead
  repeat' first
    | with_reducible refine leaf_next ?_
    | with_reducible assumption
    | with_reducible refine pfOd_only ?_ (subset_sub hP (by decide))
theorem execPfOdRead_only {s : State} {t : State} (hO : Within pl sb s) (hP : allParts ⊆ pl) (hE : execPfOdRead s = .next t) : Within pl sb t := by
  have k : Holds (InNext pl sb) (execPfOdRead s) := execPfOdRead_holds (s := s) hO hP
  rw [hE] at k; exact k.of

theorem execPfOdWrite_holds {x : Ext} {s : State} (hO : Within pl sb s) (hP : allParts ⊆ pl) : Holds (InNext pl sb) (execPfOdWrite x s) := by
  unfold execPfOdWrite
  repeat' first
    | with_reducible refine leaf_next ?_
    | with_reducible assumption
    | with_reducible refine pfOd_only ?_ (subset_sub hP (by decide))
theorem execPfOdWrite_only {x : Ext} {s : State} {t : State} (hO : Within pl sb s) (hP : allParts ⊆ pl) (hE : execPfOdWrite x s = .next t) : Within pl sb t := by
  have k : Holds (InNext pl sb) (execPfOdWrite x s) := execPfOdWrite_holds (x := x) (s := s) hO hP
  rw [hE] at k; exact k.of

end Sys2Proof.Machine
end

