-- ==== Sys2Proof/Laws/FrameThermal.lean ====
section
/-! SUPPORT. What each function of Machine/Thermal.lean can do to the state as a whole: the parts it can change; the queue, the population and the
canonical forms it keeps. `f_only` speaks of the state that `f` answers, `f_holds` of a state inside its answer, `f_only_eq` of one taken out. -/

-- One declaration at a time: thousands of proofs in flight at once ask for more threads than fit in memory.
set_option Elab.async false

set_option linter.unusedTactic false
set_option linter.unreachableTactic false
set_option linter.unusedVariables false
set_option linter.unusedSimpArgs false
namespace Sys2Proof.Machine
open Sys2Proof
variable {pl : List Part} {sb : State}

theorem plantEvent_only {s : State} {code : Nat} {payload : List Nat} (hO : Within pl sb s) (hP : [.out, .regs, .ctl, .mgt, .alm, .tel] ⊆ pl) : Within pl sb (plantEvent s code payload) := by
  unfold plantEvent
  repeat' first
    | with_reducible assumption
    | with_reducible refine raisePf_only ?_ (subset_sub hP (by decide))

theorem capTick_only {s : State} {q : Nat} {hot : Int} (hO : Within pl sb s) (hP : [.out, .regs, .qtrs, .ctl, .mgt, .alm, .tel] ⊆ pl) : Within pl sb (capTick s q hot) := by
  unfold capTick
  repeat' first
    | with_reducible assumption
    | with_reducible refine ite_only ?_ ?_
    | with_reducible refine modQtr_only ?_ (subset_sub hP (by decide))
    | with_reducible refine plantEvent_only ?_ (subset_sub hP (by decide))
    | (extract_lets +onlyGivenNames -underBinder x; refine cut_only (ps := pl) (s := sb) (a := x) ?_ ?_; unfold x; rotate_left; clear_value x; intro hx)
    | (extract_lets +onlyGivenNames -underBinder x; (try unfold x); clear x)

theorem pump_only {s : State} {err : Int} (hO : Within pl sb s) (hP : [.out, .ctl] ⊆ pl) : Within pl sb (pump s err) := by
  unfold pump
  repeat' first
    | with_reducible assumption
    | with_reducible refine ite_only ?_ ?_
    | with_reducible refine emit_only ?_ (subset_sub hP (by decide))
    | with_reducible refine odSet_only ?_ (subset_sub hP (by decide))
    | (extract_lets +onlyGivenNames -underBinder x; refine cut_only (ps := pl) (s := sb) (a := x) ?_ ?_; unfold x; rotate_left; clear_value x; intro hx)
    | (extract_lets +onlyGivenNames -underBinder x; (try unfold x); clear x)

theorem odInt_only {s : State} {idx sub : Nat} {x : Int} (hO : Within pl sb s) (hP : [.ctl] ⊆ pl) : Within pl sb (odInt s idx sub x) := by
  unfold odInt
  repeat' first
    | with_reducible assumption
    | with_reducible refine odSet_only ?_ (subset_sub hP (by decide))

theorem execManagementTick_holds {dies iods : List Int} {nears dimms : List Nat} {s : State} (hO : Within pl sb s) (hP : [.out, .regs, .qtrs, .mem, .ctl, .mgt, .alm, .tel, .boot] ⊆ pl) : Holds (InNext pl sb) (execManagementTick dies iods nears dimms s) := by
  unfold execManagementTick
  repeat' first
    | with_reducible refine leaf_next ?_
    | with_reducible assumption
    | with_reducible refine ite_only ?_ ?_
    | with_reducible refine foldl_only ?_ fun _ _ _ => ?_
    | with_reducible refine capTick_only ?_ (subset_sub hP (by decide))
    | with_reducible refine odCount_only ?_ (subset_sub hP (by decide))
    | with_reducible refine odInt_only ?_ (subset_sub hP (by decide))
    | with_reducible refine pump_only ?_ (subset_sub hP (by decide))
    | with_reducible refine modBoot_only ?_ (subset_sub hP (by decide))
    | with_reducible refine modMem_only ?_ (subset_sub hP (by decide))
    | (extract_lets +onlyGivenNames -underBinder x; refine cut_only (ps := pl) (s := sb) (a := x) ?_ ?_; unfold x; rotate_left; clear_value x; intro hx)
    | (extract_lets +onlyGivenNames -underBinder x; (try unfold x); clear x)
theorem execManagementTick_only {dies iods : List Int} {nears dimms : List Nat} {s : State} {t : State} (hO : Within pl sb s) (hP : [.out, .regs, .qtrs, .mem, .ctl, .mgt, .alm, .tel, .boot] ⊆ pl) (hE : execManagementTick dies iods nears dimms s = .next t) : Within pl sb t := by
  have k : Holds (InNext pl sb) (execManagementTick dies iods nears dimms s) := execManagementTick_holds (dies := dies) (iods := iods) (nears := nears) (dimms := dimms) (s := s) hO hP
  rw [hE] at k; exact k.of

theorem execDeviceFatalFault_holds {cause uid : Nat} {s : State} (hO : Within pl sb s) (hP : [.out, .regs, .eph, .work, .mem, .serve, .fab, .ctl, .mgt, .alm, .tel, .ras, .boot] ⊆ pl) : Holds (InNext pl sb) (execDeviceFatalFault cause uid s) := by
  unfold execDeviceFatalFault
  repeat' first
    | with_reducible refine leaf_next ?_
    | with_reducible assumption
    | with_reducible refine ite_only ?_ ?_
    | with_reducible refine abortNightfall_only ?_ (subset_sub hP (by decide))
    | with_reducible refine fatalFault_only ?_ (subset_sub hP (by decide))
theorem execDeviceFatalFault_only {cause uid : Nat} {s : State} {t : State} (hO : Within pl sb s) (hP : [.out, .regs, .eph, .work, .mem, .serve, .fab, .ctl, .mgt, .alm, .tel, .ras, .boot] ⊆ pl) (hE : execDeviceFatalFault cause uid s = .next t) : Within pl sb t := by
  have k : Holds (InNext pl sb) (execDeviceFatalFault cause uid s) := execDeviceFatalFault_holds (cause := cause) (uid := uid) (s := s) hO hP
  rw [hE] at k; exact k.of

theorem execThermTrip_holds {s : State} (hO : Within pl sb s) (hP : [.out, .freeCount, .regs, .eph, .work, .mem, .serve, .fab, .ctl, .mgt, .alm, .tel, .ras, .boot] ⊆ pl) : Holds (InNext pl sb) (execThermTrip s) := by
  unfold execThermTrip
  repeat' first
    | with_reducible refine leaf_next ?_
    | with_reducible assumption
    | with_reducible refine ite_only ?_ ?_
    | with_reducible refine abortNightfall_only ?_ (subset_sub hP (by decide))
    | with_reducible refine emit_only ?_ (subset_sub hP (by decide))
    | with_reducible refine fatalFault_only ?_ (subset_sub hP (by decide))
    | with_reducible refine fresh_only_eq ?_ (subset_sub hP (by decide)) (by assumption)
    | with_reducible refine fresh_only ?_ (subset_sub hP (by decide))
    | with_reducible refine plantEvent_only ?_ (subset_sub hP (by decide))
    | with_reducible refine powerDown_only ?_ (subset_sub hP (by decide))
    | with_reducible refine modRas_only ?_ (subset_sub hP (by decide))
    | (extract_lets +onlyGivenNames -underBinder x; refine cut_only (ps := pl) (s := sb) (a := x) ?_ ?_; unfold x; rotate_left; clear_value x; intro hx)
    | (extract_lets +onlyGivenNames -underBinder x; (try unfold x); clear x)
    | split
theorem execThermTrip_only {s : State} {t : State} (hO : Within pl sb s) (hP : [.out, .freeCount, .regs, .eph, .work, .mem, .serve, .fab, .ctl, .mgt, .alm, .tel, .ras, .boot] ⊆ pl) (hE : execThermTrip s = .next t) : Within pl sb t := by
  have k : Holds (InNext pl sb) (execThermTrip s) := execThermTrip_holds (s := s) hO hP
  rw [hE] at k; exact k.of

theorem coolantOn_only {s : State} {c : Nat} {e : State → State} (h : Within pl sb s)
    (k : ∀ u, Within pl sb u → Within pl sb (e u)) (hp : [.out, .ctl, .boot] ⊆ pl) : Within pl sb (coolantOn s c e) := by
  unfold coolantOn
  have h1 := k _ (modBoot_only (f := fun b => { b with coolant := b.coolant ++ [c] }) h (subset_sub hp (by decide)))
  exact ite_only h (ite_only (pumpFull_only h1 (subset_sub hp (by decide))) h1)

theorem execFlowCompute_holds {pulses : Nat} {s : State} (hO : Within pl sb s) (hP : [.out, .regs, .ctl, .mgt, .alm, .tel, .boot] ⊆ pl) : Holds (InNext pl sb) (execFlowCompute pulses s) := by
  unfold execFlowCompute
  repeat' first
    | with_reducible refine leaf_next ?_
    | with_reducible assumption
    | with_reducible refine ite_only ?_ ?_
    | with_reducible refine coolantOn_only ?_ (fun _ _ => ?_) (subset_sub hP (by decide))
    | with_reducible refine odSet_only ?_ (subset_sub hP (by decide))
    | with_reducible refine plantEvent_only ?_ (subset_sub hP (by decide))
    | with_reducible refine modBoot_only ?_ (subset_sub hP (by decide))
    | (extract_lets +onlyGivenNames -underBinder x; refine cut_only (ps := pl) (s := sb) (a := x) ?_ ?_; unfold x; rotate_left; clear_value x; intro hx)
    | (extract_lets +onlyGivenNames -underBinder x; (try unfold x); clear x)
theorem execFlowCompute_only {pulses : Nat} {s : State} {t : State} (hO : Within pl sb s) (hP : [.out, .regs, .ctl, .mgt, .alm, .tel, .boot] ⊆ pl) (hE : execFlowCompute pulses s = .next t) : Within pl sb t := by
  have k : Holds (InNext pl sb) (execFlowCompute pulses s) := execFlowCompute_holds (pulses := pulses) (s := s) hO hP
  rw [hE] at k; exact k.of

theorem thermistor_only {s : State} {c : Nat} {x : Int} (hO : Within pl sb s) (hP : [.out, .regs, .ctl, .mgt, .alm, .tel, .boot] ⊆ pl) : Within pl sb (thermistor s c x) := by
  unfold thermistor
  repeat' first
    | with_reducible assumption
    | with_reducible refine ite_only ?_ ?_
    | with_reducible refine coolantOn_only ?_ (fun _ _ => ?_) (subset_sub hP (by decide))
    | with_reducible refine plantEvent_only ?_ (subset_sub hP (by decide))

theorem reported_only {s : State} {sub : Nat} {x : Int} (hO : Within pl sb s) (hP : [.ctl] ⊆ pl) : Within pl sb (reported s sub x) := by
  unfold reported
  repeat' first
    | with_reducible assumption
    | with_reducible refine ite_only ?_ ?_
    | with_reducible refine odInt_only ?_ (subset_sub hP (by decide))

theorem execCoolantMeasure_holds {inlet outlet : Int} {s : State} (hO : Within pl sb s) (hP : [.out, .regs, .ctl, .mgt, .alm, .tel, .boot] ⊆ pl) : Holds (InNext pl sb) (execCoolantMeasure inlet outlet s) := by
  unfold execCoolantMeasure
  repeat' first
    | with_reducible refine leaf_next ?_
    | with_reducible assumption
    | with_reducible refine ite_only ?_ ?_
    | with_reducible refine coolantOn_only ?_ (fun _ _ => ?_) (subset_sub hP (by decide))
    | with_reducible refine plantEvent_only ?_ (subset_sub hP (by decide))
    | with_reducible refine reported_only ?_ (subset_sub hP (by decide))
    | with_reducible refine thermistor_only ?_ (subset_sub hP (by decide))
    | with_reducible refine modBoot_only ?_ (subset_sub hP (by decide))
    | (extract_lets +onlyGivenNames -underBinder x; refine cut_only (ps := pl) (s := sb) (a := x) ?_ ?_; unfold x; rotate_left; clear_value x; intro hx)
    | (extract_lets +onlyGivenNames -underBinder x; (try unfold x); clear x)
    | split
theorem execCoolantMeasure_only {inlet outlet : Int} {s : State} {t : State} (hO : Within pl sb s) (hP : [.out, .regs, .ctl, .mgt, .alm, .tel, .boot] ⊆ pl) (hE : execCoolantMeasure inlet outlet s = .next t) : Within pl sb t := by
  have k : Holds (InNext pl sb) (execCoolantMeasure inlet outlet s) := execCoolantMeasure_holds (inlet := inlet) (outlet := outlet) (s := s) hO hP
  rw [hE] at k; exact k.of

theorem execCoolantClear_holds {cond : Nat} {s : State} (hO : Within pl sb s) (hP : [.out, .regs, .ctl, .mgt, .alm, .tel, .boot] ⊆ pl) : Holds (InNext pl sb) (execCoolantClear cond s) := by
  unfold execCoolantClear
  repeat' first
    | with_reducible refine leaf_next ?_
    | with_reducible assumption
    | with_reducible refine ite_only ?_ ?_
    | with_reducible refine plantEvent_only ?_ (subset_sub hP (by decide))
    | with_reducible refine modBoot_only ?_ (subset_sub hP (by decide))
    | (extract_lets +onlyGivenNames -underBinder x; refine cut_only (ps := pl) (s := sb) (a := x) ?_ ?_; unfold x; rotate_left; clear_value x; intro hx)
    | (extract_lets +onlyGivenNames -underBinder x; (try unfold x); clear x)
theorem execCoolantClear_only {cond : Nat} {s : State} {t : State} (hO : Within pl sb s) (hP : [.out, .regs, .ctl, .mgt, .alm, .tel, .boot] ⊆ pl) (hE : execCoolantClear cond s = .next t) : Within pl sb t := by
  have k : Holds (InNext pl sb) (execCoolantClear cond s) := execCoolantClear_holds (cond := cond) (s := s) hO hP
  rw [hE] at k; exact k.of

theorem refLost_only {s : State} {c : Nat} {act : State → State} (h : Within pl sb s)
    (k : ∀ u, Within pl sb u → Within pl sb (act u)) (hp : [.out, .regs, .ctl, .mgt, .alm, .tel, .boot] ⊆ pl) : Within pl sb (refLost s c act) := by
  unfold refLost
  exact ite_only h (plantEvent_only (k _ (modBoot_only h (subset_sub hp (by decide)))) (subset_sub hp (by decide)))

theorem execRef25Loss_holds {s : State} (hO : Within pl sb s) (hP : [.out, .regs, .eph, .work, .mem, .serve, .fab, .ctl, .mgt, .alm, .tel, .mer, .boot] ⊆ pl) : Holds (InNext pl sb) (execRef25Loss s) := by
  unfold execRef25Loss
  repeat' first
    | with_reducible refine leaf_next ?_
    | with_reducible assumption
    | with_reducible refine holdover_only ?_ (subset_sub hP (by decide))
    | with_reducible refine refLost_only ?_ (fun _ _ => ?_) (subset_sub hP (by decide))
    | with_reducible refine setSource_only ?_ (subset_sub hP (by decide))
    | with_reducible refine stopPlane_only ?_ (subset_sub hP (by decide))
    | with_reducible refine modMer_only ?_ (subset_sub hP (by decide))
theorem execRef25Loss_only {s : State} {t : State} (hO : Within pl sb s) (hP : [.out, .regs, .eph, .work, .mem, .serve, .fab, .ctl, .mgt, .alm, .tel, .mer, .boot] ⊆ pl) (hE : execRef25Loss s = .next t) : Within pl sb t := by
  have k : Holds (InNext pl sb) (execRef25Loss s) := execRef25Loss_holds (s := s) hO hP
  rw [hE] at k; exact k.of

theorem execRef156Loss_holds {south : Bool} {s : State} (hO : Within pl sb s) (hP : [.out, .regs, .fab, .ctl, .mgt, .alm, .tel, .boot] ⊆ pl) : Holds (InNext pl sb) (execRef156Loss south s) := by
  unfold execRef156Loss
  repeat' first
    | with_reducible refine leaf_next ?_
    | with_reducible assumption
    | with_reducible refine ite_only ?_ ?_
    | with_reducible refine foldl_only ?_ fun _ _ _ => ?_
    | with_reducible refine linkDown_only ?_ (subset_sub hP (by decide))
    | with_reducible refine refLost_only ?_ (fun _ _ => ?_) (subset_sub hP (by decide))
theorem execRef156Loss_only {south : Bool} {s : State} {t : State} (hO : Within pl sb s) (hP : [.out, .regs, .fab, .ctl, .mgt, .alm, .tel, .boot] ⊆ pl) (hE : execRef156Loss south s = .next t) : Within pl sb t := by
  have k : Holds (InNext pl sb) (execRef156Loss south s) := execRef156Loss_holds (south := south) (s := s) hO hP
  rw [hE] at k; exact k.of

theorem execRef100Loss_holds {south : Bool} {s : State} (hO : Within pl sb s) (hP : [.out, .regs, .px, .ctl, .mgt, .alm, .tel, .boot] ⊆ pl) : Holds (InNext pl sb) (execRef100Loss south s) := by
  unfold execRef100Loss
  repeat' first
    | with_reducible refine leaf_next ?_
    | with_reducible assumption
    | with_reducible refine ite_only ?_ ?_
    | with_reducible refine foldl_only ?_ fun _ _ _ => ?_
    | with_reducible refine after_only ?_ ?_
    | with_reducible refine after_only ?_ ?_
    | with_reducible refine execDlinkDown_holds ?_ (subset_sub hP (by decide))
    | with_reducible refine execPcieLinkDown_holds ?_ (subset_sub hP (by decide))
    | with_reducible refine refLost_only ?_ (fun _ _ => ?_) (subset_sub hP (by decide))
    | (extract_lets +onlyGivenNames -underBinder x; refine cut_only (ps := pl) (s := sb) (a := x) ?_ ?_; unfold x; rotate_left; clear_value x; intro hx)
    | (extract_lets +onlyGivenNames -underBinder x; (try unfold x); clear x)
theorem execRef100Loss_only {south : Bool} {s : State} {t : State} (hO : Within pl sb s) (hP : [.out, .regs, .px, .ctl, .mgt, .alm, .tel, .boot] ⊆ pl) (hE : execRef100Loss south s = .next t) : Within pl sb t := by
  have k : Holds (InNext pl sb) (execRef100Loss south s) := execRef100Loss_holds (south := south) (s := s) hO hP
  rw [hE] at k; exact k.of

theorem execRefClockReturn_holds {clock : Nat} {s : State} (hO : Within pl sb s) (hP : [.regs, .fab, .boot] ⊆ pl) : Holds (InNext pl sb) (execRefClockReturn clock s) := by
  unfold execRefClockReturn
  repeat' first
    | with_reducible refine leaf_next ?_
    | with_reducible assumption
    | with_reducible refine ite_only ?_ ?_
    | with_reducible refine foldl_only ?_ fun _ _ _ => ?_
    | with_reducible refine startTraining_only ?_ (subset_sub hP (by decide))
    | with_reducible refine modBoot_only ?_ (subset_sub hP (by decide))
    | (extract_lets +onlyGivenNames -underBinder x; refine cut_only (ps := pl) (s := sb) (a := x) ?_ ?_; unfold x; rotate_left; clear_value x; intro hx)
    | (extract_lets +onlyGivenNames -underBinder x; (try unfold x); clear x)
theorem execRefClockReturn_only {clock : Nat} {s : State} {t : State} (hO : Within pl sb s) (hP : [.regs, .fab, .boot] ⊆ pl) (hE : execRefClockReturn clock s = .next t) : Within pl sb t := by
  have k : Holds (InNext pl sb) (execRefClockReturn clock s) := execRefClockReturn_holds (clock := clock) (s := s) hO hP
  rw [hE] at k; exact k.of

end Sys2Proof.Machine
end

