-- ==== Sys2Proof/Laws/FrameBus.lean ====
section
/-! SUPPORT. What each function of Machine/Bus.lean can do to the state as a whole: the parts it can change; the queue, the population and the
canonical forms it keeps. `f_only` speaks of the state that `f` answers, `f_holds` of a state inside its answer, `f_only_eq` of one taken out. -/

-- One declaration at a time: thousands of proofs in flight at once ask for more threads than fit in memory.
set_option Elab.async false

set_option linter.unusedTactic false
set_option linter.unreachableTactic false
set_option linter.unusedVariables false
set_option linter.unusedSimpArgs false
namespace Sys2Proof.Machine
open Sys2Proof
variable {pl : List Part} {sb : State}

theorem setBus_only {s : State} {b : BusState} (hO : Within pl sb s) (hP : [.out, .regs, .ctl, .mgt, .alm, .tel] ⊆ pl) : Within pl sb (setBus s b) := by
  unfold setBus
  repeat' first
    | with_reducible assumption
    | with_reducible refine ite_only ?_ ?_
    | with_reducible refine mgtEvent_only ?_ (subset_sub hP (by decide))
    | with_reducible refine modMgt_only ?_ (subset_sub hP (by decide))

theorem addrEvent_only {s : State} {addr cause : Nat} (hO : Within pl sb s) (hP : [.out, .regs, .ctl, .mgt, .alm, .tel] ⊆ pl) : Within pl sb (addrEvent s addr cause) := by
  unfold addrEvent
  repeat' first
    | with_reducible assumption
    | with_reducible refine mgtEvent_only ?_ (subset_sub hP (by decide))

theorem dropAddress_only {s : State} {cause : Nat} (hO : Within pl sb s) (hP : [.out, .regs, .ctl, .mgt, .alm, .tel] ⊆ pl) : Within pl sb (dropAddress s cause) := by
  unfold dropAddress
  repeat' first
    | with_reducible assumption
    | with_reducible refine addrEvent_only ?_ (subset_sub hP (by decide))
    | with_reducible refine setBus_only ?_ (subset_sub hP (by decide))
    | with_reducible refine modMgt_only ?_ (subset_sub hP (by decide))
    | (extract_lets +onlyGivenNames -underBinder x; refine cut_only (ps := pl) (s := sb) (a := x) ?_ ?_; unfold x; rotate_left; clear_value x; intro hx)
    | (extract_lets +onlyGivenNames -underBinder x; (try unfold x); clear x)

theorem hotJoin_only {s : State} (hO : Within pl sb s) (hP : [.out, .ctl] ⊆ pl) : Within pl sb (hotJoin s) := by
  unfold hotJoin
  repeat' first
    | with_reducible assumption
    | with_reducible refine busSend_only ?_ (subset_sub hP (by decide))

theorem rejoin_only {s : State} (hO : Within pl sb s) (hP : [.out, .regs, .ctl, .mgt, .alm, .tel] ⊆ pl) : Within pl sb (rejoin s) := by
  unfold rejoin
  repeat' first
    | with_reducible assumption
    | with_reducible refine hotJoin_only ?_ (subset_sub hP (by decide))
    | with_reducible refine setBus_only ?_ (subset_sub hP (by decide))
    | with_reducible refine modMgt_only ?_ (subset_sub hP (by decide))

theorem searchHeard_only {s : State} (hO : Within pl sb s) (hP : [.out, .regs, .ctl, .mgt, .alm, .tel] ⊆ pl) : Within pl sb (searchHeard s) := by
  unfold searchHeard
  repeat' first
    | with_reducible assumption
    | with_reducible refine ite_only ?_ ?_
    | with_reducible refine setBus_only ?_ (subset_sub hP (by decide))
    | with_reducible refine modMgt_only ?_ (subset_sub hP (by decide))

theorem onBus_only {s : State} {f : BusRx} {act : State → State} (h : Within pl sb s)
    (k : ∀ u, Within pl sb u → Within pl sb (act u)) (hp : [.out, .regs, .ctl, .mgt, .alm, .tel] ⊆ pl) : Within pl sb (onBus s f act) := by
  unfold onBus
  exact ite_only h (ite_only (dropAddress_only h (subset_sub hp (by decide))) (ite_only (k _ (odCount_only h (subset_sub hp (by decide)))) h))

theorem whenHeard_only {s : State} {f : BusRx} {act : State → State} (h : Within pl sb s)
    (k : ∀ u, Within pl sb u → Within pl sb (act u)) (hp : [.out, .regs, .ctl, .mgt, .alm, .tel] ⊆ pl) : Within pl sb (whenHeard s f act) := by
  unfold whenHeard
  exact onBus_only h (fun u hu => ite_only hu (k u hu)) (subset_sub hp (by decide))

theorem nodeCtl_only {s : State} {f : BusRx} {ser : Nat} {act : State → State} (h : Within pl sb s)
    (k : ∀ u, Within pl sb u → Within pl sb (act u)) (hp : [.out, .regs, .ctl, .mgt, .alm, .tel] ⊆ pl) : Within pl sb (nodeCtl s f ser act) := by
  unfold nodeCtl
  exact onBus_only h (fun u hu => ite_only hu (k u hu)) (subset_sub hp (by decide))

theorem asInstaller_only {s : State} {f : BusRx} {op : Nat} {act : State → State} (h : Within pl sb s)
    (k : ∀ u, Within pl sb u → Within pl sb (act u)) (hp : [.ctl, .alm] ⊆ pl) : Within pl sb (asInstaller s f op act) := by
  unfold asInstaller
  exact ite_only (journal_only h (subset_sub hp (by decide))) (k _ h)

theorem execNcResetComm_holds {f : BusRx} {serial : Nat} {s : State} (hO : Within pl sb s) (hP : [.out, .regs, .ctl, .mgt, .alm, .tel] ⊆ pl) : Holds (InNext pl sb) (execNcResetComm f serial s) := by
  unfold execNcResetComm
  repeat' first
    | with_reducible refine leaf_next ?_
    | with_reducible assumption
    | with_reducible refine dropAddress_only ?_ (subset_sub hP (by decide))
    | with_reducible refine nodeCtl_only ?_ (fun _ _ => ?_) (subset_sub hP (by decide))
theorem execNcResetComm_only {f : BusRx} {serial : Nat} {s : State} {t : State} (hO : Within pl sb s) (hP : [.out, .regs, .ctl, .mgt, .alm, .tel] ⊆ pl) (hE : execNcResetComm f serial s = .next t) : Within pl sb t := by
  have k : Holds (InNext pl sb) (execNcResetComm f serial s) := execNcResetComm_holds (f := f) (serial := serial) (s := s) hO hP
  rw [hE] at k; exact k.of

theorem execNcSilence_holds {f : BusRx} {serial : Nat} {s : State} (hO : Within pl sb s) (hP : [.out, .regs, .ctl, .mgt, .alm, .tel] ⊆ pl) : Holds (InNext pl sb) (execNcSilence f serial s) := by
  unfold execNcSilence
  repeat' first
    | with_reducible refine leaf_next ?_
    | with_reducible assumption
    | with_reducible refine nodeCtl_only ?_ (fun _ _ => ?_) (subset_sub hP (by decide))
    | with_reducible refine setBus_only ?_ (subset_sub hP (by decide))
    | with_reducible refine modMgt_only ?_ (subset_sub hP (by decide))
    | split
theorem execNcSilence_only {f : BusRx} {serial : Nat} {s : State} {t : State} (hO : Within pl sb s) (hP : [.out, .regs, .ctl, .mgt, .alm, .tel] ⊆ pl) (hE : execNcSilence f serial s = .next t) : Within pl sb t := by
  have k : Holds (InNext pl sb) (execNcSilence f serial s) := execNcSilence_holds (f := f) (serial := serial) (s := s) hO hP
  rw [hE] at k; exact k.of

theorem execNcResume_holds {f : BusRx} {serial : Nat} {s : State} (hO : Within pl sb s) (hP : [.out, .regs, .ctl, .mgt, .alm, .tel] ⊆ pl) : Holds (InNext pl sb) (execNcResume f serial s) := by
  unfold execNcResume
  repeat' first
    | with_reducible refine leaf_next ?_
    | with_reducible assumption
    | with_reducible refine ite_only ?_ ?_
    | with_reducible refine nodeCtl_only ?_ (fun _ _ => ?_) (subset_sub hP (by decide))
    | with_reducible refine setBus_only ?_ (subset_sub hP (by decide))
theorem execNcResume_only {f : BusRx} {serial : Nat} {s : State} {t : State} (hO : Within pl sb s) (hP : [.out, .regs, .ctl, .mgt, .alm, .tel] ⊆ pl) (hE : execNcResume f serial s = .next t) : Within pl sb t := by
  have k : Holds (InNext pl sb) (execNcResume f serial s) := execNcResume_holds (f := f) (serial := serial) (s := s) hO hP
  rw [hE] at k; exact k.of

theorem execNcStoreAddr_holds {f : BusRx} {serial : Nat} {s : State} (hO : Within pl sb s) (hP : [.out, .regs, .ctl, .mgt, .alm, .tel] ⊆ pl) : Holds (InNext pl sb) (execNcStoreAddr f serial s) := by
  unfold execNcStoreAddr
  repeat' first
    | with_reducible refine leaf_next ?_
    | with_reducible assumption
    | with_reducible refine addrEvent_only ?_ (subset_sub hP (by decide))
    | with_reducible refine almQueue_only ?_ (subset_sub hP (by decide))
    | with_reducible refine asInstaller_only ?_ (fun _ _ => ?_) (subset_sub hP (by decide))
    | with_reducible refine nodeCtl_only ?_ (fun _ _ => ?_) (subset_sub hP (by decide))
theorem execNcStoreAddr_only {f : BusRx} {serial : Nat} {s : State} {t : State} (hO : Within pl sb s) (hP : [.out, .regs, .ctl, .mgt, .alm, .tel] ⊆ pl) (hE : execNcStoreAddr f serial s = .next t) : Within pl sb t := by
  have k : Holds (InNext pl sb) (execNcStoreAddr f serial s) := execNcStoreAddr_holds (f := f) (serial := serial) (s := s) hO hP
  rw [hE] at k; exact k.of

theorem execNcWarmReset_holds {f : BusRx} {serial : Nat} {s : State} (hO : Within pl sb s) (hP : [.out, .regs, .cons, .qtrs, .eph, .work, .tabs, .mem, .serve, .fab, .px, .ptns, .ctl, .mgt, .alm, .tel, .ras, .boot] ⊆ pl) : Holds (InNext pl sb) (execNcWarmReset f serial s) := by
  unfold execNcWarmReset
  repeat' first
    | with_reducible refine leaf_next ?_
    | with_reducible assumption
    | with_reducible refine ite_only ?_ ?_
    | with_reducible refine asInstaller_only ?_ (fun _ _ => ?_) (subset_sub hP (by decide))
    | with_reducible refine nodeCtl_only ?_ (fun _ _ => ?_) (subset_sub hP (by decide))
    | with_reducible refine stopPlane_only ?_ (subset_sub hP (by decide))
    | with_reducible refine warmStart_only ?_ (subset_sub hP (by decide))
theorem execNcWarmReset_only {f : BusRx} {serial : Nat} {s : State} {t : State} (hO : Within pl sb s) (hP : [.out, .regs, .cons, .qtrs, .eph, .work, .tabs, .mem, .serve, .fab, .px, .ptns, .ctl, .mgt, .alm, .tel, .ras, .boot] ⊆ pl) (hE : execNcWarmReset f serial s = .next t) : Within pl sb t := by
  have k : Holds (InNext pl sb) (execNcWarmReset f serial s) := execNcWarmReset_holds (f := f) (serial := serial) (s := s) hO hP
  rw [hE] at k; exact k.of

theorem execCanTimeFrame_holds {f : BusRx} {data : List Byte} {s : State} (hO : Within pl sb s) (hP : [.out, .regs, .ctl, .mgt, .alm, .tel, .mer] ⊆ pl) : Holds (InNext pl sb) (execCanTimeFrame f data s) := by
  unfold execCanTimeFrame
  repeat' first
    | with_reducible refine leaf_next ?_
    | with_reducible assumption
    | with_reducible refine ite_only ?_ ?_
    | with_reducible refine whenHeard_only ?_ (fun _ _ => ?_) (subset_sub hP (by decide))
    | with_reducible refine modMer_only ?_ (subset_sub hP (by decide))
theorem execCanTimeFrame_only {f : BusRx} {data : List Byte} {s : State} {t : State} (hO : Within pl sb s) (hP : [.out, .regs, .ctl, .mgt, .alm, .tel, .mer] ⊆ pl) (hE : execCanTimeFrame f data s = .next t) : Within pl sb t := by
  have k : Holds (InNext pl sb) (execCanTimeFrame f data s) := execCanTimeFrame_holds (f := f) (data := data) (s := s) hO hP
  rw [hE] at k; exact k.of

theorem execTimeFrameTx_holds {s : State} (hO : Within pl sb s) (hP : [.out, .ctl, .mgt] ⊆ pl) : Holds (InNext pl sb) (execTimeFrameTx s) := by
  unfold execTimeFrameTx
  repeat' first
    | with_reducible refine leaf_next ?_
    | with_reducible assumption
    | with_reducible refine ite_only ?_ ?_
    | with_reducible refine busSend_only ?_ (subset_sub hP (by decide))
    | with_reducible refine modMgt_only ?_ (subset_sub hP (by decide))
    | (extract_lets +onlyGivenNames -underBinder x; refine cut_only (ps := pl) (s := sb) (a := x) ?_ ?_; unfold x; rotate_left; clear_value x; intro hx)
    | (extract_lets +onlyGivenNames -underBinder x; (try unfold x); clear x)
theorem execTimeFrameTx_only {s : State} {t : State} (hO : Within pl sb s) (hP : [.out, .ctl, .mgt] ⊆ pl) (hE : execTimeFrameTx s = .next t) : Within pl sb t := by
  have k : Holds (InNext pl sb) (execTimeFrameTx s) := execTimeFrameTx_holds (s := s) hO hP
  rw [hE] at k; exact k.of

theorem execSearchStart_holds {f : BusRx} {reassign : Bool} {s : State} (hO : Within pl sb s) (hP : [.out, .regs, .ctl, .mgt, .alm, .tel] ⊆ pl) : Holds (InNext pl sb) (execSearchStart f reassign s) := by
  unfold execSearchStart
  repeat' first
    | with_reducible refine leaf_next ?_
    | with_reducible assumption
    | with_reducible refine ite_only ?_ ?_
    | with_reducible refine setBus_only ?_ (subset_sub hP (by decide))
    | with_reducible refine whenHeard_only ?_ (fun _ _ => ?_) (subset_sub hP (by decide))
    | with_reducible refine modMgt_only ?_ (subset_sub hP (by decide))
    | split
theorem execSearchStart_only {f : BusRx} {reassign : Bool} {s : State} {t : State} (hO : Within pl sb s) (hP : [.out, .regs, .ctl, .mgt, .alm, .tel] ⊆ pl) (hE : execSearchStart f reassign s = .next t) : Within pl sb t := by
  have k : Holds (InNext pl sb) (execSearchStart f reassign s) := execSearchStart_holds (f := f) (reassign := reassign) (s := s) hO hP
  rw [hE] at k; exact k.of

theorem searchFrame_only {s : State} {f : BusRx} {src : Nat} {data : List Byte} (hO : Within pl sb s) (hP : [.out, .ctl] ⊆ pl) : Within pl sb (searchFrame s f src data) := by
  unfold searchFrame
  repeat' first
    | with_reducible assumption
    | with_reducible refine busSend_only ?_ (subset_sub hP (by decide))

theorem execSearchProbe_holds {f : BusRx} {n pfx : Nat} {s : State} (hO : Within pl sb s) (hP : [.out, .regs, .ctl, .mgt, .alm, .tel] ⊆ pl) : Holds (InNext pl sb) (execSearchProbe f n pfx s) := by
  unfold execSearchProbe
  repeat' first
    | with_reducible refine leaf_next ?_
    | with_reducible assumption
    | with_reducible refine ite_only ?_ ?_
    | with_reducible refine searchFrame_only ?_ (subset_sub hP (by decide))
    | with_reducible refine searchHeard_only ?_ (subset_sub hP (by decide))
    | with_reducible refine whenHeard_only ?_ (fun _ _ => ?_) (subset_sub hP (by decide))
theorem execSearchProbe_only {f : BusRx} {n pfx : Nat} {s : State} {t : State} (hO : Within pl sb s) (hP : [.out, .regs, .ctl, .mgt, .alm, .tel] ⊆ pl) (hE : execSearchProbe f n pfx s = .next t) : Within pl sb t := by
  have k : Holds (InNext pl sb) (execSearchProbe f n pfx s) := execSearchProbe_holds (f := f) (n := n) (pfx := pfx) (s := s) hO hP
  rw [hE] at k; exact k.of

theorem execSearchAssign_holds {f : BusRx} {addr ser : Nat} {s : State} (hO : Within pl sb s) (hP : [.out, .regs, .ctl, .mgt, .alm, .tel] ⊆ pl) : Holds (InNext pl sb) (execSearchAssign f addr ser s) := by
  unfold execSearchAssign
  repeat' first
    | with_reducible refine leaf_next ?_
    | with_reducible assumption
    | with_reducible refine ite_only ?_ ?_
    | with_reducible refine searchFrame_only ?_ (subset_sub hP (by decide))
    | with_reducible refine searchHeard_only ?_ (subset_sub hP (by decide))
    | with_reducible refine whenHeard_only ?_ (fun _ _ => ?_) (subset_sub hP (by decide))
    | with_reducible refine modMgt_only ?_ (subset_sub hP (by decide))
theorem execSearchAssign_only {f : BusRx} {addr ser : Nat} {s : State} {t : State} (hO : Within pl sb s) (hP : [.out, .regs, .ctl, .mgt, .alm, .tel] ⊆ pl) (hE : execSearchAssign f addr ser s = .next t) : Within pl sb t := by
  have k : Holds (InNext pl sb) (execSearchAssign f addr ser s) := execSearchAssign_holds (f := f) (addr := addr) (ser := ser) (s := s) hO hP
  rw [hE] at k; exact k.of

theorem execSearchConfirm_holds {f : BusRx} {ser : Nat} {s : State} (hO : Within pl sb s) (hP : [.out, .regs, .ctl, .mgt, .alm, .tel] ⊆ pl) : Holds (InNext pl sb) (execSearchConfirm f ser s) := by
  unfold execSearchConfirm
  repeat' first
    | with_reducible refine leaf_next ?_
    | with_reducible assumption
    | with_reducible refine ite_only ?_ ?_
    | with_reducible refine addrEvent_only ?_ (subset_sub hP (by decide))
    | with_reducible refine searchHeard_only ?_ (subset_sub hP (by decide))
    | with_reducible refine setBus_only ?_ (subset_sub hP (by decide))
    | with_reducible refine whenHeard_only ?_ (fun _ _ => ?_) (subset_sub hP (by decide))
    | with_reducible refine modMgt_only ?_ (subset_sub hP (by decide))
    | split
theorem execSearchConfirm_only {f : BusRx} {ser : Nat} {s : State} {t : State} (hO : Within pl sb s) (hP : [.out, .regs, .ctl, .mgt, .alm, .tel] ⊆ pl) (hE : execSearchConfirm f ser s = .next t) : Within pl sb t := by
  have k : Holds (InNext pl sb) (execSearchConfirm f ser s) := execSearchConfirm_holds (f := f) (ser := ser) (s := s) hO hP
  rw [hE] at k; exact k.of

theorem execSearchEnd_holds {f : BusRx} {s : State} (hO : Within pl sb s) (hP : [.out, .regs, .ctl, .mgt, .alm, .tel] ⊆ pl) : Holds (InNext pl sb) (execSearchEnd f s) := by
  unfold execSearchEnd
  repeat' first
    | with_reducible refine leaf_next ?_
    | with_reducible assumption
    | with_reducible refine ite_only ?_ ?_
    | with_reducible refine onBus_only ?_ (fun _ _ => ?_) (subset_sub hP (by decide))
    | with_reducible refine rejoin_only ?_ (subset_sub hP (by decide))
theorem execSearchEnd_only {f : BusRx} {s : State} {t : State} (hO : Within pl sb s) (hP : [.out, .regs, .ctl, .mgt, .alm, .tel] ⊆ pl) (hE : execSearchEnd f s = .next t) : Within pl sb t := by
  have k : Holds (InNext pl sb) (execSearchEnd f s) := execSearchEnd_holds (f := f) (s := s) hO hP
  rw [hE] at k; exact k.of

theorem execSearchHeard_holds {f : BusRx} {s : State} (hO : Within pl sb s) (hP : [.out, .regs, .ctl, .mgt, .alm, .tel] ⊆ pl) : Holds (InNext pl sb) (execSearchHeard f s) := by
  unfold execSearchHeard
  repeat' first
    | with_reducible refine leaf_next ?_
    | with_reducible assumption
    | with_reducible refine ite_only ?_ ?_
    | with_reducible refine searchHeard_only ?_ (subset_sub hP (by decide))
theorem execSearchHeard_only {f : BusRx} {s : State} {t : State} (hO : Within pl sb s) (hP : [.out, .regs, .ctl, .mgt, .alm, .tel] ⊆ pl) (hE : execSearchHeard f s = .next t) : Within pl sb t := by
  have k : Holds (InNext pl sb) (execSearchHeard f s) := execSearchHeard_holds (f := f) (s := s) hO hP
  rw [hE] at k; exact k.of

theorem execCanHeartbeatRx_holds {f : BusRx} {serial : Nat} {s : State} (hO : Within pl sb s) (hP : [.out, .regs, .fab, .ctl, .mgt, .alm, .tel] ⊆ pl) : Holds (InNext pl sb) (execCanHeartbeatRx f serial s) := by
  unfold execCanHeartbeatRx
  repeat' first
    | with_reducible refine leaf_next ?_
    | with_reducible assumption
    | with_reducible refine ite_only ?_ ?_
    | with_reducible refine onBus_only ?_ (fun _ _ => ?_) (subset_sub hP (by decide))
    | with_reducible refine modFab_only ?_ (subset_sub hP (by decide))
theorem execCanHeartbeatRx_only {f : BusRx} {serial : Nat} {s : State} {t : State} (hO : Within pl sb s) (hP : [.out, .regs, .fab, .ctl, .mgt, .alm, .tel] ⊆ pl) (hE : execCanHeartbeatRx f serial s = .next t) : Within pl sb t := by
  have k : Holds (InNext pl sb) (execCanHeartbeatRx f serial s) := execCanHeartbeatRx_holds (f := f) (serial := serial) (s := s) hO hP
  rw [hE] at k; exact k.of

theorem execAddressConflict_holds {s : State} (hO : Within pl sb s) (hP : [.out, .regs, .ctl, .mgt, .alm, .tel] ⊆ pl) : Holds (InNext pl sb) (execAddressConflict s) := by
  unfold execAddressConflict
  repeat' first
    | with_reducible refine leaf_next ?_
    | with_reducible assumption
    | with_reducible refine ite_only ?_ ?_
    | with_reducible refine dropAddress_only ?_ (subset_sub hP (by decide))
theorem execAddressConflict_only {s : State} {t : State} (hO : Within pl sb s) (hP : [.out, .regs, .ctl, .mgt, .alm, .tel] ⊆ pl) (hE : execAddressConflict s = .next t) : Within pl sb t := by
  have k : Holds (InNext pl sb) (execAddressConflict s) := execAddressConflict_holds (s := s) hO hP
  rw [hE] at k; exact k.of

theorem execListenEnd_holds {s : State} (hO : Within pl sb s) (hP : [.out, .ctl, .mgt] ⊆ pl) : Holds (InNext pl sb) (execListenEnd s) := by
  unfold execListenEnd
  repeat' first
    | with_reducible refine leaf_next ?_
    | with_reducible assumption
    | with_reducible refine ite_only ?_ ?_
    | with_reducible refine hotJoin_only ?_ (subset_sub hP (by decide))
    | with_reducible refine modMgt_only ?_ (subset_sub hP (by decide))
theorem execListenEnd_only {s : State} {t : State} (hO : Within pl sb s) (hP : [.out, .ctl, .mgt] ⊆ pl) (hE : execListenEnd s = .next t) : Within pl sb t := by
  have k : Holds (InNext pl sb) (execListenEnd s) := execListenEnd_holds (s := s) hO hP
  rw [hE] at k; exact k.of

theorem execConfirmTimeout_holds {s : State} (hO : Within pl sb s) (hP : [.out, .regs, .ctl, .mgt, .alm, .tel] ⊆ pl) : Holds (InNext pl sb) (execConfirmTimeout s) := by
  unfold execConfirmTimeout
  repeat' first
    | with_reducible refine leaf_next ?_
    | with_reducible assumption
    | with_reducible refine addrEvent_only ?_ (subset_sub hP (by decide))
    | with_reducible refine modMgt_only ?_ (subset_sub hP (by decide))
    | split
theorem execConfirmTimeout_only {s : State} {t : State} (hO : Within pl sb s) (hP : [.out, .regs, .ctl, .mgt, .alm, .tel] ⊆ pl) (hE : execConfirmTimeout s = .next t) : Within pl sb t := by
  have k : Holds (InNext pl sb) (execConfirmTimeout s) := execConfirmTimeout_holds (s := s) hO hP
  rw [hE] at k; exact k.of

theorem execSilentSearchTimeout_holds {s : State} (hO : Within pl sb s) (hP : [.out, .regs, .ctl, .mgt, .alm, .tel] ⊆ pl) : Holds (InNext pl sb) (execSilentSearchTimeout s) := by
  unfold execSilentSearchTimeout
  repeat' first
    | with_reducible refine leaf_next ?_
    | with_reducible assumption
    | with_reducible refine ite_only ?_ ?_
    | with_reducible refine rejoin_only ?_ (subset_sub hP (by decide))
theorem execSilentSearchTimeout_only {s : State} {t : State} (hO : Within pl sb s) (hP : [.out, .regs, .ctl, .mgt, .alm, .tel] ⊆ pl) (hE : execSilentSearchTimeout s = .next t) : Within pl sb t := by
  have k : Holds (InNext pl sb) (execSilentSearchTimeout s) := execSilentSearchTimeout_holds (s := s) hO hP
  rw [hE] at k; exact k.of

theorem execAckErrorLimit_holds {s : State} (hO : Within pl sb s) (hP : [.out, .regs, .ctl, .mgt, .alm, .tel] ⊆ pl) : Holds (InNext pl sb) (execAckErrorLimit s) := by
  unfold execAckErrorLimit
  repeat' first
    | with_reducible refine leaf_next ?_
    | with_reducible assumption
    | with_reducible refine ite_only ?_ ?_
    | with_reducible refine odCount_only ?_ (subset_sub hP (by decide))
    | with_reducible refine setBus_only ?_ (subset_sub hP (by decide))
    | with_reducible refine modMgt_only ?_ (subset_sub hP (by decide))
    | split
theorem execAckErrorLimit_only {s : State} {t : State} (hO : Within pl sb s) (hP : [.out, .regs, .ctl, .mgt, .alm, .tel] ⊆ pl) (hE : execAckErrorLimit s = .next t) : Within pl sb t := by
  have k : Holds (InNext pl sb) (execAckErrorLimit s) := execAckErrorLimit_holds (s := s) hO hP
  rw [hE] at k; exact k.of

theorem execLoneFrameAcked_holds {s : State} (hO : Within pl sb s) (hP : [.out, .regs, .ctl, .mgt, .alm, .tel] ⊆ pl) : Holds (InNext pl sb) (execLoneFrameAcked s) := by
  unfold execLoneFrameAcked
  repeat' first
    | with_reducible refine leaf_next ?_
    | with_reducible assumption
    | with_reducible refine ite_only ?_ ?_
    | with_reducible refine foldl_only ?_ fun _ _ _ => ?_
    | with_reducible refine mgtEvent_only ?_ (subset_sub hP (by decide))
    | with_reducible refine odCount_only ?_ (subset_sub hP (by decide))
    | with_reducible refine sendFrame_only ?_ (subset_sub hP (by decide))
    | with_reducible refine modMgt_only ?_ (subset_sub hP (by decide))
    | (extract_lets +onlyGivenNames -underBinder x; refine cut_only (ps := pl) (s := sb) (a := x) ?_ ?_; unfold x; rotate_left; clear_value x; intro hx)
    | (extract_lets +onlyGivenNames -underBinder x; (try unfold x); clear x)
theorem execLoneFrameAcked_only {s : State} {t : State} (hO : Within pl sb s) (hP : [.out, .regs, .ctl, .mgt, .alm, .tel] ⊆ pl) (hE : execLoneFrameAcked s = .next t) : Within pl sb t := by
  have k : Holds (InNext pl sb) (execLoneFrameAcked s) := execLoneFrameAcked_holds (s := s) hO hP
  rw [hE] at k; exact k.of

theorem heartbeat_only {s : State} (hO : Within pl sb s) (hP : [.out, .ctl, .mgt] ⊆ pl) : Within pl sb (heartbeat s) := by
  unfold heartbeat
  repeat' first
    | with_reducible assumption
    | with_reducible refine busSend_only ?_ (subset_sub hP (by decide))
    | with_reducible refine modMgt_only ?_ (subset_sub hP (by decide))
    | (extract_lets +onlyGivenNames -underBinder x; refine cut_only (ps := pl) (s := sb) (a := x) ?_ ?_; unfold x; rotate_left; clear_value x; intro hx)
    | (extract_lets +onlyGivenNames -underBinder x; (try unfold x); clear x)

theorem execLoneProbeTimer_holds {s : State} (hO : Within pl sb s) (hP : [.out, .ctl, .mgt] ⊆ pl) : Holds (InNext pl sb) (execLoneProbeTimer s) := by
  unfold execLoneProbeTimer
  repeat' first
    | with_reducible refine leaf_next ?_
    | with_reducible assumption
    | with_reducible refine ite_only ?_ ?_
    | with_reducible refine heartbeat_only ?_ (subset_sub hP (by decide))
theorem execLoneProbeTimer_only {s : State} {t : State} (hO : Within pl sb s) (hP : [.out, .ctl, .mgt] ⊆ pl) (hE : execLoneProbeTimer s = .next t) : Within pl sb t := by
  have k : Holds (InNext pl sb) (execLoneProbeTimer s) := execLoneProbeTimer_holds (s := s) hO hP
  rw [hE] at k; exact k.of

theorem execHeartbeatPeriod_holds {s : State} (hO : Within pl sb s) (hP : [.out, .ctl, .mgt] ⊆ pl) : Holds (InNext pl sb) (execHeartbeatPeriod s) := by
  unfold execHeartbeatPeriod
  repeat' first
    | with_reducible refine leaf_next ?_
    | with_reducible assumption
    | with_reducible refine ite_only ?_ ?_
    | with_reducible refine heartbeat_only ?_ (subset_sub hP (by decide))
theorem execHeartbeatPeriod_only {s : State} {t : State} (hO : Within pl sb s) (hP : [.out, .ctl, .mgt] ⊆ pl) (hE : execHeartbeatPeriod s = .next t) : Within pl sb t := by
  have k : Holds (InNext pl sb) (execHeartbeatPeriod s) := execHeartbeatPeriod_holds (s := s) hO hP
  rw [hE] at k; exact k.of

theorem execHotJoinBackoff_holds {s : State} (hO : Within pl sb s) (hP : [.out, .ctl, .mgt] ⊆ pl) : Holds (InNext pl sb) (execHotJoinBackoff s) := by
  unfold execHotJoinBackoff
  repeat' first
    | with_reducible refine leaf_next ?_
    | with_reducible assumption
    | with_reducible refine ite_only ?_ ?_
    | with_reducible refine hotJoin_only ?_ (subset_sub hP (by decide))
    | with_reducible refine modMgt_only ?_ (subset_sub hP (by decide))
theorem execHotJoinBackoff_only {s : State} {t : State} (hO : Within pl sb s) (hP : [.out, .ctl, .mgt] ⊆ pl) (hE : execHotJoinBackoff s = .next t) : Within pl sb t := by
  have k : Holds (InNext pl sb) (execHotJoinBackoff s) := execHotJoinBackoff_holds (s := s) hO hP
  rw [hE] at k; exact k.of

theorem execCanIgnoredFrame_holds {s : State} (hO : Within pl sb s) (hP : [.ctl] ⊆ pl) : Holds (InNext pl sb) (execCanIgnoredFrame s) := by
  unfold execCanIgnoredFrame
  repeat' first
    | with_reducible refine leaf_next ?_
    | with_reducible assumption
    | with_reducible refine ite_only ?_ ?_
    | with_reducible refine odCount_only ?_ (subset_sub hP (by decide))
theorem execCanIgnoredFrame_only {s : State} {t : State} (hO : Within pl sb s) (hP : [.ctl] ⊆ pl) (hE : execCanIgnoredFrame s = .next t) : Within pl sb t := by
  have k : Holds (InNext pl sb) (execCanIgnoredFrame s) := execCanIgnoredFrame_holds (s := s) hO hP
  rw [hE] at k; exact k.of

theorem execCanErrorFrame_holds {join off : Bool} {s : State} (hO : Within pl sb s) (hP : [.ctl, .mgt] ⊆ pl) : Holds (InNext pl sb) (execCanErrorFrame join off s) := by
  unfold execCanErrorFrame
  repeat' first
    | with_reducible refine leaf_next ?_
    | with_reducible assumption
    | with_reducible refine ite_only ?_ ?_
    | with_reducible refine odCount_only ?_ (subset_sub hP (by decide))
    | with_reducible refine modMgt_only ?_ (subset_sub hP (by decide))
theorem execCanErrorFrame_only {join off : Bool} {s : State} {t : State} (hO : Within pl sb s) (hP : [.ctl, .mgt] ⊆ pl) (hE : execCanErrorFrame join off s = .next t) : Within pl sb t := by
  have k : Holds (InNext pl sb) (execCanErrorFrame join off s) := execCanErrorFrame_holds (join := join) (off := off) (s := s) hO hP
  rw [hE] at k; exact k.of

theorem execCanBusOffRecovery_holds {s : State} (hO : Within pl sb s) (hP : [.ctl, .mgt] ⊆ pl) : Holds (InNext pl sb) (execCanBusOffRecovery s) := by
  unfold execCanBusOffRecovery
  repeat' first
    | with_reducible refine leaf_next ?_
    | with_reducible assumption
    | with_reducible refine ite_only ?_ ?_
    | with_reducible refine odCount_only ?_ (subset_sub hP (by decide))
    | with_reducible refine modMgt_only ?_ (subset_sub hP (by decide))
theorem execCanBusOffRecovery_only {s : State} {t : State} (hO : Within pl sb s) (hP : [.ctl, .mgt] ⊆ pl) (hE : execCanBusOffRecovery s = .next t) : Within pl sb t := by
  have k : Holds (InNext pl sb) (execCanBusOffRecovery s) := execCanBusOffRecovery_holds (s := s) hO hP
  rw [hE] at k; exact k.of

theorem dropOdXfer_only {s : State} {w : OdSrc} (hO : Within pl sb s) (hP : [.mgt] ⊆ pl) : Within pl sb (dropOdXfer s w) := by
  unfold dropOdXfer
  repeat' first
    | with_reducible assumption
    | with_reducible refine modMgt_only ?_ (subset_sub hP (by decide))

theorem keptAnswer_only_eq {s : State} {w : OdSrc} {func : Nat} {ra : State} (h : Within pl sb s) (hp : [.out, .ctl] ⊆ pl)
    (e : keptAnswer s w func = some ra) : Within pl sb ra := by
  unfold keptAnswer at e
  obtain ⟨k, -, rfl⟩ := Option.map_eq_some_iff.mp e
  exact foldl_only h fun v x hv => busSend_only hv (subset_sub hp (by decide))

theorem firstSegment_only {s : State} {w : OdSrc} {write : Bool} {go : State → Nat → Nat → Nat → State} (h : Within pl sb s)
    (k : ∀ u a b c, Within pl sb u → Within pl sb (go u a b c)) (hp : [.out, .regs, .ctl, .mgt] ⊆ pl) : Within pl sb (firstSegment s w write go) := by
  unfold firstSegment
  extract_lets idx sub n s1
  split
  · exact keptAnswer_only_eq h (subset_sub hp (by decide)) (by assumption)
  · have h1 : Within pl sb s1 := dropOdXfer_only h (subset_sub hp (by decide))
    exact ite_only (odAnswer_only h1 (subset_sub hp (by decide))) (ite_only (odAnswer_only h1 (subset_sub hp (by decide))) (k _ _ _ _ h1))

theorem execCanOdRead_holds {f : BusRx} {data : List Byte} {s : State} (hO : Within pl sb s) (hP : [.out, .freeCount, .regs, .ctl, .mgt, .alm, .tel] ⊆ pl) : Holds (InNext pl sb) (execCanOdRead f data s) := by
  unfold execCanOdRead
  repeat' first
    | with_reducible refine leaf_next ?_
    | with_reducible assumption
    | with_reducible refine ite_only ?_ ?_
    | with_reducible refine firstSegment_only ?_ (fun _ _ _ _ _ => ?_) (subset_sub hP (by decide))
    | with_reducible refine odReadCmd_only ?_ (subset_sub hP (by decide))
    | with_reducible refine whenHeard_only ?_ (fun _ _ => ?_) (subset_sub hP (by decide))
    | (extract_lets +onlyGivenNames -underBinder x; refine cut_only (ps := pl) (s := sb) (a := x) ?_ ?_; unfold x; rotate_left; clear_value x; intro hx)
    | (extract_lets +onlyGivenNames -underBinder x; (try unfold x); clear x)
theorem execCanOdRead_only {f : BusRx} {data : List Byte} {s : State} {t : State} (hO : Within pl sb s) (hP : [.out, .freeCount, .regs, .ctl, .mgt, .alm, .tel] ⊆ pl) (hE : execCanOdRead f data s = .next t) : Within pl sb t := by
  have k : Holds (InNext pl sb) (execCanOdRead f data s) := execCanOdRead_holds (f := f) (data := data) (s := s) hO hP
  rw [hE] at k; exact k.of

theorem execCanOdWrite_holds {f : BusRx} {data : List Byte} {x : Ext} {s : State} (hO : Within pl sb s) (hP : allParts ⊆ pl) : Holds (InNext pl sb) (execCanOdWrite f data x s) := by
  unfold execCanOdWrite
  repeat' first
    | with_reducible refine leaf_next ?_
    | with_reducible assumption
    | with_reducible refine ite_only ?_ ?_
    | with_reducible refine dropOdXfer_only ?_ (subset_sub hP (by decide))
    | with_reducible refine firstSegment_only ?_ (fun _ _ _ _ _ => ?_) (subset_sub hP (by decide))
    | with_reducible refine odAnswer_only ?_ (subset_sub hP (by decide))
    | with_reducible refine odWriteCmd_only ?_ (subset_sub hP (by decide))
    | with_reducible refine whenHeard_only ?_ (fun _ _ => ?_) (subset_sub hP (by decide))
    | with_reducible refine modMgt_only ?_ (subset_sub hP (by decide))
    | (extract_lets +onlyGivenNames -underBinder x; refine cut_only (ps := pl) (s := sb) (a := x) ?_ ?_; unfold x; rotate_left; clear_value x; intro hx)
    | (extract_lets +onlyGivenNames -underBinder x; (try unfold x); clear x)
    | split
theorem execCanOdWrite_only {f : BusRx} {data : List Byte} {x : Ext} {s : State} {t : State} (hO : Within pl sb s) (hP : allParts ⊆ pl) (hE : execCanOdWrite f data x s = .next t) : Within pl sb t := by
  have k : Holds (InNext pl sb) (execCanOdWrite f data x s) := execCanOdWrite_holds (f := f) (data := data) (x := x) (s := s) hO hP
  rw [hE] at k; exact k.of

theorem execOdSegmentTimeout_holds {src txn : Nat} {s : State} (hO : Within pl sb s) (hP : [.out, .regs, .ctl, .mgt] ⊆ pl) : Holds (InNext pl sb) (execOdSegmentTimeout src txn s) := by
  unfold execOdSegmentTimeout
  repeat' first
    | with_reducible refine leaf_next ?_
    | with_reducible assumption
    | with_reducible refine dropOdXfer_only ?_ (subset_sub hP (by decide))
    | with_reducible refine odAnswer_only ?_ (subset_sub hP (by decide))
    | (extract_lets +onlyGivenNames -underBinder x; refine cut_only (ps := pl) (s := sb) (a := x) ?_ ?_; unfold x; rotate_left; clear_value x; intro hx)
    | (extract_lets +onlyGivenNames -underBinder x; (try unfold x); clear x)
    | split
theorem execOdSegmentTimeout_only {src txn : Nat} {s : State} {t : State} (hO : Within pl sb s) (hP : [.out, .regs, .ctl, .mgt] ⊆ pl) (hE : execOdSegmentTimeout src txn s = .next t) : Within pl sb t := by
  have k : Holds (InNext pl sb) (execOdSegmentTimeout src txn s) := execOdSegmentTimeout_holds (src := src) (txn := txn) (s := s) hO hP
  rw [hE] at k; exact k.of

theorem execOdAnswerExpiry_holds {src txn : Nat} {s : State} (hO : Within pl sb s) (hP : [.mgt] ⊆ pl) : Holds (InNext pl sb) (execOdAnswerExpiry src txn s) := by
  unfold execOdAnswerExpiry
  repeat' first
    | with_reducible refine leaf_next ?_
    | with_reducible assumption
    | with_reducible refine modMgt_only ?_ (subset_sub hP (by decide))
theorem execOdAnswerExpiry_only {src txn : Nat} {s : State} {t : State} (hO : Within pl sb s) (hP : [.mgt] ⊆ pl) (hE : execOdAnswerExpiry src txn s = .next t) : Within pl sb t := by
  have k : Holds (InNext pl sb) (execOdAnswerExpiry src txn s) := execOdAnswerExpiry_holds (src := src) (txn := txn) (s := s) hO hP
  rw [hE] at k; exact k.of

end Sys2Proof.Machine
end

