-- ==== Sys2Proof/Laws/FrameCycle.lean ====
section
/-! SUPPORT. What each function of Machine/Cycle.lean can do to the state as a whole: the parts it can change; the queue, the population and the
canonical forms it keeps. `f_only` speaks of the state that `f` answers, `f_holds` of a state inside its answer, `f_only_eq` of one taken out. -/

-- One declaration at a time: thousands of proofs in flight at once ask for more threads than fit in memory.
set_option Elab.async false

set_option linter.unusedTactic false
set_option linter.unreachableTactic false
set_option linter.unusedVariables false
set_option linter.unusedSimpArgs false
namespace Sys2Proof.Machine
open Sys2Proof
variable {pl : List Part} {sb : State}

theorem arrive_only {s : State} (hO : Within pl sb s) (hP : [.out, .regs, .eph, .mem, .serve, .px, .ctl, .mgt, .alm, .tel, .mer] ⊆ pl) : Within pl sb (arrive s) := by
  unfold arrive
  repeat' first
    | with_reducible assumption
    | with_reducible refine ite_only ?_ ?_
    | with_reducible refine afterStep_only ?_ (subset_sub hP (by decide))
    | with_reducible refine passTime_only ?_ (subset_sub hP (by decide))
    | with_reducible refine stepEnd_only ?_ (subset_sub hP (by decide))
    | with_reducible refine modEph_only ?_ (subset_sub hP (by decide))
    | (extract_lets +onlyGivenNames -underBinder x; refine cut_only (ps := pl) (s := sb) (a := x) ?_ ?_; unfold x; rotate_left; clear_value x; intro hx)
    | (extract_lets +onlyGivenNames -underBinder x; (try unfold x); clear x)

theorem crossSlot_only {s : State} {sec ent : Nat} (hO : Within pl sb s) (hP : [.eph, .work] ⊆ pl) : Within pl sb (crossSlot s sec ent) := by
  unfold crossSlot
  repeat' first
    | with_reducible assumption
    | with_reducible refine ite_only ?_ ?_
    | with_reducible refine modSlot_only ?_ (subset_sub hP (by decide))
    | with_reducible refine modWork_only ?_ (subset_sub hP (by decide))
    | split

theorem endSlot_only {s : State} {r : RunSlot} (hO : Within pl sb s) (hP : [.out, .freeCount, .regs, .cons, .eph, .work, .mem, .serve, .ctl, .mgt, .alm, .tel] ⊆ pl) : Within pl sb (endSlot s r) := by
  unfold endSlot
  repeat' first
    | with_reducible assumption
    | with_reducible refine ite_only ?_ ?_
    | with_reducible refine after_only ?_ ?_
    | with_reducible refine abortSlot_only ?_ (subset_sub hP (by decide))
    | with_reducible refine after_only ?_ ?_
    | with_reducible refine crossSlot_only ?_ (subset_sub hP (by decide))
    | with_reducible refine dropSlot_only ?_ (subset_sub hP (by decide))
    | with_reducible refine execBorrowEnd_holds ?_ (subset_sub hP (by decide))
    | with_reducible refine overrunEvent_only ?_ (subset_sub hP (by decide))
    | (extract_lets +onlyGivenNames -underBinder x; refine cut_only (ps := pl) (s := sb) (a := x) ?_ ?_; unfold x; rotate_left; clear_value x; intro hx)
    | (extract_lets +onlyGivenNames -underBinder x; (try unfold x); clear x)
    | split

theorem slipEvents_only {s : State} (hO : Within pl sb s) (hP : [.out, .regs, .ctl, .mgt, .alm, .tel] ⊆ pl) : Within pl sb (slipEvents s) := by
  unfold slipEvents
  repeat' first
    | with_reducible assumption
    | with_reducible refine foldl_only ?_ fun _ _ _ => ?_
    | with_reducible refine raiseBoth_only ?_ (subset_sub hP (by decide))

theorem serveEvents_only {s : State} (hO : Within pl sb s) (hP : [.out, .regs, .ctl, .mgt, .alm, .tel] ⊆ pl) : Within pl sb (serveEvents s) := by
  unfold serveEvents
  repeat' first
    | with_reducible assumption
    | with_reducible refine ite_only ?_ ?_
    | with_reducible refine foldl_only ?_ fun _ _ _ => ?_
    | with_reducible refine raiseBoth_only ?_ (subset_sub hP (by decide))
    | (extract_lets +onlyGivenNames -underBinder x; refine cut_only (ps := pl) (s := sb) (a := x) ?_ ?_; unfold x; rotate_left; clear_value x; intro hx)
    | (extract_lets +onlyGivenNames -underBinder x; (try unfold x); clear x)

theorem skipEvents_only {s : State} (hO : Within pl sb s) (hP : [.out, .regs, .ctl, .mgt, .alm, .tel] ⊆ pl) : Within pl sb (skipEvents s) := by
  unfold skipEvents
  repeat' first
    | with_reducible assumption
    | with_reducible refine foldl_only ?_ fun _ _ _ => ?_
    | with_reducible refine raisePf_only ?_ (subset_sub hP (by decide))

theorem tierEvents_only {s : State} (hO : Within pl sb s) (hP : [.out, .regs, .ctl, .mgt, .alm, .tel] ⊆ pl) : Within pl sb (tierEvents s) := by
  unfold tierEvents
  repeat' first
    | with_reducible assumption
    | with_reducible refine ite_only ?_ ?_
    | with_reducible refine foldl_only ?_ fun _ _ _ => ?_
    | with_reducible refine raiseBoth_only ?_ (subset_sub hP (by decide))
    | (extract_lets +onlyGivenNames -underBinder x; refine cut_only (ps := pl) (s := sb) (a := x) ?_ ?_; unfold x; rotate_left; clear_value x; intro hx)
    | (extract_lets +onlyGivenNames -underBinder x; (try unfold x); clear x)

theorem endCycle_only {s : State} (hO : Within pl sb s) (hP : [.out, .freeCount, .regs, .cons, .eph, .work, .mem, .serve, .fab, .ctl, .mgt, .alm, .tel] ⊆ pl) : Within pl sb (endCycle s) := by
  unfold endCycle
  repeat' first
    | with_reducible assumption
    | with_reducible refine foldl_only ?_ fun _ _ _ => ?_
    | with_reducible refine endSlot_only ?_ (subset_sub hP (by decide))
    | with_reducible refine serveEvents_only ?_ (subset_sub hP (by decide))
    | with_reducible refine skipEvents_only ?_ (subset_sub hP (by decide))
    | with_reducible refine slipEvents_only ?_ (subset_sub hP (by decide))
    | with_reducible refine tierEvents_only ?_ (subset_sub hP (by decide))
    | with_reducible refine modCons_only ?_ (subset_sub hP (by decide))
    | with_reducible refine modEph_only ?_ (subset_sub hP (by decide))
    | with_reducible refine modFab_only ?_ (subset_sub hP (by decide))
    | with_reducible refine modServe_only ?_ (subset_sub hP (by decide))
    | with_reducible refine modTel_only ?_ (subset_sub hP (by decide))
    | (extract_lets +onlyGivenNames -underBinder x; refine cut_only (ps := pl) (s := sb) (a := x) ?_ ?_; unfold x; rotate_left; clear_value x; intro hx)
    | (extract_lets +onlyGivenNames -underBinder x; (try unfold x); clear x)

theorem stepTime_only {s : State} (hO : Within pl sb s) (hP : [.out, .regs, .eph, .mem, .serve, .ctl, .mgt, .alm, .tel, .mer] ⊆ pl) : Within pl sb (stepTime s) := by
  unfold stepTime
  repeat' first
    | with_reducible assumption
    | with_reducible refine ite_only ?_ ?_
    | with_reducible refine merEvent_only ?_ (subset_sub hP (by decide))
    | with_reducible refine stepEnd_only ?_ (subset_sub hP (by decide))
    | with_reducible refine modEph_only ?_ (subset_sub hP (by decide))
    | with_reducible refine modMer_only ?_ (subset_sub hP (by decide))
    | (extract_lets +onlyGivenNames -underBinder x; refine cut_only (ps := pl) (s := sb) (a := x) ?_ ?_; unfold x; rotate_left; clear_value x; intro hx)
    | (extract_lets +onlyGivenNames -underBinder x; (try unfold x); clear x)

theorem newCycle_only {s : State} (hO : Within pl sb s) (hP : [.out, .regs, .eph, .mem, .serve, .ctl, .mgt, .alm, .tel, .mer] ⊆ pl) : Within pl sb (newCycle s) := by
  unfold newCycle
  repeat' first
    | with_reducible assumption
    | with_reducible refine ite_only ?_ ?_
    | with_reducible refine stepTime_only ?_ (subset_sub hP (by decide))
    | with_reducible refine modEph_only ?_ (subset_sub hP (by decide))
    | with_reducible refine modRegs_only ?_ (subset_sub hP (by decide))
    | (extract_lets +onlyGivenNames -underBinder x; refine cut_only (ps := pl) (s := sb) (a := x) ?_ ?_; unfold x; rotate_left; clear_value x; intro hx)
    | (extract_lets +onlyGivenNames -underBinder x; (try unfold x); clear x)

theorem boundaryCommits_only {s : State} (hO : Within pl sb s) (hP : [.out, .regs, .mem, .serve, .fab, .px, .ptns, .ctl, .mgt, .alm, .tel, .boot] ⊆ pl) : Within pl sb (boundaryCommits s) := by
  unfold boundaryCommits
  repeat' first
    | with_reducible assumption
    | with_reducible refine ite_only ?_ ?_
    | with_reducible refine foldl_only ?_ fun _ _ _ => ?_
    | with_reducible refine commitPoint_only ?_ (subset_sub hP (by decide))
    | with_reducible refine commitWindow_only ?_ (subset_sub hP (by decide))
    | (extract_lets +onlyGivenNames -underBinder x; refine cut_only (ps := pl) (s := sb) (a := x) ?_ ?_; unfold x; rotate_left; clear_value x; intro hx)
    | (extract_lets +onlyGivenNames -underBinder x; (try unfold x); clear x)
    | split

theorem switchFail_only {s : State} {cause : Nat} (hO : Within pl sb s) (hP : [.out, .regs, .eph, .ctl, .mgt, .alm, .tel] ⊆ pl) : Within pl sb (switchFail s cause) := by
  unfold switchFail
  repeat' first
    | with_reducible assumption
    | with_reducible refine raisePf_only ?_ (subset_sub hP (by decide))
    | with_reducible refine modEph_only ?_ (subset_sub hP (by decide))

theorem fprintRecord_only {s : State} {im : Image} (hO : Within pl sb s) (hP : [.alm] ⊆ pl) : Within pl sb (fprintRecord s im) := by
  unfold fprintRecord
  repeat' first
    | with_reducible assumption
    | with_reducible refine ite_only ?_ ?_
    | with_reducible refine almQueue_only ?_ (subset_sub hP (by decide))
    | with_reducible refine modAlm_only ?_ (subset_sub hP (by decide))
    | (extract_lets +onlyGivenNames -underBinder x; refine cut_only (ps := pl) (s := sb) (a := x) ?_ ?_; unfold x; rotate_left; clear_value x; intro hx)
    | (extract_lets +onlyGivenNames -underBinder x; (try unfold x); clear x)

theorem cacheSizes_only {s : State} (hO : Within pl sb s) (hP : [.work, .tabs] ⊆ pl) : Within pl sb (cacheSizes s) := by
  unfold cacheSizes
  repeat' first
    | with_reducible assumption
    | with_reducible refine foldl_only ?_ fun _ _ _ => ?_
    | with_reducible refine modTabs_only ?_ (subset_sub hP (by decide))
    | with_reducible refine modWork_only ?_ (subset_sub hP (by decide))
    | (extract_lets +onlyGivenNames -underBinder x; refine cut_only (ps := pl) (s := sb) (a := x) ?_ ?_; unfold x; rotate_left; clear_value x; intro hx)
    | (extract_lets +onlyGivenNames -underBinder x; (try unfold x); clear x)

theorem grantLater_only {s : State} (hO : Within pl sb s) (hP : [.mem] ⊆ pl) : Within pl sb (grantLater s) := by
  unfold grantLater
  repeat' first
    | with_reducible assumption
    | with_reducible refine ite_only ?_ ?_
    | with_reducible refine foldl_only ?_ fun _ _ _ => ?_
    | with_reducible refine clearGranule_only ?_ (subset_sub hP (by decide))
    | with_reducible refine modMem_only ?_ (subset_sub hP (by decide))

theorem switchTo_only {s : State} {im : Image} (hO : Within pl sb s) (hP : [.out, .regs, .eph, .work, .tabs, .mem, .ctl, .mgt, .alm, .tel] ⊆ pl) : Within pl sb (switchTo s im) := by
  unfold switchTo
  repeat' first
    | with_reducible assumption
    | with_reducible refine ite_only ?_ ?_
    | with_reducible refine cacheSizes_only ?_ (subset_sub hP (by decide))
    | with_reducible refine fprintRecord_only ?_ (subset_sub hP (by decide))
    | with_reducible refine grantLater_only ?_ (subset_sub hP (by decide))
    | with_reducible refine raisePf_only ?_ (subset_sub hP (by decide))
    | with_reducible refine wakeMem_only ?_ (subset_sub hP (by decide))
    | with_reducible refine modEph_only ?_ (subset_sub hP (by decide))
    | (extract_lets +onlyGivenNames -underBinder x; refine cut_only (ps := pl) (s := sb) (a := x) ?_ ?_; unfold x; rotate_left; clear_value x; intro hx)
    | (extract_lets +onlyGivenNames -underBinder x; (try unfold x); clear x)
    | split

theorem switchImage_only {s : State} (hO : Within pl sb s) (hP : [.out, .regs, .eph, .work, .tabs, .mem, .ctl, .mgt, .alm, .tel] ⊆ pl) : Within pl sb (switchImage s) := by
  unfold switchImage
  repeat' first
    | with_reducible assumption
    | with_reducible refine ite_only ?_ ?_
    | with_reducible refine switchFail_only ?_ (subset_sub hP (by decide))
    | with_reducible refine switchTo_only ?_ (subset_sub hP (by decide))
    | split

theorem brokenSets_only {s : State} (hO : Within pl sb s) (hP : [.regs] ⊆ pl) : Within pl sb (brokenSets s) := by
  unfold brokenSets
  repeat' first
    | with_reducible assumption
    | with_reducible refine ite_only ?_ ?_
    | with_reducible refine foldl_only ?_ fun _ _ _ => ?_
    | with_reducible refine setReg_only ?_ (subset_sub hP (by decide))
    | (extract_lets +onlyGivenNames -underBinder x; refine cut_only (ps := pl) (s := sb) (a := x) ?_ ?_; unfold x; rotate_left; clear_value x; intro hx)
    | (extract_lets +onlyGivenNames -underBinder x; (try unfold x); clear x)

theorem clockEntries_only {s : State} (hO : Within pl sb s) (hP : [.cons] ⊆ pl) : Within pl sb (clockEntries s) := by
  unfold clockEntries
  repeat' first
    | with_reducible assumption
    | with_reducible refine foldl_only ?_ fun _ _ _ => ?_
    | with_reducible refine modCon_only ?_ (subset_sub hP (by decide))
    | split

theorem plantBoundary_only {s : State} (hO : Within pl sb s) (hP : [.cons, .qtrs, .work, .mem] ⊆ pl) : Within pl sb (plantBoundary s) := by
  unfold plantBoundary
  repeat' first
    | with_reducible assumption
    | with_reducible refine foldl_only ?_ fun _ _ _ => ?_
    | with_reducible refine applyClocks_only ?_ (subset_sub hP (by decide))
    | with_reducible refine applyRails_only ?_ (subset_sub hP (by decide))
    | with_reducible refine clockEntries_only ?_ (subset_sub hP (by decide))
    | with_reducible refine restIdle_only ?_ (subset_sub hP (by decide))

theorem refill_only {s : State} {p : Nat} (hO : Within pl sb s) (hP : [.serve, .ctl] ⊆ pl) : Within pl sb (refill s p) := by
  unfold refill
  repeat' first
    | with_reducible assumption
    | with_reducible refine ite_only ?_ ?_
    | with_reducible refine setLevel_only ?_ (subset_sub hP (by decide))
    | with_reducible refine modServe_only ?_ (subset_sub hP (by decide))
    | (extract_lets +onlyGivenNames -underBinder x; refine cut_only (ps := pl) (s := sb) (a := x) ?_ ?_; unfold x; rotate_left; clear_value x; intro hx)
    | (extract_lets +onlyGivenNames -underBinder x; (try unfold x); clear x)

theorem markPages_only {s : State} {ended : Nat} (hO : Within pl sb s) (hP : [.serve] ⊆ pl) : Within pl sb (markPages s ended) := by
  unfold markPages
  repeat' first
    | with_reducible assumption
    | with_reducible refine ite_only ?_ ?_
    | with_reducible refine foldl_only ?_ fun _ _ _ => ?_
    | with_reducible refine queueWriteback_only ?_ (subset_sub hP (by decide))
    | (extract_lets +onlyGivenNames -underBinder x; refine cut_only (ps := pl) (s := sb) (a := x) ?_ ?_; unfold x; rotate_left; clear_value x; intro hx)
    | (extract_lets +onlyGivenNames -underBinder x; (try unfold x); clear x)
    | split

theorem readCaches_only {s : State} (hO : Within pl sb s) (hP : [.mem, .fab] ⊆ pl) : Within pl sb (readCaches s) := by
  unfold readCaches
  repeat' first
    | with_reducible assumption
    | with_reducible refine ite_only ?_ ?_
    | with_reducible refine foldl_only ?_ fun _ _ _ => ?_
    | with_reducible refine allocTiles_only_eq ?_ (subset_sub hP (by decide)) (by assumption)
    | with_reducible refine allocTiles_holds ?_ (subset_sub hP (by decide))
    | with_reducible refine modFab_only ?_ (subset_sub hP (by decide))
    | (extract_lets +onlyGivenNames -underBinder x; refine cut_only (ps := pl) (s := sb) (a := x) ?_ ?_; unfold x; rotate_left; clear_value x; intro hx)
    | (extract_lets +onlyGivenNames -underBinder x; (try unfold x); clear x)
    | split

theorem serveBoundary_only {s : State} {ended : Nat} (hO : Within pl sb s) (hP : [.out, .regs, .work, .tabs, .mem, .serve, .ctl, .tel] ⊆ pl) : Within pl sb (serveBoundary s ended) := by
  unfold serveBoundary
  repeat' first
    | with_reducible assumption
    | with_reducible refine ite_only ?_ ?_
    | with_reducible refine foldl_only ?_ fun _ _ _ => ?_
    | with_reducible refine markPages_only ?_ (subset_sub hP (by decide))
    | with_reducible refine progressAll_only ?_ (subset_sub hP (by decide))
    | with_reducible refine refill_only ?_ (subset_sub hP (by decide))
    | with_reducible refine switchPlans_only ?_ (subset_sub hP (by decide))
    | with_reducible refine turnCurrent_only ?_ (subset_sub hP (by decide))
    | with_reducible refine modServe_only ?_ (subset_sub hP (by decide))
    | with_reducible refine modTabs_only ?_ (subset_sub hP (by decide))
    | (extract_lets +onlyGivenNames -underBinder x; refine cut_only (ps := pl) (s := sb) (a := x) ?_ ?_; unfold x; rotate_left; clear_value x; intro hx)
    | (extract_lets +onlyGivenNames -underBinder x; (try unfold x); clear x)

theorem queueModes_only {s : State} (hO : Within pl sb s) (hP : [.fab] ⊆ pl) : Within pl sb (queueModes s) := by
  unfold queueModes
  repeat' first
    | with_reducible assumption
    | with_reducible refine ite_only ?_ ?_
    | with_reducible refine modFab_only ?_ (subset_sub hP (by decide))
    | (extract_lets +onlyGivenNames -underBinder x; refine cut_only (ps := pl) (s := sb) (a := x) ?_ ?_; unfold x; rotate_left; clear_value x; intro hx)
    | (extract_lets +onlyGivenNames -underBinder x; (try unfold x); clear x)

theorem execCycleBoundary_holds {fails : List (Nat × Nat)} {s : State} (hO : Within pl sb s) (hP : allParts ⊆ pl) : Holds (InNext pl sb) (execCycleBoundary fails s) := by
  unfold execCycleBoundary
  repeat' first
    | with_reducible refine leaf_next ?_
    | with_reducible assumption
    | with_reducible refine ite_only ?_ ?_
    | with_reducible refine applyComps_only ?_ (subset_sub hP (by decide))
    | with_reducible refine applyOdPend_only ?_ (subset_sub hP (by decide))
    | with_reducible refine arrive_only ?_ (subset_sub hP (by decide))
    | with_reducible refine boundaryCommits_only ?_ (subset_sub hP (by decide))
    | with_reducible refine brokenSets_only ?_ (subset_sub hP (by decide))
    | with_reducible refine endCycle_only ?_ (subset_sub hP (by decide))
    | with_reducible refine newCycle_only ?_ (subset_sub hP (by decide))
    | with_reducible refine plantBoundary_only ?_ (subset_sub hP (by decide))
    | with_reducible refine prefetchScan_only ?_ (subset_sub hP (by decide))
    | with_reducible refine queueModes_only ?_ (subset_sub hP (by decide))
    | with_reducible refine rasBoundary_only ?_ (subset_sub hP (by decide))
    | with_reducible refine readCaches_only ?_ (subset_sub hP (by decide))
    | with_reducible refine resumeAccesses_only ?_ (subset_sub hP (by decide))
    | with_reducible refine serveBoundary_only ?_ (subset_sub hP (by decide))
    | with_reducible refine switchImage_only ?_ (subset_sub hP (by decide))
    | (extract_lets +onlyGivenNames -underBinder x; refine cut_only (ps := pl) (s := sb) (a := x) ?_ ?_; unfold x; rotate_left; clear_value x; intro hx)
    | (extract_lets +onlyGivenNames -underBinder x; (try unfold x); clear x)
theorem execCycleBoundary_only {fails : List (Nat × Nat)} {s : State} {t : State} (hO : Within pl sb s) (hP : allParts ⊆ pl) (hE : execCycleBoundary fails s = .next t) : Within pl sb t := by
  have k : Holds (InNext pl sb) (execCycleBoundary fails s) := execCycleBoundary_holds (fails := fails) (s := s) hO hP
  rw [hE] at k; exact k.of

end Sys2Proof.Machine
end

