-- ==== Sys2Proof/Tests/Slice0.lean ====
section
/-! SUPPORT. Tests: commands that are not well formed, single steps whose results the spec states, and, for every statement with hypotheses,
states and operands that meet them. -/

namespace Sys2Proof.Tests
set_option Elab.async false
open Sys2Proof Sys2Proof.Machine

/-- Operands of the well-formedness tests, at the edges of their ranges. -/
def memMsg : MemMsg := { src := 255, msgId := 2 ^ 20 - 1, stream := 2 ^ 12 - 1, sseq := 2 ^ 24 - 1, ptn := 31, cls := 7, hdr := 0 }
def roce : RocePkt := { op := 10, qpn := 2 ^ 24 - 1, psn := 2 ^ 24 - 1, vlan := 2 ^ 16 - 1 }

/-- Well-formed commands, each operand at the edge of its range: coldReset to badAccessWrite. -/
theorem test_wf_goodRegisters : ∀ i ∈ ([.coldReset 127 { header := List.replicate 448 0 } { header := List.replicate 448 0 }, .pwrGoodLoss, .warmResetAssert, .warmResetRelease, .vfFlr 31,
    .regWrite (.vf 31) (2 ^ 28 - 1) 0xFFFFFFFF, .aliasWrite (.vf 31) (2 ^ 28 - 1) 0xFFFFFFFF, .pairLoWrite (.vf 31) (2 ^ 28 - 1) 0xFFFFFFFF,
    .pairHiWrite (.vf 31) (2 ^ 28 - 1) 0xFFFFFFFF, .badAccessWrite (.vf 31) (2 ^ 28 - 1)] : List Instr), i.wf = true := by decide +kernel
/-- Ill-formed commands, one for each check: coldReset to badAccessWrite. -/
theorem test_wf_badRegisters : ∀ i ∈ ([.coldReset 128 { header := List.replicate 448 0 } { header := List.replicate 448 0 },
    .coldReset 127 { header := List.replicate 449 0 } { header := List.replicate 448 0 },
    .coldReset 127 { header := List.replicate 448 0 } { header := List.replicate 449 0 }, .vfFlr 32, .regWrite (.vf 31) (2 ^ 28) 0xFFFFFFFF,
    .regWrite (.vf 32) (2 ^ 28 - 1) 0xFFFFFFFF, .aliasWrite (.vf 31) (2 ^ 28) 0xFFFFFFFF, .aliasWrite (.vf 32) (2 ^ 28 - 1) 0xFFFFFFFF,
    .pairLoWrite (.vf 31) (2 ^ 28) 0xFFFFFFFF, .pairLoWrite (.vf 32) (2 ^ 28 - 1) 0xFFFFFFFF, .pairHiWrite (.vf 31) (2 ^ 28) 0xFFFFFFFF,
    .pairHiWrite (.vf 32) (2 ^ 28 - 1) 0xFFFFFFFF, .badAccessWrite (.vf 31) (2 ^ 28), .badAccessWrite (.vf 32) (2 ^ 28 - 1)] : List Instr), i.wf = false := by decide +kernel
/-- Well-formed commands, each operand at the edge of its range: cycleBoundary to ringConsWrite. -/
theorem test_wf_goodEphemeris : ∀ i ∈ ([.cycleBoundary [(1, 2)], .wakeLeadReached 5 (2 ^ 16 - 1) true, .wakeComplete 159, .sleepDrainDone 159, .sramInitDone 159, .railSettled 3,
    .computeSlotStart 5 (2 ^ 16 - 1) [159], .entryEnd 5 (2 ^ 16 - 1), .barrierComplete 5 (2 ^ 16 - 1), .slotOverrun 5 (2 ^ 16 - 1),
    .borrowEnd 5 (2 ^ 16 - 1) true, .abortEnd 5 (2 ^ 16 - 1), .contractExceeded (.ptn 31) 7 7, .moverEntryStart 5 (2 ^ 16 - 1), .tierTransferDone 7,
    .transferEntryStart 5 (2 ^ 16 - 1), .bridgeEntryStart 5 (2 ^ 16 - 1), .gateEntry 5 (2 ^ 16 - 1), .refreshWindow 5 (2 ^ 16 - 1),
    .recalMemWindow 5 (2 ^ 16 - 1), .recalSerdesWindow 5 (2 ^ 16 - 1), .recalSerdesWindowEnd 5 (2 ^ 16 - 1), .ephLoadStart true, .ephLoadAbort,
    .ephLoadDone true true [] [], .ephSwitchArm, .ephSwitchDisarm, .ringProdWrite (.vf 31) (2 ^ 28 - 1) 0xFFFFFFFF,
    .ringConsWrite (.vf 31) (2 ^ 28 - 1) 0xFFFFFFFF] : List Instr), i.wf = true := by decide +kernel
/-- Ill-formed commands, one for each check: cycleBoundary to ringConsWrite. -/
theorem test_wf_badEphemeris : ∀ i ∈ ([.wakeLeadReached 6 (2 ^ 16 - 1) true, .wakeLeadReached 5 (2 ^ 16) true, .wakeComplete 160, .sleepDrainDone 160, .sramInitDone 160, .railSettled 4,
    .computeSlotStart 6 (2 ^ 16 - 1) [159], .computeSlotStart 5 (2 ^ 16) [159], .computeSlotStart 5 (2 ^ 16 - 1) [160], .entryEnd 6 (2 ^ 16 - 1),
    .entryEnd 5 (2 ^ 16), .barrierComplete 6 (2 ^ 16 - 1), .barrierComplete 5 (2 ^ 16), .slotOverrun 6 (2 ^ 16 - 1), .slotOverrun 5 (2 ^ 16),
    .borrowEnd 6 (2 ^ 16 - 1) true, .borrowEnd 5 (2 ^ 16) true, .abortEnd 6 (2 ^ 16 - 1), .abortEnd 5 (2 ^ 16), .contractExceeded (.con 160) 7 7,
    .moverEntryStart 6 (2 ^ 16 - 1), .moverEntryStart 5 (2 ^ 16), .transferEntryStart 6 (2 ^ 16 - 1), .transferEntryStart 5 (2 ^ 16),
    .bridgeEntryStart 6 (2 ^ 16 - 1), .bridgeEntryStart 5 (2 ^ 16), .gateEntry 6 (2 ^ 16 - 1), .gateEntry 5 (2 ^ 16), .refreshWindow 6 (2 ^ 16 - 1),
    .refreshWindow 5 (2 ^ 16), .recalMemWindow 6 (2 ^ 16 - 1), .recalMemWindow 5 (2 ^ 16), .recalSerdesWindow 6 (2 ^ 16 - 1),
    .recalSerdesWindow 5 (2 ^ 16), .recalSerdesWindowEnd 6 (2 ^ 16 - 1), .recalSerdesWindowEnd 5 (2 ^ 16), .ringProdWrite (.vf 31) (2 ^ 28) 0xFFFFFFFF,
    .ringProdWrite (.vf 32) (2 ^ 28 - 1) 0xFFFFFFFF, .ringConsWrite (.vf 31) (2 ^ 28) 0xFFFFFFFF, .ringConsWrite (.vf 32) (2 ^ 28 - 1) 0xFFFFFFFF] : List Instr), i.wf = false := by decide +kernel
/-- Well-formed commands, each operand at the edge of its range: taskProgram to checkpoint64. -/
theorem test_wf_goodTasks : ∀ i ∈ ([.taskProgram (.vf 31) 0, .taskStatus (.vf 31) 0, .taskCancel (.vf 31) 0, .taskCounters (.vf 31) 0, .instrLdt 7, .ldtComplete 7 (2 ^ 40 - 1),
    .instrStt 7, .sttWritten 7 (2 ^ 40 - 1), .instrMma 7, .instrMmaq 7, .instrRope 7, .instrSmax 7, .instrPv 7, .instrMrg 7, .instrQnt 7 7, .instrEnc 7,
    .instrRed 7 7, .instrNorm 7 7, .instrAct 7 7, .instrSamp 7, .instrStop 7, .instrMov 7 7, .instrSync 7, .instrWait 7, .instrYield 7, .instrEnd 7,
    .illegalInstruction 7, .checkpoint64 7] : List Instr), i.wf = true := by decide +kernel
/-- Ill-formed commands, one for each check: taskProgram to checkpoint64. -/
theorem test_wf_badTasks : ∀ i ∈ ([.taskProgram (.vf 32) 0, .taskStatus (.vf 32) 0, .taskCancel (.vf 32) 0, .taskCounters (.vf 32) 0, .ldtComplete 7 (2 ^ 40), .sttWritten 7 (2 ^ 40)] : List Instr), i.wf = false := by decide +kernel
/-- Well-formed commands, each operand at the edge of its range: reqSubmit to tableSupply. -/
theorem test_wf_goodRequests : ∀ i ∈ ([.reqSubmit (.vf 31) (List.replicate 128 0), .reqContinue (.vf 31) (List.replicate 128 0), .reqCancel (.vf 31) (List.replicate 128 0),
    .reqStatus (.vf 31) (List.replicate 128 0), .reqToken (.vf 31) (List.replicate 128 0), .inputReadDone (2 ^ 32 - 1) true [] [], .writebackDone 7,
    .openPageLoaded 7, .tableEpochEnd 31, .tableBuildDone 31 (2 ^ 16 - 1) (2 ^ 16 - 1),
    .tableSupply { master := .bus, node := 127, txn := 255, hdr := 2 ^ 64 - 1 } 31 []] : List Instr), i.wf = true := by decide +kernel
/-- Ill-formed commands, one for each check: reqSubmit to tableSupply. -/
theorem test_wf_badRequests : ∀ i ∈ ([.reqSubmit (.vf 31) (List.replicate 127 0), .reqSubmit (.vf 32) (List.replicate 128 0), .reqContinue (.vf 31) (List.replicate 127 0),
    .reqContinue (.vf 32) (List.replicate 128 0), .reqCancel (.vf 31) (List.replicate 127 0), .reqCancel (.vf 32) (List.replicate 128 0),
    .reqStatus (.vf 31) (List.replicate 127 0), .reqStatus (.vf 32) (List.replicate 128 0), .reqToken (.vf 31) (List.replicate 127 0),
    .reqToken (.vf 32) (List.replicate 128 0), .inputReadDone (2 ^ 32) true [] [], .tableEpochEnd 32, .tableBuildDone 32 (2 ^ 16 - 1) (2 ^ 16 - 1),
    .tableBuildDone 31 (2 ^ 16) (2 ^ 16 - 1), .tableBuildDone 31 (2 ^ 16 - 1) (2 ^ 16),
    .tableSupply { master := .bus, node := 127, txn := 255, hdr := 2 ^ 64 - 1 } 32 [], .tableSupply { master := .bus, node := 128 } 31 []] : List Instr), i.wf = false := by decide +kernel
/-- Well-formed commands, each operand at the edge of its range: movePark to heatAging. -/
theorem test_wf_goodMoves : ∀ i ∈ ([.movePark (.vf 31) 0, .movePromote (.vf 31) 0, .moveEvict (.vf 31) 0, .moveClone (.vf 31) 0, .moveDrop (.vf 31) 0, .movePlan (.vf 31) 0,
    .msgInstall 255 { dstPtn := 31 }, .msgPages 255 { dstPtn := 31 }, .msgMoveAck 255 { dstPtn := 31 }, .msgCommit 255 { dstPtn := 31 },
    .msgAbort 255 { dstPtn := 31 }, .msgRef 255 { dstPtn := 31 }, .msgRelease 255 { dstPtn := 31 }, .msgFetch 255 { dstPtn := 31 },
    .msgQuery 255 { dstPtn := 31 }, .msgPartial 255 { dstPtn := 31 }, .installResend (2 ^ 32 - 1), .installDoubt (2 ^ 32 - 1), .heldAckRepeat (2 ^ 32 - 1),
    .commitRecordExpiry 255 (2 ^ 32 - 1), .refResend (2 ^ 32 - 1) 255 (2 ^ 32 - 1), .receptionExpiry 31 255 (2 ^ 32 - 1) (2 ^ 16 - 1),
    .pagesBusyRetry (2 ^ 32 - 1), .queryResend (2 ^ 32 - 1) (2 ^ 32 - 1) 7 7, .evictionStart 31, .heatAging 31] : List Instr), i.wf = true := by decide +kernel
/-- Ill-formed commands, one for each check: movePark to heatAging. -/
theorem test_wf_badMoves : ∀ i ∈ ([.movePark (.vf 32) 0, .movePromote (.vf 32) 0, .moveEvict (.vf 32) 0, .moveClone (.vf 32) 0, .moveDrop (.vf 32) 0, .movePlan (.vf 32) 0,
    .msgInstall 256 { dstPtn := 31 }, .msgInstall 255 { srcPtn := 32 }, .msgPages 256 { dstPtn := 31 }, .msgPages 255 { srcPtn := 32 },
    .msgMoveAck 256 { dstPtn := 31 }, .msgMoveAck 255 { srcPtn := 32 }, .msgCommit 256 { dstPtn := 31 }, .msgCommit 255 { srcPtn := 32 },
    .msgAbort 256 { dstPtn := 31 }, .msgAbort 255 { srcPtn := 32 }, .msgRef 256 { dstPtn := 31 }, .msgRef 255 { srcPtn := 32 },
    .msgRelease 256 { dstPtn := 31 }, .msgRelease 255 { srcPtn := 32 }, .msgFetch 256 { dstPtn := 31 }, .msgFetch 255 { srcPtn := 32 },
    .msgQuery 256 { dstPtn := 31 }, .msgQuery 255 { srcPtn := 32 }, .msgPartial 256 { dstPtn := 31 }, .msgPartial 255 { srcPtn := 32 },
    .installResend (2 ^ 32), .installDoubt (2 ^ 32), .heldAckRepeat (2 ^ 32), .commitRecordExpiry 256 (2 ^ 32 - 1), .commitRecordExpiry 255 (2 ^ 32),
    .refResend (2 ^ 32) 255 (2 ^ 32 - 1), .refResend (2 ^ 32 - 1) 256 (2 ^ 32 - 1), .refResend (2 ^ 32 - 1) 255 (2 ^ 32),
    .receptionExpiry 32 255 (2 ^ 32 - 1) (2 ^ 16 - 1), .receptionExpiry 31 256 (2 ^ 32 - 1) (2 ^ 16 - 1), .receptionExpiry 31 255 (2 ^ 32) (2 ^ 16 - 1),
    .receptionExpiry 31 255 (2 ^ 32 - 1) (2 ^ 16), .pagesBusyRetry (2 ^ 32), .queryResend (2 ^ 32) (2 ^ 32 - 1) 7 7,
    .queryResend (2 ^ 32 - 1) (2 ^ 32) 7 7, .evictionStart 32, .heatAging 32] : List Instr), i.wf = false := by decide +kernel
/-- Well-formed commands, each operand at the edge of its range: allocRequest to rowHeatAging. -/
theorem test_wf_goodMemory : ∀ i ∈ ([.allocRequest (.vf 31), .freeRequest (.vf 31), .sramPatrol 7 [159] [159], .nearPatrol (2 ^ 40 - 1), .selfRefreshEntry 27, .farChannelLost 15,
    .farScanDone 15, .stackLost 11, .tableRecordWrite (.vf 31) 31, .msgLookup 255 { dstPtn := 31 }, .msgPooled 255 { dstPtn := 31 },
    .msgUpdate 255 { dstPtn := 31 }, .msgUpdateAck 255 { dstPtn := 31 }, .lookupResend 7 (2 ^ 16 - 1), .rowHeatAging 31] : List Instr), i.wf = true := by decide +kernel
/-- Ill-formed commands, one for each check: allocRequest to rowHeatAging. -/
theorem test_wf_badMemory : ∀ i ∈ ([.allocRequest (.vf 32), .freeRequest (.vf 32), .nearPatrol (2 ^ 40), .selfRefreshEntry 28, .farChannelLost 16, .farScanDone 16, .stackLost 12,
    .tableRecordWrite (.vf 31) 32, .tableRecordWrite (.vf 32) 31, .msgLookup 256 { dstPtn := 31 }, .msgLookup 255 { srcPtn := 32 },
    .msgPooled 256 { dstPtn := 31 }, .msgPooled 255 { srcPtn := 32 }, .msgUpdate 256 { dstPtn := 31 }, .msgUpdate 255 { srcPtn := 32 },
    .msgUpdateAck 256 { dstPtn := 31 }, .msgUpdateAck 255 { srcPtn := 32 }, .lookupResend 7 (2 ^ 16), .rowHeatAging 32] : List Instr), i.wf = false := by decide +kernel
/-- Well-formed commands, each operand at the edge of its range: portTrained to egressSend. -/
theorem test_wf_goodPorts : ∀ i ∈ ([.portTrained 16 15, .attestComplete 16, .trainTimeout 16, .backoffExpiry 16, .anSignalDetected 16, .kqRetrain 16,
    .linkSpdmCell 16 { hdr := 0, seq := 2 ^ 32 - 1, payload := List.replicate 224 0 } 7 [],
    .linkHello 16 { hdr := 0, seq := 2 ^ 32 - 1, payload := List.replicate 224 0 },
    .linkDownNotice 16 { hdr := 0, seq := 2 ^ 32 - 1, payload := List.replicate 224 0 },
    .cellData 16 { hdr := 0, seq := 2 ^ 32 - 1, payload := List.replicate 224 0 },
    .cellAck 16 { hdr := 0, seq := 2 ^ 32 - 1, payload := List.replicate 224 0 },
    .cellNak 16 { hdr := 0, seq := 2 ^ 32 - 1, payload := List.replicate 224 0 },
    .cellIdle 16 { hdr := 0, seq := 2 ^ 32 - 1, payload := List.replicate 224 0 },
    .cellTime 16 { hdr := 0, seq := 2 ^ 32 - 1, payload := List.replicate 224 0 } { transport := 3, kind := 2 }, .lossOfSignal 16 true, .delinTimeout 16,
    .ackTimer 16, .nakRepeatTimer 16, .replayTimeout 16, .pairUnpairedTimeout, .mkaSakInstalled 16, .mkaPeerTimeout 16, .pfcFrame 16 255,
    .ethFrameRx 16 { bytes := 64, prio := 7, roce := some roce }, .egressSend 16] : List Instr), i.wf = true := by decide +kernel
/-- Ill-formed commands, one for each check: portTrained to egressSend. -/
theorem test_wf_badPorts : ∀ i ∈ ([.portTrained 17 15, .portTrained 16 16, .attestComplete 17, .trainTimeout 17, .backoffExpiry 17, .anSignalDetected 17, .kqRetrain 17,
    .linkSpdmCell 17 { hdr := 0, seq := 2 ^ 32 - 1, payload := List.replicate 224 0 } 7 [],
    .linkSpdmCell 16 { hdr := 0, seq := 2 ^ 32 - 1, payload := List.replicate 224 0 } 8 [],
    .linkSpdmCell 16 { hdr := 0, seq := 2 ^ 32, payload := [] } 7 [], .linkHello 17 { hdr := 0, seq := 2 ^ 32 - 1, payload := List.replicate 224 0 },
    .linkHello 16 { hdr := 0, seq := 2 ^ 32, payload := [] }, .linkDownNotice 17 { hdr := 0, seq := 2 ^ 32 - 1, payload := List.replicate 224 0 },
    .linkDownNotice 16 { hdr := 0, seq := 2 ^ 32, payload := [] }, .cellData 17 { hdr := 0, seq := 2 ^ 32 - 1, payload := List.replicate 224 0 },
    .cellData 16 { hdr := 0, seq := 2 ^ 32, payload := [] }, .cellAck 17 { hdr := 0, seq := 2 ^ 32 - 1, payload := List.replicate 224 0 },
    .cellAck 16 { hdr := 0, seq := 2 ^ 32, payload := [] }, .cellNak 17 { hdr := 0, seq := 2 ^ 32 - 1, payload := List.replicate 224 0 },
    .cellNak 16 { hdr := 0, seq := 2 ^ 32, payload := [] }, .cellIdle 17 { hdr := 0, seq := 2 ^ 32 - 1, payload := List.replicate 224 0 },
    .cellIdle 16 { hdr := 0, seq := 2 ^ 32, payload := [] },
    .cellTime 17 { hdr := 0, seq := 2 ^ 32 - 1, payload := List.replicate 224 0 } { transport := 3, kind := 2 },
    .cellTime 16 { hdr := 0, seq := 2 ^ 32, payload := [] } { transport := 3, kind := 2 },
    .cellTime 16 { hdr := 0, seq := 2 ^ 32 - 1, payload := List.replicate 224 0 } { transport := 4 }, .lossOfSignal 17 true, .delinTimeout 17,
    .ackTimer 17, .nakRepeatTimer 17, .replayTimeout 17, .mkaSakInstalled 17, .mkaPeerTimeout 17, .pfcFrame 17 255, .pfcFrame 16 256,
    .ethFrameRx 17 { bytes := 64, prio := 7, roce := some roce }, .ethFrameRx 16 { bytes := 64, prio := 8 }, .egressSend 17] : List Instr), i.wf = false := by decide +kernel
/-- Well-formed commands, each operand at the edge of its range: memRead to windowTableWrite. -/
theorem test_wf_goodMessages : ∀ i ∈ ([.memRead memMsg, .memReadData memMsg, .memWrite memMsg, .memComplete memMsg, .memMsgNak memMsg, .memFetchAdd memMsg, .memSwap memMsg, .memCas memMsg,
    .memAtomicData memMsg, .memInvalidate memMsg, .memInvAck memMsg, .topologyMsg 255 [(1, 2)], .topologyPeriod, .reassemblyTimeout 255 (2 ^ 20 - 1),
    .msgReplyTimeout 7, .noContextTimeout 255 (2 ^ 20 - 1), .streamContextExpiry 255 (2 ^ 12 - 1), .invalidateResend 7,
    .routeTableLoad { master := .bus, node := 127, txn := 255, hdr := 2 ^ 64 - 1 } [],
    .windowTableWrite { master := .bus, node := 127, txn := 255, hdr := 2 ^ 64 - 1 } 31 []] : List Instr), i.wf = true := by decide +kernel
/-- Ill-formed commands, one for each check: memRead to windowTableWrite. -/
theorem test_wf_badMessages : ∀ i ∈ ([.memRead { memMsg with src := 256 }, .memReadData { memMsg with src := 256 }, .memWrite { memMsg with src := 256 },
    .memComplete { memMsg with src := 256 }, .memMsgNak { memMsg with src := 256 }, .memFetchAdd { memMsg with src := 256 },
    .memSwap { memMsg with src := 256 }, .memCas { memMsg with src := 256 }, .memAtomicData { memMsg with src := 256 },
    .memInvalidate { memMsg with src := 256 }, .memInvAck { memMsg with src := 256 }, .topologyMsg 256 [(1, 2)], .reassemblyTimeout 256 (2 ^ 20 - 1),
    .reassemblyTimeout 255 (2 ^ 20), .noContextTimeout 256 (2 ^ 20 - 1), .noContextTimeout 255 (2 ^ 20), .streamContextExpiry 256 (2 ^ 12 - 1),
    .streamContextExpiry 255 (2 ^ 12), .routeTableLoad { master := .bus, node := 128 } [],
    .windowTableWrite { master := .bus, node := 127, txn := 255, hdr := 2 ^ 64 - 1 } 32 [], .windowTableWrite { master := .bus, node := 128 } 31 []] : List Instr), i.wf = false := by decide +kernel
/-- Well-formed commands, each operand at the edge of its range: ptpMessageRx to hostServoSilence. -/
theorem test_wf_goodTime : ∀ i ∈ ([.ptpMessageRx 16 { transport := 3, kind := 2 }, .ptpSyncTx 16, .ppsInEdge (-1) 7 (-1), .sourceLost 4, .boundExceedsGuard, .slewDone, .ppsOutRise,
    .ppsOutFall, .merHostOfsWrite 0xFFFFFFFF, .merHostFreqWrite 0xFFFFFFFF, .merSetWrite 0xFFFFFFFF, .merNowRead, .hostServoSilence] : List Instr), i.wf = true := by decide +kernel
/-- Ill-formed commands, one for each check: ptpMessageRx to hostServoSilence. -/
theorem test_wf_badTime : ∀ i ∈ ([.ptpMessageRx 17 { transport := 3, kind := 2 }, .ptpMessageRx 16 { transport := 4 }, .ptpSyncTx 17, .sourceLost 5] : List Instr), i.wf = false := by decide +kernel
/-- Well-formed commands, each operand at the edge of its range: bar2Read to dlinkRequest. -/
theorem test_wf_goodPcie : ∀ i ∈ ([.bar2Read 31 1023 (2 ^ 28 - 1) (2 ^ 13 - 1), .bar2Atomic 31 1023 (2 ^ 28 - 1) 255 [], .bar2Write 31, .atsInvalidate 11, .ideKmProgram 63 11 32,
    .ideIntegrityFail 63 255, .tdispLockInterface 31, .slotPowerOff 11, .releaseGraceExpiry 11, .dlinkDown 11, .dlinkRequest 11 (.vf 32)] : List Instr), i.wf = true := by decide +kernel
/-- Ill-formed commands, one for each check: bar2Read to dlinkRequest. -/
theorem test_wf_badPcie : ∀ i ∈ ([.bar2Read 32 1023 (2 ^ 28 - 1) (2 ^ 13 - 1), .bar2Read 31 1024 (2 ^ 28 - 1) (2 ^ 13 - 1), .bar2Read 31 1023 (2 ^ 28) (2 ^ 13 - 1),
    .bar2Read 31 1023 (2 ^ 28 - 1) (2 ^ 13), .bar2Atomic 32 1023 (2 ^ 28 - 1) 255 [], .bar2Atomic 31 1024 (2 ^ 28 - 1) 255 [],
    .bar2Atomic 31 1023 (2 ^ 28) 255 [], .bar2Atomic 31 1023 (2 ^ 28 - 1) 256 [], .bar2Write 32, .atsInvalidate 12, .ideKmProgram 64 11 32,
    .ideKmProgram 63 12 32, .ideKmProgram 63 11 33, .ideIntegrityFail 64 255, .ideIntegrityFail 63 256, .tdispLockInterface 32, .slotPowerOff 12,
    .releaseGraceExpiry 12, .dlinkDown 12, .dlinkRequest 12 (.vf 32), .dlinkRequest 11 (.vf 33)] : List Instr), i.wf = false := by decide +kernel
/-- Well-formed commands, each operand at the edge of its range: qpCreate to cmTxRingEntry. -/
theorem test_wf_goodRdma : ∀ i ∈ ([.qpCreate (.vf 31), .qpModify (.vf 31), .qpDestroy (.vf 31), .qpQuery (.vf 31), .qpRegMr (.vf 31), .qpDeregMr (.vf 31), .roceRxWrite 16 roce,
    .roceRxRead 16 roce, .roceRxFetchAdd 16 roce, .roceRxCompareSwap 16 roce, .roceRxSend 16 roce, .roceRxAck 16 roce, .roceRxResponse 16 roce,
    .roceRxNak 16 roce, .roceRxCnp 16 roce, .roceAckTimeout (2 ^ 16 - 1), .dcqcnRateTimer (2 ^ 16 - 1), .qpContextLoaded (2 ^ 16 - 1) 7,
    .cmReq { port := 15 }, .cmRep { port := 15 }, .cmRtu { port := 15 }, .cmRej { port := 15 }, .cmDreq { port := 15 }, .cmDrep { port := 15 },
    .ptpTxRingEntry (List.replicate 128 0), .cmTxRingEntry (List.replicate 512 0)] : List Instr), i.wf = true := by decide +kernel
/-- Ill-formed commands, one for each check: qpCreate to cmTxRingEntry. -/
theorem test_wf_badRdma : ∀ i ∈ ([.qpCreate (.vf 32), .qpModify (.vf 32), .qpDestroy (.vf 32), .qpQuery (.vf 32), .qpRegMr (.vf 32), .qpDeregMr (.vf 32), .roceRxWrite 17 roce,
    .roceRxWrite 16 { roce with op := 11 }, .roceRxRead 17 roce, .roceRxRead 16 { roce with op := 11 }, .roceRxFetchAdd 17 roce,
    .roceRxFetchAdd 16 { roce with op := 11 }, .roceRxCompareSwap 17 roce, .roceRxCompareSwap 16 { roce with op := 11 }, .roceRxSend 17 roce,
    .roceRxSend 16 { roce with op := 11 }, .roceRxAck 17 roce, .roceRxAck 16 { roce with op := 11 }, .roceRxResponse 17 roce,
    .roceRxResponse 16 { roce with op := 11 }, .roceRxNak 17 roce, .roceRxNak 16 { roce with op := 11 }, .roceRxCnp 17 roce,
    .roceRxCnp 16 { roce with op := 11 }, .roceAckTimeout (2 ^ 16), .dcqcnRateTimer (2 ^ 16), .qpContextLoaded (2 ^ 16) 7, .qpContextLoaded (2 ^ 16 - 1) 8,
    .cmReq { port := 16 }, .cmRep { port := 16 }, .cmRtu { port := 16 }, .cmRej { port := 16 }, .cmDreq { port := 16 }, .cmDrep { port := 16 },
    .ptpTxRingEntry (List.replicate 127 0), .cmTxRingEntry (List.replicate 511 0)] : List Instr), i.wf = false := by decide +kernel
/-- Well-formed commands, each operand at the edge of its range: ptnProvision to odEntryWrite. -/
theorem test_wf_goodControl : ∀ i ∈ ([.ptnProvision { master := .bus, node := 127, txn := 255, hdr := 2 ^ 64 - 1 } 31,
    .ptnActivate { master := .bus, node := 127, txn := 255, hdr := 2 ^ 64 - 1 } 31,
    .ptnDrain { master := .bus, node := 127, txn := 255, hdr := 2 ^ 64 - 1 } 31,
    .ptnFence { master := .bus, node := 127, txn := 255, hdr := 2 ^ 64 - 1 } 31,
    .ptnUnfence { master := .bus, node := 127, txn := 255, hdr := 2 ^ 64 - 1 } 31,
    .ptnRelease { master := .bus, node := 127, txn := 255, hdr := 2 ^ 64 - 1 } 31, .scrubComplete 31,
    .constellationsWrite { master := .bus, node := 127, txn := 255, hdr := 2 ^ 64 - 1 } 31 [],
    .roleChallenge { master := .bus, node := 127, txn := 255, hdr := 2 ^ 64 - 1 },
    .roleResponse { master := .bus, node := 127, txn := 255, hdr := 2 ^ 64 - 1 } [] true,
    .roleDrop { master := .bus, node := 127, txn := 255, hdr := 2 ^ 64 - 1 }, .roleIdleTimeout .bus, .lockoutExpiry .bus,
    .installerKeyWrite { master := .bus, node := 127, txn := 255, hdr := 2 ^ 64 - 1 } [],
    .auditEntryRead { master := .bus, node := 127, txn := 255, hdr := 2 ^ 64 - 1 }, .ptnCmtStrobe (.vf 31) 31 true, .ptnCrcPassEnd 31,
    .heartbeatTimeout 159, .unitInternalFault 159 255, .wakeTimeout 159, .replayStart 159,
    .readmitWrite { master := .bus, node := 127, txn := 255, hdr := 2 ^ 64 - 1 } [], .readmitDone 159 255, .spareTestDue 159 [159],
    .drillWrite { master := .bus, node := 127, txn := 255, hdr := 2 ^ 64 - 1 } [], .partnerSilent, .pairResyncDone, .deviceFatalFault 255 (2 ^ 24 - 1),
    .thermTrip, .lockstepMismatch { header := List.replicate 448 0 } { header := List.replicate 448 0 }, .cmtStrobe, .cmtDiscard, .cfgCrcPassEnd,
    .msixUnmask 32 2047, .pfOdRead, .pfOdWrite { bundle := { header := List.replicate 448 0 } },
    .odEntryWrite { master := .bus, node := 127, txn := 255, hdr := 2 ^ 64 - 1 } (2 ^ 16 - 1) 255 []] : List Instr), i.wf = true := by decide +kernel
/-- Ill-formed commands, one for each check: ptnProvision to odEntryWrite. -/
theorem test_wf_badControl : ∀ i ∈ ([.ptnProvision { master := .bus, node := 127, txn := 255, hdr := 2 ^ 64 - 1 } 32, .ptnProvision { master := .bus, node := 128 } 31,
    .ptnActivate { master := .bus, node := 127, txn := 255, hdr := 2 ^ 64 - 1 } 32, .ptnActivate { master := .bus, node := 128 } 31,
    .ptnDrain { master := .bus, node := 127, txn := 255, hdr := 2 ^ 64 - 1 } 32, .ptnDrain { master := .bus, node := 128 } 31,
    .ptnFence { master := .bus, node := 127, txn := 255, hdr := 2 ^ 64 - 1 } 32, .ptnFence { master := .bus, node := 128 } 31,
    .ptnUnfence { master := .bus, node := 127, txn := 255, hdr := 2 ^ 64 - 1 } 32, .ptnUnfence { master := .bus, node := 128 } 31,
    .ptnRelease { master := .bus, node := 127, txn := 255, hdr := 2 ^ 64 - 1 } 32, .ptnRelease { master := .bus, node := 128 } 31, .scrubComplete 32,
    .constellationsWrite { master := .bus, node := 127, txn := 255, hdr := 2 ^ 64 - 1 } 32 [], .constellationsWrite { master := .bus, node := 128 } 31 [],
    .roleChallenge { master := .bus, node := 128 }, .roleResponse { master := .bus, node := 128 } [] true, .roleDrop { master := .bus, node := 128 },
    .installerKeyWrite { master := .bus, node := 128 } [], .auditEntryRead { master := .bus, node := 128 }, .ptnCmtStrobe (.vf 31) 32 true,
    .ptnCmtStrobe (.vf 32) 31 true, .ptnCrcPassEnd 32, .heartbeatTimeout 160, .unitInternalFault 160 255, .unitInternalFault 159 256, .wakeTimeout 160,
    .replayStart 160, .readmitWrite { master := .bus, node := 128 } [], .readmitDone 160 255, .readmitDone 159 256, .spareTestDue 160 [159],
    .spareTestDue 159 [160], .drillWrite { master := .bus, node := 128 } [], .deviceFatalFault 256 (2 ^ 24 - 1), .deviceFatalFault 255 (2 ^ 24),
    .lockstepMismatch { header := List.replicate 449 0 } { header := List.replicate 448 0 },
    .lockstepMismatch { header := List.replicate 448 0 } { header := List.replicate 449 0 }, .msixUnmask 33 2047, .msixUnmask 32 2048,
    .pfOdWrite { bundle := { header := List.replicate 449 0 } },
    .odEntryWrite { master := .bus, node := 127, txn := 255, hdr := 2 ^ 64 - 1 } (2 ^ 16) 255 [],
    .odEntryWrite { master := .bus, node := 127, txn := 255, hdr := 2 ^ 64 - 1 } (2 ^ 16 - 1) 256 [],
    .odEntryWrite { master := .bus, node := 128 } (2 ^ 16 - 1) 255 []] : List Instr), i.wf = false := by decide +kernel
/-- Well-formed commands, each operand at the edge of its range: ncResetComm to odAnswerExpiry. -/
theorem test_wf_goodBus : ∀ i ∈ ([.ncResetComm { dest := 127, src := 127, seq := 2047 } (2 ^ 64 - 1), .ncSilence { dest := 127, src := 127, seq := 2047 } (2 ^ 64 - 1),
    .ncResume { dest := 127, src := 127, seq := 2047 } (2 ^ 64 - 1), .ncStoreAddr { dest := 127, src := 127, seq := 2047 } (2 ^ 64 - 1),
    .ncWarmReset { dest := 127, src := 127, seq := 2047 } (2 ^ 64 - 1), .canTimeFrame { dest := 127, src := 127, seq := 2047 } [], .timeFrameTx,
    .searchStart { dest := 127, src := 127, seq := 2047 } true, .searchProbe { dest := 127, src := 127, seq := 2047 } 64 (2 ^ 64 - 1),
    .searchAssign { dest := 127, src := 127, seq := 2047 } 127 (2 ^ 64 - 1), .searchConfirm { dest := 127, src := 127, seq := 2047 } (2 ^ 64 - 1),
    .searchEnd { dest := 127, src := 127, seq := 2047 }, .searchHeard { dest := 127, src := 127, seq := 2047 },
    .canHeartbeatRx { dest := 127, src := 127, seq := 2047 } (2 ^ 64 - 1), .addressConflict,
    .canOdWrite { dest := 127, src := 127, seq := 2047 } [] { bundle := { header := List.replicate 448 0 } },
    .canOdRead { dest := 127, src := 127, seq := 2047 } [], .listenEnd, .confirmTimeout, .silentSearchTimeout, .ackErrorLimit, .loneFrameAcked,
    .loneProbeTimer, .heartbeatPeriod, .hotJoinBackoff, .odSegmentTimeout 127 255, .odAnswerExpiry 127 255] : List Instr), i.wf = true := by decide +kernel
/-- Ill-formed commands, one for each check: ncResetComm to odAnswerExpiry. -/
theorem test_wf_badBus : ∀ i ∈ ([.ncResetComm { dest := 127, src := 127, seq := 2047 } (2 ^ 64), .ncResetComm { dest := 128 } (2 ^ 64 - 1),
    .ncSilence { dest := 127, src := 127, seq := 2047 } (2 ^ 64), .ncSilence { dest := 128 } (2 ^ 64 - 1),
    .ncResume { dest := 127, src := 127, seq := 2047 } (2 ^ 64), .ncResume { dest := 128 } (2 ^ 64 - 1),
    .ncStoreAddr { dest := 127, src := 127, seq := 2047 } (2 ^ 64), .ncStoreAddr { dest := 128 } (2 ^ 64 - 1),
    .ncWarmReset { dest := 127, src := 127, seq := 2047 } (2 ^ 64), .ncWarmReset { dest := 128 } (2 ^ 64 - 1), .canTimeFrame { dest := 128 } [],
    .searchStart { dest := 128 } true, .searchProbe { dest := 127, src := 127, seq := 2047 } 65 (2 ^ 64 - 1),
    .searchProbe { dest := 127, src := 127, seq := 2047 } 64 (2 ^ 64), .searchProbe { dest := 128 } 64 (2 ^ 64 - 1),
    .searchAssign { dest := 127, src := 127, seq := 2047 } 128 (2 ^ 64 - 1), .searchAssign { dest := 127, src := 127, seq := 2047 } 127 (2 ^ 64),
    .searchAssign { dest := 128 } 127 (2 ^ 64 - 1), .searchConfirm { dest := 127, src := 127, seq := 2047 } (2 ^ 64),
    .searchConfirm { dest := 128 } (2 ^ 64 - 1), .searchEnd { dest := 128 }, .searchHeard { dest := 128 },
    .canHeartbeatRx { dest := 127, src := 127, seq := 2047 } (2 ^ 64), .canHeartbeatRx { dest := 128 } (2 ^ 64 - 1),
    .canOdWrite { dest := 128 } [] { bundle := { header := List.replicate 448 0 } },
    .canOdWrite { dest := 127, src := 127, seq := 2047 } [] { bundle := { header := List.replicate 449 0 } }, .canOdRead { dest := 128 } [],
    .odSegmentTimeout 128 255, .odSegmentTimeout 127 256, .odAnswerExpiry 128 255, .odAnswerExpiry 127 256] : List Instr), i.wf = false := by decide +kernel
/-- Well-formed commands, each operand at the edge of its range: almanacGroupStart to nfcUnsupported. -/
theorem test_wf_goodAlmanac : ∀ i ∈ ([.almanacGroupStart, .almanacGroupDone none, .fieldNotesWrite { master := .bus, node := 127, txn := 255, hdr := 2 ^ 64 - 1 } [] true,
    .clearFaultLog { master := .bus, node := 127, txn := 255, hdr := 2 ^ 64 - 1 } 255, .nfcInventory 64 (2 ^ 64 - 1), .nfcStayQuiet (2 ^ 64 - 1),
    .nfcSelect (2 ^ 64 - 1), .nfcResetToReady (.uid (2 ^ 64 - 1)), .nfcGetSystemInfo (.uid (2 ^ 64 - 1)) true,
    .nfcReadBlocks (.uid (2 ^ 64 - 1)) (2 ^ 16 - 1) (2 ^ 16 - 1), .nfcWriteBlock (.uid (2 ^ 64 - 1)) (2 ^ 16 - 1) [], .nfcUnsupported (.uid (2 ^ 64 - 1))] : List Instr), i.wf = true := by decide +kernel
/-- Ill-formed commands, one for each check: almanacGroupStart to nfcUnsupported. -/
theorem test_wf_badAlmanac : ∀ i ∈ ([.fieldNotesWrite { master := .bus, node := 128 } [] true, .clearFaultLog { master := .bus, node := 127, txn := 255, hdr := 2 ^ 64 - 1 } 256,
    .clearFaultLog { master := .bus, node := 128 } 255, .nfcInventory 65 (2 ^ 64 - 1), .nfcInventory 64 (2 ^ 64), .nfcStayQuiet (2 ^ 64),
    .nfcSelect (2 ^ 64), .nfcResetToReady (.uid (2 ^ 64)), .nfcGetSystemInfo (.uid (2 ^ 64)) true,
    .nfcReadBlocks (.uid (2 ^ 64 - 1)) (2 ^ 16) (2 ^ 16 - 1), .nfcReadBlocks (.uid (2 ^ 64 - 1)) (2 ^ 16 - 1) (2 ^ 16),
    .nfcReadBlocks (.uid (2 ^ 64)) (2 ^ 16 - 1) (2 ^ 16 - 1), .nfcWriteBlock (.uid (2 ^ 64 - 1)) (2 ^ 16) [],
    .nfcWriteBlock (.uid (2 ^ 64)) (2 ^ 16 - 1) [], .nfcUnsupported (.uid (2 ^ 64))] : List Instr), i.wf = false := by decide +kernel
/-- Well-formed commands, each operand at the edge of its range: telWindowBoundary to unitHeartbeat. -/
theorem test_wf_goodPlant : ∀ i ∈ ([.telWindowBoundary, .acctSnapshot, .acctLatch, .energyFit, .pmbusPoll [none],
    .coeffWrite { master := .bus, node := 127, txn := 255, hdr := 2 ^ 64 - 1 } [], .railInRange 9 7, .railWindowExpiry 9, .railFault 9,
    .dataReadyReached { lost := [11], dimms := List.replicate 16 {}, found := [{ kind := 3, loc := 0 }] },
    .startWatchdog { header := List.replicate 448 0 } { header := List.replicate 448 0 },
    .updateBegin { master := .bus, node := 127, txn := 255, hdr := 2 ^ 64 - 1 },
    .updateData { master := .bus, node := 127, txn := 255, hdr := 2 ^ 64 - 1 } [],
    .updateVerify { master := .bus, node := 127, txn := 255, hdr := 2 ^ 64 - 1 } { bundle := { header := List.replicate 448 0 } },
    .updateCancel { master := .bus, node := 127, txn := 255, hdr := 2 ^ 64 - 1 }, .nfStart { master := .bus, node := 127, txn := 255, hdr := 2 ^ 64 - 1 },
    .nfAbort { master := .bus, node := 127, txn := 255, hdr := 2 ^ 64 - 1 }, .nfPowerDown { master := .bus, node := 127, txn := 255, hdr := 2 ^ 64 - 1 },
    .nfSliceEnd [{ kind := 1, bit := 127, loc := 2 ^ 24 - 1 }], .nfHoldEnd [{ kind := 1, bit := 127, loc := 2 ^ 24 - 1 }],
    .managementTick [0] [0] [159] [159], .flowCompute 7, .coolantMeasure (-1) (-1), .coolantClear 4, .ref25Loss, .ref156Loss true, .ref100Loss true,
    .rcRegisterRead (.vf 31) (2 ^ 28 - 1), .delineationCheck 16 true true, .routeTableComputed [(1, 2)], .msgIdFreed 255 (2 ^ 20 - 1), .pcieLinkDown 11,
    .pcieLinkUp 11 7 16, .refClockReturn 4, .tdispStartInterface 31, .tdispStopInterface 31, .canIgnoredFrame, .canErrorFrame true true,
    .canBusOffRecovery, .nfcFieldOn, .nfcFieldOff, .unitHeartbeat 159] : List Instr), i.wf = true := by decide +kernel
/-- Ill-formed commands, one for each check: telWindowBoundary to unitHeartbeat. -/
theorem test_wf_badPlant : ∀ i ∈ ([.coeffWrite { master := .bus, node := 128 } [], .railInRange 10 7, .railWindowExpiry 10, .railFault 10, .dataReadyReached { lost := [12] },
    .startWatchdog { header := List.replicate 449 0 } { header := List.replicate 448 0 },
    .startWatchdog { header := List.replicate 448 0 } { header := List.replicate 449 0 }, .updateBegin { master := .bus, node := 128 },
    .updateData { master := .bus, node := 128 } [], .updateVerify { master := .bus, node := 128 } { bundle := { header := List.replicate 448 0 } },
    .updateVerify { master := .bus, node := 127, txn := 255, hdr := 2 ^ 64 - 1 } { bundle := { header := List.replicate 449 0 } },
    .updateCancel { master := .bus, node := 128 }, .nfStart { master := .bus, node := 128 }, .nfAbort { master := .bus, node := 128 },
    .nfPowerDown { master := .bus, node := 128 }, .nfSliceEnd [{ kind := 0, loc := 0 }], .nfHoldEnd [{ kind := 0, loc := 0 }], .coolantClear 5,
    .rcRegisterRead (.vf 31) (2 ^ 28), .rcRegisterRead (.vf 32) (2 ^ 28 - 1), .delineationCheck 17 true true, .msgIdFreed 256 (2 ^ 20 - 1),
    .msgIdFreed 255 (2 ^ 20), .pcieLinkDown 12, .pcieLinkUp 12 7 16, .pcieLinkUp 11 8 16, .pcieLinkUp 11 7 17, .refClockReturn 5, .tdispStartInterface 32,
    .tdispStopInterface 32, .unitHeartbeat 160] : List Instr), i.wf = false := by decide +kernel
/-- Ill-formed operands, one for each check of their types. -/
theorem test_wf_badOperands : (∀ x ∈ ([.vf 32] : List View), x.wf = false) ∧
    (∀ x ∈ ([{ master := .bus, node := 128 }, { master := .bus, txn := 256 }, { master := .bus, hdr := 2 ^ 64 }] : List OdSrc), x.wf = false) ∧
    (∀ x ∈ ([{ header := List.replicate 449 0 }] : List Bundle), x.wf = false) ∧
    (∀ x ∈ ([{ bundle := { header := List.replicate 449 0 } }] : List Ext), x.wf = false) ∧
    (∀ x ∈ ([{ dest := 128 }, { src := 128 }, { seq := 2048 }] : List BusRx), x.wf = false) ∧
    (∀ x ∈ ([.uid (2 ^ 64)] : List NfcTo), x.wf = false) ∧
    (∀ x ∈ ([.con 160, .ptn 32] : List Slow), x.wf = false) ∧
    (∀ x ∈ ([{ srcPtn := 32 }, { dstPtn := 32 }, { srcHandle := 2 ^ 32 }, { dstHandle := 2 ^ 32 }, { epoch := 2 ^ 16 }, { status := 256 }, { tag := 2 ^ 32 }, { seq := 2 ^ 32 }, { qid := 2 ^ 32 }, { items := 2 ^ 32 }, { args := 2 ^ 256 }] : List StateMsg), x.wf = false) ∧
    (∀ x ∈ ([{ hdr := 0, seq := 2 ^ 32, payload := [] }, { hdr := 0, seq := 0, payload := List.replicate 225 0 }] : List WireCell), x.wf = false) ∧
    (∀ x ∈ ([{ memMsg with src := 256 }, { memMsg with msgId := 2 ^ 20 }, { memMsg with stream := 2 ^ 12 }, { memMsg with sseq := 2 ^ 24 }, { memMsg with ptn := 32 }, { memMsg with cls := 8 }] : List MemMsg), x.wf = false) ∧
    (∀ x ∈ ([{ roce with op := 11 }, { roce with qpn := 2 ^ 24 }, { roce with psn := 2 ^ 24 }, { roce with addr := 2 ^ 64 }, { roce with key := 2 ^ 32 }, { roce with len := 2 ^ 32 }, { roce with syn := 256 }, { roce with srcQp := 2 ^ 24 }, { roce with gid := 2 ^ 128 }, { roce with dgid := 2 ^ 128 }, { roce with vlan := 2 ^ 16 }] : List RocePkt), x.wf = false) ∧
    (∀ x ∈ ([{ bytes := 64, prio := 8 }, { bytes := 64, roce := some { roce with op := 11 } }] : List EthFrame), x.wf = false) ∧
    (∀ x ∈ ([.vf 33, .vdsp 12] : List DlinkTarget), x.wf = false) ∧
    (∀ x ∈ ([{ port := 16 }, { port := 0, gid := 2 ^ 128 }, { port := 0, peer := 2 ^ 128 }, { port := 0, lqpn := 2 ^ 24 }, { port := 0, rqpn := 2 ^ 24 }, { port := 0, psn := 2 ^ 24 }, { port := 0, sid := 2 ^ 64 }, { port := 0, mad := List.replicate 257 0 }] : List CmMsg), x.wf = false) ∧
    (∀ x ∈ ([{ transport := 4 }, { domain := 256 }, { kind := 4 }, { cls := 256 }] : List PtpMsg), x.wf = false) ∧
    (∀ x ∈ ([{ lost := [12] }, { dimms := List.replicate 17 {} }, { found := [{ kind := 0, loc := 0 }] }] : List Train), x.wf = false) ∧
    (∀ f ∈ ([{ kind := 0, loc := 0 }, { kind := 4, loc := 0 }, { kind := 1, bit := 128, loc := 0 }, { kind := 1, loc := 2 ^ 24 }, { kind := 1, loc := 0, addr := 2 ^ 48 }] : List Found), f.wf = false) := by decide +kernel
/-- Ill-formed commands whose data is too long. -/
theorem test_wf_tooLong : Instr.wf (.ephLoadDone true true (List.replicate (2 ^ 30 + 1) 0) []) = false ∧
    Instr.wf (.tableSupply { master := .bus, node := 127, txn := 255, hdr := 2 ^ 64 - 1 } 31 (List.replicate (4096 + 1) 0)) = false ∧
    Instr.wf (.routeTableLoad { master := .bus, node := 127, txn := 255, hdr := 2 ^ 64 - 1 } (List.replicate (4096 + 1) 0)) = false ∧
    Instr.wf (.windowTableWrite { master := .bus, node := 127, txn := 255, hdr := 2 ^ 64 - 1 } 31 (List.replicate (4096 + 1) 0)) = false ∧
    Instr.wf (.bar2Atomic 31 1023 (2 ^ 28 - 1) 255 (List.replicate (4096 + 1) 0)) = false ∧
    Instr.wf (.constellationsWrite { master := .bus, node := 127, txn := 255, hdr := 2 ^ 64 - 1 } 31 (List.replicate (4096 + 1) 0)) = false ∧
    Instr.wf (.roleResponse { master := .bus, node := 127, txn := 255, hdr := 2 ^ 64 - 1 } (List.replicate (4096 + 1) 0) true) = false ∧
    Instr.wf (.installerKeyWrite { master := .bus, node := 127, txn := 255, hdr := 2 ^ 64 - 1 } (List.replicate (4096 + 1) 0)) = false ∧
    Instr.wf (.readmitWrite { master := .bus, node := 127, txn := 255, hdr := 2 ^ 64 - 1 } (List.replicate (4096 + 1) 0)) = false ∧
    Instr.wf (.drillWrite { master := .bus, node := 127, txn := 255, hdr := 2 ^ 64 - 1 } (List.replicate (4096 + 1) 0)) = false ∧
    Instr.wf (.odEntryWrite { master := .bus, node := 127, txn := 255, hdr := 2 ^ 64 - 1 } (2 ^ 16 - 1) 255 (List.replicate (4096 + 1) 0)) = false ∧
    Instr.wf (.canTimeFrame { dest := 127, src := 127, seq := 2047 } (List.replicate 4097 0)) = false ∧
    Instr.wf (.canOdWrite { dest := 127, src := 127, seq := 2047 } (List.replicate (4096 + 1) 0) { bundle := { header := List.replicate 448 0 } }) = false ∧
    Instr.wf (.canOdRead { dest := 127, src := 127, seq := 2047 } (List.replicate (4096 + 1) 0)) = false ∧
    Instr.wf (.fieldNotesWrite { master := .bus, node := 127, txn := 255, hdr := 2 ^ 64 - 1 } (List.replicate (4096 + 1) 0) true) = false ∧
    Instr.wf (.nfcWriteBlock (.uid (2 ^ 64 - 1)) (2 ^ 16 - 1) (List.replicate (4096 + 1) 0)) = false ∧
    Instr.wf (.coeffWrite { master := .bus, node := 127, txn := 255, hdr := 2 ^ 64 - 1 } (List.replicate (4096 + 1) 0)) = false ∧
    Instr.wf (.updateData { master := .bus, node := 127, txn := 255, hdr := 2 ^ 64 - 1 } (List.replicate (4096 + 1) 0)) = false := by
  simp only [Instr.wf, List.length_replicate]; decide
/-- The block awake: the management plane and the data plane run. -/
def on : State := { State.reset with boot := { mgmt := true, ready := true, stopped := false } }
/-- The block before its rails have come up. -/
def low : State := { State.reset with boot := { mgmt := true } }
/-- An image whose only entries stand in one section, and the block with it in force. -/
def imageOf (sec : Nat) (es : List Entry) : Image :=
  { contract := 1, leadLax := false, cycleTicks := 250000, fprint := 0, imageId := 0, sections := List.replicate sec {} ++ [{ primary := es }], prog := [] }
def running (sec : Nat) (es : List Entry) : State := { on with eph := { running := true, bank0 := some (imageOf sec es) } }
/-- A compute entry of constellation 0, of partition 0, and an entry of any class. -/
def slotEntry : Entry := { start := 100, length := 10, wakeLead := 20, cls := 1, uid := mkUid 2 0 }
def entryOf (cls action : Nat) : Entry := { start := 100, length := 10, cls := cls, action := action, uid := mkUid 2 0, capA := 3 }
/-- With partition 0 in a state, owning constellation 0. -/
def ptnIn (st : PState) (s : State) : State := modPtn s 0 fun p => { p with state := st, cons := [0] }
/-- With constellation 0 changed. -/
def conIn (f : Con → Con) (s : State) : State := modCon s 0 f
/-- A VF bound to partition 0. -/
def bound (s : State) : State := modComp s 0 fun c => { c with cfg := 1 }
/-- A task that runs in the slot of entry 0 of section 0. -/
def taskOne : Task :=
  { id := 1, src := .pf, kind := 1, pin := false, fence := false, quiet := false, cls := 0, level := 2, ptn := 0, uid := mkUid 2 0, span := 0,
    request := none, epoch := 0, layer := 0, prog := 0, count := 1, tag := 0, after := none, args := [], slot := some (0, 0) }
/-- A slot of entry 0 of section 0, with work in it or without. -/
def slotAt (f : RunSlot → RunSlot) (busy : Bool) (s : State) : State :=
  let s1 := s.modEph fun e => { e with slots := [f { sec := 0, ent := 0, ptn := 0, cons := [0] }] }
  if busy then s1.modWork fun w => { w with tasks := [taskOne], insts := [{ id := 1, task := 1, uid := mkUid 2 0 }] } else s1

/-- A model, and the block serving it: PF rings with one entry each, partition 0 active with one slot, a Near granule and a Far one, and a peer. -/
def modelOne : Model := { number := 0, layers := 1, latent := false, dim := 64, groups := 1, posDim := 0, heads := 1, vocab := 100 }
def openRing (r : Nat) (s : State) : State := setReg (setReg s (r + 8) 0x2A) (r + 0xC) 1
def serving (reqs : List Req) : State :=
  let s1 := odSet ((List.range 3).foldl (fun s i => openRing (pfRing i) s) (setReg (setReg on (ngranOff 12) 0x20) (fgranOff 0) 0x20)) 0x3000 4 2
  let s2 := (modPtn s1 0 fun p => { p with state := .active, cons := [0], peers := [(1, 0)] }).modMem fun m => { m with
    farC := 1, farK := 16, chans := m.chans.mapIdx fun i c => if i = 0 then { c with state := 1, far := some 0 } else c }
  { s2 with eph := { running := true, bank0 := some { imageOf 0 [] with models := [modelOne] } }, serve := { reqs := reqs } }
/-- A request in a state, its handle 2^18, and a page of it. -/
def reqOne (st : RState) : Req := { ptn := 0, slot := 0, gen := 1, state := st, maxTokens := 128, dim := 64, groups := 1 }
def pageOne (st : PgState) : Page := { ptn := 0, num := 0, state := st, dim := 64, groups := 1, slotTiles := 1 }
def withPage (r : Req) : Req := { r with map := [(0, mapValid 0)] }
/-- A request that another device installed here. -/
def installed (r : Req) : Req := { r with mverb := 1, install := some { dev := 1, ptn := 0, handle := 7, at_ := 0, ackAt := 0 } }
/-- A move descriptor for that request. -/
def mvDesc (verb : Nat) : BitVec 512 := BitVec.ofNat 512 (verb + 2 ^ 50)
/-- A message of device 1 that names that request. -/
def msgOne : StateMsg := { srcPtn := 0, dstPtn := 0, srcHandle := 7, dstHandle := 2 ^ 18 }

/-- An instruction word, and the block whose instance 1 has reached it, with changes. -/
def word (opc fa fb fd dst srca srcb spec : Nat) : Nat :=
  opc + 2 ^ 8 * fa + 2 ^ 12 * fb + 2 ^ 16 * fd + 2 ^ 24 * dst + 2 ^ 44 * srca + 2 ^ 64 * srcb + 2 ^ 103 * spec
def instOne : Inst := { id := 1, task := 1, uid := mkUid 1 0 }
def taskReq : Task := { taskOne with request := some (2 ^ 18) }
def at_ (prog : List Byte) (i : Inst) (s : State) : State :=
  { modCon s 0 (fun c => { c with pwr := .awake }) with
    eph := { s.eph with bank0 := some { imageOf 0 [] with models := [modelOne], prog := prog } }, work := { s.work with tasks := [taskReq], insts := [i] } }
def atWord (w : Nat) (s : State) : State := at_ (leBytes 16 w) instOne s
/-- The word's operands lie at these keys (SRCA at line 1,000, SRCB at line 2,000, DST at line 0), all their lines in their space, and no page is staged. -/
def keysOn (s : State) (i : Inst) (w na nb nd : Nat) : Bool :=
  let ok (which n key : Nat) : Bool := n == 0 || opKey s i taskReq (parseIns w) which n 0 == some key
  ok 1 na 64000 && ok 2 nb 128000 && ok 0 nd 0 && s.serve.pages.isEmpty
def keysOk (w na nb nd : Nat) (s0 : State) : Bool := keysOn (atWord w s0) instOne w na nb nd
/-- The sources and the accumulators of a product with a KVQ width are there to read. -/
def productOk (w width : Nat) (s0 : State) : Bool :=
  let s := atWord w s0; let x := parseIns w; let k := kOf x (x.spec 103 7); let st := rowBlocks (reqOf s instOne) k
  keysOk w (matLines x.fa width k st) (matLines x.fb width k st) (fmtLines x.fd 1024) s0 && (matVals s 0 x.fa width 64000 k st 0).toOption.isSome &&
    (matVals s 0 x.fb width 128000 k st 0).toOption.isSome && (accOf s instOne x 0).isSome
abbrev runs (w : Nat) (s : State) : Prop := runsOnce (atWord w s) 1 (w % 256) instOne taskReq (parseIns w)
def held : State := serving [reqOne .decode]

/-- Port n in a mode (1 cells, 2 Ethernet), its link changed; a cell whose header check holds; and an answer whose ARG names what was sent. -/
def linkIn (n mode : Nat) (f : Link → Link) (s : State) : State := modLink (setReg s (portBase n) (BitVec.ofNat 32 mode)) n f
def cellOf (kind : Nat) (payload : List Byte) (h : Nat := 0) : WireCell :=
  let x := kind * 2 ^ 124 + 112 * 2 ^ 16 + h; { hdr := BitVec.ofNat 128 (x + hcrc x), seq := 0, payload := payload }
def upLink (l : Link) : Link := { l with state := 3, delin := 2 }
/-- The state that a checked cell leaves, and what the check says of it. -/
def afterCell (s : State) (n kind : Nat) (c : WireCell) (P : State → Bool) : Bool := (checkCell s n kind c).2 && P (checkCell s n kind c).1
def afterSeq (s : State) (n kind : Nat) (c : WireCell) (P : State → Bool) : Bool :=
  afterCell s n kind c fun s1 => (acceptSeq s1 n c.seq).2 && P (acceptSeq s1 n c.seq).1
/-- A message sent to device 1, its answer of an operation, and the request on BAR2 it serves. -/
def sentOne (op sends : Nat) (o : MemOwner) : SentMsg := { id := 1, dev := 1, msgId := some 3, stream := 0, op := op, ptn := 0, addr := 0, len := 4096, cls := 0, owner := o, sends := sends }
def answerOf (op arg : Nat) : MemMsg := { src := 1, msgId := 0, stream := 0, sseq := 0, hdr := BitVec.ofNat 256 (op + (3 + arg) * 2 ^ 192) }
def barOne (a : Bool) : Bar2 := { ptn := 0, tag := 0, addr := 64, len := 64, atomic := a }
def sentIn (l : List SentMsg) (a : Bool) : State := { on.modFab fun f => { f with sent := l } with px := { on.px with bar2 := [barOne a] } }
/-- A queue-pair command in the PF's mailbox, as one number. -/
def qcmd (x : Nat) (s : State) : State := (List.range 16).foldl (fun s i => setReg s (0x20C0 + 4 * i) (BitVec.ofNat 32 (x / 2 ^ (32 * i)))) (setReg s 0x2400 4)
abbrev goes (x : Nat) (s : State) : Prop := mbxGo (qcmd x s) .pf 2 = true ∧ x = mbxRead (qcmd x s) (mbxQp .pf) 16 ∧ qcReserved x = false
def gwOne (op sends : Nat) : GwOp :=
  { op := op, ptn := 0, addr := 0, len := 8, raddr := 0, rkey := 0, owner := .bar2 0 0 0, pkts := 1, psn := some 0, sends := sends }
def qpOne (st : Nat) (ops : List GwOp) : Qp := { ix := 0, ptn := 0, local_ := 0, state := st, ops := ops }
/-- Port 0 up in Ethernet mode, partition 0 with room for queue pairs and regions, and these queue pairs. -/
def qpsOn (qs : List Qp) : State :=
  let s := odSet (odSet (linkIn 0 2 upLink (serving [])) 0x9240 3 4) 0x9240 4 4; { s with px := { s.px with qps := qs } }
def regOne : Region := { ix := 0, ptn := 0, addr := 12 * 2 ^ 30, len := 4096, rights := 7, variant := 1 }
/-- The PF's master in the maker's role, a request of 0x6030 in its mailbox, and an entry of partition 0. -/
def pf : OdSrc := { master := .pf }
def maker (s : State) : State := { s with ctl := { s.ctl with pfRole := { s.ctl.pfRole with role := 2 } } }
def odBox (op sub len : Nat) (s : State) : State :=
  setReg (setReg (setReg s 0x2100 (BitVec.ofNat 32 (op + 0x6030 * 2 ^ 8 + sub * 2 ^ 24))) 0x2104 (BitVec.ofNat 32 len)) 0x2400 8
def ptnState (st : PState) : State := maker (ptnIn st on)
/-- The node on the bus, in a state and with an address, and a frame of device 1 to it. -/
def node (b : BusState) (f : Mgt → Mgt := id) : State := let m := { on.mgt with bus := b, addr := if b = .assigned then 5 else 127, manager := 1 }; { on with mgt := f m }
def toNode : BusRx := { src := 1, seq := 0 }
theorem leNat_zeros : ∀ n, leNat (List.replicate n (0 : Byte)) = 0
  | 0 => rfl
  | n + 1 => by rw [List.replicate_succ, leNat, leNat_zeros n]; rfl
/-- A table of zeros names nothing. -/
theorem leAt_zeros (n o k : Nat) : leAt (List.replicate n (0 : Byte)) o k = 0 := by
  rw [leAt, bytesAt, List.drop_replicate, List.take_replicate, leNat_zeros]
/-- Messages for the tile at 12 GiB; ARG names no request. -/
def memTo (op len : Nat) : MemMsg :=
  { src := 1, msgId := 0, stream := 0, sseq := 0, hdr := BitVec.ofNat 256 (op + 12 * 2 ^ 30 * 2 ^ 64 + len * 2 ^ 128 + 0xFFFFFFFF * 2 ^ 32), data := if op = 0x40 then [] else leBytes len 7 }
/-- A command ends in a next state that meets a test. -/
def nextIs (o : Host.Outcome State Fault Refusal) (P : State → Bool) : Bool := match o with | .next t => P t | _ => false
/-- spec/02, star 5 of cluster 7 of constellation 113. -/
theorem test_uid : mkUid 2 113 = 0x400071 ∧ mkUid 1 (113 * 16 + 7) = 0x200717 ∧ mkUid 0 (1815 * 128 + 5) = 0x038B85 ∧ uidCon 0x038B85 = 113 ∧ uidCluster 0x038B85 = 1815 ∧ mkUid 3 (homeQuarter 113) = 0x600003 := by decide +kernel
/-- spec/05, a block with scale 0x7C and first byte 0x97 reads as 0.75 and -0.0625. -/
theorem test_mxfp4 : ((readNums 9 2 (0x97 :: List.replicate 63 0 ++ [0x7C])).map w32) = [0x3F400000, 0xBD800000] := by decide +kernel
/-- spec/05, 2^24, 1 and -2^24 in one block sum to 1.0. -/
theorem test_oneRounding : addBlocks 0 [numInt (2 ^ 24), numInt 1, numInt (-(2 ^ 24))] = 0x3F800000 := by decide +kernel
/-- spec/07, a KVQ4 block whose largest magnitude is 0.8125 has scale 126 and codes 6 and -2, which read as 0.75 and -0.25; -0.3 is 0xBE99999A in FP32. -/
theorem test_kvq4 :
    (let b := quantBlock 4 (r32 0x3F500000 :: r32 0xBE99999A :: List.replicate 30 (numInt 0)); b.scale = 126 ∧ b.syms.take 3 = [6, 14, 0]) ∧
    (let b := quantBlock 4 (r32 0x3F75C28F :: List.replicate 31 (numInt 0)); b.scale = 126 ∧ b.syms.take 1 = [7]) ∧ w32 (kvqValue 4 126 6) = 0x3F400000 ∧ w32 (kvqValue 4 126 14) = 0xBE800000 := by decide +kernel
/-- spec/07, the codes of a KVQ3 table, a block's first two bytes, its 69 bits, and the raw escape of 106. -/
theorem test_kvq3Codes :
    let cs := assignCodes [1, 3, 4, 5, 0, 5, 4, 3]
    cs = [(0, 1), (4, 3), (12, 4), (28, 5), (0, 0), (29, 5), (13, 4), (5, 3)] ∧
    (let b : KvBlock := { scale := 0x7E, syms := [1, 0, 0, 7] ++ List.replicate 18 0 ++ List.replicate 4 1 ++ List.replicate 3 7 ++ [2, 2, 6] }
     (encBlock 3 (some cs) b).length = 69 ∧ (bitsToBytes (encBlock 3 (some cs) b)).take 2 = [0xF8, 0x85] ∧ (encBlock 3 (some cs) { b with syms := 4 :: b.syms.drop 1 }).length = 106) := by decide +kernel
/-- spec/20, the alias words of CFG_FAULT and of EN of the completion ring; writing 0 clears the event and writing 1 does nothing. -/
theorem test_alias :
    aliasOf on .pf 0x4008008 = some (0x400, 2) ∧ aliasOf (bound on) (.vf 0) 0x22D14 = some (winBase 0 + 0x168, 5) ∧
    (∀ v ∈ [0, 1], nextIs (exec (.aliasWrite .pf 0x4008008 (BitVec.ofNat 32 v)) (setReg on 0x400 6)) (fun t => t == setReg on 0x400 (if v = 0 then 2 else 6)) = true) := by decide +kernel
/-- Out of reset nothing runs and the node has address 127 (R862); with an empty queue time passes by a tick of 4 ns (log entry 1). -/
theorem test_reset : State.reset.boot.mgmt = false ∧ State.reset.mgt.addr = 127 ∧ nextIs (step State.reset) (fun t => t.mer.osc == 4 && t.pending == []) = true := by decide +kernel
/-- R74, R80: a constellation that finishes waking is AWAKE; one that was not waking stays as it is. -/
theorem test_wake : nextIs (exec (.wakeComplete 3) (modCon on 3 fun c => { c with waking := true })) (fun t => (getCon t 3).pwr == .awake && !(getCon t 3).waking) = true ∧
    nextIs (exec (.wakeComplete 3) on) (fun t => t == on) = true := by decide +kernel
/-- R70: a rail that has settled stands at its target. -/
theorem test_rail : nextIs (exec (.railSettled 1) (modQtr on 1 fun q => { q with targetMv := 770, settling := true })) (fun t => (getQtr t 1).mv == 770 && !(getQtr t 1).settling) = true := by decide +kernel
/-- R575: FETCH_ADD adds to what stands there and wraps. -/
theorem test_fetchAdd :
    nextIs (exec (.memFetchAdd { memTo 0x48 4 with data := [2, 0, 0, 0] }) (tierWrite (serving []) (12 * 2 ^ 30) [0xFF, 0xFF, 0xFF, 0xFF, 9])) (fun t => tierRead t (12 * 2 ^ 30) 5 == [1, 0, 0, 0, 9]) = true := by decide +kernel
/-- R181: MOV copies lines, and the instance goes on to the next instruction. -/
theorem test_mov : nextIs (exec (.instrMov 1 1) (atWord (word 0x50 0 0 0 0 1000 0 0) (held.modWork fun w => { w with sram := [(64003, 7)] }))) (fun t => sramRead t 0 5 == [0, 0, 0, 7, 0] && (findInst t 1).map (·.pc) == some 16) = true := by decide +kernel
/-- R177, R192: ACC adds INT32 words. -/
theorem test_mov_acc : nextIs (exec (.instrMov 1 1) (atWord (word 0x50 0 0 0xD 0 1000 0 0 + 2 ^ 20) (held.modWork fun w => { w with sram := [(0, 5), (64000, 7)] }))) (fun t => sramRead t 0 5 == [12, 0, 0, 0, 0]) = true := by decide +kernel
/-- EntryWrites: a table that a host supplies in its mode. -/
theorem witness_Supply : (let d := fun (c : Nat) => tableImage 0 0 c 0 0 (List.replicate 8 3); let s := odSet (ptnIn .active (serving [])) 0x9100 3 1
    supplyResult s 0 (d 0 ++ d 1) = (0, [d 0, d 1]) ∧ (freeTab s 0 2).isSome = true ∧ odTakes (maker s) pf 0x9160 1 (d 0 ++ d 1)) := by decide +kernel
/-- FatalPersists: a device that has failed. -/
theorem witness_FatalPersists : ∃ t, exec .cmtDiscard { on with ras := { fatal := true } } = .next t ∧ starting { on with ras := { fatal := true } } = false :=
  ⟨_, rfl, by decide +kernel⟩
/-- ShapedKept, CanonicalKept: the state after reset, and its step. -/
theorem witness_Invariants : State.reset.shaped = true ∧ State.reset.canonical = true ∧ State.reset.commandsWf = true ∧ step State.reset = .next (passTime State.reset 4) :=
  ⟨by decide +kernel, by decide +kernel, by decide +kernel, rfl⟩
/-- ReservedOffsets: offset 4 holds nothing, and is no alias. -/
theorem witness_ReservedOffsets : viewOff on .pf 0x4 = some 0x4 ∧ reserved_ on 0x4 = true ∧ aliasOf on .pf 0x4 = none := by decide +kernel
/-- AliasWords: the alias of a register of the PF, of a VF, of a reserved offset. -/
theorem witness_AliasWords : vfBound (bound on) 0 = true ∧ aliasOf on .pf 0x4008008 = some (0x400, 2) ∧ aliasOf (bound on) (.vf 0) 0x22D14 = some (winRing 0 3 + 8, 5) ∧
    aliasOf on .pf 0x4000080 = some (4, 0) ∧ reserved_ on 4 = true := by decide +kernel
theorem witness_AliasProtected : (aliasOf on .pf 0x4000400 = some (0x20, 0) ∧ (regInfo 0x20).any (fun i => i.dom.isSome && (i.rw &&& (1#32 <<< 0)) != 0) = true) ∧
    vfBound (bound on) 31 = false ∧ vfBound (modComp on 31 fun c => { c with cfg := 1 }) 31 = true ∧ (1#32).getLsbD 0 = true ∧ (0#32).getLsbD 0 = false := by decide +kernel
theorem witness_ProtectedReads : (regInfo 0x20).any (·.dom.isSome) = true ∧ (regInfo 0x301000).any (·.dom.isSome) = true := by decide +kernel
theorem witness_ReservedFields :
    (viewOff on .pf 0x200 = some 0x200 ∧ (regInfo 0x200).any (fun i => i.half != .lo && (0xFFFFFFC0#32 ^^^ 0) &&& (i.rw ||| i.rws ||| i.w1c ||| i.w1s ||| i.wo) == 0) = true) ∧
    (regInfo 0x24).any (·.half == .lo) = true := by decide +kernel
/-- A commit of TEL_WINDOW that waits. -/
def telCommit (n : Nat) : State := (setReg on 0x200 32).modRegs fun r => { r with shadow := [(0x600004, BitVec.ofNat 32 n)] }
/-- TwoRegisters: values of TEL_WINDOW on both sides of each bound. -/
theorem witness_TwoRegisters : vfBound (bound on) 0 = true ∧
    ∀ n ∈ [9, 10, 1000000, 1000001], (telCommit n).regs.pending = none ∧ regFld (telCommit n) 0x200 0 6 = 32 ∧ (getReg (telCommit n) 0x204).getLsbD 0 = false ∧
      (telCommit n).regs.shadow = [(0x600004, BitVec.ofNat 32 n)] := by decide +kernel
/-- Starts: a start that runs, one that has passed its rails, RST_N, and Nightfall in a slice and in a hold. -/
theorem witness_Starts :
    starting low = true ∧ starting on = false ∧ on.shaped = true ∧ (on.boot.mgmt = true ∧ on.boot.rstN = false ∧ on.boot.lostRefs.contains 0 = false) ∧
    (let s : State := { low with boot := { mgmt := true, rstN := true } }; s.boot.rstN = true ∧ s.boot.lostRefs.contains 0 = false) ∧
    (let s : State := { low with boot := { mgmt := true, rstN := true, lostRefs := [0] } }; s.boot.lostRefs.contains 0 = true) ∧
    (low.boot.failed = false ∧ low.boot.passed = false ∧ low.boot.recovery = false ∧ low.boot.rails.contains 4 = false ∧ sequenced low = true ∧ (railGroup low).contains 4 = true) ∧
    (let s : State := { low with boot := { mgmt := true, straps := 2 + 64 } }; sequenced s = false ∧ starting s = true ∧ s.boot.rails.contains 8 = false) ∧
    (let s : State := { low with boot := { mgmt := true, passed := true } }; starting s = true) ∧
    (let s : State := { on with boot := { on.boot with nfState := 1, nfStep := 1 } }; s.boot.nfHold = false ∧ s.boot.nfSlice + 1 < nfSlices s.boot.nfStep ∧ nfFits s s.boot.nfSliceMs = true) ∧
    (let s : State := { on with boot := { on.boot with nfState := 1, nfStep := 6, nfHold := true, nfSlice := 1 } }; s.boot.nfSlice + 1 < nfSlices s.boot.nfStep ∧ nfFits s s.boot.nfSliceMs = true) := by
  decide +kernel
theorem witness_RegisterWrites :
    (regInfo 0x404).any (fun i => i.half == .single && i.dom == none && i.wo == 0) = true ∧ (regInfo 0x400).any (fun i => i.w1c != 0) = true ∧
    (regInfo 0x1008).any (fun i => i.half == .single && i.dom.isSome && i.wo == 0) = true ∧ regInfo 4 = none ∧ vfBound on 0 = false ∧
    (aliasOf on .pf 0x4008080 = some (0x404, 0) ∧ (regInfo 0x404).any (fun i => i.w1s == 0 && i.w1c == 0 && ((i.rw ||| i.rws) &&& (1#32 <<< 0)) != 0) = true) ∧
    (aliasOf on .pf 0x4008014 = some (0x400, 5) ∧ (regInfo 0x400).any (fun i => (i.w1c &&& (1#32 <<< 5)) != 0) = true) ∧
    (aliasOf on .pf 0x4008018 = some (0x400, 6) ∧ (regInfo 0x400).any (fun i => ((i.w1c ||| i.w1s ||| i.wo ||| i.rw ||| i.rws) &&& (1#32 <<< 6)) == 0) = true) ∧
    aliasOf on .pf 0x5000000 = none ∧
    ((regInfo 0x24).any (·.half == .lo) = true ∧ mailboxBusy on 0x24 = false ∧ deafDoorbell on 0x24 = false) ∧
    ((regInfo 0x28).any (fun i => i.half == .hi && i.dom.isSome) = true ∧ mailboxBusy on 0x28 = false ∧ deafDoorbell on 0x28 = false) ∧
    ((regInfo 0x100024).any (fun i => i.half == .hi && i.dom == none && i.w1c == 0 && i.w1s == 0) = true ∧ (regInfo 0x100020).isSome = true ∧ mailboxBusy on 0x100024 = false) := by decide +kernel
/-- GlobalCommits: an offset without and with a register, commits that wait, meet a bad value, pass. -/
theorem witness_GlobalCommits :
    (aliasOf on .pf 0x404 = none ∧ reserved_ on 0x404 = false) ∧ reserved_ on 4 = true ∧ (regInfo 0x100060).any (·.rc != 0) = true ∧
    on.regs.msixOpen.contains (32, 6) = false ∧ on.regs.tickAt = on.mer.osc ∧ (∀ e ∈ on.regs.rcNow, e.1 ≠ 0x100060) ∧
    (on.modRegs fun r => { r with rcNow := [(0x100060, 5, 1)] }).regs.rcNow.find? (·.1 == 0x100060) = some (0x100060, 5, 1) ∧ (on.modRegs fun r => { r with pending := some 1 }).regs.pending.isSome = true ∧
    (bit (regFld (setReg on 0x200 16) 0x200 0 6) 4 || (getReg (setReg on 0x200 16) 0x204).getLsbD 0) = true ∧
    (bit (regFld (setReg on 0x200 32) 0x200 0 6) 4 || (getReg (setReg on 0x200 32) 0x204).getLsbD 0) = false ∧
    (let s := (setReg on 0x200 32).modRegs fun r => { r with shadow := [(0x600004, 9)] }; firstCause s (pendingOf s (regFld s 0x200 0 6)) = some (0x600004, 2)) ∧
    (let s := (setReg on 0x200 32).modRegs fun r => { r with shadow := [(0x600004, 10)] }; firstCause s (pendingOf s (regFld s 0x200 0 6)) = none) := by decide +kernel
theorem witness_WindowsAndBoundaries :
    on.shaped = true ∧ (getPtn on 31).cmtPending = false ∧ (getPtn (modPtn on 31 fun p => { p with cmtPending := true }) 31).cmtPending = true ∧
    firstCause on (pendingWin on 31) = none ∧
    (let s := on.modRegs fun r => { r with shadow := [(winRing 31 0 + 8, 1)] }; firstCause s (pendingWin s 31) = some (winRing 31 0 + 8, 2)) ∧
    (getReg (setReg on (winBase 31 + 0x718) 1) (winBase 31 + 0x718)).getLsbD 0 = true ∧ (getReg (setReg on 0x308 1) 0x308).getLsbD 0 = true ∧
    vfBound (bound on) 0 = true ∧ (getPtn (ptnIn .scrubbing on) 0).state = .scrubbing ∧ scrubLacks (ptnIn .scrubbing on) 0 = none ∧
    scrubLacks (conIn (fun c => { c with init := true }) (ptnIn .scrubbing on)) 0 = some 3 ∧ on.boot.mgmt = true ∧ State.reset.boot.mgmt = false := by decide +kernel
theorem witness_PowerAndWakes :
    on.shaped = true ∧ (getCon (conIn (fun c => { c with waking := true }) on) 0).waking = true ∧ (getCon (conIn (fun c => { c with waking := true }) on) 0).init = false ∧ (getCon on 159).waking = false ∧
    (∀ w ∈ [false, true], (getCon (conIn (fun c => { c with waking := w, init := !w }) on) 0).waking = w ∧ (getCon (conIn (fun c => { c with waking := w, init := !w }) on) 0).init = !w) ∧
    (let s := conIn (fun c => { c with draining := true }) (ptnIn .active on); (getCon s 0).draining = true ∧ unallocated s 0 = false) ∧
    (let s := conIn (fun c => { c with draining := true }) on; (getCon s 0).role = .enabled ∧ (getCon s 0).init = false ∧ unallocated s 0 = true ∧ unallocDeep s 0 = true) ∧
    (getCon on 0).draining = false ∧ (getCon (conIn (fun c => { c with init := true }) on) 0).init = true ∧
    (entryNow (running 0 [slotEntry]) 0 0 = some slotEntry ∧ isCompute slotEntry.cls = true ∧ slotEntry.wakeLead ≤ slotEntry.start ∧ isolated (running 0 [slotEntry]) 0 = false ∧
      entryCons (running 0 [slotEntry]) 0 0 slotEntry = [0]) ∧
    (entryNow (ptnIn .fenced (running 0 [slotEntry])) 0 0 = some slotEntry ∧ isolated (ptnIn .fenced (running 0 [slotEntry])) 0 = true) ∧
    (let e := { slotEntry with start := 10 }; let s := running 0 [e]; entryNow (s.modEph fun _ => nextEph s) 0 0 = some e ∧ e.start < e.wakeLead ∧ isolated s e.ptn = false) ∧
    (let s := conIn (fun c => { c with draining := true, wokeAt := some 0 }) (ptnIn .active on); (getCon s 0).draining = true ∧ unallocated s 0 = false ∧ (getCon s 0).wokeAt = some (now s / 4)) := by
  decide +kernel
/-- Ephemerides: loads and switches, with a second image that checks. -/
theorem witness_Ephemerides :
    (on.eph.loadState ≠ 1 ∧ on.eph.armed = false ∧ on.boot.nfState = 0 ∧ halted on = false) ∧ (on.modEph fun e => { e with loadState := 1 }).eph.loadState = 1 ∧
    (∃ f, loadCheck (loadCtx on) on.ctl.imageKey (false && on.eph.loadLen ≤ ([] : List Byte).length) (([] : List Byte).take on.eph.loadLen) = (2, f)) ∧ otherBank on = none ∧
    (let s := setReg (on.modEph fun e => { e with loadState := 2, bank1 := some (imageOf 0 []) }) 0x100040 1; otherBank s = some (imageOf 0 []) ∧ switchCycle s < switchBase s (imageOf 0 []) + 2) ∧
    (let s := setReg ((running 0 []).modEph fun e => { e with loadState := 2, bank1 := some { imageOf 0 [] with cycleTicks := 2000 } }) 0x100040 2;
      image s = some (imageOf 0 []) ∧ switchBase s { imageOf 0 [] with cycleTicks := 2000 } + 2 ≤ switchCycle s ∧ switchCycle s * 250000 % 2000 = 0) ∧
    (let s := setReg ((running 0 []).modEph fun e => { e with loadState := 2, bank1 := some { imageOf 0 [] with cycleTicks := 3000 } }) 0x100040 2;
      switchBase s { imageOf 0 [] with cycleTicks := 3000 } + 2 ≤ switchCycle s ∧ switchCycle s * 250000 % 3000 ≠ 0) ∧
    (on.modEph fun e => { e with armed := true }).eph.armed = true :=
  ⟨by decide +kernel, by decide +kernel, ⟨_, rfl⟩, by decide +kernel, by decide +kernel, by decide +kernel, by decide +kernel, by decide +kernel⟩
/-- Entries: a slot that opens, borrows the SLACK after it, aborts, and entries of the other classes. -/
theorem witness_Entries :
    (entryNow (running 0 [slotEntry]) 0 0 = some slotEntry ∧ image (running 0 [slotEntry]) = some (imageOf 0 [slotEntry]) ∧ findSlot (running 0 [slotEntry]) 0 0 = none ∧
      slotEntry.start + entrySlip (running 0 [slotEntry]) 0 0 slotEntry < 250000 ∧ slotEntry.cls ≠ 7 ∧ slotEntry.cls ≠ 8 ∧ (running 0 [slotEntry]).eph.slots = [] ∧ (running 0 [slotEntry]).eph.skipped.contains (0, 0) = false ∧
      (getPtn (running 0 [slotEntry]) 0).state ≠ .active) ∧
    (let e : Entry := { slotEntry with cls := 7 }; let s := (running 0 [e]).modEph fun x => { x with slip := [(0, 128, 9)] }; let s1 := (running 0 [e]).modEph fun x => { x with slip := [(0, 128, 10)] }
      entryNow s 0 0 = some e ∧ entrySlip s 0 0 e = 9 ∧ e.length = 10 ∧ entryNow s1 0 0 = some e ∧ entrySlip s1 0 0 e = 10) ∧
    (let s := (running 0 [slotEntry]).modEph fun x => { x with slip := [(0, 128, 249900)] }; entryNow s 0 0 = some slotEntry ∧ 250000 ≤ slotEntry.start + entrySlip s 0 0 slotEntry) ∧
    (let e : Entry := { slotEntry with start := 120 }; let s := (running 0 [slotEntry, e]).modEph fun x => { x with slots := [{ sec := 0, ent := 0, ptn := 0, cons := [0], stars := [(0, 128)], aborting := true }] }
      entryNow s 0 1 = some e ∧ findSlot s 0 1 = none ∧ s.eph.slots.any (fun r => r.aborting && meets r.stars (entryStars s 0 1 e)) = true) ∧
    (let f : Entry := { slotEntry with cls := 7, start := 110 }; let s := slotAt id true (running 0 [slotEntry, f])
      entryNow s 0 0 = some slotEntry ∧ slotBusy s 0 0 = true ∧ (laterEntries s (entryStars s 0 0 slotEntry) 110).head? = some (0, 1, f) ∧ slotEntry.policy = 0 ∧ (entryStars s 0 1 f).foldl cutOut (entryStars s 0 0 slotEntry) = [] ∧ (barriersIn s (entryStars s 0 0 slotEntry) 110 f.start).length ≤ 1 ∧
      (findSlot s 0 0).any (fun r => !r.aborting && r.borrow == none && decide (110 + r.slip < f.start + f.length)) = true) ∧
    (let e : Entry := { slotEntry with policy := 1 }; let s := slotAt id true (running 0 [e]); entryNow s 0 0 = some e ∧ slotBusy s 0 0 = true ∧
      (findSlot s 0 0).any (fun r => !r.aborting && r.borrow == none) = true ∧ slotBusy (running 0 [e]) 0 0 = false) ∧
    (findSlot (slotAt (fun r => { r with borrow := some 1 }) false (running 0 [slotEntry])) 0 0).any (fun r => r.borrow.isSome && !r.aborting) = true ∧
    (let s := slotAt (fun r => { r with aborting := true }) false (running 0 [slotEntry]); (findSlot s 0 0).any (·.aborting) = true ∧ slotBusy s 0 0 = false ∧ findSlot s 8 0 = none) ∧
    (∀ c ∈ [6, 0x0A, 0x1A], entryNow (running 0 [entryOf c 0]) 0 0 = some (entryOf c 0)) ∧ entryStars (running 0 [entryOf 6 0]) 0 0 (entryOf 6 0) = [(0, 2048)] ∧
    runsEmpty (running 0 [entryOf 0x0A 0]) 0 = false ∧
    (let s := (running 0 [entryOf 0x0A 0]).modEph fun x => { x with empty := [(0, [0])] }; entryNow s 0 0 = some (entryOf 0x0A 0) ∧ runsEmpty s 0 = true) ∧
    isCompute 6 = false ∧ entryNow on 5 65535 = none ∧
    (let s := (running 0 [slotEntry]).modEph fun x => { x with skipped := [(0, 0)] }; entryNow s 0 0 = some slotEntry ∧ findSlot s 0 0 = none ∧ s.eph.skipped.contains (0, 0) = true) ∧
    (∀ h ∈ [0, 1], on.eph.held.any (fun x => x.1 == 0 && x.2.1 == h) = false) ∧ ((on.modEph fun x => { x with held := [(0, 0, 12)] }).eph.held.any fun x => x.1 == 0 && x.2.1 == 0) = true := by decide +kernel
theorem witness_FaultsAndRecovery :
    (on.shaped = true ∧ (getCon on 159).role = .spare ∧ (getCon on 159).logical = none ∧ (getCon on 159).pwr = .deep ∧ (getCon on 159).testing = false ∧ (getCon on 159).waking = false) ∧
    (let s := modCon on 159 fun c => { c with pwr := .awake, waking := true }; (getCon s 159).pwr = .awake ∧ (getCon s 159).waking = true ∧ (getCon s 159).logical = none) ∧
    (let s := { modCon on 159 (fun c => { c with pwr := .awake }) with ras := { replays := [{ l := 0, old := 0, spare := 159, drill := true, since := 0 }] } };
      s.ras.replays.find? (·.spare == 159) = some { l := 0, old := 0, spare := 159, drill := true, since := 0 } ∧ (getCon s 159).pwr = .awake) ∧
    (let s : State := { on with ras := { readmits := [(0, true)] } }; s.ras.readmits.find? (·.1 == 0) = some (0, true)) ∧
    (getCon on 0).logical = some 0 ∧ on.fab.degraded = false ∧
    (let s := modLink (on.modFab fun f => { f with degraded := true }) 16 fun l => { l with state := 3 }; s.fab.degraded = true ∧ s.fab.silent = false ∧ portIsUp s 16 = true) ∧
    portIsUp on 16 = false ∧ on.ras.fatal = false ∧ on.ras.tripped = false ∧ sequenced on = true ∧
    (let s : State := { on with ras := { fatal := true }, boot := { on.boot with straps := 64 } }; s.ras.tripped = false ∧ s.ras.fatal = true ∧ sequenced s = false ∧ s.boot.nfState ≠ 1) ∧
    (let s : State := { on with boot := { on.boot with nfState := 1 } }; s.ras.tripped = false ∧ s.ras.fatal = false ∧ s.boot.nfState = 1) ∧
    (let s := modCon on 159 fun c => { c with pwr := .sleep }; s.shaped = true ∧ (getCon s 159).role = .spare ∧ (getCon s 159).testing = false ∧ (getCon s 159).init = false ∧ (getCon s 159).pwr ≠ .deep) ∧
    (getCon on 0).contract = 0 ∧ (getCon on 0).service = .lit ∧ 1 < odGet on 0x4000 5 ∧ odGet (odSet on 0x4000 5 1) 0x4000 5 ≤ 1 := by decide +kernel
/-- A public key. -/
def keyOne : List Byte := leBytes 97 0x4f62839c95e17cabf4b1d9c2b71d7301ccd87d785d24a2251cf7eff7bbc12609837e768659206caba27ecda4811ac91fd24cd5bb3876028d73e30cd74be2083286510d15abf933b010619e6646b23205373a0403594e4d6d758022f960c5a82c04
/-- An image that passes every check, on a block without memory stacks: one recalibration window of the pair link; and the key that signed it. -/
def signedBody : List Byte := leBytes 256 0x1200000000100000100000000000000012000000000000000000000000000000120000000000000000000000000000001200000000000000000000000000000012000000000000000000000000000000120000000000000000000000000000000000000000000000000000000000000032000000000000000000000000000000000082764dba0533fcc26ed8ab9000007d00001000131485045 ++ leBytes 32 (500 * 2 ^ 32 + 0x12 * 2 ^ 64 + 16 * 2 ^ 112) ++ List.replicate 512 0
def signedImage : List Byte := signedBody ++ leBytes 96 0x79a1474787a32f3d4ea04ed5a39e2b5216694647614a831a7c74d5146c6ada2d65dbc35a41874ceed90f0eebda2a948f23155360d05c2214398e65518b714f5f6bd7cc61a4a5939abd26bb3ac0192e3c0e462440e1bbe69605aafa2bf859a8fd
def signedState : State :=
  { on with eph := { on.eph with loadState := 1, loadLen := 896 }, ctl := { on.ctl with imageKey := some keyOne }, mem := { on.mem with nears := on.mem.nears.map fun n => { n with lost := true } } }
theorem noNear : ∀ g < 768, nearOwner signedState g = none := by decide +kernel
theorem noFar : ∀ g < 2048, farOwner signedState g = none := by decide +kernel
theorem noOwner (l : Nat) : ownerOf signedState l = none := by
  rw [ownerOf, List.findIdx?_eq_none_iff]; intro p hp; rw [List.eq_of_mem_replicate (n := 32) hp]; rfl
set_option maxRecDepth 100000 in
/-- The fingerprint of a block that nobody owns. -/
theorem fingerprint_empty (s : State) (h : ∀ g < 768, nearOwner s g = none) (h2 : ∀ g < 2048, farOwner s g = none) (h3 : ∀ l, ownerOf s l = none) :
    fingerprint s = crc32c (List.replicate 150 0xFF) + crc32c (List.replicate 128 0) * 2 ^ 32 := by
  have e : ∀ p, (List.range 768).filter (fun g => nearOwner s g == some p) = [] := fun p => List.filter_eq_nil_iff.2 fun g hg => by simp [h g (List.mem_range.1 hg)]
  have e2 : ∀ p, (List.range 2048).filter (fun g => farOwner s g == some p) = [] := fun p => List.filter_eq_nil_iff.2 fun g hg => by simp [h2 g (List.mem_range.1 hg)]
  simp only [fingerprint, e, e2, h3]; rfl
set_option maxRecDepth 100000 in
theorem crcsEmpty : crc32c (List.replicate 150 0xFF) + crc32c (List.replicate 128 0) * 2 ^ 32 = 587549170845564876 := by decide +kernel
theorem signedFprint : fingerprint signedState = 587549170845564876 := (fingerprint_empty _ noNear noFar noOwner).trans crcsEmpty
set_option maxRecDepth 100000 in
/-- Ephemerides: the signed image, whose fetch gave all its bytes. -/
theorem witness_EphemerisLoads : signedState.eph.loadState = 1 ∧
    loadCheck (loadCtx signedState) signedState.ctl.imageKey (true && true && signedState.eph.loadLen ≤ signedImage.length) (signedImage.take signedState.eph.loadLen) = (0, 0) := by
  rw [loadCtx, signedFprint]; decide +kernel
/-- RoleCommands: responses to the challenge 5 for the installer's role, one signed with the key and one not, and for the maker's role. -/
def signedRole : List Byte := leBytes 97 0x7fcae2941d3fdb4dc8b50e208a6827e241f86e2f87b95fd6d52435b97b1505242a451614f45e984625750f89d0175a76a0e86210b8b6e30da3736c701a0f131d5f7d81bb73fcd72f17ad400f323ffdf0eb56fd2a6bd4ff3a68512ee6de5d4ce01
def challenged : State := { on with ctl := { on.ctl with key := some keyOne, pfRole := { nonce := some (5, 0, 0) } } }
theorem witness_RoleResponses : (masterRole challenged .pf).lockout = false ∧ (masterRole challenged .pf).nonce = some (5, 0, 0) ∧ challenged.mer.osc - 0 ≤ 60000000000 ∧
    challenged.ctl.key = some keyOne ∧ (∀ d ∈ [signedRole, leBytes 97 1, leBytes 97 2], odTakes challenged pf 0x2000 3 d ∧ d.length = 97) ∧ leAt signedRole 0 1 = 1 ∧
    leAt (leBytes 97 1) 0 1 = 1 ∧ leAt (leBytes 97 2) 0 1 = 2 ∧ sigOk keyOne (sha384 (responseText challenged pf 5 1)) (signedRole.drop 1) = true ∧
    sigOk keyOne (sha384 (responseText challenged pf 5 1)) ((leBytes 97 1).drop 1) = false := by decide +kernel
set_option maxRecDepth 100000 in
/-- FIPS 180-4, the digest of abc. -/
theorem test_sha384 : sha384 [97, 98, 99] = 0xCB00753F45A35E8BB5A03D699AC65007272C32AB0EDED1631A8B605A43FF5BED8086072BA1E7CC2358BAECA134C825A7 := by decide +kernel
set_option maxRecDepth 100000 in
/-- FIPS 197, C.3. -/
theorem test_aes : aesBlock (aesKeys ((List.range 32).map (BitVec.ofNat 8))) ((List.range 16).map fun i => BitVec.ofNat 8 (17 * i)) = leBytes 16 0x8960494B9049FCEABF456751CAB7A28E := by
  decide +kernel
theorem witness_MoveRefusals : (∀ v ∈ [2, 3, 4, 5, 6, 7, 9], ringOpen (serving []) .pf (subRing .pf 2) = true ∧ mvVerb (mvDesc v).toNat = v ∧
    mvStatus (ringTake (serving []) (subRing .pf 2)) .pf (mvDesc v).toNat ≠ 0) ∧ ringOpen on .pf (subRing .pf 2) = false := by decide +kernel
/-- MovesHere: the requests of every verb, with and without pages. -/
theorem witness_MovesHere :
    (∀ c ∈ [(2, RState.decode), (3, .parked), (4, .parked), (5, .parked), (6, .parked), (7, .decode)], moveActs .pf (mvDesc c.1) c.1 (serving [reqOne c.2]) (reqOne c.2)) ∧
    (let s := (serving [reqOne .decode]).modWork fun w => { w with tasks := [{ taskOne with request := some (2 ^ 18) }] }; reqBusy s (2 ^ 18) = true ∧ findMove s s.serve.nextMove = none ∧
      moveActs .pf (mvDesc 2) 2 s (reqOne .decode)) ∧
    reqBusy (serving [reqOne .decode]) (2 ^ 18) = false ∧ myDev (serving []) = 0 ∧
    (let s := (serving [withPage (reqOne .parked)]).modServe fun w => { w with pages := [pageOne .sealed] }
     moveActs .pf (mvDesc 3) 3 s (withPage (reqOne .parked)) ∧ pageOne .sealed ∈ pagesOf s (withPage (reqOne .parked)) ∧ inRange 0 0 (pageOne .sealed) = true) ∧
    (ownFar (serving [reqOne .parked]) 0 ≠ [] ∧ findMove (serving [reqOne .parked]) (serving [reqOne .parked]).serve.nextMove = none ∧ pagesOf (serving [reqOne .parked]) (reqOne .parked) = []) ∧
    (newSlot (ringTake (serving [reqOne .parked]) (subRing .pf 2)) 0).isSome = true ∧
    (allocOwn (ringTake (serving [reqOne .parked]) (subRing .pf 2)) 0 ((reqOne .parked).layers * ((reqOne .parked).maxTokens / (reqOne .parked).pageLen) * 4)).isSome = true ∧
    (let r := { reqOne .parked with holding := true, remoteRefs := 1 }; moveActs .pf (mvDesc 6) 6 (serving [r]) r) ∧
    readPlan (ringTake (serving [reqOne .decode]) (subRing .pf 2)) 0 0 0 = some [] ∧
    ((serving [reqOne .parked]).serve.pages.filter (·.ptn == 0)).length ≤ pageRecords (serving [reqOne .parked]) 0 := by
  refine ⟨by decide +kernel, by decide +kernel, by decide +kernel, by decide +kernel, by decide +kernel, by decide +kernel, ?_, by decide +kernel, by decide +kernel, by decide +kernel, by decide +kernel⟩
  unfold newSlot; rw [if_neg (by decide +kernel)]; rfl
theorem witness_TierMovers :
    (let e := entryOf 0x18 0; let s := (running 4 [{ e with capA := 0 }]); entryNow s 4 0 = some { e with capA := 0 } ∧ isolated s 0 = false ∧ runsEmpty s 0 = false ∧ s.serve.moves = [] ∧ s.serve.evicting.contains 0 = false ∧
      (∀ k ∈ [1, 2, 3], entryNow (running 4 [{ entryOf 0x18 k with capA := 0 }]) 4 0 = some { entryOf 0x18 k with capA := 0 }) ∧
      runsEmpty (s.modEph fun x => { x with empty := [(0, [0])] }) 0 = true) ∧
    entryNow (running 4 [entryOf 0x19 0]) 4 0 = some (entryOf 0x19 0) ∧
    (let s := (serving [withPage (reqOne .decode)]).modServe fun w => { w with
        pages := [{ pageOne .open with stage := some (0, 0), dirty := [0] }], xfers := [{ id := 1, ptn := 0, kind := 0, tiles := 1, what := .writeBack 0 0 [0] [], running := true }] };
      (findXfer s 1).any (fun x => !xferWaits s x && x.what == .writeBack 0 0 [0] []) = true ∧ s.serve.moves = [] ∧ (findPage s 0 0).any (fun g => g.stage == some (0, 0)) = true) ∧
    (let g := { pageOne .sealed with nearValid := true, nearAddr := 12 * 2 ^ 18 }
     let s := odSet ((serving []).modServe fun w => { w with pages := [g] }) 0x9180 3 1001;
     odGet s 0x9100 4 ≠ 1 ∧ ownFar s 0 ≠ [] ∧ g ∈ s.serve.pages ∧ candidate g = true ∧ s.serve.xfers = [] ∧ nearFree s 0 < odGet s 0x9180 3) ∧
    odGet (odSet on 0x9100 4 1) 0x9100 4 = 1 ∧ isolated (ptnIn .fenced on) 0 = true ∧
    (let s := on.modServe fun w => { w with xfers := [{ id := 1, ptn := 0, kind := 1, tiles := 1, what := .message 1 0x10 msgOne, running := true }] };
      (findXfer s 1).any (fun x => x.running && x.what == .message 1 0x10 msgOne && xferWaits s { x with running := false }) = true ∧ isolated s 0 = false) ∧
    (let s := (serving []).modServe fun w => { w with ageCount := [(0, 10 ^ 6)] }; isolated s 0 = false ∧ odGet s 0x9180 1 ≤ cnt s.serve.ageCount 0) ∧ cnt (serving []).serve.ageCount 0 < odGet (serving []) 0x9180 1 := by decide +kernel
/-- Installs: messages that are let in, for a request that is held and for one that is new. -/
theorem witness_Installs :
    msgOk (serving []) 1 msgOne true = true ∧ (findReq (serving [reqOne .parked]) (2 ^ 18)).isSome = true ∧ heldInstall (reqOne .parked) = none ∧ findReq (serving []) (2 ^ 18) = none ∧
    (let s := (serving []).modServe fun w => { w with receptions := [{ ptn := 0, dev := 1, handle := 7, epoch := 0, last := 0 }] }; msgOk s 1 msgOne true = true ∧ (findReception s 0 1 7 0).isSome = true) ∧
    (let s := serving [installed (reqOne .parked)]; msgOk s 1 msgOne true = true ∧ findReq s (2 ^ 18) = some (installed (reqOne .parked)) ∧ (installed (reqOne .parked)).mverb = 1 ∧ (installed (reqOne .parked)).doubt = false ∧
      (heldInstall (installed (reqOne .parked))).isSome = true ∧ isolated s 0 = false) ∧
    (let m : StateMsg := { msgOne with body := [.rsr (rsrBytes on (reqOne .parked)), .map [], .plan []] }
     msgOk (serving []) 1 m true = true ∧ (modelOf (serving []) (parseRsr (rsrBytes on (reqOne .parked))).model).any (fun d => d.layers == 1 && !d.latent) = true ∧
       (parseRsr (rsrBytes on (reqOne .parked))).layers = 1 ∧ (parseRsr (rsrBytes on (reqOne .parked))).latent = false ∧ (parseRsr (rsrBytes on (reqOne .parked))).dim = 64 ∧
       (parseRsr (rsrBytes on (reqOne .parked))).groups = 1 ∧ (parseRsr (rsrBytes on (reqOne .parked))).posDim = 0 ∧ m.body.length = 3 ∧
       planOk (serving []) [] 0 = true ∧ findReception (serving []) 0 1 7 0 = none ∧ (serving []).serve.reqs = []) ∧
    (newSlot (serving []) 0).isSome = true ∧ (takeStructures (serving []) 0 16 16).isSome = true ∧
    (let s := serving [{ installed (reqOne .parked) with doubt := true }]; msgOk s 1 msgOne true = true ∧ (findReq s (2 ^ 18)).any (·.doubt) = true) ∧
    (let m := { msgOne with body := [.page [] [] []] }; msgOk (serving []) 1 m true = true ∧ (pagesApart m).length = 1) := by
  refine ⟨by decide +kernel, by decide +kernel, by decide +kernel, by decide +kernel, by decide +kernel, by decide +kernel, by decide +kernel, ?_, by decide +kernel, by decide +kernel, by decide +kernel⟩
  unfold newSlot; rw [if_neg (by decide +kernel)]; rfl
/-- Installs: a partition whose receptions are full. -/
theorem witness_InstallsFull : 4096 ≤ (List.filter (fun (r : Reception) => r.ptn == 0) (List.replicate 4096 { ptn := 0, dev := 2, handle := 7, epoch := 0, last := 0 })).length := by
  rw [List.filter_replicate_of_pos (by decide), List.length_replicate]
theorem witness_MoveTimers :
    (∀ n ∈ [1, 3, 4], let m : Move := { id := 1, ptn := 0, handle := 2 ^ 18, verb := 3, sends := n, dest := 1 }
      let s := (serving [reqOne .parked]).modServe fun w => { w with moves := [m] };
      (s.serve.moves.find? fun m => m.handle == 2 ^ 18 && m.verb ≤ 3 && m.sends != 0) = some m ∧ findMove s 1 = some m ∧ findReq s (2 ^ 18) = some (reqOne .parked)) ∧
    (let m : Move := { id := 1, ptn := 0, handle := 2 ^ 18, verb := 3, busyAt := some 0, todo := [0] };
      ([m].find? fun m => m.handle == 2 ^ 18 && m.busyAt.isSome) = some m) ∧
    (let c : CommitRec := { dev := 1, handle := 7, old := 8, ptn := 0, destPtn := 0, epoch := 0, at_ := 0 }; ([c].find? fun c => c.dev == 1 && c.handle == 7) = some c) ∧
    (∀ p ∈ [false, true], let c : CommitRec := { dev := 1, handle := 2 ^ 18, old := 7, ptn := 0, destPtn := 0, epoch := 0, at_ := 0, past := p, release := [{ first := 0, log2 := 0, holder := 2, handle := 9 }] }
      let m := { msgOne with args := 4 }; msgOk ((serving []).modServe fun w => { w with commits := [c] }) 1 m false = true ∧ m.args % 256 = 4 ∧ c.release ≠ [] ∧
      ([c].find? fun c => c.dev == 1 && c.handle == m.dstHandle && c.old == m.srcHandle) = some c) ∧
    (∀ a ∈ [6, 7], let m := { msgOne with args := a, dstHandle := 3 }
      let s := (serving []).modServe fun w => { w with refs := [{ handle := 3, release := a == 7, dev := 1, target := 7, sentAt := 0 }] };
      msgOk s 1 m true = true ∧ m.args % 256 = a ∧ findReq s 3 = none ∧
      (s.serve.refs.findIdx? fun f => f.handle == m.dstHandle && f.dev == 1 && f.target == m.srcHandle && f.release == (m.args % 256 == 7)) = some 0) ∧
    (msgOk (serving []) 1 { msgOne with args := 2 } true = true) ∧ bits 3 27 5 = 0 ∧ isolated (serving []) 0 = false := by decide +kernel
theorem witness_HeldRequestsFull : 4096 ≤ (List.filter (fun (q : HolderQuery) => q.ptn == 0 && !q.groups.isEmpty) (List.replicate 4096
    { ptn := 0, handle := 2 ^ 18, dev := 2, srcPtn := 0, srcHandle := 7, qid := 0, epoch := 0, layer := 0, groups := [(0, 0)], bf16 := false, body := [] })).length := by
  rw [List.filter_replicate_of_pos (by decide), List.length_replicate]
theorem witness_HeldRequests :
    (∀ n ∈ [0, 1], let r := { reqOne .parked with remoteRefs := n }; holderOf (serving [r]) msgOne = (0, some r) ∧ msgOk (serving [r]) 1 msgOne true = true) ∧
    (let r := withPage (reqOne .parked); let s := (serving [r]).modServe fun w => { w with pages := [pageOne .sealed] }
     let m : StateMsg := { msgOne with body := [.raw (planBytes [{ first := 0, log2 := 0, holder := 0, handle := 2 ^ 18 }])] }
     msgOk s 1 m true = true ∧ holderOf s m = (0, some r) ∧ findMove s s.serve.nextMove = none ∧
       (∃ g ∈ pagesOf s r, g.state = .sealed ∧ planned (bodyGroups m (match m.body.head? with | some (.raw b) => b.length / 16 | _ => 0)) g.position = true)) ∧
    (let m := { msgOne with args := 2 ^ 8 + 32 * 2 ^ 24 + 2 ^ 112, body := [.raw (leBytes 16 (2 ^ 50))] }; queryOk (serving [reqOne .parked]) m (reqOne .parked).layers = true ∧ holderOf (serving [reqOne .parked]) m = (0, some (reqOne .parked))) ∧
    holderOf (serving []) msgOne = (stEPOCH, none) ∧ holderOf (serving [reqOne .decode]) msgOne = (stACCESS, none) ∧ msgOk on 1 msgOne true = false ∧
    (let r := { withPage (reqOne .parked) with remoteRefs := 1, refSets := [(1, 7, [0])] }; let s := (serving [r]).modServe fun w => { w with pages := [{ pageOne .sealed with refcnt := 2 }] }
     msgOk s 1 msgOne true = true ∧ holderOf s msgOne = (0, some r) ∧ r.dropPending = false ∧ refOf r 1 7 = [(1, 7, [0])] ∧ findPage s 0 0 = some { pageOne .sealed with refcnt := 2 }) ∧
    queryOk (serving [reqOne .parked]) msgOne (reqOne .parked).layers = false ∧ holderOf (serving [reqOne .parked]) msgOne = (0, some (reqOne .parked)) := by decide +kernel
theorem witness_AttentionAndLoss :
    (let m : StateMsg := { msgOne with body := [.raw (List.replicate 16 0)] }; msgOk (serving []) 1 m true = true ∧ m.status = stOK ∧ m.body.head? = some (.raw (List.replicate 16 0))) ∧
    msgOk (serving []) 1 { msgOne with status := stBUSY } true = true ∧
    (∀ n ∈ [1, 3, 4], let q : Query := { handle := 2 ^ 18, epoch := 0, qid := 0, layer := 0, group := { first := 0, log2 := 0, holder := 1, handle := 7 }, sentAt := 0, sends := n };
      ([q].find? fun q => q.handle == 2 ^ 18 && q.qid == 0 && q.group.first == 0 && q.group.log2 == 0 && q.partial_.isNone) = some q) ∧
    (findReq (serving [reqOne .decode]) (2 ^ 18)).isSome = true ∧
    ((serving []).shaped = true ∧ ((serving []).mem.chans.getD 0 {}).far.isSome = true ∧ ((serving []).mem.chans.getD 0 {}).state ≠ 4 ∧ ((serving []).mem.chans.getD 15 {}).far = none) ∧
    (let g := { pageOne .sealed with farValid := true }
     let s := ((serving []).modMem fun m => { m with chans := modAt m.chans 0 fun c => { c with state := 4 } }).modServe fun w => { w with pages := [g] }
     (s.mem.chans.getD 0 {}).state = 4 ∧ findPage s 0 0 = some g ∧ farOn s g 0 = true ∧ g.nearValid = false) ∧
    stackLost on 11 = false ∧ stackLost (on.modMem fun m => { m with nears := modAt m.nears 11 fun k => { k with lost := true } }) 11 = true ∧
    (let q : Query := { handle := 2 ^ 18, epoch := 0, qid := 0, layer := 0, group := { first := 0, log2 := 0, holder := 1, handle := 7 }, sentAt := 0, sends := 1 }
     let r := { reqOne .decode with partialBuf := 12 * 2 ^ 30 }; let s := (serving [r]).modServe fun w => { w with queries := [q] }
     findReq s (2 ^ 18) = some r ∧ modelOf s r.model = some modelOne ∧ leAt (List.replicate 16 0) 4 4 = 0 ∧ leAt (List.replicate 16 0) 2 1 % 32 = 0 ∧
       (s.serve.queries.find? fun q => q.handle == 2 ^ 18 && q.qid == 0 && q.epoch == 0 && q.group.holder == 1 && q.partial_.isNone && q.group.first == 0 && q.group.log2 == 0) = some q ∧
       (s.serve.queries.find? fun q => q.handle == 2 ^ 18 && q.qid == 0 && q.epoch == 0 && q.group.holder == 1 && q.partial_.isNone && q.group.handle == 7) = some q ∧
       ∀ st ∈ [stEPOCH, stACCESS, stFORMAT], msgOk s 1 { msgOne with status := st } true = true) ∧
    (∀ st ∈ [stBUSY, stPOISON], st ≠ stOK ∧ cleanStatus st ≠ stEPOCH ∧ cleanStatus st ≠ stACCESS ∧ cleanStatus st ≠ stFORMAT) := by decide +kernel
theorem witness_InstructionIssue :
    ready (atWord 0x01 held) 1 0x10 = none ∧ (ready (atWord 0x01 held) 1 0x52 = none ∧ findInst (atWord 0x01 held) 1 = some instOne ∧ instOne.stop = none) ∧
    (let w := 0x10 + 2 ^ 8 * 0xE; ready (atWord w held) 1 0x10 = some (instOne, taskReq, parseIns w) ∧ commonOk instOne (parseIns w) = false) ∧
    (let w := 0x01 + 2 ^ 16 * 0xF; ready (atWord w held) 1 0x01 = some (instOne, taskReq, parseIns w) ∧ commonOk instOne (parseIns w) = false ∧ instOne.execs = 0) := by decide +kernel
/-- TensorResults: MMA and MMAQ. -/
theorem witness_TensorMatrix :
    (let w := word 0x10 0 0 0 0 1000 2000 1; let x := parseIns w
     runs w held ∧ pairOk x.fa x.fb = true ∧ matrixDst x.fd = true ∧ kOk x (kOf x (x.spec 103 7)) = true ∧ matSplit x = true ∧
       productOk w (reqWidth (atWord w held) 1) held = true) ∧
    (let w := word 0x11 1 0xB 1 0 1000 2000 2; let x := parseIns w
     runs w held ∧ kvqPair x.fa x.fb = true ∧ matrixDst x.fd = true ∧ kOf x (x.spec 103 7) = 32 ∧ kOk x 32 = true ∧ matSplit x = true ∧
       kvqBits (x.spec 110 3) = 3 ∧ productOk w (x.spec 110 3) held = true) := by decide +kernel
/-- TensorResults: SMAX, PV and MRG; the tile record's row state lies beyond what SMAX writes. -/
theorem witness_TensorAttention :
    (let w := word 0x21 0 0 0 0 1000 2000 0; let s := held.modWork fun w => { w with sram := [(128012, 100)] }
     let x := parseIns w; let m := atWord w s; let tr := parseTile (sramRead m 128000 64); let pr := progAt m 0 64
     runs w s ∧ x.spec 103 3 < 6 ∧ keysOk w 64 1 35 s = true ∧ tr.rowState = 100 ∧ tr.rowState + 4 ≤ 65536 ∧ x.spec 103 3 ≠ 5 ∧ smaxBad x pr tr = false ∧ (readOp m 64000 4096).isSome = true ∧
       (readOp m 6400 256).isSome = true ∧ scratchKey (instPhys m instOne) (instCluster instOne) (tr.rowState * 64) = 6400 ∧ 2240 ≤ 6400) ∧
    (∀ f ∈ [(1, 4), (0xB, 2)], (let w := word 0x22 1 f.1 0 0 1000 2000 f.2; let x := parseIns w; let m := atWord w held
     runs w held ∧ (isHalf x.fb || isKvq x.fb) = true ∧ matrixDst x.fd = true ∧ pvSteps x * kStep x.fa x.fb = 32 ∧ splitOk x [(x.fd, 1024)] = true ∧
       keysOk w 35 (pvLines m instOne x) (fmtLines x.fd 1024) held = true ∧ (readOp m 64000 2240).isSome = true ∧
       (matVals m 0 x.fb (((reqOf m instOne).map (·.widthCode)).getD 1) 128000 32 (rowBlocks (reqOf m instOne) 32) 0).toOption.isSome = true ∧ bit x.word 108 = false ∧
       (heldAcc m instOne x.fd 0).isSome = true)) ∧
    (let w := word 0x23 0 0 0 0 1000 2000 0; let m := atWord w held
     let n := (parsePartial (sramRead m 64000 64)).bytes
     runs w held ∧ extentsOk m instOne taskReq (parseIns w) (mrgOps m instOne taskReq (parseIns w)) = true ∧ keysOk w (lines n) (lines n) 1 held = true ∧ (readOp m 64000 n).isSome = true ∧
       (((readOp m 64000 n).bind fun a => (readOp m 128000 n).bind fun b => mergePartials a b).any fun r => (lines (writePartial r.1 r.2).length) == 1) = true) := by
  decide +kernel
/-- VectorResults. -/
theorem witness_VectorResults :
    (let w := word 0x30 0 0 0xB 0 1000 0 0; let x := parseIns w; let m := atWord w held
     runs w held ∧ plainFmt x.fa = true ∧ x.fd = 0xB ∧ kvqBits (x.spec 103 3) = 3 ∧ splitOk x [(x.fa, 32)] = true ∧ keysOk w 2 0 1 held = true ∧ (readVals m 0 64000 32).isSome = true) ∧
    (let w := word 0x40 0 0 0 0 1000 0 1; let x := parseIns w; let m := atWord w held
     runs w held ∧ anyFmt x.fa = true ∧ anyFmt x.fd = true ∧ x.spec 103 2 < 3 ∧ splitOk x [(x.fa, 16)] = true ∧ keysOk w 1 0 1 held = true ∧
       (readOp m 64000 (operandBytes 0 16)).isSome = true ∧ x.acc = false) ∧
    (∀ w ∈ [word 0x41 0 0 1 0 1000 0 0, word 0x42 0 0 1 0 1000 0 2, word 0x42 0 0 1 0 1000 0 1], (let x := parseIns w; let m := atWord w held
     runs w held ∧ plainFmt x.fa = true ∧ plainFmt x.fd = true ∧ splitOk x [(x.fa, 16), (x.fd, 16)] = true ∧ keysOk w 1 0 1 held = true ∧
       (readVals m 0 64000 16).isSome = true ∧ x.acc = false)) ∧
    (∀ f ∈ [0, 1, 2, 9], (parseIns (word 0x42 0 0 1 0 1000 0 f)).spec 103 4 = f) := by decide +kernel
/-- VectorResults: SAMP, STOP and MOV. -/
theorem witness_VectorResults2 :
    (let w := word 0x43 0 0 0xD 0 1000 0 0; let m := atWord w held
     runs w held ∧ keysOk w (fmtLines 0 100) 0 1 held = true ∧ (parseIns w).fd = 0xD ∧ (reqOf m instOne).isSome = true ∧ ((modelOf m 0).map (·.vocab)).getD 0 = 100 ∧ taskReq.hostSamples = false ∧
       (readOp m 64000 400).isSome = true ∧ (sample (List.replicate 100 0) 0 0 0 0 0).isSome = true ∧ sample (List.replicate 100 negInf) 0 0 0 0 0 = none) ∧
    (∀ k ∈ [none, some 5], (let w := word 0x44 0 0 0 0 0 0 0; let i := { instOne with token := k }; let s := at_ (leBytes 16 w) i held
     runsOnce s 1 0x44 i taskReq (parseIns w) ∧ (reqOf s i).isSome = true ∧ (parseIns w).fd ≠ 0xD)) ∧
    (∀ k ∈ [none, some 5], (let w := word 0x44 0 0 0xD 0 0 0 0; let i := { instOne with token := k }; let s := at_ (leBytes 16 w) i held
     runsOnce s 1 0x44 i taskReq (parseIns w) ∧ (reqOf s i).isSome = true ∧ (parseIns w).fd = 0xD ∧ keysOn s i w 0 0 1 = true)) ∧
    (let w := word 0x50 0 0 0 0 1000 0 0; runs w held ∧ keysOk w 16 0 16 held = true) := by decide +kernel
/-- VectorResults: sums of ACC in MOV, SAMP and STOP. -/
theorem witness_VectorAcc :
    (∀ fd ∈ [0, 1, 3, 5, 0xB, 0xD], (let w := word 0x50 0 0 fd 0 1000 0 0 + 2 ^ 20; let x := parseIns w
     runs w held ∧ x.acc = true ∧ keysOk w 1 0 1 held = true ∧ ((movOut (atWord w held) x 64000 0 1).map (·.1.length)) = some 64)) := by decide +kernel
theorem witness_VectorAcc2 :
    (∀ a ∈ [0, 2 ^ 20], (let x := parseIns (word 0x43 0 0 0xD 0 1000 0 0 + a); let y := parseIns (word 0x44 0 0 0xD 0 0 0 0 + a)
     x.acc = y.acc ∧ x.acc = (a != 0) ∧ (tokenOut held x 0 5 0).isSome = true ∧ (readOp held 0 8).isSome = true ∧ (tokenOut held y 0 5 0).isSome = true)) := by decide +kernel
/-- VectorResults: MOV into a staged page that has a mirror: the staging area's line 64 in window 4. -/
def mirrored : State := held.modServe fun w => { w with pages := [{ pageOne .open with stage := some (0, 1), mirror := some (1, 2) }] }
theorem witness_VectorResults3 : let w := word 0x50 0 0 0 (2 ^ 18 + 64) 1000 0 0; let s := atWord w mirrored
    runsOnce s 1 0x50 instOne taskReq (parseIns w) ∧ opKey s instOne taskReq (parseIns w) 1 1 0 = some 64000 ∧
      opKey s instOne taskReq (parseIns w) 0 1 0 = some (2 ^ 34 + 4096) ∧ s.serve.pages.length = 1 ∧ stageKey s 0 1 = 2 ^ 34 + 4096 ∧ 1 ≤ openBlocks (pageOne .open).geo := by decide +kernel
/-- VectorResults: ENC of K, then of V, with no table in force. -/
theorem witness_VectorEnc : ∀ e ∈ [(0, 0), (1, 0), (1, 417)],
    let w := word 0x31 0xB 0 0xC 0 1000 0 0xFFF; let i := { instOne with encs := e.1, packed := List.replicate e.2 0 }
    let x := parseIns w; let s := at_ (leBytes 16 w) i held; let r := reqOne .decode; let n := kvqBits r.geo.width
    let total := r.geo.p * (if e.1 = 0 then r.geo.d0 else r.geo.d1) / 32
    runsOnce s 1 0x31 i taskReq x ∧ reqOf s i = some r ∧ r.geo.latent = false ∧ (encTable s taskReq 0 taskReq.layer (compNum false e.1) r.geo.width (x.spec 103 12)) = some none ∧
      keysOn s i w (slotLines n total) 0 65536 = true ∧ (readOp s 64000 (total * slotBlockBytes n)).isSome = true ∧
      (let comp := encComponent n none ((List.range total).map fun b => readSlot n ((sramRead s 64000 (total * slotBlockBytes n))) (b * slotBlockBytes n))
       e.1 = 1 → escapeOnly r.geo i.packed comp (codedPage r.geo i.packed comp) = (e.2 == 417)) := by decide +kernel
/-- TensorResults: ROPE with a table of 16 dimensions, all of them rotated; the table stands at its place in the program section. -/
def ropeBytes : List Byte := leBytes 2 16 ++ leBytes 2 16 ++ List.replicate 1020 0
def ropeWord : Nat := word 0x20 0 0 1 0 1000 2000 0
def ropeState : State := at_ ((leBytes 16 ropeWord ++ List.replicate 0x3FFF0 0) ++ ropeBytes) instOne held
theorem ropeBytes_at : ropeTab ropeState (parseIns ropeWord) = ropeBytes := by
  have h : (leBytes 16 ropeWord ++ List.replicate 0x3FFF0 0).length = 0x40000 + 1024 * (parseIns ropeWord).spec 103 11 := by
    rw [List.length_append, List.length_replicate]; decide +kernel
  unfold ropeTab; rw [← h]; unfold progAt bytesAt
  show padTo 1024 (List.take 1024 (List.drop _ ((leBytes 16 ropeWord ++ List.replicate 0x3FFF0 0) ++ ropeBytes))) = ropeBytes
  rw [List.drop_left]; decide +kernel
theorem witness_TensorRope : (let s := ropeState; let x := parseIns ropeWord
    runsOnce s 1 0x20 instOne taskReq x ∧ x.fa ≤ 0xC ∧ x.fd = 1 ∧ ropeBad ropeBytes = false ∧ splitOk x [(x.fa, ropeElems ropeBytes)] = true ∧ isKvq x.fa = false ∧
      keysOn s instOne ropeWord (fmtLines 0 (ropeElems ropeBytes)) 1 (fmtLines 1 (32 * ropeOut ropeBytes)) = true ∧
      (readVals s 0 64000 (ropeElems ropeBytes)).isSome = true ∧ (readOp s 128000 64).isSome = true ∧ x.acc = false) := by decide +kernel
/-- SequencerControl: SYNC 7 of one of two instances; WAIT and YIELD. -/
theorem witness_SequencerControl :
    (let w := word 0x51 0 0 0 0 0 0 7; let two (y : List Nat) : State := (atWord w held).modWork fun k => { k with insts := k.insts ++ [{ instOne with id := 2, syncs := y, sync := y.head? }] };
     (runsOnce (two []) 1 0x51 instOne taskReq (parseIns w) ∧ ((two []).work.insts.map (·.id)) = [1, 2] ∧
       (two []).work.insts.any (fun j => j.task == instOne.task && j.id != 1 && decide (j.syncs.count ((parseIns w).spec 103 8) < instOne.syncs.count ((parseIns w).spec 103 8) + 1)) = true) ∧
     (runsOnce (two [7]) 1 0x51 instOne taskReq (parseIns w) ∧ taskReq.syncs = [] ∧
       (two [7]).work.insts.all (fun j => j.task == instOne.task && (j.id == 1 || (j.sync == some ((parseIns w).spec 103 8) && j.syncs.count ((parseIns w).spec 103 8) == instOne.syncs.count ((parseIns w).spec 103 8) + 1))) = true)) ∧
    (∀ n ∈ [0, 32], runs (word 0x52 0 0 0 0 0 0 n) held ∧ (parseIns (word 0x52 0 0 0 0 0 0 n)).spec 103 6 = n) ∧ runs (word 0x53 0 0 0 0 0 0 0) held := by decide +kernel
/-- SequencerControl: END and YIELD of an instance that goes on and of one asked to stop, with stores outstanding and without; a reserved opcode; a known
one; and an instance before and after it has started. -/
theorem witness_SequencerControl2 :
    (∀ o ∈ [0x53, 0x5F], ∀ l ∈ [false, true], ∀ p ∈ [none, some stRETRIED, some stCANCELLED],
      (let i := { instOne with tiles := [{ id := 1, load := l, tier := 0, addr := 0, sram := 0 }], stop := p }; let s := at_ (leBytes 16 o) i held;
      ready s 1 o = some (i, taskReq, parseIns o) ∧ commonOk i (parseIns o) = true)) ∧
    (let s := atWord 0x99 held; findInst s 1 = some instOne ∧ (insAt s instOne).opc = 0x99 ∧ (ready s 1 0x99).isSome = true ∧ knownOpcode 0x99 = false) ∧
    (let s := atWord 0x53 held; findInst s 1 = some instOne ∧ (insAt s instOne).opc = 0x53 ∧ knownOpcode 0x53 = true ∧ commonOk instOne (insAt s instOne) = true) ∧
    (∀ b ∈ [false, true], ∀ p ∈ [none, some stCANCELLED], (let i := { instOne with started := b, stop := p, tiles := [{ id := 1, load := false, tier := 0, addr := 0, sram := 0 }] }
      findInst (at_ [] i held) 1 = some i ∧ i.ending = false ∧ stalled i = false)) := by decide +kernel
/-- TileTransfers: the tile of address 12 GiB, argument-relative; a second execution while 32 are outstanding; and a transfer that is outstanding, of a
page that is being sealed too. -/
theorem witness_TileTransfers :
    (∀ o ∈ [(1, word 0x01 0 0 0 0 0xC0000 0 0, 1, 0), (2, word 0x02 0 0 0 0xC0000 0 0 0, 0, 1)], let i := { instOne with args := [12 * 2 ^ 30] }; let s := at_ (leBytes 16 o.2.1) i held; let x := parseIns o.2.1
     runsOnce s 1 o.1 i taskReq x ∧ i.execs = 0 ∧ clusterTiles s i = 0 ∧ x.spec 108 4 = 0 ∧ bit x.word 103 = false ∧ tierAddress s i taskReq x o.2.2.1 0 = some (12 * 2 ^ 30) ∧
       tileStatus s 0 0 (12 * 2 ^ 30) = 0 ∧ localTier s 0 (12 * 2 ^ 30) = some (12 * 2 ^ 30) ∧ (opKey s i taskReq x o.2.2.2 64 0).isSome = true) ∧
    (∀ o ∈ [1, 2], let w := o + 2 ^ 88; let i := { instOne with execs := 1, tiles := List.replicate 32 { id := 1, load := true, tier := 0, addr := 0, sram := 0 } }; let s := at_ (leBytes 16 w) i held
     ready s 1 o = some (i, taskReq, parseIns w) ∧ i.stop = none ∧ i.execs < (executions i (parseIns w)).getD 1 ∧ 32 ≤ clusterTiles s i) := by decide +kernel
theorem witness_TileTransfers2 :
    (∀ l ∈ [false, true], let k : Tile := { id := 1, load := l, tier := 0, addr := 12 * 2 ^ 30, sram := 0 }; let i := { instOne with tiles := [k] }; let s := at_ [] i held
      findInst s 1 = some i ∧ i.tiles.find? (fun y => y.id == 1 && y.load == l) = some k ∧ taskOf s i = some taskReq ∧ localTier s 0 k.addr = some k.addr ∧ k.decode = false ∧
      i.ending = false ∧ s.serve.pages = [] ∧ taskReq.sealing = [] ∧ (passTiles s 0 (uidCon i.uid) (12 * 2 ^ 18) 1 l 1).isSome = true ∧ taskReq.page = none) ∧
    (let k : Tile := { id := 1, load := false, tier := 0, addr := 12 * 2 ^ 30, sram := 0 }; let i := { instOne with tiles := [k] }; let t := { taskReq with page := some (0, 12 * 2 ^ 18) }
     let g := { pageOne .sealing with slotTiles := 2 }; let s := { at_ [] i held with work := { tasks := [t], insts := [i] }, serve := { held.serve with pages := [g] } }
      findInst s 1 = some i ∧ taskOf s i = some t ∧ localTier s 0 k.addr = some k.addr ∧ (passTiles s 0 (uidCon i.uid) (12 * 2 ^ 18) 1 false 1).isSome = true ∧ findPage s 0 0 = some g ∧
      (insAsc (12 * 2 ^ 18) g.sealDone).length < g.slotTiles) ∧
    findInst on 1 = none := by decide +kernel
/-- TaskDescriptors: a descriptor that a check refuses and one that none does, of every kind. -/
theorem witness_TaskDescriptors :
    let d := fun (kind : Nat) => BitVec.ofNat 512 (kind + (if kind = 1 then 2 ^ 16 else 0) + mkUid (if kind = 1 then 2 else 0) 0 * 2 ^ 32 + 0xFFFFFFFF * 2 ^ 64)
    let s := serving []
    (∀ k ∈ [1, 2, 3, 4], ringHas s (subRing .pf 1) = true ∧ taskBad s .pf (d k).toNat = none ∧ s.work.tasks = [] ∧ bits (d k).toNat 64 32 = 0xFFFFFFFF ∧
      bits (d k).toNat 224 32 = 0 ∧ fld (d k) 0 8 = k ∧ (taskBad s .pf ((d k).toNat + 2 ^ 120)).isSome = true) ∧
    ringHas on (subRing .pf 1) = false := by decide +kernel
/-- TaskDescriptors: a descriptor that was refused in this tick, of the tag that a CANCEL names. -/
theorem witness_TaskDescriptors2 :
    let x := 3 + 0xFFFFFFFF * 2 ^ 64; let c : Completion := completionOf on taskOne stFORMAT 0; let b : BadTask := { at_ := 0, ring := 0, rec_ := c, task := taskOne }
    let s := (serving []).modWork fun w => { w with badNow := [b] }
    ringHas s (subRing .pf 1) = true ∧ taskBad s .pf x = none ∧ s.work.tasks = [] ∧ bits x 288 1 = 0 ∧ s.work.badNow.all (fun e => e.at_ == s.mer.osc && e.task.kind == 1 && e.task.ptn == bits x 27 5 && e.task.tag == bits x 256 32 && e.task.src == .pf) = true := by decide +kernel
/-- Request descriptors: op at 0, handle at 0x38, more bytes as (offset, value). -/
def desc (op h : Nat) (xs : List (Nat × Nat)) : List Byte :=
  (List.range 128).map fun i => if i = 0 then BitVec.ofNat 8 op else if 0x38 ≤ i ∧ i < 0x3C then BitVec.ofNat 8 (h / 2 ^ (8 * (i - 0x38)))
    else BitVec.ofNat 8 ((xs.find? (·.1 == i)).map (·.2) |>.getD 0)
def submitDesc : List Byte := desc 1 0 [(0x1C, 1), (0x28, 1), (0x2C, 128), (0x30, 255), (0x31, 255), (0x32, 255), (0x33, 255)]
theorem witness_RequestsSubmit :
    let s := serving []; let s1 := ringTake s (subRing .pf 0)
    ringOpen s .pf (subRing .pf 0) = true ∧ [2, 3, 4, 5].contains (rdOp submitDesc) = false ∧ wrongPtn .pf (rdPtn submitDesc) = false ∧ submitStatus s1 submitDesc = 0 ∧
      modelOf s1 (leAt submitDesc 0x18 2) = some modelOne ∧ (newSlot s1 (rdPtn submitDesc)).isSome = true ∧
      (takeStructures s1 (rdPtn submitDesc) (1 * (leAt submitDesc 0x2C 4 / pageTokens (leAt submitDesc 0x1A 1 % 4)) * 4) (4 * rdInputLen submitDesc)).isSome = true := by
  refine ⟨by decide +kernel, by decide +kernel, by decide +kernel, by decide +kernel, by decide +kernel, ?_, by decide +kernel⟩
  unfold newSlot; rw [if_neg (by decide +kernel)]; rfl
theorem witness_RequestsAccepted :
    (let d := desc 2 (2 ^ 18) [(0x1C, 1), (0x28, 1)]; let s := serving [reqOne .parked]; let s1 := ringTake s (subRing .pf 0)
     ringOpen s .pf (subRing .pf 0) = true ∧ wrongPtn .pf (rdPtn d) = false ∧ rdOp d = 2 ∧ rdHandle d = 2 ^ 18 ∧ continueStatus s1 d = 0 ∧ findReq s (rdHandle d) = some (reqOne .parked) ∧
       (allocOwn s1 0 (4 * rdInputLen d)).isSome = true) ∧
    (∀ r ∈ [reqOne .parked, { reqOne .parked with keepOnCancel := true }, { reqOne .parked with holding := true, remoteRefs := 1 }], let s := serving [r]; let d := desc 3 (2 ^ 18) []
     rdOp d = 3 ∧ wrongPtn .pf (rdPtn d) = false ∧ opStatus (ringTake s (subRing .pf 0)) d true = 0 ∧ findReq s (rdHandle d) = some r ∧ s.work.tasks = []) ∧
    (let s := serving [reqOne .parked]; ∀ o ∈ [(4, false)], rdOp (desc o.1 (2 ^ 18) []) = o.1 ∧ opStatus (ringTake s (subRing .pf 0)) (desc o.1 (2 ^ 18) []) o.2 = 0) ∧
    (let d := desc 5 (2 ^ 18) [(0x1C, 7)]; let r := { reqOne .decode with await := true, maxNew := 9 }; let s := serving [r]
     rdOp d = 5 ∧ opStatus (ringTake s (subRing .pf 0)) d true = 0 ∧ cnt s.serve.cancels (rdHandle d) ≠ now s + 1 ∧ cancelComing (ringTake s (subRing .pf 0)) (rdHandle d) = false ∧ findReq s (rdHandle d) = some r ∧ leAt d 0x28 4 = r.nextIndex ∧
       rdInputLen d < ((modelOf s r.model).map (·.vocab)).getD 0 ∧ stopReason r (rdInputLen d) = 0 ∧ r.dest = myDev s) ∧
    (let r := { reqOne .queued with reading := true, inputLeft := 1 }; let x : Xfer := { id := 1, ptn := 0, kind := 3, tiles := 1, what := .input (2 ^ 18), running := true }
     let s := (serving [r]).modServe fun w => { w with xfers := [x] }
     findReq s (2 ^ 18) = some r ∧ s.serve.xfers = [x] ∧ windowHolds s (r.inputAddr / 4096) (cdiv (4 * r.inputLeft) 4096) = false ∧ r.hostStops = 0 ∧ leAt [] 0 4 < ((modelOf s r.model).map (·.vocab)).getD 0) ∧
    (let r := { reqOne .queued with reading := true, inputLeft := 1 }; let s := (serving [r]).modEph fun e => { e with held := [(0, 0, tileRes on 0)] }
     findReq s (2 ^ 18) = some r ∧ windowHolds s (r.inputAddr / 4096) (cdiv (4 * r.inputLeft) 4096) = true) := by decide +kernel
set_option maxRecDepth 100000 in
/-- RequestsAccepted: a STATUS of a request whose record is in the cache, of one whose record in memory is whole, and of one whose record is not. -/
theorem witness_RequestsStatus :
    let r := reqOne .parked; let s := serving [r]; let s1 := s.modServe fun w => { w with rsrCache := [(0, 0)] }
    let s2 := tierWrite s (rsrAddr s r) (List.replicate 252 0 ++ leBytes 4 1743147809)
    s1.serve.rsrCache.contains (r.ptn, r.slot) = true ∧ dmaHeld s1 (some 0) = true ∧ dmaHeld (s1.modEph fun e => { e with pcie := [(0, 0, 0)] }) (some 0) = false ∧ (s2.serve.rsrCache.contains (r.ptn, r.slot) = false ∧ rsrGood s2 r = true ∧ findReq s2 (2 ^ 18) = some r) ∧
      (s.serve.rsrCache.contains (r.ptn, r.slot) = false ∧ rsrGood s r = false) := by decide +kernel
theorem witness_RequestsRefused :
    (let s := serving []; submitStatus (ringTake s (subRing .pf 0)) (desc 1 0 []) ≠ 0 ∧ continueStatus (ringTake s (subRing .pf 0)) (desc 2 1 []) ≠ 0 ∧
      (∀ o ∈ [(3, true), (4, false), (5, true)], opStatus (ringTake s (subRing .pf 0)) (desc o.1 1 []) o.2 ≠ 0)) ∧
    wrongPtn (.vf 1) (rdPtn (desc 1 0 [])) = true ∧ ringOpen on .pf (subRing .pf 0) = false := by decide +kernel
theorem witness_PagesAndTables :
    (∀ b ∈ [false, true], (let x : Xfer := { id := 1, ptn := 0, kind := 0, tiles := 1, what := .openLoad 0 0 0, running := b }
      let s := (serving []).modServe fun w => { w with xfers := [x], pages := [pageOne .open] };
      findXfer s 1 = some x ∧ xferWaits s x = !b ∧ findPage s 0 0 = some (pageOne .open) ∧ (pageOne .open).stage = none ∧ s.serve.reqs = [] ∧ (fitBlocks s 0 (openBlocks (pageOne .open).geo)).isSome = true)) ∧
    (let r := { withPage (reqOne .decode) with durable := true }; let x : Xfer := { id := 1, ptn := 0, kind := 0, tiles := 1, what := .openLoad 0 0 0, running := true }
      let s := (serving [r]).modServe fun w => { w with xfers := [x], pages := [pageOne .open] };
      findXfer s 1 = some x ∧ xferWaits s x = false ∧ s.serve.reqs = [r] ∧ r.pageNum 0 0 = some 0 ∧ (fitBlocks s 0 (openBlocks (pageOne .open).geo)).isSome = true) ∧
    (let h : Hist := { ptn := 0, model := 0, layer := 0, comp := 0, width := 0, blocks := 2 ^ 32 }; let s := on.modServe fun w => { w with hists := [h], epochCount := [(0, 15625)] }
     isolated s 0 = false ∧ epochCycles s 0 ≤ cnt s.serve.epochCount 0 ∧ cnt on.serve.epochCount 0 < epochCycles on 0 ∧ entropyHost s 0 = false ∧ (s.serve.hists.filter fun h => h.ptn == 0 && odGet s 0x9140 2 ≤ h.blocks) = [h] ∧
       (freeTab s 0 (tensorComps (h.comp == 2)).length).isSome = true) ∧
    entropyHost (odSet on 0x9100 3 1) 0 = true ∧ odGet (odSet on 0x9100 3 1) 0x9100 3 = 1 ∧ odGet on 0x9100 3 ≠ 1 ∧ isolated (ptnIn .fenced on) 0 = true := by decide +kernel
/-- MemoryCommands: a request for 16 tiles, ones that are turned away, a run given back, and the resources of the windows. -/
theorem witness_MemoryCommands :
    let box (op n : Nat) (s : State) : State := setReg (setReg (setReg s 0x2000 (BitVec.ofNat 32 op)) 0x2004 (BitVec.ofNat 32 n)) 0x2400 1
    let x (s : State) : Nat := mbxRead s (mbxAlloc .pf) 8
    ((let s := box 1 16 (serving []); mbxGo s .pf 0 = true ∧ bits (x s) 0 8 ≠ 2 ∧ allocBad .pf (x s) = 0 ∧ bits (x s) 32 32 = 16 ∧
       (findRoom s (bits (x s) 16 5) (bit (x s) 8) (bits (x s) 9 2) (bits (x s) 11 2) (bit (x s) 13) 16).isSome = true) ∧
     (let s := box 1 0 (serving []); mbxGo s .pf 0 = true ∧ bits (x s) 0 8 ≠ 2 ∧ allocBad .pf (x s) ≠ 0) ∧
     (let s := (box 2 0 (serving [])).modMem fun m => { m with allocs := [{ ptn := 0, tile := 0, tiles := 1 }] }
      mbxGo s .pf 0 = true ∧ bits (x s) 0 8 = 2 ∧ allocBad .pf (x s) = 0 ∧ bits (x s) 64 64 = 0 ∧
        (s.mem.allocs.any fun a => a.ptn == bits (x s) 16 5 && a.tile == bits (x s) 64 64 / 4096 && (bit (x s) 8 == decide (farTile0 ≤ a.tile))) = true) ∧
     (let s := setReg (box 2 0 on) 0x2008 64; mbxGo s .pf 0 = true ∧ bits (x s) 0 8 = 2 ∧ bits (x s) 64 64 % 4096 ≠ 0)) ∧
    mbxGo on .pf 0 = false ∧ (getCon (conIn (fun c => { c with pwr := .awake }) on) (sramPhys 0)).pwr = .awake ∧ (getCon on (sramPhys 0)).pwr ≠ .awake ∧
    on.mem.written.contains 0 = false ∧ (on.modMem fun m => { m with written := [5] }).mem.written.contains 5 = true ∧
    (let s := running 1 [entryOf 0x10 3]; entryNow s 1 0 = some (entryOf 0x10 3) ∧ memPresent s (memResource 1 3) = true ∧ s.eph.running = true) ∧
    (let s := running 4 [entryOf 0x11 3]; entryNow s 4 0 = some (entryOf 0x11 3) ∧ memPresent s (memResource 4 3) = false) ∧
    memPresent (running 1 [entryOf 0x11 3]) (memResource 1 3) = true ∧ entryNow (running 1 [entryOf 0x11 3]) 1 0 = some (entryOf 0x11 3) ∧
    (on.eph.running = false ∧ on.shaped = true ∧ (on.mem.nears.getD 0 {}).lost = false) := by decide +kernel
theorem witness_PortStates :
    (let s := linkIn 0 1 (fun l => { l with state := 1, delin := 2 }) on; s.shaped = true ∧ (linkOf s 0).state = 1 ∧ 15 % 16 = 15 ∧ isCellLink s 0 = true ∧ (linkOf s 0).delin = 2) ∧
    (∀ k ∈ [false, true], (let s := linkIn 0 (2 + (if k then 64 else 0)) (fun l => { l with state := 1, sak := k }) on;
      s.shaped = true ∧ (linkOf s 0).state = 1 ∧ isEth s 0 = true ∧ isCellLink s 0 = false ∧ ((getReg s (portBase 0)).getLsbD 6 = false ∨ (linkOf s 0).sak = true))) ∧
    (let s := linkIn 16 1 (fun l => { l with state := 2, keys := true, hello := true, acked := true }) on
     s.shaped = true ∧ isCellLink s 16 = true ∧ (linkOf s 16).state = 2 ∧ (linkOf s 16).keys = true ∧ (linkOf s 16).hello = true ∧ (linkOf s 16).acked = true) ∧
    (let s := linkIn 16 1 (fun l => { l with state := 4 }) on; s.shaped = true ∧ (linkOf s 16).state = 4 ∧ halted s = false) ∧
    (let s := linkIn 16 1 upLink on; s.shaped = true ∧ (linkOf s 16).state = 3 ∧ halted s = false) ∧ (linkOf on 16).state ≠ 3 ∧ (linkOf on 16).state ≠ 4 ∧ oddHalf on 0 = false ∧ (linkOf on 0).state = 0 := by decide +kernel
theorem witness_PortFailures :
    (let s := linkIn 0 2 upLink on; s.shaped = true ∧ (linkOf s 0).state = 3 ∧ isEth s 0 = true) ∧
    (let s := linkIn 16 1 (fun l => { l with state := 3, delin := 1, lostAt := some 0 }) on; s.shaped = true ∧ (linkOf s 16).delin ≠ 2 ∧ (linkOf s 16).lostAt.isSome = true) ∧
    (let r : Rep := { cell := none, lseq := 0, sentAt := 0, resends := 3 }; let s := linkIn 16 1 (fun l => { upLink l with replay := [r] }) on
     s.shaped = true ∧ (linkOf s 16).state = 3 ∧ (linkOf s 16).replay.head? = some r ∧ s.eph.recal.contains 16 = false) ∧
    (let c := cellOf 4 [3]; let s := linkIn 0 1 upLink on; s.shaped = true ∧ afterSeq s 0 4 c (fun t => (linkOf t 0).state == 3) = true ∧ leAt c.payload 0 1 = 3) ∧
    (portIsUp on 16 = false ∧ on.fab.unpaired = false) ∧ portIsUp (linkIn 16 1 upLink on) 16 = true ∧ (linkOf on 0).state ≠ 3 ∧
    (let s := setReg (linkIn 0 (1 + 4) upLink on) (portBase 1) 1; s.shaped = true ∧ oddHalf s 1 = true ∧ (linkOf s 0).state = 3 ∧ s.eph.recal.contains 0 = false) := by decide +kernel
theorem witness_LinkCells :
    (∀ d ∈ [0, 1, 2], (let s := linkIn 0 1 (fun l => { l with state := 3, delin := d, good := 5, bad := 6 }) on; s.shaped = true ∧ isCellLink s 0 = true ∧ (linkOf s 0).state = 3 ∧
      s.eph.recal.contains 0 = false ∧ 6 ≤ (linkOf s 0).good + 1 ∧ 7 ≤ (linkOf s 0).bad + 1)) ∧
    (let c := cellOf 4 [1]; let s := linkIn 0 1 (fun l => { l with state := 2, delin := 2 }) on; s.shaped = true ∧ afterSeq s 0 4 c (fun t => (linkOf t 0).state == 2) = true ∧ leAt c.payload 0 1 = 1) ∧
    (let c := cellOf 4 [2]; let s := linkIn 0 1 (fun l => { l with state := 2, delin := 2, keys := true }) on
     s.shaped = true ∧ afterSeq s 0 4 c (fun t => (linkOf t 0).state == 2 && (linkOf t 0).keys && leAt c.payload 2 8 == (getReg t 0x24).toNat + (getReg t 0x28).toNat * 2 ^ 32) = true ∧ leAt c.payload 0 1 = 2) ∧
    (let c := cellOf 2 []; let s := linkIn 0 1 upLink on; afterCell s 0 2 c (fun t => leAt c.payload 0 4 == (linkOf t 0).txSeq && (linkOf t 0).replay.length == 0) = true) ∧
    afterCell (linkIn 0 1 upLink on) 0 3 (cellOf 3 []) (fun _ => true) = true ∧
    (let c := cellOf 0 []; let s := linkIn 0 1 upLink on; s.shaped = true ∧ isCellLink s 0 = true ∧ c.fec = true ∧ bits c.hdr.toNat 0 16 = hcrc c.hdr.toNat ∧ c.ccrc = true ∧ cellKind c = 0 ∧
      bits c.hdr.toNat 16 7 ≤ 112 ∧ c.tag = true) ∧
    (let r : Rep := { cell := none, lseq := 0, sentAt := 0, resends := 2 }; let s := linkIn 0 1 (fun l => { upLink l with replay := [r] }) on
     s.shaped = true ∧ (linkOf s 0).replay.head? = some r ∧ (linkOf s 0).state = 3 ∧ s.eph.recal.contains 0 = false) := by decide +kernel
theorem witness_PortTimers :
    (let s := linkIn 0 1 (fun l => { upLink l with ackFrom := some 0, nakAt := some 0 }) on
     s.shaped = true ∧ (linkOf s 0).state = 3 ∧ (linkOf s 0).ackFrom.isSome = true ∧ (linkOf s 0).nakAt.isSome = true ∧ s.eph.recal.contains 0 = false) ∧
    (let s := linkIn 0 2 upLink on; s.shaped = true ∧ isEth s 0 = true ∧ portIsUp s 0 = true) ∧ isEth on 0 = false ∧
    entryNow (running 4 [entryOf 0x12 0]) 4 0 = some (entryOf 0x12 0) ∧ entryNow on 4 0 = none ∧ entryNow (running 4 [entryOf 0x19 0]) 4 0 = some (entryOf 0x19 0) ∧ runsEmpty (running 4 [entryOf 0x19 0]) 0 = false ∧
    runsEmpty ((running 4 [entryOf 0x19 0]).modEph fun x => { x with empty := [(0, [])] }) 0 = true ∧ on.fab.degraded = false ∧
    (let s := linkIn 0 1 upLink on; portIsUp s 0 = true ∧ oddHalf s 0 = false ∧ isCellLink s 0 = true ∧ s.eph.recal.contains 0 = false ∧ nextQueue (countHeld s 0) 0 = none) ∧
    (let c : Cell := { cls := 0, first := true, last := true, src := 0, dst := 1, msgId := 0, offset := 0, stream := 0, sseq := 0, ptn := 0 }
     let s := linkIn 0 1 (fun l => { upLink l with mode := 1, queues := [(256, [.cell c])], credits := List.replicate 8 9 }) on
     s.shaped = true ∧ portIsUp s 0 = true ∧ oddHalf s 0 = false ∧
       (nextQueue (countHeld s 0) 0).any (fun x => x.1 == 256 && ((popQueue (countHeld s 0) 0 x.1 x.2).any fun y => y.1 == .cell c)) = true) ∧
    (let f : EthFrame := { bytes := 64 }; let s := linkIn 0 2 (fun l => { upLink l with mode := 1, queues := [(256, [.frame f 0])] }) on
     s.shaped = true ∧ portIsUp s 0 = true ∧ oddHalf s 0 = false ∧ s.eph.recal.contains 0 = false ∧
       (nextQueue (countHeld s 0) 0).any (fun x => x.1 == 256 && ((popQueue (countHeld s 0) 0 x.1 x.2).any fun y => y.1 == .frame f 0)) = true) := by decide +kernel
def tabBox (s : State) : State :=
  setReg (setReg (setReg (setReg (setReg s 0x2044 0x010A0010) 0x2048 1) 0x2054 3) 0x2040 0) 0x2400 2
def recOf (opt : Nat) : TabRec := { ptn := 0, num := 0, rec_ := leBytes 1 0 ++ leBytes 1 0 ++ leBytes 1 opt ++ leBytes 4 0 ++ leBytes 1 1 ++ leBytes 120 0 }
def look (n : Nat) : Lookup := { task := 1, ptn := 0, table := 0, shard := 0, seq := 0, dev := 1, sends := n }
theorem witness_TableRecords :
    (let s := tabBox (serving []); mbxGo s .pf 1 = true ∧ tabRecOk s 0 (mbxRecord .pf 0 s) = true ∧ tabBusy s 0 (mbxRecord .pf 0 s).num = false) ∧
    (let s := (tabBox (serving [])).modTabs fun b => { b with updates := [{ ptn := 0, dev := 1, table := 0, shard := 0, seq := 0, cycle := 0, msg := {} }] }
     tabRecOk s 0 (mbxRecord .pf 0 s) = true ∧ tabBusy s 0 (mbxRecord .pf 0 s).num = true) ∧
    (let s := setReg on 0x2400 2; mbxGo s .pf 1 = true ∧ tabRecOk s 0 (mbxRecord .pf 0 s) = false) ∧ mbxGo on .pf 1 = false := by decide +kernel
theorem witness_TableCommands :
    msgOk on 1 msgOne false = false ∧ (msgOk (serving []) 1 msgOne false = true ∧ tableSlot (serving []) 0 = none) ∧
    (let s := { serving [] with eph := { running := true, bank0 := some (imageOf 0 [entryOf 3 0]), slots := [{ sec := 0, ent := 0, ptn := 0, cons := [] }] } }
     msgOk s 1 msgOne false = true ∧ (s.tabs.asks.any fun x => x.2.dstPtn == 0) = false ∧ askHeld s msgOne = false ∧
       (tableSlot s 0).any (fun x => !x.1.full && x.2 == entryOf 3 0 && decide (x.1.usedA + msgCount msgOne ≤ x.2.capA) && x.2.capB == 0) = true ∧
       (tableSlot (s.modEph fun e => { e with slots := e.slots.map fun r => { r with full := true } }) 0).any (·.1.full) = true) ∧
    (let s := (serving []).modWork fun w => { w with lookups := [look 1, { look 1 with shard := 1 }] }
     (s.work.lookups.find? (fun l => l.ptn == 0 && l.dev == 1 && l.table == 0 && l.shard == 0 && l.seq == 0 && l.answer.isNone) = some (look 1)) ∧ isolated s 0 = false ∧
       s.work.lookups.any (fun k => k.task == 1 && k != look 1 && k.answer == none) = true) ∧
    (∀ n ∈ [3, 4], (let s := on.modWork fun w => { w with lookups := [look n] }
      s.work.lookups.find? (fun l => l.task == 1 && l.shard == 0 && l.answer.isNone && l.dev != myDev s) = some (look n) ∧ findTask s 1 = none ∧ isolated s (look n).msg.srcPtn = false)) ∧
    (let s := (serving []).modTabs fun b => { b with applied := [(0, 1, 0, 5, stOK)] }; msgOk s 1 msgOne false = true ∧ newestSeq s 0 1 0 = some 5 ∧
      (s.tabs.applied.find? fun a => a.1 == 0 && a.2.1 == 1 && a.2.2.1 == 0 && a.2.2.2.1 == 5) = some (0, 1, 0, 5, stOK)) ∧
    (let s := (serving []).modTabs fun b => { b with applied := [(0, 1, 0, 1024, stOK)] }; msgOk s 1 msgOne false = true ∧ newestSeq s 0 1 0 = some 1024 ∧ msgSeq msgOne + 1024 ≤ 1024 ∧
      s.tabs.applied.all (fun a => !(a.2.1 == 1 && a.2.2.2.1 == msgSeq msgOne)) = true) ∧
    (∀ o ∈ [0, 1], (let s := (serving []).modTabs fun b => { b with recs := [recOf o] }; msgOk s 1 msgOne false = true ∧ findTabRec s 0 (msgTable msgOne) = some (recOf o) ∧
      (recOf o).opt = o ∧ msgShard msgOne < (recOf o).nshard ∧ (recOf o).owner (msgShard msgOne) = myDev s)) ∧
    isolated (ptnIn .fenced on) 0 = true ∧
    (let s := (serving []).modTabs fun b => { b with age := [(0, 10 ^ 6)] }; isolated s 0 = false ∧ odGet s 0x91E0 2 ≤ cnt s.tabs.age 0) ∧ cnt (serving []).tabs.age 0 < odGet (serving []) 0x91E0 2 := by decide +kernel
theorem witness_MemoryRequests :
    (∀ o ∈ [(0x40, 4096), (0x42, 4096), (0x48, 4), (0x49, 8), (0x4A, 4), (0x4B, 8), (0x4C, 8), (0x4D, 16), (0x4E, 32), (0x50, 4096)], memOp (memTo o.1 o.2) = o.1 ∧ inTurn (serving []) (memTo o.1 o.2)) ∧
    (let m := { memTo 0x42 4096 with sseq := 5 }; let c : RxStream := { src := 1, stream := 0, opener := 0, next := 6, done := [(5, 0, [])], lastAt := 0 }
     let s := (serving []).modFab fun f => { f with streams := [c] }; halted s = false ∧ findStream s m.src m.stream = some c ∧ c.done.find? (·.1 == m.sseq) = some (5, 0, []) ∧ msgHeld s m = false) ∧
    (let m := { memTo 0x42 4096 with sseq := 6 }; let c : RxStream := { src := 1, stream := 0, opener := 0, next := 6, lastAt := 0 }
     let s := (serving []).modFab fun f => { f with streams := [c] }; findStream s m.src m.stream = some c ∧ seqApplied c m.sseq = false ∧ seqDist c.next m.sseq = 0) ∧
    halted (on.modRas fun r => { r with fatal := true }) = true ∧
    (∀ o ∈ [(0x40, 4096), (0x42, 4096), (0x48, 4), (0x4A, 4), (0x4C, 8)], let m := { memTo o.1 o.2 with sseq := 6 }; let c : RxStream := { src := 1, stream := 0, opener := 0, next := 6, lastAt := 0 }
     let s := ((serving []).modFab fun f => { f with streams := [c] }).modEph fun e => { e with held := [(0, 0, tileRes on (12 * 2 ^ 18))] }
     halted s = false ∧ findStream s m.src m.stream = some c ∧ msgHeld s m = true ∧ seqDist c.next m.sseq < 1024 ∧ s.fab.held = []) := by decide +kernel
theorem witness_MemoryReplies :
    (∀ o ∈ [(0x41, 0x40, 0), (0x43, 0x40, 5 * 2 ^ 56)], (let x := sentOne o.2.1 1 (.bar2 0 0 0); let m := answerOf o.1 o.2.2
      memOp m = o.1 ∧ answersBar2 (sentIn [x] false) m x (barOne false) ((barOne false).addr / 4096) ∧ bits (memArg m) 56 8 = o.2.2 / 2 ^ 56 ∧ (barOne false).got = [] ∧ (64 + 64 - 1) / 4096 = 64 / 4096)) ∧
    (let x := sentOne 0x48 1 (.bar2 0 0 0); memOp (answerOf 0x4F 0) = 0x4F ∧ answersBar2 (sentIn [x] true) (answerOf 0x4F 0) x (barOne true) 0 ∧ isAtomic x.op = true) ∧
    (∀ x ∈ [sentOne 0x40 1 (.bar2 0 0 0), sentOne 0x50 1 (.inval 7)], memOp (answerOf 0x44 0) = 0x44 ∧ halted (sentIn [x] false) = false ∧ answered (sentIn [x] false) (answerOf 0x44 0) = some x) ∧
    (let x := sentOne 0x50 1 (.inval 7); memOp (answerOf 0x51 0) = 0x51 ∧ answered (sentIn [x] false) (answerOf 0x51 0) = some x ∧
      (sentIn [x, { x with id := 2, msgId := some 4 }] false).fab.sent.any (fun y => y.id != 1 && y.owner == .inval 7) = true ∧ (sentIn [x] false).fab.sent.all (fun y => y.id == 1) = true) ∧
    answered on (answerOf 0x41 0) = none ∧
    (∀ n ∈ [3, 4], ∀ op ∈ [0x40, 0x50], (let x := sentOne op n (if op = 0x50 then .inval 7 else .bar2 0 0 0); let s := sentIn [x] false
      s.fab.sent.find? (·.id == 1) = some x ∧ x.msgId.isSome = true ∧ s.px.bar2.find? (fun y => y.ptn == 0 && y.tag == 0) = some (barOne false))) ∧
    (let h : RxHeld := { msg := answerOf 0x40 0, since := 0, noCtx := true }; let s := on.modFab fun f => { f with held := [h] }
     s.fab.held.find? (fun h => h.noCtx && h.msg.src == 1 && h.msg.msgId == 0) = some h) := by decide +kernel
/-- MemoryReplies: a write that waits for its INVALIDATEs. -/
theorem witness_Fencing : let f : Fencing := { op := 7, owner := .bar2 0 0 0, status := 0 }; [f].find? (·.op == 7) = some f ∧ f.owner = .bar2 0 0 0 := by decide +kernel
theorem witness_CellsAndRoutes :
    (let c := cellOf 1 [] (2 ^ 108); let s := linkIn 0 1 upLink on; let p := parseCell c.hdr.toNat c.payload
     s.shaped = true ∧ c.stomp = false ∧ p.dst = myDev s ∧ p.last = false ∧
       afterCell s 0 1 c (fun t => (linkOf t 0).state == 3 && (acceptSeq t 0 c.seq).2) = true ∧
       afterSeq s 0 1 c (fun t => (findCtx t p.src p.msgId).isNone && decide (orderedBytes t (p.msgId % 2) < 2 ^ 26) && t.fab.ctxs.length == 0 && t.fab.held == []) = true) ∧
    (let c := cellOf 1 [] (2 ^ 108); let x : RxCtx := { src := 1, msgId := 0, stream := 9, sseq := 0, ptn := 0, cls := 0, since := 0 }; let s := linkIn 0 1 upLink (on.modFab fun f => { f with ctxs := [x] })
     let p := parseCell c.hdr.toNat c.payload; afterSeq s 0 1 c (fun t => findCtx t p.src p.msgId == some x && x.stream != p.stream) = true ∧ findCtx s 1 0 = some x) ∧
    (let c := cellOf 1 [] (2 ^ 108 + 2 ^ 100); let s := linkIn 16 1 upLink on
     afterCell s 16 1 c (fun t => (linkOf t 16).state == 3 && (acceptSeq t 16 c.seq).2) = true ∧ (parseCell c.hdr.toNat c.payload).dst ≠ myDev s) ∧
    (checkCell on 0 1 (cellOf 1 [])).2 = false ∧ findCtx on 0 0 = none ∧ on.shaped = true ∧ odGet on 0x9000 1 ≠ 1 ∧ odGet (odSet on 0x9000 1 1) 0x9000 1 = 1 ∧
    (let c := cellOf 1 [] (2 ^ 108); let p := parseCell c.hdr.toNat c.payload; let x : RxCtx := { src := 1, msgId := 0, stream := p.stream, sseq := p.sseq, ptn := p.ptn, cls := p.cls, since := 0, cells := [(p.offset, [], false)] }
     afterSeq (linkIn 0 1 upLink (on.modFab fun f => { f with ctxs := [x] })) 0 1 c (fun t => findCtx t p.src p.msgId == some x) = true ∧ p.last = false) ∧
    (let c := cellOf 1 [] (2 ^ 108 + 2 ^ 119); let p := parseCell c.hdr.toNat c.payload; let x : RxCtx := { src := 1, msgId := 0, stream := p.stream, sseq := p.sseq, ptn := p.ptn, cls := p.cls, since := 0, last := some 5 }
     afterSeq (linkIn 0 1 upLink (on.modFab fun f => { f with ctxs := [x] })) 0 1 c (fun t => findCtx t p.src p.msgId == some x && t.fab.held == []) = true ∧ p.last = true ∧ p.dst = 0 ∧ (5 : Nat) ≠ p.offset) ∧
    (let c := { cellOf 1 [] (2 ^ 108) with seq := 2 ^ 32 - 1 }; afterCell (linkIn 0 1 upLink on) 0 1 c (fun t => (linkOf t 0).state == 3 && !(acceptSeq t 0 c.seq).2) = true) := by decide +kernel
theorem witness_MeridianSources :
    (let m : PtpMsg := {}; let s := linkIn 0 2 upLink (on.modMer fun m => { m with ptp := true, source := 1 })
     isEth s 0 = true ∧ portIsUp s 0 = true ∧ m.transport < 3 ∧ hostServo s = false ∧ m.domain = odGet s 0x5000 6 ∧ m.parent = true ∧ m.kind = 0 ∧ s.mer.ptpPort = 0) ∧
    (let c := cellOf 5 []; let m : PtpMsg := {}; let s := linkIn 0 1 upLink (on.modMer fun m => { m with ptp := true, source := 1 })
     afterCell s 0 5 c (fun t => portIsUp t 0 && !hostServo t && m.domain == odGet t 0x5000 6 && t.mer.ptp && t.mer.ptpPort == 0 && t.mer.source == 1) = true) ∧
    fourAgree ([0, 0, 0] ++ [100000]) = true ∧ fourAgree ([0, 0, 0] ++ [100001]) = false ∧
    (let s := linkIn 0 2 upLink (on.modMer fun m => { m with ptpLast := [0, 0, 0] }); s.mer.ptp = false ∧ s.mer.ptpLast.length = 3 ∧ s.mer.source ≠ 1 ∧ asymmetry s 0 = 0) ∧
    (∀ t ∈ [1, 2], (let s := odSet (on.modMer fun m => { m with pps := true, tod := t, source := t + 1 }) 0x5000 5 1; hostServo s = false ∧ odGet s 0x5000 5 = 1 ∧ merGoverns s = s.mer.source)) ∧
    (∀ n ∈ [2, 3], (let s := odSet (on.modMer fun m => { m with ppsGood := n }) 0x5000 5 1; s.mer.pps = false ∧ s.mer.ppsGood = n ∧ odGet s 0x5000 5 = 1)) ∧
    (hostServo on = false ∧ on.mer.pps = false ∧ on.mer.ptp = false) ∧ (on.modMer fun m => { m with state := .twilight }).mer.state = .twilight ∧ hostServo (odSet on 0x9000 2 1) = true ∧
    (let m : PtpMsg := { kind := 2, msg := leBytes 44 1 }; let s := linkIn 0 2 upLink on; isEth s 0 = true ∧ portIsUp s 0 = true ∧ m.transport < 3 ∧ m.domain = odGet s 0x5000 6 ∧ s.mer.ptp = false ∧ 40 ≤ m.msg.length ∧
      afterCell (linkIn 0 1 upLink on) 0 5 (cellOf 5 []) (fun t => portIsUp t 0 && !hostServo t && m.domain == odGet t 0x5000 6 && !t.mer.ptp) = true) := by decide +kernel
/-- MeridianSources: each state in which the servo's rule says something, at the counts where it changes. -/
theorem witness_Servo : (∀ n ∈ [6, 7], (on.modMer fun m => { m with state := .acquiring, within := n }).mer.within = n ∧ (on.modMer fun m => { m with state := .locked, beyond := n }).mer.beyond = n) ∧
    on.mer.state ≠ .acquiring ∧ on.mer.state ≠ .locked ∧ on.mer.toAcq = false := by decide +kernel
theorem witness_MeridianOutputs :
    (on.mer.ppsHigh = false ∧ on.mer.ppsRise = none ∧ on.mer.state ≠ .adrift) ∧ (on.modMer fun m => { m with ppsHigh := true }).mer.ppsHigh = true ∧
    (let s := linkIn 0 2 upLink on; hostServo s = false ∧ portIsUp s 0 = true ∧ s.mer.ptp = false ∧ isEth s 0 = true) ∧ on.mer.state = .freerun ∧
    ((on.modMer fun m => { m with state := .locked }).mer.state ≠ .freerun) ∧
    (let s := openRing (pfRing 5) (linkIn 0 2 upLink (odSet on 0x9000 2 1)); let d := leBytes 4 (34 * 2 ^ 16) ++ leBytes 124 0
     hostServo s = true ∧ ringEn s (pfRing 5) = true ∧ ringIx s (pfRing 5) ≠ regFld s (pfRing 5 + 0xC) 0 20 ∧ leAt d 0 4 % 32 < 16 ∧ portIsUp s (leAt d 0 4 % 32) = true ∧
       isEth s (leAt d 0 4 % 32) = true ∧ bits (leAt d 0 4) 5 11 < 3 ∧ 34 ≤ bits (leAt d 0 4) 16 16 ∧ bits (leAt d 0 4) 16 16 ≤ 96 ∧ bits (leAt [] 0 4) 16 16 < 34) ∧
    (let s := openRing (pfRing 7) (linkIn 0 2 upLink (odSet on 0x9000 3 1))
     odGet s 0x9000 3 ≠ 0 ∧ ringEn s (pfRing 7) = true ∧ ringIx s (pfRing 7) ≠ regFld s (pfRing 7 + 0xC) 0 20 ∧ leAt [] 0 4 % 32 < 16 ∧ isEth s 0 = true ∧ portIsUp s 0 = true) ∧
    (∀ r ∈ [[], [0]], let s := (linkIn 0 1 upLink on).modEph fun e => { e with recal := r }; s.shaped = true ∧ hostServo s = false ∧ portIsUp s 0 = true ∧ s.mer.ptp = false ∧ isEth s 0 = false ∧ decide (0 ∈ s.eph.recal) = (r == [0])) ∧
    (let s := openRing (pfRing 5) (linkIn 0 1 upLink (odSet on 0x9000 2 1)); let d := leBytes 4 (34 * 2 ^ 16 + 3 * 2 ^ 5) ++ leBytes 124 0
     s.shaped = true ∧ hostServo s = true ∧ ringEn s (pfRing 5) = true ∧ ringIx s (pfRing 5) ≠ regFld s (pfRing 5 + 0xC) 0 20 ∧ leAt d 0 4 % 32 < 16 ∧ portIsUp s (leAt d 0 4 % 32) = true ∧
       isEth s (leAt d 0 4 % 32) = false ∧ bits (leAt d 0 4) 5 11 = 3 ∧ bits (leAt d 0 4) 16 16 = 34) := by decide +kernel
/-- QueuePairCommands: a command in the PF's mailbox goes to any partition. -/
theorem witness_QpGo (x : Nat) (s : State) (h : goes x s) : qpGo (qcmd x s) .pf (bits x 0 8) x :=
  ⟨h.1, h.2.1, rfl, fun p e => (by cases e), h.2.2⟩
theorem witness_QueuePairCommands :
    (goes 1 (qpsOn []) ∧ bit 1 21 = false ∧ (newQp (qcmd 1 (qpsOn [])) 0 0).isSome = true ∧ goes 1 on ∧ (newQp (qcmd 1 on) 0 0).isNone = true) ∧
    (let x := 1 + 2 ^ 21 + 5 * 2 ^ 70 + 2 ^ 73; goes x (qpsOn []) ∧ qpHard (qcmd x (qpsOn [])) = true ∧ portOk (qcmd x (qpsOn [])) x = true ∧ (newQp (qcmd x (qpsOn [])) (qcPtn x) (bits x 63 5 / 8)).isSome = true ∧ bits x 70 3 = 5 ∧ bits x 73 5 = 1) ∧
    (∀ c ∈ [(0, 1, 0), (1, 2, 2 ^ 70), (2, 3, 2 ^ 73), (4, 0, 0), (3, 4, 0), (0, 2, 0)], (let x := 2 + 0x100000 * 2 ^ 32 + c.2.1 * 2 ^ 56 + c.2.2
      goes x (qpsOn [qpOne c.1 []]) ∧ qcFind (qcmd x (qpsOn [qpOne c.1 []])) x = (0, some (qpOne c.1 [])) ∧ bits x 56 3 = c.2.1 ∧ portOk (qcmd x (qpsOn [])) x = true)) := by decide +kernel
/-- QueuePairCommands: the other commands. -/
theorem witness_QueuePairCommands2 :
    (∀ o ∈ [3, 4], goes (o + 0x100000 * 2 ^ 32) (qpsOn [qpOne 0 []]) ∧ (qcFind (qpsOn []) (o + 0x100000 * 2 ^ 32)).2 = none) ∧
    (let x := 5 + 12 * 2 ^ 30 * 2 ^ 320 + 4096 * 2 ^ 384; let s := qcmd x (qpsOn []); goes x (qpsOn []) ∧ bits x 384 40 = 4096 ∧ odGet s 0x9240 4 = 4 ∧ s.px.regions = [] ∧
      ownRange s 0 (bits x 320 64) (bits x 384 40) = true ∧ ownRange s 0 0 4096 = false ∧ goes x on ∧ odGet (qcmd x on) 0x9240 4 = 0) ∧ goes 5 on ∧
    (∀ b ∈ [false, true], (let x := 6 + 1 * 2 ^ 480; let q := { qpOne 2 [] with write_ := if b then some (0, 0, 1) else none }
      let s0 := qpsOn [q]; let s := { s0 with px := { s0.px with regions := [regOne] } }
      goes x s ∧ (qcmd x s).px.regions.find? (fun r => r.ix == bits x 480 32 / 256 && r.variant == bits x 480 32 % 256) = some regOne ∧ regOne.ptn = qcPtn x ∧ keyInUse (qcmd x s) (bits x 480 32) = b)) ∧
    (let s := setReg on (mbxCtl (.vf 1)) 4; mbxGo s (.vf 1) 2 = true ∧ qcPtn (mbxRead s (mbxQp (.vf 1)) 16) = 0) ∧ mbxGo on .pf 2 = false := by decide +kernel
theorem witness_RocePackets :
    (let p : RocePkt := { op := 0, qpn := 0x100000, addr := 12 * 2 ^ 30, key := 1, len := 16, data := leBytes 16 5 }; let q := qpOne 2 []
     let s0 := qpsOn [q]; let s := { s0 with px := { s0.px with regions := [regOne] } }
     roceArrives s 0 p q ∧ q.rqPsn < 2 ^ 24 ∧ p.psn = q.rqPsn ∧ q.write_ = none ∧ keyCheck s 0 p.key p.addr p.len 1 = none ∧ p.len ≤ p.data.length ∧
       keyCheck s 0 p.key p.addr p.len 0 = none ∧ keyCheck s 0 p.key p.addr 8 2 = none ∧ 8 ≤ p.data.length ∧ q.cnpAt = none) ∧
    (∀ w ∈ [0x40, 0x42], (let b := barOne (w == 0x40); let g : GwOp := gwOne w 1; let q := qpOne 3 [g]
      let s0 := qpsOn [q]; let s := { s0 with px := { s0.px with bar2 := [b] } }
      roceArrives s 0 { op := 6, qpn := 0x100000 } q ∧ g.psn.isSome = true ∧ s.px.bar2.find? (fun y => y.ptn == 0 && y.tag == 0) = some b ∧ opLast g = 0 ∧ b.atomic = (w == 0x40) ∧
        psnBefore 0 (opLast g) = false ∧ psnBefore (2 ^ 24 - 1) (opLast g) = true ∧ psnBefore (opLast g) 0 = false)) ∧
    (let q := { qpOne 3 [] with cnpAt := some 0 }; roceArrives (qpsOn [q]) 0 { op := 8, qpn := 0x100000 } q ∧ now (qpsOn [q]) - 0 < 50000) ∧
    (isEth (qpsOn []) 0 = true ∧ portIsUp (qpsOn []) 0 = true ∧ isEth on 0 = false ∧ (getReg (qpsOn []) (portBase 0 + 0x260 + 8 * 0 + 4)).getLsbD 25 = false ∧ (qpsOn []).px.qps = []) := by decide +kernel
theorem witness_Connections :
    (∀ n ∈ [0, 1], (let g : GwOp := gwOne 0x40 n; let q := qpOne 3 [g]
      let s0 := qpsOn [q]; let s := { s0 with px := { s0.px with bar2 := [barOne false] } }
      findQp s 0 = some q ∧ psnBefore (opLast g) (g.psn.getD 0) = false ∧ s.px.bar2.find? (fun y => y.ptn == 0 && y.tag == 0) = some (barOne false) ∧ q.retry = 0)) ∧
    findQp on 0 = none ∧ (let q := { qpOne 3 [] with loading := true }; findQp (qpsOn [q]) 0 = some q ∧ q.miss = [] ∧ (cacheRoom (qpsOn [q]) (homeDie q)).isSome = true) ∧
    (let s := odSet (odSet (qpsOn []) 0x9240 1 5) 0x9240 6 9; qpHard s = true ∧ (((List.range 32).find? fun p => odGet s (0x9240 + p) 1 == 5 && odGet s (0x9240 + p) 6 == 9).bind (newQp s · 0)).isSome = true) ∧
    (∀ c ∈ [1, 2, 4], (let q := { qpOne 3 [] with cm := c }; cmQp (qpsOn [q]) { port := 0, lqpn := 0x100000 } = some q ∧ qpHard (qpsOn [q]) = true)) ∧
    cmQp on { port := 0 } = none ∧ (qpHard (odSet on 0x9000 3 1) = false ∧ ringEn (odSet on 0x9000 3 1) (pfRing 8) = false) := by decide +kernel
theorem witness_PcieCommands :
    (let w := 12 * 2 ^ 30 + 16 * 2 ^ 64 + 31 * 2 ^ 96 + 2 ^ 101; let s := (bound (serving [])).modFab fun f => { f with windows := [(0, leBytes 32 w)] }
     bar2Open s 0 = true ∧ bar2Addr s 0 64 = some (12 * 2 ^ 30 + 64) ∧ window s 0 0 (12 * 2 ^ 30 + 64) 64 = some w ∧ window s 0 2 (12 * 2 ^ 30 + 64) 8 = some w ∧ 64 + 64 ≤ 4096 ∧
       (12 * 2 ^ 30 + 64) / 2 ^ 48 = myDev s ∧ tierStatus s 0 ((12 * 2 ^ 30 + 64) % 2 ^ 48 / 4096 * 4096) = 0 ∧ tierStatus s 0 (12 * 2 ^ 30 + 64) = 0 ∧ s.px.bar2 = [] ∧ windowHolds s (12 * 2 ^ 18) 1 = false ∧
       windowHolds (s.modEph fun e => { e with held := [(0, 0, tileRes on (12 * 2 ^ 18))] }) (12 * 2 ^ 18) 1 = true ∧
       isAtomic 0x49 = true ∧ isCas 0x49 = false ∧ atomicWidth 0x49 = 8) ∧
    bar2Open on 0 = false ∧ (bar2Open (bound on) 0 = true ∧ bar2Addr (bound on) 0 0 = none) ∧
    (let s := on.modPx fun x => { x with links := modAt x.links 0 fun l => { l with role := 1 } }; (s.px.ide.filter (·.id != 1)).length < 64 ∧ (pxLink s 0).role = 1 ∧ (pxLink s 0).up = false ∧ (pxLink s 1).role ≠ 1) ∧
    (let i : IdeStream := { id := 1, link := 0, fn := 1, secure := true }; let s := (bound on).modPx fun x => { x with ide := [i] }
     s.px.ide.find? (·.id == 1) = some i ∧ vfBound s 0 = true ∧ (compOf s 0).tdi = 0 ∧ i.link = cmpUlink (compOf s 0).cfg ∧ i.fn = cmpVf (compOf s 0).cfg + 1 ∧ s.shaped = true) ∧
    (compOf (modComp on 0 fun c => { c with tdi := 1 }) 0).tdi = 1 ∧
    (∀ b ∈ [false, true], (let s := (bound on).modPx fun x => { x with links := modAt x.links 3 fun l => { l with role := 2, up := true, bound := if b then some (0, 0) else none, releasing := some 0 } }
      s.shaped = true ∧ (pxLink s 3).releasing.isSome = true ∧ (pxLink s 3).toFree = false ∧ (pxLink s 3).up = true ∧ heldBy s 3 = (if b then some (0, 0) else none))) ∧ heldBy on 3 = none := by decide +kernel
/-- EntryWritesRefused, EntryWrites: an entry no role may write, one that is written at once, and ones that wait for a boundary. -/
theorem witness_EntryWrites :
    (odHears State.reset pf = false ∧ odHears on pf = true ∧ odCheck on pf 0x2020 6 [1] ≠ 0) ∧
    (∀ c ∈ [(4, 80), (5, 1000), (6, 80), (7, 80), (8, 80)], odTakes (maker on) pf 0x6030 c.1 (leBytes ((odFind 0x6030 c.1).map (·.size) |>.getD 0) c.2)) ∧
    (∀ c ∈ [(1, 1000), (2, 2000), (4, 1), (5, 1), (6, 37), (7, 0), (8, 0), (9, 255)], odTakes (maker on) pf 0x5000 c.1 (leBytes ((odFind 0x5000 c.1).map (·.size) |>.getD 0) c.2)) ∧
    (∀ c ∈ [(PState.vacant, 1), (.draining, 2), (.active, 3), (.fenced, 5), (.fenced, 6), (.provisioning, 4), (.active, 4), (.scrubbing, 4)], (let s := ptnState c.1
      odTakes s pf 0x3000 2 [BitVec.ofNat 8 c.2] ∧ s.shaped = true ∧ (c.2 ≠ 4 → cmdAccept (odSet s 0x3000 4 1024) pf 0 c.2 = 0))) ∧
    (odTakes (ptnState .active) pf 0x3000 2 [1] ∧ cmdAccept (ptnState .active) pf 0 1 = 1) ∧ odTakes (ptnState .vacant) pf 0x3000 3 (leBytes 19 1) := by decide +kernel
/-- EntryWrites: tables of zeros. -/
theorem witness_Routes : let s := odSet (maker on) 0x9000 1 1; odTakes s pf 0x9010 1 (List.replicate 4096 0) ∧
    routeResult s (List.replicate 4096 0) = 0 ∧ routeResult (maker on) (List.replicate 4096 0) = 1 := by
  refine ⟨by decide +kernel, ?_, ?_⟩
  · have h (n : Nat) : ((List.range 2048).filter fun k => k / 8 != n && bit (routeChoice (List.replicate 4096 (0 : Byte)) k) 8) = [] := by
      rw [List.filter_eq_nil_iff]; intro k _; rw [routeChoice, leAt_zeros, show bit 0 8 = false from rfl, Bool.and_false]; exact Bool.false_ne_true
    unfold routeResult; rw [h]; decide +kernel
  · unfold routeResult; rw [if_pos (by decide +kernel)]
theorem witness_Tables :
    (let d := List.replicate 2048 0; odTakes (ptnState .active) pf 0x9200 1 d ∧ odTakes (ptnState .vacant) pf 0x9200 1 d ∧ windowResult (ptnState .vacant) 0 d = 4) ∧
    (odTakes (ptnState .active) pf 0x9160 1 [] ∧ (supplyResult (ptnState .active) 0 []).1 = 4) := by decide +kernel
theorem witness_Windows : windowResult (ptnState .active) 0 (List.replicate 2048 0) = 0 := by
  unfold windowResult; simp only [leAt_zeros]; decide +kernel
theorem witness_PfMailbox :
    (let s := odBox 1 6 0 (maker on); let r := mbxRead s 0x2100 4; mbxGo s .pf 3 = true ∧ s.ctl.odPend = [] ∧ s.ctl.odStore = [] ∧ odHears s pf = true ∧ bits r 45 19 = 0 ∧ bits r 72 56 = 0 ∧ bits r 0 8 = 1 ∧ bits r 8 16 = 0x6030 ∧
      odServed s 0x6030 = true ∧ (odFind 0x6030 (bits r 24 8)).any (fun e => e.size != 0 && !e.rc && e.access != .wo && decide (e.read ≤ roleOf s pf) && decide (e.size ≤ 4)) = true ∧ bits r 24 8 = 6) ∧
    (let s := setReg (odBox 2 8 1 (maker on)) 0x3000 80; let r := mbxRead s 0x2100 4; mbxGo s .pf 3 = true ∧ bits r 0 8 = 2 ∧ bits r 24 8 = 8 ∧ bits r 32 13 = 1 ∧ bits r 45 19 = 0 ∧ bits r 72 56 = 0 ∧
      odCheck s pf 0x6030 8 ((leBytes 4 (getReg s 0x3000).toNat).take 1) = 0) ∧
    (let s := odBox 3 6 0 on; mbxGo s .pf 3 = true ∧ bits (mbxRead s 0x2100 4) 0 8 = 3 ∧ odHears s pf = true) ∧ mbxGo on .pf 3 = false ∧
    (let s := { on with ctl := { on.ctl with odStore := [(pf, 0x2000, 5, false)] } }; s.ctl.odStore.any (·.1.master == .pf) = true) := by decide +kernel
theorem witness_RoleCommands :
    (odHears on pf = true ∧ odTakes on pf 0x2000 4 [1] ∧ (masterRole on pf.master).lockout = false ∧ (masterRole on pf.master).nonce = none ∧ (masterRole on pf.master).role = 0) ∧
    (∀ r ∈ [1, 2], (let d := leBytes 97 r; odTakes on pf 0x2000 3 d ∧ d.length = 97 ∧ leAt d 0 1 = r)) ∧
    (let s := { on with ctl := { on.ctl with key := some [], pfRole := { nonce := some (5, 0, 0), role := 1, lockout := true } } }; (masterRole s .pf).nonce = some (5, 0, 0) ∧ s.mer.osc - 0 ≤ 60000000000 ∧
      s.ctl.key.isSome = true ∧ (masterRole s .pf).role ≠ 0 ∧ (masterRole s .pf).lockout = true) ∧
    (let d := leBytes 97 1; odTakes on pf 0x2000 5 d ∧ on.ctl.key = none ∧ roleOf (maker on) pf = 2 ∧ roleOf on pf ≠ 2) ∧
    (let a : Audit := { seq := 0, time := 0, master := 0, role := 0, refused := false, overridden := false, kind := 0, index := 0, sub := 0, ptn := 0, old := 0, new := 0, node := 0 }
     [a].find? (·.seq == on.ctl.cursor) = some a) ∧ on.boot.recovery = false ∧ on.ctl.audit = [] := by decide +kernel
theorem witness_ServiceEntries :
    (let s := maker (conIn (fun c => { c with role := .failed, losses := 2 }) on); odTakes s pf 0x4000 2 [0] ∧ (getCon s 0).role = .failed ∧ s.ras.readmits = [] ∧ odTakes s pf 0x4000 2 [1] ∧ (getCon s 1).role ≠ .failed) ∧
    (let s := maker on; odTakes s pf 0x4010 1 [] ∧ drillResult s [] = 0 ∧ odTakes s pf 0x4010 1 (leBytes 16 0) ∧ drillResult s (leBytes 16 0) ≠ 0) ∧
    (let d := leBytes 480 0; odTakes (maker on) pf 0x6100 2 d ∧ odGet (maker on) 0x9000 4 = 0 ∧ odTakes (odSet (maker on) 0x9000 4 1) pf 0x6100 2 d) ∧
    (∀ k ∈ [1, 2, 3], odTakes (maker on) pf 0x2020 6 [BitVec.ofNat 8 k]) ∧ (on.boot.erased = false ∧ odTakes (maker on) pf 0x2020 5 [1] ∧ odGet on 0x2020 4 + 1 ≤ 2 ^ 25 ∧ on.alm.auditHead < 256 ∧ fwGet on 4 4 = 0 ∧ on.boot.recovery = false ∧
      bundleResult on { header := leBytes 0x1C0 0x31574654 } = 0 ∧ bundleResult on {} = 2) ∧
    (∀ k ∈ [1, 2, 3], odTakes (maker on) pf 0x4040 1 [BitVec.ofNat 8 k]) ∧ (on.boot.nfState = 0 ∧ ({ on with boot := { on.boot with nfState := 1 } } : State).boot.nfState ≠ 0 ∧ on.ptns.all (fun p => p.state == .vacant) = true ∧ on.boot.ready = true ∧ sequenced on = true) ∧
    odTakes (maker on) pf 0x8020 1 [1] ∧ odTakes (maker on) pf 0x8000 9 [1] := by decide +kernel
theorem witness_BusNode :
    (∀ b ∈ [BusState.unassigned, .searching, .assigned, .silent, .lone], busHeard (node b) toNode ∧ toNode.src ≠ 127 ∧ (node b).mgt.bus = b) ∧
    (∀ n ∈ [0, 2], (let s := { node .assigned with ctl := { on.ctl with busRole := { role := n, node := 1 } } }; busHeard s toNode ∧ roleOf s { master := .bus, node := 1 } = n ∧ s.boot.lostRefs.contains 0 = false)) ∧
    (serial on ≠ 7 ∧ serial on / 2 ^ (64 - 1) = 0 % 2 ^ 64 / 2 ^ (64 - 1) ∧ serial on / 2 ^ (64 - 1) ≠ 2 ^ 63 % 2 ^ 64 / 2 ^ (64 - 1)) ∧
    (node .searching fun m => { m with tentative := some 9 }).mgt.tentative = some 9 ∧ (node .silent fun m => { m with bySearch := true }).mgt.bySearch = true ∧ (node .unassigned).mgt.listening = true ∧
    (node .unassigned fun m => { m with listening := false }).mgt.listening = false ∧ (7 = (linkOf (linkIn 16 1 (fun l => { l with serial := 7 }) on) 16).serial) ∧
    (node .assigned).mgt.addr = 5 ∧ (node .assigned).mgt.busOff = false ∧ (node .lone).mgt.prev ≠ .lone := by decide +kernel
theorem witness_BusTraffic :
    (busHeard (node .assigned) toNode ∧ toNode.src = (node .assigned).mgt.manager ∧ on.mer.state = .freerun ∧ on.boot.mgmt = true) ∧ odGet on 0x1010 7 = 0 ∧ odGet (odSet on 0x1010 7 1) 0x1010 7 ≠ 0 ∧
    (let s := node .unassigned fun m => { m with joinFails := 3, listening := false }; s.mgt.joinFails = 3 ∧ s.mgt.listening = false ∧ s.mgt.busOff = false) ∧ on.mgt.joinFails ≠ 3 ∧
    bits toNode.seq 10 1 = 0 ∧ bits toNode.seq 0 7 = 0 ∧ (node .assigned).mgt.kept = [] ∧ (node .assigned).mgt.xfers = [] ∧ on.boot.recovery = false ∧
    (∀ c ∈ [0x6030 + 6 * 2 ^ 16, 0x6030 + 2 ^ 37, 0x6030 + 2 ^ 24], (xferSrc toNode (leAt (leBytes 8 c) 0 8)).hdr = c) ∧
    (let h := 0x6030 + 8 * 2 ^ 16 + 2 ^ 24; let d := leBytes 8 h ++ [80]; let w := xferSrc toNode h
     odCheck { node .assigned with ctl := { on.ctl with busRole := { role := 2, node := 1 } } } w 0x6030 8 ((padTo 56 (d.drop 8)).take 1) = 0 ∧ bits h 37 27 = 0 ∧ bits h 24 13 = 1) ∧
    (let h := 0x9010 + 2 ^ 16 + 300 * 2 ^ 24; bits h 37 27 = 0 ∧ 56 < bits h 24 13 ∧ bits h 24 13 ≤ 4096) ∧
    (let y : OdXfer := { src := 1, txn := 0, hdr := 0x9010 + 2 ^ 16 + 300 * 2 ^ 24, data := List.replicate 56 0, next := 1 }; let s := node .assigned fun m => { m with xfers := [y] }
     ∀ n ∈ [1, 2], (let f : BusRx := { src := 1, seq := n }; busHeard s f ∧ bits f.seq 10 1 = 0 ∧ bits f.seq 0 7 = n ∧ (s.mgt.xfers.find? fun t => t.src == f.src && t.txn == bits f.seq 7 3) = some y ∧
       y.data.length + 64 < bits y.hdr 24 13)) ∧
    (let k : OdKept := { src := 1, txn := 0, func := 6, hdr := 0, frames := [] }; let s := node .assigned fun m => { m with kept := [k] }
     (s.mgt.kept.find? fun k => k.src == 1 && k.txn == 0 && k.func == 6 && k.hdr == leAt [] 0 8) = some k ∧ s.mgt.bus = .assigned) := by decide +kernel
theorem witness_AlmanacCommands :
    (let s := { on with alm := { on.alm with waiting := [(0, 1)] } }; on.ctl.odStore = [] ∧ on.alm.waiting = [] ∧ s.alm.waiting ≠ [] ∧ s.alm.locked = false ∧ s.boot.mgmt = true) ∧ ({ on with alm := { on.alm with locked := true } }).alm.locked = true ∧
    (∀ g ∈ [false, true], (let s : State := { on with ctl := { on.ctl with odStore := [(pf, 0x2000, 5, g)] }, alm := { on.alm with locked := g } }
      s.alm.locked = g ∧ s.boot.mgmt = true ∧ s.ctl.odStore = [(pf, 0x2000, 5, g)])) ∧
    (let s := { on with alm := { on.alm with field := true, selected := true } }; ∀ w ∈ [NfcTo.all, .selected, .uid (nfcUid s)], nfcHears s w = true) ∧ nfcHears on .all = false ∧
    bits (nfcUid on) 0 8 = bits (nfcUid on) 0 8 ∧ bits (nfcUid on) 56 8 = 0xE0 ∧ on.alm.field = false := by decide +kernel
theorem witness_TelemetryCommands :
    ((conIn (fun c => { c with pwr := .awake }) on).shaped = true ∧ canIssue (getCon (conIn (fun c => { c with pwr := .awake }) on) 0) = true ∧ (getCon (conIn (fun c => { c with pwr := .awake }) on) 0).logical = some 0 ∧ canIssue (getCon on 0) = false) ∧
    on.tel.badRead = false ∧ (on.modTel fun t => { t with badRead := true }).tel.badRead = true ∧ odGet on 0x9000 4 = 0 ∧ odGet (odSet on 0x9000 4 1) 0x9000 4 ≠ 0 ∧
    ([some (1, 2), none] : List (Option (Nat × Nat))).getD 0 none = some (1, 2) := by decide +kernel
theorem witness_PlantCommands :
    (on.shaped = true ∧ currentHigh (getQtr on 0) = false ∧ (getQtr on 0).calm ≠ 9 ∧ (getQtr (modQtr on 0 fun q => { q with calm := 9 }) 0).calm = 9 ∧ 98000 ≤ [98000].getD 0 0 ∧ ([] : List Nat).getD 0 0 ≤ 95000 ∧
      (List.replicate 12 0).getD 0 255 % 256 ≤ 95) ∧
    (let s := { on with boot := { on.boot with rails := List.range 64, coolant := [0], lostRefs := [1] } }; railsUp s = true ∧ s.boot.coolant.contains 0 = true ∧ s.boot.lostRefs.contains 1 = true ∧ halted s = false) ∧
    (sat 0xFFFFFFFF (0 * 60000 / odGet on 0x6030 4) < odGet on 0x6030 5 ∧ odGet on 0x6030 5 ≤ sat 0xFFFFFFFF (2 ^ 32 * 60000 / odGet on 0x6030 4)) ∧
    on.boot.coolant.contains 0 = false ∧ on.boot.hotSince = none ∧ on.boot.mgmt = true ∧ on.boot.lostRefs.contains 0 = false ∧ State.reset.boot.mgmt = false ∧
    (let s := linkIn 16 1 upLink on; 16 ∈ fedPorts true ∧ (linkOf s 16).state = 3 ∧ (linkOf (linkIn 0 1 (fun l => { l with state := 4 }) on) 0).state = 4 ∧ 0 ∈ fedPorts false) := by decide +kernel
end Sys2Proof.Tests
end

section
/-! PROOFS. Obligations O1, O11 and O14: the queue, and writes of BAR0 registers by the access types of their bits (R8, R13, R14, R814-R825). -/

namespace Sys2Proof.Machine
open Sys2Proof

/-! ### How a command is shown to do something -/

theorem Does.of_within {c : Instr} {s t : State} {ps : List Part} {P : State → Prop} (he : exec c s = .next t) (hP : P t)
    (hw : Within ps s t) : Does c s ps P :=
  ⟨t, he, hP, hw.only⟩

/-- A command that answers the state it was given changes nothing. -/
theorem Does.of_same {c : Instr} {s : State} {ps : List Part} {P : State → Prop} (he : exec c s = .next s) (hP : P s) : Does c s ps P :=
  .of_within he hP (.refl ps s)

/-! ### The sparse stores of the registers -/

theorem find?_sput_same {α : Type} (m : List (Nat × α)) (k : Nat) (v : α) : (sput m k v).find? (·.1 == k) = some (k, v) := by
  induction m with
  | nil => simp [sput]
  | cons e r ih =>
    unfold sput
    split
    · simp
    · split
      · simp
      · rename_i h
        simp [Ne.symm h, ih]

theorem find?_sput_other {α : Type} (m : List (Nat × α)) {j k : Nat} (v : α) (h : j ≠ k) :
    (sput m k v).find? (·.1 == j) = m.find? (·.1 == j) := by
  have hk : k ≠ j := h.symm
  induction m with
  | nil => simp [sput, hk]
  | cons e r ih =>
    unfold sput
    split
    · simp [hk]
    · split
      · rename_i a
        subst a
        simp [hk]
      · simp [ih, List.find?_cons]

/-- A change of the registers' part that leaves the store leaves every register. -/
theorem getReg_of_store {s t : State} (h : t.regs.store = s.regs.store) (off : Nat) : getReg t off = getReg s off := by
  simp only [getReg, h]

@[simp] theorem getReg_setReg_same (s : State) (off : Nat) (v : Word) : getReg (setReg s off v) off = v := sget_sset_same _ _ _ _

theorem getReg_setReg_other (s : State) {o off : Nat} (v : Word) (h : o ≠ off) : getReg (setReg s off v) o = getReg s o := sget_sset_other _ _ _ h

theorem setReg_unchanged (s : State) (off : Nat) (v : Word) : RegsUnchanged [off] s (setReg s off v) := fun o ho =>
  getReg_setReg_other s v (by simpa using ho)

theorem RegsUnchanged.of_store {l : List Nat} {s t : State} (h : t.regs.store = s.regs.store) : RegsUnchanged l s t := fun off _ => getReg_of_store h off

@[simp] theorem latchGet_latchSet_same (s : State) (off : Nat) (v : Word) : latchGet (latchSet s off v) off = v := sget_sput_same _ _ _ _

@[simp] theorem shadowOr_shadowPut_same (s : State) (off : Nat) (v : Word) : shadowOr (shadowPut s off v) off = clampReg off v := by
  simp [shadowOr, shadowPut, find?_sput_same]

theorem shadowOr_shadowPut_other (s : State) {o off : Nat} (v : Word) (h : o ≠ off) : shadowOr (shadowPut s off v) o = shadowOr s o := by
  simp only [shadowOr, shadowPut, State.modRegs_regs, find?_sput_other _ _ h]
  rfl

/-! ### Which registers there are: what holds of the family of a register holds of it -/

theorem regInfo_mem {off : Nat} {i : RegInfo} (h : regInfo off = some i) : ∃ b ∈ blocksAt off, b.holds off = true ∧ b.info = i := by
  obtain ⟨b, hb, rfl⟩ := Option.map_eq_some_iff.mp h
  exact ⟨b, List.mem_of_find?_eq_some hb, by simpa using List.find?_some hb, rfl⟩

/-- The families of BAR0. -/
def everyBlock : List RegBlock :=
  globalBlocks ++ ephBlocks ++ merBlocks ++ memBlocks ++ portBlocks ++ cmpBlocks ++ telBlocks ++ rasBlocks ++ qtrBlocks ++ winBlocks

theorem blocksAt_subset (off : Nat) : blocksAt off ⊆ everyBlock := by
  unfold blocksAt everyBlock
  repeat' split
  all_goals intro b hb; simp_all

theorem regInfo_everyBlock {off : Nat} {i : RegInfo} (h : regInfo off = some i) : ∃ b ∈ everyBlock, b.holds off = true ∧ b.info = i := by
  obtain ⟨b, hb, h⟩ := regInfo_mem h
  exact ⟨b, blocksAt_subset off hb, h⟩

/-- The upper half of a commit-protected pair has no reserved bit. -/
theorem rw_of_hi_protected {off : Nat} {i : RegInfo} (h : regInfo off = some i) (hh : i.half = .hi) (hd : i.dom.isSome = true) : i.rw = allOnes := by
  have k : ∀ b ∈ everyBlock, b.info.half = .hi → b.info.dom.isSome = true → b.info.rw = allOnes := by decide +kernel
  obtain ⟨b, hb, -, rfl⟩ := regInfo_everyBlock h
  exact k b hb hh hd

/-- The lower half of every pair but EPH_LOAD_ADDR has no reserved bit. -/
theorem mask_of_lo {off : Nat} {i : RegInfo} (h : regInfo off = some i) (hh : i.half = .lo) (hne : off ≠ 0x100020) : i.rw ||| i.rws = allOnes := by
  have k : ∀ b ∈ everyBlock, b.info.half = .lo → b.info.rw ||| b.info.rws = allOnes ∨ (b.base = 0x100020 ∧ b.n1 = 1 ∧ b.s1 = 0x10000000 ∧ b.n2 = 1 ∧ b.s2 = 4) := by
    decide +kernel
  obtain ⟨b, hb, ho, rfl⟩ := regInfo_everyBlock h
  rcases k b hb hh with hm | ⟨h0, h1, h2, h3, h4⟩
  · exact hm
  · simp only [RegBlock.holds, h0, h1, h2, h3, h4, Bool.and_eq_true, decide_eq_true_eq, beq_iff_eq] at ho
    omega

/-- A window's register 0x714, PTN_CRC_REF, has no reserved bit. -/
theorem rw_of_crcRef {off : Nat} {i : RegInfo} (h : regInfo off = some i) (hw : 0x1000000 ≤ off) (ho : off % 0x10000 = 0x714) : i.rw = allOnes := by
  have k : ∀ b ∈ winBlocks, b.s1 = 0x10000 ∧ b.s2 = 4 ∧ 0x1000000 ≤ b.base ∧ b.base % 0x10000 + 4 * b.n2 ≤ 0x10000 ∧
      ∀ j < b.n2, b.base % 0x10000 + 4 * j = 0x714 → b.info.rw = allOnes := by decide +kernel
  obtain ⟨b, hb, hh, rfl⟩ := regInfo_mem h
  have hb' : b ∈ winBlocks := by
    unfold blocksAt at hb
    repeat' split at hb
    all_goals first | exact hb | omega | simp at hb
  obtain ⟨h1, h2, h3, h4, h5⟩ := k b hb'
  simp only [RegBlock.holds, h1, h2, Bool.and_eq_true, decide_eq_true_eq, beq_iff_eq] at hh
  exact h5 ((off - b.base) % 0x10000 / 4) (by omega) (by omega)

/-! ### Equal writes -/

/-- Two words that agree on a mask agree on every part of it. -/
theorem and_eq_of_xor_and {x y m k : Word} (h : (x ^^^ y) &&& m = 0) (hk : k &&& m = k) : x &&& k = y &&& k := by
  apply BitVec.eq_of_getElem_eq
  intro j hj
  have hj' : x[j] = y[j] ∨ m[j] = false := by
    have a := congrArg (·[j]) h
    simp at a
    by_cases e : x[j] = y[j]
    · exact .inl e
    · exact .inr (a e)
  have b := congrArg (·[j]) hk
  rcases hj' with e | e
  · simp [e]
  · have hkj : k[j] = false := by simpa [e] using b.symm
    simp [hkj]

theorem eq_of_xor_and_allOnes {x y m : Word} (h : (x ^^^ y) &&& m = 0) (hm : allOnes &&& m = allOnes) : x = y := by
  have k := and_eq_of_xor_and h hm
  have one (z : Word) : z &&& allOnes = z := BitVec.and_allOnes
  rwa [one, one] at k

/-- The access masks of a register together: what a write can say something about. -/
def RegInfo.written (i : RegInfo) : Word := i.rw ||| i.rws ||| i.w1c ||| i.w1s ||| i.wo

theorem and_written (i : RegInfo) : i.rw &&& i.written = i.rw ∧ i.rws &&& i.written = i.rws ∧ i.w1c &&& i.written = i.w1c ∧
    i.w1s &&& i.written = i.w1s ∧ i.wo &&& i.written = i.wo := by
  refine ⟨?_, ?_, ?_, ?_, ?_⟩ <;> ext j hj <;> simp [RegInfo.written] <;> grind

theorem allOnes_and_written {i : RegInfo} (h : i.rw = allOnes) : allOnes &&& i.written = allOnes := by
  rw [← h]; exact (and_written i).1

theorem storeBits_congr (s : State) (off : Nat) {i : RegInfo} {x y : Word} (h : (x ^^^ y) &&& i.written = 0) : storeBits s off i x = storeBits s off i y := by
  obtain ⟨hrw, hrws, hc, hs, -⟩ := and_written i
  have a : x &&& (i.rw ||| i.rws) = y &&& (i.rw ||| i.rws) := by
    rw [BitVec.and_or_distrib_left, BitVec.and_or_distrib_left, and_eq_of_xor_and h hrw, and_eq_of_xor_and h hrws]
  simp only [storeBits, a, and_eq_of_xor_and h hc, and_eq_of_xor_and h hs]

/-- Writes that differ in reserved bits alone do the same (R8); the lower half of a pair is latched whole. -/
theorem writeReg_congr (s : State) (vf : Bool) {off : Nat} {i : RegInfo} {x y : Word} (hi : regInfo off = some i) (hl : i.half ≠ .lo)
    (h : (x ^^^ y) &&& i.written = 0) : writeReg s vf off x = writeReg s vf off y := by
  have full (hf : i.rw = allOnes) : writeReg s vf off x = writeReg s vf off y := by
    rw [eq_of_xor_and_allOnes h (allOnes_and_written hf)]
  have wide (r : RegInfo) (o : Nat) (ho : regInfo o = some r) (hr : r.rw = allOnes) (e : off = o) : i.rw = allOnes := by
    subst e; rw [hi] at ho; injection ho with ho; rw [ho, hr]
  obtain ⟨hrw, -, -, -, hwo⟩ := and_written i
  by_cases e1 : off = 0x304
  · exact full (wide rwAll 0x304 (by decide) rfl e1)
  by_cases e2 : off = 0x200024
  · exact full (wide rwAll 0x200024 (by decide) rfl e2)
  by_cases e3 : off = 0x20002C
  · exact full (wide (rwAll none .hi) 0x20002C (by decide) rfl e3)
  by_cases e4 : 0x1000000 ≤ off ∧ off % 0x10000 = 0x714
  · exact full (rw_of_crcRef hi e4.1 e4.2)
  by_cases e5 : i.half = .hi ∧ i.dom.isSome = true
  · exact full (rw_of_hi_protected hi e5.1 e5.2)
  have e4' : (decide (0x1000000 ≤ off) && decide (off % 0x10000 = 0x714)) = false := by simpa using e4
  have hd : i.half = .hi → i.dom.isSome = false := by simpa using e5
  simp only [writeReg, hi, writeHi, if_neg e1, if_neg e2, if_neg e3, e4', Bool.false_eq_true, if_false, and_eq_of_xor_and h hwo, and_eq_of_xor_and h hrw, storeBits_congr _ _ h]
  split
  · rfl
  · split
    · simp_all
    · split
      · simp_all
      · rfl

theorem execRegWrite_congr {v : View} {off o : Nat} {i : RegInfo} {x y : Word} {s : State} (ho : viewOff s v off = some o) (hi : regInfo o = some i)
    (hl : i.half ≠ .lo) (h : (x ^^^ y) &&& i.written = 0) : execRegWrite v off x s = execRegWrite v off y s := by
  simp only [execRegWrite, viewWrite, ho, writeReg_congr s _ hi hl h]

/-! ### Offsets without a mailbox or a doorbell -/

theorem mailboxBusy_low {s : State} {off : Nat} (h : off < 0x2000) : mailboxBusy s off = false := by
  unfold mailboxBusy
  simp only
  repeat' split
  all_goals simp_all <;> omega

theorem deafDoorbell_low {s : State} {off : Nat} (h : off < 0x1000000) : deafDoorbell s off = false := by
  simp [deafDoorbell]; omega

/-! ### Writes by access type (R13, R14, R816, R817, R822, R825) -/

theorem viewOff_pf {s : State} {off : Nat} (h : off % 4 = 0) : viewOff s .pf off = some off := by simp [viewOff, h]

/-- What a plain write stores. -/
theorem getReg_storeBits (s : State) (off : Nat) (i : RegInfo) (v : Word) : getReg (storeBits s off i v) off =
    ((((getReg s off &&& ~~~(i.rw ||| i.rws)) ||| (v &&& (i.rw ||| i.rws))) &&& ~~~(v &&& i.w1c &&& ~~~heldSet s off)) ||| (v &&& i.w1s)) :=
  getReg_setReg_same ..

/-- Without W1C and W1S bits, RW and RWS bits alone take the value. -/
theorem getReg_storeBits_rw (s : State) (off : Nat) {i : RegInfo} (v : Word) (hc : i.w1c = 0) (hs : i.w1s = 0) :
    getReg (storeBits s off i v) off = (getReg s off &&& ~~~(i.rw ||| i.rws)) ||| (v &&& (i.rw ||| i.rws)) := by
  have h1 (w : Word) : w &&& 4294967295#32 = w := BitVec.and_allOnes
  simp [getReg_storeBits, hc, hs, h1]

theorem storeBits_unchanged (s : State) (off : Nat) (i : RegInfo) (v : Word) : RegsUnchanged [off] s (storeBits s off i v) := setReg_unchanged s off _

/-- A plain register outside the rings stores its bits. -/
theorem writeReg_plain {s : State} {off : Nat} {i : RegInfo} {v : Word} (hi : regInfo off = some i) (hlt : off < 0x1000) (hne : off ≠ 0x304)
    (hh : i.half = .single) (hd : i.dom = none) (hw : i.wo = 0) : writeReg s false off v = storeBits s off i v := by
  have hv : off ≠ 0x200024 ∧ ¬ 0x1000 ≤ off ∧ ¬ 0x1000000 ≤ off ∧ off ≠ pfTelRing + 0x10 := by unfold pfTelRing; omega
  obtain ⟨h1, h2, h3, h4⟩ := hv
  simp [writeReg, hi, mailboxBusy_low (s := s) (off := off) (by omega), deafDoorbell_low (s := s) (off := off) (by omega), hh, hd, hw, hne, h1, h2, h3, h4]

/-- A commit-protected single register takes the value in its shadow. -/
theorem writeReg_protected {s : State} {off : Nat} {i : RegInfo} {v : Word} (hi : regInfo off = some i) (hlt : off < 0x2000) (hne : off ≠ 0x304)
    (hh : i.half = .single) (hd : i.dom.isSome = true) (hw : i.wo = 0) :
    writeReg s false off v = shadowPut s off ((getReg s off &&& ~~~i.rw) ||| (v &&& i.rw)) := by
  have hv : off ≠ 0x200024 ∧ ¬ 0x1000000 ≤ off := by omega
  obtain ⟨h1, h2⟩ := hv
  simp [writeReg, hi, mailboxBusy_low hlt, deafDoorbell_low (s := s) (off := off) (by omega), hh, hd, hw, hne, h1, h2]

/-- The lower half of a pair goes to its latch (R816). -/
theorem writeReg_lo {s : State} {vf : Bool} {off : Nat} {i : RegInfo} {v : Word} (hi : regInfo off = some i) (hh : i.half = .lo)
    (hm : mailboxBusy s off = false) (hd : deafDoorbell s off = false) (h7 : vf = true → off % 0x10000 ≠ 0x718) : writeReg s vf off v = latchSet s off v := by
  have h : (vf && off % 0x10000 == 0x718) = false := by cases vf <;> simp_all
  simp [writeReg, hi, hm, hd, h, hh]

/-- The upper half of a pair applies both halves (R816, R817). -/
theorem writeReg_hi {s : State} {vf : Bool} {off : Nat} {i : RegInfo} {v : Word} (hi : regInfo off = some i) (hh : i.half = .hi)
    (hm : mailboxBusy s off = false) (hd : deafDoorbell s off = false) (h7 : vf = true → off % 0x10000 ≠ 0x718) : writeReg s vf off v = writeHi s off i v := by
  have h : (vf && off % 0x10000 == 0x718) = false := by cases vf <;> simp_all
  simp [writeReg, hi, hm, hd, h, hh]

/-- The state whose latch of a pair is taken. -/
def latchTaken (s : State) (lo : Nat) : State := s.modRegs fun r => { r with latch := sdel r.latch lo }

theorem latchTaken_only {pl : List Part} {sb s : State} {lo : Nat} (h : Within pl sb s) (hp : [.regs] ⊆ pl) : Within pl sb (latchTaken s lo) := modRegs_only h hp

theorem writeHi_protected {s : State} {off : Nat} {i : RegInfo} {v : Word} (hd : i.dom.isSome = true) (hne : off ≠ 0x20002C) :
    writeHi s off i v = shadowPut (shadowPut (latchTaken s (off - 4)) (off - 4)
      (((s.regs.latch.find? (·.1 == off - 4)).map (·.2)).getD (shadowOr s (off - 4)))) off v := by
  simp [writeHi, hd, hne, latchTaken]

theorem writeHi_plain {s : State} {off : Nat} {i k : RegInfo} {v : Word} (hd : i.dom = none) (hne : off ≠ 0x20002C) (hk : regInfo (off - 4) = some k) :
    writeHi s off i v = storeBits (setReg (latchTaken s (off - 4)) (off - 4)
      ((((s.regs.latch.find? (·.1 == off - 4)).map (·.2)).getD (getReg s (off - 4))) &&& (k.rw ||| k.rws))) off i v := by
  simp [writeHi, hd, hne, hk, latchTaken]

theorem execPairLoWrite_of {v : View} {off o : Nat} {i : RegInfo} {x : Word} {s : State} (ho : viewOff s v off = some o) (hi : regInfo o = some i)
    (hh : i.half = .lo) : execPairLoWrite v off x s = .next (writeReg s (v != .pf) o x) := by
  simp [execPairLoWrite, viewWrite, ho, hi, hh]

theorem execPairHiWrite_of {v : View} {off o : Nat} {i : RegInfo} {x : Word} {s : State} (ho : viewOff s v off = some o) (hi : regInfo o = some i)
    (hh : i.half = .hi) : execPairHiWrite v off x s = .next (writeReg s (v != .pf) o x) := by
  simp [execPairHiWrite, viewWrite, ho, hi, hh]

/-! ### Writes of one bit (R819, R822) -/

/-- A word with one bit at its target. -/
def putBit (w : Word) (b : Nat) (one : Bool) : Word := if one then w ||| (1#32 <<< b) else w &&& ~~~(1#32 <<< b)

/-- A word of the PF's bit-wise view (R822) names a register below 0x1000, aligned, and one of its bits. -/
theorem aliasOf_pf {s : State} {off o b : Nat} (h : aliasOf s .pf off = some (o, b)) : o < 0x1000 ∧ o % 4 = 0 ∧ b < 32 := by
  simp only [aliasOf] at h
  split at h
  · rename_i hc
    simp only [Bool.and_eq_true, decide_eq_true_eq] at hc
    simp only [Option.some.injEq, Prod.mk.injEq] at h
    omega
  · simp at h

/-- A mask that has a bit takes the whole of a change of that bit. -/
theorem store_putBit {g m : Word} {b : Nat} (one : Bool) (h : m &&& (1#32 <<< b) ≠ 0) : (g &&& ~~~m) ||| (putBit g b one &&& m) = putBit g b one := by
  have hb : ∀ j (hj : j < 32), (1#32 <<< b)[j] = true → m[j] = true := by
    intro j hj e
    by_contra hm
    apply h
    ext k hk
    simp at e hm ⊢
    have hkj : (k < b ∨ ¬ k = b) ∨ k = b := by omega
    grind
  ext j hj
  have := hb j hj
  unfold putBit
  split <;> simp at this ⊢ <;> grind

/-- A bit of an RW or RWS register outside the rings takes the target and its neighbours keep their values (R822). -/
theorem writeBit_plain {s : State} {off b : Nat} {i : RegInfo} {one : Bool} (hi : regInfo off = some i) (hlt : off < 0x1000) (hne : off ≠ 0x304)
    (hh : i.half = .single) (hd : i.dom = none) (hw : i.wo = 0) (hs : i.w1s = 0) (hc : i.w1c = 0) (hb : (i.rw ||| i.rws) &&& (1#32 <<< b) ≠ 0) :
    writeBit s false off b one = storeBits s off i (putBit (getReg s off) b one) := by
  have h1 : ¬ 0x1000000 ≤ off := by omega
  have h2 := writeReg_plain (s := s) (v := putBit (getReg s off) b one) hi hlt hne hh hd hw
  have hb' : ¬ (i.rw ||| i.rws) &&& (1#32 <<< b) = 0#32 := hb
  simp only [putBit] at h2 ⊢
  simp [writeBit, hi, hc, hs, hw, hb', hne, h1, hd, h2]

theorem writeBit_w1c {s : State} {vf : Bool} {off b : Nat} {i : RegInfo} {one : Bool} (hi : regInfo off = some i) (hc : i.w1c &&& (1#32 <<< b) ≠ 0) :
    writeBit s vf off b one = if one then s else setReg s off (getReg s off &&& ~~~((1#32 <<< b) &&& ~~~heldSet s off)) := by
  have hc' : ¬ i.w1c &&& (1#32 <<< b) = 0#32 := hc
  simp [writeBit, hi, hc']

/-- A bit-wise write of a bit that no write concerns does nothing. -/
theorem writeBit_none {s : State} {vf : Bool} {off b : Nat} {i : RegInfo} {one : Bool} (hi : regInfo off = some i)
    (h : (i.w1c ||| i.w1s ||| i.wo ||| i.rw ||| i.rws) &&& (1#32 <<< b) = 0) : writeBit s vf off b one = s := by
  have h' : (i.w1c &&& (1#32 <<< b)) = 0 ∧ ((i.w1s ||| i.wo) &&& (1#32 <<< b)) = 0 ∧ ((i.rw ||| i.rws) &&& (1#32 <<< b)) = 0 := by
    have k (j : Nat) (hj : j < 32) := congrArg (·[j]) h
    refine ⟨?_, ?_, ?_⟩ <;> ext j hj <;> have := k j hj <;> simp at this ⊢ <;> grind
  obtain ⟨h1, h2, h3⟩ := h'
  simp [writeBit, hi, h1, h2, h3]

end Sys2Proof.Machine

open Sys2Proof Sys2Proof.Machine

/-- Settles O1. -/
theorem stepTakesFront : Obligations.StepTakesFront := by
  unfold Obligations.StepTakesFront
  exact ⟨fun c s => step_cons rfl, fun s h => step_nil h⟩

/-- Settles O11: the masks of every branch of a write are parts of the written fields, and where a branch takes the whole word the register
has no reserved bit. -/
theorem reservedFields : Obligations.ReservedFields := by
  unfold Obligations.ReservedFields
  refine ⟨fun v off o i x y s ho hi hl h => ?_, fun off i hi hh hne => mask_of_lo hi hh hne, fun x h s => ?_⟩
  · simpa using execRegWrite_congr ho hi hl h
  · have hi : regInfo 0x100020 = some { rw := 0xFFFFF000, half := .lo } := by decide
    have hk : regInfo 0x100024 = some (rwAll none .hi) := by decide
    have hm (t : State) : mailboxBusy t 0x100020 = false ∧ mailboxBusy t 0x100024 = false := by simp [mailboxBusy]
    have hd (t : State) (o : Nat) (ho : o < 0x1000000) := deafDoorbell_low (s := t) ho
    refine ⟨latchSet s 0x100020 x, _, ?_, execPairHiWrite_of (viewOff_pf (by decide)) hk rfl, RegsUnchanged.of_store (l := []) rfl _ (by simp), ?_, ?_⟩
    · exact (execPairLoWrite_of (viewOff_pf (by decide)) hi rfl).trans (by rw [writeReg_lo hi rfl (hm s).1 (hd s _ (by decide)) (by simp)])
    · rw [writeReg_hi hk rfl (hm _).2 (hd _ _ (by decide)) (by simp), writeHi_plain rfl (by decide) hi]
      refine (storeBits_unchanged _ _ _ _ _ (by decide)).trans ((getReg_setReg_same ..).trans ?_)
      simp [latchSet, find?_sput_same]
    · rw [writeReg_hi hk rfl (hm _).2 (hd _ _ (by decide)) (by simp), writeHi_plain rfl (by decide) hi, getReg_storeBits_rw _ _ _ rfl rfl]
      have h1 : (rwAll none .hi).rw ||| (rwAll none .hi).rws = BitVec.allOnes 32 := by decide
      rw [h1, BitVec.and_allOnes, BitVec.not_allOnes, BitVec.and_zero, BitVec.zero_or]

/-- Settles O14, clause by clause from what a write of each kind of register stores. -/
theorem registerWrites : Obligations.RegisterWrites := by
  unfold Obligations.RegisterWrites
  refine ⟨?_, ?_, ?_, ?_, ?_, ?_, ?_, ?_, ?_, ?_, ?_⟩
  · intro off i v s hi hlt h4 hne hh hd hw
    have he : exec (.regWrite .pf off v) s = .next (storeBits s off i v) := by
      simp [execRegWrite, viewWrite, viewOff_pf h4, writeReg_plain hi hlt hne hh hd hw]
    exact .of_within he ⟨getReg_storeBits .., storeBits_unchanged s off i v⟩ (storeBits_only (.refl ..) (List.Subset.refl _))
  · intro off i v s hi hlt h4 hh hd hw
    have hne : off ≠ 0x304 := by
      rintro rfl
      cases hi.symm.trans (show regInfo 0x304 = some rwAll by decide)
      cases hd
    have he : exec (.regWrite .pf off v) s = .next (shadowPut s off ((getReg s off &&& ~~~i.rw) ||| (v &&& i.rw))) := by
      simp [execRegWrite, viewWrite, viewOff_pf h4, writeReg_protected hi hlt hne hh hd hw]
    have hc (w : Word) : clampReg off w = w := by simp [clampReg]; omega
    exact .of_within he ⟨by rw [shadowOr_shadowPut_same, hc], .of_store rfl⟩ (shadowPut_only (.refl ..) (List.Subset.refl _))
  · intro off v s hi
    refine .of_same ?_ rfl
    simp only [exec_regWrite, execRegWrite, viewWrite]
    split
    · rename_i o ho
      obtain rfl : off = o := by simp [viewOff] at ho; exact ho.2
      simp [writeReg, hi]
    · rfl
  · intro p off v s hb
    exact .of_same (by simp [execRegWrite, viewWrite, viewOff, hb]) rfl
  · intro off o b i v s ha hi hne hh hd hw hs hc hb
    obtain ⟨hlt, -, -⟩ := aliasOf_pf ha
    have he : exec (.aliasWrite .pf off v) s = .next (storeBits s o i (putBit (getReg s o) b (v.getLsbD 0))) := by
      simp [execAliasWrite, ha, writeBit_plain hi hlt hne hh hd hw hs hc hb]
    refine .of_within he ⟨?_, storeBits_unchanged s o i _⟩ (storeBits_only (.refl ..) (List.Subset.refl _))
    rw [getReg_storeBits_rw _ _ _ hc hs, store_putBit _ hb]
    rfl
  · intro off o b i v s ha hi hc
    have he := fun (one : Bool) (h1 : v.getLsbD 0 = one) => show exec (.aliasWrite .pf off v) s = .next _ by
      simp only [exec_aliasWrite, execAliasWrite, ha, writeBit_w1c hi hc, h1]; rfl
    cases h1 : v.getLsbD 0 with
    | true => exact .of_same (he true h1) ⟨by simp, fun _ _ => rfl⟩
    | false => exact .of_within (he false h1) ⟨by simp, setReg_unchanged s o _⟩ (setReg_only (.refl ..) (List.Subset.refl _))
  · intro off o b i v s ha hi h
    exact .of_same (by simp [execAliasWrite, ha, writeBit_none hi h]) rfl
  · intro v off x s ha
    exact .of_same (by simp [execAliasWrite, ha]) rfl
  · intro v off o i x s ho hi hh hm hd h7
    have he : exec (.pairLoWrite v off x) s = .next (latchSet s o x) := by
      rw [exec_pairLoWrite, execPairLoWrite_of ho hi hh, writeReg_lo hi hh hm hd fun _ => h7]
    exact .of_within he ⟨latchGet_latchSet_same .., .of_store rfl, rfl⟩ (latchSet_only (.refl ..) (List.Subset.refl _))
  · intro v off o i x s ho hi hh hd h4 hne hm hdb h7
    have he := execPairHiWrite_of (x := x) ho hi hh
    rw [writeReg_hi hi hh hm hdb fun _ => h7, writeHi_protected hd hne] at he
    refine .of_within he ⟨shadowOr_shadowPut_same .., ?_, .of_store rfl⟩
      (shadowPut_only (shadowPut_only (latchTaken_only (.refl ..) (List.Subset.refl _)) (List.Subset.refl _)) (List.Subset.refl _))
    rw [shadowOr_shadowPut_other _ _ (by omega), shadowOr_shadowPut_same]
  · intro off i k x s h4 hi hh hd h4' hne hk hc hs hm hdb
    have he := execPairHiWrite_of (x := x) (viewOff_pf (s := s) h4) hi hh
    rw [writeReg_hi hi hh hm hdb (by simp), writeHi_plain hd hne hk] at he
    have hlo : off - 4 ≠ off := by omega
    refine .of_within he ⟨?_, ?_, fun o ho => ?_⟩ (storeBits_only (setReg_only (latchTaken_only (.refl ..) (List.Subset.refl _)) (List.Subset.refl _)) (List.Subset.refl _))
    · rw [getReg_storeBits_rw _ _ _ hc hs, getReg_setReg_other _ _ hlo.symm]
      rfl
    · rw [storeBits_unchanged _ _ _ _ _ (by simpa using hlo), getReg_setReg_same]
    · simp only [List.mem_cons, List.not_mem_nil, or_false, not_or] at ho
      rw [storeBits_unchanged _ _ _ _ _ (by simpa using ho.2), getReg_setReg_other _ _ ho.1]
      rfl
end

section
/-! PROOFS. Obligation O48: the queue-pair mailbox (R9, R154, R707-R711). -/

namespace Sys2Proof.Machine
open Sys2Proof

/-! ### Bit fields of a mailbox -/

/-- Replacing a field puts the new value there. -/
theorem bits_replace (w v l n : Nat) : bits (w - bits w l n * 2 ^ l + v % 2 ^ n * 2 ^ l) l n = v % 2 ^ n := by
  unfold bits
  have hw : w = 2 ^ l * (2 ^ n * (w / 2 ^ l / 2 ^ n) + w / 2 ^ l % 2 ^ n) + w % 2 ^ l := by
    rw [Nat.div_add_mod, Nat.div_add_mod]
  have hs : w - w / 2 ^ l % 2 ^ n * 2 ^ l + v % 2 ^ n * 2 ^ l = w % 2 ^ l + 2 ^ l * (v % 2 ^ n + 2 ^ n * (w / 2 ^ l / 2 ^ n)) := by
    generalize w / 2 ^ l / 2 ^ n = h, w / 2 ^ l % 2 ^ n = f, w % 2 ^ l = r, v % 2 ^ n = g at hw ⊢
    rw [hw, Nat.mul_add, Nat.mul_add, Nat.mul_comm f, Nat.mul_comm g]
    omega
  rw [hs, Nat.add_mul_div_left _ _ (by positivity), Nat.div_eq_of_lt (Nat.mod_lt _ (by positivity)), Nat.zero_add, Nat.add_mul_mod_self_left, Nat.mod_mod]

/-- A field that lies below bit `m` does not see what lies from bit `m` on. -/
theorem bits_mod (x : Nat) {l n m : Nat} (h : l + n ≤ m) : bits (x % 2 ^ m) l n = bits x l n := by
  unfold bits
  have hm : 2 ^ m = 2 ^ l * 2 ^ (m - l) := by rw [← Nat.pow_add]; congr 1; omega
  rw [hm, Nat.mod_mul_right_div_self, Nat.mod_mod_of_dvd _ (Nat.pow_dvd_pow 2 (by omega))]

/-- A field written within one word of a mailbox reads back. -/
theorem bits_mbxPut (s : State) (off lo n v : Nat) {o l : Nat} (ho : o = off + 4 * (lo / 32)) (hl : l = lo % 32) (h : l + n ≤ 32) :
    bits (getReg (mbxPut s off lo n v) o).toNat l n = v % 2 ^ n := by
  subst ho hl
  simp only [mbxPut, getReg_setReg_same, BitVec.toNat_ofNat]
  rw [bits_mod _ h, bits_replace]

theorem getReg_mbxPut_other (s : State) (off lo n v : Nat) {o : Nat} (h : o ≠ off + 4 * (lo / 32)) : getReg (mbxPut s off lo n v) o = getReg s o :=
  getReg_setReg_other _ _ h

/-! ### The answer of the queue-pair mailbox -/

theorem mbxQp_lt_mbxCtl (v : View) : mbxQp v + 64 ≤ mbxCtl v := by
  cases v <;> simp [mbxQp, mbxCtl]

/-- The answer stands in STATUS, and GO is clear (R707). -/
theorem qpAnswered_qpAnswer (s : State) (v : View) {st : Nat} (h : st < 256) : qpAnswered (qpAnswer s v st) v st := by
  have hne : mbxQp v ≠ mbxCtl v := by have := mbxQp_lt_mbxCtl v; omega
  constructor
  · simp only [qpAnswer, mbxDone]
    rw [getReg_setReg_other _ _ hne, bits_mbxPut _ _ _ _ _ (by simp) (by decide) (by decide)]
    exact Nat.mod_eq_of_lt h
  · simp [qpAnswer, mbxDone]

/-- The answer changes no other register. -/
theorem getReg_qpAnswer_other (s : State) (v : View) (st : Nat) {o : Nat} (h1 : o ≠ mbxQp v) (h2 : o ≠ mbxCtl v) : getReg (qpAnswer s v st) o = getReg s o := by
  simp only [qpAnswer, mbxDone]
  rw [getReg_setReg_other _ _ h2, getReg_mbxPut_other _ _ _ _ _ (by simpa using h1)]

@[simp] theorem qpAnswer_px (s : State) (v : View) (st : Nat) : (qpAnswer s v st).px = s.px := rfl
@[simp] theorem qpAnswer_out (s : State) (v : View) (st : Nat) : (qpAnswer s v st).out = s.out := rfl
@[simp] theorem mbxPut_px (s : State) (off lo n v : Nat) : (mbxPut s off lo n v).px = s.px := rfl

/-- Every command that the mailbox answers and that touches nothing else. -/
theorem Does.of_qpAnswer {c : Instr} {s : State} {v : View} {st : Nat} (he : exec c s = .next (qpAnswer s v st)) (h : st < 256) :
    Does c s [.regs] fun t => qpAnswered t v st :=
  .of_within he (qpAnswered_qpAnswer s v h) (qpAnswer_only (.refl ..) (List.Subset.refl _))

/-! ### Which commands a mailbox takes (R9, R154) -/

/-- A command of an OP that stands in the mailbox for a partition that may name it is carried out. -/
theorem qpCommand_go {v : View} {op x : Nat} {s : State} {act : Nat → State → State} (h : qpGo s v op x) : qpCommand v op s act = .next (act x s) := by
  obtain ⟨hgo, hx, hop, hp, hr⟩ := h
  simp only [qpCommand, ← hx, hop, hr, hgo]
  cases v with
  | pf => simp [viewPtn]
  | vf p => simp [viewPtn, hp p rfl]

/-- A window that names another partition is refused (R154). -/
theorem qpCommand_denied {v : View} {op x p : Nat} {s : State} {act : Nat → State → State} (hgo : mbxGo s v 2 = true) (hx : x = mbxRead s (mbxQp v) 16)
    (hop : bits x 0 8 = op) (hv : viewPtn v = some p) (hp : p ≠ qcPtn x) : qpCommand v op s act = .next (qpAnswer (countAccess s p) v stACCESS) := by
  simp only [qpCommand, ← hx, hop, hgo, hv]
  simp [hp]

/-- A mailbox whose GO is clear does nothing. -/
theorem qpCommand_idle {v : View} {op : Nat} {s : State} {act : Nat → State → State} (hgo : mbxGo s v 2 = false) : qpCommand v op s act = .next s := by
  simp [qpCommand, hgo]

/-! ### Queue pairs by index -/

theorem find?_updIf_same {l : List Qp} {ix : Nat} {f : Qp → Qp} (hf : ∀ q, (f q).ix = q.ix) :
    (updIf (·.ix == ix) f l).find? (·.ix == ix) = (l.find? (·.ix == ix)).map f := by
  induction l with
  | nil => rfl
  | cons q r ih =>
    simp only [updIf] at ih
    by_cases h : q.ix = ix
    · simp [updIf, h, hf]
    · have hb : (q.ix == ix) = false := by simpa using h
      simp only [updIf, List.map_cons, hb, List.find?_cons, Bool.false_eq_true, if_false, ih]

theorem find?_updIf_other {l : List Qp} {ix k : Nat} {f : Qp → Qp} (hf : ∀ q, (f q).ix = q.ix) (h : k ≠ ix) :
    (updIf (·.ix == ix) f l).find? (·.ix == k) = l.find? (·.ix == k) := by
  induction l with
  | nil => rfl
  | cons q r ih =>
    simp only [updIf] at ih
    have hi : ((if q.ix == ix then f q else q).ix == k) = (q.ix == k) := by split <;> simp [hf]
    by_cases e : q.ix = k
    · simp [updIf, h, e]
    · have hb : (q.ix == k) = false := by simpa using e
      simp only [updIf, List.map_cons, List.find?_cons, hi, hb, ih]

theorem findQp_modQp_same (s : State) (ix : Nat) {f : Qp → Qp} (hf : ∀ q, (f q).ix = q.ix) : findQp (modQp s ix f) ix = (findQp s ix).map f :=
  find?_updIf_same hf

theorem findQp_modQp_other (s : State) {ix k : Nat} {f : Qp → Qp} (hf : ∀ q, (f q).ix = q.ix) (h : k ≠ ix) : findQp (modQp s ix f) k = findQp s k :=
  find?_updIf_other hf h

theorem findQp_of_px {s t : State} (h : t.px.qps = s.px.qps) (k : Nat) : findQp t k = findQp s k := by simp only [findQp, h]

@[simp] theorem findQp_qpAnswer (s : State) (v : View) (st k : Nat) : findQp (qpAnswer s v st) k = findQp s k := rfl

theorem findQp_ix {s : State} {k : Nat} {q : Qp} (h : findQp s k = some q) : q.ix = k := by
  simpa using List.find?_some h

/-- The queue pair that a command names is found by its own index. -/
theorem findQp_of_qcFind {s : State} {x st : Nat} {q : Qp} (h : qcFind s x = (st, some q)) : findQp s q.ix = some q := by
  unfold qcFind at h
  split at h
  · simp at h
  · split at h
    · simp at h
    · rename_i hq
      split at h
      · obtain ⟨-, rfl⟩ := by simpa using h
        rwa [findQp_ix hq]
      · simp at h

theorem qcFind_status_lt {s : State} {x st : Nat} {o : Option Qp} (h : qcFind s x = (st, o)) : st < 256 := by
  have h1 : (qcFind s x).1 < 256 := by
    unfold qcFind
    split
    · decide
    · split
      · decide
      · split <;> exact of_decide_eq_true rfl
  rwa [h] at h1

/-- A field of the mailbox beyond its first word reads back after the answer. -/
theorem bits_answered (s : State) (v : View) {lo n val st o l : Nat} (ho : o = mbxQp v + 4 * (lo / 32)) (hl : l = lo % 32) (h : l + n ≤ 32)
    (h1 : 32 ≤ lo) (h2 : lo < 512) : bits (getReg (qpAnswer (mbxPut s (mbxQp v) lo n val) v st) o).toNat l n = val % 2 ^ n := by
  have := mbxQp_lt_mbxCtl v
  rw [getReg_qpAnswer_other _ _ _ (by omega) (by omega), bits_mbxPut _ _ _ _ _ ho hl h]

/-! ### The context cache leaves queue pairs what they are (R717, R720) -/

/-- What a queue pair is but for its place in the context cache. -/
def Qp.kept (q : Qp) : Qp := { q with cached := true, version := 0 }

/-- Two states have the same queue pairs but for the context cache. -/
def SameQps (s t : State) : Prop := t.px.qps.map Qp.kept = s.px.qps.map Qp.kept

theorem sameQps_modQp (s : State) (ix : Nat) {f : Qp → Qp} (hf : ∀ q, (f q).kept = q.kept) : SameQps s (modQp s ix f) := by
  simp only [SameQps, modQp, State.modPx_px, updIf, List.map_map]
  refine List.map_congr_left fun y _ => ?_
  simp only [Function.comp]
  split <;> simp [hf]

/-- A victim that leaves the context cache changes which contexts are cached and their versions alone (R720). -/
theorem sameQps_writeBack (s : State) (q : Qp) : SameQps s (writeBack s q) :=
  have h : (writeBack s q).px.qps = (modQp s q.ix fun q => { q with cached := false, version := q.version + 1 }).px.qps := rfl
  (congrArg (List.map Qp.kept) h).trans (sameQps_modQp s q.ix fun _ => rfl)

/-- Making room in the context cache keeps the queue pairs but for their place in it. -/
theorem sameQps_cacheRoom {s t : State} {die : Nat} (h : cacheRoom s die = some t) : SameQps s t := by
  unfold cacheRoom at h
  simp only at h
  split at h
  · obtain rfl := Option.some.inj h
    rfl
  · obtain ⟨q, -, rfl⟩ := Option.map_eq_some_iff.mp h
    exact sameQps_writeBack s q

theorem SameQps.findQp {s t : State} (h : SameQps s t) (k : Nat) : (findQp t k).map Qp.kept = (findQp s k).map Qp.kept := by
  have hf (u : State) : (Machine.findQp u k).map Qp.kept = (u.px.qps.map Qp.kept).find? (·.ix == k) := by rw [List.find?_map]; rfl
  rw [hf, hf, h]

/-! ### QP_CREATE (R708, R710, R717) -/

/-- A new queue pair stands last, in RESET, for its partition (R708). -/
theorem newQp_spec {s u : State} {p die : Nat} {q : Qp} (h : newQp s p die = some (q, u)) :
    q.ptn = p ∧ q.state = 0 ∧ ∃ l, u.px.qps = l ++ [q] ∧ l.length = s.px.qps.length := by
  unfold newQp at h
  simp only at h
  split at h
  · simp at h
  · split at h
    · rename_i t ht
      obtain ⟨rfl, rfl⟩ := by simpa using h
      exact ⟨rfl, rfl, t.px.qps, rfl, by simpa using congrArg List.length (sameQps_cacheRoom ht)⟩
    · obtain ⟨rfl, rfl⟩ := by simpa using h
      exact ⟨rfl, rfl, s.px.qps, rfl, rfl⟩

theorem execQpCreate_plain {v : View} {x : Nat} {q : Qp} {s u : State} (hgo : qpGo s v 1 x) (hc : bit x 21 = false)
    (hn : newQp s (qcPtn x) 0 = some (q, u)) : execQpCreate v s = .next (qpAnswer (mbxPut u (mbxQp v) 32 24 (qpNum q)) v stOK) := by
  rw [execQpCreate, qpCommand_go hgo]
  simp [hc, hn]

theorem execQpCreate_none {v : View} {x : Nat} {s : State} (hgo : qpGo s v 1 x) (hc : bit x 21 = false) (hn : newQp s (qcPtn x) 0 = none) :
    execQpCreate v s = .next (qpAnswer s v stBUSY) := by
  rw [execQpCreate, qpCommand_go hgo]
  simp [hc, hn]

/-- A queue pair that CONNECT sets up (R710). -/
def connecting (s : State) (x : Nat) (q : Qp) : Qp :=
  { q with
    port := bits x 63 5, subport := bits x 68 2, prio := bits x 59 3, mtu := bits x 70 3, timeout := bits x 73 5, retry := bits x 78 3,
    destGid := bits x 192 128, sqPsn := bits x 120 24, rqPsn := bits x 144 24, serviceId := bits x 320 64, cm := 1, rate := subRate s (bits x 63 5), rateT := subRate s (bits x 63 5) }

theorem execQpCreate_connect {v : View} {x : Nat} {q : Qp} {s u : State} (hgo : qpGo s v 1 x) (hc : bit x 21 = true) (hh : qpHard s = true)
    (hp : portOk s x = true) (hm : bits x 70 3 ≠ 0) (hm' : bits x 70 3 ≤ 5) (ht : bits x 73 5 ≠ 0) (hn : newQp s (qcPtn x) (bits x 63 5 / 8) = some (q, u)) :
    execQpCreate v s = .next (qpAnswer (sendCm (modQp (mbxPut u (mbxQp v) 32 24 (qpNum q)) q.ix (connecting s x)) (bits x 63 5) (bits x 192 128) 0
      [qpNum q, bits x 120 24, bits x 320 64, bits x 70 3]) v stOK) := by
  have hm5 : ¬ 5 < bits x 70 3 := by omega
  rw [execQpCreate, qpCommand_go hgo]
  simp only [hc, if_true, hn]
  simp [hh, hp, hm, hm5, ht]
  rfl

/-! ### QP_MODIFY (R709, R717) -/

/-- A queue pair that INIT sets up on a port. -/
def toInit (s : State) (x : Nat) (q : Qp) : Qp :=
  { q with
    state := 1, port := bits x 63 5, subport := bits x 68 2, prio := bits x 59 3, rate := subRate s (bits x 63 5), rateT := subRate s (bits x 63 5), alpha := 65536, steps := 0,
    cached := q.cached && bits x 63 5 / 8 == homeDie q }

/-- INIT answers OK once the context stands with the cache of its home die. -/
theorem execQpModify_init {v : View} {x : Nat} {q : Qp} {s : State} (hgo : qpGo s v 2 x) (hq : qcFind s x = (0, some q)) (hs : q.state = 0)
    (hw : bits x 56 3 = 1) (hp : portOk s x = true) :
    ∃ t, execQpModify v s = .next (qpAnswer t v stOK) ∧ SameQps (modQp s q.ix (toInit s x)) t := by
  rw [execQpModify, qpCommand_go hgo]
  simp only [hq, hs, hw, hp, Bool.not_true, Bool.false_eq_true, if_false]
  refine ⟨_, rfl, ?_⟩
  change SameQps (modQp s q.ix (toInit s x)) (if _ then (match cacheRoom (modQp s q.ix (toInit s x)) _ with | some t => _ | none => _) else _)
  split
  · split
    · rename_i t ht
      exact Eq.trans (sameQps_modQp t q.ix fun _ => rfl) (sameQps_cacheRoom ht)
    · rfl
  · rfl

theorem execQpModify_rtr {v : View} {x : Nat} {q : Qp} {s : State} (hgo : qpGo s v 2 x) (hq : qcFind s x = (0, some q)) (hs : q.state = 1)
    (hw : bits x 56 3 = 2) (hm : bits x 70 3 ≠ 0) (hm' : bits x 70 3 ≤ 5) : execQpModify v s = .next (qpAnswer (modQp s q.ix fun q => { q with
      state := 2, destQp := bits x 96 24, destGid := bits x 192 128, rqPsn := bits x 144 24, mtu := bits x 70 3 }) v stOK) := by
  have hm5 : ¬ 5 < bits x 70 3 := by omega
  rw [execQpModify, qpCommand_go hgo]
  simp only [hq, hs, hw]
  simp [hm, hm5]

/-- A queue pair without operations has nothing to send. -/
theorem gwGo_of_no_ops {s : State} {ix : Nat} {q : Qp} (hq : findQp s ix = some q) (ho : q.ops = []) : gwGo s ix = s := by
  simp [gwGo, gwSend, hq, ho]

/-- A queue pair that RTS sets up. -/
def toRts (x : Nat) (q : Qp) : Qp := { q with state := 3, sqPsn := bits x 120 24, timeout := bits x 73 5, retry := bits x 78 3 }

theorem execQpModify_rts {v : View} {x : Nat} {q : Qp} {s : State} (hgo : qpGo s v 2 x) (hq : qcFind s x = (0, some q)) (hs : q.state = 2)
    (hw : bits x 56 3 = 3) (ht : bits x 73 5 ≠ 0) (ho : q.ops = []) : execQpModify v s = .next (qpAnswer (modQp s q.ix (toRts x)) v stOK) := by
  have hf : findQp (modQp s q.ix (toRts x)) q.ix = some (toRts x q) := by
    rw [findQp_modQp_same _ _ (f := toRts x) fun _ => rfl, findQp_of_qcFind hq]; rfl
  rw [execQpModify, qpCommand_go hgo]
  simp only [hq, hs, hw]
  rw [if_neg (by simpa using ht)]
  exact congrArg (fun t => Host.Outcome.next (qpAnswer t v stOK)) (gwGo_of_no_ops hf ho)

theorem execQpModify_reset {v : View} {x : Nat} {q : Qp} {s : State} (hgo : qpGo s v 2 x) (hq : qcFind s x = (0, some q)) (hs : q.state = 4)
    (hw : bits x 56 3 = 0) : execQpModify v s = .next (qpAnswer (modQp s q.ix fun q => { q with state := 0, atomics := [], cm := 0 }) v stOK) := by
  rw [execQpModify, qpCommand_go hgo]
  simp only [hq, hs, hw]

theorem execQpModify_error {v : View} {x : Nat} {q : Qp} {s : State} (hgo : qpGo s v 2 x) (hq : qcFind s x = (0, some q)) (h1 : 1 ≤ q.state)
    (h3 : q.state ≤ 3) (hw : bits x 56 3 = 4) : execQpModify v s = .next (qpAnswer (qpError s q.ix none) v stOK) := by
  rw [execQpModify, qpCommand_go hgo]
  obtain hs | hs | hs : q.state = 1 ∨ q.state = 2 ∨ q.state = 3 := by omega
  all_goals simp only [hq, hs, hw]

/-- From RESET only INIT is possible (R709). -/
theorem execQpModify_refused {v : View} {x : Nat} {q : Qp} {s : State} (hgo : qpGo s v 2 x) (hq : qcFind s x = (0, some q)) (hs : q.state = 0)
    (hw : bits x 56 3 ≠ 1) : execQpModify v s = .next (qpAnswer s v stFORMAT) := by
  rw [execQpModify, qpCommand_go hgo]
  simp only [hq, hs]
  split <;> simp_all

/-! ### ERROR and QP_DESTROY (R709-R711) -/

/-- A queue pair in ERROR. -/
def errored (s : State) (q : Qp) : Qp :=
  { q with state := 4, ops := [], write_ := none, miss := [], cm := if q.cm = 3 && qpHard s then 4 else 0 }

theorem foldl_qpAnswer_px {α : Type} (view : α → View) (st : Nat) (l : List α) (s : State) :
    (l.foldl (fun s e => qpAnswer s (view e) st) s).px = s.px :=
  foldl_keep State.px _ (fun s e => qpAnswer_px s (view e) st) l s

theorem endDeregs_qps (s : State) : (endDeregs s).px.qps = s.px.qps := by
  rw [endDeregs, foldl_qpAnswer_px]; rfl

/-- A queue pair without operations enters ERROR, and no other changes. -/
theorem qpError_qps {s : State} {ix : Nat} {q : Qp} (hq : findQp s ix = some q) (ho : q.ops = []) :
    (qpError s ix none).px.qps = (modQp s ix (errored s)).px.qps := by
  simp only [qpError, hq, ho, List.filter_nil, List.foldl_nil, endDeregs_qps]
  split <;> rfl

theorem findQp_qpError_same {s : State} {ix : Nat} {q : Qp} (hq : findQp s ix = some q) (ho : q.ops = []) :
    findQp (qpError s ix none) ix = some (errored s q) := by
  rw [findQp_of_px (qpError_qps hq ho), findQp_modQp_same _ _ (f := errored s) fun _ => rfl, hq]; rfl

theorem findQp_qpError_other {s : State} {ix k : Nat} {q : Qp} (hq : findQp s ix = some q) (ho : q.ops = []) (h : k ≠ ix) :
    findQp (qpError s ix none) k = findQp s k := by
  rw [findQp_of_px (qpError_qps hq ho), findQp_modQp_other _ (f := errored s) (fun _ => rfl) h]

/-- Leaving out the queue pair of an index leaves the others. -/
theorem find?_filter_ix {l : List Qp} {ix k : Nat} (h : k ≠ ix) : (l.filter (·.ix != ix)).find? (·.ix == k) = l.find? (·.ix == k) := by
  rw [List.find?_filter]
  congr 1
  funext q
  by_cases e : q.ix = k <;> simp [e, h]

theorem execQpDestroy_of {v : View} {x : Nat} {q : Qp} {s : State} (hgo : qpGo s v 3 x) (hq : qcFind s x = (0, some q)) :
    execQpDestroy v s = .next (qpAnswer ((qpError s q.ix none).modPx fun y => { y with qps := y.qps.filter (·.ix != q.ix) }) v stOK) := by
  rw [execQpDestroy, qpCommand_go hgo]
  simp only [hq]

theorem execQpQuery_of {v : View} {x : Nat} {q : Qp} {s : State} (hgo : qpGo s v 4 x) (hq : qcFind s x = (0, some q)) :
    execQpQuery v s = .next (qpAnswer (mbxPut s (mbxQp v) 56 3 q.state) v stOK) := by
  rw [execQpQuery, qpCommand_go hgo]
  simp only [hq]

/-- A queue pair that is not there, or another partition's, is answered with the status that refuses it. -/
theorem exec_qpRefused {v : View} {x st : Nat} {s : State} (hq : qcFind s x = (st, none)) :
    (qpGo s v 2 x → execQpModify v s = .next (qpAnswer s v st)) ∧ (qpGo s v 3 x → execQpDestroy v s = .next (qpAnswer s v st)) ∧
    (qpGo s v 4 x → execQpQuery v s = .next (qpAnswer s v st)) := by
  refine ⟨fun h => ?_, fun h => ?_, fun h => ?_⟩
  · rw [execQpModify, qpCommand_go h]; simp only [hq]
  · rw [execQpDestroy, qpCommand_go h]; simp only [hq]
  · rw [execQpQuery, qpCommand_go h]; simp only [hq]

/-! ### Memory regions (R711) -/

/-- There is a number from 0 to the length of a list that the list does not hold. -/
theorem lowestFree_not_mem (l : List Nat) : lowestFree l ∉ l := by
  unfold lowestFree
  cases h : (List.range (l.length + 1)).find? fun i => !l.contains i with
  | some i => simpa using List.find?_some h
  | none =>
    exfalso
    have hs : List.range (l.length + 1) ⊆ l := fun i hi => by simpa using List.find?_eq_none.mp h i hi
    have := (List.subperm_of_subset List.nodup_range hs).length_le
    simp at this

/-- The region that REG_MR adds: the lowest free index, its variant incremented. -/
def newRegion (s : State) (x : Nat) : Region :=
  let ix := lowestFree (s.px.regions.map (·.ix))
  { ix := ix, ptn := qcPtn x, addr := bits x 320 64, len := bits x 384 40, rights := bits x 424 3, variant := (cnt s.px.variants ix + 1) % 256 }

theorem newRegion_ix (s : State) (x : Nat) : ∀ o ∈ s.px.regions, o.ix ≠ (newRegion s x).ix := fun o ho e =>
  lowestFree_not_mem _ (List.mem_map.mpr ⟨o, ho, e⟩)

/-- The state with the region added. -/
def withRegion (s : State) (r : Region) : State :=
  s.modPx fun y => { y with regions := y.regions ++ [r], variants := cntSet y.variants r.ix r.variant }

theorem execQpRegMr_ok {v : View} {x : Nat} {s : State} (hgo : qpGo s v 5 x) (hl : bits x 384 40 ≠ 0)
    (hm : (s.px.regions.filter (·.ptn == qcPtn x)).length < odGet s (0x9240 + qcPtn x) 4) (hr : s.px.regions.length < 262144)
    (ho : ownRange s (qcPtn x) (bits x 320 64) (bits x 384 40) = true) : execQpRegMr v s =
      .next (qpAnswer (mbxPut (withRegion s (newRegion s x)) (mbxQp v) 480 32 ((newRegion s x).ix * 256 + (newRegion s x).variant)) v stOK) := by
  have hm' : ¬ odGet s (0x9240 + qcPtn x) 4 ≤ (s.px.regions.filter (·.ptn == qcPtn x)).length := by omega
  have hr' : ¬ 262144 ≤ s.px.regions.length := by omega
  rw [execQpRegMr, qpCommand_go hgo]
  simp only [if_neg hl, ho, hm', hr', decide_false, Bool.or_self, Bool.not_true, Bool.false_eq_true, if_false]
  rfl

theorem execQpRegMr_refused {v : View} {x : Nat} {s : State} (hgo : qpGo s v 5 x) :
    (bits x 384 40 = 0 → execQpRegMr v s = .next (qpAnswer s v stFORMAT)) ∧
    (bits x 384 40 ≠ 0 → odGet s (0x9240 + qcPtn x) 4 ≤ (s.px.regions.filter (·.ptn == qcPtn x)).length → execQpRegMr v s = .next (qpAnswer s v stBUSY)) ∧
    (bits x 384 40 ≠ 0 → (s.px.regions.filter (·.ptn == qcPtn x)).length < odGet s (0x9240 + qcPtn x) 4 → s.px.regions.length < 262144 →
      ownRange s (qcPtn x) (bits x 320 64) (bits x 384 40) = false → execQpRegMr v s = .next (qpAnswer s v stACCESS)) := by
  rw [execQpRegMr, qpCommand_go hgo]
  refine ⟨fun hl => ?_, fun hl hm => ?_, fun hl hm hr ho => ?_⟩
  · simp only [if_pos hl]
  · simp only [if_neg hl, hm, decide_true, Bool.true_or, if_true]
  · have hm' : ¬ odGet s (0x9240 + qcPtn x) 4 ≤ (s.px.regions.filter (·.ptn == qcPtn x)).length := by omega
    have hr' : ¬ 262144 ≤ s.px.regions.length := by omega
    simp only [if_neg hl, ho, hm', hr', decide_false, Bool.or_self, Bool.not_false, Bool.false_eq_true, if_false, if_true]

/-- The state without the regions of an index. -/
def withoutRegion (s : State) (ix : Nat) : State := s.modPx fun y => { y with regions := y.regions.filter (·.ix != ix) }

theorem withoutRegion_only {pl : List Part} {sb s : State} {ix : Nat} (h : Within pl sb s) (hp : [.px] ⊆ pl) : Within pl sb (withoutRegion s ix) := modPx_only h hp

theorem execQpDeregMr_of {v : View} {x : Nat} {r : Region} {s : State} (hgo : qpGo s v 6 x)
    (hf : s.px.regions.find? (fun r => r.ix == bits x 480 32 / 256 && r.variant == bits x 480 32 % 256) = some r) (hp : r.ptn = qcPtn x) :
    execQpDeregMr v s = .next (if keyInUse s (bits x 480 32) then
      (withoutRegion s r.ix).modPx fun y => { y with leaving := y.leaving ++ [(bits x 480 32, viewPtn v)] } else qpAnswer (withoutRegion s r.ix) v stOK) := by
  rw [execQpDeregMr, qpCommand_go hgo]
  simp only [hf, hp, bne_self_eq_false, Bool.false_eq_true, if_false, withoutRegion]

theorem execQpDeregMr_empty {v : View} {x : Nat} {s : State} (hgo : qpGo s v 6 x) (hr : s.px.regions = []) :
    execQpDeregMr v s = .next (qpAnswer s v stFORMAT) := by
  rw [execQpDeregMr, qpCommand_go hgo]
  simp only [hr, List.find?_nil]

/-! ### The clauses of O48 -/

/-- QP_CREATE without CONNECT. -/
theorem does_qpCreate {v : View} {x : Nat} {q : Qp} {s u : State} (hgo : qpGo s v 1 x) (hc : bit x 21 = false) (hn : newQp s (qcPtn x) 0 = some (q, u)) :
    Does (.qpCreate v) s [.out, .regs, .px, .ctl, .tel] fun t => qpAnswered t v stOK ∧ (∃ y ∈ t.px.qps, y.ix = q.ix ∧ y.ptn = qcPtn x ∧ y.state = 0) ∧
      bits (getReg t (mbxQp v + 4)).toNat 0 24 = qpNum q % 2 ^ 24 ∧ t.px.qps.length = s.px.qps.length + 1 := by
  have he := execQpCreate_plain hgo hc hn
  obtain ⟨hp, hs, l, hu, hl⟩ := newQp_spec hn
  refine .of_within he ⟨qpAnswered_qpAnswer _ _ (by decide), ⟨q, by simp [hu], rfl, hp, hs⟩, ?_, by simp [hu, hl]⟩ (execQpCreate_only (.refl ..) (List.Subset.refl _) he)
  exact bits_answered _ _ (by simp) (by decide) (by decide) (by decide) (by decide)

/-- QP_CREATE with CONNECT. -/
theorem does_qpConnect {v : View} {x : Nat} {q : Qp} {s u : State} (hgo : qpGo s v 1 x) (hc : bit x 21 = true) (hh : qpHard s = true)
    (hp : portOk s x = true) (hm : bits x 70 3 ≠ 0) (hm' : bits x 70 3 ≤ 5) (ht : bits x 73 5 ≠ 0) (hn : newQp s (qcPtn x) (bits x 63 5 / 8) = some (q, u)) :
    Does (.qpCreate v) s [.out, .regs, .px, .ctl, .tel] fun t => qpAnswered t v stOK ∧ (∃ y ∈ t.px.qps, y.ix = q.ix ∧ y.port = bits x 63 5 ∧ y.cm = 1) ∧
      t.out.getLast? = some (.cm (bits x 63 5) 1 (bits x 192 128) 0 [qpNum q, bits x 120 24, bits x 320 64, bits x 70 3]) := by
  have he := execQpCreate_connect hgo hc hh hp hm hm' ht hn
  obtain ⟨-, -, l, hu, -⟩ := newQp_spec hn
  refine .of_within he ⟨qpAnswered_qpAnswer _ _ (by decide), ⟨connecting s x q, ?_, rfl, rfl, rfl⟩, by simp [sendCm, emit]⟩ (execQpCreate_only (.refl ..) (List.Subset.refl _) he)
  simp [sendCm, emit, modQp, updIf, hu]

/-- What a queue pair is after a QP_MODIFY that sets it alone. -/
theorem does_qpModify {v : View} {q : Qp} {f : Qp → Qp} {s : State} (he : execQpModify v s = .next (qpAnswer (modQp s q.ix f) v stOK))
    (hq : findQp s q.ix = some q) (hf : ∀ q, (f q).ix = q.ix) {α : Type} (g : Qp → α) :
    Does (.qpModify v) s [.out, .freeCount, .regs, .cons, .work, .mem, .serve, .fab, .px, .ctl, .tel] fun t =>
      qpAnswered t v stOK ∧ (findQp t q.ix).map g = some (g (f q)) := by
  refine .of_within he ⟨qpAnswered_qpAnswer _ _ (by decide), ?_⟩ (execQpModify_only (.refl ..) (List.Subset.refl _) he)
  rw [findQp_qpAnswer, findQp_modQp_same _ _ hf, hq]
  rfl

/-- QP_MODIFY to INIT: the queue pair has its port, wherever its context stands. -/
theorem does_qpInit {v : View} {x : Nat} {q : Qp} {s : State} (hgo : qpGo s v 2 x) (hq : qcFind s x = (0, some q)) (hs : q.state = 0)
    (hw : bits x 56 3 = 1) (hp : portOk s x = true) :
    Does (.qpModify v) s [.out, .freeCount, .regs, .cons, .work, .mem, .serve, .fab, .px, .ctl, .tel] fun t => qpAnswered t v stOK ∧
      (findQp t q.ix).map (fun y => (y.state, y.port, y.subport, y.prio)) = some (1, bits x 63 5, bits x 68 2, bits x 59 3) := by
  obtain ⟨t, he, hk⟩ := execQpModify_init hgo hq hs hw hp
  refine .of_within he ⟨qpAnswered_qpAnswer _ _ (by decide), ?_⟩ (execQpModify_only (.refl ..) (List.Subset.refl _) he)
  rw [findQp_qpAnswer]
  have h := congrArg (Option.map fun y : Qp => (y.state, y.port, y.subport, y.prio)) (hk.findQp q.ix)
  rw [findQp_modQp_same _ _ (f := toInit s x) fun _ => rfl, findQp_of_qcFind hq, Option.map_map] at h
  exact h

/-- QP_DESTROY of a queue pair without operations. -/
theorem does_qpDestroy {v : View} {x : Nat} {q : Qp} {s : State} (hgo : qpGo s v 3 x) (hq : qcFind s x = (0, some q)) (ho : q.ops = []) :
    Does (.qpDestroy v) s [.out, .freeCount, .regs, .cons, .work, .mem, .serve, .px, .ctl, .tel] fun t =>
      qpAnswered t v stOK ∧ (∀ y ∈ t.px.qps, y.ix ≠ q.ix) ∧ ∀ k, k ≠ q.ix → findQp t k = findQp s k := by
  have he := execQpDestroy_of hgo hq
  refine .of_within he ⟨qpAnswered_qpAnswer _ _ (by decide), fun y hy => ?_, fun k hk => ?_⟩ (execQpDestroy_only (.refl ..) (List.Subset.refl _) he)
  · simpa using (List.mem_filter.mp hy).2
  · exact (find?_filter_ix hk).trans (findQp_qpError_other (findQp_of_qcFind hq) ho hk)

/-- REG_MR within the partition's granules. -/
theorem does_qpRegMr {v : View} {x : Nat} {s : State} (hgo : qpGo s v 5 x) (hl : bits x 384 40 ≠ 0)
    (hm : (s.px.regions.filter (·.ptn == qcPtn x)).length < odGet s (0x9240 + qcPtn x) 4) (hr : s.px.regions.length < 262144)
    (ho : ownRange s (qcPtn x) (bits x 320 64) (bits x 384 40) = true) : Does (.qpRegMr v) s [.regs, .px] fun t => qpAnswered t v stOK ∧
      ∃ r, t.px.regions = s.px.regions ++ [r] ∧ r.ptn = qcPtn x ∧ r.addr = bits x 320 64 ∧ r.len = bits x 384 40 ∧ r.rights = bits x 424 3 ∧
        (∀ o ∈ s.px.regions, o.ix ≠ r.ix) ∧ (getReg t (mbxQp v + 60)).toNat = (r.ix * 256 + r.variant) % 2 ^ 32 := by
  refine .of_within (execQpRegMr_ok hgo hl hm hr ho) ⟨qpAnswered_qpAnswer _ _ (by decide), newRegion s x, rfl, rfl, rfl, rfl, rfl, newRegion_ix s x, ?_⟩
    (qpAnswer_only (mbxPut_only (modPx_only (.refl ..) (by decide)) (by decide)) (by decide))
  have hb := bits_answered (withRegion s (newRegion s x)) v (lo := 480) (n := 32) (val := (newRegion s x).ix * 256 + (newRegion s x).variant) (st := stOK)
    (o := mbxQp v + 60) (l := 0) (by simp) (by decide) (by decide) (by decide) (by decide)
  rw [← hb, bits, Nat.pow_zero, Nat.div_one, Nat.mod_eq_of_lt (BitVec.isLt _)]

/-- DEREG_MR: the region goes, and the answer waits while an access uses its key. -/
theorem does_qpDeregMr {v : View} {x : Nat} {r : Region} {s : State} (hgo : qpGo s v 6 x)
    (hf : s.px.regions.find? (fun r => r.ix == bits x 480 32 / 256 && r.variant == bits x 480 32 % 256) = some r) (hp : r.ptn = qcPtn x) :
    (keyInUse s (bits x 480 32) = false → Does (.qpDeregMr v) s [.regs, .px] fun t => qpAnswered t v stOK ∧ ∀ y, y ∈ t.px.regions ↔ y ∈ s.px.regions ∧ y.ix ≠ r.ix) ∧
    (keyInUse s (bits x 480 32) = true → Does (.qpDeregMr v) s [.px] fun t => (bits x 480 32, viewPtn v) ∈ t.px.leaving ∧ ∀ y ∈ t.px.regions, y.ix ≠ r.ix) := by
  have he := execQpDeregMr_of hgo hf hp
  refine ⟨fun hk => ?_, fun hk => ?_⟩
  · rw [hk, if_neg (by decide)] at he
    refine .of_within he ⟨qpAnswered_qpAnswer _ _ (by decide), fun y => ?_⟩ (qpAnswer_only (withoutRegion_only (.refl ..) (by decide)) (by decide))
    simp [withoutRegion]
  · rw [hk, if_pos rfl] at he
    exact .of_within he ⟨by simp, by simp [withoutRegion]⟩ (modPx_only (withoutRegion_only (.refl ..) (List.Subset.refl _)) (List.Subset.refl _))

/-- The commands of the queue-pair mailbox, each with its OP. -/
theorem exec_qpCommand (v : View) : ∀ e ∈ [(Instr.qpCreate v, 1), (.qpModify v, 2), (.qpDestroy v, 3), (.qpQuery v, 4), (.qpRegMr v, 5), (.qpDeregMr v, 6)],
    ∃ act, ∀ s, exec e.1 s = qpCommand v e.2 s act := by
  simp only [List.forall_mem_cons, exec_qpCreate, exec_qpModify, exec_qpDestroy, exec_qpQuery, exec_qpRegMr, exec_qpDeregMr]
  exact ⟨⟨_, fun _ => rfl⟩, ⟨_, fun _ => rfl⟩, ⟨_, fun _ => rfl⟩, ⟨_, fun _ => rfl⟩, ⟨_, fun _ => rfl⟩, ⟨_, fun _ => rfl⟩, by simp⟩

/-- A window that names another partition is answered ACCESS, whatever it asks (R154). -/
theorem does_qpDenied {v : View} {x : Nat} {s : State} (hgo : mbxGo s v 2 = true) (hx : x = mbxRead s (mbxQp v) 16)
    (hp : ∃ p, viewPtn v = some p ∧ p ≠ qcPtn x) (e : Instr × Nat)
    (he : e ∈ [(Instr.qpCreate v, 1), (.qpModify v, 2), (.qpDestroy v, 3), (.qpQuery v, 4), (.qpRegMr v, 5), (.qpDeregMr v, 6)]) (hop : bits x 0 8 = e.2) :
    Does e.1 s [.regs, .ctl] fun t => qpAnswered t v stACCESS := by
  obtain ⟨act, hc⟩ := exec_qpCommand v e he
  obtain ⟨p, hv, hp⟩ := hp
  exact .of_within ((hc s).trans (qpCommand_denied hgo hx hop hv hp)) (qpAnswered_qpAnswer _ _ (by decide)) (qpAnswer_only (countAccess_only (.refl ..) (by decide)) (by decide))

/-- A mailbox without GO does nothing, whatever it asks. -/
theorem does_qpIdle {v : View} {s : State} (hgo : mbxGo s v 2 = false) (e : Instr × Nat)
    (he : e ∈ [(Instr.qpCreate v, 1), (.qpModify v, 2), (.qpDestroy v, 3), (.qpQuery v, 4), (.qpRegMr v, 5), (.qpDeregMr v, 6)]) :
    Does e.1 s [] fun t => t = s := by
  obtain ⟨act, hc⟩ := exec_qpCommand v e he
  exact .of_same ((hc s).trans (qpCommand_idle hgo)) rfl

end Sys2Proof.Machine

open Sys2Proof Sys2Proof.Machine

/-- Settles O48, command by command. -/
theorem queuePairCommands : Obligations.QueuePairCommands := by
  unfold Obligations.QueuePairCommands
  refine ⟨?_, ?_, ?_, ?_, ?_, ?_, ?_, ?_, ?_, ?_⟩
  · exact fun v x s hgo hc => ⟨fun q u hn => does_qpCreate hgo hc hn, fun hn => .of_qpAnswer (execQpCreate_none hgo hc hn) (by decide)⟩
  · exact fun v x q u s hgo hc hh hp hm hm' ht hn => does_qpConnect hgo hc hh hp hm hm' ht hn
  · intro v x q s hgo hq
    have hf := findQp_of_qcFind hq
    refine ⟨?_, ?_, ?_, ?_, ?_, ?_⟩
    · exact fun hs hw hp => does_qpInit hgo hq hs hw hp
    · exact fun hs hw hm hm' => does_qpModify (execQpModify_rtr hgo hq hs hw hm hm') hf (fun _ => rfl) _
    · exact fun hs hw ht ho => does_qpModify (execQpModify_rts hgo hq hs hw ht ho) hf (fun _ => rfl) _
    · exact fun hs hw => does_qpModify (execQpModify_reset hgo hq hs hw) hf (fun _ => rfl) _
    · intro h1 h3 hw ho
      have he := execQpModify_error hgo hq h1 h3 hw
      refine .of_within he ⟨qpAnswered_qpAnswer _ _ (by decide), ?_⟩ (execQpModify_only (.refl ..) (List.Subset.refl _) he)
      rw [findQp_qpAnswer, findQp_qpError_same hf ho]
      rfl
    · exact fun hs hw => .of_qpAnswer (execQpModify_refused hgo hq hs hw) (by decide)
  · exact fun v x q s hgo hq ho => does_qpDestroy hgo hq ho
  · intro v x q s hgo hq
    refine .of_within (execQpQuery_of hgo hq) ⟨qpAnswered_qpAnswer _ _ (by decide), ?_⟩ (qpAnswer_only (mbxPut_only (.refl ..) (List.Subset.refl _)) (List.Subset.refl _))
    exact bits_answered _ _ (by simp) (by decide) (by decide) (by decide) (by decide)
  · intro v x st s hq
    obtain ⟨hm, hd, hy⟩ := exec_qpRefused (v := v) hq
    have hlt := qcFind_status_lt hq
    exact ⟨fun h => .of_qpAnswer (hm h) hlt, fun h => .of_qpAnswer (hd h) hlt, fun h => .of_qpAnswer (hy h) hlt⟩
  · intro v x s hgo
    obtain ⟨hz, hb, ha⟩ := execQpRegMr_refused hgo
    exact ⟨fun hl hm hr => ⟨fun ho => does_qpRegMr hgo hl hm hr ho, fun ho => .of_qpAnswer (ha hl hm hr ho) (by decide)⟩,
      fun hl => .of_qpAnswer (hz hl) (by decide), fun hl hm => .of_qpAnswer (hb hl hm) (by decide)⟩
  · exact fun v x s hgo => ⟨fun r hf hp => does_qpDeregMr hgo hf hp, fun hr => .of_qpAnswer (execQpDeregMr_empty hgo hr) (by decide)⟩
  · intro v x s hgo hx hp
    have h := does_qpDenied hgo hx hp
    simpa only [List.forall_mem_cons, List.not_mem_nil, false_implies, implies_true, and_true] using h
  · intro v s hgo
    have h := does_qpIdle hgo
    simpa only [List.forall_mem_cons, List.not_mem_nil, false_implies, implies_true, and_true] using h
end

section
/-! PROOFS. Obligation O33: task descriptors (R10, R162, R163, R171, R174, R175). -/

namespace Sys2Proof.Machine
open Sys2Proof

/-! ### The end of a task -/

theorem taskRec_work (s : State) (t : Task) (st d : Nat) : (taskRec s t st d).work = s.work :=
  (taskRec_only (.refl [.out, .regs, .tel] s) (List.Subset.refl _)).only.keeps .work (by decide)

theorem dropPacks_work (s : State) (t : Task) : (dropPacks s t).work = s.work :=
  (dropPacks_only (.refl [.serve] s) (List.Subset.refl _)).only.keeps .work (by decide)

/-- What a source that is told of its tasks keeps of one that has ended. -/
def endedWith (t : Task) (st : Nat) : List (Nat × TaskSrc × Nat × Nat) :=
  match t.src with
  | .dispatcher => []
  | .core => []
  | src => [(t.id, src, t.tag, st)]

/-- A task that ends leaves the tasks, and its status is kept. -/
theorem closeTask_work (s : State) (t : Task) (st d : Nat) : (closeTask s t st d).work = { s.work with
    tasks := s.work.tasks.filter (·.id != t.id), insts := s.work.insts.filter (·.task != t.id), lookups := s.work.lookups.filter (·.task != t.id)
    ended := s.work.ended ++ endedWith t st } := by
  simp only [closeTask, State.modWork_work, dropPacks_work, taskRec_work, endedWith]
  cases t.src <;> simp

theorem mem_endedWith {t : Task} {v : View} (h : t.src = viewSrc v) (st : Nat) : (t.id, viewSrc v, t.tag, st) ∈ endedWith t st := by
  cases v <;> simp [endedWith, h, viewSrc]

/-- A task that holds no packed copy ends without a change of the serving state. -/
theorem closeTask_only_of_no_packs {pl : List Part} {sb s : State} {t : Task} {st d : Nat} (hk : t.packs = []) (hO : Within pl sb s)
    (hP : [.out, .regs, .work, .tel] ⊆ pl) : Within pl sb (closeTask s t st d) := by
  simp only [closeTask, dropPacks, hk, List.foldl_nil]
  exact modWork_only (taskRec_only hO (subset_sub hP (by decide))) (subset_sub hP (by decide))

/-- The records of a STATUS or COUNTERS task are written, and then it ends. -/
def unitsReported (s : State) (t : Task) : State := (List.range (t.span + 1)).foldl (fun s i => reportUnit s t (t.uid + i)) s

theorem unitsReported_only {pl : List Part} {sb s : State} {t : Task} (hO : Within pl sb s) (hP : [.out, .regs, .tel] ⊆ pl) : Within pl sb (unitsReported s t) :=
  foldl_only hO fun _ _ h => reportUnit_only h hP

theorem runReport_eq (s : State) (t : Task) : runReport s t = closeTask (unitsReported s t) t stOK 0 := rfl

theorem unitsReported_work (s : State) (t : Task) : (unitsReported s t).work = s.work :=
  (unitsReported_only (.refl [.out, .regs, .tel] s) (List.Subset.refl _)).only.keeps .work (by decide)

/-! ### Waiting tasks go on (R159-R162) -/

/-- Statuses of tasks that have ended are kept while waiting tasks go on. -/
theorem settleStep_ended {s u : State} (h : settleStep s = some u) : s.work.ended ⊆ u.work.ended := by
  have hc (s : State) (t : Task) (st d : Nat) : s.work.ended ⊆ (closeTask s t st d).work.ended := by
    rw [closeTask_work]; exact List.subset_append_left ..
  unfold settleStep at h
  simp only at h
  split at h
  · obtain rfl := Option.some.inj h
    split
    · exact List.Subset.refl _
    · exact hc ..
  · split at h
    · obtain rfl := Option.some.inj h
      split
      · exact List.Subset.refl _
      · rename_i t _ _
        have := hc (unitsReported s t) t stOK 0
        rwa [unitsReported_work, ← runReport_eq] at this
    · obtain ⟨t, -, rfl⟩ := Option.map_eq_some_iff.mp h
      exact hc ..

theorem settleN_ended (n : Nat) (s : State) : s.work.ended ⊆ (settleN n s).work.ended := by
  induction n generalizing s with
  | zero => exact List.Subset.refl _
  | succ n ih =>
    unfold settleN
    split
    · rename_i u hu
      exact fun _ h => ih u (settleStep_ended hu h)
    · exact List.Subset.refl _

theorem settle_ended (s : State) : s.work.ended ⊆ (settle s).work.ended := settleN_ended ..

/-- Where nothing can go on, nothing does. -/
theorem settleN_none {s : State} (h : settleStep s = none) (n : Nat) : settleN n s = s := by
  cases n <;> simp [settleN, h]

theorem settleStep_nil {s : State} (h : s.work.tasks = []) : settleStep s = none := by
  simp [settleStep, h, sortBy]

/-- A single task goes on once, and then nothing does. -/
theorem settle_once {s u : State} {t : Task} (ht : s.work.tasks = [t]) (h1 : settleStep s = some u) (h2 : settleStep u = none) : settle s = u := by
  simp only [settle, ht, List.length_singleton, settleN, h1]
  exact settleN_none h2 3

theorem sortBy_singleton {α : Type} (key : α → Nat) (a : α) : sortBy key [a] = [a] := rfl

/-- A task that has become READY behind the others (R162). -/
def readyTask (s : State) (t : Task) : Task := { t with state := .ready, readyAt := s.eph.cycle, readyNs := now s }
def readied (s : State) (t : Task) : State := s.modWork fun w => { w with tasks := w.tasks.filter (·.id != t.id) ++ [readyTask s t] }

theorem readied_tasks {s : State} {t : Task} (ht : s.work.tasks = [t]) : (readied s t).work.tasks = [readyTask s t] := by
  simp [readied, ht]

/-- A task that waits for nothing joins the wait for its class, or reports. -/
theorem settleStep_pending {s : State} {t : Task} (ht : s.work.tasks = [t]) (ha : t.after = none) (hp : t.state = .pending) (hk : t.kind ≠ 3) :
    settleStep s = some (if t.kind = 1 then readied s t else runReport s t) := by
  simp [settleStep, ht, sortBy_singleton, ha, hp, hk, readied, readyTask]

/-- A task that is READY waits for its placement. -/
theorem settleStep_ready {s : State} {t : Task} (ht : s.work.tasks = [t]) (ha : t.after = none) (hp : t.state = .ready) (hk : t.kind ≠ 3) :
    settleStep s = none := by
  simp [settleStep, ht, sortBy_singleton, ha, hp, hk]

/-- A CANCEL that waits for no task completes. -/
theorem settleStep_cancel {s : State} {t : Task} (ht : s.work.tasks = [t]) (ha : t.after = none) (hk : t.kind = 3) (hw : t.waits = []) :
    settleStep s = some (closeTask s t stOK t.detail) := by
  simp [settleStep, ht, sortBy_singleton, ha, hk, hw]

theorem closeTask_single {s : State} {t : Task} (st d : Nat) (ht : s.work.tasks = [t]) : (closeTask s t st d).work.tasks = [] := by
  simp [closeTask_work, ht]

/-! ### A descriptor is read (R162) -/

/-- The task that a descriptor describes, and the state once it is read. -/
def descTask (s : State) (v : View) (x : Nat) : Task := (readTask s v x).2.1
def descRead (s : State) (v : View) (x : Nat) : State := (readTask s v x).1

theorem readTask_eq (s : State) (v : View) (x : Nat) : readTask s v x = (descRead s v x, descTask s v x, taskBad s v x) := rfl

theorem descTask_src (s : State) (v : View) (x : Nat) : (descTask s v x).src = viewSrc v := rfl
theorem descTask_kind (s : State) (v : View) (x : Nat) : (descTask s v x).kind = bits x 0 8 := rfl
theorem descTask_ptn (s : State) (v : View) (x : Nat) : (descTask s v x).ptn = bits x 27 5 := rfl

/-- A descriptor that names no request belongs to none. -/
theorem descTask_request {s : State} {v : View} {x : Nat} (h : bits x 64 32 = 0xFFFFFFFF) : (descTask s v x).request = none := by
  simp [descTask, readTask, h]

theorem descRead_only {pl : List Part} {sb s : State} {v : View} {x : Nat} (hO : Within pl sb s) (hP : [.regs, .work, .tel] ⊆ pl) :
    Within pl sb (descRead s v x) := readTask_only hO hP

theorem descRead_work (s : State) (v : View) (x : Nat) : (descRead s v x).work = { s.work with nextTask := s.work.nextTask + 1 } := by
  have h : (ringTake s (subRing v 1)).work = s.work := (ringTake_only (.refl [.regs, .tel] s) (List.Subset.refl _)).only.keeps .work (by decide)
  simp only [descRead, readTask, State.modWork_work, h]

/-! ### Refused descriptors -/

/-- A task that is refused ends at once with the status (R162). -/
theorem refuseTask_ended (s : State) {v : View} {t : Task} (hv : t.src = viewSrc v) (bad : Nat × Nat) :
    (t.id, viewSrc v, t.tag, bad.1) ∈ (refuseTask s v t bad).work.ended := by
  unfold refuseTask
  refine settle_ended _ ?_
  rw [closeTask_work]
  exact List.mem_append_right _ (mem_endedWith hv _)

theorem takeTask_refused {s : State} {v : View} {x : Nat} {b : Nat × Nat} (hb : taskBad s v x = some b) :
    (s.work.nextTask, viewSrc v, bits x 192 32, b.1) ∈ (takeTask s v x).work.ended := by
  simp only [takeTask, readTask_eq, hb]
  exact refuseTask_ended _ (descTask_src s v x) b

/-- What TASK_STATUS, TASK_COUNTERS and TASK_PROGRAM do with a descriptor of a ring that has one. -/
theorem exec_takeTask {v : View} {desc : BitVec 512} {s : State} (hr : ringHas s (subRing v 1) = true) :
    (¬(2 ≤ fld desc 0 8 ∧ fld desc 0 8 ≤ 4) → execTaskProgram v desc s = .next (takeTask s v desc.toNat)) ∧
    (fld desc 0 8 = 2 → execTaskStatus v desc s = .next (takeTask s v desc.toNat)) ∧
    (fld desc 0 8 = 4 → execTaskCounters v desc s = .next (takeTask s v desc.toNat)) := by
  refine ⟨fun hk => ?_, fun hk => ?_, fun hk => ?_⟩
  · have hk' : ([2, 3, 4].contains (fld desc 0 8)) = false := by simp; omega
    simp only [execTaskProgram, hr, hk', Bool.not_false, Bool.and_self, if_true]
  · simp [execTaskStatus, hr, hk]
  · simp [execTaskCounters, hr, hk]

theorem execTaskCancel_refused {v : View} {desc : BitVec 512} {b : Nat × Nat} {s : State} (hr : ringHas s (subRing v 1) = true)
    (hb : taskBad s v desc.toNat = some b) (hk : fld desc 0 8 = 3) :
    execTaskCancel v desc s = .next (refuseTask (descRead s v desc.toNat) v (descTask s v desc.toNat) b) := by
  have hk' : bits desc.toNat 0 8 = 3 := hk
  simp only [execTaskCancel, hr, hk', readTask_eq, hb]
  rfl

/-- A closed ring is left alone. -/
theorem exec_task_closed {v : View} {desc : BitVec 512} {s : State} (hr : ringHas s (subRing v 1) = false) :
    execTaskProgram v desc s = .next s ∧ execTaskStatus v desc s = .next s ∧ execTaskCancel v desc s = .next s ∧ execTaskCounters v desc s = .next s := by
  simp [execTaskProgram, execTaskStatus, execTaskCancel, execTaskCounters, hr]

/-! ### Accepted descriptors without another task -/

/-- The state in which a descriptor that has been read joins the tasks. -/
def descJoined (s : State) (v : View) (x : Nat) : State := (descRead s v x).modWork fun w => { w with tasks := w.tasks ++ [descTask s v x] }

theorem descJoined_only {pl : List Part} {sb s : State} {v : View} {x : Nat} (hO : Within pl sb s) (hP : [.regs, .work, .tel] ⊆ pl) :
    Within pl sb (descJoined s v x) := modWork_only (descRead_only hO hP) (subset_sub hP (by decide))

theorem descJoined_work (s : State) (v : View) (x : Nat) : (descJoined s v x).work = { s.work with
    nextTask := s.work.nextTask + 1, tasks := s.work.tasks ++ [descTask s v x] } := by
  simp only [descJoined, State.modWork_work, descRead_work]

theorem takeTask_accepted {s : State} {v : View} {x : Nat} (hb : taskBad s v x = none) (hq : bits x 64 32 = 0xFFFFFFFF) (ha : bits x 224 32 = 0) :
    takeTask s v x = settle (descJoined s v x) := by
  simp only [takeTask, readTask_eq, hb, descTask_request hq, admitTask, ha, Bool.false_eq_true, if_false, if_true]
  rfl

section
variable {s : State} {v : View} {x : Nat} (hb : taskBad s v x = none) (ht : s.work.tasks = []) (hq : bits x 64 32 = 0xFFFFFFFF) (ha : bits x 224 32 = 0)
include hb ht hq ha

/-- A PROGRAM task becomes READY (R162). -/
theorem takeTask_program (hk : bits x 0 8 = 1) :
    (takeTask s v x).work.tasks.map (fun k => (k.id, k.kind, k.tag, k.state)) = [(s.work.nextTask, 1, bits x 192 32, .ready)] ∧
      (takeTask s v x).work.nextTask = s.work.nextTask + 1 ∧ Within [.out, .regs, .work, .ctl, .tel] s (takeTask s v x) := by
  have hj : (descJoined s v x).work.tasks = [descTask s v x] := by simp [descJoined_work, ht]
  have hk1 : (descTask s v x).kind = 1 := hk
  have h1 := settleStep_pending hj rfl rfl (by rw [hk1]; decide)
  rw [if_pos hk1] at h1
  have h2 := settleStep_ready (readied_tasks hj) rfl rfl (show (descTask s v x).kind ≠ 3 by rw [hk1]; decide)
  rw [takeTask_accepted hb hq ha, settle_once hj h1 h2]
  refine ⟨?_, ?_, modWork_only (descJoined_only (.refl ..) (by decide)) (by decide)⟩
  · rw [readied_tasks hj, ← hk]
    rfl
  · simp [readied, descJoined_work]

/-- A report task writes its records and completes with OK (R174, R175). -/
theorem takeTask_report (hk : bits x 0 8 = 2 ∨ bits x 0 8 = 4) :
    (takeTask s v x).work.tasks = [] ∧ (s.work.nextTask, viewSrc v, bits x 192 32, stOK) ∈ (takeTask s v x).work.ended ∧
      Within [.out, .regs, .work, .ctl, .tel] s (takeTask s v x) := by
  have hj : (descJoined s v x).work.tasks = [descTask s v x] := by simp [descJoined_work, ht]
  have h1 := settleStep_pending hj rfl rfl (by rw [descTask_kind]; omega)
  rw [descTask_kind, if_neg (by omega), runReport_eq] at h1
  have hn := closeTask_single (t := descTask s v x) stOK 0 (show (unitsReported (descJoined s v x) (descTask s v x)).work.tasks = [_] by rw [unitsReported_work, hj])
  rw [takeTask_accepted hb hq ha, settle_once hj h1 (settleStep_nil hn)]
  refine ⟨hn, ?_, closeTask_only_of_no_packs rfl (unitsReported_only (descJoined_only (.refl ..) (by decide)) (by decide)) (by decide)⟩
  rw [closeTask_work]
  exact List.mem_append_right _ (mem_endedWith (descTask_src s v x) _)

end

/-! ### CANCEL (R10, R161) -/

/-- The refused descriptors of this tick that a CANCEL names. -/
def cancelHits (s : State) (v : View) (x : Nat) : List BadTask :=
  (descRead s v x).work.badNow.filter fun b => b.at_ == s.mer.osc && (b.task.kind != 3 && b.task.ptn == (descTask s v x).ptn &&
    (if bit x 288 then b.task.request.isSome && b.task.request == (descTask s v x).request
     else (b.task.src == .pf || b.task.src == .window (descTask s v x).ptn) && b.task.tag == bits x 256 32))

/-- The state in which a CANCEL has reached them, and in which it waits. -/
def cancelReached (s : State) (v : View) (x : Nat) : State := (cancelHits s v x).foldl cancelBad (descRead s v x)
def cancelTask (s : State) (v : View) (x : Nat) : Task :=
  { descTask s v x with waits := [], detail := (cancelHits s v x).length, state := .running }
def cancelJoined (s : State) (v : View) (x : Nat) : State := (cancelReached s v x).modWork fun w => { w with tasks := w.tasks ++ [cancelTask s v x] }

theorem cancelBad_work (s : State) (b : BadTask) : (cancelBad s b).work = { s.work with
    badNow := s.work.badNow.filter (· != b), ended := updIf (·.1 == b.task.id) (fun e => (e.1, e.2.1, e.2.2.1, stUNSTARTED)) s.work.ended } := rfl

theorem cancelReached_only {pl : List Part} {sb s : State} {v : View} {x : Nat} (hO : Within pl sb s) (hP : [.out, .regs, .work, .tel] ⊆ pl) :
    Within pl sb (cancelReached s v x) :=
  foldl_only (descRead_only hO (subset_sub hP (by decide))) fun _ _ h => cancelBad_only h (subset_sub hP (by decide))

theorem cancelReached_tasks (s : State) (v : View) (x : Nat) : (cancelReached s v x).work.tasks = s.work.tasks := by
  rw [cancelReached, foldl_keep (fun s => s.work.tasks) cancelBad fun s b => by rw [cancelBad_work], descRead_work]

theorem execTaskCancel_accepted {v : View} {desc : BitVec 512} {s : State} (hr : ringHas s (subRing v 1) = true)
    (hb : taskBad s v desc.toNat = none) (ht : s.work.tasks = []) (hq : bits desc.toNat 64 32 = 0xFFFFFFFF) (hk : fld desc 0 8 = 3) :
    execTaskCancel v desc s = .next (settle (cancelJoined s v desc.toNat)) := by
  have hk' : bits desc.toNat 0 8 = 3 := hk
  have hw : (descRead s v desc.toNat).work.tasks = [] := by rw [descRead_work, ht]
  simp only [execTaskCancel, hr, hk', readTask_eq, hb, descTask_request hq, hw]
  simp [endOrder, sortBy, cancelJoined, cancelReached, cancelTask, cancelHits, descTask_request hq]

/-- With no task live a CANCEL completes at once. -/
theorem settle_cancel {s : State} {v : View} {x : Nat} (ht : s.work.tasks = []) (hk : bits x 0 8 = 3) :
    settle (cancelJoined s v x) = closeTask (cancelJoined s v x) (cancelTask s v x) stOK (cancelHits s v x).length := by
  have hj : (cancelJoined s v x).work.tasks = [cancelTask s v x] := by
    simp [cancelJoined, cancelReached_tasks, ht]
  exact settle_once hj (settleStep_cancel hj rfl hk rfl) (settleStep_nil (closeTask_single _ _ hj))

/-- A CANCEL that is accepted with no task live completes with OK, and no task is left (R161). -/
theorem execTaskCancel_done {v : View} {desc : BitVec 512} {s : State} (hr : ringHas s (subRing v 1) = true)
    (hb : taskBad s v desc.toNat = none) (ht : s.work.tasks = []) (hq : bits desc.toNat 64 32 = 0xFFFFFFFF) (hk : fld desc 0 8 = 3) :
    ∃ u, execTaskCancel v desc s = .next u ∧ Within [.out, .regs, .work, .tel] s u ∧ u.work.tasks = [] ∧
      u.work.badNow = (cancelReached s v desc.toNat).work.badNow ∧
      u.work.ended = (cancelReached s v desc.toNat).work.ended ++ [(s.work.nextTask, viewSrc v, bits desc.toNat 192 32, stOK)] := by
  have hj : (cancelJoined s v desc.toNat).work.tasks = [cancelTask s v desc.toNat] := by
    simp [cancelJoined, cancelReached_tasks, ht]
  have hw : Within [.out, .regs, .work, .tel] s (cancelJoined s v desc.toNat) := modWork_only (cancelReached_only (.refl ..) (by decide)) (by decide)
  have he : endedWith (cancelTask s v desc.toNat) stOK = [(s.work.nextTask, viewSrc v, bits desc.toNat 192 32, stOK)] := by
    cases v <;> rfl
  refine ⟨_, (execTaskCancel_accepted hr hb ht hq hk).trans (congrArg _ (settle_cancel ht hk)), closeTask_only_of_no_packs rfl hw (by decide),
    closeTask_single _ _ hj, ?_, ?_⟩
  · rw [closeTask_work]
    rfl
  · rw [closeTask_work, he]
    rfl

/-- Every status that is kept of a task is CANCELLED_UNSTARTED. -/
def EndsUnstarted (s : State) (id : Nat) : Prop := ∀ e ∈ s.work.ended, e.1 = id → e.2.2.2 = stUNSTARTED

/-- A CANCEL that reaches a refused descriptor changes its status, and never another's from CANCELLED_UNSTARTED. -/
theorem cancelBad_endsUnstarted {s : State} {b : BadTask} {id : Nat} (h : EndsUnstarted s id ∨ b.task.id = id) : EndsUnstarted (cancelBad s b) id := by
  intro e he hid
  rw [cancelBad_work] at he
  obtain ⟨e₀, he₀, rfl⟩ := List.mem_map.mp he
  by_cases hb : e₀.1 = b.task.id
  · simp [hb]
  · simp only [beq_eq_false_iff_ne.mpr hb, Bool.false_eq_true, if_false] at hid ⊢
    exact h.elim (· e₀ he₀ hid) fun hbi => absurd (hid.trans hbi.symm) hb

theorem cancelBad_badNow {s : State} {b c : BadTask} (h : b ∉ s.work.badNow ∨ c = b) : b ∉ (cancelBad s c).work.badNow := by
  rw [cancelBad_work]
  simp only [List.mem_filter, bne_iff_ne, not_and, not_not]
  exact fun hm => h.elim (absurd hm) Eq.symm

/-- Once it is reached it is not in wait any more, and stays so while others are reached. -/
theorem foldl_cancelBad {b : BadTask} (l : List BadTask) (s : State) (h : b ∈ l ∨ (b ∉ s.work.badNow ∧ EndsUnstarted s b.task.id)) :
    b ∉ (l.foldl cancelBad s).work.badNow ∧ EndsUnstarted (l.foldl cancelBad s) b.task.id := by
  induction l generalizing s with
  | nil => exact h.resolve_left (List.not_mem_nil)
  | cons c l ih =>
    refine ih (cancelBad s c) ?_
    obtain hm | ⟨hn, hu⟩ := h
    · obtain rfl | hl := List.mem_cons.mp hm
      · exact .inr ⟨cancelBad_badNow (.inr rfl), cancelBad_endsUnstarted (.inr rfl)⟩
      · exact .inl hl
    · exact .inr ⟨cancelBad_badNow (.inl hn), cancelBad_endsUnstarted (.inl hu)⟩

/-- What a CANCEL by TAG hits: the refused descriptors of this tick and partition, but CANCELs. -/
theorem mem_cancelHits {s : State} {v : View} {x : Nat} {b : BadTask} (hx : bit x 288 = false) (hm : b ∈ s.work.badNow) (hat : b.at_ = s.mer.osc)
    (hk : b.task.kind ≠ 3) (hp : b.task.ptn = bits x 27 5) (hs : b.task.src = .pf ∨ b.task.src = .window b.task.ptn) (hg : b.task.tag = bits x 256 32) :
    b ∈ cancelHits s v x := by
  rw [hp] at hs
  have hw : (descRead s v x).work.badNow = s.work.badNow := by rw [descRead_work]
  obtain hs | hs := hs <;> simp [cancelHits, hw, hm, hat, hk, hp, hs, hg, hx, descTask_ptn]

end Sys2Proof.Machine

open Sys2Proof Sys2Proof.Machine

/-- Settles O33. A descriptor that is refused ends at once; without another task, one that is accepted waits for its placement or completes; a
CANCEL reaches the refused descriptors of its tick before it completes itself. -/
theorem taskDescriptors : Obligations.TaskDescriptors := by
  unfold Obligations.TaskDescriptors
  refine ⟨fun v desc b s hr hb => ?_, fun v desc s hr hb ht hq ha => ?_, fun v desc b s hr hb ht hq _ hk hx hm hat hbk hp hsrc hg => ?_, fun v desc s hr => ?_⟩
  · obtain ⟨hprogram, hstatus, hcounters⟩ := exec_takeTask hr
    exact ⟨fun hk => .of_within (hprogram hk) (takeTask_refused hb) (execTaskProgram_only (.refl ..) (List.Subset.refl _) (hprogram hk)),
      fun hk => .of_within (hstatus hk) (takeTask_refused hb) (execTaskStatus_only (.refl ..) (List.Subset.refl _) (hstatus hk)),
      fun hk => .of_within (execTaskCancel_refused hr hb hk) (refuseTask_ended _ (descTask_src s v _) b)
        (execTaskCancel_only (.refl ..) (List.Subset.refl _) (execTaskCancel_refused hr hb hk)),
      fun hk => .of_within (hcounters hk) (takeTask_refused hb) (execTaskCounters_only (.refl ..) (List.Subset.refl _) (hcounters hk))⟩
  · obtain ⟨hprogram, hstatus, hcounters⟩ := exec_takeTask hr
    refine ⟨fun hk => ?_, fun hk => ?_, fun hk => ?_, fun hk => ?_⟩
    · obtain ⟨htasks, hnext, hw⟩ := takeTask_program hb ht hq ha hk
      exact .of_within (hprogram (by omega)) ⟨htasks, hnext⟩ hw
    · obtain ⟨htasks, hended, hw⟩ := takeTask_report hb ht hq ha (.inl hk)
      exact .of_within (hstatus hk) ⟨htasks, hended⟩ hw
    · obtain ⟨htasks, hended, hw⟩ := takeTask_report hb ht hq ha (.inr hk)
      exact .of_within (hcounters hk) ⟨htasks, hended⟩ hw
    · obtain ⟨u, he, hw, htasks, -, hended⟩ := execTaskCancel_done hr hb ht hq hk
      exact .of_within he ⟨htasks, by simp [hended]⟩ hw
  · obtain ⟨u, he, hw, -, hbad, hended⟩ := execTaskCancel_done hr hb ht hq hk
    obtain ⟨hn, hu⟩ := foldl_cancelBad _ (descRead s v desc.toNat) (.inl (mem_cancelHits hx hm hat hbk hp hsrc hg))
    refine .of_within he ⟨hbad ▸ hn, fun e hmem hid hne => ?_⟩ hw
    rw [hended, List.mem_append, List.mem_singleton] at hmem
    exact hmem.elim (hu e · hid) fun h => absurd (congrArg Prod.fst h) hne
  · obtain ⟨hprogram, hstatus, hcancel, hcounters⟩ := exec_task_closed (desc := desc) hr
    exact ⟨.of_same hprogram rfl, .of_same hstatus rfl, .of_same hcancel rfl, .of_same hcounters rfl⟩
end

section
/-! PROOFS. Obligation O13: starts, resets and the slices of Nightfall (R16, R939-R961). -/

namespace Sys2Proof.Machine
open Sys2Proof

/-! ### What events leave: the other entries of the object dictionary, and the shadows of the registers -/

@[simp] theorem odGet_odSet_same (s : State) (idx sub v : Nat) : odGet (odSet s idx sub v) idx sub = v := sget_sset_same _ _ _ _

theorem odGet_odSet_other (s : State) {i k idx sub : Nat} (v : Nat) (h : odKey i k ≠ odKey idx sub) : odGet (odSet s idx sub v) i k = odGet s i k :=
  sget_sset_other _ _ _ h

theorem odGet_of_ctl {s t : State} (h : t.ctl = s.ctl) (i k : Nat) : odGet t i k = odGet s i k := by
  rw [odGet, odGet, h]

/-- An entry that is no counter of the bus (R872, R887). -/
def OffBus (i k : Nat) : Prop := odKey i k ≠ odKey 0x1020 2 ∧ odKey i k ≠ odKey 0x1020 7

theorem busEvent_odGet (s : State) (e : Event) {i k : Nat} (h : OffBus i k) : odGet (busEvent s e) i k = odGet s i k := by
  obtain ⟨hsent, hlost⟩ := h
  unfold busEvent
  split
  · rfl
  · simp only
    split
    · split
      · rfl
      · exact odGet_odSet_other _ _ hsent
    · split
      · rfl
      · exact odGet_odSet_other _ _ hlost
    · rfl

theorem raisePf_odGet (s : State) (e : Event) {i k : Nat} (h : OffBus i k) : odGet (raisePf s e) i k = odGet s i k := by
  unfold raisePf
  rw [odGet_of_ctl (logFault_ctl ..), busEvent_odGet _ _ h, odGet_of_ctl (eventTo_ctl ..)]

theorem sameTick_shadow (s : State) : (sameTick s).regs.shadow = s.regs.shadow := by
  unfold sameTick; split <;> rfl

theorem msix_shadow (s : State) (fn vector : Nat) : (msix s fn vector).regs.shadow = s.regs.shadow := by
  unfold msix; split
  · rfl
  · split <;> rfl

@[simp] theorem setReg_shadow (s : State) (off : Nat) (v : Word) : (setReg s off v).regs.shadow = s.regs.shadow := rfl

theorem setInt_shadow (s : State) (i : Nat) : (setInt s i).regs.shadow = s.regs.shadow := by
  unfold setInt
  simp only
  split <;> simp [msix_shadow, sameTick_shadow]

theorem ringPut_shadow (s : State) (ring : Nat) (r : Rec) : (ringPut s ring r).regs.shadow = s.regs.shadow := by
  unfold ringPut
  simp only
  split
  · split <;> simp [msix_shadow]
  · simp

theorem eventTo_shadow (s : State) (ring : Nat) (e : Event) : (eventTo s ring e).regs.shadow = s.regs.shadow := by
  unfold eventTo
  simp only
  split
  · split <;> simp [setInt_shadow]
  · simp only [orderTick]
    split <;> simp [ringPut_shadow]

theorem raisePf_shadow (s : State) (e : Event) : (raisePf s e).regs.shadow = s.regs.shadow := by
  simp [raisePf, eventTo_shadow]

/-! ### The events of a start, and its firmware record -/

@[simp] theorem startEvent_boot (s : State) (code : Nat) (payload : List Nat) : (startEvent s code payload).boot = s.boot := raisePf_boot ..
@[simp] theorem startPhase_boot (s : State) (phase : Nat) : (startPhase s phase).boot = s.boot := raisePf_boot ..
@[simp] theorem startEvent_shadow (s : State) (code : Nat) (payload : List Nat) : (startEvent s code payload).regs.shadow = s.regs.shadow := raisePf_shadow ..
@[simp] theorem startPhase_shadow (s : State) (phase : Nat) : (startPhase s phase).regs.shadow = s.regs.shadow := raisePf_shadow ..
@[simp] theorem fwPut_boot (s : State) (o n v : Nat) : (fwPut s o n v).boot = s.boot := rfl
@[simp] theorem fwPut_regs (s : State) (o n v : Nat) : (fwPut s o n v).regs = s.regs := rfl
@[simp] theorem fwFlag_boot (s : State) (i : Nat) (b : Bool) : (fwFlag s i b).boot = s.boot := rfl
@[simp] theorem fwFlag_regs (s : State) (i : Nat) (b : Bool) : (fwFlag s i b).regs = s.regs := rfl

/-! ### Rails (R940-R943) -/

theorem powerDown_boot (s : State) : (powerDown s).boot = { s.boot with rails := [] } := by
  unfold powerDown
  rw [foldl_keep State.boot _ fun s r => by simp]
  rfl

theorem powerDown_shadow (s : State) : (powerDown s).regs.shadow = s.regs.shadow := by
  unfold powerDown
  rw [foldl_keep (fun s => s.regs.shadow) _ fun s r => by simp]
  rfl

/-- A start that stops: what is powered goes down where the device sequences its rails (R943). -/
theorem stopStart_boot (s : State) (cause what : Nat) : (stopStart s cause what).boot =
    { s.boot with failed := true, stopped := true, rails := if sequenced s then [] else s.boot.rails } := by
  unfold stopStart
  by_cases h : sequenced s = true <;> simp [h, powerDown_boot]

theorem stopStart_shadow (s : State) (cause what : Nat) : (stopStart s cause what).regs.shadow = s.regs.shadow := by
  unfold stopStart
  by_cases h : sequenced s = true <;> simp [h, powerDown_shadow]

theorem stopStart_state (s : State) (cause what : Nat) : odGet (stopStart s cause what) 0x4040 7 = 4 := odGet_odSet_same ..

/-- Rails that come up next are switched on (R940). -/
theorem switchOn_boot (l : List Nat) (s : State) : (l.foldl (fun s r => emit s (.rail r true)) s).boot = s.boot :=
  foldl_keep State.boot (fun s r => emit s (.rail r true)) (fun _ _ => rfl) l s

theorem switchOn_shadow (l : List Nat) (s : State) : (l.foldl (fun s r => emit s (.rail r true)) s).regs.shadow = s.regs.shadow :=
  foldl_keep (fun s => s.regs.shadow) (fun s r => emit s (.rail r true)) (fun _ _ => rfl) l s

/-- The rails start, or the start stops. -/
theorem startRails_boot (s : State) : ∃ f p r, (startRails s).boot = { s.boot with failed := f, stopped := p, rails := r } := by
  unfold startRails
  split
  · exact ⟨_, _, _, stopStart_boot ..⟩
  · split
    · exact ⟨_, _, _, switchOn_boot ..⟩
    · exact ⟨_, _, _, rfl⟩

theorem startRails_shadow (s : State) : (startRails s).regs.shadow = s.regs.shadow := by
  unfold startRails
  split
  · exact stopStart_shadow ..
  · split
    · exact switchOn_shadow ..
    · rfl

/-- Rails that the device does not sequence are only checked (R941). -/
theorem startRails_present {s : State} (hs : sequenced s = false) (hp : ∀ r, r < 9 → railPresent s r = true) : startRails s = s := by
  have ha : [0, 1, 2, 3, 4, 5, 6, 7, 8].all (railPresent s) = true := List.all_eq_true.mpr fun r hr => hp r (by simp at hr; omega)
  simp only [startRails, ha, hs, Bool.not_true, Bool.false_eq_true, if_false]

/-! ### Every rail is up -/

theorem linkRoles_boot (s : State) : (linkRoles s).boot = s.boot := by unfold linkRoles; split <;> rfl
theorem linkRoles_ctl (s : State) : (linkRoles s).ctl = s.ctl := by unfold linkRoles; split <;> rfl

/-- A port that leaves OFF, and one that is masked, go into training at most: their dictionary entries stay. -/
theorem applyKqCtl_ctl {s : State} {n : Nat} (h : (linkOf s n).state = 0) : (applyKqCtl s n).ctl = s.ctl := by
  have hp : (modLink s n fun l => { l with state := 5, nextTry := none }).ctl = s.ctl := rfl
  have ht (u : State) : (sendTopology u).ctl = u.ctl := (sendTopology_only (.refl [.regs, .fab] u) (List.Subset.refl _)).only.keeps .ctl (by decide)
  have hs : (startTraining s n).ctl = s.ctl := (startTraining_only (.refl [.regs, .fab] s) (List.Subset.refl _)).only.keeps .ctl (by decide)
  unfold applyKqCtl
  simp only [h]
  split
  · exact (ht _).trans hp
  · split
    · rfl
    · exact hs

/-- The port begins to train once the rails are up. -/
def portStarted (s : State) (n : Nat) : State :=
  if (linkOf s n).state == 4 then startTraining s n else if (linkOf s n).state == 0 then applyKqCtl s n else s

theorem portStarted_ctl (s : State) (n : Nat) : (portStarted s n).ctl = s.ctl := by
  unfold portStarted
  split
  · exact (startTraining_only (.refl [.regs, .fab] s) (List.Subset.refl _)).only.keeps .ctl (by decide)
  · split
    · next h => exact applyKqCtl_ctl (eq_of_beq h)
    · rfl

theorem portStarted_boot (s : State) (n : Nat) : (portStarted s n).boot = s.boot := by
  unfold portStarted
  split
  · exact (startTraining_only (.refl [.regs, .fab] s) (List.Subset.refl _)).only.keeps .boot (by decide)
  · split
    · exact (applyKqCtl_only (.refl [.out, .regs, .fab, .ctl, .mgt, .alm, .tel] s) (List.Subset.refl _)).only.keeps .boot (by decide)
    · rfl

/-- The state in which the ports begin to train. -/
def railsPassed (s : State) : State := startPhase (startPhase ((linkRoles s).modBoot fun b => { b with passed := true, stopped := false }) 1) 2

theorem passRails_eq (s : State) : passRails s = (List.range 17).foldl portStarted (railsPassed s) := rfl

theorem passRails_boot (s : State) : (passRails s).boot = { s.boot with passed := true, stopped := false } := by
  rw [passRails_eq, foldl_keep State.boot _ portStarted_boot]
  simp [railsPassed, linkRoles_boot]

theorem passRails_odGet (s : State) {i k : Nat} (h : OffBus i k) : odGet (passRails s) i k = odGet s i k := by
  rw [passRails_eq, odGet_of_ctl (foldl_keep State.ctl _ portStarted_ctl ..)]
  simp only [railsPassed, startPhase, startEvent, raisePf_odGet _ _ h]
  exact odGet_of_ctl (linkRoles_ctl s) i k

/-! ### The always-on domain starts (R945, R951, R953) -/

theorem startAon_boot (s : State) (imgs : Nat → Bundle) :
    (startAon s imgs).boot.mgmt = true ∧ (startAon s imgs).boot.ready = s.boot.ready ∧ (startAon s imgs).boot.straps = s.boot.straps := by
  unfold startAon
  generalize chooseImage s _ = choice
  obtain ⟨img, tried, other⟩ := choice
  cases img with
  | none => cases tried <;> simp
  | some i =>
    simp only
    obtain ⟨f, p, r, hb⟩ := startRails_boot (startPhase _ 0)
    rw [hb]
    cases tried <;> cases other <;> simp

theorem startAon_shadow (s : State) (imgs : Nat → Bundle) : (startAon s imgs).regs.shadow = s.regs.shadow := by
  unfold startAon
  generalize chooseImage s _ = choice
  obtain ⟨img, tried, other⟩ := choice
  cases img with
  | none => cases tried <;> simp
  | some i =>
    simp only [startRails_shadow]
    cases tried <;> cases other <;> simp

/-! ### Cold resets (R16, R939, R947, R993) -/

/-- What a cold reset loses is at its reset value. -/
structure Volatile (t : State) : Prop where
  work : t.work = {}
  serve : t.serve = {}
  eph : t.eph = {}
  mem : t.mem = {}
  tabs : t.tabs = {}
  mer : t.mer = {}
  ras : t.ras = {}
  ptns : t.ptns = List.replicate 32 {}
  qtrs : t.qtrs = List.replicate 4 {}

/-- The parts that the start of the always-on domain may change. -/
def aonParts : List Part := [.out, .regs, .cons, .ctl, .mgt, .alm, .tel, .boot]

theorem Volatile.of_within {s t : State} (h : Volatile s) (hw : Within aonParts s t) : Volatile t where
  work := (hw.only.keeps .work (by decide)).trans h.work
  serve := (hw.only.keeps .serve (by decide)).trans h.serve
  eph := (hw.only.keeps .eph (by decide)).trans h.eph
  mem := (hw.only.keeps .mem (by decide)).trans h.mem
  tabs := (hw.only.keeps .tabs (by decide)).trans h.tabs
  mer := (hw.only.keeps .mer (by decide)).trans h.mer
  ras := (hw.only.keeps .ras (by decide)).trans h.ras
  ptns := (hw.only.keeps .ptns (by decide)).trans h.ptns
  qtrs := (hw.only.keeps .qtrs (by decide)).trans h.qtrs

theorem loadAlmanac_shadow (s : State) : (loadAlmanac s).regs.shadow = s.regs.shadow := by
  unfold loadAlmanac
  simp only
  split
  · simp only [State.modMgt_regs, State.modCons_regs, State.modCtl_regs]
    rw [foldl_keep (fun s => s.regs.shadow) _ fun s i => by rw [odSet_regs]]
    rfl
  · simp only [State.modCons_regs, State.modCtl_regs]
    rw [foldl_keep (fun s => s.regs.shadow) _ fun s i => by rw [odSet_regs]]
    rfl

/-- The straps that a cold reset latches: PAIR_POS reads unpaired for the reserved value (R558). -/
def latchedStraps (straps : Nat) : Nat := straps % 128 - bits straps 0 2 + if bits straps 0 2 < 2 then bits straps 0 2 else 2

theorem bits_latchedStraps (straps : Nat) : bits (latchedStraps straps) 2 5 = bits straps 2 5 := by
  unfold latchedStraps
  generalize hp : (if bits straps 0 2 < 2 then bits straps 0 2 else 2) = pos
  have hlt : pos < 3 := by split at hp <;> omega
  simp only [bits]
  omega

/-- A cold state comes of one that has nothing but its outputs, its Almanac and its straps. -/
theorem coldState_from (s : State) (straps : Nat) : ∃ b : State, Volatile b ∧ b.out = s.out ∧ b.boot = { straps := latchedStraps straps } ∧
    b.regs.shadow = [] ∧ Within [.regs, .cons, .ctl, .mgt, .alm] b (coldState s straps) ∧ (coldState s straps).regs.shadow = b.regs.shadow := by
  generalize hc : coldState s straps = c
  unfold coldState at hc
  extract_lets alm pos boot b b1 at hc
  have hb1 : Within [.regs, .cons, .ctl, .mgt, .alm] b b1 := loadAlmanac_only (.refl ..) (by decide)
  have hsh : b1.regs.shadow = b.regs.shadow := loadAlmanac_shadow b
  refine ⟨b, ⟨rfl, rfl, rfl, rfl, rfl, rfl, rfl, rfl, rfl⟩, rfl, rfl, rfl, hc ▸ ite_only (setReg_only hb1 (by decide)) hb1, ?_⟩
  rw [← hc, ← hsh]
  split <;> rfl

theorem coldState_volatile (s : State) (straps : Nat) : Volatile (coldState s straps) := by
  obtain ⟨b, hv, -, -, -, hw, -⟩ := coldState_from s straps
  exact hv.of_within (hw.mono (by decide))

theorem coldState_boot (s : State) (straps : Nat) : (coldState s straps).boot = { straps := latchedStraps straps } := by
  obtain ⟨b, -, -, hb, -, hw, -⟩ := coldState_from s straps
  exact (hw.only.keeps .boot (by decide)).trans hb

theorem coldState_out (s : State) (straps : Nat) : (coldState s straps).out = s.out := by
  obtain ⟨b, -, ho, -, -, hw, -⟩ := coldState_from s straps
  exact (hw.only.keeps .out (by decide)).trans ho

theorem coldState_shadow (s : State) (straps : Nat) : (coldState s straps).regs.shadow = [] := by
  obtain ⟨b, -, -, -, hb, -, hs⟩ := coldState_from s straps
  exact hs.trans hb

/-- The always-on domain starts from a cold state. -/
structure ColdStarted (straps : Nat) (t : State) : Prop where
  mgmt : t.boot.mgmt = true
  ready : t.boot.ready = false
  straps : t.boot.straps = latchedStraps straps
  shadow : t.regs.shadow = []
  volatile : Volatile t

theorem startAon_coldStarted {s : State} {straps : Nat} (imgs : Nat → Bundle) (hb : s.boot = { straps := latchedStraps straps })
    (hs : s.regs.shadow = []) (hv : Volatile s) : ColdStarted straps (startAon s imgs) := by
  obtain ⟨hmgmt, hready, hstraps⟩ := startAon_boot s imgs
  rw [hb] at hready hstraps
  exact ⟨hmgmt, hready, hstraps, (startAon_shadow s imgs).trans hs, hv.of_within (startAon_only (.refl ..) (by decide))⟩

/-- A start that begins anew (R947). -/
theorem restartAon_coldStarted (s : State) (cause : Nat) (imgs : Nat → Bundle) : ColdStarted s.boot.straps (restartAon s cause imgs) := by
  unfold restartAon
  extract_lets s1 s2 c
  refine startAon_coldStarted imgs (coldState_boot s2 _) (coldState_shadow s2 _) ?_
  exact (coldState_volatile s2 _).of_within (modAlm_only (f := fun a => { a with waiting := s2.alm.waiting }) (.refl aonParts c) (by decide))

end Sys2Proof.Machine
end

section
/-! PROOFS. Obligation O13, continued: the warm reset, the rails and Nightfall (R943-R961). -/

namespace Sys2Proof.Machine
open Sys2Proof

/-! ### The fall of RST_N (R955, R956) -/

theorem stopPlane_ptns (s : State) : (stopPlane s).ptns = s.ptns :=
  (stopPlane_only (.refl [.out, .regs, .eph, .work, .mem, .serve, .fab, .ctl, .mgt, .alm, .tel, .boot] s) (List.Subset.refl _)).only.keeps .ptns (by decide)

theorem stopPlane_boot (s : State) : (stopPlane s).boot.stopped = true ∧ (stopPlane s).boot.ready = false := ⟨rfl, rfl⟩

/-- The FINAL record of a partition is kept. -/
def finalKept (s : State) (p : Nat) : State :=
  (keepRecord (nextSnap s).2 p (ptnRecord (nextSnap s).2 (telNow (nextSnap s).2) p (nextSnap s).1)).modBoot fun b => { b with
    finals := b.finals.filter (·.1 != p) ++ [(p, (nextSnap s).1)] }

theorem finalKept_boot (s : State) (p : Nat) : (finalKept s p).boot.stopped = s.boot.stopped ∧ (finalKept s p).boot.ready = s.boot.ready := ⟨rfl, rfl⟩
theorem finalKept_ptns (s : State) (p : Nat) : (finalKept s p).ptns = s.ptns := rfl

/-- A partition is discarded and goes to SCRUBBING, where it is not there. -/
def ptnScrubbed (s : State) (p : Nat) : State :=
  if (getPtn s p).state == .scrubbing then discardPtn s p else goPtn (discardPtn s p) p .scrubbing 6

theorem discardPtn_ptns (s : State) (p : Nat) : (discardPtn s p).ptns = s.ptns :=
  (discardPtn_only (.refl [.regs, .eph, .work, .tabs, .mem, .serve, .fab, .px] s) (List.Subset.refl _)).only.keeps .ptns (by decide)
theorem discardPtn_boot (s : State) (p : Nat) : (discardPtn s p).boot = s.boot :=
  (discardPtn_only (.refl [.regs, .eph, .work, .tabs, .mem, .serve, .fab, .px] s) (List.Subset.refl _)).only.keeps .boot (by decide)

theorem journalState_ptns (s : State) (p old new : Nat) : (journalState s p old new).ptns = s.ptns :=
  (journalState_only (.refl [.ctl, .alm] s) (List.Subset.refl _)).only.keeps .ptns (by decide)
theorem goPtn_ptns (s : State) (p : Nat) (st : PState) (cause : Nat) : (goPtn s p st cause).ptns = modAt s.ptns p fun x => { x with state := st } := by
  simp only [goPtn, raisePf_ptns, journalState_ptns]
  rfl
theorem goPtn_boot (s : State) (p : Nat) (st : PState) (cause : Nat) : (goPtn s p st cause).boot = s.boot :=
  (goPtn_only (.refl [.out, .regs, .ptns, .ctl, .mgt, .alm, .tel] s) (List.Subset.refl _)).only.keeps .boot (by decide)

theorem ptnScrubbed_boot (s : State) (p : Nat) : (ptnScrubbed s p).boot = s.boot := by
  unfold ptnScrubbed
  split
  · exact discardPtn_boot ..
  · rw [goPtn_boot, discardPtn_boot]

theorem ptnScrubbed_length (s : State) (p : Nat) : (ptnScrubbed s p).ptns.length = s.ptns.length := by
  unfold ptnScrubbed
  split
  · rw [discardPtn_ptns]
  · rw [goPtn_ptns, length_modAt, discardPtn_ptns]

theorem ptnScrubbed_state {s : State} {p : Nat} (hp : p < s.ptns.length) (q : Nat) :
    (getPtn (ptnScrubbed s p) q).state = if q = p then .scrubbing else (getPtn s q).state := by
  unfold ptnScrubbed
  by_cases h : (getPtn s p).state = .scrubbing
  · rw [if_pos (beq_iff_eq.mpr h), getPtn, discardPtn_ptns]
    split
    · next hq => exact hq ▸ h
    · rfl
  · rw [if_neg (mt eq_of_beq h), getPtn, goPtn_ptns, discardPtn_ptns]
    split
    · next hq => rw [hq, getD_modAt_same hp]
    · next hq => rw [getD_modAt_other hq]; rfl

/-- Of the partitions listed every one reads SCRUBBING, and no other changes its state. -/
theorem foldl_ptnScrubbed_state (l : List Nat) (s : State) (hl : ∀ p ∈ l, p < s.ptns.length) (q : Nat) :
    (getPtn (l.foldl ptnScrubbed s) q).state = if q ∈ l then .scrubbing else (getPtn s q).state := by
  induction l generalizing s with
  | nil => simp
  | cons p l ih =>
    have hp := hl p List.mem_cons_self
    rw [List.foldl_cons, ih _ fun r hr => (ptnScrubbed_length s p).symm ▸ hl r (List.mem_cons_of_mem _ hr), ptnScrubbed_state hp]
    by_cases hq : q = p <;> simp [hq]

/-- Partitions that are not VACANT. -/
def occupied (s : State) : List Nat := (List.range 32).filter fun p => (getPtn s p).state != .vacant

theorem mem_occupied {s : State} {p : Nat} : p ∈ occupied s ↔ p < 32 ∧ (getPtn s p).state ≠ .vacant := by simp [occupied]

/-- The state in which the data plane has stopped, the FINAL records are kept and the partitions are discarded. -/
def planeDiscarded (s : State) : State :=
  (occupied s).foldl ptnScrubbed (dropRole ((occupied s).foldl finalKept
    ((stopPlane s).modBoot fun b => { b with finals := b.finals.filter fun f => !(occupied s).contains f.1 })) .pf)

theorem dropRole_ptns (s : State) (m : Master) : (dropRole s m).ptns = s.ptns :=
  (dropRole_only (.refl [.ctl, .alm] s) (List.Subset.refl _)).only.keeps .ptns (by decide)
theorem dropRole_boot (s : State) (m : Master) : (dropRole s m).boot = s.boot :=
  (dropRole_only (.refl [.ctl, .alm] s) (List.Subset.refl _)).only.keeps .boot (by decide)

theorem planeDiscarded_boot (s : State) : (planeDiscarded s).boot.stopped = true ∧ (planeDiscarded s).boot.ready = false := by
  rw [planeDiscarded, foldl_keep State.boot _ ptnScrubbed_boot, dropRole_boot, foldl_keep (fun s => s.boot.stopped) _ fun s p => (finalKept_boot s p).1,
    foldl_keep (fun s => s.boot.ready) _ fun s p => (finalKept_boot s p).2]
  exact stopPlane_boot s

theorem planeDiscarded_state {s : State} (hl : s.ptns.length = 32) (q : Nat) :
    (getPtn (planeDiscarded s) q).state = if q ∈ occupied s then .scrubbing else (getPtn s q).state := by
  have h : (dropRole ((occupied s).foldl finalKept ((stopPlane s).modBoot fun b => { b with
      finals := b.finals.filter fun f => !(occupied s).contains f.1 })) .pf).ptns = s.ptns := by
    rw [dropRole_ptns, foldl_keep State.ptns _ finalKept_ptns, State.modBoot_ptns, stopPlane_ptns]
  rw [planeDiscarded, foldl_ptnScrubbed_state _ _ fun p hp => by rw [h, hl]; exact (mem_occupied.mp hp).1]
  simp only [getPtn, h]

theorem warmState_ptns (s : State) : (warmState s).ptns = (planeDiscarded s).ptns.map fun t =>
    { state := t.state, before := t.before, cons := t.cons, peers := t.peers, cmdResult := t.cmdResult } := rfl
theorem warmState_store (s : State) : (warmState s).regs.store = warmRegs (planeDiscarded s) := rfl

/-- Partitions that are not VACANT read SCRUBBING (R955). -/
theorem warmState_state {s : State} (hl : s.ptns.length = 32) {p : Nat} (hp : p < 32) :
    (getPtn (warmState s) p).state = if (getPtn s p).state = .vacant then .vacant else .scrubbing := by
  have hmap : (getPtn (warmState s) p).state = (getPtn (planeDiscarded s) p).state := by
    simp only [getPtn, warmState_ptns, List.getD_eq_getElem?_getD, List.getElem?_map]
    cases (planeDiscarded s).ptns[p]? <;> rfl
  rw [hmap, planeDiscarded_state hl]
  by_cases hv : (getPtn s p).state = .vacant
  · rw [if_neg (fun h => (mem_occupied.mp h).2 hv), if_pos hv, hv]
  · rw [if_pos (mem_occupied.mpr ⟨hp, hv⟩), if_neg hv]

/-- An unlisted key reads as its default. -/
theorem sget_of_unlisted {α : Type} {d : Nat → α} {m : List (Nat × α)} {k : Nat} (h : ∀ e ∈ m, e.1 ≠ k) : sget d m k = d k := by
  induction m with
  | nil => rfl
  | cons e r ih =>
    rw [sget, if_neg (h e List.mem_cons_self)]
    exact ih fun e he => h e (List.mem_cons_of_mem _ he)

/-- A register that a warm reset loses (R16): it holds no RWS bit, and is neither of the identity, nor FATAL's, nor KQ_CTL. -/
theorem warmRegs_unlisted {s : State} {off : Nat} (hid : off ∉ [0x20, 0x24, 0x28, 0x400])
    (hi : ∀ i, regInfo off = some i → i.rws = 0 ∧ (i.dom = some .fabric → ¬(0x400000 ≤ off ∧ off < 0x504000 ∧ off % 0x10000 = 0))) :
    ∀ e ∈ warmRegs s, e.1 ≠ off := by
  rintro e he rfl
  obtain ⟨e₀, -, h⟩ := List.mem_filterMap.mp he
  simp only [List.mem_cons, List.not_mem_nil, or_false, not_or] at hid
  obtain ⟨h20, h24, h28, h400⟩ := hid
  split at h
  · next i hr =>
    split at h
    · next hc =>
      obtain rfl := Option.some.inj h
      simp only [Bool.or_eq_true, decide_eq_true_eq, bne_iff_ne, h20, h24, h28, false_or] at hc
      exact hc (hi i hr).1
    · split at h
      · next hc =>
        split at h
        · cases h
        · exact h400 (congrArg Prod.fst (Option.some.inj h) ▸ hc)
      · split at h
        · next hc =>
          obtain rfl := Option.some.inj h
          simp only [Bool.and_eq_true, decide_eq_true_eq, beq_iff_eq] at hc
          obtain ⟨⟨⟨hlo, hhi⟩, hmod⟩, hdom⟩ := hc
          exact (hi i hr).2 hdom ⟨hlo, hhi, hmod⟩
        · cases h
  · cases h

theorem warmState_getReg {s : State} {off : Nat} (hid : off ∉ [0x20, 0x24, 0x28, 0x400])
    (hi : ∀ i, regInfo off = some i → i.rws = 0 ∧ (i.dom = some .fabric → ¬(0x400000 ≤ off ∧ off < 0x504000 ∧ off % 0x10000 = 0))) :
    getReg (warmState s) off = resetValue off := by
  rw [getReg, warmState_store, sget_of_unlisted (warmRegs_unlisted hid hi)]

theorem warmState_boot (s : State) : (warmState s).boot.stopped = true ∧ (warmState s).boot.ready = false ∧ (warmState s).boot.warm = true :=
  ⟨(planeDiscarded_boot s).1, (planeDiscarded_boot s).2, rfl⟩

theorem execWarmResetAssert_falls {s : State} (hm : s.boot.mgmt = true) (hn : s.boot.rstN = false) :
    execWarmResetAssert s = .next ((warmState s).modBoot fun b => { b with rstN := true }) := by
  simp only [execWarmResetAssert, hm, hn, Bool.not_true, Bool.or_self, Bool.false_eq_true, if_false]

/-! ### The rise of RST_N -/

theorem resumeStart_boot (s : State) : (resumeStart s).boot.rstN = false ∧ (resumeStart s).boot.since = s.mer.osc ∧
    (resumeStart s).boot.warm = s.boot.warm ∧ (resumeStart s).boot.ready = s.boot.ready := by
  unfold resumeStart
  simp only
  split
  · exact ⟨rfl, rfl, rfl, rfl⟩
  · split
    · rw [passRails_boot]; exact ⟨rfl, rfl, rfl, rfl⟩
    · obtain ⟨f, p, r, hb⟩ := startRails_boot (if sequenced s = true then _ else _)
      rw [hb]
      split <;> exact ⟨rfl, rfl, rfl, rfl⟩

/-- The state in which a start resumes. -/
def resumed (s : State) : State := odSet (s.modBoot fun b => { b with rstN := false, since := s.mer.osc }) 0x4040 7 2

theorem offBus_start (k : Nat) (hk : k < 256) : OffBus 0x4040 k := by
  unfold OffBus odKey
  omega

/-- Rails that have stayed up pass at once (R956). -/
theorem resumeStart_up {s : State} (hr : s.boot.recovery = false) (hs : sequenced s = true) (ha : railOrder.flatten.all s.boot.rails.contains = true) :
    resumeStart s = passRails (resumed s) := by
  simp only [resumeStart, hr, hs, ha, Bool.and_self, Bool.false_eq_true, if_false, if_true]
  rfl

/-- Rails that the device does not sequence are checked again (R956). -/
theorem resumeStart_checked {s : State} (hr : s.boot.recovery = false) (hs : sequenced s = false) (hp : ∀ r, r < 9 → railPresent s r = true) :
    resumeStart s = (resumed s).modBoot fun b => { b with rails := [] } := by
  have hp' (r : Nat) (h : r < 9) : railPresent ((resumed s).modBoot fun b => { b with rails := [] }) r = true := by
    rw [← hp r h, railPresent, railPresent]
    refine congrArg (bit · 7) (odGet_odSet_other _ _ ?_)
    unfold odKey
    omega
  have hs' : sequenced ((resumed s).modBoot fun b => { b with rails := [] }) = false := hs
  rw [← startRails_present hs' hp']
  simp only [resumeStart, hr, hs, Bool.false_and, Bool.false_eq_true, if_false]
  rfl

theorem execWarmResetRelease_resumes {s : State} (hr : s.boot.rstN = true) (hl : s.boot.lostRefs.contains 0 = false) :
    execWarmResetRelease s = .next (resumeStart s) := by
  simp only [execWarmResetRelease, hr, hl, Bool.not_false, Bool.and_self, if_true]

/-! ### Rails -/

/-- A rail comes into range. -/
def railUp (s : State) (rail mv : Nat) : State := startEvent (s.modBoot fun b => { b with rails := b.rails ++ [rail] }) 0x25 [rail, mv, 1]

theorem execRailInRange_boot {rail mv : Nat} {s : State} (hm : s.boot.mgmt = true) (hf : s.boot.failed = false) (hp : s.boot.passed = false)
    (hr : s.boot.recovery = false) (hn : s.boot.rstN = false) (hlt : rail < 9) (hc : s.boot.rails.contains rail = false)
    (hg : sequenced s = true → (railGroup s).contains rail = true) :
    ∃ t, execRailInRange rail mv s = .next t ∧ t.boot.rails = s.boot.rails ++ [rail] ∧ t.boot.ready = s.boot.ready := by
  have hg' : (sequenced s && !(railGroup s).contains rail) = false := by
    cases h : sequenced s with
    | false => rfl
    | true => rw [hg h]; rfl
  have hu : (railUp s rail mv).boot = { s.boot with rails := s.boot.rails ++ [rail] } := startEvent_boot ..
  refine ⟨_, rfl, ?_⟩
  simp only [hm, hf, hp, hr, hn, hc, hg', Nat.not_le.mpr hlt, decide_false, Bool.not_true, Bool.or_self, Bool.false_eq_true, if_false]
  rw [← railUp]
  split
  · rw [passRails_boot, hu]; exact ⟨rfl, rfl⟩
  · split
    · rw [switchOn_boot, hu]; exact ⟨rfl, rfl⟩
    · rw [hu]; exact ⟨rfl, rfl⟩

/-- An abort of Nightfall (R961). -/
theorem abortNightfall_running {s : State} (h : s.boot.nfState = 1) : abortNightfall s = endNightfall s 4 := if_pos h

theorem endNightfall_state (s : State) (st : Nat) : (endNightfall s st).boot.nfState = st ∧ odGet (endNightfall s st) 0x4040 4 = st := by
  refine ⟨by simp [endNightfall], ?_⟩
  simp only [endNightfall, startEvent, raisePf_odGet _ _ (offBus_start 4 (by decide)), odGet_odSet_same]

/-! ### DATA_READY (R944, R946) -/

/-- A partition is released: its constellations are awake, and its scrub has done the memories. -/
def ptnReleased (s : State) (p : Nat) : State :=
  ((getPtn s p).cons.filterMap (physOf s)).foldl (fun s x => modCon s x fun c => { c with pwr := .awake, init := true, beatAt := now s })
    (modPtn s p fun t => { t with scrubStep := 3 })

theorem ptnReleased_boot (s : State) (p : Nat) : (ptnReleased s p).boot = s.boot := by
  rw [ptnReleased, foldl_keep State.boot _ fun s x => by rw [modCon_boot]]
  rfl
theorem ptnReleased_out (s : State) (p : Nat) : (ptnReleased s p).out = s.out := by
  rw [ptnReleased, foldl_keep State.out _ fun s x => by rw [modCon_out]]
  rfl

/-- A start that is ready sets its pin and releases the partitions. -/
def startEnded (s : State) (ms : Nat) (ps : List Nat) : State :=
  ps.foldl ptnReleased (emit (odSet (s.modBoot fun b => { b with ready := true, trial := none, releases := [] }) 0x4040 8 ms) (.pin 2 1))

theorem startEnded_boot (s : State) (ms : Nat) (ps : List Nat) : (startEnded s ms ps).boot = { s.boot with ready := true, trial := none, releases := [] } := by
  rw [startEnded, foldl_keep State.boot _ ptnReleased_boot]
  rfl
theorem startEnded_pin (s : State) (ms : Nat) (ps : List Nat) : Out.pin 2 1 ∈ (startEnded s ms ps).out := by
  rw [startEnded, foldl_keep State.out _ ptnReleased_out]
  exact List.mem_append_right _ (List.mem_singleton_self _)

theorem execDataReadyReached_ends {train : Train} {s : State} (hs : starting s = true) (hp : s.boot.passed = true) :
    ∃ u ms, execDataReadyReached train s = .next (startEnded u ms s.boot.releases) := by
  unfold execDataReadyReached
  rw [if_neg (by simp [hs, hp])]
  exact ⟨_, _, rfl⟩

/-! ### Nightfall (R958-R961) -/

theorem nfRecords_keeps (s : State) (found : List Found) : (nfRecords s found).boot = s.boot ∧ (nfRecords s found).mer = s.mer := by
  have h := (nfRecords_only (found := found) (.refl [.out, .regs, .cons, .work, .mem, .ctl, .mgt, .alm, .tel] s) (List.Subset.refl _)).only
  exact ⟨h.keeps .boot (by decide), h.keeps .mer (by decide)⟩

/-- Slices that follow each other without a hold. -/
theorem nfNext_slice {s : State} (hh : ((s.boot.nfStep = 3 ∧ s.boot.nfSlice = 1) ∨ (s.boot.nfStep = 6 ∧ (s.boot.nfSlice = 1 ∨ s.boot.nfSlice = 3))) → s.boot.nfHold = true)
    (hl : s.boot.nfSlice < nfSlices s.boot.nfStep) (hf : nfFits s s.boot.nfSliceMs = true) : nfNext s = s := by
  have hc : (((decide (s.boot.nfStep = 3) && decide (s.boot.nfSlice = 1)) ||
      (decide (s.boot.nfStep = 6) && (decide (s.boot.nfSlice = 1) || decide (s.boot.nfSlice = 3)))) && !s.boot.nfHold) = false := by
    cases h : s.boot.nfHold with
    | true => simp
    | false => simpa [h] using hh
  simp only [nfNext, hc, hl, hf, Bool.false_eq_true, if_false, if_true]

/-- A slice ends, with a hold before it or without one. -/
def sliceDone (s : State) (found : List Found) (hold : Bool) : State :=
  (nfRecords s found).modBoot fun b => { b with nfHold := hold, nfSlice := b.nfSlice + 1 }

theorem sliceDone_boot (s : State) (found : List Found) (hold : Bool) :
    (sliceDone s found hold).boot = { s.boot with nfHold := hold, nfSlice := s.boot.nfSlice + 1 } := by
  rw [sliceDone, State.modBoot_boot, (nfRecords_keeps s found).1]

theorem sliceDone_of_unheld {s : State} {found : List Found} (h : s.boot.nfHold = false) :
    (nfRecords s found).modBoot (fun b => { b with nfSlice := b.nfSlice + 1 }) = sliceDone s found false := by
  rw [sliceDone, State.modBoot, State.modBoot, (nfRecords_keeps s found).1, ← h]

theorem execNfSliceEnd_running {s : State} {found : List Found} (hs : s.boot.nfState = 1) (hh : s.boot.nfHold = false) :
    execNfSliceEnd found s = .next (nfNext (sliceDone s found false)) := by
  rw [execNfSliceEnd, if_neg (by simp [hs, hh]), sliceDone_of_unheld hh]

theorem execNfHoldEnd_held {s : State} {found : List Found} (hs : s.boot.nfState = 1) (hh : s.boot.nfHold = true) :
    execNfHoldEnd found s = .next (nfNext (sliceDone s found false)) := by
  rw [execNfHoldEnd, if_neg (by simp [hs, hh]), sliceDone]

theorem nfFits_sliceDone {s : State} {found : List Found} {hold : Bool} (h : nfFits s s.boot.nfSliceMs = true) :
    nfFits (sliceDone s found hold) (sliceDone s found hold).boot.nfSliceMs = true := by
  rw [nfFits, sliceDone_boot, sliceDone, State.modBoot_mer, (nfRecords_keeps s found).2]
  exact h

/-! ### A start that begins anew (R64, R947) -/

/-- A start that begins anew, or a command that changes nothing (R64, R947). -/
theorem does_restartAon {c : Instr} {s : State} {cause : Nat} {imgs : Nat → Bundle}
    (he : exec c s = .next (if starting s then restartAon s cause imgs else s)) : Does c s allParts fun t =>
      (starting s = true → t.boot.mgmt = true ∧ t.boot.ready = false ∧ t.work = {} ∧ t.serve = {} ∧ t.eph = {} ∧ t.mem = {}) ∧
      (starting s = false → t = s) := by
  cases hs : starting s with
  | true =>
    rw [hs, if_pos rfl] at he
    have h := restartAon_coldStarted s cause imgs
    exact .of_within he ⟨fun _ => ⟨h.mgmt, h.ready, h.volatile.work, h.volatile.serve, h.volatile.eph, h.volatile.mem⟩, nofun⟩
      (restartAon_only (.refl ..) (List.Subset.refl _))
  | false =>
    rw [hs, if_neg Bool.false_ne_true] at he
    exact .of_same he ⟨nofun, fun _ => rfl⟩

end Sys2Proof.Machine

open Sys2Proof Sys2Proof.Machine

/-- Settles O13. Each start and reset is taken at its parts: what a cold reset loses, what the always-on domain sets, what a warm reset keeps of the
registers and the partitions, and the branch that a rail, the end of a start or a slice of Nightfall takes. -/
theorem starts : Obligations.Starts := by
  unfold Obligations.Starts
  refine ⟨fun straps imgA imgB s => ?_, fun s => ?_, fun imgA imgB s => does_restartAon rfl, fun imgA imgB s => does_restartAon rfl,
    fun s hsh hm hn => ?_, fun s h => ?_, fun s hr hl => ?_, fun s hr hl => ?_, fun s hr => ?_, fun rail mv s hm hf hp hr hn hlt hc hg => ?_,
    fun rail s hs hp hlt hc => ?_, fun rail s => ?_, fun train s hs hp => ?_, fun found s hst hh hl hf h3 h6 => ?_, fun found s hst hh hsl hl hf => ?_⟩
  · have h := startAon_coldStarted (fun i => if i = 0 then imgA else imgB) (coldState_boot s straps) (coldState_shadow s straps) (coldState_volatile s straps)
    have hv := h.volatile
    exact .of_within rfl ⟨h.mgmt, h.ready, h.straps ▸ bits_latchedStraps straps, h.shadow, hv.work, hv.serve, hv.eph, hv.mem, hv.tabs, hv.mer, hv.ras, hv.ptns, hv.qtrs⟩
      (execColdReset_only (.refl ..) (List.Subset.refl _) rfl)
  · have hv := coldState_volatile s s.boot.straps
    exact .of_within rfl ⟨rfl, coldState_out s _, hv.work, hv.serve, hv.eph, hv.mem, hv.mer⟩ (execPwrGoodLoss_only (.refl ..) (List.Subset.refl _) rfl)
  · obtain ⟨-, -, hl, -⟩ := shaped_iff.mp hsh
    have he := execWarmResetAssert_falls hm hn
    have hw := execWarmResetAssert_only (.refl _ s) (List.Subset.refl _) he
    obtain ⟨hstop, hready, hwarm⟩ := warmState_boot s
    exact .of_within he ⟨rfl, hstop, hready, hwarm, rfl, rfl, rfl, rfl, rfl, rfl, rfl, rfl, rfl, rfl, rfl, hw.only.keeps .mer (by decide), rfl,
      fun p hp => warmState_state hl hp, fun off hid hi => warmState_getReg hid hi⟩ hw
  · have he : execWarmResetAssert s = .next s := by
      obtain h | h := h <;> simp [execWarmResetAssert, h]
    exact .of_same he rfl
  · have he := execWarmResetRelease_resumes hr hl
    obtain ⟨hn, hsince, hwarm, hready⟩ := resumeStart_boot s
    refine .of_within he ⟨hn, hsince, hwarm, hready, fun hrec hs ha => ?_, fun hrec hs hp => ?_⟩
      (execWarmResetRelease_only (.refl ..) (List.Subset.refl _) he)
    · rw [resumeStart_up hrec hs ha, passRails_boot, passRails_odGet _ (offBus_start 7 (by decide))]
      exact ⟨rfl, rfl, rfl, odGet_odSet_same ..⟩
    · rw [resumeStart_checked hrec hs hp]
      exact ⟨rfl, odGet_odSet_same ..⟩
  · have he : execWarmResetRelease s = .next (s.modBoot fun b => { b with rstN := false }) := by
      simp only [execWarmResetRelease, hr, hl, Bool.not_true, Bool.and_false, Bool.false_eq_true, if_false, if_true]
    exact .of_within he rfl (modBoot_only (.refl ..) (List.Subset.refl _))
  · have he : execWarmResetRelease s = .next s := by
      simp only [execWarmResetRelease, hr, Bool.false_and, Bool.false_eq_true, if_false]
    exact .of_same he rfl
  · obtain ⟨t, he, hrails, hready⟩ := execRailInRange_boot (mv := mv) hm hf hp hr hn hlt hc hg
    exact .of_within he ⟨hrails, hready⟩ (execRailInRange_only (.refl ..) (List.Subset.refl _) he)
  · have he : execRailWindowExpiry rail s = .next (stopStart s 0 rail) := by
      simp only [execRailWindowExpiry, hs, hp, hlt, hc, decide_true, Bool.not_false, Bool.and_self, if_true]
    refine .of_within he ?_ (execRailWindowExpiry_only (.refl ..) (List.Subset.refl _) he)
    rw [stopStart_boot]
    exact ⟨rfl, rfl, stopStart_state .., fun h => if_pos h⟩
  · have he : execRailFault rail s = .next _ := rfl
    refine .of_within he ⟨fun h => ?_, fun h hs => ?_, fun h hs => ?_⟩ (execRailFault_only (.refl ..) (List.Subset.refl _) he)
    · rw [if_pos h, abortNightfall_running h]
      exact endNightfall_state s 4
    · rw [if_neg h, if_pos hs, stopStart_boot]
      exact ⟨rfl, stopStart_state ..⟩
    · rw [if_neg h, hs, if_neg Bool.false_ne_true]
  · obtain ⟨u, ms, he⟩ := execDataReadyReached_ends (train := train) hs hp
    refine .of_within he ?_ (execDataReadyReached_only (.refl ..) (List.Subset.refl _) he)
    rw [startEnded_boot]
    exact ⟨rfl, rfl, rfl, startEnded_pin ..⟩
  · have hb := sliceDone_boot s found false
    have hnext : nfNext (sliceDone s found false) = sliceDone s found false := by
      refine nfNext_slice ?_ (hb ▸ hl) (nfFits_sliceDone hf)
      rw [hb]
      exact fun h => absurd h (by simp only [h3, h6, false_and, or_self, not_false_eq_true])
    have he := (execNfSliceEnd_running (found := found) hst hh).trans (congrArg _ hnext)
    exact .of_within he (hb ▸ ⟨rfl, rfl, hst⟩) (execNfSliceEnd_only (.refl ..) (List.Subset.refl _) he)
  · have hb := sliceDone_boot s found false
    have hnext : nfNext (sliceDone s found false) = sliceDone s found false := by
      refine nfNext_slice ?_ (hb ▸ hl) (nfFits_sliceDone hf)
      rw [hb]
      simp only
      omega
    have he := (execNfHoldEnd_held (found := found) hst hh).trans (congrArg _ hnext)
    exact .of_within he (hb ▸ ⟨rfl, rfl, hst⟩) (execNfHoldEnd_only (.refl ..) (List.Subset.refl _) he)
end

section
/-! PROOFS. Obligation O4: what no command and no step takes from the state, from the frame lemma of each command (R40, R41, R406, R532, R681, R729). -/

namespace Sys2Proof.Machine
open Sys2Proof

theorem subset_allParts (ps : List Part) : ps ⊆ allParts := fun p _ => by cases p <;> decide

/-- Every command keeps the population, the canonical forms and the queue: the lemma of its own meaning says so. -/
theorem exec_holds (s : State) : ∀ c, Holds (InNext allParts s) (exec c s)
  | .coldReset .. => execColdReset_holds (.refl ..) (subset_allParts _)
  | .pwrGoodLoss => execPwrGoodLoss_holds (.refl ..) (subset_allParts _)
  | .warmResetAssert => execWarmResetAssert_holds (.refl ..) (subset_allParts _)
  | .warmResetRelease => execWarmResetRelease_holds (.refl ..) (subset_allParts _)
  | .vfFlr .. => execVfFlr_holds (.refl ..) (subset_allParts _)
  | .regWrite .. => execRegWrite_holds (.refl ..) (subset_allParts _)
  | .aliasWrite .. => execAliasWrite_holds (.refl ..) (subset_allParts _)
  | .pairLoWrite .. => execPairLoWrite_holds (.refl ..) (subset_allParts _)
  | .pairHiWrite .. => execPairHiWrite_holds (.refl ..) (subset_allParts _)
  | .badAccessWrite .. => execBadAccessWrite_holds (.refl ..) (subset_allParts _)
  | .cycleBoundary .. => execCycleBoundary_holds (.refl ..) (subset_allParts _)
  | .wakeLeadReached .. => execWakeLeadReached_holds (.refl ..) (subset_allParts _)
  | .wakeComplete .. => execWakeComplete_holds (.refl ..) (subset_allParts _)
  | .sleepDrainDone .. => execSleepDrainDone_holds (.refl ..) (subset_allParts _)
  | .sramInitDone .. => execSramInitDone_holds (.refl ..) (subset_allParts _)
  | .railSettled .. => execRailSettled_holds (.refl ..) (subset_allParts _)
  | .computeSlotStart .. => execComputeSlotStart_holds (.refl ..) (subset_allParts _)
  | .entryEnd .. => execEntryEnd_holds (.refl ..) (subset_allParts _)
  | .barrierComplete .. => execBarrierComplete_holds (.refl ..) (subset_allParts _)
  | .slotOverrun .. => execSlotOverrun_holds (.refl ..) (subset_allParts _)
  | .borrowEnd .. => execBorrowEnd_holds (.refl ..) (subset_allParts _)
  | .abortEnd .. => execAbortEnd_holds (.refl ..) (subset_allParts _)
  | .contractExceeded .. => execContractExceeded_holds (.refl ..) (subset_allParts _)
  | .moverEntryStart .. => execMoverEntryStart_holds (.refl ..) (subset_allParts _)
  | .tierTransferDone .. => execTierTransferDone_holds (.refl ..) (subset_allParts _)
  | .transferEntryStart .. => execTransferEntryStart_holds (.refl ..) (subset_allParts _)
  | .bridgeEntryStart .. => execBridgeEntryStart_holds (.refl ..) (subset_allParts _)
  | .gateEntry .. => execGateEntry_holds (.refl ..) (subset_allParts _)
  | .refreshWindow .. => execRefreshWindow_holds (.refl ..) (subset_allParts _)
  | .recalMemWindow .. => execRecalMemWindow_holds (.refl ..) (subset_allParts _)
  | .recalSerdesWindow .. => execRecalSerdesWindow_holds (.refl ..) (subset_allParts _)
  | .recalSerdesWindowEnd .. => execRecalSerdesWindowEnd_holds (.refl ..) (subset_allParts _)
  | .ephLoadStart .. => execEphLoadStart_holds (.refl ..) (subset_allParts _)
  | .ephLoadAbort => execEphLoadAbort_holds (.refl ..) (subset_allParts _)
  | .ephLoadDone .. => execEphLoadDone_holds (.refl ..) (subset_allParts _)
  | .ephSwitchArm => execEphSwitchArm_holds (.refl ..) (subset_allParts _)
  | .ephSwitchDisarm => execEphSwitchDisarm_holds (.refl ..) (subset_allParts _)
  | .ringProdWrite .. => execRingProdWrite_holds (.refl ..) (subset_allParts _)
  | .ringConsWrite .. => execRingConsWrite_holds (.refl ..) (subset_allParts _)
  | .taskProgram .. => execTaskProgram_holds (.refl ..) (subset_allParts _)
  | .taskStatus .. => execTaskStatus_holds (.refl ..) (subset_allParts _)
  | .taskCancel .. => execTaskCancel_holds (.refl ..) (subset_allParts _)
  | .taskCounters .. => execTaskCounters_holds (.refl ..) (subset_allParts _)
  | .instrLdt .. => execInstrLdt_holds (.refl ..) (subset_allParts _)
  | .ldtComplete .. => execLdtComplete_holds (.refl ..) (subset_allParts _)
  | .instrStt .. => execInstrStt_holds (.refl ..) (subset_allParts _)
  | .sttWritten .. => execSttWritten_holds (.refl ..) (subset_allParts _)
  | .instrMma .. => execInstrMma_holds (.refl ..) (subset_allParts _)
  | .instrMmaq .. => execInstrMmaq_holds (.refl ..) (subset_allParts _)
  | .instrRope .. => execInstrRope_holds (.refl ..) (subset_allParts _)
  | .instrSmax .. => execInstrSmax_holds (.refl ..) (subset_allParts _)
  | .instrPv .. => execInstrPv_holds (.refl ..) (subset_allParts _)
  | .instrMrg .. => execInstrMrg_holds (.refl ..) (subset_allParts _)
  | .instrQnt .. => execInstrQnt_holds (.refl ..) (subset_allParts _)
  | .instrEnc .. => execInstrEnc_holds (.refl ..) (subset_allParts _)
  | .instrRed .. => execInstrRed_holds (.refl ..) (subset_allParts _)
  | .instrNorm .. => execInstrNorm_holds (.refl ..) (subset_allParts _)
  | .instrAct .. => execInstrAct_holds (.refl ..) (subset_allParts _)
  | .instrSamp .. => execInstrSamp_holds (.refl ..) (subset_allParts _)
  | .instrStop .. => execInstrStop_holds (.refl ..) (subset_allParts _)
  | .instrMov .. => execInstrMov_holds (.refl ..) (subset_allParts _)
  | .instrSync .. => execInstrSync_holds (.refl ..) (subset_allParts _)
  | .instrWait .. => execInstrWait_holds (.refl ..) (subset_allParts _)
  | .instrYield .. => execInstrYield_holds (.refl ..) (subset_allParts _)
  | .instrEnd .. => execInstrEnd_holds (.refl ..) (subset_allParts _)
  | .illegalInstruction .. => execIllegalInstruction_holds (.refl ..) (subset_allParts _)
  | .checkpoint64 .. => execCheckpoint64_holds (.refl ..) (subset_allParts _)
  | .reqSubmit .. => execReqSubmit_holds (.refl ..) (subset_allParts _)
  | .reqContinue .. => execReqContinue_holds (.refl ..) (subset_allParts _)
  | .reqCancel .. => execReqCancel_holds (.refl ..) (subset_allParts _)
  | .reqStatus .. => execReqStatus_holds (.refl ..) (subset_allParts _)
  | .reqToken .. => execReqToken_holds (.refl ..) (subset_allParts _)
  | .inputReadDone .. => execInputReadDone_holds (.refl ..) (subset_allParts _)
  | .writebackDone .. => execWritebackDone_holds (.refl ..) (subset_allParts _)
  | .openPageLoaded .. => execOpenPageLoaded_holds (.refl ..) (subset_allParts _)
  | .tableEpochEnd .. => execTableEpochEnd_holds (.refl ..) (subset_allParts _)
  | .tableBuildDone .. => execTableBuildDone_holds (.refl ..) (subset_allParts _)
  | .tableSupply .. => execTableSupply_holds (.refl ..) (subset_allParts _)
  | .movePark .. => execMovePark_holds (.refl ..) (subset_allParts _)
  | .movePromote .. => execMovePromote_holds (.refl ..) (subset_allParts _)
  | .moveEvict .. => execMoveEvict_holds (.refl ..) (subset_allParts _)
  | .moveClone .. => execMoveClone_holds (.refl ..) (subset_allParts _)
  | .moveDrop .. => execMoveDrop_holds (.refl ..) (subset_allParts _)
  | .movePlan .. => execMovePlan_holds (.refl ..) (subset_allParts _)
  | .msgInstall .. => execMsgInstall_holds (.refl ..) (subset_allParts _)
  | .msgPages .. => execMsgPages_holds (.refl ..) (subset_allParts _)
  | .msgMoveAck .. => execMsgMoveAck_holds (.refl ..) (subset_allParts _)
  | .msgCommit .. => execMsgCommit_holds (.refl ..) (subset_allParts _)
  | .msgAbort .. => execMsgAbort_holds (.refl ..) (subset_allParts _)
  | .msgRef .. => execMsgRef_holds (.refl ..) (subset_allParts _)
  | .msgRelease .. => execMsgRelease_holds (.refl ..) (subset_allParts _)
  | .msgFetch .. => execMsgFetch_holds (.refl ..) (subset_allParts _)
  | .msgQuery .. => execMsgQuery_holds (.refl ..) (subset_allParts _)
  | .msgPartial .. => execMsgPartial_holds (.refl ..) (subset_allParts _)
  | .installResend .. => execInstallResend_holds (.refl ..) (subset_allParts _)
  | .installDoubt .. => execInstallDoubt_holds (.refl ..) (subset_allParts _)
  | .heldAckRepeat .. => execHeldAckRepeat_holds (.refl ..) (subset_allParts _)
  | .commitRecordExpiry .. => execCommitRecordExpiry_holds (.refl ..) (subset_allParts _)
  | .refResend .. => execRefResend_holds (.refl ..) (subset_allParts _)
  | .receptionExpiry .. => execReceptionExpiry_holds (.refl ..) (subset_allParts _)
  | .pagesBusyRetry .. => execPagesBusyRetry_holds (.refl ..) (subset_allParts _)
  | .queryResend .. => execQueryResend_holds (.refl ..) (subset_allParts _)
  | .evictionStart .. => execEvictionStart_holds (.refl ..) (subset_allParts _)
  | .heatAging .. => execHeatAging_holds (.refl ..) (subset_allParts _)
  | .allocRequest .. => execAllocRequest_holds (.refl ..) (subset_allParts _)
  | .freeRequest .. => execFreeRequest_holds (.refl ..) (subset_allParts _)
  | .sramPatrol .. => execSramPatrol_holds (.refl ..) (subset_allParts _)
  | .nearPatrol .. => execNearPatrol_holds (.refl ..) (subset_allParts _)
  | .selfRefreshEntry .. => execSelfRefreshEntry_holds (.refl ..) (subset_allParts _)
  | .farChannelLost .. => execFarChannelLost_holds (.refl ..) (subset_allParts _)
  | .farScanDone .. => execFarScanDone_holds (.refl ..) (subset_allParts _)
  | .stackLost .. => execStackLost_holds (.refl ..) (subset_allParts _)
  | .tableRecordWrite .. => execTableRecordWrite_holds (.refl ..) (subset_allParts _)
  | .msgLookup .. => execMsgLookup_holds (.refl ..) (subset_allParts _)
  | .msgPooled .. => execMsgPooled_holds (.refl ..) (subset_allParts _)
  | .msgUpdate .. => execMsgUpdate_holds (.refl ..) (subset_allParts _)
  | .msgUpdateAck .. => execMsgUpdateAck_holds (.refl ..) (subset_allParts _)
  | .lookupResend .. => execLookupResend_holds (.refl ..) (subset_allParts _)
  | .rowHeatAging .. => execRowHeatAging_holds (.refl ..) (subset_allParts _)
  | .portTrained .. => execPortTrained_holds (.refl ..) (subset_allParts _)
  | .attestComplete .. => execAttestComplete_holds (.refl ..) (subset_allParts _)
  | .trainTimeout .. => execTrainTimeout_holds (.refl ..) (subset_allParts _)
  | .backoffExpiry .. => execBackoffExpiry_holds (.refl ..) (subset_allParts _)
  | .anSignalDetected .. => execAnSignalDetected_holds (.refl ..) (subset_allParts _)
  | .kqRetrain .. => execKqRetrain_holds (.refl ..) (subset_allParts _)
  | .linkSpdmCell .. => execLinkSpdmCell_holds (.refl ..) (subset_allParts _)
  | .linkHello .. => execLinkHello_holds (.refl ..) (subset_allParts _)
  | .linkDownNotice .. => execLinkDownNotice_holds (.refl ..) (subset_allParts _)
  | .cellData .. => execCellData_holds (.refl ..) (subset_allParts _)
  | .cellAck .. => execCellAck_holds (.refl ..) (subset_allParts _)
  | .cellNak .. => execCellNak_holds (.refl ..) (subset_allParts _)
  | .cellIdle .. => execCellIdle_holds (.refl ..) (subset_allParts _)
  | .cellTime .. => execCellTime_holds (.refl ..) (subset_allParts _)
  | .lossOfSignal .. => execLossOfSignal_holds (.refl ..) (subset_allParts _)
  | .delinTimeout .. => execDelinTimeout_holds (.refl ..) (subset_allParts _)
  | .ackTimer .. => execAckTimer_holds (.refl ..) (subset_allParts _)
  | .nakRepeatTimer .. => execNakRepeatTimer_holds (.refl ..) (subset_allParts _)
  | .replayTimeout .. => execReplayTimeout_holds (.refl ..) (subset_allParts _)
  | .pairUnpairedTimeout => execPairUnpairedTimeout_holds (.refl ..) (subset_allParts _)
  | .mkaSakInstalled .. => execMkaSakInstalled_holds (.refl ..) (subset_allParts _)
  | .mkaPeerTimeout .. => execMkaPeerTimeout_holds (.refl ..) (subset_allParts _)
  | .pfcFrame .. => execPfcFrame_holds (.refl ..) (subset_allParts _)
  | .ethFrameRx .. => execEthFrameRx_holds (.refl ..) (subset_allParts _)
  | .egressSend .. => execEgressSend_holds (.refl ..) (subset_allParts _)
  | .memRead .. => execMemRead_holds (.refl ..) (subset_allParts _)
  | .memReadData .. => execMemReadData_holds (.refl ..) (subset_allParts _)
  | .memWrite .. => execMemWrite_holds (.refl ..) (subset_allParts _)
  | .memComplete .. => execMemComplete_holds (.refl ..) (subset_allParts _)
  | .memMsgNak .. => execMemMsgNak_holds (.refl ..) (subset_allParts _)
  | .memFetchAdd .. => execMemFetchAdd_holds (.refl ..) (subset_allParts _)
  | .memSwap .. => execMemSwap_holds (.refl ..) (subset_allParts _)
  | .memCas .. => execMemCas_holds (.refl ..) (subset_allParts _)
  | .memAtomicData .. => execMemAtomicData_holds (.refl ..) (subset_allParts _)
  | .memInvalidate .. => execMemInvalidate_holds (.refl ..) (subset_allParts _)
  | .memInvAck .. => execMemInvAck_holds (.refl ..) (subset_allParts _)
  | .topologyMsg .. => execTopologyMsg_holds (.refl ..) (subset_allParts _)
  | .topologyPeriod => execTopologyPeriod_holds (.refl ..) (subset_allParts _)
  | .reassemblyTimeout .. => execReassemblyTimeout_holds (.refl ..) (subset_allParts _)
  | .msgReplyTimeout .. => execMsgReplyTimeout_holds (.refl ..) (subset_allParts _)
  | .noContextTimeout .. => execNoContextTimeout_holds (.refl ..) (subset_allParts _)
  | .streamContextExpiry .. => execStreamContextExpiry_holds (.refl ..) (subset_allParts _)
  | .invalidateResend .. => execInvalidateResend_holds (.refl ..) (subset_allParts _)
  | .routeTableLoad .. => execRouteTableLoad_holds (.refl ..) (subset_allParts _)
  | .windowTableWrite .. => execWindowTableWrite_holds (.refl ..) (subset_allParts _)
  | .ptpMessageRx .. => execPtpMessageRx_holds (.refl ..) (subset_allParts _)
  | .ptpSyncTx .. => execPtpSyncTx_holds (.refl ..) (subset_allParts _)
  | .ppsInEdge .. => execPpsInEdge_holds (.refl ..) (subset_allParts _)
  | .sourceLost .. => execSourceLost_holds (.refl ..) (subset_allParts _)
  | .boundExceedsGuard => execBoundExceedsGuard_holds (.refl ..) (subset_allParts _)
  | .slewDone => execSlewDone_holds (.refl ..) (subset_allParts _)
  | .ppsOutRise => execPpsOutRise_holds (.refl ..) (subset_allParts _)
  | .ppsOutFall => execPpsOutFall_holds (.refl ..) (subset_allParts _)
  | .merHostOfsWrite .. => execMerHostOfsWrite_holds (.refl ..) (subset_allParts _)
  | .merHostFreqWrite .. => execMerHostFreqWrite_holds (.refl ..) (subset_allParts _)
  | .merSetWrite .. => execMerSetWrite_holds (.refl ..) (subset_allParts _)
  | .merNowRead => execMerNowRead_holds (.refl ..) (subset_allParts _)
  | .hostServoSilence => execHostServoSilence_holds (.refl ..) (subset_allParts _)
  | .bar2Read .. => execBar2Read_holds (.refl ..) (subset_allParts _)
  | .bar2Atomic .. => execBar2Atomic_holds (.refl ..) (subset_allParts _)
  | .bar2Write .. => execBar2Write_holds (.refl ..) (subset_allParts _)
  | .atsInvalidate .. => execAtsInvalidate_holds (.refl ..) (subset_allParts _)
  | .ideKmProgram .. => execIdeKmProgram_holds (.refl ..) (subset_allParts _)
  | .ideIntegrityFail .. => execIdeIntegrityFail_holds (.refl ..) (subset_allParts _)
  | .tdispLockInterface .. => execTdispLockInterface_holds (.refl ..) (subset_allParts _)
  | .slotPowerOff .. => execSlotPowerOff_holds (.refl ..) (subset_allParts _)
  | .releaseGraceExpiry .. => execReleaseGraceExpiry_holds (.refl ..) (subset_allParts _)
  | .dlinkDown .. => execDlinkDown_holds (.refl ..) (subset_allParts _)
  | .dlinkRequest .. => execDlinkRequest_holds (.refl ..) (subset_allParts _)
  | .qpCreate .. => execQpCreate_holds (.refl ..) (subset_allParts _)
  | .qpModify .. => execQpModify_holds (.refl ..) (subset_allParts _)
  | .qpDestroy .. => execQpDestroy_holds (.refl ..) (subset_allParts _)
  | .qpQuery .. => execQpQuery_holds (.refl ..) (subset_allParts _)
  | .qpRegMr .. => execQpRegMr_holds (.refl ..) (subset_allParts _)
  | .qpDeregMr .. => execQpDeregMr_holds (.refl ..) (subset_allParts _)
  | .roceRxWrite .. => execRoceRxWrite_holds (.refl ..) (subset_allParts _)
  | .roceRxRead .. => execRoceRxRead_holds (.refl ..) (subset_allParts _)
  | .roceRxFetchAdd .. => execRoceRxFetchAdd_holds (.refl ..) (subset_allParts _)
  | .roceRxCompareSwap .. => execRoceRxCompareSwap_holds (.refl ..) (subset_allParts _)
  | .roceRxSend .. => execRoceRxSend_holds (.refl ..) (subset_allParts _)
  | .roceRxAck .. => execRoceRxAck_holds (.refl ..) (subset_allParts _)
  | .roceRxResponse .. => execRoceRxResponse_holds (.refl ..) (subset_allParts _)
  | .roceRxNak .. => execRoceRxNak_holds (.refl ..) (subset_allParts _)
  | .roceRxCnp .. => execRoceRxCnp_holds (.refl ..) (subset_allParts _)
  | .roceAckTimeout .. => execRoceAckTimeout_holds (.refl ..) (subset_allParts _)
  | .dcqcnRateTimer .. => execDcqcnRateTimer_holds (.refl ..) (subset_allParts _)
  | .qpContextLoaded .. => execQpContextLoaded_holds (.refl ..) (subset_allParts _)
  | .cmReq .. => execCmReq_holds (.refl ..) (subset_allParts _)
  | .cmRep .. => execCmRep_holds (.refl ..) (subset_allParts _)
  | .cmRtu .. => execCmRtu_holds (.refl ..) (subset_allParts _)
  | .cmRej .. => execCmRej_holds (.refl ..) (subset_allParts _)
  | .cmDreq .. => execCmDreq_holds (.refl ..) (subset_allParts _)
  | .cmDrep .. => execCmDrep_holds (.refl ..) (subset_allParts _)
  | .ptpTxRingEntry .. => execPtpTxRingEntry_holds (.refl ..) (subset_allParts _)
  | .cmTxRingEntry .. => execCmTxRingEntry_holds (.refl ..) (subset_allParts _)
  | .ptnProvision .. => execPtnProvision_holds (.refl ..) (subset_allParts _)
  | .ptnActivate .. => execPtnActivate_holds (.refl ..) (subset_allParts _)
  | .ptnDrain .. => execPtnDrain_holds (.refl ..) (subset_allParts _)
  | .ptnFence .. => execPtnFence_holds (.refl ..) (subset_allParts _)
  | .ptnUnfence .. => execPtnUnfence_holds (.refl ..) (subset_allParts _)
  | .ptnRelease .. => execPtnRelease_holds (.refl ..) (subset_allParts _)
  | .scrubComplete .. => execScrubComplete_holds (.refl ..) (subset_allParts _)
  | .constellationsWrite .. => execConstellationsWrite_holds (.refl ..) (subset_allParts _)
  | .roleChallenge .. => execRoleChallenge_holds (.refl ..) (subset_allParts _)
  | .roleResponse .. => execRoleResponse_holds (.refl ..) (subset_allParts _)
  | .roleDrop .. => execRoleDrop_holds (.refl ..) (subset_allParts _)
  | .roleIdleTimeout .. => execRoleIdleTimeout_holds (.refl ..) (subset_allParts _)
  | .lockoutExpiry .. => execLockoutExpiry_holds (.refl ..) (subset_allParts _)
  | .installerKeyWrite .. => execInstallerKeyWrite_holds (.refl ..) (subset_allParts _)
  | .auditEntryRead .. => execAuditEntryRead_holds (.refl ..) (subset_allParts _)
  | .ptnCmtStrobe .. => execPtnCmtStrobe_holds (.refl ..) (subset_allParts _)
  | .ptnCrcPassEnd .. => execPtnCrcPassEnd_holds (.refl ..) (subset_allParts _)
  | .heartbeatTimeout .. => execHeartbeatTimeout_holds (.refl ..) (subset_allParts _)
  | .unitInternalFault .. => execUnitInternalFault_holds (.refl ..) (subset_allParts _)
  | .wakeTimeout .. => execWakeTimeout_holds (.refl ..) (subset_allParts _)
  | .replayStart .. => execReplayStart_holds (.refl ..) (subset_allParts _)
  | .readmitWrite .. => execReadmitWrite_holds (.refl ..) (subset_allParts _)
  | .readmitDone .. => execReadmitDone_holds (.refl ..) (subset_allParts _)
  | .spareTestDue .. => execSpareTestDue_holds (.refl ..) (subset_allParts _)
  | .drillWrite .. => execDrillWrite_holds (.refl ..) (subset_allParts _)
  | .partnerSilent => execPartnerSilent_holds (.refl ..) (subset_allParts _)
  | .pairResyncDone => execPairResyncDone_holds (.refl ..) (subset_allParts _)
  | .deviceFatalFault .. => execDeviceFatalFault_holds (.refl ..) (subset_allParts _)
  | .thermTrip => execThermTrip_holds (.refl ..) (subset_allParts _)
  | .lockstepMismatch .. => execLockstepMismatch_holds (.refl ..) (subset_allParts _)
  | .cmtStrobe => execCmtStrobe_holds (.refl ..) (subset_allParts _)
  | .cmtDiscard => execCmtDiscard_holds (.refl ..) (subset_allParts _)
  | .cfgCrcPassEnd => execCfgCrcPassEnd_holds (.refl ..) (subset_allParts _)
  | .msixUnmask .. => execMsixUnmask_holds (.refl ..) (subset_allParts _)
  | .pfOdRead => execPfOdRead_holds (.refl ..) (subset_allParts _)
  | .pfOdWrite .. => execPfOdWrite_holds (.refl ..) (subset_allParts _)
  | .odEntryWrite .. => execOdEntryWrite_holds (.refl ..) (subset_allParts _)
  | .ncResetComm .. => execNcResetComm_holds (.refl ..) (subset_allParts _)
  | .ncSilence .. => execNcSilence_holds (.refl ..) (subset_allParts _)
  | .ncResume .. => execNcResume_holds (.refl ..) (subset_allParts _)
  | .ncStoreAddr .. => execNcStoreAddr_holds (.refl ..) (subset_allParts _)
  | .ncWarmReset .. => execNcWarmReset_holds (.refl ..) (subset_allParts _)
  | .canTimeFrame .. => execCanTimeFrame_holds (.refl ..) (subset_allParts _)
  | .timeFrameTx => execTimeFrameTx_holds (.refl ..) (subset_allParts _)
  | .searchStart .. => execSearchStart_holds (.refl ..) (subset_allParts _)
  | .searchProbe .. => execSearchProbe_holds (.refl ..) (subset_allParts _)
  | .searchAssign .. => execSearchAssign_holds (.refl ..) (subset_allParts _)
  | .searchConfirm .. => execSearchConfirm_holds (.refl ..) (subset_allParts _)
  | .searchEnd .. => execSearchEnd_holds (.refl ..) (subset_allParts _)
  | .searchHeard .. => execSearchHeard_holds (.refl ..) (subset_allParts _)
  | .canHeartbeatRx .. => execCanHeartbeatRx_holds (.refl ..) (subset_allParts _)
  | .addressConflict => execAddressConflict_holds (.refl ..) (subset_allParts _)
  | .canOdWrite .. => execCanOdWrite_holds (.refl ..) (subset_allParts _)
  | .canOdRead .. => execCanOdRead_holds (.refl ..) (subset_allParts _)
  | .listenEnd => execListenEnd_holds (.refl ..) (subset_allParts _)
  | .confirmTimeout => execConfirmTimeout_holds (.refl ..) (subset_allParts _)
  | .silentSearchTimeout => execSilentSearchTimeout_holds (.refl ..) (subset_allParts _)
  | .ackErrorLimit => execAckErrorLimit_holds (.refl ..) (subset_allParts _)
  | .loneFrameAcked => execLoneFrameAcked_holds (.refl ..) (subset_allParts _)
  | .loneProbeTimer => execLoneProbeTimer_holds (.refl ..) (subset_allParts _)
  | .heartbeatPeriod => execHeartbeatPeriod_holds (.refl ..) (subset_allParts _)
  | .hotJoinBackoff => execHotJoinBackoff_holds (.refl ..) (subset_allParts _)
  | .odSegmentTimeout .. => execOdSegmentTimeout_holds (.refl ..) (subset_allParts _)
  | .odAnswerExpiry .. => execOdAnswerExpiry_holds (.refl ..) (subset_allParts _)
  | .almanacGroupStart => execAlmanacGroupStart_holds (.refl ..) (subset_allParts _)
  | .almanacGroupDone .. => execAlmanacGroupDone_holds (.refl ..) (subset_allParts _)
  | .fieldNotesWrite .. => execFieldNotesWrite_holds (.refl ..) (subset_allParts _)
  | .clearFaultLog .. => execClearFaultLog_holds (.refl ..) (subset_allParts _)
  | .nfcInventory .. => execNfcInventory_holds (.refl ..) (subset_allParts _)
  | .nfcStayQuiet .. => execNfcStayQuiet_holds (.refl ..) (subset_allParts _)
  | .nfcSelect .. => execNfcSelect_holds (.refl ..) (subset_allParts _)
  | .nfcResetToReady .. => execNfcResetToReady_holds (.refl ..) (subset_allParts _)
  | .nfcGetSystemInfo .. => execNfcGetSystemInfo_holds (.refl ..) (subset_allParts _)
  | .nfcReadBlocks .. => execNfcReadBlocks_holds (.refl ..) (subset_allParts _)
  | .nfcWriteBlock .. => execNfcWriteBlock_holds (.refl ..) (subset_allParts _)
  | .nfcUnsupported .. => execNfcUnsupported_holds (.refl ..) (subset_allParts _)
  | .telWindowBoundary => execTelWindowBoundary_holds (.refl ..) (subset_allParts _)
  | .acctSnapshot => execAcctSnapshot_holds (.refl ..) (subset_allParts _)
  | .acctLatch => execAcctLatch_holds (.refl ..) (subset_allParts _)
  | .energyFit => execEnergyFit_holds (.refl ..) (subset_allParts _)
  | .pmbusPoll .. => execPmbusPoll_holds (.refl ..) (subset_allParts _)
  | .coeffWrite .. => execCoeffWrite_holds (.refl ..) (subset_allParts _)
  | .railInRange .. => execRailInRange_holds (.refl ..) (subset_allParts _)
  | .railWindowExpiry .. => execRailWindowExpiry_holds (.refl ..) (subset_allParts _)
  | .railFault .. => execRailFault_holds (.refl ..) (subset_allParts _)
  | .dataReadyReached .. => execDataReadyReached_holds (.refl ..) (subset_allParts _)
  | .startWatchdog .. => execStartWatchdog_holds (.refl ..) (subset_allParts _)
  | .updateBegin .. => execUpdateBegin_holds (.refl ..) (subset_allParts _)
  | .updateData .. => execUpdateData_holds (.refl ..) (subset_allParts _)
  | .updateVerify .. => execUpdateVerify_holds (.refl ..) (subset_allParts _)
  | .updateCancel .. => execUpdateCancel_holds (.refl ..) (subset_allParts _)
  | .nfStart .. => execNfStart_holds (.refl ..) (subset_allParts _)
  | .nfAbort .. => execNfAbort_holds (.refl ..) (subset_allParts _)
  | .nfPowerDown .. => execNfPowerDown_holds (.refl ..) (subset_allParts _)
  | .nfSliceEnd .. => execNfSliceEnd_holds (.refl ..) (subset_allParts _)
  | .nfHoldEnd .. => execNfHoldEnd_holds (.refl ..) (subset_allParts _)
  | .managementTick .. => execManagementTick_holds (.refl ..) (subset_allParts _)
  | .flowCompute .. => execFlowCompute_holds (.refl ..) (subset_allParts _)
  | .coolantMeasure .. => execCoolantMeasure_holds (.refl ..) (subset_allParts _)
  | .coolantClear .. => execCoolantClear_holds (.refl ..) (subset_allParts _)
  | .ref25Loss => execRef25Loss_holds (.refl ..) (subset_allParts _)
  | .ref156Loss .. => execRef156Loss_holds (.refl ..) (subset_allParts _)
  | .ref100Loss .. => execRef100Loss_holds (.refl ..) (subset_allParts _)
  | .rcRegisterRead .. => execRcRegisterRead_holds (.refl ..) (subset_allParts _)
  | .delineationCheck .. => execDelineationCheck_holds (.refl ..) (subset_allParts _)
  | .routeTableComputed .. => execRouteTableComputed_holds (.refl ..) (subset_allParts _)
  | .msgIdFreed .. => execMsgIdFreed_holds (.refl ..) (subset_allParts _)
  | .pcieLinkDown .. => execPcieLinkDown_holds (.refl ..) (subset_allParts _)
  | .pcieLinkUp .. => execPcieLinkUp_holds (.refl ..) (subset_allParts _)
  | .refClockReturn .. => execRefClockReturn_holds (.refl ..) (subset_allParts _)
  | .tdispStartInterface .. => execTdispStartInterface_holds (.refl ..) (subset_allParts _)
  | .tdispStopInterface .. => execTdispStopInterface_holds (.refl ..) (subset_allParts _)
  | .canIgnoredFrame => execCanIgnoredFrame_holds (.refl ..) (subset_allParts _)
  | .canErrorFrame .. => execCanErrorFrame_holds (.refl ..) (subset_allParts _)
  | .canBusOffRecovery => execCanBusOffRecovery_holds (.refl ..) (subset_allParts _)
  | .nfcFieldOn => execNfcFieldOn_holds (.refl ..) (subset_allParts _)
  | .nfcFieldOff => execNfcFieldOff_holds (.refl ..) (subset_allParts _)
  | .unitHeartbeat .. => execUnitHeartbeat_holds (.refl ..) (subset_allParts _)

theorem exec_within {c : Instr} {s t : State} (he : exec c s = .next t) : Within allParts s t := by
  have k := exec_holds s c
  rw [he] at k
  exact k.of

/-- The state that a step works on: the command at the front has left the queue. -/
def State.taken (s : State) : State := { s with pending := s.pending.tail }

theorem taken_shaped (s : State) : s.taken.shaped = s.shaped := rfl

theorem taken_of_idle {s : State} (h : s.pending = []) : s.taken = s := by
  obtain ⟨⟩ := s
  simp_all [State.taken]

theorem step_within {s t : State} (he : step s = .next t) : Within allParts s.taken t := by
  cases hp : s.pending with
  | nil =>
    rw [step_nil hp] at he
    injection he with he
    rw [taken_of_idle hp, ← he]
    exact passTime_only (.refl ..) (subset_allParts _)
  | cons c rest =>
    rw [step_cons hp] at he
    rw [State.taken, hp]
    exact exec_within he

end Sys2Proof.Machine

open Sys2Proof Sys2Proof.Machine

/-- Settles O4: the command at the front leaves the queue, which is no part of the population, and neither its meaning nor the idle tick
changes the population. -/
theorem shapedKept : Obligations.ShapedKept := by
  unfold Obligations.ShapedKept
  intro s t hs he
  exact (step_within he).shape ((taken_shaped s).trans hs)
end

section
/-! PROOFS. Obligation O28 fails at ENC: an ENC that its sequencer could issue is counted (R298) although its encoding is reserved,
which shows while the `Inst` that it ends with FORMAT still has a store outstanding (R180). -/

namespace Sys2Proof.Machine
open Sys2Proof

/-- An issue that finds a reserved encoding ends its `Inst` with FORMAT, whatever else the instruction checks or does (R180). -/
theorem issue_of_reserved {s : State} {iid opc : Nat} {ok : Inst → Task → Ins → Bool} {ops : Extents} {f : Inst → Task → Ins → Nat → State → Exec}
    {i : Inst} {t : Task} {x : Ins} (hr : ready s iid opc = some (i, t, x)) (hc : commonOk i x = false) :
    issue s iid opc ok ops f = failInst s iid stFORMAT (insDetail i) := by
  simp [issue, hr, hc]

/-- A reserved ENC ends its `Inst`, and the count of the ENCs of that `Inst` goes on by one all the same. -/
theorem execInstrEnc_of_reserved {s : State} {inst : Nat} {i : Inst} {t : Task} {x : Ins} (hr : ready s inst 0x31 = some (i, t, x))
    (hc : commonOk i x = false) :
    execInstrEnc inst s = .next (modInst (failInst s inst stFORMAT (insDetail i)) inst fun j => { j with encs := j.encs + 1 }) := by
  simp [execInstrEnc, issue_of_reserved hr hc, hr]

/-- ENC with FMT_A 0xE, which is reserved (R192). -/
def reservedEnc : Nat := 0x31 + 2 ^ 8 * 0xE

def encTask : Task :=
  { id := 1, src := .pf, kind := 1, pin := false, fence := false, quiet := false, cls := 0, level := 1, ptn := 0, uid := mkUid 1 0, span := 0,
    request := none, epoch := 0, layer := 0, prog := 0, count := 1, tag := 0, after := none, args := [] }

/-- An `Inst` on cluster 0 that has issued a store, not yet written. -/
def encInst : Inst := { id := 1, task := 1, uid := mkUid 1 0, started := true, tiles := [{ id := 0, load := false, tier := 0, addr := 0, sram := 0 }] }

/-- The block in which that `Inst` has come to the reserved ENC, on an AWAKE constellation. -/
def atReservedEnc : State :=
  { modCon State.reset 0 fun c => { c with pwr := .awake } with
    eph := { running := true, bank0 := some { contract := 1, leadLax := false, cycleTicks := 250000, fprint := 0, imageId := 0, sections := [], prog := leBytes 16 reservedEnc } }
    work := { tasks := [encTask], insts := [encInst] } }

theorem ready_atReservedEnc : ready atReservedEnc 1 0x31 = some (encInst, encTask, parseIns reservedEnc) := by decide +kernel

theorem commonOk_reservedEnc : commonOk encInst (parseIns reservedEnc) = false := by decide +kernel

/-- The count of the ENCs tells the two states apart. -/
theorem encs_atReservedEnc :
    let u := failInst atReservedEnc 1 stFORMAT (insDetail encInst)
    (findInst u 1).map (·.encs) = some 0 ∧ (findInst (modInst u 1 fun j => { j with encs := j.encs + 1 }) 1).map (·.encs) = some 1 := by
  decide +kernel

end Sys2Proof.Machine

open Sys2Proof Sys2Proof.Machine

/-- Refutes O28: at a reserved ENC of an `Inst` with a store outstanding, the state after it has one ENC more counted than the one in which
the `Inst` has only ended with FORMAT. -/
theorem not_instructionIssue : ¬ Obligations.InstructionIssue := by
  unfold Obligations.InstructionIssue
  intro h
  obtain ⟨-, hformat⟩ := h 1 0 atReservedEnc (.instrEnc 1, 0x31) (by simp)
  obtain ⟨u, he, rfl, -⟩ := hformat encInst encTask _ ready_atReservedEnc commonOk_reservedEnc (by simp)
  have hu := he.symm.trans ((exec_instrEnc 1 atReservedEnc).trans (execInstrEnc_of_reserved ready_atReservedEnc commonOk_reservedEnc))
  injection hu with hu
  obtain ⟨hkept, hcounted⟩ := encs_atReservedEnc
  rw [← hu, hkept] at hcounted
  exact absurd hcounted (by decide)
end

section
/-! PROOFS. Obligation O17: wakes, drains, SRAM initialisation and rails (R70, R74, R75, R77, R78, R80, R116, R734). -/

namespace Sys2Proof.Machine
open Sys2Proof

/-! ### Constellations and quarters read back after a change -/

theorem getCon_modCon_same {s : State} {phys : Nat} {f : Con → Con} (h : phys < s.cons.length) : getCon (modCon s phys f) phys = f (getCon s phys) :=
  getD_modAt_same h

theorem getCon_modCon_other {s : State} {phys k : Nat} {f : Con → Con} (h : k ≠ phys) : getCon (modCon s phys f) k = getCon s k :=
  getD_modAt_other h

theorem getQtr_modQtr_same {s : State} {q : Nat} {f : Quarter → Quarter} (h : q < s.qtrs.length) : getQtr (modQtr s q f) q = f (getQtr s q) :=
  getD_modAt_same h

theorem getQtr_modQtr_other {s : State} {q k : Nat} {f : Quarter → Quarter} (h : k ≠ q) : getQtr (modQtr s q f) k = getQtr s k :=
  getD_modAt_other h

theorem getCon_of_cons {s t : State} (h : t.cons = s.cons) (k : Nat) : getCon t k = getCon s k := by simp only [getCon, h]

@[simp] theorem length_modCon (s : State) (phys : Nat) (f : Con → Con) : (modCon s phys f).cons.length = s.cons.length := length_modAt

theorem cons_length_of_shaped {s : State} (h : s.shaped = true) : s.cons.length = 160 := (shaped_iff.mp h).1

theorem qtrs_length_of_shaped {s : State} (h : s.shaped = true) : s.qtrs.length = 4 := (shaped_iff.mp h).2.1

theorem ConsUnchanged.trans {l : List Nat} {s t u : State} (h : ConsUnchanged l s t) (k : ConsUnchanged l t u) : ConsUnchanged l s u :=
  fun p hp => (k p hp).trans (h p hp)

theorem ConsUnchanged.of_cons {l : List Nat} {s t : State} (h : t.cons = s.cons) : ConsUnchanged l s t := fun k _ => getCon_of_cons h k

theorem modCon_unchanged {s : State} {phys : Nat} {f : Con → Con} : ConsUnchanged [phys] s (modCon s phys f) := fun _ hk =>
  getCon_modCon_other (by simpa using hk)

/-! ### A wake ends (R74, R80, R107) -/

/-- The constellation at the end of its wake. -/
def Con.wokenUp (at_ : Nat) (c : Con) : Con := { c with pwr := .awake, waking := false, beat := true, beatAt := at_ }

/-- The report of a late wake changes no constellation. -/
theorem wakeDone_cons {s : State} {phys : Nat} (hw : (getCon s phys).waking = true) (hi : (getCon s phys).init = false) :
    (wakeDone s phys).cons = (modCon s phys (Con.wokenUp (now s))).cons := by
  simp only [wakeDone, hw, hi, Bool.not_false, Bool.and_self, if_true]
  cases (getCon s phys).logical with
  | none => rfl
  | some l =>
    cases hr : s.eph.slots.find? (fun r => r.cons.contains l) with
    | none => simp only [hr]; rfl
    | some r => simp only [hr, raiseBoth_cons, bumpReg_cons]; rfl

theorem wakeDone_of_not {s : State} {phys : Nat} (h : (getCon s phys).waking = false ∨ (getCon s phys).init = true) : wakeDone s phys = s := by
  rcases h with h | h <;> simp [wakeDone, h]

/-! ### A drain ends (R75, R76, R78) -/

/-- The constellation after its drain or its SRAM initialisation, at a tick: a wake in the same tick wins. -/
def Con.rested (tick : Nat) (c : Con) : Con :=
  if c.wokeAt = some tick then { c with pwr := .awake, waking := false, draining := false }
  else { c with pwr := .sleep, draining := false, restAt := some tick }

theorem getCon_fallAsleep {s : State} {phys : Nat} (h : phys < s.cons.length) :
    getCon (fallAsleep s phys) phys = (getCon s phys).rested (now s / 4) :=
  getCon_modCon_same h

@[simp] theorem Con.rested_pwr (tick : Nat) (c : Con) : (c.rested tick).pwr = if c.wokeAt = some tick then .awake else .sleep := by
  unfold Con.rested; split <;> rfl

@[simp] theorem Con.rested_draining (tick : Nat) (c : Con) : (c.rested tick).draining = false := by unfold Con.rested; split <;> rfl

@[simp] theorem Con.rested_init (tick : Nat) (c : Con) : (c.rested tick).init = c.init := by unfold Con.rested; split <;> rfl

@[simp] theorem Con.rested_role (tick : Nat) (c : Con) : (c.rested tick).role = c.role := by unfold Con.rested; split <;> rfl

@[simp] theorem Con.rested_logical (tick : Nat) (c : Con) : (c.rested tick).logical = c.logical := by unfold Con.rested; split <;> rfl

theorem unallocated_congr {s t : State} {phys : Nat} (hl : (getCon t phys).logical = (getCon s phys).logical) (hp : t.ptns = s.ptns) :
    unallocated t phys = unallocated s phys := by
  simp only [unallocated, ownerOf, hl, hp]

theorem unallocated_fallAsleep {s : State} {phys : Nat} (h : phys < s.cons.length) : unallocated (fallAsleep s phys) phys = unallocated s phys :=
  unallocated_congr (by rw [getCon_fallAsleep h, Con.rested_logical]) rfl

theorem restIdle_of_allocated {s : State} {phys : Nat} (h : unallocated s phys = false) : restIdle s phys = s := by simp [restIdle, h]

/-- The constellation in DEEP (R75). -/
def Con.deepened (c : Con) : Con := { c with pwr := .deep, waking := false, draining := false, after := none }

/-- An enabled constellation of no partition goes on to DEEP while UNALLOC_DEEP is 1 (R57, R75, R76). -/
theorem restIdle_of_deep {s : State} {phys : Nat} (hr : (getCon s phys).role = .enabled) (hi : (getCon s phys).init = false)
    (hu : unallocated s phys = true) (hd : unallocDeep s phys = true) (hp : (getCon s phys).pwr ≠ .deep) :
    restIdle s phys = sramClear (modCon s phys Con.deepened) phys := by
  simp only [restIdle, hr, hi, hu, hd, hp, Bool.not_false, Bool.and_true, decide_true, if_true, if_false]
  rfl

/-! ### SRAM cleared (R77) -/

@[simp] theorem sramClear_cons (s : State) (phys : Nat) : (sramClear s phys).cons = s.cons := rfl

theorem mem_sramClear {s : State} {phys : Nat} {e : Nat × Byte} : e ∈ (sramClear s phys).work.sram ↔ e ∈ s.work.sram ∧ sramPhys e.1 ≠ phys := by
  simp [sramClear]

/-- The constellation at the end of its SRAM initialisation, at a tick: AWAKE for the self-test of its re-admission (R792), else at rest. -/
def Con.afterInit (readmitted : Bool) (tick : Nat) (c : Con) : Con := if readmitted then { c with pwr := .awake } else c.rested tick

theorem Con.afterInit_pwr (readmitted : Bool) (tick : Nat) (c : Con) :
    (c.afterInit readmitted tick).pwr = if readmitted = true ∨ c.wokeAt = some tick then .awake else .sleep := by
  cases readmitted <;> simp [Con.afterInit]

theorem Con.afterInit_init (readmitted : Bool) (tick : Nat) (c : Con) : (c.afterInit readmitted tick).init = c.init := by
  cases readmitted <;> simp [Con.afterInit]

/-- The state whose constellation has left its initialisation with every bank cleared. -/
def initEnded (s : State) (phys : Nat) : State := sramClear (modCon s phys fun c => { c with init := false }) phys

theorem execSramInitDone_of_init {s : State} {phys : Nat} (hi : (getCon s phys).init = true) :
    execSramInitDone phys s =
      .next (modCon (initEnded s phys) phys (Con.afterInit (s.ras.readmits.any (·.1 == phys)) (now s / 4))) := by
  simp only [execSramInitDone, hi, if_true]
  cases s.ras.readmits.any (·.1 == phys) <;> rfl

/-! ### A change of every constellation of a list -/

/-- The constellations at some places changed, one after the other. -/
def modAll (f : Con → Con) (s : State) (ps : List Nat) : State := ps.foldl (fun s p => modCon s p f) s

theorem modAll_unchanged {f : Con → Con} {s : State} {ps : List Nat} : ConsUnchanged ps s (modAll f s ps) := by
  induction ps generalizing s with
  | nil => exact .of_cons rfl
  | cons p ps ih =>
    intro k hk
    simp only [List.mem_cons, not_or] at hk
    exact (ih k hk.2).trans (getCon_modCon_other hk.1)

/-- What the change keeps of a constellation holds of it afterwards, wherever it lies. -/
theorem modAll_keeps {f : Con → Con} {Q : Con → Prop} (hf : ∀ c, Q c → Q (f c)) {s : State} {ps : List Nat} {k : Nat} (hk : k < s.cons.length)
    (h : Q (getCon s k)) : Q (getCon (modAll f s ps) k) := by
  induction ps generalizing s with
  | nil => exact h
  | cons p ps ih =>
    refine ih (by simpa using hk) ?_
    by_cases hkp : k = p
    · subst hkp
      rw [getCon_modCon_same hk]
      exact hf _ h
    · rwa [getCon_modCon_other hkp]

/-- What the change brings about and keeps holds afterwards of each constellation of the list. -/
theorem modAll_of_mem {f : Con → Con} {Q : Con → Prop} (hf : ∀ c, Q c → Q (f c)) {s : State} {ps : List Nat} {k : Nat} (hk : k < s.cons.length)
    (hm : k ∈ ps) (h : Q (f (getCon s k))) : Q (getCon (modAll f s ps) k) := by
  induction ps generalizing s with
  | nil => cases hm
  | cons p ps ih =>
    by_cases hkp : k = p
    · subst hkp
      exact modAll_keeps (s := modCon s k f) hf (by simpa using hk) (by rwa [getCon_modCon_same hk])
    · refine ih (by simpa using hk) ((List.mem_cons.mp hm).resolve_left hkp) ?_
      rwa [getCon_modCon_other hkp]

theorem length_modAll (f : Con → Con) (s : State) (ps : List Nat) : (modAll f s ps).cons.length = s.cons.length := by
  induction ps generalizing s with
  | nil => rfl
  | cons p ps ih => exact (ih _).trans (length_modCon ..)

/-! ### The carriers of logical numbers -/

theorem findIdx?_modAt {α : Type} {q : α → Bool} {f : α → α} (h : ∀ x, q (f x) = q x) (l : List α) (i : Nat) :
    (modAt l i f).findIdx? q = l.findIdx? q := by
  induction l generalizing i with
  | nil => rfl
  | cons x l ih => cases i <;> simp [modAt, List.findIdx?_cons, h, ih]

/-- A change that leaves the logical numbers leaves their carriers. -/
theorem physOf_modCon {s : State} {phys : Nat} {f : Con → Con} (h : ∀ c, (f c).logical = c.logical) (l : Nat) :
    physOf (modCon s phys f) l = physOf s l :=
  findIdx?_modAt (fun c => by rw [h]) _ _

theorem physOf_modAll {f : Con → Con} (h : ∀ c, (f c).logical = c.logical) (s : State) (ps : List Nat) (l : Nat) :
    physOf (modAll f s ps) l = physOf s l := by
  induction ps generalizing s with
  | nil => rfl
  | cons p ps ih => exact (ih _).trans (physOf_modCon h l)

/-- The physical constellations that carry some logical numbers. -/
def carriers (s : State) (ls : List Nat) : List Nat := ls.filterMap (physOf s)

theorem carriers_modCon {s : State} {phys : Nat} {f : Con → Con} (h : ∀ c, (f c).logical = c.logical) (ls : List Nat) :
    carriers (modCon s phys f) ls = carriers s ls := by
  simp only [carriers, funext (physOf_modCon (s := s) (phys := phys) h)]

theorem carriers_modAll {f : Con → Con} (h : ∀ c, (f c).logical = c.logical) (s : State) (ps ls : List Nat) :
    carriers (modAll f s ps) ls = carriers s ls := by
  simp only [carriers, funext (physOf_modAll h s ps)]

/-- The constellation that carries a logical number changed, when one does. -/
def modCarrier (f : Con → Con) (s : State) (l : Nat) : State :=
  match physOf s l with
  | some p => modCon s p f
  | none => s

theorem now_modCarrier (f : Con → Con) (s : State) (l : Nat) : now (modCarrier f s l) = now s := by unfold modCarrier; split <;> rfl

/-- Changing the carriers of logical numbers one by one is changing the carriers that they have at first. -/
theorem foldl_modCarrier {f : Con → Con} (h : ∀ c, (f c).logical = c.logical) (s : State) (ls : List Nat) :
    ls.foldl (modCarrier f) s = modAll f s (carriers s ls) := by
  induction ls generalizing s with
  | nil => rfl
  | cons l ls ih =>
    rw [List.foldl_cons, ih]
    cases hl : physOf s l with
    | none => simp [modCarrier, carriers, hl]
    | some p =>
      have hs : modCarrier f s l = modCon s p f := by simp [modCarrier, hl]
      have hc : carriers s (l :: ls) = p :: carriers s ls := by simp [carriers, hl]
      rw [hs, hc, carriers_modCon h]
      rfl

/-! ### A wake begins (R74, R75, R77, R78) -/

/-- The constellation when its wake begins, at a tick. -/
def Con.wakeBegun (tick : Nat) (c : Con) : Con :=
  let w := { c with after := none, draining := false, wokeAt := some tick }
  match c.pwr with
  | .awake => { w with waking := c.waking || c.init }
  | .deep => c
  | _ => if c.restAt = some tick then { w with pwr := .awake } else { w with waking := true }

theorem beginWake_eq (s : State) (phys : Nat) : beginWake s phys = modCon s phys (Con.wakeBegun (now s / 4)) := rfl

theorem Con.wakeBegun_logical (tick : Nat) (c : Con) : (c.wakeBegun tick).logical = c.logical := by
  unfold Con.wakeBegun
  cases c.pwr <;> dsimp only <;> split <;> rfl

/-- A wake begun from a constellation: it stays in DEEP, is awake, or wakes. -/
def wokenFrom (c d : Con) : Prop := (c.pwr = .deep ∧ d.pwr = .deep) ∨ d.pwr = .awake ∨ (d.pwr ≠ .deep ∧ d.waking = true)

theorem wokenFrom_wakeBegun (tick : Nat) (c : Con) : wokenFrom c (c.wakeBegun tick) := by
  unfold wokenFrom Con.wakeBegun
  cases hp : c.pwr <;> dsimp only
  case awake => exact .inr (.inl rfl)
  case deep => exact .inl ⟨rfl, hp⟩
  all_goals
    split
    · exact .inr (.inl rfl)
    · exact .inr (.inr ⟨by simp, rfl⟩)

/-- A second wake of the same tick leaves it so. -/
theorem wokenFrom.again {c d : Con} (tick : Nat) (h : wokenFrom c d) : wokenFrom c (d.wakeBegun tick) := by
  rcases wokenFrom_wakeBegun tick d with ⟨hd, hk⟩ | hk
  · rcases h with ⟨hc, -⟩ | ha | ⟨hn, -⟩
    · exact .inl ⟨hc, hk⟩
    · rw [hd] at ha
      cases ha
    · exact absurd hd hn
  · exact .inr hk

/-- The wake lead of an entry marked at a constellation (R1005). -/
def Con.leadMarked (x : Nat × Nat × Bool) (c : Con) : Con := { c with leads := c.leads ++ [x] }

theorem wakeCons_eq_foldl (s : State) (ls : List Nat) : wakeCons s ls = ls.foldl (modCarrier (Con.wakeBegun (now s / 4))) s := by
  induction ls generalizing s with
  | nil => rfl
  | cons l ls ih =>
    have hstep : wakeCons s (l :: ls) = wakeCons (modCarrier (Con.wakeBegun (now s / 4)) s l) ls := rfl
    rw [hstep, ih, now_modCarrier, List.foldl_cons]

theorem wakeCons_eq (s : State) (ls : List Nat) : wakeCons s ls = modAll (Con.wakeBegun (now s / 4)) s (carriers s ls) := by
  rw [wakeCons_eq_foldl, foldl_modCarrier (Con.wakeBegun_logical _)]

theorem markLeads_eq (s : State) (ls : List Nat) (sec ent : Nat) (wraps : Bool) :
    markLeads s ls sec ent wraps = modAll (Con.leadMarked (sec, ent, wraps)) s (carriers s ls) :=
  foldl_modCarrier (f := Con.leadMarked (sec, ent, wraps)) (fun _ => rfl) s ls

/-- The state after the wake lead of an entry has been reached for logical numbers. -/
def leadReached (s : State) (ls : List Nat) (sec ent : Nat) (wraps : Bool) : State := markLeads (wakeCons s ls) ls sec ent wraps

theorem leadReached_eq (s : State) (ls : List Nat) (sec ent : Nat) (wraps : Bool) :
    leadReached s ls sec ent wraps =
      modAll (Con.leadMarked (sec, ent, wraps)) (modAll (Con.wakeBegun (now s / 4)) s (carriers s ls)) (carriers s ls) := by
  rw [leadReached, markLeads_eq, wakeCons_eq, carriers_modAll (Con.wakeBegun_logical _)]

theorem leadReached_only {pl : List Part} {sb s : State} {ls : List Nat} {sec ent : Nat} {wraps : Bool} (h : Within pl sb s) (hp : [.cons] ⊆ pl) :
    Within pl sb (leadReached s ls sec ent wraps) :=
  markLeads_only (wakeCons_only h hp) hp

theorem leadReached_unchanged {s : State} {ls : List Nat} {sec ent : Nat} {wraps : Bool} :
    ConsUnchanged (carriers s ls) s (leadReached s ls sec ent wraps) := by
  rw [leadReached_eq]
  exact modAll_unchanged.trans modAll_unchanged

/-- Every carrier of the logical numbers has the mark, and its wake has begun. -/
theorem getCon_leadReached {s : State} {ls : List Nat} {sec ent : Nat} {wraps : Bool} {l p : Nat} (hl : l ∈ ls) (hp : physOf s l = some p)
    (hlt : p < s.cons.length) :
    (sec, ent, wraps) ∈ (getCon (leadReached s ls sec ent wraps) p).leads ∧ wokenFrom (getCon s p) (getCon (leadReached s ls sec ent wraps) p) := by
  have hm : p ∈ carriers s ls := List.mem_filterMap.mpr ⟨l, hl, hp⟩
  have hlt' : p < (modAll (Con.wakeBegun (now s / 4)) s (carriers s ls)).cons.length := by rwa [length_modAll]
  rw [leadReached_eq]
  constructor
  · exact modAll_of_mem (Q := fun c => (sec, ent, wraps) ∈ c.leads) (fun c h => List.mem_append_left _ h) hlt' hm (by simp [Con.leadMarked])
  · exact modAll_keeps (f := Con.leadMarked (sec, ent, wraps)) (Q := wokenFrom (getCon s p)) (fun c h => h) hlt' (modAll_of_mem (fun c h => h.again _) hlt hm (wokenFrom_wakeBegun ..))

/-- What the wake lead of an entry does to the constellations of the entry and to the others (R74, R116). -/
theorem leadReached_spec {s : State} (hs : s.shaped = true) (ls : List Nat) (sec ent : Nat) (wraps : Bool) :
    (∀ l ∈ ls, ∀ p, p < 160 → physOf s l = some p → (sec, ent, wraps) ∈ (getCon (leadReached s ls sec ent wraps) p).leads ∧
      (((getCon s p).pwr = .deep ∧ (getCon (leadReached s ls sec ent wraps) p).pwr = .deep) ∨
        (getCon (leadReached s ls sec ent wraps) p).pwr = .awake ∨ (getCon (leadReached s ls sec ent wraps) p).waking = true)) ∧
    ConsUnchanged (ls.filterMap (physOf s)) s (leadReached s ls sec ent wraps) := by
  refine ⟨fun l hl p hlt hp => ?_, leadReached_unchanged⟩
  obtain ⟨hlead, hwoken⟩ := getCon_leadReached (sec := sec) (ent := ent) (wraps := wraps) hl hp (by rwa [cons_length_of_shaped hs])
  exact ⟨hlead, hwoken.imp_right (Or.imp_right And.right)⟩

theorem execWakeLeadReached_now {s : State} {sec ent : Nat} {e : Entry} (he : entryNow s sec ent = some e) (hc : isCompute e.cls = true)
    (hw : e.wakeLead ≤ e.start) (hi : isolated s e.ptn = false) :
    execWakeLeadReached sec ent false s = .next (leadReached s (entryCons s sec ent e) sec ent false) := by
  simp [execWakeLeadReached, leadReached, he, hc, hw, hi]

theorem execWakeLeadReached_wraps {s : State} {sec ent : Nat} {e : Entry} (he : entryNow (s.modEph fun _ => nextEph s) sec ent = some e)
    (hc : isCompute e.cls = true) (hw : e.start < e.wakeLead) (hi : isolated s e.ptn = false) :
    execWakeLeadReached sec ent true s = .next (leadReached s (entryCons (s.modEph fun _ => nextEph s) sec ent e) sec ent true) := by
  simp [execWakeLeadReached, leadReached, he, hc, hw, hi]

theorem execWakeLeadReached_isolated {s : State} {sec ent : Nat} {e : Entry} (he : entryNow s sec ent = some e) (hi : isolated s e.ptn = true) :
    execWakeLeadReached sec ent false s = .next s := by
  simp [execWakeLeadReached, he, hi]

end Sys2Proof.Machine

open Sys2Proof Sys2Proof.Machine

/-- Settles O17: each command changes one constellation or quarter, or the carriers of an entry's numbers; what follows it, the report of a late
wake and the clearing of banks, changes none. -/
theorem powerAndWakes : Obligations.PowerAndWakes := by
  unfold Obligations.PowerAndWakes
  refine ⟨?_, ?_, ?_, ?_, ?_, ?_, ?_, ?_, ?_, ?_, ?_⟩
  · intro phys s hlt hs hw hi
    have hc := wakeDone_cons hw hi
    have hg := (getCon_of_cons hc phys).trans (getCon_modCon_same (by rwa [cons_length_of_shaped hs]))
    exact .of_within rfl ⟨congrArg Con.pwr hg, congrArg Con.waking hg, congrArg Con.beat hg, congrArg Con.beatAt hg, modCon_unchanged.trans (.of_cons hc)⟩
      (wakeDone_only (.refl ..) (List.Subset.refl _))
  · intro phys s h
    exact .of_same (by simp [execWakeComplete, wakeDone_of_not h]) rfl
  · intro phys s hlt hs hd hu
    have hlen : phys < s.cons.length := by rwa [cons_length_of_shaped hs]
    have he : exec (.sleepDrainDone phys) s = .next (fallAsleep s phys) := by
      simp [execSleepDrainDone, hd, restIdle_of_allocated ((unallocated_fallAsleep hlen).trans hu)]
    have hg := getCon_fallAsleep hlen
    exact .of_within he ⟨by rw [hg, Con.rested_pwr], by rw [hg, Con.rested_draining], modCon_unchanged⟩
      (fallAsleep_only (.refl ..) (List.Subset.refl _))
  · intro phys s hlt hs hd hr hi hu hdeep
    have hlen : phys < s.cons.length := by rwa [cons_length_of_shaped hs]
    have hg := getCon_fallAsleep hlen
    have hp : (getCon (fallAsleep s phys) phys).pwr ≠ .deep := by rw [hg, Con.rested_pwr]; split <;> simp
    have he : exec (.sleepDrainDone phys) s = .next (sramClear (modCon (fallAsleep s phys) phys Con.deepened) phys) := by
      simp only [exec_sleepDrainDone, execSleepDrainDone, hd, if_true]
      rw [restIdle_of_deep (by rw [hg, Con.rested_role, hr]) (by rw [hg, Con.rested_init, hi]) ((unallocated_fallAsleep hlen).trans hu) hdeep hp]
    refine .of_within he ⟨?_, fun e h => (mem_sramClear.mp h).2, modCon_unchanged.trans (modCon_unchanged.trans (.of_cons rfl))⟩
      (sramClear_only (modCon_only (fallAsleep_only (.refl ..) (by decide)) (by decide)) (by decide))
    rw [getCon_of_cons (sramClear_cons ..), getCon_modCon_same (by simpa [fallAsleep] using hlen)]
    rfl
  · intro phys s hd
    exact .of_same (by simp [execSleepDrainDone, hd]) rfl
  · intro phys s hi
    exact .of_same (by simp [execSramInitDone, hi]) rfl
  · intro phys s hlt hs hi
    have hlen : phys < s.cons.length := by rwa [cons_length_of_shaped hs]
    have hg : getCon (initEnded s phys) phys = { getCon s phys with init := false } := getCon_modCon_same hlen
    have hlen' : phys < (initEnded s phys).cons.length := by simpa [initEnded] using hlen
    have he := execSramInitDone_of_init hi
    refine .of_within he ⟨?_, ?_, fun e h => (mem_sramClear.mp h).2, fun e h hp => mem_sramClear.mpr ⟨h, hp⟩,
      modCon_unchanged.trans (.trans (.of_cons (sramClear_cons ..)) modCon_unchanged)⟩ (execSramInitDone_only (.refl ..) (List.Subset.refl _) he)
    · rw [getCon_modCon_same hlen', Con.afterInit_pwr, hg]
    · rw [getCon_modCon_same hlen', Con.afterInit_init, hg]
  · intro q s hlt hs
    have hlen : q < s.qtrs.length := by rwa [qtrs_length_of_shaped hs]
    have hg := getQtr_modQtr_same (f := fun r => { r with settling := false, mv := r.targetMv }) hlen
    exact .of_within rfl ⟨congrArg Quarter.settling hg, congrArg Quarter.mv hg, (congrArg Quarter.targetMv hg :), fun k hk => getQtr_modQtr_other hk⟩
      (modQtr_only (.refl ..) (List.Subset.refl _))
  · intro sec ent e s hs he hc hw hi
    exact .of_within (execWakeLeadReached_now he hc hw hi) (leadReached_spec hs ..) (leadReached_only (.refl ..) (List.Subset.refl _))
  · intro sec ent e s he hi
    exact .of_same (execWakeLeadReached_isolated he hi) rfl
  · intro sec ent e s hs he hc hw hi
    exact .of_within (execWakeLeadReached_wraps he hc hw hi) (leadReached_spec hs ..) (leadReached_only (.refl ..) (List.Subset.refl _))
end

section
/-! PROOFS. Obligation O18: loading an image and arming a switch (R105, R108, R113, R141-R144). -/

namespace Sys2Proof.Machine
open Sys2Proof

/-- The frame of a command, from the lemma about what its meaning may change. -/
theorem Does.of_only {c : Instr} {s t : State} {ps : List Part} {P : State → Prop} (he : exec c s = .next t)
    (hw : exec c s = .next t → Within ps s t) (hP : P t) : Does c s ps P :=
  .of_within he hP (hw he)

/-! ### The two banks -/

/-- The image in force is named by the bank, the bank's number and whether a table runs. -/
theorem image_congr {s t : State} (hr : t.eph.running = s.eph.running) (ha : t.eph.active = s.eph.active)
    (h0 : t.eph.bank0 = s.eph.bank0) (h1 : t.eph.bank1 = s.eph.bank1) : image t = image s := by
  simp only [image, hr, ha, h0, h1]

@[simp] theorem image_setOther (s : State) (im : Option Image) : image (setOther s im) = image s := by
  by_cases h : s.eph.active = 0 <;> simp [image, setOther, h]

@[simp] theorem otherBank_setOther (s : State) (im : Option Image) : otherBank (setOther s im) = im := by
  by_cases h : s.eph.active = 0 <;> simp [otherBank, setOther, h]

/-! ### Loads -/

/-- A load has begun: the other bank is empty, and the length is that of EPH_LOAD_LEN (R140, R141). -/
def loadBegun (s : State) : State :=
  (setOther s none).modEph fun e => { e with loadState := 1, loadResult := 0, loadFault := 0, loadLen := (getReg s 0x100028).toNat }
/-- A load has ended without an image, for a reason (R142). -/
def loadAborted (s : State) : State := s.modEph fun e => { e with loadState := 3, loadResult := 0xF }
def loadRefused (s : State) (r f : Nat) : State := s.modEph fun e => { e with loadState := 3, loadResult := r, loadFault := f }
/-- A load has put an image into the other bank (R105). -/
def loadPassed (s : State) (im : Image) : State :=
  (setOther s (some im)).modEph fun e => { e with loadState := 2, loadResult := 0, loadFault := 0 }

theorem image_loadBegun (s : State) : image (loadBegun s) = image s := image_setOther s none
theorem image_loadPassed (s : State) (im : Image) : image (loadPassed s im) = image s := image_setOther s (some im)
theorem otherBank_loadBegun (s : State) : otherBank (loadBegun s) = none := otherBank_setOther s none
theorem otherBank_loadPassed (s : State) (im : Image) : otherBank (loadPassed s im) = some im := otherBank_setOther s (some im)

theorem execEphLoadStart_begins {s : State} (abort : Bool) (hl : s.eph.loadState ≠ 1) (ha : s.eph.armed = false) (hn : s.boot.nfState = 0)
    (hh : halted s = false) : execEphLoadStart abort s = .next (loadBegun s) := by
  simp [execEphLoadStart, loadBegun, hl, ha, hn, hh]

theorem execEphLoadStart_again {s : State} (hl : s.eph.loadState = 1) (ha : s.eph.armed = false) (hn : s.boot.nfState = 0)
    (hh : halted s = false) : execEphLoadStart true s = .next (loadBegun (loadAborted s)) := by
  simp [execEphLoadStart, loadBegun, loadAborted, hl, ha, hn, hh, getReg]

theorem execEphLoadStart_ignored {s : State} (abort : Bool) (hl : s.eph.loadState ≠ 1)
    (hb : s.eph.armed = true ∨ s.boot.nfState ≠ 0 ∨ halted s = true) : execEphLoadStart abort s = .next s := by
  rcases hb with h | h | h <;> simp [execEphLoadStart, hl, h]

theorem execEphLoadDone_passes {tr ok : Bool} {bs : List Byte} {ms : List Model} {f : Nat} {s : State} (hl : s.eph.loadState = 1)
    (hc : loadCheck (loadCtx s) s.ctl.imageKey (tr && ok && s.eph.loadLen ≤ bs.length) (bs.take s.eph.loadLen) = (0, f)) :
    execEphLoadDone tr ok bs ms s = .next (loadPassed s { parseImage (bs.take s.eph.loadLen) with models := ms }) := by
  simp [execEphLoadDone, loadPassed, hl, hc]

theorem execEphLoadDone_fails {tr ok : Bool} {bs : List Byte} {ms : List Model} {r f : Nat} {s : State} (hl : s.eph.loadState = 1)
    (hc : loadCheck (loadCtx s) s.ctl.imageKey (tr && ok && s.eph.loadLen ≤ bs.length) (bs.take s.eph.loadLen) = (r, f)) (hr : r ≠ 0) :
    execEphLoadDone tr ok bs ms s = .next (loadRefused s r f) := by
  obtain ⟨k, rfl⟩ := Nat.exists_eq_succ_of_ne_zero hr
  simp [execEphLoadDone, loadRefused, hl, hc]

/-- A fetch that failed, or that brought too few bytes, is refused as a fetch (R105). -/
theorem loadCheck_unfetched {ctx : LoadCtx} {key : Option (List Byte)} {bs : List Byte} :
    loadCheck ctx key false bs = (2, hdrItem.code + 2 ^ 17) := by
  simp [loadCheck]

/-! ### The switch -/

/-- The result of an attempt to arm, and whether a switch is armed now (R144). -/
def armResult (s : State) (n : Nat) (armed : Bool) : State := s.modEph fun e => { e with switchResult := n, armed := armed }

/-- The boundaries of the image in force and of the one loaded meet at the switch (R113). -/
def boundariesMeet (s : State) (im : Image) : Prop :=
  ∀ old, image s = some old → old.cycleTicks = im.cycleTicks ∨ switchCycle s * old.cycleTicks % im.cycleTicks = 0

theorem execEphSwitchArm_unloaded {s : State} (h : s.eph.loadState ≠ 2 ∨ otherBank s = none) :
    execEphSwitchArm s = .next (armResult s 4 s.eph.armed) := by
  unfold execEphSwitchArm armResult
  rcases h with h | h
  · split <;> simp_all
  · simp [h]

section
variable {s : State} {im : Image} (hl : s.eph.loadState = 2) (ho : otherBank s = some im)
include hl ho

theorem execEphSwitchArm_late (h : switchCycle s < switchBase s im + 2) : execEphSwitchArm s = .next (armResult s 3 s.eph.armed) := by
  simp [execEphSwitchArm, armResult, hl, ho, h]

theorem execEphSwitchArm_apart {old : Image} (h : switchBase s im + 2 ≤ switchCycle s) (hi : image s = some old)
    (hne : old.cycleTicks ≠ im.cycleTicks) (hm : switchCycle s * old.cycleTicks % im.cycleTicks ≠ 0) :
    execEphSwitchArm s = .next (armResult s 8 s.eph.armed) := by
  simp [execEphSwitchArm, armResult, hl, ho, Nat.not_lt.mpr h, hi, hne, hm]

theorem execEphSwitchArm_arms (h : switchBase s im + 2 ≤ switchCycle s) (hm : boundariesMeet s im) :
    execEphSwitchArm s = .next (armResult s 1 true) := by
  cases hi : image s with
  | none => simp [execEphSwitchArm, armResult, hl, ho, Nat.not_lt.mpr h, hi]
  | some old => rcases hm old hi with h' | h' <;> simp [execEphSwitchArm, armResult, hl, ho, Nat.not_lt.mpr h, hi, h']

end

end Sys2Proof.Machine

open Sys2Proof Sys2Proof.Machine

/-- Settles O18: each command is one change of the ephemeris part, and none of these changes the bank in force. -/
theorem ephemerides : Obligations.Ephemerides := by
  unfold Obligations.Ephemerides
  refine ⟨?_, ?_, ?_, ?_, ?_, ?_, ?_, ?_, ?_, ?_, ?_, ?_, ?_, ?_, ?_, ?_⟩
  · intro s hl ha hn hh abort
    exact .of_only (execEphLoadStart_begins abort hl ha hn hh) (execEphLoadStart_only (.refl ..) (List.Subset.refl _))
      ⟨rfl, rfl, rfl, otherBank_loadBegun s, image_loadBegun s⟩
  · intro s hl
    exact .of_same (by simp [execEphLoadStart, hl]) rfl
  · intro s hl ha hn hh
    exact .of_only (execEphLoadStart_again hl ha hn hh) (execEphLoadStart_only (.refl ..) (List.Subset.refl _))
      ⟨rfl, rfl, rfl, otherBank_loadBegun _, image_loadBegun _⟩
  · intro abort s hl hb
    exact .of_same (execEphLoadStart_ignored abort hl hb) rfl
  · intro s hl
    exact .of_only (t := loadAborted s) (by simp [execEphLoadAbort, hl, loadAborted]) (execEphLoadAbort_only (.refl ..) (List.Subset.refl _))
      ⟨rfl, rfl, rfl, rfl⟩
  · intro s hl
    exact .of_same (by simp [execEphLoadAbort, hl]) rfl
  · intro tr ok bs ms f s hl hc
    exact .of_only (execEphLoadDone_passes hl hc) (execEphLoadDone_only (.refl ..) (List.Subset.refl _))
      ⟨rfl, rfl, otherBank_loadPassed .., image_loadPassed ..⟩
  · intro tr ok bs ms r f s hl hc hr
    exact .of_only (execEphLoadDone_fails hl hc hr) (execEphLoadDone_only (.refl ..) (List.Subset.refl _)) ⟨rfl, rfl, rfl, rfl, rfl⟩
  · intro tr ok bs ms s hl hb
    have hf : (tr && ok && decide (s.eph.loadLen ≤ bs.length)) = false := by
      rcases hb with h | h | h <;> simp [h]
    exact .of_only (execEphLoadDone_fails hl (hf ▸ loadCheck_unfetched) (by decide)) (execEphLoadDone_only (.refl ..) (List.Subset.refl _))
      ⟨rfl, rfl, rfl, rfl⟩
  · intro tr ok bs ms s hl
    exact .of_same (by simp [execEphLoadDone, hl]) rfl
  · intro s h
    exact .of_only (execEphSwitchArm_unloaded h) (execEphSwitchArm_only (.refl ..) (List.Subset.refl _)) ⟨rfl, rfl, rfl⟩
  · intro im s hl ho h
    exact .of_only (execEphSwitchArm_late hl ho h) (execEphSwitchArm_only (.refl ..) (List.Subset.refl _)) ⟨rfl, rfl, rfl⟩
  · intro im old s hl ho h hi hne hm
    exact .of_only (execEphSwitchArm_apart hl ho h hi hne hm) (execEphSwitchArm_only (.refl ..) (List.Subset.refl _)) ⟨rfl, rfl, rfl⟩
  · intro im s hl ho h hm
    exact .of_only (execEphSwitchArm_arms hl ho h hm) (execEphSwitchArm_only (.refl ..) (List.Subset.refl _)) ⟨rfl, rfl, rfl⟩
  · intro s ha
    exact .of_only (t := armResult s 7 false) (by simp [execEphSwitchDisarm, armResult, ha]) (execEphSwitchDisarm_only (.refl ..) (List.Subset.refl _))
      ⟨rfl, rfl, rfl⟩
  · intro s ha
    exact .of_same (by simp [execEphSwitchDisarm, ha]) rfl
end

section
/-! PROOFS. Obligation O19: slots, overruns, borrows, aborts, barriers, bridge and gate entries (R94-R132, R1005). -/

namespace Sys2Proof.Machine
open Sys2Proof

/-! ### Lists whose elements are changed in place -/

/-- A search by a key that the change keeps finds the same element, changed where it is to be changed. -/
theorem find?_updIf {α : Type} {p q : α → Bool} {f : α → α} (hf : ∀ x, p x = true → q (f x) = q x) (l : List α) :
    (updIf p f l).find? q = (l.find? q).map fun x => if p x then f x else x := by
  induction l with
  | nil => rfl
  | cons x r ih =>
    have hx : q (if p x then f x else x) = q x := by split <;> simp_all
    simp only [updIf, List.map_cons, List.find?_cons, hx] at ih ⊢
    cases q x
    · exact ih
    · rfl

theorem find?_updIf_self {α : Type} {q : α → Bool} {f : α → α} (hf : ∀ x, q x = true → q (f x) = true) (l : List α) :
    (updIf q f l).find? q = (l.find? q).map f := by
  rw [find?_updIf (fun x hx => (hf x hx).trans hx.symm)]
  cases h : l.find? q with
  | none => rfl
  | some x => simp [List.find?_some h]

theorem updIf_of_none {α : Type} {p : α → Bool} {f : α → α} {l : List α} (h : ∀ x ∈ l, p x = false) : updIf p f l = l := by
  simp only [updIf]
  conv_rhs => rw [← List.map_id l]
  exact List.map_congr_left fun x hx => by simp [h x hx]

theorem updIf_append {α : Type} {p : α → Bool} {f : α → α} (l m : List α) : updIf p f (l ++ m) = updIf p f l ++ updIf p f m := by
  simp [updIf]

/-- What the change of one element keeps of it is kept of all. -/
theorem getD_modAt_keeps {α β : Type} {g : α → β} {f : α → α} (h : ∀ x, g (f x) = g x) (l : List α) (i j : Nat) (d : α) :
    g ((modAt l i f).getD j d) = g (l.getD j d) := by
  by_cases hj : j = i
  · subst hj
    by_cases hl : j < l.length
    · rw [getD_modAt_same hl, h]
    · rw [List.getD_eq_default _ _ (by simpa using hl), List.getD_eq_default _ _ (by simpa using hl)]
  · rw [getD_modAt_other hj]

/-! ### Slots -/

theorem findSlot_of_slots {s t : State} (h : t.eph.slots = s.eph.slots) (sec ent : Nat) : findSlot t sec ent = findSlot s sec ent := by
  simp only [findSlot, h]

theorem findSlot_of_eph {s t : State} (h : t.eph = s.eph) (sec ent : Nat) : findSlot t sec ent = findSlot s sec ent :=
  findSlot_of_slots (congrArg Eph.slots h) sec ent

theorem findSlot_modSlot (s : State) (sec ent : Nat) {f : RunSlot → RunSlot} (hf : ∀ r, (f r).sec = r.sec ∧ (f r).ent = r.ent) :
    findSlot (modSlot s sec ent f) sec ent = (findSlot s sec ent).map f :=
  find?_updIf_self (fun r h => by rwa [(hf r).1, (hf r).2]) _

/-- A slot taken out of the table is not found there. -/
theorem findSlot_filtered (s : State) (sec ent : Nat) :
    findSlot (s.modEph fun e => { e with slots := e.slots.filter fun x => !(x.sec == sec && x.ent == ent) }) sec ent = none := by
  simp only [findSlot, State.modEph_eph, List.find?_eq_none]
  intro r hr
  simpa [imp_iff_not_or] using (List.mem_filter.mp hr).2

@[simp] theorem restAll_eph (s : State) (ls : List Nat) : (restAll s ls).eph = s.eph :=
  (restAll_only (.refl _ s) (List.Subset.refl _)).only.keeps .eph (by decide)
@[simp] theorem clearLeads_eph (s : State) (ls : List Nat) (sec ent : Nat) : (clearLeads s ls sec ent).eph = s.eph :=
  (clearLeads_only (.refl _ s) (List.Subset.refl _)).only.keeps .eph (by decide)
@[simp] theorem wakeCons_eph (s : State) (ls : List Nat) : (wakeCons s ls).eph = s.eph :=
  (wakeCons_only (.refl _ s) (List.Subset.refl _)).only.keeps .eph (by decide)
@[simp] theorem askStop_eph (s : State) (iid st : Nat) : (askStop s iid st).eph = s.eph :=
  (askStop_only (.refl _ s) (List.Subset.refl _)).only.keeps .eph (by decide)
@[simp] theorem overrunEvent_eph (s : State) (sec ent : Nat) (e : Entry) (policy ticks : Nat) : (overrunEvent s sec ent e policy ticks).eph = s.eph :=
  (overrunEvent_only (.refl _ s) (List.Subset.refl _)).only.keeps .eph (by decide)
@[simp] theorem ephEvent_eph (s : State) (p code uid : Nat) (payload : List Nat) : (ephEvent s p code uid payload).eph = s.eph :=
  (ephEvent_only (.refl _ s) (List.Subset.refl _)).only.keeps .eph (by decide)
@[simp] theorem noteAfter_eph (s : State) (l after : Nat) : (noteAfter s l after).eph = s.eph :=
  (noteAfter_only (.refl _ s) (List.Subset.refl _)).only.keeps .eph (by decide)

theorem findSlot_dropSlot (s : State) (sec ent : Nat) : findSlot (dropSlot s sec ent) sec ent = none := by
  unfold dropSlot
  split
  · assumption
  · rw [findSlot_of_eph (restAll_eph ..)]
    exact findSlot_filtered s sec ent

/-- The work of an aborted slot stops, and the slot stays until its stores are written (R119). -/
theorem findSlot_abortSlot (s : State) (sec ent : Nat) :
    findSlot (abortSlot s sec ent) sec ent = (findSlot s sec ent).map fun r => { r with aborting := true } := by
  unfold abortSlot
  rw [findSlot_of_eph (foldl_keep State.eph _ (fun s i => askStop_eph s i stRETRIED) ..)]
  exact findSlot_modSlot s sec ent fun r => ⟨rfl, rfl⟩

/-! ### A compute slot opens (R93, R115, R117, R121, R123, R124) -/

/-- The slot of an entry stands in the table, and the entry's wake lead is over. -/
def slotOpened (s : State) (sec ent : Nat) (e : Entry) : State :=
  clearLeads (s.modEph fun x => { x with slots := x.slots ++ [openedSlot s sec ent e] }) (entryCons s sec ent e) sec ent

theorem slotOpened_eph (s : State) (sec ent : Nat) (e : Entry) :
    (slotOpened s sec ent e).eph = { s.eph with slots := s.eph.slots ++ [openedSlot s sec ent e] } := by
  simp [slotOpened]

theorem slotOpened_only {pl : List Part} {sb s : State} {sec ent : Nat} {e : Entry} (h : Within pl sb s) (hp : [.cons, .eph] ⊆ pl) :
    Within pl sb (slotOpened s sec ent e) :=
  clearLeads_only (modEph_only h (subset_sub hp (by decide))) (subset_sub hp (by decide))

/-- What a change of a constellation keeps of it is kept of all. -/
theorem getCon_modCon_keeps {β : Type} {g : Con → β} {f : Con → Con} (h : ∀ c, g (f c) = g c) (s : State) (phys k : Nat) :
    g (getCon (modCon s phys f) k) = g (getCon s k) :=
  getD_modAt_keeps h ..

/-- The end of a wake lead changes no power state. -/
theorem clearLeads_keeps {β : Type} {g : Con → β} (h : ∀ c l, g { c with leads := l } = g c) (s : State) (ls : List Nat) (sec ent k : Nat) :
    g (getCon (clearLeads s ls sec ent) k) = g (getCon s k) := by
  unfold clearLeads
  refine foldl_keep (fun s => g (getCon s k)) _ (fun s l => ?_) ls s
  split
  · exact getCon_modCon_keeps (fun c => h c _) ..
  · rfl

/-- Why an entry opens no slot. -/
def slotShut (s : State) (sec ent : Nat) (e : Entry) (im : Image) : Prop :=
  isCompute e.cls = false ∨ (findSlot s sec ent).isSome = true ∨ im.cycleTicks ≤ e.start + entrySlip s sec ent e ∨
    (e.cls = 7 ∧ e.length ≤ entrySlip s sec ent e) ∨ s.eph.skipped.contains (sec, ent) = true ∨
    ∃ r ∈ s.eph.slots, r.aborting = true ∧ meets r.stars (entryStars s sec ent e) = true

theorem execComputeSlotStart_shut {sec ent : Nat} {fails : List Nat} {e : Entry} {im : Image} {s : State} (he : entryNow s sec ent = some e)
    (hi : image s = some im) (h : slotShut s sec ent e im) : execComputeSlotStart sec ent fails s = .next s := by
  unfold execComputeSlotStart
  simp only [he, hi]
  rw [if_pos]
  rcases h with h | h | h | ⟨h, h'⟩ | h | ⟨r, hr, ha, hm⟩
  · simp [h]
  · simp [h]
  · simp [h]
  · simp [h, h']
  · simp only [h, Bool.or_true, Bool.true_or]
  · simp only [Bool.or_eq_true]
    exact .inr (List.any_eq_true.mpr ⟨r, hr, by simp [ha, hm]⟩)

section
variable {sec ent : Nat} {fails : List Nat} {e : Entry} {im : Image} {s : State} (he : entryNow s sec ent = some e) (hi : image s = some im)
  (hc : isCompute e.cls = true) (hf : findSlot s sec ent = none) (ht : e.start + entrySlip s sec ent e < im.cycleTicks)
  (hs : s.eph.skipped.contains (sec, ent) = false)
  (ha : ∀ r ∈ s.eph.slots, r.aborting = true → meets r.stars (entryStars s sec ent e) = false)
include he hi hc hf ht hs ha

/-- An open slot of a live partition is filled. -/
theorem execComputeSlotStart_opens (h8 : e.cls ≠ 8) (h7 : e.cls = 7 → entrySlip s sec ent e < e.length) :
    execComputeSlotStart sec ent fails s =
      .next (if e.cls = 7 || !((getPtn s e.ptn).state == .active && !runsEmpty s e.ptn) then slotOpened s sec ent e
        else fillSlot (wakeCons (slotOpened s sec ent e) (entryCons s sec ent e)) sec ent e) := by
  have hany : s.eph.slots.any (fun r => r.aborting && meets r.stars (entryStars s sec ent e)) = false :=
    List.any_eq_false.mpr fun r hr => by
      cases hab : r.aborting with
      | false => simp
      | true => simp [ha r hr hab]
  have h78 : ((e.cls == 7 || e.cls == 8) && decide (e.length ≤ entrySlip s sec ent e)) = false := by
    by_cases h : e.cls = 7
    · simp [h, h7 h]
    · simp [h, h8]
  unfold execComputeSlotStart slotOpened openedSlot
  have hns : (sec, ent) ∉ s.eph.skipped := by simpa using hs
  simp [he, hi, hc, hf, Nat.not_le.mpr ht, h78, hns, hany, h8]

end

/-! ### What a slot takes of its caps (R117) -/

/-- Counts within CAP_A and CAP_B of an entry; a cap of 0 sets no limit. -/
def withinCaps (e : Entry) (a b : Nat) : Prop := (e.capA = 0 ∨ a ≤ e.capA) ∧ (e.capB = 0 ∨ b ≤ e.capB)

theorem withinCaps_zero (e : Entry) : withinCaps e 0 0 := ⟨.inr (Nat.zero_le _), .inr (Nat.zero_le _)⟩

/-- What passes the check of the caps is within them. -/
theorem withinCaps_of_check {e : Entry} {a b : Nat} (h : ((e.capA != 0 && decide (e.capA < a)) || (e.capB != 0 && decide (e.capB < b))) = false) :
    withinCaps e a b := by
  simp only [Bool.or_eq_false_iff, Bool.and_eq_false_iff, bne_eq_false_iff_eq, decide_eq_false_iff_not, Nat.not_lt] at h
  exact h

/-- A slot being filled for an entry, within its caps. -/
def fills (e : Entry) (k : Slot) : Prop := k.e = e ∧ withinCaps e k.usedA k.usedB

theorem placeOne_fills {e : Entry} {f : State → Slot → Chosen} {a : State × Slot} (h : fills e a.2) : fills e (placeOne f a).2 := by
  obtain ⟨s, k⟩ := a
  obtain ⟨rfl, hw⟩ := h
  unfold placeOne
  dsimp only
  split
  · exact ⟨rfl, hw⟩
  · split
    · exact ⟨rfl, hw⟩
    · split
      · exact ⟨rfl, hw⟩
      · exact ⟨rfl, withinCaps_of_check (Bool.eq_false_iff.mpr ‹_›)⟩

theorem placeQuery_fills {e : Entry} {q : HolderQuery} {a : State × Slot} (h : fills e a.2) : fills e (placeQuery q a).2 := by
  obtain ⟨s, k⟩ := a
  obtain ⟨rfl, hw⟩ := h
  unfold placeQuery
  dsimp only
  split
  · exact ⟨rfl, hw⟩
  · split
    · exact ⟨rfl, hw⟩
    · split
      · exact ⟨rfl, hw⟩
      · exact ⟨rfl, withinCaps_of_check (Bool.eq_false_iff.mpr ‹_›)⟩

/-- The candidates of a slot are tasks, placed one by one, and queries, placed whole. -/
theorem candidates_cases {s : State} {k : Slot} {f : State × Slot → State × Slot} (h : f ∈ candidates s k) :
    (∃ g, f = placeOne g) ∨ ∃ q, f = placeQuery q := by
  unfold candidates at h
  extract_lets p waiting drop back loaded old busy reqs fresh queries at h
  obtain ⟨x, hx, rfl⟩ := List.mem_map.mp h
  rcases List.mem_append.mp (mem_sortBy hx) with hm | hm
  · obtain ⟨y, -, rfl⟩ := List.mem_map.mp hm
    exact .inl ⟨_, rfl⟩
  · unfold queries at hm
    split at hm
    · obtain ⟨q, -, rfl⟩ := List.mem_map.mp hm
      exact .inr ⟨q, rfl⟩
    · cases hm

theorem placeAll_fills {e : Entry} {l : List (State × Slot → State × Slot)} (hl : ∀ f ∈ l, (∃ g, f = placeOne g) ∨ ∃ q, f = placeQuery q)
    {a : State × Slot} (h : fills e a.2) : fills e (l.foldl (fun a f => f a) a).2 := by
  induction l generalizing a with
  | nil => exact h
  | cons f l ih =>
    refine ih (fun g hg => hl g (List.mem_cons_of_mem _ hg)) ?_
    rcases hl f (List.mem_cons_self ..) with ⟨g, rfl⟩ | ⟨q, rfl⟩
    · exact placeOne_fills h
    · exact placeQuery_fills h

theorem serveAsks_caps {p : Nat} {e : Entry} (l : List (Nat × StateMsg)) {x : State × Nat × Nat × Bool} (h : withinCaps e x.2.1 x.2.2.1) :
    withinCaps e (serveAsks p e.capA e.capB l x).2.1 (serveAsks p e.capA e.capB l x).2.2.1 := by
  induction l generalizing x with
  | nil => exact h
  | cons m l ih =>
    obtain ⟨s, ua, ub, full⟩ := x
    unfold serveAsks
    dsimp only
    split
    · exact h
    · split
      · exact h
      · rename_i hc _
        have hc' := Bool.eq_false_iff.mpr hc
        rw [Bool.or_assoc, Bool.or_eq_false_iff] at hc'
        exact ih (withinCaps_of_check hc'.2)

theorem tableEntry_caps (s : State) (p : Nat) (e : Entry) :
    withinCaps e (tableEntry s p e.capA e.capB 0 0 false).2.1 (tableEntry s p e.capA e.capB 0 0 false).2.2.1 := by
  unfold tableEntry
  dsimp only
  split
  · exact withinCaps_zero e
  · exact serveAsks_caps _ (withinCaps_zero e)

/-- Filling a slot changes of the ephemeris state what the slot has taken, within its caps, and nothing else (R117). -/
theorem fillSlot_takes (s : State) (sec ent : Nat) (e : Entry) :
    (fillSlot s sec ent e).eph = s.eph ∨
      ∃ a b full, (fillSlot s sec ent e).eph = (useSlot s sec ent a b full).eph ∧ withinCaps e a b := by
  unfold fillSlot
  extract_lets k dim k1 s1 x a s2
  have hx : Within [.out, .freeCount, .regs, .cons, .work, .tabs, .mem, .serve, .ctl, .tel] s x.1 := by
    unfold x
    split
    · exact tableEntry_only (.refl ..) (by decide)
    · exact .refl ..
  have hxc : withinCaps e x.2.1 x.2.2.1 := by
    unfold x
    split
    · exact tableEntry_caps s e.ptn e
    · exact withinCaps_zero e
  have ha : a.1.eph = s.eph :=
    (placeAll_only hx fun f hf b hb => candidates_only (by decide) f hf b hb).only.keeps .eph (by decide)
  have hf : fills e a.2 := placeAll_fills (fun f hf => candidates_cases hf) ⟨rfl, hxc⟩
  have h2 : s2.eph = (useSlot s sec ent a.2.usedA a.2.usedB a.2.full).eph := by
    simp only [s2, useSlot, State.modEph_eph, ha]
  split
  · left
    split
    · refine ((srvMark_only (.refl _ s1) (List.Subset.refl _)).only.keeps .eph (by decide)).trans ?_
      unfold s1
      split
      · rfl
      · simp
    · rfl
  · refine .inr ⟨a.2.usedA, a.2.usedB, a.2.full, ?_, hf.2⟩
    split
    · exact ((codePages_only (.refl _ s2) (List.Subset.refl _)).only.keeps .eph (by decide)).trans h2
    · exact h2

theorem updIf_slots {l : List RunSlot} {sec ent : Nat} (h : l.find? (fun r => r.sec == sec && r.ent == ent) = none) (f : RunSlot → RunSlot) (r : RunSlot)
    (hr : r.sec = sec ∧ r.ent = ent) : updIf (fun r => r.sec == sec && r.ent == ent) f (l ++ [r]) = l ++ [f r] := by
  rw [updIf_append, updIf_of_none fun x hx => by simpa using List.find?_eq_none.mp h x hx]
  simp [updIf, hr]

/-- The slot of an entry that is filled as it opens: what it has taken is within the entry's caps (R117). -/
theorem eph_fillSlot_opened {s : State} {sec ent : Nat} (e : Entry) (hf : findSlot s sec ent = none) :
    ∃ a b full, (fillSlot (wakeCons (slotOpened s sec ent e) (entryCons s sec ent e)) sec ent e).eph =
        { s.eph with slots := s.eph.slots ++ [{ openedSlot s sec ent e with usedA := a, usedB := b, full := full }] } ∧ withinCaps e a b := by
  have h0 : (wakeCons (slotOpened s sec ent e) (entryCons s sec ent e)).eph = { s.eph with slots := s.eph.slots ++ [openedSlot s sec ent e] } :=
    (wakeCons_eph ..).trans (slotOpened_eph ..)
  rcases fillSlot_takes (wakeCons (slotOpened s sec ent e) (entryCons s sec ent e)) sec ent e with h | ⟨a, b, full, h, hc⟩
  · exact ⟨0, 0, false, h.trans h0, withinCaps_zero e⟩
  · refine ⟨a, b, full, h.trans ?_, hc⟩
    simp only [useSlot, State.modEph_eph, h0]
    rw [updIf_slots hf _ _ ⟨rfl, rfl⟩]

/-! ### Overruns, borrows and aborts (R119, R121) -/

section
variable {sec ent : Nat} {e : Entry} {r : RunSlot} {s : State} (he : entryNow s sec ent = some e) (hr : findSlot s sec ent = some r)
include he hr

/-- The SLACK that follows, of the same partition, on all units, not consumed by the slip, is borrowed. -/
theorem execSlotOverrun_borrows {x i : Nat} {f : Entry} (hb : slotBusy s sec ent = true) (ha : r.aborting = false) (hn : r.borrow = none)
    (hp : e.policy = 0) (hl : (laterEntries s (entryStars s sec ent e) (e.start + e.length)).head? = some (x, i, f)) (hc : f.cls = 7)
    (hq : f.ptn = e.ptn) (hu : (entryStars s x i f).foldl cutOut (entryStars s sec ent e) = [])
    (hm : (barriersIn s (entryStars s sec ent e) (e.start + e.length) f.start).length ≤ 1)
    (ht : e.start + e.length + r.slip < f.start + f.length) :
    execSlotOverrun sec ent s = .next (modSlot s sec ent fun r => { r with borrow := some i }) := by
  have hs : slackAfter s sec ent e = some (x, i, f) := by simp [slackAfter, hl, hc, hq, hu, hm]
  simp [execSlotOverrun, he, hr, hb, ha, hn, hp, hs, ht]

theorem execSlotOverrun_stops (hb : slotBusy s sec ent = true) (ha : r.aborting = false) (hn : r.borrow = none) (hp : e.policy ≠ 0) :
    execSlotOverrun sec ent s = .next (abortSlot (overrunEvent s sec ent e 1 0) sec ent) := by
  simp [execSlotOverrun, he, hr, hb, ha, hn, hp]

/-- The borrowed ticks counted on the constellations of a slot (R119). -/
def borrowCounted (s : State) (r : RunSlot) (ticks : Nat) : State := r.cons.foldl (fun s l => progCount s l 0x10 ticks) s

theorem execBorrowEnd_of (fin : Bool) (hb : r.borrow.isSome = true) (ha : r.aborting = false) :
    execBorrowEnd sec ent fin s =
      .next (if fin then dropSlot (overrunEvent (borrowCounted s r (tickNow s - (e.start + e.length + r.slip))) sec ent e 0
            (tickNow s - (e.start + e.length + r.slip))) sec ent
        else abortSlot (overrunEvent (borrowCounted s r (tickNow s - (e.start + e.length + r.slip))) sec ent e 1
            (tickNow s - (e.start + e.length + r.slip))) sec ent) := by
  obtain ⟨i, hi⟩ := Option.isSome_iff_exists.mp hb
  simp [execBorrowEnd, he, hr, hi, ha, borrowCounted]

end

@[simp] theorem borrowCounted_eph (s : State) (r : RunSlot) (ticks : Nat) : (borrowCounted s r ticks).eph = s.eph :=
  foldl_keep State.eph _ (fun _ _ => progCount_eph ..) ..

theorem execSlotOverrun_idle {sec ent : Nat} {s : State} (hb : slotBusy s sec ent = false) : execSlotOverrun sec ent s = .next s := by
  unfold execSlotOverrun
  cases entryNow s sec ent <;> cases findSlot s sec ent <;> simp [hb]

theorem execBorrowEnd_ignored {sec ent : Nat} {r : RunSlot} {s : State} (fin : Bool) (hr : findSlot s sec ent = some r)
    (h : r.borrow = none ∨ r.aborting = true) : execBorrowEnd sec ent fin s = .next s := by
  unfold execBorrowEnd
  cases entryNow s sec ent <;> rcases h with h | h <;> simp [hr, h]

/-! ### Slips (R121, R122, R124) -/

/-- The slip of some stars set, as a barrier sets it. -/
def slipSet (s : State) (us : List (Nat × Nat)) (slip : Nat) : State :=
  s.modEph fun e => { e with slip := us.map (fun u => (u.1, u.2, slip)) ++ e.slip }

/-- Of the ephemeris state, only the list of entries that are skipped has changed. -/
def skipsOnly (s t : State) : Prop := t.eph = { s.eph with skipped := t.eph.skipped }

theorem skipsOnly.trans {s t u : State} (h : skipsOnly s t) (k : skipsOnly t u) : skipsOnly s u := by
  unfold skipsOnly at *
  rw [k, h]

theorem foldl_skipsOnly {α : Type} {f : State → α → State} (h : ∀ s a, skipsOnly s (f s a)) (l : List α) (s : State) : skipsOnly s (l.foldl f s) := by
  induction l generalizing s with
  | nil => rfl
  | cons a l ih => exact (h s a).trans (ih _)

/-- Entries that the slip moves past the end of the cycle are skipped; nothing else of the ephemeris state follows a slip (R124). -/
theorem setSlip_skips (s : State) (us : List (Nat × Nat)) (slip after : Nat) : skipsOnly (slipSet s us slip) (setSlip s us slip after) := by
  unfold setSlip
  refine foldl_skipsOnly (fun t x => ?_) _ _
  split
  · simp [skipsOnly]
  · rfl

theorem setSlip_slip (s : State) (us : List (Nat × Nat)) (slip after : Nat) :
    (setSlip s us slip after).eph.slip = us.map (fun u => (u.1, u.2, slip)) ++ s.eph.slip := by rw [setSlip_skips]; rfl
theorem setSlip_slots (s : State) (us : List (Nat × Nat)) (slip after : Nat) : (setSlip s us slip after).eph.slots = s.eph.slots := by
  rw [setSlip_skips]; rfl
theorem image_setSlip (s : State) (us : List (Nat × Nat)) (slip after : Nat) : image (setSlip s us slip after) = image s := by
  apply image_congr <;> · rw [setSlip_skips]; rfl

theorem delaySlip_slots (l : List (Nat × Nat × Entry)) (us : List (Nat × Nat)) (s : State) : (delaySlip s us l).eph.slots = s.eph.slots := by
  induction l generalizing us s with
  | nil => rfl
  | cons x r ih =>
    unfold delaySlip
    dsimp only
    rw [ih]
    split
    · rfl
    · exact setSlip_slots ..

theorem execAbortEnd_ends {sec ent : Nat} {r : RunSlot} {s : State} (h8 : findSlot s (sec + 8) ent = none) (hr : findSlot s sec ent = some r)
    (ha : r.aborting = true) (hb : slotBusy s sec ent = false) :
    ∃ us l, execAbortEnd sec ent s = .next (delaySlip (dropSlot s sec ent) us l) := by
  simp [execAbortEnd, h8, hr, ha, hb]

theorem execAbortEnd_busy {sec ent : Nat} {r : RunSlot} {s : State} (h8 : findSlot s (sec + 8) ent = none) (hr : findSlot s sec ent = some r)
    (hb : slotBusy s sec ent = true) : execAbortEnd sec ent s = .next s := by
  simp [execAbortEnd, h8, hr, hb]

/-- A star that one of some ranges covers. -/
def onStars (us : List (Nat × Nat)) (x : Nat) : Prop := ∃ u ∈ us, u.1 ≤ x ∧ x < u.2

theorem cutOut_eq (us : List (Nat × Nat)) (v : Nat × Nat) :
    cutOut us v = (us.map fun u => [(u.1, min u.2 v.1), (max u.1 v.2, u.2)]).flatten.filter fun u => u.1 < u.2 := rfl

theorem onStars_cutOut {us : List (Nat × Nat)} {v : Nat × Nat} {x : Nat} : onStars (cutOut us v) x ↔ onStars us x ∧ ¬(v.1 ≤ x ∧ x < v.2) := by
  simp only [onStars, cutOut_eq, List.mem_filter, List.mem_flatten, List.mem_map, decide_eq_true_eq]
  constructor
  · rintro ⟨w, ⟨⟨-, ⟨u, hu, rfl⟩, hw⟩, -⟩, hx⟩
    rcases List.mem_pair.mp hw with rfl | rfl
    · exact ⟨⟨u, hu, by simp only at hx; omega⟩, by simp only at hx; omega⟩
    · exact ⟨⟨u, hu, by simp only at hx; omega⟩, by simp only at hx; omega⟩
  · rintro ⟨⟨u, hu, hx⟩, hv⟩
    by_cases h : x < v.1
    · exact ⟨(u.1, min u.2 v.1), ⟨⟨_, ⟨u, hu, rfl⟩, by simp⟩, by simp only; omega⟩, by simp only; omega⟩
    · exact ⟨(max u.1 v.2, u.2), ⟨⟨_, ⟨u, hu, rfl⟩, by simp⟩, by simp only; omega⟩, by simp only; omega⟩

/-- Only ranges that hold a star are left. -/
theorem lt_of_mem_cutOut {us : List (Nat × Nat)} {v w : Nat × Nat} (h : w ∈ cutOut us v) : w.1 < w.2 := by
  simpa using (List.mem_filter.mp h).2

theorem cutOut_of_disjoint {us : List (Nat × Nat)} {v : Nat × Nat} (hv : v.1 < v.2) (h : ∀ u ∈ us, u.1 < u.2 ∧ (u.2 ≤ v.1 ∨ v.2 ≤ u.1)) :
    cutOut us v = us := by
  induction us with
  | nil => rfl
  | cons u us ih =>
    have hr := ih fun w hw => h w (List.mem_cons_of_mem _ hw)
    rw [cutOut_eq] at hr ⊢
    rw [List.map_cons, List.flatten_cons, List.filter_append, hr]
    obtain ⟨a, b⟩ := u
    obtain ⟨hu, hd⟩ := h (a, b) (List.mem_cons_self ..)
    simp only at hu hd
    rcases hd with hd | hd
    · have h1 : min b v.1 = b := Nat.min_eq_left hd
      have h2 : ¬ max a v.2 < b := by omega
      simp only [h1, List.filter_cons, hu, h2]
      rfl
    · have h1 : ¬ a < min b v.1 := by omega
      have h2 : max a v.2 = a := Nat.max_eq_left hd
      simp only [h2, List.filter_cons, hu, h1]
      rfl

theorem slipOver_nil (l : List (Nat × Nat × Nat)) : slipOver l [] = 0 := by
  induction l with
  | nil => rfl
  | cons e l ih =>
    obtain ⟨a, b, v⟩ := e
    simpa [slipOver, meets, cutOut] using ih

/-- A barrier's marks on its stars, before the marks of the barriers that completed earlier. -/
def marked (l : List (Nat × Nat)) (d : Nat) (rest : List (Nat × Nat × Nat)) : List (Nat × Nat × Nat) := l.map (fun u => (u.1, u.2, d)) ++ rest

/-- Stars that a barrier names all take no other slip than its own. -/
theorem slipOver_marked_le {l us : List (Nat × Nat)} {d : Nat} {rest : List (Nat × Nat × Nat)} (hn : ∀ u ∈ us, u.1 < u.2)
    (h : ∀ x, onStars us x → onStars l x) : slipOver (marked l d rest) us ≤ d := by
  induction l generalizing us with
  | nil =>
    have he : us = [] := List.eq_nil_iff_forall_not_mem.mpr fun u hu => by
      obtain ⟨v, hv, -⟩ := h u.1 ⟨u, hu, Nat.le_refl _, hn u hu⟩
      cases hv
    rw [he, slipOver_nil]
    exact Nat.zero_le _
  | cons v l ih =>
    have hc : ∀ x, onStars (cutOut us v) x → onStars l x := fun x hx => by
      obtain ⟨hu, hv⟩ := onStars_cutOut.mp hx
      obtain ⟨w, hw, hwx⟩ := h x hu
      rcases List.mem_cons.mp hw with rfl | hw
      · exact absurd hwx hv
      · exact ⟨w, hw, hwx⟩
    refine Nat.max_le.mpr ⟨?_, ih (fun u hu => lt_of_mem_cutOut hu) hc⟩
    split
    · exact Nat.le_refl _
    · exact Nat.zero_le _

/-- A star that a barrier names takes its slip. -/
theorem le_slipOver_marked {l us : List (Nat × Nat)} {d x : Nat} {rest : List (Nat × Nat × Nat)} (hu : onStars us x) (hl : onStars l x) :
    d ≤ slipOver (marked l d rest) us := by
  induction l generalizing us with
  | nil =>
    obtain ⟨v, hv, -⟩ := hl
    cases hv
  | cons v l ih =>
    by_cases hx : v.1 ≤ x ∧ x < v.2
    · obtain ⟨u, hu, hux⟩ := hu
      have hm : meets [(v.1, v.2)] us = true := by
        simp only [meets, List.any_cons, List.any_nil, Bool.or_false]
        exact List.any_eq_true.mpr ⟨u, hu, by simp only [Bool.and_eq_true, decide_eq_true_eq]; omega⟩
      exact Nat.le_trans (Nat.le_of_eq (if_pos hm).symm) (Nat.le_max_left ..)
    · obtain ⟨w, hw, hwx⟩ := hl
      rcases List.mem_cons.mp hw with rfl | hw
      · exact absurd hwx hx
      · exact Nat.le_trans (ih (onStars_cutOut.mpr ⟨hu, hx⟩) ⟨w, hw, hwx⟩) (Nat.le_max_right ..)

/-- Stars that a barrier does not name keep their slip. -/
theorem slipOver_marked_of_disjoint {l us : List (Nat × Nat)} {d : Nat} {rest : List (Nat × Nat × Nat)}
    (h : ∀ u ∈ us, u.1 < u.2 ∧ ∀ v ∈ l, v.1 < v.2 ∧ (u.2 ≤ v.1 ∨ v.2 ≤ u.1)) : slipOver (marked l d rest) us = slipOver rest us := by
  induction l with
  | nil => rfl
  | cons v l ih =>
    have hd : ∀ u ∈ us, u.1 < u.2 ∧ (u.2 ≤ v.1 ∨ v.2 ≤ u.1) := fun u hu => ⟨(h u hu).1, ((h u hu).2 v (List.mem_cons_self ..)).2⟩
    have hm : meets [(v.1, v.2)] us = false := by
      simp only [meets, List.any_cons, List.any_nil, Bool.or_false]
      exact List.any_eq_false.mpr fun u hu => by
        have := hd u hu
        simp only [Bool.and_eq_true, decide_eq_true_eq]
        omega
    have hc : cutOut us v = us := by
      cases us with
      | nil => rfl
      | cons u us => exact cutOut_of_disjoint ((h u (List.mem_cons_self ..)).2 v (List.mem_cons_self ..)).1 hd
    change Nat.max (if meets [(v.1, v.2)] us then d else 0) (slipOver (marked l d rest) (cutOut us v)) = _
    rw [hm, hc, ih fun u hu => ⟨(h u hu).1, fun w hw => (h u hu).2 w (List.mem_cons_of_mem _ hw)⟩]
    exact Nat.zero_max _

theorem execBarrierComplete_eph {sec ent : Nat} {e : Entry} {s : State} (he : entryNow s sec ent = some e) (hc : e.cls = 6) :
    ∃ t, execBarrierComplete sec ent s = .next t ∧
      t.eph = { (setSlip s (entryStars s sec ent e) (tickNow s - e.start) e.start).eph with worst := t.eph.worst } := by
  unfold execBarrierComplete
  refine ⟨_, rfl, ?_⟩
  simp only [he, hc]
  by_cases h0 : tickNow s - e.start = 0
  · simp [h0]
  · simp [h0]

/-! ### The end of an entry (R94, R101, R1005) -/

/-- An entry holds no window, cells, bridge or DMA any more. -/
def entryReleased (s : State) (sec ent : Nat) : State :=
  s.modEph fun e => { e with
    held := e.held.filter fun x => !(x.1 == sec && x.2.1 == ent), xfer := e.xfer.filter fun x => !(x.1 == sec && x.2.1 == ent)
    bridge := e.bridge.filter (fun x => !(x.1 == sec && x.2.1 == ent)), pcie := e.pcie.filter fun x => !(x.1 == sec && x.2.1 == ent) }

/-- The slots after an entry has ended: of a compute entry, only one that aborts or borrows is left (R119, R1005). -/
theorem endEntry_eph (sec ent : Nat) (s : State) :
    ∃ l, (endEntry sec ent s).eph = { (entryReleased s sec ent).eph with slots := l } ∧
      ∀ e, entryNow s sec ent = some e → isCompute e.cls = true →
        (∀ r, findSlot s sec ent = some r → r.aborting = false ∧ r.borrow = none) → l.find? (fun r => r.sec == sec && r.ent == ent) = none := by
  unfold endEntry
  extract_lets s0 keep s1 src
  cases he : entryNow s0 sec ent with
  | none => exact ⟨_, rfl, fun e h => absurd (h.symm.trans he) (by simp)⟩
  | some e =>
    dsimp only
    split
    · refine ⟨_, rfl, fun e' h hc => ?_⟩
      cases Option.some.inj (h.symm.trans he)
      simp_all
    · refine ⟨s1.eph.slots, ?_, fun e' _ _ hr => ?_⟩
      · rw [foldl_keep State.eph _ fun s l => noteAfter_eph s l e.after, clearLeads_eph]
        unfold s1
        split <;> rfl
      · have hk : keep = false := by
          unfold keep
          cases h : findSlot s0 sec ent with
          | none => rfl
          | some r =>
            obtain ⟨ha, hb⟩ := hr r h
            simp [ha, hb]
        simp only [s1, hk]
        exact findSlot_filtered s0 sec ent

theorem endEntry_gone (sec ent : Nat) (s : State) : entryGone s sec ent (endEntry sec ent s) := by
  obtain ⟨l, h, hl⟩ := endEntry_eph sec ent s
  unfold entryGone findSlot
  rw [h]
  refine ⟨?_, ?_, ?_, ?_, rfl, hl⟩ <;> · intro x hx; simpa [imp_iff_not_or] using (List.mem_filter.mp hx).2

theorem execEntryEnd_free {sec ent : Nat} {s : State} (h : s.eph.held.any (fun x => x.1 == sec && x.2.1 == ent) = false) :
    execEntryEnd sec ent s = .next (endEntry sec ent s) := by
  simp only [execEntryEnd, h]
  rfl

theorem execEntryEnd_held {sec ent : Nat} {s : State} (h : s.eph.held.any (fun x => x.1 == sec && x.2.1 == ent) = true) :
    execEntryEnd sec ent s = .next (resumeAccesses (endEntry sec ent s)) := by
  simp only [execEntryEnd, h, if_true]

end Sys2Proof.Machine

open Sys2Proof Sys2Proof.Machine

/-- Settles O19: of the ephemeris state each entry changes its own slots, slips, bridges or gates, which the lemmas above say one by one. -/
theorem entries : Obligations.Entries := by
  unfold Obligations.Entries
  refine ⟨?_, ?_, ?_, ?_, ?_, ?_, ?_, ?_, ?_, ?_, ?_, ?_, ?_, ?_, ?_, ?_, ?_, ?_, ?_⟩
  · intro sec ent fails e im s he hi hc hf ht h7 h8 hs ha
    by_cases hl : ((getPtn s e.ptn).state == .active && !runsEmpty s e.ptn) = true
    · have hx := execComputeSlotStart_opens (fails := fails) he hi hc hf ht hs ha h8 fun h => absurd h h7
      rw [if_neg (by simp [h7, hl])] at hx
      obtain ⟨a, b, full, h, hA, hB⟩ := eph_fillSlot_opened e hf
      exact .of_only hx (execComputeSlotStart_only (.refl ..) (List.Subset.refl _)) ⟨a, b, full, h, hA, hB⟩
    · have hx := execComputeSlotStart_opens (fails := fails) he hi hc hf ht hs ha h8 fun h => absurd h h7
      rw [if_pos (by simp [hl])] at hx
      exact .of_only hx (execComputeSlotStart_only (.refl ..) (List.Subset.refl _))
        ⟨0, 0, false, slotOpened_eph .., withinCaps_zero e⟩
  · intro sec ent fails e im s he hi hc hf ht h hs ha
    have h8 : e.cls ≠ 8 := by rcases h with ⟨h, -⟩ | ⟨-, h, -⟩ <;> omega
    have hx := execComputeSlotStart_opens (fails := fails) he hi hc hf ht hs ha h8 fun h7 => by
      rcases h with ⟨-, h⟩ | ⟨h, -⟩
      · exact h
      · exact absurd h7 h
    rw [if_pos (by rcases h with ⟨h, -⟩ | ⟨-, -, h | h⟩ <;> simp [h])] at hx
    exact .of_within hx ⟨slotOpened_eph .., fun k => ⟨clearLeads_keeps (g := Con.pwr) (fun _ _ => rfl) .., clearLeads_keeps (g := Con.waking) (fun _ _ => rfl) ..⟩⟩
      (slotOpened_only (.refl ..) (List.Subset.refl _))
  · intro sec ent fails e im s he hi h
    exact .of_same (execComputeSlotStart_shut he hi h) rfl
  · intro sec ent e r x i f s he hr hb ha hn hp hl hc hq hu hm ht
    exact .of_within (execSlotOverrun_borrows he hr hb ha hn hp hl hc hq hu hm ht)
      ((findSlot_modSlot (f := fun r => { r with borrow := some i }) s sec ent fun _ => ⟨rfl, rfl⟩).trans (congrArg (Option.map _) hr)) (modSlot_only (.refl ..) (List.Subset.refl _))
  · intro sec ent e r s he hr hb ha hn hp
    refine .of_only (execSlotOverrun_stops he hr hb ha hn hp) (execSlotOverrun_only (.refl ..) (List.Subset.refl _)) ?_
    rw [findSlot_abortSlot, findSlot_of_eph (overrunEvent_eph ..), hr]
    rfl
  · intro sec ent s hb
    exact .of_same (execSlotOverrun_idle hb) rfl
  · intro sec ent e r s he hr hb ha
    exact .of_only (execBorrowEnd_of he hr true hb ha) (execBorrowEnd_only (.refl ..) (List.Subset.refl _)) (findSlot_dropSlot ..)
  · intro sec ent e r s he hr hb ha
    refine .of_only (execBorrowEnd_of he hr false hb ha) (execBorrowEnd_only (.refl ..) (List.Subset.refl _)) ?_
    rw [if_neg (by simp), findSlot_abortSlot, findSlot_of_eph ((overrunEvent_eph ..).trans (borrowCounted_eph ..)), hr]
    rfl
  · intro sec ent r s hr h f
    exact .of_same (execBorrowEnd_ignored f hr h) rfl
  · intro sec ent r s h8 hr ha hb
    obtain ⟨us, l, h⟩ := execAbortEnd_ends h8 hr ha hb
    refine .of_only h (execAbortEnd_only (.refl ..) (List.Subset.refl _)) ?_
    rw [findSlot_of_slots (delaySlip_slots ..)]
    exact findSlot_dropSlot ..
  · intro sec ent r s h8 hr hb
    exact .of_same (execAbortEnd_busy h8 hr hb) rfl
  · intro sec ent s h
    exact .of_within (execEntryEnd_free h) (endEntry_gone ..) (endEntry_only (.refl ..) (List.Subset.refl _))
  · intro sec ent s h
    exact ⟨_, endEntry_gone sec ent s, (endEntry_only (.refl ..) (List.Subset.refl _)).only, execEntryEnd_held h⟩
  · intro sec ent e s he hc
    obtain ⟨t, ht, hw⟩ := execBarrierComplete_eph he hc
    have hs : t.eph.slip = marked (entryStars s sec ent e) (tickNow s - e.start) s.eph.slip := by
      rw [hw]
      exact setSlip_slip ..
    refine .of_only ht (execBarrierComplete_only (.refl ..) (List.Subset.refl _)) ⟨hs, fun u hu hlt => ?_, fun us hus => ?_, ?_, ?_⟩
    · rw [hs]
      refine Nat.le_antisymm (slipOver_marked_le (fun v hv => ?_) fun x ⟨v, hv, hx⟩ => ⟨u, hu, ?_⟩)
        (le_slipOver_marked (x := u.1) ⟨u, List.mem_singleton.mpr rfl, Nat.le_refl _, hlt⟩ ⟨u, hu, Nat.le_refl _, hlt⟩)
      · rwa [List.mem_singleton.mp hv]
      · rwa [← List.mem_singleton.mp hv]
    · rw [hs]
      exact slipOver_marked_of_disjoint hus
    · rw [hw]
      exact setSlip_slots ..
    · refine Eq.trans ?_ (image_setSlip s (entryStars s sec ent e) (tickNow s - e.start) e.start)
      apply image_congr <;> rw [hw]
  · intro sec ent e s he hc
    exact .of_same (by simp [execBarrierComplete, he, hc]) rfl
  · intro sec ent e s he hc hr
    exact .of_only (t := s.modEph fun x => { x with bridge := x.bridge ++ [(sec, ent, e.action % 8, e.ptn, if e.capA = 0 then none else some e.capA, s.work.nextTile)] })
      (by simp [execBridgeEntryStart, he, hc, hr]) (execBridgeEntryStart_only (.refl ..) (List.Subset.refl _)) rfl
  · intro sec ent e s he h
    exact .of_same (by rcases h with h | h <;> simp [execBridgeEntryStart, he, h]) rfl
  · intro sec ent e s he hc
    exact .of_only (t := s.modEph fun x => { x with gates := sput x.gates (bits e.action 8 5) (bits e.action 0 8) }) (by simp [execGateEntry, he, hc])
      (execGateEntry_only (.refl ..) (List.Subset.refl _))
      ⟨congrArg (Option.map Prod.snd) (find?_sput_same ..), fun n hn => find?_sput_other _ _ hn, rfl⟩
  · intro sec ent s he
    exact ⟨.of_same (by simp [execBridgeEntryStart, he]) rfl, .of_same (by simp [execGateEntry, he]) rfl,
      .of_same (by simp [execBarrierComplete, he]) rfl, fun fails => .of_same (by simp [execComputeSlotStart, he]) rfl⟩
end

section
/-! PROOFS. Obligation O41: timers, pauses, recalibration and transfer windows of ports, and egress (R94, R103, R548, R549, R555, R560, R636). -/

namespace Sys2Proof.Machine
open Sys2Proof

/-! ### Ports -/

theorem links_length_of_shaped {s : State} (h : s.shaped = true) : s.fab.links.length = 17 := (shaped_iff.mp h).2.2.2.2.1

theorem linkOf_of_fab {s t : State} (h : t.fab = s.fab) (n : Nat) : linkOf t n = linkOf s n := by simp only [linkOf, h]

theorem linkOf_modLink_same {s : State} {n : Nat} {f : Link → Link} (h : n < s.fab.links.length) : linkOf (modLink s n f) n = f (linkOf s n) :=
  getD_modAt_same h

theorem linkOf_modLink_other {s : State} {n k : Nat} {f : Link → Link} (h : k ≠ n) : linkOf (modLink s n f) k = linkOf s k :=
  getD_modAt_other h

theorem linkOf_modLink_keeps {β : Type} {g : Link → β} {f : Link → Link} (h : ∀ l, g (f l) = g l) (s : State) (n k : Nat) :
    g (linkOf (modLink s n f) k) = g (linkOf s k) :=
  getD_modAt_keeps h ..

@[simp] theorem length_modLink (s : State) (n : Nat) (f : Link → Link) : (modLink s n f).fab.links.length = s.fab.links.length := length_modAt

/-! ### Unsequenced cells (R542, R548) -/

theorem sendControl_out (s : State) (n kind : Nat) (p : List Byte) :
    (sendControl s n kind p).out = s.out ++ [.control n kind (linkOf s n).ctl p] := rfl

/-- An unsequenced cell changes of its port the control count alone. -/
theorem linkOf_sendControl_keeps {β : Type} {g : Link → β} (h : ∀ (l : Link) c w, g { l with ctl := c, ctlWrap := w } = g l) (s : State)
    (n kind k : Nat) (p : List Byte) : g (linkOf (sendControl s n kind p) k) = g (linkOf s k) :=
  linkOf_modLink_keeps (fun l => h l _ _) s n k

theorem linkOf_sendControl_other (s : State) {n k : Nat} (kind : Nat) (p : List Byte) (h : k ≠ n) :
    linkOf (sendControl s n kind p) k = linkOf s k := linkOf_modLink_other h

theorem sendAck_out (s : State) (n : Nat) :
    (sendAck s n).out = s.out ++ [.control n 2 (linkOf s n).ctl (ackPayload (linkOf s n))] := by
  rw [sendAck, sendControl_out]
  refine congrArg (fun c => s.out ++ [Out.control n 2 c _]) ?_
  exact linkOf_modLink_keeps (g := Link.ctl) (by exact fun _ => rfl) s n n

theorem sendNak_out (s : State) (n : Nat) :
    (sendNak s n).out = s.out ++ [.control n 3 (linkOf s n).ctl (ackPayload (linkOf s n))] := by
  rw [sendNak, sendControl_out]
  have ho : (modLink (linkCount s n 4) n fun l => { l with nakAt := some (now s) }).out = s.out :=
    (State.modFab_out ..).trans (linkCount_out ..)
  have hc : (linkOf (modLink (linkCount s n 4) n fun l => { l with nakAt := some (now s) }) n).ctl = (linkOf s n).ctl :=
    (linkOf_modLink_keeps (g := Link.ctl) (by exact fun _ => rfl) _ n n).trans (congrArg Link.ctl (linkOf_of_fab (linkCount_fab ..) n))
  rw [ho, hc]

/-! ### Counters of ports (R565, R907) -/

theorem sameTick_store (s : State) : (sameTick s).regs.store = s.regs.store := by
  unfold sameTick
  split <;> rfl

theorem noteRc_store (s : State) (off : Nat) (f : Nat → Nat) : (noteRc s off f).regs.store = s.regs.store := by
  unfold noteRc
  split
  · rfl
  · exact sameTick_store s

theorem bumpReg_unchanged (s : State) (off n : Nat) : RegsUnchanged [off] s (bumpReg s off n) := fun o ho =>
  (getReg_setReg_other _ _ (by simpa using ho)).trans (getReg_of_store (noteRc_store ..) o)

theorem linkCount_unchanged (s : State) (n i : Nat) : RegsUnchanged [portBase n + 0x100 + 4 * i] s (linkCount s n i) :=
  bumpReg_unchanged s _ 1

/-- A NAK counts among the port's NAKs, and in no other register (R565). -/
theorem sendNak_unchanged (s : State) (n : Nat) : RegsUnchanged [portBase n + 0x110] s (sendNak s n) := fun o ho =>
  have hs : (sendNak s n).regs = (linkCount s n 4).regs := by simp only [sendNak, sendControl, modLink, emit_regs, State.modFab_regs]
  (getReg_of_store (congrArg Regs.store hs) o).trans (linkCount_unchanged s n 4 o ho)

/-! ### Recalibration (R103, R555) -/

/-- A port has stopped, and one goes on, in the list of ports that recalibrate. -/
def recalBegun (s : State) (n : Nat) : State := s.modEph fun x => { x with recal := x.recal ++ [n] }
def recalEnded (s : State) (n : Nat) : State := s.modEph fun x => { x with recal := x.recal.filter (· != n) }

theorem execRecalSerdesWindow_of {sec ent : Nat} {e : Entry} {s : State} (he : entryNow s sec ent = some e) (hc : e.cls = 0x12) :
    execRecalSerdesWindow sec ent s = .next (if s.eph.recal.contains (bits e.action 0 5) then s else recalBegun s (bits e.action 0 5)) := by
  unfold execRecalSerdesWindow
  simp only [he, hc]
  cases s.eph.recal.contains (bits e.action 0 5) <;> rfl

theorem execRecalSerdesWindowEnd_of {sec ent : Nat} {e : Entry} {s : State} (he : entryNow s sec ent = some e) (hc : e.cls = 0x12) :
    execRecalSerdesWindowEnd sec ent s = .next (sendTimes (recalEnded s (bits e.action 0 5)) (bits e.action 0 5)) := by
  unfold execRecalSerdesWindowEnd recalEnded
  simp [he, hc]

@[simp] theorem sendTimes_eph (s : State) (n : Nat) : (sendTimes s n).eph = s.eph :=
  (sendTimes_only (.refl _ s) (List.Subset.refl _)).only.keeps .eph (by decide)

/-- After the end of a recalibration no time message waits: what waited has gone. -/
theorem sendTimes_timeWait (s : State) (n : Nat) : (linkOf (sendTimes s n) n).timeWait = [] := by
  unfold sendTimes
  rw [foldl_keep (fun t => (linkOf t n).timeWait)]
  · by_cases h : n < s.fab.links.length
    · rw [linkOf_modLink_same h]
    · simp [linkOf, h]
  · intro t w
    have hs (kind : Nat) (p : List Byte) (t : State) : (linkOf (sendControl t n kind p) n).timeWait = (linkOf t n).timeWait :=
      linkOf_sendControl_keeps (g := Link.timeWait) (fun _ _ _ => rfl) ..
    split
    · rw [hs, hs]
    · rw [linkOf_of_fab (ringWrite_fab ..), hs]

theorem sendTimes_of_none {s : State} {n : Nat} (h : (linkOf s n).timeWait = []) : sendTimes s n = modLink s n fun l => { l with timeWait := [] } := by
  simp [sendTimes, h]

/-! ### Transfer entries (R94, R127, R132, R784) -/

theorem mirroredTiles_self (s : State) (p : Nat) : mirroredTiles s s p = 0 := by
  simp [mirroredTiles, sumN]

/-- The pair link mirrors: it is a pair's, and whole (R559, R784). -/
def mirrors (s : State) (port : Nat) : Bool := port == 16 && !s.fab.unpaired && !s.fab.degraded

/-- The state after the mirroring of a transfer entry, and the bytes of cells that it may still carry. -/
def transferMirrored (s : State) (e : Entry) : State :=
  if mirrors s (bits e.action 0 5) then mirrorNow s e.ptn (if e.capB = 0 then none else some e.capB) else s
def transferLeft (s : State) (e : Entry) : Nat :=
  if e.capB = 0 then queuedBytes s (bits e.action 0 5) e.ptn
  else Nat.min (queuedBytes s (bits e.action 0 5) e.ptn) ((e.capB - mirroredTiles s (transferMirrored s e) e.ptn) * 4096)
def transferOpened (s : State) (sec ent : Nat) (e : Entry) : State :=
  (transferMirrored s e).modEph fun x => { x with xfer := x.xfer ++ [(sec, ent, bits e.action 0 5, e.ptn, transferLeft s e)] }

theorem execTransferEntryStart_of {sec ent : Nat} {e : Entry} {s : State} (he : entryNow s sec ent = some e) (hc : e.cls = 0x19)
    (hr : runsEmpty s e.ptn = false) : execTransferEntryStart sec ent s = .next (transferOpened s sec ent e) := by
  have hr' : (s.eph.empty.any fun x => x.1 == e.ptn) = false := hr
  unfold execTransferEntryStart transferOpened transferLeft transferMirrored mirrors
  simp only [he, hc, hr']
  by_cases hb : e.capB = 0 <;> simp [hb]

theorem transferMirrored_eph (s : State) (e : Entry) : (transferMirrored s e).eph = s.eph := by
  unfold transferMirrored
  split
  · exact (mirrorNow_only (.refl _ s) (List.Subset.refl _)).only.keeps .eph (by decide)
  · rfl

theorem transferLeft_le (s : State) (e : Entry) : transferLeft s e ≤ queuedBytes s (bits e.action 0 5) e.ptn := by
  unfold transferLeft
  split
  · exact Nat.le_refl _
  · exact Nat.min_le_left ..

theorem transferLeft_le_cap (s : State) (e : Entry) (h : e.capB ≠ 0) : transferLeft s e ≤ e.capB * 4096 := by
  unfold transferLeft
  rw [if_neg h]
  exact Nat.le_trans (Nat.min_le_right ..) (Nat.mul_le_mul_right _ (Nat.sub_le ..))

/-- Where nothing is mirrored, the entry has all its capacity for cells. -/
theorem transferMirrored_of {s : State} {e : Entry} (h : bits e.action 0 5 ≠ 16 ∨ s.fab.unpaired = true ∨ s.fab.degraded = true) :
    transferMirrored s e = s := by
  unfold transferMirrored mirrors
  rcases h with h | h | h <;> simp [h]

/-! ### Egress (R542, R555, R638-R641) -/

@[simp] theorem countHeld_out (s : State) (n : Nat) : (countHeld s n).out = s.out :=
  (countHeld_only (.refl _ s) (List.Subset.refl _)).only.keeps .out (by decide)

theorem countHeld_length (s : State) (n : Nat) : s.shaped = true → (countHeld s n).fab.links.length = 17 := fun h =>
  links_length_of_shaped ((countHeld_only (.refl _ s) (List.Subset.refl _)).shape h)

/-- Counting the frames that a closing holds marks their queues, and no more of the port. -/
theorem linkOf_countHeld_keeps {β : Type} {g : Link → β} (h : ∀ (l : Link) q, g { l with guarded := q } = g l) (s : State) (n k : Nat) :
    g (linkOf (countHeld s n) k) = g (linkOf s k) := by
  unfold countHeld
  refine foldl_keep (fun t => g (linkOf t k)) _ (fun t q => ?_) _ s
  split
  · extract_lets c late
    split
    · exact (linkOf_modLink_keeps (by exact fun l => h l _) _ n k).trans (congrArg g (linkOf_of_fab (qsCount_fab ..) k))
    · rfl
  · rfl

/-- The service changes of a port its deficits, its turn and its virtual time. -/
theorem nextQueue_replay {s : State} {n q : Nat} {l : Link} (h : nextQueue s n = some (q, l)) : l.replay = (linkOf s n).replay := by
  unfold nextQueue at h
  dsimp only at h
  split at h
  · cases h
  · split at h
    · obtain ⟨x, -, hx⟩ := Option.map_eq_some_iff.mp h
      cases hx
      rfl
    · cases h
      rfl

theorem foldl_debit_replay (s : State) (w : Nat) (xs : List (Nat × Nat × Nat)) (l : Link) :
    (xs.foldl (fun l x => debit s l x.1 x.2.1 x.2.2 w) l).replay = l.replay := by
  induction xs generalizing l with
  | nil => rfl
  | cons x xs ih =>
    rw [List.foldl_cons, ih]
    unfold debit
    split <;> rfl

/-- A send takes its item out of the port's queues; nothing leaves the block yet, and nothing of the replay buffer changes. -/
theorem popQueue_keeps {s s1 : State} {n q : Nat} {l : Link} {it : QItem} (h : popQueue s n q l = some (it, s1)) (hn : n < s.fab.links.length) :
    s1.out = s.out ∧ s1.fab.links.length = s.fab.links.length ∧ (linkOf s1 n).replay = l.replay := by
  unfold popQueue at h
  split at h
  · cases h
  · rename_i x rest _
    extract_lets deep l1 l2 l3 s2 at h
    split at h
    rename_i m _
    obtain ⟨-, rfl⟩ := Prod.mk.inj (Option.some.inj h)
    have h3 : l3.replay = l.replay := by
      unfold l3
      split
      · exact foldl_debit_replay ..
      · exact foldl_debit_replay ..
    have h2 : (linkOf s2 n).replay = l.replay := (congrArg Link.replay (linkOf_modLink_same hn)).trans h3
    split
    · exact ⟨qsCount_out .., by rw [qsCount_fab]; exact length_modLink .., by rw [linkOf_of_fab (qsCount_fab ..), h2]⟩
    · exact ⟨rfl, length_modLink .., h2⟩

/-- A cell goes out as a sequenced cell that is held for replay; its credit is used (R542, R548, R550). -/
def cellLeft (s1 : State) (n : Nat) (c : Cell) : State :=
  modLink (emit (takeSeq s1 n (some c) []) (.cell n (linkOf s1 n).txSeq c.header c.payload c.stomp)) n
    fun l => { l with credits := modAt l.credits c.cls fun x => x - 1 }
/-- It is counted, and accounted to the transfer entry and the partition that it serves (R624, R907, R919). -/
def cellSent (s s1 : State) (n q : Nat) (c : Cell) : State :=
  let s4 := telPort (cellLeft s1 n c) n (c.cls % 8) 256
  let s5 := if q / 8 != 32 then useXfer s4 n (q / 8) 224 else s4
  if c.src == myDev s && q / 8 != 32 then accountWire s5 c.ptn 256 0 else s5

@[simp] theorem accountWire_out (s : State) (p w d : Nat) : (accountWire s p w d).out = s.out := by simp [accountWire]
@[simp] theorem accountWire_fab (s : State) (p w d : Nat) : (accountWire s p w d).fab = s.fab := by simp [accountWire]

theorem cellSent_out (s s1 : State) (n q : Nat) (c : Cell) :
    (cellSent s s1 n q c).out = s1.out ++ [.cell n (linkOf s1 n).txSeq c.header c.payload c.stomp] := by
  have h : (telPort (cellLeft s1 n c) n (c.cls % 8) 256).out = s1.out ++ [.cell n (linkOf s1 n).txSeq c.header c.payload c.stomp] := telPort_out ..
  unfold cellSent
  extract_lets s4 s5
  have h5 : s5.out = s4.out := by unfold s5; split <;> rfl
  split
  · rw [accountWire_out, h5, h]
  · rw [h5, h]

theorem cellSent_fab (s s1 : State) (n q : Nat) (c : Cell) : (cellSent s s1 n q c).fab = (cellLeft s1 n c).fab := by
  have h : (telPort (cellLeft s1 n c) n (c.cls % 8) 256).fab = (cellLeft s1 n c).fab := telPort_fab ..
  unfold cellSent
  extract_lets s4 s5
  have h5 : s5.fab = s4.fab := by unfold s5; split <;> rfl
  split
  · rw [accountWire_fab, h5, h]
  · rw [h5, h]

theorem cellLeft_replay {s1 : State} {n : Nat} {c : Cell} (h : n < s1.fab.links.length) :
    ((linkOf (cellLeft s1 n c) n).replay.getLast?).map (·.cell) = some (some c) := by
  unfold cellLeft
  rw [linkOf_modLink_same (by simpa [takeSeq] using h)]
  change ((linkOf (takeSeq s1 n (some c) []) n).replay.getLast?).map (·.cell) = _
  rw [takeSeq, linkOf_modLink_same h]
  simp

section
variable {n : Nat} {s : State} (hn : n < 17) (hu : portIsUp s n = true) (ho : oddHalf s n = false) (hr : s.eph.recal.contains n = false)
include hn hu ho hr

theorem execEgressSend_idle (hc : isCellLink s n = true) (hq : nextQueue (countHeld s n) n = none) :
    execEgressSend n s = .next (sendControl (countHeld s n) n 0 (List.replicate 224 0)) := by
  unfold execEgressSend
  simp only [hu, ho, hr, hq, hc, show ¬ 16 < n by omega]
  rfl

/-- The head that the service chooses is what the port sends. -/
theorem execEgressSend_cell {q : Nat} {l : Link} {c : Cell} {s1 : State} (hq : nextQueue (countHeld s n) n = some (q, l))
    (hp : popQueue (countHeld s n) n q l = some (.cell c, s1)) : execEgressSend n s = .next (cellSent s s1 n q c) := by
  unfold execEgressSend
  simp only [hu, ho, hr, hq, hp, show ¬ 16 < n by omega, Option.bind_some, Option.map_some]
  rfl

theorem execEgressSend_frame {q : Nat} {l : Link} {f : EthFrame} {p : Nat} {s1 : State} (hq : nextQueue (countHeld s n) n = some (q, l))
    (hp : popQueue (countHeld s n) n q l = some (.frame f p, s1)) :
    execEgressSend n s = .next (accountWire (telPort (emit s1 (.eth n f)) n (f.prio % 8) (f.bytes + 20)) p (f.bytes + 20) 0) := by
  unfold execEgressSend
  simp only [hu, ho, hr, hq, hp, show ¬ 16 < n by omega, Option.bind_some, Option.map_some]
  rfl

end

end Sys2Proof.Machine

open Sys2Proof Sys2Proof.Machine

/-- Settles O41: of a port each command changes what its timer or window governs, and what leaves is one cell or frame. -/
theorem portTimers : Obligations.PortTimers := by
  unfold Obligations.PortTimers
  refine ⟨?_, ?_, ?_, ?_, ?_, ?_, ?_, ?_, ?_, ?_, ?_, ?_, ?_, ?_⟩
  · intro n s hn hs hst ha hr
    have hlen : n < s.fab.links.length := by rwa [links_length_of_shaped hs]
    have he : execAckTimer n s = .next (sendAck s n) := by
      rcases hst with h | h <;> simp only [execAckTimer, h, ha, hr] <;> rfl
    have hg : linkOf (modLink s n fun l => { l with sinceAck := 0, ackFrom := none }) n = { linkOf s n with sinceAck := 0, ackFrom := none } :=
      linkOf_modLink_same hlen
    refine .of_only he (execAckTimer_only (.refl ..) (List.Subset.refl _)) ⟨sendAck_out s n, ?_, ?_, fun k hk => ?_⟩
    · exact (linkOf_sendControl_keeps (g := Link.ackFrom) (by exact fun _ _ _ => rfl) ..).trans (congrArg Link.ackFrom hg)
    · exact (linkOf_sendControl_keeps (g := Link.sinceAck) (by exact fun _ _ _ => rfl) ..).trans (congrArg Link.sinceAck hg)
    · exact (linkOf_sendControl_other _ _ _ hk).trans (linkOf_modLink_other hk)
  · intro n s h
    exact .of_same (by rcases h with h | h <;> simp only [exec_ackTimer, execAckTimer, h] <;> simp) rfl
  · intro n s hn hs hst ha hr
    have hlen : n < (linkCount s n 4).fab.links.length := by rwa [linkCount_fab, links_length_of_shaped hs]
    have he : execNakRepeatTimer n s = .next (sendNak s n) := by simp only [execNakRepeatTimer, hst, ha, hr]; rfl
    refine .of_only he (execNakRepeatTimer_only (.refl ..) (List.Subset.refl _)) ⟨sendNak_out s n, ?_, sendNak_unchanged s n⟩
    exact (linkOf_sendControl_keeps (g := Link.nakAt) (by exact fun _ _ _ => rfl) ..).trans (congrArg Link.nakAt (linkOf_modLink_same hlen))
  · intro n s h
    exact .of_same (by simp [execNakRepeatTimer, h]) rfl
  · intro n pause s hs he hu
    have hn : n < 16 := by simpa using (Bool.and_eq_true_iff.mp he).1
    have hlen : n < (telPort s n 29).fab.links.length := by rw [telPort_fab, links_length_of_shaped hs]; omega
    have hx : execPfcFrame n pause s = .next (modLink (telPort s n 29) n fun l => { l with paused := pause % 256 }) := by simp [execPfcFrame, he, hu]
    exact .of_only hx (execPfcFrame_only (.refl ..) (List.Subset.refl _))
      ⟨congrArg Link.paused (linkOf_modLink_same hlen), (linkOf_modLink_keeps (g := Link.queues) (by exact fun _ => rfl) ..).trans
          (congrArg Link.queues (linkOf_of_fab (telPort_fab ..) n)),
        fun k hk => (linkOf_modLink_other hk).trans (linkOf_of_fab (telPort_fab ..) k)⟩
  · intro n pause s h
    exact .of_same (by rcases h with h | h <;> simp [execPfcFrame, h]) rfl
  · intro sec ent e s he hc
    refine ⟨.of_only (execRecalSerdesWindow_of he hc) (execRecalSerdesWindow_only (.refl ..) (List.Subset.refl _)) ?_,
      .of_only (execRecalSerdesWindowEnd_of he hc) (execRecalSerdesWindowEnd_only (.refl ..) (by decide)) ⟨?_, ?_, sendTimes_timeWait .., fun h => ?_⟩⟩
    · split
      · exact ⟨‹_›, rfl⟩
      · simp [recalBegun]
    · simp [recalEnded]
    · simp [recalEnded]
    · rw [sendTimes_of_none (s := recalEnded s (bits e.action 0 5)) h]
      exact ⟨rfl, rfl⟩
  · intro sec ent s he
    exact ⟨.of_same (by simp [execRecalSerdesWindow, he]) rfl, .of_same (by simp [execRecalSerdesWindowEnd, he]) rfl,
      .of_same (by simp [execTransferEntryStart, he]) rfl⟩
  · intro sec ent e s he hc hr
    refine .of_only (execTransferEntryStart_of he hc hr) (execTransferEntryStart_only (.refl ..) (List.Subset.refl _))
      ⟨⟨transferLeft s e, ?_, transferLeft_le s e, transferLeft_le_cap s e, fun h => ?_⟩, fun h => ?_⟩
    · simp only [transferOpened, State.modEph_eph, transferMirrored_eph]
    · simp only [transferLeft, transferMirrored_of h, mirroredTiles_self, Nat.sub_zero]
    · simp only [transferOpened, transferMirrored_of h, State.modEph_out, State.modEph_fab, and_self]
  · intro sec ent e s he h
    rcases h with h | h
    · exact .of_same (by simp [execTransferEntryStart, he, h]) rfl
    · have h' : (s.eph.empty.any fun x => x.1 == e.ptn) = true := h
      exact .of_same (by simp only [exec_transferEntryStart, execTransferEntryStart, he, h', Bool.or_true, if_true]) rfl
  · intro n s hn hs hu ho hr hc hq
    refine .of_only (execEgressSend_idle hn hu ho hr hc hq) (execEgressSend_only (.refl ..) (List.Subset.refl _)) ?_
    rw [sendControl_out, countHeld_out, linkOf_countHeld_keeps (g := Link.ctl) (by exact fun _ _ => rfl)]
  · intro n q l c s s1 hn hs hu ho hr hq hp
    obtain ⟨hout, hlen, -⟩ := popQueue_keeps hp (by rwa [countHeld_length s n hs])
    refine .of_only (execEgressSend_cell hn hu ho hr hq hp) (execEgressSend_only (.refl ..) (List.Subset.refl _)) ⟨?_, ?_⟩
    · rw [cellSent_out, hout, countHeld_out]
    · rw [linkOf_of_fab (cellSent_fab ..)]
      exact cellLeft_replay (by rwa [hlen, countHeld_length s n hs])
  · intro n q l f p s s1 hn hs hu ho hr hq hp
    obtain ⟨hout, -, hrep⟩ := popQueue_keeps hp (by rwa [countHeld_length s n hs])
    refine .of_only (execEgressSend_frame hn hu ho hr hq hp) (execEgressSend_only (.refl ..) (List.Subset.refl _)) ⟨?_, ?_⟩
    · rw [accountWire_out, telPort_out, emit_out, hout, countHeld_out]
    · rw [linkOf_of_fab ((accountWire_fab ..).trans ((telPort_fab ..).trans (emit_fab ..))), hrep, nextQueue_replay hq,
        linkOf_countHeld_keeps (g := Link.replay) (by exact fun _ _ => rfl)]
  · intro n s h
    exact .of_same (by rcases h with h | h <;> simp only [exec_egressSend, execEgressSend, h] <;> simp) rfl
end

section
/-! PROOFS. Bytes of the tiers and little-endian values (R6, R428): what a read returns after a write, and what a write leaves. -/

namespace Sys2Proof.Machine
open Sys2Proof

/-! ### Little-endian values (R6) -/

@[simp] theorem length_leBytes (n x : Nat) : (leBytes n x).length = n := by
  induction n generalizing x with
  | zero => rfl
  | succ n ih => simp [leBytes, ih]

theorem leBytes_leNat (bs : List Byte) : leBytes bs.length (leNat bs) = bs := by
  induction bs with
  | nil => rfl
  | cons b r ih =>
    have hb : b.toNat < 256 := b.isLt
    have hq : (b.toNat + 256 * leNat r) / 256 = leNat r := by omega
    have hr : BitVec.ofNat 8 (b.toNat + 256 * leNat r) = b := BitVec.eq_of_toNat_eq (by simp [Nat.mod_eq_of_lt hb])
    simp only [List.length_cons, leNat, leBytes, hq, hr, ih]

/-- Two byte lists of one length that have one value are the same list. -/
theorem eq_of_leNat_eq {a b : List Byte} (hl : a.length = b.length) (h : leNat a = leNat b) : a = b := by
  rw [← leBytes_leNat a, ← leBytes_leNat b, hl, h]

/-- Bits beyond the bytes asked for are lost. -/
theorem leBytes_mod (n x : Nat) : leBytes n (x % 2 ^ (8 * n)) = leBytes n x := by
  induction n generalizing x with
  | zero => rfl
  | succ n ih =>
    have hp : 2 ^ (8 * (n + 1)) = 256 * 2 ^ (8 * n) := by rw [Nat.mul_succ, Nat.pow_add]; omega
    have hd : x % 2 ^ (8 * (n + 1)) / 256 = x / 256 % 2 ^ (8 * n) := by rw [hp, Nat.mod_mul_right_div_self]
    have hm : BitVec.ofNat 8 (x % 2 ^ (8 * (n + 1))) = BitVec.ofNat 8 x := BitVec.eq_of_toNat_eq (by simp [hp])
    simp only [leBytes, hd, hm, ih]

/-- A field written again gives the bytes that it was read from. -/
theorem leBytes_leAt {l : List Byte} {o n : Nat} (hb : o + n ≤ l.length) : leBytes n (leAt l o n) = bytesAt l o n := by
  have hl : (bytesAt l o n).length = n := by simp only [bytesAt, List.length_take, List.length_drop]; omega
  have h := leBytes_leNat (bytesAt l o n)
  rw [hl] at h
  exact h

/-! ### Bytes of the tiers (R428) -/

theorem sget_sramPutBytes_outside (bs : List Byte) : ∀ (m : List (Nat × Byte)) {k a : Nat}, a < k ∨ k + bs.length ≤ a →
    sget byte0 (sramPutBytes m k bs) a = sget byte0 m a := by
  induction bs with
  | nil => exact fun _ _ _ _ => rfl
  | cons b r ih =>
    intro m k a h
    simp only [List.length_cons] at h
    rw [sramPutBytes, ih _ (by omega), sget_sset_other _ _ _ (by omega)]

theorem sget_sramPutBytes_inside (bs : List Byte) : ∀ (m : List (Nat × Byte)) (k : Nat) {i : Nat} (h : i < bs.length),
    sget byte0 (sramPutBytes m k bs) (k + i) = bs[i] := by
  induction bs with
  | nil => exact fun _ _ _ h => absurd h (Nat.not_lt_zero _)
  | cons b r ih =>
    intro m k i h
    cases i with
    | zero => exact (sget_sramPutBytes_outside r _ (by omega)).trans (sget_sset_same ..)
    | succ i =>
      have hk : k + (i + 1) = k + 1 + i := by omega
      rw [sramPutBytes, hk]
      exact ih _ _ (Nat.lt_of_succ_lt_succ h)

theorem tierRead_of_bytes {s t : State} (h : t.mem.bytes = s.mem.bytes) (a n : Nat) : tierRead t a n = tierRead s a n := by
  simp only [tierRead, h]

@[simp] theorem length_tierRead (s : State) (a n : Nat) : (tierRead s a n).length = n := by simp [tierRead]

theorem tierWrite_bytes (s : State) (a : Nat) (bs : List Byte) : (tierWrite s a bs).mem.bytes = sramPutBytes s.mem.bytes a bs := by
  unfold tierWrite
  split
  · next h => rw [List.isEmpty_iff.mp h]; rfl
  · rfl

theorem tierWriteP_bytes (s : State) (a : Nat) (bs : List Byte) (ws : List Nat) :
    (tierWriteP s a bs ws).mem.bytes = sramPutBytes s.mem.bytes a bs := tierWrite_bytes ..

/-- A read of the range that was written gives the bytes put there. -/
theorem tierRead_of_put {s t : State} {a : Nat} {bs : List Byte} (h : t.mem.bytes = sramPutBytes s.mem.bytes a bs) :
    tierRead t a bs.length = bs := by
  refine List.ext_getElem (length_tierRead ..) fun i h₁ h₂ => ?_
  simp only [tierRead, List.getElem_map, List.getElem_range, h]
  exact sget_sramPutBytes_inside bs _ _ h₂

@[simp] theorem countTile_mem (s : State) (p : Option Nat) (t : Nat) (w : Bool) : (countTile s p t w).mem = s.mem :=
  (countTile_only (.refl _ s) (List.Subset.refl _)).only.keeps .mem (by decide)

@[simp] theorem countTiles_mem (s : State) (p : Option Nat) (t n : Nat) (w : Bool) : (countTiles s p t n w).mem = s.mem :=
  (countTiles_only (.refl _ s) (List.Subset.refl _)).only.keeps .mem (by decide)

@[simp] theorem countTiles_fab (s : State) (p : Option Nat) (t n : Nat) (w : Bool) : (countTiles s p t n w).fab = s.fab :=
  (countTiles_only (.refl _ s) (List.Subset.refl _)).only.keeps .fab (by decide)

@[simp] theorem touchTile_bytes (s : State) (t : Nat) : (touchTile s t).mem.bytes = s.mem.bytes := by
  unfold touchTile
  split <;> rfl

@[simp] theorem touchTile_fab (s : State) (t : Nat) : (touchTile s t).fab = s.fab :=
  (touchTile_only (.refl _ s) (List.Subset.refl _)).only.keeps .fab (by decide)

/-! ### Atomics on a tier (R575) -/

theorem atomicOp_bytes (s : State) (p : Option Nat) (op d : Nat) (data : List Byte) :
    (atomicOp s p op d data).1.mem.bytes =
      sramPutBytes s.mem.bytes d (leBytes (atomicWidth op) (atomicResult op (leNat (tierRead s d (atomicWidth op))) data)) := by
  simp only [atomicOp, countTile_mem, touchTile_bytes, tierWriteP_bytes]

@[simp] theorem atomicOp_fab (s : State) (p : Option Nat) (op d : Nat) (data : List Byte) : (atomicOp s p op d data).1.fab = s.fab :=
  (atomicOp_only (.refl _ s) (List.Subset.refl _)).only.keeps .fab (by decide)

/-- Where the operand was, an atomic leaves the bytes of its result. -/
theorem tierRead_of_atomicOp {s t : State} {p : Option Nat} {op d : Nat} {data : List Byte}
    (h : t.mem.bytes = (atomicOp s p op d data).1.mem.bytes) : tierRead t d (atomicWidth op) =
      leBytes (atomicWidth op) (atomicResult op (leNat (tierRead s d (atomicWidth op))) data) := by
  have := tierRead_of_put (h.trans (atomicOp_bytes ..))
  rwa [length_leBytes] at this

theorem atomicResult_fetchAdd {op : Nat} (h : op = 0x48 ∨ op = 0x49) (old : Nat) (data : List Byte) :
    atomicResult op old data = (old + leAt data 0 (atomicWidth op)) % 2 ^ (8 * atomicWidth op) := by
  simp [atomicResult, h]

theorem atomicResult_swap {op : Nat} (h : op = 0x4A ∨ op = 0x4B) (old : Nat) (data : List Byte) :
    atomicResult op old data = leAt data 0 (atomicWidth op) := by
  have hn : ¬(op = 0x48 ∨ op = 0x49) := by omega
  simp [atomicResult, h, hn]

theorem atomicResult_cas {op : Nat} (h : isCas op = true) (old : Nat) (data : List Byte) :
    atomicResult op old data = if old = leAt data 0 (atomicWidth op) then leAt data (atomicWidth op) (atomicWidth op) else old := by
  have hc : 0x4C ≤ op := of_decide_eq_true (Bool.and_eq_true_iff.mp h).1
  have ha : ¬(op = 0x48 ∨ op = 0x49) := by omega
  have hs : ¬(op = 0x4A ∨ op = 0x4B) := by omega
  simp [atomicResult, ha, hs]

theorem leBytes_atomicResult_fetchAdd {op : Nat} (h : op = 0x48 ∨ op = 0x49) (old : Nat) (data : List Byte) :
    leBytes (atomicWidth op) (atomicResult op old data) = leBytes (atomicWidth op) (old + leAt data 0 (atomicWidth op)) := by
  rw [atomicResult_fetchAdd h, leBytes_mod]

theorem leBytes_atomicResult_swap {op : Nat} (h : op = 0x4A ∨ op = 0x4B) (old : Nat) {data : List Byte} (hl : data.length = atomicWidth op) :
    leBytes (atomicWidth op) (atomicResult op old data) = data := by
  rw [atomicResult_swap h, leBytes_leAt (by omega), bytesAt, List.drop_zero, ← hl, List.take_length]

theorem leBytes_atomicResult_cas {op : Nat} (h : isCas op = true) {old data : List Byte} (ho : old.length = atomicWidth op)
    (hl : data.length = 2 * atomicWidth op) : leBytes (atomicWidth op) (atomicResult op (leNat old) data) =
      if old = data.take (atomicWidth op) then data.drop (atomicWidth op) else old := by
  have heq : leNat old = leAt data 0 (atomicWidth op) ↔ old = data.take (atomicWidth op) :=
    ⟨eq_of_leNat_eq (by rw [bytesAt, List.drop_zero, List.length_take]; omega), fun e => by rw [leAt, bytesAt, List.drop_zero, ← e]⟩
  rw [atomicResult_cas h]
  simp only [heq]
  split
  · rw [leBytes_leAt (by omega), bytesAt, List.take_of_length_le (by rw [List.length_drop]; omega)]
  · rw [← ho, leBytes_leNat]

end Sys2Proof.Machine
end

section
/-! PROOFS. Obligation O43: memory messages at their target (R101, R574, R575, R580, R595-R597, R602, R609, R611). -/

namespace Sys2Proof.Machine
open Sys2Proof

/-! ### What an answer leaves of the receiving side

An answer takes a MSG_ID, queues cells at a port, or raises an event (R587, R593): none of these touches the messages that wait, the
contexts of streams or the cached tiles. -/

def inbox (s : State) : List RxHeld × List RxStream × List RrcTile := (s.fab.held, s.fab.streams, s.fab.rrc)

theorem inbox_of_fab {s t : State} (h : t.fab = s.fab) : inbox t = inbox s := by simp only [inbox, h]

theorem held_of_inbox {s t : State} (h : inbox t = inbox s) : t.fab.held = s.fab.held := congrArg Prod.fst h

theorem findStream_of_inbox {s t : State} (h : inbox t = inbox s) (src stream : Nat) : findStream t src stream = findStream s src stream := by
  have hs : t.fab.streams = s.fab.streams := congrArg (fun i => i.2.1) h
  simp only [findStream, hs]

theorem inbox_enqueue (s : State) (n sub : Nat) (it : QItem) : inbox (enqueue s n sub it) = inbox s := by
  unfold enqueue
  extract_lets q old s₁
  exact inbox_of_fab (s := s₁) ((raiseReg_only (.refl _ s₁) (List.Subset.refl _)).only.keeps .fab (by decide))

theorem inbox_routeCell {s t : State} {c : Cell} {sub : Nat} {fwd : Bool} (h : routeCell s c sub fwd = some t) : inbox t = inbox s := by
  obtain ⟨⟨i, p⟩, -, rfl⟩ := Option.map_eq_some_iff.mp h
  exact inbox_enqueue ..

theorem inbox_sendCells {cs : List Cell} {sub : Nat} {s t : State} (h : sendCells s cs sub = some t) : inbox t = inbox s := by
  suffices hg : ∀ (cs : List Cell) (o : Option State), cs.foldl (fun a c => a.bind fun s => routeCell s c sub false) o = some t →
      ∃ u, o = some u ∧ inbox t = inbox u by
    obtain ⟨u, hu, ht⟩ := hg cs (some s) h
    rwa [← Option.some.inj hu] at ht
  intro cs
  induction cs with
  | nil => exact fun o ho => ⟨t, ho, rfl⟩
  | cons c r ih =>
    intro o ho
    obtain ⟨v, hv, ht⟩ := ih _ ho
    obtain ⟨u, hu, hr⟩ := Option.bind_eq_some_iff.mp hv
    exact ⟨u, hu, ht.trans (inbox_routeCell hr)⟩

theorem inbox_kqtOnce (s : State) (code subject : Nat) (payload : List Nat) : inbox (kqtOnce s none code subject payload) = inbox s := by
  unfold kqtOnce
  split
  · rfl
  · exact inbox_of_fab (s := s.modFab fun b => { b with told := b.told ++ [(code, subject)] })
      ((raisePf_only (.refl _ _) (List.Subset.refl _)).only.keeps .fab (by decide))

theorem inbox_sendReply (s : State) (m : MemMsg) (op st : Nat) (data : List Byte) (poison : List Nat) :
    inbox (sendReply s m op st data poison) = inbox s := by
  unfold sendReply
  split
  · rfl
  · next id s₁ h =>
    obtain ⟨n, -, hn⟩ := Option.map_eq_some_iff.mp h
    have h₁ : inbox s₁ = inbox s := by rw [← (Prod.mk.inj hn).2]; rfl
    extract_lets hdr
    split
    · next s₂ h₂ => exact (inbox_sendCells h₂).trans h₁
    · exact inbox_kqtOnce ..

theorem inbox_answerMem (s : State) (m : MemMsg) (st : Nat) (res : List Byte) (poison : List Nat) :
    inbox (answerMem s m st res poison) = inbox s := by
  unfold answerMem
  split
  · exact inbox_sendReply ..
  · split
    · exact inbox_sendReply ..
    · split
      · exact (inbox_sendReply ..).trans (inbox_of_fab (by rw [countTiles_fab, touchTile_fab]))
      · split <;> exact inbox_sendReply ..

@[simp] theorem sendReply_mem (s : State) (m : MemMsg) (op st : Nat) (data : List Byte) (poison : List Nat) :
    (sendReply s m op st data poison).mem = s.mem :=
  (sendReply_only (.refl _ s) (List.Subset.refl _)).only.keeps .mem (by decide)

theorem answerMem_bytes (s : State) (m : MemMsg) (st : Nat) (res : List Byte) (poison : List Nat) :
    (answerMem s m st res poison).mem.bytes = s.mem.bytes := by
  unfold answerMem
  split
  · rw [sendReply_mem]
  · split
    · rw [sendReply_mem]
    · split
      · rw [sendReply_mem, countTiles_mem, touchTile_bytes]
      · split <;> rw [sendReply_mem]

theorem now_answerMem (s : State) (m : MemMsg) (st : Nat) (res : List Byte) (poison : List Nat) : now (answerMem s m st res poison) = now s := by
  have h : (answerMem s m st res poison).mer = s.mer := (answerMem_only (.refl _ s) (List.Subset.refl _)).only.keeps .mer (by decide)
  simp only [now, h]

/-! ### A message that passes every check is applied (R575, R602, R611) -/

theorem applyMsg_read {s : State} {m : MemMsg} (ho : memOp m = 0x40) (hs : memStatus s m = 0) :
    applyMsg s m false = (answerMem s m 0 [] [], 0, []) := by
  simp [applyMsg, ho, hs, isAtomic]

/-- A WRITE at its tiles, counted, before its answer. -/
def written (s : State) (m : MemMsg) : State :=
  let d := memAddr m % 2 ^ 48
  countTiles (touchTile (tierWriteP s d m.data m.poison) (d / 4096)) none (d / 4096) (memLen m / 4096) true

theorem applyMsg_write {s : State} {m : MemMsg} (ho : memOp m = 0x42) (hs : memStatus s m = 0) :
    applyMsg s m false = (answerMem (written s m) m 0 [] [], 0, []) := by
  simp [applyMsg, ho, hs, written]

/-- An atomic at its operand, before its answer; poison in its message marks the words of the operand (R416). -/
def operated (s : State) (m : MemMsg) : State :=
  let d := memAddr m % 2 ^ 48
  let s₁ := (atomicOp s none (memOp m) d m.data).1
  if m.poison.isEmpty then s₁ else tierSetPoison s₁ d (List.range (cdiv (atomicWidth (memOp m)) 8))

theorem isAtomic_range {op : Nat} (h : isAtomic op = true) : 0x48 ≤ op ∧ op ≤ 0x4E := by simpa [isAtomic] using h

theorem applyMsg_atomic {s : State} {m : MemMsg} (ho : isAtomic (memOp m) = true) (hs : memStatus s m = 0) :
    ∃ old ws, applyMsg s m false = (answerMem (operated s m) m 0 old ws, 0, old) := by
  have hr := isAtomic_range ho
  have hl : ¬memOp m < 0x40 := by omega
  have hw : memOp m ≠ 0x42 := by omega
  exact ⟨(atomicOp s none (memOp m) (memAddr m % 2 ^ 48) m.data).2.1, (atomicOp s none (memOp m) (memAddr m % 2 ^ 48) m.data).2.2,
    by simp [applyMsg, ho, hs, hl, hw, operated]⟩

theorem applyMsg_invalidate {s : State} {m : MemMsg} (ho : memOp m = 0x50) (hs : memStatus s m = 0) :
    applyMsg s m false =
      (answerMem (markFills (rrcDrop s (memAddr m) (memLen m)) (memAddr m) (memLen m)) m 0 [] [], 0, []) := by
  simp [applyMsg, ho, hs, isAtomic]

theorem written_bytes (s : State) (m : MemMsg) : (written s m).mem.bytes = sramPutBytes s.mem.bytes (memAddr m % 2 ^ 48) m.data := by
  simp only [written, countTiles_mem, touchTile_bytes, tierWriteP_bytes]

theorem written_fab (s : State) (m : MemMsg) : (written s m).fab = s.fab := by
  simp only [written, countTiles_fab, touchTile_fab]
  exact (tierWriteP_only (.refl _ s) (List.Subset.refl _)).only.keeps .fab (by decide)

theorem operated_bytes (s : State) (m : MemMsg) :
    (operated s m).mem.bytes = (atomicOp s none (memOp m) (memAddr m % 2 ^ 48) m.data).1.mem.bytes := by
  simp only [operated]
  split <;> rfl

theorem operated_fab (s : State) (m : MemMsg) : (operated s m).fab = s.fab := by
  simp only [operated]
  split
  · exact atomicOp_fab ..
  · exact atomicOp_fab ..

/-! ### Streams (R594-R600) -/

/-- The context that a message of STREAM_SEQ 0 opens. -/
def openedBy (s : State) (m : MemMsg) : RxStream := { src := m.src, stream := m.stream, opener := m.msgId, lastAt := now s }

/-- The state in which a message in turn is applied: its stream has a context. -/
def streamOpened (s : State) (m : MemMsg) : State :=
  if findStream s m.src m.stream = none then s.modFab fun b => { b with streams := b.streams ++ [openedBy s m] } else s

theorem streamOpened_of_some {s : State} {m : MemMsg} {c : RxStream} (h : findStream s m.src m.stream = some c) : streamOpened s m = s := by
  simp [streamOpened, h]

theorem streamOpened_of_none {s : State} {m : MemMsg} (h : findStream s m.src m.stream = none) :
    streamOpened s m = s.modFab fun b => { b with streams := b.streams ++ [openedBy s m] } := by
  simp [streamOpened, h]

/-- Opening a stream leaves everything but the contexts. -/
theorem streamOpened_keeps {β : Type} {g : State → β} (h : ∀ l, g (s.modFab fun b => { b with streams := l }) = g s) (m : MemMsg) :
    g (streamOpened s m) = g s := by
  unfold streamOpened
  split
  · exact h (s.fab.streams ++ [openedBy s m])
  · rfl

theorem memStatus_streamOpened (s : State) (m : MemMsg) : memStatus (streamOpened s m) m = memStatus s m :=
  streamOpened_keeps (g := fun u => memStatus u m) (fun _ => rfl) m

theorem msgHeld_streamOpened (s : State) (m : MemMsg) : msgHeld (streamOpened s m) m = msgHeld s m :=
  streamOpened_keeps (g := fun u => msgHeld u m) (fun _ => rfl) m

theorem modFab_eq_self {s : State} {f : Fab → Fab} (h : f s.fab = s.fab) : s.modFab f = s := by
  rw [State.modFab, h]

theorem releaseHeld_of_none {s : State} (h : s.fab.held = []) (src stream : Nat) : releaseHeld s src stream = s := by
  simp only [releaseHeld, h, List.filter_nil, sortBy, List.foldl_nil]
  refine modFab_eq_self ?_
  simp only [h, List.filter_nil]
  rw [← h]

theorem drainStream_of_none {s : State} (h : s.fab.held = []) (src stream fuel : Nat) : drainStream src stream fuel s = s := by
  cases fuel with
  | zero => rfl
  | succ n =>
    rw [drainStream, h]
    split <;> rfl

theorem advanceH_keeps (fuel : Nat) (c : RxStream) :
    (advanceH fuel c).src = c.src ∧ (advanceH fuel c).stream = c.stream ∧ (advanceH fuel c).lastAt = c.lastAt := by
  induction fuel generalizing c with
  | zero => exact ⟨rfl, rfl, rfl⟩
  | succ n ih =>
    rw [advanceH]
    split
    · exact ih _
    · exact ⟨rfl, rfl, rfl⟩

/-- The context of an applied message was heard at this time (R596). -/
theorem findStream_recordApplied {s : State} {m : MemMsg} {c : RxStream} (h : findStream s m.src m.stream = some c) (st : Nat) (res : List Byte) :
    ∃ c', findStream (recordApplied s m st res) m.src m.stream = some c' ∧ c'.lastAt = now s := by
  refine ⟨_, (find?_updIf_self (fun x hx => ?_) _).trans (congrArg (Option.map _) h), (advanceH_keeps ..).2.2⟩
  obtain ⟨hs, ht, -⟩ := advanceH_keeps 1025 { x with done := x.done ++ [(m.sseq, st, res)], lastAt := now s }
  simpa only [hs, ht] using hx

/-- What an applied message leaves when nothing waits behind it. -/
def tookMsg (s : State) (m : MemMsg) : State := recordApplied (applyMsg s m false).1 m (applyMsg s m false).2.1 (applyMsg s m false).2.2

theorem inStream_inTurn {s : State} {m : MemMsg} {c : RxStream} (hw : msgHeld s m = false) (ha : seqApplied c m.sseq = false)
    (hd : seqDist c.next m.sseq = 0) (hh : (applyMsg s m false).1.fab.held = []) : inStream s c m false = tookMsg s m := by
  have hn : drainStream m.src m.stream (s.fab.held.length + 1) (tookMsg s m) = tookMsg s m := drainStream_of_none (s := tookMsg s m) hh ..
  simpa [inStream, hw, ha, hd, tookMsg] using hn

/-- A message in turn is applied to the state with its stream, and recorded. -/
theorem streamMsg_inTurn {s : State} {m : MemMsg} (h : inTurn s m) (hh : (applyMsg (streamOpened s m) m false).1.fab.held = []) :
    streamMsg s m false = tookMsg (streamOpened s m) m := by
  obtain ⟨-, -, -, hw, ⟨hf, h0, hn⟩ | ⟨h0, c, hf, ha, hd⟩⟩ := h
  · have hi : inStream (streamOpened s m) (openedBy s m) m false = tookMsg (streamOpened s m) m :=
      inStream_inTurn ((msgHeld_streamOpened s m).trans hw) (by simp [seqApplied, openedBy, h0]) (by simp [seqDist, openedBy, h0]) hh
    have ht : releaseHeld (tookMsg (streamOpened s m) m) m.src m.stream = tookMsg (streamOpened s m) m :=
      releaseHeld_of_none (s := tookMsg (streamOpened s m) m) hh ..
    rw [← hi, streamOpened_of_none hf, openedBy] at ht
    rw [← hi, streamOpened_of_none hf, openedBy]
    simpa only [streamMsg, hf, h0, if_true, hn.not_ge, if_false] using ht
  · rw [streamOpened_of_some hf] at hh ⊢
    rw [← inStream_inTurn hw ha hd hh]
    simp [streamMsg, hf, h0]

theorem findStream_streamOpened (s : State) (m : MemMsg) : ∃ c, findStream (streamOpened s m) m.src m.stream = some c := by
  cases h : findStream s m.src m.stream with
  | some c => exact ⟨c, by rw [streamOpened_of_some h, h]⟩
  | none =>
    refine ⟨openedBy s m, ?_⟩
    rw [streamOpened_of_none h]
    have h' : s.fab.streams.find? (fun c => c.src == m.src && c.stream == m.stream) = none := h
    simp [findStream, openedBy, List.find?_append, h']

@[simp] theorem streamOpened_mem (s : State) (m : MemMsg) : (streamOpened s m).mem = s.mem :=
  streamOpened_keeps (g := State.mem) (fun _ => rfl) m

@[simp] theorem streamOpened_held (s : State) (m : MemMsg) : (streamOpened s m).fab.held = s.fab.held :=
  streamOpened_keeps (g := fun u => u.fab.held) (fun _ => rfl) m

@[simp] theorem streamOpened_rrc (s : State) (m : MemMsg) : (streamOpened s m).fab.rrc = s.fab.rrc :=
  streamOpened_keeps (g := fun u => u.fab.rrc) (fun _ => rfl) m

@[simp] theorem now_streamOpened (s : State) (m : MemMsg) : now (streamOpened s m) = now s :=
  streamOpened_keeps (g := now) (fun _ => rfl) m

@[simp] theorem tookMsg_mem (s : State) (m : MemMsg) : (tookMsg s m).mem = (applyMsg s m false).1.mem := rfl

@[simp] theorem tookMsg_rrc (s : State) (m : MemMsg) : (tookMsg s m).fab.rrc = (applyMsg s m false).1.fab.rrc := rfl

/-! ### Commands that carry a message -/

abbrev memParts : List Part := [.out, .freeCount, .regs, .cons, .eph, .work, .tabs, .mem, .serve, .fab, .px, .ctl, .mgt, .alm, .tel]

/-- A message that asks something of memory: it is neither a reply nor a topology message (R574). -/
def asksMemory (op : Nat) : Bool := op == 0x40 || op == 0x42 || isAtomic op || op == 0x50

theorem isAtomic_of_isCas {op : Nat} (h : isCas op = true) : isAtomic op = true := by
  simp only [isCas, isAtomic, Bool.and_eq_true, decide_eq_true_eq] at h ⊢
  omega

theorem takeMsg_asksMemory {m : MemMsg} (h : asksMemory (memOp m) = true) (s : State) (wrote : Bool) :
    takeMsg s m wrote = streamMsg s m wrote := by
  have hop : memOp m = 0x40 ∨ memOp m = 0x42 ∨ (0x48 ≤ memOp m ∧ memOp m ≤ 0x4E) ∨ memOp m = 0x50 := by
    simpa [asksMemory, isAtomic, or_assoc] using h
  have hr : isReply (memOp m) = false := by
    simp only [isReply, Bool.or_eq_false_iff, beq_eq_false_iff_ne]
    omega
  have ht : memOp m ≠ 0x60 := by omega
  simp only [takeMsg, hr, ht]
  rfl

theorem memCommand_of_takes {m : MemMsg} {ops : Nat → Bool} {s : State} (ho : ops (memOp m) = true) (h : asksMemory (memOp m) = true)
    (hh : halted s = false) : memCommand m ops s = .next (streamMsg s m false) := by
  simp [memCommand, ho, hh, takeMsg_asksMemory h]

theorem memCommand_of_halted {s : State} (h : halted s = true) (m : MemMsg) (ops : Nat → Bool) : memCommand m ops s = .next s := by
  simp [memCommand, h]

/-- What a command does whose message is in turn: it applies it where its stream stands. -/
theorem does_inTurn {c : Instr} {m : MemMsg} {ops : Nat → Bool} {s : State} {P : State → Prop} (hc : exec c s = memCommand m ops s)
    (ho : ops (memOp m) = true) (ha : asksMemory (memOp m) = true) (hi : inTurn s m)
    (hk : (applyMsg (streamOpened s m) m false).1.fab.held = (streamOpened s m).fab.held) (hP : P (tookMsg (streamOpened s m) m)) :
    Does c s memParts P := by
  have hh : (applyMsg (streamOpened s m) m false).1.fab.held = [] := hk.trans ((streamOpened_held s m).trans hi.2.1)
  have he := (memCommand_of_takes ho ha hi.1).trans (congrArg Host.Outcome.next (streamMsg_inTurn hi hh))
  exact .of_only (hc.trans he) (fun _ => memCommand_only (.refl _ s) (List.Subset.refl _) he) hP

/-! ### The length that a message names (R574) -/

theorem memOk_of_status {s : State} {m : MemMsg} (h : memStatus s m = 0) : memOk (memOp m) (memAddr m) (memLen m) m.data.length = true := by
  by_contra hk
  rw [Bool.not_eq_true] at hk
  simp [memStatus, hk] at h

theorem length_data_of_write {s : State} {m : MemMsg} (ho : memOp m = 0x42) (h : memStatus s m = 0) : m.data.length = memLen m := by
  have hk := memOk_of_status h
  simp only [memOk, ho] at hk
  simpa using (Bool.and_eq_true_iff.mp hk).2

theorem length_data_of_atomic {s : State} {m : MemMsg} (ho : isAtomic (memOp m) = true) (h : memStatus s m = 0) :
    m.data.length = if isCas (memOp m) then 2 * atomicWidth (memOp m) else atomicWidth (memOp m) := by
  have hr := isAtomic_range ho
  have hw : ¬(memOp m = 0x40 ∨ memOp m = 0x42) := by omega
  have hk := memOk_of_status h
  simp only [memOk, ho, Bool.or_eq_true, decide_eq_true_eq, hw, if_true, if_false, Bool.and_eq_true, beq_iff_eq] at hk
  exact hk.2.trans hk.1.2

/-! ### Each kind of message in turn -/

theorem does_memRead {m : MemMsg} {s : State} (ho : memOp m = 0x40) (hi : inTurn s m) : Does (.memRead m) s memParts fun t =>
    (∀ a n, tierRead t a n = tierRead s a n) ∧ ∃ c, findStream t m.src m.stream = some c ∧ c.lastAt = now s := by
  have he := applyMsg_read ho ((memStatus_streamOpened s m).trans hi.2.2.1)
  have hb : inbox (applyMsg (streamOpened s m) m false).1 = inbox (streamOpened s m) := by rw [he, inbox_answerMem]
  refine does_inTurn (ops := (· == 0x40)) rfl (by simp [ho]) (by simp [asksMemory, ho]) hi (held_of_inbox hb) ⟨tierRead_of_bytes ?_, ?_⟩
  · rw [tookMsg_mem, he, answerMem_bytes, streamOpened_mem]
  · obtain ⟨c, hc⟩ := findStream_streamOpened s m
    have hc' : findStream (applyMsg (streamOpened s m) m false).1 m.src m.stream = some c :=
      (findStream_of_inbox hb ..).trans hc
    obtain ⟨c', h', hl⟩ := findStream_recordApplied hc' (applyMsg (streamOpened s m) m false).2.1 (applyMsg (streamOpened s m) m false).2.2
    refine ⟨c', h', hl.trans ?_⟩
    rw [he]
    exact (now_answerMem ..).trans (now_streamOpened s m)

theorem does_memWrite {m : MemMsg} {s : State} (ho : memOp m = 0x42) (hi : inTurn s m) : Does (.memWrite m) s memParts fun t =>
    tierRead t (memAddr m % 2 ^ 48) (memLen m) = m.data ∧
    ∀ a, a < memAddr m % 2 ^ 48 ∨ memAddr m % 2 ^ 48 + memLen m ≤ a → sget byte0 t.mem.bytes a = sget byte0 s.mem.bytes a := by
  have hs := hi.2.2.1
  have he := applyMsg_write ho ((memStatus_streamOpened s m).trans hs)
  have hl := length_data_of_write ho hs
  have hb : (tookMsg (streamOpened s m) m).mem.bytes = sramPutBytes s.mem.bytes (memAddr m % 2 ^ 48) m.data := by
    rw [tookMsg_mem, he, answerMem_bytes, written_bytes, streamOpened_mem]
  refine does_inTurn (ops := (· == 0x42)) rfl (by simp [ho]) (by simp [asksMemory, ho]) hi ?_ ⟨?_, fun a ha => ?_⟩
  · rw [he]
    exact held_of_inbox ((inbox_answerMem ..).trans (inbox_of_fab (written_fab ..)))
  · rw [← hl]
    exact tierRead_of_put hb
  · rw [hb]
    exact sget_sramPutBytes_outside _ _ (by rwa [hl])

/-- Any atomic in turn leaves its result where its operand was. -/
theorem does_memAtomic {c : Instr} {m : MemMsg} {ops : Nat → Bool} {s : State} {v : List Byte} (hc : exec c s = memCommand m ops s)
    (ho : ops (memOp m) = true) (ha : isAtomic (memOp m) = true) (hi : inTurn s m)
    (hv : leBytes (atomicWidth (memOp m))
      (atomicResult (memOp m) (leNat (tierRead s (memAddr m % 2 ^ 48) (atomicWidth (memOp m)))) m.data) = v) :
    Does c s memParts fun t => tierRead t (memAddr m % 2 ^ 48) (atomicWidth (memOp m)) = v := by
  obtain ⟨old, ws, he⟩ := applyMsg_atomic ha ((memStatus_streamOpened s m).trans hi.2.2.1)
  refine does_inTurn hc ho (by simp [asksMemory, ha]) hi ?_ ?_
  · rw [he]
    exact held_of_inbox ((inbox_answerMem ..).trans (inbox_of_fab (operated_fab ..)))
  · have hb : (tookMsg (streamOpened s m) m).mem.bytes = (atomicOp (streamOpened s m) none (memOp m) (memAddr m % 2 ^ 48) m.data).1.mem.bytes := by
      rw [tookMsg_mem, he, answerMem_bytes, operated_bytes]
    rw [tierRead_of_atomicOp hb, tierRead_of_bytes (congrArg Mem.bytes (streamOpened_mem s m)), hv]

theorem does_memInvalidate {m : MemMsg} {s : State} (ho : memOp m = 0x50) (hi : inTurn s m) : Does (.memInvalidate m) s memParts fun t =>
    t.fab.rrc = s.fab.rrc.filter fun x => !(memAddr m / 4096 ≤ x.tile && x.tile * 4096 < memAddr m + memLen m) := by
  have he := applyMsg_invalidate ho ((memStatus_streamOpened s m).trans hi.2.2.1)
  refine does_inTurn (ops := (· == 0x50)) rfl (by simp [ho]) (by simp [asksMemory, ho]) hi ?_ ?_
  · rw [he]
    exact congrArg Prod.fst (inbox_answerMem ..)
  · rw [tookMsg_rrc, he, ← streamOpened_rrc s m]
    exact congrArg (fun i => i.2.2) (inbox_answerMem ..)

/-! ### A message that a window holds, and one applied before (R101, R597) -/

theorem does_held {c : Instr} {m : MemMsg} {ops : Nat → Bool} {x : RxStream} {s : State} (hc : exec c s = memCommand m ops s)
    (ho : ops (memOp m) = true) (ha : asksMemory (memOp m) = true) (hh : halted s = false) (hx : findStream s m.src m.stream = some x)
    (h0 : m.sseq ≠ 0) (hw : msgHeld s m = true) (hd : seqDist x.next m.sseq < 1024)
    (hn : ∀ h ∈ s.fab.held, ¬(h.msg.src = m.src ∧ h.msg.stream = m.stream ∧ h.msg.sseq = m.sseq)) : Does c s [.fab] (heldMsg m s) := by
  have hany : (s.fab.held.any fun h => h.msg.src == m.src && h.msg.stream == m.stream && h.msg.sseq == m.sseq) = false :=
    List.any_eq_false.mpr fun h hm => by simpa [and_assoc] using hn h hm
  have he : streamMsg s m false =
      s.modFab fun b => { b with held := b.held ++ [{ msg := m, wrote := false, since := now s, noCtx := false }] } := by
    simp [streamMsg, hx, h0, inStream, hw, hd, hany]
  exact .of_within (hc.trans ((memCommand_of_takes ho ha hh).trans (congrArg _ he))) ⟨rfl, fun _ _ => rfl⟩
    (modFab_only (.refl _ s) (List.Subset.refl _))

theorem offBus_duplicates : OffBus 0x9010 7 := by
  unfold OffBus odKey
  omega

theorem kqtOnce_odGet (s : State) (code subject : Nat) (payload : List Nat) {i k : Nat} (h : OffBus i k) :
    odGet (kqtOnce s none code subject payload) i k = odGet s i k := by
  unfold kqtOnce
  split
  · rfl
  · exact raisePf_odGet _ _ h

theorem sendReply_odGet (s : State) (m : MemMsg) (op st : Nat) (data : List Byte) (poison : List Nat) {i k : Nat} (h : OffBus i k) :
    odGet (sendReply s m op st data poison) i k = odGet s i k := by
  unfold sendReply
  split
  · rfl
  · next id s₁ h₁ =>
    have hc : s₁.ctl = s.ctl := (takeId_only_eq (.refl _ s) (List.Subset.refl _) h₁).only.keeps .ctl (by decide)
    extract_lets hdr
    split
    · next s₂ h₂ =>
      exact odGet_of_ctl (((sendCells_only_eq (.refl _ s₁) (List.Subset.refl _) h₂).only.keeps .ctl (by decide)).trans hc) i k
    · exact kqtOnce_odGet _ _ _ _ h

theorem answerMem_write {m : MemMsg} (ho : memOp m = 0x42) (s : State) (st : Nat) (res : List Byte) (poison : List Nat) :
    answerMem s m st res poison = sendReply s m 0x43 st [] [] := by
  by_cases h : st = 0 <;> simp [answerMem, ho, h, isAtomic]

/-- The second coming of a WRITE, counted and heard, before its answer. -/
def duplicateHeard (s : State) (m : MemMsg) : State :=
  odCount (modStream s m.src m.stream fun c => { c with lastAt := now s }) 0x9010 7

theorem streamMsg_duplicate {m : MemMsg} {c : RxStream} {e : Nat × Nat × List Byte} {s : State} (hx : findStream s m.src m.stream = some c)
    (h0 : m.sseq ≠ 0) (hf : c.done.find? (·.1 == m.sseq) = some e) (hw : msgHeld s m = false) :
    streamMsg s m false = answerMem (duplicateHeard s m) m e.2.1 e.2.2 [] := by
  have ha : seqApplied c m.sseq = true := by
    have hs : (e.1 == m.sseq) = true := by simpa using List.find?_some hf
    have : c.done.any (·.1 == m.sseq) = true := List.any_eq_true.mpr ⟨e, List.mem_of_find?_eq_some hf, hs⟩
    simp only [seqApplied, this, Bool.true_or]
  simp [streamMsg, hx, h0, inStream, hw, ha, hf, duplicateHeard]

theorem does_duplicate {m : MemMsg} {c : RxStream} {e : Nat × Nat × List Byte} {s : State} (ho : memOp m = 0x42) (hh : halted s = false)
    (hx : findStream s m.src m.stream = some c) (h0 : m.sseq ≠ 0) (hf : c.done.find? (·.1 == m.sseq) = some e) (hw : msgHeld s m = false) :
    Does (.memWrite m) s memParts fun t =>
      odGet t 0x9010 7 = sat 0xFFFFFFFF (odGet s 0x9010 7 + 1) ∧ ∀ a n, tierRead t a n = tierRead s a n := by
  have he := (memCommand_of_takes (ops := (· == 0x42)) (by simp [ho]) (by simp [asksMemory, ho]) hh).trans
    (congrArg Host.Outcome.next ((streamMsg_duplicate hx h0 hf hw).trans (answerMem_write ho ..)))
  refine .of_only he (fun _ => memCommand_only (.refl _ s) (List.Subset.refl _) he) ⟨?_, tierRead_of_bytes ?_⟩
  · rw [sendReply_odGet _ _ _ _ _ _ offBus_duplicates]
    exact odGet_odSet_same ..
  · rw [sendReply_mem, duplicateHeard, odCount_mem]
    rfl

end Sys2Proof.Machine
open Sys2Proof Sys2Proof.Machine

/-- Settles O43: a message in turn is applied to the tiers and recorded in its stream, one under a window joins those that wait, and one
that its record knows is only answered. -/
theorem memoryRequests : Obligations.MemoryRequests := by
  refine ⟨fun m s => does_memRead, fun m s => does_memWrite, fun m s hi => ⟨fun ho => ?_, fun ho => ?_, fun ho => ?_, fun ho => does_memInvalidate ho hi⟩,
    fun m c s hh hx h0 hw hd hn => ⟨fun ho => ?_, fun ho => ?_, fun ho => ?_, fun ho => ?_, fun ho => ?_⟩,
    fun m c e s ho hh hx h0 hf hw => does_duplicate ho hh hx h0 hf hw, fun m s hh => ?_⟩
  · have ha : isAtomic (memOp m) = true := by rcases ho with h | h <;> simp [h, isAtomic]
    exact does_memAtomic (ops := fun o => o == 0x48 || o == 0x49) rfl (by simpa using ho) ha hi (leBytes_atomicResult_fetchAdd ho ..)
  · have ha : isAtomic (memOp m) = true := by rcases ho with h | h <;> simp [h, isAtomic]
    have hc : isCas (memOp m) = false := by rcases ho with h | h <;> simp [h, isCas]
    exact does_memAtomic (ops := fun o => o == 0x4A || o == 0x4B) rfl (by simpa using ho) ha hi
      (leBytes_atomicResult_swap ho _ (by simpa [hc] using length_data_of_atomic ha hi.2.2.1))
  · have ha := isAtomic_of_isCas ho
    exact does_memAtomic (ops := isCas) rfl ho ha hi
      (leBytes_atomicResult_cas ho (length_tierRead ..) (by simpa [ho] using length_data_of_atomic ha hi.2.2.1))
  · exact does_held (ops := (· == 0x40)) rfl (by simp [ho]) (by simp [ho, asksMemory]) hh hx h0 hw hd hn
  · exact does_held (ops := (· == 0x42)) rfl (by simp [ho]) (by simp [ho, asksMemory]) hh hx h0 hw hd hn
  · exact does_held (ops := fun o => o == 0x48 || o == 0x49) rfl (by simpa using ho) (by rcases ho with h | h <;> simp [h, asksMemory, isAtomic]) hh hx h0 hw hd hn
  · exact does_held (ops := fun o => o == 0x4A || o == 0x4B) rfl (by simpa using ho) (by rcases ho with h | h <;> simp [h, asksMemory, isAtomic]) hh hx h0 hw hd hn
  · exact does_held (ops := isCas) rfl ho (by simp [asksMemory, isAtomic_of_isCas ho]) hh hx h0 hw hd hn
  · have hs (ops : Nat → Bool) : memCommand m ops s = .next s := memCommand_of_halted hh m ops
    exact ⟨.of_same (hs (· == 0x40)) rfl, .of_same (hs (· == 0x42)) rfl, .of_same (hs fun o => o == 0x48 || o == 0x49) rfl,
      .of_same (hs fun o => o == 0x4A || o == 0x4B) rfl, .of_same (hs isCas) rfl, .of_same (hs (· == 0x50)) rfl⟩
end

section
/-! PROOFS. Obligation O51: BAR2, IDE, TDISP and PCIe links (R101, R686, R689, R691-R695, R697, R700, R701, R728). -/

namespace Sys2Proof.Machine
open Sys2Proof

/-! ### What went out stays out

An event may change the place of the events of its tick (R840); an output that is no event of a ring stays. -/

theorem mem_replaceEvents {α : Type} {get : α → Option Event} {put : α → Event → α} {a : α} (h : get a = none) :
    ∀ {l : List α} (es : List Event), a ∈ l → a ∈ replaceEvents get put l es
  | [], _, hm => absurd hm List.not_mem_nil
  | b :: r, es, hm => by
    unfold replaceEvents
    rcases List.mem_cons.mp hm with rfl | hm
    · rw [h]
      exact List.mem_cons_self ..
    · split <;> exact List.mem_cons_of_mem _ (mem_replaceEvents h _ hm)

variable {o : Out}

theorem mem_out_msix {s : State} (fn vector : Nat) (h : o ∈ s.out) : o ∈ (msix s fn vector).out := by
  unfold msix
  split
  · exact List.mem_append_left _ h
  · split <;> exact h

theorem mem_out_setInt {s : State} (i : Nat) (h : o ∈ s.out) : o ∈ (setInt s i).out := by
  have h₁ : o ∈ (sameTick s).out := by unfold sameTick; split <;> exact h
  unfold setInt
  extract_lets old s₁
  split
  · exact mem_out_msix 0 9 h₁
  · exact h₁

theorem mem_out_ringPut {s : State} (ring : Nat) (r : Rec) (h : o ∈ s.out) : o ∈ (ringPut s ring r).out := by
  unfold ringPut
  extract_lets ix n size s₁ s₂
  have h₂ : o ∈ s₂.out := by
    show o ∈ (telDma ..).out
    rw [telDma_out]
    exact List.mem_append_left _ h
  split
  · split
    · exact mem_out_msix _ _ h₂
    · exact h₂
  · exact h₂

theorem mem_out_orderTick {s : State} {ring : Nat} (ho : outEvent s ring o = none) (h : o ∈ s.out) : o ∈ (orderTick s ring).out :=
  mem_replaceEvents ho _ h

theorem mem_out_eventTo {s : State} (ring : Nat) (e : Event) (ho : ∀ u, outEvent u ring o = none) (h : o ∈ s.out) :
    o ∈ (eventTo s ring e).out := by
  unfold eventTo
  extract_lets d s₁ r s₂
  split
  · split
    · exact mem_out_setInt 4 h
    · exact h
  · refine mem_out_orderTick (ho _) ?_
    split
    · exact h
    · exact mem_out_ringPut ring r h

theorem mem_out_busEvent {s : State} (e : Event) (h : o ∈ s.out) : o ∈ (busEvent s e).out := by
  unfold busEvent
  split
  · exact h
  · extract_lets f s₁
    split
    · split
      · exact h
      · rw [sendFrame, odCount_out]
        exact List.mem_append_left _ h
    · split
      · exact h
      · rw [odCount_out]
        exact h
    · exact h

theorem mem_out_raisePf {s : State} (e : Event) (ho : ∀ u ring, outEvent u ring o = none) (h : o ∈ s.out) : o ∈ (raisePf s e).out := by
  rw [raisePf, logFault_out]
  exact mem_out_busEvent e (mem_out_eventTo _ e (fun u => ho u _) h)

/-- A slot event to a host stays out when a PCIe event is raised. -/
theorem slot_mem_pxEvent {s : State} {a b c : Nat} (code : Nat) (payload : List Nat) (h : Out.slot a b c ∈ s.out) :
    Out.slot a b c ∈ (pxEvent s code payload).out := mem_out_raisePf _ (fun _ _ => rfl) h

@[simp] theorem pxEvent_px (s : State) (code : Nat) (payload : List Nat) : (pxEvent s code payload).px = s.px := raisePf_px ..

@[simp] theorem linkEvent_px (s : State) (l : Nat) : (linkEvent s l).px = s.px := pxEvent_px ..

/-! ### The bytes that software reads have the length asked for -/

theorem length_foldl {α : Type} {f : List Byte → α → List Byte} (h : ∀ b a, (f b a).length = b.length) (l : List α) (b : List Byte) :
    (l.foldl f b).length = b.length := by
  induction l generalizing b with
  | nil => rfl
  | cons a r ih => rw [List.foldl_cons, ih, h]

theorem length_overlay (a o : Nat) (bs new : List Byte) : (overlay a o bs new).length = bs.length := List.length_mapIdx

theorem length_tierView (s : State) (a n : Nat) : (tierView s a n).length = n := by
  unfold tierView
  extract_lets table b₀ b₁
  have h₀ : b₀.length = n := by
    refine (length_foldl (fun b r => ?_) _ _).trans (length_tierRead ..)
    extract_lets o c₁ v c₂ len
    have h₁ : c₁.length = b.length := by simp only [c₁]; split <;> simp [length_overlay]
    have h₂ : c₂.length = c₁.length := by simp only [c₂]; split <;> simp [length_overlay]
    split <;> simp [h₁, h₂]
  have h₁ : b₁.length = n := by
    refine (length_foldl (fun b g => ?_) _ _).trans h₀
    extract_lets o h c₁
    have h₁ : c₁.length = b.length := by simp only [c₁]; split <;> simp [length_overlay]
    split <;> simp [h₁, length_overlay]
  refine (length_foldl (fun b p => ?_) _ _).trans h₁
  extract_lets o free
  split <;> simp

theorem padTo_of_length {n : Nat} {l : List Byte} (h : l.length = n) : padTo n l = l := by simp [padTo, h]

/-! ### Requests on BAR2 (R691-R693) -/

theorem atomicOp_px (s : State) (p : Option Nat) (op d : Nat) (data : List Byte) : (atomicOp s p op d data).1.px = s.px :=
  (atomicOp_only (.refl _ s) (List.Subset.refl _)).only.keeps .px (by decide)

theorem atomicOp_out (s : State) (p : Option Nat) (op d : Nat) (data : List Byte) : (atomicOp s p op d data).1.out = s.out :=
  (atomicOp_only (.refl _ s) (List.Subset.refl _)).only.keeps .out (by decide)

/-- A tile accessed for a partition: its stack or channel is awake, and it is counted. -/
def touched (s : State) (p d : Nat) (w : Bool) : State := countTile (touchTile s d) (some p) d w

theorem touched_px (s : State) (p d : Nat) (w : Bool) : (touched s p d w).px = s.px :=
  (countTile_only (touchTile_only (.refl [.mem, .tel] s) (by decide)) (by decide)).only.keeps .px (by decide)

theorem touched_out (s : State) (p d : Nat) (w : Bool) : (touched s p d w).out = s.out :=
  (countTile_only (touchTile_only (.refl [.mem, .tel] s) (by decide)) (by decide)).only.keeps .out (by decide)

theorem touched_bytes (s : State) (p d : Nat) (w : Bool) : (touched s p d w).mem.bytes = s.mem.bytes := by
  rw [touched, countTile_mem, touchTile_bytes]

/-- The request joins those that are carried out. -/
def bar2Joined (s : State) (b : Bar2) : State := s.modPx fun x => { x with bar2 := x.bar2 ++ [b] }

section
variable {s u : State} {b : Bar2} (hu : u.px = (bar2Joined s b).px) (hn : ∀ x ∈ s.px.bar2, ¬(x.ptn = b.ptn ∧ x.tag = b.tag))
include hu hn

theorem find?_bar2Joined : u.px.bar2.find? (fun x => x.ptn == b.ptn && x.tag == b.tag) = some b := by
  have h : s.px.bar2.find? (fun x => x.ptn == b.ptn && x.tag == b.tag) = none := by simpa using hn
  simp [hu, bar2Joined, List.find?_append, h]

theorem filter_bar2Joined : u.px.bar2.filter (fun x => !(x.ptn == b.ptn && x.tag == b.tag)) = s.px.bar2 := by
  simpa [hu, bar2Joined, imp_iff_not_or] using hn

/-- An atomic is answered with its old value and leaves the requests. -/
theorem bar2Tile_atomic (ha : b.atomic = true) (tile : Nat) (bytes : List Byte) (ws : List Nat) :
    (bar2Tile u b.ptn b.tag tile stOK bytes ws).out = u.out ++ [.bar2 b.ptn b.tag 0 bytes (!ws.isEmpty)] ∧
    (bar2Tile u b.ptn b.tag tile stOK bytes ws).px.bar2 = s.px.bar2 ∧ (bar2Tile u b.ptn b.tag tile stOK bytes ws).mem = u.mem := by
  have hf := filter_bar2Joined hu hn
  unfold bar2Tile
  rw [find?_bar2Joined hu hn]
  simp only [ha, if_true, bne_self_eq_false, Bool.false_eq_true, if_false]
  exact ⟨rfl, hf, rfl⟩

/-- A read of one tile is answered as its tile comes, and leaves the requests. -/
theorem bar2Tile_read (ha : b.atomic = false) (hg : b.got = []) (hl : (b.addr + b.len - 1) / 4096 = b.addr / 4096) (tile : Nat) {bytes : List Byte}
    (hb : bytes.length = 4096) (ws : List Nat) :
    (∃ f, (bar2Tile u b.ptn b.tag tile stOK bytes ws).out = u.out ++ [.bar2 b.ptn b.tag 0 (bytesAt bytes (b.addr % 4096) b.len) f]) ∧
    (bar2Tile u b.ptn b.tag tile stOK bytes ws).px.bar2 = s.px.bar2 ∧ (bar2Tile u b.ptn b.tag tile stOK bytes ws).mem = u.mem := by
  have hf := filter_bar2Joined hu hn
  simp only [Bool.not_and] at hf
  unfold bar2Tile
  rw [find?_bar2Joined hu hn]
  simp [ha, hg, hl, sortBy, insBy, padTo_of_length hb, emit, hf]

end

abbrev bar2Parts : List Part := [.out, .regs, .mem, .fab, .px, .ctl, .mgt, .alm, .tel]

/-- What a BAR2 request of this device's memory meets before its first tile. -/
structure Bar2Local (s : State) (p tag off right len a : Nat) : Prop where
  opened : bar2Open s p = true
  addr : bar2Addr s p off = some a
  granted : (window s p right a len).isNone = false
  fresh : ∀ b ∈ s.px.bar2, ¬(b.ptn = p ∧ b.tag = tag)
  mine : a / 2 ^ 48 = myDev s
  device : a % 2 ^ 48 < 2 ^ 47

theorem execBar2Read_local {p tag off len a : Nat} {s : State} (h : Bar2Local s p tag off 0 len a) (hl : 1 ≤ len) (hp : a % 4096 + len ≤ 4096) :
    execBar2Read p tag off len s = .next (bar2ReadTile (bar2Joined s { ptn := p, tag := tag, addr := a, len := len }) p tag (a / 4096)) := by
  have hm : Nat.max 1 len = len := Nat.max_eq_right hl
  have ht : (a + len - 1) / 4096 - a / 4096 + 1 = 1 := by omega
  simp [execBar2Read, h.opened, h.addr, hm, h.granted, ht, bar2Joined]

theorem bar2ReadTile_local {s : State} {p tag a : Nat} (hm : a / 2 ^ 48 = myDev s) (hd : a % 2 ^ 48 < 2 ^ 47)
    (hs : tierStatus s p (a % 2 ^ 48 / 4096 * 4096) = 0) : bar2ReadTile s p tag (a / 4096) =
      if windowHolds s (a % 2 ^ 48 / 4096) 1 then s
      else bar2Tile (touched s p (a % 2 ^ 48 / 4096) false) p tag (a / 4096) stOK
        (tierView s (a % 2 ^ 48 / 4096 * 4096) 4096) (tierPoison s (a % 2 ^ 48 / 4096 * 4096) 4096) := by
  have h₁ : a / 4096 * 4096 / 2 ^ 48 = a / 2 ^ 48 := by omega
  have h₂ : a / 4096 * 4096 % 2 ^ 48 = a % 2 ^ 48 / 4096 * 4096 := by omega
  have h₃ : a % 2 ^ 48 / 4096 * 4096 < 2 ^ 47 := by omega
  simp only [bar2ReadTile, h₁, h₂, h₃, hm, hs, Nat.mul_div_cancel _ (Nat.succ_pos 4095)]
  simp [touched]

theorem bar2Read_local {p tag off len a : Nat} {s : State} (h : Bar2Local s p tag off 0 len a) (hl : 1 ≤ len) (hp : a % 4096 + len ≤ 4096)
    (hs : tierStatus s p (a % 2 ^ 48 / 4096 * 4096) = 0) :
    (windowHolds s (a % 2 ^ 48 / 4096) 1 = true → Does (.bar2Read p tag off len) s [.px] fun t =>
      t.px.bar2 = s.px.bar2 ++ [{ ptn := p, tag := tag, addr := a, len := len }]) ∧
    (windowHolds s (a % 2 ^ 48 / 4096) 1 = false → Does (.bar2Read p tag off len) s bar2Parts fun t =>
      (∃ f, t.out = s.out ++ [.bar2 p tag 0 (bytesAt (tierView s (a % 2 ^ 48 / 4096 * 4096) 4096) (a % 4096) len) f]) ∧
      t.px.bar2 = s.px.bar2 ∧ ∀ d n, tierRead t d n = tierRead s d n) := by
  have he := execBar2Read_local h hl hp
  rw [bar2ReadTile_local (s := bar2Joined s { ptn := p, tag := tag, addr := a, len := len }) h.mine h.device hs] at he
  refine ⟨fun hw => ?_, fun hw => ?_⟩
  · refine .of_within (he.trans (congrArg _ (if_pos hw))) rfl (modPx_only (.refl _ s) (List.Subset.refl _))
  · have he' := he.trans (congrArg _ (if_neg (by rw [Bool.not_eq_true]; exact hw)))
    refine .of_only he' (execBar2Read_only (.refl _ s) (List.Subset.refl _)) ?_
    obtain ⟨⟨f, ho⟩, hb, hm⟩ := bar2Tile_read (u := touched (bar2Joined s { ptn := p, tag := tag, addr := a, len := len }) p (a % 2 ^ 48 / 4096) false)
      (touched_px ..) h.fresh rfl rfl (by simp only; omega) (a / 4096) (length_tierView ..) (tierPoison _ _ _)
    refine ⟨⟨f, ho.trans ?_⟩, hb, tierRead_of_bytes ?_⟩
    · rw [touched_out]
      rfl
    · exact (congrArg Mem.bytes hm).trans (touched_bytes ..)

theorem execBar2Atomic_local {p tag off op a : Nat} {data : List Byte} {s : State} (h : Bar2Local s p tag off 2 (atomicWidth op) a)
    (ho : isAtomic op = true) (hl : (if isCas op then 2 * atomicWidth op else atomicWidth op) = data.length) :
    execBar2Atomic p tag off op data s = .next (bar2AtomicHere
      (bar2Joined s { ptn := p, tag := tag, addr := a, len := data.length, atomic := true, op := op, data := data }) p tag (a % 2 ^ 48) op data) := by
  have hop : op ≠ 0x4F := by
    have := isAtomic_range ho
    omega
  have hm : a / 281474976710656 = myDev s := h.mine
  have hd : a % 281474976710656 < 140737488355328 := h.device
  simp only [execBar2Atomic, ho, hop, h.opened, h.addr, h.granted, hl, List.take_length, padTo_of_length, bar2Joined]
  simp [hm, hd.not_ge]

theorem bar2AtomicHere_of {s : State} {p tag d op : Nat} {ops : List Byte} (hw : d % atomicWidth op = 0) (hs : tierStatus s p d = 0) :
    bar2AtomicHere s p tag d op ops = if windowHolds s (d / 4096) 1 then s
      else bar2Tile (atomicOp s (some p) op d ops).1 p tag 0 stOK (tierRead s d (atomicWidth op)) (atomicOp s (some p) op d ops).2.2 := by
  simp [bar2AtomicHere, hw, hs, atomicOp]

theorem bar2Atomic_local {p tag off op a : Nat} {data : List Byte} {s : State} (h : Bar2Local s p tag off 2 (atomicWidth op) a)
    (ho : isAtomic op = true) (hw : a % 2 ^ 48 % atomicWidth op = 0) (hs : tierStatus s p (a % 2 ^ 48) = 0)
    (hl : (if isCas op then 2 * atomicWidth op else atomicWidth op) = data.length) :
    (windowHolds s (a % 2 ^ 48 / 4096) 1 = true → Does (.bar2Atomic p tag off op data) s [.px] fun t =>
      t.px.bar2 = s.px.bar2 ++ [{ ptn := p, tag := tag, addr := a, len := data.length, atomic := true, op := op, data := data }]) ∧
    (windowHolds s (a % 2 ^ 48 / 4096) 1 = false → Does (.bar2Atomic p tag off op data) s bar2Parts fun t =>
      (∃ f, t.out = s.out ++ [.bar2 p tag 0 (tierRead s (a % 2 ^ 48) (atomicWidth op)) f]) ∧ t.px.bar2 = s.px.bar2 ∧
      tierRead t (a % 2 ^ 48) (atomicWidth op) =
        leBytes (atomicWidth op) (atomicResult op (leNat (tierRead s (a % 2 ^ 48) (atomicWidth op))) data)) := by
  have he := execBar2Atomic_local h ho hl
  rw [bar2AtomicHere_of (s := bar2Joined s _) hw hs] at he
  refine ⟨fun hh => ?_, fun hh => ?_⟩
  · exact .of_within (he.trans (congrArg _ (if_pos hh))) rfl (modPx_only (.refl _ s) (List.Subset.refl _))
  · have he' := he.trans (congrArg _ (if_neg (by rw [Bool.not_eq_true]; exact hh)))
    refine .of_only he' (execBar2Atomic_only (.refl _ s) (List.Subset.refl _)) ?_
    obtain ⟨ht, hb, hm⟩ := bar2Tile_atomic (atomicOp_px (bar2Joined s
      { ptn := p, tag := tag, addr := a, len := data.length, atomic := true, op := op, data := data }) (some p) op (a % 2 ^ 48) data) h.fresh rfl 0
      (tierRead s (a % 2 ^ 48) (atomicWidth op)) (atomicOp (bar2Joined s _) (some p) op (a % 2 ^ 48) data).2.2
    exact ⟨⟨_, ht.trans (congrArg (· ++ _) (atomicOp_out ..))⟩, hb, tierRead_of_atomicOp (s := bar2Joined s _) (congrArg Mem.bytes hm)⟩

/-! ### Requests that are not carried out (R686, R691, R788) -/

theorem execBar2Read_closed {p : Nat} {s : State} (h : bar2Open s p = false) (tag off len : Nat) :
    execBar2Read p tag off len s = .next (bar2Refuse s p tag false) := by simp [execBar2Read, h]

theorem execBar2Read_unmapped {p off : Nat} {s : State} (h : bar2Open s p = true) (ha : bar2Addr s p off = none) (tag len : Nat) :
    execBar2Read p tag off len s = .next (bar2Refuse s p tag true) := by simp [execBar2Read, h, ha]

theorem execBar2Atomic_closed {p op : Nat} {s : State} (h : bar2Open s p = false) (ho : isAtomic op = true) (tag off : Nat) (data : List Byte) :
    execBar2Atomic p tag off op data s = .next (bar2Refuse s p tag false) := by
  have := isAtomic_range ho
  simp [execBar2Atomic, h, ho, show op ≠ 0x4F by omega]

theorem execBar2Atomic_unmapped {p op off : Nat} {s : State} (h : bar2Open s p = true) (ha : bar2Addr s p off = none) (ho : isAtomic op = true)
    (tag : Nat) (data : List Byte) : execBar2Atomic p tag off op data s = .next (bar2Refuse s p tag true) := by
  have := isAtomic_range ho
  simp [execBar2Atomic, h, ha, ho, show op ≠ 0x4F by omega]

theorem halted_of_bar2Open {s : State} {p : Nat} (h : bar2Open s p = true) : halted s = false := by
  simp only [bar2Open, Bool.and_eq_true, Bool.not_eq_true'] at h
  exact h.2

/-- A refusal that is counted is answered with Unsupported Request (R691). -/
theorem bar2Refuse_counted {s : State} {p : Nat} (h : bar2Open s p = true) (tag : Nat) :
    (bar2Refuse s p tag true).out = s.out ++ [.bar2 p tag 1 [] false] ∧
    odGet (bar2Refuse s p tag true) (0x9200 + p) 4 = sat 0xFFFFFFFF (odGet s (0x9200 + p) 4 + 1) := by
  refine ⟨?_, odGet_odSet_same ..⟩
  have hr : (bar2Refuse s p tag true).out = (countAccess s p).out ++ [.bar2 p tag (if halted s then 4 else 1) [] false] := rfl
  rw [hr, halted_of_bar2Open h, countAccess, odCount_out]
  rfl

/-! ### Compositions and links -/

theorem cnt_cntSet_same (m : List (Nat × Nat)) (k v : Nat) : cnt (cntSet m k v) k = v := sget_sset_same _ _ _ _

theorem cnt_cntSet_other (m : List (Nat × Nat)) {j k : Nat} (v : Nat) (h : j ≠ k) : cnt (cntSet m k v) j = cnt m j := sget_sset_other _ _ _ h


theorem compOf_modComp_same {s : State} {p : Nat} {f : Comp → Comp} (hs : s.shaped = true) (hp : p < 32) : compOf (modComp s p f) p = f (compOf s p) := by
  obtain ⟨-, -, -, -, -, ⟨-, hc⟩, -⟩ := shaped_iff.mp hs
  exact getD_modAt_same (hc ▸ hp)

theorem compOf_modComp_other {s : State} {p q : Nat} {f : Comp → Comp} (h : q ≠ p) : compOf (modComp s p f) q = compOf s q := getD_modAt_other h

theorem pxLink_modPxLink_same {s : State} {l : Nat} {f : PxLink → PxLink} (hs : s.shaped = true) (hl : l < 12) :
    pxLink (modPxLink s l f) l = f (pxLink s l) := by
  obtain ⟨-, -, -, -, -, ⟨hc, -⟩, -⟩ := shaped_iff.mp hs
  exact getD_modAt_same (hc ▸ hl)

theorem pxLink_modPxLink_other {s : State} {l k : Nat} {f : PxLink → PxLink} (h : k ≠ l) : pxLink (modPxLink s l f) k = pxLink s k := getD_modAt_other h

theorem pxLink_of_px {s t : State} (h : t.px = s.px) (l : Nat) : pxLink t l = pxLink s l := by simp only [pxLink, h]

@[simp] theorem drainLink_px (s : State) (l : Nat) : (drainLink s l).px = s.px :=
  (drainLink_only (.refl _ s) (List.Subset.refl _)).only.keeps .px (by decide)

/-- A stream that fails its integrity is found where it was, out of the secure state (R695). -/
theorem find?_ide_failed {l : List IdeStream} {id : Nat} {i : IdeStream} (h : l.find? (·.id == id) = some i) :
    (updIf (·.id == id) (fun i => { i with secure := false }) l).find? (·.id == id) = some { i with secure := false } := by
  have hf : ∀ x : IdeStream, (x.id == id) = true → ({ x with secure := false }.id == id) = true := fun _ hx => hx
  rw [find?_updIf_self hf, h]
  rfl

/-- A bound link that has gone down under its device: the event of the link, and the slot's to the host (R700, R728). -/
def surpriseRemoved (s : State) (l p v : Nat) : State :=
  emit (linkEvent (modPxLink s l fun k => { k with up := false }) l) (.slot (cmpUlink (compOf s p).cfg) v 1)

theorem pxLink_surpriseRemoved {l : Nat} {s : State} (hl : l < 12) (hs : s.shaped = true) (p v : Nat) :
    pxLink (surpriseRemoved s l p v) l = { pxLink s l with up := false } :=
  (pxLink_of_px (linkEvent_px ..) l).trans (pxLink_modPxLink_same hs hl)

theorem slot_mem_surpriseRemoved (s : State) (l p v : Nat) : Out.slot (cmpUlink (compOf s p).cfg) v 1 ∈ (surpriseRemoved s l p v).out :=
  List.mem_append_right _ (List.mem_singleton_self _)

theorem execDlinkDown_bound {l p v : Nat} {s : State} (hb : heldBy s l = some (p, v)) (hu : (pxLink s l).up = true) :
    execDlinkDown l s = .next (pxEvent (surpriseRemoved s l p v) 3 [p, l, 2]) := by
  simp [execDlinkDown, hb, hu, surpriseRemoved]

theorem dlinkDown_spec {l p v : Nat} {s : State} (hl : l < 12) (hs : s.shaped = true) (hb : heldBy s l = some (p, v)) (hu : (pxLink s l).up = true) :
    Does (.dlinkDown l) s [.out, .regs, .px, .ctl, .mgt, .alm, .tel] fun t =>
      pxLink t l = { pxLink s l with up := false } ∧ Out.slot (cmpUlink (compOf s p).cfg) v 1 ∈ t.out :=
  .of_only (execDlinkDown_bound hb hu) (execDlinkDown_only (.refl _ s) (List.Subset.refl _))
    ⟨(pxLink_of_px (pxEvent_px ..) l).trans (pxLink_surpriseRemoved hl hs p v), slot_mem_pxEvent 3 [p, l, 2] (slot_mem_surpriseRemoved s l p v)⟩

theorem pcieLinkDown_spec {l : Nat} {s : State} (hl : l < 12) (hs : s.shaped = true) (hu : (pxLink s l).up = true) (hb : heldBy s l = none) :
    Does (.pcieLinkDown l) s [.out, .regs, .px, .ctl, .mgt, .alm, .tel] fun t => pxLink t l = { pxLink s l with up := false } := by
  have he : execPcieLinkDown l s = .next (linkEvent (modPxLink s l fun l => { l with up := false }) l) := by simp [execPcieLinkDown, hb, hu]
  exact .of_only he (execPcieLinkDown_only (.refl _ s) (List.Subset.refl _))
    ((pxLink_of_px (linkEvent_px ..) l).trans (pxLink_modPxLink_same hs hl))

/-- A link that has come up: what was held while it was down has gone (R690, R728). -/
def linkRisen (s : State) (l rate width : Nat) : State :=
  drainLink (modPxLink s l fun k => { k with up := true, rate := rate % 8, width := width % 32 }) l

/-- A bound device is shown again on its vDSP (R724). -/
def slotShown (s : State) (u : State) (l : Nat) : State :=
  match heldBy s l with
  | some (p, v) => emit u (.slot (cmpUlink (compOf s p).cfg) v 0)
  | none => u

theorem slotShown_px (s u : State) (l : Nat) : (slotShown s u l).px = u.px := by
  unfold slotShown
  split <;> rfl

theorem pcieLinkUp_spec {l rate width : Nat} {s : State} (hl : l < 12) (hs : s.shaped = true) (hu : (pxLink s l).up = false)
    (hr : (pxLink s l).role ≠ 0) : Does (.pcieLinkUp l rate width) s [.out, .regs, .serve, .px, .ctl, .mgt, .alm, .tel] fun t =>
      pxLink t l = { pxLink s l with up := true, rate := rate % 8, width := width % 32 } ∧
      ∀ p v, heldBy s l = some (p, v) → Out.slot (cmpUlink (compOf s p).cfg) v 0 ∈ t.out := by
  have he : execPcieLinkUp l rate width s = .next (linkEvent (slotShown s (linkRisen s l rate width) l) l) := by
    simp only [execPcieLinkUp, hu, Bool.false_or, beq_iff_eq, hr, if_false]
    rfl
  refine .of_only he (execPcieLinkUp_only (.refl _ s) (List.Subset.refl _)) ⟨?_, fun p v h => slot_mem_pxEvent 1 _ ?_⟩
  · exact (pxLink_of_px ((linkEvent_px ..).trans ((slotShown_px ..).trans (drainLink_px ..))) l).trans (pxLink_modPxLink_same hs hl)
  · rw [slotShown, h]
    exact List.mem_append_right _ (List.mem_singleton_self _)

/-- Where a request of a link bound to composition `p` may go: to the host, the composition's VF or one of its vDSPs (R701). -/
def dlinkReaches (s : State) (p : Nat) : DlinkTarget → Bool
  | .host => true
  | .pf => false
  | .vf n => n == cmpVf (compOf s p).cfg + 1
  | .vdsp n => s.px.links.any fun l => l.bound == some (p, n)

theorem execDlinkRequest_bound {l p v : Nat} {s : State} (h : heldBy s l = some (p, v)) (target : DlinkTarget) : execDlinkRequest l target s =
    .next (if dlinkReaches s p target then s else s.modPx fun x => { x with acsRefused := x.acsRefused + 1 }) := by
  simp only [execDlinkRequest, h]
  cases target <;> rfl

theorem dlinkRequest_routed {l p v : Nat} {s : State} (h : heldBy s l = some (p, v)) {target : DlinkTarget} (ht : dlinkReaches s p target = true) :
    Does (.dlinkRequest l target) s [] fun t => t = s :=
  .of_same ((execDlinkRequest_bound h target).trans (congrArg _ (if_pos ht))) rfl

theorem dlinkRequest_refused {l p v : Nat} {s : State} (h : heldBy s l = some (p, v)) {target : DlinkTarget} (ht : dlinkReaches s p target = false) :
    Does (.dlinkRequest l target) s [.px] fun t => t.px = { s.px with acsRefused := s.px.acsRefused + 1 } :=
  .of_within ((execDlinkRequest_bound h target).trans (congrArg _ (if_neg (by rw [ht]; exact Bool.false_ne_true)))) rfl
    (modPx_only (.refl _ s) (List.Subset.refl _))

end Sys2Proof.Machine
open Sys2Proof Sys2Proof.Machine

/-- Settles O51: a request on BAR2 is carried out on the tile, held by its window or refused; the other commands change their entry alone,
and what goes out to a slot stays out through the events that follow. -/
theorem pcieCommands : Obligations.PcieCommands := by
  refine ⟨fun p tag off len a w s ho ha hw hl hp hm hd hs hn => ?_, fun p tag off op data a w s hop ho ha hw hm hd h0 hs hn hl => ?_,
    fun p tag off s h => ⟨fun len => ?_, fun op data hop => ?_⟩, fun p tag off s h ha => ⟨fun len => ?_, fun op data hop => ?_⟩,
    fun p s => ?_, fun l s => ?_, fun id l fn s hn hr => ?_, fun id l fn s h => ?_, fun id c i s h => ?_, fun id c s h => ?_, fun p s hp hs => ?_,
    fun p s h => ?_, fun p s h => ?_, fun l s hl hs hr => ?_, fun l s h => ?_, fun l p v s hl hs hb hu => dlinkDown_spec hl hs hb hu, fun l s h => ?_,
    fun l p v s h => ?_, fun l s hl hs hu hb => pcieLinkDown_spec hl hs hu hb, fun l rate width s hl hs hu hr => pcieLinkUp_spec hl hs hu hr,
    fun l rate width s h => ?_⟩
  · exact bar2Read_local ⟨ho, ha, by rw [hw]; rfl, hn, hm, hd⟩ hl hp hs
  · exact bar2Atomic_local ⟨ho, ha, by rw [hw]; rfl, hn, hm, hd⟩ hop h0 hs hl
  · exact .of_within (execBar2Read_closed h ..) rfl (emit_only (.refl _ s) (List.Subset.refl _))
  · exact .of_within (execBar2Atomic_closed h hop ..) rfl (emit_only (.refl _ s) (List.Subset.refl _))
  · exact .of_within (execBar2Read_unmapped h ha ..) (bar2Refuse_counted h tag) (bar2Refuse_only (.refl _ s) (List.Subset.refl _))
  · exact .of_within (execBar2Atomic_unmapped h ha hop ..) (bar2Refuse_counted h tag) (bar2Refuse_only (.refl _ s) (List.Subset.refl _))
  · exact .of_only rfl (execBar2Write_only (.refl _ s) (List.Subset.refl _))
      ⟨cnt_cntSet_same s.px.aer p (cnt s.px.aer p + 1), fun q hq => cnt_cntSet_other s.px.aer (cnt s.px.aer p + 1) hq⟩
  · exact .of_only rfl (execAtsInvalidate_only (.refl _ s) (List.Subset.refl _)) ⟨rfl, rfl⟩
  · have he : execIdeKmProgram id l fn s = .next (s.modPx fun x => { x with
        ide := s.px.ide.filter (·.id != id) ++ [{ id := id, link := l, fn := fn, secure := true }] }) := by
      simp [execIdeKmProgram, Nat.not_le.mpr hn, hr]
    exact .of_only he (execIdeKmProgram_only (.refl _ s) (List.Subset.refl _)) rfl
  · exact .of_same (by simpa [execIdeKmProgram] using fun h₁ h₂ => absurd h (by omega)) rfl
  · refine .of_only (c := .ideIntegrityFail id c) (by rw [exec_ideIntegrityFail, execIdeIntegrityFail, h])
      (execIdeIntegrityFail_only (.refl _ s) (List.Subset.refl _)) ?_
    rw [pxEvent_px]
    exact congrArg (Option.map _) (find?_ide_failed h)
  · have hn : s.px.ide.find? (·.id == id) = none := by simpa using h
    exact .of_same (by rw [exec_ideIntegrityFail, execIdeIntegrityFail, hn]) rfl
  · refine ⟨fun hv ht hi => ?_, fun ht => ?_, ?_⟩
    · have he : execTdispLockInterface p s = .next (modComp s p fun c => { c with tdi := 1 }) := by
        simp [execTdispLockInterface, hv, ht, hi, and_assoc]
      exact .of_only he (execTdispLockInterface_only (.refl _ s) (List.Subset.refl _)) (compOf_modComp_same hs hp)
    · have he : execTdispStartInterface p s = .next (modComp s p fun c => { c with tdi := 2 }) := by simp [execTdispStartInterface, ht]
      exact .of_only he (execTdispStartInterface_only (.refl _ s) (List.Subset.refl _)) (compOf_modComp_same hs hp)
    · exact .of_only rfl (execTdispStopInterface_only (.refl _ s) (List.Subset.refl _))
        ⟨compOf_modComp_same hs hp, fun q hq => compOf_modComp_other hq⟩
  · refine .of_same ?_ rfl
    rw [exec_tdispLockInterface, execTdispLockInterface]
    rcases h with h | h | h <;> simp_all
  · exact .of_same (by simp [execTdispStartInterface, h]) rfl
  · refine ⟨?_, fun hf => ?_⟩
    · have he : execSlotPowerOff l s = .next (modPxLink s l fun l => { l with toFree := true }) := by simp [execSlotPowerOff, hr]
      exact .of_only he (execSlotPowerOff_only (.refl _ s) (List.Subset.refl _))
        ⟨pxLink_modPxLink_same hs hl, fun k hk => pxLink_modPxLink_other hk⟩
    · have he : execReleaseGraceExpiry l s = .next (modPxLink s l fun l => { l with toFree := true, grace := true }) := by
        simp [execReleaseGraceExpiry, hr, hf]
      exact .of_only he (execReleaseGraceExpiry_only (.refl _ s) (List.Subset.refl _)) (pxLink_modPxLink_same hs hl)
  · exact ⟨.of_same (by simp [execSlotPowerOff, h]) rfl, .of_same (by simp [execReleaseGraceExpiry, h]) rfl⟩
  · refine .of_same ?_ rfl
    rw [exec_dlinkDown, execDlinkDown]
    rcases h with h | h
    · rw [h]
    · simp only [h, Bool.not_false, if_true]
      split <;> rfl
  · exact ⟨dlinkRequest_routed h rfl, dlinkRequest_routed h (beq_self_eq_true _), dlinkRequest_refused h rfl,
      fun n hn => dlinkRequest_refused h (beq_false_of_ne hn), fun n hn => dlinkRequest_refused h (by simpa [dlinkReaches] using hn)⟩
  · exact .of_same (by rcases h with h | h <;> simp [execPcieLinkUp, h]) rfl
end

section
/-! PROOFS. Obligation O23: mover entries, write-back, eviction and ageing (R94, R101, R127, R132, R360, R387, R389, R438). -/

namespace Sys2Proof.Machine
open Sys2Proof

/-! ### Transfers that are only added

What prepares a mover entry adds transfers behind those that wait and touches no request. -/

structure Queued (s t : State) : Prop where
  xfers : s.serve.xfers <+: t.serve.xfers
  reqs : t.serve.reqs = s.serve.reqs

theorem Queued.refl (s : State) : Queued s s := ⟨List.prefix_rfl, rfl⟩

theorem Queued.trans {s t u : State} (h : Queued s t) (k : Queued t u) : Queued s u := ⟨h.xfers.trans k.xfers, k.reqs.trans h.reqs⟩

theorem Queued.of_eq {s t : State} (hx : t.serve.xfers = s.serve.xfers) (hr : t.serve.reqs = s.serve.reqs) : Queued s t := ⟨by rw [hx], hr⟩

theorem Queued.foldl {α : Type} {f : State → α → State} (h : ∀ s a, Queued s (f s a)) (l : List α) (s : State) : Queued s (l.foldl f s) := by
  induction l generalizing s with
  | nil => exact .refl s
  | cons a r ih => exact (h s a).trans (ih _)

theorem queued_addXfer (s : State) (ptn kind tiles : Nat) (what : XferWhat) : Queued s (addXfer s ptn kind tiles what) :=
  ⟨List.prefix_append .., rfl⟩

theorem queued_startEviction (s : State) (p : Nat) : Queued s (startEviction s p) := by
  unfold startEviction
  split
  · exact .refl s
  · exact .of_eq rfl rfl

theorem queued_nearLow (s : State) (p : Nat) : Queued s (nearLow s p) := by
  unfold nearLow
  split
  · exact queued_startEviction s p
  · exact .refl s

/-- Taking victims adds evictions, and ends the partition's eviction where none is left to take (R389, R390). -/
theorem takeVictims_induct {P : State → Prop} {p : Nat} (he : ∀ u, P u → P (u.modServe fun w => { w with evicting := w.evicting.filter (· != p) }))
    (hv : ∀ u g, P u → P (evictPage u g 0xFFFFFFFF)) : ∀ (fuel : Nat) {s : State}, P s → P (takeVictims s p fuel)
  | 0, _, h => h
  | fuel + 1, s, h => by
    unfold takeVictims
    split
    · exact h
    · split
      · exact he s h
      · extract_lets busy cs going stop
        have hstop : P stop := by
          simp only [stop]
          split
          · exact h
          · exact he s h
        split
        · exact hstop
        · split
          · exact hstop
          · exact takeVictims_induct he hv fuel (hv _ _ h)

theorem queued_takeVictims (s : State) (p fuel : Nat) : Queued s (takeVictims s p fuel) :=
  takeVictims_induct (P := Queued s) (fun _ h => h.trans (.of_eq rfl rfl)) (fun _ _ h => h.trans (queued_addXfer ..)) fuel (.refl s)

theorem takeVictims_pages (s : State) (p fuel : Nat) : (takeVictims s p fuel).serve.pages = s.serve.pages :=
  takeVictims_induct (P := fun u => u.serve.pages = s.serve.pages) (fun _ h => h) (fun _ _ h => h) fuel rfl

theorem queued_makeRoom (s : State) (cs : List Nat) (keep : Nat) : Queued s (makeRoom s cs keep) := by
  unfold makeRoom
  extract_lets here clean
  clear_value clean
  cases clean <;> exact .of_eq rfl rfl

theorem queued_wantLoad (s : State) (cs : List Nat) (g : Page) : Queued s (wantLoad s cs g) := by
  unfold wantLoad
  split
  · exact .refl s
  · split
    · exact queued_addXfer ..
    · exact queued_makeRoom ..

theorem queued_stageAhead (s : State) (p after : Nat) : Queued s (stageAhead s p after) := by
  unfold stageAhead
  extract_lets needs
  exact .foldl (fun s cls => .foldl (fun s x => .foldl (fun s g => queued_wantLoad ..) _ s) _ s) _ s

/-! ### A partition's DMA (R690) -/

theorem ringDrain_movers (s : State) (ring : Nat) :
    (ringDrain s ring).serve.xfers = s.serve.xfers ∧ (ringDrain s ring).serve.pages = s.serve.pages := by
  unfold ringDrain
  extract_lets ws s₀
  have h := foldl_keep State.serve (fun s w =>
    if ringHeld s ring || ringWaits s ring != 0 || ringFree s ring < recEntries w.2 then s.modRegs fun g => { g with waiting := g.waiting ++ [w] }
    else ringPut s ring w.2) (fun s w => by split <;> simp) ws s₀
  simp only [sweepReqs, State.modServe_serve, h]
  exact ⟨rfl, rfl⟩

theorem drainDma_movers (s : State) (p : Nat) :
    (drainDma s p).serve.xfers = s.serve.xfers ∧ (drainDma s p).serve.pages = s.serve.pages := by
  unfold drainDma
  split
  · exact ⟨rfl, rfl⟩
  · extract_lets mine s₁
    have hs : s₁.serve = s.serve := foldl_keep State.serve _ (fun s w => by simp [hostPut]) _ _
    rw [foldl_keep (fun s => s.serve.xfers) ringDrain (fun s r => (ringDrain_movers s r).1),
      foldl_keep (fun s => s.serve.pages) ringDrain (fun s r => (ringDrain_movers s r).2), hs]
    exact ⟨rfl, rfl⟩

/-! ### Mover entries (R94, R127, R132, R360) -/

/-- Moves of other partitions stay where they are. -/
theorem progressPtn_of_none {s : State} {p : Nat} (h : ∀ m ∈ s.serve.moves, m.ptn ≠ p) : progressPtn s p = s := by
  have hf : s.serve.moves.filter (·.ptn == p) = [] := by simpa [List.filter_eq_nil_iff] using h
  simp [progressPtn, hf]

theorem startXfers_unlimited (n tiles : Nat) (l : List Xfer) : startXfers 0 0 n tiles l = l.map (·.id) := by
  induction l generalizing n tiles with
  | nil => rfl
  | cons x r ih => simp [startXfers, ih]

/-- What an entry of near to far finds to do: victims of an eviction that its partition needs, and loads ahead of its slots (R244, R389). -/
def moverPrepared (s : State) (e : Entry) : State :=
  if e.action % 4 = 0 then stageAhead (takeVictims (nearLow s e.ptn) e.ptn s.serve.pages.length) e.ptn e.start else s

/-- The transfers that an entry without limits starts. -/
def moverIds (s : State) (e : Entry) : List Nat :=
  let ws := s.serve.xfers.filter fun x => x.ptn == e.ptn && x.kind == e.action % 4 && !x.running && !x.coding
  (ws.filter isWriteback ++ ws.filter fun x => !isWriteback x).map (·.id)

def moverStarted (s : State) (e : Entry) : State :=
  s.modServe fun w => { w with xfers := updIf (fun x => (moverIds s e).contains x.id) (fun x => { x with running := true, stuck := none }) w.xfers }

/-- The end of an entry's start: in a PCIe entry the partition's DMA runs (R690). -/
def moverOpened (s : State) (sec ent : Nat) (e : Entry) : State :=
  if e.action % 4 = 3 then drainDma (s.modEph fun x => { x with pcie := x.pcie ++ [(sec, ent, e.ptn)] }) e.ptn else s

theorem execMoverEntryStart_of {sec ent : Nat} {e : Entry} {s : State} (he : entryNow s sec ent = some e) (hc : e.cls = 0x18)
    (hi : isolated s e.ptn = false) (hr : runsEmpty s e.ptn = false) (ha : e.capA = 0) (hb : e.capB = 0) (hm : ∀ m ∈ s.serve.moves, m.ptn ≠ e.ptn) :
    execMoverEntryStart sec ent s = .next (moverOpened (moverStarted (moverPrepared s e) e) sec ent e) := by
  simp only [execMoverEntryStart, he, hc, hi, hr, ha, hb, progressPtn_of_none hm, startXfers_unlimited]
  rfl

theorem execMoverEntryStart_idle {sec ent : Nat} {e : Entry} {s : State} (he : entryNow s sec ent = some e)
    (h : e.cls ≠ 0x18 ∨ isolated s e.ptn = true ∨ runsEmpty s e.ptn = true) : execMoverEntryStart sec ent s = .next s := by
  rcases h with h | h | h <;> simp [execMoverEntryStart, he, h]

theorem queued_moverPrepared (s : State) (e : Entry) : Queued s (moverPrepared s e) := by
  unfold moverPrepared
  split
  · exact ((queued_nearLow ..).trans (queued_takeVictims ..)).trans (queued_stageAhead ..)
  · exact .refl s

theorem moverPrepared_only (s : State) (e : Entry) : Within [.serve] s (moverPrepared s e) := by
  unfold moverPrepared
  split
  · exact stageAhead_only (takeVictims_only (nearLow_only (.refl _ s) (List.Subset.refl _)) (List.Subset.refl _)) (List.Subset.refl _)
  · exact .refl _ s

/-- Every transfer of the entry's kind and partition that is not being coded runs. -/
theorem running_of_moverStarted {s : State} {e : Entry} {x : Xfer} (hx : x ∈ (moverStarted s e).serve.xfers) (hp : x.ptn = e.ptn)
    (hk : x.kind = e.action % 4) (hc : x.coding = false) : x.running = true := by
  obtain ⟨y, hy, rfl⟩ := List.mem_map.mp hx
  by_cases hi : y.id ∈ moverIds s e
  · simp [hi]
  · simp only [List.contains_eq_mem, hi, decide_false, Bool.false_eq_true, if_false] at hp hk hc ⊢
    by_contra hr
    refine hi (List.mem_map.mpr ⟨y, ?_, rfl⟩)
    rw [Bool.not_eq_true] at hr
    cases hb : isWriteback y <;> simp [List.mem_filter, hy, hp, hk, hc, hr, hb]

/-- A started transfer is the one that waited. -/
theorem mem_moverStarted {s : State} {e : Entry} {x : Xfer} (hx : x ∈ s.serve.xfers) :
    ∃ y ∈ (moverStarted s e).serve.xfers, y.id = x.id ∧ y.what = x.what := by
  refine ⟨_, List.mem_map_of_mem hx, ?_⟩
  split <;> exact ⟨rfl, rfl⟩

theorem ids_moverStarted (s : State) (e : Entry) : (moverStarted s e).serve.xfers.map (·.id) = s.serve.xfers.map (·.id) := by
  simp only [moverStarted, State.modServe_serve, updIf, List.map_map]
  refine List.map_congr_left fun x _ => ?_
  simp only [Function.comp_apply]
  split <;> rfl

theorem moverOpened_movers (s : State) (sec ent : Nat) (e : Entry) :
    (moverOpened s sec ent e).serve.xfers = s.serve.xfers ∧ (moverOpened s sec ent e).serve.pages = s.serve.pages := by
  unfold moverOpened
  split
  · exact drainDma_movers ..
  · exact ⟨rfl, rfl⟩

theorem moverOpened_eph (s : State) (sec ent : Nat) (e : Entry) (h : e.action % 4 = 3) :
    (moverOpened s sec ent e).eph = { s.eph with pcie := s.eph.pcie ++ [(sec, ent, e.ptn)] } := by
  rw [moverOpened, if_pos h]
  exact (drainDma_only (.refl _ _) (List.Subset.refl _)).only.keeps .eph (by decide)

abbrev moverParts : List Part := [.out, .regs, .eph, .work, .mem, .serve, .tel]

theorem moverOpened_only {b u : State} {sec ent : Nat} {e : Entry} (h : Within moverParts b u) : Within moverParts b (moverOpened u sec ent e) := by
  unfold moverOpened
  split
  · exact drainDma_only (modEph_only h (by decide)) (by decide)
  · exact h

/-! ### Transfers taken out, and blocks written back (R438) -/

theorem dropXfer_xfers (s : State) (x : Nat) : (dropXfer s x).serve.xfers = s.serve.xfers.filter (·.id != x) :=
  foldl_keep (fun s => s.serve.xfers) (fun s n => tabRef s n false) (fun _ _ => rfl) _ _

theorem dropXfer_pages (s : State) (x : Nat) : (dropXfer s x).serve.pages = s.serve.pages :=
  foldl_keep (fun s => s.serve.pages) (fun s n => tabRef s n false) (fun _ _ => rfl) _ _

theorem dropXfer_moves (s : State) (x : Nat) : (dropXfer s x).serve.moves = s.serve.moves :=
  foldl_keep (fun s => s.serve.moves) (fun s n => tabRef s n false) (fun _ _ => rfl) _ _

theorem findXfer_of_dropped {s t : State} {x : Nat} (h : t.serve.xfers = (dropXfer s x).serve.xfers) : findXfer t x = none := by
  rw [findXfer, h, dropXfer_xfers, List.find?_eq_none]
  intro y hy
  simpa using (List.mem_filter.mp hy).2

theorem findPage_of_pages {s t : State} (h : t.serve.pages = s.serve.pages) (p n : Nat) : findPage t p n = findPage s p n := by
  simp only [findPage, h]

theorem findPage_modPage_same {s : State} {p n : Nat} {f : Page → Page} (hf : ∀ g, (f g).ptn = g.ptn ∧ (f g).num = g.num) :
    findPage (modPage s p n f) p n = (findPage s p n).map f :=
  find?_updIf_self (fun g hg => by rwa [(hf g).1, (hf g).2]) _

/-- What recomputing the lengths of a request leaves (R248, R251). -/
theorem recalc_movers (s : State) (h : Nat) : (recalc s h).serve.xfers = s.serve.xfers ∧ (recalc s h).serve.pages = s.serve.pages ∧
    (recalc s h).serve.moves = s.serve.moves := by
  unfold recalc
  split <;> exact ⟨rfl, rfl, rfl⟩

/-- The blocks of a write-back are counted, and put at their page's place in the Near tier. -/
def blocksWritten (s : State) (p : Nat) (bl : List Nat) (g : Page) (c b : Nat) : State :=
  bl.foldl (fun s k => tierWriteP s ((g.nearAddr + k) * 4096) (sramRead s (stageKey s c (b + k)) 4096) (sramPoison s (stageKey s c (b + k)) 4096))
    (bl.foldl (fun s k => telMem (countTile s (some p) (g.nearAddr + k) true) (tileRes s (g.nearAddr + k)) 11) s)

/-- A block that was committed again while it was written keeps DIRTY. -/
def Page.cleaned (g : Page) (bl again : List Nat) : Page := { g with dirty := g.dirty.filter fun k => !bl.contains k || again.contains k, marked := false }

def pageCleaned (s : State) (p num : Nat) (bl again : List Nat) : State := modPage s p num fun g => g.cleaned bl again

def lengthsRecomputed (s : State) (p num : Nat) (g : Page) : State :=
  match s.serve.reqs.find? fun r => r.ptn == p && r.pageNum g.layer g.position == some num with
  | some r => recalc s r.handle
  | none => s

theorem blocksWritten_serve (s : State) (p : Nat) (bl : List Nat) (g : Page) (c b : Nat) : (blocksWritten s p bl g c b).serve = s.serve := by
  rw [blocksWritten, foldl_keep State.serve _ (fun _ _ => (tierWriteP_only (.refl _ _) (List.Subset.refl _)).only.keeps .serve (by decide)),
    foldl_keep State.serve _ (fun _ _ => (telMem_only (countTile_only (.refl _ _) (List.Subset.refl _)) (List.Subset.refl _)).only.keeps .serve (by decide))]

theorem lengthsRecomputed_movers (s : State) (p num : Nat) (g : Page) : (lengthsRecomputed s p num g).serve.xfers = s.serve.xfers ∧
    (lengthsRecomputed s p num g).serve.pages = s.serve.pages ∧ (lengthsRecomputed s p num g).serve.moves = s.serve.moves := by
  unfold lengthsRecomputed
  split
  · exact recalc_movers ..
  · exact ⟨rfl, rfl, rfl⟩

def writtenBack (s : State) (xfer p num : Nat) (bl again : List Nat) (g : Page) (c b : Nat) : State :=
  lengthsRecomputed (pageCleaned (blocksWritten (dropXfer s xfer) p bl g c b) p num bl again) p num g

theorem findPage_pageCleaned {s : State} {p num : Nat} {g : Page} (h : findPage s p num = some g) (bl again : List Nat) :
    (findPage (pageCleaned s p num bl again) p num).map (fun g => (g.dirty, g.marked)) =
      some (g.dirty.filter (fun k => !bl.contains k || again.contains k), false) := by
  have hf (g : Page) : (g.cleaned bl again).ptn = g.ptn ∧ (g.cleaned bl again).num = g.num := ⟨rfl, rfl⟩
  rw [pageCleaned, findPage_modPage_same hf, h]
  rfl

section
variable (s : State) (xfer p num : Nat) (bl again : List Nat) (g : Page) (c b : Nat)

/-- A write-back leaves the transfers and the moves as taking it out left them. -/
theorem writtenBack_kept : (writtenBack s xfer p num bl again g c b).serve.xfers = (dropXfer s xfer).serve.xfers ∧
    (writtenBack s xfer p num bl again g c b).serve.moves = s.serve.moves := by
  have hs := blocksWritten_serve (dropXfer s xfer) p bl g c b
  obtain ⟨hx, -, hm⟩ := lengthsRecomputed_movers (pageCleaned (blocksWritten (dropXfer s xfer) p bl g c b) p num bl again) p num g
  refine ⟨hx.trans ?_, hm.trans ?_⟩
  · simp only [pageCleaned, modPage, State.modServe_serve, hs]
  · simp only [pageCleaned, modPage, State.modServe_serve, hs, dropXfer_moves]

theorem writtenBack_page {g : Page} (hg : findPage s p num = some g) :
    (findPage (writtenBack s xfer p num bl again g c b) p num).map (fun g => (g.dirty, g.marked)) =
      some (g.dirty.filter (fun k => !bl.contains k || again.contains k), false) := by
  have hs : (blocksWritten (dropXfer s xfer) p bl g c b).serve.pages = s.serve.pages :=
    (congrArg Serve.pages (blocksWritten_serve (dropXfer s xfer) p bl g c b)).trans (dropXfer_pages s xfer)
  rw [writtenBack, findPage_of_pages (lengthsRecomputed_movers ..).2.1]
  exact findPage_pageCleaned ((findPage_of_pages hs p num).trans hg) bl again

theorem writtenBack_only :
    Within [.mem, .serve, .tel] s (writtenBack s xfer p num bl again g c b) := by
  have hd : Within [.mem, .serve, .tel] s (dropXfer s xfer) := dropXfer_only (.refl _ s) (by decide)
  have hw : Within [.mem, .serve, .tel] s (blocksWritten (dropXfer s xfer) p bl g c b) :=
    foldl_only (foldl_only hd fun _ _ h => telMem_only (countTile_only h (by decide)) (by decide)) fun _ _ h => tierWriteP_only h (by decide)
  unfold writtenBack lengthsRecomputed
  split
  · exact recalc_only (modPage_only hw (by decide)) (by decide)
  · exact modPage_only hw (by decide)

end

theorem execWritebackDone_of {xfer p num c b : Nat} {x : Xfer} {bl again : List Nat} {g : Page} {s : State} (hx : findXfer s xfer = some x)
    (hw : x.what = .writeBack p num bl again) (hn : xferWaits s x = false) (hg : findPage s p num = some g) (hs : g.stage = some (c, b)) :
    execWritebackDone xfer s = .next (progressPtn (writtenBack s xfer p num bl again g c b) p) := by
  have hg' : findPage (dropXfer s xfer) p num = some g := (findPage_of_pages (dropXfer_pages ..) p num).trans hg
  simp only [execWritebackDone, hx, hw, hn, hg', hs]
  rfl

/-! ### Messages (R360, R364) -/

/-- A message that a mover has carried goes out, and a query that it carried is sent from now. -/
def messageCarried (s : State) (x : Xfer) (dev op : Nat) (m : StateMsg) : State :=
  (sendState (dropXfer s x.id) dev op m).modServe fun w => { w with
    queries := updIf (fun q => op == 0x10 && q.handle == m.srcHandle && q.qid == m.qid && q.group.holder == dev)
      (fun q => { q with sentAt := now s }) w.queries }

theorem execTierTransferDone_message {xfer dev op : Nat} {x : Xfer} {m : StateMsg} {s : State} (hx : findXfer s xfer = some x)
    (hr : x.running = true) (hw : x.what = .message dev op m) : execTierTransferDone xfer s = .next (messageCarried s x dev op m) := by
  have hn : xferWaits s x = false := by simp [xferWaits, hr, hw]
  simp only [execTierTransferDone, hx, hn, hw]
  rfl

theorem dropXfer_parts (s : State) (x : Nat) : (dropXfer s x).out = s.out ∧ (dropXfer s x).ctl = s.ctl ∧ (dropXfer s x).ptns = s.ptns := by
  have h := (dropXfer_only (x := x) (.refl _ s) (List.Subset.refl _)).only
  exact ⟨h.keeps .out (by decide), h.keeps .ctl (by decide), h.keeps .ptns (by decide)⟩

/-- A message of a partition that is not isolated goes out as it stood, from the state without its transfer. -/
theorem sendState_dropped {s : State} {m : StateMsg} (hi : isolated s m.srcPtn = false) (x dev op : Nat) : sendState (dropXfer s x) dev op m =
    emit (dropXfer s x) (.state dev op (stateClass s m.srcPtn op) (stateHeader op m) { m with items := m.body.length }) := by
  obtain ⟨-, hc, hp⟩ := dropXfer_parts s x
  have hi' : isolated (dropXfer s x) m.srcPtn = false := by simpa only [isolated, getPtn, hp] using hi
  have hs : stateClass (dropXfer s x) m.srcPtn op = stateClass s m.srcPtn op := odGet_of_ctl hc ..
  simp [sendState, hi', hs]

/-! ### Eviction (R389, R390) -/

theorem length_insBy {α : Type} (key : α → Nat) (x : α) (l : List α) : (insBy key x l).length = l.length + 1 := by
  induction l with
  | nil => rfl
  | cons y r ih =>
    rw [insBy]
    split <;> simp [ih]

theorem length_sortBy {α : Type} (key : α → Nat) (l : List α) : (sortBy key l).length = l.length := by
  suffices h : ∀ (l a : List α), (l.foldl (fun a x => insBy key x a) a).length = a.length + l.length by simpa [sortBy] using h l []
  intro l
  induction l with
  | nil => exact fun _ => rfl
  | cons x r ih => intro a; simp only [List.foldl_cons, ih, length_insBy, List.length_cons]; omega

/-- The first of a sorted list that is not empty is one of its elements. -/
theorem head?_sortBy {α : Type} (key : α → Nat) {l : List α} (h : l ≠ []) : ∃ y ∈ l, (sortBy key l).head? = some y := by
  cases hh : (sortBy key l).head? with
  | some y => exact ⟨y, mem_sortBy (List.mem_of_head? hh), rfl⟩
  | none =>
    have hl := length_sortBy key l
    rw [List.head?_eq_none_iff.mp hh] at hl
    exact absurd (List.eq_nil_of_length_eq_zero hl.symm) h

theorem sortBy_ne_nil {α : Type} (key : α → Nat) {l : List α} (h : l ≠ []) : sortBy key l ≠ [] := by
  obtain ⟨y, -, hy⟩ := head?_sortBy key h
  intro he
  simp [he] at hy

/-- An eviction that may start holds the partition, whether it had started or not. -/
theorem startEviction_of {s : State} {p : Nat} (hm : odGet s (0x9100 + p) 4 ≠ 1) (hf : ownFar s p ≠ []) :
    ∃ l, p ∈ l ∧ startEviction s p = s.modServe fun w => { w with evicting := l } := by
  have hf' : (ownFar s p).isEmpty = false := by simpa using hf
  by_cases hp : p ∈ s.serve.evicting
  · exact ⟨s.serve.evicting, hp, by rw [startEviction, if_pos (by simp [hp])]; rfl⟩
  · exact ⟨s.serve.evicting ++ [p], by simp, by rw [startEviction, if_neg (by simp [hm, hf', hp])]; rfl⟩

/-- With a candidate at hand and too little free space, the next victim is taken (R389). -/
theorem takeVictims_picks {s : State} {p fuel : Nat} {g : Page} (he : p ∈ s.serve.evicting) (hm : odGet s (0x9100 + p) 4 ≠ 1)
    (hx : ∀ x ∈ s.serve.xfers, ∀ n h, x.what ≠ .evict p n h) (hf : nearFree s p < odGet s (0x9180 + p) 3)
    (hg : g ∈ s.serve.pages) (hp : g.ptn = p) (hc : candidate g = true) :
    ∃ k ∈ s.serve.pages, k.ptn = p ∧ candidate k = true ∧ takeVictims s p (fuel + 1) = takeVictims (evictPage s k 0xFFFFFFFF) p fuel := by
  have hne : (s.serve.pages.filter fun g => g.ptn == p && candidate g) ≠ [] := List.ne_nil_of_mem (List.mem_filter.mpr ⟨hg, by simp [hp, hc]⟩)
  obtain ⟨k, hk, hh⟩ := head?_sortBy (·.heat) (sortBy_ne_nil (·.refcnt) (sortBy_ne_nil (·.num) hne))
  obtain ⟨hkm, hkp⟩ := List.mem_filter.mp (mem_sortBy (mem_sortBy hk))
  obtain ⟨hkp, hkc⟩ := Bool.and_eq_true_iff.mp hkp
  refine ⟨k, hkm, by simpa using hkp, hkc, ?_⟩
  rw [takeVictims, if_neg (by simp [he]), if_neg hm]
  extract_lets busy cs going stop
  have hb (g : Page) : busy g = false := by
    refine List.any_eq_false.mpr fun x hm => ?_
    split
    · next p' n h hw =>
      have hne : p' ≠ p := fun h' => hx x hm n h (h' ▸ hw)
      simp [hne]
    · simp
  have hcs : cs = s.serve.pages.filter fun g => g.ptn == p && candidate g := by simp only [cs, hb, Bool.not_false, Bool.and_true]
  rw [if_neg hf.not_ge, hcs, hh]

theorem evictionStart_spec {p : Nat} {g : Page} {s : State} (hm : odGet s (0x9100 + p) 4 ≠ 1) (ho : ownFar s p ≠ []) (hg : g ∈ s.serve.pages)
    (hp : g.ptn = p) (hc : candidate g = true) (hx : ∀ x ∈ s.serve.xfers, ∀ n h, x.what ≠ .evict p n h) (hf : nearFree s p < odGet s (0x9180 + p) 3) :
    Does (.evictionStart p) s [.serve] fun t => t.serve.pages = s.serve.pages ∧
      ∃ k ∈ s.serve.pages, k.ptn = p ∧ candidate k = true ∧ ∃ x ∈ t.serve.xfers, x.what = .evict p k.num 0xFFFFFFFF := by
  obtain ⟨l, hl, hs⟩ := startEviction_of hm ho
  obtain ⟨fuel, hn⟩ := Nat.exists_eq_succ_of_ne_zero (Nat.pos_iff_ne_zero.mp (List.length_pos_of_mem hg))
  obtain ⟨k, hk, hkp, hkc, ht⟩ := takeVictims_picks (s := s.modServe fun w => { w with evicting := l }) (fuel := fuel) hl hm hx hf hg hp hc
  have he : execEvictionStart p s = .next (takeVictims (evictPage (s.modServe fun w => { w with evicting := l }) k 0xFFFFFFFF) p fuel) := by
    rw [← ht, ← hs, ← Nat.succ_eq_add_one, ← hn]
    simp [execEvictionStart, hm, ho]
  refine .of_only he (execEvictionStart_only (.refl _ s) (List.Subset.refl _)) ⟨takeVictims_pages .., k, hk, hkp, hkc, ?_⟩
  refine ⟨_, (queued_takeVictims _ p fuel).xfers.subset (List.mem_append_right _ (List.mem_singleton_self _)), ?_⟩
  rw [hkp]

/-! ### Ageing (R387) -/

theorem findPage_aged (s : State) (p q n : Nat) (f : Page → Page) (hf : ∀ g, (f g).ptn = g.ptn ∧ (f g).num = g.num) :
    (updIf (·.ptn == p) f s.serve.pages).find? (fun g => g.ptn == q && g.num == n) = (findPage s q n).map fun g => if q = p then f g else g := by
  rw [find?_updIf (fun g _ => by rw [(hf g).1, (hf g).2])]
  refine Option.map_congr fun g hg => ?_
  have hk : (g.ptn == q && g.num == n) = true := by simpa using List.find?_some hg
  have hq : g.ptn = q := eq_of_beq (Bool.and_eq_true_iff.mp hk).1
  simp [hq]

end Sys2Proof.Machine
open Sys2Proof Sys2Proof.Machine

/-- Settles O23: an entry runs what waits, a victim is the first of its partition's candidates, and a transfer that ends leaves its mover. -/
theorem tierMovers : Obligations.TierMovers := by
  refine ⟨fun sec ent e s he hc hi hr ha hb hm _ => ?_, fun sec ent e s he h => .of_same (execMoverEntryStart_idle he h) rfl,
    fun xfer x p num bl again g c b s hx hw hn hg hs hm => ?_, fun p g s hm ho hg hp hc hx hf => evictionStart_spec hm ho hg hp hc hx hf,
    fun p s h => ?_, fun p s hi ha => ?_, fun p s h => ?_, fun xfer x dev op m s hx hr hw hi => ?_, fun xfer x s hx hw => ?_⟩
  · have hrun := execMoverEntryStart_of he hc hi hr ha hb hm
    have hq := queued_moverPrepared s e
    have hpre := moverPrepared_only s e
    obtain ⟨hxs, hps⟩ := moverOpened_movers (moverStarted (moverPrepared s e) e) sec ent e
    refine .of_within hrun ⟨?_, fun x hx => ?_, fun h3 => ?_, fun h3 => ?_, fun h0 => ?_⟩
      (moverOpened_only (modServe_only (hpre.mono (by decide)) (by decide)))
    · rw [hxs]
      exact fun x hx => running_of_moverStarted hx
    · rw [hxs]
      exact mem_moverStarted (hq.xfers.subset hx)
    · rw [moverOpened, if_neg h3]
      exact ⟨hq.reqs, hpre.only.keeps .eph (by decide)⟩
    · rw [moverOpened_eph _ _ _ _ h3]
      exact congrArg (fun x : Eph => { x with pcie := x.pcie ++ [(sec, ent, e.ptn)] }) (hpre.only.keeps .eph (by decide))
    · rw [hxs, hps, moverPrepared, if_neg h0]
      exact ⟨ids_moverStarted s e, rfl⟩
  · have hrun := execWritebackDone_of hx hw hn hg hs
    rw [progressPtn_of_none (by rwa [(writtenBack_kept ..).2])] at hrun
    exact .of_within hrun ⟨writtenBack_page s xfer p num bl again c b hg, findXfer_of_dropped (writtenBack_kept ..).1⟩
      ((writtenBack_only ..).mono (by decide))
  · have hf : ((odGet s (0x9100 + p) 4 = 1 || (ownFar s p).isEmpty) : Bool) = true := by
      rcases h with h | h <;> simp [h]
    exact .of_same (by rw [exec_evictionStart, execEvictionStart, if_pos hf]) rfl
  · have he : execHeatAging p s = .next (s.modServe fun w => { w with
        ageCount := cntSet w.ageCount p 0, pages := updIf (·.ptn == p) (fun g => { g with heat := g.heat / 2 }) w.pages }) := by
      simp [execHeatAging, hi, ha.not_gt]
    exact .of_within he ⟨rfl, cnt_cntSet_same s.serve.ageCount p 0, fun q n => findPage_aged s p q n _ fun _ => ⟨rfl, rfl⟩⟩
      (modServe_only (.refl _ s) (List.Subset.refl _))
  · have hf : (isolated s p || cnt s.serve.ageCount p < odGet s (0x9180 + p) 1) = true := by
      rcases h with h | h <;> simp [h]
    exact .of_same (by rw [exec_heatAging, execHeatAging, if_pos hf]) rfl
  · have hid : x.id = xfer := by simpa using List.find?_some hx
    have hsent := sendState_dropped hi x.id dev op
    have hrun := execTierTransferDone_message hx hr hw
    rw [messageCarried, hsent] at hrun
    refine .of_within hrun ⟨findXfer_of_dropped (congrArg (fun i => (dropXfer s i).serve.xfers) hid), congrArg (· ++ _) (dropXfer_parts s x.id).1⟩
      (modServe_only (emit_only (dropXfer_only (.refl _ s) (by decide)) (by decide)) (by decide))
  · refine ⟨.of_same (by simp [execTierTransferDone, hx, hw]) rfl, .of_same ?_ rfl⟩
    rw [exec_writebackDone, execWritebackDone, hx]
    simp only [hw, if_true]
    split <;> rfl
end

section
/-! PROOFS. Instances: what the operations of the sequencer leave of each (R162, R176, R183, R185, R187). -/

namespace Sys2Proof.Machine
open Sys2Proof

/-! ### Instances by number -/

theorem updIf_updIf {α : Type} {p : α → Bool} {f g : α → α} (hg : ∀ x, p (g x) = p x) (l : List α) :
    updIf p f (updIf p g l) = updIf p (fun x => f (g x)) l := by
  simp only [updIf, List.map_map]
  refine List.map_congr_left fun x _ => ?_
  by_cases hx : p x = true <;> simp [hx, hg]

theorem findInst_id {s : State} {k : Nat} {i : Inst} (h : findInst s k = some i) : i.id = k := by
  simpa using List.find?_some h

theorem findInst_of_work {s t : State} (h : t.work = s.work) (k : Nat) : findInst t k = findInst s k := by
  simp only [findInst, h]

theorem findInst_modInst_same (s : State) (k : Nat) {f : Inst → Inst} (hf : ∀ j, (f j).id = j.id) :
    findInst (modInst s k f) k = (findInst s k).map f :=
  find?_updIf_self (fun j hj => by rwa [hf]) _

theorem findInst_modInst {s : State} {k : Nat} {i : Inst} {f : Inst → Inst} (h : findInst s k = some i) (hf : ∀ j, (f j).id = j.id) :
    findInst (modInst s k f) k = some (f i) :=
  (findInst_modInst_same s k hf).trans (congrArg (Option.map f) h)

theorem findInst_modInst_other (s : State) {k n : Nat} {f : Inst → Inst} (hf : ∀ j, (f j).id = j.id) (h : n ≠ k) :
    findInst (modInst s k f) n = findInst s n := by
  refine (find?_updIf (fun j _ => by rw [hf]) _).trans ?_
  cases hj : s.work.insts.find? (·.id == n) with
  | none => exact hj.symm
  | some j => simp [findInst, hj, findInst_id hj, h]

/-- With no number given twice, an `Inst` in the list is the one that its number finds. -/
theorem findInst_unique {s : State} (hn : (s.work.insts.map (·.id)).Nodup) {k : Nat} {i j : Inst} (hi : findInst s k = some i)
    (hj : j ∈ s.work.insts) (hk : j.id = k) : j = i :=
  List.inj_on_of_nodup_map hn hj (List.mem_of_find?_eq_some hi) (hk.trans (findInst_id hi).symm)

theorem findInst_isSome_of_mem {s : State} {j : Inst} (hj : j ∈ s.work.insts) : ∃ i, findInst s j.id = some i :=
  Option.isSome_iff_exists.mp (List.find?_isSome.mpr ⟨j, hj, by simp⟩)

/-! ### The first issue of an `Inst` (R162) -/

/-- An `Inst` that has issued, and a task of which one has. -/
def Inst.begun (s : State) (j : Inst) : Inst := { j with started := true, issueAt := if j.started then j.issueAt else now s }
def Task.begun (s : State) (t : Task) : Task := { t with state := .running, issued := true, ranFrom := now s }

theorem markStart_work (s : State) (i : Inst) (t : Task) : (markStart s i t).work = { s.work with
    insts := updIf (·.id == i.id) (Inst.begun s) s.work.insts
    tasks := if t.state = .running then s.work.tasks else updIf (·.id == t.id) (Task.begun s) s.work.tasks } := by
  unfold markStart
  extract_lets s₁ s₂
  have h₂ : s₂.work = { s.work with
      insts := updIf (·.id == i.id) (Inst.begun s) s.work.insts
      tasks := if t.state = .running then s.work.tasks else updIf (·.id == t.id) (Task.begun s) s.work.tasks } := by
    simp only [s₂]
    split <;> rfl
  cases t.request <;> exact h₂

theorem findInst_markStart {s : State} {k : Nat} {i : Inst} (h : findInst s k = some i) (t : Task) :
    findInst (markStart s i t) k = some (i.begun s) := by
  obtain rfl := findInst_id h
  have hm : findInst (markStart s i t) i.id = findInst (modInst s i.id (Inst.begun s)) i.id := by
    simp only [findInst, markStart_work]
    rfl
  exact hm.trans (findInst_modInst h fun _ => rfl)

/-- The task that an `Inst` belongs to, once one of its instances has issued. -/
theorem findTask_markStart {s : State} {i : Inst} {t : Task} (h : taskOf s i = some t) :
    ∃ k, findTask (markStart s i t) i.task = some k ∧ k.id = t.id ∧ k.syncs = t.syncs := by
  have hid : t.id = i.task := by simpa using List.find?_some h
  have hf : findTask s t.id = some t := hid ▸ h
  rw [← hid, findTask, markStart_work]
  dsimp only
  split
  · exact ⟨t, hf, rfl, rfl⟩
  · have hb : (updIf (·.id == t.id) (Task.begun s) s.work.tasks).find? (·.id == t.id) = (findTask s t.id).map (Task.begun s) :=
      find?_updIf_self (fun _ hk => by exact hk) _
    exact ⟨t.begun s, hb.trans (by rw [hf]; rfl), rfl, rfl⟩

/-! ### An instruction that retires (R176) -/

/-- Counting and sampling change nothing of the sequencers but the count of retired instructions. -/
theorem retire_work (s : State) (i : Inst) (t : Task) (opc : Nat) :
    (retire s i t opc).work = (bumpCounter (modInst s i.id fun j => { j with retired := j.retired + 1 }) i.uid 2 1).work := by
  unfold retire
  extract_lets s₁ step
  have hw : Within [.freeCount, .tel] s₁ ([t.ptn, 32].foldl step (s₁, [])).1 := by
    refine foldlFst_only (.refl _ s₁) fun a g ha => ?_
    simp only [step]
    split
    · exact samplerStep_only ha (by decide)
    · exact ha
  exact (precise_only hw (List.Subset.refl _)).only.keeps .work (by decide)

theorem findInst_retire_same (s : State) (i : Inst) (t : Task) (opc : Nat) :
    findInst (retire s i t opc) i.id = (findInst s i.id).map fun j => { j with retired := j.retired + 1 } := by
  rw [findInst_of_work (retire_work ..)]
  exact findInst_modInst_same s _ fun _ => rfl

theorem findInst_retire_other (s : State) {i : Inst} (t : Task) (opc : Nat) {k : Nat} (h : k ≠ i.id) :
    findInst (retire s i t opc) k = findInst s k := by
  rw [findInst_of_work (retire_work ..)]
  exact findInst_modInst_other s (fun _ => rfl) h

@[simp] theorem retire_sram (s : State) (i : Inst) (t : Task) (opc : Nat) : (retire s i t opc).work.sram = s.work.sram := by
  rw [retire_work]; rfl

@[simp] theorem retire_tags (s : State) (i : Inst) (t : Task) (opc : Nat) : (retire s i t opc).work.tags = s.work.tags := by
  rw [retire_work]; rfl

/-! ### A SYNC or WAIT that completes (R176, R181, R183) -/

/-- An `Inst` that goes on after a stall, with what has retired. -/
def Inst.released (n : Nat) (j : Inst) : Inst := { j with sync := none, wait := none, issued := 0, retired := j.retired + n }

theorem findInst_unstall_same (s : State) (k : Nat) : ∃ n, findInst (unstall s k) k = (findInst s k).map (Inst.released n) := by
  unfold unstall
  split
  · next h => exact ⟨0, by simp [h]⟩
  · next i h =>
    extract_lets s₁
    obtain rfl := findInst_id h
    have h₁ : findInst s₁ i.id = some (i.released 0) := findInst_modInst h fun _ => rfl
    split
    · exact ⟨1, by rw [findInst_retire_same, h₁, h]; rfl⟩
    · exact ⟨0, by rw [h₁, h]; rfl⟩

theorem findInst_unstall_other (s : State) {k n : Nat} (hk : n ≠ k) : findInst (unstall s k) n = findInst s n := by
  unfold unstall
  split
  · rfl
  · next i h =>
    extract_lets s₁
    obtain rfl := findInst_id h
    have h₁ : findInst s₁ n = findInst s n := findInst_modInst_other s (fun _ => rfl) hk
    split
    · rw [findInst_retire_other _ _ _ hk, h₁]
    · exact h₁

theorem unstall_keeps (s : State) (k : Nat) : (unstall s k).work.sram = s.work.sram ∧ (unstall s k).work.tags = s.work.tags := by
  unfold unstall
  split
  · exact ⟨rfl, rfl⟩
  · extract_lets s₁
    split
    · exact ⟨retire_sram .., retire_tags ..⟩
    · exact ⟨rfl, rfl⟩

/-- Of those that are let go on each does, and no other `Inst` changes. -/
theorem findInst_foldl_unstall (l : List Nat) (s : State) (k : Nat) :
    (k ∉ l → findInst (l.foldl unstall s) k = findInst s k) ∧
    (k ∈ l → ∃ n, findInst (l.foldl unstall s) k = (findInst s k).map (Inst.released n)) := by
  induction l generalizing s with
  | nil => simp
  | cons a l ih =>
    obtain ⟨hout, hin⟩ := ih (unstall s a)
    by_cases ha : k = a
    · subst ha
      obtain ⟨n, hn⟩ := findInst_unstall_same s k
      refine ⟨fun h => absurd List.mem_cons_self h, fun _ => ?_⟩
      by_cases hl : k ∈ l
      · obtain ⟨m, hm⟩ := hin hl
        refine ⟨n + m, hm.trans ?_⟩
        rw [hn, Option.map_map]
        exact congrArg (fun f => (findInst s k).map f) (funext fun j => by simp [Inst.released, Nat.add_assoc])
      · exact ⟨n, (hout hl).trans hn⟩
    · have hs := findInst_unstall_other s ha
      rw [hs] at hout hin
      exact ⟨fun h => hout fun hl => h (List.mem_cons_of_mem _ hl), fun h => hin ((List.mem_cons.mp h).resolve_left ha)⟩

theorem foldl_unstall_sram (l : List Nat) (s : State) : (l.foldl unstall s).work.sram = s.work.sram :=
  foldl_keep (fun s => s.work.sram) unstall (fun s k => (unstall_keeps s k).1) l s

/-! ### An `Inst` that stops with stores outstanding (R162, R187) -/

/-- The stores of an `Inst` that are not written yet. -/
def Inst.stores (i : Inst) : List Tile := i.tiles.filter fun k => !k.load

theorem stores_isEmpty_of_store {i : Inst} (h : ∃ k ∈ i.tiles, k.load = false) : i.stores.isEmpty = false := by
  obtain ⟨k, hk, hl⟩ := h
  exact List.isEmpty_eq_false_iff.mpr (List.ne_nil_of_mem (List.mem_filter.mpr ⟨hk, by simp [hl]⟩))

theorem stores_isEmpty_of_loads {i : Inst} (h : ∀ k ∈ i.tiles, k.load = true) : i.stores.isEmpty = true :=
  List.isEmpty_iff.mpr (List.filter_eq_nil_iff.mpr fun k hk => by simp [h k hk])

/-- An `Inst` that ends once its stores are written. -/
def Inst.ends (i : Inst) (st : Option Nat) (j : Inst) : Inst := { j with tiles := i.stores, stop := st, ending := true, wait := none, sync := none }

theorem stopInst_of_store {s : State} {k : Nat} {i : Inst} (st : Nat) (hi : findInst s k = some i) (hs : ∃ t ∈ i.tiles, t.load = false) :
    stopInst s k st = modInst (bumpCounter s i.uid 6 1) k (i.ends (some st)) := by
  have he : (i.tiles.filter fun t => !t.load).isEmpty = false := stores_isEmpty_of_store hs
  simp only [stopInst, hi, he]
  rfl

theorem stopInst_of_store_only {pl : List Part} {sb s : State} {k : Nat} {i : Inst} (st : Nat) (hi : findInst s k = some i)
    (hs : ∃ t ∈ i.tiles, t.load = false) (hO : Within pl sb s) (hP : [.work] ⊆ pl) : Within pl sb (stopInst s k st) := by
  rw [stopInst_of_store st hi hs]
  exact modInst_only (bumpCounter_only hO hP) hP

theorem findInst_stopInst_of_store {s : State} {k : Nat} {i : Inst} (st : Nat) (hi : findInst s k = some i) (hs : ∃ t ∈ i.tiles, t.load = false) :
    findInst (stopInst s k st) k = some (i.ends (some st) i) := by
  rw [stopInst_of_store st hi hs]
  exact findInst_modInst hi fun _ => rfl

/-- One that has not been asked to stop does not. -/
theorem stopHere_of_unasked {s : State} {k : Nat} {i : Inst} (hi : findInst s k = some i) (hs : i.stop = none) : stopHere s k = s := by
  simp only [stopHere, hi, hs]

end Sys2Proof.Machine
end

section
/-! PROOFS. Obligation O31: SYNC, WAIT, YIELD, END, checkpoints and reserved opcodes (R158, R162, R181, R183, R185-R187). -/

namespace Sys2Proof.Machine
open Sys2Proof

/-! ### One instruction issues (R162, R180) -/

/-- What a sequencer that can issue stands at. -/
theorem ready_spec {s : State} {inst opc : Nat} {i : Inst} {t : Task} {x : Ins} (h : ready s inst opc = some (i, t, x)) :
    findInst s inst = some i ∧ taskOf s i = some t ∧ x = insAt s i ∧ i.ending = false ∧ i.wait = none ∧ i.sync = none := by
  unfold ready at h
  split at h
  · cases h
  · next j hj =>
    split at h
    · cases h
    · next k hk =>
      simp only [Option.ite_none_left_eq_some, Option.some.injEq, Prod.mk.injEq] at h
      obtain ⟨hg, rfl, rfl, rfl⟩ := h
      simp only [stalled, Bool.or_eq_true, not_or, Bool.not_eq_true, Option.isSome_eq_false_iff, Option.isNone_iff_eq_none] at hg
      exact ⟨hj, hk, rfl, by simp_all⟩

/-- The `Inst` has passed an instruction, which has not retired yet. -/
def Inst.passed (i j : Inst) : Inst := { j with pc := i.pc + 16, issued := j.issued + 1 }
def passed (s : State) (i : Inst) : State := modInst s i.id i.passed

theorem findInst_passed {s : State} {i j : Inst} (h : findInst s i.id = some j) : findInst (passed s i) i.id = some (i.passed j) :=
  findInst_modInst h fun _ => rfl

theorem noOps_extentsOk (s : State) (i : Inst) (t : Task) (x : Ins) : extentsOk s i t x (noOps s i t x) = true := by
  simp [extentsOk, noOps]

section
variable {s u : State} {inst opc : Nat} {i : Inst} {t : Task} {x : Ins} {ok : Inst → Task → Ins → Bool} {ops : Extents}
  {f : Inst → Task → Ins → Nat → State → Exec}

/-- An instruction whose checks hold and whose executions succeed is passed. -/
theorem issue_done (hr : ready s inst opc = some (i, t, x)) (hc : commonOk i x = true) (hok : ok i t x = true)
    (he : extentsOk s i t x (ops s i t x) = true) (hf : runExecs (f i t x) ((executions i x).getD 1) 0 (markStart s i t) = (u, none)) :
    issue s inst opc ok ops f =
      stopHere (if (findInst (passed u i) inst).any stalled then passed u i else retire (passed u i) i t opc) inst := by
  obtain rfl := findInst_id (ready_spec hr).1
  simp only [issue, hr, hc, hok, he, hf]
  rfl

/-- One that runs once and leaves the `Inst` going retires (R176). -/
theorem issue_once {j : Inst} (hr : runsOnce s inst opc i t x) (hok : ok i t x = true) (he : extentsOk s i t x (ops s i t x) = true)
    (hf : f i t x 0 (markStart s i t) = (u, none)) (hj : findInst u inst = some j) (hstop : j.stop = none) :
    issue s inst opc ok ops f = if stalled j then passed u i else retire (passed u i) i t opc := by
  obtain ⟨hready, hc, hx, -⟩ := hr
  have hrun : runExecs (f i t x) ((executions i x).getD 1) 0 (markStart s i t) = (u, none) := by simp [hx, runExecs, hf]
  obtain rfl := findInst_id (ready_spec hready).1
  rw [issue_done hready hc hok he hrun, findInst_passed hj]
  have hs : stalled (i.passed j) = stalled j := rfl
  simp only [Option.any_some, hs]
  split
  · exact stopHere_of_unasked (findInst_passed hj) hstop
  · exact stopHere_of_unasked ((findInst_retire_same ..).trans (congrArg _ (findInst_passed hj))) hstop

end

theorem passed_only {pl : List Part} {sb s : State} {i : Inst} (h : Within pl sb s) (hp : [.work] ⊆ pl) : Within pl sb (passed s i) := modInst_only h hp

/-- The `Inst` after an instruction that has retired. -/
theorem findInst_retire_passed {s : State} {i j : Inst} (h : findInst s i.id = some j) (t : Task) (opc : Nat) :
    findInst (retire (passed s i) i t opc) i.id = some { i.passed j with retired := j.retired + 1 } :=
  (findInst_retire_same ..).trans (congrArg _ (findInst_passed h))

theorem markStart_sram (s : State) (i : Inst) (t : Task) : (markStart s i t).work.sram = s.work.sram := by rw [markStart_work]

/-! ### SYNC (R183) -/

/-- An `Inst` that has issued a SYNC. -/
def Inst.atSync (x : Nat) (j : Inst) : Inst := { j with sync := some x, syncs := j.syncs ++ [x] }
/-- The `Inst` in the state in which its SYNC has issued, and that state. -/
def Inst.synced (s : State) (i : Inst) (x : Nat) (j : Inst) : Inst := i.passed ((j.begun s).atSync x)
def syncIssued (s : State) (i : Inst) (t : Task) (x : Nat) : State := passed (modInst (markStart s i t) i.id (Inst.atSync x)) i

theorem syncIssued_insts (s : State) (i : Inst) (t : Task) (x : Nat) :
    (syncIssued s i t x).work.insts = updIf (·.id == i.id) (i.synced s x) s.work.insts := by
  simp only [syncIssued, passed, modInst, State.modWork_work, markStart_work]
  rw [updIf_updIf (f := Inst.atSync x) (g := Inst.begun s) fun _ => rfl]
  exact updIf_updIf (f := i.passed) (g := fun j => (j.begun s).atSync x) (fun _ => rfl) _

theorem findInst_syncIssued {s : State} {i : Inst} (h : findInst s i.id = some i) (t : Task) (x : Nat) :
    findInst (syncIssued s i t x) i.id = some (i.synced s x i) :=
  findInst_passed (findInst_modInst (findInst_markStart h t) fun _ => rfl)

theorem syncIssued_only (s : State) (i : Inst) (t : Task) (x : Nat) : Within [.freeCount, .work, .serve, .tel] s (syncIssued s i t x) :=
  passed_only (modInst_only (markStart_only (.refl ..) (by decide)) (by decide)) (by decide)

theorem syncIssued_sram (s : State) (i : Inst) (t : Task) (x : Nat) : (syncIssued s i t x).work.sram = s.work.sram := markStart_sram s i t

/-- With no number given twice, the instances are those of before and the one that has issued the SYNC. -/
theorem mem_syncIssued {s : State} (hn : (s.work.insts.map (·.id)).Nodup) {i : Inst} (hi : findInst s i.id = some i) (t : Task) (x : Nat) {k : Inst} :
    k ∈ (syncIssued s i t x).work.insts ↔ k = i.synced s x i ∨ (k ∈ s.work.insts ∧ k.id ≠ i.id) := by
  rw [syncIssued_insts, updIf, List.mem_map]
  constructor
  · rintro ⟨j, hj, rfl⟩
    by_cases hid : j.id = i.id
    · exact .inl (by simp [findInst_unique hn hi hj hid])
    · exact .inr (by simp [hid, hj])
  · rintro (rfl | ⟨hk, hid⟩)
    · exact ⟨i, List.mem_of_find?_eq_some hi, by simp⟩
    · exact ⟨k, hk, by simp [hid]⟩

theorem syncMet_iff {s : State} {t : Task} {j : Inst} {x : Nat} (h : j.sync = some x) : syncMet s t j = true ↔
    (∀ k ∈ s.work.insts, k.task = t.id → j.syncs.count x ≤ k.syncs.count x) ∧ ∀ l ∈ t.syncs, j.syncs.count x ≤ l.count x := by
  simp only [syncMet, h, Bool.and_eq_true, List.all_eq_true, List.mem_filter, beq_iff_eq, decide_eq_true_eq, and_imp]

/-- The instances of a task that go on. -/
def syncsMet (s : State) (t : Task) : List Nat := (s.work.insts.filter fun i => i.task == t.id && syncMet s t i).map (·.id)

theorem mem_syncsMet {s : State} {t : Task} {k : Nat} : k ∈ syncsMet s t ↔ ∃ j ∈ s.work.insts, j.task = t.id ∧ syncMet s t j = true ∧ j.id = k := by
  simp only [syncsMet, List.mem_map, List.mem_filter, Bool.and_eq_true, beq_iff_eq, and_assoc]

theorem releaseSync_eq {s : State} {t : Task} {n : Nat} (h : findTask s n = some t) (hid : t.id = n) : releaseSync s n = (syncsMet s t).foldl unstall s := by
  subst hid
  simp only [releaseSync, h]
  rfl

theorem releaseSync_sram {s : State} {t : Task} {n : Nat} (h : findTask s n = some t) (hid : t.id = n) : (releaseSync s n).work.sram = s.work.sram := by
  rw [releaseSync_eq h hid, foldl_unstall_sram]

/-- The task of an `Inst` once its SYNC has issued. -/
theorem findTask_syncIssued {s : State} {i : Inst} {t : Task} (ht : taskOf s i = some t) (x : Nat) :
    ∃ k, findTask (syncIssued s i t x) i.task = some k ∧ k.id = i.task ∧ k.syncs = t.syncs := by
  obtain ⟨k, hk, hkid, hks⟩ := findTask_markStart ht
  have hid : t.id = i.task := by simpa using List.find?_some ht
  exact ⟨k, hk, hkid.trans hid, hks⟩

section
variable {s : State} {inst : Nat} {i : Inst} {t : Task} {x : Ins} (hr : runsOnce s inst 0x51 i t x)
include hr

theorem issue_sync : issue s inst 0x51 (fun _ _ _ => true) noOps (fun _ _ x _ s => execOk (modInst s inst (Inst.atSync (x.spec 103 8)))) =
    syncIssued s i t (x.spec 103 8) := by
  obtain ⟨hi, -⟩ := ready_spec hr.1
  obtain rfl := findInst_id hi
  have hu : findInst (modInst (markStart s i t) i.id (Inst.atSync (x.spec 103 8))) i.id = some ((i.begun s).atSync (x.spec 103 8)) :=
    findInst_modInst (findInst_markStart hi t) fun _ => rfl
  have hst : stalled ((i.begun s).atSync (x.spec 103 8)) = true := by simp [stalled, Inst.atSync]
  rw [issue_once hr rfl (noOps_extentsOk ..) rfl hu hr.2.2.2, if_pos hst]
  rfl

/-- A SYNC issues, and then the instances whose SYNC is complete go on. -/
theorem execInstrSync_of {j : Inst} (hj : findInst (releaseSync (syncIssued s i t (x.spec 103 8)) i.task) inst = some j) (hs : j.stop = none) :
    execInstrSync inst s = .next (releaseSync (syncIssued s i t (x.spec 103 8)) i.task) := by
  obtain ⟨hi, -⟩ := ready_spec hr.1
  obtain rfl := findInst_id hi
  unfold execInstrSync
  extract_lets s₁
  have hs₁ : s₁ = syncIssued s i t (x.spec 103 8) := issue_sync hr
  rw [hs₁, findInst_syncIssued hi]
  exact congrArg _ (stopHere_of_unasked hj hs)

/-- While an `Inst` has not issued it as often, the SYNC stalls. -/
theorem does_sync_stalls (hn : (s.work.insts.map (·.id)).Nodup)
    (h : (∃ j ∈ s.work.insts, j.task = i.task ∧ j.id ≠ inst ∧ j.syncs.count (x.spec 103 8) < i.syncs.count (x.spec 103 8) + 1) ∨
      ∃ l ∈ t.syncs, l.count (x.spec 103 8) < i.syncs.count (x.spec 103 8) + 1) :
    Does (.instrSync inst) s [.freeCount, .work, .serve, .tel] fun u =>
      goesOn u inst i ∧ u.work.sram = s.work.sram ∧ (findInst u inst).map (·.sync) = some (some (x.spec 103 8)) := by
  obtain ⟨hi, ht, -⟩ := ready_spec hr.1
  obtain rfl := findInst_id hi
  obtain ⟨k, hk, hkid, hks⟩ := findTask_syncIssued ht (x.spec 103 8)
  have hcount : (i.synced s (x.spec 103 8) i).syncs.count (x.spec 103 8) = i.syncs.count (x.spec 103 8) + 1 := by
    simp [Inst.synced, Inst.passed, Inst.atSync, Inst.begun]
  have hout : i.id ∉ syncsMet (syncIssued s i t (x.spec 103 8)) k := by
    rw [mem_syncsMet]
    rintro ⟨j, hj, -, hmet, hid⟩
    obtain rfl := ((mem_syncIssued hn hi t _).mp hj).resolve_right fun hne => hne.2 hid
    obtain ⟨hall, hended⟩ := (syncMet_iff rfl).mp hmet
    rw [hcount, hks] at hended
    rw [hcount, hkid] at hall
    rcases h with ⟨j, hj, hjt, hne, hlt⟩ | ⟨l, hl, hlt⟩
    · exact absurd hlt (Nat.not_lt.mpr (hall j ((mem_syncIssued hn hi t _).mpr (.inr ⟨hj, hne⟩)) hjt))
    · exact absurd hlt (Nat.not_lt.mpr (hended l hl))
  have hu : findInst (releaseSync (syncIssued s i t (x.spec 103 8)) i.task) i.id = some (i.synced s (x.spec 103 8) i) := by
    rw [releaseSync_eq hk hkid, (findInst_foldl_unstall ..).1 hout, findInst_syncIssued hi]
  refine .of_within (execInstrSync_of hr hu hr.2.2.2) ⟨?_, ?_, ?_⟩ (releaseSync_only (syncIssued_only ..) (by decide))
  · rw [goesOn, hu]
    rfl
  · rw [releaseSync_sram hk hkid, syncIssued_sram]
  · rw [hu]
    rfl

/-- Once every `Inst` has, it is complete, and so is that of each other `Inst` that has issued it as often and stalls on it. -/
theorem does_sync_completes (hn : (s.work.insts.map (·.id)).Nodup)
    (hj : ∀ j ∈ s.work.insts, j.task = i.task → j.id ≠ inst → i.syncs.count (x.spec 103 8) + 1 ≤ j.syncs.count (x.spec 103 8))
    (hl : ∀ l ∈ t.syncs, i.syncs.count (x.spec 103 8) + 1 ≤ l.count (x.spec 103 8)) :
    Does (.instrSync inst) s [.freeCount, .work, .serve, .tel] fun u => goesOn u inst i ∧ u.work.sram = s.work.sram ∧
      (findInst u inst).map (·.sync) = some none ∧
      ∀ j ∈ s.work.insts, j.task = i.task → j.id ≠ inst → j.sync = some (x.spec 103 8) → j.syncs.count (x.spec 103 8) = i.syncs.count (x.spec 103 8) + 1 →
        (findInst u j.id).map (·.sync) = some none := by
  obtain ⟨hi, ht, -⟩ := ready_spec hr.1
  obtain rfl := findInst_id hi
  obtain ⟨k, hk, hkid, hks⟩ := findTask_syncIssued ht (x.spec 103 8)
  have hcount : (i.synced s (x.spec 103 8) i).syncs.count (x.spec 103 8) = i.syncs.count (x.spec 103 8) + 1 := by
    simp [Inst.synced, Inst.passed, Inst.atSync, Inst.begun]
  have hmet : ∀ j ∈ (syncIssued s i t (x.spec 103 8)).work.insts, j.task = i.task → j.sync = some (x.spec 103 8) →
      j.syncs.count (x.spec 103 8) = i.syncs.count (x.spec 103 8) + 1 → j.id ∈ syncsMet (syncIssued s i t (x.spec 103 8)) k := by
    intro j hm hjt hsync hc
    refine mem_syncsMet.mpr ⟨j, hm, hjt.trans hkid.symm, (syncMet_iff hsync).mpr ?_, rfl⟩
    rw [hc, hkid, hks]
    refine ⟨fun m hm hmt => ?_, hl⟩
    obtain rfl | ⟨hm, hne⟩ := (mem_syncIssued hn hi t _).mp hm
    · exact hcount.ge
    · exact hj m hm hmt hne
  have hgo (j : Inst) (hm : j ∈ (syncIssued s i t (x.spec 103 8)).work.insts) (hjt : j.task = i.task) (hsync : j.sync = some (x.spec 103 8))
      (hc : j.syncs.count (x.spec 103 8) = i.syncs.count (x.spec 103 8) + 1) :
      ∃ n, findInst (releaseSync (syncIssued s i t (x.spec 103 8)) i.task) j.id = (findInst (syncIssued s i t (x.spec 103 8)) j.id).map (Inst.released n) := by
    rw [releaseSync_eq hk hkid]
    exact (findInst_foldl_unstall ..).2 (hmet j hm hjt hsync hc)
  obtain ⟨n, hu⟩ := hgo _ ((mem_syncIssued hn hi t _).mpr (.inl rfl)) rfl rfl hcount
  replace hu := hu.trans (congrArg _ (findInst_syncIssued hi t _))
  refine .of_within (execInstrSync_of hr hu hr.2.2.2) ⟨?_, ?_, ?_, fun j hm hjt hne hsync hc => ?_⟩ (releaseSync_only (syncIssued_only ..) (by decide))
  · exact congrArg (Option.map (·.pc)) hu
  · rw [releaseSync_sram hk hkid, syncIssued_sram]
  · exact congrArg (Option.map (·.sync)) hu
  · have hm' := (mem_syncIssued hn hi t (x.spec 103 8)).mpr (.inr ⟨hm, hne⟩)
    obtain ⟨n, hu'⟩ := hgo j hm' hjt hsync hc
    obtain ⟨m, hm⟩ := findInst_isSome_of_mem hm'
    rw [hu', hm]
    rfl

end

/-! ### WAIT (R181) -/

/-- An `Inst` that waits for its transfers. -/
def Inst.atWait (n : Nat) (j : Inst) : Inst := { j with wait := some n }

/-- WAIT stalls while more transfers are outstanding than it names, and retires otherwise. -/
theorem does_wait {s : State} {inst : Nat} {i : Inst} {t : Task} {x : Ins} (hr : runsOnce s inst 0x52 i t x) (hn : x.spec 103 6 ≤ 32) :
    Does (.instrWait inst) s [.freeCount, .work, .serve, .tel] fun u => goesOn u inst i ∧ u.work.sram = s.work.sram ∧
      (findInst u inst).map (·.wait) = some (if i.tiles.length ≤ x.spec 103 6 then none else some (x.spec 103 6)) := by
  obtain ⟨hi, -, -, -, hwait, hsync⟩ := ready_spec hr.1
  obtain rfl := findInst_id hi
  have hm := findInst_markStart hi t
  have hms : Within [.freeCount, .work, .serve, .tel] s (markStart s i t) := markStart_only (.refl ..) (by decide)
  by_cases hle : i.tiles.length ≤ x.spec 103 6
  · have hst : stalled (i.begun s) = false := by simp [stalled, Inst.begun, hwait, hsync]
    have hu := findInst_retire_passed hm t 0x52
    have he : execInstrWait i.id s = .next (retire (passed (markStart s i t) i) i t 0x52) := by
      rw [execInstrWait, issue_once hr (decide_eq_true hn) (noOps_extentsOk ..) (by rw [if_pos hle]; rfl) hm hr.2.2.2, if_neg (by simp [hst]),
        stopHere_of_unasked hu hr.2.2.2]
    refine .of_within he ⟨?_, ?_, ?_⟩ (retire_only (passed_only hms (by decide)) (by decide))
    · exact congrArg (Option.map (·.pc)) hu
    · exact (retire_sram ..).trans (markStart_sram ..)
    · rw [hu, if_pos hle]
      exact congrArg some hwait
  · have hw : findInst (modInst (markStart s i t) i.id (Inst.atWait (x.spec 103 6))) i.id = some ((i.begun s).atWait (x.spec 103 6)) :=
      findInst_modInst hm fun _ => rfl
    have hst : stalled ((i.begun s).atWait (x.spec 103 6)) = true := rfl
    have hu := findInst_passed hw
    have he : execInstrWait i.id s = .next (passed (modInst (markStart s i t) i.id (Inst.atWait (x.spec 103 6))) i) := by
      rw [execInstrWait, issue_once hr (decide_eq_true hn) (noOps_extentsOk ..) (by rw [if_neg hle]; rfl) hw hr.2.2.2, if_pos hst,
        stopHere_of_unasked hu hr.2.2.2]
    refine .of_within he ⟨?_, ?_, ?_⟩ (passed_only (modInst_only hms (by decide)) (by decide))
    · exact congrArg (Option.map (·.pc)) hu
    · exact markStart_sram ..
    · rw [hu, if_neg hle]
      rfl

/-! ### YIELD (R185, R187) -/

theorem runExecs_ok (n k : Nat) (s : State) : runExecs (fun _ s => execOk s) n k s = (s, none) := by
  induction n generalizing k with
  | zero => rfl
  | succ n ih => exact ih (k + 1)

/-- The state in which a YIELD has retired, and the `Inst` in it. -/
def yieldRetired (s : State) (i : Inst) (t : Task) : State := retire (passed (markStart s i t) i) i t 0x53
def Inst.yielded (s : State) (i : Inst) : Inst := { i.passed (i.begun s) with retired := i.retired + 1 }

theorem findInst_yieldRetired {s : State} {i : Inst} (h : findInst s i.id = some i) (t : Task) :
    findInst (yieldRetired s i t) i.id = some (i.yielded s) :=
  findInst_retire_passed (findInst_markStart h t) t 0x53

theorem yieldRetired_only (s : State) (i : Inst) (t : Task) : Within [.freeCount, .work, .serve, .tel] s (yieldRetired s i t) :=
  retire_only (passed_only (markStart_only (.refl ..) (by decide)) (by decide)) (by decide)

theorem issue_yield {s : State} {inst : Nat} {i : Inst} {t : Task} {x : Ins} (hr : ready s inst 0x53 = some (i, t, x)) (hc : commonOk i x = true) :
    issue s inst 0x53 (fun _ _ _ => true) noOps (fun _ _ _ _ s => execOk s) = stopHere (yieldRetired s i t) inst := by
  obtain ⟨hi, -, -, -, hwait, hsync⟩ := ready_spec hr
  obtain rfl := findInst_id hi
  have hst : stalled (i.passed (i.begun s)) = false := by simp [stalled, Inst.passed, Inst.begun, hwait, hsync]
  rw [issue_done hr hc rfl (noOps_extentsOk ..) (runExecs_ok ..), findInst_passed (findInst_markStart hi t), Option.any_some, if_neg (by simp [hst])]
  rfl

/-- One that no one has asked to stop goes on behind the checkpoint. -/
theorem does_yield {s : State} {inst : Nat} {i : Inst} {t : Task} {x : Ins} (hr : runsOnce s inst 0x53 i t x) :
    Does (.instrYield inst) s [.freeCount, .work, .serve, .tel] fun u =>
      goesOn u inst i ∧ u.work.sram = s.work.sram ∧ (findInst u inst).map (·.issued) = some 0 := by
  obtain ⟨hready, hc, -, hstop⟩ := hr
  obtain ⟨hi, -, -, hend, -⟩ := ready_spec hready
  obtain rfl := findInst_id hi
  have hy := findInst_yieldRetired hi t
  have hye : (i.yielded s).ending = false := hend
  have hys : (i.yielded s).stop = none := hstop
  have he : execInstrYield i.id s =
      .next (modInst (progCount (yieldRetired s i t) (uidCon (i.yielded s).uid) 0x0B 1) i.id fun j => { j with issued := 0 }) := by
    simp [execInstrYield, issue_yield hready hc, stopHere_of_unasked hy hys, hready, hy, hye, hys]
  have hu := findInst_modInst (f := fun j => { j with issued := 0 })
    ((findInst_of_work (progCount_work (s := yieldRetired s i t) (uidCon (i.yielded s).uid) 0x0B 1) i.id).trans hy) fun _ => rfl
  refine .of_within he ⟨?_, ?_, ?_⟩ (modInst_only (progCount_only (yieldRetired_only ..) (by decide)) (by decide))
  · exact congrArg (Option.map (·.pc)) hu
  · simp only [modInst, State.modWork_work, progCount_work]
    exact (retire_sram ..).trans (markStart_sram ..)
  · exact congrArg (Option.map (·.issued)) hu

/-- One that has been asked to stop stops, at the YIELD or already at the stall behind it. -/
theorem execInstrYield_stops {s : State} {inst st : Nat} {i : Inst} {t : Task} {x : Ins} (hr : ready s inst 0x53 = some (i, t, x)) (hc : commonOk i x = true)
    (hs : i.stop = some st) (hstore : ∃ k ∈ i.tiles, k.load = false) :
    ∃ w, execInstrYield inst s = .next (stopInst w inst st) ∧ findInst w inst = some (i.yielded s) ∧ Within [.freeCount, .work, .serve, .tel] s w := by
  obtain ⟨hi, -, -, hend, -⟩ := ready_spec hr
  obtain rfl := findInst_id hi
  have hy := findInst_yieldRetired hi t
  have hye : (i.yielded s).ending = false := hend
  have hys : (i.yielded s).stop = some st := hs
  have hw := yieldRetired_only s i t
  by_cases hat : atStall (yieldRetired s i t) (i.yielded s) = true
  · have hstopped : stopHere (yieldRetired s i t) i.id = stopInst (yieldRetired s i t) i.id st := by simp [stopHere, hy, hye, hys, hat]
    have hf := findInst_stopInst_of_store st hy hstore
    have hfe : ((i.yielded s).ends (some st) (i.yielded s)).ending = true := rfl
    exact ⟨_, by simp [execInstrYield, issue_yield hr hc, hr, hstopped, hf, hfe], hy, hw⟩
  · have hgoes : stopHere (yieldRetired s i t) i.id = yieldRetired s i t := by simp [stopHere, hy, hye, hys, hat]
    refine ⟨progCount (yieldRetired s i t) (uidCon (i.yielded s).uid) 0x0B 1, ?_, (findInst_of_work (progCount_work ..) _).trans hy,
      progCount_only hw (by decide)⟩
    simp [execInstrYield, issue_yield hr hc, hr, hgoes, hy, hye, hys]

/-! ### END (R158, R162, R187) -/

section
variable {s : State} {inst : Nat} {i : Inst} {t : Task} {x : Ins} (hr : ready s inst 0x5F = some (i, t, x)) (hc : commonOk i x = true)
include hr hc

/-- END of an `Inst` whose work still counts waits for its stores, or ends it. -/
theorem execInstrEnd_of (hs : i.stop = none ∨ i.stop = some stRETRIED) : execInstrEnd inst s = .next (
    if i.stores.isEmpty then endInst (retire (markStart s i t) i t 0x5F) inst stOK 0
    else modInst (retire (markStart s i t) i t 0x5F) inst fun j => { j with tiles := i.stores, stop := none, ending := true }) := by
  have hn : i.stop.filter (· != stRETRIED) = none := by rcases hs with hs | hs <;> rw [hs] <;> rfl
  simp only [execInstrEnd, hr, hc, hn]
  rfl

/-- One that has been asked to stop stops in its place. -/
theorem execInstrEnd_stops {st : Nat} (hs : i.stop = some st) (hne : st ≠ stRETRIED) : execInstrEnd inst s = .next (stopInst s inst st) := by
  have hn : i.stop.filter (· != stRETRIED) = some st := by rw [hs]; simp [hne]
  simp only [execInstrEnd, hr, hc, hn]
  rfl

theorem does_end_waits (hs : i.stop = none ∨ i.stop = some stRETRIED) (hstore : ∃ k ∈ i.tiles, k.load = false) :
    Does (.instrEnd inst) s [.freeCount, .work, .serve, .tel] fun u =>
      (findInst u inst).map (fun j => (j.ending, j.stop, j.tiles)) = some (true, none, i.tiles.filter fun k => !k.load) := by
  obtain ⟨hi, -⟩ := ready_spec hr
  have he := execInstrEnd_of hr hc hs
  rw [stores_isEmpty_of_store hstore, if_neg Bool.false_ne_true] at he
  obtain rfl := findInst_id hi
  have hu := findInst_modInst (f := fun j => { j with tiles := i.stores, stop := none, ending := true })
    ((findInst_retire_same (markStart s i t) i t 0x5F).trans (congrArg _ (findInst_markStart hi t))) fun _ => rfl
  exact .of_within he (congrArg (Option.map fun j => (j.ending, j.stop, j.tiles)) hu)
    (modInst_only (retire_only (markStart_only (.refl ..) (by decide)) (by decide)) (by decide))

end

/-! ### Reserved encodings (R180) -/

theorem execIllegalInstruction_fails {s : State} {inst : Nat} {i : Inst} (hi : findInst s inst = some i) (hr : (ready s inst (insAt s i).opc).isSome = true)
    (h : knownOpcode (insAt s i).opc = false ∨ commonOk i (insAt s i) = false) :
    execIllegalInstruction inst s = .next (failInst s inst stFORMAT (insDetail i)) := by
  obtain ⟨r, hr⟩ := Option.isSome_iff_exists.mp hr
  have hb : (knownOpcode (insAt s i).opc && commonOk i (insAt s i)) = false := Bool.and_eq_false_iff.mpr h
  simp [execIllegalInstruction, hi, hr, hb]

theorem execIllegalInstruction_legal {s : State} {inst : Nat} {i : Inst} (hi : findInst s inst = some i) (hk : knownOpcode (insAt s i).opc = true)
    (hc : commonOk i (insAt s i) = true) : execIllegalInstruction inst s = .next s := by
  simp only [execIllegalInstruction, hi, hk, hc, Bool.and_self, if_true]
  split <;> rfl

/-! ### The 64th cycle (R185, R186) -/

/-- The counts of a checkpoint that the sequencer takes of itself. -/
def checkpointCounted (s : State) (i : Inst) : State := progCount (bumpCounter s i.uid 7 1) (uidCon i.uid) 0x0B 1

theorem checkpointCounted_work (s : State) (i : Inst) : (checkpointCounted s i).work = (bumpCounter s i.uid 7 1).work := progCount_work ..

theorem findInst_checkpointCounted {s : State} {inst : Nat} {i : Inst} (h : findInst s inst = some i) : findInst (checkpointCounted s i) inst = some i :=
  (findInst_of_work (checkpointCounted_work s i) inst).trans h

theorem checkpointCounted_only (s : State) (i : Inst) : Within [.work, .tel] s (checkpointCounted s i) :=
  progCount_only (bumpCounter_only (.refl ..) (by decide)) (by decide)

theorem execCheckpoint64_of {s : State} {inst : Nat} {i : Inst} (hi : findInst s inst = some i) (he : i.ending = false) (hb : i.started = true)
    (hs : stalled i = false) : execCheckpoint64 inst s = .next (match i.stop with
      | some st => stopInst (checkpointCounted s i) inst st
      | none => modInst (checkpointCounted s i) inst fun j => { j with issued := 0 }) := by
  simp only [execCheckpoint64, hi, he, hb, hs]
  rfl

theorem execCheckpoint64_idle {s : State} {inst : Nat} {i : Inst} (hi : findInst s inst = some i)
    (h : i.ending = true ∨ i.started = false ∨ stalled i = true) : execCheckpoint64 inst s = .next s := by
  have hg : (i.ending || !i.started || stalled i) = true := by simpa [or_assoc] using h
  simp only [execCheckpoint64, hi, hg, if_true]

theorem does_checkpoint {s : State} {inst : Nat} {i : Inst} (hi : findInst s inst = some i) (he : i.ending = false) (hb : i.started = true)
    (hs : stalled i = false) (hstop : i.stop = none) : Does (.checkpoint64 inst) s [.work, .tel] fun u => (findInst u inst).map (·.issued) = some 0 ∧
      cnt u.work.unsent (counterUnit i.uid * 8 + 7) = (cnt s.work.unsent (counterUnit i.uid * 8 + 7) + 1) % 2 ^ 48 := by
  have hrun := execCheckpoint64_of hi he hb hs
  rw [hstop] at hrun
  refine .of_within hrun ⟨?_, ?_⟩ (modInst_only (checkpointCounted_only ..) (by decide))
  · exact congrArg (Option.map (·.issued)) (findInst_modInst (f := fun j => { j with issued := 0 }) (findInst_checkpointCounted hi) fun _ => rfl)
  · simp only [modInst, State.modWork_work, checkpointCounted_work]
    exact sget_sset_same ..

end Sys2Proof.Machine

open Sys2Proof Sys2Proof.Machine

/-- Settles O31: what each instruction leaves of its `Inst`, from where its sequencer stands; a SYNC lets go on whom the counts of its task show
complete. -/
theorem sequencerControl : Obligations.SequencerControl := by
  unfold Obligations.SequencerControl
  refine ⟨fun inst i t x n s hr hn hx h => does_sync_stalls hr hn (hx ▸ h), fun inst i t x n s hr hn hx hj hl => ?_,
    fun inst i t x s hr hn => does_wait hr hn, fun inst i t x s hr => does_yield hr, fun inst i t x st s hr hc hs hstore => ?_,
    fun inst i t x s hr hc hs hstore => does_end_waits hr hc hs hstore, fun inst i t x s hr hc hs hloads => ?_, fun inst i t x st s hr hc hs hne => ?_,
    fun inst i s hi hr h => ?_, fun inst i s hi hk hc => .of_same (execIllegalInstruction_legal hi hk hc) rfl,
    fun inst i s hi he hb hst hs => does_checkpoint hi he hb hst hs, fun inst i st s hi he hb hst hs hstore => ?_, fun inst i s hi h => ?_⟩
  · subst hx
    exact does_sync_completes hr hn hj hl
  · obtain ⟨w, he, hw, hwithin⟩ := execInstrYield_stops hr hc hs hstore
    exact .of_within he (congrArg (Option.map fun j => (j.ending, j.stop, j.tiles)) (findInst_stopInst_of_store st hw hstore))
      (stopInst_of_store_only st hw hstore hwithin (by decide))
  · have he := execInstrEnd_of hr hc hs
    rw [stores_isEmpty_of_loads hloads, if_pos rfl] at he
    exact .of_within he rfl (execInstrEnd_only (.refl ..) (List.Subset.refl _) he)
  · have he := execInstrEnd_stops hr hc hs hne
    exact .of_within he rfl (execInstrEnd_only (.refl ..) (List.Subset.refl _) he)
  · have he := execIllegalInstruction_fails hi hr h
    exact .of_within he rfl (execIllegalInstruction_only (.refl ..) (List.Subset.refl _) he)
  · have he := execCheckpoint64_of hi he hb hst
    rw [hs] at he
    have hf := findInst_checkpointCounted hi
    exact .of_within he (congrArg (Option.map fun j => (j.ending, j.stop, j.tiles)) (findInst_stopInst_of_store st hf hstore))
      (stopInst_of_store_only st hf hstore (checkpointCounted_only ..) (by decide))
  · exact .of_same (execCheckpoint64_idle hi h) rfl
end

section
/-! PROOFS. Obligation O32: LDT and STT, their issue and their ends (R181, R187, R251, R265, R313, R437, R439, R454). -/

namespace Sys2Proof.Machine
open Sys2Proof

/-! ### The first issue changes no address -/

theorem markStart_eq (s : State) (i : Inst) (t : Task) :
    markStart s i t = { s with work := (markStart s i t).work, serve := (markStart s i t).serve } := by
  unfold markStart
  cases t.request <;> simp only <;> split <;> rfl

theorem opKey_of_parts (s : State) (w : Work) (v : Serve) (i : Inst) (t : Task) (x : Ins) (which n k : Nat) :
    opKey { s with work := w, serve := v } i t x which n k = opKey s i t x which n k := rfl

theorem tileStatus_of_parts (s : State) (w : Work) (v : Serve) (p tier a : Nat) :
    tileStatus { s with work := w, serve := v } p tier a = tileStatus s p tier a := rfl

theorem localTier_of_parts (s : State) (w : Work) (v : Serve) (tier a : Nat) :
    localTier { s with work := w, serve := v } tier a = localTier s tier a := rfl

theorem opKey_markStart (s : State) (i : Inst) (t : Task) (x : Ins) (which n k : Nat) :
    opKey (markStart s i t) i t x which n k = opKey s i t x which n k := by
  rw [markStart_eq, opKey_of_parts]

theorem tileStatus_markStart (s : State) (i : Inst) (t : Task) (p tier a : Nat) : tileStatus (markStart s i t) p tier a = tileStatus s p tier a := by
  rw [markStart_eq, tileStatus_of_parts]

theorem localTier_markStart (s : State) (i : Inst) (t : Task) (tier a : Nat) : localTier (markStart s i t) tier a = localTier s tier a := by
  rw [markStart_eq, localTier_of_parts]

theorem sramRead_of_sram {s u : State} (h : u.work.sram = s.work.sram) (k n : Nat) : sramRead u k n = sramRead s k n := by
  simp only [sramRead, h]

theorem sramRead_markStart (s : State) (i : Inst) (t : Task) (k n : Nat) : sramRead (markStart s i t) k n = sramRead s k n :=
  sramRead_of_sram (markStart_sram s i t) k n

theorem tierAddress_markStart (s : State) (i : Inst) (t : Task) (x : Ins) (which e : Nat) :
    tierAddress (markStart s i t) i t x which e = tierAddress s i t x which e := by
  simp only [tierAddress, opKey_markStart, sramRead_markStart]

/-! ### One tile instruction issues (R181, R185) -/

/-- Where the address stands in SRAM, its line lies in its space. -/
theorem opKey_of_indirect {s : State} {i : Inst} {t : Task} {x : Ins} {which e a : Nat} (h : tierAddress s i t x which e = some a)
    (hb : bit x.word 104 = true) : (opKey s i t x which 1 e).isSome = true := by
  simp only [tierAddress, hb, if_true, Option.map_eq_some_iff] at h
  obtain ⟨k, hk, -⟩ := h
  simp [hk]

/-- The extents of an instruction that runs once are those of its first execution. -/
theorem extentsOk_once {s : State} {i : Inst} {t : Task} {x : Ins} {ops : Nat → List (Nat × Nat)} (hx : executions i x = some 1)
    (h : ∀ o ∈ ops 0, (opKey s i t x o.1 o.2 0).isSome = true) : extentsOk s i t x ops = true := by
  simpa [extentsOk, hx, List.range_succ] using h

/-- The `Inst` has passed a tile instruction all of whose executions have issued. -/
def Inst.tilesPassed (i j : Inst) : Inst := { j with pc := i.pc + 16, execs := 0, issued := j.issued + 1 }
def tilesPassed (s : State) (i : Inst) : State := modInst s i.id i.tilesPassed

theorem findInst_retire_tilesPassed {s : State} {i j : Inst} (h : findInst s i.id = some j) (t : Task) (opc : Nat) :
    findInst (retire (tilesPassed s i) i t opc) i.id = some { i.tilesPassed j with retired := j.retired + 1 } :=
  (findInst_retire_same ..).trans (congrArg _ (findInst_modInst (f := i.tilesPassed) h fun _ => rfl))

theorem issueTiles_once {s u : State} {inst opc : Nat} {i j : Inst} {t : Task} {x : Ins} {ok : Ins → Bool} {ops : Extents}
    {f : Inst → Task → Ins → Nat → State → Exec} (hr : runsOnce s inst opc i t x) (h0 : i.execs = 0) (hroom : clusterTiles s i < 32)
    (hok : ok x = true) (he : extentsOk s i t x (ops s i t x) = true) (hf : f i t x 0 (markStart s i t) = (u, none))
    (hj : findInst u inst = some j) (hstop : j.stop = none) :
    issueTiles s inst opc ok ops f = retire (tilesPassed u i) i t opc := by
  obtain ⟨hready, hc, hx, -⟩ := hr
  obtain rfl := findInst_id (ready_spec hready).1
  have hn : Nat.min (1 - 0) (tileLimit - clusterTiles s i) = 1 := Nat.min_eq_left (by simp only [tileLimit]; omega)
  have hrun : runExecs (f i t x) 1 0 (markStart s i t) = (u, none) := by simp [runExecs, hf]
  have hu := stopHere_of_unasked (findInst_retire_tilesPassed hj t opc) hstop
  simp only [issueTiles, hready, h0, hc, hok, he, hx, Option.getD_some, hn, Bool.and_self, Bool.not_true, Bool.and_false, Bool.false_eq_true, if_false,
    Nat.one_ne_zero, hrun, Nat.sub_zero, if_true]
  exact hu

/-- While the cluster's transfers are outstanding the other executions wait. -/
theorem issueTiles_full {s : State} {inst opc : Nat} {i : Inst} {t : Task} {x : Ins} {ok : Ins → Bool} {ops : Extents}
    {f : Inst → Task → Ins → Nat → State → Exec} (hr : ready s inst opc = some (i, t, x)) (hstop : i.stop = none) (h0 : i.execs ≠ 0)
    (hlt : i.execs < (executions i x).getD 1) (hfull : 32 ≤ clusterTiles s i) :
    issueTiles s inst opc ok ops f = modInst s inst fun j => { j with execs := i.execs, issued := 0 } := by
  obtain ⟨hi, -⟩ := ready_spec hr
  have hn : Nat.min ((executions i x).getD 1 - i.execs) (tileLimit - clusterTiles s i) = 0 := by
    rw [show tileLimit - clusterTiles s i = 0 by simp only [tileLimit]; omega]
    exact Nat.min_zero _
  have hne : 0 ≠ (executions i x).getD 1 - i.execs := by omega
  have hu := stopHere_of_unasked (findInst_modInst (f := fun j => { j with execs := i.execs, issued := 0 }) hi fun _ => rfl) hstop
  simp only [issueTiles, hr, h0, decide_false, Bool.false_and, Bool.false_eq_true, if_false, hn, runExecs, if_true, if_neg hne, Nat.add_zero]
  exact hu

theorem does_tiles_full {c : Instr} {s : State} {inst opc : Nat} {i : Inst} {t : Task} {x : Ins} {ok : Ins → Bool} {ops : Extents}
    {f : Inst → Task → Ins → Nat → State → Exec} (he : exec c s = .next (issueTiles s inst opc ok ops f)) (hr : ready s inst opc = some (i, t, x))
    (hstop : i.stop = none) (h0 : i.execs ≠ 0) (hlt : i.execs < (executions i x).getD 1) (hfull : 32 ≤ clusterTiles s i) :
    Does c s [.work] fun u => (findInst u inst).map (fun j => (j.pc, j.execs, j.tiles)) = some (i.pc, i.execs, i.tiles) := by
  rw [issueTiles_full hr hstop h0 hlt hfull] at he
  exact .of_within he (congrArg (Option.map fun j => (j.pc, j.execs, j.tiles))
    (findInst_modInst (f := fun j => { j with execs := i.execs, issued := 0 }) (ready_spec hr).1 fun _ => rfl))
    (modInst_only (.refl ..) (by decide))

/-- A transfer joins those of its `Inst`. -/
def Inst.withTile (tl : Tile) (j : Inst) : Inst := { j with tiles := j.tiles ++ [tl] }

theorem findInst_addTile {s : State} {k : Nat} {j : Inst} (h : findInst s k = some j) (tl : Tile) : findInst (addTile s k tl) k = some (j.withTile tl) :=
  (findInst_modInst h fun _ => rfl : findInst (modInst s k (Inst.withTile tl)) k = _)

theorem markStart_mem (s : State) (i : Inst) (t : Task) : (markStart s i t).mem = s.mem := by rw [markStart_eq]

theorem markStart_nextTile (s : State) (i : Inst) (t : Task) : (markStart s i t).work.nextTile = s.work.nextTile := by rw [markStart_work]

theorem touchTile_work (s : State) (n : Nat) : (touchTile s n).work = s.work :=
  (touchTile_only (.refl _ s) (List.Subset.refl _)).only.keeps .work (by decide)

/-! ### LDT and STT (R181, R313, R437) -/

theorem ldtLines_plain {s : State} {t : Task} {x : Ins} (h : bit x.word 103 = false) (a : Option Nat) : ldtLines s t x a = 64 := by
  cases a <;> simp [ldtLines, decodePage, h]

/-- The transfers that LDT and STT make. -/
def ldtTile (s : State) (i : Inst) (x : Ins) (a kd : Nat) : Tile :=
  { id := s.work.nextTile, load := true, tier := x.spec 108 4, addr := a, sram := kd, decode := false, width := x.spec 105 3, pc := i.pc }
def sttTile (s : State) (i : Inst) (t : Task) (x : Ins) (a ka : Nat) : Tile :=
  { id := s.work.nextTile, load := false, tier := x.spec 108 4, addr := a, sram := ka, bytes := sramRead s ka 4096,
    poison := sramPoison (markStart s i t) ka 4096, pc := i.pc }

section
variable {s : State} {inst : Nat} {i : Inst} {t : Task} {x : Ins} {tier a : Nat}

theorem does_ldt {d kd : Nat} (hr : runsOnce s inst 0x01 i t x) (h0 : i.execs = 0) (hroom : clusterTiles s i < 32) (htier : tier = x.spec 108 4) (hlt : tier < 3)
    (hdec : bit x.word 103 = false) (ha : tierAddress s i t x 1 0 = some a) (hst : tileStatus s t.ptn tier a = 0) (hd : localTier s tier a = some d)
    (hk : operandAt s i t x 0 64 kd) :
    Does (.instrLdt inst) s [.freeCount, .work, .serve, .tel, .mem] fun u =>
      goesOn u inst i ∧ u.work.sram = s.work.sram ∧ u.mem.bytes = s.mem.bytes ∧
      (findInst u inst).map (fun j => j.tiles.map fun k => (k.id, k.load, k.tier, k.addr, k.sram)) =
        some ((i.tiles.map fun k => (k.id, k.load, k.tier, k.addr, k.sram)) ++ [(s.work.nextTile, true, tier, a, kd)]) := by
  obtain ⟨hi, -⟩ := ready_spec hr.1
  obtain rfl := findInst_id hi
  subst htier
  have hk' : opKey s i t x 0 64 0 = some kd := hk
  have htouch := (findInst_of_work (touchTile_work (markStart s i t) (d / 4096)) i.id).trans (findInst_markStart hi t)
  have hj := findInst_addTile htouch (ldtTile s i x a kd)
  have he : execInstrLdt i.id s = .next (retire (tilesPassed (addTile (touchTile (markStart s i t) (d / 4096)) i.id (ldtTile s i x a kd)) i) i t 0x01) := by
    refine congrArg _ (issueTiles_once hr h0 hroom ?_ (extentsOk_once hr.2.2.1 ?_) ?_ hj hr.2.2.2)
    · simp [hlt, hdec]
    · simp only [ldtLines_plain hdec, List.mem_cons, forall_eq_or_imp]
      refine ⟨by rw [hk']; rfl, fun o ho => ?_⟩
      split at ho
      · next hb =>
        obtain rfl := List.mem_singleton.mp ho
        exact opKey_of_indirect ha hb
      · exact absurd ho List.not_mem_nil
    · simp only [tierAddress_markStart, ha, tileStatus_markStart, hst, opKey_markStart, ldtLines_plain hdec, hk', localTier_markStart, hd,
        markStart_nextTile, hdec]
      rfl
  have hu := findInst_retire_tilesPassed hj t 0x01
  refine .of_within he ⟨?_, ?_, ?_, ?_⟩ (retire_only (modInst_only (addTile_only (touchTile_only (markStart_only (.refl ..) (by decide)) (by decide)) (by decide))
    (by decide)) (by decide))
  · exact congrArg (Option.map (·.pc)) hu
  · refine (retire_sram ..).trans ?_
    simp only [tilesPassed, addTile, modInst, State.modWork_work, touchTile_work, markStart_sram]
  · rw [(retire_only (.refl [.freeCount, .work, .tel] _) (List.Subset.refl _)).only.keeps .mem (by decide)]
    simp only [tilesPassed, addTile, modInst, State.modWork_mem, touchTile_bytes, markStart_mem]
  · rw [hu]
    simp [Inst.tilesPassed, Inst.withTile, Inst.begun, ldtTile]

theorem does_stt {ka : Nat} (hr : runsOnce s inst 0x02 i t x) (h0 : i.execs = 0) (hroom : clusterTiles s i < 32) (htier : tier = x.spec 108 4) (hlt : tier < 3)
    (ha : tierAddress s i t x 0 0 = some a) (hst : tileStatus s t.ptn tier a = 0) (hd : (localTier s tier a).isSome = true) (hk : operandAt s i t x 1 64 ka) :
    Does (.instrStt inst) s [.freeCount, .work, .serve, .tel] fun u => goesOn u inst i ∧ u.work.sram = s.work.sram ∧
      (findInst u inst).map (fun j => j.tiles.map fun k => (k.id, k.load, k.addr, k.bytes)) =
        some ((i.tiles.map fun k => (k.id, k.load, k.addr, k.bytes)) ++ [(s.work.nextTile, false, a, sramRead s ka 4096)]) := by
  obtain ⟨hi, -⟩ := ready_spec hr.1
  obtain rfl := findInst_id hi
  subst htier
  have hk' : opKey s i t x 1 64 0 = some ka := hk
  have hj := findInst_addTile (findInst_markStart hi t) (sttTile s i t x a ka)
  have he : execInstrStt i.id s = .next (retire (tilesPassed (addTile (markStart s i t) i.id (sttTile s i t x a ka)) i) i t 0x02) := by
    refine congrArg _ (issueTiles_once hr h0 hroom (decide_eq_true hlt) (extentsOk_once hr.2.2.1 ?_) ?_ hj hr.2.2.2)
    · simp only [List.mem_cons, forall_eq_or_imp]
      refine ⟨by rw [hk']; rfl, fun o ho => ?_⟩
      split at ho
      · next hb =>
        obtain rfl := List.mem_singleton.mp ho
        exact opKey_of_indirect ha hb
      · exact absurd ho List.not_mem_nil
    · simp only [tierAddress_markStart, ha, tileStatus_markStart, hst, opKey_markStart, hk', localTier_markStart, hd, markStart_nextTile, sramRead_markStart]
      rfl
  have hu := findInst_retire_tilesPassed hj t 0x02
  refine .of_within he ⟨?_, ?_, ?_⟩ (retire_only (modInst_only (addTile_only (markStart_only (.refl ..) (by decide)) (by decide)) (by decide)) (by decide))
  · exact congrArg (Option.map (·.pc)) hu
  · refine (retire_sram ..).trans ?_
    simp only [tilesPassed, addTile, modInst, State.modWork_work, markStart_sram]
  · rw [hu]
    simp [Inst.tilesPassed, Inst.withTile, Inst.begun, sttTile]

end

/-! ### A tile moves for an `Inst` (R454) -/

/-- The `Inst` has moved tiles. -/
def Inst.movedTiles (n : Nat) (j : Inst) : Inst := { j with moved := j.moved + n }

theorem findInst_tileCount {s : State} {i : Inst} (h : findInst s i.id = some i) (ix n : Nat) :
    findInst (tileCount s i ix n) i.id = some (i.movedTiles n) :=
  (findInst_modInst h fun _ => rfl : findInst (modInst s i.id (Inst.movedTiles n)) i.id = _)

@[simp] theorem tileCount_sram (s : State) (i : Inst) (ix n : Nat) : (tileCount s i ix n).work.sram = s.work.sram := rfl

@[simp] theorem instTiles_work (s : State) (i : Inst) (tile n : Nat) (w : Bool) : (instTiles s i tile n w).work = s.work :=
  (instTiles_only (.refl _ s) (List.Subset.refl _)).only.keeps .work (by decide)

@[simp] theorem chargeLines_work (s : State) (i : Inst) (p n : Nat) : (chargeLines s i p n).work = s.work :=
  (chargeLines_only (.refl _ s) (List.Subset.refl _)).only.keeps .work (by decide)

theorem passTiles_within {s u : State} {p l t id n : Nat} {load : Bool} (e : passTiles s p l t id load n = some u) : Within [.eph, .tel] s u :=
  passTiles_only_eq (.refl _ s) (List.Subset.refl _) e

/-- A tile that stands in the prefetch area, or that can come, is read. -/
theorem readTile_spec {s : State} {i : Inst} {t : Task} {tile id : Nat} (hi : findInst s i.id = some i)
    (h : s.mem.area.contains (instPhys s i, tile) = true ∨ (passTiles s t.ptn (uidCon i.uid) tile id true 1).isSome = true) :
    ∃ u, readTile s i t tile id = some u ∧ u.work.sram = s.work.sram ∧ findInst u i.id = some (i.movedTiles 1) := by
  by_cases ha : s.mem.area.contains (instPhys s i, tile) = true
  · have hw : (chargeLines (progCount (tileCount s i 4 1) (uidCon i.uid) 0x0C 1) i t.ptn 128).work = (tileCount s i 4 1).work := by simp
    exact ⟨_, if_pos ha, by rw [hw, tileCount_sram], (findInst_of_work hw _).trans (findInst_tileCount hi 4 1)⟩
  · obtain ⟨v, hv⟩ := Option.isSome_iff_exists.mp (h.resolve_left ha)
    have hvw : v.work = s.work := (passTiles_within hv).only.keeps .work (by decide)
    have hw : (instTiles (tileCount v i 4 1) i tile 1 false).work = (tileCount v i 4 1).work := instTiles_work ..
    refine ⟨_, (if_neg ha).trans (by rw [hv]), by rw [hw, tileCount_sram, hvw], (findInst_of_work hw _).trans (findInst_tileCount ?_ 4 1)⟩
    rw [findInst_of_work hvw, hi]

/-! ### A store to SRAM that no mirror follows (R264-R266, R439) -/

theorem mirrorStore_of_unmirrored {s u : State} {key n : Nat} (h : unmirrored s key n) (hs : u.serve = s.serve) (hc : u.cons = s.cons) :
    mirrorStore u key n = u := by
  unfold mirrorStore
  split
  · rfl
  · refine List.foldlRecOn (motive := fun v => v = u) _ _ rfl fun v hv g hg => ?_
    obtain ⟨hmem, hmir⟩ := List.mem_filter.mp hg
    subst hv
    split
    · rfl
    · next c b hst =>
      have hout : key + n ≤ stageKey v c b ∨ stageKey v c b + openBlocks g.geo * 4096 ≤ key := by
        rw [show stageKey v c b = stageKey s c b by simp only [stageKey, physOf, hc]]
        exact h g (hs ▸ hmem) hmir c b hst
      exact if_pos (by simp only [Nat.max_def, Nat.min_def]; split <;> split <;> omega)

/-- The `Inst` keeps the accumulators of the destinations that the store leaves alone (R204). -/
def Inst.accKept (key n : Nat) (j : Inst) : Inst :=
  { j with acc := j.acc.filter fun a => key + n ≤ a.1 || a.1 + operandBytes a.2.1 1024 ≤ key }

/-- Beside the bytes, such a store changes no more than tags and kept accumulators. -/
def tagsCleared (key n : Nat) (w : Work) : Work :=
  { w with
    tags := w.tags.filter fun e => !(key / 4096 ≤ e.1 && e.1 ≤ (key + n - 1) / 4096)
    insts := updIf (fun i => !i.acc.isEmpty) (Inst.accKept key n) w.insts }

theorem clearTags_of_unmirrored {s u : State} {key n : Nat} (h : unmirrored s key n) (hs : u.serve = s.serve) (hc : u.cons = s.cons) :
    clearTags u key n = u.modWork (tagsCleared key n) := by
  rw [clearTags, mirrorStore_of_unmirrored h hs hc]; rfl

theorem findInst_tagsCleared {s : State} {k : Nat} {i : Inst} (h : findInst s k = some i) (key n : Nat) :
    ∃ acc, findInst (s.modWork (tagsCleared key n)) k = some { i with acc := acc } := by
  have hf : findInst (s.modWork (tagsCleared key n)) k = (findInst s k).map fun j => if !j.acc.isEmpty then j.accKept key n else j :=
    find?_updIf (f := Inst.accKept key n) (fun _ _ => rfl) _
  rw [hf, h, Option.map_some]
  split
  · exact ⟨_, rfl⟩
  · exact ⟨i.acc, rfl⟩

theorem stored_of_put {s u : State} {key : Nat} {bs : List Byte} (h : u.work.sram = sramPutBytes s.work.sram key bs) : stored s u key bs := by
  refine ⟨List.ext_getElem (by simp [sramRead]) fun k h₁ h₂ => ?_, fun k hk => ?_⟩
  · simp only [sramRead, List.getElem_map, List.getElem_range, h]
    exact sget_sramPutBytes_inside bs _ _ h₂
  · rw [h]
    exact sget_sramPutBytes_outside bs _ hk

/-! ### A transfer ends (R183, R187) -/

/-- A transfer leaves those of its `Inst`. -/
def Inst.withoutTile (tile : Nat) (j : Inst) : Inst := { j with tiles := j.tiles.filter (·.id != tile) }

/-- An `Inst` that does not end goes on with its other transfers, or from the WAIT whose count is met. -/
theorem tileDone_cases {s : State} {inst tile : Nat} {i : Inst} (h : findInst s inst = some i) (he : i.ending = false) :
    tileDone s inst tile = modInst s inst (Inst.withoutTile tile) ∨ tileDone s inst tile = unstall (modInst s inst (Inst.withoutTile tile)) inst := by
  have hd : findInst (modInst s inst (Inst.withoutTile tile)) inst = some (i.withoutTile tile) := findInst_modInst h fun _ => rfl
  unfold tileDone
  extract_lets s₁
  rw [show findInst s₁ inst = some (i.withoutTile tile) from hd]
  simp only [show (i.withoutTile tile).ending = false from he, Bool.false_and, Bool.false_eq_true, if_false]
  split
  · split
    · exact .inr rfl
    · exact .inl rfl
  · exact .inl rfl

theorem tileDone_within {ps : List Part} {s₀ s : State} {inst tile : Nat} {i : Inst} (h : findInst s inst = some i) (he : i.ending = false)
    (hw : Within ps s₀ s) (hp : [.freeCount, .work, .tel] ⊆ ps) : Within ps s₀ (tileDone s inst tile) := by
  have hm := modInst_only (i := inst) (f := Inst.withoutTile tile) hw (subset_sub hp (by decide))
  obtain e | e := tileDone_cases h he (tile := tile) <;> rw [e]
  · exact hm
  · exact unstall_only hm hp

theorem tileDone_spec {s : State} {inst tile : Nat} {i : Inst} (h : findInst s inst = some i) (he : i.ending = false) :
    (tileDone s inst tile).work.sram = s.work.sram ∧ (tileDone s inst tile).work.tags = s.work.tags ∧
      (findInst (tileDone s inst tile) inst).map (·.tiles) = some (i.tiles.filter (·.id != tile)) := by
  have hd : findInst (modInst s inst (Inst.withoutTile tile)) inst = some (i.withoutTile tile) := findInst_modInst h fun _ => rfl
  obtain e | e := tileDone_cases h he (tile := tile) <;> rw [e]
  · exact ⟨rfl, rfl, congrArg (Option.map (·.tiles)) hd⟩
  · obtain ⟨hs, ht⟩ := unstall_keeps (modInst s inst (Inst.withoutTile tile)) inst
    obtain ⟨n, hn⟩ := findInst_unstall_same (modInst s inst (Inst.withoutTile tile)) inst
    exact ⟨hs, ht, by rw [hn, hd]; rfl⟩

/-- The frame that a whole tile fills is tagged with it (R439). -/
def frameTagged (s : State) (key tile : Nat) : State :=
  if key % 4096 = 0 then s.modWork fun w => { w with tags := cntSet w.tags (key / 4096) (tile + 1) } else s

theorem findInst_frameTagged (s : State) (key tile k : Nat) : findInst (frameTagged s key tile) k = findInst s k := by
  unfold frameTagged; split <;> rfl

theorem frameTagged_sram (s : State) (key tile : Nat) : (frameTagged s key tile).work.sram = s.work.sram := by
  unfold frameTagged; split <;> rfl

theorem frameTagged_tag (s : State) {key : Nat} (tile : Nat) (h : key % 4096 = 0) : cnt (frameTagged s key tile).work.tags (key / 4096) = tile + 1 := by
  rw [frameTagged, if_pos h]
  exact cnt_cntSet_same s.work.tags (key / 4096) (tile + 1)

theorem frameTagged_within {ps : List Part} {s₀ s : State} {key tile : Nat} (hw : Within ps s₀ s) (hp : [.work] ⊆ ps) :
    Within ps s₀ (frameTagged s key tile) := by
  unfold frameTagged
  split
  · exact modWork_only hw hp
  · exact hw

section
variable {s : State} {inst tile : Nat} {i : Inst} {t : Task} {tl : Tile} {d : Nat}

theorem does_ldtComplete (hi : findInst s inst = some i) (htl : i.tiles.find? (fun k => k.id == tile && k.load) = some tl) (ht : taskOf s i = some t)
    (hd : localTier s tl.tier tl.addr = some d) (hdec : tl.decode = false) (hend : i.ending = false) (hm : unmirrored s tl.sram 4096)
    (harea : s.mem.area.contains (instPhys s i, d / 4096) = true ∨ (passTiles s t.ptn (uidCon i.uid) (d / 4096) tile true 1).isSome = true) :
    Does (.ldtComplete inst tile) s [.freeCount, .eph, .work, .tel] fun u =>
      stored s u tl.sram (tierView s d 4096) ∧ (findInst u inst).map (·.tiles) = some (i.tiles.filter (·.id != tile)) ∧
      (tl.sram % 4096 = 0 → cnt u.work.tags (tl.sram / 4096) = d / 4096 + 1) := by
  obtain rfl := findInst_id hi
  obtain ⟨r, hr, hrs, hri⟩ := readTile_spec hi harea
  have hrw : Within [.eph, .work, .tel] s r := readTile_only_eq (.refl ..) (List.Subset.refl _) hr
  have hww : Within [.eph, .work, .tel] s (sramWriteP r tl.sram (tierView s d 4096) (tierPoison s d 4096)) := sramWriteP_only hrw (by decide)
  have hclear := clearTags_of_unmirrored hm (hww.only.keeps .serve (by decide)) (hww.only.keeps .cons (by decide))
  obtain ⟨acc, hci⟩ := findInst_tagsCleared (s := sramWriteP r tl.sram (tierView s d 4096) (tierPoison s d 4096)) hri tl.sram 4096
  rw [← hclear] at hci
  have hfi := (findInst_frameTagged _ tl.sram (d / 4096) i.id).trans hci
  obtain ⟨hus, hut, hui⟩ := tileDone_spec (tile := tile) hfi hend
  have he : exec (.ldtComplete i.id tile) s =
      .next (tileDone (frameTagged (clearTags (sramWriteP r tl.sram (tierView s d 4096) (tierPoison s d 4096)) tl.sram 4096) tl.sram (d / 4096)) i.id tile) := by
    refine (exec_ldtComplete i.id tile s).trans ?_
    simp only [execLdtComplete, hi, htl, ht, hd, hdec, Bool.false_eq_true, if_false, hr]
    rfl
  refine .of_within he ⟨stored_of_put ?_, hui, fun h => ?_⟩ (tileDone_within hfi hend (frameTagged_within ?_ (by decide)) (by decide))
  · rw [hus, frameTagged_sram, hclear]
    exact congrArg (sramPutBytes · tl.sram (tierView s d 4096)) hrs
  · rw [hut]
    exact frameTagged_tag _ _ h
  · rw [hclear]
    exact modWork_only (hww.mono (by decide)) (by decide)

end

/-! ### A store at its destination, and the seal of its page (R187, R251, R265) -/

/-- The tile of a store stands at its destination. -/
def tileStored (s : State) (i : Inst) (tl : Tile) (d : Nat) : State :=
  touchTile (tierWriteP (instTiles (tileCount s i 5 1) i (d / 4096) 1 true) d tl.bytes tl.poison) (d / 4096)

theorem tileStored_bytes (s : State) (i : Inst) (tl : Tile) (d : Nat) : (tileStored s i tl d).mem.bytes = sramPutBytes s.mem.bytes d tl.bytes := by
  rw [tileStored, touchTile_bytes, tierWriteP_bytes,
    (instTiles_only (.refl [.tel] _) (List.Subset.refl _)).only.keeps .mem (by decide)]
  rfl

theorem tileStored_work (s : State) (i : Inst) (tl : Tile) (d : Nat) : (tileStored s i tl d).work = (tileCount s i 5 1).work := by
  rw [tileStored, touchTile_work, (tierWriteP_only (.refl [.mem] _) (List.Subset.refl _)).only.keeps .work (by decide), instTiles_work]

theorem tileStored_within {ps : List Part} {s₀ s : State} {i : Inst} {tl : Tile} {d : Nat} (hw : Within ps s₀ s) (hp : [.work, .mem, .tel] ⊆ ps) :
    Within ps s₀ (tileStored s i tl d) :=
  touchTile_only (tierWriteP_only (instTiles_only (tileCount_only hw (subset_sub hp (by decide))) (subset_sub hp (by decide)))
    (subset_sub hp (by decide))) (subset_sub hp (by decide))

/-- A task that seals nothing has no seal to tell. -/
theorem sealTile_of_none {t : Task} (h : t.sealing = []) (s : State) (tile : Nat) : sealTile s t tile = s := by
  simp [sealTile, h]

/-- The page counts a tile for its seal. -/
def Page.sealCounts (tile : Nat) (g : Page) : Page := { g with sealDone := insAsc tile g.sealDone }

/-- A tile of the page that a task seals counts for the seal while others are missing. -/
theorem sealTile_counts {s : State} {t : Task} {tile num first h : Nat} {g : Page} (hp : t.page = some (num, first)) (hr : t.request = some h)
    (hg : findPage s t.ptn num = some g) (hlo : first ≤ tile) (hhi : tile < first + g.slotTiles)
    (hlen : (insAsc tile g.sealDone).length < g.slotTiles) : sealTile s t tile = modPage s t.ptn num (Page.sealCounts tile) := by
  have hfind : t.sealing.find? (fun x => (findPage s t.ptn x.1).any fun g => x.2 ≤ tile && tile < x.2 + g.slotTiles) = some (num, first) := by
    simp [Task.sealing, hp, hg, hlo, hhi]
  simp only [sealTile, hfind, hr, hg, hlen, decide_true, Bool.true_or, if_true]
  rfl

section
variable {s : State} {inst tile : Nat} {i : Inst} {t : Task} {tl : Tile} {d : Nat}

theorem sttWritten_stores {v : State} (hi : findInst s inst = some i) (htl : i.tiles.find? (fun k => k.id == tile && !k.load) = some tl)
    (ht : taskOf s i = some t) (hd : localTier s tl.tier tl.addr = some d) (hv : passTiles s t.ptn (uidCon i.uid) (d / 4096) tile false 1 = some v) :
    exec (.sttWritten inst tile) s = .next (tileDone (sealTile (tileStored v i tl d) t (d / 4096)) inst tile) := by
  refine (exec_sttWritten inst tile s).trans ?_
  simp only [execSttWritten, hi, htl, ht, hd, hv]
  rfl

theorem findInst_tileStored {v : State} (hi : findInst s i.id = some i) (hw : v.work = s.work) :
    findInst (tileStored v i tl d) i.id = some (i.movedTiles 1) :=
  (findInst_of_work (tileStored_work ..) _).trans (findInst_tileCount ((findInst_of_work hw _).trans hi) 5 1)

theorem does_sttWritten (hi : findInst s inst = some i) (htl : i.tiles.find? (fun k => k.id == tile && !k.load) = some tl) (ht : taskOf s i = some t)
    (hd : localTier s tl.tier tl.addr = some d) (hend : i.ending = false) (hpass : (passTiles s t.ptn (uidCon i.uid) (d / 4096) tile false 1).isSome = true)
    (hseal : t.sealing = []) :
    Does (.sttWritten inst tile) s [.freeCount, .eph, .work, .mem, .tel] fun u =>
      tierRead u d tl.bytes.length = tl.bytes ∧ (∀ a, a < d ∨ d + tl.bytes.length ≤ a → sget byte0 u.mem.bytes a = sget byte0 s.mem.bytes a) ∧
      u.work.sram = s.work.sram ∧ (findInst u inst).map (·.tiles) = some (i.tiles.filter (·.id != tile)) := by
  obtain rfl := findInst_id hi
  obtain ⟨v, hv⟩ := Option.isSome_iff_exists.mp hpass
  have hvw := passTiles_within hv
  have hwork := hvw.only.keeps .work (by decide)
  have hmem := hvw.only.keeps .mem (by decide)
  have he := sttWritten_stores hi htl ht hd hv
  rw [sealTile_of_none hseal] at he
  have hfi := findInst_tileStored (tl := tl) (d := d) hi hwork
  obtain ⟨hus, -, hui⟩ := tileDone_spec (tile := tile) hfi hend
  have hub : (tileDone (tileStored v i tl d) i.id tile).mem.bytes = sramPutBytes s.mem.bytes d tl.bytes := by
    rw [(tileDone_within hfi hend (.refl [.freeCount, .work, .tel] _) (List.Subset.refl _)).only.keeps .mem (by decide), tileStored_bytes, hmem]
  refine .of_within he ⟨tierRead_of_put hub, fun a ha => ?_, ?_, hui⟩
    (tileDone_within hfi hend (tileStored_within (hvw.mono (by decide)) (by decide)) (by decide))
  · rw [hub]
    exact sget_sramPutBytes_outside _ _ ha
  · rw [hus, tileStored_work, tileCount_sram, hwork]

theorem does_sttWritten_seal {num first h : Nat} {g : Page} (hi : findInst s inst = some i)
    (htl : i.tiles.find? (fun k => k.id == tile && !k.load) = some tl) (ht : taskOf s i = some t) (hd : localTier s tl.tier tl.addr = some d)
    (hend : i.ending = false) (hpass : (passTiles s t.ptn (uidCon i.uid) (d / 4096) tile false 1).isSome = true) (hp : t.page = some (num, first))
    (hr : t.request = some h) (hg : findPage s t.ptn num = some g) (hst : g.state = .sealing) (hlo : first ≤ d / 4096)
    (hhi : d / 4096 < first + g.slotTiles) (hlen : (insAsc (d / 4096) g.sealDone).length < g.slotTiles) :
    Does (.sttWritten inst tile) s [.freeCount, .eph, .work, .mem, .serve, .tel] fun u =>
      tierRead u d tl.bytes.length = tl.bytes ∧ (findPage u t.ptn num).map (fun p => (p.state, p.sealDone)) = some (.sealing, insAsc (d / 4096) g.sealDone) := by
  obtain rfl := findInst_id hi
  obtain ⟨v, hv⟩ := Option.isSome_iff_exists.mp hpass
  have hvw := passTiles_within hv
  have hsw : Within [.eph, .work, .mem, .tel] s (tileStored v i tl d) := tileStored_within (hvw.mono (by decide)) (by decide)
  have hg' : findPage (tileStored v i tl d) t.ptn num = some g :=
    (findPage_of_pages (congrArg (·.pages) (hsw.only.keeps .serve (by decide))) ..).trans hg
  have he := sttWritten_stores hi htl ht hd hv
  rw [sealTile_counts hp hr hg' hlo hhi hlen] at he
  have hfi : findInst (modPage (tileStored v i tl d) t.ptn num (Page.sealCounts (d / 4096))) i.id = some (i.movedTiles 1) :=
    findInst_tileStored hi (hvw.only.keeps .work (by decide))
  have hdone := (tileDone_within (tile := tile) hfi hend (.refl [.freeCount, .work, .tel] _) (List.Subset.refl _)).only
  refine .of_within he ⟨tierRead_of_put (s := v) ?_, ?_⟩
    (tileDone_within hfi hend (modPage_only (hsw.mono (by decide)) (by decide)) (by decide))
  · rw [hdone.keeps .mem (by decide)]
    exact tileStored_bytes ..
  · rw [findPage_of_pages (congrArg (·.pages) (hdone.keeps .serve (by decide))), findPage_modPage_same (f := Page.sealCounts (d / 4096)) fun _ => ⟨rfl, rfl⟩, hg']
    simp [Page.sealCounts, hst]

/-- The transfer of an `Inst` that is gone ends without effect. -/
theorem does_transfer_gone (hi : findInst s inst = none) :
    Does (.ldtComplete inst tile) s [] (fun u => u = s) ∧ Does (.sttWritten inst tile) s [] fun u => u = s := by
  have hl : execLdtComplete inst tile s = .next s := by simp only [execLdtComplete, hi]
  have hs : execSttWritten inst tile s = .next s := by simp only [execSttWritten, hi]
  exact ⟨.of_same ((exec_ldtComplete ..).trans hl) rfl, .of_same ((exec_sttWritten ..).trans hs) rfl⟩

end

end Sys2Proof.Machine

open Sys2Proof Sys2Proof.Machine

/-- Settles O32: a transfer that issues is one more of its `Inst`'s tiles, and one that ends leaves them after its bytes are put. -/
theorem tileTransfers : Obligations.TileTransfers := by
  unfold Obligations.TileTransfers
  refine ⟨?_, ?_, ?_, ?_, ?_, ?_, ?_, ?_⟩
  · intro inst i t x tier a d kd s hr h0 hroom htier hlt hdec ha hst hd hk
    exact does_ldt hr h0 hroom htier hlt hdec ha hst hd hk
  · intro inst i t x tier a ka s hr h0 hroom htier hlt ha hst hd hk
    exact does_stt hr h0 hroom htier hlt ha hst hd hk
  · intro inst i t x s hr hstop h0 hlt hfull
    exact does_tiles_full rfl hr hstop h0 hlt hfull
  · intro inst i t x s hr hstop h0 hlt hfull
    exact does_tiles_full rfl hr hstop h0 hlt hfull
  · intro inst tile i t tl d s hi htl ht hd hdec hend hm harea
    exact does_ldtComplete hi htl ht hd hdec hend hm harea
  · intro inst tile i t tl d s hi htl ht hd hend hpass hseal
    exact does_sttWritten hi htl ht hd hend hpass hseal
  · intro inst tile i t tl d num first h g s hi htl ht hd hend hpass hp hr hg hst hlo hhi hlen
    exact does_sttWritten_seal hi htl ht hd hend hpass hp hr hg hst hlo hhi hlen
  · intro inst tile s hi
    exact does_transfer_gone hi

end

section
/-! PROOFS. Obligation O35: request descriptors that are refused (R154, R468, R469, R502-R504). -/

namespace Sys2Proof.Machine
open Sys2Proof

/-! ### Records leave the registers in force -/

theorem msix_store (s : State) (fn vector : Nat) : (msix s fn vector).regs.store = s.regs.store := by
  unfold msix
  split
  · rfl
  · split <;> rfl

theorem ringPut_store (s : State) (ring : Nat) (r : Rec) : (ringPut s ring r).regs.store = s.regs.store := by
  unfold ringPut
  simp only
  split
  · split <;> simp [msix_store]
  · simp

theorem ringWrite_store (s : State) (ring : Nat) (r : Rec) : (ringWrite s ring r).regs.store = s.regs.store := by
  unfold ringWrite
  split
  · rfl
  · split
    · rfl
    · exact ringPut_store ..

theorem ringTake_store (s : State) (ring n : Nat) : (ringTake s ring n).regs.store = s.regs.store := by simp [ringTake]

/-! ### What a refusal leaves (R469) -/

/-- The requests, the pages and every register in force are what they were. -/
structure Untouched (s u : State) : Prop where
  reqs : u.serve.reqs = s.serve.reqs
  pages : u.serve.pages = s.serve.pages
  store : u.regs.store = s.regs.store

theorem Untouched.trans {s t u : State} (h : Untouched s t) (k : Untouched t u) : Untouched s u :=
  ⟨k.reqs.trans h.reqs, k.pages.trans h.pages, k.store.trans h.store⟩

theorem untouched_ringTake (s : State) (ring n : Nat) : Untouched s (ringTake s ring n) :=
  ⟨by simp, by simp, ringTake_store ..⟩

/-- Eviction that starts has chosen no page yet (R389). -/
theorem untouched_startEviction (s : State) (p : Nat) : Untouched s (startEviction s p) := by
  unfold startEviction
  split <;> exact ⟨rfl, rfl, rfl⟩

theorem untouched_reqRec (s : State) (pf : Bool) (p status rtype op handle tag epoch index length charged : Nat) :
    Untouched s (reqRec s pf p status rtype op handle tag epoch index length charged) :=
  ⟨by simp [reqRec], by simp [reqRec], ringWrite_store ..⟩

theorem untouched_srvMark (s : State) (p code n : Nat) : Untouched s (srvMark s p code n) := by
  refine ⟨?_, ?_, rfl⟩ <;> simp only [srvMark, State.modServe_serve] <;> split <;> rfl

theorem untouched_refuseReq (s : State) (v : View) (d : List Byte) (st handle : Nat) : Untouched s (refuseReq s v d st handle) := by
  unfold refuseReq
  extract_lets p r pf q s₁
  have h₁ : Untouched s s₁ := untouched_reqRec ..
  split
  · exact h₁.trans ((⟨rfl, rfl, rfl⟩ : Untouched s₁ (odCount s₁ (0x91C0 + p) 5)).trans (untouched_srvMark ..))
  · split
    · exact h₁.trans ⟨rfl, rfl, rfl⟩
    · exact h₁

/-- OP_DONE of a descriptor leaves the registers in force. -/
theorem answerOp_store (s : State) (v : View) (d : List Byte) (st : Nat) : (answerOp s v d st).regs.store = s.regs.store := by
  unfold answerOp
  extract_lets q s₁
  refine (untouched_reqRec ..).store.trans ?_
  simp only [s₁]
  split <;> rfl

/-! ### Descriptors that are refused -/

/-- The state in which a SUBMIT or CONTINUE is refused: its descriptor has been read, and where memory was short eviction has started (R389). -/
inductive RefusedFrom (s : State) (v : View) : State → Prop where
  | read : RefusedFrom s v (ringTake s (subRing v 0))
  | evicting (p : Nat) : RefusedFrom s v (startEviction (ringTake s (subRing v 0)) p)

theorem RefusedFrom.does {c : Instr} {s w : State} {v : View} {d : List Byte} {st handle : Nat} (h : RefusedFrom s v w)
    (he : exec c s = .next (refuseReq w v d st handle)) :
    Does c s [.out, .regs, .serve, .ctl, .tel] fun u => u.serve.reqs = s.serve.reqs ∧ u.serve.pages = s.serve.pages ∧ RegsUnchanged [] s u := by
  have hr : Within [.out, .regs, .serve, .ctl, .tel] s (ringTake s (subRing v 0)) := ringTake_only (.refl ..) (by decide)
  have hw : Untouched s w ∧ Within [.out, .regs, .serve, .ctl, .tel] s w := by
    cases h with
    | read => exact ⟨untouched_ringTake .., hr⟩
    | evicting p => exact ⟨(untouched_ringTake ..).trans (untouched_startEviction ..), startEviction_only hr (by decide)⟩
  have hu := hw.1.trans (untouched_refuseReq w v d st handle)
  exact .of_within he ⟨hu.reqs, hu.pages, .of_store hu.store⟩ (refuseReq_only hw.2 (by decide))

/-- A SUBMIT that its checks pass is refused as BUSY while there is no handle or no memory for it (R436, R468). -/
theorem acceptSubmit_refused {s w : State} {v : View} {d : List Byte} {m : Model} (hw : w = ringTake s (subRing v 0))
    (h : newSlot w (rdPtn d) = none ∨
      takeStructures w (rdPtn d) (m.layers * (leAt d 0x2C 4 / pageTokens (leAt d 0x1A 1 % 4)) * 4) (4 * rdInputLen d) = none) :
    ∃ t, acceptSubmit w v d m = refuseReq t v d stBUSY 0xFFFFFFFF ∧ RefusedFrom s v t := by
  cases hs : newSlot w (rdPtn d) with
  | none => exact ⟨w, by simp only [acceptSubmit, hs], hw ▸ .read⟩
  | some p => exact ⟨startEviction w (rdPtn d), by simp only [acceptSubmit, hs, h.resolve_left (by simp [hs])], hw ▸ .evicting _⟩

theorem execReqSubmit_refused {v : View} {desc : List Byte} {s : State} (ho : ringOpen s v (subRing v 0) = true)
    (hop : [2, 3, 4, 5].contains (rdOp desc) = false)
    (h : wrongPtn v (rdPtn desc) = true ∨ submitStatus (ringTake s (subRing v 0)) desc ≠ 0 ∨ newSlot (ringTake s (subRing v 0)) (rdPtn desc) = none ∨
      (∃ m, modelOf (ringTake s (subRing v 0)) (leAt desc 0x18 2) = some m ∧ takeStructures (ringTake s (subRing v 0)) (rdPtn desc)
        (m.layers * (leAt desc 0x2C 4 / pageTokens (leAt desc 0x1A 1 % 4)) * 4) (4 * rdInputLen desc) = none)) :
    ∃ t st, execReqSubmit v desc s = .next (refuseReq t v desc st 0xFFFFFFFF) ∧ RefusedFrom s v t := by
  have hg : (!ringOpen s v (subRing v 0) || [2, 3, 4, 5].contains (rdOp desc)) = false := by rw [ho, hop]; rfl
  simp only [execReqSubmit, hg, Bool.false_eq_true, if_false]
  split
  · exact ⟨_, _, rfl, .read⟩
  · next hw =>
    split
    · next hst hm =>
      have hroom := (h.resolve_left hw).resolve_left (absurd hst)
      simp only [hm, Option.some.injEq, exists_eq_left'] at hroom
      obtain ⟨t, ht, hf⟩ := acceptSubmit_refused rfl hroom
      exact ⟨t, _, congrArg _ ht, hf⟩
    · exact ⟨_, _, rfl, .read⟩

theorem execReqContinue_refused {v : View} {desc : List Byte} {s : State} (ho : ringOpen s v (subRing v 0) = true) (hop : rdOp desc = 2)
    (h : wrongPtn v (rdPtn desc) = true ∨ continueStatus (ringTake s (subRing v 0)) desc ≠ 0 ∨
      (∃ r, findReq s (rdHandle desc) = some r ∧ allocOwn (ringTake s (subRing v 0)) r.ptn (4 * rdInputLen desc) = none)) :
    ∃ t st, execReqContinue v desc s = .next (refuseReq t v desc st (rdHandle desc)) ∧ RefusedFrom s v t := by
  have hg : (!ringOpen s v (subRing v 0) || rdOp desc != 2) = false := by rw [ho, hop]; rfl
  have hf : findReq (ringTake s (subRing v 0)) (rdHandle desc) = findReq s (rdHandle desc) := by simp [findReq]
  simp only [execReqContinue, hg, Bool.false_eq_true, if_false]
  split
  · exact ⟨_, _, rfl, .read⟩
  · next hw =>
    split
    · next r hst hr =>
      obtain ⟨r', hr', hn⟩ := (h.resolve_left hw).resolve_left (absurd hst)
      obtain rfl := Option.some.inj (hr.symm.trans (hf.trans hr'))
      simp only [hn]
      exact ⟨_, _, rfl, .evicting _⟩
    · exact ⟨_, _, rfl, .read⟩

/-- A CANCEL, STATUS or TOKEN that is only answered changes no register. -/
theorem Does.of_answerOp {c : Instr} {s : State} {v : View} {d : List Byte} {st : Nat} (he : exec c s = .next (answerOp (ringTake s (subRing v 0)) v d st)) :
    Does c s [.out, .regs, .ctl, .tel] fun u => RegsUnchanged [] s u :=
  .of_within he (.of_store ((answerOp_store ..).trans (ringTake_store ..))) (answerOp_only (ringTake_only (.refl ..) (by decide)) (by decide))

/-- A descriptor of another partition, or one that a check fails, has a status other than OK. -/
theorem checked_ne_ok {v : View} {p st : Nat} (h : wrongPtn v p = true ∨ st ≠ 0) : (if wrongPtn v p = true then stACCESS else st) ≠ 0 := by
  split
  · decide
  · next hw => exact h.resolve_left hw

theorem execReqCancel_refused {v : View} {desc : List Byte} {s : State} (ho : ringOpen s v (subRing v 0) = true) (hop : rdOp desc = 3)
    (h : wrongPtn v (rdPtn desc) = true ∨ opStatus (ringTake s (subRing v 0)) desc true ≠ 0) :
    ∃ st, execReqCancel v desc s = .next (answerOp (ringTake s (subRing v 0)) v desc st) := by
  have hg : (!ringOpen s v (subRing v 0) || rdOp desc != 3) = false := by rw [ho, hop]; rfl
  simp only [execReqCancel, hg, Bool.false_eq_true, if_false]
  rw [if_pos (bne_iff_ne.mpr (checked_ne_ok h))]
  exact ⟨_, rfl⟩

theorem execReqToken_refused {v : View} {desc : List Byte} {s : State} (ho : ringOpen s v (subRing v 0) = true) (hop : rdOp desc = 5)
    (h : wrongPtn v (rdPtn desc) = true ∨ opStatus (ringTake s (subRing v 0)) desc true ≠ 0) :
    ∃ st, execReqToken v desc s = .next (answerOp (ringTake s (subRing v 0)) v desc st) := by
  have hg : (!ringOpen s v (subRing v 0) || rdOp desc != 5) = false := by rw [ho, hop]; rfl
  simp only [execReqToken, hg, Bool.false_eq_true, if_false]
  split
  · exact ⟨_, rfl⟩
  · split
    · next hst _ => exact absurd hst (checked_ne_ok h)
    · exact ⟨_, rfl⟩

theorem execReqStatus_refused {v : View} {desc : List Byte} {s : State} (ho : ringOpen s v (subRing v 0) = true) (hop : rdOp desc = 4)
    (h : wrongPtn v (rdPtn desc) = true ∨ opStatus (ringTake s (subRing v 0)) desc false ≠ 0) :
    ∃ st, execReqStatus v desc s = .next (answerOp (ringTake s (subRing v 0)) v desc st) := by
  have hg : (!ringOpen s v (subRing v 0) || rdOp desc != 4) = false := by rw [ho, hop]; rfl
  simp only [execReqStatus, hg, Bool.false_eq_true, if_false]
  split
  · next hst _ => exact absurd hst (checked_ne_ok h)
  · exact ⟨_, rfl⟩

/-- Nothing is read from a ring that is not open. -/
theorem execReq_closed {v : View} {s : State} (desc : List Byte) (h : ringOpen s v (subRing v 0) = false) :
    execReqSubmit v desc s = .next s ∧ execReqContinue v desc s = .next s ∧ execReqCancel v desc s = .next s ∧ execReqStatus v desc s = .next s ∧
      execReqToken v desc s = .next s := by
  simp [execReqSubmit, execReqContinue, execReqCancel, execReqStatus, execReqToken, h]

end Sys2Proof.Machine

open Sys2Proof Sys2Proof.Machine

/-- Settles O35: a SUBMIT or CONTINUE that is refused is only recorded, the others only answered, and a closed ring is left alone. -/
theorem requestsRefused : Obligations.RequestsRefused := by
  unfold Obligations.RequestsRefused
  refine ⟨fun v desc s ho hop h => ?_, fun v desc s ho hop h => ?_, fun v desc s ho h => ⟨fun hop => ?_, fun hop => ?_⟩, fun v desc s ho hop h => ?_,
    fun v desc s ho => ?_⟩
  · obtain ⟨_, _, he, hf⟩ := execReqSubmit_refused ho hop h
    exact hf.does he
  · obtain ⟨_, _, he, hf⟩ := execReqContinue_refused ho hop h
    exact hf.does he
  · obtain ⟨_, he⟩ := execReqCancel_refused ho hop h
    exact .of_answerOp he
  · obtain ⟨_, he⟩ := execReqToken_refused ho hop h
    exact .of_answerOp he
  · obtain ⟨_, he⟩ := execReqStatus_refused ho hop h
    exact .of_answerOp he
  · obtain ⟨hsubmit, hcontinue, hcancel, hstatus, htoken⟩ := execReq_closed desc ho
    exact ⟨.of_same hsubmit rfl, .of_same hcontinue rfl, .of_same hcancel rfl, .of_same hstatus rfl, .of_same htoken rfl⟩
end

section
/-! PROOFS. Results of the sequencer's instructions: the lengths of what the engines write (R194, R277), what the first issue leaves of
their operands (R162), and what one execution that stores its result leaves (R177, R204, R264, R439). -/

namespace Sys2Proof.Machine
open Sys2Proof

/-! ### Lengths of results (R194, R196, R277, R280) -/

@[simp] theorem length_sramRead (s : State) (k n : Nat) : (sramRead s k n).length = n := by simp [sramRead]

theorem le_alignLine (n : Nat) : n ≤ alignLine n := by
  simp only [alignLine, lines, cdiv]
  omega

@[simp] theorem length_padTo (n : Nat) (l : List Byte) : (padTo n l).length = max l.length n := by
  simp only [padTo, List.length_append, List.length_replicate]
  omega

theorem length_packCodes (w : Nat) (cs : List Nat) : (packCodes w cs).length = cdiv (cs.length * w) 8 := length_leBytes ..

theorem flatten_map_range_chunk {α : Type} (n m : Nat) (l : List α) :
    ((List.range m).map fun i => (l.drop (i * n)).take n).flatten = l.take (m * n) := by
  induction m with
  | zero => simp
  | succ m ih => simp [List.range_succ, ih, Nat.succ_mul, List.take_add]

/-- Nothing is lost between the chunks of a list. -/
theorem flatten_chunks {α : Type} {n : Nat} (hn : 0 < n) (l : List α) : (chunks n l).flatten = l := by
  rw [chunks, flatten_map_range_chunk, List.take_of_length_le]
  have hd := Nat.div_add_mod (l.length + n - 1) n
  have hm := Nat.mod_lt (l.length + n - 1) hn
  rw [Nat.mul_comm] at hd
  simp only [cdiv]
  omega

theorem length_flatten_mapIdx {α β : Type} (l : List (List α)) (f : Nat → List α → Nat → α → β) :
    (l.mapIdx fun j b => b.mapIdx (f j b)).flatten.length = l.flatten.length := by
  simp only [List.length_flatten]
  congr 1
  refine List.ext_getElem (by simp) fun k h₁ h₂ => by simp

/-- Pieces of one length. -/
theorem length_flatten_map {α β : Type} {l : List α} {f : α → List β} {n : Nat} (h : ∀ a ∈ l, (f a).length = n) :
    (l.map f).flatten.length = l.length * n := by
  rw [List.length_flatten, List.map_map, List.map_congr_left (f := List.length ∘ f) (g := fun _ => n) h]
  simp

theorem elemBytes_mono (f : Nat) {n m : Nat} (h : n ≤ m) : elemBytes f n ≤ elemBytes f m := by
  have := Nat.mul_le_mul_right (elemBits f) h
  simp only [elemBytes, cdiv]
  omega

theorem elemBytes_le_mxBytes (f n : Nat) : elemBytes f n ≤ mxBytes f n := by
  refine Nat.le_trans (elemBytes_mono f ?_) (le_alignLine _)
  simp only [cdiv]
  omega

/-- A result fills an operand of its format, scale array and all. -/
theorem length_writeNums (f : Nat) (sr : Option (Nat → Nat)) (l : List Num) : (writeNums f sr l).length = operandBytes f l.length := by
  unfold writeNums operandBytes
  split
  · have hle := elemBytes_le_mxBytes f l.length
    have hchunks : (chunks 32 l).length = cdiv l.length 32 := by simp [chunks]
    simp only [List.length_append, List.length_replicate, List.length_map, length_packCodes, length_flatten_mapIdx,
      flatten_chunks (show 0 < 32 by decide), hchunks]
    simp only [elemBytes] at hle
    omega
  · simp only [length_packCodes, List.length_mapIdx, elemBytes]

theorem operandBytes_le_lines (f n : Nat) : operandBytes f n ≤ fmtLines f n * 64 := le_alignLine _

theorem length_readVals {s : State} {f k n : Nat} {v : List Num} (h : readVals s f k n = some v) : v.length = n := by
  simp only [readVals, Option.map_eq_some_iff] at h
  obtain ⟨bs, -, rfl⟩ := h
  simp [readNums]

theorem length_accAdd {s : State} {x : Ins} {k : Nat} {v out : List Num} (h : accAdd s x k v = some out) : out.length = v.length := by
  unfold accAdd at h
  split at h
  · cases h; rfl
  · simp only [Option.map_eq_some_iff] at h
    obtain ⟨old, hold, rfl⟩ := h
    have hl := length_readVals hold
    split <;> simp [hl]

theorem length_tokenOut {s : State} {x : Ins} {k tok ix : Nat} {out : List Byte} (h : tokenOut s x k tok ix = some out) : out.length = 8 := by
  unfold tokenOut at h
  split at h
  · cases h; simp
  · simp only [Option.map_eq_some_iff] at h
    obtain ⟨b, -, rfl⟩ := h
    simp

@[simp] theorem length_matMul (fp : Bool) (k : Nat) (a b : List Num) (c : List Nat) : (matMul fp k a b c).length = 1024 := by simp [matMul]

@[simp] theorem length_pvTile (foot : List Byte) (v : List Num) (first : Bool) (o : List Nat) : (pvTile foot v first o).length = 1024 := by
  simp [pvTile]

/-! ### The first issue changes no operand (R162) -/

/-- Other tasks, instances and requests: all that a first issue changes. -/
def State.issued (s : State) (is : List Inst) (ts : List Task) (rs : List Req) : State :=
  { s with work := { s.work with insts := is, tasks := ts }, serve := { s.serve with reqs := rs } }

theorem markStart_issued (s : State) (i : Inst) (t : Task) : ∃ is ts rs, markStart s i t = s.issued is ts rs := by
  unfold markStart
  cases t.request <;> simp only <;> split <;> exact ⟨_, _, _, rfl⟩

section
variable (s : State) (i : Inst) (t : Task)

theorem readOp_markStart (k n : Nat) : readOp (markStart s i t) k n = readOp s k n := by
  obtain ⟨_, _, _, h⟩ := markStart_issued s i t
  rw [h]; rfl

theorem readVals_markStart (f k n : Nat) : readVals (markStart s i t) f k n = readVals s f k n := by
  simp only [readVals, readOp_markStart]

theorem kvqVals_markStart (p f w k rows c st skip : Nat) : kvqVals (markStart s i t) p f w k rows c st skip = kvqVals s p f w k rows c st skip := by
  obtain ⟨_, _, _, h⟩ := markStart_issued s i t
  rw [h]; rfl

theorem matVals_markStart (p f w k c st skip : Nat) : matVals (markStart s i t) p f w k c st skip = matVals s p f w k c st skip := by
  simp only [matVals, kvqVals_markStart, readVals_markStart]

theorem progAt_markStart (a n : Nat) : progAt (markStart s i t) a n = progAt s a n := by
  obtain ⟨_, _, _, h⟩ := markStart_issued s i t
  rw [h]; rfl

theorem modelOf_markStart (n : Nat) : modelOf (markStart s i t) n = modelOf s n := by
  obtain ⟨_, _, _, h⟩ := markStart_issued s i t
  rw [h]; rfl

theorem accAdd_markStart (x : Ins) (k : Nat) (v : List Num) : accAdd (markStart s i t) x k v = accAdd s x k v := by
  simp only [accAdd, readVals_markStart]

theorem tokenOut_markStart (x : Ins) (k tok ix : Nat) : tokenOut (markStart s i t) x k tok ix = tokenOut s x k tok ix := by
  simp only [tokenOut, readOp_markStart]

theorem movOut_markStart (x : Ins) (ka kd n : Nat) : movOut (markStart s i t) x ka kd n = movOut s x ka kd n := by
  obtain ⟨_, _, _, h⟩ := markStart_issued s i t
  rw [h]; rfl

theorem scratch_markStart (j : Inst) (b : Nat) :
    scratchKey (instPhys (markStart s i t) j) (instCluster j) b = scratchKey (instPhys s j) (instCluster j) b := by
  obtain ⟨_, _, _, h⟩ := markStart_issued s i t
  rw [h]; rfl

theorem encTable_markStart (k : Task) (m l c w n : Nat) : encTable (markStart s i t) k m l c w n = encTable s k m l c w n := by
  obtain ⟨_, _, _, h⟩ := markStart_issued s i t
  rw [h]; rfl

theorem unmirrored_markStart {k n : Nat} : unmirrored (markStart s i t) k n ↔ unmirrored s k n := by
  obtain ⟨_, _, _, h⟩ := markStart_issued s i t
  rw [h]; exact Iff.rfl

theorem heldAcc_markStart (f k : Nat) : heldAcc (markStart s i t) i f k = heldAcc s i f k := by
  have hacc : (findInst (markStart s i t) i.id).map (·.acc) = (findInst s i.id).map (·.acc) := by
    simp only [findInst, markStart_work]
    rw [find?_updIf_self (f := Inst.begun s) fun _ h => by exact h, Option.map_map]
    rfl
  simp only [heldAcc, hacc, readVals_markStart]

theorem accOf_markStart (x : Ins) (k : Nat) : accOf (markStart s i t) i x k = accOf s i x k := by
  simp only [accOf, heldAcc_markStart]

theorem markStart_serve : (markStart s i t).serve = match t.request with
    | some h => { s.serve with reqs := updIf (·.handle == h) (fun r => { r with dispatched := true }) s.serve.reqs }
    | none => s.serve := by
  unfold markStart
  cases t.request <;> simp only <;> split <;> rfl

theorem markStart_pages : (markStart s i t).serve.pages = s.serve.pages := by
  rw [markStart_serve]
  cases t.request <;> rfl

/-- The request of an `Inst` is the one it was, but that its task may count as dispatched. -/
theorem reqOf_markStart : ∃ g : Req → Bool, reqOf (markStart s i t) i = (reqOf s i).map fun r => { r with dispatched := g r } := by
  have htask : (taskOf (markStart s i t) i).bind (fun k => k.request.orElse fun _ => k.serves) =
      (taskOf s i).bind fun k => k.request.orElse fun _ => k.serves := by
    simp only [taskOf, findTask, markStart_work]
    split
    · rfl
    · rw [find?_updIf (f := Task.begun s) fun _ _ => rfl]
      cases s.work.tasks.find? (·.id == i.task) with
      | none => rfl
      | some k => simp only [Option.map_some, Option.bind_some]; split <;> rfl
  have hreq : ∃ g : Req → Bool, ∀ h, findReq (markStart s i t) h = (findReq s h).map fun r => { r with dispatched := g r } := by
    cases ht : t.request with
    | none =>
      refine ⟨Req.dispatched, fun h => ?_⟩
      rw [findReq, markStart_serve, ht]
      exact Option.map_id'.symm
    | some n =>
      refine ⟨fun r => if r.handle == n then true else r.dispatched, fun h => ?_⟩
      rw [findReq, markStart_serve, ht]
      refine (find?_updIf (f := fun r : Req => { r with dispatched := true }) (fun _ _ => rfl) _).trans ?_
      refine congrArg (fun g => Option.map g (findReq s h)) (funext fun r => ?_)
      by_cases hr : r.handle == n <;> simp [hr]
  obtain ⟨g, hg⟩ := hreq
  refine ⟨g, ?_⟩
  rw [reqOf, htask, reqOf, Option.map_bind]
  congr 1
  funext h
  exact hg h

theorem rowBlocks_markStart (k : Nat) : rowBlocks (reqOf (markStart s i t) i) k = rowBlocks (reqOf s i) k := by
  obtain ⟨g, hg⟩ := reqOf_markStart s i t
  rw [hg]
  cases reqOf s i <;> rfl

theorem width_markStart : ((reqOf (markStart s i t) i).map (·.widthCode)).getD 1 = ((reqOf s i).map (·.widthCode)).getD 1 := by
  obtain ⟨g, hg⟩ := reqOf_markStart s i t
  rw [hg, Option.map_map]
  rfl

theorem reqOf_markStart_of_some {r : Req} (h : reqOf s i = some r) : ∃ b, reqOf (markStart s i t) i = some { r with dispatched := b } := by
  obtain ⟨g, hg⟩ := reqOf_markStart s i t
  exact ⟨g r, by rw [hg, h]; rfl⟩

end

/-! ### What is done beside a result (R176, R300, R302, R906, R925) -/

/-- Of SRAM and the instances nothing has changed; counts, histograms, pages, tables and tasks may have. -/
structure Aside (s u : State) : Prop where
  within : Within [.work, .serve, .tel] s u
  sram : u.work.sram = s.work.sram
  insts : u.work.insts = s.work.insts

namespace Aside

theorem refl (s : State) : Aside s s := ⟨.refl .., rfl, rfl⟩

theorem trans {s u v : State} (h : Aside s u) (k : Aside u v) : Aside s v :=
  ⟨h.within.trans k.within, k.sram.trans h.sram, k.insts.trans h.insts⟩

theorem of_tel {s u : State} (h : Within [.tel] s u) : Aside s u :=
  ⟨h.mono (by decide), congrArg (·.sram) (h.only.keeps .work (by decide)), congrArg (·.insts) (h.only.keeps .work (by decide))⟩

theorem of_serve {s u : State} (h : Within [.serve] s u) : Aside s u :=
  ⟨h.mono (by decide), congrArg (·.sram) (h.only.keeps .work (by decide)), congrArg (·.insts) (h.only.keeps .work (by decide))⟩

theorem findInst {s u : State} (h : Aside s u) (k : Nat) : findInst u k = Machine.findInst s k := by
  simp only [Machine.findInst, h.insts]

variable (s : State) (i : Inst)

theorem chargeLines (p n : Nat) : Aside s (chargeLines s i p n) := .of_tel (chargeLines_only (.refl ..) (List.Subset.refl _))
theorem activity (p k n : Nat) : Aside s (activity s i p k n) := .of_tel (activity_only (.refl ..) (List.Subset.refl _))
theorem progCount (l ev n : Nat) : Aside s (progCount s l ev n) := .of_tel (progCount_only (.refl ..) (List.Subset.refl _))
theorem countDecode (p f n : Nat) : Aside s (countDecode s i p f n) := .of_tel (countDecode_only (.refl ..) (List.Subset.refl _))

theorem bumpCounter (uid ix n : Nat) : Aside s (bumpCounter s uid ix n) := ⟨bumpCounter_only (.refl ..) (by decide), rfl, rfl⟩

theorem countMac (p fa fb k n : Nat) : Aside s (countMac s i p fa fb k n) :=
  ((bumpCounter s i.uid 3 k).trans (activity ..)).trans (chargeLines ..)

theorem countHist (p m l c w : Nat) (bl : List KvBlock) : Aside s (countHist s p m l c w bl) :=
  .of_serve (countHist_only (.refl ..) (List.Subset.refl _))

theorem modPage (p n : Nat) (f : Page → Page) : Aside s (modPage s p n f) := .of_serve (modPage_only (.refl ..) (List.Subset.refl _))

theorem tabRefs (ns : List Nat) (up : Bool) : Aside s (ns.foldl (fun s n => tabRef s n up) s) :=
  .of_serve (foldl_only (.refl ..) fun _ _ h => tabRef_only h (List.Subset.refl _))

theorem modTask (n : Nat) (f : Task → Task) : Aside s (modTask s n f) := ⟨modTask_only (.refl ..) (by decide), rfl, rfl⟩

end Aside

/-! ### A result that no mirror follows (R204, R264-R266, R439) -/

theorem unmirrored.mono {s : State} {k n k' n' : Nat} (h : unmirrored s k n) (hlo : k ≤ k') (hhi : k' + n' ≤ k + n) : unmirrored s k' n' := by
  intro g hg hm c b hst
  have := h g hg hm c b hst
  omega

theorem unmirrored.congr {s u : State} {k n : Nat} (h : unmirrored s k n) (hs : u.serve = s.serve) (hc : u.cons = s.cons) : unmirrored u k n := by
  simp only [unmirrored, stageKey, physOf, hs, hc] at h ⊢
  exact h

/-- The first issue, stores and counts lead from `s` to `u`, in which SRAM is `m` and the `Inst` is `j` but for the accumulators that it keeps. -/
structure Stores (s : State) (i : Inst) (t : Task) (j : Inst) (u : State) (m : List (Nat × Byte)) : Prop where
  within : Within [.work, .tel] (markStart s i t) u
  sram : u.work.sram = m
  inst : ∃ acc, findInst u i.id = some { j with acc := acc }

namespace Stores
variable {s u v : State} {i j : Inst} {t : Task} {m : List (Nat × Byte)}

theorem start (hi : findInst s i.id = some i) (t : Task) : Stores s i t (i.begun s) (markStart s i t) s.work.sram :=
  ⟨.refl .., markStart_sram s i t, _, findInst_markStart hi t⟩

theorem count (h : Stores s i t j u m) (hv : Within [.tel] u v) : Stores s i t j v m := by
  have ha := Aside.of_tel hv
  obtain ⟨acc, hacc⟩ := h.inst
  exact ⟨h.within.trans (hv.mono (by decide)), ha.sram.trans h.sram, acc, (ha.findInst i.id).trans hacc⟩

theorem chargeLines (h : Stores s i t j u m) (k : Inst) (p n : Nat) : Stores s i t j (chargeLines u k p n) m :=
  h.count (chargeLines_only (.refl ..) (List.Subset.refl _))

theorem progCount (h : Stores s i t j u m) (l ev n : Nat) : Stores s i t j (progCount u l ev n) m :=
  h.count (progCount_only (.refl ..) (List.Subset.refl _))

theorem modInst (h : Stores s i t j u m) (f : Inst → Inst) (hid : ∀ k, (f k).id = k.id)
    (hacc : ∀ k acc, f { k with acc := acc } = { f k with acc := acc }) : Stores s i t (f j) (modInst u i.id f) m := by
  obtain ⟨acc, hj⟩ := h.inst
  exact ⟨modInst_only h.within (by decide), h.sram, acc, (findInst_modInst hj hid).trans (by rw [hacc])⟩

theorem write (h : Stores s i t j u m) (key : Nat) (bs : List Byte) (ws : List Nat) : Stores s i t j (sramWriteP u key bs ws) (sramPutBytes m key bs) :=
  ⟨sramWriteP_only h.within (by decide), congrArg (sramPutBytes · key bs) h.sram, h.inst⟩

/-- A store takes the tags and the accumulators that it overwrites. -/
theorem clear (h : Stores s i t j u m) (key n : Nat) : Stores s i t j (u.modWork (tagsCleared key n)) m := by
  obtain ⟨acc, hacc⟩ := h.inst
  exact ⟨modWork_only h.within (by decide), h.sram, findInst_tagsCleared hacc key n⟩

theorem serve (h : Stores s i t j u m) : u.serve = (markStart s i t).serve := h.within.only.keeps .serve (by decide)

theorem cons (h : Stores s i t j u m) : u.cons = s.cons :=
  (h.within.only.keeps .cons (by decide)).trans ((markStart_only (.refl [.work, .serve] s) (List.Subset.refl _)).only.keeps .cons (by decide))

theorem unmirrored (h : Stores s i t j u m) {k n : Nat} (hm : unmirrored s k n) : Machine.unmirrored u k n :=
  ((unmirrored_markStart s i t).mpr hm).congr h.serve (h.within.only.keeps .cons (by decide))

/-- Beside its bytes and their poison, a store that no mirror follows does no more. -/
theorem copy (h : Stores s i t j u m) {key n : Nat} (hm : Machine.unmirrored s key n) (bs : List Byte) (ws : List Nat) :
    Stores s i t j (clearTags (sramWriteP u key bs ws) key n) (sramPutBytes m key bs) := by
  rw [clearTags_of_unmirrored (u := sramWriteP u key bs ws) (h.unmirrored hm) rfl rfl]
  exact (h.write key bs ws).clear key n

theorem put (h : Stores s i t j u m) {key : Nat} {bs : List Byte} (hm : Machine.unmirrored s key bs.length) :
    Stores s i t j (putOp u key bs) (sramPutBytes m key bs) :=
  h.copy hm bs []

end Stores

/-- A read of the bytes that were put gives them. -/
theorem sramRead_of_put {u : State} {m : List (Nat × Byte)} {key : Nat} {bs : List Byte} (h : u.work.sram = sramPutBytes m key bs) :
    sramRead u key bs.length = bs :=
  (stored_of_put (s := u.modWork fun w => { w with sram := m }) h).1

/-- Of two stores that lie apart each is read as it was put, and no other byte has changed. -/
theorem reads_of_two_puts {s u : State} {a b : Nat} {as bs : List Byte} (h : u.work.sram = sramPutBytes (sramPutBytes s.work.sram a as) b bs)
    (hapart : a + as.length ≤ b ∨ b + bs.length ≤ a) :
    sramRead u a as.length = as ∧ sramRead u b bs.length = bs ∧
      ∀ k, k < a ∨ a + as.length ≤ k → k < b ∨ b + bs.length ≤ k → sget byte0 u.work.sram k = sget byte0 s.work.sram k := by
  refine ⟨?_, sramRead_of_put h, fun k hk hk' => ?_⟩
  · have hfirst := sramRead_of_put (u := s.modWork fun w => { w with sram := sramPutBytes s.work.sram a as }) (key := a) (bs := as) rfl
    refine Eq.trans (List.map_congr_left fun k hk => ?_) hfirst
    have hk := List.mem_range.mp hk
    rw [h]
    exact sget_sramPutBytes_outside bs _ (by omega)
  · rw [h, sget_sramPutBytes_outside _ _ hk', sget_sramPutBytes_outside _ _ hk]

/-! ### One instruction runs once (R162, R176) -/

/-- The operands of a first execution, as places and lines, lie in their spaces (R178, R180). -/
abbrev operandsInside (s : State) (i : Inst) (t : Task) (x : Ins) (l : List (Nat × Nat)) : Prop := ∀ o ∈ l, (opKey s i t x o.1 o.2 0).isSome = true

theorem two_inside {s : State} {i : Inst} {t : Task} {x : Ins} {p q : Nat × Nat} {kp kq : Nat} (hp : operandAt s i t x p.1 p.2 kp)
    (hq : operandAt s i t x q.1 q.2 kq) : operandsInside s i t x [p, q] :=
  List.forall_mem_cons.mpr ⟨Option.isSome_of_mem hp, List.forall_mem_singleton.mpr (Option.isSome_of_mem hq)⟩

theorem three_inside {s : State} {i : Inst} {t : Task} {x : Ins} {p q r : Nat × Nat} {kp kq kr : Nat} (hp : operandAt s i t x p.1 p.2 kp)
    (hq : operandAt s i t x q.1 q.2 kq) (hr : operandAt s i t x r.1 r.2 kr) : operandsInside s i t x [p, q, r] :=
  List.forall_mem_cons.mpr ⟨Option.isSome_of_mem hp, two_inside hq hr⟩

/-- The `Inst` when an instruction has left it as `j` and has retired. -/
def Inst.done (i j : Inst) : Inst := { i.passed j with retired := j.retired + 1 }

/-- The state of an `Inst` that goes on. -/
def Inst.going (j : Inst) : Prop := j.stop = none ∧ j.wait = none ∧ j.sync = none

section
variable {s u : State} {inst opc : Nat} {i j : Inst} {t : Task} {x : Ins} {ok : Inst → Task → Ins → Bool} {ops : Extents}
  {f : Inst → Task → Ins → Nat → State → Exec}

/-- One that runs goes on behind its instruction. -/
theorem going_begun (hr : runsOnce s inst opc i t x) : (i.begun s).going := by
  obtain ⟨-, -, -, -, hwait, hsync⟩ := ready_spec hr.1
  exact ⟨hr.2.2.2, hwait, hsync⟩

theorem issue_retires (hr : runsOnce s inst opc i t x) (hok : ok i t x = true) (hext : operandsInside s i t x (ops s i t x 0))
    (hf : f i t x 0 (markStart s i t) = execOk u) (hj : findInst u inst = some j) (hgo : j.going) :
    issue s inst opc ok ops f = retire (passed u i) i t opc := by
  obtain ⟨hstop, hwait, hsync⟩ := hgo
  rw [issue_once hr hok (extentsOk_once hr.2.2.1 hext) hf hj hstop, if_neg (by simp [stalled, hwait, hsync])]

/-- What retires leaves SRAM and the serving state as its execution has left them. -/
theorem retired_serve : (retire (passed u i) i t opc).serve = u.serve :=
  (retire_only (.refl [.freeCount, .work, .tel] (passed u i)) (List.Subset.refl _)).only.keeps .serve (by decide)

theorem retired_sram : (retire (passed u i) i t opc).work.sram = u.work.sram := retire_sram ..

theorem retired_within (h : Within [.work, .serve, .tel] (markStart s i t) u) :
    Within [.freeCount, .work, .serve, .tel] s (retire (passed u i) i t opc) :=
  retire_only (passed_only ((markStart_only (.refl ..) (by decide)).trans (h.mono (by decide))) (by decide)) (by decide)

/-- An instruction that has run once, from what its execution leaves. -/
theorem issue_leaves (hr : runsOnce s inst opc i t x) (hok : ok i t x = true) (hext : operandsInside s i t x (ops s i t x 0))
    (hf : f i t x 0 (markStart s i t) = execOk u) (hw : Within [.work, .serve, .tel] (markStart s i t) u) (hj : findInst u inst = some j)
    (hgo : j.going) :
    Within [.freeCount, .work, .serve, .tel] s (issue s inst opc ok ops f) ∧ (issue s inst opc ok ops f).work.sram = u.work.sram ∧
      (issue s inst opc ok ops f).serve = u.serve ∧ findInst (issue s inst opc ok ops f) inst = some (i.done j) := by
  obtain rfl := findInst_id (ready_spec hr.1).1
  rw [issue_retires hr hok hext hf hj hgo]
  exact ⟨retired_within hw, retired_sram, retired_serve, findInst_retire_passed hj t opc⟩

theorem does_once {c : Instr} {P : State → Prop} (he : exec c s = .next (issue s inst opc ok ops f)) (hr : runsOnce s inst opc i t x)
    (hok : ok i t x = true) (hext : operandsInside s i t x (ops s i t x 0))
    (hf : f i t x 0 (markStart s i t) = execOk u) (hw : Within [.work, .serve, .tel] (markStart s i t) u) (hj : findInst u inst = some j)
    (hgo : j.going) (hP : ∀ v, v.work.sram = u.work.sram → findInst v inst = some (i.done j) → P v) :
    Does c s [.freeCount, .work, .serve, .tel] P := by
  obtain ⟨hwithin, hsram, -, hinst⟩ := issue_leaves hr hok hext hf hw hj hgo
  exact .of_within he (hP _ hsram hinst) hwithin

/-- The stores of an instruction that runs. -/
theorem stores_of_runsOnce (hr : runsOnce s inst opc i t x) : Stores s i t (i.begun s) (markStart s i t) s.work.sram := by
  obtain rfl := findInst_id (ready_spec hr.1).1
  exact .start (ready_spec hr.1).1 t

/-- What an issue leaves that stores, counts and changes the serving state. -/
theorem issue_records {w : State} {m : List (Nat × Byte)} {Q : State → Prop} (hr : runsOnce s inst opc i t x) (hok : ok i t x = true)
    (hext : operandsInside s i t x (ops s i t x 0)) (hs : Stores s i t j w m) (hgo : j.going)
    (hf : ∃ u, f i t x 0 (markStart s i t) = execOk u ∧ Aside w u ∧ Q u) :
    Within [.freeCount, .work, .serve, .tel] s (issue s inst opc ok ops f) ∧ (issue s inst opc ok ops f).work.sram = m ∧
      (∃ acc, findInst (issue s inst opc ok ops f) inst = some (i.done { j with acc := acc })) ∧
      ∃ u, (issue s inst opc ok ops f).serve = u.serve ∧ Q u := by
  obtain ⟨u, hu, haside, hQ⟩ := hf
  obtain rfl := findInst_id (ready_spec hr.1).1
  obtain ⟨acc, hj⟩ := hs.inst
  obtain ⟨hwithin, hsram, hserve, hinst⟩ :=
    issue_leaves hr hok hext hu ((hs.within.mono (by decide)).trans haside.within) ((haside.findInst i.id).trans hj) hgo
  exact ⟨hwithin, hsram.trans (haside.sram.trans hs.sram), ⟨acc, hinst⟩, u, hserve, hQ⟩

/-- What an issue leaves that stores and counts. -/
theorem issue_stores {w : State} {m : List (Nat × Byte)} (hr : runsOnce s inst opc i t x) (hok : ok i t x = true)
    (hext : operandsInside s i t x (ops s i t x 0)) (hs : Stores s i t j w m) (hgo : j.going)
    (hf : ∃ u, f i t x 0 (markStart s i t) = execOk u ∧ Aside w u) :
    Within [.freeCount, .work, .serve, .tel] s (issue s inst opc ok ops f) ∧ (issue s inst opc ok ops f).work.sram = m ∧
      ∃ acc, findInst (issue s inst opc ok ops f) inst = some (i.done { j with acc := acc }) := by
  obtain ⟨u, hu, haside⟩ := hf
  obtain ⟨hwithin, hsram, hinst, -⟩ := issue_records (Q := fun _ => True) hr hok hext hs hgo ⟨u, hu, haside, trivial⟩
  exact ⟨hwithin, hsram, hinst⟩

/-- An instruction that stores and counts. -/
theorem does_stores {c : Instr} {P : State → Prop} {w : State} {m : List (Nat × Byte)} (he : exec c s = .next (issue s inst opc ok ops f))
    (hr : runsOnce s inst opc i t x) (hok : ok i t x = true) (hext : operandsInside s i t x (ops s i t x 0))
    (hs : Stores s i t j w m) (hgo : j.going) (hf : ∃ u, f i t x 0 (markStart s i t) = execOk u ∧ Aside w u)
    (hP : ∀ v acc, v.work.sram = m → findInst v inst = some (i.done { j with acc := acc }) → P v) :
    Does c s [.freeCount, .work, .serve, .tel] P := by
  obtain ⟨hwithin, hsram, acc, hinst⟩ := issue_stores hr hok hext hs hgo hf
  exact .of_within he (hP _ acc hsram hinst) hwithin

/-- An instruction that stores one result and counts. -/
theorem does_stored {c : Instr} {kd : Nat} {bs : List Byte} (he : exec c s = .next (issue s inst opc ok ops f)) (hr : runsOnce s inst opc i t x)
    (hok : ok i t x = true) (hext : operandsInside s i t x (ops s i t x 0)) (hm : unmirrored s kd bs.length)
    (hf : ∃ u, f i t x 0 (markStart s i t) = execOk u ∧ Aside (putOp (markStart s i t) kd bs) u) :
    Does c s [.freeCount, .work, .serve, .tel] fun u => stored s u kd bs ∧ goesOn u inst i :=
  does_stores he hr hok hext ((stores_of_runsOnce hr).put hm) (going_begun hr) hf
    fun _ _ hv hi => ⟨stored_of_put hv, congrArg (Option.map (·.pc)) hi⟩

/-- The `Inst` keeps the accumulators of a destination (R204). -/
def Inst.keeps (key fd : Nat) (acc : List Nat) (j : Inst) : Inst := { j with acc := (j.acc.filter (·.1 != key)) ++ [(key, fd, acc)] }

/-- A product that stores its tile of accumulators, keeps them and counts. -/
theorem does_accumulated {c : Instr} {kd : Nat} {acc : List Nat} (he : exec c s = .next (issue s inst opc ok ops f)) (hr : runsOnce s inst opc i t x)
    (hok : ok i t x = true) (hext : operandsInside s i t x (ops s i t x 0)) (hlen : acc.length = 1024)
    (hm : unmirrored s kd (operandBytes x.fd 1024))
    (hf : ∃ u, f i t x 0 (markStart s i t) = execOk u ∧ Aside (putAcc (markStart s i t) i x kd acc) u) :
    Does c s [.freeCount, .work, .serve, .tel] fun u => accumulated s u inst x kd acc ∧ goesOn u inst i := by
  obtain ⟨u, hu, haside⟩ := hf
  have hm : unmirrored s kd (writeNums x.fd none (acc.map r32)).length := by rwa [length_writeNums, List.length_map, hlen]
  have hs := (stores_of_runsOnce hr).put hm
  obtain rfl := findInst_id (ready_spec hr.1).1
  obtain ⟨kept, hj⟩ := hs.inst
  have hk := findInst_modInst (f := Inst.keeps kd x.fd acc) hj fun _ => rfl
  have hgo := going_begun hr
  have hput : Within [.work, .tel] (markStart s i t) (putAcc (markStart s i t) i x kd acc) := modInst_only hs.within (by decide)
  refine does_once he hr hok hext hu ((hput.mono (by decide)).trans haside.within) ((haside.findInst i.id).trans hk) hgo
    fun v hv hi => ⟨⟨stored_of_put ?_, _, hi, ?_⟩, congrArg (Option.map (·.pc)) hi⟩
  · rw [hv, haside.sram]
    exact hs.sram
  · simp [Inst.done, Inst.passed, Inst.keeps]

end

end Sys2Proof.Machine
end

section
/-! PROOFS. Obligation O29: MMA, MMAQ, ROPE, SMAX, PV and MRG (R198-R204, R311, R323-R333, R341, R343). -/

namespace Sys2Proof.Machine
open Sys2Proof

/-! ### Products (R198-R204, R311) -/

section
variable {s : State} {inst opc w ka kb kd : Nat} {i : Inst} {t : Task} {x : Ins} {a b : List Num} {c : List Nat}

theorem matOps_inside (h : productOf s w i t x ka kb kd a b c) : operandsInside s i t x (matOps w s i t x 0) := by
  obtain ⟨ha, hb, hd, -⟩ := h
  exact three_inside ha hb hd

/-- What a product leaves whose operands are read. -/
theorem matExec_of_product (h : productOf s w i t x ka kb kd a b c) : ∃ u, matExec w i t x 0 (markStart s i t) = execOk u ∧
    Aside (putAcc (markStart s i t) i x kd (matMul (x.fa == 0) (kOf x (x.spec 103 7)) a b c)) u := by
  obtain ⟨hka, hkb, hkd, ha, hb, hc, -⟩ := h
  simp only [matExec, rowBlocks_markStart, opKey_markStart, matVals_markStart, accOf_markStart, hka, hkb, hkd, Nat.zero_mul, ite_self, ha, hb, hc]
  exact ⟨_, rfl, ((Aside.countMac ..).trans (.countDecode ..)).trans (.progCount ..)⟩

end

section
variable {s : State} {inst ka kb kd : Nat} {i : Inst} {t : Task} {x : Ins} {a b : List Num} {c : List Nat}

theorem does_mma (hr : runsOnce s inst 0x10 i t x) (hpair : pairOk x.fa x.fb = true) (hdst : matrixDst x.fd = true)
    (hk : kOk x (kOf x (x.spec 103 7)) = true) (hsplit : matSplit x = true) (hp : productOf s (reqWidth s inst) i t x ka kb kd a b c) :
    Does (.instrMma inst) s [.freeCount, .work, .serve, .tel] fun u =>
      accumulated s u inst x kd (matMul (x.fa == 0) (kOf x (x.spec 103 7)) a b c) ∧ goesOn u inst i := by
  have ⟨_, _, _, _, _, _, hm⟩ := hp
  exact does_accumulated rfl hr (by simp [hpair, hdst, hk, hsplit]) (matOps_inside hp) (length_matMul ..) hm (matExec_of_product hp)

theorem does_mmaq (hr : runsOnce s inst 0x11 i t x) (hpair : kvqPair x.fa x.fb = true) (hdst : matrixDst x.fd = true)
    (hw : kvqBits (x.spec 110 3) ≠ 0) (hk : kOk x (kOf x (x.spec 103 7)) = true) (hsplit : matSplit x = true)
    (hp : productOf s (x.spec 110 3) i t x ka kb kd a b c) :
    Does (.instrMmaq inst) s [.freeCount, .work, .serve, .tel] fun u =>
      accumulated s u inst x kd (matMul (x.fa == 0) (kOf x (x.spec 103 7)) a b c) ∧ goesOn u inst i := by
  have ⟨_, _, _, _, _, _, hm⟩ := hp
  have hwidth : ((ready s inst 0x11).map fun r => r.2.2.spec 110 3).getD 0 = x.spec 110 3 := by rw [hr.1]; rfl
  rw [← hwidth] at hp
  exact does_accumulated rfl hr (by simp [hpair, hdst, hw, hk, hsplit]) (matOps_inside hp) (length_matMul ..) hm (matExec_of_product hp)

end

/-! ### ROPE (R332, R333) -/

section
variable {s : State} {inst : Nat} {i : Inst} {t : Task} {x : Ins}

theorem ropeTab_markStart (s : State) (i : Inst) (t : Task) (x : Ins) : ropeTab (markStart s i t) x = ropeTab s x := progAt_markStart ..

theorem ropeLines_markStart (s : State) (i : Inst) (t : Task) (x : Ins) : ropeLines (markStart s i t) i x = ropeLines s i x := by
  simp only [ropeLines, ropeTab_markStart, width_markStart]

theorem does_rope {tab tb : List Byte} {w nb ka kt kd : Nat} {v out : List Num} (hr : runsOnce s inst 0x20 i t x) (hfa : x.fa ≤ 0xC) (hfd : x.fd = 1)
    (htab : tab = ropeTab s x) (hbad : ropeBad tab = false) (hsplit : splitOk x [(x.fa, ropeElems tab)] = true)
    (hw : w = ((reqOf s i).map (·.widthCode)).getD 1) (hnb : nb = (ropeElems tab + 31) / 32) (hka : operandAt s i t x 1 (ropeLines s i x) ka)
    (hkt : operandAt s i t x 2 1 kt) (hkd : operandAt s i t x 0 (fmtLines 1 (32 * ropeOut tab)) kd)
    (hkvq : isKvq x.fa = true → kvqVals s t.ptn x.fa w ka 1 (nb * 32) nb 0 = .ok v)
    (hplain : isKvq x.fa = false → readVals s x.fa ka (ropeElems tab) = some v) (htb : readOp s kt 64 = some tb)
    (hout : accAdd s x kd ((ropeRows tab (parseTile tb) (v.map w32)).map r32) = some out) (hm : unmirrored s kd (writeNums 1 none out).length) :
    Does (.instrRope inst) s [.freeCount, .work, .serve, .tel] fun u => stored s u kd (writeNums 1 none out) ∧ goesOn u inst i := by
  subst htab hw hnb
  refine does_stored rfl hr (by simp [hfa, hfd, hbad, hsplit]) (three_inside hka hkt hkd) hm ?_
  simp only [ropeTab_markStart, ropeLines_markStart, width_markStart, opKey_markStart, hka, hkt, hkd, Nat.zero_mul, ite_self, kvqVals_markStart,
    readVals_markStart, readOp_markStart, htb, accAdd_markStart]
  cases hq : isKvq x.fa with
  | true =>
    simp only [hkvq hq, if_true, hout]
    exact ⟨_, rfl, (Aside.countDecode ..).trans (.chargeLines ..)⟩
  | false =>
    simp only [hplain hq, Bool.false_eq_true, if_false, hout]
    exact ⟨_, rfl, (Aside.countDecode ..).trans (.chargeLines ..)⟩

end

/-! ### SMAX (R323-R328, R330, R331) -/

/-- A tile of weights is a footprint of 35 lines, and its row state has 32 rows. -/
theorem length_softmaxTile (t : TileRec) (score : List Nat) (scale cap capRecip w : Nat) (softcap bias first : Bool) (mask : Nat) (slope : Nat → Nat)
    (bitmap : List Byte) (m0 l0 : List Nat) :
    (softmaxTile t score scale cap capRecip w softcap bias first mask slope bitmap m0 l0).1.length = 2240 ∧
      (softmaxTile t score scale cap capRecip w softcap bias first mask slope bitmap m0 l0).2.1.length = 32 ∧
      (softmaxTile t score scale cap capRecip w softcap bias first mask slope bitmap m0 l0).2.2.length = 32 := by
  unfold softmaxTile
  extract_lets qpos head allowed xs zero row rows dead
  have hrow (r : Nat) : (row r).1.length = 32 := by
    have hzero : zero.length = 32 := List.length_replicate
    simp only [row, apply_ite Prod.fst, apply_ite List.length, hzero, List.length_map, List.length_range, ite_self]
  have hrows : rows.length = 32 := by simp [rows]
  have hweights : (rows.map fun q => (q.1.map (leBytes 2)).flatten).flatten.length = 2048 := by
    have hq : ∀ q ∈ rows, (q.1.map (leBytes 2)).flatten.length = 64 := fun q hq => by
      obtain ⟨r, -, rfl⟩ := List.mem_map.mp hq
      rw [length_flatten_map fun _ _ => length_leBytes 2 _, hrow]
    rw [length_flatten_map hq, hrows]
  have hscales : (rows.map fun q => leBytes 4 q.2.1).flatten.length = 128 := by
    rw [length_flatten_map fun _ _ => length_leBytes 4 _, hrows]
  refine ⟨?_, by simp [hrows], by simp [hrows]⟩
  simp only [List.length_append, hweights, hscales, length_leBytes]

section
variable {s : State} {inst : Nat} {i : Inst} {t : Task} {x : Ins}

theorem smaxOld_markStart (s : State) (i : Inst) (t : Task) (x : Ins) (rs : Nat) : smaxOld (markStart s i t) x rs = smaxOld s x rs := by
  simp only [smaxOld, readOp_markStart]

theorem smaxBits_markStart (s : State) (i : Inst) (t : Task) (x : Ins) (tr : TileRec) : smaxBits (markStart s i t) i x tr = smaxBits s i x tr := by
  simp only [smaxBits, scratch_markStart, readOp_markStart]

theorem smaxTile_markStart (s : State) (i : Inst) (t : Task) (x : Ins) (pr : List Byte) (tr : TileRec) (sc bm st : List Byte) :
    smaxTile (markStart s i t) x pr tr sc bm st = smaxTile s x pr tr sc bm st := by
  simp only [smaxTile, progAt_markStart]

/-- The row state as SMAX stores it. -/
def rowStateBytes (m l : List Nat) : List Byte := (m.map (leBytes 4)).flatten ++ (l.map (leBytes 4)).flatten

theorem length_rowStateBytes {m l : List Nat} (hm : m.length = 32) (hl : l.length = 32) : (rowStateBytes m l).length = 256 := by
  rw [rowStateBytes, List.length_append, length_flatten_map fun _ _ => length_leBytes 4 _, length_flatten_map fun _ _ => length_leBytes 4 _, hm, hl]

theorem does_smax {pr sc tb bm st : List Byte} {ka kt kd rs : Nat} {r : List Byte × List Nat × List Nat} (hr : runsOnce s inst 0x21 i t x)
    (hfa : x.fa = 0) (hmask : x.spec 103 3 < 6) (hpr : pr = progAt s (64 * x.spec 109 12) 64) (hka : operandAt s i t x 1 64 ka)
    (hkt : operandAt s i t x 2 1 kt) (hkd : operandAt s i t x 0 35 kd) (hsc : readOp s ka 4096 = some sc) (htb : readOp s kt 64 = some tb)
    (hbad : smaxBad x pr (parseTile tb) = false) (hrow : (parseTile tb).rowState + 4 ≤ 65536)
    (hmap : x.spec 103 3 = 5 → (parseTile tb).bitmap * 64 + (parseTile tb).kpos / 256 + 2 ≤ 65536 * 64)
    (hrs : rs = scratchKey (instPhys s i) (instCluster i) ((parseTile tb).rowState * 64)) (hst : smaxOld s x rs = some st)
    (hbm : smaxBits s i x (parseTile tb) = some bm) (hres : r = smaxTile s x pr (parseTile tb) sc bm st)
    (hm : unmirrored s kd 2240) (hmrs : unmirrored s rs 256) (hapart : kd + 2240 ≤ rs ∨ rs + 256 ≤ kd) :
    Does (.instrSmax inst) s [.freeCount, .work, .serve, .tel] fun u =>
      sramRead u kd 2240 = r.1 ∧ sramRead u rs 256 = (r.2.1.map (leBytes 4)).flatten ++ (r.2.2.map (leBytes 4)).flatten ∧ goesOn u inst i ∧
      ∀ k, k < kd ∨ kd + 2240 ≤ k → k < rs ∨ rs + 256 ≤ k → sget byte0 u.work.sram k = sget byte0 s.work.sram k := by
  obtain ⟨hfoot, hmax, hsum⟩ : r.1.length = 2240 ∧ r.2.1.length = 32 ∧ r.2.2.length = 32 := hres ▸ length_softmaxTile ..
  have hstate := length_rowStateBytes hmax hsum
  have hs := ((stores_of_runsOnce hr).put (key := kd) (bs := r.1) (by rwa [hfoot])).put (key := rs) (bs := rowStateBytes r.2.1 r.2.2) (by rwa [hstate])
  refine does_stores rfl hr (by simp [hfa, hmask]) (three_inside hka hkt hkd) hs (going_begun hr) ?_ fun v _ hv hi => ?_
  · have hok : (smaxBad x pr (parseTile tb) || decide (65536 < (parseTile tb).rowState + 4) ||
        decide (x.spec 103 3 = 5) && decide (65536 * 64 < (parseTile tb).bitmap * 64 + (parseTile tb).kpos / 256 + 2)) = false := by
      simp only [hbad, Bool.false_or, Bool.or_eq_false_iff, decide_eq_false_iff_not, Nat.not_lt, Bool.and_eq_false_iff]
      exact ⟨hrow, or_iff_not_imp_left.mpr fun h => hmap (not_not.mp h)⟩
    subst hpr hrs hres
    simp only [opKey_markStart, hka, hkt, hkd, readOp_markStart, hsc, htb, progAt_markStart, hok, Bool.false_eq_true, if_false, scratch_markStart,
      smaxBits_markStart, smaxOld_markStart, hbm, hst, smaxTile_markStart]
    exact ⟨_, rfl, ((Aside.progCount ..).trans (.activity ..)).trans (.chargeLines ..)⟩
  · obtain ⟨hweights, hrows, hother⟩ := reads_of_two_puts hv (by rwa [hfoot, hstate])
    rw [hfoot] at hweights hother
    rw [hstate] at hrows hother
    exact ⟨hweights, hrows, congrArg (Option.map (·.pc)) hi, hother⟩

end

/-! ### PV and MRG (R201, R204, R329, R341, R343) -/

section
variable {s : State} {inst : Nat} {i : Inst} {t : Task} {x : Ins}

theorem pvLines_markStart (s : State) (i : Inst) (t : Task) (x : Ins) : pvLines (markStart s i t) i x = pvLines s i x := by
  simp only [pvLines, width_markStart, rowBlocks_markStart]

theorem does_pv {w st ka kb kd : Nat} {foot : List Byte} {v : List Num} {o : List Nat} (hr : runsOnce s inst 0x22 i t x) (hfa : x.fa = 1)
    (hfb : (isHalf x.fb || isKvq x.fb) = true) (hdst : matrixDst x.fd = true) (hsteps : pvSteps x * kStep x.fa x.fb = 32)
    (hsplit : splitOk x [(x.fd, 1024)] = true) (hw : w = ((reqOf s i).map (·.widthCode)).getD 1) (hst : st = rowBlocks (reqOf s i) 32)
    (hka : operandAt s i t x 1 35 ka) (hkb : operandAt s i t x 2 (pvLines s i x) kb) (hkd : operandAt s i t x 0 (fmtLines x.fd 1024) kd)
    (hfoot : readOp s ka 2240 = some foot) (hv : matVals s t.ptn x.fb w kb 32 st 0 = .ok v)
    (ho : (if bit x.word 108 then some [] else heldAcc s i x.fd kd) = some o) (hm : unmirrored s kd (operandBytes x.fd 1024)) :
    Does (.instrPv inst) s [.freeCount, .work, .serve, .tel] fun u =>
      accumulated s u inst x kd (pvTile foot v (bit x.word 108) o) ∧ goesOn u inst i := by
  subst hw hst
  refine does_accumulated rfl hr (by simp [hfa, hfb, hdst, ← hsteps, hsplit]) (three_inside hka hkb hkd) (length_pvTile ..) hm ?_
  simp only [pvLines_markStart, width_markStart, rowBlocks_markStart, opKey_markStart, hka, hkb, hkd, readOp_markStart, hfoot, matVals_markStart,
    heldAcc_markStart, Nat.zero_mul, ite_self, hv, ho]
  exact ⟨_, rfl, ((Aside.countMac ..).trans (.countDecode ..)).trans (.progCount ..)⟩

/-- MRG stores what it makes of its two records, as a record or as the final values. -/
theorem does_mrg {ka0 kb0 ka kb kd n m : Nat} {a b out : List Byte} {h0 : PartialHdr} {ls : List Lane} (hr : runsOnce s inst 0x23 i t x)
    (hfd : x.fd ≤ 0xA) (hext : extentsOk s i t x (mrgOps s i t x) = true) (hka0 : operandAt s i t x 1 1 ka0) (hkb0 : operandAt s i t x 2 1 kb0)
    (hn : n = (parsePartial (sramRead s ka0 64)).bytes) (hn' : m = (parsePartial (sramRead s kb0 64)).bytes)
    (hka : operandAt s i t x 1 (lines n) ka) (hkb : operandAt s i t x 2 (lines m) kb) (ha : readOp s ka n = some a) (hb : readOp s kb m = some b)
    (hmerge : mergePartials a b = some (h0, ls))
    (hout : out = if bit x.word 103 then writeNums x.fd none ((ls.map finalise).flatten) else writePartial { h0 with bf16_ := t.bf16.getD h0.bf16_ } ls)
    (hkd : operandAt s i t x 0 (lines out.length) kd) (hm : unmirrored s kd out.length) :
    Does (.instrMrg inst) s [.freeCount, .work, .serve, .tel] fun u => stored s u kd out ∧ goesOn u inst i := by
  subst hn hn'
  refine does_stored rfl hr (by simp [hfd]) (fun o hmem => ?_) hm ?_
  · simp only [extentsOk, hr.2.2.1, Option.getD_some, List.all_eq_true] at hext
    exact hext 0 (by simp) o hmem
  · simp only [opKey_markStart, hka0, hkb0, sramRead_markStart, hka, hkb, readOp_markStart, ha, hb, hmerge, ← hout, hkd]
    exact ⟨_, rfl, (Aside.progCount ..).trans (.chargeLines ..)⟩

end

end Sys2Proof.Machine

open Sys2Proof Sys2Proof.Machine

/-- Settles O29: each instruction runs on the operands that its first issue leaves as they are, stores its result where no mirror follows, and
only counts besides. -/
theorem tensorResults : Obligations.TensorResults := by
  unfold Obligations.TensorResults
  refine ⟨?_, ?_, ?_, ?_, ?_, ?_⟩
  · intro inst i t x ka kb kd a b c s hr hpair hdst hk hsplit hp
    exact does_mma hr hpair hdst hk hsplit hp
  · intro inst i t x ka kb kd a b c s hr hpair hdst hw hk hsplit hp
    exact does_mmaq hr hpair hdst hw hk hsplit hp
  · intro inst i t x tab w nb ka kt kd v tb out s hr hfa hfd htab hbad hsplit hw hnb hka hkt hkd hkvq hplain htb hout hm
    exact does_rope hr hfa hfd htab hbad hsplit hw hnb hka hkt hkd hkvq hplain htb hout hm
  · intro inst i t x pr ka kt kd sc tb rs bm st r s hr hfa hmask hpr hka hkt hkd hsc htb hbad hrow hmap hrs hst hbm hres hm hmrs hapart
    exact does_smax hr hfa hmask hpr hka hkt hkd hsc htb hbad hrow hmap hrs hst hbm hres hm hmrs hapart
  · intro inst i t x w st ka kb kd foot v o s hr hfa hfb hdst hsteps hsplit hw hst hka hkb hkd hfoot hv ho hm
    exact does_pv hr hfa hfb hdst hsteps hsplit hw hst hka hkb hkd hfoot hv ho hm
  · rintro inst i t x ka0 kb0 ka kb kd n m a b h0 h ls s hr hfd hext hka0 hkb0 hn hn' hka hkb ha hb hmerge rfl
    refine ⟨fun hfin hkd hm => ?_, fun hfin hkd hm => ?_⟩
    · exact does_mrg hr hfd hext hka0 hkb0 hn hn' hka hkb ha hb hmerge (by simp [hfin]) hkd hm
    · exact does_mrg hr hfd hext hka0 hkb0 hn hn' hka hkb ha hb hmerge (by simp [hfin]) hkd hm
end

section
/-! PROOFS. Obligation O30: QNT, ENC, RED, NORM, ACT, SAMP, STOP and MOV (R192, R205, R211, R264-R301, R485, R486, R492). -/

namespace Sys2Proof.Machine
open Sys2Proof

section
variable {s : State} {inst n ka kd : Nat} {i : Inst} {t : Task} {x : Ins}

/-! ### RED, NORM and ACT (R192, R205, R211) -/

theorem does_red {bs : List Byte} {out : List Num} (hr : runsOnce s inst 0x40 i t x) (hfa : anyFmt x.fa = true) (hfd : anyFmt x.fd = true)
    (hop : x.spec 103 2 < 3) (hn : n ≠ 0) (hsplit : splitOk x [(x.fa, n)] = true) (hka : operandAt s i t x 1 (fmtLines x.fa n) ka)
    (hkd : operandAt s i t x 0 (fmtLines x.fd 1) kd) (hbs : readOp s ka (operandBytes x.fa n) = some bs)
    (hout : accAdd s x kd [reduce x.fa (x.spec 103 2) (readNums x.fa n bs) ((List.range n).map fun j => leAt bs (4 * j) 4)] = some out)
    (hm : unmirrored s kd (writeNums x.fd none out).length) :
    Does (.instrRed inst n) s [.freeCount, .work, .serve, .tel] fun u => stored s u kd (writeNums x.fd none out) ∧ goesOn u inst i := by
  refine does_stored rfl hr (by simp [hfa, hfd, hop, hn, hsplit]) (two_inside hka hkd) hm ?_
  simp only [opKey_markStart, hka, hkd, readOp_markStart, hbs, accAdd_markStart, hout]
  exact ⟨_, rfl, .chargeLines ..⟩

theorem does_norm {v out : List Num} {res : List (BitVec 32)} (hr : runsOnce s inst 0x41 i t x) (hfa : plainFmt x.fa = true) (hfd : plainFmt x.fd = true)
    (hn : n ≠ 0) (hsplit : splitOk x [(x.fa, n), (x.fd, n)] = true) (hka : operandAt s i t x 1 (fmtLines x.fa n) ka)
    (hkd : operandAt s i t x 0 (fmtLines x.fd n) kd) (hv : readVals s x.fa ka n = some v)
    (hres : res = Config.norm (bit x.word 103) (BitVec.ofNat 32 (sumSquares v)) (v.map fun a => BitVec.ofNat 32 (w32 a)))
    (hout : accAdd s x kd ((List.range n).map fun j => r32 (res.getD j 0).toNat) = some out) (hm : unmirrored s kd (writeNums x.fd none out).length) :
    Does (.instrNorm inst n) s [.freeCount, .work, .serve, .tel] fun u => stored s u kd (writeNums x.fd none out) ∧ goesOn u inst i := by
  subst hres
  refine does_stored rfl hr (by simp [hfa, hfd, hn, hsplit]) (two_inside hka hkd) hm ?_
  simp only [opKey_markStart, hka, hkd, readVals_markStart, hv, accAdd_markStart, hout]
  exact ⟨_, rfl, .chargeLines ..⟩

/-- The generator word of each element in the first execution of a conversion that rounds stochastically (R211, R216). -/
def actWords (i : Inst) (fn : Nat) : Option (Nat → Nat) :=
  if fn = 1 then some fun j => (philox j (i.args.getD 2 0 % 2 ^ 32) 2 0 (i.args.getD 3 0)).1 else none

theorem does_act {fn : Nat} {v out : List Num} (hr : runsOnce s inst 0x42 i t x) (hfa : plainFmt x.fa = true) (hfd : plainFmt x.fd = true)
    (hfn : fn = x.spec 103 4) (hlt : fn < 0xA) (hn : n ≠ 0) (hsplit : splitOk x [(x.fa, n), (x.fd, n)] = true)
    (hka : operandAt s i t x 1 (fmtLines x.fa n) ka) (hkd : operandAt s i t x 0 (fmtLines x.fd n) kd) (hv : readVals s x.fa ka n = some v)
    (hout : accAdd s x kd (if fn ≤ 1 then v else v.map fun a => r32 (actFn fn (w32 a))) = some out) (hm : unmirrored s kd (fmtLines x.fd n * 64)) :
    Does (.instrAct inst n) s [.freeCount, .work, .serve, .tel] fun u => stored s u kd (writeNums x.fd (actWords i fn) out) ∧ goesOn u inst i := by
  have hlen : out.length = n := by
    rw [length_accAdd hout, ← length_readVals hv]
    split <;> simp
  have hm : unmirrored s kd (writeNums x.fd (actWords i fn) out).length :=
    hm.mono (Nat.le_refl _) (by rw [length_writeNums, hlen]; exact Nat.add_le_add_left (operandBytes_le_lines ..) _)
  subst hfn
  refine does_stored rfl hr (by simp [hfa, hfd, hlt, hn, hsplit]) (two_inside hka hkd) hm ?_
  simp only [opKey_markStart, hka, hkd, readVals_markStart, hv, accAdd_markStart, hout]
  exact ⟨_, rfl, .chargeLines ..⟩

/-! ### QNT (R275, R298, R302) -/

@[simp] theorem length_writeSlot (w : Nat) (b : KvBlock) : (writeSlot w b).length = slotBlockBytes w := by
  simp [writeSlot, slotBlockBytes]

/-- The slot form of some values. -/
def slotForm (w : Nat) (v : List Num) : List Byte := (((chunks 32 v).map (quantBlock w)).map (writeSlot w)).flatten

theorem length_slotForm_le {w : Nat} {v : List Num} (hn : v.length % 32 = 0) : (slotForm w v).length ≤ slotLines w (v.length / 32) * 64 := by
  have hc : (chunks 32 v).length = v.length / 32 := by
    simp only [chunks, List.length_map, List.length_range, cdiv]
    omega
  rw [slotForm, length_flatten_map fun _ _ => length_writeSlot w _, List.length_map, hc]
  exact le_alignLine _

/-- The `Inst` has issued one more QNT that counts the histogram (R298). -/
def Inst.qntCounted (j : Inst) : Inst := { j with qnts := j.qnts + 1 }

/-- The issue of a QNT, and what it leaves. -/
theorem execInstrQnt_issues {v : List Num} (hr : runsOnce s inst 0x30 i t x) (hfa : plainFmt x.fa = true) (hfd : x.fd = 0xB)
    (hw : kvqBits (x.spec 103 3) ≠ 0) (hn : n % 32 = 0) (hsplit : splitOk x [(x.fa, n)] = true) (hka : operandAt s i t x 1 (fmtLines x.fa n) ka)
    (hkd : operandAt s i t x 0 (slotLines (kvqBits (x.spec 103 3)) (n / 32)) kd) (hv : readVals s x.fa ka n = some v)
    (hm : unmirrored s kd (slotLines (kvqBits (x.spec 103 3)) (n / 32) * 64)) :
    ∃ u, execInstrQnt inst n s = .next (if bit x.word 106 then modInst u inst Inst.qntCounted else u) ∧
      Within [.freeCount, .work, .serve, .tel] s u ∧ u.work.sram = sramPutBytes s.work.sram kd (slotForm (kvqBits (x.spec 103 3)) v) ∧
      ∃ acc, findInst u inst = some (i.done { i.begun s with acc := acc }) := by
  have hlen := length_readVals hv
  have hm : unmirrored s kd (slotForm (kvqBits (x.spec 103 3)) v).length := by
    refine hm.mono (Nat.le_refl _) (Nat.add_le_add_left ?_ _)
    have hle := length_slotForm_le (w := kvqBits (x.spec 103 3)) (v := v) (by rwa [hlen])
    rwa [hlen] at hle
  unfold execInstrQnt
  extract_lets run before hist u
  refine ⟨u, by simp only [before, hist, hr.1, Option.isSome_some, Bool.true_and]; rfl,
    issue_stores hr (by simp [hfa, hfd, hw, hn, hsplit]) (two_inside hka hkd) ((stores_of_runsOnce hr).put hm) (going_begun hr) ?_⟩
  simp only [opKey_markStart, hka, hkd, readVals_markStart, hv]
  cases bit x.word 106 with
  | false => exact ⟨_, rfl, (Aside.progCount ..).trans (.chargeLines ..)⟩
  | true =>
    cases reqOf (markStart s i t) i with
    | none => exact ⟨_, rfl, (Aside.progCount ..).trans (.chargeLines ..)⟩
    | some r => exact ⟨_, rfl, ((Aside.progCount ..).trans (.chargeLines ..)).trans (.countHist ..)⟩

theorem does_qnt {v : List Num} (hr : runsOnce s inst 0x30 i t x) (hfa : plainFmt x.fa = true) (hfd : x.fd = 0xB) (hw : kvqBits (x.spec 103 3) ≠ 0)
    (hn : n % 32 = 0) (hsplit : splitOk x [(x.fa, n)] = true) (hka : operandAt s i t x 1 (fmtLines x.fa n) ka)
    (hkd : operandAt s i t x 0 (slotLines (kvqBits (x.spec 103 3)) (n / 32)) kd) (hv : readVals s x.fa ka n = some v)
    (hm : unmirrored s kd (slotLines (kvqBits (x.spec 103 3)) (n / 32) * 64)) :
    Does (.instrQnt inst n) s [.freeCount, .work, .serve, .tel] fun u =>
      stored s u kd (slotForm (kvqBits (x.spec 103 3)) v) ∧ goesOn u inst i ∧
      (findInst u inst).map (·.qnts) = some (i.qnts + if bit x.word 106 then 1 else 0) := by
  obtain ⟨u, he, hwithin, hsram, acc, hj⟩ := execInstrQnt_issues hr hfa hfd hw hn hsplit hka hkd hv hm
  cases hhist : bit x.word 106 with
  | false =>
    rw [hhist, if_neg Bool.false_ne_true] at he
    exact .of_within he ⟨stored_of_put hsram, congrArg (Option.map (·.pc)) hj, congrArg (Option.map (·.qnts)) hj⟩ hwithin
  | true =>
    rw [hhist, if_pos rfl] at he
    have hc := findInst_modInst (f := Inst.qntCounted) hj fun _ => rfl
    exact .of_within he ⟨stored_of_put hsram, congrArg (Option.map (·.pc)) hc, congrArg (Option.map (·.qnts)) hc⟩ (modInst_only hwithin (by decide))

/-! ### MOV (R181, R264-R266, R416) -/

theorem does_mov {m : List Byte × List Nat} (hr : runsOnce s inst 0x50 i t x) (hn : n ≠ 0) (hka : operandAt s i t x 1 n ka)
    (hkd : operandAt s i t x 0 n kd) (hout : movOut s x ka kd n = some m) (hm : unmirrored s kd (n * 64)) :
    Does (.instrMov inst n) s [.freeCount, .work, .serve, .tel] fun u =>
      stored s u kd m.1 ∧ (x.acc = false → stored s u kd (sramRead s ka (n * 64))) ∧ goesOn u inst i := by
  refine does_stores rfl hr (by simp [hn]) (two_inside hka hkd) ((stores_of_runsOnce hr).copy hm m.1 m.2) (going_begun hr) ?_
    fun v _ hv hi => ⟨stored_of_put hv, fun hacc => ?_, congrArg (Option.map (·.pc)) hi⟩
  · simp only [opKey_markStart, hka, hkd, movOut_markStart, hout]
    exact ⟨_, rfl, .chargeLines ..⟩
  · simp only [movOut, hacc, Bool.not_false, Bool.true_or, if_true, Option.some.injEq] at hout
    subst hout
    exact stored_of_put hv

/-- A store into the staging of the only page is written to its mirror (R264). -/
theorem mirrorStore_mirrored {u : State} {g : Page} {c b c' b' key : Nat} (hp : u.serve.pages = [g]) (hst : g.stage = some (c, b))
    (hmir : g.mirror = some (c', b')) (hn : n ≠ 0) (hlo : 2 ^ 34 ≤ key) (hhi : key < 2 ^ 35) (hin : stageKey u c b ≤ key)
    (hend : key + n ≤ stageKey u c b + openBlocks g.geo * 4096) :
    mirrorStore u key n = sramWriteP u (stageKey u c' b' + (key - stageKey u c b)) (sramRead u key n) (sramPoison u key n) := by
  have hwin : (decide (key < 2 ^ 34) || decide (2 ^ 35 ≤ key)) = false := by
    simp only [Bool.or_eq_false_iff, decide_eq_false_iff_not]
    omega
  have hmax : Nat.max key (stageKey u c b) = key := Nat.max_eq_left hin
  have hmin : Nat.min (key + n) (stageKey u c b + openBlocks g.geo * 4096) = key + n := Nat.min_eq_left hend
  have hsome : ¬ key + n ≤ key := by omega
  simp only [mirrorStore, hwin, Bool.false_eq_true, if_false, hp, List.filter_cons, hmir, Option.isSome_some, Bool.true_or, if_true, List.filter_nil,
    List.foldl_cons, List.foldl_nil, hst, hmax, hmin, hsome, Nat.add_sub_cancel_left]

theorem does_mov_mirrored {g : Page} {c b c' b' : Nat} (hr : runsOnce s inst 0x50 i t x) (hacc : x.acc = false) (hn : n ≠ 0)
    (hka : operandAt s i t x 1 n ka) (hkd : operandAt s i t x 0 n kd) (hp : s.serve.pages = [g]) (hst : g.stage = some (c, b))
    (hmir : g.mirror = some (c', b')) (hlo : 2 ^ 34 ≤ kd) (hhi : kd < 2 ^ 35) (hin : stageKey s c b ≤ kd)
    (hend : kd + n * 64 ≤ stageKey s c b + openBlocks g.geo * 4096) :
    Does (.instrMov inst n) s [.freeCount, .work, .serve, .tel] fun u =>
      sramRead u (stageKey s c' b' + (kd - stageKey s c b)) (n * 64) = sramRead s ka (n * 64) ∧ goesOn u inst i := by
  have hout : movOut s x ka kd n = some (sramRead s ka (n * 64), sramPoison s ka (n * 64)) := by simp [movOut, hacc]
  have hs := (stores_of_runsOnce hr).write kd (sramRead s ka (n * 64)) (sramPoison s ka (n * 64))
  set w := sramWriteP (markStart s i t) kd (sramRead s ka (n * 64)) (sramPoison s ka (n * 64))
  have hkey (c b : Nat) : stageKey w c b = stageKey s c b := by simp only [stageKey, physOf, hs.cons]
  have hpages : w.serve.pages = [g] := by
    rw [hs.serve, ← hp]
    exact markStart_pages ..
  have hread : sramRead w kd (n * 64) = sramRead s ka (n * 64) := by
    have h := sramRead_of_put hs.sram
    rwa [length_sramRead] at h
  have hclear : clearTags w kd (n * 64) = (sramWriteP w (stageKey s c' b' + (kd - stageKey s c b)) (sramRead s ka (n * 64))
      (sramPoison w kd (n * 64))).modWork (tagsCleared kd (n * 64)) := by
    rw [clearTags, mirrorStore_mirrored hpages hst hmir (by omega) hlo hhi (by rwa [hkey]) (by rwa [hkey]), hkey, hkey, hread]
    rfl
  have hs' := (hs.write (stageKey s c' b' + (kd - stageKey s c b)) (sramRead s ka (n * 64)) (sramPoison w kd (n * 64))).clear kd (n * 64)
  rw [← hclear] at hs'
  refine does_stores rfl hr (by simp [hn]) (two_inside hka hkd) hs' (going_begun hr) ?_ fun v _ hv hi => ⟨?_, congrArg (Option.map (·.pc)) hi⟩
  · simp only [opKey_markStart, hka, hkd, movOut_markStart, hout]
    exact ⟨_, rfl, .chargeLines ..⟩
  · have h := sramRead_of_put hv
    rwa [length_sramRead] at h

end

/-! ### SAMP and STOP (R485, R486, R492) -/

/-- The `Inst` holds the logits for the host, the token chosen or none, and the reason of a stop. -/
def Inst.withLogits (l : List Nat) (j : Inst) : Inst := { j with logits := l }
def Inst.withToken (tok : Nat) (j : Inst) : Inst := { j with token := some tok, noToken := false }
def Inst.withoutToken (j : Inst) : Inst := { j with token := none, noToken := true }
def Inst.withReason (n : Nat) (j : Inst) : Inst := { j with reason := n }

/-- The logits that stand in SAMP's source. -/
def logitsIn (v : Nat) (bs : List Byte) : List Nat := (List.range v).map fun j => leAt bs (4 * j) 4

/-- A token output can be written where the words that ACC adds to are not poisoned. -/
theorem tokenOut_of_readable {s : State} {x : Ins} {kd : Nat} (h : x.acc = true → (readOp s kd 8).isSome = true) (tok ix : Nat) :
    ∃ out, tokenOut s x kd tok ix = some out := by
  unfold tokenOut
  cases hacc : x.acc with
  | false => exact ⟨_, rfl⟩
  | true =>
    obtain ⟨b, hb⟩ := Option.isSome_iff_exists.mp (h hacc)
    rw [hb]
    exact ⟨_, rfl⟩

section
variable {s : State} {inst ka kd : Nat} {i : Inst} {t : Task} {x : Ins} {r : Req}

/-- The counts of a SAMP. -/
def sampCounted (s : State) (i : Inst) (t : Task) (v : Nat) : State := chargeLines (progCount s (uidCon i.uid) 8 1) i t.ptn (fmtLines 0 v + 1)

theorem does_samp {v : Nat} {bs : List Byte} (hr : runsOnce s inst 0x43 i t x) (hfa : x.fa = 0) (hfd : x.fd = 0xD) (hreq : reqOf s i = some r)
    (hv : v = ((modelOf s r.model).map (·.vocab)).getD 0) (hka : operandAt s i t x 1 (fmtLines 0 v) ka) (hkd : operandAt s i t x 0 1 kd)
    (hbs : readOp s ka (4 * v) = some bs) (hm : unmirrored s kd 8) (hacc : x.acc = true → (readOp s kd 8).isSome = true) :
    Does (.instrSamp inst) s [.freeCount, .work, .serve, .tel] fun u => goesOn u inst i ∧
      (t.hostSamples = true → u.work.sram = s.work.sram ∧ (findInst u inst).map (·.logits) = some (logitsIn v bs)) ∧
      (t.hostSamples = false → ∀ tok, sample (logitsIn v bs) r.temp r.topP r.topK r.seed r.nextIndex = some tok →
        ∀ out, tokenOut s x kd tok r.nextIndex = some out → stored s u kd out ∧ (findInst u inst).map (·.token) = some (some tok)) ∧
      (t.hostSamples = false → sample (logitsIn v bs) r.temp r.topP r.topK r.seed r.nextIndex = none →
        u.work.sram = s.work.sram ∧ (findInst u inst).map (fun j => (j.token, j.noToken)) = some (none, true)) := by
  obtain rfl := findInst_id (ready_spec hr.1).1
  obtain ⟨d, hreq'⟩ := reqOf_markStart_of_some s i t hreq
  subst hv
  set v := ((modelOf s r.model).map (·.vocab)).getD 0 with hvdef
  have hext : operandsInside s i t x [(1, fmtLines 0 ((((reqOf s i).bind fun r => modelOf s r.model).map (·.vocab)).getD 0)), (0, 1)] := by
    rw [hreq]
    exact two_inside hka hkd
  have hs : Stores s i t (i.begun s) (sampCounted (markStart s i t) i t v) s.work.sram := ((stores_of_runsOnce hr).progCount ..).chargeLines ..
  have hgo := going_begun hr
  cases hhost : t.hostSamples with
  | true =>
    refine does_stores rfl hr (by simp [hfa, hfd]) hext (hs.modInst (Inst.withLogits (logitsIn v bs)) (fun _ => rfl) fun _ _ => rfl) hgo ?_
      fun u acc hu hi => ⟨congrArg (Option.map (·.pc)) hi, fun _ => ⟨hu, congrArg (Option.map (·.logits)) hi⟩, by simp, by simp⟩
    simp only [hreq', modelOf_markStart, ← hvdef, opKey_markStart, hka, hkd, readOp_markStart, hbs, hhost]
    exact ⟨_, rfl, .refl _⟩
  | false =>
    cases htok : sample (logitsIn v bs) r.temp r.topP r.topK r.seed r.nextIndex with
    | none =>
      refine does_stores rfl hr (by simp [hfa, hfd]) hext (hs.modInst Inst.withoutToken (fun _ => rfl) fun _ _ => rfl) hgo ?_
        fun u acc hu hi => ⟨congrArg (Option.map (·.pc)) hi, by simp, by simp,
          fun _ _ => ⟨hu, congrArg (Option.map fun j => (j.token, j.noToken)) hi⟩⟩
      simp only [hreq', modelOf_markStart, ← hvdef, opKey_markStart, hka, hkd, readOp_markStart, hbs, hhost]
      simp only [logitsIn] at htok
      simp only [htok]
      exact ⟨_, rfl, .refl _⟩
    | some tok =>
      obtain ⟨out, hout⟩ := tokenOut_of_readable hacc tok r.nextIndex
      have hput := (hs.put (key := kd) (bs := out) (by rwa [length_tokenOut hout])).modInst (Inst.withToken tok) (fun _ => rfl) fun _ _ => rfl
      refine does_stores rfl hr (by simp [hfa, hfd]) hext hput hgo ?_ fun u acc hu hi => ⟨congrArg (Option.map (·.pc)) hi, by simp, ?_, by simp⟩
      · simp only [hreq', modelOf_markStart, ← hvdef, opKey_markStart, hka, hkd, readOp_markStart, hbs, hhost]
        simp only [logitsIn] at htok
        simp only [htok, tokenOut_markStart, hout]
        exact ⟨_, rfl, .refl _⟩
      · rintro - tok' ⟨⟩ out' hout'
        obtain rfl := Option.some.inj (hout.symm.trans hout')
        exact ⟨stored_of_put hu, congrArg (Option.map (·.token)) hi⟩

/-- STOP's output lies in its space. -/
theorem stop_inside (h : x.fd ≠ 0xD ∨ (opKey s i t x 0 1 0).isSome = true) :
    operandsInside s i t x (if x.fd == 0xD then [(0, 1)] else []) := by
  intro o ho
  split at ho
  · next hd =>
    obtain rfl := List.mem_singleton.mp ho
    exact h.resolve_left (not_not.mpr (beq_iff_eq.mp hd))
  · exact absurd ho List.not_mem_nil

theorem does_stop (hr : runsOnce s inst 0x44 i t x) (hreq : reqOf s i = some r)
    (h : x.fd ≠ 0xD ∨ ((opKey s i t x 0 1 0).isSome = true ∧ i.token = none)) :
    Does (.instrStop inst) s [.freeCount, .work, .serve, .tel] fun u => goesOn u inst i ∧ u.work.sram = s.work.sram ∧
      (findInst u inst).map (·.reason) = some (match i.token with | some tok => stopReason r tok | none => i.reason) := by
  obtain rfl := findInst_id (ready_spec hr.1).1
  obtain ⟨d, hreq'⟩ := reqOf_markStart_of_some s i t hreq
  have hi := findInst_markStart (ready_spec hr.1).1 t
  have hs := stores_of_runsOnce hr
  have hgo := going_begun hr
  have hext := stop_inside (h.imp_right And.left)
  have hbind : (findInst (markStart s i t) i.id).bind (·.token) = i.token := by rw [hi]; rfl
  cases htok : i.token with
  | none =>
    refine does_stores rfl hr rfl hext hs hgo ?_
      fun u acc hu hj => ⟨congrArg (Option.map (·.pc)) hj, hu, congrArg (Option.map (·.reason)) hj⟩
    simp only [hreq', hbind, htok]
    exact ⟨_, rfl, .refl _⟩
  | some tok =>
    have hfd : (x.fd == 0xD) = false := by
      rcases h with h | ⟨-, h⟩
      · simpa using h
      · cases htok.symm.trans h
    refine does_stores rfl hr rfl hext (hs.modInst (Inst.withReason (stopReason r tok)) (fun _ => rfl) fun _ _ => rfl) hgo ?_
      fun u acc hu hj => ⟨congrArg (Option.map (·.pc)) hj, hu, congrArg (Option.map (·.reason)) hj⟩
    simp only [hreq', hbind, htok, hfd, Bool.false_eq_true, if_false]
    exact ⟨_, rfl, .refl _⟩

theorem does_stop_output {tok : Nat} {out : List Byte} (hr : runsOnce s inst 0x44 i t x) (hreq : reqOf s i = some r) (hfd : x.fd = 0xD)
    (hkd : operandAt s i t x 0 1 kd) (htok : i.token = some tok) (hout : tokenOut s x kd tok r.nextIndex = some out) (hm : unmirrored s kd 8) :
    Does (.instrStop inst) s [.freeCount, .work, .serve, .tel] fun u =>
      goesOn u inst i ∧ stored s u kd out ∧ (findInst u inst).map (·.reason) = some (stopReason r tok) := by
  obtain rfl := findInst_id (ready_spec hr.1).1
  obtain ⟨d, hreq'⟩ := reqOf_markStart_of_some s i t hreq
  have hi := findInst_markStart (ready_spec hr.1).1 t
  have hbind : (findInst (markStart s i t) i.id).bind (·.token) = some tok := by rw [hi]; exact htok
  have hs := ((stores_of_runsOnce hr).modInst (Inst.withReason (stopReason r tok)) (fun _ => rfl) fun _ _ => rfl).put (key := kd) (bs := out)
    (by rwa [length_tokenOut hout])
  have hgo := going_begun hr
  refine does_stores rfl hr rfl (stop_inside (.inr (Option.isSome_of_mem hkd))) hs hgo ?_
    fun u acc hu hj => ⟨congrArg (Option.map (·.pc)) hj, stored_of_put hu, congrArg (Option.map (·.reason)) hj⟩
  simp only [hreq', hbind, hfd, opKey_markStart, hkd, beq_self_eq_true, if_true, tokenOut_markStart, hout]
  exact ⟨_, rfl, .refl _⟩

end

/-! ### ENC (R264, R286, R287, R298-R301) -/

/-- A page record takes its table and, once its last component is packed, its length (R300). -/
def Page.packed (table len : Nat) (done : Bool) (p : Page) : Page := { p with table := table, packedLen := if done then len else p.packedLen }

/-- What ENC records: in its page, in the counts of the tables that the page names, and in its task (R295, R300, R301). -/
def encRecorded (s : State) (t : Task) (num : Option Nat) (table len : Nat) (done : Bool) (refs : List Nat) : State :=
  modTask (refs.foldl (fun s n => tabRef s n true) (match num with
    | some n => modPage s t.ptn n (Page.packed table len done)
    | none => s)) t.id fun t => { t with packs := t.packs ++ refs }

theorem encRecorded_aside (s : State) (t : Task) (num : Option Nat) (table len : Nat) (done : Bool) (refs : List Nat) :
    Aside s (encRecorded s t num table len done refs) := by
  refine .trans (.trans ?_ (.tabRefs _ refs true)) (.modTask ..)
  cases num with
  | none => exact .refl s
  | some n => exact .modPage ..

theorem findPage_encRecorded (s : State) (t : Task) (n table len : Nat) (done : Bool) (refs : List Nat) :
    findPage (encRecorded s t (some n) table len done refs) t.ptn n = (findPage s t.ptn n).map (Page.packed table len done) := by
  have hrefs (u : State) : (refs.foldl (fun s n => tabRef s n true) u).serve.pages = u.serve.pages :=
    foldl_keep (·.serve.pages) (fun s n => tabRef s n true) (fun _ _ => rfl) refs u
  exact (findPage_of_pages (hrefs _) ..).trans (findPage_modPage_same fun _ => ⟨rfl, rfl⟩)

/-- An execution that records leaves the length of its page. -/
theorem leaves_of_recorded {s : State} {t : Task} {num : Option Nat} {len : Nat} {done : Bool} {e : Exec}
    (h : ∃ table refs, e = execOk (encRecorded s t num table len done refs)) :
    ∃ u, e = execOk u ∧ Aside s u ∧ ∃ table, ∀ n, num = some n → findPage u t.ptn n = (findPage s t.ptn n).map (Page.packed table len done) := by
  obtain ⟨table, refs, rfl⟩ := h
  refine ⟨_, rfl, encRecorded_aside .., table, ?_⟩
  rintro n rfl
  exact findPage_encRecorded ..

theorem encPage_of_pages {s u : State} (h : u.serve.pages = s.serve.pages) (t : Task) (r : Req) : encPage u t r = encPage s t r := by
  simp only [encPage, sealingPageOf, pagesOfLayer, h]

/-- The request of an `Inst` whose first issue may have dispatched it, as ENC looks at it. -/
theorem reqOf_markStart_enc {s : State} {i : Inst} {r : Req} (h : reqOf s i = some r) (t : Task) :
    ∃ q, reqOf (markStart s i t) i = some q ∧ q.geo = r.geo ∧ q.model = r.model ∧ ∀ u k, encPage u k q = encPage u k r := by
  obtain ⟨d, hd⟩ := reqOf_markStart_of_some s i t h
  exact ⟨_, hd, rfl, rfl, fun _ _ => rfl⟩

/-- Where ENC's result goes: the slot page, the whole page of a latent layout, the first component with its header, or the second one and its
offset (R287, R301). -/
def encOut (s : State) (g : Geo) (c kd o1 : Nat) (plain : Bool) (page slot : List Byte) : State :=
  if plain then putOp s kd slot
  else if g.latent then putOp s kd page
  else if c = 0 then putOp s kd (bytesAt page 0 4 ++ leBytes 4 0 ++ page.drop 8)
  else putOp (putOp s (kd + 4) (leBytes 4 o1)) (kd + o1) (page.drop o1)

/-- The SRAM that it leaves. -/
def encMem (m : List (Nat × Byte)) (g : Geo) (c kd o1 : Nat) (plain : Bool) (page slot : List Byte) : List (Nat × Byte) :=
  if plain then sramPutBytes m kd slot
  else if g.latent then sramPutBytes m kd page
  else if c = 0 then sramPutBytes m kd (bytesAt page 0 4 ++ leBytes 4 0 ++ page.drop 8)
  else sramPutBytes (sramPutBytes m (kd + 4) (leBytes 4 o1)) (kd + o1) (page.drop o1)

theorem length_codedPage (g : Geo) (c0 c1 : List Byte) : 16 + align16 c0.length ≤ (codedPage g c0 c1).length := by
  unfold codedPage
  extract_lets off has1 body
  have hle := le_alignLine body.length
  have hb : 16 + align16 c0.length ≤ body.length := by
    simp only [body, List.length_append, length_leBytes, length_padTo]
    omega
  rw [length_padTo]
  omega

/-- The header of a page that waits for its second component is as long as the page's own (R301). -/
theorem length_firstPart {page : List Byte} (h : 16 ≤ page.length) : (bytesAt page 0 4 ++ leBytes 4 0 ++ page.drop 8).length = page.length := by
  simp only [bytesAt, List.length_append, List.length_take, List.length_drop, length_leBytes]
  omega

theorem stores_encOut {s u : State} {i j : Inst} {t : Task} {m : List (Nat × Byte)} {g : Geo} {c kd o1 : Nat} {plain : Bool} {page slot : List Byte}
    (h : Stores s i t j u m) (hlo : 16 ≤ o1) (hhi : o1 ≤ page.length) (hm : unmirrored s kd page.length) (hm' : unmirrored s kd slot.length) :
    Stores s i t j (encOut u g c kd o1 plain page slot) (encMem m g c kd o1 plain page slot) := by
  unfold encOut encMem
  split
  · exact h.put hm'
  · split
    · exact h.put hm
    · split
      · exact h.put (by rwa [length_firstPart (by omega)])
      · refine (h.put (hm.mono (by omega) ?_)).put (hm.mono (by omega) ?_)
        · rw [length_leBytes]
          omega
        · rw [List.length_drop]
          omega

/-- The `Inst` keeps its first component, packed and as it stood. -/
def Inst.packs (c : Nat) (comp bs : List Byte) (j : Inst) : Inst :=
  { j with packed := if c = 0 then comp else j.packed, slot0 := if c = 0 then bs else j.slot0 }
/-- One more ENC of the `Inst` has issued (R298). -/
def Inst.encCounted (j : Inst) : Inst := { j with encs := j.encs + 1 }

/-- ENC's sources lie in their spaces. -/
theorem enc_inside {s : State} {i : Inst} {t : Task} {x : Ins} {r : Req} {g : Geo} {c total ka kb : Nat} (hreq : reqOf s i = some r) (hg : g = r.geo)
    (hc : c = if g.latent then 0 else i.encs % 2) (htotal : total = g.p * (if c = 0 then g.d0 else g.d1) / 32)
    (hka : operandAt s i t x 1 (slotLines (kvqBits g.width) total) ka)
    (hkb : (g.latent && g.d1 != 0) = true → operandAt s i t x 2 (lines (bf16Comp g g.d1)) kb) :
    operandsInside s i t x (encOps s i t x 0) := by
  subst htotal hc hg
  simp only [encOps, hreq]
  refine List.forall_mem_cons.mpr ⟨Option.isSome_of_mem hka, fun o ho => ?_⟩
  split at ho
  · next hlat =>
    obtain rfl := List.mem_singleton.mp ho
    exact Option.isSome_of_mem (hkb hlat)
  · exact absurd ho List.not_mem_nil

section
variable {s : State} {inst : Nat} {i : Inst} {t : Task} {x : Ins} {r : Req} {g : Geo} {c total ka kb kd : Nat} {tab : Option KvTable}
  {comp pos c0 c1 page slot bs : List Byte}
  (hr : runsOnce s inst 0x31 i t x) (hfa : x.fa = 0xB) (hfd : x.fd = 0xC) (hreq : reqOf s i = some r) (hg : g = r.geo)
  (hc : c = if g.latent then 0 else i.encs % 2) (htab : encTable s t r.model t.layer (compNum g.latent c) g.width (x.spec 103 12) = some tab)
  (htotal : total = g.p * (if c = 0 then g.d0 else g.d1) / 32) (hka : operandAt s i t x 1 (slotLines (kvqBits g.width) total) ka)
  (hbs : readOp s ka (total * slotBlockBytes (kvqBits g.width)) = some bs)
  (hkb : (g.latent && g.d1 != 0) = true → operandAt s i t x 2 (lines (bf16Comp g g.d1)) kb ∧ readOp s kb (bf16Comp g g.d1) = some pos)
  (hpos : (g.latent && g.d1 != 0) = false → pos = [])
  (hcomp : comp = encComponent (kvqBits g.width) (tab.map fun b => assignCodes b.lengths)
    ((List.range total).map fun b => readSlot (kvqBits g.width) bs (b * slotBlockBytes (kvqBits g.width))))
  (hc0 : c0 = if c = 0 then comp else i.packed) (hc1 : c1 = if g.latent then pos else if c = 0 then [] else comp) (hpage : page = codedPage g c0 c1)
  (hslot : slot = padTo (slotTilesOf g * 4096) (padTo (alignLine (slotComp g g.d0)) (if c = 0 then bs else i.slot0) ++
    if g.latent then pos else if c = 0 then [] else bs))

include hr hfa hfd hreq hg hc htab htotal hka hbs hkb hpos hcomp hc0 hc1 hpage hslot

/-- The issue of an ENC, and what it leaves. -/
theorem execInstrEnc_issues {done plain : Bool} (hdone : done = (g.latent || decide (c = 1))) (hplain : plain = (done && escapeOnly g c0 c1 page))
    (hkd : operandAt s i t x 0 (if plain then slotTilesOf g * 64 else lines page.length) kd)
    (hm : unmirrored s kd page.length) (hm' : unmirrored s kd slot.length) :
    ∃ u table, execInstrEnc inst s = .next (modInst u inst Inst.encCounted) ∧ Within [.freeCount, .work, .serve, .tel] s u ∧
      u.work.sram = encMem s.work.sram g c kd (16 + align16 c0.length) plain page slot ∧
      (∃ acc, findInst u inst = some (i.done { (i.begun s).packs c comp bs with acc := acc })) ∧
      ∀ num, encPage s t r = some num → findPage u t.ptn num =
        (findPage s t.ptn num).map (Page.packed table (if plain then 0 else page.length / 64) done) := by
  obtain rfl := findInst_id (ready_spec hr.1).1
  obtain ⟨q, hq, hgeo, hmodel, hqpage⟩ := reqOf_markStart_enc hreq t
  obtain ⟨k, hk, hread⟩ : ∃ k, (if g.latent && g.d1 != 0 then opKey s i t x 2 (lines (bf16Comp g g.d1)) 0 else some 0) = some k ∧
      (if g.latent && g.d1 != 0 then readOp s k (bf16Comp g g.d1) else some []) = some pos := by
    cases hlat : g.latent && g.d1 != 0 with
    | true => exact ⟨kb, (hkb hlat).1, (hkb hlat).2⟩
    | false => exact ⟨0, rfl, by rw [hpos hlat]; rfl⟩
  have hs := stores_encOut (g := g) (c := c) (plain := plain) (slot := slot) (stores_of_runsOnce hr) (by omega)
    (hpage ▸ length_codedPage g c0 c1) hm hm'
  have hs := ((hs.progCount (uidCon i.uid) 7 total).chargeLines i t.ptn (slotLines (kvqBits g.width) total + lines page.length)).modInst
    (Inst.packs c comp bs) (fun _ => rfl) fun _ _ => rfl
  set w := modInst _ i.id (Inst.packs c comp bs)
  have hpages : w.serve.pages = s.serve.pages := (congrArg (·.pages) hs.serve).trans (markStart_pages ..)
  have hgo := going_begun hr
  unfold execInstrEnc
  extract_lets one u
  have hleaves : Within [.freeCount, .work, .serve, .tel] s u ∧ u.work.sram = encMem s.work.sram g c kd (16 + align16 c0.length) plain page slot ∧
      (∃ acc, findInst u i.id = some (i.done { (i.begun s).packs c comp bs with acc := acc })) ∧
      ∃ v, u.serve = v.serve ∧ ∃ table, ∀ n, encPage w t q = some n →
        findPage v t.ptn n = (findPage w t.ptn n).map (Page.packed table (if plain then 0 else page.length / 64) done) := by
    refine issue_records hr (by simp [hfa, hfd]) ?_ hs hgo (leaves_of_recorded ?_)
    · exact enc_inside hreq hg hc htotal hka fun h => (hkb h).1
    · subst hplain hdone hslot hpage hc0 hc1 hcomp htotal hc hg
      simp only [hq, hgeo, hmodel, encTable_markStart, htab, opKey_markStart, hka, hk, readOp_markStart, hbs, hread, hkd]
      exact ⟨_, _, rfl⟩
  obtain ⟨hwithin, hsram, hinst, v, hserve, table, htable⟩ := hleaves
  refine ⟨u, table, by simp only [one, hr.1, Option.isSome_some, if_true]; rfl, hwithin, hsram, hinst, fun num hnum => ?_⟩
  rw [findPage_of_pages (congrArg (·.pages) hserve), htable num (by rw [hqpage, encPage_of_pages hpages, hnum]), findPage_of_pages hpages]

/-- ENC of a page that is stored in slot form (R287). -/
theorem does_enc_plain (hesc : ((g.latent || c == 1) && escapeOnly g c0 c1 page) = true) (hkd : operandAt s i t x 0 (slotTilesOf g * 64) kd)
    (hm : unmirrored s kd page.length) (hm' : unmirrored s kd slot.length) :
    Does (.instrEnc inst) s [.freeCount, .work, .serve, .tel] fun u =>
      stored s u kd slot ∧ goesOn u inst i ∧ (findInst u inst).map (·.encs) = some (i.encs + 1) ∧
      ∀ num, encPage s t r = some num → ∀ p, findPage u t.ptn num = some p → p.packedLen = 0 := by
  obtain ⟨u, table, he, hwithin, hsram, ⟨acc, hj⟩, hrec⟩ := execInstrEnc_issues (done := true) (plain := true) hr hfa hfd hreq hg hc htab htotal hka hbs
    hkb hpos hcomp hc0 hc1 hpage hslot ((Bool.and_eq_true_iff.mp hesc).1).symm ((Bool.and_eq_true_iff.mp hesc).2).symm hkd hm hm'
  have hi := findInst_modInst (f := Inst.encCounted) hj fun _ => rfl
  refine .of_within he ⟨stored_of_put hsram, congrArg (Option.map (·.pc)) hi, congrArg (Option.map (·.encs)) hi, fun num hnum p hp => ?_⟩
    (modInst_only hwithin (by decide))
  have hp := (hrec num hnum).symm.trans hp
  obtain ⟨p', -, rfl⟩ := Option.map_eq_some_iff.mp hp
  rfl

/-- ENC of a component of a coded page (R286, R301). -/
theorem does_enc_coded (hesc : ((g.latent || c == 1) && escapeOnly g c0 c1 page) = false) (hkd : operandAt s i t x 0 (lines page.length) kd)
    (hm : unmirrored s kd page.length) (hm' : unmirrored s kd slot.length) :
    Does (.instrEnc inst) s [.freeCount, .work, .serve, .tel] fun u =>
      goesOn u inst i ∧ (findInst u inst).map (·.encs) = some (i.encs + 1) ∧ (g.latent = true → stored s u kd page) ∧
      (g.latent = false → c = 0 → stored s u kd (bytesAt page 0 4 ++ leBytes 4 0 ++ page.drop 8)) ∧
      (g.latent = false → c = 1 → sramRead u (kd + 4) 4 = leBytes 4 (16 + align16 c0.length) ∧
        sramRead u (kd + (16 + align16 c0.length)) (page.drop (16 + align16 c0.length)).length = page.drop (16 + align16 c0.length) ∧
        ∀ k, k < kd ∨ kd + page.length ≤ k → sget byte0 u.work.sram k = sget byte0 s.work.sram k) ∧
      ∀ num, encPage s t r = some num → (findPage u t.ptn num).map (·.packedLen) =
        (findPage s t.ptn num).map fun p => if g.latent || c == 1 then page.length / 64 else p.packedLen := by
  obtain ⟨u, table, he, hwithin, hsram, ⟨acc, hj⟩, hrec⟩ := execInstrEnc_issues (done := g.latent || c == 1) (plain := false) hr hfa hfd hreq hg hc htab
    htotal hka hbs hkb hpos hcomp hc0 hc1 hpage hslot rfl hesc.symm hkd hm hm'
  have hi := findInst_modInst (f := Inst.encCounted) hj fun _ => rfl
  refine .of_within he ⟨congrArg (Option.map (·.pc)) hi, congrArg (Option.map (·.encs)) hi, fun hlat => stored_of_put ?_,
    fun hlat hfirst => stored_of_put ?_, fun hlat hsecond => ?_, fun num hnum => ?_⟩ (modInst_only hwithin (by decide))
  · exact hsram.trans (by simp [encMem, hlat])
  · exact hsram.trans (by simp [encMem, hlat, hfirst])
  · have hput : u.work.sram = sramPutBytes (sramPutBytes s.work.sram (kd + 4) (leBytes 4 (16 + align16 c0.length))) (kd + (16 + align16 c0.length))
        (page.drop (16 + align16 c0.length)) := hsram.trans (by simp [encMem, hlat, hsecond])
    have hlen : 16 + align16 c0.length ≤ page.length := hpage ▸ length_codedPage g c0 c1
    have hdrop : (page.drop (16 + align16 c0.length)).length = page.length - (16 + align16 c0.length) := List.length_drop
    obtain ⟨hoffset, hgroups, hother⟩ := reads_of_two_puts hput (.inl (by rw [length_leBytes]; omega))
    rw [length_leBytes] at hoffset hother
    exact ⟨hoffset, hgroups, fun k hk => hother k (by omega) (by omega)⟩
  · exact (congrArg (Option.map (·.packedLen)) (hrec num hnum)).trans (Option.map_map ..)

end

end Sys2Proof.Machine

open Sys2Proof Sys2Proof.Machine

/-- Settles O30: each instruction runs on the operands that its first issue leaves as they are, stores its result where no mirror follows, or where
one does, and records and counts besides. -/
theorem vectorResults : Obligations.VectorResults := by
  unfold Obligations.VectorResults
  refine ⟨?_, ?_, ?_, ?_, ?_, ?_, ?_, ?_, ?_⟩
  · intro inst n i t x ka kd v s hr hfa hfd hw hn hsplit hka hkd hv hm
    exact does_qnt hr hfa hfd hw hn hsplit hka hkd hv hm
  · intro inst i t x r g c tab total comp pos c0 c1 page slot ka kb kd bs s hr hfa hfd hreq hg hc htab htotal hka hbs hkb hpos hcomp hc0 hc1 hpage hslot hm hm'
    refine ⟨fun hesc hkd => ?_, fun hesc hkd => ?_⟩
    · exact does_enc_plain hr hfa hfd hreq hg hc htab htotal hka hbs hkb hpos hcomp hc0 hc1 hpage hslot hesc hkd hm hm'
    · exact does_enc_coded hr hfa hfd hreq hg hc htab htotal hka hbs hkb hpos hcomp hc0 hc1 hpage hslot hesc hkd hm hm'
  · intro inst n i t x ka kd bs out s hr hfa hfd hop hn hsplit hka hkd hbs hout hm
    exact does_red hr hfa hfd hop hn hsplit hka hkd hbs hout hm
  · intro inst n i t x ka kd v res out s hr hfa hfd hn hsplit hka hkd hv hres hout hm
    exact does_norm hr hfa hfd hn hsplit hka hkd hv hres hout hm
  · intro inst n i t x fn ka kd v out s hr hfa hfd hfn hlt hn hsplit hka hkd hv hout hm
    have h := does_act hr hfa hfd hfn hlt hn hsplit hka hkd hv hout hm
    refine ⟨fun hne => ?_, fun heq => ?_⟩
    · rwa [actWords, if_neg hne] at h
    · rwa [actWords, if_pos heq] at h
  · intro inst i t x r v ka kd bs s hr hfa hfd hreq hv hka hkd hbs hm hacc
    exact does_samp hr hfa hfd hreq hv hka hkd hbs hm hacc
  · intro inst i t x r s hr hreq
    refine ⟨fun h => does_stop hr hreq h, fun kd tok out hfd hkd htok hout hm => ?_⟩
    exact does_stop_output hr hreq hfd hkd htok hout hm
  · intro inst n i t x ka kd m s hr hn hka hkd hout hm
    exact does_mov hr hn hka hkd hout hm
  · intro inst n i t x ka kd g c b c' b' s hr hacc hn hka hkd hp hst hmir hlo hhi hin hend
    exact does_mov_mirrored hr hacc hn hka hkd hp hst hmir hlo hhi hin hend
end

section
/-! PROOFS. Obligation O36: open pages that are loaded, table epochs and table builds (R29, R244, R264, R266, R297, R303-R305). -/

namespace Sys2Proof.Machine
open Sys2Proof

/-! ### An open page is loaded into staging (R244) -/

theorem dropXfer_reqs (s : State) (x : Nat) : (dropXfer s x).serve.reqs = s.serve.reqs :=
  foldl_keep (fun s => s.serve.reqs) (fun s n => tabRef s n false) (fun _ _ => rfl) _ _

theorem fitBlocks_of_pages {s t : State} (h : t.serve.pages = s.serve.pages) (c n : Nat) : fitBlocks t c n = fitBlocks s c n := by
  simp only [fitBlocks, stagedIn, h]

/-- A page stands in staging, with every tile of it as in its open area. -/
def Page.staged (c b : Nat) (g : Page) : Page := { g with stage := some (c, b), dirty := [] }

/-- The tiles of an open area are counted, and copied into staging with the poison that they carry. -/
def areaCopied (s : State) (p c b : Nat) (g : Page) : State :=
  sramWriteP (countTiles s (some p) g.nearAddr (openBlocks g.geo) false) (stageKey s c b) (tierRead s (g.nearAddr * 4096) (openBlocks g.geo * 4096))
    (tierPoison s (g.nearAddr * 4096) (openBlocks g.geo * 4096))

theorem findPage_modPage_of {s : State} {p n : Nat} {g : Page} {f : Page → Page} (hf : ∀ g, (f g).ptn = g.ptn ∧ (f g).num = g.num)
    (hg : findPage s p n = some g) : findPage (modPage s p n f) p n = some (f g) := by
  rw [findPage_modPage_same hf, hg, Option.map_some]

/-- The load of a page ends: the transfer is out, the page staged. -/
def pageLoaded (s : State) (xfer p num c b : Nat) (g : Page) : State := modPage (areaCopied (dropXfer s xfer) p c b g) p num fun g => g.staged c b

theorem areaCopied_serve (s : State) (p c b : Nat) (g : Page) : (areaCopied s p c b g).serve = s.serve :=
  (sramWriteP_only (countTiles_only (.refl [.work, .tel] s) (by decide)) (by decide)).only.keeps .serve (by decide)

section
variable (s : State) (xfer p num c b : Nat) (g : Page)

theorem pageLoaded_only : Within [.work, .serve, .tel] s (pageLoaded s xfer p num c b g) :=
  modPage_only (sramWriteP_only (countTiles_only (dropXfer_only (.refl _ s) (by decide)) (by decide)) (by decide)) (by decide)

theorem findXfer_pageLoaded : findXfer (pageLoaded s xfer p num c b g) xfer = none :=
  
  findXfer_of_dropped (s := s) (show (areaCopied (dropXfer s xfer) p c b g).serve.xfers = _ from congrArg Serve.xfers (areaCopied_serve ..))

theorem pageLoaded_reqs : (pageLoaded s xfer p num c b g).serve.reqs = s.serve.reqs :=
  (congrArg Serve.reqs (areaCopied_serve (dropXfer s xfer) p c b g)).trans (dropXfer_reqs s xfer)

theorem findPage_pageLoaded {g : Page} (hg : findPage s p num = some g) : findPage (pageLoaded s xfer p num c b g) p num = some (g.staged c b) := by
  have hp : (areaCopied (dropXfer s xfer) p c b g).serve.pages = s.serve.pages :=
    (congrArg Serve.pages (areaCopied_serve (dropXfer s xfer) p c b g)).trans (dropXfer_pages s xfer)
  exact findPage_modPage_of (fun _ => ⟨rfl, rfl⟩) ((findPage_of_pages hp p num).trans hg)

end

/-- A page that is in no staging yet, where there is room for it: it is loaded, for a durable request with its mirror, or all stays as it was while
the mirror has no room (R264). -/
theorem execOpenPageLoaded_of {xfer p num c b : Nat} {x : Xfer} {g : Page} {s : State} (hx : findXfer s xfer = some x) (hwhat : x.what = .openLoad p num c)
    (hw : xferWaits s x = false) (hg : findPage s p num = some g) (hst : g.stage = none) (hb : fitBlocks s c (openBlocks g.geo) = some b) :
    execOpenPageLoaded xfer s = .next (
      if s.serve.reqs.any fun r => r.ptn == p && r.durable && r.pageNum g.layer g.position == some num then
        (addMirror (pageLoaded s xfer p num c b g) p num).getD s
      else pageLoaded s xfer p num c b g) := by
  have hg' : findPage (dropXfer s xfer) p num = some g := (findPage_of_pages (dropXfer_pages ..) p num).trans hg
  have hb' : fitBlocks (dropXfer s xfer) c (openBlocks g.geo) = some b := (fitBlocks_of_pages (dropXfer_pages ..) ..).trans hb
  simp only [execOpenPageLoaded, hx, hwhat, hw, hg', hst, hb', dropXfer_reqs, Bool.false_eq_true, if_false, Option.isSome_none]
  rfl

theorem execOpenPageLoaded_waits {xfer : Nat} {x : Xfer} {s : State} (hx : findXfer s xfer = some x) (hw : xferWaits s x = true) :
    execOpenPageLoaded xfer s = .next s := by
  simp only [execOpenPageLoaded, hx, hw, if_true]
  split <;> rfl

/-! ### The mirror of a durable request (R264, R266, R267) -/

/-- A page staged at a place has its second place: a mirror or its open area, or none while nothing carries the partner. -/
def secondPlace (s : State) (p c : Nat) (k : Page) : Prop :=
  (k.mirror.isSome || k.through) = true ∨ ∃ cs, partnerClusters s p c = some cs ∧ physOf s (cs.headD 0 / 16) = none

theorem addMirror_spec {s u : State} {p num c b : Nat} {g : Page} (hg : findPage s p num = some g) (hst : g.stage = some (c, b))
    (h : addMirror s p num = some u) : ∃ k, findPage u p num = some k ∧ k.stage = some (c, b) ∧ secondPlace s p c k := by
  simp only [addMirror, hg, hst] at h
  split at h
  · obtain rfl := Option.some.inj h
    exact ⟨_, findPage_modPage_of (fun _ => ⟨rfl, rfl⟩) hg, hst, .inl (Bool.or_true _)⟩
  · next cs hcs =>
    split at h
    · next hdark =>
      obtain rfl := Option.some.inj h
      exact ⟨g, hg, hst, .inr ⟨cs, hcs, Option.isNone_iff_eq_none.mp hdark⟩⟩
    · obtain ⟨m, -, rfl⟩ := Option.map_eq_some_iff.mp h
      have hs := (sramWriteP_only (key := stageKey s m.1 m.2) (bs := sramRead s (stageKey s c b) (openBlocks g.geo * 4096))
        (ws := sramPoison s (stageKey s c b) (openBlocks g.geo * 4096)) (.refl [.work] s) (by decide)).only.keeps .serve (by decide)
      exact ⟨_, findPage_modPage_of (fun _ => ⟨rfl, rfl⟩) ((findPage_of_pages (congrArg Serve.pages hs) p num).trans hg), hst, .inl rfl⟩

theorem secondPlace.congr {s u : State} {p c : Nat} {k : Page} (h : secondPlace u p c k) (hc : u.cons = s.cons) (hp : u.ptns = s.ptns) :
    secondPlace s p c k := by
  have hptn : getPtn u p = getPtn s p := congrArg (·.getD p {}) hp
  have hclusters : partnerClusters u p c = partnerClusters s p c := by rw [partnerClusters, partnerOf, hptn]; rfl
  have hphys (l : Nat) : physOf u l = physOf s l := by simp only [physOf, hc]
  simpa only [secondPlace, hclusters, hphys] using h

/-! ### Table epochs (R303, R305, R316) -/

/-- The next table epoch begins, with the length that stands now. -/
def epochBegun (s : State) (p : Nat) : State :=
  s.modServe fun w => { w with epochCount := cntSet w.epochCount p 0, epochLen := cntSet w.epochLen p (odGet s (0x9140 + p) 1) }

theorem epochBegun_counts (s : State) (p : Nat) :
    cnt (epochBegun s p).serve.epochCount p = 0 ∧ cnt (epochBegun s p).serve.epochLen p = odGet s (0x9140 + p) 1 :=
  ⟨cnt_cntSet_same s.serve.epochCount p 0, cnt_cntSet_same s.serve.epochLen p _⟩

/-- The tables of one tensor start to build in a free slot, and its histograms are empty again. -/
theorem buildTensor_of_free {s : State} {p model layer width n : Nat} {latent : Bool} (hn : freeTab s p (tensorComps latent).length = some n) :
    let u := buildTensor s p model layer latent width
    u.serve.tables.map (fun t => (t.num, t.state)) =
        s.serve.tables.map (fun t => (t.num, t.state)) ++ (tensorComps latent).mapIdx (fun i _ => (n + i, .building)) ∧
      (∀ k ∈ u.serve.hists, ¬(k.ptn = p ∧ k.model = model ∧ k.layer = layer ∧ k.width = width ∧ (tensorComps latent).contains k.comp = true)) ∧
      u.serve.epochCount = s.serve.epochCount ∧ u.serve.epochLen = s.serve.epochLen := by
  simp only [buildTensor, hn, State.modServe_serve]
  refine ⟨?_, fun k hk => ?_, trivial, trivial⟩
  · simp [List.mapIdx_eq_zipIdx_map]
  · rintro ⟨hp, hmodel, hlayer, hwidth, hcomp⟩
    have hkeep := (List.mem_filter.mp hk).2
    simp only [hp, hmodel, hlayer, hwidth, hcomp, beq_self_eq_true, Bool.and_self, Bool.not_true, Bool.false_eq_true] at hkeep

/-- An epoch that is over in the hardware mode, with one histogram due: its tensor starts to build. -/
theorem execTableEpochEnd_due {p : Nat} {h : Hist} {s : State} (hi : isolated s p = false) (ho : epochCycles s p ≤ cnt s.serve.epochCount p)
    (hm : entropyHost s p = false) (hd : (s.serve.hists.filter fun h => h.ptn == p && odGet s (0x9140 + p) 2 ≤ h.blocks) = [h]) :
    execTableEpochEnd p s = .next (buildTensor (epochBegun s p) p h.model h.layer (h.comp == 2) h.width) := by
  have hlt : ¬cnt s.serve.epochCount p < epochCycles s p := Nat.not_lt.mpr ho
  simp [execTableEpochEnd, hi, hlt, hm, hd, epochBegun, List.eraseDups_cons]

theorem execTableEpochEnd_host {p : Nat} {s : State} (hi : isolated s p = false) (ho : epochCycles s p ≤ cnt s.serve.epochCount p)
    (hm : entropyHost s p = true) : execTableEpochEnd p s = .next (epochBegun s p) := by
  have hlt : ¬cnt s.serve.epochCount p < epochCycles s p := Nat.not_lt.mpr ho
  simp [execTableEpochEnd, hi, hlt, hm, epochBegun]

theorem execTableEpochEnd_early {p : Nat} {s : State} (h : isolated s p = true ∨ cnt s.serve.epochCount p < epochCycles s p) :
    execTableEpochEnd p s = .next s := by
  simp [execTableEpochEnd, h]

/-! ### The end of a build (R29, R297, R304) -/

/-- A table of one layer of a model of a partition that is being built. -/
def KvTable.builds (p model layer : Nat) (t : KvTable) : Bool := t.ptn == p && t.model == model && t.layer == layer && t.state == .building

theorem execTableBuildDone_host {p model layer : Nat} {s : State} (h : odGet s (0x9100 + p) 3 = 1) : execTableBuildDone p model layer s =
    .next (s.modServe fun w => { w with tables := w.tables.filter fun t => !(t.builds p model layer && !t.due) }) := by
  simp only [execTableBuildDone, h, if_true]
  rfl

theorem execTableBuildDone_hardware {p model layer : Nat} {s : State} (h : odGet s (0x9100 + p) 3 ≠ 1) : execTableBuildDone p model layer s =
    .next (s.modServe fun w => { w with tables := updIf (KvTable.builds p model layer) (fun t => { t with due := true }) w.tables }) := by
  simp only [execTableBuildDone, h, if_false]
  rfl

/-- Every table that a change reaches is due after it. -/
theorem due_of_builds {p model layer : Nat} {l : List KvTable} {t : KvTable}
    (ht : t ∈ updIf (KvTable.builds p model layer) (fun t => { t with due := true }) l) (hb : t.builds p model layer = true) : t.due = true := by
  obtain ⟨t₀, -, rfl⟩ := List.mem_map.mp ht
  by_cases h₀ : t₀.builds p model layer = true
  · rw [if_pos h₀]
  · rw [if_neg h₀] at hb
    exact absurd hb h₀

end Sys2Proof.Machine

open Sys2Proof Sys2Proof.Machine

/-- Settles O36: an open page is loaded with its second place or waits for it; an epoch that is over starts the build that is due, and a build that
ends waits for the boundary or gives no table. -/
theorem pagesAndTables : Obligations.PagesAndTables := by
  unfold Obligations.PagesAndTables
  refine ⟨?_, ?_, ?_, ?_, ?_, ?_, ?_, ?_⟩
  · intro xfer x p num c g b s hx hwhat hw hg hst hb hplain
    have hnone : (s.serve.reqs.any fun r => r.ptn == p && r.durable && r.pageNum g.layer g.position == some num) = false :=
      List.any_eq_false.mpr fun r hr => by
        simp only [Bool.and_eq_true, beq_iff_eq, not_and]
        exact fun ⟨hp, hd⟩ => absurd hd (by simp [hplain r hr hp])
    have he := execOpenPageLoaded_of hx hwhat hw hg hst hb
    rw [hnone, if_neg Bool.false_ne_true] at he
    refine .of_within ((exec_openPageLoaded ..).trans he) ⟨?_, findXfer_pageLoaded .., pageLoaded_reqs ..⟩ (pageLoaded_only ..)
    rw [findPage_pageLoaded _ _ _ _ _ _ hg]
    rfl
  · intro xfer x p num c g b r s hx hwhat hw hg hst hb hr hp hd hnum
    have hsome : (s.serve.reqs.any fun r => r.ptn == p && r.durable && r.pageNum g.layer g.position == some num) = true :=
      List.any_eq_true.mpr ⟨r, hr, by simp [hp, hd, hnum]⟩
    have he := execOpenPageLoaded_of hx hwhat hw hg hst hb
    rw [hsome, if_pos rfl] at he
    have hwithin := execOpenPageLoaded_only (.refl _ s) (List.Subset.refl _) he
    refine .of_within ((exec_openPageLoaded ..).trans he) ?_ hwithin
    cases hm : addMirror (pageLoaded s xfer p num c b g) p num with
    | none => exact .inl rfl
    | some u =>
      obtain ⟨k, hk, hstage, hplace⟩ := addMirror_spec (findPage_pageLoaded _ _ _ _ _ _ hg) rfl hm
      have hkept := (pageLoaded_only s xfer p num c b g).only
      exact .inr ⟨k, hk, hstage, hplace.congr (hkept.keeps .cons (by decide)) (hkept.keeps .ptns (by decide))⟩
  · exact fun xfer x s hx hw => .of_same ((exec_openPageLoaded ..).trans (execOpenPageLoaded_waits hx hw)) rfl
  · intro p h n s hi ho hm hd hn
    obtain ⟨htables, hhists, hcount, hlen⟩ := buildTensor_of_free (s := epochBegun s p) (model := h.model) (layer := h.layer) (width := h.width) hn
    refine .of_within ((exec_tableEpochEnd ..).trans (execTableEpochEnd_due hi ho hm hd)) ⟨htables, hhists, ?_, ?_⟩
      (buildTensor_only (modServe_only (.refl ..) (by decide)) (List.Subset.refl _))
    · exact (congrArg (cnt · p) hcount).trans (epochBegun_counts s p).1
    · exact (congrArg (cnt · p) hlen).trans (epochBegun_counts s p).2
  · intro p s hi ho hm
    exact .of_within ((exec_tableEpochEnd ..).trans (execTableEpochEnd_host hi ho hm)) ⟨rfl, rfl, (epochBegun_counts s p).1⟩
      (modServe_only (.refl ..) (List.Subset.refl _))
  · exact fun p s h => .of_same ((exec_tableEpochEnd ..).trans (execTableEpochEnd_early h)) rfl
  · intro p model layer s h
    exact .of_within ((exec_tableBuildDone ..).trans (execTableBuildDone_host h)) ⟨rfl, rfl⟩ (modServe_only (.refl ..) (List.Subset.refl _))
  · intro p model layer s h
    refine .of_within ((exec_tableBuildDone ..).trans (execTableBuildDone_hardware h)) ⟨fun t ht hp hmodel hlayer hstate => ?_, ?_, rfl⟩
      (modServe_only (.refl ..) (List.Subset.refl _))
    · exact due_of_builds ht (by simp [KvTable.builds, hp, hmodel, hlayer, hstate])
    · simp only [State.modServe_serve, updIf, List.map_map]
      exact List.map_congr_left fun t _ => by simp only [Function.comp_apply]; split <;> rfl
end

section
/-! PROOFS. Obligation O34 fails at CANCEL: the end of a resting request lets every waiting task go on whose conditions are met (R160, R162),
whosever it is, and the clause does not let a CANCEL change the tasks. A fenced task comes to wait for nothing as the tasks before it go with the
release of their partition (R737), which lets none go on. -/

namespace Sys2Proof.Machine
open Sys2Proof

/-- Tasks of a request that has none: only the waiting tasks of others go on. -/
theorem stopReqTasks_of_none {s : State} {h : Nat} (st : Nat) (hn : ∀ k ∈ s.work.tasks, k.request ≠ some h) : stopReqTasks s h st = settle s := by
  have hf : (s.work.tasks.filter fun t => t.request == some h &&
      (st != stEPOCH || t.src == TaskSrc.dispatcher || t.state == .dispatched || t.state == .running)) = [] :=
    List.filter_eq_nil_iff.mpr fun k hk => by simp [hn k hk]
  simp [stopReqTasks, hf, endOrder, sortBy]

/-- A CANCEL of a parked request that is not kept, and that no other device holds, ends it (R502). -/
theorem cancelReq_parked {s : State} {h : Nat} {r : Req} (hr : findReq s h = some r) (hst : r.state = .parked) (hk : r.keepOnCancel = false)
    (hh : r.holding = false) : cancelReq s h = stopReqTasks (endReq s h stCANCELLED r.lastIndex) h stCANCELLED := by
  simp [cancelReq, hr, hst, hk, hh, RState.over]

/-- A CANCEL of handle 2^18 on the PF's submission ring. -/
def parkedCancel : List Byte := ((List.replicate 128 0).set 0 3).set 0x3A 4

/-- The request with that handle, parked. -/
def parkedReq : Req := { ptn := 0, slot := 0, gen := 1, state := .parked }

/-- The block with that descriptor in the ring, that request alone, and a task of no request that waits for nothing. -/
def atParkedCancel : State :=
  { setReg (setReg (odSet State.reset 0x3000 4 1) (pfRing 0 + 8) 0x20) (pfRing 0 + 0xC) 1 with
    boot := { mgmt := true, ready := true, stopped := false }
    work := { tasks := [encTask] }
    serve := { reqs := [parkedReq] } }

theorem parkedCancel_accepted : ringOpen atParkedCancel .pf (subRing .pf 0) = true ∧ rdOp parkedCancel = 3 ∧
    wrongPtn .pf (rdPtn parkedCancel) = false ∧ opStatus (ringTake atParkedCancel (subRing .pf 0)) parkedCancel true = 0 ∧
    findReq atParkedCancel (rdHandle parkedCancel) = some parkedReq := by
  decide +kernel

/-- The end of a request whose descriptor has been read leaves the tasks alone. -/
theorem endReq_taken_work (s : State) (ring h st ix : Nat) : (endReq (ringTake s ring) h st ix).work = s.work :=
  (endReq_only (ringTake_only (.refl _ s) (by decide)) (List.Subset.refl _)).only.keeps .work (by decide)

/-- What an accepted CANCEL of a parked request leaves of the tasks: what the end of the request leaves once they have gone on. -/
theorem execReqCancel_work {v : View} {desc : List Byte} {r : Req} {s : State} (ho : ringOpen s v (subRing v 0) = true) (hop : rdOp desc = 3)
    (hw : wrongPtn v (rdPtn desc) = false) (hst : opStatus (ringTake s (subRing v 0)) desc true = 0) (hr : findReq s (rdHandle desc) = some r)
    (hp : r.state = .parked) (hk : r.keepOnCancel = false) (hh : r.holding = false) (ht : ∀ k ∈ s.work.tasks, k.request ≠ some (rdHandle desc)) :
    ∃ u, execReqCancel v desc s = .next u ∧ u.work = (settle (endReq (ringTake s (subRing v 0)) (rdHandle desc) stCANCELLED r.lastIndex)).work := by
  have hr' : findReq (ringTake s (subRing v 0)) (rdHandle desc) = some r := by simpa [findReq] using hr
  have hg : (!ringOpen s v (subRing v 0) || rdOp desc != 3) = false := by rw [ho, hop]; rfl
  simp only [execReqCancel, hg, hw, hst, hr', Option.any_some, hp, RState.over, cancelReq_parked hr' hp hk hh,
    stopReqTasks_of_none _ ((endReq_taken_work ..) ▸ ht), Bool.false_eq_true, if_false, bne_self_eq_false]
  exact ⟨_, rfl, (opDone_only (.refl [.out, .regs, .tel] _) (by decide)).only.keeps .work (by decide)⟩

/-- A PROGRAM task that waits for nothing becomes READY. -/
theorem settle_program {s : State} {t : Task} (ht : s.work.tasks = [t]) (ha : t.after = none) (hp : t.state = .pending) (hk : t.kind = 1) :
    (settle s).work.tasks = [readyTask s t] := by
  have hnext : settleStep s = some (readied s t) := by rw [settleStep_pending ht ha hp (by omega), if_pos hk]
  have hlast : settleStep (readied s t) = none := settleStep_ready (readied_tasks ht) ha rfl (show t.kind ≠ 3 by omega)
  rw [settle_once ht hnext hlast, readied_tasks ht]

end Sys2Proof.Machine

open Sys2Proof Sys2Proof.Machine

/-- Refutes O34: a CANCEL of a parked request lets a waiting task of no request go on, so it changes the tasks too, which its clause leaves out of
the parts that it may change. -/
theorem not_requestsAccepted : ¬ Obligations.RequestsAccepted := by
  unfold Obligations.RequestsAccepted
  rintro ⟨-, -, hcancel, -⟩
  obtain ⟨ho, hop, hw, hst, hr⟩ := parkedCancel_accepted
  have ht : ∀ k ∈ atParkedCancel.work.tasks, k.request ≠ some (rdHandle parkedCancel) := by simp [atParkedCancel, encTask]
  obtain ⟨u, he, -, -, hkept⟩ := hcancel .pf parkedCancel parkedReq atParkedCancel ho hop hw hst hr rfl ht
  obtain ⟨u', he', hu'⟩ := execReqCancel_work ho hop hw hst hr rfl rfl rfl ht
  have heq : u = u' := by injection he.symm.trans ((exec_reqCancel ..).trans he')
  have hwork : u.work = atParkedCancel.work := hkept .work (by decide)
  have htasks := congrArg Work.tasks (endReq_taken_work atParkedCancel (subRing .pf 0) (rdHandle parkedCancel) stCANCELLED parkedReq.lastIndex)
  have hready := settle_program (t := encTask) htasks rfl rfl rfl
  rw [← hu', ← heq, hwork] at hready
  exact absurd (congrArg (List.map Task.state) hready) (by decide)
end

section
/-! PROOFS. Obligation O53: tables and partitions through the object dictionary, and the PF mailbox (R306, R578, R584, R730, R732-R736, R848, R882). -/

namespace Sys2Proof.Machine
open Sys2Proof

/-! ### Little-endian values and chunks (R6) -/

theorem leNat_leBytes (n x : Nat) : leNat (leBytes n x) = x % 2 ^ (8 * n) := by
  induction n generalizing x with
  | zero => simp [leBytes, leNat, Nat.mod_one]
  | succ n ih =>
    have hp : 2 ^ (8 * (n + 1)) = 256 * 2 ^ (8 * n) := by rw [Nat.mul_succ, Nat.pow_add]; omega
    rw [leBytes, leNat, ih, hp, Nat.mod_mul]
    simp

/-- The first bytes of a number are those of fewer. -/
theorem take_leBytes {n m : Nat} (h : n ≤ m) (x : Nat) : (leBytes m x).take n = leBytes n x := by
  induction m generalizing n x with
  | zero => rw [Nat.le_zero.mp h]; rfl
  | succ m ih =>
    cases n with
    | zero => rfl
    | succ n => rw [leBytes, leBytes, List.take_succ_cons, ih (by omega)]

/-- A list of at most a chunk's length is one chunk. -/
theorem chunks_one {α : Type} {n : Nat} {l : List α} (h0 : l ≠ []) (h : l.length ≤ n) : chunks n l = [l] := by
  have hl := List.length_pos_of_ne_nil h0
  have hc : cdiv l.length n = 1 := Nat.div_eq_of_lt_le (by omega) (by omega)
  simp [chunks, hc, List.take_of_length_le h]

/-! ### What an answer and the journal leave: the stored values of the dictionary -/

theorem OdUnchanged.of_od {l : List (Nat × Nat)} {s t : State} (h : t.ctl.od = s.ctl.od) : OdUnchanged l s t := fun _ _ => by rw [h]

theorem OdUnchanged.trans {l : List (Nat × Nat)} {s t u : State} (h : OdUnchanged l s t) (k : OdUnchanged l t u) : OdUnchanged l s u :=
  fun key hk => (k key hk).trans (h key hk)

/-- An entry that is not excepted keeps its value. -/
theorem OdUnchanged.odGet {l : List (Nat × Nat)} {s t : State} (h : OdUnchanged l s t) {idx sub : Nat}
    (hk : odKey idx sub ∉ l.map fun e => odKey e.1 e.2) : odGet t idx sub = Machine.odGet s idx sub :=
  h _ hk

theorem odSet_unchanged (s : State) (idx sub v : Nat) : OdUnchanged [(idx, sub)] s (odSet s idx sub v) := fun _ hk =>
  sget_sset_other _ _ _ (by simpa using hk)

theorem journal_od (s : State) (a : Audit) : (journal s a).ctl.od = s.ctl.od := by
  simp only [journal, State.modAlm_ctl, almQueue_ctl, State.modCtl_ctl]

theorem odJournal_od (s : State) (a : Audit) (err : Nat) : (odJournal s a err).ctl.od = s.ctl.od := by
  unfold odJournal
  split
  · exact journal_od ..
  · rfl

/-- A frame that leaves is counted, and no other value changes (R887). -/
theorem busSend_unchanged (s : State) (f : Frame) : OdUnchanged [(0x1020, 2)] s (busSend s f) := by
  have hsent : OdUnchanged [(0x1020, 2)] s (sendFrame s f) := odSet_unchanged (emit s (.can f)) 0x1020 2 _
  have hsame : OdUnchanged [(0x1020, 2)] s s := .of_od rfl
  unfold busSend
  split
  · exact hsame
  · split
    · exact hsame
    · exact .of_od rfl
    · split
      · exact hsame
      · exact hsent
    · exact hsent

theorem busSends_unchanged (fs : List Frame) (s : State) : OdUnchanged [(0x1020, 2)] s (fs.foldl busSend s) := by
  induction fs generalizing s with
  | nil => exact .of_od rfl
  | cons f fs ih => exact (busSend_unchanged s f).trans (ih (busSend s f))

/-- The answer in the PF mailbox is one of registers alone. -/
theorem odAnswer_pf_only {ps : List Part} {s u : State} {w : OdSrc} (hw : w.master = .pf) (write : Bool) (idx sub err : Nat) (value : List Byte)
    (h : Within ps s u) (hp : [.regs] ⊆ ps) : Within ps s (odAnswer u w write idx sub err value) := by
  simp only [odAnswer, hw]
  refine mbxDone_only ?_ hp
  have h1 (st : Nat) := mbxPut_only (off := 0x2100) (lo := 96) (n := 32) (v := err) (mbxPut_only (off := 0x2100) (lo := 64) (n := 8) (v := st) h hp) hp
  split
  · exact h1 _
  · exact foldlFst_only (mbxPut_only (h1 _) hp) fun _ _ hv => setReg_only hv hp

theorem odAnswer_pf_od (s : State) {w : OdSrc} (hw : w.master = .pf) (write : Bool) (idx sub err : Nat) (value : List Byte) :
    (odAnswer s w write idx sub err value).ctl.od = s.ctl.od :=
  congrArg Ctl.od ((odAnswer_pf_only hw write idx sub err value (.refl [.regs] s) (List.Subset.refl _)).only.keeps .ctl (by decide))

theorem odAnswer_unchanged (s : State) (w : OdSrc) (write : Bool) (idx sub err : Nat) (value : List Byte) :
    OdUnchanged [(0x1020, 2)] s (odAnswer s w write idx sub err value) := by
  cases hw : w.master with
  | pf => exact .of_od (odAnswer_pf_od s hw ..)
  | bus =>
    simp only [odAnswer, hw]
    exact busSends_unchanged _ s

/-- Entries of different indices have different keys. -/
theorem odKey_ne {idx sub j k : Nat} (hs : sub < 256) (hk : k < 256) (h : idx ≠ j) : odKey idx sub ≠ odKey j k := by
  unfold odKey; omega

/-! ### The answer names its error (R848, R879) -/

/-- Byte 5 of the first frame of an answer is the error (R879). -/
theorem answerFrames_err (s : State) (w : OdSrc) (func : Nat) {idx sub err : Nat} (value : List Byte) (hi : idx < 65536) (hs : sub < 256) (he : err < 256) :
    ((answerFrames s w func idx sub err value).head?).map (fun f => leAt f.data 5 1) = some err := by
  have hlen := Nat.mod_lt value.length (show 0 < 2 ^ 13 by decide)
  simp only [answerFrames, List.head?_cons, Option.map_some, Option.some.injEq, leAt, bytesAt, padFd, padTo, leBytes, List.cons_append, List.drop_succ_cons,
    List.drop_zero, List.take_succ_cons, List.take_zero, leNat, BitVec.toNat_ofNat]
  omega

theorem getReg_mbxDone_pf (s : State) {o : Nat} (h : o ≠ 0x2400) : getReg (mbxDone s .pf 3) o = getReg s o := getReg_setReg_other _ _ h

theorem mbxDone_go (s : State) : (getReg (mbxDone s .pf 3) 0x2400).getLsbD 3 = false := by
  simp [mbxDone, mbxCtl]

/-- A field of a whole word of a mailbox takes the value. -/
theorem getReg_mbxPut_word (s : State) (off lo v : Nat) (hl : lo % 32 = 0) (hv : v < 2 ^ 32) : (getReg (mbxPut s off lo 32 v) (off + 4 * (lo / 32))).toNat = v := by
  have hb := bits_mbxPut s off lo 32 v rfl rfl (by omega)
  rw [hl] at hb
  have hlt := (getReg (mbxPut s off lo 32 v) (off + 4 * (lo / 32))).isLt
  rw [bits, Nat.pow_zero, Nat.div_one, Nat.mod_eq_of_lt hlt, Nat.mod_eq_of_lt hv] at hb
  exact hb

/-- The serve status that stands for an error of the dictionary (R848). -/
def odStatus (err : Nat) : Nat := if err = odOK then stOK else if err = odRIGHTS then stACCESS else if err = odOVERRIDDEN then stOVERRIDDEN else stFORMAT

/-- STATUS and the error in the PF mailbox. -/
def errWritten (s : State) (err : Nat) : State := mbxPut (mbxPut s 0x2100 64 8 (odStatus err)) 0x2100 96 32 err

/-- The next word of a value in the data registers of the PF mailbox. -/
def putWord (a : State × Nat) (c : List Byte) : State × Nat := (setReg a.1 (0x3000 + 4 * a.2) (BitVec.ofNat 32 (leNat c)), a.2 + 1)

theorem odAnswer_pf_write (s : State) {w : OdSrc} (hw : w.master = .pf) (idx sub err : Nat) (value : List Byte) :
    odAnswer s w true idx sub err value = mbxDone (errWritten s err) .pf 3 := by
  simp only [odAnswer, hw]
  rfl

theorem odAnswer_pf_read (s : State) {w : OdSrc} (hw : w.master = .pf) (idx sub err : Nat) (value : List Byte) :
    odAnswer s w false idx sub err value = mbxDone ((chunks 4 value).foldl putWord (mbxPut (errWritten s err) 0x2100 32 13 value.length, 0)).1 .pf 3 := by
  simp only [odAnswer, hw]
  rfl

theorem getReg_errWritten (s : State) {err : Nat} (he : err < 256) : (getReg (errWritten s err) 0x210C).toNat = err :=
  getReg_mbxPut_word _ 0x2100 96 err rfl (by omega)

theorem getReg_putWords (l : List (List Byte)) (a : State × Nat) {o : Nat} (h : o < 0x3000) : getReg (l.foldl putWord a).1 o = getReg a.1 o := by
  induction l generalizing a with
  | nil => rfl
  | cons c l ih => rw [List.foldl_cons, ih, putWord, getReg_setReg_other _ _ (by omega)]

/-- A write's answer, of any master. -/
theorem odReplied_write (s : State) (w : OdSrc) {idx sub err : Nat} (hi : idx < 65536) (hs : sub < 256) (he : err < 256) :
    odReplied (odAnswer s w true idx sub err []) w err := by
  constructor <;> intro hw
  · rw [odAnswer_pf_write s hw]
    exact ⟨by rw [getReg_mbxDone_pf _ (by decide), getReg_errWritten s he], mbxDone_go _⟩
  · simp only [odAnswer, hw]
    exact ⟨_, List.mem_append_right _ (List.mem_singleton_self _), rfl, rfl, rfl, answerFrames_err s w _ _ hi hs he⟩

/-- A read's answer to the PF. -/
theorem odReplied_read (s : State) (idx sub : Nat) {err : Nat} (value : List Byte) (he : err < 256) :
    odReplied (odAnswer s { master := .pf } false idx sub err value) { master := .pf } err := by
  refine ⟨fun _ => ?_, nofun⟩
  rw [odAnswer_pf_read s rfl]
  refine ⟨?_, mbxDone_go _⟩
  rw [getReg_mbxDone_pf _ (by decide), getReg_putWords _ _ (by decide), getReg_mbxPut_other _ _ _ _ _ (by decide), getReg_errWritten s he]

/-- A value of one word stands in the first data register of the PF mailbox. -/
theorem getReg_read_word (s : State) (idx sub err : Nat) {value : List Byte} (h0 : value ≠ []) (h4 : value.length ≤ 4) :
    getReg (odAnswer s { master := .pf } false idx sub err value) 0x3000 = BitVec.ofNat 32 (leNat value) := by
  rw [odAnswer_pf_read s rfl, chunks_one h0 h4, getReg_mbxDone_pf _ (by decide)]
  exact getReg_setReg_same ..

/-! ### A write of an entry, by what its checks leave to do (R25, R748, R881-R884) -/

/-- A write that is answered with `r` in the state `u` that its effect, or its refusal, leaves. -/
def odDone (s u : State) (w : OdSrc) (idx sub : Nat) (data : List Byte) (r : Nat) : State :=
  odAnswer (odJournal u (odAudit s w idx sub data) r) w true idx sub r []

/-- A write that waits for the boundary. -/
def odQueued (s u : State) (w : OdSrc) (idx sub : Nat) (data : List Byte) : State :=
  u.modCtl fun k => { k with odPend := k.odPend ++ [{ w := w, role := roleOf s w, index := idx, sub := sub, data := data }] }

section
variable {s u : State} {w : OdSrc} {idx sub r : Nat} {data : List Byte} {x : Ext}

theorem odWriteCmd_queued (ht : odTakes s w idx sub data) (hw : odWaits s idx sub data = true) (ha : odAccept s w idx sub data = (u, odOK)) :
    odWriteCmd s w idx sub data x = odQueued s u w idx sub data := by
  obtain ⟨hh, hc⟩ := ht
  simp [odWriteCmd, hh, odWrite, hc, hw, ha, odQueued]

theorem odWriteCmd_refused (ht : odTakes s w idx sub data) (hw : odWaits s idx sub data = true) (ha : odAccept s w idx sub data = (u, r)) (hr : r ≠ odOK) :
    odWriteCmd s w idx sub data x = odDone s u w idx sub data r := by
  obtain ⟨hh, hc⟩ := ht
  simp [odWriteCmd, hh, odWrite, hc, hw, ha, hr, odDone]

/-- An entry whose value is no Almanac group's, and that is not UPDATE's command, is answered with what its effect answers. -/
theorem odWriteCmd_done (ht : odTakes s w idx sub data) (hw : odWaits s idx sub data = false) (he : odEffect s w idx sub data x = (u, r))
    (hi : idx ∉ [0x1010, 0x2000, 0x2020, 0x6010, 0x8000]) (hs : sub < 256) : odWriteCmd s w idx sub data x = odDone s u w idx sub data r := by
  obtain ⟨hh, hc⟩ := ht
  have hi' : idx ≠ 0x1010 ∧ idx ≠ 0x2000 ∧ idx ≠ 0x2020 ∧ idx ≠ 0x6010 ∧ idx ≠ 0x8000 := by simpa using hi
  have hk : odKey idx sub ≠ 0x202006 := odKey_ne (j := 0x2020) (k := 6) hs (by decide) (by omega)
  have hst : odStores idx sub (leNat data) = false := by simp [odStores, odKey]; omega
  simp [odWriteCmd, hh, odWrite, hc, hw, he, hst, hk, odDone]

theorem odDone_replied (hi : idx < 65536) (hs : sub < 256) (hr : r < 256) : odReplied (odDone s u w idx sub data r) w r :=
  odReplied_write _ w hi hs hr

theorem odDone_only {ps : List Part} {a : State} (h : Within ps a u) (hp : [.out, .regs, .ctl, .mgt, .alm] ⊆ ps) : Within ps a (odDone s u w idx sub data r) :=
  odAnswer_only (odJournal_only h (subset_sub hp (by decide))) (subset_sub hp (by decide))

/-- Answered in the PF mailbox, nothing goes out by the bus. -/
theorem odDone_pf_only {ps : List Part} {a : State} (hw : w.master = .pf) (h : Within ps a u) (hp : [.regs, .ctl, .alm] ⊆ ps) :
    Within ps a (odDone s u w idx sub data r) :=
  odAnswer_pf_only hw _ _ _ _ _ (odJournal_only h (subset_sub hp (by decide))) (subset_sub hp (by decide))

theorem odDone_serve : (odDone s u w idx sub data r).serve = u.serve :=
  (odDone_only (.refl [.out, .regs, .ctl, .mgt, .alm] u) (List.Subset.refl _)).only.keeps .serve (by decide)
theorem odDone_ptns : (odDone s u w idx sub data r).ptns = u.ptns :=
  (odDone_only (.refl [.out, .regs, .ctl, .mgt, .alm] u) (List.Subset.refl _)).only.keeps .ptns (by decide)

theorem odDone_unchanged : OdUnchanged [(0x1020, 2)] u (odDone s u w idx sub data r) :=
  OdUnchanged.trans (.of_od (odJournal_od u (odAudit s w idx sub data) r)) (odAnswer_unchanged (odJournal u (odAudit s w idx sub data) r) w true idx sub r [])
theorem odDone_pf_od (hw : w.master = .pf) : (odDone s u w idx sub data r).ctl.od = u.ctl.od :=
  (odAnswer_pf_od _ hw ..).trans (odJournal_od ..)
theorem odDone_odGet {i k : Nat} (h : odKey i k ≠ odKey 0x1020 2) : odGet (odDone s u w idx sub data r) i k = odGet u i k :=
  odDone_unchanged.odGet (by simpa using h)

theorem odQueued_only {ps : List Part} {a : State} (h : Within ps a u) (hp : [.ctl] ⊆ ps) : Within ps a (odQueued s u w idx sub data) := modCtl_only h hp
theorem odQueued_waiting (h : u.ctl.odPend = s.ctl.odPend) : odWaiting s (odQueued s u w idx sub data) w idx sub data := by
  simp only [odWaiting, odQueued, State.modCtl_ctl, h]
theorem odQueued_od : (odQueued s u w idx sub data).ctl.od = u.ctl.od := rfl

/-- Whether a write waits hangs on its entry, and of a command or a peer set on its value and the partition. -/
theorem odWaits_of_find {b : Bool} (hf : (odFind idx sub).map (·.boundary) = some b) : odWaits s idx sub data =
    (b || odKey idx sub == 0x901001 || (odAt idx 0x9200 && sub == 1) || (odLife idx && sub == 2 && leNat data != 4)
      || (odLife idx && sub == 5 && (getPtn s (odWhose idx)).state == .active)) := by
  obtain ⟨e, he, rfl⟩ := Option.map_eq_some_iff.mp hf
  simp only [odWaits, he]

end

/-! ### The entries of tables, windows and partitions (R306, R584, R752) -/

theorem supplyEntry : ∀ q < 32, (odFind (0x9160 + q) 1).map (·.boundary) = some false ∧ odLife (0x9160 + q) = false ∧
    odAt (0x9160 + q) 0x9160 = true ∧ odAt (0x9160 + q) 0x9200 = false ∧ odWhose (0x9160 + q) = q := by
  decide +kernel

theorem windowEntry : ∀ q < 32, (odFind (0x9200 + q) 1).map (·.boundary) = some false ∧ odAt (0x9200 + q) 0x9200 = true ∧ odWhose (0x9200 + q) = q := by
  decide +kernel

theorem ptnEntry : ∀ q < 32, ((odFind (0x3000 + 16 * q) 2).map (·.boundary) = some false ∧ (odFind (0x3000 + 16 * q) 3).map (·.boundary) = some false) ∧
    odLife (0x3000 + 16 * q) = true ∧ odAt (0x3000 + 16 * q) 0x9200 = false ∧ odWhose (0x3000 + 16 * q) = q := by
  decide +kernel

/-- Only 0x9010 is the index of the route table. -/
theorem odKey_ne_routes {idx sub : Nat} (hs : sub < 256) (h : idx ≠ 0x9010) : odKey idx sub ≠ 0x901001 := odKey_ne (k := 1) hs (by decide) h

/-! ### Tables that a host supplies (R306, R307) -/

/-- The tables of images from a slot on. -/
def suppliedTables (p n : Nat) (imgs : List (List Byte)) : List KvTable :=
  imgs.mapIdx fun i b => {
    num := n + i, ptn := p, state := .building, model := imgModel b, layer := imgLayer b, comp := imgComp b, width := imgWidth b, lengths := imgLengths b, due := true }

/-- The tables of the images taken, and RESULT 0. -/
def tablesTaken (s : State) (p n : Nat) (imgs : List (List Byte)) : State :=
  (odSet s (0x9160 + p) 2 0).modServe fun w => { w with tables := w.tables ++ suppliedTables p n imgs }

section
variable {s : State} {w : OdSrc} {q n r : Nat} {data : List Byte} {imgs : List (List Byte)} {x : Ext}

theorem tableSupply_taken (hr : supplyResult s q data = (0, imgs)) (hn : freeTab s q imgs.length = some n) :
    tableSupply s q data = (tablesTaken s q n imgs, 0) := by
  simp only [tableSupply, hr, hn, if_true]
  rfl

theorem tableSupply_refused (hr : supplyResult s q data = (r, imgs)) (h0 : r ≠ 0) : tableSupply s q data = (odSet s (0x9160 + q) 2 r, r) := by
  simp only [tableSupply, hr, if_neg h0]
  split <;> rfl

theorem odEffect_table (h : q < 32) : odEffect s w (0x9160 + q) 1 data x =
    ((tableSupply s q data).1, if (tableSupply s q data).2 = 0 then odOK else if (tableSupply s q data).2 = 3 ∨ (tableSupply s q data).2 = 4 then odSTATE else odRANGE) := by
  obtain ⟨-, hl, ht, -, hq⟩ := supplyEntry q h
  simp [odEffect, hl, ht, hq]

theorem odWriteCmd_table {u : State} (h : q < 32) (ht : odTakes s w (0x9160 + q) 1 data) (he : odEffect s w (0x9160 + q) 1 data x = (u, r)) :
    odWriteCmd s w (0x9160 + q) 1 data x = odDone s u w (0x9160 + q) 1 data r := by
  obtain ⟨hf, hl, -, hw, -⟩ := supplyEntry q h
  have hk : odKey (0x9160 + q) 1 ≠ 0x901001 := odKey_ne_routes (by decide) (by omega)
  have hn : odWaits s (0x9160 + q) 1 data = false := by simp [odWaits_of_find hf, hl, hw, hk]
  exact odWriteCmd_done ht hn he (by simp; omega) (by decide)

end

/-- Every image of an accepted write is a table more, none is lost, and RESULT is 0 (R306). -/
theorem does_tableSupply_taken {w : OdSrc} {p n : Nat} {data : List Byte} {imgs : List (List Byte)} {s : State} (ht : odTakes s w (0x9160 + p % 32) 1 data)
    (hr : supplyResult s (p % 32) data = (0, imgs)) (hn : freeTab s (p % 32) imgs.length = some n) :
    Does (.tableSupply w p data) s allParts fun t => odReplied t w 0 ∧ odGet t (0x9160 + p % 32) 2 = 0 ∧ t.serve.tables.take s.serve.tables.length = s.serve.tables ∧
      t.serve.tables.length = s.serve.tables.length + imgs.length := by
  have hq : p % 32 < 32 := Nat.mod_lt _ (by decide)
  have he : odEffect s w (0x9160 + p % 32) 1 data {} = (tablesTaken s (p % 32) n imgs, odOK) := by
    rw [odEffect_table hq, tableSupply_taken hr hn, if_pos rfl]
  have hs : (odDone s (tablesTaken s (p % 32) n imgs) w (0x9160 + p % 32) 1 data odOK).serve.tables = s.serve.tables ++ suppliedTables (p % 32) n imgs :=
    congrArg Serve.tables odDone_serve
  refine .of_within (congrArg Host.Outcome.next (odWriteCmd_table hq ht he)) ⟨odDone_replied (by omega) (by decide) (by decide), ?_, ?_, ?_⟩
    (odDone_only (modServe_only (odSet_only (.refl allParts s) (by decide)) (by decide)) (by decide))
  · rw [odDone_odGet (odKey_ne (by decide) (by decide) (by omega))]
    exact odGet_odSet_same ..
  · rw [hs, List.take_left]
  · rw [hs, List.length_append, suppliedTables, List.length_mapIdx]

/-- A refused write leaves its code in RESULT (R307). -/
theorem does_tableSupply_refused {w : OdSrc} {p r : Nat} {data : List Byte} {imgs : List (List Byte)} {s : State} (ht : odTakes s w (0x9160 + p % 32) 1 data)
    (hr : supplyResult s (p % 32) data = (r, imgs)) (h0 : r ≠ 0) :
    Does (.tableSupply w p data) s [.out, .regs, .ctl, .mgt, .alm] fun t =>
      odReplied t w (if r = 3 ∨ r = 4 then odSTATE else odRANGE) ∧ odGet t (0x9160 + p % 32) 2 = r := by
  have hq : p % 32 < 32 := Nat.mod_lt _ (by decide)
  have he : odEffect s w (0x9160 + p % 32) 1 data {} = (odSet s (0x9160 + p % 32) 2 r, if r = 3 ∨ r = 4 then odSTATE else odRANGE) := by
    rw [odEffect_table hq, tableSupply_refused hr h0, if_neg h0]
  refine .of_within (congrArg Host.Outcome.next (odWriteCmd_table hq ht he)) ⟨odDone_replied (by omega) (by decide) (by split <;> decide), ?_⟩
    (odDone_only (odSet_only (.refl _ s) (by decide)) (by decide))
  rw [odDone_odGet (odKey_ne (by decide) (by decide) (by omega)), odGet_odSet_same]

/-! ### Writes that wait for the boundary (R25, R578, R584, R732) -/

theorem Does.mono {c : Instr} {s : State} {ps : List Part} {P Q : State → Prop} (h : Does c s ps P) (k : ∀ t, P t → Q t) : Does c s ps Q := by
  obtain ⟨t, he, hP, hc⟩ := h
  exact ⟨t, he, k t hP, hc⟩

/-- A write that is accepted, and waits. -/
theorem Does.of_odQueued {c : Instr} {s u : State} {w : OdSrc} {idx sub : Nat} {data : List Byte} {x : Ext} {P : State → Prop}
    (he : exec c s = .next (odWriteCmd s w idx sub data x)) (ht : odTakes s w idx sub data) (hw : odWaits s idx sub data = true)
    (ha : odAccept s w idx sub data = (u, odOK)) (hu : Within [.ctl] s u) (hp : u.ctl.odPend = s.ctl.odPend) (hP : P (odQueued s u w idx sub data)) :
    Does c s [.ctl] fun t => odWaiting s t w idx sub data ∧ P t :=
  .of_within (he.trans (congrArg Host.Outcome.next (odWriteCmd_queued ht hw ha))) ⟨odQueued_waiting hp, hP⟩ (odQueued_only hu (by decide))

/-- A write that is refused as it is written. -/
theorem Does.of_odRefused {c : Instr} {s u : State} {w : OdSrc} {idx sub r : Nat} {data : List Byte} {x : Ext} {ps : List Part} {P : State → Prop}
    (he : exec c s = .next (odWriteCmd s w idx sub data x)) (ht : odTakes s w idx sub data) (hw : odWaits s idx sub data = true)
    (ha : odAccept s w idx sub data = (u, r)) (h0 : r ≠ odOK) (hi : idx < 65536) (hs : sub < 256) (hr : r < 256) (hu : Within ps s u)
    (hp : [.out, .regs, .ctl, .mgt, .alm] ⊆ ps) (hP : P (odDone s u w idx sub data r)) :
    Does c s ps fun t => odReplied t w r ∧ P t :=
  .of_within (he.trans (congrArg Host.Outcome.next (odWriteCmd_refused ht hw ha h0))) ⟨odDone_replied hi hs hr, hP⟩ (odDone_only hu hp)

theorem odWaits_routes (s : State) (data : List Byte) : odWaits s 0x9010 1 data = true :=
  (odWaits_of_find (b := false) (by decide +kernel)).trans rfl

/-- The error that a result of the route table stands for (R578). -/
def routeErr (r : Nat) : Nat := if r = 0 then odOK else if r = 1 then odSTATE else odRANGE

theorem odAccept_routes (s : State) (w : OdSrc) {data : List Byte} (hl : data.length = 4096) :
    odAccept s w 0x9010 1 data = (odSet s 0x9010 3 (routeResult s data), routeErr (routeResult s data)) := by
  simp [odAccept, odKey, hl, routeErr]

theorem does_routeTableLoad {w : OdSrc} {data : List Byte} {s : State} (ht : odTakes s w 0x9010 1 data) (hl : data.length = 4096) :
    (routeResult s data = 0 → Does (.routeTableLoad w data) s [.ctl] fun t => odWaiting s t w 0x9010 1 data ∧ odGet t 0x9010 3 = 0) ∧
    (routeResult s data ≠ 0 → Does (.routeTableLoad w data) s [.out, .regs, .ctl, .mgt, .alm] fun t =>
      odReplied t w (if routeResult s data = 1 then odSTATE else odRANGE) ∧ odGet t 0x9010 3 = routeResult s data) := by
  have ha := odAccept_routes s w hl
  constructor <;> intro hr
  · rw [hr, routeErr, if_pos rfl] at ha
    exact .of_odQueued rfl ht (odWaits_routes s data) ha (odSet_only (.refl _ s) (by decide)) rfl (odGet_odSet_same s 0x9010 3 0)
  · rw [routeErr, if_neg hr] at ha
    refine .of_odRefused rfl ht (odWaits_routes s data) ha (by split <;> decide) (by decide) (by decide) (by split <;> decide)
      (odSet_only (.refl _ s) (by decide)) (by decide) ?_
    rw [odDone_odGet (odKey_ne (by decide) (by decide) (by decide)), odGet_odSet_same]

theorem odWaits_window (s : State) {q : Nat} (h : q < 32) (data : List Byte) : odWaits s (0x9200 + q) 1 data = true := by
  obtain ⟨hf, hw, -⟩ := windowEntry q h
  simp [odWaits_of_find hf, hw]

/-- The error that a result of a window table stands for (R584, R697). -/
def windowErr (s : State) (q r : Nat) : Nat := if r = 0 then odOK else if r = 4 then odSTATE else if tdiLocked s q then odLOCKED else odRANGE

theorem odAccept_window (s : State) (w : OdSrc) {q : Nat} (h : q < 32) {data : List Byte} (hl : data.length = 2048) :
    odAccept s w (0x9200 + q) 1 data = (odSet s (0x9200 + q) 2 (windowResult s q data), windowErr s q (windowResult s q data)) := by
  obtain ⟨-, hw, hq⟩ := windowEntry q h
  have hk : odKey (0x9200 + q) 1 ≠ 0x901001 := odKey_ne_routes (by decide) (by omega)
  simp [odAccept, hk, hw, hq, hl, windowErr]

theorem does_windowTableWrite {w : OdSrc} {p : Nat} {data : List Byte} {s : State} (ht : odTakes s w (0x9200 + p % 32) 1 data) (hl : data.length = 2048) :
    (windowResult s (p % 32) data = 0 → Does (.windowTableWrite w p data) s [.ctl] fun t => odWaiting s t w (0x9200 + p % 32) 1 data ∧ odGet t (0x9200 + p % 32) 2 = 0) ∧
    (windowResult s (p % 32) data ≠ 0 → Does (.windowTableWrite w p data) s [.out, .regs, .ctl, .mgt, .alm] fun t =>
      odGet t (0x9200 + p % 32) 2 = windowResult s (p % 32) data ∧
      odReplied t w (if windowResult s (p % 32) data = 4 then odSTATE else if tdiLocked s (p % 32) then odLOCKED else odRANGE)) := by
  have hq : p % 32 < 32 := Nat.mod_lt _ (by decide)
  have hw := odWaits_window s hq data
  have ha := odAccept_window s w hq hl
  constructor <;> intro hr
  · rw [hr, windowErr, if_pos rfl] at ha
    exact .of_odQueued rfl ht hw ha (odSet_only (.refl _ s) (by decide)) rfl (odGet_odSet_same ..)
  · rw [windowErr, if_neg hr] at ha
    refine Does.mono (Does.of_odRefused (P := fun t => odGet t (0x9200 + p % 32) 2 = windowResult s (p % 32) data) rfl ht hw ha (by split_ifs <;> decide) (by omega)
      (by decide) (by split_ifs <;> decide) (odSet_only (.refl _ s) (by decide)) (List.Subset.refl _) ?_) fun _ => And.symm
    rw [odDone_odGet (odKey_ne (by decide) (by decide) (by omega)), odGet_odSet_same]

/-! ### Commands of partitions (R732-R736) -/

theorem getPtn_modPtn_same {s : State} {p : Nat} {f : Ptn → Ptn} (hp : p < s.ptns.length) : getPtn (modPtn s p f) p = f (getPtn s p) := getD_modAt_same hp

theorem getPtn_of_ptns {s t : State} (h : t.ptns = s.ptns) (q : Nat) : getPtn t q = getPtn s q := by simp only [getPtn, h]

theorem ptns_length_of_shaped {s : State} (h : s.shaped = true) : s.ptns.length = 32 := (shaped_iff.mp h).2.2.1

/-- A command but FENCE waits for the boundary. -/
theorem odWaits_command (s : State) {q : Nat} (h : q < 32) (data : List Byte) : odWaits s (0x3000 + 16 * q) 2 data = (leNat data != 4) := by
  obtain ⟨⟨hf, -⟩, hl, hw, -⟩ := ptnEntry q h
  have hk : odKey (0x3000 + 16 * q) 2 ≠ 0x901001 := odKey_ne_routes (by decide) (by omega)
  simp [odWaits_of_find hf, hl, hw, hk]

theorem odAccept_command (s : State) (w : OdSrc) {q : Nat} (h : q < 32) (data : List Byte) : odAccept s w (0x3000 + 16 * q) 2 data =
    if cmdAccept s w q (leNat data) = 0 then (s, odOK)
    else (modPtn s q fun x => { x with cmdResult := cmdAccept s w q (leNat data) },
      if cmdAccept s w q (leNat data) = 7 then odRIGHTS else if cmdAccept s w q (leNat data) = 5 then odRANGE else odSTATE) := by
  obtain ⟨-, hl, hw, hq⟩ := ptnEntry q h
  have hk : odKey (0x3000 + 16 * q) 2 ≠ 0x901001 := odKey_ne_routes (by decide) (by omega)
  simp only [odAccept, hk, hl, hw, hq, Bool.false_and, Bool.true_and, Bool.false_eq_true, if_false, decide_true, if_true]

/-- A command whose check passes as it is written waits whole (R732). -/
theorem does_command {c : Instr} {w : OdSrc} {p : Nat} {b : Byte} {s : State} (he : exec c s = .next (odWriteCmd s w (0x3000 + 16 * (p % 32)) 2 [b] {}))
    (hb : b ≠ 4) (ht : odTakes s w (0x3000 + 16 * (p % 32)) 2 [b]) (hc : cmdAccept s w (p % 32) b.toNat = 0) :
    Does c s [.ctl] fun t => odWaiting s t w (0x3000 + 16 * (p % 32)) 2 [b] := by
  have hq : p % 32 < 32 := Nat.mod_lt _ (by decide)
  have ha : odAccept s w (0x3000 + 16 * (p % 32)) 2 [b] = (s, odOK) := by
    rw [odAccept_command s w hq, if_pos (by simpa [leNat] using hc)]
  have hw : odWaits s (0x3000 + 16 * (p % 32)) 2 [b] = true := by
    rw [odWaits_command s hq, bne_iff_ne]
    exact fun h4 => hb (BitVec.eq_of_toNat_eq (by simpa [leNat] using h4))
  exact (Does.of_odQueued (P := fun _ => True) he ht hw ha (.refl _ s) rfl trivial).mono fun _ => And.left

/-- PROVISION where the partition is not VACANT, say, is refused as it is written, and only its result changes (R733). -/
theorem does_provision_refused {w : OdSrc} {p : Nat} {s : State} (hs : s.shaped = true) (ht : odTakes s w (0x3000 + 16 * (p % 32)) 2 [1])
    (hc : cmdAccept s w (p % 32) 1 = 1) : Does (.ptnProvision w p) s [.out, .regs, .ptns, .ctl, .mgt, .alm] fun t =>
      odReplied t w odSTATE ∧ getPtn t (p % 32) = { getPtn s (p % 32) with cmdResult := 1 } := by
  have hq : p % 32 < 32 := Nat.mod_lt _ (by decide)
  have ha : odAccept s w (0x3000 + 16 * (p % 32)) 2 [1] = (modPtn s (p % 32) fun x => { x with cmdResult := 1 }, odSTATE) := by
    rw [odAccept_command s w hq, show leNat [1] = 1 from rfl, hc]
    rfl
  refine .of_odRefused rfl ht (odWaits_command s hq [1]) ha (by decide) (by omega) (by decide) (by decide) (modPtn_only (.refl _ s) (by decide)) (by decide) ?_
  rw [getPtn_of_ptns odDone_ptns, getPtn_modPtn_same (ptns_length_of_shaped hs ▸ hq)]

theorem odEffect_fence (s : State) (w : OdSrc) {q : Nat} (h : q < 32) (data : List Byte) (x : Ext) : odEffect s w (0x3000 + 16 * q) 2 data x = writeFence s w q := by
  obtain ⟨-, hl, -, hq⟩ := ptnEntry q h
  simp [odEffect, hl, hq]

/-- FENCE is answered in its command (R732). -/
theorem odWriteCmd_fence {s u : State} {w : OdSrc} {q r : Nat} (h : q < 32) (ht : odTakes s w (0x3000 + 16 * q) 2 [4]) (he : writeFence s w q = (u, r)) :
    odWriteCmd s w (0x3000 + 16 * q) 2 [4] {} = odDone s u w (0x3000 + 16 * q) 2 [4] r :=
  odWriteCmd_done ht (odWaits_command s h [4]) ((odEffect_fence s w h ..).trans he) (by simp; omega) (by decide)

/-- The state of a partition, the one recorded at its fence, and the cause of the fence. -/
def lifeOf (x : Ptn) : PState × PState × Nat := (x.state, x.before, x.fenceCause)

theorem lifeOf_modPtn {f : Ptn → Ptn} (h : ∀ x, lifeOf (f x) = lifeOf x) (s : State) (p q : Nat) : lifeOf (getPtn (modPtn s p f) q) = lifeOf (getPtn s q) :=
  getD_modAt_keeps h ..

theorem odLose_life (s : State) (o : OdPend) (q : Nat) : lifeOf (getPtn (odLose s o) q) = lifeOf (getPtn s q) := by
  have ha (u : State) : (odAnswer u o.w true o.index o.sub odOVERRIDDEN []).ptns = u.ptns :=
    (odAnswer_only (.refl [.out, .regs, .ctl, .mgt] u) (List.Subset.refl _)).only.keeps .ptns (by decide)
  have hj (u : State) (a : Audit) : (journal u a).ptns = u.ptns := (journal_only (.refl [.ctl, .alm] u) (List.Subset.refl _)).only.keeps .ptns (by decide)
  unfold odLose
  extract_lets _ a u v
  have hu : u.ptns = s.ptns := hj s a
  have hv : lifeOf (getPtn v q) = lifeOf (getPtn u q) := by
    unfold v
    split
    · exact lifeOf_modPtn (by intro; rfl) ..
    · rfl
  rw [getPtn_of_ptns (ha v), hv, getPtn_of_ptns hu]

/-- The states in which FENCE finds something to stop (R732). -/
abbrev fenceable (st : PState) : Prop := st = .provisioning ∨ st = .active ∨ st = .draining

/-- A fence leaves the partition FENCED with its cause and the state before it, and no other partition changes (R734). -/
theorem fencePtn_ptns {s : State} {p : Nat} (cause : Nat) (hp : fenceable (getPtn s p).state) :
    (fencePtn s p cause).ptns = modAt (modAt s.ptns p fun x => { x with before := (getPtn s p).state, fenceCause := cause }) p fun x => { x with state := .fenced } := by
  have hi (u : State) : (isolate u p).ptns = u.ptns :=
    (isolate_only (.refl [.out, .freeCount, .regs, .cons, .work, .mem, .serve, .px, .ctl, .tel] u) (List.Subset.refl _)).only.keeps .ptns (by decide)
  have hl (u : State) (e : Event) : (lastEvent u p e).ptns = u.ptns :=
    (lastEvent_only (.refl [.out, .regs, .eph, .serve, .tel] u) (List.Subset.refl _)).only.keeps .ptns (by decide)
  have hg : (!((getPtn s p).state == .provisioning || (getPtn s p).state == .active || (getPtn s p).state == .draining)) = false := by
    rcases hp with h | h | h <;> rw [h] <;> rfl
  simp only [fencePtn, hg, Bool.false_eq_true, if_false, goPtn_ptns, hi, modPtn, State.modPtns_ptns, hl, raisePf_ptns]

/-- FENCE is for a partition that is PROVISIONING, ACTIVE or DRAINING (R732). -/
theorem cmdCheck_fence (s : State) (p : Nat) : cmdCheck s p 4 =
    if (getPtn s p).state == .provisioning || (getPtn s p).state == .active || (getPtn s p).state == .draining then 0 else 1 := rfl

theorem runCmd_fence (s : State) (p : Nat) : runCmd s p 4 = fencePtn s p 1 := rfl

theorem ptnCommand_fence {s : State} {p : Nat} (hp : fenceable (getPtn s p).state) :
    ptnCommand s p 4 = (modPtn (fencePtn s p 1) p fun x => { x with cmdResult := 0 }, odOK) := by
  have hc : cmdCheck s p 4 = 0 := by rcases hp with h | h | h <;> simp [cmdCheck_fence, h]
  simp only [ptnCommand, hc, runCmd_fence, if_true]

/-- What FENCE leaves of every partition (R732, R734): the writes that it overrides change results alone (R750). -/
theorem writeFence_acts {s : State} {w : OdSrc} {p : Nat} (hl : p < s.ptns.length)
    (hp : fenceable (getPtn s p).state) :
    (writeFence s w p).2 = odOK ∧ lifeOf (getPtn (writeFence s w p).1 p) = (.fenced, (getPtn s p).state, 1) ∧
      ∀ q, q ≠ p → lifeOf (getPtn (writeFence s w p).1 q) = lifeOf (getPtn s q) := by
  have hlost (l : List OdPend) (u : State) (q : Nat) : lifeOf (getPtn (l.foldl odLose u) q) = lifeOf (getPtn u q) := by
    induction l generalizing u with
    | nil => rfl
    | cons o l ih => exact (ih _).trans (odLose_life u o q)
  have hf := fencePtn_ptns 1 hp
  simp only [writeFence, ptnCommand_fence hp, bne_self_eq_false, Bool.false_eq_true, if_false, hlost, true_and]
  refine ⟨?_, fun q hq => ?_⟩
  · simp only [getPtn, modPtn, State.modPtns_ptns, State.modCtl_ptns, hf]
    rw [getD_modAt_same (by simpa), getD_modAt_same (by simpa), getD_modAt_same hl]
    rfl
  · simp only [getPtn, modPtn, State.modPtns_ptns, State.modCtl_ptns, hf]
    rw [getD_modAt_other hq, getD_modAt_other hq, getD_modAt_other hq]

theorem does_fence {w : OdSrc} {p : Nat} {s : State} (hs : s.shaped = true) (ht : odTakes s w (0x3000 + 16 * (p % 32)) 2 [4])
    (hp : fenceable (getPtn s (p % 32)).state) :
    Does (.ptnFence w p) s allParts fun t => odReplied t w 0 ∧ (getPtn t (p % 32)).state = .fenced ∧ (getPtn t (p % 32)).fenceCause = 1 ∧
      (getPtn t (p % 32)).before = (getPtn s (p % 32)).state ∧ ∀ q, q ≠ p % 32 → (getPtn t q).state = (getPtn s q).state := by
  have hq : p % 32 < 32 := Nat.mod_lt _ (by decide)
  obtain ⟨hr, hlife, hother⟩ := writeFence_acts (w := w) (ptns_length_of_shaped hs ▸ hq) hp
  have he : writeFence s w (p % 32) = ((writeFence s w (p % 32)).1, odOK) := Prod.ext rfl hr
  refine .of_within (congrArg Host.Outcome.next (odWriteCmd_fence hq ht he)) ⟨odDone_replied (by omega) (by decide) (by decide), ?_⟩
    (odDone_only (writeFence_only (.refl allParts s) (by decide)) (by decide))
  simp only [getPtn_of_ptns odDone_ptns]
  obtain ⟨hstate, hrest⟩ := Prod.mk.inj hlife
  obtain ⟨hbefore, hcause⟩ := Prod.mk.inj hrest
  exact ⟨hstate, hcause, hbefore, fun q h => congrArg Prod.fst (hother q h)⟩

theorem does_fence_refused {w : OdSrc} {p : Nat} {s : State} (hs : s.shaped = true) (ht : odTakes s w (0x3000 + 16 * (p % 32)) 2 [4])
    (hp : (getPtn s (p % 32)).state = .vacant ∨ (getPtn s (p % 32)).state = .fenced ∨ (getPtn s (p % 32)).state = .scrubbing) :
    Does (.ptnFence w p) s [.out, .regs, .ptns, .ctl, .mgt, .alm] fun t =>
      odReplied t w odSTATE ∧ getPtn t (p % 32) = { getPtn s (p % 32) with cmdResult := 1 } := by
  have hq : p % 32 < 32 := Nat.mod_lt _ (by decide)
  have hc : cmdCheck s (p % 32) 4 = 1 := by rcases hp with h | h | h <;> simp [cmdCheck_fence, h]
  have he : writeFence s w (p % 32) = (modPtn s (p % 32) fun x => { x with cmdResult := 1 }, odSTATE) := by
    simp [writeFence, ptnCommand, hc]
  refine .of_within (congrArg Host.Outcome.next (odWriteCmd_fence hq ht he)) ⟨odDone_replied (by omega) (by decide) (by decide), ?_⟩
    (odDone_only (modPtn_only (.refl _ s) (by decide)) (by decide))
  rw [getPtn_of_ptns odDone_ptns, getPtn_modPtn_same (ptns_length_of_shaped hs ▸ hq)]

/-! ### CONSTELLATIONS (R730) -/

theorem writeCons_ptns (s : State) (p : Nat) (data : List Byte) : (writeCons s p data).ptns = modAt s.ptns p fun x => { x with cons := namedCons data } := by
  unfold writeCons
  simp only
  split
  · rfl
  · exact (foldl_only (foldl_only (.refl [.cons, .work, .mem] (modPtn s p fun x => { x with cons := namedCons data }))
      fun _ _ h => joinCon_only h (by decide)) fun _ _ h => restIdle_only h (List.Subset.refl _)).only.keeps .ptns (by decide)

theorem does_constellationsWrite {w : OdSrc} {p : Nat} {data : List Byte} {s : State} (hs : s.shaped = true) (ht : odTakes s w (0x3000 + 16 * (p % 32)) 3 data) :
    Does (.constellationsWrite w p data) s allParts fun t => odReplied t w 0 ∧ getPtn t (p % 32) = { getPtn s (p % 32) with cons := namedCons data } := by
  have hq : p % 32 < 32 := Nat.mod_lt _ (by decide)
  obtain ⟨⟨-, hf⟩, hl, hw, hwhose⟩ := ptnEntry _ hq
  have hk : odKey (0x3000 + 16 * (p % 32)) 3 ≠ 0x901001 := odKey_ne_routes (by decide) (by omega)
  have hn : odWaits s (0x3000 + 16 * (p % 32)) 3 data = false := by simp [odWaits_of_find hf, hw, hk]
  have he : odEffect s w (0x3000 + 16 * (p % 32)) 3 data {} = (writeCons s (p % 32) data, odOK) := by simp [odEffect, hl, hwhose]
  refine .of_within (congrArg Host.Outcome.next (odWriteCmd_done ht hn he (by simp; omega) (by decide)))
    ⟨odDone_replied (by omega) (by decide) (by decide), ?_⟩
    (odDone_only (writeCons_only (.refl allParts s) (by decide)) (by decide))
  rw [getPtn_of_ptns odDone_ptns, getPtn, writeCons_ptns, getD_modAt_same (ptns_length_of_shaped hs ▸ hq)]
  rfl

/-! ### Plain entries (R25, R674, R882, R1002) -/

/-- The settings of 0x6030 take their value at once. -/
theorem odWriteCmd_plant {s : State} {w : OdSrc} {sub : Nat} {data : List Byte} {x : Ext} (h4 : 4 ≤ sub) (h8 : sub ≤ 8) (ht : odTakes s w 0x6030 sub data) :
    odWriteCmd s w 0x6030 sub data x = odDone s (odSet s 0x6030 sub (leNat data)) w 0x6030 sub data odOK := by
  have hf : (odFind 0x6030 sub).map (·.boundary) = some false :=
    (by decide +kernel : ∀ k ≤ 8, 4 ≤ k → (odFind 0x6030 k).map (·.boundary) = some false) sub h8 h4
  have hw : odWaits s 0x6030 sub data = false := by
    have hk : odKey 0x6030 sub ≠ 0x901001 := odKey_ne_routes (by omega) (by decide)
    simp [odWaits_of_find hf, hk, show odAt 0x6030 0x9200 = false from rfl, show odLife 0x6030 = false from rfl]
  have he : odEffect s w 0x6030 sub data x = (odSet s 0x6030 sub (leNat data), odOK) := by
    interval_cases sub <;> rfl
  exact odWriteCmd_done ht hw he (by decide) (by omega)

theorem does_plant_write {w : OdSrc} {sub : Nat} {data : List Byte} {s : State} (h4 : 4 ≤ sub) (h8 : sub ≤ 8) (ht : odTakes s w 0x6030 sub data) :
    Does (.odEntryWrite w 0x6030 sub data) s [.out, .regs, .ctl, .mgt, .alm] fun t =>
      odReplied t w 0 ∧ odGet t 0x6030 sub = leNat data ∧ (w.master = .pf → OdUnchanged [(0x6030, sub)] s t) := by
  refine .of_within (congrArg Host.Outcome.next (odWriteCmd_plant h4 h8 ht)) ⟨odDone_replied (by decide) (by omega) (by decide), ?_, fun hw => ?_⟩
    (odDone_only (odSet_only (.refl _ s) (by decide)) (by decide))
  · rw [odDone_odGet (odKey_ne (by omega) (by decide) (by decide)), odGet_odSet_same]
  · exact (odSet_unchanged s 0x6030 sub _).trans (.of_od (odDone_pf_od hw))

/-- The settings of 0x5000 wait for the boundary. -/
theorem does_time_write {w : OdSrc} {sub : Nat} {data : List Byte} {s : State} (h : sub = 1 ∨ sub = 2 ∨ 4 ≤ sub ∧ sub ≤ 9) (ht : odTakes s w 0x5000 sub data) :
    Does (.odEntryWrite w 0x5000 sub data) s [.ctl] fun t => odWaiting s t w 0x5000 sub data ∧ OdUnchanged [] s t := by
  have hf : (odFind 0x5000 sub).map (·.boundary) = some true :=
    (by decide +kernel : ∀ k ≤ 9, (k = 1 ∨ k = 2 ∨ 4 ≤ k ∧ k ≤ 9) → (odFind 0x5000 k).map (·.boundary) = some true) sub (by omega) h
  have hw : odWaits s 0x5000 sub data = true := by rw [odWaits_of_find hf]; rfl
  have hk : odKey 0x5000 sub ≠ 0x901001 := odKey_ne_routes (by omega) (by decide)
  have ha : odAccept s w 0x5000 sub data = (s, odOK) := by
    simp only [odAccept, if_neg hk, show odAt 0x5000 0x9200 = false from rfl, show odLife 0x5000 = false from rfl, Bool.false_and, Bool.false_eq_true, if_false]
  exact .of_odQueued rfl ht hw ha (.refl _ s) rfl (.of_od odQueued_od)

/-! ### The PF mailbox (R848) -/

/-- A request stands in the mailbox, and no write of the PF waits. -/
def pfAsks (s : State) : Prop :=
  mbxGo s .pf 3 = true ∧ (∀ o ∈ s.ctl.odPend, o.w.master ≠ .pf) ∧ (∀ o ∈ s.ctl.odStore, o.1.master ≠ .pf) ∧ odHears s { master := .pf } = true

section
variable {s : State} {r : Nat}

theorem pfAsks.none_waits (h : pfAsks s) :
    (s.ctl.odPend.any fun o => o.w.master == .pf) = false ∧ (s.ctl.odStore.any fun o => o.1.master == .pf) = false := by
  obtain ⟨-, hpend, hstore, -⟩ := h
  exact ⟨by simpa using hpend, by simpa using hstore⟩

theorem pfOd_read (h : pfAsks s) (hr : r = mbxRead s 0x2100 4) (h45 : bits r 45 19 = 0) (h72 : bits r 72 56 = 0) (hop : bits r 0 8 = 1) (x : Ext) :
    pfOd s 2 x = odReadCmd s { master := .pf } (bits r 8 16) (bits r 24 8) := by
  obtain ⟨hp, hs⟩ := h.none_waits
  obtain ⟨hgo, -, -, hh⟩ := h
  simp [pfOd, ← hr, hgo, hp, hs, hh, hop, h45, h72]

/-- A write of at most a word takes its bytes from the first data register. -/
theorem pfOd_write (h : pfAsks s) (hr : r = mbxRead s 0x2100 4) (h45 : bits r 45 19 = 0) (h72 : bits r 72 56 = 0) (hop : bits r 0 8 = 2)
    (hn1 : 1 ≤ bits r 32 13) (hn4 : bits r 32 13 ≤ 4) (x : Ext) : pfOd s 1 x =
      odWriteCmd s { master := .pf } (bits r 8 16) (bits r 24 8) ((leBytes 4 (getReg s 0x3000).toNat).take (bits r 32 13)) x := by
  obtain ⟨hp, hs⟩ := h.none_waits
  obtain ⟨hgo, -, -, hh⟩ := h
  have hn : (bits r 32 13 = 0 || 4096 < bits r 32 13) = false := by simp; omega
  have hcd : cdiv (bits r 32 13) 4 = 1 := Nat.div_eq_of_lt_le (by omega) (by omega)
  have hm : mbxRead s 0x3000 1 = (getReg s 0x3000).toNat := by simp [mbxRead, sumN]
  simp [pfOd, ← hr, hgo, hp, hs, hh, hop, h45, h72, hn, hcd, hm]

theorem pfOd_reserved (h : pfAsks s) (hr : r = mbxRead s 0x2100 4) {other : Nat} (ho : other = 1 ∨ other = 2) (hop : bits r 0 8 = 0 ∨ 3 ≤ bits r 0 8) (x : Ext) :
    pfOd s other x = odAnswer s { master := .pf } true (bits r 8 16) (bits r 24 8) odREQUEST [] := by
  obtain ⟨hp, hs⟩ := h.none_waits
  obtain ⟨hgo, -, -, hh⟩ := h
  have hne : bits r 0 8 ≠ other ∧ bits r 0 8 ≠ 1 ∧ bits r 0 8 ≠ 2 := by omega
  simp [pfOd, ← hr, hgo, hp, hs, hh, hne]

/-- No request, or one whose write still waits, is left as it is. -/
theorem pfOd_idle (h : mbxGo s .pf 3 = false ∨ (∃ o ∈ s.ctl.odPend, o.w.master = .pf) ∨ ∃ o ∈ s.ctl.odStore, o.1.master = .pf) (other : Nat) (x : Ext) :
    pfOd s other x = s := by
  rcases h with h | h | h
  · simp [pfOd, h]
  · have hp : (s.ctl.odPend.any fun o => o.w.master == .pf) = true := by simpa using h
    simp [pfOd, hp]
  · have hs : (s.ctl.odStore.any fun o => o.1.master == .pf) = true := by simpa using h
    simp [pfOd, hs]

/-- A reserved OP is answered REQUEST. -/
theorem does_pfOd_reserved {c : Instr} {other : Nat} {x : Ext} (he : exec c s = .next (pfOd s other x)) (ho : other = 1 ∨ other = 2) (h : pfAsks s)
    (hr : r = mbxRead s 0x2100 4) (hop : bits r 0 8 = 0 ∨ 3 ≤ bits r 0 8) : Does c s [.regs] fun t => odReplied t { master := .pf } odREQUEST := by
  have hi : bits r 8 16 < 65536 := Nat.mod_lt _ (by decide)
  have hs : bits r 24 8 < 256 := Nat.mod_lt _ (by decide)
  exact .of_within (he.trans (congrArg Host.Outcome.next (pfOd_reserved h hr ho hop x))) (odReplied_write s _ hi hs (by decide))
    (odAnswer_pf_only rfl _ _ _ _ _ (.refl _ s) (List.Subset.refl _))

/-- The values of 0x6030 are stored ones. -/
theorem odView_plant (s : State) (w : OdSrc) {sub : Nat} (h : sub < 256) : odView s w 0x6030 sub = none := by
  unfold odView
  simp only [show odLife 0x6030 = false from rfl, show odAt 0x6030 0x9140 = false from rfl, show odAt 0x6030 0x91A0 = false from rfl, Bool.false_and,
    Bool.false_eq_true, if_false, odKey]
  split
  · rfl
  · split
    any_goals omega
    rfl

theorem odRead_plant {w : OdSrc} {e : OdEntry} {sub : Nat} (h : sub < 256) (hv : odServed s 0x6030 = true) (hf : odFind 0x6030 sub = some e) (h0 : e.size ≠ 0)
    (hrc : e.rc = false) (hwo : e.access ≠ .wo) (hro : e.read ≤ roleOf s w) : odRead s w 0x6030 sub = (s, odOK, leBytes e.size (odGet s 0x6030 sub)) := by
  have hval : odValue s w e 0x6030 sub = leBytes e.size (odGet s 0x6030 sub) := by
    simp [odValue, odView_plant s w h, hwo, h0]
  simp only [odRead, hv, hf, hrc, hval, Nat.not_lt.mpr hro, beq_eq_false_iff_ne.mpr hwo, Bool.not_true, Bool.false_eq_true, if_false, odKey]
  split
  any_goals omega
  rfl

/-- A read of 0x6030 is answered with the stored value. -/
theorem does_pfOdRead {e : OdEntry} (h : pfAsks s) (hr : r = mbxRead s 0x2100 4) (h45 : bits r 45 19 = 0) (h72 : bits r 72 56 = 0) (hop : bits r 0 8 = 1)
    (hi : bits r 8 16 = 0x6030) (hv : odServed s 0x6030 = true) (hf : odFind 0x6030 (bits r 24 8) = some e) (h0 : e.size ≠ 0) (hrc : e.rc = false)
    (hwo : e.access ≠ .wo) (hro : roleOf s { master := .pf } ≥ e.read) : Does .pfOdRead s [.regs] fun t => odReplied t { master := .pf } 0 ∧
      (bits r 24 8 ≠ 0 → e.size ≤ 4 → getReg t 0x3000 = BitVec.ofNat 32 (odGet s 0x6030 (bits r 24 8) % 2 ^ (8 * e.size))) := by
  have hs : bits r 24 8 < 256 := Nat.mod_lt _ (by decide)
  have ⟨_, _, _, hh⟩ := h
  have hn : pfOd s 2 {} = odAnswer s { master := .pf } false 0x6030 (bits r 24 8) odOK (leBytes e.size (odGet s 0x6030 (bits r 24 8))) := by
    rw [pfOd_read h hr h45 h72 hop, hi]
    simp only [odReadCmd, hh, odRead_plant hs hv hf h0 hrc hwo hro, Bool.not_true, Bool.false_eq_true, if_false]
  refine .of_within (congrArg Host.Outcome.next hn) ⟨odReplied_read s _ _ _ (by decide), fun _ h4 => ?_⟩
    (odAnswer_pf_only rfl _ _ _ _ _ (.refl _ s) (List.Subset.refl _))
  rw [getReg_read_word s _ _ _ (List.ne_nil_of_length_pos (by rw [length_leBytes]; omega)) (by rw [length_leBytes]; exact h4), leNat_leBytes]

/-- A write of a setting of 0x6030 takes as many bytes of the first data register as the request says. -/
theorem does_pfOdWrite (h : pfAsks s) (hr : r = mbxRead s 0x2100 4) (h45 : bits r 45 19 = 0) (h72 : bits r 72 56 = 0) (hop : bits r 0 8 = 2)
    (hi : bits r 8 16 = 0x6030) (h4 : 4 ≤ bits r 24 8) (h8 : bits r 24 8 ≤ 8) (hn1 : 1 ≤ bits r 32 13) (hn4 : bits r 32 13 ≤ 4)
    (hc : odCheck s { master := .pf } 0x6030 (bits r 24 8) ((leBytes 4 (getReg s 0x3000).toNat).take (bits r 32 13)) = 0) (x : Ext) :
    Does (.pfOdWrite x) s [.regs, .ctl, .alm] fun t =>
      odReplied t { master := .pf } 0 ∧ odGet t 0x6030 (bits r 24 8) = (getReg s 0x3000).toNat % 2 ^ (8 * bits r 32 13) := by
  have ⟨_, _, _, hh⟩ := h
  have ht : odTakes s { master := .pf } 0x6030 (bits r 24 8) ((leBytes 4 (getReg s 0x3000).toNat).take (bits r 32 13)) := ⟨hh, hc⟩
  have hn : pfOd s 1 x = odWriteCmd s { master := .pf } 0x6030 (bits r 24 8) ((leBytes 4 (getReg s 0x3000).toNat).take (bits r 32 13)) x := by
    rw [pfOd_write h hr h45 h72 hop hn1 hn4, hi]
  refine .of_within (congrArg Host.Outcome.next (hn.trans (odWriteCmd_plant h4 h8 ht))) ⟨odDone_replied (by decide) (by omega) (by decide), ?_⟩
    (odDone_pf_only rfl (odSet_only (.refl _ s) (by decide)) (List.Subset.refl _))
  rw [odDone_odGet (odKey_ne (by omega) (by decide) (by decide)), odGet_odSet_same, take_leBytes hn4, leNat_leBytes]

end

end Sys2Proof.Machine

open Sys2Proof Sys2Proof.Machine

/-- Settles O53: each write is answered with what its checks, its effect or its acceptance leave, from the lemma of its entry; FENCE alone of the
commands acts at once, and a request in the PF mailbox is one of these writes or a read. -/
theorem entryWrites : Obligations.EntryWrites := by
  unfold Obligations.EntryWrites
  refine ⟨fun w p data imgs n s => does_tableSupply_taken, fun w p data r imgs s => does_tableSupply_refused, fun w data s => does_routeTableLoad,
    fun w p data s => does_windowTableWrite, fun w p s => does_command rfl (by decide), fun w p s => does_command rfl (by decide),
    fun w p s => does_command rfl (by decide), fun w p s => does_command rfl (by decide), fun w p s => does_command rfl (by decide),
    fun w p s => does_provision_refused, fun w p s => does_fence, fun w p s => does_fence_refused, fun w p data s => does_constellationsWrite,
    fun w sub data s => does_plant_write, fun w sub data s => does_time_write, ?_, ?_, ?_⟩
  · intro r e s hgo hr hpend hstore hh h45 h72
    have h : pfAsks s := ⟨hgo, hpend, hstore, hh⟩
    exact ⟨does_pfOdRead h hr h45 h72, does_pfOdWrite h hr h45 h72⟩
  · intro r x s hgo hr hpend hstore hh hop
    have h : pfAsks s := ⟨hgo, hpend, hstore, hh⟩
    exact ⟨does_pfOd_reserved rfl (.inr rfl) h hr hop, does_pfOd_reserved rfl (.inl rfl) h hr hop⟩
  · intro x s h
    exact ⟨.of_same (congrArg Host.Outcome.next (pfOd_idle h 2 {})) rfl, .of_same (congrArg Host.Outcome.next (pfOd_idle h 1 x)) rfl⟩
end

section
/-! PROOFS. The serving state by name: what is found after a change, what the operations on pages, moves and references leave of it, and the
answers to state messages (R223, R241, R253, R363, R364, R366, R383). -/

namespace Sys2Proof.Machine
open Sys2Proof

/-! ### What is found by its name -/

theorem findReq_of_reqs {s t : State} (h : t.serve.reqs = s.serve.reqs) (k : Nat) : findReq t k = findReq s k := by simp only [findReq, h]

theorem findMove_of_moves {s t : State} (h : t.serve.moves = s.serve.moves) (k : Nat) : findMove t k = findMove s k := by simp only [findMove, h]

theorem findReception_of_receptions {s t : State} (h : t.serve.receptions = s.serve.receptions) (p dev k ep : Nat) :
    findReception t p dev k ep = findReception s p dev k ep := by simp only [findReception, h]

theorem findReq_handle {s : State} {h : Nat} {r : Req} (hr : findReq s h = some r) : r.handle = h := by simpa using List.find?_some hr

theorem findMove_id {s : State} {id : Nat} {m : Move} (hm : findMove s id = some m) : m.id = id := by simpa using List.find?_some hm

theorem findReq_modReq {s : State} {h : Nat} {f : Req → Req} (hf : ∀ r, (f r).handle = r.handle) : findReq (modReq s h f) h = (findReq s h).map f :=
  find?_updIf_self (fun r hr => by rwa [hf r]) _

theorem findReq_modReq_of {s : State} {h : Nat} {f : Req → Req} {r : Req} (hr : findReq s h = some r) (hf : ∀ r, (f r).handle = r.handle) :
    findReq (modReq s h f) h = some (f r) := by rw [findReq_modReq hf, hr]; rfl

theorem findMove_modMove_of {s : State} {id : Nat} {f : Move → Move} {m : Move} (hm : findMove s id = some m) (hf : ∀ m, (f m).id = m.id) :
    findMove (modMove s id f) id = some (f m) := by
  have h : findMove (modMove s id f) id = (findMove s id).map f := find?_updIf_self (fun m hm => by rwa [hf m]) _
  rw [h, hm]; rfl

/-- A new move is found by its number where none had it. -/
theorem findMove_addMove {s : State} (hn : findMove s s.serve.nextMove = none) (m : Move) :
    findMove (addMove s m) s.serve.nextMove = some { m with id := s.serve.nextMove } := by
  have hn' : s.serve.moves.find? (·.id == s.serve.nextMove) = none := hn
  simp [findMove, addMove, List.find?_append, hn']

theorem mem_of_findPage {s : State} {p n : Nat} {g : Page} (hg : findPage s p n = some g) : g ∈ s.serve.pages ∧ g.ptn = p ∧ g.num = n :=
  ⟨List.mem_of_find?_eq_some hg, by simpa using List.find?_some hg⟩

theorem findPage_modPage {s : State} {p n : Nat} {f : Page → Page} (hf : ∀ g, (f g).ptn = g.ptn ∧ (f g).num = g.num) (q k : Nat) :
    findPage (modPage s p n f) q k = (findPage s q k).map fun g => if g.ptn == p && g.num == n then f g else g :=
  find?_updIf (fun g _ => by rw [(hf g).1, (hf g).2]) _

theorem findPage_modPage_other {s : State} {p n q k : Nat} {f : Page → Page} (hf : ∀ g, (f g).ptn = g.ptn ∧ (f g).num = g.num) (h : ¬(q = p ∧ k = n)) :
    findPage (modPage s p n f) q k = findPage s q k := by
  rw [findPage_modPage hf]
  cases hg : findPage s q k with
  | none => rfl
  | some g =>
    obtain ⟨-, hp, hk⟩ := mem_of_findPage hg
    simp [hp, hk, h]

/-! ### Releasing pages

What releases a page touches the tiers, the pages and the reference counts of tables. -/

/-- The serving state but its pages and tables. -/
def Serve.unpaged (w : Serve) : Serve := { w with pages := [], tables := [] }

/-- From `s` to `t` no part of the serving state but its pages and tables has changed. -/
def PagesOnly (s t : State) : Prop := t.serve.unpaged = s.serve.unpaged

namespace PagesOnly
variable {s t u : State}

theorem refl (s : State) : PagesOnly s s := rfl
theorem trans (h : PagesOnly s t) (k : PagesOnly t u) : PagesOnly s u := Eq.trans k h
theorem of_serve (h : t.serve = s.serve) : PagesOnly s t := congrArg Serve.unpaged h
theorem foldl {α : Type} {f : State → α → State} (h : ∀ s a, PagesOnly s (f s a)) (l : List α) (s : State) : PagesOnly s (l.foldl f s) := by
  induction l generalizing s with
  | nil => exact .refl s
  | cons a r ih => exact (h s a).trans (ih _)

theorem reqs (h : PagesOnly s t) : t.serve.reqs = s.serve.reqs := (congrArg Serve.reqs h : t.serve.unpaged.reqs = s.serve.unpaged.reqs)
theorem moves (h : PagesOnly s t) : t.serve.moves = s.serve.moves := (congrArg Serve.moves h : t.serve.unpaged.moves = s.serve.unpaged.moves)
theorem xfers (h : PagesOnly s t) : t.serve.xfers = s.serve.xfers := (congrArg Serve.xfers h : t.serve.unpaged.xfers = s.serve.unpaged.xfers)
theorem receptions (h : PagesOnly s t) : t.serve.receptions = s.serve.receptions := (congrArg Serve.receptions h : t.serve.unpaged.receptions = s.serve.unpaged.receptions)
end PagesOnly

theorem modPage_pagesOnly (s : State) (p n : Nat) (f : Page → Page) : PagesOnly s (modPage s p n f) := rfl
theorem tabRef_pagesOnly (s : State) (n : Nat) (up : Bool) : PagesOnly s (tabRef s n up) := rfl

theorem pageTabs_pagesOnly (s : State) (g : Page) (up : Bool) : PagesOnly s (pageTabs s g up) := by
  unfold pageTabs
  split
  · exact .refl s
  · split <;> exact .refl s

theorem pageTabs_pages (s : State) (g : Page) (up : Bool) : (pageTabs s g up).serve.pages = s.serve.pages := by
  unfold pageTabs
  split
  · rfl
  · split <;> rfl

theorem freePage_pagesOnly (s : State) (p n : Nat) : PagesOnly s (freePage s p n) := by
  unfold freePage
  split
  · exact .refl s
  · next g _ =>
    split
    · have h1 (c : Bool) (t : Nat) (u : State) : PagesOnly u (if c then freeTiles u p t else u) := by cases c <;> exact .refl u
      extract_lets s1 s2
      have h2 : PagesOnly s1 s2 := by
        simp only [s2]
        split
        · exact pageTabs_pagesOnly (freeTiles s1 p (farTile0 + g.farAddr)) g false
        · exact .refl s1
      exact PagesOnly.trans (t := s2) (PagesOnly.trans (t := s1) (h1 ..) h2) rfl
    · exact .refl s

theorem dropRef_pagesOnly (s : State) (p n : Nat) : PagesOnly s (dropRef s p n) := by
  unfold dropRef
  split
  · exact .refl s
  · next g _ =>
    split
    · extract_lets s1
      have h1 : PagesOnly s s1 := by simp only [s1]; split <;> exact .refl s
      exact (h1.trans (modPage_pagesOnly ..)).trans (freePage_pagesOnly ..)
    · exact .refl s

theorem dropSets_pagesOnly (s : State) (p : Nat) (sets : List (Nat × Nat × List Nat)) : PagesOnly s (dropSets s p sets) :=
  .foldl (fun s n => dropRef_pagesOnly s p n) _ s

theorem pinAll_pagesOnly (s : State) (r : Req) (up : Bool) : PagesOnly s (pinAll s r up) := by
  unfold pinAll
  extract_lets ns s1
  split
  · exact .refl s
  · exact PagesOnly.trans (t := s1) (.refl s) (.foldl (fun s n => freePage_pagesOnly s r.ptn n) _ _)

theorem endTransit_pagesOnly (s : State) (p n : Nat) (far : Bool) : PagesOnly s (endTransit s p n far) :=
  PagesOnly.trans (modPage_pagesOnly ..) (freePage_pagesOnly ..)

/-! ### The end of a move -/

/-- The serving state but what the end of a move may touch. -/
def Serve.unmoved (w : Serve) : Serve := { w with pages := [], tables := [], moves := [], xfers := [] }

/-- From `s` to `t` no part of the serving state but its pages, tables, moves and transfers has changed. -/
def MovesOnly (s t : State) : Prop := t.serve.unmoved = s.serve.unmoved

namespace MovesOnly
variable {s t u : State}

theorem refl (s : State) : MovesOnly s s := rfl
theorem trans (h : MovesOnly s t) (k : MovesOnly t u) : MovesOnly s u := Eq.trans k h
theorem of_pages (h : PagesOnly s t) : MovesOnly s t := (congrArg Serve.unmoved h : t.serve.unpaged.unmoved = s.serve.unpaged.unmoved)
theorem of_serve (h : t.serve = s.serve) : MovesOnly s t := congrArg Serve.unmoved h
theorem foldl {α : Type} {f : State → α → State} (h : ∀ s a, MovesOnly s (f s a)) (l : List α) (s : State) : MovesOnly s (l.foldl f s) := by
  induction l generalizing s with
  | nil => exact .refl s
  | cons a r ih => exact (h s a).trans (ih _)

theorem reqs (h : MovesOnly s t) : t.serve.reqs = s.serve.reqs := (congrArg Serve.reqs h : t.serve.unmoved.reqs = s.serve.unmoved.reqs)
theorem receptions (h : MovesOnly s t) : t.serve.receptions = s.serve.receptions := (congrArg Serve.receptions h : t.serve.unmoved.receptions = s.serve.unmoved.receptions)
end MovesOnly

theorem tabRefs_pagesOnly {α : Type} (f : α → Nat) (up : Bool) (l : List α) (s : State) : PagesOnly s (l.foldl (fun s x => tabRef s (f x) up) s) :=
  .foldl (fun s x => tabRef_pagesOnly s (f x) up) l s

theorem tabRefs_pages {α : Type} (f : α → Nat) (up : Bool) (l : List α) (s : State) :
    (l.foldl (fun s x => tabRef s (f x) up) s).serve.pages = s.serve.pages :=
  foldl_keep (fun s => s.serve.pages) (fun s x => tabRef s (f x) up) (fun _ _ => rfl) l s

theorem dropXfer_movesOnly (s : State) (x : Nat) : MovesOnly s (dropXfer s x) :=
  MovesOnly.trans (t := s.modServe fun w => { w with xfers := w.xfers.filter (·.id != x) }) (.refl s) (.of_pages (tabRefs_pagesOnly id false _ _))

theorem dropXfers_moves (l : List Nat) (s : State) : (l.foldl dropXfer s).serve.moves = s.serve.moves :=
  foldl_keep (fun s => s.serve.moves) dropXfer dropXfer_moves l s

theorem dropXfers_pages (l : List Nat) (s : State) : (l.foldl dropXfer s).serve.pages = s.serve.pages :=
  foldl_keep (fun s => s.serve.pages) dropXfer dropXfer_pages l s

/-- The transfers of a move and the references of its packed copies in flight are gone with it (R241, R300). -/
def moveTaken (s : State) (id : Nat) (m : Move) : State :=
  let sends := s.serve.xfers.filter fun x => match x.what with | .send _ _ i => i == id | _ => false
  m.flyTabs.foldl (fun s x => tabRef s x.2 false) ((sends.map (·.id)).foldl dropXfer (s.modServe fun w => { w with moves := w.moves.filter (·.id != id) }))

theorem endMove_of {s : State} {id : Nat} {m : Move} (hm : findMove s id = some m) :
    endMove s id = m.carries.foldl (fun s n => endTransit s m.ptn n (m.farPins.contains n)) (moveTaken s id m) := by
  simp only [endMove, hm]; rfl

theorem moveTaken_movesOnly (s : State) (id : Nat) (m : Move) : MovesOnly s (moveTaken s id m) := by
  unfold moveTaken
  extract_lets sends
  exact (MovesOnly.trans (t := s.modServe fun w => { w with moves := w.moves.filter (·.id != id) }) (.refl s)
    (.foldl dropXfer_movesOnly _ _)).trans (.of_pages (tabRefs_pagesOnly Prod.snd false _ _))

theorem moveTaken_moves (s : State) (id : Nat) (m : Move) : (moveTaken s id m).serve.moves = s.serve.moves.filter (·.id != id) := by
  unfold moveTaken
  extract_lets sends
  exact (tabRefs_pagesOnly Prod.snd false _ _).moves.trans (dropXfers_moves ..)

theorem moveTaken_pages (s : State) (id : Nat) (m : Move) : (moveTaken s id m).serve.pages = s.serve.pages := by
  unfold moveTaken
  extract_lets sends
  exact (tabRefs_pages Prod.snd false _ _).trans (dropXfers_pages ..)

theorem endMove_movesOnly (s : State) (id : Nat) : MovesOnly s (endMove s id) := by
  cases hm : findMove s id with
  | none => simp only [endMove, hm]; exact .refl s
  | some m =>
    rw [endMove_of hm]
    exact (moveTaken_movesOnly s id m).trans (.of_pages (.foldl (fun s n => endTransit_pagesOnly ..) _ _))

/-- A move that has ended is found no more. -/
theorem findMove_endMove (s : State) (id : Nat) : findMove (endMove s id) id = none := by
  cases hm : findMove s id with
  | none => simp only [endMove, hm]
  | some m =>
    have hk : (endMove s id).serve.moves = s.serve.moves.filter (·.id != id) := by
      rw [endMove_of hm]
      exact (PagesOnly.foldl (fun s n => endTransit_pagesOnly ..) _ _).moves.trans (moveTaken_moves s id m)
    simp [findMove, hk]

/-- A move that carries no page ends without a change of any page. -/
theorem endMove_pages {s : State} {id : Nat} {m : Move} (hm : findMove s id = some m) (hc : m.carries = []) :
    (endMove s id).serve.pages = s.serve.pages := by
  rw [endMove_of hm, hc]
  exact moveTaken_pages s id m

/-! ### Requests that change state or go -/

/-- The pins that a change of state takes or drops, and the sojourn that it ends (R254, R507). -/
def stateLeft (s : State) (r : Req) (st : RState) : State :=
  let s1 := if pinning st && !pinning r.state then pinAll s r true else if !pinning st && pinning r.state then pinAll s r false else s
  if r.state == .queued && st != .queued then leaveQueue s1 r else s1

theorem goState_of {s : State} {h : Nat} {r : Req} (hr : findReq s h = some r) (st : RState) :
    goState s h st = modReq (stateLeft s r st) h fun r => { r with state := st } := by
  simp only [goState, hr]
  rfl

theorem stateLeft_pagesOnly (s : State) (r : Req) (st : RState) : PagesOnly s (stateLeft s r st) := by
  unfold stateLeft
  extract_lets s1
  have h1 : PagesOnly s s1 := by
    simp only [s1]
    split
    · exact pinAll_pagesOnly ..
    · split
      · exact pinAll_pagesOnly ..
      · exact .refl s
  split
  · exact h1.trans (.of_serve (odRaise_serve ..))
  · exact h1

/-- A request goes to a state with all else that its record holds (R230). -/
theorem findReq_goState {s : State} {h : Nat} {r : Req} (hr : findReq s h = some r) (st : RState) : findReq (goState s h st) h = some { r with state := st } := by
  rw [goState_of hr]
  exact findReq_modReq_of (f := fun r => { r with state := st }) ((findReq_of_reqs (stateLeft_pagesOnly ..).reqs h).trans hr) fun _ => rfl

theorem goState_moves (s : State) (h : Nat) (st : RState) : (goState s h st).serve.moves = s.serve.moves := by
  cases hr : findReq s h with
  | none => simp only [goState, hr]
  | some r => rw [goState_of hr]; exact (stateLeft_pagesOnly s r st).moves

/-- The handle of a request that is freed is stale (R223). -/
theorem findReq_leaveSlot (s : State) (h : Nat) : findReq (leaveSlot s h) h = none := by
  unfold leaveSlot
  split
  · assumption
  · simp [findReq, dropReq]

theorem findReq_freeReq (s : State) (h : Nat) : findReq (freeReq s h) h = none := findReq_leaveSlot ..

/-! ### Waiting tasks go on without a change of any request -/

theorem taskRec_serve (s : State) (t : Task) (st d : Nat) : (taskRec s t st d).serve = s.serve :=
  (taskRec_only (.refl [.out, .regs, .tel] s) (List.Subset.refl _)).only.keeps .serve (by decide)

theorem closeTask_pagesOnly (s : State) (t : Task) (st d : Nat) : PagesOnly s (closeTask s t st d) := by
  have hd (u : State) : PagesOnly u (dropPacks u t) := tabRefs_pagesOnly id false _ u
  have hr : PagesOnly s (taskRec s t st d) := .of_serve (taskRec_serve ..)
  unfold closeTask
  exact PagesOnly.trans (t := dropPacks (taskRec s t st d) t) (hr.trans (hd _)) (.of_serve rfl)

theorem runReport_pagesOnly (s : State) (t : Task) : PagesOnly s (runReport s t) := by
  have hu : (unitsReported s t).serve = s.serve := (unitsReported_only (.refl [.out, .regs, .tel] s) (List.Subset.refl _)).only.keeps .serve (by decide)
  rw [runReport_eq]
  exact (PagesOnly.of_serve hu).trans (closeTask_pagesOnly ..)

theorem settleStep_pagesOnly {s u : State} (h : settleStep s = some u) : PagesOnly s u := by
  unfold settleStep at h
  simp only at h
  split at h
  · obtain rfl := Option.some.inj h
    split
    · exact .refl s
    · exact closeTask_pagesOnly ..
  · split at h
    · obtain rfl := Option.some.inj h
      split
      · exact .refl s
      · exact runReport_pagesOnly ..
    · obtain ⟨t, -, rfl⟩ := Option.map_eq_some_iff.mp h
      exact closeTask_pagesOnly ..

theorem settleN_pagesOnly (n : Nat) (s : State) : PagesOnly s (settleN n s) := by
  induction n generalizing s with
  | zero => exact .refl s
  | succ n ih =>
    unfold settleN
    split
    · next u hu => exact (settleStep_pagesOnly hu).trans (ih u)
    · exact .refl s

theorem settle_pagesOnly (s : State) : PagesOnly s (settle s) := settleN_pagesOnly ..

/-! ### References to holders (R383) -/

/-- The REF or RELEASE that is kept for a holder until it is answered. -/
def refKept (s : State) (r : Req) (release : Bool) (tag seq : Nat) (g : Group) : RefMsg :=
  { handle := r.handle, release := release, dev := g.holder, target := g.handle, sentAt := now s, tag := tag, seq := seq }

/-- The references of a list of holders, one behind the other in the sequence of their move (R364). -/
def refsKept (s : State) (r : Req) (release : Bool) (gs : List Group) (tag seq : Nat) : List RefMsg :=
  gs.mapIdx fun i g => refKept s r release tag (seq + i) g

theorem sendState_serve (s : State) (dev op : Nat) (m : StateMsg) : (sendState s dev op m).serve = s.serve := by
  unfold sendState
  split <;> rfl

theorem refMsg_serve (s : State) (r : Req) (release : Bool) (g : Group) (tag seq : Nat) :
    (refMsg s r release g tag seq).serve = { s.serve with refs := s.serve.refs ++ [refKept s r release tag seq g] } := sendState_serve ..

theorem now_refMsg (s : State) (r : Req) (release : Bool) (g : Group) (tag seq : Nat) : now (refMsg s r release g tag seq) = now s :=
  congrArg Mer.ns ((refMsg_only (.refl [.out, .serve] s) (List.Subset.refl _)).only.keeps .mer (by decide))

/-- Of the serving state, references to holders change the references alone. -/
theorem refAll_serve (s : State) (r : Req) (release : Bool) (gs : List Group) (tag seq : Nat) :
    (refAll s r release gs tag seq).serve = { s.serve with refs := s.serve.refs ++ refsKept s r release gs tag seq } := by
  suffices h : ∀ (l : List (Nat × Group)) (u : State), now u = now s →
      (l.foldl (fun s x => refMsg s r release x.2 tag (seq + x.1)) u).serve =
        { u.serve with refs := u.serve.refs ++ l.map fun x => refKept s r release tag (seq + x.1) x.2 } by
    rw [refAll, h _ s rfl]
    simp only [List.mapIdx_eq_zipIdx_map, List.map_map, refsKept]
    rfl
  intro l
  induction l with
  | nil => intro u _; simp
  | cons x l ih =>
    intro u hu
    have hk (y : Nat) (g : Group) : refKept u r release tag y g = refKept s r release tag y g := by simp only [refKept, hu]
    rw [List.foldl_cons, ih _ ((now_refMsg ..).trans hu), refMsg_serve, hk]
    simp

/-! ### State messages and their answers (R363, R364, R366) -/

theorem isolated_of_ptns {s t : State} (h : t.ptns = s.ptns) (p : Nat) : isolated t p = isolated s p := by simp only [isolated, getPtn, h]

theorem stateClass_of_ctl {s t : State} (h : t.ctl = s.ctl) (p op : Nat) : stateClass t p op = stateClass s p op := odGet_of_ctl h ..

/-- What a message looks like as it goes out (R364). -/
def stateOut (s : State) (dev op : Nat) (m : StateMsg) : Out := .state dev op (stateClass s m.srcPtn op) (stateHeader op m) { m with items := m.body.length }

theorem sendState_of_open {s : State} {m : StateMsg} (h : isolated s m.srcPtn = false) (dev op : Nat) : sendState s dev op m = emit s (stateOut s dev op m) := by
  simp [sendState, h, stateOut]

/-- A message sent where nothing else has left the block is the one answer. -/
theorem sentAnswer_sendState {s u : State} {m : StateMsg} (ho : u.out = s.out) (hc : u.ctl = s.ctl) (hp : u.ptns = s.ptns)
    (hi : isolated s m.srcPtn = false) (dev op : Nat) : sentAnswer s (sendState u dev op m) dev op m.status := by
  rw [sendState_of_open ((isolated_of_ptns hp _).trans hi), stateOut, stateClass_of_ctl hc]
  exact ⟨{ m with items := m.body.length }, congrArg (· ++ _) ho, rfl⟩

theorem sentAnswer_ackMsg {s u : State} {dev : Nat} {m : StateMsg} (ho : u.out = s.out) (hc : u.ctl = s.ctl) (hp : u.ptns = s.ptns)
    (hi : isolated s m.dstPtn = false) (op st src dst : Nat) (items : List Item) : sentAnswer s (ackMsg u dev m op st src dst items) dev 3 st :=
  sentAnswer_sendState (m := { srcPtn := m.dstPtn, dstPtn := m.srcPtn, srcHandle := src, dstHandle := dst, epoch := m.epoch, status := st, tag := m.tag, seq := m.seq, args := op, body := items })
    ho hc hp hi dev 3

theorem ackMsg_serve (s : State) (dev : Nat) (m : StateMsg) (op st src dst : Nat) (items : List Item) :
    (ackMsg s dev m op st src dst items).serve = s.serve := sendState_serve ..

section
variable {s : State} {dev : Nat} {m : StateMsg} {own : Bool}

theorem not_isolated_of_msgOk (h : msgOk s dev m own = true) : isolated s m.dstPtn = false := by
  simp only [msgOk, Bool.and_eq_true, Bool.not_eq_true'] at h
  obtain ⟨⟨⟨⟨-, hi⟩, -⟩, -⟩, -⟩ := h
  exact hi

theorem dstPtn_lt_of_msgOk (h : msgOk s dev m own = true) : m.dstPtn < 32 := by
  simp only [msgOk, Bool.and_eq_true, decide_eq_true_eq] at h
  exact h.1.2

theorem onMsg_ok (h : msgOk s dev m own = true) (act : State → State) : onMsg dev m s act own = act s := by simp [onMsg, h]

theorem onMsg_refused (h : msgOk s dev m own = false) (act : State → State) :
    onMsg dev m s act own = if m.dstPtn < 32 then countAccess s m.dstPtn else s := by simp [onMsg, h]

/-- A message that is not let in is counted, where its partition exists (R366). -/
theorem refused_only (s : State) (p : Nat) : Within [.ctl] s (if p < 32 then countAccess s p else s) := by
  split
  · exact countAccess_only (.refl ..) (List.Subset.refl _)
  · exact .refl ..

end

end Sys2Proof.Machine
end

section
/-! PROOFS. Obligation O21: move descriptors that do not act (R355, R356). -/

namespace Sys2Proof.Machine
open Sys2Proof

/-- What a move descriptor that a check refuses leaves: it is taken from its ring, an access beyond its partition is counted, and its completion
carries the status and the epoch of a request that the view may see (R259, R356). -/
def moveRefused (s : State) (v : View) (x : Nat) : State :=
  let s1 := ringTake s (subRing v 2)
  let st := mvStatus s1 v x
  let s2 := if st = stACCESS then (match v with | .vf q => if q = mvPtn x then s1 else countAccess s1 q | .pf => s1) else s1
  let ep := match v with | .vf q => if bits (mvReq x) 27 5 = q then epochOf s1 (mvReq x) else 0 | .pf => epochOf s1 (mvReq x)
  moveRec s2 { mvOf s1 v x with quiet := false } st (bits x 80 8) 0xFFFFFFFF ep

section
variable {s : State} {v : View} {desc : BitVec 512} {verb : Nat} {act : State → Move → Req → State}

theorem takeMove_closed (h : ringOpen s v (subRing v 2) = false) : takeMove s v desc verb act = s := by simp [takeMove, h]

/-- A descriptor that passes every check acts on its request, once it is taken from its ring (R355, R356). -/
theorem takeMove_acts {r : Req} (h : moveActs v desc verb s r) :
    takeMove s v desc verb act = act (ringTake s (subRing v 2)) (mvOf (ringTake s (subRing v 2)) v desc.toNat) r := by
  obtain ⟨ho, hv, hst, hr⟩ := h
  have hr' : findReq (ringTake s (subRing v 2)) (mvOf (ringTake s (subRing v 2)) v desc.toNat).handle = some r := by rw [← hr, findReq, ringTake_serve]; rfl
  simp only [takeMove, ho, hv, hst, hr', Bool.not_true, bne_self_eq_false, Bool.or_false, Bool.false_eq_true, if_false]

theorem takeMove_refused (ho : ringOpen s v (subRing v 2) = true) (hst : mvStatus (ringTake s (subRing v 2)) v desc.toNat ≠ 0) (hv : mvVerb desc.toNat = verb) :
    takeMove s v desc verb act = moveRefused s v desc.toNat := by
  simp only [takeMove, ho, hv, Bool.not_true, bne_self_eq_false, Bool.or_false, Bool.false_eq_true, if_false]
  split
  · next h _ => exact absurd h hst
  · simp only [if_neg hst]; rfl

end

theorem moveRec_store (s : State) (m : Move) (st peer peerHandle epoch : Nat) : (moveRec s m st peer peerHandle epoch).regs.store = s.regs.store := by
  unfold moveRec
  split
  · rfl
  · split
    · exact ringWrite_store ..
    · rfl

theorem moveRefused_only (s : State) (v : View) (x : Nat) : Within [.out, .regs, .ctl, .tel] s (moveRefused s v x) := by
  unfold moveRefused
  extract_lets s1 st s2 ep
  have h1 : Within [.out, .regs, .ctl, .tel] s s1 := ringTake_only (.refl ..) (by decide)
  have h2 : Within [.out, .regs, .ctl, .tel] s s2 := by
    simp only [s2]
    split
    · split
      · split
        · exact h1
        · exact countAccess_only h1 (by decide)
      · exact h1
    · exact h1
  exact moveRec_only h2 (by decide)

theorem moveRefused_store (s : State) (v : View) (x : Nat) : (moveRefused s v x).regs.store = s.regs.store := by
  unfold moveRefused
  extract_lets s1 st s2 ep
  have h2 : s2.regs = s1.regs := by
    simp only [s2]
    split
    · split
      · split
        · rfl
        · exact (countAccess_only (.refl [.ctl] s1) (List.Subset.refl _)).only.keeps .regs (by decide)
      · rfl
    · rfl
  rw [moveRec_store, h2]
  exact ringTake_store ..

theorem Does.of_moveRefused {c : Instr} {s : State} {v : View} {desc : BitVec 512} (he : exec c s = .next (moveRefused s v desc.toNat)) :
    Does c s [.out, .regs, .ctl, .tel] fun t => RegsUnchanged [] s t :=
  .of_within he (.of_store (moveRefused_store ..)) (moveRefused_only ..)

/-- PLAN's command reads the descriptors of verb 7 and of every reserved verb (R356). -/
theorem exec_movePlan_refused {s : State} {v : View} {desc : BitVec 512} (ho : ringOpen s v (subRing v 2) = true)
    (hst : mvStatus (ringTake s (subRing v 2)) v desc.toNat ≠ 0) (hv : ¬(2 ≤ mvVerb desc.toNat ∧ mvVerb desc.toNat ≤ 6)) :
    exec (.movePlan v desc) s = .next (moveRefused s v desc.toNat) := by
  rw [exec_movePlan, execMovePlan]
  split
  · next h7 => rw [takeMove_refused ho hst h7]
  · rw [if_neg (by simpa using hv), takeMove_refused ho hst rfl]

theorem exec_movePlan_closed {s : State} {v : View} {desc : BitVec 512} (h : ringOpen s v (subRing v 2) = false) : exec (.movePlan v desc) s = .next s := by
  simp only [exec_movePlan, execMovePlan, takeMove_closed h, ite_self]

end Sys2Proof.Machine

open Sys2Proof Sys2Proof.Machine

/-- Settles O21: a descriptor that is refused leaves its completion and no more, one before a closed ring leaves nothing. -/
theorem moveRefusals : Obligations.MoveRefusals := by
  unfold Obligations.MoveRefusals
  intro v desc s
  refine ⟨fun ho hst => ⟨fun hv => ?_, fun hv => ?_, fun hv => ?_, fun hv => ?_, fun hv => ?_, fun hv => ?_⟩, fun hc => ⟨?_, ?_, ?_, ?_, ?_, ?_⟩⟩
  · exact .of_moveRefused (congrArg Host.Outcome.next (takeMove_refused ho hst hv))
  · exact .of_moveRefused (congrArg Host.Outcome.next (takeMove_refused ho hst hv))
  · exact .of_moveRefused (congrArg Host.Outcome.next (takeMove_refused ho hst hv))
  · exact .of_moveRefused (congrArg Host.Outcome.next (takeMove_refused ho hst hv))
  · exact .of_moveRefused (congrArg Host.Outcome.next (takeMove_refused ho hst hv))
  · exact .of_moveRefused (exec_movePlan_refused ho hst hv)
  · exact .of_same (congrArg Host.Outcome.next (takeMove_closed hc)) rfl
  · exact .of_same (congrArg Host.Outcome.next (takeMove_closed hc)) rfl
  · exact .of_same (congrArg Host.Outcome.next (takeMove_closed hc)) rfl
  · exact .of_same (congrArg Host.Outcome.next (takeMove_closed hc)) rfl
  · exact .of_same (congrArg Host.Outcome.next (takeMove_closed hc)) rfl
  · exact .of_same (exec_movePlan_closed hc) rfl
end

section
/-! PROOFS. Transfers that wait for a mover, and the end of a move to another device (R360, R370). -/

namespace Sys2Proof.Machine
open Sys2Proof

/-- What a transfer is for: its work, the kind of its entry and its partition (R94, R360). -/
def Xfer.job (x : Xfer) : XferWhat × Nat × Nat := (x.what, x.kind, x.ptn)

/-- Transfers that wait, one for each element of a list; the rest of the serving state is as it was. -/
theorem foldl_addXfer {α : Type} (ptn kind : α → Nat) (tiles : State → α → Nat) (what : α → XferWhat) (l : List α) (s : State) :
    ∃ xs n, (l.foldl (fun s a => addXfer s (ptn a) (kind a) (tiles s a) (what a)) s).serve = { s.serve with xfers := s.serve.xfers ++ xs, nextXfer := n } ∧
      xs.map Xfer.job = l.map fun a => (what a, kind a, ptn a) := by
  induction l generalizing s with
  | nil => exact ⟨[], s.serve.nextXfer, by simp, rfl⟩
  | cons a l ih =>
    obtain ⟨xs, n, hs, hx⟩ := ih (addXfer s (ptn a) (kind a) (tiles s a) (what a))
    refine ⟨{ id := s.serve.nextXfer, ptn := ptn a, kind := kind a, tiles := tiles s a, what := what a, coding := needsCoding s (what a) } :: xs, n, hs.trans ?_, ?_⟩
    · simp [addXfer]
    · rw [List.map_cons, List.map_cons, hx, Xfer.job]

theorem exists_of_jobs {α : Type} {xs : List Xfer} {l : List α} {f : α → XferWhat × Nat × Nat} (h : xs.map Xfer.job = l.map f) {a : α} (ha : a ∈ l) :
    ∃ x ∈ xs, x.job = f a := by
  have hm : f a ∈ xs.map Xfer.job := h ▸ List.mem_map_of_mem ha
  exact List.mem_map.mp hm

/-- A move that has failed is found no more (R370). -/
theorem findMove_moveFail (s : State) (id st : Nat) : findMove (moveFail s id st) id = none := by
  unfold moveFail
  split
  · assumption
  · next m _ =>
    extract_lets s1 s2
    have hg : (goState (endMove s2 id) m.handle .parked).serve.moves = (endMove s2 id).serve.moves := goState_moves ..
    exact (findMove_of_moves (t := modReq _ _ _) hg id).trans (findMove_endMove s2 id)

/-- INSTALL is sent: the sends are counted, and nothing else of the serving state changes (R370). -/
theorem sendInstall_of {s : State} {id : Nat} {m : Move} {r : Req} (hm : findMove s id = some m) (hr : findReq s m.handle = some r) :
    sendInstall s id = modMove (sendState s (if m.target = 1 then m.store else m.dest) 1 (installMsg s m r)) id
      fun m => { m with sends := m.sends + 1, sentAt := now s, seq := m.seq + 1 } := by simp only [sendInstall, hm, hr]

theorem mem_updIf_self {α : Type} [DecidableEq α] {x : α} {l : List α} {f : α → α} (h : x ∈ l) : f x ∈ updIf (· == x) f l :=
  List.mem_map.mpr ⟨x, h, by simp⟩

theorem odCount_unchanged {l : List (Nat × Nat)} {idx sub : Nat} (h : (idx, sub) ∈ l) (s : State) (n : Nat) : OdUnchanged l s (odCount s idx sub n) :=
  fun key hk => odSet_unchanged s idx sub _ key fun hm => hk (by
    rw [List.map_singleton, List.mem_singleton] at hm
    exact hm ▸ List.mem_map_of_mem (f := fun e : Nat × Nat => odKey e.1 e.2) h)

end Sys2Proof.Machine
end

section
/-! PROOFS. Obligation O25: timers and answers on the device that sends a request (R363, R368, R370, R372, R377, R383, R386). -/

namespace Sys2Proof.Machine
open Sys2Proof

/-- The move of a request whose INSTALL is out. -/
abbrev installing (h : Nat) (m : Move) : Bool := m.handle == h && m.verb ≤ 3 && m.sends != 0

theorem does_installResend {s : State} {h : Nat} {m : Move} {r : Req} (hf : s.serve.moves.find? (installing h) = some m)
    (hm : findMove s m.id = some m) (hr : findReq s m.handle = some r) (hn : m.sends < 4) : Does (.installResend h) s [.out, .serve] fun t =>
      (findMove t m.id).map (fun x => (x.sends, x.sentAt)) = some (m.sends + 1, now s) ∧ t.serve.reqs = s.serve.reqs ∧ t.serve.pages = s.serve.pages := by
  have he : exec (.installResend h) s = .next (sendInstall s m.id) := by simp only [exec_installResend, execInstallResend, hf, Nat.not_le.mpr hn, if_false]
  refine .of_within he ⟨?_, ?_, ?_⟩ (sendInstall_only (.refl ..) (List.Subset.refl _))
  · rw [sendInstall_of hm hr, findMove_modMove_of (f := fun m => { m with sends := m.sends + 1, sentAt := now s, seq := m.seq + 1 })
      ((findMove_of_moves (congrArg Serve.moves (sendState_serve ..)) _).trans hm) fun _ => rfl]
    rfl
  · rw [sendInstall_of hm hr]
    simp only [modMove, State.modServe_serve, sendState_serve]
  · rw [sendInstall_of hm hr]
    simp only [modMove, State.modServe_serve, sendState_serve]

theorem does_installResend_last {s : State} {h : Nat} {m : Move} (hf : s.serve.moves.find? (installing h) = some m) (hn : 4 ≤ m.sends) :
    Does (.installResend h) s [.out, .regs, .mem, .serve, .ctl, .tel] fun t => findMove t m.id = none := by
  have he : exec (.installResend h) s = .next (moveFail s m.id stTIMEOUT) := by simp only [exec_installResend, execInstallResend, hf, hn, if_true]
  exact .of_within he (findMove_moveFail ..) (moveFail_only (.refl ..) (List.Subset.refl _))

/-- The pages of a move that wait for no transfer get one (R377). -/
def sendsAgain (s : State) (m : Move) : State :=
  (m.todo.filter fun n => !(s.serve.xfers.any fun x => x.what == .send m.ptn n m.id)).foldl
    (fun u n => addXfer u m.ptn 1 (((findPage u m.ptn n).map sendTiles).getD 0) (.send m.ptn n m.id)) (modMove s m.id fun m => { m with busyAt := none })

theorem does_pagesBusyRetry {s : State} {h : Nat} {m : Move} (hf : s.serve.moves.find? (fun m => m.handle == h && m.busyAt.isSome) = some m) :
    Does (.pagesBusyRetry h) s [.serve] fun t => (∀ n ∈ m.todo, ∃ x ∈ t.serve.xfers, x.what = .send m.ptn n m.id) ∧
      (∀ y ∈ t.serve.moves, y.id = m.id → y.busyAt = none) ∧ t.serve.pages = s.serve.pages := by
  have he : exec (.pagesBusyRetry h) s = .next (sendsAgain s m) := by simp only [exec_pagesBusyRetry, execPagesBusyRetry, hf]; rfl
  refine .of_only he (execPagesBusyRetry_only (.refl ..) (List.Subset.refl _)) ?_
  obtain ⟨xs, k, hs, hx⟩ := foldl_addXfer (fun _ => m.ptn) (fun _ => 1) (fun u n => ((findPage u m.ptn n).map sendTiles).getD 0) (fun n => .send m.ptn n m.id)
    (m.todo.filter fun n => !(s.serve.xfers.any fun x => x.what == .send m.ptn n m.id)) (modMove s m.id fun m => { m with busyAt := none })
  rw [sendsAgain, hs]
  refine ⟨fun n hn => ?_, fun y hy hid => ?_, rfl⟩
  · by_cases ha : (s.serve.xfers.any fun x => x.what == .send m.ptn n m.id) = true
    · obtain ⟨x, hx, hw⟩ := List.any_eq_true.mp ha
      exact ⟨x, List.mem_append_left _ hx, eq_of_beq hw⟩
    · obtain ⟨x, hm, hj⟩ := exists_of_jobs hx (List.mem_filter.mpr ⟨hn, by simpa using ha⟩)
      exact ⟨x, List.mem_append_right _ hm, congrArg Prod.fst hj⟩
  · obtain ⟨z, -, rfl⟩ := List.mem_map.mp hy
    by_cases hz : (z.id == m.id) = true
    · simp only [hz, if_true]
    · simp only [hz] at hid
      exact absurd (beq_iff_eq.mpr hid) hz

/-- The record of a committed install is over: it goes, or stands for its RELEASEs alone (R372, R386). -/
def recordExpired (s : State) (c : CommitRec) : State :=
  s.modServe fun w => { w with commits := if c.release.isEmpty then w.commits.filter (· != c) else updIf (· == c) (fun c => { c with past := true }) w.commits }

theorem does_commitRecordExpiry {s : State} {dev h : Nat} {c : CommitRec} (hf : s.serve.commits.find? (fun c => c.dev == dev && c.handle == h) = some c) :
    Does (.commitRecordExpiry dev h) s [.serve] fun t => t.serve.reqs = s.serve.reqs ∧ t.serve.refs = s.serve.refs ∧
      (c.release = [] → t.serve.commits = s.serve.commits.filter (· != c)) ∧
      (c.release ≠ [] → { c with past := true } ∈ t.serve.commits ∧ t.serve.commits.length = s.serve.commits.length) := by
  have he : exec (.commitRecordExpiry dev h) s = .next (recordExpired s c) := by simp only [exec_commitRecordExpiry, execCommitRecordExpiry, hf, recordExpired]
  refine .of_only he (execCommitRecordExpiry_only (.refl ..) (List.Subset.refl _)) ⟨rfl, rfl, fun h0 => ?_, fun h0 => ?_⟩
  · simp [recordExpired, h0]
  · have hn : c.release.isEmpty = false := by simpa using h0
    simp only [recordExpired, State.modServe_serve, hn, Bool.false_eq_true, if_false]
    exact ⟨mem_updIf_self (f := fun c => { c with past := true }) (List.mem_of_find?_eq_some hf), List.length_map ..⟩

/-- Each holder whose reference is released has a RELEASE that waits for its answer. -/
theorem exists_refsKept {s : State} {r : Req} {gs : List Group} {g : Group} (hg : g ∈ gs) (release : Bool) (tag seq : Nat) :
    ∃ f ∈ refsKept s r release gs tag seq, f.release = release ∧ f.dev = g.holder ∧ f.target = g.handle := by
  obtain ⟨i, hi, rfl⟩ := List.getElem_of_mem hg
  exact ⟨refKept s r release tag (seq + i) gs[i], List.mem_mapIdx.mpr ⟨i, hi, rfl⟩, rfl, rfl, rfl⟩

/-- The word that DEST has its references: those of the owner are released (R386). -/
theorem does_moveAck_commit {s : State} {dev : Nat} {m : StateMsg} {c : CommitRec} (hok : msgOk s dev m false = true) (ha : m.args % 256 = 4)
    (hf : s.serve.commits.find? (fun c => c.dev == dev && c.handle == m.dstHandle && c.old == m.srcHandle) = some c) :
    Does (.msgMoveAck dev m) s [.out, .serve] fun t => t.serve.reqs = s.serve.reqs ∧ t.serve.refs.length = s.serve.refs.length + c.release.length ∧
      (∀ g ∈ c.release, ∃ f ∈ t.serve.refs, f.release = true ∧ f.dev = g.holder ∧ f.target = g.handle) ∧
      (c.past = true → c ∉ t.serve.commits) ∧ (c.past = false → { c with release := [] } ∈ t.serve.commits) := by
  have he : exec (.msgMoveAck dev m) s = .next (releaseMoved s c) := by
    simp [execMsgMoveAck, ha, onMsg_ok hok, hf]
  refine .of_within he ?_ (refAll_only (modServe_only (.refl ..) (by decide)) (List.Subset.refl _))
  rw [releaseMoved, refAll_serve]
  refine ⟨rfl, ?_, fun g hg => ?_, fun hp => ?_, fun hp => ?_⟩
  · simp [refsKept]
  · obtain ⟨f, hm, h⟩ := exists_refsKept hg true c.tag 0
    exact ⟨f, List.mem_append_right _ hm, h⟩
  · simp [hp]
  · rw [State.modServe_serve, if_neg (by simp [hp])]
    exact mem_updIf_self (f := fun c => { c with release := [] }) (List.mem_of_find?_eq_some hf)

/-- The answer to a REF or RELEASE of a request that is gone ends it (R383). -/
theorem does_moveAck_ref {s : State} {dev i : Nat} {m : StateMsg} (hok : msgOk s dev m true = true) (ha : m.args % 256 = 6 ∨ m.args % 256 = 7)
    (hr : findReq s m.dstHandle = none)
    (hf : (s.serve.refs.findIdx? fun f => f.handle == m.dstHandle && f.dev == dev && f.target == m.srcHandle && f.release == (m.args % 256 == 7)) = some i) :
    Does (.msgMoveAck dev m) s [.serve] fun t => t.serve.refs = s.serve.refs.eraseIdx i ∧ t.serve.reqs = s.serve.reqs := by
  have hown : (m.args % 256 != 1 && m.args % 256 != 4) = true := by obtain ha | ha := ha <;> rw [ha] <;> rfl
  have hop : (m.args % 256 != 6 && m.args % 256 != 7) = false := by obtain ha | ha := ha <;> rw [ha] <;> rfl
  have he : exec (.msgMoveAck dev m) s = .next (s.modServe fun w => { w with refs := w.refs.eraseIdx i }) := by
    rw [exec_msgMoveAck, execMsgMoveAck, hown, onMsg_ok hok]
    split
    · next h1 => omega
    · next h2 => omega
    · next h4 => omega
    · simp only [hop, State.modServe, hf, Bool.false_eq_true, if_false]
      rw [show findReq { s with serve := { s.serve with refs := s.serve.refs.eraseIdx i } } m.dstHandle = none from hr]
  exact .of_within he ⟨rfl, rfl⟩ (modServe_only (.refl ..) (List.Subset.refl _))

theorem exec_moveAck_pages_unknown {s : State} {dev : Nat} {m : StateMsg} (hok : msgOk s dev m true = true) (ha : m.args % 256 = 2)
    (hn : ∀ x ∈ s.serve.moves, x.handle ≠ m.dstHandle) : exec (.msgMoveAck dev m) s = .next s := by
  have hf : (s.serve.moves.find? fun x => x.handle == m.dstHandle && (x.verb ≤ 3 || x.verb = 8) && x.epoch == m.epoch &&
      (if x.target = 1 then x.store else x.dest) == dev) = none := List.find?_eq_none.mpr fun x hx => by simp [hn x hx]
  simp [execMsgMoveAck, ha, onMsg_ok hok, hf]

/-- A REF or RELEASE that has no answer goes out again (R383). -/
def refAgain (s : State) (f : RefMsg) (h dev target : Nat) : State :=
  sendState (s.modServe fun w => { w with refs := updIf (· == f) (fun f => { f with sentAt := now s }) w.refs }) dev (if f.release then 7 else 6)
    { srcPtn := bits h 27 5, dstPtn := bits target 27 5, srcHandle := h, dstHandle := target, epoch := epochOf s h, tag := f.tag, seq := f.seq }

theorem does_refResend {s : State} {h dev target : Nat} {f : RefMsg}
    (hf : s.serve.refs.find? (fun f => f.handle == h && f.dev == dev && f.target == target) = some f) (hi : isolated s (bits h 27 5) = false) :
    Does (.refResend h dev target) s [.out, .serve] fun t => sentAnswer s t dev (if f.release then 7 else 6) stOK ∧
      t.serve.refs.length = s.serve.refs.length ∧ { f with sentAt := now s } ∈ t.serve.refs := by
  have he : exec (.refResend h dev target) s = .next (refAgain s f h dev target) := by simp only [exec_refResend, execRefResend, hf, refAgain]
  refine .of_only he (execRefResend_only (.refl ..) (List.Subset.refl _)) ⟨sentAnswer_sendState rfl rfl rfl hi .., ?_⟩
  rw [refAgain, sendState_serve]
  exact ⟨List.length_map .., mem_updIf_self (f := fun f => { f with sentAt := now s }) (List.mem_of_find?_eq_some hf)⟩

end Sys2Proof.Machine

open Sys2Proof Sys2Proof.Machine

/-- Settles O25: each timer and each answer acts on the one move, record or reference that it names. -/
theorem moveTimers : Obligations.MoveTimers := by
  unfold Obligations.MoveTimers
  exact ⟨fun h m r s hf hm hr hn => does_installResend hf hm hr hn, fun h m s hf hn => does_installResend_last hf hn, fun h m s hf => does_pagesBusyRetry hf,
    fun dev h c s hf => does_commitRecordExpiry hf, fun dev m c s hok ha hf => does_moveAck_commit hok ha hf,
    fun dev m i s hok ha hr hf => does_moveAck_ref hok ha hr hf, fun dev m s hok ha hn => .of_same (exec_moveAck_pages_unknown hok ha hn) rfl,
    fun h dev target f s hf hi => does_refResend hf hi⟩
end

section
/-! PROOFS. Obligation O27: partials, query timers, lost Far channels and lost Near stacks (R399, R400, R446, R449, R783). -/

namespace Sys2Proof.Machine
open Sys2Proof

/-! ### Partials -/

/-- A query that waits for a partial of a message: of the request, the step and the epoch that it names, sent to the device it came from (R399). -/
abbrev asked (dev : Nat) (m : StateMsg) (q : Query) : Bool :=
  q.handle == m.dstHandle && q.qid == m.qid && q.epoch == m.epoch && q.group.holder == dev && q.partial_.isNone

/-- The query that a partial answers: the one of its group. -/
abbrev answeredBy (dev : Nat) (m : StateMsg) (b : List Byte) (q : Query) : Bool :=
  asked dev m q && q.group.first == leAt b 4 4 && q.group.log2 == leAt b 2 1 % 32

/-- The queries that a partial answers hold it. -/
def partialHeld (s : State) (dev : Nat) (m : StateMsg) (b : List Byte) : State :=
  s.modServe fun w => { w with queries := updIf (answeredBy dev m b) (fun q => { q with partial_ := some b }) w.queries }

/-- A partial is taken: the queries hold it, and so does the partial buffer where the request has one. -/
def partialTaken (s : State) (dev : Nat) (m : StateMsg) (b : List Byte) : State :=
  match s.serve.queries.find? (answeredBy dev m b), findReq s m.dstHandle, (findReq s m.dstHandle).bind fun r => modelOf s r.model with
  | some q, some r, some md =>
    if r.partialBuf = 0 then partialHeld s dev m b
    else tierWrite (partialHeld s dev m b) (bufferAddr s r md q.group) (b.take (partialSlot s r md))
  | _, _, _ => partialHeld s dev m b

theorem partialTaken_cases (s : State) (dev : Nat) (m : StateMsg) (b : List Byte) :
    partialTaken s dev m b = partialHeld s dev m b ∨ ∃ a bs, partialTaken s dev m b = tierWrite (partialHeld s dev m b) a bs := by
  unfold partialTaken
  split
  · split
    · exact .inl rfl
    · exact .inr ⟨_, _, rfl⟩
  · exact .inl rfl

theorem partialTaken_serve (s : State) (dev : Nat) (m : StateMsg) (b : List Byte) : (partialTaken s dev m b).serve = (partialHeld s dev m b).serve := by
  obtain h | ⟨a, bs, h⟩ := partialTaken_cases s dev m b
  · rw [h]
  · rw [h]; exact (tierWrite_only (.refl [.mem] _) (List.Subset.refl _)).only.keeps .serve (by decide)

theorem partialTaken_only (s : State) (dev : Nat) (m : StateMsg) (b : List Byte) : Within [.mem, .serve] s (partialTaken s dev m b) := by
  have h0 : Within [.mem, .serve] s (partialHeld s dev m b) := modServe_only (.refl ..) (by decide)
  obtain h | ⟨a, bs, h⟩ := partialTaken_cases s dev m b
  · rw [h]; exact h0
  · rw [h]; exact tierWrite_only h0 (by decide)

section
variable {s : State} {dev : Nat} {m : StateMsg} {b : List Byte} {q : Query} {r : Req}

theorem exec_msgPartial_ok (hok : msgOk s dev m true = true) (hst : m.status = stOK) (hb : m.body.head? = some (.raw b)) :
    exec (.msgPartial dev m) s = .next (partialTaken s dev m b) := by
  simp only [exec_msgPartial, execMsgPartial, onMsg_ok hok, hst, hb, if_true]
  rfl

/-- A partial fills the queries that it answers, and no other. -/
theorem does_msgPartial_ok (hok : msgOk s dev m true = true) (hst : m.status = stOK) (hb : m.body.head? = some (.raw b)) :
    Does (.msgPartial dev m) s [.mem, .serve] fun t => t.serve.reqs = s.serve.reqs ∧ t.serve.queries.length = s.serve.queries.length ∧
      ∀ (i : Nat) (q : Query), s.serve.queries[i]? = some q →
        t.serve.queries[i]? = some (if answeredBy dev m b q then { q with partial_ := some b } else q) := by
  refine .of_within (exec_msgPartial_ok hok hst hb) ?_ (partialTaken_only ..)
  rw [partialTaken_serve]
  exact ⟨rfl, List.length_map .., fun i q hq => by simp [partialHeld, updIf, hq]⟩

/-- The partial stands in the slot of its group. -/
theorem does_msgPartial_buffer {md : Model} (hok : msgOk s dev m true = true) (hst : m.status = stOK) (hb : m.body.head? = some (.raw b))
    (hr : findReq s m.dstHandle = some r) (hm : modelOf s r.model = some md) (hp : r.partialBuf ≠ 0)
    (hq : s.serve.queries.find? (answeredBy dev m b) = some q) : Does (.msgPartial dev m) s [.mem, .serve] fun t =>
      tierRead t (bufferAddr s r md q.group) (b.take (partialSlot s r md)).length = b.take (partialSlot s r md) := by
  have ht : partialTaken s dev m b = tierWrite (partialHeld s dev m b) (bufferAddr s r md q.group) (b.take (partialSlot s r md)) := by
    simp only [partialTaken, hq, hr, hm, hp, Option.bind_some, if_false]
  refine .of_within (exec_msgPartial_ok hok hst hb) ?_ (partialTaken_only ..)
  rw [ht]
  exact tierRead_of_put (s := partialHeld s dev m b) (tierWrite_bytes ..)

/-- A status that names no lost group waits for the resend (R400). -/
theorem exec_msgPartial_waits (hok : msgOk s dev m true = true) (h0 : m.status ≠ stOK) (h1 : cleanStatus m.status ≠ stEPOCH) (h2 : cleanStatus m.status ≠ stACCESS)
    (h3 : cleanStatus m.status ≠ stFORMAT) : exec (.msgPartial dev m) s = .next s := by
  simp only [exec_msgPartial, execMsgPartial, onMsg_ok hok, if_neg h0, bne_iff_ne.mpr h1, bne_iff_ne.mpr h2, bne_iff_ne.mpr h3, Bool.and_self, if_true]

/-! ### Groups that cannot be reached -/

/-- A request that is HELD: no query of it is outstanding (R400). -/
def asksNoMore (s : State) (h : Nat) : State :=
  (modReq s h fun r => { r with held := true, phase := 0 }).modServe fun w => { w with queries := w.queries.filter (·.handle != h) }

theorem groupLost_serve {h : Nat} (hr : findReq s h = some r) (q : Query) (st : Nat) : (groupLost s h q st).serve = (asksNoMore s h).serve := by
  simp only [groupLost, hr, raiseBoth_serve, asksNoMore, modReq, State.modServe_serve, ringWrite_serve]

/-- The request of a group that is lost is HELD, and asks nothing more (R400). -/
theorem groupLost_held {h : Nat} (hr : findReq s h = some r) (q : Query) (st : Nat) : (findReq (groupLost s h q st) h).map (·.held) = some true ∧
    ∀ x ∈ (groupLost s h q st).serve.queries, x.handle ≠ h := by
  have hs := groupLost_serve hr q st
  have hh : findReq (asksNoMore s h) h = some { r with held := true, phase := 0 } :=
    findReq_modReq_of (s := s) (f := fun r => { r with held := true, phase := 0 }) hr fun _ => rfl
  rw [findReq_of_reqs (congrArg Serve.reqs hs), hh, hs]
  exact ⟨rfl, fun x hx => by simpa using (List.mem_filter.mp hx).2⟩

theorem does_msgPartial_lost (hok : msgOk s dev m true = true) (hst : m.status = stEPOCH ∨ m.status = stACCESS ∨ m.status = stFORMAT)
    (hr : findReq s m.dstHandle = some r) (hq : s.serve.queries.find? (fun q => asked dev m q && q.group.handle == m.srcHandle) = some q) :
    Does (.msgPartial dev m) s [.out, .regs, .serve, .ctl, .mgt, .alm, .tel] fun t =>
      (findReq t m.dstHandle).map (·.held) = some true ∧ ∀ x ∈ t.serve.queries, x.handle ≠ m.dstHandle := by
  have he : exec (.msgPartial dev m) s = .next (groupLost s m.dstHandle q (cleanStatus m.status)) := by
    have hne : m.status ≠ stOK := by obtain h | h | h := hst <;> rw [h] <;> decide
    have hc : (cleanStatus m.status != stEPOCH && cleanStatus m.status != stACCESS && cleanStatus m.status != stFORMAT) = false := by
      obtain h | h | h := hst <;> rw [h] <;> rfl
    simp only [exec_msgPartial, execMsgPartial, onMsg_ok hok, if_neg hne, hc, hq, Bool.false_eq_true, if_false]
  exact .of_within he (groupLost_held hr q _) (groupLost_only (.refl ..) (List.Subset.refl _))

/-! ### Query timers -/

/-- The queries of a request and a step for a group, which wait for their partial. -/
abbrev unanswered (h qid first log : Nat) (q : Query) : Bool :=
  q.handle == h && q.qid == qid && q.group.first == first && q.group.log2 == log && q.partial_.isNone

/-- A group is asked again: the QUERY waits for a mover (R400). -/
def askedAgain (s : State) (h qid first log : Nat) (q : Query) : State :=
  addXfer (s.modServe fun w => { w with queries := updIf (unanswered h qid first log) (fun q => { q with sends := q.sends + 1, sentAt := now s }) w.queries })
    (bits h 27 5) 1 (cdiv (64 + match q.msg.body with | [_, .raw b] => b.length | _ => 0) 4096) (.message q.group.holder 0x10 q.msg)

variable {h qid first log : Nat}

theorem does_queryResend (hq : s.serve.queries.find? (unanswered h qid first log) = some q) (hn : q.sends < 4) :
    Does (.queryResend h qid first log) s [.serve] fun t =>
      { q with sends := q.sends + 1, sentAt := now s } ∈ t.serve.queries ∧ ∃ x ∈ t.serve.xfers, x.what = .message q.group.holder 0x10 q.msg := by
  have he : exec (.queryResend h qid first log) s = .next (askedAgain s h qid first log q) := by
    simp only [exec_queryResend, execQueryResend, hq, Nat.not_le.mpr hn, if_false]
    rfl
  refine .of_within he ⟨?_, _, List.mem_append_right _ (List.mem_singleton_self _), rfl⟩ (addXfer_only (modServe_only (.refl ..) (by decide)) (List.Subset.refl _))
  have hit := List.find?_some hq
  exact List.mem_map.mpr ⟨q, List.mem_of_find?_eq_some hq, if_pos hit⟩

theorem does_queryResend_last (hq : s.serve.queries.find? (unanswered h qid first log) = some q) (hn : 4 ≤ q.sends) (hr : findReq s h = some r) :
    Does (.queryResend h qid first log) s [.out, .regs, .serve, .ctl, .mgt, .alm, .tel] fun t =>
      (findReq t h).map (·.held) = some true ∧ ∀ x ∈ t.serve.queries, x.handle ≠ h := by
  have he : exec (.queryResend h qid first log) s = .next (groupLost s h q stTIMEOUT) := by
    simp only [exec_queryResend, execQueryResend, hq, hn, if_true]
  exact .of_within he (groupLost_held hr q _) (groupLost_only (.refl ..) (List.Subset.refl _))

end

/-! ### Lost Far channels -/

theorem does_farChannelLost {s : State} {ch : Nat} (hc : ch < 16) (hs : s.shaped = true) (hf : (s.mem.chans.getD ch {}).far.isSome = true)
    (h4 : (s.mem.chans.getD ch {}).state ≠ 4) : Does (.farChannelLost ch) s [.out, .regs, .mem, .ctl, .mgt, .alm, .tel] fun t =>
      (t.mem.chans.getD ch {}).state = 4 ∧ t.mem.bytes = s.mem.bytes ∧ ∀ k, k ≠ ch → t.mem.chans.getD k {} = s.mem.chans.getD k {} := by
  obtain ⟨-, -, -, ⟨-, hl⟩, -⟩ := shaped_iff.mp hs
  have he : exec (.farChannelLost ch) s = .next (raisePf (s.modMem fun m => { m with chans := modAt m.chans ch fun c => { c with state := 4 } }) { cls := 2, code := 3, payload := [ch, 2] }) := by
    rw [exec_farChannelLost, execFarChannelLost, if_pos (by rw [hf, bne_iff_ne.mpr h4]; rfl)]
  refine .of_only he (execFarChannelLost_only (.refl ..) (List.Subset.refl _)) ?_
  rw [raisePf_mem]
  exact ⟨by rw [State.modMem_mem, getD_modAt_same (by omega)], rfl, fun k hk => getD_modAt_other hk⟩

theorem exec_farChannelLost_none {s : State} {ch : Nat} (h : (s.mem.chans.getD ch {}).far = none ∨ (s.mem.chans.getD ch {}).state = 4) :
    exec (.farChannelLost ch) s = .next s := by
  rw [exec_farChannelLost, execFarChannelLost, if_neg]
  obtain h | h := h <;> rw [h] <;> simp

/-- The scan of one page with tiles on a lost channel: a page with a Near copy loses its Far copy, another is poisoned (R783). -/
def pageScanned (s : State) (g : Page) : State :=
  if g.nearValid then modPage (pageTabs (freeTiles s g.ptn (farTile0 + g.farAddr)) g false) g.ptn g.num fun g => { g with farValid := false, packedLen := 0 }
  else modPage s g.ptn g.num fun g => { g with farPoison := true }

theorem pageScanned_pagesOnly (s : State) (g : Page) : PagesOnly s (pageScanned s g) := by
  unfold pageScanned
  split
  · exact PagesOnly.trans (t := freeTiles s g.ptn (farTile0 + g.farAddr)) (.refl s) ((pageTabs_pagesOnly ..).trans (modPage_pagesOnly ..))
  · exact modPage_pagesOnly ..

/-- The scan of a page keeps every page, and its poison. -/
theorem findPage_pageScanned {s : State} {p n : Nat} {x : Page} (hx : findPage s p n = some x) (g : Page) :
    ∃ y, findPage (pageScanned s g) p n = some y ∧ (x.farPoison = true ∨ g.nearValid = false ∧ g.ptn = p ∧ g.num = n → y.farPoison = true) := by
  obtain ⟨-, hp, hn⟩ := mem_of_findPage hx
  unfold pageScanned
  split
  · next hv =>
    have hu : findPage (pageTabs (freeTiles s g.ptn (farTile0 + g.farAddr)) g false) p n = some x := by
      rw [← hx]; exact findPage_of_pages (pageTabs_pages ..) ..
    rw [findPage_modPage (f := fun g => { g with farValid := false, packedLen := 0 }) fun _ => ⟨rfl, rfl⟩, hu]
    refine ⟨_, rfl, fun h => ?_⟩
    have hb : x.farPoison = true := h.resolve_right fun h => by simp [hv] at h
    simp only
    split <;> exact hb
  · rw [findPage_modPage (f := fun g => { g with farPoison := true }) fun _ => ⟨rfl, rfl⟩, hx]
    refine ⟨_, rfl, fun h => ?_⟩
    simp only
    split
    · rfl
    · next hne =>
      refine h.resolve_right fun ⟨_, h1, h2⟩ => hne ?_
      simp [hp, hn, h1, h2]

/-- The pages of a list are scanned one after the other: a page of it without a Near copy is poisoned at the end. -/
theorem findPage_scanned {p n : Nat} (l : List Page) {s : State} {x : Page} (hx : findPage s p n = some x) :
    ∃ y, findPage (l.foldl pageScanned s) p n = some y ∧ (x.farPoison = true ∨ (∃ g ∈ l, g.nearValid = false ∧ g.ptn = p ∧ g.num = n) → y.farPoison = true) := by
  induction l generalizing s x with
  | nil => exact ⟨x, hx, fun h => h.resolve_right (by simp)⟩
  | cons a l ih =>
    obtain ⟨y, hy, hp⟩ := findPage_pageScanned hx a
    obtain ⟨z, hz, hq⟩ := ih hy
    refine ⟨z, hz, fun h => hq ?_⟩
    obtain h | ⟨g, hg, hh⟩ := h
    · exact .inl (hp (.inl h))
    · obtain rfl | hg := List.mem_cons.mp hg
      · exact .inl (hp (.inr hh))
      · exact .inr ⟨g, hg, hh⟩

theorem does_farScanDone {s : State} {ch : Nat} {g : Page} (h4 : (s.mem.chans.getD ch {}).state = 4) (hg : findPage s g.ptn g.num = some g)
    (hf : farOn s g ch = true) (hv : g.nearValid = false) : Does (.farScanDone ch) s [.mem, .serve] fun t =>
      (findPage t g.ptn g.num).map (·.farPoison) = some true ∧ t.serve.reqs = s.serve.reqs := by
  have he : exec (.farScanDone ch) s = .next ((s.serve.pages.filter fun g => farOn s g ch).foldl pageScanned s) := by
    simp only [exec_farScanDone, execFarScanDone, h4, bne_self_eq_false, Bool.false_eq_true, if_false]
    rfl
  refine .of_only he (execFarScanDone_only (.refl ..) (List.Subset.refl _)) ⟨?_, (PagesOnly.foldl pageScanned_pagesOnly _ s).reqs⟩
  obtain ⟨y, hy, hp⟩ := findPage_scanned (s.serve.pages.filter fun g => farOn s g ch) hg
  rw [hy, Option.map_some, hp (.inr ⟨g, List.mem_filter.mpr ⟨(mem_of_findPage hg).1, hf⟩, hv, rfl, rfl⟩)]

theorem exec_farScanDone_none {s : State} {ch : Nat} (h : (s.mem.chans.getD ch {}).state ≠ 4) : exec (.farScanDone ch) s = .next s := by
  rw [exec_farScanDone, execFarScanDone, if_pos (bne_iff_ne.mpr h)]

/-! ### Lost Near stacks -/

/-- What the loss of a stack does to pages leaves the requests and the stacks alone. -/
abbrev StacksKept (s t : State) : Prop := t.serve.reqs = s.serve.reqs ∧ t.mem.nears = s.mem.nears

theorem stacksKept_foldl {α : Type} {f : State → α → State} (h : ∀ s a, StacksKept s (f s a)) (l : List α) (s : State) : StacksKept s (l.foldl f s) :=
  ⟨foldl_keep (fun s => s.serve.reqs) f (fun s a => (h s a).1) l s, foldl_keep (fun s => s.mem.nears) f (fun s a => (h s a).2) l s⟩

theorem allocTiles_stacksKept {s t : State} {p spread q n tile : Nat} {far : Bool} (h : allocTiles s p far spread q n = some (tile, t)) : StacksKept s t := by
  obtain ⟨r, -, hr⟩ := Option.map_eq_some_iff.mp h
  rw [← (Prod.mk.inj hr).2]
  exact ⟨rfl, rfl⟩

/-- A Near copy that is lost beside a Far copy (R449). -/
def nearCopyLost (s : State) (g : Page) : State := modPage (freeTiles s g.ptn g.nearAddr) g.ptn g.num fun g => { g with nearValid := false, pinNear := 0 }

/-- With no request live, the loss of a stack ends no request and rolls none back: of the stacks it marks the one that is lost. -/
theorem execStackLost_nears {s : State} {k : Nat} (hk : k < 12) (hl : stackLost s k = false) (hr : s.serve.reqs = []) :
    ∃ t, execStackLost k s = .next t ∧ t.mem.nears = modAt s.mem.nears k fun x => { x with lost := true } := by
  refine ⟨_, rfl, ?_⟩
  have hk' : ¬(decide (12 ≤ k) || stackLost s k) = true := by simp [hl, hk]
  rw [if_neg hk']
  extract_lets sets s1 onStack anyGone nearGone recGone dead s2 s3 lostOpen s4 rolled s5
  have h2 : s2 = s1 := by
    have hd : dead = [] := by simp only [dead, s1, State.modMem_serve, hr]; rfl
    simp only [s2, hd]; rfl
  have h3 : StacksKept s1 s3 := by
    rw [← h2]
    exact stacksKept_foldl (f := nearCopyLost) (fun s g => ⟨rfl, rfl⟩) _ s2
  have h4 : StacksKept s1 s4 := by
    have hf : StacksKept s3 s4 := stacksKept_foldl (fun u g => by
      split
      · split
        · next tile t ht =>
          obtain ⟨hr, hn⟩ := allocTiles_stacksKept ht
          exact ⟨hr, hn⟩
        · exact ⟨rfl, rfl⟩
      · exact ⟨rfl, rfl⟩) _ s3
    exact ⟨hf.1.trans h3.1, hf.2.trans h3.2⟩
  have h5 : s5.serve.reqs = [] := by rw [raisePf_serve, h4.1]; exact hr
  have hrolled : rolled = [] := by
    have h40 : s4.serve.reqs = [] := h4.1.trans hr
    simp [rolled, h40]
  rw [hrolled]
  have hp : promoteQueued s5 = s5 := by simp only [promoteQueued, h5]; rfl
  exact (congrArg (fun u => u.mem.nears) hp).trans ((congrArg Mem.nears (raisePf_mem _)).trans h4.2)

theorem does_stackLost {s : State} {k : Nat} (hk : k < 12) (hs : s.shaped = true) (hl : stackLost s k = false) (hr : s.serve.reqs = []) :
    Does (.stackLost k) s [.out, .freeCount, .regs, .cons, .work, .mem, .serve, .ctl, .mgt, .alm, .tel] fun t =>
      (t.mem.nears.getD k {}).lost = true ∧ ∀ n, n ≠ k → t.mem.nears.getD n {} = s.mem.nears.getD n {} := by
  obtain ⟨-, -, -, ⟨hlen, -⟩, -⟩ := shaped_iff.mp hs
  obtain ⟨t, he, hn⟩ := execStackLost_nears hk hl hr
  refine .of_only he (execStackLost_only (.refl ..) (List.Subset.refl _)) ?_
  rw [hn]
  exact ⟨by rw [getD_modAt_same (by omega)], fun n hne => getD_modAt_other hne⟩

theorem exec_stackLost_none {s : State} {k : Nat} (h : 12 ≤ k ∨ stackLost s k = true) : exec (.stackLost k) s = .next s := by
  rw [exec_stackLost, execStackLost, if_pos (by simpa using h)]

end Sys2Proof.Machine

open Sys2Proof Sys2Proof.Machine

/-- Settles O27: a partial goes to the queries that it answers, a lost group holds its request, a lost channel and a lost stack are marked alone. -/
theorem attentionAndLoss : Obligations.AttentionAndLoss := by
  unfold Obligations.AttentionAndLoss
  refine ⟨fun dev m b s hok hst hb => (does_msgPartial_ok hok hst hb).mono fun t ⟨hr, hl, hq⟩ => ⟨hr, hl, fun i q h => ⟨fun ha => ?_, fun ha => ?_⟩⟩,
    fun dev m b q r md s hok hst hb hr hm hp hq => does_msgPartial_buffer hok hst hb hr hm hp hq,
    fun dev m s hok h0 h1 h2 h3 => .of_same (exec_msgPartial_waits hok h0 h1 h2 h3) rfl,
    fun dev m q r s hok hst hr hq => does_msgPartial_lost hok hst hr hq, fun h qid first log q s hq hn => does_queryResend hq hn,
    fun h qid first log q r s hq hn hr => does_queryResend_last hq hn hr, fun ch s hc hs hf h4 => does_farChannelLost hc hs hf h4,
    fun ch s h => .of_same (exec_farChannelLost_none h) rfl, fun ch g s h4 hg hf hv => does_farScanDone h4 hg hf hv,
    fun ch s h => .of_same (exec_farScanDone_none h) rfl, fun k s hk hs hl hr => does_stackLost hk hs hl hr, fun k s h => .of_same (exec_stackLost_none h) rfl⟩
  · obtain ⟨h1, h2, h3, h4, h5, h6, h7⟩ := ha
    rw [hq i q h, if_pos (by simp [h1, h2, h3, h4, h5, h6, h7])]
  · rw [hq i q h, if_neg]
    intro hit
    simp only [answeredBy, asked, Bool.and_eq_true, beq_iff_eq, Option.isNone_iff_eq_none] at hit
    obtain ⟨⟨⟨⟨⟨⟨h1, h2⟩, h3⟩, h4⟩, h5⟩, h6⟩, h7⟩ := hit
    simp [h1, h2, h3, h4, h5, h6, h7] at ha
end

section
/-! PROOFS. Obligation O42: the embedding table engine (R366, R509, R510, R512, R514, R516, R517, R520, R523-R525). -/

namespace Sys2Proof.Machine
open Sys2Proof

/-! ### The table mailbox (R509, R510) -/

theorem mbxTable_lt_mbxCtl (v : View) : mbxTable v + 0x30 < mbxCtl v := by cases v <;> simp [mbxTable, mbxCtl]

/-- The answer of the table mailbox: STATUS at byte 0x30, GO clear. -/
theorem tabAnswer_answered (s : State) (v : View) {st : Nat} (h : st < 256) :
    bits (getReg (tabAnswer s v st) (mbxTable v + 0x30)).toNat 0 8 = st ∧ (getReg (tabAnswer s v st) (mbxCtl v)).getLsbD 1 = false := by
  constructor
  · simp only [tabAnswer, mbxDone]
    rw [getReg_setReg_other _ _ (Nat.ne_of_lt (mbxTable_lt_mbxCtl v)), bits_mbxPut _ _ _ _ _ (by simp) (by decide) (by decide)]
    exact Nat.mod_eq_of_lt h
  · simp [tabAnswer, mbxDone]

theorem Does.of_tabAnswer {c : Instr} {s : State} {v : View} {st : Nat} (he : exec c s = .next (tabAnswer s v st)) (h : st < 256) :
    Does c s [.regs] fun t => bits (getReg t (mbxTable v + 0x30)).toNat 0 8 = st ∧ (getReg t (mbxCtl v)).getLsbD 1 = false :=
  .of_within he (tabAnswer_answered s v h) (tabAnswer_only (.refl ..) (List.Subset.refl _))

/-- A table record is stored in the place of the one of its number, whose row heat and cached rows go (R510). -/
def tableStored (s : State) (r : TabRec) : State :=
  (s.modTabs fun t => { t with
    recs := (t.recs.filter fun x => !(x.ptn == r.ptn && x.num == r.num)) ++ [r], heat := t.heat.filter fun h => !(h.ptn == r.ptn && h.table == r.num) }).modWork fun w =>
      { w with rows := w.rows.filter fun f => !(f.ptn == r.ptn && f.table == r.num) }

section
variable {s : State} {v : View} {ptn : Nat}

theorem exec_tableRecordWrite_ok (hp : (viewPtn v).getD ptn < 32) (hgo : mbxGo s v 1 = true) (hok : tabRecOk s ((viewPtn v).getD ptn) (mbxRecord v ptn s) = true)
    (hb : tabBusy s ((viewPtn v).getD ptn) (mbxRecord v ptn s).num = false) :
    exec (.tableRecordWrite v ptn) s = .next (tabAnswer (tableStored s (mbxRecord v ptn s)) v stOK) := by
  have hf : ¬(decide (32 ≤ (viewPtn v).getD ptn) || !tabRecOk s ((viewPtn v).getD ptn) (mbxRecord v ptn s)) = true := by simp [hok, hp]
  exact congrArg Host.Outcome.next ((if_neg (by simp [hgo])).trans ((if_neg hf).trans (if_neg (by rw [← Bool.not_eq_true] at hb; exact hb))))

theorem exec_tableRecordWrite_bad (hgo : mbxGo s v 1 = true) (h : 32 ≤ (viewPtn v).getD ptn ∨ tabRecOk s ((viewPtn v).getD ptn) (mbxRecord v ptn s) = false) :
    exec (.tableRecordWrite v ptn) s = .next (tabAnswer s v stFORMAT) := by
  have hf : (decide (32 ≤ (viewPtn v).getD ptn) || !tabRecOk s ((viewPtn v).getD ptn) (mbxRecord v ptn s)) = true := by simpa using h
  exact congrArg Host.Outcome.next ((if_neg (by simp [hgo])).trans (if_pos hf))

theorem exec_tableRecordWrite_busy (hp : (viewPtn v).getD ptn < 32) (hgo : mbxGo s v 1 = true) (hok : tabRecOk s ((viewPtn v).getD ptn) (mbxRecord v ptn s) = true)
    (hb : tabBusy s ((viewPtn v).getD ptn) (mbxRecord v ptn s).num = true) : exec (.tableRecordWrite v ptn) s = .next (tabAnswer s v stBUSY) := by
  have hf : ¬(decide (32 ≤ (viewPtn v).getD ptn) || !tabRecOk s ((viewPtn v).getD ptn) (mbxRecord v ptn s)) = true := by simp [hok, hp]
  exact congrArg Host.Outcome.next ((if_neg (by simp [hgo])).trans ((if_neg hf).trans (if_pos hb)))

theorem exec_tableRecordWrite_idle (hgo : mbxGo s v 1 = false) : exec (.tableRecordWrite v ptn) s = .next s := by
  simp [execTableRecordWrite, hgo]

theorem findTabRec_tableStored (s : State) (r : TabRec) : findTabRec (tableStored s r) r.ptn r.num = some r := by
  have hn : (s.tabs.recs.filter fun x => !(x.ptn == r.ptn && x.num == r.num)).find? (fun x => x.ptn == r.ptn && x.num == r.num) = none :=
    List.find?_eq_none.mpr fun x hx hh => by simpa [hh] using (List.mem_filter.mp hx).2
  have hr : [r].find? (fun x => x.ptn == r.ptn && x.num == r.num) = some r := List.find?_cons_of_pos (by simp)
  exact List.find?_append.trans (by rw [hn, hr]; rfl)

theorem does_tableRecordWrite (hp : (viewPtn v).getD ptn < 32) (hgo : mbxGo s v 1 = true) (hok : tabRecOk s ((viewPtn v).getD ptn) (mbxRecord v ptn s) = true)
    (hb : tabBusy s ((viewPtn v).getD ptn) (mbxRecord v ptn s).num = false) : Does (.tableRecordWrite v ptn) s [.regs, .work, .tabs] fun t =>
      findTabRec t ((viewPtn v).getD ptn) (mbxRecord v ptn s).num = some (mbxRecord v ptn s) ∧
      (∀ h ∈ t.tabs.heat, h.ptn = (viewPtn v).getD ptn → h.table ≠ (mbxRecord v ptn s).num) ∧
      bits (getReg t (mbxTable v + 0x30)).toNat 0 8 = stOK ∧ (getReg t (mbxCtl v)).getLsbD 1 = false := by
  refine .of_only (exec_tableRecordWrite_ok hp hgo hok hb) (execTableRecordWrite_only (.refl ..) (List.Subset.refl _))
    ⟨findTabRec_tableStored s (mbxRecord v ptn s), fun h hh hp => ?_, tabAnswer_answered _ v (by decide)⟩
  have hk := (List.mem_filter.mp hh).2
  intro ht
  have hp' : (h.ptn == (mbxRecord v ptn s).ptn) = true := beq_iff_eq.mpr hp
  simp [hp', ht] at hk

end

/-! ### Look-ups: what pooling leaves of a partition's settings -/

/-- The counters of the row cache of a partition: hits and misses (R520). -/
abbrev rowCounters (p : Nat) : List (Nat × Nat) := [(0x91E0 + p, 3), (0x91E0 + p, 4)]

/-- A row is read: of the dictionary the hits or the misses alone change. -/
theorem readRow_od (s : State) (r : TabRec) (shard row : Nat) (look : Bool) : OdUnchanged (rowCounters r.ptn) s (readRow s r shard row look).2.2 := by
  have hcount (u : State) (k : Nat) (hk : (0x91E0 + r.ptn, k) ∈ rowCounters r.ptn) : OdUnchanged (rowCounters r.ptn) u (odCount u (0x91E0 + r.ptn) k) := odCount_unchanged hk u 1
  have hctl {u t : State} (h : t.ctl = u.ctl) : OdUnchanged (rowCounters r.ptn) u t := .of_od (congrArg Ctl.od h)
  unfold readRow
  extract_lets g s0 addr st1 s1 st bytes s2
  have h0 : OdUnchanged (rowCounters r.ptn) s s0 := by
    simp only [s0]
    split
    · exact hctl ((warmRow_only (.refl [.tabs] s) (List.Subset.refl _)).only.keeps .ctl (by decide))
    · exact hctl rfl
  split
  · refine h0.trans ?_
    simp only
    split
    · split
      · exact (hcount s0 3 (by simp)).trans (hctl (progCount_ctl ..))
      · exact hcount s0 3 (by simp)
    · exact hctl rfl
  · have h1 : OdUnchanged (rowCounters r.ptn) s s1 := by
      refine h0.trans ?_
      simp only [s1]
      split
      · exact hctl ((countTiles_only (.refl [.tel] s0) (List.Subset.refl _)).only.keeps .ctl (by decide))
      · exact hctl rfl
    have h2 : OdUnchanged (rowCounters r.ptn) s s2 := h1.trans (hcount s1 4 (by simp))
    split
    · exact h1
    · split
      · exact h2
      · split
        · exact h2
        · split
          · exact h2
          · exact h2.trans (hctl ((sramWrite_only (modWork_only (.refl [.work] s2) (List.Subset.refl _)) (List.Subset.refl _)).only.keeps .ctl (by decide)))

theorem poolBag_od (s : State) (r : TabRec) (shard : Nat) (b : Bag) : OdUnchanged (rowCounters r.ptn) s (poolBag s r shard b).2.2 := by
  unfold poolBag
  extract_lets zero
  split
  · exact .of_od rfl
  · suffices h : ∀ (l : List (Nat × Nat)) (a : Nat × List Nat × State), OdUnchanged (rowCounters r.ptn) s a.2.2 →
        OdUnchanged (rowCounters r.ptn) s (l.foldl (fun a x => if a.1 != 0 then a else
          let (st, bs, s1) := readRow a.2.2 r shard x.1 true
          if st != 0 then (st, [], s1) else (0, poolStep b.pool a.2.1 (rowElems r bs) x.2, s1)) a).2.2 from h _ _ (.of_od rfl)
    intro l
    induction l with
    | nil => exact fun _ h => h
    | cons x l ih =>
      intro a ha
      refine ih _ ?_
      simp only
      split
      · exact ha
      · have hr := ha.trans (readRow_od a.2.2 r shard x.1 true)
        split
        · exact hr
        · exact hr

theorem findTabRec_ptn {s : State} {p n : Nat} {r : TabRec} (h : findTabRec s p n = some r) : r.ptn = p := by
  have := List.find?_some h
  simp only [Bool.and_eq_true, beq_iff_eq] at this
  exact this.1

theorem poolBags_od (s : State) (p table shard : Nat) (bags : List Bag) : OdUnchanged (rowCounters p) s (poolBags s p table shard bags).2.2 := by
  unfold poolBags
  split
  · exact .of_od rfl
  · next r hr =>
    rw [← findTabRec_ptn hr]
    split
    · exact .of_od rfl
    · suffices h : ∀ (l : List Bag) (a : List Byte × Nat × State), OdUnchanged (rowCounters r.ptn) s a.2.2 →
          OdUnchanged (rowCounters r.ptn) s (l.foldl (fun a b =>
            let (st, v, s1) := poolBag a.2.2 r shard b
            (a.1 ++ pooledRec b st v, if a.2.1 = 0 then st else a.2.1, s1)) a).2.2 from h _ _ (.of_od rfl)
      intro l
      induction l with
      | nil => exact fun _ h => h
      | cons b l ih => exact fun a ha => ih _ (ha.trans (poolBag_od a.2.2 r shard b))

/-- The POOLED message of a LOOKUP (R515). -/
def pooledMsg (m : StateMsg) (body : List Byte) : StateMsg :=
  { srcPtn := m.dstPtn, dstPtn := m.srcPtn, srcHandle := m.dstHandle, dstHandle := m.srcHandle, args := m.args, body := [.raw body] }

/-- A LOOKUP is answered with one POOLED message, in the class that its partition has for it (R512, R514). -/
theorem answerLookup_out {s : State} {dev : Nat} {m : StateMsg} (hp : m.dstPtn < 32) (hi : isolated s m.dstPtn = false) :
    ∃ a, (answerLookup s dev m).out.getLast? = some (Out.state dev 0x21 (stateClass s m.dstPtn 0x21) (stateHeader 0x21 a) a) ∧
      a.args = m.args ∧ a.dstPtn = m.srcPtn ∧ a.dstHandle = m.srcHandle := by
  rcases hx : poolBags s m.dstPtn (msgTable m) (msgShard m) (parseBags (msgCount m) (msgBytes m)) with ⟨body, st, s1⟩
  have h1 : Within [.work, .tabs, .ctl, .tel] s s1 := poolBags_only_eq (.refl ..) (List.Subset.refl _) hx
  have ho : OdUnchanged (rowCounters m.dstPtn) s s1 := by
    have h := poolBags_od s m.dstPtn (msgTable m) (msgShard m) (parseBags (msgCount m) (msgBytes m))
    rwa [hx] at h
  have h2 : Within [.out, .regs, .tel] s1 (if st = 0 then s1 else taskRec s1 (tableTask s1 m.dstPtn) st 0) := by
    split
    · exact .refl ..
    · exact taskRec_only (.refl ..) (List.Subset.refl _)
  simp only [answerLookup, hx]
  generalize (if st = 0 then s1 else taskRec s1 (tableTask s1 m.dstPtn) st 0) = s2 at h2 ⊢
  have hi2 : isolated s2 m.dstPtn = false := by
    rw [isolated_of_ptns (h2.only.keeps .ptns (by decide)), isolated_of_ptns (h1.only.keeps .ptns (by decide)), hi]
  have hc : stateClass s2 m.dstPtn 0x21 = stateClass s m.dstPtn 0x21 := by
    rw [stateClass_of_ctl (h2.only.keeps .ctl (by decide))]
    exact ho.odGet (by have := hp; simp [odKey]; omega)
  rw [sendState_of_open hi2, stateOut, ← hc]
  exact ⟨{ pooledMsg m body with items := 1 }, List.getLast?_concat .., rfl, rfl, rfl⟩

/-- Whether a LOOKUP more is within the caps of an entry (R94). -/
abbrev withinCap (cap used : Nat) : Prop := cap = 0 ∨ used ≤ cap

theorem serveAsks_full {p capA capB ua ub : Nat} {x : Nat × StateMsg} {s : State} {full : Bool}
    (h : full = true ∨ (capA ≠ 0 ∧ capA < ua + msgCount x.2) ∨ (capB ≠ 0 ∧ capB < ub + msgRows x.2)) :
    serveAsks p capA capB [x] (s, ua, ub, full) = (s, ua, ub, true) := by
  rw [serveAsks, if_pos (by simpa [or_assoc] using h)]

theorem serveAsks_one {p capA capB ua ub : Nat} {x : Nat × StateMsg} {s : State} (hA : withinCap capA (ua + msgCount x.2)) (hB : withinCap capB (ub + msgRows x.2))
    (hh : askHeld s x.2 = false) : serveAsks p capA capB [x] (s, ua, ub, false) =
      (answerLookup (s.modTabs fun t => { t with asks := t.asks.filter (· != x) }) x.1 x.2, ua + msgCount x.2, ub + msgRows x.2, false) := by
  have hc : ¬(false || (capA != 0 && decide (capA < ua + msgCount x.2)) || (capB != 0 && decide (capB < ub + msgRows x.2))) = true := by
    simp only [Bool.or_eq_true, Bool.and_eq_true, bne_iff_ne, decide_eq_true_eq, Bool.false_eq_true, false_or]
    omega
  simp only [serveAsks, if_neg hc, hh, Bool.false_eq_true, if_false]

/-- A LOOKUP joins those that wait (R117). -/
def lookupWaits (s : State) (dev : Nat) (m : StateMsg) : State := s.modTabs fun t => { t with asks := t.asks ++ [(dev, m)] }

theorem useSlot_used {s : State} {sec ent a b : Nat} {full : Bool} {r : RunSlot} (hr : r ∈ (useSlot s sec ent a b full).eph.slots) (hs : r.sec = sec) (he : r.ent = ent) :
    r.usedA = a ∧ r.usedB = b ∧ r.full = full := by
  obtain ⟨x, -, rfl⟩ := List.mem_map.mp hr
  by_cases hx : (x.sec == sec && x.ent == ent) = true
  · simp only [hx, if_true]
    exact ⟨trivial, trivial, trivial⟩
  · simp only [if_neg hx] at hs he
    exact absurd (by simp [hs, he]) hx

section
variable {s : State} {dev : Nat} {m : StateMsg}

theorem exec_msgLookup_waits (hok : msgOk s dev m false = true) (h : tableSlot s m.dstPtn = none ∨ (s.tabs.asks.any fun x => x.2.dstPtn == m.dstPtn) = true) :
    exec (.msgLookup dev m) s = .next (lookupWaits s dev m) := by
  rw [exec_msgLookup, execMsgLookup, onMsg_ok hok]
  simp only
  split
  · rfl
  · next k e hk =>
    rw [if_pos (h.resolve_left (by simp [hk]))]
    rfl

variable {k : RunSlot} {e : Entry}

theorem exec_msgLookup_slot (hok : msgOk s dev m false = true) (hk : tableSlot s m.dstPtn = some (k, e))
    (ha : (s.tabs.asks.any fun x => x.2.dstPtn == m.dstPtn) = false) {u : State} {a b : Nat} {full : Bool}
    (hx : serveAsks m.dstPtn e.capA e.capB [(dev, m)] (lookupWaits s dev m, k.usedA, k.usedB, k.full) = (u, a, b, full)) :
    exec (.msgLookup dev m) s = .next (useSlot u k.sec k.ent a b full) := by
  rw [exec_msgLookup, execMsgLookup, onMsg_ok hok]
  simp only [hk, ha, Bool.false_eq_true, if_false]
  rw [show (s.modTabs fun t => { t with asks := t.asks ++ [(dev, m)] }) = lookupWaits s dev m from rfl, hx]

theorem does_msgLookup_full (hok : msgOk s dev m false = true) (hk : tableSlot s m.dstPtn = some (k, e))
    (ha : (s.tabs.asks.any fun x => x.2.dstPtn == m.dstPtn) = false)
    (h : k.full = true ∨ (e.capA ≠ 0 ∧ e.capA < k.usedA + msgCount m) ∨ (e.capB ≠ 0 ∧ e.capB < k.usedB + msgRows m)) :
    Does (.msgLookup dev m) s [.eph, .tabs] fun t => t.tabs = { s.tabs with asks := s.tabs.asks ++ [(dev, m)] } ∧
      ∀ r ∈ t.eph.slots, r.sec = k.sec → r.ent = k.ent → r.full = true :=
  .of_within (exec_msgLookup_slot hok hk ha (serveAsks_full h)) ⟨rfl, fun _ hr hs he => (useSlot_used hr hs he).2.2⟩
    (useSlot_only (modTabs_only (.refl ..) (by decide)) (by decide))

theorem does_msgLookup (hok : msgOk s dev m false = true) (hk : tableSlot s m.dstPtn = some (k, e))
    (ha : (s.tabs.asks.any fun x => x.2.dstPtn == m.dstPtn) = false) (hf : k.full = false)
    (hA : withinCap e.capA (k.usedA + msgCount m)) (hB : withinCap e.capB (k.usedB + msgRows m)) (hh : askHeld s m = false) :
    Does (.msgLookup dev m) s [.out, .regs, .eph, .work, .tabs, .ctl, .tel] fun t =>
      (∀ r ∈ t.eph.slots, r.sec = k.sec → r.ent = k.ent → r.usedA = k.usedA + msgCount m ∧ r.usedB = k.usedB + msgRows m) ∧
      ∃ a, t.out.getLast? = some (Out.state dev 0x21 (stateClass s m.dstPtn 0x21) (stateHeader 0x21 a) a) ∧ a.args = m.args ∧ a.dstPtn = m.srcPtn ∧ a.dstHandle = m.srcHandle := by
  have hx := serveAsks_one (p := m.dstPtn) (x := (dev, m)) (s := lookupWaits s dev m) hA hB hh
  rw [← hf] at hx
  refine .of_only (exec_msgLookup_slot hok hk ha hx) (execMsgLookup_only (.refl ..) (List.Subset.refl _)) ⟨fun r hr hs he => ?_, ?_⟩
  · obtain ⟨h1, h2, -⟩ := useSlot_used hr hs he
    exact ⟨h1, h2⟩
  · exact answerLookup_out (s := (lookupWaits s dev m).modTabs fun t => { t with asks := t.asks.filter (· != (dev, m)) }) (dstPtn_lt_of_msgOk hok) (not_isolated_of_msgOk hok)

/-! ### Answers of other owners (R516, R517) -/

theorem mem_sortBy_of_mem {α : Type} {key : α → Nat} {y : α} {l : List α} (h : y ∈ l) : y ∈ sortBy key l := by
  have hins (x : α) (a : List α) : ∀ z, z = x ∨ z ∈ a → z ∈ insBy key x a := by
    induction a with
    | nil => simp [insBy]
    | cons b a ih =>
      intro z hz
      unfold insBy
      split
      · obtain hz | hz := hz
        · exact List.mem_cons_of_mem _ (ih z (.inl hz))
        · obtain rfl | hz := List.mem_cons.mp hz
          · exact List.mem_cons_self
          · exact List.mem_cons_of_mem _ (ih z (.inr hz))
      · exact List.mem_cons.mpr hz
  have go (l : List α) : ∀ a : List α, y ∈ a ∨ y ∈ l → y ∈ l.foldl (fun a x => insBy key x a) a := by
    induction l with
    | nil => exact fun a h => h.resolve_right (by simp)
    | cons x l ih =>
      intro a h
      refine ih _ ?_
      obtain h | h := h
      · exact .inl (hins x a y (.inr h))
      · obtain rfl | h := List.mem_cons.mp h
        · exact .inl (hins y a y (.inl rfl))
        · exact .inr h
  exact go l [] (.inr h)

/-- While an answer of a task's look-ups is outstanding, nothing is combined (R516). -/
theorem lookupsDone_waits {s : State} {tid : Nat} {k : Lookup} (hk : k ∈ s.work.lookups) (ht : k.task = tid) (ha : k.answer = none) : lookupsDone s tid = s := by
  unfold lookupsDone
  extract_lets ls
  split
  · rw [if_pos]
    exact List.any_eq_true.mpr ⟨k, mem_sortBy_of_mem (List.mem_filter.mpr ⟨hk, by simpa using ht⟩), by simp [ha]⟩
  · rfl

theorem updIf_eq_map {α : Type} [DecidableEq α] (x : α) (f : α → α) (l : List α) : updIf (· == x) f l = l.map fun k => if k = x then f k else k := by
  simp [updIf]

theorem does_msgPooled {l : Lookup} (hok : msgOk s dev m false = true)
    (hf : s.work.lookups.find? (fun l => l.ptn == m.dstPtn && l.dev == dev && l.table == msgTable m && l.shard == msgShard m && l.seq == msgSeq m && l.answer.isNone) = some l)
    (hk : ∃ k ∈ s.work.lookups, k.task = l.task ∧ k ≠ l ∧ k.answer = none) : Does (.msgPooled dev m) s [.work] fun t =>
      t.work = { s.work with lookups := s.work.lookups.map fun k => if k = l then { k with answer := some (msgBytes m) } else k } := by
  obtain ⟨k, hmem, ht, hne, ha⟩ := hk
  have hw : lookupsDone (s.modWork fun w => { w with lookups := updIf (· == l) (fun l => { l with answer := some (msgBytes m) }) w.lookups }) l.task = _ :=
    lookupsDone_waits (List.mem_map.mpr ⟨k, hmem, if_neg (by simpa using hne)⟩) ht ha
  have he : exec (.msgPooled dev m) s = .next (s.modWork fun w => { w with lookups := updIf (· == l) (fun l => { l with answer := some (msgBytes m) }) w.lookups }) := by
    rw [exec_msgPooled, execMsgPooled, onMsg_ok hok]
    simp only [hf, hw]
  exact .of_within he (by rw [State.modWork_work, updIf_eq_map]) (modWork_only (.refl ..) (List.Subset.refl _))

/-! ### Updates (R523-R525) -/

/-- The entry of an update that was applied before: of this sender, table and SEQ. -/
abbrev appliedAs (dev : Nat) (m : StateMsg) (a : Nat × Nat × Nat × Nat × Nat) : Bool :=
  a.1 == m.dstPtn && a.2.1 == dev && a.2.2.1 == msgTable m && a.2.2.2.1 == msgSeq m

theorem sentAnswer_ackUpdate {u : State} (hok : msgOk s dev m false = true) (ho : u.out = s.out) (hc : u.ctl = s.ctl) (hp : u.ptns = s.ptns) (st : Nat) :
    sentAnswer s (ackUpdate u dev m st) dev 0x23 st :=
  sentAnswer_sendState (m := { srcPtn := m.dstPtn, dstPtn := m.srcPtn, srcHandle := m.dstHandle, dstHandle := m.srcHandle, status := st, args := bits m.args 0 62 })
    ho hc hp (not_isolated_of_msgOk hok) dev 0x23

theorem does_msgUpdate_again {a : Nat × Nat × Nat × Nat × Nat} (hok : msgOk s dev m false = true) (hf : s.tabs.applied.find? (appliedAs dev m) = some a) :
    Does (.msgUpdate dev m) s [.out] fun t => sentAnswer s t dev 0x23 a.2.2.2.2 := by
  have he : exec (.msgUpdate dev m) s = .next (ackUpdate s dev m a.2.2.2.2) := by
    rw [exec_msgUpdate, execMsgUpdate, onMsg_ok hok]
    simp only [hf]
  exact .of_within he (sentAnswer_ackUpdate hok rfl rfl rfl _) (ackUpdate_only (.refl ..) (List.Subset.refl _))

/-- The record of an update that a table does not take (R523). -/
def updateRefused (s : State) (dev : Nat) (m : StateMsg) : State := ackUpdate (keepSeq s m.dstPtn dev (msgTable m) (msgSeq m) stFORMAT) dev m stFORMAT

/-- An update that waits for the next cycle's TABLE entry (R524). -/
def updateWaits (s : State) (dev : Nat) (m : StateMsg) : State :=
  s.modTabs fun t => { t with updates := t.updates ++ [{ ptn := m.dstPtn, dev := dev, table := msgTable m, shard := msgShard m, seq := msgSeq m, cycle := s.eph.cycle, msg := m }] }

/-- What an update does that was neither applied nor queued (R523-R525). -/
def updateNew (s : State) (dev : Nat) (m : StateMsg) : State :=
  if (match newestSeq s m.dstPtn dev (msgTable m) with | some n => decide (msgSeq m + 1024 ≤ n) | none => false) then ackUpdate s dev m stEPOCH
  else match findTabRec s m.dstPtn (msgTable m) with
    | none => updateRefused s dev m
    | some r => if r.opt = 0 || r.nshard ≤ msgShard m || r.owner (msgShard m) != myDev s then updateRefused s dev m else updateWaits s dev m

theorem exec_msgUpdate_new (hok : msgOk s dev m false = true) (ha : ∀ a ∈ s.tabs.applied, ¬(a.2.1 = dev ∧ a.2.2.2.1 = msgSeq m))
    (hu : ∀ u ∈ s.tabs.updates, u.dev ≠ dev) : exec (.msgUpdate dev m) s = .next (updateNew s dev m) := by
  have hf : s.tabs.applied.find? (appliedAs dev m) = none := List.find?_eq_none.mpr fun a h => by
    have hne := ha a h
    simp only [appliedAs, Bool.and_eq_true, beq_iff_eq]
    exact fun ⟨⟨⟨_, hd⟩, _⟩, hs⟩ => hne ⟨hd, hs⟩
  have hq : (s.tabs.updates.any fun u => u.ptn == m.dstPtn && u.dev == dev && u.table == msgTable m && u.seq == msgSeq m) = false := by
    rw [List.any_eq_false]
    intro u h
    simp [hu u h]
  rw [exec_msgUpdate, execMsgUpdate, onMsg_ok hok]
  simp only [hf, hq, Bool.false_eq_true, if_false]
  rfl

theorem does_msgUpdate_old {n : Nat} (hok : msgOk s dev m false = true) (ha : ∀ a ∈ s.tabs.applied, ¬(a.2.1 = dev ∧ a.2.2.2.1 = msgSeq m))
    (hu : ∀ u ∈ s.tabs.updates, u.dev ≠ dev) (hn : newestSeq s m.dstPtn dev (msgTable m) = some n) (hs : msgSeq m + 1024 ≤ n) :
    Does (.msgUpdate dev m) s [.out] fun t => sentAnswer s t dev 0x23 stEPOCH := by
  have he : updateNew s dev m = ackUpdate s dev m stEPOCH := by simp only [updateNew, hn, decide_eq_true hs, if_true]
  exact .of_within ((exec_msgUpdate_new hok ha hu).trans (congrArg _ he)) (sentAnswer_ackUpdate hok rfl rfl rfl _) (ackUpdate_only (.refl ..) (List.Subset.refl _))

/-- A device none of whose updates was applied has no newest SEQ. -/
theorem newestSeq_none (ha : ∀ a ∈ s.tabs.applied, a.2.1 ≠ dev) (p table : Nat) : newestSeq s p dev table = none := by
  have h : (s.tabs.applied.filter fun a => a.1 == p && a.2.1 == dev && a.2.2.1 == table) = [] :=
    List.filter_eq_nil_iff.mpr fun a h => by simp [ha a h]
  simp [newestSeq, h]

section
variable {r : TabRec} (hok : msgOk s dev m false = true) (ha : ∀ a ∈ s.tabs.applied, a.2.1 ≠ dev) (hu : ∀ u ∈ s.tabs.updates, u.dev ≠ dev)
  (hr : findTabRec s m.dstPtn (msgTable m) = some r)
include hok ha hu hr

theorem does_msgUpdate_taken (ho : r.opt ≠ 0) (hs : msgShard m < r.nshard) (hd : r.owner (msgShard m) = myDev s) : Does (.msgUpdate dev m) s [.tabs] fun t =>
    t.tabs = { s.tabs with
      updates := s.tabs.updates ++ [{ ptn := m.dstPtn, dev := dev, table := msgTable m, shard := msgShard m, seq := msgSeq m, cycle := s.eph.cycle, msg := m }] } := by
  have he : updateNew s dev m = updateWaits s dev m := by
    simp [updateNew, newestSeq_none ha, hr, ho, hs, hd]
  exact .of_within ((exec_msgUpdate_new hok (fun a h hn => ha a h hn.1) hu).trans (congrArg _ he)) rfl (modTabs_only (.refl ..) (List.Subset.refl _))

theorem does_msgUpdate_refused (h : r.opt = 0 ∨ r.nshard ≤ msgShard m ∨ r.owner (msgShard m) ≠ myDev s) : Does (.msgUpdate dev m) s [.out, .tabs] fun t =>
    sentAnswer s t dev 0x23 stFORMAT ∧ (m.dstPtn, dev, msgTable m, msgSeq m, stFORMAT) ∈ t.tabs.applied ∧ t.tabs.updates = s.tabs.updates := by
  have hc : (decide (r.opt = 0) || decide (r.nshard ≤ msgShard m) || r.owner (msgShard m) != myDev s) = true := by simpa [or_assoc] using h
  have he : updateNew s dev m = updateRefused s dev m := by
    simp only [updateNew, newestSeq_none ha, hr, hc, Bool.false_eq_true, if_false, if_true]
  have ht : (updateRefused s dev m).tabs = (keepSeq s m.dstPtn dev (msgTable m) (msgSeq m) stFORMAT).tabs :=
    (ackUpdate_only (.refl [.out] _) (List.Subset.refl _)).only.keeps .tabs (by decide)
  refine .of_within ((exec_msgUpdate_new hok (fun a h hn => ha a h hn.1) hu).trans (congrArg _ he))
    ⟨sentAnswer_ackUpdate (u := keepSeq s m.dstPtn dev (msgTable m) (msgSeq m) stFORMAT) hok rfl rfl rfl stFORMAT, ?_⟩
    (ackUpdate_only (keepSeq_only (.refl ..) (by decide)) (by decide))
  rw [ht]
  exact ⟨List.mem_append_right _ (List.mem_singleton_self _), rfl⟩

end

/-- The answer to an update of ours is kept, in the place of one with its owner, table and SEQ. -/
def ackKept (s : State) (dev : Nat) (m : StateMsg) : State :=
  s.modTabs fun t => { t with acks := (t.acks.filter fun a => !appliedAs dev m a) ++ [(m.dstPtn, dev, msgTable m, msgSeq m, m.status)] }

theorem does_msgUpdateAck (hok : msgOk s dev m false = true) : Does (.msgUpdateAck dev m) s [.tabs] fun t =>
    (m.dstPtn, dev, msgTable m, msgSeq m, m.status) ∈ t.tabs.acks ∧ t.tabs.recs = s.tabs.recs ∧ t.tabs.updates = s.tabs.updates ∧
    ∀ a ∈ t.tabs.acks, a.1 = m.dstPtn → a.2.1 = dev → a.2.2.1 = msgTable m → a.2.2.2.1 = msgSeq m → a.2.2.2.2 = m.status := by
  have he : exec (.msgUpdateAck dev m) s = .next (ackKept s dev m) := by
    rw [exec_msgUpdateAck, execMsgUpdateAck, onMsg_ok hok]
    rfl
  refine .of_within he ⟨List.mem_append_right _ (List.mem_singleton_self _), rfl, rfl, fun a hmem h1 h2 h3 h4 => ?_⟩ (modTabs_only (.refl ..) (List.Subset.refl _))
  obtain hmem | hmem := List.mem_append.mp hmem
  · simpa [appliedAs, h1, h2, h3, h4] using (List.mem_filter.mp hmem).2
  · rw [List.mem_singleton.mp hmem]

/-! ### Look-ups sent again, and row heat (R517, R520) -/

/-- A look-up of a task in another owner's shard that has no answer. -/
abbrev lookupOpen (s : State) (task shard : Nat) (l : Lookup) : Bool := l.task == task && l.shard == shard && l.answer.isNone && l.dev != myDev s

/-- The same LOOKUP goes out again. -/
def lookupAgain (s : State) (l : Lookup) : State :=
  sendState (s.modWork fun w => { w with lookups := updIf (· == l) (fun l => { l with sends := l.sends + 1, sentAt := now s }) w.lookups }) l.dev 0x20 l.msg

theorem does_lookupResend {task shard : Nat} {l : Lookup} (hf : s.work.lookups.find? (lookupOpen s task shard) = some l) (hn : l.sends < 4)
    (hi : isolated s l.msg.srcPtn = false) : Does (.lookupResend task shard) s [.out, .work] fun t =>
      t.work = { s.work with lookups := s.work.lookups.map fun k => if k = l then { k with sends := k.sends + 1, sentAt := now s } else k } ∧
      ∃ a, t.out = s.out ++ [Out.state l.dev 0x20 (stateClass s l.msg.srcPtn 0x20) (stateHeader 0x20 a) a] ∧ a.args = l.msg.args ∧ a.body = l.msg.body := by
  have he : exec (.lookupResend task shard) s = .next (lookupAgain s l) := by
    simp only [exec_lookupResend, execLookupResend, hf, hn, if_true, lookupAgain]
  refine .of_within he ?_ (sendState_only (modWork_only (.refl ..) (by decide)) (by decide))
  rw [lookupAgain, sendState_of_open (s := s.modWork _) hi]
  exact ⟨congrArg (fun ls => { s.work with lookups := ls }) (updIf_eq_map ..), { l.msg with items := l.msg.body.length }, rfl, rfl, rfl⟩

theorem does_lookupResend_last {task shard : Nat} {l : Lookup} (hf : s.work.lookups.find? (lookupOpen s task shard) = some l) (hn : 4 ≤ l.sends)
    (ht : findTask s task = none) : Does (.lookupResend task shard) s [.work] fun t =>
      t.work = { s.work with lookups := s.work.lookups.filter (·.task != task) } := by
  have ht' : findTask (s.modWork fun w => { w with lookups := w.lookups.filter (·.task != task) }) task = none := ht
  have he : exec (.lookupResend task shard) s = .next (s.modWork fun w => { w with lookups := w.lookups.filter (·.task != task) }) := by
    simp only [exec_lookupResend, execLookupResend, hf, Nat.not_lt.mpr hn, if_false, ht']
  exact .of_within he rfl (modWork_only (.refl ..) (List.Subset.refl _))

theorem exec_lookupResend_none {task shard : Nat} (h : ∀ l ∈ s.work.lookups, l.task = task → l.dev = myDev s ∨ l.answer.isSome = true) :
    exec (.lookupResend task shard) s = .next s := by
  have hf : s.work.lookups.find? (lookupOpen s task shard) = none := List.find?_eq_none.mpr fun l hl => by
    simp only [lookupOpen, Bool.and_eq_true, beq_iff_eq, bne_iff_ne]
    rintro ⟨⟨⟨ht, -⟩, hn⟩, hd⟩
    obtain h | h := h l hl ht
    · exact hd h
    · simp [Option.isNone_iff_eq_none.mp hn] at h
  simp only [exec_lookupResend, execLookupResend, hf]

end

/-- Every row counter of a partition is halved, and one that comes to 0 goes (R520). -/
def heatHalved (s : State) (p : Nat) : State :=
  s.modTabs fun t => { t with
    age := cntSet t.age p 0
    heat := (updIf (·.ptn == p) (fun h => { h with count := h.count / 2 }) t.heat).filter fun h => h.ptn != p || h.count != 0 }

theorem mem_heatHalved {s : State} {p : Nat} {h : RowHeat} : h ∈ (heatHalved s p).tabs.heat ↔
    (h.ptn ≠ p ∧ h ∈ s.tabs.heat) ∨ (h.ptn = p ∧ h.count ≠ 0 ∧ ∃ g ∈ s.tabs.heat, g.ptn = p ∧ h = { g with count := g.count / 2 }) := by
  simp only [heatHalved, State.modTabs_tabs, List.mem_filter, updIf, List.mem_map, Bool.or_eq_true, bne_iff_ne]
  constructor
  · rintro ⟨⟨g, hg, rfl⟩, hk⟩
    by_cases hp : g.ptn = p
    · simp only [hp, beq_self_eq_true, if_true] at hk ⊢
      exact .inr ⟨trivial, hk.resolve_left (by simp), g, hg, hp, by rw [hp]⟩
    · simp only [beq_eq_false_iff_ne.mpr hp, Bool.false_eq_true, if_false]
      exact .inl ⟨hp, hg⟩
  · rintro (⟨hp, hm⟩ | ⟨hp, hc, g, hg, hgp, rfl⟩)
    · exact ⟨⟨h, hm, by simp [hp]⟩, .inl hp⟩
    · exact ⟨⟨g, hg, if_pos (beq_iff_eq.mpr hgp)⟩, .inr hc⟩

theorem exec_rowHeatAging_none {s : State} {p : Nat} (h : isolated s p = true ∨ cnt s.tabs.age p < odGet s (0x91E0 + p) 2) : exec (.rowHeatAging p) s = .next s := by
  rw [exec_rowHeatAging, execRowHeatAging, if_pos (by simpa using h)]

theorem does_rowHeatAging {s : State} {p : Nat} (hi : isolated s p = false) (ha : odGet s (0x91E0 + p) 2 ≤ cnt s.tabs.age p) :
    Does (.rowHeatAging p) s [.tabs] fun t => cnt t.tabs.age p = 0 ∧
      (∀ h ∈ t.tabs.heat, h.ptn = p → h.count ≠ 0 ∧ ∃ g ∈ s.tabs.heat, g.ptn = p ∧ g.table = h.table ∧ g.row = h.row ∧ h.count = g.count / 2) ∧
      (∀ g ∈ s.tabs.heat, g.ptn = p → 2 ≤ g.count → ∃ h ∈ t.tabs.heat, h.ptn = p ∧ h.table = g.table ∧ h.row = g.row ∧ h.count = g.count / 2) ∧
      (∀ h, h.ptn ≠ p → (h ∈ t.tabs.heat ↔ h ∈ s.tabs.heat)) := by
  have he : exec (.rowHeatAging p) s = .next (heatHalved s p) := by
    rw [exec_rowHeatAging, execRowHeatAging, if_neg (by simp [hi, ha])]
    rfl
  refine .of_within he ⟨cnt_cntSet_same s.tabs.age p 0, fun h hh hp => ?_, fun g hg hp hc => ?_, fun h hp => ?_⟩ (modTabs_only (.refl ..) (List.Subset.refl _))
  · obtain ⟨hn, -⟩ | ⟨-, hc, g, hg, hgp, rfl⟩ := mem_heatHalved.mp hh
    · exact absurd hp hn
    · exact ⟨hc, g, hg, hgp, rfl, rfl, rfl⟩
  · have hne : g.count / 2 ≠ 0 := by omega
    exact ⟨{ g with count := g.count / 2 }, mem_heatHalved.mpr (.inr ⟨hp, hne, g, hg, hp, rfl⟩), hp, rfl, rfl, rfl⟩
  · rw [mem_heatHalved]
    exact ⟨fun h => h.elim And.right fun h => absurd h.1 hp, fun h => .inl ⟨hp, h⟩⟩

/-- A message of a table that is not let in is counted (R366). -/
theorem Does.of_countAccess {c : Instr} {s : State} {p : Nat} (he : exec c s = .next (countAccess s p)) :
    Does c s [.ctl] fun t => odGet t (0x9200 + p) 4 = sat 0xFFFFFFFF (odGet s (0x9200 + p) 4 + 1) :=
  .of_within he (odGet_odSet_same ..) (countAccess_only (.refl ..) (List.Subset.refl _))

/-- A message that is not let in is counted in its partition, whatever it asks for. -/
theorem onMsg_counted {s : State} {dev : Nat} {m : StateMsg} (h : msgOk s dev m false = false) (hp : m.dstPtn < 32) (act : State → State) :
    onMsg dev m s act false = countAccess s m.dstPtn := by rw [onMsg_refused h, if_pos hp]

end Sys2Proof.Machine

open Sys2Proof Sys2Proof.Machine

/-- Settles O42: each command of the table engine, by the answer that its checks select. -/
theorem tableCommands : Obligations.TableCommands := by
  unfold Obligations.TableCommands
  refine ⟨fun v ptn s hp hgo hok hb => does_tableRecordWrite hp hgo hok hb, fun v ptn s hgo h => .of_tabAnswer (exec_tableRecordWrite_bad hgo h) (by decide),
    fun v ptn s hp hgo hok hb => .of_tabAnswer (exec_tableRecordWrite_busy hp hgo hok hb) (by decide), fun v ptn s hgo => .of_same (exec_tableRecordWrite_idle hgo) rfl,
    ?_, fun dev m s hok h => .of_within (exec_msgLookup_waits hok h) rfl (modTabs_only (.refl ..) (List.Subset.refl _)),
    fun dev m k e s hok hk ha h => does_msgLookup_full hok hk ha h, fun dev m k e s hok hk ha hf hA hB hh => does_msgLookup hok hk ha hf hA hB hh,
    fun dev m l s hok _ hf hk => does_msgPooled hok hf hk, fun dev m a s hok hf => does_msgUpdate_again hok hf,
    fun dev m r s hok ha hu hr => ⟨does_msgUpdate_taken hok ha hu hr, does_msgUpdate_refused hok ha hu hr⟩,
    fun dev m n s hok ha hu hn hs => does_msgUpdate_old hok ha hu hn hs, fun dev m s hok => does_msgUpdateAck hok,
    fun task shard l s hf => ⟨does_lookupResend hf, does_lookupResend_last hf⟩, fun task shard s h => .of_same (exec_lookupResend_none h) rfl,
    fun ptn s h => .of_same (exec_rowHeatAging_none h) rfl, fun ptn s hi ha => does_rowHeatAging hi ha⟩
  intro dev m s h hp
  exact ⟨.of_countAccess (congrArg Host.Outcome.next (onMsg_counted h hp _)), .of_countAccess (congrArg Host.Outcome.next (onMsg_counted h hp _)),
    .of_countAccess (congrArg Host.Outcome.next (onMsg_counted h hp _)), .of_countAccess (congrArg Host.Outcome.next (onMsg_counted h hp _))⟩
end

section
/-! PROOFS. Obligation O26: references, fetches and queries on requests held for other devices (R366, R381, R383, R384, R396, R398). -/

namespace Sys2Proof.Machine
open Sys2Proof

/-! ### An event and the rings (R839, R842) -/

/-- A message to the host leaves the rings and the registers alone. -/
theorem msix_regs (s : State) (fn v : Nat) : (msix s fn v).regs = { s.regs with msixPending := (msix s fn v).regs.msixPending } := by
  unfold msix
  split
  · rfl
  · split <;> rfl

/-- Of the registers a record touches the index and the count of its ring. -/
theorem ringPut_regs (s : State) (ring : Nat) (r : Rec) : (ringPut s ring r).regs = { s.regs with
    ringIndex := cntSet s.regs.ringIndex ring ((ringIx s ring + recEntries r) % 2 ^ 20)
    ringCount := cntSet s.regs.ringCount ring (cnt s.regs.ringCount ring + recEntries r)
    msixPending := (ringPut s ring r).regs.msixPending } := by
  unfold ringPut
  simp only
  split
  · split
    · rw [msix_regs]
      simp
    · simp
  · simp

theorem ringPut_index (s : State) (ring : Nat) (r : Rec) :
    (ringPut s ring r).regs.ringIndex = cntSet s.regs.ringIndex ring ((ringIx s ring + recEntries r) % 2 ^ 20) := by rw [ringPut_regs]

theorem ringPut_count (s : State) (ring : Nat) (r : Rec) :
    (ringPut s ring r).regs.ringCount = cntSet s.regs.ringCount ring (cnt s.regs.ringCount ring + recEntries r) := by rw [ringPut_regs]

theorem ringPut_waiting (s : State) (ring : Nat) (r : Rec) : (ringPut s ring r).regs.waiting = s.regs.waiting := by rw [ringPut_regs]

theorem setInt_regs (s : State) (i : Nat) : (setInt s i).regs.ringIndex = s.regs.ringIndex ∧ (setInt s i).regs.ringCount = s.regs.ringCount ∧
    (setInt s i).regs.waiting = s.regs.waiting ∧ ∀ o, o ≠ 0x400 → getReg (setInt s i) o = getReg s o := by
  have hs : (sameTick s).regs.ringIndex = s.regs.ringIndex ∧ (sameTick s).regs.ringCount = s.regs.ringCount ∧ (sameTick s).regs.waiting = s.regs.waiting := by
    unfold sameTick
    split <;> exact ⟨rfl, rfl, rfl⟩
  obtain ⟨hi, hc, hw⟩ := hs
  have hg (o : Nat) (ho : o ≠ 0x400) (w : Word) : getReg (setReg (sameTick s) 0x400 w) o = getReg s o :=
    (getReg_setReg_other _ _ ho).trans (getReg_of_store (sameTick_store s) o)
  unfold setInt
  extract_lets old s1
  split
  · rw [msix_regs]
    exact ⟨hi, hc, hw, fun o ho => (getReg_of_store (msix_store ..) o).trans (hg o ho _)⟩
  · exact ⟨hi, hc, hw, fun o ho => hg o ho _⟩

/-- Events that change places stay in their ring: what waits for another ring is as it was. -/
theorem filter_orderEvents {get : Nat × Rec → Option Event} {put : Nat × Rec → Event → Nat × Rec} {k : Nat} (hg : ∀ w, (get w).isSome = true → w.1 ≠ k)
    (hp : ∀ w e, (put w e).1 = w.1) (l : List (Nat × Rec)) : (orderEvents get put l).filter (·.1 == k) = l.filter (·.1 == k) := by
  suffices h : ∀ es, (replaceEvents get put l es).filter (·.1 == k) = l.filter (·.1 == k) from h _
  induction l with
  | nil => exact fun _ => rfl
  | cons a l ih =>
    intro es
    unfold replaceEvents
    split
    · next e x es' hga =>
      have hk : (a.1 == k) = false := by simpa using hg a (by simp [hga])
      have hk' : ((put a x).1 == k) = false := by rwa [hp]
      simp only [List.filter_cons, hk, hk', Bool.false_eq_true, if_false, ih]
    · simp only [List.filter_cons, ih]

/-- What an event to one ring leaves of another. -/
structure RingKept (s t : State) (k : Nat) : Prop where
  index : cnt t.regs.ringIndex k = cnt s.regs.ringIndex k
  count : cnt t.regs.ringCount k = cnt s.regs.ringCount k
  waits : ringWaits t k = ringWaits s k

theorem eventTo_getReg (s : State) (ring : Nat) (e : Event) {o : Nat} (ho : o ≠ 0x400) : getReg (eventTo s ring e) o = getReg s o := by
  unfold eventTo
  extract_lets d s1 r s2
  split
  · split
    · exact ((setInt_regs s1 4).2.2.2 o ho)
    · rfl
  · refine getReg_of_store ?_ o
    split
    · rfl
    · exact ringPut_store ..

theorem eventTo_other {s : State} {ring k : Nat} (hk : k ≠ ring) (e : Event) : RingKept s (eventTo s ring e) k := by
  unfold eventTo
  extract_lets d s1 r s2
  split
  · split
    · obtain ⟨hi, hc, hw, -⟩ := setInt_regs s1 4
      exact ⟨congrArg (cnt · k) hi, congrArg (cnt · k) hc, by rw [ringWaits, hw]; rfl⟩
    · exact ⟨rfl, rfl, rfl⟩
  · have horder (u : State) : ringWaits (orderTick u ring) k = ringWaits u k := by
      refine congrArg (fun ws => sumN (List.map (fun w => recEntries w.2) ws)) (filter_orderEvents (get := fun w => if w.1 = ring then tickEvent u w.2 else none)
        (put := fun w e => (w.1, withEvent e w.2)) (fun w hw hwk => ?_) (fun _ _ => rfl) u.regs.waiting)
      rw [if_neg (by omega)] at hw
      cases hw
    split
    · refine ⟨rfl, rfl, (horder _).trans ?_⟩
      simp [ringWaits, s2, hk.symm]
    · have hi : cnt (ringPut s2 ring r).regs.ringIndex k = cnt s.regs.ringIndex k := by rw [ringPut_index, cnt_cntSet_other _ _ hk]; rfl
      have hc : cnt (ringPut s2 ring r).regs.ringCount k = cnt s.regs.ringCount k := by rw [ringPut_count, cnt_cntSet_other _ _ hk]; rfl
      have hw : ringWaits (ringPut s2 ring r) k = ringWaits s k := by rw [ringWaits, ringPut_waiting]; rfl
      exact ⟨hi, hc, (horder _).trans hw⟩

/-- An event to a ring that has room, and for which nothing waits, is one record more. -/
theorem oneMore_eventTo (s : State) (ring : Nat) (e : Event) : oneMore s (eventTo s ring e) ring := by
  intro hf hw hh
  unfold eventTo
  extract_lets d s1 r s2
  rw [if_neg (by omega), hw, hh]
  have hc : cnt (ringPut s2 ring r).regs.ringCount ring = cnt s.regs.ringCount ring + 1 := by rw [ringPut_count, cnt_cntSet_same]; rfl
  exact hc

theorem ringHeld_of {s t : State} (hx : t.px = s.px) (hp : t.ptns = s.ptns) (he : t.eph = s.eph) (ring : Nat) : ringHeld t ring = ringHeld s ring := by
  simp only [ringHeld, dmaHeld, dmaOpen, hostDown, hostLink, hx, hp, he]

theorem ringFree_of {s t : State} {k : Nat} (hi : cnt t.regs.ringIndex k = cnt s.regs.ringIndex k) (h8 : getReg t (k + 8) = getReg s (k + 8))
    (h10 : getReg t (k + 0x10) = getReg s (k + 0x10)) : ringFree t k = ringFree s k := by
  unfold ringFree ringEn ringSize ringIx regFld
  rw [hi, h8, h10]

/-- The PF's event: its ring is the one that an event to that ring leaves. -/
theorem raisePf_regs (s : State) (e : Event) : (raisePf s e).regs = (eventTo s (pfRing 4) e).regs := by
  rw [raisePf, logFault_regs, busEvent_regs]

/-- An event about a partition is one record more in the PF's event ring and in the partition's. -/
theorem raiseBoth_more {s : State} {p : Nat} (e : Event) : RegsUnchanged [0x400] s (raiseBoth s p e) ∧ oneMore s (raiseBoth s p e) (pfRing 4) ∧
    oneMore s (raiseBoth s p e) (winRing p 5) := by
  have hne : winRing p 5 ≠ pfRing 4 := by simp only [winRing, winBase, pfRing]; omega
  have hreg (o : Nat) (ho : o ≠ 0x400) : getReg (raisePf s { e with ptn := some p }) o = getReg s o := by
    rw [getReg_of_store (congrArg Regs.store (raisePf_regs ..)), eventTo_getReg _ _ _ ho]
  have hkept : RingKept s (raisePf s { e with ptn := some p }) (winRing p 5) := by
    obtain ⟨hi, hc, hw⟩ := eventTo_other (s := s) hne { e with ptn := some p }
    have hr := raisePf_regs s { e with ptn := some p }
    exact ⟨by rw [hr, hi], by rw [hr, hc], by rw [← hw, ringWaits, hr]; rfl⟩
  refine ⟨fun o ho => ?_, fun hf hw hh => ?_, fun hf hw hh => ?_⟩
  · have ho' : o ≠ 0x400 := by simpa using ho
    exact (eventTo_getReg _ _ _ ho').trans (hreg o ho')
  · rw [raiseBoth, raisePtn, (eventTo_other hne.symm _).count, raisePf_regs]
    exact oneMore_eventTo s (pfRing 4) _ hf hw hh
  · have h8 : winRing p 5 + 8 ≠ 0x400 := by simp only [winRing, winBase]; omega
    have h10 : winRing p 5 + 0x10 ≠ 0x400 := by simp only [winRing, winBase]; omega
    rw [raiseBoth, raisePtn, oneMore_eventTo _ (winRing p 5) _ (by rwa [ringFree_of hkept.index (hreg _ h8) (hreg _ h10)]) (by rwa [hkept.waits])
      (by rwa [ringHeld_of (raisePf_px _) (raisePf_ptns _) (raisePf_eph _)]), hkept.count]

/-! ### References of pages (R253, R383) -/

/-- A filter that keeps what is looked for does not change what is found. -/
theorem find?_filter_of_keeps {α : Type} {p q : α → Bool} (h : ∀ x, p x = true → q x = true) (l : List α) : (l.filter q).find? p = l.find? p := by
  rw [List.find?_filter]
  congr 1
  funext x
  cases hp : p x with
  | false => simp
  | true => simp [h x hp]

theorem findPage_freePage_other {s : State} {p n q k : Nat} (h : ¬(p = q ∧ n = k)) : findPage (freePage s q k) p n = findPage s p n := by
  unfold freePage
  split
  · rfl
  · next g _ =>
    split
    · extract_lets s1 s2
      have h1 : s1.serve.pages = s.serve.pages := by simp only [s1]; split <;> rfl
      have h2 : s2.serve.pages = s.serve.pages := by
        simp only [s2]
        split
        · exact (pageTabs_pages ..).trans h1
        · exact h1
      refine (find?_filter_of_keeps (fun x hx => ?_) _).trans (findPage_of_pages h2 ..)
      simp only [Bool.and_eq_true, beq_iff_eq] at hx
      obtain ⟨rfl, rfl⟩ := hx
      exact (Bool.not_eq_true' _).mpr (Bool.eq_false_iff.mpr fun hc => h (by simpa using hc))
    · rfl

theorem findPage_dropRef_other {s : State} {p n q k : Nat} (h : ¬(p = q ∧ n = k)) : findPage (dropRef s q k) p n = findPage s p n := by
  unfold dropRef
  split
  · rfl
  · next g _ =>
    split
    · extract_lets s1
      have h1 : s1.serve.pages = s.serve.pages := by simp only [s1]; split <;> rfl
      rw [findPage_freePage_other h]
      exact (findPage_modPage_other (by exact fun _ => ⟨rfl, rfl⟩) h).trans (findPage_of_pages h1 ..)
    · exact findPage_modPage_other (fun _ => ⟨rfl, rfl⟩) h

/-- A reference that is not the last one of its page goes. -/
theorem findPage_dropRef_same {s : State} {p n : Nat} {g : Page} (hg : findPage s p n = some g) (h : 1 < g.refcnt) :
    findPage (dropRef s p n) p n = some { g with refcnt := g.refcnt - 1 } := by
  simp only [dropRef, hg, if_neg (Nat.not_le.mpr h)]
  exact findPage_modPage_of (f := fun g => { g with refcnt := g.refcnt - 1 }) (fun _ => ⟨rfl, rfl⟩) hg

/-- References of pages of a partition are dropped one after the other. -/
theorem findPage_dropRefs_other {p n q : Nat} {l : List Nat} (h : p ≠ q ∨ n ∉ l) (s : State) :
    findPage (l.foldl (fun s k => dropRef s q k) s) p n = findPage s p n := by
  induction l generalizing s with
  | nil => rfl
  | cons k l ih =>
    refine (ih (h.imp_right fun h hn => h (List.mem_cons_of_mem _ hn)) _).trans (findPage_dropRef_other fun ⟨hp, hk⟩ => ?_)
    exact h.elim (· hp) fun h => h (hk ▸ List.mem_cons_self)

theorem findPage_dropRefs_once {p n : Nat} {l : List Nat} {s : State} {g : Page} (hl : l.count n = 1) (hg : findPage s p n = some g) (h : 1 < g.refcnt) :
    findPage (l.foldl (fun s k => dropRef s p k) s) p n = some { g with refcnt := g.refcnt - 1 } := by
  obtain ⟨a, b, rfl⟩ := List.append_of_mem (List.count_pos_iff.mp (by omega : 0 < l.count n))
  rw [List.count_append, List.count_cons_self] at hl
  have ha : n ∉ a := List.count_eq_zero.mp (by omega)
  have hb : n ∉ b := List.count_eq_zero.mp (by omega)
  rw [List.foldl_append, List.foldl_cons, findPage_dropRefs_other (.inr hb)]
  exact findPage_dropRef_same ((findPage_dropRefs_other (.inr ha) s).trans hg) h

/-! ### Requests that other devices hold -/

section
variable {s : State} {dev st : Nat} {m : StateMsg} {r : Req}

/-- The request that a message may act on is the one that it names, in the partition that it goes to. -/
theorem holderOf_some (h : holderOf s m = (st, some r)) : findReq s m.dstHandle = some r ∧ r.ptn = m.dstPtn := by
  unfold holderOf at h
  split at h
  · cases h
  · next r' hr =>
    split at h
    · next hc =>
      cases h
      simp only [Bool.and_eq_true, decide_eq_true_eq] at hc
      exact ⟨hr, hc.1⟩
    · cases h

/-- One remote reference more, of the request and of the pages of its map (R253, R383). -/
def refTaken (s : State) (dev : Nat) (m : StateMsg) (r : Req) : State :=
  (modReq s r.handle fun r => { r with remoteRefs := r.remoteRefs + 1, refSets := r.refSets ++ [(dev, m.srcHandle, r.pageNums)] }).modServe fun w => { w with
    pages := updIf (fun g => g.ptn == r.ptn && r.pageNums.contains g.num) (fun g => { g with refcnt := g.refcnt + 1 }) w.pages }

theorem findPage_refTaken (s : State) (dev : Nat) (m : StateMsg) (r : Req) (p n : Nat) : findPage (refTaken s dev m r) p n =
    (findPage s p n).map fun g => if p = r.ptn ∧ n ∈ r.pageNums then { g with refcnt := g.refcnt + 1 } else g := by
  have hu : findPage (refTaken s dev m r) p n =
      (findPage s p n).map fun g => if g.ptn == r.ptn && r.pageNums.contains g.num then { g with refcnt := g.refcnt + 1 } else g :=
    find?_updIf (by exact fun g _ => rfl) _
  rw [hu]
  cases hg : findPage s p n with
  | none => rfl
  | some g =>
    obtain ⟨-, rfl, rfl⟩ := mem_of_findPage hg
    simp

theorem does_msgRef (hok : msgOk s dev m true = true) (hh : holderOf s m = (st, some r)) : Does (.msgRef dev m) s [.out, .serve] fun t =>
    (findReq t m.dstHandle).map (·.remoteRefs) = some (r.remoteRefs + 1) ∧ sentAnswer s t dev 3 stOK ∧
    ∀ p n, findPage t p n = (findPage s p n).map fun g => if p = r.ptn ∧ n ∈ r.pageNums then { g with refcnt := g.refcnt + 1 } else g := by
  obtain ⟨hr, -⟩ := holderOf_some hh
  have he : exec (.msgRef dev m) s = .next (ackMsg (refTaken s dev m r) dev m 6 stOK m.dstHandle m.srcHandle []) := by
    simp only [exec_msgRef, execMsgRef, onMsg_ok hok, hh]
    rfl
  have ht := ackMsg_serve (refTaken s dev m r) dev m 6 stOK m.dstHandle m.srcHandle []
  refine .of_within he ⟨?_, sentAnswer_ackMsg (s := s) (u := refTaken s dev m r) rfl rfl rfl (not_isolated_of_msgOk hok) .., fun p n => ?_⟩
    (ackMsg_only (modServe_only (modReq_only (.refl ..) (by decide)) (by decide)) (by decide))
  · rw [findReq_of_reqs (congrArg Serve.reqs ht), ← findReq_handle hr]
    exact congrArg (Option.map Req.remoteRefs) (findReq_modReq_of (s := s)
      (f := fun r => { r with remoteRefs := r.remoteRefs + 1, refSets := r.refSets ++ [(dev, m.srcHandle, r.pageNums)] }) (by rw [findReq_handle hr, hr]) fun _ => rfl)
  · rw [findPage_of_pages (congrArg Serve.pages ht), findPage_refTaken]

/-- The remote references that a RELEASE takes back. -/
abbrev refReleased (s : State) (dev : Nat) (m : StateMsg) (r : Req) : State := takeRefs s r 1 (refOf r dev m.srcHandle)

theorem findReq_takeRefs {h : Nat} (hr : findReq s h = some r) (n : Nat) (sets : List (Nat × Nat × List Nat)) :
    (findReq (takeRefs s r n sets) h).map (·.remoteRefs) = some (r.remoteRefs - n) := by
  rw [takeRefs, findReq_of_reqs (dropSets_pagesOnly ..).reqs, findReq_handle hr,
    findReq_modReq_of (f := fun r => { r with remoteRefs := r.remoteRefs - n, refSets := sets.foldl (fun l x => l.erase x) r.refSets }) hr fun _ => rfl]
  rfl

/-- Without a DROP that waits, a RELEASE takes its references back and is answered. -/
theorem exec_msgRelease_one (hok : msgOk s dev m true = true) (hh : holderOf s m = (st, some r)) (hn : r.remoteRefs ≠ 0) (hd : r.dropPending = false) :
    exec (.msgRelease dev m) s = .next (ackMsg (refReleased s dev m r) dev m 7 stOK m.dstHandle m.srcHandle []) := by
  simp only [exec_msgRelease, execMsgRelease, onMsg_ok hok, hh, hn, hd, Bool.false_and, Bool.false_eq_true, if_false]
  split <;> rfl

theorem does_msgRelease (hok : msgOk s dev m true = true) (hh : holderOf s m = (st, some r)) (hn : r.remoteRefs ≠ 0) (hd : r.dropPending = false) :
    Does (.msgRelease dev m) s [.out, .mem, .serve] fun t => (findReq t m.dstHandle).map (·.remoteRefs) = some (r.remoteRefs - 1) ∧ sentAnswer s t dev 3 stOK ∧
      ∀ p n g, findPage s p n = some g →
        (p ≠ r.ptn ∨ (∀ x ∈ refOf r dev m.srcHandle, n ∉ x.2.2) → findPage t p n = some g) ∧
        (∀ x, p = r.ptn → refOf r dev m.srcHandle = [x] → x.2.2.count n = 1 → 1 < g.refcnt → findPage t p n = some { g with refcnt := g.refcnt - 1 }) := by
  obtain ⟨hr, -⟩ := holderOf_some hh
  have hw : Within [.mem, .serve] s (refReleased s dev m r) := takeRefs_only (.refl ..) (List.Subset.refl _)
  have ht := ackMsg_serve (refReleased s dev m r) dev m 7 stOK m.dstHandle m.srcHandle []
  refine .of_within (exec_msgRelease_one hok hh hn hd) ⟨?_, ?_, fun p n g hg => ⟨fun h => ?_, fun x hp hx hc h1 => ?_⟩⟩ (ackMsg_only (hw.mono (by decide)) (by decide))
  · rw [findReq_of_reqs (congrArg Serve.reqs ht), findReq_takeRefs hr]
  · exact sentAnswer_ackMsg (hw.only.keeps .out (by decide)) (hw.only.keeps .ctl (by decide)) (hw.only.keeps .ptns (by decide)) (not_isolated_of_msgOk hok) ..
  · rw [findPage_of_pages (congrArg Serve.pages ht)]
    refine (findPage_dropRefs_other (h.imp_right fun h hm => ?_) _).trans hg
    obtain ⟨l, hl, hnl⟩ := List.mem_flatten.mp hm
    obtain ⟨x, hx, rfl⟩ := List.mem_map.mp hl
    exact h x hx hnl
  · rw [findPage_of_pages (congrArg Serve.pages ht), refReleased, hx, hp]
    refine findPage_dropRefs_once (l := (([x] : List (Nat × Nat × List Nat)).map (·.2.2)).flatten) (by simpa using hc) ?_ h1
    exact hp ▸ hg

/-- A RELEASE too many is reported, and answered (R384). -/
theorem does_msgRelease_none (hok : msgOk s dev m true = true) (hh : holderOf s m = (st, some r)) (h0 : r.remoteRefs = 0) :
    Does (.msgRelease dev m) s [.out, .regs, .ctl, .mgt, .alm, .tel] fun t => RegsUnchanged [0x400] s t ∧ oneMore s t (pfRing 4) ∧ oneMore s t (winRing r.ptn 5) := by
  have he : exec (.msgRelease dev m) s = .next (ackMsg (raiseBoth s r.ptn { cls := 4, code := 4, payload := [r.handle, dev] }) dev m 7 stOK m.dstHandle m.srcHandle []) := by
    simp only [exec_msgRelease, execMsgRelease, onMsg_ok hok, hh, h0, if_true]
  have hw : Within [.out, .regs, .ctl, .mgt, .alm, .tel] s (raiseBoth s r.ptn { cls := 4, code := 4, payload := [r.handle, dev] }) := raiseBoth_only (.refl ..) (by decide)
  have hk (u : State) : (ackMsg u dev m 7 stOK m.dstHandle m.srcHandle []).regs = u.regs := (ackMsg_only (.refl [.out] u) (List.Subset.refl _)).only.keeps .regs (by decide)
  obtain ⟨hreg, hpf, hptn⟩ := raiseBoth_more (s := s) (p := r.ptn) { cls := 4, code := 4, payload := [r.handle, dev] }
  refine .of_within he ⟨fun o ho => ?_, fun hf hw hh => ?_, fun hf hw hh => ?_⟩ (ackMsg_only hw (by decide))
  · exact (getReg_of_store (congrArg Regs.store (hk _)) o).trans (hreg o ho)
  · rw [hk]; exact hpf hf hw hh
  · rw [hk]; exact hptn hf hw hh

end

/-! ### Fetches (R381) -/

/-- A page that a move takes up joins those that it has still to send; the requests are as they were. -/
theorem carryPage_of {s : State} {id n : Nat} {m : Move} {g : Page} (hm : findMove s id = some m) (hg : findPage s m.ptn n = some g) :
    (∃ fp, findMove (carryPage s id n) id = some { m with todo := m.todo ++ [n], farPins := fp }) ∧
      ∀ p k, (findPage (carryPage s id n) p k).isSome = (findPage s p k).isSome := by
  simp only [carryPage, hm, hg]
  split
  · refine ⟨⟨m.farPins, ?_⟩, fun _ _ => rfl⟩
    exact findMove_modMove_of (f := fun m => { m with todo := m.todo ++ [n] }) hm fun _ => rfl
  · refine ⟨⟨if g.farValid then m.farPins ++ [n] else m.farPins, ?_⟩, fun p k => ?_⟩
    · have h1 : findMove (modMove (modPage s m.ptn n fun g => pinCopy { g with state := if g.state = .sealed then .inTransit else g.state } g.farValid true) id
          fun m => if g.farValid then { m with farPins := m.farPins ++ [n] } else m) id = some (if g.farValid then { m with farPins := m.farPins ++ [n] } else m) :=
        findMove_modMove_of (f := fun m => if g.farValid then { m with farPins := m.farPins ++ [n] } else m) hm fun _ => by split <;> rfl
      refine (findMove_modMove_of (f := fun m => { m with todo := m.todo ++ [n] }) h1 fun _ => rfl).trans ?_
      split <;> rfl
    · refine (congrArg Option.isSome (findPage_modPage (s := s) (p := m.ptn) (n := n)
        (f := fun g => pinCopy { g with state := if g.state = .sealed then .inTransit else g.state } g.farValid true) (fun g => ?_) p k)).trans (Option.isSome_map ..)
      unfold pinCopy
      split <;> exact ⟨rfl, rfl⟩

theorem carryPage_reqs (s : State) (id n : Nat) : (carryPage s id n).serve.reqs = s.serve.reqs := by
  unfold carryPage
  split
  · rfl
  · split
    · rfl
    · split <;> rfl

/-- Every page of a list that has a record is among those that the move has still to send. -/
theorem findMove_carryPages {id : Nat} (l : List Nat) {s : State} {m : Move} (hm : findMove s id = some m) :
    ∃ todo fp, findMove (l.foldl (fun s n => carryPage s id n) s) id = some { m with todo := todo, farPins := fp } ∧
      ∀ n, n ∈ m.todo ∨ (n ∈ l ∧ (findPage s m.ptn n).isSome = true) → n ∈ todo := by
  induction l generalizing s m with
  | nil => exact ⟨m.todo, m.farPins, hm, fun n h => h.resolve_right (by simp)⟩
  | cons k l ih =>
    cases hg : findPage s m.ptn k with
    | none =>
      have hc : carryPage s id k = s := by simp only [carryPage, hm, hg]
      rw [List.foldl_cons, hc]
      obtain ⟨todo, fp, h1, h2⟩ := ih hm
      refine ⟨todo, fp, h1, fun n h => h2 n (h.imp_right fun ⟨hn, hs⟩ => ⟨?_, hs⟩)⟩
      obtain rfl | hn := List.mem_cons.mp hn
      · simp [hg] at hs
      · exact hn
    | some g =>
      obtain ⟨⟨fp1, hm1⟩, hp⟩ := carryPage_of hm hg
      obtain ⟨todo, fp, h1, h2⟩ := ih hm1
      refine ⟨todo, fp, h1, fun n h => h2 n ?_⟩
      obtain h | ⟨hn, hs⟩ := h
      · exact .inl (List.mem_append_left _ h)
      · obtain rfl | hn := List.mem_cons.mp hn
        · exact .inl (List.mem_append_right _ (List.mem_singleton_self _))
        · exact .inr ⟨hn, (hp ..).trans hs⟩

/-- A FETCH whose pages are still to be sent goes no further. -/
theorem progressMove_fetch {s : State} {id : Nat} {m : Move} {r : Req} (hm : findMove s id = some m) (hr : findReq s m.handle = some r) (hs : m.streaming = false)
    (hv : m.verb = 8) (ht : m.todo ≠ []) : progressMove s id = s := by
  have hne : m.todo.isEmpty = false := by simpa using ht
  simp [progressMove, hm, hr, hs, hv, hne]

section
variable {s : State} {dev st : Nat} {m : StateMsg} {r : Req}

/-- The groups that a FETCH names. -/
abbrev fetchGroups (m : StateMsg) : List Group := bodyGroups m (match m.body.head? with | some (.raw b) => b.length / 16 | _ => 0)

/-- The move of a FETCH (R381). -/
def fetchMove (dev : Nat) (m : StateMsg) (r : Req) : Move :=
  { ptn := r.ptn, handle := r.handle, verb := 8, dest := dev, destPtn := m.srcPtn, target := 2, storeHandle := m.srcHandle, epoch := m.epoch, tag := m.tag }

/-- The pages that a FETCH takes up. -/
def fetched (s : State) (m : StateMsg) (r : Req) : List Nat :=
  ((pagesOf s r).filter fun g => (g.state == .sealed || g.state == .inTransit) && planned (fetchGroups m) g.position).map (·.num)

/-- The pages of a FETCH wait for their transfers. -/
def fetchBegun (s : State) (dev : Nat) (m : StateMsg) (r : Req) : State :=
  (fetched s m r).foldl (fun u n => carryPage u s.serve.nextMove n) (addMove s (fetchMove dev m r))

theorem exec_msgFetch_held (hok : msgOk s dev m true = true) (hh : holderOf s m = (st, some r)) :
    exec (.msgFetch dev m) s = .next (progressMove (fetchBegun s dev m r) s.serve.nextMove) := by
  simp only [exec_msgFetch, execMsgFetch, onMsg_ok hok, hh]
  rfl

theorem mem_fetched {g : Page} (hg : g ∈ pagesOf s r) (hs : g.state = .sealed ∨ g.state = .inTransit) (hp : planned (fetchGroups m) g.position = true) :
    g.num ∈ fetched s m r ∧ (findPage s r.ptn g.num).isSome = true := by
  have hc : (g.state == .sealed || g.state == .inTransit) = true := by
    obtain h | h := hs <;> rw [h] <;> rfl
  refine ⟨List.mem_map_of_mem (List.mem_filter.mpr ⟨hg, by rw [hc, hp]; rfl⟩), List.find?_isSome.mpr ⟨g, (List.mem_filter.mp hg).1, ?_⟩⟩
  have hq := (List.mem_filter.mp hg).2
  simp only [Bool.and_eq_true] at hq
  simp [beq_iff_eq.mp hq.1]

theorem does_msgFetch (hok : msgOk s dev m true = true) (hh : holderOf s m = (st, some r)) (hn : findMove s s.serve.nextMove = none)
    (he : ∃ g ∈ pagesOf s r, g.state = .sealed ∧ planned (fetchGroups m) g.position = true) :
    Does (.msgFetch dev m) s [.out, .regs, .work, .mem, .serve, .ctl, .tel] fun t => t.serve.reqs = s.serve.reqs ∧
      ∃ x ∈ t.serve.moves, x.verb = 8 ∧ x.handle = r.handle ∧ x.dest = dev ∧ x.storeHandle = m.srcHandle ∧
        ∀ g ∈ pagesOf s r, g.state = .sealed ∨ g.state = .inTransit → planned (fetchGroups m) g.position = true → g.num ∈ x.todo := by
  obtain ⟨hr, -⟩ := holderOf_some hh
  have hreqs : (fetchBegun s dev m r).serve.reqs = s.serve.reqs :=
    foldl_keep (fun u => u.serve.reqs) (fun u n => carryPage u s.serve.nextMove n) (fun u n => carryPage_reqs ..) _ (addMove s (fetchMove dev m r))
  obtain ⟨todo, fp, hm, ht⟩ := findMove_carryPages (fetched s m r) (findMove_addMove hn (fetchMove dev m r))
  have hall (g : Page) (hg : g ∈ pagesOf s r) (hs : g.state = .sealed ∨ g.state = .inTransit) (hp : planned (fetchGroups m) g.position = true) : g.num ∈ todo :=
    ht _ (.inr (mem_fetched hg hs hp))
  have hr' : findReq (fetchBegun s dev m r) r.handle = some r := by rw [findReq_of_reqs hreqs, findReq_handle hr, hr]
  have hstop : progressMove (fetchBegun s dev m r) s.serve.nextMove = fetchBegun s dev m r := by
    obtain ⟨g, hg, hs, hp⟩ := he
    exact progressMove_fetch hm hr' rfl rfl (List.ne_nil_of_mem (hall g hg (.inl hs) hp))
  refine .of_only ((exec_msgFetch_held hok hh).trans (congrArg _ hstop)) (execMsgFetch_only (.refl ..) (List.Subset.refl _))
    ⟨hreqs, _, List.mem_of_find?_eq_some hm, rfl, rfl, rfl, rfl, hall⟩

/-! ### Queries (R396, R398) -/

/-- The queries that wait for the ATTEND entries of a partition. -/
abbrev attendWait (s : State) (p : Nat) : List HolderQuery := s.serve.held.filter fun q => q.ptn == p && !q.groups.isEmpty

/-- A QUERY in the ATTEND wait of its partition (R396). -/
def queryHeld (s : State) (dev : Nat) (m : StateMsg) (r : Req) : HolderQuery :=
  { ptn := r.ptn, handle := r.handle, dev := dev, srcPtn := m.srcPtn, srcHandle := m.srcHandle, qid := m.qid, epoch := m.epoch, layer := bits m.args 0 8,
    groups := (bodyGroups m (bits m.args 112 8)).map fun g => (g.first, g.log2), bf16 := bit m.args 36, args := m.args,
    body := match m.body with | [_, .raw b] => b | _ => [], waitNs := now s }

theorem does_msgQuery (hok : msgOk s dev m true = true) (hh : holderOf s m = (st, some r)) (hl : (attendWait s r.ptn).length < 4096) (hq : queryOk s m r.layers = true) :
    Does (.msgQuery dev m) s [.serve] fun t => t.serve.reqs = s.serve.reqs ∧ t.serve.held.length = s.serve.held.length + 1 ∧
      (t.serve.held.getLast?).map (fun h => (h.ptn, h.handle, h.dev, h.qid, h.srcHandle)) = some (r.ptn, r.handle, dev, m.qid, m.srcHandle) := by
  have he : exec (.msgQuery dev m) s = .next (s.modServe fun w => { w with held := w.held ++ [queryHeld s dev m r] }) := by
    simp only [exec_msgQuery, execMsgQuery, onMsg_ok hok, hh, Nat.not_le.mpr hl, hq, Bool.not_true, Bool.false_eq_true, if_false]
    rfl
  refine .of_within he ⟨rfl, List.length_append .., ?_⟩ (modServe_only (.refl ..) (List.Subset.refl _))
  rw [State.modServe_serve, List.getLast?_concat]
  rfl

/-- The PARTIAL that refuses a QUERY (R398). -/
def queryRefused (s : State) (dev : Nat) (m : StateMsg) (st : Nat) : State :=
  sendState s dev 0x11 { srcPtn := m.dstPtn, dstPtn := m.srcPtn, srcHandle := m.dstHandle, dstHandle := m.srcHandle, epoch := m.epoch, status := st, qid := m.qid }

theorem Does.of_queryRefused {c : Instr} {st : Nat} (hok : msgOk s dev m true = true) (he : exec c s = .next (queryRefused s dev m st)) :
    Does c s [.out] fun t => sentAnswer s t dev 0x11 st :=
  .of_within he (sentAnswer_sendState
    (m := { srcPtn := m.dstPtn, dstPtn := m.srcPtn, srcHandle := m.dstHandle, dstHandle := m.srcHandle, epoch := m.epoch, status := st, qid := m.qid })
    rfl rfl rfl (not_isolated_of_msgOk hok) ..) (sendState_only (.refl ..) (List.Subset.refl _))

theorem exec_msgQuery_busy (hok : msgOk s dev m true = true) (hh : holderOf s m = (st, some r)) (hl : 4096 ≤ (attendWait s r.ptn).length) :
    exec (.msgQuery dev m) s = .next (queryRefused s dev m stBUSY) := by
  simp only [exec_msgQuery, execMsgQuery, onMsg_ok hok, hh, hl, if_true]
  rfl

theorem exec_msgQuery_format (hok : msgOk s dev m true = true) (hh : holderOf s m = (st, some r)) (hl : (attendWait s r.ptn).length < 4096)
    (hq : queryOk s m r.layers = false) : exec (.msgQuery dev m) s = .next (queryRefused s dev m stFORMAT) := by
  simp only [exec_msgQuery, execMsgQuery, onMsg_ok hok, hh, Nat.not_le.mpr hl, hq, Bool.not_false, if_true, if_false]
  rfl

/-! ### Messages that name nothing held, and messages that are not let in (R366, R398) -/

theorem Does.of_ackMsg {c : Instr} {op src dst : Nat} {items : List Item} (hok : msgOk s dev m true = true)
    (he : exec c s = .next (ackMsg s dev m op st src dst items)) : Does c s [.out] fun t => sentAnswer s t dev 3 st :=
  .of_within he (sentAnswer_ackMsg rfl rfl rfl (not_isolated_of_msgOk hok) ..) (ackMsg_only (.refl ..) (List.Subset.refl _))

theorem does_unheld (hok : msgOk s dev m true = true) (hh : holderOf s m = (st, none)) :
    Does (.msgRef dev m) s [.out] (fun t => sentAnswer s t dev 3 st) ∧ Does (.msgRelease dev m) s [.out] (fun t => sentAnswer s t dev 3 st) ∧
    Does (.msgQuery dev m) s [.out] (fun t => sentAnswer s t dev 0x11 st) ∧ Does (.msgFetch dev m) s [] fun t => t = s := by
  refine ⟨.of_ackMsg (op := 6) (src := m.dstHandle) (dst := m.srcHandle) (items := []) hok ?_,
    .of_ackMsg (op := 7) (src := m.dstHandle) (dst := m.srcHandle) (items := []) hok ?_, .of_queryRefused hok ?_, .of_same ?_ rfl⟩
  · simp only [exec_msgRef, execMsgRef, onMsg_ok hok, hh]
  · simp only [exec_msgRelease, execMsgRelease, onMsg_ok hok, hh]
  · simp only [exec_msgQuery, execMsgQuery, onMsg_ok hok, hh, queryRefused]
  · simp only [exec_msgFetch, execMsgFetch, onMsg_ok hok, hh]

/-- A message that is not let in is counted, and does nothing else. -/
theorem Does.of_refused {c : Instr} {act : State → State} (h : msgOk s dev m true = false) (he : exec c s = .next (onMsg dev m s act true)) :
    Does c s [.ctl] fun t => OdUnchanged [(0x9200 + m.dstPtn, 4)] s t := by
  rw [onMsg_refused h] at he
  refine .of_within he ?_ (refused_only ..)
  split
  · exact odCount_unchanged (List.mem_singleton_self _) s 1
  · exact .of_od rfl

end

end Sys2Proof.Machine

open Sys2Proof Sys2Proof.Machine

/-- Settles O26: each message by the request that it names, and its answer; one that is not let in by its count alone. -/
theorem heldRequests : Obligations.HeldRequests := by
  unfold Obligations.HeldRequests
  refine ⟨fun dev m st r s hok hh => does_msgRef hok hh, fun dev m st r s hok hh hn hd => does_msgRelease hok hh hn hd,
    fun dev m st r s hok hh h0 => does_msgRelease_none hok hh h0, fun dev m st r s hok hh hn he => does_msgFetch hok hh hn he,
    fun dev m st r s hok hh hl hq => does_msgQuery hok hh hl hq,
    fun dev m st r s hok hh => ⟨fun hl => .of_queryRefused hok (exec_msgQuery_busy hok hh hl), fun hl hq => .of_queryRefused hok (exec_msgQuery_format hok hh hl hq)⟩,
    fun dev m st s hok hh => does_unheld hok hh, fun dev m s h => ?_⟩
  exact ⟨.of_refused h rfl, .of_refused h rfl, .of_refused h rfl, .of_refused h rfl, .of_refused h rfl, .of_refused h rfl, .of_refused h rfl, .of_refused h rfl⟩
end

section
/-! PROOFS. Obligation O24: installs on the device that receives them (R362, R367-R369, R371-R374, R377). -/

namespace Sys2Proof.Machine
open Sys2Proof

/-! ### Receptions (R377) -/

/-- The reception has left the list; its pages are dropped one after the other. -/
theorem endReception_of {s : State} {p dev h ep : Nat} {r : Reception} (hr : findReception s p dev h ep = some r) (keep : List Nat) :
    PagesOnly (s.modServe fun w => { w with receptions := w.receptions.filter fun x => !isReception p dev h ep x }) (endReception s p dev h ep keep) := by
  simp only [endReception, hr]
  exact .foldl (fun s n => dropRef_pagesOnly s p n) _ _

theorem endReception_reqs (s : State) (p dev h ep : Nat) (keep : List Nat) : (endReception s p dev h ep keep).serve.reqs = s.serve.reqs := by
  cases hr : findReception s p dev h ep with
  | none => simp only [endReception, hr]
  | some r => exact (endReception_of hr keep).reqs

/-- A reception that has ended is found no more. -/
theorem findReception_endReception (s : State) (p dev h ep : Nat) (keep : List Nat) : findReception (endReception s p dev h ep keep) p dev h ep = none := by
  cases hr : findReception s p dev h ep with
  | none => simp only [endReception, hr]
  | some r =>
    rw [findReception_of_receptions (endReception_of hr keep).receptions, findReception, List.find?_eq_none]
    intro x hx
    simpa using (List.mem_filter.mp hx).2

theorem stopPromotions_movesOnly (s : State) (h : Nat) : MovesOnly s (stopPromotions s h) := by
  unfold stopPromotions
  extract_lets mine
  refine .foldl (fun s m => ?_) mine s
  obtain ⟨id, p, n⟩ := m
  dsimp only
  split
  · exact .refl s
  · exact (dropXfer_movesOnly s id).trans (.of_pages ((modPage_pagesOnly ..).trans (freePage_pagesOnly ..)))

theorem dropMap_pagesOnly (s : State) (r : Req) : PagesOnly s (dropMap s r) := by
  unfold dropMap
  extract_lets s1
  have h1 : PagesOnly s s1 := by
    simp only [s1]
    split
    · exact pinAll_pagesOnly ..
    · exact .refl s
  exact (h1.trans (.foldl (fun s n => dropRef_pagesOnly s r.ptn n) _ _)).trans (dropSets_pagesOnly ..)

/-- What a request holds is returned without a change of any reception. -/
theorem clearReq_receptions (s : State) (h : Nat) : (clearReq s h).serve.receptions = s.serve.receptions := by
  unfold clearReq
  split
  · rfl
  · next r _ =>
    extract_lets s1 s2 s2a s3
    have h1 : s1.serve.receptions = s.serve.receptions :=
      (((MovesOnly.foldl endMove_movesOnly _ s).trans (stopPromotions_movesOnly ..)).trans (.of_pages (dropMap_pagesOnly ..))).receptions
    have h2 : s2a.serve.receptions = s1.serve.receptions := by simp only [s2a]; split <;> rfl
    have h3 : s3.serve.receptions = s2a.serve.receptions := by simp only [s3]; split <;> rfl
    exact h3.trans (h2.trans h1)

theorem freeReq_receptions (s : State) (h : Nat) : (freeReq s h).serve.receptions = s.serve.receptions := by
  refine Eq.trans ?_ (clearReq_receptions s h)
  unfold freeReq leaveSlot
  split <;> rfl

/-! ### Pages (R362, R377) -/

theorem length_filterMap_eq {α β : Type} {f : α → Option β} {p : α → Bool} (h : ∀ a, (f a).isSome = p a) (l : List α) :
    (l.filterMap f).length = (l.filter p).length := by
  induction l with
  | nil => rfl
  | cons a l ih =>
    have ha := h a
    cases hf : f a with
    | none => rw [hf] at ha; simp [hf, ← ha, ih]
    | some b => rw [hf] at ha; simp [hf, ← ha, ih]

/-- A page transfer for each page of a message (R309, R360). -/
theorem length_pagesApart (m : StateMsg) : (pagesApart m).length = (m.body.filter fun i => match i with | .page .. => true | _ => false).length :=
  length_filterMap_eq (fun i => by cases i <;> rfl) m.body

section
variable {s : State} {dev : Nat} {m : StateMsg}

/-- Whether pages are for a request that fetched them, or for a reception that stands. -/
abbrev pagesKnown (s : State) (dev : Nat) (m : StateMsg) : Bool := (findReq s m.dstHandle).isSome || (findReception s m.dstPtn dev m.srcHandle m.epoch).isSome

/-- The reception that pages go to is noted, or opened. -/
def receptionNoted (s : State) (dev : Nat) (m : StateMsg) : State :=
  if pagesKnown s dev m then s.modServe fun w => { w with receptions := updIf (isReception m.dstPtn dev m.srcHandle m.epoch) (fun r => { r with last := now s }) w.receptions }
  else s.modServe fun w => { w with receptions := w.receptions ++ [{ ptn := m.dstPtn, dev := dev, handle := m.srcHandle, epoch := m.epoch, last := now s }] }

/-- The tiles of the pages of a message. -/
def bodyTiles (m : StateMsg) : Nat := sumN (m.body.map fun i => match i with | .page _ b _ => cdiv b.length 4096 | _ => 0)

/-- The pages wait for their mover. -/
def pagesWait (s : State) (dev : Nat) (m : StateMsg) : State :=
  (pagesApart m).foldl (fun u y => addXfer u m.dstPtn 2 (bodyTiles y) (.receive dev y)) (receptionNoted s dev m)

theorem receptionNoted_known (s : State) (dev : Nat) (m : StateMsg) :
    (findReq s m.dstHandle).isSome = true ∨ (findReception (receptionNoted s dev m) m.dstPtn dev m.srcHandle m.epoch).isSome = true := by
  unfold receptionNoted
  split
  · next h =>
    refine ((Bool.or_eq_true _ _).mp h).imp_right fun h => ?_
    have hu : findReception (s.modServe fun w => { w with receptions := updIf (isReception m.dstPtn dev m.srcHandle m.epoch) (fun r => { r with last := now s }) w.receptions })
        m.dstPtn dev m.srcHandle m.epoch = (findReception s m.dstPtn dev m.srcHandle m.epoch).map fun r => { r with last := now s } :=
      find?_updIf_self (by exact fun r hr => hr) _
    rw [hu, Option.isSome_map]
    exact h
  · refine .inr (List.find?_isSome.mpr ⟨_, List.mem_append_right _ (List.mem_singleton_self _), ?_⟩)
    simp [isReception]

theorem receptionNoted_rest (s : State) (dev : Nat) (m : StateMsg) : (receptionNoted s dev m).serve.reqs = s.serve.reqs ∧ (receptionNoted s dev m).serve.xfers = s.serve.xfers := by
  unfold receptionNoted
  split <;> exact ⟨rfl, rfl⟩

theorem receptionNoted_only (s : State) (dev : Nat) (m : StateMsg) : Within [.serve] s (receptionNoted s dev m) := by
  unfold receptionNoted
  split
  · exact modServe_only (.refl ..) (List.Subset.refl _)
  · exact modServe_only (.refl ..) (List.Subset.refl _)

theorem does_msgPages (hok : msgOk s dev m true = true)
    (hroom : (findReq s m.dstHandle).isSome = true ∨ (findReception s m.dstPtn dev m.srcHandle m.epoch).isSome = true ∨
      (s.serve.receptions.filter (·.ptn == m.dstPtn)).length < 4096) : Does (.msgPages dev m) s [.serve] fun t =>
      (∀ y ∈ pagesApart m, ∃ x ∈ t.serve.xfers, x.what = .receive dev y ∧ x.kind = 2 ∧ x.ptn = m.dstPtn) ∧
      t.serve.xfers.length = s.serve.xfers.length + (m.body.filter fun i => match i with | .page .. => true | _ => false).length ∧
      ((findReq s m.dstHandle).isSome = true ∨ (findReception t m.dstPtn dev m.srcHandle m.epoch).isSome = true) ∧ t.serve.reqs = s.serve.reqs := by
  have hc : ¬(!pagesKnown s dev m && decide (4096 ≤ (s.serve.receptions.filter (·.ptn == m.dstPtn)).length)) = true := by
    obtain h | h | h := hroom
    · simp [pagesKnown, h]
    · simp [pagesKnown, h]
    · simp [Nat.not_le.mpr h]
  have he : exec (.msgPages dev m) s = .next (pagesWait s dev m) := by
    rw [exec_msgPages, execMsgPages, onMsg_ok hok]
    exact congrArg Host.Outcome.next (if_neg hc)
  obtain ⟨xs, n, hs, hx⟩ := foldl_addXfer (fun _ => m.dstPtn) (fun _ => 2) (fun _ y => bodyTiles y) (fun y => .receive dev y) (pagesApart m) (receptionNoted s dev m)
  obtain ⟨hreqs, hxfers⟩ := receptionNoted_rest s dev m
  have hser : (pagesWait s dev m).serve = { (receptionNoted s dev m).serve with xfers := (receptionNoted s dev m).serve.xfers ++ xs, nextXfer := n } := hs
  refine .of_within he ?_ (foldl_only (receptionNoted_only ..) fun _ _ h => addXfer_only h (List.Subset.refl _))
  rw [findReception_of_receptions (t := pagesWait s dev m) (s := receptionNoted s dev m) (by rw [hser]), hser]
  refine ⟨fun y hy => ?_, ?_, receptionNoted_known s dev m, hreqs⟩
  · obtain ⟨x, hm, hj⟩ := exists_of_jobs hx hy
    exact ⟨x, List.mem_append_right _ hm, congrArg Prod.fst hj, congrArg (fun j => j.2.1) hj, congrArg (fun j => j.2.2) hj⟩
  · have hl : xs.length = (pagesApart m).length := by simpa using congrArg List.length hx
    simp only [List.length_append, hxfers, hl, length_pagesApart]

theorem does_msgPages_busy (hok : msgOk s dev m true = true) (hr : findReq s m.dstHandle = none) (hc : findReception s m.dstPtn dev m.srcHandle m.epoch = none)
    (hn : 4096 ≤ (s.serve.receptions.filter (·.ptn == m.dstPtn)).length) : Does (.msgPages dev m) s [.out] fun t => sentAnswer s t dev 3 stBUSY := by
  have hb : (!pagesKnown s dev m && decide (4096 ≤ (s.serve.receptions.filter (·.ptn == m.dstPtn)).length)) = true := by simp [pagesKnown, hr, hc, hn]
  have he : exec (.msgPages dev m) s = .next (ackMsg s dev m 2 stBUSY 0xFFFFFFFF m.srcHandle
      (m.body.filterMap fun i => match i with | .page d _ _ => some (.ack (pdLayer d) (pdPos d) false) | _ => none)) := by
    rw [exec_msgPages, execMsgPages, onMsg_ok hok]
    exact congrArg Host.Outcome.next (if_pos hb)
  exact .of_within he (sentAnswer_ackMsg rfl rfl rfl (not_isolated_of_msgOk hok) ..) (ackMsg_only (.refl ..) (List.Subset.refl _))

/-! ### COMMIT and ABORT (R368, R369, R373, R374) -/

theorem moveRec_serve (s : State) (m : Move) (st peer peerHandle epoch : Nat) : (moveRec s m st peer peerHandle epoch).serve = s.serve :=
  (moveRec_only (.refl [.out, .regs, .tel] s) (List.Subset.refl _)).only.keeps .serve (by decide)

/-- A COMMIT writes the completion and releases the request; the word that its REFs stand is owed where it has holders (R369, R386). -/
def released (s : State) (dev : Nat) (r : Req) (i : Install) : State :=
  modReq (moveRec s { ptn := r.ptn, handle := r.handle, verb := 8, src := TaskSrc.window r.ptn, tag := 0, pages := r.pageNums.length } stOK dev i.handle r.epoch)
    r.handle fun r' => { r' with mverb := 0, install := if (holdersOf r.planGroups).isEmpty then none else some { i with done := true } }

theorem findReq_released {s : State} {h : Nat} {r : Req} (hr : findReq s h = some r) (dev : Nat) (i : Install) : findReq (released s dev r i) h =
    some { r with mverb := 0, install := if (holdersOf r.planGroups).isEmpty then none else some { i with done := true } } := by
  rw [released, findReq_handle hr]
  exact findReq_modReq_of (f := fun r' => { r' with mverb := 0, install := if (holdersOf r.planGroups).isEmpty then none else some { i with done := true } })
    ((findReq_of_reqs (congrArg Serve.reqs (moveRec_serve ..)) h).trans hr) fun _ => rfl

theorem released_pages (s : State) (dev : Nat) (r : Req) (i : Install) : (released s dev r i).serve.pages = s.serve.pages := by
  simp only [released, modReq, State.modServe_serve, moveRec_serve]

theorem does_msgCommit {r : Req} {i : Install} (hok : msgOk s dev m true = true) (hr : findReq s m.dstHandle = some r) (hi : r.install = some i) (hd : i.dev = dev)
    (hh : i.handle = m.srcHandle) (hv : r.mverb ≠ 0) (hdoubt : r.doubt = false) (h3 : r.mverb ≠ 3 ∨ r.holding = true) :
    Does (.msgCommit dev m) s [.out, .regs, .work, .mem, .serve, .ctl, .tel] fun t => (findReq t m.dstHandle).map (fun x => (x.mverb, x.doubt, x.install)) =
      some (0, false, if (holdersOf r.planGroups).isEmpty then none else some { i with done := true }) ∧ t.serve.pages = s.serve.pages := by
  have hc : ¬(i.dev != dev || i.handle != m.srcHandle || decide (r.mverb = 0) || r.doubt) = true := by simp [hd, hh, hv, hdoubt]
  have hc3 : ¬(decide (r.mverb = 3) && !r.holding) = true := by obtain h | h := h3 <;> simp [h]
  have he : exec (.msgCommit dev m) s = .next (refAll (released s dev r i) r false (holdersOf r.planGroups) m.tag) := by
    rw [exec_msgCommit, execMsgCommit, onMsg_ok hok]
    simp only [hr, hi, if_neg hc, if_neg hc3]
    rfl
  refine .of_only he (execMsgCommit_only (.refl ..) (List.Subset.refl _)) ⟨?_, ?_⟩
  · rw [findReq_of_reqs (s := released s dev r i) (by rw [refAll_serve]), findReq_released hr, Option.map_some, hdoubt]
  · rw [refAll_serve]
    exact released_pages ..

/-- A COMMIT that names nothing held, or comes too late, changes nothing. -/
theorem exec_msgCommit_late (hok : msgOk s dev m true = true) (h : ∀ r, findReq s m.dstHandle = some r → r.doubt = true) : exec (.msgCommit dev m) s = .next s := by
  rw [exec_msgCommit, execMsgCommit, onMsg_ok hok]
  cases hr : findReq s m.dstHandle with
  | none => rfl
  | some r =>
    cases hi : r.install with
    | none => simp only [hi]
    | some i => simp only [hi, h r hr, Bool.or_true, if_true]

/-- The install of a device that a COMMIT has not released and that is not in doubt. -/
abbrev abortable (dev : Nat) (m : StateMsg) (r : Req) : Bool :=
  r.ptn == m.dstPtn && r.mverb != 0 && !r.doubt && (match r.install with | some i => i.dev == dev && i.handle == m.srcHandle | none => false)

theorem does_msgAbort {r : Req} (hok : msgOk s dev m true = true) (hf : s.serve.reqs.find? (abortable dev m) = some r) :
    Does (.msgAbort dev m) s [.mem, .serve, .ctl] fun t => findReq t r.handle = none ∧ findReception t m.dstPtn dev m.srcHandle m.epoch = none := by
  have he : exec (.msgAbort dev m) s = .next (freeReq (endReception s m.dstPtn dev m.srcHandle m.epoch []) r.handle) := by
    rw [exec_msgAbort, execMsgAbort, onMsg_ok hok]
    simp only [endReception_reqs]
    exact congrArg Host.Outcome.next (congrArg (fun o : Option Req => match o with
      | some r => freeReq (endReception s m.dstPtn dev m.srcHandle m.epoch []) r.handle
      | none => endReception s m.dstPtn dev m.srcHandle m.epoch []) hf)
  exact .of_only he (execMsgAbort_only (.refl ..) (List.Subset.refl _))
    ⟨findReq_freeReq .., (findReception_of_receptions (freeReq_receptions ..) ..).trans (findReception_endReception ..)⟩

/-! ### Timers of a held install (R372, R374, R377) -/

theorem does_installDoubt {h : Nat} {r : Req} {i : Install} (hr : findReq s h = some r) (hi : heldInstall r = some i) (hd : r.doubt = false) :
    Does (.installDoubt h) s [.out, .regs, .serve, .ctl, .mgt, .alm, .tel] fun t => (findReq t h).map (·.doubt) = some true ∧ t.serve.pages = s.serve.pages := by
  have he : exec (.installDoubt h) s = .next (raiseBoth (modReq s h fun r => { r with doubt := true }) r.ptn { cls := 4, code := 3, payload := [h, i.dev, i.handle] }) := by
    simp only [exec_installDoubt, execInstallDoubt, hr, hi, hd, Bool.false_eq_true, if_false]
  refine .of_only he (execInstallDoubt_only (.refl ..) (List.Subset.refl _)) ⟨?_, ?_⟩
  · rw [findReq_of_reqs (congrArg Serve.reqs (raiseBoth_serve ..)), findReq_modReq_of (f := fun r => { r with doubt := true }) hr fun _ => rfl]
    rfl
  · rw [raiseBoth_serve]; rfl

theorem exec_installDoubt_none {h : Nat} {r : Req} (hr : findReq s h = some r) (hn : heldInstall r = none ∨ r.doubt = true) : exec (.installDoubt h) s = .next s := by
  simp only [exec_installDoubt, execInstallDoubt, hr]
  split
  · next i hi => rw [if_pos (hn.resolve_left (by simp [hi]))]
  · rfl

/-- The answer to a held install is repeated (R372). -/
def ackRepeated (s : State) (h : Nat) (r : Req) (i : Install) : State :=
  sendState (modReq s h fun r => { r with install := some { i with ackAt := now s } }) i.dev 3
    { srcPtn := r.ptn, dstPtn := i.ptn, srcHandle := i.handle, dstHandle := h, epoch := r.epoch, tag := r.moveTag, args := 1 }

theorem does_heldAckRepeat {h : Nat} {r : Req} {i : Install} (hr : findReq s h = some r) (hi : heldInstall r = some i) (hiso : isolated s r.ptn = false) :
    Does (.heldAckRepeat h) s [.out, .serve] fun t => sentAnswer s t i.dev 3 stOK ∧ (findReq t h).map (·.install) = some (some { i with ackAt := now s }) := by
  have he : exec (.heldAckRepeat h) s = .next (ackRepeated s h r i) := by
    simp only [exec_heldAckRepeat, execHeldAckRepeat, hr, hi]
    rfl
  refine .of_only he (execHeldAckRepeat_only (.refl ..) (List.Subset.refl _)) ⟨sentAnswer_sendState (s := s) (u := modReq s h _) rfl rfl rfl hiso .., ?_⟩
  rw [ackRepeated, findReq_of_reqs (congrArg Serve.reqs (sendState_serve ..)),
    findReq_modReq_of (f := fun r => { r with install := some { i with ackAt := now s } }) hr fun _ => rfl]
  rfl

theorem does_receptionExpiry {p h ep : Nat} (hr : (findReception s p dev h ep).isSome = true) :
    Does (.receptionExpiry p dev h ep) s [.out, .regs, .mem, .serve, .ctl, .mgt, .alm, .tel] fun t => findReception t p dev h ep = none := by
  obtain ⟨r, hr⟩ := Option.isSome_iff_exists.mp hr
  have he : exec (.receptionExpiry p dev h ep) s = .next (raiseBoth (endReception s p dev h ep []) p { cls := 4, code := 5, payload := [dev, h, r.pages.length] }) := by
    simp only [exec_receptionExpiry, execReceptionExpiry, hr]
  exact .of_only he (execReceptionExpiry_only (.refl ..) (List.Subset.refl _))
    ((findReception_of_receptions (congrArg Serve.receptions (raiseBoth_serve ..)) ..).trans (findReception_endReception ..))

/-! ### INSTALL (R367, R371, R379) -/

/-- The install of a device that an INSTALL repeats. -/
abbrev repeatOf (dev : Nat) (m : StateMsg) (r : Req) : Bool :=
  r.ptn == m.dstPtn && r.epoch == m.epoch && (match r.install with | some i => i.dev == dev && i.handle == m.srcHandle && r.mverb != 0 | none => false)

theorem does_msgInstall_again {r : Req} (hok : msgOk s dev m true = true) (hf : s.serve.reqs.find? (repeatOf dev m) = some r) :
    Does (.msgInstall dev m) s [.out] fun t => sentAnswer s t dev 3 stOK := by
  have he : exec (.msgInstall dev m) s = .next (ackMsg s dev m 1 stOK m.srcHandle r.handle []) := by
    rw [exec_msgInstall, execMsgInstall, onMsg_ok hok]
    refine congrArg Host.Outcome.next ?_
    extract_lets p answer
    split
    · next q hq => rw [Option.some.inj (hq.symm.trans hf)]
    · next hq => cases hq.symm.trans hf
  exact .of_within he (sentAnswer_ackMsg rfl rfl rfl (not_isolated_of_msgOk hok) ..) (ackMsg_only (.refl ..) (List.Subset.refl _))

end

/-- Every request of `s` stands in `t`, at most in another state. -/
def StateOnly (s t : State) : Prop := ∀ r ∈ s.serve.reqs, ∃ st, { r with state := st } ∈ t.serve.reqs

namespace StateOnly
variable {s t u : State}

theorem of_reqs (h : t.serve.reqs = s.serve.reqs) : StateOnly s t := fun r hr => ⟨r.state, h ▸ hr⟩

theorem trans (h : StateOnly s t) (k : StateOnly t u) : StateOnly s u := fun r hr =>
  let ⟨st, hm⟩ := h r hr
  k { r with state := st } hm

theorem of_pages (h : PagesOnly s t) : StateOnly s t := .of_reqs h.reqs

theorem foldl {α : Type} {f : State → α → State} (h : ∀ s a, StateOnly s (f s a)) (l : List α) (s : State) : StateOnly s (l.foldl f s) := by
  induction l generalizing s with
  | nil => exact .of_reqs rfl
  | cons a r ih => exact (h s a).trans (ih _)
end StateOnly

theorem goState_stateOnly (s : State) (h : Nat) (st : RState) : StateOnly s (goState s h st) := by
  cases hr : findReq s h with
  | none => simp only [goState, hr]; exact .of_reqs rfl
  | some q =>
    rw [goState_of hr]
    intro r hm
    rw [← (stateLeft_pagesOnly s q st).reqs] at hm
    have ho : (if r.handle = h then { r with state := st } else r) ∈ (modReq (stateLeft s q st) h fun r => { r with state := st }).serve.reqs :=
      List.mem_map.mpr ⟨r, hm, by simp⟩
    split at ho
    · exact ⟨st, ho⟩
    · exact ⟨r.state, ho⟩

theorem promotePages_reqs (s : State) (h : Nat) (gs : List Page) : (promotePages s h gs).serve.reqs = s.serve.reqs :=
  foldl_keep (fun s => s.serve.reqs) _ (fun s g => by split <;> rfl) gs s

theorem startSeals_pagesOnly (s : State) (h l : Nat) : PagesOnly s (startSeals s h l) := by
  unfold startSeals
  split
  · exact .refl s
  · split
    · exact .refl s
    · split <;> exact .refl s

theorem serve_of_mem {s t : State} (h : Within [.mem] s t) : t.serve = s.serve := h.only.keeps .serve (by decide)

theorem farRoom_pagesOnly {s t : State} {p n fuel a : Nat} (h : farRoom s p n fuel = some (a, t)) : PagesOnly s t := by
  have ha {s t : State} (h : allocTiles s p true 0 0 n = some (a, t)) : PagesOnly s t := .of_serve (serve_of_mem (allocTiles_only_eq (.refl _ s) (List.Subset.refl _) h))
  induction fuel generalizing s with
  | zero => exact ha h
  | succ fuel ih =>
    unfold farRoom at h
    split at h
    · next x hx => exact ha (hx.trans h)
    · split at h
      · cases h
      · next g _ => exact ((pageTabs_pagesOnly (freeTiles s p (farTile0 + g.farAddr)) g false).trans (modPage_pagesOnly ..)).trans (ih h)

theorem tierWriteP_serve (s : State) (a : Nat) (bs : List Byte) (ws : List Nat) : (tierWriteP s a bs ws).serve = s.serve :=
  serve_of_mem (tierWriteP_only (.refl _ s) (List.Subset.refl _))

theorem putFar_pagesOnly (s : State) (p num tile packedLen tab : Nat) (bytes : List Byte) (bad : List Nat) : PagesOnly s (putFar s p num tile packedLen tab bytes bad) := by
  unfold putFar
  extract_lets s1
  have h1 : PagesOnly s s1 := PagesOnly.trans (.of_serve (tierWriteP_serve ..)) (modPage_pagesOnly ..)
  split
  · exact h1.trans (pageTabs_pagesOnly ..)
  · exact h1

theorem restPage_pagesOnly (s : State) (p num : Nat) : PagesOnly s (restPage s p num) := by
  unfold restPage
  split
  · exact .refl s
  · next g _ =>
    split
    · split
      · next tile s1 hf =>
        extract_lets n s2
        have h2 : PagesOnly s s2 := (farRoom_pagesOnly hf).trans (putFar_pagesOnly ..)
        have h3 : PagesOnly s2 (freeTiles s2 p g.nearAddr) := .of_serve rfl
        exact (h2.trans h3).trans (modPage_pagesOnly ..)
      · exact .refl s
    · exact .refl s

/-- Whatever entries of its map a request is given, the rest of its record stays. -/
theorem foldl_map_only {α : Type} {f : Req → α → Req} (hf : ∀ r a, ∃ mp, f r a = { r with map := mp }) (l : List α) (r : Req) : ∃ mp, l.foldl f r = { r with map := mp } := by
  induction l generalizing r with
  | nil => exact ⟨r.map, rfl⟩
  | cons a l ih =>
    obtain ⟨mp, hm⟩ := hf r a
    obtain ⟨mp', hm'⟩ := ih (f r a)
    exact ⟨mp', by rw [List.foldl_cons, hm', hm]⟩

/-- An installed request goes on to run, or to its promotions, or rests; nothing else of any request changes (R362, R367). -/
theorem runsOrRests_stateOnly (s : State) (h : Nat) (runs : Bool) (far : List Page) :
    StateOnly s (if !runs then s else if far.isEmpty then goState s h .decode else promotePages (goState s h .promoting) h far) := by
  split
  · exact .of_reqs rfl
  · split
    · exact goState_stateOnly s h .decode
    · exact (goState_stateOnly s h .promoting).trans (.of_reqs (promotePages_reqs ..))

/-- A request that an INSTALL of a device makes, its map and state aside (R367, R371). -/
structure Installed (s : State) (dev : Nat) (m : StateMsg) (r0 : Req) (slot gen : Nat) (r : Req) : Prop where
  ptn : r.ptn = m.dstPtn
  slot : r.slot = slot
  gen : r.gen = gen
  epoch : r.epoch = m.epoch
  mverb : r.mverb = r0.mverb
  length : r.length = r0.length
  install : r.install = some { dev := dev, ptn := m.srcPtn, handle := m.srcHandle, at_ := now s, ackAt := now s }

theorem Installed.of_map {s : State} {dev : Nat} {m : StateMsg} {r0 r : Req} {slot gen : Nat} (h : Installed s dev m r0 slot gen r) (mp : List (Nat × Nat)) (st : RState) :
    Installed s dev m r0 slot gen { r with map := mp, state := st } := ⟨h.ptn, h.slot, h.gen, h.epoch, h.mverb, h.length, h.install⟩

section
variable {s s1 : State} {dev : Nat} {m : StateMsg} {b pb : List Byte} {es : List (Nat × Nat)} {md : Model} {slot gen pmap area : Nat}

theorem exec_msgInstall_new (hok : msgOk s dev m true = true) (hbody : m.body = [.rsr b, .map es, .plan pb]) (hes : ∀ e ∈ es, bit e.2 28 = false)
    (hplan : planOk s pb (pb.length / 16) = true)
    (hgeo : ((((findReception s m.dstPtn dev m.srcHandle m.epoch).map (·.pages)).getD []).any fun x => (findPage s m.dstPtn x.2.2).any fun g => !sameGeo (parseRsr b) g) = false)
    (hnew : s.serve.reqs.find? (repeatOf dev m) = none) (hmd : modelOf s (parseRsr b).model = some md) (hl : md.layers = (parseRsr b).layers)
    (hlat : md.latent = (parseRsr b).latent) (hdim : (parseRsr b).dim = md.dim) (hgr : (parseRsr b).groups = (if md.latent then 0 else md.groups))
    (hpd : (parseRsr b).posDim = (if md.latent then md.posDim else 0)) (hslot : newSlot s m.dstPtn = some (slot, gen))
    (htake : takeStructures s m.dstPtn ((parseRsr b).layers * Nat.max 1 ((parseRsr b).maxTokens / pageTokens (parseRsr b).pageCode) * 4) (Nat.max 16 pb.length) = some (pmap, area, s1)) :
    ∃ t, exec (.msgInstall dev m) s = .next t ∧ ∃ r ∈ t.serve.reqs, Installed s dev m (parseRsr b) slot gen r := by
  rw [exec_msgInstall, execMsgInstall, onMsg_ok hok]
  refine ⟨_, rfl, ?_⟩
  extract_lets p answer
  split
  · next hq => cases hq.symm.trans hnew
  next r0 entries planB tails P perLayer have_ at_ isTail missing _ _ =>
  have hr0 : r0 = parseRsr b := by simp only [r0, hbody]; rfl
  have he : entries = es := by simp only [entries, hbody]; rfl
  have hp : planB = pb := by simp only [planB, hbody]; rfl
  have ht : tails = [] := by simp only [tails, hbody]; rfl
  clear_value r0 entries planB tails
  subst hr0 he hp ht
  have hmiss : missing = [] := List.filter_eq_nil_iff.mpr fun e h => by simp [hes e h]
  clear_value missing
  subst hmiss
  split
  · next hq => cases hq.symm.trans hmd
  next md' hq =>
  obtain rfl := Option.some.inj (hmd.symm.trans hq)
  rw [if_neg (by simp [hl, hlat, hdim, hgr, hpd, hplan]), if_neg (by simp only [have_, p, hgeo]; simp), if_neg (by simp)]
  split
  · next slot' gen' pmap' area' s1' hslot' _ =>
    obtain ⟨rfl, rfl⟩ := Prod.mk.inj (Option.some.inj (hslot'.symm.trans hslot))
    extract_lets r1 s2 r2 used s3 runs s4
    have hr1 : Installed s dev m (parseRsr b) slot' gen' r1 := ⟨rfl, rfl, rfl, rfl, rfl, rfl, rfl⟩
    obtain ⟨mp, hr2⟩ : ∃ mp, r2 = { r1 with map := mp } := by
      refine foldl_map_only (fun r e => ?_) entries r1
      dsimp only
      split
      · exact ⟨_, rfl⟩
      · split
        · split <;> exact ⟨_, rfl⟩
        · exact ⟨r.map, rfl⟩
    have h3 : { r2 with state := .parked } ∈ s3.serve.reqs := by
      simp only [s3, endReception_reqs]
      exact List.mem_append_right _ (List.mem_singleton_self _)
    have h4 : PagesOnly s3 s4 := by
      simp only [s4]
      split
      · exact .refl s3
      · exact .foldl (fun s n => restPage_pagesOnly s p n) used s3
    have h6 : StateOnly s3 ((List.range r2.layers).foldl (fun s l => startSeals s r2.handle l) s4) :=
      (StateOnly.of_pages h4).trans (.of_pages (.foldl (fun s l => startSeals_pagesOnly s r2.handle l) _ s4))
    obtain ⟨st, ht⟩ := h6.trans (runsOrRests_stateOnly _ r2.handle runs _) _ h3
    simp only [List.foldl_nil, answer, ackMsg_serve]
    exact ⟨_, ht, hr2 ▸ hr1.of_map mp st⟩
  · next h1 h2 => cases h2.symm.trans htake
  · next h1 => cases h1.symm.trans hslot
end

theorem does_msgInstall_new {s : State} {dev : Nat} {m : StateMsg} {r0 : Req} {slot gen : Nat} (h : ∃ t, exec (.msgInstall dev m) s = .next t ∧ ∃ r ∈ t.serve.reqs, Installed s dev m r0 slot gen r) :
    Does (.msgInstall dev m) s [.out, .mem, .serve, .ctl] fun t => ∃ r ∈ t.serve.reqs, r.ptn = m.dstPtn ∧ r.slot = slot ∧ r.gen = gen ∧ r.epoch = m.epoch ∧
      r.mverb = r0.mverb ∧ r.length = r0.length ∧ r.install = some { dev := dev, ptn := m.srcPtn, handle := m.srcHandle, at_ := now s, ackAt := now s } := by
  obtain ⟨t, he, r, hr, hi⟩ := h
  exact .of_only he (execMsgInstall_only (.refl ..) (List.Subset.refl _)) ⟨r, hr, hi.ptn, hi.slot, hi.gen, hi.epoch, hi.mverb, hi.length, hi.install⟩

end Sys2Proof.Machine

open Sys2Proof Sys2Proof.Machine

/-- Settles O24: pages wait in a reception, an INSTALL makes the request from what it carries, COMMIT and ABORT end what holds it, and each
timer of a held install acts once. -/
theorem installs : Obligations.Installs := by
  unfold Obligations.Installs
  exact ⟨fun _ _ _ hok hroom => does_msgPages hok hroom,
    fun _ _ _ hok hr hc hn => does_msgPages_busy hok hr hc hn,
    fun _ _ _ _ hok hf => does_msgInstall_again hok hf,
    fun _ _ _ _ _ _ _ _ _ _ _ _ hok hbody hes hplan hgeo hnew hmd hl hlat hdim hgr hpd hslot htake =>
      does_msgInstall_new (exec_msgInstall_new hok hbody hes hplan hgeo hnew hmd hl hlat hdim hgr hpd hslot htake),
    fun _ _ _ _ _ hok hr hi hd hh hv hdoubt h3 => does_msgCommit hok hr hi hd hh hv hdoubt h3,
    fun _ _ _ hok h => .of_same (exec_msgCommit_late hok h) rfl,
    fun _ _ _ _ hok hf => does_msgAbort hok hf,
    fun _ _ _ _ hr hi hd => does_installDoubt hr hi hd,
    fun _ _ _ hr hn => .of_same (exec_installDoubt_none hr hn) rfl,
    fun _ _ _ _ hr hi hiso => does_heldAckRepeat hr hi hiso,
    fun _ _ _ _ _ hr => does_receptionExpiry hr⟩

end

section
/-! PROOFS. Obligation O22: PARK, PROMOTE, EVICT, CLONE, DROP and PLAN on one device (R380, R391). -/

namespace Sys2Proof.Machine
open Sys2Proof

/-! ### A move that begins (R380) -/

theorem myDev_ringTake (s : State) (ring n : Nat) : myDev (ringTake s ring n) = myDev s := by
  simp only [myDev, regFld, getReg_of_store (ringTake_store s ring n)]

/-- What a request notes of a move that begins: its verb, its peer and its tag, and no page sent. -/
def begun (verb : Nat) (m : Move) (r : Req) : Req :=
  { r with mverb := verb, peer := m.dest, peerPtn := m.destPtn, moveTag := m.tag, pack := m.pack, pagesSent := 0, pagesAcked := 0, peerHandle := 0xFFFFFFFF }

/-- A move begins: its request notes it, and it joins the moves. -/
def moveBegun (s : State) (h verb : Nat) (m : Move) : State := addMove (modReq s h (begun verb m)) m

section
variable {s : State} {h verb : Nat} {m : Move} {r : Req}

theorem findReq_moveBegun (hr : findReq s h = some r) : findReq (moveBegun s h verb m) h = some (begun verb m r) :=
  findReq_modReq_of (f := begun verb m) hr fun _ => rfl

theorem findMove_moveBegun (hn : findMove s s.serve.nextMove = none) : findMove (moveBegun s h verb m) s.serve.nextMove = some { m with id := s.serve.nextMove } :=
  findMove_addMove (s := modReq s h (begun verb m)) hn m

theorem moveBegun_moves : (moveBegun s h verb m).serve.moves = s.serve.moves ++ [{ m with id := s.serve.nextMove }] := rfl

end

/-- A move goes on: it and its request are found. -/
structure Moving (s : State) (id h : Nat) (m : Move) (r : Req) : Prop where
  move : findMove s id = some m
  handle : m.handle = h
  req : findReq s h = some r
  whole : m.streaming = false

theorem myDev_goState (s : State) (h : Nat) (st : RState) : myDev (goState s h st) = myDev s := by
  have hr : (goState s h st).regs = s.regs := (goState_only (.refl [.mem, .serve, .ctl] s) (List.Subset.refl _)).only.keeps .regs (by decide)
  simp only [myDev, regFld, getReg_of_store (congrArg Regs.store hr)]

theorem moving_moveBegun {s : State} {h verb : Nat} {m : Move} {r : Req} (hr : findReq s h = some r) (hn : findMove s s.serve.nextMove = none) (hh : m.handle = h)
    (hs : m.streaming = false) : Moving (moveBegun s h verb m) s.serve.nextMove h { m with id := s.serve.nextMove } (begun verb m r) where
  move := findMove_moveBegun hn
  handle := hh
  req := findReq_moveBegun hr
  whole := hs

/-- A move goes on where neither the moves nor the requests have changed. -/
theorem Moving.kept {s t : State} {id h : Nat} {m : Move} {r : Req} (k : Moving s id h m r) (hm : t.serve.moves = s.serve.moves) (hr : t.serve.reqs = s.serve.reqs) :
    Moving t id h m r where
  move := (findMove_of_moves hm id).trans k.move
  handle := k.handle
  req := (findReq_of_reqs hr h).trans k.req
  whole := k.whole

/-! ### The end of a move here (R358, R380) -/

section
variable {s : State} {id h : Nat} {m : Move} {r : Req}

theorem moveDone_of (hm : findMove s id = some m) (st : Nat) : moveDone s id st =
    modReq (endMove (moveRec s m st (myDev s) m.handle (epochOf s m.handle)) id) m.handle fun r => if r.mverb = m.verb then { r with mverb := 0 } else r := by
  simp only [moveDone, hm]

/-- A move that ends leaves its request, with no verb. -/
theorem findReq_moveDone (k : Moving s id h m r) (st : Nat) :
    findReq (moveDone s id st) h = some (if r.mverb = m.verb then { r with mverb := 0 } else r) := by
  have he := endMove_movesOnly (moveRec s m st (myDev s) h (epochOf s h)) id
  rw [moveDone_of k.move, k.handle]
  refine findReq_modReq_of (f := fun r => if r.mverb = m.verb then { r with mverb := 0 } else r) ?_ fun r => by split <;> rfl
  rw [findReq_of_reqs (he.reqs.trans (congrArg Serve.reqs (moveRec_serve ..))), k.req]

theorem findReq_moveDone_state (k : Moving s id h m r) (st : Nat) : (findReq (moveDone s id st) h).map (·.state) = some r.state := by
  rw [findReq_moveDone k, Option.map_some]
  split <;> rfl

theorem moveDone_pages (hm : findMove s id = some m) (hc : m.carries = []) (st : Nat) : (moveDone s id st).serve.pages = s.serve.pages := by
  have hs : (moveRec s m st (myDev s) m.handle (epochOf s m.handle)).serve = s.serve := moveRec_serve ..
  rw [moveDone_of hm]
  exact (endMove_pages ((findMove_of_moves (by rw [hs]) id).trans hm) hc).trans (by rw [hs])

/-! ### How a move here is carried on (R380, R391) -/

theorem progressMove_parkWaits (k : Moving s id h m r) (hv : m.verb = 2) (hst : r.state ≠ .parked) (hb : reqBusy s h = true) : progressMove s id = s := by
  simp [progressMove, k.move, k.handle, k.req, k.whole, hv, hst, hb]

/-- The request without what its step left: the state in which a PARK looks for dirty pages. -/
abbrev stepTrimmed (s : State) (h : Nat) : State := trimStep (dropRetried s h) h

theorem progressMove_parks (k : Moving s id h m r) (hv : m.verb = 2) (hst : r.state ≠ .parked) (hb : reqBusy s h = false) (hd : m.dest = myDev s)
    (hp : ∀ g ∈ (stepTrimmed s h).serve.pages, g.dirty = []) :
    progressMove s id = moveDone (goState (stepTrimmed s h) h .parked) id stOK := by
  have hf : ((pagesOf (stepTrimmed s h) r).filter fun g => !g.dirty.isEmpty) = [] :=
    List.filter_eq_nil_iff.mpr fun g hg => by simp [hp g (List.mem_filter.mp hg).1]
  simp [progressMove, k.move, k.handle, k.req, k.whole, hv, hst, hb, hd, hf]

theorem progressMove_promoted (k : Moving s id h m r) (hv : m.verb = 3) (hd : m.dest = myDev s) (hst : r.state ≠ .promoting) : progressMove s id = moveDone s id stOK := by
  simp [progressMove, k.move, k.handle, k.req, k.whole, hv, hd, hst]

/-- An EVICT waits for its transfers, and ends when none is left. -/
theorem progressMove_evict (k : Moving s id h m r) (hv : m.verb = 4) :
    progressMove s id = s ∨ progressMove s id = moveDone s id stOK ∧ ∀ x ∈ s.serve.xfers, ∀ p n, x.what ≠ .evict p n h := by
  simp only [progressMove, k.move, k.handle, k.req, k.whole, hv, Bool.false_eq_true, if_false, if_true]
  split
  · exact .inl rfl
  · next hw =>
    refine .inr ⟨rfl, fun x hx p n he => hw (List.any_eq_true.mpr ⟨x, hx, ?_⟩)⟩
    simp [he]

end

/-! ### PARK -/

/-- A request goes to a state while its move goes on. -/
theorem Moving.goState {s : State} {id h : Nat} {m : Move} {r : Req} (k : Moving s id h m r) (st : RState) : Moving (goState s h st) id h m { r with state := st } where
  move := (findMove_of_moves (goState_moves ..) id).trans k.move
  handle := k.handle
  req := findReq_goState k.req st
  whole := k.whole

theorem findReq_trimStep {s : State} {h : Nat} {r : Req} (hr : findReq s h = some r) :
    findReq (trimStep s h) h = some { r with layer := 0, phase := 0, stepTokens := 0, task := none } := by
  simp only [trimStep, hr]
  exact findReq_modReq_of (f := fun r => { r with layer := 0, phase := 0, stepTokens := 0, task := none }) hr fun _ => rfl

theorem trimStep_moves (s : State) (h : Nat) : (trimStep s h).serve.moves = s.serve.moves := by
  unfold trimStep
  split <;> rfl

/-- What a step left is taken from a request while its move goes on. -/
theorem Moving.trimmed {s : State} {id h : Nat} {m : Move} {r : Req} (k : Moving s id h m r) :
    Moving (stepTrimmed s h) id h m { r with layer := 0, phase := 0, stepTokens := 0, task := none } where
  move := (findMove_of_moves (trimStep_moves ..) id).trans k.move
  handle := k.handle
  req := findReq_trimStep (s := dropRetried s h) k.req
  whole := k.whole

theorem trimStep_clean {s : State} (hp : ∀ g ∈ s.serve.pages, g.dirty = []) (h : Nat) : ∀ g ∈ (trimStep s h).serve.pages, g.dirty = [] := by
  unfold trimStep
  split
  · exact hp
  · intro g hg
    obtain ⟨g', hg', rfl⟩ := List.mem_map.mp hg
    split <;> exact hp g' hg'

section
variable {s : State} {v : View} {desc : BitVec 512} {r : Req} {verb : Nat}

/-- The state in which a move descriptor acts: it has been taken from its ring. -/
abbrev taken (s : State) (v : View) : State := ringTake s (subRing v 2)

/-- The move that a descriptor asks for there, and its number. -/
abbrev moveAsked (s : State) (v : View) (desc : BitVec 512) : Move := mvOf (taken s v) v desc.toNat
abbrev nextId (s : State) (v : View) : Nat := (taken s v).serve.nextMove

/-- The state in which it has begun. -/
abbrev askedBegun (s : State) (v : View) (desc : BitVec 512) (verb : Nat) (r : Req) : State := moveBegun (taken s v) r.handle verb (moveAsked s v desc)

theorem findReq_taken (k : moveActs v desc verb s r) : findReq (taken s v) r.handle = some r := by
  obtain ⟨-, -, -, hr⟩ := k
  rw [findReq_handle hr, findReq_of_reqs (congrArg Serve.reqs (ringTake_serve ..)), hr]

theorem asked_handle (k : moveActs v desc verb s r) : (moveAsked s v desc).handle = r.handle := by
  obtain ⟨-, -, -, hr⟩ := k
  exact (findReq_handle hr).symm

theorem asked_verb (k : moveActs v desc verb s r) : (moveAsked s v desc).verb = verb := by
  obtain ⟨-, hv, -, -⟩ := k
  exact hv

theorem findMove_taken (hn : findMove s s.serve.nextMove = none) : findMove (taken s v) (taken s v).serve.nextMove = none := by
  rw [findMove_of_moves (congrArg Serve.moves (ringTake_serve ..)), ringTake_serve, hn]

/-- A descriptor's move and its request are found as the move begins. -/
theorem moving_begun (k : moveActs v desc verb s r) (hn : findMove s s.serve.nextMove = none) :
    Moving (askedBegun s v desc verb r) (nextId s v) r.handle { moveAsked s v desc with id := nextId s v } (begun verb (moveAsked s v desc) r) :=
  moving_moveBegun (findReq_taken k) (findMove_taken hn) (asked_handle k) rfl

theorem reqBusy_begun (s : State) (v : View) (desc : BitVec 512) (verb : Nat) (r : Req) (h : Nat) : reqBusy (askedBegun s v desc verb r) h = reqBusy s h :=
  congrArg (fun w : Work => w.tasks.any _) (ringTake_work ..)

theorem begun_pages (s : State) (v : View) (desc : BitVec 512) (verb : Nat) (r : Req) : (askedBegun s v desc verb r).serve.pages = s.serve.pages := by
  simp only [moveBegun, addMove, modReq, State.modServe_serve, ringTake_serve]

theorem asked_here (hdev : bits desc.toNat 80 8 = myDev s) : (moveAsked s v desc).dest = myDev (askedBegun s v desc verb r) :=
  hdev.trans (myDev_ringTake ..).symm

theorem exec_movePark_acts (k : moveActs v desc 2 s r) (hd : r.doubt = false) :
    exec (.movePark v desc) s = .next (progressMove (askedBegun s v desc 2 r) (nextId s v)) := by
  rw [exec_movePark, execMovePark, takeMove_acts k]
  simp only [endDoubt, afterDoubt, hd, Bool.false_eq_true, if_false]
  rfl

theorem does_movePark_waits (k : moveActs v desc 2 s r) (hst : r.state = .decode) (hd : r.doubt = false) (hn : findMove s s.serve.nextMove = none) (hb : reqBusy s r.handle = true) :
    Does (.movePark v desc) s [.out, .freeCount, .regs, .cons, .work, .mem, .serve, .ctl, .tel] fun t =>
      (findReq t r.handle).map (fun x => (x.state, x.mverb)) = some (.decode, 2) ∧ ∃ m ∈ t.serve.moves, m.handle = r.handle ∧ m.verb = 2 := by
  have hm := moving_begun k hn
  have he := exec_movePark_acts k hd
  rw [progressMove_parkWaits hm (asked_verb k) (by simp [begun, hst]) ((reqBusy_begun ..).trans hb)] at he
  refine .of_only he (execMovePark_only (.refl ..) (List.Subset.refl _)) ⟨?_, _, List.mem_append_right _ (List.mem_singleton_self _), asked_handle k, asked_verb k⟩
  rw [findReq_moveBegun (findReq_taken k), Option.map_some, begun, hst]

theorem does_movePark_parks (k : moveActs v desc 2 s r) (hst : r.state = .decode) (hd : r.doubt = false) (hn : findMove s s.serve.nextMove = none) (hb : reqBusy s r.handle = false)
    (hdev : bits desc.toNat 80 8 = myDev s) (hp : ∀ g ∈ s.serve.pages, g.dirty = []) :
    Does (.movePark v desc) s [.out, .freeCount, .regs, .cons, .work, .mem, .serve, .ctl, .tel] fun t =>
      (findReq t r.handle).map (fun x => (x.state, x.mverb)) = some (.parked, 0) := by
  have hm := moving_begun k hn
  have he := exec_movePark_acts k hd
  rw [progressMove_parks hm (asked_verb k) (by simp [begun, hst]) ((reqBusy_begun ..).trans hb) (asked_here hdev)
    (trimStep_clean (s := dropRetried (askedBegun s v desc 2 r) r.handle) ((begun_pages s v desc 2 r).symm ▸ hp) r.handle)] at he
  refine .of_only he (execMovePark_only (.refl ..) (List.Subset.refl _)) ?_
  rw [findReq_moveDone (hm.trimmed.goState .parked), Option.map_some]
  simp [begun, asked_verb k]

/-! ### PROMOTE (R380) -/

/-- Where a page stands: its partition, its record and its position. -/
def Page.place (g : Page) : Nat × Nat × Nat × Nat := (g.ptn, g.num, g.layer, g.position)

theorem mem_pagesOf {s : State} {r : Req} {g : Page} : g ∈ pagesOf s r ↔ g ∈ s.serve.pages ∧ g.ptn = r.ptn ∧ r.pageNum g.layer g.position = some g.num := by
  simp [pagesOf]

/-- A page of a request is known by its place. -/
theorem mem_pagesOf_of_place {s t : State} {r : Req} {g g' : Page} (hg : g ∈ pagesOf s r) (hp : g'.place = g.place) (ht : g' ∈ t.serve.pages) : g' ∈ pagesOf t r := by
  obtain ⟨-, h1, h2⟩ := mem_pagesOf.mp hg
  simp only [Page.place, Prod.mk.injEq] at hp
  obtain ⟨e1, e2, e3, e4⟩ := hp
  exact mem_pagesOf.mpr ⟨ht, by rw [e1, h1], by rw [e2, e3, e4, h2]⟩

/-- A parked request that goes to PROMOTING pins pages; their places and PROMO stay (R254). -/
theorem goState_promoting_pages {s : State} {h : Nat} {r : Req} (hr : findReq s h = some r) (hst : r.state = .parked) :
    ∃ f : Page → Page, (∀ g, (f g).place = g.place ∧ (f g).promo = g.promo) ∧ (goState s h .promoting).serve.pages = s.serve.pages.map f := by
  refine ⟨fun g => if g.ptn == r.ptn && r.pageNums.contains g.num && g.nearValid then { g with pinNear := g.pinNear + 1 } else g, fun g => ?_, ?_⟩
  · dsimp only
    split <;> exact ⟨rfl, rfl⟩
  · rw [goState_of hr]
    simp only [stateLeft, pinning, hst, pinAll, modReq]
    rfl


end

theorem promotionEnds_busy {s : State} {h : Nat} {r : Req} (hr : findReq s h = some r) {g : Page} (hg : g ∈ pagesOf s r) (hp : g.promo = true) : promotionEnds s h = s := by
  have hb : (pagesOf s r).any (·.promo) = true := List.any_eq_true.mpr ⟨g, hg, hp⟩
  simp only [promotionEnds, hr, hb, Bool.or_true, if_true]

theorem promotionEnds_done {s : State} {id h : Nat} {m : Move} {r : Req} (k : Moving s id h m r) (hst : r.state = .promoting) (hv : m.verb = 3) (hd : m.dest = myDev s)
    (hp : ∀ g ∈ pagesOf s r, g.promo = false) (hf : s.serve.moves.find? (fun m => m.handle == h && m.verb == 3) = some m) :
    promotionEnds s h = moveDone (goState s h (if r.inputLeft = 0 then .decode else .prefill)) id stOK := by
  have hb : (pagesOf s r).any (·.promo) = false := List.any_eq_false.mpr fun g hg => by simp [hp g hg]
  have hs := k.goState (if r.inputLeft = 0 then .decode else .prefill)
  have hdev : myDev (goState s h (if r.inputLeft = 0 then .decode else .prefill)) = myDev s := myDev_goState ..
  simp only [promotionEnds, k.req, hst, hb, bne_self_eq_false, Bool.or_false, Bool.false_eq_true, if_false, goState_moves, hf, findMove_id k.move]
  exact progressMove_promoted hs hv (hd.trans hdev.symm) (by dsimp only; split <;> simp)

section
variable {s : State} {v : View} {desc : BitVec 512} {r : Req} {verb : Nat}

theorem mvBusy_of_status {s : State} {v : View} {x : Nat} {r : Req} (h : mvStatus s v x = 0) (hr : findReq s (mvReq x) = some r) : mvBusy s v r (mvVerb x) = false := by
  by_contra hb
  rw [Bool.not_eq_false] at hb
  simp only [mvStatus, hr, hb, Bool.true_or, if_true] at h
  split_ifs at h

/-- A request whose move begins has no other in progress (R357). -/
theorem moves_of_acts (k : moveActs v desc verb s r) (hv : verb ≠ 7) : ∀ m ∈ s.serve.moves, m.handle = r.handle → 6 < m.verb := by
  obtain ⟨-, hx, hst, hr⟩ := k
  have hb := mvBusy_of_status hst (r := r) ((findReq_of_reqs (congrArg Serve.reqs (ringTake_serve (s := s) ..)) _).trans hr)
  rw [hx] at hb
  intro m hm hh
  by_contra hle
  simp only [mvBusy, ringTake_serve, Bool.or_eq_false_iff, Bool.and_eq_false_iff, bne_eq_false_iff_eq, hv, false_or, List.any_eq_false] at hb
  exact hb.1 m hm (by simp [hh, Nat.le_of_not_lt hle])

/-- The state in which a PROMOTE looks for the pages to be promoted. -/
abbrev promoting (s : State) (v : View) (desc : BitVec 512) (r : Req) : State := goState (askedBegun s v desc 3 r) r.handle .promoting

/-- The pages without a Near copy that a PROMOTE names. -/
def wanted (s : State) (desc : BitVec 512) (r : Req) : List Page :=
  (pagesOf s r).filter fun g => g.state == .sealed && !g.nearValid && inRange (bits desc.toNat 160 16) (bits desc.toNat 176 16) g

theorem exec_movePromote_acts (k : moveActs v desc 3 s r) (hd : r.doubt = false) (hpull : bit desc.toNat 13 = false) (hdev : bits desc.toNat 80 8 = myDev s) :
    exec (.movePromote v desc) s = .next (promotionEnds (promotePages (promoting s v desc r) r.handle (wanted s desc r)) r.handle) := by
  have hh : ¬((moveAsked s v desc).dest != myDev (taken s v)) = true := by simp [show (moveAsked s v desc).dest = myDev (taken s v) from asked_here (verb := 3) (r := r) hdev]
  have hp : (moveAsked s v desc).pull = false := hpull
  have hw : wanted s desc r = (pagesOf (askedBegun s v desc 3 r) r).filter fun g => g.state == .sealed && !g.nearValid && inRange (bits desc.toNat 160 16) (bits desc.toNat 176 16) g := by
    simp only [wanted, pagesOf, begun_pages]
  rw [exec_movePromote, execMovePromote, takeMove_acts k, hw]
  simp only [if_neg hh, hp, endDoubt, afterDoubt, hd, Bool.false_eq_true, if_false]
  rfl

theorem does_movePromote_near (k : moveActs v desc 3 s r) (hst : r.state = .parked) (hd : r.doubt = false) (hpull : bit desc.toNat 13 = false) (hdev : bits desc.toNat 80 8 = myDev s)
    (hn : findMove s s.serve.nextMove = none) (hp : ∀ g ∈ pagesOf s r, g.nearValid = true ∧ g.promo = false) :
    Does (.movePromote v desc) s [.out, .freeCount, .regs, .cons, .work, .mem, .serve, .ctl, .tel] fun t =>
      (findReq t r.handle).map (·.state) = some (if r.inputLeft = 0 then .decode else .prefill) := by
  have hw : wanted s desc r = [] := List.filter_eq_nil_iff.mpr fun g hg => by simp [hp g hg]
  have he := exec_movePromote_acts k hd hpull hdev
  have hm := moving_begun k hn
  obtain ⟨f, hf, hpages⟩ := goState_promoting_pages hm.req (by exact hst)
  rw [hw, promotePages, List.foldl_nil, promotionEnds_done (hm.goState .promoting) rfl (asked_verb k) ((asked_here hdev).trans (myDev_goState ..).symm) ?_ ?_] at he
  · refine .of_only he (execMovePromote_only (.refl ..) (List.Subset.refl _)) ?_
    exact findReq_moveDone_state ((hm.goState .promoting).goState _) _
  · intro g' hg'
    obtain ⟨hg, hown⟩ := mem_pagesOf.mp hg'
    rw [hpages] at hg
    obtain ⟨g, hmem, rfl⟩ := List.mem_map.mp hg
    rw [(hf g).2]
    exact (hp g (mem_pagesOf_of_place (s := promoting s v desc r) hg' (hf g).1.symm (begun_pages s v desc 3 r ▸ hmem))).2
  · rw [goState_moves, moveBegun_moves, ringTake_serve, List.find?_append, List.find?_eq_none.mpr]
    · simp [asked_handle k, asked_verb k, nextId]
    · intro m hmem
      have := moves_of_acts k (by decide) m hmem
      simp only [Bool.and_eq_true, beq_iff_eq, not_and]
      omega

end

/-- Promotions add transfers, and leave every page in its place and PROMO where it stood. -/
structure PromoKept (s t : State) : Prop where
  xfers : s.serve.xfers ⊆ t.serve.xfers
  pages : ∀ g ∈ s.serve.pages, ∃ g' ∈ t.serve.pages, g'.place = g.place ∧ (g.promo = true → g'.promo = true)

theorem PromoKept.refl (s : State) : PromoKept s s := ⟨List.Subset.refl _, fun g hg => ⟨g, hg, rfl, id⟩⟩

theorem PromoKept.trans {s t u : State} (h : PromoKept s t) (k : PromoKept t u) : PromoKept s u := by
  refine ⟨fun x hx => k.xfers (h.xfers hx), fun g hg => ?_⟩
  obtain ⟨g1, h1, e1, p1⟩ := h.pages g hg
  obtain ⟨g2, h2, e2, p2⟩ := k.pages g1 h1
  exact ⟨g2, h2, e2.trans e1, p2 ∘ p1⟩

/-- The promotion of one page. -/
def promoteOne (h : Nat) (s : State) (g : Page) : State :=
  if g.promo then s else addXfer (modPage s g.ptn g.num fun g => { g with promo := true }) g.ptn 0 g.slotTiles (.promote g.ptn g.num h)

theorem promotePages_eq (s : State) (h : Nat) (gs : List Page) : promotePages s h gs = gs.foldl (promoteOne h) s := rfl

theorem promoteOne_kept (h : Nat) (s : State) (g : Page) : PromoKept s (promoteOne h s g) := by
  unfold promoteOne
  split
  · exact .refl s
  · refine ⟨List.subset_append_left .., fun g1 hg => ⟨_, List.mem_map_of_mem hg, ?_⟩⟩
    split
    · exact ⟨rfl, fun _ => rfl⟩
    · exact ⟨rfl, id⟩

theorem promotePages_kept (s : State) (h : Nat) (gs : List Page) : PromoKept s (promotePages s h gs) := by
  rw [promotePages_eq]
  induction gs generalizing s with
  | nil => exact .refl s
  | cons g gs ih => exact (promoteOne_kept h s g).trans (ih _)

/-- A page that is promoted waits for its transfer, with PROMO set (R256). -/
theorem promoteOne_promotes {s : State} {g g1 : Page} (h : Nat) (hp : g.promo = false) (hg : g1 ∈ s.serve.pages) (he : g1.place = g.place) :
    (∃ x ∈ (promoteOne h s g).serve.xfers, x.what = .promote g.ptn g.num h) ∧ ∃ g2 ∈ (promoteOne h s g).serve.pages, g2.place = g.place ∧ g2.promo = true := by
  rw [promoteOne, hp]
  simp only [Page.place, Prod.mk.injEq] at he
  obtain ⟨e1, e2, e3, e4⟩ := he
  refine ⟨⟨_, List.mem_append_right _ (List.mem_singleton_self _), rfl⟩, _, List.mem_map_of_mem hg, ?_⟩
  simp [e1, e2, e3, e4, Page.place]

theorem promotePages_promotes {s : State} {g : Page} {gs : List Page} (h : Nat) (hp : g.promo = false) (hg : g ∈ gs) (hs : ∃ g1 ∈ s.serve.pages, g1.place = g.place) :
    (∃ x ∈ (promotePages s h gs).serve.xfers, x.what = .promote g.ptn g.num h) ∧ ∃ g2 ∈ (promotePages s h gs).serve.pages, g2.place = g.place ∧ g2.promo = true := by
  induction gs generalizing s with
  | nil => cases hg
  | cons a gs ih =>
    obtain ⟨g1, h1, e1⟩ := hs
    obtain rfl | hg := List.mem_cons.mp hg
    · have hk : PromoKept (promoteOne h s g) (promotePages s h (g :: gs)) := promotePages_kept ..
      obtain ⟨⟨x, hx, hw⟩, g2, h2, e2, p2⟩ := promoteOne_promotes h hp h1 e1
      obtain ⟨g3, h3, e3, p3⟩ := hk.pages g2 h2
      exact ⟨⟨x, hk.xfers hx, hw⟩, g3, h3, e3.trans e2, p3 p2⟩
    · obtain ⟨g2, h2, e2, -⟩ := (promoteOne_kept h s a).pages g1 h1
      exact ih hg ⟨g2, h2, e2.trans e1⟩

section
variable {s : State} {v : View} {desc : BitVec 512} {r : Req} {g : Page}

theorem does_movePromote_far (k : moveActs v desc 3 s r) (hst : r.state = .parked) (hd : r.doubt = false) (hpull : bit desc.toNat 13 = false) (hdev : bits desc.toNat 80 8 = myDev s)
    (hg : g ∈ pagesOf s r) (hs : g.state = .sealed) (hnear : g.nearValid = false) (hp : g.promo = false) (hin : inRange (bits desc.toNat 160 16) (bits desc.toNat 176 16) g = true) :
    Does (.movePromote v desc) s [.out, .freeCount, .regs, .cons, .work, .mem, .serve, .ctl, .tel] fun t =>
      (findReq t r.handle).map (·.state) = some .promoting ∧ ∃ x ∈ t.serve.xfers, x.what = .promote g.ptn g.num r.handle := by
  have he := exec_movePromote_acts k hd hpull hdev
  have hr := findReq_moveBegun (verb := 3) (m := moveAsked s v desc) (findReq_taken k)
  obtain ⟨f, hf, hpages⟩ := goState_promoting_pages hr (by exact hst)
  have hw : g ∈ wanted s desc r := List.mem_filter.mpr ⟨hg, by simp [hs, hnear, hin]⟩
  have hr' : findReq (promotePages (promoting s v desc r) r.handle (wanted s desc r)) r.handle = some { begun 3 (moveAsked s v desc) r with state := .promoting } :=
    (findReq_of_reqs (promotePages_reqs ..) _).trans (findReq_goState hr .promoting)
  obtain ⟨hx, g2, h2, e2, p2⟩ := promotePages_promotes (s := promoting s v desc r) r.handle hp hw
    ⟨f g, by rw [hpages, begun_pages]; exact List.mem_map_of_mem (mem_pagesOf.mp hg).1, (hf g).1⟩
  rw [promotionEnds_busy hr' (mem_pagesOf_of_place hg e2 h2) p2] at he
  exact .of_only he (execMovePromote_only (.refl ..) (List.Subset.refl _)) ⟨congrArg (Option.map Req.state) hr', hx⟩

/-! ### EVICT (R391) -/

/-- The pages of a request that an EVICT names, and those of them that it evicts, in ascending position and then layer. -/
def named (s : State) (desc : BitVec 512) (r : Req) : List Page := (pagesOf s r).filter (inRange (bits desc.toNat 160 16) (bits desc.toNat 176 16))
def evicted (s : State) (desc : BitVec 512) (r : Req) : List Page := sortBy (fun g => g.position * 256 + g.layer) ((named s desc r).filter candidate)

theorem ownFar_ringTake (s : State) (ring n p : Nat) : ownFar (ringTake s ring n) p = ownFar s p := by
  simp only [ownFar, farGranules, granHolder, nearOwner, farOwner, ringTake_mem, getReg_of_store (ringTake_store s ring n)]

theorem countSkipped_serve (s : State) (p n : Nat) : (countSkipped s p n).serve = s.serve := by
  unfold countSkipped
  split
  · rfl
  · exact odCount_serve ..

theorem pagesOf_taken (s : State) (v : View) (r : Req) : pagesOf (taken s v) r = pagesOf s r := by simp only [pagesOf, ringTake_serve]

/-- The move of an EVICT, with the pages that it leaves in place. -/
def evictMove (s : State) (v : View) (desc : BitVec 512) (r : Req) : Move := { moveAsked s v desc with skipped := (named s desc r).length - (evicted s desc r).length }

/-- An EVICT has begun, and its transfers wait. -/
def evictBegun (s : State) (v : View) (desc : BitVec 512) (r : Req) : State :=
  countSkipped (moveBegun (taken s v) r.handle 4 (evictMove s v desc r)) r.ptn (evictMove s v desc r).skipped
def evictQueued (s : State) (v : View) (desc : BitVec 512) (r : Req) : State := (evicted s desc r).foldl (fun s g => evictPage s g r.handle) (evictBegun s v desc r)

theorem exec_moveEvict_acts (k : moveActs v desc 4 s r) (hfar : ownFar s r.ptn ≠ []) :
    exec (.moveEvict v desc) s = .next (progressMove (evictQueued s v desc r) (nextId s v)) := by
  have hf : (ownFar (taken s v) r.ptn).isEmpty = false := by rw [ownFar_ringTake]; simpa using hfar
  rw [exec_moveEvict, execMoveEvict, takeMove_acts k]
  simp only [pagesOf_taken, hf, Bool.false_eq_true, if_false]
  rfl

theorem evictBegun_serve (s : State) (v : View) (desc : BitVec 512) (r : Req) :
    (evictBegun s v desc r).serve = (moveBegun (taken s v) r.handle 4 (evictMove s v desc r)).serve := countSkipped_serve ..

theorem evictQueued_serve (s : State) (v : View) (desc : BitVec 512) (r : Req) : ∃ xs n,
    (evictQueued s v desc r).serve = { (evictBegun s v desc r).serve with xfers := (evictBegun s v desc r).serve.xfers ++ xs, nextXfer := n } ∧
      xs.map Xfer.job = (evicted s desc r).map fun g => (.evict g.ptn g.num r.handle, 0, g.ptn) :=
  foldl_addXfer (fun g : Page => g.ptn) (fun _ => 0) (fun _ g => if g.farValid then 0 else g.slotTiles) (fun g => .evict g.ptn g.num r.handle) (evicted s desc r) (evictBegun s v desc r)

theorem mem_evicted (hg : g ∈ pagesOf s r) (hin : inRange (bits desc.toNat 160 16) (bits desc.toNat 176 16) g = true) (hc : candidate g = true) : g ∈ evicted s desc r :=
  mem_sortBy_of_mem (List.mem_filter.mpr ⟨List.mem_filter.mpr ⟨hg, hin⟩, hc⟩)

theorem does_moveEvict (k : moveActs v desc 4 s r) (hn : findMove s s.serve.nextMove = none) (hfar : ownFar s r.ptn ≠ []) :
    Does (.moveEvict v desc) s [.out, .regs, .work, .mem, .serve, .ctl, .tel] fun t => t.serve.pages = s.serve.pages ∧
      ∀ g ∈ pagesOf s r, inRange (bits desc.toNat 160 16) (bits desc.toNat 176 16) g = true → candidate g = true → ∃ x ∈ t.serve.xfers, x.what = .evict g.ptn g.num r.handle := by
  obtain ⟨xs, n, hs, hx⟩ := evictQueued_serve s v desc r
  have hw : ∀ g ∈ evicted s desc r, ∃ x ∈ (evictQueued s v desc r).serve.xfers, x.what = .evict g.ptn g.num r.handle := fun g hg => by
    obtain ⟨x, hm, hj⟩ := exists_of_jobs hx hg
    exact ⟨x, by rw [hs]; exact List.mem_append_right _ hm, congrArg Prod.fst hj⟩
  have hpages : (evictQueued s v desc r).serve.pages = s.serve.pages := by
    rw [hs]
    exact (congrArg Serve.pages (evictBegun_serve ..)).trans (begun_pages s v desc 4 r)
  have hb : Moving (moveBegun (taken s v) r.handle 4 (evictMove s v desc r)) (nextId s v) r.handle { evictMove s v desc r with id := nextId s v }
      (begun 4 (evictMove s v desc r) r) := moving_moveBegun (findReq_taken k) (findMove_taken hn) (asked_handle k) rfl
  have hm := hb.kept (t := evictQueued s v desc r) (by rw [hs, evictBegun_serve]) (by rw [hs, evictBegun_serve])
  refine .of_only (exec_moveEvict_acts k hfar) (execMoveEvict_only (.refl ..) (List.Subset.refl _)) ?_
  obtain he | ⟨he, hnone⟩ := progressMove_evict hm (asked_verb k)
  · rw [he]
    exact ⟨hpages, fun g hg hin hc => hw g (mem_evicted hg hin hc)⟩
  · rw [he]
    refine ⟨(moveDone_pages hm.move rfl _).trans hpages, fun g hg hin hc => ?_⟩
    obtain ⟨x, hx, hwhat⟩ := hw g (mem_evicted hg hin hc)
    exact absurd hwhat (hnone x hx _ _)

end

/-! ### CLONE (R380) -/

section
variable {s s1 : State} {v : View} {desc : BitVec 512} {r : Req} {slot gen pmap : Nat}

/-- The request that a CLONE makes, its map aside. -/
structure Cloned (desc : BitVec 512) (r : Req) (slot gen pmap : Nat) (c : Req) : Prop where
  ptn : c.ptn = r.ptn
  slot : c.slot = slot
  gen : c.gen = gen
  state : c.state = .parked
  epoch : c.epoch = 0
  seed : c.seed = bits desc.toNat 192 64
  length : c.length = r.lenAt
  model : c.model = r.model
  pmap : c.pmap = pmap

theorem Cloned.of_map {c : Req} (h : Cloned desc r slot gen pmap c) (mp : List (Nat × Nat)) : Cloned desc r slot gen pmap { c with map := mp } :=
  ⟨h.ptn, h.slot, h.gen, h.state, h.epoch, h.seed, h.length, h.model, h.pmap⟩

theorem pageRecords_ringTake (s : State) (ring n p : Nat) : pageRecords (ringTake s ring n) p = pageRecords s p := by
  simp only [pageRecords, liveLimit, odGet_of_ctl (ringTake_ctl (s := s) ring n)]

theorem exec_moveClone_acts (k : moveActs v desc 5 s r)
    (hp : ∀ g ∈ pagesOf s r, g.position * r.pageLen < r.lenAt → g.state = .sealed ∧ (g.position + 1) * r.pageLen ≤ r.lenAt ∧ g.refcnt < 2 ^ 24 - 1)
    (hroom : (s.serve.pages.filter (·.ptn == r.ptn)).length ≤ pageRecords s r.ptn) (hslot : newSlot (taken s v) r.ptn = some (slot, gen))
    (hmap : allocOwn (taken s v) r.ptn (r.layers * (r.maxTokens / r.pageLen) * 4) = some (pmap, s1)) :
    ∃ t, exec (.moveClone v desc) s = .next t ∧ ∃ c ∈ t.serve.reqs, Cloned desc r slot gen pmap c := by
  rw [exec_moveClone, execMoveClone, takeMove_acts k]
  refine ⟨_, rfl, ?_⟩
  extract_lets fail short gs isSealed shared
  have hgs : ∀ g ∈ gs, shared g = true ∧ g.refcnt < 2 ^ 24 - 1 := fun g hg => by
    obtain ⟨hg, hlt⟩ := List.mem_filter.mp hg
    rw [pagesOf_taken] at hg
    obtain ⟨hst, hfull, href⟩ := hp g hg (by simpa using hlt)
    exact ⟨by simp [shared, isSealed, hst, hfull], href⟩
  have htail : (gs.filter fun g => !shared g) = [] := List.filter_eq_nil_iff.mpr fun g hg => by simp [(hgs g hg).1]
  have hany : (gs.any fun g => shared g && decide (g.refcnt ≥ 2 ^ 24 - 1)) = false := List.any_eq_false.mpr fun g hg => by simpa using fun _ => (hgs g hg).2
  rw [if_neg (by
    simp only [hany, htail, List.length_nil, Nat.add_zero, pageRecords_ringTake, ringTake_serve, Bool.false_or, decide_eq_true_eq]
    exact Nat.not_lt.mpr hroom)]
  split
  · next slot' gen' pmap' s1' hslot' hmap' =>
    obtain ⟨rfl, rfl⟩ := Prod.mk.inj (Option.some.inj (hslot'.symm.trans hslot))
    obtain ⟨rfl, rfl⟩ := Prod.mk.inj (Option.some.inj (hmap'.symm.trans hmap))
    extract_lets c0 c1 c2 s2 tail
    have hc1 : Cloned desc r slot' gen' pmap' c1 := ⟨rfl, rfl, rfl, rfl, rfl, rfl, rfl, rfl, rfl⟩
    obtain ⟨mp, hc2⟩ : ∃ mp, c2 = { c1 with map := mp } := foldl_map_only (fun c g => ⟨_, rfl⟩) (gs.filter shared) c1
    have h2 : c2 ∈ s2.serve.reqs := List.mem_append_right _ (List.mem_singleton_self _)
    have ht : tail = some s2 := by simp only [tail, htail, List.foldl_nil]
    clear_value tail
    subst ht
    dsimp only
    rw [moveRec_serve, refAll_serve]
    have hk : PagesOnly s2 ((layersOf c2).foldl (fun s l => startSeals s c2.handle l) s2) := .foldl (fun s l => startSeals_pagesOnly s c2.handle l) _ s2
    refine ⟨c2, hk.reqs ▸ h2, ?_⟩
    rw [hc2]
    exact hc1.of_map mp
  · next h => exact (h slot gen pmap s1 hslot hmap).elim

theorem does_moveClone (h : ∃ t, exec (.moveClone v desc) s = .next t ∧ ∃ c ∈ t.serve.reqs, Cloned desc r slot gen pmap c) :
    Does (.moveClone v desc) s [.out, .regs, .mem, .serve, .ctl, .tel] fun t => ∃ c ∈ t.serve.reqs, c.ptn = r.ptn ∧ c.slot = slot ∧ c.gen = gen ∧ c.state = .parked ∧ c.epoch = 0 ∧
      c.seed = bits desc.toNat 192 64 ∧ c.length = r.lenAt ∧ c.model = r.model ∧ c.pmap = pmap := by
  obtain ⟨t, he, c, hc, hd⟩ := h
  exact .of_only he (execMoveClone_only (.refl ..) (List.Subset.refl _)) ⟨c, hc, hd.ptn, hd.slot, hd.gen, hd.state, hd.epoch, hd.seed, hd.length, hd.model, hd.pmap⟩

end

/-! ### DROP (R380, R385) -/

/-- A DROP ends a request that has no task: its handle is stale, and no task that goes on meanwhile brings it back. -/
theorem findReq_dropNow {s : State} {h id : Nat} (hr : (findReq s h).isSome = true) (hm : (findMove s id).isSome = true) (ht : ∀ k ∈ s.work.tasks, k.request ≠ some h) :
    findReq (dropNow s h id) h = none := by
  obtain ⟨r, hr⟩ := Option.isSome_iff_exists.mp hr
  obtain ⟨m, hm⟩ := Option.isSome_iff_exists.mp hm
  have hw : Within [.out, .regs, .mem, .serve, .tel] s (freeReq (releaseAll (moveRec s m stOK (myDev s) h r.epoch) r) h) :=
    freeReq_only (releaseAll_only (moveRec_only (.refl ..) (by decide)) (by decide)) (by decide)
  simp only [dropNow, hr, hm]
  rw [stopReqTasks_of_none stCANCELLED (hw.only.keeps .work (by decide) ▸ ht), findReq_of_reqs (settle_pagesOnly ..).reqs]
  exact findReq_freeReq ..

/-- A DROP of a request in doubt forgets its install (R374). -/
def doubtForgotten (s : State) (r : Req) : State := if r.doubt then modReq s r.handle fun r => { r with doubt := false, install := none } else s

theorem findReq_doubtForgotten {s : State} {r : Req} (hr : findReq s r.handle = some r) :
    ∃ r', findReq (doubtForgotten s r) r.handle = some r' ∧ r'.remoteRefs = r.remoteRefs := by
  unfold doubtForgotten
  split
  · exact ⟨_, findReq_modReq_of (f := fun r => { r with doubt := false, install := none }) hr fun _ => rfl, rfl⟩
  · exact ⟨r, hr, rfl⟩

theorem doubtForgotten_pages (s : State) (r : Req) : (doubtForgotten s r).serve.pages = s.serve.pages := by
  unfold doubtForgotten
  split <;> rfl

theorem doubtForgotten_nextMove (s : State) (r : Req) : (doubtForgotten s r).serve.nextMove = s.serve.nextMove := by
  unfold doubtForgotten
  split <;> rfl

theorem doubtForgotten_work (s : State) (r : Req) : (doubtForgotten s r).work = s.work := by
  unfold doubtForgotten
  split <;> rfl

theorem findMove_moveBegun_isSome (s : State) (h verb : Nat) (m : Move) : (findMove (moveBegun s h verb m) s.serve.nextMove).isSome = true :=
  List.find?_isSome.mpr ⟨_, List.mem_append_right _ (List.mem_singleton_self _), beq_self_eq_true _⟩

theorem findReq_takeRefs_isSome {s : State} {r r' : Req} (hr : findReq s r.handle = some r') (n : Nat) (sets : List (Nat × Nat × List Nat)) :
    (findReq (takeRefs s r n sets) r.handle).isSome = true := by
  rw [takeRefs, findReq_of_reqs (dropSets_pagesOnly ..).reqs,
    findReq_modReq_of (f := fun r => { r with remoteRefs := r.remoteRefs - n, refSets := sets.foldl (fun l x => l.erase x) r.refSets }) hr fun _ => rfl]
  rfl

theorem findMove_takeRefs (s : State) (r : Req) (n : Nat) (sets : List (Nat × Nat × List Nat)) (id : Nat) : findMove (takeRefs s r n sets) id = findMove s id :=
  findMove_of_moves (s := modReq s r.handle _) (dropSets_pagesOnly ..).moves id

section
variable {s : State} {v : View} {desc : BitVec 512} {r : Req}

/-- The state in which a DROP has begun. -/
def dropBegun (s : State) (v : View) (desc : BitVec 512) (r : Req) : State := moveBegun (doubtForgotten (taken s v) r) r.handle 6 (moveAsked s v desc)

theorem exec_moveDrop_acts (k : moveActs v desc 6 s r) : exec (.moveDrop v desc) s = .next (
    if r.holding && r.remoteRefs != 0 then
      if bit desc.toNat 14 then dropNow (takeRefs (dropBegun s v desc r) r r.remoteRefs r.refSets) r.handle (nextId s v)
      else modReq (dropBegun s v desc r) r.handle fun r => { r with dropPending := true }
    else dropNow (dropBegun s v desc r) r.handle (nextId s v)) := by
  rw [exec_moveDrop, execMoveDrop, takeMove_acts k]
  rfl

theorem findReq_dropBegun (k : moveActs v desc 6 s r) : ∃ r', findReq (dropBegun s v desc r) r.handle = some r' ∧ r'.remoteRefs = r.remoteRefs := by
  obtain ⟨r', hr', he⟩ := findReq_doubtForgotten (findReq_taken k)
  exact ⟨_, findReq_moveBegun hr', he⟩

theorem findMove_dropBegun (s : State) (v : View) (desc : BitVec 512) (r : Req) : (findMove (dropBegun s v desc r) (nextId s v)).isSome = true := by
  rw [nextId, ← doubtForgotten_nextMove (taken s v) r]
  exact findMove_moveBegun_isSome ..

theorem dropBegun_work (s : State) (v : View) (desc : BitVec 512) (r : Req) : (dropBegun s v desc r).work = s.work :=
  (doubtForgotten_work ..).trans (ringTake_work ..)

theorem does_moveDrop (k : moveActs v desc 6 s r) (hrefs : r.holding = false ∨ r.remoteRefs = 0 ∨ bit desc.toNat 14 = true) (ht : ∀ k ∈ s.work.tasks, k.request ≠ some r.handle) :
    Does (.moveDrop v desc) s [.out, .freeCount, .regs, .cons, .work, .mem, .serve, .ctl, .tel] fun t => findReq t r.handle = none := by
  obtain ⟨r', hr', -⟩ := findReq_dropBegun k
  have hwork := dropBegun_work s v desc r
  refine .of_only (exec_moveDrop_acts k) (execMoveDrop_only (.refl ..) (List.Subset.refl _)) ?_
  split
  · next hh =>
    rw [if_pos (by simp only [Bool.and_eq_true, bne_iff_ne] at hh; simpa [hh.1, hh.2] using hrefs)]
    have hw : (takeRefs (dropBegun s v desc r) r r.remoteRefs r.refSets).work = s.work :=
      ((takeRefs_only (.refl [.mem, .serve] _) (List.Subset.refl _)).only.keeps .work (by decide)).trans hwork
    exact findReq_dropNow (findReq_takeRefs_isSome hr' ..) (by rw [findMove_takeRefs]; exact findMove_dropBegun ..) (hw ▸ ht)
  · exact findReq_dropNow (by rw [hr']; rfl) (findMove_dropBegun ..) (hwork ▸ ht)

theorem does_moveDrop_pending (k : moveActs v desc 6 s r) (hh : r.holding = true) (hrefs : r.remoteRefs ≠ 0) (hf : bit desc.toNat 14 = false) :
    Does (.moveDrop v desc) s [.out, .freeCount, .regs, .cons, .work, .mem, .serve, .ctl, .tel] fun t =>
      (findReq t r.handle).map (fun x => (x.dropPending, x.remoteRefs)) = some (true, r.remoteRefs) ∧ t.serve.pages = s.serve.pages := by
  obtain ⟨r', hr', he⟩ := findReq_dropBegun k
  have hx := exec_moveDrop_acts k
  rw [if_pos (by simp [hh, hrefs]), hf, if_neg Bool.false_ne_true] at hx
  refine .of_only hx (execMoveDrop_only (.refl ..) (List.Subset.refl _)) ⟨?_, ?_⟩
  · rw [findReq_modReq_of (f := fun r => { r with dropPending := true }) hr' fun _ => rfl, Option.map_some, he]
  · exact (doubtForgotten_pages ..).trans (congrArg Serve.pages (ringTake_serve (s := s) ..))

/-! ### PLAN (R380, R382) -/

theorem does_movePlan {gs : List Group} (k : moveActs v desc 7 s r) (hplan : readPlan (taken s v) r.ptn (bits desc.toNat 192 64) (bits desc.toNat 256 16) = some gs)
    (hcov : (r.map.any fun e => bit e.2 29 && !planned gs (e.1 % (r.maxTokens / r.pageLen))) = false) :
    Does (.movePlan v desc) s [.out, .regs, .serve, .ctl, .tel] fun t => t.serve.reqs = s.serve.reqs ∧ ∃ m ∈ t.serve.moves, m.handle = r.handle ∧ m.verb = 7 ∧ m.plan = gs := by
  obtain ⟨u, he, hs⟩ : ∃ u, exec (.movePlan v desc) s = .next u ∧ u.serve.reqs = (taken s v).serve.reqs ∧ ∃ m ∈ u.serve.moves, m.handle = r.handle ∧ m.verb = 7 ∧ m.plan = gs := by
    rw [exec_movePlan, execMovePlan, if_pos (show mvVerb desc.toNat = 7 from asked_verb k), takeMove_acts k]
    simp only [hplan, hcov, Bool.false_eq_true, if_false]
    refine ⟨_, rfl, ?_⟩
    rw [refAll_serve]
    exact ⟨rfl, _, List.mem_append_right _ (List.mem_singleton_self _), asked_handle k, asked_verb k, rfl⟩
  exact .of_only he (execMovePlan_only (.refl ..) (List.Subset.refl _)) ⟨hs.1.trans (by rw [ringTake_serve]), hs.2⟩

end

end Sys2Proof.Machine

open Sys2Proof Sys2Proof.Machine

/-- Settles O22: each verb's move begins, and ends at once or waits for tasks, transfers or references. -/
theorem movesHere : Obligations.MovesHere := by
  unfold Obligations.MovesHere
  exact ⟨fun _ _ _ _ k hst hd hn hb => does_movePark_waits k hst hd hn hb,
    fun _ _ _ _ k hst hd hn hb hdev hp => does_movePark_parks k hst hd hn hb hdev hp,
    fun _ _ _ _ k hst hd hpull hdev hn hp => does_movePromote_near k hst hd hpull hdev hn hp,
    fun _ _ _ _ _ k hst hd hpull hdev hg hs hnear hp hin => does_movePromote_far k hst hd hpull hdev hg hs hnear hp hin,
    fun _ _ _ _ k hn hfar => does_moveEvict k hn hfar,
    fun _ _ _ _ _ _ _ _ k hp hroom hslot hmap => does_moveClone (exec_moveClone_acts k hp hroom hslot hmap),
    fun _ _ _ _ k hrefs ht => does_moveDrop k hrefs ht,
    fun _ _ _ _ k hh hrefs hf => does_moveDrop_pending k hh hrefs hf,
    fun _ _ _ _ _ k hplan hcov => does_movePlan k hplan hcov⟩

end
